-- ==== Sys2Proof/Word.lean ====
section
/-! DEFINITION. The word types of the Knasen 9480 and their plainest arithmetic.
Instruction words and addresses in computation are bit vectors; a code word that is
only taken apart is a natural number (R18, R24). -/

namespace Sys2Proof

/-- A byte of memory. -/
abbrev Byte := BitVec 8
/-- One lane of a vector register (R81). -/
abbrev W32 := BitVec 32
/-- A scalar register, a code word, a register of the device (R81). -/
abbrev W64 := BitVec 64
/-- One bit for each of the 1024 lanes of a team: 32 mask words of 32 bits, word 0 lowest (R53). -/
abbrev Mask := BitVec 1024

/-- The bits [lo+n-1 : lo] of a number. -/
def fld (w lo n : Nat) : Nat := w / 2 ^ lo % 2 ^ n

/-- A Bool as a bit. -/
def bit (b : Bool) : Nat := if b then 1 else 0

end Sys2Proof
end

