-- ==== Sys2Proof/Config.lean ====
section
/-! DEFINITION. What the manual leaves open. Each constant here is a free value: it has no
body, so nothing can be proved of the number it gives, and a claim that holds of the model holds
whatever it is. The step applies it to State.free, which it advances (log 5). -/

namespace Sys2Proof.Config

/-- A choice among several: used modulo the number of possibilities (R351 pop, R293 compression). -/
opaque freeNat : Nat → Nat
/-- A mask of lanes: which lanes of a consumer whose fixed-latency dependence is unmet read the
producer's result, the others reading the earlier content (R32). -/
opaque freeMask : Nat → Mask
/-- A byte the manual does not lay out (the sections of a save record, R380). -/
opaque freeByte : Nat → Nat → Byte
/-- A word the manual does not give (a signature, R396; a word read at an unfixed time). -/
opaque freeWord : Nat → W64

/-- The set in which a cache holds a line, modulo its sets: caches 0 the L1, 1 a core's instruction cache, 2 the L2 (R285, R33 name
no function). -/
opaque cacheSet : Nat → Nat → Nat
/-- Which of the candidates leaves a full cache, modulo their number: the cache (0, 1, 3 a TLB, 4 a stack's instruction cache), the
line or page that enters, and the number of the fill (R33, R285, R290 name no victim). -/
opaque victim : Nat → Nat → Nat → Nat

/-- The path of the packets to a home in another package, modulo the paths that work (R389 gives no hash). -/
opaque pathOf : Nat → Nat

end Sys2Proof.Config
end

