-- ==== Sys2Proof/Syntax.lean ====
section
/-! DEFINITION. The instructions of the Knasen 9480 and the events of the device:
one constructor for each row of spec/opcode_table.json. Operands are decoded here once: register
numbers, types and modes are data, never raw codes. -/

namespace Sys2Proof

/-- v0 to v63 (R20). -/
abbrev VReg := Fin 64
/-- s0 to s63. -/
abbrev SReg := Fin 64
/-- p0 to p95. -/
abbrev PReg := Fin 96
/-- w0 to w15. -/
abbrev WReg := Fin 16
/-- q0 to q15. -/
abbrev QReg := Fin 16

/-- An operand that is a vector or a scalar register (R137). -/
inductive VS where
  | v (r : VReg)
  | s (r : SReg)
deriving DecidableEq, Repr

/-- The fields every body word carries (R18). -/
structure Hdr where
  stall : Fin 64
  guard : PReg
  gneg  : Bool
  fresh : Bool
deriving DecidableEq, Repr

/-- Integer codes of TYPE (R22). -/
inductive ITy where
  | i32 | n32 | i64 | n64 | i16 | n16 | i8 | n8
deriving DecidableEq, Repr

/-- Floating-point codes of TYPE (R22, R112). -/
inductive FTy where
  | f32 | f16 | bf16 | f8e4 | f8e5
deriving DecidableEq, Repr

/-- A TYPE code: floating point or integer. -/
inductive NTy where
  | f (t : FTy)
  | i (t : ITy)
deriving DecidableEq, Repr

/-- Rounding modes (R123). -/
inductive RMode where
  | rne | rtz | rdn | rup
deriving DecidableEq, Repr

/-- The ROUND field: a mode, and whether subnormals are flushed (R22, R125). -/
structure Rnd where
  mode : RMode
  ftz  : Bool
deriving DecidableEq, Repr

/-- Integer comparisons (R145). -/
inductive ICond where
  | eq | ne | lt | le | gt | ge
deriving DecidableEq, Repr

/-- Floating-point comparisons (R150). -/
inductive FCond where
  | eq | ne | lt | le | gt | ge | un | or
deriving DecidableEq, Repr

/-- The thirteen paired integer operations (R141). -/
inductive IOp where
  | add | sub | mul | mulh | mad | and | or | xor | shl | shr | sar | min | max
deriving DecidableEq, Repr

/-- VSHUF modes (R160). -/
inductive Shuf where
  | index | xor | up | down
deriving DecidableEq, Repr

/-- VREDUCE and VSCAN operations (R162). -/
inductive RedOp where
  | add | min | max | and | or | xor
deriving DecidableEq, Repr

/-- SPACE (R22, R165). -/
inductive Space where
  | glob | pocket | pack | camp | bcamp
deriving DecidableEq, Repr

/-- ORDER (R22). -/
inductive Order where
  | plain | acq | rel | ar
deriving DecidableEq, Repr

/-- SIZE: 2^n bytes (R22). -/
inductive Size where
  | b8 | b16 | b32 | b64 | b128
deriving DecidableEq, Repr

/-- Operations of ATOM and RED (R190). -/
inductive AOp where
  | xchg | cas | add | min | max | and | or | xor | inc | dec | fadd | fmin | fmax
deriving DecidableEq, Repr

/-- FIELD of VWADJ (R193). -/
inductive AdjField where
  | orgAdd | orgSet | cntSet | stepSet
deriving DecidableEq, Repr

/-- The operand classes PMOV admits (R77). -/
inductive PMovForm where
  | pp (d a : PReg)
  | pv (d : PReg) (a : VReg)
  | ps (d : PReg) (a : SReg)
  | vp (d : VReg) (a : PReg)
deriving DecidableEq, Repr

/-- The operand classes SMOV admits (R107). -/
inductive SMovForm where
  | ss (d a : SReg)
  | push (q : QReg) (a : SReg)
  | pop (d : SReg) (q : QReg)
deriving DecidableEq, Repr

/-- The operand classes VMOV admits (R107). -/
inductive VMovForm where
  | vv (d a : VReg)
  | vs (d : VReg) (a : SReg)
  | push (q : QReg) (a : VReg)
  | pop (d : VReg) (q : QReg)
deriving DecidableEq, Repr

/-- CALL targets: a word offset, or a scalar (R65). -/
inductive CallTgt where
  | off (o : BitVec 24)
  | reg (r : SReg)
deriving DecidableEq, Repr

/-- The space of MLDA, ZLD, ZST and KVAPP (R215, R236). -/
inductive MSpace where
  | glob | pack | bcamp
deriving DecidableEq, Repr

/-- Weight formats of MLDA (R203). -/
inductive WFmt where
  | cb4 | i8 | f8e4 | f8e5 | bf16
deriving DecidableEq, Repr

/-- Source formats of PLANE (R215). -/
inductive PSrc where
  | f32 | f16 | bf16 | f8e4 | f8e5 | i8 | i4 | i2 | i1
deriving DecidableEq, Repr

/-- Formats of ZST (R222). -/
inductive ZFmt where
  | f32 | bf16 | f16 | f8e4
deriving DecidableEq, Repr

/-- Operations of ZMAP (R223). -/
inductive ZOp where
  | mov | add | scale | relu
deriving DecidableEq, Repr

/-- Special registers (R357). -/
inductive Sr where
  | wid | arg | lane | team | depth | tick | cause | faddr | fstat | check | mflags | core | ctx
deriving DecidableEq, Repr

/-- The issuing party of an instruction stream: the team of a slot, or the matrix stream of a core. -/
inductive Party where
  | team (core slot : Nat)
  | ridge (core : Nat)
deriving DecidableEq, Repr

/-- Memory-mapped registers that a write may name (R7), each written as its rule says. -/
inductive RegName where
  | schSlip | schDictwait | schStkspill | vtbLook | vtbHit | vtbKill | vtbPerr | schSlicewait
  | cmpWait | cmpFull | mmxPlanecyc | mmxMmacnt | mmxBarwait | memTlbmiss | memReissue
  | stkEvict | stkNofree | stkDrain | cpyBytes | cpyRingfull | hgeFetch | hgeReplay
  | memWalks | memWalkjoin | memMerge | memCompsave
  | trgFire | trgCoal | trgSilent | trgSpill | trgHold | trgCascade | schGangres
  | memClass (n : Fin 8) | trgSpillbase | devCecnt | devPcap | ngzReplay (n : Fin 18) | ngzTime
  | schAge | schGangage | schSliceclamp | hltRecbase
  | bcampCtx | tdescBase | memPtroot | schSlice | schTrhbase | schRuckbase | schQword (n : Fin 16)
  | trpVec | trpMvec | savBase | savSize | savFull | savErr | dbgCtl
  | schQbase
  | readOnly
deriving DecidableEq, Repr

/-- What a packet from another package asks of a home (R302, R323). -/
inductive RemoteOp where
  | write (pa : Nat) (bytes : List Byte)
  | atomic (pa : Nat) (size : Size) (sx : Bool) (ft : Fin 3) (op : AOp) (b c : W64)
  | read (pa len : Nat)
deriving DecidableEq, Repr

/-- A replay on a link (R388): how many flits go again, and whether the first of them is the one that failed last. -/
structure Replay where
  flits : Nat
  again : Bool
deriving DecidableEq, Repr

/-- Rows of the opcode table. The first part are the instruction forms of the two kinds of stream
(R35); the second part are the events of the device (spec/95), which have no encoding and name the
unit, the party or the operation they act on. -/
inductive Instr where
  -- control and predicates (R66 to R78)
  | nop (h : Hdr)
  | bra (h : Hdr) (off : BitVec 24)
  | ball (h : Hdr) (t : PReg) (neg : Bool) (off : BitVec 24)
  | bany (h : Hdr) (t : PReg) (neg : Bool) (off : BitVec 24)
  | jmps (h : Hdr) (r : SReg)
  | call (h : Hdr) (tgt : CallTgt)
  | ret (h : Hdr)
  | reconv (h : Hdr)
  | brk (h : Hdr) (lvl : Fin 16)
  | exit (h : Hdr)
  | refill (h : Hdr) (q : QReg) (wt : Bool) (off : BitVec 24)
  | elect (h : Hdr) (d : SReg)
  | endlead (h : Hdr)
  | phint (h : Hdr) (d : SReg) (sg : BitVec 4) (pg : BitVec 6) (pk : BitVec 8)
  | yield (h : Hdr)
  | pset (h : Hdr) (d : PReg) (imm : W32)
  | plop (h : Hdr) (d a b c : PReg) (tbl : BitVec 8)
  | pmov (h : Hdr) (f : PMovForm)
  | pcnt (h : Hdr) (d : SReg) (a : PReg)
  | pfirst (h : Hdr) (d : SReg) (a : PReg)
  -- paired integer operations (R141 to R143)
  | sadd (h : Hdr) (d a b : SReg) (ty : ITy) (sat : Bool)
  | vadd (h : Hdr) (d : VReg) (a b : VS) (ty : ITy) (sat : Bool)
  | ssub (h : Hdr) (d a b : SReg) (ty : ITy) (sat : Bool)
  | vsub (h : Hdr) (d : VReg) (a b : VS) (ty : ITy) (sat : Bool)
  | smul (h : Hdr) (d a b : SReg) (ty : ITy)
  | vmul (h : Hdr) (d : VReg) (a b : VS) (ty : ITy)
  | smulh (h : Hdr) (d a b : SReg) (ty : ITy)
  | vmulh (h : Hdr) (d : VReg) (a b : VS) (ty : ITy)
  | smad (h : Hdr) (d a b c : SReg) (ty : ITy)
  | vmad (h : Hdr) (d : VReg) (a b c : VS) (ty : ITy)
  | sand (h : Hdr) (d a b : SReg) (ty : ITy)
  | vand (h : Hdr) (d : VReg) (a b : VS) (ty : ITy)
  | sor (h : Hdr) (d a b : SReg) (ty : ITy)
  | vor (h : Hdr) (d : VReg) (a b : VS) (ty : ITy)
  | sxor (h : Hdr) (d a b : SReg) (ty : ITy)
  | vxor (h : Hdr) (d : VReg) (a b : VS) (ty : ITy)
  | sshl (h : Hdr) (d a b : SReg) (ty : ITy)
  | vshl (h : Hdr) (d : VReg) (a b : VS) (ty : ITy)
  | sshr (h : Hdr) (d a b : SReg) (ty : ITy)
  | vshr (h : Hdr) (d : VReg) (a b : VS) (ty : ITy)
  | ssar (h : Hdr) (d a b : SReg) (ty : ITy)
  | vsar (h : Hdr) (d : VReg) (a b : VS) (ty : ITy)
  | smin (h : Hdr) (d a b : SReg) (ty : ITy)
  | vmin (h : Hdr) (d : VReg) (a b : VS) (ty : ITy)
  | smax (h : Hdr) (d a b : SReg) (ty : ITy)
  | vmax (h : Hdr) (d : VReg) (a b : VS) (ty : ITy)
  -- compares, selects, moves, bit fields (R144 to R146, R107 to R110)
  | scmp (h : Hdr) (d : PReg) (a b : SReg) (c : ICond) (ty : ITy)
  | vcmp (h : Hdr) (d : PReg) (a b : VS) (c : ICond) (ty : ITy)
  | vsel (h : Hdr) (d : VReg) (a b : VS) (c : PReg) (wide : Bool)
  | smov (h : Hdr) (f : SMovForm)
  | vmov (h : Hdr) (f : VMovForm) (wide : Bool)
  | smovi (h : Hdr) (d : SReg) (high : Bool) (imm : W32)
  | vmovi (h : Hdr) (d : VReg) (imm : W32)
  | vclz (h : Hdr) (d a : VReg) (wide : Bool)
  | vpop (h : Hdr) (d a : VReg) (wide : Bool)
  | vbfx (h : Hdr) (d a : VReg) (pos lenm1 : Fin 32) (sgn : Bool)
  | vbfi (h : Hdr) (d a b : VReg) (pos lenm1 : Fin 32)
  | vaddc (h : Hdr) (d : VReg) (a b : VS) (c : PReg) (sub : Bool)
  | vaddr (h : Hdr) (d : VReg) (a : VS) (b : VReg) (scale : Fin 4) (wide : Bool)
  | saddi (h : Hdr) (d a : SReg) (wide : Bool) (imm : BitVec 23)
  | vaddi (h : Hdr) (d a : VReg) (wide : Bool) (imm : BitVec 23)
  | vshuf (h : Hdr) (d a : VReg) (b : VS) (m : Shuf) (wide : Bool)
  | vbcast (h : Hdr) (d : VS) (a : VReg) (b : SReg) (wide : Bool)
  | vreduce (h : Hdr) (d : VS) (a : VReg) (op : RedOp) (ty : NTy) (rnd : Rnd)
  | vscan (h : Hdr) (d a : VReg) (op : RedOp) (ty : NTy) (rnd : Rnd)
  -- floating point (R147 to R158) and checksum (R163)
  | fadd (h : Hdr) (d : VReg) (a b : VS) (ty : FTy) (rnd : Rnd)
  | fsub (h : Hdr) (d : VReg) (a b : VS) (ty : FTy) (rnd : Rnd)
  | fmul (h : Hdr) (d : VReg) (a b : VS) (ty : FTy) (rnd : Rnd)
  | ffma (h : Hdr) (d : VReg) (a b c : VS) (ty : FTy) (rnd : Rnd)
  | fmin (h : Hdr) (d : VReg) (a b : VS) (ty : FTy) (ftz : Bool)
  | fmax (h : Hdr) (d : VReg) (a b : VS) (ty : FTy) (ftz : Bool)
  | fcmp (h : Hdr) (d : PReg) (a b : VS) (c : FCond) (ftz : Bool)
  | frcp (h : Hdr) (d : VReg) (a : VS) (rnd : Rnd)
  | frsq (h : Hdr) (d : VReg) (a : VS) (rnd : Rnd)
  | fexp2 (h : Hdr) (d : VReg) (a : VS) (rnd : Rnd)
  | flog2 (h : Hdr) (d : VReg) (a : VS) (rnd : Rnd)
  | fscos (h : Hdr) (d : VReg) (a : VS) (rnd : Rnd)
  | fcvt (h : Hdr) (d : VReg) (a : VS) (src dst : NTy) (sel : Fin 4) (rnd : Rnd)
  | frnd (h : Hdr) (d : VReg) (a : VS) (ty : FTy) (rnd : Rnd)
  | fclass (h : Hdr) (d : VReg) (a : VS) (ty : FTy)
  | fdot2 (h : Hdr) (d : VReg) (a b c : VS) (ty : FTy) (rnd : Rnd)
  | fcmul (h : Hdr) (d : VReg) (a b : VS) (ty : FTy) (rnd : Rnd)
  | fbfly (h : Hdr) (d : VReg) (a b c : VS) (ty : FTy) (rnd : Rnd)
  | ftwid (h : Hdr) (d : VReg) (a b : VS) (rnd : Rnd)
  | csum (h : Hdr) (d a : SReg) (b : VReg) (wide : Bool)
  -- memory (R186 to R195)
  | ld (h : Hdr) (data addr : VS) (sp : Space) (ord : Order) (sz : Size) (sx : Bool) (off : BitVec 16)
  | st (h : Hdr) (data addr : VS) (sp : Space) (ord : Order) (sz : Size) (off : BitVec 16)
  | atom (h : Hdr) (data addr : VS) (sp : Space) (ord : Order) (sz : Size) (sx : Bool) (b : VS) (op : AOp) (ft : Fin 3)
  | red (h : Hdr) (data addr : VS) (sp : Space) (ord : Order) (sz : Size) (sx : Bool) (op : AOp) (ft : Fin 3)
  | fence (h : Hdr) (ord : Order)
  | prf (h : Hdr) (l2 : Bool) (addr : VS) (off : BitVec 16)
  | vld (h : Hdr) (d : VReg) (w : WReg) (ord : Order) (sz : Size) (sx : Bool) (idx : VS) (p : Option PReg)
  | vst (h : Hdr) (d : VReg) (w : WReg) (ord : Order) (sz : Size) (idx : VS)
  | vwset (h : Hdr) (d : WReg) (a : SReg)
  | vwadj (h : Hdr) (d a : WReg) (b : SReg) (dim : Fin 4) (f : AdjField)
  | vret (h : Hdr) (d : WReg)
  | tdset (h : Hdr) (a b : SReg)
  -- engines and rings (R262 to R280, R109, R110)
  | copy (h : Hdr) (a b : WReg) (c : SReg)
  | copyR (h : Hdr) (a b : WReg) (c : SReg)
  | copym (h : Hdr) (a : WReg) (b c : SReg)
  | chain (h : Hdr) (a b c : SReg)
  | ring (h : Hdr) (a b : SReg) (nm1 : Fin 256)
  | fwait (h : Hdr) (a b : SReg) (nt : Bool)
  | frel (h : Hdr) (b : SReg)
  | ftest (h : Hdr) (a : PReg) (b : SReg)
  | gath (h : Hdr) (d : Option VReg) (idx : VReg) (c : SReg) (p : PReg) (sz : Fin 3)
  | scat (h : Hdr) (d : VReg) (idx : VReg) (c : SReg) (sz : Fin 3)
  | qbind (h : Hdr) (q : QReg) (s : SReg) (kind : Fin 6)
  | qtry (h : Hdr) (d : VS) (q : QReg) (p : PReg) (wide : Bool)
  -- matrix array and barriers (R217 to R226), KV (R236)
  | mlda (h : Hdr) (a : Fin 8) (c : SReg) (sa sb : VReg) (bsel : Fin 4) (fmt : WFmt) (sp : MSpace)
  | plane (h : Hdr) (c sa sb : SReg) (src : PSrc)
  | mma (h : Hdr) (z a : Fin 8) (c : SReg) (sa sb : VReg) (planes : Fin 16) (bsel : Fin 4) (nkbm1 : Fin 8) (scl outl : Bool)
  | moutl (h : Hdr) (c : SReg)
  | zclr (h : Hdr) (tile : Bool) (n : Fin 8)
  | zld (h : Hdr) (z : Fin 8) (c : SReg) (tr : Bool) (sp : MSpace)
  | zst (h : Hdr) (z : Fin 8) (free : Bool) (c : SReg) (fmt : ZFmt) (tr : Bool) (sp : MSpace)
  | zmap (h : Hdr) (z a : Fin 8) (c : SReg) (op : ZOp)
  | binit (h : Hdr) (a : SReg) (b : Fin 128)
  | barr (h : Hdr) (d : SReg) (b : Fin 128)
  | bwait (h : Hdr) (a : SReg) (b : Fin 128)
  | bsync (h : Hdr) (b : Fin 128)
  | bexp (h : Hdr) (a : SReg) (b : Fin 128)
  | attn (h : Hdr) (z : Fin 8) (c : SReg) (planes : Fin 16) (mass causal bias rowinc : Bool)
  | kvapp (h : Hdr) (a b c : SReg) (sp : MSpace)
  | kvevt (h : Hdr) (a : SReg) (stack : Fin 4)
  -- watches, launches, special registers, traps (R326 to R328, R356 to R358, R366)
  | watch (h : Hdr) (d b c : SReg)
  | unwatch (h : Hdr) (d b : SReg)
  | wpark (h : Hdr) (d : VReg) (b c : SReg) (p : PReg)
  | launchGrid (h : Hdr) (d b : SReg) (c : Option SReg)
  | launchRecord (h : Hdr) (a : SReg) (b : VReg)
  | srd (h : Hdr) (d : VS) (high : Bool) (r : Sr)
  | swr (h : Hdr) (a : SReg)
  | wkadd (h : Hdr) (a : SReg) (dom : Fin 16)
  | wkdone (h : Hdr) (dom : Fin 16)
  | trap (h : Hdr) (imm : W32)
  | tret (h : Hdr)
  | halt (h : Hdr) (a : SReg)
  | bkpt (h : Hdr) (imm : W32)
  -- events of cores and memory
  | icacheLineFill (core line : Nat)
  | fixedLatencyWrite (p : Party) (k : Nat)
  | sliceRelease (core slice : Nat)
  | readResponse (id how : Nat)
  | storePerform (id : Nat)
  | heldWriteRelease (id : Nat)
  | revocation (id core : Nat)
  | writeAcknowledge (id : Nat)
  | atomicPerform (id : Nat)
  | pageWalk (stack k : Nat)
  | pendingBitOr (k : Nat)
  | spillRingDrain (slice : Nat)
  | recordHandoff (slice k : Nat)
  -- events of pools, placement and pre-emption
  | poolTimerLapse (ctx pool : Nat)
  | placementDecision (stack : Nat)
  | remoteStackOffer (gang : Nat)
  | priorityAging (ctx pool : Nat)
  | gangReserve (stack : Nat)
  | timeSliceEnd (part ctx next : Nat)
  | forcedFreeze (p : Party)
  | blockSave (core uid : Nat)
  | blockRestore (ctx k core : Nat)
  | countedTeamDone (k : Nat)
  | embersTokenPass (ctx dom : Nat)
  | queueMoveComplete (p : Party)
  | refillWaitEnd (p : Party)
  | messageFlitAccept (k : Nat)
  -- events of engines, rings, matrix array and barriers
  | ringReserveRetry (p : Party)
  | engineComplete (id : Nat)
  | chainRecord (stack chan : Nat)
  | gatherRowFetch (id addr : Nat)
  | fwaitReturn (p : Party)
  | entryClaim (id : Nat)
  | kvappExecute (id : Nat)
  | strikeCommand (stack : Nat)
  | strikeRcDrain (stack : Nat)
  | attnComplete (core : Nat)
  | mmaAccumulatorWrite (core : Nat)
  | barrierArrival (core k : Nat)
  | barrierCycle (core : Nat)
  | barrierWaitEnd (p : Party)
  | wparkDeliver (p : Party)
  | wparkLapse (p : Party)
  -- halts, resets, debugger
  | partitionHalt (part : Nat)
  | stopRecordWrite (part unit : Nat)
  | watchdog (part unit : Nat)
  | partitionReset (part : Nat)
  | debuggerHalt (ctx : Nat) (quiesce : Bool)
  | debuggerResume (ctx : Nat)
  | campLendWrite (core pieces : Nat)
  | tlbinvSpan (ctx : Nat) (v : W64)
  | tlbinvAll (ctx : Nat) (v : W64)
  | tlbinvComplete (ctx : Nat)
  -- front end
  | hostQueueDoorbell (part q : Nat) (wr : W32)
  | hostQueueEnable (part q : Nat) (v : W64)
  | jisoetteLaneBind (part lane : Nat)
  | nopPacket (part q : Nat)
  | haltq (part q : Nat)
  | preempt (part q : Nat)
  | preemptComplete (k : Nat)
  | setsig (part q : Nat)
  | waitsig (part q : Nat)
  | watchPacket (part q : Nat)
  | unwatchPacket (part q : Nat)
  | poolcfg (part q : Nat)
  | launchPacket (part q : Nat)
  | copyh (part q : Nat)
  | launchSignalDecrement (k : Nat)
  -- host, links, package
  | hostWrite (pa : Nat) (bytes : List Byte)
  | hostRead (pa len : Nat)
  | remotePacketReceive (src seq depth : Nat) (op : RemoteOp)
  | flitReplay (port : Nat) (n : Replay)
  | linkFailure (port : Nat)
  | linkTraining (port partner : Nat) (sizes : List (Nat × Nat × Nat))
  | portDisable (port : Nat)
  | portRetrain (port : Nat)
  | timeSync (count : W64) (reached : Bool)
  | thermalLimit (die : Nat) (atLimit : Bool)
  | fwActivate (sigOk : Bool) (oldest : Nat) (image : List Byte)
  | attestRequest (nonce : List Byte)
  | powerOnReset (caps : List Nat) (master : Bool) (count : W64)
  | registerWrite (r : RegName) (index : Nat) (v : W64)
  | planeConverterDone (core : Nat)
  | memoryPortLoss (port : Nat)
  | hostPortTraining (cxl : Bool) (rate width : Nat)
deriving DecidableEq, Repr

end Sys2Proof
end

