-- ==== Sys2Proof/WellFormed.lean ====
section
/-! DEFINITION. Which terms of Instr an encoding can hold and the rules admit: register alignment,
admitted types and orders, ranges. What depends on the team (register counts, stream, endpoint) is
checked by the machine. A breach of a check here traps ILLEGAL (R20 to R22). -/

namespace Sys2Proof

/-- Width in bits of an integer type (R22). -/
def ITy.w : ITy → Nat
  | .i32 | .n32 => 32
  | .i64 | .n64 => 64
  | .i16 | .n16 => 16
  | .i8 | .n8 => 8

/-- Whether an integer type is signed. -/
def ITy.signed : ITy → Bool
  | .i32 | .i64 | .i16 | .i8 => true
  | .n32 | .n64 | .n16 | .n8 => false

/-- Width in bits of a floating-point type (R112). -/
def FTy.w : FTy → Nat
  | .f32 => 32
  | .f16 | .bf16 => 16
  | .f8e4 | .f8e5 => 8

/-- Width in bits of a type. -/
def NTy.w : NTy → Nat
  | .f t => t.w
  | .i t => t.w

/-- Size in bytes (R22). -/
def Size.bytes : Size → Nat
  | .b8 => 1 | .b16 => 2 | .b32 => 4 | .b64 => 8 | .b128 => 16

/-- Number of vector registers a datum of this size takes (R186). -/
def Size.regs : Size → Nat
  | .b64 => 2 | .b128 => 4 | _ => 1

/-- RNE without FTZ, the encoding 000. -/
def Rnd.rne : Rnd := ⟨.rne, false⟩

/-- A vector register is a multiple of n; a scalar is not a pair or quad and always fits. -/
def VS.al (n : Nat) : VS → Bool
  | .v r => r.val % n == 0
  | .s _ => true

/-- 1 for a scalar. -/
def VS.nsc : VS → Nat
  | .v _ => 0
  | .s _ => 1

/-- Two registers wide: an even register, or a scalar (R137). -/
def VS.fits (wide : Bool) (x : VS) : Bool := !wide || x.al 2

def ITy.wide (t : ITy) : Bool := t.w == 64
def ITy.is32or64 (t : ITy) : Bool := t.w ≥ 32

/-- A V form with two sources (R137, R138). -/
def wfV2 (ty : ITy) (d : VReg) (a b : VS) : Bool :=
  a.nsc + b.nsc ≤ 1 && (!ty.wide || (d.val % 2 == 0 && a.al 2 && b.al 2))

/-- The three types of the packed floating-point forms (R147). -/
def FTy.std : FTy → Bool
  | .f32 | .f16 | .bf16 => true
  | _ => false

/-- VREDUCE and VSCAN (R159, R162). -/
def wfRed (op : RedOp) (ty : NTy) (rnd : Rnd) : Bool :=
  match ty with
  | .f .f32 => (op == .add || op == .min || op == .max)
  | .f _ => false
  | .i t => t.is32or64 && rnd == .rne

/-- FCVT (R154). -/
def wfCvt (d : VReg) (a : VS) (src dst : NTy) (sel : Fin 4) : Bool :=
  (match src, dst with | .i _, .i _ => false | _, _ => true) &&
  (match src.w with | 8 => true | 16 => sel.val < 2 | _ => sel.val == 0) &&
  (src.w != 64 || a.al 2) && (dst.w != 64 || d.val % 2 == 0)

/-- The address operand of a memory form: an even pair for global and base camp (R186). -/
def wfAddr (sp : Space) (addr : VS) : Bool :=
  match sp with
  | .glob | .bcamp => addr.al 2
  | _ => true

/-- Data and address operands of LD, ST, ATOM and RED (R186). -/
def wfData (sz : Size) (data addr : VS) (sp : Space) : Bool :=
  wfAddr sp addr &&
  (match data with
   | .v r => r.val % sz.regs == 0
   | .s _ => sz != .b128 && (match addr with | .s _ => true | .v _ => false))

/-- SX of loads (R186). -/
def wfSx (sz : Size) (sx scalar : Bool) : Bool :=
  !sx || sz == .b8 || sz == .b16 || (scalar && sz == .b32)

/-- OP, SIZE and FTYPE of ATOM and RED (R190). -/
def wfAop (op : AOp) (sz : Size) (ft : Fin 3) : Bool :=
  match op with
  | .fadd | .fmin | .fmax => if ft.val == 0 then sz == .b32 else sz == .b16
  | _ => ft.val == 0 && (sz == .b32 || sz == .b64)

/-- The operand register of ATOM (R190). -/
def wfOpnd (op : AOp) (sz : Size) : VS → Bool
  | .v r => if op == .cas then r.val % (2 * sz.regs) == 0 else r.val % sz.regs == 0
  | .s r => if op == .cas then r.val % 2 == 0 else true

/-- The guard p0 with GNEG = 0. -/
def Hdr.plain (h : Hdr) : Bool := h.guard.val == 0 && !h.gneg

/-- The static checks of every form. -/
def Instr.wf : Instr → Bool
  | .refill h _ _ _ => h.plain
  | .endlead h => h.plain
  | .phint _ _ _ _ _ => true
  | .sadd _ _ _ _ ty _ => ty.is32or64
  | .vadd _ d a b ty _ => wfV2 ty d a b
  | .ssub _ _ _ _ ty _ => ty.is32or64
  | .vsub _ d a b ty _ => wfV2 ty d a b
  | .smul _ _ _ _ ty => ty.is32or64
  | .vmul _ d a b ty => wfV2 ty d a b
  | .smulh _ _ _ _ ty => ty.is32or64
  | .vmulh _ d a b ty => wfV2 ty d a b
  | .smad _ _ _ _ _ ty => ty.is32or64
  | .vmad _ d a b c ty => wfV2 ty d a b && a.nsc + b.nsc + c.nsc ≤ 1 && (!ty.wide || c.al 2)
  | .sand _ _ _ _ ty => ty.is32or64
  | .vand _ d a b ty => wfV2 ty d a b
  | .sor _ _ _ _ ty => ty.is32or64
  | .vor _ d a b ty => wfV2 ty d a b
  | .sxor _ _ _ _ ty => ty.is32or64
  | .vxor _ d a b ty => wfV2 ty d a b
  | .sshl _ _ _ _ ty => ty.is32or64
  | .vshl _ d a b ty => wfV2 ty d a b
  | .sshr _ _ _ _ ty => ty.is32or64
  | .vshr _ d a b ty => wfV2 ty d a b
  | .ssar _ _ _ _ ty => ty.is32or64
  | .vsar _ d a b ty => wfV2 ty d a b
  | .smin _ _ _ _ ty => ty.is32or64
  | .vmin _ d a b ty => wfV2 ty d a b
  | .smax _ _ _ _ ty => ty.is32or64
  | .vmax _ d a b ty => wfV2 ty d a b
  | .scmp _ _ _ _ _ ty => ty.is32or64
  | .vcmp _ _ a b _ ty => ty.is32or64 && a.nsc + b.nsc ≤ 1 && a.fits ty.wide && b.fits ty.wide
  | .vsel _ d a b _ wide =>
      a.nsc + b.nsc ≤ 1 && a.fits wide && b.fits wide && (!wide || d.val % 2 == 0)
  | .vmov _ f wide => !wide || (match f with
      | .vv d a => d.val % 2 == 0 && a.val % 2 == 0
      | .vs d _ => d.val % 2 == 0
      | .push _ a => a.val % 2 == 0
      | .pop d _ => d.val % 2 == 0)
  | .vclz _ _ a wide => !wide || a.val % 2 == 0
  | .vpop _ _ a wide => !wide || a.val % 2 == 0
  | .vbfx _ _ _ pos l _ => pos.val + l.val < 32
  | .vbfi _ _ _ _ pos l => pos.val + l.val < 32
  | .vaddc _ _ a b _ _ => a.nsc + b.nsc ≤ 1
  | .vaddr _ d a _ _ wide => !wide || (d.val % 2 == 0 && a.al 2)
  | .vaddi _ d a wide _ => !wide || (d.val % 2 == 0 && a.val % 2 == 0)
  | .vshuf _ d a _ _ wide => !wide || (d.val % 2 == 0 && a.val % 2 == 0)
  | .vbcast _ d a _ wide => !wide || (d.al 2 && a.val % 2 == 0)
  | .vreduce _ d a op ty rnd =>
      wfRed op ty rnd && (ty.w != 64 || (d.al 2 && a.val % 2 == 0))
  | .vscan _ d a op ty rnd =>
      wfRed op ty rnd && (ty.w != 64 || (d.val % 2 == 0 && a.val % 2 == 0))
  | .fadd _ _ a b ty _ => a.nsc + b.nsc ≤ 1 && ty.std
  | .fsub _ _ a b ty _ => a.nsc + b.nsc ≤ 1 && ty.std
  | .fmul _ _ a b ty _ => a.nsc + b.nsc ≤ 1 && ty.std
  | .ffma _ _ a b c ty _ => a.nsc + b.nsc + c.nsc ≤ 1 && ty.std
  | .fmin _ _ a b ty _ => a.nsc + b.nsc ≤ 1 && ty.std
  | .fmax _ _ a b ty _ => a.nsc + b.nsc ≤ 1 && ty.std
  | .fcmp _ _ a b _ _ => a.nsc + b.nsc ≤ 1
  | .fscos _ d _ _ => d.val % 2 == 0
  | .fcvt _ d a src dst sel _ => wfCvt d a src dst sel
  | .frnd _ _ _ ty _ => ty.std
  | .fclass _ _ _ ty => ty.std
  | .fdot2 _ _ a b c ty _ => a.nsc + b.nsc + c.nsc ≤ 1 && (ty == .f16 || ty == .bf16)
  | .fcmul _ d a b ty _ =>
      a.nsc + b.nsc ≤ 1 && ty.std && (ty != .f32 || (d.val % 2 == 0 && a.al 2 && b.al 2))
  | .fbfly _ d a b c ty _ =>
      a.nsc + b.nsc + c.nsc ≤ 1 && ty.std &&
      (if ty == .f32 then d.val % 4 == 0 && a.al 2 && b.al 2 && c.al 2 else d.val % 2 == 0)
  | .ftwid _ d a b _ => a.nsc + b.nsc ≤ 1 && d.val % 2 == 0
  | .csum _ _ _ b wide => !wide || b.val % 2 == 0
  | .ld _ data addr sp ord sz sx _ =>
      wfData sz data addr sp && (ord == .plain || ord == .acq) && wfSx sz sx (data.nsc == 1)
  | .st _ data addr sp ord sz _ => wfData sz data addr sp && (ord == .plain || ord == .rel)
  | .atom _ data addr sp _ sz _ b op ft =>
      wfData sz data addr sp && sp != .pocket && wfAop op sz ft && wfOpnd op sz b
  | .red _ data addr sp ord sz _ op ft =>
      wfData sz data addr sp && sp != .pocket && (ord == .plain || ord == .rel) &&
      wfAop op sz ft && op != .xchg && op != .cas
  | .fence _ ord => ord != .plain
  | .prf _ _ addr _ => addr.al 2
  | .vld _ d _ ord sz sx _ p =>
      (ord == .plain || ord == .acq) && d.val % sz.regs == 0 && wfSx sz sx false && p != some 0
  | .vst _ d _ ord sz _ => (ord == .plain || ord == .rel) && d.val % sz.regs == 0
  | .vwset _ _ a => a.val % 4 == 0
  | .tdset _ _ b => b.val % 8 == 0
  | .fwait _ a _ _ => a.val % 2 == 0
  | .ftest _ a _ => a.val != 0
  | .gath _ d _ c _ sz =>
      c.val % 2 == 0 && (match d with | some r => r.val % 2 ^ sz.val == 0 | none => sz.val == 0)
  | .scat _ d _ c sz => c.val % 2 == 0 && d.val % 2 ^ sz.val == 0
  | .qbind h _ _ _ => h.plain
  | .qtry _ d _ _ wide => match d with | .v r => !wide || r.val % 2 == 0 | .s _ => true
  | .mlda _ _ c sa sb _ fmt _ =>
      c.val % 2 == 0 && (fmt == .cb4 || fmt == .i8 || (sa.val == 0 && sb.val == 0))
  | .mma _ _ a _ sa sb planes bsel nkbm1 scl _ =>
      1 ≤ planes.val && planes.val ≤ 12 && a.val + nkbm1.val + 1 ≤ 8 &&
      (scl || (sa.val == 0 && sb.val == 0 && bsel.val == 0))
  | .zld _ _ c _ _ => c.val % 2 == 0
  | .zst _ _ _ c _ _ _ => c.val % 2 == 0
  | .zmap _ _ _ c op => op == .scale || c.val == 0
  | .attn _ _ c planes _ _ _ _ => c.val % 4 == 0 && 1 ≤ planes.val && planes.val ≤ 12
  | .kvapp _ _ b _ _ => b.val % 2 == 0
  | .wpark _ d _ _ _ => d.val % 2 == 0
  | .launchRecord _ _ b => b.val % 4 == 0
  | .srd _ d high _ => match d with | .s _ => !high | .v _ => true
  | .tret h => h.plain
  | .nop .. | .bra .. | .ball .. | .bany .. | .jmps .. | .call .. | .ret .. | .reconv ..
  | .brk .. | .exit .. | .elect .. | .yield .. | .pset .. | .plop .. | .pmov .. | .pcnt ..
  | .pfirst .. | .smov .. | .smovi .. | .vmovi .. | .saddi .. | .frcp .. | .frsq ..
  | .fexp2 .. | .flog2 .. | .vwadj .. | .vret .. | .copy .. | .copyR .. | .copym ..
  | .chain .. | .ring .. | .frel .. | .plane .. | .moutl .. | .zclr .. | .binit .. | .barr ..
  | .bwait .. | .bsync .. | .bexp .. | .kvevt .. | .watch .. | .unwatch .. | .launchGrid ..
  | .swr .. | .wkadd .. | .wkdone .. | .trap .. | .halt .. | .bkpt .. | .icacheLineFill ..
  | .fixedLatencyWrite .. | .sliceRelease .. | .readResponse .. | .storePerform ..
  | .heldWriteRelease .. | .revocation .. | .writeAcknowledge .. | .atomicPerform ..
  | .pageWalk .. | .pendingBitOr .. | .spillRingDrain .. | .recordHandoff ..
  | .poolTimerLapse .. | .placementDecision .. | .remoteStackOffer .. | .priorityAging ..
  | .gangReserve .. | .timeSliceEnd .. | .forcedFreeze .. | .blockSave .. | .blockRestore ..
  | .countedTeamDone .. | .embersTokenPass .. | .queueMoveComplete .. | .refillWaitEnd ..
  | .messageFlitAccept .. | .ringReserveRetry .. | .engineComplete .. | .chainRecord ..
  | .gatherRowFetch .. | .fwaitReturn .. | .entryClaim .. | .kvappExecute ..
  | .strikeCommand .. | .strikeRcDrain .. | .attnComplete .. | .mmaAccumulatorWrite ..
  | .barrierArrival .. | .barrierCycle .. | .barrierWaitEnd .. | .wparkDeliver ..
  | .wparkLapse .. | .partitionHalt .. | .stopRecordWrite .. | .watchdog ..
  | .partitionReset .. | .debuggerHalt .. | .debuggerResume .. | .campLendWrite ..
  | .tlbinvSpan .. | .tlbinvAll .. | .tlbinvComplete .. | .hostQueueDoorbell ..
  | .hostQueueEnable .. | .jisoetteLaneBind .. | .nopPacket .. | .haltq .. | .preempt ..
  | .preemptComplete .. | .setsig .. | .waitsig .. | .watchPacket .. | .unwatchPacket ..
  | .poolcfg .. | .launchPacket .. | .copyh .. | .launchSignalDecrement .. | .hostWrite ..
  | .hostRead .. | .remotePacketReceive .. | .flitReplay .. | .linkFailure ..
  | .linkTraining .. | .portDisable .. | .portRetrain .. | .timeSync .. | .thermalLimit ..
  | .fwActivate .. | .attestRequest .. | .powerOnReset .. | .registerWrite ..
  | .planeConverterDone .. | .memoryPortLoss .. | .hostPortTraining .. => true

end Sys2Proof
end

