-- ==== Sys2Proof/Decode.lean ====
section
/-! DEFINITION. Words to instructions and back. A word is the natural number of its 64 bits (R18).
encode lays an instruction out by the tables of the manual; decode reads a word field by field and
accepts it only when encode gives the word back, so that a bit the form leaves unused must be zero
(R20, R21). -/

namespace Sys2Proof

/-- Why a body word is refused; every reason traps ILLEGAL. -/
inductive Reject where
  /-- R36: the opcode is not assigned. -/
  | unassignedOpcode
  /-- R18: a guard of 96 to 127. -/
  | guardRange
  /-- R20, R22: a code of a class the form does not admit, or a reserved value of a field. -/
  | badField
  /-- R20, R21: a field or bit that the form does not use is not zero. -/
  | unusedFieldSet
  /-- A check of Instr.wf fails. -/
  | illFormed
deriving DecidableEq, Repr

/-! The codes of fields (R20, R22). -/

def encV (r : VReg) : Nat := r.val
def encS (r : SReg) : Nat := 0x40 + r.val
def encP (r : PReg) : Nat := 0x80 + r.val
def encW (r : WReg) : Nat := 0xE0 + r.val
def encQ (r : QReg) : Nat := 0xF0 + r.val

def encVS : VS → Nat
  | .v r => encV r
  | .s r => encS r

def encITy : ITy → Nat
  | .i32 => 8 | .n32 => 9 | .i64 => 10 | .n64 => 11 | .i16 => 12 | .n16 => 13 | .i8 => 14 | .n8 => 15

def encFTy : FTy → Nat
  | .f32 => 0 | .f16 => 1 | .bf16 => 2 | .f8e4 => 3 | .f8e5 => 4

def encNTy : NTy → Nat
  | .f t => encFTy t
  | .i t => encITy t

def encRnd (r : Rnd) : Nat :=
  (match r.mode with | .rne => 0 | .rtz => 1 | .rdn => 2 | .rup => 3) + 4 * bit r.ftz

def encFtz (b : Bool) : Nat := 4 * bit b

/-- The type n32 or n64. -/
def encWide (wide : Bool) : Nat := if wide then 11 else 9

def encICond : ICond → Nat
  | .eq => 0 | .ne => 1 | .lt => 2 | .le => 3 | .gt => 4 | .ge => 5

def encFCond : FCond → Nat
  | .eq => 0 | .ne => 1 | .lt => 2 | .le => 3 | .gt => 4 | .ge => 5 | .un => 6 | .or => 7

def encShuf : Shuf → Nat
  | .index => 0 | .xor => 1 | .up => 2 | .down => 3

def encRed : RedOp → Nat
  | .add => 0 | .min => 1 | .max => 2 | .and => 3 | .or => 4 | .xor => 5

def encSpace : Space → Nat
  | .glob => 0 | .pocket => 1 | .pack => 2 | .camp => 3 | .bcamp => 4

def encOrder : Order → Nat
  | .plain => 0 | .acq => 1 | .rel => 2 | .ar => 3

def encSize : Size → Nat
  | .b8 => 0 | .b16 => 1 | .b32 => 2 | .b64 => 3 | .b128 => 4

def encAOp : AOp → Nat
  | .xchg => 0 | .cas => 1 | .add => 2 | .min => 3 | .max => 4 | .and => 5 | .or => 6 | .xor => 7
  | .inc => 8 | .dec => 9 | .fadd => 10 | .fmin => 11 | .fmax => 12

def encAdj : AdjField → Nat
  | .orgAdd => 0 | .orgSet => 1 | .cntSet => 2 | .stepSet => 3

def encMSpace : MSpace → Nat
  | .glob => 0 | .pack => 1 | .bcamp => 2

def encWFmt : WFmt → Nat
  | .cb4 => 0 | .i8 => 1 | .f8e4 => 2 | .f8e5 => 3 | .bf16 => 4

def encPSrc : PSrc → Nat
  | .f32 => 0 | .f16 => 1 | .bf16 => 2 | .f8e4 => 3 | .f8e5 => 4 | .i8 => 5 | .i4 => 6 | .i2 => 7 | .i1 => 8

def encZFmt : ZFmt → Nat
  | .f32 => 0 | .bf16 => 1 | .f16 => 2 | .f8e4 => 3

def encZOp : ZOp → Nat
  | .mov => 0 | .add => 1 | .scale => 2 | .relu => 3

def encSr : Sr → Nat
  | .wid => 0 | .arg => 1 | .lane => 2 | .team => 3 | .depth => 4 | .tick => 5 | .cause => 6
  | .faddr => 7 | .fstat => 8 | .check => 9 | .mflags => 10 | .core => 11 | .ctx => 12

/-- Bits [55:41] of a body word (R18). -/
def encHdr (h : Hdr) : Nat :=
  h.stall.val * 2 ^ 50 + h.guard.val * 2 ^ 43 + bit h.gneg * 2 ^ 42 + bit h.fresh * 2 ^ 41

/-! The seven formats (R21). -/

def encR (h : Hdr) (opc d a b c x ty rnd : Nat) : Nat :=
  opc * 2 ^ 56 + encHdr h + d * 2 ^ 33 + a * 2 ^ 25 + b * 2 ^ 17 + c * 2 ^ 9 + x * 2 ^ 7
    + ty * 2 ^ 3 + rnd

def encRI (h : Hdr) (opc d a x imm : Nat) : Nat :=
  opc * 2 ^ 56 + encHdr h + d * 2 ^ 33 + a * 2 ^ 25 + x * 2 ^ 23 + imm

def encI (h : Hdr) (opc d x imm : Nat) : Nat :=
  opc * 2 ^ 56 + encHdr h + d * 2 ^ 33 + x * 2 ^ 32 + imm

def encB (h : Hdr) (opc test tneg reg ind off : Nat) : Nat :=
  opc * 2 ^ 56 + encHdr h + test * 2 ^ 34 + tneg * 2 ^ 33 + reg * 2 ^ 25 + ind * 2 ^ 24 + off

def encM (h : Hdr) (opc data addr sp ord sz sx tail : Nat) : Nat :=
  opc * 2 ^ 56 + encHdr h + data * 2 ^ 33 + addr * 2 ^ 25 + sp * 2 ^ 22 + ord * 2 ^ 20
    + sz * 2 ^ 17 + sx * 2 ^ 16 + tail

def encE (h : Hdr) (opc a b c x : Nat) : Nat :=
  opc * 2 ^ 56 + encHdr h + a * 2 ^ 33 + b * 2 ^ 25 + c * 2 ^ 17 + x

def encX (h : Hdr) (opc z a c sa sb planes bsel x : Nat) : Nat :=
  opc * 2 ^ 56 + encHdr h + z * 2 ^ 38 + a * 2 ^ 35 + c * 2 ^ 27 + sa * 2 ^ 19 + sb * 2 ^ 11
    + planes * 2 ^ 7 + bsel * 2 ^ 5 + x

/-- A paired integer V form. -/
def encV2 (h : Hdr) (opc : Nat) (d : VReg) (a b : VS) (x : Nat) (ty : ITy) : Nat :=
  encR h opc (encV d) (encVS a) (encVS b) 0 x (encITy ty) 0

/-- A paired integer S form. -/
def encS2 (h : Hdr) (opc : Nat) (d a b : SReg) (x : Nat) (ty : ITy) : Nat :=
  encR h opc (encS d) (encS a) (encS b) 0 x (encITy ty) 0

/-- A floating-point form with two sources. -/
def encF2 (h : Hdr) (opc : Nat) (d : VReg) (a b : VS) (ty : FTy) (rnd : Nat) : Nat :=
  encR h opc (encV d) (encVS a) (encVS b) 0 0 (encFTy ty) rnd

/-- A floating-point form with one source. -/
def encF1 (h : Hdr) (opc : Nat) (d : VReg) (a : VS) (ty : FTy) (rnd : Nat) : Nat :=
  encR h opc (encV d) (encVS a) 0 0 0 (encFTy ty) rnd

/-- The word of an instruction; an event has none. -/
def encode : Instr → Option Nat
  | .nop h => some (encR h 0x00 0 0 0 0 0 0 0)
  | .bra h off => some (encB h 0x01 0 0 0 0 off.toNat)
  | .ball h t neg off => some (encB h 0x02 t.val (bit neg) 0 0 off.toNat)
  | .bany h t neg off => some (encB h 0x03 t.val (bit neg) 0 0 off.toNat)
  | .jmps h r => some (encB h 0x04 0 0 (encS r) 1 0)
  | .call h (.off o) => some (encB h 0x05 0 0 0 0 o.toNat)
  | .call h (.reg r) => some (encB h 0x05 0 0 (encS r) 1 0)
  | .ret h => some (encB h 0x06 0 0 0 0 0)
  | .reconv h => some (encR h 0x07 0 0 0 0 0 0 0)
  | .brk h lvl => some (encR h 0x08 0 0 0 lvl.val 0 0 0)
  | .exit h => some (encR h 0x09 0 0 0 0 0 0 0)
  | .refill h q wt off => some (encB h 0x0A 0 (bit wt) (encQ q) 0 off.toNat)
  | .elect h d => some (encR h 0x0B (encS d) 0 0 0 0 0 0)
  | .endlead h => some (encR h 0x0C 0 0 0 0 0 0 0)
  | .phint h d sg pg pk =>
      some (encI h 0x0D (encS d) 0 (sg.toNat * 2 ^ 28 + pg.toNat * 2 ^ 22 + pk.toNat * 2 ^ 14))
  | .yield h => some (encR h 0x0E 0 0 0 0 0 0 0)
  | .pset h d imm => some (encI h 0x10 (encP d) 0 imm.toNat)
  | .plop h d a b c tbl =>
      some (encR h 0x11 (encP d) (encP a) (encP b) (encP c) 0 0 0 + tbl.toNat)
  | .pmov h f => some (match f with
      | .pp d a => encR h 0x12 (encP d) (encP a) 0 0 0 0 0
      | .pv d a => encR h 0x12 (encP d) (encV a) 0 0 0 0 0
      | .ps d a => encR h 0x12 (encP d) (encS a) 0 0 0 0 0
      | .vp d a => encR h 0x12 (encV d) (encP a) 0 0 0 0 0)
  | .pcnt h d a => some (encR h 0x13 (encS d) (encP a) 0 0 0 0 0)
  | .pfirst h d a => some (encR h 0x14 (encS d) (encP a) 0 0 0 0 0)
  | .sadd h d a b ty sat => some (encS2 h 0x20 d a b (2 * bit sat) ty)
  | .vadd h d a b ty sat => some (encV2 h 0x21 d a b (2 * bit sat) ty)
  | .ssub h d a b ty sat => some (encS2 h 0x22 d a b (2 * bit sat) ty)
  | .vsub h d a b ty sat => some (encV2 h 0x23 d a b (2 * bit sat) ty)
  | .smul h d a b ty => some (encS2 h 0x24 d a b 0 ty)
  | .vmul h d a b ty => some (encV2 h 0x25 d a b 0 ty)
  | .smulh h d a b ty => some (encS2 h 0x26 d a b 0 ty)
  | .vmulh h d a b ty => some (encV2 h 0x27 d a b 0 ty)
  | .smad h d a b c ty => some (encR h 0x28 (encS d) (encS a) (encS b) (encS c) 0 (encITy ty) 0)
  | .vmad h d a b c ty => some (encR h 0x29 (encV d) (encVS a) (encVS b) (encVS c) 0 (encITy ty) 0)
  | .sand h d a b ty => some (encS2 h 0x2A d a b 0 ty)
  | .vand h d a b ty => some (encV2 h 0x2B d a b 0 ty)
  | .sor h d a b ty => some (encS2 h 0x2C d a b 0 ty)
  | .vor h d a b ty => some (encV2 h 0x2D d a b 0 ty)
  | .sxor h d a b ty => some (encS2 h 0x2E d a b 0 ty)
  | .vxor h d a b ty => some (encV2 h 0x2F d a b 0 ty)
  | .sshl h d a b ty => some (encS2 h 0x30 d a b 0 ty)
  | .vshl h d a b ty => some (encV2 h 0x31 d a b 0 ty)
  | .sshr h d a b ty => some (encS2 h 0x32 d a b 0 ty)
  | .vshr h d a b ty => some (encV2 h 0x33 d a b 0 ty)
  | .ssar h d a b ty => some (encS2 h 0x34 d a b 0 ty)
  | .vsar h d a b ty => some (encV2 h 0x35 d a b 0 ty)
  | .smin h d a b ty => some (encS2 h 0x36 d a b 0 ty)
  | .vmin h d a b ty => some (encV2 h 0x37 d a b 0 ty)
  | .smax h d a b ty => some (encS2 h 0x38 d a b 0 ty)
  | .vmax h d a b ty => some (encV2 h 0x39 d a b 0 ty)
  | .scmp h d a b c ty =>
      some (encR h 0x3A (encP d) (encS a) (encS b) (encICond c) 0 (encITy ty) 0)
  | .vcmp h d a b c ty =>
      some (encR h 0x3B (encP d) (encVS a) (encVS b) (encICond c) 0 (encITy ty) 0)
  | .vsel h d a b c wide =>
      some (encR h 0x3C (encV d) (encVS a) (encVS b) (encP c) 0 (encWide wide) 0)
  | .smov h f => some (match f with
      | .ss d a => encR h 0x3D (encS d) (encS a) 0 0 0 11 0
      | .push q a => encR h 0x3D (encQ q) (encS a) 0 0 0 11 0
      | .pop d q => encR h 0x3D (encS d) (encQ q) 0 0 0 11 0)
  | .vmov h f wide => some (match f with
      | .vv d a => encR h 0x3E (encV d) (encV a) 0 0 0 (encWide wide) 0
      | .vs d a => encR h 0x3E (encV d) (encS a) 0 0 0 (encWide wide) 0
      | .push q a => encR h 0x3E (encQ q) (encV a) 0 0 0 (encWide wide) 0
      | .pop d q => encR h 0x3E (encV d) (encQ q) 0 0 0 (encWide wide) 0)
  | .smovi h d high imm => some (encI h 0x3F (encS d) (bit high) imm.toNat)
  | .vmovi h d imm => some (encI h 0x40 (encV d) 0 imm.toNat)
  | .vclz h d a wide => some (encR h 0x41 (encV d) (encV a) 0 0 0 (encWide wide) 0)
  | .vpop h d a wide => some (encR h 0x42 (encV d) (encV a) 0 0 0 (encWide wide) 0)
  | .vbfx h d a pos l sgn =>
      some (encR h 0x43 (encV d) (encV a) 0 0 0 (if sgn then 8 else 9) 0
        + (pos.val * 32 + l.val) * 2 ^ 7)
  | .vbfi h d a b pos l =>
      some (encR h 0x44 (encV d) (encV a) (encV b) 0 0 9 0 + (pos.val * 32 + l.val) * 2 ^ 7)
  | .vaddc h d a b c sub =>
      some (encR h 0x45 (encV d) (encVS a) (encVS b) (encP c) (2 * bit sub) 9 0)
  | .vaddr h d a b sc wide =>
      some (encR h 0x46 (encV d) (encVS a) (encV b) 0 sc.val (encWide wide) 0)
  | .saddi h d a wide imm => some (encRI h 0x47 (encS d) (encS a) (bit wide) imm.toNat)
  | .vaddi h d a wide imm => some (encRI h 0x48 (encV d) (encV a) (bit wide) imm.toNat)
  | .vshuf h d a b m wide =>
      some (encR h 0x49 (encV d) (encV a) (encVS b) 0 (encShuf m) (encWide wide) 0)
  | .vbcast h d a b wide =>
      some (encR h 0x4A (encVS d) (encV a) (encS b) 0 0 (encWide wide) 0)
  | .vreduce h d a op ty rnd =>
      some (encR h 0x4B (encVS d) (encV a) 0 (encRed op) 0 (encNTy ty) (encRnd rnd))
  | .vscan h d a op ty rnd =>
      some (encR h 0x4C (encV d) (encV a) 0 (encRed op) 0 (encNTy ty) (encRnd rnd))
  | .fadd h d a b ty rnd => some (encF2 h 0x50 d a b ty (encRnd rnd))
  | .fsub h d a b ty rnd => some (encF2 h 0x51 d a b ty (encRnd rnd))
  | .fmul h d a b ty rnd => some (encF2 h 0x52 d a b ty (encRnd rnd))
  | .ffma h d a b c ty rnd =>
      some (encR h 0x53 (encV d) (encVS a) (encVS b) (encVS c) 0 (encFTy ty) (encRnd rnd))
  | .fmin h d a b ty ftz => some (encF2 h 0x54 d a b ty (encFtz ftz))
  | .fmax h d a b ty ftz => some (encF2 h 0x55 d a b ty (encFtz ftz))
  | .fcmp h d a b c ftz =>
      some (encR h 0x56 (encP d) (encVS a) (encVS b) (encFCond c) 0 0 (encFtz ftz))
  | .frcp h d a rnd => some (encF1 h 0x57 d a .f32 (encRnd rnd))
  | .frsq h d a rnd => some (encF1 h 0x58 d a .f32 (encRnd rnd))
  | .fexp2 h d a rnd => some (encF1 h 0x59 d a .f32 (encRnd rnd))
  | .flog2 h d a rnd => some (encF1 h 0x5A d a .f32 (encRnd rnd))
  | .fscos h d a rnd => some (encF1 h 0x5B d a .f32 (encRnd rnd))
  | .fcvt h d a src dst sel rnd =>
      some (encR h 0x5C (encV d) (encVS a) 0 (encNTy src) sel.val (encNTy dst) (encRnd rnd))
  | .frnd h d a ty rnd => some (encF1 h 0x5D d a ty (encRnd rnd))
  | .fclass h d a ty => some (encF1 h 0x5E d a ty 0)
  | .fdot2 h d a b c ty rnd =>
      some (encR h 0x5F (encV d) (encVS a) (encVS b) (encVS c) 0 (encFTy ty) (encRnd rnd))
  | .fcmul h d a b ty rnd => some (encF2 h 0x60 d a b ty (encRnd rnd))
  | .fbfly h d a b c ty rnd =>
      some (encR h 0x61 (encV d) (encVS a) (encVS b) (encVS c) 0 (encFTy ty) (encRnd rnd))
  | .ftwid h d a b rnd => some (encF2 h 0x62 d a b .f32 (encRnd rnd))
  | .csum h d a b wide => some (encR h 0xD4 (encS d) (encS a) (encV b) 0 0 (encWide wide) 0)
  | .ld h data addr sp ord sz sx off =>
      some (encM h 0x80 (encVS data) (encVS addr) (encSpace sp) (encOrder ord) (encSize sz) (bit sx)
        off.toNat)
  | .st h data addr sp ord sz off =>
      some (encM h 0x81 (encVS data) (encVS addr) (encSpace sp) (encOrder ord) (encSize sz) 0
        off.toNat)
  | .atom h data addr sp ord sz sx b op ft =>
      some (encM h 0x82 (encVS data) (encVS addr) (encSpace sp) (encOrder ord) (encSize sz) (bit sx)
        (encVS b * 2 ^ 8 + encAOp op * 2 ^ 4 + ft.val))
  | .red h data addr sp ord sz sx op ft =>
      some (encM h 0x83 (encVS data) (encVS addr) (encSpace sp) (encOrder ord) (encSize sz) (bit sx)
        (encAOp op * 2 ^ 4 + ft.val))
  | .fence h ord => some (encM h 0x84 0 0 0 (encOrder ord) 0 0 0)
  | .prf h l2 addr off => some (encM h 0x85 (bit l2) (encVS addr) 0 0 0 0 off.toNat)
  | .vld h d w ord sz sx idx p =>
      some (encM h 0x86 (encV d) (encW w) 0 (encOrder ord) (encSize sz) (bit sx)
        (encVS idx * 2 ^ 8 + (match p with | none => 0 | some r => encP r)))
  | .vst h d w ord sz idx =>
      some (encM h 0x87 (encV d) (encW w) 0 (encOrder ord) (encSize sz) 0 (encVS idx * 2 ^ 8))
  | .vwset h d a => some (encR h 0x88 (encW d) (encS a) 0 0 0 0 0)
  | .vwadj h d a b dim f =>
      some (encR h 0x89 (encW d) (encW a) (encS b) (dim.val * 4 + encAdj f) 0 0 0)
  | .vret h d => some (encR h 0x8A (encW d) 0 0 0 0 0 0)
  | .tdset h a b => some (encR h 0x8B 0 (encS a) (encS b) 0 0 0 0)
  | .copy h a b c => some (encE h 0xA0 (encW a) (encW b) (encS c) 0)
  | .copyR h a b c => some (encE h 0xA0 (encW a) (encW b) (encS c) 1)
  | .copym h a b c => some (encE h 0xA1 (encW a) (encS b) (encS c) 0)
  | .chain h a b c => some (encE h 0xA2 (encS a) (encS b) (encS c) 0)
  | .ring h a b n => some (encE h 0xA3 (encS a) (encS b) 0 n.val)
  | .fwait h a b nt => some (encE h 0xA4 (encS a) (encS b) 0 (bit nt))
  | .frel h b => some (encE h 0xA5 0 (encS b) 0 0)
  | .ftest h a b => some (encE h 0xA6 (encP a) (encS b) 0 0)
  | .gath h d idx c p sz =>
      some (match d with
        | some r => encE h 0xA7 (encV r) (encV idx) (encS c) (p.val * 2 ^ 4 + sz.val * 2 ^ 2)
        | none => encE h 0xA7 0 (encV idx) (encS c) (2 ^ 11 + p.val * 2 ^ 4 + sz.val * 2 ^ 2))
  | .scat h d idx c sz => some (encE h 0xA8 (encV d) (encV idx) (encS c) (sz.val * 2 ^ 2))
  | .qbind h q s k => some (encE h 0xA9 (encQ q) (encS s) 0 (k.val * 2 ^ 8))
  | .qtry h d q p wide => some (encE h 0xAA (encVS d) (encQ q) (encP p) (bit wide * 2 ^ 11))
  | .mlda h a c sa sb bsel fmt sp =>
      some (encX h 0xB0 0 a.val (encS c) (encV sa) (encV sb) 0 bsel.val
        (encWFmt fmt * 2 ^ 2 + encMSpace sp))
  | .plane h c sa sb src => some (encX h 0xB1 0 0 (encS c) (encS sa) (encS sb) 0 0 (encPSrc src))
  | .mma h z a c sa sb planes bsel n scl outl =>
      some (encX h 0xB2 z.val a.val (encS c) (encV sa) (encV sb) planes.val bsel.val
        (n.val * 2 ^ 2 + bit scl * 2 + bit outl))
  | .moutl h c => some (encX h 0xB3 0 0 (encS c) 0 0 0 0 0)
  | .zclr h tile n =>
      some (if tile then encX h 0xB4 0 n.val 0 0 0 0 0 1 else encX h 0xB4 n.val 0 0 0 0 0 0 0)
  | .zld h z c tr sp => some (encX h 0xB5 z.val 0 (encS c) 0 0 0 0 (bit tr * 2 ^ 2 + encMSpace sp))
  | .zst h z free c fmt tr sp =>
      some (encX h 0xB6 z.val (bit free) (encS c) 0 0 0 0
        (encZFmt fmt * 2 ^ 3 + bit tr * 2 ^ 2 + encMSpace sp))
  | .zmap h z a c op =>
      some (encX h 0xB7 z.val a.val (if op = .scale then encS c else 0) 0 0 0 0 (encZOp op * 2 ^ 2))
  | .binit h a b => some (encR h 0xB8 0 (encS a) 0 b.val 0 0 0)
  | .barr h d b => some (encR h 0xB9 (encS d) 0 0 b.val 0 0 0)
  | .bwait h a b => some (encR h 0xBA 0 (encS a) 0 b.val 0 0 0)
  | .bsync h b => some (encR h 0xBB 0 0 0 b.val 0 0 0)
  | .bexp h a b => some (encR h 0xBC 0 (encS a) 0 b.val 0 0 0)
  | .attn h z c planes mass causal bias rowinc =>
      some (encX h 0xBD z.val 0 (encS c) 0 0 planes.val 0
        (bit mass * 16 + bit causal * 8 + bit bias * 4 + bit rowinc * 2))
  | .kvapp h a b c sp => some (encE h 0xBE (encS a) (encS b) (encS c) (encMSpace sp))
  | .kvevt h a st => some (encE h 0xBF (encS a) 0 0 st.val)
  | .watch h d b c => some (encE h 0xC0 (encS d) (encS b) (encS c) 0)
  | .unwatch h d b => some (encE h 0xC1 (encS d) (encS b) 0 0)
  | .wpark h d b c p => some (encE h 0xC2 (encV d) (encS b) (encS c) (p.val * 2 ^ 4))
  | .launchGrid h d b c =>
      some (encE h 0xC3 (encS d) (encS b) (match c with | none => 0 | some r => encS r) 0)
  | .launchRecord h a b => some (encE h 0xC3 (encS a) (encV b) 0 1)
  | .srd h d high r => some (encRI h 0xC4 (encVS d) 0 (bit high) (encSr r))
  | .swr h a => some (encRI h 0xC5 0 (encS a) 0 8)
  | .wkadd h a dom => some (encR h 0xC6 0 (encS a) 0 dom.val 0 0 0)
  | .wkdone h dom => some (encR h 0xC7 0 0 0 dom.val 0 0 0)
  | .trap h imm => some (encI h 0xD0 0 0 imm.toNat)
  | .tret h => some (encR h 0xD1 0 0 0 0 0 0 0)
  | .halt h a => some (encR h 0xD2 0 (encS a) 0 0 0 0 0)
  | .bkpt h imm => some (encI h 0xD3 0 0 imm.toNat)
  | .icacheLineFill .. | .fixedLatencyWrite .. | .sliceRelease .. | .readResponse ..
  | .storePerform .. | .heldWriteRelease .. | .revocation .. | .writeAcknowledge ..
  | .atomicPerform .. | .pageWalk .. | .pendingBitOr .. | .spillRingDrain ..
  | .recordHandoff .. | .poolTimerLapse .. | .placementDecision .. | .remoteStackOffer ..
  | .priorityAging .. | .gangReserve .. | .timeSliceEnd .. | .forcedFreeze .. | .blockSave ..
  | .blockRestore .. | .countedTeamDone .. | .embersTokenPass .. | .queueMoveComplete ..
  | .refillWaitEnd .. | .messageFlitAccept .. | .ringReserveRetry .. | .engineComplete ..
  | .chainRecord .. | .gatherRowFetch .. | .fwaitReturn .. | .entryClaim .. | .kvappExecute ..
  | .strikeCommand .. | .strikeRcDrain .. | .attnComplete .. | .mmaAccumulatorWrite ..
  | .barrierArrival .. | .barrierCycle .. | .barrierWaitEnd .. | .wparkDeliver ..
  | .wparkLapse .. | .partitionHalt .. | .stopRecordWrite .. | .watchdog ..
  | .partitionReset .. | .debuggerHalt .. | .debuggerResume .. | .campLendWrite ..
  | .tlbinvSpan .. | .tlbinvAll .. | .tlbinvComplete .. | .hostQueueDoorbell ..
  | .hostQueueEnable .. | .jisoetteLaneBind .. | .nopPacket .. | .haltq .. | .preempt ..
  | .preemptComplete .. | .setsig .. | .waitsig .. | .watchPacket .. | .unwatchPacket ..
  | .poolcfg .. | .launchPacket .. | .copyh .. | .launchSignalDecrement .. | .hostWrite ..
  | .hostRead .. | .remotePacketReceive .. | .flitReplay .. | .linkFailure ..
  | .linkTraining .. | .portDisable .. | .portRetrain .. | .timeSync .. | .thermalLimit ..
  | .fwActivate .. | .attestRequest .. | .powerOnReset .. | .registerWrite ..
  | .planeConverterDone .. | .memoryPortLoss .. | .hostPortTraining .. => none

/-- Whether a row is an event of the device: it has no word. -/
def Instr.isEvent (i : Instr) : Bool := (encode i).isNone

/-! Reading fields. -/

def finOf (n x : Nat) : Option (Fin n) := if h : x < n then some ⟨x, h⟩ else none
def decV (c : Nat) : Option VReg := finOf 64 c
def decS (c : Nat) : Option SReg := if 0x40 ≤ c then finOf 64 (c - 0x40) else none
def decP (c : Nat) : Option PReg := if 0x80 ≤ c then finOf 96 (c - 0x80) else none
def decW (c : Nat) : Option WReg := if 0xE0 ≤ c then finOf 16 (c - 0xE0) else none
def decQ (c : Nat) : Option QReg := if 0xF0 ≤ c then finOf 16 (c - 0xF0) else none

def decVS (c : Nat) : Option VS :=
  if c < 0x40 then (decV c).map .v else (decS c).map .s

def decITy : Nat → Option ITy
  | 8 => some .i32 | 9 => some .n32 | 10 => some .i64 | 11 => some .n64
  | 12 => some .i16 | 13 => some .n16 | 14 => some .i8 | 15 => some .n8 | _ => none

def decFTy : Nat → Option FTy
  | 0 => some .f32 | 1 => some .f16 | 2 => some .bf16 | 3 => some .f8e4 | 4 => some .f8e5 | _ => none

def decNTy (c : Nat) : Option NTy := if c < 8 then (decFTy c).map .f else (decITy c).map .i

def decWide : Nat → Option Bool
  | 9 => some false | 11 => some true | _ => none

def decBool : Nat → Option Bool
  | 0 => some false | 1 => some true | _ => none

def decRnd (c : Nat) : Rnd :=
  ⟨match c % 4 with | 0 => .rne | 1 => .rtz | 2 => .rdn | _ => .rup, c / 4 % 2 == 1⟩

def decICond : Nat → Option ICond
  | 0 => some .eq | 1 => some .ne | 2 => some .lt | 3 => some .le | 4 => some .gt | 5 => some .ge
  | _ => none

def decFCond : Nat → FCond
  | 0 => .eq | 1 => .ne | 2 => .lt | 3 => .le | 4 => .gt | 5 => .ge | 6 => .un | _ => .or

def decShuf : Nat → Shuf
  | 0 => .index | 1 => .xor | 2 => .up | _ => .down

def decRed : Nat → Option RedOp
  | 0 => some .add | 1 => some .min | 2 => some .max | 3 => some .and | 4 => some .or
  | 5 => some .xor | _ => none

def decSpace : Nat → Option Space
  | 0 => some .glob | 1 => some .pocket | 2 => some .pack | 3 => some .camp | 4 => some .bcamp
  | _ => none

def decOrder : Nat → Order
  | 0 => .plain | 1 => .acq | 2 => .rel | _ => .ar

def decSize : Nat → Option Size
  | 0 => some .b8 | 1 => some .b16 | 2 => some .b32 | 3 => some .b64 | 4 => some .b128 | _ => none

def decAOp : Nat → Option AOp
  | 0 => some .xchg | 1 => some .cas | 2 => some .add | 3 => some .min | 4 => some .max
  | 5 => some .and | 6 => some .or | 7 => some .xor | 8 => some .inc | 9 => some .dec
  | 10 => some .fadd | 11 => some .fmin | 12 => some .fmax | _ => none

def decAdj : Nat → AdjField
  | 0 => .orgAdd | 1 => .orgSet | 2 => .cntSet | _ => .stepSet

def decMSpace : Nat → Option MSpace
  | 0 => some .glob | 1 => some .pack | 2 => some .bcamp | _ => none

def decWFmt : Nat → Option WFmt
  | 0 => some .cb4 | 1 => some .i8 | 2 => some .f8e4 | 3 => some .f8e5 | 4 => some .bf16 | _ => none

def decPSrc : Nat → Option PSrc
  | 0 => some .f32 | 1 => some .f16 | 2 => some .bf16 | 3 => some .f8e4 | 4 => some .f8e5
  | 5 => some .i8 | 6 => some .i4 | 7 => some .i2 | 8 => some .i1 | _ => none

def decZFmt : Nat → ZFmt
  | 0 => .f32 | 1 => .bf16 | 2 => .f16 | _ => .f8e4

def decZOp : Nat → Option ZOp
  | 0 => some .mov | 1 => some .add | 2 => some .scale | 3 => some .relu | _ => none

def decSr : Nat → Option Sr
  | 0 => some .wid | 1 => some .arg | 2 => some .lane | 3 => some .team | 4 => some .depth
  | 5 => some .tick | 6 => some .cause | 7 => some .faddr | 8 => some .fstat | 9 => some .check
  | 10 => some .mflags | 11 => some .core | 12 => some .ctx | _ => none

def decHdr (w : Nat) : Option Hdr := do
  let stall ← finOf 64 (fld w 50 6)
  let guard ← finOf 96 (fld w 43 7)
  pure ⟨stall, guard, fld w 42 1 == 1, fld w 41 1 == 1⟩

/-! The field places of the formats; formats E and X share places with R (R21). -/

def fD (w : Nat) : Nat := fld w 33 8
def fA (w : Nat) : Nat := fld w 25 8
def fB (w : Nat) : Nat := fld w 17 8
def fC (w : Nat) : Nat := fld w 9 8
def fX (w : Nat) : Nat := fld w 7 2
def fTy (w : Nat) : Nat := fld w 3 4
def fRnd (w : Nat) : Nat := fld w 0 3
def fOff (w : Nat) : BitVec 24 := BitVec.ofNat 24 w
def fImm32 (w : Nat) : W32 := BitVec.ofNat 32 w
def fImm23 (w : Nat) : BitVec 23 := BitVec.ofNat 23 w
def fTail (w : Nat) : BitVec 16 := BitVec.ofNat 16 w

/-- The S form of a pair. -/
def decS2 (w : Nat) (k : SReg → SReg → SReg → ITy → Instr) : Option Instr := do
  pure (k (← decS (fD w)) (← decS (fA w)) (← decS (fB w)) (← decITy (fTy w)))

/-- The V form of a pair. -/
def decV2 (w : Nat) (k : VReg → VS → VS → ITy → Instr) : Option Instr := do
  pure (k (← decV (fD w)) (← decVS (fA w)) (← decVS (fB w)) (← decITy (fTy w)))

/-- Floating point with two sources. -/
def decF2 (w : Nat) (k : VReg → VS → VS → FTy → Rnd → Instr) : Option Instr := do
  pure (k (← decV (fD w)) (← decVS (fA w)) (← decVS (fB w)) (← decFTy (fTy w)) (decRnd (fRnd w)))

/-- Floating point with one source. -/
def decF1 (w : Nat) (k : VReg → VS → FTy → Rnd → Instr) : Option Instr := do
  pure (k (← decV (fD w)) (← decVS (fA w)) (← decFTy (fTy w)) (decRnd (fRnd w)))

/-- Floating point with three sources. -/
def decF3 (w : Nat) (k : VReg → VS → VS → VS → FTy → Rnd → Instr) : Option Instr := do
  pure (k (← decV (fD w)) (← decVS (fA w)) (← decVS (fB w)) (← decVS (fC w)) (← decFTy (fTy w))
    (decRnd (fRnd w)))

/-- Control and predicate forms (R65). -/
def parseCtl (h : Hdr) (w : Nat) : Nat → Option Instr
  | 0x00 => some (.nop h)
  | 0x01 => some (.bra h (fOff w))
  | 0x02 => do pure (.ball h (← finOf 96 (fld w 34 7)) (fld w 33 1 == 1) (fOff w))
  | 0x03 => do pure (.bany h (← finOf 96 (fld w 34 7)) (fld w 33 1 == 1) (fOff w))
  | 0x04 => do pure (.jmps h (← decS (fA w)))
  | 0x05 => if fld w 24 1 = 1 then do pure (.call h (.reg (← decS (fA w))))
            else some (.call h (.off (fOff w)))
  | 0x06 => some (.ret h)
  | 0x07 => some (.reconv h)
  | 0x08 => do pure (.brk h (← finOf 16 (fC w)))
  | 0x09 => some (.exit h)
  | 0x0A => do pure (.refill h (← decQ (fA w)) (fld w 33 1 == 1) (fOff w))
  | 0x0B => do pure (.elect h (← decS (fD w)))
  | 0x0C => some (.endlead h)
  | 0x0D => do pure (.phint h (← decS (fD w)) (BitVec.ofNat 4 (fld w 28 4))
                      (BitVec.ofNat 6 (fld w 22 6)) (BitVec.ofNat 8 (fld w 14 8)))
  | 0x0E => some (.yield h)
  | 0x10 => do pure (.pset h (← decP (fD w)) (fImm32 w))
  | 0x11 => do pure (.plop h (← decP (fD w)) (← decP (fA w)) (← decP (fB w)) (← decP (fC w))
                      (BitVec.ofNat 8 w))
  | 0x12 => (do pure (.pmov h (.pp (← decP (fD w)) (← decP (fA w)))))
        <|> (do pure (.pmov h (.pv (← decP (fD w)) (← decV (fA w)))))
        <|> (do pure (.pmov h (.ps (← decP (fD w)) (← decS (fA w)))))
        <|> (do pure (.pmov h (.vp (← decV (fD w)) (← decP (fA w)))))
  | 0x13 => do pure (.pcnt h (← decS (fD w)) (← decP (fA w)))
  | 0x14 => do pure (.pfirst h (← decS (fD w)) (← decP (fA w)))
  | _ => none

/-- Integer, move and cross-lane forms (R106, R141 to R146, R159, R163). -/
def parseInt (h : Hdr) (w : Nat) : Nat → Option Instr
  | 0x20 => decS2 w fun d a b t => .sadd h d a b t (fld w 8 1 == 1)
  | 0x21 => decV2 w fun d a b t => .vadd h d a b t (fld w 8 1 == 1)
  | 0x22 => decS2 w fun d a b t => .ssub h d a b t (fld w 8 1 == 1)
  | 0x23 => decV2 w fun d a b t => .vsub h d a b t (fld w 8 1 == 1)
  | 0x24 => decS2 w (.smul h)
  | 0x25 => decV2 w (.vmul h)
  | 0x26 => decS2 w (.smulh h)
  | 0x27 => decV2 w (.vmulh h)
  | 0x28 => do pure (.smad h (← decS (fD w)) (← decS (fA w)) (← decS (fB w)) (← decS (fC w))
                      (← decITy (fTy w)))
  | 0x29 => do pure (.vmad h (← decV (fD w)) (← decVS (fA w)) (← decVS (fB w)) (← decVS (fC w))
                      (← decITy (fTy w)))
  | 0x2A => decS2 w (.sand h)
  | 0x2B => decV2 w (.vand h)
  | 0x2C => decS2 w (.sor h)
  | 0x2D => decV2 w (.vor h)
  | 0x2E => decS2 w (.sxor h)
  | 0x2F => decV2 w (.vxor h)
  | 0x30 => decS2 w (.sshl h)
  | 0x31 => decV2 w (.vshl h)
  | 0x32 => decS2 w (.sshr h)
  | 0x33 => decV2 w (.vshr h)
  | 0x34 => decS2 w (.ssar h)
  | 0x35 => decV2 w (.vsar h)
  | 0x36 => decS2 w (.smin h)
  | 0x37 => decV2 w (.vmin h)
  | 0x38 => decS2 w (.smax h)
  | 0x39 => decV2 w (.vmax h)
  | 0x3A => do pure (.scmp h (← decP (fD w)) (← decS (fA w)) (← decS (fB w))
                      (← decICond (fld w 9 3)) (← decITy (fTy w)))
  | 0x3B => do pure (.vcmp h (← decP (fD w)) (← decVS (fA w)) (← decVS (fB w))
                      (← decICond (fld w 9 3)) (← decITy (fTy w)))
  | 0x3C => do pure (.vsel h (← decV (fD w)) (← decVS (fA w)) (← decVS (fB w)) (← decP (fC w))
                      (← decWide (fTy w)))
  | 0x3D => (do pure (.smov h (.ss (← decS (fD w)) (← decS (fA w)))))
        <|> (do pure (.smov h (.push (← decQ (fD w)) (← decS (fA w)))))
        <|> (do pure (.smov h (.pop (← decS (fD w)) (← decQ (fA w)))))
  | 0x3E => do
      let wide ← decWide (fTy w)
      (do pure (.vmov h (.vv (← decV (fD w)) (← decV (fA w))) wide))
        <|> (do pure (.vmov h (.vs (← decV (fD w)) (← decS (fA w))) wide))
        <|> (do pure (.vmov h (.push (← decQ (fD w)) (← decV (fA w))) wide))
        <|> (do pure (.vmov h (.pop (← decV (fD w)) (← decQ (fA w))) wide))
  | 0x3F => do pure (.smovi h (← decS (fD w)) (fld w 32 1 == 1) (fImm32 w))
  | 0x40 => do pure (.vmovi h (← decV (fD w)) (fImm32 w))
  | 0x41 => do pure (.vclz h (← decV (fD w)) (← decV (fA w)) (← decWide (fTy w)))
  | 0x42 => do pure (.vpop h (← decV (fD w)) (← decV (fA w)) (← decWide (fTy w)))
  | 0x43 => do pure (.vbfx h (← decV (fD w)) (← decV (fA w)) (← finOf 32 (fld w 12 5))
                      (← finOf 32 (fld w 7 5)) (fTy w == 8))
  | 0x44 => do pure (.vbfi h (← decV (fD w)) (← decV (fA w)) (← decV (fB w))
                      (← finOf 32 (fld w 12 5)) (← finOf 32 (fld w 7 5)))
  | 0x45 => do pure (.vaddc h (← decV (fD w)) (← decVS (fA w)) (← decVS (fB w)) (← decP (fC w))
                      (fld w 8 1 == 1))
  | 0x46 => do pure (.vaddr h (← decV (fD w)) (← decVS (fA w)) (← decV (fB w)) (← finOf 4 (fX w))
                      (← decWide (fTy w)))
  | 0x47 => do pure (.saddi h (← decS (fD w)) (← decS (fA w)) (← decBool (fld w 23 2)) (fImm23 w))
  | 0x48 => do pure (.vaddi h (← decV (fD w)) (← decV (fA w)) (← decBool (fld w 23 2)) (fImm23 w))
  | 0x49 => do pure (.vshuf h (← decV (fD w)) (← decV (fA w)) (← decVS (fB w)) (decShuf (fX w))
                      (← decWide (fTy w)))
  | 0x4A => do pure (.vbcast h (← decVS (fD w)) (← decV (fA w)) (← decS (fB w)) (← decWide (fTy w)))
  | 0x4B => do pure (.vreduce h (← decVS (fD w)) (← decV (fA w)) (← decRed (fld w 9 3))
                      (← decNTy (fTy w)) (decRnd (fRnd w)))
  | 0x4C => do pure (.vscan h (← decV (fD w)) (← decV (fA w)) (← decRed (fld w 9 3))
                      (← decNTy (fTy w)) (decRnd (fRnd w)))
  | 0xD4 => do pure (.csum h (← decS (fD w)) (← decS (fA w)) (← decV (fB w)) (← decWide (fTy w)))
  | _ => none

/-- Floating-point forms (R147). -/
def parseFp (h : Hdr) (w : Nat) : Nat → Option Instr
  | 0x50 => decF2 w (.fadd h)
  | 0x51 => decF2 w (.fsub h)
  | 0x52 => decF2 w (.fmul h)
  | 0x53 => decF3 w (.ffma h)
  | 0x54 => decF2 w fun d a b t r => .fmin h d a b t r.ftz
  | 0x55 => decF2 w fun d a b t r => .fmax h d a b t r.ftz
  | 0x56 => do pure (.fcmp h (← decP (fD w)) (← decVS (fA w)) (← decVS (fB w))
                      (decFCond (fld w 9 3)) (decRnd (fRnd w)).ftz)
  | 0x57 => decF1 w fun d a _ r => .frcp h d a r
  | 0x58 => decF1 w fun d a _ r => .frsq h d a r
  | 0x59 => decF1 w fun d a _ r => .fexp2 h d a r
  | 0x5A => decF1 w fun d a _ r => .flog2 h d a r
  | 0x5B => decF1 w fun d a _ r => .fscos h d a r
  | 0x5C => do pure (.fcvt h (← decV (fD w)) (← decVS (fA w)) (← decNTy (fld w 9 4))
                      (← decNTy (fTy w)) (← finOf 4 (fX w)) (decRnd (fRnd w)))
  | 0x5D => decF1 w (.frnd h)
  | 0x5E => decF1 w fun d a t _ => .fclass h d a t
  | 0x5F => decF3 w (.fdot2 h)
  | 0x60 => decF2 w (.fcmul h)
  | 0x61 => decF3 w (.fbfly h)
  | 0x62 => decF2 w fun d a b _ r => .ftwid h d a b r
  | _ => none

/-- Memory forms (R186). -/
def parseMem (h : Hdr) (w : Nat) : Nat → Option Instr
  | 0x80 => do pure (.ld h (← decVS (fD w)) (← decVS (fA w)) (← decSpace (fld w 22 3))
                      (decOrder (fld w 20 2)) (← decSize (fld w 17 3)) (fld w 16 1 == 1) (fTail w))
  | 0x81 => do pure (.st h (← decVS (fD w)) (← decVS (fA w)) (← decSpace (fld w 22 3))
                      (decOrder (fld w 20 2)) (← decSize (fld w 17 3)) (fTail w))
  | 0x82 => do pure (.atom h (← decVS (fD w)) (← decVS (fA w)) (← decSpace (fld w 22 3))
                      (decOrder (fld w 20 2)) (← decSize (fld w 17 3)) (fld w 16 1 == 1)
                      (← decVS (fld w 8 8)) (← decAOp (fld w 4 4)) (← finOf 3 (fld w 0 4)))
  | 0x83 => do pure (.red h (← decVS (fD w)) (← decVS (fA w)) (← decSpace (fld w 22 3))
                      (decOrder (fld w 20 2)) (← decSize (fld w 17 3)) (fld w 16 1 == 1)
                      (← decAOp (fld w 4 4)) (← finOf 3 (fld w 0 4)))
  | 0x84 => some (.fence h (decOrder (fld w 20 2)))
  | 0x85 => do pure (.prf h (← decBool (fD w)) (← decVS (fA w)) (fTail w))
  | 0x86 => do pure (.vld h (← decV (fD w)) (← decW (fA w)) (decOrder (fld w 20 2))
                      (← decSize (fld w 17 3)) (fld w 16 1 == 1) (← decVS (fld w 8 8))
                      (← if fld w 0 8 = 0 then some none else (decP (fld w 0 8)).map some))
  | 0x87 => do pure (.vst h (← decV (fD w)) (← decW (fA w)) (decOrder (fld w 20 2))
                      (← decSize (fld w 17 3)) (← decVS (fld w 8 8)))
  | 0x88 => do pure (.vwset h (← decW (fD w)) (← decS (fA w)))
  | 0x89 => do pure (.vwadj h (← decW (fD w)) (← decW (fA w)) (← decS (fB w))
                      (← finOf 4 (fld w 11 2)) (decAdj (fld w 9 2)))
  | 0x8A => do pure (.vret h (← decW (fD w)))
  | 0x8B => do pure (.tdset h (← decS (fA w)) (← decS (fB w)))
  | _ => none

/-- Engine, queue and launch forms in format E, and special registers (R106, R236, R275, R324, R355). -/
def parseEng (h : Hdr) (w : Nat) : Nat → Option Instr
  | 0xA0 => do
      let a ← decW (fD w)
      let b ← decW (fA w)
      let c ← decS (fB w)
      pure (if fld w 0 1 = 1 then .copyR h a b c else .copy h a b c)
  | 0xA1 => do pure (.copym h (← decW (fD w)) (← decS (fA w)) (← decS (fB w)))
  | 0xA2 => do pure (.chain h (← decS (fD w)) (← decS (fA w)) (← decS (fB w)))
  | 0xA3 => do pure (.ring h (← decS (fD w)) (← decS (fA w)) (← finOf 256 (fld w 0 8)))
  | 0xA4 => do pure (.fwait h (← decS (fD w)) (← decS (fA w)) (fld w 0 1 == 1))
  | 0xA5 => do pure (.frel h (← decS (fA w)))
  | 0xA6 => do pure (.ftest h (← decP (fD w)) (← decS (fA w)))
  | 0xA7 => do pure (.gath h (← if fld w 11 1 = 1 then some none else (decV (fD w)).map some)
                      (← decV (fA w)) (← decS (fB w)) (← finOf 96 (fld w 4 7)) (← finOf 3 (fld w 2 2)))
  | 0xA8 => do pure (.scat h (← decV (fD w)) (← decV (fA w)) (← decS (fB w)) (← finOf 3 (fld w 2 2)))
  | 0xA9 => do pure (.qbind h (← decQ (fD w)) (← decS (fA w)) (← finOf 6 (fld w 8 4)))
  | 0xAA => do pure (.qtry h (← decVS (fD w)) (← decQ (fA w)) (← decP (fB w)) (fld w 11 1 == 1))
  | 0xBE => do pure (.kvapp h (← decS (fD w)) (← decS (fA w)) (← decS (fB w)) (← decMSpace (fld w 0 2)))
  | 0xBF => do pure (.kvevt h (← decS (fD w)) (← finOf 4 (fld w 0 2)))
  | 0xC0 => do pure (.watch h (← decS (fD w)) (← decS (fA w)) (← decS (fB w)))
  | 0xC1 => do pure (.unwatch h (← decS (fD w)) (← decS (fA w)))
  | 0xC2 => do pure (.wpark h (← decV (fD w)) (← decS (fA w)) (← decS (fB w)) (← finOf 96 (fld w 4 7)))
  | 0xC3 => if fld w 0 1 = 1 then do pure (.launchRecord h (← decS (fD w)) (← decV (fA w)))
            else do
              let d ← decS (fD w)
              let b ← decS (fA w)
              let c ← if fB w = 0 then some none else (decS (fB w)).map some
              pure (.launchGrid h d b c)
  | 0xC4 => do pure (.srd h (← decVS (fD w)) (← decBool (fld w 23 2)) (← decSr (fld w 0 23)))
  | 0xC5 => do pure (.swr h (← decS (fA w)))
  | 0xC6 => do pure (.wkadd h (← decS (fA w)) (← finOf 16 (fld w 9 4)))
  | 0xC7 => do pure (.wkdone h (← finOf 16 (fld w 9 4)))
  | 0xD0 => some (.trap h (fImm32 w))
  | 0xD1 => some (.tret h)
  | 0xD2 => do pure (.halt h (← decS (fA w)))
  | 0xD3 => some (.bkpt h (fImm32 w))
  | _ => none

/-- Matrix forms (R215, R236). -/
def parseMat (h : Hdr) (w : Nat) : Nat → Option Instr
  | 0xB0 => do pure (.mlda h (← finOf 8 (fld w 35 3)) (← decS (fld w 27 8)) (← decV (fld w 19 8))
                      (← decV (fld w 11 8)) (← finOf 4 (fld w 5 2)) (← decWFmt (fld w 2 3))
                      (← decMSpace (fld w 0 2)))
  | 0xB1 => do pure (.plane h (← decS (fld w 27 8)) (← decS (fld w 19 8)) (← decS (fld w 11 8))
                      (← decPSrc (fld w 0 5)))
  | 0xB2 => do pure (.mma h (← finOf 8 (fld w 38 3)) (← finOf 8 (fld w 35 3)) (← decS (fld w 27 8))
                      (← decV (fld w 19 8)) (← decV (fld w 11 8)) (← finOf 16 (fld w 7 4))
                      (← finOf 4 (fld w 5 2)) (← finOf 8 (fld w 2 3)) (fld w 1 1 == 1)
                      (fld w 0 1 == 1))
  | 0xB3 => do pure (.moutl h (← decS (fld w 27 8)))
  | 0xB4 => if fld w 0 1 = 1 then do pure (.zclr h true (← finOf 8 (fld w 35 3)))
            else do pure (.zclr h false (← finOf 8 (fld w 38 3)))
  | 0xB5 => do pure (.zld h (← finOf 8 (fld w 38 3)) (← decS (fld w 27 8)) (fld w 2 1 == 1)
                      (← decMSpace (fld w 0 2)))
  | 0xB6 => do pure (.zst h (← finOf 8 (fld w 38 3)) (fld w 35 1 == 1) (← decS (fld w 27 8))
                      (decZFmt (fld w 3 2)) (fld w 2 1 == 1) (← decMSpace (fld w 0 2)))
  | 0xB7 => do
      let z ← finOf 8 (fld w 38 3)
      let a ← finOf 8 (fld w 35 3)
      let op ← decZOp (fld w 2 3)
      if op = .scale then pure (.zmap h z a (← decS (fld w 27 8)) op) else pure (.zmap h z a 0 op)
  | 0xB8 => do pure (.binit h (← decS (fA w)) (← finOf 128 (fC w)))
  | 0xB9 => do pure (.barr h (← decS (fD w)) (← finOf 128 (fC w)))
  | 0xBA => do pure (.bwait h (← decS (fA w)) (← finOf 128 (fC w)))
  | 0xBB => do pure (.bsync h (← finOf 128 (fC w)))
  | 0xBC => do pure (.bexp h (← decS (fA w)) (← finOf 128 (fC w)))
  | 0xBD => do pure (.attn h (← finOf 8 (fld w 38 3)) (← decS (fld w 27 8)) (← finOf 16 (fld w 7 4))
                      (fld w 4 1 == 1) (fld w 3 1 == 1) (fld w 2 1 == 1) (fld w 1 1 == 1))
  | _ => none

/-- Whether an opcode is assigned (R36). -/
def assigned (opc : Nat) : Bool :=
  (opc ≤ 0x14 && opc != 0x0F) || (0x20 ≤ opc && opc ≤ 0x4C) || (0x50 ≤ opc && opc ≤ 0x62) ||
  (0x80 ≤ opc && opc ≤ 0x8B) || (0xA0 ≤ opc && opc ≤ 0xAA) || (0xB0 ≤ opc && opc ≤ 0xC7) ||
  (0xD0 ≤ opc && opc ≤ 0xD4)

/-- The instruction whose fields a word shows, before the checks of unused bits. -/
def parse (h : Hdr) (w : Nat) : Option Instr :=
  let opc := fld w 56 8
  if opc < 0x20 then parseCtl h w opc
  else if opc < 0x50 ∨ opc = 0xD4 then parseInt h w opc
  else if opc < 0x80 then parseFp h w opc
  else if opc < 0xA0 then parseMem h w opc
  else if 0xB0 ≤ opc ∧ opc < 0xBE then parseMat h w opc
  else parseEng h w opc

/-- Decoding of a body word: total, refusing by name. -/
def decode (w : Nat) : Except Reject Instr :=
  if !assigned (fld w 56 8) then .error .unassignedOpcode
  else match decHdr w with
    | none => .error .guardRange
    | some h =>
      match parse h w with
      | none => .error .badField
      | some i =>
        if encode i != some w then .error .unusedFieldSet
        else if i.wf then .ok i
        else .error .illFormed

/-- The instruction the decoder reads from the low nbits of w; a body word has 64 bits and lies
in memory least significant byte first (R9, R114). -/
def decodeTableWord (nbits w : Nat) : Option Instr := (decode (w % 2 ^ min nbits 64)).toOption

end Sys2Proof
end

