-- ==== Sys2Proof/Machine/Bits.lean ====
section
/-! DEFINITION. Masks of lanes, lanes of a slice, little-endian bytes, checksums, lists in order: the small
operations that the machine uses. -/

namespace Sys2Proof.Machine

/-- Mask word j (R53). -/
def maskWord (m : Mask) (j : Nat) : W32 := m.extractLsb' (32 * j) 32

/-- Whether lane l is in a mask. -/
def inMask (m : Mask) (l : Nat) : Bool := m.getLsbD l

/-- The mask of lane l alone. -/
def laneBit (l : Nat) : Mask := 1#1024 <<< l

/-- The lanes below n. -/
def lanesBelow (n : Nat) : Mask := BitVec.ofNat 1024 (2 ^ n - 1)

/-- The non-zero mask words, ascending: the passes of an instruction (R54). -/
def passes (m : Mask) : List Nat := (List.range 32).filter fun j => maskWord m j != 0

/-- The lanes of a mask, ascending. -/
def lanes (m : Mask) : List Nat :=
  (passes m).flatMap fun j =>
    ((List.range 32).filter fun l => (maskWord m j).getLsbD l).map fun l => 32 * j + l

/-- The number of lanes. -/
def popcount (m : Mask) : Nat := (lanes m).length

/-- The lowest lane. -/
def lowest (m : Mask) : Option Nat := (lanes m).head?

/-- The same 32-bit pattern in every mask word (R76). -/
def repWord (w : W32) : Mask :=
  (List.range 32).foldl (fun acc j => acc ||| (w.zeroExtend 1024 <<< (32 * j))) 0

/-- A mask from a test of its lanes, over given lanes. -/
def maskOf (ls : List Nat) (f : Nat → Bool) : Mask :=
  ls.foldl (fun acc l => if f l then acc ||| laneBit l else acc) 0

/-- b in the lanes of m, a elsewhere. -/
def blend (m a b : BitVec 1024) : BitVec 1024 := (a &&& ~~~m) ||| (b &&& m)

/-- Lane l of a slice (R84). -/
def laneOf (d : BitVec 1024) (l : Nat) : W32 := d.extractLsb' (32 * l) 32

/-- A slice from its lanes. -/
def sliceOf (f : Nat → W32) : BitVec 1024 :=
  (List.range 32).foldl (fun acc l => acc ||| ((f l).zeroExtend 1024 <<< (32 * l))) 0

/-- All the bits of the lanes that a mask word names. -/
def sliceMask (w : W32) : BitVec 1024 := sliceOf fun l => if w.getLsbD l then 0xFFFFFFFF else 0

/-- Little-endian bytes of a number (R114). -/
def toLe : Nat → Nat → List Byte
  | 0, _ => []
  | n + 1, x => BitVec.ofNat 8 x :: toLe n (x / 256)

/-- The number of little-endian bytes. -/
def ofLe : List Byte → Nat
  | [] => 0
  | b :: t => b.toNat + 256 * ofLe t

/-- The 64-bit word at byte offset o of a buffer. -/
def le64 (bs : List Byte) (o : Nat) : Nat := ofLe ((bs.drop o).take 8)
/-- The 32-bit word at byte offset o of a buffer. -/
def le32 (bs : List Byte) (o : Nat) : Nat := ofLe ((bs.drop o).take 4)

/-- x, an n-bit number, read as signed. -/
def sgn (n x : Nat) : Int := if x % 2 ^ n < 2 ^ (n - 1) then (x % 2 ^ n : Nat) else (x % 2 ^ n : Nat) - (2 ^ n : Nat)

/-- x mod 2^n of an integer. -/
def wrap (n : Nat) (x : Int) : Nat := (x % (2 ^ n : Nat)).toNat

/-- XOR of the successive k-bit chunks of x (R284). -/
def fold (k : Nat) : Nat → Nat → Nat
  | 0, _ => 0
  | n + 1, x => if k = 0 then 0 else (x % 2 ^ k) ^^^ fold k n (x / 2 ^ k)

/-- One bit step of CRC-32C (R163). -/
def crcBit (c : Nat) : Nat := if c % 2 = 1 then (c / 2) ^^^ 0x82F63B78 else c / 2

/-- One byte of CRC-32C (R163). -/
def crcByte (c : Nat) (b : Byte) : Nat :=
  let c := c ^^^ b.toNat
  crcBit (crcBit (crcBit (crcBit (crcBit (crcBit (crcBit (crcBit c)))))))

/-- CRC-32C over bytes (R163). -/
def crc (c : Nat) (bs : List Byte) : Nat := bs.foldl crcByte c

/-- The standard form (R163). -/
def crcStd (bs : List Byte) : Nat := crc 0xFFFFFFFF bs ^^^ 0xFFFFFFFF

/-- Ceiling of a logarithm to base 2. -/
def clog2 (n : Nat) : Nat := if n ≤ 1 then 0 else Nat.log2 (n - 1) + 1

def cdiv (a b : Nat) : Nat := (a + b - 1) / b

/-- Places an element before the first that does not come before it. -/
def insertBy {α : Type} (le : α → α → Bool) (a : α) : List α → List α
  | [] => [a]
  | b :: l => if le a b then a :: b :: l else b :: insertBy le a l

/-- A list in order; elements that are equal in the order stay as they stand. -/
def sortBy {α : Type} (le : α → α → Bool) : List α → List α
  | [] => []
  | a :: l => insertBy le a (sortBy le l)

end Sys2Proof.Machine
end

