-- ==== Sys2Proof/Machine/Tbl.lean ====
section
/-! DEFINITION. Sparse tables: lists of (key, value) pairs with strictly rising keys. Memory and every
file of registers, cores or contexts is one. A key not listed holds the table's default. -/

namespace Sys2Proof.Machine

/-- A sparse table. -/
abbrev Tbl (α : Type) := List (Nat × α)

namespace Tbl
variable {α : Type}

/-- The value at a key; d where the key is not listed. -/
def get (d : α) : Tbl α → Nat → α
  | [], _ => d
  | (k, v) :: t, x => if x = k then v else get d t x

/-- The value at a key, if listed. -/
def find : Tbl α → Nat → Option α
  | [], _ => none
  | (k, v) :: t, x => if x = k then some v else find t x

/-- Removes a key. -/
def del (t : Tbl α) (x : Nat) : Tbl α := t.filter fun c => c.1 != x

/-- Lists a key with a value. -/
def put : Tbl α → Nat → α → Tbl α
  | [], x, y => [(x, y)]
  | (k, v) :: t, x, y =>
    if x = k then (x, y) :: t else if x < k then (x, y) :: (k, v) :: t else (k, v) :: put t x y

/-- Sets a key, keeping no entry equal to the default d. -/
def set [DecidableEq α] (d : α) (t : Tbl α) (x : Nat) (y : α) : Tbl α :=
  if y = d then del t x else put t x y

/-- Applies f at a key. -/
def upd (d : α) (t : Tbl α) (x : Nat) (f : α → α) : Tbl α := put t x (f (get d t x))

/-- Keys at or above lo rise strictly. -/
def rising : Nat → Tbl α → Bool
  | _, [] => true
  | lo, (k, _) :: t => decide (lo ≤ k) && rising (k + 1) t

/-- The canonical form: keys rise strictly and no entry holds the default. -/
def wf [DecidableEq α] (d : α) (t : Tbl α) : Bool :=
  rising 0 t && t.all (fun c => !decide (c.2 = d))

end Tbl
end Sys2Proof.Machine
end

