-- ==== Sys2Proof/Machine/State.lean ====
section
/-! DEFINITION. The state of a Knasen 9480 package: plain data, every piece of state the manual names
(INVENTORY.md lists them with their rules), and the machine after reset. Numbers that the manual counts
or indexes are natural numbers; what it treats as bits are bit vectors. -/

namespace Sys2Proof.Machine

/-- Cause codes (R360). -/
inductive Cause where
  | page | cascade | stallShort | align | swtrap | bkpt | unimpl | qfault
  | illegal | illegalHeader | illegalTarget | illegalMask | illegalStack | illegalDesc
  | prot | ecc | watchdog | halt
deriving DecidableEq, Repr

/-- Kinds of entries of the reconvergence stack (R56). -/
inductive EKind where
  | div | call | lead | trap
deriving DecidableEq, Repr

/-- An entry of the reconvergence stack (R56). -/
structure Entry where
  kind  : EKind
  pc1   : Nat
  pc2   : W64
  omask : Mask
  tmask : Mask
deriving DecidableEq, Repr

/-- A launch header (R340), and the dictionary bank its parties hold on their core (R27): the number of the
bank's fill, 0 for none. -/
structure Launch where
  addr   : Nat
  bank   : Nat
  entry  : Nat
  mentry : Nat
  dict   : Nat
  dlen   : Nat
  f      : List Nat
  nb     : Nat
  depth  : Nat
  nv     : Nat
  ns     : Nat
  np     : Nat
  words  : Nat
  teams  : Nat
  check  : Bool
  icinv  : Bool
  blocks : Nat
  pack   : Nat
  pl     : Nat
  pool   : Nat
  args   : List W64
deriving DecidableEq, Repr

/-- A tensor descriptor (R176). -/
structure Desc where
  space  : Space
  base   : Nat
  esize  : Nat
  rank   : Nat
  stride : List Int
  ext    : List Nat
deriving DecidableEq, Repr

/-- A footprint of a view (R180); none stands for the whole space. -/
structure Foot where
  space : Space
  ctx   : Nat
  place : Nat
  lo    : Int
  hi    : Int
  g     : Nat
  a     : Int
  l     : Nat
deriving DecidableEq, Repr

/-- A view register with its descriptor copy (R177, R178); entry is the number of its directory
entry, none when it is unlisted (R182). -/
structure View where
  bits  : BitVec 256
  desc  : Desc
  entry : Option Nat
deriving DecidableEq, Repr

/-- An entry of the live-view directory (R182). -/
structure DirEntry where
  foot  : Option Foot
  owner : Option (Nat × Nat)
  count : Nat
deriving DecidableEq, Repr

/-- A queue binding (R104): KIND and argument. -/
structure QBind where
  kind : Nat
  arg  : W64
deriving DecidableEq, Repr

/-- Destinations of results: a physical slice, an entry of the rename map (register, word), a scalar, a
predicate (R30). -/
inductive Dest where
  | slice (n : Nat)
  | entry (k j : Nat)
  | scalar (r : Nat)
  | pred (r : Nat)
deriving DecidableEq, Repr

/-- A fixed-latency result that an unmet consumer may still miss (R28 to R32): the register, the cycles
left, its earlier content, the lanes of it that no later result has overwritten, and what is done when
it is written: flags, and the value-table key with the slice; done once that has happened. slice is the slice the pass
allotted, 0 for none; due is the cycle in which it is written (R30). -/
structure Shadow where
  dest  : Dest
  left  : Nat
  old   : BitVec 1024
  mask  : Mask
  flags : BitVec 5
  key   : Option (Nat × Nat)
  done  : Bool
  slice : Nat
  due   : Nat
deriving DecidableEq, Repr

/-- What a party waits in: an instruction that has not issued, a BSYNC whose arrival has counted and that waits on the parity of
that arrival (R374), or an instruction whose passes below a word have issued and whose next pass lacks a slice (R87). next is
where execution goes after it, which its code gave as it first issued (R15). -/
inductive Wait where
  | instr (i : Instr) (since : Nat) (next : Nat × Bool)
  | barrier (i : Instr) (parity : Bool) (since : Nat) (next : Nat × Bool)
  | passes (i : Instr) (word since : Nat) (next : Nat × Bool)
deriving DecidableEq, Repr

/-- The registers a frozen party keeps (R374): none means all within its counts. -/
structure Live where
  v : BitVec 64
  s : BitVec 4
  p : BitVec 6
deriving DecidableEq, Repr

/-- How a party is frozen: what is live, the pack regions declared, and whether by force (R376). -/
structure Freeze where
  live   : Option Live
  pack   : BitVec 8
  forced : Bool
deriving DecidableEq, Repr

/-- A delivery of the gather result stream (R271): rows of the lanes in V, chunks taken so far. -/
structure Delivery where
  id    : Nat
  valid : Mask
  rows  : Tbl (List Byte)
  rb    : Nat
  next  : Nat
deriving DecidableEq, Repr

/-- A team in its slot (02, 03). Physical slices stand in the core. due is the first cycle in which its stall counts
allow its next pass (R28); yield names the teams it waits for (R75); back says that a trap return to its pc is to be judged once
the word there can be read (R14, R366); slip is the line it is frozen for (R33). -/
structure Team where
  uid     : Nat
  ctx     : Nat
  blk     : Nat
  num     : Nat
  hdr     : Launch
  pc      : Nat
  atHdr   : Bool
  hdrAddr : Nat
  hdrWord : Nat
  act     : Mask
  stk     : List Entry
  sreg    : Tbl W64
  preg    : Tbl Mask
  vmap    : Tbl Nat
  view    : Tbl View
  qb      : Tbl QBind
  wid     : Tbl W64
  arg     : Tbl W64
  depth   : Nat
  fstat   : BitVec 5
  check   : Bool
  shadows : List Shadow
  wait    : Option Wait
  yield   : List Nat
  frozen  : Option Freeze
  gather  : List Delivery
  vers    : Tbl W32
  relSeq  : Nat
  dom     : Option Nat
  launch  : Option Nat
  due     : Nat := 0
  back    : Bool := false
  slip    : Option Nat := none
deriving DecidableEq, Repr

/-- A matrix stream (R62, R364); due, back and slip are as a team's. -/
structure Ridge where
  uid     : Nat
  ctx     : Nat
  blk     : Nat
  hdr     : Launch
  pc      : Nat
  atHdr   : Bool
  hdrAddr : Nat
  hdrWord : Nat
  sreg    : Tbl W64
  preg    : Tbl Mask
  rstk    : List Nat
  trap    : Option (Nat × W64 × W64)
  check   : Bool
  shadows : List Shadow
  wait    : Option Wait
  frozen  : Option Freeze
  ended   : Bool
  depth   : Nat
  due     : Nat := 0
  back    : Bool := false
  slip    : Option Nat := none
deriving DecidableEq, Repr

/-- A named barrier (R209), with the arrivals and posts of the running cycle (R211); late says that the matrix stream has posted in
it (R226). -/
structure Bar where
  exp   : BitVec 12
  arr   : BitVec 24
  post  : BitVec 24
  phase : Bool
  now   : Nat
  posts : Nat
  late  : Bool
deriving DecidableEq, Repr

/-- Kinds of weight tiles (R200). -/
inductive TKind where
  | cb4 | i8 | float
deriving DecidableEq, Repr

/-- A weight tile (R200, R207): element 64 m + k, row scale m. -/
structure Tile where
  el    : Tbl Int
  sc    : Tbl W32
  kind  : TKind
  use   : Bool
  dirty : Bool
deriving DecidableEq, Repr

/-- An accumulator (R200, R207): element 32 m + n. -/
structure Acc where
  el    : Tbl W32
  use   : Bool
  dirty : Bool
deriving DecidableEq, Repr

/-- An MMA whose additions are not yet written (R199): the new accumulator and its plane steps. -/
structure MmaPend where
  z     : Nat
  acc   : Acc
  steps : Nat
deriving DecidableEq, Repr

/-- An arrival that has not counted yet (R210): party, barrier, the scalar BARR writes, and the
number the party's earlier accesses are below. -/
structure Arrival where
  uid  : Nat
  bar  : Nat
  dst  : Option Nat
  seq  : Nat
  sync : Bool
deriving DecidableEq, Repr

/-- An issued ATTN that is not complete (R244): key and class of its sequence entry, the slot it reads, the
mass additions as (key, class, addend). -/
structure AttnRun where
  id    : Nat
  entry : Nat
  cls   : Nat
  slot  : Nat
  adds  : List (Nat × Nat × W32)
  depth : Nat
deriving DecidableEq, Repr

/-- A block on its core (R49). since is the number after which a dictionary bank its parties share was filled (R27); past
names its teams that have retired (R377, R383); froze is the tick at which a party of it was last frozen (R368). -/
structure Block where
  ctx    : Nat
  core   : Nat
  hdr    : Launch
  ord    : Nat
  isRec  : Bool
  launch : Option Nat
  bars   : Tbl Bar
  tiles  : Tbl Tile
  accs   : Tbl Acc
  outl   : List W64
  mma    : List MmaPend
  arr    : List Arrival
  req    : Option Nat
  depth  : Nat
  attn   : Option AttnRun
  since  : Nat := 0
  past   : List Nat := []
  froze  : Nat := 0
deriving DecidableEq, Repr

/-- A physical register slice (R84): lane l holds bits [32l+31:32l]; the uid that allotted it; an uncorrectable
parity error mark (R394). -/
structure Phys where
  data  : BitVec 1024
  owner : Nat
  bad   : Bool := false
deriving DecidableEq, Repr

/-- An entry of the value table (R89), with its place, its last use, a parity error mark and the cycle of its insertion, from the
end of which lookups see it (R91). -/
structure VtEntry where
  set   : Nat
  way   : Nat
  key   : Nat
  slice : Nat
  used  : Nat
  bad   : Bool
  since : Nat
deriving DecidableEq, Repr

/-- A dictionary bank (R27). -/
structure Bank where
  ctx    : Nat
  dict   : Nat
  dlen   : Nat
  words  : List W64
  filled : Nat
deriving DecidableEq, Repr

/-- A line of the instruction cache (R33): 32 words of one context's virtual line; a parity error mark (R394). -/
structure IcLine where
  ctx   : Nat
  line  : Nat
  words : List W64
  when  : Nat
  bad   : Bool := false
deriving DecidableEq, Repr

/-- A line of the L1 (R285, R297): physical line, bytes, valid words, version; a parity error mark (R394). -/
structure L1Line where
  line  : Nat
  bytes : List Byte
  valid : BitVec 32
  ver   : W32
  bad   : Bool := false
deriving DecidableEq, Repr

/-- A TLB entry (R290): context, virtual page base, log of its size, physical base, leaf fields. -/
structure TlbE where
  ctx  : Nat
  va   : Nat
  lg   : Nat
  pa   : Nat
  r    : Bool
  w    : Bool
  x    : Bool
  cls  : Nat
deriving DecidableEq, Repr

/-- A message flit (R274); uid is the team that pushes it. -/
structure Flit where
  uid  : Nat
  src  : Nat
  dst  : Nat
  ctx  : Nat
  tag  : Nat
  data : List Byte
deriving DecidableEq, Repr

/-- A core. lastSlot is the slot that issued last, busy the first cycle in which a further team pass may start (R55); tried names
the slots that were chosen in cycle triedAt and whose instruction was not ready after all. -/
structure Core where
  phys    : Tbl Phys
  vtb     : List VtEntry
  banks   : List Bank
  icache  : List IcLine
  dir     : Tbl DirEntry
  l1      : List L1Line
  own     : Tbl Bool
  tlb     : List TlbE
  lend    : Nat
  planeBy : Option Nat
  rx      : List Flit
  lastSlot : Nat
  busy     : Nat
  reserved : Option Nat
  tried    : List Nat
  triedAt  : Nat
deriving DecidableEq, Repr

/-- What an access in flight does at its home. -/
inductive AccK where
  | read
  | write (data : List Byte)
  | atomic (op : AOp) (ft : Nat) (sx : Bool) (b c : W64)
deriving DecidableEq, Repr

/-- A memory access in flight (R296 to R302). A write or an atomic stands at stage 0 until it is
performed, then at stage 1 until it is acknowledged. A read carries what the home held at its issue; noFill is set once its
core has invalidated its L1 since, which it then no longer fills (R298). wide marks the store of a descriptor, before whose
acknowledgement every L1 drops its words (R195). port is the Ngazon port its packet was sent on, barred the ports that have
failed since it was numbered and carry it no more (R390, R391). The access of a unit has a core number above every core's, and its operation's
number as uid.
after is the number below which every access of the party must be gone first; grp is the number of the
first access of its instruction. -/
structure Access where
  id     : Nat
  kind   : AccK
  uid    : Nat
  core   : Nat
  ctx    : Nat
  key    : Nat
  len    : Nat
  va     : Nat
  cls    : Nat
  acq    : Bool
  after  : Nat
  grp    : Nat
  depth  : Nat
  dests  : List Dest
  lane   : Nat
  sx     : Bool
  stage  : Nat
  held   : Bool
  revoke : List Nat
  snap   : Option (List Byte × W32)
  noMerge : Bool
  pkgSeq : Option (Nat × Nat)
  noFill : Bool := false
  port   : Option Nat := none
  wide   : Bool := false
  barred : List Nat := []
deriving DecidableEq, Repr

/-- A pending OR of the trigger unit (R312): watch, granule, slice, depth and source of the write. -/
structure PendOr where
  ctx   : Nat
  watch : Nat
  index : Nat
  slice : Nat
  depth : Nat
  src   : Nat
deriving DecidableEq, Repr

/-- A trigger record (R315); dead once UNWATCH has discarded it in a spill ring (R327). -/
structure TRec where
  addr  : Nat
  index : Nat
  src   : Nat
  ctx   : Nat
  depth : Nat
  watch : Nat
  seq   : Nat
  dead  : Bool
deriving DecidableEq, Repr

/-- A line of the L2 (R292, R297): dirty where memory does not hold what it holds; cls is the replacement class it came with. -/
structure L2Line where
  line  : Nat
  way   : Nat
  age   : Nat
  ver   : W32
  dirty : Bool
  cls   : Nat
deriving DecidableEq, Repr

/-- A cache-die slice: its trigger queue and spill ring (R316, R317), its L2 lines and version floor, and the address of the
last uncorrectable error met in what it holds (R371). -/
structure Slice where
  ondie : List TRec
  ring  : List TRec
  l2    : List L2Line
  floor : W32
  ecc   : Nat := 0
deriving DecidableEq, Repr

/-- The party that makes an access or issued an operation, and what it may reach (R167, R168). -/
structure Who where
  core : Nat
  ctx  : Nat
  blk  : Nat
  uid  : Nat
  pack : Nat
  pl   : Nat
deriving DecidableEq, Repr

/-- Progress of an engine operation. A gather holds the slices of each mask word, and the lanes whose row
is still to come with their row addresses. A KVAPP is in phase 0 before its claim, in 1 until its writes are made, in 2 until it
has cleared APP, in 3 until its report (R238). -/
inductive OpK where
  | copy (src dst : View) (start done0 : Nat)
  | copym (src : View) (dspace : Space) (dbase : Nat) (rstride : Int) (nown ncommon nrcv : Nat)
  | chain (chan rec k total : Nat)
  | kvapp (entry krow vrow : Nat) (sp : MSpace) (phase : Nat)
  | gath (dests : List (Nat × List Dest)) (rows : List (Nat × Nat)) (size : Nat) (stream : Bool) (pred : Option Nat)
  | scat (grp : Nat)
  | copyh (src dst len : Nat) (signal : Option Nat) (queue : Nat) (ticket : Nat)
deriving DecidableEq, Repr

/-- A write that a unit makes: its places, as (key, class, length) of pieces within 64 aligned bytes, and its bytes. -/
structure Put where
  places : List (Nat × Nat × Nat)
  bytes  : List Byte
deriving DecidableEq, Repr

/-- How an operation has ended (R256, R257): the unit that says so, and its status. -/
structure OpEnd where
  unit   : Nat
  resume : Nat
  count  : Nat
  code   : Nat
  fa     : Nat
  done   : Nat
deriving DecidableEq, Repr

/-- An engine operation in flight (R258 to R261). todo holds the writes still to make, each group once those before it are
performed; ended is how it has ended, where only the performing of its writes and its report are still to come (R259). -/
structure Op where
  id     : Nat
  kind   : OpK
  who    : Who
  depth  : Nat
  fork   : Nat
  ring   : W64
  slot   : Nat
  reads  : Option (Option Foot)
  writes : Option (Option Foot)
  ents   : List Nat
  stop   : Bool
  todo   : List (List Put) := []
  ended  : Option OpEnd := none
deriving DecidableEq, Repr

/-- A Strike command taken from the queue with its slot reserved (R247): its address, the 64 bytes read once, and its own number.
phase says what comes next: 0 the claim, 1 the work, 2 the flip of GEN, 3 the wait for RC(gen), 4 the give tickets, 5 the
give, 6 the clearing of BUSY, 7 the report. todo holds writes to be performed before that; gives the pages to give, ticket
the first of their tickets; kept is the number of tokens kept. -/
structure StrikeRun where
  id     : Nat
  cmd    : Nat
  buf    : List Byte
  uid    : Nat
  core   : Nat
  ctx    : Nat
  depth  : Nat
  ring   : W64
  slot   : Nat
  phase  : Nat
  todo   : List (List Put)
  gen    : Nat
  len    : Nat
  kept   : Nat
  bytes  : Nat
  gives  : List Nat
  ticket : Nat
  code   : Nat
  fa     : Nat
deriving DecidableEq, Repr

/-- A command waiting at a Strike engine: address, context, depth, fork, issuer (R246). -/
structure StrikeCmd where
  cmd   : Nat
  ctx   : Nat
  depth : Nat
  fork  : Nat
  uid   : Nat
  core  : Nat
deriving DecidableEq, Repr

/-- A page walk in flight (R290): stack, core, context, address. pre is none for the walk of an access, whose translation the
access has taken already (log 47), and for a prefetch says whether the line goes to the L2 only (R191). -/
structure Walk where
  stack : Nat
  core  : Nat
  ctx   : Nat
  va    : Nat
  pre   : Option Bool
deriving DecidableEq, Repr

/-- A stack: its engines and its shared instruction cache (R33). -/
structure Stack where
  icache  : List IcLine
  strikeQ : List StrikeCmd
  strike  : Option StrikeRun
  chan    : Tbl W64
  served  : Tbl Nat
deriving DecidableEq, Repr

/-- A set watch (R305, R306): extents are (first granule, count, physical base). -/
structure Watch where
  base  : Nat
  len   : Nat
  quota : Nat
  pool  : Nat
  park  : Bool
  dlim  : Nat
  glog  : Nat
  pend  : Nat
  ext   : List (Nat × Nat × Nat)
  bits  : List (Nat × Nat × Nat)
deriving DecidableEq, Repr

/-- A record collected by a pool (R344): deep where it exceeds its watch's depth limit (R322); the watch
and granule it came from, whose pending bit is cleared when it is placed (R313). -/
structure PRec where
  wid   : W64
  arg   : W64
  depth : Nat
  deep  : Bool
  watch : Option (Nat × Nat)
  stack : Nat
  tick  : Nat
deriving DecidableEq, Repr

/-- A gang waiting for a core (R346): a formed team's records, or blocks of a grid launch; dom is the Embers
domain its teams are counted in (R353). -/
structure Gang where
  dom    : Option Nat
  id     : Nat
  hdr    : Launch
  recs   : List PRec
  isRec  : Bool
  next   : Nat
  left   : Nat
  launch : Option Nat
  tick   : Nat
  offer  : Bool
deriving DecidableEq, Repr

/-- A launch pool (R343 to R347). -/
structure Pool where
  hdr    : Launch
  param  : W64
  timer  : Nat
  recs   : List PRec
  gangs  : List Gang
  raised : Nat
  since  : Nat
deriving DecidableEq, Repr

/-- A launch in progress (R356): blocks not ended, signal address, the parties that have ended. -/
structure LaunchRun where
  ctx    : Nat
  part   : Nat
  left   : Nat
  signal : Option Nat
  uids   : List Nat
deriving DecidableEq, Repr

/-- A counted team that has retired and whose accesses may still be in flight (R353). -/
structure Ending where
  uid   : Nat
  ctx   : Nat
  stack : Nat
  dom   : Nat
deriving DecidableEq, Repr

/-- A saved block (R377, R380): its place in the save area and its content. -/
structure Saved where
  off    : Nat
  len    : Nat
  addr   : Nat
  block  : Block
  teams  : List Team
  slices : Tbl (BitVec 1024)
  ridge  : Option Ridge
  cells  : List Host.Cell
  forced : Bool
  flits  : List Flit
  tick   : Nat
deriving DecidableEq, Repr

/-- An Embers domain on one stack: its part, and whether it has changed since the last pass (R354). -/
structure Ember where
  part    : Int
  changed : Bool
deriving DecidableEq, Repr

/-- An item of a Rucksack list, with the depth and the stack of the team that appended it (R344, R346). -/
structure RItem where
  item  : W64
  depth : Nat
  stack : Nat
deriving DecidableEq, Repr

/-- An element of a Trailhead queue (R350): key, value, and its place in the queue's area where it has spilled. -/
structure TrailEl where
  key   : W64
  val   : W64
  place : Option Nat
deriving DecidableEq, Repr

/-- A context. ruckTail counts the items ever appended to a list, which its next place in the Rucksack area follows (R352). -/
structure Ctx where
  part      : Nat
  created   : Bool
  bcLo      : Nat
  bcHi      : Nat
  tdescBase : Nat
  ptroot    : Nat
  illh      : Bool
  trpVec    : Nat
  trpMvec   : Nat
  savBase   : Nat
  savSize   : W64
  schSlice  : W32
  dbgHalt   : Bool
  dbgQuiesce : Bool
  dbgBkfreeze : Bool
  dbgFrozen : Bool
  trhBase   : Nat
  ruckBase  : Nat
  qword     : Tbl W64
  watches   : Tbl Watch
  pools     : Tbl Pool
  trail     : Tbl (List TrailEl)
  ruck      : Tbl (List RItem)
  ruckTail  : Tbl Nat
  embers    : Tbl Ember
  emPass    : Tbl Nat
  saved     : List Saved
  tlbReg    : W64
  tlbBusy   : Option (List Nat)
  sliceTick : Nat
  dbgTick   : Nat
deriving DecidableEq, Repr

/-- A started packet whose completion is tracked (R338): the blocks a PREEMPT still waits for, and the parties
they had; or a COPYH. -/
inductive Ticket where
  | preempt (ctx : Nat) (blocks uids : List Nat) (signal : Option Nat)
  | copyh
deriving DecidableEq, Repr

/-- A host queue (R333). -/
structure Queue where
  base   : Nat
  ctx    : Nat
  ver    : Nat
  logn   : Nat
  err    : Nat
  parked : Bool
  en     : Bool
  rd     : W32
  wr     : W32
  open_  : List Nat
  waited : Bool
deriving DecidableEq, Repr

/-- A unit's own fault (R371): unit, cause, slot, resume address, fault address, FIRST. -/
structure UFault where
  unit   : Nat
  cause  : Cause
  slot   : Nat
  resume : Nat
  faddr  : W64
  first  : Bool
deriving DecidableEq, Repr

/-- A halt in progress (R369, R370): faults of units, whether the units have stopped, units whose
record is written, the tick and cycle of the rising line. -/
structure Halting where
  faults  : List UFault
  stopped : Bool
  written : List Nat
  tick    : W64
  cycle   : Nat
deriving DecidableEq, Repr

/-- A partition (R332, R349, R372). -/
structure Part where
  first   : Nat
  count   : Nat
  age     : W32
  gangAge : W32
  switch_ : W32
  recBase : Nat
  halts   : W32
  cause   : BitVec 7
  done    : Bool
  halting : Option Halting
  queues  : Tbl Queue
  lanes   : Tbl Nat
  lastQ   : Nat
  todo    : List Nat
  tickets : Tbl Ticket
  holder  : Option Nat
deriving DecidableEq, Repr

/-- An Ngazon port (R391), with the replays that one flit has now failed in a row (R388). -/
structure Port where
  replay : W32
  ver    : BitVec 8
  state  : BitVec 2
  en     : Bool
  fails  : Nat := 0
deriving DecidableEq, Repr

/-- A class register (R292). -/
structure ClassReg where
  comp : Bool
  age  : BitVec 2
  wpol : BitVec 2
  ways : BitVec 16
deriving DecidableEq, Repr

/-- The ordering numbers of the part (R1, R4). -/
inductive PartNo where
  | p9480 | p9480P | p9440
deriving DecidableEq, Repr

/-- Which agent moves next (log 1): a party issues, an event of the device
happens, or a cycle passes. -/
inductive Turn where
  | issue (p : Party)
  | event (e : Instr)
  | clock
deriving DecidableEq, Repr

/-- An attestation report (R396). -/
structure Report where
  nonce : List Byte
  image : List Byte
  feat  : W64
  sav   : W64
  sig   : List Byte
deriving DecidableEq, Repr

/-- The package. -/
structure State where
  part     : PartNo
  pkg      : Nat
  cycle    : Nat
  tick     : W64
  bcSize   : Nat
  memT2    : Nat
  memHbm   : Nat
  peers    : Tbl (Nat × Nat)
  classes  : Tbl ClassReg
  spillBase : Nat
  fwStatus : BitVec 7
  fwGo     : Bool
  firmware : List Byte
  fwOldest : Nat
  rootKey  : List Byte
  pcap     : W64
  reports  : List Report
  ports    : Tbl Port
  timeOff  : W32
  timeSync : Bool
  slew     : Int
  slewGap  : Nat
  master   : Bool
  hostUp   : Bool
  hostCxl  : Bool
  hostRate : Nat
  hostWidth : Nat
  cxlPorts : Tbl Nat
  cxlLost  : Tbl Bool
  booted   : Bool
  sent     : Tbl Nat
  window   : Tbl (List Nat)
  thermal  : Tbl Nat
  mem      : List Host.Cell
  eccLines : Tbl Bool
  eccOnes  : Tbl Bool
  comp     : Tbl Nat
  accs     : List Access
  owners   : Tbl Nat
  ors      : List PendOr
  ops      : List Op
  walks    : List Walk
  cores    : Tbl Core
  teams    : Tbl Team
  ridges   : Tbl Ridge
  blocks   : Tbl Block
  stks     : Tbl Stack
  slices   : Tbl Slice
  ctxs     : Tbl Ctx
  parts    : Tbl Part
  launches : Tbl LaunchRun
  ending   : List Ending
  net      : List Flit
  ctr      : Tbl Nat
  hostData : List Byte
  agenda   : List Turn
  cur      : Party
  seq      : Nat
  free     : Nat
deriving DecidableEq, Repr

/-- Reasons a run stops. The manual stops no run of the package: an unrecoverable fault halts a
partition and is a next state. -/
inductive Fault where
  /-- Raised by every instruction meaning that is asked to run for a party that is not resident in the
  slot or core State.cur names. No step does so. Safe: the machine has no such situation. -/
  | noSuchParty
deriving DecidableEq, Repr

/-- Refusals. -/
inductive Refusal where
  /-- An instruction the model gives no meaning yet, by its mnemonic. Raised by an arm of exec. Safe. -/
  | notModelled (mnemonic : String)
deriving DecidableEq, Repr

/-! Defaults of the sparse tables: what an unlisted register, core or context holds at reset. -/

def Desc.zero : Desc := ⟨.glob, 0, 0, 0, [], []⟩
def View.zero : View := ⟨0, Desc.zero, none⟩
def QBind.zero : QBind := ⟨0, 0⟩
def Bar.zero : Bar := ⟨0, 0, 0, false, 0, 0, false⟩
def Tile.zero : Tile := ⟨[], [], .cb4, false, false⟩
def Acc.zero : Acc := ⟨[], false, false⟩
def Phys.zero : Phys := ⟨0, 0, false⟩
def Core.zero : Core := ⟨[], [], [], [], [], [], [], [], 0, none, [], 15, 0, none, [], 0⟩
def Stack.zero : Stack := ⟨[], [], none, [], []⟩
def Slice.zero : Slice := ⟨[], [], [], 0, 0⟩
def Ember.zero : Ember := ⟨0, false⟩
def Queue.zero : Queue := ⟨0, 0, 0, 0, 0, false, false, 0, 0, [], false⟩
def Port.zero : Port := ⟨0, 0, 0, true, 0⟩
def ClassReg.zero : ClassReg := ⟨false, 1, 0, 0xFFFF⟩
def Launch.zero : Launch :=
  ⟨0, 0, 0, 0, 0, 0, [], 0, 0, 0, 0, 0, 0, 0, false, false, 0, 0, 0, 0, []⟩

def Ctx.zero : Ctx :=
  { part := 0, created := false, bcLo := 0, bcHi := 0, tdescBase := 0, ptroot := 0, illh := false,
    trpVec := 0, trpMvec := 0, savBase := 0, savSize := 0, schSlice := 2000, dbgHalt := false,
    dbgQuiesce := false, dbgBkfreeze := false, dbgFrozen := false, trhBase := 0, ruckBase := 0,
    qword := [], watches := [], pools := [], trail := [], ruck := [], ruckTail := [], embers := [], emPass := [],
    saved := [], tlbReg := 0, tlbBusy := none, sliceTick := 0, dbgTick := 0 }

def Part.zero : Part :=
  { first := 0, count := 0, age := 100, gangAge := 1000, switch_ := 0, recBase := 0, halts := 0,
    cause := 0, done := false, halting := none, queues := [], lanes := [], lastQ := 127, todo := [],
    tickets := [], holder := none }

/-- The package after reset (INVENTORY.md gives each field's rule; the values the manual does not
state are log 3's). -/
def State.reset : State :=
  { part := .p9480, pkg := 0, cycle := 0, tick := 0, bcSize := 2, memT2 := 0, memHbm := 11718750,
    peers := [], classes := [], spillBase := 0, fwStatus := 0, fwGo := false,
    firmware := [], fwOldest := 1, rootKey := List.replicate 32 0, pcap := 2800, reports := [], ports := [], timeOff := 0, timeSync := false, slew := 0, slewGap := 0,
    master := false, hostUp := false, hostCxl := false, hostRate := 0, hostWidth := 0,
    cxlPorts := [], cxlLost := [], booted := false, sent := [], window := [], thermal := [],
    mem := [], eccLines := [], eccOnes := [], comp := [], accs := [], owners := [], ors := [], ops := [], walks := [],
    cores := [], teams := [], ridges := [], blocks := [], stks := [], slices := [], ctxs := [],
    parts := [(0, { Part.zero with count := 4 })], launches := [], ending := [], net := [],
    ctr := [], hostData := [], agenda := [], cur := .team 0 0, seq := 1, free := 0 }

end Sys2Proof.Machine
end

