-- ==== Sys2Proof/Machine/Ops.lean ====
section
/-! DEFINITION. The named operations over the state: parts and counters, cores, teams and streams,
memory bytes, translation, registers and slices, the reconvergence stack, taking a trap and returning
from one, and the unrecoverable fault. Every meaning is written over these. -/

namespace Sys2Proof.Machine

/-! The part (R1 to R6). -/

/-- Stacks of the part (R6). -/
def State.stacksN (s : State) : Nat := match s.part with | .p9440 => 2 | _ => 4
/-- Cores of the part (R6). -/
def State.coresN (s : State) : Nat := 144 * s.stacksN
/-- Whether the hash-gather engine is present (R3). -/
def State.hasGather (s : State) : Bool := match s.part with | .p9440 => false | _ => true

/-- DEV_FEAT (R4). -/
def State.devFeat (s : State) : W64 :=
  match s.part with
  | .p9480  => 0x80488E00
  | .p9480P => 0x81488C00
  | .p9440  => 0x40240200

/-! Counters. -/

/-- The event counters of the device (R34, R52, R102, R185, R229, R251, R267, R273, R294, R331, R349,
R381, R394). -/
inductive Ctr where
  | schSlip | schDictwait | schStkspill | vtbLook | vtbHit | vtbKill | vtbPerr | schSlicewait
  | cmpWait | cmpFull | planecyc | mmacnt | barwait | tlbmiss | reissue
  | stkEvict | stkNofree | stkDrain | cpyBytes | cpyRingfull | hgeFetch | hgeReplay
  | walks | walkjoin | merge | compsave
  | fire | coal | silent | spill | hold | cascade | gangres | savFull | savErr | sliceClamp | cecnt
deriving DecidableEq, Repr

/-- The number under which a counter is kept. -/
def Ctr.no : Ctr → Nat
  | .schSlip => 0 | .schDictwait => 1 | .schStkspill => 2 | .vtbLook => 3 | .vtbHit => 4
  | .vtbKill => 5 | .vtbPerr => 6 | .schSlicewait => 7 | .cmpWait => 8 | .cmpFull => 9
  | .planecyc => 10 | .mmacnt => 11 | .barwait => 12 | .tlbmiss => 13 | .reissue => 14
  | .stkEvict => 15 | .stkNofree => 16 | .stkDrain => 17 | .cpyBytes => 18 | .cpyRingfull => 19
  | .hgeFetch => 20 | .hgeReplay => 21 | .walks => 22 | .walkjoin => 23 | .merge => 24
  | .compsave => 25 | .fire => 26 | .coal => 27 | .silent => 28 | .spill => 29 | .hold => 30
  | .cascade => 31 | .gangres => 32 | .savFull => 33 | .savErr => 34 | .sliceClamp => 35 | .cecnt => 36

/-- Width of a counter: SCH_DICTWAIT and VTB_PERR have 32 bits (R34, R102). -/
def Ctr.width : Ctr → Nat
  | .schDictwait | .vtbPerr => 32
  | _ => 64

/-- Instance n of a counter (of a core, a stack, a context, a partition). -/
def Ctr.key (c : Ctr) (n : Nat) : Nat := c.no * 65536 + n

def State.count (s : State) (c : Ctr) (n : Nat) : Nat := s.ctr.get 0 (c.key n)

/-- Sets a counter, which wraps at its width. -/
def State.setCount (s : State) (c : Ctr) (n v : Nat) : State :=
  { s with ctr := s.ctr.set 0 (c.key n) (v % 2 ^ c.width) }

/-- Adds to a counter. -/
def State.bump (s : State) (c : Ctr) (n k : Nat) : State := s.setCount c n (s.count c n + k)

/-! Parts of the state. -/

def State.core (s : State) (c : Nat) : Core := s.cores.get Core.zero c
def State.setCore (s : State) (c : Nat) (x : Core) : State := { s with cores := s.cores.put c x }
def State.modCore (s : State) (c : Nat) (f : Core → Core) : State := s.setCore c (f (s.core c))

/-- Key of a team slot. -/
def tkey (c slot : Nat) : Nat := 16 * c + slot

def State.team? (s : State) (c slot : Nat) : Option Team := s.teams.find (tkey c slot)
def State.setTeam (s : State) (c slot : Nat) (t : Team) : State :=
  { s with teams := s.teams.put (tkey c slot) t }
def State.modTeam (s : State) (c slot : Nat) (f : Team → Team) : State :=
  match s.team? c slot with
  | some t => s.setTeam c slot (f t)
  | none => s

def State.ridge? (s : State) (c : Nat) : Option Ridge := s.ridges.find c
def State.setRidge (s : State) (c : Nat) (r : Ridge) : State := { s with ridges := s.ridges.put c r }
def State.modRidge (s : State) (c : Nat) (f : Ridge → Ridge) : State :=
  match s.ridge? c with
  | some r => s.setRidge c (f r)
  | none => s

def State.block? (s : State) (b : Nat) : Option Block := s.blocks.find b
def State.setBlock (s : State) (b : Nat) (x : Block) : State := { s with blocks := s.blocks.put b x }
def State.modBlock (s : State) (b : Nat) (f : Block → Block) : State :=
  match s.block? b with
  | some x => s.setBlock b (f x)
  | none => s

def State.ctx (s : State) (c : Nat) : Ctx := s.ctxs.get Ctx.zero c
def State.setCtx (s : State) (c : Nat) (x : Ctx) : State := { s with ctxs := s.ctxs.put c x }
def State.modCtx (s : State) (c : Nat) (f : Ctx → Ctx) : State := s.setCtx c (f (s.ctx c))

def State.stk (s : State) (k : Nat) : Stack := s.stks.get Stack.zero k
def State.setStk (s : State) (k : Nat) (x : Stack) : State := { s with stks := s.stks.put k x }
def State.modStk (s : State) (k : Nat) (f : Stack → Stack) : State := s.setStk k (f (s.stk k))

def State.slice (s : State) (k : Nat) : Slice := s.slices.get Slice.zero k
def State.setSlice (s : State) (k : Nat) (x : Slice) : State := { s with slices := s.slices.put k x }
def State.modSlice (s : State) (k : Nat) (f : Slice → Slice) : State := s.setSlice k (f (s.slice k))

def State.partn (s : State) (p : Nat) : Part := s.parts.get Part.zero p
def State.setPart (s : State) (p : Nat) (x : Part) : State := { s with parts := s.parts.put p x }
def State.modPart (s : State) (p : Nat) (f : Part → Part) : State := s.setPart p (f (s.partn p))

/-- The stack of a core (R166). -/
def stackOf (core : Nat) : Nat := core / 144

/-- The partition of a stack (R332). -/
def State.partOf (s : State) (stack : Nat) : Nat :=
  match s.parts.find? fun p => p.2.first ≤ stack && stack < p.2.first + p.2.count with
  | some p => p.1
  | none => 0

/-- The slot and team of a uid. -/
def State.teamOf (s : State) (uid : Nat) : Option (Nat × Team) :=
  s.teams.find? fun t => t.2.uid == uid

/-- The core and stream of a uid. -/
def State.ridgeOf (s : State) (uid : Nat) : Option (Nat × Ridge) :=
  s.ridges.find? fun r => r.2.uid == uid

/-- Takes the next number. -/
def State.tickSeq (s : State) : State := { s with seq := s.seq + 1 }
/-- Takes the next free value. -/
def State.tickFree (s : State) : State := { s with free := s.free + 1 }

/-! Memory bytes. Every space has its own range of keys (R165). -/

/-- What an address nothing has written reads as: zero (log 2). -/
def memDefault : Byte := 0

/-- The canonical form of memory. -/
abbrev Memory.wf (m : List Host.Cell) : Bool := Tbl.wf memDefault m

def State.memGet (s : State) (k : Nat) : Byte := Tbl.get memDefault s.mem k

/-- Writes bytes at consecutive keys. -/
def memPut (m : List Host.Cell) (k : Nat) : List Byte → List Host.Cell
  | [] => m
  | b :: bs => memPut (Tbl.set memDefault m k b) (k + 1) bs

def State.memWrite (s : State) (k : Nat) (bs : List Byte) : State := { s with mem := memPut s.mem k bs }

/-- n bytes at key k. -/
def State.memRead (s : State) (k n : Nat) : List Byte := (List.range n).map fun i => s.memGet (k + i)

/-- Keys of base camp: slice and per-slice offset (R172). -/
def bcampKey (slice off : Nat) : Nat := 2 ^ 57 + slice * 2 ^ 22 + off
/-- Keys of a block's pack (R168). -/
def packKey (blk off : Nat) : Nat := (2 * blk + 2) * 2 ^ 90 + off
/-- Keys of the lent pack of a core (R170). -/
def campKey (core off : Nat) : Nat := 2 ^ 57 + 2 ^ 56 + core * 2 ^ 20 + off
/-- Keys of a lane's pocket (R167); a lane's area has at most 2^16 bytes. Odd multiples of 2^90 keep
them apart from packs. -/
def pocketKey (uid lane off : Nat) : Nat := (2 * uid + 1) * 2 ^ 90 + lane * 2 ^ 17 + off

/-! Physical addresses and homes (R283, R284). -/

def pkgOf (pa : Nat) : Nat := fld pa 47 9

/-- Whether a physical address can be reached (R283). -/
def State.reach (s : State) (pa : Nat) : Bool :=
  let sizes := if pkgOf pa = s.pkg then some (s.memHbm, s.memT2) else s.peers.find (pkgOf pa)
  match sizes with
  | none => false
  | some (hbm, t2) =>
    pa < 2 ^ 56 && pkgOf pa ≤ 287 &&
    (match fld pa 45 2 with
     | 0 => fld pa 0 45 < hbm * 65536
     | 1 => fld pa 0 45 < t2 * 2 ^ 30
     | _ => false)

/-- The stack and slice that home a byte (R284). -/
def State.homeOf (s : State) (pa : Nat) : Nat × Nat :=
  let lg := clog2 s.stacksN
  let g := fld pa 8 37
  (fold lg 64 g, g / 2 ^ lg % 144)

/-- Where the bytes of a home are kept (R284): a pseudo-channel of the 256 of a stack's two HBM4E stacks, or a CXL memory
port. -/
inductive MemAt where
  | channel (stack n : Nat)
  | port (n : Nat)
deriving DecidableEq, Repr

/-- The memory that keeps a byte (R284). -/
def State.memoryOf (s : State) (pa : Nat) : MemAt :=
  let st := (s.homeOf pa).1
  let rest := fld pa 8 37 / 2 ^ clog2 s.stacksN
  if fld pa 45 2 = 0 then .channel st (fold 8 64 rest) else .port (2 * st + fold 1 64 rest)

/-- The number of the home slice, 0 to 575. -/
def State.sliceNo (s : State) (pa : Nat) : Nat := 144 * (s.homeOf pa).1 + (s.homeOf pa).2

/-- Whether this package holds a byte. -/
def State.local_ (s : State) (pa : Nat) : Bool := pkgOf pa == s.pkg

/-- Ngazon ports that are up (R391). -/
def State.portsUp (s : State) : List Nat := (List.range 18).filter fun k => (s.ports.get Port.zero k).state == 2

/-- Bytes read at a home: those of another package are outside the model and free (log 12). -/
def State.homeRead (s : State) (k n : Nat) : List Byte :=
  if k < 2 ^ 56 && !s.local_ k then (List.range n).map fun i => Config.freeByte s.free (k + i)
  else s.memRead k n

/-! Translation (R287 to R289). -/

/-- The result of a walk. -/
inductive Tr where
  | unmapped
  | noperm
  | ok (e : TlbE)
deriving DecidableEq, Repr

/-- Index of a level (R287). -/
def pteIndex (va lvl : Nat) : Nat :=
  match lvl with
  | 0 => fld va 48 9 | 1 => fld va 39 9 | 2 => fld va 30 9 | 3 => fld va 21 9 | _ => fld va 16 5

/-- Logarithm of the page size of a level (R287). -/
def pageLog (lvl : Nat) : Nat := match lvl with | 2 => 30 | 3 => 21 | _ => 16

/-- An entry with V = 1 that is malformed (R288). -/
def State.pteBad (s : State) (e lvl : Nat) : Bool :=
  let leaf := fld e 56 1 == 1
  let addr := fld e 8 48 * 256
  fld e 0 8 != 0 || (leaf && lvl < 2) || (!leaf && lvl == 4) ||
  (!leaf && fld e 57 6 != 0) ||
  (if leaf then addr % 2 ^ pageLog lvl != 0 else lvl < 3 && addr % 4096 != 0) ||
  !s.reach addr

/-- Whether a byte lies behind a memory port of this package that is lost (R284, R386). -/
def State.portLost (s : State) (pa : Nat) : Bool :=
  s.local_ pa && match s.memoryOf pa with | .port n => s.cxlLost.get false n | .channel _ _ => false

/-- Whether data at a key carry an uncorrectable error (R293, R386, R394): its line, a line of its
compressed block, or a lost memory port. -/
def State.eccBad (s : State) (key : Nat) : Bool :=
  s.eccLines.get false (key / 128) ||
  (key < 2 ^ 56 &&
    ((s.comp.get 0 (key / 512) != 0 && (List.range 4).any fun i => s.eccLines.get false (key / 512 * 4 + i)) ||
     s.portLost key))

/-- Data at a key are read by anyone: a single-bit error of their line is corrected in place and counted in DEV_CECNT
(R394). -/
def State.corrected (s : State) (key : Nat) : State :=
  if s.eccOnes.get false (key / 128) then { s with eccOnes := s.eccOnes.del (key / 128) }.bump .cecnt 0 1 else s

/-- The walk of R289 from a table at a level; fuel counts the levels left. An entry with an uncorrectable error gives no translation;
that it is an ECC error is walkBad's to say (R394). -/
def State.walkFrom (s : State) (ctx va : Nat) : Nat → Nat → Nat → Tr
  | 0, _, _ => .noperm
  | fuel + 1, lvl, t =>
    let e := ofLe (s.homeRead (t + 8 * pteIndex va lvl) 8)
    if s.eccBad (t + 8 * pteIndex va lvl) then .noperm
    else if fld e 63 1 = 0 then .unmapped
    else if s.pteBad e lvl then .noperm
    else if fld e 56 1 = 1 then
      .ok ⟨ctx, va / 2 ^ pageLog lvl * 2 ^ pageLog lvl, pageLog lvl, fld e 8 48 * 256,
        fld e 59 1 == 1, fld e 58 1 == 1, fld e 57 1 == 1, fld e 60 3⟩
    else s.walkFrom ctx va fuel (lvl + 1) (fld e 8 48 * 256)

/-- The physical address of a translated one. -/
def TlbE.phys (e : TlbE) (va : Nat) : Nat := e.pa + va % 2 ^ e.lg

/-- An address that translates to one that cannot be reached has no permission (R283, R289). -/
def State.reached (s : State) (va : Nat) : Tr → Tr
  | .ok e => if s.reach (e.phys va) then .ok e else .noperm
  | r => r

/-- The walk of R289. -/
def State.walk (s : State) (ctx va : Nat) : Tr :=
  if 2 ^ 57 ≤ va then .noperm
  else
    let t := (s.ctx ctx).ptroot * 4096
    if s.reach t then s.reached va (s.walkFrom ctx va 5 0 t) else .noperm

/-- The places of the entries that a walk from a table reads, in order (R289). -/
def State.walkPath (s : State) (va : Nat) : Nat → Nat → Nat → List Nat
  | 0, _, _ => []
  | fuel + 1, lvl, t =>
    let k := t + 8 * pteIndex va lvl
    let e := ofLe (s.homeRead k 8)
    k :: (if s.eccBad k || fld e 63 1 = 0 || s.pteBad e lvl || fld e 56 1 = 1 then []
          else s.walkPath va fuel (lvl + 1) (fld e 8 48 * 256))

/-- The places of the entries that the walk of an address reads. -/
def State.walkReads (s : State) (ctx va : Nat) : List Nat :=
  let t := (s.ctx ctx).ptroot * 4096
  if va < 2 ^ 57 && s.reach t then s.walkPath va 5 0 t else []

/-- Whether a walk meets an uncorrectable error (R394). -/
def State.walkBad (s : State) (ctx va : Nat) : Bool := (s.walkReads ctx va).any s.eccBad

/-- Whether a TLB entry covers an address. -/
def TlbE.hits (e : TlbE) (ctx va : Nat) : Bool := e.ctx == ctx && va / 2 ^ e.lg * 2 ^ e.lg == e.va

/-- The translation a core uses: its TLB's, or the walk's (R290). -/
def State.translate (s : State) (core ctx va : Nat) : Tr :=
  match (s.core core).tlb.find? fun e => e.hits ctx va with
  | some e => s.reached va (.ok e)
  | none => s.walk ctx va

/-- What stays of a store of some room as one more enters: where it is full, an entry leaves that the manual does not name (log 11). -/
def leave {α : Type} (cache room line n : Nat) (l : List α) : List α :=
  if l.length < room then l else l.eraseIdx (Config.victim cache line n % l.length)

/-- Whether a walk of a stack in flight serves a page of a context (R290). -/
def State.walking (s : State) (stack ctx va : Nat) : Bool :=
  s.walks.any fun w => w.stack == stack && w.ctx == ctx && w.va / 65536 == va / 65536

/-- Walkers of a stack that are busy: misses of one page share one (R290). -/
def State.walkersBusy (s : State) (stack : Nat) : Nat :=
  ((s.walks.filter fun k => k.stack == stack).map fun k => (k.ctx, k.va / 65536)).dedup.length

/-- Whether a core's access must wait for one of the 64 walkers of its stack (R290). -/
def State.walkWaits (s : State) (core ctx va : Nat) : Bool :=
  !((s.core core).tlb.any fun e => e.hits ctx va) && !s.walking (stackOf core) ctx va && decide (64 ≤ s.walkersBusy (stackOf core))

/-! Scalars and predicates (R81, R83). -/

/-- The lanes m of a register are overwritten: earlier results in flight to them are no longer its content. -/
def coverOf (d : Dest) (m : Mask) (shs : List Shadow) : List Shadow :=
  shs.map fun sh => if sh.dest = d then { sh with mask := sh.mask &&& ~~~m } else sh

/-- s0 reads 0 (R83). -/
def Team.rs (t : Team) (r : SReg) : W64 := if r.val = 0 then 0 else t.sreg.get 0 r.val
/-- A write to s0 is ignored (R83). -/
def Team.ws (t : Team) (r : SReg) (v : W64) : Team :=
  if r.val = 0 then t
  else { t with sreg := t.sreg.set 0 r.val v, shadows := coverOf (.scalar r.val) (BitVec.allOnes 1024) t.shadows }
/-- p0 reads true in every lane (R83). -/
def Team.rp (t : Team) (r : PReg) : Mask := if r.val = 0 then BitVec.allOnes 1024 else t.preg.get 0 r.val
/-- Writes the lanes of m of a predicate; a write to p0 is ignored (R76). -/
def Team.wp (t : Team) (r : PReg) (m v : Mask) : Team :=
  if r.val = 0 then t
  else { t with preg := t.preg.set 0 r.val (blend m (t.preg.get 0 r.val) v),
                shadows := coverOf (.pred r.val) m t.shadows }

def Ridge.rs (t : Ridge) (r : SReg) : W64 := if r.val = 0 then 0 else t.sreg.get 0 r.val
def Ridge.ws (t : Ridge) (r : SReg) (v : W64) : Ridge :=
  if r.val = 0 then t
  else { t with sreg := t.sreg.set 0 r.val v, shadows := coverOf (.scalar r.val) (BitVec.allOnes 1024) t.shadows }
/-- The one-bit predicates of a matrix stream (R62): lane 0. -/
def Ridge.rp (t : Ridge) (r : PReg) : Bool := if r.val = 0 then true else inMask (t.preg.get 0 r.val) 0
def Ridge.wp (t : Ridge) (r : PReg) (v : Bool) : Ridge :=
  if r.val = 0 then t
  else { t with preg := t.preg.set 0 r.val (if v then 1 else 0),
                shadows := coverOf (.pred r.val) (BitVec.allOnes 1024) t.shadows }

/-- The register s(r+k). -/
def sregAt (r : SReg) (k : Nat) : SReg := ⟨(r.val + k) % 64, Nat.mod_lt _ (by decide)⟩
def vregAt (r : VReg) (k : Nat) : VReg := ⟨(r.val + k) % 64, Nat.mod_lt _ (by decide)⟩

/-! Physical slices and the rename map (R84 to R87). -/

/-- Rename-map entry (k, j). -/
def mkey (k j : Nat) : Nat := 32 * k + j
def Team.slice (t : Team) (k j : Nat) : Nat := t.vmap.get 0 (mkey k j)

/-- The content of a slice; slice 0 is zero (R84). -/
def Core.data (c : Core) (n : Nat) : BitVec 1024 := if n = 0 then 0 else (c.phys.get Phys.zero n).data

/-- Whether a slice has an uncorrectable parity error (R394). -/
def Core.badSlice (c : Core) (n : Nat) : Bool := (c.phys.get Phys.zero n).bad

/-- Lane l of vk (R84). -/
def readV (c : Core) (t : Team) (k : VReg) (l : Nat) : W32 :=
  laneOf (c.data (t.slice k.val (l / 32))) (l % 32)

/-- The lowest slice not allotted; slice 0 is never allotted. -/
def freeFrom : Nat → Tbl Phys → Nat
  | k, [] => k
  | k, (n, _) :: t => if n = k then freeFrom (k + 1) t else if n < k then freeFrom k t else k

def Core.freeSlice (c : Core) : Nat := freeFrom 1 c.phys

/-- Points entry (k, j) at a slice. -/
def Team.point (t : Team) (k j n : Nat) : Team := { t with vmap := t.vmap.set 0 (mkey k j) n }

/-- Points entry (k, j) at a slice that overwrites the lanes w of it. -/
def Team.pointOver (t : Team) (k j n : Nat) (w : W32) : Team :=
  { t.point k j n with shadows := coverOf (.entry k j) (w.zeroExtend 1024) t.shadows }

/-- One pass writes vk in word j: a new slice, whose lanes outside w hold the old slice's values (R86), with the old slice's
error where they do. -/
def writePass (ct : Core × Team) (k : VReg) (j : Nat) (w : W32) (new : BitVec 1024) : Core × Team :=
  let n := ct.1.freeSlice
  let old := ct.1.data (ct.2.slice k.val j)
  let bad := w != BitVec.allOnes 32 && ct.1.badSlice (ct.2.slice k.val j)
  ({ ct.1 with phys := ct.1.phys.put n ⟨blend (sliceMask w) old new, ct.2.uid, bad⟩ }, ct.2.pointOver k.val j n w)

/-- Writes f of each lane to vk in the lanes of m, a pass for each of their words (R54, R86). -/
def writeV (ct : Core × Team) (k : VReg) (m : Mask) (f : Nat → W32) : Core × Team :=
  (passes m).foldl (fun ct j =>
    writePass ct k j (maskWord m j) (sliceOf fun l => if inMask m (32 * j + l) then f (32 * j + l) else 0)) ct

/-- The reference count of a slice: the map entries of the core's teams that name it (R85). -/
def State.refs (s : State) (core n : Nat) : Nat :=
  s.teams.foldl (fun acc t =>
    if t.1 / 16 = core then acc + (t.2.vmap.filter fun e => e.2 == n).length else acc) 0

/-- Whether a value-table key reads a slice: its SRC field holds six numbers of 12 bits (R89). -/
def keyReads (key n : Nat) : Bool := (List.range 6).any fun i => fld key (49 + 12 * i) 12 == n

/-- Whether a result in flight is to be written to a slice, or enters the value table under a key that names it. -/
def Shadow.uses (sh : Shadow) (n : Nat) : Bool :=
  sh.slice == n || match sh.key with | some k => k.2 == n || keyReads k.1 n | none => false

/-- Whether a tracked result is in flight to a slice (R30). -/
def State.sliceTracked (s : State) (core n : Nat) : Bool :=
  (s.accs.any fun a => a.core == core && a.dests.contains (.slice n)) ||
  s.ops.any fun o => match o.kind with
    | .gath ds _ _ _ _ => o.who.core == core && ds.any fun d => d.2.contains (.slice n)
    | _ => false

/-- Whether a result is in flight to a slice, or one that enters the value table with it as a source (R86, R93). -/
def State.slicePending (s : State) (core n : Nat) : Bool :=
  s.sliceTracked core n || s.teams.any fun t => t.1 / 16 == core && t.2.shadows.any fun sh => !sh.done && sh.uses n

/-- Slices that a team alone references, whoever allotted them, and those it allotted that no team references and that are
not released yet (R86, R87). -/
def State.held (s : State) (core : Nat) (t : Team) : Nat :=
  ((s.core core).phys.filter fun p =>
    (p.2.owner == t.uid || t.vmap.any fun e => e.2 == p.1) &&
    !(s.teams.any fun o => o.1 / 16 == core && o.2.uid != t.uid && o.2.vmap.any fun e => e.2 == p.1)).length

/-- The reservation of a team (R82). -/
def Team.reservation (t : Team) : Nat := (t.hdr.nv + 4) * t.hdr.words

/-- Releases a slice and drops the value-table entries that name it, as result or as source (R86). -/
def Core.release (c : Core) (n : Nat) : Core :=
  { c with phys := c.phys.del n, vtb := c.vtb.filter fun e => e.slice != n && !keyReads e.key n }

/-- Releases every slice of a core that nothing names and nothing is in flight to (R51, R100). -/
def State.sweep (s : State) (core : Nat) : State :=
  let dead := (s.core core).phys.filter fun p => s.refs core p.1 == 0 && !s.slicePending core p.1
  s.modCore core fun c => dead.foldl (fun c p => c.release p.1) c

/-! Value-table kills (R96). -/

/-- Whether a key is a load entry of a slot (R89). -/
def isLoadKey (key slot : Nat) : Bool := fld key 189 1 == 1 && fld key 185 4 == slot

/-- Kills the load entries of a slot, one kill event (R96). -/
def State.killLoads (s : State) (core slot : Nat) : State :=
  (s.modCore core fun c => { c with vtb := c.vtb.filter fun e => !isLoadKey e.key slot }).bump .vtbKill core 1

/-- Kills the load entries of some slots of a core together, one kill event (R96). -/
def State.killSlots (s : State) (core : Nat) (slots : List Nat) : State :=
  (s.modCore core fun c => { c with vtb := c.vtb.filter fun e => !(slots.any fun k => isLoadKey e.key k) }).bump .vtbKill core 1

/-! Causes (R360). -/

def Cause.code : Cause → Nat
  | .page => 0x01 | .cascade => 0x02 | .stallShort => 0x03 | .align => 0x04 | .swtrap => 0x05
  | .bkpt => 0x06 | .unimpl => 0x07 | .qfault => 0x08 | .illegal => 0x10 | .illegalHeader => 0x11
  | .illegalTarget => 0x12 | .illegalMask => 0x13 | .illegalStack => 0x14 | .illegalDesc => 0x15
  | .prot => 0x20 | .ecc => 0x21 | .watchdog => 0x22 | .halt => 0x23

/-- The ILLEGAL class (R39, R360). -/
def Cause.isIllegal : Cause → Bool
  | .illegal | .illegalHeader | .illegalTarget | .illegalMask | .illegalStack | .illegalDesc => true
  | _ => false

/-! The unrecoverable fault (R368 to R371). -/

/-- Raises the halt line of a partition for a fault of a unit. A fault in a partition already stopped
changes nothing (R372); one between the rise and the stop is the unit's own but not FIRST unless it
falls in the rising cycle. -/
def State.fatal (s : State) (part unit : Nat) (cause : Cause) (slot resume : Nat) (faddr : W64) : State :=
  let p := s.partn part
  match p.halting with
  | none =>
    s.setPart part { p with
      halts := p.halts + 1, cause := BitVec.ofNat 7 cause.code,
      halting := some ⟨[⟨unit, cause, slot, resume, faddr, true⟩], false, [], s.tick, s.cycle⟩ }
  | some h =>
    if h.stopped || h.faults.any (fun f => f.unit == unit) then s
    else
      let first := h.cycle == s.cycle
      let h' := { h with faults := ⟨unit, cause, slot, resume, faddr, first⟩ :: h.faults }
      let lowest := h.faults.all fun f => !f.first || unit < f.unit
      s.setPart part { p with
        halting := some h',
        cause := if first && lowest then BitVec.ofNat 7 cause.code else p.cause }

/-- An unrecoverable fault of a party of a core. -/
def State.fatalAt (s : State) (core slot : Nat) (cause : Cause) (resume : Nat) (faddr : W64) : State :=
  s.fatal (s.partOf (stackOf core)) core cause slot resume faddr

/-- Whether a partition has stopped. -/
def State.stopped (s : State) (part : Nat) : Bool :=
  match (s.partn part).halting with
  | some h => h.stopped
  | none => (s.partn part).done

/-! Taking a trap (R362, R364) and returning from one (R366). -/

/-- Pushes an entry; the 17th resident entry spills the oldest (R57). -/
def State.push (s : State) (core slot : Nat) (t : Team) (e : Entry) : State :=
  let s := s.setTeam core slot { t with stk := e :: t.stk }
  if 16 ≤ t.stk.length then s.bump .schStkspill core 1 else s

/-- PC2 of a TRAP entry (R362). -/
def trapWord (cause : Cause) (faddr : W64) : W64 :=
  BitVec.ofNat 64 (cause.code * 2 ^ 57 + faddr.toNat % 2 ^ 57)

/-- A team takes a trap (R362). -/
def State.takeTrap (s : State) (core slot : Nat) (t : Team) (cause : Cause) (faddr : W64) (resume : Nat) :
    State :=
  let x := s.ctx t.ctx
  if x.trpVec = 0 || (cause.isIllegal && !x.illh) then s.fatalAt core slot cause resume faddr
  else if t.hdr.depth ≤ t.stk.length then s.fatalAt core slot .illegalStack resume 0
  else
    let s := s.push core slot { t with pc := x.trpVec, atHdr := true, wait := none, back := false, slip := none }
      ⟨.trap, resume, trapWord cause faddr, t.act, 0⟩
    s.killLoads core slot

/-- A matrix stream takes a trap (R364). -/
def State.takeTrapM (s : State) (core : Nat) (r : Ridge) (cause : Cause) (faddr : W64) (resume : Nat) :
    State :=
  let x := s.ctx r.ctx
  if x.trpMvec = 0 || r.trap.isSome || (cause.isIllegal && !x.illh) then
    s.fatalAt core 0 cause resume faddr
  else
    let r' := { r with trap := some (resume, r.rs 62, r.rs 63), pc := x.trpMvec, atHdr := true, wait := none, back := false,
                       slip := none }
    s.setRidge core ((r'.ws 62 faddr).ws 63 (BitVec.ofNat 64 cause.code))

/-- The TRAP entry nearest the top (R362). -/
def Team.trapTop (t : Team) : Option Entry := t.stk.find? fun e => e.kind == .trap
/-- sr.cause (R362). -/
def Team.cause (t : Team) : W64 :=
  match t.trapTop with | some e => BitVec.ofNat 64 (fld e.pc2.toNat 57 7) | none => 0
/-- sr.faddr (R362). -/
def Team.faddr (t : Team) : W64 :=
  match t.trapTop with | some e => BitVec.ofNat 64 (fld e.pc2.toNat 0 57) | none => 0

/-! Instruction addresses (R9 to R15, R24 to R26). -/

/-- The header mark (R12). -/
def isHeader (w : Nat) : Bool := fld w 60 4 == 15
def hdrLen (w : Nat) : Nat := fld w 52 8
def hdrForm (w : Nat) : Nat := fld w 50 2
/-- RECONV, a signed word offset (R12). -/
def hdrReconv (w : Nat) : Int := sgn 16 (fld w 34 16)
def hdrPpoint (w : Nat) : Bool := fld w 7 1 == 1

/-- The instruction-cache line of an address in a context (R33): one with a parity error is dropped, and fetched again (R394). -/
def Core.icLine (c : Core) (ctx va : Nat) : Option IcLine :=
  c.icache.find? fun l => l.ctx == ctx && l.line == va / 256 && !l.bad

/-- The code word a cached line holds. -/
def Core.icWord (c : Core) (ctx va : Nat) : Option Nat :=
  (c.icLine ctx va).map fun l => (l.words.getD (va % 256 / 8) 0).toNat

/-- The word at a code address through the fetch translation; none where it cannot be read (R14). -/
def State.peek (s : State) (core ctx va : Nat) : Option Nat :=
  match (s.core core).icWord ctx va with
  | some w => some w
  | none =>
    match s.translate core ctx va with
    | .ok e => if e.x then some (ofLe (s.homeRead (e.phys va) 8)) else none
    | _ => none

/-- The pad code (R24). -/
def padCode : Nat := 0xFFFF

/-- Code in a slot of a dictionary body word (R25). -/
def codeAt (w slot : Nat) : Nat := fld w (48 - 16 * slot) 16

/-- Whether pads alone stand from a slot of a dictionary word to its end. -/
def padsFrom (w slot : Nat) : Bool := (List.range 4).all fun k => k < slot || codeAt w k == padCode

/-- Whether the codes from an address on that is in the last word of a dictionary body are all pads (R25): the trailing slots of that
word, or the whole of it. -/
def State.padsLeft (s : State) (core ctx hdrAddr hdrWord pc : Nat) : Bool :=
  hdrForm hdrWord == 1 && pc / 8 * 8 == hdrAddr + 8 * hdrLen hdrWord &&
  match s.peek core ctx (pc / 8 * 8) with
  | some w => padsFrom w (pc % 8 / 2)
  | none => false

/-- Where execution goes after the instruction at pc, and whether that is a header (R15, R25): slots go in order, and
the pads that fill the trailing slots of the last body word, or all of it, are passed by. -/
def State.after (s : State) (core ctx hdrAddr hdrWord pc : Nat) : Nat × Bool :=
  let endA := hdrAddr + 8 + 8 * hdrLen hdrWord
  let next := if hdrForm hdrWord = 1 && pc % 8 / 2 < 3 then pc + 2 else pc / 8 * 8 + 8
  if endA ≤ next || s.padsLeft core ctx hdrAddr hdrWord next then (endA, true) else (next, false)

/-- Whether the instruction at pc is the last of its body (R15). -/
def State.isLast (s : State) (core ctx hdrAddr hdrWord pc : Nat) : Bool :=
  (s.after core ctx hdrAddr hdrWord pc).2

/-- A transfer that would be the last instruction of its body if the last word held pads alone, where that word cannot be read: its
address, and whether its page is unmapped. The transfer then traps PAGE, or raises PROT, there, as a body does that runs into such
a page (R10; DESIGN CHOICE, log 51: R15 does not say). -/
def State.lastUnread (s : State) (core ctx hdrAddr hdrWord pc : Nat) : Option (Nat × Bool) :=
  let next := pc / 8 * 8 + 8
  if hdrForm hdrWord = 1 && pc % 8 / 2 = 3 && next = hdrAddr + 8 * hdrLen hdrWord then
    (if (s.peek core ctx next).isSome then none
     else some (next, match s.translate core ctx next with | .unmapped => true | _ => false))
  else none

/-- The checks of a transfer's target (R14): whether it traps ILLEGAL_TARGET. -/
def State.badTarget (s : State) (core ctx target : Nat) : Bool :=
  target % 8 != 0 ||
  match s.peek core ctx target with
  | some w => !isHeader w
  | none => false

/-- The nearest header at or below an address, looking at most 255 words down (R366). -/
def State.headerBelow (s : State) (core ctx : Nat) : Nat → Nat → Option (Nat × Nat)
  | 0, _ => none
  | fuel + 1, a =>
    match s.peek core ctx a with
    | some w => if isHeader w then some (a, w) else if a < 8 then none else s.headerBelow core ctx fuel (a - 8)
    | none => none

/-- Where a trap return resumes (R366): at a header, inside a body (with its header), or nowhere; unread is a target whose word
cannot be read, which is judged when it is fetched (R14). -/
inductive Resume where
  | header
  | unread
  | body (addr word : Nat)
  | bad
deriving DecidableEq, Repr

def State.resumeAt (s : State) (core ctx target : Nat) : Resume :=
  if target % 2 ≠ 0 then .bad
  else
    match s.peek core ctx (target / 8 * 8) with
    | none => .unread
    | some w =>
      if isHeader w then (if target % 8 = 0 then .header else .bad)
      else
        match s.headerBelow core ctx 256 (target / 8 * 8) with
        | none => .bad
        | some (a, hw) =>
          if target ≥ a + 8 + 8 * hdrLen hw then .bad
          else if hdrForm hw = 1 then
            (if codeAt w (target % 8 / 2) = padCode then .bad else .body a hw)
          else if target % 8 = 0 then .body a hw else .bad

/-! Freezing for a save (R374 to R376). -/

/-- What a frozen party still waits in: a BSYNC whose arrival has counted (R374), or an instruction of which some passes have
issued, frozen by force (R376). -/
def keptWait : Option Wait → Option Wait
  | some (.barrier i parity n next) => some (.barrier i parity n next)
  | some (.passes i w n next) => if w = 0 then none else some (.passes i w n next)
  | _ => none

/-- An instruction that is saved unissued has sent no flit and has no arrival on its way (R105, R374); its block notes when one
of its parties froze last (R368). -/
def State.unissue (s : State) (blk uid : Nat) : State :=
  { s.modBlock blk fun b => { b with arr := b.arr.filter fun a => !(a.uid == uid && a.sync), froze := s.tick.toNat } with
    net := s.net.filter fun f => f.uid != uid }

/-- A team freezes (R374 to R376). -/
def State.freezeTeam (s : State) (core slot : Nat) (t : Team) (f : Freeze) : State :=
  (s.setTeam core slot { t with frozen := some f, wait := keptWait t.wait, slip := none }).unissue t.blk t.uid
/-- A matrix stream freezes. -/
def State.freezeRidge (s : State) (core : Nat) (r : Ridge) (f : Freeze) : State :=
  (s.setRidge core { r with frozen := some f, wait := keptWait r.wait, slip := none }).unissue r.blk r.uid

/-! Retirement (R51, R53, R100). -/

/-- Releases ownership of a directory entry and frees it when its count is zero (R182). -/
def Core.dropOwner (c : Core) (uid w : Nat) : Core :=
  let dir := c.dir.map fun e => if e.2.owner == some (uid, w) then (e.1, { e.2 with owner := none }) else e
  { c with dir := dir.filter fun e => e.2.owner.isSome || e.2.count != 0 }

/-- Releases every entry that a team's views own (R182, R185). -/
def Core.dropOwners (c : Core) (uid : Nat) : Core :=
  let dir := c.dir.map fun e =>
    if (e.2.owner.map Prod.fst) == some uid then (e.1, { e.2 with owner := none }) else e
  { c with dir := dir.filter fun e => e.2.owner.isSome || e.2.count != 0 }

/-- The parties of a context's kernel on a core that keep a dictionary bank (R27). -/
def State.bankHeld (s : State) (core : Nat) (b : Bank) : Bool :=
  (s.teams.any fun t => t.1 / 16 == core && t.2.ctx == b.ctx && t.2.hdr.bank == b.filled) ||
  s.ridges.any fun r => r.1 == core && r.2.ctx == b.ctx && r.2.hdr.bank == b.filled && !r.2.ended

/-- Releases the banks nobody on the core holds (R27). -/
def State.dropBanks (s : State) (core : Nat) : State :=
  s.modCore core fun c => { c with banks := c.banks.filter fun b => s.bankHeld core b }

/-- Notes that a party of a launch has ended, for the signal's decrement (R356). -/
def State.noteEnd (s : State) (launch : Option Nat) (uid : Nat) : State :=
  match launch with
  | none => s
  | some l =>
    match s.launches.find l with
    | some r => { s with launches := s.launches.put l { r with uids := uid :: r.uids } }
    | none => s

/-- Releases a block whose last team has gone and whose stream has ended (R51), and counts it off its
launch (R356). -/
def State.endBlock (s : State) (b : Nat) : State :=
  match s.block? b with
  | none => s
  | some x =>
    if s.teams.any (fun t => t.2.blk == b) || s.ridges.any (fun r => r.2.blk == b && !r.2.ended) then s
    else
      let s := { s with blocks := s.blocks.del b, ridges := s.ridges.filter fun r => r.2.blk != b }
      let s := s.dropBanks x.core
      match x.launch with
      | none => s
      | some l =>
        match s.launches.find l with
        | some r => { s with launches := s.launches.put l { r with left := r.left - 1 } }
        | none => s

/-- The team in a slot retires: its slot, slices and directory entries are released (R51, R53, R100), and its block keeps its
number, whose accesses a save still awaits (R377); a counted team is counted off once its accesses are done (R353). -/
def State.retire (s : State) (core slot : Nat) (t : Team) : State :=
  let s := { s with teams := s.teams.del (tkey core slot) }.modBlock t.blk fun b => { b with past := t.uid :: b.past }
  let s := (s.modCore core fun c => c.dropOwners t.uid).sweep core
  let s := match t.dom with
    | some d => { s with ending := ⟨t.uid, t.ctx, stackOf core, d⟩ :: s.ending }
    | none => s
  ((s.noteEnd t.launch t.uid).dropBanks core).endBlock t.blk

/-! Reconvergence (R60). -/

/-- What reconvergence does to a team's mask, stack and pc; fuel bounds the entries popped. -/
inductive Reconv where
  | stay (t : Team)
  | retired (t : Team)
  | ret (t : Team) (e : Entry)
deriving DecidableEq, Repr

/-- The procedure of R60. A TRAP entry that pops is handed back, to be popped as TRET pops it. -/
def reconverge : Nat → Team → Reconv
  | 0, t => .stay t
  | fuel + 1, t =>
    match t.stk with
    | [] => if t.act = 0 then .retired t else .stay t
    | e :: rest =>
      if e.kind == .div && e.tmask != 0 then
        .stay { t with act := e.tmask, pc := e.pc2.toNat, atHdr := true, back := false, stk := { e with tmask := 0 } :: rest }
      else if e.kind == .div || (e.kind == .call && t.act == 0) then
        let t := { t with act := e.omask, pc := e.pc1, atHdr := true, back := false, stk := rest }
        let again := match rest with | d :: _ => d.kind == .div && d.pc1 == t.pc | [] => false
        if t.act != 0 && !again
        then .stay t else reconverge fuel t
      else if e.kind == .trap && t.act == 0 then .ret t e
      else .stay t

/-- A team whose pc is where a trap return resumes. -/
def Team.backAt (t : Team) : Resume → Team
  | .body a w => { t with atHdr := false, hdrAddr := a, hdrWord := w, back := false }
  | .header => { t with atHdr := true, back := false }
  | _ => { t with atHdr := true, back := true }
/-- A matrix stream whose pc is where a trap return resumes. -/
def Ridge.backAt (r : Ridge) : Resume → Ridge
  | .body a w => { r with atHdr := false, hdrAddr := a, hdrWord := w, back := false }
  | .header => { r with atHdr := true, back := false }
  | _ => { r with atHdr := true, back := true }

/-- Settles a team whose mask may be empty: reconverges (R60), retires it (R53), or pops a TRAP
entry (R56, R363). fuel bounds the TRAP entries popped. -/
def State.emptied (s : State) (core slot : Nat) : Nat → Team → State
  | 0, t => s.setTeam core slot t
  | fuel + 1, t =>
    if t.act ≠ 0 then s.setTeam core slot t
    else
      match reconverge (t.stk.length + 1) t with
      | .stay t => s.setTeam core slot t
      | .retired t => s.retire core slot t
      | .ret t e =>
        let t := { t with act := e.omask, pc := e.pc1, stk := t.stk.tail }
        (s.killLoads core slot).emptied core slot fuel (t.backAt (s.resumeAt core t.ctx e.pc1))

/-- Pops the top entry as TRET does (R366): the mask, pc and position of the interrupted code. -/
def State.trapReturn (s : State) (core slot : Nat) (t : Team) (e : Entry) : State :=
  let t := { t with act := e.omask, pc := e.pc1, stk := t.stk.tail }
  (s.killLoads core slot).emptied core slot (t.stk.length + 1) (t.backAt (s.resumeAt core t.ctx e.pc1))

/-- TRET on a matrix stream (R364): restores s62 and s63 and resumes. -/
def State.trapReturnM (s : State) (core : Nat) (r : Ridge) (resume : Nat) (v62 v63 : W64) : State :=
  let r := { (r.ws 62 v62).ws 63 v63 with trap := none, pc := resume }
  s.setRidge core (r.backAt (s.resumeAt core r.ctx resume))

end Sys2Proof.Machine
end

