-- ==== Sys2Proof/Machine/Operands.lean ====
section
/-! DEFINITION. Operand forms: the registers an instruction reads and writes, its result latency, and
the values of vector, scalar, paired and packed operands (R20, R30, R82, R137, R138). -/

namespace Sys2Proof.Machine

/-- A register by class. -/
inductive Reg where
  | v (k : Nat)
  | s (k : Nat)
  | p (k : Nat)
deriving DecidableEq, Repr

/-- A vector register, which a matrix stream does not have (R37). -/
def Reg.isV : Reg → Bool
  | .v _ => true
  | _ => false

/-- n consecutive vector registers. -/
def vs (r : VReg) (n : Nat) : List Reg := (List.range n).map fun i => .v (r.val + i)
/-- n consecutive scalars. -/
def ss (r : SReg) (n : Nat) : List Reg := (List.range n).map fun i => .s (r.val + i)
/-- A vector operand of n registers, or a scalar (R137). -/
def vsN (x : VS) (n : Nat) : List Reg := match x with | .v r => vs r n | .s r => ss r 1

def wideN (w : Bool) : Nat := if w then 2 else 1
def itN (t : ITy) : Nat := if t.wide then 2 else 1
def ntN (t : NTy) : Nat := if t.w = 64 then 2 else 1

/-- Registers of the address operand of a memory form (R186). -/
def addrRegs (sp : Space) (a : VS) : List Reg :=
  match sp with | .glob | .bcamp => vsN a 2 | _ => vsN a 1

/-- Registers of the operand of ATOM (R190): the compare and the new value for CAS. -/
def opndRegs (op : AOp) (sz : Size) (b : VS) : List Reg :=
  match b with
  | .v r => vs r (if op = .cas then 2 * sz.regs else sz.regs)
  | .s r => ss r (if op = .cas then 2 else 1)

/-- A V form of two sources. -/
def rw2 (ty : ITy) (d : VReg) (a b : VS) : List Reg × List Reg :=
  (vsN a (itN ty) ++ vsN b (itN ty), vs d (itN ty))
/-- An S form of two sources. -/
def rwS (d a b : SReg) : List Reg × List Reg := ([.s a, .s b], [.s d])
/-- A floating-point form of one register each. -/
def rwF (d : VReg) (xs : List VS) : List Reg × List Reg := (xs.flatMap fun x => vsN x 1, vs d 1)

/-- The registers an instruction reads and writes (the guard apart). An event names none. -/
def iRegs : Instr → List Reg × List Reg
  | .ball _ t _ _ => ([.p t], [])
  | .bany _ t _ _ => ([.p t], [])
  | .jmps _ r => ([.s r], [])
  | .call _ (.reg r) => ([.s r], [])
  | .elect _ d => ([], [.s d])
  | .phint _ d _ _ _ => ([.s d], [])
  | .pset _ d _ => ([], [.p d])
  | .plop _ d a b c _ => ([.p a, .p b, .p c], [.p d])
  | .pmov _ (.pp d a) => ([.p a], [.p d])
  | .pmov _ (.pv d a) => ([.v a], [.p d])
  | .pmov _ (.ps d a) => ([.s a], [.p d])
  | .pmov _ (.vp d a) => ([.p a], [.v d])
  | .pcnt _ d a => ([.p a], [.s d])
  | .pfirst _ d a => ([.p a], [.s d])
  | .sadd _ d a b _ _ => rwS d a b
  | .ssub _ d a b _ _ => rwS d a b
  | .smul _ d a b _ => rwS d a b
  | .smulh _ d a b _ => rwS d a b
  | .smad _ d a b c _ => ([.s a, .s b, .s c], [.s d])
  | .sand _ d a b _ => rwS d a b
  | .sor _ d a b _ => rwS d a b
  | .sxor _ d a b _ => rwS d a b
  | .sshl _ d a b _ => rwS d a b
  | .sshr _ d a b _ => rwS d a b
  | .ssar _ d a b _ => rwS d a b
  | .smin _ d a b _ => rwS d a b
  | .smax _ d a b _ => rwS d a b
  | .vadd _ d a b ty _ => rw2 ty d a b
  | .vsub _ d a b ty _ => rw2 ty d a b
  | .vmul _ d a b ty => rw2 ty d a b
  | .vmulh _ d a b ty => rw2 ty d a b
  | .vmad _ d a b c ty => (vsN a (itN ty) ++ vsN b (itN ty) ++ vsN c (itN ty), vs d (itN ty))
  | .vand _ d a b ty => rw2 ty d a b
  | .vor _ d a b ty => rw2 ty d a b
  | .vxor _ d a b ty => rw2 ty d a b
  | .vshl _ d a b ty => rw2 ty d a b
  | .vshr _ d a b ty => rw2 ty d a b
  | .vsar _ d a b ty => rw2 ty d a b
  | .vmin _ d a b ty => rw2 ty d a b
  | .vmax _ d a b ty => rw2 ty d a b
  | .scmp _ d a b _ _ => ([.s a, .s b], [.p d])
  | .vcmp _ d a b _ ty => (vsN a (itN ty) ++ vsN b (itN ty), [.p d])
  | .vsel _ d a b c wide => (vsN a (wideN wide) ++ vsN b (wideN wide) ++ [.p c], vs d (wideN wide))
  | .smov _ (.ss d a) => ([.s a], [.s d])
  | .smov _ (.push _ a) => ([.s a], [])
  | .smov _ (.pop d _) => ([], [.s d])
  | .vmov _ (.vv d a) wide => (vs a (wideN wide), vs d (wideN wide))
  | .vmov _ (.vs d a) wide => ([.s a], vs d (wideN wide))
  | .vmov _ (.push _ a) wide => (vs a (wideN wide), [])
  | .vmov _ (.pop d _) wide => ([], vs d (wideN wide))
  | .smovi _ d high _ => (if high then [.s d] else [], [.s d])
  | .vmovi _ d _ => ([], [.v d])
  | .vclz _ d a wide => (vs a (wideN wide), [.v d])
  | .vpop _ d a wide => (vs a (wideN wide), [.v d])
  | .vbfx _ d a _ _ _ => ([.v a], [.v d])
  | .vbfi _ d a b _ _ => ([.v a, .v b], [.v d])
  | .vaddc _ d a b c _ => (vsN a 1 ++ vsN b 1 ++ [.p c], [.v d, .p c])
  | .vaddr _ d a b _ wide => (vsN a (wideN wide) ++ [.v b], vs d (wideN wide))
  | .saddi _ d a _ _ => ([.s a], [.s d])
  | .vaddi _ d a wide _ => (vs a (wideN wide), vs d (wideN wide))
  | .vshuf _ d a b _ wide => (vs a (wideN wide) ++ vsN b 1, vs d (wideN wide))
  | .vbcast _ d a b wide => (vs a (wideN wide) ++ [.s b], vsN d (wideN wide))
  | .vreduce _ d a _ ty _ => (vs a (ntN ty), vsN d (ntN ty))
  | .vscan _ d a _ ty _ => (vs a (ntN ty), vs d (ntN ty))
  | .fadd _ d a b _ _ => rwF d [a, b]
  | .fsub _ d a b _ _ => rwF d [a, b]
  | .fmul _ d a b _ _ => rwF d [a, b]
  | .ffma _ d a b c _ _ => rwF d [a, b, c]
  | .fmin _ d a b _ _ => rwF d [a, b]
  | .fmax _ d a b _ _ => rwF d [a, b]
  | .fcmp _ d a b _ _ => (vsN a 1 ++ vsN b 1, [.p d])
  | .frcp _ d a _ => rwF d [a]
  | .frsq _ d a _ => rwF d [a]
  | .fexp2 _ d a _ => rwF d [a]
  | .flog2 _ d a _ => rwF d [a]
  | .fscos _ d a _ => (vsN a 1, vs d 2)
  | .fcvt _ d a src dst _ _ => (vsN a (ntN src), vs d (ntN dst))
  | .frnd _ d a _ _ => rwF d [a]
  | .fclass _ d a _ => rwF d [a]
  | .fdot2 _ d a b c _ _ => rwF d [a, b, c]
  | .fcmul _ d a b ty _ => (vsN a (wideN (ty == .f32)) ++ vsN b (wideN (ty == .f32)), vs d (wideN (ty == .f32)))
  | .fbfly _ d a b c ty _ =>
      (vsN a (wideN (ty == .f32)) ++ vsN b (wideN (ty == .f32)) ++ vsN c (wideN (ty == .f32)),
        vs d (2 * wideN (ty == .f32)))
  | .ftwid _ d a b _ => (vsN a 1 ++ vsN b 1, vs d 2)
  | .csum _ d a b wide => (.s a :: vs b (wideN wide), [.s d])
  | .ld _ data addr sp _ sz _ _ => (addrRegs sp addr, vsN data sz.regs)
  | .st _ data addr sp _ sz _ => (addrRegs sp addr ++ vsN data sz.regs, [])
  | .atom _ data addr sp _ sz _ b op _ => (addrRegs sp addr ++ opndRegs op sz b, vsN data sz.regs)
  | .red _ data addr sp _ sz _ _ _ => (addrRegs sp addr ++ vsN data sz.regs, [])
  | .prf _ _ addr _ => (vsN addr 2, [])
  | .vld _ d _ _ sz _ idx p =>
      (vsN idx 1, vs d sz.regs ++ (match p with | some r => [.p r] | none => []))
  | .vst _ d _ _ sz idx => (vsN idx 1 ++ vs d sz.regs, [])
  | .vwset _ _ a => (ss a 4, [])
  | .vwadj _ _ _ b _ _ => ([.s b], [])
  | .tdset _ a b => (.s a :: ss b 8, [])
  | .copy _ _ _ c => ([.s c], [])
  | .copyR _ _ _ c => ([.s c], [])
  | .copym _ _ b c => ([.s b, .s c], [])
  | .chain _ a b c => ([.s a, .s b, .s c], [])
  | .ring _ a b _ => ([.s a, .s b], [])
  | .fwait _ a b _ => ([.s b], ss a 2)
  | .frel _ b => ([.s b], [])
  | .ftest _ a b => ([.s b], [.p a])
  | .gath _ d idx c p sz =>
      (.v idx :: ss c 2, (match d with | some r => vs r (2 ^ sz.val) | none => []) ++ [.p p])
  | .scat _ d idx c sz => (vs d (2 ^ sz.val) ++ .v idx :: ss c 2, [])
  | .qbind _ _ s _ => ([.s s], [])
  | .qtry _ d _ p wide => ([], vsN d (wideN wide) ++ [.p p])
  | .mlda _ _ c _ _ _ _ _ => (ss c 2, [])
  | .plane _ c sa sb _ => ([.s c, .s sa, .s sb], [])
  | .mma _ _ _ c _ _ _ _ _ _ _ => ([.s c], [])
  | .moutl _ c => ([.s c], [])
  | .zld _ _ c _ _ => (ss c 2, [])
  | .zst _ _ _ c _ _ _ => (ss c 2, [])
  | .zmap _ _ _ c _ => ([.s c], [])
  | .binit _ a _ => ([.s a], [])
  | .barr _ d _ => ([], [.s d])
  | .bwait _ a _ => ([.s a], [])
  | .bexp _ a _ => ([.s a], [])
  | .attn _ _ c _ _ _ _ _ => (ss c 4, [])
  | .kvapp _ a b c _ => (.s a :: .s c :: ss b 2, [])
  | .kvevt _ a _ => ([.s a], [])
  | .watch _ d b c => ([.s b, .s c], [.s d])
  | .unwatch _ d b => ([.s b], [.s d])
  | .wpark _ d b c p => ([.s b, .s c], vs d 2 ++ [.p p])
  | .launchGrid _ d b c => (.s b :: (match c with | some r => [.s r] | none => []), [.s d])
  | .launchRecord _ a b => (.s a :: vs b 4, [])
  | .srd _ d _ _ => ([], vsN d 1)
  | .swr _ a => ([.s a], [])
  | .wkadd _ a _ => ([.s a], [])
  | .halt _ a => ([.s a], [])
  | .nop .. | .bra .. | .ret .. | .reconv .. | .brk .. | .exit .. | .refill .. | .endlead ..
  | .yield .. | .fence .. | .vret .. | .zclr .. | .bsync .. | .wkdone .. | .trap .. | .tret ..
  | .bkpt .. | .icacheLineFill .. | .fixedLatencyWrite .. | .sliceRelease ..
  | .readResponse .. | .storePerform .. | .heldWriteRelease .. | .revocation ..
  | .writeAcknowledge .. | .atomicPerform .. | .pageWalk .. | .pendingBitOr ..
  | .spillRingDrain .. | .recordHandoff .. | .poolTimerLapse .. | .placementDecision ..
  | .remoteStackOffer .. | .priorityAging .. | .gangReserve .. | .timeSliceEnd ..
  | .forcedFreeze .. | .blockSave .. | .blockRestore .. | .countedTeamDone ..
  | .embersTokenPass .. | .queueMoveComplete .. | .refillWaitEnd .. | .messageFlitAccept ..
  | .ringReserveRetry .. | .engineComplete .. | .chainRecord .. | .gatherRowFetch ..
  | .fwaitReturn .. | .entryClaim .. | .kvappExecute .. | .strikeCommand ..
  | .strikeRcDrain .. | .attnComplete .. | .mmaAccumulatorWrite .. | .barrierArrival ..
  | .barrierCycle .. | .barrierWaitEnd .. | .wparkDeliver .. | .wparkLapse ..
  | .partitionHalt .. | .stopRecordWrite .. | .watchdog .. | .partitionReset ..
  | .debuggerHalt .. | .debuggerResume .. | .campLendWrite .. | .tlbinvSpan .. | .tlbinvAll ..
  | .tlbinvComplete .. | .hostQueueDoorbell .. | .hostQueueEnable .. | .jisoetteLaneBind ..
  | .nopPacket .. | .haltq .. | .preempt .. | .preemptComplete .. | .setsig .. | .waitsig ..
  | .watchPacket .. | .unwatchPacket .. | .poolcfg .. | .launchPacket .. | .copyh ..
  | .launchSignalDecrement .. | .hostWrite .. | .hostRead .. | .remotePacketReceive ..
  | .flitReplay .. | .linkFailure .. | .linkTraining .. | .portDisable .. | .portRetrain ..
  | .timeSync .. | .thermalLimit .. | .fwActivate .. | .attestRequest .. | .powerOnReset ..
  | .registerWrite .. | .planeConverterDone .. | .memoryPortLoss .. | .hostPortTraining ..
  | .call _ (.off _) => ([], [])

/-- A result latency (R30); none where the result is tracked or there is none. -/
def iLatency : Instr → Option Nat
  | .pset .. | .plop .. | .pmov .. | .pfirst .. => some 1
  | .scmp .. | .vcmp .. | .pcnt .. | .sadd .. | .vadd .. | .ssub .. | .vsub .. | .sand .. | .vand ..
  | .sor .. | .vor .. | .sxor .. | .vxor .. | .sshl .. | .vshl .. | .sshr .. | .vshr .. | .ssar ..
  | .vsar .. | .smin .. | .vmin .. | .smax .. | .vmax .. | .saddi .. | .vaddi .. | .smov .. | .vmov ..
  | .smovi .. | .vmovi .. | .vsel .. | .vclz .. | .vpop .. | .vbfx .. | .vbfi .. | .vaddc .. | .vaddr ..
  | .srd .. => some 2
  | .smul .. | .vmul .. | .smulh .. | .vmulh .. | .smad .. | .vmad .. | .fadd .. | .fsub .. | .fmul ..
  | .ffma .. | .fmin .. | .fmax .. | .fcmp .. | .fcvt .. | .frnd .. | .fclass .. | .vshuf .. | .vbcast .. => some 4
  | .fdot2 .. | .fcmul .. => some 6
  | .fbfly .. | .csum .. => some 8
  | .vreduce .. | .vscan .. => some 10
  | .frcp .. | .frsq .. | .fexp2 .. | .flog2 .. | .fscos .. | .ftwid .. => some 12
  | _ => none

/-! Operand values. -/

/-- What an instruction reads: the core and the team as it found them (R140). alt names the scalars of which a lane reads what they
held earlier, with the check bit 0 (R32): the register, the lanes that do, that content, and what the others read. -/
structure Src where
  core : Core
  team : Team
  alt  : List (Nat × Mask × W64 × W64) := []

/-- Register k above r, lane l. -/
def Src.v (x : Src) (r : VReg) (k l : Nat) : W32 := readV x.core x.team (vregAt r k) l

/-- A scalar as a lane reads it. -/
def Src.sl (x : Src) (r : SReg) (l : Nat) : W64 :=
  match x.alt.find? fun e => e.1 == r.val with
  | some e => if inMask e.2.1 l then e.2.2.1 else e.2.2.2
  | none => x.team.rs r

/-- An operand one register wide in a lane (R137). -/
def Src.one (x : Src) (o : VS) (l : Nat) : W32 :=
  match o with
  | .v r => x.v r 0 l
  | .s r => (x.sl r l).truncate 32

/-- An operand two registers wide in a lane (R137, R138). -/
def Src.two (x : Src) (o : VS) (l : Nat) : W64 :=
  match o with
  | .v r => (x.v r 1 l ++ x.v r 0 l : BitVec 64)
  | .s r => x.sl r l

/-- An operand of a width as a number. -/
def Src.num (x : Src) (wide : Bool) (o : VS) (l : Nat) : Nat :=
  if wide then (x.two o l).toNat else (x.one o l).toNat

/-- n registers of a vector operand as one number, the lowest register lowest. -/
def Src.regs (x : Src) (r : VReg) (l : Nat) : Nat → Nat → Nat
  | 0, _ => 0
  | n + 1, k => (x.v r k l).toNat + 2 ^ 32 * x.regs r l n (k + 1)

/-- Register k of a value several registers wide. -/
def regOf (v k : Nat) : W32 := BitVec.ofNat 32 (v / 2 ^ (32 * k))

/-- Element i of width w (R138). -/
def elem (w i v : Nat) : Nat := v / 2 ^ (w * i) % 2 ^ w

/-- Applies f to each of n elements of width w (R138). -/
def perElem (w : Nat) (f : Nat → Nat) : Nat → Nat
  | 0 => 0
  | n + 1 => perElem w f n + (f n % 2 ^ w) * 2 ^ (w * n)

end Sys2Proof.Machine
end

