-- ==== Sys2Proof/Machine/Issue.lean ====
section
/-! DEFINITION. Issue of one instruction: the order of trap conditions (R40), fixed-latency results and
stall counts (R28 to R32), the value table (R89 to R93), and what follows an instruction. A meaning is
runTeam, runRidge or runBoth over the effect of the instruction. -/

namespace Sys2Proof.Machine

/-- How the effect of an instruction ends. -/
inductive Res where
  /-- Done; execution goes on after it. -/
  | done (s : State)
  /-- Done; the pc is placed, or the party is gone. -/
  | went (s : State)
  /-- A blocking instruction waits; s carries what its first wait counts. -/
  | wait (s : State)
  /-- The pass of a word, and of every later one, waits for slices (R87); those before it need none or have them. -/
  | short (word : Nat)
  /-- The passes below a word have issued, as s shows; the others wait. -/
  | part (s : State) (word : Nat)
  /-- Not ready to issue: nothing changes. -/
  | hold
  /-- A trap that resumes at this instruction. -/
  | trap (c : Cause) (faddr : W64)
  /-- A trap that resumes at the next instruction, after what s shows. -/
  | trapNext (s : State) (c : Cause) (faddr : W64)
  /-- A trap that resumes at this instruction; s has counted what the check did. -/
  | trapIn (s : State) (c : Cause) (faddr : W64)
  /-- An unrecoverable fault. -/
  | fatal (c : Cause) (faddr : W64)
  /-- An unrecoverable fault; s has counted what the check did. -/
  | fatalIn (s : State) (c : Cause) (faddr : W64)

/-- What the effect of a team instruction is given: its slot, the lanes it acts in, and what it reads. Where its passes issue in
parts (R87), lo is the first word of this one, and part says that a later one follows. -/
structure X where
  c    : Nat
  slot : Nat
  team : Team
  adm  : Mask
  src  : Src
  h    : Hdr
  lo   : Nat := 0
  part : Bool := false

/-- What the effect of a matrix-stream instruction is given. -/
structure XR where
  c   : Nat
  r   : Ridge
  src : Ridge
  adm : Bool
  h   : Hdr

/-! Lookup and insertion (R89 to R93). -/

/-- The set of a key: the XOR of the 9-bit chunks of its 190 bits (R89). -/
def vtSet (key : Nat) : Nat := fold 9 32 (key % 2 ^ 190)

def Core.vtFind (c : Core) (key : Nat) : Option VtEntry := c.vtb.find? fun e => e.key == key && !e.bad

/-- The slice that a lookup in cycle now takes: one of the table as it stood at the end of the cycle before (R91). -/
def Core.vtHit (c : Core) (key now : Nat) : Option Nat :=
  (c.vtFind key).bind fun e => if e.since < now then some e.slice else none

/-- The lowest way of a set no entry holds. -/
def freeWay (c : Core) (set : Nat) : Option Nat :=
  (List.range 4).find? fun w => !(c.vtb.any fun e => e.set == set && e.way == w)

/-- The way of a set least recently hit or inserted. -/
def lruWay (c : Core) (set : Nat) : Nat :=
  match (c.vtb.filter fun e => e.set == set) with
  | [] => 0
  | e :: es => (es.foldl (fun a b => if b.used < a.used then b else a) e).way

/-- A key enters its set in a cycle: in the lowest invalid way, else in the one least recently used (R89). -/
def Core.vtPlace (c : Core) (key slice stamp since : Nat) : Core :=
  let set := vtSet key
  let way := (freeWay c set).getD (lruWay c set)
  { c with vtb := ⟨set, way, key, slice, stamp, false, since⟩ ::
      c.vtb.filter fun e => !(e.set == set && e.way == way) }

/-- Inserts a result (R89, R93): a key already present stays as it is. -/
def Core.vtInsert (c : Core) (key slice stamp since : Nat) : Core :=
  if (c.vtFind key).isSome || (c.phys.find slice).isNone then c else c.vtPlace key slice stamp since

/-- A lookup in a cycle: the slice of the entry, if any, and the number of ways of its set dropped for a parity error (R94). -/
def Core.vtLook (c : Core) (key stamp now : Nat) : Core × Option Nat × Nat :=
  let broken (e : VtEntry) : Bool := e.set == vtSet key && e.bad
  let vtb := c.vtb.filter fun e => !broken e
  ({ c with vtb := vtb.map fun e => if e.key == key then { e with used := stamp } else e },
    c.vtHit key now, (c.vtb.filter broken).length)

/-- Whether an opcode's results may enter the value table (R90, R164, R197): one vector register
written, no lane outside the word read. -/
def eligible (i : Instr) : Bool :=
  match i with
  | .vadd _ _ _ _ ty _ | .vsub _ _ _ _ ty _ => !ty.wide
  | .vmul _ _ _ _ ty | .vmulh _ _ _ _ ty | .vand _ _ _ _ ty | .vor _ _ _ _ ty | .vxor _ _ _ _ ty
  | .vshl _ _ _ _ ty | .vshr _ _ _ _ ty | .vsar _ _ _ _ ty | .vmin _ _ _ _ ty | .vmax _ _ _ _ ty => !ty.wide
  | .vmad _ _ _ _ _ ty => !ty.wide
  | .vmov _ (.vs _ _) wide => !wide
  | .vmovi .. | .vclz .. | .vpop .. | .vbfx .. | .vbfi .. => true
  | .vaddi _ _ _ wide _ => !wide
  | .vaddr _ _ _ _ _ wide => !wide
  | .fadd .. | .fsub .. | .fmul .. | .ffma .. | .fmin .. | .fmax .. | .frcp .. | .frsq .. | .fexp2 ..
  | .flog2 .. | .frnd .. | .fclass .. | .fdot2 .. => true
  | .fcvt _ _ _ _ dst _ _ => dst.w != 64
  | .fcmul _ _ _ _ ty _ => ty != .f32
  | .ld _ (.v _) _ _ .plain sz _ _ => sz == .b8 || sz == .b16 || sz == .b32
  | .vld _ _ _ .plain sz _ _ none => sz == .b8 || sz == .b16 || sz == .b32
  | _ => false

/-- The code of a source field in MOD: a vector becomes 0x00 and a scalar 0x40 (R89). -/
def modCode (c : Nat) : Nat := if c < 0x40 then 0 else if c < 0x80 then 0x40 else c

/-- MOD of a body word: bits [40:0] with the destination and the source fields changed (R89). The
source fields are [32:25], [24:17] and [16:9] in format R, the immediate and view forms keep theirs. -/
def modBits (i : Instr) (w : Nat) : Nat :=
  let a := modCode (fld w 25 8)
  match i with
  | .vmovi .. => fld w 0 33
  | .vaddi .. => a * 2 ^ 25 + fld w 0 25
  | .ld .. => a * 2 ^ 25 + fld w 0 25
  | .vld .. => fld w 25 8 * 2 ^ 25 + fld w 16 9 * 2 ^ 16 + modCode (fld w 8 8) * 2 ^ 8 + fld w 0 8
  | .vbfx .. | .vclz .. | .vpop .. | .vmov .. | .fcvt .. => a * 2 ^ 25 + fld w 0 25
  | .vbfi .. => a * 2 ^ 25 + modCode (fld w 17 8) * 2 ^ 17 + fld w 0 17
  | .ffma .. | .fdot2 .. | .vmad .. =>
      a * 2 ^ 25 + modCode (fld w 17 8) * 2 ^ 17 + modCode (fld w 9 8) * 2 ^ 9 + fld w 0 9
  | _ => a * 2 ^ 25 + modCode (fld w 17 8) * 2 ^ 17 + fld w 0 17

/-- The vector source fields A, B and C with the number of registers each names (R89). -/
def srcFields (i : Instr) : List (VS × Nat) :=
  match i with
  | .vadd _ _ a b _ _ | .vsub _ _ a b _ _ => [(a, 1), (b, 1)]
  | .vmul _ _ a b _ | .vmulh _ _ a b _ | .vand _ _ a b _ | .vor _ _ a b _ | .vxor _ _ a b _
  | .vshl _ _ a b _ | .vshr _ _ a b _ | .vsar _ _ a b _ | .vmin _ _ a b _ | .vmax _ _ a b _ => [(a, 1), (b, 1)]
  | .vmad _ _ a b c _ => [(a, 1), (b, 1), (c, 1)]
  | .vmov _ (.vs _ a) _ => [(.s a, 1)]
  | .vclz _ _ a wide | .vpop _ _ a wide => [(.v a, wideN wide)]
  | .vbfx _ _ a _ _ _ => [(.v a, 1)]
  | .vbfi _ _ a b _ _ => [(.v a, 1), (.v b, 1)]
  | .vaddi _ _ a _ _ => [(.v a, 1)]
  | .vaddr _ _ a b _ _ => [(a, 1), (.v b, 1)]
  | .fadd _ _ a b _ _ | .fsub _ _ a b _ _ | .fmul _ _ a b _ _ | .fmin _ _ a b _ _ | .fmax _ _ a b _ _ => [(a, 1), (b, 1)]
  | .fcmul _ _ a b _ _ => [(a, 1), (b, 1)]
  | .ffma _ _ a b c _ _ | .fdot2 _ _ a b c _ _ => [(a, 1), (b, 1), (c, 1)]
  | .frcp _ _ a _ | .frsq _ _ a _ | .fexp2 _ _ a _ | .flog2 _ _ a _ => [(a, 1)]
  | .frnd _ _ a _ _ => [(a, 1)]
  | .fclass _ _ a _ => [(a, 1)]
  | .fcvt _ _ a src _ _ _ => [(a, ntN src)]
  | .ld _ _ addr sp _ _ _ _ => [(addr, match sp with | .glob | .bcamp => 2 | _ => 1)]
  | .vld _ _ _ _ _ _ idx _ => [(.s 0, 0), (.s 0, 0), (idx, 1)]
  | _ => []

/-- SRC of a key: 24 bits for each field (R89). -/
def srcBits (t : Team) (j : Nat) : List (VS × Nat) → Nat
  | [] => 0
  | (.v r, n) :: xs =>
    (if n = 0 then 0 else t.slice r.val j + (if n = 2 then 2 ^ 12 * t.slice (r.val + 1) j else 0))
      + 2 ^ 24 * srcBits t j xs
  | (.s _, _) :: xs => 2 ^ 24 * srcBits t j xs

/-- VAL of a key: the scalar source's value (R89). -/
def valBits (t : Team) : List (VS × Nat) → Nat
  | [] => 0
  | (.s r, n) :: xs => if n = 0 then valBits t xs else (t.rs r).toNat
  | _ :: xs => valBits t xs

/-- Whether the lanes of a pass take different values with the number of its word though the key is one: a load whose
every lane has an address of its own that no field of the key holds, from its pocket (R167, R189) or by its element number
from a scalar index (R192). -/
def byWord (i : Instr) : Bool :=
  match i with
  | .ld _ _ _ .pocket _ _ _ _ => true
  | .vld _ _ _ _ _ _ (.s _) _ => true
  | _ => false

/-- The key of a pass (R89): OP, MOD, SRC, VAL, TEAM, LOAD from bit 0 upward, and in SRC field A lowest and the even register
of a pair below the odd one (DESIGN CHOICE, log 46). Beyond its 190 bits stands the number of the word for a load whose
value it decides (byWord), so that no pass takes a value that its load could not have returned (DEDUCED from R97, log 46). -/
def vtKey (i : Instr) (t : Team) (slot j : Nat) : Nat :=
  let w := (encode i).getD 0
  let load := match i with | .ld .. | .vld .. => true | _ => false
  fld w 56 8 + modBits i w * 2 ^ 8 + srcBits t j (srcFields i) % 2 ^ 72 * 2 ^ 49
    + valBits t (srcFields i) * 2 ^ 121 + (if load then slot * 2 ^ 185 + 2 ^ 189 else 0)
    + (if byWord i then (j + 1) * 2 ^ 190 else 0)

/-- Whether the pass of word j is full (R86). -/
def fullPass (adm : Mask) (j : Nat) : Bool := maskWord adm j == BitVec.allOnes 32

/-- The key of an eligible pass; none for an ineligible one (R90). -/
def passKey (i : Instr) (x : X) (j : Nat) : Option Nat :=
  if eligible i && !x.h.fresh && fullPass x.adm j then some (vtKey i x.team x.slot j) else none

/-! Fixed-latency results (R28 to R32). -/

/-- The passes of an instruction as they accumulate: the core and the team, what the counters of R102 rise by, the results yet to
enter the value table (the cycles until they are written, key, slice), and the words whose pass hit with the slice taken. -/
structure Acc2 where
  core : Core
  team : Team
  look : Nat := 0
  hit  : Nat := 0
  perr : Nat := 0
  pend : List (Nat × Nat × Nat) := []
  hits : Tbl Nat := []

/-- The number of a word's pass: passes start in consecutive cycles, one for each active word (R54, R55). -/
def X.passNo (x : X) (j : Nat) : Nat := ((passes x.team.act).filter fun k => decide (x.lo ≤ k && k < j)).length

/-- A result whose key has entered the value table. -/
def Shadow.entered (keys : List (Nat × Nat)) (sh : Shadow) : Shadow :=
  match sh.key with
  | some k => if keys.contains k then { sh with key := none } else sh
  | none => sh

/-- The results that are written before the cycle of pass n enter the value table (R91, R93), in a cycle counted from now. stamp
numbers the uses of entries: two for each cycle from the first pass on. -/
def Acc2.enter (stamp now n : Nat) (a : Acc2) : Acc2 :=
  let due := a.pend.filter fun e => decide (e.1 < n)
  { a with
    core := due.foldl (fun c e => c.vtInsert e.2.1 e.2.2 (stamp + 2 * e.1) (now + e.1)) a.core,
    team := { a.team with shadows := a.team.shadows.map (Shadow.entered (due.map Prod.snd)) },
    pend := a.pend.filter fun e => !decide (e.1 < n) }

/-- One pass writes register k of a result in word j: new lanes w, and the result in flight to it, due in a cycle. -/
def passReg (lat due : Nat) (r : VReg) (j : Nat) (w : W32) (new : BitVec 1024) (fl : BitVec 5) (key : Option Nat)
    (ct : Core × Team) : Core × Team :=
  let old := ct.1.data (ct.2.slice r.val j)
  let ct := writePass ct r j w new
  let n := ct.2.slice r.val j
  let sh : Shadow := ⟨.entry r.val j, lat, old, w.zeroExtend 1024, fl, key.map fun k => (k, n), false, n, due⟩
  (ct.1, { ct.2 with shadows := ct.2.shadows ++ [sh] })

/-- The lanes of a slice from values of some of them, register k of each. -/
def gatherLanes (k : Nat) (vals : List (Nat × Nat)) : BitVec 1024 :=
  vals.foldl (fun acc p => acc ||| ((regOf p.2 k).zeroExtend 1024 <<< (32 * p.1))) 0

/-- One pass of a vector result of n registers (R86, R90 to R93), the first starting in cycle now: a hit takes the entry's slice, a
miss writes new slices, the first with the pass's flags and key. -/
def vecPass (i : Instr) (x : X) (lat stamp now : Nat) (d : VReg) (n : Nat) (f : Nat → Nat)
    (fl : Nat → BitVec 5) (a : Acc2) (j : Nat) : Acc2 :=
  let w := maskWord x.adm j
  if w = 0 then a
  else
    let p := x.passNo j
    let a := a.enter stamp now p
    let key := passKey i x j
    let (core, hit, bad) := match key with
      | some k => a.core.vtLook k (stamp + 2 * p + 1) (now + p)
      | none => (a.core, none, 0)
    let a := { a with core := core, look := a.look + bit key.isSome, perr := a.perr + bad }
    match hit with
    | some sl => { a with team := a.team.pointOver d.val j sl w, hit := a.hit + 1, hits := a.hits ++ [(j, sl)] }
    | none =>
      let ls := (List.range 32).filter fun l => w.getLsbD l
      let vals := ls.map fun l => (l, f (32 * j + l))
      let flags := ls.foldl (fun acc l => acc ||| fl (32 * j + l)) 0
      let ct := (List.range n).foldl (fun ct k =>
        passReg lat (now + p + lat) (vregAt d k) j w (gatherLanes k vals) (if k = 0 then flags else 0)
          (if k = 0 then key else none) ct) (a.core, a.team)
      { a with core := ct.1, team := ct.2,
               pend := match key with | some k => a.pend ++ [(p + lat, k, ct.2.slice d.val j)] | none => a.pend }

/-- The results of the teams of a core that are yet to be written and to enter the value table, counted from this cycle. -/
def State.keysDue (s : State) (c : Nat) : List (Nat × Nat × Nat) :=
  s.teams.flatMap fun t =>
    if t.1 / 16 = c then t.2.shadows.filterMap fun sh => if sh.done then none else sh.key.map fun k => (sh.due - s.cycle, k.1, k.2)
    else []

/-- The passes of a vector result of n registers, f of each admitted lane, flags fl. -/
def vecRun (i : Instr) (x : X) (s : State) (d : VReg) (n : Nat) (f : Nat → Nat) (fl : Nat → BitVec 5) : Acc2 :=
  (passes x.adm).foldl (vecPass i x ((iLatency i).getD 1) s.seq s.cycle d n f fl)
    { core := s.core x.c, team := (s.team? x.c x.slot).getD x.team, pend := s.keysDue x.c }

/-- Whether a team may allot slices (R87): within its reservation, and while the core has that many left of its 4095. -/
def State.headroom (s : State) (c : Nat) (t : Team) (need : Nat) : Bool :=
  need = 0 || (decide (s.held c t + need ≤ t.reservation) && decide ((s.core c).phys.length + need ≤ 4095))

/-- The first of some passes, each with its word and the slices it needs, for which a team lacks slices, once those before it have
theirs (R87). -/
def State.lacking (s : State) (c : Nat) (t : Team) : Nat → List (Nat × Nat) → Option Nat
  | _, [] => none
  | sum, (j, n) :: rest => if s.headroom c t (sum + n) then s.lacking c t (sum + n) rest else some j

/-- An instruction that waits until a team has slices for every pass (R87): one that reads lanes of other words, an acquire, and a form
whose passes come from one delivery issue whole (DESIGN CHOICE, log 51). -/
def State.sliceWait (s : State) (c : Nat) : Res := .wait (s.bump .schSlicewait c 1)

/-- Skips the numbers that the passes of an instruction take. -/
def State.skipSeq (s : State) : State := { s with seq := s.seq + 66 }

/-- What the passes of a vector result leave. -/
def Acc2.leave (a : Acc2) (x : X) (s : State) : State :=
  let s := ((s.setCore x.c a.core).setTeam x.c x.slot a.team).skipSeq
  ((s.bump .vtbLook x.c a.look).bump .vtbHit x.c a.hit).bump .vtbPerr x.c a.perr

/-- The slices that each pass of a vector result of n registers needs: none where it hits in the value table (R87). -/
def Acc2.needs (a : Acc2) (n : Nat) (ws : List Nat) : List (Nat × Nat) :=
  ws.map fun j => (j, if (a.hits.find j).isSome then 0 else n)

/-- A vector result of n registers, f of each admitted lane, flags fl. -/
def vecResult (i : Instr) (x : X) (s : State) (d : VReg) (n : Nat) (f : Nat → Nat)
    (fl : Nat → BitVec 5) : Res :=
  let a := vecRun i x s d n f fl
  match s.lacking x.c x.team 0 (a.needs n (passes x.adm)) with
  | some j => .short j
  | none => .done (a.leave x s)

/-- A vector result of an instruction that reads lanes of other words too, whose passes issue together (log 51). -/
def vecWhole (i : Instr) (x : X) (s : State) (d : VReg) (n : Nat) (f : Nat → Nat)
    (fl : Nat → BitVec 5) : Res :=
  match vecResult i x s d n f fl with
  | .short _ => s.sliceWait x.c
  | r => r

/-- A result without flags. -/
def vecOut (i : Instr) (x : X) (s : State) (d : VReg) (n : Nat) (f : Nat → Nat) : Res :=
  vecResult i x s d n f fun _ => 0

/-- Forms that act once for the team and take one pass whatever the mask (R54): those the rule names, the S forms, and the forms of
the other chapters that read and write no vector register and no lane of a predicate but the one bit they give or take for the team
(DESIGN CHOICE for these, log 51: R54 names those of its chapter). -/
def onePass : Instr → Bool
  | .nop .. | .yield .. | .phint .. | .elect .. | .endlead .. | .ret .. | .exit .. | .reconv .. | .scmp .. | .ftest .. | .ring ..
  | .fwait .. | .frel .. | .watch .. | .unwatch .. | .trap .. | .tret .. | .halt .. | .bkpt .. | .wkadd .. | .wkdone .. | .fence ..
  | .vret .. | .vwset .. | .vwadj .. | .tdset .. | .vbcast _ (.s _) _ _ _ => true
  | .bra .. | .ball .. | .bany .. | .jmps .. | .call .. | .brk .. | .refill .. => false
  | i => ((iRegs i).1 ++ (iRegs i).2).all fun r => match r with | .s _ => true | _ => false

/-- Passes an instruction takes under a mask in the words from lo to below hi (R54). -/
def passesIn (i : Instr) (act : Mask) (lo hi : Nat) : Nat :=
  if onePass i then 1 else max 1 ((passes act).filter fun k => decide (lo ≤ k && k < hi)).length

/-- The passes that this part of an instruction takes. -/
def X.span (x : X) (i : Instr) : Nat := passesIn i x.team.act x.lo 32

/-- A fixed-latency predicate result in the admitted lanes, with flags. -/
def predResult (i : Instr) (x : X) (s : State) (d : PReg) (v : Mask) (fl : BitVec 5) : Res :=
  let t := (s.team? x.c x.slot).getD x.team
  let sh : Shadow := ⟨.pred d.val, (iLatency i).getD 1, t.rp d, x.adm, fl, none, false, 0, s.cycle + x.span i - 1 + (iLatency i).getD 1⟩
  let t := t.wp d x.adm v
  .done (s.setTeam x.c x.slot { t with shadows := t.shadows ++ [sh] })

/-- A fixed-latency scalar result of a team, with flags. -/
def scalResult (i : Instr) (x : X) (s : State) (d : SReg) (v : W64) (fl : BitVec 5 := 0) : Res :=
  let t := (s.team? x.c x.slot).getD x.team
  let sh : Shadow := ⟨.scalar d.val, (iLatency i).getD 1, (t.rs d).zeroExtend 1024, 1, fl, none, false, 0,
    s.cycle + x.span i - 1 + (iLatency i).getD 1⟩
  let t := t.ws d v
  .done (s.setTeam x.c x.slot { t with shadows := t.shadows ++ [sh] })

/-- A fixed-latency scalar result of a matrix stream. -/
def scalResultM (i : Instr) (x : XR) (s : State) (d : SReg) (v : W64) : Res :=
  let sh : Shadow := ⟨.scalar d.val, (iLatency i).getD 1, (x.r.rs d).zeroExtend 1024, 1, 0, none, false, 0, s.cycle + (iLatency i).getD 1⟩
  let r := x.r.ws d v
  .done (s.setRidge x.c { r with shadows := r.shadows ++ [sh] })

/-- A fixed-latency predicate result of a matrix stream. -/
def predResultM (i : Instr) (x : XR) (s : State) (d : PReg) (v : Bool) : Res :=
  let sh : Shadow := ⟨.pred d.val, (iLatency i).getD 1, if x.r.rp d then 1 else 0, 1, 0, none, false, 0, s.cycle + (iLatency i).getD 1⟩
  let r := x.r.wp d v
  .done (s.setRidge x.c { r with shadows := r.shadows ++ [sh] })

/-- A result is written (R93, R127): its flags are set and its key is inserted. -/
def State.written (s : State) (c slot : Nat) (sh : Shadow) : State :=
  let s := if sh.flags = 0 then s else s.modTeam c slot fun t => { t with fstat := t.fstat ||| sh.flags }
  match sh.key with
  | some k => (s.modCore c fun x => x.vtInsert k.1 k.2 s.seq sh.due).tickSeq
  | none => s

/-- The cycles left to a result after an instruction with a stall count (R28, R29). -/
def Shadow.age (stall : Nat) (sh : Shadow) : Shadow :=
  { sh with left := if stall = 0 then 0 else sh.left - stall }

/-- After an instruction of a team: results age by its stall count (R28, R29); one that a reader may read and that is written is gone. -/
def State.agedTeam (s : State) (c slot stall : Nat) : State :=
  s.modTeam c slot fun t => { t with shadows := (t.shadows.map (Shadow.age stall)).filter fun x => x.left != 0 || !x.done }

/-- After an instruction of a matrix stream. -/
def State.agedRidge (s : State) (c stall : Nat) : State :=
  s.modRidge c fun r => { r with shadows := (r.shadows.map (Shadow.age stall)).filter fun x => x.left != 0 || !x.done }

/-! Dependences (R29 to R32). -/

/-- Whether a fixed-latency result that the counts do not yet let a reader read is in lanes of the current content of a register; s0
and p0 have none. -/
def Shadow.isOf (sh : Shadow) (q : Reg) : Bool :=
  sh.left != 0 && sh.mask != 0 &&
  match q, sh.dest with
  | .v k, .entry r _ => k == r
  | .s k, .scalar r => k != 0 && k == r
  | .p k, .pred r => k != 0 && k == r
  | _, _ => false

/-- The results a reader of these registers must not yet read, oldest first: any in flight that lanes of the current content
wait for, whichever lanes or mask words the reader itself acts in (DESIGN CHOICE, log 45: R29 to R32 speak of registers). -/
def unmetOf (shs : List Shadow) (rs : List Reg) : List Shadow :=
  shs.filter fun sh => rs.any fun r => sh.isOf r

/-- The earlier content of a register, in the lanes of a free mask (R32). A vector register is read
through a slice number that no core has; a scalar that an instruction reads once for the team is as lane 0 reads it. -/
def Src.stale (x : Src) (free : Mask) (sh : Shadow) : Src :=
  let m := free &&& sh.mask
  match sh.dest with
  | .entry k j =>
    let n := 4096 + mkey k j
    let d := blend (sliceMask (maskWord m 0)) (x.core.data (x.team.slice k j)) sh.old
    { x with core := { x.core with phys := x.core.phys.put n ⟨d, 0, false⟩ }, team := x.team.point k j n }
  | .scalar r =>
    let old : W64 := sh.old.truncate 64
    { x with
      team := if inMask free 0 then { x.team with sreg := x.team.sreg.set 0 r old } else x.team,
      alt := (r, free, old, x.team.sreg.get 0 r) :: x.alt }
  | .pred r =>
    { x with team := { x.team with preg := x.team.preg.set 0 r (blend m (x.team.preg.get 0 r) sh.old) } }
  | .slice _ => x

/-- What a reader of unmet results reads with the check bit 0: in each lane either content (R32). -/
def Src.staleAll (x : Src) (free : Nat) : List Shadow → Src
  | [] => x
  | sh :: rest => (x.stale (Config.freeMask free) sh).staleAll (free + 1) rest

/-- Whether a load, an atomic or an arrival of a party has yet to write a scalar (R30, R225). -/
def State.pendingScalar (s : State) (uid k : Nat) : Bool :=
  (s.accs.any fun a => a.uid == uid && a.dests.contains (.scalar k)) ||
  s.blocks.any fun b => b.2.arr.any fun a => a.uid == uid && a.dst == some k

/-- Whether a tracked result is in flight to a register of a team (R30). -/
def State.pendingReg (s : State) (c : Nat) (t : Team) : Reg → Bool
  | .v k => (List.range 32).any fun j => t.slice k j != 0 && s.sliceTracked c (t.slice k j)
  | .s k => k != 0 && s.pendingScalar t.uid k
  | .p k => k != 0 && s.ops.any fun o => o.who.uid == t.uid && match o.kind with
      | .gath _ _ _ _ p => p == some k
      | _ => false

/-- Whether a tracked result is in flight to a register of a matrix stream. -/
def State.pendingRegM (s : State) (r : Ridge) : Reg → Bool
  | .s k => k != 0 && s.pendingScalar r.uid k
  | _ => false

/-- The guard as a source. -/
def guardReg (h : Hdr) : List Reg := if h.guard.val = 0 then [] else [.p h.guard.val]

/-- A register within the team's counts (R82). -/
def Launch.has (l : Launch) : Reg → Bool
  | .v k => k < l.nv
  | .s k => k < l.ns
  | .p k => k < l.np

/-- Forms that transfer control (R15). -/
def isTransfer : Instr → Bool
  | .bra .. | .ball .. | .bany .. | .jmps .. | .call .. | .ret .. | .refill .. | .tret .. => true
  | _ => false

/-- The lanes the guard admits (R19). -/
def admitted (act : Mask) (h : Hdr) (p : Mask) : Mask := act &&& (if h.gneg then ~~~p else p)

/-- The lanes of the words below one. -/
def below (word : Nat) : Mask := BitVec.ofNat 1024 (2 ^ (32 * word) - 1)

def Wait.what : Wait → Instr | .instr i _ _ => i | .barrier i _ _ _ => i | .passes i _ _ _ => i
def Wait.next : Wait → Nat × Bool | .instr _ _ n => n | .barrier _ _ _ n => n | .passes _ _ _ n => n

/-- The first word whose pass is still to issue, of an instruction that waits for slices (R87). -/
def Team.lo (t : Team) : Nat := match t.wait with | some (.passes _ w _ _) => w | _ => 0

/-- The number that the accesses of a team's instruction bear in common: that of its first part where it issues in parts. -/
def Team.group (t : Team) (seq : Nat) : Nat := match t.wait with | some (.passes _ _ n _) => n | _ => seq

/-- Where execution goes after a team's instruction, and whether that is a header: one that waits has it from its first try, which
its code gave then (R15). -/
def State.nextOf (s : State) (c : Nat) (t : Team) : Nat × Bool :=
  match t.wait with | some w => w.next | none => s.after c t.ctx t.hdrAddr t.hdrWord t.pc
/-- As nextOf, of a matrix stream. -/
def State.nextOfM (s : State) (c : Nat) (r : Ridge) : Nat × Bool :=
  match r.wait with | some w => w.next | none => s.after c r.ctx r.hdrAddr r.hdrWord r.pc

/-! Running an instruction. -/

/-- What follows the effect of a team's instruction. -/
def settleTeam (i : Instr) (h : Hdr) (s : State) (c slot : Nat) (t : Team) : Res → State
  | .done s' =>
    let (pc, hd) := s.nextOf c t
    (s'.modTeam c slot fun t => { t with pc := pc, atHdr := hd, wait := none }).agedTeam c slot h.stall.val
  | .went s' => s'.agedTeam c slot h.stall.val
  | .wait s' =>
    if t.wait.isSome then s
    else (s'.modTeam c slot fun t' => { t' with wait := some (.instr i s.seq (s.nextOf c t)) }).tickSeq
  | .short _ =>
    if t.wait.isSome then s
    else ((s.bump .schSlicewait c 1).modTeam c slot fun t' => { t' with wait := some (.passes i 0 s.seq (s.nextOf c t)) }).tickSeq
  | .part s' word =>
    ((s'.bump .schSlicewait c 1).modTeam c slot fun t' => { t' with wait := some (.passes i word (t.group s.seq) (s.nextOf c t)) }).tickSeq
  | .hold => s
  | .trap cause fa => s.takeTrap c slot { t with wait := none } cause fa t.pc
  | .trapNext s' cause fa =>
    let (pc, _) := s.nextOf c t
    match s'.team? c slot with
    | some t' => (s'.takeTrap c slot { t' with wait := none } cause fa pc).agedTeam c slot h.stall.val
    | none => s'
  | .trapIn s' cause fa => s'.takeTrap c slot { t with wait := none } cause fa t.pc
  | .fatal cause fa => s.fatalAt c slot cause t.pc fa
  | .fatalIn s' cause fa => s'.fatalAt c slot cause t.pc fa

/-- What follows the effect of a matrix stream's instruction, which has no passes that wait. -/
def settleRidge (i : Instr) (h : Hdr) (s : State) (c : Nat) (r : Ridge) : Res → State
  | .done s' =>
    let (pc, hd) := s.nextOfM c r
    (s'.modRidge c fun r => { r with pc := pc, atHdr := hd, wait := none }).agedRidge c h.stall.val
  | .went s' => s'.agedRidge c h.stall.val
  | .wait s' | .part s' _ =>
    if r.wait.isSome then s
    else (s'.modRidge c fun r' => { r' with wait := some (.instr i s.seq (s.nextOfM c r)) }).tickSeq
  | .hold | .short _ => s
  | .trap cause fa => s.takeTrapM c { r with wait := none } cause fa r.pc
  | .trapNext s' cause fa =>
    let (pc, _) := s.nextOfM c r
    match s'.ridge? c with
    | some r' => (s'.takeTrapM c { r' with wait := none } cause fa pc).agedRidge c h.stall.val
    | none => s'
  | .trapIn s' cause fa => s'.takeTrapM c { r with wait := none } cause fa r.pc
  | .fatal cause fa => s.fatalAt c 0 cause r.pc fa
  | .fatalIn s' cause fa => s'.fatalAt c 0 cause r.pc fa

/-- What a form asks of the stream that issues it (R35 to R38, R40): whether it is a leader form, needs
the gather engine, or breaks a rule of its operand classes. -/
structure Need where
  leader : Bool := false
  gather : Bool := false
  ill    : Bool := false

/-- VSHUF's source lane (R160); none outside the team. -/
def shufLane (m : Shuf) (n l b : Nat) : Option Nat :=
  let k : Option Nat := match m with
    | .index => some b
    | .xor => some (l ^^^ b)
    | .up => if b ≤ l then some (l - b) else none
    | .down => some (l + b)
  k.filter fun k => k < n

/-- The lane whose value of a vector source a lane takes: its own, but for the forms that read across lanes (R160, R161). VBCAST's
index takes all 64 bits of sb for either type (DESIGN CHOICE, log 45: R137 gives an operand one register wide bits [31:0], R161 says
sb). -/
def laneRead (i : Instr) (x : Src) (l : Nat) : Nat :=
  match i with
  | .vshuf _ _ _ b m _ => (shufLane m (32 * x.team.hdr.words) l (x.num false b l)).getD l
  | .vbcast _ _ _ b _ => (x.sl b l).toNat % (32 * x.team.hdr.words)
  | _ => l

/-- Whether a pass of an instruction reads a slice with an uncorrectable parity error (R394), of its word or of those it reads lanes
of; a pass that hits in the value table reads none (R92). -/
def State.parityBad (s : State) (i : Instr) (x : X) (rd : List Reg) : Bool :=
  (passes x.adm).any fun j =>
    (rd.any fun r => match r with
      | .v k => ((lanes x.adm).filter fun l => l / 32 == j).any fun l =>
          (s.core x.c).badSlice (x.team.slice k (laneRead i x.src l / 32))
      | _ => false) &&
    match passKey i x j with | some k => ((s.core x.c).vtHit k (s.cycle + x.passNo j)).isNone | none => true

/-- The effect of an instruction unless a register slice it reads has an uncorrectable error (R394). -/
def checked (i : Instr) (rd : List Reg) (eff : X → State → Res) (x : X) (s : State) : Res :=
  if s.parityBad i x rd then .fatal .ecc 0 else eff x s

/-- An instruction issues as many of its passes as have slices; the others wait (R87). -/
def inParts (eff : X → State → Res) (x : X) (s : State) : Res :=
  match eff x s with
  | .short w =>
    if x.adm &&& below w = 0 then .short w
    else match eff { x with adm := x.adm &&& below w, part := true } s with
      | .done s' => .part s' w
      | r => r
  | r => r

/-- A transfer that is not the last instruction of its body traps ILLEGAL (R15); one that may be and cannot tell stops there
(log 51). -/
def State.notLast (s : State) (core ctx hdrAddr hdrWord pc : Nat) : Res :=
  match s.lastUnread core ctx hdrAddr hdrWord pc with
  | some (a, true) => .trap .page (BitVec.ofNat 64 a)
  | some (a, false) => .fatal .prot (BitVec.ofNat 64 a)
  | none => .trap .illegal 0

/-- The checks of R40 up to STALL_SHORT for a team, then the effect. Those of registers in flight are made as the first pass
issues. -/
def issueTeam (i : Instr) (h : Hdr) (nd : Need) (s : State) (c slot : Nat) (t : Team)
    (eff : X → State → Res) : Res :=
  let (rd, wr) := iRegs i
  let rd := guardReg h ++ rd
  if nd.ill || !(rd.all t.hdr.has && wr.all t.hdr.has) then .trap .illegal 0
  else if isTransfer i && !(s.nextOf c t).2 then s.notLast c t.ctx t.hdrAddr t.hdrWord t.pc
  else if nd.gather && !s.hasGather then .trap .unimpl 0
  else if h.guard.val = 0 && h.gneg then .done s
  else if nd.leader && popcount t.act != 1 then .trap .illegalMask 0
  else if t.lo = 0 && (rd ++ wr).any (s.pendingReg c t) then .hold
  else
    let un := if t.lo = 0 then unmetOf t.shadows rd else []
    if un.isEmpty then
      inParts (checked i rd eff)
        { c := c, slot := slot, team := t, adm := admitted t.act h (t.rp h.guard) &&& ~~~below t.lo, src := ⟨s.core c, t, []⟩, h := h,
          lo := t.lo } s
    else if t.check then .trap .stallShort 0
    else
      let src := (Src.mk (s.core c) t []).staleAll s.free un.reverse
      inParts (checked i rd eff)
        { c := c, slot := slot, team := t, adm := admitted t.act h (src.team.rp h.guard), src := src, h := h }
        { s with free := s.free + un.length }

/-- The checks of R40 up to STALL_SHORT for a matrix stream, then the effect. -/
def issueRidge (i : Instr) (h : Hdr) (nd : Need) (s : State) (c : Nat) (r : Ridge)
    (eff : XR → State → Res) : Res :=
  let (rd, wr) := iRegs i
  let rd := guardReg h ++ rd
  if nd.ill || (rd ++ wr).any Reg.isV then .trap .illegal 0
  else if isTransfer i && !(s.nextOfM c r).2 then s.notLast c r.ctx r.hdrAddr r.hdrWord r.pc
  else if h.guard.val = 0 && h.gneg then .done s
  else if (rd ++ wr).any (s.pendingRegM r) then .hold
  else
    let un := unmetOf r.shadows rd
    if un.isEmpty then eff ⟨c, r, r, (r.rp h.guard) != h.gneg, h⟩ s
    else if r.check then .trap .stallShort 0
    else
      let r' := un.reverse.foldl (fun (r' : Ridge × Nat) sh =>
        let old := inMask (Config.freeMask r'.2 &&& sh.mask) 0
        (if !old then r'.1 else match sh.dest with
          | .scalar k => { r'.1 with sreg := r'.1.sreg.set 0 k (sh.old.truncate 64) }
          | .pred k => { r'.1 with preg := r'.1.preg.set 0 k sh.old }
          | _ => r'.1, r'.2 + 1)) (r, s.free)
      eff ⟨c, r, r'.1, (r'.1.rp h.guard) != h.gneg, h⟩ { s with free := s.free + un.length }

/-- A form of team streams only (R35); a matrix stream traps ILLEGAL (R37). -/
def runTeam (i : Instr) (h : Hdr) (nd : State → Nat → Team → Need) (s : State) (eff : X → State → Res) :
    Host.Outcome State Fault Refusal :=
  match s.cur with
  | .team c slot =>
    match s.team? c slot with
    | none => .fault .noSuchParty
    | some t => .next (settleTeam i h s c slot t (issueTeam i h (nd s c t) s c slot t eff))
  | .ridge c =>
    match s.ridge? c with
    | none => .fault .noSuchParty
    | some r => .next (settleRidge i h s c r (.trap .illegal 0))

/-- A form of matrix streams only. -/
def runRidge (i : Instr) (h : Hdr) (nd : State → Nat → Ridge → Need) (s : State) (eff : XR → State → Res) :
    Host.Outcome State Fault Refusal :=
  match s.cur with
  | .team c slot =>
    match s.team? c slot with
    | none => .fault .noSuchParty
    | some t => .next (settleTeam i h s c slot t (.trap .illegal 0))
  | .ridge c =>
    match s.ridge? c with
    | none => .fault .noSuchParty
    | some r => .next (settleRidge i h s c r (issueRidge i h (nd s c r) s c r eff))

/-- A form of both streams. -/
def runBoth (i : Instr) (h : Hdr) (ndT : State → Nat → Team → Need) (ndR : State → Nat → Ridge → Need)
    (s : State) (effT : X → State → Res) (effR : XR → State → Res) :
    Host.Outcome State Fault Refusal :=
  match s.cur with
  | .team c slot =>
    match s.team? c slot with
    | none => .fault .noSuchParty
    | some t => .next (settleTeam i h s c slot t (issueTeam i h (ndT s c t) s c slot t effT))
  | .ridge c =>
    match s.ridge? c with
    | none => .fault .noSuchParty
    | some r => .next (settleRidge i h s c r (issueRidge i h (ndR s c r) s c r effR))

/-- No further need. -/
def noNeed (_ : State) (_ : Nat) (_ : Team) : Need := {}
def noNeedM (_ : State) (_ : Nat) (_ : Ridge) : Need := {}

end Sys2Proof.Machine
end

