-- ==== Sys2Proof/Machine/Mem.lean ====
section
/-! DEFINITION. Caches, ownership and accesses in flight (R285, R292 to R299): the L2 of a slice, the L1
of a core, when an access may be performed, and what a response delivers. -/

namespace Sys2Proof.Machine

/-- a is older than b, modulo 2^32 (R297). -/
def older (a b : W32) : Bool := (a - b).msb

/-! The L2 of a slice (R285, R292, R297). -/

/-- Ways of the L2 of every slice (R285). -/
def State.l2Ways (s : State) : Nat := 16 - 2 * s.bcSize

/-- The L2 ways a class may fill; a mask that names none acts as all (R292). -/
def State.classWays (s : State) (cls : Nat) : List Nat :=
  let all := List.range s.l2Ways
  let m := all.filter fun w => (s.classes.get ClassReg.zero cls).ways.getLsbD w
  if m.isEmpty then all else m

/-- The victim way among the lines of a set: an absent way of the mask, else the lowest of age 3, ages
being raised until there is one (R292). -/
def victim : Nat → List Nat → List L2Line → Nat × List L2Line
  | 0, mask, ls => (mask.headD 0, ls)
  | fuel + 1, mask, ls =>
    match mask.find? fun w => !(ls.any fun l => l.way == w) with
    | some w => (w, ls)
    | none =>
      match mask.find? fun w => ls.any fun l => l.way == w && l.age == 3 with
      | some w => (w, ls)
      | none => victim fuel mask (ls.map fun l => if mask.contains l.way then { l with age := l.age + 1 } else l)

/-- Raises a floor above an evicted version (R297). -/
def raiseFloor (floor v : W32) : W32 := if older v floor then floor else v + 1

/-- The L2 set of a line (log 11). -/
def l2Set (line : Nat) : Nat := Config.cacheSet 2 line % 2048

/-- Bytes of a line of 128 that need no transfer in a block state: 0 raw, 1 256 B, 2 128 B, 3 all-zero (R293; a line's share of
its block, DESIGN CHOICE log 47). -/
def lineSaved (st : Nat) : Nat := match st with | 0 => 0 | 1 => 64 | 2 => 96 | _ => 128

/-- A line of HBM4E is transferred between memory and the L2: what compression saves is counted (R293). -/
def State.saved (s : State) (pa : Nat) : State :=
  let n := if fld pa 45 2 = 0 then lineSaved (s.comp.get 0 (pa / 512)) else 0
  if n = 0 then s else s.bump .compsave (s.homeOf pa).1 n

/-- A line is written to memory: its block takes a state, raw for a class with COMP = 0, for one with COMP = 1 an open one among
those that fit its content (R293). -/
def State.compress (s : State) (pa cls : Nat) : State :=
  let blk := pa / 512
  if fld pa 45 2 != 0 then s
  else if !(s.classes.get ClassReg.zero cls).comp then { s with comp := s.comp.del blk }
  else
    let zero := (s.memRead (blk * 512) 512).all fun b => b == 0
    let st := Config.freeNat s.free % (if zero then 4 else 3)
    State.saved { s with comp := s.comp.set 0 blk st }.tickFree pa

/-- Whether a class writes a line through to memory as a write of it is performed (R285, R292): WPOL 01, WPOL 10, and where the
slice has no L2 ways. -/
def State.through (s : State) (cls : Nat) : Bool :=
  let p := (s.classes.get ClassReg.zero cls).wpol
  s.l2Ways == 0 || p == 1 || p == 2

/-- The lines that leave the L2 are written to memory where they are dirty (R292, R293). -/
def State.writeBack (s : State) (out : List L2Line) : State :=
  (out.filter L2Line.dirty).foldl (fun s e => s.compress (e.line * 128) e.cls) s

/-- A line is read or written at its home slice: it is brought in where absent, and a write raises its version (R292, R297). What
moves between the slice and memory moves then: a line brought in, a dirty one that leaves, and the data of a class that writes
through (R285, R293). -/
def State.l2Access (s : State) (pa cls : Nat) (write : Bool) : State × W32 :=
  let k := s.sliceNo pa
  let line := pa / 128
  let sl := s.slice k
  let up : W32 := if write then 1 else 0
  let soon := write && s.through cls
  let put (s : State) : State := if soon then s.compress pa cls else s
  match sl.l2.find? fun e => e.line == line with
  | some e =>
    let v := e.ver + up
    (put (s.setSlice k { sl with
      l2 := sl.l2.map fun x => if x.line == line then { x with age := 0, ver := v, dirty := x.dirty || (write && !soon) } else x }), v)
  | none =>
    let v := sl.floor + 1 + up
    let c := s.classes.get ClassReg.zero cls
    let s := s.saved pa
    if s.l2Ways = 0 || c.wpol == 2 then (put (s.setSlice k { sl with floor := raiseFloor sl.floor v }), v)
    else
      let same := sl.l2.filter fun e => l2Set e.line == l2Set line
      let rest := sl.l2.filter fun e => l2Set e.line != l2Set line
      let (w, same) := victim 4 (s.classWays cls) same
      let out := same.filter fun e => e.way == w
      let floor := out.foldl (fun f e => raiseFloor f e.ver) sl.floor
      let same := same.filter fun e => e.way != w
      let s := s.setSlice k { sl with l2 := ⟨line, w, c.age.toNat, v, write && !soon, cls⟩ :: same ++ rest, floor := floor }
      (put (s.writeBack out), v)

/-- A unit or a walker reads a line at its home (R289, R296): the home brings it in, and corrects a single-bit error (R394). A read of
another package takes the next number for it (R302, R389). -/
def State.readAt (s : State) (k cls : Nat) : State :=
  let s := s.corrected k
  if 2 ^ 56 ≤ k then s
  else if s.local_ k then (s.l2Access k cls false).1
  else { s with sent := s.sent.put (pkgOf k) ((s.sent.get 0 (pkgOf k) + 1) % 2 ^ 32) }

/-! Translations of a core (R290). -/

/-- The party whose turn it is, where it stands on a core: its slot and pc. -/
def State.curAt (s : State) (core : Nat) : Nat × Nat :=
  match s.cur with
  | .team c slot => if c == core then (slot, match s.team? c slot with | some t => t.pc | none => 0) else (0, 0)
  | .ridge c => if c == core then (0, match s.ridge? c with | some r => r.pc | none => 0) else (0, 0)

/-- A slice of this package meets an uncorrectable error in what it holds (R371). -/
def State.noteEcc (s : State) (key : Nat) : State :=
  if key < 2 ^ 56 && s.local_ key then s.setSlice (s.sliceNo key) { s.slice (s.sliceNo key) with ecc := key } else s

/-- A walk of a stack reads the entries of an address at their homes (R289); the class of their lines is 0 (DESIGN CHOICE, log 47). -/
def State.walkedReads (s : State) (ctx va : Nat) : State :=
  let ks := s.walkReads ctx va
  let s := match ks.find? s.eccBad with | some k => s.noteEcc k | none => s
  ks.foldl (fun s k => s.readAt k 0) s

/-- A walk starts at a stack, or a miss joins the one in flight of its page; a walker serves it until it ends, where one is free
(R290, R294). -/
def State.startWalk (s : State) (st core ctx va : Nat) : State :=
  if s.walking st ctx va then s.bump .walkjoin st 1
  else
    let s := (s.walkedReads ctx va).bump .walks st 1
    if 64 ≤ s.walkersBusy st then s else { s with walks := s.walks ++ [⟨st, core, ctx, va, none⟩] }

/-- A translation of a core: a miss is counted with its walk, or with the walk in flight that it joins (R290, R294). The access has
the translation in the step that asks for it, and the TLB has it once the walk ends (log 47). An uncorrectable error in an entry
that the walk reads is an ECC fault of the core (R394). -/
def State.tlbFill (s : State) (core ctx va : Nat) : State :=
  if (s.core core).tlb.any fun e => e.hits ctx va then s
  else
    let t := (s.bump .tlbmiss core 1).startWalk (stackOf core) core ctx va
    if s.walkBad ctx va then t.fatalAt core (s.curAt core).1 .ecc (s.curAt core).2 (BitVec.ofNat 64 va) else t

/-- As tlbFill for several addresses, of which those of one page of 64 KiB ask once. -/
def State.tlbFills (s : State) (core ctx : Nat) (vas : List Nat) : State :=
  (vas.map (· / 65536)).dedup.foldl (fun s p => s.tlbFill core ctx (p * 65536)) s

/-- The fetch translation is asked for a word that the instruction cache does not hold (R10, R14, R33). -/
def State.fetchFill (s : State) (core ctx va : Nat) : State :=
  if ((s.core core).icWord ctx va).isSome then s else s.tlbFill core ctx va

/-! The L1 of a core (R285, R296, R298). -/

/-- A line that the L1 holds: one with a parity error is dropped, and fetched again from its home (R394). -/
def Core.l1Line (c : Core) (line : Nat) : Option L1Line := c.l1.find? fun l => l.line == line && !l.bad

/-- Words of a line that an access of len bytes at a physical address touches. -/
def wordsOf (pa len : Nat) : List Nat := (List.range ((pa + len - 1) / 4 + 1 - pa / 4)).map fun i => pa / 4 + i

/-- Words wholly covered by an access. -/
def fullWords (pa len : Nat) : List Nat := (wordsOf pa len).filter fun w => pa ≤ 4 * w && 4 * w + 4 ≤ pa + len

def validWord (l : L1Line) (w : Nat) : Bool := l.valid.getLsbD (w % 32)
def bit32 (n : Nat) : BitVec 32 := 1#32 <<< n

/-- The line with bytes written at an offset. -/
def putBytes (old : List Byte) (off : Nat) (bs : List Byte) : List Byte :=
  old.take off ++ bs ++ old.drop (off + bs.length)

/-- What stays of a cache as a line enters: where the line's set is full, one of it leaves that the manual does not name (log 11). -/
def stays {α : Type} [DecidableEq α] (cache sets ways line n : Nat) (lineOf : α → Nat) (l : List α) : List α :=
  if l.length < ways then l
  else
    let same := l.filter fun x => Config.cacheSet cache (lineOf x) % sets == Config.cacheSet cache line % sets
    let out := if same.length < ways then none else same[Config.victim cache line n % same.length]?
    l.filter fun x => some x != out

/-- A line enters the L1, of 128 sets of 8 ways (R285); n is the number of the fill. -/
def Core.l1Put (c : Core) (l : L1Line) (n : Nat) : Core :=
  { c with l1 := l :: stays 0 128 8 l.line n L1Line.line (c.l1.filter fun x => x.line != l.line) }

/-- A fill keeps the words the core owns in its copy; any other word of an unacknowledged store of the core is invalid after it, so
that a read of it waits (R296, log 17). -/
def Core.fill (c : Core) (line : Nat) (bytes : List Byte) (ver : W32) (busy : List Nat) (n : Nat) : Core :=
  let old := c.l1Line line
  let keep (w : Nat) : Bool := match old with
    | some o => c.own.get false (32 * line + w) && o.valid.getLsbD w
    | none => false
  let bs := (List.range 128).map fun i =>
    if keep (i / 4) then (match old with | some o => o.bytes.getD i 0 | none => 0) else bytes.getD i 0
  let valid := (List.range 32).foldl (fun (v : BitVec 32) w =>
    if keep w || !busy.contains (32 * line + w) then v ||| bit32 w else v) 0
  c.l1Put ⟨line, bs, valid, ver, false⟩ n

/-- A store updates the L1 copy of its line, and the core owns the whole words it covers from its issue
(R285, R296). -/
def Core.l1Store (c : Core) (pa : Nat) (bs : List Byte) : Core :=
  let own := (fullWords pa bs.length).foldl (fun o w => o.put w true) c.own
  let valid := (fullWords pa bs.length).foldl (fun (v : BitVec 32) w => v ||| bit32 (w % 32)) 0
  { c with
    own := own,
    l1 := c.l1.map fun l =>
      if l.line == pa / 128 then { l with bytes := putBytes l.bytes (pa % 128) bs, valid := l.valid ||| valid }
      else l }

/-- A revocation invalidates a word in the L1 copy and ends the core's ownership (R296). -/
def Core.revokeWord (c : Core) (w : Nat) : Core :=
  { c with
    own := c.own.del w,
    l1 := c.l1.map fun l => if l.line == w / 32 then { l with valid := l.valid &&& ~~~bit32 (w % 32) } else l }

/-- The L1 drops every word the core does not own (R298). -/
def Core.selfInvalidate (c : Core) : Core :=
  let l1 := c.l1.map fun l =>
    { l with valid := (List.range 32).foldl (fun (v : BitVec 32) w =>
        if c.own.get false (32 * l.line + w) then v else v &&& ~~~bit32 w) l.valid }
  { c with l1 := l1.filter fun l => l.valid != 0 }

/-- Whether the L1 serves a read for a team: its words are valid and the copy is not older than the
last result delivered to the team for the line (R297). -/
def Core.l1Hit (c : Core) (vers : Tbl W32) (pa len : Nat) : Option (List Byte) :=
  match c.l1Line (pa / 128) with
  | none => none
  | some l =>
    let stale := match vers.find (pa / 128) with | some v => older l.ver v | none => false
    if !stale && (wordsOf pa len).all (validWord l) then some ((l.bytes.drop (pa % 128)).take len) else none

/-! Accesses in flight. -/

def Access.isWrite (a : Access) : Bool := match a.kind with | .write _ => true | _ => false
def Access.isRead (a : Access) : Bool := match a.kind with | .read => true | _ => false
/-- Whether two accesses touch a common byte. -/
def Access.meets (a b : Access) : Bool := a.key < b.key + b.len && b.key < a.key + a.len
/-- Whether they touch a common 4-byte word. -/
def Access.meetsWord (a b : Access) : Bool :=
  a.key / 4 ≤ (b.key + b.len - 1) / 4 && b.key / 4 ≤ (a.key + a.len - 1) / 4
/-- A global access (R165). -/
def Access.global (a : Access) : Bool := a.key < 2 ^ 56

def State.access? (s : State) (id : Nat) : Option Access := s.accs.find? fun a => a.id == id
def State.dropAccess (s : State) (id : Nat) : State := { s with accs := s.accs.filter fun a => a.id != id }
def State.modAccess (s : State) (id : Nat) (f : Access → Access) : State :=
  { s with accs := s.accs.map fun a => if a.id == id then f a else a }

/-- Whether the packet of an access may have been sent (R389): its number is less than 65,536 above every earlier one to its package
that is still to be acknowledged. -/
def State.inWindow (s : State) (a : Access) : Bool :=
  match a.pkgSeq with
  | none => true
  | some (d, n) => s.accs.all fun b => match b.pkgSeq with
      | some (e, m) => e != d || a.id ≤ b.id || decide ((n + 2 ^ 32 - m) % 2 ^ 32 < 65536)
      | none => true

/-- Whether an access may be performed now (R175, R189, R190, R296 to R299): earlier accesses of its party to its bytes come first,
reads too, so that no result goes back in version (R297, R304), atomics of one instruction go in lane order, what it must wait for
is gone, and a read waits for its core's own store to its words. Two atomics of one team to common bytes are performed in program
order, though they belong to different instructions: R303 orders a team's accesses, where R135 and R190 leave the order at a word's
home open (DESIGN CHOICE, log 47). -/
def State.mayPerform (s : State) (a : Access) : Bool :=
  a.stage == 0 &&
  s.inWindow a && s.accs.all fun b =>
    b.id == a.id ||
    (!(b.uid == a.uid && b.id < a.after) &&
     !(b.uid == a.uid && b.id < a.id && b.stage == 0 && a.meets b) &&
     !(b.grp == a.grp && b.id < a.id && b.stage == 0 && !a.isRead && !a.isWrite && !b.isRead && !b.isWrite) &&
     !(a.isRead && a.global && b.core == a.core && b.isWrite && b.global && b.id < a.id && a.meetsWord b))

/-- Whether a party has accesses in flight with numbers below n. -/
def State.owes (s : State) (uid n : Nat) : Bool := s.accs.any fun a => a.uid == uid && a.id < n
/-- Whether a party has an acquire read in flight, after which no later access may be performed (R298). -/
def State.acquiring (s : State) (uid : Nat) : Bool := s.accs.any fun a => a.uid == uid && a.acq && a.stage == 0
/-- Whether a party has reads in flight. -/
def State.reading (s : State) (uid : Nat) : Bool := s.accs.any fun a => a.uid == uid && a.stage == 0 && !a.isWrite

/-- The 128-byte line at home and its version. -/
def State.homeLine (s : State) (pa cls : Nat) : State × List Byte × W32 :=
  if s.local_ pa then
    let (s, v) := s.l2Access pa cls false
    (s, s.memRead (pa / 128 * 128) 128, v)
  else (s.tickFree, s.homeRead (pa / 128 * 128) 128, 0)

/-! Delivery. -/

/-- Lane l of a slice replaced. -/
def setLane (d : BitVec 1024) (l : Nat) (w : W32) : BitVec 1024 :=
  blend (sliceMask (bit32 l)) d (w.zeroExtend 1024 <<< (32 * l))

/-- A loaded value extended to w bits (R189). -/
def extendTo (w len : Nat) (sx : Bool) (v : Nat) : Nat := if sx then wrap w (sgn (8 * len) v) else v

/-- A value arrives for register k of a destination. -/
def State.deliverTo (s : State) (core uid lane : Nat) (d : Dest) (k len : Nat) (sx : Bool) (v : Nat) : State :=
  match d with
  | .slice n =>
    match (s.core core).phys.find n with
    | none => s
    | some p =>
      s.modCore core fun c =>
        { c with phys := c.phys.put n { p with data := setLane p.data (lane % 32) (regOf (extendTo 32 len sx v) k) } }
  | .scalar r =>
    let x := BitVec.ofNat 64 (extendTo 64 len sx v)
    match s.teamOf uid with
    | some (q, t) => { s with teams := s.teams.put q (t.ws (sregAt 0 r) x) }
    | none =>
      match s.ridgeOf uid with
      | some (q, t) => { s with ridges := s.ridges.put q (t.ws (sregAt 0 r) x) }
      | none => s
  | _ => s

/-- A value arrives for every register of a destination. -/
def State.deliver (s : State) (a : Access) (v : Nat) : State :=
  (a.dests.foldl (fun (x : State × Nat) d =>
    (x.1.deliverTo a.core a.uid a.lane d x.2 a.len a.sx v, x.2 + 1)) (s, 0)).1

/-- The slot of a party in its core, for a fault. -/
def State.slotOf (s : State) (uid : Nat) : Nat :=
  match s.teamOf uid with | some (q, _) => q % 16 | none => 0
/-- The pc of a party, for a fault. -/
def State.pcOf (s : State) (uid : Nat) : Nat :=
  match s.teamOf uid with
  | some (_, t) => t.pc
  | none => match s.ridgeOf uid with | some (_, r) => r.pc | none => 0

/-- An uncorrectable error in data a party consumes (R368, R394); one in a word that a unit changes is a fault of its
context's front end. -/
def State.eccFault (s : State) (a : Access) : State :=
  let s := s.noteEcc a.key
  if 65536 ≤ a.core then
    let part := (s.ctx a.ctx).part
    s.fatal part (632 + (s.partn part).first) .ecc 0 0 (BitVec.ofNat 64 a.va)
  else s.fatalAt a.core (s.slotOf a.uid) .ecc (s.pcOf a.uid) (BitVec.ofNat 64 a.va)

/-- A core's L1 invalidates every word the core does not own, and reads already in flight from the core fill it no more, so
that what it holds is never older than this (R298). -/
def State.selfInvalidate (s : State) (core : Nat) : State :=
  { s.modCore core Core.selfInvalidate with
    accs := s.accs.map fun (a : Access) => if a.core == core && a.isRead then { a with noFill := true } else a }

/-- What an acquire does to the core and the team once it is bound (R298). -/
def State.acquired (s : State) (core : Nat) (uid : Nat) : State :=
  let s := s.selfInvalidate core
  match s.teamOf uid with
  | some (q, _) => s.killLoads core (q % 16)
  | none => s

/-- The last version delivered to a team for a line (R297). -/
def State.lastVer (s : State) (uid line : Nat) : Option W32 :=
  match s.teamOf uid with | some (_, t) => t.vers.find line | none => none
def State.noteVer (s : State) (uid line : Nat) (v : W32) : State :=
  match s.teamOf uid with
  | some (q, t) => { s with teams := s.teams.put q { t with vers := t.vers.put line v } }
  | none => s

end Sys2Proof.Machine
end

