-- ==== Sys2Proof/Machine/Fetch.lean ====
section
/-! DEFINITION. Instruction fetch: entry into a header (R10 to R17, R60, R415), full words and dictionary
codes (R24 to R26), and what a party issues next. Also the placement that withFetchWord makes. -/

namespace Sys2Proof.Machine

/-- What a party has to do at its turn: nothing (with what that changes), or an instruction. -/
inductive Prep where
  | idle (s : State)
  | run (s : State) (i : Instr)

/-- A fetch through the instruction cache and the fetch translation (R10, R33). -/
inductive Fetched where
  | word (w : Nat)
  | miss
  | unmapped
  | noexec
deriving DecidableEq, Repr

def State.fetch (s : State) (core ctx va : Nat) : Fetched :=
  match (s.core core).icWord ctx va with
  | some w => .word w
  | none =>
    if s.walkWaits core ctx va then .miss
    else match s.translate core ctx va with
    | .ok e => if e.x then .miss else .noexec
    | .unmapped => .unmapped
    | .noperm => .noexec

/-- Whether the reading of a code word must wait for one of the 64 walkers (R290). -/
def State.fetchWaits (s : State) (core ctx va : Nat) : Bool := ((s.core core).icWord ctx va).isNone && s.walkWaits core ctx va

/-- What a body word or code stands for at an instruction address (R18, R24 to R26); none traps ILLEGAL. A pad that
execution reaches is a misplaced one (R25), and traps at its own address. -/
def bodyWord (bank : Option Bank) (hdrWord pc w : Nat) : Option Nat :=
  if hdrForm hdrWord = 0 then (if pc % 8 = 0 then some w else none)
  else
    let slot := pc % 8 / 2
    let code := codeAt w slot
    if code = padCode || (slot = 0 && fld w 60 4 = 15) then none
    else
      match bank with
      | none => none
      | some b =>
        let ix := code / 64
        if b.dlen ≤ ix then none
        else
          let e := (b.words.getD ix 0).toNat
          if isHeader e || !assigned (fld e 56 8) then none
          else some (e - fld e 50 6 * 2 ^ 50 + code % 64 * 2 ^ 50)

/-- The dictionary bank that a party holds on its core (R27). -/
def Core.bankOf (c : Core) (l : Launch) (ctx : Nat) : Option Bank :=
  if l.dict = 0 then none
  else c.banks.find? fun b => b.ctx == ctx && b.filled == l.bank

/-- A malformed header (R13, R27). -/
def badHeader (w : Nat) (dict : Bool) : Bool :=
  !isHeader w || hdrLen w == 0 || 2 ≤ hdrForm w || fld w 0 7 != 0 || (hdrForm w == 1 && !dict)

/-- The live-in groups of a header (R12, R16) as registers. -/
def liveIn (w : Nat) : Live :=
  ⟨BitVec.ofNat 64 ((List.range 8).foldl (fun acc k => if (fld w 26 8).testBit k then acc + 0xFF * 2 ^ (8 * k) else acc) 0),
    BitVec.ofNat 4 (fld w 22 4), BitVec.ofNat 6 (fld w 16 6)⟩

/-- Whether the 64 cycles after the rise of a halt line are over (R369). -/
def State.haltDue (s : State) (part : Nat) : Bool :=
  match (s.partn part).halting with
  | some h => h.cycle + 64 ≤ s.cycle
  | none => false

/-- Whether a party of a context and core may issue: its partition has not stopped and its context is
not halted by a debugger (R369, R382). -/
def State.mayIssue (s : State) (core ctx : Nat) : Bool :=
  !s.stopped (s.partOf (stackOf core)) && !s.haltDue (s.partOf (stackOf core)) && !(s.ctx ctx).dbgHalt

/-- The instruction at a team's pc, where its line has arrived and it is one (R33). -/
def State.nextInstr (s : State) (c : Nat) (t : Team) : Option Instr :=
  if t.atHdr then none
  else match s.fetch c t.ctx (t.pc / 8 * 8) with
    | .word w => (bodyWord ((s.core c).bankOf t.hdr t.ctx) t.hdrWord t.pc w).bind fun v => (decode v).toOption
    | _ => none

/-- The stall count of an instruction (R18, R28). -/
def stallOf (i : Instr) : Nat := fld ((encode i).getD 0) 50 6

/-- The guard of an instruction as a source (R18, R19). -/
def guardOf (i : Instr) : List Reg :=
  if fld ((encode i).getD 0) 43 7 = 0 then [] else [.p (fld ((encode i).getD 0) 43 7)]

/-- The blocking instructions, whose waits are pre-emption points (R374). -/
def blocking : Instr → Bool
  | .smov _ (.push ..) | .smov _ (.pop ..) | .vmov _ (.push ..) _ | .vmov _ (.pop ..) _ | .refill .. | .wpark ..
  | .fwait .. | .bwait .. | .bsync .. | .launchGrid .. | .launchRecord .. | .copy .. | .copym .. | .chain ..
  | .kvapp .. => true
  | _ => false

/-- Whether a team waits in a blocking instruction, which it has issued. -/
def Team.blocked (t : Team) : Bool := match t.wait with | some w => blocking w.what | none => false

/-- Whether a team is ready (R55): its instruction has arrived, and its stall counts and its tracked dependences allow
its next pass, or it waits to start a pass again. A team that waits in a blocking instruction has issued it; a header takes no
pass. -/
def State.ready (s : State) (c slot : Nat) : Bool :=
  match s.team? c slot with
  | none => false
  | some t => s.mayIssue c t.ctx && t.frozen.isNone &&
    match t.wait with
    | some w => !blocking w.what
    | none => decide (t.due ≤ s.cycle) &&
      match s.nextInstr c t with
      | some i => !(guardOf i ++ (iRegs i).1 ++ (iRegs i).2).any (s.pendingReg c t)
      | none => false

/-- The teams of a core that a team's YIELD still waits for (R75): one that has gone waits for none. -/
def State.yieldsTo (s : State) (c : Nat) (t : Team) : List Nat :=
  t.yield.filter fun u => (List.range 16).any fun k => match s.team? c k with | some o => o.uid == u | none => false

/-- The ready teams of a core that no YIELD holds back (R75): all of them where it would hold every one back. -/
def State.eligibleTeams (s : State) (c : Nat) : List Nat :=
  let rs := (List.range 16).filter (s.ready c)
  let es := rs.filter fun k => rs.length == 1 || match s.team? c k with | some t => (s.yieldsTo c t).isEmpty | none => false
  if es.isEmpty then rs else es

/-- The slots of a core whose turn in this cycle has found that their next pass may not start. -/
def Core.triedIn (c : Core) (cycle : Nat) : List Nat := if c.triedAt = cycle then c.tried else []

/-- The team that issues next: round-robin by slot, beginning after the slot that issued last (R55). -/
def State.chosen (s : State) (c : Nat) : Option Nat :=
  let es := (s.eligibleTeams c).filter fun k => !((s.core c).triedIn s.cycle).contains k
  match es.find? fun k => decide ((s.core c).lastSlot < k) with
  | some k => some k
  | none => es.head?

/-- Whether a pass of a team may start now: the issue unit has chosen it, and starts no other in this cycle (R55). -/
def State.mayStart (s : State) (c slot : Nat) : Bool := s.chosen c == some slot && decide ((s.core c).busy ≤ s.cycle)

/-- A pre-emption request is pending for a block (R373). -/
def State.requested (s : State) (b : Nat) : Bool :=
  match s.block? b with | some x => x.req.isSome | none => false

/-- What a party declares that freezes in a wait: all within its counts, and every region (R374). -/
def atWait : Freeze := ⟨none, BitVec.allOnes 8, false⟩

/-- A team is frozen for a line that its core's instruction cache does not hold: each freeze counts once (R33, R34). -/
def State.slipTeam (s : State) (c slot : Nat) (t : Team) : State :=
  let line := t.pc / 256
  if t.slip = some line then s else (s.setTeam c slot { t with slip := some line }).bump .schSlip c 1
/-- As slipTeam, of a matrix stream. -/
def State.slipRidge (s : State) (c : Nat) (r : Ridge) : State :=
  let line := r.pc / 256
  if r.slip = some line then s else (s.setRidge c { r with slip := some line }).bump .schSlip c 1

/-- A team enters the header at its pc (R10, R13, R60, R415), or goes on where a trap return resumes, which is judged as its word is
read (R14, R366). An ENTRY, MENTRY, TRP_VEC or TRP_MVEC that is not a multiple of 8 is judged as a trap return's target is: the
manual gives no trap of its own for one (DESIGN CHOICE, log 51). -/
def enterTeam (s : State) (c slot : Nat) (t : Team) : State :=
  match t.stk with
  | e :: _ =>
    if e.kind == .div && e.pc1 == t.pc then
      match reconverge (t.stk.length + 1) t with
      | .stay t' => s.setTeam c slot t'
      | .retired t' => s.retire c slot t'
      | .ret t' e' => s.trapReturn c slot t' e'
    else header
  | [] => header
where
  header : State :=
    let a := t.pc / 8 * 8
    match s.fetch c t.ctx a with
    | .miss => s.slipTeam c slot t
    | .unmapped => (s.fetchFill c t.ctx a).takeTrap c slot t .page (BitVec.ofNat 64 t.pc) t.pc
    | .noexec => (s.fetchFill c t.ctx a).fatalAt c slot .prot t.pc (BitVec.ofNat 64 t.pc)
    | .word w =>
      match if t.pc % 8 ≠ 0 || t.back then s.resumeAt c t.ctx t.pc else .header with
      | .body b hw => s.setTeam c slot { t with atHdr := false, hdrAddr := b, hdrWord := hw, back := false }
      | .header =>
        if badHeader w ((s.core c).bankOf t.hdr t.ctx).isSome then s.takeTrap c slot t .illegalHeader 0 t.pc
        else
          let t' := { t with hdrAddr := t.pc, hdrWord := w, pc := t.pc + 8, atHdr := false, back := false }
          if hdrPpoint w && s.requested t.blk then s.freezeTeam c slot t' ⟨some (liveIn w), BitVec.allOnes 8, false⟩
          else s.setTeam c slot t'
      | _ => s.takeTrap c slot t .illegalTarget (BitVec.ofNat 64 t.pc) t.pc

/-- A matrix stream enters the header at its pc (R10, R13, R62, R374), or goes on where a trap return resumes, as enterTeam. -/
def enterRidge (s : State) (c : Nat) (r : Ridge) : State :=
  let a := r.pc / 8 * 8
  match s.fetch c r.ctx a with
  | .miss => s.slipRidge c r
  | .unmapped => (s.fetchFill c r.ctx a).takeTrapM c r .page (BitVec.ofNat 64 r.pc) r.pc
  | .noexec => (s.fetchFill c r.ctx a).fatalAt c 0 .prot r.pc (BitVec.ofNat 64 r.pc)
  | .word w =>
    match if r.pc % 8 ≠ 0 || r.back then s.resumeAt c r.ctx r.pc else .header with
    | .body b hw => s.setRidge c { r with atHdr := false, hdrAddr := b, hdrWord := hw, back := false }
    | .header =>
      if badHeader w ((s.core c).bankOf r.hdr r.ctx).isSome then s.takeTrapM c r .illegalHeader 0 r.pc
      else
        let r' := { r with hdrAddr := r.pc, hdrWord := w, pc := r.pc + 8, atHdr := false, back := false }
        if hdrPpoint w && s.requested r.blk then s.freezeRidge c r' atWait else s.setRidge c r'
    | _ => s.takeTrapM c r .illegalTarget (BitVec.ofNat 64 r.pc) r.pc

/-- Where a fetch that traps PAGE resumes (R10): the block's header while no instruction of it has issued. -/
def fetchResume (hdrAddr pc : Nat) : Nat := if pc = hdrAddr + 8 then hdrAddr else pc

/-- The turn of a team: it goes on waiting, enters a header, traps at a word that stands for no instruction, or issues
where it is its turn (R55). -/
def prepTeam (s : State) (c slot : Nat) (t : Team) : Prep :=
  if !s.mayIssue c t.ctx || t.frozen.isSome then .idle s
  else
    match t.wait with
    | some w => if blocking w.what || s.mayStart c slot then .run s w.what else .idle s
    | none =>
      if t.atHdr then .idle (enterTeam s c slot t)
      else
        let a := t.pc / 8 * 8
        match s.fetch c t.ctx a with
        | .miss => .idle (s.slipTeam c slot t)
        | .unmapped => .idle ((s.fetchFill c t.ctx a).takeTrap c slot t .page (BitVec.ofNat 64 a) (fetchResume t.hdrAddr t.pc))
        | .noexec => .idle ((s.fetchFill c t.ctx a).fatalAt c slot .prot (fetchResume t.hdrAddr t.pc) (BitVec.ofNat 64 a))
        | .word w =>
          match bodyWord ((s.core c).bankOf t.hdr t.ctx) t.hdrWord t.pc w with
          | none => .idle (s.takeTrap c slot t .illegal 0 t.pc)
          | some w =>
            match decode w with
            | .ok i => if s.mayStart c slot then .run s i else .idle s
            | .error _ => .idle (s.takeTrap c slot t .illegal 0 t.pc)

/-- The turn of a matrix stream, which has a pipe of its own (R55). -/
def prepRidge (s : State) (c : Nat) (r : Ridge) : Prep :=
  if !s.mayIssue c r.ctx || r.frozen.isSome || r.ended then .idle s
  else
    match r.wait with
    | some w => .run s w.what
    | none =>
      if r.atHdr then .idle (enterRidge s c r)
      else
        let a := r.pc / 8 * 8
        match s.fetch c r.ctx a with
        | .miss => .idle (s.slipRidge c r)
        | .unmapped => .idle ((s.fetchFill c r.ctx a).takeTrapM c r .page (BitVec.ofNat 64 a) (fetchResume r.hdrAddr r.pc))
        | .noexec => .idle ((s.fetchFill c r.ctx a).fatalAt c 0 .prot (fetchResume r.hdrAddr r.pc) (BitVec.ofNat 64 a))
        | .word w =>
          match bodyWord ((s.core c).bankOf r.hdr r.ctx) r.hdrWord r.pc w with
          | none => .idle (s.takeTrapM c r .illegal 0 r.pc)
          | some w =>
            match decode w with
            | .ok i => if r.due ≤ s.cycle then .run s i else .idle s
            | .error _ => .idle (s.takeTrapM c r .illegal 0 r.pc)

/-- The turn of a party; nothing where it is not resident, or names none of a core's 16 slots. -/
def prep (s : State) : Party → Prep
  | .team c slot => match s.team? c slot with | some t => if slot < 16 then prepTeam s c slot t else .idle s | none => .idle s
  | .ridge c => match s.ridge? c with | some r => prepRidge s c r | none => .idle s

/-! What an issued instruction leaves of its party's pace (R28, R54, R55, R75). -/

/-- The first cycle in which the next instruction's first pass may start, after an instruction whose last pass starts in a cycle
(R28): its stall count later, or once every result in flight has been written. -/
def dueAfter (i : Instr) (last : Nat) (shs : List Shadow) : Nat :=
  if stallOf i = 0 then shs.foldl (fun n sh => if sh.done then n else max n sh.due) (last + 1) else last + stallOf i

/-- A team starts n passes: the core is busy for them, the teams that yielded to it wait for it no more, and its own yield is over
(R55, R75). -/
def State.startPasses (s : State) (c slot : Nat) (t : Team) (i : Instr) (n : Nat) : State :=
  let s := s.modCore c fun x => { x with lastSlot := slot, busy := max x.busy (s.cycle + n) }
  let yields := match i with | .yield .. => true | _ => false
  (List.range 16).foldl (fun s k => s.modTeam c k fun o =>
    if o.uid == t.uid then (if yields then o else { o with yield := [] })
    else { o with yield := o.yield.filter (· != t.uid) }) s

/-- A team has issued an instruction, or the rest of one: its next pass waits for its pace. -/
def State.issuedTeam (s : State) (c slot : Nat) (t : Team) (i : Instr) : State :=
  let n := passesIn i t.act t.lo 32
  let s := if t.blocked then s else s.startPasses c slot t i n
  let last := if t.blocked then s.cycle else s.cycle + n - 1
  s.modTeam c slot fun o => if o.uid = t.uid then { o with due := dueAfter i last o.shadows } else o

/-- A matrix stream has issued an instruction. -/
def State.issuedRidge (s : State) (c : Nat) (r : Ridge) (i : Instr) : State :=
  s.modRidge c fun o => if o.uid = r.uid then { o with due := dueAfter i s.cycle o.shadows } else o

/-- The turn of a slot has found that its next pass may not start; another slot may be chosen in this cycle (R55). -/
def State.triedSlot (s : State) (c slot : Nat) : State :=
  s.modCore c fun x => { x with tried := slot :: x.triedIn s.cycle, triedAt := s.cycle }

/-- Whether a team has done nothing but take a trap at its instruction, of which no pass has started. -/
def Team.trapped (t o : Team) : Bool :=
  match o.stk with | e :: rest => e.kind == .trap && e.pc1 == t.pc && rest == t.stk | [] => false

/-- What a team's turn leaves beyond its instruction's meaning, which has left it as o. One that neither waits nor holds has issued; a
blocking one has as it begins to wait, and other passes that have slices start. A party that goes on waiting in a blocking
instruction with a pre-emption request pending freezes there (R374): a trap that stands at the instruction, or a message already
accepted, goes first (R274, R379). -/
def State.ranTeam (s : State) (c slot : Nat) (t o : Team) (i : Instr) (s' : State) : State :=
  if o = t then
    (if !t.blocked then s'.triedSlot c slot
     else if s.requested t.blk then s'.freezeTeam c slot t atWait else s')
  else match o.wait with
    | some (.passes _ w _ _) => if w = t.lo then s'.triedSlot c slot else s'.startPasses c slot t i (passesIn i t.act t.lo w)
    | some w => if t.wait.isSome then s' else if blocking w.what then s'.startPasses c slot t i (passesIn i t.act 0 32) else s'.triedSlot c slot
    | none => if t.trapped o then s' else s'.issuedTeam c slot t i

/-- What a party's turn leaves beyond its instruction's meaning. -/
def State.ran (s : State) (p : Party) (i : Instr) (s' : State) : State :=
  match p with
  | .team c slot =>
    (match s.team? c slot, s'.team? c slot with
     | some t, some o => s.ranTeam c slot t o i s'
     | some t, none => s'.issuedTeam c slot t i
     | none, _ => s')
  | .ridge c =>
    (match s.ridge? c with
     | none => s'
     | some r =>
       if s'.ridge? c = some r then
         (if r.wait.isSome && s.requested r.blk && blocking i then s'.freezeRidge c r atWait else s')
       else if ((s'.ridge? c).bind Ridge.wait).isSome then s'
       else s'.issuedRidge c r i)

/-! The placement of withFetchWord (log 9): a block of context 1 on core 0, with one team of 32 lanes
of which lane 0 is active, and a matrix stream, at the first body word of a block of one word. -/

def placeCode : Nat := 0x10000
def placePa : Nat := 0x100000
/-- A header of one full word. -/
def placeHdr : Nat := 0xF010000000000000

def placeLaunch : Launch :=
  { Launch.zero with
    entry := placeCode, mentry := placeCode, f := [5, 0, 0, 0, 0, 0], nb := 128, depth := 16, nv := 64,
    ns := 64, np := 96, words := 1, teams := 1, blocks := 1, pack := 4096, pl := 64,
    args := [0, 0, 0, 0, 0, 0, 0, 0] }

/-- Page tables that map the code page at placePa, executable, readable and writable. -/
def placeTables : List (Nat × Nat) :=
  [(0x200000, 2 ^ 63 + 0x201000), (0x201000, 2 ^ 63 + 0x202000), (0x202000, 2 ^ 63 + 0x203000),
   (0x203000, 2 ^ 63 + 0x204000), (0x204000 + 8, 2 ^ 63 + 2 ^ 59 + 2 ^ 58 + 2 ^ 57 + 2 ^ 56 + placePa)]

def placeTeam : Team :=
  { uid := 2, ctx := 1, blk := 1, num := 0, hdr := placeLaunch, pc := placeCode + 8, atHdr := false,
    hdrAddr := placeCode, hdrWord := placeHdr, act := 1, stk := [], sreg := [], preg := [], vmap := [],
    view := [], qb := [], wid := [], arg := [], depth := 0, fstat := 0, check := false, shadows := [],
    wait := none, yield := [], frozen := none, gather := [], vers := [], relSeq := 0, dom := none,
    launch := none }

def placeRidge : Ridge :=
  { uid := 3, ctx := 1, blk := 1, hdr := placeLaunch, pc := placeCode + 8, atHdr := false,
    hdrAddr := placeCode, hdrWord := placeHdr, sreg := [], preg := [], rstk := [], trap := none,
    check := false, shadows := [], wait := none, frozen := none, ended := false, depth := 0 }

def placeBlock : Block :=
  { ctx := 1, core := 0, hdr := placeLaunch, ord := 0, isRec := false, launch := none,
    bars := (List.range 128).map fun b => (b, ⟨2, 0, 0, false, 0, 0, false⟩), tiles := [], accs := [],
    outl := [], mma := [], arr := [], req := none, depth := 0, attn := none }

/-- Opcodes issued on matrix streams only (R35). -/
def ridgeOnly (opc : Nat) : Bool := opc == 0xB0 || (0xB2 ≤ opc && opc ≤ 0xB7) || opc == 0xBD

/-- The state with a word placed where the party's next fetch reads it. -/
def State.place (s : State) (w : Nat) : State :=
  let s := placeTables.foldl (fun s e => s.memWrite e.1 (toLe 8 e.2)) s
  let s := (s.memWrite placePa (toLe 8 placeHdr)).memWrite (placePa + 8) (toLe 8 w)
  let s := s.modCtx 1 fun x => { x with created := true, ptroot := 0x200 }
  let s := s.modCore 0 fun x => { x with
    icache := [⟨1, placeCode / 256, [BitVec.ofNat 64 placeHdr, BitVec.ofNat 64 w], 0, false⟩] }
  let s := ((s.setTeam 0 0 placeTeam).setRidge 0 placeRidge).setBlock 1 placeBlock
  { s with
    seq := 4
    agenda := [.issue (if ridgeOnly (fld w 56 8) then .ridge 0 else .team 0 0)] }

end Sys2Proof.Machine
end

