-- ==== Sys2Proof/Machine/Integer.lean ====
section
/-! DEFINITION. Integer arithmetic, compares, selects, bit fields and addresses (R141 to R146) and the
checksum (R163). -/

namespace Sys2Proof.Machine

/-- An element read as its type says (R142). -/
def asInt (ty : ITy) (x : Nat) : Int := if ty.signed then sgn ty.w x else x

/-- The exact result of an operation on elements (R141). -/
def exactOp (o : IOp) (ty : ITy) (a b c : Nat) : Int :=
  let x := asInt ty a
  let y := asInt ty b
  match o with
  | .add => x + y
  | .sub => x - y
  | .mul => x * y
  | .mulh => x * y / (2 ^ ty.w : Nat)
  | .mad => x * y + asInt ty c
  | .and => (a &&& b : Nat)
  | .or => (a ||| b : Nat)
  | .xor => (a ^^^ b : Nat)
  | .shl => if ty.w ≤ b then 0 else (a * 2 ^ b : Nat)
  | .shr => if ty.w ≤ b then 0 else (a / 2 ^ b : Nat)
  | .sar => sgn ty.w a / (2 ^ min b ty.w : Nat)
  | .min => min x y
  | .max => max x y

/-- The result of an operation on elements, saturated where asked and wrapped (R142). -/
def elemOp (o : IOp) (ty : ITy) (sat : Bool) (a b c : Nat) : Nat :=
  let x := exactOp o ty a b c
  let lo : Int := if ty.signed then -(2 ^ (ty.w - 1) : Nat) else 0
  let hi : Int := if ty.signed then (2 ^ (ty.w - 1) : Nat) - 1 else (2 ^ ty.w : Nat) - 1
  wrap ty.w (if sat then min (max x lo) hi else x)

/-- Elements of a type in its register or pair (R138). -/
def elems (ty : ITy) : Nat := if ty.wide then 1 else 32 / ty.w

/-- An operation on all the elements of an operand (R138). -/
def packedOp (o : IOp) (ty : ITy) (sat : Bool) (a b c : Nat) : Nat :=
  perElem ty.w (fun k => elemOp o ty sat (elem ty.w k a) (elem ty.w k b) (elem ty.w k c)) (elems ty)

/-- A scalar result of width w, sign- or zero-extended (R143). -/
def extendS (ty : ITy) (x : Nat) : W64 := BitVec.ofInt 64 (asInt ty x)

/-- An operation on scalars (R143). -/
def scalOp (o : IOp) (ty : ITy) (sat : Bool) (a b c : W64) : W64 :=
  let w (x : W64) := x.toNat % 2 ^ ty.w
  extendS ty (elemOp o ty sat (w a) (w b) (w c))

/-- An S form: once for the team, or for the matrix stream. -/
def sForm (i : Instr) (h : Hdr) (s : State) (d : SReg) (f : (SReg → W64) → W64) :
    Host.Outcome State Fault Refusal :=
  runBoth i h noNeed noNeedM s
    (fun x s => if x.adm = 0 then .done s else scalResult i x s d (f x.src.team.rs))
    (fun x s => if !x.adm then .done s else scalResultM i x s d (f x.src.rs))

/-- The S form of a paired operation. -/
def sInt (i : Instr) (h : Hdr) (o : IOp) (ty : ITy) (sat : Bool) (d a b c : SReg) (s : State) :
    Host.Outcome State Fault Refusal :=
  sForm i h s d fun rs => scalOp o ty sat (rs a) (rs b) (rs c)

/-- A V form whose result of n registers is f of each lane. -/
def vForm (i : Instr) (h : Hdr) (s : State) (d : VReg) (n : Nat) (f : Src → Nat → Nat) :
    Host.Outcome State Fault Refusal :=
  runTeam i h noNeed s fun x s => vecOut i x s d n (f x.src)

/-- The V form of a paired operation. -/
def vInt (i : Instr) (h : Hdr) (o : IOp) (ty : ITy) (sat : Bool) (d : VReg) (a b c : VS) (s : State) :
    Host.Outcome State Fault Refusal :=
  vForm i h s d (itN ty) fun x l =>
    packedOp o ty sat (x.num ty.wide a l) (x.num ty.wide b l) (x.num ty.wide c l)

def execSadd (h : Hdr) (d a b : SReg) (ty : ITy) (sat : Bool) (s : State) : Host.Outcome State Fault Refusal :=
  sInt (.sadd h d a b ty sat) h .add ty sat d a b 0 s
def execVadd (h : Hdr) (d : VReg) (a b : VS) (ty : ITy) (sat : Bool) (s : State) : Host.Outcome State Fault Refusal :=
  vInt (.vadd h d a b ty sat) h .add ty sat d a b a s
def execSsub (h : Hdr) (d a b : SReg) (ty : ITy) (sat : Bool) (s : State) : Host.Outcome State Fault Refusal :=
  sInt (.ssub h d a b ty sat) h .sub ty sat d a b 0 s
def execVsub (h : Hdr) (d : VReg) (a b : VS) (ty : ITy) (sat : Bool) (s : State) : Host.Outcome State Fault Refusal :=
  vInt (.vsub h d a b ty sat) h .sub ty sat d a b a s
def execSmul (h : Hdr) (d a b : SReg) (ty : ITy) (s : State) : Host.Outcome State Fault Refusal :=
  sInt (.smul h d a b ty) h .mul ty false d a b 0 s
def execVmul (h : Hdr) (d : VReg) (a b : VS) (ty : ITy) (s : State) : Host.Outcome State Fault Refusal :=
  vInt (.vmul h d a b ty) h .mul ty false d a b a s
def execSmulh (h : Hdr) (d a b : SReg) (ty : ITy) (s : State) : Host.Outcome State Fault Refusal :=
  sInt (.smulh h d a b ty) h .mulh ty false d a b 0 s
def execVmulh (h : Hdr) (d : VReg) (a b : VS) (ty : ITy) (s : State) : Host.Outcome State Fault Refusal :=
  vInt (.vmulh h d a b ty) h .mulh ty false d a b a s
def execSmad (h : Hdr) (d a b c : SReg) (ty : ITy) (s : State) : Host.Outcome State Fault Refusal :=
  sInt (.smad h d a b c ty) h .mad ty false d a b c s
def execVmad (h : Hdr) (d : VReg) (a b c : VS) (ty : ITy) (s : State) : Host.Outcome State Fault Refusal :=
  vInt (.vmad h d a b c ty) h .mad ty false d a b c s
def execSand (h : Hdr) (d a b : SReg) (ty : ITy) (s : State) : Host.Outcome State Fault Refusal :=
  sInt (.sand h d a b ty) h .and ty false d a b 0 s
def execVand (h : Hdr) (d : VReg) (a b : VS) (ty : ITy) (s : State) : Host.Outcome State Fault Refusal :=
  vInt (.vand h d a b ty) h .and ty false d a b a s
def execSor (h : Hdr) (d a b : SReg) (ty : ITy) (s : State) : Host.Outcome State Fault Refusal :=
  sInt (.sor h d a b ty) h .or ty false d a b 0 s
def execVor (h : Hdr) (d : VReg) (a b : VS) (ty : ITy) (s : State) : Host.Outcome State Fault Refusal :=
  vInt (.vor h d a b ty) h .or ty false d a b a s
def execSxor (h : Hdr) (d a b : SReg) (ty : ITy) (s : State) : Host.Outcome State Fault Refusal :=
  sInt (.sxor h d a b ty) h .xor ty false d a b 0 s
def execVxor (h : Hdr) (d : VReg) (a b : VS) (ty : ITy) (s : State) : Host.Outcome State Fault Refusal :=
  vInt (.vxor h d a b ty) h .xor ty false d a b a s
def execSshl (h : Hdr) (d a b : SReg) (ty : ITy) (s : State) : Host.Outcome State Fault Refusal :=
  sInt (.sshl h d a b ty) h .shl ty false d a b 0 s
def execVshl (h : Hdr) (d : VReg) (a b : VS) (ty : ITy) (s : State) : Host.Outcome State Fault Refusal :=
  vInt (.vshl h d a b ty) h .shl ty false d a b a s
def execSshr (h : Hdr) (d a b : SReg) (ty : ITy) (s : State) : Host.Outcome State Fault Refusal :=
  sInt (.sshr h d a b ty) h .shr ty false d a b 0 s
def execVshr (h : Hdr) (d : VReg) (a b : VS) (ty : ITy) (s : State) : Host.Outcome State Fault Refusal :=
  vInt (.vshr h d a b ty) h .shr ty false d a b a s
def execSsar (h : Hdr) (d a b : SReg) (ty : ITy) (s : State) : Host.Outcome State Fault Refusal :=
  sInt (.ssar h d a b ty) h .sar ty false d a b 0 s
def execVsar (h : Hdr) (d : VReg) (a b : VS) (ty : ITy) (s : State) : Host.Outcome State Fault Refusal :=
  vInt (.vsar h d a b ty) h .sar ty false d a b a s
def execSmin (h : Hdr) (d a b : SReg) (ty : ITy) (s : State) : Host.Outcome State Fault Refusal :=
  sInt (.smin h d a b ty) h .min ty false d a b 0 s
def execVmin (h : Hdr) (d : VReg) (a b : VS) (ty : ITy) (s : State) : Host.Outcome State Fault Refusal :=
  vInt (.vmin h d a b ty) h .min ty false d a b a s
def execSmax (h : Hdr) (d a b : SReg) (ty : ITy) (s : State) : Host.Outcome State Fault Refusal :=
  sInt (.smax h d a b ty) h .max ty false d a b 0 s
def execVmax (h : Hdr) (d : VReg) (a b : VS) (ty : ITy) (s : State) : Host.Outcome State Fault Refusal :=
  vInt (.vmax h d a b ty) h .max ty false d a b a s

/-- A comparison of elements (R145). -/
def cmpOp (c : ICond) (ty : ITy) (a b : Nat) : Bool :=
  let x := asInt ty a
  let y := asInt ty b
  match c with
  | .eq => x == y
  | .ne => x != y
  | .lt => x < y
  | .le => x ≤ y
  | .gt => y < x
  | .ge => y ≤ x

/-- SCMP: one comparison, its bit in every admitted lane, or in a matrix stream's predicate (R145). -/
def execScmp (h : Hdr) (d : PReg) (a b : SReg) (c : ICond) (ty : ITy) (s : State) :
    Host.Outcome State Fault Refusal :=
  let t (rs : SReg → W64) := cmpOp c ty ((rs a).toNat % 2 ^ ty.w) ((rs b).toNat % 2 ^ ty.w)
  runBoth (.scmp h d a b c ty) h noNeed noNeedM s
    (fun x s => predResult (.scmp h d a b c ty) x s d (if t x.src.team.rs then BitVec.allOnes 1024 else 0) 0)
    (fun x s => if !x.adm then .done s else predResultM (.scmp h d a b c ty) x s d (t x.src.rs))

def execVcmp (h : Hdr) (d : PReg) (a b : VS) (c : ICond) (ty : ITy) (s : State) :
    Host.Outcome State Fault Refusal :=
  runTeam (.vcmp h d a b c ty) h noNeed s fun x s =>
    predResult (.vcmp h d a b c ty) x s d
      (maskOf (lanes x.adm) fun l => cmpOp c ty (x.src.num ty.wide a l) (x.src.num ty.wide b l)) 0

def execVsel (h : Hdr) (d : VReg) (a b : VS) (c : PReg) (wide : Bool) (s : State) :
    Host.Outcome State Fault Refusal :=
  vForm (.vsel h d a b c wide) h s d (wideN wide) fun x l =>
    if inMask (x.team.rp c) l then x.num wide a l else x.num wide b l

/-- Width of the n32 and n64 forms. -/
def wideW (wide : Bool) : Nat := if wide then 64 else 32

/-- Leading zero bits of a w-bit number (R146). -/
def clz (w x : Nat) : Nat := if x = 0 then w else w - 1 - Nat.log2 x

/-- One bits of a w-bit number. -/
def ones : Nat → Nat → Nat
  | 0, _ => 0
  | w + 1, x => x % 2 + ones w (x / 2)

def execVclz (h : Hdr) (d a : VReg) (wide : Bool) (s : State) : Host.Outcome State Fault Refusal :=
  vForm (.vclz h d a wide) h s d 1 fun x l => clz (wideW wide) (x.num wide (.v a) l)

def execVpop (h : Hdr) (d a : VReg) (wide : Bool) (s : State) : Host.Outcome State Fault Refusal :=
  vForm (.vpop h d a wide) h s d 1 fun x l => ones (wideW wide) (x.num wide (.v a) l)

def execVbfx (h : Hdr) (d a : VReg) (pos lenm1 : Fin 32) (sg : Bool) (s : State) :
    Host.Outcome State Fault Refusal :=
  vForm (.vbfx h d a pos lenm1 sg) h s d 1 fun x l =>
    let f := fld (x.num false (.v a) l) pos.val (lenm1.val + 1)
    if sg then wrap 32 (sgn (lenm1.val + 1) f) else f

def execVbfi (h : Hdr) (d a b : VReg) (pos lenm1 : Fin 32) (s : State) : Host.Outcome State Fault Refusal :=
  vForm (.vbfi h d a b pos lenm1) h s d 1 fun x l =>
    let m := (2 ^ (lenm1.val + 1) - 1) * 2 ^ pos.val
    let o := x.num false (.v b) l
    (o - (o &&& m)) ||| (x.num false (.v a) l * 2 ^ pos.val &&& m)

/-- VADDC: the sum or difference in each admitted lane, then the carries (R146). -/
def execVaddc (h : Hdr) (d : VReg) (a b : VS) (c : PReg) (sub : Bool) (s : State) :
    Host.Outcome State Fault Refusal :=
  runTeam (.vaddc h d a b c sub) h noNeed s fun x s =>
    let t (l : Nat) : Int :=
      let p : Int := bit (inMask (x.src.team.rp c) l)
      if sub then (x.src.num false a l : Int) - x.src.num false b l - p
      else x.src.num false a l + x.src.num false b l + p
    match vecOut (.vaddc h d a b c sub) x s d 1 fun l => wrap 32 (t l) with
    | .done s => predResult (.vaddc h d a b c sub) x s c
        (maskOf (lanes x.adm) fun l => if sub then t l < 0 else 2 ^ 32 ≤ t l) 0
    | r => r

def execVaddr (h : Hdr) (d : VReg) (a : VS) (b : VReg) (scale : Fin 4) (wide : Bool) (s : State) :
    Host.Outcome State Fault Refusal :=
  vForm (.vaddr h d a b scale wide) h s d (wideN wide) fun x l =>
    let b := x.num false (.v b) l
    if wide then wrap 64 ((x.num true a l : Int) + sgn 32 b * 2 ^ scale.val)
    else (x.num false a l + b * 2 ^ scale.val) % 2 ^ 32

/-- SADDI (R144). -/
def execSaddi (h : Hdr) (d a : SReg) (wide : Bool) (imm : BitVec 23) (s : State) :
    Host.Outcome State Fault Refusal :=
  sForm (.saddi h d a wide imm) h s d fun rs =>
    let x := (rs a) + imm.signExtend 64
    if wide then x else (x.truncate 32).signExtend 64

/-- VADDI (R144). -/
def execVaddi (h : Hdr) (d a : VReg) (wide : Bool) (imm : BitVec 23) (s : State) :
    Host.Outcome State Fault Refusal :=
  vForm (.vaddi h d a wide imm) h s d (wideN wide) fun x l =>
    wrap (wideW wide) ((x.num wide (.v a) l : Int) + imm.toInt)

/-- CSUM: CRC-32C over the admitted lanes, ascending, the even register first (R163). -/
def execCsum (h : Hdr) (d a : SReg) (b : VReg) (wide : Bool) (s : State) : Host.Outcome State Fault Refusal :=
  runTeam (.csum h d a b wide) h noNeed s fun x s =>
    if x.adm = 0 then .done s
    else
      let c := (lanes x.adm).foldl (fun c l => crc c (toLe (4 * wideN wide) (x.src.num wide (.v b) l)))
        ((x.src.team.rs a).toNat % 2 ^ 32)
      scalResult (.csum h d a b wide) x s d (BitVec.ofNat 64 c)

end Sys2Proof.Machine
end

