-- ==== Sys2Proof/Machine/Control.lean ====
section
/-! DEFINITION. Control flow, masks and predicates (R59 to R80). -/

namespace Sys2Proof.Machine

/-- The target of a branch word (R23). -/
def offTarget (pc : Nat) (off : BitVec 24) : Nat := wrap 64 ((pc / 8 * 8 : Nat) + 8 * off.toInt)

/-- Where execution goes after the instruction at hand. -/
def X.next (x : X) (s : State) : Nat := (s.nextOf x.c x.team).1
def XR.next (x : XR) (s : State) : Nat := (s.nextOfM x.c x.r).1

/-- A transfer's target is checked (R14): its word is asked for, which waits for a walker or counts its walk (R290, R294), and the
transfer traps ILLEGAL_TARGET or goes on. -/
def State.toTarget (s : State) (core ctx target : Nat) (go : State → Res) : Res :=
  if target % 8 ≠ 0 then .trap .illegalTarget (BitVec.ofNat 64 target)
  else if s.fetchWaits core ctx target then .hold
  else if s.badTarget core ctx target then .trapIn (s.fetchFill core ctx target) .illegalTarget (BitVec.ofNat 64 target)
  else go (s.fetchFill core ctx target)

/-- The team goes to a header. -/
def X.goto (x : X) (s : State) (pc : Nat) : Res :=
  .went (s.setTeam x.c x.slot { x.team with pc := pc, atHdr := true, wait := none })
/-- The matrix stream goes to a header. -/
def XR.goto (x : XR) (s : State) (pc : Nat) : Res :=
  .went (s.setRidge x.c { x.r with pc := pc, atHdr := true, wait := none })

/-- The team with a mask and a stack; a mask left empty reconverges (R60). -/
def X.masked (x : X) (s : State) (t : Team) : Res :=
  if t.act = 0 then .went (s.emptied x.c x.slot (t.stk.length + 1) { t with wait := none })
  else .done (s.setTeam x.c x.slot t)

/-- Whether a push is refused: the last entry is kept for a trap (R58). -/
def Team.full (t : Team) : Bool := t.hdr.depth ≤ t.stk.length + 1

def Entry.isDiv (e : Entry) : Bool := e.kind == .div
def Team.hasLead (t : Team) : Bool := t.stk.any fun e => e.kind == .lead

/-- Removes lanes from both masks of an entry (R61). -/
def Entry.without (m : Mask) (e : Entry) : Entry := { e with omask := e.omask &&& ~~~m, tmask := e.tmask &&& ~~~m }

/-- A branch of a team by its guard (R59, R66). -/
def X.branch (x : X) (s : State) (target : Nat) : Res :=
  let t := x.team
  if x.adm = 0 then .done s
  else s.toTarget x.c t.ctx target fun s =>
    if x.adm = t.act then x.goto s target
    else
      let rpc := wrap 64 ((t.hdrAddr : Int) + 8 * hdrReconv t.hdrWord)
      if hdrReconv t.hdrWord = 0 then .trapIn s .illegalTarget (BitVec.ofNat 64 rpc)
      else s.toTarget x.c t.ctx rpc fun s =>
        let left := t.act &&& ~~~x.adm
        match t.stk with
        | e :: rest =>
          if e.isDiv && e.pc1 == rpc && e.tmask == 0 then
            .done (s.setTeam x.c x.slot
              { t with act := left, stk := { e with tmask := x.adm, pc2 := BitVec.ofNat 64 target } :: rest })
          else push s left rpc
        | [] => push s left rpc
where
  push (s : State) (left : Mask) (rpc : Nat) : Res :=
    if x.team.full then .trapIn s .illegalStack 0
    else .done (s.push x.c x.slot { x.team with act := left } ⟨.div, rpc, BitVec.ofNat 64 target, x.team.act, x.adm⟩)

/-- A branch of a matrix stream (R62). -/
def XR.branch (x : XR) (s : State) (target : Nat) : Res :=
  if !x.adm then .done s
  else s.toTarget x.c x.r.ctx target fun s => x.goto s target

/-- NOP (R75). -/
def execNop (h : Hdr) (s : State) : Host.Outcome State Fault Refusal :=
  runBoth (.nop h) h noNeed noNeedM s (fun _ s => .done s) (fun _ s => .done s)

/-- BRA (R66). -/
def execBra (h : Hdr) (off : BitVec 24) (s : State) : Host.Outcome State Fault Refusal :=
  runBoth (.bra h off) h noNeed noNeedM s
    (fun x s => x.branch s (offTarget x.team.pc off)) (fun x s => x.branch s (offTarget x.r.pc off))

/-- JMPS (R66). -/
def execJmps (h : Hdr) (r : SReg) (s : State) : Host.Outcome State Fault Refusal :=
  runBoth (.jmps h r) h noNeed noNeedM s
    (fun x s => x.branch s (x.src.team.rs r).toNat) (fun x s => x.branch s (x.src.rs r).toNat)

/-- A uniform branch on a test of the admitted lanes (R67). -/
def testBranch (i : Instr) (h : Hdr) (off : BitVec 24) (s : State) (test : X → Bool) :
    Host.Outcome State Fault Refusal :=
  runTeam i h noNeed s fun x s =>
    let target := offTarget x.team.pc off
    if x.adm = 0 then .done s
    else s.toTarget x.c x.team.ctx target fun s => if test x then x.goto s target else .done s

/-- The TEST predicate, negated where TNEG is set. -/
def X.test (x : X) (t : PReg) (neg : Bool) : Mask := if neg then ~~~x.src.team.rp t else x.src.team.rp t

/-- BALL (R67). -/
def execBall (h : Hdr) (t : PReg) (neg : Bool) (off : BitVec 24) (s : State) : Host.Outcome State Fault Refusal :=
  testBranch (.ball h t neg off) h off s fun x => x.adm &&& ~~~x.test t neg == 0

/-- BANY (R67). -/
def execBany (h : Hdr) (t : PReg) (neg : Bool) (off : BitVec 24) (s : State) : Host.Outcome State Fault Refusal :=
  testBranch (.bany h t neg off) h off s fun x => x.adm &&& x.test t neg != 0

/-- CALL (R62, R68). -/
def execCall (h : Hdr) (tgt : CallTgt) (s : State) : Host.Outcome State Fault Refusal :=
  runBoth (.call h tgt) h noNeed noNeedM s
    (fun x s =>
      let target := match tgt with | .off o => offTarget x.team.pc o | .reg r => (x.src.team.rs r).toNat
      if x.adm = 0 then .done s
      else s.toTarget x.c x.team.ctx target fun s =>
        if x.team.full then .trapIn s .illegalStack 0
        else .went (s.push x.c x.slot { x.team with act := x.adm, pc := target, atHdr := true, wait := none }
          ⟨.call, x.next s, 0, x.team.act, 0⟩))
    (fun x s =>
      let target := match tgt with | .off o => offTarget x.r.pc o | .reg r => (x.src.rs r).toNat
      if !x.adm then .done s
      else s.toTarget x.c x.r.ctx target fun s =>
        if 16 ≤ x.r.rstk.length then .trapIn s .illegalStack 0
        else XR.goto { x with r := { x.r with rstk := x.next s :: x.r.rstk } } s target)

/-- RET (R62, R69). The return header is checked at every RET that admits a lane (R14). -/
def execRet (h : Hdr) (s : State) : Host.Outcome State Fault Refusal :=
  runBoth (.ret h) h noNeed noNeedM s
    (fun x s =>
      if x.adm = 0 then .done s
      else
        let above := x.team.stk.takeWhile Entry.isDiv
        let rest := x.team.stk.dropWhile Entry.isDiv
        match rest with
        | e :: _ =>
          if e.kind != .call then .trap .illegal 0
          else s.toTarget x.c x.team.ctx e.pc1 fun s =>
            x.masked s { x.team with
              act := x.team.act &&& ~~~x.adm,
              stk := above.map (Entry.without x.adm) ++ rest }
        | [] => .trap .illegal 0)
    (fun x s =>
      if !x.adm then .done s
      else match x.r.rstk with
        | [] => .trap .illegal 0
        | pc :: rest =>
          s.toTarget x.c x.r.ctx pc fun s => XR.goto { x with r := { x.r with rstk := rest } } s pc)

/-- RECONV (R70). -/
def execReconv (h : Hdr) (s : State) : Host.Outcome State Fault Refusal :=
  runTeam (.reconv h) h noNeed s fun x s =>
    if x.adm = 0 then .done s
    else match x.team.stk with
      | e :: _ => if e.isDiv then x.masked s { x.team with act := x.team.act &&& ~~~x.adm } else .trap .illegal 0
      | [] => .trap .illegal 0

/-- BREAK (R70). -/
def execBrk (h : Hdr) (lvl : Fin 16) (s : State) : Host.Outcome State Fault Refusal :=
  runTeam (.brk h lvl) h noNeed s fun x s =>
    if x.adm = 0 then .done s
    else if (x.team.stk.takeWhile Entry.isDiv).length ≤ lvl.val then .trap .illegal 0
    else x.masked s { x.team with
      act := x.team.act &&& ~~~x.adm,
      stk := (x.team.stk.take lvl.val).map (Entry.without x.adm) ++ x.team.stk.drop lvl.val }

/-- EXIT (R62, R71). -/
def execExit (h : Hdr) (s : State) : Host.Outcome State Fault Refusal :=
  runBoth (.exit h) h noNeed noNeedM s
    (fun x s =>
      if x.adm = 0 then .done s
      else if x.team.hasLead then .trap .illegal 0
      else x.masked s { x.team with
        act := x.team.act &&& ~~~x.adm, stk := x.team.stk.map (Entry.without x.adm) })
    (fun x s =>
      if !x.adm then .done s
      else
        let s := s.setRidge x.c { x.r with ended := true, wait := none }
        let s := s.noteEnd ((s.block? x.r.blk).bind Block.launch) x.r.uid
        .went ((s.dropBanks x.c).endBlock x.r.blk))

/-- ELECT (R73). Its scalar has no latency in R30's table, to which R79 refers: it may be read at once (DESIGN CHOICE, log 51). -/
def execElect (h : Hdr) (d : SReg) (s : State) : Host.Outcome State Fault Refusal :=
  runTeam (.elect h d) h noNeed s fun x s =>
    match lowest x.adm with
    | none => .done s
    | some l =>
      if x.team.hasLead then .trap .illegal 0
      else if x.team.full then .trap .illegalStack 0
      else .done (s.push x.c x.slot ({ x.team with act := laneBit l }.ws d (BitVec.ofNat 64 l))
        ⟨.lead, 0, 0, x.team.act, 0⟩)

/-- ENDLEAD (R73). -/
def execEndlead (h : Hdr) (s : State) : Host.Outcome State Fault Refusal :=
  runTeam (.endlead h) h noNeed s fun x s =>
    match x.team.stk with
    | e :: rest =>
      if e.kind == .lead then .done (s.setTeam x.c x.slot { x.team with act := e.omask, stk := rest })
      else .trap .illegal 0
    | [] => .trap .illegal 0

/-- PHINT: a pre-emption point where a request is pending (R74, R374). -/
def execPhint (h : Hdr) (d : SReg) (sg : BitVec 4) (pg : BitVec 6) (pk : BitVec 8) (s : State) :
    Host.Outcome State Fault Refusal :=
  runTeam (.phint h d sg pg pk) h noNeed s fun x s =>
    if x.adm = 0 || !s.requested x.team.blk then .done s
    else .done (s.freezeTeam x.c x.slot x.team ⟨some ⟨x.src.team.rs d, sg, pg⟩, pk, false⟩)

/-- YIELD: the other teams ready now go first (R75, State.eligibleTeams). -/
def execYield (h : Hdr) (s : State) : Host.Outcome State Fault Refusal :=
  runTeam (.yield h) h noNeed s fun x s =>
    .done (s.setTeam x.c x.slot { x.team with
      yield := if x.adm = 0 then [] else (List.range 16).filterMap fun k =>
        if k != x.slot && s.ready x.c k then (s.team? x.c k).map Team.uid else none })

/-- PSET (R76). -/
def execPset (h : Hdr) (d : PReg) (imm : W32) (s : State) : Host.Outcome State Fault Refusal :=
  runBoth (.pset h d imm) h noNeed noNeedM s
    (fun x s => predResult (.pset h d imm) x s d (repWord imm) 0)
    (fun x s => if !x.adm then .done s else predResultM (.pset h d imm) x s d (imm.getLsbD 0))

/-- Bit [(a << 2) | (b << 1) | c] of a table (R77). -/
def plopBit (tbl : BitVec 8) (a b c : Bool) : Bool := tbl.getLsbD (4 * bit a + 2 * bit b + bit c)

/-- PLOP (R77). -/
def execPlop (h : Hdr) (d a b c : PReg) (tbl : BitVec 8) (s : State) : Host.Outcome State Fault Refusal :=
  runBoth (.plop h d a b c tbl) h noNeed noNeedM s
    (fun x s => predResult (.plop h d a b c tbl) x s d
      (maskOf (lanes x.adm) fun l =>
        plopBit tbl (inMask (x.src.team.rp a) l) (inMask (x.src.team.rp b) l) (inMask (x.src.team.rp c) l)) 0)
    (fun x s => if !x.adm then .done s
      else predResultM (.plop h d a b c tbl) x s d (plopBit tbl (x.src.rp a) (x.src.rp b) (x.src.rp c)))

/-- PMOV (R77). A vector register on a matrix stream is ILLEGAL (R37). -/
def execPmov (h : Hdr) (f : PMovForm) (s : State) : Host.Outcome State Fault Refusal :=
  runBoth (.pmov h f) h noNeed noNeedM s
    (fun x s => match f with
      | .pp d a => predResult (.pmov h f) x s d (x.src.team.rp a) 0
      | .pv d a => predResult (.pmov h f) x s d (maskOf (lanes x.adm) fun l => x.src.v a 0 l != 0) 0
      | .ps d a => predResult (.pmov h f) x s d (maskOf (lanes x.adm) fun l => x.src.sl a l != 0) 0
      | .vp d a => vecOut (.pmov h f) x s d 1 fun l => if inMask (x.src.team.rp a) l then 0xFFFFFFFF else 0)
    (fun x s => match f with
      | .pp d a => if !x.adm then .done s else predResultM (.pmov h f) x s d (x.src.rp a)
      | .ps d a => if !x.adm then .done s else predResultM (.pmov h f) x s d (x.src.rs a != 0)
      | _ => .trap .illegal 0)

/-- PCNT (R78). -/
def execPcnt (h : Hdr) (d : SReg) (a : PReg) (s : State) : Host.Outcome State Fault Refusal :=
  runTeam (.pcnt h d a) h noNeed s fun x s =>
    if x.adm = 0 then .done s
    else scalResult (.pcnt h d a) x s d (BitVec.ofNat 64 (popcount (x.adm &&& x.src.team.rp a)))

/-- PFIRST (R78). -/
def execPfirst (h : Hdr) (d : SReg) (a : PReg) (s : State) : Host.Outcome State Fault Refusal :=
  runTeam (.pfirst h d a) h noNeed s fun x s =>
    if x.adm = 0 then .done s
    else scalResult (.pfirst h d a) x s d
      (match lowest (x.adm &&& x.src.team.rp a) with
       | some l => BitVec.ofNat 64 l
       | none => BitVec.allOnes 64)

end Sys2Proof.Machine
end

