-- ==== Sys2Proof/Machine/Flint.lean ====
section
/-! DEFINITION. The trigger units (R305 to R323): the watched granules a write changes, records, the
on-die queue and the spill ring of a slice, and the collection of a launch pool (R343 to R345). -/

namespace Sys2Proof.Machine

/-! Watched granules (R306, R309). -/

/-- Granule size (R305). -/
def Watch.gran (w : Watch) : Nat := 2 ^ (w.glog + 6)

/-- The indices of a watch's granules at a physical address. -/
def Watch.indices (w : Watch) (pa : Nat) : List Nat :=
  w.ext.filterMap fun e =>
    if e.2.2 ≤ pa && pa < e.2.2 + e.2.1 * w.gran then some (e.1 + (pa - e.2.2) / w.gran) else none

/-- The watched granules at a physical address: context, watch, index. -/
def State.granules (s : State) (pa : Nat) : List (Nat × Nat × Nat) :=
  s.ctxs.flatMap fun c => c.2.watches.flatMap fun w => (w.2.indices pa).map fun i => (c.1, w.1, i)

/-- The records of a watch in the on-die queue of a slice: ON (R316). -/
def Slice.on (sl : Slice) (ctx watch : Nat) : Nat :=
  (sl.ondie.filter fun r => r.ctx == ctx && r.watch == watch).length
/-- The records of a watch in the spill ring of a slice: SP (R316). -/
def Slice.sp (sl : Slice) (ctx watch : Nat) : Nat :=
  (sl.ring.filter fun r => r.ctx == ctx && r.watch == watch && !r.dead).length

/-- Whether a new record of a watch goes to the spill ring (R316). -/
def Slice.spills (sl : Slice) (ctx watch quota : Nat) : Bool :=
  sl.sp ctx watch != 0 || quota ≤ sl.on ctx watch || 256 ≤ sl.ondie.length

/-- Whether the spill ring is full (R317). -/
def Slice.ringFull (sl : Slice) : Bool := 65536 ≤ sl.ring.length

def State.watch? (s : State) (ctx n : Nat) : Option Watch := (s.ctx ctx).watches.find n

/-- Whether a write of bytes over old ones must be held at its home (R317). -/
def State.mustHold (s : State) (pa : Nat) (old new : List Byte) : Bool :=
  let sl := s.slice (s.sliceNo pa)
  old != new && sl.ringFull &&
  (s.granules pa).any fun g => match s.watch? g.1 g.2.1 with
    | some w => sl.spills g.1 g.2.1 w.quota
    | none => false

/-- Depth of the records of a write (R320). -/
def deeper (d : Nat) : Nat := min 31 (d + 1)

/-- A write within 64 aligned bytes is compared with what it replaces: an OR is issued for each changed
granule (R309, R312). -/
def State.compare (s : State) (pa depth src : Nat) (old new : List Byte) : State :=
  if old == new then s
  else { s with ors := s.ors ++ (s.granules pa).map fun g => ⟨g.1, g.2.1, g.2.2, s.sliceNo pa, deeper depth, src⟩ }

/-- Physical address of the byte of a pending bit (R305). -/
def Watch.pendByte (w : Watch) (i : Nat) : Option Nat :=
  (w.bits.find? fun e => e.1 ≤ i / 8 && i / 8 < e.1 + e.2.1).map fun e => e.2.2 + (i / 8 - e.1)

/-- A new record is queued on die or spilled (R316). -/
def State.queueRecord (s : State) (k : Nat) (quota : Nat) (r : TRec) : State :=
  let sl := s.slice k
  let s := s.bump .fire (k / 144) 1
  if sl.spills r.ctx r.watch quota then
    (s.setSlice k { sl with ring := sl.ring ++ [r] }).bump .spill (k / 144) 1
  else s.setSlice k { sl with ondie := sl.ondie ++ [r] }

/-- The head of a spill ring moves on die where its watch has room; a record whose watch is gone is
dropped (R316, R327). -/
def State.drainRing (s : State) (k : Nat) : State :=
  let sl := s.slice k
  match sl.ring with
  | [] => s
  | r :: rest =>
    if r.dead then s.setSlice k { sl with ring := rest }
    else match s.watch? r.ctx r.watch with
      | none => s.setSlice k { sl with ring := rest }
      | some w =>
        if w.quota ≤ sl.on r.ctx r.watch || 256 ≤ sl.ondie.length then s
        else s.setSlice k { sl with ring := rest, ondie := sl.ondie ++ [r] }

/-! Launch pools (R343 to R345). -/

def Pool.prio (p : Pool) : Nat := fld p.param.toNat 0 7
def Pool.ceil (p : Pool) : Nat := fld p.param.toNat 8 7
def Pool.dlim (p : Pool) : Nat := fld p.param.toNat 16 4
def Pool.domen (p : Pool) : Bool := fld p.param.toNat 20 1 == 1
def Pool.dom (p : Pool) : Nat := fld p.param.toNat 21 4
def Pool.list (p : Pool) : Nat := fld p.param.toNat 25 6
def Pool.listen (p : Pool) : Bool := fld p.param.toNat 31 1 == 1

/-- Records a pool holds (R344). -/
def poolRoom : Nat := 65536

def State.setPool (s : State) (ctx n : Nat) (p : Pool) : State :=
  s.modCtx ctx fun x => { x with pools := x.pools.put n p }

/-- The domain the teams of a pool are counted in (R343, R353). -/
def Pool.counts (p : Pool) : Option Nat := if p.domen then some p.dom else none

/-- The instruction caches of a partition drop a context's lines (R342). -/
def State.dropCode (s : State) (part ctx : Nat) : State :=
  let cores := s.cores.map fun (c : Nat × Core) =>
    if s.partOf (stackOf c.1) == part then (c.1, { c.2 with icache := c.2.icache.filter fun l => l.ctx != ctx }) else c
  let stks := s.stks.map fun (k : Nat × Stack) =>
    if s.partOf k.1 == part then (k.1, { k.2 with icache := k.2.icache.filter fun l => l.ctx != ctx }) else k
  { s with cores := cores, stks := stks }

/-- A gang of a pool's oldest k records; a record is too deep for the pool's limit as it is then (R345). Where the pool's
header has ICINV = 1 the instruction caches drop the context's lines (R342): the launch of a record team is its forming
(DESIGN CHOICE, log 45). -/
def State.formOne (s : State) (ctx n : Nat) (p : Pool) (k : Nat) : State :=
  let s := if p.hdr.icinv then s.dropCode (s.ctx ctx).part ctx else s
  let rs := (p.recs.take k).map fun r => { r with deep := r.deep || p.dlim < r.depth }
  let g : Gang := ⟨p.counts, s.seq, p.hdr, rs, true, 0, 1, none, s.tick.toNat, false⟩
  (s.setPool ctx n { p with
    recs := p.recs.drop k, gangs := p.gangs ++ [g],
    since := if p.gangs.isEmpty then s.tick.toNat else p.since }).tickSeq

/-- Lanes of a team of a header (R340). -/
def Launch.width (l : Launch) : Nat := 32 * l.words

/-- Forms teams while a team's width of records has collected (R345). -/
def State.formTeams (s : State) (ctx n : Nat) : Nat → State
  | 0 => s
  | fuel + 1 =>
    match (s.ctx ctx).pools.find n with
    | none => s
    | some p =>
      if p.hdr.width ≤ p.recs.length && 0 < p.hdr.width then (s.formOne ctx n p p.hdr.width).formTeams ctx n fuel
      else s

/-- The items of a listened list become records while the pool has room (R343, R344, R352). -/
def State.listenFill (s : State) (ctx n : Nat) : State :=
  match (s.ctx ctx).pools.find n with
  | none => s
  | some p =>
    if !p.listen then s
    else
      let items := (s.ctx ctx).ruck.get [] p.list
      let k := min items.length (poolRoom - p.recs.length)
      if k = 0 then s
      else
        let rs := (items.take k).map fun i =>
          (⟨BitVec.ofNat 64 p.list, i.item, deeper i.depth, false, none, i.stack, s.tick.toNat⟩ : PRec)
        s.modCtx ctx fun x => { x with
          ruck := x.ruck.set [] p.list (items.drop k),
          pools := x.pools.put n { p with recs := p.recs ++ rs } }

/-- Whether a pool can take items of a list it listens to. -/
def State.listens (s : State) (ctx n : Nat) : Bool :=
  match (s.ctx ctx).pools.find n with
  | some p => p.listen && !((s.ctx ctx).ruck.get [] p.list).isEmpty && decide (p.recs.length < poolRoom)
  | none => false

/-- Items become records and records teams, in turn, while the pool has room for more of its list (R344, R345, R352). -/
def State.collectFrom (s : State) (ctx n : Nat) : Nat → State
  | 0 => s
  | fuel + 1 =>
    let s := (s.listenFill ctx n).formTeams ctx n 2049
    if s.listens ctx n then s.collectFrom ctx n fuel else s

/-- What follows records entering a pool. A list holds at most 2^20 items, which 18 fillings of a pool exhaust. -/
def State.collected (s : State) (ctx n : Nat) : State := s.collectFrom ctx n 18

/-- The pool that listens to a list (R352). -/
def State.listener (s : State) (ctx list : Nat) : Option (Nat × Pool) :=
  (s.ctx ctx).pools.find? fun p => p.2.listen && p.2.list == list

/-- Record k of a slice's on-die queue moves into its pool: it is the first of its watch there, the pool is
configured and not full (R318, R344). -/
def State.handOff (s : State) (k j : Nat) : State :=
  let sl := s.slice k
  match sl.ondie[j]? with
  | none => s
  | some r =>
    if (sl.ondie.take j).any (fun q => q.ctx == r.ctx && q.watch == r.watch) then s
    else match s.watch? r.ctx r.watch with
      | none => s
      | some w =>
        match (s.ctx r.ctx).pools.find w.pool with
        | none => s
        | some p =>
          if w.park || poolRoom ≤ p.recs.length then s
          else
            let pr : PRec := ⟨BitVec.ofNat 64 r.index, BitVec.ofNat 64 r.addr, r.depth, w.dlim < r.depth,
              some (r.watch, r.index), k / 144, s.tick.toNat⟩
            let s := s.setSlice k { sl with ondie := sl.ondie.eraseIdx j }
            (s.setPool r.ctx w.pool { p with recs := p.recs ++ [pr] }).collected r.ctx w.pool

/-! Embers (R353, R354). -/

/-- Key of the part of a domain on a stack. -/
def emberKey (dom stack : Nat) : Nat := 8 * dom + stack

/-- Adds to the part of a domain that arises on a stack; a change voids the passes made (R354). -/
def State.emberAdd (s : State) (ctx dom stack : Nat) (v : Int) : State :=
  if v = 0 then s
  else s.modCtx ctx fun x =>
    let e := x.embers.get Ember.zero (emberKey dom stack)
    { x with embers := x.embers.put (emberKey dom stack) ⟨sgn 64 (wrap 64 (e.part + v)), true⟩,
             emPass := x.emPass.set 0 dom 0 }

/-- The count of a domain (R353). -/
def Ctx.domCount (x : Ctx) (dom : Nat) : Int :=
  (x.embers.filter fun e => e.1 / 8 == dom).foldl (fun a e => a + e.2.part) 0

end Sys2Proof.Machine
end

