-- ==== Sys2Proof/Machine/Flags.lean ====
section
/-! DEFINITION. Floating-point formats and values (R112, R113), rounding (R123 to R125) and the flags of
sr.fstat (R127). Arithmetic is exact on integers; narrowing and its flags are here and nowhere else. -/

namespace Sys2Proof.Machine

/-! The flags of sr.fstat (R127). -/

/-- Invalid. -/
def NV : BitVec 5 := 16
/-- Division by zero. -/
def DZ : BitVec 5 := 8
/-- Overflow after rounding. -/
def OF : BitVec 5 := 4
/-- Tiny after rounding and inexact. -/
def UF : BitVec 5 := 2
/-- Inexact. -/
def NX : BitVec 5 := 1

/-- A result's bits and the flags it raises. -/
structure FR where
  bits : Nat
  fl   : BitVec 5
deriving DecidableEq, Repr

/-- A flag that is raised when b holds. -/
def flagIf (b : Bool) (f : BitVec 5) : BitVec 5 := if b then f else 0

/-! Formats (R112). -/

/-- Fraction bits. -/
def fmtM : FTy → Nat
  | .f32 => 23 | .f16 => 10 | .bf16 => 7 | .f8e4 => 3 | .f8e5 => 2
/-- Emax. -/
def fmtEmax : FTy → Nat
  | .f32 => 255 | .f16 => 31 | .bf16 => 255 | .f8e4 => 15 | .f8e5 => 31
def fmtBias : FTy → Nat
  | .f32 => 127 | .f16 => 15 | .bf16 => 127 | .f8e4 => 7 | .f8e5 => 15
/-- The magnitude bits of the largest finite value. -/
def fmtMax : FTy → Nat
  | .f8e4 => 0x7E
  | t => fmtEmax t * 2 ^ fmtM t - 1
/-- The magnitude bits of infinity; F8E4 has none. -/
def fmtInf (t : FTy) : Nat := fmtEmax t * 2 ^ fmtM t
/-- The canonical NaN (R113). -/
def fmtNan : FTy → Nat
  | .f32 => 0x7FC00000 | .f16 => 0x7E00 | .bf16 => 0x7FC0 | .f8e4 => 0x7F | .f8e5 => 0x7E
/-- The sign bit in place. -/
def fmtSign (t : FTy) (neg : Bool) : Nat := if neg then 2 ^ (t.w - 1) else 0

/-- A floating-point value: a NaN (which raises NV or not), an infinity, or (-1)^neg m 2^e. -/
inductive Fl where
  | nan (sig : Bool)
  | inf (neg : Bool)
  | fin (neg : Bool) (m : Nat) (e : Int)
deriving DecidableEq, Repr

/-- The value of a code (R112, R113); with FTZ a subnormal operand reads as a zero of its sign (R125). -/
def unpackF (t : FTy) (ftz : Bool) (x : Nat) : Fl :=
  let p := fmtM t
  let neg := x / 2 ^ (t.w - 1) % 2 == 1
  let ef := x % 2 ^ (t.w - 1) / 2 ^ p
  let m := x % 2 ^ p
  let special := ef == fmtEmax t && (t != .f8e4 || m == 7)
  if special then
    (if t == .f8e4 then .nan false
     else if m == 0 then .inf neg
     else .nan (t != .f8e5 && m < 2 ^ (p - 1)))
  else if ef == 0 then .fin neg (if ftz then 0 else m) (1 - fmtBias t - p)
  else .fin neg (m + 2 ^ p) (ef - fmtBias t - p)

/-! Rounding (R123 to R125, R127). -/

/-- m 2^(-sh) rounded to an integer by a mode, and whether that lost anything (R123). -/
def roundInt (mode : RMode) (neg : Bool) (m : Nat) (sh : Int) : Nat × Bool :=
  if sh ≤ 0 then (m * 2 ^ (-sh).toNat, false)
  else
    let d := 2 ^ sh.toNat
    let q := m / d
    let r := m % d
    let up := match mode with
      | .rne => 2 * r > d || (2 * r == d && q % 2 == 1)
      | .rtz => false
      | .rdn => neg && r != 0
      | .rup => !neg && r != 0
    (q + bit up, r != 0)

/-- What an overflow gives (R123, R124). -/
def overflowF (t : FTy) (mode : RMode) (neg : Bool) : FR :=
  let toInf := t != .f8e4 && match mode with
    | .rne => true | .rtz => false | .rdn => neg | .rup => !neg
  ⟨fmtSign t neg + (if toInf then fmtInf t else fmtMax t), OF ||| NX⟩

/-- (-1)^neg m 2^e rounded to a format, with its flags (R123 to R125, R127). Tininess is judged on the
value rounded with an unbounded exponent (log 16). -/
def roundF (t : FTy) (rnd : Rnd) (neg : Bool) (m : Nat) (e : Int) : FR :=
  if m = 0 then ⟨fmtSign t neg, 0⟩
  else
    let p := fmtM t
    let ex : Int := e + Nat.log2 m
    let emin : Int := 1 - fmtBias t
    let q := max ex emin - p
    let r := roundInt rnd.mode neg m (q - e)
    let mag := (q - (emin - p)).toNat * 2 ^ p + r.1
    if mag > fmtMax t then overflowF t rnd.mode neg
    else if rnd.ftz && mag < 2 ^ p && mag != 0 then ⟨fmtSign t neg, UF ||| NX⟩
    else
      let u := roundInt rnd.mode neg m (ex - p - e)
      let tiny := ex < emin && r.2 && !(u.1 == 2 ^ (p + 1) && ex + 1 == emin)
      ⟨fmtSign t neg + mag, flagIf r.2 NX ||| flagIf tiny UF⟩

/-- The canonical NaN, with NV where a NaN operand signals or the operation is invalid. -/
def nanF (t : FTy) (inv : Bool) : FR := ⟨fmtNan t, flagIf inv NV⟩

/-- An infinite result. F8E4 has no infinity: one becomes a NaN with NV (R124). -/
def infF (t : FTy) (neg : Bool) : FR :=
  if t == .f8e4 then ⟨fmtNan t, NV⟩ else ⟨fmtSign t neg + fmtInf t, 0⟩

/-- A value in a format. -/
def packF (t : FTy) (rnd : Rnd) : Fl → FR
  | .nan sig => nanF t sig
  | .inf neg => infF t neg
  | .fin neg m e => roundF t rnd neg m e

end Sys2Proof.Machine
end

