-- ==== Sys2Proof/Machine/Float.lean ====
section
/-! DEFINITION. Floating-point operations: exact values, one rounding (R128 to R135, R148 to R158). -/

namespace Sys2Proof.Machine

/-- An exact product; 0 times infinity is invalid. A product has the exclusive OR of the signs. -/
def mulX : Fl → Fl → Fl
  | .nan a, .nan b => .nan (a || b)
  | .nan a, _ => .nan a
  | _, .nan b => .nan b
  | .inf a, .inf b => .inf (a != b)
  | .inf a, .fin b m _ => if m = 0 then .nan true else .inf (a != b)
  | .fin a m _, .inf b => if m = 0 then .nan true else .inf (a != b)
  | .fin a m e, .fin b n f => .fin (a != b) (m * n) (e + f)

def negX : Fl → Fl
  | .nan a => .nan a
  | .inf a => .inf !a
  | .fin a m e => .fin (!a) m e

def isNanX : Fl → Bool | .nan _ => true | _ => false
def isSigX : Fl → Bool | .nan s => s | _ => false
def isInfX (neg : Bool) : Fl → Bool | .inf a => a == neg | _ => false
/-- The sign of a value; a NaN has none. -/
def signX : Fl → Bool | .inf a => a | .fin a _ _ => a | .nan _ => false

/-- The smallest exponent of a list of terms. -/
def minExp : List Fl → Int → Int
  | [], x => x
  | .fin _ _ e :: t, x => minExp t (min e x)
  | _ :: t, x => minExp t x

/-- A finite term as a multiple of 2^x. -/
def termAt (x : Int) : Fl → Int
  | .fin a m e => (if a then -1 else 1) * (m * 2 ^ (e - x).toNat : Nat)
  | _ => 0

/-- The exact sum of terms, rounded once; the sign of an exact zero is R123's. Infinite terms of opposite sign raise NV whatever
the others are (R127, R157). -/
def sumF (t : FTy) (rnd : Rnd) (ts : List Fl) : FR :=
  let opposed := ts.any (isInfX true) && ts.any (isInfX false)
  if ts.any isNanX then nanF t (ts.any isSigX || opposed)
  else if opposed then nanF t true
  else if ts.any (isInfX true) then infF t true
  else if ts.any (isInfX false) then infF t false
  else
    let x := minExp ts 0
    let n := ts.foldl (fun acc u => acc + termAt x u) 0
    if n = 0 then
      let neg :=
        if ts.all (fun u => termAt x u == 0 && signX u) then true
        else if ts.all (fun u => termAt x u == 0 && !signX u) then false
        else rnd.mode == .rdn
      ⟨fmtSign t neg, 0⟩
    else roundF t rnd (decide (n < 0)) n.natAbs x

/-- FADD (R148). -/
def addF (t : FTy) (rnd : Rnd) (a b : Nat) : FR := sumF t rnd [unpackF t rnd.ftz a, unpackF t rnd.ftz b]
/-- FSUB (R148). -/
def subF (t : FTy) (rnd : Rnd) (a b : Nat) : FR :=
  sumF t rnd [unpackF t rnd.ftz a, negX (unpackF t rnd.ftz b)]
/-- FMUL (R148). -/
def mulF (t : FTy) (rnd : Rnd) (a b : Nat) : FR := packF t rnd (mulX (unpackF t rnd.ftz a) (unpackF t rnd.ftz b))
/-- FFMA (R132, R148). -/
def fmaF (t : FTy) (rnd : Rnd) (a b c : Nat) : FR :=
  sumF t rnd [mulX (unpackF t rnd.ftz a) (unpackF t rnd.ftz b), unpackF t rnd.ftz c]
/-- FDOT2 of packed pairs (R132, R157). -/
def dot2F (t : FTy) (rnd : Rnd) (a b c : Nat) : FR :=
  let el (v i : Nat) := unpackF t rnd.ftz (v / 2 ^ (16 * i) % 2 ^ 16)
  sumF .f32 rnd [mulX (el a 0) (el b 0), mulX (el a 1) (el b 1), unpackF .f32 rnd.ftz c]

/-! Order (R149, R150). -/

/-- Compares two values that are not NaNs; zeros are equal. -/
def cmpX : Fl → Fl → Ordering
  | .inf a, .inf b => if a = b then .eq else if a then .lt else .gt
  | .inf a, _ => if a then .lt else .gt
  | _, .inf b => if b then .gt else .lt
  | a, b => compare (termAt (minExp [a, b] 0) a) (termAt (minExp [a, b] 0) b)

/-- A code with its subnormal flushed (R125). -/
def flushF (t : FTy) (ftz : Bool) (x : Nat) : Nat :=
  if ftz && x % 2 ^ (t.w - 1) < 2 ^ fmtM t then x / 2 ^ (t.w - 1) * 2 ^ (t.w - 1) else x

/-- FMIN and FMAX (R149): -0 orders below +0. -/
def minmaxF (t : FTy) (ftz max : Bool) (a b : Nat) : FR :=
  let x := unpackF t ftz a
  let y := unpackF t ftz b
  let fl := flagIf (isSigX x || isSigX y) NV
  if isNanX x && isNanX y then ⟨fmtNan t, fl⟩
  else if isNanX x then ⟨flushF t ftz b, fl⟩
  else if isNanX y then ⟨flushF t ftz a, fl⟩
  else
    let less := match cmpX x y with | .lt => true | .gt => false | .eq => signX x
    ⟨flushF t ftz (if less != max then a else b), fl⟩

/-- FCMP (R150): the truth and the flags. -/
def cmpF (c : FCond) (ftz : Bool) (a b : Nat) : Bool × BitVec 5 :=
  let x := unpackF .f32 ftz a
  let y := unpackF .f32 ftz b
  let un := isNanX x || isNanX y
  let sig := isSigX x || isSigX y
  let ord := cmpX x y
  match c with
  | .eq => (!un && ord == .eq, flagIf sig NV)
  | .ne => (un || ord != .eq, flagIf sig NV)
  | .lt => (!un && ord == .lt, flagIf un NV)
  | .le => (!un && ord != .gt, flagIf un NV)
  | .gt => (!un && ord == .gt, flagIf un NV)
  | .ge => (!un && ord != .lt, flagIf un NV)
  | .un => (un, flagIf sig NV)
  | .or => (!un, flagIf sig NV)

/-! FRCP, FRSQ, FLOG2 (R151). -/

/-- The integer square root, a bit at a time from bit k down. -/
def isqrt (n : Nat) : Nat → Nat → Nat
  | 0, r => r
  | k + 1, r => let c := r + 2 ^ k; isqrt n k (if c * c ≤ n then c else r)

/-- A quotient m/d 2^e rounded once: 2^80 m / d with a sticky bit. -/
def quoF (rnd : Rnd) (neg : Bool) (m d : Nat) (e : Int) : FR :=
  let n := m * 2 ^ 80
  roundF .f32 rnd neg (2 * (n / d) + bit (n % d != 0)) (e - 81)

def rcpF (rnd : Rnd) (a : Nat) : FR :=
  match unpackF .f32 rnd.ftz a with
  | .nan s => nanF .f32 s
  | .inf neg => ⟨fmtSign .f32 neg, 0⟩
  | .fin neg m e => if m = 0 then ⟨fmtSign .f32 neg + fmtInf .f32, DZ⟩ else quoF rnd neg 1 m (-e)

def rsqF (rnd : Rnd) (a : Nat) : FR :=
  match unpackF .f32 rnd.ftz a with
  | .nan s => nanF .f32 s
  | .inf neg => if neg then nanF .f32 true else ⟨0, 0⟩
  | .fin neg m e =>
    if m = 0 then ⟨fmtSign .f32 neg + fmtInf .f32, DZ⟩
    else if neg then nanF .f32 true
    else
      let odd := e % 2 != 0
      let m := if odd then 2 * m else m
      let e := if odd then e - 1 else e
      let y := isqrt (2 ^ 128 / m) 64 0
      roundF .f32 rnd false (2 * y + bit (y * y * m != 2 ^ 128)) (-(e / 2) - 65)

/-- The next bits of a binary logarithm by squaring: y is a number from 1 to 2 in units of 2^-320. -/
def log2Bits : Nat → Nat → Nat → Nat
  | 0, _, acc => acc
  | k + 1, y, acc =>
    let z := y * y / 2 ^ 320
    if 2 ^ 321 ≤ z then log2Bits k (z / 2) (2 * acc + 1) else log2Bits k z (2 * acc)

/-- FLOG2: an exact integer for a power of two; else 128 fraction bits of the logarithm, which is
irrational, with a sticky bit below them (log 7). -/
def log2F (rnd : Rnd) (a : Nat) : FR :=
  match unpackF .f32 rnd.ftz a with
  | .nan s => nanF .f32 s
  | .inf neg => if neg then nanF .f32 true else ⟨fmtInf .f32, 0⟩
  | .fin neg m e =>
    if m = 0 then ⟨fmtSign .f32 true + fmtInf .f32, DZ⟩
    else if neg then nanF .f32 true
    else
      let k := Nat.log2 m
      let n : Int := e + k
      if m = 2 ^ k then roundF .f32 rnd (decide (n < 0)) n.natAbs 0
      else
        let frac := log2Bits 128 (m * 2 ^ (320 - k)) 0
        let v : Int := 2 * (n * 2 ^ 128 + frac) + 1
        roundF .f32 rnd (decide (v < 0)) v.natAbs (-129)

/-! FEXP2 (R128). -/

/-- T[j], 2^(j/64) as F32. -/
def exp2Table : List Nat :=
  [0x3F800000, 0x3F8164D2, 0x3F82CD87, 0x3F843A29, 0x3F85AAC3, 0x3F871F62, 0x3F88980F, 0x3F8A14D5,
   0x3F8B95C2, 0x3F8D1ADF, 0x3F8EA43A, 0x3F9031DC, 0x3F91C3D3, 0x3F935A2B, 0x3F94F4F0, 0x3F96942D,
   0x3F9837F0, 0x3F99E046, 0x3F9B8D3A, 0x3F9D3EDA, 0x3F9EF532, 0x3FA0B051, 0x3FA27043, 0x3FA43516,
   0x3FA5FED7, 0x3FA7CD94, 0x3FA9A15B, 0x3FAB7A3A, 0x3FAD583F, 0x3FAF3B79, 0x3FB123F6, 0x3FB311C4] ++
  [0x3FB504F3, 0x3FB6FD92, 0x3FB8FBAF, 0x3FBAFF5B, 0x3FBD08A4, 0x3FBF179A, 0x3FC12C4D, 0x3FC346CD,
   0x3FC5672A, 0x3FC78D75, 0x3FC9B9BE, 0x3FCBEC15, 0x3FCE248C, 0x3FD06334, 0x3FD2A81E, 0x3FD4F35B,
   0x3FD744FD, 0x3FD99D16, 0x3FDBFBB8, 0x3FDE60F5, 0x3FE0CCDF, 0x3FE33F89, 0x3FE5B907, 0x3FE8396A,
   0x3FEAC0C7, 0x3FED4F30, 0x3FEFE4BA, 0x3FF28177, 0x3FF5257D, 0x3FF7D0DF, 0x3FFA83B3, 0x3FFD3E0C]

/-- S[j] for the first quarter, sin(2 pi j/256) as F32. -/
def sinTable : List Nat :=
  [0x00000000, 0x3CC90AB0, 0x3D48FB30, 0x3D96A905, 0x3DC8BD36, 0x3DFAB273, 0x3E164083, 0x3E2F10A2,
   0x3E47C5C2, 0x3E605C13, 0x3E78CFCC, 0x3E888E93, 0x3E94A031, 0x3EA09AE5, 0x3EAC7CD4, 0x3EB8442A,
   0x3EC3EF15, 0x3ECF7BCA, 0x3EDAE880, 0x3EE63375, 0x3EF15AEA, 0x3EFC5D27, 0x3F039C3D, 0x3F08F59B,
   0x3F0E39DA, 0x3F13682A, 0x3F187FC0, 0x3F1D7FD1, 0x3F226799, 0x3F273656, 0x3F2BEB4A, 0x3F3085BB] ++
  [0x3F3504F3, 0x3F396842, 0x3F3DAEF9, 0x3F41D870, 0x3F45E403, 0x3F49D112, 0x3F4D9F02, 0x3F514D3D,
   0x3F54DB31, 0x3F584853, 0x3F5B941A, 0x3F5EBE05, 0x3F61C598, 0x3F64AA59, 0x3F676BD8, 0x3F6A09A7,
   0x3F6C835E, 0x3F6ED89E, 0x3F710908, 0x3F731447, 0x3F74FA0B, 0x3F76BA07, 0x3F7853F8, 0x3F79C79D,
   0x3F7B14BE, 0x3F7C3B28, 0x3F7D3AAC, 0x3F7E1324, 0x3F7EC46D, 0x3F7F4E6D, 0x3F7FB10F, 0x3F7FEC43,
   0x3F800000]

/-- A step rounded RNE, its bits. -/
def rMul (a b : Nat) : Nat := (mulF .f32 Rnd.rne a b).bits
def rAdd (a b : Nat) : Nat := (addF .f32 Rnd.rne a b).bits
def rSub (a b : Nat) : Nat := (subF .f32 Rnd.rne a b).bits
def one32 : Nat := 0x3F800000

/-- The fraction of an exact value as (numerator, bits): x - floor x = numerator / 2^bits; and floor x. -/
def splitX (neg : Bool) (m : Nat) (e : Int) : Int × Nat × Nat :=
  let v : Int := if neg then -(m : Int) else m
  if 0 ≤ e then (v * 2 ^ e.toNat, 0, 0)
  else
    let k := (-e).toNat
    (v / 2 ^ k, (v % 2 ^ k).toNat, k)

def exp2F (ftz : Bool) (a : Nat) : FR :=
  match unpackF .f32 ftz a with
  | .nan s => nanF .f32 s
  | .inf neg => ⟨if neg then 0 else fmtInf .f32, 0⟩
  | .fin neg m e =>
    let (n, f, k) := splitX neg m e
    if 128 ≤ n then ⟨fmtInf .f32, OF ||| NX⟩
    else if n < -150 then ⟨0, UF ||| NX⟩
    else
      let j := 64 * f / 2 ^ k
      let r := (roundF .f32 Rnd.rne false (64 * f - j * 2 ^ k) (-(k : Int) - 6)).bits
      let u := rMul 0x3E75FDF0 r
      let u := rAdd 0x3F317218 u
      let u := rMul u r
      let u := rAdd one32 u
      match unpackF .f32 false (rMul (exp2Table.getD j 0) u) with
      | .fin _ ym ye =>
        let y := roundF .f32 Rnd.rne false ym (ye + n)
        if ftz && y.bits < 2 ^ 23 && y.bits != 0 then ⟨0, UF ||| NX⟩
        else ⟨y.bits, flagIf (f != 0 || y.fl &&& NX != 0) NX⟩
      | _ => ⟨fmtInf .f32, OF ||| NX⟩

/-! FSCOS and FTWID (R129, R130). -/

/-- S[j], by the symmetries of the sine. -/
def sinAt (j : Nat) : Nat :=
  let half := j % 128
  let v := if half ≤ 64 then sinTable.getD half 0 else sinTable.getD (128 - half) 0
  if 128 ≤ j % 256 && v != 0 then v + 2 ^ 31 else v
/-- C[j]. -/
def cosAt (j : Nat) : Nat := sinAt (j + 64)

/-- cos and sin of the turn f / 2^k, f below 2^k. -/
def turn (f k : Nat) : Nat × Nat :=
  let j := 256 * f / 2 ^ k
  let g := (roundF .f32 Rnd.rne false (256 * f - j * 2 ^ k) (-(k : Int) - 8)).bits
  let th := rMul g 0x40C90FDB
  let t := rMul th th
  let cp := rSub one32 (rMul t 0x3F000000)
  let sp := rMul th (rSub one32 (rMul t 0x3E2AAAAB))
  (rSub (rMul (cosAt j) cp) (rMul (sinAt j) sp), rAdd (rMul (sinAt j) cp) (rMul (cosAt j) sp))

/-- The pair as one value of two registers. -/
def pairOf (p : Nat × Nat) : Nat := p.1 + 2 ^ 32 * p.2

def scosF (ftz : Bool) (a : Nat) : FR :=
  match unpackF .f32 ftz a with
  | .nan s => ⟨pairOf (fmtNan .f32, fmtNan .f32), flagIf s NV⟩
  | .inf _ => ⟨pairOf (fmtNan .f32, fmtNan .f32), NV⟩
  | .fin neg m e =>
    let (_, f, k) := splitX neg m e
    ⟨pairOf (turn f k), flagIf (4 * f % 2 ^ k != 0) NX⟩

/-- The exact cosine and sine of -q quarter turns. -/
def quarter (q : Nat) : Nat × Nat :=
  match q % 4 with
  | 0 => (one32, 0)
  | 1 => (0, one32 + 2 ^ 31)
  | 2 => (one32 + 2 ^ 31, 0)
  | _ => (0, one32)

/-- Equal values: zeros of both signs are equal. -/
def sameVal (a b : Nat) : Bool := a == b || (a % 2 ^ 31 == 0 && b % 2 ^ 31 == 0)

def twidF (k n : Nat) : FR :=
  if n = 0 then ⟨pairOf (fmtNan .f32, fmtNan .f32), NV⟩
  else
    let p := if n = 2 ^ Nat.log2 n && Nat.log2 n ≤ 24 then turn ((n - k % n) % n) (Nat.log2 n)
      else
        match unpackF .f32 false (quoF Rnd.rne true k n 0).bits with
        | .fin neg m e => let (_, f, k) := splitX neg m e; turn f k
        | _ => (0, 0)
    let q := quarter (4 * k / n)
    let exact := 4 * k % n == 0 && sameVal p.1 q.1 && sameVal p.2 q.2
    ⟨pairOf p, flagIf (!exact) NX⟩

/-! FCVT, FRND, FCLASS (R126, R154 to R156). -/

/-- Floating point to an integer type (R126). -/
def toIntF (t : ITy) (rnd : Rnd) (x : Fl) : FR :=
  let lo : Int := if t.signed then -(2 ^ (t.w - 1) : Nat) else 0
  let hi : Int := if t.signed then (2 ^ (t.w - 1) : Nat) - 1 else (2 ^ t.w : Nat) - 1
  match x with
  | .nan _ => ⟨0, NV⟩
  | .inf neg => ⟨wrap t.w (if neg then lo else hi), NV⟩
  | .fin neg m e =>
    let r := roundInt rnd.mode neg m (-e)
    let v : Int := if neg then -(r.1 : Int) else r.1
    if v < lo then ⟨wrap t.w lo, NV⟩
    else if hi < v then ⟨wrap t.w hi, NV⟩
    else ⟨wrap t.w v, flagIf r.2 NX⟩

/-- FCVT of one element (R154). -/
def cvtF (src dst : NTy) (rnd : Rnd) (x : Nat) : FR :=
  match src, dst with
  | .f a, .f b => packF b rnd (unpackF a rnd.ftz x)
  | .f a, .i b => toIntF b rnd (unpackF a rnd.ftz x)
  | .i a, .f b =>
    let v : Int := if a.signed then sgn a.w x else x
    roundF b rnd (decide (v < 0)) v.natAbs 0
  | .i _, .i _ => ⟨x, 0⟩

/-- FRND (R155). -/
def rndF (t : FTy) (rnd : Rnd) (x : Nat) : FR :=
  match unpackF t rnd.ftz x with
  | .nan s => nanF t s
  | .inf neg => infF t neg
  | .fin neg m e => ⟨(roundF t Rnd.rne neg (roundInt rnd.mode neg m (-e)).1 0).bits, 0⟩

/-- FCLASS (R156). -/
def classF (t : FTy) (x : Nat) : Nat :=
  match unpackF t false x with
  | .nan s => if s then 2 ^ 8 else 2 ^ 9
  | .inf neg => if neg then 1 else 2 ^ 7
  | .fin neg m _ =>
    if m = 0 then (if neg then 2 ^ 3 else 2 ^ 4)
    else if m < 2 ^ fmtM t then (if neg then 2 ^ 2 else 2 ^ 5)
    else if neg then 2 else 2 ^ 6

/-! Packed and complex operands (R138, R131, R158). -/

/-- An operation on each of the packed elements of a register. -/
def packed2 (t : FTy) (f : Nat → Nat → FR) (a b : Nat) : FR :=
  if t.w = 32 then f a b
  else
    let lo := f (a % 2 ^ 16) (b % 2 ^ 16)
    let hi := f (a / 2 ^ 16) (b / 2 ^ 16)
    ⟨lo.bits + 2 ^ 16 * hi.bits, lo.fl ||| hi.fl⟩

/-- A complex value, real part low, elements of a format's width. -/
def cplx (t : FTy) (re im : FR) : FR := ⟨re.bits + 2 ^ t.w * im.bits, re.fl ||| im.fl⟩
def reOf (t : FTy) (v : Nat) : Nat := v % 2 ^ t.w
def imOf (t : FTy) (v : Nat) : Nat := v / 2 ^ t.w % 2 ^ t.w

/-- A complex product, each step rounded (R131). -/
def cmulF (t : FTy) (rnd : Rnd) (a b : Nat) : FR :=
  let ac := mulF t rnd (reOf t a) (reOf t b)
  let bd := mulF t rnd (imOf t a) (imOf t b)
  let ad := mulF t rnd (reOf t a) (imOf t b)
  let bc := mulF t rnd (imOf t a) (reOf t b)
  let re := subF t rnd ac.bits bd.bits
  let im := addF t rnd ad.bits bc.bits
  let z := cplx t re im
  ⟨z.bits, z.fl ||| ac.fl ||| bd.fl ||| ad.fl ||| bc.fl⟩

/-- FBFLY (R131): a + wb low, a - wb high. -/
def bflyF (t : FTy) (rnd : Rnd) (a b w : Nat) : FR :=
  let p := cmulF t rnd w b
  let x := cplx t (addF t rnd (reOf t a) (reOf t p.bits)) (addF t rnd (imOf t a) (imOf t p.bits))
  let y := cplx t (subF t rnd (reOf t a) (reOf t p.bits)) (subF t rnd (imOf t a) (imOf t p.bits))
  ⟨x.bits + 2 ^ (2 * t.w) * y.bits, x.fl ||| y.fl ||| p.fl⟩

end Sys2Proof.Machine
end

