-- ==== Sys2Proof/Machine/Perform.lean ====
section
/-! DEFINITION. Where a byte of a space lies (R165 to R173), writes at their homes with ownership and the
trigger compare (R296, R309, R317), atomics (R190), the units' own reads and writes, and what performs,
acknowledges and answers an access in flight (R296 to R302). -/

namespace Sys2Proof.Machine

/-! Addresses of the spaces. -/

/-- Where an access lies: its key and replacement class, or why it has none. -/
inductive At where
  | ok (key cls : Nat)
  | prot
  | unmapped
deriving DecidableEq, Repr

/-- Pack bytes of a block (R168). -/
def Launch.packBytes (l : Launch) : Nat := cdiv l.pack 4096 * 4096

/-- A core's place in its stack: x and y (R166). -/
def coreX (n : Nat) : Nat := n % 144 % 12
def coreY (n : Nat) : Nat := n % 144 / 12

/-- The core at position p of the cluster of a core (R166). -/
def clusterCore (n p : Nat) : Nat :=
  144 * (n / 144) + 12 * (coreY n / 2 * 2 + p / 2) + (coreX n / 2 * 2 + p % 2)

/-- The place of a camp byte (R170). -/
def State.campAt (s : State) (core o : Nat) : At :=
  let lend := (s.core core).lend * 4096
  if 4 * lend ≤ o then .prot
  else
    let p := o / 4096
    .ok (campKey (clusterCore core (p % 4)) (2 ^ 20 - lend + p / 4 * 4096 + o % 4096)) 0

/-- The place of a base-camp byte (R173). -/
def State.bcampAt (s : State) (ctx a : Nat) : At :=
  let x := s.ctx ctx
  let lo := x.bcLo * 65536
  let ns := 144 * s.stacksN
  let pick (slice off : Nat) : At :=
    if off < lo || x.bcHi * 65536 ≤ off || s.bcSize * 2 ^ 19 ≤ off then .prot else .ok (bcampKey slice off) 0
  if 2 ^ 34 ≤ a then .prot
  else match fld a 32 2 with
    | 0 =>
      let g := fld a 0 32 / 256
      pick (g % ns) (lo + g / ns * 256 + a % 256)
    | 1 =>
      if 143 < fld a 22 8 || s.stacksN ≤ fld a 30 2 then .prot
      else pick (144 * fld a 30 2 + fld a 22 8) (fld a 0 22)
    | _ => .prot

/-- The place of one byte, for a party with the permissions it needs (R165, R188, R289). -/
def State.byteAt (s : State) (w : Who) (sp : Space) (lane a : Nat) (r wr : Bool) : At :=
  match sp with
  | .glob =>
    match s.translate w.core w.ctx a with
    | .unmapped => .unmapped
    | .noperm => .prot
    | .ok e => if (r && !e.r) || (wr && !e.w) then .prot else .ok (e.phys a) e.cls
  | .pocket => if a < w.pl then .ok (pocketKey w.uid lane a) 0 else .prot
  | .pack => if a < w.pack then .ok (packKey w.blk a) 0 else .prot
  | .camp => s.campAt w.core a
  | .bcamp => s.bcampAt w.ctx a

/-- The place of n bytes, of which the first and the last decide. -/
def State.spanAt (s : State) (w : Who) (sp : Space) (lane a n : Nat) (r wr : Bool) : At :=
  match s.byteAt w sp lane a r wr, s.byteAt w sp lane (a + n - 1) r wr with
  | .prot, _ => .prot
  | _, .prot => .prot
  | .unmapped, _ => .unmapped
  | _, .unmapped => .unmapped
  | x, _ => x

/-- An area as pieces that stay within 64 aligned bytes: (address, length). -/
def pieces : Nat → Nat → Nat → List (Nat × Nat)
  | 0, _, _ => []
  | fuel + 1, a, n =>
    if n = 0 then []
    else
      let k := min n (64 - a % 64)
      (a, k) :: pieces fuel (a + k) (n - k)

def piecesOf (a n : Nat) : List (Nat × Nat) := pieces (n / 64 + 2) a n

/-- The places of an area's pieces, as (key, class, length), up to the first that fails: its address and
whether it is unmapped. A missing permission anywhere comes before an unmapped piece (R188, R412). -/
def State.areaAt (s : State) (w : Who) (sp : Space) (r wr : Bool) :
    List (Nat × Nat) → List (Nat × Nat × Nat) × Option (Nat × Bool)
  | [] => ([], none)
  | (a, n) :: rest =>
    match s.byteAt w sp 0 a r wr with
    | .ok k c =>
      let (ps, f) := s.areaAt w sp r wr rest
      ((k, c, n) :: ps, f)
    | .unmapped => match (s.areaAt w sp r wr rest).2 with
      | some (b, false) => ([], some (b, false))
      | _ => ([], some (a, true))
    | .prot => ([], some (a, false))

def State.area (s : State) (w : Who) (sp : Space) (a n : Nat) (r wr : Bool) :
    List (Nat × Nat × Nat) × Option (Nat × Bool) := s.areaAt w sp r wr (piecesOf a n)

/-! Writes at their homes (R296, R309, R317). -/

/-- Who writes: the core that comes to own whole words, the depth, the package. -/
structure Writer where
  owner : Option Nat
  depth : Nat
  src   : Nat
deriving DecidableEq, Repr

/-- The cores that lose the words of a write (R296). -/
def State.losers (s : State) (w : Writer) (pa len : Nat) : List Nat :=
  ((wordsOf pa len).filterMap fun x =>
    match s.owners.find x with
    | none => none
    | some c => if w.owner = some c && (fullWords pa len).contains x then none else some c).dedup

/-- The registry after a write. -/
def regOwners (owners : Tbl Nat) (w : Writer) (pa len : Nat) : Tbl Nat :=
  (wordsOf pa len).foldl (fun o x =>
    match w.owner with
    | some c => if (fullWords pa len).contains x then o.put x c else o.del x
    | none => o.del x) owners

/-- A write within 64 aligned bytes is performed at its home: it is compared where triggers says so, the
line's version rises, ownership changes. Answers the new version and the cores to revoke. -/
def State.perform (s : State) (w : Writer) (pa cls : Nat) (bs : List Byte) (triggers : Bool) :
    State × W32 × List Nat :=
  let old := s.memRead pa bs.length
  let out := s.losers w pa bs.length
  let (s, v) := (s.memWrite pa bs).l2Access pa cls true
  let s := { s with owners := regOwners s.owners w pa bs.length }
  (if triggers then s.compare pa w.depth w.src old bs else s, v, out)

/-- A revocation reaches a core: it invalidates the words of a write and ends the core's ownership of them (R296). -/
def State.revokeAt (s : State) (core pa len : Nat) : State :=
  s.modCore core fun c => (wordsOf pa len).foldl Core.revokeWord c

/-- Puts an access in flight. -/
def State.addAccess (s : State) (a : Access) : State :=
  { s with accs := s.accs ++ [{ a with id := s.seq }] }.tickSeq

/-- The home of a byte of another package, as one number. -/
def State.homeThere (s : State) (pa : Nat) : Nat := 1024 * pkgOf pa + s.sliceNo pa

/-- One of some ports, by a hash of the destination home that the manual does not give (R389); none of an empty list. -/
def pickPort (ports : List Nat) (home : Nat) : Option Nat := ports[Config.pathOf home % ports.length]?

/-- Puts an access in flight; one to another package travels as a packet with the next sequence number for that package, over
a port that is up (R302, R389). -/
def State.send (s : State) (a : Access) : State :=
  if !a.global || s.local_ a.key then s.addAccess a
  else
    let n := s.sent.get 0 (pkgOf a.key)
    State.addAccess { s with sent := s.sent.put (pkgOf a.key) ((n + 1) % 2 ^ 32) }
      { a with pkgSeq := some (pkgOf a.key, n), port := pickPort s.portsUp (s.homeThere a.key) }

/-- The ports that may carry the packet of an access: those up that have not failed since it was numbered (R390, R391). -/
def State.pathsFor (s : State) (a : Access) : List Nat := s.portsUp.filter fun k => !a.barred.contains k

/-- Whether the packet of an access has a path: its port is up, or it is not on one and a port that may carry it is up now
(R390). -/
def State.onPath (s : State) (a : Access) : Bool :=
  a.pkgSeq.isNone || match a.port with | some k => s.portsUp.contains k | none => !(s.pathsFor a).isEmpty

/-- A port fails or is taken down: every packet sent on it and not acknowledged is sent again over another port that is up, with
its number, or once there is one (R390); a port that retrains later carries new packets only (R391). -/
def State.resend (s : State) (k : Nat) : State :=
  { s with accs := s.accs.map fun (a : Access) =>
      if a.pkgSeq.isNone then a
      else
        let b := { a with barred := k :: a.barred.filter (· != k) }
        if a.port == some k then { b with port := pickPort (s.pathsFor b) (s.homeThere a.key) } else b }

/-- The core number of a unit's access: above every core's, and naming the package of the writing party (R315). -/
def unitCore (src : Nat) : Nat := 65536 + src
/-- Whether an access is a unit's. -/
def Access.ofUnit (a : Access) : Bool := decide (65536 ≤ a.core)

/-- A context number that no context has: that of accesses from outside every context. -/
def noCtx : Nat := 1024

/-- Who makes a unit's write: its context, the operation it belongs to (0 for none), its depth, the package of the writing
party. -/
structure Unit_ where
  ctx   : Nat
  id    : Nat
  depth : Nat
  src   : Nat
deriving DecidableEq, Repr

/-- A unit's access in flight: what a store or an atomic of no core would be. -/
def Unit_.access (u : Unit_) (kind : AccK) (grp k cls n : Nat) (held : Bool) : Access :=
  ⟨0, kind, u.id, unitCore u.src, u.ctx, k, n, 0, cls, false, 0, grp, u.depth, [], 0, false, 0, held, [], none, false, none, false,
    none, false, []⟩

/-- Whether a unit's write must wait for room in a spill ring (R317). -/
def State.unitHeld (s : State) (k : Nat) (bs : List Byte) : Bool :=
  k < 2 ^ 56 && s.local_ k && s.mustHold k (s.memRead k bs.length) bs

/-- Whether an earlier write of a unit's operation to some of n bytes still waits at its home. -/
def State.behind (s : State) (id k n : Nat) : Bool :=
  s.accs.any fun a => a.ofUnit && a.uid == id && a.stage == 0 && decide (a.key < k + n) && decide (k < a.key + a.len)

/-- Whether some access of an operation is still to be performed or acknowledged. -/
def State.outstanding (s : State) (id : Nat) : Bool := s.accs.any fun a => a.ofUnit && a.uid == id

/-- A write of a unit within 64 aligned bytes: on chip it is performed; in this package it is performed, clearing ownership and
revoking, or held where triggers says that it is compared (R296, R317); to another package it travels as a packet that awaits
its acknowledgement (R302). -/
def State.unitPut (s : State) (u : Unit_) (k cls : Nat) (bs : List Byte) (triggers : Bool) : State :=
  if 2 ^ 56 ≤ k then s.memWrite k bs
  else if !s.local_ k then s.send (u.access (.write bs) s.seq k cls bs.length false)
  else if triggers && (s.unitHeld k bs || s.behind u.id k bs.length) then
    s.addAccess (u.access (.write bs) s.seq k cls bs.length true)
  else
    let (s, _, out) := s.perform ⟨none, u.depth, u.src⟩ k cls bs triggers
    out.foldl (fun s c => s.revokeAt c k bs.length) s

/-- Writes bytes over pieces (key, class, length), in order. -/
def State.putEach (s : State) (u : Unit_) (triggers : Bool) : List (Nat × Nat × Nat) → List Byte → State
  | [], _ => s
  | (k, c, n) :: rest, bs => (s.unitPut u k c (bs.take n) triggers).putEach u triggers rest (bs.drop n)

/-- What the bytes of a write do to the pieces they fall on that lie in watched granules: for each, whether it changes. -/
def State.watched (s : State) : List (Nat × Nat × Nat) → List Byte → List Bool
  | [], _ => []
  | (k, _, n) :: rest, bs =>
    let l := s.watched rest (bs.drop n)
    if k < 2 ^ 56 && s.local_ k && !(s.granules k).isEmpty then (s.memRead k n != bs.take n) :: l else l

/-- A write that touches watched granules and is silent for each of them is counted once, where its first bytes lie
(R309, R331). -/
def State.countSilent (s : State) (ps : List (Nat × Nat × Nat)) (bs : List Byte) : State :=
  let w := s.watched ps bs
  if w.isEmpty || w.any id then s else s.bump .silent (s.homeOf ((ps.headD (0, 0, 0)).1)).1 1

/-- One write of a unit over pieces, in order. -/
def State.putPieces (s : State) (u : Unit_) (triggers : Bool) (ps : List (Nat × Nat × Nat)) (bs : List Byte) : State :=
  (if triggers then s.countSilent ps bs else s).putEach u triggers ps bs

/-- One write of a unit within 64 aligned bytes. -/
def State.putWord (s : State) (u : Unit_) (k cls : Nat) (bs : List Byte) : State := s.putPieces u true [(k, cls, bs.length)] bs

/-- A group of writes of a unit. -/
def State.putAll (s : State) (u : Unit_) (xs : List Put) : State := xs.foldl (fun s x => s.putPieces u true x.places x.bytes) s

/-- Whether some piece of a write would have to wait in a spill ring's want of room (R317). -/
def State.heldPieces (s : State) : List (Nat × Nat × Nat) → List Byte → Bool
  | [], _ => false
  | (k, _, n) :: rest, bs => s.unitHeld k (bs.take n) || s.heldPieces rest (bs.drop n)

/-- Reads pieces at their homes. -/
def State.getPieces (s : State) (ps : List (Nat × Nat × Nat)) : List Byte :=
  ps.flatMap fun p => s.homeRead p.1 p.2.2

/-- What the reading of pieces at their homes leaves there (R292, R394). -/
def State.readPieces (s : State) (ps : List (Nat × Nat × Nat)) : State := ps.foldl (fun s p => s.readAt p.1 p.2.1) s

/-- The slice of the first of some pieces that carries an uncorrectable error meets it (R371). -/
def State.noteBad (s : State) (ps : List (Nat × Nat × Nat)) : State :=
  match ps.find? fun p => s.eccBad p.1 with | some p => s.noteEcc p.1 | none => s

/-- Whether read data carry an uncorrectable error. -/
def State.badPieces (s : State) (ps : List (Nat × Nat × Nat)) : Bool := ps.any fun p => s.eccBad p.1

/-- An aligned word of a unit, or none where it cannot be reached. -/
def State.unitWord (s : State) (w : Who) (sp : Space) (a n : Nat) (r wr : Bool) : Option (Nat × Nat × Nat) :=
  match s.spanAt w sp 0 a n r wr with
  | .ok k c => some (k, c, ofLe (s.homeRead k n))
  | _ => none

/-- A unit of the front end or the save engine in a context: no core's TLB. -/
def unitWho (ctx : Nat) : Who := ⟨1024, ctx, 0, 0, 0, 0⟩

/-! Atomics (R190). -/

def ftOf : Fin 3 → FTy
  | 0 => .f32 | 1 => .f16 | 2 => .bf16

/-- The new value of an atomic of w bits; b is the operand or the new value of CAS, c its compare (R190). -/
def atomNew (op : AOp) (ft : Nat) (sx : Bool) (w old b c : Nat) : Nat :=
  let t : FTy := match ft with | 0 => .f32 | 1 => .f16 | _ => .bf16
  let less : Bool := if sx then decide (sgn w b < sgn w old) else decide (b < old)
  match op with
  | .xchg => b
  | .cas => if old = c then b else old
  | .add => (old + b) % 2 ^ w
  | .min => if less then b else old
  | .max => if less then old else b
  | .and => old &&& b
  | .or => old ||| b
  | .xor => old ^^^ b
  | .inc => if b ≤ old then 0 else old + 1
  | .dec => if old = 0 || b < old then b else old - 1
  | .fadd => (addF t Rnd.rne old b).bits
  | .fmin => (minmaxF t false false old b).bits
  | .fmax => (minmaxF t false true old b).bits

/-! Accesses. -/

/-- The source package of local writers (R315). -/
def State.here (s : State) : Nat := s.pkg

/-- After a write of a core: no response to a read of the core to the line is older than it, so that none fills a word the core
owns with what it held before (R296, R301). -/
def State.noOlder (s : State) (a : Access) : State :=
  { s with accs := s.accs.map fun (b : Access) =>
    if b.isRead && b.core == a.core && b.global && b.key / 128 == a.key / 128 then { b with snap := none } else b }

/-- After a write of a core at its home in this package: noOlder, and the team has seen the line's version (R297). -/
def State.storeSeen (s : State) (a : Access) (v : W32) : State := (s.noOlder a).noteVer a.uid (a.key / 128) v

/-- The owner that an access makes of the whole words it covers: a store of a core, no unit and no atomic (R296). -/
def Access.owner (a : Access) : Option Nat := if a.isWrite && !a.ofUnit then some a.core else none
/-- The package of the party that writes (R315). -/
def State.srcOf (s : State) (a : Access) : Nat := if a.ofUnit then a.core - 65536 else s.here

/-- The cores that must drop the words of an access: those that lose them, and for the store of a descriptor every other core
with a copy of its line (R195, R296). -/
def State.mustDrop (s : State) (a : Access) (out : List Nat) : List Nat :=
  if !a.wide then out
  else (out ++ (s.cores.filter fun (c : Nat × Core) => c.1 != a.core && (c.2.l1Line (a.key / 128)).isSome).map Prod.fst).dedup

/-- Reads of a descriptor's line that other cores have in flight fill no L1 once it is stored (R195). -/
def State.noCopies (s : State) (a : Access) : State :=
  if !a.wide then s
  else { s with accs := s.accs.map fun (b : Access) =>
    if b.isRead && b.core != a.core && b.key / 128 == a.key / 128 then { b with noFill := true } else b }

/-- The cores of this package that lose words homed in another one to a write of this one: those that own them but the writer
of whole words (R296). -/
def State.losersHere (s : State) (a : Access) (owner : Option Nat) : List Nat :=
  (s.cores.filter fun (c : Nat × Core) => (wordsOf a.key a.len).any fun w =>
    c.2.own.get false w && !(owner == some c.1 && (fullWords a.key a.len).contains w)).map Prod.fst

/-- A write or atomic at its home puts new bytes there; it then waits for its acknowledgement. -/
def State.land (s : State) (a : Access) (bs : List Byte) : State :=
  if !a.global then (s.memWrite a.key bs).modAccess a.id fun a => { a with stage := 1, held := false }
  else if !s.local_ a.key then
    ((s.modAccess a.id fun b => { b with stage := 1, revoke := s.mustDrop a (s.losersHere a a.owner) }).noOlder a).noCopies a
  else
    let s := s.countSilent [(a.key, a.cls, a.len)] bs
    let (s, v, out) := s.perform ⟨a.owner, a.depth, s.srcOf a⟩ a.key a.cls bs true
    ((s.modAccess a.id fun b => { b with stage := 1, held := false, revoke := s.mustDrop a out }).storeSeen a v).noCopies a

/-- Whether an access at its home must be held (R317). -/
def State.accHeld (s : State) (a : Access) (bs : List Byte) : Bool :=
  a.global && s.local_ a.key && s.mustHold a.key (s.memRead a.key a.len) bs

/-- Slices of a core that nothing needs any more are released (R86). -/
def State.settleCore (s : State) (core : Nat) : State :=
  let pend := s.core core |>.phys
  if pend.isEmpty then s else s.sweep core

/-- The last access of an acquire is bound (R298). -/
def State.boundAcq (s : State) (a : Access) : State :=
  if a.acq && !(s.accs.any fun b => b.grp == a.grp && b.uid == a.uid && b.stage == 0) then s.acquired a.core a.uid
  else s

/-- A store is performed at its home, or held there (STORE_PERFORM, HELD_WRITE_RELEASE). -/
def State.doStore (s : State) (a : Access) (bs : List Byte) : State :=
  if s.accHeld a bs then s.modAccess a.id fun a => { a with held := true }
  else s.land a bs

/-- An atomic is performed at its home: the old value returns, over a path that works (R390), the new one is written
(R190, R298). -/
def State.doAtomic (s : State) (a : Access) (op : AOp) (ft : Nat) (sx : Bool) (b c : W64) : State :=
  if !s.onPath a then s else
  let old := ofLe (s.homeRead a.key a.len)
  let w := 8 * a.len
  let new := toLe a.len (atomNew op ft sx w old (b.toNat % 2 ^ w) (c.toNat % 2 ^ w))
  let s := s.corrected a.key
  if s.eccBad a.key then (s.dropAccess a.id).eccFault a
  else if s.accHeld a new then s.modAccess a.id fun a => { a with held := true }
  else
    let s := if a.global && !s.local_ a.key then s.tickFree else s
    let s := (s.land a new).deliver a old
    let s := s.modAccess a.id fun a => { a with dests := [] }
    (s.boundAcq a).settleCore a.core

/-- A write or atomic is acknowledged once every revocation has been applied (R296), over a path that works (R390). -/
def State.doAck (s : State) (a : Access) : State :=
  if a.stage == 1 && a.revoke.isEmpty && s.onPath a then s.dropAccess a.id else s

/-! Read responses (R297, R298, R394). -/

/-- A read is bound to bytes: they are delivered and the access is over. -/
def State.bindRead (s : State) (a : Access) (v : Nat) : State :=
  ((((s.deliver a v).dropAccess a.id).boundAcq a).settleCore a.core)

/-- The oldest plain read of the same line that is pending at a router (R297). -/
def State.mergeWith (s : State) (a : Access) : Option Access :=
  s.accs.find? fun b => b.id < a.id && b.isRead && b.global && !b.acq && !b.noMerge && s.mayPerform b &&
    b.key / 128 == a.key / 128

/-- Words of a line that an unacknowledged store of the core touches (R296). -/
def State.busyWords (s : State) (core line : Nat) : List Nat :=
  s.accs.flatMap fun a =>
    if a.core == core && a.isWrite && a.global && a.key / 128 == line then wordsOf a.key a.len else []

/-- A line with its version answers a global read; one that is older than what the core or the team has
seen is discarded and the read issued again (R297). -/
def State.answer (s : State) (a : Access) (bytes : List Byte) (ver : W32) : State :=
  let line := a.key / 128
  let old := (match (s.core a.core).l1Line line with | some l => older ver l.ver | none => false) ||
    (match s.lastVer a.uid line with | some v => older ver v | none => false)
  if old then
    let (s, bs, v) := s.homeLine a.key a.cls
    (s.modAccess a.id fun a => { a with noMerge := true, snap := some (bs, v) }).bump .reissue a.core 1
  else
    let s := if a.acq || a.noFill then s else s.modCore a.core fun c => c.fill line bytes ver (s.busyWords a.core line) a.id
    (s.noteVer a.uid line ver).bindRead a (ofLe ((bytes.drop (a.key % 128)).take a.len))

/-- A read response arrives: what it holds is as how says (0 what the home holds now, 1 what it held at
the issue, 2 what the home holds now, for an older pending read of the line into which this one was merged and for this one,
3 an uncorrectable error, 4 as 0 with an error that was corrected). A merged read is thus performed after both were issued, and
no response is older than the issue of its read, which follows every acquire that its team has bound (R297, R298). -/
def State.respond (s : State) (a : Access) (how : Nat) : State :=
  if !s.onPath a then s else
  let s := s.corrected a.key
  let s := if how = 4 then s.bump .cecnt 0 1 else s
  if how = 3 || s.eccBad a.key then (s.dropAccess a.id).eccFault a
  else if !a.global then s.bindRead a (ofLe (s.memRead a.key a.len))
  else
    let fresh : State :=
      let (s, bs, v) := s.homeLine a.key a.cls
      s.answer a bs v
    if a.acq || a.noMerge then fresh
    else match how with
      | 1 => match a.snap with
        | some (bs, v) => s.answer a bs v
        | none => fresh
      | 2 => match s.mergeWith a with
        | some b =>
          let (s, bs, v) := s.homeLine b.key b.cls
          ((s.bump .merge (stackOf a.core) 1).answer b bs v).answer a bs v
        | none => fresh
      | _ => fresh

/-! Signals and words of the units. -/

/-- Whether what keeps a party from an address is an uncorrectable error in an entry that its walk reads (R394). -/
def State.walkEcc (s : State) (w : Who) (sp : Space) (a : Nat) : Bool :=
  sp == .glob && !((s.core w.core).tlb.any fun e => e.hits w.ctx a) && s.walkBad w.ctx a

/-- A unit of a stack translates an address of a context: it has no TLB, so this is a walk, or joins one in flight on the
stack (R290, R294). Its walk bears a number above every core's. -/
def State.unitWalk (s : State) (st ctx a : Nat) : State := s.startWalk st (unitCore s.pkg) ctx a

/-- The pages of global addresses. -/
def pagesIn (sp : Space) (as : List Nat) : List Nat := if sp != .glob then [] else (as.map (· / 65536)).dedup.map (· * 65536)

/-- An engine of a stack translates the pages of global addresses, each once (DESIGN CHOICE, log 47). -/
def State.unitWalks (s : State) (st : Nat) (w : Who) (sp : Space) (as : List Nat) : State :=
  (pagesIn sp as).foldl (fun s p => s.unitWalk st w.ctx p) s

/-- Whether a unit's translation of some addresses must wait for one of the 64 walkers of its stack (R290). -/
def State.unitWaits (s : State) (st : Nat) (w : Who) (sp : Space) (as : List Nat) : Bool :=
  decide (64 ≤ s.walkersBusy st) && (pagesIn sp as).any fun p => !s.walking st w.ctx p

/-- What a unit does to a word: it adds to it, or puts a value there. -/
inductive WordOp where
  | add (v : Nat)
  | put (v : Nat)
deriving DecidableEq, Repr

/-- The word's new value. -/
def WordOp.on (f : WordOp) (v : Nat) : Nat := match f with | .add d => (v + d) % 2 ^ 64 | .put n => n % 2 ^ 64
/-- As an access: an addition is an atomic, a value a store. -/
def WordOp.kind : WordOp → AccK
  | .add d => .atomic .add 0 false (BitVec.ofNat 64 d) 0
  | .put v => .write (toLe 8 v)

/-- A unit changes what lies at a place, to new bytes: at once where it may, else as an access of its own kind that waits at its
home or travels to another package (R296, R302, R317). -/
def State.changeAt (s : State) (u : Unit_) (kind : AccK) (k cls : Nat) (new : List Byte) : State :=
  if k < 2 ^ 56 && !s.local_ k then s.send (u.access kind s.seq k cls new.length false)
  else if s.unitHeld k new || s.behind u.id k new.length then s.addAccess (u.access kind s.seq k cls new.length true)
  else s.putWord u k cls new

/-- A unit changes a 64-bit word. -/
def State.wordAt (s : State) (u : Unit_) (k cls : Nat) (f : WordOp) : State :=
  s.changeAt u f.kind k cls (toLe 8 (f.on (ofLe (s.homeRead k 8))))

/-- An aligned 64-bit word at an address of a context is changed at its home by a unit (R335, R354, R356), for the packet or the
operation id; none where it lacks the permissions. That units walk at their partition's first stack is a DESIGN CHOICE (log 47). -/
def State.unitUpd (s : State) (ctx a : Nat) (r : Bool) (f : WordOp) (id : Nat := 0) : Option State :=
  let s := s.unitWalk (s.partn (s.ctx ctx).part).first ctx a
  match s.walk ctx a with
  | .ok e => if (r && !e.r) || !e.w then none else some (s.wordAt ⟨ctx, id, 0, s.pkg⟩ (e.phys a) e.cls f)
  | _ => none

/-- The cause of a unit whose address has no translation that serves: PROT, or ECC where an entry that the walk reads carries an
uncorrectable error (R394, R414). -/
def State.walkCause (s : State) (ctx a : Nat) : Cause := if s.walkBad ctx a then .ecc else .prot

/-- A decrement (R335). -/
def decrement : WordOp := .add (2 ^ 64 - 1)

/-- A signal is decremented as a release; where its page is gone, PROT is raised (R335, R414). -/
def State.signal (s : State) (ctx part a : Nat) (id : Nat := 0) : State :=
  match s.unitUpd ctx a true decrement id with
  | some s => s
  | none => s.fatal part (632 + (s.partn part).first) (s.walkCause ctx a) 0 0 (BitVec.ofNat 64 a)

end Sys2Proof.Machine
end

