-- ==== Sys2Proof/Machine/Memory.lean ====
section
/-! DEFINITION. LD, ST, ATOM, RED, FENCE and PRF (R186 to R191): the checks of every lane, the accesses a
pass puts in flight, and what an instruction waits for. -/

namespace Sys2Proof.Machine

/-- The party of a team (R167, R168). -/
def Team.who (t : Team) (core : Nat) : Who := ⟨core, t.ctx, t.blk, t.uid, t.hdr.packBytes, t.hdr.pl⟩
def X.who (x : X) : Who := x.team.who x.c
/-- The party of a matrix stream. -/
def XR.who (x : XR) : Who := ⟨x.c, x.r.ctx, x.r.blk, x.r.uid, x.r.hdr.packBytes, 0⟩

/-- A place a lane reaches: its address, key and class. -/
structure Spot where
  va  : Nat
  key : Nat
  cls : Nat
deriving DecidableEq, Repr

/-- What the lanes of an instruction meet at an address (R188): a missing permission, a misaligned address, a page that is not
mapped. -/
inductive Fault1 where
  | prot | align | page
deriving DecidableEq, Repr

/-- Why an instruction does not reach its places: every walker is busy (R290), or the cause it takes and the address. -/
inductive Fail where
  | busy
  | cause (f : Fault1) (va : Nat)
deriving DecidableEq, Repr

/-- The places of the lanes' addresses, as (lane, address, place). -/
def lanePlaces (s : State) (w : Who) (sp : Space) (n : Nat) (r wr : Bool) (ls : List (Nat × Nat)) : List (Nat × Nat × At) :=
  ls.map fun l => (l.1, l.2, s.spanAt w sp l.1 l.2 n r wr)

/-- The places that are there. -/
def goodPlaces (as : List (Nat × Nat × At)) : List (Nat × Spot) :=
  as.filterMap fun a => match a.2.2 with | .ok k c => some (a.1, ⟨a.2.1, k, c⟩) | _ => none

/-- Whether an address of some lane must wait for a page-table walker (R290). -/
def State.lanesWait (s : State) (w : Who) (sp : Space) (ls : List (Nat × Nat)) : Bool :=
  sp == .glob && ls.any fun l => s.walkWaits w.core w.ctx l.2

/-- Where the lanes' accesses lie, or why the instruction does not reach them (R188): PROT in any lane, then ALIGN
and PAGE in the lowest. -/
def spots (s : State) (w : Who) (sp : Space) (n : Nat) (r wr align : Bool) (ls : List (Nat × Nat)) :
    Except Fail (List (Nat × Spot)) :=
  let as := lanePlaces s w sp n r wr ls
  if s.lanesWait w sp ls then .error .busy
  else match as.find? fun a => a.2.2 == .prot with
  | some a => .error (.cause .prot a.2.1)
  | none =>
    match as.find? fun a => align && a.2.1 % n != 0 with
    | some a => .error (.cause .align a.2.1)
    | none =>
      match as.find? fun a => a.2.2 == .unmapped with
      | some a => .error (.cause .page a.2.1)
      | none => .ok (goodPlaces as)

/-- As spots, with ALIGN and PAGE taken together at the lowest lane that fails (R272). -/
def spotsByLane (s : State) (w : Who) (n : Nat) (ls : List (Nat × Nat)) : Except Fail (List (Nat × Spot)) :=
  let as := lanePlaces s w .glob n false true ls
  if s.lanesWait w .glob ls then .error .busy
  else match as.find? fun a => a.2.2 == .prot with
  | some a => .error (.cause .prot a.2.1)
  | none =>
    match as.find? fun a => a.2.1 % n != 0 || a.2.2 == .unmapped with
    | some a => .error (.cause (if a.2.1 % n != 0 then .align else .page) a.2.1)
    | none => .ok (goodPlaces as)

/-- The core asks for the translations of global addresses, each miss counted with its walk, whether or not the walk finds a page
(R290, R294). -/
def State.walkAll (s : State) (w : Who) (sp : Space) (ls : List (Nat × Nat)) : State :=
  if sp != .glob then s else s.tlbFills w.core w.ctx (ls.map Prod.snd)

/-- What an instruction whose check failed does: it waits for a walker, or takes the cause once its lanes' walks are made; PROT is
unrecoverable. -/
def State.failRes (s : State) (w : Who) (sp : Space) (ls : List (Nat × Nat)) : Fail → Res
  | .busy => .hold
  | .cause .prot va => .fatalIn (s.walkAll w sp ls) .prot (BitVec.ofNat 64 va)
  | .cause .align va => .trapIn (s.walkAll w sp ls) .align (BitVec.ofNat 64 va)
  | .cause .page va => .trapIn (s.walkAll w sp ls) .page (BitVec.ofNat 64 va)

/-- The TLB takes the translations of the places of lanes. -/
def State.touch (s : State) (w : Who) (sp : Space) (ls : List (Nat × Spot)) : State :=
  s.walkAll w sp (ls.map fun l => (l.1, l.2.va))

/-- The address operand of a lane (R186, R188). -/
def Src.addr (x : Src) (sp : Space) (a : VS) (off : BitVec 16) (l : Nat) : Nat :=
  let base := match a with
    | .s r => (x.sl r l).toNat
    | .v _ => if sp == .glob || sp == .bcamp then (x.two a l).toNat else (x.one a l).toNat
  wrap 64 (base + off.toInt)

/-- The lanes of an instruction, or its lowest one where a scalar DATA makes one access of it (R189). An LD or ST on pocket thus
reaches the area of the lowest admitted lane, and an ATOM with a vector operand takes that lane's address and operand (DESIGN CHOICE,
log 47: R189 and R190 do not say whose). -/
def X.lanesFor (x : X) (scalar : Bool) : List Nat := if scalar then (lowest x.adm).toList else lanes x.adm

def isScalar : VS → Bool | .s _ => true | .v _ => false

/-! Reads. -/

/-- An access of a party, not yet numbered. -/
def mkAccess (w : Who) (kind : AccK) (p : Spot) (n grp : Nat) : Access :=
  { id := 0, kind := kind, uid := w.uid, core := w.core, ctx := w.ctx, key := p.key, len := n, va := p.va,
    cls := p.cls, acq := false, after := 0, grp := grp, depth := 0, dests := [], lane := 0, sx := false,
    stage := 0, held := false, revoke := [], snap := none, noMerge := false, pkgSeq := none }

/-- Whether a party has an atomic in flight, not performed, to an access's bytes, of which the L1 knows nothing, or a read, which comes
first (R297); it holds the party's own stores (R285, R296). -/
def State.ahead (s : State) (a : Access) : Bool :=
  s.accs.any fun b => b.uid == a.uid && b.stage == 0 && !b.isWrite && a.meets b

/-- A read of at most 8 bytes: a pocket read takes effect at once, a plain global one may hit the L1, and
any other is in flight until its response (R175, R297, R298). -/
def State.startRead (s : State) (a : Access) (sp : Space) : State :=
  if sp == .pocket then
    (if s.eccBad a.key then s.eccFault a else (s.corrected a.key).deliver a (ofLe (s.memRead a.key a.len)))
  else if sp != .glob then s.addAccess a
  else
    let vers := match s.teamOf a.uid with | some (_, t) => t.vers | none => []
    match (if a.acq || s.ahead a then none else (s.core a.core).l1Hit vers a.key a.len) with
    | some bs =>
      let s := match (s.core a.core).l1Line (a.key / 128) with
        | some l => s.noteVer a.uid l.line l.ver
        | none => s
      s.deliver a (ofLe bs)
    | none =>
      if a.acq then s.send a
      else
        let (s, bs, v) := s.homeLine a.key a.cls
        s.send { a with snap := some (bs, v) }

/-- A read of n bytes into destinations; 16 bytes are two halves (R174). -/
def State.startReads (s : State) (a : Access) (sp : Space) : State :=
  if a.len = 16 then
    (s.startRead { a with len := 8, dests := a.dests.take 2 } sp).startRead
      { a with len := 8, key := a.key + 8, va := a.va + 8, dests := a.dests.drop 2 } sp
  else s.startRead a sp

/-- New slices for n registers in word j, with lanes w given zero (R86). -/
def State.alloc (s : State) (x : X) (d : VReg) (n j : Nat) (w : W32) : State × List Nat :=
  let t := (s.team? x.c x.slot).getD x.team
  let ct := (List.range n).foldl (fun ct k => writePass ct (vregAt d k) j w 0) (s.core x.c, t)
  ((s.setCore x.c ct.1).setTeam x.c x.slot ct.2,
    (List.range n).map fun k => ct.2.slice (vregAt d k).val j)

/-- One pass of a load into n registers: a hit takes the entry's slice; a miss takes new slices, reads the
lanes that have a place, and enters the table where ins says so (R93, R95). A lane without a place gets
zero if it is in w. -/
def X.loadPass (x : X) (i : Instr) (d : VReg) (n j : Nat) (w : W32) (ins : Bool) (sp : Space)
    (mk : Nat → Option Access) (s : State) : State :=
  let key := passKey i x j
  let (core, hit, bad) := match key with
    | some k => (s.core x.c).vtLook k s.seq (s.cycle + x.passNo j)
    | none => (s.core x.c, none, 0)
  let s := (((s.setCore x.c core).bump .vtbLook x.c (bit key.isSome)).bump .vtbPerr x.c bad).bump .vtbHit x.c
    (bit hit.isSome)
  match hit with
  | some sl =>
    (s.modTeam x.c x.slot fun t => t.pointOver d.val j sl w).tickSeq
  | none =>
    if w = 0 then s
    else
      let (s, sls) := s.alloc x d n j w
      let s := match key with
        | some k => if ins then s.modCore x.c fun c => c.vtInsert k (sls.headD 0) s.seq (s.cycle + x.passNo j) else s
        | none => s
      ((List.range 32).filter fun l => w.getLsbD l).foldl (fun s l =>
        match mk (32 * j + l) with
        | some a => s.startReads { a with dests := sls.map Dest.slice, lane := 32 * j + l } sp
        | none => s) s.tickSeq

/-- Whether the pass of word j misses the value table as it stands. -/
def X.misses (x : X) (i : Instr) (s : State) (j : Nat) : Bool :=
  match passKey i x j with
  | some k => ((s.core x.c).vtHit k (s.cycle + x.passNo j)).isNone
  | none => true

/-- The passes of a load that miss the value table, the first starting in cycle now: each sees what the passes before it hit and
inserted; ins says which insert (R91, R93). -/
def X.missing (x : X) (i : Instr) (ins : Nat → Bool) (now : Nat) : Core → Nat → List Nat → List Nat
  | _, _, [] => []
  | c, stamp, j :: js =>
    match passKey i x j with
    | none => j :: x.missing i ins now c stamp js
    | some k =>
      let (c, hit, _) := c.vtLook k stamp (now + x.passNo j)
      if hit.isSome then x.missing i ins now c (stamp + 1) js
      else j :: x.missing i ins now (if ins j && (c.vtFind k).isNone then c.vtPlace k 0 stamp (now + x.passNo j) else c) (stamp + 1) js

/-- The slices that each pass of a load into n registers needs: none where it hits in the value table (R87). -/
def loadNeeds (n : Nat) (ms ws : List Nat) : List (Nat × Nat) := ws.map fun j => (j, if ms.contains j then n else 0)

/-- LD (R188, R189). -/
def execLd (h : Hdr) (data addr : VS) (sp : Space) (ord : Order) (sz : Size) (sx : Bool) (off : BitVec 16)
    (s : State) : Host.Outcome State Fault Refusal :=
  let i := Instr.ld h data addr sp ord sz sx off
  runTeam i h noNeed s fun x s =>
    let uid := x.team.uid
    if x.adm = 0 then .done s
    else if s.acquiring uid then .hold
    else
      let acq := ord == .acq
      let ms := x.missing i (fun _ => true) s.cycle (s.core x.c) s.seq (passes x.adm)
      let ls := (x.lanesFor (isScalar data)).filter fun l => isScalar data || ms.contains (l / 32)
      let as := ls.map fun l => (l, x.src.addr sp addr off l)
      match spots s x.who sp sz.bytes true false true as with
      | .error e => s.failRes x.who sp as e
      | .ok ps =>
        let grp := x.team.group s.seq
        let mk (p : Spot) : Access := { mkAccess x.who .read p sz.bytes grp with acq := acq, sx := sx }
        let fin (s : State) : Res := .done (if acq && sp == .pocket then s.acquired x.c uid else s)
        match data with
        | .s r =>
          fin ((s.touch x.who sp ps).tickSeq |> fun s => ps.foldl (fun s p =>
            s.startReads { mk p.2 with dests := [.scalar r.val], lane := p.1 } sp) s)
        | .v d =>
          match s.lacking x.c x.team 0 (loadNeeds sz.regs ms (passes x.adm)) with
          | some j => if acq then s.sliceWait x.c else .short j
          | none =>
            fin ((passes x.adm).foldl (fun s j =>
              x.loadPass i d sz.regs j (maskWord x.adm j) true sp
                (fun l => (ps.find? fun p => p.1 == l).map fun p => mk p.2) s) (s.touch x.who sp ps))

/-! Writes. -/

/-- A write of at most 8 bytes. -/
def State.startWrite (s : State) (w : Who) (sp : Space) (a : Access) (bs : List Byte) : State :=
  if sp == .pocket then s.memWrite a.key bs
  else
    let s := if sp == .glob then s.modCore w.core fun c => c.l1Store a.key bs else s
    s.send { a with kind := .write bs, len := bs.length }

/-- A write of n bytes; 16 bytes are two halves (R174). -/
def State.startWrites (s : State) (w : Who) (sp : Space) (a : Access) (bs : List Byte) : State :=
  if bs.length = 16 then
    (s.startWrite w sp a (bs.take 8)).startWrite w sp { a with key := a.key + 8, va := a.va + 8 } (bs.drop 8)
  else s.startWrite w sp a bs

/-- The data of a lane of n registers or a scalar, as bytes. -/
def Src.bytes (x : Src) (d : VS) (n l : Nat) : List Byte :=
  match d with
  | .s r => toLe n (x.sl r l).toNat
  | .v r => toLe n (x.regs r l ((n + 3) / 4) 0)

/-- The stores of an instruction, lanes ascending; a release waits for what the team issued before (R175,
R189); wide is the store of a descriptor (R195). -/
def X.storesWide (x : X) (s : State) (sp : Space) (rel wide : Bool) (ps : List (Nat × Spot)) (f : Nat → List Byte) : State :=
  let s := (s.killLoads x.c x.slot).touch x.who sp ps
  let grp := s.seq
  let after := if rel then grp else x.team.relSeq
  ps.foldl (fun s p =>
    s.startWrites x.who sp
      { mkAccess x.who .read p.2 0 grp with after := after, depth := x.team.depth, lane := p.1, wide := wide } (f p.1)) s.tickSeq

/-- The stores of an instruction that is no descriptor's. -/
def X.stores (x : X) (s : State) (sp : Space) (rel : Bool) (ps : List (Nat × Spot)) (f : Nat → List Byte) : State :=
  x.storesWide s sp rel false ps f

def isRel : Order → Bool | .rel | .ar => true | _ => false
def isAcq : Order → Bool | .acq | .ar => true | _ => false

/-- ST (R188, R189). -/
def execSt (h : Hdr) (data addr : VS) (sp : Space) (ord : Order) (sz : Size) (off : BitVec 16) (s : State) :
    Host.Outcome State Fault Refusal :=
  runTeam (.st h data addr sp ord sz off) h noNeed s fun x s =>
    if x.adm = 0 then .done s
    else
      let as := (x.lanesFor (isScalar data)).map fun l => (l, x.src.addr sp addr off l)
      match spots s x.who sp sz.bytes false true true as with
      | .error e => s.failRes x.who sp as e
      | .ok ps =>
        if s.acquiring x.team.uid || (sp == .pocket && isRel ord && s.owes x.team.uid s.seq) then .hold
        else .done (x.stores s sp (isRel ord) ps fun l => x.src.bytes data sz.bytes l)

/-! Atomics. -/

/-- The operand of an atomic in a lane: b (the new value of CAS) and the compare of CAS (R190). -/
def Src.operand (x : Src) (op : AOp) (n : Nat) (o : VS) (l : Nat) : W64 × W64 :=
  let k := (n + 3) / 4
  match o with
  | .s r => if op = .cas then (x.sl (sregAt r 1) l, x.sl r l) else (x.sl r l, 0)
  | .v r =>
    if op = .cas then (BitVec.ofNat 64 (x.regs (vregAt r k) l k 0), BitVec.ofNat 64 (x.regs r l k 0))
    else (BitVec.ofNat 64 (x.regs r l k 0), 0)

/-- The atomics of an instruction, lanes ascending (R190). -/
def X.atomics (x : X) (s : State) (sp : Space) (ord : Order) (op : AOp) (ft : Fin 3) (sx : Bool) (n : Nat)
    (o : VS) (ext : Bool) (ps : List (Nat × Spot)) (dests : Nat → List Dest) : State :=
  let s := s.touch x.who sp ps
  let s := if isAcq ord || x.lo != 0 then s else s.killLoads x.c x.slot
  let grp := x.team.group s.seq
  let after := if isRel ord then grp else x.team.relSeq
  ps.foldl (fun s p =>
    let (b, c) := x.src.operand op n o p.1
    s.send { mkAccess x.who (.atomic op ft.val sx b c) p.2 n grp with
      acq := isAcq ord, after := after, depth := x.team.depth, dests := dests p.1, lane := p.1, sx := ext }) s.tickSeq

/-- ATOM (R188, R190). -/
def execAtom (h : Hdr) (data addr : VS) (sp : Space) (ord : Order) (sz : Size) (sx : Bool) (b : VS) (op : AOp)
    (ft : Fin 3) (s : State) : Host.Outcome State Fault Refusal :=
  runTeam (.atom h data addr sp ord sz sx b op ft) h noNeed s fun x s =>
    if x.adm = 0 then .done s
    else
      let as := (x.lanesFor (isScalar data)).map fun l => (l, x.src.addr sp addr 0 l)
      match spots s x.who sp sz.bytes true true true as with
      | .error e => s.failRes x.who sp as e
      | .ok ps =>
        if s.acquiring x.team.uid then .hold
        else match data with
          | .s r => .done (x.atomics s sp ord op ft sx sz.bytes b (sx && sz == .b32) ps fun _ => [.scalar r.val])
          | .v d =>
            let ws := passes x.adm
            match s.lacking x.c x.team 0 (ws.map fun j => (j, sz.regs)) with
            | some j => if isAcq ord then s.sliceWait x.c else .short j
            | none =>
              let (s, sls) := ws.foldl (fun (a : State × List (Nat × List Nat)) j =>
                let (s, l) := a.1.alloc x d sz.regs j (maskWord x.adm j)
                (s, (j, l) :: a.2)) (s, [])
              .done (x.atomics s sp ord op ft sx sz.bytes b false ps fun l =>
                match sls.find? fun e => e.1 == l / 32 with
                | some e => e.2.map Dest.slice
                | none => [])

/-- RED (R188, R190). -/
def execRed (h : Hdr) (data addr : VS) (sp : Space) (ord : Order) (sz : Size) (sx : Bool) (op : AOp) (ft : Fin 3)
    (s : State) : Host.Outcome State Fault Refusal :=
  runTeam (.red h data addr sp ord sz sx op ft) h noNeed s fun x s =>
    if x.adm = 0 then .done s
    else
      let as := (x.lanesFor (isScalar data && isScalar addr)).map fun l => (l, x.src.addr sp addr 0 l)
      match spots s x.who sp sz.bytes true true true as with
      | .error e => s.failRes x.who sp as e
      | .ok ps =>
        if s.acquiring x.team.uid then .hold
        else .done (x.atomics s sp ord op ft sx sz.bytes data false ps fun _ => [])

/-- FENCE (R191): a release keeps later writes until what came before is acknowledged; an acquire waits
for the team's reads to be bound (R298). -/
def execFence (h : Hdr) (ord : Order) (s : State) : Host.Outcome State Fault Refusal :=
  runTeam (.fence h ord) h noNeed s fun x s =>
    if x.adm = 0 then .done s
    else
      let uid := x.team.uid
      if s.acquiring uid || (isAcq ord && s.reading uid) then .hold
      else
        let s := if isAcq ord then s.acquired x.c uid else s.killLoads x.c x.slot
        let s := if isRel ord then
            (s.modTeam x.c x.slot fun t => { t with relSeq := s.seq }).tickSeq
          else s
        .done s

/-- A prefetched line is asked for (R191): into the L2 of its home, or the core's L1. -/
def State.prefetch (s : State) (w : Who) (l2 : Bool) (e : TlbE) (va : Nat) : State :=
  if !e.r then s
  else
    let pa := e.phys va / 128 * 128
    if l2 then (if s.local_ pa then (s.l2Access pa e.cls false).1 else s)
    else if ((s.core w.core).l1Line (pa / 128)).isSome then s
    else s.startRead { mkAccess { w with uid := 0 } .read ⟨va / 128 * 128, pa, e.cls⟩ 4 s.seq with uid := 0 } .glob

/-- A TLB miss of a prefetch starts or joins a walk; with every walker busy the prefetch is dropped (R191,
R290). -/
def State.prefetchAt (s : State) (w : Who) (l2 : Bool) (va : Nat) : State :=
  match (s.core w.core).tlb.find? fun e => e.hits w.ctx va with
  | some e => s.prefetch w l2 e va
  | none =>
    let st := stackOf w.core
    let joins := s.walking st w.ctx va
    let s := s.bump .tlbmiss w.core 1
    let s := if joins then s.bump .walkjoin st 1 else s
    if !joins && 64 ≤ s.walkersBusy st then s
    else
      let s := if joins then s else (s.walkedReads w.ctx va).bump .walks st 1
      { s with walks := s.walks ++ [⟨st, w.core, w.ctx, va, some l2⟩] }

/-- PRF (R191). -/
def execPrf (h : Hdr) (l2 : Bool) (addr : VS) (off : BitVec 16) (s : State) : Host.Outcome State Fault Refusal :=
  runTeam (.prf h l2 addr off) h noNeed s fun x s =>
    if s.acquiring x.team.uid then (if x.adm = 0 then .done s else .hold)
    else
      let lines := ((lanes x.adm).map fun l => x.src.addr .glob addr off l / 128 * 128).dedup
      .done (lines.foldl (fun s va => s.prefetchAt x.who l2 va) s)

end Sys2Proof.Machine
end

