-- ==== Sys2Proof/Machine/Views.lean ====
section
/-! DEFINITION. Tensor descriptors, views and the Compass (R176 to R185), and the instructions over them
(R192 to R195). -/

namespace Sys2Proof.Machine

/-! Descriptors (R176). -/

def spaceOf : Nat → Option Space
  | 0 => some .glob | 2 => some .pack | 3 => some .camp | 4 => some .bcamp | _ => none

/-- A descriptor from its 64 bytes, where it is well formed (R176, R195). -/
def descOf (bs : List Byte) : Option Desc :=
  let w0 := le64 bs 0
  let w1 := le64 bs 8
  let rank := fld w1 0 2 + 1
  let esize := fld w1 2 3
  let dims := (List.range 4).map fun d => le64 bs (16 + 8 * d)
  match spaceOf (fld w0 61 3) with
  | none => none
  | some sp =>
    if fld w0 57 4 = 0 && fld w1 5 59 = 0 && esize ≤ 4 && fld w0 0 57 % 2 ^ esize = 0 &&
        ((List.range 4).all fun d =>
          if d < rank then fld (dims.getD d 0) 0 32 != 0 else dims.getD d 0 == 0) &&
        le64 bs 0x30 = 0 && le64 bs 0x38 = 0 then
      some ⟨sp, fld w0 0 57, esize, rank, dims.map fun w => sgn 32 (fld w 32 32), dims.map fun w => fld w 0 32⟩
    else none

/-! Views (R177 to R179). -/

def View.org (v : View) (d : Nat) : Int := sgn 24 (fld v.bits.toNat (64 * d + 24) 24)
def View.cnt (v : View) (d : Nat) : Nat := fld v.bits.toNat (64 * d + 8) 16
def View.step (v : View) (d : Nat) : Int := sgn 8 (fld v.bits.toNat (64 * d) 8)
def View.valid (v : View) : Bool := v.bits.getLsbD 63
def View.zf (v : View) : Bool := v.bits.getLsbD 62
def View.num (v : View) : Nat := fld v.bits.toNat 48 10
/-- Elements of a view. -/
def View.total (v : View) : Nat := v.cnt 0 * v.cnt 1 * v.cnt 2 * v.cnt 3

/-- Whether a view breaks R177 or R178. -/
def View.bad (v : View) : Bool :=
  let b := v.bits.toNat
  fld b 240 16 != 0 || fld b 176 16 != 0 || fld b 112 16 != 0 || fld b 58 4 != 0 ||
  (List.range 4).any (fun d => v.cnt d == 0) ||
  (List.range 4).any (fun d => v.desc.rank ≤ d && (v.org d != 0 || v.cnt d != 1 || v.step d != 0)) ||
  2 ^ 32 < v.total

/-- The index of element e in dimension d. -/
def View.index (v : View) (e d : Nat) : Int :=
  let below := (List.range d).foldl (fun a k => a * v.cnt k) 1
  v.org d + v.step d * ((e / below % v.cnt d : Nat) : Int)

/-- The address of element e, or none where it is outside the view (R179). -/
def viewElem (v : View) (e : Nat) : Option Nat :=
  if v.total ≤ e then none
  else
    let ds := List.range v.desc.rank
    if ds.any fun d => v.index e d < 0 || (v.desc.ext.getD d 0 : Int) ≤ v.index e d then none
    else
      some (wrap 64 ((v.desc.base : Int) + 2 ^ v.desc.esize *
        ds.foldl (fun a d => a + v.index e d * v.desc.stride.getD d 0) 0))

/-! Footprints and the directory (R180 to R184). -/

/-- The cluster of a core (R166). -/
def clusterOf (n : Nat) : Nat := 36 * (n / 144) + 6 * (coreY n / 2) + coreX n / 2

def clampI (x lo hi : Int) : Int := max lo (min x hi)

/-- The footprint of a view (R180). -/
def View.foot (v : View) (w : Who) : Foot :=
  let ds := List.range v.desc.rank
  let l : Nat := 2 ^ v.desc.esize
  let part (high : Bool) (d : Nat) : Int :=
    let e := v.org d + v.step d * ((v.cnt d : Int) - 1)
    let top := (v.desc.ext.getD d 0 : Int) - 1
    let m := clampI (min (v.org d) e) 0 top
    let x := clampI (max (v.org d) e) 0 top
    let st := v.desc.stride.getD d 0
    (if (0 ≤ st) != high then m else x) * st
  let sum (f : Nat → Int) : Int := ds.foldl (fun a d => a + f d) 0
  { space := v.desc.space, ctx := w.ctx,
    place := match v.desc.space with | .pack => w.blk | .camp => clusterOf w.core | _ => 0,
    lo := v.desc.base + l * sum (part false), hi := v.desc.base + l * sum (part true) + l - 1,
    g := ds.foldl (fun a d => if 1 < v.cnt d then Nat.gcd a ((v.step d * v.desc.stride.getD d 0).natAbs * l) else a) 0,
    a := v.desc.base + l * sum (fun d => v.org d * v.desc.stride.getD d 0), l := l }

/-- Whether two footprints may meet (R181); none is the whole space. -/
def mayMeet : Option Foot → Option Foot → Bool
  | some f, some q =>
    let gc := Nat.gcd f.g q.g
    let dl : Int := (q.a - f.a) % (gc : Int)
    f.space == q.space && f.ctx == q.ctx && f.place == q.place && decide (f.lo ≤ q.hi) && decide (q.lo ≤ f.hi) &&
      (gc == 0 || decide (dl < f.l) || decide (dl > (gc : Int) - q.l))
  | _, _ => true

/-- The footprint the directory has of a view; an unlisted one has the whole space (R182). -/
def Core.footOf (c : Core) (v : View) : Option Foot :=
  match v.entry with
  | none => none
  | some k => match c.dir.find k with | some e => e.foot | none => none

/-- CMP_LIVE.COUNT: directory entries in use (R185). -/
def Core.live (c : Core) : Nat := c.dir.length

/-- A free directory entry (R182). -/
def Core.freeEntry (c : Core) : Option Nat := (List.range 32).find? fun k => (c.dir.find k).isNone

/-- Lists a view for a register of a team: its old entry is released, and a free one is taken (R182). -/
def State.listView (s : State) (w : Who) (reg : Nat) (v : View) : State × View :=
  let c := (s.core w.core).dropOwner w.uid reg
  match c.freeEntry with
  | none => ((s.setCore w.core c).bump .cmpFull w.core 1, { v with entry := none })
  | some k =>
    (s.setCore w.core { c with dir := c.dir.put k ⟨some (v.foot w), some (w.uid, reg), 0⟩ }, { v with entry := some k })

/-- Sets a view register. -/
def X.putView (x : X) (s : State) (reg : WReg) (v : View) : State :=
  let (s, v) := s.listView x.who reg.val v
  s.modTeam x.c x.slot fun t => { t with view := t.view.put reg.val v }

def Team.viewOf (t : Team) (w : WReg) : View := t.view.get View.zero w.val

/-- Whether an operation of the team's own that is in flight keeps a view access waiting (R184). -/
def State.compassHolds (s : State) (w : Who) (v : View) (store : Bool) : Bool :=
  let f := (s.core w.core).footOf v
  (s.stks.any fun k => (k.2.strikeQ.any fun q => q.uid == w.uid) ||
    match k.2.strike with | some r => r.uid == w.uid | none => false) ||
  s.ops.any fun o => o.who.uid == w.uid &&
    ((match o.writes with | some g => mayMeet f g | none => false) ||
     (store && match o.reads with | some g => mayMeet f g | none => false))

/-- The element number of a lane (R192). -/
def Src.elemNo (x : Src) (idx : VS) (l : Nat) : Nat :=
  match idx with
  | .v r => (x.v r 0 l).toNat
  | .s r => ((x.sl r l).toNat + l) % 2 ^ 32

/-- VLD (R192). -/
def execVld (h : Hdr) (d : VReg) (w : WReg) (ord : Order) (sz : Size) (sx : Bool) (idx : VS) (p : Option PReg)
    (s : State) : Host.Outcome State Fault Refusal :=
  let i := Instr.vld h d w ord sz sx idx p
  runTeam i h noNeed s fun x s =>
    let uid := x.team.uid
    let v := x.src.team.viewOf w
    if x.adm = 0 then .done s
    else if !v.valid || sz.bytes != 2 ^ v.desc.esize then .trap .illegalDesc 0
    else if s.acquiring uid then .hold
    else if s.compassHolds x.who v false then .wait (s.bump .cmpWait x.c 1)
    else
      let el (l : Nat) : Option Nat := viewElem v (x.src.elemNo idx l)
      let whole (j : Nat) : Bool := v.zf || (List.range 32).all fun l => (el (32 * j + l)).isSome
      let ms := x.missing i whole s.cycle (s.core x.c) s.seq (passes x.adm)
      let ls := (lanes x.adm).filter fun l => ms.contains (l / 32)
      let as := ls.filterMap fun l => (el l).map fun a => (l, a)
      match spots s x.who v.desc.space sz.bytes true false false as with
      | .error e => s.failRes x.who v.desc.space as e
      | .ok ps =>
        let acq := ord == .acq
        match s.lacking x.c x.team 0 (loadNeeds sz.regs ms (passes x.adm)) with
        | some j => if acq then s.sliceWait x.c else .short j
        | none =>
          let grp := x.team.group s.seq
          let s := (passes x.adm).foldl (fun s j =>
            let w := maskWord x.adm j
            let w' : W32 := if x.misses i s j then
                (maskWord (maskOf ((List.range 32).map fun l => 32 * j + l)
                  fun l => w.getLsbD (l % 32) && (v.zf || (el l).isSome)) j)
              else w
            x.loadPass i d sz.regs j w' (whole j) v.desc.space
              (fun l => (ps.find? fun p => p.1 == l).map fun p =>
                { mkAccess x.who .read p.2 sz.bytes grp with acq := acq, sx := sx }) s)
            (s.touch x.who v.desc.space ps)
          let s := match p with
            | none => s
            | some q => s.modTeam x.c x.slot fun t =>
                t.wp q x.adm (maskOf (lanes x.adm) fun l => (el l).isSome)
          .done (if acq && !(s.acquiring uid) then s.acquired x.c uid else s)

/-- VST (R192). -/
def execVst (h : Hdr) (d : VReg) (w : WReg) (ord : Order) (sz : Size) (idx : VS) (s : State) :
    Host.Outcome State Fault Refusal :=
  runTeam (.vst h d w ord sz idx) h noNeed s fun x s =>
    let v := x.src.team.viewOf w
    if x.adm = 0 then .done s
    else if !v.valid || sz.bytes != 2 ^ v.desc.esize then .trap .illegalDesc 0
    else if s.acquiring x.team.uid || (v.desc.space == .pocket && isRel ord && s.owes x.team.uid s.seq) then .hold
    else if s.compassHolds x.who v true then .wait (s.bump .cmpWait x.c 1)
    else
      let as := (lanes x.adm).filterMap fun l => (viewElem v (x.src.elemNo idx l)).map fun a => (l, a)
      match spots s x.who v.desc.space sz.bytes false true false as with
      | .error e => s.failRes x.who v.desc.space as e
      | .ok ps => .done (x.stores s v.desc.space (isRel ord) ps fun l => x.src.bytes (.v d) sz.bytes l)

/-- The descriptor of a number as a plain load reads it (R193), always at its home and into no L1 line (DESIGN CHOICE, log 47: an L1
hit, which the manual allows, could give an older descriptor): none where a store of the core to it is not yet acknowledged. -/
def State.readDesc (s : State) (w : Who) (key cls : Nat) : Option (State × List Byte) :=
  let probe := { mkAccess w .read ⟨0, key, cls⟩ 64 0 with id := s.seq }
  if s.accs.any fun b => b.core == w.core && !b.isRead && probe.meets b then none
  else
    let s := if s.local_ key then s.corrected key else s.readAt key cls
    let (s, _, v) := s.homeLine key cls
    some (s.noteVer w.uid (key / 128) v, s.homeRead key 64)

/-- VWSET (R193). -/
def execVwset (h : Hdr) (d : WReg) (a : SReg) (s : State) : Host.Outcome State Fault Refusal :=
  runTeam (.vwset h d a) h noNeed s fun x s =>
    if x.adm = 0 then .done s
    else
      let r (k : Nat) : W64 := x.src.team.rs (sregAt a k)
      let bits : BitVec 256 := (r 3 ++ r 2 ++ r 1 ++ r 0) ||| (1#256 <<< 63)
      let va := (s.ctx x.team.ctx).tdescBase + 64 * fld bits.toNat 48 10
      match spots s x.who .glob 64 true false false [(0, va)] with
      | .error e => s.failRes x.who .glob [(0, va)] e
      | .ok ps =>
        if s.acquiring x.team.uid then .hold
        else match ps with
          | [] => .done s
          | p :: _ =>
            match (s.touch x.who .glob ps).readDesc x.who p.2.key p.2.cls with
            | none => .hold
            | some (s, bs) =>
              if s.eccBad p.2.key then .fatalIn (s.noteEcc p.2.key) .ecc (BitVec.ofNat 64 va)
              else match descOf bs with
                | none => .trap .illegalDesc 0
                | some dsc =>
                  let v : View := ⟨bits, dsc, none⟩
                  if v.bad then .trap .illegalDesc 0
                  else .done ((x.putView s d v).killLoads x.c x.slot)

/-- A view's bits with a field of dimension d changed (R193). -/
def setBits (b : BitVec 256) (lo n v : Nat) : BitVec 256 :=
  (b &&& ~~~(BitVec.ofNat 256 ((2 ^ n - 1) * 2 ^ lo))) ||| BitVec.ofNat 256 (v % 2 ^ n * 2 ^ lo)

/-- VWADJ (R193). -/
def execVwadj (h : Hdr) (d a : WReg) (b : SReg) (dim : Fin 4) (f : AdjField) (s : State) :
    Host.Outcome State Fault Refusal :=
  runTeam (.vwadj h d a b dim f) h noNeed s fun x s =>
    if x.adm = 0 then .done s
    else
      let v := x.src.team.viewOf a
      let n := (x.src.team.rs b).toNat
      let sum : Int := v.org dim.val + sgn 64 n
      let bits := match f with
        | .orgAdd => setBits v.bits (64 * dim.val + 24) 24 (wrap 24 sum)
        | .orgSet => setBits v.bits (64 * dim.val + 24) 24 n
        | .cntSet => setBits v.bits (64 * dim.val + 8) 16 n
        | .stepSet => setBits v.bits (64 * dim.val) 8 n
      let v' : View := { v with bits := bits }
      if !v.valid || (f == .orgAdd && (decide (sum < -2 ^ 23) || decide (2 ^ 23 ≤ sum))) || v'.bad then
        .trap .illegalDesc 0
      else if s.acquiring x.team.uid then .hold
      else .done ((x.putView s d v').killLoads x.c x.slot)

/-- VRET (R194): a release, after which the view is no longer valid and its entry is given up. -/
def execVret (h : Hdr) (d : WReg) (s : State) : Host.Outcome State Fault Refusal :=
  runTeam (.vret h d) h noNeed s fun x s =>
    if x.adm = 0 then .done s
    else if s.owes x.team.uid s.seq then .hold
    else
      let s := s.killLoads x.c x.slot
      let v := x.src.team.viewOf d
      if !v.valid then .done s
      else
        let s := s.modCore x.c fun c => c.dropOwner x.team.uid d.val
        .done (s.modTeam x.c x.slot fun t =>
          { t with view := t.view.put d.val { v with bits := setBits v.bits 63 1 0, entry := none } })

/-- TDSET (R195): a release store of the 64 bytes; before it is acknowledged every L1 copy of them is gone. -/
def execTdset (h : Hdr) (a b : SReg) (s : State) : Host.Outcome State Fault Refusal :=
  runTeam (.tdset h a b) h (fun _ _ _ => { leader := true }) s fun x s =>
    if x.adm = 0 then .done s
    else
      let n := (x.src.team.rs a).toNat
      let bs := (List.range 8).flatMap fun k => toLe 8 (x.src.team.rs (sregAt b k)).toNat
      if 1024 ≤ n || (descOf bs).isNone then .trap .illegalDesc 0
      else
        let va := (s.ctx x.team.ctx).tdescBase + 64 * n
        match spots s x.who .glob 64 false true false [(0, va)] with
        | .error e => s.failRes x.who .glob [(0, va)] e
        | .ok ps =>
          if s.acquiring x.team.uid then .hold
          else
            let parts := ps.flatMap fun p =>
              (List.range 8).map fun k => (k, (⟨p.2.va + 8 * k, p.2.key + 8 * k, p.2.cls⟩ : Spot))
            .done (x.storesWide s .glob true true parts fun k => (bs.drop (8 * k)).take 8)

end Sys2Proof.Machine
end

