-- ==== Sys2Proof/Machine/Queues.lean ====
section
/-! DEFINITION. Moves, queue registers and their endpoints (R101, R103 to R111, R271, R274, R350 to R352),
and REFILL (R72). -/

namespace Sys2Proof.Machine

/-! Operands beyond those a form names: the rest of a quad or a pair of an endpoint. -/

/-- The effect with further registers as sources or destinations: they are waited for, and unmet
fixed-latency results among them are treated as R29 to R32 say. -/
def X.more (x : X) (s : State) (rs : List Reg) (reads : Bool) (k : X → State → Res) : Res :=
  if rs.any (s.pendingReg x.c x.team) then .hold
  else
    let un := if reads then unmetOf x.team.shadows rs else []
    let bad := reads && (passes x.adm).any fun j => rs.any fun r =>
      match r with | .v n => (s.core x.c).badSlice (x.team.slice n j) | _ => false
    if bad then .fatal .ecc 0
    else if un.isEmpty then k x s
    else if x.team.check then .trap .stallShort 0
    else k { x with src := x.src.staleAll s.free un.reverse } { s with free := s.free + un.length }

/-- The binding of a queue register (R103). -/
def Team.bind (t : Team) (q : QReg) : QBind := t.qb.get QBind.zero q.val

/-- The further check of a move through a queue register: a Trailhead element is a quad, or an even
scalar pair, within the team's counts (R82, R104, R111). -/
def queueNeed (q : QReg) (vec wide : Bool) (k : Nat) (_ : State) (_ : Nat) (t : Team) : Need :=
  if (t.bind q).kind = 2 && (!vec || wide) then
    { ill := if vec then k % 4 != 0 || t.hdr.nv < k + 4 else k % 2 != 0 || t.hdr.ns < k + 2 }
  else {}

/-- Whether the units of a partition take new operations: from the cycle in which its halt line rises they take none (R369). -/
def State.unitsRun (s : State) (part : Nat) : Bool := (s.partn part).halting.isNone

/-! Trailhead queues (R350, R351). -/

def State.trailQ (s : State) (ctx q : Nat) : List TrailEl := (s.ctx ctx).trail.get [] q
def State.setTrail (s : State) (ctx q : Nat) (l : List TrailEl) : State :=
  s.modCtx ctx fun x => { x with trail := x.trail.set [] q l }

/-- A unit's area in a context's memory takes bytes at an address, where it can be reached (R350, R352; that an unreachable place
is passed by is a DESIGN CHOICE, log 48). -/
def State.areaPut (s : State) (ctx a : Nat) (bs : List Byte) : State :=
  let (ps, f) := s.area (unitWho ctx) .glob a bs.length false true
  if f.isSome then s else s.putPieces ⟨ctx, 0, 0, s.pkg⟩ false ps bs

/-- Elements on die at the unit of the stack that holds queue q, of every context (R350). -/
def State.trailDie (s : State) (q : Nat) : Nat :=
  s.ctxs.foldl (fun a c => c.2.trail.foldl (fun a e =>
    if e.1 % s.stacksN == q % s.stacksN then a + (e.2.filter fun x => x.place.isNone).length else a) a) 0

/-- Places of a queue's area that its elements take. -/
def usedPlaces (l : List TrailEl) : List Nat := l.filterMap TrailEl.place

/-- Whether a queue accepts n more elements: what is left on die at its stack, then its area (R350). -/
def State.trailRoom (s : State) (ctx q n : Nat) : Bool :=
  s.unitsRun (s.ctx ctx).part && decide (n ≤ (65536 - s.trailDie q) + (2 ^ 20 - (usedPlaces (s.trailQ ctx q)).length))

/-- One element is pushed: on die while that has room, else into the lowest free place of the queue's area (R350; log 48). -/
def State.trailPush (s : State) (ctx q : Nat) (key val : W64) : State :=
  let l := s.trailQ ctx q
  if s.trailDie q < 65536 then s.setTrail ctx q (l ++ [⟨key, val, none⟩])
  else
    let used := usedPlaces l
    let p := ((List.range (used.length + 1)).find? fun i => !used.contains i).getD 0
    (s.setTrail ctx q (l ++ [⟨key, val, some p⟩])).areaPut ctx ((s.ctx ctx).trhBase + 16 * (q * 2 ^ 20 + p))
      (toLe 8 key.toNat ++ toLe 8 val.toNat)

/-- A pop: one of the 64 smallest keys, which of them is open (R351). -/
def State.trailPop (s : State) (ctx q : Nat) : Option (State × W64 × W64) :=
  let l := s.trailQ ctx q
  let ix := (List.range l.length).filter fun i =>
    match l[i]? with
    | some x => decide ((l.filter fun e => decide (e.key.toNat < x.key.toNat)).length < 64)
    | none => false
  match ix[Config.freeNat s.free % ix.length]? with
  | none => none
  | some i => match l[i]? with
    | none => none
    | some x => some ((s.setTrail ctx q (l.eraseIdx i)).tickFree, x.key, x.val)

/-! Rucksack lists (R352). -/

def State.ruckQ (s : State) (ctx q : Nat) : List RItem := (s.ctx ctx).ruck.get [] q
def State.setRuck (s : State) (ctx q : Nat) (l : List RItem) : State :=
  s.modCtx ctx fun x => { x with ruck := x.ruck.set [] q l }

/-- Whether a list, or the pool that listens to it, accepts n items (R344, R352). -/
def State.ruckRoom (s : State) (ctx q n : Nat) : Bool :=
  s.unitsRun (s.ctx ctx).part &&
  match s.listener ctx q with
  | some p => p.2.recs.length + n ≤ poolRoom
  | none => (s.ruckQ ctx q).length + n ≤ 2 ^ 20

/-- Items are appended, and written into the list's part of the Rucksack area, a ring of 2^20 places (R352; its layout is a DESIGN
CHOICE, log 48); a listening pool takes them as records, and a counted one counts them (R344, R353). -/
def State.ruckPush (s : State) (ctx q core depth : Nat) (items : List W64) : State :=
  let n := (s.ctx ctx).ruckTail.get 0 q
  let s := s.setRuck ctx q (s.ruckQ ctx q ++ items.map fun i => ⟨i, depth, stackOf core⟩)
  let s := s.modCtx ctx fun x => { x with ruckTail := x.ruckTail.set 0 q ((n + items.length) % 2 ^ 20) }
  let s := ((List.range items.length).zip items).foldl (fun s i =>
    s.areaPut ctx ((s.ctx ctx).ruckBase + 8 * (q * 2 ^ 20 + (n + i.1) % 2 ^ 20)) (toLe 8 i.2.toNat)) s
  match s.listener ctx q with
  | some p =>
    let s := if p.2.domen then s.emberAdd ctx p.2.dom (stackOf core) items.length else s
    s.collected ctx p.1
  | none => s

/-! The Strike command port (R246). -/

/-- Whether the command queue of a stack accepts an address. -/
def State.strikeRoom (s : State) (stack : Nat) : Bool := s.unitsRun (s.partOf stack) && decide ((s.stk stack).strikeQ.length < 64)

/-- A command address is pushed. -/
def State.strikePush (s : State) (stack : Nat) (w : Who) (depth a : Nat) : State :=
  (s.modStk stack fun k => { k with strikeQ := k.strikeQ ++ [⟨a, w.ctx, depth, s.seq, w.uid, w.core⟩] }).tickSeq

/-! Messages (R274). -/

/-- The oldest flit of a context with a tag in a core's buffer. -/
def Core.flit (c : Core) (ctx tag : Nat) : Option Flit := c.rx.find? fun f => f.ctx == ctx && f.tag == tag

/-- Takes a flit out of a core's buffer. -/
def Core.takeFlit (c : Core) (ctx tag : Nat) : Core :=
  { c with rx := (c.rx.takeWhile fun f => !(f.ctx == ctx && f.tag == tag)) ++
      (c.rx.dropWhile fun f => !(f.ctx == ctx && f.tag == tag)).drop 1 }

/-- Message bindings: destination, tag, buffer (R104). -/
def QBind.dst (b : QBind) : Nat := fld b.arg.toNat 48 16
def QBind.tag (b : QBind) : Nat := fld b.arg.toNat 32 16
def QBind.buf (b : QBind) : Nat := fld b.arg.toNat 0 32

/-! Pops of one item for each of n lanes. -/

/-- An endpoint's items now available to pops (R104, R105, R271), which are none in a partition that halts (R369); none where it
cannot be popped by moves of lanes. -/
def State.popCount (s : State) (ctx : Nat) (b : QBind) : Option Nat :=
  let there (n : Nat) : Nat := if s.unitsRun (s.ctx ctx).part then n else 0
  match b.kind with
  | 2 => some (there (s.trailQ ctx (fld b.arg.toNat 0 4)).length)
  | 3 => if (s.listener ctx (fld b.arg.toNat 0 6)).isSome then none else some (there (s.ruckQ ctx (fld b.arg.toNat 0 6)).length)
  | _ => none

/-- Pops n items: (first word, second word) of each. -/
def State.popItems (s : State) (ctx : Nat) (b : QBind) : Nat → State × List (W64 × W64)
  | 0 => (s, [])
  | n + 1 =>
    match b.kind with
    | 2 =>
      match s.trailPop ctx (fld b.arg.toNat 0 4) with
      | some (s, e) => let (s, es) := s.popItems ctx b n; (s, e :: es)
      | none => (s, [])
    | _ =>
      match s.ruckQ ctx (fld b.arg.toNat 0 6) with
      | i :: rest =>
        let (s, es) := (s.setRuck ctx (fld b.arg.toNat 0 6) rest).popItems ctx b n
        (s, (i.item, 0) :: es)
      | [] => (s, [])

/-- Writes n registers in given lanes at once. -/
def X.writeLanes (x : X) (s : State) (d : VReg) (n : Nat) (vals : List (Nat × Nat)) : State :=
  let m := maskOf (vals.map Prod.fst) fun _ => true
  (passes m).foldl (fun s j =>
    let (s, sls) := s.alloc x d n j (maskWord m j)
    (vals.filter fun v => v.1 / 32 == j).foldl (fun s v =>
      s.deliver { mkAccess x.who .read ⟨0, 0, 0⟩ 4 0 with dests := sls.map Dest.slice, lane := v.1 } v.2) s) s

/-- New slices a write of n registers in some lanes needs. -/
def slicesFor (n : Nat) (ls : List Nat) : Nat := n * (ls.map fun l => l / 32).dedup.length

/-- The slices that each pass of such a write needs (R87). -/
def slicesEach (n : Nat) (ls : List Nat) : List (Nat × Nat) := (ls.map fun l => l / 32).dedup.map fun j => (j, n)

/-- What ends a pop into a vector register: the last part of it is an acquire (R105). -/
def X.popped (x : X) (s : State) : Res := .done (if x.part then s else s.acquired x.c x.team.uid)

/-- What a popped item is in registers: key and value of a Trailhead element, else the item. -/
def itemNat (b : QBind) (e : W64 × W64) : Nat := if b.kind = 2 then e.1.toNat + 2 ^ 64 * e.2.toNat else e.1.toNat

/-- Registers an item of an endpoint takes (R104). -/
def itemRegs (b : QBind) (wide : Bool) : Nat := if b.kind = 2 then 4 else wideN wide

/-! The gather result stream (R271). -/

/-- The oldest delivery of a team and whether its next n chunks have arrived: the bytes of every lane in V. -/
def Delivery.ready (d : Delivery) (n : Nat) : Bool :=
  (lanes d.valid).all fun l => 4 * (d.next + n) ≤ (d.rows.get [] l).length

/-- A delivery with n chunks taken; the list without it once it has ended. -/
def takeChunks (ds : List Delivery) (n : Nat) : List Delivery :=
  match ds with
  | [] => []
  | d :: rest => if d.rb / 4 ≤ d.next + n then rest else { d with next := d.next + n } :: rest

/-- What a pop of n chunks gives a lane. -/
def Delivery.chunk (d : Delivery) (n l : Nat) : Nat :=
  if inMask d.valid l then ofLe (((d.rows.get [] l).drop (4 * d.next)).take (4 * n)) else 0

/-! Pushes and pops. -/

/-- A push: it is a release, waits until every item is accepted, and kills the load entries (R96, R105). -/
def X.push (x : X) (s : State) (ok : Bool) (act : State → State) : Res :=
  if s.owes x.team.uid s.seq then .hold
  else if !ok then .wait s
  else .done (act (s.killLoads x.c x.slot))

/-- The scalar form of a push (R104). -/
def X.pushScalar (x : X) (s : State) (q : QReg) (a : SReg) : Res :=
  let b := x.team.bind q
  let v := x.src.team.rs a
  match b.kind with
  | 1 =>
    let off := fld v.toNat 0 32
    if x.team.hdr.packBytes < off + 64 then .trap .qfault 0
    else if s.owes x.team.uid s.seq then .hold
    else if s.net.any fun f => f.uid == x.team.uid then .wait s
    else if x.team.wait.isSome then .done (s.killLoads x.c x.slot)
    else
      .wait { s with net := s.net ++ [⟨x.team.uid, x.c, b.dst, x.team.ctx, b.tag,
        s.memRead (packKey x.team.blk off) 64⟩] }
  | 2 =>
    x.more s (ss a 2) true fun x s =>
      x.push s (s.trailRoom x.team.ctx (fld b.arg.toNat 0 4) 1) fun s =>
        s.trailPush x.team.ctx (fld b.arg.toNat 0 4) (x.src.team.rs a) (x.src.team.rs (sregAt a 1))
  | 3 =>
    x.push s (s.ruckRoom x.team.ctx (fld b.arg.toNat 0 6) 1) fun s =>
      s.ruckPush x.team.ctx (fld b.arg.toNat 0 6) x.c x.team.depth [v]
  | 5 =>
    if v.toNat % 64 != 0 then .trap .align v
    else x.push s (s.strikeRoom (fld b.arg.toNat 0 2)) fun s =>
      s.strikePush (fld b.arg.toNat 0 2) x.who x.team.depth v.toNat
  | _ => .trap .qfault 0

/-- The vector form of a push (R104). -/
def X.pushVector (x : X) (s : State) (q : QReg) (a : VReg) (wide : Bool) : Res :=
  let b := x.team.bind q
  let ls := lanes x.adm
  match b.kind with
  | 2 =>
    if !wide then .trap .qfault 0
    else x.more s (vs a 4) true fun x s =>
      let k := fld b.arg.toNat 0 4
      x.push s (s.trailRoom x.team.ctx k ls.length) fun s =>
        ls.foldl (fun s l =>
          s.trailPush x.team.ctx k (BitVec.ofNat 64 (x.src.regs a l 2 0)) (BitVec.ofNat 64 (x.src.regs a l 2 2))) s
  | 3 =>
    let k := fld b.arg.toNat 0 6
    x.push s (s.ruckRoom x.team.ctx k ls.length) fun s =>
      s.ruckPush x.team.ctx k x.c x.team.depth (ls.map fun l => BitVec.ofNat 64 (x.src.regs a l (wideN wide) 0))
  | _ => .trap .qfault 0

/-- The scalar form of a pop (R104): it waits until the endpoint can supply it, and is an acquire. A Trailhead element popped into s0
loses its key alone: its value is in s1 (DESIGN CHOICE, log 51: R83 says so of FWAIT and does not say of a pop). -/
def X.popScalar (x : X) (s : State) (d : SReg) (q : QReg) : Res :=
  let b := x.team.bind q
  match b.kind with
  | 1 =>
    if x.team.hdr.packBytes < b.buf + 64 then .trap .qfault 0
    else match (s.core x.c).flit x.team.ctx b.tag with
      | none => .wait s
      | some f =>
        let s := s.modCore x.c fun c => c.takeFlit x.team.ctx b.tag
        let s := s.memWrite (packKey x.team.blk b.buf) f.data
        let s := s.modTeam x.c x.slot fun t => t.ws d (BitVec.ofNat 64 (f.src * 2 ^ 48 + f.tag * 2 ^ 32))
        .done (s.acquired x.c x.team.uid)
  | _ =>
    match s.popCount x.team.ctx b with
    | none => .trap .qfault 0
    | some n =>
      let dsts := if b.kind = 2 then ss d 2 else []
      x.more s dsts false fun x s =>
        if n = 0 then .wait s
        else
          let (s, es) := s.popItems x.team.ctx b 1
          let e := es.headD (0, 0)
          let s := s.modTeam x.c x.slot fun t =>
            if b.kind = 2 then (t.ws d e.1).ws (sregAt d 1) e.2 else t.ws d e.1
          .done (s.acquired x.c x.team.uid)

/-- The vector form of a pop. -/
def X.popVector (x : X) (s : State) (d : VReg) (q : QReg) (wide : Bool) : Res :=
  let b := x.team.bind q
  let ls := lanes x.adm
  if b.kind = 4 then
    let n := wideN wide
    match x.team.gather with
    | [] => .trap .qfault 0
    | dl :: _ =>
      if dl.rb / 4 < dl.next + n then .trap .qfault 0
      else if !dl.ready n then .wait s
      else match s.lacking x.c x.team 0 (slicesEach n ls) with
      | some j => .short j
      | none =>
        let s := x.writeLanes s d n (ls.map fun l => (l, dl.chunk n l))
        x.popped (if x.part then s else s.modTeam x.c x.slot fun t => { t with gather := takeChunks t.gather n })
  else match s.popCount x.team.ctx b with
    | none => .trap .qfault 0
    | some m =>
      if b.kind = 2 && !wide then .trap .qfault 0
      else
        let n := itemRegs b wide
        x.more s (vs d n) false fun x s =>
          if m < ls.length then .wait s
          else match s.lacking x.c x.team 0 (slicesEach n ls) with
          | some j => .short j
          | none =>
            let (s, es) := s.popItems x.team.ctx b ls.length
            x.popped (x.writeLanes s d n (List.zip ls (es.map (itemNat b))))

/-- SMOV (R107). A queue register on a matrix stream is ILLEGAL (R37). -/
def execSmov (h : Hdr) (f : SMovForm) (s : State) : Host.Outcome State Fault Refusal :=
  let need : State → Nat → Team → Need := match f with
    | .ss _ _ => noNeed
    | .push q a => queueNeed q false false a.val
    | .pop d q => queueNeed q false false d.val
  let needM : State → Nat → Ridge → Need := match f with
    | .ss _ _ => noNeedM
    | _ => fun _ _ _ => { ill := true }
  runBoth (.smov h f) h need needM s
    (fun x s =>
      if x.adm = 0 then .done s
      else match f with
        | .ss d a => scalResult (.smov h f) x s d (x.src.team.rs a)
        | .push q a => x.pushScalar s q a
        | .pop d q => x.popScalar s d q)
    (fun x s => match f with
      | .ss d a => if !x.adm then .done s else scalResultM (.smov h f) x s d (x.src.rs a)
      | _ => .trap .illegal 0)

/-- A full pass of VMOV v, v with FRESH = 0 takes the source's slices; any other copies (R101). -/
def vmovPass (x : X) (now : Nat) (d a : VReg) (n : Nat) (acc : Core × Team) (j : Nat) : Core × Team :=
  let w := maskWord x.adm j
  let due := now + x.passNo j + 2
  if w = 0 then acc
  else (List.range n).foldl (fun ct k =>
    let sl := x.src.team.slice (vregAt a k).val j
    if fullPass x.adm j && !x.h.fresh && sl < 4096 then
      let old := ct.1.data (ct.2.slice (vregAt d k).val j)
      let t := ct.2.pointOver (vregAt d k).val j sl w
      (ct.1, { t with shadows := t.shadows ++ [⟨.entry (vregAt d k).val j, 2, old, w.zeroExtend 1024, 0, none, false, 0, due⟩] })
    else
      passReg 2 due (vregAt d k) j w
        (gatherLanes 0 (((List.range 32).filter fun l => w.getLsbD l).map fun l => (l, (x.src.v a k (32 * j + l)).toNat)))
        0 none ct) acc

/-- The new slices that each pass of VMOV v, v needs (R87, R101). -/
def vmovNeeds (x : X) (a : VReg) (n : Nat) : List (Nat × Nat) :=
  (passes x.adm).map fun j => (j, ((List.range n).filter fun k =>
    !(fullPass x.adm j && !x.h.fresh && x.src.team.slice (vregAt a k).val j < 4096)).length)

/-- VMOV (R101, R107). -/
def execVmov (h : Hdr) (f : VMovForm) (wide : Bool) (s : State) : Host.Outcome State Fault Refusal :=
  let i := Instr.vmov h f wide
  let need : State → Nat → Team → Need := match f with
    | .push q a => queueNeed q true wide a.val
    | .pop d q => queueNeed q true wide d.val
    | _ => noNeed
  runTeam i h need s fun x s =>
    if x.adm = 0 then .done s
    else match f with
      | .vv d a =>
        match s.lacking x.c x.team 0 (vmovNeeds x a (wideN wide)) with
        | some j => .short j
        | none =>
          let ct := (passes x.adm).foldl (vmovPass x s.cycle d a (wideN wide)) (s.core x.c, (s.team? x.c x.slot).getD x.team)
          .done ((s.setCore x.c ct.1).setTeam x.c x.slot ct.2)
      | .vs d a => vecOut i x s d (wideN wide) fun l => (x.src.sl a l).toNat
      | .push q a => x.pushVector s q a wide
      | .pop d q => x.popVector s d q wide

/-- SMOVI (R108). -/
def execSmovi (h : Hdr) (d : SReg) (high : Bool) (imm : W32) (s : State) : Host.Outcome State Fault Refusal :=
  sForm (.smovi h d high imm) h s d fun rs =>
    if high then (imm ++ (rs d).extractLsb' 0 32 : BitVec 64) else imm.signExtend 64

/-- VMOVI (R108). -/
def execVmovi (h : Hdr) (d : VReg) (imm : W32) (s : State) : Host.Outcome State Fault Refusal :=
  vForm (.vmovi h d imm) h s d 1 fun _ _ => imm.toNat

/-- Whether an argument is one of its kind (R104). -/
def State.bindOk (s : State) (kind : Nat) (arg : Nat) : Bool :=
  match kind with
  | 1 => fld arg 48 16 < s.coresN && fld arg 0 32 % 64 == 0
  | 2 => arg < 16
  | 3 => arg < 64
  | 5 => arg < s.stacksN
  | _ => arg == 0

/-- QBIND (R109): once for the team, whatever the mask. -/
def execQbind (h : Hdr) (q : QReg) (r : SReg) (kind : Fin 6) (s : State) : Host.Outcome State Fault Refusal :=
  runTeam (.qbind h q r kind) h noNeed s fun x s =>
    let arg := x.src.team.rs r
    if !s.bindOk kind.val arg.toNat then .trap .qfault 0
    else .done (s.modTeam x.c x.slot fun t => { t with qb := t.qb.set QBind.zero q.val ⟨kind.val, if kind.val = 0 then 0 else arg⟩ })

/-- QTRY (R110). -/
def execQtry (h : Hdr) (d : VS) (q : QReg) (p : PReg) (wide : Bool) (s : State) :
    Host.Outcome State Fault Refusal :=
  let need : State → Nat → Team → Need := match d with
    | .v r => queueNeed q true wide r.val
    | .s r => queueNeed q false false r.val
  runTeam (.qtry h d q p wide) h need s fun x s =>
    let b := x.team.bind q
    let ls := lanes x.adm
    let fin (s : State) (m : Mask) : Res :=
      let s := s.modTeam x.c x.slot fun t => t.wp p x.adm m
      .done (if x.part then s else if m = 0 && x.lo = 0 then s.killLoads x.c x.slot else s.acquired x.c x.team.uid)
    if x.adm = 0 then .done s
    else match d with
      | .s r =>
        if b.kind = 1 then
          if x.team.hdr.packBytes < b.buf + 64 then .trap .qfault 0
          else match (s.core x.c).flit x.team.ctx b.tag with
            | none => fin s 0
            | some f =>
              let s := s.modCore x.c fun c => c.takeFlit x.team.ctx b.tag
              let s := s.memWrite (packKey x.team.blk b.buf) f.data
              fin (s.modTeam x.c x.slot fun t => t.ws r (BitVec.ofNat 64 (f.src * 2 ^ 48 + f.tag * 2 ^ 32))) x.adm
        else match s.popCount x.team.ctx b with
          | none => .trap .qfault 0
          | some n =>
            x.more s (if b.kind = 2 then ss r 2 else []) false fun _ s =>
              if n = 0 then fin s 0
              else
                let (s, es) := s.popItems x.team.ctx b 1
                let e := es.headD (0, 0)
                fin (s.modTeam x.c x.slot fun t =>
                  if b.kind = 2 then (t.ws r e.1).ws (sregAt r 1) e.2 else t.ws r e.1) x.adm
      | .v r =>
        if b.kind = 4 then
          match x.team.gather with
          | [] => .trap .qfault 0
          | dl :: _ =>
            let n := wideN wide
            if dl.rb / 4 < dl.next + n then .trap .qfault 0
            else if !dl.ready n then fin s 0
            else match s.lacking x.c x.team 0 (slicesEach n ls) with
            | some j => .short j
            | none =>
              let s := x.writeLanes s r n (ls.map fun l => (l, dl.chunk n l))
              fin (if x.part then s else s.modTeam x.c x.slot fun t => { t with gather := takeChunks t.gather n }) x.adm
        else match s.popCount x.team.ctx b with
          | none => .trap .qfault 0
          | some m =>
            if b.kind = 2 && !wide then .trap .qfault 0
            else
              let n := itemRegs b wide
              let taken := ls.take m
              x.more s (vs r n) false fun x s =>
                match s.lacking x.c x.team 0 (slicesEach n taken) with
                | some j => .short j
                | none =>
                  let (s, es) := s.popItems x.team.ctx b taken.length
                  let s := x.writeLanes s r n (List.zip taken (es.map (itemNat b)))
                  fin s (maskOf taken fun _ => true)

/-- The lanes of a team that are retired (R53). -/
def Team.retiredLanes (t : Team) : List Nat :=
  let live := t.stk.foldl (fun m e => m ||| e.omask ||| e.tmask) t.act
  (List.range t.hdr.width).filter fun l => !inMask live l

/-- REFILL (R72); its start is checked once, before it first waits. Where a LEAD entry stands on the stack and the target is bad as
well, ILLEGAL comes first (DESIGN CHOICE, log 45: R40 orders only the ILLEGAL of encodings, streams and operands before
ILLEGAL_TARGET). -/
def execRefill (h : Hdr) (q : QReg) (wt : Bool) (off : BitVec 24) (s : State) :
    Host.Outcome State Fault Refusal :=
  runTeam (.refill h q wt off) h noNeed s fun x s =>
    let t := x.team
    let target := offTarget t.pc off
    let go (s : State) : Res :=
      let b := t.bind q
      match s.popCount t.ctx b with
      | none => .trapIn s .qfault 0
      | some n =>
        let ret := t.retiredLanes
        if wt && !ret.isEmpty && n == 0 then .wait s
        else
          let ls := ret.take n
          let (s, es) := s.popItems t.ctx b ls.length
          let m := maskOf ls fun _ => true
          let arg := (List.zip ls es).foldl (fun a p =>
            a.set 0 p.1 (if b.kind = 2 then p.2.2 else p.2.1)) t.arg
          let t := { t with arg := arg, act := t.act ||| m, pc := target, atHdr := true, wait := none,
                            stk := t.stk.map fun e => { e with omask := e.omask ||| m } }
          let s := s.setTeam x.c x.slot t
          .went (if ls.isEmpty then s.killLoads x.c x.slot else s.acquired x.c t.uid)
    if t.hasLead then .trap .illegal 0
    else if t.wait.isSome then go s
    else s.toTarget x.c t.ctx target go

end Sys2Proof.Machine
end

