-- ==== Sys2Proof/Machine/Engines.lean ====
section
/-! DEFINITION. Fill rings (R254 to R260), the copy engines and chain channels (R261 to R266), gather and
scatter (R268 to R273), and the instructions that issue and observe them (R277 to R280). An engine's
copy is one step (log 6). -/

namespace Sys2Proof.Machine

/-! Rings (R254, R255). -/

/-- A ring as its object reads. -/
structure Ring where
  sp    : Space
  key   : Nat
  cls   : Nat
  slots : Nat
  rsv   : Nat
  wr    : Nat
  rd    : Nat
  n     : Nat
deriving DecidableEq, Repr

/-- What naming a ring gives. -/
inductive RingAt where
  | badHandle
  | prot (a : Nat)
  | page (a : Nat)
  | badN
  | ok (r : Ring)

/-- A ring handle (R254): space and address. -/
def handleOf (h : W64) : Option (Space × Nat) :=
  match spaceOf (fld h.toNat 61 3) with
  | some sp => if fld h.toNat 57 4 = 0 && fld h.toNat 0 57 % 64 = 0 then some (sp, fld h.toNat 0 57) else none
  | none => none

/-- The ring object at a place. -/
def State.ringIn (s : State) (sp : Space) (key cls : Nat) : Ring :=
  let b := s.homeRead key 64
  { sp := sp, key := key, cls := cls, slots := fld (le64 b 0) 0 57, rsv := le32 b 0xC, wr := le32 b 8,
    rd := le32 b 0x10, n := fld (le64 b 0x18) 0 9 }

/-- Where slot i of a ring lies, for reading or for writing too. -/
def State.slotAt (s : State) (w : Who) (r : Ring) (i : Nat) (wr : Bool) : At :=
  s.spanAt w r.sp 0 (r.slots + 16 * (i % r.n)) 16 true wr

/-- The ring a handle names, with one of its slots reachable (R254, R255); ow and sw say whether the object and the slot are
written as well (R289). -/
def State.ringOf (s : State) (w : Who) (h : W64) (ow sw : Bool) (slot : Ring → Nat) : RingAt :=
  match handleOf h with
  | none => .badHandle
  | some (sp, a) =>
    match s.spanAt w sp 0 a 64 true ow with
    | .prot => .prot a
    | .unmapped => .page a
    | .ok k c =>
      let r := s.ringIn sp k c
      if r.n = 0 || 256 < r.n then .badN
      else match s.slotAt w r (slot r) sw with
        | .prot => .prot (r.slots + 16 * (slot r % r.n))
        | .unmapped => .page (r.slots + 16 * (slot r % r.n))
        | .ok _ _ => .ok r

/-- n32 arithmetic of indices. -/
def sub32 (a b : Nat) : Nat := (a + 2 ^ 32 - b % 2 ^ 32) % 2 ^ 32
def inc32 (a : Nat) : Nat := (a + 1) % 2 ^ 32

/-- Writes a word of a ring object. -/
def State.ringPut (s : State) (u : Unit_) (r : Ring) (off n v : Nat) : State := s.putWord u (r.key + off) r.cls (toLe n v)

/-- The bytes of a slot's two words. -/
def slotBytes (w0 w1 : Nat) : List Byte := toLe 8 w0 ++ toLe 8 w1

/-- A slot's two words. -/
def State.slotGet (s : State) (w : Who) (r : Ring) (i : Nat) : Nat × Nat :=
  match s.slotAt w r i false with
  | .ok k _ => let b := s.homeRead k 16; (le64 b 0, le64 b 8)
  | _ => (0, 0)
def State.slotPut (s : State) (u : Unit_) (w : Who) (r : Ring) (i w0 w1 : Nat) : State :=
  match s.slotAt w r i true with
  | .ok k c => s.putWord u k c (slotBytes w0 w1)
  | _ => s
/-- Whether a write of a slot would have to wait (R317). -/
def State.slotHeld (s : State) (w : Who) (r : Ring) (i w0 w1 : Nat) : List Nat :=
  match s.slotAt w r i true with
  | .ok k _ => if s.unitHeld k (slotBytes w0 w1) then [s.sliceNo k] else []
  | _ => []
/-- Whether a write of a word of a ring object would have to wait. -/
def State.objHeld (s : State) (r : Ring) (off n v : Nat) : List Nat :=
  if s.unitHeld (r.key + off) (toLe n v) then [s.sliceNo (r.key + off)] else []

/-- Status codes (R257). -/
def codePager : Nat := 1
def codePage : Nat := 2
def codeProt : Nat := 3
def codeEcc : Nat := 4
def codeStopped : Nat := 5
def codeChainbad : Nat := 6
def codePending : Nat := 0x7F
def codeOf (w1 : Nat) : Nat := fld w1 57 7

/-- The status code of an engine at an address without the permission it needs: ECC where that is what its walk met (R394). -/
def State.protCode (s : State) (w : Who) (sp : Space) (a : Nat) : Nat := if s.walkEcc w sp a then codeEcc else codeProt

/-- Whether a ring has a free slot (R258). -/
def Ring.full (r : Ring) : Bool := sub32 r.rsv r.rd == r.n

/-- The words of a slot that is reserved (R258). -/
def pendingWord : Nat := codePending * 2 ^ 57

/-- A slot is reserved in one step (R258). -/
def State.reserve (s : State) (u : Unit_) (w : Who) (r : Ring) : State :=
  (s.slotPut u w r r.rsv 0 pendingWord).ringPut u r 0xC 4 (inc32 r.rsv)

/-- Whether the step would have to wait for a spill ring (R317). -/
def State.reserveHeld (s : State) (w : Who) (r : Ring) : Bool :=
  !(s.slotHeld w r r.rsv 0 pendingWord ++ s.objHeld r 0xC 4 (inc32 r.rsv)).isEmpty

/-- WR passes the complete slots (R259). -/
def State.passed (s : State) (w : Who) (r : Ring) : Nat → Nat → Nat
  | 0, i => i
  | fuel + 1, i => if i = r.rsv || codeOf (s.slotGet w r i).2 = codePending then i else s.passed w r fuel (inc32 i)

/-- Whether slot RD is complete (R260). -/
def State.slotDone (s : State) (w : Who) (r : Ring) : Bool :=
  r.rd != r.wr && codeOf (s.slotGet w r r.rd).2 != codePending

/-- The two words of a status (R256). -/
def OpEnd.w0 (e : OpEnd) : Nat := e.resume % 2 ^ 32 * 2 ^ 32 + min e.done 0xFFFFFFFF
def OpEnd.w1 (e : OpEnd) : Nat := e.code * 2 ^ 57 + e.fa % 2 ^ 57

/-- WR once the status of a slot is written: the ring as it reads then (R259). -/
def State.wrAfter (s : State) (w : Who) (r : Ring) : Nat := s.passed w r (r.n + 1) r.wr

/-- A status is written and WR advances in one step (R259). A ring that can no longer be reached raises PROT. -/
def State.report (s : State) (u : Unit_) (w : Who) (ring : W64) (slot : Nat) (e : OpEnd) : State :=
  match s.ringOf w ring true true fun _ => slot with
  | .ok r =>
    let s := s.slotPut u w r slot e.w0 e.w1
    s.ringPut u r 8 4 (s.wrAfter w r)
  | _ => s.fatal (s.partOf (stackOf w.core)) e.unit .prot 0 0 ring

/-- The slices in which that step would have to wait (R317). -/
def State.statusHeld (s : State) (w : Who) (ring : W64) (slot : Nat) (e : OpEnd) : List Nat :=
  match s.ringOf w ring true true fun _ => slot with
  | .ok r =>
    let t := s.slotPut ⟨w.ctx, 0, 0, s.pkg⟩ w r slot e.w0 e.w1
    s.slotHeld w r slot e.w0 e.w1 ++ s.objHeld r 8 4 (t.wrAfter w r)
  | _ => []

/-! Operations in flight. -/

def State.op? (s : State) (id : Nat) : Option Op := s.ops.find? fun o => o.id == id

/-- Whether every store and atomic before an operation's fork is acknowledged (R300). -/
def State.forked (s : State) (uid fork : Nat) : Bool :=
  !(s.accs.any fun a => a.uid == uid && a.id < fork && (!a.isRead || a.stage != 0))

/-- Whether the partition of an operation has not halted (R369); a COPYH of the front end stands at a number above
the cores, with its partition. -/
def State.engineRuns (s : State) (o : Op) : Bool :=
  let part := match o.kind with | .copyh _ _ _ _ p _ => p | _ => s.partOf (stackOf o.who.core)
  s.unitsRun part

/-- Whether an operation may work: its fork is reached (R300) and its engine has not halted. -/
def State.engineMay (s : State) (o : Op) : Bool := s.forked o.who.uid o.fork && s.engineRuns o

/-- Counts on directory entries (R182). -/
def Core.countEntry (c : Core) (k : Nat) (up : Bool) : Core :=
  match c.dir.find k with
  | none => c
  | some e =>
    let n := if up then e.count + 1 else e.count - 1
    if n = 0 && e.owner.isNone then { c with dir := c.dir.del k } else { c with dir := c.dir.put k { e with count := n } }

/-- An operation is over: its counts are dropped (R182). Where it has written, the L1 of the core that issued it drops the words it
does not own, so that an access which has waited for it, and any later one, reads what it wrote (R184, R304). -/
def State.endOp (s : State) (o : Op) : State :=
  let s := { s with ops := s.ops.filter fun p => p.id != o.id }
  let s := if o.writes.isSome then s.selfInvalidate o.who.core else s
  s.modCore o.who.core fun c => o.ents.foldl (fun c k => c.countEntry k false) c

/-- A team as the party of a write that a unit makes for it at once. -/
def X.unit (x : X) (s : State) : Unit_ := ⟨x.team.ctx, x.team.uid, x.team.depth, s.pkg⟩
/-- An operation as the party of its writes. -/
def Op.unit (o : Op) (s : State) : Unit_ := ⟨o.who.ctx, o.id, o.depth, s.pkg⟩

/-- An operation is issued. -/
def X.launchOp (x : X) (s : State) (k : OpK) (ring : W64) (slot : Nat) (reads writes : Option (Option Foot))
    (views : List View) : State :=
  let ents := views.filterMap View.entry
  let s := s.modCore x.c fun c => ents.foldl (fun c k => c.countEntry k true) c
  let o : Op := { id := s.seq, kind := k, who := x.who, depth := x.team.depth, fork := s.seq, ring := ring,
                  slot := slot, reads := reads, writes := writes, ents := ents, stop := false }
  ({ s with ops := s.ops ++ [o] }.tickSeq).killLoads x.c x.slot

/-- Whether the team has a store or atomic in flight to a ring object. -/
def State.ringBusy (s : State) (uid : Nat) (r : Ring) : Bool :=
  s.accs.any fun a => a.uid == uid && !a.isRead && a.key < r.key + 64 && r.key < a.key + a.len

/-- Names a ring at issue: PROT first, then what bad says of the form's own operands, then a misaligned
operand, then the ring's ALIGN, PAGE and QFAULT (R196, R254, R255, R282). -/
def X.withRing (x : X) (s : State) (h : W64) (ow sw : Bool) (slot : Ring → Nat) (bad : Option Res) (align : Option Nat)
    (k : Ring → Res) : Res :=
  let ra := s.ringOf x.who h ow sw slot
  match ra, bad, align with
  | .prot a, _, _ => .fatal .prot (BitVec.ofNat 64 a)
  | _, some r, _ => r
  | _, none, some a => .trap .align (BitVec.ofNat 64 a)
  | .badHandle, none, none => .trap .align (BitVec.ofNat 64 (fld h.toNat 0 57))
  | .page a, none, none => .trap .page (BitVec.ofNat 64 a)
  | .badN, none, none => .trap .qfault 0
  | .ok r, none, none => if s.acquiring x.team.uid || s.ringBusy x.team.uid r then .hold else k r

/-- An operand that must be a multiple of n, where it is not. -/
def misOf (n a : Nat) : Option Nat := if a % n = 0 then none else some a

/-- Reserves a slot at issue, or waits for one (R258). -/
def X.reserving (x : X) (s : State) (r : Ring) (k : State → Nat → State) : Res :=
  if r.full then .wait (s.bump .cpyRingfull (stackOf x.c) 1)
  else if s.reserveHeld x.who r then .hold
  else .done (k (s.reserve (x.unit s) x.who r) r.rsv)

/-! COPY (R262, R263). -/

def copyReady (a b : View) : Bool := a.valid && b.valid && a.desc.esize == b.desc.esize && a.total == b.total

/-- COPY. -/
def execCopy (h : Hdr) (a b : WReg) (c : SReg) (s : State) : Host.Outcome State Fault Refusal :=
  runTeam (.copy h a b c) h (fun _ _ _ => { leader := true }) s fun x s =>
    let va := x.src.team.viewOf a
    let vb := x.src.team.viewOf b
    let ring := x.src.team.rs c
    if x.adm = 0 then .done s
    else x.withRing s ring true true Ring.rsv (if copyReady va vb then none else some (.trap .illegalDesc 0)) none fun r =>
      x.reserving s r fun s slot =>
        let core := s.core x.c
        x.launchOp s (.copy va vb 0 0) ring slot (some (core.footOf va)) (some (core.footOf vb)) [va, vb]

/-- COPY.R: continues the copy whose status stands in slot RD (R263). -/
def execCopyR (h : Hdr) (a b : WReg) (c : SReg) (s : State) : Host.Outcome State Fault Refusal :=
  runTeam (.copyR h a b c) h (fun _ _ _ => { leader := true }) s fun x s =>
    let va := x.src.team.viewOf a
    let vb := x.src.team.viewOf b
    let ring := x.src.team.rs c
    if x.adm = 0 then .done s
    else x.withRing s ring true true Ring.rd (if copyReady va vb then none else some (.trap .illegalDesc 0)) none fun r =>
      let (w0, w1) := s.slotGet x.who r r.rd
      if codeOf w1 != codePager && codeOf w1 != codeStopped then .trap .qfault 0
      else
        let w1 := w1 % 2 ^ 57 + pendingWord
        let core := s.core x.c
        if !(s.slotHeld x.who r r.rd w0 w1).isEmpty then .hold
        else .done (x.launchOp (s.slotPut (x.unit s) x.who r r.rd w0 w1) (.copy va vb (fld w0 32 32) (fld w0 0 32)) ring r.rd
          (some (core.footOf va)) (some (core.footOf vb)) [va, vb])

/-! How an operation ends (R257, R259). -/

/-- An operation takes a new form. -/
def State.setOp (s : State) (o : Op) : State := { s with ops := s.ops.map fun p => if p.id == o.id then o else p }

/-- Channel registers (R267): BUSY and 57 bits of the record's address. -/
def chanWord (busy : Bool) (rec : Nat) : W64 := BitVec.ofNat 64 (bit busy * 2 ^ 63 + rec % 2 ^ 57)

/-- The report of an operation whose writes are all performed: its status, with a halt for PROT and ECC (R257, R368), its
counters, a channel idle (R266); a COPYH decrements its signal (R335). -/
def State.opReport (s : State) (o : Op) (e : OpEnd) : State :=
  let fatal (s : State) (part : Nat) : State :=
    if e.code = codeEcc then s.fatal part e.unit .ecc 0 0 (BitVec.ofNat 64 e.fa)
    else if e.code = codeProt || (o.kind matches .copyh .. && e.code != 0) then
      s.fatal part e.unit .prot 0 0 (BitVec.ofNat 64 e.fa)
    else s
  match o.kind with
  | .copyh _ _ _ signal part ticket =>
    let s := { s with ops := s.ops.filter fun p => p.id != o.id }.modPart part fun p => { p with tickets := p.tickets.del ticket }
    (match signal with
     | some a => if e.code = 0 then s.signal o.who.ctx part a o.id else fatal s part
     | none => fatal s part)
  | k =>
    let st := stackOf o.who.core
    let s := fatal (s.report (o.unit s) o.who o.ring o.slot e) (s.partOf st)
    let s := if e.code = 0x40 then s.bump .stkNofree st 1 else s
    let s := match k with
      | .chain ch rec _ _ => s.modStk st fun q => { q with chan := q.chan.put ch (chanWord false rec) }
      | _ => s
    (s.bump .cpyBytes st e.count).tickFree.endOp o

/-- The word at an address changes in one step of a unit; none where the change must wait (R317), and nothing where the word cannot
be reached any more. -/
def State.wordPut (s : State) (u : Unit_) (w : Who) (a : Nat) (f : Nat → Nat) : Option State :=
  match s.unitWord w .glob a 8 true true with
  | none => some s
  | some (k, cls, v) => if s.unitHeld k (toLe 8 (f v)) then none else some (s.putWord u k cls (toLe 8 (f v)))

/-- APP of a sequence entry's word cleared (R235). -/
def clearApp (v : Nat) : Nat := v - fld v 34 1 * 2 ^ 34

/-- An operation that has nothing left but writes and its report goes on, as far as what it has written is performed (R259):
the next group of its writes, the clearing of APP, the report. -/
def State.opGo (s : State) (id : Nat) : Nat → State
  | 0 => s
  | fuel + 1 =>
    match s.op? id with
    | none => s
    | some o =>
      if s.outstanding id then s
      else match o.todo, o.ended, o.kind with
        | b :: rest, _, _ => ((s.putAll (o.unit s) b).setOp { o with todo := rest }).opGo id fuel
        | [], none, _ => s
        | [], some _, .kvapp e k v sp 2 =>
          (match s.wordPut (o.unit s) o.who (e + 8) clearApp with
           | none => s
           | some s => (s.setOp { o with kind := .kvapp e k v sp 3 }).opGo id fuel)
        | [], some e, _ =>
          if (o.kind matches .copyh ..) || (s.statusHeld o.who o.ring o.slot e).isEmpty then s.opReport o e else s

/-- An operation has done its work: groups of writes are left, and its report. -/
def State.conclude (s : State) (o : Op) (todo : List (List Put)) (e : OpEnd) : State :=
  (s.setOp { o with todo := todo, ended := some e }).opGo o.id 8

/-- How a run of an engine ended. -/
structure Ended where
  st     : State
  resume : Nat
  bytes  : Nat
  code   : Nat
  fa     : Nat

/-- The unit number of a copy engine of a stack (R370). -/
def copyUnit (core e : Nat) : Nat := 576 + 8 * stackOf core + e

/-- Copies elements in ascending order up to the first that cannot be translated (R262). -/
def State.copyElems (s : State) (o : Op) (src dst : View) (n : Nat) (bytes : Nat) : List Nat → Ended
  | [] => ⟨s, n, bytes, 0, 0⟩
  | e :: es =>
    let sz := 2 ^ src.desc.esize
    let sa := (viewElem src e).map fun a => (a, s.spanAt o.who src.desc.space 0 a sz true false)
    let da := (viewElem dst e).map fun a => (a, s.spanAt o.who dst.desc.space 0 a sz false true)
    match sa, da with
    | some (a, .prot), _ => ⟨s, e, bytes, s.protCode o.who src.desc.space a, a⟩
    | some (a, .unmapped), _ => ⟨s, e, bytes, codePager, a⟩
    | _, some (a, .prot) => ⟨s, e, bytes, s.protCode o.who dst.desc.space a, a⟩
    | _, some (a, .unmapped) => ⟨s, e, bytes, codePager, a⟩
    | _, none => s.copyElems o src dst n bytes es
    | some (a, .ok k kc), some (_, .ok d c) =>
      if s.eccBad k then ⟨s.noteEcc k, e, bytes, codeEcc, a⟩
      else ((s.readAt k kc).putWord (o.unit s) d c (s.homeRead k sz)).copyElems o src dst n (bytes + sz) es
    | none, some (_, .ok d c) =>
      if src.zf then (s.putWord (o.unit s) d c (List.replicate sz 0)).copyElems o src dst n (bytes + sz) es
      else s.copyElems o src dst n bytes es

/-- A COPY runs to its end, once it has walkers (R290), or stops where an engine quiesce found it (R262, R382). -/
def State.runCopy (s : State) (o : Op) (src dst : View) (start done0 : Nat) : State :=
  let unit := copyUnit o.who.core 0
  let es := (List.range (src.total - start)).map fun i => start + i
  if o.stop then s.conclude o [] ⟨unit, start, 0, codeStopped, 0, done0⟩
  else
    let st := stackOf o.who.core
    let waits (v : View) : Bool := s.unitWaits st o.who v.desc.space (es.filterMap (viewElem v))
    let walks (s : State) (v : View) : State := s.unitWalks st o.who v.desc.space (es.filterMap (viewElem v))
    if waits src || waits dst then s else
    let e := (walks (walks s src) dst).copyElems o src dst src.total 0 es
    e.st.conclude o [] ⟨unit, e.resume, e.bytes, e.code, e.fa, done0 + e.bytes⟩

/-! COPYM (R264). -/

/-- COPYM. -/
def execCopym (h : Hdr) (a : WReg) (b c : SReg) (s : State) : Host.Outcome State Fault Refusal :=
  runTeam (.copym h a b c) h (fun _ _ _ => { leader := true }) s fun x s =>
    let v := x.src.team.viewOf a
    let off := (x.src.team.rs b).toNat
    let ring := x.src.team.rs c
    if x.adm = 0 then .done s
    else if x.team.hdr.packBytes < off + 64 then .fatal .prot (BitVec.ofNat 64 off)
    else
      let cmd := s.memRead (packKey x.team.blk off) 64
      let w0 := le64 cmd 0
      let nown := le32 cmd 0x14
      let ncommon := le32 cmd 0x10
      let nrcv := fld (le64 cmd 0x18) 0 5 + 1
      let l := 2 ^ v.desc.esize
      let sp := match fld w0 61 3 with | 0 => some Space.glob | 4 => some .bcamp | _ => none
      let bad := sp.isNone || fld w0 57 4 != 0 || fld (le64 cmd 0x18) 5 59 != 0 ||
        (List.range 4).any (fun k => le64 cmd (0x20 + 8 * k) != 0) || !v.valid || v.total < ncommon + nrcv * nown
      if s.accs.any fun q => q.uid == x.team.uid && !q.isRead &&
          q.key < packKey x.team.blk off + 64 && packKey x.team.blk off < q.key + q.len then .hold
      else x.withRing s ring true true Ring.rsv (if (off % 64 = 0 && bad) || !v.valid then some (.trap .illegalDesc 0) else none)
        (misOf 64 off <|> misOf l (fld w0 0 57) <|> misOf l (le64 cmd 8)) fun r =>
        x.reserving s r fun s slot =>
          x.launchOp s (.copym v (sp.getD .glob) (fld w0 0 57) (sgn 64 (le64 cmd 8)) nown ncommon nrcv) ring slot
            (some ((s.core x.c).footOf v)) (some none) [v]

/-- The elements and destinations of a COPYM, receiver by receiver. -/
def copymMoves (v : View) (dbase : Nat) (rstride : Int) (nown ncommon nrcv : Nat) : List (Nat × Nat) :=
  let l : Nat := 2 ^ v.desc.esize
  let at_ (base k : Nat) : Nat := (base + k * l) % 2 ^ 64
  (List.range nrcv).flatMap fun (i : Nat) =>
    let base : Nat := wrap 64 ((dbase : Int) + (i : Int) * rstride)
    ((List.range ncommon).map fun (k : Nat) => (k, at_ base k)) ++
    (List.range nown).map fun (k : Nat) => ((ncommon + i * nown + k : Nat), at_ base (ncommon + k))

/-- The first source or destination that a COPYM cannot reach, with its status code. -/
def State.copymFail (s : State) (o : Op) (v : View) (sp : Space) (moves : List (Nat × Nat)) : Option (Nat × Nat) :=
  let sz := 2 ^ v.desc.esize
  moves.findSome? fun m =>
    match (viewElem v m.1).map fun a => (a, s.spanAt o.who v.desc.space 0 a sz true false) with
    | some (a, .prot) => some (a, s.protCode o.who v.desc.space a)
    | some (a, .unmapped) => some (a, codePage)
    | _ => match s.spanAt o.who sp 0 m.2 sz false true with
      | .prot => some (m.2, s.protCode o.who sp m.2)
      | .unmapped => some (m.2, codePage)
      | _ => none

/-- What a move of a COPYM writes: place, class, bytes; none where it writes nothing. -/
def State.copymPut (s : State) (o : Op) (v : View) (sp : Space) (m : Nat × Nat) : Option (Nat × Nat × List Byte) :=
  let sz := 2 ^ v.desc.esize
  match s.spanAt o.who sp 0 m.2 sz false true with
  | .ok d c =>
    (match (viewElem v m.1).map fun a => s.spanAt o.who v.desc.space 0 a sz true false with
     | some (.ok k _) => some (d, c, s.homeRead k sz)
     | none => if v.zf then some (d, c, List.replicate sz 0) else none
     | _ => none)
  | _ => none

/-- A COPYM runs, once it has walkers (R290): everything is translated before anything is written. The RESUME of one that ends OK is
the number of the tile's elements (DESIGN CHOICE, log 51: R256's count of the whole operation could be that of the elements it
delivers to all its receivers). -/
def State.runCopym (s : State) (o : Op) (v : View) (sp : Space) (moves : List (Nat × Nat)) (count : Nat) : State :=
  let unit := copyUnit o.who.core 0
  let st := stackOf o.who.core
  let srcs := moves.filterMap fun m => viewElem v m.1
  if s.unitWaits st o.who v.desc.space srcs || s.unitWaits st o.who sp (moves.map Prod.snd) then s else
  let s := (s.unitWalks st o.who v.desc.space srcs).unitWalks st o.who sp (moves.map Prod.snd)
  match s.copymFail o v sp moves with
  | some (a, code) => s.conclude o [] ⟨unit, 0, 0, code, a, 0⟩
  | none =>
    let keys := moves.filterMap fun m => match (viewElem v m.1).map fun a => (a, s.spanAt o.who v.desc.space 0 a 1 true false) with
      | some (a, .ok k c) => some (a, k, c)
      | _ => none
    match keys.find? fun q => s.eccBad q.2.1 with
    | some (a, k, _) => (s.noteEcc k).conclude o [] ⟨unit, 0, 0, codeEcc, a, 0⟩
    | none =>
      let puts := moves.filterMap (s.copymPut o v sp)
      let s := keys.foldl (fun s q => s.readAt q.2.1 q.2.2) s
      let bytes := (puts.map fun p => p.2.2.length).sum
      (puts.foldl (fun s p => s.putWord (o.unit s) p.1 p.2.1 p.2.2) s).conclude o [] ⟨unit, count, bytes, 0, 0, bytes⟩

/-! CHAIN (R265, R266). -/

/-- CHAIN. A busy channel keeps it from issuing, which is no pre-emption point and counts nothing (R266, R374); a full ring makes it
wait (R258). -/
def execChain (h : Hdr) (a b c : SReg) (s : State) : Host.Outcome State Fault Refusal :=
  runTeam (.chain h a b c) h (fun _ _ _ => { leader := true }) s fun x s =>
    let head := (x.src.team.rs a).toNat
    let ch := (x.src.team.rs b).toNat
    let ring := x.src.team.rs c
    let st := stackOf x.c
    if x.adm = 0 then .done s
    else x.withRing s ring true true Ring.rsv (if 128 ≤ ch then some (.trap .qfault 0) else none)
      (misOf 64 head) fun r =>
      if ((s.stk st).chan.get 0 ch).getLsbD 63 then .hold
      else x.reserving s r fun s slot =>
        let s := s.modStk st fun k => { k with chan := k.chan.put ch (chanWord true head) }
        x.launchOp s (.chain ch head 0 0) ring slot (some none) (some none) []

/-- Copies n bytes in ascending order; stops at the first byte that cannot be reached. Bytes that the copy itself has written are read
as written, so no piece reaches from its source into its destination. -/
def State.copyBytes (s : State) (o : Op) (ss ds : Space) : Nat → Nat → Nat → Nat → Nat → Ended
  | 0, _, _, _, done => ⟨s, 0, done, 0, 0⟩
  | fuel + 1, src, dst, n, done =>
    if n = 0 then ⟨s, 0, done, 0, 0⟩
    else
      match s.byteAt o.who ss 0 src true false, s.byteAt o.who ds 0 dst false true with
      | .prot, _ => ⟨s, 0, done, s.protCode o.who ss src, src⟩
      | .unmapped, _ => ⟨s, 0, done, codePage, src⟩
      | _, .prot => ⟨s, 0, done, s.protCode o.who ds dst, dst⟩
      | _, .unmapped => ⟨s, 0, done, codePage, dst⟩
      | .ok sk sc, .ok dk c =>
        let m := min n (min (64 - src % 64) (64 - dst % 64))
        let k := if sk < dk then min m (dk - sk) else m
        if s.eccBad sk then ⟨s.noteEcc sk, 0, done, codeEcc, src⟩
        else ((s.readAt sk sc).putWord (o.unit s) dk c (s.homeRead sk k)).copyBytes o ss ds fuel (src + k) (dst + k) (n - k) (done + k)

/-- The 64 KiB pages of n bytes at an address, each by its first byte. -/
def pagesOf (a n : Nat) : List Nat := if n = 0 then [] else (List.range ((a + n - 1) / 65536 + 1 - a / 65536)).map fun i => (a / 65536 + i) * 65536

/-- The end of a chain at a record (R266). -/
def State.chainEnd (s : State) (o : Op) (ch rec k total : Nat) (todo : List (List Put)) (e : Ended) : State :=
  e.st.conclude { o with kind := .chain ch rec k total } todo ⟨copyUnit o.who.core (ch / 16), e.resume, e.bytes, e.code, e.fa, total + e.bytes⟩

/-- One record of a chain (R265, R266), once its addresses have walkers (R290). OWN is cleared once the record's bytes are
performed, and the next record follows that. -/
def State.runRecord (s : State) (o : Op) (ch rec k total : Nat) : State :=
  let stop (s : State) (bytes code fa : Nat) : State := s.chainEnd o ch rec k total [] ⟨s, k, bytes, code, fa⟩
  let st := stackOf o.who.core
  if o.stop then stop s 0 codeStopped 0
  else if s.unitWaits st o.who .glob [rec] then s
  else
    let before := s
    let s := s.unitWalks st o.who .glob [rec]
    match s.spanAt o.who .glob 0 rec 64 true false with
    | .prot => stop s 0 (s.protCode o.who .glob rec) rec
    | .unmapped => stop s 0 codePage rec
    | .ok key cls =>
      if s.eccBad key then stop (s.noteEcc key) 0 codeEcc rec
      else
      let b := s.homeRead key 64
      let s := s.readAt key cls
      let w (i : Nat) : Nat := le64 b (8 * i)
      let next := fld (w 0) 0 57
      match spaceOf (fld (w 1) 61 3), spaceOf (fld (w 2) 61 3) with
      | some ss, some ds =>
        if fld (w 0) 57 6 != 0 || next % 64 != 0 || fld (w 1) 57 4 != 0 || fld (w 2) 57 4 != 0 ||
            fld (w 3) 32 32 != 0 || (List.range 4).any (fun i => w (4 + i) != 0) then stop s 0 codeChainbad rec
        else if fld (w 0) 63 1 = 0 then stop s 0 0 rec
        else
          let n := fld (w 3) 0 32
          let src := fld (w 1) 0 57
          let dst := fld (w 2) 0 57
          if before.unitWaits st o.who ss (pagesOf src n) || before.unitWaits st o.who ds (pagesOf dst n) then before else
          let s := (s.unitWalks st o.who ss (pagesOf src n)).unitWalks st o.who ds (pagesOf dst n)
          let e := s.copyBytes o ss ds (n + 1) src dst n 0
          if e.code != 0 then stop e.st e.bytes e.code e.fa
          else match e.st.spanAt o.who .glob 0 rec 8 false true with
            | .prot => stop e.st e.bytes (e.st.protCode o.who .glob rec) rec
            | .unmapped => stop e.st e.bytes codePage rec
            | .ok _ _ =>
              let own : Put := ⟨[(key, cls, 8)], toLe 8 (w 0 % 2 ^ 63)⟩
              if next = 0 then e.st.chainEnd o ch rec k total [[own]] ⟨e.st, k + 1, n, 0, 0⟩
              else
                let s := e.st.bump .cpyBytes st n
                let s := s.modStk st fun q => { q with chan := q.chan.put ch (chanWord true next) }
                (s.setOp { o with kind := .chain ch next (k + 1) (total + n), todo := [[own]] }).opGo o.id 8
      | _, _ => stop s 0 codeChainbad rec

/-! RING, FWAIT, FREL, FTEST (R277 to R280). -/

/-- RING: a release, so it is performed once what the team issued before is acknowledged. -/
def execRing (h : Hdr) (a b : SReg) (nm1 : Fin 256) (s : State) : Host.Outcome State Fault Refusal :=
  runTeam (.ring h a b nm1) h noNeed s fun x s =>
    let hd := x.src.team.rs a
    let sl := x.src.team.rs b
    let n := nm1.val + 1
    let base := fld sl.toNat 0 57
    if x.adm = 0 then .done s
    else match handleOf hd with
      | none => .trap .align (BitVec.ofNat 64 (fld hd.toNat 0 57))
      | some (sp, addr) =>
        let ob := s.spanAt x.who sp 0 addr 64 true true
        let (ps, bad) := s.area x.who sp base (16 * n) false true
        match ob, bad with
        | .prot, _ => .fatal .prot (BitVec.ofNat 64 addr)
        | _, some (f, false) => .fatal .prot (BitVec.ofNat 64 f)
        | .unmapped, _ => if sl.toNat % 16 != 0 then .trap .align sl else .trap .page (BitVec.ofNat 64 addr)
        | .ok k c, bad =>
          if sl.toNat % 16 != 0 then .trap .align sl
          else match bad with
            | some (f, _) => .trap .page (BitVec.ofNat 64 f)
            | none =>
              if s.owes x.team.uid s.seq then .hold
              else
                let old := s.ringIn sp k c
                if 1 ≤ old.n && old.n ≤ 256 && old.rsv != old.wr then .trap .qfault 0
                else
                  let obj := toLe 8 base ++ List.replicate 16 0 ++ toLe 8 n ++ List.replicate 32 0
                  let s := s.putWord (x.unit s) k c obj
                  .done ((s.putPieces (x.unit s) true ps (List.replicate (16 * n) 0)).killLoads x.c x.slot)

/-- FWAIT (R278). -/
def execFwait (h : Hdr) (a b : SReg) (nt : Bool) (s : State) : Host.Outcome State Fault Refusal :=
  runTeam (.fwait h a b nt) h noNeed s fun x s =>
    if x.adm = 0 then .done s
    else x.withRing s (x.src.team.rs b) true false Ring.rd none none fun r =>
      if !s.slotDone x.who r then .wait s
      else
        let (w0, w1) := s.slotGet x.who r r.rd
        if codeOf w1 = codePager && !nt then .trap .page (BitVec.ofNat 64 (fld w1 0 57))
        else
          let s := if a.val = 0 then s
            else s.modTeam x.c x.slot fun t => (t.ws a (BitVec.ofNat 64 w0)).ws (sregAt a 1) (BitVec.ofNat 64 w1)
          .done (s.acquired x.c x.team.uid)

/-- FREL (R279). The step at the ring's home waits there for room in a spill ring, and not its team (R317). -/
def execFrel (h : Hdr) (b : SReg) (s : State) : Host.Outcome State Fault Refusal :=
  runTeam (.frel h b) h noNeed s fun x s =>
    if x.adm = 0 then .done s
    else x.withRing s (x.src.team.rs b) true false Ring.rd none none fun r =>
      if !s.slotDone x.who r then .trap .qfault 0
      else .done ((s.changeAt (x.unit s) (.atomic .add 0 false 1 0) (r.key + 0x10) r.cls (toLe 4 (inc32 r.rd))).killLoads x.c x.slot)

/-- FTEST (R280). -/
def execFtest (h : Hdr) (a : PReg) (b : SReg) (s : State) : Host.Outcome State Fault Refusal :=
  runTeam (.ftest h a b) h noNeed s fun x s =>
    if x.adm = 0 then .done s
    else x.withRing s (x.src.team.rs b) false false Ring.rd none none fun r =>
      let ok := s.slotDone x.who r
      let s := s.modTeam x.c x.slot fun t => t.wp a x.adm (if ok then x.adm else 0)
      .done (if ok then s.acquired x.c x.team.uid else s.killLoads x.c x.slot)

/-! GATH and SCAT (R268 to R272). -/

/-- The row address of a lane (R268). -/
def Src.row (x : Src) (idx : VReg) (c : SReg) (l : Nat) : Nat :=
  wrap 64 (((x.team.rs c).toNat + (x.v idx 0 l).toNat * fld (x.team.rs (sregAt c 1)).toNat 0 32 : Nat))

/-- What keeps a row from being read. -/
def State.rowFail (s : State) (w : Who) (align n a : Nat) : Option Cause :=
  match (s.area w .glob a n true false).2 with
  | some (_, false) => some .prot
  | some (_, true) => if a % align != 0 then some .align else some .page
  | none => if a % align != 0 then some .align else none

/-- GATH (R270, R271). A bad RB comes after a first lane without permission and before what else that lane meets (R196); the row of a
bad RB is taken as its first chunk for that (DESIGN CHOICE, log 47). -/
def execGath (h : Hdr) (d : Option VReg) (idx : VReg) (c : SReg) (p : PReg) (sz : Fin 3) (s : State) :
    Host.Outcome State Fault Refusal :=
  runTeam (.gath h d idx c p sz) h (fun _ _ _ => { gather := true }) s fun x s =>
    let ls := lanes x.adm
    let rb := fld (x.src.team.rs (sregAt c 1)).toNat 32 16
    let size := match d with | some _ => 4 * 2 ^ sz.val | none => rb
    let regs := 2 ^ sz.val
    if ls.isEmpty then .done s
    else
      let badRb := d.isNone && (rb % 4 != 0 || rb < 4 || 1024 < rb)
      let align := match d with | some _ => size | none => 4
      let fails := ls.map fun l => (l, s.rowFail x.who align (if badRb then 4 else size) (x.src.row idx c l))
      match fails.head? with
      | some (l, some cause) =>
        let a := x.src.row idx c l
        let s := s.unitWalks (stackOf x.c) x.who .glob [a]
        if cause == .prot then .fatalIn s (if s.walkEcc x.who .glob a then .ecc else .prot) (BitVec.ofNat 64 a)
        else if badRb then .trap .illegalDesc 0 else .trapIn s cause (BitVec.ofNat 64 a)
      | _ =>
        if badRb then .trap .illegalDesc 0 else
        let v := (fails.takeWhile fun f => f.2.isNone).map Prod.fst
        let vm := maskOf v fun _ => true
        let rows := v.map fun l => (l, x.src.row idx c l)
        let pages := rows.flatMap fun r => pagesOf r.2 size
        if s.acquiring x.team.uid || s.unitWaits (stackOf x.c) x.who .glob pages then .hold
        else if d.isNone && 4 ≤ x.team.gather.length then .wait s
        else if d.isSome && !s.headroom x.c x.team (slicesFor regs ls) then s.sliceWait x.c
        else
          let (s, dests) := match d with
            | none => (s, [])
            | some r => (passes x.adm).foldl (fun (q : State × List (Nat × List Dest)) j =>
                let (s, sls) := q.1.alloc x r regs j (maskWord x.adm j)
                (s, q.2 ++ [(j, sls.map Dest.slice)])) (s, [])
          let s := s.modTeam x.c x.slot fun t =>
            let t := if p.val = 0 then t else t.wp p x.adm vm
            if d.isNone then { t with gather := t.gather ++ [⟨s.seq, vm, [], rb, 0⟩] } else t
          let s := s.unitWalks (stackOf x.c) x.who .glob pages
          .done (x.launchOp s (.gath dests rows size d.isNone (if p.val = 0 then none else some p.val)) 0 0
            (some none) none [])

/-- The lanes of an operation that wait for a row, on a stack and of a context. -/
def Op.wants (o : Op) (stack ctx addr size : Nat) : List Nat :=
  match o.kind with
  | .gath _ rows sz _ _ =>
    if stackOf o.who.core == stack && o.who.ctx == ctx && sz == size then
      (rows.filter fun r => r.2 == addr).map Prod.fst
    else []
  | _ => []

/-- A row arrives for the lanes of an operation. -/
def State.rowFor (s : State) (o : Op) (addr : Nat) (ls : List Nat) (row : List Byte) : State :=
  match o.kind with
  | .gath dests rows size stream pred =>
    let s := if stream then
        match s.teamOf o.who.uid with
        | some (q, t) => { s with teams := s.teams.put q { t with gather := t.gather.map fun d =>
            if d.id == o.id then { d with rows := ls.foldl (fun r l => r.put l row) d.rows } else d } }
        | none => s
      else ls.foldl (fun s l =>
        match dests.find? fun e => e.1 == l / 32 with
        | some e => s.deliver { mkAccess o.who .read ⟨0, 0, 0⟩ 4 0 with dests := e.2, lane := l } (ofLe row)
        | none => s) s
    let rest := rows.filter fun r => r.2 != addr
    if rest.isEmpty then (s.endOp o).settleCore o.who.core
    else { s with ops := s.ops.map fun p => if p.id == o.id then { p with kind := .gath dests rest size stream pred } else p }
  | _ => s

/-- A row is fetched once and replayed to every gather that asks for it (R269, R273). -/
def State.fetchRow (s : State) (o : Op) (addr size : Nat) : State :=
  let st := stackOf o.who.core
  let takers := s.ops.filterMap fun p =>
    let ls := p.wants st o.who.ctx addr size
    if ls.isEmpty || !s.forked p.who.uid p.fork then none else some (p, ls)
  let lanesN := (takers.map fun t => t.2.length).sum
  let (ps, bad) := s.area o.who .glob addr size true false
  if s.badPieces ps then
    (s.noteBad ps).fatal (s.partOf st) (612 + st) .ecc 0 0 (BitVec.ofNat 64 addr)
  else if lanesN = 0 then s
  else
    let row := if bad.isSome then (List.range size).map fun i => Config.freeByte s.free i else s.getPieces ps
    let s := ((s.readPieces ps).bump .hgeFetch st 1).bump .hgeReplay st (lanesN - 1)
    takers.foldl (fun s t => s.rowFor t.1 addr t.2 row) s.tickFree

/-- SCAT (R272): plain stores of the team, in flight for the Compass until they are performed (R183). -/
def execScat (h : Hdr) (d : VReg) (idx : VReg) (c : SReg) (sz : Fin 3) (s : State) :
    Host.Outcome State Fault Refusal :=
  runTeam (.scat h d idx c sz) h (fun _ _ _ => { gather := true }) s fun x s =>
    let n := 4 * 2 ^ sz.val
    if x.adm = 0 then .done s
    else
      let as := (lanes x.adm).map fun l => (l, x.src.row idx c l)
      match spotsByLane s x.who n as with
      | .error e => s.failRes x.who .glob as e
      | .ok ps =>
        if s.acquiring x.team.uid then .hold
        else
          let grp := s.seq
          let t := x.stores s .glob false ps fun l => x.src.bytes (.v d) n l
          let o : Op := { id := t.seq, kind := .scat grp, who := x.who, depth := x.team.depth, fork := t.seq,
                          ring := 0, slot := 0, reads := some none, writes := some none, ents := [], stop := false }
          .done { t with ops := t.ops ++ [o] }.tickSeq

/-- A scatter is over for the Compass once its stores are performed. -/
def State.runScat (s : State) (o : Op) (grp : Nat) : State :=
  if s.accs.any fun a => a.grp == grp && a.uid == o.who.uid && a.stage == 0 then s else s.endOp o

end Sys2Proof.Machine
end

