-- ==== Sys2Proof/Machine/Matrix.lean ====
section
/-! DEFINITION. The matrix array and the named barriers (R117 to R122, R134, R199 to R229, R412). -/

namespace Sys2Proof.Machine

/-! Formats (R116 to R122). -/

/-- L(c) of R116. -/
def cb4Level (c : Nat) : Int :=
  ([-1024, -712, -536, -404, -292, -190, -92, 0, 80, 164, 252, 348, 456, 580, 736, 1024] : List Int).getD c 0

/-- The exponent of a non-zero finite value, biased by 127 (R118). -/
def expOf : Fl → Option Int
  | .fin _ m e => if m = 0 then none else some (e + Nat.log2 m + 127)
  | _ => none

/-- BFX12 of a block of values: the exponent code and the mantissas (R118). -/
def toBfx12 (xs : List Fl) : Nat × List Int :=
  if xs.any fun x => isNanX x || isInfX true x || isInfX false x then (0xFF, xs.map fun _ => 0)
  else
    let e : Int := (xs.filterMap expOf).foldl max 1
    (e.toNat, xs.map fun x => match x with
      | .fin neg m ex =>
        let r : Int := (roundInt .rne neg m (-(ex + 137 - e))).1
        if neg then -r else if r = 2048 then 2047 else r
      | _ => 0)

/-- 2^n as F32; the canonical NaN for a poisoned block (R117, R121). -/
def pow2F (e : Nat) (bias : Int) : Nat := if e = 0xFF then fmtNan .f32 else (roundF .f32 Rnd.rne false 1 (e - bias)).bits

/-- Sblk of R120. -/
def blockScale (s e : Nat) : Nat := (packF .f32 Rnd.rne (mulX (unpackF .f32 false s) (.fin false (e + 1) (-8)))).bits

/-- The row scale of a CB4 or I8 tile (R121). -/
def rowScale (k : TKind) (s e : Nat) : Nat :=
  match k with
  | .cb4 => (packF .f32 Rnd.rne (mulX (unpackF .f32 false (blockScale s e)) (.fin false 1 (-10)))).bits
  | _ => blockScale s e

/-- Bytes of a row of MLDA (R203). -/
def wfmtRow : WFmt → Nat
  | .cb4 => 32 | .bf16 => 128 | _ => 64

def wfmtKind : WFmt → TKind
  | .cb4 => .cb4 | .i8 => .i8 | _ => .float

/-- The elements of a row and its scale; code and S are those of the row (R203). -/
def wfmtDecode (f : WFmt) (bs : List Byte) (s e : Nat) : List Int × Nat :=
  let w (n i : Nat) : Nat := ofLe ((bs.drop (n * i)).take n)
  let ks := List.range 64
  match f with
  | .cb4 => (ks.map fun k => cb4Level (w 1 (k / 2) / 16 ^ (k % 2) % 16), rowScale .cb4 s e)
  | .i8 => (ks.map fun k => sgn 8 (w 1 k), rowScale .i8 s e)
  | .f8e4 => let b := toBfx12 (ks.map fun k => unpackF .f8e4 false (w 1 k)); (b.2, pow2F b.1 137)
  | .f8e5 => let b := toBfx12 (ks.map fun k => unpackF .f8e5 false (w 1 k)); (b.2, pow2F b.1 137)
  | .bf16 => let b := toBfx12 (ks.map fun k => unpackF .bf16 false (w 2 k)); (b.2, pow2F b.1 137)

/-- A table from a list, without the entries that hold the default. -/
def tblOf {α : Type} [DecidableEq α] (d : α) (xs : List α) : Tbl α :=
  ((List.range xs.length).zip xs).filter fun e => e.2 != d

/-! The block's array. -/

def Block.tile (b : Block) (n : Nat) : Tile := b.tiles.get Tile.zero n
def Block.acc (b : Block) (n : Nat) : Acc := b.accs.get Acc.zero n
/-- The accumulator as the last MMA issued leaves it (R199). -/
def Block.accNext (b : Block) (n : Nat) : Acc :=
  match (b.mma.filter fun m => m.z == n).getLast? with | some m => m.acc | none => b.acc n
/-- Whether an MMA's additions to an accumulator are still to be written (R213). -/
def Block.accBusy (b : Block) (n : Nat) : Bool := b.mma.any fun m => m.z == n
def Block.setAcc (b : Block) (n : Nat) (a : Acc) : Block := { b with accs := b.accs.set Acc.zero n a }
def Block.setTile (b : Block) (n : Nat) (t : Tile) : Block := { b with tiles := b.tiles.set Tile.zero n t }

/-- The block of a matrix stream. -/
def XR.blk (x : XR) (s : State) : Option Block := s.block? x.r.blk

/-- Lane m of word 0 of a register of team 0 (R204): 0 once that team has retired. -/
def State.team0 (s : State) (blk : Nat) (r : VReg) (m : Nat) : Nat :=
  match s.teams.find? fun t => t.2.blk == blk && t.2.num == 0 with
  | some t => (readV (s.core (t.1 / 16)) t.2 r m).toNat
  | none => 0

/-- Whether a tracked result is in flight to a register of team 0. -/
def State.team0Busy (s : State) (blk : Nat) (rs : List VReg) : Bool :=
  match s.teams.find? fun t => t.2.blk == blk && t.2.num == 0 with
  | some t => rs.any fun r => t.2.slice r.val 0 != 0 && s.slicePending (t.1 / 16) (t.2.slice r.val 0)
  | none => false

def mspace : MSpace → Space
  | .glob => .glob | .pack => .pack | .bcamp => .bcamp

/-! Memory of the matrix stream (R213, R218, R412). -/

/-- The 64 KiB pages that rows of n bytes lie in. -/
def rowPages (sp : Space) (n : Nat) (rows : List Nat) : List Nat := pagesIn sp (rows.flatMap fun a => pagesOf a n)

/-- The core asks for the translations of the rows of an access of the stream (R290, R294). -/
def State.rowsWalked (s : State) (w : Who) (sp : Space) (n : Nat) (rows : List Nat) : State :=
  s.tlbFills w.core w.ctx (rowPages sp n rows)

/-- What the rows of an access of the stream take: PROT, then ALIGN, then PAGE, each in its lowest row; it waits where every walker is
busy (R290). -/
def State.rowsTrap (s : State) (w : Who) (sp : Space) (n : Nat) (r wr : Bool) (rows : List Nat)
    (mis : Nat → Nat → Bool) : Option Res :=
  let fs := rows.map fun a => (a, (s.area w sp a n r wr).2)
  let t := s.rowsWalked w sp n rows
  if (rowPages sp n rows).any fun p => s.walkWaits w.core w.ctx p then some .hold
  else match fs.find? fun f => match f.2 with | some (_, false) => true | _ => false with
  | some f => some (.fatalIn t .prot (BitVec.ofNat 64 f.1))
  | none =>
    match ((List.range rows.length).zip rows).find? fun f => mis f.1 f.2 with
    | some f => some (.trapIn t .align (BitVec.ofNat 64 f.2))
    | none =>
      match fs.find? fun f => f.2.isSome with
      | some f => some (.trapIn t .page (BitVec.ofNat 64 f.1))
      | none => none

/-- A read of the stream within a line: through the L1 as a plain load for a global one (R213). -/
def State.streamPiece (s : State) (core key cls n : Nat) : State × List Byte :=
  if 2 ^ 56 ≤ key then (s, s.memRead key n)
  else match (s.core core).l1Hit [] key n with
    | some bs => (s, bs)
    | none =>
      let (s, bs, v) := s.homeLine key cls
      (s.modCore core fun c => c.fill (key / 128) bs v (s.busyWords core (key / 128)) s.seq,
        (bs.drop (key % 128)).take n)

/-- A read of the stream; none where its data carry an uncorrectable error. -/
def State.streamRead (s : State) (w : Who) (sp : Space) (a n : Nat) : State × Option (List Byte) :=
  let ps := (s.area w sp a n true false).1
  if s.badPieces ps then (s.noteBad ps, none)
  else
    let (s, bs) := ps.foldl (fun (q : State × List Byte) p =>
      let (s, bs) := (q.1.corrected p.1).streamPiece w.core p.1 p.2.1 p.2.2
      (s, q.2 ++ bs)) (s, [])
    (s, some bs)

/-- Reads of rows in order; none at the first uncorrectable error, with its address. -/
def State.streamRows (s : State) (w : Who) (sp : Space) (n : Nat) : List Nat → State × Except Nat (List (List Byte))
  | [] => (s, .ok [])
  | a :: rest =>
    match s.streamRead w sp a n with
    | (s, none) => (s, .error a)
    | (s, some bs) =>
      match s.streamRows w sp n rest with
      | (s, .ok bss) => (s, .ok (bs :: bss))
      | e => e

/-- Writes of a party to places, each after what number says (R175, R213). -/
def State.streamWrites (s : State) (w : Who) (sp : Space) (depth after grp : Nat) (ps : List (Spot × List Byte)) : State :=
  ps.foldl (fun s p =>
    s.startWrite w sp { mkAccess w .read p.1 0 grp with after := after, depth := depth } p.2) s

/-! PLANE (R201, R217). -/

/-- Element width and float type of a source (R215). -/
def psrcBits : PSrc → Nat
  | .f32 => 32 | .f16 | .bf16 => 16 | .f8e4 | .f8e5 | .i8 => 8 | .i4 => 4 | .i2 => 2 | .i1 => 1
def psrcFty : PSrc → Option FTy
  | .f32 => some .f32 | .f16 => some .f16 | .bf16 => some .bf16 | .f8e4 => some .f8e4 | .f8e5 => some .f8e5
  | _ => none

/-- Planes stored (R201). -/
def psrcWs (p : PSrc) : Nat := if (psrcFty p).isSome then 12 else (psrcBits p)

/-- The plane tile of R201 from the columns' exponent codes and mantissas (as 64-element lists). -/
def planeTile (ws : Nat) (integer : Bool) (cols : List (Nat × List Int)) : List Byte :=
  (cols.map fun c => BitVec.ofNat 8 c.1) ++ [BitVec.ofNat 8 (bit integer * 16 + ws)] ++ List.replicate 31 0 ++
  (List.range ws).flatMap fun q => (List.range 64).flatMap fun k =>
    toLe 4 (((List.range 32).zip cols).foldl (fun a c =>
      a + wrap ws (c.2.2.getD k 0) / 2 ^ (ws - 1 - q) % 2 * 2 ^ c.1) 0)

/-- The first byte and the number of bytes of column n of a source, and the bit its first element is at. -/
def planeCol (bits so ld n : Nat) : Nat × Nat × Nat :=
  let b := 8 * so + bits * n * ld
  (b / 8, (b + 64 * bits - 1) / 8 + 1 - b / 8, b % 8)

/-- A column as PLANE converts it (R217). -/
def psrcColumn (p : PSrc) (ecode : Nat) (bs : List Byte) (shift : Nat) : Nat × List Int :=
  let v := ofLe bs / 2 ^ shift
  let xs := (List.range 64).map fun k => v / 2 ^ ((psrcBits p) * k) % 2 ^ (psrcBits p)
  match (psrcFty p) with
  | some t => toBfx12 (xs.map fun x => unpackF t false x)
  | none => (ecode, xs.map fun x => sgn (psrcBits p) x)

/-- The effect of PLANE (R217): PROT before ALIGN (R412), and of what its source and its destination meet by one cause the source's
address first, which for a bad LD is the source offset (DESIGN CHOICE, log 51: R412 orders no parts within a cause); it waits for a
busy converter and for the party's own writes to what it reads. -/
def State.planeRun (s : State) (w : Who) (depth : Nat) (ordered : Bool) (relSeq : Nat) (so dst : Nat) (geo : W64)
    (p : PSrc) : Res :=
  let ld := fld geo.toNat 0 32
  let nv := fld geo.toNat 32 5 + 1
  let ecode := fld geo.toNat 40 8
  let cols := (List.range nv).map fun n => planeCol (psrcBits p) so ld n
  let size := 64 + 256 * (psrcWs p)
  match cols.find? fun c => w.pack < c.1 + c.2.1 with
  | some c => .fatal .prot (BitVec.ofNat 64 c.1)
  | none =>
    if w.pack < dst + size then .fatal .prot (BitVec.ofNat 64 dst)
    else if (if 8 ≤ (psrcBits p) then so * 8 % (psrcBits p) != 0 else ld * (psrcBits p) % 8 != 0) then .trap .align (BitVec.ofNat 64 so)
    else if dst % 64 != 0 then .trap .align (BitVec.ofNat 64 dst)
    else
      let own := s.accs.any fun a => a.uid == w.uid && !a.isRead && a.stage == 0 &&
        (ordered || cols.any fun c => a.key < packKey w.blk c.1 + c.2.1 && packKey w.blk c.1 < a.key + a.len)
      if (s.core w.core).planeBy.isSome || s.acquiring w.uid || own then .hold
      else
        let data := (List.range 32).map fun n =>
          match cols[n]? with
          | some c => psrcColumn p ecode (s.memRead (packKey w.blk c.1) c.2.1) c.2.2
          | none => (if (psrcFty p).isSome then 1 else ecode, [])
        let tile := planeTile (psrcWs p) (psrcFty p).isNone data
        let grp := s.seq
        let ps := (List.range (size / 8)).map fun k =>
          ((⟨0, packKey w.blk (dst + 8 * k), 0⟩ : Spot), (tile.drop (8 * k)).take 8)
        let s := s.modCore w.core fun c => { c with planeBy := some w.uid }
        .done (s.tickSeq.streamWrites w .pack depth (if ordered then grp else relSeq) grp ps)

/-- PLANE (R217): a leader's writes are the team's plain stores and kill its load entries (R214). -/
def execPlane (h : Hdr) (c sa sb : SReg) (src : PSrc) (s : State) : Host.Outcome State Fault Refusal :=
  runBoth (.plane h c sa sb src) h (fun _ _ _ => { leader := true }) noNeedM s
    (fun x s =>
      if x.adm = 0 then .done s
      else
        let r (k : SReg) : Nat := fld (x.src.team.rs k).toNat 0 32
        match s.planeRun x.who x.team.depth false x.team.relSeq (r c) (r sa) (x.src.team.rs sb) src with
        | .done s => .done (s.killLoads x.c x.slot)
        | e => e)
    (fun x s =>
      if !x.adm then .done s
      else
        let r (k : SReg) : Nat := fld (x.src.rs k).toNat 0 32
        s.planeRun x.who x.r.depth true 0 (r c) (r sa) (x.src.rs sb) src)

/-! MLDA, MMA, MOUTL (R203, R218 to R220). -/

/-- The rows at an address and a stride. -/
def rowsAt (a stride n : Nat) : List Nat := (List.range n).map fun m => (a + m * stride) % 2 ^ 64

/-- The pair sC, sC+1. -/
def XR.pair (x : XR) (c : SReg) : Nat × Nat := ((x.src.rs c).toNat, (x.src.rs (sregAt c 1)).toNat)

/-- MLDA (R218). -/
def execMlda (h : Hdr) (a : Fin 8) (c : SReg) (sa sb : VReg) (bsel : Fin 4) (fmt : WFmt) (sp : MSpace) (s : State) :
    Host.Outcome State Fault Refusal :=
  runRidge (.mlda h a c sa sb bsel fmt sp) h noNeedM s fun x s =>
    let (addr, stride) := x.pair c
    let rows := rowsAt addr stride 32
    if !x.adm then .done s
    else match s.rowsTrap x.who (mspace sp) (wfmtRow fmt) true false rows fun _ r => r % 32 != 0 with
    | some r => r
    | none =>
      if s.owes x.r.uid s.seq || s.team0Busy x.r.blk [sa, sb] then .hold
      else match (s.rowsWalked x.who (mspace sp) (wfmtRow fmt) rows).streamRows x.who (mspace sp) (wfmtRow fmt) rows with
      | (s, .error e) => .fatalIn s .ecc (BitVec.ofNat 64 e)
      | (s, .ok bss) =>
        let dec := ((List.range 32).zip bss).map fun r =>
          wfmtDecode fmt r.2 (s.team0 x.r.blk sb r.1) (fld (s.team0 x.r.blk sa r.1) (8 * bsel.val) 8)
        let t : Tile := ⟨tblOf 0 (dec.flatMap fun d => d.1), tblOf 0 (dec.map fun d => BitVec.ofNat 32 d.2), (wfmtKind fmt), true, true⟩
        .done (s.modBlock x.r.blk fun b => b.setTile a.val t)

/-- A plane tile as it lies in memory. -/
structure PTile where
  e    : List Nat
  int  : Bool
  ws   : Nat
  data : List Byte

/-- The planes of a legal FMT (R201). -/
def planesOf (fmt : Nat) : Option (Bool × Nat) :=
  match fmt with
  | 0x0C => some (false, 12) | 0x18 => some (true, 8) | 0x14 => some (true, 4) | 0x12 => some (true, 2)
  | 0x11 => some (true, 1) | _ => none

/-- The truncated mantissa of element (k, n) at p planes (R119). -/
def PTile.mant (t : PTile) (p k n : Nat) : Int :=
  (List.range p).foldl (fun a q =>
    let w : Int := if q = 0 then -(2 ^ (t.ws - 1) : Nat) else (2 ^ (t.ws - 1 - q) : Nat)
    if (le32 t.data (64 + 256 * q + 4 * k)).testBit n then a + w else a) 0

/-- The B scale of a column (R202). -/
def PTile.scaleB (t : PTile) (n : Nat) : Nat := pow2F (t.e.getD n 0) (if t.int then 127 else 137)

/-- An outlier's fields (R205). -/
def outT (e : W64) : Nat := fld e.toNat 11 3
def outM (e : W64) : Nat := fld e.toNat 6 5
def outK (e : W64) : Nat := fld e.toNat 0 6
def outW (e : W64) : Nat := fld e.toNat 32 32

/-- The bits of a rounded integer. -/
def ofIntF (v : Int) : Nat := (roundF .f32 Rnd.rne (decide (v < 0)) v.natAbs 0).bits

/-- One K-block added to element (m, n) (R134): z before, the row's elements and scale, the column's
mantissas, and the outliers of the row. -/
def accumulate (z : Nat) (row : List Int) (scaleA : Nat) (col : List Int) (scaleB : Nat) (outs : List W64) : Nat :=
  let acc := (row.zip col).foldl (fun a p => a + p.1 * p.2) 0
  let z := rAdd z (rMul (rMul (ofIntF acc) scaleA) scaleB)
  outs.foldl (fun z o => rAdd z (rMul (outW o) (rMul (ofIntF (col.getD (outK o) 0)) scaleB))) z

/-- One K-block of an MMA on an accumulator (R134, R206, R219). -/
def mmaBlock (z : Tbl W32) (tile : Tile) (scaleA : Nat → Nat) (t : PTile) (p : Nat) (outs : List W64) : Tbl W32 :=
  let cols := (List.range 32).map fun n => ((List.range 64).map fun k => t.mant p k n, t.scaleB n)
  tblOf 0 ((List.range 32).flatMap fun m =>
    let row := (List.range 64).map fun k => tile.el.get 0 (64 * m + k)
    let mine := outs.filter fun o => outM o == m
    ((List.range 32).zip cols).map fun c =>
      BitVec.ofNat 32 (accumulate (z.get 0 (32 * m + c.1)).toNat row (scaleA m) c.2.1 c.2.2 mine))

/-- MMA (R219). -/
def execMma (h : Hdr) (z a : Fin 8) (c : SReg) (sa sb : VReg) (planes : Fin 16) (bsel : Fin 4) (nkbm1 : Fin 8)
    (scl outl : Bool) (s : State) : Host.Outcome State Fault Refusal :=
  runRidge (.mma h z a c sa sb planes bsel nkbm1 scl outl) h (fun _ _ _ => { ill := 8 < a.val + nkbm1.val + 1 }) s
    fun x s =>
    match x.blk s with
    | none => .hold
    | some b =>
      let nkb := nkbm1.val + 1
      let v := (x.src.rs c).toNat
      let pack := x.r.hdr.packBytes
      let offs := (List.range nkb).map fun t => fld v 0 32 + t * fld v 32 32
      let tileAt (o : Nat) : Option (Bool × Nat) := planesOf (s.memGet (packKey x.r.blk (o + 0x20))).toNat
      let prot (o : Nat) : Bool := pack < o + 64 || match tileAt o with | some f => pack < o + 64 + 256 * f.2 | none => false
      if !x.adm then .done s
      else if s.owes x.r.uid s.seq || (scl && s.team0Busy x.r.blk [sa, sb]) then .hold
      else match offs.find? prot with
      | some o => .fatal .prot (BitVec.ofNat 64 o)
      | none =>
        if offs.any (fun o => (tileAt o).isNone) ||
            (scl && (List.range nkb).any fun t => (b.tile (a.val + t)).kind == .float) then .trap .illegalDesc 0
        else match offs.find? fun o => o % 64 != 0 with
        | some o => .trap .align (BitVec.ofNat 64 o)
        | none =>
          let old := b.accNext z.val
          let step (q : Tbl W32 × Nat) (t : Nat) : Tbl W32 × Nat :=
            let o := offs.getD t 0
            let f := (tileAt o).getD (false, 12)
            let data := s.memRead (packKey x.r.blk o) (64 + 256 * f.2)
            let pt : PTile := ⟨(data.take 32).map BitVec.toNat, f.1, f.2, data⟩
            let p := min planes.val f.2
            let tile := b.tile (a.val + t)
            let scaleA (m : Nat) : Nat :=
              if scl then rowScale tile.kind (s.team0 x.r.blk sb m) (fld (s.team0 x.r.blk sa m) (8 * ((bsel.val + t) % 4)) 8)
              else (tile.sc.get 0 m).toNat
            (mmaBlock q.1 tile scaleA pt p (if outl then b.outl.filter fun e => outT e == t else []), q.2 + p)
          let (el, steps) := (List.range nkb).foldl step (old.el, 0)
          let b := b.setAcc z.val { b.acc z.val with use := true, dirty := true }
          .done (s.setBlock x.r.blk { b with mma := b.mma ++ [⟨z.val, ⟨el, true, true⟩, steps⟩] })

/-- Whether outlier keys rise strictly (R205). -/
def keysRise : List W64 → Bool
  | a :: b :: t => fld a.toNat 0 14 < fld b.toNat 0 14 && keysRise (b :: t)
  | _ => true

/-- MOUTL (R220). -/
def execMoutl (h : Hdr) (c : SReg) (s : State) : Host.Outcome State Fault Refusal :=
  runRidge (.moutl h c) h noNeedM s fun x s =>
    let v := (x.src.rs c).toNat
    let off := fld v 0 32
    let n := fld v 32 9
    if !x.adm then .done s
    else if s.owes x.r.uid s.seq then .hold
    else if n != 0 && x.r.hdr.packBytes < off + 8 * n then .fatal .prot (BitVec.ofNat 64 off)
    else
      let l := (List.range n).map fun i => BitVec.ofNat 64 (ofLe (s.memRead (packKey x.r.blk (off + 8 * i)) 8))
      if 256 < n || !keysRise l || l.any fun e => fld e.toNat 14 18 != 0 then .trap .illegalDesc 0
      else if off % 8 != 0 then .trap .align (BitVec.ofNat 64 off)
      else .done (s.modBlock x.r.blk fun b => { b with outl := l })

/-! ZCLR, ZLD, ZST, ZMAP (R221 to R223). -/

/-- ZCLR (R221). -/
def execZclr (h : Hdr) (tile : Bool) (n : Fin 8) (s : State) : Host.Outcome State Fault Refusal :=
  runRidge (.zclr h tile n) h noNeedM s fun x s =>
    match x.blk s with
    | none => .hold
    | some b =>
      if !x.adm then .done s
      else if tile then .done (s.setBlock x.r.blk (b.setTile n.val Tile.zero))
      else if b.accBusy n.val then .hold
      else .done (s.setBlock x.r.blk (b.setAcc n.val Acc.zero))

/-- Whether a row's address or the stride is misaligned for elements of n bytes (R222). -/
def zMis (n stride m a : Nat) : Bool := a % n != 0 || m * stride % 4 != 0

/-- ZLD (R222). -/
def execZld (h : Hdr) (z : Fin 8) (c : SReg) (tr : Bool) (sp : MSpace) (s : State) : Host.Outcome State Fault Refusal :=
  runRidge (.zld h z c tr sp) h noNeedM s fun x s =>
    match x.blk s with
    | none => .hold
    | some b =>
      let (addr, stride) := x.pair c
      let rows := rowsAt addr stride 32
      if !x.adm then .done s
      else match s.rowsTrap x.who (mspace sp) 128 true false rows (zMis 4 stride) with
      | some r => r
      | none =>
        if b.accBusy z.val || s.owes x.r.uid s.seq then .hold
        else match (s.rowsWalked x.who (mspace sp) 128 rows).streamRows x.who (mspace sp) 128 rows with
        | (s, .error e) => .fatalIn s .ecc (BitVec.ofNat 64 e)
        | (s, .ok bss) =>
          let el := tblOf 0 ((List.range 1024).map fun e =>
            let m := e / 32
            let n := e % 32
            BitVec.ofNat 32 (le32 (bss.getD (if tr then n else m) []) (4 * (if tr then m else n))))
          .done (s.modBlock x.r.blk fun b => b.setAcc z.val ⟨el, true, true⟩)

def zfmtTy : ZFmt → FTy
  | .f32 => .f32 | .bf16 => .bf16 | .f16 => .f16 | .f8e4 => .f8e4

/-- ZST (R222). -/
def execZst (h : Hdr) (z : Fin 8) (free : Bool) (c : SReg) (fmt : ZFmt) (tr : Bool) (sp : MSpace) (s : State) :
    Host.Outcome State Fault Refusal :=
  runRidge (.zst h z free c fmt tr sp) h noNeedM s fun x s =>
    match x.blk s with
    | none => .hold
    | some b =>
      let (addr, stride) := x.pair c
      let n := (zfmtTy fmt).w / 8
      let rows := rowsAt addr stride 32
      if !x.adm then .done s
      else match s.rowsTrap x.who (mspace sp) (32 * n) false true rows (zMis n stride) with
      | some r => r
      | none =>
        if b.accBusy z.val then .hold
        else
          let acc := b.acc z.val
          let el (i j : Nat) : Nat := (acc.el.get 0 (if tr then 32 * j + i else 32 * i + j)).toNat
          let ps := ((List.range 32).zip rows).flatMap fun r => (List.range 32).filterMap fun j =>
            let a := (r.2 + j * n) % 2 ^ 64
            match s.byteAt x.who (mspace sp) 0 a false true with
            | .ok k cls => some ((⟨a, k, cls⟩ : Spot),
                toLe n (packF (zfmtTy fmt) Rnd.rne (unpackF .f32 false (el r.1 j))).bits)
            | _ => none
          let grp := s.seq
          let s := s.rowsWalked x.who (mspace sp) (32 * n) rows
          let s := s.tickSeq.streamWrites x.who (mspace sp) x.r.depth grp grp ps
          .done (if free then s.modBlock x.r.blk fun b => b.setAcc z.val { acc with use := false } else s)

/-- One element of ZMAP (R223). -/
def zmapEl (op : ZOp) (f z a : Nat) : Nat :=
  match op with
  | .mov => a
  | .add => rAdd z a
  | .scale => rMul a f
  | .relu => (minmaxF .f32 false true a 0).bits

/-- ZMAP (R223). -/
def execZmap (h : Hdr) (z a : Fin 8) (c : SReg) (op : ZOp) (s : State) : Host.Outcome State Fault Refusal :=
  runRidge (.zmap h z a c op) h noNeedM s fun x s =>
    match x.blk s with
    | none => .hold
    | some b =>
      if !x.adm then .done s
      else if b.accBusy z.val || b.accBusy a.val then .hold
      else
        let f := fld (x.src.rs c).toNat 0 32
        let el := tblOf 0 ((List.range 1024).map fun e =>
          BitVec.ofNat 32 (zmapEl op f ((b.acc z.val).el.get 0 e).toNat ((b.acc a.val).el.get 0 e).toNat))
        .done (s.setBlock x.r.blk (b.setAcc z.val ⟨el, true, true⟩))

/-! Named barriers (R209 to R212, R224 to R226). -/

def Block.bar (b : Block) (n : Nat) : Bar := b.bars.get Bar.zero n
def Block.setBar (b : Block) (n : Nat) (x : Bar) : Block := { b with bars := b.bars.put n x }

/-- PHASE of a barrier of a block. -/
def State.phase (s : State) (blk b : Nat) : Bool := match s.block? blk with | some x => (x.bar b).phase | none => false

/-- A barrier number at or above NB traps ILLEGAL (R209). -/
def barNeed (b : Nat) (_ : State) (_ : Nat) (t : Team) : Need := { ill := t.hdr.nb ≤ b }
def barNeedM (b : Nat) (_ : State) (_ : Nat) (r : Ridge) : Need := { ill := r.hdr.nb ≤ b }

/-- BINIT on a block (R224). The arrivals and posts that the barrier has counted so far in the running cycle, and not yet taken up
under R211, are dropped with the rest (DESIGN CHOICE, log 49: R224 does not order them within the cycle). -/
def State.binit (s : State) (blk b : Nat) (v : W64) : Res :=
  if v.toNat = 0 || 2 ^ 12 ≤ v.toNat then .trap .illegalDesc 0
  else .done (s.modBlock blk fun x => x.setBar b ⟨BitVec.ofNat 12 v.toNat, 0, 0, false, 0, 0, false⟩)

/-- BINIT (R224). -/
def execBinit (h : Hdr) (a : SReg) (b : Fin 128) (s : State) : Host.Outcome State Fault Refusal :=
  runBoth (.binit h a b) h (barNeed b.val) (barNeedM b.val) s
    (fun x s => if x.adm = 0 then .done s else s.binit x.team.blk b.val (x.src.team.rs a))
    (fun x s => if !x.adm then .done s else s.binit x.r.blk b.val (x.src.rs a))

/-- An arrival that will count once the party's earlier accesses are acknowledged (R210). -/
def State.arrive (s : State) (blk b uid : Nat) (dst : Option Nat) (sync : Bool) : State :=
  (s.modBlock blk fun x => { x with arr := x.arr ++ [⟨uid, b, dst, s.seq, sync⟩] }).tickSeq

/-- BARR (R225). -/
def execBarr (h : Hdr) (d : SReg) (b : Fin 128) (s : State) : Host.Outcome State Fault Refusal :=
  runBoth (.barr h d b) h (barNeed b.val) (barNeedM b.val) s
    (fun x s => if x.adm = 0 then .done s
      else .done ((s.arrive x.team.blk b.val x.team.uid (some d.val) false).killLoads x.c x.slot))
    (fun x s => if !x.adm then .done s else .done (s.arrive x.r.blk b.val x.r.uid (some d.val) false))

/-- BWAIT (R225): it ends as an acquire once PHASE differs from the parity (R212). -/
def execBwait (h : Hdr) (a : SReg) (b : Fin 128) (s : State) : Host.Outcome State Fault Refusal :=
  runBoth (.bwait h a b) h (barNeed b.val) (barNeedM b.val) s
    (fun x s =>
      if x.adm = 0 then .done s
      else if s.phase x.team.blk b.val != (x.src.team.rs a).getLsbD 0 then .done (s.acquired x.c x.team.uid)
      else .wait s)
    (fun x s =>
      if !x.adm then .done s
      else if s.phase x.r.blk b.val != (x.src.rs a).getLsbD 0 then .done (s.acquired x.c x.r.uid)
      else .wait s)

/-- Whether a party's arrival has yet to count. -/
def State.arriving (s : State) (blk uid : Nat) : Bool :=
  match s.block? blk with | some b => b.arr.any fun a => a.uid == uid && a.sync | none => false

/-- A BSYNC: it arrives, and once that has counted waits on the parity of the arrival (R225). -/
def State.bsync (s : State) (blk b uid core : Nat) (w : Option Wait) : Res :=
  match w with
  | some (.barrier _ parity _ _) => if s.phase blk b != parity then .done (s.acquired core uid) else .hold
  | _ => if s.arriving blk uid then .hold else .wait (s.arrive blk b uid none true)

/-- BSYNC (R225). -/
def execBsync (h : Hdr) (b : Fin 128) (s : State) : Host.Outcome State Fault Refusal :=
  runBoth (.bsync h b) h (barNeed b.val) (barNeedM b.val) s
    (fun x s => if x.adm = 0 then .done s else s.bsync x.team.blk b.val x.team.uid x.c x.team.wait)
    (fun x s => if !x.adm then .done s else s.bsync x.r.blk b.val x.r.uid x.c x.r.wait)

/-- BEXP on a block (R226). Within a cycle a team's post is made before the stream's: once the stream has posted to a barrier, a
team's BEXP to it issues in the next cycle. -/
def State.bexp (s : State) (blk b : Nat) (stream : Bool) (v : W64) : Res :=
  match s.block? blk with
  | none => .hold
  | some x =>
    let q := x.bar b
    let n := fld v.toNat 0 24
    if !stream && q.late then .hold
    else if 2 ^ 24 ≤ q.post.toNat + q.posts + n then .trap .illegalDesc 0
    else .done (s.setBlock blk (x.setBar b { q with posts := q.posts + n, late := stream }))

/-- BEXP (R226). -/
def execBexp (h : Hdr) (a : SReg) (b : Fin 128) (s : State) : Host.Outcome State Fault Refusal :=
  runBoth (.bexp h a b) h (barNeed b.val) (barNeedM b.val) s
    (fun x s => if x.adm = 0 then .done s else s.bexp x.team.blk b.val false (x.src.team.rs a))
    (fun x s => if !x.adm then .done s else s.bexp x.r.blk b.val true (x.src.rs a))

/-! Events of the array and the barriers. -/

/-- PLANE_CONVERTER_DONE (R217). -/
def execPlaneConverterDone (core : Nat) (s : State) : Host.Outcome State Fault Refusal :=
  .next (s.modCore core fun c => { c with planeBy := none })

/-- MMA_ACCUMULATOR_WRITE (R199, R229): the oldest MMA's additions are written. -/
def execMmaAccumulatorWrite (core : Nat) (s : State) : Host.Outcome State Fault Refusal :=
  .next (match s.ridge? core with
    | none => s
    | some r =>
      match s.block? r.blk with
      | none => s
      | some b =>
        match b.mma with
        | [] => s
        | m :: rest =>
          ((s.setBlock r.blk { b.setAcc m.z m.acc with mma := rest }).bump .planecyc core m.steps).bump .mmacnt core 1)

/-- The arrivals of a core's blocks that have yet to count. -/
def State.arrivals (s : State) (core : Nat) : List (Nat × Arrival) :=
  s.blocks.flatMap fun b => if b.2.core == core then b.2.arr.map fun a => (b.1, a) else []

/-- Whether what an arrival waits for is done (R210, R244): a team's writes and atomics; every access and
the ATTN of a stream. -/
def State.arrivalDue (s : State) (a : Arrival) : Bool :=
  let team := (s.teamOf a.uid).isSome
  let attn := match s.ridgeOf a.uid with
    | some (_, r) => (match s.block? r.blk with | some b => b.attn.isSome | none => false)
    | none => false
  !attn && !(s.accs.any fun q => q.uid == a.uid && q.id < a.seq && (!team || !q.isRead))

/-- A party waits on the parity of its counted arrival. -/
def State.syncWait (s : State) (uid : Nat) (parity : Bool) : State :=
  match s.teamOf uid with
  | some (q, t) =>
    (match t.wait with
     | some (.instr i n next) => { s with teams := s.teams.put q { t with wait := some (.barrier i parity n next) } }
     | _ => s)
  | none =>
    match s.ridgeOf uid with
    | some (q, r) =>
      (match r.wait with
       | some (.instr i n next) => { s with ridges := s.ridges.put q { r with wait := some (.barrier i parity n next) } }
       | _ => s)
    | none => s

/-- BARRIER_ARRIVAL (R210, R225): arrival k of a core counts in this cycle. -/
def execBarrierArrival (core k : Nat) (s : State) : Host.Outcome State Fault Refusal :=
  .next (match (s.arrivals core)[k]? with
    | none => s
    | some (blk, a) =>
      if !s.arrivalDue a then s
      else
        let phase := s.phase blk a.bar
        let s := s.modBlock blk fun b =>
          { b.setBar a.bar { b.bar a.bar with now := (b.bar a.bar).now + 1 } with arr := b.arr.filter fun q => q != a }
        if a.sync then s.syncWait a.uid phase
        else match a.dst with
          | some d => s.deliverTo core a.uid 0 (.scalar d) 0 8 false (bit phase)
          | none => s)

/-- What a barrier does at the end of a cycle (R211). -/
def Bar.cycle (x : Bar) : Bar :=
  let arr := x.arr.toNat + x.now
  let need := x.exp.toNat + x.post.toNat
  if need ≤ arr then
    { x with arr := BitVec.ofNat 24 (arr - need), post := BitVec.ofNat 24 x.posts, phase := !x.phase, now := 0, posts := 0,
             late := false }
  else { x with arr := BitVec.ofNat 24 arr, post := BitVec.ofNat 24 (x.post.toNat + x.posts), now := 0, posts := 0, late := false }

/-- BARRIER_CYCLE (R211): the end of a cycle at the barriers of a core. -/
def execBarrierCycle (core : Nat) (s : State) : Host.Outcome State Fault Refusal :=
  .next { s with blocks := s.blocks.map fun b =>
    if b.2.core == core then (b.1, { b.2 with bars := b.2.bars.map fun x => (x.1, x.2.cycle) }) else b }

end Sys2Proof.Machine
end

