-- ==== Sys2Proof/Machine/Kv.lean ====
section
/-! DEFINITION. KV pools and sequences (R230 to R235), KVAPP (R238), ATTN (R239 to R244), and the Strike
engine (R245 to R249, R413). -/

namespace Sys2Proof.Machine

/-! Records in memory (R230, R231, R234). -/

/-- A pool record as it reads. -/
structure KvPool where
  pages  : Nat
  metad  : Nat
  ring   : Nat
  npages : Nat
  hd     : Nat
  fmt    : FTy
  take   : Nat
  give   : Nat
  claim  : Nat
deriving DecidableEq, Repr

/-- Bytes of an element. -/
def KvPool.e (p : KvPool) : Nat := p.fmt.w / 8
/-- Bytes of a row. -/
def KvPool.row (p : KvPool) : Nat := p.hd * p.e
/-- Page size. -/
def KvPool.size (p : KvPool) : Nat := 128 * p.row
/-- Address of a page, and of its metadata. -/
def KvPool.page (p : KvPool) (g : Nat) : Nat := p.pages + g * p.size
def KvPool.metaOf (p : KvPool) (g : Nat) : Nat := p.metad + 512 * g
/-- Address of a word of the free ring. -/
def KvPool.slot (p : KvPool) (t : Nat) : Nat := p.ring + 4 * (t % p.npages)
/-- Free pages (R233). -/
def KvPool.free (p : KvPool) : Nat := (p.give + 2 ^ 64 - p.take) % 2 ^ 64

/-- A well-formed pool record (R230). -/
def poolOf (b : List Byte) : Option KvPool :=
  let w (i : Nat) : Nat := le64 b (8 * i)
  let hd := fld (w 3) 32 2
  let p : KvPool := ⟨w 0, w 1, w 2, fld (w 3) 0 32, 64 * 2 ^ hd, if fld (w 3) 34 1 = 1 then .f8e4 else .bf16, w 4, w 5, w 6⟩
  if (List.range 3).any (fun i => fld (w i) 57 7 != 0) || fld (w 3) 35 29 != 0 || hd = 3 || w 7 != 0 ||
      p.npages = 0 || 2 ^ 24 < p.npages || p.pages % p.size != 0 || p.metad % 512 != 0 || p.ring % 4 != 0 then none
  else some p

/-- A sequence-table entry as it reads. -/
structure KvEntry where
  len  : List Nat
  word : Nat
  list : List Nat
  pool : Nat
  cap  : Nat
  next : Nat
deriving DecidableEq, Repr

def KvEntry.gen (e : KvEntry) : Nat := fld e.word 32 1
def KvEntry.lenOf (e : KvEntry) (g : Nat) : Nat := e.len.getD g 0
def KvEntry.listOf (e : KvEntry) (g j : Nat) : Nat := e.list.getD g 0 + 4 * j
/-- Pages of n tokens. -/
def kvPages (n : Nat) : Nat := cdiv n 64

/-- A well-formed entry (R234). -/
def entryOf (b : List Byte) : Option KvEntry :=
  let w (i : Nat) : Nat := le64 b (8 * i)
  let e : KvEntry := ⟨[le32 b 0, le32 b 4], w 1, [w 2, w 3], w 4, fld (w 5) 32 16, fld (w 5) 0 32⟩
  if fld (w 1) 35 29 != 0 || fld (w 2) 57 7 != 0 || fld (w 3) 57 7 != 0 || fld (w 4) 57 7 != 0 ||
      fld (w 5) 48 16 != 0 || w 6 != 0 || w 7 != 0 || e.cap = 0 || w 2 % 64 != 0 || w 3 % 64 != 0 || w 4 % 64 != 0 ||
      e.len.any fun n => 64 * e.cap < n then none
  else some e

/-- Whether a claim succeeds: BUSY and APP are 0 (R235). -/
def claimable (word : Nat) : Bool := fld word 33 2 == 0

/-! Reaching memory. -/

/-- The code of what keeps an area from being reached, with its address. -/
def State.areaFail (s : State) (w : Who) (sp : Space) (a n : Nat) (r wr : Bool) : Option (Nat × Nat) :=
  match (s.area w sp a n r wr).2 with
  | some (f, true) => some (codePage, f)
  | some (f, false) => some (s.protCode w sp f, f)
  | none => none

/-- The first area, of (address, bytes, read, write) in global memory, that cannot be reached. -/
def State.firstFail (s : State) (w : Who) (xs : List (Nat × Nat × Bool × Bool)) : Option (Nat × Nat) :=
  xs.findSome? fun x => s.areaFail w .glob x.1 x.2.1 x.2.2.1 x.2.2.2

/-- Bytes of global memory that are reached. -/
def State.kvRead (s : State) (w : Who) (a n : Nat) : List Byte := s.getPieces (s.area w .glob a n true false).1
/-- Whether bytes of a space carry an uncorrectable error. -/
def State.kvBad (s : State) (w : Who) (sp : Space) (a n : Nat) : Bool := s.badPieces (s.area w sp a n true false).1

/-- The first of some areas of global memory whose data carry an uncorrectable error. -/
def State.kvEcc (s : State) (w : Who) (xs : List (Nat × Nat)) : Option (Nat × Nat) := xs.find? fun x => s.kvBad w .glob x.1 x.2

/-- Areas of global memory are read by a unit (R292, R394). -/
def State.kvReads (s : State) (w : Who) (xs : List (Nat × Nat)) : State :=
  xs.foldl (fun s x => s.readPieces (s.area w .glob x.1 x.2 true false).1) s

/-- How far an operation on a sequence has come: the pages of global memory it has asked for, and the areas it has read. -/
structure Looked where
  pages : List Nat
  reads : List (Nat × Nat)

/-- Areas are translated. -/
def Looked.asks (k : Looked) (as : List (Nat × Nat)) : Looked := { k with pages := k.pages ++ as.flatMap fun a => pagesOf a.1 a.2 }
/-- Areas that are translated are read. -/
def Looked.took (k : Looked) (as : List (Nat × Nat)) : Looked := { k with reads := k.reads ++ as }

/-- What that leaves of a unit's way: its walks and what its reads did at their homes. -/
def State.lookedAt (s : State) (stack : Nat) (w : Who) (k : Looked) : State := (s.kvReads w k.reads).unitWalks stack w .glob k.pages

/-- A write of bytes at an address of global memory, as a unit makes it. -/
def State.putOf (s : State) (w : Who) (x : Nat × List Byte) : Put := ⟨(s.area w .glob x.1 x.2.length false true).1, x.2⟩

/-- Whether such a write would have to wait for a spill ring (R317). -/
def State.kvHeld (s : State) (w : Who) (x : Nat × List Byte) : Bool := s.heldPieces (s.putOf w x).places x.2

/-- Status codes (R249). -/
def codeNofree : Nat := 0x40
def codeSeqfull : Nat := 0x41
def codePosfull : Nat := 0x42
def codeBadpol : Nat := 0x43
def codeNoop : Nat := 0x44
def codeBadseq : Nat := 0x45

/-! KVAPP (R238). -/

/-- KVAPP. -/
def execKvapp (h : Hdr) (a b c : SReg) (sp : MSpace) (s : State) : Host.Outcome State Fault Refusal :=
  runTeam (.kvapp h a b c sp) h (fun _ _ _ => { leader := true }) s fun x s =>
    let r (k : SReg) : Nat := (x.src.team.rs k).toNat
    let ring := x.src.team.rs c
    if x.adm = 0 then .done s
    else x.withRing s ring true true Ring.rsv none (misOf 64 (r a) <|> misOf 64 (r b) <|> misOf 64 (r (sregAt b 1))) fun q =>
      x.reserving s q fun s slot =>
        x.launchOp s (.kvapp (r a) (r b) (r (sregAt b 1)) sp 0) ring slot (some none) (some none) []

/-- ENTRY_CLAIM (R235): a KVAPP claims its entry, or reports that it cannot be reached, once it has a walker (R290); one that has
ended goes on reporting. -/
def State.claimFor (s : State) (o : Op) : State :=
  if !s.engineMay o then s
  else match o.kind, o.ended with
  | .kvapp .., some _ => s.opGo o.id 8
  | .kvapp entry krow vrow sp 0, none =>
    let st := stackOf o.who.core
    if s.unitWaits st o.who .glob [entry] then s
    else match s.unitWord o.who .glob (entry + 8) 8 true true with
    | none =>
      (match s.areaFail o.who .glob entry 64 true true with
       | some (code, fa) => (s.unitWalks st o.who .glob [entry]).conclude { o with kind := .kvapp entry krow vrow sp 3 } []
         ⟨copyUnit o.who.core 0, 0, 0, code, fa, 0⟩
       | none => s)
    | some (_, _, v) =>
      if !claimable v then s
      else match s.wordPut (o.unit s) o.who (entry + 8) fun v => v + 2 ^ 34 with
        | none => s
        | some s => (s.unitWalks st o.who .glob [entry]).setOp { o with kind := .kvapp entry krow vrow sp 1 }
  | _, _ => s

/-- What a KVAPP does with its claimed entry: a status with an address, or the count of a take, the writes, the raise of LEN that
follows them, and the bytes; with what it has looked at. -/
inductive KvRes where
  | fail (code fa : Nat) (k : Looked)
  | ok (take : List (Nat × List Byte)) (puts : List (Nat × List Byte)) (len : Nat × List Byte) (bytes : Nat) (k : Looked)

/-- The append of a token (R238): every check and translation precedes the writes; the pool and the page list are written only
where a page is taken. Which address is reported where several cannot be reached is a DESIGN CHOICE (log 51): the pool record, TAKE
or the page list, the slot of the free ring, the rows read, the rows and metadata written, in this order. -/
def State.append (s : State) (o : Op) (entry krow vrow : Nat) (sp : Space) : KvRes :=
  let w := o.who
  if s.kvBad w .glob entry 64 then .fail codeEcc entry ⟨[], []⟩
  else match entryOf (s.kvRead w entry 64) with
  | none => .fail codeBadseq 0 ⟨[], [(entry, 64)]⟩
  | some e =>
    let look : Looked := Looked.asks ⟨[], [(entry, 64)]⟩ [(e.pool, 64)]
    match s.areaFail w .glob e.pool 64 true false with
    | some (c, f) => .fail c f look
    | none =>
      if s.kvBad w .glob e.pool 64 then .fail codeEcc e.pool look
      else match poolOf (s.kvRead w e.pool 64) with
      | none => .fail codeBadseq 0 (look.took [(e.pool, 64)])
      | some p =>
        let look := look.took [(e.pool, 64)]
        let g := e.gen
        let k := e.lenOf g
        let r := k % 64
        let la := e.listOf g (k / 64)
        if k = 64 * e.cap then .fail codeSeqfull 0 look
        else if e.next = 2 ^ 32 - 1 then .fail codePosfull 0 look
        else
          let look := look.asks [(la, 4)]
          let listed := le32 (s.kvRead w la 4) 0
          let lf := if r = 0 then s.areaFail w .glob (e.pool + 0x20) 8 true true <|> s.areaFail w .glob la 4 false true
            else s.areaFail w .glob la 4 true false
          if r != 0 && lf.isNone && s.kvBad w .glob la 4 then .fail codeEcc la look
          else if r != 0 && lf.isNone && p.npages ≤ listed then .fail codeBadseq 0 (look.took [(la, 4)])
          else match lf with
          | some (c, f) => .fail c f look
          | none =>
            let src := [(krow, s.areaFail w sp krow p.row true false), (vrow, s.areaFail w sp vrow p.row true false)]
            let take := p.slot p.take
            let takes := r = 0 && p.free != 0
            let tf := if takes then s.areaFail w .glob take 4 true false else none
            let pg := if r != 0 then listed else le32 (s.kvRead w take 4) 0
            let dst := if (r = 0 && p.free = 0) || p.npages ≤ pg then []
              else [(p.page pg + r * p.row, p.row), (p.page pg + (64 + r) * p.row, p.row), (p.metaOf pg + 4 * r, 4),
                    (p.metaOf pg + 0x100 + 4 * r, 4)]
            let look := look.asks ((if takes then [(take, 4)] else []) ++
              (if sp == .glob then [(krow, p.row), (vrow, p.row)] else []) ++ dst)
            match tf <|> src.findSome? Prod.snd <|> s.firstFail w (dst.map fun d => (d.1, d.2, false, true)) with
            | some (c, f) => .fail c f look
            | none =>
              let look := look.took [if r = 0 then (take, 4) else (la, 4)]
              if r = 0 && p.free = 0 then .fail codeNofree 0 look
              else if r = 0 && s.kvBad w .glob take 4 then .fail codeEcc take look
              else if p.npages ≤ pg then .fail codeBadseq 0 look
              else match [krow, vrow].find? fun a => s.kvBad w sp a p.row with
              | some a => .fail codeEcc a look
              | none =>
                let rows := [krow, vrow].map fun a => s.getPieces (s.area w sp a p.row true false).1
                .ok (if r = 0 then [(e.pool + 0x20, toLe 8 (p.take + 1))] else [])
                  ((if r = 0 then [(la, toLe 4 pg)] else []) ++
                    List.zip (dst.map Prod.fst) (rows ++ [toLe 4 e.next, toLe 4 0]) ++ [(entry + 0x28, toLe 4 (e.next + 1))])
                  (entry + 4 * g, toLe 4 (k + 1)) (2 * p.row) look

/-- KVAPP_EXECUTE (R238): the copy engine appends the token, then raises LEN, clears APP and reports, each once what precedes it
is performed; it begins once it has its walkers (R290). -/
def State.runKvapp (s : State) (o : Op) (entry krow vrow : Nat) (sp : MSpace) : State :=
  let w := o.who
  let st := stackOf w.core
  let unit := copyUnit w.core 0
  let o' := { o with kind := .kvapp entry krow vrow sp 2 }
  match s.append o entry krow vrow (mspace sp) with
  | .fail c f k =>
    if s.unitWaits st w .glob k.pages then s
    else
      let s := if c = codeEcc then s.noteBad (s.area w (if f = krow || f = vrow then mspace sp else .glob) f 4 true false).1 else s
      (s.lookedAt st w k).conclude o' [] ⟨unit, 0, 0, c, f, 0⟩
  | .ok take puts len n k =>
    if s.unitWaits st w .glob k.pages || take.any (s.kvHeld w) then s
    else
      let s := [krow, vrow].foldl (fun s a => s.readPieces (s.area w (mspace sp) a (n / 2) true false).1) (s.lookedAt st w k)
      (s.putAll (o.unit s) (take.map (s.putOf w))).conclude o' [puts.map (s.putOf w), [s.putOf w len]] ⟨unit, 1, n, 0, 0, n⟩

/-- A KVAPP goes on: it appends to its claimed entry, or goes on reporting. -/
def State.kvappGo (s : State) (o : Op) : State :=
  if !s.engineRuns o then s else (match o.kind, o.ended with
    | .kvapp .., some _ => s.opGo o.id 8
    | .kvapp e k v sp 1, none => s.runKvapp o e k v sp
    | _, _ => s)

/-! Arithmetic of ATTN (R241 to R243). -/

def fmaxB (a b : Nat) : Nat := (minmaxF .f32 false true a b).bits
def exp2B (a : Nat) : Nat := (exp2F false a).bits
def isNanB (a : Nat) : Bool := isNanX (unpackF .f32 false a)
def negInf : Nat := 0xFF800000

/-- A quotient rounded once (R242). -/
def divB (a b : Nat) : Nat :=
  match unpackF .f32 false a, unpackF .f32 false b with
  | .nan _, _ => fmtNan .f32
  | _, .nan _ => fmtNan .f32
  | .inf _, .inf _ => fmtNan .f32
  | .inf n, y => fmtSign .f32 (n != signX y) + fmtInf .f32
  | x, .inf n => fmtSign .f32 (signX x != n)
  | .fin n m e, .fin k d f =>
    if d = 0 then (if m = 0 then fmtNan .f32 else fmtSign .f32 (n != k) + fmtInf .f32)
    else (quoF Rnd.rne (n != k) m d (e - f)).bits

/-- BFX12 blocks of 64 of a row of codes: exponent code and mantissas. -/
def bfxBlocks (t : FTy) (xs : List Nat) : List (Nat × List Int) :=
  (List.range (xs.length / 64)).map fun j => toBfx12 (((xs.drop (64 * j)).take 64).map (unpackF t false))

/-- A BFX12 mantissa truncated to p planes (R119). -/
def truncTo (p : Nat) (m : Int) : Int := m / (2 ^ (12 - p) : Nat) * (2 ^ (12 - p) : Nat)

/-- The elements of a row. -/
def rowElems (n : Nat) (bs : List Byte) : List Nat := (List.range (bs.length / n)).map fun i => ofLe ((bs.drop (n * i)).take n)

/-- What a score depends on besides the rows (R239, R241). -/
structure ScoreCfg where
  planes : Nat
  scale  : Nat
  slope  : Nat
  causal : Bool
  bias   : Bool

/-- The score of a query row and a token (R241). -/
def score (c : ScoreCfg) (q k : List (Nat × List Int)) (qpos pos : Nat) : Nat :=
  let p := min c.planes 12
  let raw := (q.zip k).foldl (fun z b =>
    accumulate z b.1.2 (pow2F b.1.1 137) (b.2.2.map (truncTo p)) (pow2F b.2.1 137) []) 0
  let s := rMul raw c.scale
  let s := if c.bias then rAdd s (rMul c.slope (ofIntF ((pos : Int) - qpos))) else s
  if c.causal && decide (qpos < pos) then negInf else s

/-- The V columns of a page as BFX12 blocks; tokens beyond the sequence count as zero (R242). -/
def vColumns (t : FTy) (hd : Nat) (rows : List (List Nat)) : List (Nat × List Int) :=
  (List.range hd).map fun c => toBfx12 ((List.range 64).map fun k => unpackF t false ((rows.getD k []).getD c 0))

/-- Weights times V added into a row of outputs (R134, R242). -/
def addV (o : List Nat) (wts : List Nat) (cols : List (Nat × List Int)) : List Nat :=
  let w := toBfx12 ((List.range 64).map fun k => unpackF .f32 false (wts.getD k 0))
  (o.zip cols).map fun p => accumulate p.1 w.2 (pow2F w.1 137) p.2.2 (pow2F p.2.1 137) []

/-- State of a row in the online pass. -/
structure Online where
  m : Nat
  l : Nat
  o : List Nat

/-- One page of the online pass (R242). -/
def onlinePage (r : Online) (s : List Nat) (cols : List (Nat × List Int)) : Online :=
  let mp := (s.drop 1).foldl fmaxB (s.headD negInf)
  let mn := fmaxB r.m mp
  let a := if mn = negInf then one32 else exp2B (rSub r.m mn)
  let es := s.map fun x => if mn = negInf then 0 else exp2B (rSub x mn)
  ⟨mn, es.foldl rAdd (rMul r.l a), addV (r.o.map fun x => rMul x a) es cols⟩

/-- A row's outputs by the online pass over pages of (scores, V columns) (R242). -/
def onlineRow (hd : Nat) (pages : List (List Nat × List (Nat × List Int))) : List Nat :=
  let r := pages.foldl (fun r p => onlinePage r p.1 p.2) ⟨negInf, 0, List.replicate hd 0⟩
  let nan := pages.any fun p => p.1.any isNanB
  r.o.map fun x => if nan then fmtNan .f32 else if r.l = 0 then 0 else divB x r.l

/-- A row's probabilities and outputs by the two passes (R243). -/
def massRow (hd : Nat) (pages : List (List Nat × List (Nat × List Int))) : List (List Nat) × List Nat :=
  let all := pages.flatMap Prod.fst
  let m := (all.drop 1).foldl fmaxB (all.headD negInf)
  let l := if m = negInf then 0 else (all.map fun x => exp2B (rSub x m)).foldl rAdd 0
  let rl := (rcpF Rnd.rne l).bits
  let ps := pages.map fun p => p.1.map fun x => if l = 0 then 0 else rMul (exp2B (rSub x m)) rl
  (ps, (ps.zip pages).foldl (fun o p => addV o p.1 p.2.2) (List.replicate hd 0))

/-! ATTN (R239, R240, R244). -/

/-- What ATTN finds in memory. -/
structure AttnIn where
  entry  : Nat × Nat
  g      : Nat
  len    : Nat
  pool   : KvPool
  pages  : List Nat

/-- How the checks of ATTN end. -/
inductive AttnChk where
  | wait
  | trap (c : Cause) (v : Nat)
  | fatal (c : Cause) (v : Nat)
  | ok (a : AttnIn)

/-- What keeps ATTN from an address: PROT and ECC are unrecoverable, PAGE is a trap. -/
def AttnChk.stop (f : Nat × Nat) : AttnChk :=
  if f.1 = codeProt then .fatal .prot f.2 else if f.1 = codeEcc then .fatal .ecc f.2 else .trap .page f.2

/-- The checks of ATTN after those of its operands (R240), and the pages it has asked for: lowest failing addresses, what is
unrecoverable before PAGE. That query rows outside the pack come last, with the query offset as the address, is a DESIGN CHOICE
(log 51). -/
def State.attnCheck (s : State) (w : Who) (ea qoff nr z : Nat) (mass : Bool) : AttnChk × List Nat :=
  let k : Looked := Looked.asks ⟨[], []⟩ [(ea, 64)]
  match s.areaFail w .glob ea 64 true true with
  | some f => (.stop f, k.pages)
  | none =>
    if s.kvBad w .glob ea 64 then (.fatal .ecc ea, k.pages)
    else
    let word := le64 (s.kvRead w ea 64) 8
    if fld word (16 * fld word 32 1) 16 = 0xFFFF then (.wait, k.pages)
    else match entryOf (s.kvRead w ea 64) with
    | none => (.trap .illegalDesc 0, k.pages)
    | some e =>
      let g := e.gen
      let len := e.lenOf g
      let k := k.asks [(e.pool, 64)]
      match s.areaFail w .glob e.pool 64 true false with
      | some f => (.stop f, k.pages)
      | none =>
        if s.kvBad w .glob e.pool 64 then (.fatal .ecc e.pool, k.pages)
        else match poolOf (s.kvRead w e.pool 64) with
        | none => (.trap .illegalDesc 0, k.pages)
        | some p =>
          let lists := (List.range (kvPages len)).map fun j =>
            (e.listOf g j, s.areaFail w .glob (e.listOf g j) 4 true false)
          let k := k.asks (lists.map fun l => (l.1, 4))
          let read := lists.filter fun l => l.2.isNone
          let pages := lists.map fun l => if l.2.isNone then some (le32 (s.kvRead w l.1 4) 0) else none
          match s.kvEcc w (read.map fun l => (l.1, 4)) with
          | some x => (.fatal .ecc x.1, k.pages)
          | none =>
          if 8 < z + p.hd / 32 || pages.any (fun q => match q with | some n => decide (p.npages ≤ n) | none => false) then
            (.trap .illegalDesc 0, k.pages)
          else
            let k := k.asks (pages.flatMap fun q => match q with
              | some n => [(p.page n, p.size), (p.metaOf n, 512)]
              | none => [])
            let fails := (lists.filterMap Prod.snd) ++ pages.flatMap (fun q => match q with
              | some n => ([s.areaFail w .glob (p.page n) p.size true false,
                            s.areaFail w .glob (p.metaOf n) 512 true mass]).filterMap id
              | none => [])
            let low (c : Nat) : Option (Nat × Nat) := ((fails.filter fun f => f.1 == c).map Prod.snd).min?.map (c, ·)
            match low codeProt <|> low codeEcc <|> low codePage with
            | some f => (.stop f, k.pages)
            | none =>
              if w.pack < qoff + 2 * p.hd * nr then (.fatal .prot qoff, k.pages)
              else match s.spanAt w .glob 0 (ea + 8) 8 true true with
                | .ok key c => (.ok ⟨(key, c), g, len, p, pages.filterMap id⟩, k.pages)
                | _ => (.wait, k.pages)

/-- What ATTN reads, as (address, bytes): the entry, the pool, the page list, and the rows, positions and mass counters of the tokens
it attends; rows beyond the length are not read (R232). pos and mass say whether positions and counters are. -/
def AttnIn.reads (a : AttnIn) (ea pool list : Nat) (pos mass : Bool) : List (Nat × Nat) :=
  (ea, 64) :: (pool, 64) :: ((List.range a.pages.length).zip a.pages).flatMap fun q =>
    (list + 4 * q.1, 4) :: (List.range (min 64 (a.len - 64 * q.1))).flatMap fun k =>
      [(a.pool.page q.2 + k * a.pool.row, a.pool.row), (a.pool.page q.2 + (64 + k) * a.pool.row, a.pool.row)] ++
      (if pos then [(a.pool.metaOf q.2 + 4 * k, 4)] else []) ++ if mass then [(a.pool.metaOf q.2 + 0x100 + 4 * k, 4)] else []

/-- Outputs of the rows in use, and the mass additions of tokens in order (R241 to R243). -/
def State.attend (s : State) (w : Who) (a : AttnIn) (qoff nr qpos : Nat) (c : ScoreCfg) (mass rowinc : Bool) :
    List (List Nat) × List Nat :=
  let p := a.pool
  let toks (j : Nat) : List Nat := List.range (min 64 (a.len - 64 * j))
  let data := ((List.range a.pages.length).zip a.pages).map fun q =>
    let row (half k : Nat) : List Nat := rowElems p.e (s.kvRead w (p.page q.2 + (64 * half + k) * p.row) p.row)
    let ks := (toks q.1).map fun k => (bfxBlocks p.fmt (row 0 k), le32 (s.kvRead w (p.metaOf q.2 + 4 * k) 4) 0)
    (ks, vColumns p.fmt p.hd ((toks q.1).map (row 1)))
  let rows := (List.range nr).map fun i =>
    let q := bfxBlocks .bf16 (rowElems 2 (s.memRead (packKey w.blk (qoff + 2 * p.hd * i)) (2 * p.hd)))
    let qp := if rowinc then (qpos + i) % 2 ^ 32 else qpos
    data.map fun d => (d.1.map fun k => score c q k.1 qp k.2, d.2)
  if mass then
    let rs := rows.map (massRow p.hd)
    let probs := rs.map fun r => r.1.flatMap id
    (rs.map Prod.snd, (List.range a.len).map fun t => probs.foldl (fun x r => rAdd x (r.getD t 0)) 0)
  else (rows.map (onlineRow p.hd), [])

/-- Places of the mass counters of tokens with an addition other than +0 (R243). -/
def State.massAdds (s : State) (w : Who) (a : AttnIn) (cs : List Nat) : List (Nat × Nat × W32) :=
  ((List.range cs.length).zip cs).filterMap fun c =>
    if c.2 = 0 then none
    else match s.spanAt w .glob 0 (a.pool.metaOf (a.pages.getD (c.1 / 64) 0) + 0x100 + 4 * (c.1 % 64)) 4 true true with
      | .ok k cls => some (k, cls, BitVec.ofNat 32 c.2)
      | _ => none

/-- The outputs in the accumulators (R244). -/
def Block.putOut (b : Block) (z hd : Nat) (out : List (List Nat)) : Block :=
  (List.range (hd / 32)).foldl (fun b j =>
    b.setAcc (z + j) ⟨tblOf 0 ((List.range 1024).map fun e =>
      BitVec.ofNat 32 ((out.getD (e / 32) []).getD (32 * j + e % 32) 0)), true, true⟩) b

/-- ATTN (R239 to R244). -/
def execAttn (h : Hdr) (z : Fin 8) (c : SReg) (planes : Fin 16) (mass causal bias rowinc : Bool) (s : State) :
    Host.Outcome State Fault Refusal :=
  runRidge (.attn h z c planes mass causal bias rowinc) h noNeedM s fun x s =>
    let q (k : Nat) : Nat := (x.src.rs (sregAt c k)).toNat
    let w := x.who
    let nr := fld (q 1) 32 5 + 1
    let qoff := fld (q 1) 0 32
    if !x.adm then .done s
    else if q 0 % 64 != 0 then .trap .align (BitVec.ofNat 64 (q 0))
    else if qoff % 64 != 0 then .trap .align (BitVec.ofNat 64 qoff)
    else if fld (q 1) 37 27 != 0 || fld (q 3) 32 32 != 0 then .trap .illegalDesc 0
    else match x.blk s with
    | none => .hold
    | some b =>
      let chk := s.attnCheck w (q 0) qoff nr z.val mass
      if s.owes x.r.uid s.seq || b.attn.isSome || chk.2.any (s.walkWaits w.core w.ctx) then .hold
      else match chk.1 with
      | .wait => .hold
      | .trap c v => .trapIn (s.tlbFills w.core w.ctx chk.2) c (BitVec.ofNat 64 v)
      | .fatal c v => .fatalIn (s.tlbFills w.core w.ctx chk.2) c (BitVec.ofNat 64 v)
      | .ok a =>
        let s := s.tlbFills w.core w.ctx chk.2
        let eb := s.kvRead w (q 0) 64
        let reads := a.reads (q 0) (fld (le64 eb 0x20) 0 57) (fld (le64 eb (0x10 + 8 * a.g)) 0 57) (causal || bias) mass
        match s.kvEcc w reads with
        | some e => .fatalIn (s.noteBad (s.area w .glob e.1 e.2 true false).1) .ecc (BitVec.ofNat 64 e.1)
        | none =>
          let k := a.entry.1
          let new := toLe 8 (ofLe (s.homeRead k 8) + 2 ^ (16 * a.g))
          if (List.range (a.pool.hd / 32)).any (fun j => b.accBusy (z.val + j)) || s.unitHeld k new then .hold
          else
            let (out, cs) := s.attend w a qoff nr (fld (q 3) 0 32)
              ⟨planes.val, fld (q 2) 0 32, fld (q 2) 32 32, causal, bias⟩ mass rowinc
            let adds := s.massAdds w a cs
            let s := (s.kvReads w reads).wordAt ⟨x.r.ctx, x.r.uid, x.r.depth, s.pkg⟩ k a.entry.2 (.add (2 ^ (16 * a.g)))
            let s := s.acquired x.c x.r.uid
            let s := (s.modBlock x.r.blk fun b =>
              { b.putOut z.val a.pool.hd out with attn := some ⟨s.seq, k, a.entry.2, a.g, adds, x.r.depth⟩ }).tickSeq
            let p := min planes.val 12
            .done (s.bump .planecyc x.c (a.pages.length * (a.pool.hd / 32) * (if mass then 2 * p + 12 else p + 12)))

/-- An addition to a mass counter at its home, as a RED.FADD (R190, R243). -/
def State.massAt (s : State) (u : Unit_) (x : Nat × Nat × W32) : State :=
  s.changeAt u (.atomic .fadd 0 false (x.2.2.zeroExtend 64) 0) x.1 x.2.1
    (toLe 4 (atomNew .fadd 0 false 32 (ofLe (s.homeRead x.1 4)) x.2.2.toNat 0))

/-- The reader count of an ATTN falls as it completes. -/
def AttnRun.fall (a : AttnRun) : WordOp := .add (2 ^ 64 - 2 ^ (16 * a.slot))

/-- ATTN_COMPLETE (R243, R244): the mass additions are made at home; once they are acknowledged RC(g) falls as a release. -/
def execAttnComplete (core : Nat) (s : State) : Host.Outcome State Fault Refusal :=
  .next (match s.ridge? core with
    | none => s
    | some r =>
      match s.block? r.blk with
      | none => s
      | some b =>
        match b.attn with
        | none => s
        | some a =>
          let u : Unit_ := ⟨r.ctx, a.id, a.depth, s.pkg⟩
          let s := (a.adds.foldl (fun s x => s.massAt u x) s).modBlock r.blk fun b => { b with attn := some { a with adds := [] } }
          if s.outstanding a.id || s.unitHeld a.entry (toLe 8 (a.fall.on (ofLe (s.homeRead a.entry 8)))) then s
          else (s.wordAt u a.entry a.cls a.fall).modBlock r.blk fun b => { b with attn := none })

/-! KVEVT and the Strike engine (R245 to R248, R413). -/

/-- KVEVT (R246). -/
def execKvevt (h : Hdr) (a : SReg) (stack : Fin 4) (s : State) : Host.Outcome State Fault Refusal :=
  runTeam (.kvevt h a stack) h (fun _ _ _ => { leader := true }) s fun x s =>
    let v := (x.src.team.rs a).toNat
    if x.adm = 0 then .done s
    else if v % 64 != 0 then .trap .align (BitVec.ofNat 64 v)
    else if s.stacksN ≤ stack.val then .trap .qfault 0
    else x.push s (s.strikeRoom stack.val) fun s => s.strikePush stack.val x.who x.team.depth v

/-- A Strike command as it reads (R245). -/
structure Cmd where
  seq    : Nat
  ringA  : Nat
  budget : Nat
  sinks  : Nat
  recent : Nat
  thresh : Nat
  decay  : Nat
  bad    : Bool

def cmdOf (b : List Byte) : Cmd :=
  let w (i : Nat) : Nat := le64 b (8 * i)
  let c : Cmd := ⟨fld (w 0) 0 57, w 1, fld (w 2) 0 32, fld (w 2) 32 32, fld (w 3) 0 32, fld (w 4) 32 32, fld (w 4) 0 32, false⟩
  { c with bad := fld (w 0) 57 7 != 0 || w 0 % 64 != 0 || fld (w 3) 32 32 != 0 || w 5 != 0 || w 6 != 0 || w 7 != 0 ||
      c.budget = 0 || c.budget < c.sinks + c.recent || isNanB c.decay || isNanB c.thresh }

/-- The party a Strike command acts for. -/
def StrikeRun.who (r : StrikeRun) : Who := ⟨r.core, r.ctx, 0, r.uid, 0, 0⟩
def StrikeCmd.who (r : StrikeCmd) : Who := ⟨r.core, r.ctx, 0, r.uid, 0, 0⟩

def strikeUnit (stack : Nat) : Nat := 608 + stack

/-- A command as the party of its writes. -/
def StrikeRun.unit (r : StrikeRun) (s : State) : Unit_ := ⟨r.ctx, r.id, r.depth, s.pkg⟩

/-- A command is read once and taken, and its slot reserved (R247, R258), or it raises PROT where it cannot be read or
reported (R413). -/
def State.strikeTake (s : State) (stack : Nat) (q : StrikeCmd) : State :=
  let w := q.who
  let rest (s : State) : State := s.modStk stack fun k => { k with strikeQ := k.strikeQ.drop 1 }
  let bad (cause : Cause) (a : Nat) : State := (rest s).fatal (s.partOf stack) (strikeUnit stack) cause 0 0 (BitVec.ofNat 64 a)
  if !s.forked q.uid q.fork then s
  else if s.unitWaits stack w .glob [q.cmd] then s
  else match s.areaFail w .glob q.cmd 64 true false with
  | some (c, f) =>
    let s := s.unitWalks stack w .glob [q.cmd]
    (rest s).fatal (s.partOf stack) (strikeUnit stack) (if c = codeEcc then .ecc else .prot) 0 0 (BitVec.ofNat 64 (if c = codeEcc then f else q.cmd))
  | none =>
    if s.kvBad w .glob q.cmd 64 then bad .ecc q.cmd
    else
    let buf := s.kvRead w q.cmd 64
    let ring := BitVec.ofNat 64 (cmdOf buf).ringA
    match s.ringOf w ring true true Ring.rsv with
    | .ok r =>
      if r.sp != .glob || (s.area w .glob r.slots (16 * r.n) true true).2.isSome then bad .prot (fld (cmdOf buf).ringA 0 57)
      else if r.full || s.reserveHeld w r then s
      else
        let run : StrikeRun := ⟨s.seq, q.cmd, buf, q.uid, q.core, q.ctx, q.depth, ring, r.rsv, 0, [], 0, 0, 0, 0, [], 0, 0, 0⟩
        let s := rest (((s.kvReads w [(q.cmd, 64)]).reserve (run.unit s) w r).unitWalks stack w .glob [q.cmd])
        (s.modStk stack fun k => { k with strike := some run }).tickSeq
    | _ => bad .prot (fld (cmdOf buf).ringA 0 57)

/-- The end of a command, as it reports (R247). That RESUME of one that ends well is the number of tokens kept is a DESIGN CHOICE
(log 51). -/
def StrikeRun.ended (stack : Nat) (r : StrikeRun) : OpEnd :=
  ⟨strikeUnit stack, if r.code = 0 then r.kept else 0, 0, r.code, r.fa, if r.code = 0 then r.bytes else 0⟩

/-- A command reports and is over. -/
def State.strikeEnd (s : State) (stack : Nat) (r : StrikeRun) : State :=
  let s := s.report (r.unit s) r.who r.ring r.slot (r.ended stack)
  let s := s.modStk stack fun k => { k with strike := none }
  let s := if r.code = 0 then s.bump .stkEvict stack 1 else if r.code = codeNofree then s.bump .stkNofree stack 1 else s
  let part := s.partOf stack
  if r.code = codeProt then s.fatal part (strikeUnit stack) .prot 0 0 (BitVec.ofNat 64 r.fa)
  else if r.code = codeEcc then s.fatal part (strikeUnit stack) .ecc 0 0 (BitVec.ofNat 64 r.fa)
  else s

/-- Whether token u ranks before token t: higher mass, then lower position (R248). -/
def ranksBefore (pos mass : Nat → Nat) (u t : Nat) : Bool :=
  match cmpX (unpackF .f32 false (mass u)) (unpackF .f32 false (mass t)) with
  | .gt => true
  | .lt => false
  | .eq => pos u < pos t || (pos u == pos t && u < t)

/-- The tokens a command keeps (R248). -/
def selectTokens (c : Cmd) (len : Nat) (pos mass : Nat → Nat) : List Nat :=
  let ts := List.range len
  let sure (t : Nat) : Bool := t < c.sinks || len ≤ t + c.recent
  let kept := (ts.filter sure).length
  let cands := ts.filter fun t => !sure t && (cmpF .ge false (mass t) c.thresh).1
  ts.filter fun t => sure t ||
    (cands.contains t && (cands.filter fun u => ranksBefore pos mass u t).length + kept < c.budget)

/-- How the work of a claimed command ends: with a code, with fewer pages taken than it needs (the count of the takes, and the
pages), or with the count of the takes, the writes, the new length, and what was done. -/
inductive StrikeRes where
  | stop (code fa : Nat) (k : Looked)
  | short (take : List (Nat × List Byte)) (pages : List Nat) (k : Looked)
  | go (take puts : List (Nat × List Byte)) (newLen : Nat × List Byte) (gen len kept bytes : Nat) (k : Looked)

/-- Selection and compaction of a claimed entry (R247, R248). Rows beyond the length are not read (R232), and the pool is written only
where pages are taken. Which address is reported where several cannot be reached is a DESIGN CHOICE (log 51): the pool record, the
page list, the pages it names with their metadata, the pool's counts, the free ring and the new list, the pages taken, in this
order. -/
def State.strikeWork (s : State) (w : Who) (c : Cmd) : StrikeRes :=
  if s.kvBad w .glob c.seq 64 then .stop codeEcc c.seq ⟨[], []⟩
  else match entryOf (s.kvRead w c.seq 64) with
  | none => .stop codeBadseq 0 ⟨[], [(c.seq, 64)]⟩
  | some e =>
    let look : Looked := Looked.asks ⟨[], [(c.seq, 64)]⟩ [(e.pool, 64)]
    match s.areaFail w .glob e.pool 64 true false with
    | some (k, f) => .stop k f look
    | none =>
      if s.kvBad w .glob e.pool 64 then .stop codeEcc e.pool look
      else match poolOf (s.kvRead w e.pool 64) with
      | none => .stop codeBadseq 0 (look.took [(e.pool, 64)])
      | some p =>
        let g := e.gen
        let len := e.lenOf g
        let las := (List.range (kvPages len)).map fun j => e.listOf g j
        let look := (look.took [(e.pool, 64)]).asks (las.map (·, 4))
        match s.firstFail w (las.map fun a => (a, 4, true, false)) with
        | some (k, f) => .stop k f look
        | none =>
          let old := las.map fun a => le32 (s.kvRead w a 4) 0
          match s.kvEcc w (las.map (·, 4)) with
          | some x => .stop codeEcc x.1 look
          | none =>
          let look := look.took (las.map (·, 4))
          if old.any fun n => p.npages ≤ n then .stop codeBadseq 0 look
          else
          let look := look.asks (old.flatMap fun n => [(p.page n, p.size), (p.metaOf n, 512)])
          match s.firstFail w (old.flatMap fun n => [(p.page n, p.size, true, false), (p.metaOf n, 512, true, false)]) with
          | some (k, f) => .stop k f look
          | none =>
            let at_ (off t : Nat) : Nat := p.metaOf (old.getD (t / 64) 0) + off + 4 * (t % 64)
            let pos (t : Nat) : Nat := le32 (s.kvRead w (at_ 0 t) 4) 0
            let mass (t : Nat) : Nat := le32 (s.kvRead w (at_ 0x100 t) 4) 0
            let row (half t : Nat) : Nat := p.page (old.getD (t / 64) 0) + (64 * half + t % 64) * p.row
            let metas := (List.range len).flatMap fun t => [(at_ 0 t, 4), (at_ 0x100 t, 4)]
            match s.kvEcc w metas with
            | some x => .stop codeEcc x.1 look
            | none =>
            let look := look.took metas
            let keep := selectTokens c len pos mass
            let n := keep.length
            let np := kvPages n
            let rows := keep.flatMap fun t => [(row 0 t, p.row), (row 1 t, p.row)]
            if n = len then .stop codeNoop 0 look
            else match s.kvEcc w rows with
            | some x => .stop codeEcc x.1 look
            | none =>
              let got := min p.free np
              let takes := (List.range got).map fun i => p.slot (p.take + i)
              let gives := (List.range (max old.length got)).map fun i => p.slot (p.claim + i)
              let dst := (List.range np).map fun j => e.listOf (1 - g) j
              let look := look.asks ((takes ++ gives ++ dst).map (·, 4))
              match s.firstFail w ((e.pool + 0x20, 24, true, true) :: takes.map (fun a => (a, 4, true, false)) ++
                  (gives ++ dst).map fun a => (a, 4, false, true)) with
              | some (k, f) => .stop k f look
              | none =>
                let new := takes.map fun a => le32 (s.kvRead w a 4) 0
                match s.kvEcc w (takes.map (·, 4)) with
                | some x => .stop codeEcc x.1 look
                | none =>
                let look := look.took (takes.map (·, 4))
                if new.any fun m => p.npages ≤ m then .stop codeBadseq 0 look
                else
                let look := look.asks (new.flatMap fun m => [(p.page m, p.size), (p.metaOf m, 512)])
                match s.firstFail w (new.flatMap fun m => [(p.page m, p.size, false, true), (p.metaOf m, 512, false, true)]) with
                | some (k, f) => .stop k f look
                | none =>
                  let taken := if got = 0 then [] else [(e.pool + 0x20, toLe 8 (p.take + got))]
                  if got < np then .short taken new look
                  else
                    let moved := ((List.range n).zip keep).flatMap fun jt =>
                      let to_ (half : Nat) : Nat := p.page (new.getD (jt.1 / 64) 0) + (64 * half + jt.1 % 64) * p.row
                      let m := p.metaOf (new.getD (jt.1 / 64) 0) + 4 * (jt.1 % 64)
                      [(to_ 0, s.kvRead w (row 0 jt.2) p.row), (to_ 1, s.kvRead w (row 1 jt.2) p.row),
                       (m, toLe 4 (pos jt.2)), (m + 0x100, toLe 4 (rMul (mass jt.2) c.decay))]
                    let tail := if n % 64 = 0 then [] else
                      (List.range (64 - n % 64)).flatMap fun i =>
                        let m := p.metaOf (new.getD (n / 64) 0) + 4 * (n % 64 + i)
                        [(m, toLe 4 (2 ^ 32 - 1)), (m + 0x100, toLe 4 0)]
                    let lists := (dst.zip new).map fun d => (d.1, toLe 4 d.2)
                    .go taken (moved ++ tail ++ lists) (c.seq + 4 * (1 - g), toLe 4 n) g len n (n * 2 * p.row) (look.took rows)

/-- The pool record of a sequence entry at an address, and where it lies. -/
def State.poolAt (s : State) (w : Who) (seq : Nat) : Option (Nat × KvPool) :=
  let pa := fld (le64 (s.kvRead w seq 64) 0x20) 0 57
  (poolOf (s.kvRead w pa 64)).map (pa, ·)

/-- The word that a command changes next, in one step at its home, and how (R233, R235, R247): BUSY is set, GEN flipped, tickets are
taken, GIVE is raised, BUSY cleared. -/
def State.strikeWord (s : State) (r : StrikeRun) : Option (Nat × (Nat → Nat)) :=
  let seq := (cmdOf r.buf).seq
  let n := r.gives.length
  match r.phase with
  | 0 => some (seq + 8, fun v => v + 2 ^ 33)
  | 2 => some (seq + 8, fun v => v ^^^ 2 ^ 32)
  | 4 => (s.poolAt r.who seq).map fun p => (p.1 + 0x30, fun v => (v + n) % 2 ^ 64)
  | 5 => (s.poolAt r.who seq).map fun p => (p.1 + 0x28, fun _ => (r.ticket + n) % 2 ^ 64)
  | 6 => some (seq + 8, fun v => v - fld v 33 1 * 2 ^ 33)
  | _ => none

/-- A command makes that change and takes a new form, where it may. -/
def State.strikeChange (s : State) (stack : Nat) (r r' : StrikeRun) : Option State :=
  let set (s : State) : State := s.modStk stack fun k => { k with strike := some r' }
  match s.strikeWord r with
  | none => some (set s)
  | some (a, f) => (s.wordPut (r.unit s) r.who a f).map set

/-- What a command does once all it has written is performed (R247): none where it must wait, or has reported. -/
def State.strikeNext (s : State) (stack : Nat) (r : StrikeRun) : Option State :=
  let w := r.who
  let c := cmdOf r.buf
  let set (s : State) (r : StrikeRun) : State := s.modStk stack fun k => { k with strike := some r }
  match r.todo, r.phase with
  | b :: rest, _ => some (set (s.putAll (r.unit s) b) { r with todo := rest })
  | [], 0 =>
    if c.bad then some (set s { r with phase := 7, code := codeBadpol })
    else if s.unitWaits stack w .glob [c.seq] then none
    else match s.areaFail w .glob c.seq 64 true true with
    | some (k, f) => some (set (s.unitWalks stack w .glob [c.seq]) { r with phase := 7, code := k, fa := f })
    | none =>
      if claimable (le64 (s.kvRead w (c.seq + 8) 8) 0) then
        (s.strikeChange stack r { r with phase := 1 }).map fun s => s.unitWalks stack w .glob [c.seq]
      else none
  | [], 1 =>
    (match s.strikeWork w c with
     | .stop k f look =>
       if s.unitWaits stack w .glob look.pages then none
       else
         let s := if k = codeEcc then s.noteBad (s.area w .glob f 4 true false).1 else s
         some (set (s.lookedAt stack w look) { r with phase := 6, code := k, fa := f })
     | .short take pages look =>
       if s.unitWaits stack w .glob look.pages || take.any (s.kvHeld w) then none
       else
         let s := s.lookedAt stack w look
         some (set (s.putAll (r.unit s) (take.map (s.putOf w))) { r with phase := 4, code := codeNofree, gives := pages })
     | .go take puts newLen g len n bytes look =>
       if s.unitWaits stack w .glob look.pages || take.any (s.kvHeld w) then none
       else
         let s := s.lookedAt stack w look
         some (set (s.putAll (r.unit s) (take.map (s.putOf w)))
           { r with phase := 2, todo := [(puts ++ [newLen]).map (s.putOf w)], gen := g, len := len, kept := n, bytes := bytes }))
  | [], 2 => s.strikeChange stack r { r with phase := 3 }
  | [], 3 =>
    let b := s.kvRead w c.seq 64
    if fld (le64 b 8) (16 * r.gen) 16 != 0 then none
    else
      let list := fld (le64 b (16 + 8 * r.gen)) 0 57
      some (set s { r with phase := 4, gives := (List.range (kvPages r.len)).map fun j => le32 (s.kvRead w (list + 4 * j) 4) 0 })
  | [], 4 =>
    (match s.poolAt w c.seq with
     | none => some (set s { r with phase := 6 })
     | some (_, p) =>
       if r.gives.isEmpty then some (set s { r with phase := 6 })
       else
         let words := ((List.range r.gives.length).zip r.gives).map fun g => (p.slot (p.claim + g.1), toLe 4 g.2)
         s.strikeChange stack r { r with phase := 5, ticket := p.claim, todo := [words.map (s.putOf w)] })
  | [], 5 =>
    (match s.poolAt w c.seq with
     | none => some (set s { r with phase := 6 })
     | some (_, p) => if p.give != r.ticket then none else s.strikeChange stack r { r with phase := 6 })
  | [], 6 => s.strikeChange stack r { r with phase := 7 }
  | [], _ => if (s.statusHeld w r.ring r.slot (r.ended stack)).isEmpty then some (s.strikeEnd stack r) else none

/-- A command goes on for some steps; drain says whether it may go beyond the wait for its readers. -/
def State.strikeGo (s : State) (stack : Nat) (drain : Bool) : Nat → State
  | 0 => s
  | fuel + 1 =>
    match (s.stk stack).strike with
    | none => s
    | some r =>
      if s.outstanding r.id || (!drain && r.phase = 3) then s
      else match s.strikeNext stack r with
        | none => s
        | some s => s.strikeGo stack drain fuel

/-- The slices in which a command's next change has to wait (R317). -/
def State.strikeHolds (s : State) (r : StrikeRun) : List Nat :=
  if !r.todo.isEmpty || s.outstanding r.id then []
  else match s.strikeWord r with
  | none => []
  | some (a, f) => match s.unitWord r.who .glob a 8 true true with
    | some (k, _, v) => if s.unitHeld k (toLe 8 (f v)) then [s.sliceNo k] else []
    | none => []

/-- A Strike engine takes a command where none runs, and runs it up to the wait for its readers, or to its end (R247). -/
def State.strikeRun (s : State) (stack : Nat) : State :=
  if !s.unitsRun (s.partOf stack) then s else
  let s := match (s.stk stack).strike, (s.stk stack).strikeQ with
    | none, q :: _ => s.strikeTake stack q
    | _, _ => s
  s.strikeGo stack false 12

/-- A command whose new generation stands goes on: once RC(g) is zero the old pages are given, BUSY is cleared and it reports
(R247). -/
def State.strikeDrain (s : State) (stack : Nat) : State :=
  match (s.stk stack).strike with
  | some r => if 3 ≤ r.phase && s.unitsRun (s.partOf stack) then s.strikeGo stack true 12 else s
  | none => s

end Sys2Proof.Machine
end

