-- ==== Sys2Proof/Machine/WatchOps.lean ====
section
/-! DEFINITION. Setting and removing watches, and parking on them (R305 to R308, R314, R326 to R328). -/

namespace Sys2Proof.Machine

/-! Watch descriptors (R305). -/

/-- A watch from its descriptor, without its places; none where a field breaks R305 or R308. -/
def watchOf (b : List Byte) : Option Watch :=
  let w (i : Nat) : Nat := le64 b (8 * i)
  let c := w 2
  let g := 2 ^ (fld c 0 4 + 6)
  let park := fld c 8 1 == 1
  let x : Watch := ⟨w 0, w 1, fld c 32 16, fld c 16 8, park, fld c 4 4, fld c 0 4, w 3, [], []⟩
  if fld (w 0) 57 7 != 0 || fld c 48 16 != 0 || fld c 24 8 != 0 || fld c 9 7 != 0 || fld (w 3) 57 7 != 0 ||
      (List.range 4).any (fun i => w (4 + i) != 0) || 10 < x.glog || w 0 % g != 0 || w 1 = 0 || w 1 % g != 0 ||
      2 ^ 32 < w 1 / g || x.quota = 0 || 256 < x.quota || (park && x.pool != 0) || x.dlim = 0 || w 3 % 64 != 0 then none
  else some x

/-- Granules of a watch, and the bytes of its bitmap. -/
def Watch.count (w : Watch) : Nat := w.len / w.gran
def Watch.bitBytes (w : Watch) : Nat := cdiv w.count 8

/-- An area by pages of 64 KiB: (address, length). -/
def pageRuns (a n : Nat) : List (Nat × Nat) :=
  (List.range ((a + n + 65535) / 65536 - a / 65536)).map fun i =>
    let lo := max a ((a / 65536 + i) * 65536)
    (lo, min (a + n) ((a / 65536 + i + 1) * 65536) - lo)

/-- The places of an area's pages as (offset, length, physical address), and those that fail: their
address and whether they are unmapped. -/
def State.runsAt (s : State) (w : Who) (a n : Nat) (r wr : Bool) : List (Nat × Nat × Nat) × List (Nat × Bool) :=
  (pageRuns a n).foldl (fun q p =>
    match s.byteAt w .glob 0 p.1 r wr with
    | .ok k _ => (q.1 ++ [(p.1 - a, p.2, k)], q.2)
    | .unmapped => (q.1, q.2 ++ [(p.1, true)])
    | .prot => (q.1, q.2 ++ [(p.1, false)])) ([], [])

/-- Runs merged where they go on physically. -/
def mergeRuns : List (Nat × Nat × Nat) → List (Nat × Nat × Nat)
  | [] => []
  | (o, n, p) :: t =>
    match mergeRuns t with
    | (o', n', p') :: u => if o + n = o' && p + n = p' then (o, n + n', p) :: u else (o, n, p) :: (o', n', p') :: u
    | [] => [(o, n, p)]

/-- CAM entries in use in a slice; every slice holds the same (R307). -/
def State.camUsed (s : State) : Nat :=
  s.ctxs.foldl (fun a c => c.2.watches.foldl (fun a w => a + w.2.ext.length) a) 0

/-- How an attempt to set or remove a watch ends. -/
inductive WatchRes where
  | trap (r : Res)
  | status (s : State) (n : Nat)

/-- Sets watch n from the descriptor at an address (R326). -/
def State.setWatch (s : State) (w : Who) (addr n : Nat) : WatchRes :=
  if 255 < n then .trap (.trap .qfault 0)
  else if addr % 64 != 0 then .trap (.trap .align (BitVec.ofNat 64 addr))
  else
    let fail (fs : List (Nat × Bool)) : Option Res :=
      match fs.find? fun f => !f.2, fs.head? with
      | some f, _ => some (.fatal .prot (BitVec.ofNat 64 f.1))
      | none, some f => some (.trap .page (BitVec.ofNat 64 f.1))
      | none, none => none
    let (dps, df) := s.area w .glob addr 64 true false
    match fail df.toList with
    | some r => .trap r
    | none =>
      if s.badPieces dps then .trap (.fatalIn (s.noteBad dps) .ecc (BitVec.ofNat 64 addr))
      else match watchOf (s.getPieces dps) with
      | none => .trap (.trap .illegalDesc 0)
      | some x =>
        let (rs, rf) := s.runsAt w x.base x.len true false
        let (bs, bf) := s.runsAt w x.pend x.bitBytes true true
        match fail (rf ++ bf) with
        | some r => .trap r
        | none =>
          let ext := mergeRuns rs
          let bits := mergeRuns bs
          if 16 < ext.length || ext.any (fun e => !s.local_ e.2.2) ||
              ext.any (fun e => bits.any fun q => decide (e.2.2 < q.2.2 + q.2.1) && decide (q.2.2 < e.2.2 + e.2.1)) then
            .trap (.trap .illegalDesc 0)
          else if (s.watch? w.ctx n).isSome then .status s 1
          else if 512 < s.camUsed + ext.length then .status s 2
          else
            let u : Unit_ := ⟨w.ctx, 0, 0, s.pkg⟩
            let s := bits.foldl (fun s q => (List.range q.2.1).foldl (fun s i => s.unitPut u (q.2.2 + i) 0 [0] false) s) s
            let x := { x with ext := ext.map fun e => (e.1 / x.gran, e.2.1 / x.gran, e.2.2), bits := bits }
            .status (s.modCtx w.ctx fun c => { c with watches := c.watches.put n x }) 0

/-! Records of a watch (R318, R327, R328). -/

/-- Whether a record in a pool came from a watch. -/
def PRec.isOf (n : Nat) (r : PRec) : Bool := match r.watch with | some w => w.1 == n | none => false

/-- Drops the undelivered records of a watch: on die, in pools and their waiting teams, and those that writes performed before have
still to queue; those in spill rings are marked and dropped when they reach the head (R327). -/
def State.dropRecords (s : State) (ctx n : Nat) : State :=
  let mine (r : TRec) : Bool := r.ctx == ctx && r.watch == n
  let slice (k : Nat × Slice) : Nat × Slice :=
    (k.1, { k.2 with ondie := k.2.ondie.filter (fun r => !mine r),
                     ring := k.2.ring.map (fun r => if mine r then { r with dead := true } else r) })
  let pool (p : Nat × Pool) : Nat × Pool :=
    let gangs := p.2.gangs.map fun g => { g with recs := g.recs.filter (fun r => !r.isOf n) }
    (p.1, { p.2 with recs := p.2.recs.filter (fun r => !r.isOf n),
                     gangs := gangs.filter (fun g => !g.isRec || !g.recs.isEmpty) })
  { s with slices := s.slices.map slice, ors := s.ors.filter fun o => !(o.ctx == ctx && o.watch == n) }.modCtx ctx fun c =>
    { c with pools := c.pools.map pool }

/-- The watch a waiting WPARK names (R328). -/
def Team.parksOn (t : Team) : Option Nat :=
  match t.wait with
  | some (.instr (.wpark _ _ b _ _) _ _) => some (t.rs b).toNat
  | _ => none

/-- When a team began to wait. -/
def Team.waitSince (t : Team) : Nat :=
  match t.wait with
  | some (.instr _ n _) | some (.barrier _ _ n _) | some (.passes _ _ n _) => n
  | none => 0

/-- A WPARK that ends with no record (R328). -/
def State.parkLapse (s : State) (c slot : Nat) (t : Team) : State :=
  match t.wait with
  | some (.instr (.wpark h d b cc p) _ _) =>
    let adm := admitted t.act h (t.rp h.guard)
    settleTeam (.wpark h d b cc p) h s c slot t (.done ((s.modTeam c slot fun t => t.wp p adm 0).killLoads c slot))
  | _ => s

/-- Removes watch n (R327). -/
def State.unsetWatch (s : State) (ctx n : Nat) : WatchRes :=
  if 255 < n then .trap (.trap .qfault 0)
  else if (s.watch? ctx n).isNone then .status s 3
  else
    let s := s.dropRecords ctx n
    let s := s.modCtx ctx fun c => { c with watches := c.watches.del n }
    let parked := s.teams.filter fun t => t.2.ctx == ctx && t.2.parksOn == some n
    .status (parked.foldl (fun s t => s.parkLapse (t.1 / 16) (t.1 % 16) t.2) s) 0

/-- How a WATCH or UNWATCH of a team ends: its trap, or its status. -/
def X.watchEnd (x : X) (d : SReg) (fin : State → State) : WatchRes → Res
  | .trap r => r
  | .status s n => .done (fin (s.modTeam x.c x.slot fun t => t.ws d (BitVec.ofNat 64 n)))

/-- WATCH (R326): its descriptor is read once the team's stores and atomics are acknowledged (R300), and it acquires. -/
def execWatch (h : Hdr) (d b c : SReg) (s : State) : Host.Outcome State Fault Refusal :=
  runTeam (.watch h d b c) h noNeed s fun x s =>
    let addr := (x.src.team.rs b).toNat
    let n := (x.src.team.rs c).toNat
    if x.adm = 0 then .done s
    else if n ≤ 255 && addr % 64 = 0 && (s.acquiring x.team.uid || !s.forked x.team.uid s.seq) then .hold
    else x.watchEnd d (fun s => s.acquired x.c x.team.uid) (s.setWatch x.who addr n)

/-- UNWATCH (R327): it takes no fork, and kills the load entries (R96). -/
def execUnwatch (h : Hdr) (d b : SReg) (s : State) : Host.Outcome State Fault Refusal :=
  runTeam (.unwatch h d b) h noNeed s fun x s =>
    if x.adm = 0 then .done s
    else if s.acquiring x.team.uid then .hold
    else x.watchEnd d (fun s => s.killLoads x.c x.slot) (s.unsetWatch x.team.ctx (x.src.team.rs b).toNat)

/-! WPARK (R328). -/

/-- The records of a watch that parked teams may take, oldest first: (slice, record). -/
def State.parkRecords (s : State) (ctx n : Nat) : List (Nat × TRec) :=
  let all := s.slices.flatMap fun k => (k.2.ondie.filter fun r => r.ctx == ctx && r.watch == n).map fun r => (k.1, r)
  sortBy (fun a b => decide (a.2.seq ≤ b.2.seq)) all

/-- Clears the pending bit of a granule by an atomic AND at its home, for the team that takes the record (R313). A byte homed in
another package is reached by an atomic of the team which acquires: the team's acquire follows its return (R302). -/
def State.clearPend (s : State) (w : Who) (watch index : Nat) : State :=
  match (s.watch? w.ctx watch).bind fun x => x.pendByte index with
  | none => s
  | some pa =>
    if s.local_ pa then
      let b : Byte := BitVec.ofNat 8 (ofLe (s.homeRead pa 1)) &&& ~~~(1#8 <<< (index % 8))
      s.unitPut ⟨w.ctx, 0, 0, s.pkg⟩ pa 0 [b] false
    else
      s.send { mkAccess w (.atomic .and 0 false (~~~(1#64 <<< (index % 8))) 0) ⟨0, pa, 0⟩ 1 s.seq with acq := true }

/-- Whether no team began earlier to wait on a watch (R328). -/
def State.parkFirst (s : State) (uid ctx n since : Nat) : Bool :=
  s.teams.all fun t => t.2.uid == uid || t.2.ctx != ctx || t.2.frozen.isSome || t.2.parksOn != some n || since ≤ t.2.waitSince

/-- WPARK (R328). -/
def execWpark (h : Hdr) (d : VReg) (b c : SReg) (p : PReg) (s : State) : Host.Outcome State Fault Refusal :=
  runTeam (.wpark h d b c p) h noNeed s fun x s =>
    let n := (x.src.team.rs b).toNat
    let deadline := x.src.team.rs c
    let ctx := x.team.ctx
    let ls := lanes x.adm
    if x.adm = 0 then .done s
    else match s.watch? ctx n with
    | none => .trap .qfault 0
    | some w =>
      if 255 < n || !w.park then .trap .qfault 0
      else if s.acquiring x.team.uid then .hold
      else
        let since := if x.team.wait.isSome then x.team.waitSince else s.seq
        let rs := if s.parkFirst x.team.uid ctx n since then (s.parkRecords ctx n).take ls.length else []
        if rs.isEmpty then
          (if deadline != 0 && deadline.toNat ≤ s.tick.toNat then
             .done ((s.modTeam x.c x.slot fun t => t.wp p x.adm 0).killLoads x.c x.slot)
           else .wait s)
        else if !s.headroom x.c x.team (slicesFor 2 (ls.take rs.length)) then s.sliceWait x.c
        else
          let s := rs.foldl (fun s r =>
            (s.modSlice r.1 fun k => { k with ondie := k.ondie.filter fun q => q != r.2 }).clearPend x.who n r.2.index) s
          let got := List.zip ls rs
          let s := x.writeLanes s d 2 (got.map fun g => (g.1, g.2.2.addr))
          let depth := rs.foldl (fun a r => max a r.2.depth) 0
          let s := s.modTeam x.c x.slot fun t =>
            { t.wp p x.adm (maskOf (got.map Prod.fst) fun _ => true) with depth := depth }
          let s := s.acquired x.c x.team.uid
          if rs.any fun r => w.dlim < r.2.depth then .trapNext (s.bump .cascade (stackOf x.c) 1) .cascade 0
          else .done s

end Sys2Proof.Machine
end

