-- ==== Sys2Proof/Machine/Launch.lean ====
section
/-! DEFINITION. Launch headers (R340 to R342), LAUNCH (R356), SRD and SWR (R357), WKADD and WKDONE (R358). -/

namespace Sys2Proof.Machine

/-! Headers (R340, R341). -/

/-- How the check of a header ends. -/
inductive HdrRes where
  | bad
  | noFit (l : Launch)
  | ok (l : Launch)
deriving DecidableEq, Repr

/-- The fields of a launch header. -/
def launchOf (addr : Nat) (b : List Byte) : Launch :=
  let w (i : Nat) : Nat := le64 b (8 * i)
  let c := w 4
  { addr := addr, bank := 0, entry := w 0, mentry := w 1, dict := w 2, dlen := fld (w 3) 42 11,
    f := (List.range 6).map fun i => fld (w 3) (7 * i) 7,
    nb := fld c 56 8, depth := fld c 48 8, nv := fld c 40 8, ns := fld c 32 8, np := fld c 24 8,
    words := fld c 19 5 + 1, teams := fld c 15 4 + 1, check := fld c 14 1 == 1, icinv := fld c 13 1 == 1,
    blocks := w 5, pack := fld (w 6) 32 32, pl := fld (w 6) 0 32, pool := fld (w 7) 0 8,
    args := (List.range 8).map fun i => BitVec.ofNat 64 (w (8 + i)) }

/-- Whether a header's content is malformed (R341). -/
def badLaunch (l : Launch) (b : List Byte) (grid : Bool) : Bool :=
  let w (i : Nat) : Nat := le64 b (8 * i)
  let f (i : Nat) : Nat := l.f.getD i 0
  fld (w 0) 57 7 != 0 || fld (w 1) 57 7 != 0 || fld (w 2) 57 7 != 0 || w 2 % 8 != 0 || fld (w 3) 53 11 != 0 ||
  fld (w 4) 0 13 != 0 || fld (w 7) 8 56 != 0 ||
  (if l.dict = 0 then l.dlen != 0 else l.dlen = 0 || 1024 < l.dlen) ||
  l.f.any (fun n => 64 < n) || 64 < l.f.sum || f 0 < clog2 l.width || f 1 < clog2 l.teams ||
  128 < l.nb || l.depth < 16 || 128 < l.depth || l.nv = 0 || 64 < l.nv || l.ns = 0 || 64 < l.ns || l.np = 0 || 96 < l.np ||
  l.blocks = 0 || l.pl % 16 != 0 || 65536 < l.pl || (grid && 2 ^ (f 2 + f 3 + f 4 + f 5) < l.blocks)

/-- Whether a header can never fit (R341). -/
def neverFits (l : Launch) : Bool :=
  4095 < l.teams * (l.nv + 4) * l.words ||
  2 ^ 18 < l.teams * l.width * l.pl + l.teams * (l.depth - 16) * 288 ||
  2 ^ 20 < l.packBytes || 16 < l.teams

/-- The check of a header that a launch or POOLCFG names (R341). -/
def State.checkHeader (s : State) (w : Who) (addr : Nat) (grid : Bool) : HdrRes :=
  let (ps, f) := s.area w .glob addr 128 true false
  if addr % 64 != 0 || f.isSome then .bad
  else
    let b := s.getPieces ps
    let l := launchOf addr b
    if badLaunch l b grid then .bad else if neverFits l then .noFit l else .ok l

/-- The POOL field of a header that can be read. -/
def State.headerPool (s : State) (w : Who) (addr : Nat) : Option Nat :=
  let (ps, f) := s.area w .glob addr 128 true false
  if f.isSome then none else some (fld (le64 (s.getPieces ps) 0x38) 0 8)

/-- A checked grid enters its pool at the tail of its gangs (R356). -/
def State.enterGrid (s : State) (ctx part : Nat) (l : Launch) (signal : Option Nat) : State :=
  let s := if l.icinv then s.dropCode part ctx else s
  let id := s.seq
  let s := { s with launches := s.launches.put id ⟨ctx, part, l.blocks, signal, []⟩ }.tickSeq
  match (s.ctx ctx).pools.find l.pool with
  | none => s
  | some p =>
    let g : Gang := ⟨p.counts, id, l, [], false, 0, l.blocks, some id, s.tick.toNat, false⟩
    s.setPool ctx l.pool { p with gangs := p.gangs ++ [g], since := if p.gangs.isEmpty then s.tick.toNat else p.since }

/-- A grid launch: the state after it and its status (R356). -/
def State.launchGrid (s : State) (w : Who) (part addr : Nat) (signal : Option Nat) : State × Nat :=
  match s.headerPool w addr with
  | none => (s, 1)
  | some pool =>
    if ((s.ctx w.ctx).pools.find pool).isNone then (s, 3)
    else match s.checkHeader w addr true with
    | .bad => (s, 1)
    | .noFit _ => (s, 2)
    | .ok l => (s.enterGrid w.ctx part l signal, 0)

/-- LAUNCH, the grid form (R356). -/
def execLaunchGrid (h : Hdr) (d b : SReg) (c : Option SReg) (s : State) : Host.Outcome State Fault Refusal :=
  runTeam (.launchGrid h d b c) h noNeed s fun x s =>
    let sig := match c with | some r => (x.src.team.rs r).toNat | none => 0
    if x.adm = 0 then .done s
    else match (if sig = 0 then .ok [] else spots s x.who .glob 8 true true true [(0, sig)]) with
    | .error e => s.failRes x.who .glob [(0, sig)] e
    | .ok ps =>
      if s.acquiring x.team.uid || s.owes x.team.uid s.seq then .wait s
      else
        let part := s.partOf (stackOf x.c)
        let (s, n) := (s.touch x.who .glob ps).launchGrid x.who part (x.src.team.rs b).toNat (if sig = 0 then none else some sig)
        .done ((s.modTeam x.c x.slot fun t => t.ws d (BitVec.ofNat 64 n)).killLoads x.c x.slot)

/-- LAUNCH, the record form (R344, R356). -/
def execLaunchRecord (h : Hdr) (a : SReg) (b : VReg) (s : State) : Host.Outcome State Fault Refusal :=
  runTeam (.launchRecord h a b) h noNeed s fun x s =>
    let n := (x.src.team.rs a).toNat
    let ls := lanes x.adm
    if x.adm = 0 then .done s
    else match (if 255 < n then none else (s.ctx x.team.ctx).pools.find n) with
    | none => .trap .qfault 0
    | some p =>
      if s.acquiring x.team.uid || s.owes x.team.uid s.seq || poolRoom < p.recs.length + ls.length then .wait s
      else
        let rs := ls.map fun l =>
          (⟨BitVec.ofNat 64 (x.src.regs b l 2 0), BitVec.ofNat 64 (x.src.regs b l 2 2), deeper x.team.depth, false, none,
            stackOf x.c, s.tick.toNat⟩ : PRec)
        let s := (s.setPool x.team.ctx n { p with recs := p.recs ++ rs }).collected x.team.ctx n
        .done (s.killLoads x.c x.slot)

/-! SRD and SWR (R357). -/

/-- Registers held per lane. -/
def srPerLane : Sr → Bool | .wid | .arg | .lane => true | _ => false
/-- Registers a matrix stream admits. -/
def srOnRidge : Sr → Bool | .depth | .tick | .check | .mflags | .core | .ctx => true | _ => false

/-- sr.mflags (R208). -/
def Block.mflags (b : Block) : Nat :=
  (List.range 8).foldl (fun a i =>
    a + bit (b.acc i).use * 2 ^ i + bit (b.acc i).dirty * 2 ^ (8 + i) +
      bit (b.tile i).use * 2 ^ (16 + i) + bit (b.tile i).dirty * 2 ^ (24 + i)) 0

/-- The value of a special register for a lane of a team. -/
def X.special (x : X) (s : State) (r : Sr) (l : Nat) : W64 :=
  let t := x.team
  match r with
  | .wid => t.wid.get 0 l
  | .arg => t.arg.get 0 l
  | .lane => BitVec.ofNat 64 l
  | .team => BitVec.ofNat 64 t.num
  | .depth => BitVec.ofNat 64 t.depth
  | .tick => s.tick
  | .cause => t.cause
  | .faddr => t.faddr
  | .fstat => t.fstat.zeroExtend 64
  | .check => BitVec.ofNat 64 (bit t.check)
  | .core => BitVec.ofNat 64 x.c
  | .ctx => BitVec.ofNat 64 t.ctx
  | .mflags => 0

/-- The value of a special register for a matrix stream. -/
def XR.special (x : XR) (s : State) (r : Sr) : W64 :=
  match r with
  | .depth => BitVec.ofNat 64 x.r.depth
  | .tick => s.tick
  | .check => BitVec.ofNat 64 (bit x.r.check)
  | .mflags => BitVec.ofNat 64 (match x.blk s with | some b => b.mflags | none => 0)
  | .core => BitVec.ofNat 64 x.c
  | .ctx => BitVec.ofNat 64 x.r.ctx
  | _ => 0

/-- SRD (R357): a register that the stream does not admit traps ILLEGAL. -/
def execSrd (h : Hdr) (d : VS) (high : Bool) (r : Sr) (s : State) : Host.Outcome State Fault Refusal :=
  runBoth (.srd h d high r) h (fun _ _ _ => { ill := r == .mflags }) (fun _ _ _ => { ill := !srOnRidge r }) s
    (fun x s => match d with
      | .v k => vecOut (.srd h d high r) x s k 1 fun l => (x.special s r l).toNat / (if high then 2 ^ 32 else 1) % 2 ^ 32
      | .s k => match lowest x.adm with
        | none => .done s
        | some l => scalResult (.srd h d high r) x s k (x.special s r l))
    (fun x s => match d with
      | .v _ => .trap .illegal 0
      | .s k => if !x.adm then .done s else scalResultM (.srd h d high r) x s k (x.special s r))

/-- SWR of sr.fstat (R357). -/
def execSwr (h : Hdr) (a : SReg) (s : State) : Host.Outcome State Fault Refusal :=
  runTeam (.swr h a) h noNeed s fun x s =>
    if x.adm = 0 then .done s
    else .done (s.modTeam x.c x.slot fun t => { t with fstat := (x.src.team.rs a).truncate 5 })

/-! WKADD and WKDONE (R353, R358). -/

/-- WKADD. -/
def execWkadd (h : Hdr) (a : SReg) (dom : Fin 16) (s : State) : Host.Outcome State Fault Refusal :=
  runTeam (.wkadd h a dom) h noNeed s fun x s =>
    if x.adm = 0 then .done s
    else .done (s.emberAdd x.team.ctx dom.val (stackOf x.c) (x.src.team.rs a).toInt)

/-- WKDONE. -/
def execWkdone (h : Hdr) (dom : Fin 16) (s : State) : Host.Outcome State Fault Refusal :=
  runTeam (.wkdone h dom) h noNeed s fun x s =>
    if x.adm = 0 then .done s
    else if !s.forked x.team.uid s.seq then .hold
    else .done (s.emberAdd x.team.ctx dom.val (stackOf x.c) (-(popcount x.adm : Int)))

end Sys2Proof.Machine
end

