-- ==== Sys2Proof/Machine/Traps.lean ====
section
/-! DEFINITION. Stop records (R370, R371), the debugger halt (R382), and TRAP, BKPT, HALT and TRET (R366). -/

namespace Sys2Proof.Machine

/-! Stop records (R370, R371). -/

/-- Slots of a core that hold teams. -/
def State.occupied (s : State) (core : Nat) : List Nat := (List.range 16).filter fun k => (s.team? core k).isSome

/-- The copy engine of its stack that an operation runs on: a chain on that of its channel (R261, R267); for COPY, COPYM and KVAPP the
device chooses one, in the model always engine 0 (DESIGN CHOICE, log 51). A COPYH is the front end's. -/
def Op.engine (o : Op) : Option Nat :=
  match o.kind with
  | .copy .. | .copym .. | .kvapp .. => some 0
  | .chain ch _ _ _ => some (ch / 16)
  | _ => none

/-- The operations of a copy engine, oldest first; a debugger halt lists its context's alone (R382). -/
def State.engineOps (s : State) (ctx : Option Nat) (stack e : Nat) : List Op :=
  s.ops.filter fun o => stackOf o.who.core == stack && o.engine == some e && (ctx.isNone || ctx == some o.who.ctx)

/-- The address of the slot an operation reports to. -/
def State.opSlot (s : State) (o : Op) : Nat :=
  match s.ringOf o.who o.ring false false fun _ => o.slot with
  | .ok r => r.slots + 16 * (o.slot % r.n)
  | _ => 0

/-- Words 2 to 7 of a unit's stop record (R371); ctx is the context of a debugger halt. -/
def State.unitPart (s : State) (ctx : Option Nat) (unit : Nat) (f : Option UFault) : List Nat :=
  let pad (l : List Nat) : List Nat := (l ++ List.replicate 6 0).take 6
  if unit < 576 then
    let occ := (s.occupied unit).foldl (fun a k => a + 2 ^ k) 0
    match f with
    | some f => pad [occ + f.slot * 2 ^ 16, f.resume, f.faddr.toNat]
    | none => pad [occ]
  else if unit < 608 then
    let ops := s.engineOps ctx ((unit - 576) / 8) ((unit - 576) % 8)
    pad (ops.length :: (ops.take 5).map s.opSlot)
  else if unit < 612 then
    pad [match (s.stk (unit - 608)).strike with | some r => r.cmd | none => 0,
         match f with | some f => f.faddr.toNat | none => 0]
  else if 640 ≤ unit then
    let sl := s.slice (unit - 640)
    pad [sl.ondie.length, sl.ring.length, sl.ecc]
  else pad []

/-- A stop record (R371): of a partition halt (KIND 1), or of a context's debugger halt (KIND 2). -/
def State.stopRecord (s : State) (ctx : Option Nat) (unit seq : Nat) (tick : W64) (f : Option UFault) : List Byte :=
  let w0 := (1 + bit ctx.isSome) * 2 ^ 56 +
    (match f with | some f => f.cause.code * 2 ^ 49 + bit f.first * 2 ^ 48 | none => 0) + unit * 2 ^ 32 + seq
  ([w0, tick.toNat] ++ s.unitPart ctx unit f).flatMap (toLe 8)

/-- Bytes of a stop-record area: 1216 records (R370, R372). -/
def recordSpan : Nat := 64 * 1216

/-- Whether a partition has a stop-record area, which is so where all of it can be reached (R283, R370). -/
def State.recordArea (s : State) (part : Nat) : Bool :=
  let a := (s.partn part).recBase
  a != 0 && s.reach a && s.reach (a + recordSpan - 1)

/-- Whose access a stop record is: a number that no context has, for a partition or for the context of a debugger halt. -/
def recordOf (ctx : Option Nat) (part : Nat) : Nat := match ctx with | some c => noCtx + 1 + c | none => 2 * noCtx + 1 + part

/-- A unit writes its stop record, a release store (R370). -/
def State.putRecord (s : State) (ctx : Option Nat) (part unit : Nat) (tick : W64) (f : Option UFault) : State :=
  let a := (s.partn part).recBase + 64 * unit
  if !s.recordArea part then s
  else s.putWord ⟨recordOf ctx part, 0, 0, s.pkg⟩ a 0 (s.stopRecord ctx unit (s.partn part).halts.toNat tick f)

/-- Whether some stop record is still to be acknowledged (R370, R382). -/
def State.recording (s : State) (ctx : Option Nat) (part : Nat) : Bool :=
  s.accs.any fun a => a.ofUnit && a.ctx == recordOf ctx part

/-! The debugger halt (R382). -/

/-- Cores that hold parties of a context. -/
def State.coresOf (s : State) (ctx : Nat) : List Nat :=
  ((s.teams.filterMap fun (t : Nat × Team) => if t.2.ctx == ctx then some (t.1 / 16) else none) ++
   (s.ridges.filterMap fun (r : Nat × Ridge) => if r.2.ctx == ctx && !r.2.ended then some r.1 else none)).dedup

/-- Copy engines that hold operations of a context: unit numbers. -/
def State.enginesOf (s : State) (ctx : Nat) : List Nat :=
  (s.ops.filterMap fun o => if o.who.ctx == ctx then o.engine.map (fun e => 576 + 8 * stackOf o.who.core + e) else none).dedup

/-- Whether an engine works for a context: an operation, or a Strike command. -/
def State.engaged (s : State) (ctx : Nat) : Bool :=
  (s.ops.any fun o => o.who.ctx == ctx) || s.stks.any fun k =>
    k.2.strikeQ.any (fun q => q.ctx == ctx) || (match k.2.strike with | some r => r.ctx == ctx | none => false)

/-- Whether a context's debugger halt is complete: its records are acknowledged and, with QUIESCE, its engines idle. -/
def State.settled (s : State) (c : Nat × Ctx) : Bool :=
  c.2.dbgHalt && !s.recording (some c.1) 0 && !(c.2.dbgQuiesce && s.engaged c.1)

/-- FROZEN is set where a debugger halt is complete (R382). -/
def State.dbgSettle (s : State) : State :=
  let ctx (c : Nat × Ctx) : Nat × Ctx := if s.settled c then (c.1, { c.2 with dbgFrozen := true }) else c
  { s with ctxs := s.ctxs.map ctx }

/-- With QUIESCE the COPY and CHAIN operations of a context stop at their next boundary. -/
def State.quiesce (s : State) (ctx : Nat) : State :=
  let op (o : Op) : Op := match o.kind with
    | .copy .. | .chain .. => if o.who.ctx == ctx then { o with stop := true } else o
    | _ => o
  { s with ops := s.ops.map op }

/-- HALT is set in a context's DBG_CTL (R382). Where it is set already, all it does is done anew (DESIGN CHOICE, log 50). -/
def State.debugHalt (s : State) (ctx : Nat) (quiesce : Bool) : State :=
  let since := if (s.ctx ctx).dbgHalt then (s.ctx ctx).dbgTick else s.tick.toNat
  let s := s.modCtx ctx fun c => { c with dbgHalt := true, dbgFrozen := false, dbgQuiesce := quiesce, dbgTick := since }
  let s := if quiesce then s.quiesce ctx else s
  let s := (s.coresOf ctx ++ s.enginesOf ctx).foldl (fun s u => s.putRecord (some ctx) (s.ctx ctx).part u s.tick none) s
  s.dbgSettle

/-! The instructions (R366). -/

/-- TRAP. -/
def execTrap (h : Hdr) (imm : W32) (s : State) : Host.Outcome State Fault Refusal :=
  runBoth (.trap h imm) h noNeed noNeedM s
    (fun x s => if x.adm = 0 then .done s else .trapNext s .swtrap (imm.zeroExtend 64))
    (fun x s => if !x.adm then .done s else .trapNext s .swtrap (imm.zeroExtend 64))

/-- BKPT. -/
def execBkpt (h : Hdr) (imm : W32) (s : State) : Host.Outcome State Fault Refusal :=
  runBoth (.bkpt h imm) h noNeed noNeedM s
    (fun x s =>
      if x.adm = 0 then .done s
      else if (s.ctx x.team.ctx).dbgBkfreeze then .done (s.debugHalt x.team.ctx (s.ctx x.team.ctx).dbgQuiesce)
      else .trapNext s .bkpt (imm.zeroExtend 64))
    (fun x s =>
      if !x.adm then .done s
      else if (s.ctx x.r.ctx).dbgBkfreeze then .done (s.debugHalt x.r.ctx (s.ctx x.r.ctx).dbgQuiesce)
      else .trapNext s .bkpt (imm.zeroExtend 64))

/-- HALT. -/
def execHalt (h : Hdr) (a : SReg) (s : State) : Host.Outcome State Fault Refusal :=
  runBoth (.halt h a) h noNeed noNeedM s
    (fun x s => if x.adm = 0 then .done s else .fatal .halt (x.src.team.rs a))
    (fun x s => if !x.adm then .done s else .fatal .halt (x.src.rs a))

/-- A trap return's target is checked (R14, R366): its word is asked for, which waits for a walker or counts its walk (R290, R294),
and the return traps ILLEGAL_TARGET or goes on. -/
def State.toReturn (s : State) (core ctx target : Nat) (go : State → Res) : Res :=
  if target % 2 ≠ 0 then .trap .illegalTarget (BitVec.ofNat 64 target)
  else if s.fetchWaits core ctx (target / 8 * 8) then .hold
  else match s.resumeAt core ctx target with
    | .bad => .trapIn (s.fetchFill core ctx (target / 8 * 8)) .illegalTarget (BitVec.ofNat 64 target)
    | _ => go (s.fetchFill core ctx (target / 8 * 8))

/-- TRET (R366, R364). -/
def execTret (h : Hdr) (s : State) : Host.Outcome State Fault Refusal :=
  runBoth (.tret h) h (fun _ _ _ => { ill := h.guard.val != 0 || h.gneg }) (fun _ _ _ => { ill := h.guard.val != 0 || h.gneg }) s
    (fun x s =>
      match x.team.stk with
      | [] => .trap .illegal 0
      | e :: _ =>
        if e.kind != .trap then .trap .illegal 0
        else s.toReturn x.c x.team.ctx e.pc1 fun s => .went (s.trapReturn x.c x.slot { x.team with wait := none } e))
    (fun x s =>
      match x.r.trap with
      | none => .trap .illegal 0
      | some (resume, v62, v63) =>
        s.toReturn x.c x.r.ctx resume fun s => .went (s.trapReturnM x.c { x.r with wait := none } resume v62 v63))

end Sys2Proof.Machine
end

