-- ==== Sys2Proof/Machine/CoreEvents.lean ====
section
/-! DEFINITION. Events of cores and memory: instruction-cache fills (R33), results written and slices
released (R30, R86), accesses in flight (R174, R296, R297, R302, R317), page walks (R289, R290) and trigger records
(R312, R316, R318). An event whose condition does not hold changes nothing (log 1). -/

namespace Sys2Proof.Machine

/-! Instruction caches (R33). -/

/-- The contexts with parties on a core. -/
def State.ctxsOn (s : State) (core : Nat) : List Nat :=
  ((s.teams.filterMap fun (t : Nat × Team) => if t.1 / 16 == core then some t.2.ctx else none) ++
   (s.ridges.filterMap fun (r : Nat × Ridge) => if r.1 == core && !r.2.ended then some r.2.ctx else none)).dedup

/-- A line enters a core's instruction cache, of 64 sets of 4 ways (R33); n is the number of the fill. -/
def Core.icPut (c : Core) (l : IcLine) (n : Nat) : Core :=
  { c with icache := l :: stays 1 64 4 l.line n IcLine.line (c.icache.filter fun x => !(x.ctx == l.ctx && x.line == l.line)) }

/-- A line of code as the stack's shared cache holds it, else as its home does, of which it is two lines (R33); one with a parity error
is fetched again. None where its data carry an uncorrectable error (R394). -/
def State.codeLine (s : State) (stack ctx line pa cls : Nat) : State × Option IcLine :=
  match (s.stk stack).icache.find? fun l => l.ctx == ctx && l.line == line && !l.bad with
  | some l => (s, some { l with when := s.seq })
  | none =>
    let s := (s.readAt pa cls).readAt (pa + 128) cls
    if s.eccBad pa then (s.noteEcc pa, none)
    else if s.eccBad (pa + 128) then (s.noteEcc (pa + 128), none)
    else
      let b := s.homeRead pa 256
      let l : IcLine := ⟨ctx, line, (List.range 32).map fun i => BitVec.ofNat 64 (le64 b (8 * i)), s.seq, false⟩
      let s := if s.local_ pa then s else s.tickFree
      (s.modStk stack fun k => { k with icache := l :: leave 4 32768 line s.seq (k.icache.filter fun x => !x.bad) }, some l)

/-- The parties of a context on a core that are frozen for a line: the slot and pc of each (R33). -/
def State.frozenFor (s : State) (core ctx line : Nat) : List (Nat × Nat) :=
  (s.teams.filterMap fun (t : Nat × Team) =>
    if t.1 / 16 == core && t.2.ctx == ctx && t.2.slip == some line then some (t.1 % 16, t.2.pc) else none) ++
  s.ridges.filterMap fun (r : Nat × Ridge) =>
    if r.1 == core && r.2.ctx == ctx && r.2.slip == some line then some (0, r.2.pc) else none

/-- A line has arrived: the parties of a context on a core that were frozen for it are so no more. -/
def State.unslip (s : State) (core ctx line : Nat) : State :=
  let team (t : Nat × Team) : Nat × Team :=
    if t.1 / 16 == core && t.2.ctx == ctx && t.2.slip == some line then (t.1, { t.2 with slip := none }) else t
  let ridge (r : Nat × Ridge) : Nat × Ridge :=
    if r.1 == core && r.2.ctx == ctx && r.2.slip == some line then (r.1, { r.2 with slip := none }) else r
  { s with teams := s.teams.map team, ridges := s.ridges.map ridge }

/-- A line of one context arrives at a core, once its translation has a walker (R290). Where its data carry an uncorrectable error each
party that waits for it takes an ECC fault, and a prefetched one is dropped (R394). -/
def State.fillCode (s : State) (core line ctx : Nat) : State :=
  if ((s.core core).icLine ctx (256 * line)).isSome || s.walkWaits core ctx (256 * line) then s
  else match s.translate core ctx (256 * line) with
    | .ok e =>
      if !e.x then s
      else
        let s := s.tlbFill core ctx (256 * line)
        match s.codeLine (stackOf core) ctx line (e.phys (256 * line)) e.cls with
        | (s, some l) => ((s.modCore core fun c => c.icPut l s.seq).unslip core ctx line).tickSeq
        | (s, none) => (s.frozenFor core ctx line).foldl (fun s p => s.fatalAt core p.1 .ecc p.2 (BitVec.ofNat 64 (256 * line))) s
    | _ => s

/-- ICACHE_LINE_FILL: a line that a party of the core waits for, or a prefetched one (R17), arrives. -/
def execIcacheLineFill (core line : Nat) (s : State) : Host.Outcome State Fault Refusal :=
  .next ((s.ctxsOn core).foldl (fun s c => s.fillCode core line c) s)

/-! Results (R30, R86, R93). -/

/-- The list with element k marked as written. -/
def markDone (l : List Shadow) (k : Nat) : List Shadow :=
  (List.range l.length).zip l |>.map fun x => if x.1 == k then { x.2 with done := true } else x.2

/-- The results in flight of a party with result k written: those that a reader may read and that are written are gone. -/
def afterWrite (l : List Shadow) (k : Nat) : List Shadow := (markDone l k).filter fun x => x.left != 0 || !x.done

/-- Whether result k in flight is due: it is written in its cycle (R30). -/
def dueNow (l : List Shadow) (cycle k : Nat) : Option Shadow := (l[k]?).filter fun sh => !sh.done && decide (sh.due ≤ cycle)

/-- FIXED_LATENCY_WRITE: result k in flight of a party is written where it is due (R30), its flags are set (R127) and it
enters the value table (R93). -/
def execFixedLatencyWrite (p : Party) (k : Nat) (s : State) : Host.Outcome State Fault Refusal :=
  .next (match p with
    | .team c slot =>
      (match s.team? c slot with
       | none => s
       | some t => match dueNow t.shadows s.cycle k with
         | none => s
         | some sh => (s.setTeam c slot { t with shadows := afterWrite t.shadows k }).written c slot sh)
    | .ridge c =>
      (match s.ridge? c with
       | none => s
       | some r => match dueNow r.shadows s.cycle k with
         | none => s
         | some _ => s.setRidge c { r with shadows := afterWrite r.shadows k }))

/-- SLICE_RELEASE: a slice that nothing names and nothing is in flight to is released (R86). -/
def execSliceRelease (core slice : Nat) (s : State) : Host.Outcome State Fault Refusal :=
  .next (if ((s.core core).phys.find slice).isNone || s.refs core slice != 0 || s.slicePending core slice then s
    else s.modCore core fun c => c.release slice)

/-! Accesses in flight (R174, R296, R297, R302). -/

/-- READ_RESPONSE (R297): how says what the response holds (State.respond). -/
def execReadResponse (id how : Nat) (s : State) : Host.Outcome State Fault Refusal :=
  .next (match s.access? id with
    | some a => if a.isRead && s.mayPerform a then s.respond a how else s
    | none => s)

/-- STORE_PERFORM (R296): a store arrives at its home. -/
def execStorePerform (id : Nat) (s : State) : Host.Outcome State Fault Refusal :=
  .next (match s.access? id with
    | some a =>
      (match a.kind with
       | .write bs => if !a.held && s.mayPerform a then s.doStore a bs else s
       | _ => s)
    | none => s)

/-- HELD_WRITE_RELEASE (R317): a held write or atomic is tried again. -/
def execHeldWriteRelease (id : Nat) (s : State) : Host.Outcome State Fault Refusal :=
  .next (match s.access? id with
    | some a =>
      if !a.held || !s.mayPerform a then s
      else match a.kind with
        | .write bs => s.doStore a bs
        | .atomic op ft sx b c => s.doAtomic a op ft sx b c
        | .read => s
    | none => s)

/-- REVOCATION (R296): it reaches the L1 of a core that owned words of a write. One that another package sends names, where no
access in flight has its number, a word homed there (DESIGN CHOICE, log 12). -/
def execRevocation (id core : Nat) (s : State) : Host.Outcome State Fault Refusal :=
  .next (match s.access? id with
    | some a =>
      if a.revoke.contains core then
        (s.revokeAt core a.key a.len).modAccess id fun a => { a with revoke := a.revoke.filter (· != core) }
      else s
    | none => if 4 * id < 2 ^ 56 && !s.local_ (4 * id) then s.revokeAt core (4 * id) 4 else s)

/-- WRITE_ACKNOWLEDGE (R296). A debugger halt may await that of a stop record (R382). -/
def execWriteAcknowledge (id : Nat) (s : State) : Host.Outcome State Fault Refusal :=
  .next (match s.access? id with
    | some a => (s.doAck a).dbgSettle
    | none => s)

/-- ATOMIC_PERFORM (R174, R190). -/
def execAtomicPerform (id : Nat) (s : State) : Host.Outcome State Fault Refusal :=
  .next (match s.access? id with
    | some a =>
      (match a.kind with
       | .atomic op ft sx b c => if !a.held && s.mayPerform a then s.doAtomic a op ft sx b c else s
       | _ => s)
    | none => s)

/-- A walk ends for one of the misses that wait for it: the core that missed has the translation, which a unit has not; a prefetch then
goes on (R191, R290). -/
def State.walked (s : State) (w : Walk) : State :=
  match s.walk w.ctx w.va with
  | .ok e =>
    let s := if decide (65536 ≤ w.core) || (s.core w.core).tlb.any fun x => x.hits w.ctx w.va then s
      else s.modCore w.core fun c => { c with tlb := e :: leave 3 256 e.va s.seq c.tlb }
    (match w.pre with | some l2 => s.prefetch ⟨w.core, w.ctx, 0, 0, 0, 0⟩ l2 e w.va | none => s)
  | _ => s

/-- PAGE_WALK: walk k of a stack ends, for every miss that joined it (R289, R290). -/
def execPageWalk (stack k : Nat) (s : State) : Host.Outcome State Fault Refusal :=
  .next (match (s.walks.filter fun w => w.stack == stack)[k]? with
    | none => s
    | some w =>
      let same (x : Walk) : Bool := x.stack == stack && x.ctx == w.ctx && x.va / 65536 == w.va / 65536
      (s.walks.filter same).foldl State.walked { s with walks := s.walks.filter fun x => !same x })

/-! Trigger records (R312, R316, R318). -/

/-- An OR returns: a new record, or a coalesced write (R312). -/
def State.orBack (s : State) (o : PendOr) : State :=
  match s.watch? o.ctx o.watch with
  | none => s
  | some w =>
    match w.pendByte o.index with
    | none => s
    | some pa =>
      let old := ofLe (s.homeRead pa 1)
      let s := if s.local_ pa then s else s.tickFree
      if old.testBit (o.index % 8) then s.bump .coal (o.slice / 144) 1
      else
        let s := s.unitPut ⟨o.ctx, 0, o.depth, s.pkg⟩ pa 0 [BitVec.ofNat 8 (old + 2 ^ (o.index % 8))] false
        (s.queueRecord o.slice w.quota
          ⟨w.base + o.index * w.gran, o.index, o.src, o.ctx, o.depth, o.watch, s.seq, false⟩).tickSeq

/-- Whether the record of an OR would find its slice's spill ring full (R317). -/
def State.orBlocked (s : State) (o : PendOr) : Bool :=
  match s.watch? o.ctx o.watch with
  | some w => (s.slice o.slice).ringFull && (s.slice o.slice).spills o.ctx o.watch w.quota
  | none => false

/-- PENDING_BIT_OR: OR k on its way is performed (R312). -/
def execPendingBitOr (k : Nat) (s : State) : Host.Outcome State Fault Refusal :=
  .next (match s.ors[k]? with
    | none => s
    | some o => if s.orBlocked o then s else State.orBack { s with ors := s.ors.eraseIdx k } o)

/-- SPILL_RING_DRAIN (R316). -/
def execSpillRingDrain (slice : Nat) (s : State) : Host.Outcome State Fault Refusal := .next (s.drainRing slice)

/-- RECORD_HANDOFF (R318). -/
def execRecordHandoff (slice k : Nat) (s : State) : Host.Outcome State Fault Refusal := .next (s.handOff slice k)

end Sys2Proof.Machine
end

