-- ==== Sys2Proof/Machine/CrossLane.lean ====
section
/-! DEFINITION. Moving and combining data across lanes (R133, R159 to R162). -/

namespace Sys2Proof.Machine

def execVshuf (h : Hdr) (d a : VReg) (b : VS) (m : Shuf) (wide : Bool) (s : State) :
    Host.Outcome State Fault Refusal :=
  let i := Instr.vshuf h d a b m wide
  runTeam i h noNeed s fun x s =>
    vecWhole i x s d (wideN wide) (fun l => x.src.num wide (.v a) (laneRead i x.src l)) fun _ => 0

/-- VBCAST (R161): to every admitted lane, or to a scalar. -/
def execVbcast (h : Hdr) (d : VS) (a : VReg) (b : SReg) (wide : Bool) (s : State) :
    Host.Outcome State Fault Refusal :=
  let i := Instr.vbcast h d a b wide
  runTeam i h noNeed s fun x s =>
    match d with
    | .v r => vecWhole i x s r (wideN wide) (fun l => x.src.num wide (.v a) (laneRead i x.src l)) fun _ => 0
    | .s r =>
      if x.adm = 0 then .done s
      else scalResult i x s r (BitVec.ofNat 64 (x.src.num wide (.v a) ((x.src.team.rs b).toNat % (32 * x.team.hdr.words))))

/-- A node of a reduction (R162). -/
def redNode (op : RedOp) (ty : NTy) (rnd : Rnd) (a b : FR) : FR :=
  let fl := a.fl ||| b.fl
  match ty with
  | .f t =>
    let r := match op with
      | .min => minmaxF t rnd.ftz false a.bits b.bits
      | .max => minmaxF t rnd.ftz true a.bits b.bits
      | _ => addF t rnd a.bits b.bits
    ⟨r.bits, fl ||| r.fl⟩
  | .i t =>
    let o : IOp := match op with
      | .add => .add | .min => .min | .max => .max | .and => .and | .or => .or | .xor => .xor
    ⟨elemOp o t false a.bits b.bits 0, fl⟩

/-- The identities of R133. -/
def redIdentity (op : RedOp) (ty : NTy) : FR :=
  match ty with
  | .f t =>
    match op with
    | .min => ⟨fmtInf t, 0⟩
    | .max => ⟨fmtSign t true + fmtInf t, 0⟩
    | _ => ⟨fmtSign t true, 0⟩
  | .i t =>
    let top := 2 ^ t.w - 1
    let half := 2 ^ (t.w - 1)
    match op with
    | .min => ⟨if t.signed then half - 1 else top, 0⟩
    | .max => ⟨if t.signed then half else 0, 0⟩
    | .and => ⟨top, 0⟩
    | _ => ⟨0, 0⟩

/-- One level of the tree: neighbours combine. -/
def redLevel (f : FR → FR → FR) : List FR → List FR
  | a :: b :: t => f a b :: redLevel f t
  | t => t

/-- The tree over 32 lanes (R133). -/
def redTree (f : FR → FR → FR) (xs : List FR) : FR :=
  let l := redLevel f (redLevel f (redLevel f (redLevel f (redLevel f xs))))
  l.headD ⟨0, 0⟩

/-- The lanes of word k, the identity where not admitted. -/
def redWord (x : X) (ty : NTy) (id : FR) (a : VReg) (k : Nat) : List FR :=
  (List.range 32).map fun l =>
    if inMask x.adm (32 * k + l) then ⟨x.src.num (ty.w == 64) (.v a) (32 * k + l), 0⟩ else id

/-- VREDUCE's result over the non-empty words of the mask (R133). -/
def reduceAll (x : X) (op : RedOp) (ty : NTy) (rnd : Rnd) (a : VReg) : FR :=
  let f := redNode op ty rnd
  let id := redIdentity op ty
  match (passes x.team.act).map fun k => redTree f (redWord x ty id a k) with
  | [] => id
  | p :: ps => ps.foldl f p

/-- VREDUCE (R162). An S result of a 32-bit type is zero-extended. -/
def execVreduce (h : Hdr) (d : VS) (a : VReg) (op : RedOp) (ty : NTy) (rnd : Rnd) (s : State) :
    Host.Outcome State Fault Refusal :=
  runTeam (.vreduce h d a op ty rnd) h noNeed s fun x s =>
    let r := reduceAll x op ty rnd a
    match d with
    | .v q => vecWhole (.vreduce h d a op ty rnd) x s q (ntN ty) (fun _ => r.bits) (fun _ => r.fl)
    | .s q =>
      if x.adm = 0 then .done s
      else scalResult (.vreduce h d a op ty rnd) x s q (BitVec.ofNat 64 r.bits) r.fl

/-- One step of a scan: every lane l ≥ d takes op(x[l − d], x[l]) (R133). -/
def scanStep (f : FR → FR → FR) (xs : List FR) (d : Nat) : List FR :=
  xs.take d ++ List.zipWith f xs (xs.drop d)

/-- The inclusive scan of a word by five steps (R133). -/
def scanWord (f : FR → FR → FR) (xs : List FR) : List FR := [1, 2, 4, 8, 16].foldl (scanStep f) xs

/-- VSCAN's results of every word: word number and lanes, the carry going from word to word (R133). -/
def scanAll (f : FR → FR → FR) : List (Nat × List FR) → FR → List (Nat × List FR)
  | [], _ => []
  | (k, xs) :: t, carry =>
    let out := (scanWord f xs).map (f carry)
    (k, out) :: scanAll f t (out.getLastD carry)

/-- VSCAN (R162). -/
def execVscan (h : Hdr) (d a : VReg) (op : RedOp) (ty : NTy) (rnd : Rnd) (s : State) :
    Host.Outcome State Fault Refusal :=
  runTeam (.vscan h d a op ty rnd) h noNeed s fun x s =>
    let id := redIdentity op ty
    let out := scanAll (redNode op ty rnd) ((passes x.team.act).map fun k => (k, redWord x ty id a k)) id
    let at_ (l : Nat) : FR :=
      match out.find? fun p => p.1 == l / 32 with
      | some p => p.2.getD (l % 32) id
      | none => id
    let fl := out.foldl (fun acc p => p.2.foldl (fun acc r => acc ||| r.fl) acc) 0
    vecWhole (.vscan h d a op ty rnd) x s d (ntN ty) (fun l => (at_ l).bits) (fun _ => fl)

end Sys2Proof.Machine
end

