-- ==== Sys2Proof/Machine/WaitEvents.lean ====
section
/-! DEFINITION. Events that end a party's wait in a blocking instruction (R72, R105, R212, R258, R260, R328),
and the acceptance of a message (R274). Each runs the meaning of the instruction that waits, which does
nothing where its condition does not hold. -/

namespace Sys2Proof.Machine

/-- The instruction a party waits in, where it may go on: it is not stopped, and no pre-emption request is
pending at this point (R374). -/
def State.waitingIn (s : State) (p : Party) : Option Instr :=
  let go (core ctx blk : Nat) (fz : Option Freeze) (w : Option Wait) : Option Instr :=
    match w with
    | some w => if s.mayIssue core ctx && fz.isNone && !s.requested blk then some w.what else none
    | none => none
  match p with
  | .team c slot => (match s.team? c slot with
    | some t => if slot < 16 then go c t.ctx t.blk t.frozen t.wait else none
    | none => none)
  | .ridge c => match s.ridge? c with | some r => go c r.ctx r.blk r.frozen r.wait | none => none

/-- What a party's turn leaves where the meaning of its instruction answers a next state; itself where it answers none. -/
def State.took (s : State) (p : Party) (i : Instr) (o : Host.Outcome State Fault Refusal) : State :=
  match o with
  | .next s' => s.ran p i s'
  | _ => s

/-- s with a party to move. -/
def State.turnOf (s : State) (p : Party) : State := { s with cur := p }

/-- QUEUE_MOVE_COMPLETE (R105). -/
def execQueueMoveComplete (p : Party) (s : State) : Host.Outcome State Fault Refusal :=
  .next (match s.waitingIn p with
    | some (.smov h f) => s.took p (.smov h f) (execSmov h f (s.turnOf p))
    | some (.vmov h f wide) => s.took p (.vmov h f wide) (execVmov h f wide (s.turnOf p))
    | _ => s)

/-- REFILL_WAIT_END (R72). -/
def execRefillWaitEnd (p : Party) (s : State) : Host.Outcome State Fault Refusal :=
  .next (match s.waitingIn p with
    | some (.refill h q wt off) => s.took p (.refill h q wt off) (execRefill h q wt off (s.turnOf p))
    | _ => s)

/-- RING_RESERVE_RETRY (R258). -/
def execRingReserveRetry (p : Party) (s : State) : Host.Outcome State Fault Refusal :=
  .next (match s.waitingIn p with
    | some (.copy h a b c) => s.took p (.copy h a b c) (execCopy h a b c (s.turnOf p))
    | some (.copym h a b c) => s.took p (.copym h a b c) (execCopym h a b c (s.turnOf p))
    | some (.chain h a b c) => s.took p (.chain h a b c) (execChain h a b c (s.turnOf p))
    | some (.kvapp h a b c sp) => s.took p (.kvapp h a b c sp) (execKvapp h a b c sp (s.turnOf p))
    | _ => s)

/-- FWAIT_RETURN (R260). -/
def execFwaitReturn (p : Party) (s : State) : Host.Outcome State Fault Refusal :=
  .next (match s.waitingIn p with
    | some (.fwait h a b nt) => s.took p (.fwait h a b nt) (execFwait h a b nt (s.turnOf p))
    | _ => s)

/-- BARRIER_WAIT_END (R212). -/
def execBarrierWaitEnd (p : Party) (s : State) : Host.Outcome State Fault Refusal :=
  .next (match s.waitingIn p with
    | some (.bwait h a b) => s.took p (.bwait h a b) (execBwait h a b (s.turnOf p))
    | some (.bsync h b) => s.took p (.bsync h b) (execBsync h b (s.turnOf p))
    | _ => s)

/-- Whether the watch a waiting WPARK names holds records for it. -/
def State.parkHolds (s : State) (p : Party) : Bool :=
  match p with
  | .team c slot =>
    (match s.team? c slot with
     | some t => (match t.parksOn with
       | some n => s.parkFirst t.uid t.ctx n t.waitSince && !(s.parkRecords t.ctx n).isEmpty
       | none => false)
     | none => false)
  | .ridge _ => false

/-- WPARK_DELIVER (R328). -/
def execWparkDeliver (p : Party) (s : State) : Host.Outcome State Fault Refusal :=
  .next (match s.waitingIn p with
    | some (.wpark h d b c q) => if s.parkHolds p then s.took p (.wpark h d b c q) (execWpark h d b c q (s.turnOf p)) else s
    | _ => s)

/-- WPARK_LAPSE (R328). -/
def execWparkLapse (p : Party) (s : State) : Host.Outcome State Fault Refusal :=
  .next (match s.waitingIn p with
    | some (.wpark h d b c q) => if s.parkHolds p then s else s.took p (.wpark h d b c q) (execWpark h d b c q (s.turnOf p))
    | _ => s)

/-- MESSAGE_FLIT_ACCEPT (R274): flit k of the network enters its core's buffer of 64; flits of one core to
one core with one tag go in order. -/
def execMessageFlitAccept (k : Nat) (s : State) : Host.Outcome State Fault Refusal :=
  .next (match s.net[k]? with
    | none => s
    | some f =>
      if 64 ≤ (s.core f.dst).rx.length ||
          (s.net.take k).any (fun g => g.src == f.src && g.dst == f.dst && g.tag == f.tag) then s
      else { s.modCore f.dst fun c => { c with rx := c.rx ++ [f] } with net := s.net.eraseIdx k })

end Sys2Proof.Machine
end

