-- ==== Sys2Proof/Machine/EngineEvents.lean ====
section
/-! DEFINITION. Events of the engines: an operation completes (R259, R262, R264, R272, R335), a chain takes a record
(R266), a gathered row arrives (R269). After each, a debugger halt that waits for the engines may be
complete (R382). -/

namespace Sys2Proof.Machine

/-- A COPYH of the front end copies its bytes, once it has walkers (R290, R335). -/
def State.runCopyh (s : State) (o : Op) (src dst len part : Nat) : State :=
  let st := (s.partn part).first
  if s.unitWaits st o.who .glob (pagesOf src len ++ pagesOf dst len) then s else
  let s := (s.unitWalks st o.who .glob (pagesOf src len)).unitWalks st o.who .glob (pagesOf dst len)
  let e := s.copyBytes o .glob .glob (len + 1) src dst len 0
  e.st.conclude o [] ⟨632 + (s.partn part).first, 0, e.bytes, e.code, e.fa, e.bytes⟩

/-- Whether an operation has nothing left but what it has yet to write and its report (R259). -/
def Op.over (o : Op) : Bool := o.ended.isSome || !o.todo.isEmpty

/-- ENGINE_COMPLETE (R259): operation id runs to its end and reports, or goes on reporting. -/
def execEngineComplete (id : Nat) (s : State) : Host.Outcome State Fault Refusal :=
  .next (match s.op? id with
    | none => s
    | some o =>
      if !s.engineMay o then s
      else State.dbgSettle (if o.over then s.opGo id 8 else match o.kind with
        | .copy src dst start done0 => s.runCopy o src dst start done0
        | .copym v sp base stride nown ncommon nrcv =>
          s.runCopym o v sp (copymMoves v base stride nown ncommon nrcv) (ncommon + nrcv * nown)
        | .scat grp => s.runScat o grp
        | .copyh src dst len _ part _ => s.runCopyh o src dst len part
        | _ => s))

/-- The chain that occupies a channel of a stack. -/
def State.chainOn (s : State) (stack chan : Nat) : Option Op :=
  s.ops.find? fun o => stackOf o.who.core == stack && (match o.kind with | .chain ch _ _ _ => ch == chan | _ => false)

/-- CHAIN_RECORD (R266): a channel of a stack takes its next record once its last one is performed, or goes on reporting. -/
def execChainRecord (stack chan : Nat) (s : State) : Host.Outcome State Fault Refusal :=
  .next (match s.chainOn stack chan with
    | some o =>
      if !s.engineMay o then s
      else (match o.kind with
       | .chain ch rec k total => State.dbgSettle (if o.over || s.outstanding o.id then s.opGo o.id 8 else s.runRecord o ch rec k total)
       | _ => s)
    | none => s)

/-- GATHER_ROW_FETCH (R269): the row at an address that operation id asks for arrives. -/
def execGatherRowFetch (id addr : Nat) (s : State) : Host.Outcome State Fault Refusal :=
  .next (match s.op? id with
    | some o =>
      (match o.kind with
       | .gath _ rows size _ _ =>
         if s.engineMay o && rows.any (fun r => r.2 == addr) then (s.fetchRow o addr size).dbgSettle else s
       | _ => s)
    | none => s)

/-- ENTRY_CLAIM (R235). -/
def execEntryClaim (id : Nat) (s : State) : Host.Outcome State Fault Refusal :=
  .next (match s.op? id with | some o => (s.claimFor o).dbgSettle | none => s)

/-- KVAPP_EXECUTE (R238). -/
def execKvappExecute (id : Nat) (s : State) : Host.Outcome State Fault Refusal :=
  .next (match s.op? id with | some o => (s.kvappGo o).dbgSettle | none => s)

/-- STRIKE_COMMAND (R247). -/
def execStrikeCommand (stack : Nat) (s : State) : Host.Outcome State Fault Refusal := .next (s.strikeRun stack).dbgSettle

/-- STRIKE_RC_DRAIN (R247). -/
def execStrikeRcDrain (stack : Nat) (s : State) : Host.Outcome State Fault Refusal := .next (s.strikeDrain stack).dbgSettle

end Sys2Proof.Machine
end

