-- ==== Sys2Proof/Machine/Fp.lean ====
section
/-! DEFINITION. The floating-point forms (R147 to R158), over the operations of Float.lean. -/

namespace Sys2Proof.Machine

/-- A floating-point form whose result of n registers, with its flags, is g of each lane. -/
def fForm (i : Instr) (h : Hdr) (s : State) (d : VReg) (n : Nat) (g : Src → Nat → FR) :
    Host.Outcome State Fault Refusal :=
  runTeam i h noNeed s fun x s =>
    vecResult i x s d n (fun l => (g x.src l).bits) (fun l => (g x.src l).fl)

def execFadd (h : Hdr) (d : VReg) (a b : VS) (ty : FTy) (rnd : Rnd) (s : State) : Host.Outcome State Fault Refusal :=
  fForm (.fadd h d a b ty rnd) h s d 1 fun x l =>
    packed2 ty (fun p q => addF ty rnd p q) (x.num false a l) (x.num false b l)

def execFsub (h : Hdr) (d : VReg) (a b : VS) (ty : FTy) (rnd : Rnd) (s : State) : Host.Outcome State Fault Refusal :=
  fForm (.fsub h d a b ty rnd) h s d 1 fun x l =>
    packed2 ty (fun p q => subF ty rnd p q) (x.num false a l) (x.num false b l)

def execFmul (h : Hdr) (d : VReg) (a b : VS) (ty : FTy) (rnd : Rnd) (s : State) : Host.Outcome State Fault Refusal :=
  fForm (.fmul h d a b ty rnd) h s d 1 fun x l =>
    packed2 ty (fun p q => mulF ty rnd p q) (x.num false a l) (x.num false b l)

/-- Element i of an operand of a packed type. -/
def elemF (ty : FTy) (i v : Nat) : Nat := if ty.w = 32 then v else elem 16 i v

def execFfma (h : Hdr) (d : VReg) (a b c : VS) (ty : FTy) (rnd : Rnd) (s : State) : Host.Outcome State Fault Refusal :=
  fForm (.ffma h d a b c ty rnd) h s d 1 fun x l =>
    let r (i : Nat) := fmaF ty rnd (elemF ty i (x.num false a l)) (elemF ty i (x.num false b l)) (elemF ty i (x.num false c l))
    if ty.w = 32 then r 0 else ⟨(r 0).bits + 2 ^ 16 * (r 1).bits, (r 0).fl ||| (r 1).fl⟩

def execFmin (h : Hdr) (d : VReg) (a b : VS) (ty : FTy) (ftz : Bool) (s : State) : Host.Outcome State Fault Refusal :=
  fForm (.fmin h d a b ty ftz) h s d 1 fun x l =>
    packed2 ty (fun p q => minmaxF ty ftz false p q) (x.num false a l) (x.num false b l)

def execFmax (h : Hdr) (d : VReg) (a b : VS) (ty : FTy) (ftz : Bool) (s : State) : Host.Outcome State Fault Refusal :=
  fForm (.fmax h d a b ty ftz) h s d 1 fun x l =>
    packed2 ty (fun p q => minmaxF ty ftz true p q) (x.num false a l) (x.num false b l)

def execFcmp (h : Hdr) (d : PReg) (a b : VS) (c : FCond) (ftz : Bool) (s : State) : Host.Outcome State Fault Refusal :=
  runTeam (.fcmp h d a b c ftz) h noNeed s fun x s =>
    let r (l : Nat) := cmpF c ftz (x.src.num false a l) (x.src.num false b l)
    predResult (.fcmp h d a b c ftz) x s d (maskOf (lanes x.adm) fun l => (r l).1)
      ((lanes x.adm).foldl (fun acc l => acc ||| (r l).2) 0)

def execFrcp (h : Hdr) (d : VReg) (a : VS) (rnd : Rnd) (s : State) : Host.Outcome State Fault Refusal :=
  fForm (.frcp h d a rnd) h s d 1 fun x l => rcpF rnd (x.num false a l)
def execFrsq (h : Hdr) (d : VReg) (a : VS) (rnd : Rnd) (s : State) : Host.Outcome State Fault Refusal :=
  fForm (.frsq h d a rnd) h s d 1 fun x l => rsqF rnd (x.num false a l)
def execFexp2 (h : Hdr) (d : VReg) (a : VS) (rnd : Rnd) (s : State) : Host.Outcome State Fault Refusal :=
  fForm (.fexp2 h d a rnd) h s d 1 fun x l => exp2F rnd.ftz (x.num false a l)
def execFlog2 (h : Hdr) (d : VReg) (a : VS) (rnd : Rnd) (s : State) : Host.Outcome State Fault Refusal :=
  fForm (.flog2 h d a rnd) h s d 1 fun x l => log2F rnd (x.num false a l)
def execFscos (h : Hdr) (d : VReg) (a : VS) (rnd : Rnd) (s : State) : Host.Outcome State Fault Refusal :=
  fForm (.fscos h d a rnd) h s d 2 fun x l => scosF rnd.ftz (x.num false a l)

/-- FCVT: element SEL of va, or the pair, into vd or the pair (R154). -/
def execFcvt (h : Hdr) (d : VReg) (a : VS) (src dst : NTy) (sel : Fin 4) (rnd : Rnd) (s : State) :
    Host.Outcome State Fault Refusal :=
  fForm (.fcvt h d a src dst sel rnd) h s d (ntN dst) fun x l =>
    cvtF src dst rnd (elem src.w sel.val (x.num (src.w == 64) a l))

def execFrnd (h : Hdr) (d : VReg) (a : VS) (ty : FTy) (rnd : Rnd) (s : State) : Host.Outcome State Fault Refusal :=
  fForm (.frnd h d a ty rnd) h s d 1 fun x l => packed2 ty (fun p _ => rndF ty rnd p) (x.num false a l) 0

def execFclass (h : Hdr) (d : VReg) (a : VS) (ty : FTy) (s : State) : Host.Outcome State Fault Refusal :=
  vForm (.fclass h d a ty) h s d 1 fun x l => classF ty (elem ty.w 0 (x.num false a l))

def execFdot2 (h : Hdr) (d : VReg) (a b c : VS) (ty : FTy) (rnd : Rnd) (s : State) : Host.Outcome State Fault Refusal :=
  fForm (.fdot2 h d a b c ty rnd) h s d 1 fun x l =>
    dot2F ty rnd (x.num false a l) (x.num false b l) (x.num false c l)

def execFcmul (h : Hdr) (d : VReg) (a b : VS) (ty : FTy) (rnd : Rnd) (s : State) : Host.Outcome State Fault Refusal :=
  fForm (.fcmul h d a b ty rnd) h s d (wideN (ty == .f32)) fun x l =>
    cmulF ty rnd (x.num (ty == .f32) a l) (x.num (ty == .f32) b l)

def execFbfly (h : Hdr) (d : VReg) (a b c : VS) (ty : FTy) (rnd : Rnd) (s : State) : Host.Outcome State Fault Refusal :=
  fForm (.fbfly h d a b c ty rnd) h s d (2 * wideN (ty == .f32)) fun x l =>
    bflyF ty rnd (x.num (ty == .f32) a l) (x.num (ty == .f32) b l) (x.num (ty == .f32) c l)

def execFtwid (h : Hdr) (d : VReg) (a b : VS) (rnd : Rnd) (s : State) : Host.Outcome State Fault Refusal :=
  fForm (.ftwid h d a b rnd) h s d 2 fun x l => twidF (x.num false a l) (x.num false b l)

end Sys2Proof.Machine
end

