-- ==== Sys2Proof/Machine/Place.lean ====
section
/-! DEFINITION. Placement: what a block takes of a core (R50, R82, R167 to R171, R209), dictionary banks (R27), the
state a placed block starts in (R46, R47, R83, R301, R321, R322), and the placement engine's events (R345 to R348). -/

namespace Sys2Proof.Machine

/-! What a core has left (R49, R50). -/

/-- Teams of a core. -/
def State.teamsOn (s : State) (core : Nat) : List Team :=
  s.teams.filterMap fun (t : Nat × Team) => if t.1 / 16 == core then some t.2 else none
/-- Blocks of a core. -/
def State.blocksOn (s : State) (core : Nat) : List (Nat × Block) := s.blocks.filter fun b => b.2.core == core

/-- Pocket bytes of one team: its lanes' areas and its stack area (R57, R167). -/
def Launch.pocketBytes (l : Launch) : Nat := l.width * l.pl + (l.depth - 16) * 288

/-- The slots a core has free (R52). -/
def State.freeSlots (s : State) (core : Nat) : List Nat := (List.range 16).filter fun k => (s.team? core k).isNone

/-- The cores of a cluster (R166). -/
def clusterCores (core : Nat) : List Nat := (List.range 4).map (clusterCore core)

/-- Whether a core, holding these teams and blocks, has all that n teams of a header need, its dictionary bank
apart (R49, R50). -/
def fitsIn (lend : Nat) (teams : List Team) (blocks : List Launch) (l : Launch) (n : Nat) : Bool :=
  teams.length + n ≤ 16 &&
  (teams.map Team.reservation).sum + n * ((l.nv + 4) * l.words) ≤ 4095 &&
  (teams.map fun t => t.hdr.pocketBytes).sum + n * l.pocketBytes ≤ 2 ^ 18 &&
  (blocks.map Launch.packBytes).sum + l.packBytes + lend * 4096 ≤ 2 ^ 20 &&
  (blocks.map Launch.nb).sum + l.nb ≤ 128 &&
  (l.mentry == 0 || blocks.all fun b => b.mentry == 0)

/-- The blocks of a gang that wait: each is a waiting gang of R346. -/
def Gang.waits (g : Gang) : Nat := if g.isRec then 1 else g.left

/-- Whether some block of a gang waits. -/
def State.gangWaits (s : State) (id : Nat) : Bool :=
  s.ctxs.any fun (c : Nat × Ctx) => c.2.pools.any fun (p : Nat × Pool) => p.2.gangs.any fun g => g.id == id

/-- The gang that has a core reserved (R348): a reservation ends with a gang that no longer waits. -/
def State.reservedFor (s : State) (core : Nat) : Option Nat := (s.core core).reserved.filter s.gangWaits

/-- Whether a core can take n teams of a header of a context, its dictionary bank apart: the resources, no other
gang's reservation (R348), and one context on a cluster that lends (R171). -/
def State.fits (s : State) (core ctx : Nat) (l : Launch) (n gang : Nat) : Bool :=
  fitsIn (s.core core).lend (s.teamsOn core) ((s.blocksOn core).map fun b => b.2.hdr) l n &&
  ((s.reservedFor core).isNone || s.reservedFor core == some gang) &&
  ((s.core core).lend == 0 ||
    (clusterCores core).all fun c => (s.teamsOn c).all (fun t => t.ctx == ctx) && (s.blocksOn c).all fun b => b.2.ctx == ctx)

/-! Dictionary banks (R27). -/

/-- The bank a header's parties may share: filled for its dictionary, after an invalidation at number since. -/
def Core.sharable (c : Core) (ctx : Nat) (l : Launch) (since : Nat) : Option Bank :=
  c.banks.find? fun b => b.ctx == ctx && b.dict == l.dict && b.dlen == l.dlen && since ≤ b.filled

/-- Whether a core has a bank for a header. -/
def State.hasBank (s : State) (core ctx : Nat) (l : Launch) (since : Nat) : Bool :=
  l.dict == 0 || ((s.core core).sharable ctx l since).isSome || decide ((s.core core).banks.length < 4)

/-- The number after which a bank must be filled: that of the gang, taken at its launch's invalidation (R27, R342). -/
def Gang.bankSince (g : Gang) : Nat := if g.hdr.icinv then g.id else 0

/-- The image of a dictionary; a word that cannot be read is a free value (log 5). -/
def State.dictWords (s : State) (ctx addr n : Nat) : List W64 :=
  (List.range n).map fun i =>
    match s.walk ctx (addr + 8 * i) with
    | .ok e => if e.r then BitVec.ofNat 64 (ofLe (s.homeRead (e.phys (addr + 8 * i)) 8)) else Config.freeWord (s.free + i)
    | _ => Config.freeWord (s.free + i)

/-- The header with its bank, which is taken and filled where none is shared (R27). -/
def State.takeBank (s : State) (core ctx : Nat) (l : Launch) (since : Nat) : State × Launch :=
  if l.dict = 0 then (s, { l with bank := 0 })
  else match (s.core core).sharable ctx l since with
    | some b => (s, { l with bank := b.filled })
    | none =>
      let b : Bank := ⟨ctx, l.dict, l.dlen, s.dictWords ctx l.dict l.dlen, s.seq⟩
      let s' := s.modCore core fun c => { c with banks := b :: c.banks }
      ({ s' with seq := s.seq + 1, free := s.free + l.dlen }, { l with bank := s.seq })

/-! The start of a block (R46, R47, R83, R321, R322). -/

/-- The work identifier of a lane of a grid block (R46). -/
def widOf (l : Launch) (ord team lane : Nat) : W64 :=
  let f (i : Nat) : Nat := l.f.getD i 0
  let part (below i : Nat) : Nat := ord / 2 ^ below % 2 ^ f i
  BitVec.ofNat 64 (lane + 2 ^ f 0 * (team + 2 ^ f 1 * (part 0 2 + 2 ^ f 2 * (part (f 2) 3 +
    2 ^ f 3 * (part (f 2 + f 3) 4 + 2 ^ f 4 * part (f 2 + f 3 + f 4) 5)))))

/-- s1 to s8 from the header (R340). -/
def argRegs (l : Launch) : Tbl W64 := (List.range 8).foldl (fun t k => Tbl.set 0 t (k + 1) (l.args.getD k 0)) []

/-- A team as it starts (R83). -/
def newTeam (uid ctx blk num : Nat) (l : Launch) (act : Mask) (wid arg : Tbl W64) (depth : Nat) (dom launch : Option Nat) : Team :=
  { uid := uid, ctx := ctx, blk := blk, num := num, hdr := l, pc := l.entry, atHdr := true, hdrAddr := 0, hdrWord := 0,
    act := act, stk := [], sreg := argRegs l, preg := [], vmap := [], view := [], qb := [], wid := wid, arg := arg,
    depth := depth, fstat := 0, check := l.check, shadows := [], wait := none, yield := [], frozen := none, gather := [],
    vers := [], relSeq := 0, dom := dom, launch := launch }

/-- A matrix stream as it starts. -/
def newRidge (uid ctx blk : Nat) (l : Launch) (depth : Nat) : Ridge :=
  { uid := uid, ctx := ctx, blk := blk, hdr := l, pc := l.mentry, atHdr := true, hdrAddr := 0, hdrWord := 0,
    sreg := argRegs l, preg := [], rstk := [], trap := none, check := l.check, shadows := [], wait := none, frozen := none,
    ended := false, depth := depth }

/-- The barriers of a block as they start (R209). -/
def newBars (l : Launch) (n : Nat) : Tbl Bar :=
  (List.range l.nb).map fun b => (b, ⟨BitVec.ofNat 12 (n + bit (l.mentry != 0)), 0, 0, false, 0, 0, false⟩)

/-- A block as it starts. -/
def newBlock (ctx core : Nat) (l : Launch) (ord : Nat) (isRec : Bool) (launch : Option Nat) (depth n since : Nat) : Block :=
  { ctx := ctx, core := core, hdr := l, ord := ord, isRec := isRec, launch := launch, bars := newBars l n, tiles := [],
    accs := [], outl := [], mma := [], arr := [], req := none, depth := depth, attn := none, since := since }

/-- The lanes of a record team's values, where they are not zero. -/
def laneTbl (rs : List PRec) (f : PRec → W64) : Tbl W64 :=
  (List.range rs.length).foldl (fun t i => match rs[i]? with | some r => Tbl.set 0 t i (f r) | none => t) []

/-- A team of a placed block takes a slot and performs an acquire (R301, R356); a counted one counts (R353). -/
def State.startTeam (s : State) (core slot : Nat) (t : Team) : State :=
  let s := s.setTeam core slot t
  let s := match t.dom with | some d => s.emberAdd t.ctx d (stackOf core) 1 | none => s
  s.selfInvalidate core

/-- A block of a gang starts on a core (R50). -/
def State.startBlock (s : State) (core ctx pool : Nat) (g : Gang) : State :=
  let (s, l) := s.takeBank core ctx g.hdr g.bankSince
  let blk := s.seq
  let n := if g.isRec then 1 else l.teams
  let depth := g.recs.foldl (fun d r => max d r.depth) 0
  let taker : Who := ⟨core, ctx, blk, blk + 1, 0, 0⟩
  let s := g.recs.foldl (fun s r => match r.watch with | some w => s.clearPend taker w.1 w.2 | none => s) { s with seq := blk + n + 2 }
  let s := s.setBlock blk (newBlock ctx core l (if g.isRec then pool else g.next) g.isRec g.launch depth n g.bankSince)
  let s := if l.mentry = 0 then s else s.setRidge core (newRidge (blk + n + 1) ctx blk l depth)
  let lanesOf (k : Nat) : Team :=
    if g.isRec then
      newTeam (blk + 1) ctx blk 0 l (maskOf (List.range (min g.recs.length l.width)) fun _ => true) (laneTbl g.recs PRec.wid)
        (laneTbl g.recs PRec.arg) depth g.dom g.launch
    else
      newTeam (blk + 1 + k) ctx blk k l (maskOf (List.range l.width) fun _ => true)
        ((List.range l.width).foldl (fun t i => Tbl.set 0 t i (widOf l g.next k i)) []) [] 0 g.dom g.launch
  let s := ((s.freeSlots core).take n).zip (List.range n) |>.foldl (fun s p => s.startTeam core p.1 (lanesOf p.2)) s
  if g.recs.any PRec.deep then
    match s.teamOf (blk + 1) with
    | some (q, t) => (s.bump .cascade (stackOf core) 1).takeTrap core (q % 16) t .cascade 0 l.entry
    | none => s
  else s

/-! Placement decisions (R346 to R348). -/

/-- A pool's effective priority (R347). -/
def Pool.level (p : Pool) : Nat := min (p.prio + p.raised) (max p.prio p.ceil)

/-- Whether a gang is offered to a stack (R346). -/
def Gang.offered (g : Gang) (stack : Nat) : Bool :=
  !g.isRec || g.offer || (match g.recs with | r :: _ => r.stack == stack | [] => true)

/-- The pools of a partition with a gang for a stack: (level, key, context, pool, gang). -/
def State.waiting (s : State) (part stack : Nat) : List (Nat × Nat × Nat × Nat × Gang) :=
  s.ctxs.flatMap fun (c : Nat × Ctx) =>
    if c.2.part != part then []
    else c.2.pools.filterMap fun (p : Nat × Pool) =>
      (p.2.gangs.find? fun g => g.offered stack).map fun g => (p.2.level, 256 * c.1 + p.1, c.1, p.1, g)

/-- The order in which a stack's engine serves the waiting pools: by level, and round-robin within a level from
the pool after the one served last there (R346). -/
def State.serveOrder (s : State) (stack : Nat) (ws : List (Nat × Nat × Nat × Nat × Gang)) : List (Nat × Nat × Nat × Nat × Gang) :=
  let after (w : Nat × Nat × Nat × Nat × Gang) : Bool :=
    match (s.stk stack).served.find w.1 with | some k => decide (k < w.2.1) | none => true
  let rank (w : Nat × Nat × Nat × Nat × Gang) : Nat := (bit (!after w)) * 2 ^ 64 + w.2.1
  sortBy (fun a b => decide (b.1 < a.1) || (a.1 == b.1 && decide (rank a ≤ rank b))) ws

/-- The cores of a stack that fit, best first: most free slots, then the lowest number (R346). -/
def State.coreOrder (s : State) (stack ctx : Nat) (l : Launch) (n gang : Nat) : List Nat :=
  sortBy (fun a b => decide ((s.freeSlots b).length < (s.freeSlots a).length) ||
      ((s.freeSlots a).length == (s.freeSlots b).length && decide (a ≤ b)))
    (((List.range 144).map fun k => 144 * stack + k).filter fun c => s.fits c ctx l n gang)

/-- The cores passed over for want of a bank, and the core taken (R27, R346). -/
def State.pickCore (s : State) (stack ctx : Nat) (g : Gang) : List Nat × Option Nat :=
  let order := s.coreOrder stack ctx g.hdr (if g.isRec then 1 else g.hdr.teams) g.id
  let lacks (c : Nat) : Bool := !s.hasBank c ctx g.hdr g.bankSince
  (order.takeWhile lacks, (order.dropWhile lacks).head?)

/-- A pool after a block of a gang has been placed: it returns to its base priority (R347). -/
def Pool.placed (p : Pool) (g : Gang) (now : Nat) : Pool :=
  let gangs := if g.left ≤ 1 then p.gangs.filter fun x => x.id != g.id
    else p.gangs.map fun x => if x.id == g.id then { x with next := x.next + 1, left := x.left - 1 } else x
  { p with gangs := gangs, raised := 0, since := now }

/-- The cores reserved for a gang. -/
def State.reservations (s : State) (gang : Nat) : List Nat := (s.cores.filter fun c => c.2.reserved == some gang).map Prod.fst

/-- A reservation ends where a block of the gang is placed (R348), and on the lowest of its cores for which no block of it waits any
more (DESIGN CHOICE, log 51: a block may be placed on a core that was not reserved for it). -/
def State.endReserves (s : State) (core : Nat) (g : Gang) : State :=
  let drop (s : State) (c : Nat) : State := s.modCore c fun c => { c with reserved := none }
  let s := drop s core
  let held := s.reservations g.id
  (held.take (held.length - (g.waits - 1))).foldl drop s

/-- Serves the waiting pools in order until one fits; cores passed over are counted once (R34). -/
def State.serve (s : State) (stack : Nat) (lacked : List Nat) : List (Nat × Nat × Nat × Nat × Gang) → State
  | [] => lacked.dedup.foldl (fun s c => s.bump .schDictwait c 1) s
  | (level, key, ctx, pool, g) :: rest =>
    match s.pickCore stack ctx g with
    | (lack, none) => s.serve stack (lacked ++ lack) rest
    | (lack, some core) =>
      let s := (lacked ++ lack).dedup.foldl (fun s c => s.bump .schDictwait c 1) s
      let s := s.modStk stack fun k => { k with served := k.served.put level key }
      let s := match (s.ctx ctx).pools.find pool with
        | some p => s.setPool ctx pool (p.placed g s.tick.toNat)
        | none => s
      let s := s.endReserves core g
      let part := s.partOf stack
      let s := if (s.partn part).holder.isSome then s
        else (s.modPart part fun p => { p with holder := some ctx }).modCtx ctx fun c => { c with sliceTick := s.tick.toNat }
      s.startBlock core ctx pool g

/-- PLACEMENT_DECISION (R346): one decision of the engine of a stack. -/
def execPlacementDecision (stack : Nat) (s : State) : Host.Outcome State Fault Refusal :=
  .next (if s.stacksN ≤ stack || (s.partn (s.partOf stack)).halting.isSome then s
    else s.serve stack [] (s.serveOrder stack (s.waiting (s.partOf stack) stack)))

/-- POOL_TIMER_LAPSE (R345). -/
def execPoolTimerLapse (ctx pool : Nat) (s : State) : Host.Outcome State Fault Refusal :=
  .next (match (s.ctx ctx).pools.find pool with
    | none => s
    | some p =>
      match p.recs with
      | [] => s
      | r :: _ =>
        if s.tick.toNat < r.tick + p.timer then s
        else (s.formOne ctx pool p (min p.recs.length p.hdr.width)).collected ctx pool)

/-- REMOTE_STACK_OFFER (R346): a gang of records that has waited 1 µs is offered to every stack. -/
def execRemoteStackOffer (gang : Nat) (s : State) : Host.Outcome State Fault Refusal :=
  let offer (g : Gang) : Gang :=
    if g.id == gang && g.isRec && decide (g.tick + 1000 ≤ s.tick.toNat) then { g with offer := true } else g
  let pool (p : Nat × Pool) : Nat × Pool := (p.1, { p.2 with gangs := p.2.gangs.map offer })
  let ctx (c : Nat × Ctx) : Nat × Ctx := (c.1, { c.2 with pools := c.2.pools.map pool })
  .next { s with ctxs := s.ctxs.map ctx }

/-- PRIORITY_AGING (R347, R349). -/
def execPriorityAging (ctx pool : Nat) (s : State) : Host.Outcome State Fault Refusal :=
  .next (match (s.ctx ctx).pools.find pool with
    | none => s
    | some p =>
      let age := max 1 (s.partn (s.ctx ctx).part).age.toNat * 1000
      if p.gangs.isEmpty || s.tick.toNat < p.since + age || p.ceil ≤ p.prio + p.raised then s
      else s.setPool ctx pool { p with raised := p.raised + 1, since := p.since + age })

/-! Pre-emption requests (R373) and reservations (R348). -/

/-- A request reaches a block; a second one changes nothing. -/
def State.request (s : State) (blk : Nat) : State :=
  s.modBlock blk fun b => if b.req.isSome then b else { b with req := some s.tick.toNat }

/-- Whether every waiting block of a gang has a reservation. -/
def State.hasReserve (s : State) (g : Gang) : Bool := decide (g.waits ≤ (s.reservations g.id).length)

/-- The gangs that may reserve a core of a stack, with their contexts (R348). -/
def State.oldGangs (s : State) (part stack : Nat) : List (Nat × Gang) :=
  s.ctxs.flatMap fun (c : Nat × Ctx) =>
    if c.2.part != part then []
    else c.2.pools.flatMap fun (p : Nat × Pool) => (p.2.gangs.filter fun g => g.offered stack &&
      decide (g.tick + (s.partn part).gangAge.toNat * 1000 < s.tick.toNat) && !s.hasReserve g).map fun g => (c.1, g)

/-- The core a gang reserves: one that it fits when empty, with the fewest occupied slots (R348). -/
def State.reserveCore (s : State) (stack : Nat) (g : Gang) : Option Nat :=
  let cs := ((List.range 144).map fun k => 144 * stack + k).filter fun c =>
    fitsIn (s.core c).lend [] [] g.hdr (if g.isRec then 1 else g.hdr.teams)
  (sortBy (fun a b => decide ((s.freeSlots b).length < (s.freeSlots a).length) ||
    ((s.freeSlots a).length == (s.freeSlots b).length && decide (a ≤ b))) cs).head?

/-- The oldest of the gangs that fits some core of a stack when that is empty, with the core it reserves (R348). -/
def State.reserveFor (s : State) (stack : Nat) (gs : List (Nat × Gang)) : Option (Gang × Nat) :=
  gs.findSome? fun g => (s.reserveCore stack g.2).map fun c => (g.2, c)

/-- GANG_RESERVE (R348). -/
def execGangReserve (stack : Nat) (s : State) : Host.Outcome State Fault Refusal :=
  let gs := sortBy (fun a b => decide (a.2.tick < b.2.tick) || (a.2.tick == b.2.tick && decide (a.2.id ≤ b.2.id)))
    (s.oldGangs (s.partOf stack) stack)
  let taken := s.cores.any fun c => stackOf c.1 == stack && (s.reservedFor c.1).isSome
  .next (if s.stacksN ≤ stack || taken || (s.partn (s.partOf stack)).halting.isSome then s
    else match s.reserveFor stack gs with
    | none => s
    | some (g, c) =>
      let s := (s.modCore c fun x => { x with reserved := some g.id }).bump .gangres stack 1
      (s.blocksOn c).foldl (fun s b => s.request b.1) s)

/-! What ends with parties (R353, R354, R356). -/

/-- Whether every store and atomic of some parties has been acknowledged. -/
def State.quiet (s : State) (uids : List Nat) : Bool := !(s.accs.any fun a => uids.contains a.uid && (!a.isRead || a.stage != 0))

/-- COUNTED_TEAM_DONE (R353). -/
def execCountedTeamDone (k : Nat) (s : State) : Host.Outcome State Fault Refusal :=
  .next (match s.ending[k]? with
    | none => s
    | some e =>
      if s.quiet [e.uid] && (s.partn (s.partOf e.stack)).halting.isNone then State.emberAdd { s with ending := s.ending.eraseIdx k } e.ctx e.dom e.stack (-1) else s)

/-- LAUNCH_SIGNAL_DECREMENT (R356, R383, R414): launch k is over; a partition whose line is up begins none (R369). -/
def execLaunchSignalDecrement (k : Nat) (s : State) : Host.Outcome State Fault Refusal :=
  .next (match s.launches.find k with
    | none => s
    | some r =>
      if r.left != 0 || !s.quiet r.uids || (s.partn r.part).halting.isSome then s
      else
        let s' := { s with launches := s.launches.del k }
        match r.signal with
        | none => s'
        | some a => s'.signal r.ctx r.part a)

/-- EMBERS_TOKEN_PASS (R354): a first pass that sums to zero notes it, a second one with no change between them
confirms. -/
def execEmbersTokenPass (ctx dom : Nat) (s : State) : Host.Outcome State Fault Refusal :=
  let x := s.ctx ctx
  let word := (x.qword.get 0 dom).toNat
  let addr := fld word 3 54 * 8
  let pass := x.emPass.get 0 dom
  .next (if fld word 63 1 = 0 || x.domCount dom != 0 || (s.partn x.part).halting.isSome || 16 ≤ dom then s
    else if pass = 0 then
      s.modCtx ctx fun c => { c with
        emPass := c.emPass.set 0 dom 1,
        embers := c.embers.map fun e => if e.1 / 8 == dom then (e.1, { e.2 with changed := false }) else e }
    else if pass = 1 then
      (let s := s.modCtx ctx fun c => { c with emPass := c.emPass.set 0 dom 2 }
       (s.unitUpd ctx addr false (.add 1)).getD s)
    else s)

end Sys2Proof.Machine
end

