-- ==== Sys2Proof/Machine/Save.lean ====
section
/-! DEFINITION. Time slices (R349), forced freezing (R376), the save of a block and its restore (R99, R185, R207, R374 to
R380). The content of a record is kept as data in the context; the record in memory has the header of R380 and the sections of
R377, whose bytes and lengths are free values (log 8). -/

namespace Sys2Proof.Machine

/-! Time slices (R349). -/

/-- Whether a context has a gang waiting, or a saved block to restore. -/
def State.wants (s : State) (ctx : Nat) : Bool :=
  (s.ctx ctx).pools.any (fun p => !p.2.gangs.isEmpty) || !(s.ctx ctx).saved.isEmpty

/-- The slice length of a context in ns, and whether it was lengthened to twice SCH_SWITCH (R349). -/
def State.sliceLen (s : State) (part ctx : Nat) : Nat × Bool :=
  let len := (s.ctx ctx).schSlice.toNat * 1000
  let least := 2 * (s.partn part).switch_.toNat
  if len < least then (least, true) else (len, false)

/-- The resident blocks of a context. -/
def State.residents (s : State) (ctx : Nat) : List Nat := s.blocks.filterMap fun (b : Nat × Block) => if b.2.ctx == ctx then some b.1 else none

/-- TIME_SLICE_END (R349, R373): the slice passes to another context with work. -/
def execTimeSliceEnd (part ctx next : Nat) (s : State) : Host.Outcome State Fault Refusal :=
  let (len, clamped) := s.sliceLen part ctx
  .next (if (s.partn part).holder != some ctx || next == ctx || (s.ctx next).part != part || !s.wants next ||
      (s.ctx ctx).dbgHalt || (s.partn part).halting.isSome || s.tick.toNat < (s.ctx ctx).sliceTick + len then s
    else
      let s := if clamped then s.bump .sliceClamp part 1 else s
      let s := (s.residents ctx).foldl State.request s
      (s.modPart part fun p => { p with holder := some next }).modCtx next fun c => { c with sliceTick := s.tick.toNat })

/-! Forced freezing (R376). -/

/-- A party frozen by force: all is saved. -/
def byForce : Freeze := ⟨none, BitVec.allOnes 8, true⟩

/-- Whether the grace period of 200 µs of a block's request is over; it does not run under a debugger halt. -/
def State.graceOver (s : State) (blk : Nat) : Bool :=
  match s.block? blk with
  | some b => (match b.req with
    | some t => t + 200000 ≤ s.tick.toNat && !(s.ctx b.ctx).dbgHalt
    | none => false)
  | none => false

/-- Whether a waiting team's message has been accepted: its push has acted and cannot be undone (R105, R274). -/
def State.pushed (s : State) (t : Team) : Bool :=
  match t.wait.map Wait.what with
  | some (.smov _ (.push q _)) => (t.bind q).kind == 1 && !(s.net.any fun f => f.uid == t.uid)
  | _ => false

/-- FORCED_FREEZE (R376): at an instruction boundary, which a push whose flit is accepted has yet to reach. -/
def execForcedFreeze (p : Party) (s : State) : Host.Outcome State Fault Refusal :=
  .next (match p with
    | .team c slot =>
      (match s.team? c slot with
       | some t => if t.frozen.isSome || !s.graceOver t.blk || s.pushed t then s else s.freezeTeam c slot t byForce
       | none => s)
    | .ridge c =>
      match s.ridge? c with
      | some r => if r.frozen.isSome || r.ended || !s.graceOver r.blk then s else s.freezeRidge c r byForce
      | none => s)

/-! What a save keeps (R99, R207, R374, R377). -/

/-- The teams of a block with their keys. -/
def State.blockTeams (s : State) (blk : Nat) : List (Nat × Team) := s.teams.filter fun t => t.2.blk == blk
/-- The matrix stream of a block, where it has not ended. -/
def State.blockRidge (s : State) (blk : Nat) : Option (Nat × Ridge) := s.ridges.find? fun r => r.2.blk == blk && !r.2.ended
/-- The uids of a block's parties. -/
def State.blockUids (s : State) (blk : Nat) : List Nat :=
  ((s.blockTeams blk).map fun t => t.2.uid) ++ (s.ridges.filterMap fun (r : Nat × Ridge) => if r.2.blk == blk then some r.2.uid else none)

/-- The uids of all parties a block has had here: its own, and its teams that have retired (R377, R383). -/
def State.blockPast (s : State) (blk : Nat) : List Nat :=
  s.blockUids blk ++ match s.block? blk with | some b => b.past | none => []

/-- Whether every party of a block has frozen or is gone (R375). -/
def State.allFrozen (s : State) (blk : Nat) : Bool :=
  (s.blockTeams blk).all (fun t => t.2.frozen.isSome) && (match s.blockRidge blk with | some r => r.2.frozen.isSome | none => true)

/-- Whether all that a save waits for is over (R377): accesses, engine operations and Strike commands of the block's parties, those
that have retired among them, plane steps and accumulator writes, ATTN, arrivals. -/
def State.drained (s : State) (blk : Nat) : Bool :=
  let uids := s.blockPast blk
  !(s.accs.any fun a => uids.contains a.uid) && !(s.ops.any fun o => uids.contains o.who.uid) &&
  s.stks.all (fun k => k.2.strikeQ.all (fun q => !uids.contains q.uid) &&
    (match k.2.strike with | some r => !uids.contains r.uid | none => true)) &&
  (match s.block? blk with
   | some b => b.mma.isEmpty && b.attn.isNone && b.arr.isEmpty
   | none => false)

/-- Whether a register is among those a frozen team keeps (R374): within its counts, and named. -/
def Team.keeps (t : Team) (k : Reg) : Bool :=
  t.hdr.has k &&
  match t.frozen.bind Freeze.live, k with
  | none, _ => true
  | some l, .v n => l.v.getLsbD n
  | some l, .s n => l.s.getLsbD (n / 16)
  | some l, .p n => l.p.getLsbD (n / 16)

/-- A team as its record holds it: the registers it keeps, its results written, its views unlisted. -/
def Team.toSave (t : Team) : Team :=
  { t with
    vmap := t.vmap.filter fun e => t.keeps (.v (e.1 / 32)), sreg := t.sreg.filter fun e => t.keeps (.s e.1),
    preg := t.preg.filter fun e => t.keeps (.p e.1), view := t.view.map fun e => (e.1, { e.2 with entry := none }),
    fstat := t.shadows.foldl (fun f x => if x.done then f else f ||| x.flags) t.fstat, shadows := [], yield := [] }

/-- Whether a party of a block was frozen by force (R376). -/
def State.anyForced (s : State) (blk : Nat) : Bool :=
  (s.blockTeams blk).any (fun t => match t.2.frozen with | some f => f.forced | none => false) ||
  (match s.blockRidge blk with | some r => (match r.2.frozen with | some f => f.forced | none => false) | none => false)

/-- The pack regions that a block's parties declare (R377). -/
def State.regions (s : State) (blk : Nat) : BitVec 8 :=
  let all := (s.blockTeams blk).foldl (fun m t => match t.2.frozen with | some f => m ||| f.pack | none => m) 0
  match s.blockRidge blk with
  | some r => (match r.2.frozen with | some f => all ||| f.pack | none => all)
  | none => all

/-- Whether a memory key is a block's pocket or pack. -/
def ownKey (blk : Nat) (uids : List Nat) (k : Nat) : Bool :=
  k / 2 ^ 90 == 2 * blk + 2 || uids.any fun u => k / 2 ^ 90 == 2 * u + 1

/-- Whether a key of a block's own is saved: pocket in full, pack in the regions declared (R168, R377). -/
def savedKey (blk : Nat) (alloc : Nat) (m : BitVec 8) (k : Nat) : Bool :=
  k / 2 ^ 90 != 2 * blk + 2 || (alloc != 0 && m.getLsbD (k % 2 ^ 90 * 8 / alloc))

/-- A block as its record holds it (R207). -/
def Block.toSave (b : Block) (forced : Bool) : Block :=
  let accs := b.accs.map fun (a : Nat × Acc) =>
    if a.2.dirty && (forced || a.2.use) then a else (a.1, { Acc.zero with use := a.2.use })
  let tiles := b.tiles.map fun (a : Nat × Tile) =>
    if a.2.dirty && (forced || a.2.use) then a else (a.1, { Tile.zero with use := a.2.use })
  { b with accs := accs, tiles := tiles, req := none, past := [] }

/-! Records in memory (R380). -/

/-- The header of a record: word 0x00 with VALID, then the rest. -/
def recordHead (valid : Bool) (nt len hdr ord nslice crc tick : Nat) (mstream forced : Bool) : List Byte :=
  [3 * 2 ^ 56 + bit valid * 2 ^ 55 + nt * 2 ^ 32 + len, hdr, ord, nslice * 2 ^ 32 + crc, tick, 2 * bit mstream + bit forced, 0, 0].flatMap (toLe 8)

/-- The first word of a saved block's record as memory holds it, where its page is mapped. -/
def State.recordWord (s : State) (ctx : Nat) (sv : Saved) : Option Nat :=
  match s.walk ctx sv.addr with
  | .ok e => some (ofLe (s.homeRead (e.phys sv.addr) 8))
  | _ => none

/-- Whether a saved block's record still has VALID = 1. -/
def State.recordValid (s : State) (ctx : Nat) (sv : Saved) : Bool :=
  sv.len != 0 && (match s.recordWord ctx sv with | some w => fld w 55 1 == 1 | none => true)

/-- Bytes of a record's section: open for each of the 13 that R377 lists, in that order (log 8). -/
def State.sectionLen (s : State) (i : Nat) : Nat := Config.freeNat (s.free + i) % 2 ^ 28
/-- The room of a section: its length word and its bytes, 64-aligned (R380). -/
def State.sectionRoom (s : State) (i : Nat) : Nat := cdiv (8 + s.sectionLen i) 64 * 64
/-- A section: its length, and bytes that are open (log 8). -/
def State.recordSection (s : State) (i : Nat) : List Byte :=
  toLe 8 (s.sectionLen i) ++ (List.range (s.sectionRoom i - 8)).map fun k => Config.freeByte (s.free + i) k
/-- Length of the record of a save: its header and its sections. -/
def State.recordLen (s : State) : Nat := 64 + ((List.range 13).map s.sectionRoom).sum
/-- Its body. -/
def State.recordBody (s : State) : List Byte := (List.range 13).flatMap s.recordSection

/-- The lowest offset of the save area at which a record fits (R380). -/
def State.savePlace (s : State) (ctx len : Nat) : Option Nat :=
  let x := s.ctx ctx
  if x.savBase = 0 || x.savSize = 0 then none
  else
    let live := x.saved.filter fun sv => s.recordValid ctx sv
    let ok (o : Nat) : Bool := o + len ≤ x.savSize.toNat && live.all fun sv => decide (o + len ≤ sv.off) || decide (sv.off + sv.len ≤ o)
    match sortBy (fun a b => decide (a ≤ b)) ((0 :: live.map fun sv => sv.off + sv.len).filter ok) with
    | [] => none
    | o :: _ =>
      if ((s.area (unitWho ctx) .glob (x.savBase + o) len false true).2).isSome then none else some o

/-- The content of a record written to its place, VALID last (R377, R380); the save engine's writes trigger nothing (R310). -/
def State.putSave (s : State) (ctx addr : Nat) (head : List Byte) : State :=
  s.putPieces ⟨ctx, 0, 0, s.pkg⟩ false (s.area (unitWho ctx) .glob addr s.recordLen false true).1 (head ++ s.recordBody)

/-! BLOCK_SAVE (R375 to R380). -/

/-- The parties of a block go on where no save begins (R379). -/
def State.thaw (s : State) (blk : Nat) : State :=
  let team (t : Nat × Team) : Nat × Team := if t.2.blk == blk then (t.1, { t.2 with frozen := none }) else t
  let ridge (r : Nat × Ridge) : Nat × Ridge := if r.2.blk == blk then (r.1, { r.2 with frozen := none }) else r
  { s with teams := s.teams.map team, ridges := s.ridges.map ridge }

/-- The slices that some saved teams name. -/
def namedSlices (teams : List Team) : List Nat := (teams.flatMap fun t => (t.vmap.map Prod.snd).filter (· != 0)).dedup

/-- Whether a save would read a slice with a parity error (R394). -/
def State.saveEcc (s : State) (blk : Nat) (b : Block) : Bool :=
  (namedSlices ((s.blockTeams blk).map fun t => t.2.toSave)).any (s.core b.core).badSlice

/-- What a save takes of a frozen block. -/
def State.takeSave (s : State) (blk : Nat) (b : Block) (off addr : Nat) : Saved :=
  let forced := s.anyForced blk
  let uids := s.blockUids blk
  let teams := (s.blockTeams blk).map fun t => t.2.toSave
  let core := s.core b.core
  let alone := !(s.blocks.any fun x => x.1 != blk && x.2.core == b.core && x.2.ctx == b.ctx)
  { off := off, len := s.recordLen, addr := addr, block := b.toSave forced, teams := teams,
    slices := (namedSlices teams).foldl (fun t n => t.put n (core.data n)) [],
    ridge := (s.blockRidge blk).map fun r => { r.2 with shadows := [] },
    cells := s.mem.filter fun c => ownKey blk uids c.1 && savedKey blk b.hdr.packBytes (s.regions blk) c.1,
    forced := forced, flits := if alone then core.rx.filter fun f => f.ctx == b.ctx else [], tick := s.tick.toNat }

/-- The yields of other teams wait for some teams no more (R75). -/
def State.unyield (s : State) (uids : List Nat) : State :=
  let team (t : Nat × Team) : Nat × Team := (t.1, { t.2 with yield := t.2.yield.filter fun u => !uids.contains u })
  { s with teams := s.teams.map team }

/-- A block and its parties leave the core with all they hold (R51, R99, R185). -/
def State.leave (s : State) (blk : Nat) (b : Block) (alone : Bool) : State :=
  let uids := s.blockUids blk
  let slots := (s.blockTeams blk).map fun t => t.1 % 16
  let s := slots.foldl (fun s k => s.killLoads b.core k) s
  let s := { s with
    teams := s.teams.filter fun t => t.2.blk != blk, ridges := s.ridges.filter fun r => r.2.blk != blk,
    blocks := s.blocks.del blk, mem := s.mem.filter fun c => !ownKey blk uids c.1 }
  let s := s.modCore b.core fun c => uids.foldl Core.dropOwners c
  let s := s.modCore b.core fun c => { c with rx := if alone then c.rx.filter fun f => f.ctx != b.ctx else c.rx }
  ((s.sweep b.core).dropBanks b.core).unyield uids

/-- Drops a block from the PREEMPT packets that wait for it (R335). -/
def State.uncover (s : State) (blk : Nat) : State :=
  let ticket (t : Nat × Ticket) : Nat × Ticket :=
    match t.2 with
    | .preempt c bs us sg => (t.1, .preempt c (bs.filter (· != blk)) us sg)
    | .copyh => t
  let part (p : Nat × Part) : Nat × Part := (p.1, { p.2 with tickets := p.2.tickets.map ticket })
  { s with parts := s.parts.map part }

/-- BLOCK_SAVE (R377, R379): block uid of a core; a slice with a parity error is an ECC fault of the save engine (R368, R394). -/
def execBlockSave (core uid : Nat) (s : State) : Host.Outcome State Fault Refusal :=
  .next (match s.block? uid with
    | none => s
    | some b =>
      let part := s.partOf (stackOf core)
      if b.core != core || b.req.isNone || !s.allFrozen uid || !s.drained uid || (s.partn part).halting.isSome then s
      else if s.saveEcc uid b then s.fatal part (616 + stackOf core) .ecc 0 0 0
      else match s.savePlace b.ctx s.recordLen with
        | none => (s.bump .savFull b.ctx 1).thaw uid
        | some off =>
          let addr := (s.ctx b.ctx).savBase + off
          let sv := s.takeSave uid b off addr
          let head := recordHead true sv.teams.length s.recordLen b.hdr.addr b.ord sv.slices.length (crcStd s.recordBody) sv.tick
            sv.ridge.isSome sv.forced
          let s := s.putSave b.ctx addr head
          let alone := !(s.blocks.any fun x => x.1 != uid && x.2.core == core && x.2.ctx == b.ctx)
          let hit (o : Saved) : Saved := if sv.off < o.off + o.len && o.off < sv.off + sv.len then { o with len := 0 } else o
          let s := ((s.leave uid b alone).uncover uid).modCtx b.ctx fun c => { c with saved := c.saved.map hit ++ [sv] }
          { s with free := s.free + 13 })

/-! BLOCK_RESTORE (R99, R378, R380). -/

/-- Whether a saved block's record may be restored (R378): VALID, a version the active firmware converts (R381), and its CRC. -/
def State.recordGood (s : State) (ctx : Nat) (sv : Saved) : Bool :=
  let (ps, f) := s.area (unitWho ctx) .glob sv.addr sv.len false false
  if sv.len = 0 || f.isSome then false
  else
    let b := s.getPieces ps
    let w := le64 b 0
    fld w 55 1 == 1 && s.fwOldest ≤ fld w 56 8 && fld w 56 8 ≤ 3 && le32 b 0x18 == crcStd (b.drop 64)

/-- VALID of a record is cleared (R378). -/
def State.clearValid (s : State) (ctx : Nat) (sv : Saved) : State :=
  match s.walk ctx sv.addr with
  | .ok e =>
    if sv.len = 0 then s
    else
      let w := ofLe (s.homeRead (e.phys sv.addr) 8)
      s.unitPut ⟨ctx, 0, 0, s.pkg⟩ (e.phys sv.addr) e.cls (toLe 8 (w - fld w 55 1 * 2 ^ 55)) false
  | _ => s

/-- Each distinct saved slice gets a new one (R99): the core, and new numbers by old. -/
def newSlices (teams : List Team) (c : Core) (sl : Tbl (BitVec 1024)) : Core × Tbl Nat :=
  sl.foldl (fun (a : Core × Tbl Nat) e =>
    let n := a.1.freeSlice
    let owner := (teams.find? fun t => t.vmap.any fun v => v.2 == e.1).map Team.uid
    ({ a.1 with phys := a.1.phys.put n ⟨e.2, owner.getD 0, false⟩ }, a.2.put e.1 n)) (c, [])

/-- A restored team in a slot: its map renumbered, its views listed anew (R99, R185). -/
def State.backTeam (s : State) (core slot : Nat) (ren : Tbl Nat) (l : Launch) (t : Team) : State :=
  let t := { t with vmap := t.vmap.map fun e => (e.1, if e.2 = 0 then 0 else ren.get 0 e.2), hdr := l, frozen := none, view := [] }
  let s := (s.setTeam core slot t).killLoads core slot
  s

/-- The views of a restored team are listed as though set again (R185), in register order and teams in order: which stay
unlisted where the directory runs short is so decided (DESIGN CHOICE, log 47). -/
def State.backViews (s : State) (core slot : Nat) (t : Team) : State :=
  t.view.foldl (fun s e =>
    let (s, v) := if e.2.valid then s.listView (t.who core) e.1 e.2 else (s, e.2)
    s.modTeam core slot fun t => { t with view := t.view.put e.1 v }) s

/-- A saved block goes on on a core (R378). -/
def State.putBack (s : State) (core : Nat) (sv : Saved) : State :=
  let b := sv.block
  let depth := sv.teams.foldl (fun d t => max d t.depth) 0
  let (s, l) := s.takeBank core b.ctx b.hdr b.since
  let (c, ren) := newSlices sv.teams (s.core core) sv.slices
  let blk := match sv.teams, sv.ridge with | t :: _, _ => t.blk | [], some r => r.blk | [], none => 0
  let s := sv.cells.foldl (fun s c => s.memWrite c.1 [c.2]) (s.setCore core c)
  let s := s.setBlock blk { b with core := core, hdr := l, depth := depth }
  let s := match sv.ridge with
    | some r => s.setRidge core { r with hdr := l, frozen := none, depth := depth }
    | none => s
  let s := ((s.freeSlots core).zip sv.teams).foldl (fun s p => (s.backTeam core p.1 ren l p.2).backViews core p.1 p.2) s
  { s with net := sv.flits.map (fun f => { f with dst := core, uid := 0 }) ++ s.net }

/-- The save engine reads a record (R292, R378). -/
def State.readRecord (s : State) (ctx : Nat) (sv : Saved) : State :=
  s.readPieces (s.area (unitWho ctx) .glob sv.addr sv.len false false).1

/-- The save engine reads a record whose data carry an uncorrectable error (R368, R394). -/
def State.recordEcc (s : State) (ctx core : Nat) (sv : Saved) : Option State :=
  let ps := (s.area (unitWho ctx) .glob sv.addr sv.len false false).1
  if s.badPieces ps then
    some ((s.noteBad ps).fatal (s.partOf (stackOf core)) (616 + stackOf core) .ecc 0 0 (BitVec.ofNat 64 sv.addr))
  else none

/-- BLOCK_RESTORE (R378): saved block k of a context, on a core of its partition; a bad record is refused. A block stays saved while
its context is under a debugger halt (R379). The time that SCH_SWITCH takes is open (log 5). -/
def execBlockRestore (ctx k core : Nat) (s : State) : Host.Outcome State Fault Refusal :=
  let part := (s.ctx ctx).part
  .next (match (s.ctx ctx).saved[k]? with
    | none => s
    | some sv =>
      let gone (s : State) : State := s.modCtx ctx fun c => { c with saved := c.saved.eraseIdx k }
      if s.partOf (stackOf core) != part || s.coresN ≤ core || (s.partn part).halting.isSome || (s.ctx ctx).dbgHalt then s
      else match s.recordEcc ctx core sv with
      | some s => s
      | none =>
      if !s.recordGood ctx sv then gone (((s.readRecord ctx sv).bump .savErr ctx 1).clearValid ctx sv)
      else
        let l := sv.block.hdr
        if !s.fits core ctx l sv.teams.length 0 || !s.hasBank core ctx l sv.block.since then s
        else
          let s := (gone ((s.readRecord ctx sv).putBack core sv)).clearValid ctx sv
          let s := s.modPart part fun p => { p with
            switch_ := BitVec.ofNat 32 (Config.freeNat s.free), holder := some (p.holder.getD ctx) }
          s.tickFree)

end Sys2Proof.Machine
end

