-- ==== Sys2Proof/Machine/HaltEvents.lean ====
section
/-! DEFINITION. The partition halt (R368 to R372), WATCHDOG (R368, R390, R399), the partition reset (R319, R372, R384), debugger halts
(R382), CAMP_LEND (R171) and MEM_TLBINV (R96, R290). -/

namespace Sys2Proof.Machine

/-! Parts of a partition. -/

/-- The stacks of a partition (R332). -/
def State.stacksOf (s : State) (part : Nat) : List Nat := (List.range s.stacksN).filter fun k => s.partOf k == part

/-- The units of a stack (R370); the 9440 has no hash-gather engine (R3). -/
def unitsOfStack (gather : Bool) (k : Nat) : List Nat :=
  (List.range 144).map (fun n => 144 * k + n) ++ (List.range 8).map (fun e => 576 + 8 * k + e) ++ [608 + k] ++
  (if gather then [612 + k] else []) ++ [616 + k, 620 + k, 624 + k, 628 + k, 632 + k] ++ (List.range 144).map fun n => 640 + 144 * k + n

/-- The units of a partition. -/
def State.unitsOf (s : State) (part : Nat) : List Nat := (s.stacksOf part).flatMap (unitsOfStack s.hasGather)

/-- Whether a context belongs to a partition. -/
def State.isOf (s : State) (part ctx : Nat) : Bool := (s.ctx ctx).part == part

/-! The halt (R369 to R372). -/

/-- Records and pending bits of a partition's contexts are discarded (R319, R369). -/
def State.dropTriggers (s : State) (part : Nat) : State :=
  let slice (k : Nat × Slice) : Nat × Slice :=
    (k.1, { k.2 with ondie := k.2.ondie.filter (fun r => !s.isOf part r.ctx), ring := k.2.ring.filter (fun r => !s.isOf part r.ctx) })
  let pool (p : Nat × Pool) : Nat × Pool := (p.1, { p.2 with recs := [], gangs := p.2.gangs.filter fun g => !g.isRec })
  let ctx (c : Nat × Ctx) : Nat × Ctx := if c.2.part == part then (c.1, { c.2 with pools := c.2.pools.map pool }) else c
  { s with slices := s.slices.map slice, ctxs := s.ctxs.map ctx, ors := s.ors.filter fun o => !s.isOf part o.ctx }

/-- PARTITION_HALT (R369): parties and units have stopped; what engines held stays as it stands for their records. -/
def execPartitionHalt (part : Nat) (s : State) : Host.Outcome State Fault Refusal :=
  .next (match (s.partn part).halting with
    | none => s
    | some h =>
      if h.stopped then s
      else s.modPart part fun p => { p with halting := some { h with stopped := true, tick := s.tick } })

/-- The drain of a halt is over: DONE (R369, R370). -/
def State.haltDone (s : State) (part : Nat) : State := (s.dropTriggers part).modPart part fun p => { p with done := true }

/-- STOP_RECORD_WRITE (R370 to R372): a unit writes its record, and DONE is set once every record is acknowledged; without an area
the end of the drain sets it. -/
def execStopRecordWrite (part unit : Nat) (s : State) : Host.Outcome State Fault Refusal :=
  .next (match (s.partn part).halting with
    | none => s
    | some h =>
      if !h.stopped || (s.partn part).done then s
      else if !s.recordArea part then s.haltDone part
      else if !(s.unitsOf part).contains unit then s
      else
        let written := if h.written.contains unit then h.written else unit :: h.written
        let s := if h.written.contains unit then s
          else (s.putRecord none part unit h.tick (h.faults.find? fun f => f.unit == unit)).modPart part fun p =>
            { p with halting := some { h with written := written } }
        if (s.unitsOf part).all (fun u => written.contains u) && !s.recording none part then s.haltDone part else s)

/-! WATCHDOG (R368, R390, R399). -/

/-- Whether a forced save of a block on a stack has not completed 1 ms after its grace period, or the save engine has made no
progress for 1 ms on one whose parties have all frozen (R368; that the time counts from the last freeze is a DESIGN CHOICE,
log 50). -/
def State.saveLate (s : State) (stack : Nat) : Bool :=
  s.blocks.any fun b => stackOf b.2.core == stack && (match b.2.req with
    | some t => (s.anyForced b.1 && !(s.ctx b.2.ctx).dbgHalt && decide (t + 1200000 ≤ s.tick.toNat)) ||
        (s.allFrozen b.1 && decide (b.2.froze + 1000000 ≤ s.tick.toNat))
    | none => false)

/-- Whether a die has stayed at its thermal limit for 1 s. -/
def State.dieHot (s : State) (die : Nat) : Bool :=
  match s.thermal.find die with | some t => t + 1000000000 ≤ s.tick.toNat | none => false

/-- Whether every Ngazon port has failed while the partition has unacknowledged remote writes (R390). -/
def State.cutOff (s : State) (part : Nat) : Bool :=
  (List.range 18).all (fun k => (s.ports.get Port.zero k).state == 3) &&
  s.accs.any fun a => a.pkgSeq.isSome && !a.isRead && s.isOf part a.ctx

/-- WATCHDOG: raised by the save engine of a stack, or by any unit of a partition whose die is too hot or that is cut
off. -/
def execWatchdog (part unit : Nat) (s : State) : Host.Outcome State Fault Refusal :=
  let late := 616 ≤ unit && unit < 620 && s.saveLate (unit - 616)
  let hot := (s.stacksOf part).any s.dieHot
  .next (if (s.unitsOf part).contains unit && (late || hot || s.cutOff part) then s.fatal part unit .watchdog 0 0 0 else s)

/-! The reset of a partition (R319, R372, R384). -/

/-- A context is destroyed: its parties, accesses, records, launches and what the units hold for it. -/
def State.destroy (s : State) (ctx : Nat) : State :=
  let core (c : Nat × Core) : Nat × Core := (c.1, { c.2 with
    banks := c.2.banks.filter (fun b => b.ctx != ctx), icache := c.2.icache.filter (fun l => l.ctx != ctx),
    tlb := c.2.tlb.filter (fun e => e.ctx != ctx), rx := c.2.rx.filter (fun f => f.ctx != ctx) })
  let stk (k : Nat × Stack) : Nat × Stack := (k.1, { k.2 with
    icache := k.2.icache.filter (fun l => l.ctx != ctx), strikeQ := k.2.strikeQ.filter (fun q => q.ctx != ctx),
    strike := match k.2.strike with | some r => if r.ctx == ctx then none else some r | none => none })
  let slice (k : Nat × Slice) : Nat × Slice :=
    (k.1, { k.2 with ondie := k.2.ondie.filter (fun r => r.ctx != ctx), ring := k.2.ring.filter (fun r => r.ctx != ctx) })
  let gone := ((s.teams.filter fun t => t.2.ctx == ctx).map fun t => (t.1 / 16, t.2.uid)) ++
    (s.ridges.filter fun r => r.2.ctx == ctx).map fun r => (r.1, r.2.uid)
  let s := { s with
    teams := s.teams.filter (fun t => t.2.ctx != ctx), ridges := s.ridges.filter (fun r => r.2.ctx != ctx),
    blocks := s.blocks.filter (fun b => b.2.ctx != ctx), accs := s.accs.filter (fun a => a.ctx != ctx),
    ops := s.ops.filter (fun o => o.who.ctx != ctx), ors := s.ors.filter (fun o => o.ctx != ctx),
    walks := s.walks.filter (fun w => w.ctx != ctx), net := s.net.filter (fun f => f.ctx != ctx),
    launches := s.launches.filter (fun l => l.2.ctx != ctx), ending := s.ending.filter (fun e => e.ctx != ctx),
    cores := s.cores.map core, stks := s.stks.map stk, slices := s.slices.map slice, ctxs := s.ctxs.del ctx }
  gone.foldl (fun s g => (s.modCore g.1 fun c => c.dropOwners g.2).sweep g.1) s

/-- PARTITION_RESET (R372, R384): a write of 1 to HLT_STATUS.DONE while DONE is 1. -/
def execPartitionReset (part : Nat) (s : State) : Host.Outcome State Fault Refusal :=
  .next (if !(s.partn part).done then s
    else
      let s := ((s.ctxs.filter fun c => c.2.part == part).map Prod.fst).foldl State.destroy s
      let stks := s.stks.map fun (k : Nat × Stack) => if s.partOf k.1 == part then (k.1, Stack.zero) else k
      let cores := s.cores.map fun (c : Nat × Core) =>
        if s.partOf (stackOf c.1) == part then
          (c.1, { Core.zero with phys := c.2.phys, vtb := c.2.vtb, lend := c.2.lend, l1 := c.2.l1, own := c.2.own }) else c
      State.modPart { s with stks := stks, cores := cores } part fun p => { p with
        cause := 0, done := false, halting := none, queues := [], lanes := [], lastQ := 127, todo := [], tickets := [], holder := none })

/-! Debugger halts (R382). -/

/-- DEBUGGER_HALT: 1 is written to DBG_CTL.HALT. -/
def execDebuggerHalt (ctx : Nat) (quiesce : Bool) (s : State) : Host.Outcome State Fault Refusal := .next (s.debugHalt ctx quiesce)

/-- HALT falls: parties go on, and slices and grace periods that were paused run on, each by the time for which it was paused (R376,
R382). -/
def State.debugResume (s : State) (ctx : Nat) : State :=
  let x := s.ctx ctx
  if !x.dbgHalt then s
  else
    let block (b : Nat × Block) : Nat × Block :=
      if b.2.ctx == ctx then (b.1, { b.2 with req := b.2.req.map fun t => t + (s.tick.toNat - max t x.dbgTick) }) else b
    let op (o : Op) : Op := if o.who.ctx == ctx then { o with stop := false } else o
    { s with blocks := s.blocks.map block, ops := s.ops.map op }.modCtx ctx fun c => { c with
      dbgHalt := false, dbgFrozen := false, sliceTick := c.sliceTick + (s.tick.toNat - max c.sliceTick x.dbgTick) }

/-- DEBUGGER_RESUME: 0 is written to DBG_CTL.HALT. -/
def execDebuggerResume (ctx : Nat) (s : State) : Host.Outcome State Fault Refusal := .next (s.debugResume ctx)

/-! CAMP_LEND (R171). -/

/-- CAMP_LEND_WRITE: for all four cores of the cluster, where none holds a team or a stream. -/
def execCampLendWrite (core pieces : Nat) (s : State) : Host.Outcome State Fault Refusal :=
  let cs := clusterCores core
  let idle := cs.all fun c => (s.teamsOn c).isEmpty && !(s.ridges.any fun r => r.1 == c && !r.2.ended)
  .next (if 128 < pieces || !idle || s.coresN ≤ core then s else cs.foldl (fun s c => s.modCore c fun x => { x with lend := pieces }) s)

/-! MEM_TLBINV (R290, R291). -/

/-- The span that a write with ALL = 0 names. -/
def tlbSpan (v : W64) : Nat × Nat :=
  let lg := match fld v.toNat 5 2 with | 0 => 16 | 1 => 21 | _ => 30
  (fld v.toNat 16 41 * 65536 / 2 ^ lg * 2 ^ lg, 2 ^ lg)

/-- Whether a cached translation of a context meets a span. -/
def TlbE.within (e : TlbE) (ctx lo len : Nat) : Bool := e.ctx == ctx && decide (lo < e.va + 2 ^ e.lg) && decide (e.va < lo + len)

/-- The slots of a core that hold teams of a context. -/
def State.slotsOf (s : State) (ctx core : Nat) : List Nat :=
  s.teams.filterMap fun (t : Nat × Team) => if t.2.ctx == ctx && t.1 / 16 == core then some (t.1 % 16) else none

/-- Every TLB drops the entries of a context that meet a span; the load entries of the context's teams are killed, in one event of
each core (R96). -/
def State.tlbDrop (s : State) (ctx lo len : Nat) : State :=
  let core (c : Nat × Core) : Nat × Core := (c.1, { c.2 with tlb := c.2.tlb.filter fun e => !e.within ctx lo len })
  let cs := (s.teams.filterMap fun (t : Nat × Team) => if t.2.ctx == ctx then some (t.1 / 16) else none).dedup
  cs.foldl (fun s c => s.killSlots c (s.slotsOf ctx c)) { s with cores := s.cores.map core }

/-- What has used a matching translation and is yet to be performed (R290): accesses of the context in the span, or in a page that a
TLB drops, those of its units, which have no TLB, and operations with writes to make. -/
def State.tlbUsers (s : State) (ctx lo len : Nat) : List Nat :=
  let pages := (lo, len) :: s.cores.flatMap fun (c : Nat × Core) =>
    (c.2.tlb.filter fun e => e.within ctx lo len).map fun e => (e.va, 2 ^ e.lg)
  (s.accs.filter fun a => a.ctx == ctx && a.global && a.stage == 0 &&
    (a.ofUnit || pages.any fun p => decide (p.1 ≤ a.va) && decide (a.va < p.1 + p.2))).map Access.id ++
  (s.ops.filter fun o => o.who.ctx == ctx && !o.todo.isEmpty).map Op.id ++
  s.stks.filterMap fun (k : Nat × Stack) => k.2.strike.bind fun r => if r.ctx == ctx && !r.todo.isEmpty then some r.id else none

/-- Whether some of these are still to be performed: an access, or a write that an operation or a Strike command has translated and
yet to make. -/
def State.tlbUsed (s : State) (ids : List Nat) : Bool :=
  (s.accs.any fun a => ids.contains a.id && a.stage == 0) ||
  (s.ops.any fun o => ids.contains o.id && (!o.todo.isEmpty || s.outstanding o.id)) ||
  s.stks.any fun (k : Nat × Stack) => k.2.strike.any fun r => ids.contains r.id && (!r.todo.isEmpty || s.outstanding r.id)

/-- A write to MEM_TLBINV starts, where none is busy. -/
def State.tlbStart (s : State) (ctx lo len : Nat) (v : W64) : State :=
  if (s.ctx ctx).tlbBusy.isSome then s
  else (s.tlbDrop ctx lo len).modCtx ctx fun c => { c with tlbReg := v &&& 0x01FFFFFFFFFF00E0, tlbBusy := some (s.tlbUsers ctx lo len) }

/-- TLBINV_SPAN: a write with ALL = 0. -/
def execTlbinvSpan (ctx : Nat) (v : W64) (s : State) : Host.Outcome State Fault Refusal :=
  .next (if v.getLsbD 7 then s else s.tlbStart ctx (tlbSpan v).1 (tlbSpan v).2 v)

/-- TLBINV_ALL: a write with ALL = 1. -/
def execTlbinvAll (ctx : Nat) (v : W64) (s : State) : Host.Outcome State Fault Refusal :=
  .next (if v.getLsbD 7 then s.tlbStart ctx 0 (2 ^ 57) v else s)

/-- TLBINV_COMPLETE: the accesses that used the entries have been performed (R290). -/
def execTlbinvComplete (ctx : Nat) (s : State) : Host.Outcome State Fault Refusal :=
  .next (match (s.ctx ctx).tlbBusy with
    | none => s
    | some ids =>
      if s.tlbUsed ids then s else s.modCtx ctx fun c => { c with tlbBusy := none })

end Sys2Proof.Machine
end

