-- ==== Sys2Proof/Machine/FrontEnd.lean ====
section
/-! DEFINITION. Host queues, the Jisoette and the packets (R333 to R339, R343). A step of the Jisoette is as many events as
lanes execute in it: the queues that have still to execute in the present step stand in the partition (R337). -/

namespace Sys2Proof.Machine

/-! Queues (R333, R334). -/

def Part.queue (p : Part) (q : Nat) : Queue := p.queues.get Queue.zero q
def State.queue (s : State) (part q : Nat) : Queue := (s.partn part).queue q
def State.modQueue (s : State) (part q : Nat) (f : Queue → Queue) : State :=
  s.modPart part fun p => { p with queues := p.queues.put q (f (p.queue q)) }

/-- The lane that holds a queue: BOUND (R333). -/
def Part.laneOf (p : Part) (q : Nat) : Option Nat := (p.lanes.find? fun l => l.2 == q).map Prod.fst
/-- Frees the lane that holds a queue, which thus leaves the present step (R337). -/
def Part.free (p : Part) (q : Nat) : Part := { p with lanes := p.lanes.filter fun l => l.2 != q, todo := p.todo.filter (· != q) }

/-- A queue with a pending packet. -/
def Queue.pending (x : Queue) : Bool := x.rd != x.wr

/-- What a queue's registers make of it: a WR that runs more than the ring's size ahead of RD sets ERR 2 and clears EN (R333), and
a queue that is not parsed, or has no pending packet, holds no lane (R337). -/
def State.checkQueue (s : State) (part q : Nat) : State :=
  let x := s.queue part q
  let s := if 2 ^ x.logn < (x.wr - x.rd).toNat then s.modQueue part q fun x => { x with err := 2, en := false } else s
  let x := s.queue part q
  if x.en && x.pending then s else s.modPart part (Part.free · q)

/-- HOST_QUEUE_DOORBELL (R333, R339). -/
def execHostQueueDoorbell (part q : Nat) (wr : W32) (s : State) : Host.Outcome State Fault Refusal :=
  .next (if 128 ≤ q then s else (s.modQueue part q fun x => { x with wr := wr, parked := false }).checkQueue part q)

/-- HOST_QUEUE_ENABLE (R333, R334): a write of SCH_QCTL. A context comes into being with its first queue (log 18). -/
def execHostQueueEnable (part q : Nat) (v : W64) (s : State) : Host.Outcome State Fault Refusal :=
  let ctx := fld v.toNat 32 10
  let ver := fld v.toNat 28 4
  let logn := fld v.toNat 16 5
  let en := v.getLsbD 0 && ver != 0 && decide (4 ≤ logn) && decide (logn ≤ 16)
  .next (if 128 ≤ q then s
    else
      let s := (s.modQueue part q fun x => { x with ctx := ctx, ver := if en then min ver 2 else ver, logn := logn, en := en }).checkQueue part q
      if !en || (s.ctx ctx).created then s else s.modCtx ctx fun c => { c with created := true, part := part })

/-- JISOETTE_LANE_BIND (R336): a free lane takes the next queue, round-robin after the one bound last. -/
def execJisoetteLaneBind (part lane : Nat) (s : State) : Host.Outcome State Fault Refusal :=
  let p := s.partn part
  let order := (List.range 128).map fun i => (p.lastQ + 1 + i) % 128
  .next (if 32 ≤ lane || (p.lanes.find lane).isSome || p.halting.isSome then s
    else match order.find? fun q => (p.queue q).en && !(p.queue q).parked && (p.queue q).pending && (p.laneOf q).isNone with
    | none => s
    | some q => s.modPart part fun p => { p with lanes := p.lanes.put lane q, lastQ := q })

/-! Packets (R335). -/

/-- Packet types, highest first (R337); other stands for an OP that is not assigned, or a packet that cannot be read. -/
inductive Pkt where
  | haltq | preempt | setsig | waitsig | watch | unwatch | poolcfg | launch | copyh | nop | other
deriving DecidableEq, Repr

def Pkt.rank : Pkt → Nat
  | .haltq => 0 | .preempt => 1 | .setsig => 2 | .waitsig => 3 | .watch => 4 | .unwatch => 5 | .poolcfg => 6
  | .launch => 7 | .copyh => 8 | .nop => 9 | .other => 9

/-- OP values (R335). -/
def pktOf : Nat → Pkt
  | 0 => .nop | 1 => .haltq | 2 => .preempt | 3 => .setsig | 4 => .waitsig | 5 => .watch | 6 => .unwatch
  | 7 => .poolcfg | 8 => .launch | 9 => .copyh | _ => .other

/-- Words a type names; the others must be zero. -/
def Pkt.words : Pkt → Nat
  | .haltq | .nop | .other => 0 | .preempt => 1 | .setsig | .unwatch | .launch => 2 | .waitsig | .watch => 3
  | .poolcfg | .copyh => 4

/-- The packet at RD of a queue: its words, where its page can be read (R333). -/
def State.packetAt (s : State) (part q : Nat) : Option (List Nat) :=
  let x := s.queue part q
  let (ps, f) := s.area (unitWho x.ctx) .glob (x.base * 64 + 64 * (x.rd.toNat % 2 ^ x.logn)) 64 true false
  if f.isSome then none else some ((List.range 8).map fun i => le64 (s.getPieces ps) (8 * i))

def pktWord (p : Option (List Nat)) (i : Nat) : Nat := (p.getD []).getD i 0
def pktType (p : Option (List Nat)) : Pkt := match p with | some l => pktOf (fld (l.getD 0 0) 56 8) | none => .other

/-- Whether a field that a packet's type does not name is not zero. -/
def pktBad (p : Option (List Nat)) : Bool :=
  fld (pktWord p 0) 0 55 != 0 || (List.range 7).any fun i => (pktType p).words ≤ i && pktWord p (i + 1) != 0

/-- An 8-aligned word at an address that a unit can reach with these permissions (R335). -/
def State.wordOk (s : State) (ctx a : Nat) (r w : Bool) : Bool :=
  a % 8 == 0 && (match s.byteAt (unitWho ctx) .glob 0 a r w with | .ok _ _ => true | _ => false)

/-- A signal address or 0 that a decrement can reach. -/
def State.signalOk (s : State) (ctx a : Nat) : Bool := a == 0 || s.wordOk ctx a true true

/-- How the condition of a WAITSIG stands (R335, R339). -/
inductive Sig where
  | holds | no | unmapped | bad
deriving DecidableEq, Repr

def State.sigOf (s : State) (ctx : Nat) (p : Option (List Nat)) : Sig :=
  let a := pktWord p 1
  if pktBad p || 4 ≤ pktWord p 3 || a % 8 != 0 then .bad
  else match s.byteAt (unitWho ctx) .glob 0 a true false with
    | .unmapped => .unmapped
    | .prot => .bad
    | .ok k _ =>
      let v := sgn 64 (ofLe (s.homeRead k 8))
      let c := sgn 64 (pktWord p 2)
      let ok : Bool := match pktWord p 3 with | 0 => decide (v = c) | 1 => decide (v ≠ c) | 2 => decide (v < c) | _ => decide (c ≤ v)
      if ok then .holds else .no

/-- Whether a started packet has yet to complete (R338): it is tracked, or a write of it is still to be performed. -/
def State.open_ (s : State) (part id : Nat) : Bool := ((s.partn part).tickets.find id).isSome || s.outstanding id

/-- Whether a queue's packet takes part in the order of a step (R337): its lane presents it, a BARRIER does not hold it, and a
WAITSIG that has executed once has its condition. -/
def State.presents (s : State) (part q : Nat) : Bool :=
  let p := s.partn part
  let x := p.queue q
  let k := s.packetAt part q
  (p.laneOf q).isSome && x.en && !x.parked && x.pending && (fld (pktWord k 0) 55 1 == 0 || !x.open_.any (s.open_ part)) &&
  !(pktType k == .waitsig && x.waited && s.sigOf x.ctx k == .no)

/-- The queues that execute in the present step: those still to do, else those whose type stands highest (R337). -/
def State.stepQueues (s : State) (part : Nat) : List Nat :=
  let p := s.partn part
  let left := p.todo.filter (s.presents part)
  if !left.isEmpty then left
  else
    let qs := (p.lanes.map Prod.snd).filter (s.presents part)
    let rank (q : Nat) : Nat := (pktType (s.packetAt part q)).rank
    qs.filter fun q => qs.all fun o => rank q ≤ rank o

/-- How a packet ends that executes. -/
inductive PktRes where
  /-- An error: RD stays and EN falls. -/
  | err (n : Nat)
  /-- It starts, RD advances; the ticket of what is to complete later. -/
  | ok (s : State) (ticket : Option Nat)
  /-- It stays at RD. -/
  | stay (s : State)

/-- A packet of a type executes at its queue, if this step has it execute (R335, R337). -/
def State.packetStep (s : State) (part q : Nat) (k : Pkt) (run : Option (List Nat) → Nat → State → PktRes) : State :=
  let todo := s.stepQueues part
  let pkt := s.packetAt part q
  if (s.partn part).halting.isSome || !todo.contains q || (pktType pkt != k && !(k == .nop && pktType pkt == .other)) then s
  else
    let s := s.modPart part fun p => { p with todo := todo.filter (· != q) }
    let x := s.queue part q
    let fail (n : Nat) : State :=
      (s.modQueue part q fun x => { x with err := n, en := false }).modPart part (Part.free · q)
    if pktType pkt = .other then fail (if pkt.isSome then 1 else 2)
    else if pktBad pkt then fail 2
    else match run pkt x.ctx s with
    | .err n => fail n
    | .stay s => s
    | .ok s t =>
      let s := s.modQueue part q fun x => { x with rd := x.rd + 1, waited := false, open_ := t.toList ++ x.open_.filter (s.open_ part) }
      s.checkQueue part q

/-- NOP_PACKET; an unassigned type, and a packet that cannot be read, err at this place of the order (log 18). -/
def execNopPacket (part q : Nat) (s : State) : Host.Outcome State Fault Refusal :=
  .next (s.packetStep part q .nop fun _ _ s => .ok s none)

/-- HALTQ. -/
def execHaltq (part q : Nat) (s : State) : Host.Outcome State Fault Refusal :=
  .next (s.packetStep part q .haltq fun _ _ s => .ok (s.modQueue part q fun x => { x with en := false }) none)

/-- PREEMPT: a request to every block of the context that is resident now (R335, R373). -/
def execPreempt (part q : Nat) (s : State) : Host.Outcome State Fault Refusal :=
  .next (s.packetStep part q .preempt fun k ctx s =>
    let sg := pktWord k 1
    if !s.signalOk ctx sg then .err 2
    else
      let bs := s.residents ctx
      let uids := bs.flatMap s.blockPast
      let id := s.seq
      let s := bs.foldl State.request s.tickSeq
      .ok (s.modPart part fun p => { p with tickets := p.tickets.put id (.preempt ctx bs uids (if sg = 0 then none else some sg)) }) (some id))

/-- PREEMPT_COMPLETE (R335, R383, R414): packet k's blocks are saved or have retired. -/
def execPreemptComplete (k : Nat) (s : State) : Host.Outcome State Fault Refusal :=
  .next (match s.parts.find? fun p => (p.2.tickets.find k).isSome with
    | none => s
    | some (part, p) =>
      match p.tickets.find k with
      | some (.preempt ctx bs uids sg) =>
        if bs.any (fun b => (s.block? b).isSome) || !s.quiet uids || p.halting.isSome then s
        else
          let s' := s.modPart part fun p => { p with tickets := p.tickets.del k }
          (match sg with
           | none => s'
           | some a => s'.signal ctx part a k)
      | _ => s)

/-- SETSIG: a release store. -/
def execSetsig (part q : Nat) (s : State) : Host.Outcome State Fault Refusal :=
  .next (s.packetStep part q .setsig fun k ctx s =>
    let a := pktWord k 1
    if !s.wordOk ctx a false true then .err 2
    else match s.tickSeq.unitUpd ctx a false (.put (pktWord k 2)) s.seq with
      | some s' => .ok s' (some s.seq)
      | none => .err 2)

/-- WAITSIG (R335, R337, R339): an unmapped page parks the queue; one that has executed before stays one that has. -/
def execWaitsig (part q : Nat) (s : State) : Host.Outcome State Fault Refusal :=
  .next (s.packetStep part q .waitsig fun k ctx s =>
    match s.sigOf ctx k with
    | .bad => .err 2
    | .unmapped => .stay ((s.modQueue part q fun x => { x with parked := true }).modPart part (Part.free · q))
    | .holds => .ok s none
    | .no => .stay (s.modQueue part q fun x => { x with waited := true }))

/-- A packet that sets or removes a watch: its status is written where the operation reports one (R335). -/
def watchPkt (ctx a : Nat) (s : State) (r : WatchRes) : PktRes :=
  if !s.wordOk ctx a false true then .err 2
  else match r with
    | .trap _ => .err 2
    | .status s' n =>
      match s'.tickSeq.unitUpd ctx a false (.put n) s'.seq with
      | some s => .ok s (some s'.seq)
      | none => .err 2

/-- WATCH_PACKET. -/
def execWatchPacket (part q : Nat) (s : State) : Host.Outcome State Fault Refusal :=
  .next (s.packetStep part q .watch fun k ctx s =>
    watchPkt ctx (pktWord k 3) s (s.setWatch (unitWho ctx) (pktWord k 1) (pktWord k 2)))

/-- UNWATCH_PACKET. -/
def execUnwatchPacket (part q : Nat) (s : State) : Host.Outcome State Fault Refusal :=
  .next (s.packetStep part q .unwatch fun k ctx s =>
    watchPkt ctx (pktWord k 2) s (s.unsetWatch ctx (pktWord k 1)))

/-- Whether the parameters of a POOLCFG are out of range (R343). -/
def poolBad (n param timer : Nat) : Bool :=
  255 < n || fld param 32 32 != 0 || fld param 15 1 != 0 || fld param 7 1 != 0 || fld param 16 4 == 0 || fld param 8 7 < fld param 0 7 ||
  2 ^ 32 ≤ timer

/-- POOLCFG (R334, R343). -/
def execPoolcfg (part q : Nat) (s : State) : Host.Outcome State Fault Refusal :=
  .next (s.packetStep part q .poolcfg fun k ctx s =>
    let n := pktWord k 1
    let param := pktWord k 3
    if poolBad n param (pktWord k 4) then .err 2
    else if (s.queue part q).ver = 1 && (fld param 20 1 = 1 || fld param 31 1 = 1) then .err 3
    else match s.checkHeader (unitWho ctx) (pktWord k 2) false with
      | .ok l =>
        if l.teams != 1 then .err 2
        else
          let old := (s.ctx ctx).pools.find n
          let p : Pool := match old with
            | some p => { p with hdr := l, param := BitVec.ofNat 64 param, timer := pktWord k 4 }
            | none => ⟨l, BitVec.ofNat 64 param, pktWord k 4, [], [], 0, s.tick.toNat⟩
          .ok ((s.setPool ctx n p).collected ctx n) none
      | _ => .err 2)

/-- LAUNCH_PACKET (R335, R356). -/
def execLaunchPacket (part q : Nat) (s : State) : Host.Outcome State Fault Refusal :=
  .next (s.packetStep part q .launch fun k ctx s =>
    let sg := pktWord k 2
    if !s.signalOk ctx sg then .err 2
    else
      let (s, st) := s.launchGrid (unitWho ctx) part (pktWord k 1) (if sg = 0 then none else some sg)
      if st = 0 then .ok s none else .err 2)

/-- COPYH: the copy runs in ENGINE_COMPLETE and then decrements the signal (R335). -/
def execCopyh (part q : Nat) (s : State) : Host.Outcome State Fault Refusal :=
  .next (s.packetStep part q .copyh fun k ctx s =>
    let w := unitWho ctx
    let n := pktWord k 3
    let sg := pktWord k 4
    if ((s.area w .glob (pktWord k 1) n true false).2).isSome || ((s.area w .glob (pktWord k 2) n false true).2).isSome || !s.signalOk ctx sg then .err 2
    else
      let id := s.seq
      let o : Op := { id := id, kind := .copyh (pktWord k 1) (pktWord k 2) n (if sg = 0 then none else some sg) part id, who := w,
                      depth := 0, fork := id, ring := 0, slot := 0, reads := none, writes := none, ents := [], stop := false }
      let s := { s with ops := s.ops ++ [o] }.tickSeq
      .ok (s.modPart part fun p => { p with tickets := p.tickets.put id .copyh }) (some id))

end Sys2Proof.Machine
end

