-- ==== Sys2Proof/Machine/HostPort.lean ====
section
/-! DEFINITION. The host port (R385, R386), Ngazon packets and ports (R302, R323, R388 to R391), time synchronisation
(R392, R393), firmware, attestation and power (R381, R396, R399), reset (R393) and writes of memory-mapped registers (R7). -/

namespace Sys2Proof.Machine

/-! Host accesses (R385). -/

/-- Pieces of an area of physical memory as (key, class, length); accesses from outside any team use class 0 (log 31). -/
def physPieces (pa len : Nat) : List (Nat × Nat × Nat) := (piecesOf pa len).map fun p => (p.1, 0, p.2)

/-- Whether every byte of an area is device memory of this package. -/
def State.ours (s : State) (pa len : Nat) : Bool :=
  (piecesOf pa len).all fun p => s.local_ p.1 && s.reach p.1 && s.reach (p.1 + p.2 - 1)

/-- Who writes from outside every context: at a depth, from a package (R315, R320, R323). -/
def outside (depth src : Nat) : Unit_ := ⟨noCtx, 0, depth, src⟩

/-- HOST_WRITE: at depth 0, with this package as its source (R315, R320). -/
def execHostWrite (pa : Nat) (bytes : List Byte) (s : State) : Host.Outcome State Fault Refusal :=
  .next (if !s.hostUp || !s.ours pa bytes.length then s
    else s.putPieces (outside 0 s.pkg) true (physPieces pa bytes.length) bytes)

/-- HOST_READ: the bytes stand in hostData; an uncorrectable error answers none. -/
def execHostRead (pa len : Nat) (s : State) : Host.Outcome State Fault Refusal :=
  let ps := physPieces pa len
  .next (if !s.hostUp || !s.ours pa len then s
    else { (s.readPieces ps).noteBad ps with hostData := if s.badPieces ps then [] else s.getPieces ps })

/-! Packets of other packages (R302, R323, R389). -/

/-- How a sequence number stands to those a source's packets have shown, newest first: whether it is to be performed, and the
numbers kept then. -/
def seqNext (seen : List Nat) (n : Nat) : Option (List Nat) :=
  match seen with
  | [] => some [n]
  | h :: t =>
    let ahead := (n + 2 ^ 32 - h) % 2 ^ 32
    if ahead = 0 then none
    else if ahead < 2 ^ 31 then some (n :: (h :: t).filter fun x => decide ((n + 2 ^ 32 - x) % 2 ^ 32 < 65536))
    else if (h + 2 ^ 32 - n) % 2 ^ 32 < 65536 && !t.contains n then some (h :: n :: t)
    else none

/-- What a packet asks is performed at its home, or waits there (R317); an atomic on data with an uncorrectable error writes
nothing. -/
def State.remote (s : State) (src depth : Nat) : RemoteOp → State
  | .write pa bs => s.putPieces (outside depth src) true (physPieces pa bs.length) bs
  | .atomic pa size sx ft op b c =>
    let n := size.bytes
    let w := 8 * n
    let s := s.corrected pa
    if s.eccBad pa then s.noteEcc pa
    else s.changeAt (outside depth src) (.atomic op ft.val sx b c) pa 0
      (toLe n (atomNew op ft.val sx w (ofLe (s.memRead pa n)) (b.toNat % 2 ^ w) (c.toNat % 2 ^ w)))
  | .read pa len => let ps := physPieces pa len; (s.readPieces ps).noteBad ps

/-- Where a packet's access lies. -/
def remotePlace : RemoteOp → Nat × Nat
  | .write pa bs => (pa, bs.length)
  | .atomic pa size _ _ _ _ _ => (pa, size.bytes)
  | .read pa len => (pa, len)

/-- Whether an atomic's address is not a multiple of its size: no package sends one (R188). -/
def remoteBad : RemoteOp → Bool
  | .atomic pa size _ _ _ _ _ => pa % size.bytes != 0
  | _ => false

/-- REMOTE_PACKET_RECEIVE: each number of a source is performed at most once (R389). -/
def execRemotePacketReceive (src seq depth : Nat) (op : RemoteOp) (s : State) : Host.Outcome State Fault Refusal :=
  let (pa, len) := remotePlace op
  .next (if s.portsUp.isEmpty || remoteBad op || src == s.pkg || 288 ≤ src || 31 < depth || 2 ^ 32 ≤ seq || !s.ours pa len then s
    else match seqNext (s.window.get [] src) seq with
      | none => s
      | some seen => { s.remote src depth op with window := s.window.put src seen })

/-! Ports (R388, R390, R391). -/

def State.port (s : State) (k : Nat) : Port := s.ports.get Port.zero k
def State.modPort (s : State) (k : Nat) (f : Port → Port) : State :=
  if k < 18 then { s with ports := s.ports.put k (f (s.port k)) } else s

/-- A port goes down as a failure takes it: FAILED, and what was sent on it and is not acknowledged goes over other ports
(R390, R391). -/
def State.portDown (s : State) (k : Nat) : State :=
  if k < 18 then (s.modPort k fun p => { p with state := 3, ver := 0, fails := 0 }).resend k else s

/-- FLIT_REPLAY: on a link that is up a flit fails, for the first time or again, and the flits from it on are replayed out of the
512 kept; a flit whose 16th replay in a row fails brings the link down (R388). -/
def execFlitReplay (port : Nat) (n : Replay) (s : State) : Host.Outcome State Fault Refusal :=
  let fails := if n.again && (s.port port).fails != 0 then (s.port port).fails + 1 else 1
  .next (if (s.port port).state != 2 || n.flits = 0 || 512 < n.flits then s
    else if 16 < fails then s.portDown port
    else s.modPort port fun p => { p with replay := p.replay + BitVec.ofNat 32 n.flits, fails := fails })

/-- LINK_FAILURE: the lanes have lost lock for 10 µs (R388); packets that are not acknowledged go over other paths (R390). -/
def execLinkFailure (port : Nat) (s : State) : Host.Outcome State Fault Refusal :=
  .next (if (s.port port).state != 2 then s else s.portDown port)

/-- LINK_TRAINING: the lower of the two versions, and the sizes of the packages the link reaches (R283, R391). -/
def execLinkTraining (port partner : Nat) (sizes : List (Nat × Nat × Nat)) (s : State) : Host.Outcome State Fault Refusal :=
  let x := s.port port
  .next (if 18 ≤ port || !x.en || (x.state != 0 && x.state != 1) then s
    else if partner = 0 then s.portDown port
    else
      let near := sizes.filter fun z => decide (z.1 < 288) && z.1 != s.pkg
      { s.modPort port fun p => { p with state := 2, ver := BitVec.ofNat 8 (min 2 partner) } with
        peers := near.foldl (fun t z => t.put z.1 z.2) s.peers })

/-- A write of EN (R391): 0 takes a port down as a failure does, 1 has a failed port train again, for new packets only. -/
def State.portEn (s : State) (k : Nat) (en : Bool) : State :=
  if en then s.modPort k fun p => { p with en := true, state := if p.state == 3 then 1 else p.state }
  else (s.modPort k fun p => { p with en := false }).portDown k

/-- PORT_DISABLE: EN = 0 (R391). -/
def execPortDisable (port : Nat) (s : State) : Host.Outcome State Fault Refusal := .next (s.portEn port false)

/-- PORT_RETRAIN: EN = 1 (R391). -/
def execPortRetrain (port : Nat) (s : State) : Host.Outcome State Fault Refusal := .next (s.portEn port true)

/-! Time (R392, R393). -/

/-- TIME_SYNC: the count of the master, where it is reached; the offset is own count less the master's (log 32). -/
def execTimeSync (count : W64) (reached : Bool) (s : State) : Host.Outcome State Fault Refusal :=
  .next (if s.master then { s with timeSync := true }
    else if !reached || s.portsUp.isEmpty then { s with timeSync := false }
    else
      let off := sgn 64 ((s.tick.toNat + 2 ^ 64 - count.toNat) % 2 ^ 64)
      { s with timeOff := BitVec.ofInt 32 off, slew := off, timeSync := decide (off.natAbs ≤ 20) })

/-! Power, firmware, attestation (R381, R396, R399). -/

/-- THERMAL_LIMIT: a die reaches its limit, or leaves it. Withheld cycles change no result. -/
def execThermalLimit (die : Nat) (atLimit : Bool) (s : State) : Host.Outcome State Fault Refusal :=
  .next (if s.stacksN ≤ die then s
    else if !atLimit then { s with thermal := s.thermal.del die }
    else if (s.thermal.find die).isSome then s
    else { s with thermal := s.thermal.put die s.tick.toNat })

/-- The layout version of a saved block's record; the model's own where its page is unmapped. -/
def State.recordVer (s : State) (ctx : Nat) (sv : Saved) : Nat := match s.recordWord ctx sv with | some w => fld w 56 8 | none => 3

/-- The lowest version among the VALID records of every context (R381). -/
def State.savOldest (s : State) : Nat :=
  (s.ctxs.flatMap fun (c : Nat × Ctx) => (c.2.saved.filter (s.recordValid c.1)).map (s.recordVer c.1)).foldl min 3

/-- FW_ACTIVATE: GO is written 1; oldest is the oldest layout version the image converts (R381), sigOk what the check of its
signature against the vendor's root key finds (R396). -/
def execFwActivate (sigOk : Bool) (oldest : Nat) (image : List Byte) (s : State) : Host.Outcome State Fault Refusal :=
  .next (if s.savOldest < oldest then { s with fwStatus := 1, fwGo := false }
    else if !sigOk then { s with fwStatus := 2, fwGo := false }
    else { s with fwStatus := 0, fwGo := false, firmware := image, fwOldest := oldest })

/-- SAV_VER (R381). -/
def State.savVer (s : State) : W64 := BitVec.ofNat 64 (s.savOldest * 256 + 3)

/-- A signature: 7,856 bytes that are free values, for the identity key is not the manual's (R396, log 19). -/
def State.signature (s : State) : List Byte := (List.range 7856).map fun i => Config.freeByte s.free i

/-- ATTEST_REQUEST (R396). -/
def execAttestRequest (nonce : List Byte) (s : State) : Host.Outcome State Fault Refusal :=
  .next (if nonce.length != 32 then s
    else { s with reports := s.reports ++ [({ nonce := nonce, image := sha256 s.firmware, feat := s.devFeat, sav := s.savVer, sig := s.signature } : Report)] }.tickFree)

/-! Reset and the ports of memory and host (R385, R386, R393). -/

/-- HBM4E of a part in units of 64 KiB (R6, R291). -/
def hbmOf : PartNo → Nat
  | .p9440 => 5859375
  | _ => 11718750

/-- POWER_ON_RESET: caps are the bytes of the expanders that train on the memory ports; a package that is not the master
takes the master's count. -/
def execPowerOnReset (caps : List Nat) (master : Bool) (count : W64) (s : State) : Host.Outcome State Fault Refusal :=
  let caps := match s.part with | .p9440 => [] | _ => caps.take 8
  let ports := (List.range caps.length).zip caps |>.filter fun c => c.2 != 0
  let parts := s.parts.map fun (p : Nat × Part) => (p.1, { Part.zero with first := p.2.first, count := p.2.count })
  .next { State.reset with
    part := s.part, pkg := s.pkg, bcSize := s.bcSize, memHbm := hbmOf s.part, memT2 := caps.foldl (· + ·) 0 / 2 ^ 30,
    cxlPorts := ports, parts := parts, spillBase := s.spillBase, firmware := s.firmware, fwOldest := s.fwOldest,
    rootKey := s.rootKey, master := master,
    timeSync := master, tick := if master then 0 else count, booted := true,
    agenda := s.agenda, seq := s.seq, free := s.free }

/-- MEMORY_PORT_LOSS: T2 keeps its capacity; lines it homes raise ECC (R386, R394). -/
def execMemoryPortLoss (port : Nat) (s : State) : Host.Outcome State Fault Refusal :=
  .next (if (s.cxlPorts.find port).isSome then { s with cxlLost := s.cxlLost.put port true } else s)

/-- HOST_PORT_TRAINING (R385). -/
def execHostPortTraining (cxl : Bool) (rate width : Nat) (s : State) : Host.Outcome State Fault Refusal :=
  .next { s with hostUp := true, hostCxl := cxl, hostRate := min 128 rate, hostWidth := min 16 width }

/-! Register writes (R7). -/

/-- The counter a register name stands for. -/
def regCtr : RegName → Option Ctr
  | .schSlip => some .schSlip | .schDictwait => some .schDictwait | .schStkspill => some .schStkspill
  | .vtbLook => some .vtbLook | .vtbHit => some .vtbHit | .vtbKill => some .vtbKill | .vtbPerr => some .vtbPerr
  | .schSlicewait => some .schSlicewait | .cmpWait => some .cmpWait | .cmpFull => some .cmpFull
  | .mmxPlanecyc => some .planecyc | .mmxMmacnt => some .mmacnt | .mmxBarwait => some .barwait
  | .memTlbmiss => some .tlbmiss | .memReissue => some .reissue | .stkEvict => some .stkEvict
  | .stkNofree => some .stkNofree | .stkDrain => some .stkDrain | .cpyBytes => some .cpyBytes
  | .cpyRingfull => some .cpyRingfull | .hgeFetch => some .hgeFetch | .hgeReplay => some .hgeReplay
  | .memWalks => some .walks | .memWalkjoin => some .walkjoin | .memMerge => some .merge
  | .memCompsave => some .compsave | .trgFire => some .fire | .trgCoal => some .coal | .trgSilent => some .silent
  | .trgSpill => some .spill | .trgHold => some .hold | .trgCascade => some .cascade | .schGangres => some .gangres
  | .schSliceclamp => some .sliceClamp | .devCecnt => some .cecnt | .savFull => some .savFull | .savErr => some .savErr
  | .memClass _ | .trgSpillbase | .devPcap | .ngzReplay _ | .ngzTime | .schAge | .schGangage | .hltRecbase | .bcampCtx
  | .tdescBase | .memPtroot | .schSlice | .schTrhbase | .schRuckbase | .schQword _ | .trpVec | .trpMvec | .savBase
  | .savSize | .dbgCtl | .schQbase | .readOnly => none

/-- MEM_CLASS n (R292): a write of the reserved policy 11 leaves WPOL. -/
def ClassReg.write (c : ClassReg) (v : W64) : ClassReg :=
  let n := v.toNat
  { c with comp := v.getLsbD 20, age := BitVec.ofNat 2 (fld n 18 2), ways := BitVec.ofNat 16 (fld n 0 16),
           wpol := if fld n 16 2 = 3 then c.wpol else BitVec.ofNat 2 (fld n 16 2) }

/-- HI and LO of BCAMP_CTX accept values up to 64 (R172); a field written a larger one keeps what it holds (DESIGN CHOICE, log 47). -/
def upTo64 (v old : Nat) : Nat := if 64 < v then old else v

/-- A register of a context, or of the package, that is no counter. -/
def State.writeReg (s : State) (r : RegName) (index : Nat) (v : W64) : State :=
  let n := v.toNat
  match r with
  | .memClass k => { s with classes := s.classes.put k.val ((s.classes.get ClassReg.zero k.val).write v) }
  | .trgSpillbase => { s with spillBase := fld n 20 36 * 2 ^ 20 }
  | .devPcap => if 1000 ≤ n && n ≤ 2800 then { s with pcap := v } else s
  | .ngzReplay k => (s.modPort k.val fun p => { p with replay := BitVec.ofNat 32 (fld n 32 32) }).portEn k.val (v.getLsbD 0)
  | .ngzTime => { s with master := v.getLsbD 0, timeSync := v.getLsbD 0 || s.timeSync, slew := if v.getLsbD 0 then 0 else s.slew }
  | .schAge => s.modPart index fun p => { p with age := BitVec.ofNat 32 n }
  | .schGangage => s.modPart index fun p => { p with gangAge := BitVec.ofNat 32 n }
  | .hltRecbase => s.modPart index fun p => { p with recBase := fld n 17 39 * 2 ^ 17 }
  | .bcampCtx => s.modCtx index fun c => { c with bcHi := upTo64 (fld n 8 7) c.bcHi, bcLo := upTo64 (fld n 0 7) c.bcLo }
  | .tdescBase => s.modCtx index fun c => { c with tdescBase := fld n 16 41 * 2 ^ 16 }
  | .memPtroot => s.modCtx index fun c => { c with ptroot := fld n 12 44 }
  | .schSlice => s.modCtx index fun c => { c with schSlice := BitVec.ofNat 32 n }
  | .schTrhbase => s.modCtx index fun c => { c with trhBase := fld n 16 41 * 2 ^ 16 }
  | .schRuckbase => s.modCtx index fun c => { c with ruckBase := fld n 16 41 * 2 ^ 16 }
  | .schQword k => s.modCtx index fun c => { c with qword := c.qword.put k.val (v &&& 0x81FFFFFFFFFFFFF8) }
  | .trpVec => s.modCtx index fun c => { c with illh := v.getLsbD 63, trpVec := fld n 0 57 }
  | .trpMvec => s.modCtx index fun c => { c with trpMvec := fld n 0 57 }
  | .savBase => s.modCtx index fun c => { c with savBase := fld n 16 41 * 2 ^ 16 }
  | .savSize => s.modCtx index fun c => { c with savSize := v }
  | .dbgCtl =>
    let s := s.modCtx index fun c => { c with dbgBkfreeze := v.getLsbD 2, dbgQuiesce := v.getLsbD 1 }
    if v.getLsbD 0 then s.debugHalt index (v.getLsbD 1) else s.debugResume index
  | .schQbase => s.modQueue (index / 128) (index % 128) fun x => { x with base := fld n 6 51 }
  | _ => s

/-- REGISTER_WRITE: a counter takes its count; another register its writable fields; a read-only one keeps what it holds.
index is the core, stack, context or partition of the register's instance; of a queue, 128 times the partition and its
number. -/
def execRegisterWrite (r : RegName) (index : Nat) (v : W64) (s : State) : Host.Outcome State Fault Refusal :=
  .next (match regCtr r with
    | some c => if index < 65536 then s.setCount c index v.toNat else s
    | none => s.writeReg r index v)

end Sys2Proof.Machine
end

