-- ==== Sys2Proof/Machine/Dispatch.lean ====
section
/-! DEFINITION. One arm per constructor of Instr. -/

namespace Sys2Proof.Machine

def exec (i : Instr) (s : State) : Host.Outcome State Fault Refusal :=
  match i with
  | .nop h => Sys2Proof.Machine.execNop h s
  | .bra h off => Sys2Proof.Machine.execBra h off s
  | .ball h t neg off => Sys2Proof.Machine.execBall h t neg off s
  | .bany h t neg off => Sys2Proof.Machine.execBany h t neg off s
  | .jmps h r => Sys2Proof.Machine.execJmps h r s
  | .call h tgt => Sys2Proof.Machine.execCall h tgt s
  | .ret h => Sys2Proof.Machine.execRet h s
  | .reconv h => Sys2Proof.Machine.execReconv h s
  | .brk h lvl => Sys2Proof.Machine.execBrk h lvl s
  | .exit h => Sys2Proof.Machine.execExit h s
  | .refill h q wt off => Sys2Proof.Machine.execRefill h q wt off s
  | .elect h d => Sys2Proof.Machine.execElect h d s
  | .endlead h => Sys2Proof.Machine.execEndlead h s
  | .phint h d sg pg pk => Sys2Proof.Machine.execPhint h d sg pg pk s
  | .yield h => Sys2Proof.Machine.execYield h s
  | .pset h d imm => Sys2Proof.Machine.execPset h d imm s
  | .plop h d a b c tbl => Sys2Proof.Machine.execPlop h d a b c tbl s
  | .pmov h f => Sys2Proof.Machine.execPmov h f s
  | .pcnt h d a => Sys2Proof.Machine.execPcnt h d a s
  | .pfirst h d a => Sys2Proof.Machine.execPfirst h d a s
  | .sadd h d a b ty sat => Sys2Proof.Machine.execSadd h d a b ty sat s
  | .vadd h d a b ty sat => Sys2Proof.Machine.execVadd h d a b ty sat s
  | .ssub h d a b ty sat => Sys2Proof.Machine.execSsub h d a b ty sat s
  | .vsub h d a b ty sat => Sys2Proof.Machine.execVsub h d a b ty sat s
  | .smul h d a b ty => Sys2Proof.Machine.execSmul h d a b ty s
  | .vmul h d a b ty => Sys2Proof.Machine.execVmul h d a b ty s
  | .smulh h d a b ty => Sys2Proof.Machine.execSmulh h d a b ty s
  | .vmulh h d a b ty => Sys2Proof.Machine.execVmulh h d a b ty s
  | .smad h d a b c ty => Sys2Proof.Machine.execSmad h d a b c ty s
  | .vmad h d a b c ty => Sys2Proof.Machine.execVmad h d a b c ty s
  | .sand h d a b ty => Sys2Proof.Machine.execSand h d a b ty s
  | .vand h d a b ty => Sys2Proof.Machine.execVand h d a b ty s
  | .sor h d a b ty => Sys2Proof.Machine.execSor h d a b ty s
  | .vor h d a b ty => Sys2Proof.Machine.execVor h d a b ty s
  | .sxor h d a b ty => Sys2Proof.Machine.execSxor h d a b ty s
  | .vxor h d a b ty => Sys2Proof.Machine.execVxor h d a b ty s
  | .sshl h d a b ty => Sys2Proof.Machine.execSshl h d a b ty s
  | .vshl h d a b ty => Sys2Proof.Machine.execVshl h d a b ty s
  | .sshr h d a b ty => Sys2Proof.Machine.execSshr h d a b ty s
  | .vshr h d a b ty => Sys2Proof.Machine.execVshr h d a b ty s
  | .ssar h d a b ty => Sys2Proof.Machine.execSsar h d a b ty s
  | .vsar h d a b ty => Sys2Proof.Machine.execVsar h d a b ty s
  | .smin h d a b ty => Sys2Proof.Machine.execSmin h d a b ty s
  | .vmin h d a b ty => Sys2Proof.Machine.execVmin h d a b ty s
  | .smax h d a b ty => Sys2Proof.Machine.execSmax h d a b ty s
  | .vmax h d a b ty => Sys2Proof.Machine.execVmax h d a b ty s
  | .scmp h d a b c ty => Sys2Proof.Machine.execScmp h d a b c ty s
  | .vcmp h d a b c ty => Sys2Proof.Machine.execVcmp h d a b c ty s
  | .vsel h d a b c wide => Sys2Proof.Machine.execVsel h d a b c wide s
  | .smov h f => Sys2Proof.Machine.execSmov h f s
  | .vmov h f wide => Sys2Proof.Machine.execVmov h f wide s
  | .smovi h d high imm => Sys2Proof.Machine.execSmovi h d high imm s
  | .vmovi h d imm => Sys2Proof.Machine.execVmovi h d imm s
  | .vclz h d a wide => Sys2Proof.Machine.execVclz h d a wide s
  | .vpop h d a wide => Sys2Proof.Machine.execVpop h d a wide s
  | .vbfx h d a pos lenm1 sgn => Sys2Proof.Machine.execVbfx h d a pos lenm1 sgn s
  | .vbfi h d a b pos lenm1 => Sys2Proof.Machine.execVbfi h d a b pos lenm1 s
  | .vaddc h d a b c sub => Sys2Proof.Machine.execVaddc h d a b c sub s
  | .vaddr h d a b scale wide => Sys2Proof.Machine.execVaddr h d a b scale wide s
  | .saddi h d a wide imm => Sys2Proof.Machine.execSaddi h d a wide imm s
  | .vaddi h d a wide imm => Sys2Proof.Machine.execVaddi h d a wide imm s
  | .vshuf h d a b m wide => Sys2Proof.Machine.execVshuf h d a b m wide s
  | .vbcast h d a b wide => Sys2Proof.Machine.execVbcast h d a b wide s
  | .vreduce h d a op_ ty rnd => Sys2Proof.Machine.execVreduce h d a op_ ty rnd s
  | .vscan h d a op_ ty rnd => Sys2Proof.Machine.execVscan h d a op_ ty rnd s
  | .fadd h d a b ty rnd => Sys2Proof.Machine.execFadd h d a b ty rnd s
  | .fsub h d a b ty rnd => Sys2Proof.Machine.execFsub h d a b ty rnd s
  | .fmul h d a b ty rnd => Sys2Proof.Machine.execFmul h d a b ty rnd s
  | .ffma h d a b c ty rnd => Sys2Proof.Machine.execFfma h d a b c ty rnd s
  | .fmin h d a b ty ftz => Sys2Proof.Machine.execFmin h d a b ty ftz s
  | .fmax h d a b ty ftz => Sys2Proof.Machine.execFmax h d a b ty ftz s
  | .fcmp h d a b c ftz => Sys2Proof.Machine.execFcmp h d a b c ftz s
  | .frcp h d a rnd => Sys2Proof.Machine.execFrcp h d a rnd s
  | .frsq h d a rnd => Sys2Proof.Machine.execFrsq h d a rnd s
  | .fexp2 h d a rnd => Sys2Proof.Machine.execFexp2 h d a rnd s
  | .flog2 h d a rnd => Sys2Proof.Machine.execFlog2 h d a rnd s
  | .fscos h d a rnd => Sys2Proof.Machine.execFscos h d a rnd s
  | .fcvt h d a src dst sel rnd => Sys2Proof.Machine.execFcvt h d a src dst sel rnd s
  | .frnd h d a ty rnd => Sys2Proof.Machine.execFrnd h d a ty rnd s
  | .fclass h d a ty => Sys2Proof.Machine.execFclass h d a ty s
  | .fdot2 h d a b c ty rnd => Sys2Proof.Machine.execFdot2 h d a b c ty rnd s
  | .fcmul h d a b ty rnd => Sys2Proof.Machine.execFcmul h d a b ty rnd s
  | .fbfly h d a b c ty rnd => Sys2Proof.Machine.execFbfly h d a b c ty rnd s
  | .ftwid h d a b rnd => Sys2Proof.Machine.execFtwid h d a b rnd s
  | .csum h d a b wide => Sys2Proof.Machine.execCsum h d a b wide s
  | .ld h data addr sp ord sz sx off => Sys2Proof.Machine.execLd h data addr sp ord sz sx off s
  | .st h data addr sp ord sz off => Sys2Proof.Machine.execSt h data addr sp ord sz off s
  | .atom h data addr sp ord sz sx b op_ ft => Sys2Proof.Machine.execAtom h data addr sp ord sz sx b op_ ft s
  | .red h data addr sp ord sz sx op_ ft => Sys2Proof.Machine.execRed h data addr sp ord sz sx op_ ft s
  | .fence h ord => Sys2Proof.Machine.execFence h ord s
  | .prf h l2 addr off => Sys2Proof.Machine.execPrf h l2 addr off s
  | .vld h d w ord sz sx idx p => Sys2Proof.Machine.execVld h d w ord sz sx idx p s
  | .vst h d w ord sz idx => Sys2Proof.Machine.execVst h d w ord sz idx s
  | .vwset h d a => Sys2Proof.Machine.execVwset h d a s
  | .vwadj h d a b dim f => Sys2Proof.Machine.execVwadj h d a b dim f s
  | .vret h d => Sys2Proof.Machine.execVret h d s
  | .tdset h a b => Sys2Proof.Machine.execTdset h a b s
  | .copy h a b c => Sys2Proof.Machine.execCopy h a b c s
  | .copyR h a b c => Sys2Proof.Machine.execCopyR h a b c s
  | .copym h a b c => Sys2Proof.Machine.execCopym h a b c s
  | .chain h a b c => Sys2Proof.Machine.execChain h a b c s
  | .ring h a b nm1 => Sys2Proof.Machine.execRing h a b nm1 s
  | .fwait h a b nt => Sys2Proof.Machine.execFwait h a b nt s
  | .frel h b => Sys2Proof.Machine.execFrel h b s
  | .ftest h a b => Sys2Proof.Machine.execFtest h a b s
  | .gath h d idx c p sz => Sys2Proof.Machine.execGath h d idx c p sz s
  | .scat h d idx c sz => Sys2Proof.Machine.execScat h d idx c sz s
  | .qbind h q s_ kind => Sys2Proof.Machine.execQbind h q s_ kind s
  | .qtry h d q p wide => Sys2Proof.Machine.execQtry h d q p wide s
  | .mlda h a c sa sb bsel fmt sp => Sys2Proof.Machine.execMlda h a c sa sb bsel fmt sp s
  | .plane h c sa sb src => Sys2Proof.Machine.execPlane h c sa sb src s
  | .mma h z a c sa sb planes bsel nkbm1 scl outl => Sys2Proof.Machine.execMma h z a c sa sb planes bsel nkbm1 scl outl s
  | .moutl h c => Sys2Proof.Machine.execMoutl h c s
  | .zclr h tile n => Sys2Proof.Machine.execZclr h tile n s
  | .zld h z c tr sp => Sys2Proof.Machine.execZld h z c tr sp s
  | .zst h z free c fmt tr sp => Sys2Proof.Machine.execZst h z free c fmt tr sp s
  | .zmap h z a c op_ => Sys2Proof.Machine.execZmap h z a c op_ s
  | .binit h a b => Sys2Proof.Machine.execBinit h a b s
  | .barr h d b => Sys2Proof.Machine.execBarr h d b s
  | .bwait h a b => Sys2Proof.Machine.execBwait h a b s
  | .bsync h b => Sys2Proof.Machine.execBsync h b s
  | .bexp h a b => Sys2Proof.Machine.execBexp h a b s
  | .attn h z c planes mass causal bias rowinc => Sys2Proof.Machine.execAttn h z c planes mass causal bias rowinc s
  | .kvapp h a b c sp => Sys2Proof.Machine.execKvapp h a b c sp s
  | .kvevt h a stack => Sys2Proof.Machine.execKvevt h a stack s
  | .watch h d b c => Sys2Proof.Machine.execWatch h d b c s
  | .unwatch h d b => Sys2Proof.Machine.execUnwatch h d b s
  | .wpark h d b c p => Sys2Proof.Machine.execWpark h d b c p s
  | .launchGrid h d b c => Sys2Proof.Machine.execLaunchGrid h d b c s
  | .launchRecord h a b => Sys2Proof.Machine.execLaunchRecord h a b s
  | .srd h d high r => Sys2Proof.Machine.execSrd h d high r s
  | .swr h a => Sys2Proof.Machine.execSwr h a s
  | .wkadd h a dom => Sys2Proof.Machine.execWkadd h a dom s
  | .wkdone h dom => Sys2Proof.Machine.execWkdone h dom s
  | .trap h imm => Sys2Proof.Machine.execTrap h imm s
  | .tret h => Sys2Proof.Machine.execTret h s
  | .halt h a => Sys2Proof.Machine.execHalt h a s
  | .bkpt h imm => Sys2Proof.Machine.execBkpt h imm s
  | .icacheLineFill core line => Sys2Proof.Machine.execIcacheLineFill core line s
  | .fixedLatencyWrite p k => Sys2Proof.Machine.execFixedLatencyWrite p k s
  | .sliceRelease core slice => Sys2Proof.Machine.execSliceRelease core slice s
  | .readResponse id how => Sys2Proof.Machine.execReadResponse id how s
  | .storePerform id => Sys2Proof.Machine.execStorePerform id s
  | .heldWriteRelease id => Sys2Proof.Machine.execHeldWriteRelease id s
  | .revocation id core => Sys2Proof.Machine.execRevocation id core s
  | .writeAcknowledge id => Sys2Proof.Machine.execWriteAcknowledge id s
  | .atomicPerform id => Sys2Proof.Machine.execAtomicPerform id s
  | .pageWalk stack k => Sys2Proof.Machine.execPageWalk stack k s
  | .pendingBitOr k => Sys2Proof.Machine.execPendingBitOr k s
  | .spillRingDrain slice => Sys2Proof.Machine.execSpillRingDrain slice s
  | .recordHandoff slice k => Sys2Proof.Machine.execRecordHandoff slice k s
  | .poolTimerLapse ctx pool => Sys2Proof.Machine.execPoolTimerLapse ctx pool s
  | .placementDecision stack => Sys2Proof.Machine.execPlacementDecision stack s
  | .remoteStackOffer gang => Sys2Proof.Machine.execRemoteStackOffer gang s
  | .priorityAging ctx pool => Sys2Proof.Machine.execPriorityAging ctx pool s
  | .gangReserve stack => Sys2Proof.Machine.execGangReserve stack s
  | .timeSliceEnd part ctx next => Sys2Proof.Machine.execTimeSliceEnd part ctx next s
  | .forcedFreeze p => Sys2Proof.Machine.execForcedFreeze p s
  | .blockSave core uid => Sys2Proof.Machine.execBlockSave core uid s
  | .blockRestore ctx k core => Sys2Proof.Machine.execBlockRestore ctx k core s
  | .countedTeamDone k => Sys2Proof.Machine.execCountedTeamDone k s
  | .embersTokenPass ctx dom => Sys2Proof.Machine.execEmbersTokenPass ctx dom s
  | .queueMoveComplete p => Sys2Proof.Machine.execQueueMoveComplete p s
  | .refillWaitEnd p => Sys2Proof.Machine.execRefillWaitEnd p s
  | .messageFlitAccept k => Sys2Proof.Machine.execMessageFlitAccept k s
  | .ringReserveRetry p => Sys2Proof.Machine.execRingReserveRetry p s
  | .engineComplete id => Sys2Proof.Machine.execEngineComplete id s
  | .chainRecord stack chan => Sys2Proof.Machine.execChainRecord stack chan s
  | .gatherRowFetch id addr => Sys2Proof.Machine.execGatherRowFetch id addr s
  | .fwaitReturn p => Sys2Proof.Machine.execFwaitReturn p s
  | .entryClaim id => Sys2Proof.Machine.execEntryClaim id s
  | .kvappExecute id => Sys2Proof.Machine.execKvappExecute id s
  | .strikeCommand stack => Sys2Proof.Machine.execStrikeCommand stack s
  | .strikeRcDrain stack => Sys2Proof.Machine.execStrikeRcDrain stack s
  | .attnComplete core => Sys2Proof.Machine.execAttnComplete core s
  | .mmaAccumulatorWrite core => Sys2Proof.Machine.execMmaAccumulatorWrite core s
  | .barrierArrival core k => Sys2Proof.Machine.execBarrierArrival core k s
  | .barrierCycle core => Sys2Proof.Machine.execBarrierCycle core s
  | .barrierWaitEnd p => Sys2Proof.Machine.execBarrierWaitEnd p s
  | .wparkDeliver p => Sys2Proof.Machine.execWparkDeliver p s
  | .wparkLapse p => Sys2Proof.Machine.execWparkLapse p s
  | .partitionHalt part => Sys2Proof.Machine.execPartitionHalt part s
  | .stopRecordWrite part unit => Sys2Proof.Machine.execStopRecordWrite part unit s
  | .watchdog part unit => Sys2Proof.Machine.execWatchdog part unit s
  | .partitionReset part => Sys2Proof.Machine.execPartitionReset part s
  | .debuggerHalt ctx quiesce => Sys2Proof.Machine.execDebuggerHalt ctx quiesce s
  | .debuggerResume ctx => Sys2Proof.Machine.execDebuggerResume ctx s
  | .campLendWrite core pieces => Sys2Proof.Machine.execCampLendWrite core pieces s
  | .tlbinvSpan ctx v => Sys2Proof.Machine.execTlbinvSpan ctx v s
  | .tlbinvAll ctx v => Sys2Proof.Machine.execTlbinvAll ctx v s
  | .tlbinvComplete ctx => Sys2Proof.Machine.execTlbinvComplete ctx s
  | .hostQueueDoorbell part q wr => Sys2Proof.Machine.execHostQueueDoorbell part q wr s
  | .hostQueueEnable part q v => Sys2Proof.Machine.execHostQueueEnable part q v s
  | .jisoetteLaneBind part lane => Sys2Proof.Machine.execJisoetteLaneBind part lane s
  | .nopPacket part q => Sys2Proof.Machine.execNopPacket part q s
  | .haltq part q => Sys2Proof.Machine.execHaltq part q s
  | .preempt part q => Sys2Proof.Machine.execPreempt part q s
  | .preemptComplete k => Sys2Proof.Machine.execPreemptComplete k s
  | .setsig part q => Sys2Proof.Machine.execSetsig part q s
  | .waitsig part q => Sys2Proof.Machine.execWaitsig part q s
  | .watchPacket part q => Sys2Proof.Machine.execWatchPacket part q s
  | .unwatchPacket part q => Sys2Proof.Machine.execUnwatchPacket part q s
  | .poolcfg part q => Sys2Proof.Machine.execPoolcfg part q s
  | .launchPacket part q => Sys2Proof.Machine.execLaunchPacket part q s
  | .copyh part q => Sys2Proof.Machine.execCopyh part q s
  | .launchSignalDecrement k => Sys2Proof.Machine.execLaunchSignalDecrement k s
  | .hostWrite pa bytes => Sys2Proof.Machine.execHostWrite pa bytes s
  | .hostRead pa len => Sys2Proof.Machine.execHostRead pa len s
  | .remotePacketReceive src seq depth op_ => Sys2Proof.Machine.execRemotePacketReceive src seq depth op_ s
  | .flitReplay port n => Sys2Proof.Machine.execFlitReplay port n s
  | .linkFailure port => Sys2Proof.Machine.execLinkFailure port s
  | .linkTraining port partner sizes => Sys2Proof.Machine.execLinkTraining port partner sizes s
  | .portDisable port => Sys2Proof.Machine.execPortDisable port s
  | .portRetrain port => Sys2Proof.Machine.execPortRetrain port s
  | .timeSync count reached => Sys2Proof.Machine.execTimeSync count reached s
  | .thermalLimit die atLimit => Sys2Proof.Machine.execThermalLimit die atLimit s
  | .fwActivate sigOk oldest image => Sys2Proof.Machine.execFwActivate sigOk oldest image s
  | .attestRequest nonce => Sys2Proof.Machine.execAttestRequest nonce s
  | .powerOnReset caps master count => Sys2Proof.Machine.execPowerOnReset caps master count s
  | .registerWrite r index v => Sys2Proof.Machine.execRegisterWrite r index v s
  | .planeConverterDone core => Sys2Proof.Machine.execPlaneConverterDone core s
  | .memoryPortLoss port => Sys2Proof.Machine.execMemoryPortLoss port s
  | .hostPortTraining cxl rate width => Sys2Proof.Machine.execHostPortTraining cxl rate width s

end Sys2Proof.Machine
end

