-- ==== Sys2Proof/Machine/Sched.lean ====
section
/-! DEFINITION. One turn, and the round of turns taken when State.agenda is empty (log 1): every event inside the device that
may be due, then every party once, then a cycle. An event that is not due changes nothing. Events from outside the device
never stand in a round. -/

namespace Sys2Proof.Machine

/-! The passing of a cycle. -/

/-- Whether a matrix stream waits in BWAIT or BSYNC (R229). -/
def Ridge.barWaits (r : Ridge) : Bool :=
  match r.wait.map Wait.what with
  | some (.bwait ..) | some (.bsync ..) => r.frozen.isNone
  | _ => false

/-- The slice that the change of a word by a unit waits in (R317). -/
def State.heldAt (s : State) (k : Nat) (bs : List Byte) : List Nat := if s.unitHeld k bs then [s.sliceNo k] else []

/-- The slices that the first of some writes of a unit, made in one step, waits in (R317). -/
def State.putsHeld (s : State) (w : Who) (xs : List (Nat × List Byte)) : List Nat :=
  xs.flatMap fun x => (s.putOf w x).places.flatMap fun p => s.heldAt p.1 (x.2.take p.2.2)

/-- The slices in which an operation waits to claim its entry, to take a page, to clear APP, or to report (R317). -/
def State.opHolds (s : State) (o : Op) : List Nat :=
  let word (a : Nat) (f : Nat → Nat) : List Nat := match s.unitWord o.who .glob a 8 true true with
    | some (k, _, v) => s.heldAt k (toLe 8 (f v))
    | none => []
  match o.kind, o.ended with
  | .kvapp entry _ _ _ 0, none =>
    (match s.unitWord o.who .glob (entry + 8) 8 true true with
     | some (_, _, v) => if claimable v then word (entry + 8) fun v => v + 2 ^ 34 else []
     | none => [])
  | .kvapp entry k v sp 1, none => (match s.append o entry k v (mspace sp) with | .ok take _ _ _ _ => s.putsHeld o.who take | _ => [])
  | k, some e =>
    if !o.todo.isEmpty || s.outstanding o.id then []
    else (match k with | .kvapp entry _ _ _ 2 => word (entry + 8) clearApp | _ => s.statusHeld o.who o.ring o.slot e)
  | _, none => []

/-- The slices in which an instruction of a team waits to reserve a slot, or to take one up again (R258, R263, R317). -/
def State.teamHolds (s : State) (c : Nat) (t : Team) (i : Instr) : List Nat :=
  let w := t.who c
  let at_ (k : SReg) (slot : Ring → Nat) (f : Ring → List Nat) : List Nat :=
    if s.acquiring t.uid then []
    else match s.ringOf w (t.rs k) true true slot with
      | .ok r => if s.ringBusy t.uid r then [] else f r
      | _ => []
  let reserve (r : Ring) : List Nat :=
    if r.full then [] else s.slotHeld w r r.rsv 0 pendingWord ++ s.objHeld r 0xC 4 (inc32 r.rsv)
  match i with
  | .copy _ _ _ k | .copym _ _ _ k | .kvapp _ _ _ k _ => at_ k Ring.rsv reserve
  | .chain _ _ b k => if ((s.stk (stackOf c)).chan.get 0 (t.rs b).toNat).getLsbD 63 then [] else at_ k Ring.rsv reserve
  | .copyR _ _ _ k => at_ k Ring.rd fun r =>
      let (w0, w1) := s.slotGet w r r.rd
      if codeOf w1 != codePager && codeOf w1 != codeStopped then [] else s.slotHeld w r r.rd w0 (w1 % 2 ^ 57 + pendingWord)
  | _ => []

/-- The instruction that a team has found it may not start in this cycle, or that it waits in. -/
def State.heldInstr (s : State) (c slot : Nat) (t : Team) : Option Instr :=
  match t.wait with
  | some w => some w.what
  | none => if ((s.core c).triedIn s.cycle).contains slot then s.nextInstr c t else none

/-- The instruction at a matrix stream's pc, where its line has arrived and it is one (R33). -/
def State.nextInstrM (s : State) (c : Nat) (r : Ridge) : Option Instr :=
  if r.atHdr || r.wait.isSome || r.ended then none
  else match s.fetch c r.ctx (r.pc / 8 * 8) with
    | .word w => (bodyWord ((s.core c).bankOf r.hdr r.ctx) r.hdrWord r.pc w).bind fun v => (decode v).toOption
    | _ => none

/-- The slices in which a matrix stream waits to raise the reader count of an ATTN, or an ATTN of it to lower that (R243, R317). -/
def State.ridgeHolds (s : State) (c : Nat) (r : Ridge) : List Nat :=
  match s.block? r.blk with
  | none => []
  | some b =>
    match b.attn with
    | some a =>
      if !a.adds.isEmpty || s.outstanding a.id then [] else s.heldAt a.entry (toLe 8 (a.fall.on (ofLe (s.homeRead a.entry 8))))
    | none =>
      if s.cycle < r.due || !s.mayIssue c r.ctx || r.frozen.isSome || s.owes r.uid s.seq then []
      else match s.nextInstrM c r with
        | some (.attn _ z q _ mass _ _ _) =>
          let v (k : Nat) : Nat := (r.rs (sregAt q k)).toNat
          (match (s.attnCheck ⟨c, r.ctx, r.blk, r.uid, r.hdr.packBytes, 0⟩ (v 0) (fld (v 1) 0 32) (fld (v 1) 32 5 + 1) z.val mass).1 with
           | .ok a =>
             if (List.range (a.pool.hd / 32)).any fun j => b.accBusy (z.val + j) then []
             else s.heldAt a.entry.1 (toLe 8 (ofLe (s.homeRead a.entry.1 8) + 2 ^ (16 * a.g)))
           | _ => [])
        | _ => []

/-- The slices in which a Strike engine waits to reserve the slot of its next command, or its command with what it has to write
(R317). -/
def State.stackHolds (s : State) (stack : Nat) (k : Stack) : List Nat :=
  match k.strike, k.strikeQ with
  | none, q :: _ =>
    if !s.forked q.uid q.fork then []
    else (match s.ringOf q.who (BitVec.ofNat 64 (cmdOf (s.kvRead q.who q.cmd 64)).ringA) true true Ring.rsv with
      | .ok r => if r.full then [] else s.slotHeld q.who r r.rsv 0 pendingWord ++ s.objHeld r 0xC 4 (inc32 r.rsv)
      | _ => [])
  | some r, _ =>
    if !r.todo.isEmpty || s.outstanding r.id then []
    else match r.phase with
      | 1 => (match s.strikeWork r.who (cmdOf r.buf) with
          | .short take _ _ | .go take _ _ _ _ _ _ _ => s.putsHeld r.who take
          | _ => [])
      | 7 => s.statusHeld r.who r.ring r.slot (r.ended stack)
      | _ => s.strikeHolds r
  | none, [] => []

/-- The slices that hold at least one write (R317, R331): a store, an atomic or a packet, or what an instruction or an engine waits
with. -/
def State.holding (s : State) : List Nat :=
  let parties := (s.teams.flatMap fun (t : Nat × Team) =>
      (s.heldInstr (t.1 / 16) (t.1 % 16) t.2).toList.flatMap (s.teamHolds (t.1 / 16) t.2)) ++
    s.ridges.flatMap fun (r : Nat × Ridge) => s.ridgeHolds r.1 r.2
  ((s.accs.filterMap fun (a : Access) => if a.held then some (s.sliceNo a.key) else none) ++ parties ++
   s.ops.flatMap s.opHolds ++ s.stks.flatMap fun (k : Nat × Stack) => s.stackHolds k.1 k.2).dedup

/-- The counters of cycles (R229, R251, R331). -/
def State.countCycle (s : State) : State :=
  let s := s.holding.foldl (fun s k => s.bump .hold (k / 144) 1) s
  let s := s.stks.foldl (fun (s : State) (k : Nat × Stack) =>
    match k.2.strike with | some r => if r.phase = 3 then s.bump .stkDrain k.1 1 else s | none => s) s
  s.ridges.foldl (fun (s : State) (r : Nat × Ridge) => if r.2.barWaits then s.bump .barwait r.1 1 else s) s

/-- Ticks of 1 GHz in the next cycle of 1.5 GHz (R5). -/
def State.ticksDue (s : State) : Nat := (s.cycle + 1) * 2 / 3 - s.cycle * 2 / 3

/-- A tick of 1 GHz. A package that slews omits one tick in 64, or repeats one, while an offset from its
master is left (R392). -/
def State.oneTick (s : State) : State :=
  if s.slew = 0 || s.slewGap < 63 then { s with tick := s.tick + 1, slewGap := s.slewGap + 1 }
  else if 0 < s.slew then { s with slew := s.slew - 1, slewGap := 0 }
  else { s with tick := s.tick + 2, slew := s.slew + 1, slewGap := 0 }

/-- A cycle of 1.5 GHz passes; sr.tick counts two ticks in three cycles (R5). -/
def State.clock (s : State) : State :=
  let s := s.countCycle
  { (if s.ticksDue = 0 then s else s.oneTick) with cycle := s.cycle + 1 }

/-! Turns. -/

/-- What a turn answers once its instruction's meaning has answered. -/
def State.ranOf (s : State) (p : Party) (i : Instr) : Host.Outcome State Fault Refusal → Host.Outcome State Fault Refusal
  | .next s' => .next (s.ran p i s')
  | o => o

/-- One turn. An event that is an instruction form changes nothing: only a party issues those. -/
def runTurn (s : State) : Turn → Host.Outcome State Fault Refusal
  | .clock => .next s.clock
  | .event e => if e.isEvent then exec e s else .next s
  | .issue p =>
    match prep s p with
    | .idle s => .next s
    | .run s i => s.ranOf p i (exec i { s with cur := p })

/-- The teams of a core, beginning after the slot that issued last (R55). -/
def State.teamOrder (s : State) (c : Nat) : List Party :=
  let ks := (List.range 16).filter fun k => (s.team? c k).isSome
  ((ks.filter fun k => decide ((s.core c).lastSlot < k)) ++ ks.filter fun k => decide (k ≤ (s.core c).lastSlot)).map (Party.team c)

/-- The parties, teams first. -/
def State.parties (s : State) : List Party :=
  ((s.teams.map fun (t : Nat × Team) => t.1 / 16).dedup.flatMap s.teamOrder) ++
  s.ridges.filterMap fun (r : Nat × Ridge) => if r.2.ended then none else some (Party.ridge r.1)

/-- The parties of a block. -/
def State.partiesOf (s : State) (blk : Nat) : List Party :=
  (s.teams.filterMap fun (t : Nat × Team) => if t.2.blk == blk then some (Party.team (t.1 / 16) (t.1 % 16)) else none) ++
  s.ridges.filterMap fun (r : Nat × Ridge) => if r.2.blk == blk then some (Party.ridge r.1) else none

/-- Numbers of results in flight that are due, the youngest first: a result that is gone leaves the numbers of older ones. -/
def dueShadows (l : List Shadow) (cycle : Nat) : List Nat := ((List.range l.length).filter fun k => (dueNow l cycle k).isSome).reverse

/-- Events of the parties and their cores. -/
def State.coreTurns (s : State) : List Instr :=
  (s.teams.flatMap fun (t : Nat × Team) =>
    (t.2.slip.map fun a => Instr.icacheLineFill (t.1 / 16) a).toList ++
    ((dueShadows t.2.shadows s.cycle).map fun k => Instr.fixedLatencyWrite (.team (t.1 / 16) (t.1 % 16)) k)) ++
  (s.ridges.flatMap fun (r : Nat × Ridge) =>
    (r.2.slip.map fun a => Instr.icacheLineFill r.1 a).toList ++
    ((dueShadows r.2.shadows s.cycle).map fun k => Instr.fixedLatencyWrite (.ridge r.1) k) ++
    [Instr.mmaAccumulatorWrite r.1, Instr.attnComplete r.1]) ++
  (s.cores.flatMap fun (c : Nat × Core) =>
    ((c.2.phys.filter fun p => s.refs c.1 p.1 == 0).map fun p => Instr.sliceRelease c.1 p.1) ++
    (match c.2.planeBy with | some _ => [Instr.planeConverterDone c.1] | none => []))

/-- What an access in flight waits for. -/
def Access.turn (a : Access) : List Instr :=
  match a.kind with
  | .read => [.readResponse a.id 0]
  | k =>
    if a.stage != 0 then (a.revoke.map fun c => Instr.revocation a.id c) ++ [.writeAcknowledge a.id]
    else if a.held then [.heldWriteRelease a.id]
    else match k with
      | .atomic .. => [.atomicPerform a.id]
      | _ => [.storePerform a.id]

/-- The records of a slice that are the first of their watch on die, the youngest first (R318). -/
def Slice.handable (sl : Slice) : List Nat :=
  ((List.range sl.ondie.length).filter fun j => match sl.ondie[j]? with
    | some r => !((sl.ondie.take j).any fun q => q.ctx == r.ctx && q.watch == r.watch)
    | none => false).reverse

/-- The ORs on their way that may be performed, oldest first: each is then preceded by none but those that may not. -/
def State.orTurns (s : State) : List Instr :=
  (s.ors.foldl (fun (a : Nat × List Instr) o =>
    if s.orBlocked o then (a.1 + 1, a.2) else (a.1, a.2 ++ [Instr.pendingBitOr a.1])) (0, [])).2

/-- Events of memory and the trigger unit. -/
def State.memTurns (s : State) : List Instr :=
  s.accs.flatMap Access.turn ++ (s.walks.map fun w => Instr.pageWalk w.stack 0) ++ s.orTurns ++
  (s.slices.flatMap fun (k : Nat × Slice) =>
    (if k.2.ring.isEmpty then [] else [Instr.spillRingDrain k.1]) ++
    k.2.handable.map fun j => Instr.recordHandoff k.1 j)

/-- What an engine operation waits for. -/
def Op.turn (o : Op) : List Instr :=
  match o.kind with
  | .chain chan .. => [.chainRecord (stackOf o.who.core) chan]
  | .kvapp .. => [.entryClaim o.id, .kvappExecute o.id]
  | .gath _ rows .. => (rows.map fun r => Instr.gatherRowFetch o.id r.2) ++ [.engineComplete o.id]
  | _ => [.engineComplete o.id]

/-- Events of engines, messages and launches. -/
def State.engineTurns (s : State) : List Instr :=
  s.ops.flatMap Op.turn ++
  (s.stks.flatMap fun (k : Nat × Stack) =>
    (if k.2.strikeQ.isEmpty && k.2.strike.isNone then [] else [Instr.strikeCommand k.1, .strikeRcDrain k.1])) ++
  ((List.range s.net.length).reverse.map Instr.messageFlitAccept) ++
  ((List.range s.ending.length).reverse.map Instr.countedTeamDone) ++
  (s.launches.map fun l => Instr.launchSignalDecrement l.1)

/-- Contexts of a partition that wait for a slice. -/
def State.nextCtxs (s : State) (part ctx : Nat) : List Nat :=
  (s.ctxs.filter fun c => c.2.part == part && c.1 != ctx && s.wants c.1).map Prod.fst

/-- Events of pools, contexts and blocks. -/
def State.poolTurns (s : State) : List Instr :=
  (s.ctxs.flatMap fun (c : Nat × Ctx) =>
    (c.2.pools.flatMap fun (p : Nat × Pool) =>
      (if p.2.recs.isEmpty then [] else [Instr.poolTimerLapse c.1 p.1]) ++
      (if p.2.gangs.isEmpty then [] else [Instr.priorityAging c.1 p.1]) ++
      p.2.gangs.map fun g => Instr.remoteStackOffer g.id) ++
    (c.2.qword.map fun d => Instr.embersTokenPass c.1 d.1) ++
    (match c.2.tlbBusy with | some _ => [Instr.tlbinvComplete c.1] | none => [])) ++
  (if s.ctxs.any fun c => c.2.pools.any fun p => !p.2.gangs.isEmpty then
    (List.range s.stacksN).flatMap fun k => [Instr.gangReserve k, .placementDecision k] else []) ++
  (s.ctxs.flatMap fun (c : Nat × Ctx) =>
    if c.2.saved.isEmpty then [] else (s.stacksOf c.2.part).map fun k => Instr.blockRestore c.1 0 (144 * k)) ++
  (s.blocks.flatMap fun (b : Nat × Block) =>
    if b.2.req.isNone then []
    else ((s.partiesOf b.1).map fun p => Instr.forcedFreeze p) ++ [.blockSave b.2.core b.1]) ++
  (s.parts.flatMap fun (p : Nat × Part) =>
    match p.2.holder with
    | some c => (s.nextCtxs p.1 c).map fun n => Instr.timeSliceEnd p.1 c n
    | none => [])

/-- The event of a packet's type. -/
def pktTurn (part q : Nat) : Pkt → Instr
  | .haltq => .haltq part q | .preempt => .preempt part q | .setsig => .setsig part q | .waitsig => .waitsig part q
  | .watch => .watchPacket part q | .unwatch => .unwatchPacket part q | .poolcfg => .poolcfg part q
  | .launch => .launchPacket part q | .copyh => .copyh part q | .nop | .other => .nopPacket part q

/-- Events of the front end, and of partitions that halt. -/
def State.partTurns (s : State) : List Instr :=
  s.parts.flatMap fun (p : Nat × Part) =>
    (match p.2.halting with
     | some h =>
       if h.stopped then (if p.2.done then [] else (s.unitsOf p.1).map fun u => Instr.stopRecordWrite p.1 u)
       else if s.haltDue p.1 then [.partitionHalt p.1] else []
     | none => []) ++
    (if p.2.queues.any fun q => q.2.pending && q.2.en then 
      (((List.range 32).find? fun l => (p.2.lanes.find l).isNone).map fun l => Instr.jisoetteLaneBind p.1 l).toList else []) ++
    ((s.stepQueues p.1).map fun q => pktTurn p.1 q (pktType (s.packetAt p.1 q))) ++
    (p.2.tickets.map fun t => Instr.preemptComplete t.1) ++
    (s.stacksOf p.1).flatMap fun k =>
      if s.saveLate k || s.dieHot k || s.cutOff p.1 then [Instr.watchdog p.1 (616 + k)] else []

/-- The cores with blocks that have barriers. -/
def State.barCores (s : State) : List Nat :=
  (s.blocks.filterMap fun (b : Nat × Block) => if b.2.bars.isEmpty then none else some b.2.core).dedup

/-- Arrivals that have yet to count, which count in the cycle after what they wait for is acknowledged (R210): the last first, since
one that counts leaves the list. -/
def State.arrivalTurns (s : State) : List Instr :=
  s.barCores.flatMap fun c => (List.range (s.arrivals c).length).reverse.map fun k => Instr.barrierArrival c k

/-- Events at the end of a cycle: the barriers of each core (R211). -/
def State.cycleTurns (s : State) : List Instr := s.barCores.map Instr.barrierCycle

/-- The round of turns. -/
def State.round (s : State) : List Turn :=
  ((s.partTurns ++ s.arrivalTurns ++ s.coreTurns ++ s.memTurns ++ s.engineTurns ++ s.poolTurns).map Turn.event) ++
  s.parties.map Turn.issue ++ s.cycleTurns.map Turn.event ++ [.clock]

/-- The turn that comes next, and the turns after it. -/
def State.nextTurn (s : State) : Turn × List Turn :=
  match s.agenda with
  | t :: rest => (t, rest)
  | [] => match s.round with
    | t :: rest => (t, rest)
    | [] => (.clock, [])

end Sys2Proof.Machine
end

