-- ==== Sys2Proof/Machine/Step.lean ====
section
/-! DEFINITION. One step: the next turn of the agenda, or of the round that an empty agenda gives. -/

namespace Sys2Proof.Machine

/-- One step of the package. -/
def step (s : State) : Host.Outcome State Fault Refusal :=
  runTurn { s with agenda := s.nextTurn.2 } s.nextTurn.1

/-- s with an instruction word placed where its party's next fetch reads it, and that party to move
next (log 9). -/
def State.withFetchWord (s : State) (nbits w : Nat) : State := s.place (w % 2 ^ min nbits 64)

end Sys2Proof.Machine
end

