-- ==== Sys2Proof/Laws/Tbl.lean ====
section
/-! SUPPORT. Laws of sparse tables: what a read gives after each update, and that every update keeps
the canonical form. -/

namespace Sys2Proof.Machine.Tbl
variable {α : Type}

@[simp] theorem get_nil (d : α) (x : Nat) : get d [] x = d := rfl
@[simp] theorem find_nil (x : Nat) : find ([] : Tbl α) x = none := rfl

theorem get_eq_find (d : α) (t : Tbl α) (x : Nat) : get d t x = (find t x).getD d := by
  induction t with
  | nil => rfl
  | cons c t ih => simp only [get, find]; split <;> simp_all

@[simp] theorem get_put_same (d : α) (t : Tbl α) (x : Nat) (y : α) : get d (put t x y) x = y := by
  induction t with
  | nil => simp [put, get]
  | cons c t ih => simp only [put]; split_ifs <;> simp_all [get]

@[simp] theorem find_put_same (t : Tbl α) (x : Nat) (y : α) : find (put t x y) x = some y := by
  induction t with
  | nil => simp [put, find]
  | cons c t ih => simp only [put]; split_ifs <;> simp_all [find]

theorem get_put_of_ne (d : α) (t : Tbl α) {x z : Nat} (y : α) (h : z ≠ x) : get d (put t x y) z = get d t z := by
  induction t with
  | nil => simp [put, get, h]
  | cons c t ih => simp only [put]; split_ifs <;> simp_all [get]

theorem find_put_of_ne (t : Tbl α) {x z : Nat} (y : α) (h : z ≠ x) : find (put t x y) z = find t z := by
  induction t with
  | nil => simp [put, find, h]
  | cons c t ih => simp only [put]; split_ifs <;> simp_all [find]

theorem get_put (d : α) (t : Tbl α) (x z : Nat) (y : α) : get d (put t x y) z = if z = x then y else get d t z := by
  split_ifs with h
  · subst h; simp
  · exact get_put_of_ne d t y h

theorem find_put (t : Tbl α) (x z : Nat) (y : α) : find (put t x y) z = if z = x then some y else find t z := by
  split_ifs with h
  · subst h; simp
  · exact find_put_of_ne t y h

@[simp] theorem put_put (t : Tbl α) (x : Nat) (y z : α) : put (put t x y) x z = put t x z := by
  induction t with
  | nil => simp [put]
  | cons c t ih => simp only [put]; split_ifs <;> simp_all [put]

theorem find_del (t : Tbl α) (x z : Nat) : find (del t x) z = if z = x then none else find t z := by
  unfold del
  induction t with
  | nil => simp [find]
  | cons c t ih => by_cases h : c.1 = x <;> by_cases g : z = c.1 <;> simp_all [find]

@[simp] theorem find_del_same (t : Tbl α) (x : Nat) : find (del t x) x = none := by simp [find_del]

theorem find_del_of_ne (t : Tbl α) {x z : Nat} (h : z ≠ x) : find (del t x) z = find t z := by simp [find_del, h]

theorem get_del (d : α) (t : Tbl α) (x z : Nat) : get d (del t x) z = if z = x then d else get d t z := by
  simp only [get_eq_find, find_del]; split_ifs <;> rfl

theorem get_set [DecidableEq α] (d : α) (t : Tbl α) (x z : Nat) (y : α) :
    get d (set d t x y) z = if z = x then y else get d t z := by
  unfold set
  split_ifs with h g g <;> simp_all [get_del, get_put]

@[simp] theorem get_set_same [DecidableEq α] (d : α) (t : Tbl α) (x : Nat) (y : α) : get d (set d t x y) x = y := by
  simp [get_set]

theorem get_set_of_ne [DecidableEq α] (d : α) (t : Tbl α) {x z : Nat} (y : α) (h : z ≠ x) :
    get d (set d t x y) z = get d t z := by simp [get_set, h]

theorem get_upd (d : α) (t : Tbl α) (x z : Nat) (f : α → α) :
    get d (upd d t x f) z = if z = x then f (get d t x) else get d t z := by simp [upd, get_put]

/-! The canonical form. -/

theorem rising_mono {lo hi : Nat} {t : Tbl α} (h : lo ≤ hi) (r : rising hi t = true) : rising lo t = true := by
  cases t with
  | nil => rfl
  | cons c t => simp only [rising, Bool.and_eq_true, decide_eq_true_eq] at *; exact ⟨by omega, r.2⟩

theorem rising_put {lo x : Nat} {t : Tbl α} (y : α) (h : lo ≤ x) (r : rising lo t = true) :
    rising lo (put t x y) = true := by
  induction t generalizing lo with
  | nil => simp [put, rising, h]
  | cons c t ih =>
    simp only [rising, Bool.and_eq_true, decide_eq_true_eq] at r
    simp only [put]
    split_ifs with a b
    · subst a; simp [rising, r.1, r.2]
    · simp only [rising, Bool.and_eq_true, decide_eq_true_eq]; exact ⟨h, by omega, r.2⟩
    · simp only [rising, Bool.and_eq_true, decide_eq_true_eq]; exact ⟨r.1, ih (by omega) r.2⟩

theorem rising_filter {lo : Nat} {t : Tbl α} (p : Nat × α → Bool) (r : rising lo t = true) :
    rising lo (t.filter p) = true := by
  induction t generalizing lo with
  | nil => rfl
  | cons c t ih =>
    simp only [rising, Bool.and_eq_true, decide_eq_true_eq] at r
    have h := ih r.2
    simp only [List.filter]
    split
    · simp only [rising, Bool.and_eq_true, decide_eq_true_eq]; exact ⟨r.1, h⟩
    · exact rising_mono (by omega) h

theorem mem_put {t : Tbl α} {x : Nat} {y : α} {c : Nat × α} (h : c ∈ put t x y) : c = (x, y) ∨ c ∈ t := by
  induction t with
  | nil => simpa [put] using h
  | cons b t ih =>
    simp only [put] at h
    split_ifs at h <;> simp only [List.mem_cons] at h ⊢ <;> grind

theorem wf_filter [DecidableEq α] {d : α} {t : Tbl α} (p : Nat × α → Bool) (h : wf d t = true) :
    wf d (t.filter p) = true := by
  simp only [wf, Bool.and_eq_true, List.all_eq_true] at *
  exact ⟨rising_filter p h.1, fun c m => h.2 c (List.mem_of_mem_filter m)⟩

theorem wf_set [DecidableEq α] {d : α} {t : Tbl α} (x : Nat) (y : α) (h : wf d t = true) :
    wf d (set d t x y) = true := by
  unfold set
  split_ifs with g
  · exact wf_filter _ h
  · simp only [wf, Bool.and_eq_true, List.all_eq_true] at *
    refine ⟨rising_put y (Nat.zero_le x) h.1, fun c m => ?_⟩
    rcases mem_put m with rfl | m
    · simp [g]
    · exact h.2 c m

end Sys2Proof.Machine.Tbl
end

