-- ==== Sys2Proof/Laws/State.lean ====
section
/-! SUPPORT. What each update of the state leaves as it was: one lemma per field and update, then the reads of what
an update has written. -/

namespace Sys2Proof.Machine

@[simp] theorem State.setCore_part (s : State) (c : Nat) (x : Core) : (s.setCore c x).part = s.part := rfl
@[simp] theorem State.setCore_pkg (s : State) (c : Nat) (x : Core) : (s.setCore c x).pkg = s.pkg := rfl
@[simp] theorem State.setCore_cycle (s : State) (c : Nat) (x : Core) : (s.setCore c x).cycle = s.cycle := rfl
@[simp] theorem State.setCore_tick (s : State) (c : Nat) (x : Core) : (s.setCore c x).tick = s.tick := rfl
@[simp] theorem State.setCore_bcSize (s : State) (c : Nat) (x : Core) : (s.setCore c x).bcSize = s.bcSize := rfl
@[simp] theorem State.setCore_memT2 (s : State) (c : Nat) (x : Core) : (s.setCore c x).memT2 = s.memT2 := rfl
@[simp] theorem State.setCore_memHbm (s : State) (c : Nat) (x : Core) : (s.setCore c x).memHbm = s.memHbm := rfl
@[simp] theorem State.setCore_peers (s : State) (c : Nat) (x : Core) : (s.setCore c x).peers = s.peers := rfl
@[simp] theorem State.setCore_classes (s : State) (c : Nat) (x : Core) : (s.setCore c x).classes = s.classes := rfl
@[simp] theorem State.setCore_spillBase (s : State) (c : Nat) (x : Core) : (s.setCore c x).spillBase = s.spillBase := rfl
@[simp] theorem State.setCore_fwStatus (s : State) (c : Nat) (x : Core) : (s.setCore c x).fwStatus = s.fwStatus := rfl
@[simp] theorem State.setCore_fwGo (s : State) (c : Nat) (x : Core) : (s.setCore c x).fwGo = s.fwGo := rfl
@[simp] theorem State.setCore_firmware (s : State) (c : Nat) (x : Core) : (s.setCore c x).firmware = s.firmware := rfl
@[simp] theorem State.setCore_fwOldest (s : State) (c : Nat) (x : Core) : (s.setCore c x).fwOldest = s.fwOldest := rfl
@[simp] theorem State.setCore_rootKey (s : State) (c : Nat) (x : Core) : (s.setCore c x).rootKey = s.rootKey := rfl
@[simp] theorem State.setCore_pcap (s : State) (c : Nat) (x : Core) : (s.setCore c x).pcap = s.pcap := rfl
@[simp] theorem State.setCore_reports (s : State) (c : Nat) (x : Core) : (s.setCore c x).reports = s.reports := rfl
@[simp] theorem State.setCore_ports (s : State) (c : Nat) (x : Core) : (s.setCore c x).ports = s.ports := rfl
@[simp] theorem State.setCore_timeOff (s : State) (c : Nat) (x : Core) : (s.setCore c x).timeOff = s.timeOff := rfl
@[simp] theorem State.setCore_timeSync (s : State) (c : Nat) (x : Core) : (s.setCore c x).timeSync = s.timeSync := rfl
@[simp] theorem State.setCore_slew (s : State) (c : Nat) (x : Core) : (s.setCore c x).slew = s.slew := rfl
@[simp] theorem State.setCore_slewGap (s : State) (c : Nat) (x : Core) : (s.setCore c x).slewGap = s.slewGap := rfl
@[simp] theorem State.setCore_master (s : State) (c : Nat) (x : Core) : (s.setCore c x).master = s.master := rfl
@[simp] theorem State.setCore_hostUp (s : State) (c : Nat) (x : Core) : (s.setCore c x).hostUp = s.hostUp := rfl
@[simp] theorem State.setCore_hostCxl (s : State) (c : Nat) (x : Core) : (s.setCore c x).hostCxl = s.hostCxl := rfl
@[simp] theorem State.setCore_hostRate (s : State) (c : Nat) (x : Core) : (s.setCore c x).hostRate = s.hostRate := rfl
@[simp] theorem State.setCore_hostWidth (s : State) (c : Nat) (x : Core) : (s.setCore c x).hostWidth = s.hostWidth := rfl
@[simp] theorem State.setCore_cxlPorts (s : State) (c : Nat) (x : Core) : (s.setCore c x).cxlPorts = s.cxlPorts := rfl
@[simp] theorem State.setCore_cxlLost (s : State) (c : Nat) (x : Core) : (s.setCore c x).cxlLost = s.cxlLost := rfl
@[simp] theorem State.setCore_booted (s : State) (c : Nat) (x : Core) : (s.setCore c x).booted = s.booted := rfl
@[simp] theorem State.setCore_sent (s : State) (c : Nat) (x : Core) : (s.setCore c x).sent = s.sent := rfl
@[simp] theorem State.setCore_window (s : State) (c : Nat) (x : Core) : (s.setCore c x).window = s.window := rfl
@[simp] theorem State.setCore_thermal (s : State) (c : Nat) (x : Core) : (s.setCore c x).thermal = s.thermal := rfl
@[simp] theorem State.setCore_mem (s : State) (c : Nat) (x : Core) : (s.setCore c x).mem = s.mem := rfl
@[simp] theorem State.setCore_eccLines (s : State) (c : Nat) (x : Core) : (s.setCore c x).eccLines = s.eccLines := rfl
@[simp] theorem State.setCore_eccOnes (s : State) (c : Nat) (x : Core) : (s.setCore c x).eccOnes = s.eccOnes := rfl
@[simp] theorem State.setCore_comp (s : State) (c : Nat) (x : Core) : (s.setCore c x).comp = s.comp := rfl
@[simp] theorem State.setCore_accs (s : State) (c : Nat) (x : Core) : (s.setCore c x).accs = s.accs := rfl
@[simp] theorem State.setCore_owners (s : State) (c : Nat) (x : Core) : (s.setCore c x).owners = s.owners := rfl
@[simp] theorem State.setCore_ors (s : State) (c : Nat) (x : Core) : (s.setCore c x).ors = s.ors := rfl
@[simp] theorem State.setCore_ops (s : State) (c : Nat) (x : Core) : (s.setCore c x).ops = s.ops := rfl
@[simp] theorem State.setCore_walks (s : State) (c : Nat) (x : Core) : (s.setCore c x).walks = s.walks := rfl
@[simp] theorem State.setCore_teams (s : State) (c : Nat) (x : Core) : (s.setCore c x).teams = s.teams := rfl
@[simp] theorem State.setCore_ridges (s : State) (c : Nat) (x : Core) : (s.setCore c x).ridges = s.ridges := rfl
@[simp] theorem State.setCore_blocks (s : State) (c : Nat) (x : Core) : (s.setCore c x).blocks = s.blocks := rfl
@[simp] theorem State.setCore_stks (s : State) (c : Nat) (x : Core) : (s.setCore c x).stks = s.stks := rfl
@[simp] theorem State.setCore_slices (s : State) (c : Nat) (x : Core) : (s.setCore c x).slices = s.slices := rfl
@[simp] theorem State.setCore_ctxs (s : State) (c : Nat) (x : Core) : (s.setCore c x).ctxs = s.ctxs := rfl
@[simp] theorem State.setCore_parts (s : State) (c : Nat) (x : Core) : (s.setCore c x).parts = s.parts := rfl
@[simp] theorem State.setCore_launches (s : State) (c : Nat) (x : Core) : (s.setCore c x).launches = s.launches := rfl
@[simp] theorem State.setCore_ending (s : State) (c : Nat) (x : Core) : (s.setCore c x).ending = s.ending := rfl
@[simp] theorem State.setCore_net (s : State) (c : Nat) (x : Core) : (s.setCore c x).net = s.net := rfl
@[simp] theorem State.setCore_ctr (s : State) (c : Nat) (x : Core) : (s.setCore c x).ctr = s.ctr := rfl
@[simp] theorem State.setCore_hostData (s : State) (c : Nat) (x : Core) : (s.setCore c x).hostData = s.hostData := rfl
@[simp] theorem State.setCore_agenda (s : State) (c : Nat) (x : Core) : (s.setCore c x).agenda = s.agenda := rfl
@[simp] theorem State.setCore_cur (s : State) (c : Nat) (x : Core) : (s.setCore c x).cur = s.cur := rfl
@[simp] theorem State.setCore_seq (s : State) (c : Nat) (x : Core) : (s.setCore c x).seq = s.seq := rfl
@[simp] theorem State.setCore_free (s : State) (c : Nat) (x : Core) : (s.setCore c x).free = s.free := rfl
@[simp] theorem State.setTeam_part (s : State) (c k : Nat) (x : Team) : (s.setTeam c k x).part = s.part := rfl
@[simp] theorem State.setTeam_pkg (s : State) (c k : Nat) (x : Team) : (s.setTeam c k x).pkg = s.pkg := rfl
@[simp] theorem State.setTeam_cycle (s : State) (c k : Nat) (x : Team) : (s.setTeam c k x).cycle = s.cycle := rfl
@[simp] theorem State.setTeam_tick (s : State) (c k : Nat) (x : Team) : (s.setTeam c k x).tick = s.tick := rfl
@[simp] theorem State.setTeam_bcSize (s : State) (c k : Nat) (x : Team) : (s.setTeam c k x).bcSize = s.bcSize := rfl
@[simp] theorem State.setTeam_memT2 (s : State) (c k : Nat) (x : Team) : (s.setTeam c k x).memT2 = s.memT2 := rfl
@[simp] theorem State.setTeam_memHbm (s : State) (c k : Nat) (x : Team) : (s.setTeam c k x).memHbm = s.memHbm := rfl
@[simp] theorem State.setTeam_peers (s : State) (c k : Nat) (x : Team) : (s.setTeam c k x).peers = s.peers := rfl
@[simp] theorem State.setTeam_classes (s : State) (c k : Nat) (x : Team) : (s.setTeam c k x).classes = s.classes := rfl
@[simp] theorem State.setTeam_spillBase (s : State) (c k : Nat) (x : Team) : (s.setTeam c k x).spillBase = s.spillBase := rfl
@[simp] theorem State.setTeam_fwStatus (s : State) (c k : Nat) (x : Team) : (s.setTeam c k x).fwStatus = s.fwStatus := rfl
@[simp] theorem State.setTeam_fwGo (s : State) (c k : Nat) (x : Team) : (s.setTeam c k x).fwGo = s.fwGo := rfl
@[simp] theorem State.setTeam_firmware (s : State) (c k : Nat) (x : Team) : (s.setTeam c k x).firmware = s.firmware := rfl
@[simp] theorem State.setTeam_fwOldest (s : State) (c k : Nat) (x : Team) : (s.setTeam c k x).fwOldest = s.fwOldest := rfl
@[simp] theorem State.setTeam_rootKey (s : State) (c k : Nat) (x : Team) : (s.setTeam c k x).rootKey = s.rootKey := rfl
@[simp] theorem State.setTeam_pcap (s : State) (c k : Nat) (x : Team) : (s.setTeam c k x).pcap = s.pcap := rfl
@[simp] theorem State.setTeam_reports (s : State) (c k : Nat) (x : Team) : (s.setTeam c k x).reports = s.reports := rfl
@[simp] theorem State.setTeam_ports (s : State) (c k : Nat) (x : Team) : (s.setTeam c k x).ports = s.ports := rfl
@[simp] theorem State.setTeam_timeOff (s : State) (c k : Nat) (x : Team) : (s.setTeam c k x).timeOff = s.timeOff := rfl
@[simp] theorem State.setTeam_timeSync (s : State) (c k : Nat) (x : Team) : (s.setTeam c k x).timeSync = s.timeSync := rfl
@[simp] theorem State.setTeam_slew (s : State) (c k : Nat) (x : Team) : (s.setTeam c k x).slew = s.slew := rfl
@[simp] theorem State.setTeam_slewGap (s : State) (c k : Nat) (x : Team) : (s.setTeam c k x).slewGap = s.slewGap := rfl
@[simp] theorem State.setTeam_master (s : State) (c k : Nat) (x : Team) : (s.setTeam c k x).master = s.master := rfl
@[simp] theorem State.setTeam_hostUp (s : State) (c k : Nat) (x : Team) : (s.setTeam c k x).hostUp = s.hostUp := rfl
@[simp] theorem State.setTeam_hostCxl (s : State) (c k : Nat) (x : Team) : (s.setTeam c k x).hostCxl = s.hostCxl := rfl
@[simp] theorem State.setTeam_hostRate (s : State) (c k : Nat) (x : Team) : (s.setTeam c k x).hostRate = s.hostRate := rfl
@[simp] theorem State.setTeam_hostWidth (s : State) (c k : Nat) (x : Team) : (s.setTeam c k x).hostWidth = s.hostWidth := rfl
@[simp] theorem State.setTeam_cxlPorts (s : State) (c k : Nat) (x : Team) : (s.setTeam c k x).cxlPorts = s.cxlPorts := rfl
@[simp] theorem State.setTeam_cxlLost (s : State) (c k : Nat) (x : Team) : (s.setTeam c k x).cxlLost = s.cxlLost := rfl
@[simp] theorem State.setTeam_booted (s : State) (c k : Nat) (x : Team) : (s.setTeam c k x).booted = s.booted := rfl
@[simp] theorem State.setTeam_sent (s : State) (c k : Nat) (x : Team) : (s.setTeam c k x).sent = s.sent := rfl
@[simp] theorem State.setTeam_window (s : State) (c k : Nat) (x : Team) : (s.setTeam c k x).window = s.window := rfl
@[simp] theorem State.setTeam_thermal (s : State) (c k : Nat) (x : Team) : (s.setTeam c k x).thermal = s.thermal := rfl
@[simp] theorem State.setTeam_mem (s : State) (c k : Nat) (x : Team) : (s.setTeam c k x).mem = s.mem := rfl
@[simp] theorem State.setTeam_eccLines (s : State) (c k : Nat) (x : Team) : (s.setTeam c k x).eccLines = s.eccLines := rfl
@[simp] theorem State.setTeam_eccOnes (s : State) (c k : Nat) (x : Team) : (s.setTeam c k x).eccOnes = s.eccOnes := rfl
@[simp] theorem State.setTeam_comp (s : State) (c k : Nat) (x : Team) : (s.setTeam c k x).comp = s.comp := rfl
@[simp] theorem State.setTeam_accs (s : State) (c k : Nat) (x : Team) : (s.setTeam c k x).accs = s.accs := rfl
@[simp] theorem State.setTeam_owners (s : State) (c k : Nat) (x : Team) : (s.setTeam c k x).owners = s.owners := rfl
@[simp] theorem State.setTeam_ors (s : State) (c k : Nat) (x : Team) : (s.setTeam c k x).ors = s.ors := rfl
@[simp] theorem State.setTeam_ops (s : State) (c k : Nat) (x : Team) : (s.setTeam c k x).ops = s.ops := rfl
@[simp] theorem State.setTeam_walks (s : State) (c k : Nat) (x : Team) : (s.setTeam c k x).walks = s.walks := rfl
@[simp] theorem State.setTeam_cores (s : State) (c k : Nat) (x : Team) : (s.setTeam c k x).cores = s.cores := rfl
@[simp] theorem State.setTeam_ridges (s : State) (c k : Nat) (x : Team) : (s.setTeam c k x).ridges = s.ridges := rfl
@[simp] theorem State.setTeam_blocks (s : State) (c k : Nat) (x : Team) : (s.setTeam c k x).blocks = s.blocks := rfl
@[simp] theorem State.setTeam_stks (s : State) (c k : Nat) (x : Team) : (s.setTeam c k x).stks = s.stks := rfl
@[simp] theorem State.setTeam_slices (s : State) (c k : Nat) (x : Team) : (s.setTeam c k x).slices = s.slices := rfl
@[simp] theorem State.setTeam_ctxs (s : State) (c k : Nat) (x : Team) : (s.setTeam c k x).ctxs = s.ctxs := rfl
@[simp] theorem State.setTeam_parts (s : State) (c k : Nat) (x : Team) : (s.setTeam c k x).parts = s.parts := rfl
@[simp] theorem State.setTeam_launches (s : State) (c k : Nat) (x : Team) : (s.setTeam c k x).launches = s.launches := rfl
@[simp] theorem State.setTeam_ending (s : State) (c k : Nat) (x : Team) : (s.setTeam c k x).ending = s.ending := rfl
@[simp] theorem State.setTeam_net (s : State) (c k : Nat) (x : Team) : (s.setTeam c k x).net = s.net := rfl
@[simp] theorem State.setTeam_ctr (s : State) (c k : Nat) (x : Team) : (s.setTeam c k x).ctr = s.ctr := rfl
@[simp] theorem State.setTeam_hostData (s : State) (c k : Nat) (x : Team) : (s.setTeam c k x).hostData = s.hostData := rfl
@[simp] theorem State.setTeam_agenda (s : State) (c k : Nat) (x : Team) : (s.setTeam c k x).agenda = s.agenda := rfl
@[simp] theorem State.setTeam_cur (s : State) (c k : Nat) (x : Team) : (s.setTeam c k x).cur = s.cur := rfl
@[simp] theorem State.setTeam_seq (s : State) (c k : Nat) (x : Team) : (s.setTeam c k x).seq = s.seq := rfl
@[simp] theorem State.setTeam_free (s : State) (c k : Nat) (x : Team) : (s.setTeam c k x).free = s.free := rfl
@[simp] theorem State.setRidge_part (s : State) (c : Nat) (x : Ridge) : (s.setRidge c x).part = s.part := rfl
@[simp] theorem State.setRidge_pkg (s : State) (c : Nat) (x : Ridge) : (s.setRidge c x).pkg = s.pkg := rfl
@[simp] theorem State.setRidge_cycle (s : State) (c : Nat) (x : Ridge) : (s.setRidge c x).cycle = s.cycle := rfl
@[simp] theorem State.setRidge_tick (s : State) (c : Nat) (x : Ridge) : (s.setRidge c x).tick = s.tick := rfl
@[simp] theorem State.setRidge_bcSize (s : State) (c : Nat) (x : Ridge) : (s.setRidge c x).bcSize = s.bcSize := rfl
@[simp] theorem State.setRidge_memT2 (s : State) (c : Nat) (x : Ridge) : (s.setRidge c x).memT2 = s.memT2 := rfl
@[simp] theorem State.setRidge_memHbm (s : State) (c : Nat) (x : Ridge) : (s.setRidge c x).memHbm = s.memHbm := rfl
@[simp] theorem State.setRidge_peers (s : State) (c : Nat) (x : Ridge) : (s.setRidge c x).peers = s.peers := rfl
@[simp] theorem State.setRidge_classes (s : State) (c : Nat) (x : Ridge) : (s.setRidge c x).classes = s.classes := rfl
@[simp] theorem State.setRidge_spillBase (s : State) (c : Nat) (x : Ridge) : (s.setRidge c x).spillBase = s.spillBase := rfl
@[simp] theorem State.setRidge_fwStatus (s : State) (c : Nat) (x : Ridge) : (s.setRidge c x).fwStatus = s.fwStatus := rfl
@[simp] theorem State.setRidge_fwGo (s : State) (c : Nat) (x : Ridge) : (s.setRidge c x).fwGo = s.fwGo := rfl
@[simp] theorem State.setRidge_firmware (s : State) (c : Nat) (x : Ridge) : (s.setRidge c x).firmware = s.firmware := rfl
@[simp] theorem State.setRidge_fwOldest (s : State) (c : Nat) (x : Ridge) : (s.setRidge c x).fwOldest = s.fwOldest := rfl
@[simp] theorem State.setRidge_rootKey (s : State) (c : Nat) (x : Ridge) : (s.setRidge c x).rootKey = s.rootKey := rfl
@[simp] theorem State.setRidge_pcap (s : State) (c : Nat) (x : Ridge) : (s.setRidge c x).pcap = s.pcap := rfl
@[simp] theorem State.setRidge_reports (s : State) (c : Nat) (x : Ridge) : (s.setRidge c x).reports = s.reports := rfl
@[simp] theorem State.setRidge_ports (s : State) (c : Nat) (x : Ridge) : (s.setRidge c x).ports = s.ports := rfl
@[simp] theorem State.setRidge_timeOff (s : State) (c : Nat) (x : Ridge) : (s.setRidge c x).timeOff = s.timeOff := rfl
@[simp] theorem State.setRidge_timeSync (s : State) (c : Nat) (x : Ridge) : (s.setRidge c x).timeSync = s.timeSync := rfl
@[simp] theorem State.setRidge_slew (s : State) (c : Nat) (x : Ridge) : (s.setRidge c x).slew = s.slew := rfl
@[simp] theorem State.setRidge_slewGap (s : State) (c : Nat) (x : Ridge) : (s.setRidge c x).slewGap = s.slewGap := rfl
@[simp] theorem State.setRidge_master (s : State) (c : Nat) (x : Ridge) : (s.setRidge c x).master = s.master := rfl
@[simp] theorem State.setRidge_hostUp (s : State) (c : Nat) (x : Ridge) : (s.setRidge c x).hostUp = s.hostUp := rfl
@[simp] theorem State.setRidge_hostCxl (s : State) (c : Nat) (x : Ridge) : (s.setRidge c x).hostCxl = s.hostCxl := rfl
@[simp] theorem State.setRidge_hostRate (s : State) (c : Nat) (x : Ridge) : (s.setRidge c x).hostRate = s.hostRate := rfl
@[simp] theorem State.setRidge_hostWidth (s : State) (c : Nat) (x : Ridge) : (s.setRidge c x).hostWidth = s.hostWidth := rfl
@[simp] theorem State.setRidge_cxlPorts (s : State) (c : Nat) (x : Ridge) : (s.setRidge c x).cxlPorts = s.cxlPorts := rfl
@[simp] theorem State.setRidge_cxlLost (s : State) (c : Nat) (x : Ridge) : (s.setRidge c x).cxlLost = s.cxlLost := rfl
@[simp] theorem State.setRidge_booted (s : State) (c : Nat) (x : Ridge) : (s.setRidge c x).booted = s.booted := rfl
@[simp] theorem State.setRidge_sent (s : State) (c : Nat) (x : Ridge) : (s.setRidge c x).sent = s.sent := rfl
@[simp] theorem State.setRidge_window (s : State) (c : Nat) (x : Ridge) : (s.setRidge c x).window = s.window := rfl
@[simp] theorem State.setRidge_thermal (s : State) (c : Nat) (x : Ridge) : (s.setRidge c x).thermal = s.thermal := rfl
@[simp] theorem State.setRidge_mem (s : State) (c : Nat) (x : Ridge) : (s.setRidge c x).mem = s.mem := rfl
@[simp] theorem State.setRidge_eccLines (s : State) (c : Nat) (x : Ridge) : (s.setRidge c x).eccLines = s.eccLines := rfl
@[simp] theorem State.setRidge_eccOnes (s : State) (c : Nat) (x : Ridge) : (s.setRidge c x).eccOnes = s.eccOnes := rfl
@[simp] theorem State.setRidge_comp (s : State) (c : Nat) (x : Ridge) : (s.setRidge c x).comp = s.comp := rfl
@[simp] theorem State.setRidge_accs (s : State) (c : Nat) (x : Ridge) : (s.setRidge c x).accs = s.accs := rfl
@[simp] theorem State.setRidge_owners (s : State) (c : Nat) (x : Ridge) : (s.setRidge c x).owners = s.owners := rfl
@[simp] theorem State.setRidge_ors (s : State) (c : Nat) (x : Ridge) : (s.setRidge c x).ors = s.ors := rfl
@[simp] theorem State.setRidge_ops (s : State) (c : Nat) (x : Ridge) : (s.setRidge c x).ops = s.ops := rfl
@[simp] theorem State.setRidge_walks (s : State) (c : Nat) (x : Ridge) : (s.setRidge c x).walks = s.walks := rfl
@[simp] theorem State.setRidge_cores (s : State) (c : Nat) (x : Ridge) : (s.setRidge c x).cores = s.cores := rfl
@[simp] theorem State.setRidge_teams (s : State) (c : Nat) (x : Ridge) : (s.setRidge c x).teams = s.teams := rfl
@[simp] theorem State.setRidge_blocks (s : State) (c : Nat) (x : Ridge) : (s.setRidge c x).blocks = s.blocks := rfl
@[simp] theorem State.setRidge_stks (s : State) (c : Nat) (x : Ridge) : (s.setRidge c x).stks = s.stks := rfl
@[simp] theorem State.setRidge_slices (s : State) (c : Nat) (x : Ridge) : (s.setRidge c x).slices = s.slices := rfl
@[simp] theorem State.setRidge_ctxs (s : State) (c : Nat) (x : Ridge) : (s.setRidge c x).ctxs = s.ctxs := rfl
@[simp] theorem State.setRidge_parts (s : State) (c : Nat) (x : Ridge) : (s.setRidge c x).parts = s.parts := rfl
@[simp] theorem State.setRidge_launches (s : State) (c : Nat) (x : Ridge) : (s.setRidge c x).launches = s.launches := rfl
@[simp] theorem State.setRidge_ending (s : State) (c : Nat) (x : Ridge) : (s.setRidge c x).ending = s.ending := rfl
@[simp] theorem State.setRidge_net (s : State) (c : Nat) (x : Ridge) : (s.setRidge c x).net = s.net := rfl
@[simp] theorem State.setRidge_ctr (s : State) (c : Nat) (x : Ridge) : (s.setRidge c x).ctr = s.ctr := rfl
@[simp] theorem State.setRidge_hostData (s : State) (c : Nat) (x : Ridge) : (s.setRidge c x).hostData = s.hostData := rfl
@[simp] theorem State.setRidge_agenda (s : State) (c : Nat) (x : Ridge) : (s.setRidge c x).agenda = s.agenda := rfl
@[simp] theorem State.setRidge_cur (s : State) (c : Nat) (x : Ridge) : (s.setRidge c x).cur = s.cur := rfl
@[simp] theorem State.setRidge_seq (s : State) (c : Nat) (x : Ridge) : (s.setRidge c x).seq = s.seq := rfl
@[simp] theorem State.setRidge_free (s : State) (c : Nat) (x : Ridge) : (s.setRidge c x).free = s.free := rfl
@[simp] theorem State.setBlock_part (s : State) (c : Nat) (x : Block) : (s.setBlock c x).part = s.part := rfl
@[simp] theorem State.setBlock_pkg (s : State) (c : Nat) (x : Block) : (s.setBlock c x).pkg = s.pkg := rfl
@[simp] theorem State.setBlock_cycle (s : State) (c : Nat) (x : Block) : (s.setBlock c x).cycle = s.cycle := rfl
@[simp] theorem State.setBlock_tick (s : State) (c : Nat) (x : Block) : (s.setBlock c x).tick = s.tick := rfl
@[simp] theorem State.setBlock_bcSize (s : State) (c : Nat) (x : Block) : (s.setBlock c x).bcSize = s.bcSize := rfl
@[simp] theorem State.setBlock_memT2 (s : State) (c : Nat) (x : Block) : (s.setBlock c x).memT2 = s.memT2 := rfl
@[simp] theorem State.setBlock_memHbm (s : State) (c : Nat) (x : Block) : (s.setBlock c x).memHbm = s.memHbm := rfl
@[simp] theorem State.setBlock_peers (s : State) (c : Nat) (x : Block) : (s.setBlock c x).peers = s.peers := rfl
@[simp] theorem State.setBlock_classes (s : State) (c : Nat) (x : Block) : (s.setBlock c x).classes = s.classes := rfl
@[simp] theorem State.setBlock_spillBase (s : State) (c : Nat) (x : Block) : (s.setBlock c x).spillBase = s.spillBase := rfl
@[simp] theorem State.setBlock_fwStatus (s : State) (c : Nat) (x : Block) : (s.setBlock c x).fwStatus = s.fwStatus := rfl
@[simp] theorem State.setBlock_fwGo (s : State) (c : Nat) (x : Block) : (s.setBlock c x).fwGo = s.fwGo := rfl
@[simp] theorem State.setBlock_firmware (s : State) (c : Nat) (x : Block) : (s.setBlock c x).firmware = s.firmware := rfl
@[simp] theorem State.setBlock_fwOldest (s : State) (c : Nat) (x : Block) : (s.setBlock c x).fwOldest = s.fwOldest := rfl
@[simp] theorem State.setBlock_rootKey (s : State) (c : Nat) (x : Block) : (s.setBlock c x).rootKey = s.rootKey := rfl
@[simp] theorem State.setBlock_pcap (s : State) (c : Nat) (x : Block) : (s.setBlock c x).pcap = s.pcap := rfl
@[simp] theorem State.setBlock_reports (s : State) (c : Nat) (x : Block) : (s.setBlock c x).reports = s.reports := rfl
@[simp] theorem State.setBlock_ports (s : State) (c : Nat) (x : Block) : (s.setBlock c x).ports = s.ports := rfl
@[simp] theorem State.setBlock_timeOff (s : State) (c : Nat) (x : Block) : (s.setBlock c x).timeOff = s.timeOff := rfl
@[simp] theorem State.setBlock_timeSync (s : State) (c : Nat) (x : Block) : (s.setBlock c x).timeSync = s.timeSync := rfl
@[simp] theorem State.setBlock_slew (s : State) (c : Nat) (x : Block) : (s.setBlock c x).slew = s.slew := rfl
@[simp] theorem State.setBlock_slewGap (s : State) (c : Nat) (x : Block) : (s.setBlock c x).slewGap = s.slewGap := rfl
@[simp] theorem State.setBlock_master (s : State) (c : Nat) (x : Block) : (s.setBlock c x).master = s.master := rfl
@[simp] theorem State.setBlock_hostUp (s : State) (c : Nat) (x : Block) : (s.setBlock c x).hostUp = s.hostUp := rfl
@[simp] theorem State.setBlock_hostCxl (s : State) (c : Nat) (x : Block) : (s.setBlock c x).hostCxl = s.hostCxl := rfl
@[simp] theorem State.setBlock_hostRate (s : State) (c : Nat) (x : Block) : (s.setBlock c x).hostRate = s.hostRate := rfl
@[simp] theorem State.setBlock_hostWidth (s : State) (c : Nat) (x : Block) : (s.setBlock c x).hostWidth = s.hostWidth := rfl
@[simp] theorem State.setBlock_cxlPorts (s : State) (c : Nat) (x : Block) : (s.setBlock c x).cxlPorts = s.cxlPorts := rfl
@[simp] theorem State.setBlock_cxlLost (s : State) (c : Nat) (x : Block) : (s.setBlock c x).cxlLost = s.cxlLost := rfl
@[simp] theorem State.setBlock_booted (s : State) (c : Nat) (x : Block) : (s.setBlock c x).booted = s.booted := rfl
@[simp] theorem State.setBlock_sent (s : State) (c : Nat) (x : Block) : (s.setBlock c x).sent = s.sent := rfl
@[simp] theorem State.setBlock_window (s : State) (c : Nat) (x : Block) : (s.setBlock c x).window = s.window := rfl
@[simp] theorem State.setBlock_thermal (s : State) (c : Nat) (x : Block) : (s.setBlock c x).thermal = s.thermal := rfl
@[simp] theorem State.setBlock_mem (s : State) (c : Nat) (x : Block) : (s.setBlock c x).mem = s.mem := rfl
@[simp] theorem State.setBlock_eccLines (s : State) (c : Nat) (x : Block) : (s.setBlock c x).eccLines = s.eccLines := rfl
@[simp] theorem State.setBlock_eccOnes (s : State) (c : Nat) (x : Block) : (s.setBlock c x).eccOnes = s.eccOnes := rfl
@[simp] theorem State.setBlock_comp (s : State) (c : Nat) (x : Block) : (s.setBlock c x).comp = s.comp := rfl
@[simp] theorem State.setBlock_accs (s : State) (c : Nat) (x : Block) : (s.setBlock c x).accs = s.accs := rfl
@[simp] theorem State.setBlock_owners (s : State) (c : Nat) (x : Block) : (s.setBlock c x).owners = s.owners := rfl
@[simp] theorem State.setBlock_ors (s : State) (c : Nat) (x : Block) : (s.setBlock c x).ors = s.ors := rfl
@[simp] theorem State.setBlock_ops (s : State) (c : Nat) (x : Block) : (s.setBlock c x).ops = s.ops := rfl
@[simp] theorem State.setBlock_walks (s : State) (c : Nat) (x : Block) : (s.setBlock c x).walks = s.walks := rfl
@[simp] theorem State.setBlock_cores (s : State) (c : Nat) (x : Block) : (s.setBlock c x).cores = s.cores := rfl
@[simp] theorem State.setBlock_teams (s : State) (c : Nat) (x : Block) : (s.setBlock c x).teams = s.teams := rfl
@[simp] theorem State.setBlock_ridges (s : State) (c : Nat) (x : Block) : (s.setBlock c x).ridges = s.ridges := rfl
@[simp] theorem State.setBlock_stks (s : State) (c : Nat) (x : Block) : (s.setBlock c x).stks = s.stks := rfl
@[simp] theorem State.setBlock_slices (s : State) (c : Nat) (x : Block) : (s.setBlock c x).slices = s.slices := rfl
@[simp] theorem State.setBlock_ctxs (s : State) (c : Nat) (x : Block) : (s.setBlock c x).ctxs = s.ctxs := rfl
@[simp] theorem State.setBlock_parts (s : State) (c : Nat) (x : Block) : (s.setBlock c x).parts = s.parts := rfl
@[simp] theorem State.setBlock_launches (s : State) (c : Nat) (x : Block) : (s.setBlock c x).launches = s.launches := rfl
@[simp] theorem State.setBlock_ending (s : State) (c : Nat) (x : Block) : (s.setBlock c x).ending = s.ending := rfl
@[simp] theorem State.setBlock_net (s : State) (c : Nat) (x : Block) : (s.setBlock c x).net = s.net := rfl
@[simp] theorem State.setBlock_ctr (s : State) (c : Nat) (x : Block) : (s.setBlock c x).ctr = s.ctr := rfl
@[simp] theorem State.setBlock_hostData (s : State) (c : Nat) (x : Block) : (s.setBlock c x).hostData = s.hostData := rfl
@[simp] theorem State.setBlock_agenda (s : State) (c : Nat) (x : Block) : (s.setBlock c x).agenda = s.agenda := rfl
@[simp] theorem State.setBlock_cur (s : State) (c : Nat) (x : Block) : (s.setBlock c x).cur = s.cur := rfl
@[simp] theorem State.setBlock_seq (s : State) (c : Nat) (x : Block) : (s.setBlock c x).seq = s.seq := rfl
@[simp] theorem State.setBlock_free (s : State) (c : Nat) (x : Block) : (s.setBlock c x).free = s.free := rfl
@[simp] theorem State.setCtx_part (s : State) (c : Nat) (x : Ctx) : (s.setCtx c x).part = s.part := rfl
@[simp] theorem State.setCtx_pkg (s : State) (c : Nat) (x : Ctx) : (s.setCtx c x).pkg = s.pkg := rfl
@[simp] theorem State.setCtx_cycle (s : State) (c : Nat) (x : Ctx) : (s.setCtx c x).cycle = s.cycle := rfl
@[simp] theorem State.setCtx_tick (s : State) (c : Nat) (x : Ctx) : (s.setCtx c x).tick = s.tick := rfl
@[simp] theorem State.setCtx_bcSize (s : State) (c : Nat) (x : Ctx) : (s.setCtx c x).bcSize = s.bcSize := rfl
@[simp] theorem State.setCtx_memT2 (s : State) (c : Nat) (x : Ctx) : (s.setCtx c x).memT2 = s.memT2 := rfl
@[simp] theorem State.setCtx_memHbm (s : State) (c : Nat) (x : Ctx) : (s.setCtx c x).memHbm = s.memHbm := rfl
@[simp] theorem State.setCtx_peers (s : State) (c : Nat) (x : Ctx) : (s.setCtx c x).peers = s.peers := rfl
@[simp] theorem State.setCtx_classes (s : State) (c : Nat) (x : Ctx) : (s.setCtx c x).classes = s.classes := rfl
@[simp] theorem State.setCtx_spillBase (s : State) (c : Nat) (x : Ctx) : (s.setCtx c x).spillBase = s.spillBase := rfl
@[simp] theorem State.setCtx_fwStatus (s : State) (c : Nat) (x : Ctx) : (s.setCtx c x).fwStatus = s.fwStatus := rfl
@[simp] theorem State.setCtx_fwGo (s : State) (c : Nat) (x : Ctx) : (s.setCtx c x).fwGo = s.fwGo := rfl
@[simp] theorem State.setCtx_firmware (s : State) (c : Nat) (x : Ctx) : (s.setCtx c x).firmware = s.firmware := rfl
@[simp] theorem State.setCtx_fwOldest (s : State) (c : Nat) (x : Ctx) : (s.setCtx c x).fwOldest = s.fwOldest := rfl
@[simp] theorem State.setCtx_rootKey (s : State) (c : Nat) (x : Ctx) : (s.setCtx c x).rootKey = s.rootKey := rfl
@[simp] theorem State.setCtx_pcap (s : State) (c : Nat) (x : Ctx) : (s.setCtx c x).pcap = s.pcap := rfl
@[simp] theorem State.setCtx_reports (s : State) (c : Nat) (x : Ctx) : (s.setCtx c x).reports = s.reports := rfl
@[simp] theorem State.setCtx_ports (s : State) (c : Nat) (x : Ctx) : (s.setCtx c x).ports = s.ports := rfl
@[simp] theorem State.setCtx_timeOff (s : State) (c : Nat) (x : Ctx) : (s.setCtx c x).timeOff = s.timeOff := rfl
@[simp] theorem State.setCtx_timeSync (s : State) (c : Nat) (x : Ctx) : (s.setCtx c x).timeSync = s.timeSync := rfl
@[simp] theorem State.setCtx_slew (s : State) (c : Nat) (x : Ctx) : (s.setCtx c x).slew = s.slew := rfl
@[simp] theorem State.setCtx_slewGap (s : State) (c : Nat) (x : Ctx) : (s.setCtx c x).slewGap = s.slewGap := rfl
@[simp] theorem State.setCtx_master (s : State) (c : Nat) (x : Ctx) : (s.setCtx c x).master = s.master := rfl
@[simp] theorem State.setCtx_hostUp (s : State) (c : Nat) (x : Ctx) : (s.setCtx c x).hostUp = s.hostUp := rfl
@[simp] theorem State.setCtx_hostCxl (s : State) (c : Nat) (x : Ctx) : (s.setCtx c x).hostCxl = s.hostCxl := rfl
@[simp] theorem State.setCtx_hostRate (s : State) (c : Nat) (x : Ctx) : (s.setCtx c x).hostRate = s.hostRate := rfl
@[simp] theorem State.setCtx_hostWidth (s : State) (c : Nat) (x : Ctx) : (s.setCtx c x).hostWidth = s.hostWidth := rfl
@[simp] theorem State.setCtx_cxlPorts (s : State) (c : Nat) (x : Ctx) : (s.setCtx c x).cxlPorts = s.cxlPorts := rfl
@[simp] theorem State.setCtx_cxlLost (s : State) (c : Nat) (x : Ctx) : (s.setCtx c x).cxlLost = s.cxlLost := rfl
@[simp] theorem State.setCtx_booted (s : State) (c : Nat) (x : Ctx) : (s.setCtx c x).booted = s.booted := rfl
@[simp] theorem State.setCtx_sent (s : State) (c : Nat) (x : Ctx) : (s.setCtx c x).sent = s.sent := rfl
@[simp] theorem State.setCtx_window (s : State) (c : Nat) (x : Ctx) : (s.setCtx c x).window = s.window := rfl
@[simp] theorem State.setCtx_thermal (s : State) (c : Nat) (x : Ctx) : (s.setCtx c x).thermal = s.thermal := rfl
@[simp] theorem State.setCtx_mem (s : State) (c : Nat) (x : Ctx) : (s.setCtx c x).mem = s.mem := rfl
@[simp] theorem State.setCtx_eccLines (s : State) (c : Nat) (x : Ctx) : (s.setCtx c x).eccLines = s.eccLines := rfl
@[simp] theorem State.setCtx_eccOnes (s : State) (c : Nat) (x : Ctx) : (s.setCtx c x).eccOnes = s.eccOnes := rfl
@[simp] theorem State.setCtx_comp (s : State) (c : Nat) (x : Ctx) : (s.setCtx c x).comp = s.comp := rfl
@[simp] theorem State.setCtx_accs (s : State) (c : Nat) (x : Ctx) : (s.setCtx c x).accs = s.accs := rfl
@[simp] theorem State.setCtx_owners (s : State) (c : Nat) (x : Ctx) : (s.setCtx c x).owners = s.owners := rfl
@[simp] theorem State.setCtx_ors (s : State) (c : Nat) (x : Ctx) : (s.setCtx c x).ors = s.ors := rfl
@[simp] theorem State.setCtx_ops (s : State) (c : Nat) (x : Ctx) : (s.setCtx c x).ops = s.ops := rfl
@[simp] theorem State.setCtx_walks (s : State) (c : Nat) (x : Ctx) : (s.setCtx c x).walks = s.walks := rfl
@[simp] theorem State.setCtx_cores (s : State) (c : Nat) (x : Ctx) : (s.setCtx c x).cores = s.cores := rfl
@[simp] theorem State.setCtx_teams (s : State) (c : Nat) (x : Ctx) : (s.setCtx c x).teams = s.teams := rfl
@[simp] theorem State.setCtx_ridges (s : State) (c : Nat) (x : Ctx) : (s.setCtx c x).ridges = s.ridges := rfl
@[simp] theorem State.setCtx_blocks (s : State) (c : Nat) (x : Ctx) : (s.setCtx c x).blocks = s.blocks := rfl
@[simp] theorem State.setCtx_stks (s : State) (c : Nat) (x : Ctx) : (s.setCtx c x).stks = s.stks := rfl
@[simp] theorem State.setCtx_slices (s : State) (c : Nat) (x : Ctx) : (s.setCtx c x).slices = s.slices := rfl
@[simp] theorem State.setCtx_parts (s : State) (c : Nat) (x : Ctx) : (s.setCtx c x).parts = s.parts := rfl
@[simp] theorem State.setCtx_launches (s : State) (c : Nat) (x : Ctx) : (s.setCtx c x).launches = s.launches := rfl
@[simp] theorem State.setCtx_ending (s : State) (c : Nat) (x : Ctx) : (s.setCtx c x).ending = s.ending := rfl
@[simp] theorem State.setCtx_net (s : State) (c : Nat) (x : Ctx) : (s.setCtx c x).net = s.net := rfl
@[simp] theorem State.setCtx_ctr (s : State) (c : Nat) (x : Ctx) : (s.setCtx c x).ctr = s.ctr := rfl
@[simp] theorem State.setCtx_hostData (s : State) (c : Nat) (x : Ctx) : (s.setCtx c x).hostData = s.hostData := rfl
@[simp] theorem State.setCtx_agenda (s : State) (c : Nat) (x : Ctx) : (s.setCtx c x).agenda = s.agenda := rfl
@[simp] theorem State.setCtx_cur (s : State) (c : Nat) (x : Ctx) : (s.setCtx c x).cur = s.cur := rfl
@[simp] theorem State.setCtx_seq (s : State) (c : Nat) (x : Ctx) : (s.setCtx c x).seq = s.seq := rfl
@[simp] theorem State.setCtx_free (s : State) (c : Nat) (x : Ctx) : (s.setCtx c x).free = s.free := rfl
@[simp] theorem State.setStk_part (s : State) (c : Nat) (x : Stack) : (s.setStk c x).part = s.part := rfl
@[simp] theorem State.setStk_pkg (s : State) (c : Nat) (x : Stack) : (s.setStk c x).pkg = s.pkg := rfl
@[simp] theorem State.setStk_cycle (s : State) (c : Nat) (x : Stack) : (s.setStk c x).cycle = s.cycle := rfl
@[simp] theorem State.setStk_tick (s : State) (c : Nat) (x : Stack) : (s.setStk c x).tick = s.tick := rfl
@[simp] theorem State.setStk_bcSize (s : State) (c : Nat) (x : Stack) : (s.setStk c x).bcSize = s.bcSize := rfl
@[simp] theorem State.setStk_memT2 (s : State) (c : Nat) (x : Stack) : (s.setStk c x).memT2 = s.memT2 := rfl
@[simp] theorem State.setStk_memHbm (s : State) (c : Nat) (x : Stack) : (s.setStk c x).memHbm = s.memHbm := rfl
@[simp] theorem State.setStk_peers (s : State) (c : Nat) (x : Stack) : (s.setStk c x).peers = s.peers := rfl
@[simp] theorem State.setStk_classes (s : State) (c : Nat) (x : Stack) : (s.setStk c x).classes = s.classes := rfl
@[simp] theorem State.setStk_spillBase (s : State) (c : Nat) (x : Stack) : (s.setStk c x).spillBase = s.spillBase := rfl
@[simp] theorem State.setStk_fwStatus (s : State) (c : Nat) (x : Stack) : (s.setStk c x).fwStatus = s.fwStatus := rfl
@[simp] theorem State.setStk_fwGo (s : State) (c : Nat) (x : Stack) : (s.setStk c x).fwGo = s.fwGo := rfl
@[simp] theorem State.setStk_firmware (s : State) (c : Nat) (x : Stack) : (s.setStk c x).firmware = s.firmware := rfl
@[simp] theorem State.setStk_fwOldest (s : State) (c : Nat) (x : Stack) : (s.setStk c x).fwOldest = s.fwOldest := rfl
@[simp] theorem State.setStk_rootKey (s : State) (c : Nat) (x : Stack) : (s.setStk c x).rootKey = s.rootKey := rfl
@[simp] theorem State.setStk_pcap (s : State) (c : Nat) (x : Stack) : (s.setStk c x).pcap = s.pcap := rfl
@[simp] theorem State.setStk_reports (s : State) (c : Nat) (x : Stack) : (s.setStk c x).reports = s.reports := rfl
@[simp] theorem State.setStk_ports (s : State) (c : Nat) (x : Stack) : (s.setStk c x).ports = s.ports := rfl
@[simp] theorem State.setStk_timeOff (s : State) (c : Nat) (x : Stack) : (s.setStk c x).timeOff = s.timeOff := rfl
@[simp] theorem State.setStk_timeSync (s : State) (c : Nat) (x : Stack) : (s.setStk c x).timeSync = s.timeSync := rfl
@[simp] theorem State.setStk_slew (s : State) (c : Nat) (x : Stack) : (s.setStk c x).slew = s.slew := rfl
@[simp] theorem State.setStk_slewGap (s : State) (c : Nat) (x : Stack) : (s.setStk c x).slewGap = s.slewGap := rfl
@[simp] theorem State.setStk_master (s : State) (c : Nat) (x : Stack) : (s.setStk c x).master = s.master := rfl
@[simp] theorem State.setStk_hostUp (s : State) (c : Nat) (x : Stack) : (s.setStk c x).hostUp = s.hostUp := rfl
@[simp] theorem State.setStk_hostCxl (s : State) (c : Nat) (x : Stack) : (s.setStk c x).hostCxl = s.hostCxl := rfl
@[simp] theorem State.setStk_hostRate (s : State) (c : Nat) (x : Stack) : (s.setStk c x).hostRate = s.hostRate := rfl
@[simp] theorem State.setStk_hostWidth (s : State) (c : Nat) (x : Stack) : (s.setStk c x).hostWidth = s.hostWidth := rfl
@[simp] theorem State.setStk_cxlPorts (s : State) (c : Nat) (x : Stack) : (s.setStk c x).cxlPorts = s.cxlPorts := rfl
@[simp] theorem State.setStk_cxlLost (s : State) (c : Nat) (x : Stack) : (s.setStk c x).cxlLost = s.cxlLost := rfl
@[simp] theorem State.setStk_booted (s : State) (c : Nat) (x : Stack) : (s.setStk c x).booted = s.booted := rfl
@[simp] theorem State.setStk_sent (s : State) (c : Nat) (x : Stack) : (s.setStk c x).sent = s.sent := rfl
@[simp] theorem State.setStk_window (s : State) (c : Nat) (x : Stack) : (s.setStk c x).window = s.window := rfl
@[simp] theorem State.setStk_thermal (s : State) (c : Nat) (x : Stack) : (s.setStk c x).thermal = s.thermal := rfl
@[simp] theorem State.setStk_mem (s : State) (c : Nat) (x : Stack) : (s.setStk c x).mem = s.mem := rfl
@[simp] theorem State.setStk_eccLines (s : State) (c : Nat) (x : Stack) : (s.setStk c x).eccLines = s.eccLines := rfl
@[simp] theorem State.setStk_eccOnes (s : State) (c : Nat) (x : Stack) : (s.setStk c x).eccOnes = s.eccOnes := rfl
@[simp] theorem State.setStk_comp (s : State) (c : Nat) (x : Stack) : (s.setStk c x).comp = s.comp := rfl
@[simp] theorem State.setStk_accs (s : State) (c : Nat) (x : Stack) : (s.setStk c x).accs = s.accs := rfl
@[simp] theorem State.setStk_owners (s : State) (c : Nat) (x : Stack) : (s.setStk c x).owners = s.owners := rfl
@[simp] theorem State.setStk_ors (s : State) (c : Nat) (x : Stack) : (s.setStk c x).ors = s.ors := rfl
@[simp] theorem State.setStk_ops (s : State) (c : Nat) (x : Stack) : (s.setStk c x).ops = s.ops := rfl
@[simp] theorem State.setStk_walks (s : State) (c : Nat) (x : Stack) : (s.setStk c x).walks = s.walks := rfl
@[simp] theorem State.setStk_cores (s : State) (c : Nat) (x : Stack) : (s.setStk c x).cores = s.cores := rfl
@[simp] theorem State.setStk_teams (s : State) (c : Nat) (x : Stack) : (s.setStk c x).teams = s.teams := rfl
@[simp] theorem State.setStk_ridges (s : State) (c : Nat) (x : Stack) : (s.setStk c x).ridges = s.ridges := rfl
@[simp] theorem State.setStk_blocks (s : State) (c : Nat) (x : Stack) : (s.setStk c x).blocks = s.blocks := rfl
@[simp] theorem State.setStk_slices (s : State) (c : Nat) (x : Stack) : (s.setStk c x).slices = s.slices := rfl
@[simp] theorem State.setStk_ctxs (s : State) (c : Nat) (x : Stack) : (s.setStk c x).ctxs = s.ctxs := rfl
@[simp] theorem State.setStk_parts (s : State) (c : Nat) (x : Stack) : (s.setStk c x).parts = s.parts := rfl
@[simp] theorem State.setStk_launches (s : State) (c : Nat) (x : Stack) : (s.setStk c x).launches = s.launches := rfl
@[simp] theorem State.setStk_ending (s : State) (c : Nat) (x : Stack) : (s.setStk c x).ending = s.ending := rfl
@[simp] theorem State.setStk_net (s : State) (c : Nat) (x : Stack) : (s.setStk c x).net = s.net := rfl
@[simp] theorem State.setStk_ctr (s : State) (c : Nat) (x : Stack) : (s.setStk c x).ctr = s.ctr := rfl
@[simp] theorem State.setStk_hostData (s : State) (c : Nat) (x : Stack) : (s.setStk c x).hostData = s.hostData := rfl
@[simp] theorem State.setStk_agenda (s : State) (c : Nat) (x : Stack) : (s.setStk c x).agenda = s.agenda := rfl
@[simp] theorem State.setStk_cur (s : State) (c : Nat) (x : Stack) : (s.setStk c x).cur = s.cur := rfl
@[simp] theorem State.setStk_seq (s : State) (c : Nat) (x : Stack) : (s.setStk c x).seq = s.seq := rfl
@[simp] theorem State.setStk_free (s : State) (c : Nat) (x : Stack) : (s.setStk c x).free = s.free := rfl
@[simp] theorem State.setSlice_part (s : State) (c : Nat) (x : Slice) : (s.setSlice c x).part = s.part := rfl
@[simp] theorem State.setSlice_pkg (s : State) (c : Nat) (x : Slice) : (s.setSlice c x).pkg = s.pkg := rfl
@[simp] theorem State.setSlice_cycle (s : State) (c : Nat) (x : Slice) : (s.setSlice c x).cycle = s.cycle := rfl
@[simp] theorem State.setSlice_tick (s : State) (c : Nat) (x : Slice) : (s.setSlice c x).tick = s.tick := rfl
@[simp] theorem State.setSlice_bcSize (s : State) (c : Nat) (x : Slice) : (s.setSlice c x).bcSize = s.bcSize := rfl
@[simp] theorem State.setSlice_memT2 (s : State) (c : Nat) (x : Slice) : (s.setSlice c x).memT2 = s.memT2 := rfl
@[simp] theorem State.setSlice_memHbm (s : State) (c : Nat) (x : Slice) : (s.setSlice c x).memHbm = s.memHbm := rfl
@[simp] theorem State.setSlice_peers (s : State) (c : Nat) (x : Slice) : (s.setSlice c x).peers = s.peers := rfl
@[simp] theorem State.setSlice_classes (s : State) (c : Nat) (x : Slice) : (s.setSlice c x).classes = s.classes := rfl
@[simp] theorem State.setSlice_spillBase (s : State) (c : Nat) (x : Slice) : (s.setSlice c x).spillBase = s.spillBase := rfl
@[simp] theorem State.setSlice_fwStatus (s : State) (c : Nat) (x : Slice) : (s.setSlice c x).fwStatus = s.fwStatus := rfl
@[simp] theorem State.setSlice_fwGo (s : State) (c : Nat) (x : Slice) : (s.setSlice c x).fwGo = s.fwGo := rfl
@[simp] theorem State.setSlice_firmware (s : State) (c : Nat) (x : Slice) : (s.setSlice c x).firmware = s.firmware := rfl
@[simp] theorem State.setSlice_fwOldest (s : State) (c : Nat) (x : Slice) : (s.setSlice c x).fwOldest = s.fwOldest := rfl
@[simp] theorem State.setSlice_rootKey (s : State) (c : Nat) (x : Slice) : (s.setSlice c x).rootKey = s.rootKey := rfl
@[simp] theorem State.setSlice_pcap (s : State) (c : Nat) (x : Slice) : (s.setSlice c x).pcap = s.pcap := rfl
@[simp] theorem State.setSlice_reports (s : State) (c : Nat) (x : Slice) : (s.setSlice c x).reports = s.reports := rfl
@[simp] theorem State.setSlice_ports (s : State) (c : Nat) (x : Slice) : (s.setSlice c x).ports = s.ports := rfl
@[simp] theorem State.setSlice_timeOff (s : State) (c : Nat) (x : Slice) : (s.setSlice c x).timeOff = s.timeOff := rfl
@[simp] theorem State.setSlice_timeSync (s : State) (c : Nat) (x : Slice) : (s.setSlice c x).timeSync = s.timeSync := rfl
@[simp] theorem State.setSlice_slew (s : State) (c : Nat) (x : Slice) : (s.setSlice c x).slew = s.slew := rfl
@[simp] theorem State.setSlice_slewGap (s : State) (c : Nat) (x : Slice) : (s.setSlice c x).slewGap = s.slewGap := rfl
@[simp] theorem State.setSlice_master (s : State) (c : Nat) (x : Slice) : (s.setSlice c x).master = s.master := rfl
@[simp] theorem State.setSlice_hostUp (s : State) (c : Nat) (x : Slice) : (s.setSlice c x).hostUp = s.hostUp := rfl
@[simp] theorem State.setSlice_hostCxl (s : State) (c : Nat) (x : Slice) : (s.setSlice c x).hostCxl = s.hostCxl := rfl
@[simp] theorem State.setSlice_hostRate (s : State) (c : Nat) (x : Slice) : (s.setSlice c x).hostRate = s.hostRate := rfl
@[simp] theorem State.setSlice_hostWidth (s : State) (c : Nat) (x : Slice) : (s.setSlice c x).hostWidth = s.hostWidth := rfl
@[simp] theorem State.setSlice_cxlPorts (s : State) (c : Nat) (x : Slice) : (s.setSlice c x).cxlPorts = s.cxlPorts := rfl
@[simp] theorem State.setSlice_cxlLost (s : State) (c : Nat) (x : Slice) : (s.setSlice c x).cxlLost = s.cxlLost := rfl
@[simp] theorem State.setSlice_booted (s : State) (c : Nat) (x : Slice) : (s.setSlice c x).booted = s.booted := rfl
@[simp] theorem State.setSlice_sent (s : State) (c : Nat) (x : Slice) : (s.setSlice c x).sent = s.sent := rfl
@[simp] theorem State.setSlice_window (s : State) (c : Nat) (x : Slice) : (s.setSlice c x).window = s.window := rfl
@[simp] theorem State.setSlice_thermal (s : State) (c : Nat) (x : Slice) : (s.setSlice c x).thermal = s.thermal := rfl
@[simp] theorem State.setSlice_mem (s : State) (c : Nat) (x : Slice) : (s.setSlice c x).mem = s.mem := rfl
@[simp] theorem State.setSlice_eccLines (s : State) (c : Nat) (x : Slice) : (s.setSlice c x).eccLines = s.eccLines := rfl
@[simp] theorem State.setSlice_eccOnes (s : State) (c : Nat) (x : Slice) : (s.setSlice c x).eccOnes = s.eccOnes := rfl
@[simp] theorem State.setSlice_comp (s : State) (c : Nat) (x : Slice) : (s.setSlice c x).comp = s.comp := rfl
@[simp] theorem State.setSlice_accs (s : State) (c : Nat) (x : Slice) : (s.setSlice c x).accs = s.accs := rfl
@[simp] theorem State.setSlice_owners (s : State) (c : Nat) (x : Slice) : (s.setSlice c x).owners = s.owners := rfl
@[simp] theorem State.setSlice_ors (s : State) (c : Nat) (x : Slice) : (s.setSlice c x).ors = s.ors := rfl
@[simp] theorem State.setSlice_ops (s : State) (c : Nat) (x : Slice) : (s.setSlice c x).ops = s.ops := rfl
@[simp] theorem State.setSlice_walks (s : State) (c : Nat) (x : Slice) : (s.setSlice c x).walks = s.walks := rfl
@[simp] theorem State.setSlice_cores (s : State) (c : Nat) (x : Slice) : (s.setSlice c x).cores = s.cores := rfl
@[simp] theorem State.setSlice_teams (s : State) (c : Nat) (x : Slice) : (s.setSlice c x).teams = s.teams := rfl
@[simp] theorem State.setSlice_ridges (s : State) (c : Nat) (x : Slice) : (s.setSlice c x).ridges = s.ridges := rfl
@[simp] theorem State.setSlice_blocks (s : State) (c : Nat) (x : Slice) : (s.setSlice c x).blocks = s.blocks := rfl
@[simp] theorem State.setSlice_stks (s : State) (c : Nat) (x : Slice) : (s.setSlice c x).stks = s.stks := rfl
@[simp] theorem State.setSlice_ctxs (s : State) (c : Nat) (x : Slice) : (s.setSlice c x).ctxs = s.ctxs := rfl
@[simp] theorem State.setSlice_parts (s : State) (c : Nat) (x : Slice) : (s.setSlice c x).parts = s.parts := rfl
@[simp] theorem State.setSlice_launches (s : State) (c : Nat) (x : Slice) : (s.setSlice c x).launches = s.launches := rfl
@[simp] theorem State.setSlice_ending (s : State) (c : Nat) (x : Slice) : (s.setSlice c x).ending = s.ending := rfl
@[simp] theorem State.setSlice_net (s : State) (c : Nat) (x : Slice) : (s.setSlice c x).net = s.net := rfl
@[simp] theorem State.setSlice_ctr (s : State) (c : Nat) (x : Slice) : (s.setSlice c x).ctr = s.ctr := rfl
@[simp] theorem State.setSlice_hostData (s : State) (c : Nat) (x : Slice) : (s.setSlice c x).hostData = s.hostData := rfl
@[simp] theorem State.setSlice_agenda (s : State) (c : Nat) (x : Slice) : (s.setSlice c x).agenda = s.agenda := rfl
@[simp] theorem State.setSlice_cur (s : State) (c : Nat) (x : Slice) : (s.setSlice c x).cur = s.cur := rfl
@[simp] theorem State.setSlice_seq (s : State) (c : Nat) (x : Slice) : (s.setSlice c x).seq = s.seq := rfl
@[simp] theorem State.setSlice_free (s : State) (c : Nat) (x : Slice) : (s.setSlice c x).free = s.free := rfl
@[simp] theorem State.setPart_part (s : State) (c : Nat) (x : Part) : (s.setPart c x).part = s.part := rfl
@[simp] theorem State.setPart_pkg (s : State) (c : Nat) (x : Part) : (s.setPart c x).pkg = s.pkg := rfl
@[simp] theorem State.setPart_cycle (s : State) (c : Nat) (x : Part) : (s.setPart c x).cycle = s.cycle := rfl
@[simp] theorem State.setPart_tick (s : State) (c : Nat) (x : Part) : (s.setPart c x).tick = s.tick := rfl
@[simp] theorem State.setPart_bcSize (s : State) (c : Nat) (x : Part) : (s.setPart c x).bcSize = s.bcSize := rfl
@[simp] theorem State.setPart_memT2 (s : State) (c : Nat) (x : Part) : (s.setPart c x).memT2 = s.memT2 := rfl
@[simp] theorem State.setPart_memHbm (s : State) (c : Nat) (x : Part) : (s.setPart c x).memHbm = s.memHbm := rfl
@[simp] theorem State.setPart_peers (s : State) (c : Nat) (x : Part) : (s.setPart c x).peers = s.peers := rfl
@[simp] theorem State.setPart_classes (s : State) (c : Nat) (x : Part) : (s.setPart c x).classes = s.classes := rfl
@[simp] theorem State.setPart_spillBase (s : State) (c : Nat) (x : Part) : (s.setPart c x).spillBase = s.spillBase := rfl
@[simp] theorem State.setPart_fwStatus (s : State) (c : Nat) (x : Part) : (s.setPart c x).fwStatus = s.fwStatus := rfl
@[simp] theorem State.setPart_fwGo (s : State) (c : Nat) (x : Part) : (s.setPart c x).fwGo = s.fwGo := rfl
@[simp] theorem State.setPart_firmware (s : State) (c : Nat) (x : Part) : (s.setPart c x).firmware = s.firmware := rfl
@[simp] theorem State.setPart_fwOldest (s : State) (c : Nat) (x : Part) : (s.setPart c x).fwOldest = s.fwOldest := rfl
@[simp] theorem State.setPart_rootKey (s : State) (c : Nat) (x : Part) : (s.setPart c x).rootKey = s.rootKey := rfl
@[simp] theorem State.setPart_pcap (s : State) (c : Nat) (x : Part) : (s.setPart c x).pcap = s.pcap := rfl
@[simp] theorem State.setPart_reports (s : State) (c : Nat) (x : Part) : (s.setPart c x).reports = s.reports := rfl
@[simp] theorem State.setPart_ports (s : State) (c : Nat) (x : Part) : (s.setPart c x).ports = s.ports := rfl
@[simp] theorem State.setPart_timeOff (s : State) (c : Nat) (x : Part) : (s.setPart c x).timeOff = s.timeOff := rfl
@[simp] theorem State.setPart_timeSync (s : State) (c : Nat) (x : Part) : (s.setPart c x).timeSync = s.timeSync := rfl
@[simp] theorem State.setPart_slew (s : State) (c : Nat) (x : Part) : (s.setPart c x).slew = s.slew := rfl
@[simp] theorem State.setPart_slewGap (s : State) (c : Nat) (x : Part) : (s.setPart c x).slewGap = s.slewGap := rfl
@[simp] theorem State.setPart_master (s : State) (c : Nat) (x : Part) : (s.setPart c x).master = s.master := rfl
@[simp] theorem State.setPart_hostUp (s : State) (c : Nat) (x : Part) : (s.setPart c x).hostUp = s.hostUp := rfl
@[simp] theorem State.setPart_hostCxl (s : State) (c : Nat) (x : Part) : (s.setPart c x).hostCxl = s.hostCxl := rfl
@[simp] theorem State.setPart_hostRate (s : State) (c : Nat) (x : Part) : (s.setPart c x).hostRate = s.hostRate := rfl
@[simp] theorem State.setPart_hostWidth (s : State) (c : Nat) (x : Part) : (s.setPart c x).hostWidth = s.hostWidth := rfl
@[simp] theorem State.setPart_cxlPorts (s : State) (c : Nat) (x : Part) : (s.setPart c x).cxlPorts = s.cxlPorts := rfl
@[simp] theorem State.setPart_cxlLost (s : State) (c : Nat) (x : Part) : (s.setPart c x).cxlLost = s.cxlLost := rfl
@[simp] theorem State.setPart_booted (s : State) (c : Nat) (x : Part) : (s.setPart c x).booted = s.booted := rfl
@[simp] theorem State.setPart_sent (s : State) (c : Nat) (x : Part) : (s.setPart c x).sent = s.sent := rfl
@[simp] theorem State.setPart_window (s : State) (c : Nat) (x : Part) : (s.setPart c x).window = s.window := rfl
@[simp] theorem State.setPart_thermal (s : State) (c : Nat) (x : Part) : (s.setPart c x).thermal = s.thermal := rfl
@[simp] theorem State.setPart_mem (s : State) (c : Nat) (x : Part) : (s.setPart c x).mem = s.mem := rfl
@[simp] theorem State.setPart_eccLines (s : State) (c : Nat) (x : Part) : (s.setPart c x).eccLines = s.eccLines := rfl
@[simp] theorem State.setPart_eccOnes (s : State) (c : Nat) (x : Part) : (s.setPart c x).eccOnes = s.eccOnes := rfl
@[simp] theorem State.setPart_comp (s : State) (c : Nat) (x : Part) : (s.setPart c x).comp = s.comp := rfl
@[simp] theorem State.setPart_accs (s : State) (c : Nat) (x : Part) : (s.setPart c x).accs = s.accs := rfl
@[simp] theorem State.setPart_owners (s : State) (c : Nat) (x : Part) : (s.setPart c x).owners = s.owners := rfl
@[simp] theorem State.setPart_ors (s : State) (c : Nat) (x : Part) : (s.setPart c x).ors = s.ors := rfl
@[simp] theorem State.setPart_ops (s : State) (c : Nat) (x : Part) : (s.setPart c x).ops = s.ops := rfl
@[simp] theorem State.setPart_walks (s : State) (c : Nat) (x : Part) : (s.setPart c x).walks = s.walks := rfl
@[simp] theorem State.setPart_cores (s : State) (c : Nat) (x : Part) : (s.setPart c x).cores = s.cores := rfl
@[simp] theorem State.setPart_teams (s : State) (c : Nat) (x : Part) : (s.setPart c x).teams = s.teams := rfl
@[simp] theorem State.setPart_ridges (s : State) (c : Nat) (x : Part) : (s.setPart c x).ridges = s.ridges := rfl
@[simp] theorem State.setPart_blocks (s : State) (c : Nat) (x : Part) : (s.setPart c x).blocks = s.blocks := rfl
@[simp] theorem State.setPart_stks (s : State) (c : Nat) (x : Part) : (s.setPart c x).stks = s.stks := rfl
@[simp] theorem State.setPart_slices (s : State) (c : Nat) (x : Part) : (s.setPart c x).slices = s.slices := rfl
@[simp] theorem State.setPart_ctxs (s : State) (c : Nat) (x : Part) : (s.setPart c x).ctxs = s.ctxs := rfl
@[simp] theorem State.setPart_launches (s : State) (c : Nat) (x : Part) : (s.setPart c x).launches = s.launches := rfl
@[simp] theorem State.setPart_ending (s : State) (c : Nat) (x : Part) : (s.setPart c x).ending = s.ending := rfl
@[simp] theorem State.setPart_net (s : State) (c : Nat) (x : Part) : (s.setPart c x).net = s.net := rfl
@[simp] theorem State.setPart_ctr (s : State) (c : Nat) (x : Part) : (s.setPart c x).ctr = s.ctr := rfl
@[simp] theorem State.setPart_hostData (s : State) (c : Nat) (x : Part) : (s.setPart c x).hostData = s.hostData := rfl
@[simp] theorem State.setPart_agenda (s : State) (c : Nat) (x : Part) : (s.setPart c x).agenda = s.agenda := rfl
@[simp] theorem State.setPart_cur (s : State) (c : Nat) (x : Part) : (s.setPart c x).cur = s.cur := rfl
@[simp] theorem State.setPart_seq (s : State) (c : Nat) (x : Part) : (s.setPart c x).seq = s.seq := rfl
@[simp] theorem State.setPart_free (s : State) (c : Nat) (x : Part) : (s.setPart c x).free = s.free := rfl
@[simp] theorem State.setCount_part (s : State) (c : Ctr) (n v : Nat) : (s.setCount c n v).part = s.part := rfl
@[simp] theorem State.setCount_pkg (s : State) (c : Ctr) (n v : Nat) : (s.setCount c n v).pkg = s.pkg := rfl
@[simp] theorem State.setCount_cycle (s : State) (c : Ctr) (n v : Nat) : (s.setCount c n v).cycle = s.cycle := rfl
@[simp] theorem State.setCount_tick (s : State) (c : Ctr) (n v : Nat) : (s.setCount c n v).tick = s.tick := rfl
@[simp] theorem State.setCount_bcSize (s : State) (c : Ctr) (n v : Nat) : (s.setCount c n v).bcSize = s.bcSize := rfl
@[simp] theorem State.setCount_memT2 (s : State) (c : Ctr) (n v : Nat) : (s.setCount c n v).memT2 = s.memT2 := rfl
@[simp] theorem State.setCount_memHbm (s : State) (c : Ctr) (n v : Nat) : (s.setCount c n v).memHbm = s.memHbm := rfl
@[simp] theorem State.setCount_peers (s : State) (c : Ctr) (n v : Nat) : (s.setCount c n v).peers = s.peers := rfl
@[simp] theorem State.setCount_classes (s : State) (c : Ctr) (n v : Nat) : (s.setCount c n v).classes = s.classes := rfl
@[simp] theorem State.setCount_spillBase (s : State) (c : Ctr) (n v : Nat) : (s.setCount c n v).spillBase = s.spillBase := rfl
@[simp] theorem State.setCount_fwStatus (s : State) (c : Ctr) (n v : Nat) : (s.setCount c n v).fwStatus = s.fwStatus := rfl
@[simp] theorem State.setCount_fwGo (s : State) (c : Ctr) (n v : Nat) : (s.setCount c n v).fwGo = s.fwGo := rfl
@[simp] theorem State.setCount_firmware (s : State) (c : Ctr) (n v : Nat) : (s.setCount c n v).firmware = s.firmware := rfl
@[simp] theorem State.setCount_fwOldest (s : State) (c : Ctr) (n v : Nat) : (s.setCount c n v).fwOldest = s.fwOldest := rfl
@[simp] theorem State.setCount_rootKey (s : State) (c : Ctr) (n v : Nat) : (s.setCount c n v).rootKey = s.rootKey := rfl
@[simp] theorem State.setCount_pcap (s : State) (c : Ctr) (n v : Nat) : (s.setCount c n v).pcap = s.pcap := rfl
@[simp] theorem State.setCount_reports (s : State) (c : Ctr) (n v : Nat) : (s.setCount c n v).reports = s.reports := rfl
@[simp] theorem State.setCount_ports (s : State) (c : Ctr) (n v : Nat) : (s.setCount c n v).ports = s.ports := rfl
@[simp] theorem State.setCount_timeOff (s : State) (c : Ctr) (n v : Nat) : (s.setCount c n v).timeOff = s.timeOff := rfl
@[simp] theorem State.setCount_timeSync (s : State) (c : Ctr) (n v : Nat) : (s.setCount c n v).timeSync = s.timeSync := rfl
@[simp] theorem State.setCount_slew (s : State) (c : Ctr) (n v : Nat) : (s.setCount c n v).slew = s.slew := rfl
@[simp] theorem State.setCount_slewGap (s : State) (c : Ctr) (n v : Nat) : (s.setCount c n v).slewGap = s.slewGap := rfl
@[simp] theorem State.setCount_master (s : State) (c : Ctr) (n v : Nat) : (s.setCount c n v).master = s.master := rfl
@[simp] theorem State.setCount_hostUp (s : State) (c : Ctr) (n v : Nat) : (s.setCount c n v).hostUp = s.hostUp := rfl
@[simp] theorem State.setCount_hostCxl (s : State) (c : Ctr) (n v : Nat) : (s.setCount c n v).hostCxl = s.hostCxl := rfl
@[simp] theorem State.setCount_hostRate (s : State) (c : Ctr) (n v : Nat) : (s.setCount c n v).hostRate = s.hostRate := rfl
@[simp] theorem State.setCount_hostWidth (s : State) (c : Ctr) (n v : Nat) : (s.setCount c n v).hostWidth = s.hostWidth := rfl
@[simp] theorem State.setCount_cxlPorts (s : State) (c : Ctr) (n v : Nat) : (s.setCount c n v).cxlPorts = s.cxlPorts := rfl
@[simp] theorem State.setCount_cxlLost (s : State) (c : Ctr) (n v : Nat) : (s.setCount c n v).cxlLost = s.cxlLost := rfl
@[simp] theorem State.setCount_booted (s : State) (c : Ctr) (n v : Nat) : (s.setCount c n v).booted = s.booted := rfl
@[simp] theorem State.setCount_sent (s : State) (c : Ctr) (n v : Nat) : (s.setCount c n v).sent = s.sent := rfl
@[simp] theorem State.setCount_window (s : State) (c : Ctr) (n v : Nat) : (s.setCount c n v).window = s.window := rfl
@[simp] theorem State.setCount_thermal (s : State) (c : Ctr) (n v : Nat) : (s.setCount c n v).thermal = s.thermal := rfl
@[simp] theorem State.setCount_mem (s : State) (c : Ctr) (n v : Nat) : (s.setCount c n v).mem = s.mem := rfl
@[simp] theorem State.setCount_eccLines (s : State) (c : Ctr) (n v : Nat) : (s.setCount c n v).eccLines = s.eccLines := rfl
@[simp] theorem State.setCount_eccOnes (s : State) (c : Ctr) (n v : Nat) : (s.setCount c n v).eccOnes = s.eccOnes := rfl
@[simp] theorem State.setCount_comp (s : State) (c : Ctr) (n v : Nat) : (s.setCount c n v).comp = s.comp := rfl
@[simp] theorem State.setCount_accs (s : State) (c : Ctr) (n v : Nat) : (s.setCount c n v).accs = s.accs := rfl
@[simp] theorem State.setCount_owners (s : State) (c : Ctr) (n v : Nat) : (s.setCount c n v).owners = s.owners := rfl
@[simp] theorem State.setCount_ors (s : State) (c : Ctr) (n v : Nat) : (s.setCount c n v).ors = s.ors := rfl
@[simp] theorem State.setCount_ops (s : State) (c : Ctr) (n v : Nat) : (s.setCount c n v).ops = s.ops := rfl
@[simp] theorem State.setCount_walks (s : State) (c : Ctr) (n v : Nat) : (s.setCount c n v).walks = s.walks := rfl
@[simp] theorem State.setCount_cores (s : State) (c : Ctr) (n v : Nat) : (s.setCount c n v).cores = s.cores := rfl
@[simp] theorem State.setCount_teams (s : State) (c : Ctr) (n v : Nat) : (s.setCount c n v).teams = s.teams := rfl
@[simp] theorem State.setCount_ridges (s : State) (c : Ctr) (n v : Nat) : (s.setCount c n v).ridges = s.ridges := rfl
@[simp] theorem State.setCount_blocks (s : State) (c : Ctr) (n v : Nat) : (s.setCount c n v).blocks = s.blocks := rfl
@[simp] theorem State.setCount_stks (s : State) (c : Ctr) (n v : Nat) : (s.setCount c n v).stks = s.stks := rfl
@[simp] theorem State.setCount_slices (s : State) (c : Ctr) (n v : Nat) : (s.setCount c n v).slices = s.slices := rfl
@[simp] theorem State.setCount_ctxs (s : State) (c : Ctr) (n v : Nat) : (s.setCount c n v).ctxs = s.ctxs := rfl
@[simp] theorem State.setCount_parts (s : State) (c : Ctr) (n v : Nat) : (s.setCount c n v).parts = s.parts := rfl
@[simp] theorem State.setCount_launches (s : State) (c : Ctr) (n v : Nat) : (s.setCount c n v).launches = s.launches := rfl
@[simp] theorem State.setCount_ending (s : State) (c : Ctr) (n v : Nat) : (s.setCount c n v).ending = s.ending := rfl
@[simp] theorem State.setCount_net (s : State) (c : Ctr) (n v : Nat) : (s.setCount c n v).net = s.net := rfl
@[simp] theorem State.setCount_hostData (s : State) (c : Ctr) (n v : Nat) : (s.setCount c n v).hostData = s.hostData := rfl
@[simp] theorem State.setCount_agenda (s : State) (c : Ctr) (n v : Nat) : (s.setCount c n v).agenda = s.agenda := rfl
@[simp] theorem State.setCount_cur (s : State) (c : Ctr) (n v : Nat) : (s.setCount c n v).cur = s.cur := rfl
@[simp] theorem State.setCount_seq (s : State) (c : Ctr) (n v : Nat) : (s.setCount c n v).seq = s.seq := rfl
@[simp] theorem State.setCount_free (s : State) (c : Ctr) (n v : Nat) : (s.setCount c n v).free = s.free := rfl
@[simp] theorem State.bump_part (s : State) (c : Ctr) (n k : Nat) : (s.bump c n k).part = s.part := rfl
@[simp] theorem State.bump_pkg (s : State) (c : Ctr) (n k : Nat) : (s.bump c n k).pkg = s.pkg := rfl
@[simp] theorem State.bump_cycle (s : State) (c : Ctr) (n k : Nat) : (s.bump c n k).cycle = s.cycle := rfl
@[simp] theorem State.bump_tick (s : State) (c : Ctr) (n k : Nat) : (s.bump c n k).tick = s.tick := rfl
@[simp] theorem State.bump_bcSize (s : State) (c : Ctr) (n k : Nat) : (s.bump c n k).bcSize = s.bcSize := rfl
@[simp] theorem State.bump_memT2 (s : State) (c : Ctr) (n k : Nat) : (s.bump c n k).memT2 = s.memT2 := rfl
@[simp] theorem State.bump_memHbm (s : State) (c : Ctr) (n k : Nat) : (s.bump c n k).memHbm = s.memHbm := rfl
@[simp] theorem State.bump_peers (s : State) (c : Ctr) (n k : Nat) : (s.bump c n k).peers = s.peers := rfl
@[simp] theorem State.bump_classes (s : State) (c : Ctr) (n k : Nat) : (s.bump c n k).classes = s.classes := rfl
@[simp] theorem State.bump_spillBase (s : State) (c : Ctr) (n k : Nat) : (s.bump c n k).spillBase = s.spillBase := rfl
@[simp] theorem State.bump_fwStatus (s : State) (c : Ctr) (n k : Nat) : (s.bump c n k).fwStatus = s.fwStatus := rfl
@[simp] theorem State.bump_fwGo (s : State) (c : Ctr) (n k : Nat) : (s.bump c n k).fwGo = s.fwGo := rfl
@[simp] theorem State.bump_firmware (s : State) (c : Ctr) (n k : Nat) : (s.bump c n k).firmware = s.firmware := rfl
@[simp] theorem State.bump_fwOldest (s : State) (c : Ctr) (n k : Nat) : (s.bump c n k).fwOldest = s.fwOldest := rfl
@[simp] theorem State.bump_rootKey (s : State) (c : Ctr) (n k : Nat) : (s.bump c n k).rootKey = s.rootKey := rfl
@[simp] theorem State.bump_pcap (s : State) (c : Ctr) (n k : Nat) : (s.bump c n k).pcap = s.pcap := rfl
@[simp] theorem State.bump_reports (s : State) (c : Ctr) (n k : Nat) : (s.bump c n k).reports = s.reports := rfl
@[simp] theorem State.bump_ports (s : State) (c : Ctr) (n k : Nat) : (s.bump c n k).ports = s.ports := rfl
@[simp] theorem State.bump_timeOff (s : State) (c : Ctr) (n k : Nat) : (s.bump c n k).timeOff = s.timeOff := rfl
@[simp] theorem State.bump_timeSync (s : State) (c : Ctr) (n k : Nat) : (s.bump c n k).timeSync = s.timeSync := rfl
@[simp] theorem State.bump_slew (s : State) (c : Ctr) (n k : Nat) : (s.bump c n k).slew = s.slew := rfl
@[simp] theorem State.bump_slewGap (s : State) (c : Ctr) (n k : Nat) : (s.bump c n k).slewGap = s.slewGap := rfl
@[simp] theorem State.bump_master (s : State) (c : Ctr) (n k : Nat) : (s.bump c n k).master = s.master := rfl
@[simp] theorem State.bump_hostUp (s : State) (c : Ctr) (n k : Nat) : (s.bump c n k).hostUp = s.hostUp := rfl
@[simp] theorem State.bump_hostCxl (s : State) (c : Ctr) (n k : Nat) : (s.bump c n k).hostCxl = s.hostCxl := rfl
@[simp] theorem State.bump_hostRate (s : State) (c : Ctr) (n k : Nat) : (s.bump c n k).hostRate = s.hostRate := rfl
@[simp] theorem State.bump_hostWidth (s : State) (c : Ctr) (n k : Nat) : (s.bump c n k).hostWidth = s.hostWidth := rfl
@[simp] theorem State.bump_cxlPorts (s : State) (c : Ctr) (n k : Nat) : (s.bump c n k).cxlPorts = s.cxlPorts := rfl
@[simp] theorem State.bump_cxlLost (s : State) (c : Ctr) (n k : Nat) : (s.bump c n k).cxlLost = s.cxlLost := rfl
@[simp] theorem State.bump_booted (s : State) (c : Ctr) (n k : Nat) : (s.bump c n k).booted = s.booted := rfl
@[simp] theorem State.bump_sent (s : State) (c : Ctr) (n k : Nat) : (s.bump c n k).sent = s.sent := rfl
@[simp] theorem State.bump_window (s : State) (c : Ctr) (n k : Nat) : (s.bump c n k).window = s.window := rfl
@[simp] theorem State.bump_thermal (s : State) (c : Ctr) (n k : Nat) : (s.bump c n k).thermal = s.thermal := rfl
@[simp] theorem State.bump_mem (s : State) (c : Ctr) (n k : Nat) : (s.bump c n k).mem = s.mem := rfl
@[simp] theorem State.bump_eccLines (s : State) (c : Ctr) (n k : Nat) : (s.bump c n k).eccLines = s.eccLines := rfl
@[simp] theorem State.bump_eccOnes (s : State) (c : Ctr) (n k : Nat) : (s.bump c n k).eccOnes = s.eccOnes := rfl
@[simp] theorem State.bump_comp (s : State) (c : Ctr) (n k : Nat) : (s.bump c n k).comp = s.comp := rfl
@[simp] theorem State.bump_accs (s : State) (c : Ctr) (n k : Nat) : (s.bump c n k).accs = s.accs := rfl
@[simp] theorem State.bump_owners (s : State) (c : Ctr) (n k : Nat) : (s.bump c n k).owners = s.owners := rfl
@[simp] theorem State.bump_ors (s : State) (c : Ctr) (n k : Nat) : (s.bump c n k).ors = s.ors := rfl
@[simp] theorem State.bump_ops (s : State) (c : Ctr) (n k : Nat) : (s.bump c n k).ops = s.ops := rfl
@[simp] theorem State.bump_walks (s : State) (c : Ctr) (n k : Nat) : (s.bump c n k).walks = s.walks := rfl
@[simp] theorem State.bump_cores (s : State) (c : Ctr) (n k : Nat) : (s.bump c n k).cores = s.cores := rfl
@[simp] theorem State.bump_teams (s : State) (c : Ctr) (n k : Nat) : (s.bump c n k).teams = s.teams := rfl
@[simp] theorem State.bump_ridges (s : State) (c : Ctr) (n k : Nat) : (s.bump c n k).ridges = s.ridges := rfl
@[simp] theorem State.bump_blocks (s : State) (c : Ctr) (n k : Nat) : (s.bump c n k).blocks = s.blocks := rfl
@[simp] theorem State.bump_stks (s : State) (c : Ctr) (n k : Nat) : (s.bump c n k).stks = s.stks := rfl
@[simp] theorem State.bump_slices (s : State) (c : Ctr) (n k : Nat) : (s.bump c n k).slices = s.slices := rfl
@[simp] theorem State.bump_ctxs (s : State) (c : Ctr) (n k : Nat) : (s.bump c n k).ctxs = s.ctxs := rfl
@[simp] theorem State.bump_parts (s : State) (c : Ctr) (n k : Nat) : (s.bump c n k).parts = s.parts := rfl
@[simp] theorem State.bump_launches (s : State) (c : Ctr) (n k : Nat) : (s.bump c n k).launches = s.launches := rfl
@[simp] theorem State.bump_ending (s : State) (c : Ctr) (n k : Nat) : (s.bump c n k).ending = s.ending := rfl
@[simp] theorem State.bump_net (s : State) (c : Ctr) (n k : Nat) : (s.bump c n k).net = s.net := rfl
@[simp] theorem State.bump_hostData (s : State) (c : Ctr) (n k : Nat) : (s.bump c n k).hostData = s.hostData := rfl
@[simp] theorem State.bump_agenda (s : State) (c : Ctr) (n k : Nat) : (s.bump c n k).agenda = s.agenda := rfl
@[simp] theorem State.bump_cur (s : State) (c : Ctr) (n k : Nat) : (s.bump c n k).cur = s.cur := rfl
@[simp] theorem State.bump_seq (s : State) (c : Ctr) (n k : Nat) : (s.bump c n k).seq = s.seq := rfl
@[simp] theorem State.bump_free (s : State) (c : Ctr) (n k : Nat) : (s.bump c n k).free = s.free := rfl
@[simp] theorem State.memWrite_part (s : State) (k : Nat) (bs : List Byte) : (s.memWrite k bs).part = s.part := rfl
@[simp] theorem State.memWrite_pkg (s : State) (k : Nat) (bs : List Byte) : (s.memWrite k bs).pkg = s.pkg := rfl
@[simp] theorem State.memWrite_cycle (s : State) (k : Nat) (bs : List Byte) : (s.memWrite k bs).cycle = s.cycle := rfl
@[simp] theorem State.memWrite_tick (s : State) (k : Nat) (bs : List Byte) : (s.memWrite k bs).tick = s.tick := rfl
@[simp] theorem State.memWrite_bcSize (s : State) (k : Nat) (bs : List Byte) : (s.memWrite k bs).bcSize = s.bcSize := rfl
@[simp] theorem State.memWrite_memT2 (s : State) (k : Nat) (bs : List Byte) : (s.memWrite k bs).memT2 = s.memT2 := rfl
@[simp] theorem State.memWrite_memHbm (s : State) (k : Nat) (bs : List Byte) : (s.memWrite k bs).memHbm = s.memHbm := rfl
@[simp] theorem State.memWrite_peers (s : State) (k : Nat) (bs : List Byte) : (s.memWrite k bs).peers = s.peers := rfl
@[simp] theorem State.memWrite_classes (s : State) (k : Nat) (bs : List Byte) : (s.memWrite k bs).classes = s.classes := rfl
@[simp] theorem State.memWrite_spillBase (s : State) (k : Nat) (bs : List Byte) : (s.memWrite k bs).spillBase = s.spillBase := rfl
@[simp] theorem State.memWrite_fwStatus (s : State) (k : Nat) (bs : List Byte) : (s.memWrite k bs).fwStatus = s.fwStatus := rfl
@[simp] theorem State.memWrite_fwGo (s : State) (k : Nat) (bs : List Byte) : (s.memWrite k bs).fwGo = s.fwGo := rfl
@[simp] theorem State.memWrite_firmware (s : State) (k : Nat) (bs : List Byte) : (s.memWrite k bs).firmware = s.firmware := rfl
@[simp] theorem State.memWrite_fwOldest (s : State) (k : Nat) (bs : List Byte) : (s.memWrite k bs).fwOldest = s.fwOldest := rfl
@[simp] theorem State.memWrite_rootKey (s : State) (k : Nat) (bs : List Byte) : (s.memWrite k bs).rootKey = s.rootKey := rfl
@[simp] theorem State.memWrite_pcap (s : State) (k : Nat) (bs : List Byte) : (s.memWrite k bs).pcap = s.pcap := rfl
@[simp] theorem State.memWrite_reports (s : State) (k : Nat) (bs : List Byte) : (s.memWrite k bs).reports = s.reports := rfl
@[simp] theorem State.memWrite_ports (s : State) (k : Nat) (bs : List Byte) : (s.memWrite k bs).ports = s.ports := rfl
@[simp] theorem State.memWrite_timeOff (s : State) (k : Nat) (bs : List Byte) : (s.memWrite k bs).timeOff = s.timeOff := rfl
@[simp] theorem State.memWrite_timeSync (s : State) (k : Nat) (bs : List Byte) : (s.memWrite k bs).timeSync = s.timeSync := rfl
@[simp] theorem State.memWrite_slew (s : State) (k : Nat) (bs : List Byte) : (s.memWrite k bs).slew = s.slew := rfl
@[simp] theorem State.memWrite_slewGap (s : State) (k : Nat) (bs : List Byte) : (s.memWrite k bs).slewGap = s.slewGap := rfl
@[simp] theorem State.memWrite_master (s : State) (k : Nat) (bs : List Byte) : (s.memWrite k bs).master = s.master := rfl
@[simp] theorem State.memWrite_hostUp (s : State) (k : Nat) (bs : List Byte) : (s.memWrite k bs).hostUp = s.hostUp := rfl
@[simp] theorem State.memWrite_hostCxl (s : State) (k : Nat) (bs : List Byte) : (s.memWrite k bs).hostCxl = s.hostCxl := rfl
@[simp] theorem State.memWrite_hostRate (s : State) (k : Nat) (bs : List Byte) : (s.memWrite k bs).hostRate = s.hostRate := rfl
@[simp] theorem State.memWrite_hostWidth (s : State) (k : Nat) (bs : List Byte) : (s.memWrite k bs).hostWidth = s.hostWidth := rfl
@[simp] theorem State.memWrite_cxlPorts (s : State) (k : Nat) (bs : List Byte) : (s.memWrite k bs).cxlPorts = s.cxlPorts := rfl
@[simp] theorem State.memWrite_cxlLost (s : State) (k : Nat) (bs : List Byte) : (s.memWrite k bs).cxlLost = s.cxlLost := rfl
@[simp] theorem State.memWrite_booted (s : State) (k : Nat) (bs : List Byte) : (s.memWrite k bs).booted = s.booted := rfl
@[simp] theorem State.memWrite_sent (s : State) (k : Nat) (bs : List Byte) : (s.memWrite k bs).sent = s.sent := rfl
@[simp] theorem State.memWrite_window (s : State) (k : Nat) (bs : List Byte) : (s.memWrite k bs).window = s.window := rfl
@[simp] theorem State.memWrite_thermal (s : State) (k : Nat) (bs : List Byte) : (s.memWrite k bs).thermal = s.thermal := rfl
@[simp] theorem State.memWrite_eccLines (s : State) (k : Nat) (bs : List Byte) : (s.memWrite k bs).eccLines = s.eccLines := rfl
@[simp] theorem State.memWrite_eccOnes (s : State) (k : Nat) (bs : List Byte) : (s.memWrite k bs).eccOnes = s.eccOnes := rfl
@[simp] theorem State.memWrite_comp (s : State) (k : Nat) (bs : List Byte) : (s.memWrite k bs).comp = s.comp := rfl
@[simp] theorem State.memWrite_accs (s : State) (k : Nat) (bs : List Byte) : (s.memWrite k bs).accs = s.accs := rfl
@[simp] theorem State.memWrite_owners (s : State) (k : Nat) (bs : List Byte) : (s.memWrite k bs).owners = s.owners := rfl
@[simp] theorem State.memWrite_ors (s : State) (k : Nat) (bs : List Byte) : (s.memWrite k bs).ors = s.ors := rfl
@[simp] theorem State.memWrite_ops (s : State) (k : Nat) (bs : List Byte) : (s.memWrite k bs).ops = s.ops := rfl
@[simp] theorem State.memWrite_walks (s : State) (k : Nat) (bs : List Byte) : (s.memWrite k bs).walks = s.walks := rfl
@[simp] theorem State.memWrite_cores (s : State) (k : Nat) (bs : List Byte) : (s.memWrite k bs).cores = s.cores := rfl
@[simp] theorem State.memWrite_teams (s : State) (k : Nat) (bs : List Byte) : (s.memWrite k bs).teams = s.teams := rfl
@[simp] theorem State.memWrite_ridges (s : State) (k : Nat) (bs : List Byte) : (s.memWrite k bs).ridges = s.ridges := rfl
@[simp] theorem State.memWrite_blocks (s : State) (k : Nat) (bs : List Byte) : (s.memWrite k bs).blocks = s.blocks := rfl
@[simp] theorem State.memWrite_stks (s : State) (k : Nat) (bs : List Byte) : (s.memWrite k bs).stks = s.stks := rfl
@[simp] theorem State.memWrite_slices (s : State) (k : Nat) (bs : List Byte) : (s.memWrite k bs).slices = s.slices := rfl
@[simp] theorem State.memWrite_ctxs (s : State) (k : Nat) (bs : List Byte) : (s.memWrite k bs).ctxs = s.ctxs := rfl
@[simp] theorem State.memWrite_parts (s : State) (k : Nat) (bs : List Byte) : (s.memWrite k bs).parts = s.parts := rfl
@[simp] theorem State.memWrite_launches (s : State) (k : Nat) (bs : List Byte) : (s.memWrite k bs).launches = s.launches := rfl
@[simp] theorem State.memWrite_ending (s : State) (k : Nat) (bs : List Byte) : (s.memWrite k bs).ending = s.ending := rfl
@[simp] theorem State.memWrite_net (s : State) (k : Nat) (bs : List Byte) : (s.memWrite k bs).net = s.net := rfl
@[simp] theorem State.memWrite_ctr (s : State) (k : Nat) (bs : List Byte) : (s.memWrite k bs).ctr = s.ctr := rfl
@[simp] theorem State.memWrite_hostData (s : State) (k : Nat) (bs : List Byte) : (s.memWrite k bs).hostData = s.hostData := rfl
@[simp] theorem State.memWrite_agenda (s : State) (k : Nat) (bs : List Byte) : (s.memWrite k bs).agenda = s.agenda := rfl
@[simp] theorem State.memWrite_cur (s : State) (k : Nat) (bs : List Byte) : (s.memWrite k bs).cur = s.cur := rfl
@[simp] theorem State.memWrite_seq (s : State) (k : Nat) (bs : List Byte) : (s.memWrite k bs).seq = s.seq := rfl
@[simp] theorem State.memWrite_free (s : State) (k : Nat) (bs : List Byte) : (s.memWrite k bs).free = s.free := rfl
@[simp] theorem State.tickSeq_part (s : State) : (s.tickSeq).part = s.part := rfl
@[simp] theorem State.tickSeq_pkg (s : State) : (s.tickSeq).pkg = s.pkg := rfl
@[simp] theorem State.tickSeq_cycle (s : State) : (s.tickSeq).cycle = s.cycle := rfl
@[simp] theorem State.tickSeq_tick (s : State) : (s.tickSeq).tick = s.tick := rfl
@[simp] theorem State.tickSeq_bcSize (s : State) : (s.tickSeq).bcSize = s.bcSize := rfl
@[simp] theorem State.tickSeq_memT2 (s : State) : (s.tickSeq).memT2 = s.memT2 := rfl
@[simp] theorem State.tickSeq_memHbm (s : State) : (s.tickSeq).memHbm = s.memHbm := rfl
@[simp] theorem State.tickSeq_peers (s : State) : (s.tickSeq).peers = s.peers := rfl
@[simp] theorem State.tickSeq_classes (s : State) : (s.tickSeq).classes = s.classes := rfl
@[simp] theorem State.tickSeq_spillBase (s : State) : (s.tickSeq).spillBase = s.spillBase := rfl
@[simp] theorem State.tickSeq_fwStatus (s : State) : (s.tickSeq).fwStatus = s.fwStatus := rfl
@[simp] theorem State.tickSeq_fwGo (s : State) : (s.tickSeq).fwGo = s.fwGo := rfl
@[simp] theorem State.tickSeq_firmware (s : State) : (s.tickSeq).firmware = s.firmware := rfl
@[simp] theorem State.tickSeq_fwOldest (s : State) : (s.tickSeq).fwOldest = s.fwOldest := rfl
@[simp] theorem State.tickSeq_rootKey (s : State) : (s.tickSeq).rootKey = s.rootKey := rfl
@[simp] theorem State.tickSeq_pcap (s : State) : (s.tickSeq).pcap = s.pcap := rfl
@[simp] theorem State.tickSeq_reports (s : State) : (s.tickSeq).reports = s.reports := rfl
@[simp] theorem State.tickSeq_ports (s : State) : (s.tickSeq).ports = s.ports := rfl
@[simp] theorem State.tickSeq_timeOff (s : State) : (s.tickSeq).timeOff = s.timeOff := rfl
@[simp] theorem State.tickSeq_timeSync (s : State) : (s.tickSeq).timeSync = s.timeSync := rfl
@[simp] theorem State.tickSeq_slew (s : State) : (s.tickSeq).slew = s.slew := rfl
@[simp] theorem State.tickSeq_slewGap (s : State) : (s.tickSeq).slewGap = s.slewGap := rfl
@[simp] theorem State.tickSeq_master (s : State) : (s.tickSeq).master = s.master := rfl
@[simp] theorem State.tickSeq_hostUp (s : State) : (s.tickSeq).hostUp = s.hostUp := rfl
@[simp] theorem State.tickSeq_hostCxl (s : State) : (s.tickSeq).hostCxl = s.hostCxl := rfl
@[simp] theorem State.tickSeq_hostRate (s : State) : (s.tickSeq).hostRate = s.hostRate := rfl
@[simp] theorem State.tickSeq_hostWidth (s : State) : (s.tickSeq).hostWidth = s.hostWidth := rfl
@[simp] theorem State.tickSeq_cxlPorts (s : State) : (s.tickSeq).cxlPorts = s.cxlPorts := rfl
@[simp] theorem State.tickSeq_cxlLost (s : State) : (s.tickSeq).cxlLost = s.cxlLost := rfl
@[simp] theorem State.tickSeq_booted (s : State) : (s.tickSeq).booted = s.booted := rfl
@[simp] theorem State.tickSeq_sent (s : State) : (s.tickSeq).sent = s.sent := rfl
@[simp] theorem State.tickSeq_window (s : State) : (s.tickSeq).window = s.window := rfl
@[simp] theorem State.tickSeq_thermal (s : State) : (s.tickSeq).thermal = s.thermal := rfl
@[simp] theorem State.tickSeq_mem (s : State) : (s.tickSeq).mem = s.mem := rfl
@[simp] theorem State.tickSeq_eccLines (s : State) : (s.tickSeq).eccLines = s.eccLines := rfl
@[simp] theorem State.tickSeq_eccOnes (s : State) : (s.tickSeq).eccOnes = s.eccOnes := rfl
@[simp] theorem State.tickSeq_comp (s : State) : (s.tickSeq).comp = s.comp := rfl
@[simp] theorem State.tickSeq_accs (s : State) : (s.tickSeq).accs = s.accs := rfl
@[simp] theorem State.tickSeq_owners (s : State) : (s.tickSeq).owners = s.owners := rfl
@[simp] theorem State.tickSeq_ors (s : State) : (s.tickSeq).ors = s.ors := rfl
@[simp] theorem State.tickSeq_ops (s : State) : (s.tickSeq).ops = s.ops := rfl
@[simp] theorem State.tickSeq_walks (s : State) : (s.tickSeq).walks = s.walks := rfl
@[simp] theorem State.tickSeq_cores (s : State) : (s.tickSeq).cores = s.cores := rfl
@[simp] theorem State.tickSeq_teams (s : State) : (s.tickSeq).teams = s.teams := rfl
@[simp] theorem State.tickSeq_ridges (s : State) : (s.tickSeq).ridges = s.ridges := rfl
@[simp] theorem State.tickSeq_blocks (s : State) : (s.tickSeq).blocks = s.blocks := rfl
@[simp] theorem State.tickSeq_stks (s : State) : (s.tickSeq).stks = s.stks := rfl
@[simp] theorem State.tickSeq_slices (s : State) : (s.tickSeq).slices = s.slices := rfl
@[simp] theorem State.tickSeq_ctxs (s : State) : (s.tickSeq).ctxs = s.ctxs := rfl
@[simp] theorem State.tickSeq_parts (s : State) : (s.tickSeq).parts = s.parts := rfl
@[simp] theorem State.tickSeq_launches (s : State) : (s.tickSeq).launches = s.launches := rfl
@[simp] theorem State.tickSeq_ending (s : State) : (s.tickSeq).ending = s.ending := rfl
@[simp] theorem State.tickSeq_net (s : State) : (s.tickSeq).net = s.net := rfl
@[simp] theorem State.tickSeq_ctr (s : State) : (s.tickSeq).ctr = s.ctr := rfl
@[simp] theorem State.tickSeq_hostData (s : State) : (s.tickSeq).hostData = s.hostData := rfl
@[simp] theorem State.tickSeq_agenda (s : State) : (s.tickSeq).agenda = s.agenda := rfl
@[simp] theorem State.tickSeq_cur (s : State) : (s.tickSeq).cur = s.cur := rfl
@[simp] theorem State.tickSeq_free (s : State) : (s.tickSeq).free = s.free := rfl
@[simp] theorem State.tickFree_part (s : State) : (s.tickFree).part = s.part := rfl
@[simp] theorem State.tickFree_pkg (s : State) : (s.tickFree).pkg = s.pkg := rfl
@[simp] theorem State.tickFree_cycle (s : State) : (s.tickFree).cycle = s.cycle := rfl
@[simp] theorem State.tickFree_tick (s : State) : (s.tickFree).tick = s.tick := rfl
@[simp] theorem State.tickFree_bcSize (s : State) : (s.tickFree).bcSize = s.bcSize := rfl
@[simp] theorem State.tickFree_memT2 (s : State) : (s.tickFree).memT2 = s.memT2 := rfl
@[simp] theorem State.tickFree_memHbm (s : State) : (s.tickFree).memHbm = s.memHbm := rfl
@[simp] theorem State.tickFree_peers (s : State) : (s.tickFree).peers = s.peers := rfl
@[simp] theorem State.tickFree_classes (s : State) : (s.tickFree).classes = s.classes := rfl
@[simp] theorem State.tickFree_spillBase (s : State) : (s.tickFree).spillBase = s.spillBase := rfl
@[simp] theorem State.tickFree_fwStatus (s : State) : (s.tickFree).fwStatus = s.fwStatus := rfl
@[simp] theorem State.tickFree_fwGo (s : State) : (s.tickFree).fwGo = s.fwGo := rfl
@[simp] theorem State.tickFree_firmware (s : State) : (s.tickFree).firmware = s.firmware := rfl
@[simp] theorem State.tickFree_fwOldest (s : State) : (s.tickFree).fwOldest = s.fwOldest := rfl
@[simp] theorem State.tickFree_rootKey (s : State) : (s.tickFree).rootKey = s.rootKey := rfl
@[simp] theorem State.tickFree_pcap (s : State) : (s.tickFree).pcap = s.pcap := rfl
@[simp] theorem State.tickFree_reports (s : State) : (s.tickFree).reports = s.reports := rfl
@[simp] theorem State.tickFree_ports (s : State) : (s.tickFree).ports = s.ports := rfl
@[simp] theorem State.tickFree_timeOff (s : State) : (s.tickFree).timeOff = s.timeOff := rfl
@[simp] theorem State.tickFree_timeSync (s : State) : (s.tickFree).timeSync = s.timeSync := rfl
@[simp] theorem State.tickFree_slew (s : State) : (s.tickFree).slew = s.slew := rfl
@[simp] theorem State.tickFree_slewGap (s : State) : (s.tickFree).slewGap = s.slewGap := rfl
@[simp] theorem State.tickFree_master (s : State) : (s.tickFree).master = s.master := rfl
@[simp] theorem State.tickFree_hostUp (s : State) : (s.tickFree).hostUp = s.hostUp := rfl
@[simp] theorem State.tickFree_hostCxl (s : State) : (s.tickFree).hostCxl = s.hostCxl := rfl
@[simp] theorem State.tickFree_hostRate (s : State) : (s.tickFree).hostRate = s.hostRate := rfl
@[simp] theorem State.tickFree_hostWidth (s : State) : (s.tickFree).hostWidth = s.hostWidth := rfl
@[simp] theorem State.tickFree_cxlPorts (s : State) : (s.tickFree).cxlPorts = s.cxlPorts := rfl
@[simp] theorem State.tickFree_cxlLost (s : State) : (s.tickFree).cxlLost = s.cxlLost := rfl
@[simp] theorem State.tickFree_booted (s : State) : (s.tickFree).booted = s.booted := rfl
@[simp] theorem State.tickFree_sent (s : State) : (s.tickFree).sent = s.sent := rfl
@[simp] theorem State.tickFree_window (s : State) : (s.tickFree).window = s.window := rfl
@[simp] theorem State.tickFree_thermal (s : State) : (s.tickFree).thermal = s.thermal := rfl
@[simp] theorem State.tickFree_mem (s : State) : (s.tickFree).mem = s.mem := rfl
@[simp] theorem State.tickFree_eccLines (s : State) : (s.tickFree).eccLines = s.eccLines := rfl
@[simp] theorem State.tickFree_eccOnes (s : State) : (s.tickFree).eccOnes = s.eccOnes := rfl
@[simp] theorem State.tickFree_comp (s : State) : (s.tickFree).comp = s.comp := rfl
@[simp] theorem State.tickFree_accs (s : State) : (s.tickFree).accs = s.accs := rfl
@[simp] theorem State.tickFree_owners (s : State) : (s.tickFree).owners = s.owners := rfl
@[simp] theorem State.tickFree_ors (s : State) : (s.tickFree).ors = s.ors := rfl
@[simp] theorem State.tickFree_ops (s : State) : (s.tickFree).ops = s.ops := rfl
@[simp] theorem State.tickFree_walks (s : State) : (s.tickFree).walks = s.walks := rfl
@[simp] theorem State.tickFree_cores (s : State) : (s.tickFree).cores = s.cores := rfl
@[simp] theorem State.tickFree_teams (s : State) : (s.tickFree).teams = s.teams := rfl
@[simp] theorem State.tickFree_ridges (s : State) : (s.tickFree).ridges = s.ridges := rfl
@[simp] theorem State.tickFree_blocks (s : State) : (s.tickFree).blocks = s.blocks := rfl
@[simp] theorem State.tickFree_stks (s : State) : (s.tickFree).stks = s.stks := rfl
@[simp] theorem State.tickFree_slices (s : State) : (s.tickFree).slices = s.slices := rfl
@[simp] theorem State.tickFree_ctxs (s : State) : (s.tickFree).ctxs = s.ctxs := rfl
@[simp] theorem State.tickFree_parts (s : State) : (s.tickFree).parts = s.parts := rfl
@[simp] theorem State.tickFree_launches (s : State) : (s.tickFree).launches = s.launches := rfl
@[simp] theorem State.tickFree_ending (s : State) : (s.tickFree).ending = s.ending := rfl
@[simp] theorem State.tickFree_net (s : State) : (s.tickFree).net = s.net := rfl
@[simp] theorem State.tickFree_ctr (s : State) : (s.tickFree).ctr = s.ctr := rfl
@[simp] theorem State.tickFree_hostData (s : State) : (s.tickFree).hostData = s.hostData := rfl
@[simp] theorem State.tickFree_agenda (s : State) : (s.tickFree).agenda = s.agenda := rfl
@[simp] theorem State.tickFree_cur (s : State) : (s.tickFree).cur = s.cur := rfl
@[simp] theorem State.tickFree_seq (s : State) : (s.tickFree).seq = s.seq := rfl
@[simp] theorem State.modCore_part (s : State) (c : Nat) (f : Core → Core) : (s.modCore c f).part = s.part := rfl
@[simp] theorem State.modCore_pkg (s : State) (c : Nat) (f : Core → Core) : (s.modCore c f).pkg = s.pkg := rfl
@[simp] theorem State.modCore_cycle (s : State) (c : Nat) (f : Core → Core) : (s.modCore c f).cycle = s.cycle := rfl
@[simp] theorem State.modCore_tick (s : State) (c : Nat) (f : Core → Core) : (s.modCore c f).tick = s.tick := rfl
@[simp] theorem State.modCore_bcSize (s : State) (c : Nat) (f : Core → Core) : (s.modCore c f).bcSize = s.bcSize := rfl
@[simp] theorem State.modCore_memT2 (s : State) (c : Nat) (f : Core → Core) : (s.modCore c f).memT2 = s.memT2 := rfl
@[simp] theorem State.modCore_memHbm (s : State) (c : Nat) (f : Core → Core) : (s.modCore c f).memHbm = s.memHbm := rfl
@[simp] theorem State.modCore_peers (s : State) (c : Nat) (f : Core → Core) : (s.modCore c f).peers = s.peers := rfl
@[simp] theorem State.modCore_classes (s : State) (c : Nat) (f : Core → Core) : (s.modCore c f).classes = s.classes := rfl
@[simp] theorem State.modCore_spillBase (s : State) (c : Nat) (f : Core → Core) : (s.modCore c f).spillBase = s.spillBase := rfl
@[simp] theorem State.modCore_fwStatus (s : State) (c : Nat) (f : Core → Core) : (s.modCore c f).fwStatus = s.fwStatus := rfl
@[simp] theorem State.modCore_fwGo (s : State) (c : Nat) (f : Core → Core) : (s.modCore c f).fwGo = s.fwGo := rfl
@[simp] theorem State.modCore_firmware (s : State) (c : Nat) (f : Core → Core) : (s.modCore c f).firmware = s.firmware := rfl
@[simp] theorem State.modCore_fwOldest (s : State) (c : Nat) (f : Core → Core) : (s.modCore c f).fwOldest = s.fwOldest := rfl
@[simp] theorem State.modCore_rootKey (s : State) (c : Nat) (f : Core → Core) : (s.modCore c f).rootKey = s.rootKey := rfl
@[simp] theorem State.modCore_pcap (s : State) (c : Nat) (f : Core → Core) : (s.modCore c f).pcap = s.pcap := rfl
@[simp] theorem State.modCore_reports (s : State) (c : Nat) (f : Core → Core) : (s.modCore c f).reports = s.reports := rfl
@[simp] theorem State.modCore_ports (s : State) (c : Nat) (f : Core → Core) : (s.modCore c f).ports = s.ports := rfl
@[simp] theorem State.modCore_timeOff (s : State) (c : Nat) (f : Core → Core) : (s.modCore c f).timeOff = s.timeOff := rfl
@[simp] theorem State.modCore_timeSync (s : State) (c : Nat) (f : Core → Core) : (s.modCore c f).timeSync = s.timeSync := rfl
@[simp] theorem State.modCore_slew (s : State) (c : Nat) (f : Core → Core) : (s.modCore c f).slew = s.slew := rfl
@[simp] theorem State.modCore_slewGap (s : State) (c : Nat) (f : Core → Core) : (s.modCore c f).slewGap = s.slewGap := rfl
@[simp] theorem State.modCore_master (s : State) (c : Nat) (f : Core → Core) : (s.modCore c f).master = s.master := rfl
@[simp] theorem State.modCore_hostUp (s : State) (c : Nat) (f : Core → Core) : (s.modCore c f).hostUp = s.hostUp := rfl
@[simp] theorem State.modCore_hostCxl (s : State) (c : Nat) (f : Core → Core) : (s.modCore c f).hostCxl = s.hostCxl := rfl
@[simp] theorem State.modCore_hostRate (s : State) (c : Nat) (f : Core → Core) : (s.modCore c f).hostRate = s.hostRate := rfl
@[simp] theorem State.modCore_hostWidth (s : State) (c : Nat) (f : Core → Core) : (s.modCore c f).hostWidth = s.hostWidth := rfl
@[simp] theorem State.modCore_cxlPorts (s : State) (c : Nat) (f : Core → Core) : (s.modCore c f).cxlPorts = s.cxlPorts := rfl
@[simp] theorem State.modCore_cxlLost (s : State) (c : Nat) (f : Core → Core) : (s.modCore c f).cxlLost = s.cxlLost := rfl
@[simp] theorem State.modCore_booted (s : State) (c : Nat) (f : Core → Core) : (s.modCore c f).booted = s.booted := rfl
@[simp] theorem State.modCore_sent (s : State) (c : Nat) (f : Core → Core) : (s.modCore c f).sent = s.sent := rfl
@[simp] theorem State.modCore_window (s : State) (c : Nat) (f : Core → Core) : (s.modCore c f).window = s.window := rfl
@[simp] theorem State.modCore_thermal (s : State) (c : Nat) (f : Core → Core) : (s.modCore c f).thermal = s.thermal := rfl
@[simp] theorem State.modCore_mem (s : State) (c : Nat) (f : Core → Core) : (s.modCore c f).mem = s.mem := rfl
@[simp] theorem State.modCore_eccLines (s : State) (c : Nat) (f : Core → Core) : (s.modCore c f).eccLines = s.eccLines := rfl
@[simp] theorem State.modCore_eccOnes (s : State) (c : Nat) (f : Core → Core) : (s.modCore c f).eccOnes = s.eccOnes := rfl
@[simp] theorem State.modCore_comp (s : State) (c : Nat) (f : Core → Core) : (s.modCore c f).comp = s.comp := rfl
@[simp] theorem State.modCore_accs (s : State) (c : Nat) (f : Core → Core) : (s.modCore c f).accs = s.accs := rfl
@[simp] theorem State.modCore_owners (s : State) (c : Nat) (f : Core → Core) : (s.modCore c f).owners = s.owners := rfl
@[simp] theorem State.modCore_ors (s : State) (c : Nat) (f : Core → Core) : (s.modCore c f).ors = s.ors := rfl
@[simp] theorem State.modCore_ops (s : State) (c : Nat) (f : Core → Core) : (s.modCore c f).ops = s.ops := rfl
@[simp] theorem State.modCore_walks (s : State) (c : Nat) (f : Core → Core) : (s.modCore c f).walks = s.walks := rfl
@[simp] theorem State.modCore_teams (s : State) (c : Nat) (f : Core → Core) : (s.modCore c f).teams = s.teams := rfl
@[simp] theorem State.modCore_ridges (s : State) (c : Nat) (f : Core → Core) : (s.modCore c f).ridges = s.ridges := rfl
@[simp] theorem State.modCore_blocks (s : State) (c : Nat) (f : Core → Core) : (s.modCore c f).blocks = s.blocks := rfl
@[simp] theorem State.modCore_stks (s : State) (c : Nat) (f : Core → Core) : (s.modCore c f).stks = s.stks := rfl
@[simp] theorem State.modCore_slices (s : State) (c : Nat) (f : Core → Core) : (s.modCore c f).slices = s.slices := rfl
@[simp] theorem State.modCore_ctxs (s : State) (c : Nat) (f : Core → Core) : (s.modCore c f).ctxs = s.ctxs := rfl
@[simp] theorem State.modCore_parts (s : State) (c : Nat) (f : Core → Core) : (s.modCore c f).parts = s.parts := rfl
@[simp] theorem State.modCore_launches (s : State) (c : Nat) (f : Core → Core) : (s.modCore c f).launches = s.launches := rfl
@[simp] theorem State.modCore_ending (s : State) (c : Nat) (f : Core → Core) : (s.modCore c f).ending = s.ending := rfl
@[simp] theorem State.modCore_net (s : State) (c : Nat) (f : Core → Core) : (s.modCore c f).net = s.net := rfl
@[simp] theorem State.modCore_ctr (s : State) (c : Nat) (f : Core → Core) : (s.modCore c f).ctr = s.ctr := rfl
@[simp] theorem State.modCore_hostData (s : State) (c : Nat) (f : Core → Core) : (s.modCore c f).hostData = s.hostData := rfl
@[simp] theorem State.modCore_agenda (s : State) (c : Nat) (f : Core → Core) : (s.modCore c f).agenda = s.agenda := rfl
@[simp] theorem State.modCore_cur (s : State) (c : Nat) (f : Core → Core) : (s.modCore c f).cur = s.cur := rfl
@[simp] theorem State.modCore_seq (s : State) (c : Nat) (f : Core → Core) : (s.modCore c f).seq = s.seq := rfl
@[simp] theorem State.modCore_free (s : State) (c : Nat) (f : Core → Core) : (s.modCore c f).free = s.free := rfl
@[simp] theorem State.modCtx_part (s : State) (c : Nat) (f : Ctx → Ctx) : (s.modCtx c f).part = s.part := rfl
@[simp] theorem State.modCtx_pkg (s : State) (c : Nat) (f : Ctx → Ctx) : (s.modCtx c f).pkg = s.pkg := rfl
@[simp] theorem State.modCtx_cycle (s : State) (c : Nat) (f : Ctx → Ctx) : (s.modCtx c f).cycle = s.cycle := rfl
@[simp] theorem State.modCtx_tick (s : State) (c : Nat) (f : Ctx → Ctx) : (s.modCtx c f).tick = s.tick := rfl
@[simp] theorem State.modCtx_bcSize (s : State) (c : Nat) (f : Ctx → Ctx) : (s.modCtx c f).bcSize = s.bcSize := rfl
@[simp] theorem State.modCtx_memT2 (s : State) (c : Nat) (f : Ctx → Ctx) : (s.modCtx c f).memT2 = s.memT2 := rfl
@[simp] theorem State.modCtx_memHbm (s : State) (c : Nat) (f : Ctx → Ctx) : (s.modCtx c f).memHbm = s.memHbm := rfl
@[simp] theorem State.modCtx_peers (s : State) (c : Nat) (f : Ctx → Ctx) : (s.modCtx c f).peers = s.peers := rfl
@[simp] theorem State.modCtx_classes (s : State) (c : Nat) (f : Ctx → Ctx) : (s.modCtx c f).classes = s.classes := rfl
@[simp] theorem State.modCtx_spillBase (s : State) (c : Nat) (f : Ctx → Ctx) : (s.modCtx c f).spillBase = s.spillBase := rfl
@[simp] theorem State.modCtx_fwStatus (s : State) (c : Nat) (f : Ctx → Ctx) : (s.modCtx c f).fwStatus = s.fwStatus := rfl
@[simp] theorem State.modCtx_fwGo (s : State) (c : Nat) (f : Ctx → Ctx) : (s.modCtx c f).fwGo = s.fwGo := rfl
@[simp] theorem State.modCtx_firmware (s : State) (c : Nat) (f : Ctx → Ctx) : (s.modCtx c f).firmware = s.firmware := rfl
@[simp] theorem State.modCtx_fwOldest (s : State) (c : Nat) (f : Ctx → Ctx) : (s.modCtx c f).fwOldest = s.fwOldest := rfl
@[simp] theorem State.modCtx_rootKey (s : State) (c : Nat) (f : Ctx → Ctx) : (s.modCtx c f).rootKey = s.rootKey := rfl
@[simp] theorem State.modCtx_pcap (s : State) (c : Nat) (f : Ctx → Ctx) : (s.modCtx c f).pcap = s.pcap := rfl
@[simp] theorem State.modCtx_reports (s : State) (c : Nat) (f : Ctx → Ctx) : (s.modCtx c f).reports = s.reports := rfl
@[simp] theorem State.modCtx_ports (s : State) (c : Nat) (f : Ctx → Ctx) : (s.modCtx c f).ports = s.ports := rfl
@[simp] theorem State.modCtx_timeOff (s : State) (c : Nat) (f : Ctx → Ctx) : (s.modCtx c f).timeOff = s.timeOff := rfl
@[simp] theorem State.modCtx_timeSync (s : State) (c : Nat) (f : Ctx → Ctx) : (s.modCtx c f).timeSync = s.timeSync := rfl
@[simp] theorem State.modCtx_slew (s : State) (c : Nat) (f : Ctx → Ctx) : (s.modCtx c f).slew = s.slew := rfl
@[simp] theorem State.modCtx_slewGap (s : State) (c : Nat) (f : Ctx → Ctx) : (s.modCtx c f).slewGap = s.slewGap := rfl
@[simp] theorem State.modCtx_master (s : State) (c : Nat) (f : Ctx → Ctx) : (s.modCtx c f).master = s.master := rfl
@[simp] theorem State.modCtx_hostUp (s : State) (c : Nat) (f : Ctx → Ctx) : (s.modCtx c f).hostUp = s.hostUp := rfl
@[simp] theorem State.modCtx_hostCxl (s : State) (c : Nat) (f : Ctx → Ctx) : (s.modCtx c f).hostCxl = s.hostCxl := rfl
@[simp] theorem State.modCtx_hostRate (s : State) (c : Nat) (f : Ctx → Ctx) : (s.modCtx c f).hostRate = s.hostRate := rfl
@[simp] theorem State.modCtx_hostWidth (s : State) (c : Nat) (f : Ctx → Ctx) : (s.modCtx c f).hostWidth = s.hostWidth := rfl
@[simp] theorem State.modCtx_cxlPorts (s : State) (c : Nat) (f : Ctx → Ctx) : (s.modCtx c f).cxlPorts = s.cxlPorts := rfl
@[simp] theorem State.modCtx_cxlLost (s : State) (c : Nat) (f : Ctx → Ctx) : (s.modCtx c f).cxlLost = s.cxlLost := rfl
@[simp] theorem State.modCtx_booted (s : State) (c : Nat) (f : Ctx → Ctx) : (s.modCtx c f).booted = s.booted := rfl
@[simp] theorem State.modCtx_sent (s : State) (c : Nat) (f : Ctx → Ctx) : (s.modCtx c f).sent = s.sent := rfl
@[simp] theorem State.modCtx_window (s : State) (c : Nat) (f : Ctx → Ctx) : (s.modCtx c f).window = s.window := rfl
@[simp] theorem State.modCtx_thermal (s : State) (c : Nat) (f : Ctx → Ctx) : (s.modCtx c f).thermal = s.thermal := rfl
@[simp] theorem State.modCtx_mem (s : State) (c : Nat) (f : Ctx → Ctx) : (s.modCtx c f).mem = s.mem := rfl
@[simp] theorem State.modCtx_eccLines (s : State) (c : Nat) (f : Ctx → Ctx) : (s.modCtx c f).eccLines = s.eccLines := rfl
@[simp] theorem State.modCtx_eccOnes (s : State) (c : Nat) (f : Ctx → Ctx) : (s.modCtx c f).eccOnes = s.eccOnes := rfl
@[simp] theorem State.modCtx_comp (s : State) (c : Nat) (f : Ctx → Ctx) : (s.modCtx c f).comp = s.comp := rfl
@[simp] theorem State.modCtx_accs (s : State) (c : Nat) (f : Ctx → Ctx) : (s.modCtx c f).accs = s.accs := rfl
@[simp] theorem State.modCtx_owners (s : State) (c : Nat) (f : Ctx → Ctx) : (s.modCtx c f).owners = s.owners := rfl
@[simp] theorem State.modCtx_ors (s : State) (c : Nat) (f : Ctx → Ctx) : (s.modCtx c f).ors = s.ors := rfl
@[simp] theorem State.modCtx_ops (s : State) (c : Nat) (f : Ctx → Ctx) : (s.modCtx c f).ops = s.ops := rfl
@[simp] theorem State.modCtx_walks (s : State) (c : Nat) (f : Ctx → Ctx) : (s.modCtx c f).walks = s.walks := rfl
@[simp] theorem State.modCtx_cores (s : State) (c : Nat) (f : Ctx → Ctx) : (s.modCtx c f).cores = s.cores := rfl
@[simp] theorem State.modCtx_teams (s : State) (c : Nat) (f : Ctx → Ctx) : (s.modCtx c f).teams = s.teams := rfl
@[simp] theorem State.modCtx_ridges (s : State) (c : Nat) (f : Ctx → Ctx) : (s.modCtx c f).ridges = s.ridges := rfl
@[simp] theorem State.modCtx_blocks (s : State) (c : Nat) (f : Ctx → Ctx) : (s.modCtx c f).blocks = s.blocks := rfl
@[simp] theorem State.modCtx_stks (s : State) (c : Nat) (f : Ctx → Ctx) : (s.modCtx c f).stks = s.stks := rfl
@[simp] theorem State.modCtx_slices (s : State) (c : Nat) (f : Ctx → Ctx) : (s.modCtx c f).slices = s.slices := rfl
@[simp] theorem State.modCtx_parts (s : State) (c : Nat) (f : Ctx → Ctx) : (s.modCtx c f).parts = s.parts := rfl
@[simp] theorem State.modCtx_launches (s : State) (c : Nat) (f : Ctx → Ctx) : (s.modCtx c f).launches = s.launches := rfl
@[simp] theorem State.modCtx_ending (s : State) (c : Nat) (f : Ctx → Ctx) : (s.modCtx c f).ending = s.ending := rfl
@[simp] theorem State.modCtx_net (s : State) (c : Nat) (f : Ctx → Ctx) : (s.modCtx c f).net = s.net := rfl
@[simp] theorem State.modCtx_ctr (s : State) (c : Nat) (f : Ctx → Ctx) : (s.modCtx c f).ctr = s.ctr := rfl
@[simp] theorem State.modCtx_hostData (s : State) (c : Nat) (f : Ctx → Ctx) : (s.modCtx c f).hostData = s.hostData := rfl
@[simp] theorem State.modCtx_agenda (s : State) (c : Nat) (f : Ctx → Ctx) : (s.modCtx c f).agenda = s.agenda := rfl
@[simp] theorem State.modCtx_cur (s : State) (c : Nat) (f : Ctx → Ctx) : (s.modCtx c f).cur = s.cur := rfl
@[simp] theorem State.modCtx_seq (s : State) (c : Nat) (f : Ctx → Ctx) : (s.modCtx c f).seq = s.seq := rfl
@[simp] theorem State.modCtx_free (s : State) (c : Nat) (f : Ctx → Ctx) : (s.modCtx c f).free = s.free := rfl
@[simp] theorem State.modStk_part (s : State) (c : Nat) (f : Stack → Stack) : (s.modStk c f).part = s.part := rfl
@[simp] theorem State.modStk_pkg (s : State) (c : Nat) (f : Stack → Stack) : (s.modStk c f).pkg = s.pkg := rfl
@[simp] theorem State.modStk_cycle (s : State) (c : Nat) (f : Stack → Stack) : (s.modStk c f).cycle = s.cycle := rfl
@[simp] theorem State.modStk_tick (s : State) (c : Nat) (f : Stack → Stack) : (s.modStk c f).tick = s.tick := rfl
@[simp] theorem State.modStk_bcSize (s : State) (c : Nat) (f : Stack → Stack) : (s.modStk c f).bcSize = s.bcSize := rfl
@[simp] theorem State.modStk_memT2 (s : State) (c : Nat) (f : Stack → Stack) : (s.modStk c f).memT2 = s.memT2 := rfl
@[simp] theorem State.modStk_memHbm (s : State) (c : Nat) (f : Stack → Stack) : (s.modStk c f).memHbm = s.memHbm := rfl
@[simp] theorem State.modStk_peers (s : State) (c : Nat) (f : Stack → Stack) : (s.modStk c f).peers = s.peers := rfl
@[simp] theorem State.modStk_classes (s : State) (c : Nat) (f : Stack → Stack) : (s.modStk c f).classes = s.classes := rfl
@[simp] theorem State.modStk_spillBase (s : State) (c : Nat) (f : Stack → Stack) : (s.modStk c f).spillBase = s.spillBase := rfl
@[simp] theorem State.modStk_fwStatus (s : State) (c : Nat) (f : Stack → Stack) : (s.modStk c f).fwStatus = s.fwStatus := rfl
@[simp] theorem State.modStk_fwGo (s : State) (c : Nat) (f : Stack → Stack) : (s.modStk c f).fwGo = s.fwGo := rfl
@[simp] theorem State.modStk_firmware (s : State) (c : Nat) (f : Stack → Stack) : (s.modStk c f).firmware = s.firmware := rfl
@[simp] theorem State.modStk_fwOldest (s : State) (c : Nat) (f : Stack → Stack) : (s.modStk c f).fwOldest = s.fwOldest := rfl
@[simp] theorem State.modStk_rootKey (s : State) (c : Nat) (f : Stack → Stack) : (s.modStk c f).rootKey = s.rootKey := rfl
@[simp] theorem State.modStk_pcap (s : State) (c : Nat) (f : Stack → Stack) : (s.modStk c f).pcap = s.pcap := rfl
@[simp] theorem State.modStk_reports (s : State) (c : Nat) (f : Stack → Stack) : (s.modStk c f).reports = s.reports := rfl
@[simp] theorem State.modStk_ports (s : State) (c : Nat) (f : Stack → Stack) : (s.modStk c f).ports = s.ports := rfl
@[simp] theorem State.modStk_timeOff (s : State) (c : Nat) (f : Stack → Stack) : (s.modStk c f).timeOff = s.timeOff := rfl
@[simp] theorem State.modStk_timeSync (s : State) (c : Nat) (f : Stack → Stack) : (s.modStk c f).timeSync = s.timeSync := rfl
@[simp] theorem State.modStk_slew (s : State) (c : Nat) (f : Stack → Stack) : (s.modStk c f).slew = s.slew := rfl
@[simp] theorem State.modStk_slewGap (s : State) (c : Nat) (f : Stack → Stack) : (s.modStk c f).slewGap = s.slewGap := rfl
@[simp] theorem State.modStk_master (s : State) (c : Nat) (f : Stack → Stack) : (s.modStk c f).master = s.master := rfl
@[simp] theorem State.modStk_hostUp (s : State) (c : Nat) (f : Stack → Stack) : (s.modStk c f).hostUp = s.hostUp := rfl
@[simp] theorem State.modStk_hostCxl (s : State) (c : Nat) (f : Stack → Stack) : (s.modStk c f).hostCxl = s.hostCxl := rfl
@[simp] theorem State.modStk_hostRate (s : State) (c : Nat) (f : Stack → Stack) : (s.modStk c f).hostRate = s.hostRate := rfl
@[simp] theorem State.modStk_hostWidth (s : State) (c : Nat) (f : Stack → Stack) : (s.modStk c f).hostWidth = s.hostWidth := rfl
@[simp] theorem State.modStk_cxlPorts (s : State) (c : Nat) (f : Stack → Stack) : (s.modStk c f).cxlPorts = s.cxlPorts := rfl
@[simp] theorem State.modStk_cxlLost (s : State) (c : Nat) (f : Stack → Stack) : (s.modStk c f).cxlLost = s.cxlLost := rfl
@[simp] theorem State.modStk_booted (s : State) (c : Nat) (f : Stack → Stack) : (s.modStk c f).booted = s.booted := rfl
@[simp] theorem State.modStk_sent (s : State) (c : Nat) (f : Stack → Stack) : (s.modStk c f).sent = s.sent := rfl
@[simp] theorem State.modStk_window (s : State) (c : Nat) (f : Stack → Stack) : (s.modStk c f).window = s.window := rfl
@[simp] theorem State.modStk_thermal (s : State) (c : Nat) (f : Stack → Stack) : (s.modStk c f).thermal = s.thermal := rfl
@[simp] theorem State.modStk_mem (s : State) (c : Nat) (f : Stack → Stack) : (s.modStk c f).mem = s.mem := rfl
@[simp] theorem State.modStk_eccLines (s : State) (c : Nat) (f : Stack → Stack) : (s.modStk c f).eccLines = s.eccLines := rfl
@[simp] theorem State.modStk_eccOnes (s : State) (c : Nat) (f : Stack → Stack) : (s.modStk c f).eccOnes = s.eccOnes := rfl
@[simp] theorem State.modStk_comp (s : State) (c : Nat) (f : Stack → Stack) : (s.modStk c f).comp = s.comp := rfl
@[simp] theorem State.modStk_accs (s : State) (c : Nat) (f : Stack → Stack) : (s.modStk c f).accs = s.accs := rfl
@[simp] theorem State.modStk_owners (s : State) (c : Nat) (f : Stack → Stack) : (s.modStk c f).owners = s.owners := rfl
@[simp] theorem State.modStk_ors (s : State) (c : Nat) (f : Stack → Stack) : (s.modStk c f).ors = s.ors := rfl
@[simp] theorem State.modStk_ops (s : State) (c : Nat) (f : Stack → Stack) : (s.modStk c f).ops = s.ops := rfl
@[simp] theorem State.modStk_walks (s : State) (c : Nat) (f : Stack → Stack) : (s.modStk c f).walks = s.walks := rfl
@[simp] theorem State.modStk_cores (s : State) (c : Nat) (f : Stack → Stack) : (s.modStk c f).cores = s.cores := rfl
@[simp] theorem State.modStk_teams (s : State) (c : Nat) (f : Stack → Stack) : (s.modStk c f).teams = s.teams := rfl
@[simp] theorem State.modStk_ridges (s : State) (c : Nat) (f : Stack → Stack) : (s.modStk c f).ridges = s.ridges := rfl
@[simp] theorem State.modStk_blocks (s : State) (c : Nat) (f : Stack → Stack) : (s.modStk c f).blocks = s.blocks := rfl
@[simp] theorem State.modStk_slices (s : State) (c : Nat) (f : Stack → Stack) : (s.modStk c f).slices = s.slices := rfl
@[simp] theorem State.modStk_ctxs (s : State) (c : Nat) (f : Stack → Stack) : (s.modStk c f).ctxs = s.ctxs := rfl
@[simp] theorem State.modStk_parts (s : State) (c : Nat) (f : Stack → Stack) : (s.modStk c f).parts = s.parts := rfl
@[simp] theorem State.modStk_launches (s : State) (c : Nat) (f : Stack → Stack) : (s.modStk c f).launches = s.launches := rfl
@[simp] theorem State.modStk_ending (s : State) (c : Nat) (f : Stack → Stack) : (s.modStk c f).ending = s.ending := rfl
@[simp] theorem State.modStk_net (s : State) (c : Nat) (f : Stack → Stack) : (s.modStk c f).net = s.net := rfl
@[simp] theorem State.modStk_ctr (s : State) (c : Nat) (f : Stack → Stack) : (s.modStk c f).ctr = s.ctr := rfl
@[simp] theorem State.modStk_hostData (s : State) (c : Nat) (f : Stack → Stack) : (s.modStk c f).hostData = s.hostData := rfl
@[simp] theorem State.modStk_agenda (s : State) (c : Nat) (f : Stack → Stack) : (s.modStk c f).agenda = s.agenda := rfl
@[simp] theorem State.modStk_cur (s : State) (c : Nat) (f : Stack → Stack) : (s.modStk c f).cur = s.cur := rfl
@[simp] theorem State.modStk_seq (s : State) (c : Nat) (f : Stack → Stack) : (s.modStk c f).seq = s.seq := rfl
@[simp] theorem State.modStk_free (s : State) (c : Nat) (f : Stack → Stack) : (s.modStk c f).free = s.free := rfl
@[simp] theorem State.modSlice_part (s : State) (c : Nat) (f : Slice → Slice) : (s.modSlice c f).part = s.part := rfl
@[simp] theorem State.modSlice_pkg (s : State) (c : Nat) (f : Slice → Slice) : (s.modSlice c f).pkg = s.pkg := rfl
@[simp] theorem State.modSlice_cycle (s : State) (c : Nat) (f : Slice → Slice) : (s.modSlice c f).cycle = s.cycle := rfl
@[simp] theorem State.modSlice_tick (s : State) (c : Nat) (f : Slice → Slice) : (s.modSlice c f).tick = s.tick := rfl
@[simp] theorem State.modSlice_bcSize (s : State) (c : Nat) (f : Slice → Slice) : (s.modSlice c f).bcSize = s.bcSize := rfl
@[simp] theorem State.modSlice_memT2 (s : State) (c : Nat) (f : Slice → Slice) : (s.modSlice c f).memT2 = s.memT2 := rfl
@[simp] theorem State.modSlice_memHbm (s : State) (c : Nat) (f : Slice → Slice) : (s.modSlice c f).memHbm = s.memHbm := rfl
@[simp] theorem State.modSlice_peers (s : State) (c : Nat) (f : Slice → Slice) : (s.modSlice c f).peers = s.peers := rfl
@[simp] theorem State.modSlice_classes (s : State) (c : Nat) (f : Slice → Slice) : (s.modSlice c f).classes = s.classes := rfl
@[simp] theorem State.modSlice_spillBase (s : State) (c : Nat) (f : Slice → Slice) : (s.modSlice c f).spillBase = s.spillBase := rfl
@[simp] theorem State.modSlice_fwStatus (s : State) (c : Nat) (f : Slice → Slice) : (s.modSlice c f).fwStatus = s.fwStatus := rfl
@[simp] theorem State.modSlice_fwGo (s : State) (c : Nat) (f : Slice → Slice) : (s.modSlice c f).fwGo = s.fwGo := rfl
@[simp] theorem State.modSlice_firmware (s : State) (c : Nat) (f : Slice → Slice) : (s.modSlice c f).firmware = s.firmware := rfl
@[simp] theorem State.modSlice_fwOldest (s : State) (c : Nat) (f : Slice → Slice) : (s.modSlice c f).fwOldest = s.fwOldest := rfl
@[simp] theorem State.modSlice_rootKey (s : State) (c : Nat) (f : Slice → Slice) : (s.modSlice c f).rootKey = s.rootKey := rfl
@[simp] theorem State.modSlice_pcap (s : State) (c : Nat) (f : Slice → Slice) : (s.modSlice c f).pcap = s.pcap := rfl
@[simp] theorem State.modSlice_reports (s : State) (c : Nat) (f : Slice → Slice) : (s.modSlice c f).reports = s.reports := rfl
@[simp] theorem State.modSlice_ports (s : State) (c : Nat) (f : Slice → Slice) : (s.modSlice c f).ports = s.ports := rfl
@[simp] theorem State.modSlice_timeOff (s : State) (c : Nat) (f : Slice → Slice) : (s.modSlice c f).timeOff = s.timeOff := rfl
@[simp] theorem State.modSlice_timeSync (s : State) (c : Nat) (f : Slice → Slice) : (s.modSlice c f).timeSync = s.timeSync := rfl
@[simp] theorem State.modSlice_slew (s : State) (c : Nat) (f : Slice → Slice) : (s.modSlice c f).slew = s.slew := rfl
@[simp] theorem State.modSlice_slewGap (s : State) (c : Nat) (f : Slice → Slice) : (s.modSlice c f).slewGap = s.slewGap := rfl
@[simp] theorem State.modSlice_master (s : State) (c : Nat) (f : Slice → Slice) : (s.modSlice c f).master = s.master := rfl
@[simp] theorem State.modSlice_hostUp (s : State) (c : Nat) (f : Slice → Slice) : (s.modSlice c f).hostUp = s.hostUp := rfl
@[simp] theorem State.modSlice_hostCxl (s : State) (c : Nat) (f : Slice → Slice) : (s.modSlice c f).hostCxl = s.hostCxl := rfl
@[simp] theorem State.modSlice_hostRate (s : State) (c : Nat) (f : Slice → Slice) : (s.modSlice c f).hostRate = s.hostRate := rfl
@[simp] theorem State.modSlice_hostWidth (s : State) (c : Nat) (f : Slice → Slice) : (s.modSlice c f).hostWidth = s.hostWidth := rfl
@[simp] theorem State.modSlice_cxlPorts (s : State) (c : Nat) (f : Slice → Slice) : (s.modSlice c f).cxlPorts = s.cxlPorts := rfl
@[simp] theorem State.modSlice_cxlLost (s : State) (c : Nat) (f : Slice → Slice) : (s.modSlice c f).cxlLost = s.cxlLost := rfl
@[simp] theorem State.modSlice_booted (s : State) (c : Nat) (f : Slice → Slice) : (s.modSlice c f).booted = s.booted := rfl
@[simp] theorem State.modSlice_sent (s : State) (c : Nat) (f : Slice → Slice) : (s.modSlice c f).sent = s.sent := rfl
@[simp] theorem State.modSlice_window (s : State) (c : Nat) (f : Slice → Slice) : (s.modSlice c f).window = s.window := rfl
@[simp] theorem State.modSlice_thermal (s : State) (c : Nat) (f : Slice → Slice) : (s.modSlice c f).thermal = s.thermal := rfl
@[simp] theorem State.modSlice_mem (s : State) (c : Nat) (f : Slice → Slice) : (s.modSlice c f).mem = s.mem := rfl
@[simp] theorem State.modSlice_eccLines (s : State) (c : Nat) (f : Slice → Slice) : (s.modSlice c f).eccLines = s.eccLines := rfl
@[simp] theorem State.modSlice_eccOnes (s : State) (c : Nat) (f : Slice → Slice) : (s.modSlice c f).eccOnes = s.eccOnes := rfl
@[simp] theorem State.modSlice_comp (s : State) (c : Nat) (f : Slice → Slice) : (s.modSlice c f).comp = s.comp := rfl
@[simp] theorem State.modSlice_accs (s : State) (c : Nat) (f : Slice → Slice) : (s.modSlice c f).accs = s.accs := rfl
@[simp] theorem State.modSlice_owners (s : State) (c : Nat) (f : Slice → Slice) : (s.modSlice c f).owners = s.owners := rfl
@[simp] theorem State.modSlice_ors (s : State) (c : Nat) (f : Slice → Slice) : (s.modSlice c f).ors = s.ors := rfl
@[simp] theorem State.modSlice_ops (s : State) (c : Nat) (f : Slice → Slice) : (s.modSlice c f).ops = s.ops := rfl
@[simp] theorem State.modSlice_walks (s : State) (c : Nat) (f : Slice → Slice) : (s.modSlice c f).walks = s.walks := rfl
@[simp] theorem State.modSlice_cores (s : State) (c : Nat) (f : Slice → Slice) : (s.modSlice c f).cores = s.cores := rfl
@[simp] theorem State.modSlice_teams (s : State) (c : Nat) (f : Slice → Slice) : (s.modSlice c f).teams = s.teams := rfl
@[simp] theorem State.modSlice_ridges (s : State) (c : Nat) (f : Slice → Slice) : (s.modSlice c f).ridges = s.ridges := rfl
@[simp] theorem State.modSlice_blocks (s : State) (c : Nat) (f : Slice → Slice) : (s.modSlice c f).blocks = s.blocks := rfl
@[simp] theorem State.modSlice_stks (s : State) (c : Nat) (f : Slice → Slice) : (s.modSlice c f).stks = s.stks := rfl
@[simp] theorem State.modSlice_ctxs (s : State) (c : Nat) (f : Slice → Slice) : (s.modSlice c f).ctxs = s.ctxs := rfl
@[simp] theorem State.modSlice_parts (s : State) (c : Nat) (f : Slice → Slice) : (s.modSlice c f).parts = s.parts := rfl
@[simp] theorem State.modSlice_launches (s : State) (c : Nat) (f : Slice → Slice) : (s.modSlice c f).launches = s.launches := rfl
@[simp] theorem State.modSlice_ending (s : State) (c : Nat) (f : Slice → Slice) : (s.modSlice c f).ending = s.ending := rfl
@[simp] theorem State.modSlice_net (s : State) (c : Nat) (f : Slice → Slice) : (s.modSlice c f).net = s.net := rfl
@[simp] theorem State.modSlice_ctr (s : State) (c : Nat) (f : Slice → Slice) : (s.modSlice c f).ctr = s.ctr := rfl
@[simp] theorem State.modSlice_hostData (s : State) (c : Nat) (f : Slice → Slice) : (s.modSlice c f).hostData = s.hostData := rfl
@[simp] theorem State.modSlice_agenda (s : State) (c : Nat) (f : Slice → Slice) : (s.modSlice c f).agenda = s.agenda := rfl
@[simp] theorem State.modSlice_cur (s : State) (c : Nat) (f : Slice → Slice) : (s.modSlice c f).cur = s.cur := rfl
@[simp] theorem State.modSlice_seq (s : State) (c : Nat) (f : Slice → Slice) : (s.modSlice c f).seq = s.seq := rfl
@[simp] theorem State.modSlice_free (s : State) (c : Nat) (f : Slice → Slice) : (s.modSlice c f).free = s.free := rfl
@[simp] theorem State.modPart_part (s : State) (c : Nat) (f : Part → Part) : (s.modPart c f).part = s.part := rfl
@[simp] theorem State.modPart_pkg (s : State) (c : Nat) (f : Part → Part) : (s.modPart c f).pkg = s.pkg := rfl
@[simp] theorem State.modPart_cycle (s : State) (c : Nat) (f : Part → Part) : (s.modPart c f).cycle = s.cycle := rfl
@[simp] theorem State.modPart_tick (s : State) (c : Nat) (f : Part → Part) : (s.modPart c f).tick = s.tick := rfl
@[simp] theorem State.modPart_bcSize (s : State) (c : Nat) (f : Part → Part) : (s.modPart c f).bcSize = s.bcSize := rfl
@[simp] theorem State.modPart_memT2 (s : State) (c : Nat) (f : Part → Part) : (s.modPart c f).memT2 = s.memT2 := rfl
@[simp] theorem State.modPart_memHbm (s : State) (c : Nat) (f : Part → Part) : (s.modPart c f).memHbm = s.memHbm := rfl
@[simp] theorem State.modPart_peers (s : State) (c : Nat) (f : Part → Part) : (s.modPart c f).peers = s.peers := rfl
@[simp] theorem State.modPart_classes (s : State) (c : Nat) (f : Part → Part) : (s.modPart c f).classes = s.classes := rfl
@[simp] theorem State.modPart_spillBase (s : State) (c : Nat) (f : Part → Part) : (s.modPart c f).spillBase = s.spillBase := rfl
@[simp] theorem State.modPart_fwStatus (s : State) (c : Nat) (f : Part → Part) : (s.modPart c f).fwStatus = s.fwStatus := rfl
@[simp] theorem State.modPart_fwGo (s : State) (c : Nat) (f : Part → Part) : (s.modPart c f).fwGo = s.fwGo := rfl
@[simp] theorem State.modPart_firmware (s : State) (c : Nat) (f : Part → Part) : (s.modPart c f).firmware = s.firmware := rfl
@[simp] theorem State.modPart_fwOldest (s : State) (c : Nat) (f : Part → Part) : (s.modPart c f).fwOldest = s.fwOldest := rfl
@[simp] theorem State.modPart_rootKey (s : State) (c : Nat) (f : Part → Part) : (s.modPart c f).rootKey = s.rootKey := rfl
@[simp] theorem State.modPart_pcap (s : State) (c : Nat) (f : Part → Part) : (s.modPart c f).pcap = s.pcap := rfl
@[simp] theorem State.modPart_reports (s : State) (c : Nat) (f : Part → Part) : (s.modPart c f).reports = s.reports := rfl
@[simp] theorem State.modPart_ports (s : State) (c : Nat) (f : Part → Part) : (s.modPart c f).ports = s.ports := rfl
@[simp] theorem State.modPart_timeOff (s : State) (c : Nat) (f : Part → Part) : (s.modPart c f).timeOff = s.timeOff := rfl
@[simp] theorem State.modPart_timeSync (s : State) (c : Nat) (f : Part → Part) : (s.modPart c f).timeSync = s.timeSync := rfl
@[simp] theorem State.modPart_slew (s : State) (c : Nat) (f : Part → Part) : (s.modPart c f).slew = s.slew := rfl
@[simp] theorem State.modPart_slewGap (s : State) (c : Nat) (f : Part → Part) : (s.modPart c f).slewGap = s.slewGap := rfl
@[simp] theorem State.modPart_master (s : State) (c : Nat) (f : Part → Part) : (s.modPart c f).master = s.master := rfl
@[simp] theorem State.modPart_hostUp (s : State) (c : Nat) (f : Part → Part) : (s.modPart c f).hostUp = s.hostUp := rfl
@[simp] theorem State.modPart_hostCxl (s : State) (c : Nat) (f : Part → Part) : (s.modPart c f).hostCxl = s.hostCxl := rfl
@[simp] theorem State.modPart_hostRate (s : State) (c : Nat) (f : Part → Part) : (s.modPart c f).hostRate = s.hostRate := rfl
@[simp] theorem State.modPart_hostWidth (s : State) (c : Nat) (f : Part → Part) : (s.modPart c f).hostWidth = s.hostWidth := rfl
@[simp] theorem State.modPart_cxlPorts (s : State) (c : Nat) (f : Part → Part) : (s.modPart c f).cxlPorts = s.cxlPorts := rfl
@[simp] theorem State.modPart_cxlLost (s : State) (c : Nat) (f : Part → Part) : (s.modPart c f).cxlLost = s.cxlLost := rfl
@[simp] theorem State.modPart_booted (s : State) (c : Nat) (f : Part → Part) : (s.modPart c f).booted = s.booted := rfl
@[simp] theorem State.modPart_sent (s : State) (c : Nat) (f : Part → Part) : (s.modPart c f).sent = s.sent := rfl
@[simp] theorem State.modPart_window (s : State) (c : Nat) (f : Part → Part) : (s.modPart c f).window = s.window := rfl
@[simp] theorem State.modPart_thermal (s : State) (c : Nat) (f : Part → Part) : (s.modPart c f).thermal = s.thermal := rfl
@[simp] theorem State.modPart_mem (s : State) (c : Nat) (f : Part → Part) : (s.modPart c f).mem = s.mem := rfl
@[simp] theorem State.modPart_eccLines (s : State) (c : Nat) (f : Part → Part) : (s.modPart c f).eccLines = s.eccLines := rfl
@[simp] theorem State.modPart_eccOnes (s : State) (c : Nat) (f : Part → Part) : (s.modPart c f).eccOnes = s.eccOnes := rfl
@[simp] theorem State.modPart_comp (s : State) (c : Nat) (f : Part → Part) : (s.modPart c f).comp = s.comp := rfl
@[simp] theorem State.modPart_accs (s : State) (c : Nat) (f : Part → Part) : (s.modPart c f).accs = s.accs := rfl
@[simp] theorem State.modPart_owners (s : State) (c : Nat) (f : Part → Part) : (s.modPart c f).owners = s.owners := rfl
@[simp] theorem State.modPart_ors (s : State) (c : Nat) (f : Part → Part) : (s.modPart c f).ors = s.ors := rfl
@[simp] theorem State.modPart_ops (s : State) (c : Nat) (f : Part → Part) : (s.modPart c f).ops = s.ops := rfl
@[simp] theorem State.modPart_walks (s : State) (c : Nat) (f : Part → Part) : (s.modPart c f).walks = s.walks := rfl
@[simp] theorem State.modPart_cores (s : State) (c : Nat) (f : Part → Part) : (s.modPart c f).cores = s.cores := rfl
@[simp] theorem State.modPart_teams (s : State) (c : Nat) (f : Part → Part) : (s.modPart c f).teams = s.teams := rfl
@[simp] theorem State.modPart_ridges (s : State) (c : Nat) (f : Part → Part) : (s.modPart c f).ridges = s.ridges := rfl
@[simp] theorem State.modPart_blocks (s : State) (c : Nat) (f : Part → Part) : (s.modPart c f).blocks = s.blocks := rfl
@[simp] theorem State.modPart_stks (s : State) (c : Nat) (f : Part → Part) : (s.modPart c f).stks = s.stks := rfl
@[simp] theorem State.modPart_slices (s : State) (c : Nat) (f : Part → Part) : (s.modPart c f).slices = s.slices := rfl
@[simp] theorem State.modPart_ctxs (s : State) (c : Nat) (f : Part → Part) : (s.modPart c f).ctxs = s.ctxs := rfl
@[simp] theorem State.modPart_launches (s : State) (c : Nat) (f : Part → Part) : (s.modPart c f).launches = s.launches := rfl
@[simp] theorem State.modPart_ending (s : State) (c : Nat) (f : Part → Part) : (s.modPart c f).ending = s.ending := rfl
@[simp] theorem State.modPart_net (s : State) (c : Nat) (f : Part → Part) : (s.modPart c f).net = s.net := rfl
@[simp] theorem State.modPart_ctr (s : State) (c : Nat) (f : Part → Part) : (s.modPart c f).ctr = s.ctr := rfl
@[simp] theorem State.modPart_hostData (s : State) (c : Nat) (f : Part → Part) : (s.modPart c f).hostData = s.hostData := rfl
@[simp] theorem State.modPart_agenda (s : State) (c : Nat) (f : Part → Part) : (s.modPart c f).agenda = s.agenda := rfl
@[simp] theorem State.modPart_cur (s : State) (c : Nat) (f : Part → Part) : (s.modPart c f).cur = s.cur := rfl
@[simp] theorem State.modPart_seq (s : State) (c : Nat) (f : Part → Part) : (s.modPart c f).seq = s.seq := rfl
@[simp] theorem State.modPart_free (s : State) (c : Nat) (f : Part → Part) : (s.modPart c f).free = s.free := rfl
@[simp] theorem State.modTeam_part (s : State) (c k : Nat) (f : Team → Team) : (s.modTeam c k f).part = s.part := by
  unfold State.modTeam; split <;> rfl
@[simp] theorem State.modTeam_pkg (s : State) (c k : Nat) (f : Team → Team) : (s.modTeam c k f).pkg = s.pkg := by
  unfold State.modTeam; split <;> rfl
@[simp] theorem State.modTeam_cycle (s : State) (c k : Nat) (f : Team → Team) : (s.modTeam c k f).cycle = s.cycle := by
  unfold State.modTeam; split <;> rfl
@[simp] theorem State.modTeam_tick (s : State) (c k : Nat) (f : Team → Team) : (s.modTeam c k f).tick = s.tick := by
  unfold State.modTeam; split <;> rfl
@[simp] theorem State.modTeam_bcSize (s : State) (c k : Nat) (f : Team → Team) : (s.modTeam c k f).bcSize = s.bcSize := by
  unfold State.modTeam; split <;> rfl
@[simp] theorem State.modTeam_memT2 (s : State) (c k : Nat) (f : Team → Team) : (s.modTeam c k f).memT2 = s.memT2 := by
  unfold State.modTeam; split <;> rfl
@[simp] theorem State.modTeam_memHbm (s : State) (c k : Nat) (f : Team → Team) : (s.modTeam c k f).memHbm = s.memHbm := by
  unfold State.modTeam; split <;> rfl
@[simp] theorem State.modTeam_peers (s : State) (c k : Nat) (f : Team → Team) : (s.modTeam c k f).peers = s.peers := by
  unfold State.modTeam; split <;> rfl
@[simp] theorem State.modTeam_classes (s : State) (c k : Nat) (f : Team → Team) : (s.modTeam c k f).classes = s.classes := by
  unfold State.modTeam; split <;> rfl
@[simp] theorem State.modTeam_spillBase (s : State) (c k : Nat) (f : Team → Team) : (s.modTeam c k f).spillBase = s.spillBase := by
  unfold State.modTeam; split <;> rfl
@[simp] theorem State.modTeam_fwStatus (s : State) (c k : Nat) (f : Team → Team) : (s.modTeam c k f).fwStatus = s.fwStatus := by
  unfold State.modTeam; split <;> rfl
@[simp] theorem State.modTeam_fwGo (s : State) (c k : Nat) (f : Team → Team) : (s.modTeam c k f).fwGo = s.fwGo := by
  unfold State.modTeam; split <;> rfl
@[simp] theorem State.modTeam_firmware (s : State) (c k : Nat) (f : Team → Team) : (s.modTeam c k f).firmware = s.firmware := by
  unfold State.modTeam; split <;> rfl
@[simp] theorem State.modTeam_fwOldest (s : State) (c k : Nat) (f : Team → Team) : (s.modTeam c k f).fwOldest = s.fwOldest := by
  unfold State.modTeam; split <;> rfl
@[simp] theorem State.modTeam_rootKey (s : State) (c k : Nat) (f : Team → Team) : (s.modTeam c k f).rootKey = s.rootKey := by
  unfold State.modTeam; split <;> rfl
@[simp] theorem State.modTeam_pcap (s : State) (c k : Nat) (f : Team → Team) : (s.modTeam c k f).pcap = s.pcap := by
  unfold State.modTeam; split <;> rfl
@[simp] theorem State.modTeam_reports (s : State) (c k : Nat) (f : Team → Team) : (s.modTeam c k f).reports = s.reports := by
  unfold State.modTeam; split <;> rfl
@[simp] theorem State.modTeam_ports (s : State) (c k : Nat) (f : Team → Team) : (s.modTeam c k f).ports = s.ports := by
  unfold State.modTeam; split <;> rfl
@[simp] theorem State.modTeam_timeOff (s : State) (c k : Nat) (f : Team → Team) : (s.modTeam c k f).timeOff = s.timeOff := by
  unfold State.modTeam; split <;> rfl
@[simp] theorem State.modTeam_timeSync (s : State) (c k : Nat) (f : Team → Team) : (s.modTeam c k f).timeSync = s.timeSync := by
  unfold State.modTeam; split <;> rfl
@[simp] theorem State.modTeam_slew (s : State) (c k : Nat) (f : Team → Team) : (s.modTeam c k f).slew = s.slew := by
  unfold State.modTeam; split <;> rfl
@[simp] theorem State.modTeam_slewGap (s : State) (c k : Nat) (f : Team → Team) : (s.modTeam c k f).slewGap = s.slewGap := by
  unfold State.modTeam; split <;> rfl
@[simp] theorem State.modTeam_master (s : State) (c k : Nat) (f : Team → Team) : (s.modTeam c k f).master = s.master := by
  unfold State.modTeam; split <;> rfl
@[simp] theorem State.modTeam_hostUp (s : State) (c k : Nat) (f : Team → Team) : (s.modTeam c k f).hostUp = s.hostUp := by
  unfold State.modTeam; split <;> rfl
@[simp] theorem State.modTeam_hostCxl (s : State) (c k : Nat) (f : Team → Team) : (s.modTeam c k f).hostCxl = s.hostCxl := by
  unfold State.modTeam; split <;> rfl
@[simp] theorem State.modTeam_hostRate (s : State) (c k : Nat) (f : Team → Team) : (s.modTeam c k f).hostRate = s.hostRate := by
  unfold State.modTeam; split <;> rfl
@[simp] theorem State.modTeam_hostWidth (s : State) (c k : Nat) (f : Team → Team) : (s.modTeam c k f).hostWidth = s.hostWidth := by
  unfold State.modTeam; split <;> rfl
@[simp] theorem State.modTeam_cxlPorts (s : State) (c k : Nat) (f : Team → Team) : (s.modTeam c k f).cxlPorts = s.cxlPorts := by
  unfold State.modTeam; split <;> rfl
@[simp] theorem State.modTeam_cxlLost (s : State) (c k : Nat) (f : Team → Team) : (s.modTeam c k f).cxlLost = s.cxlLost := by
  unfold State.modTeam; split <;> rfl
@[simp] theorem State.modTeam_booted (s : State) (c k : Nat) (f : Team → Team) : (s.modTeam c k f).booted = s.booted := by
  unfold State.modTeam; split <;> rfl
@[simp] theorem State.modTeam_sent (s : State) (c k : Nat) (f : Team → Team) : (s.modTeam c k f).sent = s.sent := by
  unfold State.modTeam; split <;> rfl
@[simp] theorem State.modTeam_window (s : State) (c k : Nat) (f : Team → Team) : (s.modTeam c k f).window = s.window := by
  unfold State.modTeam; split <;> rfl
@[simp] theorem State.modTeam_thermal (s : State) (c k : Nat) (f : Team → Team) : (s.modTeam c k f).thermal = s.thermal := by
  unfold State.modTeam; split <;> rfl
@[simp] theorem State.modTeam_mem (s : State) (c k : Nat) (f : Team → Team) : (s.modTeam c k f).mem = s.mem := by
  unfold State.modTeam; split <;> rfl
@[simp] theorem State.modTeam_eccLines (s : State) (c k : Nat) (f : Team → Team) : (s.modTeam c k f).eccLines = s.eccLines := by
  unfold State.modTeam; split <;> rfl
@[simp] theorem State.modTeam_eccOnes (s : State) (c k : Nat) (f : Team → Team) : (s.modTeam c k f).eccOnes = s.eccOnes := by
  unfold State.modTeam; split <;> rfl
@[simp] theorem State.modTeam_comp (s : State) (c k : Nat) (f : Team → Team) : (s.modTeam c k f).comp = s.comp := by
  unfold State.modTeam; split <;> rfl
@[simp] theorem State.modTeam_accs (s : State) (c k : Nat) (f : Team → Team) : (s.modTeam c k f).accs = s.accs := by
  unfold State.modTeam; split <;> rfl
@[simp] theorem State.modTeam_owners (s : State) (c k : Nat) (f : Team → Team) : (s.modTeam c k f).owners = s.owners := by
  unfold State.modTeam; split <;> rfl
@[simp] theorem State.modTeam_ors (s : State) (c k : Nat) (f : Team → Team) : (s.modTeam c k f).ors = s.ors := by
  unfold State.modTeam; split <;> rfl
@[simp] theorem State.modTeam_ops (s : State) (c k : Nat) (f : Team → Team) : (s.modTeam c k f).ops = s.ops := by
  unfold State.modTeam; split <;> rfl
@[simp] theorem State.modTeam_walks (s : State) (c k : Nat) (f : Team → Team) : (s.modTeam c k f).walks = s.walks := by
  unfold State.modTeam; split <;> rfl
@[simp] theorem State.modTeam_cores (s : State) (c k : Nat) (f : Team → Team) : (s.modTeam c k f).cores = s.cores := by
  unfold State.modTeam; split <;> rfl
@[simp] theorem State.modTeam_ridges (s : State) (c k : Nat) (f : Team → Team) : (s.modTeam c k f).ridges = s.ridges := by
  unfold State.modTeam; split <;> rfl
@[simp] theorem State.modTeam_blocks (s : State) (c k : Nat) (f : Team → Team) : (s.modTeam c k f).blocks = s.blocks := by
  unfold State.modTeam; split <;> rfl
@[simp] theorem State.modTeam_stks (s : State) (c k : Nat) (f : Team → Team) : (s.modTeam c k f).stks = s.stks := by
  unfold State.modTeam; split <;> rfl
@[simp] theorem State.modTeam_slices (s : State) (c k : Nat) (f : Team → Team) : (s.modTeam c k f).slices = s.slices := by
  unfold State.modTeam; split <;> rfl
@[simp] theorem State.modTeam_ctxs (s : State) (c k : Nat) (f : Team → Team) : (s.modTeam c k f).ctxs = s.ctxs := by
  unfold State.modTeam; split <;> rfl
@[simp] theorem State.modTeam_parts (s : State) (c k : Nat) (f : Team → Team) : (s.modTeam c k f).parts = s.parts := by
  unfold State.modTeam; split <;> rfl
@[simp] theorem State.modTeam_launches (s : State) (c k : Nat) (f : Team → Team) : (s.modTeam c k f).launches = s.launches := by
  unfold State.modTeam; split <;> rfl
@[simp] theorem State.modTeam_ending (s : State) (c k : Nat) (f : Team → Team) : (s.modTeam c k f).ending = s.ending := by
  unfold State.modTeam; split <;> rfl
@[simp] theorem State.modTeam_net (s : State) (c k : Nat) (f : Team → Team) : (s.modTeam c k f).net = s.net := by
  unfold State.modTeam; split <;> rfl
@[simp] theorem State.modTeam_ctr (s : State) (c k : Nat) (f : Team → Team) : (s.modTeam c k f).ctr = s.ctr := by
  unfold State.modTeam; split <;> rfl
@[simp] theorem State.modTeam_hostData (s : State) (c k : Nat) (f : Team → Team) : (s.modTeam c k f).hostData = s.hostData := by
  unfold State.modTeam; split <;> rfl
@[simp] theorem State.modTeam_agenda (s : State) (c k : Nat) (f : Team → Team) : (s.modTeam c k f).agenda = s.agenda := by
  unfold State.modTeam; split <;> rfl
@[simp] theorem State.modTeam_cur (s : State) (c k : Nat) (f : Team → Team) : (s.modTeam c k f).cur = s.cur := by
  unfold State.modTeam; split <;> rfl
@[simp] theorem State.modTeam_seq (s : State) (c k : Nat) (f : Team → Team) : (s.modTeam c k f).seq = s.seq := by
  unfold State.modTeam; split <;> rfl
@[simp] theorem State.modTeam_free (s : State) (c k : Nat) (f : Team → Team) : (s.modTeam c k f).free = s.free := by
  unfold State.modTeam; split <;> rfl
@[simp] theorem State.modRidge_part (s : State) (c : Nat) (f : Ridge → Ridge) : (s.modRidge c f).part = s.part := by
  unfold State.modRidge; split <;> rfl
@[simp] theorem State.modRidge_pkg (s : State) (c : Nat) (f : Ridge → Ridge) : (s.modRidge c f).pkg = s.pkg := by
  unfold State.modRidge; split <;> rfl
@[simp] theorem State.modRidge_cycle (s : State) (c : Nat) (f : Ridge → Ridge) : (s.modRidge c f).cycle = s.cycle := by
  unfold State.modRidge; split <;> rfl
@[simp] theorem State.modRidge_tick (s : State) (c : Nat) (f : Ridge → Ridge) : (s.modRidge c f).tick = s.tick := by
  unfold State.modRidge; split <;> rfl
@[simp] theorem State.modRidge_bcSize (s : State) (c : Nat) (f : Ridge → Ridge) : (s.modRidge c f).bcSize = s.bcSize := by
  unfold State.modRidge; split <;> rfl
@[simp] theorem State.modRidge_memT2 (s : State) (c : Nat) (f : Ridge → Ridge) : (s.modRidge c f).memT2 = s.memT2 := by
  unfold State.modRidge; split <;> rfl
@[simp] theorem State.modRidge_memHbm (s : State) (c : Nat) (f : Ridge → Ridge) : (s.modRidge c f).memHbm = s.memHbm := by
  unfold State.modRidge; split <;> rfl
@[simp] theorem State.modRidge_peers (s : State) (c : Nat) (f : Ridge → Ridge) : (s.modRidge c f).peers = s.peers := by
  unfold State.modRidge; split <;> rfl
@[simp] theorem State.modRidge_classes (s : State) (c : Nat) (f : Ridge → Ridge) : (s.modRidge c f).classes = s.classes := by
  unfold State.modRidge; split <;> rfl
@[simp] theorem State.modRidge_spillBase (s : State) (c : Nat) (f : Ridge → Ridge) : (s.modRidge c f).spillBase = s.spillBase := by
  unfold State.modRidge; split <;> rfl
@[simp] theorem State.modRidge_fwStatus (s : State) (c : Nat) (f : Ridge → Ridge) : (s.modRidge c f).fwStatus = s.fwStatus := by
  unfold State.modRidge; split <;> rfl
@[simp] theorem State.modRidge_fwGo (s : State) (c : Nat) (f : Ridge → Ridge) : (s.modRidge c f).fwGo = s.fwGo := by
  unfold State.modRidge; split <;> rfl
@[simp] theorem State.modRidge_firmware (s : State) (c : Nat) (f : Ridge → Ridge) : (s.modRidge c f).firmware = s.firmware := by
  unfold State.modRidge; split <;> rfl
@[simp] theorem State.modRidge_fwOldest (s : State) (c : Nat) (f : Ridge → Ridge) : (s.modRidge c f).fwOldest = s.fwOldest := by
  unfold State.modRidge; split <;> rfl
@[simp] theorem State.modRidge_rootKey (s : State) (c : Nat) (f : Ridge → Ridge) : (s.modRidge c f).rootKey = s.rootKey := by
  unfold State.modRidge; split <;> rfl
@[simp] theorem State.modRidge_pcap (s : State) (c : Nat) (f : Ridge → Ridge) : (s.modRidge c f).pcap = s.pcap := by
  unfold State.modRidge; split <;> rfl
@[simp] theorem State.modRidge_reports (s : State) (c : Nat) (f : Ridge → Ridge) : (s.modRidge c f).reports = s.reports := by
  unfold State.modRidge; split <;> rfl
@[simp] theorem State.modRidge_ports (s : State) (c : Nat) (f : Ridge → Ridge) : (s.modRidge c f).ports = s.ports := by
  unfold State.modRidge; split <;> rfl
@[simp] theorem State.modRidge_timeOff (s : State) (c : Nat) (f : Ridge → Ridge) : (s.modRidge c f).timeOff = s.timeOff := by
  unfold State.modRidge; split <;> rfl
@[simp] theorem State.modRidge_timeSync (s : State) (c : Nat) (f : Ridge → Ridge) : (s.modRidge c f).timeSync = s.timeSync := by
  unfold State.modRidge; split <;> rfl
@[simp] theorem State.modRidge_slew (s : State) (c : Nat) (f : Ridge → Ridge) : (s.modRidge c f).slew = s.slew := by
  unfold State.modRidge; split <;> rfl
@[simp] theorem State.modRidge_slewGap (s : State) (c : Nat) (f : Ridge → Ridge) : (s.modRidge c f).slewGap = s.slewGap := by
  unfold State.modRidge; split <;> rfl
@[simp] theorem State.modRidge_master (s : State) (c : Nat) (f : Ridge → Ridge) : (s.modRidge c f).master = s.master := by
  unfold State.modRidge; split <;> rfl
@[simp] theorem State.modRidge_hostUp (s : State) (c : Nat) (f : Ridge → Ridge) : (s.modRidge c f).hostUp = s.hostUp := by
  unfold State.modRidge; split <;> rfl
@[simp] theorem State.modRidge_hostCxl (s : State) (c : Nat) (f : Ridge → Ridge) : (s.modRidge c f).hostCxl = s.hostCxl := by
  unfold State.modRidge; split <;> rfl
@[simp] theorem State.modRidge_hostRate (s : State) (c : Nat) (f : Ridge → Ridge) : (s.modRidge c f).hostRate = s.hostRate := by
  unfold State.modRidge; split <;> rfl
@[simp] theorem State.modRidge_hostWidth (s : State) (c : Nat) (f : Ridge → Ridge) : (s.modRidge c f).hostWidth = s.hostWidth := by
  unfold State.modRidge; split <;> rfl
@[simp] theorem State.modRidge_cxlPorts (s : State) (c : Nat) (f : Ridge → Ridge) : (s.modRidge c f).cxlPorts = s.cxlPorts := by
  unfold State.modRidge; split <;> rfl
@[simp] theorem State.modRidge_cxlLost (s : State) (c : Nat) (f : Ridge → Ridge) : (s.modRidge c f).cxlLost = s.cxlLost := by
  unfold State.modRidge; split <;> rfl
@[simp] theorem State.modRidge_booted (s : State) (c : Nat) (f : Ridge → Ridge) : (s.modRidge c f).booted = s.booted := by
  unfold State.modRidge; split <;> rfl
@[simp] theorem State.modRidge_sent (s : State) (c : Nat) (f : Ridge → Ridge) : (s.modRidge c f).sent = s.sent := by
  unfold State.modRidge; split <;> rfl
@[simp] theorem State.modRidge_window (s : State) (c : Nat) (f : Ridge → Ridge) : (s.modRidge c f).window = s.window := by
  unfold State.modRidge; split <;> rfl
@[simp] theorem State.modRidge_thermal (s : State) (c : Nat) (f : Ridge → Ridge) : (s.modRidge c f).thermal = s.thermal := by
  unfold State.modRidge; split <;> rfl
@[simp] theorem State.modRidge_mem (s : State) (c : Nat) (f : Ridge → Ridge) : (s.modRidge c f).mem = s.mem := by
  unfold State.modRidge; split <;> rfl
@[simp] theorem State.modRidge_eccLines (s : State) (c : Nat) (f : Ridge → Ridge) : (s.modRidge c f).eccLines = s.eccLines := by
  unfold State.modRidge; split <;> rfl
@[simp] theorem State.modRidge_eccOnes (s : State) (c : Nat) (f : Ridge → Ridge) : (s.modRidge c f).eccOnes = s.eccOnes := by
  unfold State.modRidge; split <;> rfl
@[simp] theorem State.modRidge_comp (s : State) (c : Nat) (f : Ridge → Ridge) : (s.modRidge c f).comp = s.comp := by
  unfold State.modRidge; split <;> rfl
@[simp] theorem State.modRidge_accs (s : State) (c : Nat) (f : Ridge → Ridge) : (s.modRidge c f).accs = s.accs := by
  unfold State.modRidge; split <;> rfl
@[simp] theorem State.modRidge_owners (s : State) (c : Nat) (f : Ridge → Ridge) : (s.modRidge c f).owners = s.owners := by
  unfold State.modRidge; split <;> rfl
@[simp] theorem State.modRidge_ors (s : State) (c : Nat) (f : Ridge → Ridge) : (s.modRidge c f).ors = s.ors := by
  unfold State.modRidge; split <;> rfl
@[simp] theorem State.modRidge_ops (s : State) (c : Nat) (f : Ridge → Ridge) : (s.modRidge c f).ops = s.ops := by
  unfold State.modRidge; split <;> rfl
@[simp] theorem State.modRidge_walks (s : State) (c : Nat) (f : Ridge → Ridge) : (s.modRidge c f).walks = s.walks := by
  unfold State.modRidge; split <;> rfl
@[simp] theorem State.modRidge_cores (s : State) (c : Nat) (f : Ridge → Ridge) : (s.modRidge c f).cores = s.cores := by
  unfold State.modRidge; split <;> rfl
@[simp] theorem State.modRidge_teams (s : State) (c : Nat) (f : Ridge → Ridge) : (s.modRidge c f).teams = s.teams := by
  unfold State.modRidge; split <;> rfl
@[simp] theorem State.modRidge_blocks (s : State) (c : Nat) (f : Ridge → Ridge) : (s.modRidge c f).blocks = s.blocks := by
  unfold State.modRidge; split <;> rfl
@[simp] theorem State.modRidge_stks (s : State) (c : Nat) (f : Ridge → Ridge) : (s.modRidge c f).stks = s.stks := by
  unfold State.modRidge; split <;> rfl
@[simp] theorem State.modRidge_slices (s : State) (c : Nat) (f : Ridge → Ridge) : (s.modRidge c f).slices = s.slices := by
  unfold State.modRidge; split <;> rfl
@[simp] theorem State.modRidge_ctxs (s : State) (c : Nat) (f : Ridge → Ridge) : (s.modRidge c f).ctxs = s.ctxs := by
  unfold State.modRidge; split <;> rfl
@[simp] theorem State.modRidge_parts (s : State) (c : Nat) (f : Ridge → Ridge) : (s.modRidge c f).parts = s.parts := by
  unfold State.modRidge; split <;> rfl
@[simp] theorem State.modRidge_launches (s : State) (c : Nat) (f : Ridge → Ridge) : (s.modRidge c f).launches = s.launches := by
  unfold State.modRidge; split <;> rfl
@[simp] theorem State.modRidge_ending (s : State) (c : Nat) (f : Ridge → Ridge) : (s.modRidge c f).ending = s.ending := by
  unfold State.modRidge; split <;> rfl
@[simp] theorem State.modRidge_net (s : State) (c : Nat) (f : Ridge → Ridge) : (s.modRidge c f).net = s.net := by
  unfold State.modRidge; split <;> rfl
@[simp] theorem State.modRidge_ctr (s : State) (c : Nat) (f : Ridge → Ridge) : (s.modRidge c f).ctr = s.ctr := by
  unfold State.modRidge; split <;> rfl
@[simp] theorem State.modRidge_hostData (s : State) (c : Nat) (f : Ridge → Ridge) : (s.modRidge c f).hostData = s.hostData := by
  unfold State.modRidge; split <;> rfl
@[simp] theorem State.modRidge_agenda (s : State) (c : Nat) (f : Ridge → Ridge) : (s.modRidge c f).agenda = s.agenda := by
  unfold State.modRidge; split <;> rfl
@[simp] theorem State.modRidge_cur (s : State) (c : Nat) (f : Ridge → Ridge) : (s.modRidge c f).cur = s.cur := by
  unfold State.modRidge; split <;> rfl
@[simp] theorem State.modRidge_seq (s : State) (c : Nat) (f : Ridge → Ridge) : (s.modRidge c f).seq = s.seq := by
  unfold State.modRidge; split <;> rfl
@[simp] theorem State.modRidge_free (s : State) (c : Nat) (f : Ridge → Ridge) : (s.modRidge c f).free = s.free := by
  unfold State.modRidge; split <;> rfl
@[simp] theorem State.modBlock_part (s : State) (c : Nat) (f : Block → Block) : (s.modBlock c f).part = s.part := by
  unfold State.modBlock; split <;> rfl
@[simp] theorem State.modBlock_pkg (s : State) (c : Nat) (f : Block → Block) : (s.modBlock c f).pkg = s.pkg := by
  unfold State.modBlock; split <;> rfl
@[simp] theorem State.modBlock_cycle (s : State) (c : Nat) (f : Block → Block) : (s.modBlock c f).cycle = s.cycle := by
  unfold State.modBlock; split <;> rfl
@[simp] theorem State.modBlock_tick (s : State) (c : Nat) (f : Block → Block) : (s.modBlock c f).tick = s.tick := by
  unfold State.modBlock; split <;> rfl
@[simp] theorem State.modBlock_bcSize (s : State) (c : Nat) (f : Block → Block) : (s.modBlock c f).bcSize = s.bcSize := by
  unfold State.modBlock; split <;> rfl
@[simp] theorem State.modBlock_memT2 (s : State) (c : Nat) (f : Block → Block) : (s.modBlock c f).memT2 = s.memT2 := by
  unfold State.modBlock; split <;> rfl
@[simp] theorem State.modBlock_memHbm (s : State) (c : Nat) (f : Block → Block) : (s.modBlock c f).memHbm = s.memHbm := by
  unfold State.modBlock; split <;> rfl
@[simp] theorem State.modBlock_peers (s : State) (c : Nat) (f : Block → Block) : (s.modBlock c f).peers = s.peers := by
  unfold State.modBlock; split <;> rfl
@[simp] theorem State.modBlock_classes (s : State) (c : Nat) (f : Block → Block) : (s.modBlock c f).classes = s.classes := by
  unfold State.modBlock; split <;> rfl
@[simp] theorem State.modBlock_spillBase (s : State) (c : Nat) (f : Block → Block) : (s.modBlock c f).spillBase = s.spillBase := by
  unfold State.modBlock; split <;> rfl
@[simp] theorem State.modBlock_fwStatus (s : State) (c : Nat) (f : Block → Block) : (s.modBlock c f).fwStatus = s.fwStatus := by
  unfold State.modBlock; split <;> rfl
@[simp] theorem State.modBlock_fwGo (s : State) (c : Nat) (f : Block → Block) : (s.modBlock c f).fwGo = s.fwGo := by
  unfold State.modBlock; split <;> rfl
@[simp] theorem State.modBlock_firmware (s : State) (c : Nat) (f : Block → Block) : (s.modBlock c f).firmware = s.firmware := by
  unfold State.modBlock; split <;> rfl
@[simp] theorem State.modBlock_fwOldest (s : State) (c : Nat) (f : Block → Block) : (s.modBlock c f).fwOldest = s.fwOldest := by
  unfold State.modBlock; split <;> rfl
@[simp] theorem State.modBlock_rootKey (s : State) (c : Nat) (f : Block → Block) : (s.modBlock c f).rootKey = s.rootKey := by
  unfold State.modBlock; split <;> rfl
@[simp] theorem State.modBlock_pcap (s : State) (c : Nat) (f : Block → Block) : (s.modBlock c f).pcap = s.pcap := by
  unfold State.modBlock; split <;> rfl
@[simp] theorem State.modBlock_reports (s : State) (c : Nat) (f : Block → Block) : (s.modBlock c f).reports = s.reports := by
  unfold State.modBlock; split <;> rfl
@[simp] theorem State.modBlock_ports (s : State) (c : Nat) (f : Block → Block) : (s.modBlock c f).ports = s.ports := by
  unfold State.modBlock; split <;> rfl
@[simp] theorem State.modBlock_timeOff (s : State) (c : Nat) (f : Block → Block) : (s.modBlock c f).timeOff = s.timeOff := by
  unfold State.modBlock; split <;> rfl
@[simp] theorem State.modBlock_timeSync (s : State) (c : Nat) (f : Block → Block) : (s.modBlock c f).timeSync = s.timeSync := by
  unfold State.modBlock; split <;> rfl
@[simp] theorem State.modBlock_slew (s : State) (c : Nat) (f : Block → Block) : (s.modBlock c f).slew = s.slew := by
  unfold State.modBlock; split <;> rfl
@[simp] theorem State.modBlock_slewGap (s : State) (c : Nat) (f : Block → Block) : (s.modBlock c f).slewGap = s.slewGap := by
  unfold State.modBlock; split <;> rfl
@[simp] theorem State.modBlock_master (s : State) (c : Nat) (f : Block → Block) : (s.modBlock c f).master = s.master := by
  unfold State.modBlock; split <;> rfl
@[simp] theorem State.modBlock_hostUp (s : State) (c : Nat) (f : Block → Block) : (s.modBlock c f).hostUp = s.hostUp := by
  unfold State.modBlock; split <;> rfl
@[simp] theorem State.modBlock_hostCxl (s : State) (c : Nat) (f : Block → Block) : (s.modBlock c f).hostCxl = s.hostCxl := by
  unfold State.modBlock; split <;> rfl
@[simp] theorem State.modBlock_hostRate (s : State) (c : Nat) (f : Block → Block) : (s.modBlock c f).hostRate = s.hostRate := by
  unfold State.modBlock; split <;> rfl
@[simp] theorem State.modBlock_hostWidth (s : State) (c : Nat) (f : Block → Block) : (s.modBlock c f).hostWidth = s.hostWidth := by
  unfold State.modBlock; split <;> rfl
@[simp] theorem State.modBlock_cxlPorts (s : State) (c : Nat) (f : Block → Block) : (s.modBlock c f).cxlPorts = s.cxlPorts := by
  unfold State.modBlock; split <;> rfl
@[simp] theorem State.modBlock_cxlLost (s : State) (c : Nat) (f : Block → Block) : (s.modBlock c f).cxlLost = s.cxlLost := by
  unfold State.modBlock; split <;> rfl
@[simp] theorem State.modBlock_booted (s : State) (c : Nat) (f : Block → Block) : (s.modBlock c f).booted = s.booted := by
  unfold State.modBlock; split <;> rfl
@[simp] theorem State.modBlock_sent (s : State) (c : Nat) (f : Block → Block) : (s.modBlock c f).sent = s.sent := by
  unfold State.modBlock; split <;> rfl
@[simp] theorem State.modBlock_window (s : State) (c : Nat) (f : Block → Block) : (s.modBlock c f).window = s.window := by
  unfold State.modBlock; split <;> rfl
@[simp] theorem State.modBlock_thermal (s : State) (c : Nat) (f : Block → Block) : (s.modBlock c f).thermal = s.thermal := by
  unfold State.modBlock; split <;> rfl
@[simp] theorem State.modBlock_mem (s : State) (c : Nat) (f : Block → Block) : (s.modBlock c f).mem = s.mem := by
  unfold State.modBlock; split <;> rfl
@[simp] theorem State.modBlock_eccLines (s : State) (c : Nat) (f : Block → Block) : (s.modBlock c f).eccLines = s.eccLines := by
  unfold State.modBlock; split <;> rfl
@[simp] theorem State.modBlock_eccOnes (s : State) (c : Nat) (f : Block → Block) : (s.modBlock c f).eccOnes = s.eccOnes := by
  unfold State.modBlock; split <;> rfl
@[simp] theorem State.modBlock_comp (s : State) (c : Nat) (f : Block → Block) : (s.modBlock c f).comp = s.comp := by
  unfold State.modBlock; split <;> rfl
@[simp] theorem State.modBlock_accs (s : State) (c : Nat) (f : Block → Block) : (s.modBlock c f).accs = s.accs := by
  unfold State.modBlock; split <;> rfl
@[simp] theorem State.modBlock_owners (s : State) (c : Nat) (f : Block → Block) : (s.modBlock c f).owners = s.owners := by
  unfold State.modBlock; split <;> rfl
@[simp] theorem State.modBlock_ors (s : State) (c : Nat) (f : Block → Block) : (s.modBlock c f).ors = s.ors := by
  unfold State.modBlock; split <;> rfl
@[simp] theorem State.modBlock_ops (s : State) (c : Nat) (f : Block → Block) : (s.modBlock c f).ops = s.ops := by
  unfold State.modBlock; split <;> rfl
@[simp] theorem State.modBlock_walks (s : State) (c : Nat) (f : Block → Block) : (s.modBlock c f).walks = s.walks := by
  unfold State.modBlock; split <;> rfl
@[simp] theorem State.modBlock_cores (s : State) (c : Nat) (f : Block → Block) : (s.modBlock c f).cores = s.cores := by
  unfold State.modBlock; split <;> rfl
@[simp] theorem State.modBlock_teams (s : State) (c : Nat) (f : Block → Block) : (s.modBlock c f).teams = s.teams := by
  unfold State.modBlock; split <;> rfl
@[simp] theorem State.modBlock_ridges (s : State) (c : Nat) (f : Block → Block) : (s.modBlock c f).ridges = s.ridges := by
  unfold State.modBlock; split <;> rfl
@[simp] theorem State.modBlock_stks (s : State) (c : Nat) (f : Block → Block) : (s.modBlock c f).stks = s.stks := by
  unfold State.modBlock; split <;> rfl
@[simp] theorem State.modBlock_slices (s : State) (c : Nat) (f : Block → Block) : (s.modBlock c f).slices = s.slices := by
  unfold State.modBlock; split <;> rfl
@[simp] theorem State.modBlock_ctxs (s : State) (c : Nat) (f : Block → Block) : (s.modBlock c f).ctxs = s.ctxs := by
  unfold State.modBlock; split <;> rfl
@[simp] theorem State.modBlock_parts (s : State) (c : Nat) (f : Block → Block) : (s.modBlock c f).parts = s.parts := by
  unfold State.modBlock; split <;> rfl
@[simp] theorem State.modBlock_launches (s : State) (c : Nat) (f : Block → Block) : (s.modBlock c f).launches = s.launches := by
  unfold State.modBlock; split <;> rfl
@[simp] theorem State.modBlock_ending (s : State) (c : Nat) (f : Block → Block) : (s.modBlock c f).ending = s.ending := by
  unfold State.modBlock; split <;> rfl
@[simp] theorem State.modBlock_net (s : State) (c : Nat) (f : Block → Block) : (s.modBlock c f).net = s.net := by
  unfold State.modBlock; split <;> rfl
@[simp] theorem State.modBlock_ctr (s : State) (c : Nat) (f : Block → Block) : (s.modBlock c f).ctr = s.ctr := by
  unfold State.modBlock; split <;> rfl
@[simp] theorem State.modBlock_hostData (s : State) (c : Nat) (f : Block → Block) : (s.modBlock c f).hostData = s.hostData := by
  unfold State.modBlock; split <;> rfl
@[simp] theorem State.modBlock_agenda (s : State) (c : Nat) (f : Block → Block) : (s.modBlock c f).agenda = s.agenda := by
  unfold State.modBlock; split <;> rfl
@[simp] theorem State.modBlock_cur (s : State) (c : Nat) (f : Block → Block) : (s.modBlock c f).cur = s.cur := by
  unfold State.modBlock; split <;> rfl
@[simp] theorem State.modBlock_seq (s : State) (c : Nat) (f : Block → Block) : (s.modBlock c f).seq = s.seq := by
  unfold State.modBlock; split <;> rfl
@[simp] theorem State.modBlock_free (s : State) (c : Nat) (f : Block → Block) : (s.modBlock c f).free = s.free := by
  unfold State.modBlock; split <;> rfl
@[simp] theorem State.setCore_get_team_ (s : State) (c : Nat) (x : Core) (d j : Nat) : (s.setCore c x).team? d j = s.team? d j := rfl
@[simp] theorem State.setCore_get_ridge_ (s : State) (c : Nat) (x : Core) (d : Nat) : (s.setCore c x).ridge? d = s.ridge? d := rfl
@[simp] theorem State.setCore_get_block_ (s : State) (c : Nat) (x : Core) (d : Nat) : (s.setCore c x).block? d = s.block? d := rfl
@[simp] theorem State.setCore_get_ctx (s : State) (c : Nat) (x : Core) (d : Nat) : (s.setCore c x).ctx d = s.ctx d := rfl
@[simp] theorem State.setCore_get_stk (s : State) (c : Nat) (x : Core) (d : Nat) : (s.setCore c x).stk d = s.stk d := rfl
@[simp] theorem State.setCore_get_slice (s : State) (c : Nat) (x : Core) (d : Nat) : (s.setCore c x).slice d = s.slice d := rfl
@[simp] theorem State.setCore_get_partn (s : State) (c : Nat) (x : Core) (d : Nat) : (s.setCore c x).partn d = s.partn d := rfl
@[simp] theorem State.setCore_get_count (s : State) (c : Nat) (x : Core) (d : Ctr) (j : Nat) : (s.setCore c x).count d j = s.count d j := rfl
@[simp] theorem State.setCore_get_memGet (s : State) (c : Nat) (x : Core) (d : Nat) : (s.setCore c x).memGet d = s.memGet d := rfl
@[simp] theorem State.setTeam_get_core (s : State) (c k : Nat) (x : Team) (d : Nat) : (s.setTeam c k x).core d = s.core d := rfl
@[simp] theorem State.setTeam_get_ridge_ (s : State) (c k : Nat) (x : Team) (d : Nat) : (s.setTeam c k x).ridge? d = s.ridge? d := rfl
@[simp] theorem State.setTeam_get_block_ (s : State) (c k : Nat) (x : Team) (d : Nat) : (s.setTeam c k x).block? d = s.block? d := rfl
@[simp] theorem State.setTeam_get_ctx (s : State) (c k : Nat) (x : Team) (d : Nat) : (s.setTeam c k x).ctx d = s.ctx d := rfl
@[simp] theorem State.setTeam_get_stk (s : State) (c k : Nat) (x : Team) (d : Nat) : (s.setTeam c k x).stk d = s.stk d := rfl
@[simp] theorem State.setTeam_get_slice (s : State) (c k : Nat) (x : Team) (d : Nat) : (s.setTeam c k x).slice d = s.slice d := rfl
@[simp] theorem State.setTeam_get_partn (s : State) (c k : Nat) (x : Team) (d : Nat) : (s.setTeam c k x).partn d = s.partn d := rfl
@[simp] theorem State.setTeam_get_count (s : State) (c k : Nat) (x : Team) (d : Ctr) (j : Nat) : (s.setTeam c k x).count d j = s.count d j := rfl
@[simp] theorem State.setTeam_get_memGet (s : State) (c k : Nat) (x : Team) (d : Nat) : (s.setTeam c k x).memGet d = s.memGet d := rfl
@[simp] theorem State.setRidge_get_core (s : State) (c : Nat) (x : Ridge) (d : Nat) : (s.setRidge c x).core d = s.core d := rfl
@[simp] theorem State.setRidge_get_team_ (s : State) (c : Nat) (x : Ridge) (d j : Nat) : (s.setRidge c x).team? d j = s.team? d j := rfl
@[simp] theorem State.setRidge_get_block_ (s : State) (c : Nat) (x : Ridge) (d : Nat) : (s.setRidge c x).block? d = s.block? d := rfl
@[simp] theorem State.setRidge_get_ctx (s : State) (c : Nat) (x : Ridge) (d : Nat) : (s.setRidge c x).ctx d = s.ctx d := rfl
@[simp] theorem State.setRidge_get_stk (s : State) (c : Nat) (x : Ridge) (d : Nat) : (s.setRidge c x).stk d = s.stk d := rfl
@[simp] theorem State.setRidge_get_slice (s : State) (c : Nat) (x : Ridge) (d : Nat) : (s.setRidge c x).slice d = s.slice d := rfl
@[simp] theorem State.setRidge_get_partn (s : State) (c : Nat) (x : Ridge) (d : Nat) : (s.setRidge c x).partn d = s.partn d := rfl
@[simp] theorem State.setRidge_get_count (s : State) (c : Nat) (x : Ridge) (d : Ctr) (j : Nat) : (s.setRidge c x).count d j = s.count d j := rfl
@[simp] theorem State.setRidge_get_memGet (s : State) (c : Nat) (x : Ridge) (d : Nat) : (s.setRidge c x).memGet d = s.memGet d := rfl
@[simp] theorem State.setBlock_get_core (s : State) (c : Nat) (x : Block) (d : Nat) : (s.setBlock c x).core d = s.core d := rfl
@[simp] theorem State.setBlock_get_team_ (s : State) (c : Nat) (x : Block) (d j : Nat) : (s.setBlock c x).team? d j = s.team? d j := rfl
@[simp] theorem State.setBlock_get_ridge_ (s : State) (c : Nat) (x : Block) (d : Nat) : (s.setBlock c x).ridge? d = s.ridge? d := rfl
@[simp] theorem State.setBlock_get_ctx (s : State) (c : Nat) (x : Block) (d : Nat) : (s.setBlock c x).ctx d = s.ctx d := rfl
@[simp] theorem State.setBlock_get_stk (s : State) (c : Nat) (x : Block) (d : Nat) : (s.setBlock c x).stk d = s.stk d := rfl
@[simp] theorem State.setBlock_get_slice (s : State) (c : Nat) (x : Block) (d : Nat) : (s.setBlock c x).slice d = s.slice d := rfl
@[simp] theorem State.setBlock_get_partn (s : State) (c : Nat) (x : Block) (d : Nat) : (s.setBlock c x).partn d = s.partn d := rfl
@[simp] theorem State.setBlock_get_count (s : State) (c : Nat) (x : Block) (d : Ctr) (j : Nat) : (s.setBlock c x).count d j = s.count d j := rfl
@[simp] theorem State.setBlock_get_memGet (s : State) (c : Nat) (x : Block) (d : Nat) : (s.setBlock c x).memGet d = s.memGet d := rfl
@[simp] theorem State.setCtx_get_core (s : State) (c : Nat) (x : Ctx) (d : Nat) : (s.setCtx c x).core d = s.core d := rfl
@[simp] theorem State.setCtx_get_team_ (s : State) (c : Nat) (x : Ctx) (d j : Nat) : (s.setCtx c x).team? d j = s.team? d j := rfl
@[simp] theorem State.setCtx_get_ridge_ (s : State) (c : Nat) (x : Ctx) (d : Nat) : (s.setCtx c x).ridge? d = s.ridge? d := rfl
@[simp] theorem State.setCtx_get_block_ (s : State) (c : Nat) (x : Ctx) (d : Nat) : (s.setCtx c x).block? d = s.block? d := rfl
@[simp] theorem State.setCtx_get_stk (s : State) (c : Nat) (x : Ctx) (d : Nat) : (s.setCtx c x).stk d = s.stk d := rfl
@[simp] theorem State.setCtx_get_slice (s : State) (c : Nat) (x : Ctx) (d : Nat) : (s.setCtx c x).slice d = s.slice d := rfl
@[simp] theorem State.setCtx_get_partn (s : State) (c : Nat) (x : Ctx) (d : Nat) : (s.setCtx c x).partn d = s.partn d := rfl
@[simp] theorem State.setCtx_get_count (s : State) (c : Nat) (x : Ctx) (d : Ctr) (j : Nat) : (s.setCtx c x).count d j = s.count d j := rfl
@[simp] theorem State.setCtx_get_memGet (s : State) (c : Nat) (x : Ctx) (d : Nat) : (s.setCtx c x).memGet d = s.memGet d := rfl
@[simp] theorem State.setStk_get_core (s : State) (c : Nat) (x : Stack) (d : Nat) : (s.setStk c x).core d = s.core d := rfl
@[simp] theorem State.setStk_get_team_ (s : State) (c : Nat) (x : Stack) (d j : Nat) : (s.setStk c x).team? d j = s.team? d j := rfl
@[simp] theorem State.setStk_get_ridge_ (s : State) (c : Nat) (x : Stack) (d : Nat) : (s.setStk c x).ridge? d = s.ridge? d := rfl
@[simp] theorem State.setStk_get_block_ (s : State) (c : Nat) (x : Stack) (d : Nat) : (s.setStk c x).block? d = s.block? d := rfl
@[simp] theorem State.setStk_get_ctx (s : State) (c : Nat) (x : Stack) (d : Nat) : (s.setStk c x).ctx d = s.ctx d := rfl
@[simp] theorem State.setStk_get_slice (s : State) (c : Nat) (x : Stack) (d : Nat) : (s.setStk c x).slice d = s.slice d := rfl
@[simp] theorem State.setStk_get_partn (s : State) (c : Nat) (x : Stack) (d : Nat) : (s.setStk c x).partn d = s.partn d := rfl
@[simp] theorem State.setStk_get_count (s : State) (c : Nat) (x : Stack) (d : Ctr) (j : Nat) : (s.setStk c x).count d j = s.count d j := rfl
@[simp] theorem State.setStk_get_memGet (s : State) (c : Nat) (x : Stack) (d : Nat) : (s.setStk c x).memGet d = s.memGet d := rfl
@[simp] theorem State.setSlice_get_core (s : State) (c : Nat) (x : Slice) (d : Nat) : (s.setSlice c x).core d = s.core d := rfl
@[simp] theorem State.setSlice_get_team_ (s : State) (c : Nat) (x : Slice) (d j : Nat) : (s.setSlice c x).team? d j = s.team? d j := rfl
@[simp] theorem State.setSlice_get_ridge_ (s : State) (c : Nat) (x : Slice) (d : Nat) : (s.setSlice c x).ridge? d = s.ridge? d := rfl
@[simp] theorem State.setSlice_get_block_ (s : State) (c : Nat) (x : Slice) (d : Nat) : (s.setSlice c x).block? d = s.block? d := rfl
@[simp] theorem State.setSlice_get_ctx (s : State) (c : Nat) (x : Slice) (d : Nat) : (s.setSlice c x).ctx d = s.ctx d := rfl
@[simp] theorem State.setSlice_get_stk (s : State) (c : Nat) (x : Slice) (d : Nat) : (s.setSlice c x).stk d = s.stk d := rfl
@[simp] theorem State.setSlice_get_partn (s : State) (c : Nat) (x : Slice) (d : Nat) : (s.setSlice c x).partn d = s.partn d := rfl
@[simp] theorem State.setSlice_get_count (s : State) (c : Nat) (x : Slice) (d : Ctr) (j : Nat) : (s.setSlice c x).count d j = s.count d j := rfl
@[simp] theorem State.setSlice_get_memGet (s : State) (c : Nat) (x : Slice) (d : Nat) : (s.setSlice c x).memGet d = s.memGet d := rfl
@[simp] theorem State.setPart_get_core (s : State) (c : Nat) (x : Part) (d : Nat) : (s.setPart c x).core d = s.core d := rfl
@[simp] theorem State.setPart_get_team_ (s : State) (c : Nat) (x : Part) (d j : Nat) : (s.setPart c x).team? d j = s.team? d j := rfl
@[simp] theorem State.setPart_get_ridge_ (s : State) (c : Nat) (x : Part) (d : Nat) : (s.setPart c x).ridge? d = s.ridge? d := rfl
@[simp] theorem State.setPart_get_block_ (s : State) (c : Nat) (x : Part) (d : Nat) : (s.setPart c x).block? d = s.block? d := rfl
@[simp] theorem State.setPart_get_ctx (s : State) (c : Nat) (x : Part) (d : Nat) : (s.setPart c x).ctx d = s.ctx d := rfl
@[simp] theorem State.setPart_get_stk (s : State) (c : Nat) (x : Part) (d : Nat) : (s.setPart c x).stk d = s.stk d := rfl
@[simp] theorem State.setPart_get_slice (s : State) (c : Nat) (x : Part) (d : Nat) : (s.setPart c x).slice d = s.slice d := rfl
@[simp] theorem State.setPart_get_count (s : State) (c : Nat) (x : Part) (d : Ctr) (j : Nat) : (s.setPart c x).count d j = s.count d j := rfl
@[simp] theorem State.setPart_get_memGet (s : State) (c : Nat) (x : Part) (d : Nat) : (s.setPart c x).memGet d = s.memGet d := rfl
@[simp] theorem State.setCount_get_core (s : State) (c : Ctr) (n v : Nat) (d : Nat) : (s.setCount c n v).core d = s.core d := rfl
@[simp] theorem State.setCount_get_team_ (s : State) (c : Ctr) (n v : Nat) (d j : Nat) : (s.setCount c n v).team? d j = s.team? d j := rfl
@[simp] theorem State.setCount_get_ridge_ (s : State) (c : Ctr) (n v : Nat) (d : Nat) : (s.setCount c n v).ridge? d = s.ridge? d := rfl
@[simp] theorem State.setCount_get_block_ (s : State) (c : Ctr) (n v : Nat) (d : Nat) : (s.setCount c n v).block? d = s.block? d := rfl
@[simp] theorem State.setCount_get_ctx (s : State) (c : Ctr) (n v : Nat) (d : Nat) : (s.setCount c n v).ctx d = s.ctx d := rfl
@[simp] theorem State.setCount_get_stk (s : State) (c : Ctr) (n v : Nat) (d : Nat) : (s.setCount c n v).stk d = s.stk d := rfl
@[simp] theorem State.setCount_get_slice (s : State) (c : Ctr) (n v : Nat) (d : Nat) : (s.setCount c n v).slice d = s.slice d := rfl
@[simp] theorem State.setCount_get_partn (s : State) (c : Ctr) (n v : Nat) (d : Nat) : (s.setCount c n v).partn d = s.partn d := rfl
@[simp] theorem State.setCount_get_memGet (s : State) (c : Ctr) (n v : Nat) (d : Nat) : (s.setCount c n v).memGet d = s.memGet d := rfl
@[simp] theorem State.bump_get_core (s : State) (c : Ctr) (n k : Nat) (d : Nat) : (s.bump c n k).core d = s.core d := rfl
@[simp] theorem State.bump_get_team_ (s : State) (c : Ctr) (n k : Nat) (d j : Nat) : (s.bump c n k).team? d j = s.team? d j := rfl
@[simp] theorem State.bump_get_ridge_ (s : State) (c : Ctr) (n k : Nat) (d : Nat) : (s.bump c n k).ridge? d = s.ridge? d := rfl
@[simp] theorem State.bump_get_block_ (s : State) (c : Ctr) (n k : Nat) (d : Nat) : (s.bump c n k).block? d = s.block? d := rfl
@[simp] theorem State.bump_get_ctx (s : State) (c : Ctr) (n k : Nat) (d : Nat) : (s.bump c n k).ctx d = s.ctx d := rfl
@[simp] theorem State.bump_get_stk (s : State) (c : Ctr) (n k : Nat) (d : Nat) : (s.bump c n k).stk d = s.stk d := rfl
@[simp] theorem State.bump_get_slice (s : State) (c : Ctr) (n k : Nat) (d : Nat) : (s.bump c n k).slice d = s.slice d := rfl
@[simp] theorem State.bump_get_partn (s : State) (c : Ctr) (n k : Nat) (d : Nat) : (s.bump c n k).partn d = s.partn d := rfl
@[simp] theorem State.bump_get_memGet (s : State) (c : Ctr) (n k : Nat) (d : Nat) : (s.bump c n k).memGet d = s.memGet d := rfl
@[simp] theorem State.memWrite_get_core (s : State) (k : Nat) (bs : List Byte) (d : Nat) : (s.memWrite k bs).core d = s.core d := rfl
@[simp] theorem State.memWrite_get_team_ (s : State) (k : Nat) (bs : List Byte) (d j : Nat) : (s.memWrite k bs).team? d j = s.team? d j := rfl
@[simp] theorem State.memWrite_get_ridge_ (s : State) (k : Nat) (bs : List Byte) (d : Nat) : (s.memWrite k bs).ridge? d = s.ridge? d := rfl
@[simp] theorem State.memWrite_get_block_ (s : State) (k : Nat) (bs : List Byte) (d : Nat) : (s.memWrite k bs).block? d = s.block? d := rfl
@[simp] theorem State.memWrite_get_ctx (s : State) (k : Nat) (bs : List Byte) (d : Nat) : (s.memWrite k bs).ctx d = s.ctx d := rfl
@[simp] theorem State.memWrite_get_stk (s : State) (k : Nat) (bs : List Byte) (d : Nat) : (s.memWrite k bs).stk d = s.stk d := rfl
@[simp] theorem State.memWrite_get_slice (s : State) (k : Nat) (bs : List Byte) (d : Nat) : (s.memWrite k bs).slice d = s.slice d := rfl
@[simp] theorem State.memWrite_get_partn (s : State) (k : Nat) (bs : List Byte) (d : Nat) : (s.memWrite k bs).partn d = s.partn d := rfl
@[simp] theorem State.memWrite_get_count (s : State) (k : Nat) (bs : List Byte) (d : Ctr) (j : Nat) : (s.memWrite k bs).count d j = s.count d j := rfl
@[simp] theorem State.tickSeq_get_core (s : State) (d : Nat) : (s.tickSeq).core d = s.core d := rfl
@[simp] theorem State.tickSeq_get_team_ (s : State) (d j : Nat) : (s.tickSeq).team? d j = s.team? d j := rfl
@[simp] theorem State.tickSeq_get_ridge_ (s : State) (d : Nat) : (s.tickSeq).ridge? d = s.ridge? d := rfl
@[simp] theorem State.tickSeq_get_block_ (s : State) (d : Nat) : (s.tickSeq).block? d = s.block? d := rfl
@[simp] theorem State.tickSeq_get_ctx (s : State) (d : Nat) : (s.tickSeq).ctx d = s.ctx d := rfl
@[simp] theorem State.tickSeq_get_stk (s : State) (d : Nat) : (s.tickSeq).stk d = s.stk d := rfl
@[simp] theorem State.tickSeq_get_slice (s : State) (d : Nat) : (s.tickSeq).slice d = s.slice d := rfl
@[simp] theorem State.tickSeq_get_partn (s : State) (d : Nat) : (s.tickSeq).partn d = s.partn d := rfl
@[simp] theorem State.tickSeq_get_count (s : State) (d : Ctr) (j : Nat) : (s.tickSeq).count d j = s.count d j := rfl
@[simp] theorem State.tickSeq_get_memGet (s : State) (d : Nat) : (s.tickSeq).memGet d = s.memGet d := rfl
@[simp] theorem State.tickFree_get_core (s : State) (d : Nat) : (s.tickFree).core d = s.core d := rfl
@[simp] theorem State.tickFree_get_team_ (s : State) (d j : Nat) : (s.tickFree).team? d j = s.team? d j := rfl
@[simp] theorem State.tickFree_get_ridge_ (s : State) (d : Nat) : (s.tickFree).ridge? d = s.ridge? d := rfl
@[simp] theorem State.tickFree_get_block_ (s : State) (d : Nat) : (s.tickFree).block? d = s.block? d := rfl
@[simp] theorem State.tickFree_get_ctx (s : State) (d : Nat) : (s.tickFree).ctx d = s.ctx d := rfl
@[simp] theorem State.tickFree_get_stk (s : State) (d : Nat) : (s.tickFree).stk d = s.stk d := rfl
@[simp] theorem State.tickFree_get_slice (s : State) (d : Nat) : (s.tickFree).slice d = s.slice d := rfl
@[simp] theorem State.tickFree_get_partn (s : State) (d : Nat) : (s.tickFree).partn d = s.partn d := rfl
@[simp] theorem State.tickFree_get_count (s : State) (d : Ctr) (j : Nat) : (s.tickFree).count d j = s.count d j := rfl
@[simp] theorem State.tickFree_get_memGet (s : State) (d : Nat) : (s.tickFree).memGet d = s.memGet d := rfl
@[simp] theorem State.modCore_get_team_ (s : State) (c : Nat) (f : Core → Core) (d j : Nat) : (s.modCore c f).team? d j = s.team? d j := rfl
@[simp] theorem State.modCore_get_ridge_ (s : State) (c : Nat) (f : Core → Core) (d : Nat) : (s.modCore c f).ridge? d = s.ridge? d := rfl
@[simp] theorem State.modCore_get_block_ (s : State) (c : Nat) (f : Core → Core) (d : Nat) : (s.modCore c f).block? d = s.block? d := rfl
@[simp] theorem State.modCore_get_ctx (s : State) (c : Nat) (f : Core → Core) (d : Nat) : (s.modCore c f).ctx d = s.ctx d := rfl
@[simp] theorem State.modCore_get_stk (s : State) (c : Nat) (f : Core → Core) (d : Nat) : (s.modCore c f).stk d = s.stk d := rfl
@[simp] theorem State.modCore_get_slice (s : State) (c : Nat) (f : Core → Core) (d : Nat) : (s.modCore c f).slice d = s.slice d := rfl
@[simp] theorem State.modCore_get_partn (s : State) (c : Nat) (f : Core → Core) (d : Nat) : (s.modCore c f).partn d = s.partn d := rfl
@[simp] theorem State.modCore_get_count (s : State) (c : Nat) (f : Core → Core) (d : Ctr) (j : Nat) : (s.modCore c f).count d j = s.count d j := rfl
@[simp] theorem State.modCore_get_memGet (s : State) (c : Nat) (f : Core → Core) (d : Nat) : (s.modCore c f).memGet d = s.memGet d := rfl
@[simp] theorem State.modCtx_get_core (s : State) (c : Nat) (f : Ctx → Ctx) (d : Nat) : (s.modCtx c f).core d = s.core d := rfl
@[simp] theorem State.modCtx_get_team_ (s : State) (c : Nat) (f : Ctx → Ctx) (d j : Nat) : (s.modCtx c f).team? d j = s.team? d j := rfl
@[simp] theorem State.modCtx_get_ridge_ (s : State) (c : Nat) (f : Ctx → Ctx) (d : Nat) : (s.modCtx c f).ridge? d = s.ridge? d := rfl
@[simp] theorem State.modCtx_get_block_ (s : State) (c : Nat) (f : Ctx → Ctx) (d : Nat) : (s.modCtx c f).block? d = s.block? d := rfl
@[simp] theorem State.modCtx_get_stk (s : State) (c : Nat) (f : Ctx → Ctx) (d : Nat) : (s.modCtx c f).stk d = s.stk d := rfl
@[simp] theorem State.modCtx_get_slice (s : State) (c : Nat) (f : Ctx → Ctx) (d : Nat) : (s.modCtx c f).slice d = s.slice d := rfl
@[simp] theorem State.modCtx_get_partn (s : State) (c : Nat) (f : Ctx → Ctx) (d : Nat) : (s.modCtx c f).partn d = s.partn d := rfl
@[simp] theorem State.modCtx_get_count (s : State) (c : Nat) (f : Ctx → Ctx) (d : Ctr) (j : Nat) : (s.modCtx c f).count d j = s.count d j := rfl
@[simp] theorem State.modCtx_get_memGet (s : State) (c : Nat) (f : Ctx → Ctx) (d : Nat) : (s.modCtx c f).memGet d = s.memGet d := rfl
@[simp] theorem State.modStk_get_core (s : State) (c : Nat) (f : Stack → Stack) (d : Nat) : (s.modStk c f).core d = s.core d := rfl
@[simp] theorem State.modStk_get_team_ (s : State) (c : Nat) (f : Stack → Stack) (d j : Nat) : (s.modStk c f).team? d j = s.team? d j := rfl
@[simp] theorem State.modStk_get_ridge_ (s : State) (c : Nat) (f : Stack → Stack) (d : Nat) : (s.modStk c f).ridge? d = s.ridge? d := rfl
@[simp] theorem State.modStk_get_block_ (s : State) (c : Nat) (f : Stack → Stack) (d : Nat) : (s.modStk c f).block? d = s.block? d := rfl
@[simp] theorem State.modStk_get_ctx (s : State) (c : Nat) (f : Stack → Stack) (d : Nat) : (s.modStk c f).ctx d = s.ctx d := rfl
@[simp] theorem State.modStk_get_slice (s : State) (c : Nat) (f : Stack → Stack) (d : Nat) : (s.modStk c f).slice d = s.slice d := rfl
@[simp] theorem State.modStk_get_partn (s : State) (c : Nat) (f : Stack → Stack) (d : Nat) : (s.modStk c f).partn d = s.partn d := rfl
@[simp] theorem State.modStk_get_count (s : State) (c : Nat) (f : Stack → Stack) (d : Ctr) (j : Nat) : (s.modStk c f).count d j = s.count d j := rfl
@[simp] theorem State.modStk_get_memGet (s : State) (c : Nat) (f : Stack → Stack) (d : Nat) : (s.modStk c f).memGet d = s.memGet d := rfl
@[simp] theorem State.modSlice_get_core (s : State) (c : Nat) (f : Slice → Slice) (d : Nat) : (s.modSlice c f).core d = s.core d := rfl
@[simp] theorem State.modSlice_get_team_ (s : State) (c : Nat) (f : Slice → Slice) (d j : Nat) : (s.modSlice c f).team? d j = s.team? d j := rfl
@[simp] theorem State.modSlice_get_ridge_ (s : State) (c : Nat) (f : Slice → Slice) (d : Nat) : (s.modSlice c f).ridge? d = s.ridge? d := rfl
@[simp] theorem State.modSlice_get_block_ (s : State) (c : Nat) (f : Slice → Slice) (d : Nat) : (s.modSlice c f).block? d = s.block? d := rfl
@[simp] theorem State.modSlice_get_ctx (s : State) (c : Nat) (f : Slice → Slice) (d : Nat) : (s.modSlice c f).ctx d = s.ctx d := rfl
@[simp] theorem State.modSlice_get_stk (s : State) (c : Nat) (f : Slice → Slice) (d : Nat) : (s.modSlice c f).stk d = s.stk d := rfl
@[simp] theorem State.modSlice_get_partn (s : State) (c : Nat) (f : Slice → Slice) (d : Nat) : (s.modSlice c f).partn d = s.partn d := rfl
@[simp] theorem State.modSlice_get_count (s : State) (c : Nat) (f : Slice → Slice) (d : Ctr) (j : Nat) : (s.modSlice c f).count d j = s.count d j := rfl
@[simp] theorem State.modSlice_get_memGet (s : State) (c : Nat) (f : Slice → Slice) (d : Nat) : (s.modSlice c f).memGet d = s.memGet d := rfl
@[simp] theorem State.modPart_get_core (s : State) (c : Nat) (f : Part → Part) (d : Nat) : (s.modPart c f).core d = s.core d := rfl
@[simp] theorem State.modPart_get_team_ (s : State) (c : Nat) (f : Part → Part) (d j : Nat) : (s.modPart c f).team? d j = s.team? d j := rfl
@[simp] theorem State.modPart_get_ridge_ (s : State) (c : Nat) (f : Part → Part) (d : Nat) : (s.modPart c f).ridge? d = s.ridge? d := rfl
@[simp] theorem State.modPart_get_block_ (s : State) (c : Nat) (f : Part → Part) (d : Nat) : (s.modPart c f).block? d = s.block? d := rfl
@[simp] theorem State.modPart_get_ctx (s : State) (c : Nat) (f : Part → Part) (d : Nat) : (s.modPart c f).ctx d = s.ctx d := rfl
@[simp] theorem State.modPart_get_stk (s : State) (c : Nat) (f : Part → Part) (d : Nat) : (s.modPart c f).stk d = s.stk d := rfl
@[simp] theorem State.modPart_get_slice (s : State) (c : Nat) (f : Part → Part) (d : Nat) : (s.modPart c f).slice d = s.slice d := rfl
@[simp] theorem State.modPart_get_count (s : State) (c : Nat) (f : Part → Part) (d : Ctr) (j : Nat) : (s.modPart c f).count d j = s.count d j := rfl
@[simp] theorem State.modPart_get_memGet (s : State) (c : Nat) (f : Part → Part) (d : Nat) : (s.modPart c f).memGet d = s.memGet d := rfl
@[simp] theorem State.modTeam_get_core (s : State) (c k : Nat) (f : Team → Team) (d : Nat) : (s.modTeam c k f).core d = s.core d := by
  unfold State.modTeam; split <;> rfl
@[simp] theorem State.modTeam_get_ridge_ (s : State) (c k : Nat) (f : Team → Team) (d : Nat) : (s.modTeam c k f).ridge? d = s.ridge? d := by
  unfold State.modTeam; split <;> rfl
@[simp] theorem State.modTeam_get_block_ (s : State) (c k : Nat) (f : Team → Team) (d : Nat) : (s.modTeam c k f).block? d = s.block? d := by
  unfold State.modTeam; split <;> rfl
@[simp] theorem State.modTeam_get_ctx (s : State) (c k : Nat) (f : Team → Team) (d : Nat) : (s.modTeam c k f).ctx d = s.ctx d := by
  unfold State.modTeam; split <;> rfl
@[simp] theorem State.modTeam_get_stk (s : State) (c k : Nat) (f : Team → Team) (d : Nat) : (s.modTeam c k f).stk d = s.stk d := by
  unfold State.modTeam; split <;> rfl
@[simp] theorem State.modTeam_get_slice (s : State) (c k : Nat) (f : Team → Team) (d : Nat) : (s.modTeam c k f).slice d = s.slice d := by
  unfold State.modTeam; split <;> rfl
@[simp] theorem State.modTeam_get_partn (s : State) (c k : Nat) (f : Team → Team) (d : Nat) : (s.modTeam c k f).partn d = s.partn d := by
  unfold State.modTeam; split <;> rfl
@[simp] theorem State.modTeam_get_count (s : State) (c k : Nat) (f : Team → Team) (d : Ctr) (j : Nat) : (s.modTeam c k f).count d j = s.count d j := by
  unfold State.modTeam; split <;> rfl
@[simp] theorem State.modTeam_get_memGet (s : State) (c k : Nat) (f : Team → Team) (d : Nat) : (s.modTeam c k f).memGet d = s.memGet d := by
  unfold State.modTeam; split <;> rfl
@[simp] theorem State.modRidge_get_core (s : State) (c : Nat) (f : Ridge → Ridge) (d : Nat) : (s.modRidge c f).core d = s.core d := by
  unfold State.modRidge; split <;> rfl
@[simp] theorem State.modRidge_get_team_ (s : State) (c : Nat) (f : Ridge → Ridge) (d j : Nat) : (s.modRidge c f).team? d j = s.team? d j := by
  unfold State.modRidge; split <;> rfl
@[simp] theorem State.modRidge_get_block_ (s : State) (c : Nat) (f : Ridge → Ridge) (d : Nat) : (s.modRidge c f).block? d = s.block? d := by
  unfold State.modRidge; split <;> rfl
@[simp] theorem State.modRidge_get_ctx (s : State) (c : Nat) (f : Ridge → Ridge) (d : Nat) : (s.modRidge c f).ctx d = s.ctx d := by
  unfold State.modRidge; split <;> rfl
@[simp] theorem State.modRidge_get_stk (s : State) (c : Nat) (f : Ridge → Ridge) (d : Nat) : (s.modRidge c f).stk d = s.stk d := by
  unfold State.modRidge; split <;> rfl
@[simp] theorem State.modRidge_get_slice (s : State) (c : Nat) (f : Ridge → Ridge) (d : Nat) : (s.modRidge c f).slice d = s.slice d := by
  unfold State.modRidge; split <;> rfl
@[simp] theorem State.modRidge_get_partn (s : State) (c : Nat) (f : Ridge → Ridge) (d : Nat) : (s.modRidge c f).partn d = s.partn d := by
  unfold State.modRidge; split <;> rfl
@[simp] theorem State.modRidge_get_count (s : State) (c : Nat) (f : Ridge → Ridge) (d : Ctr) (j : Nat) : (s.modRidge c f).count d j = s.count d j := by
  unfold State.modRidge; split <;> rfl
@[simp] theorem State.modRidge_get_memGet (s : State) (c : Nat) (f : Ridge → Ridge) (d : Nat) : (s.modRidge c f).memGet d = s.memGet d := by
  unfold State.modRidge; split <;> rfl
@[simp] theorem State.modBlock_get_core (s : State) (c : Nat) (f : Block → Block) (d : Nat) : (s.modBlock c f).core d = s.core d := by
  unfold State.modBlock; split <;> rfl
@[simp] theorem State.modBlock_get_team_ (s : State) (c : Nat) (f : Block → Block) (d j : Nat) : (s.modBlock c f).team? d j = s.team? d j := by
  unfold State.modBlock; split <;> rfl
@[simp] theorem State.modBlock_get_ridge_ (s : State) (c : Nat) (f : Block → Block) (d : Nat) : (s.modBlock c f).ridge? d = s.ridge? d := by
  unfold State.modBlock; split <;> rfl
@[simp] theorem State.modBlock_get_ctx (s : State) (c : Nat) (f : Block → Block) (d : Nat) : (s.modBlock c f).ctx d = s.ctx d := by
  unfold State.modBlock; split <;> rfl
@[simp] theorem State.modBlock_get_stk (s : State) (c : Nat) (f : Block → Block) (d : Nat) : (s.modBlock c f).stk d = s.stk d := by
  unfold State.modBlock; split <;> rfl
@[simp] theorem State.modBlock_get_slice (s : State) (c : Nat) (f : Block → Block) (d : Nat) : (s.modBlock c f).slice d = s.slice d := by
  unfold State.modBlock; split <;> rfl
@[simp] theorem State.modBlock_get_partn (s : State) (c : Nat) (f : Block → Block) (d : Nat) : (s.modBlock c f).partn d = s.partn d := by
  unfold State.modBlock; split <;> rfl
@[simp] theorem State.modBlock_get_count (s : State) (c : Nat) (f : Block → Block) (d : Ctr) (j : Nat) : (s.modBlock c f).count d j = s.count d j := by
  unfold State.modBlock; split <;> rfl
@[simp] theorem State.modBlock_get_memGet (s : State) (c : Nat) (f : Block → Block) (d : Nat) : (s.modBlock c f).memGet d = s.memGet d := by
  unfold State.modBlock; split <;> rfl
@[simp] theorem Team.ws_uid (t : Team) (r : SReg) (v : W64) : (t.ws r v).uid = t.uid := by
  unfold Team.ws; split <;> rfl
@[simp] theorem Team.ws_ctx (t : Team) (r : SReg) (v : W64) : (t.ws r v).ctx = t.ctx := by
  unfold Team.ws; split <;> rfl
@[simp] theorem Team.ws_blk (t : Team) (r : SReg) (v : W64) : (t.ws r v).blk = t.blk := by
  unfold Team.ws; split <;> rfl
@[simp] theorem Team.ws_num (t : Team) (r : SReg) (v : W64) : (t.ws r v).num = t.num := by
  unfold Team.ws; split <;> rfl
@[simp] theorem Team.ws_hdr (t : Team) (r : SReg) (v : W64) : (t.ws r v).hdr = t.hdr := by
  unfold Team.ws; split <;> rfl
@[simp] theorem Team.ws_pc (t : Team) (r : SReg) (v : W64) : (t.ws r v).pc = t.pc := by
  unfold Team.ws; split <;> rfl
@[simp] theorem Team.ws_atHdr (t : Team) (r : SReg) (v : W64) : (t.ws r v).atHdr = t.atHdr := by
  unfold Team.ws; split <;> rfl
@[simp] theorem Team.ws_hdrAddr (t : Team) (r : SReg) (v : W64) : (t.ws r v).hdrAddr = t.hdrAddr := by
  unfold Team.ws; split <;> rfl
@[simp] theorem Team.ws_hdrWord (t : Team) (r : SReg) (v : W64) : (t.ws r v).hdrWord = t.hdrWord := by
  unfold Team.ws; split <;> rfl
@[simp] theorem Team.ws_act (t : Team) (r : SReg) (v : W64) : (t.ws r v).act = t.act := by
  unfold Team.ws; split <;> rfl
@[simp] theorem Team.ws_stk (t : Team) (r : SReg) (v : W64) : (t.ws r v).stk = t.stk := by
  unfold Team.ws; split <;> rfl
@[simp] theorem Team.ws_preg (t : Team) (r : SReg) (v : W64) : (t.ws r v).preg = t.preg := by
  unfold Team.ws; split <;> rfl
@[simp] theorem Team.ws_vmap (t : Team) (r : SReg) (v : W64) : (t.ws r v).vmap = t.vmap := by
  unfold Team.ws; split <;> rfl
@[simp] theorem Team.ws_view (t : Team) (r : SReg) (v : W64) : (t.ws r v).view = t.view := by
  unfold Team.ws; split <;> rfl
@[simp] theorem Team.ws_qb (t : Team) (r : SReg) (v : W64) : (t.ws r v).qb = t.qb := by
  unfold Team.ws; split <;> rfl
@[simp] theorem Team.ws_wid (t : Team) (r : SReg) (v : W64) : (t.ws r v).wid = t.wid := by
  unfold Team.ws; split <;> rfl
@[simp] theorem Team.ws_arg (t : Team) (r : SReg) (v : W64) : (t.ws r v).arg = t.arg := by
  unfold Team.ws; split <;> rfl
@[simp] theorem Team.ws_depth (t : Team) (r : SReg) (v : W64) : (t.ws r v).depth = t.depth := by
  unfold Team.ws; split <;> rfl
@[simp] theorem Team.ws_fstat (t : Team) (r : SReg) (v : W64) : (t.ws r v).fstat = t.fstat := by
  unfold Team.ws; split <;> rfl
@[simp] theorem Team.ws_check (t : Team) (r : SReg) (v : W64) : (t.ws r v).check = t.check := by
  unfold Team.ws; split <;> rfl
@[simp] theorem Team.ws_wait (t : Team) (r : SReg) (v : W64) : (t.ws r v).wait = t.wait := by
  unfold Team.ws; split <;> rfl
@[simp] theorem Team.ws_yield (t : Team) (r : SReg) (v : W64) : (t.ws r v).yield = t.yield := by
  unfold Team.ws; split <;> rfl
@[simp] theorem Team.ws_frozen (t : Team) (r : SReg) (v : W64) : (t.ws r v).frozen = t.frozen := by
  unfold Team.ws; split <;> rfl
@[simp] theorem Team.ws_gather (t : Team) (r : SReg) (v : W64) : (t.ws r v).gather = t.gather := by
  unfold Team.ws; split <;> rfl
@[simp] theorem Team.ws_vers (t : Team) (r : SReg) (v : W64) : (t.ws r v).vers = t.vers := by
  unfold Team.ws; split <;> rfl
@[simp] theorem Team.ws_relSeq (t : Team) (r : SReg) (v : W64) : (t.ws r v).relSeq = t.relSeq := by
  unfold Team.ws; split <;> rfl
@[simp] theorem Team.ws_dom (t : Team) (r : SReg) (v : W64) : (t.ws r v).dom = t.dom := by
  unfold Team.ws; split <;> rfl
@[simp] theorem Team.ws_launch (t : Team) (r : SReg) (v : W64) : (t.ws r v).launch = t.launch := by
  unfold Team.ws; split <;> rfl
@[simp] theorem Team.ws_due (t : Team) (r : SReg) (v : W64) : (t.ws r v).due = t.due := by
  unfold Team.ws; split <;> rfl
@[simp] theorem Team.ws_back (t : Team) (r : SReg) (v : W64) : (t.ws r v).back = t.back := by
  unfold Team.ws; split <;> rfl
@[simp] theorem Team.ws_slip (t : Team) (r : SReg) (v : W64) : (t.ws r v).slip = t.slip := by
  unfold Team.ws; split <;> rfl
@[simp] theorem Team.wp_uid (t : Team) (r : PReg) (m v : Mask) : (t.wp r m v).uid = t.uid := by
  unfold Team.wp; split <;> rfl
@[simp] theorem Team.wp_ctx (t : Team) (r : PReg) (m v : Mask) : (t.wp r m v).ctx = t.ctx := by
  unfold Team.wp; split <;> rfl
@[simp] theorem Team.wp_blk (t : Team) (r : PReg) (m v : Mask) : (t.wp r m v).blk = t.blk := by
  unfold Team.wp; split <;> rfl
@[simp] theorem Team.wp_num (t : Team) (r : PReg) (m v : Mask) : (t.wp r m v).num = t.num := by
  unfold Team.wp; split <;> rfl
@[simp] theorem Team.wp_hdr (t : Team) (r : PReg) (m v : Mask) : (t.wp r m v).hdr = t.hdr := by
  unfold Team.wp; split <;> rfl
@[simp] theorem Team.wp_pc (t : Team) (r : PReg) (m v : Mask) : (t.wp r m v).pc = t.pc := by
  unfold Team.wp; split <;> rfl
@[simp] theorem Team.wp_atHdr (t : Team) (r : PReg) (m v : Mask) : (t.wp r m v).atHdr = t.atHdr := by
  unfold Team.wp; split <;> rfl
@[simp] theorem Team.wp_hdrAddr (t : Team) (r : PReg) (m v : Mask) : (t.wp r m v).hdrAddr = t.hdrAddr := by
  unfold Team.wp; split <;> rfl
@[simp] theorem Team.wp_hdrWord (t : Team) (r : PReg) (m v : Mask) : (t.wp r m v).hdrWord = t.hdrWord := by
  unfold Team.wp; split <;> rfl
@[simp] theorem Team.wp_act (t : Team) (r : PReg) (m v : Mask) : (t.wp r m v).act = t.act := by
  unfold Team.wp; split <;> rfl
@[simp] theorem Team.wp_stk (t : Team) (r : PReg) (m v : Mask) : (t.wp r m v).stk = t.stk := by
  unfold Team.wp; split <;> rfl
@[simp] theorem Team.wp_sreg (t : Team) (r : PReg) (m v : Mask) : (t.wp r m v).sreg = t.sreg := by
  unfold Team.wp; split <;> rfl
@[simp] theorem Team.wp_vmap (t : Team) (r : PReg) (m v : Mask) : (t.wp r m v).vmap = t.vmap := by
  unfold Team.wp; split <;> rfl
@[simp] theorem Team.wp_view (t : Team) (r : PReg) (m v : Mask) : (t.wp r m v).view = t.view := by
  unfold Team.wp; split <;> rfl
@[simp] theorem Team.wp_qb (t : Team) (r : PReg) (m v : Mask) : (t.wp r m v).qb = t.qb := by
  unfold Team.wp; split <;> rfl
@[simp] theorem Team.wp_wid (t : Team) (r : PReg) (m v : Mask) : (t.wp r m v).wid = t.wid := by
  unfold Team.wp; split <;> rfl
@[simp] theorem Team.wp_arg (t : Team) (r : PReg) (m v : Mask) : (t.wp r m v).arg = t.arg := by
  unfold Team.wp; split <;> rfl
@[simp] theorem Team.wp_depth (t : Team) (r : PReg) (m v : Mask) : (t.wp r m v).depth = t.depth := by
  unfold Team.wp; split <;> rfl
@[simp] theorem Team.wp_fstat (t : Team) (r : PReg) (m v : Mask) : (t.wp r m v).fstat = t.fstat := by
  unfold Team.wp; split <;> rfl
@[simp] theorem Team.wp_check (t : Team) (r : PReg) (m v : Mask) : (t.wp r m v).check = t.check := by
  unfold Team.wp; split <;> rfl
@[simp] theorem Team.wp_wait (t : Team) (r : PReg) (m v : Mask) : (t.wp r m v).wait = t.wait := by
  unfold Team.wp; split <;> rfl
@[simp] theorem Team.wp_yield (t : Team) (r : PReg) (m v : Mask) : (t.wp r m v).yield = t.yield := by
  unfold Team.wp; split <;> rfl
@[simp] theorem Team.wp_frozen (t : Team) (r : PReg) (m v : Mask) : (t.wp r m v).frozen = t.frozen := by
  unfold Team.wp; split <;> rfl
@[simp] theorem Team.wp_gather (t : Team) (r : PReg) (m v : Mask) : (t.wp r m v).gather = t.gather := by
  unfold Team.wp; split <;> rfl
@[simp] theorem Team.wp_vers (t : Team) (r : PReg) (m v : Mask) : (t.wp r m v).vers = t.vers := by
  unfold Team.wp; split <;> rfl
@[simp] theorem Team.wp_relSeq (t : Team) (r : PReg) (m v : Mask) : (t.wp r m v).relSeq = t.relSeq := by
  unfold Team.wp; split <;> rfl
@[simp] theorem Team.wp_dom (t : Team) (r : PReg) (m v : Mask) : (t.wp r m v).dom = t.dom := by
  unfold Team.wp; split <;> rfl
@[simp] theorem Team.wp_launch (t : Team) (r : PReg) (m v : Mask) : (t.wp r m v).launch = t.launch := by
  unfold Team.wp; split <;> rfl
@[simp] theorem Team.wp_due (t : Team) (r : PReg) (m v : Mask) : (t.wp r m v).due = t.due := by
  unfold Team.wp; split <;> rfl
@[simp] theorem Team.wp_back (t : Team) (r : PReg) (m v : Mask) : (t.wp r m v).back = t.back := by
  unfold Team.wp; split <;> rfl
@[simp] theorem Team.wp_slip (t : Team) (r : PReg) (m v : Mask) : (t.wp r m v).slip = t.slip := by
  unfold Team.wp; split <;> rfl
@[simp] theorem Ridge.ws_uid (t : Ridge) (r : SReg) (v : W64) : (t.ws r v).uid = t.uid := by
  unfold Ridge.ws; split <;> rfl
@[simp] theorem Ridge.ws_ctx (t : Ridge) (r : SReg) (v : W64) : (t.ws r v).ctx = t.ctx := by
  unfold Ridge.ws; split <;> rfl
@[simp] theorem Ridge.ws_blk (t : Ridge) (r : SReg) (v : W64) : (t.ws r v).blk = t.blk := by
  unfold Ridge.ws; split <;> rfl
@[simp] theorem Ridge.ws_hdr (t : Ridge) (r : SReg) (v : W64) : (t.ws r v).hdr = t.hdr := by
  unfold Ridge.ws; split <;> rfl
@[simp] theorem Ridge.ws_pc (t : Ridge) (r : SReg) (v : W64) : (t.ws r v).pc = t.pc := by
  unfold Ridge.ws; split <;> rfl
@[simp] theorem Ridge.ws_atHdr (t : Ridge) (r : SReg) (v : W64) : (t.ws r v).atHdr = t.atHdr := by
  unfold Ridge.ws; split <;> rfl
@[simp] theorem Ridge.ws_hdrAddr (t : Ridge) (r : SReg) (v : W64) : (t.ws r v).hdrAddr = t.hdrAddr := by
  unfold Ridge.ws; split <;> rfl
@[simp] theorem Ridge.ws_hdrWord (t : Ridge) (r : SReg) (v : W64) : (t.ws r v).hdrWord = t.hdrWord := by
  unfold Ridge.ws; split <;> rfl
@[simp] theorem Ridge.ws_preg (t : Ridge) (r : SReg) (v : W64) : (t.ws r v).preg = t.preg := by
  unfold Ridge.ws; split <;> rfl
@[simp] theorem Ridge.ws_rstk (t : Ridge) (r : SReg) (v : W64) : (t.ws r v).rstk = t.rstk := by
  unfold Ridge.ws; split <;> rfl
@[simp] theorem Ridge.ws_trap (t : Ridge) (r : SReg) (v : W64) : (t.ws r v).trap = t.trap := by
  unfold Ridge.ws; split <;> rfl
@[simp] theorem Ridge.ws_check (t : Ridge) (r : SReg) (v : W64) : (t.ws r v).check = t.check := by
  unfold Ridge.ws; split <;> rfl
@[simp] theorem Ridge.ws_wait (t : Ridge) (r : SReg) (v : W64) : (t.ws r v).wait = t.wait := by
  unfold Ridge.ws; split <;> rfl
@[simp] theorem Ridge.ws_frozen (t : Ridge) (r : SReg) (v : W64) : (t.ws r v).frozen = t.frozen := by
  unfold Ridge.ws; split <;> rfl
@[simp] theorem Ridge.ws_ended (t : Ridge) (r : SReg) (v : W64) : (t.ws r v).ended = t.ended := by
  unfold Ridge.ws; split <;> rfl
@[simp] theorem Ridge.ws_depth (t : Ridge) (r : SReg) (v : W64) : (t.ws r v).depth = t.depth := by
  unfold Ridge.ws; split <;> rfl
@[simp] theorem Ridge.ws_due (t : Ridge) (r : SReg) (v : W64) : (t.ws r v).due = t.due := by
  unfold Ridge.ws; split <;> rfl
@[simp] theorem Ridge.ws_back (t : Ridge) (r : SReg) (v : W64) : (t.ws r v).back = t.back := by
  unfold Ridge.ws; split <;> rfl
@[simp] theorem Ridge.ws_slip (t : Ridge) (r : SReg) (v : W64) : (t.ws r v).slip = t.slip := by
  unfold Ridge.ws; split <;> rfl
@[simp] theorem Ridge.wp_uid (t : Ridge) (r : PReg) (v : Bool) : (t.wp r v).uid = t.uid := by
  unfold Ridge.wp; split <;> rfl
@[simp] theorem Ridge.wp_ctx (t : Ridge) (r : PReg) (v : Bool) : (t.wp r v).ctx = t.ctx := by
  unfold Ridge.wp; split <;> rfl
@[simp] theorem Ridge.wp_blk (t : Ridge) (r : PReg) (v : Bool) : (t.wp r v).blk = t.blk := by
  unfold Ridge.wp; split <;> rfl
@[simp] theorem Ridge.wp_hdr (t : Ridge) (r : PReg) (v : Bool) : (t.wp r v).hdr = t.hdr := by
  unfold Ridge.wp; split <;> rfl
@[simp] theorem Ridge.wp_pc (t : Ridge) (r : PReg) (v : Bool) : (t.wp r v).pc = t.pc := by
  unfold Ridge.wp; split <;> rfl
@[simp] theorem Ridge.wp_atHdr (t : Ridge) (r : PReg) (v : Bool) : (t.wp r v).atHdr = t.atHdr := by
  unfold Ridge.wp; split <;> rfl
@[simp] theorem Ridge.wp_hdrAddr (t : Ridge) (r : PReg) (v : Bool) : (t.wp r v).hdrAddr = t.hdrAddr := by
  unfold Ridge.wp; split <;> rfl
@[simp] theorem Ridge.wp_hdrWord (t : Ridge) (r : PReg) (v : Bool) : (t.wp r v).hdrWord = t.hdrWord := by
  unfold Ridge.wp; split <;> rfl
@[simp] theorem Ridge.wp_sreg (t : Ridge) (r : PReg) (v : Bool) : (t.wp r v).sreg = t.sreg := by
  unfold Ridge.wp; split <;> rfl
@[simp] theorem Ridge.wp_rstk (t : Ridge) (r : PReg) (v : Bool) : (t.wp r v).rstk = t.rstk := by
  unfold Ridge.wp; split <;> rfl
@[simp] theorem Ridge.wp_trap (t : Ridge) (r : PReg) (v : Bool) : (t.wp r v).trap = t.trap := by
  unfold Ridge.wp; split <;> rfl
@[simp] theorem Ridge.wp_check (t : Ridge) (r : PReg) (v : Bool) : (t.wp r v).check = t.check := by
  unfold Ridge.wp; split <;> rfl
@[simp] theorem Ridge.wp_wait (t : Ridge) (r : PReg) (v : Bool) : (t.wp r v).wait = t.wait := by
  unfold Ridge.wp; split <;> rfl
@[simp] theorem Ridge.wp_frozen (t : Ridge) (r : PReg) (v : Bool) : (t.wp r v).frozen = t.frozen := by
  unfold Ridge.wp; split <;> rfl
@[simp] theorem Ridge.wp_ended (t : Ridge) (r : PReg) (v : Bool) : (t.wp r v).ended = t.ended := by
  unfold Ridge.wp; split <;> rfl
@[simp] theorem Ridge.wp_depth (t : Ridge) (r : PReg) (v : Bool) : (t.wp r v).depth = t.depth := by
  unfold Ridge.wp; split <;> rfl
@[simp] theorem Ridge.wp_due (t : Ridge) (r : PReg) (v : Bool) : (t.wp r v).due = t.due := by
  unfold Ridge.wp; split <;> rfl
@[simp] theorem Ridge.wp_back (t : Ridge) (r : PReg) (v : Bool) : (t.wp r v).back = t.back := by
  unfold Ridge.wp; split <;> rfl
@[simp] theorem Ridge.wp_slip (t : Ridge) (r : PReg) (v : Bool) : (t.wp r v).slip = t.slip := by
  unfold Ridge.wp; split <;> rfl
@[simp] theorem Team.point_uid (t : Team) (k j n : Nat) : (t.point k j n).uid = t.uid := rfl
@[simp] theorem Team.point_ctx (t : Team) (k j n : Nat) : (t.point k j n).ctx = t.ctx := rfl
@[simp] theorem Team.point_blk (t : Team) (k j n : Nat) : (t.point k j n).blk = t.blk := rfl
@[simp] theorem Team.point_num (t : Team) (k j n : Nat) : (t.point k j n).num = t.num := rfl
@[simp] theorem Team.point_hdr (t : Team) (k j n : Nat) : (t.point k j n).hdr = t.hdr := rfl
@[simp] theorem Team.point_pc (t : Team) (k j n : Nat) : (t.point k j n).pc = t.pc := rfl
@[simp] theorem Team.point_atHdr (t : Team) (k j n : Nat) : (t.point k j n).atHdr = t.atHdr := rfl
@[simp] theorem Team.point_hdrAddr (t : Team) (k j n : Nat) : (t.point k j n).hdrAddr = t.hdrAddr := rfl
@[simp] theorem Team.point_hdrWord (t : Team) (k j n : Nat) : (t.point k j n).hdrWord = t.hdrWord := rfl
@[simp] theorem Team.point_act (t : Team) (k j n : Nat) : (t.point k j n).act = t.act := rfl
@[simp] theorem Team.point_stk (t : Team) (k j n : Nat) : (t.point k j n).stk = t.stk := rfl
@[simp] theorem Team.point_sreg (t : Team) (k j n : Nat) : (t.point k j n).sreg = t.sreg := rfl
@[simp] theorem Team.point_preg (t : Team) (k j n : Nat) : (t.point k j n).preg = t.preg := rfl
@[simp] theorem Team.point_view (t : Team) (k j n : Nat) : (t.point k j n).view = t.view := rfl
@[simp] theorem Team.point_qb (t : Team) (k j n : Nat) : (t.point k j n).qb = t.qb := rfl
@[simp] theorem Team.point_wid (t : Team) (k j n : Nat) : (t.point k j n).wid = t.wid := rfl
@[simp] theorem Team.point_arg (t : Team) (k j n : Nat) : (t.point k j n).arg = t.arg := rfl
@[simp] theorem Team.point_depth (t : Team) (k j n : Nat) : (t.point k j n).depth = t.depth := rfl
@[simp] theorem Team.point_fstat (t : Team) (k j n : Nat) : (t.point k j n).fstat = t.fstat := rfl
@[simp] theorem Team.point_check (t : Team) (k j n : Nat) : (t.point k j n).check = t.check := rfl
@[simp] theorem Team.point_shadows (t : Team) (k j n : Nat) : (t.point k j n).shadows = t.shadows := rfl
@[simp] theorem Team.point_wait (t : Team) (k j n : Nat) : (t.point k j n).wait = t.wait := rfl
@[simp] theorem Team.point_yield (t : Team) (k j n : Nat) : (t.point k j n).yield = t.yield := rfl
@[simp] theorem Team.point_frozen (t : Team) (k j n : Nat) : (t.point k j n).frozen = t.frozen := rfl
@[simp] theorem Team.point_gather (t : Team) (k j n : Nat) : (t.point k j n).gather = t.gather := rfl
@[simp] theorem Team.point_vers (t : Team) (k j n : Nat) : (t.point k j n).vers = t.vers := rfl
@[simp] theorem Team.point_relSeq (t : Team) (k j n : Nat) : (t.point k j n).relSeq = t.relSeq := rfl
@[simp] theorem Team.point_dom (t : Team) (k j n : Nat) : (t.point k j n).dom = t.dom := rfl
@[simp] theorem Team.point_launch (t : Team) (k j n : Nat) : (t.point k j n).launch = t.launch := rfl
@[simp] theorem Team.point_due (t : Team) (k j n : Nat) : (t.point k j n).due = t.due := rfl
@[simp] theorem Team.point_back (t : Team) (k j n : Nat) : (t.point k j n).back = t.back := rfl
@[simp] theorem Team.point_slip (t : Team) (k j n : Nat) : (t.point k j n).slip = t.slip := rfl
@[simp] theorem Team.pointOver_uid (t : Team) (k j n : Nat) (w : W32) : (t.pointOver k j n w).uid = t.uid := rfl
@[simp] theorem Team.pointOver_ctx (t : Team) (k j n : Nat) (w : W32) : (t.pointOver k j n w).ctx = t.ctx := rfl
@[simp] theorem Team.pointOver_blk (t : Team) (k j n : Nat) (w : W32) : (t.pointOver k j n w).blk = t.blk := rfl
@[simp] theorem Team.pointOver_num (t : Team) (k j n : Nat) (w : W32) : (t.pointOver k j n w).num = t.num := rfl
@[simp] theorem Team.pointOver_hdr (t : Team) (k j n : Nat) (w : W32) : (t.pointOver k j n w).hdr = t.hdr := rfl
@[simp] theorem Team.pointOver_pc (t : Team) (k j n : Nat) (w : W32) : (t.pointOver k j n w).pc = t.pc := rfl
@[simp] theorem Team.pointOver_atHdr (t : Team) (k j n : Nat) (w : W32) : (t.pointOver k j n w).atHdr = t.atHdr := rfl
@[simp] theorem Team.pointOver_hdrAddr (t : Team) (k j n : Nat) (w : W32) : (t.pointOver k j n w).hdrAddr = t.hdrAddr := rfl
@[simp] theorem Team.pointOver_hdrWord (t : Team) (k j n : Nat) (w : W32) : (t.pointOver k j n w).hdrWord = t.hdrWord := rfl
@[simp] theorem Team.pointOver_act (t : Team) (k j n : Nat) (w : W32) : (t.pointOver k j n w).act = t.act := rfl
@[simp] theorem Team.pointOver_stk (t : Team) (k j n : Nat) (w : W32) : (t.pointOver k j n w).stk = t.stk := rfl
@[simp] theorem Team.pointOver_sreg (t : Team) (k j n : Nat) (w : W32) : (t.pointOver k j n w).sreg = t.sreg := rfl
@[simp] theorem Team.pointOver_preg (t : Team) (k j n : Nat) (w : W32) : (t.pointOver k j n w).preg = t.preg := rfl
@[simp] theorem Team.pointOver_view (t : Team) (k j n : Nat) (w : W32) : (t.pointOver k j n w).view = t.view := rfl
@[simp] theorem Team.pointOver_qb (t : Team) (k j n : Nat) (w : W32) : (t.pointOver k j n w).qb = t.qb := rfl
@[simp] theorem Team.pointOver_wid (t : Team) (k j n : Nat) (w : W32) : (t.pointOver k j n w).wid = t.wid := rfl
@[simp] theorem Team.pointOver_arg (t : Team) (k j n : Nat) (w : W32) : (t.pointOver k j n w).arg = t.arg := rfl
@[simp] theorem Team.pointOver_depth (t : Team) (k j n : Nat) (w : W32) : (t.pointOver k j n w).depth = t.depth := rfl
@[simp] theorem Team.pointOver_fstat (t : Team) (k j n : Nat) (w : W32) : (t.pointOver k j n w).fstat = t.fstat := rfl
@[simp] theorem Team.pointOver_check (t : Team) (k j n : Nat) (w : W32) : (t.pointOver k j n w).check = t.check := rfl
@[simp] theorem Team.pointOver_wait (t : Team) (k j n : Nat) (w : W32) : (t.pointOver k j n w).wait = t.wait := rfl
@[simp] theorem Team.pointOver_yield (t : Team) (k j n : Nat) (w : W32) : (t.pointOver k j n w).yield = t.yield := rfl
@[simp] theorem Team.pointOver_frozen (t : Team) (k j n : Nat) (w : W32) : (t.pointOver k j n w).frozen = t.frozen := rfl
@[simp] theorem Team.pointOver_gather (t : Team) (k j n : Nat) (w : W32) : (t.pointOver k j n w).gather = t.gather := rfl
@[simp] theorem Team.pointOver_vers (t : Team) (k j n : Nat) (w : W32) : (t.pointOver k j n w).vers = t.vers := rfl
@[simp] theorem Team.pointOver_relSeq (t : Team) (k j n : Nat) (w : W32) : (t.pointOver k j n w).relSeq = t.relSeq := rfl
@[simp] theorem Team.pointOver_dom (t : Team) (k j n : Nat) (w : W32) : (t.pointOver k j n w).dom = t.dom := rfl
@[simp] theorem Team.pointOver_launch (t : Team) (k j n : Nat) (w : W32) : (t.pointOver k j n w).launch = t.launch := rfl
@[simp] theorem Team.pointOver_due (t : Team) (k j n : Nat) (w : W32) : (t.pointOver k j n w).due = t.due := rfl
@[simp] theorem Team.pointOver_back (t : Team) (k j n : Nat) (w : W32) : (t.pointOver k j n w).back = t.back := rfl
@[simp] theorem Team.pointOver_slip (t : Team) (k j n : Nat) (w : W32) : (t.pointOver k j n w).slip = t.slip := rfl

/-! Reads of what was written. -/

theorem State.core_setCore (s : State) (c d : Nat) (x : Core) : (s.setCore c x).core d = if d = c then x else s.core d := by
  simp [State.core, State.setCore, Tbl.get_put]
theorem State.core_modCore (s : State) (c d : Nat) (f : Core → Core) :
    (s.modCore c f).core d = if d = c then f (s.core c) else s.core d := State.core_setCore s c d _
theorem State.ctx_setCtx (s : State) (c d : Nat) (x : Ctx) : (s.setCtx c x).ctx d = if d = c then x else s.ctx d := by
  simp [State.ctx, State.setCtx, Tbl.get_put]
theorem State.ctx_modCtx (s : State) (c d : Nat) (f : Ctx → Ctx) :
    (s.modCtx c f).ctx d = if d = c then f (s.ctx c) else s.ctx d := State.ctx_setCtx s c d _
theorem State.stk_setStk (s : State) (c d : Nat) (x : Stack) : (s.setStk c x).stk d = if d = c then x else s.stk d := by
  simp [State.stk, State.setStk, Tbl.get_put]
theorem State.stk_modStk (s : State) (c d : Nat) (f : Stack → Stack) :
    (s.modStk c f).stk d = if d = c then f (s.stk c) else s.stk d := State.stk_setStk s c d _
theorem State.slice_setSlice (s : State) (c d : Nat) (x : Slice) :
    (s.setSlice c x).slice d = if d = c then x else s.slice d := by simp [State.slice, State.setSlice, Tbl.get_put]
theorem State.slice_modSlice (s : State) (c d : Nat) (f : Slice → Slice) :
    (s.modSlice c f).slice d = if d = c then f (s.slice c) else s.slice d := State.slice_setSlice s c d _
theorem State.partn_setPart (s : State) (c d : Nat) (x : Part) :
    (s.setPart c x).partn d = if d = c then x else s.partn d := by simp [State.partn, State.setPart, Tbl.get_put]
theorem State.partn_modPart (s : State) (c d : Nat) (f : Part → Part) :
    (s.modPart c f).partn d = if d = c then f (s.partn c) else s.partn d := State.partn_setPart s c d _

/-- A slot is below 16, so keys of slots are apart. -/
theorem tkey_inj {c d k j : Nat} (hk : k < 16) (hj : j < 16) (h : tkey c k = tkey d j) : c = d ∧ k = j := by
  unfold tkey at h; omega

@[simp] theorem State.team_setTeam_same (s : State) (c k : Nat) (x : Team) : (s.setTeam c k x).team? c k = some x := by
  simp [State.team?, State.setTeam]
theorem State.team_setTeam_key (s : State) (c d k j : Nat) (x : Team) :
    (s.setTeam c k x).team? d j = if tkey d j = tkey c k then some x else s.team? d j := by
  simp [State.team?, State.setTeam, Tbl.find_put]
theorem State.team_modTeam_same (s : State) (c k : Nat) (f : Team → Team) :
    (s.modTeam c k f).team? c k = (s.team? c k).map f := by
  unfold State.modTeam; split <;> simp_all
theorem State.team_modTeam_key (s : State) (c d k j : Nat) (f : Team → Team) (h : tkey d j ≠ tkey c k) :
    (s.modTeam c k f).team? d j = s.team? d j := by
  unfold State.modTeam; split <;> simp_all [State.team_setTeam_key]
@[simp] theorem State.ridge_setRidge_same (s : State) (c : Nat) (x : Ridge) : (s.setRidge c x).ridge? c = some x := by
  simp [State.ridge?, State.setRidge]
theorem State.ridge_setRidge (s : State) (c d : Nat) (x : Ridge) :
    (s.setRidge c x).ridge? d = if d = c then some x else s.ridge? d := by
  simp [State.ridge?, State.setRidge, Tbl.find_put]
theorem State.ridge_modRidge (s : State) (c d : Nat) (f : Ridge → Ridge) :
    (s.modRidge c f).ridge? d = if d = c then (s.ridge? c).map f else s.ridge? d := by
  unfold State.modRidge; split <;> simp_all [State.ridge_setRidge]
theorem State.block_setBlock (s : State) (c d : Nat) (x : Block) :
    (s.setBlock c x).block? d = if d = c then some x else s.block? d := by
  simp [State.block?, State.setBlock, Tbl.find_put]
theorem State.block_modBlock (s : State) (c d : Nat) (f : Block → Block) :
    (s.modBlock c f).block? d = if d = c then (s.block? c).map f else s.block? d := by
  unfold State.modBlock; split <;> simp_all [State.block_setBlock]

/-! Scalars and predicates (R76, R81, R83). -/

theorem Team.rs_ws (t : Team) (r q : SReg) (v : W64) :
    (t.ws r v).rs q = if q = r ∧ r.val ≠ 0 then v else t.rs q := by
  unfold Team.ws Team.rs
  by_cases h : r.val = 0
  · simp [h]
  · by_cases e : q = r
    · subst e; simp [h]
    · have g : q.val ≠ r.val := fun x => e (Fin.ext x)
      simp [h, e, g, Tbl.get_set]
@[simp] theorem Team.rp_ws (t : Team) (r : SReg) (q : PReg) (v : W64) : (t.ws r v).rp q = t.rp q := by
  unfold Team.rp; simp
@[simp] theorem Team.rs_wp (t : Team) (r : PReg) (q : SReg) (m v : Mask) : (t.wp r m v).rs q = t.rs q := by
  unfold Team.rs; simp
theorem Team.rp_wp (t : Team) (r q : PReg) (m v : Mask) :
    (t.wp r m v).rp q = if q = r ∧ r.val ≠ 0 then blend m (t.rp r) v else t.rp q := by
  unfold Team.wp Team.rp
  by_cases h : r.val = 0
  · simp [h]
  · by_cases e : q = r
    · subst e; simp [h]
    · have g : q.val ≠ r.val := fun x => e (Fin.ext x)
      simp [h, e, g, Tbl.get_set]
theorem Ridge.rs_ws (t : Ridge) (r q : SReg) (v : W64) :
    (t.ws r v).rs q = if q = r ∧ r.val ≠ 0 then v else t.rs q := by
  unfold Ridge.ws Ridge.rs
  by_cases h : r.val = 0
  · simp [h]
  · by_cases e : q = r
    · subst e; simp [h]
    · have g : q.val ≠ r.val := fun x => e (Fin.ext x)
      simp [h, e, g, Tbl.get_set]
@[simp] theorem Ridge.rp_ws (t : Ridge) (r : SReg) (q : PReg) (v : W64) : (t.ws r v).rp q = t.rp q := by
  unfold Ridge.rp; simp
@[simp] theorem Ridge.rs_wp (t : Ridge) (r : PReg) (q : SReg) (v : Bool) : (t.wp r v).rs q = t.rs q := by
  unfold Ridge.rs; simp
theorem Ridge.rp_wp (t : Ridge) (r q : PReg) (v : Bool) :
    (t.wp r v).rp q = if q = r ∧ r.val ≠ 0 then v else t.rp q := by
  unfold Ridge.wp Ridge.rp
  by_cases h : r.val = 0
  · simp [h]
  · by_cases e : q = r
    · subst e; cases v <;> simp [h, inMask]
    · have g : q.val ≠ r.val := fun x => e (Fin.ext x)
      simp [h, e, g, Tbl.get_set]
theorem Team.slice_point (t : Team) (k j n k' j' : Nat) :
    (t.point k j n).slice k' j' = if mkey k' j' = mkey k j then n else t.slice k' j' := by
  simp [Team.point, Team.slice, Tbl.get_set]
@[simp] theorem Team.slice_pointOver (t : Team) (k j n k' j' : Nat) (w : W32) :
    (t.pointOver k j n w).slice k' j' = (t.point k j n).slice k' j' := rfl

/-! Memory (R165, R174): reads after writes, and the canonical form. -/

theorem memPut_get (m : List Host.Cell) (k : Nat) (bs : List Byte) (a : Nat) :
    Tbl.get memDefault (memPut m k bs) a = if k ≤ a ∧ a < k + bs.length then bs.getD (a - k) 0 else Tbl.get memDefault m a := by
  induction bs generalizing m k with
  | nil => simp [memPut]
  | cons b bs ih =>
    simp only [memPut, ih, List.length_cons]
    by_cases h : a = k
    · subst h; simp
    · rw [Tbl.get_set_of_ne _ _ _ h]
      by_cases g : k + 1 ≤ a ∧ a < k + 1 + bs.length
      · have e : a - k = (a - (k + 1)) + 1 := by omega
        rw [if_pos g, if_pos (by omega), e, List.getD_cons_succ]
      · rw [if_neg g, if_neg (by omega)]

/-- A byte read after a write of bytes is the byte written there, and else what it was. -/
theorem State.memGet_memWrite (s : State) (k : Nat) (bs : List Byte) (a : Nat) :
    (s.memWrite k bs).memGet a = if k ≤ a ∧ a < k + bs.length then bs.getD (a - k) 0 else s.memGet a :=
  memPut_get s.mem k bs a

theorem memPut_wf {m : List Host.Cell} (k : Nat) (bs : List Byte) (h : Memory.wf m = true) :
    Memory.wf (memPut m k bs) = true := by
  induction bs generalizing m k with
  | nil => exact h
  | cons b bs ih => exact ih (k + 1) (Tbl.wf_set k b h)

/-- Writing bytes keeps memory in its canonical form. -/
theorem State.memWrite_wf {s : State} (k : Nat) (bs : List Byte) (h : Memory.wf s.mem = true) :
    Memory.wf (s.memWrite k bs).mem = true := memPut_wf k bs h

/-- Forgetting bytes keeps memory in its canonical form. -/
theorem Memory.wf_filter {m : List Host.Cell} (p : Host.Cell → Bool) (h : Memory.wf m = true) :
    Memory.wf (m.filter p) = true := Tbl.wf_filter p h

end Sys2Proof.Machine
end

