-- ==== Sys2Proof/Safety.lean ====
section
/-! DEFINITION. What claims are made in: the invariant of a run, the registers of a party as software sees them, when
an instruction may issue, and what an instruction leaves as it was. -/

namespace Sys2Proof.Machine

/-! The invariant. -/

/-- A core's Stash is in order (R84, R86, R89): slice 0 is never allotted, and every value-table entry names an allotted
slice. -/
def Core.stashOk (c : Core) : Bool :=
  Tbl.rising 1 c.phys && c.vtb.all fun e => (c.phys.find e.slice).isSome

/-- Every entry of a team's rename map names slice 0 or an allotted slice of the team's core (R84, R86). -/
def State.mapOk (s : State) (k : Nat) (t : Team) : Bool :=
  t.vmap.all fun e => e.2 == 0 || ((s.core (k / 16)).phys.find e.2).isSome

/-- The slices and rename maps of the package are in order. -/
def State.stashOk (s : State) : Bool :=
  (s.cores.all fun c => c.2.stashOk) && s.teams.all fun t => s.mapOk t.1 t.2

/-- Memory is in its canonical form. -/
def State.memOk (s : State) : Bool := Memory.wf s.mem

/-! Registers as software sees them. -/

/-- Lane l of vk of the team in a slot. -/
def State.vreg (s : State) (c slot : Nat) (k : VReg) (l : Nat) : W32 :=
  match s.team? c slot with
  | some t => readV (s.core c) t k l
  | none => 0

/-- The floating-point flags of a team once every result in flight is written (R127). -/
def Team.flagsDue (t : Team) : BitVec 5 :=
  t.shadows.foldl (fun f sh => if sh.done then f else f ||| sh.flags) t.fstat

/-! When an instruction issues. -/

/-- The lanes an instruction of a team acts in (R19): of one whose first passes have issued, those of the words that are left (R87). -/
def Team.adm (t : Team) (h : Hdr) : Mask := admitted t.act h (t.rp h.guard) &&& ~~~below t.lo

/-- Whether an instruction of a matrix stream acts (R19, R62). -/
def Ridge.adm (r : Ridge) (h : Hdr) : Bool := r.rp h.guard != h.gneg

/-- What an instruction's effect is given when it issues. -/
def Team.x (t : Team) (s : State) (c slot : Nat) (h : Hdr) : X := ⟨c, slot, t, t.adm h, ⟨s.core c, t, []⟩, h, t.lo, false⟩
def Ridge.x (r : Ridge) (c : Nat) (h : Hdr) : XR := ⟨c, r, r, r.adm h, h⟩

/-- The registers an instruction and its guard name lie within the team's counts (R82), none has a result in flight that
the team waits for (R30) or a fixed-latency result that is not yet due (R29), no slice it reads has an uncorrectable error
(R394), and a control transfer ends its block (R15). The guard is not the one that admits no lane whatever p0 holds (R19). -/
abbrev TeamIssues (i : Instr) (h : Hdr) (s : State) (c slot : Nat) (t : Team) : Prop :=
  s.cur = .team c slot ∧ s.team? c slot = some t ∧
  (∀ r ∈ guardReg h ++ (iRegs i).1 ++ (iRegs i).2, t.hdr.has r = true ∧ s.pendingReg c t r = false) ∧
  unmetOf t.shadows (guardReg h ++ (iRegs i).1) = [] ∧
  (isTransfer i = true → (s.nextOf c t).2 = true) ∧
  ¬ (h.guard.val = 0 ∧ h.gneg = true) ∧
  s.parityBad i (t.x s c slot h) (guardReg h ++ (iRegs i).1) = false

/-- The same for a matrix stream, which has no vector registers (R35, R37, R62). -/
abbrev RidgeIssues (i : Instr) (h : Hdr) (s : State) (c : Nat) (r : Ridge) : Prop :=
  s.cur = .ridge c ∧ s.ridge? c = some r ∧
  (∀ q ∈ guardReg h ++ (iRegs i).1 ++ (iRegs i).2,
    q.isV = false ∧ s.pendingRegM r q = false) ∧
  unmetOf r.shadows (guardReg h ++ (iRegs i).1) = [] ∧
  (isTransfer i = true → (s.nextOfM c r).2 = true) ∧
  ¬ (h.guard.val = 0 ∧ h.gneg = true)

/-! What follows an instruction. -/

/-- s' is m with the fixed-latency results of a team aged (R28): those that a reader may now read and that are written are gone.
Nothing else of m changes, and no flag that is due is lost (R127). -/
def Aged (c slot : Nat) (m s' : State) : Prop :=
  ∃ t1 sh, m.team? c slot = some t1 ∧ s' = m.setTeam c slot { t1 with shadows := sh } ∧
    ({ t1 with shadows := sh } : Team).flagsDue = t1.flagsDue

/-- m with the team in a slot going on after the instruction that t issued in s (R15). -/
def State.past (s : State) (c slot : Nat) (t : Team) (m : State) : State :=
  m.modTeam c slot fun t1 => { t1 with pc := (s.nextOf c t).1, atHdr := (s.nextOf c t).2, wait := none }

/-- s' is m once the team's instruction is over: the team goes on after it, and results age. -/
def TeamDone (s : State) (c slot : Nat) (t : Team) (m : State) (s' : State) : Prop := Aged c slot (s.past c slot t m) s'

/-- The same for a matrix stream. -/
def RidgeDone (s : State) (c : Nat) (r : Ridge) (m : State) (s' : State) : Prop :=
  ∃ r1 sh, m.ridge? c = some r1 ∧
    s' = m.setRidge c { r1 with pc := (s.nextOfM c r).1, atHdr := (s.nextOfM c r).2, wait := none, shadows := sh }

/-! Vector results. -/

/-- The flags of the lanes of a pass. -/
def passFlags (m : Mask) (fl : Nat → BitVec 5) (j : Nat) : BitVec 5 :=
  ((List.range 32).filter fun l => (maskWord m j).getLsbD l).foldl (fun acc l => acc ||| fl (32 * j + l)) 0

/-- Register k, lane l of a vector result: what a pass that hits takes from the entry, be it one that an earlier pass of the
instruction inserted, else what the lane computes (R86, R91). -/
def laneResult (s : State) (i : Instr) (x : X) (d : VReg) (n : Nat) (f : Nat → Nat) (fl : Nat → BitVec 5) (k l : Nat) : W32 :=
  match (vecRun i x s d n f fl).hits.find (l / 32) with
  | some sl => laneOf ((vecRun i x s d n f fl).core.data sl) (l % 32)
  | none => regOf (f l) k

/-- The flags of the passes that compute (R127). -/
def missFlags (s : State) (i : Instr) (x : X) (d : VReg) (n : Nat) (f : Nat → Nat) (fl : Nat → BitVec 5) (f0 : BitVec 5) : BitVec 5 :=
  ((passes x.adm).filter fun j => ((vecRun i x s d n f fl).hits.find j).isNone).foldl (fun g j => g ||| passFlags x.adm fl j) f0

/-! Frames. -/

/-- What an instruction that works within the team in a slot leaves as it was: every other team with its vector registers,
every other core, all of its own core but the Stash and the value table, memory, and everything else the package holds but
counters and running numbers. -/
structure TeamFrame (s s' : State) (c slot : Nat) : Prop where
  /-- The teams in other slots. -/
  teams : ∀ k, k ≠ tkey c slot → s'.teams.find k = s.teams.find k
  /-- Their vector registers, which stand in the same Stash. -/
  vregs : ∀ k, k < 16 → k ≠ slot → ∀ r l, s'.vreg c k r l = s.vreg c k r l
  /-- The other cores. -/
  cores : ∀ d, d ≠ c → s'.core d = s.core d
  /-- The rest of the core. -/
  core : s'.core c = { s.core c with phys := (s'.core c).phys, vtb := (s'.core c).vtb }
  /-- Everything else. -/
  rest : s' = { s with teams := s'.teams, cores := s'.cores, ctr := s'.ctr, seq := s'.seq }
  /-- Every byte of memory. -/
  mem : ∀ a, s'.memGet a = s.memGet a

/-- What an instruction that works within a matrix stream leaves as it was: every team, every core, every other stream,
memory, and everything else. -/
structure RidgeFrame (s s' : State) (c : Nat) : Prop where
  /-- The other streams. -/
  ridges : ∀ k, k ≠ c → s'.ridges.find k = s.ridges.find k
  /-- Everything else. -/
  rest : s' = { s with ridges := s'.ridges }
  /-- Every byte of memory. -/
  mem : ∀ a, s'.memGet a = s.memGet a

end Sys2Proof.Machine
end

