-- ==== Sys2Proof/Laws/Issue.lean ====
section
/-! SUPPORT. What issue does: a form whose conditions hold runs its effect, and what follows an effect. -/

namespace Sys2Proof.Machine

/-! Aging of results (R28, R93, R127). -/

/-- Aging drops no flag that is due. -/
theorem flags_aged (stall : Nat) (l : List Shadow) (f : BitVec 5) :
    ((l.map (Shadow.age stall)).filter fun x => x.left != 0 || !x.done).foldl (fun f x => if x.done then f else f ||| x.flags) f =
      l.foldl (fun f x => if x.done then f else f ||| x.flags) f := by
  induction l generalizing f with
  | nil => rfl
  | cons x l ih =>
    have hd : (x.age stall).done = x.done := rfl
    have hf : (x.age stall).flags = x.flags := rfl
    simp only [List.map_cons, List.foldl_cons, List.filter_cons, hd]
    cases hdn : x.done
    · simp [hd, hf, hdn, ih]
    · cases hl : (x.age stall).left != 0
      · simp [ih]
      · simp [hd, hdn, ih]

/-- Aging a team's results (R28). -/
theorem State.agedTeam_aged (s : State) (c slot stall : Nat) {t : Team} (h : s.team? c slot = some t) :
    Aged c slot s (s.agedTeam c slot stall) := by
  refine ⟨t, (t.shadows.map (Shadow.age stall)).filter fun x => x.left != 0 || !x.done, h, ?_, flags_aged stall t.shadows t.fstat⟩
  simp [State.agedTeam, State.modTeam, h]

/-! Issue (R28 to R40). -/

theorem TeamIssues.gates {i : Instr} {h : Hdr} {s : State} {c slot : Nat} {t : Team} (w : TeamIssues i h s c slot t) :
    ((guardReg h ++ (iRegs i).1).all t.hdr.has && (iRegs i).2.all t.hdr.has) = true ∧
    (isTransfer i && !(s.nextOf c t).2) = false ∧
    (decide (h.guard.val = 0) && h.gneg) = false ∧
    ((guardReg h ++ (iRegs i).1 ++ (iRegs i).2).any (s.pendingReg c t)) = false ∧
    (unmetOf t.shadows (guardReg h ++ (iRegs i).1)).isEmpty = true := by
  obtain ⟨-, -, hr, hu, hl, hg, -⟩ := w
  refine ⟨?_, ?_, ?_, ?_, by simp [hu]⟩
  · simp only [Bool.and_eq_true, List.all_eq_true]
    exact ⟨fun r m => (hr r (List.mem_append_left _ m)).1, fun r m => (hr r (List.mem_append_right _ m)).1⟩
  · cases ht : isTransfer i
    · rfl
    · simp [hl ht]
  · by_contra g
    simp only [Bool.not_eq_false, Bool.and_eq_true, decide_eq_true_eq] at g
    exact hg g
  · simp only [List.any_eq_false]
    intro r m; simp [(hr r m).2]

/-- An effect that has slices for every pass is the instruction's. -/
theorem inParts_eq {eff : X → State → Res} {x : X} {s : State} (hs : ∀ w, eff x s ≠ .short w) : inParts eff x s = eff x s := by
  unfold inParts
  split
  · next w h => exact absurd h (hs w)
  · rfl

/-- A team's form whose conditions hold runs its effect on the state as it stands, where that has slices for every pass. -/
theorem issueTeam_eq {i : Instr} {h : Hdr} {nd : Need} {s : State} {c slot : Nat} {t : Team} {eff : X → State → Res}
    (w : TeamIssues i h s c slot t) (hi : nd.ill = false) (hg : nd.gather = true → s.hasGather = true)
    (hl : nd.leader = true → popcount t.act = 1) (hs : ∀ w, eff (t.x s c slot h) s ≠ .short w) :
    issueTeam i h nd s c slot t eff = eff (t.x s c slot h) s := by
  obtain ⟨g1, g2, g3, g4, g5⟩ := w.gates
  unfold issueTeam
  simp only [hi, g1, g2, Bool.not_true, Bool.or_false, Bool.false_eq_true, if_false]
  have hg' : (nd.gather && !s.hasGather) = false := by
    cases hq : nd.gather
    · rfl
    · simp [hg hq]
  have hl' : (nd.leader && popcount t.act != 1) = false := by
    cases hq : nd.leader
    · rfl
    · simp [hl hq]
  have g6 : (if t.lo = 0 then unmetOf t.shadows (guardReg h ++ (iRegs i).1) else []).isEmpty = true := by
    split
    · exact g5
    · rfl
  simp only [hg', hl', Bool.false_eq_true, if_false, g4, g6, if_true]
  simp only [Bool.and_eq_true, decide_eq_true_eq, w.2.2.2.2.2.1, if_false, and_false, Bool.false_eq_true]
  have e : checked i (guardReg h ++ (iRegs i).1) eff (t.x s c slot h) s = eff (t.x s c slot h) s :=
    if_neg (by rw [Bool.not_eq_true]; exact w.2.2.2.2.2.2)
  exact (inParts_eq fun v => e.symm ▸ hs v).trans e

theorem runTeam_eq {i : Instr} {h : Hdr} {nd : State → Nat → Team → Need} {s : State} {c slot : Nat} {t : Team}
    {eff : X → State → Res} (w : TeamIssues i h s c slot t) (hi : (nd s c t).ill = false)
    (hg : (nd s c t).gather = true → s.hasGather = true) (hl : (nd s c t).leader = true → popcount t.act = 1)
    (hs : ∀ w, eff (t.x s c slot h) s ≠ .short w) :
    runTeam i h nd s eff = .next (settleTeam i h s c slot t (eff (t.x s c slot h) s)) := by
  unfold runTeam
  simp only [w.1, w.2.1, issueTeam_eq w hi hg hl hs]

theorem runBoth_team {i : Instr} {h : Hdr} {nd : State → Nat → Team → Need} {ndR : State → Nat → Ridge → Need} {s : State}
    {c slot : Nat} {t : Team} {eff : X → State → Res} {effR : XR → State → Res} (w : TeamIssues i h s c slot t)
    (hi : (nd s c t).ill = false) (hg : (nd s c t).gather = true → s.hasGather = true)
    (hl : (nd s c t).leader = true → popcount t.act = 1) (hs : ∀ w, eff (t.x s c slot h) s ≠ .short w) :
    runBoth i h nd ndR s eff effR = .next (settleTeam i h s c slot t (eff (t.x s c slot h) s)) := by
  unfold runBoth
  simp only [w.1, w.2.1, issueTeam_eq w hi hg hl hs]

/-- A matrix stream's form whose conditions hold runs its effect. -/
theorem issueRidge_eq {i : Instr} {h : Hdr} {nd : Need} {s : State} {c : Nat} {r : Ridge} {eff : XR → State → Res}
    (w : RidgeIssues i h s c r) (hi : nd.ill = false) : issueRidge i h nd s c r eff = eff (r.x c h) s := by
  obtain ⟨-, -, hr, hu, hl, hg⟩ := w
  unfold issueRidge
  have g1 : ((guardReg h ++ (iRegs i).1 ++ (iRegs i).2).any Reg.isV) = false := by
    simp only [List.any_eq_false]
    intro q m; simp [(hr q m).1]
  have g2 : (isTransfer i && !(s.nextOfM c r).2) = false := by
    cases ht : isTransfer i
    · rfl
    · simp [hl ht]
  have g4 : ((guardReg h ++ (iRegs i).1 ++ (iRegs i).2).any (s.pendingRegM r)) = false := by
    simp only [List.any_eq_false]
    intro q m; simp [(hr q m).2]
  simp only [hi, g1, g2, Bool.or_false, Bool.false_eq_true, if_false, g4, hu, List.isEmpty_nil, if_true]
  simp only [Bool.and_eq_true, decide_eq_true_eq, hg, if_false]
  rfl

theorem runRidge_eq {i : Instr} {h : Hdr} {nd : State → Nat → Ridge → Need} {s : State} {c : Nat} {r : Ridge}
    {eff : XR → State → Res} (w : RidgeIssues i h s c r) (hi : (nd s c r).ill = false) :
    runRidge i h nd s eff = .next (settleRidge i h s c r (eff (r.x c h) s)) := by
  unfold runRidge
  simp only [w.1, w.2.1, issueRidge_eq w hi]

theorem runBoth_ridge {i : Instr} {h : Hdr} {nd : State → Nat → Team → Need} {ndR : State → Nat → Ridge → Need} {s : State}
    {c : Nat} {r : Ridge} {eff : X → State → Res} {effR : XR → State → Res} (w : RidgeIssues i h s c r)
    (hi : (ndR s c r).ill = false) :
    runBoth i h nd ndR s eff effR = .next (settleRidge i h s c r (effR (r.x c h) s)) := by
  unfold runBoth
  simp only [w.1, w.2.1, issueRidge_eq w hi]

/-- A form without further needs. -/
theorem runTeam_plain {i : Instr} {h : Hdr} {s : State} {c slot : Nat} {t : Team} {eff : X → State → Res}
    (w : TeamIssues i h s c slot t) (hs : ∀ w, eff (t.x s c slot h) s ≠ .short w) :
    runTeam i h noNeed s eff = .next (settleTeam i h s c slot t (eff (t.x s c slot h) s)) :=
  runTeam_eq w rfl (by intro g; cases g) (by intro g; cases g) hs

theorem runBoth_plain {i : Instr} {h : Hdr} {ndR : State → Nat → Ridge → Need} {s : State} {c slot : Nat} {t : Team}
    {eff : X → State → Res} {effR : XR → State → Res} (w : TeamIssues i h s c slot t)
    (hs : ∀ w, eff (t.x s c slot h) s ≠ .short w) :
    runBoth i h noNeed ndR s eff effR = .next (settleTeam i h s c slot t (eff (t.x s c slot h) s)) :=
  runBoth_team w rfl (by intro g; cases g) (by intro g; cases g) hs

theorem runBoth_plainM {i : Instr} {h : Hdr} {nd : State → Nat → Team → Need} {s : State} {c : Nat} {r : Ridge}
    {eff : X → State → Res} {effR : XR → State → Res} (w : RidgeIssues i h s c r) :
    runBoth i h nd noNeedM s eff effR = .next (settleRidge i h s c r (effR (r.x c h) s)) :=
  runBoth_ridge w rfl

theorem runRidge_plain {i : Instr} {h : Hdr} {s : State} {c : Nat} {r : Ridge} {eff : XR → State → Res}
    (w : RidgeIssues i h s c r) :
    runRidge i h noNeedM s eff = .next (settleRidge i h s c r (eff (r.x c h) s)) := runRidge_eq w rfl

/-! What follows an effect. -/

/-- After a finished effect that keeps the team, the team goes on after the instruction and its results age. -/
theorem settleTeam_done {i : Instr} {h : Hdr} {s m : State} {c slot : Nat} {t t1 : Team} (hm : m.team? c slot = some t1) :
    TeamDone s c slot t m (settleTeam i h s c slot t (.done m)) := by
  unfold TeamDone
  simp only [settleTeam]
  exact State.agedTeam_aged _ c slot _ (t := { t1 with
    pc := (s.nextOf c t).1, atHdr := (s.nextOf c t).2, wait := none }) (by unfold State.past; rw [State.team_modTeam_same, hm]; rfl)

/-- After an effect that placed the pc, results age. -/
theorem settleTeam_went {i : Instr} {h : Hdr} {s m : State} {c slot : Nat} {t t1 : Team} (hm : m.team? c slot = some t1) :
    Aged c slot m (settleTeam i h s c slot t (.went m)) :=
  State.agedTeam_aged m c slot _ hm

theorem settleRidge_done {i : Instr} {h : Hdr} {s m : State} {c : Nat} {r r1 : Ridge} (hm : m.ridge? c = some r1) :
    RidgeDone s c r m (settleRidge i h s c r (.done m)) := by
  refine ⟨r1, (r1.shadows.map (Shadow.age h.stall.val)).filter fun x => x.left != 0 || !x.done, hm, ?_⟩
  simp only [settleRidge, State.agedRidge, State.modRidge, hm, State.ridge_setRidge_same]
  simp only [State.setRidge, Tbl.put_put]

end Sys2Proof.Machine
end

