-- ==== Sys2Proof/Laws/Lanes.lean ====
section
/-! SUPPORT. Lanes of slices and masks (R53, R54, R84): what each bit-level operation gives a lane. -/

namespace Sys2Proof.Machine

theorem laneOf_bit (d : BitVec 1024) (l b : Nat) (h : b < 32) : (laneOf d l).getLsbD b = d.getLsbD (32 * l + b) := by
  simp [laneOf, h]

theorem laneOf_ext {d e : BitVec 1024} {l : Nat} (h : ∀ b, b < 32 → d.getLsbD (32 * l + b) = e.getLsbD (32 * l + b)) :
    laneOf d l = laneOf e l := by
  apply BitVec.eq_of_getLsbD_eq
  intro b hb
  rw [laneOf_bit _ _ _ hb, laneOf_bit _ _ _ hb, h b hb]

/-- A fold of lanes placed at their positions, bit by bit. -/
theorem placed_bit {α : Type} (xs : List α) (pos : α → Nat) (val : α → W32) (acc : BitVec 1024) (i : Nat) (hi : i < 1024) :
    (xs.foldl (fun a x => a ||| ((val x).zeroExtend 1024 <<< (32 * pos x))) acc).getLsbD i =
      (acc.getLsbD i || xs.any fun x => decide (32 * pos x ≤ i) && (val x).getLsbD (i - 32 * pos x)) := by
  induction xs generalizing acc with
  | nil => simp
  | cons x xs ih =>
    simp only [List.foldl_cons, List.any_cons, ih]
    rw [BitVec.getLsbD_or, BitVec.getLsbD_shiftLeft, Bool.or_assoc]
    congr 2
    by_cases h : 32 * pos x ≤ i
    · have h' : ¬ i < 32 * pos x := by omega
      simp only [hi, decide_true, Bool.true_and, h, h', decide_false, Bool.not_false, BitVec.truncate_eq_setWidth,
        BitVec.getLsbD_setWidth]
      have e : i - 32 * pos x < 1024 := by omega
      simp [e]
    · have h' : i < 32 * pos x := by omega
      simp [h, h']

theorem laneOf_placed {α : Type} (xs : List α) (pos : α → Nat) (val : α → W32) (l b : Nat) (hl : l < 32) (hb : b < 32) :
    (laneOf (xs.foldl (fun a x => a ||| ((val x).zeroExtend 1024 <<< (32 * pos x))) 0) l).getLsbD b =
      xs.any fun x => decide (pos x = l) && (val x).getLsbD b := by
  rw [laneOf_bit _ _ _ hb, placed_bit _ _ _ _ _ (by omega)]
  have z : (0 : BitVec 1024).getLsbD (32 * l + b) = false := BitVec.getLsbD_zero
  rw [z, Bool.false_or]
  congr 1
  funext x
  by_cases h : pos x = l
  · subst h; simp
  · simp only [h, decide_false, Bool.false_and]
    by_cases g : 32 * pos x ≤ 32 * l + b
    · have : 32 ≤ 32 * l + b - 32 * pos x := by omega
      simp [BitVec.getLsbD_of_ge _ _ this]
    · simp [g]

/-- Lane l of a slice made of lanes. -/
theorem laneOf_sliceOf (f : Nat → W32) (l : Nat) (hl : l < 32) : laneOf (sliceOf f) l = f l := by
  apply BitVec.eq_of_getLsbD_eq
  intro b hb
  unfold sliceOf
  have := laneOf_placed (List.range 32) (fun x => x) f l b hl hb
  rw [this]
  rw [Bool.eq_iff_iff]
  simp only [List.any_eq_true, List.mem_range, Bool.and_eq_true, decide_eq_true_eq]
  constructor
  · rintro ⟨x, -, rfl, h⟩; exact h
  · intro h; exact ⟨l, hl, rfl, h⟩

/-- Lane l of lanes gathered from values, where each lane stands once. -/
theorem laneOf_gather (k : Nat) (ls : List Nat) (f : Nat → Nat) (l : Nat) (hl : l < 32) (hm : l ∈ ls) :
    laneOf (gatherLanes k (ls.map fun l => (l, f l))) l = regOf (f l) k := by
  apply BitVec.eq_of_getLsbD_eq
  intro b hb
  unfold gatherLanes
  rw [List.foldl_map]
  have := laneOf_placed ls (fun x => x) (fun l => regOf (f l) k) l b hl hb
  rw [this]
  rw [Bool.eq_iff_iff]
  simp only [List.any_eq_true, Bool.and_eq_true, decide_eq_true_eq]
  constructor
  · rintro ⟨x, -, rfl, h⟩; exact h
  · intro h; exact ⟨l, hm, rfl, h⟩

theorem laneOf_blend (m a b : BitVec 1024) (l : Nat) :
    laneOf (blend m a b) l = (laneOf a l &&& ~~~laneOf m l) ||| (laneOf b l &&& laneOf m l) := by
  apply BitVec.eq_of_getLsbD_eq
  intro i hi
  rw [laneOf_bit _ _ _ hi]
  by_cases h : 32 * l + i < 1024
  · simp only [blend, BitVec.getLsbD_or, BitVec.getLsbD_and, BitVec.getLsbD_not, laneOf_bit _ _ _ hi, h, hi, decide_true,
      Bool.true_and]
  · have g (d : BitVec 1024) : d.getLsbD (32 * l + i) = false := BitVec.getLsbD_of_ge _ _ (by omega)
    simp [laneOf_bit _ _ _ hi, g]

/-- A lane of a slice written in the lanes of a mask word (R86). -/
theorem laneOf_write (w : W32) (a b : BitVec 1024) (l : Nat) (hl : l < 32) :
    laneOf (blend (sliceMask w) a b) l = if w.getLsbD l then laneOf b l else laneOf a l := by
  rw [laneOf_blend, sliceMask, laneOf_sliceOf _ _ hl]
  split
  · have e : (0xFFFFFFFF : W32) = BitVec.allOnes 32 := by decide
    have z : ~~~(BitVec.allOnes 32) = 0#32 := by decide
    rw [e, z, BitVec.and_zero, BitVec.zero_or, BitVec.and_allOnes]
  · have e : ~~~(0 : W32) = BitVec.allOnes 32 := by decide
    have z : (0 : W32) = 0#32 := rfl
    rw [e, z, BitVec.and_zero, BitVec.or_zero, BitVec.and_allOnes]

theorem maskWord_bit (m : Mask) (j l : Nat) (h : l < 32) : (maskWord m j).getLsbD l = inMask m (32 * j + l) := by
  simp [maskWord, inMask, h]

theorem maskWord_ne_zero {m : Mask} {j l : Nat} (h : l < 32) (g : inMask m (32 * j + l) = true) : maskWord m j ≠ 0 := by
  intro e
  rw [← maskWord_bit m j l h, e] at g
  simp at g

/-- A lane of a mask stands in one of its passes (R54). -/
theorem mem_passes {m : Mask} {l : Nat} (hl : l < 1024) (g : inMask m l = true) : l / 32 ∈ passes m := by
  unfold passes
  simp only [List.mem_filter, List.mem_range, bne_iff_ne, ne_eq]
  exact ⟨by omega, maskWord_ne_zero (l := l % 32) (by omega) (by rwa [Nat.div_add_mod])⟩

theorem passes_nodup (m : Mask) : (passes m).Nodup := (List.nodup_range).filter _

theorem passes_word {m : Mask} {j : Nat} (h : j ∈ passes m) : j < 32 ∧ maskWord m j ≠ 0 := by
  unfold passes at h
  simpa using h

theorem mem_lanes {m : Mask} {l : Nat} : l ∈ lanes m ↔ l < 1024 ∧ inMask m l = true := by
  unfold lanes
  simp only [List.mem_flatMap, List.mem_map, List.mem_filter, List.mem_range]
  constructor
  · rintro ⟨j, hj, k, ⟨hk, hb⟩, rfl⟩
    rw [maskWord_bit _ _ _ hk] at hb
    have := (passes_word hj).1
    exact ⟨by omega, hb⟩
  · rintro ⟨hl, hb⟩
    refine ⟨l / 32, mem_passes hl hb, l % 32, ⟨by omega, ?_⟩, by omega⟩
    rw [maskWord_bit _ _ _ (by omega), Nat.div_add_mod]; exact hb

theorem inMask_maskOf (ls : List Nat) (f : Nat → Bool) (l : Nat) (hl : l < 1024) :
    inMask (maskOf ls f) l = (decide (l ∈ ls) && f l) := by
  have key (acc : Mask) : inMask (ls.foldl (fun a l => if f l then a ||| laneBit l else a) acc) l =
      (inMask acc l || (decide (l ∈ ls) && f l)) := by
    induction ls generalizing acc with
    | nil => simp
    | cons x xs ih =>
      simp only [List.foldl_cons, ih, List.mem_cons]
      by_cases e : l = x
      · subst e
        by_cases hf : f l = true
        · have : (laneBit l).getLsbD l = true := by simp [laneBit, hl]
          simp [hf, inMask, this]
        · simp [hf]
      · have : (laneBit x).getLsbD l = false := by
          simp only [laneBit, BitVec.getLsbD_shiftLeft, BitVec.getLsbD_one]
          by_cases g : l < x
          · simp [g]
          · have : ¬ (l - x = 0) := by omega
            simp [this]
        by_cases hf : f x = true
        · simp [hf, inMask, this, e]
        · simp [hf, e]
  unfold maskOf
  rw [key 0]
  simp [inMask]

theorem inMask_blend (m a b : Mask) (l : Nat) (hl : l < 1024) : inMask (blend m a b) l = if inMask m l then inMask b l else inMask a l := by
  simp only [inMask, blend, BitVec.getLsbD_or, BitVec.getLsbD_and, BitVec.getLsbD_not, hl, decide_true, Bool.true_and]
  by_cases h : m.getLsbD l = true <;> simp [h]

end Sys2Proof.Machine
end

