-- ==== Sys2Proof/Laws/Vector.lean ====
section
/-! SUPPORT. What a pass does to the registers of a team (R84 to R87, R91 to R93), and what a vector, a scalar or a predicate
result leaves: the value of every lane, and all that stays. -/

namespace Sys2Proof.Machine

/-! The Stash. -/

theorem Tbl.get_mem {α : Type} (d : α) (t : Tbl α) (x : Nat) : t.get d x = d ∨ (x, t.get d x) ∈ t := by
  induction t with
  | nil => simp
  | cons c t ih =>
    by_cases h : x = c.1
    · right; simp [Tbl.get, h]
    · simp only [Tbl.get, h, if_false, List.mem_cons]
      rcases ih with e | e
      · exact .inl e
      · exact .inr (.inr e)

theorem Tbl.find_none_of_rising {α : Type} {lo x : Nat} {t : Tbl α} (r : t.rising lo = true) (h : x < lo) : t.find x = none := by
  induction t generalizing lo with
  | nil => rfl
  | cons c t ih =>
    simp only [Tbl.rising, Bool.and_eq_true, decide_eq_true_eq] at r
    have : x ≠ c.1 := by omega
    simp only [Tbl.find, this, if_false]
    exact ih r.2 (by omega)

/-- The slice taken next is not allotted, and is not slice 0. -/
theorem freeFrom_spec {lo : Nat} {t : Tbl Phys} (r : t.rising lo = true) :
    lo ≤ freeFrom lo t ∧ t.find (freeFrom lo t) = none := by
  induction t generalizing lo with
  | nil => exact ⟨Nat.le_refl _, rfl⟩
  | cons c t ih =>
    simp only [Tbl.rising, Bool.and_eq_true, decide_eq_true_eq] at r
    unfold freeFrom
    by_cases h : c.1 = lo
    · rw [if_pos h]
      have r' : Tbl.rising (lo + 1) t = true := by rw [← h]; exact r.2
      obtain ⟨a, b⟩ := ih r'
      refine ⟨by omega, ?_⟩
      have : freeFrom (lo + 1) t ≠ c.1 := by omega
      simp [Tbl.find, this, b]
    · have g : ¬ c.1 < lo := by omega
      rw [if_neg h, if_neg g]
      refine ⟨Nat.le_refl _, ?_⟩
      simp only [Tbl.find, show lo ≠ c.1 from fun e => h e.symm, if_false]
      exact Tbl.find_none_of_rising r.2 (by omega)

/-- A core in order, and a team whose map names slice 0 and allotted slices only. -/
def PairOk (ct : Core × Team) : Prop :=
  ct.1.phys.rising 1 = true ∧ (∀ e ∈ ct.2.vmap, e.2 = 0 ∨ (ct.1.phys.find e.2).isSome = true) ∧
  ∀ e ∈ ct.1.vtb, (ct.1.phys.find e.slice).isSome = true

/-- Lane l of word j of register r. -/
def laneAt (ct : Core × Team) (r j l : Nat) : W32 := laneOf (ct.1.data (ct.2.slice r j)) l

theorem PairOk.slice {ct : Core × Team} (h : PairOk ct) (r j : Nat) :
    ct.2.slice r j = 0 ∨ (ct.1.phys.find (ct.2.slice r j)).isSome = true := by
  rcases Tbl.get_mem 0 ct.2.vmap (mkey r j) with e | e
  · exact .inl e
  · exact h.2.1 _ e

theorem mkey_inj {r s j k : Nat} (hj : j < 32) (hk : k < 32) (h : mkey r j = mkey s k) : r = s ∧ j = k := by
  unfold mkey at h; omega

theorem Core.data_put (c : Core) (n m : Nat) (p : Phys) (hn : n ≠ 0) :
    ({ c with phys := c.phys.put n p } : Core).data m = if m = n then p.data else c.data m := by
  unfold Core.data
  by_cases h : m = n
  · subst h; simp [hn]
  · by_cases g : m = 0
    · subst g; simp [h]
    · simp [g, h, Tbl.get_put]

/-- What one pass that allots a slice leaves. -/
theorem writePass_spec {ct : Core × Team} (ok : PairOk ct) (k : VReg) (j : Nat) (hj : j < 32) (w : W32) (new : BitVec 1024) :
    let ct' := writePass ct k j w new
    PairOk ct' ∧ (∀ n p, ct.1.phys.find n = some p → ct'.1.phys.find n = some p) ∧
    ct'.1 = { ct.1 with phys := ct'.1.phys } ∧ ct'.2 = { ct.2 with vmap := ct'.2.vmap, shadows := ct'.2.shadows } ∧
    (∀ r i l, i < 32 → l < 32 → laneAt ct' r i l =
      if r = k.val ∧ i = j ∧ w.getLsbD l = true then laneOf new l else laneAt ct r i l) := by
  obtain ⟨hlo, hfree⟩ := freeFrom_spec ok.1
  have hn : ct.1.freeSlice ≠ 0 := by unfold Core.freeSlice; omega
  have hf : ct.1.phys.find ct.1.freeSlice = none := hfree
  simp only [writePass]
  refine ⟨⟨?_, ?_, ?_⟩, ?_, trivial, rfl, ?_⟩
  · exact Tbl.rising_put _ (by unfold Core.freeSlice; omega) ok.1
  · intro e he
    simp only [Team.pointOver, Team.point, Tbl.set, hn, if_false] at he
    rcases Tbl.mem_put he with rfl | he
    · right; simp
    · rcases ok.2.1 e he with h | h
      · exact .inl h
      · right
        simp only [Tbl.find_put]
        split <;> simp_all
  · intro e he
    have h := ok.2.2 e he
    simp only [Tbl.find_put]
    split <;> simp_all
  · intro n p h
    rw [Tbl.find_put_of_ne]
    · exact h
    · rintro rfl; rw [hf] at h; cases h
  · intro r i l hi hl
    unfold laneAt
    simp only [Team.slice_pointOver, Team.slice_point, Core.data_put _ _ _ _ hn]
    by_cases e : mkey r i = mkey k.val j
    · obtain ⟨rfl, rfl⟩ := mkey_inj hi hj e
      simp only [if_true, true_and, laneOf_write _ _ _ _ hl]
    · have hne : ¬ (r = k.val ∧ i = j ∧ w.getLsbD l = true) := by rintro ⟨rfl, rfl, -⟩; exact e rfl
      rw [if_neg e, if_neg hne]
      have : ct.2.slice r i ≠ ct.1.freeSlice := by
        intro h
        rcases ok.slice r i with g | g
        · omega
        · rw [h, hf] at g; cases g
      rw [if_neg this]

/-- What a step of a pass leaves: the pair in order, slices allotted before still allotted with what they hold, nothing
of the core and the team changed but the Stash, the map and results in flight. -/
def Grown (a b : Core × Team) : Prop :=
  PairOk b ∧ (∀ n p, a.1.phys.find n = some p → b.1.phys.find n = some p) ∧
  b.1 = { a.1 with phys := b.1.phys, vtb := b.1.vtb } ∧ b.2 = { a.2 with vmap := b.2.vmap, shadows := b.2.shadows }

theorem Grown.refl {a : Core × Team} (h : PairOk a) : Grown a a := ⟨h, fun _ _ h => h, rfl, rfl⟩

theorem Grown.trans {a b c : Core × Team} (h : Grown a b) (g : Grown b c) : Grown a c := by
  obtain ⟨-, h2, h3, h4⟩ := h
  obtain ⟨g1, g2, g3, g4⟩ := g
  refine ⟨g1, fun n p e => g2 n p (h2 n p e), ?_, ?_⟩
  · rw [g3, h3]
  · rw [g4, h4]

/-- A slice that a core in order names keeps its content as it grows. -/
theorem Grown.data {a b : Core × Team} (g : Grown a b) {n : Nat} (h : (a.1.phys.find n).isSome = true) :
    b.1.data n = a.1.data n := by
  obtain ⟨p, hp⟩ := Option.isSome_iff_exists.mp h
  unfold Core.data
  simp only [Tbl.get_eq_find, g.2.1 n p hp, hp]

theorem Grown.named {a b : Core × Team} (g : Grown a b) {n : Nat} (h : (a.1.phys.find n).isSome = true) :
    (b.1.phys.find n).isSome = true := by
  obtain ⟨p, hp⟩ := Option.isSome_iff_exists.mp h
  rw [g.2.1 n p hp]; rfl

/-- A pair whose value table alone differs, each of whose entries names an allotted slice. -/
theorem Grown.table {a : Core × Team} (ok : PairOk a) (v : List VtEntry)
    (hv : ∀ e ∈ v, (a.1.phys.find e.slice).isSome = true) : Grown a ({ a.1 with vtb := v }, a.2) :=
  ⟨⟨ok.1, ok.2.1, hv⟩, fun _ _ h => h, rfl, rfl⟩

/-- One register written by a pass. -/
theorem passReg_spec {ct : Core × Team} (ok : PairOk ct) (lat due : Nat) (k : VReg) (j : Nat) (hj : j < 32) (w : W32)
    (new : BitVec 1024) (fl : BitVec 5) (key : Option Nat) :
    let ct' := passReg lat due k j w new fl key ct
    Grown ct ct' ∧ ∀ r i l, i < 32 → l < 32 → laneAt ct' r i l =
      if r = k.val ∧ i = j ∧ w.getLsbD l = true then laneOf new l else laneAt ct r i l := by
  obtain ⟨a1, a2, a3, a4, a5⟩ := writePass_spec ok k j hj w new
  refine ⟨⟨a1, a2, ?_, ?_⟩, a5⟩
  · show (writePass ct k j w new).1 = _
    rw [a3]; rfl
  · show _ = _
    simp only [passReg]
    rw [a4]

/-- The registers of one pass. -/
theorem passRegs_spec {ct : Core × Team} (ok : PairOk ct) (lat due : Nat) (d : VReg) (j : Nat) (hj : j < 32) (w : W32)
    (new : Nat → BitVec 1024) (fl : Nat → BitVec 5) (key : Nat → Option Nat) (n : Nat) (hn : n ≤ 64) :
    let ct' := (List.range n).foldl (fun ct k => passReg lat due (vregAt d k) j w (new k) (fl k) (key k) ct) ct
    Grown ct ct' ∧
    (∀ k l, k < n → l < 32 → w.getLsbD l = true → laneAt ct' (vregAt d k).val j l = laneOf (new k) l) ∧
    (∀ r i l, i < 32 → l < 32 → (¬ (i = j ∧ w.getLsbD l = true) ∨ ∀ k, k < n → r ≠ (vregAt d k).val) →
      laneAt ct' r i l = laneAt ct r i l) := by
  induction n with
  | zero => exact ⟨Grown.refl ok, fun k l h => absurd h (by omega), fun r i l _ _ _ => rfl⟩
  | succ n ih =>
    obtain ⟨g, v, f⟩ := ih (by omega)
    simp only [List.range_succ, List.foldl_append, List.foldl_cons, List.foldl_nil]
    obtain ⟨g', v'⟩ := passReg_spec g.1 lat due (vregAt d n) j hj w (new n) (fl n) (key n)
    refine ⟨g.trans g', ?_, ?_⟩
    · intro k l hk hl hw
      rw [v' _ _ _ hj hl]
      by_cases e : k = n
      · subst e; simp [hw]
      · have : (vregAt d k).val ≠ (vregAt d n).val := by
          unfold vregAt; simp only; omega
        rw [if_neg (fun h => this h.1)]
        exact v k l (by omega) hl hw
    · intro r i l hi hl h
      rw [v' _ _ _ hi hl, if_neg, f r i l hi hl]
      · rcases h with h | h
        · exact .inl h
        · exact .inr fun k hk => h k (by omega)
      · rintro ⟨e, h1, h2⟩
        rcases h with h | h
        · exact h ⟨h1, h2⟩
        · exact h n (by omega) e

/-! A lookup (R89, R92, R94). -/

theorem vtLook_spec (c : Core) (key stamp now : Nat) :
    (c.vtLook key stamp now).1 = { c with vtb := (c.vtLook key stamp now).1.vtb } ∧
    (c.vtLook key stamp now).2.1 = c.vtHit key now := ⟨rfl, rfl⟩

theorem vtLook_mem {c : Core} {key stamp now : Nat} {e : VtEntry} (h : e ∈ (c.vtLook key stamp now).1.vtb) :
    ∃ e' ∈ c.vtb, e'.slice = e.slice := by
  simp only [Core.vtLook, List.mem_map, List.mem_filter] at h
  obtain ⟨x, ⟨hx, -⟩, rfl⟩ := h
  exact ⟨x, hx, by split <;> rfl⟩

theorem vtHit_mem {c : Core} {key now sl : Nat} (h : c.vtHit key now = some sl) : ∃ e ∈ c.vtb, e.slice = sl := by
  unfold Core.vtHit at h
  cases g : c.vtFind key with
  | none => rw [g] at h; cases h
  | some e =>
    rw [g] at h
    simp only [Option.bind_some] at h
    split at h
    · exact ⟨e, List.mem_of_find?_eq_some g, by simpa using h⟩
    · cases h

/-- A lookup in a pair in order. -/
theorem vtLook_grown {a : Core × Team} (ok : PairOk a) (key stamp now : Nat) : Grown a ((a.1.vtLook key stamp now).1, a.2) :=
  Grown.table ok _ fun _ he => by
    obtain ⟨e', m, hs⟩ := vtLook_mem (now := now) he
    rw [← hs]; exact ok.2.2 e' m

/-- A result enters the value table of a pair in order (R93). -/
theorem vtInsert_grown {a : Core × Team} (ok : PairOk a) (key slice stamp since : Nat) :
    Grown a (a.1.vtInsert key slice stamp since, a.2) := by
  unfold Core.vtInsert
  split
  · exact Grown.refl ok
  · next h =>
    have hs : (a.1.phys.find slice).isSome = true := by
      cases g : a.1.phys.find slice <;> simp_all
    refine Grown.table ok _ fun e he => ?_
    rcases List.mem_cons.mp he with rfl | m
    · exact hs
    · exact ok.2.2 e (List.mem_filter.mp m).1

theorem vtInserts_grown (l : List (Nat × Nat × Nat)) (st on : Nat × Nat × Nat → Nat) {a : Core × Team} (ok : PairOk a) :
    Grown a (l.foldl (fun c e => c.vtInsert e.2.1 e.2.2 (st e) (on e)) a.1, a.2) := by
  induction l generalizing a with
  | nil => exact Grown.refl ok
  | cons e l ih =>
    have g := vtInsert_grown ok e.2.1 e.2.2 (st e) (on e)
    exact g.trans (ih g.1)

theorem vtInserts_phys (l : List (Nat × Nat × Nat)) (st on : Nat × Nat × Nat → Nat) (c : Core) :
    (l.foldl (fun c e => c.vtInsert e.2.1 e.2.2 (st e) (on e)) c).phys = c.phys := by
  induction l generalizing c with
  | nil => rfl
  | cons e l ih =>
    rw [List.foldl_cons, ih]
    unfold Core.vtInsert; split <;> rfl

/-! Flags in flight (R127). -/

theorem flagsDue_eq (t : Team) : t.flagsDue = t.shadows.foldl (fun f sh => if sh.done then f else f ||| sh.flags) t.fstat := rfl

theorem flags_cover (d : Dest) (m : Mask) (l : List Shadow) (f : BitVec 5) :
    (coverOf d m l).foldl (fun f sh => if sh.done then f else f ||| sh.flags) f =
      l.foldl (fun f sh => if sh.done then f else f ||| sh.flags) f := by
  induction l generalizing f with
  | nil => rfl
  | cons x l ih =>
    have h1 : (if x.dest = d then { x with mask := x.mask &&& ~~~m } else x).done = x.done := by split <;> rfl
    have h2 : (if x.dest = d then { x with mask := x.mask &&& ~~~m } else x).flags = x.flags := by split <;> rfl
    simp only [coverOf, List.map_cons, List.foldl_cons, h1, h2]
    exact ih _

theorem flags_entered (keys : List (Nat × Nat)) (l : List Shadow) (f : BitVec 5) :
    (l.map (Shadow.entered keys)).foldl (fun f sh => if sh.done then f else f ||| sh.flags) f =
      l.foldl (fun f sh => if sh.done then f else f ||| sh.flags) f := by
  induction l generalizing f with
  | nil => rfl
  | cons x l ih =>
    have h : (x.entered keys).done = x.done ∧ (x.entered keys).flags = x.flags := by
      unfold Shadow.entered; split
      · split <;> exact ⟨rfl, rfl⟩
      · exact ⟨rfl, rfl⟩
    simp only [List.map_cons, List.foldl_cons, h.1, h.2]
    exact ih _

/-- What the results of earlier passes leave as they enter the value table. -/
theorem enter_spec (stamp now n : Nat) (a : Acc2) (ok : PairOk (a.core, a.team)) :
    Grown (a.core, a.team) ((a.enter stamp now n).core, (a.enter stamp now n).team) ∧
    (∀ r j l, laneAt ((a.enter stamp now n).core, (a.enter stamp now n).team) r j l = laneAt (a.core, a.team) r j l) ∧
    (a.enter stamp now n).team.flagsDue = a.team.flagsDue := by
  refine ⟨?_, fun r j l => ?_, flags_entered _ _ _⟩
  · have g := vtInserts_grown (a := (a.core, a.team)) (a.pend.filter fun e => decide (e.1 < n)) (fun e => stamp + 2 * e.1)
      (fun e => now + e.1) ok
    exact ⟨⟨g.1.1, g.1.2.1, g.1.2.2⟩, g.2.1, g.2.2.1, rfl⟩
  · have hp := vtInserts_phys (a.pend.filter fun e => decide (e.1 < n)) (fun e => stamp + 2 * e.1) (fun e => now + e.1) a.core
    show laneOf (Core.data _ _) l = laneOf (Core.data _ _) l
    unfold Core.data
    rw [show (a.enter stamp now n).core.phys = a.core.phys from hp]
    rfl

theorem passReg_flags (ct : Core × Team) (lat due : Nat) (k : VReg) (j : Nat) (w : W32) (new : BitVec 1024) (fl : BitVec 5)
    (key : Option Nat) : (passReg lat due k j w new fl key ct).2.flagsDue = ct.2.flagsDue ||| fl := by
  simp only [passReg, writePass, flagsDue_eq, List.foldl_append, List.foldl_cons, List.foldl_nil, Bool.false_eq_true, if_false]
  simp only [Team.pointOver, Team.point, flags_cover]

theorem passRegs_flags (ct : Core × Team) (lat due : Nat) (d : VReg) (j : Nat) (w : W32) (new : Nat → BitVec 1024)
    (fl : BitVec 5) (key : Nat → Option Nat) (n : Nat) :
    ((List.range n).foldl (fun ct k => passReg lat due (vregAt d k) j w (new k) (if k = 0 then fl else 0) (key k) ct) ct).2.flagsDue =
      if n = 0 then ct.2.flagsDue else ct.2.flagsDue ||| fl := by
  induction n with
  | zero => rfl
  | succ n ih =>
    simp only [List.range_succ, List.foldl_append, List.foldl_cons, List.foldl_nil, passReg_flags, ih]
    by_cases h : n = 0
    · simp [h]
    · simp [h]

theorem passKey_full {i : Instr} {x : X} {j k : Nat} (h : passKey i x j = some k) :
    eligible i = true ∧ maskWord x.adm j = BitVec.allOnes 32 := by
  unfold passKey at h
  split at h
  · next g =>
    simp only [Bool.and_eq_true, fullPass, beq_iff_eq] at g
    exact ⟨g.1.1, g.2⟩
  · cases h

/-- What one pass of a vector result leaves: h is the slice it takes where it hits. -/
theorem vecPass_spec (i : Instr) (x : X) (lat stamp now : Nat) (d : VReg) (n : Nat) (f : Nat → Nat) (fl : Nat → BitVec 5)
    (a : Acc2) (j : Nat) (hj : j < 32) (hn : n ≤ 64) (hn0 : 0 < n) (he : n = 1 ∨ eligible i = false)
    (ok : PairOk (a.core, a.team)) :
    let a' := vecPass i x lat stamp now d n f fl a j
    ∃ h : Option Nat, a'.hits = a.hits ++ (h.map fun sl => (j, sl)).toList ∧
    (∀ sl, h = some sl → (a'.core.phys.find sl).isSome = true) ∧
    Grown (a.core, a.team) (a'.core, a'.team) ∧
    (∀ k l, k < n → l < 32 → inMask x.adm (32 * j + l) = true → laneAt (a'.core, a'.team) (vregAt d k).val j l =
      match h with
      | some sl => laneOf (a'.core.data sl) l
      | none => regOf (f (32 * j + l)) k) ∧
    (∀ r i l, i < 32 → l < 32 → (i ≠ j ∨ inMask x.adm (32 * j + l) = false ∨ ∀ k, k < n → r ≠ (vregAt d k).val) →
      laneAt (a'.core, a'.team) r i l = laneAt (a.core, a.team) r i l) ∧
    a'.team.flagsDue = if h.isSome then a.team.flagsDue else a.team.flagsDue ||| passFlags x.adm fl j := by
  by_cases hw : maskWord x.adm j = 0
  · have hb (l : Nat) (hl : l < 32) : inMask x.adm (32 * j + l) = false := by
      rw [← maskWord_bit _ _ _ hl, hw]; simp
    have hf : passFlags x.adm fl j = 0 := by simp [passFlags, hw]
    have e : vecPass i x lat stamp now d n f fl a j = a := by simp [vecPass, hw]
    simp only [e]
    refine ⟨none, by simp, by simp, Grown.refl ok, ?_, by intros; trivial, by simp [hf]⟩
    intro k l _ hl g; rw [hb l hl] at g; cases g
  · simp only [vecPass, if_neg hw]
    obtain ⟨ge, le, fe⟩ := enter_spec stamp now (x.passNo j) a ok
    have he' : (a.enter stamp now (x.passNo j)).hits = a.hits := rfl
    generalize a.enter stamp now (x.passNo j) = b at ge le fe he'
    cases hk : passKey i x j with
    | none =>
      obtain ⟨g, v, u⟩ := passRegs_spec ge.1 lat (now + x.passNo j + lat) d j hj (maskWord x.adm j)
        (fun k => gatherLanes k (((List.range 32).filter fun l => (maskWord x.adm j).getLsbD l).map fun l => (l, f (32 * j + l))))
        (fun k => if k = 0 then passFlags x.adm fl j else 0) (fun k => if k = 0 then none else none) n hn
      have hfl := passRegs_flags (b.core, b.team) lat (now + x.passNo j + lat) d j (maskWord x.adm j)
        (fun k => gatherLanes k (((List.range 32).filter fun l => (maskWord x.adm j).getLsbD l).map fun l => (l, f (32 * j + l))))
        (passFlags x.adm fl j) (fun k => if k = 0 then none else none) n
      refine ⟨none, by simpa using he', by simp, ge.trans g, ?_, ?_, ?_⟩
      · intro k l hkn hl hm
        rw [← maskWord_bit _ _ _ hl] at hm
        refine (v k l hkn hl hm).trans ?_
        exact laneOf_gather k _ (fun l => f (32 * j + l)) l hl (by simp [hl, hm])
      · intro r i' l hi hl h
        refine (u r i' l hi hl ?_).trans (le r i' l)
        rcases h with h | h | h
        · exact .inl fun e => h e.1
        · left; rintro ⟨-, e⟩; rw [maskWord_bit _ _ _ hl, h] at e; cases e
        · exact .inr h
      · rw [if_neg (by simp), ← fe]
        exact hfl.trans (if_neg (by omega))
    | some key =>
      obtain ⟨hel, hfull⟩ := passKey_full hk
      have hn1 : n = 1 := by
        rcases he with e | e
        · exact e
        · rw [hel] at e; cases e
      subst hn1
      have hg := vtLook_grown ge.1 key (stamp + 2 * x.passNo j + 1) (now + x.passNo j)
      obtain ⟨l1, l2⟩ := vtLook_spec b.core key (stamp + 2 * x.passNo j + 1) (now + x.passNo j)
      have hp : (b.core.vtLook key (stamp + 2 * x.passNo j + 1) (now + x.passNo j)).1.phys = b.core.phys := by rw [l1]
      have hd (m : Nat) : (b.core.vtLook key (stamp + 2 * x.passNo j + 1) (now + x.passNo j)).1.data m = b.core.data m := by simp [Core.data, hp]
      have hv : (vregAt d 0).val = d.val := by simp [vregAt, d.isLt, Nat.mod_eq_of_lt]
      simp only
      cases hit : (b.core.vtLook key (stamp + 2 * x.passNo j + 1) (now + x.passNo j)).2.1 with
      | some sl =>
        obtain ⟨e, hem, hes⟩ := vtHit_mem (l2.symm.trans hit)
        have hsl := ge.1.2.2 e hem
        rw [hes] at hsl
        simp only at hsl
        have hsl0 : sl ≠ 0 := by
          rintro rfl
          rw [Tbl.find_none_of_rising ge.1.1 (by omega)] at hsl; cases hsl
        refine ⟨some sl, by simp [he'], ?_, ge.trans (hg.trans ⟨⟨hg.1.1, ?_, hg.1.2.2⟩, fun _ _ h => h, rfl, rfl⟩), ?_, ?_, ?_⟩
        · rintro _ ⟨⟩; simp only [hp]; exact hsl
        · intro e' he'
          simp only [Team.pointOver, Team.point, Tbl.set, hsl0, if_false] at he'
          rcases Tbl.mem_put he' with rfl | he'
          · right; simp only [hp]; exact hsl
          · simp only [hp]; exact ge.1.2.1 e' he'
        · intro k l hkn hl _
          have : k = 0 := by omega
          subst this
          simp only [laneAt, hv, Team.slice_pointOver, Team.slice_point, if_true]
        · intro r i' l hi hl h
          have hne : mkey r i' ≠ mkey d.val j := by
            intro e
            obtain ⟨rfl, rfl⟩ := mkey_inj hi hj e
            rcases h with h | h | h
            · exact h rfl
            · have : (maskWord x.adm i').getLsbD l = true := by rw [hfull, BitVec.getLsbD_allOnes]; simpa using hl
              rw [maskWord_bit _ _ _ hl, h] at this; cases this
            · exact h 0 (by omega) hv.symm
          rw [← le r i' l]
          simp only [laneAt, Team.slice_pointOver, Team.slice_point, if_neg hne, hd]
        · simp only [Option.isSome_some, if_true]
          rw [← fe]
          simp only [flagsDue_eq, Team.pointOver, Team.point, flags_cover]
      | none =>
        obtain ⟨g, v, u⟩ := passRegs_spec hg.1 lat (now + x.passNo j + lat) d j hj (maskWord x.adm j)
          (fun k => gatherLanes k (((List.range 32).filter fun l => (maskWord x.adm j).getLsbD l).map fun l => (l, f (32 * j + l))))
          (fun k => if k = 0 then passFlags x.adm fl j else 0) (fun k => if k = 0 then some key else none) 1 hn
        have hfl := passRegs_flags ((b.core.vtLook key (stamp + 2 * x.passNo j + 1) (now + x.passNo j)).1, b.team) lat (now + x.passNo j + lat) d j (maskWord x.adm j)
          (fun k => gatherLanes k (((List.range 32).filter fun l => (maskWord x.adm j).getLsbD l).map fun l => (l, f (32 * j + l))))
          (passFlags x.adm fl j) (fun k => if k = 0 then some key else none) 1
        refine ⟨none, by simpa using he', by simp, ge.trans (hg.trans g), ?_, ?_, ?_⟩
        · intro k l hkn hl hm
          rw [← maskWord_bit _ _ _ hl] at hm
          refine (v k l hkn hl hm).trans ?_
          exact laneOf_gather k _ (fun l => f (32 * j + l)) l hl (by simp [hl, hm])
        · intro r i' l hi hl h
          refine ((u r i' l hi hl ?_).trans ?_).trans (le r i' l)
          · rcases h with h | h | h
            · exact .inl fun e => h e.1
            · left; rintro ⟨-, e⟩; rw [maskWord_bit _ _ _ hl, h] at e; cases e
            · exact .inr h
          · simp only [laneAt, hd]
        · rw [if_neg (by simp), ← fe]
          exact hfl

theorem Tbl.find_append {α : Type} (a b : Tbl α) (x : Nat) : Tbl.find (a ++ b) x = (a.find x).or (b.find x) := by
  induction a with
  | nil => rfl
  | cons c a ih =>
    show (if x = c.1 then some c.2 else Tbl.find (a ++ b) x) = (if x = c.1 then some c.2 else Tbl.find a x).or _
    split
    · rfl
    · exact ih

/-- The passes of a vector result, for words that had no hit yet. -/
theorem vecPasses_spec (i : Instr) (x : X) (lat stamp now : Nat) (d : VReg) (n : Nat) (f : Nat → Nat) (fl : Nat → BitVec 5)
    (hn : n ≤ 64) (hn0 : 0 < n) (he : n = 1 ∨ eligible i = false) (js : List Nat) (hj : ∀ j ∈ js, j < 32) (nd : js.Nodup)
    (a : Acc2) (ok : PairOk (a.core, a.team)) (fresh : ∀ j ∈ js, a.hits.find j = none) :
    let a' := js.foldl (vecPass i x lat stamp now d n f fl) a
    Grown (a.core, a.team) (a'.core, a'.team) ∧
    (∀ j, j ∉ js → a'.hits.find j = a.hits.find j) ∧
    (∀ j k l, j ∈ js → k < n → l < 32 → inMask x.adm (32 * j + l) = true →
      laneAt (a'.core, a'.team) (vregAt d k).val j l =
        match a'.hits.find j with
        | some sl => laneOf (a'.core.data sl) l
        | none => regOf (f (32 * j + l)) k) ∧
    (∀ r j l, j < 32 → l < 32 → (j ∉ js ∨ inMask x.adm (32 * j + l) = false ∨ ∀ k, k < n → r ≠ (vregAt d k).val) →
      laneAt (a'.core, a'.team) r j l = laneAt (a.core, a.team) r j l) ∧
    a'.team.flagsDue = (js.filter fun j => (a'.hits.find j).isNone).foldl (fun g j => g ||| passFlags x.adm fl j)
      a.team.flagsDue := by
  induction js generalizing a with
  | nil => exact ⟨Grown.refl ok, fun _ _ => rfl, fun _ _ _ m => absurd m (by simp), fun _ _ _ _ _ _ => rfl, rfl⟩
  | cons j js ih =>
    obtain ⟨h, hh, hs, g, v, u, w⟩ := vecPass_spec i x lat stamp now d n f fl a j (hj j (by simp)) hn hn0 he ok
    obtain ⟨nj, nd'⟩ := List.nodup_cons.mp nd
    have other (k : Nat) (hk : k ≠ j) : (vecPass i x lat stamp now d n f fl a j).hits.find k = a.hits.find k := by
      rw [hh]
      cases h with
      | none => simp
      | some sl => simp [Tbl.find_append, Tbl.find, hk]
    have here : (vecPass i x lat stamp now d n f fl a j).hits.find j = h := by
      rw [hh, Tbl.find_append, fresh j (by simp)]
      cases h <;> simp [Tbl.find]
    obtain ⟨g', o', v', u', w'⟩ := ih (fun k m => hj k (by simp [m])) nd' (vecPass i x lat stamp now d n f fl a j) g.1
      (fun k m => (other k (by rintro rfl; exact nj m)).trans (fresh k (by simp [m])))
    simp only [List.foldl_cons]
    refine ⟨g.trans g', ?_, ?_, ?_, ?_⟩
    · intro k hk
      rw [List.mem_cons, not_or] at hk
      exact (o' k hk.2).trans (other k hk.1)
    · intro j' k l hm hk hl hi
      rcases List.mem_cons.mp hm with rfl | hm
      · rw [u' _ _ _ (hj _ (by simp)) hl (.inl nj), v k l hk hl hi, o' _ nj, here]
        cases h with
        | none => rfl
        | some sl => exact (congrArg (laneOf · l) (g'.data (hs sl rfl))).symm
      · exact v' j' k l hm hk hl hi
    · intro r j' l hj' hl h
      rw [u' r j' l hj' hl, u r j' l hj' hl]
      · rcases h with h | h | h
        · left; rintro rfl; exact h (by simp)
        · by_cases e : j' = j
          · subst e; exact .inr (.inl h)
          · exact .inl e
        · exact .inr (.inr h)
      · rcases h with h | h | h
        · left; intro m; exact h (by simp [m])
        · exact .inr (.inl h)
        · exact .inr (.inr h)
    · rw [w', w]
      simp only [List.filter_cons, o' j nj, here]
      cases h <;> simp

theorem Tbl.find_mem {α : Type} {t : Tbl α} {x : Nat} {y : α} (h : t.find x = some y) : (x, y) ∈ t := by
  induction t with
  | nil => cases h
  | cons c t ih =>
    simp only [Tbl.find] at h
    split at h
    · next e => subst e; cases h; simp
    · exact List.mem_cons_of_mem _ (ih h)

/-- A core of a package in order. -/
theorem State.stashOk.core {s : State} (ok : s.stashOk = true) (c : Nat) :
    (s.core c).phys.rising 1 = true ∧ ∀ e ∈ (s.core c).vtb, ((s.core c).phys.find e.slice).isSome = true := by
  have h : (s.core c).stashOk = true := by
    simp only [State.stashOk, Bool.and_eq_true, List.all_eq_true] at ok
    rcases Tbl.get_mem Core.zero s.cores c with e | e
    · rw [State.core, e]; rfl
    · exact ok.1 _ e
  simpa only [Core.stashOk, Bool.and_eq_true, List.all_eq_true] using h

/-- The pair of a core and a team of a package in order. -/
theorem State.stashOk.pair {s : State} {c slot : Nat} {t : Team} (ok : s.stashOk = true) (h : s.team? c slot = some t)
    (hc : slot < 16) : PairOk (s.core c, t) := by
  refine ⟨(State.stashOk.core ok c).1, ?_, (State.stashOk.core ok c).2⟩
  simp only [State.stashOk, Bool.and_eq_true, List.all_eq_true] at ok
  have := ok.2 _ (Tbl.find_mem h)
  simp only [State.mapOk, List.all_eq_true, Bool.or_eq_true, beq_iff_eq] at this
  have hk : tkey c slot / 16 = c := by unfold tkey; omega
  rw [hk] at this
  exact this

@[simp] theorem State.core_skipSeq (s : State) (c : Nat) : s.skipSeq.core c = s.core c := rfl
@[simp] theorem State.team_skipSeq (s : State) (c k : Nat) : s.skipSeq.team? c k = s.team? c k := rfl
@[simp] theorem State.teams_skipSeq (s : State) : s.skipSeq.teams = s.teams := rfl

/-- What a vector result leaves when the team has headroom (R84 to R93, R127). -/
theorem vecResult_spec (i : Instr) (x : X) (s : State) (d : VReg) (n : Nat) (f : Nat → Nat) (fl : Nat → BitVec 5)
    (hn : n ≤ 64) (hn0 : 0 < n) (he : n = 1 ∨ eligible i = false) (ht : s.team? x.c x.slot = some x.team)
    (ok : PairOk (s.core x.c, x.team)) (hh : s.lacking x.c x.team 0 ((vecRun i x s d n f fl).needs n (passes x.adm)) = none) :
    ∃ m t', vecResult i x s d n f fl = .done m ∧ m.team? x.c x.slot = some t' ∧
      m = { s with teams := m.teams, cores := m.cores, ctr := m.ctr, seq := m.seq } ∧
      (∀ k, k ≠ tkey x.c x.slot → m.teams.find k = s.teams.find k) ∧ (∀ e, e ≠ x.c → m.core e = s.core e) ∧
      Grown (s.core x.c, x.team) (m.core x.c, t') ∧
      (∀ k l, k < n → l < 1024 → inMask x.adm l = true → m.vreg x.c x.slot (vregAt d k) l = laneResult s i x d n f fl k l) ∧
      (∀ r l, l < 1024 → (inMask x.adm l = false ∨ ∀ k, k < n → r ≠ vregAt d k) →
        m.vreg x.c x.slot r l = s.vreg x.c x.slot r l) ∧
      t'.flagsDue = missFlags s i x d n f fl x.team.flagsDue := by
  unfold vecResult
  simp only [hh]
  have e0 : vecRun i x s d n f fl = (passes x.adm).foldl (vecPass i x ((iLatency i).getD 1) s.seq s.cycle d n f fl)
      { core := s.core x.c, team := x.team, pend := s.keysDue x.c } := by simp only [vecRun, ht, Option.getD_some]
  obtain ⟨g, -, v, u, w⟩ := vecPasses_spec i x ((iLatency i).getD 1) s.seq s.cycle d n f fl hn hn0 he (passes x.adm)
    (fun j m => (passes_word m).1) (passes_nodup _) { core := s.core x.c, team := x.team, pend := s.keysDue x.c } ok (fun _ _ => rfl)
  unfold laneResult missFlags
  rw [← e0] at g v u w
  generalize vecRun i x s d n f fl = a at g v u w
  have hv (m : State) (r : VReg) (l : Nat) (h1 : m.core x.c = a.core) (h2 : m.team? x.c x.slot = some a.team) :
      m.vreg x.c x.slot r l = laneAt (a.core, a.team) r.val (l / 32) (l % 32) := by
    simp only [State.vreg, h1, h2, readV, laneAt]
  have hs (r : VReg) (l : Nat) : s.vreg x.c x.slot r l = laneAt (s.core x.c, x.team) r.val (l / 32) (l % 32) := by
    simp only [State.vreg, ht, readV, laneAt]
  generalize hm0 : a.leave x s = m
  unfold Acc2.leave at hm0
  have m1 : m.core x.c = a.core := by rw [← hm0]; simp [State.core_setCore]
  have m2 : m.team? x.c x.slot = some a.team := by rw [← hm0]; simp
  have m3 (k : Nat) (hk : k ≠ tkey x.c x.slot) : m.teams.find k = s.teams.find k := by
    rw [← hm0]; simp [State.setTeam, Tbl.find_put_of_ne _ _ hk]
  have m4 (e : Nat) (he : e ≠ x.c) : m.core e = s.core e := by
    rw [← hm0]; simp [State.core_setCore, he]
  have m5 : m = { s with teams := m.teams, cores := m.cores, ctr := m.ctr, seq := m.seq } := by
    rw [← hm0]; simp only [State.bump, State.setCount, State.skipSeq, State.setTeam, State.setCore]
  refine ⟨m, a.team, rfl, m2, m5, m3, m4, by rw [m1]; exact g, ?_, ?_, w⟩
  · intro k l hk hl hm
    rw [hv _ _ _ m1 m2]
    have := v (l / 32) k (l % 32) (mem_passes hl hm) hk (by omega) (by rwa [Nat.div_add_mod])
    rw [Nat.div_add_mod] at this
    exact this
  · intro r l hl h
    rw [hv _ _ _ m1 m2, hs]
    refine u r.val (l / 32) (l % 32) (by omega) (by omega) ?_
    rw [Nat.div_add_mod]
    rcases h with h | h
    · exact .inr (.inl h)
    · exact .inr (.inr fun k hk e => h k hk (Fin.ext e))

/-- Slices named before stay as they are, so other teams' registers do (R84). -/
theorem vreg_other {s m : State} {c slot : Nat} {t : Team} (ok : s.stashOk = true) (hc : slot < 16)
    (ht : s.team? c slot = some t) (same : m.team? c slot = some t)
    (grown : ∀ n p, (s.core c).phys.find n = some p → (m.core c).phys.find n = some p) (r : VReg) (l : Nat) :
    m.vreg c slot r l = s.vreg c slot r l := by
  simp only [State.vreg, ht, same, readV]
  congr 1
  rcases (State.stashOk.pair ok ht hc).slice r.val (l / 32) with e | e
  · simp [Core.data, e]
  · obtain ⟨p, hp⟩ := Option.isSome_iff_exists.mp e
    simp only at hp
    unfold Core.data
    simp only [Tbl.get_eq_find, grown _ p hp, hp]

end Sys2Proof.Machine
end

