-- ==== Sys2Proof/Laws/Results.lean ====
section
/-! SUPPORT. What a scalar or a predicate result leaves (R28, R30, R76, R83). -/

namespace Sys2Proof.Machine

theorem flagsDue_add (t t' : Team) (sh : Shadow) (hs : t'.shadows = t.shadows ++ [sh]) (hf : t'.fstat = t.fstat)
    (hd : sh.done = false) : t'.flagsDue = t.flagsDue ||| sh.flags := by
  simp only [flagsDue_eq, hs, hf, List.foldl_append, List.foldl_cons, List.foldl_nil, hd, Bool.false_eq_true, if_false]

theorem Team.ws_flags (t : Team) (r : SReg) (v : W64) : (t.ws r v).flagsDue = t.flagsDue := by
  unfold Team.ws
  split
  · rfl
  · simp only [flagsDue_eq, flags_cover]

theorem Team.wp_flags (t : Team) (r : PReg) (m v : Mask) : (t.wp r m v).flagsDue = t.flagsDue := by
  unfold Team.wp
  split
  · rfl
  · simp only [flagsDue_eq, flags_cover]

theorem Team.ws_frame (t : Team) (r : SReg) (v : W64) :
    t.ws r v = { t with sreg := (t.ws r v).sreg, shadows := (t.ws r v).shadows } := by
  unfold Team.ws; split <;> rfl

theorem Team.wp_frame (t : Team) (r : PReg) (m v : Mask) :
    t.wp r m v = { t with preg := (t.wp r m v).preg, shadows := (t.wp r m v).shadows } := by
  unfold Team.wp; split <;> rfl

/-- A scalar result of a team. -/
theorem scalResult_spec (i : Instr) (x : X) (s : State) (d : SReg) (v : W64) (fl : BitVec 5)
    (ht : s.team? x.c x.slot = some x.team) :
    ∃ t', scalResult i x s d v fl = .done (s.setTeam x.c x.slot t') ∧
      t' = { x.team with sreg := t'.sreg, shadows := t'.shadows } ∧
      (∀ r, t'.rs r = if r = d ∧ d.val ≠ 0 then v else x.team.rs r) ∧ t'.flagsDue = x.team.flagsDue ||| fl := by
  unfold scalResult
  simp only [ht, Option.getD_some]
  refine ⟨_, rfl, ?_, ?_, ?_⟩
  · rw [Team.ws_frame]
  · intro r
    exact Team.rs_ws x.team d r v
  · rw [← Team.ws_flags x.team d v]
    exact flagsDue_add (x.team.ws d v) _ ⟨.scalar d.val, (iLatency i).getD 1, (x.team.rs d).zeroExtend 1024, 1, fl, none, false, 0,
      s.cycle + x.span i - 1 + (iLatency i).getD 1⟩
      rfl rfl rfl

/-- A predicate result of a team. -/
theorem predResult_spec (i : Instr) (x : X) (s : State) (d : PReg) (v : Mask) (fl : BitVec 5)
    (ht : s.team? x.c x.slot = some x.team) :
    ∃ t', predResult i x s d v fl = .done (s.setTeam x.c x.slot t') ∧
      t' = { x.team with preg := t'.preg, shadows := t'.shadows } ∧
      (∀ r, t'.rp r = if r = d ∧ d.val ≠ 0 then blend x.adm (x.team.rp d) v else x.team.rp r) ∧
      t'.flagsDue = x.team.flagsDue ||| fl := by
  unfold predResult
  simp only [ht, Option.getD_some]
  refine ⟨_, rfl, ?_, ?_, ?_⟩
  · rw [Team.wp_frame]
  · intro r
    exact Team.rp_wp x.team d r x.adm v
  · rw [← Team.wp_flags x.team d x.adm v]
    exact flagsDue_add (x.team.wp d x.adm v) _ ⟨.pred d.val, (iLatency i).getD 1, x.team.rp d, x.adm, fl, none, false, 0,
      s.cycle + x.span i - 1 + (iLatency i).getD 1⟩
      rfl rfl rfl

/-- A scalar result of a matrix stream. -/
theorem scalResultM_spec (i : Instr) (x : XR) (s : State) (d : SReg) (v : W64) :
    ∃ r', scalResultM i x s d v = .done (s.setRidge x.c r') ∧
      r' = { x.r with sreg := r'.sreg, shadows := r'.shadows } ∧
      (∀ q, r'.rs q = if q = d ∧ d.val ≠ 0 then v else x.r.rs q) := by
  unfold scalResultM
  refine ⟨_, rfl, ?_, fun q => Ridge.rs_ws x.r d q v⟩
  simp only [Ridge.ws]; split <;> rfl

/-- A predicate result of a matrix stream. -/
theorem predResultM_spec (i : Instr) (x : XR) (s : State) (d : PReg) (v : Bool) :
    ∃ r', predResultM i x s d v = .done (s.setRidge x.c r') ∧
      r' = { x.r with preg := r'.preg, shadows := r'.shadows } ∧
      (∀ q, r'.rp q = if q = d ∧ d.val ≠ 0 then v else x.r.rp q) := by
  unfold predResultM
  refine ⟨_, rfl, ?_, fun q => Ridge.rp_wp x.r d q v⟩
  simp only [Ridge.wp]; split <;> rfl

/-! What a finished instruction of a team leaves. -/

theorem vreg_congr {s m : State} {c slot : Nat} (ht : m.team? c slot = s.team? c slot) (hp : (m.core c).phys = (s.core c).phys)
    (r : VReg) (l : Nat) : m.vreg c slot r l = s.vreg c slot r l := by
  simp only [State.vreg, ht, readV, Core.data, hp]

theorem memGet_congr {s m : State} (hm : m.mem = s.mem) (a : Nat) : m.memGet a = s.memGet a := by
  unfold State.memGet; rw [hm]

theorem TeamFrame.refl (s : State) (c slot : Nat) : TeamFrame s s c slot :=
  ⟨fun _ _ => rfl, fun _ _ _ _ _ => rfl, fun _ _ => rfl, rfl, rfl, fun _ => rfl⟩

theorem TeamFrame.trans {a b d : State} {c slot : Nat} (h : TeamFrame a b c slot) (g : TeamFrame b d c slot) :
    TeamFrame a d c slot := by
  refine ⟨fun k hk => (g.teams k hk).trans (h.teams k hk), fun k hk hn r l => (g.vregs k hk hn r l).trans (h.vregs k hk hn r l),
    fun d hd => (g.cores d hd).trans (h.cores d hd), ?_, ?_, fun x => (g.mem x).trans (h.mem x)⟩
  · rw [g.core, h.core]
  · rw [g.rest, h.rest]

/-- A state whose team in one slot alone differs. -/
theorem TeamFrame.setTeam (s : State) (c slot : Nat) (t : Team) (hs : slot < 16) : TeamFrame s (s.setTeam c slot t) c slot := by
  refine ⟨fun k hk => ?_, fun k hk hn r l => ?_, fun _ _ => rfl, rfl, rfl, fun _ => rfl⟩
  · simp [State.setTeam, Tbl.find_put_of_ne _ _ hk]
  · refine vreg_congr (s := s) (m := s.setTeam c slot t) ?_ rfl r l
    unfold State.team? State.setTeam
    exact Tbl.find_put_of_ne _ _ (by unfold tkey; omega)

/-- Aging keeps to the team's frame. -/
theorem Aged.frame {c slot : Nat} {m s' : State} (h : Aged c slot m s') (hs : slot < 16) :
    TeamFrame m s' c slot ∧ ∀ r l, s'.vreg c slot r l = m.vreg c slot r l := by
  obtain ⟨t1, sh, h1, rfl, -⟩ := h
  refine ⟨TeamFrame.setTeam m c slot _ hs, fun r l => ?_⟩
  simp only [State.vreg, h1, State.team_setTeam_same, readV, Team.slice]
  rfl

/-- The team after a finished instruction: past it, its results aged (R15, R28, R127). -/
theorem TeamDone.spec {s m s' : State} {c slot : Nat} {t t1 : Team} (h : TeamDone s c slot t m s') (hm : m.team? c slot = some t1)
    (hs : slot < 16) : ∃ t', s'.team? c slot = some t' ∧
      t' = { t1 with pc := (s.nextOf c t).1, atHdr := (s.nextOf c t).2, wait := none, shadows := t'.shadows } ∧
      t'.flagsDue = t1.flagsDue ∧ TeamFrame m s' c slot ∧ ∀ r l, s'.vreg c slot r l = m.vreg c slot r l := by
  have hp : s.past c slot t m = m.setTeam c slot
      { t1 with pc := (s.nextOf c t).1, atHdr := (s.nextOf c t).2, wait := none } := by
    unfold State.past State.modTeam; rw [hm]
  unfold TeamDone at h
  rw [hp] at h
  obtain ⟨fr, vr⟩ := h.frame hs
  obtain ⟨t2, sh, h1, rfl, h4⟩ := h
  rw [State.team_setTeam_same] at h1
  cases h1
  refine ⟨_, State.team_setTeam_same _ _ _ _, rfl, h4, (TeamFrame.setTeam m c slot _ hs).trans fr, fun r l => (vr r l).trans ?_⟩
  simp only [State.vreg, hm, State.team_setTeam_same, readV, Team.slice]
  rfl

/-- The stream after a finished instruction. -/
theorem RidgeDone.spec {s m s' : State} {c : Nat} {r r1 : Ridge} (h : RidgeDone s c r m s') (hm : m.ridge? c = some r1) :
    ∃ r', s'.ridge? c = some r' ∧
      r' = { r1 with pc := (s.nextOfM c r).1, atHdr := (s.nextOfM c r).2, wait := none, shadows := r'.shadows } ∧
      RidgeFrame m s' c := by
  obtain ⟨r2, sh, h1, rfl⟩ := h
  rw [hm] at h1; cases h1
  refine ⟨_, State.ridge_setRidge_same _ _ _, rfl, ⟨fun k hk => ?_, rfl, fun _ => rfl⟩⟩
  simp [State.setRidge, Tbl.find_put_of_ne _ _ hk]

end Sys2Proof.Machine
end

