-- ==== Sys2Proof/Laws/Forms.lean ====
section
/-! SUPPORT. The shared forms of instructions (R19, R28, R54, R141 to R163): what an instruction with one scalar, predicate or
vector result leaves when its team or stream issues it. -/

namespace Sys2Proof.Machine

/-- A finished effect that changes the team alone. -/
theorem done_team {i : Instr} {h : Hdr} {s : State} {c slot : Nat} {t t1 : Team} (hs : slot < 16)
    (w : s.team? c slot = some t) (hv : t1.vmap = t.vmap) :
    ∃ s' t', (Host.Outcome.next (settleTeam i h s c slot t (.done (s.setTeam c slot t1))) : Host.Outcome State Fault Refusal) = .next s' ∧
      s'.team? c slot = some t' ∧ TeamFrame s s' c slot ∧
      t' = { t1 with pc := (s.nextOf c t).1, atHdr := (s.nextOf c t).2, wait := none, shadows := t'.shadows } ∧
      t'.flagsDue = t1.flagsDue ∧ (∀ r l, s'.vreg c slot r l = s.vreg c slot r l) := by
  have hm : (s.setTeam c slot t1).team? c slot = some t1 := State.team_setTeam_same _ _ _ _
  obtain ⟨t', h1, h2, h3, h4, h5⟩ := (settleTeam_done (i := i) (h := h) (s := s) (t := t) hm).spec hm hs
  refine ⟨_, t', rfl, h1, (TeamFrame.setTeam s c slot t1 hs).trans h4, h2, h3, fun r l => (h5 r l).trans ?_⟩
  simp only [State.vreg, w, hm, readV, Team.slice, hv]
  rfl

/-- A finished effect that changes nothing. -/
theorem done_same {i : Instr} {h : Hdr} {s : State} {c slot : Nat} {t : Team} (hs : slot < 16) (w : s.team? c slot = some t) :
    ∃ s' t', (Host.Outcome.next (settleTeam i h s c slot t (.done s)) : Host.Outcome State Fault Refusal) = .next s' ∧
      s'.team? c slot = some t' ∧ TeamFrame s s' c slot ∧
      t' = { t with pc := (s.nextOf c t).1, atHdr := (s.nextOf c t).2, wait := none, shadows := t'.shadows } ∧
      t'.flagsDue = t.flagsDue ∧ (∀ r l, s'.vreg c slot r l = s.vreg c slot r l) := by
  obtain ⟨t', h1, h2, h3, h4, h5⟩ := (settleTeam_done (i := i) (h := h) (s := s) (t := t) w).spec w hs
  exact ⟨_, t', rfl, h1, h4, h2, h3, h5⟩

/-- What an instruction with a scalar result leaves. -/
theorem scalar_done {i : Instr} {h : Hdr} {d : SReg} {v : W64} {fl : BitVec 5} {s : State} {c slot : Nat} {t : Team}
    (hs : slot < 16) (w : s.team? c slot = some t) {o : Host.Outcome State Fault Refusal}
    (ho : o = .next (settleTeam i h s c slot t
      (if t.adm h = 0 then .done s else scalResult i (t.x s c slot h) s d v fl))) :
    ∃ s' t', o = .next s' ∧ s'.team? c slot = some t' ∧ TeamFrame s s' c slot ∧
      t' = { t with pc := (s.nextOf c t).1, atHdr := (s.nextOf c t).2, wait := none, sreg := t'.sreg,
                    shadows := t'.shadows } ∧
      (∀ r, t'.rs r = if r = d ∧ d.val ≠ 0 ∧ t.adm h ≠ 0 then v else t.rs r) ∧
      (t'.flagsDue = if t.adm h = 0 then t.flagsDue else t.flagsDue ||| fl) ∧
      (∀ r l, s'.vreg c slot r l = s.vreg c slot r l) := by
  subst ho
  by_cases ha : t.adm h = 0
  · rw [if_pos ha]
    obtain ⟨s', t', h0, h1, h2, h3, h4, h5⟩ := done_same (i := i) (h := h) hs w
    refine ⟨s', t', h0, h1, h2, ?_, ?_, ?_, h5⟩
    · rw [h3]
    · intro r; rw [h3]; simp [ha]; rfl
    · rw [h4]; simp [ha]
  · rw [if_neg ha]
    obtain ⟨t1, e1, e2, e3, e4⟩ := scalResult_spec i (t.x s c slot h) s d v fl w
    rw [e1]
    obtain ⟨s', t', h0, h1, h2, h3, h4, h5⟩ := done_team (i := i) (h := h) (t1 := t1) hs w (by rw [e2]; rfl)
    refine ⟨s', t', h0, h1, h2, ?_, ?_, ?_, h5⟩
    · rw [h3, e2]; rfl
    · intro r; rw [h3]
      simp only [ha, ne_eq, not_false_eq_true, and_true]
      exact e3 r
    · rw [h4, e4, if_neg ha]; rfl

/-- What an instruction with a predicate result leaves. -/
theorem pred_done {i : Instr} {h : Hdr} {d : PReg} {v : Mask} {fl : BitVec 5} {s : State} {c slot : Nat} {t : Team}
    (hs : slot < 16) (w : s.team? c slot = some t) {o : Host.Outcome State Fault Refusal}
    (ho : o = .next (settleTeam i h s c slot t (predResult i (t.x s c slot h) s d v fl))) :
    ∃ s' t', o = .next s' ∧ s'.team? c slot = some t' ∧ TeamFrame s s' c slot ∧
      t' = { t with pc := (s.nextOf c t).1, atHdr := (s.nextOf c t).2, wait := none, preg := t'.preg,
                    shadows := t'.shadows } ∧
      (∀ r l, l < 1024 → inMask (t'.rp r) l =
        if r = d ∧ d.val ≠ 0 ∧ inMask (t.adm h) l = true then inMask v l else inMask (t.rp r) l) ∧
      t'.flagsDue = t.flagsDue ||| fl ∧ (∀ r l, s'.vreg c slot r l = s.vreg c slot r l) := by
  subst ho
  obtain ⟨t1, e1, e2, e3, e4⟩ := predResult_spec i (t.x s c slot h) s d v fl w
  rw [e1]
  obtain ⟨s', t', h0, h1, h2, h3, h4, h5⟩ := done_team (i := i) (h := h) (t1 := t1) hs w (by rw [e2]; rfl)
  refine ⟨s', t', h0, h1, h2, ?_, ?_, ?_, h5⟩
  · rw [h3, e2]; rfl
  · intro r l hl
    have e := e3 r
    have h6 : t'.rp r = t1.rp r := by rw [h3]; rfl
    rw [h6, e]
    by_cases hd : r = d ∧ d.val ≠ 0
    · obtain ⟨rfl, hd⟩ := hd
      simp only [hd, ne_eq, not_false_eq_true, true_and, and_true, if_true, Team.x]
      exact inMask_blend _ _ _ l hl
    · rw [if_neg hd, if_neg (fun g => hd ⟨g.1, g.2.1⟩)]; rfl
  · rw [h4, e4]; rfl

/-- What an instruction with a vector result leaves when the team has headroom. -/
theorem vector_done {i : Instr} {h : Hdr} {d : VReg} {n : Nat} {f : Nat → Nat} {fl : Nat → BitVec 5} {s : State}
    {c slot : Nat} {t : Team} (hn : n ≤ 64) (hn0 : 0 < n) (he : n = 1 ∨ eligible i = false) (hs : slot < 16)
    (w : s.team? c slot = some t) (ok : s.stashOk = true)
    (hh : s.lacking c t 0 ((vecRun i (t.x s c slot h) s d n f fl).needs n (passes (t.adm h))) = none)
    {o : Host.Outcome State Fault Refusal}
    (ho : o = .next (settleTeam i h s c slot t (vecResult i (t.x s c slot h) s d n f fl))) :
    ∃ s' t', o = .next s' ∧ s'.team? c slot = some t' ∧ TeamFrame s s' c slot ∧
      t' = { t with pc := (s.nextOf c t).1, atHdr := (s.nextOf c t).2, wait := none, vmap := t'.vmap,
                    shadows := t'.shadows } ∧
      (∀ k l, k < n → l < 1024 → inMask (t.adm h) l = true →
        s'.vreg c slot (vregAt d k) l = laneResult s i (t.x s c slot h) d n f fl k l) ∧
      (∀ r l, l < 1024 → (inMask (t.adm h) l = false ∨ ∀ k, k < n → r ≠ vregAt d k) →
        s'.vreg c slot r l = s.vreg c slot r l) ∧
      t'.flagsDue = missFlags s i (t.x s c slot h) d n f fl t.flagsDue := by
  subst ho
  obtain ⟨m, t1, e1, e2, e3, e4, e5, e6, e7, e8, e9⟩ :=
    vecResult_spec i (t.x s c slot h) s d n f fl hn hn0 he w (State.stashOk.pair ok w hs) hh
  rw [e1]
  have e2 : m.team? c slot = some t1 := e2
  obtain ⟨t', h1, h2, h3, h4, h5⟩ := (settleTeam_done (i := i) (h := h) (s := s) (t := t) e2).spec e2 hs
  have fr : TeamFrame s m c slot := by
    have hc : (t.x s c slot h).c = c := rfl
    refine ⟨e4, fun k hk hn r l => ?_, e5, ?_, ?_, fun a => ?_⟩
    · have same : m.team? c k = s.team? c k := e4 _ (by show tkey c k ≠ tkey c slot; unfold tkey; omega)
      cases hk' : s.team? c k with
      | none => simp only [State.vreg, same, hk']
      | some t2 => exact vreg_other ok hk hk' (same.trans hk') e6.2.1 r l
    · have := e6.2.2.1
      simp only [hc] at this
      rw [this]
    · rw [e3]
    · have : m.mem = s.mem := by rw [e3]
      unfold State.memGet; rw [this]
  refine ⟨_, t', rfl, h1, fr.trans h4, ?_, ?_, ?_, h3.trans e9⟩
  · have e10 : t1 = { t with vmap := t1.vmap, shadows := t1.shadows } := e6.2.2.2
    rw [h2, e10]
  · intro k l hk hl hm; exact (h5 _ l).trans (e7 k l hk hl hm)
  · intro r l hl hr; exact (h5 r l).trans (e8 r l hl hr)

/-- What an instruction of a matrix stream with a scalar result leaves. -/
theorem scalar_doneM {i : Instr} {h : Hdr} {d : SReg} {v : W64} {s : State} {c : Nat} {r : Ridge}
    (w : s.ridge? c = some r) {o : Host.Outcome State Fault Refusal}
    (ho : o = .next (settleRidge i h s c r (if !(r.adm h) then .done s else scalResultM i (r.x c h) s d v))) :
    ∃ s' r', o = .next s' ∧ s'.ridge? c = some r' ∧ RidgeFrame s s' c ∧
      r' = { r with pc := (s.nextOfM c r).1, atHdr := (s.nextOfM c r).2, wait := none, sreg := r'.sreg, shadows := r'.shadows } ∧
      (∀ q, r'.rs q = if q = d ∧ d.val ≠ 0 ∧ r.adm h = true then v else r.rs q) := by
  subst ho
  cases ha : r.adm h
  · obtain ⟨r', h1, h2, h3⟩ := (settleRidge_done (i := i) (h := h) (s := s) (r := r) w).spec w
    refine ⟨_, r', rfl, h1, h3, ?_, ?_⟩
    · rw [h2]
    · intro q; rw [h2]; simp; rfl
  · obtain ⟨r1, e1, e2, e3⟩ := scalResultM_spec i (r.x c h) s d v
    simp only [Bool.not_true, Bool.false_eq_true, if_false, e1]
    have hm : (s.setRidge c r1).ridge? c = some r1 := State.ridge_setRidge_same _ _ _
    obtain ⟨r', h1, h2, h3⟩ := (settleRidge_done (i := i) (h := h) (s := s) (r := r) hm).spec hm
    refine ⟨_, r', rfl, h1, ⟨fun k hk => ?_, ?_, fun a => ?_⟩, ?_, ?_⟩
    · refine (h3.ridges k hk).trans ?_
      simp [State.setRidge, Tbl.find_put_of_ne _ _ hk]
    · exact h3.rest
    · exact h3.mem a
    · rw [h2, e2]; rfl
    · intro q; rw [h2]
      simp only [and_true]
      exact e3 q

/-- What an instruction of a matrix stream with a predicate result leaves. -/
theorem pred_doneM {i : Instr} {h : Hdr} {d : PReg} {v : Bool} {s : State} {c : Nat} {r : Ridge}
    (w : s.ridge? c = some r) {o : Host.Outcome State Fault Refusal}
    (ho : o = .next (settleRidge i h s c r (if !(r.adm h) then .done s else predResultM i (r.x c h) s d v))) :
    ∃ s' r', o = .next s' ∧ s'.ridge? c = some r' ∧ RidgeFrame s s' c ∧
      r' = { r with pc := (s.nextOfM c r).1, atHdr := (s.nextOfM c r).2, wait := none, preg := r'.preg, shadows := r'.shadows } ∧
      (∀ q, r'.rp q = if q = d ∧ d.val ≠ 0 ∧ r.adm h = true then v else r.rp q) := by
  subst ho
  cases ha : r.adm h
  · obtain ⟨r', h1, h2, h3⟩ := (settleRidge_done (i := i) (h := h) (s := s) (r := r) w).spec w
    refine ⟨_, r', rfl, h1, h3, ?_, ?_⟩
    · rw [h2]
    · intro q; rw [h2]; simp; rfl
  · obtain ⟨r1, e1, e2, e3⟩ := predResultM_spec i (r.x c h) s d v
    simp only [Bool.not_true, Bool.false_eq_true, if_false, e1]
    have hm : (s.setRidge c r1).ridge? c = some r1 := State.ridge_setRidge_same _ _ _
    obtain ⟨r', h1, h2, h3⟩ := (settleRidge_done (i := i) (h := h) (s := s) (r := r) hm).spec hm
    refine ⟨_, r', rfl, h1, ⟨fun k hk => ?_, ?_, fun a => ?_⟩, ?_, ?_⟩
    · refine (h3.ridges k hk).trans ?_
      simp [State.setRidge, Tbl.find_put_of_ne _ _ hk]
    · exact h3.rest
    · exact h3.mem a
    · rw [h2, e2]; rfl
    · intro q; rw [h2]
      simp only [and_true]
      exact e3 q

end Sys2Proof.Machine
end

