-- ==== Sys2Proof/Laws/Codes.lean ====
section
/-! SUPPORT. The codes of fields read back (R18 to R22): each code within its field, and each class of operand read back from
its own code and from no other. -/

namespace Sys2Proof

@[simp] theorem bit_lt (b : Bool) : bit b < 2 := by cases b <;> decide
@[simp] theorem bit_eq (b : Bool) : (bit b == 1) = b := by cases b <;> decide
@[simp] theorem bit_eq_one (b : Bool) : (bit b = 1) = (b = true) := by cases b <;> simp [bit]
@[simp] theorem encV_lt (r : VReg) : encV r < 256 := by unfold encV; omega
@[simp] theorem encS_lt (r : SReg) : encS r < 256 := by unfold encS; omega
@[simp] theorem encP_lt (r : PReg) : encP r < 256 := by unfold encP; omega
@[simp] theorem encW_lt (r : WReg) : encW r < 256 := by unfold encW; omega
@[simp] theorem encQ_lt (r : QReg) : encQ r < 256 := by unfold encQ; omega
@[simp] theorem encVS_lt (x : VS) : encVS x < 256 := by cases x <;> simp [encVS]
@[simp] theorem encITy_lt (t : ITy) : encITy t < 16 := by cases t <;> decide
@[simp] theorem encFTy_lt (t : FTy) : encFTy t < 16 := by cases t <;> decide
@[simp] theorem encFTy_lt8 (t : FTy) : encFTy t < 8 := by cases t <;> decide
@[simp] theorem encNTy_lt (t : NTy) : encNTy t < 16 := by cases t <;> simp [encNTy]
@[simp] theorem encNTy_lt' (t : NTy) : encNTy t < 256 := Nat.lt_trans (encNTy_lt t) (by decide)
@[simp] theorem encRnd_lt (r : Rnd) : encRnd r < 8 := by obtain ⟨m, f⟩ := r; cases m <;> cases f <;> decide
@[simp] theorem encFtz_lt (b : Bool) : encFtz b < 8 := by cases b <;> decide
@[simp] theorem encWide_lt (b : Bool) : encWide b < 16 := by cases b <;> decide
@[simp] theorem encICond_lt (c : ICond) : encICond c < 8 := by cases c <;> decide
@[simp] theorem encFCond_lt (c : FCond) : encFCond c < 8 := by cases c <;> decide
@[simp] theorem encShuf_lt (c : Shuf) : encShuf c < 4 := by cases c <;> decide
@[simp] theorem encRed_lt (c : RedOp) : encRed c < 8 := by cases c <;> decide
@[simp] theorem encSpace_lt (c : Space) : encSpace c < 8 := by cases c <;> decide
@[simp] theorem encOrder_lt (c : Order) : encOrder c < 4 := by cases c <;> decide
@[simp] theorem encSize_lt (c : Size) : encSize c < 8 := by cases c <;> decide
@[simp] theorem encAOp_lt (c : AOp) : encAOp c < 16 := by cases c <;> decide
@[simp] theorem encAdj_lt (c : AdjField) : encAdj c < 4 := by cases c <;> decide
@[simp] theorem encMSpace_lt (c : MSpace) : encMSpace c < 4 := by cases c <;> decide
@[simp] theorem encWFmt_lt (c : WFmt) : encWFmt c < 8 := by cases c <;> decide
@[simp] theorem encPSrc_lt (c : PSrc) : encPSrc c < 32 := by cases c <;> decide
@[simp] theorem encZFmt_lt (c : ZFmt) : encZFmt c < 4 := by cases c <;> decide
@[simp] theorem encZOp_lt (c : ZOp) : encZOp c < 8 := by cases c <;> decide
@[simp] theorem encSr_lt (c : Sr) : encSr c < 2 ^ 23 := by cases c <;> decide

theorem finOf_val (n : Nat) (r : Fin n) : finOf n r.val = some r := by simp [finOf, r.isLt]
theorem finOf_ge {n x : Nat} (h : n ≤ x) : finOf n x = none := by unfold finOf; rw [dif_neg (by omega)]
@[simp] theorem finOf3 (r : Fin 3) : finOf 3 r.val = some r := finOf_val _ r
@[simp] theorem finOf4 (r : Fin 4) : finOf 4 r.val = some r := finOf_val _ r
@[simp] theorem finOf6 (r : Fin 6) : finOf 6 r.val = some r := finOf_val _ r
@[simp] theorem finOf8 (r : Fin 8) : finOf 8 r.val = some r := finOf_val _ r
@[simp] theorem finOf16 (r : Fin 16) : finOf 16 r.val = some r := finOf_val _ r
@[simp] theorem finOf32 (r : Fin 32) : finOf 32 r.val = some r := finOf_val _ r
@[simp] theorem finOf64 (r : Fin 64) : finOf 64 r.val = some r := finOf_val _ r
@[simp] theorem finOf96 (r : Fin 96) : finOf 96 r.val = some r := finOf_val _ r
@[simp] theorem finOf128 (r : Fin 128) : finOf 128 r.val = some r := finOf_val _ r
@[simp] theorem finOf256 (r : Fin 256) : finOf 256 r.val = some r := finOf_val _ r

@[simp] theorem decV_encV (r : VReg) : decV (encV r) = some r := by simp [decV, encV]
@[simp] theorem decS_encS (r : SReg) : decS (encS r) = some r := by simp [decS, encS]
@[simp] theorem decP_encP (r : PReg) : decP (encP r) = some r := by simp [decP, encP]
@[simp] theorem decW_encW (r : WReg) : decW (encW r) = some r := by simp [decW, encW]
@[simp] theorem decQ_encQ (r : QReg) : decQ (encQ r) = some r := by simp [decQ, encQ]
@[simp] theorem decVS_encVS (x : VS) : decVS (encVS x) = some x := by
  cases x with
  | v r =>
    have : encV r < 0x40 := by unfold encV; omega
    simp [decVS, encVS, this]
  | s r =>
    have : ¬ encS r < 0x40 := by unfold encS; omega
    simp [decVS, encVS, this]

@[simp] theorem decP_encV (r : VReg) : decP (encV r) = none := by unfold decP encV; rw [if_neg (by omega)]
@[simp] theorem decP_encS (r : SReg) : decP (encS r) = none := by unfold decP encS; rw [if_neg (by omega)]
@[simp] theorem decV_encS (r : SReg) : decV (encS r) = none := finOf_ge (by unfold encS; omega)
@[simp] theorem decV_encP (r : PReg) : decV (encP r) = none := finOf_ge (by unfold encP; omega)
@[simp] theorem decV_encQ (r : QReg) : decV (encQ r) = none := finOf_ge (by unfold encQ; omega)
@[simp] theorem decS_encV (r : VReg) : decS (encV r) = none := by unfold decS encV; rw [if_neg (by omega)]
@[simp] theorem decS_encQ (r : QReg) : decS (encQ r) = none := by
  unfold decS encQ; rw [if_pos (by omega)]; exact finOf_ge (by omega)
@[simp] theorem decQ_encS (r : SReg) : decQ (encS r) = none := by unfold decQ encS; rw [if_neg (by omega)]
@[simp] theorem decQ_encV (r : VReg) : decQ (encV r) = none := by unfold decQ encV; rw [if_neg (by omega)]

@[simp] theorem decITy_enc (t : ITy) : decITy (encITy t) = some t := by cases t <;> rfl
@[simp] theorem decFTy_enc (t : FTy) : decFTy (encFTy t) = some t := by cases t <;> rfl
@[simp] theorem decNTy_enc (t : NTy) : decNTy (encNTy t) = some t := by rcases t with t | t <;> cases t <;> rfl
@[simp] theorem decWide_enc (b : Bool) : decWide (encWide b) = some b := by cases b <;> rfl
@[simp] theorem decBool_bit (b : Bool) : decBool (bit b) = some b := by cases b <;> rfl
@[simp] theorem decRnd_enc (r : Rnd) : decRnd (encRnd r) = r := by obtain ⟨m, f⟩ := r; cases m <;> cases f <;> rfl
@[simp] theorem decRnd_ftz (b : Bool) : (decRnd (encFtz b)).ftz = b := by cases b <;> rfl
@[simp] theorem decICond_enc (c : ICond) : decICond (encICond c) = some c := by cases c <;> rfl
@[simp] theorem decFCond_enc (c : FCond) : decFCond (encFCond c) = c := by cases c <;> rfl
@[simp] theorem decShuf_enc (c : Shuf) : decShuf (encShuf c) = c := by cases c <;> rfl
@[simp] theorem decRed_enc (c : RedOp) : decRed (encRed c) = some c := by cases c <;> rfl
@[simp] theorem decSpace_enc (c : Space) : decSpace (encSpace c) = some c := by cases c <;> rfl
@[simp] theorem decOrder_enc (c : Order) : decOrder (encOrder c) = c := by cases c <;> rfl
@[simp] theorem decSize_enc (c : Size) : decSize (encSize c) = some c := by cases c <;> rfl
@[simp] theorem decAOp_enc (c : AOp) : decAOp (encAOp c) = some c := by cases c <;> rfl
@[simp] theorem decAdj_enc (c : AdjField) : decAdj (encAdj c) = c := by cases c <;> rfl
@[simp] theorem decMSpace_enc (c : MSpace) : decMSpace (encMSpace c) = some c := by cases c <;> rfl
@[simp] theorem decWFmt_enc (c : WFmt) : decWFmt (encWFmt c) = some c := by cases c <;> rfl
@[simp] theorem decPSrc_enc (c : PSrc) : decPSrc (encPSrc c) = some c := by cases c <;> rfl
@[simp] theorem decZFmt_enc (c : ZFmt) : decZFmt (encZFmt c) = c := by cases c <;> rfl
@[simp] theorem decZOp_enc (c : ZOp) : decZOp (encZOp c) = some c := by cases c <;> rfl
@[simp] theorem decSr_enc (c : Sr) : decSr (encSr c) = some c := by cases c <;> rfl

theorem decHdr_of {h : Hdr} {w : Nat} (h1 : fld w 50 6 = h.stall.val) (h2 : fld w 43 7 = h.guard.val)
    (h3 : fld w 42 1 = bit h.gneg) (h4 : fld w 41 1 = bit h.fresh) : decHdr w = some h := by
  simp [decHdr, h1, h2, h3, h4]

/-! The fields of each format read back (R21). -/

/-- What a word of format R shows. -/
structure FieldsR (h : Hdr) (w opc d a b c x ty rnd : Nat) : Prop where
  ltIs : w < 2 ^ 64
  opcIs : fld w 56 8 = opc
  hdrIs : decHdr w = some h
  dIs : fld w 33 8 = d
  aIs : fld w 25 8 = a
  bIs : fld w 17 8 = b
  cIs : fld w 9 8 = c
  c3Is : fld w 9 3 = c % 8
  c4Is : fld w 9 4 = c % 16
  xIs : fld w 7 2 = x
  x1Is : fld w 8 1 = x / 2
  tyIs : fld w 3 4 = ty
  rndIs : fld w 0 3 = rnd
  lIs : fld w 7 5 = c % 8 * 4 + x
  pIs : fld w 12 5 = c / 8
  lowIs : w % 256 = x % 2 * 128 + ty * 8 + rnd
  b2Is : fld w 11 2 = c / 4 % 4
  a2Is : fld w 9 2 = c % 4

theorem fieldsR (h : Hdr) (opc d a b c x ty rnd : Nat) (h1 : opc < 256) (h2 : d < 256) (h3 : a < 256) (h4 : b < 256)
    (h5 : c < 256) (h6 : x < 4) (h7 : ty < 16) (h8 : rnd < 8) :
    FieldsR h (encR h opc d a b c x ty rnd) opc d a b c x ty rnd := by
  have g1 := h.stall.isLt
  have g2 := h.guard.isLt
  have g3 := bit_lt h.gneg
  have g4 := bit_lt h.fresh
  constructor
  case hdrIs =>
    apply decHdr_of <;> simp only [encR, encHdr, fld] <;> generalize h.stall.val = st at * <;>
      generalize h.guard.val = gd at * <;> generalize bit h.gneg = gn at * <;> generalize bit h.fresh = fr at * <;>
      norm_num only at * <;> omega
  all_goals
    simp only [encR, encHdr, fld]
    generalize h.stall.val = st at *
    generalize h.guard.val = gd at *
    generalize bit h.gneg = gn at *
    generalize bit h.fresh = fr at *
    norm_num only at *
    omega

/-- What a word of format RI shows. -/
structure FieldsRI (h : Hdr) (w opc d a x imm : Nat) : Prop where
  ltIs : w < 2 ^ 64
  opcIs : fld w 56 8 = opc
  hdrIs : decHdr w = some h
  dIs : fld w 33 8 = d
  aIs : fld w 25 8 = a
  xIs : fld w 23 2 = x
  immIs : fld w 0 23 = imm
  imIs : w % 2 ^ 23 = imm

theorem fieldsRI (h : Hdr) (opc d a x imm : Nat) (h1 : opc < 256) (h2 : d < 256) (h3 : a < 256) (h4 : x < 4)
    (h5 : imm < 2 ^ 23) : FieldsRI h (encRI h opc d a x imm) opc d a x imm := by
  have g1 := h.stall.isLt
  have g2 := h.guard.isLt
  have g3 := bit_lt h.gneg
  have g4 := bit_lt h.fresh
  constructor
  case hdrIs =>
    apply decHdr_of <;> simp only [encRI, encHdr, fld] <;> generalize h.stall.val = st at * <;>
      generalize h.guard.val = gd at * <;> generalize bit h.gneg = gn at * <;> generalize bit h.fresh = fr at * <;>
      norm_num only at * <;> omega
  all_goals
    simp only [encRI, encHdr, fld]
    generalize h.stall.val = st at *
    generalize h.guard.val = gd at *
    generalize bit h.gneg = gn at *
    generalize bit h.fresh = fr at *
    norm_num only at *
    omega

/-- What a word of format I shows. -/
structure FieldsI (h : Hdr) (w opc d x imm : Nat) : Prop where
  ltIs : w < 2 ^ 64
  opcIs : fld w 56 8 = opc
  hdrIs : decHdr w = some h
  dIs : fld w 33 8 = d
  xIs : fld w 32 1 = x
  imIs : w % 2 ^ 32 = imm
  sgIs : fld w 28 4 = imm / 2 ^ 28
  pgIs : fld w 22 6 = imm / 2 ^ 22 % 64
  pkIs : fld w 14 8 = imm / 2 ^ 14 % 256

theorem fieldsI (h : Hdr) (opc d x imm : Nat) (h1 : opc < 256) (h2 : d < 256) (h4 : x < 2) (h5 : imm < 2 ^ 32) :
    FieldsI h (encI h opc d x imm) opc d x imm := by
  have g1 := h.stall.isLt
  have g2 := h.guard.isLt
  have g3 := bit_lt h.gneg
  have g4 := bit_lt h.fresh
  constructor
  case hdrIs =>
    apply decHdr_of <;> simp only [encI, encHdr, fld] <;> generalize h.stall.val = st at * <;>
      generalize h.guard.val = gd at * <;> generalize bit h.gneg = gn at * <;> generalize bit h.fresh = fr at * <;>
      norm_num only at * <;> omega
  all_goals
    simp only [encI, encHdr, fld]
    generalize h.stall.val = st at *
    generalize h.guard.val = gd at *
    generalize bit h.gneg = gn at *
    generalize bit h.fresh = fr at *
    norm_num only at *
    omega

/-- What a word of format B shows. -/
structure FieldsB (h : Hdr) (w opc test tneg reg ind off : Nat) : Prop where
  ltIs : w < 2 ^ 64
  opcIs : fld w 56 8 = opc
  hdrIs : decHdr w = some h
  testIs : fld w 34 7 = test
  tnegIs : fld w 33 1 = tneg
  regIs : fld w 25 8 = reg
  indIs : fld w 24 1 = ind
  offIs : w % 2 ^ 24 = off

theorem fieldsB (h : Hdr) (opc test tneg reg ind off : Nat) (h1 : opc < 256) (h2 : test < 128) (h3 : tneg < 2)
    (h4 : reg < 256) (h5 : ind < 2) (h6 : off < 2 ^ 24) :
    FieldsB h (encB h opc test tneg reg ind off) opc test tneg reg ind off := by
  have g1 := h.stall.isLt
  have g2 := h.guard.isLt
  have g3 := bit_lt h.gneg
  have g4 := bit_lt h.fresh
  constructor
  case hdrIs =>
    apply decHdr_of <;> simp only [encB, encHdr, fld] <;> generalize h.stall.val = st at * <;>
      generalize h.guard.val = gd at * <;> generalize bit h.gneg = gn at * <;> generalize bit h.fresh = fr at * <;>
      norm_num only at * <;> omega
  all_goals
    simp only [encB, encHdr, fld]
    generalize h.stall.val = st at *
    generalize h.guard.val = gd at *
    generalize bit h.gneg = gn at *
    generalize bit h.fresh = fr at *
    norm_num only at *
    omega

/-- What a word of format M shows. -/
structure FieldsM (h : Hdr) (w opc data addr sp ord sz sx tail : Nat) : Prop where
  ltIs : w < 2 ^ 64
  opcIs : fld w 56 8 = opc
  hdrIs : decHdr w = some h
  dataIs : fld w 33 8 = data
  addrIs : fld w 25 8 = addr
  spIs : fld w 22 3 = sp
  ordIs : fld w 20 2 = ord
  szIs : fld w 17 3 = sz
  sxIs : fld w 16 1 = sx
  tailIs : w % 2 ^ 16 = tail
  hiIs : fld w 8 8 = tail / 256
  midIs : fld w 4 4 = tail / 16 % 16
  lo4Is : fld w 0 4 = tail % 16
  lo8Is : fld w 0 8 = tail % 256

theorem fieldsM (h : Hdr) (opc data addr sp ord sz sx tail : Nat) (h1 : opc < 256) (h2 : data < 256) (h3 : addr < 256)
    (h4 : sp < 8) (h5 : ord < 4) (h6 : sz < 8) (h7 : sx < 2) (h8 : tail < 2 ^ 16) :
    FieldsM h (encM h opc data addr sp ord sz sx tail) opc data addr sp ord sz sx tail := by
  have g1 := h.stall.isLt
  have g2 := h.guard.isLt
  have g3 := bit_lt h.gneg
  have g4 := bit_lt h.fresh
  constructor
  case hdrIs =>
    apply decHdr_of <;> simp only [encM, encHdr, fld] <;> generalize h.stall.val = st at * <;>
      generalize h.guard.val = gd at * <;> generalize bit h.gneg = gn at * <;> generalize bit h.fresh = fr at * <;>
      norm_num only at * <;> omega
  all_goals
    simp only [encM, encHdr, fld]
    generalize h.stall.val = st at *
    generalize h.guard.val = gd at *
    generalize bit h.gneg = gn at *
    generalize bit h.fresh = fr at *
    norm_num only at *
    omega

/-- What a word of format E shows. -/
structure FieldsE (h : Hdr) (w opc a b c x : Nat) : Prop where
  ltIs : w < 2 ^ 64
  opcIs : fld w 56 8 = opc
  hdrIs : decHdr w = some h
  aIs : fld w 33 8 = a
  bIs : fld w 25 8 = b
  cIs : fld w 17 8 = c
  x1Is : fld w 0 1 = x % 2
  x2Is : fld w 0 2 = x % 4
  x8Is : fld w 0 8 = x % 256
  x22Is : fld w 2 2 = x / 4 % 4
  x47Is : fld w 4 7 = x / 16 % 128
  x84Is : fld w 8 4 = x / 256 % 16
  x94Is : fld w 9 4 = x / 512 % 16
  x111Is : fld w 11 1 = x / 2048 % 2

theorem fieldsE (h : Hdr) (opc a b c x : Nat) (h1 : opc < 256) (h2 : a < 256) (h3 : b < 256) (h4 : c < 256)
    (h5 : x < 2 ^ 17) : FieldsE h (encE h opc a b c x) opc a b c x := by
  have g1 := h.stall.isLt
  have g2 := h.guard.isLt
  have g3 := bit_lt h.gneg
  have g4 := bit_lt h.fresh
  constructor
  case hdrIs =>
    apply decHdr_of <;> simp only [encE, encHdr, fld] <;> generalize h.stall.val = st at * <;>
      generalize h.guard.val = gd at * <;> generalize bit h.gneg = gn at * <;> generalize bit h.fresh = fr at * <;>
      norm_num only at * <;> omega
  all_goals
    simp only [encE, encHdr, fld]
    generalize h.stall.val = st at *
    generalize h.guard.val = gd at *
    generalize bit h.gneg = gn at *
    generalize bit h.fresh = fr at *
    norm_num only at *
    omega

/-- What a word of format X shows. -/
structure FieldsX (h : Hdr) (w opc z a c sa sb planes bsel x : Nat) : Prop where
  ltIs : w < 2 ^ 64
  opcIs : fld w 56 8 = opc
  hdrIs : decHdr w = some h
  zIs : fld w 38 3 = z
  aIs : fld w 35 3 = a
  a1Is : fld w 35 1 = a % 2
  cIs : fld w 27 8 = c
  saIs : fld w 19 8 = sa
  sbIs : fld w 11 8 = sb
  planesIs : fld w 7 4 = planes
  bselIs : fld w 5 2 = bsel
  x5Is : fld w 0 5 = x
  x1Is : fld w 0 1 = x % 2
  x2Is : fld w 0 2 = x % 4
  x11Is : fld w 1 1 = x / 2 % 2
  x21Is : fld w 2 1 = x / 4 % 2
  x23Is : fld w 2 3 = x / 4
  x31Is : fld w 3 1 = x / 8 % 2
  x32Is : fld w 3 2 = x / 8
  x41Is : fld w 4 1 = x / 16

theorem fieldsX (h : Hdr) (opc z a c sa sb planes bsel x : Nat) (h1 : opc < 256) (h2 : z < 8) (h3 : a < 8) (h4 : c < 256)
    (h5 : sa < 256) (h6 : sb < 256) (h7 : planes < 16) (h8 : bsel < 4) (h9 : x < 32) :
    FieldsX h (encX h opc z a c sa sb planes bsel x) opc z a c sa sb planes bsel x := by
  have g1 := h.stall.isLt
  have g2 := h.guard.isLt
  have g3 := bit_lt h.gneg
  have g4 := bit_lt h.fresh
  constructor
  case hdrIs =>
    apply decHdr_of <;> simp only [encX, encHdr, fld] <;> generalize h.stall.val = st at * <;>
      generalize h.guard.val = gd at * <;> generalize bit h.gneg = gn at * <;> generalize bit h.fresh = fr at * <;>
      norm_num only at * <;> omega
  all_goals
    simp only [encX, encHdr, fld]
    generalize h.stall.val = st at *
    generalize h.guard.val = gd at *
    generalize bit h.gneg = gn at *
    generalize bit h.fresh = fr at *
    norm_num only at *
    omega

end Sys2Proof
end

