-- ==== Sys2Proof/Laws/PerInstr.lean ====
section
/-! SUPPORT. Decoding of encoding, form by form (R18 to R22): for every row of the opcode table that has a word, the word of
a well-formed instruction has 64 bits and decodes to it. -/

namespace Sys2Proof.Laws.RoundTrip

/-- The word of a well-formed instruction has 64 bits and decodes to the instruction; an event has no word. -/
def Statement (i : Instr) : Prop := i.wf = true → ∀ w, encode i = some w → w < 2 ^ 64 ∧ decode w = .ok i

theorem of_parse {i : Instr} {h : Hdr} {w opc : Nat} (he : encode i = some w) (lt : w < 2 ^ 64) (ho : fld w 56 8 = opc)
    (ha : assigned opc = true) (hh : decHdr w = some h) (hp : parse h w = some i) : Statement i := by
  intro hw v hv
  obtain rfl : w = v := Option.some.inj (he.symm.trans hv)
  refine ⟨lt, ?_⟩
  simp [decode, ho, ha, hh, hp, he, hw]

theorem parse_op (h : Hdr) (w : Nat) {opc : Nat} (ho : fld w 56 8 = opc) : parse h w =
    if opc < 0x20 then parseCtl h w opc
    else if opc < 0x50 ∨ opc = 0xD4 then parseInt h w opc
    else if opc < 0x80 then parseFp h w opc
    else if opc < 0xA0 then parseMem h w opc
    else if 0xB0 ≤ opc ∧ opc < 0xBE then parseMat h w opc
    else parseEng h w opc := by
  subst ho; rfl

theorem ofNat_low {n w : Nat} {x : BitVec n} (e : w % 2 ^ n = x.toNat) : BitVec.ofNat n w = x := by
  apply BitVec.eq_of_toNat_eq; simpa using e

theorem of_event {i : Instr} (he : encode i = none) : Statement i := by
  intro _ w hw; rw [he] at hw; cases hw

theorem ofR {i : Instr} {h : Hdr} {opc d a b c x ty rnd : Nat} (he : encode i = some (encR h opc d a b c x ty rnd))
    (ha : opc < 256 ∧ assigned opc = true)
    (bd : d < 256 ∧ a < 256 ∧ b < 256 ∧ c < 256 ∧ x < 4 ∧ ty < 16 ∧ rnd < 8)
    (hp : ∀ w, FieldsR h w opc d a b c x ty rnd → parse h w = some i) : Statement i := by
  obtain ⟨b0, b1, b2, b3, b4, b5, b6⟩ := bd
  have f := fieldsR h opc d a b c x ty rnd ha.1 b0 b1 b2 b3 b4 b5 b6
  exact of_parse he f.ltIs f.opcIs ha.2 f.hdrIs (hp _ f)

theorem ofRI {i : Instr} {h : Hdr} {opc d a x imm : Nat} (he : encode i = some (encRI h opc d a x imm))
    (ha : opc < 256 ∧ assigned opc = true)
    (bd : d < 256 ∧ a < 256 ∧ x < 4 ∧ imm < 2 ^ 23)
    (hp : ∀ w, FieldsRI h w opc d a x imm → parse h w = some i) : Statement i := by
  obtain ⟨b0, b1, b2, b3⟩ := bd
  have f := fieldsRI h opc d a x imm ha.1 b0 b1 b2 b3
  exact of_parse he f.ltIs f.opcIs ha.2 f.hdrIs (hp _ f)

theorem ofI {i : Instr} {h : Hdr} {opc d x imm : Nat} (he : encode i = some (encI h opc d x imm))
    (ha : opc < 256 ∧ assigned opc = true)
    (bd : d < 256 ∧ x < 2 ∧ imm < 2 ^ 32)
    (hp : ∀ w, FieldsI h w opc d x imm → parse h w = some i) : Statement i := by
  obtain ⟨b0, b1, b2⟩ := bd
  have f := fieldsI h opc d x imm ha.1 b0 b1 b2
  exact of_parse he f.ltIs f.opcIs ha.2 f.hdrIs (hp _ f)

theorem ofB {i : Instr} {h : Hdr} {opc test tneg reg ind off : Nat} (he : encode i = some (encB h opc test tneg reg ind off))
    (ha : opc < 256 ∧ assigned opc = true)
    (bd : test < 128 ∧ tneg < 2 ∧ reg < 256 ∧ ind < 2 ∧ off < 2 ^ 24)
    (hp : ∀ w, FieldsB h w opc test tneg reg ind off → parse h w = some i) : Statement i := by
  obtain ⟨b0, b1, b2, b3, b4⟩ := bd
  have f := fieldsB h opc test tneg reg ind off ha.1 b0 b1 b2 b3 b4
  exact of_parse he f.ltIs f.opcIs ha.2 f.hdrIs (hp _ f)

theorem ofM {i : Instr} {h : Hdr} {opc data addr sp ord sz sx tail : Nat} (he : encode i = some (encM h opc data addr sp ord sz sx tail))
    (ha : opc < 256 ∧ assigned opc = true)
    (bd : data < 256 ∧ addr < 256 ∧ sp < 8 ∧ ord < 4 ∧ sz < 8 ∧ sx < 2 ∧ tail < 2 ^ 16)
    (hp : ∀ w, FieldsM h w opc data addr sp ord sz sx tail → parse h w = some i) : Statement i := by
  obtain ⟨b0, b1, b2, b3, b4, b5, b6⟩ := bd
  have f := fieldsM h opc data addr sp ord sz sx tail ha.1 b0 b1 b2 b3 b4 b5 b6
  exact of_parse he f.ltIs f.opcIs ha.2 f.hdrIs (hp _ f)

theorem ofE {i : Instr} {h : Hdr} {opc a b c x : Nat} (he : encode i = some (encE h opc a b c x))
    (ha : opc < 256 ∧ assigned opc = true)
    (bd : a < 256 ∧ b < 256 ∧ c < 256 ∧ x < 2 ^ 17)
    (hp : ∀ w, FieldsE h w opc a b c x → parse h w = some i) : Statement i := by
  obtain ⟨b0, b1, b2, b3⟩ := bd
  have f := fieldsE h opc a b c x ha.1 b0 b1 b2 b3
  exact of_parse he f.ltIs f.opcIs ha.2 f.hdrIs (hp _ f)

theorem ofX {i : Instr} {h : Hdr} {opc z a c sa sb planes bsel x : Nat} (he : encode i = some (encX h opc z a c sa sb planes bsel x))
    (ha : opc < 256 ∧ assigned opc = true)
    (bd : z < 8 ∧ a < 8 ∧ c < 256 ∧ sa < 256 ∧ sb < 256 ∧ planes < 16 ∧ bsel < 4 ∧ x < 32)
    (hp : ∀ w, FieldsX h w opc z a c sa sb planes bsel x → parse h w = some i) : Statement i := by
  obtain ⟨b0, b1, b2, b3, b4, b5, b6, b7⟩ := bd
  have f := fieldsX h opc z a c sa sb planes bsel x ha.1 b0 b1 b2 b3 b4 b5 b6 b7
  exact of_parse he f.ltIs f.opcIs ha.2 f.hdrIs (hp _ f)

theorem nop (h : Hdr) : Statement (.nop h) := by
  refine ofR rfl (by decide) (by refine ⟨?_, ?_, ?_, ?_, ?_, ?_, ?_⟩ <;> first | omega | decide | simp) fun wd fs =>
    (parse_op h wd fs.opcIs).trans ?_
  show (some (.nop h) : Option Instr) = _
  rfl

theorem bra (h : Hdr) (off : BitVec 24) : Statement (.bra h off) := by
  have b0 := off.isLt
  refine ofB rfl (by decide) (by refine ⟨?_, ?_, ?_, ?_, ?_⟩ <;> first | omega | decide | simp) fun wd fs =>
    (parse_op h wd fs.opcIs).trans ?_
  show (some (.bra h (fOff wd)) : Option Instr) = _
  simp [fOff, ofNat_low fs.offIs]

theorem ball (h : Hdr) (t : PReg) (neg : Bool) (off : BitVec 24) : Statement (.ball h t neg off) := by
  have b0 := t.isLt
  have b1 := encP_lt t
  have b2 := bit_lt neg
  have b3 := off.isLt
  refine ofB rfl (by decide) (by refine ⟨?_, ?_, ?_, ?_, ?_⟩ <;> first | omega | decide | simp) fun wd fs =>
    (parse_op h wd fs.opcIs).trans ?_
  show (do pure (.ball h (← finOf 96 (fld wd 34 7)) (fld wd 33 1 == 1) (fOff wd)) : Option Instr) = _
  simp [fOff, fs.testIs, fs.tnegIs, ofNat_low fs.offIs]

theorem bany (h : Hdr) (t : PReg) (neg : Bool) (off : BitVec 24) : Statement (.bany h t neg off) := by
  have b0 := t.isLt
  have b1 := encP_lt t
  have b2 := bit_lt neg
  have b3 := off.isLt
  refine ofB rfl (by decide) (by refine ⟨?_, ?_, ?_, ?_, ?_⟩ <;> first | omega | decide | simp) fun wd fs =>
    (parse_op h wd fs.opcIs).trans ?_
  show (do pure (.bany h (← finOf 96 (fld wd 34 7)) (fld wd 33 1 == 1) (fOff wd)) : Option Instr) = _
  simp [fOff, fs.testIs, fs.tnegIs, ofNat_low fs.offIs]

theorem jmps (h : Hdr) (r : SReg) : Statement (.jmps h r) := by
  have b0 := r.isLt
  have b1 := encS_lt r
  refine ofB rfl (by decide) (by refine ⟨?_, ?_, ?_, ?_, ?_⟩ <;> first | omega | decide | simp) fun wd fs =>
    (parse_op h wd fs.opcIs).trans ?_
  show (do pure (.jmps h (← decS (fA wd))) : Option Instr) = _
  simp [fA, fs.regIs]

theorem call (h : Hdr) (tgt : CallTgt) : Statement (.call h tgt) := by
  cases tgt with
  | off o =>
    have b0 := o.isLt
    refine ofB rfl (by decide) (by refine ⟨?_, ?_, ?_, ?_, ?_⟩ <;> first | omega | decide | simp) fun wd fs =>
      (parse_op h wd fs.opcIs).trans ?_
    show (if fld wd 24 1 = 1 then do pure (.call h (.reg (← decS (fA wd)))) else some (.call h (.off (fOff wd))) : Option Instr) = _
    simp [fA, fOff, fs.regIs, fs.indIs, ofNat_low fs.offIs]
  | reg r =>
    have b0 := r.isLt
    have b1 := encS_lt r
    refine ofB rfl (by decide) (by refine ⟨?_, ?_, ?_, ?_, ?_⟩ <;> first | omega | decide | simp) fun wd fs =>
      (parse_op h wd fs.opcIs).trans ?_
    show (if fld wd 24 1 = 1 then do pure (.call h (.reg (← decS (fA wd)))) else some (.call h (.off (fOff wd))) : Option Instr) = _
    simp [fA, fOff, fs.regIs, fs.indIs]

theorem ret (h : Hdr) : Statement (.ret h) := by
  refine ofB rfl (by decide) (by refine ⟨?_, ?_, ?_, ?_, ?_⟩ <;> first | omega | decide | simp) fun wd fs =>
    (parse_op h wd fs.opcIs).trans ?_
  show (some (.ret h) : Option Instr) = _
  rfl

theorem reconv (h : Hdr) : Statement (.reconv h) := by
  refine ofR rfl (by decide) (by refine ⟨?_, ?_, ?_, ?_, ?_, ?_, ?_⟩ <;> first | omega | decide | simp) fun wd fs =>
    (parse_op h wd fs.opcIs).trans ?_
  show (some (.reconv h) : Option Instr) = _
  rfl

theorem brk (h : Hdr) (lvl : Fin 16) : Statement (.brk h lvl) := by
  have b0 := lvl.isLt
  refine ofR rfl (by decide) (by refine ⟨?_, ?_, ?_, ?_, ?_, ?_, ?_⟩ <;> first | omega | decide | simp) fun wd fs =>
    (parse_op h wd fs.opcIs).trans ?_
  show (do pure (.brk h (← finOf 16 (fC wd))) : Option Instr) = _
  simp [fC, fs.cIs]

theorem exit (h : Hdr) : Statement (.exit h) := by
  refine ofR rfl (by decide) (by refine ⟨?_, ?_, ?_, ?_, ?_, ?_, ?_⟩ <;> first | omega | decide | simp) fun wd fs =>
    (parse_op h wd fs.opcIs).trans ?_
  show (some (.exit h) : Option Instr) = _
  rfl

theorem refill (h : Hdr) (q : QReg) (wt : Bool) (off : BitVec 24) : Statement (.refill h q wt off) := by
  have b0 := q.isLt
  have b1 := encQ_lt q
  have b2 := bit_lt wt
  have b3 := off.isLt
  refine ofB rfl (by decide) (by refine ⟨?_, ?_, ?_, ?_, ?_⟩ <;> first | omega | decide | simp) fun wd fs =>
    (parse_op h wd fs.opcIs).trans ?_
  show (do pure (.refill h (← decQ (fA wd)) (fld wd 33 1 == 1) (fOff wd)) : Option Instr) = _
  simp [fA, fOff, fs.regIs, fs.tnegIs, ofNat_low fs.offIs]

theorem elect (h : Hdr) (d : SReg) : Statement (.elect h d) := by
  have b0 := d.isLt
  have b1 := encS_lt d
  refine ofR rfl (by decide) (by refine ⟨?_, ?_, ?_, ?_, ?_, ?_, ?_⟩ <;> first | omega | decide | simp) fun wd fs =>
    (parse_op h wd fs.opcIs).trans ?_
  show (do pure (.elect h (← decS (fD wd))) : Option Instr) = _
  simp [fD, fs.dIs]

theorem endlead (h : Hdr) : Statement (.endlead h) := by
  refine ofR rfl (by decide) (by refine ⟨?_, ?_, ?_, ?_, ?_, ?_, ?_⟩ <;> first | omega | decide | simp) fun wd fs =>
    (parse_op h wd fs.opcIs).trans ?_
  show (some (.endlead h) : Option Instr) = _
  rfl

theorem phint (h : Hdr) (d : SReg) (sg : BitVec 4) (pg : BitVec 6) (pk : BitVec 8) : Statement (.phint h d sg pg pk) := by
  have b0 := d.isLt
  have b1 := encS_lt d
  have b2 := sg.isLt
  have b3 := pg.isLt
  have b4 := pk.isLt
  refine ofI rfl (by decide) (by refine ⟨?_, ?_, ?_⟩ <;> first | omega | decide | simp) fun wd fs =>
    (parse_op h wd fs.opcIs).trans ?_
  show (do pure (.phint h (← decS (fD wd)) (BitVec.ofNat 4 (fld wd 28 4)) (BitVec.ofNat 6 (fld wd 22 6)) (BitVec.ofNat 8 (fld wd 14 8))) : Option Instr) = _
  have ysgIs : _ = sg.toNat := fs.sgIs.trans (by omega)
  have ypgIs : _ = pg.toNat := fs.pgIs.trans (by omega)
  have ypkIs : _ = pk.toNat := fs.pkIs.trans (by omega)
  simp [fD, fs.dIs, ysgIs, ypgIs, ypkIs, BitVec.ofNat_toNat, BitVec.setWidth_eq]

theorem yield (h : Hdr) : Statement (.yield h) := by
  refine ofR rfl (by decide) (by refine ⟨?_, ?_, ?_, ?_, ?_, ?_, ?_⟩ <;> first | omega | decide | simp) fun wd fs =>
    (parse_op h wd fs.opcIs).trans ?_
  show (some (.yield h) : Option Instr) = _
  rfl

theorem pset (h : Hdr) (d : PReg) (imm : W32) : Statement (.pset h d imm) := by
  have b0 := d.isLt
  have b1 := encP_lt d
  have b2 := imm.isLt
  refine ofI rfl (by decide) (by refine ⟨?_, ?_, ?_⟩ <;> first | omega | decide | simp) fun wd fs =>
    (parse_op h wd fs.opcIs).trans ?_
  show (do pure (.pset h (← decP (fD wd)) (fImm32 wd)) : Option Instr) = _
  simp [fD, fImm32, fs.dIs, ofNat_low fs.imIs]

theorem plop (h : Hdr) (d : PReg) (a : PReg) (b : PReg) (c : PReg) (tbl : BitVec 8) : Statement (.plop h d a b c tbl) := by
  have b0 := d.isLt
  have b1 := encP_lt d
  have b2 := a.isLt
  have b3 := encP_lt a
  have b4 := b.isLt
  have b5 := encP_lt b
  have b6 := c.isLt
  have b7 := encP_lt c
  have b8 := tbl.isLt
  refine ofR (opc := 0x11) (d := encP d) (a := encP a) (b := encP b) (c := encP c) (x := tbl.toNat / 128) (ty := tbl.toNat / 8 % 16)
    (rnd := tbl.toNat % 8) (by simp only [encode, encR, Option.some.injEq]; omega) (by decide) (by refine ⟨?_, ?_, ?_, ?_, ?_, ?_, ?_⟩ <;> first | omega | decide | simp) fun wd fs =>
    (parse_op h wd fs.opcIs).trans ?_
  show (do pure (.plop h (← decP (fD wd)) (← decP (fA wd)) (← decP (fB wd)) (← decP (fC wd)) (BitVec.ofNat 8 wd)) : Option Instr) = _
  simp [fD, fA, fB, fC, fs.dIs, fs.aIs, fs.bIs, fs.cIs, ofNat_low (x := tbl) (fs.lowIs.trans (by omega))]

theorem pmov (h : Hdr) (f : PMovForm) : Statement (.pmov h f) := by
  cases f with
  | pp d a =>
    have b0 := d.isLt
    have b1 := encP_lt d
    have b2 := a.isLt
    have b3 := encP_lt a
    refine ofR rfl (by decide) (by refine ⟨?_, ?_, ?_, ?_, ?_, ?_, ?_⟩ <;> first | omega | decide | simp) fun wd fs =>
      (parse_op h wd fs.opcIs).trans ?_
    show ((do pure (.pmov h (.pp (← decP (fD wd)) (← decP (fA wd)))))
        <|> (do pure (.pmov h (.pv (← decP (fD wd)) (← decV (fA wd)))))
        <|> (do pure (.pmov h (.ps (← decP (fD wd)) (← decS (fA wd)))))
        <|> (do pure (.pmov h (.vp (← decV (fD wd)) (← decP (fA wd))))) : Option Instr) = _
    simp [fD, fA, fs.dIs, fs.aIs]
  | pv d a =>
    have b0 := d.isLt
    have b1 := encP_lt d
    have b2 := a.isLt
    have b3 := encV_lt a
    refine ofR rfl (by decide) (by refine ⟨?_, ?_, ?_, ?_, ?_, ?_, ?_⟩ <;> first | omega | decide | simp) fun wd fs =>
      (parse_op h wd fs.opcIs).trans ?_
    show ((do pure (.pmov h (.pp (← decP (fD wd)) (← decP (fA wd)))))
        <|> (do pure (.pmov h (.pv (← decP (fD wd)) (← decV (fA wd)))))
        <|> (do pure (.pmov h (.ps (← decP (fD wd)) (← decS (fA wd)))))
        <|> (do pure (.pmov h (.vp (← decV (fD wd)) (← decP (fA wd))))) : Option Instr) = _
    simp [fD, fA, fs.dIs, fs.aIs]
  | ps d a =>
    have b0 := d.isLt
    have b1 := encP_lt d
    have b2 := a.isLt
    have b3 := encS_lt a
    refine ofR rfl (by decide) (by refine ⟨?_, ?_, ?_, ?_, ?_, ?_, ?_⟩ <;> first | omega | decide | simp) fun wd fs =>
      (parse_op h wd fs.opcIs).trans ?_
    show ((do pure (.pmov h (.pp (← decP (fD wd)) (← decP (fA wd)))))
        <|> (do pure (.pmov h (.pv (← decP (fD wd)) (← decV (fA wd)))))
        <|> (do pure (.pmov h (.ps (← decP (fD wd)) (← decS (fA wd)))))
        <|> (do pure (.pmov h (.vp (← decV (fD wd)) (← decP (fA wd))))) : Option Instr) = _
    simp [fD, fA, fs.dIs, fs.aIs]
  | vp d a =>
    have b0 := d.isLt
    have b1 := encV_lt d
    have b2 := a.isLt
    have b3 := encP_lt a
    refine ofR rfl (by decide) (by refine ⟨?_, ?_, ?_, ?_, ?_, ?_, ?_⟩ <;> first | omega | decide | simp) fun wd fs =>
      (parse_op h wd fs.opcIs).trans ?_
    show ((do pure (.pmov h (.pp (← decP (fD wd)) (← decP (fA wd)))))
        <|> (do pure (.pmov h (.pv (← decP (fD wd)) (← decV (fA wd)))))
        <|> (do pure (.pmov h (.ps (← decP (fD wd)) (← decS (fA wd)))))
        <|> (do pure (.pmov h (.vp (← decV (fD wd)) (← decP (fA wd))))) : Option Instr) = _
    simp [fD, fA, fs.dIs, fs.aIs]

theorem pcnt (h : Hdr) (d : SReg) (a : PReg) : Statement (.pcnt h d a) := by
  have b0 := d.isLt
  have b1 := encS_lt d
  have b2 := a.isLt
  have b3 := encP_lt a
  refine ofR rfl (by decide) (by refine ⟨?_, ?_, ?_, ?_, ?_, ?_, ?_⟩ <;> first | omega | decide | simp) fun wd fs =>
    (parse_op h wd fs.opcIs).trans ?_
  show (do pure (.pcnt h (← decS (fD wd)) (← decP (fA wd))) : Option Instr) = _
  simp [fD, fA, fs.dIs, fs.aIs]

theorem pfirst (h : Hdr) (d : SReg) (a : PReg) : Statement (.pfirst h d a) := by
  have b0 := d.isLt
  have b1 := encS_lt d
  have b2 := a.isLt
  have b3 := encP_lt a
  refine ofR rfl (by decide) (by refine ⟨?_, ?_, ?_, ?_, ?_, ?_, ?_⟩ <;> first | omega | decide | simp) fun wd fs =>
    (parse_op h wd fs.opcIs).trans ?_
  show (do pure (.pfirst h (← decS (fD wd)) (← decP (fA wd))) : Option Instr) = _
  simp [fD, fA, fs.dIs, fs.aIs]

theorem sadd (h : Hdr) (d : SReg) (a : SReg) (b : SReg) (ty : ITy) (sat : Bool) : Statement (.sadd h d a b ty sat) := by
  have b0 := d.isLt
  have b1 := encS_lt d
  have b2 := a.isLt
  have b3 := encS_lt a
  have b4 := b.isLt
  have b5 := encS_lt b
  have b6 := encITy_lt ty
  have b7 := bit_lt sat
  refine ofR rfl (by decide) (by refine ⟨?_, ?_, ?_, ?_, ?_, ?_, ?_⟩ <;> first | omega | decide | simp) fun wd fs =>
    (parse_op h wd fs.opcIs).trans ?_
  show (decS2 wd fun d a b t => .sadd h d a b t (fld wd 8 1 == 1) : Option Instr) = _
  simp [decS2, fD, fA, fB, fTy, fs.dIs, fs.aIs, fs.bIs, fs.tyIs, fs.x1Is]

theorem vadd (h : Hdr) (d : VReg) (a : VS) (b : VS) (ty : ITy) (sat : Bool) : Statement (.vadd h d a b ty sat) := by
  have b0 := d.isLt
  have b1 := encV_lt d
  have b2 := encVS_lt a
  have b3 := encVS_lt b
  have b4 := encITy_lt ty
  have b5 := bit_lt sat
  refine ofR rfl (by decide) (by refine ⟨?_, ?_, ?_, ?_, ?_, ?_, ?_⟩ <;> first | omega | decide | simp) fun wd fs =>
    (parse_op h wd fs.opcIs).trans ?_
  show (decV2 wd fun d a b t => .vadd h d a b t (fld wd 8 1 == 1) : Option Instr) = _
  simp [decV2, fD, fA, fB, fTy, fs.dIs, fs.aIs, fs.bIs, fs.tyIs, fs.x1Is]

theorem ssub (h : Hdr) (d : SReg) (a : SReg) (b : SReg) (ty : ITy) (sat : Bool) : Statement (.ssub h d a b ty sat) := by
  have b0 := d.isLt
  have b1 := encS_lt d
  have b2 := a.isLt
  have b3 := encS_lt a
  have b4 := b.isLt
  have b5 := encS_lt b
  have b6 := encITy_lt ty
  have b7 := bit_lt sat
  refine ofR rfl (by decide) (by refine ⟨?_, ?_, ?_, ?_, ?_, ?_, ?_⟩ <;> first | omega | decide | simp) fun wd fs =>
    (parse_op h wd fs.opcIs).trans ?_
  show (decS2 wd fun d a b t => .ssub h d a b t (fld wd 8 1 == 1) : Option Instr) = _
  simp [decS2, fD, fA, fB, fTy, fs.dIs, fs.aIs, fs.bIs, fs.tyIs, fs.x1Is]

theorem vsub (h : Hdr) (d : VReg) (a : VS) (b : VS) (ty : ITy) (sat : Bool) : Statement (.vsub h d a b ty sat) := by
  have b0 := d.isLt
  have b1 := encV_lt d
  have b2 := encVS_lt a
  have b3 := encVS_lt b
  have b4 := encITy_lt ty
  have b5 := bit_lt sat
  refine ofR rfl (by decide) (by refine ⟨?_, ?_, ?_, ?_, ?_, ?_, ?_⟩ <;> first | omega | decide | simp) fun wd fs =>
    (parse_op h wd fs.opcIs).trans ?_
  show (decV2 wd fun d a b t => .vsub h d a b t (fld wd 8 1 == 1) : Option Instr) = _
  simp [decV2, fD, fA, fB, fTy, fs.dIs, fs.aIs, fs.bIs, fs.tyIs, fs.x1Is]

theorem smul (h : Hdr) (d : SReg) (a : SReg) (b : SReg) (ty : ITy) : Statement (.smul h d a b ty) := by
  have b0 := d.isLt
  have b1 := encS_lt d
  have b2 := a.isLt
  have b3 := encS_lt a
  have b4 := b.isLt
  have b5 := encS_lt b
  have b6 := encITy_lt ty
  refine ofR rfl (by decide) (by refine ⟨?_, ?_, ?_, ?_, ?_, ?_, ?_⟩ <;> first | omega | decide | simp) fun wd fs =>
    (parse_op h wd fs.opcIs).trans ?_
  show (decS2 wd (.smul h) : Option Instr) = _
  simp [decS2, fD, fA, fB, fTy, fs.dIs, fs.aIs, fs.bIs, fs.tyIs]

theorem vmul (h : Hdr) (d : VReg) (a : VS) (b : VS) (ty : ITy) : Statement (.vmul h d a b ty) := by
  have b0 := d.isLt
  have b1 := encV_lt d
  have b2 := encVS_lt a
  have b3 := encVS_lt b
  have b4 := encITy_lt ty
  refine ofR rfl (by decide) (by refine ⟨?_, ?_, ?_, ?_, ?_, ?_, ?_⟩ <;> first | omega | decide | simp) fun wd fs =>
    (parse_op h wd fs.opcIs).trans ?_
  show (decV2 wd (.vmul h) : Option Instr) = _
  simp [decV2, fD, fA, fB, fTy, fs.dIs, fs.aIs, fs.bIs, fs.tyIs]

theorem smulh (h : Hdr) (d : SReg) (a : SReg) (b : SReg) (ty : ITy) : Statement (.smulh h d a b ty) := by
  have b0 := d.isLt
  have b1 := encS_lt d
  have b2 := a.isLt
  have b3 := encS_lt a
  have b4 := b.isLt
  have b5 := encS_lt b
  have b6 := encITy_lt ty
  refine ofR rfl (by decide) (by refine ⟨?_, ?_, ?_, ?_, ?_, ?_, ?_⟩ <;> first | omega | decide | simp) fun wd fs =>
    (parse_op h wd fs.opcIs).trans ?_
  show (decS2 wd (.smulh h) : Option Instr) = _
  simp [decS2, fD, fA, fB, fTy, fs.dIs, fs.aIs, fs.bIs, fs.tyIs]

theorem vmulh (h : Hdr) (d : VReg) (a : VS) (b : VS) (ty : ITy) : Statement (.vmulh h d a b ty) := by
  have b0 := d.isLt
  have b1 := encV_lt d
  have b2 := encVS_lt a
  have b3 := encVS_lt b
  have b4 := encITy_lt ty
  refine ofR rfl (by decide) (by refine ⟨?_, ?_, ?_, ?_, ?_, ?_, ?_⟩ <;> first | omega | decide | simp) fun wd fs =>
    (parse_op h wd fs.opcIs).trans ?_
  show (decV2 wd (.vmulh h) : Option Instr) = _
  simp [decV2, fD, fA, fB, fTy, fs.dIs, fs.aIs, fs.bIs, fs.tyIs]

theorem smad (h : Hdr) (d : SReg) (a : SReg) (b : SReg) (c : SReg) (ty : ITy) : Statement (.smad h d a b c ty) := by
  have b0 := d.isLt
  have b1 := encS_lt d
  have b2 := a.isLt
  have b3 := encS_lt a
  have b4 := b.isLt
  have b5 := encS_lt b
  have b6 := c.isLt
  have b7 := encS_lt c
  have b8 := encITy_lt ty
  refine ofR rfl (by decide) (by refine ⟨?_, ?_, ?_, ?_, ?_, ?_, ?_⟩ <;> first | omega | decide | simp) fun wd fs =>
    (parse_op h wd fs.opcIs).trans ?_
  show (do pure (.smad h (← decS (fD wd)) (← decS (fA wd)) (← decS (fB wd)) (← decS (fC wd)) (← decITy (fTy wd))) : Option Instr) = _
  simp [fD, fA, fB, fC, fTy, fs.dIs, fs.aIs, fs.bIs, fs.cIs, fs.tyIs]

theorem vmad (h : Hdr) (d : VReg) (a : VS) (b : VS) (c : VS) (ty : ITy) : Statement (.vmad h d a b c ty) := by
  have b0 := d.isLt
  have b1 := encV_lt d
  have b2 := encVS_lt a
  have b3 := encVS_lt b
  have b4 := encVS_lt c
  have b5 := encITy_lt ty
  refine ofR rfl (by decide) (by refine ⟨?_, ?_, ?_, ?_, ?_, ?_, ?_⟩ <;> first | omega | decide | simp) fun wd fs =>
    (parse_op h wd fs.opcIs).trans ?_
  show (do pure (.vmad h (← decV (fD wd)) (← decVS (fA wd)) (← decVS (fB wd)) (← decVS (fC wd)) (← decITy (fTy wd))) : Option Instr) = _
  simp [fD, fA, fB, fC, fTy, fs.dIs, fs.aIs, fs.bIs, fs.cIs, fs.tyIs]

theorem sand (h : Hdr) (d : SReg) (a : SReg) (b : SReg) (ty : ITy) : Statement (.sand h d a b ty) := by
  have b0 := d.isLt
  have b1 := encS_lt d
  have b2 := a.isLt
  have b3 := encS_lt a
  have b4 := b.isLt
  have b5 := encS_lt b
  have b6 := encITy_lt ty
  refine ofR rfl (by decide) (by refine ⟨?_, ?_, ?_, ?_, ?_, ?_, ?_⟩ <;> first | omega | decide | simp) fun wd fs =>
    (parse_op h wd fs.opcIs).trans ?_
  show (decS2 wd (.sand h) : Option Instr) = _
  simp [decS2, fD, fA, fB, fTy, fs.dIs, fs.aIs, fs.bIs, fs.tyIs]

theorem vand (h : Hdr) (d : VReg) (a : VS) (b : VS) (ty : ITy) : Statement (.vand h d a b ty) := by
  have b0 := d.isLt
  have b1 := encV_lt d
  have b2 := encVS_lt a
  have b3 := encVS_lt b
  have b4 := encITy_lt ty
  refine ofR rfl (by decide) (by refine ⟨?_, ?_, ?_, ?_, ?_, ?_, ?_⟩ <;> first | omega | decide | simp) fun wd fs =>
    (parse_op h wd fs.opcIs).trans ?_
  show (decV2 wd (.vand h) : Option Instr) = _
  simp [decV2, fD, fA, fB, fTy, fs.dIs, fs.aIs, fs.bIs, fs.tyIs]

theorem sor (h : Hdr) (d : SReg) (a : SReg) (b : SReg) (ty : ITy) : Statement (.sor h d a b ty) := by
  have b0 := d.isLt
  have b1 := encS_lt d
  have b2 := a.isLt
  have b3 := encS_lt a
  have b4 := b.isLt
  have b5 := encS_lt b
  have b6 := encITy_lt ty
  refine ofR rfl (by decide) (by refine ⟨?_, ?_, ?_, ?_, ?_, ?_, ?_⟩ <;> first | omega | decide | simp) fun wd fs =>
    (parse_op h wd fs.opcIs).trans ?_
  show (decS2 wd (.sor h) : Option Instr) = _
  simp [decS2, fD, fA, fB, fTy, fs.dIs, fs.aIs, fs.bIs, fs.tyIs]

theorem vor (h : Hdr) (d : VReg) (a : VS) (b : VS) (ty : ITy) : Statement (.vor h d a b ty) := by
  have b0 := d.isLt
  have b1 := encV_lt d
  have b2 := encVS_lt a
  have b3 := encVS_lt b
  have b4 := encITy_lt ty
  refine ofR rfl (by decide) (by refine ⟨?_, ?_, ?_, ?_, ?_, ?_, ?_⟩ <;> first | omega | decide | simp) fun wd fs =>
    (parse_op h wd fs.opcIs).trans ?_
  show (decV2 wd (.vor h) : Option Instr) = _
  simp [decV2, fD, fA, fB, fTy, fs.dIs, fs.aIs, fs.bIs, fs.tyIs]

theorem sxor (h : Hdr) (d : SReg) (a : SReg) (b : SReg) (ty : ITy) : Statement (.sxor h d a b ty) := by
  have b0 := d.isLt
  have b1 := encS_lt d
  have b2 := a.isLt
  have b3 := encS_lt a
  have b4 := b.isLt
  have b5 := encS_lt b
  have b6 := encITy_lt ty
  refine ofR rfl (by decide) (by refine ⟨?_, ?_, ?_, ?_, ?_, ?_, ?_⟩ <;> first | omega | decide | simp) fun wd fs =>
    (parse_op h wd fs.opcIs).trans ?_
  show (decS2 wd (.sxor h) : Option Instr) = _
  simp [decS2, fD, fA, fB, fTy, fs.dIs, fs.aIs, fs.bIs, fs.tyIs]

theorem vxor (h : Hdr) (d : VReg) (a : VS) (b : VS) (ty : ITy) : Statement (.vxor h d a b ty) := by
  have b0 := d.isLt
  have b1 := encV_lt d
  have b2 := encVS_lt a
  have b3 := encVS_lt b
  have b4 := encITy_lt ty
  refine ofR rfl (by decide) (by refine ⟨?_, ?_, ?_, ?_, ?_, ?_, ?_⟩ <;> first | omega | decide | simp) fun wd fs =>
    (parse_op h wd fs.opcIs).trans ?_
  show (decV2 wd (.vxor h) : Option Instr) = _
  simp [decV2, fD, fA, fB, fTy, fs.dIs, fs.aIs, fs.bIs, fs.tyIs]

theorem sshl (h : Hdr) (d : SReg) (a : SReg) (b : SReg) (ty : ITy) : Statement (.sshl h d a b ty) := by
  have b0 := d.isLt
  have b1 := encS_lt d
  have b2 := a.isLt
  have b3 := encS_lt a
  have b4 := b.isLt
  have b5 := encS_lt b
  have b6 := encITy_lt ty
  refine ofR rfl (by decide) (by refine ⟨?_, ?_, ?_, ?_, ?_, ?_, ?_⟩ <;> first | omega | decide | simp) fun wd fs =>
    (parse_op h wd fs.opcIs).trans ?_
  show (decS2 wd (.sshl h) : Option Instr) = _
  simp [decS2, fD, fA, fB, fTy, fs.dIs, fs.aIs, fs.bIs, fs.tyIs]

theorem vshl (h : Hdr) (d : VReg) (a : VS) (b : VS) (ty : ITy) : Statement (.vshl h d a b ty) := by
  have b0 := d.isLt
  have b1 := encV_lt d
  have b2 := encVS_lt a
  have b3 := encVS_lt b
  have b4 := encITy_lt ty
  refine ofR rfl (by decide) (by refine ⟨?_, ?_, ?_, ?_, ?_, ?_, ?_⟩ <;> first | omega | decide | simp) fun wd fs =>
    (parse_op h wd fs.opcIs).trans ?_
  show (decV2 wd (.vshl h) : Option Instr) = _
  simp [decV2, fD, fA, fB, fTy, fs.dIs, fs.aIs, fs.bIs, fs.tyIs]

theorem sshr (h : Hdr) (d : SReg) (a : SReg) (b : SReg) (ty : ITy) : Statement (.sshr h d a b ty) := by
  have b0 := d.isLt
  have b1 := encS_lt d
  have b2 := a.isLt
  have b3 := encS_lt a
  have b4 := b.isLt
  have b5 := encS_lt b
  have b6 := encITy_lt ty
  refine ofR rfl (by decide) (by refine ⟨?_, ?_, ?_, ?_, ?_, ?_, ?_⟩ <;> first | omega | decide | simp) fun wd fs =>
    (parse_op h wd fs.opcIs).trans ?_
  show (decS2 wd (.sshr h) : Option Instr) = _
  simp [decS2, fD, fA, fB, fTy, fs.dIs, fs.aIs, fs.bIs, fs.tyIs]

theorem vshr (h : Hdr) (d : VReg) (a : VS) (b : VS) (ty : ITy) : Statement (.vshr h d a b ty) := by
  have b0 := d.isLt
  have b1 := encV_lt d
  have b2 := encVS_lt a
  have b3 := encVS_lt b
  have b4 := encITy_lt ty
  refine ofR rfl (by decide) (by refine ⟨?_, ?_, ?_, ?_, ?_, ?_, ?_⟩ <;> first | omega | decide | simp) fun wd fs =>
    (parse_op h wd fs.opcIs).trans ?_
  show (decV2 wd (.vshr h) : Option Instr) = _
  simp [decV2, fD, fA, fB, fTy, fs.dIs, fs.aIs, fs.bIs, fs.tyIs]

theorem ssar (h : Hdr) (d : SReg) (a : SReg) (b : SReg) (ty : ITy) : Statement (.ssar h d a b ty) := by
  have b0 := d.isLt
  have b1 := encS_lt d
  have b2 := a.isLt
  have b3 := encS_lt a
  have b4 := b.isLt
  have b5 := encS_lt b
  have b6 := encITy_lt ty
  refine ofR rfl (by decide) (by refine ⟨?_, ?_, ?_, ?_, ?_, ?_, ?_⟩ <;> first | omega | decide | simp) fun wd fs =>
    (parse_op h wd fs.opcIs).trans ?_
  show (decS2 wd (.ssar h) : Option Instr) = _
  simp [decS2, fD, fA, fB, fTy, fs.dIs, fs.aIs, fs.bIs, fs.tyIs]

theorem vsar (h : Hdr) (d : VReg) (a : VS) (b : VS) (ty : ITy) : Statement (.vsar h d a b ty) := by
  have b0 := d.isLt
  have b1 := encV_lt d
  have b2 := encVS_lt a
  have b3 := encVS_lt b
  have b4 := encITy_lt ty
  refine ofR rfl (by decide) (by refine ⟨?_, ?_, ?_, ?_, ?_, ?_, ?_⟩ <;> first | omega | decide | simp) fun wd fs =>
    (parse_op h wd fs.opcIs).trans ?_
  show (decV2 wd (.vsar h) : Option Instr) = _
  simp [decV2, fD, fA, fB, fTy, fs.dIs, fs.aIs, fs.bIs, fs.tyIs]

theorem smin (h : Hdr) (d : SReg) (a : SReg) (b : SReg) (ty : ITy) : Statement (.smin h d a b ty) := by
  have b0 := d.isLt
  have b1 := encS_lt d
  have b2 := a.isLt
  have b3 := encS_lt a
  have b4 := b.isLt
  have b5 := encS_lt b
  have b6 := encITy_lt ty
  refine ofR rfl (by decide) (by refine ⟨?_, ?_, ?_, ?_, ?_, ?_, ?_⟩ <;> first | omega | decide | simp) fun wd fs =>
    (parse_op h wd fs.opcIs).trans ?_
  show (decS2 wd (.smin h) : Option Instr) = _
  simp [decS2, fD, fA, fB, fTy, fs.dIs, fs.aIs, fs.bIs, fs.tyIs]

theorem vmin (h : Hdr) (d : VReg) (a : VS) (b : VS) (ty : ITy) : Statement (.vmin h d a b ty) := by
  have b0 := d.isLt
  have b1 := encV_lt d
  have b2 := encVS_lt a
  have b3 := encVS_lt b
  have b4 := encITy_lt ty
  refine ofR rfl (by decide) (by refine ⟨?_, ?_, ?_, ?_, ?_, ?_, ?_⟩ <;> first | omega | decide | simp) fun wd fs =>
    (parse_op h wd fs.opcIs).trans ?_
  show (decV2 wd (.vmin h) : Option Instr) = _
  simp [decV2, fD, fA, fB, fTy, fs.dIs, fs.aIs, fs.bIs, fs.tyIs]

theorem smax (h : Hdr) (d : SReg) (a : SReg) (b : SReg) (ty : ITy) : Statement (.smax h d a b ty) := by
  have b0 := d.isLt
  have b1 := encS_lt d
  have b2 := a.isLt
  have b3 := encS_lt a
  have b4 := b.isLt
  have b5 := encS_lt b
  have b6 := encITy_lt ty
  refine ofR rfl (by decide) (by refine ⟨?_, ?_, ?_, ?_, ?_, ?_, ?_⟩ <;> first | omega | decide | simp) fun wd fs =>
    (parse_op h wd fs.opcIs).trans ?_
  show (decS2 wd (.smax h) : Option Instr) = _
  simp [decS2, fD, fA, fB, fTy, fs.dIs, fs.aIs, fs.bIs, fs.tyIs]

theorem vmax (h : Hdr) (d : VReg) (a : VS) (b : VS) (ty : ITy) : Statement (.vmax h d a b ty) := by
  have b0 := d.isLt
  have b1 := encV_lt d
  have b2 := encVS_lt a
  have b3 := encVS_lt b
  have b4 := encITy_lt ty
  refine ofR rfl (by decide) (by refine ⟨?_, ?_, ?_, ?_, ?_, ?_, ?_⟩ <;> first | omega | decide | simp) fun wd fs =>
    (parse_op h wd fs.opcIs).trans ?_
  show (decV2 wd (.vmax h) : Option Instr) = _
  simp [decV2, fD, fA, fB, fTy, fs.dIs, fs.aIs, fs.bIs, fs.tyIs]

theorem scmp (h : Hdr) (d : PReg) (a : SReg) (b : SReg) (c : ICond) (ty : ITy) : Statement (.scmp h d a b c ty) := by
  have b0 := d.isLt
  have b1 := encP_lt d
  have b2 := a.isLt
  have b3 := encS_lt a
  have b4 := b.isLt
  have b5 := encS_lt b
  have b6 := encICond_lt c
  have b7 := encITy_lt ty
  refine ofR rfl (by decide) (by refine ⟨?_, ?_, ?_, ?_, ?_, ?_, ?_⟩ <;> first | omega | decide | simp) fun wd fs =>
    (parse_op h wd fs.opcIs).trans ?_
  show (do pure (.scmp h (← decP (fD wd)) (← decS (fA wd)) (← decS (fB wd)) (← decICond (fld wd 9 3)) (← decITy (fTy wd))) : Option Instr) = _
  have yc3Is : _ = encICond c := fs.c3Is.trans (by omega)
  simp [fD, fA, fB, fTy, fs.dIs, fs.aIs, fs.bIs, fs.tyIs, yc3Is]

theorem vcmp (h : Hdr) (d : PReg) (a : VS) (b : VS) (c : ICond) (ty : ITy) : Statement (.vcmp h d a b c ty) := by
  have b0 := d.isLt
  have b1 := encP_lt d
  have b2 := encVS_lt a
  have b3 := encVS_lt b
  have b4 := encICond_lt c
  have b5 := encITy_lt ty
  refine ofR rfl (by decide) (by refine ⟨?_, ?_, ?_, ?_, ?_, ?_, ?_⟩ <;> first | omega | decide | simp) fun wd fs =>
    (parse_op h wd fs.opcIs).trans ?_
  show (do pure (.vcmp h (← decP (fD wd)) (← decVS (fA wd)) (← decVS (fB wd)) (← decICond (fld wd 9 3)) (← decITy (fTy wd))) : Option Instr) = _
  have yc3Is : _ = encICond c := fs.c3Is.trans (by omega)
  simp [fD, fA, fB, fTy, fs.dIs, fs.aIs, fs.bIs, fs.tyIs, yc3Is]

theorem vsel (h : Hdr) (d : VReg) (a : VS) (b : VS) (c : PReg) (wide : Bool) : Statement (.vsel h d a b c wide) := by
  have b0 := d.isLt
  have b1 := encV_lt d
  have b2 := encVS_lt a
  have b3 := encVS_lt b
  have b4 := c.isLt
  have b5 := encP_lt c
  have b6 := bit_lt wide
  refine ofR rfl (by decide) (by refine ⟨?_, ?_, ?_, ?_, ?_, ?_, ?_⟩ <;> first | omega | decide | simp) fun wd fs =>
    (parse_op h wd fs.opcIs).trans ?_
  show (do pure (.vsel h (← decV (fD wd)) (← decVS (fA wd)) (← decVS (fB wd)) (← decP (fC wd)) (← decWide (fTy wd))) : Option Instr) = _
  simp [fD, fA, fB, fC, fTy, fs.dIs, fs.aIs, fs.bIs, fs.cIs, fs.tyIs]

theorem smov (h : Hdr) (f : SMovForm) : Statement (.smov h f) := by
  cases f with
  | ss d a =>
    have b0 := d.isLt
    have b1 := encS_lt d
    have b2 := a.isLt
    have b3 := encS_lt a
    refine ofR rfl (by decide) (by refine ⟨?_, ?_, ?_, ?_, ?_, ?_, ?_⟩ <;> first | omega | decide | simp) fun wd fs =>
      (parse_op h wd fs.opcIs).trans ?_
    show ((do pure (.smov h (.ss (← decS (fD wd)) (← decS (fA wd)))))
        <|> (do pure (.smov h (.push (← decQ (fD wd)) (← decS (fA wd)))))
        <|> (do pure (.smov h (.pop (← decS (fD wd)) (← decQ (fA wd))))) : Option Instr) = _
    simp [fD, fA, fs.dIs, fs.aIs]
  | push q a =>
    have b0 := q.isLt
    have b1 := encQ_lt q
    have b2 := a.isLt
    have b3 := encS_lt a
    refine ofR rfl (by decide) (by refine ⟨?_, ?_, ?_, ?_, ?_, ?_, ?_⟩ <;> first | omega | decide | simp) fun wd fs =>
      (parse_op h wd fs.opcIs).trans ?_
    show ((do pure (.smov h (.ss (← decS (fD wd)) (← decS (fA wd)))))
        <|> (do pure (.smov h (.push (← decQ (fD wd)) (← decS (fA wd)))))
        <|> (do pure (.smov h (.pop (← decS (fD wd)) (← decQ (fA wd))))) : Option Instr) = _
    simp [fD, fA, fs.dIs, fs.aIs]
  | pop d q =>
    have b0 := d.isLt
    have b1 := encS_lt d
    have b2 := q.isLt
    have b3 := encQ_lt q
    refine ofR rfl (by decide) (by refine ⟨?_, ?_, ?_, ?_, ?_, ?_, ?_⟩ <;> first | omega | decide | simp) fun wd fs =>
      (parse_op h wd fs.opcIs).trans ?_
    show ((do pure (.smov h (.ss (← decS (fD wd)) (← decS (fA wd)))))
        <|> (do pure (.smov h (.push (← decQ (fD wd)) (← decS (fA wd)))))
        <|> (do pure (.smov h (.pop (← decS (fD wd)) (← decQ (fA wd))))) : Option Instr) = _
    simp [fD, fA, fs.dIs, fs.aIs]

theorem vmov (h : Hdr) (f : VMovForm) (wide : Bool) : Statement (.vmov h f wide) := by
  cases f with
  | vv d a =>
    have b0 := bit_lt wide
    have b1 := d.isLt
    have b2 := encV_lt d
    have b3 := a.isLt
    have b4 := encV_lt a
    refine ofR rfl (by decide) (by refine ⟨?_, ?_, ?_, ?_, ?_, ?_, ?_⟩ <;> first | omega | decide | simp) fun wd fs =>
      (parse_op h wd fs.opcIs).trans ?_
    show (do
      let wide ← decWide (fTy wd)
      (do pure (.vmov h (.vv (← decV (fD wd)) (← decV (fA wd))) wide))
        <|> (do pure (.vmov h (.vs (← decV (fD wd)) (← decS (fA wd))) wide))
        <|> (do pure (.vmov h (.push (← decQ (fD wd)) (← decV (fA wd))) wide))
        <|> (do pure (.vmov h (.pop (← decV (fD wd)) (← decQ (fA wd))) wide)) : Option Instr) = _
    simp [fD, fA, fTy, fs.dIs, fs.aIs, fs.tyIs]
  | vs d a =>
    have b0 := bit_lt wide
    have b1 := d.isLt
    have b2 := encV_lt d
    have b3 := a.isLt
    have b4 := encS_lt a
    refine ofR rfl (by decide) (by refine ⟨?_, ?_, ?_, ?_, ?_, ?_, ?_⟩ <;> first | omega | decide | simp) fun wd fs =>
      (parse_op h wd fs.opcIs).trans ?_
    show (do
      let wide ← decWide (fTy wd)
      (do pure (.vmov h (.vv (← decV (fD wd)) (← decV (fA wd))) wide))
        <|> (do pure (.vmov h (.vs (← decV (fD wd)) (← decS (fA wd))) wide))
        <|> (do pure (.vmov h (.push (← decQ (fD wd)) (← decV (fA wd))) wide))
        <|> (do pure (.vmov h (.pop (← decV (fD wd)) (← decQ (fA wd))) wide)) : Option Instr) = _
    simp [fD, fA, fTy, fs.dIs, fs.aIs, fs.tyIs]
  | push q a =>
    have b0 := bit_lt wide
    have b1 := q.isLt
    have b2 := encQ_lt q
    have b3 := a.isLt
    have b4 := encV_lt a
    refine ofR rfl (by decide) (by refine ⟨?_, ?_, ?_, ?_, ?_, ?_, ?_⟩ <;> first | omega | decide | simp) fun wd fs =>
      (parse_op h wd fs.opcIs).trans ?_
    show (do
      let wide ← decWide (fTy wd)
      (do pure (.vmov h (.vv (← decV (fD wd)) (← decV (fA wd))) wide))
        <|> (do pure (.vmov h (.vs (← decV (fD wd)) (← decS (fA wd))) wide))
        <|> (do pure (.vmov h (.push (← decQ (fD wd)) (← decV (fA wd))) wide))
        <|> (do pure (.vmov h (.pop (← decV (fD wd)) (← decQ (fA wd))) wide)) : Option Instr) = _
    simp [fD, fA, fTy, fs.dIs, fs.aIs, fs.tyIs]
  | pop d q =>
    have b0 := bit_lt wide
    have b1 := d.isLt
    have b2 := encV_lt d
    have b3 := q.isLt
    have b4 := encQ_lt q
    refine ofR rfl (by decide) (by refine ⟨?_, ?_, ?_, ?_, ?_, ?_, ?_⟩ <;> first | omega | decide | simp) fun wd fs =>
      (parse_op h wd fs.opcIs).trans ?_
    show (do
      let wide ← decWide (fTy wd)
      (do pure (.vmov h (.vv (← decV (fD wd)) (← decV (fA wd))) wide))
        <|> (do pure (.vmov h (.vs (← decV (fD wd)) (← decS (fA wd))) wide))
        <|> (do pure (.vmov h (.push (← decQ (fD wd)) (← decV (fA wd))) wide))
        <|> (do pure (.vmov h (.pop (← decV (fD wd)) (← decQ (fA wd))) wide)) : Option Instr) = _
    simp [fD, fA, fTy, fs.dIs, fs.aIs, fs.tyIs]

theorem smovi (h : Hdr) (d : SReg) (high : Bool) (imm : W32) : Statement (.smovi h d high imm) := by
  have b0 := d.isLt
  have b1 := encS_lt d
  have b2 := bit_lt high
  have b3 := imm.isLt
  refine ofI rfl (by decide) (by refine ⟨?_, ?_, ?_⟩ <;> first | omega | decide | simp) fun wd fs =>
    (parse_op h wd fs.opcIs).trans ?_
  show (do pure (.smovi h (← decS (fD wd)) (fld wd 32 1 == 1) (fImm32 wd)) : Option Instr) = _
  simp [fD, fImm32, fs.dIs, fs.xIs, ofNat_low fs.imIs]

theorem vmovi (h : Hdr) (d : VReg) (imm : W32) : Statement (.vmovi h d imm) := by
  have b0 := d.isLt
  have b1 := encV_lt d
  have b2 := imm.isLt
  refine ofI rfl (by decide) (by refine ⟨?_, ?_, ?_⟩ <;> first | omega | decide | simp) fun wd fs =>
    (parse_op h wd fs.opcIs).trans ?_
  show (do pure (.vmovi h (← decV (fD wd)) (fImm32 wd)) : Option Instr) = _
  simp [fD, fImm32, fs.dIs, ofNat_low fs.imIs]

theorem vclz (h : Hdr) (d : VReg) (a : VReg) (wide : Bool) : Statement (.vclz h d a wide) := by
  have b0 := d.isLt
  have b1 := encV_lt d
  have b2 := a.isLt
  have b3 := encV_lt a
  have b4 := bit_lt wide
  refine ofR rfl (by decide) (by refine ⟨?_, ?_, ?_, ?_, ?_, ?_, ?_⟩ <;> first | omega | decide | simp) fun wd fs =>
    (parse_op h wd fs.opcIs).trans ?_
  show (do pure (.vclz h (← decV (fD wd)) (← decV (fA wd)) (← decWide (fTy wd))) : Option Instr) = _
  simp [fD, fA, fTy, fs.dIs, fs.aIs, fs.tyIs]

theorem vpop (h : Hdr) (d : VReg) (a : VReg) (wide : Bool) : Statement (.vpop h d a wide) := by
  have b0 := d.isLt
  have b1 := encV_lt d
  have b2 := a.isLt
  have b3 := encV_lt a
  have b4 := bit_lt wide
  refine ofR rfl (by decide) (by refine ⟨?_, ?_, ?_, ?_, ?_, ?_, ?_⟩ <;> first | omega | decide | simp) fun wd fs =>
    (parse_op h wd fs.opcIs).trans ?_
  show (do pure (.vpop h (← decV (fD wd)) (← decV (fA wd)) (← decWide (fTy wd))) : Option Instr) = _
  simp [fD, fA, fTy, fs.dIs, fs.aIs, fs.tyIs]

theorem vbfx (h : Hdr) (d : VReg) (a : VReg) (pos : Fin 32) (lenm1 : Fin 32) (sgn : Bool) :
    Statement (.vbfx h d a pos lenm1 sgn) := by
  cases sgn with
  | true =>
    have b0 := d.isLt
    have b1 := encV_lt d
    have b2 := a.isLt
    have b3 := encV_lt a
    have b4 := pos.isLt
    have b5 := lenm1.isLt
    refine ofR (opc := 0x43) (d := encV d) (a := encV a) (b := 0) (c := (pos.val * 32 + lenm1.val) / 4)
      (x := (pos.val * 32 + lenm1.val) % 4) (ty := 8) (rnd := 0)
      (by simp only [encode, encR, Option.some.injEq, if_true, Bool.false_eq_true, if_false]; omega) (by decide) (by refine ⟨?_, ?_, ?_, ?_, ?_, ?_, ?_⟩ <;> first | omega | decide | simp) fun wd fs =>
      (parse_op h wd fs.opcIs).trans ?_
    show (do pure (.vbfx h (← decV (fD wd)) (← decV (fA wd)) (← finOf 32 (fld wd 12 5)) (← finOf 32 (fld wd 7 5)) (fTy wd == 8)) : Option Instr) = _
    have ypIs : _ = pos.val := fs.pIs.trans (by omega)
    have ylIs : _ = lenm1.val := fs.lIs.trans (by omega)
    simp [fD, fA, fTy, fs.dIs, fs.aIs, fs.tyIs, ypIs, ylIs]
  | false =>
    have b0 := d.isLt
    have b1 := encV_lt d
    have b2 := a.isLt
    have b3 := encV_lt a
    have b4 := pos.isLt
    have b5 := lenm1.isLt
    refine ofR (opc := 0x43) (d := encV d) (a := encV a) (b := 0) (c := (pos.val * 32 + lenm1.val) / 4)
      (x := (pos.val * 32 + lenm1.val) % 4) (ty := 9) (rnd := 0)
      (by simp only [encode, encR, Option.some.injEq, if_true, Bool.false_eq_true, if_false]; omega) (by decide) (by refine ⟨?_, ?_, ?_, ?_, ?_, ?_, ?_⟩ <;> first | omega | decide | simp) fun wd fs =>
      (parse_op h wd fs.opcIs).trans ?_
    show (do pure (.vbfx h (← decV (fD wd)) (← decV (fA wd)) (← finOf 32 (fld wd 12 5)) (← finOf 32 (fld wd 7 5)) (fTy wd == 8)) : Option Instr) = _
    have ypIs : _ = pos.val := fs.pIs.trans (by omega)
    have ylIs : _ = lenm1.val := fs.lIs.trans (by omega)
    simp [fD, fA, fTy, fs.dIs, fs.aIs, fs.tyIs, ypIs, ylIs]

theorem vbfi (h : Hdr) (d : VReg) (a : VReg) (b : VReg) (pos : Fin 32) (lenm1 : Fin 32) :
    Statement (.vbfi h d a b pos lenm1) := by
  have b0 := d.isLt
  have b1 := encV_lt d
  have b2 := a.isLt
  have b3 := encV_lt a
  have b4 := b.isLt
  have b5 := encV_lt b
  have b6 := pos.isLt
  have b7 := lenm1.isLt
  refine ofR (opc := 0x44) (d := encV d) (a := encV a) (b := encV b) (c := (pos.val * 32 + lenm1.val) / 4)
    (x := (pos.val * 32 + lenm1.val) % 4) (ty := 9) (rnd := 0) (by simp only [encode, encR, Option.some.injEq]; omega) (by decide) (by refine ⟨?_, ?_, ?_, ?_, ?_, ?_, ?_⟩ <;> first | omega | decide | simp) fun wd fs =>
    (parse_op h wd fs.opcIs).trans ?_
  show (do pure (.vbfi h (← decV (fD wd)) (← decV (fA wd)) (← decV (fB wd)) (← finOf 32 (fld wd 12 5)) (← finOf 32 (fld wd 7 5))) : Option Instr) = _
  have ypIs : _ = pos.val := fs.pIs.trans (by omega)
  have ylIs : _ = lenm1.val := fs.lIs.trans (by omega)
  simp [fD, fA, fB, fs.dIs, fs.aIs, fs.bIs, ypIs, ylIs]

theorem vaddc (h : Hdr) (d : VReg) (a : VS) (b : VS) (c : PReg) (sub : Bool) : Statement (.vaddc h d a b c sub) := by
  have b0 := d.isLt
  have b1 := encV_lt d
  have b2 := encVS_lt a
  have b3 := encVS_lt b
  have b4 := c.isLt
  have b5 := encP_lt c
  have b6 := bit_lt sub
  refine ofR rfl (by decide) (by refine ⟨?_, ?_, ?_, ?_, ?_, ?_, ?_⟩ <;> first | omega | decide | simp) fun wd fs =>
    (parse_op h wd fs.opcIs).trans ?_
  show (do pure (.vaddc h (← decV (fD wd)) (← decVS (fA wd)) (← decVS (fB wd)) (← decP (fC wd)) (fld wd 8 1 == 1)) : Option Instr) = _
  simp [fD, fA, fB, fC, fs.dIs, fs.aIs, fs.bIs, fs.cIs, fs.x1Is]

theorem vaddr (h : Hdr) (d : VReg) (a : VS) (b : VReg) (scale : Fin 4) (wide : Bool) :
    Statement (.vaddr h d a b scale wide) := by
  have b0 := d.isLt
  have b1 := encV_lt d
  have b2 := encVS_lt a
  have b3 := b.isLt
  have b4 := encV_lt b
  have b5 := scale.isLt
  have b6 := bit_lt wide
  refine ofR rfl (by decide) (by refine ⟨?_, ?_, ?_, ?_, ?_, ?_, ?_⟩ <;> first | omega | decide | simp) fun wd fs =>
    (parse_op h wd fs.opcIs).trans ?_
  show (do pure (.vaddr h (← decV (fD wd)) (← decVS (fA wd)) (← decV (fB wd)) (← finOf 4 (fX wd)) (← decWide (fTy wd))) : Option Instr) = _
  simp [fD, fA, fB, fX, fTy, fs.dIs, fs.aIs, fs.bIs, fs.xIs, fs.tyIs]

theorem saddi (h : Hdr) (d : SReg) (a : SReg) (wide : Bool) (imm : BitVec 23) : Statement (.saddi h d a wide imm) := by
  have b0 := d.isLt
  have b1 := encS_lt d
  have b2 := a.isLt
  have b3 := encS_lt a
  have b4 := bit_lt wide
  have b5 := imm.isLt
  refine ofRI rfl (by decide) (by refine ⟨?_, ?_, ?_, ?_⟩ <;> first | omega | decide | simp) fun wd fs =>
    (parse_op h wd fs.opcIs).trans ?_
  show (do pure (.saddi h (← decS (fD wd)) (← decS (fA wd)) (← decBool (fld wd 23 2)) (fImm23 wd)) : Option Instr) = _
  simp [fD, fA, fImm23, fs.dIs, fs.aIs, fs.xIs, ofNat_low fs.imIs]

theorem vaddi (h : Hdr) (d : VReg) (a : VReg) (wide : Bool) (imm : BitVec 23) : Statement (.vaddi h d a wide imm) := by
  have b0 := d.isLt
  have b1 := encV_lt d
  have b2 := a.isLt
  have b3 := encV_lt a
  have b4 := bit_lt wide
  have b5 := imm.isLt
  refine ofRI rfl (by decide) (by refine ⟨?_, ?_, ?_, ?_⟩ <;> first | omega | decide | simp) fun wd fs =>
    (parse_op h wd fs.opcIs).trans ?_
  show (do pure (.vaddi h (← decV (fD wd)) (← decV (fA wd)) (← decBool (fld wd 23 2)) (fImm23 wd)) : Option Instr) = _
  simp [fD, fA, fImm23, fs.dIs, fs.aIs, fs.xIs, ofNat_low fs.imIs]

theorem vshuf (h : Hdr) (d : VReg) (a : VReg) (b : VS) (m : Shuf) (wide : Bool) : Statement (.vshuf h d a b m wide) := by
  have b0 := d.isLt
  have b1 := encV_lt d
  have b2 := a.isLt
  have b3 := encV_lt a
  have b4 := encVS_lt b
  have b5 := encShuf_lt m
  have b6 := bit_lt wide
  refine ofR rfl (by decide) (by refine ⟨?_, ?_, ?_, ?_, ?_, ?_, ?_⟩ <;> first | omega | decide | simp) fun wd fs =>
    (parse_op h wd fs.opcIs).trans ?_
  show (do pure (.vshuf h (← decV (fD wd)) (← decV (fA wd)) (← decVS (fB wd)) (decShuf (fX wd)) (← decWide (fTy wd))) : Option Instr) = _
  simp [fD, fA, fB, fX, fTy, fs.dIs, fs.aIs, fs.bIs, fs.xIs, fs.tyIs]

theorem vbcast (h : Hdr) (d : VS) (a : VReg) (b : SReg) (wide : Bool) : Statement (.vbcast h d a b wide) := by
  have b0 := encVS_lt d
  have b1 := a.isLt
  have b2 := encV_lt a
  have b3 := b.isLt
  have b4 := encS_lt b
  have b5 := bit_lt wide
  refine ofR rfl (by decide) (by refine ⟨?_, ?_, ?_, ?_, ?_, ?_, ?_⟩ <;> first | omega | decide | simp) fun wd fs =>
    (parse_op h wd fs.opcIs).trans ?_
  show (do pure (.vbcast h (← decVS (fD wd)) (← decV (fA wd)) (← decS (fB wd)) (← decWide (fTy wd))) : Option Instr) = _
  simp [fD, fA, fB, fTy, fs.dIs, fs.aIs, fs.bIs, fs.tyIs]

theorem vreduce (h : Hdr) (d : VS) (a : VReg) (op : RedOp) (ty : NTy) (rnd : Rnd) :
    Statement (.vreduce h d a op ty rnd) := by
  have b0 := encVS_lt d
  have b1 := a.isLt
  have b2 := encV_lt a
  have b3 := encRed_lt op
  have b4 := encNTy_lt ty
  have b5 := encRnd_lt rnd
  refine ofR rfl (by decide) (by refine ⟨?_, ?_, ?_, ?_, ?_, ?_, ?_⟩ <;> first | omega | decide | simp) fun wd fs =>
    (parse_op h wd fs.opcIs).trans ?_
  show (do pure (.vreduce h (← decVS (fD wd)) (← decV (fA wd)) (← decRed (fld wd 9 3)) (← decNTy (fTy wd)) (decRnd (fRnd wd))) : Option Instr) = _
  have yc3Is : _ = encRed op := fs.c3Is.trans (by omega)
  simp [fD, fA, fTy, fRnd, fs.dIs, fs.aIs, fs.tyIs, fs.rndIs, yc3Is]

theorem vscan (h : Hdr) (d : VReg) (a : VReg) (op : RedOp) (ty : NTy) (rnd : Rnd) :
    Statement (.vscan h d a op ty rnd) := by
  have b0 := d.isLt
  have b1 := encV_lt d
  have b2 := a.isLt
  have b3 := encV_lt a
  have b4 := encRed_lt op
  have b5 := encNTy_lt ty
  have b6 := encRnd_lt rnd
  refine ofR rfl (by decide) (by refine ⟨?_, ?_, ?_, ?_, ?_, ?_, ?_⟩ <;> first | omega | decide | simp) fun wd fs =>
    (parse_op h wd fs.opcIs).trans ?_
  show (do pure (.vscan h (← decV (fD wd)) (← decV (fA wd)) (← decRed (fld wd 9 3)) (← decNTy (fTy wd)) (decRnd (fRnd wd))) : Option Instr) = _
  have yc3Is : _ = encRed op := fs.c3Is.trans (by omega)
  simp [fD, fA, fTy, fRnd, fs.dIs, fs.aIs, fs.tyIs, fs.rndIs, yc3Is]

theorem fadd (h : Hdr) (d : VReg) (a : VS) (b : VS) (ty : FTy) (rnd : Rnd) : Statement (.fadd h d a b ty rnd) := by
  have b0 := d.isLt
  have b1 := encV_lt d
  have b2 := encVS_lt a
  have b3 := encVS_lt b
  have b4 := encFTy_lt8 ty
  have b5 := encRnd_lt rnd
  refine ofR rfl (by decide) (by refine ⟨?_, ?_, ?_, ?_, ?_, ?_, ?_⟩ <;> first | omega | decide | simp) fun wd fs =>
    (parse_op h wd fs.opcIs).trans ?_
  show (decF2 wd (.fadd h) : Option Instr) = _
  simp [decF2, fD, fA, fB, fTy, fRnd, fs.dIs, fs.aIs, fs.bIs, fs.tyIs, fs.rndIs]

theorem fsub (h : Hdr) (d : VReg) (a : VS) (b : VS) (ty : FTy) (rnd : Rnd) : Statement (.fsub h d a b ty rnd) := by
  have b0 := d.isLt
  have b1 := encV_lt d
  have b2 := encVS_lt a
  have b3 := encVS_lt b
  have b4 := encFTy_lt8 ty
  have b5 := encRnd_lt rnd
  refine ofR rfl (by decide) (by refine ⟨?_, ?_, ?_, ?_, ?_, ?_, ?_⟩ <;> first | omega | decide | simp) fun wd fs =>
    (parse_op h wd fs.opcIs).trans ?_
  show (decF2 wd (.fsub h) : Option Instr) = _
  simp [decF2, fD, fA, fB, fTy, fRnd, fs.dIs, fs.aIs, fs.bIs, fs.tyIs, fs.rndIs]

theorem fmul (h : Hdr) (d : VReg) (a : VS) (b : VS) (ty : FTy) (rnd : Rnd) : Statement (.fmul h d a b ty rnd) := by
  have b0 := d.isLt
  have b1 := encV_lt d
  have b2 := encVS_lt a
  have b3 := encVS_lt b
  have b4 := encFTy_lt8 ty
  have b5 := encRnd_lt rnd
  refine ofR rfl (by decide) (by refine ⟨?_, ?_, ?_, ?_, ?_, ?_, ?_⟩ <;> first | omega | decide | simp) fun wd fs =>
    (parse_op h wd fs.opcIs).trans ?_
  show (decF2 wd (.fmul h) : Option Instr) = _
  simp [decF2, fD, fA, fB, fTy, fRnd, fs.dIs, fs.aIs, fs.bIs, fs.tyIs, fs.rndIs]

theorem ffma (h : Hdr) (d : VReg) (a : VS) (b : VS) (c : VS) (ty : FTy) (rnd : Rnd) :
    Statement (.ffma h d a b c ty rnd) := by
  have b0 := d.isLt
  have b1 := encV_lt d
  have b2 := encVS_lt a
  have b3 := encVS_lt b
  have b4 := encVS_lt c
  have b5 := encFTy_lt8 ty
  have b6 := encRnd_lt rnd
  refine ofR rfl (by decide) (by refine ⟨?_, ?_, ?_, ?_, ?_, ?_, ?_⟩ <;> first | omega | decide | simp) fun wd fs =>
    (parse_op h wd fs.opcIs).trans ?_
  show (decF3 wd (.ffma h) : Option Instr) = _
  simp [decF3, fD, fA, fB, fC, fTy, fRnd, fs.dIs, fs.aIs, fs.bIs, fs.cIs, fs.tyIs, fs.rndIs]

theorem fmin (h : Hdr) (d : VReg) (a : VS) (b : VS) (ty : FTy) (ftz : Bool) : Statement (.fmin h d a b ty ftz) := by
  have b0 := d.isLt
  have b1 := encV_lt d
  have b2 := encVS_lt a
  have b3 := encVS_lt b
  have b4 := encFTy_lt8 ty
  have b5 := bit_lt ftz
  refine ofR rfl (by decide) (by refine ⟨?_, ?_, ?_, ?_, ?_, ?_, ?_⟩ <;> first | omega | decide | simp) fun wd fs =>
    (parse_op h wd fs.opcIs).trans ?_
  show (decF2 wd fun d a b t r => .fmin h d a b t r.ftz : Option Instr) = _
  simp [decF2, fD, fA, fB, fTy, fRnd, fs.dIs, fs.aIs, fs.bIs, fs.tyIs, fs.rndIs]

theorem fmax (h : Hdr) (d : VReg) (a : VS) (b : VS) (ty : FTy) (ftz : Bool) : Statement (.fmax h d a b ty ftz) := by
  have b0 := d.isLt
  have b1 := encV_lt d
  have b2 := encVS_lt a
  have b3 := encVS_lt b
  have b4 := encFTy_lt8 ty
  have b5 := bit_lt ftz
  refine ofR rfl (by decide) (by refine ⟨?_, ?_, ?_, ?_, ?_, ?_, ?_⟩ <;> first | omega | decide | simp) fun wd fs =>
    (parse_op h wd fs.opcIs).trans ?_
  show (decF2 wd fun d a b t r => .fmax h d a b t r.ftz : Option Instr) = _
  simp [decF2, fD, fA, fB, fTy, fRnd, fs.dIs, fs.aIs, fs.bIs, fs.tyIs, fs.rndIs]

theorem fcmp (h : Hdr) (d : PReg) (a : VS) (b : VS) (c : FCond) (ftz : Bool) : Statement (.fcmp h d a b c ftz) := by
  have b0 := d.isLt
  have b1 := encP_lt d
  have b2 := encVS_lt a
  have b3 := encVS_lt b
  have b4 := encFCond_lt c
  have b5 := bit_lt ftz
  refine ofR rfl (by decide) (by refine ⟨?_, ?_, ?_, ?_, ?_, ?_, ?_⟩ <;> first | omega | decide | simp) fun wd fs =>
    (parse_op h wd fs.opcIs).trans ?_
  show (do pure (.fcmp h (← decP (fD wd)) (← decVS (fA wd)) (← decVS (fB wd)) (decFCond (fld wd 9 3)) (decRnd (fRnd wd)).ftz) : Option Instr) = _
  have yc3Is : _ = encFCond c := fs.c3Is.trans (by omega)
  simp [fD, fA, fB, fRnd, fs.dIs, fs.aIs, fs.bIs, fs.rndIs, yc3Is]

theorem frcp (h : Hdr) (d : VReg) (a : VS) (rnd : Rnd) : Statement (.frcp h d a rnd) := by
  have b0 := d.isLt
  have b1 := encV_lt d
  have b2 := encVS_lt a
  have b3 := encRnd_lt rnd
  refine ofR rfl (by decide) (by refine ⟨?_, ?_, ?_, ?_, ?_, ?_, ?_⟩ <;> first | omega | decide | simp) fun wd fs =>
    (parse_op h wd fs.opcIs).trans ?_
  show (decF1 wd fun d a _ r => .frcp h d a r : Option Instr) = _
  simp [decF1, fD, fA, fTy, fRnd, fs.dIs, fs.aIs, fs.tyIs, fs.rndIs]

theorem frsq (h : Hdr) (d : VReg) (a : VS) (rnd : Rnd) : Statement (.frsq h d a rnd) := by
  have b0 := d.isLt
  have b1 := encV_lt d
  have b2 := encVS_lt a
  have b3 := encRnd_lt rnd
  refine ofR rfl (by decide) (by refine ⟨?_, ?_, ?_, ?_, ?_, ?_, ?_⟩ <;> first | omega | decide | simp) fun wd fs =>
    (parse_op h wd fs.opcIs).trans ?_
  show (decF1 wd fun d a _ r => .frsq h d a r : Option Instr) = _
  simp [decF1, fD, fA, fTy, fRnd, fs.dIs, fs.aIs, fs.tyIs, fs.rndIs]

theorem fexp2 (h : Hdr) (d : VReg) (a : VS) (rnd : Rnd) : Statement (.fexp2 h d a rnd) := by
  have b0 := d.isLt
  have b1 := encV_lt d
  have b2 := encVS_lt a
  have b3 := encRnd_lt rnd
  refine ofR rfl (by decide) (by refine ⟨?_, ?_, ?_, ?_, ?_, ?_, ?_⟩ <;> first | omega | decide | simp) fun wd fs =>
    (parse_op h wd fs.opcIs).trans ?_
  show (decF1 wd fun d a _ r => .fexp2 h d a r : Option Instr) = _
  simp [decF1, fD, fA, fTy, fRnd, fs.dIs, fs.aIs, fs.tyIs, fs.rndIs]

theorem flog2 (h : Hdr) (d : VReg) (a : VS) (rnd : Rnd) : Statement (.flog2 h d a rnd) := by
  have b0 := d.isLt
  have b1 := encV_lt d
  have b2 := encVS_lt a
  have b3 := encRnd_lt rnd
  refine ofR rfl (by decide) (by refine ⟨?_, ?_, ?_, ?_, ?_, ?_, ?_⟩ <;> first | omega | decide | simp) fun wd fs =>
    (parse_op h wd fs.opcIs).trans ?_
  show (decF1 wd fun d a _ r => .flog2 h d a r : Option Instr) = _
  simp [decF1, fD, fA, fTy, fRnd, fs.dIs, fs.aIs, fs.tyIs, fs.rndIs]

theorem fscos (h : Hdr) (d : VReg) (a : VS) (rnd : Rnd) : Statement (.fscos h d a rnd) := by
  have b0 := d.isLt
  have b1 := encV_lt d
  have b2 := encVS_lt a
  have b3 := encRnd_lt rnd
  refine ofR rfl (by decide) (by refine ⟨?_, ?_, ?_, ?_, ?_, ?_, ?_⟩ <;> first | omega | decide | simp) fun wd fs =>
    (parse_op h wd fs.opcIs).trans ?_
  show (decF1 wd fun d a _ r => .fscos h d a r : Option Instr) = _
  simp [decF1, fD, fA, fTy, fRnd, fs.dIs, fs.aIs, fs.tyIs, fs.rndIs]

theorem fcvt (h : Hdr) (d : VReg) (a : VS) (src : NTy) (dst : NTy) (sel : Fin 4) (rnd : Rnd) :
    Statement (.fcvt h d a src dst sel rnd) := by
  have b0 := d.isLt
  have b1 := encV_lt d
  have b2 := encVS_lt a
  have b3 := encNTy_lt src
  have b4 := encNTy_lt dst
  have b5 := sel.isLt
  have b6 := encRnd_lt rnd
  refine ofR rfl (by decide) (by refine ⟨?_, ?_, ?_, ?_, ?_, ?_, ?_⟩ <;> first | omega | decide | simp) fun wd fs =>
    (parse_op h wd fs.opcIs).trans ?_
  show (do pure (.fcvt h (← decV (fD wd)) (← decVS (fA wd)) (← decNTy (fld wd 9 4)) (← decNTy (fTy wd)) (← finOf 4 (fX wd)) (decRnd (fRnd wd))) : Option Instr) = _
  have yc4Is : _ = encNTy src := fs.c4Is.trans (by omega)
  simp [fD, fA, fX, fTy, fRnd, fs.dIs, fs.aIs, fs.xIs, fs.tyIs, fs.rndIs, yc4Is]

theorem frnd (h : Hdr) (d : VReg) (a : VS) (ty : FTy) (rnd : Rnd) : Statement (.frnd h d a ty rnd) := by
  have b0 := d.isLt
  have b1 := encV_lt d
  have b2 := encVS_lt a
  have b3 := encFTy_lt8 ty
  have b4 := encRnd_lt rnd
  refine ofR rfl (by decide) (by refine ⟨?_, ?_, ?_, ?_, ?_, ?_, ?_⟩ <;> first | omega | decide | simp) fun wd fs =>
    (parse_op h wd fs.opcIs).trans ?_
  show (decF1 wd (.frnd h) : Option Instr) = _
  simp [decF1, fD, fA, fTy, fRnd, fs.dIs, fs.aIs, fs.tyIs, fs.rndIs]

theorem fclass (h : Hdr) (d : VReg) (a : VS) (ty : FTy) : Statement (.fclass h d a ty) := by
  have b0 := d.isLt
  have b1 := encV_lt d
  have b2 := encVS_lt a
  have b3 := encFTy_lt8 ty
  refine ofR rfl (by decide) (by refine ⟨?_, ?_, ?_, ?_, ?_, ?_, ?_⟩ <;> first | omega | decide | simp) fun wd fs =>
    (parse_op h wd fs.opcIs).trans ?_
  show (decF1 wd fun d a t _ => .fclass h d a t : Option Instr) = _
  simp [decF1, fD, fA, fTy, fRnd, fs.dIs, fs.aIs, fs.tyIs, fs.rndIs]

theorem fdot2 (h : Hdr) (d : VReg) (a : VS) (b : VS) (c : VS) (ty : FTy) (rnd : Rnd) :
    Statement (.fdot2 h d a b c ty rnd) := by
  have b0 := d.isLt
  have b1 := encV_lt d
  have b2 := encVS_lt a
  have b3 := encVS_lt b
  have b4 := encVS_lt c
  have b5 := encFTy_lt8 ty
  have b6 := encRnd_lt rnd
  refine ofR rfl (by decide) (by refine ⟨?_, ?_, ?_, ?_, ?_, ?_, ?_⟩ <;> first | omega | decide | simp) fun wd fs =>
    (parse_op h wd fs.opcIs).trans ?_
  show (decF3 wd (.fdot2 h) : Option Instr) = _
  simp [decF3, fD, fA, fB, fC, fTy, fRnd, fs.dIs, fs.aIs, fs.bIs, fs.cIs, fs.tyIs, fs.rndIs]

theorem fcmul (h : Hdr) (d : VReg) (a : VS) (b : VS) (ty : FTy) (rnd : Rnd) : Statement (.fcmul h d a b ty rnd) := by
  have b0 := d.isLt
  have b1 := encV_lt d
  have b2 := encVS_lt a
  have b3 := encVS_lt b
  have b4 := encFTy_lt8 ty
  have b5 := encRnd_lt rnd
  refine ofR rfl (by decide) (by refine ⟨?_, ?_, ?_, ?_, ?_, ?_, ?_⟩ <;> first | omega | decide | simp) fun wd fs =>
    (parse_op h wd fs.opcIs).trans ?_
  show (decF2 wd (.fcmul h) : Option Instr) = _
  simp [decF2, fD, fA, fB, fTy, fRnd, fs.dIs, fs.aIs, fs.bIs, fs.tyIs, fs.rndIs]

theorem fbfly (h : Hdr) (d : VReg) (a : VS) (b : VS) (c : VS) (ty : FTy) (rnd : Rnd) :
    Statement (.fbfly h d a b c ty rnd) := by
  have b0 := d.isLt
  have b1 := encV_lt d
  have b2 := encVS_lt a
  have b3 := encVS_lt b
  have b4 := encVS_lt c
  have b5 := encFTy_lt8 ty
  have b6 := encRnd_lt rnd
  refine ofR rfl (by decide) (by refine ⟨?_, ?_, ?_, ?_, ?_, ?_, ?_⟩ <;> first | omega | decide | simp) fun wd fs =>
    (parse_op h wd fs.opcIs).trans ?_
  show (decF3 wd (.fbfly h) : Option Instr) = _
  simp [decF3, fD, fA, fB, fC, fTy, fRnd, fs.dIs, fs.aIs, fs.bIs, fs.cIs, fs.tyIs, fs.rndIs]

theorem ftwid (h : Hdr) (d : VReg) (a : VS) (b : VS) (rnd : Rnd) : Statement (.ftwid h d a b rnd) := by
  have b0 := d.isLt
  have b1 := encV_lt d
  have b2 := encVS_lt a
  have b3 := encVS_lt b
  have b4 := encRnd_lt rnd
  refine ofR rfl (by decide) (by refine ⟨?_, ?_, ?_, ?_, ?_, ?_, ?_⟩ <;> first | omega | decide | simp) fun wd fs =>
    (parse_op h wd fs.opcIs).trans ?_
  show (decF2 wd fun d a b _ r => .ftwid h d a b r : Option Instr) = _
  simp [decF2, fD, fA, fB, fTy, fRnd, fs.dIs, fs.aIs, fs.bIs, fs.tyIs, fs.rndIs]

theorem csum (h : Hdr) (d : SReg) (a : SReg) (b : VReg) (wide : Bool) : Statement (.csum h d a b wide) := by
  have b0 := d.isLt
  have b1 := encS_lt d
  have b2 := a.isLt
  have b3 := encS_lt a
  have b4 := b.isLt
  have b5 := encV_lt b
  have b6 := bit_lt wide
  refine ofR rfl (by decide) (by refine ⟨?_, ?_, ?_, ?_, ?_, ?_, ?_⟩ <;> first | omega | decide | simp) fun wd fs =>
    (parse_op h wd fs.opcIs).trans ?_
  show (do pure (.csum h (← decS (fD wd)) (← decS (fA wd)) (← decV (fB wd)) (← decWide (fTy wd))) : Option Instr) = _
  simp [fD, fA, fB, fTy, fs.dIs, fs.aIs, fs.bIs, fs.tyIs]

theorem ld (h : Hdr) (data : VS) (addr : VS) (sp : Space) (ord : Order) (sz : Size) (sx : Bool) (off : BitVec 16) :
    Statement (.ld h data addr sp ord sz sx off) := by
  have b0 := encVS_lt data
  have b1 := encVS_lt addr
  have b2 := encSpace_lt sp
  have b3 := encOrder_lt ord
  have b4 := encSize_lt sz
  have b5 := bit_lt sx
  have b6 := off.isLt
  refine ofM rfl (by decide) (by refine ⟨?_, ?_, ?_, ?_, ?_, ?_, ?_⟩ <;> first | omega | decide | simp) fun wd fs =>
    (parse_op h wd fs.opcIs).trans ?_
  show (do pure (.ld h (← decVS (fD wd)) (← decVS (fA wd)) (← decSpace (fld wd 22 3)) (decOrder (fld wd 20 2)) (← decSize (fld wd 17 3)) (fld wd 16 1 == 1) (fTail wd)) : Option Instr) = _
  simp [fD, fA, fTail, fs.dataIs, fs.addrIs, fs.spIs, fs.ordIs, fs.szIs, fs.sxIs, ofNat_low fs.tailIs]

theorem st (h : Hdr) (data : VS) (addr : VS) (sp : Space) (ord : Order) (sz : Size) (off : BitVec 16) :
    Statement (.st h data addr sp ord sz off) := by
  have b0 := encVS_lt data
  have b1 := encVS_lt addr
  have b2 := encSpace_lt sp
  have b3 := encOrder_lt ord
  have b4 := encSize_lt sz
  have b5 := off.isLt
  refine ofM rfl (by decide) (by refine ⟨?_, ?_, ?_, ?_, ?_, ?_, ?_⟩ <;> first | omega | decide | simp) fun wd fs =>
    (parse_op h wd fs.opcIs).trans ?_
  show (do pure (.st h (← decVS (fD wd)) (← decVS (fA wd)) (← decSpace (fld wd 22 3)) (decOrder (fld wd 20 2)) (← decSize (fld wd 17 3)) (fTail wd)) : Option Instr) = _
  simp [fD, fA, fTail, fs.dataIs, fs.addrIs, fs.spIs, fs.ordIs, fs.szIs, ofNat_low fs.tailIs]

theorem atom (h : Hdr) (data : VS) (addr : VS) (sp : Space) (ord : Order) (sz : Size) (sx : Bool) (b : VS) (op : AOp) (ft : Fin 3) :
    Statement (.atom h data addr sp ord sz sx b op ft) := by
  have b0 := encVS_lt data
  have b1 := encVS_lt addr
  have b2 := encSpace_lt sp
  have b3 := encOrder_lt ord
  have b4 := encSize_lt sz
  have b5 := bit_lt sx
  have b6 := encVS_lt b
  have b7 := encAOp_lt op
  have b8 := ft.isLt
  refine ofM rfl (by decide) (by refine ⟨?_, ?_, ?_, ?_, ?_, ?_, ?_⟩ <;> first | omega | decide | simp) fun wd fs =>
    (parse_op h wd fs.opcIs).trans ?_
  show (do pure (.atom h (← decVS (fD wd)) (← decVS (fA wd)) (← decSpace (fld wd 22 3)) (decOrder (fld wd 20 2)) (← decSize (fld wd 17 3)) (fld wd 16 1 == 1) (← decVS (fld wd 8 8)) (← decAOp (fld wd 4 4)) (← finOf 3 (fld wd 0 4))) : Option Instr) = _
  have yhiIs : _ = encVS b := fs.hiIs.trans (by omega)
  have ymidIs : _ = encAOp op := fs.midIs.trans (by omega)
  have ylo4Is : _ = ft.val := fs.lo4Is.trans (by omega)
  simp [fD, fA, fs.dataIs, fs.addrIs, fs.spIs, fs.ordIs, fs.szIs, fs.sxIs, yhiIs, ymidIs, ylo4Is]

theorem red (h : Hdr) (data : VS) (addr : VS) (sp : Space) (ord : Order) (sz : Size) (sx : Bool) (op : AOp) (ft : Fin 3) :
    Statement (.red h data addr sp ord sz sx op ft) := by
  have b0 := encVS_lt data
  have b1 := encVS_lt addr
  have b2 := encSpace_lt sp
  have b3 := encOrder_lt ord
  have b4 := encSize_lt sz
  have b5 := bit_lt sx
  have b6 := encAOp_lt op
  have b7 := ft.isLt
  refine ofM rfl (by decide) (by refine ⟨?_, ?_, ?_, ?_, ?_, ?_, ?_⟩ <;> first | omega | decide | simp) fun wd fs =>
    (parse_op h wd fs.opcIs).trans ?_
  show (do pure (.red h (← decVS (fD wd)) (← decVS (fA wd)) (← decSpace (fld wd 22 3)) (decOrder (fld wd 20 2)) (← decSize (fld wd 17 3)) (fld wd 16 1 == 1) (← decAOp (fld wd 4 4)) (← finOf 3 (fld wd 0 4))) : Option Instr) = _
  have ymidIs : _ = encAOp op := fs.midIs.trans (by omega)
  have ylo4Is : _ = ft.val := fs.lo4Is.trans (by omega)
  simp [fD, fA, fs.dataIs, fs.addrIs, fs.spIs, fs.ordIs, fs.szIs, fs.sxIs, ymidIs, ylo4Is]

theorem fence (h : Hdr) (ord : Order) : Statement (.fence h ord) := by
  have b0 := encOrder_lt ord
  refine ofM rfl (by decide) (by refine ⟨?_, ?_, ?_, ?_, ?_, ?_, ?_⟩ <;> first | omega | decide | simp) fun wd fs =>
    (parse_op h wd fs.opcIs).trans ?_
  show (some (.fence h (decOrder (fld wd 20 2))) : Option Instr) = _
  simp [fs.ordIs]

theorem prf (h : Hdr) (l2 : Bool) (addr : VS) (off : BitVec 16) : Statement (.prf h l2 addr off) := by
  have b0 := bit_lt l2
  have b1 := encVS_lt addr
  have b2 := off.isLt
  refine ofM rfl (by decide) (by refine ⟨?_, ?_, ?_, ?_, ?_, ?_, ?_⟩ <;> first | omega | decide | simp) fun wd fs =>
    (parse_op h wd fs.opcIs).trans ?_
  show (do pure (.prf h (← decBool (fD wd)) (← decVS (fA wd)) (fTail wd)) : Option Instr) = _
  simp [fD, fA, fTail, fs.dataIs, fs.addrIs, ofNat_low fs.tailIs]

theorem vld (h : Hdr) (d : VReg) (w : WReg) (ord : Order) (sz : Size) (sx : Bool) (idx : VS) (p : Option PReg) :
    Statement (.vld h d w ord sz sx idx p) := by
  cases p with
  | none =>
    have b0 := d.isLt
    have b1 := encV_lt d
    have b2 := w.isLt
    have b3 := encW_lt w
    have b4 := encOrder_lt ord
    have b5 := encSize_lt sz
    have b6 := bit_lt sx
    have b7 := encVS_lt idx
    refine ofM (tail := encVS idx * 2 ^ 8 + 0) rfl (by decide) (by refine ⟨?_, ?_, ?_, ?_, ?_, ?_, ?_⟩ <;> first | omega | decide | simp) fun wd fs =>
      (parse_op h wd fs.opcIs).trans ?_
    show (do pure (.vld h (← decV (fD wd)) (← decW (fA wd)) (decOrder (fld wd 20 2)) (← decSize (fld wd 17 3)) (fld wd 16 1 == 1) (← decVS (fld wd 8 8)) (← if fld wd 0 8 = 0 then some none else (decP (fld wd 0 8)).map some)) : Option Instr) = _
    have yhiIs : _ = encVS idx := fs.hiIs.trans (by omega)
    have ylo8Is : _ = 0 := fs.lo8Is.trans (by omega)
    simp [fD, fA, fs.dataIs, fs.addrIs, fs.ordIs, fs.szIs, fs.sxIs, yhiIs, ylo8Is]
  | some r =>
    have b0 := d.isLt
    have b1 := encV_lt d
    have b2 := w.isLt
    have b3 := encW_lt w
    have b4 := encOrder_lt ord
    have b5 := encSize_lt sz
    have b6 := bit_lt sx
    have b7 := encVS_lt idx
    have b8 := r.isLt
    have b9 := encP_lt r
    refine ofM (tail := encVS idx * 2 ^ 8 + encP r) rfl (by decide) (by refine ⟨?_, ?_, ?_, ?_, ?_, ?_, ?_⟩ <;> first | omega | decide | simp) fun wd fs =>
      (parse_op h wd fs.opcIs).trans ?_
    show (do pure (.vld h (← decV (fD wd)) (← decW (fA wd)) (decOrder (fld wd 20 2)) (← decSize (fld wd 17 3)) (fld wd 16 1 == 1) (← decVS (fld wd 8 8)) (← if fld wd 0 8 = 0 then some none else (decP (fld wd 0 8)).map some)) : Option Instr) = _
    have yhiIs : _ = encVS idx := fs.hiIs.trans (by omega)
    have ylo8Is : _ = encP r := fs.lo8Is.trans (by omega)
    simp [fD, fA, fs.dataIs, fs.addrIs, fs.ordIs, fs.szIs, fs.sxIs, yhiIs, ylo8Is, show encP r ≠ 0 by unfold encP; omega]

theorem vst (h : Hdr) (d : VReg) (w : WReg) (ord : Order) (sz : Size) (idx : VS) : Statement (.vst h d w ord sz idx) := by
  have b0 := d.isLt
  have b1 := encV_lt d
  have b2 := w.isLt
  have b3 := encW_lt w
  have b4 := encOrder_lt ord
  have b5 := encSize_lt sz
  have b6 := encVS_lt idx
  refine ofM rfl (by decide) (by refine ⟨?_, ?_, ?_, ?_, ?_, ?_, ?_⟩ <;> first | omega | decide | simp) fun wd fs =>
    (parse_op h wd fs.opcIs).trans ?_
  show (do pure (.vst h (← decV (fD wd)) (← decW (fA wd)) (decOrder (fld wd 20 2)) (← decSize (fld wd 17 3)) (← decVS (fld wd 8 8))) : Option Instr) = _
  have yhiIs : _ = encVS idx := fs.hiIs.trans (by omega)
  simp [fD, fA, fs.dataIs, fs.addrIs, fs.ordIs, fs.szIs, yhiIs]

theorem vwset (h : Hdr) (d : WReg) (a : SReg) : Statement (.vwset h d a) := by
  have b0 := d.isLt
  have b1 := encW_lt d
  have b2 := a.isLt
  have b3 := encS_lt a
  refine ofR rfl (by decide) (by refine ⟨?_, ?_, ?_, ?_, ?_, ?_, ?_⟩ <;> first | omega | decide | simp) fun wd fs =>
    (parse_op h wd fs.opcIs).trans ?_
  show (do pure (.vwset h (← decW (fD wd)) (← decS (fA wd))) : Option Instr) = _
  simp [fD, fA, fs.dIs, fs.aIs]

theorem vwadj (h : Hdr) (d : WReg) (a : WReg) (b : SReg) (dim : Fin 4) (f : AdjField) :
    Statement (.vwadj h d a b dim f) := by
  have b0 := d.isLt
  have b1 := encW_lt d
  have b2 := a.isLt
  have b3 := encW_lt a
  have b4 := b.isLt
  have b5 := encS_lt b
  have b6 := dim.isLt
  have b7 := encAdj_lt f
  refine ofR rfl (by decide) (by refine ⟨?_, ?_, ?_, ?_, ?_, ?_, ?_⟩ <;> first | omega | decide | simp) fun wd fs =>
    (parse_op h wd fs.opcIs).trans ?_
  show (do pure (.vwadj h (← decW (fD wd)) (← decW (fA wd)) (← decS (fB wd)) (← finOf 4 (fld wd 11 2)) (decAdj (fld wd 9 2))) : Option Instr) = _
  have yb2Is : _ = dim.val := fs.b2Is.trans (by omega)
  have ya2Is : _ = encAdj f := fs.a2Is.trans (by omega)
  simp [fD, fA, fB, fs.dIs, fs.aIs, fs.bIs, yb2Is, ya2Is]

theorem vret (h : Hdr) (d : WReg) : Statement (.vret h d) := by
  have b0 := d.isLt
  have b1 := encW_lt d
  refine ofR rfl (by decide) (by refine ⟨?_, ?_, ?_, ?_, ?_, ?_, ?_⟩ <;> first | omega | decide | simp) fun wd fs =>
    (parse_op h wd fs.opcIs).trans ?_
  show (do pure (.vret h (← decW (fD wd))) : Option Instr) = _
  simp [fD, fs.dIs]

theorem tdset (h : Hdr) (a : SReg) (b : SReg) : Statement (.tdset h a b) := by
  have b0 := a.isLt
  have b1 := encS_lt a
  have b2 := b.isLt
  have b3 := encS_lt b
  refine ofR rfl (by decide) (by refine ⟨?_, ?_, ?_, ?_, ?_, ?_, ?_⟩ <;> first | omega | decide | simp) fun wd fs =>
    (parse_op h wd fs.opcIs).trans ?_
  show (do pure (.tdset h (← decS (fA wd)) (← decS (fB wd))) : Option Instr) = _
  simp [fA, fB, fs.aIs, fs.bIs]

theorem copy (h : Hdr) (a : WReg) (b : WReg) (c : SReg) : Statement (.copy h a b c) := by
  have b0 := a.isLt
  have b1 := encW_lt a
  have b2 := b.isLt
  have b3 := encW_lt b
  have b4 := c.isLt
  have b5 := encS_lt c
  refine ofE rfl (by decide) (by refine ⟨?_, ?_, ?_, ?_⟩ <;> first | omega | decide | simp) fun wd fs =>
    (parse_op h wd fs.opcIs).trans ?_
  show (do
      let a ← decW (fD wd)
      let b ← decW (fA wd)
      let c ← decS (fB wd)
      pure (if fld wd 0 1 = 1 then .copyR h a b c else .copy h a b c) : Option Instr) = _
  simp [fD, fA, fB, fs.aIs, fs.bIs, fs.cIs, fs.x1Is]

theorem copyR (h : Hdr) (a : WReg) (b : WReg) (c : SReg) : Statement (.copyR h a b c) := by
  have b0 := a.isLt
  have b1 := encW_lt a
  have b2 := b.isLt
  have b3 := encW_lt b
  have b4 := c.isLt
  have b5 := encS_lt c
  refine ofE rfl (by decide) (by refine ⟨?_, ?_, ?_, ?_⟩ <;> first | omega | decide | simp) fun wd fs =>
    (parse_op h wd fs.opcIs).trans ?_
  show (do
      let a ← decW (fD wd)
      let b ← decW (fA wd)
      let c ← decS (fB wd)
      pure (if fld wd 0 1 = 1 then .copyR h a b c else .copy h a b c) : Option Instr) = _
  simp [fD, fA, fB, fs.aIs, fs.bIs, fs.cIs, fs.x1Is]

theorem copym (h : Hdr) (a : WReg) (b : SReg) (c : SReg) : Statement (.copym h a b c) := by
  have b0 := a.isLt
  have b1 := encW_lt a
  have b2 := b.isLt
  have b3 := encS_lt b
  have b4 := c.isLt
  have b5 := encS_lt c
  refine ofE rfl (by decide) (by refine ⟨?_, ?_, ?_, ?_⟩ <;> first | omega | decide | simp) fun wd fs =>
    (parse_op h wd fs.opcIs).trans ?_
  show (do pure (.copym h (← decW (fD wd)) (← decS (fA wd)) (← decS (fB wd))) : Option Instr) = _
  simp [fD, fA, fB, fs.aIs, fs.bIs, fs.cIs]

theorem chain (h : Hdr) (a : SReg) (b : SReg) (c : SReg) : Statement (.chain h a b c) := by
  have b0 := a.isLt
  have b1 := encS_lt a
  have b2 := b.isLt
  have b3 := encS_lt b
  have b4 := c.isLt
  have b5 := encS_lt c
  refine ofE rfl (by decide) (by refine ⟨?_, ?_, ?_, ?_⟩ <;> first | omega | decide | simp) fun wd fs =>
    (parse_op h wd fs.opcIs).trans ?_
  show (do pure (.chain h (← decS (fD wd)) (← decS (fA wd)) (← decS (fB wd))) : Option Instr) = _
  simp [fD, fA, fB, fs.aIs, fs.bIs, fs.cIs]

theorem ring (h : Hdr) (a : SReg) (b : SReg) (nm1 : Fin 256) : Statement (.ring h a b nm1) := by
  have b0 := a.isLt
  have b1 := encS_lt a
  have b2 := b.isLt
  have b3 := encS_lt b
  have b4 := nm1.isLt
  refine ofE rfl (by decide) (by refine ⟨?_, ?_, ?_, ?_⟩ <;> first | omega | decide | simp) fun wd fs =>
    (parse_op h wd fs.opcIs).trans ?_
  show (do pure (.ring h (← decS (fD wd)) (← decS (fA wd)) (← finOf 256 (fld wd 0 8))) : Option Instr) = _
  have yx8Is : _ = nm1.val := fs.x8Is.trans (by omega)
  simp [fD, fA, fs.aIs, fs.bIs, yx8Is]

theorem fwait (h : Hdr) (a : SReg) (b : SReg) (nt : Bool) : Statement (.fwait h a b nt) := by
  have b0 := a.isLt
  have b1 := encS_lt a
  have b2 := b.isLt
  have b3 := encS_lt b
  have b4 := bit_lt nt
  refine ofE rfl (by decide) (by refine ⟨?_, ?_, ?_, ?_⟩ <;> first | omega | decide | simp) fun wd fs =>
    (parse_op h wd fs.opcIs).trans ?_
  show (do pure (.fwait h (← decS (fD wd)) (← decS (fA wd)) (fld wd 0 1 == 1)) : Option Instr) = _
  have yx1Is : _ = bit nt := fs.x1Is.trans (by omega)
  simp [fD, fA, fs.aIs, fs.bIs, yx1Is]

theorem frel (h : Hdr) (b : SReg) : Statement (.frel h b) := by
  have b0 := b.isLt
  have b1 := encS_lt b
  refine ofE rfl (by decide) (by refine ⟨?_, ?_, ?_, ?_⟩ <;> first | omega | decide | simp) fun wd fs =>
    (parse_op h wd fs.opcIs).trans ?_
  show (do pure (.frel h (← decS (fA wd))) : Option Instr) = _
  simp [fA, fs.bIs]

theorem ftest (h : Hdr) (a : PReg) (b : SReg) : Statement (.ftest h a b) := by
  have b0 := a.isLt
  have b1 := encP_lt a
  have b2 := b.isLt
  have b3 := encS_lt b
  refine ofE rfl (by decide) (by refine ⟨?_, ?_, ?_, ?_⟩ <;> first | omega | decide | simp) fun wd fs =>
    (parse_op h wd fs.opcIs).trans ?_
  show (do pure (.ftest h (← decP (fD wd)) (← decS (fA wd))) : Option Instr) = _
  simp [fD, fA, fs.aIs, fs.bIs]

theorem gath (h : Hdr) (d : Option VReg) (idx : VReg) (c : SReg) (p : PReg) (sz : Fin 3) :
    Statement (.gath h d idx c p sz) := by
  cases d with
  | none =>
    have b0 := idx.isLt
    have b1 := encV_lt idx
    have b2 := c.isLt
    have b3 := encS_lt c
    have b4 := p.isLt
    have b5 := encP_lt p
    have b6 := sz.isLt
    refine ofE rfl (by decide) (by refine ⟨?_, ?_, ?_, ?_⟩ <;> first | omega | decide | simp) fun wd fs =>
      (parse_op h wd fs.opcIs).trans ?_
    show (do pure (.gath h (← if fld wd 11 1 = 1 then some none else (decV (fD wd)).map some) (← decV (fA wd)) (← decS (fB wd)) (← finOf 96 (fld wd 4 7)) (← finOf 3 (fld wd 2 2))) : Option Instr) = _
    have yx111Is : _ = 1 := fs.x111Is.trans (by omega)
    have yx47Is : _ = p.val := fs.x47Is.trans (by omega)
    have yx22Is : _ = sz.val := fs.x22Is.trans (by omega)
    simp [fD, fA, fB, fs.aIs, fs.bIs, fs.cIs, yx111Is, yx47Is, yx22Is]
  | some r =>
    have b0 := idx.isLt
    have b1 := encV_lt idx
    have b2 := c.isLt
    have b3 := encS_lt c
    have b4 := p.isLt
    have b5 := encP_lt p
    have b6 := sz.isLt
    have b7 := r.isLt
    have b8 := encV_lt r
    refine ofE rfl (by decide) (by refine ⟨?_, ?_, ?_, ?_⟩ <;> first | omega | decide | simp) fun wd fs =>
      (parse_op h wd fs.opcIs).trans ?_
    show (do pure (.gath h (← if fld wd 11 1 = 1 then some none else (decV (fD wd)).map some) (← decV (fA wd)) (← decS (fB wd)) (← finOf 96 (fld wd 4 7)) (← finOf 3 (fld wd 2 2))) : Option Instr) = _
    have yx111Is : _ = 0 := fs.x111Is.trans (by omega)
    have yx47Is : _ = p.val := fs.x47Is.trans (by omega)
    have yx22Is : _ = sz.val := fs.x22Is.trans (by omega)
    simp [fD, fA, fB, fs.aIs, fs.bIs, fs.cIs, yx111Is, yx47Is, yx22Is]

theorem scat (h : Hdr) (d : VReg) (idx : VReg) (c : SReg) (sz : Fin 3) : Statement (.scat h d idx c sz) := by
  have b0 := d.isLt
  have b1 := encV_lt d
  have b2 := idx.isLt
  have b3 := encV_lt idx
  have b4 := c.isLt
  have b5 := encS_lt c
  have b6 := sz.isLt
  refine ofE rfl (by decide) (by refine ⟨?_, ?_, ?_, ?_⟩ <;> first | omega | decide | simp) fun wd fs =>
    (parse_op h wd fs.opcIs).trans ?_
  show (do pure (.scat h (← decV (fD wd)) (← decV (fA wd)) (← decS (fB wd)) (← finOf 3 (fld wd 2 2))) : Option Instr) = _
  have yx22Is : _ = sz.val := fs.x22Is.trans (by omega)
  simp [fD, fA, fB, fs.aIs, fs.bIs, fs.cIs, yx22Is]

theorem qbind (h : Hdr) (q : QReg) (s : SReg) (kind : Fin 6) : Statement (.qbind h q s kind) := by
  have b0 := q.isLt
  have b1 := encQ_lt q
  have b2 := s.isLt
  have b3 := encS_lt s
  have b4 := kind.isLt
  refine ofE rfl (by decide) (by refine ⟨?_, ?_, ?_, ?_⟩ <;> first | omega | decide | simp) fun wd fs =>
    (parse_op h wd fs.opcIs).trans ?_
  show (do pure (.qbind h (← decQ (fD wd)) (← decS (fA wd)) (← finOf 6 (fld wd 8 4))) : Option Instr) = _
  have yx84Is : _ = kind.val := fs.x84Is.trans (by omega)
  simp [fD, fA, fs.aIs, fs.bIs, yx84Is]

theorem qtry (h : Hdr) (d : VS) (q : QReg) (p : PReg) (wide : Bool) : Statement (.qtry h d q p wide) := by
  have b0 := encVS_lt d
  have b1 := q.isLt
  have b2 := encQ_lt q
  have b3 := p.isLt
  have b4 := encP_lt p
  have b5 := bit_lt wide
  refine ofE rfl (by decide) (by refine ⟨?_, ?_, ?_, ?_⟩ <;> first | omega | decide | simp) fun wd fs =>
    (parse_op h wd fs.opcIs).trans ?_
  show (do pure (.qtry h (← decVS (fD wd)) (← decQ (fA wd)) (← decP (fB wd)) (fld wd 11 1 == 1)) : Option Instr) = _
  have yx111Is : _ = bit wide := fs.x111Is.trans (by omega)
  simp [fD, fA, fB, fs.aIs, fs.bIs, fs.cIs, yx111Is]

theorem mlda (h : Hdr) (a : Fin 8) (c : SReg) (sa : VReg) (sb : VReg) (bsel : Fin 4) (fmt : WFmt) (sp : MSpace) :
    Statement (.mlda h a c sa sb bsel fmt sp) := by
  have b0 := a.isLt
  have b1 := c.isLt
  have b2 := encS_lt c
  have b3 := sa.isLt
  have b4 := encV_lt sa
  have b5 := sb.isLt
  have b6 := encV_lt sb
  have b7 := bsel.isLt
  have b8 := encWFmt_lt fmt
  have b9 := encMSpace_lt sp
  refine ofX rfl (by decide) (by refine ⟨?_, ?_, ?_, ?_, ?_, ?_, ?_, ?_⟩ <;> first | omega | decide | simp) fun wd fs =>
    (parse_op h wd fs.opcIs).trans ?_
  show (do pure (.mlda h (← finOf 8 (fld wd 35 3)) (← decS (fld wd 27 8)) (← decV (fld wd 19 8)) (← decV (fld wd 11 8)) (← finOf 4 (fld wd 5 2)) (← decWFmt (fld wd 2 3)) (← decMSpace (fld wd 0 2))) : Option Instr) = _
  have yx23Is : _ = encWFmt fmt := fs.x23Is.trans (by omega)
  have yx2Is : _ = encMSpace sp := fs.x2Is.trans (by omega)
  simp [fs.aIs, fs.cIs, fs.saIs, fs.sbIs, fs.bselIs, yx23Is, yx2Is]

theorem plane (h : Hdr) (c : SReg) (sa : SReg) (sb : SReg) (src : PSrc) : Statement (.plane h c sa sb src) := by
  have b0 := c.isLt
  have b1 := encS_lt c
  have b2 := sa.isLt
  have b3 := encS_lt sa
  have b4 := sb.isLt
  have b5 := encS_lt sb
  have b6 := encPSrc_lt src
  refine ofX rfl (by decide) (by refine ⟨?_, ?_, ?_, ?_, ?_, ?_, ?_, ?_⟩ <;> first | omega | decide | simp) fun wd fs =>
    (parse_op h wd fs.opcIs).trans ?_
  show (do pure (.plane h (← decS (fld wd 27 8)) (← decS (fld wd 19 8)) (← decS (fld wd 11 8)) (← decPSrc (fld wd 0 5))) : Option Instr) = _
  simp [fs.cIs, fs.saIs, fs.sbIs, fs.x5Is]

theorem mma (h : Hdr) (z : Fin 8) (a : Fin 8) (c : SReg) (sa : VReg) (sb : VReg) (planes : Fin 16) (bsel : Fin 4) (nkbm1 : Fin 8) (scl : Bool) (outl : Bool) :
    Statement (.mma h z a c sa sb planes bsel nkbm1 scl outl) := by
  have b0 := z.isLt
  have b1 := a.isLt
  have b2 := c.isLt
  have b3 := encS_lt c
  have b4 := sa.isLt
  have b5 := encV_lt sa
  have b6 := sb.isLt
  have b7 := encV_lt sb
  have b8 := planes.isLt
  have b9 := bsel.isLt
  have b10 := nkbm1.isLt
  have b11 := bit_lt scl
  have b12 := bit_lt outl
  refine ofX rfl (by decide) (by refine ⟨?_, ?_, ?_, ?_, ?_, ?_, ?_, ?_⟩ <;> first | omega | decide | simp) fun wd fs =>
    (parse_op h wd fs.opcIs).trans ?_
  show (do pure (.mma h (← finOf 8 (fld wd 38 3)) (← finOf 8 (fld wd 35 3)) (← decS (fld wd 27 8)) (← decV (fld wd 19 8)) (← decV (fld wd 11 8)) (← finOf 16 (fld wd 7 4)) (← finOf 4 (fld wd 5 2)) (← finOf 8 (fld wd 2 3)) (fld wd 1 1 == 1) (fld wd 0 1 == 1)) : Option Instr) = _
  have yx23Is : _ = nkbm1.val := fs.x23Is.trans (by omega)
  have yx11Is : _ = bit scl := fs.x11Is.trans (by omega)
  have yx1Is : _ = bit outl := fs.x1Is.trans (by omega)
  simp [fs.zIs, fs.aIs, fs.cIs, fs.saIs, fs.sbIs, fs.planesIs, fs.bselIs, yx23Is, yx11Is, yx1Is]

theorem moutl (h : Hdr) (c : SReg) : Statement (.moutl h c) := by
  have b0 := c.isLt
  have b1 := encS_lt c
  refine ofX rfl (by decide) (by refine ⟨?_, ?_, ?_, ?_, ?_, ?_, ?_, ?_⟩ <;> first | omega | decide | simp) fun wd fs =>
    (parse_op h wd fs.opcIs).trans ?_
  show (do pure (.moutl h (← decS (fld wd 27 8))) : Option Instr) = _
  simp [fs.cIs]

theorem zclr (h : Hdr) (tile : Bool) (n : Fin 8) : Statement (.zclr h tile n) := by
  cases tile with
  | true =>
    have b0 := n.isLt
    refine ofX rfl (by decide) (by refine ⟨?_, ?_, ?_, ?_, ?_, ?_, ?_, ?_⟩ <;> first | omega | decide | simp) fun wd fs =>
      (parse_op h wd fs.opcIs).trans ?_
    show (if fld wd 0 1 = 1 then do pure (.zclr h true (← finOf 8 (fld wd 35 3))) else do pure (.zclr h false (← finOf 8 (fld wd 38 3))) : Option Instr) = _
    simp [fs.x1Is, fs.aIs, fs.zIs]
  | false =>
    have b0 := n.isLt
    refine ofX rfl (by decide) (by refine ⟨?_, ?_, ?_, ?_, ?_, ?_, ?_, ?_⟩ <;> first | omega | decide | simp) fun wd fs =>
      (parse_op h wd fs.opcIs).trans ?_
    show (if fld wd 0 1 = 1 then do pure (.zclr h true (← finOf 8 (fld wd 35 3))) else do pure (.zclr h false (← finOf 8 (fld wd 38 3))) : Option Instr) = _
    simp [fs.x1Is, fs.aIs, fs.zIs]

theorem zld (h : Hdr) (z : Fin 8) (c : SReg) (tr : Bool) (sp : MSpace) : Statement (.zld h z c tr sp) := by
  have b0 := z.isLt
  have b1 := c.isLt
  have b2 := encS_lt c
  have b3 := bit_lt tr
  have b4 := encMSpace_lt sp
  refine ofX rfl (by decide) (by refine ⟨?_, ?_, ?_, ?_, ?_, ?_, ?_, ?_⟩ <;> first | omega | decide | simp) fun wd fs =>
    (parse_op h wd fs.opcIs).trans ?_
  show (do pure (.zld h (← finOf 8 (fld wd 38 3)) (← decS (fld wd 27 8)) (fld wd 2 1 == 1) (← decMSpace (fld wd 0 2))) : Option Instr) = _
  have yx21Is : _ = bit tr := fs.x21Is.trans (by omega)
  have yx2Is : _ = encMSpace sp := fs.x2Is.trans (by omega)
  simp [fs.zIs, fs.cIs, yx21Is, yx2Is]

theorem zst (h : Hdr) (z : Fin 8) (free : Bool) (c : SReg) (fmt : ZFmt) (tr : Bool) (sp : MSpace) :
    Statement (.zst h z free c fmt tr sp) := by
  have b0 := z.isLt
  have b1 := bit_lt free
  have b2 := c.isLt
  have b3 := encS_lt c
  have b4 := encZFmt_lt fmt
  have b5 := bit_lt tr
  have b6 := encMSpace_lt sp
  refine ofX rfl (by decide) (by refine ⟨?_, ?_, ?_, ?_, ?_, ?_, ?_, ?_⟩ <;> first | omega | decide | simp) fun wd fs =>
    (parse_op h wd fs.opcIs).trans ?_
  show (do pure (.zst h (← finOf 8 (fld wd 38 3)) (fld wd 35 1 == 1) (← decS (fld wd 27 8)) (decZFmt (fld wd 3 2)) (fld wd 2 1 == 1) (← decMSpace (fld wd 0 2))) : Option Instr) = _
  have yx32Is : _ = encZFmt fmt := fs.x32Is.trans (by omega)
  have yx21Is : _ = bit tr := fs.x21Is.trans (by omega)
  have yx2Is : _ = encMSpace sp := fs.x2Is.trans (by omega)
  have ya1Is : _ = bit free := fs.a1Is.trans (by omega)
  simp [fs.zIs, ya1Is, fs.cIs, yx32Is, yx21Is, yx2Is]

theorem zmap (h : Hdr) (z : Fin 8) (a : Fin 8) (c : SReg) (op : ZOp) : Statement (.zmap h z a c op) := by
  have k1 := z.isLt
  have k2 := a.isLt
  have k3 := encS_lt c
  have k4 := encZOp_lt op
  intro wf
  have hc : op ≠ .scale → c = 0 := by
    intro ne
    simp only [Instr.wf, Bool.or_eq_true, beq_iff_eq] at wf
    rcases wf with e | e
    · exact absurd e ne
    · exact Fin.ext e
  refine ofX rfl (by decide) (by
    refine ⟨?_, ?_, ?_, ?_, ?_, ?_, ?_, ?_⟩ <;> first | omega | (split <;> omega) | simp) (fun wd fs =>
    (parse_op h wd fs.opcIs).trans ?_) wf
  show (do
      let z ← finOf 8 (fld wd 38 3)
      let a ← finOf 8 (fld wd 35 3)
      let op ← decZOp (fld wd 2 3)
      if op = .scale then pure (.zmap h z a (← decS (fld wd 27 8)) op) else pure (.zmap h z a 0 op) : Option Instr) = _
  have yx : _ = encZOp op := fs.x23Is.trans (by omega)
  by_cases e : op = .scale
  · subst e; simp [fs.zIs, fs.aIs, yx, fs.cIs]
  · have hc := hc e
    subst hc
    simp [fs.zIs, fs.aIs, yx, e]

theorem binit (h : Hdr) (a : SReg) (b : Fin 128) : Statement (.binit h a b) := by
  have b0 := a.isLt
  have b1 := encS_lt a
  have b2 := b.isLt
  refine ofR rfl (by decide) (by refine ⟨?_, ?_, ?_, ?_, ?_, ?_, ?_⟩ <;> first | omega | decide | simp) fun wd fs =>
    (parse_op h wd fs.opcIs).trans ?_
  show (do pure (.binit h (← decS (fA wd)) (← finOf 128 (fC wd))) : Option Instr) = _
  simp [fA, fC, fs.aIs, fs.cIs]

theorem barr (h : Hdr) (d : SReg) (b : Fin 128) : Statement (.barr h d b) := by
  have b0 := d.isLt
  have b1 := encS_lt d
  have b2 := b.isLt
  refine ofR rfl (by decide) (by refine ⟨?_, ?_, ?_, ?_, ?_, ?_, ?_⟩ <;> first | omega | decide | simp) fun wd fs =>
    (parse_op h wd fs.opcIs).trans ?_
  show (do pure (.barr h (← decS (fD wd)) (← finOf 128 (fC wd))) : Option Instr) = _
  simp [fD, fC, fs.dIs, fs.cIs]

theorem bwait (h : Hdr) (a : SReg) (b : Fin 128) : Statement (.bwait h a b) := by
  have b0 := a.isLt
  have b1 := encS_lt a
  have b2 := b.isLt
  refine ofR rfl (by decide) (by refine ⟨?_, ?_, ?_, ?_, ?_, ?_, ?_⟩ <;> first | omega | decide | simp) fun wd fs =>
    (parse_op h wd fs.opcIs).trans ?_
  show (do pure (.bwait h (← decS (fA wd)) (← finOf 128 (fC wd))) : Option Instr) = _
  simp [fA, fC, fs.aIs, fs.cIs]

theorem bsync (h : Hdr) (b : Fin 128) : Statement (.bsync h b) := by
  have b0 := b.isLt
  refine ofR rfl (by decide) (by refine ⟨?_, ?_, ?_, ?_, ?_, ?_, ?_⟩ <;> first | omega | decide | simp) fun wd fs =>
    (parse_op h wd fs.opcIs).trans ?_
  show (do pure (.bsync h (← finOf 128 (fC wd))) : Option Instr) = _
  simp [fC, fs.cIs]

theorem bexp (h : Hdr) (a : SReg) (b : Fin 128) : Statement (.bexp h a b) := by
  have b0 := a.isLt
  have b1 := encS_lt a
  have b2 := b.isLt
  refine ofR rfl (by decide) (by refine ⟨?_, ?_, ?_, ?_, ?_, ?_, ?_⟩ <;> first | omega | decide | simp) fun wd fs =>
    (parse_op h wd fs.opcIs).trans ?_
  show (do pure (.bexp h (← decS (fA wd)) (← finOf 128 (fC wd))) : Option Instr) = _
  simp [fA, fC, fs.aIs, fs.cIs]

theorem attn (h : Hdr) (z : Fin 8) (c : SReg) (planes : Fin 16) (mass : Bool) (causal : Bool) (bias : Bool) (rowinc : Bool) :
    Statement (.attn h z c planes mass causal bias rowinc) := by
  have b0 := z.isLt
  have b1 := c.isLt
  have b2 := encS_lt c
  have b3 := planes.isLt
  have b4 := bit_lt mass
  have b5 := bit_lt causal
  have b6 := bit_lt bias
  have b7 := bit_lt rowinc
  refine ofX rfl (by decide) (by refine ⟨?_, ?_, ?_, ?_, ?_, ?_, ?_, ?_⟩ <;> first | omega | decide | simp) fun wd fs =>
    (parse_op h wd fs.opcIs).trans ?_
  show (do pure (.attn h (← finOf 8 (fld wd 38 3)) (← decS (fld wd 27 8)) (← finOf 16 (fld wd 7 4)) (fld wd 4 1 == 1) (fld wd 3 1 == 1) (fld wd 2 1 == 1) (fld wd 1 1 == 1)) : Option Instr) = _
  have yx41Is : _ = bit mass := fs.x41Is.trans (by omega)
  have yx31Is : _ = bit causal := fs.x31Is.trans (by omega)
  have yx21Is : _ = bit bias := fs.x21Is.trans (by omega)
  have yx11Is : _ = bit rowinc := fs.x11Is.trans (by omega)
  simp [fs.zIs, fs.cIs, fs.planesIs, yx41Is, yx31Is, yx21Is, yx11Is]

theorem kvapp (h : Hdr) (a : SReg) (b : SReg) (c : SReg) (sp : MSpace) : Statement (.kvapp h a b c sp) := by
  have b0 := a.isLt
  have b1 := encS_lt a
  have b2 := b.isLt
  have b3 := encS_lt b
  have b4 := c.isLt
  have b5 := encS_lt c
  have b6 := encMSpace_lt sp
  refine ofE rfl (by decide) (by refine ⟨?_, ?_, ?_, ?_⟩ <;> first | omega | decide | simp) fun wd fs =>
    (parse_op h wd fs.opcIs).trans ?_
  show (do pure (.kvapp h (← decS (fD wd)) (← decS (fA wd)) (← decS (fB wd)) (← decMSpace (fld wd 0 2))) : Option Instr) = _
  have yx2Is : _ = encMSpace sp := fs.x2Is.trans (by omega)
  simp [fD, fA, fB, fs.aIs, fs.bIs, fs.cIs, yx2Is]

theorem kvevt (h : Hdr) (a : SReg) (stack : Fin 4) : Statement (.kvevt h a stack) := by
  have b0 := a.isLt
  have b1 := encS_lt a
  have b2 := stack.isLt
  refine ofE rfl (by decide) (by refine ⟨?_, ?_, ?_, ?_⟩ <;> first | omega | decide | simp) fun wd fs =>
    (parse_op h wd fs.opcIs).trans ?_
  show (do pure (.kvevt h (← decS (fD wd)) (← finOf 4 (fld wd 0 2))) : Option Instr) = _
  have yx2Is : _ = stack.val := fs.x2Is.trans (by omega)
  simp [fD, fs.aIs, yx2Is]

theorem watch (h : Hdr) (d : SReg) (b : SReg) (c : SReg) : Statement (.watch h d b c) := by
  have b0 := d.isLt
  have b1 := encS_lt d
  have b2 := b.isLt
  have b3 := encS_lt b
  have b4 := c.isLt
  have b5 := encS_lt c
  refine ofE rfl (by decide) (by refine ⟨?_, ?_, ?_, ?_⟩ <;> first | omega | decide | simp) fun wd fs =>
    (parse_op h wd fs.opcIs).trans ?_
  show (do pure (.watch h (← decS (fD wd)) (← decS (fA wd)) (← decS (fB wd))) : Option Instr) = _
  simp [fD, fA, fB, fs.aIs, fs.bIs, fs.cIs]

theorem unwatch (h : Hdr) (d : SReg) (b : SReg) : Statement (.unwatch h d b) := by
  have b0 := d.isLt
  have b1 := encS_lt d
  have b2 := b.isLt
  have b3 := encS_lt b
  refine ofE rfl (by decide) (by refine ⟨?_, ?_, ?_, ?_⟩ <;> first | omega | decide | simp) fun wd fs =>
    (parse_op h wd fs.opcIs).trans ?_
  show (do pure (.unwatch h (← decS (fD wd)) (← decS (fA wd))) : Option Instr) = _
  simp [fD, fA, fs.aIs, fs.bIs]

theorem wpark (h : Hdr) (d : VReg) (b : SReg) (c : SReg) (p : PReg) : Statement (.wpark h d b c p) := by
  have b0 := d.isLt
  have b1 := encV_lt d
  have b2 := b.isLt
  have b3 := encS_lt b
  have b4 := c.isLt
  have b5 := encS_lt c
  have b6 := p.isLt
  have b7 := encP_lt p
  refine ofE rfl (by decide) (by refine ⟨?_, ?_, ?_, ?_⟩ <;> first | omega | decide | simp) fun wd fs =>
    (parse_op h wd fs.opcIs).trans ?_
  show (do pure (.wpark h (← decV (fD wd)) (← decS (fA wd)) (← decS (fB wd)) (← finOf 96 (fld wd 4 7))) : Option Instr) = _
  have yx47Is : _ = p.val := fs.x47Is.trans (by omega)
  simp [fD, fA, fB, fs.aIs, fs.bIs, fs.cIs, yx47Is]

theorem launchGrid (h : Hdr) (d : SReg) (b : SReg) (c : Option SReg) : Statement (.launchGrid h d b c) := by
  cases c with
  | none =>
    have b0 := d.isLt
    have b1 := encS_lt d
    have b2 := b.isLt
    have b3 := encS_lt b
    refine ofE rfl (by decide) (by refine ⟨?_, ?_, ?_, ?_⟩ <;> first | omega | decide | simp) fun wd fs =>
      (parse_op h wd fs.opcIs).trans ?_
    show (if fld wd 0 1 = 1 then do pure (.launchRecord h (← decS (fD wd)) (← decV (fA wd)))
            else do
              let d ← decS (fD wd)
              let b ← decS (fA wd)
              let c ← if fB wd = 0 then some none else (decS (fB wd)).map some
              pure (.launchGrid h d b c) : Option Instr) = _
    simp [fD, fA, fB, fs.aIs, fs.bIs, fs.cIs, fs.x1Is]
  | some r =>
    have b0 := d.isLt
    have b1 := encS_lt d
    have b2 := b.isLt
    have b3 := encS_lt b
    have b4 := r.isLt
    have b5 := encS_lt r
    refine ofE rfl (by decide) (by refine ⟨?_, ?_, ?_, ?_⟩ <;> first | omega | decide | simp) fun wd fs =>
      (parse_op h wd fs.opcIs).trans ?_
    show (if fld wd 0 1 = 1 then do pure (.launchRecord h (← decS (fD wd)) (← decV (fA wd)))
            else do
              let d ← decS (fD wd)
              let b ← decS (fA wd)
              let c ← if fB wd = 0 then some none else (decS (fB wd)).map some
              pure (.launchGrid h d b c) : Option Instr) = _
    simp [fD, fA, fB, fs.aIs, fs.bIs, fs.cIs, fs.x1Is, show encS r ≠ 0 by unfold encS; omega]

theorem launchRecord (h : Hdr) (a : SReg) (b : VReg) : Statement (.launchRecord h a b) := by
  have b0 := a.isLt
  have b1 := encS_lt a
  have b2 := b.isLt
  have b3 := encV_lt b
  refine ofE rfl (by decide) (by refine ⟨?_, ?_, ?_, ?_⟩ <;> first | omega | decide | simp) fun wd fs =>
    (parse_op h wd fs.opcIs).trans ?_
  show (if fld wd 0 1 = 1 then do pure (.launchRecord h (← decS (fD wd)) (← decV (fA wd)))
            else do
              let d ← decS (fD wd)
              let b ← decS (fA wd)
              let c ← if fB wd = 0 then some none else (decS (fB wd)).map some
              pure (.launchGrid h d b c) : Option Instr) = _
  simp [fD, fA, fB, fs.aIs, fs.bIs, fs.cIs, fs.x1Is]

theorem srd (h : Hdr) (d : VS) (high : Bool) (r : Sr) : Statement (.srd h d high r) := by
  have b0 := encVS_lt d
  have b1 := bit_lt high
  have b2 := encSr_lt r
  refine ofRI rfl (by decide) (by refine ⟨?_, ?_, ?_, ?_⟩ <;> first | omega | decide | simp) fun wd fs =>
    (parse_op h wd fs.opcIs).trans ?_
  show (do pure (.srd h (← decVS (fD wd)) (← decBool (fld wd 23 2)) (← decSr (fld wd 0 23))) : Option Instr) = _
  simp [fD, fs.dIs, fs.xIs, fs.immIs]

theorem swr (h : Hdr) (a : SReg) : Statement (.swr h a) := by
  have b0 := a.isLt
  have b1 := encS_lt a
  refine ofRI rfl (by decide) (by refine ⟨?_, ?_, ?_, ?_⟩ <;> first | omega | decide | simp) fun wd fs =>
    (parse_op h wd fs.opcIs).trans ?_
  show (do pure (.swr h (← decS (fA wd))) : Option Instr) = _
  simp [fA, fs.aIs]

theorem wkadd (h : Hdr) (a : SReg) (dom : Fin 16) : Statement (.wkadd h a dom) := by
  have b0 := a.isLt
  have b1 := encS_lt a
  have b2 := dom.isLt
  refine ofR rfl (by decide) (by refine ⟨?_, ?_, ?_, ?_, ?_, ?_, ?_⟩ <;> first | omega | decide | simp) fun wd fs =>
    (parse_op h wd fs.opcIs).trans ?_
  show (do pure (.wkadd h (← decS (fA wd)) (← finOf 16 (fld wd 9 4))) : Option Instr) = _
  have yc4Is : _ = dom.val := fs.c4Is.trans (by omega)
  simp [fA, fs.aIs, yc4Is]

theorem wkdone (h : Hdr) (dom : Fin 16) : Statement (.wkdone h dom) := by
  have b0 := dom.isLt
  refine ofR rfl (by decide) (by refine ⟨?_, ?_, ?_, ?_, ?_, ?_, ?_⟩ <;> first | omega | decide | simp) fun wd fs =>
    (parse_op h wd fs.opcIs).trans ?_
  show (do pure (.wkdone h (← finOf 16 (fld wd 9 4))) : Option Instr) = _
  have yc4Is : _ = dom.val := fs.c4Is.trans (by omega)
  simp [yc4Is]

theorem trap (h : Hdr) (imm : W32) : Statement (.trap h imm) := by
  have b0 := imm.isLt
  refine ofI rfl (by decide) (by refine ⟨?_, ?_, ?_⟩ <;> first | omega | decide | simp) fun wd fs =>
    (parse_op h wd fs.opcIs).trans ?_
  show (some (.trap h (fImm32 wd)) : Option Instr) = _
  simp [fImm32, ofNat_low fs.imIs]

theorem tret (h : Hdr) : Statement (.tret h) := by
  refine ofR rfl (by decide) (by refine ⟨?_, ?_, ?_, ?_, ?_, ?_, ?_⟩ <;> first | omega | decide | simp) fun wd fs =>
    (parse_op h wd fs.opcIs).trans ?_
  show (some (.tret h) : Option Instr) = _
  rfl

theorem halt (h : Hdr) (a : SReg) : Statement (.halt h a) := by
  have b0 := a.isLt
  have b1 := encS_lt a
  refine ofR rfl (by decide) (by refine ⟨?_, ?_, ?_, ?_, ?_, ?_, ?_⟩ <;> first | omega | decide | simp) fun wd fs =>
    (parse_op h wd fs.opcIs).trans ?_
  show (do pure (.halt h (← decS (fA wd))) : Option Instr) = _
  simp [fA, fs.aIs]

theorem bkpt (h : Hdr) (imm : W32) : Statement (.bkpt h imm) := by
  have b0 := imm.isLt
  refine ofI rfl (by decide) (by refine ⟨?_, ?_, ?_⟩ <;> first | omega | decide | simp) fun wd fs =>
    (parse_op h wd fs.opcIs).trans ?_
  show (some (.bkpt h (fImm32 wd)) : Option Instr) = _
  simp [fImm32, ofNat_low fs.imIs]

theorem icacheLineFill (core : Nat) (line : Nat) : Statement (.icacheLineFill core line) := of_event rfl

theorem fixedLatencyWrite (p : Party) (k : Nat) : Statement (.fixedLatencyWrite p k) := of_event rfl

theorem sliceRelease (core : Nat) (slice : Nat) : Statement (.sliceRelease core slice) := of_event rfl

theorem readResponse (id : Nat) (how : Nat) : Statement (.readResponse id how) := of_event rfl

theorem storePerform (id : Nat) : Statement (.storePerform id) := of_event rfl

theorem heldWriteRelease (id : Nat) : Statement (.heldWriteRelease id) := of_event rfl

theorem revocation (id : Nat) (core : Nat) : Statement (.revocation id core) := of_event rfl

theorem writeAcknowledge (id : Nat) : Statement (.writeAcknowledge id) := of_event rfl

theorem atomicPerform (id : Nat) : Statement (.atomicPerform id) := of_event rfl

theorem pageWalk (stack : Nat) (k : Nat) : Statement (.pageWalk stack k) := of_event rfl

theorem pendingBitOr (k : Nat) : Statement (.pendingBitOr k) := of_event rfl

theorem spillRingDrain (slice : Nat) : Statement (.spillRingDrain slice) := of_event rfl

theorem recordHandoff (slice : Nat) (k : Nat) : Statement (.recordHandoff slice k) := of_event rfl

theorem poolTimerLapse (ctx : Nat) (pool : Nat) : Statement (.poolTimerLapse ctx pool) := of_event rfl

theorem placementDecision (stack : Nat) : Statement (.placementDecision stack) := of_event rfl

theorem remoteStackOffer (gang : Nat) : Statement (.remoteStackOffer gang) := of_event rfl

theorem priorityAging (ctx : Nat) (pool : Nat) : Statement (.priorityAging ctx pool) := of_event rfl

theorem gangReserve (stack : Nat) : Statement (.gangReserve stack) := of_event rfl

theorem timeSliceEnd (part : Nat) (ctx : Nat) (next : Nat) : Statement (.timeSliceEnd part ctx next) := of_event rfl

theorem forcedFreeze (p : Party) : Statement (.forcedFreeze p) := of_event rfl

theorem blockSave (core : Nat) (uid : Nat) : Statement (.blockSave core uid) := of_event rfl

theorem blockRestore (ctx : Nat) (k : Nat) (core : Nat) : Statement (.blockRestore ctx k core) := of_event rfl

theorem countedTeamDone (k : Nat) : Statement (.countedTeamDone k) := of_event rfl

theorem embersTokenPass (ctx : Nat) (dom : Nat) : Statement (.embersTokenPass ctx dom) := of_event rfl

theorem queueMoveComplete (p : Party) : Statement (.queueMoveComplete p) := of_event rfl

theorem refillWaitEnd (p : Party) : Statement (.refillWaitEnd p) := of_event rfl

theorem messageFlitAccept (k : Nat) : Statement (.messageFlitAccept k) := of_event rfl

theorem ringReserveRetry (p : Party) : Statement (.ringReserveRetry p) := of_event rfl

theorem engineComplete (id : Nat) : Statement (.engineComplete id) := of_event rfl

theorem chainRecord (stack : Nat) (chan : Nat) : Statement (.chainRecord stack chan) := of_event rfl

theorem gatherRowFetch (id : Nat) (addr : Nat) : Statement (.gatherRowFetch id addr) := of_event rfl

theorem fwaitReturn (p : Party) : Statement (.fwaitReturn p) := of_event rfl

theorem entryClaim (id : Nat) : Statement (.entryClaim id) := of_event rfl

theorem kvappExecute (id : Nat) : Statement (.kvappExecute id) := of_event rfl

theorem strikeCommand (stack : Nat) : Statement (.strikeCommand stack) := of_event rfl

theorem strikeRcDrain (stack : Nat) : Statement (.strikeRcDrain stack) := of_event rfl

theorem attnComplete (core : Nat) : Statement (.attnComplete core) := of_event rfl

theorem mmaAccumulatorWrite (core : Nat) : Statement (.mmaAccumulatorWrite core) := of_event rfl

theorem barrierArrival (core : Nat) (k : Nat) : Statement (.barrierArrival core k) := of_event rfl

theorem barrierCycle (core : Nat) : Statement (.barrierCycle core) := of_event rfl

theorem barrierWaitEnd (p : Party) : Statement (.barrierWaitEnd p) := of_event rfl

theorem wparkDeliver (p : Party) : Statement (.wparkDeliver p) := of_event rfl

theorem wparkLapse (p : Party) : Statement (.wparkLapse p) := of_event rfl

theorem partitionHalt (part : Nat) : Statement (.partitionHalt part) := of_event rfl

theorem stopRecordWrite (part : Nat) (unit : Nat) : Statement (.stopRecordWrite part unit) := of_event rfl

theorem watchdog (part : Nat) (unit : Nat) : Statement (.watchdog part unit) := of_event rfl

theorem partitionReset (part : Nat) : Statement (.partitionReset part) := of_event rfl

theorem debuggerHalt (ctx : Nat) (quiesce : Bool) : Statement (.debuggerHalt ctx quiesce) := of_event rfl

theorem debuggerResume (ctx : Nat) : Statement (.debuggerResume ctx) := of_event rfl

theorem campLendWrite (core : Nat) (pieces : Nat) : Statement (.campLendWrite core pieces) := of_event rfl

theorem tlbinvSpan (ctx : Nat) (v : W64) : Statement (.tlbinvSpan ctx v) := of_event rfl

theorem tlbinvAll (ctx : Nat) (v : W64) : Statement (.tlbinvAll ctx v) := of_event rfl

theorem tlbinvComplete (ctx : Nat) : Statement (.tlbinvComplete ctx) := of_event rfl

theorem hostQueueDoorbell (part : Nat) (q : Nat) (wr : W32) : Statement (.hostQueueDoorbell part q wr) := of_event rfl

theorem hostQueueEnable (part : Nat) (q : Nat) (v : W64) : Statement (.hostQueueEnable part q v) := of_event rfl

theorem jisoetteLaneBind (part : Nat) (lane : Nat) : Statement (.jisoetteLaneBind part lane) := of_event rfl

theorem nopPacket (part : Nat) (q : Nat) : Statement (.nopPacket part q) := of_event rfl

theorem haltq (part : Nat) (q : Nat) : Statement (.haltq part q) := of_event rfl

theorem preempt (part : Nat) (q : Nat) : Statement (.preempt part q) := of_event rfl

theorem preemptComplete (k : Nat) : Statement (.preemptComplete k) := of_event rfl

theorem setsig (part : Nat) (q : Nat) : Statement (.setsig part q) := of_event rfl

theorem waitsig (part : Nat) (q : Nat) : Statement (.waitsig part q) := of_event rfl

theorem watchPacket (part : Nat) (q : Nat) : Statement (.watchPacket part q) := of_event rfl

theorem unwatchPacket (part : Nat) (q : Nat) : Statement (.unwatchPacket part q) := of_event rfl

theorem poolcfg (part : Nat) (q : Nat) : Statement (.poolcfg part q) := of_event rfl

theorem launchPacket (part : Nat) (q : Nat) : Statement (.launchPacket part q) := of_event rfl

theorem copyh (part : Nat) (q : Nat) : Statement (.copyh part q) := of_event rfl

theorem launchSignalDecrement (k : Nat) : Statement (.launchSignalDecrement k) := of_event rfl

theorem hostWrite (pa : Nat) (bytes : List Byte) : Statement (.hostWrite pa bytes) := of_event rfl

theorem hostRead (pa : Nat) (len : Nat) : Statement (.hostRead pa len) := of_event rfl

theorem remotePacketReceive (src : Nat) (seq : Nat) (depth : Nat) (op : RemoteOp) :
    Statement (.remotePacketReceive src seq depth op) := of_event rfl

theorem flitReplay (port : Nat) (n : Replay) : Statement (.flitReplay port n) := of_event rfl

theorem linkFailure (port : Nat) : Statement (.linkFailure port) := of_event rfl

theorem linkTraining (port : Nat) (partner : Nat) (sizes : List (Nat × Nat × Nat)) :
    Statement (.linkTraining port partner sizes) := of_event rfl

theorem portDisable (port : Nat) : Statement (.portDisable port) := of_event rfl

theorem portRetrain (port : Nat) : Statement (.portRetrain port) := of_event rfl

theorem timeSync (count : W64) (reached : Bool) : Statement (.timeSync count reached) := of_event rfl

theorem thermalLimit (die : Nat) (atLimit : Bool) : Statement (.thermalLimit die atLimit) := of_event rfl

theorem fwActivate (sigOk : Bool) (oldest : Nat) (image : List Byte) : Statement (.fwActivate sigOk oldest image) := of_event rfl

theorem attestRequest (nonce : List Byte) : Statement (.attestRequest nonce) := of_event rfl

theorem powerOnReset (caps : List Nat) (master : Bool) (count : W64) : Statement (.powerOnReset caps master count) := of_event rfl

theorem registerWrite (r : RegName) (index : Nat) (v : W64) : Statement (.registerWrite r index v) := of_event rfl

theorem planeConverterDone (core : Nat) : Statement (.planeConverterDone core) := of_event rfl

theorem memoryPortLoss (port : Nat) : Statement (.memoryPortLoss port) := of_event rfl

theorem hostPortTraining (cxl : Bool) (rate : Nat) (width : Nat) : Statement (.hostPortTraining cxl rate width) := of_event rfl

end Sys2Proof.Laws.RoundTrip
end

