-- ==== Sys2Proof/Certificates/Slice0/Obligations.lean ====
section
/-! DEFINITION. The statements for the provers. Each says what the numbered rules of the manual say of an instruction, an event or
the machine; the helper definitions stand in Sys2Proof.Claims. -/

open Sys2Proof Sys2Proof.Machine

/-! Arithmetic. Each table below gives, for the instructions it names, the header, the destination and the value that the
rules give the destination. -/

namespace Sys2Proof.Claims

/-- Scalar results computed once for a stream from its scalars (R107, R108, R141 to R144). -/
def scalarForm : Instr → Option (Hdr × SReg × ((SReg → W64) → W64))
  | .sadd h d a b ty sat => some (h, d, fun r => scalOp .add ty sat (r a) (r b) 0)
  | .ssub h d a b ty sat => some (h, d, fun r => scalOp .sub ty sat (r a) (r b) 0)
  | .smul h d a b ty => some (h, d, fun r => scalOp .mul ty false (r a) (r b) 0)
  | .smulh h d a b ty => some (h, d, fun r => scalOp .mulh ty false (r a) (r b) 0)
  | .smad h d a b c ty => some (h, d, fun r => scalOp .mad ty false (r a) (r b) (r c))
  | .sand h d a b ty => some (h, d, fun r => scalOp .and ty false (r a) (r b) 0)
  | .sor h d a b ty => some (h, d, fun r => scalOp .or ty false (r a) (r b) 0)
  | .sxor h d a b ty => some (h, d, fun r => scalOp .xor ty false (r a) (r b) 0)
  | .sshl h d a b ty => some (h, d, fun r => scalOp .shl ty false (r a) (r b) 0)
  | .sshr h d a b ty => some (h, d, fun r => scalOp .shr ty false (r a) (r b) 0)
  | .ssar h d a b ty => some (h, d, fun r => scalOp .sar ty false (r a) (r b) 0)
  | .smin h d a b ty => some (h, d, fun r => scalOp .min ty false (r a) (r b) 0)
  | .smax h d a b ty => some (h, d, fun r => scalOp .max ty false (r a) (r b) 0)
  | .saddi h d a wide imm => some (h, d, fun r =>
      if wide then r a + imm.signExtend 64 else ((r a + imm.signExtend 64).truncate 32).signExtend 64)
  | .smov h (.ss d a) => some (h, d, fun r => r a)
  | .smovi h d high imm => some (h, d, fun r =>
      if high then (imm ++ (r d).extractLsb' 0 32 : BitVec 64) else imm.signExtend 64)
  | _ => none

/-- Scalar results that a team computes over its admitted lanes, with the flags they raise (R78, R161 to R163). -/
def crossForm (x : X) : Instr → Option (Hdr × SReg × W64 × BitVec 5)
  | .pcnt h d a => some (h, d, BitVec.ofNat 64 ((lanes x.adm).countP fun l => inMask (x.team.rp a) l), 0)
  | .pfirst h d a => some (h, d, match (lanes x.adm).find? fun l => inMask (x.team.rp a) l with
      | some l => BitVec.ofNat 64 l
      | none => BitVec.allOnes 64, 0)
  | .csum h d a b wide => some (h, d, BitVec.ofNat 64
      (crc ((x.team.rs a).toNat % 2 ^ 32) ((lanes x.adm).flatMap fun l => toLe (4 * wideN wide) (x.src.num wide (.v b) l))), 0)
  | .vbcast h (.s d) a b wide => some (h, d,
      BitVec.ofNat 64 (x.src.num wide (.v a) ((x.team.rs b).toNat % (32 * x.team.hdr.words))), 0)
  | .vreduce h (.s d) a op ty rnd => some (h, d, BitVec.ofNat 64 (reduceAll x op ty rnd a).bits, (reduceAll x op ty rnd a).fl)
  | _ => none

/-- Vector results without flags: the registers written and the value of a lane (R77, R101, R108, R141 to R146, R157, R160). -/
def vectorForm : Instr → Option (Hdr × VReg × Nat × (Src → Nat → Nat))
  | .vadd h d a b ty sat => some (h, d, itN ty, fun x l => packedOp .add ty sat (x.num ty.wide a l) (x.num ty.wide b l) 0)
  | .vsub h d a b ty sat => some (h, d, itN ty, fun x l => packedOp .sub ty sat (x.num ty.wide a l) (x.num ty.wide b l) 0)
  | .vmul h d a b ty => some (h, d, itN ty, fun x l => packedOp .mul ty false (x.num ty.wide a l) (x.num ty.wide b l) 0)
  | .vmulh h d a b ty => some (h, d, itN ty, fun x l => packedOp .mulh ty false (x.num ty.wide a l) (x.num ty.wide b l) 0)
  | .vmad h d a b c ty => some (h, d, itN ty, fun x l =>
      packedOp .mad ty false (x.num ty.wide a l) (x.num ty.wide b l) (x.num ty.wide c l))
  | .vand h d a b ty => some (h, d, itN ty, fun x l => packedOp .and ty false (x.num ty.wide a l) (x.num ty.wide b l) 0)
  | .vor h d a b ty => some (h, d, itN ty, fun x l => packedOp .or ty false (x.num ty.wide a l) (x.num ty.wide b l) 0)
  | .vxor h d a b ty => some (h, d, itN ty, fun x l => packedOp .xor ty false (x.num ty.wide a l) (x.num ty.wide b l) 0)
  | .vshl h d a b ty => some (h, d, itN ty, fun x l => packedOp .shl ty false (x.num ty.wide a l) (x.num ty.wide b l) 0)
  | .vshr h d a b ty => some (h, d, itN ty, fun x l => packedOp .shr ty false (x.num ty.wide a l) (x.num ty.wide b l) 0)
  | .vsar h d a b ty => some (h, d, itN ty, fun x l => packedOp .sar ty false (x.num ty.wide a l) (x.num ty.wide b l) 0)
  | .vmin h d a b ty => some (h, d, itN ty, fun x l => packedOp .min ty false (x.num ty.wide a l) (x.num ty.wide b l) 0)
  | .vmax h d a b ty => some (h, d, itN ty, fun x l => packedOp .max ty false (x.num ty.wide a l) (x.num ty.wide b l) 0)
  | .vsel h d a b c wide => some (h, d, wideN wide, fun x l =>
      if inMask (x.team.rp c) l then x.num wide a l else x.num wide b l)
  | .vclz h d a wide => some (h, d, 1, fun x l => clz (wideW wide) (x.num wide (.v a) l))
  | .vpop h d a wide => some (h, d, 1, fun x l => ones (wideW wide) (x.num wide (.v a) l))
  | .vbfx h d a pos lenm1 sg => some (h, d, 1, fun x l =>
      let f := x.num false (.v a) l / 2 ^ pos.val % 2 ^ (lenm1.val + 1)
      if sg then wrap 32 (sgn (lenm1.val + 1) f) else f)
  | .vbfi h d a b pos lenm1 => some (h, d, 1, fun x l =>
      let m := (2 ^ (lenm1.val + 1) - 1) * 2 ^ pos.val
      (x.num false (.v b) l - (x.num false (.v b) l &&& m)) ||| (x.num false (.v a) l * 2 ^ pos.val &&& m))
  | .vaddr h d a b scale wide => some (h, d, wideN wide, fun x l =>
      if wide then wrap 64 ((x.num true a l : Int) + sgn 32 (x.num false (.v b) l) * 2 ^ scale.val)
      else (x.num false a l + x.num false (.v b) l * 2 ^ scale.val) % 2 ^ 32)
  | .vaddi h d a wide imm => some (h, d, wideN wide, fun x l =>
      wrap (wideW wide) ((x.num wide (.v a) l : Int) + imm.toInt))
  | .vmov h (.vs d a) wide => some (h, d, wideN wide, fun x _ => (x.team.rs a).toNat)
  | .vmovi h d imm => some (h, d, 1, fun _ _ => imm.toNat)
  | .pmov h (.vp d a) => some (h, d, 1, fun x l => if inMask (x.team.rp a) l then 0xFFFFFFFF else 0)
  | .vshuf h d a b m wide => some (h, d, wideN wide, fun x l =>
      x.num wide (.v a) ((shufLane m (32 * x.team.hdr.words) l (x.num false b l)).getD l))
  | .vbcast h (.v d) a b wide => some (h, d, wideN wide, fun x _ =>
      x.num wide (.v a) ((x.team.rs b).toNat % (32 * x.team.hdr.words)))
  | .fclass h d a ty => some (h, d, 1, fun x l => classF ty (elem ty.w 0 (x.num false a l)))
  | _ => none

/-- Floating-point results, reductions and scans into vector registers: the registers written, and value and flags of a lane
(R123 to R158, R162). -/
def floatForm (x : X) : Instr → Option (Hdr × VReg × Nat × (Nat → FR))
  | .fadd h d a b ty rnd => some (h, d, 1, fun l =>
      packed2 ty (fun p q => addF ty rnd p q) (x.src.num false a l) (x.src.num false b l))
  | .fsub h d a b ty rnd => some (h, d, 1, fun l =>
      packed2 ty (fun p q => subF ty rnd p q) (x.src.num false a l) (x.src.num false b l))
  | .fmul h d a b ty rnd => some (h, d, 1, fun l =>
      packed2 ty (fun p q => mulF ty rnd p q) (x.src.num false a l) (x.src.num false b l))
  | .ffma h d a b c ty rnd => some (h, d, 1, fun l =>
      let r (i : Nat) := fmaF ty rnd (elemF ty i (x.src.num false a l)) (elemF ty i (x.src.num false b l)) (elemF ty i (x.src.num false c l))
      if ty.w = 32 then r 0 else ⟨(r 0).bits + 2 ^ 16 * (r 1).bits, (r 0).fl ||| (r 1).fl⟩)
  | .fmin h d a b ty ftz => some (h, d, 1, fun l =>
      packed2 ty (fun p q => minmaxF ty ftz false p q) (x.src.num false a l) (x.src.num false b l))
  | .fmax h d a b ty ftz => some (h, d, 1, fun l =>
      packed2 ty (fun p q => minmaxF ty ftz true p q) (x.src.num false a l) (x.src.num false b l))
  | .frcp h d a rnd => some (h, d, 1, fun l => rcpF rnd (x.src.num false a l))
  | .frsq h d a rnd => some (h, d, 1, fun l => rsqF rnd (x.src.num false a l))
  | .fexp2 h d a rnd => some (h, d, 1, fun l => exp2F rnd.ftz (x.src.num false a l))
  | .flog2 h d a rnd => some (h, d, 1, fun l => log2F rnd (x.src.num false a l))
  | .fscos h d a rnd => some (h, d, 2, fun l => scosF rnd.ftz (x.src.num false a l))
  | .fcvt h d a src dst sel rnd => some (h, d, ntN dst, fun l =>
      cvtF src dst rnd (elem src.w sel.val (x.src.num (src.w == 64) a l)))
  | .frnd h d a ty rnd => some (h, d, 1, fun l => packed2 ty (fun p _ => rndF ty rnd p) (x.src.num false a l) 0)
  | .fdot2 h d a b c ty rnd => some (h, d, 1, fun l => dot2F ty rnd (x.src.num false a l) (x.src.num false b l) (x.src.num false c l))
  | .fcmul h d a b ty rnd => some (h, d, wideN (ty == .f32), fun l =>
      cmulF ty rnd (x.src.num (ty == .f32) a l) (x.src.num (ty == .f32) b l))
  | .fbfly h d a b c ty rnd => some (h, d, 2 * wideN (ty == .f32), fun l =>
      bflyF ty rnd (x.src.num (ty == .f32) a l) (x.src.num (ty == .f32) b l) (x.src.num (ty == .f32) c l))
  | .ftwid h d a b _ => some (h, d, 2, fun l => twidF (x.src.num false a l) (x.src.num false b l))
  | .vreduce h (.v d) a op ty rnd => some (h, d, ntN ty, fun _ => reduceAll x op ty rnd a)
  | .vscan h d a op ty rnd => some (h, d, ntN ty, fun l =>
      let id := redIdentity op ty
      let out := scanAll (redNode op ty rnd) ((passes x.team.act).map fun k => (k, redWord x ty id a k)) id
      ⟨(((out.find? fun p => p.1 == l / 32).map fun p => p.2.getD (l % 32) id).getD id).bits,
        out.foldl (fun acc p => p.2.foldl (fun acc r => acc ||| r.fl) acc) 0⟩)
  | _ => none

/-- Predicate results: the value of a lane, and the flags of the instruction (R76, R77, R145, R150). -/
def predForm (x : X) : Instr → Option (Hdr × PReg × (Nat → Bool) × BitVec 5)
  | .scmp h d a b c ty => some (h, d,
      fun _ => cmpOp c ty ((x.team.rs a).toNat % 2 ^ ty.w) ((x.team.rs b).toNat % 2 ^ ty.w), 0)
  | .vcmp h d a b c ty => some (h, d, fun l => cmpOp c ty (x.src.num ty.wide a l) (x.src.num ty.wide b l), 0)
  | .fcmp h d a b c ftz => some (h, d, fun l => (cmpF c ftz (x.src.num false a l) (x.src.num false b l)).1,
      (lanes x.adm).foldl (fun acc l => acc ||| (cmpF c ftz (x.src.num false a l) (x.src.num false b l)).2) 0)
  | .pset h d imm => some (h, d, fun l => imm.getLsbD (l % 32), 0)
  | .plop h d a b c tbl => some (h, d,
      fun l => tbl.getLsbD (4 * bit (inMask (x.team.rp a) l) + 2 * bit (inMask (x.team.rp b) l) + bit (inMask (x.team.rp c) l)), 0)
  | .pmov h (.pp d a) => some (h, d, fun l => inMask (x.team.rp a) l, 0)
  | .pmov h (.pv d a) => some (h, d, fun l => x.src.v a 0 l != 0, 0)
  | .pmov h (.ps d a) => some (h, d, fun _ => x.team.rs a != 0, 0)
  | _ => none

/-- Predicate results of a matrix stream, which has one bit for each (R62, R76, R77, R145). -/
def predFormM (r : Ridge) : Instr → Option (Hdr × PReg × Bool)
  | .scmp h d a b c ty => some (h, d, cmpOp c ty ((r.rs a).toNat % 2 ^ ty.w) ((r.rs b).toNat % 2 ^ ty.w))
  | .pset h d imm => some (h, d, imm.getLsbD 0)
  | .plop h d a b c tbl => some (h, d, tbl.getLsbD (4 * bit (r.rp a) + 2 * bit (r.rp b) + bit (r.rp c)))
  | .pmov h (.pp d a) => some (h, d, r.rp a)
  | .pmov h (.ps d a) => some (h, d, r.rs a != 0)
  | _ => none

end Sys2Proof.Claims

/-- R54, R83, R107, R108, R141 to R144: a scalar instruction of a team writes its result once where any lane is admitted,
a write to s0 is ignored, and nothing else changes but the pc and results in flight. The same on a matrix stream (R35, R62). -/
def Obligations.ScalarResults : Prop :=
  (∀ (i : Instr) (h : Hdr) (d : SReg) (f : (SReg → W64) → W64) (s : State) (c slot : Nat) (t : Team),
    Claims.scalarForm i = some (h, d, f) → slot < 16 → TeamIssues i h s c slot t →
    ∃ s' t', exec i s = .next s' ∧ s'.team? c slot = some t' ∧ TeamFrame s s' c slot ∧
      t' = { t with pc := (s.nextOf c t).1, atHdr := (s.nextOf c t).2, wait := none, sreg := t'.sreg,
                    shadows := t'.shadows } ∧
      (∀ r, t'.rs r = if r = d ∧ d.val ≠ 0 ∧ t.adm h ≠ 0 then f t.rs else t.rs r) ∧
      t'.flagsDue = t.flagsDue ∧ (∀ r l, s'.vreg c slot r l = s.vreg c slot r l)) ∧
  (∀ (i : Instr) (h : Hdr) (d : SReg) (f : (SReg → W64) → W64) (s : State) (c : Nat) (r : Ridge),
    Claims.scalarForm i = some (h, d, f) → RidgeIssues i h s c r →
    ∃ s' r', exec i s = .next s' ∧ s'.ridge? c = some r' ∧ RidgeFrame s s' c ∧
      r' = { r with pc := (s.nextOfM c r).1, atHdr := (s.nextOfM c r).2, wait := none, sreg := r'.sreg, shadows := r'.shadows } ∧
      (∀ q, r'.rs q = if q = d ∧ d.val ≠ 0 ∧ r.adm h = true then f r.rs else r.rs q))

/-- R78, R161 to R163: counts, positions, checksums, broadcasts and reductions into a scalar. That VBCAST takes its lane number from
all 64 bits of the scalar is the model's choice (log 45: R161 against R137). -/
def Obligations.CrossLaneScalar : Prop :=  ∀ (i : Instr) (h : Hdr) (d : SReg) (v : W64) (fl : BitVec 5) (s : State) (c slot : Nat) (t : Team),
    Claims.crossForm (t.x s c slot h) i = some (h, d, v, fl) → slot < 16 → TeamIssues i h s c slot t →
    ∃ s' t', exec i s = .next s' ∧ s'.team? c slot = some t' ∧ TeamFrame s s' c slot ∧
      t' = { t with pc := (s.nextOf c t).1, atHdr := (s.nextOf c t).2, wait := none, sreg := t'.sreg,
                    shadows := t'.shadows } ∧
      (∀ r, t'.rs r = if r = d ∧ d.val ≠ 0 ∧ t.adm h ≠ 0 then v else t.rs r) ∧
      (t'.flagsDue = if t.adm h = 0 then t.flagsDue else t.flagsDue ||| fl) ∧
      (∀ r l, s'.vreg c slot r l = s.vreg c slot r l)

/-- R84 to R93, R141 to R146, R160: a vector result in every admitted lane, from the value table where the pass hits; other
lanes and registers keep their values. R87: where the team lacks slices for the first pass, the instruction waits, and that is counted.
That VBCAST takes its lane number from all 64 bits of the scalar is the model's choice (log 45: R161
against R137). -/
def Obligations.VectorResult : Prop :=  ∀ (i : Instr) (h : Hdr) (d : VReg) (n : Nat) (f : Src → Nat → Nat) (s : State) (c slot : Nat) (t : Team),
    Claims.vectorForm i = some (h, d, n, f) → slot < 16 → s.stashOk = true → TeamIssues i h s c slot t →
    let need := s.lacking c t 0 ((vecRun i (t.x s c slot h) s d n (f ⟨s.core c, t, []⟩) fun _ => 0).needs n (passes (t.adm h)))
    (∀ j, need = some j → t.adm h &&& below j = 0 → t.wait = none → ∃ s' t', exec i s = .next s' ∧ TeamFrame s s' c slot ∧
      s'.team? c slot = some t' ∧ t'.wait.isSome = true ∧ t' = { t with wait := t'.wait } ∧
      s'.count .schSlicewait c = (s.count .schSlicewait c + 1) % 2 ^ 64) ∧
    (need = none → ∃ s' t', exec i s = .next s' ∧ s'.team? c slot = some t' ∧ TeamFrame s s' c slot ∧
      t' = { t with pc := (s.nextOf c t).1, atHdr := (s.nextOf c t).2, wait := none, vmap := t'.vmap,
                    shadows := t'.shadows } ∧
      (∀ k l, k < n → l < 1024 → inMask (t.adm h) l = true →
        s'.vreg c slot (vregAt d k) l = laneResult s i (t.x s c slot h) d n (f ⟨s.core c, t, []⟩) (fun _ => 0) k l) ∧
      (∀ r l, l < 1024 → (inMask (t.adm h) l = false ∨ ∀ k, k < n → r ≠ vregAt d k) →
        s'.vreg c slot r l = s.vreg c slot r l) ∧
      t'.flagsDue = t.flagsDue)

/-- R112 to R135, R147 to R158: a floating-point result in every admitted lane, and the flags of the lanes computed. -/
def Obligations.FloatResult : Prop :=  ∀ (i : Instr) (h : Hdr) (d : VReg) (n : Nat) (g : Nat → FR) (s : State) (c slot : Nat) (t : Team),
    Claims.floatForm (t.x s c slot h) i = some (h, d, n, g) → slot < 16 → s.stashOk = true → TeamIssues i h s c slot t →
    s.lacking c t 0 ((vecRun i (t.x s c slot h) s d n (fun l => (g l).bits) fun l => (g l).fl).needs n (passes (t.adm h))) = none →
    ∃ s' t', exec i s = .next s' ∧ s'.team? c slot = some t' ∧ TeamFrame s s' c slot ∧
      t' = { t with pc := (s.nextOf c t).1, atHdr := (s.nextOf c t).2, wait := none, vmap := t'.vmap,
                    shadows := t'.shadows } ∧
      (∀ k l, k < n → l < 1024 → inMask (t.adm h) l = true →
        s'.vreg c slot (vregAt d k) l = laneResult s i (t.x s c slot h) d n (fun l => (g l).bits) (fun l => (g l).fl) k l) ∧
      (∀ r l, l < 1024 → (inMask (t.adm h) l = false ∨ ∀ k, k < n → r ≠ vregAt d k) →
        s'.vreg c slot r l = s.vreg c slot r l) ∧
      t'.flagsDue = missFlags s i (t.x s c slot h) d n (fun l => (g l).bits) (fun l => (g l).fl) t.flagsDue

/-- R54, R76, R77, R83, R145, R150: a predicate result in every admitted lane; a write to p0 is ignored. The same on a matrix stream. -/
def Obligations.PredicateResults : Prop :=
  (∀ (i : Instr) (h : Hdr) (d : PReg) (v : Nat → Bool) (fl : BitVec 5) (s : State) (c slot : Nat) (t : Team),
    Claims.predForm (t.x s c slot h) i = some (h, d, v, fl) → slot < 16 → TeamIssues i h s c slot t →
    ∃ s' t', exec i s = .next s' ∧ s'.team? c slot = some t' ∧ TeamFrame s s' c slot ∧
      t' = { t with pc := (s.nextOf c t).1, atHdr := (s.nextOf c t).2, wait := none, preg := t'.preg,
                    shadows := t'.shadows } ∧
      (∀ r l, l < 1024 → inMask (t'.rp r) l =
        if r = d ∧ d.val ≠ 0 ∧ inMask (t.adm h) l = true then v l else inMask (t.rp r) l) ∧
      t'.flagsDue = t.flagsDue ||| fl ∧ (∀ r l, s'.vreg c slot r l = s.vreg c slot r l)) ∧
  (∀ (i : Instr) (h : Hdr) (d : PReg) (v : Bool) (s : State) (c : Nat) (r : Ridge),
    Claims.predFormM r i = some (h, d, v) → RidgeIssues i h s c r →
    ∃ s' r', exec i s = .next s' ∧ s'.ridge? c = some r' ∧ RidgeFrame s s' c ∧
      r' = { r with pc := (s.nextOfM c r).1, atHdr := (s.nextOfM c r).2, wait := none, preg := r'.preg, shadows := r'.shadows } ∧
      (∀ q, r'.rp q = if q = d ∧ d.val ≠ 0 ∧ r.adm h = true then v else r.rp q))

/-! Control flow. -/

namespace Sys2Proof.Claims

/-- s' is s with the team in a slot moved: its pc, its mask and its stack are as given, it waits in nothing, its results have
aged, and nothing else of it or of the package has changed (back and slip say how the word at its pc is to be judged and fetched). -/
def Moved (s s' : State) (c slot : Nat) (t : Team) (pc : Nat × Bool) (act : Mask) (stk : List Entry) : Prop :=
  TeamFrame s s' c slot ∧ (∀ r l, s'.vreg c slot r l = s.vreg c slot r l) ∧
  ∃ t', s'.team? c slot = some t' ∧ t'.flagsDue = t.flagsDue ∧
    t' = { t with pc := pc.1, atHdr := pc.2, wait := none, act := act, stk := stk, shadows := t'.shadows, back := t'.back,
                  slip := t'.slip }

/-- The same for a matrix stream: its pc and its return stack. -/
def MovedM (s s' : State) (c : Nat) (r : Ridge) (pc : Nat × Bool) (rstk : List Nat) : Prop :=
  RidgeFrame s s' c ∧
  ∃ r', s'.ridge? c = some r' ∧
    r' = { r with pc := pc.1, atHdr := pc.2, wait := none, rstk := rstk, shadows := r'.shadows, back := r'.back, slip := r'.slip }

/-- The target of a branch: OFF24 words from its own word, or a scalar's value (R23, R66). -/
def branchTo (pc : Nat) (rs : SReg → W64) : Instr → Option (Hdr × Nat)
  | .bra h off => some (h, wrap 64 ((pc / 8 * 8 : Nat) + 8 * off.toInt))
  | .jmps h r => some (h, (rs r).toNat)
  | _ => none

/-- The target and the lanes of a uniform test branch (R67): whether every lane, or some lane, of those admitted is set. -/
def testTo (x : X) : Instr → Option (Hdr × Nat × Bool)
  | .ball h t neg off => some (h, wrap 64 ((x.team.pc / 8 * 8 : Nat) + 8 * off.toInt),
      (lanes x.adm).all fun l => inMask (x.team.rp t) l != neg)
  | .bany h t neg off => some (h, wrap 64 ((x.team.pc / 8 * 8 : Nat) + 8 * off.toInt),
      (lanes x.adm).any fun l => inMask (x.team.rp t) l != neg)
  | _ => none

/-- The target of a call (R65, R68). -/
def callTo (pc : Nat) (rs : SReg → W64) : CallTgt → Nat
  | .off o => wrap 64 ((pc / 8 * 8 : Nat) + 8 * o.toInt)
  | .reg r => (rs r).toNat

/-- A target's word may be asked for now: the instruction cache holds it, or a walker is free for its page (R14, R290). -/
def Asks (s : State) (c ctx target : Nat) : Prop := s.fetchWaits c ctx (target / 8 * 8) = false

/-- s once a target's word has been asked for (R14, R294). -/
def asked (s : State) (c ctx target : Nat) : State := s.fetchFill c ctx (target / 8 * 8)

/-- The word of a good header's address may be asked for now, and may stand there (R14). -/
def GoodTarget (s : State) (c ctx target : Nat) : Prop := Asks s c ctx target ∧ s.badTarget c ctx target = false

/-- m has the parties, the cores and the memory of s. -/
def Untouched (s m : State) : Prop :=
  m.teams = s.teams ∧ m.ridges = s.ridges ∧ m.cores = s.cores ∧ m.blocks = s.blocks ∧ ∀ a, m.memGet a = s.memGet a

/-- What a transfer to a target that is none does: at an address that is no multiple of 8 nothing is asked for (R14). -/
def BadTarget (s : State) (c slot : Nat) (t : Team) (target : Nat) (o : Host.Outcome State Fault Refusal) : Prop :=
  (target % 8 ≠ 0 → o = .next (s.takeTrap c slot { t with wait := none } .illegalTarget (BitVec.ofNat 64 target) t.pc)) ∧
  (target % 8 = 0 → Asks s c t.ctx target → s.badTarget c t.ctx target = true →
    o = .next ((asked s c t.ctx target).takeTrap c slot { t with wait := none } .illegalTarget (BitVec.ofNat 64 target) t.pc)) ∧
  (target % 8 = 0 → ¬ Asks s c t.ctx target → o = .next s)

/-- Lanes removed from the masks of an entry (R61). -/
def cut (m : Mask) (e : Entry) : Entry := { e with omask := e.omask &&& ~~~m, tmask := e.tmask &&& ~~~m }

/-- Whether a popped entry's header is that of a DIV entry that is then on top, so that reconvergence goes on (R60). -/
def goesOn (e : Entry) (rest : List Entry) : Bool :=
  match rest with
  | d :: _ => d.kind == .div && d.pc1 == e.pc1
  | [] => false

/-- The cause and the fault address of TRAP and BKPT (R366). -/
def trapOf : Instr → Option (Hdr × Nat × W32)
  | .trap h imm => some (h, 0x05, imm)
  | .bkpt h imm => some (h, 0x06, imm)
  | _ => none

/-- Instructions of team streams only (R35). -/
def teamOnly : Instr → Bool
  | .ball .. | .bany .. | .reconv .. | .brk .. | .elect .. | .endlead .. | .phint .. | .yield .. | .pcnt .. | .pfirst ..
  | .vadd .. | .vsub .. | .vmul .. | .vmulh .. | .vmad .. | .vand .. | .vor .. | .vxor .. | .vshl .. | .vshr .. | .vsar ..
  | .vmin .. | .vmax .. | .vcmp .. | .vsel .. | .vmov .. | .vmovi .. | .vclz .. | .vpop .. | .vbfx .. | .vbfi .. | .vaddc ..
  | .vaddr .. | .vaddi .. | .vshuf .. | .vbcast .. | .vreduce .. | .vscan .. | .fadd .. | .fsub .. | .fmul .. | .ffma ..
  | .fmin .. | .fmax .. | .fcmp .. | .frcp .. | .frsq .. | .fexp2 .. | .flog2 .. | .fscos .. | .fcvt .. | .frnd .. | .fclass ..
  | .fdot2 .. | .fcmul .. | .fbfly .. | .ftwid .. | .csum .. | .vld .. | .vst .. | .vwset .. | .vwadj .. | .vret .. | .refill ..
  | .qbind .. | .qtry .. | .copy .. | .copyR .. | .copym .. | .gath .. | .scat .. | .ld .. | .st .. | .atom .. | .red ..
  | .fence .. | .prf .. | .tdset .. | .chain .. | .ring .. | .fwait .. | .frel .. | .ftest .. | .kvapp .. | .kvevt .. | .watch ..
  | .unwatch .. | .wpark .. | .launchGrid .. | .launchRecord .. | .wkadd .. | .wkdone .. => true
  | _ => false

/-- Tile operations, which a team issues with one lane active (R35, R37). -/
def leaderForm : Instr → Option Hdr
  | .tdset h .. | .copy h .. | .copyR h .. | .copym h .. | .chain h .. | .kvapp h .. | .kvevt h .. | .plane h .. => some h
  | _ => none

/-- Forms of the gather engine (R38). -/
def gatherForm : Instr → Option Hdr
  | .gath h .. | .scat h .. => some h
  | _ => none

/-- Forms whose matrix-stream spelling names a register of class v, w or q (R37). -/
def otherClass : Instr → Bool
  | .smov _ (.push ..) | .smov _ (.pop ..) | .pmov _ (.pv ..) | .pmov _ (.vp ..) => true
  | _ => false

/-- A team that the checks of R40 before STALL_SHORT let pass, but for what its instruction reads: no pass of it has issued, the
registers are within its counts, no tracked result is in flight to them, a control transfer ends its block, and the guard is not
!p0. -/
def Readable (i : Instr) (h : Hdr) (s : State) (c slot : Nat) (t : Team) : Prop :=
  s.cur = .team c slot ∧ s.team? c slot = some t ∧ t.lo = 0 ∧
  (∀ r ∈ guardReg h ++ (iRegs i).1 ++ (iRegs i).2, t.hdr.has r = true ∧ s.pendingReg c t r = false) ∧
  (isTransfer i = true → (s.nextOf c t).2 = true) ∧ ¬ (h.guard.val = 0 ∧ h.gneg = true)

/-- Instructions of matrix streams only (R35). -/
def ridgeOnly : Instr → Bool
  | .mlda .. | .mma .. | .moutl .. | .zclr .. | .zld .. | .zst .. | .zmap .. | .attn .. => true
  | _ => false

end Sys2Proof.Claims

/-- R59, R66: BRA and JMPS of a team fall through, transfer the whole team, or diverge, reusing the top entry where it has the
same reconvergence header and no pending lanes. R67: BALL and BANY transfer every active lane, or none, and touch no mask and no
stack. R14, R58, R80: a target, or a reconvergence header that is used, that is no header traps ILLEGAL_TARGET, and a push that
would take the last entry traps ILLEGAL_STACK, at the branch. R290, R294: a target's word that the instruction cache does not hold is
asked for, which waits for a walker, and counts; the asking changes no party, no core and no byte of memory. -/
def Obligations.Branches : Prop :=
  (∀ (i : Instr) (h : Hdr) (target : Nat) (s : State) (c slot : Nat) (t : Team),
    Claims.branchTo t.pc t.rs i = some (h, target) → slot < 16 → TeamIssues i h s c slot t →
    let A := t.adm h
    let rpc := wrap 64 ((t.hdrAddr : Int) + 8 * hdrReconv t.hdrWord)
    let m := Claims.asked s c t.ctx target
    let m' := Claims.asked m c t.ctx rpc
    (A = 0 → ∃ s', exec i s = .next s' ∧ Claims.Moved s s' c slot t (s.nextOf c t) t.act t.stk) ∧
    (A ≠ 0 → Claims.GoodTarget s c t.ctx target →
      (A = t.act → ∃ s', exec i s = .next s' ∧ Claims.Moved m s' c slot t (target, true) t.act t.stk) ∧
      (A ≠ t.act → hdrReconv t.hdrWord = 0 →
        exec i s = .next (m.takeTrap c slot { t with wait := none } .illegalTarget (BitVec.ofNat 64 rpc) t.pc)) ∧
      (A ≠ t.act → hdrReconv t.hdrWord ≠ 0 → rpc % 8 = 0 → Claims.Asks m c t.ctx rpc → m.badTarget c t.ctx rpc = true →
        exec i s = .next (m'.takeTrap c slot { t with wait := none } .illegalTarget (BitVec.ofNat 64 rpc) t.pc)) ∧
      (A ≠ t.act → hdrReconv t.hdrWord ≠ 0 → Claims.GoodTarget m c t.ctx rpc →
        (∀ e rest, t.stk = e :: rest → e.kind = .div → e.pc1 = rpc → e.tmask = 0 →
          ∃ s', exec i s = .next s' ∧ Claims.Moved m' s' c slot t (s.nextOf c t) (t.act &&& ~~~A)
            ({ e with tmask := A, pc2 := BitVec.ofNat 64 target } :: rest)) ∧
        ((∀ e rest, t.stk = e :: rest → ¬ (e.kind = .div ∧ e.pc1 = rpc ∧ e.tmask = 0)) → t.stk.length + 1 < t.hdr.depth →
          ∃ s', exec i s = .next s' ∧ Claims.Moved m' s' c slot t (s.nextOf c t) (t.act &&& ~~~A)
            (⟨.div, rpc, BitVec.ofNat 64 target, t.act, A⟩ :: t.stk)) ∧
        ((∀ e rest, t.stk = e :: rest → ¬ (e.kind = .div ∧ e.pc1 = rpc ∧ e.tmask = 0)) → t.hdr.depth ≤ t.stk.length + 1 →
          exec i s = .next (m'.takeTrap c slot { t with wait := none } .illegalStack 0 t.pc))))) ∧
  (∀ (i : Instr) (h : Hdr) (target : Nat) (taken : Bool) (s : State) (c slot : Nat) (t : Team),
    Claims.testTo (t.x s c slot h) i = some (h, target, taken) → slot < 16 → TeamIssues i h s c slot t →
    (t.adm h = 0 → ∃ s', exec i s = .next s' ∧ Claims.Moved s s' c slot t (s.nextOf c t) t.act t.stk) ∧
    (t.adm h ≠ 0 → Claims.GoodTarget s c t.ctx target → ∃ s', exec i s = .next s' ∧
      Claims.Moved (Claims.asked s c t.ctx target) s' c slot t (if taken = true then (target, true) else s.nextOf c t) t.act t.stk)) ∧
  (∀ (i : Instr) (h : Hdr) (target : Nat) (s : State) (c slot : Nat) (t : Team),
    (Claims.branchTo t.pc t.rs i = some (h, target) ∨ (Claims.testTo (t.x s c slot h) i).map (fun x => (x.1, x.2.1)) = some (h, target)) →
    slot < 16 → TeamIssues i h s c slot t → t.adm h ≠ 0 → Claims.BadTarget s c slot t target (exec i s)) ∧
  ∀ (s : State) (c ctx target : Nat), Claims.Untouched s (Claims.asked s c ctx target)

/-- R68: CALL of a team pushes a CALL entry and transfers the admitted lanes; with no lane it falls through. R14, R60, R69: RET,
whose return header is one, takes the admitted lanes from the mask and from the DIV entries above the nearest CALL entry; where no
lane is left and that entry is on top, it pops: the lanes that waited go on at its header. R14, R58: a target that is no header
traps ILLEGAL_TARGET and a push that would take the last entry ILLEGAL_STACK, and nothing moves. -/
def Obligations.CallAndRet : Prop :=
  (∀ (h : Hdr) (tgt : CallTgt) (s : State) (c slot : Nat) (t : Team), slot < 16 → TeamIssues (.call h tgt) h s c slot t →
    let target := Claims.callTo t.pc t.rs tgt
    let m := Claims.asked s c t.ctx target
    (t.adm h = 0 → ∃ s', exec (.call h tgt) s = .next s' ∧ Claims.Moved s s' c slot t (s.nextOf c t) t.act t.stk) ∧
    (t.adm h ≠ 0 → Claims.GoodTarget s c t.ctx target → t.stk.length + 1 < t.hdr.depth →
      ∃ s', exec (.call h tgt) s = .next s' ∧
        Claims.Moved m s' c slot t (target, true) (t.adm h) (⟨.call, (m.nextOf c t).1, 0, t.act, 0⟩ :: t.stk))) ∧
  (∀ (h : Hdr) (tgt : CallTgt) (s : State) (c slot : Nat) (t : Team), slot < 16 → TeamIssues (.call h tgt) h s c slot t →
    t.adm h ≠ 0 →
    Claims.BadTarget s c slot t (Claims.callTo t.pc t.rs tgt) (exec (.call h tgt) s) ∧
    (Claims.GoodTarget s c t.ctx (Claims.callTo t.pc t.rs tgt) → t.hdr.depth ≤ t.stk.length + 1 →
      exec (.call h tgt) s = .next ((Claims.asked s c t.ctx (Claims.callTo t.pc t.rs tgt)).takeTrap c slot { t with wait := none }
        .illegalStack 0 t.pc))) ∧
  (∀ (h : Hdr) (above : List Entry) (e : Entry) (rest : List Entry) (s : State) (c slot : Nat) (t : Team),
    slot < 16 → TeamIssues (.ret h) h s c slot t → t.stk = above ++ e :: rest → (∀ a ∈ above, a.kind = .div) →
    e.kind = .call → t.adm h ≠ 0 → Claims.BadTarget s c slot t e.pc1 (exec (.ret h) s)) ∧
  (∀ (h : Hdr) (above : List Entry) (e : Entry) (rest : List Entry) (s : State) (c slot : Nat) (t : Team),
    slot < 16 → TeamIssues (.ret h) h s c slot t → t.stk = above ++ e :: rest → (∀ a ∈ above, a.kind = .div) →
    e.kind = .call → t.adm h ≠ 0 → Claims.GoodTarget s c t.ctx e.pc1 →
    let m := Claims.asked s c t.ctx e.pc1
    (t.act &&& ~~~t.adm h ≠ 0 →
      ∃ s', exec (.ret h) s = .next s' ∧ Claims.Moved m s' c slot t (s.nextOf c t) (t.act &&& ~~~t.adm h)
        (above.map (Claims.cut (t.adm h)) ++ e :: rest)) ∧
    (t.adm h = t.act → above = [] → e.omask ≠ 0 → Claims.goesOn e rest = false →
      ∃ s', exec (.ret h) s = .next s' ∧ Claims.Moved m s' c slot t (e.pc1, true) e.omask rest))

/-- R60, R61, R70, R71: RECONV, BREAK and EXIT take the admitted lanes from the mask and from the entries above their target; where
no lane is left the team reconverges: the pending lanes of the top entry run, or it pops, or the team retires. R73: ELECT leaves the
lowest admitted lane alone active, over a LEAD entry, with its number in a scalar; ENDLEAD pops that entry. R58, R80: a nested ELECT
traps ILLEGAL, and one that finds no room on the stack ILLEGAL_STACK. -/
def Obligations.LanesLeaveAndLeader : Prop :=
  ((∀ (h : Hdr) (e : Entry) (rest : List Entry) (s : State) (c slot : Nat) (t : Team), slot < 16 →
    TeamIssues (.reconv h) h s c slot t → t.stk = e :: rest → e.kind = .div → t.adm h ≠ 0 →
    (t.act &&& ~~~t.adm h ≠ 0 →
      ∃ s', exec (.reconv h) s = .next s' ∧
        Claims.Moved s s' c slot t (s.nextOf c t) (t.act &&& ~~~t.adm h) t.stk) ∧
    (t.adm h = t.act → e.tmask ≠ 0 →
      ∃ s', exec (.reconv h) s = .next s' ∧
        Claims.Moved s s' c slot t (e.pc2.toNat, true) e.tmask ({ e with tmask := 0 } :: rest)) ∧
    (t.adm h = t.act → e.tmask = 0 → e.omask ≠ 0 → Claims.goesOn e rest = false →
      ∃ s', exec (.reconv h) s = .next s' ∧ Claims.Moved s s' c slot t (e.pc1, true) e.omask rest)) ∧
  (∀ (h : Hdr) (lvl : Fin 16) (s : State) (c slot : Nat) (t : Team), slot < 16 → TeamIssues (.brk h lvl) h s c slot t →
    (∀ e ∈ t.stk.take (lvl.val + 1), e.kind = .div) → lvl.val < t.stk.length → t.adm h ≠ 0 → t.act &&& ~~~t.adm h ≠ 0 →
      ∃ s', exec (.brk h lvl) s = .next s' ∧ Claims.Moved s s' c slot t (s.nextOf c t) (t.act &&& ~~~t.adm h)
        ((t.stk.take lvl.val).map (Claims.cut (t.adm h)) ++ t.stk.drop lvl.val)) ∧
  (∀ (h : Hdr) (s : State) (c slot : Nat) (t : Team), slot < 16 → TeamIssues (.exit h) h s c slot t →
    (∀ e ∈ t.stk, e.kind ≠ .lead) → t.adm h ≠ 0 →
    (t.act &&& ~~~t.adm h ≠ 0 →
      ∃ s', exec (.exit h) s = .next s' ∧ Claims.Moved s s' c slot t (s.nextOf c t) (t.act &&& ~~~t.adm h)
        (t.stk.map (Claims.cut (t.adm h)))) ∧
    (t.adm h = t.act → t.stk = [] →
      ∃ s', exec (.exit h) s = .next s' ∧ s'.team? c slot = none ∧
        (∀ k, k ≠ tkey c slot → s'.teams.find k = s.teams.find k) ∧ ∀ a, s'.memGet a = s.memGet a))) ∧
  ((∀ (h : Hdr) (d : SReg) (l : Nat) (s : State) (c slot : Nat) (t : Team), slot < 16 →
    TeamIssues (.elect h d) h s c slot t → l < 1024 → inMask (t.adm h) l = true →
    (∀ k, k < l → inMask (t.adm h) k = false) → (∀ e ∈ t.stk, e.kind ≠ .lead) → t.stk.length + 1 < t.hdr.depth →
    ∃ s' t', exec (.elect h d) s = .next s' ∧ TeamFrame s s' c slot ∧ (∀ r l, s'.vreg c slot r l = s.vreg c slot r l) ∧
      s'.team? c slot = some t' ∧ t'.flagsDue = t.flagsDue ∧
      t' = { t with pc := (s.nextOf c t).1, atHdr := (s.nextOf c t).2, wait := none, act := laneBit l,
                    stk := ⟨.lead, 0, 0, t.act, 0⟩ :: t.stk, sreg := t'.sreg, shadows := t'.shadows } ∧
      ∀ r, t'.rs r = if r = d ∧ d.val ≠ 0 then BitVec.ofNat 64 l else t.rs r) ∧
  (∀ (h : Hdr) (d : SReg) (s : State) (c slot : Nat) (t : Team), slot < 16 → TeamIssues (.elect h d) h s c slot t → t.adm h ≠ 0 →
    ((∃ e ∈ t.stk, e.kind = .lead) → exec (.elect h d) s = .next (s.takeTrap c slot { t with wait := none } .illegal 0 t.pc)) ∧
    ((∀ e ∈ t.stk, e.kind ≠ .lead) → t.hdr.depth ≤ t.stk.length + 1 →
      exec (.elect h d) s = .next (s.takeTrap c slot { t with wait := none } .illegalStack 0 t.pc))) ∧
  ∀ (h : Hdr) (e : Entry) (rest : List Entry) (s : State) (c slot : Nat) (t : Team), slot < 16 →
    TeamIssues (.endlead h) h s c slot t → t.stk = e :: rest → e.kind = .lead →
    ∃ s', exec (.endlead h) s = .next s' ∧ Claims.Moved s s' c slot t (s.nextOf c t) e.omask rest)

/-- R19, R75: NOP goes on and changes nothing, on both kinds of stream. R74, R75, R374: PHINT goes on where no request is pending
for the block, and freezes the team with what it declares live where one is; YIELD marks the other teams of the core that are ready
as going first. How the teams that were ready are marked is the model's form (log 45). -/
def Obligations.NopHintYield : Prop :=
  ((∀ (h : Hdr) (s : State) (c slot : Nat) (t : Team), slot < 16 → TeamIssues (.nop h) h s c slot t →
    ∃ s', exec (.nop h) s = .next s' ∧ Claims.Moved s s' c slot t (s.nextOf c t) t.act t.stk) ∧
  ∀ (h : Hdr) (s : State) (c : Nat) (r : Ridge), RidgeIssues (.nop h) h s c r →
    ∃ s', exec (.nop h) s = .next s' ∧ Claims.MovedM s s' c r (s.nextOfM c r) r.rstk) ∧
  ((∀ (h : Hdr) (d : SReg) (sg : BitVec 4) (pg : BitVec 6) (pk : BitVec 8) (s : State) (c slot : Nat) (t : Team), slot < 16 →
    TeamIssues (.phint h d sg pg pk) h s c slot t →
    (s.requested t.blk = false →
      ∃ s', exec (.phint h d sg pg pk) s = .next s' ∧ Claims.Moved s s' c slot t (s.nextOf c t) t.act t.stk) ∧
    (s.requested t.blk = true → t.adm h ≠ 0 →
      ∃ s' t', exec (.phint h d sg pg pk) s = .next s' ∧ s'.team? c slot = some t' ∧
        t' = { t with pc := (s.nextOf c t).1, atHdr := (s.nextOf c t).2, wait := none,
                      frozen := some ⟨some ⟨t.rs d, sg, pg⟩, pk, false⟩, shadows := t'.shadows } ∧
        (∀ k, k ≠ tkey c slot → s'.teams.find k = s.teams.find k) ∧ ∀ a, s'.memGet a = s.memGet a)) ∧
  ∀ (h : Hdr) (s : State) (c slot : Nat) (t : Team), slot < 16 → TeamIssues (.yield h) h s c slot t → t.adm h ≠ 0 →
    ∃ s' t', exec (.yield h) s = .next s' ∧ TeamFrame s s' c slot ∧ s'.team? c slot = some t' ∧
      t' = { t with pc := (s.nextOf c t).1, atHdr := (s.nextOf c t).2, wait := none, yield := t'.yield,
                    shadows := t'.shadows } ∧
      ∀ u, u ∈ t'.yield ↔ ∃ k o, k < 16 ∧ k ≠ slot ∧ s.ready c k = true ∧ s.team? c k = some o ∧ o.uid = u)

/-- R62: on a matrix stream BRA and JMPS transfer or fall through, CALL keeps at most 16 return addresses, RET takes the
latest, and EXIT ends the stream. R14, R290: a target's word is asked for as a team's is. -/
def Obligations.ControlOfRidge : Prop :=
  (∀ (i : Instr) (h : Hdr) (target : Nat) (s : State) (c : Nat) (r : Ridge),
    Claims.branchTo r.pc r.rs i = some (h, target) → RidgeIssues i h s c r →
    (r.adm h = false → ∃ s', exec i s = .next s' ∧ Claims.MovedM s s' c r (s.nextOfM c r) r.rstk) ∧
    (r.adm h = true → Claims.GoodTarget s c r.ctx target →
      ∃ s', exec i s = .next s' ∧ Claims.MovedM (Claims.asked s c r.ctx target) s' c r (target, true) r.rstk)) ∧
  (∀ (h : Hdr) (tgt : CallTgt) (s : State) (c : Nat) (r : Ridge), RidgeIssues (.call h tgt) h s c r → r.adm h = true →
    let m := Claims.asked s c r.ctx (Claims.callTo r.pc r.rs tgt)
    Claims.GoodTarget s c r.ctx (Claims.callTo r.pc r.rs tgt) →
    (r.rstk.length < 16 →
      ∃ s', exec (.call h tgt) s = .next s' ∧
        Claims.MovedM m s' c r (Claims.callTo r.pc r.rs tgt, true) ((m.nextOfM c r).1 :: r.rstk)) ∧
    (16 ≤ r.rstk.length → exec (.call h tgt) s = .next (m.takeTrapM c { r with wait := none } .illegalStack 0 r.pc))) ∧
  (∀ (h : Hdr) (pc : Nat) (rest : List Nat) (s : State) (c : Nat) (r : Ridge), RidgeIssues (.ret h) h s c r → r.adm h = true →
    r.rstk = pc :: rest → Claims.GoodTarget s c r.ctx pc →
    ∃ s', exec (.ret h) s = .next s' ∧ Claims.MovedM (Claims.asked s c r.ctx pc) s' c r (pc, true) rest) ∧
  ∀ (h : Hdr) (s : State) (c : Nat) (r : Ridge), RidgeIssues (.exit h) h s c r → r.adm h = true →
    ∃ s', exec (.exit h) s = .next s' ∧ (∀ q, s'.ridge? c = some q → q.ended = true) ∧ s'.teams = s.teams ∧
      ∀ a, s'.memGet a = s.memGet a

/-- R362, R366: TRAP and BKPT of a team push a TRAP entry with the pc after them, the cause and IMM, and go to TRP_VEC. R364, R366:
on a matrix stream they keep s62, s63 and the pc after them, put IMM and the cause there, and go to TRP_MVEC. -/
def Obligations.TrapEntry : Prop :=
  (∀ (i : Instr) (h : Hdr) (code : Nat) (imm : W32) (s : State) (c slot : Nat) (t : Team),
    Claims.trapOf i = some (h, code, imm) → slot < 16 → TeamIssues i h s c slot t → t.adm h ≠ 0 →
    (s.ctx t.ctx).trpVec ≠ 0 → (s.ctx t.ctx).dbgBkfreeze = false → t.stk.length < t.hdr.depth →
    ∃ s', exec i s = .next s' ∧ Claims.Moved s s' c slot t ((s.ctx t.ctx).trpVec, true) t.act
      (⟨.trap, (s.nextOf c t).1, BitVec.ofNat 64 (code * 2 ^ 57 + imm.toNat), t.act, 0⟩ :: t.stk)) ∧
  (∀ (i : Instr) (h : Hdr) (code : Nat) (imm : W32) (s : State) (c : Nat) (r : Ridge),
    Claims.trapOf i = some (h, code, imm) → RidgeIssues i h s c r → r.adm h = true → r.trap = none →
    (s.ctx r.ctx).trpMvec ≠ 0 → (s.ctx r.ctx).dbgBkfreeze = false →
    ∃ s' r', exec i s = .next s' ∧ RidgeFrame s s' c ∧ s'.ridge? c = some r' ∧
      r' = { r with pc := (s.ctx r.ctx).trpMvec, atHdr := true, wait := none, sreg := r'.sreg, shadows := r'.shadows,
                    back := false, slip := none, trap := some ((s.nextOfM c r).1, r.rs 62, r.rs 63) } ∧
      ∀ q, r'.rs q = if q = 62 then imm.zeroExtend 64 else if q = 63 then BitVec.ofNat 64 code else r.rs q)

/-- R362, R366: TRET pops the TRAP entry on top: the mask and the place of the interrupted code come back. R364, R366: TRET on a
matrix stream restores s62 and s63 and resumes. R14: a target whose word cannot be read is judged as it is read. -/
def Obligations.TrapReturn : Prop :=
  (∀ (h : Hdr) (e : Entry) (rest : List Entry) (s : State) (c slot : Nat) (t : Team), slot < 16 →
    TeamIssues (.tret h) h s c slot t → h.guard.val = 0 → t.stk = e :: rest → e.kind = .trap → e.omask ≠ 0 → e.pc1 % 2 = 0 →
    Claims.Asks s c t.ctx e.pc1 →
    let m := Claims.asked s c t.ctx e.pc1
    (s.resumeAt c t.ctx e.pc1 ≠ .bad → (m.resumeAt c t.ctx e.pc1 = .header ∨ m.resumeAt c t.ctx e.pc1 = .unread) →
      ∃ s', exec (.tret h) s = .next s' ∧ Claims.Moved m s' c slot t (e.pc1, true) e.omask rest) ∧
    (∀ a w, s.resumeAt c t.ctx e.pc1 ≠ .bad → m.resumeAt c t.ctx e.pc1 = .body a w →
      ∃ s', exec (.tret h) s = .next s' ∧
        Claims.Moved m s' c slot { t with hdrAddr := a, hdrWord := w } (e.pc1, false) e.omask rest) ∧
    (s.resumeAt c t.ctx e.pc1 = .bad →
      exec (.tret h) s = .next (m.takeTrap c slot { t with wait := none } .illegalTarget (BitVec.ofNat 64 e.pc1) t.pc))) ∧
  (∀ (h : Hdr) (resume : Nat) (v62 v63 : W64) (s : State) (c : Nat) (r : Ridge),
    RidgeIssues (.tret h) h s c r → h.guard.val = 0 → r.trap = some (resume, v62, v63) → resume % 2 = 0 → Claims.Asks s c r.ctx resume →
    let m := Claims.asked s c r.ctx resume
    s.resumeAt c r.ctx resume ≠ .bad → (m.resumeAt c r.ctx resume = .header ∨ m.resumeAt c r.ctx resume = .unread) →
    ∃ s' r', exec (.tret h) s = .next s' ∧ RidgeFrame m s' c ∧ s'.ridge? c = some r' ∧
      r' = { r with pc := resume, atHdr := true, wait := none, sreg := r'.sreg, shadows := r'.shadows, back := r'.back, trap := none } ∧
      ∀ q, r'.rs q = if q = 62 then v62 else if q = 63 then v63 else r.rs q)

namespace Sys2Proof.Claims

/-- The halt line of a core's partition rises in s' with a fault of that core alone: the count, the cause and the fault are
recorded, and no other partition changes (R368, R371). -/
def Raised (s s' : State) (c : Nat) (f : UFault) : Prop :=
  let p := s.partOf (stackOf c)
  s'.partn p = { s.partn p with halts := (s.partn p).halts + 1, cause := BitVec.ofNat 7 f.cause.code,
                                halting := some ⟨[f], false, [], s.tick, s.cycle⟩ } ∧
  ∀ q, q ≠ p → s'.partn q = s.partn q

end Sys2Proof.Claims

/-- R366, R368, R369: HALT raises the halt line of the partition with cause 0x23 and the scalar as fault address, on both kinds
of stream; nothing else of the package changes. So does TRAP or BKPT, with its own cause, IMM as fault address and the pc after
it, where no vector is set, or where a matrix stream has not left its handler; nothing else changes but that the results in
flight of the party age (R28). -/
def Obligations.HaltRaisesTheLine : Prop :=
  (∀ (h : Hdr) (a : SReg) (s : State) (c slot : Nat) (t : Team), TeamIssues (.halt h a) h s c slot t → t.adm h ≠ 0 →
    (s.partn (s.partOf (stackOf c))).halting = none →
    ∃ s', exec (.halt h a) s = .next s' ∧ s' = { s with parts := s'.parts } ∧ Cause.halt.code = 0x23 ∧
      Claims.Raised s s' c ⟨c, .halt, slot, t.pc, t.rs a, true⟩) ∧
  (∀ (h : Hdr) (a : SReg) (s : State) (c : Nat) (r : Ridge), RidgeIssues (.halt h a) h s c r → r.adm h = true →
    (s.partn (s.partOf (stackOf c))).halting = none →
    ∃ s', exec (.halt h a) s = .next s' ∧ s' = { s with parts := s'.parts } ∧
      Claims.Raised s s' c ⟨c, .halt, 0, r.pc, r.rs a, true⟩) ∧
  (∀ (i : Instr) (h : Hdr) (code : Nat) (imm : W32) (s : State) (c slot : Nat) (t : Team),
    Claims.trapOf i = some (h, code, imm) → slot < 16 → TeamIssues i h s c slot t → t.adm h ≠ 0 →
    (s.ctx t.ctx).trpVec = 0 → (s.ctx t.ctx).dbgBkfreeze = false → (s.partn (s.partOf (stackOf c))).halting = none →
    ∃ s' k, exec i s = .next s' ∧ Cause.code k = code ∧
      Claims.Raised s s' c ⟨c, k, slot, (s.nextOf c t).1, imm.zeroExtend 64, true⟩ ∧
      Aged c slot { s with parts := s'.parts } s') ∧
  ∀ (i : Instr) (h : Hdr) (code : Nat) (imm : W32) (s : State) (c : Nat) (r : Ridge),
    Claims.trapOf i = some (h, code, imm) → RidgeIssues i h s c r → r.adm h = true →
    ((s.ctx r.ctx).trpMvec = 0 ∨ r.trap.isSome = true) → (s.ctx r.ctx).dbgBkfreeze = false →
    (s.partn (s.partOf (stackOf c))).halting = none →
    ∃ s' k sh, exec i s = .next s' ∧ Cause.code k = code ∧
      Claims.Raised s s' c ⟨c, k, 0, (s.nextOfM c r).1, imm.zeroExtend 64, true⟩ ∧
      s' = State.setRidge { s with parts := s'.parts } c { r with shadows := sh }

/-- R35, R37: an instruction of the other kind of stream, or on a matrix stream a register of another class, traps ILLEGAL and
resumes at itself. R32, R37, R38, R40, R82: a register past the team's counts traps ILLEGAL; a gather form on a die
without the engine traps UNIMPL; a tile operation of a team with more or fewer lanes active than one traps ILLEGAL_MASK; and
an instruction with the check bit set that reads a result in flight traps STALL_SHORT (shown for the instructions of the
arithmetic tables). Each resumes at the instruction. That a reader depends on a result in flight whichever lanes the two act in is
the model's choice (log 45). -/
def Obligations.WrongStreamTraps : Prop :=
  (∀ (i : Instr) (s : State) (c : Nat) (r : Ridge), Claims.teamOnly i = true → s.cur = .ridge c → s.ridge? c = some r →
    exec i s = .next (s.takeTrapM c { r with wait := none } .illegal 0 r.pc)) ∧
  (∀ (i : Instr) (s : State) (c : Nat) (r : Ridge), Claims.otherClass i = true → s.cur = .ridge c → s.ridge? c = some r →
    exec i s = .next (s.takeTrapM c { r with wait := none } .illegal 0 r.pc)) ∧
  (∀ (i : Instr) (s : State) (c slot : Nat) (t : Team), Claims.ridgeOnly i = true → s.cur = .team c slot →
    s.team? c slot = some t → exec i s = .next (s.takeTrap c slot { t with wait := none } .illegal 0 t.pc)) ∧
  (∀ (i : Instr) (h : Hdr) (d : VReg) (n : Nat) (f : Src → Nat → Nat) (s : State) (c slot : Nat) (t : Team) (q : Reg),
    Claims.vectorForm i = some (h, d, n, f) → s.cur = .team c slot → s.team? c slot = some t →
    q ∈ guardReg h ++ (iRegs i).1 ++ (iRegs i).2 → t.hdr.has q = false →
    exec i s = .next (s.takeTrap c slot { t with wait := none } .illegal 0 t.pc)) ∧
  (∀ (i : Instr) (h : Hdr) (s : State) (c slot : Nat) (t : Team), Claims.gatherForm i = some h → Claims.Readable i h s c slot t →
    s.hasGather = false → exec i s = .next (s.takeTrap c slot { t with wait := none } .unimpl 0 t.pc)) ∧
  (∀ (i : Instr) (h : Hdr) (s : State) (c slot : Nat) (t : Team), Claims.leaderForm i = some h → Claims.Readable i h s c slot t →
    popcount t.act ≠ 1 → exec i s = .next (s.takeTrap c slot { t with wait := none } .illegalMask 0 t.pc)) ∧
  (∀ (i : Instr) (h : Hdr) (s : State) (c slot : Nat) (t : Team),
    ((∃ d f, Claims.scalarForm i = some (h, d, f)) ∨ ∃ d n f, Claims.vectorForm i = some (h, d, n, f)) →
    Claims.Readable i h s c slot t → unmetOf t.shadows (guardReg h ++ (iRegs i).1) ≠ [] → t.check = true →
    exec i s = .next (s.takeTrap c slot { t with wait := none } .stallShort 0 t.pc))

/-! The machine as a whole. -/

namespace Sys2Proof.Claims

/-- What an operation on elements of w bits gives, as an operation on bit vectors (R141, R142). -/
def bvOp (o : IOp) (sg : Bool) (w : Nat) (x y z : BitVec w) : BitVec w :=
  match o with
  | .add => x + y
  | .sub => x - y
  | .mul => x * y
  | .mulh =>
    if sg then (x.signExtend (2 * w) * y.signExtend (2 * w)).extractLsb' w w
    else (x.zeroExtend (2 * w) * y.zeroExtend (2 * w)).extractLsb' w w
  | .mad => x * y + z
  | .and => x &&& y
  | .or => x ||| y
  | .xor => x ^^^ y
  | .shl => x <<< y.toNat
  | .shr => x >>> y.toNat
  | .sar => x.sshiftRight y.toNat
  | .min => if (if sg then x.slt y else x.ult y) then x else y
  | .max => if (if sg then x.slt y else x.ult y) then y else x

/-- The comparison of elements of w bits (R145). -/
def bvCmp (c : ICond) (sg : Bool) (w : Nat) (x y : BitVec w) : Bool :=
  match c with
  | .eq => x == y
  | .ne => x != y
  | .lt => if sg then x.slt y else x.ult y
  | .le => if sg then x.sle y else x.ule y
  | .gt => if sg then y.slt x else y.ult x
  | .ge => if sg then y.sle x else y.ule x

/-- The opcodes that R36 leaves unassigned. -/
def unassigned (opc : Nat) : Prop :=
  opc = 0x0F ∨ (0x15 ≤ opc ∧ opc ≤ 0x1F) ∨ (0x4D ≤ opc ∧ opc ≤ 0x4F) ∨ (0x63 ≤ opc ∧ opc ≤ 0x7F) ∨
  (0x8C ≤ opc ∧ opc ≤ 0x9F) ∨ (0xAB ≤ opc ∧ opc ≤ 0xAF) ∨ (0xC8 ≤ opc ∧ opc ≤ 0xCF) ∨ (0xD5 ≤ opc ∧ opc ≤ 0xDF) ∨
  (0xE0 ≤ opc ∧ opc ≤ 0xEF)

/-- A team stands at a body word v that its next turn fetches, and may issue (R10, R25, R55, R373). -/
def TeamAt (s : State) (c slot : Nat) (t : Team) (v : Nat) : Prop :=
  ∃ w, slot < 16 ∧ s.team? c slot = some t ∧ s.mayIssue c t.ctx = true ∧ t.frozen = none ∧
    t.wait = none ∧ t.atHdr = false ∧ s.fetch c t.ctx (t.pc / 8 * 8) = .word w ∧
    bodyWord ((s.core c).bankOf t.hdr t.ctx) t.hdrWord t.pc w = some v

/-- The same for a matrix stream. -/
def RidgeAt (s : State) (c : Nat) (r : Ridge) (v : Nat) : Prop :=
  ∃ w, s.ridge? c = some r ∧ s.mayIssue c r.ctx = true ∧ r.frozen = none ∧ r.ended = false ∧
    r.wait = none ∧ r.atHdr = false ∧ s.fetch c r.ctx (r.pc / 8 * 8) = .word w ∧
    bodyWord ((s.core c).bankOf r.hdr r.ctx) r.hdrWord r.pc w = some v

/-- A team stands at a header that its next turn enters, with the word there, where no DIV entry on top of its stack names it. -/
def TeamAtHeader (s : State) (c slot : Nat) (t : Team) (w : Nat) : Prop :=
  slot < 16 ∧ s.team? c slot = some t ∧ s.mayIssue c t.ctx = true ∧ t.frozen = none ∧ t.wait = none ∧ t.atHdr = true ∧
    t.pc % 8 = 0 ∧ t.back = false ∧ s.fetch c t.ctx t.pc = .word w ∧ ∀ e rest, t.stk = e :: rest → ¬ (e.kind = .div ∧ e.pc1 = t.pc)

/-- A word that may stand where a header must, for a team with the dictionary bank or without one (R12, R13, R27). -/
def GoodHeader (w : Nat) (bank : Bool) : Prop :=
  fld w 60 4 = 15 ∧ fld w 52 8 ≠ 0 ∧ fld w 0 7 = 0 ∧ (fld w 50 2 = 0 ∨ (fld w 50 2 = 1 ∧ bank = true))

end Sys2Proof.Claims

/-- R171, R172, R176, R291, R292, R331, R333, R349, R361, R370, R381, R382, R391 to R393, R399: what reads so after reset: counters, the
registers with a stated reset value, the tick, the class registers and the ports; no context is created, and no team and no stream stands on
a core. That an unused queue holds only zeros, and no firmware waits, is of the same kind; nothing here is a value of log 3. The two
invariants of the model hold: the canonical form of memory (log 2 says what an unlisted byte reads as) and the order of the Stash
(R84, R86). -/
def Obligations.ResetValues : Prop :=  State.reset.tick = 0 ∧ State.reset.pcap = 2800 ∧ State.reset.savOldest = 3 ∧ State.reset.fwStatus = 0 ∧
  State.reset.fwGo = false ∧ State.reset.spillBase = 0 ∧ State.reset.timeOff = 0 ∧ State.reset.timeSync = false ∧
  State.reset.master = false ∧ (∀ c n, State.reset.count c n = 0) ∧
  (∀ k, State.reset.classes.get ClassReg.zero k = ⟨false, 1, 0, 0xFFFF⟩) ∧
  (∀ k, State.reset.ports.get Port.zero k = ⟨0, 0, 0, true, 0⟩) ∧
  (∀ p, (State.reset.partn p).age = 100 ∧ (State.reset.partn p).gangAge = 1000 ∧ (State.reset.partn p).switch_ = 0 ∧
    (State.reset.partn p).recBase = 0 ∧ (State.reset.partn p).halts = 0 ∧ (State.reset.partn p).cause = 0 ∧
    (State.reset.partn p).done = false ∧ ∀ q, (State.reset.partn p).queues.get Queue.zero q = Queue.zero) ∧
  (∀ c, (State.reset.ctx c).created = false ∧ (State.reset.ctx c).schSlice = 2000 ∧ (State.reset.ctx c).trpVec = 0 ∧
    (State.reset.ctx c).illh = false ∧ (State.reset.ctx c).trpMvec = 0 ∧ (State.reset.ctx c).ptroot = 0 ∧
    (State.reset.ctx c).tdescBase = 0 ∧ (State.reset.ctx c).savBase = 0 ∧ (State.reset.ctx c).savSize = 0 ∧
    (State.reset.ctx c).bcLo = 0 ∧ (State.reset.ctx c).bcHi = 0 ∧ (State.reset.ctx c).dbgHalt = false) ∧
  (∀ c, (State.reset.core c).lend = 0) ∧ (∀ c slot, State.reset.team? c slot = none) ∧ (∀ c, State.reset.ridge? c = none) ∧
  State.reset.memOk = true ∧ State.reset.stashOk = true

/-- R84, R86, R89: every step keeps the Stash in order: slice 0 is never allotted, and a rename map or a value-table entry names
slice 0 or an allotted slice only. -/
def Obligations.StashOkKept : Prop := ∀ s s', s.stashOk = true → step s = .next s' → s'.stashOk = true

/-- Every step keeps memory in its canonical form, in which equal memories are equal data. The form is the model's (log 2); the memory is
that of R173 and R283. -/
def Obligations.MemoryFormKept : Prop := ∀ s s', s.memOk = true → step s = .next s' → s'.memOk = true

/-- R39, R368, R369: no state stops the package: every step, of a party or of the device, answers a next state. -/
def Obligations.StepAnswersNext : Prop := ∀ s, ∃ s', step s = .next s'

namespace Sys2Proof.Claims

/-- The teams that one still lets go first, once a team has started passes of an instruction (R75): the team's own yield is over, but
for the one it makes, and no other waits for it longer. -/
def yieldAfter (uid : Nat) (i : Instr) (o : Team) : List Nat :=
  if o.uid = uid then (match i with | .yield .. => o.yield | _ => []) else o.yield.filter (· != uid)

/-- m is s' after n passes of an instruction of a team that stands in a slot of a core, one for each cycle (R54, R55, R75): the core is
busy for them, the slot is the last to have issued, and no other team waits for this one to go first. -/
def Started (s' m : State) (c slot uid : Nat) (i : Instr) (n : Nat) : Prop :=
  m = { s' with teams := m.teams, cores := m.cores } ∧
  m.core c = { s'.core c with lastSlot := slot, busy := max (s'.core c).busy (s'.cycle + n) } ∧
  (∀ d, d ≠ c → m.core d = s'.core d) ∧
  ∀ k o, k < 16 → k ≠ slot → s'.team? c k = some o → m.team? c k = some { o with yield := yieldAfter uid i o }

end Sys2Proof.Claims

/-- R9, R10, R25, R55: when the word that a party's next turn fetches decodes to an instruction, and it is the party's turn, the
step is exec of it, for that party, and what State.ran adds. R28, R54, R55, R75: what it adds, once a team has issued, is that the core
is busy for the passes, that the slot is the last to have issued, that the teams that yielded to it wait for it no more, and that
the team's next pass waits for its pace; nothing else changes. R87: the same for the passes of an instruction that issues in part, but
for the pace. R55: a turn that finds that a pass may not start lets another slot be chosen in the cycle. R374: a team that goes on
waiting in a blocking instruction while a request is pending freezes there. The turn is the model's agenda (log 1). -/
def Obligations.StepRunsDecoded : Prop :=
  (∀ (s : State) (rest : List Turn) (c slot : Nat) (t : Team) (v : Nat) (i : Instr),
    s.agenda = .issue (.team c slot) :: rest → Claims.TeamAt s c slot t v → decode v = .ok i →
    s.chosen c = some slot → (s.core c).busy ≤ s.cycle →
    step s = State.ranOf { s with agenda := rest } (.team c slot) i (exec i { s with agenda := rest, cur := .team c slot })) ∧
  (∀ (s : State) (rest : List Turn) (c : Nat) (r : Ridge) (v : Nat) (i : Instr),
    s.agenda = .issue (.ridge c) :: rest → Claims.RidgeAt s c r v → decode v = .ok i → r.due ≤ s.cycle →
    step s = State.ranOf { s with agenda := rest } (.ridge c) i (exec i { s with agenda := rest, cur := .ridge c })) ∧
  (∀ (s s' : State) (c slot : Nat) (t u : Team) (i : Instr), slot < 16 → s.team? c slot = some t → s'.team? c slot = some u → u ≠ t →
    let m := s.ran (.team c slot) i s'
    let n := passesIn i t.act t.lo 32
    (u.wait = none → t.blocked = false → t.trapped u = false → Claims.Started s' m c slot t.uid i n ∧
      m.team? c slot = some { u with
        yield := Claims.yieldAfter t.uid i u,
        due := if u.uid = t.uid then dueAfter i (s'.cycle + n - 1) u.shadows else u.due }) ∧
    (u.wait = none → t.blocked = true → t.trapped u = false →
      m = s'.setTeam c slot { u with due := if u.uid = t.uid then dueAfter i s'.cycle u.shadows else u.due }) ∧
    (u.wait = none → t.trapped u = true → m = s') ∧
    ∀ j w k nx, u.wait = some (.passes j w k nx) → w ≠ t.lo → Claims.Started s' m c slot t.uid i (passesIn i t.act t.lo w) ∧
      m.team? c slot = some { u with yield := Claims.yieldAfter t.uid i u }) ∧
  (∀ (s s' : State) (c slot : Nat) (t : Team) (i : Instr), s.team? c slot = some t → s'.team? c slot = some t →
    let m := s.ran (.team c slot) i s'
    (t.blocked = false → m = s'.modCore c fun x => { x with tried := slot :: x.triedIn s'.cycle, triedAt := s'.cycle }) ∧
    (t.blocked = true → m = if s.requested t.blk then s'.freezeTeam c slot t atWait else s')) ∧
  ∀ (s s' : State) (c : Nat) (r q : Ridge) (i : Instr), s.ridge? c = some r → s'.ridge? c = some q → q ≠ r → q.wait = none →
    s.ran (.ridge c) i s' =
      s'.setRidge c { q with due := if q.uid = r.uid then dueAfter i s'.cycle q.shadows else q.due }

/-- R36: an unassigned opcode traps ILLEGAL, at its own address, on both kinds of stream; and no instruction has an opcode whose top
nibble is 0xF. The turn is the model's agenda (log 1). -/
def Obligations.UnassignedOpcodeTraps : Prop :=
  (∀ (v : Nat) (i : Instr), fld v 60 4 = 15 → decode v ≠ .ok i) ∧
  ∀ (v : Nat), Claims.unassigned (fld v 56 8) →
    (∀ (s : State) (rest : List Turn) (c slot : Nat) (t : Team),
      s.agenda = .issue (.team c slot) :: rest → Claims.TeamAt s c slot t v →
      step s = .next (State.takeTrap { s with agenda := rest } c slot t .illegal 0 t.pc)) ∧
    ∀ (s : State) (rest : List Turn) (c : Nat) (r : Ridge),
      s.agenda = .issue (.ridge c) :: rest → Claims.RidgeAt s c r v →
      step s = .next (State.takeTrapM { s with agenda := rest } c r .illegal 0 r.pc)

/-- Sections 1, 2 and 13 (R10, R13, R16, R60, R374, R415): a team at a header whose word may not stand there traps ILLEGAL_HEADER; at a
good one it goes on to the body, or freezes where the header is a pre-emption point and a request is pending; at the header of the DIV
entry on top it takes up the pending lanes, and freezes there in no case; a header on an unmapped page traps PAGE, with its address.
R14, R366: a team that comes back to a word that could not be read goes on inside the body that the word stands in. That a party
freezes once it has entered its header is the model's reading (log 29), and the turn is the model's agenda (log 1). -/
def Obligations.EnteringHeaders : Prop :=
  (∀ (s : State) (rest : List Turn) (c slot : Nat) (t : Team) (w : Nat),
    s.agenda = .issue (.team c slot) :: rest → Claims.TeamAtHeader s c slot t w →
    (¬ Claims.GoodHeader w ((s.core c).bankOf t.hdr t.ctx).isSome →
      step s = .next (State.takeTrap { s with agenda := rest } c slot t .illegalHeader 0 t.pc)) ∧
    (Claims.GoodHeader w ((s.core c).bankOf t.hdr t.ctx).isSome →
      let t' := { t with hdrAddr := t.pc, hdrWord := w, pc := t.pc + 8, atHdr := false }
      (fld w 7 1 = 0 ∨ s.requested t.blk = false → step s = .next (State.setTeam { s with agenda := rest } c slot t')) ∧
      (fld w 7 1 = 1 → s.requested t.blk = true →
        step s = .next (State.freezeTeam { s with agenda := rest } c slot t' ⟨some (liveIn w), BitVec.allOnes 8, false⟩)))) ∧
  (∀ (s : State) (rest : List Turn) (c slot : Nat) (t : Team) (e : Entry) (stk : List Entry),
    s.agenda = .issue (.team c slot) :: rest → slot < 16 → s.team? c slot = some t → s.mayIssue c t.ctx = true →
    t.frozen = none → t.wait = none → t.atHdr = true → t.stk = e :: stk → e.kind = .div → e.pc1 = t.pc → e.tmask ≠ 0 →
    step s = .next (State.setTeam { s with agenda := rest } c slot
      { t with act := e.tmask, pc := e.pc2.toNat, back := false, stk := { e with tmask := 0 } :: stk })) ∧
  (∀ (s : State) (rest : List Turn) (c slot : Nat) (t : Team),
    s.agenda = .issue (.team c slot) :: rest → slot < 16 → s.team? c slot = some t → s.mayIssue c t.ctx = true →
    t.frozen = none → t.wait = none → t.atHdr = true → t.stk = [] →
    (s.fetch c t.ctx (t.pc / 8 * 8) = .unmapped →
      step s = .next (State.takeTrap (State.fetchFill { s with agenda := rest } c t.ctx (t.pc / 8 * 8)) c slot t .page
        (BitVec.ofNat 64 t.pc) t.pc)) ∧
    ∀ w b hw, s.fetch c t.ctx (t.pc / 8 * 8) = .word w → t.back = true → s.resumeAt c t.ctx t.pc = .body b hw →
      step s = .next (State.setTeam { s with agenda := rest } c slot { t with atHdr := false, hdrAddr := b, hdrWord := hw, back := false }))

/-- R18 to R22: the word that the encoder lays out for a well-formed instruction is one of 64 bits and decodes to it; and a word that
decodes is the word of its instruction, so that no bit of it is dropped, and the instruction is well formed. -/
def Obligations.EncodeDecode : Prop :=  (∀ i, Laws.RoundTrip.Statement i) ∧ ∀ w i, decode w = .ok i → encode i = some w ∧ i.wf = true

/-- Words laid out by hand from the tables of encodings decode to the instructions they stand for (R18 to R22, R66, R219, R278, R326,
R357, R366). -/
def Obligations.ManualWordsDecode : Prop :=  decode 0xB204000218000200 = .ok (.mma ⟨1, 0, false, false⟩ 0 0 3 0 0 4 0 0 false false) ∧
  decode 0xC004008690920000 = .ok (.watch ⟨1, 0, false, false⟩ 3 8 9) ∧
  decode 0xA40400A084000000 = .ok (.fwait ⟨1, 0, false, false⟩ 16 2 false) ∧
  decode 0xD00400000000002A = .ok (.trap ⟨1, 0, false, false⟩ 42) ∧
  decode 0x0104080000000004 = .ok (.bra ⟨1, 1, false, false⟩ 4) ∧
  decode 0xC404008800000005 = .ok (.srd ⟨1, 0, false, false⟩ (.s 4) false .tick) ∧
  decode 0 = .ok (.nop ⟨0, 0, false, false⟩)

/-- R141, R142: an element result is that of the operation on bit vectors of its width; with SAT a sum or difference outside the
range of its type becomes the nearer end of it. -/
def Obligations.ElementArithmetic : Prop :=  (∀ (o : IOp) (ty : ITy) (x y z : BitVec ty.w),
    elemOp o ty false x.toNat y.toNat z.toNat = (Claims.bvOp o ty.signed ty.w x y z).toNat) ∧
  (∀ (ty : ITy) (x y : BitVec ty.w) (z : Nat), ty.signed = true →
    (BitVec.ofNat ty.w (elemOp .add ty true x.toNat y.toNat z)).toInt =
      max (-(2 ^ (ty.w - 1))) (min (2 ^ (ty.w - 1) - 1) (x.toInt + y.toInt)) ∧
    (BitVec.ofNat ty.w (elemOp .sub ty true x.toNat y.toNat z)).toInt =
      max (-(2 ^ (ty.w - 1))) (min (2 ^ (ty.w - 1) - 1) (x.toInt - y.toInt))) ∧
  (∀ (ty : ITy) (x y : BitVec ty.w) (z : Nat), ty.signed = false →
    elemOp .add ty true x.toNat y.toNat z = min (2 ^ ty.w - 1) (x.toNat + y.toNat) ∧
    elemOp .sub ty true x.toNat y.toNat z = x.toNat - y.toNat) ∧
  ∀ (c : ICond) (ty : ITy) (x y : BitVec ty.w), cmpOp c ty x.toNat y.toNat = Claims.bvCmp c ty.signed ty.w x y

/-- R146: VADDC writes the sum or difference with the carry it reads, and the carry out; with p0 it reads a carry of 1 and
drops the carry out. R101: a VMOV between vector registers makes the destination read as the source does in every admitted lane, and takes a
new slice only where a pass is partial. -/
def Obligations.CarryAndMove : Prop :=
  (∀ (h : Hdr) (d : VReg) (a b : VS) (p : PReg) (sub : Bool) (s : State) (c slot : Nat) (t : Team),
    slot < 16 → s.stashOk = true → TeamIssues (.vaddc h d a b p sub) h s c slot t →
    s.lacking c t 0 ((passes (t.adm h)).map fun j => (j, 1)) = none →
    let v (o : VS) (l : Nat) : Int := (Src.num ⟨s.core c, t, []⟩ false o l : Nat)
    let k (l : Nat) : Int := if inMask (t.rp p) l then 1 else 0
    let sum (l : Nat) : Int := if sub then v a l - v b l - k l else v a l + v b l + k l
    ∃ s' t', exec (.vaddc h d a b p sub) s = .next s' ∧ s'.team? c slot = some t' ∧ TeamFrame s s' c slot ∧
      t' = { t with pc := (s.nextOf c t).1, atHdr := (s.nextOf c t).2, wait := none, vmap := t'.vmap, preg := t'.preg,
                    shadows := t'.shadows } ∧
      (∀ r l, l < 1024 → s'.vreg c slot r l =
        if r = d ∧ inMask (t.adm h) l = true then BitVec.ofInt 32 (sum l) else s.vreg c slot r l) ∧
      (∀ r l, l < 1024 → inMask (t'.rp r) l =
        if r = p ∧ p.val ≠ 0 ∧ inMask (t.adm h) l = true then (if sub then decide (sum l < 0) else decide (2 ^ 32 ≤ sum l))
        else inMask (t.rp r) l) ∧
      t'.flagsDue = t.flagsDue) ∧
  (∀ (h : Hdr) (d a : VReg) (wide : Bool) (s : State) (c slot : Nat) (t : Team),
    slot < 16 → s.stashOk = true → TeamIssues (.vmov h (.vv d a) wide) h s c slot t →
    s.lacking c t 0 (vmovNeeds (t.x s c slot h) a (wideN wide)) = none →
    ∃ s' t', exec (.vmov h (.vv d a) wide) s = .next s' ∧ s'.team? c slot = some t' ∧ TeamFrame s s' c slot ∧
      t' = { t with pc := (s.nextOf c t).1, atHdr := (s.nextOf c t).2, wait := none, vmap := t'.vmap,
                    shadows := t'.shadows } ∧
      (∀ k l, k < wideN wide → l < 1024 → inMask (t.adm h) l = true →
        s'.vreg c slot (vregAt d k) l = s.vreg c slot (vregAt a k) l) ∧
      (∀ r l, l < 1024 → (inMask (t.adm h) l = false ∨ ∀ k, k < wideN wide → r ≠ vregAt d k) →
        s'.vreg c slot r l = s.vreg c slot r l) ∧
      t'.flagsDue = t.flagsDue)

/-! Memory. -/

namespace Sys2Proof.Claims

/-- No data of the package carry an uncorrectable error (R394). -/
def Clean (s : State) : Prop := (∀ k, s.eccLines.get false k = false) ∧ ∀ k, s.portLost k = false

/-- What a memory instruction of a team leaves as it was: the other teams with their vector registers, the other cores, and all of
the package but accesses in flight, walks, the L2 of the slices and what compression keeps, single-bit errors that a read corrects,
and counters. -/
structure MemFrame (s s' : State) (c slot : Nat) : Prop where
  /-- The teams in other slots. -/
  teams : ∀ k, k ≠ tkey c slot → s'.teams.find k = s.teams.find k
  /-- Their vector registers. -/
  vregs : s.stashOk = true → ∀ k, k < 16 → k ≠ slot → ∀ r l, s'.vreg c k r l = s.vreg c k r l
  /-- The other cores. -/
  cores : ∀ d, d ≠ c → s'.core d = s.core d
  /-- The rest of the core. -/
  core : s'.core c = { s.core c with phys := (s'.core c).phys, vtb := (s'.core c).vtb, l1 := (s'.core c).l1,
                                     own := (s'.core c).own }
  /-- The rest of the package. -/
  rest : s' = { s with teams := s'.teams, cores := s'.cores, accs := s'.accs, ctr := s'.ctr, seq := s'.seq,
                       slices := s'.slices, sent := s'.sent, free := s'.free, walks := s'.walks, mem := s'.mem,
                       eccOnes := s'.eccOnes, comp := s'.comp, parts := s'.parts }
  /-- No partition halts, but for an error in a page table (R394). -/
  parts : Clean s → s'.parts = s.parts

/-- The bytes of a datum that are one access each: 16 bytes are two halves (R174). -/
def halves (n : Nat) : List (Nat × Nat) := if n = 16 then [(0, 8), (8, 8)] else [(0, n)]

/-- The address a lane forms (R188). -/
def addrOf (s : State) (c : Nat) (t : Team) (sp : Space) (a : VS) (off : BitVec 16) (l : Nat) : Nat :=
  Src.addr ⟨s.core c, t, []⟩ sp a off l

/-- Every lane listed may make its access: its address is aligned where that is asked, needs no page-table walker while all are
busy, and lies at the key given (R188, R290). -/
def Reach (s : State) (c : Nat) (t : Team) (sp : Space) (n : Nat) (rd wr align : Bool) (ls : List Nat) (va key : Nat → Nat) : Prop :=
  ∀ l ∈ ls, (align = true → va l % n = 0) ∧ (sp = .glob → s.walkWaits c t.ctx (va l) = false) ∧ ∃ cls, s.spanAt (t.who c) sp l (va l) n rd wr = .ok (key l) cls

/-- The lanes an access is made for: one where a scalar makes it once (R189, R190). -/
def lanesOf (m : Mask) (once : Bool) : List Nat := if once then (lowest m).toList else lanes m

/-- Whether a read or an atomic of a party that is still to be bound or performed touches n bytes (R285, R297). -/
def ahead (s : State) (uid key n : Nat) : Bool :=
  s.accs.any fun b => b.uid == uid && b.stage == 0 && !b.isWrite && decide (key < b.key + b.len) && decide (b.key < key + n)

/-- The bytes that a read takes as it issues: in pocket those that stand there; for a plain global one those that the core's L1
serves, unless a read or an atomic of the team to them is in flight (R175, R297, R298; log 23). -/
def atOnce (s : State) (c : Nat) (t : Team) (sp : Space) (ord : Order) (key n : Nat) : Option (List Byte) :=
  match sp with
  | .pocket => some (s.memRead key n)
  | .glob => if ord = .acq ∨ ahead s t.uid key n = true then none else (s.core c).l1Hit t.vers key n
  | _ => none

/-- No datum that is read at once in pocket carries an uncorrectable error (R394). -/
def Sound (s : State) (sp : Space) (n : Nat) (ls : List Nat) (key : Nat → Nat) : Prop :=
  sp = .pocket → ∀ l ∈ ls, ∀ p ∈ halves n, s.eccBad (key l + p.1) = false

/-- The accesses in flight, where reads of a core fill its L1 no more: the model's reading of what an acquire does (log 17). -/
def noFills (s : State) (c : Nat) : List Access :=
  s.accs.map fun (a : Access) => if a.core == c && a.isRead then { a with noFill := true } else a

/-- The accesses after a form that reads: those before, and the reads it puts in flight, as (lane, key, length, destinations), and
no others. An acquire that puts none in flight is bound at once. -/
def Reading (s s' : State) (c uid : Nat) (ord : Order) (sx : Bool) (reads : List (Nat × Nat × Nat × List Dest)) : Prop :=
  ∃ new, s'.accs = (if ord = .acq ∧ reads = [] then noFills s c else s.accs) ++ new ∧
    new.map (fun (q : Access) => (q.lane, q.key, q.len, q.dests)) = reads ∧
    ∀ q ∈ new, q.kind = .read ∧ q.uid = uid ∧ q.core = c ∧ q.acq = (ord == .acq) ∧ q.sx = sx ∧ q.stage = 0

/-- The reads in flight of the lanes listed, into the slices that the destination's registers name. -/
def readsOf (s : State) (c : Nat) (t t' : Team) (sp : Space) (ord : Order) (d : VReg) (sz : Size) (ls : List Nat) (key : Nat → Nat) :
    List (Nat × Nat × Nat × List Dest) :=
  ls.flatMap fun l => ((halves sz.bytes).filter fun p => (atOnce s c t sp ord (key l + p.1) p.2).isNone).map fun p =>
    (l, key l + p.1, p.2,
      (((List.range sz.regs).map fun k => Dest.slice (t'.slice (vregAt d k).val (l / 32))).drop (p.1 / 4)).take (max 1 (p.2 / 4)))

/-- The lanes listed hold what was read for them at once. -/
def Taken (s s' : State) (c slot : Nat) (t : Team) (sp : Space) (ord : Order) (d : VReg) (sz : Size) (sx : Bool) (ls : List Nat)
    (key : Nat → Nat) : Prop :=
  ∀ l ∈ ls, ∀ p ∈ halves sz.bytes, ∀ bs, atOnce s c t sp ord (key l + p.1) p.2 = some bs → ∀ j, j < max 1 (p.2 / 4) →
    s'.vreg c slot (vregAt d (p.1 / 4 + j)) l = regOf (extendTo 32 p.2 sx (ofLe bs)) j

/-- Where no pass of a load misses the value table, every lane of each reads what the entry's slice holds (R92). -/
def AllHit (s s' : State) (i : Instr) (x : X) (d : VReg) (ms : List Nat) : Prop :=
  ms = [] → ∀ j ∈ passes x.adm, ∃ key sl, passKey i x j = some key ∧ (s.core x.c).vtHit key (s.cycle + x.passNo j) = some sl ∧
    ∀ l, l < 32 → s'.vreg x.c x.slot d (32 * j + l) = laneOf ((s.core x.c).data sl) l

/-- The accesses that LD into a scalar, ST, ATOM and RED check: space, bytes, whether they read and write, the lanes and their
addresses (R188). -/
def checkOf (s : State) (c : Nat) (t : Team) : Instr → Option (Hdr × Space × Nat × Bool × Bool × List Nat × (Nat → Nat))
  | .ld h (.s _) a sp _ sz _ off => some (h, sp, sz.bytes, true, false, lanesOf (t.adm h) true, addrOf s c t sp a off)
  | .st h data a sp _ sz off => some (h, sp, sz.bytes, false, true, lanesOf (t.adm h) (isScalar data), addrOf s c t sp a off)
  | .atom h data a sp _ sz _ _ _ _ => some (h, sp, sz.bytes, true, true, lanesOf (t.adm h) (isScalar data), addrOf s c t sp a 0)
  | .red h data a sp _ sz _ _ _ =>
    some (h, sp, sz.bytes, true, true, lanesOf (t.adm h) (isScalar data && isScalar a), addrOf s c t sp a 0)
  | _ => none

/-- l is the first of the lanes listed that f picks. -/
def FirstOf (ls : List Nat) (f : Nat → Prop) (l : Nat) : Prop := ∃ a b, ls = a ++ l :: b ∧ f l ∧ ∀ k ∈ a, ¬ f k

/-- m is s with the walks of the addresses asked for: walks, the lines that they read at their homes, and counters; and no partition
halts, but for an error in a page table (R289, R290, R294, R394). -/
def Walked (s m : State) : Prop :=
  m = { s with ctr := m.ctr, walks := m.walks, slices := m.slices, sent := m.sent, eccOnes := m.eccOnes, comp := m.comp,
               free := m.free, parts := m.parts } ∧
    (Clean s → m.parts = s.parts)

/-- What stands at the home of a byte after the lanes listed have written theirs, the last listed prevailing (R189). -/
def written (s : State) (ls : List Nat) (key : Nat → Nat) (bytes : Nat → List Byte) (a : Nat) : Byte :=
  match ls.reverse.find? fun l => decide (key l ≤ a) && decide (a < key l + (bytes l).length) with
  | some l => (bytes l).getD (a - key l) 0
  | none => s.memGet a

end Sys2Proof.Claims

/-- R188, R189: a load into a scalar is made once: what it takes as it issues (Claims.atOnce) is in the scalar, and else one read
is put in flight, to the scalar. An acquire is marked so. (A scalar DATA admits SIZE up to 64, R186.) R93, R188, R189: a load into
vector registers gives every admitted lane of a pass that misses the value table a new slice; a lane that takes its data as it
issues holds them, and for every other one a read is put in flight for each access, to that slice, and no others; the other lanes
keep their values. R92: where every pass hits, its lanes read what the entry's slice holds.
That a hit in the L1 and an access to pocket take effect at issue is the model's reading (log 23), and so is that the reads of the core
in flight fill its L1 no more once an acquire is bound (log 17). -/
def Obligations.Loads : Prop :=
  (∀ (h : Hdr) (d : SReg) (a : VS) (sp : Space) (ord : Order) (sz : Size) (sx : Bool) (off : BitVec 16) (s : State) (c slot : Nat)
    (t : Team) (l : Nat) (key : Nat → Nat),
    let i := Instr.ld h (.s d) a sp ord sz sx off
    let now := Claims.atOnce s c t sp ord (key l) sz.bytes
    slot < 16 → TeamIssues i h s c slot t → lowest (t.adm h) = some l → s.acquiring t.uid = false → sz ≠ .b128 →
    s.teamOf t.uid = some (tkey c slot, t) →
    Claims.Reach s c t sp sz.bytes true false true [l] (Claims.addrOf s c t sp a off) key → Claims.Sound s sp sz.bytes [l] key →
    ∃ s' t', exec i s = .next s' ∧ s'.team? c slot = some t' ∧ Claims.MemFrame s s' c slot ∧ (∀ q, s'.memGet q = s.memGet q) ∧
      (∀ r k, s'.vreg c slot r k = s.vreg c slot r k) ∧
      t' = { t with pc := (s.nextOf c t).1, atHdr := (s.nextOf c t).2, wait := none, sreg := t'.sreg, shadows := t'.shadows,
                    vers := t'.vers } ∧ t'.flagsDue = t.flagsDue ∧
      (∀ r, t'.rs r = match now with
        | some bs => if r = d ∧ d.val ≠ 0 then BitVec.ofNat 64 (extendTo 64 sz.bytes sx (ofLe bs)) else t.rs r
        | none => t.rs r) ∧
      Claims.Reading s s' c t.uid ord sx (if now.isSome then [] else [(l, key l, sz.bytes, [.scalar d.val])])) ∧
  (∀ (h : Hdr) (d : VReg) (a : VS) (sp : Space) (ord : Order) (sz : Size) (sx : Bool) (off : BitVec 16) (s : State) (c slot : Nat)
    (t : Team) (key : Nat → Nat),
    let i := Instr.ld h (.v d) a sp ord sz sx off
    let ms := (t.x s c slot h).missing i (fun _ => true) s.cycle (s.core c) s.seq (passes (t.adm h))
    let ls := (lanes (t.adm h)).filter fun l => ms.contains (l / 32)
    slot < 16 → s.stashOk = true → TeamIssues i h s c slot t → t.adm h ≠ 0 → s.acquiring t.uid = false →
    s.teamOf t.uid = some (tkey c slot, t) → s.lacking c t 0 (loadNeeds sz.regs ms (passes (t.adm h))) = none →
    Claims.Reach s c t sp sz.bytes true false true (lanes (t.adm h)) (Claims.addrOf s c t sp a off) key →
    Claims.Sound s sp sz.bytes ls key →
    ∃ s' t', exec i s = .next s' ∧ s'.team? c slot = some t' ∧ Claims.MemFrame s s' c slot ∧ (∀ q, s'.memGet q = s.memGet q) ∧
      t' = { t with pc := (s.nextOf c t).1, atHdr := (s.nextOf c t).2, wait := none, vmap := t'.vmap, shadows := t'.shadows,
                    vers := t'.vers } ∧ t'.flagsDue = t.flagsDue ∧
      Claims.Reading s s' c t.uid ord sx (Claims.readsOf s c t t' sp ord d sz ls key) ∧
      Claims.Taken s s' c slot t sp ord d sz sx ls key ∧ Claims.AllHit s s' i (t.x s c slot h) d ms ∧
      (∀ r l, l < 1024 → (inMask (t.adm h) l = false ∨ ∀ k, k < sz.regs → r ≠ vregAt d k) →
        s'.vreg c slot r l = s.vreg c slot r l))

/-- R175, R188, R189: a store in pocket writes its bytes at once, the higher lane's prevailing; any other puts a write in flight for
each access, lanes ascending, and memory is as it was until it is performed. A release's writes wait for what the team issued before.
R188: before any access LD into a scalar, ST, ATOM and RED raise PROT for a lane without a permission or outside its space, else
trap ALIGN at the lowest misaligned lane, else PAGE at the lowest lane whose page is not mapped; no register and no memory changes.
That pocket is written at issue is the model's reading (log 23). -/
def Obligations.StoreWrites : Prop :=  (∀ (h : Hdr) (data a : VS) (sp : Space) (ord : Order) (sz : Size) (off : BitVec 16) (s : State) (c slot : Nat) (t : Team)
    (key : Nat → Nat),
    let i := Instr.st h data a sp ord sz off
    let ls := Claims.lanesOf (t.adm h) (isScalar data)
    let bytes := Src.bytes ⟨s.core c, t, []⟩ data sz.bytes
    slot < 16 → TeamIssues i h s c slot t → t.adm h ≠ 0 → s.acquiring t.uid = false →
    (sp = .pocket → isRel ord = true → s.owes t.uid s.seq = false) →
    Claims.Reach s c t sp sz.bytes false true true ls (Claims.addrOf s c t sp a off) key →
    ∃ s', exec i s = .next s' ∧ Claims.MemFrame s s' c slot ∧ (∀ r k, s'.vreg c slot r k = s.vreg c slot r k) ∧
      (∃ t', s'.team? c slot = some t' ∧ t'.flagsDue = t.flagsDue ∧
        t' = { t with pc := (s.nextOf c t).1, atHdr := (s.nextOf c t).2, wait := none, shadows := t'.shadows }) ∧
      (sp = .pocket → s'.accs = s.accs ∧ ∀ q, s'.memGet q = Claims.written s ls key bytes q) ∧
      (sp ≠ .pocket → (∀ q, s'.memGet q = s.memGet q) ∧ s'.accs.take s.accs.length = s.accs ∧
        (s'.accs.drop s.accs.length).map (fun q => (q.kind, q.key, q.len, q.uid, q.core, q.stage)) =
          (ls.flatMap fun l => (Claims.halves sz.bytes).map fun p =>
            (AccK.write (((bytes l).drop p.1).take p.2), key l + p.1, p.2, t.uid, c, 0)) ∧
        ∀ q ∈ s'.accs.drop s.accs.length, q.depth = t.depth ∧ if isRel ord then s.seq ≤ q.after else q.after = t.relSeq)) ∧
  ∀ (i : Instr) (h : Hdr) (sp : Space) (n : Nat) (rd wr : Bool) (ls : List Nat) (va : Nat → Nat) (s : State) (c slot : Nat) (t : Team)
    (l : Nat),
    let span (k : Nat) : At := s.spanAt (t.who c) sp k (va k) n rd wr
    Claims.checkOf s c t i = some (h, sp, n, rd, wr, ls, va) → slot < 16 → TeamIssues i h s c slot t → t.adm h ≠ 0 →
    s.acquiring t.uid = false → (sp = .glob → ∀ k ∈ ls, s.walkWaits c t.ctx (va k) = false) →
    (Claims.FirstOf ls (fun k => span k = .prot) l →
      ∃ m, Claims.Walked s m ∧ exec i s = .next (m.fatalAt c slot .prot t.pc (BitVec.ofNat 64 (va l)))) ∧
    ((∀ k ∈ ls, span k ≠ .prot) → Claims.FirstOf ls (fun k => va k % n ≠ 0) l →
      ∃ m, Claims.Walked s m ∧ exec i s = .next (m.takeTrap c slot { t with wait := none } .align (BitVec.ofNat 64 (va l)) t.pc)) ∧
    ((∀ k ∈ ls, span k ≠ .prot ∧ va k % n = 0) → Claims.FirstOf ls (fun k => span k = .unmapped) l →
      ∃ m, Claims.Walked s m ∧ exec i s = .next (m.takeTrap c slot { t with wait := none } .page (BitVec.ofNat 64 (va l)) t.pc))

/-- R190: ATOM and RED put an atomic in flight for each lane, ascending; ATOM's old value goes to the scalar, or to the slice that the
lane's register now names. Memory is as it was until it is performed. That a form with scalar DATA takes the address and the operand
of the lowest admitted lane is the model's choice (log 47), and that the operand may be a vector or a scalar is its reading (log 14). -/
def Obligations.AtomicIssue : Prop :=  (∀ (h : Hdr) (data a : VS) (sp : Space) (ord : Order) (sz : Size) (sx : Bool) (op : AOp) (ft : Fin 3) (s : State)
    (c slot : Nat) (t : Team) (key : Nat → Nat),
    let i := Instr.red h data a sp ord sz sx op ft
    let ls := Claims.lanesOf (t.adm h) (isScalar data && isScalar a)
    slot < 16 → TeamIssues i h s c slot t → t.adm h ≠ 0 → s.acquiring t.uid = false →
    Claims.Reach s c t sp sz.bytes true true true ls (Claims.addrOf s c t sp a 0) key →
    ∃ s', exec i s = .next s' ∧ Claims.MemFrame s s' c slot ∧ (∀ r k, s'.vreg c slot r k = s.vreg c slot r k) ∧
      (∃ t', s'.team? c slot = some t' ∧ t'.flagsDue = t.flagsDue ∧
        t' = { t with pc := (s.nextOf c t).1, atHdr := (s.nextOf c t).2, wait := none, shadows := t'.shadows }) ∧
      (∀ q, s'.memGet q = s.memGet q) ∧ s'.accs.take s.accs.length = s.accs ∧
      (s'.accs.drop s.accs.length).map (fun q => (q.kind, q.key, q.len, q.uid, q.dests)) =
        ls.map fun l => (AccK.atomic op ft.val sx (Src.operand ⟨s.core c, t, []⟩ op sz.bytes data l).1
          (Src.operand ⟨s.core c, t, []⟩ op sz.bytes data l).2, key l, sz.bytes, t.uid, [])) ∧
  (∀ (h : Hdr) (d : SReg) (a : VS) (sp : Space) (ord : Order) (sz : Size) (sx : Bool) (b : VS) (op : AOp) (ft : Fin 3) (s : State)
    (c slot : Nat) (t : Team) (l : Nat) (key : Nat → Nat),
    let i := Instr.atom h (.s d) a sp ord sz sx b op ft
    slot < 16 → TeamIssues i h s c slot t → lowest (t.adm h) = some l → s.acquiring t.uid = false →
    Claims.Reach s c t sp sz.bytes true true true [l] (Claims.addrOf s c t sp a 0) key →
    ∃ s' q, exec i s = .next s' ∧ Claims.MemFrame s s' c slot ∧ (∀ r k, s'.vreg c slot r k = s.vreg c slot r k) ∧
      (∀ q, s'.memGet q = s.memGet q) ∧ s'.accs = s.accs ++ [q] ∧
      q.kind = .atomic op ft.val sx (Src.operand ⟨s.core c, t, []⟩ op sz.bytes b l).1 (Src.operand ⟨s.core c, t, []⟩ op sz.bytes b l).2 ∧
      q.key = key l ∧ q.len = sz.bytes ∧ q.uid = t.uid ∧ q.acq = isAcq ord ∧ q.dests = [.scalar d.val]) ∧
  ∀ (h : Hdr) (d : VReg) (a : VS) (sp : Space) (ord : Order) (sz : Size) (sx : Bool) (b : VS) (op : AOp) (ft : Fin 3) (s : State)
    (c slot : Nat) (t : Team) (key : Nat → Nat),
    let i := Instr.atom h (.v d) a sp ord sz sx b op ft
    slot < 16 → s.stashOk = true → TeamIssues i h s c slot t → t.adm h ≠ 0 → s.acquiring t.uid = false →
    s.lacking c t 0 ((passes (t.adm h)).map fun j => (j, sz.regs)) = none →
    Claims.Reach s c t sp sz.bytes true true true (lanes (t.adm h)) (Claims.addrOf s c t sp a 0) key →
    ∃ s' t', exec i s = .next s' ∧ s'.team? c slot = some t' ∧ Claims.MemFrame s s' c slot ∧ (∀ q, s'.memGet q = s.memGet q) ∧
      s'.accs.take s.accs.length = s.accs ∧
      (s'.accs.drop s.accs.length).map (fun q => (q.kind, q.key, q.len, q.uid, q.dests)) =
        (lanes (t.adm h)).map fun l => (AccK.atomic op ft.val sx (Src.operand ⟨s.core c, t, []⟩ op sz.bytes b l).1
          (Src.operand ⟨s.core c, t, []⟩ op sz.bytes b l).2, key l, sz.bytes, t.uid,
          (List.range sz.regs).map fun k => Dest.slice (t'.slice (vregAt d k).val (l / 32)))

/-- R175, R191, R298: FENCE as a release makes later writes of the team wait for what it issued before; as an acquire, which waits
until its reads are bound, it drops every word of the L1 that the core does not own, and reads of the core in flight fill it no
more. It kills the team's load entries. PRF changes no
register and no memory. That reads in flight fill the L1 no more is the model's reading (log 17). -/
def Obligations.FenceAndPrefetch : Prop :=  (∀ (h : Hdr) (ord : Order) (s : State) (c slot : Nat) (t : Team), slot < 16 → TeamIssues (.fence h ord) h s c slot t →
    t.adm h ≠ 0 → s.acquiring t.uid = false → (isAcq ord = true → s.reading t.uid = false) →
    s.teamOf t.uid = some (tkey c slot, t) →
    ∃ s' t', exec (.fence h ord) s = .next s' ∧ s'.team? c slot = some t' ∧ Claims.MemFrame s s' c slot ∧
      (∀ q, s'.memGet q = s.memGet q) ∧ (∀ r k, s'.vreg c slot r k = s.vreg c slot r k) ∧
      s'.accs = (if isAcq ord then Claims.noFills s c else s.accs) ∧ t'.flagsDue = t.flagsDue ∧
      t' = { t with pc := (s.nextOf c t).1, atHdr := (s.nextOf c t).2, wait := none, shadows := t'.shadows,
                    relSeq := if isRel ord then s.seq else t.relSeq } ∧
      (∀ e ∈ (s'.core c).vtb, isLoadKey e.key slot = false) ∧
      (isAcq ord = true → ∀ l ∈ (s'.core c).l1, ∀ w, w < 32 → l.valid.getLsbD w = true →
        (s.core c).own.get false (32 * l.line + w) = true) ∧
      (isAcq ord = false → (s'.core c).l1 = (s.core c).l1)) ∧
  ∀ (h : Hdr) (l2 : Bool) (a : VS) (off : BitVec 16) (s : State) (c slot : Nat) (t : Team), slot < 16 →
    TeamIssues (.prf h l2 a off) h s c slot t → s.acquiring t.uid = false →
    ∃ s' t', exec (.prf h l2 a off) s = .next s' ∧ s'.team? c slot = some t' ∧ Claims.MemFrame s s' c slot ∧
      (∀ q, s'.memGet q = s.memGet q) ∧ (∀ r k, s'.vreg c slot r k = s.vreg c slot r k) ∧ t'.flagsDue = t.flagsDue ∧
      t' = { t with pc := (s.nextOf c t).1, atHdr := (s.nextOf c t).2, wait := none, shadows := t'.shadows }

/-- R179, R188, R192: a VLD through a set view of its element size reads, for each admitted lane whose element the view holds, at
the element's address, into the lane's slice, and no others; a lane that takes its element as it issues (Claims.atOnce) holds it;
the validity predicate says which lanes the view holds. R179, R192: a VST writes the admitted lanes whose elements the view holds,
and no other byte: in pocket at once, elsewhere in flight. That a hit in the L1 and an access to pocket take effect at issue is the
model's reading (log 23), and so is that the reads of the core in flight fill its L1 no more once an acquire is bound (log 17). -/
def Obligations.ViewAccess : Prop :=
  (∀ (h : Hdr) (d : VReg) (w : WReg) (ord : Order) (sz : Size) (sx : Bool) (idx : VS) (p : Option PReg) (s : State) (c slot : Nat)
    (t : Team) (key : Nat → Nat),
    let i := Instr.vld h d w ord sz sx idx p
    let v := t.viewOf w
    let el (l : Nat) := viewElem v (Src.elemNo ⟨s.core c, t, []⟩ idx l)
    let ms := (t.x s c slot h).missing i (fun j => v.zf || (List.range 32).all fun l => (el (32 * j + l)).isSome) s.cycle (s.core c) s.seq
      (passes (t.adm h))
    let ls := (lanes (t.adm h)).filter fun l => ms.contains (l / 32) && (el l).isSome
    slot < 16 → s.stashOk = true → TeamIssues i h s c slot t → t.adm h ≠ 0 → s.acquiring t.uid = false →
    s.teamOf t.uid = some (tkey c slot, t) → v.valid = true → sz.bytes = 2 ^ v.desc.esize →
    s.compassHolds (t.who c) v false = false → s.lacking c t 0 (loadNeeds sz.regs ms (passes (t.adm h))) = none →
    (∀ l ∈ ls, key l % sz.bytes = 0) →
    Claims.Reach s c t v.desc.space sz.bytes true false false ((lanes (t.adm h)).filter fun l => (el l).isSome)
      (fun l => (el l).getD 0) key →
    Claims.Sound s v.desc.space sz.bytes ls key →
    ∃ s' t', exec i s = .next s' ∧ s'.team? c slot = some t' ∧ Claims.MemFrame s s' c slot ∧ (∀ q, s'.memGet q = s.memGet q) ∧
      t' = { t with pc := (s.nextOf c t).1, atHdr := (s.nextOf c t).2, wait := none, vmap := t'.vmap, preg := t'.preg,
                    shadows := t'.shadows, vers := t'.vers } ∧ t'.flagsDue = t.flagsDue ∧
      (∀ r l, l < 1024 → inMask (t'.rp r) l =
        if p = some r ∧ r.val ≠ 0 ∧ inMask (t.adm h) l = true then (el l).isSome else inMask (t.rp r) l) ∧
      Claims.Reading s s' c t.uid ord sx (Claims.readsOf s c t t' v.desc.space ord d sz ls key) ∧
      Claims.Taken s s' c slot t v.desc.space ord d sz sx ls key ∧ Claims.AllHit s s' i (t.x s c slot h) d ms ∧
      (∀ k l, k < sz.regs → l ∈ lanes (t.adm h) → l / 32 ∈ ms → el l = none → v.zf = true → s'.vreg c slot (vregAt d k) l = 0) ∧
      (∀ r l, l < 1024 → (inMask (t.adm h) l = false ∨ (el l = none ∧ v.zf = false ∧ l / 32 ∈ ms) ∨
        ∀ k, k < sz.regs → r ≠ vregAt d k) → s'.vreg c slot r l = s.vreg c slot r l)) ∧
  (∀ (h : Hdr) (d : VReg) (w : WReg) (ord : Order) (sz : Size) (idx : VS) (s : State) (c slot : Nat) (t : Team) (key : Nat → Nat),
    let i := Instr.vst h d w ord sz idx
    let v := t.viewOf w
    let el (l : Nat) := viewElem v (Src.elemNo ⟨s.core c, t, []⟩ idx l)
    let ls := (lanes (t.adm h)).filter fun l => (el l).isSome
    let bytes := Src.bytes ⟨s.core c, t, []⟩ (.v d) sz.bytes
    slot < 16 → TeamIssues i h s c slot t → t.adm h ≠ 0 → s.acquiring t.uid = false → v.valid = true →
    sz.bytes = 2 ^ v.desc.esize → (v.desc.space = .pocket → isRel ord = true → s.owes t.uid s.seq = false) →
    s.compassHolds (t.who c) v true = false →
    Claims.Reach s c t v.desc.space sz.bytes false true false ls (fun l => (el l).getD 0) key →
    ∃ s', exec i s = .next s' ∧ Claims.MemFrame s s' c slot ∧ (∀ r k, s'.vreg c slot r k = s.vreg c slot r k) ∧
      (∃ t', s'.team? c slot = some t' ∧ t'.flagsDue = t.flagsDue ∧
        t' = { t with pc := (s.nextOf c t).1, atHdr := (s.nextOf c t).2, wait := none, shadows := t'.shadows }) ∧
      (v.desc.space = .pocket → s'.accs = s.accs ∧ ∀ q, s'.memGet q = Claims.written s ls key bytes q) ∧
      (v.desc.space ≠ .pocket → (∀ q, s'.memGet q = s.memGet q) ∧ s'.accs.take s.accs.length = s.accs ∧
        (s'.accs.drop s.accs.length).map (fun q => (q.kind, q.key, q.uid)) =
          ls.flatMap fun l => (Claims.halves sz.bytes).map fun p =>
            (AccK.write (((bytes l).drop p.1).take p.2), key l + p.1, t.uid)))

/-! Accesses in flight, and the events of a core. -/

namespace Sys2Proof.Claims

/-- The state with an access gone. -/
def without (s : State) (id : Nat) : List Access := s.accs.filter fun a => a.id != id

/-- The team that a number names is where the table of teams has it. -/
def Known (s : State) (uid : Nat) : Prop := ∀ k t, s.teamOf uid = some (k, t) → s.teams.find k = some t

/-- A home puts bytes at a key: what memory then holds. -/
def putAt (s : State) (key : Nat) (bs : List Byte) (q : Nat) : Byte :=
  if key ≤ q ∧ q < key + bs.length then bs.getD (q - key) 0 else s.memGet q

/-- What a performed write or atomic leaves as it was: every core, every context and what teams hold but the versions they
have seen. -/
def HomeFrame (s s' : State) : Prop :=
  s' = { s with mem := s'.mem, accs := s'.accs, owners := s'.owners, slices := s'.slices, comp := s'.comp, ctr := s'.ctr,
                free := s'.free, ors := s'.ors, teams := s'.teams } ∧
  ∀ k, (s'.teams.find k).map (fun t => { t with vers := [] }) = (s.teams.find k).map fun t => { t with vers := [] }

end Sys2Proof.Claims

/-- R174, R296, R299, R317: a store that may be performed puts its bytes at its home, whole, and nothing else in memory changes; in
this package a whole word it covers comes to be owned by its core (a unit's is owned by none), a word it covers in part by none, and
every other core that owned one is to be revoked; so is every other core with a copy of a descriptor that it stores (R195). It then
waits for its acknowledgement. R317: a store that would meet a full spill ring is held, and changes no memory. R174, R190, R298: an
atomic that may be performed puts f of the old value at its home, where no core then owns its word, and its old value reaches the
scalar it is bound for. That an access is performed whole in one step is the model's choice (log 23), as is what stays of other
packages (log 12). -/
def Obligations.StoresAndAtomicsPerformed : Prop :=
  (∀ (id : Nat) (a : Access) (bs : List Byte) (s : State), s.access? id = some a → a.kind = .write bs → a.len = bs.length →
    s.mayPerform a = true → s.accHeld a bs = false → (a.global = true → s.local_ a.key = true) → Claims.Known s a.uid →
    ∀ i ∈ [Instr.storePerform id, Instr.heldWriteRelease id], (a.held = true ↔ i = .heldWriteRelease id) →
      ∃ s' a', exec i s = .next s' ∧ Claims.HomeFrame s s' ∧ (∀ q, s'.memGet q = Claims.putAt s a.key bs q) ∧
        s'.access? id = some a' ∧ a' = { a with stage := 1, held := false, revoke := a'.revoke } ∧
        (a.global = true → (∀ w, s'.owners.find w =
            if w ∈ fullWords a.key bs.length ∧ a.core < 65536 then some a.core
            else if w ∈ wordsOf a.key bs.length then none else s.owners.find w) ∧
          (a.wide = false → ∀ d, d ∈ a'.revoke ↔ ∃ w ∈ wordsOf a.key bs.length, s.owners.find w = some d ∧
            ¬ (d = a.core ∧ a.core < 65536 ∧ w ∈ fullWords a.key bs.length)) ∧
          (a.wide = true → ∀ d, d ≠ a.core → ((s.core d).l1Line (a.key / 128)).isSome = true → d ∈ a'.revoke))) ∧
  (∀ (id : Nat) (a : Access) (bs : List Byte) (s : State), s.access? id = some a → a.kind = .write bs → s.mayPerform a = true →
    s.accHeld a bs = true → a.held = false →
    ∃ s', exec (.storePerform id) s = .next s' ∧ s' = { s with accs := s'.accs } ∧ s'.access? id = some { a with held := true }) ∧
  (∀ (id : Nat) (a : Access) (op : AOp) (ft : Nat) (sx : Bool) (b c : W64) (s : State), s.access? id = some a →
    a.kind = .atomic op ft sx b c → s.mayPerform a = true → a.held = false → a.acq = false →
    (a.global = true → s.local_ a.key = true) → s.onPath a = true → s.eccBad a.key = false →
    let old := ofLe (s.memRead a.key a.len)
    let new := toLe a.len (atomNew op ft sx (8 * a.len) old (b.toNat % 2 ^ (8 * a.len)) (c.toNat % 2 ^ (8 * a.len)))
    s.accHeld a new = false → Claims.Known s a.uid →
    ∃ s' a', exec (.atomicPerform id) s = .next s' ∧ (∀ q, s'.memGet q = Claims.putAt s a.key new q) ∧
      s'.access? id = some a' ∧ a' = { a with stage := 1, revoke := a'.revoke, dests := [] } ∧
      (a.global = true → ∀ w ∈ wordsOf a.key a.len, s'.owners.find w = none) ∧
      (∀ k t r, s.teamOf a.uid = some (k, t) → a.dests = [.scalar r] → r < 64 →
        ∃ t', s'.teams.find k = some t' ∧ ∀ q, t'.rs q =
          if q.val = r ∧ r ≠ 0 then BitVec.ofNat 64 (extendTo 64 a.len a.sx old) else t.rs q) ∧
      ∀ k t, s.teams.find k = some t → t.uid ≠ a.uid → s'.teams.find k = some t)

/-- R296: a write or an atomic is acknowledged once every core that owned its words has been revoked, over a path that works
(R390), and not before; a revocation drops the words from that core's L1 and ends its ownership of them. An acknowledgement may
complete a debugger halt (R382). -/
def Obligations.RevokeThenAcknowledge : Prop :=  (∀ (id core : Nat) (a : Access) (s : State), s.access? id = some a → core ∈ a.revoke →
    ∃ s' a', exec (.revocation id core) s = .next s' ∧ s' = { s with accs := s'.accs, cores := s'.cores } ∧
      s'.access? id = some a' ∧ a' = { a with revoke := a.revoke.filter (· != core) } ∧
      (∀ d, d ≠ core → s'.core d = s.core d) ∧
      s'.core core = { s.core core with l1 := (s'.core core).l1, own := (s'.core core).own } ∧
      ∀ w ∈ wordsOf a.key a.len, (s'.core core).own.find w = none ∧
        ∀ l ∈ (s'.core core).l1, l.line = w / 32 → l.valid.getLsbD (w % 32) = false) ∧
  ∀ (id : Nat) (a : Access) (s : State), s.access? id = some a →
    ∃ s', exec (.writeAcknowledge id) s = .next s' ∧ s' = { s with accs := s'.accs, ctxs := s'.ctxs } ∧
      s'.accs = (if a.stage = 1 ∧ a.revoke = [] ∧ s.onPath a = true then Claims.without s id else s.accs) ∧
      ∀ d, s'.ctx d = { s.ctx d with dbgFrozen := (s'.ctx d).dbgFrozen } ∧ ((s.ctx d).dbgHalt = false → s'.ctx d = s.ctx d)

/-- R189, R297: a read that may be bound delivers what its home holds: here to a scalar, sign- or zero-extended, and the access is
over. R368, R371, R394: a read response with an uncorrectable error raises the halt line of the core's partition with cause ECC,
and its home slice keeps the address. -/
def Obligations.ReadsDelivered : Prop :=
  (∀ (id : Nat) (a : Access) (r : Nat) (q : Nat) (t : Team) (s : State), s.access? id = some a → a.kind = .read →
    s.mayPerform a = true → s.onPath a = true → s.eccBad a.key = false → a.dests = [.scalar r] → r < 64 → a.acq = false →
    s.teamOf a.uid = some (q, t) →
    (a.global = true → s.local_ a.key = true ∧ (s.core a.core).l1Line (a.key / 128) = none ∧
      t.vers.find (a.key / 128) = none ∧ a.key % 128 + a.len ≤ 128) →
    ∃ s' t', exec (.readResponse id 0) s = .next s' ∧ s'.accs = Claims.without s id ∧ (∀ k, s'.memGet k = s.memGet k) ∧
      s' = { s with accs := s'.accs, teams := s'.teams, cores := s'.cores, slices := s'.slices, ctr := s'.ctr, eccOnes := s'.eccOnes,
                    comp := s'.comp, free := s'.free } ∧
      s'.teams.find q = some t' ∧ (∀ k, k ≠ q → s'.teams.find k = s.teams.find k) ∧
      (∀ d, d ≠ a.core → s'.core d = s.core d) ∧
      t' = { t with sreg := t'.sreg, shadows := t'.shadows, vers := t'.vers } ∧
      ∀ k, t'.rs k = if k.val = r ∧ r ≠ 0 then
        BitVec.ofNat 64 (extendTo 64 a.len a.sx (ofLe (s.memRead a.key a.len))) else t.rs k) ∧
  (∀ (id : Nat) (a : Access) (s : State), s.access? id = some a → a.kind = .read → s.mayPerform a = true → s.onPath a = true →
    a.core < 65536 → (s.partn (s.partOf (stackOf a.core))).halting = none →
    ∃ s', exec (.readResponse id 3) s = .next s' ∧
      s' = { s with accs := Claims.without s id, parts := s'.parts, slices := s'.slices, ctr := s'.ctr, eccOnes := s'.eccOnes } ∧
      Claims.Raised s s' a.core ⟨a.core, .ecc, s.slotOf a.uid, s.pcOf a.uid, BitVec.ofNat 64 a.va, true⟩ ∧
      (a.global = true → s.local_ a.key = true → (s'.slice (s.sliceNo a.key)).ecc = a.key))

/-- R30, R33, R86, R127, R290: the events of a core. A code line that a party waits for arrives with the words memory holds, and the
parties that were frozen for it are so no more; a fixed-latency result is written in the cycle it is due, and not before, with its flags,
and enters the value table (R91, R93); a slice that nothing names and nothing is in flight to is released; a page walk ends for every
miss that joined it: the translation is in the TLB of the core that missed, and the line of a prefetch is asked for. (The walk reads
tables of this package: what another holds is open, log 12.) When a line is copied and when the TLB has a translation are the
model's readings (logs 13, 47). -/
def Obligations.CoreEvents : Prop :=
  (∀ (core line ctx : Nat) (e : TlbE) (s : State), s.ctxsOn core = [ctx] → (s.core core).icLine ctx (256 * line) = none →
    s.walkWaits core ctx (256 * line) = false → Claims.Clean s →
    (s.stk (stackOf core)).icache = [] → s.translate core ctx (256 * line) = .ok e → e.x = true →
    s.local_ (e.phys (256 * line)) = true →
    ∃ s', exec (.icacheLineFill core line) s = .next s' ∧
      s' = { s with cores := s'.cores, stks := s'.stks, ctr := s'.ctr, seq := s'.seq, walks := s'.walks, slices := s'.slices,
                    sent := s'.sent, eccOnes := s'.eccOnes, comp := s'.comp, free := s'.free, teams := s'.teams, ridges := s'.ridges } ∧
      (∀ d, d ≠ core → s'.core d = s.core d) ∧ s'.core core = { s.core core with icache := (s'.core core).icache } ∧
      (∀ c k, k < 16 → s'.team? c k = (s.team? c k).map fun t =>
        if c = core ∧ t.ctx = ctx ∧ t.slip = some line then { t with slip := none } else t) ∧
      (∀ c, s'.ridge? c = (s.ridge? c).map fun r =>
        if c = core ∧ r.ctx = ctx ∧ r.slip = some line then { r with slip := none } else r) ∧
      ∀ k, k < 32 → (s'.core core).icWord ctx (256 * line + 8 * k) =
        some (ofLe (s.memRead (e.phys (256 * line) + 8 * k) 8))) ∧
  (∀ (c slot k : Nat) (t : Team) (sh : Shadow) (s : State), s.team? c slot = some t → t.shadows[k]? = some sh →
    sh.done = false →
    (s.cycle < sh.due → exec (.fixedLatencyWrite (.team c slot) k) s = .next s) ∧
    (sh.due ≤ s.cycle → ∃ s' t', exec (.fixedLatencyWrite (.team c slot) k) s = .next s' ∧
      s' = { s with teams := s'.teams, cores := s'.cores, seq := s'.seq } ∧
      (∀ j, j ≠ tkey c slot → s'.teams.find j = s.teams.find j) ∧ s'.team? c slot = some t' ∧
      t' = { t with fstat := t.fstat ||| sh.flags, shadows := t'.shadows } ∧
      (sh.left ≠ 0 → { sh with done := true } ∈ t'.shadows) ∧ t'.flagsDue = t.flagsDue ∧
      (∀ d, d ≠ c → s'.core d = s.core d) ∧ s'.core c = { s.core c with vtb := (s'.core c).vtb } ∧
      (sh.key = none → s'.core c = s.core c) ∧
      ∀ key n, sh.key = some (key, n) →
        if ((s.core c).vtFind key).isSome ∨ ((s.core c).phys.find n).isNone then s'.core c = s.core c
        else ∃ e ∈ (s'.core c).vtb, e.key = key ∧ e.slice = n ∧ e.set = vtSet key ∧ e.bad = false ∧ e.since = sh.due)) ∧
  (∀ (core n : Nat) (s : State), ((s.core core).phys.find n).isSome = true → s.refs core n = 0 → s.slicePending core n = false →
    ∃ s', exec (.sliceRelease core n) s = .next s' ∧ s' = { s with cores := s'.cores } ∧ (∀ d, d ≠ core → s'.core d = s.core d) ∧
      s'.core core = { s.core core with phys := (s'.core core).phys, vtb := (s'.core core).vtb } ∧
      (∀ k, (s'.core core).phys.find k = if k = n then none else (s.core core).phys.find k) ∧
      ∀ e ∈ (s'.core core).vtb, e ∈ (s.core core).vtb ∧ e.slice ≠ n ∧ keyReads e.key n = false) ∧
  ∀ (stack k : Nat) (w : Walk) (s : State), (s.walks.filter fun x => x.stack == stack)[k]? = some w → Claims.Clean s →
    let same (x : Walk) : Bool := x.stack == stack && x.ctx == w.ctx && x.va / 65536 == w.va / 65536
    (∀ x ∈ s.walks, same x = true → ∀ f, State.walk { s with free := f } x.ctx x.va = s.walk x.ctx x.va) →
    ∃ s' new, exec (.pageWalk stack k) s = .next s' ∧ s'.walks = s.walks.filter (fun x => !same x) ∧ s'.teams = s.teams ∧
      (∀ k, s'.memGet k = s.memGet k) ∧ s'.accs = s.accs ++ new ∧ (∀ q ∈ new, q.kind = .read ∧ q.dests = [] ∧ q.uid = 0) ∧
      (∀ d, s'.core d = { s.core d with tlb := (s'.core d).tlb }) ∧
      ∀ x ∈ s.walks, same x = true → ∀ e, s.walk x.ctx x.va = .ok e →
        (x.core < 65536 → (s'.core x.core).tlb.any (fun y => y.hits x.ctx x.va) = true) ∧
        (e.r = true → x.pre = some false → (s.core x.core).l1Line (e.phys x.va / 128) = none →
          ∃ q ∈ new, q.core = x.core ∧ q.key = e.phys x.va / 128 * 128)

/-! Views and queues. -/

namespace Sys2Proof.Claims

/-- What an instruction of a team that works on views, queues or engines leaves as it was: the other teams, the vector registers of
this one, the other cores, and of its own core all but the value table and the fields it is said to change. -/
structure PortFrame (s s' : State) (c slot : Nat) : Prop where
  /-- The teams in other slots. -/
  teams : ∀ k, k ≠ tkey c slot → s'.teams.find k = s.teams.find k
  /-- Vector registers. -/
  vregs : ∀ k, k < 16 → ∀ r l, s'.vreg c k r l = s.vreg c k r l
  /-- The other cores. -/
  cores : ∀ d, d ≠ c → s'.core d = s.core d
  /-- The rest of the core. -/
  core : s'.core c = { s.core c with vtb := (s'.core c).vtb, dir := (s'.core c).dir,
                                     rx := (s'.core c).rx, l1 := (s'.core c).l1, own := (s'.core c).own }
  /-- Every matrix stream, block and launch, and every walk that was in flight. -/
  rest : s'.ridges = s.ridges ∧ s'.blocks = s.blocks ∧ s'.launches = s.launches ∧ ∃ l, s'.walks = s.walks ++ l
  /-- No partition halts, but for an error in a page table (R394). -/
  parts : Clean s → s'.parts = s.parts

/-- The same where a push writes a place in memory: memory with its owners, lines and counters may change, writes to another package
are put in flight, and any core's L1 may lose words. -/
structure PushFrame (s s' : State) (c slot : Nat) : Prop where
  /-- The teams in other slots. -/
  teams : ∀ k, k ≠ tkey c slot → s'.teams.find k = s.teams.find k
  /-- Vector registers. -/
  vregs : ∀ d k, k < 16 → ∀ r l, s'.vreg d k r l = s.vreg d k r l
  /-- The other cores. -/
  cores : ∀ d, d ≠ c → s'.core d = { s.core d with l1 := (s'.core d).l1, own := (s'.core d).own }
  /-- The core at hand. -/
  core : s'.core c = { s.core c with l1 := (s'.core c).l1, own := (s'.core c).own, vtb := (s'.core c).vtb }
  /-- The rest of the package. -/
  rest : s' = { s with teams := s'.teams, cores := s'.cores, mem := s'.mem, owners := s'.owners, slices := s'.slices, comp := s'.comp,
                       ctr := s'.ctr, ctxs := s'.ctxs, seq := s'.seq, free := s'.free, accs := s'.accs, sent := s'.sent }

/-- What a function of memory reads as once bytes are laid at a key. -/
def laid (m : Nat → Byte) (key : Nat) (bs : List Byte) (q : Nat) : Byte :=
  if key ≤ q ∧ q < key + bs.length then bs.getD (q - key) 0 else m q

/-- A key whose home is in this package: on chip, or memory of the package. -/
def Home (s : State) (k : Nat) : Prop := 2 ^ 56 ≤ k ∨ s.local_ k = true

/-- What a function of memory reads as once bytes are laid over the pieces (key, class, length) that this package homes. -/
def laidHere (s : State) (m : Nat → Byte) : List (Nat × Nat × Nat) → List Byte → Nat → Byte
  | [], _ => m
  | p :: rest, bs =>
    laidHere s (if 2 ^ 56 ≤ p.1 ∨ s.local_ p.1 = true then laid m p.1 (bs.take p.2.2) else m) rest (bs.drop p.2.2)

/-- The team after an instruction that goes on and changes only what is given of it. -/
def Goes (s : State) (c slot : Nat) (t t1 : Team) (s' : State) : Prop :=
  ∃ t', s'.team? c slot = some t' ∧ t'.flagsDue = t1.flagsDue ∧ (∀ r, t'.rs r = t1.rs r) ∧ (∀ r, t'.rp r = t1.rp r) ∧
    t' = { t1 with pc := (s.nextOf c t).1, atHdr := (s.nextOf c t).2, wait := none, sreg := t'.sreg, preg := t'.preg,
                   shadows := t'.shadows, vers := t'.vers }

/-- The bits that VWSET gives a view (R177, R193). -/
def viewBits (t : Team) (a : SReg) : BitVec 256 :=
  (t.rs (sregAt a 3) ++ t.rs (sregAt a 2) ++ t.rs (sregAt a 1) ++ t.rs a) ||| (1#256 <<< 63)

/-- A view is listed for a register, or unlisted where the directory is full (R182). -/
def Listed (s s' : State) (c : Nat) (t : Team) (d : WReg) (v : View) : Prop :=
  match ((s.core c).dropOwner t.uid d.val).freeEntry with
  | some k => v.entry = some k ∧ (s'.core c).dir.find k = some ⟨some (v.foot (t.who c)), some (t.uid, d.val), 0⟩
  | none => v.entry = none ∧ s'.count .cmpFull c = (s.count .cmpFull c + 1) % 2 ^ 64

end Sys2Proof.Claims

/-- R182, R193: VWADJ keeps the descriptor and every field but one; R194: VRET ends the validity of a view and gives up its entry. -/
def Obligations.ViewAdjustAndReturn : Prop :=  (∀ (h : Hdr) (d a : WReg) (b : SReg) (dim : Fin 4) (f : AdjField) (s : State) (c slot : Nat) (t : Team),
    let v := t.viewOf a
    let n := (t.rs b).toNat
    let org := match f with | .orgAdd => v.org dim.val + (t.rs b).toInt | .orgSet => sgn 24 n | _ => v.org dim.val
    let cnt := match f with | .cntSet => n % 2 ^ 16 | _ => v.cnt dim.val
    let stp := match f with | .stepSet => sgn 8 n | _ => v.step dim.val
    slot < 16 → TeamIssues (.vwadj h d a b dim f) h s c slot t → t.adm h ≠ 0 → s.acquiring t.uid = false → v.valid = true →
    -2 ^ 23 ≤ org → org < 2 ^ 23 → v.bad = false → cnt ≠ 0 →
    (v.desc.rank ≤ dim.val → org = 0 ∧ cnt = 1 ∧ stp = 0) →
    (∏ k : Fin 4, (if k = dim then cnt else v.cnt k.val)) ≤ 2 ^ 32 →
    ∃ s' v', exec (.vwadj h d a b dim f) s = .next s' ∧ Claims.PortFrame s s' c slot ∧ (∀ q, s'.memGet q = s.memGet q) ∧
      s'.accs = s.accs ∧ s'.ops = s.ops ∧ s'.ctxs = s.ctxs ∧
      v'.desc = v.desc ∧ v'.valid = true ∧ v'.zf = v.zf ∧ v'.num = v.num ∧
      (∀ k, k < 4 → v'.org k = (if k = dim.val then org else v.org k) ∧ v'.cnt k = (if k = dim.val then cnt else v.cnt k) ∧
        v'.step k = if k = dim.val then stp else v.step k) ∧
      Claims.Goes s c slot t { t with view := t.view.put d.val v' } s' ∧ Claims.Listed s s' c t d v') ∧
  ∀ (h : Hdr) (d : WReg) (s : State) (c slot : Nat) (t : Team), slot < 16 → TeamIssues (.vret h d) h s c slot t →
    t.adm h ≠ 0 → s.owes t.uid s.seq = false →
    ((t.viewOf d).valid = false → ∃ s', exec (.vret h d) s = .next s' ∧ Claims.PortFrame s s' c slot ∧
      (∀ q, s'.memGet q = s.memGet q) ∧ Claims.Goes s c slot t t s') ∧
    ((t.viewOf d).valid = true → ∃ s' v', exec (.vret h d) s = .next s' ∧ Claims.PortFrame s s' c slot ∧
      (∀ q, s'.memGet q = s.memGet q) ∧ v'.desc = (t.viewOf d).desc ∧ v'.valid = false ∧ v'.entry = none ∧
      (∀ n, n ≠ 63 → v'.bits.getLsbD n = (t.viewOf d).bits.getLsbD n) ∧
      (∀ e ∈ (s'.core c).dir, e.2.owner ≠ some (t.uid, d.val)) ∧
      Claims.Goes s c slot t { t with view := t.view.put d.val v' } s')

/-- R176 to R178, R182, R193: VWSET reads its descriptor and sets a view whose descriptor and bits are well formed, and lists it.
R176, R195: TDSET, issued by a team of one lane, puts in flight a release store of the 64 bytes of a well-formed descriptor. That
VWSET reads its descriptor at its home, and not from the L1, is the model's choice (log 47). -/
def Obligations.ViewsAndDescriptors : Prop :=
  (∀ (h : Hdr) (d : WReg) (a : SReg) (key cls : Nat) (dsc : Desc) (s : State) (c slot : Nat) (t : Team),
    slot < 16 → TeamIssues (.vwset h d a) h s c slot t → t.adm h ≠ 0 → s.acquiring t.uid = false →
    s.teamOf t.uid = some (tkey c slot, t) →
    let va := (s.ctx t.ctx).tdescBase + 64 * fld (Claims.viewBits t a).toNat 48 10
    s.walkWaits c t.ctx va = false → s.spanAt (t.who c) .glob 0 va 64 true false = .ok key cls →
    s.local_ key = true → key < 2 ^ 56 → (∀ b ∈ s.accs, b.core = c → b.isRead = false → b.key + b.len ≤ key ∨ key + 64 ≤ b.key) →
    Claims.Clean s → descOf (s.memRead key 64) = some dsc →
    View.bad ⟨Claims.viewBits t a, dsc, none⟩ = false →
    ∃ s' v, exec (.vwset h d a) s = .next s' ∧ Claims.PortFrame s s' c slot ∧ (∀ q, s'.memGet q = s.memGet q) ∧
      s'.accs = s.accs ∧ s'.ops = s.ops ∧ s'.ctxs = s.ctxs ∧ v.bits = Claims.viewBits t a ∧ v.desc = dsc ∧
      Claims.Goes s c slot t { t with view := t.view.put d.val v } s' ∧ Claims.Listed s s' c t d v) ∧
  (∀ (h : Hdr) (a b : SReg) (key cls : Nat) (s : State) (c slot : Nat) (t : Team),
    let bs := (List.range 8).flatMap fun k => toLe 8 (t.rs (sregAt b k)).toNat
    slot < 16 → TeamIssues (.tdset h a b) h s c slot t → popcount t.act = 1 → t.adm h ≠ 0 → s.acquiring t.uid = false →
    (t.rs a).toNat < 1024 → (descOf bs).isSome = true →
    let va := (s.ctx t.ctx).tdescBase + 64 * (t.rs a).toNat
    s.walkWaits c t.ctx va = false → s.spanAt (t.who c) .glob 0 va 64 false true = .ok key cls →
    ∃ s', exec (.tdset h a b) s = .next s' ∧ Claims.PortFrame s s' c slot ∧ (∀ q, s'.memGet q = s.memGet q) ∧
      Claims.Goes s c slot t t s' ∧ s'.accs.take s.accs.length = s.accs ∧
      (s'.accs.drop s.accs.length).map (fun q => (q.kind, q.key, q.len, q.uid, q.after, q.wide)) =
        (List.range 8).map fun k => (AccK.write (toLe 8 (t.rs (sregAt b k)).toNat), key + 8 * k, 8, t.uid, s.seq, true))

namespace Sys2Proof.Claims

/-- The Rucksack list that a queue register names. -/
def listOf (t : Team) (q : QReg) : Nat := fld (t.bind q).arg.toNat 0 6

/-- Items appended to a list, as they stand in it. -/
def itemsOf (t : Team) (c : Nat) (items : List W64) : List RItem := items.map fun i => ⟨i, t.depth, stackOf c⟩

/-- The state as a push writes its items into the list's area: the load entries of the slot are killed, and the list and its tail are
as they will be. -/
def Pushing (s : State) (c slot : Nat) (t : Team) (k : Nat) (items : List W64) : State :=
  ((s.killLoads c slot).setRuck t.ctx k (s.ruckQ t.ctx k ++ itemsOf t c items)).modCtx t.ctx fun x =>
    { x with ruckTail := x.ruckTail.set 0 k (((s.ctx t.ctx).ruckTail.get 0 k + items.length) % 2 ^ 20) }

/-- A push of items to a list that no pool listens to: they stand at its end, its tail has moved on, and each is written at its own
place of the list's ring of places (the layout of the area is the model's, log 48). -/
def Pushed (s s' : State) (c slot : Nat) (t : Team) (k : Nat) (items : List W64) : Prop :=
  PushFrame s s' c slot ∧ Goes s c slot t t s' ∧ (∀ d, d ≠ t.ctx → s'.ctx d = s.ctx d) ∧
  s'.ctx t.ctx = { s.ctx t.ctx with ruck := (s'.ctx t.ctx).ruck, ruckTail := (s'.ctx t.ctx).ruckTail } ∧
  (∀ j, s'.ruckQ t.ctx j = if j = k then s.ruckQ t.ctx k ++ itemsOf t c items else s.ruckQ t.ctx j) ∧
  (∀ j, (s'.ctx t.ctx).ruckTail.get 0 j = if j = k then ((s.ctx t.ctx).ruckTail.get 0 k + items.length) % 2 ^ 20
    else (s.ctx t.ctx).ruckTail.get 0 j) ∧
  ∀ q, s'.memGet q = (((List.range items.length).zip items).foldl (fun (m : State) (i : Nat × W64) =>
    m.areaPut t.ctx ((s.ctx t.ctx).ruckBase + 8 * (k * 2 ^ 20 + ((s.ctx t.ctx).ruckTail.get 0 k + i.1) % 2 ^ 20)) (toLe 8 i.2.toNat))
    (Pushing s c slot t k items)).memGet q

/-- Lanes ls of registers d, and of the next where wide, hold the items, and the other lanes and registers what they held. -/
def Popped (s s' : State) (c slot : Nat) (d : VReg) (wide : Bool) (ls : List Nat) (items : List RItem) : Prop :=
  (∀ n l : Nat, ls[n]? = some l → ∃ i : RItem, items[n]? = some i ∧ ∀ j, j < wideN wide →
    s'.vreg c slot (vregAt d j) l = i.item.extractLsb' (32 * j) 32) ∧
  ∀ r l, l < 1024 → ((∀ j, j < wideN wide → r ≠ vregAt d j) ∨ ls.contains l = false) → s'.vreg c slot r l = s.vreg c slot r l

/-- Moves whose queue register is bound to an endpoint that does not take them, or to none (R104, R111). -/
def badMove (t : Team) : Instr → Option Hdr
  | .smov h (.push q _) => if (t.bind q).kind ∈ [0, 4] then some h else none
  | .smov h (.pop _ q) => if (t.bind q).kind ∈ [0, 4, 5] then some h else none
  | .vmov h (.push q _) _ => if (t.bind q).kind ∈ [0, 1, 4, 5] then some h else none
  | .vmov h (.pop _ q) _ => if (t.bind q).kind ∈ [0, 1, 5] then some h else none
  | _ => none

end Sys2Proof.Claims

/-- R104, R105, R109, R352: QBIND binds a queue register to an endpoint of its kind; a push appends the items of the admitted lanes
in ascending order to the Rucksack list its register names, and writes them into the list's area in memory; a pop takes the oldest
items. R72, R110, R352: QTRY takes what there is, and its predicate says which lanes got an item; REFILL starts retired lanes with the
items they take in sr.arg, at its target. R111: a move through a register bound to no endpoint that takes it, and a QBIND of an argument
that is none of its kind, trap QFAULT. What a push waits for first is the model's reading (log 24), as are the layout of the area and
that a place which cannot be written is passed by (log 48). -/
def Obligations.WorkLists : Prop :=
  ((∀ (h : Hdr) (q : QReg) (r : SReg) (kind : Fin 6) (s : State) (c slot : Nat) (t : Team), slot < 16 →
    TeamIssues (.qbind h q r kind) h s c slot t →
    (s.bindOk kind.val (t.rs r).toNat = true →
      ∃ s', exec (.qbind h q r kind) s = .next s' ∧ Claims.PortFrame s s' c slot ∧ (∀ q, s'.memGet q = s.memGet q) ∧
        s'.ctxs = s.ctxs ∧ ∃ t', s'.team? c slot = some t' ∧ t'.bind q = ⟨kind.val, if kind.val = 0 then 0 else t.rs r⟩ ∧
          (∀ p, p ≠ q → t'.bind p = t.bind p) ∧ Claims.Goes s c slot t { t with qb := t'.qb } s') ∧
    (s.bindOk kind.val (t.rs r).toNat = false →
      exec (.qbind h q r kind) s = .next (s.takeTrap c slot { t with wait := none } .qfault 0 t.pc))) ∧
  (∀ (i : Instr) (h : Hdr) (s : State) (c slot : Nat) (t : Team), Claims.badMove t i = some h → slot < 16 →
    TeamIssues i h s c slot t → t.adm h ≠ 0 →
    exec i s = .next (s.takeTrap c slot { t with wait := none } .qfault 0 t.pc)) ∧
  (∀ (h : Hdr) (q : QReg) (a : SReg) (s : State) (c slot : Nat) (t : Team),
    slot < 16 → TeamIssues (.smov h (.push q a)) h s c slot t → t.adm h ≠ 0 → (t.bind q).kind = 3 →
    s.owes t.uid s.seq = false → s.unitsRun (s.ctx t.ctx).part = true → s.listener t.ctx (Claims.listOf t q) = none →
    (s.ruckQ t.ctx (Claims.listOf t q)).length < 2 ^ 20 →
    ∃ s', exec (.smov h (.push q a)) s = .next s' ∧ Claims.Pushed s s' c slot t (Claims.listOf t q) [t.rs a]) ∧
  (∀ (h : Hdr) (q : QReg) (a : VReg) (wide : Bool) (s : State) (c slot : Nat) (t : Team),
    slot < 16 → TeamIssues (.vmov h (.push q a) wide) h s c slot t → t.adm h ≠ 0 → (t.bind q).kind = 3 →
    s.owes t.uid s.seq = false → s.unitsRun (s.ctx t.ctx).part = true → s.listener t.ctx (Claims.listOf t q) = none →
    (s.ruckQ t.ctx (Claims.listOf t q)).length + popcount (t.adm h) ≤ 2 ^ 20 →
    ∃ s', exec (.vmov h (.push q a) wide) s = .next s' ∧
      Claims.Pushed s s' c slot t (Claims.listOf t q) ((lanes (t.adm h)).map fun l =>
        if wide then s.vreg c slot (vregAt a 1) l ++ s.vreg c slot a l else (s.vreg c slot a l).zeroExtend 64)) ∧
  (∀ (ctx a : Nat) (bs : List Byte) (s : State),
    (∀ ps, s.area (unitWho ctx) .glob a bs.length false true = (ps, none) →
      ∀ q, (s.areaPut ctx a bs).memGet q = Claims.laidHere s s.memGet ps bs q) ∧
    ((s.area (unitWho ctx) .glob a bs.length false true).2 ≠ none → s.areaPut ctx a bs = s)) ∧
  (∀ (h : Hdr) (q : QReg) (d : SReg) (i : RItem) (rest : List RItem) (s : State) (c slot : Nat) (t : Team),
    let k := Claims.listOf t q
    slot < 16 → TeamIssues (.smov h (.pop d q)) h s c slot t → t.adm h ≠ 0 → (t.bind q).kind = 3 →
    s.teamOf t.uid = some (tkey c slot, t) → s.unitsRun (s.ctx t.ctx).part = true → s.listener t.ctx k = none →
    s.ruckQ t.ctx k = i :: rest →
    ∃ s', exec (.smov h (.pop d q)) s = .next s' ∧ Claims.PortFrame s s' c slot ∧ (∀ q, s'.memGet q = s.memGet q) ∧
      Claims.Goes s c slot t (t.ws d i.item) s' ∧ s'.ruckQ t.ctx k = rest) ∧
  ∀ (h : Hdr) (q : QReg) (d : VReg) (wide : Bool) (s : State) (c slot : Nat) (t : Team),
    let k := Claims.listOf t q
    let ls := lanes (t.adm h)
    slot < 16 → s.stashOk = true → TeamIssues (.vmov h (.pop d q) wide) h s c slot t → t.adm h ≠ 0 → (t.bind q).kind = 3 →
    s.unitsRun (s.ctx t.ctx).part = true → s.listener t.ctx k = none → ls.length ≤ (s.ruckQ t.ctx k).length →
    s.lacking c t 0 (slicesEach (wideN wide) ls) = none →
    ∃ s', exec (.vmov h (.pop d q) wide) s = .next s' ∧ (∀ q, s'.memGet q = s.memGet q) ∧
      (∀ j, j ≠ tkey c slot → s'.teams.find j = s.teams.find j) ∧ (∀ e, e ≠ c → s'.core e = s.core e) ∧
      (∀ j, j < 16 → j ≠ slot → ∀ r l, s'.vreg c j r l = s.vreg c j r l) ∧ s'.ruckQ t.ctx k = (s.ruckQ t.ctx k).drop ls.length ∧
      Claims.Popped s s' c slot d wide ls (s.ruckQ t.ctx k)) ∧
  ((∀ (h : Hdr) (r : SReg) (q : QReg) (p : PReg) (s : State) (c slot : Nat) (t : Team),
    let k := Claims.listOf t q
    slot < 16 → TeamIssues (.qtry h (.s r) q p false) h s c slot t → t.adm h ≠ 0 → (t.bind q).kind = 3 →
    s.teamOf t.uid = some (tkey c slot, t) → s.unitsRun (s.ctx t.ctx).part = true → s.listener t.ctx k = none →
    ∃ s', exec (.qtry h (.s r) q p false) s = .next s' ∧ Claims.PortFrame s s' c slot ∧ (∀ q, s'.memGet q = s.memGet q) ∧
      s'.ruckQ t.ctx k = (s.ruckQ t.ctx k).drop 1 ∧
      match s.ruckQ t.ctx k with
      | [] => Claims.Goes s c slot t (t.wp p (t.adm h) 0) s'
      | (i : RItem) :: _ => Claims.Goes s c slot t ((t.ws r i.item).wp p (t.adm h) (t.adm h)) s') ∧
  (∀ (h : Hdr) (r : VReg) (q : QReg) (p : PReg) (wide : Bool) (s : State) (c slot : Nat) (t : Team),
    let k := Claims.listOf t q
    let ls := (lanes (t.adm h)).take (s.ruckQ t.ctx k).length
    slot < 16 → s.stashOk = true → TeamIssues (.qtry h (.v r) q p wide) h s c slot t → t.adm h ≠ 0 → (t.bind q).kind = 3 →
    s.teamOf t.uid = some (tkey c slot, t) → s.unitsRun (s.ctx t.ctx).part = true → s.listener t.ctx k = none →
    s.lacking c t 0 (slicesEach (wideN wide) ls) = none →
    ∃ s' t', exec (.qtry h (.v r) q p wide) s = .next s' ∧ (∀ q, s'.memGet q = s.memGet q) ∧ s'.team? c slot = some t' ∧
      (∀ j, j ≠ tkey c slot → s'.teams.find j = s.teams.find j) ∧ (∀ e, e ≠ c → s'.core e = s.core e) ∧
      s'.ruckQ t.ctx k = (s.ruckQ t.ctx k).drop ls.length ∧ Claims.Popped s s' c slot r wide ls (s.ruckQ t.ctx k) ∧
      t' = { t with pc := (s.nextOf c t).1, atHdr := (s.nextOf c t).2, wait := none, vmap := t'.vmap, preg := t'.preg,
                    shadows := t'.shadows } ∧ t'.flagsDue = t.flagsDue ∧
      ∀ x l, l < 1024 → inMask (t'.rp x) l =
        if x = p ∧ p.val ≠ 0 ∧ inMask (t.adm h) l = true then ls.contains l else inMask (t.rp x) l) ∧
  ∀ (h : Hdr) (q : QReg) (wt : Bool) (off : BitVec 24) (s : State) (c slot : Nat) (t : Team),
    let k := Claims.listOf t q
    let target := wrap 64 ((t.pc / 8 * 8 : Nat) + 8 * off.toInt)
    let ls := t.retiredLanes.take (s.ruckQ t.ctx k).length
    slot < 16 → TeamIssues (.refill h q wt off) h s c slot t → (t.bind q).kind = 3 → (∀ e ∈ t.stk, e.kind ≠ .lead) →
    (t.wait = none → Claims.GoodTarget s c t.ctx target) → s.teamOf t.uid = some (tkey c slot, t) → Claims.Clean s →
    s.unitsRun (s.ctx t.ctx).part = true → s.listener t.ctx k = none →
    (wt = true → t.retiredLanes ≠ [] → s.ruckQ t.ctx k ≠ []) →
    ∃ s' t', exec (.refill h q wt off) s = .next s' ∧ Claims.PortFrame s s' c slot ∧ (∀ q, s'.memGet q = s.memGet q) ∧
      s'.ruckQ t.ctx k = (s.ruckQ t.ctx k).drop ls.length ∧ s'.team? c slot = some t' ∧ t'.flagsDue = t.flagsDue ∧
      t' = { t with pc := target, atHdr := true, wait := none, act := t'.act, stk := t'.stk, arg := t'.arg,
                    shadows := t'.shadows } ∧
      (∀ l, l < 1024 → inMask t'.act l = (inMask t.act l || ls.contains l)) ∧
      t'.stk.length = t.stk.length ∧
      (∀ (n : Nat) (e : Entry), t.stk[n]? = some e → ∃ e' : Entry, t'.stk[n]? = some e' ∧ e' = { e with omask := e'.omask } ∧
        ∀ l, l < 1024 → inMask e'.omask l = (inMask e.omask l || ls.contains l)) ∧
      ∀ l, t'.arg.get 0 l = match (List.zip ls (s.ruckQ t.ctx k)).find? fun x => x.1 == l with
        | some x => x.2.item
        | none => t.arg.get 0 l)

/-- R105, R274: a message push sends one flit with the 64 bytes of pack it names and waits until it is accepted; the flit enters its
core's buffer while that has room and no earlier one of its pair and tag is on its way; a pop takes the oldest of its tag. R104, R246,
R350, R351: a scalar push to a Trailhead queue, whose element stands on die while that has room and else in the lowest free place of the
queue's area in memory, and its pop, which takes one of the 64 smallest keys; a push to a Strike engine's port.
The layout of the area is the model's (log 48). -/
def Obligations.MessagesAndPorts : Prop :=
  ((∀ (h : Hdr) (q : QReg) (a : SReg) (s : State) (c slot : Nat) (t : Team),
    let off := fld (t.rs a).toNat 0 32
    slot < 16 → TeamIssues (.smov h (.push q a)) h s c slot t → t.adm h ≠ 0 → (t.bind q).kind = 1 →
    off + 64 ≤ t.hdr.packBytes → s.owes t.uid s.seq = false → (∀ f ∈ s.net, f.uid ≠ t.uid) →
    (t.wait = none → ∃ s', exec (.smov h (.push q a)) s = .next s' ∧ (∀ q, s'.memGet q = s.memGet q) ∧
      s'.net = s.net ++ [⟨t.uid, c, (t.bind q).dst, t.ctx, (t.bind q).tag, s.memRead (packKey t.blk off) 64⟩] ∧
      s'.team? c slot = some { t with wait := some (.instr (.smov h (.push q a)) s.seq (s.nextOf c t)) } ∧
      s' = { s with net := s'.net, teams := s'.teams, seq := s.seq + 1 }) ∧
    (t.wait ≠ none → ∃ s', exec (.smov h (.push q a)) s = .next s' ∧ Claims.PortFrame s s' c slot ∧
      (∀ q, s'.memGet q = s.memGet q) ∧ s'.net = s.net ∧ Claims.Goes s c slot t t s')) ∧
  (∀ (k : Nat) (f : Flit) (s : State), s.net[k]? = some f → (s.core f.dst).rx.length < 64 →
    (∀ j g, j < k → s.net[j]? = some g → ¬ (g.src = f.src ∧ g.dst = f.dst ∧ g.tag = f.tag)) →
    ∃ s', exec (.messageFlitAccept k) s = .next s' ∧ s' = { s with net := s.net.eraseIdx k, cores := s'.cores } ∧
      (∀ d, d ≠ f.dst → s'.core d = s.core d) ∧ s'.core f.dst = { s.core f.dst with rx := (s.core f.dst).rx ++ [f] }) ∧
  ∀ (h : Hdr) (q : QReg) (d : SReg) (pre post : List Flit) (f : Flit) (s : State) (c slot : Nat) (t : Team),
    slot < 16 → TeamIssues (.smov h (.pop d q)) h s c slot t → t.adm h ≠ 0 → (t.bind q).kind = 1 →
    (t.bind q).buf + 64 ≤ t.hdr.packBytes → s.teamOf t.uid = some (tkey c slot, t) → (s.core c).rx = pre ++ f :: post →
    f.ctx = t.ctx → f.tag = (t.bind q).tag → (∀ g ∈ pre, ¬ (g.ctx = t.ctx ∧ g.tag = (t.bind q).tag)) →
    ∃ s', exec (.smov h (.pop d q)) s = .next s' ∧ Claims.PortFrame s s' c slot ∧ (s'.core c).rx = pre ++ post ∧
      (∀ a, s'.memGet a = Claims.putAt s (packKey t.blk (t.bind q).buf) f.data a) ∧
      Claims.Goes s c slot t (t.ws d (BitVec.ofNat 64 (f.src * 2 ^ 48 + f.tag * 2 ^ 32))) s') ∧
  ((∀ (h : Hdr) (q : QReg) (a : SReg) (s : State) (c slot : Nat) (t : Team),
    let k := fld (t.bind q).arg.toNat 0 4
    let used := usedPlaces (s.trailQ t.ctx k)
    slot < 16 → TeamIssues (.smov h (.push q a)) h s c slot t → t.adm h ≠ 0 → (t.bind q).kind = 2 → a.val % 2 = 0 →
    a.val + 2 ≤ t.hdr.ns → (∀ r ∈ ss a 2, s.pendingReg c t r = false) → unmetOf t.shadows (ss a 2) = [] →
    s.owes t.uid s.seq = false → s.trailRoom t.ctx k 1 = true →
    ∃ s' pl, exec (.smov h (.push q a)) s = .next s' ∧ Claims.PushFrame s s' c slot ∧
      Claims.Goes s c slot t t s' ∧ s'.ctx t.ctx = { s.ctx t.ctx with trail := (s'.ctx t.ctx).trail } ∧
      (∀ d, d ≠ t.ctx → s'.ctx d = s.ctx d) ∧
      (∀ j, s'.trailQ t.ctx j = if j = k then s.trailQ t.ctx k ++ [⟨t.rs a, t.rs (sregAt a 1), pl⟩] else s.trailQ t.ctx j) ∧
      (s.trailDie k < 65536 → pl = none ∧ s'.accs = s.accs ∧ ∀ q, s'.memGet q = s.memGet q) ∧
      (65536 ≤ s.trailDie k → ∃ n, pl = some n ∧ n ∉ used ∧ (∀ i, i < n → i ∈ used) ∧
        let va := (s.ctx t.ctx).trhBase + 16 * (k * 2 ^ 20 + n)
        (∀ ps, s.area (unitWho t.ctx) .glob va 16 false true = (ps, none) →
          ∀ q, s'.memGet q = Claims.laidHere s s.memGet ps (toLe 8 (t.rs a).toNat ++ toLe 8 (t.rs (sregAt a 1)).toNat) q) ∧
        ((s.area (unitWho t.ctx) .glob va 16 false true).2 ≠ none → ∀ q, s'.memGet q = s.memGet q))) ∧
  (∀ (h : Hdr) (q : QReg) (d : SReg) (s : State) (c slot : Nat) (t : Team),
    let k := fld (t.bind q).arg.toNat 0 4
    let l := s.trailQ t.ctx k
    slot < 16 → TeamIssues (.smov h (.pop d q)) h s c slot t → t.adm h ≠ 0 → (t.bind q).kind = 2 → d.val % 2 = 0 →
    d.val + 2 ≤ t.hdr.ns → (∀ r ∈ ss d 2, s.pendingReg c t r = false) → s.teamOf t.uid = some (tkey c slot, t) →
    s.unitsRun (s.ctx t.ctx).part = true → l ≠ [] →
    ∃ s' n e, exec (.smov h (.pop d q)) s = .next s' ∧ Claims.PortFrame s s' c slot ∧ (∀ q, s'.memGet q = s.memGet q) ∧
      l[n]? = some e ∧ (l.filter fun x => decide (x.key.toNat < e.key.toNat)).length < 64 ∧
      Claims.Goes s c slot t ((t.ws d e.key).ws (sregAt d 1) e.val) s' ∧ s'.trailQ t.ctx k = l.eraseIdx n) ∧
  ∀ (h : Hdr) (q : QReg) (a : SReg) (s : State) (c slot : Nat) (t : Team),
    let k := fld (t.bind q).arg.toNat 0 2
    slot < 16 → TeamIssues (.smov h (.push q a)) h s c slot t → t.adm h ≠ 0 → (t.bind q).kind = 5 →
    (t.rs a).toNat % 64 = 0 → s.owes t.uid s.seq = false → s.unitsRun (s.partOf k) = true → (s.stk k).strikeQ.length < 64 →
    ∃ s', exec (.smov h (.push q a)) s = .next s' ∧ Claims.PortFrame s s' c slot ∧ (∀ q, s'.memGet q = s.memGet q) ∧
      Claims.Goes s c slot t t s' ∧ (∀ j, j ≠ k → s'.stk j = s.stk j) ∧
      s'.stk k = { s.stk k with strikeQ := (s.stk k).strikeQ ++ [⟨(t.rs a).toNat, t.ctx, t.depth, s.seq, t.uid, c⟩] })

/-- R72, R105, R212, R258, R260, R328: the event that ends a party's wait runs the instruction the party waits in, and adds what a turn
that issues adds (State.ran). -/
def Obligations.WaitEndsRunTheInstruction : Prop :=  ∀ (p : Party) (s : State),
    let Ends (e i : Instr) : Prop := ∃ s', exec i { s with cur := p } = .next s' ∧ exec e s = .next (s.ran p i s')
    (∀ h f, s.waitingIn p = some (.smov h f) → Ends (.queueMoveComplete p) (.smov h f)) ∧
    (∀ h f w, s.waitingIn p = some (.vmov h f w) → Ends (.queueMoveComplete p) (.vmov h f w)) ∧
    (∀ h q w o, s.waitingIn p = some (.refill h q w o) → Ends (.refillWaitEnd p) (.refill h q w o)) ∧
    (∀ h a b c, s.waitingIn p = some (.copy h a b c) → Ends (.ringReserveRetry p) (.copy h a b c)) ∧
    (∀ h a b c, s.waitingIn p = some (.copym h a b c) → Ends (.ringReserveRetry p) (.copym h a b c)) ∧
    (∀ h a b c, s.waitingIn p = some (.chain h a b c) → Ends (.ringReserveRetry p) (.chain h a b c)) ∧
    (∀ h a b c sp, s.waitingIn p = some (.kvapp h a b c sp) → Ends (.ringReserveRetry p) (.kvapp h a b c sp)) ∧
    (∀ h a b n, s.waitingIn p = some (.fwait h a b n) → Ends (.fwaitReturn p) (.fwait h a b n)) ∧
    (∀ h a b, s.waitingIn p = some (.bwait h a b) → Ends (.barrierWaitEnd p) (.bwait h a b)) ∧
    (∀ h b, s.waitingIn p = some (.bsync h b) → Ends (.barrierWaitEnd p) (.bsync h b)) ∧
    ∀ h d b c q, s.waitingIn p = some (.wpark h d b c q) →
      (s.parkHolds p = true → Ends (.wparkDeliver p) (.wpark h d b c q)) ∧ (s.parkHolds p = false → Ends (.wparkLapse p) (.wpark h d b c q))

/-! Rings and engines. -/

namespace Sys2Proof.Claims

/-- What an instruction of a team that writes memory at once leaves as it was: the other teams, every vector register, what a core
holds but its L1 (whose words the write may revoke) and, in the core at hand, its value table and its directory of views; and all of the
package but memory with its owners, lines and counters, the records of triggers, the operations in flight, the channels, and the walks it
asks for with what they read. -/
structure UnitFrame (s s' : State) (c slot : Nat) : Prop where
  /-- The teams in other slots. -/
  teams : ∀ k, k ≠ tkey c slot → s'.teams.find k = s.teams.find k
  /-- Vector registers. -/
  vregs : ∀ d k, k < 16 → ∀ r l, s'.vreg d k r l = s.vreg d k r l
  /-- The other cores. -/
  cores : ∀ d, d ≠ c → s'.core d = { s.core d with l1 := (s'.core d).l1, own := (s'.core d).own }
  /-- The core at hand. -/
  core : s'.core c = { s.core c with l1 := (s'.core c).l1, own := (s'.core c).own, vtb := (s'.core c).vtb, dir := (s'.core c).dir }
  /-- The rest of the package. -/
  rest : s' = { s with teams := s'.teams, cores := s'.cores, mem := s'.mem, owners := s'.owners, slices := s'.slices, accs := s'.accs,
                       comp := s'.comp, ctr := s'.ctr, ors := s'.ors, ops := s'.ops, stks := s'.stks, seq := s'.seq, free := s'.free,
                       walks := s'.walks, sent := s'.sent, eccOnes := s'.eccOnes }
  /-- Every walk that was in flight. -/
  walks : ∃ l, s'.walks = s.walks ++ l

/-- A ring that a team names and may use now, to read it or to write its object and its slot (R254, R255, R289). -/
def RingReady (s : State) (c : Nat) (t : Team) (h : W64) (ow sw : Bool) (slot : Ring → Nat) (r : Ring) : Prop :=
  s.ringOf (t.who c) h ow sw slot = .ok r ∧ s.acquiring t.uid = false ∧ s.ringBusy t.uid r = false

/-- A ring in which a team reserves its next slot, at key k, without waiting: it is not full, no spill ring holds the writes up, and
no write that a unit makes for the team is outstanding (R258, R317). -/
def Reserves (s : State) (c : Nat) (t : Team) (r : Ring) (k cls : Nat) : Prop :=
  r.full = false ∧ s.slotAt (t.who c) r r.rsv true = .ok k cls ∧ s.reserveHeld (t.who c) r = false ∧ s.outstanding t.uid = false ∧
  Home s k ∧ Home s (r.key + 0xC)

/-- Memory once a slot is reserved: its words, then the reservation number (R258). -/
def reserved (s : State) (k : Nat) (r : Ring) : Nat → Byte :=
  laid (laid s.memGet k (toLe 8 0 ++ toLe 8 (0x7F * 2 ^ 57))) (r.key + 0xC) (toLe 4 ((r.rsv + 1) % 2 ^ 32))

/-- An operation that a team of a core has just issued, on a slot of a ring. -/
def Issued (s s' : State) (c : Nat) (t : Team) (ring : W64) (slot : Nat) (kind : OpK) : Prop :=
  ∃ o : Op, s'.ops = s.ops ++ [o] ∧ o.kind = kind ∧ o.id = s.seq ∧ o.fork = s.seq ∧ o.who = t.who c ∧ o.depth = t.depth ∧
    o.ring = ring ∧ o.slot = slot ∧ o.stop = false ∧ o.todo = [] ∧ o.ended = none

/-- The places that translation without the memory's help gives: the same in every state that agrees on contexts, lent pages and TLBs. -/
def Steady {α : Type} (s : State) (f : State → α) (x : α) : Prop :=
  ∀ m : State, m.ctxs = s.ctxs → m.part = s.part → m.pkg = s.pkg → m.bcSize = s.bcSize → m.memHbm = s.memHbm → m.memT2 = s.memT2 →
    m.peers = s.peers →
    (∀ d, (m.core d).tlb = (s.core d).tlb ∧ (m.core d).lend = (s.core d).lend) → f m = x

/-- No spill ring is full, so that no write is held at its home (R317). -/
def Roomy (s : State) : Prop := ∀ k, (s.slice k).ringFull = false

/-- An operation that has its work before it: nothing of it is written yet, nor outstanding, and it has not ended. -/
def Fresh (s : State) (o : Op) : Prop :=
  o.stop = false ∧ o.todo = [] ∧ o.ended = none ∧ s.engineMay o = true ∧ s.outstanding o.id = false

/-- The accesses in flight once an operation is over: where it has written, reads of the core that issued it fill its L1 no more (log 17). -/
def finished (s : State) (o : Op) : List Access := if o.writes.isSome then noFills s o.who.core else s.accs

/-- Two areas, as key and length, have no byte in common. -/
def Apart (a b : Nat × Nat) : Prop := a.1 + a.2 ≤ b.1 ∨ b.1 + b.2 ≤ a.1

/-- The row address of a lane (R268). -/
def rowOf (s : State) (c : Nat) (t : Team) (idx : VReg) (b : SReg) (l : Nat) : Nat := Src.row ⟨s.core c, t, []⟩ idx b l

end Sys2Proof.Claims

/-- R277: RING makes an empty ring of N slots. R278: FWAIT, once slot RD is complete, gives its words to a pair of scalars and acquires.
R279, R317: FREL steps RD past a complete slot; where a spill ring has no room, the step waits at the ring's home, and the team goes on.
R280: FTEST tells in a predicate whether slot RD is complete. That reads in flight at the acquire of FWAIT and of a true FTEST fill the L1
no more is the model's reading (log 17). -/
def Obligations.RingCommands : Prop :=  (∀ (h : Hdr) (a b : SReg) (nm1 : Fin 256) (sp : Space) (addr k cls : Nat) (ps : List (Nat × Nat × Nat)) (s : State) (c slot : Nat)
    (t : Team),
    let n := nm1.val + 1
    let obj := toLe 8 (fld (t.rs b).toNat 0 57) ++ List.replicate 16 0 ++ toLe 8 n ++ List.replicate 32 0
    slot < 16 → TeamIssues (.ring h a b nm1) h s c slot t → t.adm h ≠ 0 → handleOf (t.rs a) = some (sp, addr) →
    s.spanAt (t.who c) sp 0 addr 64 true true = .ok k cls →
    s.area (t.who c) sp (fld (t.rs b).toNat 0 57) (16 * n) false true = (ps, none) → (t.rs b).toNat % 16 = 0 →
    s.owes t.uid s.seq = false → (let old := s.ringIn sp k cls; 1 ≤ old.n → old.n ≤ 256 → old.rsv = old.wr) →
    s.unitHeld k obj = false → s.heldPieces ps (List.replicate (16 * n) 0) = false → s.outstanding t.uid = false →
    Claims.Home s k → (∀ p ∈ ps, Claims.Home s p.1 ∧ Claims.Apart (k, 64) (p.1, p.2.2)) →
    ∃ s', exec (.ring h a b nm1) s = .next s' ∧ Claims.UnitFrame s s' c slot ∧ s'.ops = s.ops ∧ s'.stks = s.stks ∧ s'.accs = s.accs ∧
      Claims.Goes s c slot t t s' ∧
      ∀ q, s'.memGet q = if ∃ p ∈ ps, p.1 ≤ q ∧ q < p.1 + p.2.2 then 0 else Claims.laid s.memGet k obj q) ∧
  (∀ (h : Hdr) (a b : SReg) (nt : Bool) (r : Ring) (s : State) (c slot : Nat) (t : Team),
    let w := s.slotGet (t.who c) r r.rd
    slot < 16 → TeamIssues (.fwait h a b nt) h s c slot t → t.adm h ≠ 0 → Claims.RingReady s c t (t.rs b) true false Ring.rd r →
    s.teamOf t.uid = some (tkey c slot, t) → s.slotDone (t.who c) r = true → (codeOf w.2 = 1 → nt = true) →
    ∃ s', exec (.fwait h a b nt) s = .next s' ∧ Claims.UnitFrame s s' c slot ∧ s'.ops = s.ops ∧ s'.stks = s.stks ∧
      (∀ q, s'.memGet q = s.memGet q) ∧ s'.accs = Claims.noFills s c ∧
      Claims.Goes s c slot t (if a.val = 0 then t else (t.ws a (BitVec.ofNat 64 w.1)).ws (sregAt a 1) (BitVec.ofNat 64 w.2)) s' ∧
      ∀ l ∈ (s'.core c).l1, ∀ k, k < 32 → l.valid.getLsbD k = true → (s.core c).own.get false (32 * l.line + k) = true) ∧
  (∀ (h : Hdr) (b : SReg) (r : Ring) (s : State) (c slot : Nat) (t : Team), slot < 16 → TeamIssues (.frel h b) h s c slot t →
    t.adm h ≠ 0 → Claims.RingReady s c t (t.rs b) true false Ring.rd r → Claims.Home s (r.key + 0x10) →
    (s.slotDone (t.who c) r = true → s.objHeld r 0x10 4 ((r.rd + 1) % 2 ^ 32) ≠ [] →
      ∃ s' q, exec (.frel h b) s = .next s' ∧ Claims.UnitFrame s s' c slot ∧ s'.ops = s.ops ∧ s'.stks = s.stks ∧ s'.accs = s.accs ++ [q] ∧
        q.kind = .atomic .add 0 false 1 0 ∧ q.key = r.key + 0x10 ∧ q.len = 4 ∧ q.uid = t.uid ∧ q.ofUnit = true ∧ q.held = true ∧
        Claims.Goes s c slot t t s' ∧ ∀ k, s'.memGet k = s.memGet k) ∧
    (s.slotDone (t.who c) r = false →
      exec (.frel h b) s = .next (s.takeTrap c slot { t with wait := none } .qfault 0 t.pc)) ∧
    (s.slotDone (t.who c) r = true → s.objHeld r 0x10 4 ((r.rd + 1) % 2 ^ 32) = [] → s.outstanding t.uid = false →
    ∃ s', exec (.frel h b) s = .next s' ∧ Claims.UnitFrame s s' c slot ∧ s'.ops = s.ops ∧ s'.stks = s.stks ∧ s'.accs = s.accs ∧
      Claims.Goes s c slot t t s' ∧ ∀ q, s'.memGet q = Claims.laid s.memGet (r.key + 0x10) (toLe 4 ((r.rd + 1) % 2 ^ 32)) q)) ∧
  ∀ (h : Hdr) (p : PReg) (b : SReg) (r : Ring) (s : State) (c slot : Nat) (t : Team), slot < 16 →
    TeamIssues (.ftest h p b) h s c slot t → t.adm h ≠ 0 → Claims.RingReady s c t (t.rs b) false false Ring.rd r →
    s.teamOf t.uid = some (tkey c slot, t) →
    ∃ s', exec (.ftest h p b) s = .next s' ∧ Claims.UnitFrame s s' c slot ∧ s'.ops = s.ops ∧ s'.stks = s.stks ∧
      s'.accs = (if s.slotDone (t.who c) r then Claims.noFills s c else s.accs) ∧
      (∀ q, s'.memGet q = s.memGet q) ∧
      Claims.Goes s c slot t (t.wp p (t.adm h) (if s.slotDone (t.who c) r then t.adm h else 0)) s'

/-- R258, R262 to R265: COPY, COPYM and CHAIN reserve a slot, whose words say that it is pending, and put an operation in flight;
COPY.R puts the copy whose status stands in slot RD in flight again from where it stopped. -/
def Obligations.EnginesIssue : Prop :=  (∀ (h : Hdr) (a b : WReg) (e : SReg) (r : Ring) (k cls : Nat) (s : State) (c slot : Nat) (t : Team),
    slot < 16 → TeamIssues (.copy h a b e) h s c slot t → popcount t.act = 1 → t.adm h ≠ 0 →
    copyReady (t.viewOf a) (t.viewOf b) = true → Claims.RingReady s c t (t.rs e) true true Ring.rsv r → Claims.Reserves s c t r k cls →
    ∃ s', exec (.copy h a b e) s = .next s' ∧ Claims.UnitFrame s s' c slot ∧ s'.stks = s.stks ∧ s'.accs = s.accs ∧ Claims.Goes s c slot t t s' ∧
      (∀ q, s'.memGet q = Claims.reserved s k r q) ∧
      Claims.Issued s s' c t (t.rs e) r.rsv (.copy (t.viewOf a) (t.viewOf b) 0 0) ∧
      ∀ j, (s'.core c).dir.find j = ((s.core c).dir.find j).map fun x =>
        { x with count := x.count + ([t.viewOf a, t.viewOf b].filterMap View.entry).count j }) ∧
  (∀ (h : Hdr) (a b : WReg) (e : SReg) (r : Ring) (k cls : Nat) (s : State) (c slot : Nat) (t : Team),
    let w := s.slotGet (t.who c) r r.rd
    slot < 16 → TeamIssues (.copyR h a b e) h s c slot t → popcount t.act = 1 → t.adm h ≠ 0 →
    copyReady (t.viewOf a) (t.viewOf b) = true → Claims.RingReady s c t (t.rs e) true true Ring.rd r →
    (codeOf w.2 ≠ 1 → codeOf w.2 ≠ 5 → exec (.copyR h a b e) s = .next (s.takeTrap c slot { t with wait := none } .qfault 0 t.pc)) ∧
    ((codeOf w.2 = 1 ∨ codeOf w.2 = 5) → s.slotAt (t.who c) r r.rd true = .ok k cls → Claims.Home s k →
    s.slotHeld (t.who c) r r.rd w.1 (w.2 % 2 ^ 57 + 0x7F * 2 ^ 57) = [] → s.outstanding t.uid = false →
    ∃ s', exec (.copyR h a b e) s = .next s' ∧ Claims.UnitFrame s s' c slot ∧ s'.stks = s.stks ∧ s'.accs = s.accs ∧ Claims.Goes s c slot t t s' ∧
      (∀ q, s'.memGet q = Claims.laid s.memGet k (toLe 8 w.1 ++ toLe 8 (w.2 % 2 ^ 57 + 0x7F * 2 ^ 57)) q) ∧
      Claims.Issued s s' c t (t.rs e) r.rd (.copy (t.viewOf a) (t.viewOf b) (fld w.1 32 32) (fld w.1 0 32)))) ∧
  (∀ (h : Hdr) (a : WReg) (b e : SReg) (sp : Space) (r : Ring) (k cls : Nat) (s : State) (c slot : Nat) (t : Team),
    let v := t.viewOf a
    let off := (t.rs b).toNat
    let cmd := s.memRead (packKey t.blk off) 64
    let ncommon := le32 cmd 0x10
    let nown := le32 cmd 0x14
    let nrcv := fld (le64 cmd 0x18) 0 5 + 1
    slot < 16 → TeamIssues (.copym h a b e) h s c slot t → popcount t.act = 1 → t.adm h ≠ 0 → off + 64 ≤ t.hdr.packBytes →
    off % 64 = 0 →
    (∀ q ∈ s.accs, q.uid = t.uid → q.isRead = false → q.key + q.len ≤ packKey t.blk off ∨ packKey t.blk off + 64 ≤ q.key) →
    v.valid = true → ncommon + nrcv * nown ≤ v.total →
    (fld (le64 cmd 0) 61 3 = 0 ∧ sp = .glob ∨ fld (le64 cmd 0) 61 3 = 4 ∧ sp = .bcamp) → fld (le64 cmd 0) 57 4 = 0 →
    fld (le64 cmd 0x18) 5 59 = 0 → (∀ j, j < 4 → le64 cmd (0x20 + 8 * j) = 0) →
    fld (le64 cmd 0) 0 57 % 2 ^ v.desc.esize = 0 → le64 cmd 8 % 2 ^ v.desc.esize = 0 →
    Claims.RingReady s c t (t.rs e) true true Ring.rsv r → Claims.Reserves s c t r k cls →
    ∃ s', exec (.copym h a b e) s = .next s' ∧ Claims.UnitFrame s s' c slot ∧ s'.stks = s.stks ∧ s'.accs = s.accs ∧ Claims.Goes s c slot t t s' ∧
      (∀ q, s'.memGet q = Claims.reserved s k r q) ∧
      Claims.Issued s s' c t (t.rs e) r.rsv (.copym v sp (fld (le64 cmd 0) 0 57) (sgn 64 (le64 cmd 8)) nown ncommon nrcv)) ∧
  ∀ (h : Hdr) (a b e : SReg) (r : Ring) (k cls : Nat) (s : State) (c slot : Nat) (t : Team),
    let head := (t.rs a).toNat
    let ch := (t.rs b).toNat
    slot < 16 → TeamIssues (.chain h a b e) h s c slot t → popcount t.act = 1 → t.adm h ≠ 0 → ch < 128 → head % 64 = 0 →
    ((s.stk (stackOf c)).chan.get 0 ch).getLsbD 63 = false → Claims.RingReady s c t (t.rs e) true true Ring.rsv r →
    Claims.Reserves s c t r k cls →
    ∃ s', exec (.chain h a b e) s = .next s' ∧ Claims.UnitFrame s s' c slot ∧ s'.accs = s.accs ∧ Claims.Goes s c slot t t s' ∧
      (∀ q, s'.memGet q = Claims.reserved s k r q) ∧ Claims.Issued s s' c t (t.rs e) r.rsv (.chain ch head 0 0) ∧
      (∀ d, d ≠ stackOf c → s'.stk d = s.stk d) ∧
      s'.stk (stackOf c) = { s.stk (stackOf c) with chan := (s'.stk (stackOf c)).chan } ∧
      ∀ d, (s'.stk (stackOf c)).chan.find d = if d = ch then some (BitVec.ofNat 64 (2 ^ 63 + head % 2 ^ 57))
        else (s.stk (stackOf c)).chan.find d

/-- R268, R270 to R272: GATH puts a gather of the admitted lanes' rows in flight, to new slices of its registers or to a delivery that the
team takes in order; SCAT puts a store of a row in flight for each admitted lane, and an operation that ends with them. -/
def Obligations.GatherAndScatter : Prop :=  (∀ (h : Hdr) (d : VReg) (idx : VReg) (b : SReg) (p : PReg) (sz : Fin 3) (s : State) (c slot : Nat) (t : Team),
    let n := 2 ^ sz.val
    slot < 16 → s.stashOk = true → TeamIssues (.gath h (some d) idx b p sz) h s c slot t → s.hasGather = true → t.adm h ≠ 0 →
    s.acquiring t.uid = false → s.headroom c t (slicesFor n (lanes (t.adm h))) = true →
    s.unitWaits (stackOf c) (t.who c) .glob ((lanes (t.adm h)).flatMap fun l => pagesOf (Claims.rowOf s c t idx b l) (4 * n)) = false →
    (∀ l ∈ lanes (t.adm h), s.rowFail (t.who c) (4 * n) (4 * n) (Claims.rowOf s c t idx b l) = none) →
    ∃ s' t' dests, exec (.gath h (some d) idx b p sz) s = .next s' ∧ s'.team? c slot = some t' ∧ Claims.MemFrame { s with ops := s'.ops } s' c slot ∧
      (∀ q, s'.memGet q = s.memGet q) ∧ s'.accs = s.accs ∧
      t' = { t with pc := (s.nextOf c t).1, atHdr := (s.nextOf c t).2, wait := none, vmap := t'.vmap, preg := t'.preg,
                    shadows := t'.shadows } ∧ t'.flagsDue = t.flagsDue ∧
      (∀ r l, l < 1024 → inMask (t'.rp r) l = (inMask (t.rp r) l || decide (r = p) && inMask (t.adm h) l)) ∧
      (∀ r l, l < 1024 → (inMask (t.adm h) l = false ∨ ∀ k, k < n → r ≠ vregAt d k) → s'.vreg c slot r l = s.vreg c slot r l) ∧
      Claims.Issued s s' c t 0 0 (.gath dests ((lanes (t.adm h)).map fun l => (l, Claims.rowOf s c t idx b l)) (4 * n) false
        (if p.val = 0 then none else some p.val)) ∧
      dests = (passes (t.adm h)).map fun j => (j, (List.range n).map fun k => Dest.slice (t'.slice (vregAt d k).val j))) ∧
  (∀ (h : Hdr) (idx : VReg) (b : SReg) (p : PReg) (sz : Fin 3) (s : State) (c slot : Nat) (t : Team),
    let rb := fld (t.rs (sregAt b 1)).toNat 32 16
    slot < 16 → TeamIssues (.gath h none idx b p sz) h s c slot t → s.hasGather = true → t.adm h ≠ 0 →
    s.acquiring t.uid = false → t.gather.length < 4 → rb % 4 = 0 → 4 ≤ rb → rb ≤ 1024 →
    s.unitWaits (stackOf c) (t.who c) .glob ((lanes (t.adm h)).flatMap fun l => pagesOf (Claims.rowOf s c t idx b l) rb) = false →
    (∀ l ∈ lanes (t.adm h), s.rowFail (t.who c) 4 rb (Claims.rowOf s c t idx b l) = none) →
    ∃ s' t' x, exec (.gath h none idx b p sz) s = .next s' ∧ s'.team? c slot = some t' ∧ Claims.UnitFrame s s' c slot ∧
      s'.stks = s.stks ∧ s'.accs = s.accs ∧ (∀ q, s'.memGet q = s.memGet q) ∧
      t' = { t with pc := (s.nextOf c t).1, atHdr := (s.nextOf c t).2, wait := none, preg := t'.preg, gather := t.gather ++ [x],
                    shadows := t'.shadows } ∧ t'.flagsDue = t.flagsDue ∧
      x.id = s.seq ∧ x.rows = [] ∧ x.rb = rb ∧ x.next = 0 ∧ (∀ l, l < 1024 → inMask x.valid l = inMask (t.adm h) l) ∧
      (∀ r l, l < 1024 → inMask (t'.rp r) l = (inMask (t.rp r) l || decide (r = p) && inMask (t.adm h) l)) ∧
      Claims.Issued s s' c t 0 0 (.gath [] ((lanes (t.adm h)).map fun l => (l, Claims.rowOf s c t idx b l)) rb true
        (if p.val = 0 then none else some p.val))) ∧
  ∀ (h : Hdr) (d idx : VReg) (b : SReg) (sz : Fin 3) (s : State) (c slot : Nat) (t : Team) (key : Nat → Nat),
    let n := 4 * 2 ^ sz.val
    slot < 16 → TeamIssues (.scat h d idx b sz) h s c slot t → s.hasGather = true → t.adm h ≠ 0 → s.acquiring t.uid = false →
    Claims.Reach s c t .glob n false true true (lanes (t.adm h)) (Claims.rowOf s c t idx b) key →
    ∃ s' o, exec (.scat h d idx b sz) s = .next s' ∧ Claims.MemFrame { s with ops := s'.ops } s' c slot ∧
      (∀ q, s'.memGet q = s.memGet q) ∧ (∀ r k, s'.vreg c slot r k = s.vreg c slot r k) ∧ Claims.Goes s c slot t t s' ∧
      s'.ops = s.ops ++ [o] ∧ (∃ g, o.kind = .scat g ∧ ∀ q ∈ s'.accs.drop s.accs.length, q.grp = g) ∧ o.who = t.who c ∧
      s'.accs.take s.accs.length = s.accs ∧
      (s'.accs.drop s.accs.length).map (fun q => (q.kind, q.key, q.len, q.uid)) =
        ((lanes (t.adm h)).flatMap fun l => (Claims.halves n).map fun x =>
          (AccK.write (((Src.bytes ⟨s.core c, t, []⟩ (.v d) n l).drop x.1).take x.2), key l + x.1, x.2, t.uid))

/-- R257, R259, R262, R265, R266, R269, R272: a copy that may run moves every element, in ascending order, writes its status and steps WR;
a chain moves a record's bytes, clears its RUN bit and goes to the next record; a gathered row reaches every lane that asks for it;
an operation of SCAT ends when its stores are performed. R184, R304: where an operation that ends has written, the L1 of the core that
issued it drops what the core does not own. R259, R302, R317: a unit's write that must wait at its home, or goes to
another package, stands in flight, and its operation reports nothing while one of its writes does.
That a copy or a chain record is one step is the model's choice (log 6), and that reads in flight as an operation ends fill the L1 no more
is its reading (log 17). -/
def Obligations.EngineEvents : Prop :=  (∀ (id : Nat) (o : Op) (src dst : View) (start done0 : Nat) (sk dk : Nat → Nat) (sp : Space) (a k kc rk rc : Nat) (s : State),
    let es := (List.range (src.total - start)).map fun i => start + i
    let sz := 2 ^ src.desc.esize
    let r := s.ringIn sp rk rc
    let outs := (k, 16) :: (rk, 64) :: es.map fun e => (dk e, sz)
    s.op? id = some o → o.kind = .copy src dst start done0 → Claims.Fresh s o → Claims.Roomy s → s.eccLines = [] → s.cxlLost = [] →
    (∀ e ∈ es, ∃ va vd cs cd, viewElem src e = some va ∧ viewElem dst e = some vd ∧ Claims.Home s (sk e) ∧ Claims.Home s (dk e) ∧
      Claims.Steady s (fun m => m.spanAt o.who src.desc.space 0 va sz true false) (.ok (sk e) cs) ∧
      Claims.Steady s (fun m => m.spanAt o.who dst.desc.space 0 vd sz false true) (.ok (dk e) cd)) →
    outs.Pairwise Claims.Apart → (∀ e ∈ es, ∀ x ∈ outs, Claims.Apart (sk e, sz) x) →
    (∀ v ∈ [src, dst], s.unitWaits (stackOf o.who.core) o.who v.desc.space (es.filterMap (viewElem v)) = false) →
    handleOf o.ring = some (sp, a) → Claims.Steady s (fun m => m.spanAt o.who sp 0 a 64 true true) (.ok rk rc) →
    Claims.Steady s (fun m => m.slotAt o.who r o.slot true) (.ok k kc) → Claims.Home s k → Claims.Home s rk → Claims.Home s (rk + 8) →
    1 ≤ r.n → r.n ≤ 256 → r.wr = o.slot → r.rsv = (o.slot + 1) % 2 ^ 32 → o.slot < 2 ^ 32 →
    ∃ s', exec (.engineComplete id) s = .next s' ∧ s'.op? id = none ∧ (∀ p ∈ s'.ops, p ∈ s.ops) ∧ s'.teams = s.teams ∧
      s'.ridges = s.ridges ∧ s'.blocks = s.blocks ∧ s'.accs = Claims.finished s o ∧ s'.parts = s.parts ∧ s'.stks = s.stks ∧
      (∀ e ∈ es, ∀ i, i < sz → s'.memGet (dk e + i) = s.memGet (sk e + i)) ∧
      (∀ i, i < 16 → s'.memGet (k + i) =
        (toLe 8 (src.total % 2 ^ 32 * 2 ^ 32 + min (done0 + sz * es.length) 0xFFFFFFFF) ++ toLe 8 0).getD i 0) ∧
      (∀ i, i < 4 → s'.memGet (rk + 8 + i) = (toLe 4 ((o.slot + 1) % 2 ^ 32)).getD i 0) ∧
      ∀ q, (∀ e ∈ es, ¬ (dk e ≤ q ∧ q < dk e + sz)) → ¬ (k ≤ q ∧ q < k + 16) → ¬ (rk + 8 ≤ q ∧ q < rk + 12) →
        s'.memGet q = s.memGet q) ∧
  (∀ (u : Unit_) (k cls : Nat) (bs : List Byte) (s : State), k < 2 ^ 56 → (s.local_ k = true → s.unitHeld k bs = true) →
    let m := s.putWord u k cls bs
    ∃ q, m = { s with accs := s.accs ++ [q], seq := s.seq + 1, free := m.free, sent := m.sent } ∧ q.kind = .write bs ∧ q.key = k ∧ q.len = bs.length ∧ q.uid = u.id ∧
      q.ofUnit = true ∧ q.stage = 0 ∧ q.held = s.local_ k) ∧
  (∀ (id : Nat) (o : Op) (s : State), s.op? id = some o → s.engineMay o = true → (o.ended ≠ none ∨ o.todo ≠ []) →
    s.outstanding id = true → ∃ s', exec (.engineComplete id) s = .next s' ∧ s' = { s with ctxs := s'.ctxs }) ∧
  (∀ (stack ch : Nat) (o : Op) (rec k total rk rc sk dk cs cd next n : Nat) (ss ds : Space) (s : State),
    let b := s.homeRead rk 64
    let src := fld (le64 b 8) 0 57
    let dst := fld (le64 b 16) 0 57
    s.ops = [o] → o.kind = .chain ch rec k total → stackOf o.who.core = stack → Claims.Fresh s o → Claims.Roomy s → Claims.Clean s →
    s.unitWaits stack o.who .glob [rec] = false → s.unitWaits stack o.who ss (pagesOf src n) = false →
    s.unitWaits stack o.who ds (pagesOf dst n) = false →
    Claims.Steady s (fun m => m.spanAt o.who .glob 0 rec 64 true false) (.ok rk rc) →
    Claims.Steady s (fun m => m.spanAt o.who .glob 0 rec 8 false true) (.ok rk rc) → rk < 2 ^ 56 → s.local_ rk = true →
    le64 b 0 = 2 ^ 63 + next → 0 < next → next < 2 ^ 57 → next % 64 = 0 → spaceOf (fld (le64 b 8) 61 3) = some ss →
    spaceOf (fld (le64 b 16) 61 3) = some ds → fld (le64 b 8) 57 4 = 0 → fld (le64 b 16) 57 4 = 0 → le64 b 24 = n →
    (∀ i, i < 4 → le64 b (32 + 8 * i) = 0) → 0 < n → src % 64 + n ≤ 64 → dst % 64 + n ≤ 64 →
    Claims.Steady s (fun m => m.byteAt o.who ss 0 src true false) (.ok sk cs) →
    Claims.Steady s (fun m => m.byteAt o.who ds 0 dst false true) (.ok dk cd) → Claims.Home s sk → Claims.Home s dk →
    (dk ≤ sk ∨ sk + n ≤ dk) → Claims.Apart (dk, n) (rk, 64) →
    ∃ s', exec (.chainRecord stack ch) s = .next s' ∧ s'.teams = s.teams ∧ s'.parts = s.parts ∧ s'.accs = s.accs ∧
      s'.ops = [{ o with kind := .chain ch next (k + 1) (total + n) }] ∧
      (s'.stk stack).chan.find ch = some (BitVec.ofNat 64 (2 ^ 63 + next)) ∧
      ∀ q, s'.memGet q = Claims.laid (Claims.laid s.memGet dk (s.memRead sk n)) rk (toLe 8 next) q) ∧
  (∀ (id addr : Nat) (o : Op) (dests : List (Nat × List Dest)) (rows : List (Nat × Nat)) (size : Nat) (pred : Option Nat)
    (ps : List (Nat × Nat × Nat)) (s : State),
    s.ops = [o] → o.id = id → o.kind = .gath dests rows size false pred → o.writes = none → s.engineMay o = true → rows.any (fun r => r.2 == addr) = true →
    s.area o.who .glob addr size true false = (ps, none) → s.badPieces ps = false → s.stashOk = true →
    (dests.flatMap Prod.snd).Nodup → (rows.map Prod.fst).Nodup →
    ∃ s', exec (.gatherRowFetch id addr) s = .next s' ∧ s'.teams = s.teams ∧ s'.parts = s.parts ∧ s'.accs = s.accs ∧
      (∀ q, s'.memGet q = s.memGet q) ∧ (∀ d, d ≠ o.who.core → s'.core d = s.core d) ∧
      (s'.ops = [] ↔ ∀ r ∈ rows, r.2 = addr) ∧
      (∀ p ∈ s'.ops, p = { o with kind := .gath dests (rows.filter fun r => r.2 != addr) size false pred }) ∧
      ∀ (l : Nat) (ds : List Dest) (k n : Nat), (l, addr) ∈ rows → (dests.find? fun e => e.1 == l / 32) = some (l / 32, ds) →
        ds[k]? = some (.slice n) → ((s.core o.who.core).phys.find n).isSome = true → s.refs o.who.core n ≠ 0 →
        laneOf ((s'.core o.who.core).data n) (l % 32) = regOf (ofLe (s.getPieces ps)) k) ∧
  ∀ (id g : Nat) (o : Op) (s : State), s.op? id = some o → o.kind = .scat g → Claims.Fresh s o → o.ents = [] →
    (∀ a ∈ s.accs, a.grp = g → a.uid = o.who.uid → a.stage ≠ 0) →
    ∃ s', exec (.engineComplete id) s = .next s' ∧ s'.op? id = none ∧ (∀ p ∈ s'.ops, p ∈ s.ops) ∧ s'.teams = s.teams ∧
      s'.accs = Claims.finished s o ∧ s'.parts = s.parts ∧ ∀ q, s'.memGet q = s.memGet q

/-! The matrix array. -/

namespace Sys2Proof.Claims

/-- What an instruction of a matrix stream leaves as it was: every team, the other streams, the other blocks, the other cores, memory, and
all of its own core but the L1 and the converter. -/
structure StreamFrame (s s' : State) (c blk : Nat) : Prop where
  /-- The other streams. -/
  ridges : ∀ k, k ≠ c → s'.ridges.find k = s.ridges.find k
  /-- The other blocks. -/
  blocks : ∀ k, k ≠ blk → s'.blocks.find k = s.blocks.find k
  /-- The other cores. -/
  cores : ∀ d, d ≠ c → s'.core d = s.core d
  /-- The rest of the core. -/
  core : s'.core c = { s.core c with l1 := (s'.core c).l1, own := (s'.core c).own, planeBy := (s'.core c).planeBy }
  /-- The rest of the package. -/
  rest : s' = { s with ridges := s'.ridges, blocks := s'.blocks, cores := s'.cores, accs := s'.accs, sent := s'.sent,
                       slices := s'.slices, ctr := s'.ctr, free := s'.free, seq := s'.seq, eccOnes := s'.eccOnes }
  /-- Every byte of memory. -/
  mem : ∀ q, s'.memGet q = s.memGet q

/-- A stream goes on after its instruction with its registers as they were. -/
def Streams (s : State) (c : Nat) (r : Ridge) (s' : State) : Prop :=
  ∃ r', s'.ridge? c = some r' ∧
    r' = { r with pc := (s.nextOfM c r).1, atHdr := (s.nextOfM c r).2, wait := none, shadows := r'.shadows }

/-- Rows on chip that the stream may read or write, at the keys given. -/
def OnChip (s : State) (r : Ridge) (c : Nat) (sp : MSpace) (n : Nat) (rd wr : Bool) (rows : List Nat) (key : Nat → Nat) : Prop :=
  ∀ a ∈ rows, (s.area ⟨c, r.ctx, r.blk, r.uid, r.hdr.packBytes, 0⟩ (mspace sp) a n rd wr).2 = none ∧
    ((s.area ⟨c, r.ctx, r.blk, r.uid, r.hdr.packBytes, 0⟩ (mspace sp) a n rd wr).1.flatMap fun p => (List.range p.2.2).map (p.1 + ·)) =
      (List.range n).map (key a + ·) ∧ 2 ^ 56 ≤ key a

/-- The party of a stream. -/
def streamOf (r : Ridge) (c : Nat) : Who := ⟨c, r.ctx, r.blk, r.uid, r.hdr.packBytes, 0⟩

end Sys2Proof.Claims

/-- R134, R199, R206, R219, R229: MMA adds NKB K-blocks in order to its accumulator, element by element; the additions are written, oldest
first, by MMA_ACCUMULATOR_WRITE.
The two steps, issue and write, are the model's choice (log 26). -/
def Obligations.MatrixMultiply : Prop :=  (∀ (h : Hdr) (z a : Fin 8) (e : SReg) (sa sb : VReg) (planes : Fin 16) (bsel : Fin 4) (nkbm1 : Fin 8) (scl outl : Bool)
    (fmt : Nat → Bool × Nat) (s : State) (c : Nat) (r : Ridge) (b : Block),
    let nkb := nkbm1.val + 1
    let off (t : Nat) : Nat := fld (r.rs e).toNat 0 32 + t * fld (r.rs e).toNat 32 32
    let tile (t : Nat) : Tile := b.tile (a.val + t)
    let data (t : Nat) : List Byte := s.memRead (packKey r.blk (off t)) (64 + 256 * (fmt t).2)
    let pt (t : Nat) : PTile := ⟨((data t).take 32).map BitVec.toNat, (fmt t).1, (fmt t).2, data t⟩
    let scaleA (t m : Nat) : Nat := if scl then rowScale (tile t).kind (s.team0 r.blk sb m)
      (fld (s.team0 r.blk sa m) (8 * ((bsel.val + t) % 4)) 8) else ((tile t).sc.get 0 m).toNat
    let i := Instr.mma h z a e sa sb planes bsel nkbm1 scl outl
    RidgeIssues i h s c r → s.block? r.blk = some b → r.adm h = true → a.val + nkb ≤ 8 → s.owes r.uid s.seq = false →
    (scl = true → s.team0Busy r.blk [sa, sb] = false) →
    (∀ t, t < nkb → planesOf (s.memGet (packKey r.blk (off t + 0x20))).toNat = some (fmt t) ∧
      off t + 64 + 256 * (fmt t).2 ≤ r.hdr.packBytes ∧ off t % 64 = 0 ∧ (scl = true → (tile t).kind ≠ .float)) →
    ∃ (s' : State) (b' : Block) (m : MmaPend) (Z : Nat → Nat → Nat), exec i s = .next s' ∧ Claims.StreamFrame s s' c r.blk ∧
      Claims.Streams s c r s' ∧ s'.accs = s.accs ∧
      s'.block? r.blk = some b' ∧ b' = { b with accs := b'.accs, mma := b.mma ++ [m] } ∧
      (∀ k, b'.acc k = if k = z.val then { b.acc k with use := true, dirty := true } else b.acc k) ∧
      m.z = z.val ∧ m.acc.use = true ∧ m.acc.dirty = true ∧
      (∀ k, k < 1024 → (m.acc.el.get 0 k).toNat = Z nkb k ∧ Z 0 k = ((b.accNext z.val).el.get 0 k).toNat) ∧
      ∀ t i j, t < nkb → i < 32 → j < 32 → Z (t + 1) (32 * i + j) = accumulate (Z t (32 * i + j))
        ((List.range 64).map fun k => (tile t).el.get 0 (64 * i + k)) (scaleA t i)
        ((List.range 64).map fun k => (pt t).mant (min planes.val (fmt t).2) k j) ((pt t).scaleB j)
        (if outl then b.outl.filter fun o => decide (outT o = t) && decide (outM o = i) else []) % 2 ^ 32) ∧
  ∀ (c : Nat) (r : Ridge) (b : Block) (m : MmaPend) (rest : List MmaPend) (s : State), s.ridge? c = some r →
    s.block? r.blk = some b → b.mma = m :: rest →
    ∃ s' b', exec (.mmaAccumulatorWrite c) s = .next s' ∧ s' = { s with blocks := s'.blocks, ctr := s'.ctr } ∧
      (∀ k, k ≠ r.blk → s'.blocks.find k = s.blocks.find k) ∧ s'.block? r.blk = some b' ∧
      b' = { b with accs := b'.accs, mma := rest } ∧ (∀ k, b'.acc k = if k = m.z then m.acc else b.acc k) ∧
      s'.count .mmacnt c = (s.count .mmacnt c + 1) % 2 ^ 64 ∧ s'.count .planecyc c = (s.count .planecyc c + m.steps) % 2 ^ 64

/-- R203, R218, R220 to R223: MLDA decodes 32 rows into a weight tile, MOUTL takes a list of outliers, ZLD and ZST move an
accumulator from and to 32 rows, ZCLR clears a tile or an accumulator, ZMAP maps an accumulator by elements. Rows here are on chip.
R201, R215, R217: PLANE converts the columns of its source and puts the writes of a plane tile in flight, as a leader's stores or
the stream's; the converter is then busy until it is done. -/
def Obligations.MatrixTilesAndConverts : Prop :=
  (∀ (h : Hdr) (s : State) (c : Nat) (r : Ridge) (b : Block), s.block? r.blk = some b → r.adm h = true → s.owes r.uid s.seq = false →
    (∀ (a : Fin 8) (e : SReg) (sa sb : VReg) (bsel : Fin 4) (fmt : WFmt) (sp : MSpace) (key : Nat → Nat),
      let rows := rowsAt (r.rs e).toNat (r.rs (sregAt e 1)).toNat 32
      let row (m : Nat) : List Int × Nat := wfmtDecode fmt (s.memRead (key (((r.rs e).toNat + m * (r.rs (sregAt e 1)).toNat) % 2 ^ 64)) (wfmtRow fmt))
        (s.team0 r.blk sb m) (fld (s.team0 r.blk sa m) (8 * bsel.val) 8)
      RidgeIssues (.mlda h a e sa sb bsel fmt sp) h s c r → sp ≠ .glob → Claims.OnChip s r c sp (wfmtRow fmt) true false rows key →
      (∀ x ∈ rows, x % 32 = 0) → s.team0Busy r.blk [sa, sb] = false → s.eccLines = [] →
      ∃ s' b', exec (.mlda h a e sa sb bsel fmt sp) s = .next s' ∧ Claims.StreamFrame s s' c r.blk ∧ Claims.Streams s c r s' ∧
        s'.accs = s.accs ∧ s'.block? r.blk = some b' ∧ b' = { b with tiles := b'.tiles } ∧
        (∀ k, k ≠ a.val → b'.tile k = b.tile k) ∧ (b'.tile a.val).kind = wfmtKind fmt ∧
        (b'.tile a.val).use = true ∧ (b'.tile a.val).dirty = true ∧
        ∀ m k, m < 32 → k < 64 → (b'.tile a.val).el.get 0 (64 * m + k) = (row m).1.getD k 0 ∧
          (b'.tile a.val).sc.get 0 m = BitVec.ofNat 32 (row m).2) ∧
    (∀ (e : SReg),
      let off := fld (r.rs e).toNat 0 32
      let n := fld (r.rs e).toNat 32 9
      let l := (List.range n).map fun i => BitVec.ofNat 64 (ofLe (s.memRead (packKey r.blk (off + 8 * i)) 8))
      RidgeIssues (.moutl h e) h s c r → off % 8 = 0 → n ≤ 256 → (n ≠ 0 → off + 8 * n ≤ r.hdr.packBytes) →
      l.Pairwise (fun x y => fld x.toNat 0 14 < fld y.toNat 0 14) → (∀ x ∈ l, fld x.toNat 14 18 = 0) →
      ∃ s', exec (.moutl h e) s = .next s' ∧ Claims.StreamFrame s s' c r.blk ∧ Claims.Streams s c r s' ∧ s'.accs = s.accs ∧
        s'.block? r.blk = some { b with outl := l }) ∧
    (∀ (z : Fin 8) (e : SReg) (tr : Bool) (sp : MSpace) (key : Nat → Nat),
      let rows := rowsAt (r.rs e).toNat (r.rs (sregAt e 1)).toNat 32
      let at_ (m : Nat) : Nat := key (((r.rs e).toNat + m * (r.rs (sregAt e 1)).toNat) % 2 ^ 64)
      RidgeIssues (.zld h z e tr sp) h s c r → sp ≠ .glob → Claims.OnChip s r c sp 128 true false rows key →
      (∀ x ∈ rows, x % 4 = 0) → (r.rs (sregAt e 1)).toNat % 4 = 0 → b.accBusy z.val = false → s.eccLines = [] →
      ∃ s' b', exec (.zld h z e tr sp) s = .next s' ∧ Claims.StreamFrame s s' c r.blk ∧ Claims.Streams s c r s' ∧ s'.accs = s.accs ∧
        s'.block? r.blk = some b' ∧ b' = { b with accs := b'.accs } ∧ (∀ k, k ≠ z.val → b'.acc k = b.acc k) ∧
        (b'.acc z.val).use = true ∧ (b'.acc z.val).dirty = true ∧
        ∀ m n, m < 32 → n < 32 → ((b'.acc z.val).el.get 0 (32 * m + n)).toNat =
          ofLe (s.memRead (if tr then at_ n + 4 * m else at_ m + 4 * n) 4)) ∧
    (∀ (z : Fin 8) (free : Bool) (e : SReg) (fmt : ZFmt) (tr : Bool) (sp : MSpace) (key : Nat → Nat),
      let n := (zfmtTy fmt).w / 8
      let rows := rowsAt (r.rs e).toNat (r.rs (sregAt e 1)).toNat 32
      let el (m j : Nat) : Nat := ((b.acc z.val).el.get 0 (if tr then 32 * j + m else 32 * m + j)).toNat
      RidgeIssues (.zst h z free e fmt tr sp) h s c r → sp ≠ .glob → Claims.OnChip s r c sp (32 * n) false true rows key →
      (∀ x ∈ rows, x % n = 0 ∧ x + 32 * n ≤ 2 ^ 64 ∧ ∀ j, j < 32 → s.byteAt (Claims.streamOf r c) (mspace sp) 0 (x + j * n) false true = .ok (key x + j * n) 0) →
      (r.rs (sregAt e 1)).toNat % 4 = 0 → b.accBusy z.val = false →
      ∃ s' b', exec (.zst h z free e fmt tr sp) s = .next s' ∧ Claims.StreamFrame s s' c r.blk ∧ Claims.Streams s c r s' ∧
        s'.block? r.blk = some b' ∧ b' = { b with accs := b'.accs } ∧
        (∀ k, b'.acc k = if k = z.val ∧ free = true then { b.acc k with use := false } else b.acc k) ∧
        s'.accs.take s.accs.length = s.accs ∧
        (s'.accs.drop s.accs.length).map (fun q => (q.kind, q.key, q.len, q.uid)) =
          ((List.range 32).flatMap fun m => (List.range 32).map fun j =>
            (AccK.write (toLe n (packF (zfmtTy fmt) Rnd.rne (unpackF .f32 false (el m j))).bits),
              key (((r.rs e).toNat + m * (r.rs (sregAt e 1)).toNat) % 2 ^ 64) + j * n, n, r.uid))) ∧
    (∀ (tile : Bool) (n : Fin 8), RidgeIssues (.zclr h tile n) h s c r → (tile = false → b.accBusy n.val = false) →
      ∃ s' b', exec (.zclr h tile n) s = .next s' ∧ Claims.StreamFrame s s' c r.blk ∧ Claims.Streams s c r s' ∧ s'.accs = s.accs ∧
        s'.block? r.blk = some b' ∧ b' = { b with tiles := b'.tiles, accs := b'.accs } ∧
        (∀ k, b'.tile k = if tile = true ∧ k = n.val then ⟨[], [], .cb4, false, false⟩ else b.tile k) ∧
        ∀ k, b'.acc k = if tile = false ∧ k = n.val then ⟨[], false, false⟩ else b.acc k) ∧
    ∀ (z a : Fin 8) (e : SReg) (op : ZOp), RidgeIssues (.zmap h z a e op) h s c r → b.accBusy z.val = false → b.accBusy a.val = false →
      ∃ s' b', exec (.zmap h z a e op) s = .next s' ∧ Claims.StreamFrame s s' c r.blk ∧ Claims.Streams s c r s' ∧ s'.accs = s.accs ∧
        s'.block? r.blk = some b' ∧ b' = { b with accs := b'.accs } ∧ (∀ k, k ≠ z.val → b'.acc k = b.acc k) ∧
        (b'.acc z.val).use = true ∧ (b'.acc z.val).dirty = true ∧
        ∀ k, k < 1024 → (b'.acc z.val).el.get 0 k =
          let x := (b.acc z.val).el.get 0 k
          let y := (b.acc a.val).el.get 0 k
          match op with
          | .mov => y
          | .add => BitVec.ofNat 32 (rAdd x.toNat y.toNat)
          | .scale => BitVec.ofNat 32 (rMul y.toNat (fld (r.rs e).toNat 0 32))
          | .relu => BitVec.ofNat 32 (minmaxF .f32 false true y.toNat 0).bits) ∧
  ((∀ (h : Hdr) (e sa sb : SReg) (src : PSrc) (s : State) (c slot : Nat) (t : Team),
    let so := fld (t.rs e).toNat 0 32
    let dst := fld (t.rs sa).toNat 0 32
    let ld := fld (t.rs sb).toNat 0 32
    let nv := fld (t.rs sb).toNat 32 5 + 1
    let size := 64 + 256 * psrcWs src
    let cols := (List.range nv).map fun n => planeCol (psrcBits src) so ld n
    let tile := planeTile (psrcWs src) (psrcFty src).isNone ((List.range 32).map fun n => match cols[n]? with
      | some (q : Nat × Nat × Nat) => psrcColumn src (fld (t.rs sb).toNat 40 8) (s.memRead (packKey t.blk q.1) q.2.1) q.2.2
      | none => (if (psrcFty src).isSome then 1 else fld (t.rs sb).toNat 40 8, []))
    slot < 16 → TeamIssues (.plane h e sa sb src) h s c slot t → popcount t.act = 1 → t.adm h ≠ 0 → s.acquiring t.uid = false →
    (s.core c).planeBy = none → (∀ q ∈ cols, q.1 + q.2.1 ≤ t.hdr.packBytes ∧ ∀ a ∈ s.accs, a.uid = t.uid → a.isRead = false →
      packKey t.blk q.1 + q.2.1 ≤ a.key ∨ a.key + a.len ≤ packKey t.blk q.1) → dst + size ≤ t.hdr.packBytes → dst % 64 = 0 →
    (if 8 ≤ psrcBits src then so * 8 % psrcBits src = 0 else ld * psrcBits src % 8 = 0) →
    ∃ s', exec (.plane h e sa sb src) s = .next s' ∧ (∀ q, s'.memGet q = s.memGet q) ∧ Claims.Goes s c slot t t s' ∧
      (∀ k, k ≠ tkey c slot → s'.teams.find k = s.teams.find k) ∧ (∀ k, k < 16 → ∀ x l, s'.vreg c k x l = s.vreg c k x l) ∧
      (∀ d, d ≠ c → s'.core d = s.core d) ∧ s'.core c = { s.core c with planeBy := some t.uid, vtb := (s'.core c).vtb } ∧
      s' = { s with teams := s'.teams, cores := s'.cores, accs := s'.accs, ctr := s'.ctr, seq := s'.seq } ∧
      s'.accs.take s.accs.length = s.accs ∧
      (s'.accs.drop s.accs.length).map (fun q => (q.kind, q.key, q.len, q.uid, q.after)) =
        (List.range (size / 8)).map fun k => (AccK.write ((tile.drop (8 * k)).take 8), packKey t.blk (dst + 8 * k), 8, t.uid, t.relSeq)) ∧
  (∀ (h : Hdr) (e sa sb : SReg) (src : PSrc) (s : State) (c : Nat) (r : Ridge),
    let so := fld (r.rs e).toNat 0 32
    let dst := fld (r.rs sa).toNat 0 32
    let ld := fld (r.rs sb).toNat 0 32
    let nv := fld (r.rs sb).toNat 32 5 + 1
    let size := 64 + 256 * psrcWs src
    let cols := (List.range nv).map fun n => planeCol (psrcBits src) so ld n
    let tile := planeTile (psrcWs src) (psrcFty src).isNone ((List.range 32).map fun n => match cols[n]? with
      | some (q : Nat × Nat × Nat) => psrcColumn src (fld (r.rs sb).toNat 40 8) (s.memRead (packKey r.blk q.1) q.2.1) q.2.2
      | none => (if (psrcFty src).isSome then 1 else fld (r.rs sb).toNat 40 8, []))
    RidgeIssues (.plane h e sa sb src) h s c r → r.adm h = true → s.acquiring r.uid = false → (s.core c).planeBy = none →
    (∀ a ∈ s.accs, a.uid = r.uid → a.isRead = false → a.stage ≠ 0) →
    (∀ q ∈ cols, q.1 + q.2.1 ≤ r.hdr.packBytes) → dst + size ≤ r.hdr.packBytes → dst % 64 = 0 →
    (if 8 ≤ psrcBits src then so * 8 % psrcBits src = 0 else ld * psrcBits src % 8 = 0) →
    ∃ s', exec (.plane h e sa sb src) s = .next s' ∧ Claims.StreamFrame s s' c r.blk ∧ Claims.Streams s c r s' ∧
      s'.blocks = s.blocks ∧ (s'.core c).planeBy = some r.uid ∧ s'.accs.take s.accs.length = s.accs ∧
      (s'.accs.drop s.accs.length).map (fun q => (q.kind, q.key, q.len, q.uid, q.after)) =
        (List.range (size / 8)).map fun k => (AccK.write ((tile.drop (8 * k)).take 8), packKey r.blk (dst + 8 * k), 8, r.uid, s.seq)) ∧
  ∀ (c : Nat) (s : State), ∃ s', exec (.planeConverterDone c) s = .next s' ∧ s' = { s with cores := s'.cores } ∧
    (∀ d, d ≠ c → s'.core d = s.core d) ∧ s'.core c = { s.core c with planeBy := none })

/-! Named barriers. -/

namespace Sys2Proof.Claims

/-- What an acquire leaves at a core: the L1 holds no word that the core does not own (R298), and reads in flight fill it no more, which is
the model's reading (log 17). -/
def Acquired (s s' : State) (c : Nat) : Prop :=
  s'.accs = noFills s c ∧
  ∀ l ∈ (s'.core c).l1, ∀ k, k < 32 → l.valid.getLsbD k = true → (s.core c).own.get false (32 * l.line + k) = true

/-- The number of the barrier that an instruction names (R209). -/
def barOf : Instr → Option Nat
  | .binit _ _ n | .barr _ _ n | .bwait _ _ n | .bsync _ n | .bexp _ _ n => some n.val
  | _ => none

end Sys2Proof.Claims

/-- R209, R210, R212, R224 to R226: the barrier instructions, on a team and on a stream. BINIT gives EXP and clears the rest; BARR and
BSYNC add an arrival that counts later; BWAIT ends where PHASE differs from the parity it names, and waits where it does not; BSYNC ends
where PHASE differs from that of its arrival; both end as an acquire. BEXP posts expectations, a team's not after the stream's in one
cycle. A barrier that the block does not have traps ILLEGAL, a count of BINIT or a sum of BEXP out of range ILLEGAL_DESC. R210: an
arrival counts once what its party did before is acknowledged; BARR's register then gets PHASE, and BSYNC waits on it.
That BINIT drops what the running cycle has counted, and that a team's late post waits for the next cycle, is the model's reading
(log 49), as it is that reads in flight at an acquire fill the L1 no more (log 17). -/
def Obligations.Barriers : Prop :=
  ((∀ (h : Hdr) (n : Fin 128) (s : State) (c slot : Nat) (t : Team) (b : Block), slot < 16 → t.adm h ≠ 0 → n.val < t.hdr.nb →
    s.block? t.blk = some b →
    (∀ a, TeamIssues (.binit h a n) h s c slot t → 1 ≤ (t.rs a).toNat → (t.rs a).toNat < 2 ^ 12 →
      ∃ s' b', exec (.binit h a n) s = .next s' ∧ Claims.Goes s c slot t t s' ∧
        TeamFrame { s with blocks := s'.blocks } s' c slot ∧ (∀ k, k ≠ t.blk → s'.blocks.find k = s.blocks.find k) ∧
        s'.block? t.blk = some b' ∧ b' = { b with bars := b'.bars } ∧
        ∀ k, b'.bar k = if k = n.val then ⟨BitVec.ofNat 12 (t.rs a).toNat, 0, 0, false, 0, 0, false⟩ else b.bar k) ∧
    (∀ a, TeamIssues (.binit h a n) h s c slot t → ((t.rs a).toNat = 0 ∨ 2 ^ 12 ≤ (t.rs a).toNat) →
      exec (.binit h a n) s = .next (s.takeTrap c slot { t with wait := none } .illegalDesc 0 t.pc)) ∧
    (∀ d, TeamIssues (.barr h d n) h s c slot t →
      ∃ s', exec (.barr h d n) s = .next s' ∧ Claims.Goes s c slot t t s' ∧ TeamFrame { s with blocks := s'.blocks } s' c slot ∧
        (∀ k, k ≠ t.blk → s'.blocks.find k = s.blocks.find k) ∧
        s'.block? t.blk = some { b with arr := b.arr ++ [⟨t.uid, n.val, some d.val, s.seq, false⟩] }) ∧
    (∀ a, TeamIssues (.bwait h a n) h s c slot t → (b.bar n.val).phase ≠ (t.rs a).getLsbD 0 → s.teamOf t.uid = some (tkey c slot, t) →
      ∃ s', exec (.bwait h a n) s = .next s' ∧ Claims.PortFrame s s' c slot ∧ (∀ q, s'.memGet q = s.memGet q) ∧
        Claims.Goes s c slot t t s' ∧ Claims.Acquired s s' c) ∧
    (∀ a, TeamIssues (.bwait h a n) h s c slot t → (b.bar n.val).phase = (t.rs a).getLsbD 0 → t.wait = none →
      exec (.bwait h a n) s = .next ((State.setTeam s c slot { t with wait := some (.instr (.bwait h a n) s.seq (s.nextOf c t)) }).tickSeq)) ∧
    (TeamIssues (.bsync h n) h s c slot t → t.wait = none → (∀ a ∈ b.arr, a.uid ≠ t.uid) →
      ∃ s', exec (.bsync h n) s = .next s' ∧ s' = { s with blocks := s'.blocks, teams := s'.teams, seq := s'.seq } ∧
        (∀ k, k ≠ t.blk → s'.blocks.find k = s.blocks.find k) ∧ (∀ k, k ≠ tkey c slot → s'.teams.find k = s.teams.find k) ∧
        s'.block? t.blk = some { b with arr := b.arr ++ [⟨t.uid, n.val, none, s.seq, true⟩] } ∧
        ∃ j, s'.team? c slot = some { t with wait := some (.instr (.bsync h n) j (s.nextOf c t)) }) ∧
    (∀ i j p nx, TeamIssues (.bsync h n) h s c slot t → t.wait = some (.barrier i p j nx) → (b.bar n.val).phase ≠ p →
      s.teamOf t.uid = some (tkey c slot, t) →
      ∃ s', exec (.bsync h n) s = .next s' ∧ Claims.PortFrame s s' c slot ∧ (∀ q, s'.memGet q = s.memGet q) ∧
        Claims.Goes s c slot t t s' ∧ Claims.Acquired s s' c) ∧
    (∀ a, TeamIssues (.bexp h a n) h s c slot t → (b.bar n.val).late = true → exec (.bexp h a n) s = .next s) ∧
    (∀ a, TeamIssues (.bexp h a n) h s c slot t → (b.bar n.val).late = false →
      2 ^ 24 ≤ (b.bar n.val).post.toNat + (b.bar n.val).posts + fld (t.rs a).toNat 0 24 →
      exec (.bexp h a n) s = .next (s.takeTrap c slot { t with wait := none } .illegalDesc 0 t.pc)) ∧
    ∀ a, TeamIssues (.bexp h a n) h s c slot t → (b.bar n.val).late = false →
      (b.bar n.val).post.toNat + (b.bar n.val).posts + fld (t.rs a).toNat 0 24 < 2 ^ 24 →
      ∃ s' b', exec (.bexp h a n) s = .next s' ∧ Claims.Goes s c slot t t s' ∧ TeamFrame { s with blocks := s'.blocks } s' c slot ∧
        (∀ k, k ≠ t.blk → s'.blocks.find k = s.blocks.find k) ∧ s'.block? t.blk = some b' ∧ b' = { b with bars := b'.bars } ∧
        ∀ k, b'.bar k = if k = n.val then { b.bar k with posts := (b.bar k).posts + fld (t.rs a).toNat 0 24 } else b.bar k) ∧
  (∀ (i : Instr) (n : Nat) (s : State) (c slot : Nat), Claims.barOf i = some n →
    (∀ t : Team, s.cur = .team c slot → s.team? c slot = some t → t.hdr.nb ≤ n →
      exec i s = .next (s.takeTrap c slot { t with wait := none } .illegal 0 t.pc)) ∧
    ∀ r : Ridge, s.cur = .ridge c → s.ridge? c = some r → r.hdr.nb ≤ n →
      exec i s = .next (s.takeTrapM c { r with wait := none } .illegal 0 r.pc)) ∧
  ∀ (h : Hdr) (n : Fin 128) (s : State) (c : Nat) (r : Ridge) (b : Block), r.adm h = true → n.val < r.hdr.nb → s.block? r.blk = some b →
    (∀ a, RidgeIssues (.binit h a n) h s c r → 1 ≤ (r.rs a).toNat → (r.rs a).toNat < 2 ^ 12 →
      ∃ s' b', exec (.binit h a n) s = .next s' ∧ Claims.Streams s c r s' ∧ Claims.StreamFrame s s' c r.blk ∧ s'.cores = s.cores ∧
        s'.accs = s.accs ∧ s'.block? r.blk = some b' ∧ b' = { b with bars := b'.bars } ∧
        ∀ k, b'.bar k = if k = n.val then ⟨BitVec.ofNat 12 (r.rs a).toNat, 0, 0, false, 0, 0, false⟩ else b.bar k) ∧
    (∀ d, RidgeIssues (.barr h d n) h s c r →
      ∃ s', exec (.barr h d n) s = .next s' ∧ Claims.Streams s c r s' ∧ Claims.StreamFrame s s' c r.blk ∧ s'.cores = s.cores ∧
        s'.accs = s.accs ∧ s'.block? r.blk = some { b with arr := b.arr ++ [⟨r.uid, n.val, some d.val, s.seq, false⟩] }) ∧
    (∀ a, RidgeIssues (.bwait h a n) h s c r → (b.bar n.val).phase ≠ (r.rs a).getLsbD 0 → s.teamOf r.uid = none →
      ∃ s', exec (.bwait h a n) s = .next s' ∧ Claims.Streams s c r s' ∧ Claims.StreamFrame s s' c r.blk ∧
        s'.blocks = s.blocks ∧ Claims.Acquired s s' c) ∧
    (∀ a, RidgeIssues (.bwait h a n) h s c r → (b.bar n.val).phase = (r.rs a).getLsbD 0 → r.wait = none →
      exec (.bwait h a n) s = .next ((State.setRidge s c { r with wait := some (.instr (.bwait h a n) s.seq (s.nextOfM c r)) }).tickSeq)) ∧
    (RidgeIssues (.bsync h n) h s c r → r.wait = none → (∀ a ∈ b.arr, a.uid ≠ r.uid) →
      ∃ s', exec (.bsync h n) s = .next s' ∧ s' = { s with blocks := s'.blocks, ridges := s'.ridges, seq := s'.seq } ∧
        (∀ k, k ≠ r.blk → s'.blocks.find k = s.blocks.find k) ∧ (∀ k, k ≠ c → s'.ridges.find k = s.ridges.find k) ∧
        s'.block? r.blk = some { b with arr := b.arr ++ [⟨r.uid, n.val, none, s.seq, true⟩] } ∧
        ∃ j, s'.ridge? c = some { r with wait := some (.instr (.bsync h n) j (s.nextOfM c r)) }) ∧
    (∀ i j p nx, RidgeIssues (.bsync h n) h s c r → r.wait = some (.barrier i p j nx) → (b.bar n.val).phase ≠ p → s.teamOf r.uid = none →
      ∃ s', exec (.bsync h n) s = .next s' ∧ Claims.Streams s c r s' ∧ Claims.StreamFrame s s' c r.blk ∧
        s'.blocks = s.blocks ∧ Claims.Acquired s s' c) ∧
    (∀ a, RidgeIssues (.bexp h a n) h s c r →
      2 ^ 24 ≤ (b.bar n.val).post.toNat + (b.bar n.val).posts + fld (r.rs a).toNat 0 24 →
      exec (.bexp h a n) s = .next (s.takeTrapM c { r with wait := none } .illegalDesc 0 r.pc)) ∧
    (∀ a, RidgeIssues (.binit h a n) h s c r → ((r.rs a).toNat = 0 ∨ 2 ^ 12 ≤ (r.rs a).toNat) →
      exec (.binit h a n) s = .next (s.takeTrapM c { r with wait := none } .illegalDesc 0 r.pc)) ∧
    ∀ a, RidgeIssues (.bexp h a n) h s c r →
      (b.bar n.val).post.toNat + (b.bar n.val).posts + fld (r.rs a).toNat 0 24 < 2 ^ 24 →
      ∃ s' b', exec (.bexp h a n) s = .next s' ∧ Claims.Streams s c r s' ∧ Claims.StreamFrame s s' c r.blk ∧ s'.cores = s.cores ∧
        s'.accs = s.accs ∧ s'.block? r.blk = some b' ∧ b' = { b with bars := b'.bars } ∧
        ∀ k, b'.bar k = if k = n.val then { b.bar k with posts := (b.bar k).posts + fld (r.rs a).toNat 0 24, late := true }
          else b.bar k) ∧
  (∀ (c k : Nat) (blk : Nat) (a : Arrival) (b : Block) (s : State), (s.arrivals c)[k]? = some (blk, a) → s.block? blk = some b →
    (∀ r q, s.ridgeOf a.uid = some (q, r) → ∀ x, s.block? r.blk = some x → x.attn = none) →
    (∀ q ∈ s.accs, q.uid = a.uid → a.seq ≤ q.id) → Claims.Known s a.uid →
    ∃ s' b', exec (.barrierArrival c k) s = .next s' ∧ s' = { s with blocks := s'.blocks, teams := s'.teams, ridges := s'.ridges } ∧
      (∀ j, j ≠ blk → s'.blocks.find j = s.blocks.find j) ∧ s'.block? blk = some b' ∧
      b' = { b with bars := b'.bars, arr := b.arr.filter fun q => q != a } ∧
      (∀ j, b'.bar j = if j = a.bar then { b.bar j with now := (b.bar j).now + 1 } else b.bar j) ∧
      (∀ q t i j nx, s.teamOf a.uid = some (q, t) → a.sync = true → t.wait = some (.instr i j nx) →
        s'.ridges = s.ridges ∧ (∀ k, k ≠ q → s'.teams.find k = s.teams.find k) ∧
        s'.teams.find q = some { t with wait := some (.barrier i (b.bar a.bar).phase j nx) }) ∧
      ∀ q t d, s.teamOf a.uid = some (q, t) → a.sync = false → a.dst = some d → d < 64 →
        s'.ridges = s.ridges ∧ (∀ j, j ≠ q → s'.teams.find j = s.teams.find j) ∧
        ∃ t', s'.teams.find q = some t' ∧ t' = { t with sreg := t'.sreg, shadows := t'.shadows } ∧
          ∀ x, t'.rs x = if x.val = d ∧ d ≠ 0 then (if (b.bar a.bar).phase then 1 else 0) else t.rs x)

/-- R211: at the end of a cycle a barrier adds the arrivals counted in it; where ARR reaches EXP + POST, it flips PHASE, keeps the surplus
for the next phase and takes the expectations of the cycle as its POST; else it adds them to POST. -/
def Obligations.BarrierCycle : Prop :=  ∀ (c : Nat) (s : State), ∃ s', exec (.barrierCycle c) s = .next s' ∧ s' = { s with blocks := s'.blocks } ∧
    ∀ blk b, s.block? blk = some b → (b.core ≠ c → s'.block? blk = some b) ∧ (b.core = c →
      ∃ b', s'.block? blk = some b' ∧ b' = { b with bars := b'.bars } ∧ ∀ n x, b.bars.find n = some x →
        let arr := x.arr.toNat + x.now
        let need := x.exp.toNat + x.post.toNat
        b'.bar n = { x with
          arr := BitVec.ofNat 24 (if need ≤ arr then arr - need else arr),
          post := BitVec.ofNat 24 (if need ≤ arr then x.posts else x.post.toNat + x.posts),
          phase := if need ≤ arr then !x.phase else x.phase, now := 0, posts := 0, late := false })

/-! KV sequences. -/

namespace Sys2Proof.Claims

/-- What a function of memory reads as once bytes are laid over pieces (key, class, length). -/
def laidPieces (m : Nat → Byte) : List (Nat × Nat × Nat) → List Byte → Nat → Byte
  | [], _ => m
  | p :: rest, bs => laidPieces (laid m p.1 (bs.take p.2.2)) rest (bs.drop p.2.2)

/-- What a function of memory reads as once a list of writes, each with its pieces, is done in order. -/
def laidAll (m : Nat → Byte) (xs : List (List (Nat × Nat × Nat) × List Byte)) : Nat → Byte :=
  xs.foldl (fun m x => laidPieces m x.1 x.2) m

/-- The writes (address, bytes) of a unit in global memory lie at the pieces given, in every state that agrees on translation. -/
def WritesAt (s : State) (w : Who) (puts : List (Nat × List Byte)) (place : Nat × List Byte → List (Nat × Nat × Nat)) : Prop :=
  ∀ x ∈ puts, Steady s (fun m => m.area w .glob x.1 x.2.length false true) (place x, none) ∧ ∀ p ∈ place x, Home s p.1

/-- A 64-bit word that a unit changes lies at a key. -/
def WordAt (s : State) (w : Who) (a k : Nat) : Prop :=
  ∃ c, Steady s (fun m => m.spanAt w .glob 0 a 8 true true) (.ok k c) ∧ Home s k

/-- A record of 64 bytes that a unit reads lies at a key, whole. -/
def RecordAt (s : State) (w : Who) (a k : Nat) : Prop :=
  ∃ c, Steady s (fun m => m.area w .glob a 64 true false) ([(k, c, 64)], none) ∧ Home s k

/-- n bytes of a function of memory, as a number. -/
def num (m : Nat → Byte) (k n : Nat) : Nat := ofLe ((List.range n).map fun i => m (k + i))

/-- What a function of memory reads as once floating-point additions are made to words at keys, in order (R243). -/
def added (m : Nat → Byte) (xs : List (Nat × Nat × W32)) : Nat → Byte :=
  xs.foldl (fun m x => laid m x.1 (toLe 4 (addF .f32 Rnd.rne (num m x.1 4) x.2.2.toNat).bits)) m

/-- A ring and its slot, which a unit reports to, lie at the keys given. -/
def RingPlace (s : State) (w : Who) (ring : W64) (slot k rk : Nat) : Prop :=
  ∃ sp a kc rc, handleOf ring = some (sp, a) ∧ Steady s (fun m => m.spanAt w sp 0 a 64 true true) (.ok rk rc) ∧
    1 ≤ (s.ringIn sp rk rc).n ∧ (s.ringIn sp rk rc).n ≤ 256 ∧ Steady s (fun m => m.slotAt w (s.ringIn sp rk rc) slot true) (.ok k kc) ∧
    Home s k ∧ Home s rk ∧ Home s (rk + 8) ∧ Apart (k, 16) (rk, 64)

/-- Memory after a report: a slot holds the status, WR of the ring may have moved, and all else is as m has it (R257, R259). -/
def Told (s' : State) (m : Nat → Byte) (k rk resume done code fa : Nat) : Prop :=
  (∀ i, i < 16 → s'.memGet (k + i) =
    (toLe 8 (resume % 2 ^ 32 * 2 ^ 32 + min done 0xFFFFFFFF) ++ toLe 8 (code * 2 ^ 57 + fa % 2 ^ 57)).getD i 0) ∧
  ∀ q, ¬ (k ≤ q ∧ q < k + 16) → ¬ (rk + 8 ≤ q ∧ q < rk + 12) → s'.memGet q = m q

end Sys2Proof.Claims

/-- R238, R246: KVAPP reserves a slot and puts an append in flight; KVEVT puts a command into the queue of a Strike engine. R239, R240,
R243, R244: ATTN raises RC of the slot it reads, puts its outputs into accumulators and goes on until it is complete, when its mass
additions are made, in order, and once they are acknowledged RC falls again. R233, R235, R238, R245 to R249: an append claims its entry,
then writes what it appends, raises LEN, clears APP and reports; a Strike command claims its entry, takes pages and writes the kept
tokens into the other slot, flips GEN, and once RC of the old slot is zero takes tickets, gives the old pages back, raises GIVE, clears
BUSY and reports.
What is done in one step is the model's choice (logs 26, 27), and that reads in flight at the acquire of ATTN, and as an append ends, fill
the L1 no more is its reading (log 17). -/
def Obligations.KvOperations : Prop :=
  ((∀ (h : Hdr) (a b e : SReg) (sp : MSpace) (r : Ring) (k cls : Nat) (s : State) (c slot : Nat) (t : Team),
    slot < 16 → TeamIssues (.kvapp h a b e sp) h s c slot t → popcount t.act = 1 → t.adm h ≠ 0 → (t.rs a).toNat % 64 = 0 →
    (t.rs b).toNat % 64 = 0 → (t.rs (sregAt b 1)).toNat % 64 = 0 → Claims.RingReady s c t (t.rs e) true true Ring.rsv r →
    Claims.Reserves s c t r k cls →
    ∃ s', exec (.kvapp h a b e sp) s = .next s' ∧ Claims.UnitFrame s s' c slot ∧ s'.stks = s.stks ∧ s'.accs = s.accs ∧ Claims.Goes s c slot t t s' ∧
      (∀ q, s'.memGet q = Claims.reserved s k r q) ∧
      Claims.Issued s s' c t (t.rs e) r.rsv (.kvapp (t.rs a).toNat (t.rs b).toNat (t.rs (sregAt b 1)).toNat sp 0)) ∧
  (∀ (h : Hdr) (a : SReg) (st : Fin 4) (s : State) (c slot : Nat) (t : Team), slot < 16 → TeamIssues (.kvevt h a st) h s c slot t →
    popcount t.act = 1 → t.adm h ≠ 0 → (t.rs a).toNat % 64 = 0 → st.val < s.stacksN → s.owes t.uid s.seq = false →
    s.unitsRun (s.partOf st.val) = true → (s.stk st.val).strikeQ.length < 64 →
    ∃ s', exec (.kvevt h a st) s = .next s' ∧ Claims.PortFrame s s' c slot ∧ (∀ q, s'.memGet q = s.memGet q) ∧
      Claims.Goes s c slot t t s' ∧ (∀ j, j ≠ st.val → s'.stk j = s.stk j) ∧
      s'.stk st.val = { s.stk st.val with strikeQ := (s.stk st.val).strikeQ ++ [⟨(t.rs a).toNat, t.ctx, t.depth, s.seq, t.uid, c⟩] }) ∧
  (∀ (h : Hdr) (z : Fin 8) (e : SReg) (planes : Fin 16) (mass causal bias rowinc : Bool) (x : AttnIn) (pages : List Nat) (s : State) (c : Nat)
    (r : Ridge) (b : Block),
    let q (k : Nat) : Nat := (r.rs (sregAt e k)).toNat
    let nr := fld (q 1) 32 5 + 1
    let qoff := fld (q 1) 0 32
    let m := s.tlbFills c r.ctx pages
    let out := m.attend (Claims.streamOf r c) x qoff nr (fld (q 3) 0 32) ⟨planes.val, fld (q 2) 0 32, fld (q 2) 32 32, causal, bias⟩ mass rowinc
    let rc := toLe 8 (ofLe (m.homeRead x.entry.1 8) + 2 ^ (16 * x.g))
    let eb := m.kvRead (Claims.streamOf r c) (q 0) 64
    RidgeIssues (.attn h z e planes mass causal bias rowinc) h s c r → r.adm h = true → s.block? r.blk = some b → b.attn = none →
    q 0 % 64 = 0 → qoff % 64 = 0 → fld (q 1) 37 27 = 0 → fld (q 3) 32 32 = 0 → s.owes r.uid s.seq = false →
    s.attnCheck (Claims.streamOf r c) (q 0) qoff nr z.val mass = (.ok x, pages) →
    (∀ p ∈ pages, s.walkWaits c r.ctx p = false) → Claims.Clean s → m.kvEcc (Claims.streamOf r c) (x.reads (q 0) (fld (le64 eb 0x20) 0 57) (fld (le64 eb (0x10 + 8 * x.g)) 0 57) (causal || bias) mass) = none →
    (∀ j, j < x.pool.hd / 32 → b.accBusy (z.val + j) = false) → m.unitHeld x.entry.1 rc = false → s.outstanding r.uid = false →
    Claims.Home s x.entry.1 →
    s.teamOf r.uid = none →
    ∃ (s' : State) (b' : Block), exec (.attn h z e planes mass causal bias rowinc) s = .next s' ∧ Claims.Streams s c r s' ∧ s'.teams = s.teams ∧
      Claims.Acquired s s' c ∧ s'.parts = s.parts ∧ (∀ k, k ≠ c → s'.ridges.find k = s.ridges.find k) ∧
      (∀ k, k ≠ r.blk → s'.blocks.find k = s.blocks.find k) ∧
      (∀ q, s'.memGet q = Claims.laid s.memGet x.entry.1 rc q) ∧ s'.block? r.blk = some b' ∧
      b' = { b with accs := b'.accs, attn := some ⟨s.seq, x.entry.1, x.entry.2, x.g, m.massAdds (Claims.streamOf r c) x out.2, r.depth⟩ } ∧
      (∀ k, (k < z.val ∨ z.val + x.pool.hd / 32 ≤ k) → b'.acc k = b.acc k) ∧
      ∀ j i n, j < x.pool.hd / 32 → i < 32 → n < 32 → (b'.acc (z.val + j)).el.get 0 (32 * i + n) =
        BitVec.ofNat 32 ((out.1.getD i []).getD (32 * j + n) 0)) ∧
  ∀ (c : Nat) (r : Ridge) (b : Block) (a : AttnRun) (s : State), s.ridge? c = some r → s.block? r.blk = some b → b.attn = some a →
    (a.adds = [] → s.outstanding a.id = true → ∃ s', exec (.attnComplete c) s = .next s' ∧ s' = { s with blocks := s'.blocks } ∧
      ∀ k, s'.block? k = s.block? k) ∧
    (s.outstanding a.id = false → Claims.Roomy s → (∀ x ∈ a.adds, Claims.Home s x.1) → Claims.Home s a.entry →
    ∃ s', exec (.attnComplete c) s = .next s' ∧ s'.teams = s.teams ∧ s'.ridges = s.ridges ∧ s'.accs = s.accs ∧
      s'.block? r.blk = some { b with attn := none } ∧ (∀ k, k ≠ r.blk → s'.blocks.find k = s.blocks.find k) ∧
      ∀ q, s'.memGet q = (let m := Claims.added s.memGet a.adds
        Claims.laid m a.entry (toLe 8 ((Claims.num m a.entry 8 + 2 ^ 64 - 2 ^ (16 * a.slot)) % 2 ^ 64)) q))) ∧
  ((∀ (id : Nat) (o : Op) (e kr vr : Nat) (sp : MSpace) (k cls v : Nat) (s : State), s.op? id = some o →
    o.kind = .kvapp e kr vr sp 0 → Claims.Fresh s o → s.unitWord o.who .glob (e + 8) 8 true true = some (k, cls, v) →
    s.unitWaits (stackOf o.who.core) o.who .glob [e] = false →
    (claimable v = false → ∃ s', exec (.entryClaim id) s = .next s' ∧ s' = { s with ctxs := s'.ctxs }) ∧
    (claimable v = true → s.unitHeld k (toLe 8 (v + 2 ^ 34)) = false → Claims.Home s k →
    ∃ s', exec (.entryClaim id) s = .next s' ∧ s'.teams = s.teams ∧ s'.accs = s.accs ∧ s'.parts = s.parts ∧ s'.stks = s.stks ∧
      s'.op? id = some { o with kind := .kvapp e kr vr sp 1 } ∧
      ∀ q, s'.memGet q = Claims.laid s.memGet k (toLe 8 (v + 2 ^ 34)) q)) ∧
  (∀ (id : Nat) (o : Op) (e kr vr : Nat) (sp : MSpace) (take puts : List (Nat × List Byte)) (len : Nat × List Byte) (n k rk ke : Nat)
    (look : Looked) (place : Nat × List Byte → List (Nat × Nat × Nat)) (s : State),
    let all := take ++ puts ++ [len]
    let word := Claims.num s.memGet ke 8
    s.op? id = some o → o.kind = .kvapp e kr vr sp 1 → Claims.Fresh s o → Claims.Roomy s →
    s.append o e kr vr (mspace sp) = .ok take puts len n look →
    s.unitWaits (stackOf o.who.core) o.who .glob look.pages = false → Claims.WritesAt s o.who all place → Claims.WordAt s o.who (e + 8) ke →
    Claims.RingPlace s o.who o.ring o.slot k rk → Claims.Apart (ke, 8) (k, 16) → Claims.Apart (ke, 8) (rk, 64) →
    (∀ x ∈ all, ∀ p ∈ place x, Claims.Apart (p.1, p.2.2) (ke, 8) ∧ Claims.Apart (p.1, p.2.2) (k, 16) ∧ Claims.Apart (p.1, p.2.2) (rk, 64)) →
    ∃ s', exec (.kvappExecute id) s = .next s' ∧ s'.op? id = none ∧ s'.teams = s.teams ∧ s'.accs = Claims.finished s o ∧ s'.parts = s.parts ∧
      s'.stks = s.stks ∧
      Claims.Told s' (Claims.laid (Claims.laidAll s.memGet (all.map fun x => (place x, x.2))) ke
        (toLe 8 (word - fld word 34 1 * 2 ^ 34))) k rk 1 n 0 0) ∧
  (∀ (st : Nat) (r : StrikeRun) (ke : Nat) (s : State),
    let x := cmdOf r.buf
    let word := Claims.num s.memGet ke 8
    s.unitsRun (s.partOf st) = true → (s.stk st).strike = some r → r.todo = [] → s.outstanding r.id = false → Claims.Roomy s →
    r.phase = 0 → x.bad = false → s.unitWaits st r.who .glob [x.seq] = false → s.areaFail r.who .glob x.seq 64 true true = none →
    claimable (le64 (s.kvRead r.who (x.seq + 8) 8) 0) = true → Claims.WordAt s r.who (x.seq + 8) ke →
    ∃ m : State, exec (.strikeCommand st) s = .next (m.strikeGo st false 11).dbgSettle ∧ m.teams = s.teams ∧ m.accs = s.accs ∧
      m.parts = s.parts ∧ m.ops = s.ops ∧ (∀ j, j ≠ st → m.stk j = s.stk j) ∧
      m.stk st = { s.stk st with strike := some { r with phase := 1 } } ∧
      ∀ q, m.memGet q = Claims.laid s.memGet ke (toLe 8 (word + 2 ^ 33)) q) ∧
  (∀ (st : Nat) (r : StrikeRun) (take puts : List (Nat × List Byte)) (newLen : Nat × List Byte) (g len n bytes ke : Nat)
    (look : Looked) (place : Nat × List Byte → List (Nat × Nat × Nat)) (s : State),
    let x := cmdOf r.buf
    let word := Claims.num s.memGet ke 8
    let all := take ++ puts ++ [newLen]
    s.unitsRun (s.partOf st) = true → (s.stk st).strike = some r → r.todo = [] → s.outstanding r.id = false → Claims.Roomy s →
    r.phase = 1 → s.strikeWork r.who x = .go take puts newLen g len n bytes look →
    s.unitWaits st r.who .glob look.pages = false → Claims.WritesAt s r.who all place →
    Claims.WordAt s r.who (x.seq + 8) ke → (∀ x ∈ all, ∀ p ∈ place x, Claims.Apart (p.1, p.2.2) (ke, 8)) →
    ∃ s', exec (.strikeCommand st) s = .next s' ∧ s'.teams = s.teams ∧ s'.accs = s.accs ∧ s'.parts = s.parts ∧ s'.ops = s.ops ∧
      (∀ j, j ≠ st → s'.stk j = s.stk j) ∧
      s'.stk st = { s.stk st with strike := some { r with phase := 3, gen := g, len := len, kept := n, bytes := bytes } } ∧
      ∀ q, s'.memGet q = Claims.laid (Claims.laidAll s.memGet (all.map fun x => (place x, x.2))) ke (toLe 8 (word ^^^ 2 ^ 32)) q) ∧
  ∀ (st : Nat) (r : StrikeRun) (p : KvPool) (k rk ks kp : Nat) (place : Nat × List Byte → List (Nat × Nat × Nat)) (s : State),
    let x := cmdOf r.buf
    let b := s.kvRead r.who x.seq 64
    let word := le64 b 8
    let list := fld (le64 b (16 + 8 * r.gen)) 0 57
    let pa := fld (le64 b 0x20) 0 57
    let old := (List.range (kvPages r.len)).map fun j => le32 (s.kvRead r.who (list + 4 * j) 4) 0
    let words := ((List.range old.length).zip old).map fun g => (p.slot (p.claim + g.1), toLe 4 g.2)
    s.unitsRun (s.partOf st) = true → (s.stk st).strike = some r → r.todo = [] → s.outstanding r.id = false → Claims.Roomy s →
    r.phase = 3 → r.code = 0 → fld word (16 * r.gen) 16 = 0 → poolOf (s.kvRead r.who pa 64) = some p → p.give = p.claim →
    Claims.RecordAt s r.who x.seq ks → Claims.RecordAt s r.who pa kp → Claims.WordAt s r.who (x.seq + 8) (ks + 8) →
    Claims.WordAt s r.who (pa + 0x30) (kp + 0x30) → Claims.WordAt s r.who (pa + 0x28) (kp + 0x28) → Claims.WritesAt s r.who words place →
    Claims.RingPlace s r.who r.ring r.slot k rk → ([(k, 16), (rk, 64), (ks, 64), (kp, 64)] : List (Nat × Nat)).Pairwise Claims.Apart →
    (∀ x ∈ words, ∀ p ∈ place x, ∀ y ∈ ([(k, 16), (rk, 64), (ks, 64), (kp, 64)] : List (Nat × Nat)), Claims.Apart (p.1, p.2.2) y) →
    ∃ s', exec (.strikeRcDrain st) s = .next s' ∧ s'.teams = s.teams ∧ s'.accs = s.accs ∧ s'.parts = s.parts ∧ s'.ops = s.ops ∧
      (∀ j, j ≠ st → s'.stk j = s.stk j) ∧ s'.stk st = { s.stk st with strike := none } ∧
      s'.count .stkEvict st = (s.count .stkEvict st + 1) % 2 ^ 64 ∧
      Claims.Told s'
        (let taken := toLe 8 ((p.claim + old.length) % 2 ^ 64)
         let m := Claims.laidAll (Claims.laid s.memGet (kp + 0x30) taken) (words.map fun x => (place x, x.2))
         Claims.laid (Claims.laid m (kp + 0x28) taken) (ks + 8) (toLe 8 (word - fld word 33 1 * 2 ^ 33)))
        k rk r.kept r.bytes 0 r.fa)

/-! Watches and their records. -/

namespace Sys2Proof.Claims

/-- The slices but for their queues, which hold what on and ring say. -/
def QueuesAre (s' : State) (on ring : Nat → List TRec) : Prop := ∀ k, (s'.slice k).ondie = on k ∧ (s'.slice k).ring = ring k

/-- A record of a watch of a context. -/
def ofWatch (ctx n : Nat) (r : TRec) : Bool := r.ctx == ctx && r.watch == n

end Sys2Proof.Claims

/-- R305, R308, R326 to R328: WATCH sets a watch from a well-formed descriptor, with every pending bit clear, and answers 0, or 1 where its
number is in use, and acquires; UNWATCH removes a watch with its records and answers 0, or 3 where there is none, and the teams parked on
it go on with no record; WPARK takes the oldest records of a watch into the admitted lanes, clears their pending bits, and acquires, or
gives up once its deadline has passed.
Where removed records are dropped is the model's reading (log 38), and that reads in flight at the acquire of WATCH and WPARK fill the L1
no more (log 17). -/
def Obligations.WatchInstructions : Prop :=  (∀ (h : Hdr) (d b e : SReg) (x : Watch) (dps rs bs : List (Nat × Nat × Nat)) (s : State) (c slot : Nat) (t : Team),
    let addr := (t.rs b).toNat
    let n := (t.rs e).toNat
    let w := t.who c
    let ext := mergeRuns rs
    let bits := mergeRuns bs
    slot < 16 → TeamIssues (.watch h d b e) h s c slot t → t.adm h ≠ 0 → s.acquiring t.uid = false → s.forked t.uid s.seq = true →
    s.teamOf t.uid = some (tkey c slot, t) → n ≤ 255 → addr % 64 = 0 → s.area w .glob addr 64 true false = (dps, none) →
    s.badPieces dps = false → watchOf (s.getPieces dps) = some x → s.runsAt w x.base x.len true false = (rs, []) →
    s.runsAt w x.pend x.bitBytes true true = (bs, []) → ext.length ≤ 16 → (∀ q ∈ ext, s.local_ q.2.2 = true) →
    (∀ p ∈ ext, ∀ q ∈ bits, Claims.Apart (p.2.2, p.2.1) (q.2.2, q.2.1)) →
    ((s.watch? t.ctx n).isSome = true →
      ∃ s', exec (.watch h d b e) s = .next s' ∧ Claims.PortFrame s s' c slot ∧ (∀ q, s'.memGet q = s.memGet q) ∧ s'.ctxs = s.ctxs ∧
        Claims.Acquired s s' c ∧ Claims.Goes s c slot t (t.ws d 1) s') ∧
    (s.watch? t.ctx n = none → s.camUsed + ext.length ≤ 512 → (∀ q ∈ bits, ∀ i, i < q.2.1 → Claims.Home s (q.2.2 + i)) →
      ∃ s', exec (.watch h d b e) s = .next s' ∧ (∀ k, k ≠ tkey c slot → s'.teams.find k = s.teams.find k) ∧
        (∀ k, k < 16 → ∀ r l, s'.vreg c k r l = s.vreg c k r l) ∧ Claims.Acquired s s' c ∧ s'.parts = s.parts ∧ s'.blocks = s.blocks ∧
        s'.ors = s.ors ∧ Claims.Goes s c slot t (t.ws d 0) s' ∧
        (∀ k, k ≠ t.ctx → s'.ctx k = s.ctx k) ∧ s'.ctx t.ctx = { s.ctx t.ctx with watches := (s'.ctx t.ctx).watches } ∧
        (∀ k, k ≠ n → s'.watch? t.ctx k = s.watch? t.ctx k) ∧
        s'.watch? t.ctx n = some { x with ext := ext.map fun q => (q.1 / x.gran, q.2.1 / x.gran, q.2.2), bits := bits } ∧
        ∀ a, s'.memGet a = if ∃ q ∈ bits, q.2.2 ≤ a ∧ a < q.2.2 + q.2.1 then 0 else s.memGet a)) ∧
  (∀ (h : Hdr) (d b : SReg) (s : State) (c slot : Nat) (t : Team),
    let n := (t.rs b).toNat
    slot < 16 → TeamIssues (.unwatch h d b) h s c slot t → t.adm h ≠ 0 → s.acquiring t.uid = false → n ≤ 255 →
    (s.watch? t.ctx n = none →
      ∃ s', exec (.unwatch h d b) s = .next s' ∧ Claims.PortFrame s s' c slot ∧ (∀ q, s'.memGet q = s.memGet q) ∧ s'.ctxs = s.ctxs ∧
        s'.accs = s.accs ∧ Claims.Goes s c slot t (t.ws d 3) s') ∧
    ((s.watch? t.ctx n).isSome = true → (∀ q ∈ s.teams, q.2.ctx = t.ctx → q.2.parksOn ≠ some n) →
      ∃ s', exec (.unwatch h d b) s = .next s' ∧ Claims.PortFrame s s' c slot ∧ (∀ q, s'.memGet q = s.memGet q) ∧
        s'.accs = s.accs ∧ Claims.Goes s c slot t (t.ws d 0) s' ∧ (∀ k, k ≠ t.ctx → s'.ctx k = s.ctx k) ∧
        (∀ k, s'.watch? t.ctx k = if k = n then none else s.watch? t.ctx k) ∧
        Claims.QueuesAre s' (fun k => (s.slice k).ondie.filter fun r => !Claims.ofWatch t.ctx n r)
          (fun k => (s.slice k).ring.map fun r => if Claims.ofWatch t.ctx n r then { r with dead := true } else r) ∧
        s'.ors = (s.ors.filter fun o => !(o.ctx == t.ctx && o.watch == n)) ∧
        ∀ k p, (s.ctx t.ctx).pools.find k = some p → ∃ p', (s'.ctx t.ctx).pools.find k = some p' ∧
          p'.recs = p.recs.filter fun r => !r.isOf n) ∧
    ((s.watch? t.ctx n).isSome = true → (s.teams.map Prod.fst).Nodup → ∀ (k m : Nat) (nx : Nat × Bool) (u : Team) (h' : Hdr) (d' : VReg) (b' e' : SReg)
      (p' : PReg),
      s.teams.find k = some u → k ≠ tkey c slot → u.ctx = t.ctx → u.wait = some (.instr (.wpark h' d' b' e' p') m nx) → (u.rs b').toNat = n →
      ∃ s' u', exec (.unwatch h d b) s = .next s' ∧ s'.watch? t.ctx n = none ∧ s'.teams.find k = some u' ∧ u'.wait = none ∧
        (u'.pc, u'.atHdr) = s.nextOf (k / 16) u ∧ (∀ r, u'.rs r = u.rs r) ∧
        ∀ l, l < 1024 → inMask (u'.rp p') l =
          if p'.val ≠ 0 ∧ inMask (u.adm h') l = true then false else inMask (u.rp p') l)) ∧
  (∀ (h : Hdr) (d : VReg) (b e : SReg) (p : PReg) (w : Watch) (s : State) (c slot : Nat) (t : Team),
    let n := (t.rs b).toNat
    let ls := lanes (t.adm h)
    let rs := (s.parkRecords t.ctx n).take ls.length
    slot < 16 → s.stashOk = true → TeamIssues (.wpark h d b e p) h s c slot t → t.adm h ≠ 0 → n ≤ 255 → s.watch? t.ctx n = some w →
    w.park = true → s.acquiring t.uid = false → s.teamOf t.uid = some (tkey c slot, t) →
    s.parkFirst t.uid t.ctx n (if t.wait.isSome then t.waitSince else s.seq) = true → rs ≠ [] →
    s.headroom c t (slicesFor 2 (ls.take rs.length)) = true → (∀ r ∈ rs, r.2.depth ≤ w.dlim) →
    (∀ r ∈ rs, ∀ pa, w.pendByte r.2.index = some pa → s.local_ pa = true) →
    ∃ s' t', exec (.wpark h d b e p) s = .next s' ∧ s'.team? c slot = some t' ∧ (∀ k, k ≠ tkey c slot → s'.teams.find k = s.teams.find k) ∧
      Claims.Acquired s s' c ∧ s'.parts = s.parts ∧ s'.ctxs = s.ctxs ∧ s'.ors = s.ors ∧ t'.flagsDue = t.flagsDue ∧
      t' = { t with pc := (s.nextOf c t).1, atHdr := (s.nextOf c t).2, wait := none, vmap := t'.vmap, preg := t'.preg,
                    shadows := t'.shadows, depth := rs.foldl (fun a r => max a r.2.depth) 0 } ∧
      (∀ q l, l < 1024 → inMask (t'.rp q) l =
        if q = p ∧ p.val ≠ 0 ∧ inMask (t.adm h) l = true then (ls.take rs.length).contains l else inMask (t.rp q) l) ∧
      (∀ (j l k : Nat) (r : TRec), ls[j]? = some l → rs[j]? = some (k, r) →
        s'.vreg c slot d l = BitVec.ofNat 32 r.addr ∧ s'.vreg c slot (vregAt d 1) l = BitVec.ofNat 32 (r.addr / 2 ^ 32)) ∧
      (∀ q l, l < 1024 → ((ls.take rs.length).contains l = false ∨ (q ≠ d ∧ q ≠ vregAt d 1)) → s'.vreg c slot q l = s.vreg c slot q l) ∧
      Claims.QueuesAre s' (fun k => (s.slice k).ondie.filter fun r => !rs.contains (k, r)) (fun k => (s.slice k).ring) ∧
      (∀ r ∈ rs, ∀ pa, w.pendByte r.2.index = some pa → (s'.memGet pa).getLsbD (r.2.index % 8) = false) ∧
      ∀ a, (∀ r ∈ rs, w.pendByte r.2.index ≠ some a) → s'.memGet a = s.memGet a) ∧
  ∀ (h : Hdr) (d : VReg) (b e : SReg) (p : PReg) (w : Watch) (s : State) (c slot : Nat) (t : Team), slot < 16 →
    TeamIssues (.wpark h d b e p) h s c slot t → t.adm h ≠ 0 → (t.rs b).toNat ≤ 255 → s.watch? t.ctx (t.rs b).toNat = some w →
    w.park = true → s.acquiring t.uid = false →
    (s.parkRecords t.ctx (t.rs b).toNat = [] ∨
      s.parkFirst t.uid t.ctx (t.rs b).toNat (if t.wait.isSome then t.waitSince else s.seq) = false) → t.rs e ≠ 0 → (t.rs e).toNat ≤ s.tick.toNat →
    ∃ s', exec (.wpark h d b e p) s = .next s' ∧ Claims.PortFrame s s' c slot ∧ (∀ q, s'.memGet q = s.memGet q) ∧
      s'.accs = s.accs ∧ s'.ctxs = s.ctxs ∧ s'.slices = s.slices ∧ Claims.Goes s c slot t (t.wp p (t.adm h) 0) s'

/-- R312, R316 to R318, R344: the OR of a pending bit makes a record where the bit was clear and is counted as coalesced where it was set; a
spill ring gives its head back to the on-die queue; a record goes to its watch's pool, the first of its watch first. -/
def Obligations.TriggerRecords : Prop :=  (∀ (k : Nat) (o : PendOr) (w : Watch) (pa : Nat) (s : State), s.ors[k]? = some o → s.orBlocked o = false →
    s.watch? o.ctx o.watch = some w → w.pendByte o.index = some pa → s.local_ pa = true → pa < 2 ^ 56 →
    ((s.memGet pa).getLsbD (o.index % 8) = true → ∃ s', exec (.pendingBitOr k) s = .next s' ∧
      s' = { s with ors := s.ors.eraseIdx k, ctr := s'.ctr } ∧
      s'.count .coal (o.slice / 144) = (s.count .coal (o.slice / 144) + 1) % 2 ^ 64) ∧
    ((s.memGet pa).getLsbD (o.index % 8) = false → ∃ s', exec (.pendingBitOr k) s = .next s' ∧
      (let r : TRec := ⟨w.base + o.index * w.gran, o.index, o.src, o.ctx, o.depth, o.watch, s.seq, false⟩
       let far := (s.slice o.slice).spills o.ctx o.watch w.quota
       s'.ors = s.ors.eraseIdx k ∧ s'.teams = s.teams ∧ s'.ctxs = s.ctxs ∧ s'.accs = s.accs ∧
       Claims.QueuesAre s' (fun j => if j = o.slice ∧ far = false then (s.slice j).ondie ++ [r] else (s.slice j).ondie)
         (fun j => if j = o.slice ∧ far = true then (s.slice j).ring ++ [r] else (s.slice j).ring) ∧
       s'.count .fire (o.slice / 144) = (s.count .fire (o.slice / 144) + 1) % 2 ^ 64 ∧
       ∀ a, s'.memGet a = if a = pa then s.memGet pa ||| (1#8 <<< (o.index % 8)) else s.memGet a))) ∧
  (∀ (k : Nat) (r : TRec) (rest : List TRec) (s : State), (s.slice k).ring = r :: rest →
    ∃ s', exec (.spillRingDrain k) s = .next s' ∧ s' = { s with slices := s'.slices } ∧ (∀ j, j ≠ k → s'.slice j = s.slice j) ∧
      (r.dead = true ∨ s.watch? r.ctx r.watch = none → s'.slice k = { s.slice k with ring := rest }) ∧
      ∀ w, r.dead = false → s.watch? r.ctx r.watch = some w → (s.slice k).on r.ctx r.watch < w.quota → (s.slice k).ondie.length < 256 →
        s'.slice k = { s.slice k with ring := rest, ondie := (s.slice k).ondie ++ [r] }) ∧
  ∀ (k j : Nat) (r : TRec) (w : Watch) (p : Pool) (s : State), (s.slice k).ondie[j]? = some r →
    (∀ q ∈ (s.slice k).ondie.take j, ¬ (q.ctx = r.ctx ∧ q.watch = r.watch)) → s.watch? r.ctx r.watch = some w → w.park = false →
    (s.ctx r.ctx).pools.find w.pool = some p → p.listen = false → p.recs.length + 1 < p.hdr.width → p.recs.length < 65536 →
    ∃ s', exec (.recordHandoff k j) s = .next s' ∧ s' = { s with slices := s'.slices, ctxs := s'.ctxs } ∧
      (∀ i, i ≠ k → s'.slice i = s.slice i) ∧ s'.slice k = { s.slice k with ondie := (s.slice k).ondie.eraseIdx j } ∧
      (∀ c, c ≠ r.ctx → s'.ctx c = s.ctx c) ∧ s'.ctx r.ctx = { s.ctx r.ctx with pools := (s'.ctx r.ctx).pools } ∧
      ∀ i, (s'.ctx r.ctx).pools.find i = if i = w.pool then
        some { p with recs := p.recs ++ [⟨BitVec.ofNat 64 r.index, BitVec.ofNat 64 r.addr, r.depth, decide (w.dlim < r.depth),
          some (r.watch, r.index), k / 144, s.tick.toNat⟩] } else (s.ctx r.ctx).pools.find i

/-! Launches, special registers and work domains. -/

namespace Sys2Proof.Claims

/-- What a special register reads as in lane l of a team (R357). -/
def srValue (s : State) (c : Nat) (t : Team) (r : Sr) (l : Nat) : W64 :=
  match r with
  | .wid => t.wid.get 0 l
  | .arg => t.arg.get 0 l
  | .lane => BitVec.ofNat 64 l
  | .team => BitVec.ofNat 64 t.num
  | .depth => BitVec.ofNat 64 t.depth
  | .tick => s.tick
  | .cause => t.cause
  | .faddr => t.faddr
  | .fstat => t.fstat.zeroExtend 64
  | .check => if t.check then 1 else 0
  | .core => BitVec.ofNat 64 c
  | .ctx => BitVec.ofNat 64 t.ctx
  | .mflags => 0

/-- The work of a domain that arises on a stack (R353). -/
def workOf (s : State) (ctx dom stack : Nat) : Int := ((s.ctx ctx).embers.get Ember.zero (8 * dom + stack)).part

/-- Whether a line of code stays in the instruction cache of a core or a stack where teams of a header are launched (R342). -/
def keptLine (s : State) (part : Nat) (l : Launch) (ctx stack : Nat) (x : IcLine) : Bool :=
  !(l.icinv && s.partOf stack == part && x.ctx == ctx)

/-- Those caches of two states: where a header with ICINV is launched, a partition's have dropped the lines of the context (R342). -/
def CodeDropped (s s' : State) (part : Nat) (l : Launch) (ctx : Nat) : Prop :=
  (∀ c, s'.core c = { s.core c with icache := (s.core c).icache.filter (keptLine s part l ctx (stackOf c)) }) ∧
  ∀ k, s'.stk k = { s.stk k with icache := (s.stk k).icache.filter (keptLine s part l ctx k) }

/-- A gang of blocks of a launch that enters a pool (R356). -/
def gridGang (s : State) (p : Pool) (l : Launch) : Gang :=
  ⟨p.counts, s.seq, l, [], false, 0, l.blocks, some s.seq, s.tick.toNat, false⟩

end Sys2Proof.Claims

/-- R340, R344, R356: LAUNCH of a header that is well formed, fits and names a configured pool puts its grid behind the pool's gangs
and answers 0; else it launches nothing and answers why. The record form appends a record for each admitted lane to the pool. R357:
SRD reads a special register into a scalar or a vector register, on both kinds of stream; SWR writes sr.fstat. R353, R358: WKADD and
WKDONE change the work of a domain. -/
def Obligations.LaunchAndSpecialRegisters : Prop :=
  ((∀ (h : Hdr) (d b : SReg) (e : Option SReg) (s : State) (c slot : Nat) (t : Team),
    let sig := match e with | some r => (t.rs r).toNat | none => 0
    let m := if sig = 0 then s else s.tlbFills c t.ctx [sig]
    let addr := (t.rs b).toNat
    slot < 16 → TeamIssues (.launchGrid h d b e) h s c slot t → t.adm h ≠ 0 → s.acquiring t.uid = false → s.owes t.uid s.seq = false →
    (sig ≠ 0 → sig % 8 = 0 ∧ s.walkWaits c t.ctx sig = false ∧ ∃ k x, s.spanAt (t.who c) .glob 0 sig 8 true true = .ok k x) →
    (∀ n, (m.headerPool (t.who c) addr = none ∧ n = 1 ∨
        ∃ pool, m.headerPool (t.who c) addr = some pool ∧ ((s.ctx t.ctx).pools.find pool = none ∧ n = 3 ∨
          ((s.ctx t.ctx).pools.find pool).isSome = true ∧ (m.checkHeader (t.who c) addr true = .bad ∧ n = 1 ∨
            ∃ l, m.checkHeader (t.who c) addr true = .noFit l ∧ n = 2))) →
      ∃ s', exec (.launchGrid h d b e) s = .next s' ∧ Claims.PortFrame s s' c slot ∧ (∀ q, s'.memGet q = s.memGet q) ∧
        s'.ctxs = s.ctxs ∧ s'.accs = s.accs ∧ Claims.Goes s c slot t (t.ws d (BitVec.ofNat 64 n)) s') ∧
    ∀ (l : Launch) (p : Pool), m.headerPool (t.who c) addr = some l.pool → (s.ctx t.ctx).pools.find l.pool = some p →
      m.checkHeader (t.who c) addr true = .ok l →
      ∃ s', exec (.launchGrid h d b e) s = .next s' ∧ (∀ q, s'.memGet q = s.memGet q) ∧ s'.accs = s.accs ∧ s'.blocks = s.blocks ∧
        (∀ k, k ≠ tkey c slot → s'.teams.find k = s.teams.find k) ∧ (∀ k, k < 16 → ∀ r j, s'.vreg c k r j = s.vreg c k r j) ∧
        (∀ k, s'.core k = { s.core k with icache := (s'.core k).icache, vtb := (s'.core k).vtb }) ∧
        Claims.Goes s c slot t (t.ws d 0) s' ∧
        (∀ k, s'.launches.find k = if k = s.seq then some ⟨t.ctx, s.partOf (stackOf c), l.blocks, if sig = 0 then none else some sig, []⟩
          else s.launches.find k) ∧
        (∀ k, k ≠ t.ctx → s'.ctx k = s.ctx k) ∧ s'.ctx t.ctx = { s.ctx t.ctx with pools := (s'.ctx t.ctx).pools } ∧
        ∀ k, (s'.ctx t.ctx).pools.find k = if k = l.pool then some { p with
          gangs := p.gangs ++ [Claims.gridGang s p l], since := if p.gangs.isEmpty then s.tick.toNat else p.since }
          else (s.ctx t.ctx).pools.find k) ∧
  ∀ (h : Hdr) (a : SReg) (b : VReg) (p : Pool) (s : State) (c slot : Nat) (t : Team),
    let n := (t.rs a).toNat
    let ls := lanes (t.adm h)
    slot < 16 → TeamIssues (.launchRecord h a b) h s c slot t → t.adm h ≠ 0 → n ≤ 255 → (s.ctx t.ctx).pools.find n = some p →
    s.acquiring t.uid = false → s.owes t.uid s.seq = false → p.listen = false → p.recs.length + ls.length < p.hdr.width →
    p.recs.length + ls.length ≤ 65536 →
    ∃ s', exec (.launchRecord h a b) s = .next s' ∧ Claims.PortFrame s s' c slot ∧ (∀ q, s'.memGet q = s.memGet q) ∧
      s'.accs = s.accs ∧ Claims.Goes s c slot t t s' ∧ (∀ k, k ≠ t.ctx → s'.ctx k = s.ctx k) ∧
      s'.ctx t.ctx = { s.ctx t.ctx with pools := (s'.ctx t.ctx).pools } ∧
      ∀ k, (s'.ctx t.ctx).pools.find k = if k = n then some { p with recs := p.recs ++ ls.map fun l =>
          ⟨s.vreg c slot (vregAt b 1) l ++ s.vreg c slot b l, s.vreg c slot (vregAt b 3) l ++ s.vreg c slot (vregAt b 2) l,
            min 31 (t.depth + 1), false, none, stackOf c, s.tick.toNat⟩ }
        else (s.ctx t.ctx).pools.find k) ∧
  ((∀ (h : Hdr) (d : SReg) (high : Bool) (r : Sr) (l : Nat) (s : State) (c slot : Nat) (t : Team), slot < 16 → r ≠ .mflags →
    TeamIssues (.srd h (.s d) high r) h s c slot t → lowest (t.adm h) = some l →
    ∃ s' t', exec (.srd h (.s d) high r) s = .next s' ∧ s'.team? c slot = some t' ∧ TeamFrame s s' c slot ∧
      t' = { t with pc := (s.nextOf c t).1, atHdr := (s.nextOf c t).2, wait := none, sreg := t'.sreg,
                    shadows := t'.shadows } ∧
      (∀ q, t'.rs q = if q = d ∧ d.val ≠ 0 then Claims.srValue s c t r l else t.rs q) ∧
      t'.flagsDue = t.flagsDue ∧ ∀ q k, s'.vreg c slot q k = s.vreg c slot q k) ∧
  (∀ (h : Hdr) (d : VReg) (high : Bool) (r : Sr) (s : State) (c slot : Nat) (t : Team), slot < 16 → s.stashOk = true → r ≠ .mflags →
    TeamIssues (.srd h (.v d) high r) h s c slot t →
    let f := fun l => (Claims.srValue s c t r l).toNat / (if high then 2 ^ 32 else 1) % 2 ^ 32
    s.lacking c t 0 ((vecRun (.srd h (.v d) high r) (t.x s c slot h) s d 1 f fun _ => 0).needs 1 (passes (t.adm h))) = none →
    ∃ s' t', exec (.srd h (.v d) high r) s = .next s' ∧ s'.team? c slot = some t' ∧ TeamFrame s s' c slot ∧
      t' = { t with pc := (s.nextOf c t).1, atHdr := (s.nextOf c t).2, wait := none, vmap := t'.vmap,
                    shadows := t'.shadows } ∧ t'.flagsDue = t.flagsDue ∧
      (∀ l, l < 1024 → inMask (t.adm h) l = true →
        s'.vreg c slot d l = laneResult s (.srd h (.v d) high r) (t.x s c slot h) d 1 f (fun _ => 0) 0 l) ∧
      ∀ q l, l < 1024 → (inMask (t.adm h) l = false ∨ q ≠ d) → s'.vreg c slot q l = s.vreg c slot q l) ∧
  (∀ (h : Hdr) (d : SReg) (high : Bool) (r : Sr) (s : State) (c : Nat) (m : Ridge), srOnRidge r = true →
    RidgeIssues (.srd h (.s d) high r) h s c m → m.adm h = true →
    ∃ s' m', exec (.srd h (.s d) high r) s = .next s' ∧ s'.ridge? c = some m' ∧ RidgeFrame s s' c ∧
      m' = { m with pc := (s.nextOfM c m).1, atHdr := (s.nextOfM c m).2, wait := none, sreg := m'.sreg, shadows := m'.shadows } ∧
      ∀ q, m'.rs q = if q = d ∧ d.val ≠ 0 then (match r with
        | .tick => s.tick
        | .check => if m.check then 1 else 0
        | .core => BitVec.ofNat 64 c
        | .ctx => BitVec.ofNat 64 m.ctx
        | .mflags => (match s.block? m.blk with
          | some (b : Block) => BitVec.ofNat 64 ((List.range 8).foldl (fun a i => a + (if (b.acc i).use then 2 ^ i else 0) +
              (if (b.acc i).dirty then 2 ^ (8 + i) else 0) + (if (b.tile i).use then 2 ^ (16 + i) else 0) +
              (if (b.tile i).dirty then 2 ^ (24 + i) else 0)) 0)
          | none => 0)
        | _ => BitVec.ofNat 64 m.depth) else m.rs q) ∧
  (∀ (h : Hdr) (a : SReg) (s : State) (c slot : Nat) (t : Team), slot < 16 → TeamIssues (.swr h a) h s c slot t → t.adm h ≠ 0 →
    ∃ s', exec (.swr h a) s = .next s' ∧ TeamFrame s s' c slot ∧ (∀ q l, s'.vreg c slot q l = s.vreg c slot q l) ∧
      Claims.Goes s c slot t { t with fstat := (t.rs a).truncate 5 } s') ∧
  (∀ (h : Hdr) (a : SReg) (dom : Fin 16) (s : State) (c slot : Nat) (t : Team), slot < 16 → stackOf c < 8 →
    TeamIssues (.wkadd h a dom) h s c slot t → t.adm h ≠ 0 →
    ∃ s', exec (.wkadd h a dom) s = .next s' ∧ Claims.PortFrame s s' c slot ∧ (∀ q, s'.memGet q = s.memGet q) ∧
      Claims.Goes s c slot t t s' ∧ (∀ k, k ≠ t.ctx → s'.ctx k = s.ctx k) ∧
      (t.rs a = 0 → s'.ctx t.ctx = s.ctx t.ctx) ∧
      (t.rs a ≠ 0 → Claims.workOf s' t.ctx dom.val (stackOf c) =
        (BitVec.ofInt 64 (Claims.workOf s t.ctx dom.val (stackOf c) + (t.rs a).toInt)).toInt) ∧
      ∀ j k, k < 8 → (j ≠ dom.val ∨ k ≠ stackOf c) → Claims.workOf s' t.ctx j k = Claims.workOf s t.ctx j k) ∧
  ∀ (h : Hdr) (dom : Fin 16) (s : State) (c slot : Nat) (t : Team), slot < 16 → stackOf c < 8 → TeamIssues (.wkdone h dom) h s c slot t →
    t.adm h ≠ 0 → s.forked t.uid s.seq = true →
    ∃ s', exec (.wkdone h dom) s = .next s' ∧ Claims.PortFrame s s' c slot ∧ (∀ q, s'.memGet q = s.memGet q) ∧
      Claims.Goes s c slot t t s' ∧ (∀ k, k ≠ t.ctx → s'.ctx k = s.ctx k) ∧
      Claims.workOf s' t.ctx dom.val (stackOf c) =
        (BitVec.ofInt 64 (Claims.workOf s t.ctx dom.val (stackOf c) - popcount (t.adm h))).toInt ∧
      ∀ j k, k < 8 → (j ≠ dom.val ∨ k ≠ stackOf c) → Claims.workOf s' t.ctx j k = Claims.workOf s t.ctx j k)

/-! Pools, placement and what ends with launches. -/

/-- R345 to R348: a timer's lapse forms a team of the records collected; a gang that waits 1 µs is offered to every stack; a pool
that waits SCH_AGE rises one level; an old gang reserves the core it will fit, whose blocks are asked to go. R46, R50, R83, R346: a
decision places the first waiting gang that fits on the best core: its block and teams start at the entries of the header with the
launch arguments in s1 to s8, every other register 0, every lane active and its work identifier set, and the pool returns to its own
priority. Which engine may place which gang, and that a gang's domain is fixed as it forms, is the model's choice (log 30), as it is
that code is dropped as a gang of records forms where its header has ICINV (log 45); that reads in flight as a team starts fill the
L1 no more is its reading (log 17). -/
def Obligations.PoolsAndPlacement : Prop :=
  ((∀ (ctx n : Nat) (p : Pool) (r : PRec) (rest : List PRec) (s : State), (s.ctx ctx).pools.find n = some p → p.recs = r :: rest →
    r.tick + p.timer ≤ s.tick.toNat → p.listen = false → p.recs.length ≤ p.hdr.width →
    ∃ s', exec (.poolTimerLapse ctx n) s = .next s' ∧
      s' = { s with ctxs := s'.ctxs, seq := s.seq + 1, cores := s'.cores, stks := s'.stks } ∧
      Claims.CodeDropped s s' (s.ctx ctx).part p.hdr ctx ∧
      (∀ c, c ≠ ctx → s'.ctx c = s.ctx c) ∧ s'.ctx ctx = { s.ctx ctx with pools := (s'.ctx ctx).pools } ∧
      ∀ k, (s'.ctx ctx).pools.find k = if k = n then some { p with
          recs := [], since := if p.gangs.isEmpty then s.tick.toNat else p.since,
          gangs := p.gangs ++ [⟨p.counts, s.seq, p.hdr, p.recs.map fun r => { r with deep := r.deep || decide (p.dlim < r.depth) }, true, 0, 1,
            none, s.tick.toNat, false⟩] } else (s.ctx ctx).pools.find k) ∧
  (∀ (id : Nat) (s : State), ∃ s', exec (.remoteStackOffer id) s = .next s' ∧ s' = { s with ctxs := s'.ctxs } ∧
    ∀ ctx n p, (s.ctx ctx).pools.find n = some p → ∃ p', (s'.ctx ctx).pools.find n = some p' ∧ p' = { p with gangs := p'.gangs } ∧
      p'.gangs.length = p.gangs.length ∧ ∀ (k : Nat) (g : Gang), p.gangs[k]? = some g →
        p'.gangs[k]? = some (if g.id = id ∧ g.isRec = true ∧ g.tick + 1000 ≤ s.tick.toNat then { g with offer := true } else g)) ∧
  (∀ (ctx n : Nat) (p : Pool) (s : State), (s.ctx ctx).pools.find n = some p → p.gangs ≠ [] →
    p.since + max 1 (s.partn (s.ctx ctx).part).age.toNat * 1000 ≤ s.tick.toNat → p.prio + p.raised < p.ceil →
    ∃ s', exec (.priorityAging ctx n) s = .next s' ∧ s' = { s with ctxs := s'.ctxs } ∧ (∀ c, c ≠ ctx → s'.ctx c = s.ctx c) ∧
      ∀ k, (s'.ctx ctx).pools.find k = if k = n then some { p with
          raised := p.raised + 1, since := p.since + max 1 (s.partn (s.ctx ctx).part).age.toNat * 1000 }
        else (s.ctx ctx).pools.find k) ∧
  ∀ (st ctx c : Nat) (g : Gang) (s : State), st < s.stacksN → (s.partn (s.partOf st)).halting = none →
    (ctx, g) ∈ s.oldGangs (s.partOf st) st → s.reserveCore st g = some c →
    (∀ x ∈ s.oldGangs (s.partOf st) st, x = (ctx, g) ∨ s.reserveCore st x.2 = none ∨ g.tick < x.2.tick ∨
      (g.tick = x.2.tick ∧ g.id < x.2.id)) →
    (∀ x ∈ s.cores, stackOf x.1 = st → x.2.reserved = none) → (∀ x ∈ s.blocks, s.block? x.1 = some x.2) →
    ∃ s', exec (.gangReserve st) s = .next s' ∧ s' = { s with cores := s'.cores, blocks := s'.blocks, ctr := s'.ctr } ∧
      (∀ d, d ≠ c → s'.core d = s.core d) ∧ s'.core c = { s.core c with reserved := some g.id } ∧
      s'.count .gangres st = (s.count .gangres st + 1) % 2 ^ 64 ∧
      ∀ k b, s.block? k = some b → s'.block? k = some (if b.core = c ∧ b.req = none then
        { b with req := some s.tick.toNat } else b)) ∧
  (∀ (st level key ctx n core : Nat) (g : Gang) (p : Pool) (lack : List Nat) (s : State), st < s.stacksN →
    (s.partn (s.partOf st)).halting = none → s.waiting (s.partOf st) st = [(level, key, ctx, n, g)] →
    s.pickCore st ctx g = (lack, some core) → (∀ x ∈ s.cores, x.2.reserved = some g.id → x.1 = core) → (s.ctx ctx).pools.find n = some p → g.isRec = false → g.recs = [] → g.hdr.dict = 0 →
    g.dom = none → (s.freeSlots core).length ≥ g.hdr.teams → 1 ≤ g.hdr.words → g.hdr.words ≤ 32 →
    ∃ s' b, exec (.placementDecision st) s = .next s' ∧ (∀ q, s'.memGet q = s.memGet q) ∧ s'.ops = s.ops ∧
      s'.accs = (if g.hdr.teams = 0 then s.accs else Claims.noFills s core) ∧
      (∀ d, d ≠ core → s'.core d = s.core d) ∧
      s'.core core = { s.core core with reserved := none, l1 := (s'.core core).l1 } ∧
      s'.block? s.seq = some b ∧ b.ctx = ctx ∧ b.core = core ∧ b.hdr = { g.hdr with bank := 0 } ∧ b.ord = g.next ∧ b.launch = g.launch ∧
      b.tiles = [] ∧ b.accs = [] ∧ b.outl = [] ∧ b.mma = [] ∧ b.attn = none ∧
      (∀ k, k < g.hdr.nb → b.bar k = ⟨BitVec.ofNat 12 (g.hdr.teams + if g.hdr.mentry = 0 then 0 else 1), 0, 0, false, 0, 0, false⟩) ∧
      (g.hdr.mentry = 0 → s'.ridges = s.ridges) ∧
      (g.hdr.mentry ≠ 0 → ∃ r, s'.ridge? core = some r ∧ r.blk = s.seq ∧ r.ctx = ctx ∧ r.pc = g.hdr.mentry ∧ r.atHdr = true ∧
        r.ended = false ∧ r.rstk = [] ∧ (∀ x, r.rp x = decide (x.val = 0)) ∧
        ∀ x, r.rs x = if 1 ≤ x.val ∧ x.val ≤ 8 then g.hdr.args.getD (x.val - 1) 0 else 0) ∧
      (∀ (k slot : Nat), k < g.hdr.teams → (s.freeSlots core)[k]? = some slot → ∃ t, s'.team? core slot = some t ∧ t.blk = s.seq ∧
        t.ctx = ctx ∧ t.num = k ∧ t.pc = g.hdr.entry ∧ t.atHdr = true ∧ t.stk = [] ∧ t.depth = 0 ∧ t.fstat = 0 ∧ t.wait = none ∧
        t.frozen = none ∧ (∀ l, l < 1024 → inMask t.act l = decide (l < 32 * g.hdr.words)) ∧
        (∀ x, t.rs x = if 1 ≤ x.val ∧ x.val ≤ 8 then g.hdr.args.getD (x.val - 1) 0 else 0) ∧
        (∀ x l, l < 1024 → inMask (t.rp x) l = decide (x.val = 0)) ∧ (∀ x l, s'.vreg core slot x l = 0) ∧
        ∀ l, l < 32 * g.hdr.words → t.wid.get 0 l = widOf { g.hdr with bank := 0 } g.next k l) ∧
      (∀ k, k ∉ (s.freeSlots core).take g.hdr.teams → s'.team? core k = s.team? core k) ∧
      ∀ k, (s'.ctx ctx).pools.find k = if k = n then some (p.placed g s.tick.toNat) else (s.ctx ctx).pools.find k)

namespace Sys2Proof.Claims

/-- The walk of an address of a context ends in an entry, whatever another package holds, with no uncorrectable error about (R289, R394). -/
def Translates (s : State) (ctx a : Nat) (e : TlbE) : Prop := Clean s ∧ ∀ f, State.walk { s with free := f } ctx a = .ok e

/-- A 64-bit word at an address of a context lies at key k, with the permissions asked, and a unit that turns it into new does so at
once: in this package, with no spill ring to wait for and no earlier write of the operation id to wait behind (R296, R317). -/
def UnitWord (s : State) (ctx id a k new : Nat) (rd : Bool) : Prop :=
  ∃ e, Translates s ctx a e ∧ (rd = true → e.r = true) ∧ e.w = true ∧ e.phys a = k ∧ k < 2 ^ 56 ∧ s.local_ k = true ∧
    s.unitHeld k (toLe 8 new) = false ∧ s.behind id k 8 = false

/-- Where such a change must wait at the home, or goes to another package: an access of the unit is put in flight for it. -/
def UnitLater (s : State) (ctx id a k new : Nat) (rd : Bool) : Prop :=
  ∃ e, Translates s ctx a e ∧ (rd = true → e.r = true) ∧ e.w = true ∧ e.phys a = k ∧ k < 2 ^ 56 ∧
    (s.local_ k = true → s.unitHeld k (toLe 8 new) = true ∨ s.behind id k 8 = true)

/-- The access that is then put in flight: an addition to the word is an atomic, and a value put there a write. -/
def Later (s s' : State) (id k : Nat) (f : WordOp) : Prop :=
  ∃ q, s'.accs = s.accs ++ [q] ∧ q.kind = f.kind ∧ q.key = k ∧ q.len = 8 ∧ q.uid = id ∧ q.ofUnit = true ∧ q.stage = 0 ∧
    q.held = s.local_ k

/-- What stands in a word, and that less one (R335). -/
def wordHere (s : State) (k : Nat) : Nat := ofLe (s.homeRead k 8)
def less (n : Nat) : Nat := (n + 2 ^ 64 - 1) % 2 ^ 64

end Sys2Proof.Claims

/-- R353, R354, R356: a launch whose blocks have all ended decrements its signal as a release; a counted team counts off once its writes are
acknowledged; a domain that sums to zero over two passes confirms by adding 1 to its word.
When a domain confirms again is the model's reading (log 42). -/
def Obligations.EndsOfWork : Prop :=  (∀ (k : Nat) (r : LaunchRun) (s : State), s.launches.find k = some r → r.left = 0 → s.quiet r.uids = true →
    (s.partn r.part).halting = none →
    (r.signal = none → ∃ s', exec (.launchSignalDecrement k) s = .next s' ∧ s' = { s with launches := s'.launches } ∧
      ∀ j, s'.launches.find j = if j = k then none else s.launches.find j) ∧
    ∀ a key, r.signal = some a →
      (Claims.UnitWord s r.ctx 0 a key (Claims.less (Claims.wordHere s key)) true →
        ∃ s', exec (.launchSignalDecrement k) s = .next s' ∧ s'.teams = s.teams ∧ s'.accs = s.accs ∧ s'.parts = s.parts ∧
          (∀ j, s'.launches.find j = if j = k then none else s.launches.find j) ∧
          ∀ q, s'.memGet q = Claims.laid s.memGet key (toLe 8 (Claims.less (Claims.wordHere s key))) q) ∧
      (Claims.UnitLater s r.ctx 0 a key (Claims.less (Claims.wordHere s key)) true →
        ∃ s', exec (.launchSignalDecrement k) s = .next s' ∧ s'.teams = s.teams ∧ s'.parts = s.parts ∧
          (∀ j, s'.launches.find j = if j = k then none else s.launches.find j) ∧ Claims.Later s s' 0 key decrement ∧
          ∀ q, s'.memGet q = s.memGet q)) ∧
  (∀ (k : Nat) (e : Ending) (s : State), s.ending[k]? = some e → s.quiet [e.uid] = true → (s.partn (s.partOf e.stack)).halting = none →
    e.stack < 8 →
    ∃ s', exec (.countedTeamDone k) s = .next s' ∧ s' = { s with ctxs := s'.ctxs, ending := s.ending.eraseIdx k } ∧
      (∀ c, c ≠ e.ctx → s'.ctx c = s.ctx c) ∧
      Claims.workOf s' e.ctx e.dom e.stack = (BitVec.ofInt 64 (Claims.workOf s e.ctx e.dom e.stack - 1)).toInt ∧
      ∀ j i, i < 8 → (j ≠ e.dom ∨ i ≠ e.stack) → Claims.workOf s' e.ctx j i = Claims.workOf s e.ctx j i) ∧
  ∀ (ctx dom : Nat) (s : State),
    let x := s.ctx ctx
    let word := (x.qword.get 0 dom).toNat
    let addr := fld word 3 54 * 8
    let more (key : Nat) : Nat := (Claims.wordHere s key + 1) % 2 ^ 64
    dom < 16 → fld word 63 1 = 1 → x.domCount dom = 0 → (s.partn x.part).halting = none →
    (x.emPass.get 0 dom = 0 → ∃ s', exec (.embersTokenPass ctx dom) s = .next s' ∧ s' = { s with ctxs := s'.ctxs } ∧
      (∀ c, c ≠ ctx → s'.ctx c = s.ctx c) ∧ (s'.ctx ctx).emPass.get 0 dom = 1 ∧ (s'.ctx ctx).domCount dom = 0) ∧
    ∀ key, x.emPass.get 0 dom = 1 →
      (Claims.UnitWord s ctx 0 addr key (more key) false →
        ∃ s', exec (.embersTokenPass ctx dom) s = .next s' ∧ s'.teams = s.teams ∧ s'.accs = s.accs ∧ s'.parts = s.parts ∧
          (s'.ctx ctx).emPass.get 0 dom = 2 ∧ ∀ q, s'.memGet q = Claims.laid s.memGet key (toLe 8 (more key)) q) ∧
      (Claims.UnitLater s ctx 0 addr key (more key) false →
        ∃ s', exec (.embersTokenPass ctx dom) s = .next s' ∧ s'.teams = s.teams ∧ s'.parts = s.parts ∧
          (s'.ctx ctx).emPass.get 0 dom = 2 ∧ Claims.Later s s' 0 key (.add 1) ∧ ∀ q, s'.memGet q = s.memGet q)

/-! Time slices and saved blocks. -/

namespace Sys2Proof.Claims

/-- Each block stands once in the table of blocks. -/
def BlocksOnce (s : State) : Prop := ∀ x ∈ s.blocks, s.block? x.1 = some x.2

/-- A block once a pre-emption request has reached it (R373). -/
def called (s : State) (b : Block) : Block := if b.req = none then { b with req := some s.tick.toNat } else b

/-- The content of a vector register of a saved block's team in a lane (R99). -/
def savedLane (sv : Saved) (t : Team) (r : VReg) (l : Nat) : W32 :=
  if t.slice r.val (l / 32) = 0 then 0 else laneOf ((sv.slices.find (t.slice r.val (l / 32))).getD 0) (l % 32)

end Sys2Proof.Claims

/-- R349, R373, R376: at the end of a time slice the slice passes to another context with work, and a request reaches every resident
block; a party that has not frozen 200 µs after is frozen with its registers as they are. R99, R375, R377 to R380: a block whose
parties have frozen, with nothing of theirs in flight, leaves its core with its teams into the save area, or goes on where no record
fits; a good record comes back with its registers and its views, and a bad one is refused and counted. The bytes and lengths of a
save record's sections are free values, and when a party freezes is the model's reading (logs 8, 29). -/
def Obligations.SlicesFreezeAndSave : Prop :=
  ((∀ (part ctx next : Nat) (s : State), (s.partn part).holder = some ctx → next ≠ ctx → (s.ctx next).part = part → s.wants next = true →
    (s.ctx ctx).dbgHalt = false → (s.partn part).halting = none → (s.ctx ctx).sliceTick + (s.sliceLen part ctx).1 ≤ s.tick.toNat →
    Claims.BlocksOnce s →
    ∃ s', exec (.timeSliceEnd part ctx next) s = .next s' ∧ s' = { s with parts := s'.parts, ctxs := s'.ctxs, blocks := s'.blocks, ctr := s'.ctr } ∧
      (∀ p, p ≠ part → s'.partn p = s.partn p) ∧ s'.partn part = { s.partn part with holder := some next } ∧
      (∀ c, c ≠ next → s'.ctx c = s.ctx c) ∧ s'.ctx next = { s.ctx next with sliceTick := s.tick.toNat } ∧
      ((s.sliceLen part ctx).2 = true → s'.count .sliceClamp part = (s.count .sliceClamp part + 1) % 2 ^ 64) ∧
      ∀ k b, s.block? k = some b → s'.block? k = some (if b.ctx = ctx then Claims.called s b else b)) ∧
  (∀ (c slot : Nat) (t : Team) (s : State), s.team? c slot = some t → t.frozen = none → s.graceOver t.blk = true → s.pushed t = false →
    ∃ s', exec (.forcedFreeze (.team c slot)) s = .next s' ∧ s' = { s with teams := s'.teams, blocks := s'.blocks, net := s'.net } ∧
      (∀ k, k ≠ tkey c slot → s'.teams.find k = s.teams.find k) ∧
      s'.team? c slot = some { t with frozen := some ⟨none, BitVec.allOnes 8, true⟩, wait := keptWait t.wait, slip := none }) ∧
  (∀ (c slot : Nat) (t : Team) (s : State), s.team? c slot = some t → (s.graceOver t.blk = false ∨ s.pushed t = true) →
    exec (.forcedFreeze (.team c slot)) s = .next s) ∧
  ∀ (c : Nat) (r : Ridge) (s : State), s.ridge? c = some r → r.frozen = none → r.ended = false → s.graceOver r.blk = true →
    ∃ s', exec (.forcedFreeze (.ridge c)) s = .next s' ∧ s' = { s with ridges := s'.ridges, blocks := s'.blocks, net := s'.net } ∧
      (∀ k, k ≠ c → s'.ridges.find k = s.ridges.find k) ∧
      s'.ridge? c = some { r with frozen := some ⟨none, BitVec.allOnes 8, true⟩, wait := keptWait r.wait, slip := none }) ∧
  ((∀ (core uid : Nat) (b : Block) (s : State), s.block? uid = some b → b.core = core → b.req ≠ none → s.allFrozen uid = true →
    s.drained uid = true → (s.partn (s.partOf (stackOf core))).halting = none → s.saveEcc uid b = false →
    (s.savePlace b.ctx s.recordLen = none → ∃ s', exec (.blockSave core uid) s = .next s' ∧
      s' = { s with teams := s'.teams, ridges := s'.ridges, ctr := s'.ctr } ∧
      s'.count .savFull b.ctx = (s.count .savFull b.ctx + 1) % 2 ^ 64 ∧
      (∀ k, s'.teams.find k = (s.teams.find k).map fun t => if t.blk = uid then { t with frozen := none } else t) ∧
      ∀ k, s'.ridges.find k = (s.ridges.find k).map fun r => if r.blk = uid then { r with frozen := none } else r) ∧
    ∀ off, s.savePlace b.ctx s.recordLen = some off →
      let place := (s.area (unitWho b.ctx) .glob ((s.ctx b.ctx).savBase + off) s.recordLen false true).1
      ∃ (s' : State) (sv : Saved), exec (.blockSave core uid) s = .next s' ∧ s'.ops = s.ops ∧
      ((∀ p ∈ place, Claims.Home s p.1) → s'.accs = s.accs) ∧
      (∀ q, q < 2 ^ 56 → s'.memGet q = Claims.laidHere s s.memGet place
        (recordHead true (s.blockTeams uid).length s.recordLen b.hdr.addr b.ord sv.slices.length (crcStd s.recordBody) s.tick.toNat
          (s.blockRidge uid).isSome (s.anyForced uid) ++ s.recordBody) q) ∧ s'.block? uid = none ∧ (∀ k, k ≠ uid → s'.block? k = s.block? k) ∧
      (∀ x ∈ s'.teams, ∃ y ∈ s.teams, y.2.blk ≠ uid ∧ x = (y.1, { y.2 with yield := x.2.yield })) ∧
      (∀ y ∈ s.teams, y.2.blk ≠ uid → ∃ x ∈ s'.teams, x = (y.1, { y.2 with yield := x.2.yield })) ∧ (∀ x ∈ s'.ridges, x.2.blk ≠ uid) ∧
      (s'.ctx b.ctx).saved.getLast? = some sv ∧ sv.off = off ∧ sv.addr = (s.ctx b.ctx).savBase + off ∧ sv.len = s.recordLen ∧
      sv.block = b.toSave (s.anyForced uid) ∧ sv.teams = (s.blockTeams uid).map (fun t => t.2.toSave) ∧ sv.forced = s.anyForced uid ∧
      (∀ t ∈ sv.teams, ∀ e ∈ t.vmap, e.2 ≠ 0 → sv.slices.find e.2 = some ((s.core core).data e.2))) ∧
  (∀ (ctx k core : Nat) (sv : Saved) (s : State), (s.ctx ctx).saved[k]? = some sv → s.partOf (stackOf core) = (s.ctx ctx).part →
    core < s.coresN → (s.partn (s.ctx ctx).part).halting = none → (s.ctx ctx).dbgHalt = false → s.recordEcc ctx core sv = none →
    s.recordGood ctx sv = false →
    ∃ s', exec (.blockRestore ctx k core) s = .next s' ∧ s'.teams = s.teams ∧ s'.ridges = s.ridges ∧ s'.blocks = s.blocks ∧
      (∀ c, c ≠ ctx → s'.ctx c = s.ctx c) ∧ s'.ctx ctx = { s.ctx ctx with saved := (s.ctx ctx).saved.eraseIdx k } ∧
      s'.count .savErr ctx = (s.count .savErr ctx + 1) % 2 ^ 64) ∧
  ∀ (ctx k core : Nat) (sv : Saved) (s : State), (s.ctx ctx).saved[k]? = some sv → s.partOf (stackOf core) = (s.ctx ctx).part →
    core < s.coresN → (s.partn (s.ctx ctx).part).halting = none → (s.ctx ctx).dbgHalt = false → s.recordEcc ctx core sv = none →
    s.recordGood ctx sv = true → s.stashOk = true →
    s.fits core ctx sv.block.hdr sv.teams.length 0 = true → sv.block.hdr.dict = 0 → sv.teams.length ≤ (s.freeSlots core).length →
    (∀ t ∈ sv.teams, (t.view.map Prod.fst).Nodup ∧ t.vmap.Nodup ∧ (t.vmap.map Prod.fst).Nodup) → (sv.slices.map Prod.fst).Nodup → (∀ x ∈ sv.slices, x.1 ≠ 0) →
    (∀ x ∈ sv.cells, 2 ^ 90 ≤ x.1) → (sv.cells.map Prod.fst).Nodup →
    ∃ s', exec (.blockRestore ctx k core) s = .next s' ∧ s'.ops = s.ops ∧
      (Claims.Clean s → (∀ f e, State.walk { s with free := f } ctx sv.addr = .ok e → Claims.Home s (e.phys sv.addr)) → s'.accs = s.accs) ∧
      (∀ c, c ≠ ctx → s'.ctx c = s.ctx c) ∧ s'.ctx ctx = { s.ctx ctx with saved := (s.ctx ctx).saved.eraseIdx k } ∧
      (∀ (n slot : Nat) (t : Team), sv.teams[n]? = some t → (s.freeSlots core)[n]? = some slot →
        (∃ t', s'.team? core slot = some t' ∧
          t' = { t with hdr := { sv.block.hdr with bank := 0 }, frozen := none, vmap := t'.vmap, view := t'.view } ∧
          ∀ w, ∃ x, t'.viewOf w = { t.viewOf w with entry := x }) ∧
        ∀ r l, l < 1024 → s'.vreg core slot r l = Claims.savedLane sv t r l) ∧
      ∀ x ∈ sv.cells, s'.memGet x.1 = x.2)

/-! Halts, resets and translation. -/

/-- R368 to R372, R384, R390, R399: the partition stops; each unit writes its stop record once, and DONE follows the last; a save that does not
end, a hot die or a cut-off partition raises WATCHDOG; the reset of a partition destroys its contexts and clears its halt.
What a reset keeps, and when the lines rise, is the model's reading (log 34). -/
def Obligations.HaltAndReset : Prop :=  (∀ (part : Nat) (hl : Halting) (s : State), (s.partn part).halting = some hl → hl.stopped = false →
    ∃ s', exec (.partitionHalt part) s = .next s' ∧ s' = { s with parts := s'.parts } ∧ (∀ p, p ≠ part → s'.partn p = s.partn p) ∧
      s'.partn part = { s.partn part with halting := some { hl with stopped := true, tick := s.tick } }) ∧
  (∀ (part unit : Nat) (hl : Halting) (s : State), (s.partn part).halting = some hl → hl.stopped = true → (s.partn part).done = false →
    (s.recordArea part = false → ∃ s', exec (.stopRecordWrite part unit) s = .next s' ∧ (∀ q, s'.memGet q = s.memGet q) ∧
      s'.teams = s.teams ∧ (∀ p, p ≠ part → s'.partn p = s.partn p) ∧ s'.partn part = { s.partn part with done := true }) ∧
    (s.recordArea part = true → hl.written.contains unit = false → (s.unitsOf part).contains unit = true →
      let a := (s.partn part).recBase + 64 * unit
      let fault := hl.faults.find? fun f => f.unit == unit
      let record := s.stopRecord none unit (s.partn part).halts.toNat hl.tick fault
      s.local_ a = true → a < 2 ^ 56 → s.unitHeld a record = false → s.behind 0 a 64 = false →
      ∃ s', exec (.stopRecordWrite part unit) s = .next s' ∧ s'.teams = s.teams ∧ s'.accs = s.accs ∧
        (∀ p, p ≠ part → s'.partn p = s.partn p) ∧
        s'.partn part = { s.partn part with
          halting := some { hl with written := unit :: hl.written },
          done := ((s.unitsOf part).all fun u => (unit :: hl.written).contains u) && !s.recording none part } ∧
        ofLe (s'.memRead a 4) = (s.partn part).halts.toNat ∧ ofLe (s'.memRead (a + 4) 2) = unit ∧
        ofLe (s'.memRead (a + 6) 1) = (match fault with | some f => f.cause.code * 2 + (if f.first then 1 else 0) | none => 0) ∧
        ofLe (s'.memRead (a + 7) 1) = 1 ∧ ofLe (s'.memRead (a + 8) 8) = hl.tick.toNat ∧
        ∀ q, s'.memGet q = Claims.laid s.memGet a record q) ∧
    (s.recordArea part = true → hl.written.contains unit = true → (s.unitsOf part).contains unit = true →
      ∃ s', exec (.stopRecordWrite part unit) s = .next s' ∧ (∀ q, s'.memGet q = s.memGet q) ∧ s'.teams = s.teams ∧ s'.accs = s.accs ∧
        s'.partn part = { s.partn part with done := ((s.unitsOf part).all fun u => hl.written.contains u) && !s.recording none part })) ∧
  (∀ (part unit : Nat) (s : State), (s.unitsOf part).contains unit = true →
    (616 ≤ unit ∧ unit < 620 ∧ s.saveLate (unit - 616) = true ∨ (s.stacksOf part).any s.dieHot = true ∨ s.cutOff part = true) →
    (s.partn part).halting = none →
    ∃ s', exec (.watchdog part unit) s = .next s' ∧ s' = { s with parts := s'.parts } ∧ (∀ p, p ≠ part → s'.partn p = s.partn p) ∧
      s'.partn part = { s.partn part with halts := (s.partn part).halts + 1, cause := 0x22,
                                          halting := some ⟨[⟨unit, .watchdog, 0, 0, 0, true⟩], false, [], s.tick, s.cycle⟩ }) ∧
  ∀ (part : Nat) (s : State), (s.partn part).done = true →
    ∃ s', exec (.partitionReset part) s = .next s' ∧ (∀ q, s'.memGet q = s.memGet q) ∧ (∀ p, p ≠ part → s'.partn p = s.partn p) ∧
      s'.partn part = { s.partn part with cause := 0, done := false, halting := none, queues := [], lanes := [], lastQ := 127, todo := [],
                                          tickets := [], holder := none } ∧
      (∀ c x, (c, x) ∈ s.ctxs → x.part = part → s'.ctx c = Ctx.zero ∧ (∀ t ∈ s'.teams, t.2.ctx ≠ c) ∧ (∀ r ∈ s'.ridges, r.2.ctx ≠ c) ∧
        (∀ b ∈ s'.blocks, b.2.ctx ≠ c) ∧ (∀ a ∈ s'.accs, a.ctx ≠ c) ∧ ∀ l ∈ s'.launches, l.2.ctx ≠ c) ∧
      ∀ c, (∀ x, (c, x) ∈ s.ctxs → x.part ≠ part) → s'.ctx c = s.ctx c ∧ ∀ t ∈ s.teams, t.2.ctx = c → t ∈ s'.teams

/-- R376, R382: a debugger halts a context and lets it go on; slices and grace periods do not run between. R171: CAMP_LEND changes the four cores
of an idle cluster. R96, R290, R291: MEM_TLBINV drops the entries of a context that meet its span, kills the load entries of its teams in
one event of each core, and is over once the accesses that used a dropped translation, and the writes that units have translated and yet to
make, are performed.
When BUSY falls is the model's reading (log 35). -/
def Obligations.DebuggerLendAndTranslation : Prop :=  (∀ (ctx : Nat) (quiesce : Bool) (s : State), (s.ctx ctx).dbgHalt = false → (s.ctxs.map Prod.fst).Nodup →
    s.recording (some ctx) 0 = false → (quiesce = true → s.engaged ctx = false) →
    (s.recordArea (s.ctx ctx).part = false → ∃ s', exec (.debuggerHalt ctx quiesce) s = .next s' ∧ s'.teams = s.teams ∧ s'.ridges = s.ridges ∧ s'.accs = s.accs ∧ s'.ops = s.ops ∧
      (∀ q, s'.memGet q = s.memGet q) ∧ (∀ c, c ≠ ctx → (s'.ctx c).dbgHalt = (s.ctx c).dbgHalt) ∧
      s'.ctx ctx = { s.ctx ctx with dbgHalt := true, dbgQuiesce := quiesce, dbgFrozen := true, dbgTick := s.tick.toNat } ∧
      ∀ core, s'.mayIssue core ctx = false) ∧
    ∀ core,
      let a := (s.partn (s.ctx ctx).part).recBase + 64 * core
      let record := s.stopRecord (some ctx) core (s.partn (s.ctx ctx).part).halts.toNat s.tick none
      s.recordArea (s.ctx ctx).part = true → s.coresOf ctx = [core] → s.enginesOf ctx = [] → core < 576 →
      s.local_ a = true → a < 2 ^ 56 → s.unitHeld a record = false → s.behind 0 a 64 = false →
      ∃ s', exec (.debuggerHalt ctx quiesce) s = .next s' ∧ s'.teams = s.teams ∧ s'.ridges = s.ridges ∧ s'.accs = s.accs ∧
        s'.ctx ctx = { s.ctx ctx with dbgHalt := true, dbgQuiesce := quiesce, dbgFrozen := true, dbgTick := s.tick.toNat } ∧
        ofLe (s'.memRead (a + 4) 2) = core ∧ ofLe (s'.memRead (a + 7) 1) = 2 ∧ ofLe (s'.memRead (a + 8) 8) = s.tick.toNat ∧
        ∀ q, s'.memGet q = Claims.laid s.memGet a record q) ∧
  (∀ (ctx : Nat) (s : State), (s.ctx ctx).dbgHalt = true →
    ∃ s', exec (.debuggerResume ctx) s = .next s' ∧ s' = { s with blocks := s'.blocks, ops := s'.ops, ctxs := s'.ctxs } ∧
      (∀ c, c ≠ ctx → s'.ctx c = s.ctx c) ∧
      s'.ctx ctx = { s.ctx ctx with dbgHalt := false, dbgFrozen := false, 
                                      sliceTick := (s.ctx ctx).sliceTick + (s.tick.toNat - max (s.ctx ctx).sliceTick (s.ctx ctx).dbgTick) } ∧
      ∀ k b, s.block? k = some b → s'.block? k = some (if b.ctx = ctx then { b with req := b.req.map fun t =>
        t + (s.tick.toNat - max t (s.ctx ctx).dbgTick) } else b)) ∧
  (∀ (core n : Nat) (s : State), n ≤ 128 → core < s.coresN →
    (∀ d ∈ clusterCores core, (∀ t ∈ s.teams, t.1 / 16 ≠ d) ∧ ∀ r ∈ s.ridges, r.1 = d → r.2.ended = true) →
    ∃ s', exec (.campLendWrite core n) s = .next s' ∧ s' = { s with cores := s'.cores } ∧
      ∀ d, s'.core d = if d ∈ clusterCores core then { s.core d with lend := n } else s.core d) ∧
  (∀ (ctx : Nat) (v : W64) (s : State), (s.ctx ctx).tlbBusy = none →
    let all := v.getLsbD 7
    let lo := if all then 0 else (tlbSpan v).1
    let len := if all then 2 ^ 57 else (tlbSpan v).2
    let drops (e : TlbE) : Prop := e.ctx = ctx ∧ lo < e.va + 2 ^ e.lg ∧ e.va < lo + len
    ∃ s' ids, exec (if all then .tlbinvAll ctx v else .tlbinvSpan ctx v) s = .next s' ∧ s'.teams = s.teams ∧ s'.accs = s.accs ∧
      (∀ q, s'.memGet q = s.memGet q) ∧ (∀ c, c ≠ ctx → s'.ctx c = s.ctx c) ∧
      s'.ctx ctx = { s.ctx ctx with tlbReg := v &&& 0x01FFFFFFFFFF00E0, tlbBusy := some ids } ∧
      (∀ a ∈ s.accs, a.ctx = ctx → a.global = true → a.stage = 0 →
        (a.ofUnit = true ∨ (lo ≤ a.va ∧ a.va < lo + len) ∨ ∃ d e, e ∈ (s.core d).tlb ∧ drops e ∧ e.va ≤ a.va ∧ a.va < e.va + 2 ^ e.lg) →
        a.id ∈ ids) ∧
      (∀ d, s'.core d = { s.core d with tlb := (s'.core d).tlb, vtb := (s'.core d).vtb }) ∧
      (∀ d e, e ∈ (s'.core d).tlb ↔ e ∈ (s.core d).tlb ∧ ¬ drops e) ∧
      ∀ d k t, k < 16 → (tkey d k, t) ∈ s.teams → t.ctx = ctx → (∀ e ∈ (s'.core d).vtb, isLoadKey e.key k = false) ∧
        s'.count .vtbKill d = (s.count .vtbKill d + 1) % 2 ^ 64) ∧
  ∀ (ctx : Nat) (ids : List Nat) (s : State), (s.ctx ctx).tlbBusy = some ids →
    (∀ a ∈ s.accs, a.id ∈ ids → a.stage ≠ 0) → (∀ o ∈ s.ops, o.id ∈ ids → o.todo = [] ∧ s.outstanding o.id = false) →
    (∀ k ∈ s.stks, ∀ r, k.2.strike = some r → r.id ∈ ids → r.todo = [] ∧ s.outstanding r.id = false) →
    ∃ s', exec (.tlbinvComplete ctx) s = .next s' ∧ s' = { s with ctxs := s'.ctxs } ∧ (∀ c, c ≠ ctx → s'.ctx c = s.ctx c) ∧
      s'.ctx ctx = { s.ctx ctx with tlbBusy := none }

/-! Host queues and packets. -/

namespace Sys2Proof.Claims

/-- A well-formed packet of a type executes at a queue in the present step (R333, R335, R337). -/
def Executes (s : State) (part q : Nat) (pkt : List Nat) (k : Pkt) : Prop :=
  (s.partn part).halting = none ∧ q ∈ s.stepQueues part ∧ s.packetAt part q = some pkt ∧ pktType (some pkt) = k ∧ pktBad (some pkt) = false ∧
  ((s.queue part q).wr - (s.queue part q).rd).toNat ≤ 2 ^ (s.queue part q).logn

/-- The queue of an executed packet after it: RD is one further, EN as given, and the lane is free where nothing is pending or EN is 0;
no other queue and no other partition changes, but that this queue is over with the step. -/
def Advanced (s s' : State) (part q : Nat) (en : Bool) : Prop :=
  (∃ o, s'.queue part q = { s.queue part q with rd := (s.queue part q).rd + 1, waited := false, open_ := o, en := en }) ∧
  (∀ j, j ≠ q → s'.queue part j = s.queue part j) ∧ (∀ p, p ≠ part → s'.partn p = s.partn p) ∧
  s'.partn part = { s.partn part with queues := (s'.partn part).queues, lanes := (s'.partn part).lanes, todo := (s'.partn part).todo,
                                      tickets := (s'.partn part).tickets } ∧
  q ∉ (s'.partn part).todo ∧
  (en = false ∨ (s.queue part q).rd + 1 = (s.queue part q).wr → (s'.partn part).laneOf q = none)

end Sys2Proof.Claims

/-- R335, R337 to R339, R343: what each packet does as it executes: NOP nothing; HALTQ ends EN; PREEMPT asks every resident block of its context
and is complete once they are gone; SETSIG stores its value; WAITSIG goes on where its condition holds, else waits, and parks the queue on an
unmapped page; WATCH and UNWATCH write their status; POOLCFG configures a pool; LAUNCH puts a grid into its pool; COPYH puts a copy in
flight. R335, R383: PREEMPT is complete, and its signal decremented as a release, once its blocks are gone and what their parties wrote is
acknowledged.
Where an unassigned packet errs, and that a copy is one step, are the model's choices (logs 18, 39). -/
def Obligations.PacketsAndTickets : Prop :=
  (∀ (part q : Nat) (pkt : List Nat) (s : State),
    let x := s.queue part q
    let w (i : Nat) : Nat := pktWord (some pkt) i
    (Claims.Executes s part q pkt .nop → ∃ s', exec (.nopPacket part q) s = .next s' ∧ s' = { s with parts := s'.parts } ∧
      Claims.Advanced s s' part q x.en) ∧
    (Claims.Executes s part q pkt .haltq → ∃ s', exec (.haltq part q) s = .next s' ∧ s' = { s with parts := s'.parts } ∧
      Claims.Advanced s s' part q false) ∧
    (Claims.Executes s part q pkt .preempt → s.signalOk x.ctx (w 1) = true → Claims.BlocksOnce s →
      ∃ s', exec (.preempt part q) s = .next s' ∧ s' = { s with parts := s'.parts, blocks := s'.blocks, seq := s.seq + 1 } ∧
        Claims.Advanced s s' part q x.en ∧
        (s'.partn part).tickets.find s.seq = some (.preempt x.ctx (s.residents x.ctx) ((s.residents x.ctx).flatMap s.blockPast)
          (if w 1 = 0 then none else some (w 1))) ∧
        ∀ k b, s.block? k = some b → s'.block? k = some (if b.ctx = x.ctx then Claims.called s b else b)) ∧
    (∀ key, Claims.Executes s part q pkt .setsig → s.wordOk x.ctx (w 1) false true = true →
      (Claims.UnitWord s x.ctx s.seq (w 1) key (w 2 % 2 ^ 64) false →
        ∃ s', exec (.setsig part q) s = .next s' ∧ s'.teams = s.teams ∧ s'.blocks = s.blocks ∧ s'.ctxs = s.ctxs ∧ s'.accs = s.accs ∧
          Claims.Advanced s s' part q x.en ∧ ∀ a, s'.memGet a = Claims.laid s.memGet key (toLe 8 (w 2 % 2 ^ 64)) a) ∧
      (Claims.UnitLater s x.ctx s.seq (w 1) key (w 2 % 2 ^ 64) false →
        ∃ s', exec (.setsig part q) s = .next s' ∧ s'.teams = s.teams ∧ s'.blocks = s.blocks ∧ s'.ctxs = s.ctxs ∧
          Claims.Advanced s s' part q x.en ∧ s.seq ∈ (s'.queue part q).open_ ∧ Claims.Later s s' s.seq key (.put (w 2)) ∧
          ∀ a, s'.memGet a = s.memGet a)) ∧
    (Claims.Executes s part q pkt .waitsig →
      (s.sigOf x.ctx (some pkt) = .holds → ∃ s', exec (.waitsig part q) s = .next s' ∧ s' = { s with parts := s'.parts } ∧
        Claims.Advanced s s' part q x.en) ∧
      (s.sigOf x.ctx (some pkt) = .no → ∃ s', exec (.waitsig part q) s = .next s' ∧ s' = { s with parts := s'.parts } ∧
        (∀ j, j ≠ q → s'.queue part j = s.queue part j) ∧ s'.queue part q = { x with waited := true }) ∧
      (s.sigOf x.ctx (some pkt) = .unmapped → ∃ s', exec (.waitsig part q) s = .next s' ∧ s' = { s with parts := s'.parts } ∧
        (∀ j, j ≠ q → s'.queue part j = s.queue part j) ∧ s'.queue part q = { x with parked := true } ∧
        (s'.partn part).laneOf q = none)) ∧
    (∀ n key m, Claims.Executes s part q pkt .unwatch → s.wordOk x.ctx (w 2) false true = true →
      s.unsetWatch x.ctx (w 1) = .status m n → Claims.UnitWord m x.ctx m.seq (w 2) key n false →
      ∃ s', exec (.unwatchPacket part q) s = .next s' ∧ s'.teams = m.teams ∧ s'.ctxs = m.ctxs ∧ s'.accs = m.accs ∧
        Claims.Advanced s s' part q x.en ∧ s'.watch? x.ctx (w 1) = none ∧ n = (if (s.watch? x.ctx (w 1)).isSome then 0 else 3) ∧
        ∀ a, s'.memGet a = Claims.laid m.memGet key (toLe 8 n) a) ∧
    (∀ n key m, Claims.Executes s part q pkt .watch → s.wordOk x.ctx (w 3) false true = true →
      s.setWatch (unitWho x.ctx) (w 1) (w 2) = .status m n → Claims.UnitWord m x.ctx m.seq (w 3) key n false →
      ∃ s', exec (.watchPacket part q) s = .next s' ∧ s'.teams = s.teams ∧ s'.ctxs = m.ctxs ∧ s'.accs = m.accs ∧
        Claims.Advanced s s' part q x.en ∧ (n = 0 → (s'.watch? x.ctx (w 2)).isSome = true) ∧ (n ≠ 0 → s'.ctxs = s.ctxs) ∧
        ∀ a, s'.memGet a = Claims.laid m.memGet key (toLe 8 n) a) ∧
    (∀ l, Claims.Executes s part q pkt .poolcfg → poolBad (w 1) (w 3) (w 4) = false → x.ver ≠ 1 →
      s.checkHeader (unitWho x.ctx) (w 2) false = .ok l → l.teams = 1 → fld (w 3) 31 1 = 0 → 1 ≤ l.words →
      (∀ p, (s.ctx x.ctx).pools.find (w 1) = some p → p.recs = []) →
      ∃ s', exec (.poolcfg part q) s = .next s' ∧ s' = { s with parts := s'.parts, ctxs := s'.ctxs } ∧ Claims.Advanced s s' part q x.en ∧
        (∀ c, c ≠ x.ctx → s'.ctx c = s.ctx c) ∧ s'.ctx x.ctx = { s.ctx x.ctx with pools := (s'.ctx x.ctx).pools } ∧
        ∀ k, (s'.ctx x.ctx).pools.find k = if k = w 1 then (match (s.ctx x.ctx).pools.find k with
            | some p => some { p with hdr := l, param := BitVec.ofNat 64 (w 3), timer := w 4 }
            | none => some ⟨l, BitVec.ofNat 64 (w 3), w 4, [], [], 0, s.tick.toNat⟩)
          else (s.ctx x.ctx).pools.find k) ∧
    (∀ l p, Claims.Executes s part q pkt .launch → s.signalOk x.ctx (w 2) = true →
      s.headerPool (unitWho x.ctx) (w 1) = some l.pool → (s.ctx x.ctx).pools.find l.pool = some p →
      s.checkHeader (unitWho x.ctx) (w 1) true = .ok l →
      ∃ s', exec (.launchPacket part q) s = .next s' ∧
        s' = { s with parts := s'.parts, ctxs := s'.ctxs, launches := s'.launches, seq := s.seq + 1, cores := s'.cores, stks := s'.stks } ∧
        Claims.CodeDropped s s' part l x.ctx ∧ Claims.Advanced s s' part q x.en ∧
        (∀ k, s'.launches.find k = if k = s.seq then some ⟨x.ctx, part, l.blocks, if w 2 = 0 then none else some (w 2), []⟩
          else s.launches.find k) ∧ (∀ c, c ≠ x.ctx → s'.ctx c = s.ctx c) ∧
        ∀ k, (s'.ctx x.ctx).pools.find k = if k = l.pool then some { p with
          gangs := p.gangs ++ [Claims.gridGang s p l], since := if p.gangs.isEmpty then s.tick.toNat else p.since }
          else (s.ctx x.ctx).pools.find k) ∧
    (Claims.Executes s part q pkt .copyh → (s.area (unitWho x.ctx) .glob (w 1) (w 3) true false).2 = none →
      (s.area (unitWho x.ctx) .glob (w 2) (w 3) false true).2 = none → s.signalOk x.ctx (w 4) = true →
      ∃ s', exec (.copyh part q) s = .next s' ∧ s' = { s with parts := s'.parts, ops := s'.ops, seq := s.seq + 1 } ∧
        Claims.Advanced s s' part q x.en ∧ (s'.partn part).tickets.find s.seq = some .copyh ∧
        ∃ o, s'.ops = s.ops ++ [o] ∧ o.id = s.seq ∧ o.who = unitWho x.ctx ∧
          o.kind = .copyh (w 1) (w 2) (w 3) (if w 4 = 0 then none else some (w 4)) part s.seq)) ∧
  (∀ (k part : Nat) (p : Part) (ctx : Nat) (bs uids : List Nat) (sg : Option Nat) (s : State),
    (s.parts.find? fun x => (x.2.tickets.find k).isSome) = some (part, p) → s.partn part = p →
    p.tickets.find k = some (.preempt ctx bs uids sg) → (∀ b ∈ bs, s.block? b = none) → s.quiet uids = true → p.halting = none →
    let closed (s' : State) : Prop := ∀ j, (s'.partn part).tickets.find j = if j = k then none else p.tickets.find j
    (sg = none → ∃ s', exec (.preemptComplete k) s = .next s' ∧ s' = { s with parts := s'.parts } ∧
      (∀ j, j ≠ part → s'.partn j = s.partn j) ∧ s'.partn part = { p with tickets := (s'.partn part).tickets } ∧ closed s') ∧
    ∀ a key, sg = some a →
      (Claims.UnitWord s ctx k a key (Claims.less (Claims.wordHere s key)) true →
        ∃ s', exec (.preemptComplete k) s = .next s' ∧ s'.teams = s.teams ∧ s'.accs = s.accs ∧ closed s' ∧
          ∀ q, s'.memGet q = Claims.laid s.memGet key (toLe 8 (Claims.less (Claims.wordHere s key))) q) ∧
      (Claims.UnitLater s ctx k a key (Claims.less (Claims.wordHere s key)) true →
        ∃ s', exec (.preemptComplete k) s = .next s' ∧ s'.teams = s.teams ∧ closed s' ∧ Claims.Later s s' k key decrement ∧
          ∀ q, s'.memGet q = s.memGet q))

/-! The host port, other packages, time, power and registers. -/

namespace Sys2Proof.Claims

/-- A port goes down (R388, R390, R391): it is FAILED and carries no packet more that has a number; each that was sent on it and is not
acknowledged is sent again over another port that may carry it, or, where none is up, once one is; nothing else changes. -/
def Down (s s' : State) (k : Nat) (p : Port) : Prop :=
  s' = { s with ports := s'.ports, accs := s'.accs } ∧ (∀ j, j ≠ k → s'.port j = s.port j) ∧
  s'.port k = { p with state := 3, ver := 0, fails := 0 } ∧ s'.accs.length = s.accs.length ∧
  ∀ (i : Nat) (a : Access), s.accs[i]? = some a → ∃ b, s'.accs[i]? = some b ∧ b = { a with port := b.port, barred := b.barred } ∧
    (a.pkgSeq = none → b = a) ∧ (a.pkgSeq ≠ none → (∀ j, j ∈ b.barred ↔ j = k ∨ j ∈ a.barred) ∧ (a.port ≠ some k → b.port = a.port) ∧
      (a.port = some k → (∀ j, b.port = some j → j ∈ s.portsUp ∧ j ≠ k ∧ j ∉ a.barred) ∧
        (b.port = none ↔ ∀ j ∈ s.portsUp, j = k ∨ j ∈ a.barred)))

/-- No piece of an outside access waits at its home: neither for room in a spill ring nor behind an earlier one (R317). -/
def Free (s : State) (pa : Nat) (bs : List Byte) : Prop :=
  s.heldPieces (physPieces pa bs.length) bs = false ∧ ∀ p ∈ physPieces pa bs.length, s.behind 0 p.1 p.2.2 = false

end Sys2Proof.Claims

/-- R302, R323, R385, R389: the host writes and reads memory of the package while its port is up; a packet of another package, a write, an
atomic or a read, is performed at its home the first time its number is seen.
That an access is one step, and which packets are valid, are the model's choices (logs 31, 33). -/
def Obligations.OutsideAccesses : Prop :=  (∀ (pa : Nat) (bs : List Byte) (s : State), s.hostUp = true → s.ours pa bs.length = true →
    Claims.Free s pa bs → pa + bs.length ≤ 2 ^ 56 →
    ∃ s', exec (.hostWrite pa bs) s = .next s' ∧ s'.teams = s.teams ∧ s'.ridges = s.ridges ∧ s'.accs = s.accs ∧ s'.ctxs = s.ctxs ∧
      s'.parts = s.parts ∧ ∀ q, s'.memGet q = Claims.laid s.memGet pa bs q) ∧
  (∀ (pa len : Nat) (s : State), s.hostUp = true → s.ours pa len = true → pa + len ≤ 2 ^ 56 →
    ∃ s', exec (.hostRead pa len) s = .next s' ∧
      s' = { s with slices := s'.slices, eccOnes := s'.eccOnes, ctr := s'.ctr, comp := s'.comp, free := s'.free,
                    hostData := if s.badPieces (physPieces pa len) then [] else s.memRead pa len }) ∧
  (∀ (src n depth : Nat) (s : State), s.portsUp ≠ [] → src ≠ s.pkg → src < 288 → depth ≤ 31 → n < 2 ^ 32 → s.window.get [] src = [] →
    (∀ pa bs, s.ours pa bs.length = true → pa + bs.length ≤ 2 ^ 56 → Claims.Free s pa bs →
      ∃ s', exec (.remotePacketReceive src n depth (.write pa bs)) s = .next s' ∧ s'.teams = s.teams ∧ s'.accs = s.accs ∧
        s'.ctxs = s.ctxs ∧ s'.parts = s.parts ∧ s'.window.get [] src = [n] ∧ ∀ q, s'.memGet q = Claims.laid s.memGet pa bs q) ∧
    (∀ pa size sx ft op b c,
      let k := size.bytes
      let new := toLe k (atomNew op ft.val sx (8 * k) (ofLe (s.memRead pa k)) (b.toNat % 2 ^ (8 * k)) (c.toNat % 2 ^ (8 * k)))
      s.ours pa k = true → pa + k ≤ 2 ^ 56 → pa % k = 0 → s.eccBad pa = false → s.unitHeld pa new = false → s.behind 0 pa k = false →
      ∃ s', exec (.remotePacketReceive src n depth (.atomic pa size sx ft op b c)) s = .next s' ∧ s'.teams = s.teams ∧
        s'.accs = s.accs ∧ s'.ctxs = s.ctxs ∧ s'.parts = s.parts ∧ s'.window.get [] src = [n] ∧
        ∀ q, s'.memGet q = Claims.laid s.memGet pa new q) ∧
    ∀ pa len, s.ours pa len = true → ∃ s', exec (.remotePacketReceive src n depth (.read pa len)) s = .next s' ∧
      s' = { s with slices := s'.slices, eccOnes := s'.eccOnes, ctr := s'.ctr, comp := s'.comp, free := s'.free, window := s'.window } ∧ s'.window.get [] src = [n]) ∧
  ∀ (src n depth : Nat) (op : RemoteOp) (s : State), n ∈ s.window.get [] src → n < 2 ^ 32 → (∀ m ∈ s.window.get [] src, m < 2 ^ 32) →
    (∀ h t, s.window.get [] src = h :: t → ∀ m ∈ t, m ≠ h ∧ (h + 2 ^ 32 - m) % 2 ^ 32 < 2 ^ 31) →
    exec (.remotePacketReceive src n depth op) s = .next s

/-- R388, R390, R391: the flits replayed are counted, and the 16th replay in a row that fails brings the link down as a lost lock and a write
of EN = 0 do; what was sent on it goes over another port; a failed port trains again when it is enabled, and training leaves the lower of
the two versions. R381, R385, R386, R392, R393, R396, R399: what the package does with its master's count, its dies' heat, a new firmware
image, a request to attest, a lost memory port, a trained host port and power-on reset. The offset's sign is the model's choice (log 32),
as is what a reset keeps (log 37); the signature of a report is a free value (log 19). -/
def Obligations.PortsAndTime : Prop :=
  (∀ (k : Nat) (s : State), k < 18 →
    (∀ n again, (s.port k).state = 2 → 1 ≤ n → n ≤ 512 →
      let fails := if again = true ∧ (s.port k).fails ≠ 0 then (s.port k).fails + 1 else 1
      ∃ s', exec (.flitReplay k ⟨n, again⟩) s = .next s' ∧ (16 < fails → Claims.Down s s' k (s.port k)) ∧
        (fails ≤ 16 → s' = { s with ports := s'.ports } ∧ (∀ j, j ≠ k → s'.port j = s.port j) ∧
          s'.port k = { s.port k with replay := (s.port k).replay + BitVec.ofNat 32 n, fails := fails })) ∧
    ((s.port k).state = 2 → ∃ s', exec (.linkFailure k) s = .next s' ∧ Claims.Down s s' k (s.port k)) ∧
    (∃ s', exec (.portDisable k) s = .next s' ∧ Claims.Down s s' k { s.port k with en := false }) ∧
    (∃ s', exec (.portRetrain k) s = .next s' ∧ s' = { s with ports := s'.ports } ∧ (∀ j, j ≠ k → s'.port j = s.port j) ∧
      s'.port k = { s.port k with en := true, state := if (s.port k).state = 3 then 1 else (s.port k).state }) ∧
    ∀ partner sizes, (s.port k).en = true → ((s.port k).state = 0 ∨ (s.port k).state = 1) →
      ∃ s', exec (.linkTraining k partner sizes) s = .next s' ∧ (partner = 0 → Claims.Down s s' k (s.port k)) ∧
        (1 ≤ partner → s' = { s with ports := s'.ports, peers := s'.peers } ∧ (∀ j, j ≠ k → s'.port j = s.port j) ∧
          s'.port k = { s.port k with state := 2, ver := BitVec.ofNat 8 (min 2 partner) })) ∧
  ((∀ (count : W64) (reached : Bool) (s : State), ∃ s', exec (.timeSync count reached) s = .next s' ∧
    (s.master = true → s' = { s with timeSync := true }) ∧
    (s.master = false → (reached = false ∨ s.portsUp = []) → s' = { s with timeSync := false }) ∧
    (s.master = false → reached = true → s.portsUp ≠ [] →
      s' = { s with timeOff := (s.tick - count).truncate 32, slew := (s.tick - count).toInt,
                    timeSync := decide ((s.tick - count).toInt.natAbs ≤ 20) })) ∧
  (∀ (die : Nat) (at_ : Bool) (s : State), die < s.stacksN → ∃ s', exec (.thermalLimit die at_) s = .next s' ∧
    s' = { s with thermal := s'.thermal } ∧ ∀ d, s'.thermal.find d = if d = die then
      (if at_ then some ((s.thermal.find die).getD s.tick.toNat) else none) else s.thermal.find d) ∧
  (∀ (ok : Bool) (oldest : Nat) (image : List Byte) (s : State), ∃ s', exec (.fwActivate ok oldest image) s = .next s' ∧
    s' = { s with fwGo := false, fwStatus := if s.savOldest < oldest then 1 else if ok then 0 else 2,
                  firmware := if s.savOldest < oldest ∨ ok = false then s.firmware else image,
                  fwOldest := if s.savOldest < oldest ∨ ok = false then s.fwOldest else oldest }) ∧
  (∀ (nonce : List Byte) (s : State), nonce.length = 32 → ∃ s' r, exec (.attestRequest nonce) s = .next s' ∧
    s' = { s with reports := s.reports ++ [r], free := s.free + 1 } ∧ r.nonce = nonce ∧ r.image = sha256 s.firmware ∧ r.feat = s.devFeat ∧
    r.sav = BitVec.ofNat 64 (s.savOldest * 256 + 3) ∧ r.sig.length = 7856) ∧
  (∀ (port cap : Nat) (s : State), s.cxlPorts.find port = some cap → ∃ s', exec (.memoryPortLoss port) s = .next s' ∧
    s' = { s with cxlLost := s'.cxlLost } ∧ ∀ k, s'.cxlLost.get false k = (k == port || s.cxlLost.get false k)) ∧
  (∀ (cxl : Bool) (rate width : Nat) (s : State), exec (.hostPortTraining cxl rate width) s =
    .next { s with hostUp := true, hostCxl := cxl, hostRate := min 128 rate, hostWidth := min 16 width }) ∧
  ∀ (caps : List Nat) (master : Bool) (count : W64) (s : State), ∃ s', exec (.powerOnReset caps master count) s = .next s' ∧
    s'.tick = (if master then 0 else count) ∧ s'.master = master ∧ s'.timeSync = master ∧ s'.booted = true ∧ s'.mem = [] ∧ s'.teams = [] ∧
    s'.ridges = [] ∧ s'.blocks = [] ∧ s'.accs = [] ∧ s'.ops = [] ∧ s'.ctxs = [] ∧ s'.launches = [] ∧ s'.ctr = [] ∧ s'.pcap = 2800 ∧
    s'.fwStatus = 0 ∧ (∀ k, s'.ports.get Port.zero k = ⟨0, 0, 0, true, 0⟩) ∧ (∀ c, s'.core c = Core.zero) ∧ s'.part = s.part ∧
    s'.rootKey = s.rootKey ∧
    s'.memHbm = (if s.part = .p9440 then 5859375 else 11718750) ∧ ∀ p, (s'.partn p).halting = none ∧ (s'.partn p).done = false)

namespace Sys2Proof.Claims

/-- What a write of a queue's registers leaves: the queue as written, but that a WR more than the ring's size ahead of RD sets ERR 2 and
clears EN; a queue that is not enabled or has no pending packet holds no lane; no other queue changes (R333, R337). -/
def Checked (s s' : State) (part q : Nat) (x : Queue) : Prop :=
  let ahead := 2 ^ x.logn < (x.wr - x.rd).toNat
  (∀ j, j ≠ q → s'.queue part j = s.queue part j ∧ (s'.partn part).laneOf j = (s.partn part).laneOf j) ∧
  (ahead → s'.queue part q = { x with err := 2, en := false }) ∧ (¬ ahead → s'.queue part q = x) ∧
  (ahead ∨ x.en = false ∨ x.rd = x.wr → (s'.partn part).laneOf q = none) ∧
  (¬ ahead → x.en = true → x.rd ≠ x.wr → (s'.partn part).laneOf q = (s.partn part).laneOf q)

end Sys2Proof.Claims

/-- R333, R334, R336, R339: a doorbell moves WR and unparks the queue; SCH_QCTL enables a queue of a context, which comes into being
with it; a free lane takes the next queue in turn that has a packet. R7, R34, R292, R333, R341, R343, R347, R348, R370, R382, R391,
R399: a write of a memory-mapped register changes its writable fields only: a counter takes its count, a read-only register keeps
what it holds. When a context comes into being is the model's choice (log 18); some reserved values are its reading (log 36), and
what a field of BCAMP_CTX above 64 does is its choice (log 47). -/
def Obligations.HostRegisters : Prop :=
  ((∀ (part q : Nat) (wr : W32) (s : State), q < 128 →
    ∃ s', exec (.hostQueueDoorbell part q wr) s = .next s' ∧ s' = { s with parts := s'.parts } ∧ (∀ p, p ≠ part → s'.partn p = s.partn p) ∧
      Claims.Checked s s' part q { s.queue part q with wr := wr, parked := false }) ∧
  (∀ (part q : Nat) (v : W64) (s : State),
    let ctx := fld v.toNat 32 10
    q < 128 → v.getLsbD 0 = true → fld v.toNat 28 4 ≠ 0 → 4 ≤ fld v.toNat 16 5 → fld v.toNat 16 5 ≤ 16 →
    ∃ s', exec (.hostQueueEnable part q v) s = .next s' ∧ s' = { s with parts := s'.parts, ctxs := s'.ctxs } ∧
      (∀ p, p ≠ part → s'.partn p = s.partn p) ∧
      Claims.Checked s s' part q
        { s.queue part q with ctx := ctx, ver := min (fld v.toNat 28 4) 2, logn := fld v.toNat 16 5, en := true } ∧
      (∀ c, c ≠ ctx → s'.ctx c = s.ctx c) ∧
      s'.ctx ctx = if (s.ctx ctx).created then s.ctx ctx else { s.ctx ctx with created := true, part := part }) ∧
  ∀ (part lane q : Nat) (s : State), lane < 32 → (s.partn part).lanes.find lane = none → (s.partn part).halting = none →
    (∃ d, d < 128 ∧ q = ((s.partn part).lastQ + 1 + d) % 128 ∧
      (let ok (j : Nat) : Bool := ((s.partn part).queue j).en && !((s.partn part).queue j).parked && ((s.partn part).queue j).pending &&
         ((s.partn part).laneOf j).isNone
       ok q = true ∧ ∀ e, e < d → ok (((s.partn part).lastQ + 1 + e) % 128) = false)) →
    ∃ s', exec (.jisoetteLaneBind part lane) s = .next s' ∧ s' = { s with parts := s'.parts } ∧ (∀ p, p ≠ part → s'.partn p = s.partn p) ∧
      s'.partn part = { s.partn part with lanes := (s'.partn part).lanes, lastQ := q } ∧
      ∀ l, (s'.partn part).lanes.find l = if l = lane then some q else (s.partn part).lanes.find l) ∧
  (∀ (i : Nat) (v : W64) (s : State),
    let n := v.toNat
    (∀ r c, regCtr r = some c → i < 65536 → ∃ s', exec (.registerWrite r i v) s = .next s' ∧ s' = { s with ctr := s'.ctr } ∧
      s'.count c i = n % 2 ^ c.width ∧ ∀ d j, j < 65536 → (d ≠ c ∨ j ≠ i) → s'.count d j = s.count d j) ∧
    (exec (.registerWrite .readOnly i v) s = .next s) ∧
    (exec (.registerWrite .devPcap i v) s = .next { s with pcap := if 1000 ≤ n ∧ n ≤ 2800 then v else s.pcap }) ∧
    (exec (.registerWrite .trgSpillbase i v) s = .next { s with spillBase := fld n 20 36 * 2 ^ 20 }) ∧
    (exec (.registerWrite .ngzTime i v) s = .next { s with master := v.getLsbD 0, timeSync := v.getLsbD 0 || s.timeSync,
                                                           slew := if v.getLsbD 0 then 0 else s.slew }) ∧
    (∀ k : Fin 18, let p := { s.port k.val with replay := BitVec.ofNat 32 (fld n 32 32) }
      ∃ s', exec (.registerWrite (.ngzReplay k) i v) s = .next s' ∧
        (v.getLsbD 0 = false → Claims.Down s s' k.val { p with en := false }) ∧
        (v.getLsbD 0 = true → s' = { s with ports := s'.ports } ∧ (∀ j, j ≠ k.val → s'.port j = s.port j) ∧
          s'.port k.val = { p with en := true, state := if p.state = 3 then 1 else p.state })) ∧
    (∃ s', exec (.registerWrite .schQbase i v) s = .next s' ∧ s' = { s with parts := s'.parts } ∧
      (∀ p q, q < 128 → s'.queue p q = if p = i / 128 ∧ q = i % 128 then { s.queue p q with base := fld n 6 51 } else s.queue p q)) ∧
    (v.getLsbD 0 = false → (s.ctx i).dbgHalt = false → ∃ s', exec (.registerWrite .dbgCtl i v) s = .next s' ∧
      s' = { s with ctxs := s'.ctxs } ∧ (∀ c, c ≠ i → s'.ctx c = s.ctx c) ∧
      s'.ctx i = { s.ctx i with dbgBkfreeze := v.getLsbD 2, dbgQuiesce := v.getLsbD 1 }) ∧
    (∀ k, ∃ s', exec (.registerWrite (.schQword k) i v) s = .next s' ∧ s' = { s with ctxs := s'.ctxs } ∧
      (∀ c, c ≠ i → s'.ctx c = s.ctx c) ∧
      s'.ctx i = { s.ctx i with qword := (s.ctx i).qword.put k.val (v &&& 0x81FFFFFFFFFFFFF8) }) ∧
    (∀ k, ∃ s', exec (.registerWrite (.memClass k) i v) s = .next s' ∧ s' = { s with classes := s'.classes } ∧
      ∀ j, s'.classes.get ClassReg.zero j = if j = k.val then ⟨v.getLsbD 20, BitVec.ofNat 2 (fld n 18 2),
          if fld n 16 2 = 3 then (s.classes.get ClassReg.zero k.val).wpol else BitVec.ofNat 2 (fld n 16 2), BitVec.ofNat 16 (fld n 0 16)⟩
        else s.classes.get ClassReg.zero j) ∧
    (∀ (r : RegName) (f : Part → Part), (r, f) ∈ [(RegName.schAge, fun p => { p with age := v.truncate 32 }),
        (.schGangage, fun p => { p with gangAge := v.truncate 32 }), (.hltRecbase, fun p => { p with recBase := fld n 17 39 * 2 ^ 17 })] →
      ∃ s', exec (.registerWrite r i v) s = .next s' ∧ s' = { s with parts := s'.parts } ∧ (∀ p, p ≠ i → s'.partn p = s.partn p) ∧
        s'.partn i = f (s.partn i)) ∧
    ∀ (r : RegName) (f : Ctx → Ctx), (r, f) ∈ [(RegName.bcampCtx, fun c => { c with
            bcHi := if 64 < fld n 8 7 then c.bcHi else fld n 8 7, bcLo := if 64 < fld n 0 7 then c.bcLo else fld n 0 7 }),
        (.tdescBase, fun c => { c with tdescBase := fld n 16 41 * 2 ^ 16 }), (.memPtroot, fun c => { c with ptroot := fld n 12 44 }),
        (.schSlice, fun c => { c with schSlice := v.truncate 32 }), (.schTrhbase, fun c => { c with trhBase := fld n 16 41 * 2 ^ 16 }),
        (.schRuckbase, fun c => { c with ruckBase := fld n 16 41 * 2 ^ 16 }),
        (.trpVec, fun c => { c with illh := v.getLsbD 63, trpVec := fld n 0 57 }), (.trpMvec, fun c => { c with trpMvec := fld n 0 57 }),
        (.savBase, fun c => { c with savBase := fld n 16 41 * 2 ^ 16 }), (.savSize, fun c => { c with savSize := v })] →
      ∃ s', exec (.registerWrite r i v) s = .next s' ∧ s' = { s with ctxs := s'.ctxs } ∧ (∀ c, c ≠ i → s'.ctx c = s.ctx c) ∧
        s'.ctx i = f (s.ctx i))
end

