-- ==== Sys2Proof/Laws/Memory.lean ====
section
/-! SUPPORT. Memory: what a byte reads as after a write, and that every operation on memory keeps its canonical form. -/

namespace Sys2Proof.Machine

/-- A byte after a write at consecutive keys: the written byte within them, the old one elsewhere. -/
theorem get_memPut (m : List Host.Cell) (k : Nat) (bs : List Byte) (q : Nat) :
    Tbl.get memDefault (memPut m k bs) q = if k ≤ q ∧ q < k + bs.length then bs.getD (q - k) 0 else Tbl.get memDefault m q := by
  induction bs generalizing m k with
  | nil => simp [memPut]
  | cons b bs ih =>
    rw [memPut, ih, Tbl.get_set, List.length_cons]
    by_cases h : q = k
    · subst h; simp
    · by_cases g : k + 1 ≤ q ∧ q < k + 1 + bs.length
      · rw [if_pos g, if_pos ⟨by omega, by omega⟩, show q - k = (q - (k + 1)) + 1 by omega, List.getD_cons_succ]
      · rw [if_neg g, if_neg h, if_neg (by omega)]

@[simp] theorem memGet_memWrite (s : State) (k : Nat) (bs : List Byte) (q : Nat) :
    (s.memWrite k bs).memGet q = if k ≤ q ∧ q < k + bs.length then bs.getD (q - k) 0 else s.memGet q := get_memPut ..

/-- A write leaves every other byte alone. -/
theorem memGet_memWrite_of_outside (s : State) (k : Nat) (bs : List Byte) {q : Nat} (h : q < k ∨ k + bs.length ≤ q) :
    (s.memWrite k bs).memGet q = s.memGet q := by rw [memGet_memWrite, if_neg (by omega)]

@[simp] theorem length_memRead (s : State) (k n : Nat) : (s.memRead k n).length = n := by simp [State.memRead]

/-- A read after a write to the same place gives what was written. -/
@[simp] theorem memRead_memWrite_same (s : State) (k : Nat) (bs : List Byte) : (s.memWrite k bs).memRead k bs.length = bs := by
  refine List.ext_getElem (by simp) fun i h g => ?_
  have : i < bs.length := by simpa using h
  simp [State.memRead, this]

/-- Reads apart from a write are as before. -/
theorem memRead_memWrite_of_apart (s : State) {k n a : Nat} {bs : List Byte} (h : a + n ≤ k ∨ k + bs.length ≤ a) :
    (s.memWrite k bs).memRead a n = s.memRead a n := by
  refine List.map_congr_left fun i hi => memGet_memWrite_of_outside _ _ _ ?_
  have := List.mem_range.mp hi
  omega

theorem wf_memPut {m : List Host.Cell} (k : Nat) (bs : List Byte) (h : Memory.wf m = true) : Memory.wf (memPut m k bs) = true := by
  induction bs generalizing m k with
  | nil => exact h
  | cons b bs ih => exact ih _ (Tbl.wf_set _ _ h)

theorem State.memOk_memWrite {s : State} (k : Nat) (bs : List Byte) (h : s.memOk = true) : (s.memWrite k bs).memOk = true := wf_memPut k bs h

/-- Removing keys, as the save of a block does with its own, keeps the form. -/
theorem wf_mem_filter {m : List Host.Cell} (p : Host.Cell → Bool) (h : Memory.wf m = true) : Memory.wf (m.filter p) = true := Tbl.wf_filter p h

theorem State.memOk_of_mem {s m : State} (e : m.mem = s.mem) (h : s.memOk = true) : m.memOk = true := by
  unfold State.memOk at *; rw [e]; exact h

theorem State.memOk_reset : State.reset.memOk = true := rfl

theorem State.memOk_foldl {α : Type} {f : State → α → State} (hf : ∀ s a, s.memOk = true → (f s a).memOk = true) (l : List α) {s : State}
    (h : s.memOk = true) : (l.foldl f s).memOk = true := by
  induction l generalizing s with
  | nil => exact h
  | cons a l ih => exact ih (hf _ _ h)

end Sys2Proof.Machine
end

