-- ==== Sys2Proof/Laws/Sort.lean ====
section
/-! SUPPORT. What sortBy answers: the same elements, in order. -/

namespace Sys2Proof.Machine

theorem insertBy_perm {α : Type} (le : α → α → Bool) (a : α) : ∀ l, (insertBy le a l).Perm (a :: l)
  | [] => .refl _
  | b :: l => by
    unfold insertBy
    split
    · exact .refl _
    · exact ((insertBy_perm le a l).cons b).trans (.swap a b l)

theorem sortBy_perm {α : Type} (le : α → α → Bool) : ∀ l, (sortBy le l).Perm l
  | [] => .refl _
  | a :: l => (insertBy_perm le a _).trans ((sortBy_perm le l).cons a)

@[simp] theorem mem_sortBy {α : Type} {le : α → α → Bool} {a : α} {l : List α} : a ∈ sortBy le l ↔ a ∈ l :=
  (sortBy_perm le l).mem_iff

@[simp] theorem length_sortBy {α : Type} (le : α → α → Bool) (l : List α) : (sortBy le l).length = l.length :=
  (sortBy_perm le l).length_eq

@[simp] theorem sortBy_singleton {α : Type} (le : α → α → Bool) (a : α) : sortBy le [a] = [a] := rfl

/-- The result is sorted, where the order is total and transitive. -/
theorem sortBy_sorted {α : Type} {le : α → α → Bool} (total : ∀ a b, le a b = true ∨ le b a = true)
    (trans : ∀ a b c, le a b = true → le b c = true → le a c = true) : ∀ l, (sortBy le l).Pairwise fun a b => le a b = true
  | [] => .nil
  | a :: l => by
    have main : ∀ m : List α, m.Pairwise (fun a b => le a b = true) → (insertBy le a m).Pairwise fun a b => le a b = true := by
      intro m h
      induction m with
      | nil => exact List.pairwise_singleton ..
      | cons b m ih =>
        rw [List.pairwise_cons] at h
        unfold insertBy
        split
        · next ab =>
          refine List.pairwise_cons.mpr ⟨fun c hc => ?_, List.pairwise_cons.mpr h⟩
          rcases List.mem_cons.mp hc with rfl | hc
          · exact ab
          · exact trans _ _ _ ab (h.1 c hc)
        · next ab =>
          refine List.pairwise_cons.mpr ⟨fun c hc => ?_, ih h.2⟩
          rcases List.mem_cons.mp ((insertBy_perm le a m).mem_iff.mp hc) with rfl | hc
          · exact (total b c).resolve_right ab
          · exact h.1 c hc
    exact main _ (sortBy_sorted total trans l)

end Sys2Proof.Machine
end

