-- ==== Sys2Proof/Tests/Slice0.lean ====
section
/-! SUPPORT. Tests: ill-formed terms that WellFormed refuses, words written out from the manual's encodings, single steps, and
for each statement with hypotheses a state that meets them. -/

namespace Sys2Proof.Tests
open Sys2Proof Sys2Proof.Machine
set_option Elab.async false

/-! States to test in: the placed team or stream (log 9), whose turn it is, changed as given. -/

/-- The header of most tests: no stall, every lane. -/
def g : Hdr := ⟨0, 0, false, false⟩
/-- The same, guarded by p1. -/
def g1 : Hdr := ⟨0, 1, false, false⟩

/-- The placed state with its team changed, at its turn. -/
def ts (f : Team → Team) : State := { (State.reset.place 0).setTeam 0 0 (f placeTeam) with cur := .team 0 0 }
/-- The placed state with its stream changed, at its turn. -/
def rs (f : Ridge → Ridge) : State := { (State.reset.place 0).setRidge 0 (f placeRidge) with cur := .ridge 0 }
/-- Four active lanes, of which p1 admits the lower two. -/
def four (t : Team) : Team := { t with act := 0xF, preg := [(1, 3)] }

/-! Ill-formed terms: one for each check of WellFormed, which refuses it. -/

/-- Guards, integer types, alignment of pairs, one scalar among vectors (R72, R73, R137, R138, R141). -/
theorem test_ill_formed_integer : (Instr.refill g1 3 false 0).wf = false ∧ (Instr.endlead g1).wf = false ∧ (Instr.tret g1).wf = false ∧
    (Instr.sadd g 1 2 3 .i16 false).wf = false ∧ (Instr.smulh g 1 2 3 .n8).wf = false ∧ (Instr.smad g 1 2 3 4 .i8).wf = false ∧
    (Instr.vadd g 3 (.v 4) (.v 6) .i64 false).wf = false ∧ (Instr.vsub g 2 (.v 5) (.v 6) .n64 false).wf = false ∧
    (Instr.vand g 2 (.s 5) (.s 6) .i32).wf = false ∧ (Instr.vmad g 2 (.v 4) (.v 6) (.v 7) .i64).wf = false ∧
    (Instr.vmad g 2 (.s 4) (.v 6) (.s 7) .i32).wf = false ∧ (Instr.scmp g 1 2 3 .eq .i16).wf = false ∧
    (Instr.vcmp g 1 (.v 3) (.v 4) .eq .i64).wf = false ∧ (Instr.vcmp g 1 (.s 3) (.s 4) .eq .i32).wf = false ∧
    (Instr.vsel g 3 (.v 4) (.v 6) 1 true).wf = false := by decide

/-- The fields of moves, bit fields and lanes (R107, R146, R159, R162). -/
theorem test_ill_formed_vector : (Instr.vmov g (.vv 4 3) true).wf = false ∧ (Instr.vmov g (.push 1 3) true).wf = false ∧
    (Instr.vmov g (.vs 3 1) true).wf = false ∧ (Instr.vmov g (.pop 3 1) true).wf = false ∧ (Instr.vclz g 1 3 true).wf = false ∧
    (Instr.vpop g 1 3 true).wf = false ∧ (Instr.vbfx g 1 2 31 1 false).wf = false ∧ (Instr.vbfi g 1 2 3 1 31).wf = false ∧
    (Instr.vaddc g 1 (.s 2) (.s 3) 1 false).wf = false ∧ (Instr.vaddr g 1 (.v 2) 4 0 true).wf = false ∧ (Instr.vaddi g 1 2 true 0).wf = false ∧
    (Instr.vshuf g 1 2 (.s 0) .up true).wf = false ∧ (Instr.vbcast g (.v 1) 2 3 true).wf = false ∧
    (Instr.vreduce g (.s 1) 2 .and (.f .f32) ⟨.rne, false⟩).wf = false ∧ (Instr.vscan g 1 2 .add (.i .i64) ⟨.rne, false⟩).wf = false ∧
    (Instr.vreduce g (.s 1) 2 .add (.i .i32) ⟨.rtz, false⟩).wf = false := by decide

/-- Types and alignment of floating point (R147, R154, R158, R163). -/
theorem test_ill_formed_float : (Instr.fadd g 1 (.v 2) (.v 3) .f8e4 Rnd.rne).wf = false ∧ (Instr.fmul g 1 (.s 2) (.s 3) .f32 Rnd.rne).wf = false ∧
    (Instr.ffma g 1 (.s 2) (.v 3) (.s 4) .f32 Rnd.rne).wf = false ∧ (Instr.fmin g 1 (.v 2) (.v 3) .f8e5 false).wf = false ∧
    (Instr.fcmp g 1 (.s 2) (.s 3) .eq false).wf = false ∧ (Instr.fscos g 1 (.v 2) Rnd.rne).wf = false ∧
    (Instr.fcvt g 1 (.v 2) (.i .i32) (.i .n32) 0 Rnd.rne).wf = false ∧ (Instr.fcvt g 1 (.v 2) (.f .f16) (.f .f32) 2 Rnd.rne).wf = false ∧
    (Instr.fcvt g 1 (.v 2) (.f .f32) (.i .i64) 0 Rnd.rne).wf = false ∧ (Instr.frnd g 1 (.v 2) .f8e4 Rnd.rne).wf = false ∧
    (Instr.fclass g 1 (.v 2) .f8e5).wf = false ∧ (Instr.fdot2 g 1 (.v 2) (.v 3) (.v 4) .f32 Rnd.rne).wf = false ∧
    (Instr.fcmul g 2 (.v 3) (.v 4) .f32 Rnd.rne).wf = false ∧ (Instr.fbfly g 2 (.v 4) (.v 6) (.v 8) .f32 Rnd.rne).wf = false ∧
    (Instr.ftwid g 1 (.v 2) (.v 3) Rnd.rne).wf = false ∧ (Instr.csum g 1 2 3 true).wf = false := by decide

/-- Orders, sizes and registers of memory forms (R186, R190, R192, R193, R195). -/
theorem test_ill_formed_memory : (Instr.ld g (.v 1) (.s 2) .glob .rel .b32 false 0).wf = false ∧
    (Instr.ld g (.v 1) (.s 2) .glob .plain .b64 false 0).wf = false ∧ (Instr.ld g (.s 1) (.v 2) .pack .plain .b32 false 0).wf = false ∧
    (Instr.ld g (.v 4) (.v 3) .glob .plain .b32 false 0).wf = false ∧ (Instr.ld g (.v 4) (.s 3) .glob .plain .b32 true 0).wf = false ∧
    (Instr.st g (.v 4) (.s 3) .glob .acq .b32 0).wf = false ∧ (Instr.st g (.s 4) (.s 3) .glob .plain .b128 0).wf = false ∧
    (Instr.atom g (.v 4) (.s 3) .pocket .plain .b32 false (.v 1) .add 0).wf = false ∧
    (Instr.atom g (.v 4) (.s 3) .glob .plain .b32 false (.v 1) .cas 0).wf = false ∧
    (Instr.red g (.v 4) (.s 3) .glob .plain .b32 false .xchg 0).wf = false ∧ (Instr.red g (.v 4) (.s 3) .glob .plain .b32 false .fadd 1).wf = false ∧
    (Instr.fence g .plain).wf = false ∧ (Instr.prf g false (.v 1) 0).wf = false ∧ (Instr.vld g 1 1 .plain .b64 false (.v 1) none).wf = false ∧
    (Instr.vld g 1 1 .plain .b32 false (.v 1) (some 0)).wf = false ∧ (Instr.vst g 1 1 .acq .b32 (.v 1)).wf = false := by decide

/-- Aligned scalars, engines, the matrix array and watches (R193, R195, R215, R236, R275, R324, R357). -/
theorem test_ill_formed_units : (Instr.vwset g 1 2).wf = false ∧ (Instr.tdset g 1 4).wf = false ∧ (Instr.fwait g 1 2 false).wf = false ∧
    (Instr.ftest g 0 1).wf = false ∧ (Instr.gath g (some 2) 1 2 0 2).wf = false ∧ (Instr.gath g none 1 2 0 1).wf = false ∧ (Instr.scat g 1 1 2 1).wf = false ∧
    (Instr.qbind g1 1 1 0).wf = false ∧ (Instr.qtry g (.v 1) 1 1 true).wf = false ∧ (Instr.mlda g 0 2 1 0 0 .bf16 .glob).wf = false ∧
    (Instr.mma g 0 0 1 0 0 13 0 0 false false).wf = false ∧ (Instr.mma g 0 7 1 0 0 4 0 1 false false).wf = false ∧
    (Instr.mma g 0 0 1 1 0 4 0 0 false false).wf = false ∧ (Instr.zld g 0 1 false .glob).wf = false ∧
    (Instr.zst g 0 false 1 .f32 false .glob).wf = false ∧ (Instr.zmap g 0 1 2 .mov).wf = false ∧
    (Instr.attn g 0 2 4 false false false false).wf = false := by decide

theorem test_ill_formed_rest : (Instr.attn g 0 4 0 false false false false).wf = false ∧ (Instr.kvapp g 1 3 2 .glob).wf = false ∧
    (Instr.wpark g 1 2 3 0).wf = false ∧ (Instr.launchRecord g 1 2).wf = false ∧ (Instr.srd g (.s 1) true .tick).wf = false := by decide

/-! Decoding. Words put together by hand from the manual's fields, with STALL 5, guard p3 negated and FRESH 1 (or, where the manual
asks for it, p0); the manual's own words are in Obligations.ManualWordsDecode. -/

def hw : Hdr := ⟨5, 3, true, true⟩
def hp : Hdr := ⟨5, 0, false, true⟩

/-- Control (R65). -/
theorem test_decode_control : decode 0x00141E0000000000 = .ok (.nop hw) ∧
    decode 0x01141E0000FFFFFF = .ok (.bra hw 0xFFFFFF) ∧
    decode 0x02141F7E00000002 = .ok (.ball hw 95 true 2) ∧
    decode 0x03141F7800000003 = .ok (.bany hw 94 false 3) ∧
    decode 0x04141E00FF000000 = .ok (.jmps hw 63) ∧
    decode 0x05141E0000000007 = .ok (.call hw (.off 7)) ∧
    decode 0x05141E008D000000 = .ok (.call hw (.reg 6)) ∧
    decode 0x06141E0000000000 = .ok (.ret hw) ∧
    decode 0x07141E0000000000 = .ok (.reconv hw) ∧
    decode 0x08141E0000001E00 = .ok (.brk hw 15) ∧
    decode 0x09141E0000000000 = .ok (.exit hw) ∧
    decode 0x0A140203FE000009 = .ok (.refill hp 15 true 9) ∧
    decode 0x0B141E9200000000 = .ok (.elect hw 9) ∧
    decode 0x0C14020000000000 = .ok (.endlead hp) ∧
    decode 0x0D141EA838604000 = .ok (.phint hw 20 3 33 129) ∧
    decode 0x0E141E0000000000 = .ok (.yield hw) := by decide

/-- Predicates and traps (R65, R77, R364). -/
theorem test_decode_predicate : decode 0x10141FBE80000001 = .ok (.pset hw 95 0x80000001) ∧
    decode 0x11141F090305BEE8 = .ok (.plop hw 4 1 2 95 0xE8) ∧
    decode 0x12141F050E000000 = .ok (.pmov hw (.pp 2 7)) ∧
    decode 0x12141F040E000000 = .ok (.pmov hw (.pv 2 7)) ∧
    decode 0x12141F048E000000 = .ok (.pmov hw (.ps 2 7)) ∧
    decode 0x12141E050E000000 = .ok (.pmov hw (.vp 2 7)) ∧
    decode 0x13141E8704000000 = .ok (.pcnt hw 3 2) ∧
    decode 0x14141E8904000000 = .ok (.pfirst hw 4 2) ∧
    decode 0xD0141E008000002A = .ok (.trap hw 0x8000002A) ∧
    decode 0xD114020000000000 = .ok (.tret hp) ∧
    decode 0xD2141E0088000000 = .ok (.halt hw 4) ∧
    decode 0xD3141E008000002B = .ok (.bkpt hw 0x8000002B) := by decide

/-- The pairs of R141, S forms. -/
theorem test_decode_scalarInteger : decode 0x20141EFE84860140 = .ok (.sadd hw 63 2 3 .i32 true) ∧
    decode 0x22141EFE84860148 = .ok (.ssub hw 63 2 3 .n32 true) ∧
    decode 0x24141EFE84860050 = .ok (.smul hw 63 2 3 .i64) ∧
    decode 0x26141EFE84860058 = .ok (.smulh hw 63 2 3 .n64) ∧
    decode 0x28141EFE84868840 = .ok (.smad hw 63 2 3 4 .i32) ∧
    decode 0x2A141EFE84860048 = .ok (.sand hw 63 2 3 .n32) ∧
    decode 0x2C141EFE84860050 = .ok (.sor hw 63 2 3 .i64) ∧
    decode 0x2E141EFE84860058 = .ok (.sxor hw 63 2 3 .n64) ∧
    decode 0x30141EFE84860040 = .ok (.sshl hw 63 2 3 .i32) ∧
    decode 0x32141EFE84860048 = .ok (.sshr hw 63 2 3 .n32) ∧
    decode 0x34141EFE84860050 = .ok (.ssar hw 63 2 3 .i64) ∧
    decode 0x36141EFE84860058 = .ok (.smin hw 63 2 3 .n64) ∧
    decode 0x38141EFE84860040 = .ok (.smax hw 63 2 3 .i32) := by decide

/-- The pairs of R141, V forms. -/
theorem test_decode_vectorInteger : decode 0x21141E7E04860170 = .ok (.vadd hw 63 (.v 2) (.s 3) .i8 true) ∧
    decode 0x23141E7E04860168 = .ok (.vsub hw 63 (.v 2) (.s 3) .n16 true) ∧
    decode 0x25141E7E04860060 = .ok (.vmul hw 63 (.v 2) (.s 3) .i16) ∧
    decode 0x27141E7E04860078 = .ok (.vmulh hw 63 (.v 2) (.s 3) .n8) ∧
    decode 0x29141E7E04860840 = .ok (.vmad hw 63 (.v 2) (.s 3) (.v 4) .i32) ∧
    decode 0x2B141E7E04860048 = .ok (.vand hw 63 (.v 2) (.s 3) .n32) ∧
    decode 0x2D141E7E04860060 = .ok (.vor hw 63 (.v 2) (.s 3) .i16) ∧
    decode 0x2F141E7E04860078 = .ok (.vxor hw 63 (.v 2) (.s 3) .n8) ∧
    decode 0x31141E7E04860068 = .ok (.vshl hw 63 (.v 2) (.s 3) .n16) ∧
    decode 0x33141E7E04860070 = .ok (.vshr hw 63 (.v 2) (.s 3) .i8) ∧
    decode 0x35141E7E04860060 = .ok (.vsar hw 63 (.v 2) (.s 3) .i16) ∧
    decode 0x37141E7E04860048 = .ok (.vmin hw 63 (.v 2) (.s 3) .n32) ∧
    decode 0x39141E7E04860070 = .ok (.vmax hw 63 (.v 2) (.s 3) .i8) := by decide

/-- Compares, moves and immediates (R106, R144 to R146). -/
theorem test_decode_compare : decode 0x3A141F0E88920A58 = .ok (.scmp hw 7 4 9 .ge .n64) ∧
    decode 0x3B141F04820A0440 = .ok (.vcmp hw 2 (.s 1) (.v 5) .lt .i32) ∧
    decode 0x3C141E06080B0C48 = .ok (.vsel hw 3 (.v 4) (.v 5) 6 false) ∧
    decode 0x3D141E8A8E000058 = .ok (.smov hw (.ss 5 7)) ∧
    decode 0x3D141FE288000058 = .ok (.smov hw (.push 1 4)) ∧
    decode 0x3D141E89E2000058 = .ok (.smov hw (.pop 4 1)) ∧
    decode 0x3E141E0802000048 = .ok (.vmov hw (.vv 4 1) false) ∧
    decode 0x3E141E088C000058 = .ok (.vmov hw (.vs 4 6) true) ∧
    decode 0x3E141FE604000048 = .ok (.vmov hw (.push 3 2) false) ∧
    decode 0x3E141E05E6000058 = .ok (.vmov hw (.pop 2 3) true) ∧
    decode 0x3F141E8900000400 = .ok (.smovi hw 4 true 0x400) ∧
    decode 0x40141E0200000005 = .ok (.vmovi hw 1 5) ∧
    decode 0x47141E8688FFFFC0 = .ok (.saddi hw 3 4 true 0x7FFFC0) ∧
    decode 0x48141E0804000008 = .ok (.vaddi hw 4 2 false 8) := by decide

/-- Bits, carries and lanes (R146, R159, R163). -/
theorem test_decode_vector : decode 0x41141E0608000058 = .ok (.vclz hw 3 4 true) ∧
    decode 0x42141E0608000048 = .ok (.vpop hw 3 4 false) ∧
    decode 0x43141E040E0045C0 = .ok (.vbfx hw 2 7 4 11 true) ∧
    decode 0x44141E04100743C8 = .ok (.vbfi hw 2 8 3 20 7) ∧
    decode 0x45141E0C8A130748 = .ok (.vaddc hw 6 (.s 5) (.v 9) 3 true) ∧
    decode 0x46141E1498060158 = .ok (.vaddr hw 10 (.s 12) 3 2 true) ∧
    decode 0x49141E0A088400C8 = .ok (.vshuf hw 5 4 (.s 2) .xor false) ∧
    decode 0x49141E0C080401D8 = .ok (.vshuf hw 6 4 (.v 2) .down true) ∧
    decode 0x4A141E8E06840048 = .ok (.vbcast hw (.s 7) 3 2 false) ∧
    decode 0x4B141E8804000205 = .ok (.vreduce hw (.s 4) 2 .min (.f .f32) ⟨.rtz, true⟩) ∧
    decode 0x4C141E060A000A48 = .ok (.vscan hw 3 5 .xor (.i .n32) ⟨.rne, false⟩) ∧
    decode 0xD4141E8A8C060048 = .ok (.csum hw 5 6 3 false) := by decide

/-- Floating point (R147, R154). -/
theorem test_decode_float : decode 0x50141E0A0C8E0013 = .ok (.fadd hw 5 (.v 6) (.s 7) .bf16 ⟨.rup, false⟩) ∧
    decode 0x51141E0A8C0E0006 = .ok (.fsub hw 5 (.s 6) (.v 7) .f32 ⟨.rdn, true⟩) ∧
    decode 0x52141E12048A000B = .ok (.fmul hw 9 (.v 2) (.s 5) .f16 ⟨.rup, false⟩) ∧
    decode 0x53141E0802048606 = .ok (.ffma hw 4 (.v 1) (.v 2) (.s 3) .f32 ⟨.rdn, true⟩) ∧
    decode 0x54141E080204000C = .ok (.fmin hw 4 (.v 1) (.v 2) .f16 true) ∧
    decode 0x55141E0802040010 = .ok (.fmax hw 4 (.v 1) (.v 2) .bf16 false) ∧
    decode 0x56141F0804060C04 = .ok (.fcmp hw 4 (.v 2) (.v 3) .un true) ∧
    decode 0x57141E0604000003 = .ok (.frcp hw 3 (.v 2) ⟨.rup, false⟩) ∧
    decode 0x58141E0604000006 = .ok (.frsq hw 3 (.v 2) ⟨.rdn, true⟩) ∧
    decode 0x59141E0A88000003 = .ok (.fexp2 hw 5 (.s 4) ⟨.rup, false⟩) := by decide

/-- Floating point (R147, R154). -/
theorem test_decode_float2 : decode 0x5A141E0684000006 = .ok (.flog2 hw 3 (.s 2) ⟨.rdn, true⟩) ∧
    decode 0x5B141E0C06000003 = .ok (.fscos hw 6 (.v 3) ⟨.rup, false⟩) ∧
    decode 0x5C141E04020007A3 = .ok (.fcvt hw 2 (.v 1) (.f .f8e4) (.f .f8e5) 3 ⟨.rup, false⟩) ∧
    decode 0x5C141E048200005E = .ok (.fcvt hw 2 (.s 1) (.f .f32) (.i .n64) 0 ⟨.rdn, true⟩) ∧
    decode 0x5D141E0402000013 = .ok (.frnd hw 2 (.v 1) .bf16 ⟨.rup, false⟩) ∧
    decode 0x5E141E0482000008 = .ok (.fclass hw 2 (.s 1) .f16) ∧
    decode 0x5F141E1204068813 = .ok (.fdot2 hw 9 (.v 2) (.v 3) (.s 4) .bf16 ⟨.rup, false⟩) ∧
    decode 0x60141E080C040006 = .ok (.fcmul hw 4 (.v 6) (.v 2) .f32 ⟨.rdn, true⟩) ∧
    decode 0x61141E101C040C03 = .ok (.fbfly hw 8 (.v 14) (.v 2) (.v 6) .f32 ⟨.rup, false⟩) ∧
    decode 0x62141E0C08820006 = .ok (.ftwid hw 6 (.v 4) (.s 1) ⟨.rdn, true⟩) := by decide

/-- Memory and views (R186, R193). -/
theorem test_decode_memory : decode 0x80141E0A9014FFF0 = .ok (.ld hw (.v 5) (.s 8) .glob .acq .b32 false 0xFFF0) ∧
    decode 0x80141E8A91030010 = .ok (.ld hw (.s 5) (.s 8) .bcamp .plain .b16 true 16) ∧
    decode 0x81141E0C04A60008 = .ok (.st hw (.v 6) (.v 2) .pack .rel .b64 8) ∧
    decode 0x82141E0C90F50410 = .ok (.atom hw (.v 6) (.s 8) .camp .ar .b32 true (.v 4) .cas 0) ∧
    decode 0x83141E06102200A2 = .ok (.red hw (.v 3) (.v 8) .glob .rel .b16 false .fadd 2) ∧
    decode 0x84141E0000200000 = .ok (.fence hw .rel) ∧
    decode 0x85141E0288000100 = .ok (.prf hw true (.s 4) 256) ∧
    decode 0x86141E09C2144382 = .ok (.vld hw 4 1 .acq .b32 false (.s 3) (some 2)) ∧
    decode 0x86141E09DE010300 = .ok (.vld hw 4 15 .plain .b8 true (.v 3) none) ∧
    decode 0x87141E09C2240900 = .ok (.vst hw 4 1 .rel .b32 (.v 9)) ∧
    decode 0x88141FC290000000 = .ok (.vwset hw 1 8) ∧
    decode 0x89141FC3C4861C00 = .ok (.vwadj hw 1 2 3 3 .cntSet) ∧
    decode 0x8A141FC200000000 = .ok (.vret hw 1) ∧
    decode 0x8B141E0084900000 = .ok (.tdset hw 2 8) := by decide

/-- Engines, rings and queues (R106, R275). -/
theorem test_decode_engine : decode 0xA0141FC3C49A0000 = .ok (.copy hw 1 2 13) ∧
    decode 0xA0141FC3C49A0001 = .ok (.copyR hw 1 2 13) ∧
    decode 0xA1141FC2849A0000 = .ok (.copym hw 1 2 13) ∧
    decode 0xA2141E82849A0000 = .ok (.chain hw 1 2 13) ∧
    decode 0xA3141E82840000FF = .ok (.ring hw 1 2 255) ∧
    decode 0xA4141EA084000001 = .ok (.fwait hw 16 2 true) ∧
    decode 0xA5141E0084000000 = .ok (.frel hw 2) ∧
    decode 0xA6141FBE84000000 = .ok (.ftest hw 95 2) ∧
    decode 0xA7141E10068805F8 = .ok (.gath hw (some 8) 3 4 95 2) ∧
    decode 0xA7141E0006880800 = .ok (.gath hw none 3 4 0 0) ∧ (decode 0xA7141E0006880804).toOption = none ∧
    decode 0xA8141E1006880008 = .ok (.scat hw 8 3 4 2) ∧
    decode 0xA91403E68C000300 = .ok (.qbind hp 3 6 3) ∧
    decode 0xAA141E11E7080800 = .ok (.qtry hw (.v 8) 3 4 true) := by decide

/-- Matrix array and KV pages (R215, R236). -/
theorem test_decode_matrix : decode 0xB0141E1A30283841 = .ok (.mlda hw 3 6 5 7 2 .cb4 .pack) ∧
    decode 0xB0141E1A30000012 = .ok (.mlda hw 3 6 0 0 0 .bf16 .bcamp) ∧
    decode 0xB1141E02121A2005 = .ok (.plane hw 2 3 4 .i8) ∧
    decode 0xB2141E5228283627 = .ok (.mma hw 1 2 5 5 6 12 1 1 true true) ∧
    decode 0xB3141E0250000000 = .ok (.moutl hw 10) ∧
    decode 0xB4141F4000000000 = .ok (.zclr hw false 5) ∧
    decode 0xB4141E2800000001 = .ok (.zclr hw true 5) ∧
    decode 0xB5141E8240000005 = .ok (.zld hw 2 8 true .pack) ∧
    decode 0xB6141E8A40000012 = .ok (.zst hw 2 true 8 .f16 false .bcamp) ∧
    decode 0xB7141E5220000008 = .ok (.zmap hw 1 2 4 .scale) ∧
    decode 0xBD141E822000040A = .ok (.attn hw 2 4 8 false true false true) ∧
    decode 0xBD141E8220000614 = .ok (.attn hw 2 4 12 true false true false) ∧
    decode 0xBE141E8C90940001 = .ok (.kvapp hw 6 8 10 .pack) ∧
    decode 0xBF141E9800000003 = .ok (.kvevt hw 12 3) := by decide

/-- Barriers, watches and launches (R215, R324, R355). -/
theorem test_decode_barrier : decode 0xB8141E008A00FE00 = .ok (.binit hw 5 127) ∧
    decode 0xB9141E9200000600 = .ok (.barr hw 9 3) ∧
    decode 0xBA141E0092000600 = .ok (.bwait hw 9 3) ∧
    decode 0xBB141E000000FC00 = .ok (.bsync hw 126) ∧
    decode 0xBC141E008C000600 = .ok (.bexp hw 6 3) ∧
    decode 0xC0141E8690920000 = .ok (.watch hw 3 8 9) ∧
    decode 0xC1141E8692000000 = .ok (.unwatch hw 3 9) ∧
    decode 0xC2141E08929405F0 = .ok (.wpark hw 4 9 10 95) ∧
    decode 0xC3141E8690000000 = .ok (.launchGrid hw 3 8 none) ∧
    decode 0xC3141E86908E0000 = .ok (.launchGrid hw 3 8 (some 7)) ∧
    decode 0xC3141E8610000001 = .ok (.launchRecord hw 3 8) ∧
    decode 0xC4141E0800800003 = .ok (.srd hw (.v 4) true .team) ∧
    decode 0xC4141E880000000C = .ok (.srd hw (.s 4) false .ctx) ∧
    decode 0xC5141E0088000008 = .ok (.swr hw 4) ∧
    decode 0xC6141E0088001E00 = .ok (.wkadd hw 4 15) ∧
    decode 0xC7141E0000001C00 = .ok (.wkdone hw 14) := by decide

/-! Single steps. Each expected value is the manual's own example, at the rule named. -/

/-- The placed team with vector registers that hold the same value in each lane of word 0, and with the given scalars; n lanes are active. -/
def lanesOf (n : Nat) (vs : List (Nat × W32)) (ss : List (Nat × W64)) : State :=
  let t : Team := { placeTeam with act := lanesBelow n, sreg := ss, vmap := vs.map fun v => (32 * v.1, v.1 + 1) }
  (ts fun _ => t).modCore 0 fun c => { c with phys := vs.map fun v => (v.1 + 1, ⟨sliceOf fun _ => v.2, 2, false⟩) }

/-- What an instruction leaves in a lane of a vector register, in a scalar, and in sr.fstat (the flags of results not yet written among them). -/
def left (i : Instr) (s : State) : State := match exec i s with | .next s' => s' | _ => State.reset
def vAfter (i : Instr) (s : State) (r : VReg) (l : Nat) : W32 := (left i s).vreg 0 0 r l
def sAfter (i : Instr) (s : State) (r : SReg) : W64 := (((left i s).team? 0 0).getD placeTeam).rs r
def fAfter (i : Instr) (s : State) : BitVec 5 := (((left i s).team? 0 0).getD placeTeam).flagsDue

/-- R143's table. -/
theorem test_vadd_bytes : let s := lanesOf 3 [(1, 0x7F8001FE), (2, 0x01FF0103)] []
    vAfter (.vadd g 6 (.v 1) (.v 2) .i8 false) s 6 2 = 0x807F0201 ∧ vAfter (.vadd g 6 (.v 1) (.v 2) .i8 true) s 6 2 = 0x7F800201 ∧
    vAfter (.vadd g 6 (.v 1) (.v 2) .n8 true) s 6 2 = 0x80FF02FF ∧ vAfter (.vadd g 6 (.v 1) (.v 2) .n8 true) s 6 3 = 0 := by decide +kernel

/-- R163: the CRC-32C of 32 zero bytes, before its inversion. -/
theorem test_csum_zero_bytes : sAfter (.csum g 5 5 3 false) (lanesOf 8 [] [(5, 0xFFFFFFFF)]) 5 = 0x756EC955 := by decide +kernel

/-- R108: the two halves of a constant. -/
theorem test_smovi_halves : sAfter (.smovi g 4 false 0xFFFFFFFE) (lanesOf 1 [] []) 4 = 0xFFFFFFFFFFFFFFFE ∧
    sAfter (.smovi g 4 true 0x400) (lanesOf 1 [] [(4, 5)]) 4 = 0x40000000005 := by decide +kernel

/-- The twiddle of k = 1, N = 4 and the butterfly after R158. -/
theorem test_ftwid_quarter : let s := lanesOf 1 [(4, 1)] [(1, 4)]
    vAfter (.ftwid g 6 (.v 4) (.s 1) Rnd.rne) s 6 0 = 0 ∧ vAfter (.ftwid g 6 (.v 4) (.s 1) Rnd.rne) s 7 0 = 0xBF800000 := by decide +kernel

theorem test_fbfly_four_points : let s := lanesOf 1 [(0, 0x3F800000), (2, 0x3F000000), (3, 0x3E800000), (7, 0xBF800000)] []
    let i := Instr.fbfly g 8 (.v 0) (.v 2) (.v 6) .f32 Rnd.rne
    vAfter i s 8 0 = 0x3FA00000 ∧ vAfter i s 9 0 = 0xBF000000 ∧ vAfter i s 10 0 = 0x3F400000 ∧ vAfter i s 11 0 = 0x3F000000 ∧
    fAfter i s = 0 := by decide +kernel

/-- The conversions after R127: result and flags (OF 4, UF 2, NX 1). -/
theorem test_fcvt_table : let f (x : W32) (t : FTy) (r : Rnd) : W32 × BitVec 5 :=
      let i := Instr.fcvt g 2 (.v 1) (.f .f32) (.f t) 0 r
      (vAfter i (lanesOf 1 [(1, x)] []) 2 0, fAfter i (lanesOf 1 [(1, x)] []))
    f 0x3FB504F3 .bf16 ⟨.rne, false⟩ = (0x3FB5, 1) ∧ f 0x3F808000 .bf16 ⟨.rne, false⟩ = (0x3F80, 1) ∧
    f 0x3F808000 .bf16 ⟨.rup, false⟩ = (0x3F81, 1) ∧ f 0x3F800000 .f8e4 ⟨.rne, false⟩ = (0x38, 0) ∧
    f 0x43FA0000 .f8e4 ⟨.rne, false⟩ = (0x7E, 5) ∧ f 0x3A800000 .f8e4 ⟨.rne, false⟩ = (0, 3) ∧ f 0x3A800000 .f8e4 ⟨.rne, true⟩ = (0, 3) ∧
    f 0x47800000 .f8e5 ⟨.rtz, false⟩ = (0x7B, 5) ∧ f 0x7F800000 .f8e5 ⟨.rtz, false⟩ = (0x7C, 0) := by decide +kernel

/-- R128: 2 to 0.5 and to -1.5. -/
theorem test_fexp2_halves : vAfter (.fexp2 g 2 (.v 1) Rnd.rne) (lanesOf 1 [(1, 0x3F000000)] []) 2 0 = 0x3FB504F3 ∧
    vAfter (.fexp2 g 2 (.v 1) Rnd.rne) (lanesOf 1 [(1, 0xBFC00000)] []) 2 0 = 0x3EB504F3 := by decide +kernel

/-- R77: 0xE8 is the majority of three. -/
theorem test_plop_majority : let t : Team := { placeTeam with act := 0xFF, preg := [(1, 0xF0), (2, 0xCC), (3, 0xAA)] }
    (((left (.plop g 4 1 2 3 0xE8) (ts fun _ => t)).team? 0 0).getD placeTeam).rp 4 = 0xE8 := by decide +kernel

/-- R179's window of stride 2 over a 4 by 4 tensor at 0x100. -/
theorem test_view_elem : let v : View := ⟨BitVec.ofNat 256 ((2 ^ 24 - 1) * 2 ^ 24 + 3 * 2 ^ 8 + 2 + 2 ^ 64 * ((2 ^ 24 - 1) * 2 ^ 24 + 3 * 2 ^ 8 + 2) +
        2 ^ 136 + 2 ^ 200 + 2 ^ 63 + 2 ^ 62), ⟨.pack, 0x100, 2, 2, [1, 4, 0, 0], [4, 4, 0, 0]⟩, none⟩
    (List.range 10).map (viewElem v) =
      [none, none, none, none, some 0x114, some 0x11C, none, some 0x134, some 0x13C, none] := by decide +kernel
/-! Arithmetic. -/

theorem witness_ScalarResults : (∃ f, Claims.scalarForm (.sadd g 63 62 63 .i64 false) = some (g, 63, f)) ∧
    TeamIssues (.sadd g 63 62 63 .i64 false) g (ts id) 0 0 placeTeam ∧
    RidgeIssues (.sadd g 63 62 63 .i64 false) g (rs id) 0 placeRidge := ⟨⟨_, rfl⟩, by decide +kernel⟩

theorem witness_CrossLaneScalar : (∃ v fl, Claims.crossForm (Team.x (four placeTeam) (ts four) 0 0 g) (.pcnt g 63 95) = some (g, 63, v, fl)) ∧
    TeamIssues (.pcnt g 63 95) g (ts four) 0 0 (four placeTeam) := ⟨⟨_, _, rfl⟩, by decide +kernel⟩

/-- What a VADD lacks of slices in a state. -/
def vaddLacks (s : State) : Option Nat :=
  let t := four placeTeam
  s.lacking 0 t 0 ((vecRun (.vadd g 63 (.v 62) (.s 63) .i32 true) (Team.x t s 0 0 g) s 63 1 (fun l => packedOp .add .i32 true
    ((⟨s.core 0, t, []⟩ : Src).num false (.v 62) l) ((⟨s.core 0, t, []⟩ : Src).num false (.s 63) l) 0) fun _ => 0).needs 1 (passes (t.adm g)))

theorem witness_VectorResult : (∃ f, Claims.vectorForm (.vadd g 63 (.v 62) (.s 63) .i32 true) = some (g, 63, 1, f)) ∧
    (ts four).stashOk = true ∧ TeamIssues (.vadd g 63 (.v 62) (.s 63) .i32 true) g (ts four) 0 0 (four placeTeam) ∧
    vaddLacks (ts four) = none := ⟨⟨_, rfl⟩, by decide +kernel⟩

/-- A team that holds all of its reservation. -/
theorem witness_VectorResult_short : let s := (ts four).modCore 0 fun c => { c with phys := (List.range 68).map fun k => (k + 1, ⟨0, 2, false⟩) }
    s.stashOk = true ∧ TeamIssues (.vadd g 63 (.v 62) (.s 63) .i32 true) g s 0 0 (four placeTeam) ∧ vaddLacks s = some 0 ∧
    (four placeTeam).adm g &&& below 0 = 0 ∧ (four placeTeam).wait = none := by decide +kernel

theorem witness_FloatResult : (∃ f, Claims.floatForm (Team.x (four placeTeam) (ts four) 0 0 g) (.fscos g 62 (.v 63) Rnd.rne) =
      some (g, 62, 2, f)) ∧
    (ts four).stashOk = true ∧ TeamIssues (.fscos g 62 (.v 63) Rnd.rne) g (ts four) 0 0 (four placeTeam) ∧
    (ts four).lacking 0 (four placeTeam) 0 ((vecRun (.fscos g 62 (.v 63) Rnd.rne) (Team.x (four placeTeam) (ts four) 0 0 g) (ts four) 62 2
      (fun l => (scosF false ((⟨(ts four).core 0, four placeTeam, []⟩ : Src).num false (.v 63) l)).bits)
      fun l => (scosF false ((⟨(ts four).core 0, four placeTeam, []⟩ : Src).num false (.v 63) l)).fl).needs 2
        (passes ((four placeTeam).adm g))) = none := ⟨⟨_, rfl⟩, by decide +kernel⟩

theorem witness_PredicateResults : (∃ v, Claims.predForm (Team.x (four placeTeam) (ts four) 0 0 g1) (.pset g1 95 0xFFFF) = some (g1, 95, v, 0)) ∧
    TeamIssues (.pset g1 95 0xFFFF) g1 (ts four) 0 0 (four placeTeam) ∧
    Claims.predFormM placeRidge (.pset g 95 1) = some (g, 95, true) ∧ RidgeIssues (.pset g 95 1) g (rs id) 0 placeRidge :=
  ⟨⟨_, rfl⟩, by decide +kernel⟩

/-! Control flow. -/

/-- A team of four lanes with entries on its stack. -/
def stk (l : List Entry) (t : Team) : Team := { four t with stk := l }
/-- The place of a header, and a reconvergence word that names it. -/
def recon (t : Team) : Team := { four t with hdrWord := placeHdr + 2 ^ 34 }
/-- The same state, but for a header as the body word at the team's pc, to which reconvergence goes. -/
def th (f : Team → Team) : State := { (State.reset.place placeHdr).setTeam 0 0 (f placeTeam) with cur := .team 0 0 }
def divAt : Entry := ⟨.div, 0x10008, 0x10000, 0xFF, 0⟩

theorem witness_Branches_whole : Claims.branchTo (four placeTeam).pc (four placeTeam).rs (.bra g 0xFFFFFF) = some (g, 0x10000) ∧
    TeamIssues (.bra g 0xFFFFFF) g (ts four) 0 0 (four placeTeam) ∧ Claims.GoodTarget (ts four) 0 1 0x10000 ∧
    (four placeTeam).adm g ≠ 0 ∧ (four placeTeam).adm g = (four placeTeam).act := by
  simp only [Claims.GoodTarget, Claims.Asks]; decide +kernel

theorem witness_Branches_none : let t : Team := { four placeTeam with preg := [] }
    Claims.branchTo t.pc t.rs (.bra g1 0xFFFFFF) = some (g1, 0x10000) ∧
    TeamIssues (.bra g1 0xFFFFFF) g1 (ts fun _ => t) 0 0 t ∧ t.adm g1 = 0 := by decide +kernel

theorem witness_Branches_diverge : let t := recon placeTeam
    Claims.branchTo t.pc t.rs (.bra g1 0xFFFFFF) = some (g1, 0x10000) ∧ TeamIssues (.bra g1 0xFFFFFF) g1 (th recon) 0 0 t ∧
    Claims.GoodTarget (th recon) 0 t.ctx 0x10000 ∧ t.adm g1 ≠ 0 ∧ t.adm g1 ≠ t.act ∧ hdrReconv t.hdrWord ≠ 0 ∧
    Claims.GoodTarget (Claims.asked (th recon) 0 t.ctx 0x10000) 0 t.ctx (wrap 64 ((t.hdrAddr : Int) + 8 * hdrReconv t.hdrWord)) ∧
    t.stk = [] ∧ t.stk.length + 1 < t.hdr.depth := by
  simp only [Claims.GoodTarget, Claims.Asks]; decide +kernel

/-- The entry on top that a second divergence uses, and a stack without room. -/
theorem witness_Branches_again : let e : Entry := ⟨.div, wrap 64 (0x10000 + 8 * hdrReconv (placeHdr + 2 ^ 34)), 0, 0xF, 0⟩
    let f (t : Team) : Team := { recon t with stk := [e] }
    TeamIssues (.bra g1 0xFFFFFF) g1 (th f) 0 0 (f placeTeam) ∧ (f placeTeam).stk = e :: [] ∧ e.kind = .div ∧ e.tmask = 0 ∧
    (f placeTeam).adm g1 ≠ 0 ∧ (f placeTeam).adm g1 ≠ (f placeTeam).act ∧ Claims.GoodTarget (th f) 0 1 0x10000 ∧ Claims.GoodTarget (Claims.asked (th f) 0 1 0x10000) 0 1 e.pc1 ∧
    Claims.branchTo (f placeTeam).pc (f placeTeam).rs (.bra g1 0xFFFFFF) = some (g1, 0x10000) ∧
    e.pc1 = wrap 64 (((f placeTeam).hdrAddr : Int) + 8 * hdrReconv (f placeTeam).hdrWord) ∧ hdrReconv (f placeTeam).hdrWord ≠ 0 := by
  simp only [Claims.GoodTarget, Claims.Asks]; decide +kernel

theorem witness_Branches_full : let f (t : Team) : Team := { recon t with stk := List.replicate 15 (⟨.lead, 0, 0, 0xF, 0⟩ : Entry) }
    TeamIssues (.bra g1 0xFFFFFF) g1 (th f) 0 0 (f placeTeam) ∧ (f placeTeam).hdr.depth ≤ (f placeTeam).stk.length + 1 ∧
    (f placeTeam).stk.head? = some ⟨.lead, 0, 0, 0xF, 0⟩ ∧ Claims.GoodTarget (th f) 0 1 0x10000 ∧
    (f placeTeam).adm g1 ≠ 0 ∧ (f placeTeam).adm g1 ≠ (f placeTeam).act ∧ hdrReconv (f placeTeam).hdrWord ≠ 0 ∧ Claims.GoodTarget (Claims.asked (th f) 0 1 0x10000) 0 1 (wrap 64 (((f placeTeam).hdrAddr : Int) + 8 * hdrReconv (f placeTeam).hdrWord)) := by
  simp only [Claims.GoodTarget, Claims.Asks]; decide +kernel

/-- A header that names no reconvergence; a target that is no header, of a branch and of a test. -/
theorem witness_Branches_traps : let t := four placeTeam
    TeamIssues (.bra g1 0xFFFFFF) g1 (ts four) 0 0 t ∧ Claims.GoodTarget (ts four) 0 1 0x10000 ∧ t.adm g1 ≠ 0 ∧ t.adm g1 ≠ t.act ∧
    hdrReconv t.hdrWord = 0 ∧ Claims.branchTo t.pc t.rs (.bra g 0) = some (g, 0x10008) ∧ TeamIssues (.bra g 0) g (ts four) 0 0 t ∧
    (Claims.testTo (Team.x t (ts four) 0 0 g) (.bany g 1 true 0)).map (fun x => (x.1, x.2.1)) = some (g, 0x10008) ∧
    TeamIssues (.bany g 1 true 0) g (ts four) 0 0 t ∧ t.adm g ≠ 0 ∧ 0x10008 % 8 = 0 ∧ Claims.Asks (ts four) 0 1 0x10008 ∧ (ts four).badTarget 0 1 0x10008 = true := by
  simp only [Claims.GoodTarget, Claims.Asks]; decide +kernel

theorem witness_Branches_test : TeamIssues (.ball g 1 false 0xFFFFFF) g (ts four) 0 0 (four placeTeam) ∧
    Claims.testTo (Team.x (four placeTeam) (ts four) 0 0 g) (.ball g 1 false 0xFFFFFF) = some (g, 0x10000, false) ∧
    Claims.GoodTarget (ts four) 0 1 0x10000 := by
  simp only [Claims.GoodTarget, Claims.Asks]; decide +kernel

theorem witness_CallAndRet_call : TeamIssues (.call g1 (.off 0xFFFFFF)) g1 (ts four) 0 0 (four placeTeam) ∧
    Claims.GoodTarget (ts four) 0 1 (Claims.callTo (four placeTeam).pc (four placeTeam).rs (.off 0xFFFFFF)) ∧
    (four placeTeam).stk.length + 1 < (four placeTeam).hdr.depth := by
  simp only [Claims.GoodTarget, Claims.Asks]; decide +kernel

theorem witness_CallAndRet_call_traps : TeamIssues (.call g (.off 0)) g (ts four) 0 0 (four placeTeam) ∧ (four placeTeam).adm g ≠ 0 ∧
    Claims.Asks (ts four) 0 1 (Claims.callTo (four placeTeam).pc (four placeTeam).rs (.off 0)) ∧ (ts four).badTarget 0 1 (Claims.callTo (four placeTeam).pc (four placeTeam).rs (.off 0)) = true ∧
    (let f := stk (List.replicate 15 divAt)
    TeamIssues (.call g (.off 0xFFFFFF)) g (ts f) 0 0 (f placeTeam) ∧ (f placeTeam).hdr.depth ≤ (f placeTeam).stk.length + 1 ∧
    Claims.GoodTarget (ts f) 0 1 (Claims.callTo (f placeTeam).pc (f placeTeam).rs (.off 0xFFFFFF))) := by
  simp only [Claims.GoodTarget, Claims.Asks]; decide +kernel

/-- A team called by eight lanes, with a DIV entry above the CALL entry, or without. -/
def called (above : List Entry) (t : Team) : Team := stk (above ++ [⟨.call, 0x10000, 0, 0xFF, 0⟩]) t

theorem witness_CallAndRet_some : let t := called [divAt] placeTeam
    TeamIssues (.ret g1) g1 (ts (called [divAt])) 0 0 t ∧ (∀ a ∈ [divAt], a.kind = .div) ∧ t.adm g1 ≠ 0 ∧
    t.act &&& ~~~t.adm g1 ≠ 0 ∧ Claims.GoodTarget (ts (called [divAt])) 0 t.ctx 0x10000 := by
  simp only [Claims.GoodTarget, Claims.Asks]; decide +kernel

theorem witness_CallAndRet_bad : let e : Entry := ⟨.call, 0x10008, 0, 0xFF, 0⟩
    TeamIssues (.ret g) g (ts (stk [e])) 0 0 (stk [e] placeTeam) ∧ (stk [e] placeTeam).stk = [] ++ e :: [] ∧ e.kind = .call ∧
    (stk [e] placeTeam).adm g ≠ 0 ∧ Claims.Asks (ts (stk [e])) 0 1 e.pc1 ∧ (ts (stk [e])).badTarget 0 1 e.pc1 = true := by
  simp only [Claims.Asks]; decide +kernel

theorem witness_CallAndRet_last : let t := called [] placeTeam
    TeamIssues (.ret g) g (ts (called [])) 0 0 t ∧ t.stk = [] ++ ⟨.call, 0x10000, 0, 0xFF, 0⟩ :: [] ∧ t.adm g = t.act ∧ t.adm g ≠ 0 ∧
    Claims.goesOn ⟨.call, 0x10000, 0, 0xFF, 0⟩ [] = false ∧ Claims.GoodTarget (ts (called [])) 0 1 0x10000 := by
  simp only [Claims.GoodTarget, Claims.Asks]; decide +kernel

/-- A reconvergence header that is none. -/
theorem witness_Branches_recon : let f (t : Team) : Team := { four t with hdrWord := placeHdr + 2 ^ 34 }
    TeamIssues (.bra g1 0xFFFFFF) g1 (ts f) 0 0 (f placeTeam) ∧ Claims.GoodTarget (ts f) 0 1 0x10000 ∧ (f placeTeam).adm g1 ≠ 0 ∧
    (f placeTeam).adm g1 ≠ (f placeTeam).act ∧ hdrReconv (f placeTeam).hdrWord ≠ 0 ∧
    Claims.Asks (Claims.asked (ts f) 0 1 0x10000) 0 1 0x10008 ∧ (Claims.asked (ts f) 0 1 0x10000).badTarget 0 1 0x10008 = true := by
  simp only [Claims.GoodTarget, Claims.Asks]; decide +kernel

/-- A target that is no multiple of 8; one whose page's walk must wait for a walker. -/
theorem witness_Branches_wait : let w : State := { ts four with walks := (List.range 64).map fun k => ⟨0, 0, 1, 0x50000 + 0x10000 * k, none⟩ }
    TeamIssues (.jmps g 1) g (ts four) 0 0 (four placeTeam) ∧ TeamIssues (.jmps g 1) g w 0 0 (four placeTeam) ∧
    ¬ Claims.Asks w 0 1 0x40000 := by simp only [Claims.Asks]; decide +kernel

theorem witness_LanesLeaveAndLeader_reconv : let t := stk [divAt] placeTeam
    TeamIssues (.reconv g1) g1 (ts (stk [divAt])) 0 0 t ∧ divAt.kind = .div ∧ t.adm g1 ≠ 0 ∧ t.act &&& ~~~t.adm g1 ≠ 0 := by
  decide +kernel

theorem witness_LanesLeaveAndLeader_pending : let e : Entry := { divAt with tmask := 0xF0 }
    let t := stk [e] placeTeam
    TeamIssues (.reconv g) g (ts (stk [e])) 0 0 t ∧ e.kind = .div ∧ t.adm g = t.act ∧ t.adm g ≠ 0 ∧ e.tmask ≠ 0 := by decide +kernel

theorem witness_LanesLeaveAndLeader_pop : let t := stk [divAt] placeTeam
    TeamIssues (.reconv g) g (ts (stk [divAt])) 0 0 t ∧ t.adm g = t.act ∧ t.adm g ≠ 0 ∧ divAt.tmask = 0 ∧ divAt.omask ≠ 0 ∧
    Claims.goesOn divAt [] = false := by decide +kernel

theorem witness_LanesLeaveAndLeader_break : let t := stk (List.replicate 16 divAt) placeTeam
    TeamIssues (.brk g1 15) g1 (ts (stk (List.replicate 16 divAt))) 0 0 t ∧ (∀ e ∈ t.stk.take 16, e.kind = .div) ∧
    15 < t.stk.length ∧ t.adm g1 ≠ 0 ∧ t.act &&& ~~~t.adm g1 ≠ 0 := by decide +kernel

theorem witness_LanesLeaveAndLeader_exit_some : let t := stk [divAt] placeTeam
    TeamIssues (.exit g1) g1 (ts (stk [divAt])) 0 0 t ∧ (∀ e ∈ t.stk, e.kind ≠ .lead) ∧ t.adm g1 ≠ 0 ∧ t.act &&& ~~~t.adm g1 ≠ 0 := by
  decide +kernel

theorem witness_LanesLeaveAndLeader_exit_all : TeamIssues (.exit g) g (ts four) 0 0 (four placeTeam) ∧
    (four placeTeam).adm g = (four placeTeam).act ∧ (four placeTeam).adm g ≠ 0 ∧ (four placeTeam).stk = [] := by decide +kernel

theorem witness_LanesLeaveAndLeader_elect : TeamIssues (.elect g 63) g (ts four) 0 0 (four placeTeam) ∧
    inMask ((four placeTeam).adm g) 0 = true ∧ (four placeTeam).stk = [] ∧ (four placeTeam).stk.length + 1 < (four placeTeam).hdr.depth := by
  decide +kernel

theorem witness_LanesLeaveAndLeader_elect_traps : let e : Entry := ⟨.lead, 0, 0, 0xF, 0⟩
    TeamIssues (.elect g 63) g (ts (stk [e])) 0 0 (stk [e] placeTeam) ∧ (stk [e] placeTeam).adm g ≠ 0 ∧
    e ∈ (stk [e] placeTeam).stk ∧ e.kind = .lead ∧
    (let f := stk (List.replicate 15 divAt)
    TeamIssues (.elect g 63) g (ts f) 0 0 (f placeTeam) ∧ (f placeTeam).adm g ≠ 0 ∧ (∀ e ∈ (f placeTeam).stk, e.kind ≠ .lead) ∧
    (f placeTeam).hdr.depth ≤ (f placeTeam).stk.length + 1) := by decide +kernel

theorem witness_LanesLeaveAndLeader_endlead : let e : Entry := ⟨.lead, 0, 0, 0xF, 0⟩
    TeamIssues (.endlead g) g (ts (stk [e])) 0 0 (stk [e] placeTeam) ∧ (stk [e] placeTeam).stk = [e] ∧ e.kind = .lead := by decide +kernel

theorem witness_NopHintYield_nop : TeamIssues (.nop g) g (ts id) 0 0 placeTeam ∧ RidgeIssues (.nop g) g (rs id) 0 placeRidge := by decide +kernel

/-- A pre-emption request has reached the block. -/
def wanted (s : State) : State := s.modBlock 1 fun b => { b with req := some 0 }

theorem witness_NopHintYield_hint : TeamIssues (.phint g 0 15 63 255) g (ts four) 0 0 (four placeTeam) ∧ (ts four).requested 1 = false := by
  decide +kernel

theorem witness_NopHintYield_frozen : TeamIssues (.phint g 0 15 63 255) g (wanted (ts four)) 0 0 (four placeTeam) ∧
    (wanted (ts four)).requested 1 = true ∧ (four placeTeam).adm g ≠ 0 := by decide +kernel

theorem witness_NopHintYield_yield : TeamIssues (.yield g) g (ts four) 0 0 (four placeTeam) ∧ (four placeTeam).adm g ≠ 0 := by decide +kernel

theorem witness_ControlOfRidge_branch : Claims.branchTo placeRidge.pc placeRidge.rs (.bra g 0xFFFFFF) = some (g, 0x10000) ∧
    RidgeIssues (.bra g 0xFFFFFF) g (rs id) 0 placeRidge ∧ Claims.GoodTarget (rs id) 0 1 0x10000 := by
  simp only [Claims.GoodTarget, Claims.Asks]; decide +kernel

theorem witness_ControlOfRidge_call : RidgeIssues (.call g (.off 0xFFFFFF)) g (rs id) 0 placeRidge ∧ placeRidge.adm g = true ∧
    Claims.GoodTarget (rs id) 0 1 (Claims.callTo placeRidge.pc placeRidge.rs (.off 0xFFFFFF)) ∧ placeRidge.rstk.length < 16 := by
  simp only [Claims.GoodTarget, Claims.Asks]; decide +kernel

/-- A return stack that is full. -/
theorem witness_ControlOfRidge_full : let r : Ridge := { placeRidge with rstk := List.replicate 16 0x10000 }
    RidgeIssues (.call g (.off 0xFFFFFF)) g (rs fun _ => r) 0 r ∧ r.adm g = true ∧ 16 ≤ r.rstk.length ∧
    Claims.GoodTarget (rs fun _ => r) 0 1 (Claims.callTo r.pc r.rs (.off 0xFFFFFF)) := by
  simp only [Claims.GoodTarget, Claims.Asks]; decide +kernel

theorem witness_ControlOfRidge_ret : let r : Ridge := { placeRidge with rstk := [0x10000] }
    RidgeIssues (.ret g) g (rs fun _ => r) 0 r ∧ r.adm g = true ∧ r.rstk = 0x10000 :: [] ∧ Claims.GoodTarget (rs fun _ => r) 0 1 0x10000 := by
  simp only [Claims.GoodTarget, Claims.Asks]; decide +kernel

theorem witness_ControlOfRidge_exit : RidgeIssues (.exit g) g (rs id) 0 placeRidge ∧ placeRidge.adm g = true := by decide +kernel

/-- Trap vectors are set. -/
def vectored (s : State) : State := s.modCtx 1 fun x => { x with trpVec := 0x10000, trpMvec := 0x10000 }

theorem witness_TrapEntry : Claims.trapOf (.trap g 0xFFFFFFFF) = some (g, 5, 0xFFFFFFFF) ∧
    TeamIssues (.trap g 0xFFFFFFFF) g (vectored (ts id)) 0 0 placeTeam ∧ placeTeam.adm g ≠ 0 ∧
    ((vectored (ts id)).ctx 1).trpVec ≠ 0 ∧ ((vectored (ts id)).ctx 1).dbgBkfreeze = false ∧ placeTeam.stk.length < placeTeam.hdr.depth ∧
    Claims.trapOf (.bkpt g 0) = some (g, 6, 0) ∧ RidgeIssues (.bkpt g 0) g (vectored (rs id)) 0 placeRidge ∧ placeRidge.adm g = true ∧
    placeRidge.trap = none ∧ ((vectored (rs id)).ctx 1).trpMvec ≠ 0 ∧ ((vectored (rs id)).ctx 1).dbgBkfreeze = false := by decide +kernel

/-- A trap entry that resumes at a place. -/
def trapAt (pc : Nat) : Entry := ⟨.trap, pc, 0, 0xF, 0⟩

theorem witness_TrapReturn_header : let e := trapAt 0x10000
    TeamIssues (.tret g) g (ts (stk [e])) 0 0 (stk [e] placeTeam) ∧ g.guard.val = 0 ∧ e.kind = .trap ∧ e.omask ≠ 0 ∧ e.pc1 % 2 = 0 ∧
    Claims.Asks (ts (stk [e])) 0 1 e.pc1 ∧ (ts (stk [e])).resumeAt 0 1 e.pc1 ≠ .bad ∧
    (Claims.asked (ts (stk [e])) 0 1 e.pc1).resumeAt 0 1 e.pc1 = .header := by simp only [Claims.Asks]; decide +kernel

theorem witness_TrapReturn_body : let e := trapAt 0x10008
    TeamIssues (.tret g) g (ts (stk [e])) 0 0 (stk [e] placeTeam) ∧ Claims.Asks (ts (stk [e])) 0 1 e.pc1 ∧
    (ts (stk [e])).resumeAt 0 1 e.pc1 ≠ .bad ∧ (Claims.asked (ts (stk [e])) 0 1 e.pc1).resumeAt 0 1 e.pc1 = .body 0x10000 placeHdr := by
  simp only [Claims.Asks]; decide +kernel

/-- A word on a page that is not mapped; a word of no body. -/
theorem witness_TrapReturn_unread : let s (n : Nat) : State := ts (stk [trapAt n])
    TeamIssues (.tret g) g (s 0x40000) 0 0 (stk [trapAt 0x40000] placeTeam) ∧ Claims.Asks (s 0x40000) 0 1 0x40000 ∧
    (s 0x40000).resumeAt 0 1 0x40000 ≠ .bad ∧ (Claims.asked (s 0x40000) 0 1 0x40000).resumeAt 0 1 0x40000 = .unread ∧
    TeamIssues (.tret g) g (s 0x10020) 0 0 (stk [trapAt 0x10020] placeTeam) ∧ Claims.Asks (s 0x10020) 0 1 0x10020 ∧
    (s 0x10020).resumeAt 0 1 0x10020 = .bad := by simp only [Claims.Asks]; decide +kernel

theorem witness_TrapReturn_ridge : let r : Ridge := { placeRidge with trap := some (0x10000, 1, 2) }
    RidgeIssues (.tret g) g (rs fun _ => r) 0 r ∧ r.trap = some (0x10000, 1, 2) ∧ Claims.Asks (rs fun _ => r) 0 1 0x10000 ∧
    (rs fun _ => r).resumeAt 0 1 0x10000 ≠ .bad ∧ (Claims.asked (rs fun _ => r) 0 1 0x10000).resumeAt 0 1 0x10000 = .header := by
  simp only [Claims.Asks]; decide +kernel

theorem witness_HaltRaisesTheLine : TeamIssues (.halt g 63) g (ts id) 0 0 placeTeam ∧ placeTeam.adm g ≠ 0 ∧
    ((ts id).partn ((ts id).partOf (stackOf 0))).halting = none ∧ Claims.trapOf (.trap g 42) = some (g, 5, 42) ∧
    TeamIssues (.trap g 42) g (ts id) 0 0 placeTeam ∧ ((ts id).ctx 1).trpVec = 0 ∧ ((ts id).ctx 1).dbgBkfreeze = false := by decide +kernel

theorem witness_HaltRaisesTheLine_ridge : RidgeIssues (.halt g 63) g (rs id) 0 placeRidge ∧ placeRidge.adm g = true ∧
    ((rs id).partn ((rs id).partOf (stackOf 0))).halting = none ∧ RidgeIssues (.bkpt g 42) g (rs id) 0 placeRidge ∧
    Claims.trapOf (.bkpt g 42) = some (g, 6, 42) ∧ ((rs id).ctx 1).trpMvec = 0 ∧ ((rs id).ctx 1).dbgBkfreeze = false := by decide +kernel

theorem witness_WrongStreamTraps : Claims.teamOnly (.scat g 0 0 0 0) = true ∧ (rs id).cur = .ridge 0 ∧ (rs id).ridge? 0 = some placeRidge ∧
    Claims.otherClass (.pmov g (.vp 0 0)) = true ∧ Claims.ridgeOnly (.attn g 0 0 0 false false false false) = true ∧
    (ts id).cur = .team 0 0 ∧ (ts id).team? 0 0 = some placeTeam := by decide +kernel

/-- A register past the counts; a die without the gather engine; more than one lane active; a result in flight. -/
theorem witness_WrongStreamTraps_team : (∃ f, Claims.vectorForm (.vadd g 63 (.v 62) (.s 63) .i32 true) = some (g, 63, 1, f)) ∧
    (let f (t : Team) : Team := { four t with hdr := { t.hdr with nv := 63 } }
    (ts f).cur = .team 0 0 ∧ (ts f).team? 0 0 = some (f placeTeam) ∧
    .v 63 ∈ guardReg g ++ (iRegs (.vadd g 63 (.v 62) (.s 63) .i32 true)).1 ++ (iRegs (.vadd g 63 (.v 62) (.s 63) .i32 true)).2 ∧
    (f placeTeam).hdr.has (.v 63) = false) := ⟨⟨_, rfl⟩, by decide +kernel⟩

theorem witness_WrongStreamTraps_gather : Claims.Readable (.scat g 0 0 0 0) g { ts four with part := .p9440 } 0 0 (four placeTeam) ∧
    Claims.gatherForm (.scat g 0 0 0 0) = some g ∧ ({ ts four with part := .p9440 } : State).hasGather = false ∧
    Claims.Readable (.chain g 1 2 3) g (ts four) 0 0 (four placeTeam) ∧ Claims.leaderForm (.chain g 1 2 3) = some g ∧
    popcount (four placeTeam).act ≠ 1 := by unfold Claims.Readable; decide +kernel

theorem witness_WrongStreamTraps_early : let f (t : Team) : Team := { four t with check := true, shadows := [⟨.scalar 2, 3, 0, 1, 0, none, false, 0, 0⟩] }
    Claims.Readable (.sadd g 1 2 3 .i32 false) g (ts f) 0 0 (f placeTeam) ∧ (∃ d f, Claims.scalarForm (.sadd g 1 2 3 .i32 false) = some (g, d, f)) ∧
    unmetOf (f placeTeam).shadows (guardReg g ++ (iRegs (.sadd g 1 2 3 .i32 false)).1) ≠ [] ∧ (f placeTeam).check = true :=
  ⟨by unfold Claims.Readable; decide +kernel, ⟨_, _, rfl⟩, by decide +kernel⟩
/-! The machine as a whole. -/

/-- Whether a step answers a next state with a property. -/
def stepsTo (s : State) (f : State → Bool) : Bool := match step s with | .next s' => f s' | _ => false

theorem witness_StashOkKept : (State.reset.place 0).stashOk = true ∧ stepsTo (State.reset.place 0) State.stashOk = true ∧
    (ts four).stashOk = true ∧ stepsTo (ts four) (fun _ => true) = true := by decide +kernel

theorem witness_MemoryFormKept : (State.reset.place 0).memOk = true ∧ stepsTo (State.reset.place 0) State.memOk = true ∧
    stepsTo (ts four) State.memOk = true := by decide +kernel

theorem witness_StepRunsDecoded : Claims.TeamAt (State.reset.place 0) 0 0 placeTeam 0 ∧
    ((State.reset.place 0).agenda = .issue (.team 0 0) :: [] ∧ decode 0 = .ok (.nop g) ∧ (State.reset.place 0).chosen 0 = some 0 ∧
    ((State.reset.place 0).core 0).busy ≤ (State.reset.place 0).cycle ∧ placeRidge.due ≤ (State.reset.place 0).cycle) ∧
    Claims.RidgeAt (State.reset.place 0) 0 placeRidge 0 := ⟨⟨0, by decide +kernel⟩, by decide +kernel, ⟨0, by decide +kernel⟩⟩

theorem witness_StepRunsDecoded_ran : let u : Team := { placeTeam with pc := 0x10010, atHdr := true }
    let q : Ridge := { placeRidge with pc := 0x10010, atHdr := true }
    (ts id).team? 0 0 = some placeTeam ∧ (ts fun _ => u).team? 0 0 = some u ∧ u ≠ placeTeam ∧ u.wait = none ∧
    (rs id).ridge? 0 = some placeRidge ∧ (rs fun _ => q).ridge? 0 = some q ∧ q ≠ placeRidge ∧ q.wait = none ∧
    placeTeam.blocked = false ∧ placeTeam.trapped u = false := by decide +kernel

/-- A team that waited in a blocking instruction; one that trapped; one that waits between two passes; one that goes on waiting. -/
theorem witness_StepRunsDecoded_waits : let b : Team := { placeTeam with wait := some (.instr (.fwait g 16 2 false) 0 (0x10010, false)) }
    let u : Team := { placeTeam with pc := 0x10010, atHdr := true }
    let k : Team := { placeTeam with pc := 0x20000, atHdr := true, stk := [⟨.trap, 0x10008, 0, 1, 0⟩] }
    let p : Team := { placeTeam with wait := some (.passes (.vadd g 1 (.v 2) (.v 3) .i32 false) 1 0 (0x10010, true)) }
    (ts fun _ => b).team? 0 0 = some b ∧ b.blocked = true ∧ b.trapped u = false ∧ u ≠ b ∧ u.wait = none ∧
    (ts fun _ => k).team? 0 0 = some k ∧ placeTeam.trapped k = true ∧ k ≠ placeTeam ∧ k.wait = none ∧
    (ts fun _ => p).team? 0 0 = some p ∧ p ≠ placeTeam ∧ 1 ≠ placeTeam.lo := by decide +kernel

/-- The least and the greatest word of each unassigned range. -/
theorem witness_UnassignedOpcodeTraps : (∀ o ∈ [0x0F, 0x15, 0x1F, 0x4D, 0x4F, 0x63, 0x7F, 0x8C, 0x9F, 0xAB, 0xAF, 0xC8, 0xCF, 0xD5, 0xDF, 0xE0, 0xEF],
      Claims.unassigned (fld (o * 2 ^ 56) 56 8)) ∧
    Claims.TeamAt (State.reset.place (0xEF * 2 ^ 56)) 0 0 placeTeam (0xEF * 2 ^ 56) ∧
    Claims.RidgeAt (State.reset.place (0xEF * 2 ^ 56)) 0 placeRidge (0xEF * 2 ^ 56) :=
  ⟨by unfold Claims.unassigned; decide, ⟨0xEF * 2 ^ 56, by decide +kernel⟩, ⟨0xEF * 2 ^ 56, by decide +kernel⟩⟩

/-- The placed state with a word where the team stands at a header. -/
def hs (w : Nat) (f : Team → Team) : State :=
  let s := State.reset.place w
  s.setTeam 0 0 (f { placeTeam with atHdr := true })

/-- A word that is no header; a header that is a pre-emption point, with a request pending. -/
theorem witness_EnteringHeaders_header : let t : Team := { placeTeam with atHdr := true }
    Claims.TeamAtHeader (hs 0 id) 0 0 t 0 ∧ Claims.TeamAtHeader (hs (placeHdr + 2 ^ 7) id) 0 0 t (placeHdr + 2 ^ 7) ∧
    ((hs 0 id).agenda = [.issue (.team 0 0)] ∧ (wanted (hs (placeHdr + 2 ^ 7) id)).requested 1 = true ∧
      (hs (placeHdr + 2 ^ 7) id).requested 1 = false) ∧
    ¬ Claims.GoodHeader 0 false ∧ Claims.GoodHeader (placeHdr + 2 ^ 7) false ∧ fld (placeHdr + 2 ^ 7) 7 1 = 1 := by
  unfold Claims.TeamAtHeader Claims.GoodHeader
  refine ⟨⟨by decide, rfl, by decide +kernel, rfl, rfl, rfl, rfl, rfl, by decide +kernel, fun e r h => by cases h⟩,
    ⟨by decide, rfl, by decide +kernel, rfl, rfl, rfl, rfl, rfl, by decide +kernel, fun e r h => by cases h⟩, ?_⟩
  decide +kernel

/-- The header of the entry on top, which has lanes pending; a header on a page that is not mapped. -/
theorem witness_EnteringHeaders_places : let f (t : Team) : Team := { t with stk := [⟨.div, 0x10008, 0x10000, 0xFF, 0xF0⟩] }
    let n (t : Team) : Team := { t with pc := 0x40000 }
    ((hs 0 f).agenda = [.issue (.team 0 0)] ∧ ((hs 0 f).team? 0 0).isSome = true ∧ (hs 0 f).mayIssue 0 1 = true) ∧
    (hs 0 n).agenda = [.issue (.team 0 0)] ∧ (hs 0 n).mayIssue 0 1 = true ∧ (hs 0 n).fetch 0 1 (0x40000 / 8 * 8) = .unmapped := by
  decide +kernel

/-- A team that comes back to a body word. -/
theorem witness_EnteringHeaders_back : let f (t : Team) : Team := { t with pc := 0x10008, back := true }
    (hs 0 f).agenda = [.issue (.team 0 0)] ∧ (hs 0 f).team? 0 0 = some (f { placeTeam with atHdr := true }) ∧ (hs 0 f).mayIssue 0 1 = true ∧
    (hs 0 f).fetch 0 1 (0x10008 / 8 * 8) = .word 0 ∧ (hs 0 f).resumeAt 0 1 0x10008 = .body 0x10000 placeHdr := by decide +kernel

theorem witness_EncodeDecode : (Instr.vadd g 63 (.v 62) (.s 63) .i32 true).wf = true ∧ decode 0 = .ok (.nop g) := by decide

theorem witness_ElementArithmetic : ITy.i8.signed = true ∧ ITy.n8.signed = false := by decide

theorem witness_CarryAndMove_carry : (ts four).stashOk = true ∧ TeamIssues (.vaddc g1 63 (.v 62) (.v 63) 95 true) g1 (ts four) 0 0 (four placeTeam) ∧
    (ts four).lacking 0 (four placeTeam) 0 ((passes ((four placeTeam).adm g1)).map fun j => (j, 1)) = none := by decide +kernel

theorem witness_CarryAndMove_move : (ts four).stashOk = true ∧ TeamIssues (.vmov g1 (.vv 62 60) true) g1 (ts four) 0 0 (four placeTeam) ∧
    (ts four).lacking 0 (four placeTeam) 0 (vmovNeeds (Team.x (four placeTeam) (ts four) 0 0 g1) 60 2) = none := by decide +kernel

/-! Memory. The placed page maps virtual 0x10000 to physical 0x100000. -/

/-- The example of R284: stack 2, slice 37, pseudo-channel 156. -/
theorem test_memory_of : (ts id).homeOf 0x12345600 = (2, 37) ∧ (ts id).memoryOf 0x12345600 = .channel 2 156 := by decide +kernel

theorem reach {s : State} {c : Nat} {t : Team} {sp : Space} {n : Nat} {rd wr al : Bool} {ls : List Nat} {va key : Nat → Nat}
    (h : ∀ l ∈ ls, (al = true → va l % n = 0) ∧ (sp = .glob → s.walkWaits c t.ctx (va l) = false) ∧
      s.spanAt (t.who c) sp l (va l) n rd wr = .ok (key l) 0) :
    Claims.Reach s c t sp n rd wr al ls va key := fun l m => ⟨(h l m).1, (h l m).2.1, 0, (h l m).2.2⟩

theorem sound {s : State} {sp : Space} {n : Nat} {ls : List Nat} {key : Nat → Nat} (h : sp ≠ .pocket) : Claims.Sound s sp n ls key :=
  fun e => absurd e h

/-- A team of four lanes whose s1 holds an address. -/
def ptr (a : W64) (t : Team) : Team := { four t with sreg := [(1, a)] }
/-- The last word of a 64 KiB page, and its physical address. -/
def va : W64 := 0x1FFFC
def pa : Nat := 0x10FFFC

theorem witness_Loads_scalar : let i := Instr.ld g (.s 63) (.s 1) .glob .acq .b32 true 0
    let t := ptr va placeTeam
    (TeamIssues i g (ts (ptr va)) 0 0 t ∧ lowest (t.adm g) = some 0 ∧ (ts (ptr va)).acquiring t.uid = false ∧ Size.b32 ≠ .b128 ∧
      (ts (ptr va)).teamOf t.uid = some (tkey 0 0, t)) ∧
    Claims.Reach (ts (ptr va)) 0 t .glob 4 true false true [0] (Claims.addrOf (ts (ptr va)) 0 t .glob (.s 1) 0) (fun _ => pa) ∧
    Claims.Sound (ts (ptr va)) .glob 4 [0] (fun _ => pa) := ⟨by decide +kernel, reach (by decide +kernel), sound (by decide)⟩

theorem witness_Loads_pocket : let i := Instr.ld g (.s 63) (.s 1) .pocket .plain .b32 true 0
    let t := ptr 60 placeTeam
    (TeamIssues i g (ts (ptr 60)) 0 0 t ∧ lowest (t.adm g) = some 0 ∧ (ts (ptr 60)).acquiring t.uid = false ∧
      (ts (ptr 60)).teamOf t.uid = some (tkey 0 0, t)) ∧
    Claims.Reach (ts (ptr 60)) 0 t .pocket 4 true false true [0] (Claims.addrOf (ts (ptr 60)) 0 t .pocket (.s 1) 0) (fun l => pocketKey 2 l 60) ∧
    Claims.Sound (ts (ptr 60)) .pocket 4 [0] (fun l => pocketKey 2 l 60) :=
  ⟨by decide +kernel, reach (by decide +kernel), by unfold Claims.Sound; decide +kernel⟩

theorem witness_Loads_vector : let i := Instr.ld g1 (.v 60) (.s 1) .glob .plain .b128 false 0
    let t := ptr 0x1FFF0 placeTeam
    let s := ts (ptr 0x1FFF0)
    (s.stashOk = true ∧ TeamIssues i g1 s 0 0 t ∧ t.adm g1 ≠ 0 ∧ s.acquiring t.uid = false ∧ s.teamOf t.uid = some (tkey 0 0, t) ∧
      s.lacking 0 t 0 (loadNeeds 4 ((t.x s 0 0 g1).missing i (fun _ => true) s.cycle (s.core 0) s.seq (passes (t.adm g1)))
        (passes (t.adm g1))) = none) ∧
    Claims.Reach s 0 t .glob 16 true false true (lanes (t.adm g1)) (Claims.addrOf s 0 t .glob (.s 1) 0) (fun _ => 0x10FFF0) ∧
    Claims.Sound s .glob 16 (lanes (t.adm g1)) (fun _ => 0x10FFF0) := ⟨by decide +kernel, reach (by decide +kernel), sound (by decide)⟩

theorem witness_StoreWrites : let i := Instr.st g (.s 1) (.s 1) .glob .rel .b32 0
    let t := ptr va placeTeam
    (TeamIssues i g (ts (ptr va)) 0 0 t ∧ t.adm g ≠ 0 ∧ (ts (ptr va)).acquiring t.uid = false) ∧
    Claims.Reach (ts (ptr va)) 0 t .glob 4 false true true (Claims.lanesOf (t.adm g) true) (Claims.addrOf (ts (ptr va)) 0 t .glob (.s 1) 0)
      (fun _ => pa) :=
  ⟨by decide +kernel, reach (by decide +kernel)⟩

theorem witness_StoreWrites_pocket : let i := Instr.st g (.v 60) (.s 1) .pocket .rel .b128 0
    let t := ptr 48 placeTeam
    (TeamIssues i g (ts (ptr 48)) 0 0 t ∧ (ts (ptr 48)).owes t.uid (ts (ptr 48)).seq = false) ∧
    Claims.Reach (ts (ptr 48)) 0 t .pocket 16 false true true (Claims.lanesOf (t.adm g) false)
      (Claims.addrOf (ts (ptr 48)) 0 t .pocket (.s 1) 0) (fun l => pocketKey 2 l 48) :=
  ⟨by decide +kernel, reach (by decide +kernel)⟩

/-- A place past the pack; a misaligned address; a page that is not mapped. -/
theorem witness_StoreWrites_traps : let i := Instr.st g (.s 1) (.s 1) .glob .plain .b32 0
    (TeamIssues i g (ts (ptr 0x1FFFD)) 0 0 (ptr 0x1FFFD placeTeam) ∧ (ptr 0x1FFFD placeTeam).adm g ≠ 0 ∧
      (ts (ptr 0x1FFFD)).acquiring 2 = false ∧ (ts (ptr 0x1FFFD)).walkWaits 0 1 0x1FFFD = false) ∧
    (TeamIssues i g (ts (ptr 0x40000)) 0 0 (ptr 0x40000 placeTeam) ∧ (ts (ptr 0x40000)).walkWaits 0 1 0x40000 = false) ∧
    TeamIssues (.ld g (.s 63) (.s 1) .pack .plain .b32 false 0) g (ts (ptr 0x2000)) 0 0 (ptr 0x2000 placeTeam) := by decide +kernel

theorem witness_StoreWrites_traps_span : let w := (four placeTeam).who 0
    ((ts id).spanAt w .pack 0 0x2000 4 true false = .prot ∧ (ts id).spanAt w .glob 0 0x1FFFD 4 false true ≠ .prot ∧
      (ts id).spanAt w .glob 0 0x40000 4 false true = .unmapped) ∧ 0x1FFFD % 4 ≠ 0 ∧ 0x40000 % 4 = 0 ∧
    Claims.lanesOf ((four placeTeam).adm g) true = [0] := by decide +kernel

theorem witness_AtomicIssue : let i := Instr.red g (.s 1) (.s 1) .glob .rel .b32 false .add 0
    let j := Instr.atom g (.s 63) (.s 1) .glob .ar .b32 false (.s 1) .cas 0
    let k := Instr.atom g (.v 63) (.s 1) .glob .plain .b32 false (.s 1) .add 0
    let t := ptr va placeTeam
    let s := ts (ptr va)
    (TeamIssues i g s 0 0 t ∧ TeamIssues j g s 0 0 t ∧ TeamIssues k g s 0 0 t ∧ t.adm g ≠ 0 ∧ lowest (t.adm g) = some 0 ∧
    s.stashOk = true ∧ s.acquiring t.uid = false ∧ s.lacking 0 t 0 ((passes (t.adm g)).map fun j => (j, 1)) = none) ∧
    Claims.Reach s 0 t .glob 4 true true true [0] (Claims.addrOf s 0 t .glob (.s 1) 0) (fun _ => pa) ∧
    Claims.Reach s 0 t .glob 4 true true true (lanes (t.adm g)) (Claims.addrOf s 0 t .glob (.s 1) 0) (fun _ => pa) :=
  ⟨by decide +kernel, reach (by decide +kernel), reach (by decide +kernel)⟩

theorem witness_FenceAndPrefetch : TeamIssues (.fence g .ar) g (ts four) 0 0 (four placeTeam) ∧ (four placeTeam).adm g ≠ 0 ∧
    (ts four).acquiring 2 = false ∧ (ts four).reading 2 = false ∧ (ts four).teamOf 2 = some (tkey 0 0, four placeTeam) ∧
    TeamIssues (.prf g true (.s 1) 0) g (ts (ptr va)) 0 0 (ptr va placeTeam) ∧ (ts (ptr va)).acquiring 2 = false := by decide +kernel

/-- A view of four words in a row of eight at the end of the placed page, in w15. -/
def vw : View := ⟨BitVec.ofNat 256 (2 ^ 63 + 4 * 2 ^ 8 + 1 + 2 ^ 72 + 2 ^ 136 + 2 ^ 200), ⟨.glob, 0x1FFE0, 2, 1, [1, 0, 0, 0], [8, 0, 0, 0]⟩, none⟩
def viewed (t : Team) : Team := { four t with view := [(15, vw)] }
/-- The physical address of element l. -/
def vkey (l : Nat) : Nat := 0x10FFE0 + 4 * l

theorem witness_ViewAccess_load : let i := Instr.vld g 63 15 .plain .b32 false (.s 0) (some 95)
    let t := viewed placeTeam
    let s := ts viewed
    let el (l : Nat) := viewElem (t.viewOf 15) (Src.elemNo ⟨s.core 0, t, []⟩ (.s 0) l)
    (s.stashOk = true ∧ TeamIssues i g s 0 0 t ∧ t.adm g ≠ 0 ∧ s.acquiring t.uid = false ∧ (t.viewOf 15).valid = true ∧
    Size.b32.bytes = 2 ^ (t.viewOf 15).desc.esize ∧ (t.viewOf 15).desc.space = .glob ∧ s.teamOf t.uid = some (tkey 0 0, t) ∧
    s.compassHolds (t.who 0) (t.viewOf 15) false = false ∧
    s.lacking 0 t 0 (loadNeeds 1 ((t.x s 0 0 g).missing i (fun j => (t.viewOf 15).zf || (List.range 32).all fun l => (el (32 * j + l)).isSome)
      s.cycle (s.core 0) s.seq (passes (t.adm g))) (passes (t.adm g))) = none ∧
    ∀ l ∈ lanes (t.adm g), vkey l % 4 = 0) ∧
    Claims.Reach s 0 t .glob 4 true false false ((lanes (t.adm g)).filter fun l => (el l).isSome) (fun l => (el l).getD 0) vkey ∧
    Claims.Sound s .glob 4 (lanes (t.adm g)) vkey := ⟨by decide +kernel, reach (by decide +kernel), sound (by decide)⟩

theorem witness_ViewAccess_store : let i := Instr.vst g 63 15 .rel .b32 (.s 0)
    let t := viewed placeTeam
    let s := ts viewed
    let el (l : Nat) := viewElem (t.viewOf 15) (Src.elemNo ⟨s.core 0, t, []⟩ (.s 0) l)
    (TeamIssues i g s 0 0 t ∧ s.compassHolds (t.who 0) (t.viewOf 15) true = false) ∧
    Claims.Reach s 0 t .glob 4 false true false ((lanes (t.adm g)).filter fun l => (el l).isSome) (fun l => (el l).getD 0) vkey :=
  ⟨by decide +kernel, reach (by decide +kernel)⟩

/-! Accesses in flight, and the events of a core. -/

/-- A read of the last word of the placed page, for the placed team, into s63. -/
def acc : Access :=
  ⟨4, .read, 2, 0, 1, pa, 4, 0x1FFFC, 0, false, 0, 4, 0, [.scalar 63], 0, false, 0, false, [], none, false, none, false, none, false, []⟩
/-- The state with one access in flight. -/
def fl (a : Access) : State := { ts id with accs := [a] }
/-- A store of a word; the same word is owned by core 1. -/
def stA : Access := { acc with kind := .write [1, 2, 3, 4], dests := [] }

theorem clean (s : State) (h : s.eccLines = []) (g : s.cxlLost = []) : Claims.Clean s := by
  refine ⟨fun k => by rw [h]; rfl, fun k => ?_⟩
  rw [State.portLost, g]
  cases s.local_ k <;> cases s.memoryOf k <;> rfl

theorem unmarked {s : State} (h : Claims.Clean s) (k : Nat) : s.eccBad k = false := by
  have e (j : Nat) : s.eccLines.get false j = false := h.1 j
  simp [State.eccBad, e, h.2]

theorem known (s : State) (uid : Nat) (h : s.teamOf uid = none ∨ ∃ t, s.teamOf uid = some (0, t) ∧ s.teams.find 0 = some t) :
    Claims.Known s uid := by
  intro k t e
  rcases h with h | ⟨u, h, f⟩
  · rw [h] at e; cases e
  · rw [h] at e; cases e; exact f

theorem witness_StoresAndAtomicsPerformed_store :
    ((fl stA).access? 4 = some stA ∧ stA.len = [1, 2, 3, 4].length ∧ (fl stA).mayPerform stA = true ∧
      (fl stA).accHeld stA [1, 2, 3, 4] = false ∧ (fl stA).local_ stA.key = true ∧ stA.held = false) ∧ Claims.Known (fl stA) 2 ∧
    (let b : Access := { stA with held := true }
    (fl b).access? 4 = some b ∧ (fl b).mayPerform b = true ∧ (fl b).accHeld b [1, 2, 3, 4] = false) :=
  ⟨by decide +kernel, known _ _ (.inr ⟨placeTeam, by decide +kernel⟩), by decide +kernel⟩

/-- A watch of 64 granules of 64 bytes over the end of the page, and a slice whose ring is full. -/
def wch : Watch := ⟨0x10F000, 0x1000, 0, 0, true, 31, 0, 0x200, [(0, 64, 0x10F000)], [(0, 8, 0x300000)]⟩
def fullRing : Slice := ⟨[], List.replicate 65536 ⟨0, 0, 0, 1, 0, 0, 0, false⟩, [], 0, 0⟩
def heldState : State := { (fl stA).modCtx 1 (fun x => { x with watches := [(0, wch)] }) with
  slices := [((ts id).sliceNo pa, fullRing)], spillBase := 0x40000000 }

theorem witness_StoresAndAtomicsPerformed_held : heldState.access? 4 = some stA ∧ heldState.mayPerform stA = true ∧ heldState.accHeld stA [1, 2, 3, 4] = true ∧
    stA.held = false := by
  refine ⟨by decide +kernel, by decide +kernel, ?_, rfl⟩
  have h1 : heldState.slice (heldState.sliceNo pa) = fullRing := rfl
  have h2 : fullRing.ringFull = true := decide_eq_true (Nat.le_of_eq (List.length_replicate ..).symm)
  have h3 : heldState.granules pa = [(1, 0, 63)] := by decide +kernel
  have h4 : heldState.watch? 1 0 = some wch := by decide +kernel
  have h5 : heldState.memRead pa 4 = [0, 0, 0, 0] := by decide +kernel
  have h6 : stA.global = true ∧ heldState.local_ pa = true ∧ stA.key = pa ∧ stA.len = 4 := by decide +kernel
  simp [State.accHeld, State.mustHold, h1, h2, h3, h4, h5, h6, Slice.spills, wch]

theorem witness_StoresAndAtomicsPerformed_atomic : let a : Access := { acc with kind := .atomic .add 0 false 1 0 }
    ((fl a).access? 4 = some a ∧ (fl a).mayPerform a = true ∧ (fl a).local_ a.key = true ∧ (fl a).eccBad a.key = false ∧
    (fl a).accHeld a (toLe 4 1) = false ∧ a.held = false ∧ a.acq = false ∧ (fl a).onPath a = true) ∧ Claims.Known (fl a) 2 :=
  ⟨by decide +kernel, known _ _ (.inr ⟨placeTeam, by decide +kernel⟩)⟩

theorem witness_RevokeThenAcknowledge : let a : Access := { stA with stage := 1, revoke := [287] }
    let b : Access := { stA with stage := 1 }
    (fl a).access? 4 = some a ∧ 287 ∈ a.revoke ∧ (fl b).access? 4 = some b ∧ b.stage = 1 ∧ b.revoke = [] := by decide +kernel

theorem witness_ReadsDelivered : (fl acc).access? 4 = some acc ∧ (fl acc).mayPerform acc = true ∧ (fl acc).onPath acc = true ∧ (fl acc).eccBad acc.key = false ∧
    acc.acq = false ∧ acc.core < 65536 ∧ (fl acc).teamOf 2 = some (0, placeTeam) ∧ (fl acc).local_ acc.key = true ∧ ((fl acc).core 0).l1Line (acc.key / 128) = none ∧
    placeTeam.vers.find (acc.key / 128) = none ∧ acc.key % 128 + acc.len ≤ 128 ∧
    ((fl acc).partn ((fl acc).partOf (stackOf acc.core))).halting = none := by decide +kernel

theorem witness_CoreEvents_line : (State.reset.place 0).ctxsOn 0 = [1] ∧ ((State.reset.place 0).core 0).icLine 1 (256 * 0x101) = none ∧
    ((State.reset.place 0).stk (stackOf 0)).icache = [] ∧
    (State.reset.place 0).walkWaits 0 1 (256 * 0x101) = false ∧ Claims.Clean (State.reset.place 0) ∧
    (∃ e, (State.reset.place 0).translate 0 1 (256 * 0x101) = .ok e ∧ e.x = true ∧ (State.reset.place 0).local_ (e.phys (256 * 0x101)) = true) :=
  ⟨by decide +kernel, by decide +kernel, by decide +kernel, by decide +kernel, clean _ rfl rfl, ⟨⟨1, 0x10000, 16, 0x100000, true, true, true, 0⟩, by decide +kernel⟩⟩

/-- A result with flags, and one that enters the value table. -/
theorem witness_CoreEvents_result : ∀ sh ∈ [(⟨.scalar 1, 3, 0, 0, 1, none, false, 0, 0⟩ : Shadow), ⟨.entry 1 0, 3, 0, 0, 0, some (5, 1), false, 1, 0⟩, ⟨.scalar 1, 3, 0, 0, 1, none, false, 0, 9⟩],
    let t : Team := { placeTeam with shadows := [sh] }
    (ts fun _ => t).team? 0 0 = some t ∧ t.shadows[0]? = some sh ∧ sh.done = false ∧
      ((ts fun _ => t).cycle < sh.due ∨ sh.due ≤ (ts fun _ => t).cycle) := by decide +kernel

theorem witness_CoreEvents_slice : let s := (ts id).modCore 0 fun c => { c with phys := [(1, ⟨0, 2, false⟩)] }
    ((s.core 0).phys.find 1).isSome = true ∧ s.refs 0 1 = 0 ∧ s.slicePending 0 1 = false := by decide +kernel

/-- Two prefetches of one page, the first to the L2 only, and a miss of another core. -/
def walking : State := { ts id with walks := [⟨0, 0, 1, 0x1FF00, some true⟩, ⟨0, 0, 1, 0x1FFFC, some false⟩, ⟨0, 1, 1, 0x1FFF8, none⟩] }

theorem witness_CoreEvents_walk : let e : TlbE := ⟨1, 0x10000, 16, 0x100000, true, true, true, 0⟩
    (walking.walks.filter fun x => x.stack == 0)[1]? = some ⟨0, 0, 1, 0x1FFFC, some false⟩ ∧ Claims.Clean walking ∧
    (∀ x ∈ walking.walks, walking.walk x.ctx x.va = .ok e ∧ (walking.core 0).l1Line (e.phys x.va / 128) = none) := ⟨by decide +kernel, clean _ rfl rfl, by decide +kernel⟩

/-- Whether the tables a walk reads stand in this package. -/
def tablesHere (s : State) (va : Nat) : Nat → Nat → Nat → Bool
  | 0, _, _ => true
  | fuel + 1, lvl, t =>
    s.local_ (t + 8 * pteIndex va lvl) &&
      tablesHere s va fuel (lvl + 1) (fld (ofLe (s.homeRead (t + 8 * pteIndex va lvl) 8)) 8 48 * 256)

theorem walkFrom_free (s : State) (f ctx va : Nat) : ∀ fuel lvl t, tablesHere s va fuel lvl t = true →
    State.walkFrom { s with free := f } ctx va fuel lvl t = s.walkFrom ctx va fuel lvl t
  | 0, _, _, _ => rfl
  | fuel + 1, lvl, t, h => by
    simp only [tablesHere, Bool.and_eq_true] at h
    have e : State.homeRead { s with free := f } (t + 8 * pteIndex va lvl) 8 = s.homeRead (t + 8 * pteIndex va lvl) 8 := by
      have l : State.local_ { s with free := f } (t + 8 * pteIndex va lvl) = true := h.1
      simp only [State.homeRead, h.1, l, Bool.not_true, Bool.and_false]; rfl
    simp only [State.walkFrom, e, walkFrom_free s f ctx va fuel _ _ h.2]
    rfl

theorem walk_free (s : State) (f ctx va : Nat) (h : tablesHere s va 5 0 ((s.ctx ctx).ptroot * 4096) = true) :
    State.walk { s with free := f } ctx va = s.walk ctx va := by
  have e := walkFrom_free s f ctx va 5 0 _ h
  simp only [State.walk, show State.ctx { s with free := f } ctx = s.ctx ctx from rfl, e]
  rfl

theorem walking_here : ∀ x ∈ walking.walks, tablesHere walking x.va 5 0 ((walking.ctx x.ctx).ptroot * 4096) = true := by decide +kernel

theorem witness_CoreEvents_walk_free : ∀ x ∈ walking.walks, ∀ f, State.walk { walking with free := f } x.ctx x.va = walking.walk x.ctx x.va :=
  fun x hx f => walk_free walking f x.ctx x.va (walking_here x hx)

/-! Views and queues. -/

/-- Scalars 60 to 63 give a view of four words of descriptor 1. -/
def vscal (t : Team) : Team := { four t with sreg := [(60, 2 ^ 48 + 4 * 2 ^ 8 + 1), (61, 2 ^ 8), (62, 2 ^ 8), (63, 2 ^ 8)] }
/-- Descriptors stand from 0x10000 on, of which number 1 is a row of eight words. -/
def described (s : State) : State :=
  (s.modCtx 1 fun x => { x with tdescBase := 0x10000 }).memWrite 0x100040
    (toLe 8 0x1FFE0 ++ toLe 8 8 ++ toLe 8 (2 ^ 32 + 8) ++ List.replicate 40 0)
def dsc1 : Desc := ⟨.glob, 0x1FFE0, 2, 1, [1, 0, 0, 0], [8, 0, 0, 0]⟩

theorem witness_ViewsAndDescriptors_set : let t := vscal placeTeam
    let s := described (ts vscal)
    TeamIssues (.vwset g 15 60) g s 0 0 t ∧ t.adm g ≠ 0 ∧ s.acquiring t.uid = false ∧ s.teamOf t.uid = some (tkey 0 0, t) ∧
    s.walkWaits 0 t.ctx 0x10040 = false ∧ (s.ctx t.ctx).tdescBase + 64 * fld (Claims.viewBits t 60).toNat 48 10 = 0x10040 ∧
    s.spanAt (t.who 0) .glob 0 ((s.ctx t.ctx).tdescBase + 64 * fld (Claims.viewBits t 60).toNat 48 10) 64 true false = .ok 0x100040 0 ∧
    s.local_ 0x100040 = true ∧ (∀ b ∈ s.accs, b.core = 0 → b.isRead = false → b.key + b.len ≤ 0x100040 ∨ 0x100040 + 64 ≤ b.key) ∧
    0x100040 < 2 ^ 56 ∧ descOf (s.memRead 0x100040 64) = some dsc1 ∧ View.bad ⟨Claims.viewBits t 60, dsc1, none⟩ = false := by
  decide +kernel

theorem witness_ViewsAndDescriptors_clean : Claims.Clean (described (ts vscal)) := clean _ (by decide +kernel) (by decide +kernel)

/-- A descriptor of one byte in global memory. -/
theorem witness_ViewsAndDescriptors_descriptor : let t : Team := { placeTeam with sreg := [(1, 1023), (56, 0), (57, 0), (58, 2 ^ 32 + 1)] }
    let bs := (List.range 8).flatMap fun k => toLe 8 (t.rs (sregAt 56 k)).toNat
    let s := described (ts fun _ => t)
    TeamIssues (.tdset g 1 56) g s 0 0 t ∧ popcount t.act = 1 ∧ t.adm g ≠ 0 ∧ s.acquiring t.uid = false ∧ (t.rs 1).toNat < 1024 ∧
    (descOf bs).isSome = true ∧ s.walkWaits 0 t.ctx ((s.ctx t.ctx).tdescBase + 64 * (t.rs 1).toNat) = false ∧
    s.spanAt (t.who 0) .glob 0 ((s.ctx t.ctx).tdescBase + 64 * (t.rs 1).toNat) 64 false true = .ok 0x10FFC0 0 := by decide +kernel

theorem witness_ViewAdjustAndReturn_step : let t : Team := { viewed placeTeam with sreg := [(1, 0x80)] }
    let v := t.viewOf 15
    TeamIssues (.vwadj g 15 15 1 0 .stepSet) g (ts fun _ => t) 0 0 t ∧ t.adm g ≠ 0 ∧ (ts fun _ => t).acquiring t.uid = false ∧
    v.valid = true ∧ v.bad = false ∧ v.cnt 0 ≠ 0 ∧ -2 ^ 23 ≤ v.org 0 ∧ v.org 0 < 2 ^ 23 ∧ sgn 8 0x80 = -128 ∧ ¬ v.desc.rank ≤ 0 ∧
    (∏ k : Fin 4, (if k = 0 then v.cnt 0 else v.cnt k.val)) ≤ 2 ^ 32 := by decide +kernel

theorem witness_ViewAdjustAndReturn_return : TeamIssues (.vret g 15) g (ts viewed) 0 0 (viewed placeTeam) ∧ (viewed placeTeam).adm g ≠ 0 ∧
    (ts viewed).owes 2 (ts viewed).seq = false ∧ ((viewed placeTeam).viewOf 15).valid = true ∧
    TeamIssues (.vret g 15) g (ts four) 0 0 (four placeTeam) ∧ ((four placeTeam).viewOf 15).valid = false := by decide +kernel

/-- A team of four lanes with q15 bound. -/
def bound (kind : Nat) (arg : W64) (t : Team) : Team := { four t with qb := [(15, ⟨kind, arg⟩)] }
/-- Items in list 63 of the context. -/
def listed (l : List RItem) (s : State) : State := s.modCtx 1 fun x => { x with ruck := [(63, l)] }

theorem witness_WorkLists_bind : TeamIssues (.qbind g 15 1 3) g (ts fun t => { t with sreg := [(1, 63)] }) 0 0 { placeTeam with sreg := [(1, 63)] } ∧
    (ts fun t => { t with sreg := [(1, 63)] }).bindOk 3 63 = true ∧ (ts fun t => { t with sreg := [(1, 64)] }).bindOk 3 64 = false ∧
    TeamIssues (.qbind g 15 1 3) g (ts fun t => { t with sreg := [(1, 64)] }) 0 0 { placeTeam with sreg := [(1, 64)] } := by decide +kernel

/-- A push to a delivery stream, and a pop from a port. -/
theorem witness_WorkLists_fault : Claims.badMove (bound 4 0 placeTeam) (.vmov g (.push 15 62) true) = some g ∧
    TeamIssues (.vmov g (.push 15 62) true) g (ts (bound 4 0)) 0 0 (bound 4 0 placeTeam) ∧ (bound 4 0 placeTeam).adm g ≠ 0 ∧
    Claims.badMove (bound 5 0 placeTeam) (.smov g (.pop 63 15)) = some g ∧
    TeamIssues (.smov g (.pop 63 15)) g (ts (bound 5 0)) 0 0 (bound 5 0 placeTeam) := by decide +kernel

/-- The last word of the placed page, and a place that is not mapped. -/
theorem witness_WorkLists_area : (ts id).area (unitWho 1) .glob 0x1FFF8 8 false true = ([(0x10FFF8, 0, 8)], none) ∧
    ((ts id).area (unitWho 1) .glob 0x40000 8 false true).2 ≠ none := by decide +kernel

theorem witness_WorkLists_push : let t := bound 3 63 placeTeam
    let s := ts (bound 3 63)
    TeamIssues (.smov g (.push 15 63)) g s 0 0 t ∧ TeamIssues (.vmov g (.push 15 62) true) g s 0 0 t ∧ t.adm g ≠ 0 ∧ (t.bind 15).kind = 3 ∧
    Claims.listOf t 15 = 63 ∧ s.owes t.uid s.seq = false ∧ s.unitsRun (s.ctx t.ctx).part = true ∧ s.listener t.ctx 63 = none ∧
    (s.ruckQ t.ctx 63).length + popcount (t.adm g) ≤ 2 ^ 20 := by decide +kernel

theorem witness_WorkLists_pop : let t := bound 3 63 placeTeam
    let s := listed (List.replicate 4 ⟨7, 0, 0⟩) (ts (bound 3 63))
    TeamIssues (.smov g (.pop 63 15)) g s 0 0 t ∧ TeamIssues (.vmov g (.pop 62 15) true) g s 0 0 t ∧ t.adm g ≠ 0 ∧
    (t.bind 15).kind = 3 ∧ Claims.listOf t 15 = 63 ∧ s.teamOf t.uid = some (tkey 0 0, t) ∧ s.unitsRun (s.ctx t.ctx).part = true ∧
    s.listener t.ctx 63 = none ∧ s.ruckQ t.ctx 63 = ⟨7, 0, 0⟩ :: List.replicate 3 ⟨7, 0, 0⟩ ∧ s.stashOk = true ∧
    (lanes (t.adm g)).length ≤ (s.ruckQ t.ctx 63).length ∧ s.lacking 0 t 0 (slicesEach 2 (lanes (t.adm g))) = none := by
  decide +kernel

theorem witness_WorkLists_try : let t := bound 3 63 placeTeam
    let s := ts (bound 3 63)
    TeamIssues (.qtry g (.s 63) 15 95 false) g s 0 0 t ∧ t.adm g ≠ 0 ∧ s.teamOf t.uid = some (tkey 0 0, t) ∧ s.unitsRun (s.ctx t.ctx).part = true ∧
    s.listener t.ctx 63 = none ∧ s.ruckQ t.ctx 63 = [] ∧ (listed [⟨7, 0, 0⟩] s).ruckQ t.ctx 63 = [⟨7, 0, 0⟩] ∧ (listed [⟨7, 0, 0⟩] s).listener t.ctx 63 = none := by
  decide +kernel

theorem witness_WorkLists_try_vector : let t := bound 3 63 placeTeam
    let s := listed [⟨7, 0, 0⟩] (ts (bound 3 63))
    s.stashOk = true ∧ TeamIssues (.qtry g (.v 62) 15 95 true) g s 0 0 t ∧ t.adm g ≠ 0 ∧ (t.bind 15).kind = 3 ∧ Claims.listOf t 15 = 63 ∧
    s.teamOf t.uid = some (tkey 0 0, t) ∧ s.unitsRun (s.ctx t.ctx).part = true ∧ s.listener t.ctx 63 = none ∧ s.ruckQ t.ctx 63 = [⟨7, 0, 0⟩] ∧
    s.lacking 0 t 0 (slicesEach 2 ((lanes (t.adm g)).take 1)) = none := by decide +kernel

theorem witness_WorkLists_refill : let t := bound 3 63 placeTeam
    let s := listed [⟨7, 0, 0⟩] (ts (bound 3 63))
    TeamIssues (.refill g 15 true 0xFFFFFF) g s 0 0 t ∧ (t.bind 15).kind = 3 ∧ (∀ e ∈ t.stk, e.kind ≠ .lead) ∧
    Claims.GoodTarget s 0 1 0x10000 ∧ s.teamOf t.uid = some (tkey 0 0, t) ∧ s.unitsRun (s.ctx t.ctx).part = true ∧
    s.listener t.ctx 63 = none ∧ s.ruckQ t.ctx 63 ≠ [] := by
  simp only [Claims.GoodTarget, Claims.Asks]; decide +kernel

theorem witness_WorkLists_refill_clean : Claims.Clean (listed [⟨7, 0, 0⟩] (ts (bound 3 63))) := clean _ (by decide +kernel) (by decide +kernel)

theorem witness_MessagesAndPorts_port_push : let t := bound 2 15 placeTeam
    let s := ts (bound 2 15)
    TeamIssues (.smov g (.push 15 62)) g s 0 0 t ∧ t.adm g ≠ 0 ∧ (t.bind 15).kind = 2 ∧ (∀ r ∈ ss 62 2, s.pendingReg 0 t r = false) ∧
    unmetOf t.shadows (ss 62 2) = [] ∧ s.owes t.uid s.seq = false ∧ s.trailRoom t.ctx 15 1 = true := by decide +kernel

/-- n elements on die at the stack of queue 15, in the same queue of another context. -/
def dieOf (n : Nat) : State := let s := ts (bound 2 15)
  { s with ctxs := [(1, s.ctx 1), (2, { Ctx.zero with trail := [(15, List.replicate n ⟨0, 0, none⟩)] })] }

theorem dieOf_count (n : Nat) : (dieOf n).trailDie 15 = n := by
  have h : ((ts (bound 2 15)).ctx 1).trail = [] := by decide +kernel
  have m : (dieOf n).stacksN = 4 := rfl
  simp only [State.trailDie, m]
  simp only [dieOf, List.foldl_cons, List.foldl_nil, h]
  simp

theorem dieOf_room (n : Nat) (h : (dieOf n).trailQ 1 15 = []) : (dieOf n).trailRoom 1 15 1 = true := by
  have u : (dieOf n).unitsRun ((dieOf n).ctx 1).part = true := rfl
  simp only [State.trailRoom, u, h, usedPlaces, List.filterMap_nil, List.length_nil, Bool.true_and]
  exact decide_eq_true (by omega)

theorem witness_MessagesAndPorts_port_spill : let t := bound 2 15 placeTeam
    (TeamIssues (.smov g (.push 15 62)) g (dieOf 65536) 0 0 t ∧ (dieOf 65536).owes t.uid (dieOf 65536).seq = false ∧
      (dieOf 65536).trailQ t.ctx 15 = [] ∧ t.adm g ≠ 0 ∧
      ((dieOf 65536).area (unitWho 1) .glob (((dieOf 65536).ctx 1).trhBase + 16 * (15 * 2 ^ 20)) 16 false true).2 ≠ none) ∧
    (dieOf 65536).trailRoom t.ctx 15 1 = true ∧ 65536 ≤ (dieOf 65536).trailDie 15 :=
  ⟨by decide +kernel, dieOf_room _ (by decide +kernel), Nat.le_of_eq (dieOf_count _).symm⟩

theorem witness_MessagesAndPorts_port_pop : let t := bound 2 15 placeTeam
    let s := (ts (bound 2 15)).modCtx 1 fun x => { x with trail := [(15, [⟨1, 2, none⟩])] }
    TeamIssues (.smov g (.pop 62 15)) g s 0 0 t ∧ t.adm g ≠ 0 ∧ (∀ r ∈ ss 62 2, s.pendingReg 0 t r = false) ∧
    s.teamOf t.uid = some (tkey 0 0, t) ∧ s.unitsRun (s.ctx t.ctx).part = true ∧ s.trailQ t.ctx 15 = [⟨1, 2, none⟩] := by decide +kernel

theorem witness_MessagesAndPorts_port_strike : let t := bound 5 3 placeTeam
    let s := ts (bound 5 3)
    TeamIssues (.smov g (.push 15 0)) g s 0 0 t ∧ t.adm g ≠ 0 ∧ (t.bind 15).kind = 5 ∧ (t.rs 0).toNat % 64 = 0 ∧
    s.owes t.uid s.seq = false ∧ s.unitsRun (s.partOf 3) = true ∧ (s.stk 3).strikeQ.length < 64 := by decide +kernel

/-- A message endpoint: tag 65535 to core 575, buffer at 0. -/
def msgQ (t : Team) : Team := bound 1 (2 ^ 48 * 575 + 2 ^ 32 * 0xFFFF) t

theorem witness_MessagesAndPorts_message_push : let t := msgQ placeTeam
    let u : Team := { t with wait := some (.instr (.smov g (.push 15 0)) 3 (0x10010, true)) }
    TeamIssues (.smov g (.push 15 0)) g (ts msgQ) 0 0 t ∧ t.adm g ≠ 0 ∧ (t.bind 15).kind = 1 ∧ fld (t.rs 0).toNat 0 32 + 64 ≤ t.hdr.packBytes ∧
    (ts msgQ).owes t.uid (ts msgQ).seq = false ∧ (∀ f ∈ (ts msgQ).net, f.uid ≠ t.uid) ∧ t.wait = none ∧
    TeamIssues (.smov g (.push 15 0)) g (ts fun _ => u) 0 0 u ∧ u.wait ≠ none := by decide +kernel

theorem witness_MessagesAndPorts_message_accept : let f : Flit := ⟨2, 0, 575, 1, 0xFFFF, List.replicate 64 1⟩
    let s := { ts msgQ with net := [f] }
    s.net[0]? = some f ∧ (s.core f.dst).rx.length < 64 := by decide +kernel

theorem witness_MessagesAndPorts_message_pop : let t := msgQ placeTeam
    let f : Flit := ⟨9, 575, 0, 1, (t.bind 15).tag, List.replicate 64 1⟩
    let s := (ts msgQ).modCore 0 fun c => { c with rx := [f] }
    TeamIssues (.smov g (.pop 63 15)) g s 0 0 t ∧ t.adm g ≠ 0 ∧ (t.bind 15).kind = 1 ∧ (t.bind 15).buf + 64 ≤ t.hdr.packBytes ∧
    s.teamOf t.uid = some (tkey 0 0, t) ∧ (s.core 0).rx = [] ++ f :: [] ∧ f.ctx = t.ctx ∧ f.tag = (t.bind 15).tag := by decide +kernel

theorem witness_WaitEndsRunTheInstruction : let w (i : Instr) : State := ts fun t => { t with wait := some (.instr i 3 (0x10010, true)) }
    (w (.smov g (.push 15 0))).waitingIn (.team 0 0) = some (.smov g (.push 15 0)) ∧
    (w (.vmov g (.pop 0 15) false)).waitingIn (.team 0 0) = some (.vmov g (.pop 0 15) false) ∧
    (w (.refill g 15 true 0)).waitingIn (.team 0 0) = some (.refill g 15 true 0) ∧
    (w (.copy g 0 1 2)).waitingIn (.team 0 0) = some (.copy g 0 1 2) ∧ (w (.copym g 0 1 2)).waitingIn (.team 0 0) = some (.copym g 0 1 2) ∧
    (w (.chain g 0 1 2)).waitingIn (.team 0 0) = some (.chain g 0 1 2) ∧
    (w (.kvapp g 0 1 2 .pack)).waitingIn (.team 0 0) = some (.kvapp g 0 1 2 .pack) ∧
    (w (.bsync g 2)).waitingIn (.team 0 0) = some (.bsync g 2) ∧
    (w (.fwait g 0 2 false)).waitingIn (.team 0 0) = some (.fwait g 0 2 false) ∧
    (w (.bwait g 0 2)).waitingIn (.team 0 0) = some (.bwait g 0 2) ∧
    (w (.wpark g 0 2 3 4)).waitingIn (.team 0 0) = some (.wpark g 0 2 3 4) ∧ (w (.wpark g 0 2 3 4)).parkHolds (.team 0 0) = false := by
  decide +kernel

/-! Rings and engines. Rings and views of most tests stand in the pack, whose places need no translation. -/

/-- A handle of a place in the pack. -/
def hnd (a : Nat) : W64 := BitVec.ofNat 64 (2 ^ 62 + a)
/-- A ring object of n slots at pack 0, whose slots stand at 64. -/
def ringObj (wr rsv rd n : Nat) : List Byte := toLe 8 64 ++ toLe 4 wr ++ toLe 4 rsv ++ toLe 4 rd ++ toLe 4 0 ++ toLe 8 n ++ List.replicate 32 0
def ring (wr rsv rd n : Nat) : Ring := ⟨.pack, packKey 1 0, 0, 64, rsv, wr, rd, n⟩
/-- The state with that ring and a status in its slot 0. -/
def ringed (wr rsv rd n w0 w1 : Nat) (s : State) : State :=
  (s.memWrite (packKey 1 0) (ringObj wr rsv rd n)).memWrite (packKey 1 64) (toLe 8 w0 ++ toLe 8 w1)
/-- A leader whose s1 to s3 are given, with two views of eight bytes in the pack. -/
def pview (a : Nat) : View :=
  ⟨BitVec.ofNat 256 (2 ^ 63 + 8 * 2 ^ 8 + 1 + 2 ^ 72 + 2 ^ 136 + 2 ^ 200), ⟨.pack, a, 0, 1, [1, 0, 0, 0], [8, 0, 0, 0]⟩, none⟩
def lead (a b c : W64) (t : Team) : Team := { t with sreg := [(1, a), (2, b), (3, c)], view := [(0, pview 512), (1, pview 1024)] }

theorem ready {s : State} {c : Nat} {t : Team} {h : W64} {ow sw : Bool} {slot : Ring → Nat} {r : Ring}
    (e : (match s.ringOf (t.who c) h ow sw slot with | .ok q => decide (q = r) | _ => false) = true ∧ s.acquiring t.uid = false ∧
      s.ringBusy t.uid r = false) : Claims.RingReady s c t h ow sw slot r := by
  refine ⟨?_, e.2⟩
  have e := e.1
  revert e
  cases s.ringOf (t.who c) h ow sw slot <;> simp

theorem reserves {s : State} {c : Nat} {t : Team} {r : Ring} {k cls : Nat}
    (e : r.full = false ∧ s.slotAt (t.who c) r r.rsv true = .ok k cls ∧ s.reserveHeld (t.who c) r = false ∧ s.outstanding t.uid = false ∧
      2 ^ 56 ≤ k ∧ 2 ^ 56 ≤ r.key + 0xC) : Claims.Reserves s c t r k cls :=
  ⟨e.1, e.2.1, e.2.2.1, e.2.2.2.1, .inl e.2.2.2.2.1, .inl e.2.2.2.2.2⟩

theorem witness_RingCommands_ring : let t := lead (hnd 1024) 2048 0 placeTeam
    let s := ts (lead (hnd 1024) 2048 0)
    TeamIssues (.ring g 1 2 3) g s 0 0 t ∧ t.adm g ≠ 0 ∧ handleOf (t.rs 1) = some (.pack, 1024) ∧
    s.spanAt (t.who 0) .pack 0 1024 64 true true = .ok (packKey 1 1024) 0 ∧
    s.area (t.who 0) .pack (fld (t.rs 2).toNat 0 57) 64 false true = ([(packKey 1 2048, 0, 64)], none) ∧ (t.rs 2).toNat % 16 = 0 ∧
    s.owes t.uid s.seq = false ∧ (s.ringIn .pack (packKey 1 1024) 0).n = 0 ∧ s.outstanding t.uid = false ∧ packKey 1 1024 + 64 ≤ packKey 1 2048 ∧
    s.unitHeld (packKey 1 1024) (toLe 8 2048 ++ List.replicate 16 0 ++ toLe 8 4 ++ List.replicate 32 0) = false ∧
    s.heldPieces [(packKey 1 2048, 0, 64)] (List.replicate 64 0) = false ∧ 2 ^ 56 ≤ packKey 1 1024 := by decide +kernel

/-- Slot RD is complete; a ring without a complete slot. -/
theorem witness_RingCommands_wait : let t := lead (hnd 0) 0 0 placeTeam
    let s := ringed 1 1 0 256 7 0 (ts (lead (hnd 0) 0 0))
    (TeamIssues (.fwait g 62 1 false) g s 0 0 t ∧ TeamIssues (.frel g 1) g s 0 0 t ∧ TeamIssues (.ftest g 95 1) g s 0 0 t ∧ t.adm g ≠ 0 ∧
      s.teamOf t.uid = some (tkey 0 0, t) ∧ s.slotDone (t.who 0) (ring 1 1 0 256) = true ∧
      codeOf (s.slotGet (t.who 0) (ring 1 1 0 256) 0).2 ≠ 1 ∧ 2 ^ 56 ≤ (ring 1 1 0 256).key + 0x10 ∧
      s.objHeld (ring 1 1 0 256) 0x10 4 1 = [] ∧ s.outstanding t.uid = false ∧
      s.slotDone (t.who 0) (ring 0 0 0 256) = false) ∧
    Claims.RingReady s 0 t (t.rs 1) true false Ring.rd (ring 1 1 0 256) ∧
    Claims.RingReady s 0 t (t.rs 1) false false Ring.rd (ring 1 1 0 256) :=
  ⟨by decide +kernel, ready (by decide +kernel), ready (by decide +kernel)⟩

/-- A write that would meet the full ring of records of the watch over its page. -/
theorem meets {s : State} {k : Nat} {bs : List Byte} {i : Nat} (h : s.slice (s.sliceNo k) = fullRing)
    (g : k < 2 ^ 56 ∧ s.local_ k = true ∧ s.granules k = [(1, 0, i)] ∧ s.watch? 1 0 = some wch ∧ (s.memRead k bs.length != bs) = true) :
    s.unitHeld k bs = true := by
  have r : fullRing.ringFull = true := decide_eq_true (Nat.le_of_eq (List.length_replicate ..).symm)
  have b : k < 72057594037927936 := g.1
  simp [State.unitHeld, State.mustHold, h, r, b, g.2.1, g.2.2.1, g.2.2.2.1, g.2.2.2.2, Slice.spills, wch]

/-- The ring in memory under that watch, at virtual 0x1F000, with its slots behind it. -/
def gring : Ring := ⟨.glob, 0x10F000, 0, 0x1F040, 1, 1, 0, 256⟩
def gringed : State :=
  let s := ((ts (lead 0x1F000 0 0)).modCtx 1 fun x => { x with watches := [(0, wch)] }).memWrite 0x10F000
    (toLe 8 0x1F040 ++ toLe 4 1 ++ toLe 4 1 ++ toLe 4 0 ++ toLe 4 0 ++ toLe 8 256)
  { s with slices := [((ts id).sliceNo 0x10F010, fullRing)], spillBase := 0x40000000 }

theorem witness_RingCommands_release_held : let t := lead 0x1F000 0 0 placeTeam
    (TeamIssues (.frel g 1) g gringed 0 0 t ∧ t.adm g ≠ 0 ∧ gringed.local_ (gring.key + 0x10) = true ∧
      gringed.slotDone (t.who 0) gring = true) ∧ Claims.RingReady gringed 0 t (t.rs 1) true false Ring.rd gring ∧
    gringed.objHeld gring 0x10 4 ((gring.rd + 1) % 2 ^ 32) ≠ [] := by
  refine ⟨by decide +kernel, ready (by decide +kernel), ?_⟩
  have h : gringed.unitHeld (gring.key + 0x10) (toLe 4 ((gring.rd + 1) % 2 ^ 32)) = true := meets (i := 0) rfl (by decide +kernel)
  rw [State.objHeld, if_pos h]
  intro e
  cases e

theorem witness_RingCommands_release_early : let t := lead (hnd 0) 0 0 placeTeam
    let s := ringed 0 1 0 256 0 0 (ts (lead (hnd 0) 0 0))
    (TeamIssues (.frel g 1) g s 0 0 t ∧ s.slotDone (t.who 0) (ring 0 1 0 256) = false) ∧
    Claims.RingReady s 0 t (t.rs 1) true false Ring.rd (ring 0 1 0 256) := ⟨by decide +kernel, ready (by decide +kernel)⟩

theorem witness_EnginesIssue_copy : let t := lead 0 0 (hnd 0) placeTeam
    let s := ringed 0 0 0 1 0 0 (ts (lead 0 0 (hnd 0)))
    (TeamIssues (.copy g 0 1 3) g s 0 0 t ∧ popcount t.act = 1 ∧ t.adm g ≠ 0 ∧ copyReady (t.viewOf 0) (t.viewOf 1) = true) ∧
    Claims.RingReady s 0 t (t.rs 3) true true Ring.rsv (ring 0 0 0 1) ∧ Claims.Reserves s 0 t (ring 0 0 0 1) (packKey 1 64) 0 :=
  ⟨by decide +kernel, ready (by decide +kernel), reserves (by decide +kernel)⟩

/-- A copy that stopped at element 5, and one that has not stopped. -/
theorem witness_EnginesIssue_resume : let t := lead 0 0 (hnd 0) placeTeam
    let s := ringed 1 1 0 1 (2 ^ 32 * 5 + 5) (5 * 2 ^ 57) (ts (lead 0 0 (hnd 0)))
    let w := s.slotGet (t.who 0) (ring 1 1 0 1) 0
    (TeamIssues (.copyR g 0 1 3) g s 0 0 t ∧ codeOf w.2 = 5 ∧ s.slotAt (t.who 0) (ring 1 1 0 1) 0 true = .ok (packKey 1 64) 0 ∧
      s.slotHeld (t.who 0) (ring 1 1 0 1) 0 w.1 (w.2 % 2 ^ 57 + 0x7F * 2 ^ 57) = [] ∧ s.outstanding t.uid = false) ∧
    Claims.RingReady s 0 t (t.rs 3) true true Ring.rd (ring 1 1 0 1) := ⟨by decide +kernel, ready (by decide +kernel)⟩

theorem witness_EnginesIssue_resume_none : let t := lead 0 0 (hnd 0) placeTeam
    let s := ringed 1 1 0 1 0 0 (ts (lead 0 0 (hnd 0)))
    (TeamIssues (.copyR g 0 1 3) g s 0 0 t ∧ codeOf (s.slotGet (t.who 0) (ring 1 1 0 1) 0).2 = 0) ∧
    Claims.RingReady s 0 t (t.rs 3) true true Ring.rd (ring 1 1 0 1) := ⟨by decide +kernel, ready (by decide +kernel)⟩

theorem witness_EnginesIssue_copym : let t := lead 0 256 (hnd 0) placeTeam
    let s := (ringed 0 0 0 1 0 0 (ts (lead 0 256 (hnd 0)))).memWrite (packKey 1 256) (toLe 8 0x10100 ++ toLe 8 64 ++ toLe 4 6 ++ toLe 4 1 ++ toLe 8 1)
    let cmd := s.memRead (packKey t.blk 256) 64
    ((TeamIssues (.copym g 0 2 3) g s 0 0 t ∧ (t.rs 2).toNat = 256 ∧ 256 + 64 ≤ t.hdr.packBytes ∧ (t.viewOf 0).valid = true ∧ s.accs = []) ∧
      le32 cmd 0x10 + (fld (le64 cmd 0x18) 0 5 + 1) * le32 cmd 0x14 ≤ (t.viewOf 0).total ∧
      (fld (le64 cmd 0) 61 3 = 0 ∧ fld (le64 cmd 0) 57 4 = 0 ∧ fld (le64 cmd 0x18) 5 59 = 0) ∧
      (∀ j, j < 4 → le64 cmd (0x20 + 8 * j) = 0) ∧ fld (le64 cmd 0) 0 57 % 2 ^ (t.viewOf 0).desc.esize = 0 ∧
      le64 cmd 8 % 2 ^ (t.viewOf 0).desc.esize = 0) ∧
    Claims.RingReady s 0 t (t.rs 3) true true Ring.rsv (ring 0 0 0 1) ∧ Claims.Reserves s 0 t (ring 0 0 0 1) (packKey 1 64) 0 :=
  ⟨by decide +kernel, ready (by decide +kernel), reserves (by decide +kernel)⟩

theorem witness_EnginesIssue_chain : let t := lead 0x10100 127 (hnd 0) placeTeam
    let s := ringed 0 0 0 1 0 0 (ts (lead 0x10100 127 (hnd 0)))
    (TeamIssues (.chain g 1 2 3) g s 0 0 t ∧ (t.rs 2).toNat < 128 ∧ (t.rs 1).toNat % 64 = 0 ∧
      ((s.stk (stackOf 0)).chan.get 0 127).getLsbD 63 = false) ∧
    Claims.RingReady s 0 t (t.rs 3) true true Ring.rsv (ring 0 0 0 1) ∧ Claims.Reserves s 0 t (ring 0 0 0 1) (packKey 1 64) 0 :=
  ⟨by decide +kernel, ready (by decide +kernel), reserves (by decide +kernel)⟩

/-- s62 and s63 say where rows stand: at 0x10100, of 16 bytes, as a gather reads them. -/
def rowed (t : Team) : Team := { four t with sreg := [(62, 0x10100), (63, 2 ^ 32 * 16)] }

theorem witness_GatherAndScatter : let t := rowed placeTeam
    let s := ts rowed
    (s.stashOk = true ∧ TeamIssues (.gath g (some 60) 59 62 95 2) g s 0 0 t ∧ TeamIssues (.gath g none 59 62 95 0) g s 0 0 t ∧
    TeamIssues (.scat g 60 59 62 2) g s 0 0 t ∧ s.hasGather = true ∧ t.adm g ≠ 0 ∧ s.acquiring t.uid = false ∧
    s.headroom 0 t (slicesFor 4 (lanes (t.adm g))) = true ∧
    s.unitWaits 0 (t.who 0) .glob ((lanes (t.adm g)).flatMap fun l => pagesOf (Claims.rowOf s 0 t 59 62 l) 16) = false ∧
    (∀ l ∈ lanes (t.adm g), s.rowFail (t.who 0) 16 16 (Claims.rowOf s 0 t 59 62 l) = none ∧
      s.rowFail (t.who 0) 4 16 (Claims.rowOf s 0 t 59 62 l) = none) ∧
    t.gather.length < 4 ∧ fld (t.rs (sregAt 62 1)).toNat 32 16 = 16) ∧
    Claims.Reach s 0 t .glob 16 false true true (lanes (t.adm g)) (Claims.rowOf s 0 t 59 62) (fun _ => 0x100100) :=
  ⟨by decide +kernel, reach (by decide +kernel)⟩

/-- The placed team as the party of an operation. -/
def pw : Who := placeTeam.who 0
/-- A copy of one byte between views in the pack, which reports to slot 0 of the ring. -/
def byteView (a : Nat) : View :=
  ⟨BitVec.ofNat 256 (2 ^ 63 + 2 ^ 8 + 1 + 2 ^ 72 + 2 ^ 136 + 2 ^ 200), ⟨.pack, a, 0, 1, [1, 0, 0, 0], [1, 0, 0, 0]⟩, none⟩
def copyOp : Op := ⟨3, .copy (byteView 512) (byteView 1024) 0 0, pw, 0, 3, hnd 0, 0, none, none, [], false, [], none⟩
def copying : State := { ringed 0 1 0 1 0 (0x7F * 2 ^ 57) (ts id) with ops := [copyOp] }

theorem fresh {s : State} {o : Op} (h : o.stop = false ∧ o.todo = [] ∧ o.ended = none ∧ s.engineMay o = true ∧ s.outstanding o.id = false) :
    Claims.Fresh s o := h

theorem witness_EngineEvents_copy : let s := copying
    (s.op? 3 = some copyOp ∧ s.eccLines = [] ∧ s.cxlLost = [] ∧ (List.range ((byteView 512).total - 0)).map (fun i => 0 + i) = [0] ∧
      (∀ v ∈ [byteView 512, byteView 1024], s.unitWaits (stackOf pw.core) pw v.desc.space ([0].filterMap (viewElem v)) = false) ∧
      viewElem (byteView 512) 0 = some 512 ∧ viewElem (byteView 1024) 0 = some 1024 ∧ handleOf copyOp.ring = some (.pack, 0) ∧
      s.ringIn .pack (packKey 1 0) 0 = ring 0 1 0 1) ∧
    (Claims.Fresh s copyOp ∧ Claims.Roomy s) ∧
    Claims.Steady s (fun m => m.spanAt pw .pack 0 512 1 true false) (.ok (packKey 1 512) 0) ∧
    Claims.Steady s (fun m => m.spanAt pw .pack 0 1024 1 false true) (.ok (packKey 1 1024) 0) ∧
    Claims.Steady s (fun m => m.spanAt pw .pack 0 0 64 true true) (.ok (packKey 1 0) 0) ∧
    Claims.Steady s (fun m => m.slotAt pw (ring 0 1 0 1) 0 true) (.ok (packKey 1 64) 0) ∧
    [(packKey 1 64, 16), (packKey 1 0, 64), (packKey 1 1024, 1)].Pairwise Claims.Apart ∧
    ∀ x ∈ [(packKey 1 64, 16), (packKey 1 0, 64), (packKey 1 1024, 1)], Claims.Apart (packKey 1 512, 1) x := by
  refine ⟨by decide +kernel, ⟨fresh (by decide +kernel), fun _ => rfl⟩, fun m _ _ _ _ _ _ _ _ => rfl, fun m _ _ _ _ _ _ _ _ => rfl,
    fun m _ _ _ _ _ _ _ _ => rfl, fun m _ _ _ _ _ _ _ _ => rfl, ?_, ?_⟩ <;> simp [Claims.Apart, packKey]

/-- A unit's write of another package's memory, and an operation whose write stands in flight. -/
theorem witness_EngineEvents_held : (ts id).local_ (2 ^ 47 + 64) = false ∧ 2 ^ 47 + 64 < 2 ^ 56 ∧
    (let o : Op := { copyOp with ended := some ⟨0, 0, 0, 0, 0, 0⟩ }
    let s : State := { fl { stA with uid := 3, core := unitCore 0 } with ops := [o] }
    s.op? 3 = some o ∧ s.engineMay o = true ∧ o.ended ≠ none ∧ s.outstanding 3 = true) := by decide +kernel

/-- A core that holds the translation of the placed page. -/
def tlbE : TlbE := ⟨1, 0x10000, 16, 0x100000, true, true, true, 0⟩
def mapped (s : State) : State := s.modCore 0 fun c => { c with tlb := [tlbE] }

/-- Where a TLB translates, so does that of every state with the same TLBs and the same memory sizes. -/
theorem translate_of {s m : State} {a : Nat} (hp : m.pkg = s.pkg) (hh : m.memHbm = s.memHbm) (h2 : m.memT2 = s.memT2) (he : m.peers = s.peers)
    (ht : (m.core 0).tlb = (s.core 0).tlb) (h : ((s.core 0).tlb.find? fun e => e.hits 1 a).isSome = true) :
    m.translate 0 1 a = s.translate 0 1 a := by
  obtain ⟨x, hx⟩ := Option.isSome_iff_exists.mp h
  have hr : ∀ q, m.reach q = s.reach q := fun q => by simp only [State.reach, hp, hh, h2, he]
  simp only [State.translate, ht, hx, State.reached, hr]

/-- So do the places of a party on core 0 in context 1. -/
theorem steady {s : State} {w : Who} (hw : w.core = 0 ∧ w.ctx = 1) {a : Nat} {n k : Nat} {r wr : Bool}
    (h : ((s.core 0).tlb.find? fun e => e.hits 1 a).isSome = true ∧ ((s.core 0).tlb.find? fun e => e.hits 1 (a + n - 1)).isSome = true ∧
      s.spanAt w .glob 0 a n r wr = .ok k 0) : Claims.Steady s (fun m => m.spanAt w .glob 0 a n r wr) (.ok k 0) := by
  intro m _ _ hp _ hh h2 he ht
  have t1 := translate_of hp hh h2 he (ht 0).1 h.1
  have t2 := translate_of hp hh h2 he (ht 0).1 h.2.1
  rw [← h.2.2]
  simp only [State.spanAt, State.byteAt, hw.1, hw.2, t1, t2]

/-- A chain at its record at 0x10100, which moves eight bytes within the pack and names the next at 0x10140. -/
def chainOp : Op := ⟨3, .chain 127 0x10100 0 0, pw, 0, 3, hnd 0, 0, none, none, [], false, [], none⟩
def chaining : State :=
  { (mapped (ts id)).memWrite 0x100100 (toLe 8 (2 ^ 63 + 0x10140) ++ toLe 8 (2 ^ 62 + 512) ++ toLe 8 (2 ^ 62 + 1024) ++ toLe 8 8) with ops := [chainOp] }

theorem witness_EngineEvents_chain : let s := chaining
    let b := s.homeRead 0x100100 64
    ((s.ops = [chainOp] ∧ stackOf chainOp.who.core = 0 ∧ s.local_ 0x100100 = true ∧ le64 b 0 = 2 ^ 63 + 0x10140) ∧
      (spaceOf (fld (le64 b 8) 61 3) = some .pack ∧ spaceOf (fld (le64 b 16) 61 3) = some .pack ∧ fld (le64 b 8) 57 4 = 0 ∧
        fld (le64 b 16) 57 4 = 0 ∧ le64 b 24 = 8 ∧ ∀ i, i < 4 → le64 b (32 + 8 * i) = 0) ∧
      fld (le64 b 8) 0 57 = 512 ∧ fld (le64 b 16) 0 57 = 1024 ∧ s.unitWaits 0 pw .glob [0x10100] = false ∧
      s.unitWaits 0 pw .pack (pagesOf 512 8) = false ∧ s.unitWaits 0 pw .pack (pagesOf 1024 8) = false) ∧ Claims.Clean s ∧
    (Claims.Fresh s chainOp ∧ Claims.Roomy s ∧ Claims.Apart (packKey 1 1024, 8) (0x100100, 64) ∧
      packKey 1 512 + 8 ≤ packKey 1 1024) ∧
    Claims.Steady s (fun m => m.spanAt pw .glob 0 0x10100 64 true false) (.ok 0x100100 0) ∧
    Claims.Steady s (fun m => m.spanAt pw .glob 0 0x10100 8 false true) (.ok 0x100100 0) ∧
    Claims.Steady s (fun m => m.byteAt pw .pack 0 512 true false) (.ok (packKey 1 512) 0) ∧
    Claims.Steady s (fun m => m.byteAt pw .pack 0 1024 false true) (.ok (packKey 1 1024) 0) :=
  ⟨by decide +kernel, clean _ rfl rfl, ⟨fresh (by decide +kernel), fun _ => rfl, by simp [Claims.Apart, packKey], by decide +kernel⟩, steady ⟨rfl, rfl⟩ (by decide +kernel),
    steady ⟨rfl, rfl⟩ (by decide +kernel), fun m _ _ _ _ _ _ _ _ => rfl, fun m _ _ _ _ _ _ _ _ => rfl⟩

/-- A gather of the row at 0x10100 into lane 31 of slice 1. -/
def gathOp : Op := ⟨3, .gath [(0, [.slice 1])] [(31, 0x10100)] 4 false (some 95), pw, 0, 3, 0, 0, none, none, [], false, [], none⟩
def gathering : State := { (ts fun t => { t with vmap := [(1920, 1)] }).modCore 0 (fun c => { c with phys := [(1, ⟨0, 2, false⟩)] }) with ops := [gathOp] }

theorem witness_EngineEvents_gather : let s := gathering
    s.ops = [gathOp] ∧ gathOp.writes = none ∧ s.engineMay gathOp = true ∧ [(31, 0x10100)].any (fun r => r.2 == 0x10100) = true ∧ s.area gathOp.who .glob 0x10100 4 true false = ([(0x100100, 0, 4)], none) ∧
    s.badPieces [(0x100100, 0, 4)] = false ∧ s.stashOk = true ∧ ((s.core 0).phys.find 1).isSome = true ∧ s.refs 0 1 ≠ 0 := by decide +kernel

theorem witness_EngineEvents_scatter : let o : Op := ⟨3, .scat 4, pw, 0, 3, 0, 0, none, none, [], false, [], none⟩
    let s := { fl { stA with grp := 4, stage := 1 } with ops := [o] }
    (s.op? 3 = some o ∧ o.ents = [] ∧ ∀ a ∈ s.accs, a.grp = 4 → a.uid = o.who.uid → a.stage ≠ 0) ∧ Claims.Fresh s o :=
  ⟨by decide +kernel, fresh (by decide +kernel)⟩

/-! The matrix array. The rows of the tests are one row of the pack, 32 times: the stride in s63 is 0. -/

/-- A stream whose s62 is given. -/
def at62 (a : W64) (r : Ridge) : Ridge := { r with sreg := [(62, a)] }

theorem witness_MatrixTilesAndConverts_tiles : let r := at62 0 placeRidge
    let s := rs (at62 0)
    let rows := rowsAt (r.rs 62).toNat (r.rs (sregAt 62 1)).toNat 32
    s.block? r.blk = some placeBlock ∧ r.adm g = true ∧ s.owes r.uid s.seq = false ∧ s.eccLines = [] ∧
    RidgeIssues (.mlda g 7 62 0 0 0 .bf16 .pack) g s 0 r ∧ RidgeIssues (.zld g 7 62 true .pack) g s 0 r ∧
    RidgeIssues (.zst g 7 true 62 .f8e4 true .pack) g s 0 r ∧ RidgeIssues (.zclr g false 7) g s 0 r ∧
    RidgeIssues (.zmap g 7 6 62 .scale) g s 0 r ∧ s.team0Busy r.blk [0, 0] = false ∧ placeBlock.accBusy 7 = false ∧
    placeBlock.accBusy 6 = false ∧ (∀ x ∈ rows, x % 128 = 0) ∧ (r.rs (sregAt 62 1)).toNat % 4 = 0 := by decide +kernel

theorem witness_MatrixTilesAndConverts_rows : let r := at62 0 placeRidge
    let s := rs (at62 0)
    let rows := rowsAt (r.rs 62).toNat (r.rs (sregAt 62 1)).toNat 32
    Claims.OnChip s r 0 .pack (wfmtRow .bf16) true false rows (packKey 1) ∧ Claims.OnChip s r 0 .pack 128 true false rows (packKey 1) ∧
    Claims.OnChip s r 0 .pack 32 false true rows (packKey 1) ∧
    ∀ x ∈ rows, x + 32 * 1 ≤ 2 ^ 64 ∧ ∀ j, j < 32 → s.byteAt (Claims.streamOf r 0) .pack 0 (x + j * 1) false true = .ok (packKey 1 x + j * 1) 0 := by
  refine ⟨?_, ?_, ?_, ?_⟩ <;> (try unfold Claims.OnChip) <;> decide +kernel

/-- A list of two outliers at pack 0. -/
def rO : Ridge := at62 (2 ^ 32 * 2) placeRidge
def sO : State := (rs (at62 (2 ^ 32 * 2))).memWrite (packKey 1 8) (toLe 8 1)

theorem witness_MatrixTilesAndConverts_outliers : RidgeIssues (.moutl g 62) g sO 0 rO ∧ fld (rO.rs 62).toNat 0 32 = 0 ∧ fld (rO.rs 62).toNat 32 9 = 2 ∧
    0 + 8 * 2 ≤ rO.hdr.packBytes ∧
    ((List.range 2).map fun i => BitVec.ofNat 64 (ofLe (sO.memRead (packKey rO.blk (0 + 8 * i)) 8))) = [0, 1] ∧
    [(0 : W64), 1].Pairwise (fun x y => fld x.toNat 0 14 < fld y.toNat 0 14) ∧ fld (0 : W64).toNat 14 18 = 0 ∧ fld (1 : W64).toNat 14 18 = 0 :=
  by decide +kernel

theorem witness_MatrixMultiply : let r := at62 (2 ^ 32 * 320) placeRidge
    let s := ((rs (at62 (2 ^ 32 * 320))).memWrite (packKey 1 0x20) [0x11]).memWrite (packKey 1 (320 + 0x20)) [0x11]
    RidgeIssues (.mma g 7 6 62 0 0 12 0 1 true true) g s 0 r ∧ s.block? r.blk = some placeBlock ∧ r.adm g = true ∧ 6 + (1 + 1) ≤ 8 ∧
    s.owes r.uid s.seq = false ∧ s.team0Busy r.blk [0, 0] = false ∧
    ∀ t, t < 2 → (let off := fld (r.rs 62).toNat 0 32 + t * fld (r.rs 62).toNat 32 32
      planesOf (s.memGet (packKey r.blk (off + 0x20))).toNat = some (true, 1) ∧ off + 64 + 256 * 1 ≤ r.hdr.packBytes ∧ off % 64 = 0 ∧
      (placeBlock.tile (6 + t)).kind ≠ .float) := by decide +kernel

theorem witness_MatrixMultiply_write : let b : Block := { placeBlock with mma := [⟨7, ⟨[], true, true⟩, 12⟩] }
    let s := (rs id).setBlock 1 b
    s.ridge? 0 = some placeRidge ∧ s.block? 1 = some b ∧ b.mma = ⟨7, ⟨[], true, true⟩, 12⟩ :: [] := by decide +kernel

theorem witness_MatrixTilesAndConverts_plane : let t : Team := { placeTeam with sreg := [(62, 1024), (63, 64 + 2 ^ 32 * 31)] }
    let s := ts fun _ => t
    let cols := (List.range 32).map fun n => planeCol 1 0 64 n
    TeamIssues (.plane g 61 62 63 .i1) g s 0 0 t ∧ popcount t.act = 1 ∧ t.adm g ≠ 0 ∧ s.acquiring t.uid = false ∧ (s.core 0).planeBy = none ∧
    s.accs = [] ∧ (∀ q ∈ cols, q.1 + q.2.1 ≤ t.hdr.packBytes) ∧ 1024 + (64 + 256 * psrcWs .i1) ≤ t.hdr.packBytes ∧ 1024 % 64 = 0 ∧
    64 * psrcBits .i1 % 8 = 0 := by decide +kernel

theorem witness_MatrixTilesAndConverts_stream : let r : Ridge := { placeRidge with sreg := [(62, 1024), (63, 64 + 2 ^ 32 * 31)] }
    let s := rs fun _ => r
    RidgeIssues (.plane g 61 62 63 .i1) g s 0 r ∧ r.adm g = true ∧ s.acquiring r.uid = false ∧ (s.core 0).planeBy = none ∧ s.accs = [] ∧
    ∀ q ∈ (List.range 32).map fun n => planeCol 1 0 64 n, q.1 + q.2.1 ≤ r.hdr.packBytes := by decide +kernel

/-! Named barriers. -/

def tB : Team := { placeTeam with sreg := [(1, 2 ^ 12 - 1), (2, 2 ^ 24 - 1), (3, 1)] }
def rB : Ridge := { placeRidge with sreg := [(1, 1), (2, 2 ^ 24 - 1), (3, 1)] }

theorem witness_Barriers : let t := tB
    let s := ts fun _ => tB
    t.adm g ≠ 0 ∧ (127 : Fin 128).val < t.hdr.nb ∧ s.block? t.blk = some placeBlock ∧ TeamIssues (.binit g 1 127) g s 0 0 t ∧
    1 ≤ (t.rs 1).toNat ∧ (t.rs 1).toNat < 2 ^ 12 ∧ TeamIssues (.barr g 63 127) g s 0 0 t ∧ TeamIssues (.bwait g 3 127) g s 0 0 t ∧
    (placeBlock.bar 127).phase ≠ (t.rs 3).getLsbD 0 ∧ s.teamOf t.uid = some (tkey 0 0, t) ∧ TeamIssues (.bwait g 0 127) g s 0 0 t ∧
    (placeBlock.bar 127).phase = (t.rs 0).getLsbD 0 ∧ t.wait = none := by decide +kernel

theorem witness_Barriers_more : let t := tB
    let s := ts fun _ => tB
    t.wait = none ∧ TeamIssues (.bsync g 127) g s 0 0 t ∧ placeBlock.arr = [] ∧
    TeamIssues (.bexp g 2 127) g s 0 0 t ∧
    (placeBlock.bar 127).post.toNat + (placeBlock.bar 127).posts + fld (t.rs 2).toNat 0 24 < 2 ^ 24 ∧ (placeBlock.bar 127).late = false := by
  decide +kernel

/-- A count of zero, and one too great; a barrier of a block with none; a post after the stream's, and one beyond the range. -/
theorem witness_Barriers_traps : TeamIssues (.binit g 0 127) g (ts fun _ => tB) 0 0 tB ∧ (tB.rs 0).toNat = 0 ∧
    TeamIssues (.binit g 2 127) g (ts fun _ => tB) 0 0 tB ∧ 2 ^ 12 ≤ (tB.rs 2).toNat ∧
    (let t : Team := { tB with hdr := { placeLaunch with nb := 0 } }
    let r : Ridge := { rB with hdr := { placeLaunch with nb := 0 } }
    Claims.barOf (.bsync g 0) = some 0 ∧ (ts fun _ => t).cur = .team 0 0 ∧ (ts fun _ => t).team? 0 0 = some t ∧ t.hdr.nb ≤ 0 ∧
    (rs fun _ => r).cur = .ridge 0 ∧ (rs fun _ => r).ridge? 0 = some r ∧ r.hdr.nb ≤ 0) := by decide +kernel

theorem witness_Barriers_posts : let b (x : Bar) : Block := { placeBlock with bars := [(127, x)] }
    let s (x : Bar) : State := (ts fun _ => tB).setBlock 1 (b x)
    TeamIssues (.bexp g 2 127) g (s ⟨2, 0, 0, false, 0, 0, true⟩) 0 0 tB ∧ (s ⟨2, 0, 0, false, 0, 0, true⟩).block? 1 = some (b ⟨2, 0, 0, false, 0, 0, true⟩) ∧
    TeamIssues (.bexp g 2 127) g (s ⟨2, 0, 1, false, 0, 0, false⟩) 0 0 tB ∧ (s ⟨2, 0, 1, false, 0, 0, false⟩).block? 1 = some (b ⟨2, 0, 1, false, 0, 0, false⟩) ∧
    2 ^ 24 ≤ 1 + 0 + fld (tB.rs 2).toNat 0 24 := by decide +kernel

theorem witness_Barriers_stream : let r := rB
    let m := rs fun _ => rB
    r.adm g = true ∧ m.block? r.blk = some placeBlock ∧ RidgeIssues (.binit g 1 127) g m 0 r ∧ RidgeIssues (.barr g 63 127) g m 0 r ∧
    RidgeIssues (.bwait g 3 127) g m 0 r ∧ (placeBlock.bar 127).phase ≠ (r.rs 3).getLsbD 0 ∧ m.teamOf r.uid = none ∧
    RidgeIssues (.bexp g 2 127) g m 0 r := by decide +kernel

/-- A count of zero, and a post beyond the range, of a stream. -/
theorem witness_Barriers_stream_traps : let b : Block := { placeBlock with bars := [(127, ⟨2, 0, 1, false, 0, 0, false⟩)] }
    let m := (rs fun _ => rB).setBlock 1 b
    rB.adm g = true ∧ m.block? 1 = some b ∧ RidgeIssues (.binit g 0 127) g m 0 rB ∧ (rB.rs 0).toNat = 0 ∧
    RidgeIssues (.bexp g 2 127) g m 0 rB ∧ 2 ^ 24 ≤ (b.bar 127).post.toNat + (b.bar 127).posts + fld (rB.rs 2).toNat 0 24 := by decide +kernel

theorem witness_Barriers_stream_waits : let r := rB
    let m := rs fun _ => rB
    RidgeIssues (.bwait g 0 127) g m 0 r ∧ (placeBlock.bar 127).phase = (r.rs 0).getLsbD 0 ∧
    r.wait = none ∧ RidgeIssues (.bsync g 127) g m 0 r ∧ placeBlock.arr = [] := by decide +kernel

theorem witness_Barriers_stream_sync : let r : Ridge := { rB with wait := some (.barrier (.bsync g 127) true 3 (0x10010, true)) }
    RidgeIssues (.bsync g 127) g (rs fun _ => r) 0 r ∧ r.wait = some (.barrier (.bsync g 127) true 3 (0x10010, true)) ∧ (placeBlock.bar 127).phase ≠ true ∧
    (rs fun _ => r).teamOf r.uid = none := by decide +kernel

/-- A team that waits in BSYNC on the parity that its arrival met, once PHASE has flipped. -/
def synced : Team := { placeTeam with wait := some (.barrier (.bsync g 127) true 3 (0x10010, true)) }

theorem witness_Barriers_sync : TeamIssues (.bsync g 127) g (ts fun _ => synced) 0 0 synced ∧
    synced.wait = some (.barrier (.bsync g 127) true 3 (0x10010, true)) ∧ (placeBlock.bar 127).phase ≠ true ∧
    (ts fun _ => synced).teamOf 2 = some (tkey 0 0, synced) := by decide +kernel

theorem witness_Barriers_arrival : let a : Arrival := ⟨2, 127, some 63, 3, false⟩
    let b : Block := { placeBlock with arr := [a] }
    let s := (ts id).setBlock 1 b
    ((s.arrivals 0)[0]? = some (1, a) ∧ s.block? 1 = some b ∧ s.ridgeOf a.uid = none ∧ s.accs = []) ∧ Claims.Known s a.uid :=
  ⟨by decide +kernel, known _ _ (.inr ⟨placeTeam, by decide +kernel⟩)⟩

/-- A barrier whose phase is complete with this cycle's arrival, at the greatest expected count. -/
theorem witness_BarrierCycle : let x : Bar := ⟨4095, 4094, 0, true, 1, 7, true⟩
    let b : Block := { placeBlock with bars := [(127, x)] }
    ((ts id).setBlock 1 b).block? 1 = some b ∧ b.core = 0 ∧ b.bars.find 127 = some x ∧ x.exp.toNat + x.post.toNat ≤ x.arr.toNat + x.now := by
  decide +kernel

/-! KV sequences. A sequence entry stands at 0x17100, its pool at 0x17140, its page lists at 0x17180 and 0x171C0, a ring at 0x17200 with one
slot at 0x17240, a command at 0x17280; pages of 8192 bytes from 0x12000 on. -/

/-- Writes 64-bit words one after the other. -/
def words (a : Nat) (ws : List Nat) (s : State) : State := s.memWrite a (ws.flatMap (toLe 8))

/-- The entry has a length and a word (RC, GEN, BUSY, APP); page 1 is the one that is free. -/
def kv (len word : Nat) (s : State) : State :=
  words 0x107280 [0x17100, 0x17200, 1, 0, 0] (words 0x107200 [0x17240, 2 ^ 32, 0, 1] (words 0x107240 [0, 0x7F * 2 ^ 57] (words 0x107000 [2 ^ 32]
    (words 0x107140 [0x12000, 0x16000, 0x17000, 2 + 2 ^ 34, 1, 2, 2]
      (words 0x107100 [len, word, 0x17180, 0x171C0, 0x17140, 2 ^ 32 + len] (mapped s))))))

/-- What may be asked of areas of a party on core 0 in context 1, where its TLB holds their translation. -/
theorem area_of {s m : State} {w : Who} (hw : w.core = 0 ∧ w.ctx = 1) {r wr : Bool}
    (he : ∀ a, ((s.core 0).tlb.find? fun e => e.hits 1 a).isSome = true → m.translate 0 1 a = s.translate 0 1 a) : ∀ ps : List (Nat × Nat),
    (∀ p ∈ ps, ((s.core 0).tlb.find? fun e => e.hits 1 p.1).isSome = true) →
    m.areaAt w .glob r wr ps = s.areaAt w .glob r wr ps
  | [], _ => rfl
  | (a, n) :: rest, h => by
    simp only [State.areaAt, State.byteAt, hw.1, hw.2, he a (h (a, n) (List.mem_cons_self ..)),
      area_of hw he rest fun p q => h p (List.mem_cons_of_mem _ q)]

/-- The area lies at the same pieces in every state with the same TLBs. -/
theorem areaSteady {s : State} {w : Who} (hw : w.core = 0 ∧ w.ctx = 1) {a n : Nat} {r wr : Bool}
    (h : ∀ p ∈ piecesOf a n, ((s.core 0).tlb.find? fun e => e.hits 1 p.1).isSome = true) :
    Claims.Steady s (fun m => m.area w .glob a n r wr) (s.area w .glob a n r wr) := fun m _ _ hp _ hh h2 he ht =>
  area_of hw (fun _ => translate_of hp hh h2 he (ht 0).1) _ h

/-- The places that a party's writes have now. -/
def placed (s : State) (w : Who) (x : Nat × List Byte) : List (Nat × Nat × Nat) := (s.area w .glob x.1 x.2.length false true).1

/-- The check that writes lie where the party's TLB says. -/
def fixedAt (s : State) (w : Who) (puts : List (Nat × List Byte)) : Bool :=
  puts.all fun x => (s.area w .glob x.1 x.2.length false true).2.isNone &&
    ((piecesOf x.1 x.2.length).all fun p => ((s.core 0).tlb.find? fun e => e.hits 1 p.1).isSome) &&
    (placed s w x).all fun p => s.local_ p.1

theorem writesAt {s : State} {w : Who} {puts : List (Nat × List Byte)} (hw : w.core = 0 ∧ w.ctx = 1) (h : fixedAt s w puts = true) :
    Claims.WritesAt s w puts (placed s w) := by
  intro x hx
  have h := List.all_eq_true.mp h x hx
  simp only [Bool.and_eq_true, List.all_eq_true] at h
  refine ⟨?_, fun p hp => .inr (h.2 p hp)⟩
  rw [show (placed s w x, none) = s.area w .glob x.1 x.2.length false true from
    Prod.ext rfl (Option.isNone_iff_eq_none.mp h.1.1).symm]
  exact areaSteady hw h.1.2

theorem wordAt {s : State} {w : Who} (hw : w.core = 0 ∧ w.ctx = 1) {a k : Nat}
    (h : ((s.core 0).tlb.find? fun e => e.hits 1 a).isSome = true ∧ ((s.core 0).tlb.find? fun e => e.hits 1 (a + 8 - 1)).isSome = true ∧
      s.spanAt w .glob 0 a 8 true true = .ok k 0) (l : s.local_ k = true) : Claims.WordAt s w a k := ⟨0, steady hw h, .inr l⟩

theorem recordAt {s : State} {w : Who} (hw : w.core = 0 ∧ w.ctx = 1) {a k : Nat}
    (h : (∀ p ∈ piecesOf a 64, ((s.core 0).tlb.find? fun e => e.hits 1 p.1).isSome = true) ∧
      s.area w .glob a 64 true false = ([(k, 0, 64)], none) ∧ s.local_ k = true) : Claims.RecordAt s w a k :=
  ⟨0, h.2.1 ▸ areaSteady hw h.1, .inr h.2.2⟩

/-- The ring of the tests. -/
def kvRing : Ring := ⟨.glob, 0x107200, 0, 0x17240, 1, 0, 0, 1⟩

theorem ringPlace {s : State} {w : Who} (hw : w.core = 0 ∧ w.ctx = 1)
    (h : (((s.core 0).tlb.find? fun e => e.hits 1 0x17200).isSome = true ∧ ((s.core 0).tlb.find? fun e => e.hits 1 (0x17200 + 64 - 1)).isSome = true ∧
        s.spanAt w .glob 0 0x17200 64 true true = .ok 0x107200 0) ∧
      (((s.core 0).tlb.find? fun e => e.hits 1 0x17240).isSome = true ∧ ((s.core 0).tlb.find? fun e => e.hits 1 (0x17240 + 16 - 1)).isSome = true ∧
        s.spanAt w .glob 0 0x17240 16 true true = .ok 0x107240 0) ∧
      s.ringIn .glob 0x107200 0 = kvRing ∧ s.local_ 0x107240 = true ∧ s.local_ 0x107200 = true ∧ s.local_ 0x107208 = true) :
    Claims.RingPlace s w 0x17200 0 0x107240 0x107200 := by
  obtain ⟨h1, h2, r, l⟩ := h
  refine ⟨.glob, 0x17200, 0, 0, by decide, steady hw h1, ?_, ?_, ?_, .inr l.1, .inr l.2.1, .inr l.2.2, by unfold Claims.Apart; decide⟩ <;> rw [r]
  · decide
  · decide
  · exact steady hw h2

theorem witness_KvOperations_append : let t : Team := { placeTeam with sreg := [(1, 0x17100), (2, hnd 0), (62, 64), (63, 128)] }
    let s := ringed 0 0 0 1 0 0 (ts fun _ => t)
    (TeamIssues (.kvapp g 1 62 2 .pack) g s 0 0 t ∧ (t.rs 1).toNat % 64 = 0 ∧ (t.rs 62).toNat % 64 = 0 ∧ (t.rs (sregAt 62 1)).toNat % 64 = 0) ∧
    Claims.RingReady s 0 t (t.rs 2) true true Ring.rsv (ring 0 0 0 1) ∧ Claims.Reserves s 0 t (ring 0 0 0 1) (packKey 1 64) 0 :=
  ⟨by decide +kernel, ready (by decide +kernel), reserves (by decide +kernel)⟩

theorem witness_KvOperations_event : TeamIssues (.kvevt g 0 3) g (ts id) 0 0 placeTeam ∧ popcount placeTeam.act = 1 ∧
    placeTeam.adm g ≠ 0 ∧ (placeTeam.rs 0).toNat % 64 = 0 ∧ (3 : Fin 4).val < (ts id).stacksN ∧ (ts id).owes 2 (ts id).seq = false ∧
    (ts id).unitsRun ((ts id).partOf 3) = true ∧ ((ts id).stk 3).strikeQ.length < 64 := by decide +kernel

/-- A stream whose s60 to s63 name the entry and one row. -/
def rA : Ridge := { placeRidge with sreg := [(60, 0x17100)] }
def sA : State := kv 1 0 (rs fun _ => rA)

theorem witness_KvOperations_attend : RidgeIssues (.attn g 6 60 12 false true true true) g sA 0 rA ∧ rA.adm g = true ∧
    sA.block? rA.blk = some placeBlock ∧ placeBlock.attn = none ∧ (rA.rs 60).toNat % 64 = 0 ∧ fld (rA.rs (sregAt 60 1)).toNat 0 32 % 64 = 0 ∧
    sA.owes rA.uid sA.seq = false ∧ sA.teamOf rA.uid = none ∧ sA.outstanding rA.uid = false ∧ (∀ j, j < 2 → placeBlock.accBusy (6 + j) = false) ∧
    fld (rA.rs (sregAt 60 1)).toNat 37 27 = 0 ∧ fld (rA.rs (sregAt 60 3)).toNat 32 32 = 0 ∧
    (match sA.attnCheck (Claims.streamOf rA 0) 0x17100 0 1 6 false with
     | (.ok x, pages) => let m := sA.tlbFills 0 rA.ctx pages
       decide (x.entry = (0x107108, 0) ∧ x.pool.hd = 64 ∧ (∀ p ∈ pages, sA.walkWaits 0 rA.ctx p = false) ∧
        m.kvEcc (Claims.streamOf rA 0) (x.reads 0x17100 0x17140 0x17180 true true) = none ∧
        m.unitHeld x.entry.1 (toLe 8 (ofLe (m.homeRead x.entry.1 8) + 2 ^ (16 * x.g))) = false ∧ sA.local_ x.entry.1 = true)
     | _ => false) = true := by decide +kernel

theorem witness_KvOperations_attend_clean : Claims.Clean sA := clean _ (by decide +kernel) (by decide +kernel)

/-- An ATTN with an addition to make, and one whose additions stand in flight. -/
theorem witness_KvOperations_complete : let a : AttnRun := ⟨9, 0x107108, 0, 0, [(0x106100, 0, 0x3F800000)], 0⟩
    let b : Block := { placeBlock with attn := some a }
    let s := (kv 1 1 (rs id)).setBlock 1 b
    (s.ridge? 0 = some placeRidge ∧ s.block? 1 = some b ∧ s.outstanding a.id = false ∧ s.local_ 0x106100 = true ∧ s.local_ a.entry = true) ∧
    Claims.Roomy s := ⟨by decide +kernel, fun _ => rfl⟩

theorem witness_KvOperations_complete_waits : let a : AttnRun := ⟨9, 0x107108, 0, 0, [], 0⟩
    let b : Block := { placeBlock with attn := some a }
    let s := { (rs id).setBlock 1 b with accs := [{ stA with uid := 9, core := unitCore 0 }] }
    s.ridge? 0 = some placeRidge ∧ s.block? 1 = some b ∧ s.outstanding a.id = true := by decide +kernel

/-- An append whose rows stand in the pack, before its claim and after. -/
def kvOp (phase : Nat) : Op := ⟨3, .kvapp 0x17100 64 128 .pack phase, pw, 0, 3, 0x17200, 0, none, none, [], false, [], none⟩

theorem witness_KvOperations_claim : let s (w : Nat) : State := { kv 0 w (ts id) with ops := [kvOp 0] }
    ((s 0).op? 3 = some (kvOp 0) ∧ (s 0).unitWord pw .glob 0x17108 8 true true = some (0x107108, 0, 0) ∧ claimable 0 = true ∧
      (s 0).unitHeld 0x107108 (toLe 8 (0 + 2 ^ 34)) = false ∧ (s 0).local_ 0x107108 = true ∧
      (s 0).unitWaits 0 pw .glob [0x17100] = false ∧ (s (2 ^ 33)).unitWaits 0 pw .glob [0x17100] = false) ∧ Claims.Fresh (s 0) (kvOp 0) ∧
    ((s (2 ^ 33)).unitWord pw .glob 0x17108 8 true true = some (0x107108, 0, 2 ^ 33) ∧ claimable (2 ^ 33) = false) ∧
    Claims.Fresh (s (2 ^ 33)) (kvOp 0) := ⟨by decide +kernel, fresh (by decide +kernel), by decide +kernel, fresh (by decide +kernel)⟩

/-- The writes of the append: the take, the rows with position and mass, the length. -/
def appending : State := { kv 0 (2 ^ 34) (ts id) with ops := [kvOp 1] }
def appendPuts : List (Nat × List Byte) :=
  match appending.append (kvOp 1) 0x17100 64 128 .pack with | .ok take puts len _ _ => take ++ puts ++ [len] | _ => []

theorem witness_KvOperations_rows : (appending.op? 3 = some (kvOp 1) ∧
      (match appending.append (kvOp 1) 0x17100 64 128 .pack with | .ok _ _ _ n look => decide (n = 128 ∧ appending.unitWaits 0 pw .glob look.pages = false) | _ => false) = true ∧
      (appendPuts.all fun x => (placed appending pw x).all fun p =>
        decide ((p.1 + p.2.2 ≤ 0x107200 ∨ 0x107250 ≤ p.1) ∧ (p.1 + p.2.2 ≤ 0x107108 ∨ 0x107110 ≤ p.1))) = true) ∧
    (Claims.Fresh appending (kvOp 1) ∧ Claims.Roomy appending) ∧ Claims.WritesAt appending pw appendPuts (placed appending pw) ∧
    Claims.WordAt appending pw 0x17108 0x107108 ∧ Claims.RingPlace appending pw (kvOp 1).ring 0 0x107240 0x107200 :=
  ⟨by decide +kernel, ⟨fresh (by decide +kernel), fun _ => rfl⟩, writesAt ⟨rfl, rfl⟩ (by decide +kernel),
    wordAt ⟨rfl, rfl⟩ (by decide +kernel) (by decide +kernel), ringPlace ⟨rfl, rfl⟩ (by decide +kernel)⟩

/-- A Strike command on a sequence of two tokens, of which it keeps one. -/
def run (phase : Nat) : StrikeRun :=
  ⟨7, 0x17280, ([0x17100, 0x17200, 1, 0, 0, 0, 0, 0] : List Nat).flatMap (toLe 8), 2, 0, 1, 0, 0x17200, 0, phase, [], 0, 2, 1, 128, [], 0, 0, 0⟩
def striking (phase word : Nat) : State := (kv 2 word (ts id)).modStk 0 fun k => { k with strike := some (run phase) }

theorem witness_KvOperations_strike_claim : let s := striking 0 0
    (s.unitsRun (s.partOf 0) = true ∧ (s.stk 0).strike = some (run 0) ∧ s.outstanding 7 = false ∧ (cmdOf (run 0).buf).bad = false ∧
      s.unitWaits 0 (run 0).who .glob [0x17100] = false ∧
      (cmdOf (run 0).buf).seq = 0x17100 ∧ s.areaFail (run 0).who .glob 0x17100 64 true true = none ∧
      claimable (le64 (s.kvRead (run 0).who (0x17100 + 8) 8) 0) = true) ∧ Claims.Roomy s ∧
    Claims.WordAt s (run 0).who (0x17100 + 8) 0x107108 :=
  ⟨by decide +kernel, fun _ => rfl, wordAt ⟨rfl, rfl⟩ (by decide +kernel) (by decide +kernel)⟩

/-- The writes of its work. -/
def strikePuts : List (Nat × List Byte) :=
  match (striking 1 (2 ^ 33)).strikeWork (run 1).who (cmdOf (run 1).buf) with | .go take puts len _ _ _ _ _ => take ++ puts ++ [len] | _ => []

theorem witness_KvOperations_strike_work : let s := striking 1 (2 ^ 33)
    (s.unitsRun (s.partOf 0) = true ∧ (s.stk 0).strike = some (run 1) ∧ s.outstanding 7 = false ∧
      (match s.strikeWork (run 1).who (cmdOf (run 1).buf) with
       | .go _ _ _ g len n bytes look => decide (g = 0 ∧ len = 2 ∧ n = 1 ∧ bytes = 128 ∧ s.unitWaits 0 (run 1).who .glob look.pages = false)
       | _ => false) = true ∧
      (strikePuts.all fun x => (placed s (run 1).who x).all fun p => decide (p.1 + p.2.2 ≤ 0x107108 ∨ 0x107110 ≤ p.1)) = true) ∧
    Claims.Roomy s ∧ Claims.WritesAt s (run 1).who strikePuts (placed s (run 1).who) ∧ Claims.WordAt s (run 1).who (0x17100 + 8) 0x107108 :=
  ⟨by decide +kernel, fun _ => rfl, writesAt ⟨rfl, rfl⟩ (by decide +kernel), wordAt ⟨rfl, rfl⟩ (by decide +kernel) (by decide +kernel)⟩

def kvPool : KvPool := ⟨0x12000, 0x16000, 0x17000, 2, 64, .f8e4, 1, 2, 2⟩
def drainPuts : List (Nat × List Byte) := [(kvPool.slot 2, toLe 4 0)]

theorem witness_KvOperations_strike_drain : let s := striking 3 (2 ^ 33 + 2 ^ 32)
    let w := (run 3).who
    let b := s.kvRead w (cmdOf (run 3).buf).seq 64
    (s.unitsRun (s.partOf 0) = true ∧ (s.stk 0).strike = some (run 3) ∧ s.outstanding 7 = false ∧ fld (le64 b 8) 0 16 = 0 ∧
      fld (le64 b 0x20) 0 57 = 0x17140 ∧ poolOf (s.kvRead w 0x17140 64) = some kvPool ∧ kvPool.give = kvPool.claim ∧
      (List.range (kvPages 2)).map (fun j => le32 (s.kvRead w (fld (le64 b 16) 0 57 + 4 * j) 4) 0) = [0] ∧
      (drainPuts.all fun x => (placed s w x).all fun p => decide (p.1 + p.2.2 ≤ 0x107100)) = true) ∧
    (Claims.Roomy s ∧ Claims.RecordAt s w 0x17100 0x107100 ∧ Claims.RecordAt s w 0x17140 0x107140) ∧
    (Claims.WordAt s w (0x17100 + 8) (0x107100 + 8) ∧ Claims.WordAt s w (0x17140 + 0x30) (0x107140 + 0x30) ∧
      Claims.WordAt s w (0x17140 + 0x28) (0x107140 + 0x28)) ∧
    Claims.WritesAt s w drainPuts (placed s w) ∧ Claims.RingPlace s w (run 3).ring 0 0x107240 0x107200 ∧
    ([(0x107240, 16), (0x107200, 64), (0x107100, 64), (0x107140, 64)] : List (Nat × Nat)).Pairwise Claims.Apart :=
  ⟨by decide +kernel, ⟨fun _ => rfl, recordAt ⟨rfl, rfl⟩ (by decide +kernel), recordAt ⟨rfl, rfl⟩ (by decide +kernel)⟩,
    ⟨wordAt ⟨rfl, rfl⟩ (by decide +kernel) (by decide +kernel), wordAt ⟨rfl, rfl⟩ (by decide +kernel) (by decide +kernel),
      wordAt ⟨rfl, rfl⟩ (by decide +kernel) (by decide +kernel)⟩,
    writesAt ⟨rfl, rfl⟩ (by decide +kernel), ringPlace ⟨rfl, rfl⟩ (by decide +kernel), by simp [Claims.Apart]⟩

/-! Watches. A descriptor stands at 0x10100; its range is the 64 KiB page's upper half, in granules of 64 KiB / 1024; its bitmap at 0x14000. -/

/-- The place that a watch of the tests gives a granule's pending bit. -/
def watchC (park : Nat) : Nat := 3 * 2 ^ 4 + park * 2 ^ 8 + 256 * 2 ^ 32
/-- A team that sets watch 255. -/
def tw : Team := { placeTeam with sreg := [(1, 0x10100), (2, 255)] }
def sw : State := words 0x100100 [0x18000, 0x8000, watchC 0, 0x14000] (ts fun _ => tw)
/-- The watch of that descriptor, before its places are known and once it is set. -/
def w0 : Watch := ⟨0x18000, 0x8000, 256, 0, false, 3, 0, 0x14000, [], []⟩
def w1 (park : Bool) : Watch := { w0 with park := park, ext := [(0, 512, 0x108000)], bits := [(0, 64, 0x104000)] }
/-- The state in which watch 255 is set, with records. -/
def watched (park : Bool) (rs : List TRec) (s : State) : State :=
  { s.modCtx 1 (fun x => { x with watches := [(255, w1 park)] }) with slices := [(2, ⟨rs, [], [], 0, 0⟩)] }
/-- A record of that watch. -/
def rec (i depth : Nat) : TRec := ⟨0x18000 + 64 * i, i, 0, 1, depth, 255, i, false⟩

theorem homes {s : State} {w : Watch} {rs : List (Nat × TRec)}
    (h : (rs.all fun r => match w.pendByte r.2.index with | some pa => s.local_ pa | none => true) = true) :
    ∀ r ∈ rs, ∀ pa, w.pendByte r.2.index = some pa → s.local_ pa = true := fun r hr pa e => by
  have := List.all_eq_true.mp h r hr
  rw [e] at this
  exact this

theorem witness_WatchInstructions_watch : let n := (tw.rs 2).toNat
    let w := tw.who 0
    (TeamIssues (.watch g 63 1 2) g sw 0 0 tw ∧ tw.adm g ≠ 0 ∧ sw.acquiring tw.uid = false ∧ sw.forked tw.uid sw.seq = true ∧
        sw.teamOf tw.uid = some (tkey 0 0, tw) ∧ n ≤ 255 ∧ (tw.rs 1).toNat % 64 = 0) ∧
      (sw.area w .glob 0x10100 64 true false = ([(0x100100, 0, 64)], none) ∧ sw.badPieces [(0x100100, 0, 64)] = false ∧
        watchOf (sw.getPieces [(0x100100, 0, 64)]) = some w0 ∧ sw.runsAt w w0.base w0.len true false = ([(0, 0x8000, 0x108000)], []) ∧
        sw.runsAt w w0.pend w0.bitBytes true true = ([(0, 64, 0x104000)], [])) ∧
      (mergeRuns [(0, 0x8000, 0x108000)] = [(0, 0x8000, 0x108000)] ∧ mergeRuns [(0, 64, 0x104000)] = [(0, 64, 0x104000)] ∧
        sw.local_ 0x108000 = true ∧ sw.watch? tw.ctx n = none ∧ sw.camUsed + 1 ≤ 512) ∧
      (∀ i, i < 64 → sw.local_ (0x104000 + i) = true) ∧ Claims.Apart (0x108000, 0x8000) (0x104000, 64) :=
  ⟨by decide +kernel, by decide +kernel, by decide +kernel, by decide +kernel, by unfold Claims.Apart; decide⟩

theorem witness_WatchInstructions_inUse : let s := words 0x100100 [0x18000, 0x8000, watchC 0, 0x14000] (watched false [] (ts fun _ => tw))
    TeamIssues (.watch g 63 1 2) g s 0 0 tw ∧ s.acquiring tw.uid = false ∧ s.forked tw.uid s.seq = true ∧
    s.area (tw.who 0) .glob 0x10100 64 true false = ([(0x100100, 0, 64)], none) ∧ s.badPieces [(0x100100, 0, 64)] = false ∧
    watchOf (s.getPieces [(0x100100, 0, 64)]) = some w0 ∧ s.runsAt (tw.who 0) w0.base w0.len true false = ([(0, 0x8000, 0x108000)], []) ∧
    s.runsAt (tw.who 0) w0.pend w0.bitBytes true true = ([(0, 64, 0x104000)], []) ∧ s.local_ 0x108000 = true ∧
    (s.watch? tw.ctx 255).isSome = true := by decide +kernel

theorem witness_WatchInstructions_unwatch : let n := (tw.rs 2).toNat
    let s := watched true [rec 3 1] (ts fun _ => tw)
    TeamIssues (.unwatch g 63 2) g sw 0 0 tw ∧ n ≤ 255 ∧ sw.watch? tw.ctx n = none ∧
    TeamIssues (.unwatch g 63 2) g s 0 0 tw ∧ tw.adm g ≠ 0 ∧ s.acquiring tw.uid = false ∧
    (s.watch? tw.ctx n).isSome = true ∧ (∀ q ∈ s.teams, q.2.ctx = tw.ctx → q.2.parksOn ≠ some n) := by decide +kernel

/-- A team in slot 1 that is parked on the watch. -/
theorem witness_WatchInstructions_unwatch_parked :
    let u : Team := { placeTeam with uid := 9, sreg := [(2, 255)], wait := some (.instr (.wpark g1 62 2 3 95) 3 (0x10010, true)) }
    let s := (watched true [] (ts fun _ => tw)).setTeam 0 1 u
    TeamIssues (.unwatch g 63 2) g s 0 0 tw ∧ tw.adm g ≠ 0 ∧ s.acquiring tw.uid = false ∧ (s.watch? tw.ctx 255).isSome = true ∧
    (s.teams.map Prod.fst).Nodup ∧ s.teams.find 1 = some u ∧ 1 ≠ tkey 0 0 ∧ u.ctx = tw.ctx ∧ (u.rs 2).toNat = 255 := by decide +kernel

/-- A team of four lanes that parks on watch 255, with a deadline. -/
def tpk : Team := { placeTeam with act := 0xF, sreg := [(2, 255), (3, 5)] }

theorem witness_WatchInstructions_wpark : let s := watched true [rec 3 1, rec 511 3] (ts fun _ => tpk)
    let rs := (s.parkRecords 1 255).take (lanes (tpk.adm g)).length
    (s.stashOk = true ∧ TeamIssues (.wpark g 62 2 3 95) g s 0 0 tpk ∧ tpk.adm g ≠ 0 ∧ (tpk.rs 2).toNat ≤ 255 ∧
    s.watch? tpk.ctx 255 = some (w1 true) ∧ (w1 true).park = true ∧ s.acquiring tpk.uid = false ∧ s.teamOf tpk.uid = some (tkey 0 0, tpk) ∧
    s.parkFirst tpk.uid tpk.ctx 255 s.seq = true ∧ rs = [(2, rec 3 1), (2, rec 511 3)] ∧
    s.headroom 0 tpk (slicesFor 2 ((lanes (tpk.adm g)).take rs.length)) = true ∧ ∀ r ∈ rs, r.2.depth ≤ (w1 true).dlim) ∧
    ∀ r ∈ rs, ∀ pa, (w1 true).pendByte r.2.index = some pa → s.local_ pa = true :=
  ⟨by decide +kernel, homes (by decide +kernel)⟩

/-- It waits in WPARK, and a record is there for it. -/
theorem witness_WaitEndsRunTheInstruction_park : let t : Team := { tpk with wait := some (.instr (.wpark g 62 2 3 95) 3 (0x10010, true)) }
    let s := watched true [rec 3 1] (ts fun _ => t)
    s.waitingIn (.team 0 0) = some (.wpark g 62 2 3 95) ∧ s.parkHolds (.team 0 0) = true := by decide +kernel

theorem witness_WatchInstructions_lapse : let s := { watched true [] (ts fun _ => tpk) with tick := 5 }
    TeamIssues (.wpark g 62 2 3 95) g s 0 0 tpk ∧ tpk.adm g ≠ 0 ∧ s.watch? tpk.ctx 255 = some (w1 true) ∧ s.acquiring tpk.uid = false ∧
    s.parkRecords tpk.ctx 255 = [] ∧ tpk.rs 3 ≠ 0 ∧ (tpk.rs 3).toNat ≤ s.tick.toNat := by decide +kernel

/-! Records of triggers, pools and launches. -/

/-- The header of the placed block's launch, as a configured pool's; its bits for priorities: 2 up to 5. -/
def pool (recs : List PRec) (gangs : List Gang) : Pool :=
  ⟨placeBlock.hdr, BitVec.ofNat 64 (2 + 5 * 2 ^ 8 + 3 * 2 ^ 16), 100, recs, gangs, 0, 0⟩
def pooled (p : Pool) (s : State) : State := s.modCtx 1 fun x => { x with pools := [(7, p)] }
/-- A pending bit to be set, of the last granule. -/
def por : PendOr := ⟨1, 255, 511, 2, 1, 0⟩

theorem witness_TriggerRecords_or : let s := { watched false [] (ts id) with ors := [por] }
    let t := s.memWrite 0x10403F [0x80]
    s.ors[0]? = some por ∧ s.orBlocked por = false ∧ s.watch? por.ctx por.watch = some (w1 false) ∧
    (w1 false).pendByte por.index = some 0x10403F ∧ s.local_ 0x10403F = true ∧ (s.memGet 0x10403F).getLsbD (por.index % 8) = false ∧
    t.orBlocked por = false ∧ (t.memGet 0x10403F).getLsbD (por.index % 8) = true := by decide +kernel

theorem witness_TriggerRecords_drain : let s := { ts id with slices := [(2, ⟨[], [rec 3 1], [], 0, 0⟩)] }
    let t := { watched false [] (ts id) with slices := [(2, ⟨[], [rec 3 1], [], 0, 0⟩)] }
    (s.slice 2).ring = [rec 3 1] ∧ s.watch? 1 255 = none ∧ (t.slice 2).ring = [rec 3 1] ∧ (rec 3 1).dead = false ∧
    t.watch? 1 255 = some (w1 false) ∧ (t.slice 2).on 1 255 < (w1 false).quota ∧ (t.slice 2).ondie.length < 256 := by decide +kernel

theorem witness_TriggerRecords_handoff : let s := pooled (pool [] []) (watched false [rec 3 4] (ts id))
    let s' := s.modCtx 1 fun x => { x with watches := [(255, { w1 false with pool := 7 })] }
    (s'.slice 2).ondie[0]? = some (rec 3 4) ∧ (∀ q ∈ (s'.slice 2).ondie.take 0, ¬ (q.ctx = 1 ∧ q.watch = 255)) ∧
    s'.watch? 1 255 = some { w1 false with pool := 7 } ∧ (s'.ctx 1).pools.find 7 = some (pool [] []) ∧ (pool [] []).listen = false ∧
    (pool [] []).recs.length + 1 < (pool [] []).hdr.width := by decide +kernel

/-! A launch header at 0x10300, of one block of one team; a signal at 0x14000. -/

def headed (w0 w4 : Nat) (s : State) : State :=
  words 0x100300 [w0, 0, 0, 10 + 4 * 2 ^ 7, w4, 1, 2 ^ 44 + 64, 7, 1, 2, 3, 4, 5, 6, 7, 8] s
/-- Limits that a core has, and limits that none has. -/
def fitsW : Nat := 128 * 2 ^ 56 + 16 * 2 ^ 48 + 64 * 2 ^ 40 + 64 * 2 ^ 32 + 96 * 2 ^ 24
def bigW : Nat := fitsW + 31 * 2 ^ 19 + 15 * 2 ^ 15
/-- A team that launches. -/
def tl : Team := { placeTeam with sreg := [(1, 0x10300), (2, 0x14000), (3, 7)] }
def sl (w0 w4 : Nat) : State := headed w0 w4 (pooled (pool [] []) (ts fun _ => tl))

theorem witness_LaunchAndSpecialRegisters_grid : let s := sl 0x10000 fitsW
    let m := s.tlbFills 0 1 [0x14000]
    TeamIssues (.launchGrid g 63 1 (some 2)) g s 0 0 tl ∧ tl.adm g ≠ 0 ∧ s.acquiring tl.uid = false ∧ s.owes tl.uid s.seq = false ∧
    0x14000 % 8 = 0 ∧ s.walkWaits 0 tl.ctx 0x14000 = false ∧
    s.spanAt (tl.who 0) .glob 0 0x14000 8 true true = .ok 0x104000 0 ∧ m.headerPool (tl.who 0) 0x10300 = some 7 ∧
    (s.ctx 1).pools.find 7 = some (pool [] []) ∧
    (match m.checkHeader (tl.who 0) 0x10300 true with | .ok l => decide (l.pool = 7 ∧ l.blocks = 1 ∧ l.entry = 0x10000) | _ => false) = true := by
  decide +kernel

theorem witness_LaunchAndSpecialRegisters_status :
    (TeamIssues (.launchGrid g 63 0 none) g (sl 0 0) 0 0 tl ∧ (sl 0 0).headerPool (tl.who 0) 0 = none) ∧
    (let s := headed 0x10000 fitsW (ts fun _ => tl)
     TeamIssues (.launchGrid g 63 1 none) g s 0 0 tl ∧ s.headerPool (tl.who 0) 0x10300 = some 7 ∧ (s.ctx 1).pools.find 7 = none) ∧
    ((sl (2 ^ 57) fitsW).headerPool (tl.who 0) 0x10300 = some 7 ∧ ((sl (2 ^ 57) fitsW).ctx 1).pools.find 7 ≠ none ∧
     (sl (2 ^ 57) fitsW).checkHeader (tl.who 0) 0x10300 true = .bad) ∧
    ((sl 0x10000 bigW).headerPool (tl.who 0) 0x10300 = some 7 ∧
     (match (sl 0x10000 bigW).checkHeader (tl.who 0) 0x10300 true with | .noFit _ => true | _ => false) = true) := by decide +kernel

theorem witness_LaunchAndSpecialRegisters_record : let s := pooled (pool [] []) (ts fun _ => tl)
    TeamIssues (.launchRecord g 3 60) g s 0 0 tl ∧ tl.adm g ≠ 0 ∧ (tl.rs 3).toNat ≤ 255 ∧ (s.ctx tl.ctx).pools.find 7 = some (pool [] []) ∧
    s.acquiring tl.uid = false ∧ s.owes tl.uid s.seq = false ∧ (pool [] []).listen = false ∧
    (pool [] []).recs.length + (lanes (tl.adm g)).length < (pool [] []).hdr.width ∧
    (pool [] []).recs.length + (lanes (tl.adm g)).length ≤ 65536 := by decide +kernel

theorem witness_LaunchAndSpecialRegisters_team : let i := Instr.srd g (.v 63) true .wid
    Sr.tick ≠ .mflags ∧ TeamIssues (.srd g (.s 63) false .tick) g (ts id) 0 0 placeTeam ∧ lowest (placeTeam.adm g) = some 0 ∧
    TeamIssues (.swr g 1) g (ts id) 0 0 placeTeam ∧ placeTeam.adm g ≠ 0 ∧
    (ts four).stashOk = true ∧ TeamIssues i g (ts four) 0 0 (four placeTeam) ∧
    (ts four).lacking 0 (four placeTeam) 0 ((vecRun i ((four placeTeam).x (ts four) 0 0 g) (ts four) 63 1
      (fun l => (Claims.srValue (ts four) 0 (four placeTeam) .wid l).toNat / 2 ^ 32 % 2 ^ 32) fun _ => 0).needs 1
        (passes ((four placeTeam).adm g))) = none := by decide +kernel

theorem witness_LaunchAndSpecialRegisters_stream : srOnRidge .mflags = true ∧
    RidgeIssues (.srd g (.s 63) false .mflags) g (rs id) 0 placeRidge ∧ placeRidge.adm g = true := by decide +kernel

theorem witness_LaunchAndSpecialRegisters_work : let t : Team := { placeTeam with sreg := [(1, -1)] }
    stackOf 0 < 8 ∧ TeamIssues (.wkadd g 1 15) g (ts fun _ => t) 0 0 t ∧ t.adm g ≠ 0 ∧ t.rs 1 ≠ 0 ∧
    TeamIssues (.wkadd g 0 15) g (ts id) 0 0 placeTeam ∧ placeTeam.rs 0 = 0 ∧
    TeamIssues (.wkdone g 15) g (ts id) 0 0 placeTeam ∧ (ts id).forked 2 (ts id).seq = true := by decide +kernel

/-- A record of a pool, as old as the pool's timer. -/
def prec : PRec := ⟨1, 2, 3, false, none, 0, 900⟩
/-- A gang that waits for a core. -/
def gang : Gang := ⟨none, 9, placeLaunch, [], false, 0, 1, none, 0, false⟩

theorem witness_PoolsAndPlacement_pool : let s := { pooled (pool [prec] [gang]) (ts id) with tick := 100000 }
    let p := pool [prec] [gang]
    (s.ctx 1).pools.find 7 = some p ∧ prec.tick + p.timer ≤ s.tick.toNat ∧ p.listen = false ∧ p.recs.length ≤ p.hdr.width ∧ p.gangs ≠ [] ∧
    p.since + max 1 (s.partn (s.ctx 1).part).age.toNat * 1000 ≤ s.tick.toNat ∧ p.prio + p.raised < p.ceil := by decide +kernel

theorem witness_PoolsAndPlacement_reserve : let s := { pooled (pool [] [gang]) (ts id) with tick := 1000001 }
    0 < s.stacksN ∧ (s.partn (s.partOf 0)).halting = none ∧ (1, gang) ∈ s.oldGangs (s.partOf 0) 0 ∧
    (∀ x ∈ s.oldGangs (s.partOf 0) 0, x = (1, gang)) ∧ s.reserveCore 0 gang = some 1 ∧
    (∀ x ∈ s.cores, stackOf x.1 = 0 → x.2.reserved = none) ∧ (∀ x ∈ s.blocks, s.block? x.1 = some x.2) := by decide +kernel

theorem witness_PoolsAndPlacement_place : let p := pool [] [gang]
    let s := pooled p (ts id)
    0 < s.stacksN ∧ (s.partn (s.partOf 0)).halting = none ∧ s.waiting (s.partOf 0) 0 = [(2, 263, 1, 7, gang)] ∧
    s.pickCore 0 1 gang = ([], some 1) ∧ (∀ x ∈ s.cores, x.2.reserved = some gang.id → x.1 = 1) ∧ (s.ctx 1).pools.find 7 = some p ∧ gang.isRec = false ∧ gang.recs = [] ∧ gang.hdr.dict = 0 ∧
    gang.dom = none ∧ (s.freeSlots 1).length ≥ gang.hdr.teams ∧ 1 ≤ gang.hdr.words ∧ gang.hdr.words ≤ 32 ∧ gang.hdr.mentry ≠ 0 := by
  decide +kernel

/-- Every state that differs in its next free value alone finds the placed page, whose tables stand in this package. -/
theorem found {s : State} (hw : s.walk 1 0x14000 = .ok ⟨1, 0x10000, 16, 0x100000, true, true, true, 0⟩)
    (ht : tablesHere s 0x14000 5 0 ((s.ctx 1).ptroot * 4096) = true) (he : s.eccLines = []) (hx : s.cxlLost = []) :
    Claims.Translates s 1 0x14000 ⟨1, 0x10000, 16, 0x100000, true, true, true, 0⟩ :=
  ⟨clean s he hx, fun f => (walk_free s f 1 0x14000 ht).trans hw⟩

/-- A signal's word lies at 0x104000: its page admits reads and writes. -/
theorem signalWord {s : State} {new : Nat} {rd : Bool} (ht : Claims.Translates s 1 0x14000 ⟨1, 0x10000, 16, 0x100000, true, true, true, 0⟩)
    (h : s.local_ 0x104000 = true ∧ s.unitHeld 0x104000 (toLe 8 new) = false ∧ s.behind 0 0x104000 8 = false) :
    Claims.UnitWord s 1 0 0x14000 0x104000 new rd :=
  ⟨_, ht, fun _ => rfl, rfl, rfl, by decide, h.1, h.2.1, h.2.2⟩

theorem signalLater {s : State} {id new : Nat} {rd : Bool} (ht : Claims.Translates s 1 0x14000 ⟨1, 0x10000, 16, 0x100000, true, true, true, 0⟩)
    (hb : s.behind id 0x104000 8 = true) : Claims.UnitLater s 1 id 0x14000 0x104000 new rd :=
  ⟨_, ht, fun _ => rfl, rfl, rfl, by decide, fun _ => .inr hb⟩

/-- An earlier write of a unit to that word, which waits at its home. -/
def behindA (id : Nat) : Access := { stA with uid := id, core := unitCore 0, key := 0x104000, len := 8 }

def launched (sig : Option Nat) (accs : List Access) : State := { ts id with launches := [(9, ⟨1, 0, 0, sig, []⟩)], accs := accs }

theorem witness_EndsOfWork_due :
    (launched none []).launches.find 9 = some ⟨1, 0, 0, none, []⟩ ∧ (launched none []).quiet [] = true ∧
    ((launched none []).partn 0).halting = none ∧
    (launched (some 0x14000) [behindA 0]).launches.find 9 = some ⟨1, 0, 0, some 0x14000, []⟩ ∧
    (launched (some 0x14000) [behindA 0]).quiet [] = true ∧ ((launched (some 0x14000) [behindA 0]).partn 0).halting = none := by decide +kernel

theorem witness_EndsOfWork_launch : let s := launched (some 0x14000) []
    Claims.UnitWord s 1 0 0x14000 0x104000 (Claims.less (Claims.wordHere s 0x104000)) true :=
  signalWord (found (by decide +kernel) (by decide +kernel) rfl rfl) (by decide +kernel)

theorem witness_EndsOfWork_launchLater : let s := launched (some 0x14000) [behindA 0]
    Claims.UnitLater s 1 0 0x14000 0x104000 (Claims.less (Claims.wordHere s 0x104000)) true :=
  signalLater (found (by decide +kernel) (by decide +kernel) rfl rfl) (by decide +kernel)

/-- The word of domain 15 stands at 0x14000 and is in use. -/
def embers (passes : Nat) (accs : List Access) : State :=
  { (ts id).modCtx 1 fun x => { x with qword := [(15, 2 ^ 63 + 0x14000)], emPass := [(15, passes)] } with accs := accs }

theorem witness_EndsOfWork_team : let e : Ending := ⟨77, 1, 0, 15⟩
    let s : State := { ts id with ending := [e] }
    s.ending[0]? = some e ∧ s.quiet [e.uid] = true ∧ (s.partn (s.partOf e.stack)).halting = none ∧ e.stack < 8 := by decide +kernel

theorem witness_EndsOfWork_domain : let s := embers 0 []
    let u := embers 1 []
    ((s.ctx 1).qword.get 0 15).toNat = 2 ^ 63 + 0x14000 ∧ fld (2 ^ 63 + 0x14000) 63 1 = 1 ∧ (s.ctx 1).domCount 15 = 0 ∧
    (s.partn (s.ctx 1).part).halting = none ∧ (s.ctx 1).emPass.get 0 15 = 0 ∧ (u.ctx 1).emPass.get 0 15 = 1 ∧ (u.ctx 1).domCount 15 = 0 ∧
    fld (2 ^ 63 + 0x14000) 3 54 * 8 = 0x14000 := by decide +kernel

theorem witness_EndsOfWork_domainWord : let u := embers 1 []
    Claims.UnitWord u 1 0 0x14000 0x104000 ((Claims.wordHere u 0x104000 + 1) % 2 ^ 64) false :=
  signalWord (found (by decide +kernel) (by decide +kernel) rfl rfl) (by decide +kernel)

theorem witness_EndsOfWork_domainLater : let u := embers 1 [behindA 0]
    Claims.UnitLater u 1 0 0x14000 0x104000 ((Claims.wordHere u 0x104000 + 1) % 2 ^ 64) false :=
  signalLater (found (by decide +kernel) (by decide +kernel) rfl rfl) (by decide +kernel)
/-! Time slices, freezing and saving. -/

/-- Context 2 has a gang that waits; context 1 holds the slice. -/
def sliced : State :=
  { ((ts id).modPart 0 fun p => { p with holder := some 1 }).modCtx 2 (fun x => { x with pools := [(7, pool [] [gang])] }) with tick := 2000000 }

theorem witness_SlicesFreezeAndSave_slice : (sliced.partn 0).holder = some 1 ∧ (sliced.ctx 2).part = 0 ∧ sliced.wants 2 = true ∧ (sliced.ctx 1).dbgHalt = false ∧
    (sliced.partn 0).halting = none ∧ (sliced.ctx 1).sliceTick + (sliced.sliceLen 0 1).1 ≤ sliced.tick.toNat ∧ Claims.BlocksOnce sliced :=
  ⟨by decide +kernel, by decide +kernel, by decide +kernel, by decide +kernel, by decide +kernel, by decide +kernel,
    by unfold Claims.BlocksOnce; decide +kernel⟩

/-- The clause on SCH_SWITCH: a slice shorter than twice the switch time. -/
theorem witness_SlicesFreezeAndSave_clamp : (({ sliced.modPart 0 fun p => { p with switch_ := 1000001 } with tick := 2000002 } : State).sliceLen 0 1).2 = true := by
  decide +kernel

/-- A block asked to go 200 µs ago. -/
def asked : State := { (ts id).setBlock 1 { placeBlock with req := some 0 } with tick := 200000 }

theorem witness_SlicesFreezeAndSave_freeze : asked.team? 0 0 = some placeTeam ∧ placeTeam.frozen = none ∧ asked.graceOver placeTeam.blk = true ∧ asked.pushed placeTeam = false ∧
    (ts id).team? 0 0 = some placeTeam ∧ (ts id).graceOver placeTeam.blk = false ∧
    asked.ridge? 0 = some placeRidge ∧ placeRidge.frozen = none ∧ placeRidge.ended = false ∧ asked.graceOver placeRidge.blk = true := by
  decide +kernel

/-- The block with its parties frozen; context 1's save area begins at 2^30, four pages of 1 GiB, all of them at one place. -/
def frozen (base : Nat) : State :=
  let f : Freeze := ⟨none, BitVec.allOnes 8, true⟩
  (((((ts fun t => { t with frozen := some f, wait := none }).setRidge 0 { placeRidge with frozen := some f }).setBlock 1
    { placeBlock with req := some 0 }).modCtx 1 fun x => { x with savBase := base, savSize := 2 ^ 32 })).memWrite 0x202008
      ((List.replicate 4 (2 ^ 63 + 2 ^ 59 + 2 ^ 58 + 2 ^ 56 + 2 ^ 30)).flatMap (toLe 8))

theorem witness_SlicesFreezeAndSave_noPlace : let s := frozen 0
    s.block? 1 = some { placeBlock with req := some 0 } ∧ s.allFrozen 1 = true ∧ s.drained 1 = true ∧
    (s.partn (s.partOf (stackOf 0))).halting = none ∧ s.saveEcc 1 { placeBlock with req := some 0 } = false ∧ s.savePlace 1 s.recordLen = none := by decide +kernel

theorem pieces_within (f a n : Nat) : ∀ p ∈ pieces f a n, a ≤ p.1 ∧ p.1 < a + n := by
  induction f generalizing a n with
  | zero => simp [pieces]
  | succ f ih =>
    intro p hp
    unfold pieces at hp
    split at hp
    · simp at hp
    · rcases List.mem_cons.mp hp with rfl | hp
      · exact ⟨Nat.le_refl _, by simp; omega⟩
      · have := ih _ _ p hp
        omega

theorem areaAt_none {s : State} {w : Who} {r wr : Bool} : ∀ ps : List (Nat × Nat),
    (∀ p ∈ ps, ∃ k c, s.byteAt w .glob 0 p.1 r wr = .ok k c) → (s.areaAt w .glob r wr ps).2 = none
  | [], _ => rfl
  | (a, n) :: rest, h => by
    obtain ⟨k, c, e⟩ := h (a, n) (List.mem_cons_self ..)
    simp [State.areaAt, e, areaAt_none rest fun p q => h p (List.mem_cons_of_mem _ q)]

/-- The four pages are mapped everywhere. -/
theorem frozen_walk {va : Nat} (h : 1 ≤ va / 2 ^ 30 ∧ va / 2 ^ 30 ≤ 4) :
    ∃ e, (frozen (2 ^ 30)).walk 1 va = .ok e ∧ e.r = true ∧ e.w = true := by
  have h0 : fld va 48 9 = 0 := by unfold fld; omega
  have h1 : fld va 39 9 = 0 := by unfold fld; omega
  have h2 : fld va 30 9 = va / 2 ^ 30 := by unfold fld; omega
  have h3 : ¬ 2 ^ 57 ≤ va := by omega
  have c : ((frozen (2 ^ 30)).ctx 1).ptroot * 4096 = 0x200000 ∧ (frozen (2 ^ 30)).reach 0x200000 = true ∧
      ofLe ((frozen (2 ^ 30)).homeRead 0x200000 8) = 2 ^ 63 + 0x201000 ∧ ofLe ((frozen (2 ^ 30)).homeRead 0x201000 8) = 2 ^ 63 + 0x202000 ∧
      (∀ n ∈ [1, 2, 3, 4], ofLe ((frozen (2 ^ 30)).homeRead (0x202000 + 8 * n) 8) = 2 ^ 63 + 2 ^ 59 + 2 ^ 58 + 2 ^ 56 + 2 ^ 30) ∧
      (frozen (2 ^ 30)).pteBad (2 ^ 63 + 0x201000) 0 = false ∧ (frozen (2 ^ 30)).pteBad (2 ^ 63 + 0x202000) 1 = false ∧
      (frozen (2 ^ 30)).pteBad (2 ^ 63 + 2 ^ 59 + 2 ^ 58 + 2 ^ 56 + 2 ^ 30) 2 = false ∧
      (frozen (2 ^ 30)).pkg = 0 ∧ 2 ^ 31 ≤ (frozen (2 ^ 30)).memHbm * 65536 := by decide +kernel
  obtain ⟨c1, c2, c3, c4, c5, c6, c7, c8, c10, c11⟩ := c
  have ecc (k : Nat) : (frozen (2 ^ 30)).eccBad k = false := unmarked (clean _ rfl rfl) k
  have c9 := c5 (va / 2 ^ 30) (by simp only [List.mem_cons, List.not_mem_nil, or_false]; omega)
  clear c5
  generalize frozen (2 ^ 30) = s at *
  refine ⟨⟨1, va / 2 ^ 30 * 2 ^ 30, 30, 2 ^ 30, true, true, false, 0⟩, ?_, rfl, rfl⟩
  simp only [State.walk, h3, if_false, c1, c2, if_true]
  unfold State.walkFrom
  simp only [pteIndex, h0, Nat.mul_zero, Nat.add_zero, c3]
  simp only [c6, show fld (2 ^ 63 + 0x201000) 63 1 = 1 from rfl, show fld (2 ^ 63 + 0x201000) 56 1 = 0 from rfl,
    show fld (2 ^ 63 + 0x201000) 8 48 * 256 = 0x201000 from rfl]
  simp only [Nat.one_ne_zero, Nat.zero_ne_one, if_false, Bool.false_eq_true]
  unfold State.walkFrom
  simp only [pteIndex, h1, Nat.mul_zero, Nat.add_zero, c4]
  simp only [c7, show fld (2 ^ 63 + 0x202000) 63 1 = 1 from rfl, show fld (2 ^ 63 + 0x202000) 56 1 = 0 from rfl,
    show fld (2 ^ 63 + 0x202000) 8 48 * 256 = 0x202000 from rfl]
  simp only [Nat.one_ne_zero, Nat.zero_ne_one, if_false, Bool.false_eq_true]
  unfold State.walkFrom
  simp only [pteIndex, h2, c9, c8]
  have r : s.reach (2 ^ 30 + va % 2 ^ 30) = true := by
    have p : pkgOf (2 ^ 30 + va % 2 ^ 30) = 0 := by unfold pkgOf fld; omega
    have q : fld (2 ^ 30 + va % 2 ^ 30) 45 2 = 0 := by unfold fld; omega
    have u : fld (2 ^ 30 + va % 2 ^ 30) 0 45 = 2 ^ 30 + va % 2 ^ 30 := by unfold fld; omega
    simp only [State.reach, p, q, u, c10, if_true, Bool.and_eq_true, decide_eq_true_eq]
    omega
  simp only [ecc, Bool.false_eq_true, if_false]
  show s.reached va (.ok ⟨1, va / 2 ^ 30 * 2 ^ 30, 30, 2 ^ 30, true, true, false, 0⟩) = _
  simp only [State.reached, TlbE.phys, r, if_true]

theorem savePlace_frozen (len : Nat) (h : len ≤ 2 ^ 32) (pos : 0 < len) : (frozen (2 ^ 30)).savePlace 1 len = some 0 := by
  have c : ((frozen (2 ^ 30)).ctx 1).savBase = 2 ^ 30 ∧ ((frozen (2 ^ 30)).ctx 1).savSize = 2 ^ 32 ∧ ((frozen (2 ^ 30)).ctx 1).saved = [] ∧
    (frozen (2 ^ 30)).core 1024 = (State.reset).core 1024 ∧ ((State.reset).core 1024).tlb = [] := by decide +kernel
  have w := @frozen_walk
  generalize frozen (2 ^ 30) = s at *
  obtain ⟨c1, c2, c3, c4, c5⟩ := c
  have a : (s.area (unitWho 1) .glob (2 ^ 30) len false true).2 = none := by
    refine areaAt_none _ fun p hp => ?_
    have := pieces_within _ _ _ p hp
    obtain ⟨e, he, -, hw⟩ := w (va := p.1) (by omega)
    exact ⟨e.phys p.1, e.cls, by simp [State.byteAt, State.translate, unitWho, c4, c5, he, hw]⟩
  have h' : len ≤ 4294967296 := by simpa using h
  have f : [0].filter (fun o => decide (o + len ≤ 4294967296)) = [0] := by simp [h']
  have z : ¬ ((2 : W64) ^ 32 = 0) := by decide
  simp [State.savePlace, c1, c2, c3]
  rw [f]
  exact ⟨z, by simpa [sortBy, insertBy] using a⟩

theorem witness_SlicesFreezeAndSave_save : let s := frozen (2 ^ 30)
    (s.block? 1 = some { placeBlock with req := some 0 } ∧ s.allFrozen 1 = true ∧ s.drained 1 = true ∧
      (s.partn (s.partOf (stackOf 0))).halting = none ∧ s.saveEcc 1 { placeBlock with req := some 0 } = false) ∧ s.savePlace 1 s.recordLen = some 0 := by
  have w (i : Nat) : (frozen (2 ^ 30)).sectionRoom i ≤ 2 ^ 28 + 128 := by
    have : (frozen (2 ^ 30)).sectionLen i < 2 ^ 28 := Nat.mod_lt _ (by decide)
    simp only [State.sectionRoom, cdiv]
    omega
  refine ⟨by decide +kernel, savePlace_frozen _ ?_ ?_⟩ <;> unfold State.recordLen
  · have (l : List Nat) : (l.map (frozen (2 ^ 30)).sectionRoom).sum ≤ l.length * (2 ^ 28 + 128) := by
      induction l with
      | nil => simp
      | cons a l ih =>
        have := w a
        simp only [List.map_cons, List.sum_cons, List.length_cons]
        omega
    have := this (List.range 13)
    rw [List.length_range] at this
    omega
  · omega

/-- A saved block of one team, whose record has the header alone. -/
def saved : Saved :=
  ⟨0, 64, 0x14000, { placeBlock with req := none },
    [{ placeTeam with uid := 20, blk := 19, vmap := [(32 * 63, 5)], sreg := [(63, 7)] }], [(5, 9)], none, [(pocketKey 20 1 60, 3)], true, [], 0⟩
def savedIn (head : Nat) : State := words 0x104000 [head, 0, 0, crcStd []] ((ts id).modCtx 1 fun x => { x with saved := [saved] })

theorem witness_SlicesFreezeAndSave_restore : let s := savedIn (3 * 2 ^ 56 + 2 ^ 55)
    ((s.ctx 1).saved[0]? = some saved ∧ s.partOf (stackOf 1) = (s.ctx 1).part ∧ 1 < s.coresN ∧ (s.partn (s.ctx 1).part).halting = none ∧
      (s.ctx 1).dbgHalt = false ∧ s.recordEcc 1 1 saved = none ∧ s.recordGood 1 saved = true ∧ s.stashOk = true ∧ s.fits 1 1 saved.block.hdr saved.teams.length 0 = true ∧ saved.block.hdr.dict = 0 ∧
      saved.teams.length ≤ (s.freeSlots 1).length) ∧
    (∀ t ∈ saved.teams, t.view = [] ∧ t.vmap.Nodup ∧ (t.vmap.map Prod.fst).Nodup) ∧ (saved.slices.map Prod.fst).Nodup ∧
    (∀ x ∈ saved.slices, x.1 ≠ 0) ∧ (∀ x ∈ saved.cells, 2 ^ 90 ≤ x.1) ∧ (saved.cells.map Prod.fst).Nodup ∧
    (savedIn (3 * 2 ^ 56)).recordGood 1 saved = false ∧ (savedIn (3 * 2 ^ 56)).recordEcc 1 1 saved = none :=
  by decide +kernel

/-! Halts, resets, debugging, lending, translation. -/

/-- A partition that halts: its units have stopped, and records go to 0x40000. -/
def haltSt (stopped : Bool) (base : Nat) : State :=
  let h : Halting := ⟨[⟨0, .prot, 0, 0x10008, 5, true⟩], stopped, [], 77, 3⟩
  (ts id).modPart 0 fun p => { p with recBase := base, halts := 1, cause := 0x12, halting := some h }

theorem witness_HaltAndReset_records : let hl : Halting := ⟨[⟨0, .prot, 0, 0x10008, 5, true⟩], true, [], 77, 3⟩
    ((haltSt false 0).partn 0).halting = some { hl with stopped := false } ∧ ((haltSt true 0).partn 0).halting = some hl ∧
    ((haltSt true 0).partn 0).done = false ∧ (haltSt true 0).recordArea 0 = false ∧
    ((haltSt true 0x40000).partn 0).halting = some hl ∧ ((haltSt true 0x40000).partn 0).done = false ∧
    ((haltSt true 0x40000).partn 0).recBase = 0x40000 ∧ (haltSt true 0x40000).recordArea 0 = true ∧ hl.written.contains 783 = false ∧
    ((haltSt true 0x40000).unitsOf 0).contains 783 = true := by decide +kernel

theorem witness_HaltAndReset_record : let s := haltSt true 0x40000
    let hl : Halting := ⟨[⟨0, .prot, 0, 0x10008, 5, true⟩], true, [], 77, 3⟩
    let a := 0x40000 + 64 * 783
    s.local_ a = true ∧ s.behind 0 a 64 = false ∧
    s.unitHeld a (s.stopRecord none 783 (s.partn 0).halts.toNat hl.tick (hl.faults.find? fun f => f.unit == 783)) = false := by decide +kernel

/-- A unit whose record is written. -/
theorem witness_HaltAndReset_written : let hl : Halting := ⟨[], true, [783], 77, 3⟩
    let s := (haltSt true 0x40000).modPart 0 fun p => { p with halting := some hl }
    (s.partn 0).halting = some hl ∧ (s.partn 0).done = false ∧ s.recordArea 0 = true ∧ hl.written.contains 783 = true ∧
    (s.unitsOf 0).contains 783 = true := by decide +kernel

/-- A save of a block frozen by force that has not ended 1.2 ms after the request; a hot die. -/
theorem witness_HaltAndReset_watchdog : ((ts id).unitsOf 0).contains 616 = true ∧ ({ frozen 0 with tick := 1200000 } : State).saveLate 0 = true ∧
    ({ ts id with thermal := [(0, 0)], tick := 1000000000 } : State).dieHot 0 = true ∧ ((ts id).stacksOf 0).contains 0 = true ∧
    ((frozen 0).partn 0).halting = none := by decide +kernel

theorem witness_HaltAndReset_reset : (((haltSt true 0).modPart 0 fun p => { p with done := true }).partn 0).done = true := by decide +kernel

theorem witness_DebuggerLendAndTranslation_debugger : let s := (ts id).modCtx 1 fun x => { x with dbgHalt := true, dbgTick := 3 }
    ((ts id).ctx 1).dbgHalt = false ∧ (ts id).recordArea ((ts id).ctx 1).part = false ∧ (ts id).recording (some 1) 0 = false ∧
    (ts id).engaged 1 = false ∧ ((ts id).ctxs.map Prod.fst).Nodup ∧ (s.ctx 1).dbgHalt = true := by decide +kernel

theorem witness_DebuggerLendAndTranslation_record : let s := (ts id).modPart 0 fun p => { p with recBase := 0x40000 }
    (s.ctx 1).dbgHalt = false ∧ s.recording (some 1) 0 = false ∧ s.engaged 1 = false ∧ (s.ctxs.map Prod.fst).Nodup ∧
    (s.partn (s.ctx 1).part).recBase = 0x40000 ∧ s.recordArea (s.ctx 1).part = true ∧ s.coresOf 1 = [0] ∧ s.enginesOf 1 = [] ∧
    s.local_ 0x40000 = true ∧ s.behind 0 0x40000 64 = false ∧
    s.unitHeld 0x40000 (s.stopRecord (some 1) 0 (s.partn 0).halts.toNat s.tick none) = false := by decide +kernel

theorem witness_DebuggerLendAndTranslation_lend : 128 ≤ 128 ∧ 4 < (ts id).coresN ∧ (∀ d ∈ clusterCores 4, (∀ t ∈ (ts id).teams, t.1 / 16 ≠ d) ∧
    ∀ r ∈ (ts id).ridges, r.1 = d → r.2.ended = true) := by decide +kernel

theorem witness_DebuggerLendAndTranslation_tlb : let s := (fl acc).modCtx 1 fun x => { x with tlbBusy := some [4] }
    ((ts id).ctx 1).tlbBusy = none ∧ (s.ctx 1).tlbBusy = some [4] ∧
    (∀ a ∈ ({ s with accs := [{ acc with stage := 1 }] } : State).accs, a.id ∈ [4] → a.stage ≠ 0) ∧
    (∀ o ∈ s.ops, o.id ∈ [4] → o.todo = [] ∧ s.outstanding o.id = false) ∧ ∀ k ∈ s.stks, k.2.strike = none := by decide +kernel

/-! Packets. Queue 5 of partition 0, of context 1, has one at 0x10400; lane 0 holds it. -/

def queued (pkt : List Nat) (s : State) : State :=
  words 0x100400 pkt (s.modPart 0 fun p =>
    { p with queues := [(5, ⟨0x410, 1, 2, 4, 0, false, true, 0, 1, [], false⟩)], lanes := [(0, 5)] })
/-- The eight words of a packet whose first few are given. -/
def pkt8 (ws : List Nat) : List Nat := (List.range 8).map fun i => ws.getD i 0
/-- That a packet executes. -/
def runs (s : State) (ws : List Nat) (k : Pkt) : Bool :=
  (s.partn 0).halting.isNone && (s.stepQueues 0).contains 5 && decide (s.packetAt 0 5 = some (pkt8 ws)) && decide (pktType (some (pkt8 ws)) = k) &&
    (!pktBad (some (pkt8 ws)) && decide (((s.queue 0 5).wr - (s.queue 0 5).rd).toNat ≤ 2 ^ (s.queue 0 5).logn))

theorem executes {s : State} {ws : List Nat} {k : Pkt} (h : runs s ws k = true) : Claims.Executes s 0 5 (pkt8 ws) k := by
  simp only [runs, Bool.and_eq_true, Option.isNone_iff_eq_none, List.contains_iff_mem, decide_eq_true_eq, Bool.not_eq_true'] at h
  exact ⟨h.1.1.1.1, h.1.1.1.2, h.1.1.2, h.1.2, h.2.1, h.2.2⟩

/-- The word at 0x14000, or that at 0x14040, is mapped and free for a unit's change. -/
def freeWord (s : State) (d id new : Nat) : Bool :=
  decide (s.walk 1 (0x14000 + d) = .ok ⟨1, 0x10000, 16, 0x100000, true, true, true, 0⟩) && s.local_ (0x104000 + d) &&
    !s.unitHeld (0x104000 + d) (toLe 8 new) && !s.behind id (0x104000 + d) 8 &&
    (tablesHere s (0x14000 + d) 5 0 ((s.ctx 1).ptroot * 4096) && s.eccLines.isEmpty && s.cxlLost.isEmpty)

theorem free_word {s : State} {d id new : Nat} {rd : Bool} (h : freeWord s d id new = true) (hd : d = 0 ∨ d = 0x40) :
    Claims.UnitWord s 1 id (0x14000 + d) (0x104000 + d) new rd := by
  simp only [freeWord, Bool.and_eq_true, decide_eq_true_eq, Bool.not_eq_true', List.isEmpty_iff] at h
  obtain ⟨⟨⟨⟨a, b⟩, c⟩, e⟩, ⟨g, i⟩, j⟩ := h
  exact ⟨⟨1, 0x10000, 16, 0x100000, true, true, true, 0⟩, ⟨clean s i j, fun f => (walk_free s f 1 _ g).trans a⟩, fun _ => rfl, rfl,
    by rcases hd with rfl | rfl <;> rfl, by omega, b, c, e⟩

theorem witness_PacketsAndTickets_plain :
    Claims.Executes (queued [0] (ts id)) 0 5 (pkt8 [0]) .nop ∧ Claims.Executes (queued [2 ^ 56] (ts id)) 0 5 (pkt8 [2 ^ 56]) .haltq ∧
    Claims.Executes (queued [2 ^ 57, 0x14000] (ts id)) 0 5 (pkt8 [2 ^ 57, 0x14000]) .preempt ∧
    (queued [2 ^ 57, 0x14000] (ts id)).signalOk 1 0x14000 = true ∧ Claims.BlocksOnce (queued [2 ^ 57, 0x14000] (ts id)) ∧
    Claims.Executes (queued [3 * 2 ^ 56, 0x14000, 2 ^ 64 - 1] (ts id)) 0 5 (pkt8 [3 * 2 ^ 56, 0x14000, 2 ^ 64 - 1]) .setsig ∧
    (queued [3 * 2 ^ 56, 0x14000, 2 ^ 64 - 1] (ts id)).wordOk 1 0x14000 false true = true :=
  ⟨executes (by decide +kernel), executes (by decide +kernel), executes (by decide +kernel), by decide +kernel,
    by unfold Claims.BlocksOnce; decide +kernel, executes (by decide +kernel), by decide +kernel⟩

theorem witness_PacketsAndTickets_setsig : let s := queued [3 * 2 ^ 56, 0x14000, 2 ^ 64 - 1] (ts id)
    Claims.UnitWord s 1 s.seq 0x14000 0x104000 (2 ^ 64 - 1) false := free_word (d := 0) (by decide +kernel) (.inl rfl)

theorem witness_PacketsAndTickets_setsigLater :
    let s := { queued [3 * 2 ^ 56, 0x14000, 2 ^ 64 - 1] (ts id) with accs := [behindA (ts id).seq] }
    Claims.Executes s 0 5 (pkt8 [3 * 2 ^ 56, 0x14000, 2 ^ 64 - 1]) .setsig ∧ s.wordOk 1 0x14000 false true = true ∧
    Claims.UnitLater s 1 s.seq 0x14000 0x104000 (2 ^ 64 - 1) false :=
  ⟨executes (by decide +kernel), by decide +kernel, signalLater (found (by decide +kernel) (by decide +kernel) rfl rfl) (by decide +kernel)⟩

/-- A condition that holds (the signal is 0), one that does not, and an unmapped signal. -/
theorem witness_PacketsAndTickets_waitsig : let a := [4 * 2 ^ 56, 0x14000, 0, 0]
    let b := [4 * 2 ^ 56, 0x14000, 0, 2]
    let c := [4 * 2 ^ 56, 0x20000, 0, 3]
    Claims.Executes (queued a (ts id)) 0 5 (pkt8 a) .waitsig ∧ (queued a (ts id)).sigOf 1 (some (pkt8 a)) = .holds ∧
    Claims.Executes (queued b (ts id)) 0 5 (pkt8 b) .waitsig ∧ (queued b (ts id)).sigOf 1 (some (pkt8 b)) = .no ∧
    Claims.Executes (queued c (ts id)) 0 5 (pkt8 c) .waitsig ∧ (queued c (ts id)).sigOf 1 (some (pkt8 c)) = .unmapped :=
  ⟨executes (by decide +kernel), by decide +kernel, executes (by decide +kernel), by decide +kernel, executes (by decide +kernel), by decide +kernel⟩

/-- The state that a WATCH or an UNWATCH leaves, where it answers a status. -/
def watchedBy (r : WatchRes) (n : Nat) : Option State :=
  match r with
  | .status m k => if k = n then some m else none
  | _ => none

theorem witness_PacketsAndTickets_watch : let a := [5 * 2 ^ 56, 0x10100, 255, 0x14040]
    let s := words 0x100100 [0x18000, 0x8000, watchC 0, 0x14000] (queued a (ts id))
    Claims.Executes s 0 5 (pkt8 a) .watch ∧ s.wordOk 1 0x14040 false true = true ∧
    (match watchedBy (s.setWatch (unitWho 1) 0x10100 255) 0 with | some m => freeWord m 0x40 m.seq 0 | none => false) = true :=
  ⟨executes (by decide +kernel), by decide +kernel⟩

theorem witness_PacketsAndTickets_unwatch : let b := [6 * 2 ^ 56, 255, 0x14040]
    let s := queued b (watched false [] (ts id))
    Claims.Executes s 0 5 (pkt8 b) .unwatch ∧ s.wordOk 1 0x14040 false true = true ∧
    (match watchedBy (s.unsetWatch 1 255) 0 with | some m => freeWord m 0x40 m.seq 0 | none => false) = true :=
  ⟨executes (by decide +kernel), by decide +kernel⟩

theorem witness_PacketsAndTickets_pool : let a := [7 * 2 ^ 56, 255, 0x10300, 2 + 5 * 2 ^ 8 + 3 * 2 ^ 16, 100]
    let b := [8 * 2 ^ 56, 0x10300, 0x14000]
    let s := headed 0x10000 fitsW (queued a (ts id))
    let u := headed 0x10000 fitsW (pooled (pool [] []) (queued b (ts id)))
    Claims.Executes s 0 5 (pkt8 a) .poolcfg ∧ poolBad 255 (2 + 5 * 2 ^ 8 + 3 * 2 ^ 16) 100 = false ∧
    (s.queue 0 5).ver ≠ 1 ∧
    (match s.checkHeader (unitWho 1) 0x10300 false with | .ok l => decide (l.teams = 1 ∧ 1 ≤ l.words) | _ => false) = true ∧
    fld (2 + 5 * 2 ^ 8 + 3 * 2 ^ 16) 31 1 = 0 ∧ (s.ctx 1).pools.find 255 = none ∧
    Claims.Executes u 0 5 (pkt8 b) .launch ∧ u.signalOk 1 0x14000 = true ∧ u.headerPool (unitWho 1) 0x10300 = some 7 ∧
    (u.ctx 1).pools.find 7 = some (pool [] []) ∧
    (match u.checkHeader (unitWho 1) 0x10300 true with | .ok l => decide (l.pool = 7) | _ => false) = true :=
  ⟨executes (by decide +kernel), by decide +kernel, by decide +kernel, by decide +kernel, by decide +kernel,
    by decide +kernel, executes (by decide +kernel), by decide +kernel⟩

theorem witness_PacketsAndTickets_copyh : let a := [9 * 2 ^ 56, 0x14000, 0x14100, 100, 0]
    let s := queued a (ts id)
    Claims.Executes s 0 5 (pkt8 a) .copyh ∧ (s.area (unitWho 1) .glob 0x14000 100 true false).2 = none ∧
    (s.area (unitWho 1) .glob 0x14100 100 false true).2 = none ∧ s.signalOk 1 0 = true :=
  ⟨executes (by decide +kernel), by decide +kernel⟩

/-- A pre-emption whose block has gone. -/
def preempting (sg : Option Nat) (accs : List Access) : State :=
  { (ts id).modPart 0 fun p => { p with tickets := [(9, .preempt 1 [77] [78] sg)] } with seq := 10, accs := accs }

theorem witness_PacketsAndTickets_ticket :
    (∀ s ∈ [preempting none [], preempting (some 0x14000) [], preempting (some 0x14000) [behindA 9]],
      (s.parts.find? fun x => (x.2.tickets.find 9).isSome) = some (0, s.partn 0) ∧ (∀ b ∈ [77], s.block? b = none) ∧ s.quiet [78] = true ∧
      (s.partn 0).halting = none) ∧
    ((preempting none []).partn 0).tickets.find 9 = some (.preempt 1 [77] [78] none) ∧
    ((preempting (some 0x14000) []).partn 0).tickets.find 9 = some (.preempt 1 [77] [78] (some 0x14000)) := by decide +kernel

theorem witness_PacketsAndTickets_signal : let s := preempting (some 0x14000) []
    Claims.UnitWord s 1 9 0x14000 0x104000 (Claims.less (Claims.wordHere s 0x104000)) true := free_word (d := 0) (by decide +kernel) (.inl rfl)

theorem witness_PacketsAndTickets_signalLater : let s := preempting (some 0x14000) [behindA 9]
    Claims.UnitLater s 1 9 0x14000 0x104000 (Claims.less (Claims.wordHere s 0x104000)) true :=
  signalLater (found (by decide +kernel) (by decide +kernel) rfl rfl) (by decide +kernel)
/-! The host port, other packages, time, power and registers. -/

theorem witness_OutsideAccesses_host : let s : State := { ts id with hostUp := true }
    s.hostUp = true ∧ s.ours 0x14003F 2 = true ∧ Claims.Free s 0x14003F [1, 2] := by
  unfold Claims.Free
  decide +kernel

/-- A state whose port 17 is up. -/
def linked : State := { ts id with ports := [(17, ⟨0, 2, 2, true, 0⟩)] }

theorem witness_OutsideAccesses_remote : linked.portsUp ≠ [] ∧ 287 ≠ linked.pkg ∧ linked.ours 0x14003F 2 = true ∧
    Claims.Free linked 0x14003F [1, 2] ∧ linked.window.get [] 287 = [] := by
  unfold Claims.Free
  decide +kernel

theorem witness_OutsideAccesses_atomic : let a := 0x140038
    let new := toLe 8 (atomNew .add 0 false 64 (ofLe (linked.memRead a 8)) 5 0)
    linked.ours a 8 = true ∧ a % 8 = 0 ∧ linked.eccBad a = false ∧ linked.unitHeld a new = false ∧ linked.behind 0 a 8 = false := by
  decide +kernel

theorem witness_OutsideAccesses_repeat : let s : State := { ts id with window := [(287, [2, 2 ^ 32 - 1])] }
    2 ∈ s.window.get [] 287 ∧ (∀ m ∈ s.window.get [] 287, m < 2 ^ 32) ∧
    ∀ h t, s.window.get [] 287 = h :: t → ∀ m ∈ t, m ≠ h ∧ (h + 2 ^ 32 - m) % 2 ^ 32 < 2 ^ 31 := by
  refine ⟨by decide +kernel, by decide +kernel, fun h t e => ?_⟩
  have : ({ ts id with window := [(287, [2, 2 ^ 32 - 1])] } : State).window.get [] 287 = [2, 2 ^ 32 - 1] := by decide +kernel
  rw [this, List.cons.injEq] at e
  obtain ⟨rfl, rfl⟩ := e
  decide

theorem witness_PortsAndTime_ports : let s : State := { linked with cxlPorts := [(3, 64)] }
    (s.port 17).state = 2 ∧ (s.port 16).en = true ∧ (s.port 16).state = 0 ∧ 3 < s.stacksN ∧ s.cxlPorts.find 3 = some 64 ∧
    (List.replicate 32 (0 : Byte)).length = 32 := by decide +kernel

/-- The 16th replay of a flit in a row that fails, and one before it. -/
theorem witness_PortsAndTime_replay : let s : State := { ts id with ports := [(17, ⟨0, 2, 2, true, 16⟩), (5, ⟨0, 2, 2, true, 15⟩)] }
    (s.port 17).state = 2 ∧ (s.port 17).fails = 16 ∧ (s.port 5).state = 2 ∧ (s.port 5).fails = 15 := by decide +kernel

theorem witness_PortsAndTime_time : (ts id).master ≠ ({ ts id with master := !(ts id).master } : State).master ∧
    linked.portsUp = [17] ∧ (ts id).portsUp = [] := by decide +kernel

theorem witness_HostRegisters_queues : let s := queued [0] (ts id)
    let u := s.modPart 0 fun p => { p with lanes := [], lastQ := 126 }
    let ok (j : Nat) : Bool := ((u.partn 0).queue j).en && !((u.partn 0).queue j).parked && ((u.partn 0).queue j).pending && ((u.partn 0).laneOf j).isNone
    (16 - (s.queue 0 5).rd).toNat ≤ 2 ^ (s.queue 0 5).logn ∧ BitVec.getLsbD (1 + 4 * 2 ^ 16 + 2 ^ 28 + 2 ^ 32 : W64) 0 = true ∧
    fld (1 + 4 * 2 ^ 16 + 2 ^ 28 + 2 ^ 32) 28 4 ≠ 0 ∧ 4 ≤ fld (1 + 4 * 2 ^ 16 + 2 ^ 28 + 2 ^ 32) 16 5 ∧
    (u.partn 0).lanes.find 31 = none ∧ (u.partn 0).halting = none ∧ 5 = ((u.partn 0).lastQ + 1 + 6) % 128 ∧ ok 5 = true ∧
    ∀ e, e < 6 → ok (((u.partn 0).lastQ + 1 + e) % 128) = false := by decide +kernel

/-- WR 17 packets ahead of RD in a ring of 16. -/
theorem witness_HostRegisters_ahead : let s := queued [0] (ts id)
    2 ^ (s.queue 0 5).logn < (17 - (s.queue 0 5).rd).toNat := by decide +kernel

theorem witness_HostRegisters_registers : regCtr .trgFire = some .fire ∧ (1000 ≤ (1000 : W64).toNat ∧ (1000 : W64).toNat ≤ 2800) ∧
    ¬ (1000 ≤ (2801 : W64).toNat ∧ (2801 : W64).toNat ≤ 2800) := by decide


end Sys2Proof.Tests
end

section
/-! R36: the opcodes that no instruction has. An opcode of top nibble 0xF and an unassigned one are refused by the decoder, and
the turn of a party that stands at a word which the decoder refuses is an ILLEGAL trap at that word. -/

open Sys2Proof Sys2Proof.Machine

namespace Sys2Proof.Proofs

/-! The decoder. -/

/-- An opcode without an instruction is one that R36 names, or one whose top nibble a header has. -/
theorem assigned_eq_false_iff (opc : Nat) : assigned opc = false ↔ Claims.unassigned opc ∨ 0xF0 ≤ opc := by
  simp only [assigned, Claims.unassigned, Bool.or_eq_false_iff, Bool.and_eq_false_iff, decide_eq_false_iff_not, bne_eq_false_iff_eq]
  omega

/-- The top nibble of a word is the top nibble of its opcode (R12, R18). -/
theorem opcode_ge_of_topNibble {w : Nat} (h : fld w 60 4 = 15) : 0xF0 ≤ fld w 56 8 := by
  simp only [fld] at h ⊢
  omega

theorem decode_of_not_assigned {w : Nat} (h : assigned (fld w 56 8) = false) : decode w = .error .unassignedOpcode := by
  simp only [decode, h, Bool.not_false, if_true]

/-! The turn of a party. -/

theorem step_of_agenda {s : State} {turn : Turn} {rest : List Turn} (h : s.agenda = turn :: rest) :
    step s = runTurn { s with agenda := rest } turn := by
  simp [step, State.nextTurn, h]

theorem runTurn_issue_of_idle {s s' : State} {p : Party} (h : prep s p = .idle s') : runTurn s (.issue p) = .next s' := by
  simp [runTurn, h]

/-- Where a team stands does not depend on the turns to come. -/
theorem teamAt_setAgenda {s : State} {c slot v : Nat} {t : Team} (h : Claims.TeamAt s c slot t v) (rest : List Turn) :
    Claims.TeamAt { s with agenda := rest } c slot t v := h

theorem ridgeAt_setAgenda {s : State} {c v : Nat} {r : Ridge} (h : Claims.RidgeAt s c r v) (rest : List Turn) :
    Claims.RidgeAt { s with agenda := rest } c r v := h

theorem prep_team_of_refused {s : State} {c slot v : Nat} {t : Team} {e : Reject} (hat : Claims.TeamAt s c slot t v)
    (hdec : decode v = .error e) : prep s (.team c slot) = .idle (s.takeTrap c slot t .illegal 0 t.pc) := by
  obtain ⟨w, hslot, hteam, hmay, hfrozen, hwait, hhdr, hfetch, hbody⟩ := hat
  simp [prep, prepTeam, hteam, hslot, hmay, hfrozen, hwait, hhdr, hfetch, hbody, hdec]

theorem prep_ridge_of_refused {s : State} {c v : Nat} {r : Ridge} {e : Reject} (hat : Claims.RidgeAt s c r v)
    (hdec : decode v = .error e) : prep s (.ridge c) = .idle (s.takeTrapM c r .illegal 0 r.pc) := by
  obtain ⟨w, hridge, hmay, hfrozen, hended, hwait, hhdr, hfetch, hbody⟩ := hat
  simp [prep, prepRidge, hridge, hmay, hfrozen, hended, hwait, hhdr, hfetch, hbody, hdec]

theorem step_team_of_refused {s : State} {rest : List Turn} {c slot v : Nat} {t : Team} {e : Reject}
    (hagenda : s.agenda = .issue (.team c slot) :: rest) (hat : Claims.TeamAt s c slot t v) (hdec : decode v = .error e) :
    step s = .next (State.takeTrap { s with agenda := rest } c slot t .illegal 0 t.pc) := by
  rw [step_of_agenda hagenda]
  exact runTurn_issue_of_idle (prep_team_of_refused (teamAt_setAgenda hat rest) hdec)

theorem step_ridge_of_refused {s : State} {rest : List Turn} {c v : Nat} {r : Ridge} {e : Reject}
    (hagenda : s.agenda = .issue (.ridge c) :: rest) (hat : Claims.RidgeAt s c r v) (hdec : decode v = .error e) :
    step s = .next (State.takeTrapM { s with agenda := rest } c r .illegal 0 r.pc) := by
  rw [step_of_agenda hagenda]
  exact runTurn_issue_of_idle (prep_ridge_of_refused (ridgeAt_setAgenda hat rest) hdec)

/-- Settles O20: the decoder refuses both kinds of opcode, and a refused word traps ILLEGAL at its own address on both kinds of
stream. -/
theorem unassignedOpcodeTraps : Obligations.UnassignedOpcodeTraps := by
  unfold Obligations.UnassignedOpcodeTraps
  refine ⟨fun v i htop hdec => ?_, fun v hopc => ?_⟩
  · have herr := decode_of_not_assigned ((assigned_eq_false_iff _).2 (.inr (opcode_ge_of_topNibble htop)))
    rw [herr] at hdec
    cases hdec
  · have herr := decode_of_not_assigned ((assigned_eq_false_iff _).2 (.inl hopc))
    exact ⟨fun s rest c slot t hagenda hat => step_team_of_refused hagenda hat herr,
      fun s rest c r hagenda hat => step_ridge_of_refused hagenda hat herr⟩

end Sys2Proof.Proofs
end

section
/-! R211: the end of a cycle at the barriers of a core. Blocks and barriers stand in sparse tables, and BARRIER_CYCLE maps both tables
without touching a key; so a read after the cycle is the barrier's own change of what was read before it. -/

open Sys2Proof Sys2Proof.Machine

namespace Sys2Proof.Proofs

/-- A map of a table that keeps every key commutes with the read at a key. -/
theorem find_map_of_key {α β : Type} {g : Nat × α → Nat × β} (hkey : ∀ c, (g c).1 = c.1) (t : Tbl α) (x : Nat) :
    Tbl.find (t.map g) x = (t.find x).map fun v => (g (x, v)).2 := by
  induction t with
  | nil => rfl
  | cons c t ih =>
    simp only [List.map_cons, Tbl.find, hkey, ih]
    split
    next hx => subst hx; rfl
    next => rfl

/-- The two branches of R211 as one barrier, each field on its own. -/
theorem barCycle_eq (x : Bar) : x.cycle =
    let arr := x.arr.toNat + x.now
    let need := x.exp.toNat + x.post.toNat
    { x with
      arr := BitVec.ofNat 24 (if need ≤ arr then arr - need else arr),
      post := BitVec.ofNat 24 (if need ≤ arr then x.posts else x.post.toNat + x.posts),
      phase := if need ≤ arr then !x.phase else x.phase, now := 0, posts := 0, late := false } := by
  by_cases hreached : x.exp.toNat + x.post.toNat ≤ x.arr.toNat + x.now <;> simp [Bar.cycle, hreached]

/-- The barriers of a block after the end of a cycle. -/
def cycledBars (bars : Tbl Bar) : Tbl Bar := bars.map fun x => (x.1, x.2.cycle)

/-- The blocks of a machine after the end of a cycle at core c. -/
def cycledBlocks (c : Nat) (blocks : Tbl Block) : Tbl Block :=
  blocks.map fun b => if b.2.core == c then (b.1, { b.2 with bars := cycledBars b.2.bars }) else b

theorem exec_barrierCycle (c : Nat) (s : State) :
    exec (.barrierCycle c) s = .next { s with blocks := cycledBlocks c s.blocks } := rfl

theorem find_cycledBars (bars : Tbl Bar) (n : Nat) : (cycledBars bars).find n = (bars.find n).map Bar.cycle :=
  find_map_of_key (α := Bar) (g := fun x => (x.1, x.2.cycle)) (fun _ => rfl) bars n

theorem find_cycledBlocks (c : Nat) (blocks : Tbl Block) (k : Nat) : (cycledBlocks c blocks).find k =
    (blocks.find k).map fun b => if b.core = c then { b with bars := cycledBars b.bars } else b := by
  refine (find_map_of_key (fun b => ?_) blocks k).trans ?_
  · split <;> rfl
  · congr 1
    funext b
    by_cases hcore : b.core = c <;> simp [hcore]

theorem bar_cycledBars {b : Block} {n : Nat} {x : Bar} (h : b.bars.find n = some x) :
    ({ b with bars := cycledBars b.bars } : Block).bar n = x.cycle := by
  simp [Block.bar, Tbl.get_eq_find, find_cycledBars, h]

/-- Settles O47: a block of another core reads as before, and a block of the core has the same fields but its barriers, each of which
is what R211 makes of it. -/
theorem barrierCycle : Obligations.BarrierCycle := by
  unfold Obligations.BarrierCycle
  intro c s
  refine ⟨_, exec_barrierCycle c s, rfl, fun blk b (hblock : s.blocks.find blk = some b) => ⟨fun hother => ?_, fun hcore => ?_⟩⟩
  · simp [State.block?, find_cycledBlocks, hblock, hother]
  · refine ⟨{ b with bars := cycledBars b.bars }, ?_, rfl, fun n x hbar => ?_⟩
    · simp [State.block?, find_cycledBlocks, hblock, hcore]
    · exact (bar_cycledBars hbar).trans (barCycle_eq x)

end Sys2Proof.Proofs
end

section
/-! R18 to R22: the encoder and the decoder. The laws of each form (Laws/PerInstr.lean) give one direction; the decoder itself
compares the word with the word of the instruction it has read, which gives the other. -/

open Sys2Proof Sys2Proof.Machine

namespace Sys2Proof.Proofs

/-- Every row of the opcode table has its law: a form its own, an event, which has no word, the common one. -/
theorem decode_encode_of_wf : ∀ i, Laws.RoundTrip.Statement i
  | .nop .. => Laws.RoundTrip.nop _
  | .bra .. => Laws.RoundTrip.bra _ _
  | .ball .. => Laws.RoundTrip.ball _ _ _ _
  | .bany .. => Laws.RoundTrip.bany _ _ _ _
  | .jmps .. => Laws.RoundTrip.jmps _ _
  | .call .. => Laws.RoundTrip.call _ _
  | .ret .. => Laws.RoundTrip.ret _
  | .reconv .. => Laws.RoundTrip.reconv _
  | .brk .. => Laws.RoundTrip.brk _ _
  | .exit .. => Laws.RoundTrip.exit _
  | .refill .. => Laws.RoundTrip.refill _ _ _ _
  | .elect .. => Laws.RoundTrip.elect _ _
  | .endlead .. => Laws.RoundTrip.endlead _
  | .phint .. => Laws.RoundTrip.phint _ _ _ _ _
  | .yield .. => Laws.RoundTrip.yield _
  | .pset .. => Laws.RoundTrip.pset _ _ _
  | .plop .. => Laws.RoundTrip.plop _ _ _ _ _ _
  | .pmov .. => Laws.RoundTrip.pmov _ _
  | .pcnt .. => Laws.RoundTrip.pcnt _ _ _
  | .pfirst .. => Laws.RoundTrip.pfirst _ _ _
  | .sadd .. => Laws.RoundTrip.sadd _ _ _ _ _ _
  | .vadd .. => Laws.RoundTrip.vadd _ _ _ _ _ _
  | .ssub .. => Laws.RoundTrip.ssub _ _ _ _ _ _
  | .vsub .. => Laws.RoundTrip.vsub _ _ _ _ _ _
  | .smul .. => Laws.RoundTrip.smul _ _ _ _ _
  | .vmul .. => Laws.RoundTrip.vmul _ _ _ _ _
  | .smulh .. => Laws.RoundTrip.smulh _ _ _ _ _
  | .vmulh .. => Laws.RoundTrip.vmulh _ _ _ _ _
  | .smad .. => Laws.RoundTrip.smad _ _ _ _ _ _
  | .vmad .. => Laws.RoundTrip.vmad _ _ _ _ _ _
  | .sand .. => Laws.RoundTrip.sand _ _ _ _ _
  | .vand .. => Laws.RoundTrip.vand _ _ _ _ _
  | .sor .. => Laws.RoundTrip.sor _ _ _ _ _
  | .vor .. => Laws.RoundTrip.vor _ _ _ _ _
  | .sxor .. => Laws.RoundTrip.sxor _ _ _ _ _
  | .vxor .. => Laws.RoundTrip.vxor _ _ _ _ _
  | .sshl .. => Laws.RoundTrip.sshl _ _ _ _ _
  | .vshl .. => Laws.RoundTrip.vshl _ _ _ _ _
  | .sshr .. => Laws.RoundTrip.sshr _ _ _ _ _
  | .vshr .. => Laws.RoundTrip.vshr _ _ _ _ _
  | .ssar .. => Laws.RoundTrip.ssar _ _ _ _ _
  | .vsar .. => Laws.RoundTrip.vsar _ _ _ _ _
  | .smin .. => Laws.RoundTrip.smin _ _ _ _ _
  | .vmin .. => Laws.RoundTrip.vmin _ _ _ _ _
  | .smax .. => Laws.RoundTrip.smax _ _ _ _ _
  | .vmax .. => Laws.RoundTrip.vmax _ _ _ _ _
  | .scmp .. => Laws.RoundTrip.scmp _ _ _ _ _ _
  | .vcmp .. => Laws.RoundTrip.vcmp _ _ _ _ _ _
  | .vsel .. => Laws.RoundTrip.vsel _ _ _ _ _ _
  | .smov .. => Laws.RoundTrip.smov _ _
  | .vmov .. => Laws.RoundTrip.vmov _ _ _
  | .smovi .. => Laws.RoundTrip.smovi _ _ _ _
  | .vmovi .. => Laws.RoundTrip.vmovi _ _ _
  | .vclz .. => Laws.RoundTrip.vclz _ _ _ _
  | .vpop .. => Laws.RoundTrip.vpop _ _ _ _
  | .vbfx .. => Laws.RoundTrip.vbfx _ _ _ _ _ _
  | .vbfi .. => Laws.RoundTrip.vbfi _ _ _ _ _ _
  | .vaddc .. => Laws.RoundTrip.vaddc _ _ _ _ _ _
  | .vaddr .. => Laws.RoundTrip.vaddr _ _ _ _ _ _
  | .saddi .. => Laws.RoundTrip.saddi _ _ _ _ _
  | .vaddi .. => Laws.RoundTrip.vaddi _ _ _ _ _
  | .vshuf .. => Laws.RoundTrip.vshuf _ _ _ _ _ _
  | .vbcast .. => Laws.RoundTrip.vbcast _ _ _ _ _
  | .vreduce .. => Laws.RoundTrip.vreduce _ _ _ _ _ _
  | .vscan .. => Laws.RoundTrip.vscan _ _ _ _ _ _
  | .fadd .. => Laws.RoundTrip.fadd _ _ _ _ _ _
  | .fsub .. => Laws.RoundTrip.fsub _ _ _ _ _ _
  | .fmul .. => Laws.RoundTrip.fmul _ _ _ _ _ _
  | .ffma .. => Laws.RoundTrip.ffma _ _ _ _ _ _ _
  | .fmin .. => Laws.RoundTrip.fmin _ _ _ _ _ _
  | .fmax .. => Laws.RoundTrip.fmax _ _ _ _ _ _
  | .fcmp .. => Laws.RoundTrip.fcmp _ _ _ _ _ _
  | .frcp .. => Laws.RoundTrip.frcp _ _ _ _
  | .frsq .. => Laws.RoundTrip.frsq _ _ _ _
  | .fexp2 .. => Laws.RoundTrip.fexp2 _ _ _ _
  | .flog2 .. => Laws.RoundTrip.flog2 _ _ _ _
  | .fscos .. => Laws.RoundTrip.fscos _ _ _ _
  | .fcvt .. => Laws.RoundTrip.fcvt _ _ _ _ _ _ _
  | .frnd .. => Laws.RoundTrip.frnd _ _ _ _ _
  | .fclass .. => Laws.RoundTrip.fclass _ _ _ _
  | .fdot2 .. => Laws.RoundTrip.fdot2 _ _ _ _ _ _ _
  | .fcmul .. => Laws.RoundTrip.fcmul _ _ _ _ _ _
  | .fbfly .. => Laws.RoundTrip.fbfly _ _ _ _ _ _ _
  | .ftwid .. => Laws.RoundTrip.ftwid _ _ _ _ _
  | .csum .. => Laws.RoundTrip.csum _ _ _ _ _
  | .ld .. => Laws.RoundTrip.ld _ _ _ _ _ _ _ _
  | .st .. => Laws.RoundTrip.st _ _ _ _ _ _ _
  | .atom .. => Laws.RoundTrip.atom _ _ _ _ _ _ _ _ _ _
  | .red .. => Laws.RoundTrip.red _ _ _ _ _ _ _ _ _
  | .fence .. => Laws.RoundTrip.fence _ _
  | .prf .. => Laws.RoundTrip.prf _ _ _ _
  | .vld .. => Laws.RoundTrip.vld _ _ _ _ _ _ _ _
  | .vst .. => Laws.RoundTrip.vst _ _ _ _ _ _
  | .vwset .. => Laws.RoundTrip.vwset _ _ _
  | .vwadj .. => Laws.RoundTrip.vwadj _ _ _ _ _ _
  | .vret .. => Laws.RoundTrip.vret _ _
  | .tdset .. => Laws.RoundTrip.tdset _ _ _
  | .copy .. => Laws.RoundTrip.copy _ _ _ _
  | .copyR .. => Laws.RoundTrip.copyR _ _ _ _
  | .copym .. => Laws.RoundTrip.copym _ _ _ _
  | .chain .. => Laws.RoundTrip.chain _ _ _ _
  | .ring .. => Laws.RoundTrip.ring _ _ _ _
  | .fwait .. => Laws.RoundTrip.fwait _ _ _ _
  | .frel .. => Laws.RoundTrip.frel _ _
  | .ftest .. => Laws.RoundTrip.ftest _ _ _
  | .gath .. => Laws.RoundTrip.gath _ _ _ _ _ _
  | .scat .. => Laws.RoundTrip.scat _ _ _ _ _
  | .qbind .. => Laws.RoundTrip.qbind _ _ _ _
  | .qtry .. => Laws.RoundTrip.qtry _ _ _ _ _
  | .mlda .. => Laws.RoundTrip.mlda _ _ _ _ _ _ _ _
  | .plane .. => Laws.RoundTrip.plane _ _ _ _ _
  | .mma .. => Laws.RoundTrip.mma _ _ _ _ _ _ _ _ _ _ _
  | .moutl .. => Laws.RoundTrip.moutl _ _
  | .zclr .. => Laws.RoundTrip.zclr _ _ _
  | .zld .. => Laws.RoundTrip.zld _ _ _ _ _
  | .zst .. => Laws.RoundTrip.zst _ _ _ _ _ _ _
  | .zmap .. => Laws.RoundTrip.zmap _ _ _ _ _
  | .binit .. => Laws.RoundTrip.binit _ _ _
  | .barr .. => Laws.RoundTrip.barr _ _ _
  | .bwait .. => Laws.RoundTrip.bwait _ _ _
  | .bsync .. => Laws.RoundTrip.bsync _ _
  | .bexp .. => Laws.RoundTrip.bexp _ _ _
  | .attn .. => Laws.RoundTrip.attn _ _ _ _ _ _ _ _
  | .kvapp .. => Laws.RoundTrip.kvapp _ _ _ _ _
  | .kvevt .. => Laws.RoundTrip.kvevt _ _ _
  | .watch .. => Laws.RoundTrip.watch _ _ _ _
  | .unwatch .. => Laws.RoundTrip.unwatch _ _ _
  | .wpark .. => Laws.RoundTrip.wpark _ _ _ _ _
  | .launchGrid .. => Laws.RoundTrip.launchGrid _ _ _ _
  | .launchRecord .. => Laws.RoundTrip.launchRecord _ _ _
  | .srd .. => Laws.RoundTrip.srd _ _ _ _
  | .swr .. => Laws.RoundTrip.swr _ _
  | .wkadd .. => Laws.RoundTrip.wkadd _ _ _
  | .wkdone .. => Laws.RoundTrip.wkdone _ _
  | .trap .. => Laws.RoundTrip.trap _ _
  | .tret .. => Laws.RoundTrip.tret _
  | .halt .. => Laws.RoundTrip.halt _ _
  | .bkpt .. => Laws.RoundTrip.bkpt _ _
  | .icacheLineFill .. | .fixedLatencyWrite .. | .sliceRelease .. | .readResponse .. | .storePerform ..
  | .heldWriteRelease .. | .revocation .. | .writeAcknowledge .. | .atomicPerform .. | .pageWalk .. | .pendingBitOr ..
  | .spillRingDrain .. | .recordHandoff .. | .poolTimerLapse .. | .placementDecision .. | .remoteStackOffer ..
  | .priorityAging .. | .gangReserve .. | .timeSliceEnd .. | .forcedFreeze .. | .blockSave .. | .blockRestore ..
  | .countedTeamDone .. | .embersTokenPass .. | .queueMoveComplete .. | .refillWaitEnd .. | .messageFlitAccept ..
  | .ringReserveRetry .. | .engineComplete .. | .chainRecord .. | .gatherRowFetch .. | .fwaitReturn .. | .entryClaim ..
  | .kvappExecute .. | .strikeCommand .. | .strikeRcDrain .. | .attnComplete .. | .mmaAccumulatorWrite ..
  | .barrierArrival .. | .barrierCycle .. | .barrierWaitEnd .. | .wparkDeliver .. | .wparkLapse .. | .partitionHalt ..
  | .stopRecordWrite .. | .watchdog .. | .partitionReset .. | .debuggerHalt .. | .debuggerResume .. | .campLendWrite ..
  | .tlbinvSpan .. | .tlbinvAll .. | .tlbinvComplete .. | .hostQueueDoorbell .. | .hostQueueEnable ..
  | .jisoetteLaneBind .. | .nopPacket .. | .haltq .. | .preempt .. | .preemptComplete .. | .setsig .. | .waitsig ..
  | .watchPacket .. | .unwatchPacket .. | .poolcfg .. | .launchPacket .. | .copyh .. | .launchSignalDecrement ..
  | .hostWrite .. | .hostRead .. | .remotePacketReceive .. | .flitReplay .. | .linkFailure .. | .linkTraining ..
  | .portDisable .. | .portRetrain .. | .timeSync .. | .thermalLimit .. | .fwActivate .. | .attestRequest ..
  | .powerOnReset .. | .registerWrite .. | .planeConverterDone .. | .memoryPortLoss .. | .hostPortTraining .. => Laws.RoundTrip.of_event rfl

theorem encode_of_decode {w : Nat} {i : Instr} (h : decode w = .ok i) : encode i = some w ∧ i.wf = true := by
  unfold decode at h
  split at h
  · cases h
  split at h
  · cases h
  split at h
  · cases h
  next i' _ =>
    split at h
    · cases h
    next hword =>
      split at h
      next hwf =>
        cases h
        exact ⟨by simpa using hword, hwf⟩
      · cases h

/-- Settles O22: the law of each form, and the comparison that the decoder ends with. -/
theorem encodeDecode : Obligations.EncodeDecode := by
  unfold Obligations.EncodeDecode
  exact ⟨decode_encode_of_wf, fun _ _ => encode_of_decode⟩

/-- Settles O23: the decoder is run on each word. -/
theorem manualWordsDecode : Obligations.ManualWordsDecode := by
  unfold Obligations.ManualWordsDecode
  decide +kernel

end Sys2Proof.Proofs
end

section
/-! R84, R86, R89: the order of the Stash is not kept by every step from every state in which it holds. A record of a watch beyond its
depth limit starts its team in a CASCADE trap (R322), and the model finds that team by its number (State.startBlock), in the first slot
of the package that has it. The order of the Stash does not say that the numbers of parties differ: where a team of another core has
the number already, its rename map is copied to the new team's core, on which the slices that it names are not allotted. -/

open Sys2Proof Sys2Proof.Machine

namespace Sys2Proof.Proofs

/-- A team of core 0 that bears the number 2 and names slice 1. -/
def aliasTeam : Team := { placeTeam with vmap := [(mkey 1 0, 1)] }

/-- A gang of one record beyond its depth limit. -/
def deepGang : Gang :=
  { dom := none, id := 0, hdr := placeLaunch, recs := [⟨0, 0, 0, true, none, 0, 0⟩], isRec := true, next := 0, left := 1,
    launch := none, tick := 0, offer := false }

/-- A pool that waits with that gang. -/
def deepPool : Pool := ⟨placeLaunch, 0, 0, [], [deepGang], 0, 0⟩

/-- Core 0 has the team and its slice; the next party of the package gets the same number, on core 1. -/
def aliasState : State :=
  { State.reset with
    cores := [(0, { Core.zero with phys := [(1, Phys.zero)] })], teams := [(tkey 0 0, aliasTeam)],
    ctxs := [(1, { Ctx.zero with created := true, trpVec := placeCode, pools := [(0, deepPool)] })],
    agenda := [.event (.placementDecision 0)] }

theorem aliasState_stashOk : aliasState.stashOk = true := by decide +kernel

/-- The decision copies the team of core 0, with its rename map, into slot 0 of core 1. -/
theorem step_aliasState : (match step aliasState with
    | .next s' => (s'.team? 1 0).map Team.vmap == some [(mkey 1 0, 1)] && !s'.stashOk
    | _ => false) = true := by decide +kernel

/-- Refutes O16: the placement of a gang on core 1, where a team of core 0 bears the number that the new team gets. -/
theorem not_stashOkKept : ¬ Obligations.StashOkKept := by
  unfold Obligations.StashOkKept
  intro kept
  have bad := step_aliasState
  split at bad
  next s' hstep =>
    have ok := kept _ _ aliasState_stashOk hstep
    simp [ok] at bad
  · cases bad

end Sys2Proof.Proofs
end

section
/-! Memory in its canonical form (log 2), operation by operation: what an operation on the state leaves in memory is in that form where
what it finds is. -/

open Sys2Proof Sys2Proof.Machine

namespace Sys2Proof.Proofs

/-- Memory in its canonical form. -/
def MemForm (m : List Host.Cell) : Prop := Memory.wf m = true

section
variable {s : State}

theorem MemForm.setCount (h : MemForm s.mem) (c : Ctr) (n v : Nat) : MemForm (s.setCount c n v).mem := h
theorem MemForm.bump (h : MemForm s.mem) (c : Ctr) (n k : Nat) : MemForm (s.bump c n k).mem := h
theorem MemForm.setCore (h : MemForm s.mem) (c : Nat) (x : Core) : MemForm (s.setCore c x).mem := h
theorem MemForm.modCore (h : MemForm s.mem) (c : Nat) (f : Core → Core) : MemForm (s.modCore c f).mem := h
theorem MemForm.setTeam (h : MemForm s.mem) (c k : Nat) (x : Team) : MemForm (s.setTeam c k x).mem := h
theorem MemForm.modTeam (h : MemForm s.mem) (c k : Nat) (f : Team → Team) : MemForm (s.modTeam c k f).mem := by rwa [State.modTeam_mem]
theorem MemForm.setRidge (h : MemForm s.mem) (c : Nat) (x : Ridge) : MemForm (s.setRidge c x).mem := h
theorem MemForm.modRidge (h : MemForm s.mem) (c : Nat) (f : Ridge → Ridge) : MemForm (s.modRidge c f).mem := by rwa [State.modRidge_mem]
theorem MemForm.setBlock (h : MemForm s.mem) (c : Nat) (x : Block) : MemForm (s.setBlock c x).mem := h
theorem MemForm.modBlock (h : MemForm s.mem) (c : Nat) (f : Block → Block) : MemForm (s.modBlock c f).mem := by rwa [State.modBlock_mem]
theorem MemForm.setCtx (h : MemForm s.mem) (c : Nat) (x : Ctx) : MemForm (s.setCtx c x).mem := h
theorem MemForm.modCtx (h : MemForm s.mem) (c : Nat) (f : Ctx → Ctx) : MemForm (s.modCtx c f).mem := h
theorem MemForm.setStk (h : MemForm s.mem) (c : Nat) (x : Stack) : MemForm (s.setStk c x).mem := h
theorem MemForm.modStk (h : MemForm s.mem) (c : Nat) (f : Stack → Stack) : MemForm (s.modStk c f).mem := h
theorem MemForm.setSlice (h : MemForm s.mem) (c : Nat) (x : Slice) : MemForm (s.setSlice c x).mem := h
theorem MemForm.modSlice (h : MemForm s.mem) (c : Nat) (f : Slice → Slice) : MemForm (s.modSlice c f).mem := h
theorem MemForm.setPart (h : MemForm s.mem) (c : Nat) (x : Part) : MemForm (s.setPart c x).mem := h
theorem MemForm.modPart (h : MemForm s.mem) (c : Nat) (f : Part → Part) : MemForm (s.modPart c f).mem := h
theorem MemForm.tickSeq (h : MemForm s.mem) : MemForm s.tickSeq.mem := h
theorem MemForm.tickFree (h : MemForm s.mem) : MemForm s.tickFree.mem := h
theorem MemForm.memWrite (h : MemForm s.mem) (k : Nat) (bs : List Byte) : MemForm (s.memWrite k bs).mem := wf_memPut k bs h
theorem MemForm.filter {m : List Host.Cell} (h : MemForm m) (p : Host.Cell → Bool) : MemForm (m.filter p) := wf_mem_filter p h

/-- What each of some changes keeps, all of them keep. -/
theorem MemForm.foldl {α : Type} {f : State → α → State} (hf : ∀ s x, MemForm s.mem → MemForm (f s x).mem) (l : List α)
    (h : MemForm s.mem) : MemForm (l.foldl f s).mem := by
  induction l generalizing s with
  | nil => exact h
  | cons x l ih => exact ih (hf _ _ h)

/-- The same where something beside the state is carried along. -/
theorem MemForm.foldl_fst {α β : Type} {f : State × β → α → State × β} (hf : ∀ s x, MemForm s.1.mem → MemForm (f s x).1.mem)
    (l : List α) {p : State × β} (h : MemForm p.1.mem) : MemForm (l.foldl f p).1.mem := by
  induction l generalizing p with
  | nil => exact h
  | cons x l ih => exact ih (hf _ _ h)

end

/-! The end of an effect, and of an instruction. -/

/-- Every state that the end of an effect holds has its memory in form. -/
def ResForm : Res → Prop
  | .done s | .went s | .wait s | .part s _ | .trapNext s _ _ | .trapIn s _ _ | .fatalIn s _ _ => MemForm s.mem
  | .short _ | .hold | .trap _ _ | .fatal _ _ => True

/-- A next state has its memory in form. -/
def OutForm : Host.Outcome State Fault Refusal → Prop
  | .next s => MemForm s.mem
  | _ => True

end Sys2Proof.Proofs
end

section
/-! Memory in its canonical form (log 2), continued. The operations of the package that units, teams and streams share, and how an instruction's effect ends (Res). -/

open Sys2Proof Sys2Proof.Machine

namespace Sys2Proof.Proofs

set_option Elab.async false

variable {s : State}

theorem MemForm.corrected (hm : MemForm s.mem) (key : Nat) :
    MemForm (State.corrected s key).mem := by
  unfold State.corrected
  grind [MemForm.bump]

theorem MemForm.sweep (hm : MemForm s.mem) (core : Nat) :
    MemForm (State.sweep s core).mem := by
  unfold State.sweep
  grind [MemForm.modCore, MemForm.foldl]

theorem MemForm.killLoads (hm : MemForm s.mem) (core slot : Nat) :
    MemForm (State.killLoads s core slot).mem := by
  unfold State.killLoads
  grind [MemForm.modCore, MemForm.bump]

theorem MemForm.killSlots (hm : MemForm s.mem) (core : Nat) (slots : List Nat) :
    MemForm (State.killSlots s core slots).mem := by
  unfold State.killSlots
  grind [MemForm.modCore, MemForm.bump]

theorem MemForm.fatal (hm : MemForm s.mem) (part unit : Nat) (cause : Cause) (slot resume : Nat) (faddr : W64) :
    MemForm (State.fatal s part unit cause slot resume faddr).mem := by
  unfold State.fatal
  grind [MemForm.setPart]

theorem MemForm.fatalAt (hm : MemForm s.mem) (core slot : Nat) (cause : Cause) (resume : Nat) (faddr : W64) :
    MemForm (State.fatalAt s core slot cause resume faddr).mem := by
  unfold State.fatalAt
  grind [MemForm.fatal]

theorem MemForm.push (hm : MemForm s.mem) (core slot : Nat) (t : Team) (e : Entry) :
    MemForm (State.push s core slot t e).mem := by
  unfold State.push
  grind [MemForm.setTeam, MemForm.bump]

theorem MemForm.takeTrap (hm : MemForm s.mem) (core slot : Nat) (t : Team) (cause : Cause) (faddr : W64) (resume : Nat) :
    MemForm (State.takeTrap s core slot t cause faddr resume).mem := by
  unfold State.takeTrap
  grind [MemForm.fatalAt, MemForm.push, MemForm.killLoads]

theorem MemForm.takeTrapM (hm : MemForm s.mem) (core : Nat) (r : Ridge) (cause : Cause) (faddr : W64) (resume : Nat) :
    MemForm (State.takeTrapM s core r cause faddr resume).mem := by
  unfold State.takeTrapM
  grind [MemForm.fatalAt, MemForm.setRidge]

theorem MemForm.unissue (hm : MemForm s.mem) (blk uid : Nat) :
    MemForm (State.unissue s blk uid).mem := by
  unfold State.unissue
  grind [MemForm.modBlock]

theorem MemForm.freezeTeam (hm : MemForm s.mem) (core slot : Nat) (t : Team) (f : Freeze) :
    MemForm (State.freezeTeam s core slot t f).mem := by
  unfold State.freezeTeam
  grind [MemForm.setTeam, MemForm.unissue]

theorem MemForm.freezeRidge (hm : MemForm s.mem) (core : Nat) (r : Ridge) (f : Freeze) :
    MemForm (State.freezeRidge s core r f).mem := by
  unfold State.freezeRidge
  grind [MemForm.setRidge, MemForm.unissue]

theorem MemForm.dropBanks (hm : MemForm s.mem) (core : Nat) :
    MemForm (State.dropBanks s core).mem := by
  unfold State.dropBanks
  grind [MemForm.modCore]

theorem MemForm.noteEnd (hm : MemForm s.mem) (launch : Option Nat) (uid : Nat) :
    MemForm (State.noteEnd s launch uid).mem := by
  unfold State.noteEnd
  grind

theorem MemForm.endBlock (hm : MemForm s.mem) (b : Nat) :
    MemForm (State.endBlock s b).mem := by
  unfold State.endBlock
  grind [MemForm.dropBanks]

theorem MemForm.retire (hm : MemForm s.mem) (core slot : Nat) (t : Team) :
    MemForm (State.retire s core slot t).mem := by
  unfold State.retire
  grind [MemForm.modBlock, MemForm.modCore, MemForm.sweep, MemForm.noteEnd, MemForm.dropBanks, MemForm.endBlock]

theorem MemForm.emptied (h : MemForm s.mem) (core slot n : Nat) (t : Team) :
    MemForm (s.emptied core slot n t).mem := by
  induction n generalizing s t with
  | zero => exact h
  | succ n ih =>
    unfold State.emptied
    grind [MemForm.setTeam, MemForm.retire, MemForm.killLoads]

theorem MemForm.trapReturn (hm : MemForm s.mem) (core slot : Nat) (t : Team) (e : Entry) :
    MemForm (State.trapReturn s core slot t e).mem := by
  unfold State.trapReturn
  grind [MemForm.killLoads, MemForm.emptied]

theorem MemForm.trapReturnM (hm : MemForm s.mem) (core : Nat) (r : Ridge) (resume : Nat) (v62 v63 : W64) :
    MemForm (State.trapReturnM s core r resume v62 v63).mem := by
  unfold State.trapReturnM
  grind [MemForm.setRidge]

theorem ResForm.sliceWait (hm : MemForm s.mem) (c : Nat) :
    ResForm (State.sliceWait s c) := by
  unfold State.sliceWait
  grind [MemForm.bump, ResForm]

theorem MemForm.skipSeq (hm : MemForm s.mem) :
    MemForm (State.skipSeq s).mem := by
  unfold State.skipSeq
  grind

theorem MemForm.Acc2_leave (hm : MemForm s.mem) (a : Acc2) (x : X) :
    MemForm (Acc2.leave a x s).mem := by
  unfold Acc2.leave
  grind [MemForm.setCore, MemForm.setTeam, MemForm.skipSeq, MemForm.bump]

theorem ResForm.vecResult (hm : MemForm s.mem) (i : Instr) (x : X) (d : VReg) (n : Nat) (f : Nat → Nat) (fl : Nat → BitVec 5) :
    ResForm (Machine.vecResult i x s d n f fl) := by
  unfold Machine.vecResult
  grind [MemForm.Acc2_leave, ResForm]

theorem ResForm.vecWhole (hm : MemForm s.mem) (i : Instr) (x : X) (d : VReg) (n : Nat) (f : Nat → Nat) (fl : Nat → BitVec 5) :
    ResForm (Machine.vecWhole i x s d n f fl) := by
  unfold Machine.vecWhole
  grind [ResForm.vecResult, ResForm.sliceWait, ResForm]

theorem ResForm.vecOut (hm : MemForm s.mem) (i : Instr) (x : X) (d : VReg) (n : Nat) (f : Nat → Nat) :
    ResForm (Machine.vecOut i x s d n f) := by
  unfold Machine.vecOut
  grind [ResForm.vecResult, ResForm]

theorem ResForm.predResult (hm : MemForm s.mem) (i : Instr) (x : X) (d : PReg) (v : Mask) (fl : BitVec 5) :
    ResForm (Machine.predResult i x s d v fl) := by
  unfold Machine.predResult
  grind [MemForm.setTeam, ResForm]

theorem ResForm.scalResult (hm : MemForm s.mem) (i : Instr) (x : X) (d : SReg) (v : W64) (fl : BitVec 5) :
    ResForm (Machine.scalResult i x s d v fl) := by
  unfold Machine.scalResult
  grind [MemForm.setTeam, ResForm]

theorem ResForm.scalResultM (hm : MemForm s.mem) (i : Instr) (x : XR) (d : SReg) (v : W64) :
    ResForm (Machine.scalResultM i x s d v) := by
  unfold Machine.scalResultM
  grind [MemForm.setRidge, ResForm]

theorem ResForm.predResultM (hm : MemForm s.mem) (i : Instr) (x : XR) (d : PReg) (v : Bool) :
    ResForm (Machine.predResultM i x s d v) := by
  unfold Machine.predResultM
  grind [MemForm.setRidge, ResForm]

theorem MemForm.written (hm : MemForm s.mem) (c slot : Nat) (sh : Shadow) :
    MemForm (State.written s c slot sh).mem := by
  unfold State.written
  grind [MemForm.modTeam, MemForm.modCore, MemForm.tickSeq]

theorem MemForm.agedTeam (hm : MemForm s.mem) (c slot stall : Nat) :
    MemForm (State.agedTeam s c slot stall).mem := by
  unfold State.agedTeam
  grind [MemForm.modTeam]

theorem MemForm.agedRidge (hm : MemForm s.mem) (c stall : Nat) :
    MemForm (State.agedRidge s c stall).mem := by
  unfold State.agedRidge
  grind [MemForm.modRidge]

theorem MemForm.settleTeam (h : MemForm s.mem) (i : Instr) (hd : Hdr) (c slot : Nat) (t : Team) {r : Res} (hr : ResForm r) :
    MemForm (settleTeam i hd s c slot t r).mem := by
  unfold Machine.settleTeam
  grind [MemForm.modTeam, MemForm.agedTeam, MemForm.tickSeq, MemForm.bump, MemForm.takeTrap, MemForm.fatal, MemForm.fatalAt, ResForm]

theorem MemForm.settleRidge (h : MemForm s.mem) (i : Instr) (hd : Hdr) (c : Nat) (t : Ridge) {r : Res} (hr : ResForm r) :
    MemForm (settleRidge i hd s c t r).mem := by
  unfold Machine.settleRidge
  grind [MemForm.modRidge, MemForm.agedRidge, MemForm.tickSeq, MemForm.takeTrapM, MemForm.fatal, MemForm.fatalAt, ResForm]

theorem ResForm.checked {eff : X → State → Res} (he : ∀ x s, MemForm s.mem → ResForm (eff x s)) (i : Instr) (rd : List Reg) (x : X)
    (h : MemForm s.mem) : ResForm (checked i rd eff x s) := by
  unfold Machine.checked
  grind [ResForm]

theorem ResForm.inParts {eff : X → State → Res} (he : ∀ x s, MemForm s.mem → ResForm (eff x s)) (x : X)
    (h : MemForm s.mem) : ResForm (inParts eff x s) := by
  unfold Machine.inParts
  split
  case h_1 w _ =>
    split
    · trivial
    · have hw := he { x with adm := x.adm &&& below w, part := true } s h
      split
      · next e => rwa [e] at hw
      · exact hw
  case h_2 => exact he x s h

theorem ResForm.notLast (core ctx hdrAddr hdrWord pc : Nat) : ResForm (s.notLast core ctx hdrAddr hdrWord pc) := by
  unfold State.notLast
  split <;> trivial

theorem ResForm.issueTeam (h : MemForm s.mem) {eff : X → State → Res} (he : ∀ x s, MemForm s.mem → ResForm (eff x s)) (i : Instr)
    (hd : Hdr) (nd : Need) (c slot : Nat) (t : Team) : ResForm (issueTeam i hd nd s c slot t eff) := by
  have hp {m : State} (hm : MemForm m.mem) (rd : List Reg) (x : X) : ResForm (Machine.inParts (Machine.checked i rd eff) x m) :=
    ResForm.inParts (fun x s hs => ResForm.checked he i rd x hs) x hm
  unfold Machine.issueTeam
  split
  extract_lets rd' un src
  split
  · trivial
  split
  · exact ResForm.notLast ..
  split
  · trivial
  split
  · exact h
  split
  · trivial
  split
  · trivial
  split
  · exact hp h ..
  split
  · trivial
  · exact hp (m := { s with free := s.free + un.length }) h ..

theorem ResForm.issueRidge (h : MemForm s.mem) {eff : XR → State → Res} (he : ∀ x s, MemForm s.mem → ResForm (eff x s)) (i : Instr)
    (hd : Hdr) (nd : Need) (c : Nat) (t : Ridge) : ResForm (issueRidge i hd nd s c t eff) := by
  unfold Machine.issueRidge
  grind [ResForm.notLast, MemForm.foldl, ResForm]

theorem OutForm.runTeam (h : MemForm s.mem) (i : Instr) (hd : Hdr) (nd : State → Nat → Team → Need) {eff : X → State → Res}
    (he : ∀ x s, MemForm s.mem → ResForm (eff x s)) : OutForm (runTeam i hd nd s eff) := by
  have hs (c slot : Nat) (t : Team) := MemForm.settleTeam h i hd c slot t (ResForm.issueTeam h he i hd (nd s c t) c slot t)
  have hm (c : Nat) (r : Ridge) := MemForm.settleRidge h i hd c r (r := .trap .illegal 0) trivial
  unfold Machine.runTeam
  grind [OutForm]

theorem OutForm.runRidge (h : MemForm s.mem) (i : Instr) (hd : Hdr) (nd : State → Nat → Ridge → Need) {eff : XR → State → Res}
    (he : ∀ x s, MemForm s.mem → ResForm (eff x s)) : OutForm (runRidge i hd nd s eff) := by
  have hs (c slot : Nat) (t : Team) := MemForm.settleTeam h i hd c slot t (r := .trap .illegal 0) trivial
  have hm (c : Nat) (r : Ridge) := MemForm.settleRidge h i hd c r (ResForm.issueRidge h he i hd (nd s c r) c r)
  unfold Machine.runRidge
  grind [OutForm]

theorem OutForm.runBoth (h : MemForm s.mem) (i : Instr) (hd : Hdr) (ndT : State → Nat → Team → Need) (ndR : State → Nat → Ridge → Need)
    {effT : X → State → Res} {effR : XR → State → Res} (hT : ∀ x s, MemForm s.mem → ResForm (effT x s))
    (hR : ∀ x s, MemForm s.mem → ResForm (effR x s)) : OutForm (runBoth i hd ndT ndR s effT effR) := by
  have hs (c slot : Nat) (t : Team) := MemForm.settleTeam h i hd c slot t (ResForm.issueTeam h hT i hd (ndT s c t) c slot t)
  have hm (c : Nat) (r : Ridge) := MemForm.settleRidge h i hd c r (ResForm.issueRidge h hR i hd (ndR s c r) c r)
  unfold Machine.runBoth
  grind [OutForm]

theorem MemForm.saved (hm : MemForm s.mem) (pa : Nat) :
    MemForm (State.saved s pa).mem := by
  unfold State.saved
  grind [MemForm.bump]

theorem MemForm.compress (hm : MemForm s.mem) (pa cls : Nat) :
    MemForm (State.compress s pa cls).mem := by
  unfold State.compress
  grind [MemForm.saved, MemForm.tickFree]

theorem MemForm.writeBack (hm : MemForm s.mem) (out : List L2Line) :
    MemForm (State.writeBack s out).mem := by
  unfold State.writeBack
  grind [MemForm.compress, MemForm.foldl]

theorem MemForm.l2Access (hm : MemForm s.mem) (pa cls : Nat) (write : Bool) :
    MemForm (State.l2Access s pa cls write).1.mem := by
  unfold State.l2Access
  grind [MemForm.compress, MemForm.setSlice, MemForm.saved, MemForm.writeBack, MemForm.foldl]

theorem MemForm.readAt (hm : MemForm s.mem) (k cls : Nat) :
    MemForm (State.readAt s k cls).mem := by
  unfold State.readAt
  grind [MemForm.corrected, MemForm.l2Access]

theorem MemForm.noteEcc (hm : MemForm s.mem) (key : Nat) :
    MemForm (State.noteEcc s key).mem := by
  unfold State.noteEcc
  grind [MemForm.setSlice]

theorem MemForm.walkedReads (hm : MemForm s.mem) (ctx va : Nat) :
    MemForm (State.walkedReads s ctx va).mem := by
  unfold State.walkedReads
  grind [MemForm.noteEcc, MemForm.readAt, MemForm.foldl]

theorem MemForm.startWalk (hm : MemForm s.mem) (st core ctx va : Nat) :
    MemForm (State.startWalk s st core ctx va).mem := by
  unfold State.startWalk
  grind [MemForm.bump, MemForm.walkedReads]

theorem MemForm.tlbFill (hm : MemForm s.mem) (core ctx va : Nat) :
    MemForm (State.tlbFill s core ctx va).mem := by
  unfold State.tlbFill
  grind [MemForm.bump, MemForm.startWalk, MemForm.fatalAt]

theorem MemForm.tlbFills (hm : MemForm s.mem) (core ctx : Nat) (vas : List Nat) :
    MemForm (State.tlbFills s core ctx vas).mem := by
  unfold State.tlbFills
  grind [MemForm.tlbFill, MemForm.foldl]

theorem MemForm.fetchFill (hm : MemForm s.mem) (core ctx va : Nat) :
    MemForm (State.fetchFill s core ctx va).mem := by
  unfold State.fetchFill
  grind [MemForm.tlbFill]

theorem MemForm.dropAccess (hm : MemForm s.mem) (id : Nat) :
    MemForm (State.dropAccess s id).mem := by
  unfold State.dropAccess
  grind

theorem MemForm.modAccess (hm : MemForm s.mem) (id : Nat) (f : Access → Access) :
    MemForm (State.modAccess s id f).mem := by
  unfold State.modAccess
  grind

theorem MemForm.homeLine (hm : MemForm s.mem) (pa cls : Nat) :
    MemForm (State.homeLine s pa cls).1.mem := by
  unfold State.homeLine
  grind [MemForm.l2Access, MemForm.tickFree]

theorem MemForm.deliverTo (hm : MemForm s.mem) (core uid lane : Nat) (d : Dest) (k len : Nat) (sx : Bool) (v : Nat) :
    MemForm (State.deliverTo s core uid lane d k len sx v).mem := by
  unfold State.deliverTo
  grind [MemForm.modCore]

theorem MemForm.deliver (h : MemForm s.mem) (a : Access) (v : Nat) : MemForm (s.deliver a v).mem := by
  unfold State.deliver
  exact MemForm.foldl_fst (fun s d h => h.deliverTo ..) _ h

theorem MemForm.eccFault (hm : MemForm s.mem) (a : Access) :
    MemForm (State.eccFault s a).mem := by
  unfold State.eccFault
  grind [MemForm.noteEcc, MemForm.fatal, MemForm.fatalAt]

theorem MemForm.selfInvalidate (hm : MemForm s.mem) (core : Nat) :
    MemForm (State.selfInvalidate s core).mem := by
  unfold State.selfInvalidate
  grind [MemForm.modCore]

theorem MemForm.acquired (hm : MemForm s.mem) (core : Nat) (uid : Nat) :
    MemForm (State.acquired s core uid).mem := by
  unfold State.acquired
  grind [MemForm.selfInvalidate, MemForm.killLoads]

theorem MemForm.noteVer (hm : MemForm s.mem) (uid line : Nat) (v : W32) :
    MemForm (State.noteVer s uid line v).mem := by
  unfold State.noteVer
  grind

theorem MemForm.slipTeam (hm : MemForm s.mem) (c slot : Nat) (t : Team) :
    MemForm (State.slipTeam s c slot t).mem := by
  unfold State.slipTeam
  grind [MemForm.setTeam, MemForm.bump]

theorem MemForm.slipRidge (hm : MemForm s.mem) (c : Nat) (r : Ridge) :
    MemForm (State.slipRidge s c r).mem := by
  unfold State.slipRidge
  grind [MemForm.setRidge, MemForm.bump]

theorem MemForm.enterRidge (hm : MemForm s.mem) (c : Nat) (r : Ridge) :
    MemForm (Machine.enterRidge s c r).mem := by
  unfold Machine.enterRidge
  grind [MemForm.slipRidge, MemForm.fetchFill, MemForm.takeTrapM, MemForm.fatalAt, MemForm.setRidge, MemForm.freezeRidge]

theorem MemForm.startPasses (hm : MemForm s.mem) (c slot : Nat) (t : Team) (i : Instr) (n : Nat) :
    MemForm (State.startPasses s c slot t i n).mem := by
  unfold State.startPasses
  grind [MemForm.modCore, MemForm.modTeam, MemForm.foldl]

theorem MemForm.issuedTeam (hm : MemForm s.mem) (c slot : Nat) (t : Team) (i : Instr) :
    MemForm (State.issuedTeam s c slot t i).mem := by
  unfold State.issuedTeam
  grind [MemForm.startPasses, MemForm.modTeam]

theorem MemForm.issuedRidge (hm : MemForm s.mem) (c : Nat) (r : Ridge) (i : Instr) :
    MemForm (State.issuedRidge s c r i).mem := by
  unfold State.issuedRidge
  grind [MemForm.modRidge]

theorem MemForm.triedSlot (hm : MemForm s.mem) (c slot : Nat) :
    MemForm (State.triedSlot s c slot).mem := by
  unfold State.triedSlot
  grind [MemForm.modCore]

theorem MemForm.ranTeam {s' : State} (h : MemForm s'.mem) (c slot : Nat) (t o : Team) (i : Instr) :
    MemForm (s.ranTeam c slot t o i s').mem := by
  unfold State.ranTeam
  grind [MemForm.triedSlot, MemForm.freezeTeam, MemForm.startPasses, MemForm.issuedTeam]

theorem MemForm.ran {s' : State} (h : MemForm s'.mem) (p : Party) (i : Instr) : MemForm (s.ran p i s').mem := by
  unfold State.ran
  grind [MemForm.ranTeam, MemForm.issuedTeam, MemForm.freezeRidge, MemForm.issuedRidge]

theorem OutForm.ranOf {o : Host.Outcome State Fault Refusal} (h : OutForm o) (p : Party) (i : Instr) : OutForm (s.ranOf p i o) := by
  unfold State.ranOf
  grind [OutForm, MemForm.ran]

theorem OutForm.sForm (hm : MemForm s.mem) (i : Instr) (h : Hdr) (d : SReg) (f : (SReg → W64) → W64) :
    OutForm (Machine.sForm i h s d f) := by
  unfold Machine.sForm
  grind [OutForm.runBoth, ResForm.scalResult, ResForm.scalResultM, ResForm, OutForm]

theorem OutForm.sInt (hm : MemForm s.mem) (i : Instr) (h : Hdr) (o : IOp) (ty : ITy) (sat : Bool) (d a b c : SReg) :
    OutForm (Machine.sInt i h o ty sat d a b c s) := by
  unfold Machine.sInt
  grind [OutForm.sForm, ResForm, OutForm]

theorem OutForm.vForm (hm : MemForm s.mem) (i : Instr) (h : Hdr) (d : VReg) (n : Nat) (f : Src → Nat → Nat) :
    OutForm (Machine.vForm i h s d n f) := by
  unfold Machine.vForm
  grind [OutForm.runTeam, ResForm.vecOut, ResForm, OutForm]

theorem OutForm.vInt (hm : MemForm s.mem) (i : Instr) (h : Hdr) (o : IOp) (ty : ITy) (sat : Bool) (d : VReg) (a b c : VS) :
    OutForm (Machine.vInt i h o ty sat d a b c s) := by
  unfold Machine.vInt
  grind [OutForm.vForm, ResForm, OutForm]

theorem OutForm.execSadd (hm : MemForm s.mem) (h : Hdr) (d a b : SReg) (ty : ITy) (sat : Bool) :
    OutForm (Machine.execSadd h d a b ty sat s) := by
  unfold Machine.execSadd
  grind [OutForm.sInt, ResForm, OutForm]

theorem OutForm.execVadd (hm : MemForm s.mem) (h : Hdr) (d : VReg) (a b : VS) (ty : ITy) (sat : Bool) :
    OutForm (Machine.execVadd h d a b ty sat s) := by
  unfold Machine.execVadd
  grind [OutForm.vInt, ResForm, OutForm]

theorem OutForm.execSsub (hm : MemForm s.mem) (h : Hdr) (d a b : SReg) (ty : ITy) (sat : Bool) :
    OutForm (Machine.execSsub h d a b ty sat s) := by
  unfold Machine.execSsub
  grind [OutForm.sInt, ResForm, OutForm]

theorem OutForm.execVsub (hm : MemForm s.mem) (h : Hdr) (d : VReg) (a b : VS) (ty : ITy) (sat : Bool) :
    OutForm (Machine.execVsub h d a b ty sat s) := by
  unfold Machine.execVsub
  grind [OutForm.vInt, ResForm, OutForm]

theorem OutForm.execSmul (hm : MemForm s.mem) (h : Hdr) (d a b : SReg) (ty : ITy) :
    OutForm (Machine.execSmul h d a b ty s) := by
  unfold Machine.execSmul
  grind [OutForm.sInt, ResForm, OutForm]

theorem OutForm.execVmul (hm : MemForm s.mem) (h : Hdr) (d : VReg) (a b : VS) (ty : ITy) :
    OutForm (Machine.execVmul h d a b ty s) := by
  unfold Machine.execVmul
  grind [OutForm.vInt, ResForm, OutForm]

theorem OutForm.execSmulh (hm : MemForm s.mem) (h : Hdr) (d a b : SReg) (ty : ITy) :
    OutForm (Machine.execSmulh h d a b ty s) := by
  unfold Machine.execSmulh
  grind [OutForm.sInt, ResForm, OutForm]

theorem OutForm.execVmulh (hm : MemForm s.mem) (h : Hdr) (d : VReg) (a b : VS) (ty : ITy) :
    OutForm (Machine.execVmulh h d a b ty s) := by
  unfold Machine.execVmulh
  grind [OutForm.vInt, ResForm, OutForm]

theorem OutForm.execSmad (hm : MemForm s.mem) (h : Hdr) (d a b c : SReg) (ty : ITy) :
    OutForm (Machine.execSmad h d a b c ty s) := by
  unfold Machine.execSmad
  grind [OutForm.sInt, ResForm, OutForm]

theorem OutForm.execVmad (hm : MemForm s.mem) (h : Hdr) (d : VReg) (a b c : VS) (ty : ITy) :
    OutForm (Machine.execVmad h d a b c ty s) := by
  unfold Machine.execVmad
  grind [OutForm.vInt, ResForm, OutForm]

theorem OutForm.execSand (hm : MemForm s.mem) (h : Hdr) (d a b : SReg) (ty : ITy) :
    OutForm (Machine.execSand h d a b ty s) := by
  unfold Machine.execSand
  grind [OutForm.sInt, ResForm, OutForm]

theorem OutForm.execVand (hm : MemForm s.mem) (h : Hdr) (d : VReg) (a b : VS) (ty : ITy) :
    OutForm (Machine.execVand h d a b ty s) := by
  unfold Machine.execVand
  grind [OutForm.vInt, ResForm, OutForm]

theorem OutForm.execSor (hm : MemForm s.mem) (h : Hdr) (d a b : SReg) (ty : ITy) :
    OutForm (Machine.execSor h d a b ty s) := by
  unfold Machine.execSor
  grind [OutForm.sInt, ResForm, OutForm]

theorem OutForm.execVor (hm : MemForm s.mem) (h : Hdr) (d : VReg) (a b : VS) (ty : ITy) :
    OutForm (Machine.execVor h d a b ty s) := by
  unfold Machine.execVor
  grind [OutForm.vInt, ResForm, OutForm]

theorem OutForm.execSxor (hm : MemForm s.mem) (h : Hdr) (d a b : SReg) (ty : ITy) :
    OutForm (Machine.execSxor h d a b ty s) := by
  unfold Machine.execSxor
  grind [OutForm.sInt, ResForm, OutForm]

theorem OutForm.execVxor (hm : MemForm s.mem) (h : Hdr) (d : VReg) (a b : VS) (ty : ITy) :
    OutForm (Machine.execVxor h d a b ty s) := by
  unfold Machine.execVxor
  grind [OutForm.vInt, ResForm, OutForm]

theorem OutForm.execSshl (hm : MemForm s.mem) (h : Hdr) (d a b : SReg) (ty : ITy) :
    OutForm (Machine.execSshl h d a b ty s) := by
  unfold Machine.execSshl
  grind [OutForm.sInt, ResForm, OutForm]

theorem OutForm.execVshl (hm : MemForm s.mem) (h : Hdr) (d : VReg) (a b : VS) (ty : ITy) :
    OutForm (Machine.execVshl h d a b ty s) := by
  unfold Machine.execVshl
  grind [OutForm.vInt, ResForm, OutForm]

theorem OutForm.execSshr (hm : MemForm s.mem) (h : Hdr) (d a b : SReg) (ty : ITy) :
    OutForm (Machine.execSshr h d a b ty s) := by
  unfold Machine.execSshr
  grind [OutForm.sInt, ResForm, OutForm]

theorem OutForm.execVshr (hm : MemForm s.mem) (h : Hdr) (d : VReg) (a b : VS) (ty : ITy) :
    OutForm (Machine.execVshr h d a b ty s) := by
  unfold Machine.execVshr
  grind [OutForm.vInt, ResForm, OutForm]

theorem OutForm.execSsar (hm : MemForm s.mem) (h : Hdr) (d a b : SReg) (ty : ITy) :
    OutForm (Machine.execSsar h d a b ty s) := by
  unfold Machine.execSsar
  grind [OutForm.sInt, ResForm, OutForm]

theorem OutForm.execVsar (hm : MemForm s.mem) (h : Hdr) (d : VReg) (a b : VS) (ty : ITy) :
    OutForm (Machine.execVsar h d a b ty s) := by
  unfold Machine.execVsar
  grind [OutForm.vInt, ResForm, OutForm]

theorem OutForm.execSmin (hm : MemForm s.mem) (h : Hdr) (d a b : SReg) (ty : ITy) :
    OutForm (Machine.execSmin h d a b ty s) := by
  unfold Machine.execSmin
  grind [OutForm.sInt, ResForm, OutForm]

end Sys2Proof.Proofs
end

section
/-! Memory in its canonical form (log 2), continued. Memory accesses of a team and of a unit, up to the loads and stores. -/

open Sys2Proof Sys2Proof.Machine

namespace Sys2Proof.Proofs

set_option Elab.async false

variable {s : State}

theorem OutForm.execVmin (hm : MemForm s.mem) (h : Hdr) (d : VReg) (a b : VS) (ty : ITy) :
    OutForm (Machine.execVmin h d a b ty s) := by
  unfold Machine.execVmin
  grind [OutForm.vInt, ResForm, OutForm]

theorem OutForm.execSmax (hm : MemForm s.mem) (h : Hdr) (d a b : SReg) (ty : ITy) :
    OutForm (Machine.execSmax h d a b ty s) := by
  unfold Machine.execSmax
  grind [OutForm.sInt, ResForm, OutForm]

theorem OutForm.execVmax (hm : MemForm s.mem) (h : Hdr) (d : VReg) (a b : VS) (ty : ITy) :
    OutForm (Machine.execVmax h d a b ty s) := by
  unfold Machine.execVmax
  grind [OutForm.vInt, ResForm, OutForm]

theorem OutForm.execScmp (hm : MemForm s.mem) (h : Hdr) (d : PReg) (a b : SReg) (c : ICond) (ty : ITy) :
    OutForm (Machine.execScmp h d a b c ty s) := by
  unfold Machine.execScmp
  grind [OutForm.runBoth, ResForm.predResult, ResForm.predResultM, ResForm, OutForm]

theorem OutForm.execVcmp (hm : MemForm s.mem) (h : Hdr) (d : PReg) (a b : VS) (c : ICond) (ty : ITy) :
    OutForm (Machine.execVcmp h d a b c ty s) := by
  unfold Machine.execVcmp
  grind [OutForm.runTeam, ResForm.predResult, ResForm, OutForm]

theorem OutForm.execVsel (hm : MemForm s.mem) (h : Hdr) (d : VReg) (a b : VS) (c : PReg) (wide : Bool) :
    OutForm (Machine.execVsel h d a b c wide s) := by
  unfold Machine.execVsel
  grind [OutForm.vForm, ResForm, OutForm]

theorem OutForm.execVclz (hm : MemForm s.mem) (h : Hdr) (d a : VReg) (wide : Bool) :
    OutForm (Machine.execVclz h d a wide s) := by
  unfold Machine.execVclz
  grind [OutForm.vForm, ResForm, OutForm]

theorem OutForm.execVpop (hm : MemForm s.mem) (h : Hdr) (d a : VReg) (wide : Bool) :
    OutForm (Machine.execVpop h d a wide s) := by
  unfold Machine.execVpop
  grind [OutForm.vForm, ResForm, OutForm]

theorem OutForm.execVbfx (hm : MemForm s.mem) (h : Hdr) (d a : VReg) (pos lenm1 : Fin 32) (sg : Bool) :
    OutForm (Machine.execVbfx h d a pos lenm1 sg s) := by
  unfold Machine.execVbfx
  grind [OutForm.vForm, ResForm, OutForm]

theorem OutForm.execVbfi (hm : MemForm s.mem) (h : Hdr) (d a b : VReg) (pos lenm1 : Fin 32) :
    OutForm (Machine.execVbfi h d a b pos lenm1 s) := by
  unfold Machine.execVbfi
  grind [OutForm.vForm, ResForm, OutForm]

theorem OutForm.execVaddc (hm : MemForm s.mem) (h : Hdr) (d : VReg) (a b : VS) (c : PReg) (sub : Bool) :
    OutForm (Machine.execVaddc h d a b c sub s) := by
  unfold Machine.execVaddc
  grind [OutForm.runTeam, ResForm.vecOut, ResForm.predResult, ResForm, OutForm]

theorem OutForm.execVaddr (hm : MemForm s.mem) (h : Hdr) (d : VReg) (a : VS) (b : VReg) (scale : Fin 4) (wide : Bool) :
    OutForm (Machine.execVaddr h d a b scale wide s) := by
  unfold Machine.execVaddr
  grind [OutForm.vForm, ResForm, OutForm]

theorem OutForm.execSaddi (hm : MemForm s.mem) (h : Hdr) (d a : SReg) (wide : Bool) (imm : BitVec 23) :
    OutForm (Machine.execSaddi h d a wide imm s) := by
  unfold Machine.execSaddi
  grind [OutForm.sForm, ResForm, OutForm]

theorem OutForm.execVaddi (hm : MemForm s.mem) (h : Hdr) (d a : VReg) (wide : Bool) (imm : BitVec 23) :
    OutForm (Machine.execVaddi h d a wide imm s) := by
  unfold Machine.execVaddi
  grind [OutForm.vForm, ResForm, OutForm]

theorem OutForm.execCsum (hm : MemForm s.mem) (h : Hdr) (d a : SReg) (b : VReg) (wide : Bool) :
    OutForm (Machine.execCsum h d a b wide s) := by
  unfold Machine.execCsum
  grind [OutForm.runTeam, ResForm.scalResult, MemForm.foldl, ResForm, OutForm]

theorem ResForm.toTarget (h : MemForm s.mem) (core ctx target : Nat) {go : State → Res} (hg : ∀ s, MemForm s.mem → ResForm (go s)) :
    ResForm (s.toTarget core ctx target go) := by
  unfold State.toTarget
  grind [MemForm.fetchFill, ResForm]

theorem ResForm.X_goto (hm : MemForm s.mem) (x : X) (pc : Nat) :
    ResForm (X.goto x s pc) := by
  unfold X.goto
  grind [MemForm.setTeam, ResForm]

theorem ResForm.XR_goto (hm : MemForm s.mem) (x : XR) (pc : Nat) :
    ResForm (XR.goto x s pc) := by
  unfold XR.goto
  grind [ResForm.X_goto, MemForm.setRidge, ResForm]

theorem ResForm.X_masked (hm : MemForm s.mem) (x : X) (t : Team) :
    ResForm (X.masked x s t) := by
  unfold X.masked
  grind [MemForm.emptied, MemForm.setTeam, ResForm]

theorem ResForm.X_branchPush (h : MemForm s.mem) (x : X) (left : Mask) (rpc target : Nat) : ResForm
    (X.branch.push x target s left rpc) := by
  unfold X.branch.push
  grind [MemForm.push, ResForm]

theorem ResForm.X_branch (h : MemForm s.mem) (x : X) (target : Nat) : ResForm (X.branch x s target) := by
  unfold X.branch
  grind [ResForm.X_branchPush, ResForm.toTarget, ResForm.X_goto, MemForm.setTeam, ResForm]

theorem ResForm.XR_branch (hm : MemForm s.mem) (x : XR) (target : Nat) :
    ResForm (XR.branch x s target) := by
  unfold XR.branch
  grind [ResForm.X_branch, ResForm.toTarget, ResForm.X_goto, ResForm.XR_goto, ResForm]

theorem OutForm.execNop (h : MemForm s.mem) (hd : Hdr) : OutForm (Machine.execNop hd s) :=
  OutForm.runBoth h _ _ _ _ (fun _ _ h => h) fun _ _ h => h

theorem OutForm.execBra (hm : MemForm s.mem) (h : Hdr) (off : BitVec 24) :
    OutForm (Machine.execBra h off s) := by
  unfold Machine.execBra
  grind [OutForm.runBoth, ResForm.X_branch, ResForm.XR_branch, ResForm, OutForm]

theorem OutForm.execJmps (hm : MemForm s.mem) (h : Hdr) (r : SReg) :
    OutForm (Machine.execJmps h r s) := by
  unfold Machine.execJmps
  grind [OutForm.runBoth, ResForm.X_branch, ResForm.XR_branch, ResForm, OutForm]

theorem OutForm.testBranch (hm : MemForm s.mem) (i : Instr) (h : Hdr) (off : BitVec 24) (test : X → Bool) :
    OutForm (Machine.testBranch i h off s test) := by
  unfold Machine.testBranch
  grind [OutForm.runTeam, ResForm.toTarget, ResForm.X_goto, ResForm.XR_goto, ResForm, OutForm]

theorem OutForm.execBall (hm : MemForm s.mem) (h : Hdr) (t : PReg) (neg : Bool) (off : BitVec 24) :
    OutForm (Machine.execBall h t neg off s) := by
  unfold Machine.execBall
  grind [OutForm.testBranch, ResForm, OutForm]

theorem OutForm.execBany (hm : MemForm s.mem) (h : Hdr) (t : PReg) (neg : Bool) (off : BitVec 24) :
    OutForm (Machine.execBany h t neg off s) := by
  unfold Machine.execBany
  grind [OutForm.testBranch, ResForm, OutForm]

theorem OutForm.execCall (hm : MemForm s.mem) (h : Hdr) (tgt : CallTgt) :
    OutForm (Machine.execCall h tgt s) := by
  unfold Machine.execCall
  grind [OutForm.runBoth, ResForm.toTarget, MemForm.push, ResForm.XR_goto, ResForm.X_goto, ResForm, OutForm]

theorem OutForm.execRet (hm : MemForm s.mem) (h : Hdr) :
    OutForm (Machine.execRet h s) := by
  unfold Machine.execRet
  grind [OutForm.runBoth, ResForm.toTarget, ResForm.X_masked, ResForm.XR_goto, ResForm.X_goto, ResForm, OutForm]

theorem OutForm.execReconv (hm : MemForm s.mem) (h : Hdr) :
    OutForm (Machine.execReconv h s) := by
  unfold Machine.execReconv
  grind [OutForm.runTeam, ResForm.X_masked, ResForm, OutForm]

theorem OutForm.execBrk (hm : MemForm s.mem) (h : Hdr) (lvl : Fin 16) :
    OutForm (Machine.execBrk h lvl s) := by
  unfold Machine.execBrk
  grind [OutForm.runTeam, ResForm.X_masked, ResForm, OutForm]

theorem OutForm.execExit (hm : MemForm s.mem) (h : Hdr) :
    OutForm (Machine.execExit h s) := by
  unfold Machine.execExit
  grind [OutForm.runBoth, ResForm.X_masked, MemForm.setRidge, MemForm.noteEnd, MemForm.dropBanks, MemForm.endBlock, ResForm, OutForm]

theorem OutForm.execElect (hm : MemForm s.mem) (h : Hdr) (d : SReg) :
    OutForm (Machine.execElect h d s) := by
  unfold Machine.execElect
  grind [OutForm.runTeam, MemForm.push, ResForm, OutForm]

theorem OutForm.execEndlead (hm : MemForm s.mem) (h : Hdr) :
    OutForm (Machine.execEndlead h s) := by
  unfold Machine.execEndlead
  grind [OutForm.runTeam, MemForm.setTeam, ResForm, OutForm]

theorem OutForm.execPhint (hm : MemForm s.mem) (h : Hdr) (d : SReg) (sg : BitVec 4) (pg : BitVec 6) (pk : BitVec 8) :
    OutForm (Machine.execPhint h d sg pg pk s) := by
  unfold Machine.execPhint
  grind [OutForm.runTeam, MemForm.freezeTeam, ResForm, OutForm]

theorem OutForm.execYield (hm : MemForm s.mem) (h : Hdr) :
    OutForm (Machine.execYield h s) := by
  unfold Machine.execYield
  grind [OutForm.runTeam, MemForm.setTeam, ResForm, OutForm]

theorem OutForm.execPset (hm : MemForm s.mem) (h : Hdr) (d : PReg) (imm : W32) :
    OutForm (Machine.execPset h d imm s) := by
  unfold Machine.execPset
  grind [OutForm.runBoth, ResForm.predResult, ResForm.predResultM, ResForm, OutForm]

theorem OutForm.execPlop (hm : MemForm s.mem) (h : Hdr) (d a b c : PReg) (tbl : BitVec 8) :
    OutForm (Machine.execPlop h d a b c tbl s) := by
  unfold Machine.execPlop
  grind [OutForm.runBoth, ResForm.predResult, ResForm.predResultM, ResForm, OutForm]

theorem OutForm.execPmov (hm : MemForm s.mem) (h : Hdr) (f : PMovForm) :
    OutForm (Machine.execPmov h f s) := by
  unfold Machine.execPmov
  grind [OutForm.runBoth, ResForm.predResult, ResForm.vecOut, ResForm.predResultM, ResForm, OutForm]

theorem OutForm.execPcnt (hm : MemForm s.mem) (h : Hdr) (d : SReg) (a : PReg) :
    OutForm (Machine.execPcnt h d a s) := by
  unfold Machine.execPcnt
  grind [OutForm.runTeam, ResForm.scalResult, ResForm, OutForm]

theorem OutForm.execPfirst (hm : MemForm s.mem) (h : Hdr) (d : SReg) (a : PReg) :
    OutForm (Machine.execPfirst h d a s) := by
  unfold Machine.execPfirst
  grind [OutForm.runTeam, ResForm.scalResult, ResForm, OutForm]

theorem MemForm.compare (hm : MemForm s.mem) (pa depth src : Nat) (old new : List Byte) :
    MemForm (State.compare s pa depth src old new).mem := by
  unfold State.compare
  grind

theorem MemForm.queueRecord (hm : MemForm s.mem) (k : Nat) (quota : Nat) (r : TRec) :
    MemForm (State.queueRecord s k quota r).mem := by
  unfold State.queueRecord
  grind [MemForm.bump, MemForm.setSlice]

theorem MemForm.drainRing (hm : MemForm s.mem) (k : Nat) :
    MemForm (State.drainRing s k).mem := by
  unfold State.drainRing
  grind [MemForm.setSlice]

theorem MemForm.setPool (hm : MemForm s.mem) (ctx n : Nat) (p : Pool) :
    MemForm (State.setPool s ctx n p).mem := by
  unfold State.setPool
  grind [MemForm.modCtx]

theorem MemForm.dropCode (hm : MemForm s.mem) (part ctx : Nat) :
    MemForm (State.dropCode s part ctx).mem := by
  unfold State.dropCode
  grind

theorem MemForm.formOne (hm : MemForm s.mem) (ctx n : Nat) (p : Pool) (k : Nat) :
    MemForm (State.formOne s ctx n p k).mem := by
  unfold State.formOne
  grind [MemForm.dropCode, MemForm.setPool, MemForm.tickSeq]

theorem MemForm.formTeams (h : MemForm s.mem) (ctx p n : Nat) :
    MemForm (s.formTeams ctx p n).mem := by
  induction n generalizing s with
  | zero => exact h
  | succ n ih =>
    unfold State.formTeams
    grind [MemForm.formOne]

theorem MemForm.listenFill (hm : MemForm s.mem) (ctx n : Nat) :
    MemForm (State.listenFill s ctx n).mem := by
  unfold State.listenFill
  grind [MemForm.modCtx]

theorem MemForm.collectFrom (h : MemForm s.mem) (ctx p n : Nat) :
    MemForm (s.collectFrom ctx p n).mem := by
  induction n generalizing s with
  | zero => exact h
  | succ n ih =>
    unfold State.collectFrom
    grind [MemForm.listenFill, MemForm.formTeams]

theorem MemForm.collected (hm : MemForm s.mem) (ctx n : Nat) :
    MemForm (State.collected s ctx n).mem := by
  unfold State.collected
  grind [MemForm.collectFrom]

theorem MemForm.handOff (hm : MemForm s.mem) (k j : Nat) :
    MemForm (State.handOff s k j).mem := by
  unfold State.handOff
  grind [MemForm.setSlice, MemForm.setPool, MemForm.collected]

theorem MemForm.emberAdd (hm : MemForm s.mem) (ctx dom stack : Nat) (v : Int) :
    MemForm (State.emberAdd s ctx dom stack v).mem := by
  unfold State.emberAdd
  grind [MemForm.modCtx]

theorem MemForm.perform (hm : MemForm s.mem) (w : Writer) (pa cls : Nat) (bs : List Byte) (triggers : Bool) :
    MemForm (State.perform s w pa cls bs triggers).1.mem := by
  unfold State.perform
  grind [MemForm.memWrite, MemForm.l2Access, MemForm.compare]

theorem MemForm.revokeAt (hm : MemForm s.mem) (core pa len : Nat) :
    MemForm (State.revokeAt s core pa len).mem := by
  unfold State.revokeAt
  grind [MemForm.modCore, MemForm.foldl]

theorem MemForm.addAccess (hm : MemForm s.mem) (a : Access) :
    MemForm (State.addAccess s a).mem := by
  unfold State.addAccess
  grind [MemForm.tickSeq]

theorem MemForm.send (hm : MemForm s.mem) (a : Access) :
    MemForm (State.send s a).mem := by
  unfold State.send
  grind [MemForm.addAccess]

theorem MemForm.resend (hm : MemForm s.mem) (k : Nat) :
    MemForm (State.resend s k).mem := by
  unfold State.resend
  grind

theorem MemForm.unitPut (hm : MemForm s.mem) (u : Unit_) (k cls : Nat) (bs : List Byte) (triggers : Bool) :
    MemForm (State.unitPut s u k cls bs triggers).mem := by
  unfold State.unitPut
  grind [MemForm.memWrite, MemForm.send, MemForm.addAccess, MemForm.perform, MemForm.revokeAt, MemForm.foldl]

theorem MemForm.putEach (h : MemForm s.mem) (u : Unit_) (tr : Bool) (l : List (Nat × Nat × Nat)) (bs : List Byte) :
    MemForm (s.putEach u tr l bs).mem := by
  induction l generalizing s bs with
  | nil => exact h
  | cons x l ih =>
    unfold State.putEach
    grind [MemForm.unitPut]

theorem MemForm.countSilent (hm : MemForm s.mem) (ps : List (Nat × Nat × Nat)) (bs : List Byte) :
    MemForm (State.countSilent s ps bs).mem := by
  unfold State.countSilent
  grind [MemForm.bump]

theorem MemForm.putPieces (hm : MemForm s.mem) (u : Unit_) (triggers : Bool) (ps : List (Nat × Nat × Nat)) (bs : List Byte) :
    MemForm (State.putPieces s u triggers ps bs).mem := by
  unfold State.putPieces
  grind [MemForm.countSilent, MemForm.putEach]

theorem MemForm.putWord (hm : MemForm s.mem) (u : Unit_) (k cls : Nat) (bs : List Byte) :
    MemForm (State.putWord s u k cls bs).mem := by
  unfold State.putWord
  grind [MemForm.putPieces]

theorem MemForm.putAll (hm : MemForm s.mem) (u : Unit_) (xs : List Put) :
    MemForm (State.putAll s u xs).mem := by
  unfold State.putAll
  grind [MemForm.putPieces, MemForm.foldl]

theorem MemForm.readPieces (hm : MemForm s.mem) (ps : List (Nat × Nat × Nat)) :
    MemForm (State.readPieces s ps).mem := by
  unfold State.readPieces
  grind [MemForm.readAt, MemForm.foldl]

theorem MemForm.noteBad (hm : MemForm s.mem) (ps : List (Nat × Nat × Nat)) :
    MemForm (State.noteBad s ps).mem := by
  unfold State.noteBad
  grind [MemForm.noteEcc]

theorem MemForm.noOlder (hm : MemForm s.mem) (a : Access) :
    MemForm (State.noOlder s a).mem := by
  unfold State.noOlder
  grind

theorem MemForm.storeSeen (hm : MemForm s.mem) (a : Access) (v : W32) :
    MemForm (State.storeSeen s a v).mem := by
  unfold State.storeSeen
  grind [MemForm.noOlder, MemForm.noteVer]

theorem MemForm.noCopies (hm : MemForm s.mem) (a : Access) :
    MemForm (State.noCopies s a).mem := by
  unfold State.noCopies
  grind

theorem MemForm.land (hm : MemForm s.mem) (a : Access) (bs : List Byte) :
    MemForm (State.land s a bs).mem := by
  unfold State.land
  grind [MemForm.memWrite, MemForm.modAccess, MemForm.noOlder, MemForm.noCopies, MemForm.countSilent, MemForm.perform, MemForm.storeSeen]

theorem MemForm.settleCore (hm : MemForm s.mem) (core : Nat) :
    MemForm (State.settleCore s core).mem := by
  unfold State.settleCore
  grind [MemForm.sweep]

theorem MemForm.boundAcq (hm : MemForm s.mem) (a : Access) :
    MemForm (State.boundAcq s a).mem := by
  unfold State.boundAcq
  grind [MemForm.acquired]

theorem MemForm.doStore (hm : MemForm s.mem) (a : Access) (bs : List Byte) :
    MemForm (State.doStore s a bs).mem := by
  unfold State.doStore
  grind [MemForm.modAccess, MemForm.land]

theorem MemForm.doAtomic (hm : MemForm s.mem) (a : Access) (op : AOp) (ft : Nat) (sx : Bool) (b c : W64) :
    MemForm (State.doAtomic s a op ft sx b c).mem := by
  unfold State.doAtomic
  grind [MemForm.corrected, MemForm.dropAccess, MemForm.eccFault, MemForm.modAccess, MemForm.tickFree, MemForm.land, MemForm.deliver,
    MemForm.boundAcq, MemForm.settleCore]

theorem MemForm.doAck (hm : MemForm s.mem) (a : Access) :
    MemForm (State.doAck s a).mem := by
  unfold State.doAck
  grind [MemForm.dropAccess]

theorem MemForm.bindRead (hm : MemForm s.mem) (a : Access) (v : Nat) :
    MemForm (State.bindRead s a v).mem := by
  unfold State.bindRead
  grind [MemForm.deliver, MemForm.dropAccess, MemForm.boundAcq, MemForm.settleCore]

theorem MemForm.answer (hm : MemForm s.mem) (a : Access) (bytes : List Byte) (ver : W32) :
    MemForm (State.answer s a bytes ver).mem := by
  unfold State.answer
  grind [MemForm.homeLine, MemForm.modAccess, MemForm.bump, MemForm.modCore, MemForm.noteVer, MemForm.bindRead]

theorem MemForm.respond (hm : MemForm s.mem) (a : Access) (how : Nat) :
    MemForm (State.respond s a how).mem := by
  unfold State.respond
  grind [MemForm.corrected, MemForm.bump, MemForm.dropAccess, MemForm.eccFault, MemForm.bindRead, MemForm.homeLine, MemForm.answer]

theorem MemForm.unitWalk (hm : MemForm s.mem) (st ctx a : Nat) :
    MemForm (State.unitWalk s st ctx a).mem := by
  unfold State.unitWalk
  grind [MemForm.startWalk]

theorem MemForm.unitWalks (hm : MemForm s.mem) (st : Nat) (w : Who) (sp : Space) (as : List Nat) :
    MemForm (State.unitWalks s st w sp as).mem := by
  unfold State.unitWalks
  grind [MemForm.unitWalk, MemForm.foldl]

theorem MemForm.changeAt (hm : MemForm s.mem) (u : Unit_) (kind : AccK) (k cls : Nat) (new : List Byte) :
    MemForm (State.changeAt s u kind k cls new).mem := by
  unfold State.changeAt
  grind [MemForm.send, MemForm.addAccess, MemForm.putWord]

theorem MemForm.wordAt (hm : MemForm s.mem) (u : Unit_) (k cls : Nat) (f : WordOp) :
    MemForm (State.wordAt s u k cls f).mem := by
  unfold State.wordAt
  grind [MemForm.changeAt]

theorem MemForm.unitUpd (hm : MemForm s.mem) (ctx a : Nat) (r : Bool) (f : WordOp) (id : Nat) {m : State}
    (e : State.unitUpd s ctx a r f id = some m) :
    MemForm m.mem := by
  unfold State.unitUpd at e
  grind [MemForm.unitWalk, MemForm.wordAt]

theorem MemForm.signal (hm : MemForm s.mem) (ctx part a : Nat) (id : Nat) :
    MemForm (State.signal s ctx part a id).mem := by
  unfold State.signal
  grind [MemForm.unitUpd, MemForm.fatal]

theorem MemForm.walkAll (hm : MemForm s.mem) (w : Who) (sp : Space) (ls : List (Nat × Nat)) :
    MemForm (State.walkAll s w sp ls).mem := by
  unfold State.walkAll
  grind [MemForm.tlbFills]

theorem ResForm.failRes (h : MemForm s.mem) (w : Who) (sp : Space) (ls : List (Nat × Nat)) (f : Fail) :
    ResForm (s.failRes w sp ls f) := by
  unfold State.failRes
  grind [MemForm.walkAll, ResForm]

theorem MemForm.touch (hm : MemForm s.mem) (w : Who) (sp : Space) (ls : List (Nat × Spot)) :
    MemForm (State.touch s w sp ls).mem := by
  unfold State.touch
  grind [MemForm.walkAll]

theorem MemForm.startRead (hm : MemForm s.mem) (a : Access) (sp : Space) :
    MemForm (State.startRead s a sp).mem := by
  unfold State.startRead
  grind [MemForm.eccFault, MemForm.corrected, MemForm.deliver, MemForm.addAccess, MemForm.noteVer, MemForm.send, MemForm.homeLine]

theorem MemForm.startReads (hm : MemForm s.mem) (a : Access) (sp : Space) :
    MemForm (State.startReads s a sp).mem := by
  unfold State.startReads
  grind [MemForm.startRead]

theorem MemForm.alloc (hm : MemForm s.mem) (x : X) (d : VReg) (n j : Nat) (w : W32) :
    MemForm (State.alloc s x d n j w).1.mem := by
  unfold State.alloc
  grind [MemForm.setCore, MemForm.setTeam, MemForm.foldl]

theorem MemForm.X_loadPass (hm : MemForm s.mem) (x : X) (i : Instr) (d : VReg) (n j : Nat) (w : W32) (ins : Bool) (sp : Space)
    (mk : Nat → Option Access) :
    MemForm (X.loadPass x i d n j w ins sp mk s).mem := by
  unfold X.loadPass
  grind [MemForm.setCore, MemForm.bump, MemForm.modTeam, MemForm.tickSeq, MemForm.alloc, MemForm.modCore, MemForm.startReads,
    MemForm.foldl]

theorem OutForm.execLd (hm : MemForm s.mem) (h : Hdr) (data addr : VS) (sp : Space) (ord : Order) (sz : Size) (sx : Bool)
    (off : BitVec 16) :
    OutForm (Machine.execLd h data addr sp ord sz sx off s) := by
  unfold Machine.execLd
  grind [OutForm.runTeam, ResForm.failRes, MemForm.acquired, MemForm.touch, MemForm.tickSeq, MemForm.startReads, ResForm.sliceWait,
    MemForm.X_loadPass, MemForm.foldl, ResForm, OutForm]

theorem MemForm.startWrite (hm : MemForm s.mem) (w : Who) (sp : Space) (a : Access) (bs : List Byte) :
    MemForm (State.startWrite s w sp a bs).mem := by
  unfold State.startWrite
  grind [MemForm.memWrite, MemForm.modCore, MemForm.send]

theorem MemForm.startWrites (hm : MemForm s.mem) (w : Who) (sp : Space) (a : Access) (bs : List Byte) :
    MemForm (State.startWrites s w sp a bs).mem := by
  unfold State.startWrites
  grind [MemForm.startWrite]

theorem MemForm.X_storesWide (hm : MemForm s.mem) (x : X) (sp : Space) (rel wide : Bool) (ps : List (Nat × Spot)) (f : Nat → List Byte) :
    MemForm (X.storesWide x s sp rel wide ps f).mem := by
  unfold X.storesWide
  grind [MemForm.killLoads, MemForm.touch, MemForm.startWrites, MemForm.tickSeq, MemForm.foldl]

theorem MemForm.X_stores (hm : MemForm s.mem) (x : X) (sp : Space) (rel : Bool) (ps : List (Nat × Spot)) (f : Nat → List Byte) :
    MemForm (X.stores x s sp rel ps f).mem := by
  unfold X.stores
  grind [MemForm.X_storesWide]

theorem OutForm.execSt (hm : MemForm s.mem) (h : Hdr) (data addr : VS) (sp : Space) (ord : Order) (sz : Size) (off : BitVec 16) :
    OutForm (Machine.execSt h data addr sp ord sz off s) := by
  unfold Machine.execSt
  grind [OutForm.runTeam, ResForm.failRes, MemForm.X_stores, ResForm, OutForm]

theorem MemForm.X_atomics (hm : MemForm s.mem) (x : X) (sp : Space) (ord : Order) (op : AOp) (ft : Fin 3) (sx : Bool) (n : Nat) (o : VS)
    (ext : Bool) (ps : List (Nat × Spot)) (dests : Nat → List Dest) :
    MemForm (X.atomics x s sp ord op ft sx n o ext ps dests).mem := by
  unfold X.atomics
  grind [MemForm.touch, MemForm.killLoads, MemForm.send, MemForm.tickSeq, MemForm.foldl]

end Sys2Proof.Proofs
end

section
/-! Memory in its canonical form (log 2), continued. Atomics, the engines and rings, and what the engines do. -/

open Sys2Proof Sys2Proof.Machine

namespace Sys2Proof.Proofs

set_option Elab.async false

variable {s : State}

theorem OutForm.execAtom (h : MemForm s.mem) (hd : Hdr) (data addr : VS) (sp : Space) (ord : Order) (sz : Size) (sx : Bool) (b : VS)
    (op : AOp) (ft : Fin 3) : OutForm (execAtom hd data addr sp ord sz sx b op ft s) := by
  refine OutForm.runTeam h _ _ _ fun x s h => ?_
  extract_lets as ws
  split
  · exact h
  split
  · exact ResForm.failRes h ..
  split
  · trivial
  cases data with
  | s r => exact MemForm.X_atomics h ..
  | v d =>
    simp only
    split
    · split
      · exact ResForm.sliceWait h ..
      · trivial
    · refine MemForm.X_atomics (MemForm.foldl_fst (fun q j hq => ?_) _ ?_) ..
      · exact hq.alloc ..
      · exact h

theorem OutForm.execRed (hm : MemForm s.mem) (h : Hdr) (data addr : VS) (sp : Space) (ord : Order) (sz : Size) (sx : Bool) (op : AOp)
    (ft : Fin 3) :
    OutForm (Machine.execRed h data addr sp ord sz sx op ft s) := by
  unfold Machine.execRed
  grind [OutForm.runTeam, ResForm.failRes, MemForm.X_atomics, ResForm, OutForm]

theorem OutForm.execFence (hm : MemForm s.mem) (h : Hdr) (ord : Order) :
    OutForm (Machine.execFence h ord s) := by
  unfold Machine.execFence
  grind [OutForm.runTeam, MemForm.acquired, MemForm.killLoads, MemForm.modTeam, MemForm.tickSeq, ResForm, OutForm]

theorem MemForm.prefetch (hm : MemForm s.mem) (w : Who) (l2 : Bool) (e : TlbE) (va : Nat) :
    MemForm (State.prefetch s w l2 e va).mem := by
  unfold State.prefetch
  grind [MemForm.l2Access, MemForm.startRead]

theorem MemForm.prefetchAt (hm : MemForm s.mem) (w : Who) (l2 : Bool) (va : Nat) :
    MemForm (State.prefetchAt s w l2 va).mem := by
  unfold State.prefetchAt
  grind [MemForm.prefetch, MemForm.bump, MemForm.walkedReads]

theorem OutForm.execPrf (hm : MemForm s.mem) (h : Hdr) (l2 : Bool) (addr : VS) (off : BitVec 16) :
    OutForm (Machine.execPrf h l2 addr off s) := by
  unfold Machine.execPrf
  grind [OutForm.runTeam, MemForm.prefetchAt, MemForm.foldl, ResForm, OutForm]

theorem MemForm.listView (hm : MemForm s.mem) (w : Who) (reg : Nat) (v : View) :
    MemForm (State.listView s w reg v).1.mem := by
  unfold State.listView
  grind [MemForm.setCore, MemForm.bump]

theorem MemForm.X_putView (hm : MemForm s.mem) (x : X) (reg : WReg) (v : View) :
    MemForm (X.putView x s reg v).mem := by
  unfold X.putView
  grind [MemForm.listView, MemForm.modTeam]

theorem OutForm.execVld (hm : MemForm s.mem) (h : Hdr) (d : VReg) (w : WReg) (ord : Order) (sz : Size) (sx : Bool) (idx : VS)
    (p : Option PReg) :
    OutForm (Machine.execVld h d w ord sz sx idx p s) := by
  unfold Machine.execVld
  grind [OutForm.runTeam, MemForm.bump, ResForm.failRes, ResForm.sliceWait, MemForm.X_loadPass, MemForm.touch, MemForm.modTeam,
    MemForm.acquired, MemForm.foldl, ResForm, OutForm]

theorem OutForm.execVst (hm : MemForm s.mem) (h : Hdr) (d : VReg) (w : WReg) (ord : Order) (sz : Size) (idx : VS) :
    OutForm (Machine.execVst h d w ord sz idx s) := by
  unfold Machine.execVst
  grind [OutForm.runTeam, MemForm.bump, ResForm.failRes, MemForm.X_stores, ResForm, OutForm]

theorem MemForm.readDesc (hm : MemForm s.mem) (w : Who) (key cls : Nat) {p} (e : State.readDesc s w key cls = some p) :
    MemForm p.1.mem := by
  unfold State.readDesc at e
  grind [MemForm.corrected, MemForm.readAt, MemForm.homeLine, MemForm.noteVer]

theorem OutForm.execVwset (h : MemForm s.mem) (hd : Hdr) (d : WReg) (a : SReg) : OutForm (execVwset hd d a s) := by
  refine OutForm.runTeam h _ _ _ fun x s h => ?_
  extract_lets r bits va
  split
  · exact h
  split
  · exact ResForm.failRes h ..
  split
  · trivial
  split
  · exact h
  split
  · trivial
  · next e =>
    have hr := (h.touch ..).readDesc _ _ _ e
    split
    · exact MemForm.noteEcc hr ..
    split
    · trivial
    · extract_lets v
      split
      · trivial
      · exact MemForm.killLoads (MemForm.X_putView hr ..) ..

theorem OutForm.execVwadj (hm : MemForm s.mem) (h : Hdr) (d a : WReg) (b : SReg) (dim : Fin 4) (f : AdjField) :
    OutForm (Machine.execVwadj h d a b dim f s) := by
  unfold Machine.execVwadj
  grind [OutForm.runTeam, MemForm.X_putView, MemForm.killLoads, ResForm, OutForm]

theorem OutForm.execVret (hm : MemForm s.mem) (h : Hdr) (d : WReg) :
    OutForm (Machine.execVret h d s) := by
  unfold Machine.execVret
  grind [OutForm.runTeam, MemForm.killLoads, MemForm.modCore, MemForm.modTeam, ResForm, OutForm]

theorem OutForm.execTdset (hm : MemForm s.mem) (h : Hdr) (a b : SReg) :
    OutForm (Machine.execTdset h a b s) := by
  unfold Machine.execTdset
  grind [OutForm.runTeam, ResForm.failRes, MemForm.X_storesWide, ResForm, OutForm]

theorem ResForm.X_more (h : MemForm s.mem) (x : X) (rs : List Reg) (reads : Bool) {k : X → State → Res}
    (hk : ∀ x s, MemForm s.mem → ResForm (k x s)) : ResForm (x.more s rs reads k) := by
  unfold X.more
  grind [MemForm.fatal, ResForm]

theorem MemForm.setTrail (hm : MemForm s.mem) (ctx q : Nat) (l : List TrailEl) :
    MemForm (State.setTrail s ctx q l).mem := by
  unfold State.setTrail
  grind [MemForm.modCtx]

theorem MemForm.areaPut (hm : MemForm s.mem) (ctx a : Nat) (bs : List Byte) :
    MemForm (State.areaPut s ctx a bs).mem := by
  unfold State.areaPut
  grind [MemForm.putPieces]

theorem MemForm.trailPush (hm : MemForm s.mem) (ctx q : Nat) (key val : W64) :
    MemForm (State.trailPush s ctx q key val).mem := by
  unfold State.trailPush
  grind [MemForm.setTrail, MemForm.areaPut]

theorem MemForm.trailPop (hm : MemForm s.mem) (ctx q : Nat) {p} (e : State.trailPop s ctx q = some p) :
    MemForm p.1.mem := by
  unfold State.trailPop at e
  grind [MemForm.setTrail, MemForm.tickFree]

theorem MemForm.setRuck (hm : MemForm s.mem) (ctx q : Nat) (l : List RItem) :
    MemForm (State.setRuck s ctx q l).mem := by
  unfold State.setRuck
  grind [MemForm.modCtx]

theorem MemForm.ruckPush (hm : MemForm s.mem) (ctx q core depth : Nat) (items : List W64) :
    MemForm (State.ruckPush s ctx q core depth items).mem := by
  unfold State.ruckPush
  grind [MemForm.setRuck, MemForm.modCtx, MemForm.areaPut, MemForm.emberAdd, MemForm.collected, MemForm.foldl]

theorem MemForm.strikePush (hm : MemForm s.mem) (stack : Nat) (w : Who) (depth a : Nat) :
    MemForm (State.strikePush s stack w depth a).mem := by
  unfold State.strikePush
  grind [MemForm.modStk, MemForm.tickSeq]

theorem MemForm.popItems (h : MemForm s.mem) (ctx : Nat) (b : QBind) (n : Nat) : MemForm (s.popItems ctx b n).1.mem := by
  induction n generalizing s with
  | zero => exact h
  | succ n ih =>
    unfold State.popItems
    split
    · split
      · next e => exact ih (h.trailPop _ _ e)
      · exact h
    · split
      · exact ih (h.setRuck ..)
      · exact h

theorem MemForm.X_writeLanes (hm : MemForm s.mem) (x : X) (d : VReg) (n : Nat) (vals : List (Nat × Nat)) :
    MemForm (X.writeLanes x s d n vals).mem := by
  unfold X.writeLanes
  grind [MemForm.alloc, MemForm.deliver, MemForm.foldl]

theorem ResForm.X_popped (hm : MemForm s.mem) (x : X) :
    ResForm (X.popped x s) := by
  unfold X.popped
  grind [MemForm.acquired, ResForm]

theorem ResForm.X_push (h : MemForm s.mem) (x : X) (ok : Bool) {act : State → State} (ha : ∀ s, MemForm s.mem → MemForm (act s).mem) :
    ResForm (x.push s ok act) := by
  unfold X.push
  grind [MemForm.push, MemForm.killLoads, ResForm]

theorem ResForm.X_pushScalar (hm : MemForm s.mem) (x : X) (q : QReg) (a : SReg) :
    ResForm (X.pushScalar x s q a) := by
  unfold X.pushScalar
  grind [MemForm.killLoads, ResForm.X_more, MemForm.push, ResForm.X_push, MemForm.trailPush, MemForm.ruckPush, MemForm.strikePush,
    ResForm]

theorem ResForm.X_pushVector (hm : MemForm s.mem) (x : X) (q : QReg) (a : VReg) (wide : Bool) :
    ResForm (X.pushVector x s q a wide) := by
  unfold X.pushVector
  grind [ResForm.X_more, MemForm.push, ResForm.X_push, MemForm.trailPush, MemForm.ruckPush, MemForm.foldl, ResForm]

theorem ResForm.X_popScalar (hm : MemForm s.mem) (x : X) (d : SReg) (q : QReg) :
    ResForm (X.popScalar x s d q) := by
  unfold X.popScalar
  grind [MemForm.modCore, MemForm.memWrite, MemForm.modTeam, MemForm.acquired, ResForm.X_more, MemForm.popItems, ResForm]

theorem ResForm.X_popVector (hm : MemForm s.mem) (x : X) (d : VReg) (q : QReg) (wide : Bool) :
    ResForm (X.popVector x s d q wide) := by
  unfold X.popVector
  grind [MemForm.X_writeLanes, ResForm.X_popped, MemForm.modTeam, ResForm.X_more, MemForm.popItems, ResForm]

theorem OutForm.execSmov (hm : MemForm s.mem) (h : Hdr) (f : SMovForm) :
    OutForm (Machine.execSmov h f s) := by
  unfold Machine.execSmov
  grind [MemForm.push, ResForm.X_push, OutForm.runBoth, ResForm.scalResult, ResForm.X_pushScalar, ResForm.X_popScalar,
    ResForm.scalResultM, ResForm, OutForm]

theorem OutForm.execVmov (hm : MemForm s.mem) (h : Hdr) (f : VMovForm) (wide : Bool) :
    OutForm (Machine.execVmov h f wide s) := by
  unfold Machine.execVmov
  grind [MemForm.push, ResForm.X_push, OutForm.runTeam, MemForm.setCore, MemForm.setTeam, ResForm.vecOut, ResForm.X_pushVector,
    ResForm.X_popVector, MemForm.foldl, ResForm, OutForm]

theorem OutForm.execSmovi (hm : MemForm s.mem) (h : Hdr) (d : SReg) (high : Bool) (imm : W32) :
    OutForm (Machine.execSmovi h d high imm s) := by
  unfold Machine.execSmovi
  grind [OutForm.sForm, ResForm, OutForm]

theorem OutForm.execVmovi (hm : MemForm s.mem) (h : Hdr) (d : VReg) (imm : W32) :
    OutForm (Machine.execVmovi h d imm s) := by
  unfold Machine.execVmovi
  grind [OutForm.vForm, ResForm, OutForm]

theorem OutForm.execQbind (hm : MemForm s.mem) (h : Hdr) (q : QReg) (r : SReg) (kind : Fin 6) :
    OutForm (Machine.execQbind h q r kind s) := by
  unfold Machine.execQbind
  grind [OutForm.runTeam, MemForm.modTeam, ResForm, OutForm]

theorem OutForm.execQtry (h : MemForm s.mem) (hd : Hdr) (d : VS) (q : QReg) (p : PReg) (wide : Bool) :
    OutForm (execQtry hd d q p wide s) := by
  unfold Machine.execQtry
  extract_lets need
  refine OutForm.runTeam h _ _ _ fun x s h => ?_
  extract_lets b ls fin
  have hfin {s : State} (h : MemForm s.mem) (m : Mask) : ResForm (fin s m) := by
    grind [MemForm.modTeam, MemForm.killLoads, MemForm.acquired, ResForm]
  clear_value fin
  split
  · exact h
  cases d with
  | s r =>
    simp only
    split
    · split
      · trivial
      split
      · exact hfin h _
      · exact hfin (MemForm.modTeam (MemForm.memWrite (h.modCore ..) ..) ..) _
    split
    · trivial
    · refine ResForm.X_more h _ _ _ fun _ s h => ?_
      split
      · exact hfin h _
      · exact hfin ((h.popItems ..).modTeam ..) _
  | v r =>
    simp only
    split
    · split
      · trivial
      split
      · trivial
      split
      · exact hfin h _
      split
      · trivial
      · refine hfin ?_ _
        split
        · exact MemForm.X_writeLanes h ..
        · exact (MemForm.X_writeLanes h ..).modTeam ..
    split
    · trivial
    split
    · trivial
    · refine ResForm.X_more h _ _ _ fun x s h => ?_
      split
      · trivial
      · exact hfin (MemForm.X_writeLanes (h.popItems ..) ..) _

theorem OutForm.execRefill (hm : MemForm s.mem) (h : Hdr) (q : QReg) (wt : Bool) (off : BitVec 24) :
    OutForm (Machine.execRefill h q wt off s) := by
  unfold Machine.execRefill
  grind [OutForm.runTeam, MemForm.popItems, MemForm.setTeam, MemForm.killLoads, MemForm.acquired, ResForm.toTarget, MemForm.foldl,
    ResForm, OutForm]

theorem MemForm.ringPut (hm : MemForm s.mem) (u : Unit_) (r : Ring) (off n v : Nat) :
    MemForm (State.ringPut s u r off n v).mem := by
  unfold State.ringPut
  grind [MemForm.putWord]

theorem MemForm.slotPut (hm : MemForm s.mem) (u : Unit_) (w : Who) (r : Ring) (i w0 w1 : Nat) :
    MemForm (State.slotPut s u w r i w0 w1).mem := by
  unfold State.slotPut
  grind [MemForm.putWord]

theorem MemForm.reserve (hm : MemForm s.mem) (u : Unit_) (w : Who) (r : Ring) :
    MemForm (State.reserve s u w r).mem := by
  unfold State.reserve
  grind [MemForm.slotPut, MemForm.ringPut]

theorem MemForm.report (hm : MemForm s.mem) (u : Unit_) (w : Who) (ring : W64) (slot : Nat) (e : OpEnd) :
    MemForm (State.report s u w ring slot e).mem := by
  unfold State.report
  grind [MemForm.slotPut, MemForm.ringPut, MemForm.fatal]

theorem MemForm.endOp (hm : MemForm s.mem) (o : Op) :
    MemForm (State.endOp s o).mem := by
  unfold State.endOp
  grind [MemForm.selfInvalidate, MemForm.modCore, MemForm.foldl]

theorem MemForm.X_launchOp (hm : MemForm s.mem) (x : X) (k : OpK) (ring : W64) (slot : Nat) (reads writes : Option (Option Foot))
    (views : List View) :
    MemForm (X.launchOp x s k ring slot reads writes views).mem := by
  unfold X.launchOp
  grind [MemForm.modCore, MemForm.tickSeq, MemForm.killLoads, MemForm.foldl]

theorem ResForm.X_withRing (x : X) (s : State) (hd : W64) (ow sw : Bool) (slot : Ring → Nat) {bad : Option Res}
    (hb : ∀ r, bad = some r → ResForm r) (align : Option Nat) {k : Ring → Res} (hk : ∀ r, ResForm (k r)) :
    ResForm (x.withRing s hd ow sw slot bad align k) := by
  unfold X.withRing
  grind [ResForm]

theorem ResForm.X_reserving (h : MemForm s.mem) (x : X) (r : Ring) {k : State → Nat → State}
    (hk : ∀ s n, MemForm s.mem → MemForm (k s n).mem) : ResForm (x.reserving s r k) := by
  unfold X.reserving
  split
  · exact h.bump ..
  split
  · trivial
  · exact hk _ _ (h.reserve ..)

theorem OutForm.execCopy (hm : MemForm s.mem) (h : Hdr) (a b : WReg) (c : SReg) :
    OutForm (Machine.execCopy h a b c s) := by
  unfold Machine.execCopy
  grind [OutForm.runTeam, ResForm.X_withRing, ResForm.X_reserving, MemForm.X_launchOp, ResForm, OutForm]

theorem OutForm.execCopyR (hm : MemForm s.mem) (h : Hdr) (a b : WReg) (c : SReg) :
    OutForm (Machine.execCopyR h a b c s) := by
  unfold Machine.execCopyR
  grind [OutForm.runTeam, ResForm.X_withRing, MemForm.X_launchOp, MemForm.slotPut, ResForm, OutForm]

theorem MemForm.setOp (hm : MemForm s.mem) (o : Op) :
    MemForm (State.setOp s o).mem := by
  unfold State.setOp
  grind

theorem MemForm.opReport (hm : MemForm s.mem) (o : Op) (e : OpEnd) :
    MemForm (State.opReport s o e).mem := by
  unfold State.opReport
  grind [MemForm.fatal, MemForm.signal, MemForm.modPart, MemForm.report, MemForm.bump, MemForm.modStk, MemForm.endOp, MemForm.tickFree]

theorem MemForm.wordPut (hm : MemForm s.mem) (u : Unit_) (w : Who) (a : Nat) (f : Nat → Nat) {m : State}
    (e : State.wordPut s u w a f = some m) :
    MemForm m.mem := by
  unfold State.wordPut at e
  grind [MemForm.putWord]

theorem MemForm.opGo (h : MemForm s.mem) (id n : Nat) :
    MemForm (s.opGo id n).mem := by
  induction n generalizing s with
  | zero => exact h
  | succ n ih =>
    unfold State.opGo
    grind [MemForm.putAll, MemForm.setOp, MemForm.wordPut, MemForm.opReport]

theorem MemForm.conclude (hm : MemForm s.mem) (o : Op) (todo : List (List Put)) (e : OpEnd) :
    MemForm (State.conclude s o todo e).mem := by
  unfold State.conclude
  grind [MemForm.setOp, MemForm.opGo]

theorem MemForm.copyElems (h : MemForm s.mem) (o : Op) (src dst : View) (n bytes : Nat) (l : List Nat) :
    MemForm (s.copyElems o src dst n bytes l).st.mem := by
  induction l generalizing s bytes with
  | nil => exact h
  | cons x l ih =>
    unfold State.copyElems
    grind [MemForm.noteEcc, MemForm.readAt, MemForm.putWord]

theorem MemForm.runCopy (h : MemForm s.mem) (o : Op) (src dst : View) (start done0 : Nat) :
    MemForm (s.runCopy o src dst start done0).mem := by
  unfold State.runCopy
  simp only
  split
  · exact h.conclude ..
  split
  · exact h
  · exact (((h.unitWalks ..).unitWalks ..).copyElems ..).conclude ..

theorem OutForm.execCopym (hm : MemForm s.mem) (h : Hdr) (a : WReg) (b c : SReg) :
    OutForm (Machine.execCopym h a b c s) := by
  unfold Machine.execCopym
  grind [OutForm.runTeam, MemForm.fatal, ResForm.X_withRing, ResForm.X_reserving, MemForm.X_launchOp, ResForm, OutForm]

theorem MemForm.runCopym (hm : MemForm s.mem) (o : Op) (v : View) (sp : Space) (moves : List (Nat × Nat)) (count : Nat) :
    MemForm (State.runCopym s o v sp moves count).mem := by
  unfold State.runCopym
  grind [MemForm.unitWalks, MemForm.conclude, MemForm.noteEcc, MemForm.readAt, MemForm.putWord, MemForm.foldl]

theorem OutForm.execChain (hm : MemForm s.mem) (h : Hdr) (a b c : SReg) :
    OutForm (Machine.execChain h a b c s) := by
  unfold Machine.execChain
  grind [OutForm.runTeam, ResForm.X_withRing, ResForm.X_reserving, MemForm.modStk, MemForm.X_launchOp, ResForm, OutForm]

theorem MemForm.copyBytes (h : MemForm s.mem) (o : Op) (ss ds : Space) (fuel src dst n done : Nat) :
    MemForm (s.copyBytes o ss ds fuel src dst n done).st.mem := by
  induction fuel generalizing s src dst n done with
  | zero => exact h
  | succ fuel ih =>
    unfold State.copyBytes
    grind [MemForm.noteEcc, MemForm.readAt, MemForm.putWord]

theorem MemForm.chainEnd (o : Op) (ch rec k total : Nat) (todo : List (List Put)) {e : Ended} (h : MemForm e.st.mem) :
    MemForm (s.chainEnd o ch rec k total todo e).mem := MemForm.conclude h ..

theorem MemForm.runRecord (h : MemForm s.mem) (o : Op) (ch rec k total : Nat) :
    MemForm (s.runRecord o ch rec k total).mem := by
  unfold State.runRecord
  extract_lets stop st before walked
  have hstop {s : State} (h : MemForm s.mem) (b c f : Nat) : MemForm (stop s b c f).mem := MemForm.chainEnd _ _ _ _ _ _ h
  have hw : MemForm walked.mem := h.unitWalks ..
  split
  · exact hstop h ..
  split
  · exact h
  split
  · exact hstop hw ..
  · exact hstop hw ..
  split
  · exact hstop (hw.noteEcc ..) ..
  extract_lets b read w next
  have hr : MemForm read.mem := hw.readAt ..
  split
  · split
    · exact hstop hr ..
    split
    · exact hstop hr ..
    split
    · exact h
    extract_lets both e
    have he : MemForm e.st.mem := ((hr.unitWalks ..).unitWalks ..).copyBytes ..
    split
    · exact hstop he ..
    split
    · exact hstop he ..
    · exact hstop he ..
    split
    · exact MemForm.chainEnd _ _ _ _ _ _ he
    · exact (((he.bump ..).modStk ..).setOp ..).opGo ..
  · exact hstop hr ..

theorem OutForm.execRing (hm : MemForm s.mem) (h : Hdr) (a b : SReg) (nm1 : Fin 256) :
    OutForm (Machine.execRing h a b nm1 s) := by
  unfold Machine.execRing
  grind [OutForm.runTeam, MemForm.fatal, MemForm.putWord, MemForm.putPieces, MemForm.killLoads, ResForm, OutForm]

theorem OutForm.execFwait (h : MemForm s.mem) (hd : Hdr) (a b : SReg) (nt : Bool) : OutForm (execFwait hd a b nt s) := by
  refine OutForm.runTeam h _ _ _ fun x s h => ?_
  split
  · exact h
  · refine ResForm.X_withRing (bad := none) _ _ _ _ _ _ (fun _ e => nomatch e) _ fun r => ?_
    grind [OutForm.runTeam, ResForm.X_withRing, MemForm.modTeam, MemForm.acquired, ResForm, OutForm]

theorem OutForm.execFrel (h : MemForm s.mem) (hd : Hdr) (b : SReg) : OutForm (execFrel hd b s) := by
  refine OutForm.runTeam h _ _ _ fun x s h => ?_
  split
  · exact h
  · refine ResForm.X_withRing (bad := none) _ _ _ _ _ _ (fun _ e => nomatch e) _ fun r => ?_
    grind [OutForm.runTeam, ResForm.X_withRing, MemForm.changeAt, MemForm.killLoads, ResForm, OutForm]

theorem OutForm.execFtest (h : MemForm s.mem) (hd : Hdr) (a : PReg) (b : SReg) : OutForm (execFtest hd a b s) := by
  refine OutForm.runTeam h _ _ _ fun x s h => ?_
  split
  · exact h
  · refine ResForm.X_withRing (bad := none) _ _ _ _ _ _ (fun _ e => nomatch e) _ fun r => ?_
    grind [OutForm.runTeam, ResForm.X_withRing, MemForm.modTeam, MemForm.acquired, MemForm.killLoads, ResForm, OutForm]

theorem OutForm.execGath (h : MemForm s.mem) (hd : Hdr) (d : Option VReg) (idx : VReg) (c : SReg) (p : PReg) (sz : Fin 3) :
    OutForm (execGath hd d idx c p sz s) := by
  refine OutForm.runTeam h _ _ _ fun x s h => ?_
  extract_lets ls rb size regs badRb align fails v vm rows pages
  split
  · exact h
  split
  · grind [MemForm.unitWalks, ResForm]
  split
  · trivial
  split
  · trivial
  split
  · exact h
  split
  · exact ResForm.sliceWait h ..
  have allocs (r : VReg) : MemForm ((passes x.adm).foldl (fun (q : State × List (Nat × List Dest)) j =>
      let (s, sls) := q.1.alloc x r regs j (maskWord x.adm j)
      (s, q.2 ++ [(j, sls.map Dest.slice)])) (s, [])).1.mem :=
    MemForm.foldl_fst (fun q j hq => by exact hq.alloc ..) _ (by exact h)
  cases d with
  | none => exact MemForm.X_launchOp ((h.modTeam ..).unitWalks ..) ..
  | some r => exact MemForm.X_launchOp (((allocs r).modTeam ..).unitWalks ..) ..

theorem MemForm.rowFor (hm : MemForm s.mem) (o : Op) (addr : Nat) (ls : List Nat) (row : List Byte) :
    MemForm (State.rowFor s o addr ls row).mem := by
  unfold State.rowFor
  grind [MemForm.deliver, MemForm.endOp, MemForm.settleCore, MemForm.foldl]

theorem MemForm.fetchRow (hm : MemForm s.mem) (o : Op) (addr size : Nat) :
    MemForm (State.fetchRow s o addr size).mem := by
  unfold State.fetchRow
  grind [MemForm.noteBad, MemForm.fatal, MemForm.readPieces, MemForm.bump, MemForm.rowFor, MemForm.tickFree, MemForm.foldl]

theorem OutForm.execScat (hm : MemForm s.mem) (h : Hdr) (d : VReg) (idx : VReg) (c : SReg) (sz : Fin 3) :
    OutForm (Machine.execScat h d idx c sz s) := by
  unfold Machine.execScat
  grind [OutForm.runTeam, ResForm.failRes, MemForm.X_stores, MemForm.tickSeq, ResForm, OutForm]

theorem MemForm.runScat (hm : MemForm s.mem) (o : Op) (grp : Nat) :
    MemForm (State.runScat s o grp).mem := by
  unfold State.runScat
  grind [MemForm.endOp]

theorem MemForm.rowsWalked (hm : MemForm s.mem) (w : Who) (sp : Space) (n : Nat) (rows : List Nat) :
    MemForm (State.rowsWalked s w sp n rows).mem := by
  unfold State.rowsWalked
  grind [MemForm.tlbFills]

theorem ResForm.rowsTrap (h : MemForm s.mem) (w : Who) (sp : Space) (n : Nat) (r wr : Bool) (rows : List Nat)
    (mis : Nat → Nat → Bool) {q : Res} (e : s.rowsTrap w sp n r wr rows mis = some q) : ResForm q := by
  unfold State.rowsTrap at e
  grind [MemForm.rowsWalked, ResForm]

theorem MemForm.streamPiece (hm : MemForm s.mem) (core key cls n : Nat) :
    MemForm (State.streamPiece s core key cls n).1.mem := by
  unfold State.streamPiece
  grind [MemForm.homeLine, MemForm.modCore]

theorem MemForm.streamRead (h : MemForm s.mem) (w : Who) (sp : Space) (a n : Nat) :
    MemForm (s.streamRead w sp a n).1.mem := by
  unfold State.streamRead
  simp only
  split
  · exact h.noteBad ..
  · exact MemForm.foldl_fst (fun q p hq => by exact (hq.corrected _).streamPiece ..) _ (by exact h)

theorem MemForm.streamRows (h : MemForm s.mem) (w : Who) (sp : Space) (n : Nat) (l : List Nat) :
    MemForm (s.streamRows w sp n l).1.mem := by
  induction l generalizing s with
  | nil => exact h
  | cons a l ih =>
    have hr := h.streamRead w sp a n
    unfold State.streamRows
    split
    · next e => rwa [e] at hr
    · next e =>
      rw [e] at hr
      have hl := ih hr
      split
      · next e => rwa [e] at hl
      · exact hl

theorem MemForm.streamWrites (hm : MemForm s.mem) (w : Who) (sp : Space) (depth after grp : Nat) (ps : List (Spot × List Byte)) :
    MemForm (State.streamWrites s w sp depth after grp ps).mem := by
  unfold State.streamWrites
  grind [MemForm.startWrite, MemForm.foldl]

theorem ResForm.planeRun (hm : MemForm s.mem) (w : Who) (depth : Nat) (ordered : Bool) (relSeq : Nat) (so dst : Nat) (geo : W64)
    (p : PSrc) :
    ResForm (State.planeRun s w depth ordered relSeq so dst geo p) := by
  unfold State.planeRun
  grind [MemForm.fatal, MemForm.modCore, MemForm.streamWrites, MemForm.tickSeq, ResForm]

theorem OutForm.execPlane (hm : MemForm s.mem) (h : Hdr) (c sa sb : SReg) (src : PSrc) :
    OutForm (Machine.execPlane h c sa sb src s) := by
  unfold Machine.execPlane
  grind [OutForm.runBoth, ResForm.planeRun, MemForm.killLoads, ResForm, OutForm]

theorem OutForm.execMlda (hm : MemForm s.mem) (h : Hdr) (a : Fin 8) (c : SReg) (sa sb : VReg) (bsel : Fin 4) (fmt : WFmt) (sp : MSpace) :
    OutForm (Machine.execMlda h a c sa sb bsel fmt sp s) := by
  unfold Machine.execMlda
  grind [OutForm.runRidge, ResForm.rowsTrap, MemForm.rowsWalked, MemForm.streamRows, MemForm.modBlock, ResForm, OutForm]

theorem OutForm.execMma (hm : MemForm s.mem) (h : Hdr) (z a : Fin 8) (c : SReg) (sa sb : VReg) (planes : Fin 16) (bsel : Fin 4)
    (nkbm1 : Fin 8) (scl outl : Bool) :
    OutForm (Machine.execMma h z a c sa sb planes bsel nkbm1 scl outl s) := by
  unfold Machine.execMma
  grind [OutForm.runRidge, MemForm.fatal, MemForm.setBlock, MemForm.foldl, ResForm, OutForm]

theorem OutForm.execMoutl (hm : MemForm s.mem) (h : Hdr) (c : SReg) :
    OutForm (Machine.execMoutl h c s) := by
  unfold Machine.execMoutl
  grind [OutForm.runRidge, MemForm.fatal, MemForm.modBlock, ResForm, OutForm]

theorem OutForm.execZclr (hm : MemForm s.mem) (h : Hdr) (tile : Bool) (n : Fin 8) :
    OutForm (Machine.execZclr h tile n s) := by
  unfold Machine.execZclr
  grind [OutForm.runRidge, MemForm.setBlock, ResForm, OutForm]

theorem OutForm.execZld (hm : MemForm s.mem) (h : Hdr) (z : Fin 8) (c : SReg) (tr : Bool) (sp : MSpace) :
    OutForm (Machine.execZld h z c tr sp s) := by
  unfold Machine.execZld
  grind [OutForm.runRidge, ResForm.rowsTrap, MemForm.rowsWalked, MemForm.streamRows, MemForm.modBlock, ResForm, OutForm]

theorem OutForm.execZst (hm : MemForm s.mem) (h : Hdr) (z : Fin 8) (free : Bool) (c : SReg) (fmt : ZFmt) (tr : Bool) (sp : MSpace) :
    OutForm (Machine.execZst h z free c fmt tr sp s) := by
  unfold Machine.execZst
  grind [OutForm.runRidge, ResForm.rowsTrap, MemForm.rowsWalked, MemForm.streamWrites, MemForm.tickSeq, MemForm.modBlock, ResForm,
    OutForm]

theorem OutForm.execZmap (hm : MemForm s.mem) (h : Hdr) (z a : Fin 8) (c : SReg) (op : ZOp) :
    OutForm (Machine.execZmap h z a c op s) := by
  unfold Machine.execZmap
  grind [OutForm.runRidge, MemForm.setBlock, ResForm, OutForm]

theorem ResForm.binit (hm : MemForm s.mem) (blk b : Nat) (v : W64) :
    ResForm (State.binit s blk b v) := by
  unfold State.binit
  grind [MemForm.modBlock, ResForm]

theorem OutForm.execBinit (hm : MemForm s.mem) (h : Hdr) (a : SReg) (b : Fin 128) :
    OutForm (Machine.execBinit h a b s) := by
  unfold Machine.execBinit
  grind [OutForm.runBoth, ResForm.binit, ResForm, OutForm]

theorem MemForm.arrive (hm : MemForm s.mem) (blk b uid : Nat) (dst : Option Nat) (sync : Bool) :
    MemForm (State.arrive s blk b uid dst sync).mem := by
  unfold State.arrive
  grind [MemForm.modBlock, MemForm.tickSeq]

theorem OutForm.execBarr (hm : MemForm s.mem) (h : Hdr) (d : SReg) (b : Fin 128) :
    OutForm (Machine.execBarr h d b s) := by
  unfold Machine.execBarr
  grind [OutForm.runBoth, MemForm.arrive, MemForm.killLoads, ResForm, OutForm]

theorem OutForm.execBwait (hm : MemForm s.mem) (h : Hdr) (a : SReg) (b : Fin 128) :
    OutForm (Machine.execBwait h a b s) := by
  unfold Machine.execBwait
  grind [OutForm.runBoth, MemForm.acquired, ResForm, OutForm]

theorem ResForm.bsync (hm : MemForm s.mem) (blk b uid core : Nat) (w : Option Wait) :
    ResForm (State.bsync s blk b uid core w) := by
  unfold State.bsync
  grind [MemForm.acquired, MemForm.arrive, ResForm]

theorem OutForm.execBsync (hm : MemForm s.mem) (h : Hdr) (b : Fin 128) :
    OutForm (Machine.execBsync h b s) := by
  unfold Machine.execBsync
  grind [OutForm.runBoth, ResForm.bsync, ResForm, OutForm]

theorem ResForm.bexp (hm : MemForm s.mem) (blk b : Nat) (stream : Bool) (v : W64) :
    ResForm (State.bexp s blk b stream v) := by
  unfold State.bexp
  grind [MemForm.setBlock, ResForm]

theorem OutForm.execBexp (hm : MemForm s.mem) (h : Hdr) (a : SReg) (b : Fin 128) :
    OutForm (Machine.execBexp h a b s) := by
  unfold Machine.execBexp
  grind [OutForm.runBoth, ResForm.bexp, ResForm, OutForm]

theorem OutForm.execPlaneConverterDone (hm : MemForm s.mem) (core : Nat) :
    OutForm (Machine.execPlaneConverterDone core s) := by
  unfold Machine.execPlaneConverterDone
  grind [MemForm.modCore, ResForm, OutForm]

theorem OutForm.execMmaAccumulatorWrite (hm : MemForm s.mem) (core : Nat) :
    OutForm (Machine.execMmaAccumulatorWrite core s) := by
  unfold Machine.execMmaAccumulatorWrite
  grind [MemForm.setBlock, MemForm.bump, ResForm, OutForm]

theorem MemForm.syncWait (hm : MemForm s.mem) (uid : Nat) (parity : Bool) :
    MemForm (State.syncWait s uid parity).mem := by
  unfold State.syncWait
  grind

theorem OutForm.execBarrierArrival (hm : MemForm s.mem) (core k : Nat) :
    OutForm (Machine.execBarrierArrival core k s) := by
  unfold Machine.execBarrierArrival
  grind [MemForm.modBlock, MemForm.syncWait, MemForm.deliverTo, ResForm, OutForm]

theorem OutForm.execBarrierCycle (hm : MemForm s.mem) (core : Nat) :
    OutForm (Machine.execBarrierCycle core s) := by
  unfold Machine.execBarrierCycle
  grind [ResForm, OutForm]

end Sys2Proof.Proofs
end

section
/-! Memory in its canonical form (log 2), continued. The KV units, watches and triggers, traps, and the vector instructions. -/

open Sys2Proof Sys2Proof.Machine

namespace Sys2Proof.Proofs

set_option Elab.async false

variable {s : State}

theorem MemForm.kvReads (hm : MemForm s.mem) (w : Who) (xs : List (Nat × Nat)) :
    MemForm (State.kvReads s w xs).mem := by
  unfold State.kvReads
  grind [MemForm.readPieces, MemForm.foldl]

theorem MemForm.lookedAt (hm : MemForm s.mem) (stack : Nat) (w : Who) (k : Looked) :
    MemForm (State.lookedAt s stack w k).mem := by
  unfold State.lookedAt
  grind [MemForm.kvReads, MemForm.unitWalks]

theorem OutForm.execKvapp (h : MemForm s.mem) (hd : Hdr) (a b c : SReg) (sp : MSpace) : OutForm (execKvapp hd a b c sp s) := by
  refine OutForm.runTeam h _ _ _ fun x s h => ?_
  extract_lets r ring
  split
  · exact h
  · exact ResForm.X_withRing (bad := none) _ _ _ _ _ _ (fun _ e => nomatch e) _ fun q =>
      ResForm.X_reserving h _ _ fun s slot h => MemForm.X_launchOp h ..

theorem MemForm.claimFor (hm : MemForm s.mem) (o : Op) :
    MemForm (State.claimFor s o).mem := by
  unfold State.claimFor
  grind [MemForm.opGo, MemForm.unitWalks, MemForm.conclude, MemForm.wordPut, MemForm.setOp]

theorem MemForm.runKvapp (hm : MemForm s.mem) (o : Op) (entry krow vrow : Nat) (sp : MSpace) :
    MemForm (State.runKvapp s o entry krow vrow sp).mem := by
  unfold State.runKvapp
  grind [MemForm.noteBad, MemForm.lookedAt, MemForm.conclude, MemForm.readPieces, MemForm.putAll, MemForm.foldl]

theorem MemForm.kvappGo (hm : MemForm s.mem) (o : Op) :
    MemForm (State.kvappGo s o).mem := by
  unfold State.kvappGo
  grind [MemForm.opGo, MemForm.runKvapp]

theorem OutForm.execAttn (hm : MemForm s.mem) (h : Hdr) (z : Fin 8) (c : SReg) (planes : Fin 16) (mass causal bias rowinc : Bool) :
    OutForm (Machine.execAttn h z c planes mass causal bias rowinc s) := by
  unfold Machine.execAttn
  grind [OutForm.runRidge, MemForm.tlbFills, MemForm.fatal, MemForm.noteBad, MemForm.kvReads, MemForm.wordAt, MemForm.acquired,
    MemForm.modBlock, MemForm.tickSeq, MemForm.bump, ResForm, OutForm]

theorem MemForm.massAt (hm : MemForm s.mem) (u : Unit_) (x : Nat × Nat × W32) :
    MemForm (State.massAt s u x).mem := by
  unfold State.massAt
  grind [MemForm.changeAt]

theorem OutForm.execAttnComplete (hm : MemForm s.mem) (core : Nat) :
    OutForm (Machine.execAttnComplete core s) := by
  unfold Machine.execAttnComplete
  grind [MemForm.massAt, MemForm.modBlock, MemForm.wordAt, MemForm.foldl, ResForm, OutForm]

theorem OutForm.execKvevt (hm : MemForm s.mem) (h : Hdr) (a : SReg) (stack : Fin 4) :
    OutForm (Machine.execKvevt h a stack s) := by
  unfold Machine.execKvevt
  grind [OutForm.runTeam, MemForm.push, ResForm.X_push, MemForm.strikePush, ResForm, OutForm]

theorem MemForm.strikeTake (h : MemForm s.mem) (stack : Nat) (q : StrikeCmd) : MemForm (s.strikeTake stack q).mem := by
  unfold State.strikeTake
  extract_lets w rest bad buf ring
  have hrest {s : State} (h : MemForm s.mem) : MemForm (rest s).mem := h.modStk ..
  have hbad (c : Cause) (a : Nat) : MemForm (bad c a).mem := (hrest h).fatal ..
  split
  · exact h
  split
  · exact h
  split
  · exact (hrest (h.unitWalks ..)).fatal ..
  split
  · exact hbad ..
  split
  · split
    · exact hbad ..
    split
    · exact h
    · exact ((hrest (((h.kvReads ..).reserve ..).unitWalks ..)).modStk ..).tickSeq
  · exact hbad ..

theorem MemForm.strikeEnd (hm : MemForm s.mem) (stack : Nat) (r : StrikeRun) :
    MemForm (State.strikeEnd s stack r).mem := by
  unfold State.strikeEnd
  grind [MemForm.report, MemForm.modStk, MemForm.bump, MemForm.fatal]

/-- The state that may be answered has its memory in form. -/
def OptForm : Option State → Prop
  | some s => MemForm s.mem
  | none => True

theorem OptForm.of_eq_some {o : Option State} (h : ∀ s, o = some s → MemForm s.mem) : OptForm o := by
  cases o with
  | none => trivial
  | some s => exact h s rfl

theorem OptForm.map {o : Option State} (ho : OptForm o) {f : State → State} (hf : ∀ s, MemForm s.mem → MemForm (f s).mem) :
    OptForm (o.map f) := by
  cases o with
  | none => trivial
  | some s => exact hf s ho

theorem OptForm.strikeChange (h : MemForm s.mem) (stack : Nat) (r r' : StrikeRun) : OptForm (s.strikeChange stack r r') := by
  unfold State.strikeChange
  split
  · exact h.modStk ..
  · exact OptForm.map (.of_eq_some fun m e => h.wordPut _ _ _ _ e) fun s h => h.modStk ..

theorem OptForm.strikeNext (h : MemForm s.mem) (stack : Nat) (r : StrikeRun) : OptForm (s.strikeNext stack r) := by
  unfold State.strikeNext
  extract_lets w c set b list
  have hset {s : State} (h : MemForm s.mem) (r : StrikeRun) : OptForm (Option.some (set s r)) := MemForm.modStk h ..
  split
  case h_1 => exact hset (h.putAll ..) _
  case h_2 =>
    split
    · exact hset h _
    split
    · trivial
    split
    · exact hset (MemForm.unitWalks h ..) _
    split
    · exact OptForm.map (.strikeChange h ..) fun s h => h.unitWalks ..
    · trivial
  case h_3 =>
    split
    · split
      · trivial
      · refine hset (MemForm.lookedAt ?_ ..) _
        split
        · exact h.noteBad ..
        · exact h
    · split
      · trivial
      · exact hset ((h.lookedAt ..).putAll ..) _
    · split
      · trivial
      · exact hset ((h.lookedAt ..).putAll ..) _
  case h_4 => exact .strikeChange h ..
  case h_5 =>
    split
    · trivial
    · exact hset h _
  case h_6 =>
    split
    · exact hset h _
    split
    · exact hset h _
    · exact .strikeChange h ..
  case h_7 =>
    split
    · exact hset h _
    split
    · trivial
    · exact .strikeChange h ..
  case h_8 => exact .strikeChange h ..
  case h_9 =>
    split
    · exact h.strikeEnd ..
    · trivial

theorem MemForm.strikeGo (h : MemForm s.mem) (stack : Nat) (drain : Bool) (n : Nat) :
    MemForm (s.strikeGo stack drain n).mem := by
  induction n generalizing s with
  | zero => exact h
  | succ n ih =>
    have hn (r : StrikeRun) := OptForm.strikeNext h stack r
    unfold State.strikeGo
    grind [OptForm]

theorem MemForm.strikeRun (hm : MemForm s.mem) (stack : Nat) :
    MemForm (State.strikeRun s stack).mem := by
  unfold State.strikeRun
  grind [MemForm.strikeTake, MemForm.strikeGo]

theorem MemForm.strikeDrain (hm : MemForm s.mem) (stack : Nat) :
    MemForm (State.strikeDrain s stack).mem := by
  unfold State.strikeDrain
  grind [MemForm.strikeGo]

/-- The state of a watch's end, or of its trap. -/
def WatchForm : WatchRes → Prop
  | .trap r => ResForm r
  | .status s _ => MemForm s.mem

theorem WatchForm.setWatch (h : MemForm s.mem) (w : Who) (addr n : Nat) : WatchForm (s.setWatch w addr n) := by
  unfold State.setWatch
  split
  · trivial
  split
  · trivial
  extract_lets fail ext bits u
  have hfail {fs : List (Nat × Bool)} {r : Res} (e : fail fs = some r) : ResForm r := by grind [ResForm]
  split
  split
  · next e => exact hfail e
  split
  · exact h.noteBad ..
  split
  · trivial
  split
  split
  split
  · next e => exact hfail e
  extract_lets ext bits u s' x
  split
  · trivial
  split
  · exact h
  split
  · exact h
  · exact MemForm.modCtx (MemForm.foldl (fun s q h => MemForm.foldl (fun s i h => h.unitPut ..) _ h) _ h) ..

theorem MemForm.dropRecords (hm : MemForm s.mem) (ctx n : Nat) :
    MemForm (State.dropRecords s ctx n).mem := by
  unfold State.dropRecords
  grind [MemForm.modCtx]

theorem MemForm.parkLapse (h : MemForm s.mem) (c slot : Nat) (t : Team) : MemForm (s.parkLapse c slot t).mem := by
  unfold State.parkLapse
  split
  · exact h.settleTeam _ _ _ _ _ (r := .done _) ((h.modTeam ..).killLoads ..)
  · exact h

theorem WatchForm.unsetWatch (h : MemForm s.mem) (ctx n : Nat) : WatchForm (s.unsetWatch ctx n) := by
  unfold State.unsetWatch
  grind [MemForm.dropRecords, MemForm.modCtx, MemForm.parkLapse, MemForm.foldl, ResForm, WatchForm]

theorem ResForm.watchEnd {r : WatchRes} (h : WatchForm r) (x : X) (d : SReg) {fin : State → State}
    (hf : ∀ s, MemForm s.mem → MemForm (fin s).mem) : ResForm (x.watchEnd d fin r) := by
  unfold X.watchEnd
  grind [WatchForm, ResForm, MemForm.modTeam]

theorem OutForm.execWatch (h : MemForm s.mem) (hd : Hdr) (d b c : SReg) : OutForm (execWatch hd d b c s) := by
  refine OutForm.runTeam h _ _ _ fun x s h => ?_
  extract_lets addr n
  split
  · exact h
  split
  · trivial
  · exact ResForm.watchEnd (.setWatch h ..) _ _ fun s h => h.acquired ..

theorem OutForm.execUnwatch (h : MemForm s.mem) (hd : Hdr) (d b : SReg) : OutForm (execUnwatch hd d b s) := by
  refine OutForm.runTeam h _ _ _ fun x s h => ?_
  split
  · exact h
  split
  · trivial
  · exact ResForm.watchEnd (.unsetWatch h ..) _ _ fun s h => h.killLoads ..

theorem MemForm.clearPend (hm : MemForm s.mem) (w : Who) (watch index : Nat) :
    MemForm (State.clearPend s w watch index).mem := by
  unfold State.clearPend
  grind [MemForm.unitPut, MemForm.send]

theorem OutForm.execWpark (hm : MemForm s.mem) (h : Hdr) (d : VReg) (b c : SReg) (p : PReg) :
    OutForm (Machine.execWpark h d b c p s) := by
  unfold Machine.execWpark
  grind [OutForm.runTeam, MemForm.modTeam, MemForm.killLoads, ResForm.sliceWait, MemForm.modSlice, MemForm.clearPend,
    MemForm.X_writeLanes, MemForm.acquired, MemForm.bump, MemForm.foldl, ResForm, OutForm]

theorem MemForm.enterGrid (hm : MemForm s.mem) (ctx part : Nat) (l : Launch) (signal : Option Nat) :
    MemForm (State.enterGrid s ctx part l signal).mem := by
  unfold State.enterGrid
  grind [MemForm.signal, MemForm.dropCode, MemForm.tickSeq, MemForm.setPool]

theorem MemForm.launchGrid (hm : MemForm s.mem) (w : Who) (part addr : Nat) (signal : Option Nat) :
    MemForm (State.launchGrid s w part addr signal).1.mem := by
  unfold State.launchGrid
  grind [MemForm.signal, MemForm.enterGrid]

theorem OutForm.execLaunchGrid (hm : MemForm s.mem) (h : Hdr) (d b : SReg) (c : Option SReg) :
    OutForm (Machine.execLaunchGrid h d b c s) := by
  unfold Machine.execLaunchGrid
  grind [OutForm.runTeam, MemForm.launchGrid, ResForm.failRes, MemForm.touch, MemForm.modTeam, MemForm.killLoads, ResForm, OutForm]

theorem OutForm.execLaunchRecord (hm : MemForm s.mem) (h : Hdr) (a : SReg) (b : VReg) :
    OutForm (Machine.execLaunchRecord h a b s) := by
  unfold Machine.execLaunchRecord
  grind [OutForm.runTeam, MemForm.setPool, MemForm.collected, MemForm.killLoads, ResForm, OutForm]

theorem OutForm.execSrd (hm : MemForm s.mem) (h : Hdr) (d : VS) (high : Bool) (r : Sr) :
    OutForm (Machine.execSrd h d high r s) := by
  unfold Machine.execSrd
  grind [OutForm.runBoth, ResForm.vecOut, ResForm.scalResult, ResForm.scalResultM, ResForm, OutForm]

theorem OutForm.execSwr (hm : MemForm s.mem) (h : Hdr) (a : SReg) :
    OutForm (Machine.execSwr h a s) := by
  unfold Machine.execSwr
  grind [OutForm.runTeam, MemForm.modTeam, ResForm, OutForm]

theorem OutForm.execWkadd (hm : MemForm s.mem) (h : Hdr) (a : SReg) (dom : Fin 16) :
    OutForm (Machine.execWkadd h a dom s) := by
  unfold Machine.execWkadd
  grind [OutForm.runTeam, MemForm.emberAdd, ResForm, OutForm]

theorem OutForm.execWkdone (hm : MemForm s.mem) (h : Hdr) (dom : Fin 16) :
    OutForm (Machine.execWkdone h dom s) := by
  unfold Machine.execWkdone
  grind [OutForm.runTeam, MemForm.emberAdd, ResForm, OutForm]

theorem MemForm.putRecord (hm : MemForm s.mem) (ctx : Option Nat) (part unit : Nat) (tick : W64) (f : Option UFault) :
    MemForm (State.putRecord s ctx part unit tick f).mem := by
  unfold State.putRecord
  grind [MemForm.putWord]

theorem MemForm.dbgSettle (hm : MemForm s.mem) :
    MemForm (State.dbgSettle s).mem := by
  unfold State.dbgSettle
  grind

theorem MemForm.quiesce (hm : MemForm s.mem) (ctx : Nat) :
    MemForm (State.quiesce s ctx).mem := by
  unfold State.quiesce
  grind

theorem MemForm.debugHalt (hm : MemForm s.mem) (ctx : Nat) (quiesce : Bool) :
    MemForm (State.debugHalt s ctx quiesce).mem := by
  unfold State.debugHalt
  grind [MemForm.quiesce, MemForm.modCtx, MemForm.putRecord, MemForm.dbgSettle, MemForm.foldl]

theorem OutForm.execTrap (hm : MemForm s.mem) (h : Hdr) (imm : W32) :
    OutForm (Machine.execTrap h imm s) := by
  unfold Machine.execTrap
  grind [OutForm.runBoth, ResForm, OutForm]

theorem OutForm.execBkpt (hm : MemForm s.mem) (h : Hdr) (imm : W32) :
    OutForm (Machine.execBkpt h imm s) := by
  unfold Machine.execBkpt
  grind [OutForm.runBoth, MemForm.debugHalt, ResForm, OutForm]

theorem OutForm.execHalt (hm : MemForm s.mem) (h : Hdr) (a : SReg) :
    OutForm (Machine.execHalt h a s) := by
  unfold Machine.execHalt
  grind [OutForm.runBoth, MemForm.fatal, ResForm, OutForm]

theorem ResForm.toReturn (h : MemForm s.mem) (core ctx target : Nat) {go : State → Res} (hg : ∀ s, MemForm s.mem → ResForm (go s)) :
    ResForm (s.toReturn core ctx target go) := by
  unfold State.toReturn
  split
  · trivial
  split
  · trivial
  split
  · exact h.fetchFill ..
  · exact hg _ (h.fetchFill ..)

theorem OutForm.execTret (hm : MemForm s.mem) (h : Hdr) :
    OutForm (Machine.execTret h s) := by
  unfold Machine.execTret
  grind [OutForm.runBoth, ResForm.toReturn, MemForm.trapReturn, MemForm.trapReturnM, ResForm, OutForm]

theorem MemForm.codeLine (hm : MemForm s.mem) (stack ctx line pa cls : Nat) :
    MemForm (State.codeLine s stack ctx line pa cls).1.mem := by
  unfold State.codeLine
  grind [MemForm.readAt, MemForm.noteEcc, MemForm.tickFree, MemForm.modStk, MemForm.Acc2_leave]

theorem MemForm.unslip (hm : MemForm s.mem) (core ctx line : Nat) :
    MemForm (State.unslip s core ctx line).mem := by
  unfold State.unslip
  grind

theorem MemForm.fillCode (hm : MemForm s.mem) (core line ctx : Nat) :
    MemForm (State.fillCode s core line ctx).mem := by
  unfold State.fillCode
  grind [MemForm.tlbFill, MemForm.codeLine, MemForm.modCore, MemForm.unslip, MemForm.tickSeq, MemForm.fatalAt, MemForm.foldl]

theorem OutForm.execIcacheLineFill (hm : MemForm s.mem) (core line : Nat) :
    OutForm (Machine.execIcacheLineFill core line s) := by
  unfold Machine.execIcacheLineFill
  grind [MemForm.fillCode, MemForm.foldl, ResForm, OutForm]

theorem OutForm.execFixedLatencyWrite (hm : MemForm s.mem) (p : Party) (k : Nat) :
    OutForm (Machine.execFixedLatencyWrite p k s) := by
  unfold Machine.execFixedLatencyWrite
  grind [MemForm.setTeam, MemForm.written, MemForm.setRidge, ResForm, OutForm]

theorem OutForm.execSliceRelease (hm : MemForm s.mem) (core slice : Nat) :
    OutForm (Machine.execSliceRelease core slice s) := by
  unfold Machine.execSliceRelease
  grind [MemForm.modCore, ResForm, OutForm]

theorem OutForm.execReadResponse (hm : MemForm s.mem) (id how : Nat) :
    OutForm (Machine.execReadResponse id how s) := by
  unfold Machine.execReadResponse
  grind [MemForm.respond, ResForm, OutForm]

theorem OutForm.execStorePerform (hm : MemForm s.mem) (id : Nat) :
    OutForm (Machine.execStorePerform id s) := by
  unfold Machine.execStorePerform
  grind [MemForm.doStore, ResForm, OutForm]

theorem OutForm.execHeldWriteRelease (hm : MemForm s.mem) (id : Nat) :
    OutForm (Machine.execHeldWriteRelease id s) := by
  unfold Machine.execHeldWriteRelease
  grind [MemForm.doStore, MemForm.doAtomic, ResForm, OutForm]

theorem OutForm.execRevocation (hm : MemForm s.mem) (id core : Nat) :
    OutForm (Machine.execRevocation id core s) := by
  unfold Machine.execRevocation
  grind [MemForm.revokeAt, MemForm.modAccess, ResForm, OutForm]

theorem OutForm.execWriteAcknowledge (hm : MemForm s.mem) (id : Nat) :
    OutForm (Machine.execWriteAcknowledge id s) := by
  unfold Machine.execWriteAcknowledge
  grind [MemForm.doAck, MemForm.dbgSettle, ResForm, OutForm]

theorem OutForm.execAtomicPerform (hm : MemForm s.mem) (id : Nat) :
    OutForm (Machine.execAtomicPerform id s) := by
  unfold Machine.execAtomicPerform
  grind [MemForm.doAtomic, ResForm, OutForm]

theorem MemForm.walked (hm : MemForm s.mem) (w : Walk) :
    MemForm (State.walked s w).mem := by
  unfold State.walked
  grind [MemForm.modCore, MemForm.Acc2_leave, MemForm.prefetch]

theorem OutForm.execPageWalk (hm : MemForm s.mem) (stack k : Nat) :
    OutForm (Machine.execPageWalk stack k s) := by
  unfold Machine.execPageWalk
  grind [MemForm.walked, MemForm.foldl, ResForm, OutForm]

theorem MemForm.orBack (hm : MemForm s.mem) (o : PendOr) :
    MemForm (State.orBack s o).mem := by
  unfold State.orBack
  grind [MemForm.tickFree, MemForm.bump, MemForm.unitPut, MemForm.queueRecord, MemForm.tickSeq]

theorem OutForm.execPendingBitOr (hm : MemForm s.mem) (k : Nat) :
    OutForm (Machine.execPendingBitOr k s) := by
  unfold Machine.execPendingBitOr
  grind [MemForm.orBack, ResForm, OutForm]

theorem OutForm.execSpillRingDrain (hm : MemForm s.mem) (slice : Nat) :
    OutForm (Machine.execSpillRingDrain slice s) := by
  unfold Machine.execSpillRingDrain
  grind [MemForm.drainRing, ResForm, OutForm]

theorem OutForm.execRecordHandoff (hm : MemForm s.mem) (slice k : Nat) :
    OutForm (Machine.execRecordHandoff slice k s) := by
  unfold Machine.execRecordHandoff
  grind [MemForm.handOff, ResForm, OutForm]

theorem OutForm.execVshuf (hm : MemForm s.mem) (h : Hdr) (d a : VReg) (b : VS) (m : Shuf) (wide : Bool) :
    OutForm (Machine.execVshuf h d a b m wide s) := by
  unfold Machine.execVshuf
  grind [OutForm.runTeam, ResForm.vecWhole, ResForm, OutForm]

theorem OutForm.execVbcast (hm : MemForm s.mem) (h : Hdr) (d : VS) (a : VReg) (b : SReg) (wide : Bool) :
    OutForm (Machine.execVbcast h d a b wide s) := by
  unfold Machine.execVbcast
  grind [OutForm.runTeam, ResForm.vecWhole, ResForm.scalResult, ResForm, OutForm]

theorem OutForm.execVreduce (hm : MemForm s.mem) (h : Hdr) (d : VS) (a : VReg) (op : RedOp) (ty : NTy) (rnd : Rnd) :
    OutForm (Machine.execVreduce h d a op ty rnd s) := by
  unfold Machine.execVreduce
  grind [OutForm.runTeam, ResForm.vecWhole, ResForm.scalResult, ResForm, OutForm]

theorem OutForm.execVscan (hm : MemForm s.mem) (h : Hdr) (d a : VReg) (op : RedOp) (ty : NTy) (rnd : Rnd) :
    OutForm (Machine.execVscan h d a op ty rnd s) := by
  unfold Machine.execVscan
  grind [OutForm.runTeam, ResForm.vecWhole, MemForm.foldl, ResForm, OutForm]

theorem MemForm.took (h : MemForm s.mem) (p : Party) (i : Instr) {o : Host.Outcome State Fault Refusal} (ho : OutForm o) :
    MemForm (s.took p i o).mem := by
  unfold State.took
  split
  · exact MemForm.ran ho ..
  · exact h

theorem MemForm.turnOf (hm : MemForm s.mem) (p : Party) :
    MemForm (State.turnOf s p).mem := by
  unfold State.turnOf
  grind

theorem OutForm.execQueueMoveComplete (hm : MemForm s.mem) (p : Party) :
    OutForm (Machine.execQueueMoveComplete p s) := by
  unfold Machine.execQueueMoveComplete
  grind [MemForm.took, OutForm.execSmov, MemForm.turnOf, OutForm.execVmov, ResForm, OutForm]

theorem OutForm.execRefillWaitEnd (hm : MemForm s.mem) (p : Party) :
    OutForm (Machine.execRefillWaitEnd p s) := by
  unfold Machine.execRefillWaitEnd
  grind [MemForm.took, OutForm.execRefill, MemForm.turnOf, ResForm, OutForm]

theorem OutForm.execRingReserveRetry (hm : MemForm s.mem) (p : Party) :
    OutForm (Machine.execRingReserveRetry p s) := by
  unfold Machine.execRingReserveRetry
  grind [MemForm.took, OutForm.execCopy, MemForm.turnOf, OutForm.execCopym, OutForm.execChain, OutForm.execKvapp, ResForm, OutForm]

theorem OutForm.execFwaitReturn (hm : MemForm s.mem) (p : Party) :
    OutForm (Machine.execFwaitReturn p s) := by
  unfold Machine.execFwaitReturn
  grind [MemForm.took, OutForm.execFwait, MemForm.turnOf, ResForm, OutForm]

theorem OutForm.execBarrierWaitEnd (hm : MemForm s.mem) (p : Party) :
    OutForm (Machine.execBarrierWaitEnd p s) := by
  unfold Machine.execBarrierWaitEnd
  grind [MemForm.took, OutForm.execBwait, MemForm.turnOf, ResForm.bsync, OutForm.execBsync, ResForm, OutForm]

theorem OutForm.execWparkDeliver (hm : MemForm s.mem) (p : Party) :
    OutForm (Machine.execWparkDeliver p s) := by
  unfold Machine.execWparkDeliver
  grind [MemForm.took, OutForm.execWpark, MemForm.turnOf, ResForm, OutForm]

theorem OutForm.execWparkLapse (hm : MemForm s.mem) (p : Party) :
    OutForm (Machine.execWparkLapse p s) := by
  unfold Machine.execWparkLapse
  grind [MemForm.took, OutForm.execWpark, MemForm.turnOf, ResForm, OutForm]

theorem OutForm.execMessageFlitAccept (hm : MemForm s.mem) (k : Nat) :
    OutForm (Machine.execMessageFlitAccept k s) := by
  unfold Machine.execMessageFlitAccept
  grind [MemForm.modCore, ResForm, OutForm]

theorem MemForm.runCopyh (hm : MemForm s.mem) (o : Op) (src dst len part : Nat) :
    MemForm (State.runCopyh s o src dst len part).mem := by
  unfold State.runCopyh
  grind [MemForm.unitWalks, MemForm.copyBytes, MemForm.conclude]

theorem OutForm.execEngineComplete (hm : MemForm s.mem) (id : Nat) :
    OutForm (Machine.execEngineComplete id s) := by
  unfold Machine.execEngineComplete
  grind [MemForm.dbgSettle, MemForm.opGo, MemForm.runCopy, MemForm.runCopym, MemForm.runScat, MemForm.runCopyh, ResForm, OutForm]

theorem OutForm.execChainRecord (hm : MemForm s.mem) (stack chan : Nat) :
    OutForm (Machine.execChainRecord stack chan s) := by
  unfold Machine.execChainRecord
  grind [MemForm.dbgSettle, MemForm.opGo, MemForm.runRecord, ResForm, OutForm]

theorem OutForm.execGatherRowFetch (hm : MemForm s.mem) (id addr : Nat) :
    OutForm (Machine.execGatherRowFetch id addr s) := by
  unfold Machine.execGatherRowFetch
  grind [MemForm.fetchRow, MemForm.dbgSettle, ResForm, OutForm]

theorem OutForm.execEntryClaim (hm : MemForm s.mem) (id : Nat) :
    OutForm (Machine.execEntryClaim id s) := by
  unfold Machine.execEntryClaim
  grind [MemForm.claimFor, MemForm.dbgSettle, ResForm, OutForm]

theorem OutForm.execKvappExecute (hm : MemForm s.mem) (id : Nat) :
    OutForm (Machine.execKvappExecute id s) := by
  unfold Machine.execKvappExecute
  grind [MemForm.kvappGo, MemForm.dbgSettle, ResForm, OutForm]

theorem OutForm.execStrikeCommand (hm : MemForm s.mem) (stack : Nat) :
    OutForm (Machine.execStrikeCommand stack s) := by
  unfold Machine.execStrikeCommand
  grind [MemForm.strikeRun, MemForm.dbgSettle, ResForm, OutForm]

theorem OutForm.execStrikeRcDrain (hm : MemForm s.mem) (stack : Nat) :
    OutForm (Machine.execStrikeRcDrain stack s) := by
  unfold Machine.execStrikeRcDrain
  grind [MemForm.strikeDrain, MemForm.dbgSettle, ResForm, OutForm]

theorem OutForm.fForm (hm : MemForm s.mem) (i : Instr) (h : Hdr) (d : VReg) (n : Nat) (g : Src → Nat → FR) :
    OutForm (Machine.fForm i h s d n g) := by
  unfold Machine.fForm
  grind [OutForm.runTeam, ResForm.vecResult, ResForm, OutForm]

theorem OutForm.execFadd (hm : MemForm s.mem) (h : Hdr) (d : VReg) (a b : VS) (ty : FTy) (rnd : Rnd) :
    OutForm (Machine.execFadd h d a b ty rnd s) := by
  unfold Machine.execFadd
  grind [OutForm.fForm, ResForm, OutForm]

theorem OutForm.execFsub (hm : MemForm s.mem) (h : Hdr) (d : VReg) (a b : VS) (ty : FTy) (rnd : Rnd) :
    OutForm (Machine.execFsub h d a b ty rnd s) := by
  unfold Machine.execFsub
  grind [OutForm.fForm, ResForm, OutForm]

theorem OutForm.execFmul (hm : MemForm s.mem) (h : Hdr) (d : VReg) (a b : VS) (ty : FTy) (rnd : Rnd) :
    OutForm (Machine.execFmul h d a b ty rnd s) := by
  unfold Machine.execFmul
  grind [OutForm.fForm, ResForm, OutForm]

theorem OutForm.execFfma (hm : MemForm s.mem) (h : Hdr) (d : VReg) (a b c : VS) (ty : FTy) (rnd : Rnd) :
    OutForm (Machine.execFfma h d a b c ty rnd s) := by
  unfold Machine.execFfma
  grind [OutForm.fForm, ResForm, OutForm]

theorem OutForm.execFmin (hm : MemForm s.mem) (h : Hdr) (d : VReg) (a b : VS) (ty : FTy) (ftz : Bool) :
    OutForm (Machine.execFmin h d a b ty ftz s) := by
  unfold Machine.execFmin
  grind [OutForm.fForm, ResForm, OutForm]

theorem OutForm.execFmax (hm : MemForm s.mem) (h : Hdr) (d : VReg) (a b : VS) (ty : FTy) (ftz : Bool) :
    OutForm (Machine.execFmax h d a b ty ftz s) := by
  unfold Machine.execFmax
  grind [OutForm.fForm, ResForm, OutForm]

theorem OutForm.execFcmp (hm : MemForm s.mem) (h : Hdr) (d : PReg) (a b : VS) (c : FCond) (ftz : Bool) :
    OutForm (Machine.execFcmp h d a b c ftz s) := by
  unfold Machine.execFcmp
  grind [OutForm.runTeam, ResForm.predResult, MemForm.foldl, ResForm, OutForm]

theorem OutForm.execFrcp (hm : MemForm s.mem) (h : Hdr) (d : VReg) (a : VS) (rnd : Rnd) :
    OutForm (Machine.execFrcp h d a rnd s) := by
  unfold Machine.execFrcp
  grind [OutForm.fForm, ResForm, OutForm]

theorem OutForm.execFrsq (hm : MemForm s.mem) (h : Hdr) (d : VReg) (a : VS) (rnd : Rnd) :
    OutForm (Machine.execFrsq h d a rnd s) := by
  unfold Machine.execFrsq
  grind [OutForm.fForm, ResForm, OutForm]

theorem OutForm.execFexp2 (hm : MemForm s.mem) (h : Hdr) (d : VReg) (a : VS) (rnd : Rnd) :
    OutForm (Machine.execFexp2 h d a rnd s) := by
  unfold Machine.execFexp2
  grind [OutForm.fForm, ResForm, OutForm]

theorem OutForm.execFlog2 (hm : MemForm s.mem) (h : Hdr) (d : VReg) (a : VS) (rnd : Rnd) :
    OutForm (Machine.execFlog2 h d a rnd s) := by
  unfold Machine.execFlog2
  grind [OutForm.fForm, ResForm, OutForm]

end Sys2Proof.Proofs
end

section
/-! Memory in its canonical form (log 2), continued. Launches, pools, halts, saves, host queues, ports and registers. -/

open Sys2Proof Sys2Proof.Machine

namespace Sys2Proof.Proofs

set_option Elab.async false

variable {s : State}

theorem OutForm.execFscos (hm : MemForm s.mem) (h : Hdr) (d : VReg) (a : VS) (rnd : Rnd) :
    OutForm (Machine.execFscos h d a rnd s) := by
  unfold Machine.execFscos
  grind [OutForm.fForm, ResForm, OutForm]

theorem OutForm.execFcvt (hm : MemForm s.mem) (h : Hdr) (d : VReg) (a : VS) (src dst : NTy) (sel : Fin 4) (rnd : Rnd) :
    OutForm (Machine.execFcvt h d a src dst sel rnd s) := by
  unfold Machine.execFcvt
  grind [OutForm.fForm, ResForm, OutForm]

theorem OutForm.execFrnd (hm : MemForm s.mem) (h : Hdr) (d : VReg) (a : VS) (ty : FTy) (rnd : Rnd) :
    OutForm (Machine.execFrnd h d a ty rnd s) := by
  unfold Machine.execFrnd
  grind [OutForm.fForm, ResForm, OutForm]

theorem OutForm.execFclass (hm : MemForm s.mem) (h : Hdr) (d : VReg) (a : VS) (ty : FTy) :
    OutForm (Machine.execFclass h d a ty s) := by
  unfold Machine.execFclass
  grind [OutForm.vForm, ResForm, OutForm]

theorem OutForm.execFdot2 (hm : MemForm s.mem) (h : Hdr) (d : VReg) (a b c : VS) (ty : FTy) (rnd : Rnd) :
    OutForm (Machine.execFdot2 h d a b c ty rnd s) := by
  unfold Machine.execFdot2
  grind [OutForm.fForm, ResForm, OutForm]

theorem OutForm.execFcmul (hm : MemForm s.mem) (h : Hdr) (d : VReg) (a b : VS) (ty : FTy) (rnd : Rnd) :
    OutForm (Machine.execFcmul h d a b ty rnd s) := by
  unfold Machine.execFcmul
  grind [OutForm.fForm, ResForm, OutForm]

theorem OutForm.execFbfly (hm : MemForm s.mem) (h : Hdr) (d : VReg) (a b c : VS) (ty : FTy) (rnd : Rnd) :
    OutForm (Machine.execFbfly h d a b c ty rnd s) := by
  unfold Machine.execFbfly
  grind [OutForm.fForm, ResForm, OutForm]

theorem OutForm.execFtwid (hm : MemForm s.mem) (h : Hdr) (d : VReg) (a b : VS) (rnd : Rnd) :
    OutForm (Machine.execFtwid h d a b rnd s) := by
  unfold Machine.execFtwid
  grind [OutForm.fForm, ResForm, OutForm]

theorem MemForm.takeBank (hm : MemForm s.mem) (core ctx : Nat) (l : Launch) (since : Nat) :
    MemForm (State.takeBank s core ctx l since).1.mem := by
  unfold State.takeBank
  grind [MemForm.modCore]

theorem MemForm.startTeam (hm : MemForm s.mem) (core slot : Nat) (t : Team) :
    MemForm (State.startTeam s core slot t).mem := by
  unfold State.startTeam
  grind [MemForm.setTeam, MemForm.emberAdd, MemForm.selfInvalidate]

theorem MemForm.startBlock (hm : MemForm s.mem) (core ctx pool : Nat) (g : Gang) :
    MemForm (State.startBlock s core ctx pool g).mem := by
  unfold State.startBlock
  grind [MemForm.takeBank, MemForm.clearPend, MemForm.setBlock, MemForm.setRidge, MemForm.startTeam, MemForm.bump, MemForm.takeTrap,
    MemForm.foldl]

theorem MemForm.endReserves (hm : MemForm s.mem) (core : Nat) (g : Gang) :
    MemForm (State.endReserves s core g).mem := by
  unfold State.endReserves
  grind [MemForm.modCore, MemForm.foldl]

theorem MemForm.serve (h : MemForm s.mem) (stack : Nat) (lacked : List Nat) (l : List (Nat × Nat × Nat × Nat × Gang)) :
    MemForm (s.serve stack lacked l).mem := by
  induction l generalizing s lacked with
  | nil =>
    unfold State.serve
    grind [MemForm.bump, MemForm.modStk, MemForm.setPool, MemForm.endReserves, MemForm.modPart, MemForm.modCtx, MemForm.startBlock,
    MemForm.foldl]
  | cons x l ih =>
    unfold State.serve
    grind [MemForm.bump, MemForm.modStk, MemForm.setPool, MemForm.endReserves, MemForm.modPart, MemForm.modCtx, MemForm.startBlock,
    MemForm.foldl]

theorem OutForm.execPlacementDecision (hm : MemForm s.mem) (stack : Nat) :
    OutForm (Machine.execPlacementDecision stack s) := by
  unfold Machine.execPlacementDecision
  grind [MemForm.serve, ResForm, OutForm]

theorem OutForm.execPoolTimerLapse (hm : MemForm s.mem) (ctx pool : Nat) :
    OutForm (Machine.execPoolTimerLapse ctx pool s) := by
  unfold Machine.execPoolTimerLapse
  grind [MemForm.formOne, MemForm.collected, ResForm, OutForm]

theorem OutForm.execRemoteStackOffer (hm : MemForm s.mem) (gang : Nat) :
    OutForm (Machine.execRemoteStackOffer gang s) := by
  unfold Machine.execRemoteStackOffer
  grind [ResForm, OutForm]

theorem OutForm.execPriorityAging (hm : MemForm s.mem) (ctx pool : Nat) :
    OutForm (Machine.execPriorityAging ctx pool s) := by
  unfold Machine.execPriorityAging
  grind [MemForm.setPool, ResForm, OutForm]

theorem MemForm.request (hm : MemForm s.mem) (blk : Nat) :
    MemForm (State.request s blk).mem := by
  unfold State.request
  grind [MemForm.modBlock]

theorem OutForm.execGangReserve (hm : MemForm s.mem) (stack : Nat) :
    OutForm (Machine.execGangReserve stack s) := by
  unfold Machine.execGangReserve
  grind [MemForm.modCore, MemForm.bump, MemForm.request, MemForm.foldl, ResForm, OutForm]

theorem OutForm.execCountedTeamDone (hm : MemForm s.mem) (k : Nat) :
    OutForm (Machine.execCountedTeamDone k s) := by
  unfold Machine.execCountedTeamDone
  grind [MemForm.emberAdd, ResForm, OutForm]

theorem OutForm.execLaunchSignalDecrement (hm : MemForm s.mem) (k : Nat) :
    OutForm (Machine.execLaunchSignalDecrement k s) := by
  unfold Machine.execLaunchSignalDecrement
  grind [MemForm.signal, ResForm, OutForm]

theorem OutForm.execEmbersTokenPass (h : MemForm s.mem) (ctx dom : Nat) : OutForm (execEmbersTokenPass ctx dom s) := by
  unfold Machine.execEmbersTokenPass
  extract_lets x word addr pass s₁
  have h₁ : MemForm s₁.mem := h.modCtx ..
  change MemForm (State.mem (ite ..))
  split
  · exact h
  split
  · exact h.modCtx ..
  split
  · cases e : s₁.unitUpd ctx addr false (.add 1) with
    | none => exact h₁
    | some m => exact h₁.unitUpd _ _ _ _ _ e
  · exact h

theorem OutForm.execTimeSliceEnd (hm : MemForm s.mem) (part ctx next : Nat) :
    OutForm (Machine.execTimeSliceEnd part ctx next s) := by
  unfold Machine.execTimeSliceEnd
  grind [MemForm.bump, MemForm.request, MemForm.modPart, MemForm.modCtx, MemForm.foldl, ResForm, OutForm]

theorem OutForm.execForcedFreeze (hm : MemForm s.mem) (p : Party) :
    OutForm (Machine.execForcedFreeze p s) := by
  unfold Machine.execForcedFreeze
  grind [MemForm.freezeTeam, MemForm.freezeRidge, ResForm, OutForm]

theorem MemForm.putSave (hm : MemForm s.mem) (ctx addr : Nat) (head : List Byte) :
    MemForm (State.putSave s ctx addr head).mem := by
  unfold State.putSave
  grind [MemForm.putPieces]

theorem MemForm.thaw (hm : MemForm s.mem) (blk : Nat) :
    MemForm (State.thaw s blk).mem := by
  unfold State.thaw
  grind

theorem MemForm.unyield (hm : MemForm s.mem) (uids : List Nat) :
    MemForm (State.unyield s uids).mem := by
  unfold State.unyield
  grind

theorem MemForm.leave (h : MemForm s.mem) (blk : Nat) (b : Block) (alone : Bool) : MemForm (s.leave blk b alone).mem := by
  unfold State.leave
  extract_lets uids slots s₁ s₂ s₃ s₄
  have h₁ : MemForm s₁.mem := MemForm.foldl (fun s k h => h.killLoads ..) _ h
  have h₂ : MemForm s₂.mem := h₁.filter _
  exact ((((h₂.modCore ..).modCore ..).sweep ..).dropBanks ..).unyield ..

theorem MemForm.uncover (hm : MemForm s.mem) (blk : Nat) :
    MemForm (State.uncover s blk).mem := by
  unfold State.uncover
  grind

theorem OutForm.execBlockSave (h : MemForm s.mem) (core uid : Nat) : OutForm (execBlockSave core uid s) := by
  unfold Machine.execBlockSave
  change MemForm (State.mem _)
  split
  · exact h
  extract_lets part
  split
  · exact h
  split
  · exact h.fatal ..
  split
  · exact (h.bump ..).thaw ..
  · extract_lets addr sv head put alone hit left
    have hp : MemForm put.mem := h.putSave ..
    have hl : MemForm left.mem := ((hp.leave ..).uncover ..).modCtx ..
    clear_value left
    exact hl

theorem MemForm.clearValid (hm : MemForm s.mem) (ctx : Nat) (sv : Saved) :
    MemForm (State.clearValid s ctx sv).mem := by
  unfold State.clearValid
  grind [MemForm.unitPut]

theorem MemForm.backTeam (hm : MemForm s.mem) (core slot : Nat) (ren : Tbl Nat) (l : Launch) (t : Team) :
    MemForm (State.backTeam s core slot ren l t).mem := by
  unfold State.backTeam
  grind [MemForm.setTeam, MemForm.killLoads]

theorem MemForm.backViews (hm : MemForm s.mem) (core slot : Nat) (t : Team) :
    MemForm (State.backViews s core slot t).mem := by
  unfold State.backViews
  grind [MemForm.listView, MemForm.modTeam, MemForm.foldl]

theorem MemForm.putBack (hm : MemForm s.mem) (core : Nat) (sv : Saved) :
    MemForm (State.putBack s core sv).mem := by
  unfold State.putBack
  grind [MemForm.takeBank, MemForm.memWrite, MemForm.setCore, MemForm.setBlock, MemForm.setRidge, MemForm.backTeam, MemForm.backViews,
    MemForm.foldl]

theorem MemForm.readRecord (hm : MemForm s.mem) (ctx : Nat) (sv : Saved) :
    MemForm (State.readRecord s ctx sv).mem := by
  unfold State.readRecord
  grind [MemForm.readPieces]

theorem MemForm.recordEcc (hm : MemForm s.mem) (ctx core : Nat) (sv : Saved) {m : State} (e : State.recordEcc s ctx core sv = some m) :
    MemForm m.mem := by
  unfold State.recordEcc at e
  grind [MemForm.noteBad, MemForm.fatal]

theorem OutForm.execBlockRestore (hm : MemForm s.mem) (ctx k core : Nat) :
    OutForm (Machine.execBlockRestore ctx k core s) := by
  unfold Machine.execBlockRestore
  grind [MemForm.saved, MemForm.modCtx, MemForm.recordEcc, MemForm.readRecord, MemForm.bump, MemForm.clearValid, MemForm.putBack,
    MemForm.modPart, MemForm.tickFree, ResForm, OutForm]

theorem MemForm.dropTriggers (hm : MemForm s.mem) (part : Nat) :
    MemForm (State.dropTriggers s part).mem := by
  unfold State.dropTriggers
  grind

theorem OutForm.execPartitionHalt (hm : MemForm s.mem) (part : Nat) :
    OutForm (Machine.execPartitionHalt part s) := by
  unfold Machine.execPartitionHalt
  grind [MemForm.modPart, ResForm, OutForm]

theorem MemForm.haltDone (hm : MemForm s.mem) (part : Nat) :
    MemForm (State.haltDone s part).mem := by
  unfold State.haltDone
  grind [MemForm.dropTriggers, MemForm.modPart]

theorem OutForm.execStopRecordWrite (hm : MemForm s.mem) (part unit : Nat) :
    OutForm (Machine.execStopRecordWrite part unit s) := by
  unfold Machine.execStopRecordWrite
  grind [MemForm.haltDone, MemForm.written, MemForm.putRecord, MemForm.modPart, ResForm, OutForm]

theorem OutForm.execWatchdog (hm : MemForm s.mem) (part unit : Nat) :
    OutForm (Machine.execWatchdog part unit s) := by
  unfold Machine.execWatchdog
  grind [MemForm.fatal, ResForm, OutForm]

theorem MemForm.destroy (hm : MemForm s.mem) (ctx : Nat) :
    MemForm (State.destroy s ctx).mem := by
  unfold State.destroy
  grind [MemForm.modCore, MemForm.sweep, MemForm.foldl]

theorem OutForm.execPartitionReset (hm : MemForm s.mem) (part : Nat) :
    OutForm (Machine.execPartitionReset part s) := by
  unfold Machine.execPartitionReset
  grind [MemForm.destroy, MemForm.modPart, MemForm.foldl, ResForm, OutForm]

theorem OutForm.execDebuggerHalt (hm : MemForm s.mem) (ctx : Nat) (quiesce : Bool) :
    OutForm (Machine.execDebuggerHalt ctx quiesce s) := by
  unfold Machine.execDebuggerHalt
  grind [MemForm.quiesce, MemForm.debugHalt, ResForm, OutForm]

theorem MemForm.debugResume (hm : MemForm s.mem) (ctx : Nat) :
    MemForm (State.debugResume s ctx).mem := by
  unfold State.debugResume
  grind [MemForm.modCtx]

theorem OutForm.execDebuggerResume (hm : MemForm s.mem) (ctx : Nat) :
    OutForm (Machine.execDebuggerResume ctx s) := by
  unfold Machine.execDebuggerResume
  grind [MemForm.debugResume, ResForm, OutForm]

theorem OutForm.execCampLendWrite (hm : MemForm s.mem) (core pieces : Nat) :
    OutForm (Machine.execCampLendWrite core pieces s) := by
  unfold Machine.execCampLendWrite
  grind [MemForm.modCore, MemForm.foldl, ResForm, OutForm]

theorem MemForm.tlbDrop (hm : MemForm s.mem) (ctx lo len : Nat) :
    MemForm (State.tlbDrop s ctx lo len).mem := by
  unfold State.tlbDrop
  grind [MemForm.killSlots, MemForm.foldl]

theorem MemForm.tlbStart (hm : MemForm s.mem) (ctx lo len : Nat) (v : W64) :
    MemForm (State.tlbStart s ctx lo len v).mem := by
  unfold State.tlbStart
  grind [MemForm.tlbDrop, MemForm.modCtx]

theorem OutForm.execTlbinvSpan (hm : MemForm s.mem) (ctx : Nat) (v : W64) :
    OutForm (Machine.execTlbinvSpan ctx v s) := by
  unfold Machine.execTlbinvSpan
  grind [MemForm.tlbStart, ResForm, OutForm]

theorem OutForm.execTlbinvAll (hm : MemForm s.mem) (ctx : Nat) (v : W64) :
    OutForm (Machine.execTlbinvAll ctx v s) := by
  unfold Machine.execTlbinvAll
  grind [MemForm.tlbStart, ResForm, OutForm]

theorem OutForm.execTlbinvComplete (hm : MemForm s.mem) (ctx : Nat) :
    OutForm (Machine.execTlbinvComplete ctx s) := by
  unfold Machine.execTlbinvComplete
  grind [MemForm.modCtx, ResForm, OutForm]

theorem MemForm.modQueue (hm : MemForm s.mem) (part q : Nat) (f : Queue → Queue) :
    MemForm (State.modQueue s part q f).mem := by
  unfold State.modQueue
  grind [MemForm.modPart]

theorem MemForm.checkQueue (hm : MemForm s.mem) (part q : Nat) :
    MemForm (State.checkQueue s part q).mem := by
  unfold State.checkQueue
  grind [MemForm.modQueue, MemForm.modPart]

theorem OutForm.execHostQueueDoorbell (hm : MemForm s.mem) (part q : Nat) (wr : W32) :
    OutForm (Machine.execHostQueueDoorbell part q wr s) := by
  unfold Machine.execHostQueueDoorbell
  grind [MemForm.modQueue, MemForm.checkQueue, ResForm, OutForm]

theorem OutForm.execHostQueueEnable (hm : MemForm s.mem) (part q : Nat) (v : W64) :
    OutForm (Machine.execHostQueueEnable part q v s) := by
  unfold Machine.execHostQueueEnable
  grind [MemForm.modQueue, MemForm.checkQueue, MemForm.modCtx, ResForm, OutForm]

theorem OutForm.execJisoetteLaneBind (hm : MemForm s.mem) (part lane : Nat) :
    OutForm (Machine.execJisoetteLaneBind part lane s) := by
  unfold Machine.execJisoetteLaneBind
  grind [MemForm.modPart, ResForm, OutForm]

/-- The state that a packet leaves. -/
def PktForm : PktRes → Prop
  | .ok s _ | .stay s => MemForm s.mem
  | .err _ => True

theorem PktForm.watchPkt {r : WatchRes} (h : WatchForm r) (ctx a : Nat) (s : State) : PktForm (Machine.watchPkt ctx a s r) := by
  unfold Machine.watchPkt
  grind [WatchForm, PktForm, MemForm.tickSeq, MemForm.unitUpd]

theorem MemForm.packetStep (h : MemForm s.mem) (part q : Nat) (k : Pkt) {run : Option (List Nat) → Nat → State → PktRes}
    (hr : ∀ pkt ctx s, MemForm s.mem → PktForm (run pkt ctx s)) : MemForm (s.packetStep part q k run).mem := by
  unfold State.packetStep
  extract_lets todo pkt s₁ x fail
  have h₁ : MemForm s₁.mem := h.modPart ..
  have hfail (n : Nat) : MemForm (fail n).mem := (h₁.modQueue ..).modPart ..
  split
  · exact h
  split
  · exact hfail _
  split
  · exact hfail _
  have ho := hr pkt x.ctx s₁ h₁
  split
  · exact hfail _
  · next e => rwa [e] at ho
  · next e =>
    rw [e] at ho
    exact MemForm.checkQueue (MemForm.modQueue ho ..) ..

theorem OutForm.execNopPacket (h : MemForm s.mem) (part q : Nat) : OutForm (execNopPacket part q s) :=
  MemForm.packetStep h _ _ _ fun _ _ _ h => h

theorem OutForm.execHaltq (hm : MemForm s.mem) (part q : Nat) :
    OutForm (Machine.execHaltq part q s) := by
  refine MemForm.packetStep hm _ _ _ fun k ctx s h => ?_
  grind [MemForm.modQueue, PktForm]

theorem OutForm.execPreempt (hm : MemForm s.mem) (part q : Nat) :
    OutForm (Machine.execPreempt part q s) := by
  refine MemForm.packetStep hm _ _ _ fun k ctx s h => ?_
  grind [MemForm.request, MemForm.tickSeq, MemForm.modPart, MemForm.foldl, PktForm]

theorem OutForm.execPreemptComplete (hm : MemForm s.mem) (k : Nat) :
    OutForm (Machine.execPreemptComplete k s) := by
  unfold Machine.execPreemptComplete
  grind [MemForm.modPart, MemForm.signal, ResForm, OutForm]

theorem OutForm.execSetsig (hm : MemForm s.mem) (part q : Nat) :
    OutForm (Machine.execSetsig part q s) := by
  refine MemForm.packetStep hm _ _ _ fun k ctx s h => ?_
  grind [MemForm.unitUpd, MemForm.tickSeq, PktForm]

theorem OutForm.execWaitsig (hm : MemForm s.mem) (part q : Nat) :
    OutForm (Machine.execWaitsig part q s) := by
  refine MemForm.packetStep hm _ _ _ fun k ctx s h => ?_
  grind [MemForm.modQueue, MemForm.modPart, PktForm]

theorem OutForm.execWatchPacket (h : MemForm s.mem) (part q : Nat) : OutForm (execWatchPacket part q s) :=
  MemForm.packetStep h _ _ _ fun _ _ _ h => PktForm.watchPkt (.setWatch h ..) ..

theorem OutForm.execUnwatchPacket (h : MemForm s.mem) (part q : Nat) : OutForm (execUnwatchPacket part q s) :=
  MemForm.packetStep h _ _ _ fun _ _ _ h => PktForm.watchPkt (.unsetWatch h ..) ..

theorem OutForm.execPoolcfg (hm : MemForm s.mem) (part q : Nat) :
    OutForm (Machine.execPoolcfg part q s) := by
  refine MemForm.packetStep hm _ _ _ fun k ctx s h => ?_
  grind [MemForm.setPool, MemForm.collected, PktForm]

theorem OutForm.execLaunchPacket (hm : MemForm s.mem) (part q : Nat) :
    OutForm (Machine.execLaunchPacket part q s) := by
  refine MemForm.packetStep hm _ _ _ fun k ctx s h => ?_
  grind [MemForm.launchGrid, PktForm]

theorem OutForm.execCopyh (hm : MemForm s.mem) (part q : Nat) :
    OutForm (Machine.execCopyh part q s) := by
  refine MemForm.packetStep hm _ _ _ fun k ctx s h => ?_
  grind [MemForm.tickSeq, MemForm.modPart, PktForm]

theorem OutForm.execHostWrite (hm : MemForm s.mem) (pa : Nat) (bytes : List Byte) :
    OutForm (Machine.execHostWrite pa bytes s) := by
  unfold Machine.execHostWrite
  grind [MemForm.putPieces, ResForm, OutForm]

theorem OutForm.execHostRead (hm : MemForm s.mem) (pa len : Nat) :
    OutForm (Machine.execHostRead pa len s) := by
  unfold Machine.execHostRead
  grind [MemForm.readPieces, MemForm.noteBad, ResForm, OutForm]

theorem MemForm.remote (h : MemForm s.mem) (src depth : Nat) (r : RemoteOp) : MemForm (s.remote src depth r).mem := by
  unfold State.remote
  grind [MemForm.putPieces, MemForm.corrected, MemForm.noteEcc, MemForm.changeAt, MemForm.readPieces, MemForm.noteBad]

theorem OutForm.execRemotePacketReceive (hm : MemForm s.mem) (src seq depth : Nat) (op : RemoteOp) :
    OutForm (Machine.execRemotePacketReceive src seq depth op s) := by
  unfold Machine.execRemotePacketReceive
  grind [MemForm.remote, ResForm, OutForm]

theorem MemForm.modPort (hm : MemForm s.mem) (k : Nat) (f : Port → Port) :
    MemForm (State.modPort s k f).mem := by
  unfold State.modPort
  grind

theorem MemForm.portDown (hm : MemForm s.mem) (k : Nat) :
    MemForm (State.portDown s k).mem := by
  unfold State.portDown
  grind [MemForm.modPort, MemForm.resend]

theorem OutForm.execFlitReplay (hm : MemForm s.mem) (port : Nat) (n : Replay) :
    OutForm (Machine.execFlitReplay port n s) := by
  unfold Machine.execFlitReplay
  grind [MemForm.portDown, MemForm.modPort, ResForm, OutForm]

theorem OutForm.execLinkFailure (hm : MemForm s.mem) (port : Nat) :
    OutForm (Machine.execLinkFailure port s) := by
  unfold Machine.execLinkFailure
  grind [MemForm.portDown, ResForm, OutForm]

theorem OutForm.execLinkTraining (hm : MemForm s.mem) (port partner : Nat) (sizes : List (Nat × Nat × Nat)) :
    OutForm (Machine.execLinkTraining port partner sizes s) := by
  unfold Machine.execLinkTraining
  grind [MemForm.portDown, MemForm.modPort, MemForm.foldl, ResForm, OutForm]

theorem MemForm.portEn (hm : MemForm s.mem) (k : Nat) (en : Bool) :
    MemForm (State.portEn s k en).mem := by
  unfold State.portEn
  grind [MemForm.modPort, MemForm.portDown]

theorem OutForm.execPortDisable (hm : MemForm s.mem) (port : Nat) :
    OutForm (Machine.execPortDisable port s) := by
  unfold Machine.execPortDisable
  grind [MemForm.portEn, ResForm, OutForm]

theorem OutForm.execPortRetrain (hm : MemForm s.mem) (port : Nat) :
    OutForm (Machine.execPortRetrain port s) := by
  unfold Machine.execPortRetrain
  grind [MemForm.portEn, ResForm, OutForm]

theorem OutForm.execTimeSync (h : MemForm s.mem) (count : W64) (reached : Bool) : OutForm (execTimeSync count reached s) := by
  unfold Machine.execTimeSync
  simp only [OutForm]
  split
  · exact h
  split
  · exact h
  · exact h

theorem OutForm.execThermalLimit (hm : MemForm s.mem) (die : Nat) (atLimit : Bool) :
    OutForm (Machine.execThermalLimit die atLimit s) := by
  unfold Machine.execThermalLimit
  grind [ResForm, OutForm]

theorem OutForm.execFwActivate (hm : MemForm s.mem) (sigOk : Bool) (oldest : Nat) (image : List Byte) :
    OutForm (Machine.execFwActivate sigOk oldest image s) := by
  unfold Machine.execFwActivate
  grind [ResForm, OutForm]

theorem OutForm.execAttestRequest (hm : MemForm s.mem) (nonce : List Byte) :
    OutForm (Machine.execAttestRequest nonce s) := by
  unfold Machine.execAttestRequest
  grind [MemForm.tickFree, ResForm, OutForm]

theorem OutForm.execPowerOnReset (caps : List Nat) (master : Bool) (count : W64) : OutForm (execPowerOnReset caps master count s) :=
  State.memOk_reset

theorem OutForm.execMemoryPortLoss (hm : MemForm s.mem) (port : Nat) :
    OutForm (Machine.execMemoryPortLoss port s) := by
  unfold Machine.execMemoryPortLoss
  grind [ResForm, OutForm]

theorem OutForm.execHostPortTraining (hm : MemForm s.mem) (cxl : Bool) (rate width : Nat) :
    OutForm (Machine.execHostPortTraining cxl rate width s) := by
  unfold Machine.execHostPortTraining
  grind [ResForm, OutForm]

theorem MemForm.writeReg (hm : MemForm s.mem) (r : RegName) (index : Nat) (v : W64) :
    MemForm (State.writeReg s r index v).mem := by
  unfold State.writeReg
  grind [MemForm.modPort, MemForm.portEn, MemForm.modPart, MemForm.modCtx, MemForm.debugHalt, MemForm.debugResume, MemForm.modQueue]

theorem OutForm.execRegisterWrite (hm : MemForm s.mem) (r : RegName) (index : Nat) (v : W64) :
    OutForm (Machine.execRegisterWrite r index v s) := by
  unfold Machine.execRegisterWrite
  grind [MemForm.setCount, MemForm.writeReg, ResForm, OutForm]

theorem MemForm.countCycle (hm : MemForm s.mem) :
    MemForm (State.countCycle s).mem := by
  unfold State.countCycle
  grind [MemForm.bump, MemForm.foldl]

theorem MemForm.oneTick (hm : MemForm s.mem) :
    MemForm (State.oneTick s).mem := by
  unfold State.oneTick
  grind

theorem MemForm.clock (hm : MemForm s.mem) :
    MemForm (State.clock s).mem := by
  unfold State.clock
  grind [MemForm.countCycle, MemForm.oneTick]

end Sys2Proof.Proofs
end

section
/-! Memory in its canonical form (log 2), continued. Turns, and O17. -/

open Sys2Proof Sys2Proof.Machine

namespace Sys2Proof.Proofs

set_option Elab.async false

variable {s : State}

theorem MemForm.enterHeader (h : MemForm s.mem) (c slot : Nat) (t : Team) : MemForm (enterTeam.header s c slot t).mem := by
  unfold enterTeam.header
  grind [MemForm.slipTeam, MemForm.fetchFill, MemForm.takeTrap, MemForm.fatalAt, MemForm.setTeam, MemForm.freezeTeam]

theorem MemForm.enterTeam (h : MemForm s.mem) (c slot : Nat) (t : Team) : MemForm (enterTeam s c slot t).mem := by
  unfold Machine.enterTeam
  grind [MemForm.enterHeader, MemForm.setTeam, MemForm.retire, MemForm.trapReturn]

/-- What a party's turn begins with keeps memory in form. -/
def PrepForm : Prep → Prop
  | .idle s | .run s _ => MemForm s.mem

theorem PrepForm.prepTeam (h : MemForm s.mem) (c slot : Nat) (t : Team) : PrepForm (prepTeam s c slot t) := by
  unfold Machine.prepTeam
  grind [MemForm.enterTeam, MemForm.slipTeam, MemForm.fetchFill, MemForm.takeTrap, MemForm.fatalAt, PrepForm]

theorem PrepForm.prepRidge (h : MemForm s.mem) (c : Nat) (r : Ridge) : PrepForm (prepRidge s c r) := by
  unfold Machine.prepRidge
  grind [MemForm.enterRidge, MemForm.slipRidge, MemForm.fetchFill, MemForm.takeTrapM, MemForm.fatalAt, PrepForm]

theorem PrepForm.prep (h : MemForm s.mem) (p : Party) : PrepForm (prep s p) := by
  unfold Machine.prep
  grind [PrepForm.prepTeam, PrepForm.prepRidge, PrepForm]

theorem OutForm.exec (h : MemForm s.mem) (i : Instr) : OutForm (exec i s) := by
  cases i with
  | nop _ => exact OutForm.execNop h ..
  | bra _ _ => exact OutForm.execBra h ..
  | ball _ _ _ _ => exact OutForm.execBall h ..
  | bany _ _ _ _ => exact OutForm.execBany h ..
  | jmps _ _ => exact OutForm.execJmps h ..
  | call _ _ => exact OutForm.execCall h ..
  | ret _ => exact OutForm.execRet h ..
  | reconv _ => exact OutForm.execReconv h ..
  | brk _ _ => exact OutForm.execBrk h ..
  | exit _ => exact OutForm.execExit h ..
  | refill _ _ _ _ => exact OutForm.execRefill h ..
  | elect _ _ => exact OutForm.execElect h ..
  | endlead _ => exact OutForm.execEndlead h ..
  | phint _ _ _ _ _ => exact OutForm.execPhint h ..
  | yield _ => exact OutForm.execYield h ..
  | pset _ _ _ => exact OutForm.execPset h ..
  | plop _ _ _ _ _ _ => exact OutForm.execPlop h ..
  | pmov _ _ => exact OutForm.execPmov h ..
  | pcnt _ _ _ => exact OutForm.execPcnt h ..
  | pfirst _ _ _ => exact OutForm.execPfirst h ..
  | sadd _ _ _ _ _ _ => exact OutForm.execSadd h ..
  | vadd _ _ _ _ _ _ => exact OutForm.execVadd h ..
  | ssub _ _ _ _ _ _ => exact OutForm.execSsub h ..
  | vsub _ _ _ _ _ _ => exact OutForm.execVsub h ..
  | smul _ _ _ _ _ => exact OutForm.execSmul h ..
  | vmul _ _ _ _ _ => exact OutForm.execVmul h ..
  | smulh _ _ _ _ _ => exact OutForm.execSmulh h ..
  | vmulh _ _ _ _ _ => exact OutForm.execVmulh h ..
  | smad _ _ _ _ _ _ => exact OutForm.execSmad h ..
  | vmad _ _ _ _ _ _ => exact OutForm.execVmad h ..
  | sand _ _ _ _ _ => exact OutForm.execSand h ..
  | vand _ _ _ _ _ => exact OutForm.execVand h ..
  | sor _ _ _ _ _ => exact OutForm.execSor h ..
  | vor _ _ _ _ _ => exact OutForm.execVor h ..
  | sxor _ _ _ _ _ => exact OutForm.execSxor h ..
  | vxor _ _ _ _ _ => exact OutForm.execVxor h ..
  | sshl _ _ _ _ _ => exact OutForm.execSshl h ..
  | vshl _ _ _ _ _ => exact OutForm.execVshl h ..
  | sshr _ _ _ _ _ => exact OutForm.execSshr h ..
  | vshr _ _ _ _ _ => exact OutForm.execVshr h ..
  | ssar _ _ _ _ _ => exact OutForm.execSsar h ..
  | vsar _ _ _ _ _ => exact OutForm.execVsar h ..
  | smin _ _ _ _ _ => exact OutForm.execSmin h ..
  | vmin _ _ _ _ _ => exact OutForm.execVmin h ..
  | smax _ _ _ _ _ => exact OutForm.execSmax h ..
  | vmax _ _ _ _ _ => exact OutForm.execVmax h ..
  | scmp _ _ _ _ _ _ => exact OutForm.execScmp h ..
  | vcmp _ _ _ _ _ _ => exact OutForm.execVcmp h ..
  | vsel _ _ _ _ _ _ => exact OutForm.execVsel h ..
  | smov _ _ => exact OutForm.execSmov h ..
  | vmov _ _ _ => exact OutForm.execVmov h ..
  | smovi _ _ _ _ => exact OutForm.execSmovi h ..
  | vmovi _ _ _ => exact OutForm.execVmovi h ..
  | vclz _ _ _ _ => exact OutForm.execVclz h ..
  | vpop _ _ _ _ => exact OutForm.execVpop h ..
  | vbfx _ _ _ _ _ _ => exact OutForm.execVbfx h ..
  | vbfi _ _ _ _ _ _ => exact OutForm.execVbfi h ..
  | vaddc _ _ _ _ _ _ => exact OutForm.execVaddc h ..
  | vaddr _ _ _ _ _ _ => exact OutForm.execVaddr h ..
  | saddi _ _ _ _ _ => exact OutForm.execSaddi h ..
  | vaddi _ _ _ _ _ => exact OutForm.execVaddi h ..
  | vshuf _ _ _ _ _ _ => exact OutForm.execVshuf h ..
  | vbcast _ _ _ _ _ => exact OutForm.execVbcast h ..
  | vreduce _ _ _ _ _ _ => exact OutForm.execVreduce h ..
  | vscan _ _ _ _ _ _ => exact OutForm.execVscan h ..
  | fadd _ _ _ _ _ _ => exact OutForm.execFadd h ..
  | fsub _ _ _ _ _ _ => exact OutForm.execFsub h ..
  | fmul _ _ _ _ _ _ => exact OutForm.execFmul h ..
  | ffma _ _ _ _ _ _ _ => exact OutForm.execFfma h ..
  | fmin _ _ _ _ _ _ => exact OutForm.execFmin h ..
  | fmax _ _ _ _ _ _ => exact OutForm.execFmax h ..
  | fcmp _ _ _ _ _ _ => exact OutForm.execFcmp h ..
  | frcp _ _ _ _ => exact OutForm.execFrcp h ..
  | frsq _ _ _ _ => exact OutForm.execFrsq h ..
  | fexp2 _ _ _ _ => exact OutForm.execFexp2 h ..
  | flog2 _ _ _ _ => exact OutForm.execFlog2 h ..
  | fscos _ _ _ _ => exact OutForm.execFscos h ..
  | fcvt _ _ _ _ _ _ _ => exact OutForm.execFcvt h ..
  | frnd _ _ _ _ _ => exact OutForm.execFrnd h ..
  | fclass _ _ _ _ => exact OutForm.execFclass h ..
  | fdot2 _ _ _ _ _ _ _ => exact OutForm.execFdot2 h ..
  | fcmul _ _ _ _ _ _ => exact OutForm.execFcmul h ..
  | fbfly _ _ _ _ _ _ _ => exact OutForm.execFbfly h ..
  | ftwid _ _ _ _ _ => exact OutForm.execFtwid h ..
  | csum _ _ _ _ _ => exact OutForm.execCsum h ..
  | ld _ _ _ _ _ _ _ _ => exact OutForm.execLd h ..
  | st _ _ _ _ _ _ _ => exact OutForm.execSt h ..
  | atom _ _ _ _ _ _ _ _ _ _ => exact OutForm.execAtom h ..
  | red _ _ _ _ _ _ _ _ _ => exact OutForm.execRed h ..
  | fence _ _ => exact OutForm.execFence h ..
  | prf _ _ _ _ => exact OutForm.execPrf h ..
  | vld _ _ _ _ _ _ _ _ => exact OutForm.execVld h ..
  | vst _ _ _ _ _ _ => exact OutForm.execVst h ..
  | vwset _ _ _ => exact OutForm.execVwset h ..
  | vwadj _ _ _ _ _ _ => exact OutForm.execVwadj h ..
  | vret _ _ => exact OutForm.execVret h ..
  | tdset _ _ _ => exact OutForm.execTdset h ..
  | copy _ _ _ _ => exact OutForm.execCopy h ..
  | copyR _ _ _ _ => exact OutForm.execCopyR h ..
  | copym _ _ _ _ => exact OutForm.execCopym h ..
  | chain _ _ _ _ => exact OutForm.execChain h ..
  | ring _ _ _ _ => exact OutForm.execRing h ..
  | fwait _ _ _ _ => exact OutForm.execFwait h ..
  | frel _ _ => exact OutForm.execFrel h ..
  | ftest _ _ _ => exact OutForm.execFtest h ..
  | gath _ _ _ _ _ _ => exact OutForm.execGath h ..
  | scat _ _ _ _ _ => exact OutForm.execScat h ..
  | qbind _ _ _ _ => exact OutForm.execQbind h ..
  | qtry _ _ _ _ _ => exact OutForm.execQtry h ..
  | mlda _ _ _ _ _ _ _ _ => exact OutForm.execMlda h ..
  | plane _ _ _ _ _ => exact OutForm.execPlane h ..
  | mma _ _ _ _ _ _ _ _ _ _ _ => exact OutForm.execMma h ..
  | moutl _ _ => exact OutForm.execMoutl h ..
  | zclr _ _ _ => exact OutForm.execZclr h ..
  | zld _ _ _ _ _ => exact OutForm.execZld h ..
  | zst _ _ _ _ _ _ _ => exact OutForm.execZst h ..
  | zmap _ _ _ _ _ => exact OutForm.execZmap h ..
  | binit _ _ _ => exact OutForm.execBinit h ..
  | barr _ _ _ => exact OutForm.execBarr h ..
  | bwait _ _ _ => exact OutForm.execBwait h ..
  | bsync _ _ => exact OutForm.execBsync h ..
  | bexp _ _ _ => exact OutForm.execBexp h ..
  | attn _ _ _ _ _ _ _ _ => exact OutForm.execAttn h ..
  | kvapp _ _ _ _ _ => exact OutForm.execKvapp h ..
  | kvevt _ _ _ => exact OutForm.execKvevt h ..
  | watch _ _ _ _ => exact OutForm.execWatch h ..
  | unwatch _ _ _ => exact OutForm.execUnwatch h ..
  | wpark _ _ _ _ _ => exact OutForm.execWpark h ..
  | launchGrid _ _ _ _ => exact OutForm.execLaunchGrid h ..
  | launchRecord _ _ _ => exact OutForm.execLaunchRecord h ..
  | srd _ _ _ _ => exact OutForm.execSrd h ..
  | swr _ _ => exact OutForm.execSwr h ..
  | wkadd _ _ _ => exact OutForm.execWkadd h ..
  | wkdone _ _ => exact OutForm.execWkdone h ..
  | trap _ _ => exact OutForm.execTrap h ..
  | tret _ => exact OutForm.execTret h ..
  | halt _ _ => exact OutForm.execHalt h ..
  | bkpt _ _ => exact OutForm.execBkpt h ..
  | icacheLineFill _ _ => exact OutForm.execIcacheLineFill h ..
  | fixedLatencyWrite _ _ => exact OutForm.execFixedLatencyWrite h ..
  | sliceRelease _ _ => exact OutForm.execSliceRelease h ..
  | readResponse _ _ => exact OutForm.execReadResponse h ..
  | storePerform _ => exact OutForm.execStorePerform h ..
  | heldWriteRelease _ => exact OutForm.execHeldWriteRelease h ..
  | revocation _ _ => exact OutForm.execRevocation h ..
  | writeAcknowledge _ => exact OutForm.execWriteAcknowledge h ..
  | atomicPerform _ => exact OutForm.execAtomicPerform h ..
  | pageWalk _ _ => exact OutForm.execPageWalk h ..
  | pendingBitOr _ => exact OutForm.execPendingBitOr h ..
  | spillRingDrain _ => exact OutForm.execSpillRingDrain h ..
  | recordHandoff _ _ => exact OutForm.execRecordHandoff h ..
  | poolTimerLapse _ _ => exact OutForm.execPoolTimerLapse h ..
  | placementDecision _ => exact OutForm.execPlacementDecision h ..
  | remoteStackOffer _ => exact OutForm.execRemoteStackOffer h ..
  | priorityAging _ _ => exact OutForm.execPriorityAging h ..
  | gangReserve _ => exact OutForm.execGangReserve h ..
  | timeSliceEnd _ _ _ => exact OutForm.execTimeSliceEnd h ..
  | forcedFreeze _ => exact OutForm.execForcedFreeze h ..
  | blockSave _ _ => exact OutForm.execBlockSave h ..
  | blockRestore _ _ _ => exact OutForm.execBlockRestore h ..
  | countedTeamDone _ => exact OutForm.execCountedTeamDone h ..
  | embersTokenPass _ _ => exact OutForm.execEmbersTokenPass h ..
  | queueMoveComplete _ => exact OutForm.execQueueMoveComplete h ..
  | refillWaitEnd _ => exact OutForm.execRefillWaitEnd h ..
  | messageFlitAccept _ => exact OutForm.execMessageFlitAccept h ..
  | ringReserveRetry _ => exact OutForm.execRingReserveRetry h ..
  | engineComplete _ => exact OutForm.execEngineComplete h ..
  | chainRecord _ _ => exact OutForm.execChainRecord h ..
  | gatherRowFetch _ _ => exact OutForm.execGatherRowFetch h ..
  | fwaitReturn _ => exact OutForm.execFwaitReturn h ..
  | entryClaim _ => exact OutForm.execEntryClaim h ..
  | kvappExecute _ => exact OutForm.execKvappExecute h ..
  | strikeCommand _ => exact OutForm.execStrikeCommand h ..
  | strikeRcDrain _ => exact OutForm.execStrikeRcDrain h ..
  | attnComplete _ => exact OutForm.execAttnComplete h ..
  | mmaAccumulatorWrite _ => exact OutForm.execMmaAccumulatorWrite h ..
  | barrierArrival _ _ => exact OutForm.execBarrierArrival h ..
  | barrierCycle _ => exact OutForm.execBarrierCycle h ..
  | barrierWaitEnd _ => exact OutForm.execBarrierWaitEnd h ..
  | wparkDeliver _ => exact OutForm.execWparkDeliver h ..
  | wparkLapse _ => exact OutForm.execWparkLapse h ..
  | partitionHalt _ => exact OutForm.execPartitionHalt h ..
  | stopRecordWrite _ _ => exact OutForm.execStopRecordWrite h ..
  | watchdog _ _ => exact OutForm.execWatchdog h ..
  | partitionReset _ => exact OutForm.execPartitionReset h ..
  | debuggerHalt _ _ => exact OutForm.execDebuggerHalt h ..
  | debuggerResume _ => exact OutForm.execDebuggerResume h ..
  | campLendWrite _ _ => exact OutForm.execCampLendWrite h ..
  | tlbinvSpan _ _ => exact OutForm.execTlbinvSpan h ..
  | tlbinvAll _ _ => exact OutForm.execTlbinvAll h ..
  | tlbinvComplete _ => exact OutForm.execTlbinvComplete h ..
  | hostQueueDoorbell _ _ _ => exact OutForm.execHostQueueDoorbell h ..
  | hostQueueEnable _ _ _ => exact OutForm.execHostQueueEnable h ..
  | jisoetteLaneBind _ _ => exact OutForm.execJisoetteLaneBind h ..
  | nopPacket _ _ => exact OutForm.execNopPacket h ..
  | haltq _ _ => exact OutForm.execHaltq h ..
  | preempt _ _ => exact OutForm.execPreempt h ..
  | preemptComplete _ => exact OutForm.execPreemptComplete h ..
  | setsig _ _ => exact OutForm.execSetsig h ..
  | waitsig _ _ => exact OutForm.execWaitsig h ..
  | watchPacket _ _ => exact OutForm.execWatchPacket h ..
  | unwatchPacket _ _ => exact OutForm.execUnwatchPacket h ..
  | poolcfg _ _ => exact OutForm.execPoolcfg h ..
  | launchPacket _ _ => exact OutForm.execLaunchPacket h ..
  | copyh _ _ => exact OutForm.execCopyh h ..
  | launchSignalDecrement _ => exact OutForm.execLaunchSignalDecrement h ..
  | hostWrite _ _ => exact OutForm.execHostWrite h ..
  | hostRead _ _ => exact OutForm.execHostRead h ..
  | remotePacketReceive _ _ _ _ => exact OutForm.execRemotePacketReceive h ..
  | flitReplay _ _ => exact OutForm.execFlitReplay h ..
  | linkFailure _ => exact OutForm.execLinkFailure h ..
  | linkTraining _ _ _ => exact OutForm.execLinkTraining h ..
  | portDisable _ => exact OutForm.execPortDisable h ..
  | portRetrain _ => exact OutForm.execPortRetrain h ..
  | timeSync _ _ => exact OutForm.execTimeSync h ..
  | thermalLimit _ _ => exact OutForm.execThermalLimit h ..
  | fwActivate _ _ _ => exact OutForm.execFwActivate h ..
  | attestRequest _ => exact OutForm.execAttestRequest h ..
  | powerOnReset _ _ _ => exact OutForm.execPowerOnReset ..
  | registerWrite _ _ _ => exact OutForm.execRegisterWrite h ..
  | planeConverterDone _ => exact OutForm.execPlaneConverterDone h ..
  | memoryPortLoss _ => exact OutForm.execMemoryPortLoss h ..
  | hostPortTraining _ _ _ => exact OutForm.execHostPortTraining h ..

theorem OutForm.runTurn (h : MemForm s.mem) (t : Turn) : OutForm (runTurn s t) := by
  unfold Machine.runTurn
  cases t with
  | clock => exact h.clock
  | event e =>
    simp only
    split
    · exact OutForm.exec h e
    · exact h
  | issue p =>
    have hp := PrepForm.prep h p
    simp only
    split
    · next e => rwa [e] at hp
    · next s' i e =>
      rw [e] at hp
      exact OutForm.ranOf (OutForm.exec (s := { s' with cur := p }) hp i) ..

theorem OutForm.step (h : MemForm s.mem) : OutForm (step s) :=
  OutForm.runTurn (s := { s with agenda := s.nextTurn.2 }) h _

/-- Settles O17: every instruction, every event and every turn keeps memory in form (`OutForm.step`). -/
theorem memoryFormKept : Obligations.MemoryFormKept := by
  intro s s' h e
  have hs := OutForm.step (s := s) h
  rwa [e] at hs

end Sys2Proof.Proofs
end

section
/-! No state stops the package: every instruction of a party that is there, every event and every turn answers a next state. -/

open Sys2Proof Sys2Proof.Machine

namespace Sys2Proof.Proofs

/-- A next state is answered. -/
def Answers (o : Host.Outcome State Fault Refusal) : Prop := ∃ s', o = .next s'

/-- The party whose turn it is stands on its core. -/
def PartyHere (s : State) : Prop :=
  match s.cur with
  | .team c slot => (s.team? c slot).isSome
  | .ridge c => (s.ridge? c).isSome

theorem partyHere_iff {s : State} : PartyHere s ↔ (∃ c slot t, s.cur = .team c slot ∧ s.team? c slot = some t) ∨
    ∃ c r, s.cur = .ridge c ∧ s.ridge? c = some r := by
  unfold PartyHere
  cases s.cur <;> simp [Option.isSome_iff_exists]

theorem not_isEvent_of_encode {i : Instr} {n : Nat} (e : encode i = some n) : ¬ i.isEvent := by
  simp [Instr.isEvent, e]

section
variable {s : State} (h : PartyHere s)
include h

theorem Answers.runTeam (i : Instr) (hd : Hdr) (nd : State → Nat → Team → Need) (eff : X → State → Res) :
    Answers (runTeam i hd nd s eff) := by
  obtain ⟨c, slot, t, hc, ht⟩ | ⟨c, r, hc, hr⟩ := partyHere_iff.mp h
  · exact ⟨_, by simp only [Machine.runTeam, hc, ht]; rfl⟩
  · exact ⟨_, by simp only [Machine.runTeam, hc, hr]; rfl⟩

theorem Answers.runRidge (i : Instr) (hd : Hdr) (nd : State → Nat → Ridge → Need) (eff : XR → State → Res) :
    Answers (runRidge i hd nd s eff) := by
  obtain ⟨c, slot, t, hc, ht⟩ | ⟨c, r, hc, hr⟩ := partyHere_iff.mp h
  · exact ⟨_, by simp only [Machine.runRidge, hc, ht]; rfl⟩
  · exact ⟨_, by simp only [Machine.runRidge, hc, hr]; rfl⟩

theorem Answers.runBoth (i : Instr) (hd : Hdr) (ndT : State → Nat → Team → Need) (ndR : State → Nat → Ridge → Need)
    (effT : X → State → Res) (effR : XR → State → Res) : Answers (runBoth i hd ndT ndR s effT effR) := by
  obtain ⟨c, slot, t, hc, ht⟩ | ⟨c, r, hc, hr⟩ := partyHere_iff.mp h
  · exact ⟨_, by simp only [Machine.runBoth, hc, ht]; rfl⟩
  · exact ⟨_, by simp only [Machine.runBoth, hc, hr]; rfl⟩

theorem Answers.sForm (i : Instr) (hd : Hdr) (d : SReg) (f : (SReg → W64) → W64) : Answers (sForm i hd s d f) := .runBoth h ..

theorem Answers.sInt (i : Instr) (hd : Hdr) (o : IOp) (ty : ITy) (sat : Bool) (d a b c : SReg) :
    Answers (sInt i hd o ty sat d a b c s) := .sForm h ..

theorem Answers.vForm (i : Instr) (hd : Hdr) (d : VReg) (n : Nat) (f : Src → Nat → Nat) : Answers (vForm i hd s d n f) := .runTeam h ..

theorem Answers.vInt (i : Instr) (hd : Hdr) (o : IOp) (ty : ITy) (sat : Bool) (d : VReg) (a b c : VS) :
    Answers (vInt i hd o ty sat d a b c s) := .vForm h ..

theorem Answers.fForm (i : Instr) (hd : Hdr) (d : VReg) (n : Nat) (g : Src → Nat → FR) : Answers (fForm i hd s d n g) := .runTeam h ..

theorem Answers.testBranch (i : Instr) (hd : Hdr) (off : BitVec 24) (test : X → Bool) : Answers (testBranch i hd off s test) :=
  .runTeam h ..

end

/-- An instruction runs for the party whose turn it is (`Answers.runTeam`, `runRidge`, `runBoth`). -/
theorem Answers.exec_of_partyHere {s : State} (h : PartyHere s) (i : Instr) : Answers (exec i s) := by
  cases i with
  | nop _ =>
    change Answers (Machine.execNop ..)
    exact .runBoth h ..
  | bra _ _ =>
    change Answers (Machine.execBra ..)
    exact .runBoth h ..
  | ball _ _ _ _ =>
    change Answers (Machine.execBall ..)
    exact .testBranch h ..
  | bany _ _ _ _ =>
    change Answers (Machine.execBany ..)
    exact .testBranch h ..
  | jmps _ _ =>
    change Answers (Machine.execJmps ..)
    exact .runBoth h ..
  | call _ _ =>
    change Answers (Machine.execCall ..)
    exact .runBoth h ..
  | ret _ =>
    change Answers (Machine.execRet ..)
    exact .runBoth h ..
  | reconv _ =>
    change Answers (Machine.execReconv ..)
    exact .runTeam h ..
  | brk _ _ =>
    change Answers (Machine.execBrk ..)
    exact .runTeam h ..
  | exit _ =>
    change Answers (Machine.execExit ..)
    exact .runBoth h ..
  | refill _ _ _ _ =>
    change Answers (Machine.execRefill ..)
    exact .runTeam h ..
  | elect _ _ =>
    change Answers (Machine.execElect ..)
    exact .runTeam h ..
  | endlead _ =>
    change Answers (Machine.execEndlead ..)
    exact .runTeam h ..
  | phint _ _ _ _ _ =>
    change Answers (Machine.execPhint ..)
    exact .runTeam h ..
  | yield _ =>
    change Answers (Machine.execYield ..)
    exact .runTeam h ..
  | pset _ _ _ =>
    change Answers (Machine.execPset ..)
    exact .runBoth h ..
  | plop _ _ _ _ _ _ =>
    change Answers (Machine.execPlop ..)
    exact .runBoth h ..
  | pmov _ _ =>
    change Answers (Machine.execPmov ..)
    exact .runBoth h ..
  | pcnt _ _ _ =>
    change Answers (Machine.execPcnt ..)
    exact .runTeam h ..
  | pfirst _ _ _ =>
    change Answers (Machine.execPfirst ..)
    exact .runTeam h ..
  | sadd _ _ _ _ _ _ =>
    change Answers (Machine.execSadd ..)
    exact .sInt h ..
  | vadd _ _ _ _ _ _ =>
    change Answers (Machine.execVadd ..)
    exact .vInt h ..
  | ssub _ _ _ _ _ _ =>
    change Answers (Machine.execSsub ..)
    exact .sInt h ..
  | vsub _ _ _ _ _ _ =>
    change Answers (Machine.execVsub ..)
    exact .vInt h ..
  | smul _ _ _ _ _ =>
    change Answers (Machine.execSmul ..)
    exact .sInt h ..
  | vmul _ _ _ _ _ =>
    change Answers (Machine.execVmul ..)
    exact .vInt h ..
  | smulh _ _ _ _ _ =>
    change Answers (Machine.execSmulh ..)
    exact .sInt h ..
  | vmulh _ _ _ _ _ =>
    change Answers (Machine.execVmulh ..)
    exact .vInt h ..
  | smad _ _ _ _ _ _ =>
    change Answers (Machine.execSmad ..)
    exact .sInt h ..
  | vmad _ _ _ _ _ _ =>
    change Answers (Machine.execVmad ..)
    exact .vInt h ..
  | sand _ _ _ _ _ =>
    change Answers (Machine.execSand ..)
    exact .sInt h ..
  | vand _ _ _ _ _ =>
    change Answers (Machine.execVand ..)
    exact .vInt h ..
  | sor _ _ _ _ _ =>
    change Answers (Machine.execSor ..)
    exact .sInt h ..
  | vor _ _ _ _ _ =>
    change Answers (Machine.execVor ..)
    exact .vInt h ..
  | sxor _ _ _ _ _ =>
    change Answers (Machine.execSxor ..)
    exact .sInt h ..
  | vxor _ _ _ _ _ =>
    change Answers (Machine.execVxor ..)
    exact .vInt h ..
  | sshl _ _ _ _ _ =>
    change Answers (Machine.execSshl ..)
    exact .sInt h ..
  | vshl _ _ _ _ _ =>
    change Answers (Machine.execVshl ..)
    exact .vInt h ..
  | sshr _ _ _ _ _ =>
    change Answers (Machine.execSshr ..)
    exact .sInt h ..
  | vshr _ _ _ _ _ =>
    change Answers (Machine.execVshr ..)
    exact .vInt h ..
  | ssar _ _ _ _ _ =>
    change Answers (Machine.execSsar ..)
    exact .sInt h ..
  | vsar _ _ _ _ _ =>
    change Answers (Machine.execVsar ..)
    exact .vInt h ..
  | smin _ _ _ _ _ =>
    change Answers (Machine.execSmin ..)
    exact .sInt h ..
  | vmin _ _ _ _ _ =>
    change Answers (Machine.execVmin ..)
    exact .vInt h ..
  | smax _ _ _ _ _ =>
    change Answers (Machine.execSmax ..)
    exact .sInt h ..
  | vmax _ _ _ _ _ =>
    change Answers (Machine.execVmax ..)
    exact .vInt h ..
  | scmp _ _ _ _ _ _ =>
    change Answers (Machine.execScmp ..)
    exact .runBoth h ..
  | vcmp _ _ _ _ _ _ =>
    change Answers (Machine.execVcmp ..)
    exact .runTeam h ..
  | vsel _ _ _ _ _ _ =>
    change Answers (Machine.execVsel ..)
    exact .vForm h ..
  | smov _ _ =>
    change Answers (Machine.execSmov ..)
    exact .runBoth h ..
  | vmov _ _ _ =>
    change Answers (Machine.execVmov ..)
    exact .runTeam h ..
  | smovi _ _ _ _ =>
    change Answers (Machine.execSmovi ..)
    exact .sForm h ..
  | vmovi _ _ _ =>
    change Answers (Machine.execVmovi ..)
    exact .vForm h ..
  | vclz _ _ _ _ =>
    change Answers (Machine.execVclz ..)
    exact .vForm h ..
  | vpop _ _ _ _ =>
    change Answers (Machine.execVpop ..)
    exact .vForm h ..
  | vbfx _ _ _ _ _ _ =>
    change Answers (Machine.execVbfx ..)
    exact .vForm h ..
  | vbfi _ _ _ _ _ _ =>
    change Answers (Machine.execVbfi ..)
    exact .vForm h ..
  | vaddc _ _ _ _ _ _ =>
    change Answers (Machine.execVaddc ..)
    exact .runTeam h ..
  | vaddr _ _ _ _ _ _ =>
    change Answers (Machine.execVaddr ..)
    exact .vForm h ..
  | saddi _ _ _ _ _ =>
    change Answers (Machine.execSaddi ..)
    exact .sForm h ..
  | vaddi _ _ _ _ _ =>
    change Answers (Machine.execVaddi ..)
    exact .vForm h ..
  | vshuf _ _ _ _ _ _ =>
    change Answers (Machine.execVshuf ..)
    exact .runTeam h ..
  | vbcast _ _ _ _ _ =>
    change Answers (Machine.execVbcast ..)
    exact .runTeam h ..
  | vreduce _ _ _ _ _ _ =>
    change Answers (Machine.execVreduce ..)
    exact .runTeam h ..
  | vscan _ _ _ _ _ _ =>
    change Answers (Machine.execVscan ..)
    exact .runTeam h ..
  | fadd _ _ _ _ _ _ =>
    change Answers (Machine.execFadd ..)
    exact .fForm h ..
  | fsub _ _ _ _ _ _ =>
    change Answers (Machine.execFsub ..)
    exact .fForm h ..
  | fmul _ _ _ _ _ _ =>
    change Answers (Machine.execFmul ..)
    exact .fForm h ..
  | ffma _ _ _ _ _ _ _ =>
    change Answers (Machine.execFfma ..)
    exact .fForm h ..
  | fmin _ _ _ _ _ _ =>
    change Answers (Machine.execFmin ..)
    exact .fForm h ..
  | fmax _ _ _ _ _ _ =>
    change Answers (Machine.execFmax ..)
    exact .fForm h ..
  | fcmp _ _ _ _ _ _ =>
    change Answers (Machine.execFcmp ..)
    exact .runTeam h ..
  | frcp _ _ _ _ =>
    change Answers (Machine.execFrcp ..)
    exact .fForm h ..
  | frsq _ _ _ _ =>
    change Answers (Machine.execFrsq ..)
    exact .fForm h ..
  | fexp2 _ _ _ _ =>
    change Answers (Machine.execFexp2 ..)
    exact .fForm h ..
  | flog2 _ _ _ _ =>
    change Answers (Machine.execFlog2 ..)
    exact .fForm h ..
  | fscos _ _ _ _ =>
    change Answers (Machine.execFscos ..)
    exact .fForm h ..
  | fcvt _ _ _ _ _ _ _ =>
    change Answers (Machine.execFcvt ..)
    exact .fForm h ..
  | frnd _ _ _ _ _ =>
    change Answers (Machine.execFrnd ..)
    exact .fForm h ..
  | fclass _ _ _ _ =>
    change Answers (Machine.execFclass ..)
    exact .vForm h ..
  | fdot2 _ _ _ _ _ _ _ =>
    change Answers (Machine.execFdot2 ..)
    exact .fForm h ..
  | fcmul _ _ _ _ _ _ =>
    change Answers (Machine.execFcmul ..)
    exact .fForm h ..
  | fbfly _ _ _ _ _ _ _ =>
    change Answers (Machine.execFbfly ..)
    exact .fForm h ..
  | ftwid _ _ _ _ _ =>
    change Answers (Machine.execFtwid ..)
    exact .fForm h ..
  | csum _ _ _ _ _ =>
    change Answers (Machine.execCsum ..)
    exact .runTeam h ..
  | ld _ _ _ _ _ _ _ _ =>
    change Answers (Machine.execLd ..)
    exact .runTeam h ..
  | st _ _ _ _ _ _ _ =>
    change Answers (Machine.execSt ..)
    exact .runTeam h ..
  | atom _ _ _ _ _ _ _ _ _ _ =>
    change Answers (Machine.execAtom ..)
    exact .runTeam h ..
  | red _ _ _ _ _ _ _ _ _ =>
    change Answers (Machine.execRed ..)
    exact .runTeam h ..
  | fence _ _ =>
    change Answers (Machine.execFence ..)
    exact .runTeam h ..
  | prf _ _ _ _ =>
    change Answers (Machine.execPrf ..)
    exact .runTeam h ..
  | vld _ _ _ _ _ _ _ _ =>
    change Answers (Machine.execVld ..)
    exact .runTeam h ..
  | vst _ _ _ _ _ _ =>
    change Answers (Machine.execVst ..)
    exact .runTeam h ..
  | vwset _ _ _ =>
    change Answers (Machine.execVwset ..)
    exact .runTeam h ..
  | vwadj _ _ _ _ _ _ =>
    change Answers (Machine.execVwadj ..)
    exact .runTeam h ..
  | vret _ _ =>
    change Answers (Machine.execVret ..)
    exact .runTeam h ..
  | tdset _ _ _ =>
    change Answers (Machine.execTdset ..)
    exact .runTeam h ..
  | copy _ _ _ _ =>
    change Answers (Machine.execCopy ..)
    exact .runTeam h ..
  | copyR _ _ _ _ =>
    change Answers (Machine.execCopyR ..)
    exact .runTeam h ..
  | copym _ _ _ _ =>
    change Answers (Machine.execCopym ..)
    exact .runTeam h ..
  | chain _ _ _ _ =>
    change Answers (Machine.execChain ..)
    exact .runTeam h ..
  | ring _ _ _ _ =>
    change Answers (Machine.execRing ..)
    exact .runTeam h ..
  | fwait _ _ _ _ =>
    change Answers (Machine.execFwait ..)
    exact .runTeam h ..
  | frel _ _ =>
    change Answers (Machine.execFrel ..)
    exact .runTeam h ..
  | ftest _ _ _ =>
    change Answers (Machine.execFtest ..)
    exact .runTeam h ..
  | gath _ _ _ _ _ _ =>
    change Answers (Machine.execGath ..)
    exact .runTeam h ..
  | scat _ _ _ _ _ =>
    change Answers (Machine.execScat ..)
    exact .runTeam h ..
  | qbind _ _ _ _ =>
    change Answers (Machine.execQbind ..)
    exact .runTeam h ..
  | qtry _ _ _ _ _ =>
    change Answers (Machine.execQtry ..)
    exact .runTeam h ..
  | mlda _ _ _ _ _ _ _ _ =>
    change Answers (Machine.execMlda ..)
    exact .runRidge h ..
  | plane _ _ _ _ _ =>
    change Answers (Machine.execPlane ..)
    exact .runBoth h ..
  | mma _ _ _ _ _ _ _ _ _ _ _ =>
    change Answers (Machine.execMma ..)
    exact .runRidge h ..
  | moutl _ _ =>
    change Answers (Machine.execMoutl ..)
    exact .runRidge h ..
  | zclr _ _ _ =>
    change Answers (Machine.execZclr ..)
    exact .runRidge h ..
  | zld _ _ _ _ _ =>
    change Answers (Machine.execZld ..)
    exact .runRidge h ..
  | zst _ _ _ _ _ _ _ =>
    change Answers (Machine.execZst ..)
    exact .runRidge h ..
  | zmap _ _ _ _ _ =>
    change Answers (Machine.execZmap ..)
    exact .runRidge h ..
  | binit _ _ _ =>
    change Answers (Machine.execBinit ..)
    exact .runBoth h ..
  | barr _ _ _ =>
    change Answers (Machine.execBarr ..)
    exact .runBoth h ..
  | bwait _ _ _ =>
    change Answers (Machine.execBwait ..)
    exact .runBoth h ..
  | bsync _ _ =>
    change Answers (Machine.execBsync ..)
    exact .runBoth h ..
  | bexp _ _ _ =>
    change Answers (Machine.execBexp ..)
    exact .runBoth h ..
  | attn _ _ _ _ _ _ _ _ =>
    change Answers (Machine.execAttn ..)
    exact .runRidge h ..
  | kvapp _ _ _ _ _ =>
    change Answers (Machine.execKvapp ..)
    exact .runTeam h ..
  | kvevt _ _ _ =>
    change Answers (Machine.execKvevt ..)
    exact .runTeam h ..
  | watch _ _ _ _ =>
    change Answers (Machine.execWatch ..)
    exact .runTeam h ..
  | unwatch _ _ _ =>
    change Answers (Machine.execUnwatch ..)
    exact .runTeam h ..
  | wpark _ _ _ _ _ =>
    change Answers (Machine.execWpark ..)
    exact .runTeam h ..
  | launchGrid _ _ _ _ =>
    change Answers (Machine.execLaunchGrid ..)
    exact .runTeam h ..
  | launchRecord _ _ _ =>
    change Answers (Machine.execLaunchRecord ..)
    exact .runTeam h ..
  | srd _ _ _ _ =>
    change Answers (Machine.execSrd ..)
    exact .runBoth h ..
  | swr _ _ =>
    change Answers (Machine.execSwr ..)
    exact .runTeam h ..
  | wkadd _ _ _ =>
    change Answers (Machine.execWkadd ..)
    exact .runTeam h ..
  | wkdone _ _ =>
    change Answers (Machine.execWkdone ..)
    exact .runTeam h ..
  | trap _ _ =>
    change Answers (Machine.execTrap ..)
    exact .runBoth h ..
  | tret _ =>
    change Answers (Machine.execTret ..)
    exact .runBoth h ..
  | halt _ _ =>
    change Answers (Machine.execHalt ..)
    exact .runBoth h ..
  | bkpt _ _ =>
    change Answers (Machine.execBkpt ..)
    exact .runBoth h ..
  | icacheLineFill _ _ => exact ⟨_, rfl⟩
  | fixedLatencyWrite _ _ => exact ⟨_, rfl⟩
  | sliceRelease _ _ => exact ⟨_, rfl⟩
  | readResponse _ _ => exact ⟨_, rfl⟩
  | storePerform _ => exact ⟨_, rfl⟩
  | heldWriteRelease _ => exact ⟨_, rfl⟩
  | revocation _ _ => exact ⟨_, rfl⟩
  | writeAcknowledge _ => exact ⟨_, rfl⟩
  | atomicPerform _ => exact ⟨_, rfl⟩
  | pageWalk _ _ => exact ⟨_, rfl⟩
  | pendingBitOr _ => exact ⟨_, rfl⟩
  | spillRingDrain _ => exact ⟨_, rfl⟩
  | recordHandoff _ _ => exact ⟨_, rfl⟩
  | poolTimerLapse _ _ => exact ⟨_, rfl⟩
  | placementDecision _ => exact ⟨_, rfl⟩
  | remoteStackOffer _ => exact ⟨_, rfl⟩
  | priorityAging _ _ => exact ⟨_, rfl⟩
  | gangReserve _ => exact ⟨_, rfl⟩
  | timeSliceEnd _ _ _ => exact ⟨_, rfl⟩
  | forcedFreeze _ => exact ⟨_, rfl⟩
  | blockSave _ _ => exact ⟨_, rfl⟩
  | blockRestore _ _ _ => exact ⟨_, rfl⟩
  | countedTeamDone _ => exact ⟨_, rfl⟩
  | embersTokenPass _ _ => exact ⟨_, rfl⟩
  | queueMoveComplete _ => exact ⟨_, rfl⟩
  | refillWaitEnd _ => exact ⟨_, rfl⟩
  | messageFlitAccept _ => exact ⟨_, rfl⟩
  | ringReserveRetry _ => exact ⟨_, rfl⟩
  | engineComplete _ => exact ⟨_, rfl⟩
  | chainRecord _ _ => exact ⟨_, rfl⟩
  | gatherRowFetch _ _ => exact ⟨_, rfl⟩
  | fwaitReturn _ => exact ⟨_, rfl⟩
  | entryClaim _ => exact ⟨_, rfl⟩
  | kvappExecute _ => exact ⟨_, rfl⟩
  | strikeCommand _ => exact ⟨_, rfl⟩
  | strikeRcDrain _ => exact ⟨_, rfl⟩
  | attnComplete _ => exact ⟨_, rfl⟩
  | mmaAccumulatorWrite _ => exact ⟨_, rfl⟩
  | barrierArrival _ _ => exact ⟨_, rfl⟩
  | barrierCycle _ => exact ⟨_, rfl⟩
  | barrierWaitEnd _ => exact ⟨_, rfl⟩
  | wparkDeliver _ => exact ⟨_, rfl⟩
  | wparkLapse _ => exact ⟨_, rfl⟩
  | partitionHalt _ => exact ⟨_, rfl⟩
  | stopRecordWrite _ _ => exact ⟨_, rfl⟩
  | watchdog _ _ => exact ⟨_, rfl⟩
  | partitionReset _ => exact ⟨_, rfl⟩
  | debuggerHalt _ _ => exact ⟨_, rfl⟩
  | debuggerResume _ => exact ⟨_, rfl⟩
  | campLendWrite _ _ => exact ⟨_, rfl⟩
  | tlbinvSpan _ _ => exact ⟨_, rfl⟩
  | tlbinvAll _ _ => exact ⟨_, rfl⟩
  | tlbinvComplete _ => exact ⟨_, rfl⟩
  | hostQueueDoorbell _ _ _ => exact ⟨_, rfl⟩
  | hostQueueEnable _ _ _ => exact ⟨_, rfl⟩
  | jisoetteLaneBind _ _ => exact ⟨_, rfl⟩
  | nopPacket _ _ => exact ⟨_, rfl⟩
  | haltq _ _ => exact ⟨_, rfl⟩
  | preempt _ _ => exact ⟨_, rfl⟩
  | preemptComplete _ => exact ⟨_, rfl⟩
  | setsig _ _ => exact ⟨_, rfl⟩
  | waitsig _ _ => exact ⟨_, rfl⟩
  | watchPacket _ _ => exact ⟨_, rfl⟩
  | unwatchPacket _ _ => exact ⟨_, rfl⟩
  | poolcfg _ _ => exact ⟨_, rfl⟩
  | launchPacket _ _ => exact ⟨_, rfl⟩
  | copyh _ _ => exact ⟨_, rfl⟩
  | launchSignalDecrement _ => exact ⟨_, rfl⟩
  | hostWrite _ _ => exact ⟨_, rfl⟩
  | hostRead _ _ => exact ⟨_, rfl⟩
  | remotePacketReceive _ _ _ _ => exact ⟨_, rfl⟩
  | flitReplay _ _ => exact ⟨_, rfl⟩
  | linkFailure _ => exact ⟨_, rfl⟩
  | linkTraining _ _ _ => exact ⟨_, rfl⟩
  | portDisable _ => exact ⟨_, rfl⟩
  | portRetrain _ => exact ⟨_, rfl⟩
  | timeSync _ _ => exact ⟨_, rfl⟩
  | thermalLimit _ _ => exact ⟨_, rfl⟩
  | fwActivate _ _ _ => exact ⟨_, rfl⟩
  | attestRequest _ => exact ⟨_, rfl⟩
  | powerOnReset _ _ _ => exact ⟨_, rfl⟩
  | registerWrite _ _ _ => exact ⟨_, rfl⟩
  | planeConverterDone _ => exact ⟨_, rfl⟩
  | memoryPortLoss _ => exact ⟨_, rfl⟩
  | hostPortTraining _ _ _ => exact ⟨_, rfl⟩

/-- An event is the package's own. -/
theorem Answers.exec_of_isEvent (s : State) {i : Instr} (h : i.isEvent) : Answers (exec i s) := by
  cases i with
  | nop _ => exact absurd h (not_isEvent_of_encode rfl)
  | bra _ _ => exact absurd h (not_isEvent_of_encode rfl)
  | ball _ _ _ _ => exact absurd h (not_isEvent_of_encode rfl)
  | bany _ _ _ _ => exact absurd h (not_isEvent_of_encode rfl)
  | jmps _ _ => exact absurd h (not_isEvent_of_encode rfl)
  | call _ tgt => cases tgt with
    | off _ => exact absurd h (not_isEvent_of_encode rfl)
    | reg _ => exact absurd h (not_isEvent_of_encode rfl)
  | ret _ => exact absurd h (not_isEvent_of_encode rfl)
  | reconv _ => exact absurd h (not_isEvent_of_encode rfl)
  | brk _ _ => exact absurd h (not_isEvent_of_encode rfl)
  | exit _ => exact absurd h (not_isEvent_of_encode rfl)
  | refill _ _ _ _ => exact absurd h (not_isEvent_of_encode rfl)
  | elect _ _ => exact absurd h (not_isEvent_of_encode rfl)
  | endlead _ => exact absurd h (not_isEvent_of_encode rfl)
  | phint _ _ _ _ _ => exact absurd h (not_isEvent_of_encode rfl)
  | yield _ => exact absurd h (not_isEvent_of_encode rfl)
  | pset _ _ _ => exact absurd h (not_isEvent_of_encode rfl)
  | plop _ _ _ _ _ _ => exact absurd h (not_isEvent_of_encode rfl)
  | pmov _ _ => exact absurd h (not_isEvent_of_encode rfl)
  | pcnt _ _ _ => exact absurd h (not_isEvent_of_encode rfl)
  | pfirst _ _ _ => exact absurd h (not_isEvent_of_encode rfl)
  | sadd _ _ _ _ _ _ => exact absurd h (not_isEvent_of_encode rfl)
  | vadd _ _ _ _ _ _ => exact absurd h (not_isEvent_of_encode rfl)
  | ssub _ _ _ _ _ _ => exact absurd h (not_isEvent_of_encode rfl)
  | vsub _ _ _ _ _ _ => exact absurd h (not_isEvent_of_encode rfl)
  | smul _ _ _ _ _ => exact absurd h (not_isEvent_of_encode rfl)
  | vmul _ _ _ _ _ => exact absurd h (not_isEvent_of_encode rfl)
  | smulh _ _ _ _ _ => exact absurd h (not_isEvent_of_encode rfl)
  | vmulh _ _ _ _ _ => exact absurd h (not_isEvent_of_encode rfl)
  | smad _ _ _ _ _ _ => exact absurd h (not_isEvent_of_encode rfl)
  | vmad _ _ _ _ _ _ => exact absurd h (not_isEvent_of_encode rfl)
  | sand _ _ _ _ _ => exact absurd h (not_isEvent_of_encode rfl)
  | vand _ _ _ _ _ => exact absurd h (not_isEvent_of_encode rfl)
  | sor _ _ _ _ _ => exact absurd h (not_isEvent_of_encode rfl)
  | vor _ _ _ _ _ => exact absurd h (not_isEvent_of_encode rfl)
  | sxor _ _ _ _ _ => exact absurd h (not_isEvent_of_encode rfl)
  | vxor _ _ _ _ _ => exact absurd h (not_isEvent_of_encode rfl)
  | sshl _ _ _ _ _ => exact absurd h (not_isEvent_of_encode rfl)
  | vshl _ _ _ _ _ => exact absurd h (not_isEvent_of_encode rfl)
  | sshr _ _ _ _ _ => exact absurd h (not_isEvent_of_encode rfl)
  | vshr _ _ _ _ _ => exact absurd h (not_isEvent_of_encode rfl)
  | ssar _ _ _ _ _ => exact absurd h (not_isEvent_of_encode rfl)
  | vsar _ _ _ _ _ => exact absurd h (not_isEvent_of_encode rfl)
  | smin _ _ _ _ _ => exact absurd h (not_isEvent_of_encode rfl)
  | vmin _ _ _ _ _ => exact absurd h (not_isEvent_of_encode rfl)
  | smax _ _ _ _ _ => exact absurd h (not_isEvent_of_encode rfl)
  | vmax _ _ _ _ _ => exact absurd h (not_isEvent_of_encode rfl)
  | scmp _ _ _ _ _ _ => exact absurd h (not_isEvent_of_encode rfl)
  | vcmp _ _ _ _ _ _ => exact absurd h (not_isEvent_of_encode rfl)
  | vsel _ _ _ _ _ _ => exact absurd h (not_isEvent_of_encode rfl)
  | smov _ _ => exact absurd h (not_isEvent_of_encode rfl)
  | vmov _ _ _ => exact absurd h (not_isEvent_of_encode rfl)
  | smovi _ _ _ _ => exact absurd h (not_isEvent_of_encode rfl)
  | vmovi _ _ _ => exact absurd h (not_isEvent_of_encode rfl)
  | vclz _ _ _ _ => exact absurd h (not_isEvent_of_encode rfl)
  | vpop _ _ _ _ => exact absurd h (not_isEvent_of_encode rfl)
  | vbfx _ _ _ _ _ _ => exact absurd h (not_isEvent_of_encode rfl)
  | vbfi _ _ _ _ _ _ => exact absurd h (not_isEvent_of_encode rfl)
  | vaddc _ _ _ _ _ _ => exact absurd h (not_isEvent_of_encode rfl)
  | vaddr _ _ _ _ _ _ => exact absurd h (not_isEvent_of_encode rfl)
  | saddi _ _ _ _ _ => exact absurd h (not_isEvent_of_encode rfl)
  | vaddi _ _ _ _ _ => exact absurd h (not_isEvent_of_encode rfl)
  | vshuf _ _ _ _ _ _ => exact absurd h (not_isEvent_of_encode rfl)
  | vbcast _ _ _ _ _ => exact absurd h (not_isEvent_of_encode rfl)
  | vreduce _ _ _ _ _ _ => exact absurd h (not_isEvent_of_encode rfl)
  | vscan _ _ _ _ _ _ => exact absurd h (not_isEvent_of_encode rfl)
  | fadd _ _ _ _ _ _ => exact absurd h (not_isEvent_of_encode rfl)
  | fsub _ _ _ _ _ _ => exact absurd h (not_isEvent_of_encode rfl)
  | fmul _ _ _ _ _ _ => exact absurd h (not_isEvent_of_encode rfl)
  | ffma _ _ _ _ _ _ _ => exact absurd h (not_isEvent_of_encode rfl)
  | fmin _ _ _ _ _ _ => exact absurd h (not_isEvent_of_encode rfl)
  | fmax _ _ _ _ _ _ => exact absurd h (not_isEvent_of_encode rfl)
  | fcmp _ _ _ _ _ _ => exact absurd h (not_isEvent_of_encode rfl)
  | frcp _ _ _ _ => exact absurd h (not_isEvent_of_encode rfl)
  | frsq _ _ _ _ => exact absurd h (not_isEvent_of_encode rfl)
  | fexp2 _ _ _ _ => exact absurd h (not_isEvent_of_encode rfl)
  | flog2 _ _ _ _ => exact absurd h (not_isEvent_of_encode rfl)
  | fscos _ _ _ _ => exact absurd h (not_isEvent_of_encode rfl)
  | fcvt _ _ _ _ _ _ _ => exact absurd h (not_isEvent_of_encode rfl)
  | frnd _ _ _ _ _ => exact absurd h (not_isEvent_of_encode rfl)
  | fclass _ _ _ _ => exact absurd h (not_isEvent_of_encode rfl)
  | fdot2 _ _ _ _ _ _ _ => exact absurd h (not_isEvent_of_encode rfl)
  | fcmul _ _ _ _ _ _ => exact absurd h (not_isEvent_of_encode rfl)
  | fbfly _ _ _ _ _ _ _ => exact absurd h (not_isEvent_of_encode rfl)
  | ftwid _ _ _ _ _ => exact absurd h (not_isEvent_of_encode rfl)
  | csum _ _ _ _ _ => exact absurd h (not_isEvent_of_encode rfl)
  | ld _ _ _ _ _ _ _ _ => exact absurd h (not_isEvent_of_encode rfl)
  | st _ _ _ _ _ _ _ => exact absurd h (not_isEvent_of_encode rfl)
  | atom _ _ _ _ _ _ _ _ _ _ => exact absurd h (not_isEvent_of_encode rfl)
  | red _ _ _ _ _ _ _ _ _ => exact absurd h (not_isEvent_of_encode rfl)
  | fence _ _ => exact absurd h (not_isEvent_of_encode rfl)
  | prf _ _ _ _ => exact absurd h (not_isEvent_of_encode rfl)
  | vld _ _ _ _ _ _ _ _ => exact absurd h (not_isEvent_of_encode rfl)
  | vst _ _ _ _ _ _ => exact absurd h (not_isEvent_of_encode rfl)
  | vwset _ _ _ => exact absurd h (not_isEvent_of_encode rfl)
  | vwadj _ _ _ _ _ _ => exact absurd h (not_isEvent_of_encode rfl)
  | vret _ _ => exact absurd h (not_isEvent_of_encode rfl)
  | tdset _ _ _ => exact absurd h (not_isEvent_of_encode rfl)
  | copy _ _ _ _ => exact absurd h (not_isEvent_of_encode rfl)
  | copyR _ _ _ _ => exact absurd h (not_isEvent_of_encode rfl)
  | copym _ _ _ _ => exact absurd h (not_isEvent_of_encode rfl)
  | chain _ _ _ _ => exact absurd h (not_isEvent_of_encode rfl)
  | ring _ _ _ _ => exact absurd h (not_isEvent_of_encode rfl)
  | fwait _ _ _ _ => exact absurd h (not_isEvent_of_encode rfl)
  | frel _ _ => exact absurd h (not_isEvent_of_encode rfl)
  | ftest _ _ _ => exact absurd h (not_isEvent_of_encode rfl)
  | gath _ _ _ _ _ _ => exact absurd h (not_isEvent_of_encode rfl)
  | scat _ _ _ _ _ => exact absurd h (not_isEvent_of_encode rfl)
  | qbind _ _ _ _ => exact absurd h (not_isEvent_of_encode rfl)
  | qtry _ _ _ _ _ => exact absurd h (not_isEvent_of_encode rfl)
  | mlda _ _ _ _ _ _ _ _ => exact absurd h (not_isEvent_of_encode rfl)
  | plane _ _ _ _ _ => exact absurd h (not_isEvent_of_encode rfl)
  | mma _ _ _ _ _ _ _ _ _ _ _ => exact absurd h (not_isEvent_of_encode rfl)
  | moutl _ _ => exact absurd h (not_isEvent_of_encode rfl)
  | zclr _ _ _ => exact absurd h (not_isEvent_of_encode rfl)
  | zld _ _ _ _ _ => exact absurd h (not_isEvent_of_encode rfl)
  | zst _ _ _ _ _ _ _ => exact absurd h (not_isEvent_of_encode rfl)
  | zmap _ _ _ _ _ => exact absurd h (not_isEvent_of_encode rfl)
  | binit _ _ _ => exact absurd h (not_isEvent_of_encode rfl)
  | barr _ _ _ => exact absurd h (not_isEvent_of_encode rfl)
  | bwait _ _ _ => exact absurd h (not_isEvent_of_encode rfl)
  | bsync _ _ => exact absurd h (not_isEvent_of_encode rfl)
  | bexp _ _ _ => exact absurd h (not_isEvent_of_encode rfl)
  | attn _ _ _ _ _ _ _ _ => exact absurd h (not_isEvent_of_encode rfl)
  | kvapp _ _ _ _ _ => exact absurd h (not_isEvent_of_encode rfl)
  | kvevt _ _ _ => exact absurd h (not_isEvent_of_encode rfl)
  | watch _ _ _ _ => exact absurd h (not_isEvent_of_encode rfl)
  | unwatch _ _ _ => exact absurd h (not_isEvent_of_encode rfl)
  | wpark _ _ _ _ _ => exact absurd h (not_isEvent_of_encode rfl)
  | launchGrid _ _ _ _ => exact absurd h (not_isEvent_of_encode rfl)
  | launchRecord _ _ _ => exact absurd h (not_isEvent_of_encode rfl)
  | srd _ _ _ _ => exact absurd h (not_isEvent_of_encode rfl)
  | swr _ _ => exact absurd h (not_isEvent_of_encode rfl)
  | wkadd _ _ _ => exact absurd h (not_isEvent_of_encode rfl)
  | wkdone _ _ => exact absurd h (not_isEvent_of_encode rfl)
  | trap _ _ => exact absurd h (not_isEvent_of_encode rfl)
  | tret _ => exact absurd h (not_isEvent_of_encode rfl)
  | halt _ _ => exact absurd h (not_isEvent_of_encode rfl)
  | bkpt _ _ => exact absurd h (not_isEvent_of_encode rfl)
  | icacheLineFill _ _ => exact ⟨_, rfl⟩
  | fixedLatencyWrite _ _ => exact ⟨_, rfl⟩
  | sliceRelease _ _ => exact ⟨_, rfl⟩
  | readResponse _ _ => exact ⟨_, rfl⟩
  | storePerform _ => exact ⟨_, rfl⟩
  | heldWriteRelease _ => exact ⟨_, rfl⟩
  | revocation _ _ => exact ⟨_, rfl⟩
  | writeAcknowledge _ => exact ⟨_, rfl⟩
  | atomicPerform _ => exact ⟨_, rfl⟩
  | pageWalk _ _ => exact ⟨_, rfl⟩
  | pendingBitOr _ => exact ⟨_, rfl⟩
  | spillRingDrain _ => exact ⟨_, rfl⟩
  | recordHandoff _ _ => exact ⟨_, rfl⟩
  | poolTimerLapse _ _ => exact ⟨_, rfl⟩
  | placementDecision _ => exact ⟨_, rfl⟩
  | remoteStackOffer _ => exact ⟨_, rfl⟩
  | priorityAging _ _ => exact ⟨_, rfl⟩
  | gangReserve _ => exact ⟨_, rfl⟩
  | timeSliceEnd _ _ _ => exact ⟨_, rfl⟩
  | forcedFreeze _ => exact ⟨_, rfl⟩
  | blockSave _ _ => exact ⟨_, rfl⟩
  | blockRestore _ _ _ => exact ⟨_, rfl⟩
  | countedTeamDone _ => exact ⟨_, rfl⟩
  | embersTokenPass _ _ => exact ⟨_, rfl⟩
  | queueMoveComplete _ => exact ⟨_, rfl⟩
  | refillWaitEnd _ => exact ⟨_, rfl⟩
  | messageFlitAccept _ => exact ⟨_, rfl⟩
  | ringReserveRetry _ => exact ⟨_, rfl⟩
  | engineComplete _ => exact ⟨_, rfl⟩
  | chainRecord _ _ => exact ⟨_, rfl⟩
  | gatherRowFetch _ _ => exact ⟨_, rfl⟩
  | fwaitReturn _ => exact ⟨_, rfl⟩
  | entryClaim _ => exact ⟨_, rfl⟩
  | kvappExecute _ => exact ⟨_, rfl⟩
  | strikeCommand _ => exact ⟨_, rfl⟩
  | strikeRcDrain _ => exact ⟨_, rfl⟩
  | attnComplete _ => exact ⟨_, rfl⟩
  | mmaAccumulatorWrite _ => exact ⟨_, rfl⟩
  | barrierArrival _ _ => exact ⟨_, rfl⟩
  | barrierCycle _ => exact ⟨_, rfl⟩
  | barrierWaitEnd _ => exact ⟨_, rfl⟩
  | wparkDeliver _ => exact ⟨_, rfl⟩
  | wparkLapse _ => exact ⟨_, rfl⟩
  | partitionHalt _ => exact ⟨_, rfl⟩
  | stopRecordWrite _ _ => exact ⟨_, rfl⟩
  | watchdog _ _ => exact ⟨_, rfl⟩
  | partitionReset _ => exact ⟨_, rfl⟩
  | debuggerHalt _ _ => exact ⟨_, rfl⟩
  | debuggerResume _ => exact ⟨_, rfl⟩
  | campLendWrite _ _ => exact ⟨_, rfl⟩
  | tlbinvSpan _ _ => exact ⟨_, rfl⟩
  | tlbinvAll _ _ => exact ⟨_, rfl⟩
  | tlbinvComplete _ => exact ⟨_, rfl⟩
  | hostQueueDoorbell _ _ _ => exact ⟨_, rfl⟩
  | hostQueueEnable _ _ _ => exact ⟨_, rfl⟩
  | jisoetteLaneBind _ _ => exact ⟨_, rfl⟩
  | nopPacket _ _ => exact ⟨_, rfl⟩
  | haltq _ _ => exact ⟨_, rfl⟩
  | preempt _ _ => exact ⟨_, rfl⟩
  | preemptComplete _ => exact ⟨_, rfl⟩
  | setsig _ _ => exact ⟨_, rfl⟩
  | waitsig _ _ => exact ⟨_, rfl⟩
  | watchPacket _ _ => exact ⟨_, rfl⟩
  | unwatchPacket _ _ => exact ⟨_, rfl⟩
  | poolcfg _ _ => exact ⟨_, rfl⟩
  | launchPacket _ _ => exact ⟨_, rfl⟩
  | copyh _ _ => exact ⟨_, rfl⟩
  | launchSignalDecrement _ => exact ⟨_, rfl⟩
  | hostWrite _ _ => exact ⟨_, rfl⟩
  | hostRead _ _ => exact ⟨_, rfl⟩
  | remotePacketReceive _ _ _ _ => exact ⟨_, rfl⟩
  | flitReplay _ _ => exact ⟨_, rfl⟩
  | linkFailure _ => exact ⟨_, rfl⟩
  | linkTraining _ _ _ => exact ⟨_, rfl⟩
  | portDisable _ => exact ⟨_, rfl⟩
  | portRetrain _ => exact ⟨_, rfl⟩
  | timeSync _ _ => exact ⟨_, rfl⟩
  | thermalLimit _ _ => exact ⟨_, rfl⟩
  | fwActivate _ _ _ => exact ⟨_, rfl⟩
  | attestRequest _ => exact ⟨_, rfl⟩
  | powerOnReset _ _ _ => exact ⟨_, rfl⟩
  | registerWrite _ _ _ => exact ⟨_, rfl⟩
  | planeConverterDone _ => exact ⟨_, rfl⟩
  | memoryPortLoss _ => exact ⟨_, rfl⟩
  | hostPortTraining _ _ _ => exact ⟨_, rfl⟩

theorem prepTeam_run {s s' : State} {c slot : Nat} {t : Team} {i : Instr} (e : prepTeam s c slot t = .run s' i) : s' = s := by
  unfold prepTeam at e
  repeat' split at e
  all_goals grind

theorem prepRidge_run {s s' : State} {c : Nat} {r : Ridge} {i : Instr} (e : prepRidge s c r = .run s' i) : s' = s := by
  unfold prepRidge at e
  repeat' split at e
  all_goals grind

/-- A turn that runs an instruction runs it in the state it is taken in, and its party is there. -/
theorem partyHere_of_prep_run {s s' : State} {p : Party} {i : Instr} (e : prep s p = .run s' i) : PartyHere { s' with cur := p } := by
  cases p with
  | team c slot =>
    simp only [prep] at e
    split at e
    · next t ht =>
      split at e
      · obtain rfl := prepTeam_run e
        exact Option.isSome_of_eq_some ht
      · cases e
    · cases e
  | ridge c =>
    simp only [prep] at e
    split at e
    · next r hr =>
      obtain rfl := prepRidge_run e
      exact Option.isSome_of_eq_some hr
    · cases e

theorem Answers.ranOf {o : Host.Outcome State Fault Refusal} (h : Answers o) (s : State) (p : Party) (i : Instr) :
    Answers (s.ranOf p i o) := by
  obtain ⟨_, rfl⟩ := h
  exact ⟨_, rfl⟩

theorem Answers.runTurn (s : State) (t : Turn) : Answers (runTurn s t) := by
  unfold Machine.runTurn
  cases t with
  | clock => exact ⟨_, rfl⟩
  | event e =>
    simp only
    split
    · next h => exact .exec_of_isEvent _ h
    · exact ⟨_, rfl⟩
  | issue p =>
    simp only
    split
    · exact ⟨_, rfl⟩
    · next e => exact (Answers.exec_of_partyHere (partyHere_of_prep_run e) _).ranOf ..

/-- Settles O18: whatever the next turn is, it answers a next state. -/
theorem stepAnswersNext : Obligations.StepAnswersNext := fun _ => Answers.runTurn ..

end Sys2Proof.Proofs
end

section
/-! Arithmetic: each form of the tables of Claims runs as the shared form of its kind, whose laws stand in Laws/Forms.lean. -/

open Sys2Proof Sys2Proof.Machine

namespace Sys2Proof.Proofs

/-! The third operand, which only a multiply-add reads. -/

theorem elemOp_third {o : IOp} (h : o ≠ .mad) (ty : ITy) (sat : Bool) (a b c c' : Nat) :
    elemOp o ty sat a b c = elemOp o ty sat a b c' := by
  have e : exactOp o ty a b c = exactOp o ty a b c' := by
    cases o with
    | mad => exact absurd rfl h
    | _ => rfl
  simp only [elemOp, e]

theorem packedOp_third {o : IOp} (h : o ≠ .mad) (ty : ITy) (sat : Bool) (a b c c' : Nat) :
    packedOp o ty sat a b c = packedOp o ty sat a b c' := by
  unfold packedOp
  congr 1
  funext k
  exact elemOp_third h ..

/-! Scalar results. -/

theorem sForm_team {i : Instr} {h : Hdr} {d : SReg} {f : (SReg → W64) → W64} {s : State} {c slot : Nat} {t : Team}
    (w : TeamIssues i h s c slot t) : sForm i h s d f = .next (settleTeam i h s c slot t
      (if t.adm h = 0 then .done s else scalResult i (t.x s c slot h) s d (f t.rs))) :=
  runBoth_plain w fun _ => by
    unfold scalResult
    split <;> exact Res.noConfusion

theorem sForm_ridge {i : Instr} {h : Hdr} {d : SReg} {f : (SReg → W64) → W64} {s : State} {c : Nat} {r : Ridge}
    (w : RidgeIssues i h s c r) : sForm i h s d f = .next (settleRidge i h s c r
      (if !(r.adm h) then .done s else scalResultM i (r.x c h) s d (f r.rs))) :=
  runBoth_plainM w

/-- A scalar form runs as its shared form, or is a move between scalars, which does the same. -/
theorem exec_of_scalarForm {i : Instr} {h : Hdr} {d : SReg} {f : (SReg → W64) → W64} (e : Claims.scalarForm i = some (h, d, f)) (s : State) :
    exec i s = sForm i h s d f := by
  unfold Claims.scalarForm at e
  split at e <;> cases e <;> rfl

/-- Settles O1. -/
theorem scalarResults : Obligations.ScalarResults := by
  refine ⟨fun i h d f s c slot t e hs w => ?_, fun i h d f s c r e w => ?_⟩
  · obtain ⟨s', t', h₁, h₂, h₃, h₄, h₅, h₆, h₇⟩ :=
      scalar_done (fl := 0) hs w.2.1 ((exec_of_scalarForm e s).trans (sForm_team w))
    exact ⟨s', t', h₁, h₂, h₃, h₄, h₅, by simp [h₆], h₇⟩
  · exact scalar_doneM w.2.1 ((exec_of_scalarForm e s).trans (sForm_ridge w))

/-! Vector results. -/

/-- The effect of a vector form: a result that may come in parts (R87), or one that is whole or waits. -/
inductive VectorEffect (i : Instr) (d : VReg) (n : Nat) (f : Nat → Nat) (fl : Nat → BitVec 5) (x : X) (s : State) : Res → Prop
  | parts : VectorEffect i d n f fl x s (vecResult i x s d n f fl)
  | whole : VectorEffect i d n f fl x s (vecWhole i x s d n f fl)
  | idle : x.adm = 0 → VectorEffect i d n f fl x s (.done s)

/-- One register, or an instruction that the value table does not take (R90). -/
abbrev FitsTable (i : Instr) (n : Nat) : Prop := n ≤ 64 ∧ 0 < n ∧ (n = 1 ∨ eligible i = false)

theorem vectorForm_fits {i : Instr} {h : Hdr} {d : VReg} {n : Nat} {f : Src → Nat → Nat}
    (e : Claims.vectorForm i = some (h, d, n, f)) : FitsTable i n := by
  unfold Claims.vectorForm at e
  split at e <;> cases e
  all_goals
    simp only [FitsTable, itN, wideN, eligible]
    grind

theorem runTeam_issue {i : Instr} {h : Hdr} {nd : State → Nat → Team → Need} {s : State} {c slot : Nat} {t : Team} {eff : X → State → Res}
    (w : TeamIssues i h s c slot t) :
    runTeam i h nd s eff = .next (settleTeam i h s c slot t (issueTeam i h (nd s c t) s c slot t eff)) := by
  unfold runTeam
  simp only [w.1, w.2.1]

theorem runBoth_issue {i : Instr} {h : Hdr} {nd : State → Nat → Team → Need} {ndR : State → Nat → Ridge → Need} {s : State} {c slot : Nat}
    {t : Team} {eff : X → State → Res} {effR : XR → State → Res} (w : TeamIssues i h s c slot t) :
    runBoth i h nd ndR s eff effR = .next (settleTeam i h s c slot t (issueTeam i h (nd s c t) s c slot t eff)) := by
  unfold runBoth
  simp only [w.1, w.2.1]

/-- What a form with a vector result does for a team: it issues an effect that is the shared form's. -/
def RunsVector (i : Instr) (h : Hdr) (d : VReg) (n : Nat) (f : Nat → Nat) (fl : Nat → BitVec 5) (s : State) (c slot : Nat) (t : Team) : Prop :=
  ∃ eff r, exec i s = .next (settleTeam i h s c slot t (issueTeam i h {} s c slot t eff)) ∧ eff (t.x s c slot h) s = r ∧
    VectorEffect i d n f fl (t.x s c slot h) s r

section
variable {i : Instr} {h : Hdr} {d : VReg} {n : Nat} {s : State} {c slot : Nat} {t : Team} (w : TeamIssues i h s c slot t)
include w

theorem RunsVector.of_parts {f : X → Nat → Nat} {fl : X → Nat → BitVec 5}
    (e : exec i s = runTeam i h noNeed s fun x s => vecResult i x s d n (f x) (fl x)) :
    RunsVector i h d n (f (t.x s c slot h)) (fl (t.x s c slot h)) s c slot t :=
  ⟨_, _, e.trans (runTeam_issue w), rfl, .parts⟩

theorem RunsVector.of_whole {f : X → Nat → Nat} {fl : X → Nat → BitVec 5}
    (e : exec i s = runTeam i h noNeed s fun x s => vecWhole i x s d n (f x) (fl x)) :
    RunsVector i h d n (f (t.x s c slot h)) (fl (t.x s c slot h)) s c slot t :=
  ⟨_, _, e.trans (runTeam_issue w), rfl, .whole⟩

theorem RunsVector.of_vInt {o : IOp} {ty : ITy} {sat : Bool} {a b : VS} (ho : o ≠ .mad) (e : exec i s = vInt i h o ty sat d a b a s) :
    RunsVector i h d (itN ty) (fun l => packedOp o ty sat (Src.num ⟨s.core c, t, []⟩ ty.wide a l) (Src.num ⟨s.core c, t, []⟩ ty.wide b l) 0)
      (fun _ => 0) s c slot t := by
  have hf (l : Nat) := packedOp_third ho ty sat (Src.num ⟨s.core c, t, []⟩ ty.wide a l) (Src.num ⟨s.core c, t, []⟩ ty.wide b l) 0
    (Src.num ⟨s.core c, t, []⟩ ty.wide a l)
  simp only [hf]
  exact .of_parts w e

theorem RunsVector.of_vmov {a : SReg} {wide : Bool} (e : i = .vmov h (.vs d a) wide) :
    RunsVector i h d (wideN wide) (fun _ => (t.rs a).toNat) (fun _ => 0) s c slot t := by
  subst e
  refine ⟨_, _, runTeam_issue w, rfl, ?_⟩
  simp only
  split
  · next ha => exact .idle ha
  · exact .parts

theorem RunsVector.of_vscan {a : VReg} {op : RedOp} {ty : NTy} {rnd : Rnd} (e : i = .vscan h d a op ty rnd) :
    let x := t.x s c slot h
    let id := redIdentity op ty
    let out := scanAll (redNode op ty rnd) ((passes x.team.act).map fun k => (k, redWord x ty id a k)) id
    RunsVector i h d (ntN ty) (fun l => (((out.find? fun p => p.1 == l / 32).map fun p => p.2.getD (l % 32) id).getD id).bits)
      (fun _ => out.foldl (fun acc p => p.2.foldl (fun acc r => acc ||| r.fl) acc) 0) s c slot t := by
  subst e
  have getD_match (o : Option (Nat × List FR)) (l : Nat) (id : FR) :
      (o.map fun p => p.2.getD l id).getD id = match o with | some p => p.2.getD l id | none => id := by
    cases o <;> rfl
  simp only [getD_match]
  exact .of_whole w rfl

end

/-- A vector form's effect is that of the shared form. -/
theorem vectorForm_runs {i : Instr} {h : Hdr} {d : VReg} {n : Nat} {f : Src → Nat → Nat}
    (e : Claims.vectorForm i = some (h, d, n, f)) {s : State} {c slot : Nat} {t : Team} (w : TeamIssues i h s c slot t) :
    RunsVector i h d n (f ⟨s.core c, t, []⟩) (fun _ => 0) s c slot t := by
  unfold Claims.vectorForm at e
  split at e <;> cases e
  case h_21 => exact RunsVector.of_vmov w rfl
  case h_23 => exact ⟨_, _, runBoth_issue w, rfl, .parts⟩
  case h_24 | h_25 => exact .of_whole w rfl
  case h_5 | h_14 | h_15 | h_16 | h_17 | h_18 | h_19 | h_20 | h_22 | h_26 => exact .of_parts w rfl
  all_goals exact .of_vInt w nofun rfl

/-! What a vector result leaves. -/

/-- A form whose conditions hold runs its effect for as many passes as the team has slices for (R87). -/
theorem issueTeam_inParts {i : Instr} {h : Hdr} {s : State} {c slot : Nat} {t : Team} {eff : X → State → Res} (w : TeamIssues i h s c slot t) :
    issueTeam i h {} s c slot t eff = inParts (checked i (guardReg h ++ (iRegs i).1) eff) (t.x s c slot h) s := by
  obtain ⟨hregs, hlast, hguard, hfree, hmet⟩ := w.gates
  have hun : (if t.lo = 0 then unmetOf t.shadows (guardReg h ++ (iRegs i).1) else []).isEmpty = true := by
    split
    · exact hmet
    · rfl
  unfold issueTeam
  simp only [hregs, hlast, hguard, hfree, hun, Bool.not_true, Bool.or_false, Bool.false_eq_true, if_false, Bool.false_and, Bool.and_false,
    if_true]
  rfl

/-- Where the first pass lacks slices, nothing is done (R87). -/
theorem issueTeam_short {i : Instr} {h : Hdr} {s : State} {c slot : Nat} {t : Team} {eff : X → State → Res} (w : TeamIssues i h s c slot t)
    {j : Nat} (e : eff (t.x s c slot h) s = .short j) (hj : t.adm h &&& below j = 0) : issueTeam i h {} s c slot t eff = .short j := by
  have hc : checked i (guardReg h ++ (iRegs i).1) eff (t.x s c slot h) s = .short j :=
    (if_neg (by rw [Bool.not_eq_true]; exact w.2.2.2.2.2.2)).trans e
  rw [issueTeam_inParts w, inParts, hc]
  exact if_pos hj

theorem passes_zero : passes 0 = [] := by simp [passes, maskWord]

theorem passFlags_zero (m : Mask) (j : Nat) : passFlags m (fun _ => 0) j = 0 := by
  unfold passFlags
  generalize List.filter _ _ = l
  induction l with
  | nil => rfl
  | cons x l ih => exact (congrArg (List.foldl _ · l) BitVec.or_zero).trans ih

theorem missFlags_zero (s : State) (i : Instr) (x : X) (d : VReg) (n : Nat) (f : Nat → Nat) (f0 : BitVec 5) :
    missFlags s i x d n f (fun _ => 0) f0 = f0 := by
  unfold missFlags
  generalize List.filter _ _ = l
  induction l with
  | nil => rfl
  | cons j l ih =>
    rw [List.foldl_cons, passFlags_zero]
    exact (congrArg (List.foldl _ · l) BitVec.or_zero).trans ih

/-- The slices that a vector result of a team needs, pass by pass, and where they lack first. -/
abbrev lackedOf (s : State) (i : Instr) (h : Hdr) (c slot : Nat) (t : Team) (d : VReg) (n : Nat) (f : Nat → Nat) (fl : Nat → BitVec 5) : Option Nat :=
  s.lacking c t 0 ((vecRun i (t.x s c slot h) s d n f fl).needs n (passes (t.adm h)))

/-- What a vector result leaves where the team has slices for every pass. -/
theorem RunsVector.done {i : Instr} {h : Hdr} {d : VReg} {n : Nat} {f : Nat → Nat} {fl : Nat → BitVec 5} {s : State} {c slot : Nat} {t : Team}
    (r : RunsVector i h d n f fl s c slot t) (fit : FitsTable i n) (w : TeamIssues i h s c slot t) (hs : slot < 16) (ok : s.stashOk = true)
    (hn : lackedOf s i h c slot t d n f fl = none) :
    ∃ s' t', exec i s = .next s' ∧ s'.team? c slot = some t' ∧ TeamFrame s s' c slot ∧
      t' = { t with pc := (s.nextOf c t).1, atHdr := (s.nextOf c t).2, wait := none, vmap := t'.vmap, shadows := t'.shadows } ∧
      (∀ k l, k < n → l < 1024 → inMask (t.adm h) l = true →
        s'.vreg c slot (vregAt d k) l = laneResult s i (t.x s c slot h) d n f fl k l) ∧
      (∀ r l, l < 1024 → (inMask (t.adm h) l = false ∨ ∀ k, k < n → r ≠ vregAt d k) → s'.vreg c slot r l = s.vreg c slot r l) ∧
      t'.flagsDue = missFlags s i (t.x s c slot h) d n f fl t.flagsDue := by
  obtain ⟨hn2, hn0, he⟩ := fit
  obtain ⟨eff, r, e, er, hr⟩ := r
  have hm : vecResult i (t.x s c slot h) s d n f fl = .done ((vecRun i (t.x s c slot h) s d n f fl).leave (t.x s c slot h) s) := by
    unfold vecResult
    have hn : s.lacking (t.x s c slot h).c (t.x s c slot h).team 0
      ((vecRun i (t.x s c slot h) s d n f fl).needs n (passes (t.x s c slot h).adm)) = none := hn
    simp only [hn]
  have hr : (r = .done s ∧ t.adm h = 0) ∨ r = vecResult i (t.x s c slot h) s d n f fl := by
    cases hr with
    | parts => exact .inr rfl
    | whole => exact .inr (by rw [vecWhole, hm])
    | idle h => exact .inl ⟨rfl, h⟩
  have hshort : ∀ j, eff (t.x s c slot h) s ≠ .short j := by
    rw [er]
    rcases hr with ⟨rfl, -⟩ | rfl
    · exact fun _ => Res.noConfusion
    · rw [hm]
      exact fun _ => Res.noConfusion
  rw [issueTeam_eq w rfl Bool.noConfusion Bool.noConfusion hshort, er] at e
  rcases hr with ⟨rfl, ha⟩ | rfl
  · obtain ⟨s', t', h0, h1, h2, h3, h4, h5⟩ := done_same (i := i) (h := h) hs w.2.1
    refine ⟨s', t', e.trans h0, h1, h2, ?_, fun k l _ _ hl => ?_, fun r l _ _ => h5 r l, ?_⟩
    · rw [h3]
    · rw [ha] at hl
      simp [inMask] at hl
    · rw [h4, missFlags, show (t.x s c slot h).adm = 0 from ha, passes_zero]
      rfl
  · exact vector_done hn2 hn0 he hs w.2.1 ok hn e

/-- Counters and running numbers are in no frame. -/
theorem teamFrame_counts (s : State) (c slot : Nat) (ctr : Tbl Nat) (n : Nat) : TeamFrame s { s with ctr := ctr, seq := n } c slot :=
  ⟨fun _ _ => rfl, fun _ _ _ _ _ => rfl, fun _ _ => rfl, rfl, rfl, fun _ => rfl⟩

theorem count_bump_same (s : State) (c : Ctr) (n k : Nat) : (s.bump c n k).count c n = (s.count c n + k) % 2 ^ c.width :=
  Tbl.get_set_same ..

/-- A team that starts to wait for slices, counted. -/
theorem sliceWaiting {s : State} {c slot : Nat} {t : Team} (ht : s.team? c slot = some t) (hs : slot < 16) (w : Wait) :
    ∃ s' t', ((s.bump .schSlicewait c 1).modTeam c slot fun t' => { t' with wait := some w }).tickSeq = s' ∧ TeamFrame s s' c slot ∧
      s'.team? c slot = some t' ∧ t'.wait.isSome = true ∧ t' = { t with wait := t'.wait } ∧
      s'.count .schSlicewait c = (s.count .schSlicewait c + 1) % 2 ^ 64 := by
  have e : ((s.bump .schSlicewait c 1).modTeam c slot fun t' => { t' with wait := some w }).tickSeq =
      State.setTeam { s with ctr := (s.bump .schSlicewait c 1).ctr, seq := s.seq + 1 } c slot { t with wait := some w } := by
    rw [State.modTeam, show (s.bump .schSlicewait c 1).team? c slot = some t from ht]
    rfl
  refine ⟨_, { t with wait := some w }, rfl, ?_, ?_, rfl, rfl, ?_⟩
  · rw [e]
    exact (teamFrame_counts s c slot _ _).trans (TeamFrame.setTeam _ c slot _ hs)
  · rw [e]
    exact State.team_setTeam_same ..
  · rw [e]
    exact count_bump_same s .schSlicewait c 1

/-- What waiting for slices leaves (R87): the team waits, and that is counted. -/
theorem RunsVector.waits {i : Instr} {h : Hdr} {d : VReg} {n : Nat} {f : Nat → Nat} {fl : Nat → BitVec 5} {s : State} {c slot : Nat} {t : Team}
    (r : RunsVector i h d n f fl s c slot t) (w : TeamIssues i h s c slot t) (hs : slot < 16)
    {j : Nat} (hn : lackedOf s i h c slot t d n f fl = some j) (hj : t.adm h &&& below j = 0) (ht : t.wait = none) :
    ∃ s' t', exec i s = .next s' ∧ TeamFrame s s' c slot ∧ s'.team? c slot = some t' ∧ t'.wait.isSome = true ∧
      t' = { t with wait := t'.wait } ∧ s'.count .schSlicewait c = (s.count .schSlicewait c + 1) % 2 ^ 64 := by
  obtain ⟨eff, r, e, er, hr⟩ := r
  have hv : vecResult i (t.x s c slot h) s d n f fl = .short j := by
    unfold vecResult
    have hn : s.lacking (t.x s c slot h).c (t.x s c slot h).team 0
      ((vecRun i (t.x s c slot h) s d n f fl).needs n (passes (t.x s c slot h).adm)) = some j := hn
    simp only [hn]
  cases hr with
  | parts =>
    rw [issueTeam_short w (er.trans hv) hj, settleTeam, if_neg (by simp [ht])] at e
    obtain ⟨s', t', rfl, h⟩ := sliceWaiting w.2.1 hs _
    exact ⟨_, t', e, h⟩
  | whole =>
    rw [vecWhole, hv] at er
    rw [issueTeam_eq w rfl Bool.noConfusion Bool.noConfusion (by rw [er]; exact fun _ => Res.noConfusion), er, State.sliceWait, settleTeam,
      if_neg (by simp [ht])] at e
    obtain ⟨s', t', rfl, h⟩ := sliceWaiting w.2.1 hs _
    exact ⟨_, t', e, h⟩
  | idle ha =>
    rw [lackedOf, show t.adm h = 0 from ha, passes_zero] at hn
    cases hn

/-- Settles O3: every vector form issues the shared effect, which waits where the first pass lacks slices and is done where none lacks. -/
theorem vectorResult : Obligations.VectorResult := by
  intro i h d n f s c slot t e hs ok w
  have r := vectorForm_runs e w
  refine ⟨fun j hn hj ht => r.waits w hs hn hj ht, fun hn => ?_⟩
  obtain ⟨s', t', h₁, h₂, h₃, h₄, h₅, h₆, h₇⟩ := r.done (vectorForm_fits e) w hs ok hn
  exact ⟨s', t', h₁, h₂, h₃, h₄, h₅, h₆, h₇.trans (missFlags_zero ..)⟩

/-! Floating-point results. -/

theorem floatForm_fits {x : X} {i : Instr} {h : Hdr} {d : VReg} {n : Nat} {g : Nat → FR}
    (e : Claims.floatForm x i = some (h, d, n, g)) : FitsTable i n := by
  unfold Claims.floatForm at e
  split at e <;> cases e
  all_goals
    simp only [FitsTable, wideN, ntN, eligible]
    grind

/-- A floating-point form's effect is that of the shared form. -/
theorem floatForm_runs {i : Instr} {h : Hdr} {d : VReg} {n : Nat} {g : Nat → FR} {s : State} {c slot : Nat} {t : Team}
    (e : Claims.floatForm (t.x s c slot h) i = some (h, d, n, g)) (w : TeamIssues i h s c slot t) :
    RunsVector i h d n (fun l => (g l).bits) (fun l => (g l).fl) s c slot t := by
  unfold Claims.floatForm at e
  split at e <;> cases e
  case h_18 => exact .of_whole w rfl
  case h_19 => exact .of_vscan w rfl
  all_goals exact .of_parts w rfl

/-- Settles O4. -/
theorem floatResult : Obligations.FloatResult :=
  fun _ _ _ _ _ _ _ _ _ e hs ok w hn => (floatForm_runs e w).done (floatForm_fits e) w hs ok hn

/-! Results across lanes into a scalar. -/

theorem range_1024 : List.range 1024 = (List.range 32).flatMap fun j => (List.range 32).map fun l => 32 * j + l := by decide +kernel

theorem flatMap_filter {α β : Type} {p : α → Bool} {f : α → List β} (h : ∀ a, p a = false → f a = []) (l : List α) :
    (l.filter p).flatMap f = l.flatMap f := by
  induction l with
  | nil => rfl
  | cons a l ih =>
    rw [List.filter_cons, List.flatMap_cons]
    split
    · rw [List.flatMap_cons, ih]
    · next hp => rw [h a (by simpa using hp), ih, List.nil_append]

/-- The lanes of a word of a mask. -/
theorem filter_word (m : Mask) (j : Nat) : ((List.range 32).map fun l => 32 * j + l).filter (inMask m) =
    ((List.range 32).filter fun l => (maskWord m j).getLsbD l).map fun l => 32 * j + l := by
  rw [List.filter_map]
  exact congrArg _ (List.filter_congr fun l hl => (maskWord_bit _ _ _ (List.mem_range.mp hl)).symm)

/-- The lanes of a mask, in order. -/
theorem lanes_eq_filter (m : Mask) : lanes m = (List.range 1024).filter (inMask m) := by
  rw [range_1024, List.filter_flatMap, lanes, passes, flatMap_filter]
  · simp only [filter_word]
  · intro j hj
    simp [show maskWord m j = 0 by simpa using hj]

theorem inMask_and (a b : Mask) (l : Nat) : inMask (a &&& b) l = (inMask a l && inMask b l) := by simp [inMask]

theorem lanes_and (a b : Mask) : lanes (a &&& b) = (lanes a).filter (inMask b) := by
  rw [lanes_eq_filter, lanes_eq_filter, List.filter_filter]
  exact List.filter_congr fun l _ => (inMask_and a b l).trans (Bool.and_comm ..)

theorem popcount_and (a b : Mask) : popcount (a &&& b) = (lanes a).countP (inMask b) := by
  rw [popcount, lanes_and, List.countP_eq_length_filter]

theorem lowest_and (a b : Mask) : lowest (a &&& b) = (lanes a).find? (inMask b) := by
  rw [lowest, lanes_and, List.head?_filter]

theorem crc_flatMap (f : Nat → List Byte) (l : List Nat) (c : Nat) : crc c (l.flatMap f) = l.foldl (fun c x => crc c (f x)) c := by
  induction l generalizing c with
  | nil => rfl
  | cons x l ih => rw [List.flatMap_cons, crc, List.foldl_append, List.foldl_cons, ← crc, ← crc, ih]

/-- A form across lanes computes a scalar of its team. -/
theorem exec_of_crossForm {i : Instr} {h : Hdr} {d : SReg} {v : W64} {fl : BitVec 5} {s : State} {c slot : Nat} {t : Team}
    (e : Claims.crossForm (t.x s c slot h) i = some (h, d, v, fl)) (w : TeamIssues i h s c slot t) :
    exec i s = .next (settleTeam i h s c slot t (if t.adm h = 0 then .done s else scalResult i (t.x s c slot h) s d v fl)) := by
  have run {eff : X → State → Res} (e : exec i s = runTeam i h noNeed s eff)
      (he : eff (t.x s c slot h) s = if t.adm h = 0 then .done s else scalResult i (t.x s c slot h) s d v fl) :
      exec i s = .next (settleTeam i h s c slot t (if t.adm h = 0 then .done s else scalResult i (t.x s c slot h) s d v fl)) := by
    rw [e, ← he]
    refine runTeam_plain w fun _ => ?_
    rw [he]
    split <;> exact Res.noConfusion
  unfold Claims.crossForm at e
  split at e <;> cases e
  case h_1 => exact run rfl (by rw [← popcount_and]; rfl)
  case h_2 => exact run rfl (by rw [← lowest_and]; rfl)
  case h_3 => exact run rfl (by rw [crc_flatMap]; rfl)
  case h_4 => exact run rfl rfl
  case h_5 => exact run rfl rfl

/-- Settles O2. -/
theorem crossLaneScalar : Obligations.CrossLaneScalar :=
  fun _ _ _ _ _ _ _ _ _ e hs w => scalar_done hs w.2.1 (exec_of_crossForm e w)

end Sys2Proof.Proofs
end

section
/-! Predicate results, of teams and of matrix streams. -/

open Sys2Proof Sys2Proof.Machine

namespace Sys2Proof.Proofs

theorem inMask_repWord (w : W32) (l : Nat) (hl : l < 1024) : inMask (repWord w) l = w.getLsbD (l % 32) := by
  unfold inMask repWord
  rw [placed_bit (List.range 32) (fun j => j) (fun _ => w) 0 l hl, show BitVec.getLsbD (0 : Mask) l = false from BitVec.getLsbD_zero, Bool.false_or, Bool.eq_iff_iff, List.any_eq_true]
  simp only [List.mem_range, Bool.and_eq_true, decide_eq_true_eq]
  constructor
  · rintro ⟨j, -, hj, hb⟩
    have hlt : l - 32 * j < 32 := by
      by_contra hge
      rw [BitVec.getLsbD_of_ge _ _ (by omega)] at hb
      cases hb
    rwa [show l % 32 = l - 32 * j by omega]
  · exact fun hb => ⟨l / 32, by omega, by omega, by rwa [show l - 32 * (l / 32) = l % 32 by omega]⟩

theorem inMask_all (b : Bool) (l : Nat) (hl : l < 1024) : inMask (if b then BitVec.allOnes 1024 else 0) l = b := by
  unfold inMask
  split
  · next h => rw [h, BitVec.getLsbD_allOnes, decide_eq_true hl]
  · next h => rw [Bool.not_eq_true] at h; rw [h]; exact BitVec.getLsbD_zero

theorem inMask_maskOf_lanes {m : Mask} (f : Nat → Bool) {l : Nat} (hl : l < 1024) (h : inMask m l = true) :
    inMask (maskOf (lanes m) f) l = f l := by
  rw [inMask_maskOf _ _ _ hl, decide_eq_true (mem_lanes.mpr ⟨hl, h⟩), Bool.true_and]

/-- What a form with a predicate result does for a team: it writes a mask that gives an admitted lane its value. -/
def RunsPredicate (i : Instr) (h : Hdr) (d : PReg) (v : Nat → Bool) (fl : BitVec 5) (s : State) (c slot : Nat) (t : Team) : Prop :=
  ∃ m, exec i s = .next (settleTeam i h s c slot t (predResult i (t.x s c slot h) s d m fl)) ∧
    ∀ l, l < 1024 → inMask (t.adm h) l = true → inMask m l = v l

theorem predResult_not_short (i : Instr) (x : X) (s : State) (d : PReg) (m : Mask) (fl : BitVec 5) (j : Nat) :
    predResult i x s d m fl ≠ .short j := by
  unfold predResult
  exact Res.noConfusion

section
variable {i : Instr} {h : Hdr} {d : PReg} {s : State} {c slot : Nat} {t : Team} {v : Nat → Bool} (w : TeamIssues i h s c slot t)
include w

theorem RunsPredicate.of_team {m : X → Mask} {fl : X → BitVec 5} (e : exec i s = runTeam i h noNeed s fun x s => predResult i x s d (m x) (fl x))
    (hm : ∀ l, l < 1024 → inMask (t.adm h) l = true → inMask (m (t.x s c slot h)) l = v l) :
    RunsPredicate i h d v (fl (t.x s c slot h)) s c slot t :=
  ⟨_, e.trans (runTeam_plain w fun j => predResult_not_short _ _ _ _ _ _ j), hm⟩

theorem RunsPredicate.of_both {m : X → Mask} {fl : X → BitVec 5} {effR : XR → State → Res}
    (e : exec i s = runBoth i h noNeed noNeedM s (fun x s => predResult i x s d (m x) (fl x)) effR)
    (hm : ∀ l, l < 1024 → inMask (t.adm h) l = true → inMask (m (t.x s c slot h)) l = v l) :
    RunsPredicate i h d v (fl (t.x s c slot h)) s c slot t :=
  ⟨_, e.trans (runBoth_plain w fun j => predResult_not_short _ _ _ _ _ _ j), hm⟩

end

theorem predForm_runs {i : Instr} {h : Hdr} {d : PReg} {v : Nat → Bool} {fl : BitVec 5} {s : State} {c slot : Nat} {t : Team}
    (e : Claims.predForm (t.x s c slot h) i = some (h, d, v, fl)) (w : TeamIssues i h s c slot t) :
    RunsPredicate i h d v fl s c slot t := by
  unfold Claims.predForm at e
  split at e <;> cases e
  case h_1 => exact .of_both w rfl fun l hl _ => inMask_all _ l hl
  case h_2 | h_3 => exact .of_team w rfl fun l hl hm => inMask_maskOf_lanes _ hl hm
  case h_4 => exact .of_both w rfl fun l hl _ => inMask_repWord _ l hl
  case h_5 => exact .of_both w rfl fun l hl hm => inMask_maskOf_lanes _ hl hm
  case h_6 => exact .of_both w rfl fun l hl _ => rfl
  case h_7 => exact .of_both w rfl fun l hl hm => inMask_maskOf_lanes _ hl hm
  case h_8 => exact .of_both w rfl fun l hl hm => inMask_maskOf_lanes _ hl hm

theorem predFormM_runs {i : Instr} {h : Hdr} {d : PReg} {v : Bool} {s : State} {c : Nat} {r : Ridge}
    (e : Claims.predFormM r i = some (h, d, v)) (w : RidgeIssues i h s c r) :
    exec i s = .next (settleRidge i h s c r (if !(r.adm h) then .done s else predResultM i (r.x c h) s d v)) := by
  unfold Claims.predFormM at e
  split at e <;> cases e
  all_goals exact runBoth_plainM w

/-- Settles O5. -/
theorem predicateResults : Obligations.PredicateResults := by
  refine ⟨fun i h d v fl s c slot t e hs w => ?_, fun i h d v s c r e w => pred_doneM w.2.1 (predFormM_runs e w)⟩
  obtain ⟨m, hm, hv⟩ := predForm_runs e w
  obtain ⟨s', t', h₁, h₂, h₃, h₄, h₅, h₆, h₇⟩ := pred_done hs w.2.1 hm
  refine ⟨s', t', h₁, h₂, h₃, h₄, fun r l hl => (h₅ r l hl).trans ?_, h₆, h₇⟩
  by_cases hr : r = d ∧ d.val ≠ 0 ∧ inMask (t.adm h) l = true
  · rw [if_pos hr, if_pos hr, hv l hl hr.2.2]
  · rw [if_neg hr, if_neg hr]

end Sys2Proof.Proofs
end

section
/-! R141, R142: the arithmetic of elements, which the model does on integers, as arithmetic on bit vectors. -/

open Sys2Proof Sys2Proof.Machine

namespace Sys2Proof.Proofs

/-! Integers of a width and bit vectors. -/

theorem ITy.w_pos (ty : ITy) : 0 < ty.w := by cases ty <;> decide

theorem wrap_eq_ofInt (w : Nat) (v : Int) : wrap w v = (BitVec.ofInt w v).toNat := by
  rw [BitVec.toNat_ofInt, wrap]

theorem sgn_toNat {w : Nat} (x : BitVec w) : sgn w x.toNat = x.toInt := by
  have hx := x.isLt
  rw [sgn, Nat.mod_eq_of_lt hx, BitVec.toInt_eq_toNat_cond]
  cases w with
  | zero => simp at hx; simp [hx]
  | succ w =>
    rw [Nat.add_sub_cancel, Nat.pow_succ]
    split <;> split <;> omega

theorem asInt_toNat (ty : ITy) (x : BitVec ty.w) : asInt ty x.toNat = if ty.signed then x.toInt else (x.toNat : Int) := by
  rw [asInt, sgn_toNat]

/-- A value of a type taken back to its width is the element. -/
theorem ofInt_asInt (ty : ITy) (x : BitVec ty.w) : BitVec.ofInt ty.w (asInt ty x.toNat) = x := by
  rw [asInt_toNat]
  split
  · exact BitVec.ofInt_toInt
  · rw [BitVec.ofInt_natCast, BitVec.ofNat_toNat, BitVec.setWidth_eq]

theorem asInt_lt_iff (ty : ITy) (x y : BitVec ty.w) :
    asInt ty x.toNat < asInt ty y.toNat ↔ (if ty.signed then x.slt y else x.ult y) = true := by
  rw [asInt_toNat, asInt_toNat]
  split
  · rw [BitVec.slt_iff_toInt_lt]
  · rw [BitVec.ult_iff_lt, BitVec.lt_def]
    exact Int.ofNat_lt

theorem asInt_le_iff (ty : ITy) (x y : BitVec ty.w) :
    asInt ty x.toNat ≤ asInt ty y.toNat ↔ (if ty.signed then x.sle y else x.ule y) = true := by
  rw [asInt_toNat, asInt_toNat]
  split
  · rw [BitVec.sle_iff_toInt_le]
  · rw [BitVec.ule_iff_le, BitVec.le_def]
    exact Int.ofNat_le

theorem asInt_inj (ty : ITy) (x y : BitVec ty.w) : asInt ty x.toNat = asInt ty y.toNat ↔ x = y :=
  ⟨fun h => by rw [← ofInt_asInt ty x, h, ofInt_asInt], fun h => by rw [h]⟩

/-- The comparisons (R145). -/
theorem cmpOp_eq_bvCmp (c : ICond) (ty : ITy) (x y : BitVec ty.w) : cmpOp c ty x.toNat y.toNat = Claims.bvCmp c ty.signed ty.w x y := by
  apply Bool.eq_iff_iff.mpr
  cases c with
  | eq => exact beq_iff_eq.trans ((asInt_inj ty x y).trans beq_iff_eq.symm)
  | ne => exact bne_iff_ne.trans ((asInt_inj ty x y).not.trans bne_iff_ne.symm)
  | lt => exact decide_eq_true_iff.trans (asInt_lt_iff ty x y)
  | le => exact decide_eq_true_iff.trans (asInt_le_iff ty x y)
  | gt => exact decide_eq_true_iff.trans (asInt_lt_iff ty y x)
  | ge => exact decide_eq_true_iff.trans (asInt_le_iff ty y x)

/-! Operations without saturation. -/

theorem emod_mul_self_ediv (p : Int) {b : Int} (hb : 0 < b) : p % (b * b) / b % b = p / b % b := by
  have e : p / b = p % (b * b) / b + p / (b * b) * b := by
    conv_lhs => rw [← Int.emod_add_mul_ediv p (b * b), show b * b * (p / (b * b)) = p / (b * b) * b * b by ring]
    exact Int.add_mul_ediv_right _ _ hb.ne'
  rw [e, Int.add_mul_emod_self_right]

/-- The upper half of a product of double width. -/
theorem extractLsb'_ofInt_double (w : Nat) (p : Int) : (BitVec.ofInt (2 * w) p).extractLsb' w w = BitVec.ofInt w (p / (2 ^ w : Nat)) := by
  apply BitVec.eq_of_toNat_eq
  have hb : (0 : Int) < (2 ^ w : Nat) := by positivity
  have hm : (0 : Int) ≤ p % (2 ^ (2 * w) : Nat) := Int.emod_nonneg _ (by positivity)
  rw [BitVec.extractLsb'_toNat, BitVec.toNat_ofInt, BitVec.toNat_ofInt, Nat.shiftRight_eq_div_pow]
  apply Int.ofNat_inj.mp
  rw [Int.toNat_of_nonneg (Int.emod_nonneg _ hb.ne'), Int.natCast_mod, Int.natCast_ediv, Int.toNat_of_nonneg hm, two_mul, Nat.pow_add,
    Int.natCast_mul]
  exact emod_mul_self_ediv p hb

theorem ofInt_mulh (ty : ITy) (x y z : BitVec ty.w) :
    BitVec.ofInt ty.w (asInt ty x.toNat * asInt ty y.toNat / (2 ^ ty.w : Nat)) = Claims.bvOp .mulh ty.signed ty.w x y z := by
  rw [← extractLsb'_ofInt_double, BitVec.ofInt_mul, asInt_toNat, asInt_toNat]
  cases ty.signed with
  | true => rfl
  | false => simp only [Claims.bvOp, Bool.false_eq_true, if_false, BitVec.ofInt_natCast, BitVec.ofNat_toNat]

/-- A shift by the width or more leaves the sign alone (R141). -/
theorem sshiftRight_min {w : Nat} (x : BitVec w) (n : Nat) : x.sshiftRight (min n w) = x.sshiftRight n := by
  by_cases h : n ≤ w
  · rw [Nat.min_eq_left h]
  · rw [Nat.min_eq_right (by omega)]
    apply BitVec.eq_of_getLsbD_eq
    intro i hi
    simp only [BitVec.getLsbD_sshiftRight, show ¬ w + i < w by omega, show ¬ n + i < w by omega, if_false]

theorem ofInt_sar {w : Nat} (x : BitVec w) (n : Nat) : BitVec.ofInt w (x.toInt / (2 ^ min n w : Nat)) = x.sshiftRight n := by
  rw [← sshiftRight_min, BitVec.sshiftRight_eq, Int.shiftRight_eq_div_pow]

theorem ofInt_exactOp (o : IOp) (ty : ITy) (x y z : BitVec ty.w) :
    BitVec.ofInt ty.w (exactOp o ty x.toNat y.toNat z.toNat) = Claims.bvOp o ty.signed ty.w x y z := by
  cases o with
  | add => simp only [exactOp, Claims.bvOp, BitVec.ofInt_add, ofInt_asInt]
  | sub => simp only [exactOp, Claims.bvOp, Int.sub_eq_add_neg, BitVec.ofInt_add, BitVec.ofInt_neg, ofInt_asInt, BitVec.sub_eq_add_neg]
  | mul => simp only [exactOp, Claims.bvOp, BitVec.ofInt_mul, ofInt_asInt]
  | mulh => exact ofInt_mulh ty x y z
  | mad => simp only [exactOp, Claims.bvOp, BitVec.ofInt_mul, BitVec.ofInt_add, ofInt_asInt]
  | and => simp only [exactOp, Claims.bvOp, BitVec.ofInt_natCast, ← BitVec.toNat_and, BitVec.ofNat_toNat, BitVec.setWidth_eq]
  | or => simp only [exactOp, Claims.bvOp, BitVec.ofInt_natCast, ← BitVec.toNat_or, BitVec.ofNat_toNat, BitVec.setWidth_eq]
  | xor => simp only [exactOp, Claims.bvOp, BitVec.ofInt_natCast, ← BitVec.toNat_xor, BitVec.ofNat_toNat, BitVec.setWidth_eq]
  | shl =>
    simp only [exactOp, Claims.bvOp]
    split
    · next h => rw [BitVec.shiftLeft_eq_zero h]; rfl
    · apply BitVec.eq_of_toNat_eq
      rw [BitVec.ofInt_natCast, BitVec.toNat_ofNat, BitVec.toNat_shiftLeft, Nat.shiftLeft_eq]
  | shr =>
    simp only [exactOp, Claims.bvOp]
    split
    · next h => rw [BitVec.ushiftRight_eq_zero h]; rfl
    · apply BitVec.eq_of_toNat_eq
      rw [BitVec.ofInt_natCast, BitVec.toNat_ofNat, BitVec.toNat_ushiftRight, Nat.shiftRight_eq_div_pow]
      exact Nat.mod_eq_of_lt ((Nat.div_le_self ..).trans_lt x.isLt)
  | sar => simp only [exactOp, Claims.bvOp, sgn_toNat, ofInt_sar]
  | min =>
    simp only [exactOp, Claims.bvOp, ← asInt_lt_iff]
    split
    · next h => rw [min_eq_left h.le, ofInt_asInt]
    · next h => rw [min_eq_right (not_lt.mp h), ofInt_asInt]
  | max =>
    simp only [exactOp, Claims.bvOp, ← asInt_lt_iff]
    split
    · next h => rw [max_eq_right h.le, ofInt_asInt]
    · next h => rw [max_eq_left (not_lt.mp h), ofInt_asInt]

theorem elemOp_eq_bvOp (o : IOp) (ty : ITy) (x y z : BitVec ty.w) :
    elemOp o ty false x.toNat y.toNat z.toNat = (Claims.bvOp o ty.signed ty.w x y z).toNat := by
  rw [← ofInt_exactOp, ← wrap_eq_ofInt]
  rfl

/-! Saturation (R142). -/

/-- A sum or difference of a signed type, brought into its range. -/
theorem toInt_elemOp_sat {o : IOp} {ty : ITy} (hs : ty.signed = true) (x y : BitVec ty.w) (z : Nat) :
    (BitVec.ofNat ty.w (elemOp o ty true x.toNat y.toNat z)).toInt =
      max (-(2 ^ (ty.w - 1))) (min (2 ^ (ty.w - 1) - 1) (exactOp o ty x.toNat y.toNat z)) := by
  have hp : (0 : Int) < 2 ^ (ty.w - 1) := by positivity
  simp only [elemOp, hs, if_true, wrap_eq_ofInt, BitVec.ofNat_toNat, BitVec.setWidth_eq, Nat.cast_pow, Nat.cast_ofNat]
  generalize exactOp o ty x.toNat y.toNat z = v
  rw [BitVec.toInt_ofInt_eq_self (ITy.w_pos ty) (by omega) (by omega)]
  omega

/-- One of an unsigned type. -/
theorem elemOp_sat_unsigned {o : IOp} {ty : ITy} (hs : ty.signed = false) (x y z : Nat) :
    (elemOp o ty true x y z : Int) = min (max (exactOp o ty x y z) 0) (2 ^ ty.w - 1) := by
  have hp : (0 : Int) < 2 ^ ty.w := by positivity
  simp only [elemOp, hs, if_true, Bool.false_eq_true, if_false, wrap, Nat.cast_pow, Nat.cast_ofNat]
  rw [Int.emod_eq_of_lt (by omega) (by omega), Int.toNat_of_nonneg (by omega)]

/-- Settles O24. -/
theorem elementArithmetic : Obligations.ElementArithmetic := by
  refine ⟨elemOp_eq_bvOp, fun ty x y z hs => ⟨?_, ?_⟩, fun ty x y z hs => ⟨?_, ?_⟩, cmpOp_eq_bvCmp⟩
  · rw [toInt_elemOp_sat hs, exactOp, asInt_toNat, asInt_toNat, if_pos hs, if_pos hs]
  · rw [toInt_elemOp_sat hs, exactOp, asInt_toNat, asInt_toNat, if_pos hs, if_pos hs]
  · have e := elemOp_sat_unsigned (o := .add) hs x.toNat y.toNat z
    simp only [exactOp, asInt, hs, Bool.false_eq_true, if_false] at e
    have hp : 0 < 2 ^ ty.w := by positivity
    generalize hw : 2 ^ ty.w = p at hp ⊢
    rw [show (2 : Int) ^ ty.w = p by rw [← hw]; norm_cast] at e
    omega
  · have e := elemOp_sat_unsigned (o := .sub) hs x.toNat y.toNat z
    simp only [exactOp, asInt, hs, Bool.false_eq_true, if_false] at e
    have hx := x.isLt
    generalize hw : 2 ^ ty.w = p at hx
    rw [show (2 : Int) ^ ty.w = p by rw [← hw]; norm_cast] at e
    omega

end Sys2Proof.Proofs
end

section
/-! R101, R146: VADDC, which leaves a vector and a predicate result, and a VMOV between vector registers, which shares slices. -/

open Sys2Proof Sys2Proof.Machine

namespace Sys2Proof.Proofs

/-! What a vector result leaves of the package. -/

/-- A vector result of a team that has slices for every pass, as a state: its team, its frame and its lanes. -/
theorem vecResult_done (i : Instr) (h : Hdr) (s : State) (c slot : Nat) (t : Team) (d : VReg) (n : Nat) (f : Nat → Nat) (fl : Nat → BitVec 5)
    (fit : FitsTable i n) (hs : slot < 16) (ht : s.team? c slot = some t) (ok : s.stashOk = true) (hn : lackedOf s i h c slot t d n f fl = none) :
    ∃ m t', vecResult i (t.x s c slot h) s d n f fl = .done m ∧ m.team? c slot = some t' ∧ TeamFrame s m c slot ∧
      t' = { t with vmap := t'.vmap, shadows := t'.shadows } ∧
      (∀ k l, k < n → l < 1024 → inMask (t.adm h) l = true →
        m.vreg c slot (vregAt d k) l = laneResult s i (t.x s c slot h) d n f fl k l) ∧
      (∀ r l, l < 1024 → (inMask (t.adm h) l = false ∨ ∀ k, k < n → r ≠ vregAt d k) → m.vreg c slot r l = s.vreg c slot r l) ∧
      t'.flagsDue = missFlags s i (t.x s c slot h) d n f fl t.flagsDue := by
  obtain ⟨hn2, hn0, he⟩ := fit
  obtain ⟨m, t', e, hm, hrest, hteams, hcores, ⟨-, hgrown, hcore, hteam⟩, hv, hu, hf⟩ :=
    vecResult_spec i (t.x s c slot h) s d n f fl hn2 hn0 he ht (State.stashOk.pair ok ht hs) hn
  have hc : (t.x s c slot h).c = c := rfl
  have hmem : m.mem = s.mem := by rw [hrest]
  refine ⟨m, t', e, hm, ⟨hteams, fun k hk hne r l => ?_, hcores, ?_, by rw [hrest], fun a => by rw [State.memGet, hmem]; rfl⟩, hteam, hv, hu, hf⟩
  · have same : m.team? c k = s.team? c k := hteams _ (by show tkey c k ≠ tkey c slot; unfold tkey; omega)
    cases hk' : s.team? c k with
    | none => simp only [State.vreg, same, hk']
    | some t2 => exact vreg_other ok hk hk' (same.trans hk') hgrown r l
  · rw [hc] at hcore
    simpa using hcore

/-! An instruction that the value table does not take (R90). -/

theorem vecPass_hits {i : Instr} (he : eligible i = false) (x : X) (lat stamp now : Nat) (d : VReg) (n : Nat) (f : Nat → Nat)
    (fl : Nat → BitVec 5) (a : Acc2) (j : Nat) : (vecPass i x lat stamp now d n f fl a j).hits = a.hits := by
  have hk : passKey i x j = none := by simp [passKey, he]
  simp only [vecPass, hk]
  split <;> rfl

theorem vecRun_hits {i : Instr} (he : eligible i = false) (x : X) (s : State) (d : VReg) (n : Nat) (f : Nat → Nat) (fl : Nat → BitVec 5) :
    (vecRun i x s d n f fl).hits = [] := by
  have hfold (js : List Nat) (a : Acc2) (lat stamp now : Nat) :
      (js.foldl (vecPass i x lat stamp now d n f fl) a).hits = a.hits := by
    induction js generalizing a with
    | nil => rfl
    | cons j js ih => exact (ih _).trans (vecPass_hits he ..)
  exact hfold ..

theorem laneResult_of_not_eligible {i : Instr} (he : eligible i = false) (s : State) (x : X) (d : VReg) (n : Nat) (f : Nat → Nat)
    (fl : Nat → BitVec 5) (k l : Nat) : laneResult s i x d n f fl k l = regOf (f l) k := by
  rw [laneResult, vecRun_hits he]
  rfl

theorem needs_of_not_eligible {i : Instr} (he : eligible i = false) (s : State) (x : X) (d : VReg) (n : Nat) (f : Nat → Nat)
    (fl : Nat → BitVec 5) (js : List Nat) : (vecRun i x s d n f fl).needs n js = js.map fun j => (j, n) := by
  rw [Acc2.needs, vecRun_hits he]
  rfl

theorem regOf_wrap (v : Int) : regOf (wrap 32 v) 0 = BitVec.ofInt 32 v := by
  rw [regOf, wrap_eq_ofInt, Nat.mul_zero, Nat.pow_zero, Nat.div_one, BitVec.ofNat_toNat, BitVec.setWidth_eq]

/-! VADDC (R146). -/

/-- A predicate result of a team that the instruction has already changed. -/
theorem predResult_again (i : Instr) (x : X) (s : State) (d : PReg) (v : Mask) (fl : BitVec 5) {t : Team}
    (ht : s.team? x.c x.slot = some t) :
    ∃ t', predResult i x s d v fl = .done (s.setTeam x.c x.slot t') ∧
      t' = { t with preg := t'.preg, shadows := t'.shadows } ∧
      (∀ r, t'.rp r = if r = d ∧ d.val ≠ 0 then blend x.adm (t.rp d) v else t.rp r) ∧ t'.flagsDue = t.flagsDue ||| fl := by
  unfold predResult
  simp only [ht, Option.getD_some]
  refine ⟨_, rfl, ?_, fun r => Team.rp_wp t d r x.adm v, ?_⟩
  · rw [Team.wp_frame]
  · rw [← Team.wp_flags t d x.adm v]
    exact flagsDue_add (t.wp d x.adm v) _
      ⟨.pred d.val, (iLatency i).getD 1, t.rp d, x.adm, fl, none, false, 0, s.cycle + x.span i - 1 + (iLatency i).getD 1⟩ rfl rfl rfl

/-- The sum or difference of a lane with the carry it reads. -/
def carrySum (x : Src) (a b : VS) (p : PReg) (sub : Bool) (l : Nat) : Int :=
  if sub then (x.num false a l : Int) - x.num false b l - bit (inMask (x.team.rp p) l)
  else x.num false a l + x.num false b l + bit (inMask (x.team.rp p) l)

/-- The carry out of a lane. -/
def carryOut (x : Src) (a b : VS) (p : PReg) (sub : Bool) (l : Nat) : Bool :=
  if sub then decide (carrySum x a b p sub l < 0) else decide (2 ^ 32 ≤ carrySum x a b p sub l)

/-- The effect of VADDC. -/
def vaddcEffect (h : Hdr) (d : VReg) (a b : VS) (p : PReg) (sub : Bool) (x : X) (s : State) : Res :=
  match vecOut (.vaddc h d a b p sub) x s d 1 fun l => wrap 32 (carrySum x.src a b p sub l) with
  | .done s => predResult (.vaddc h d a b p sub) x s p (maskOf (lanes x.adm) (carryOut x.src a b p sub)) 0
  | r => r

theorem exec_vaddc (h : Hdr) (d : VReg) (a b : VS) (p : PReg) (sub : Bool) (s : State) :
    exec (.vaddc h d a b p sub) s = runTeam (.vaddc h d a b p sub) h noNeed s (vaddcEffect h d a b p sub) := rfl

theorem vregAt_zero (d : VReg) : vregAt d 0 = d := Fin.ext (by simp [vregAt, Nat.mod_eq_of_lt])

/-- What VADDC leaves (R146). -/
theorem vaddc_done (h : Hdr) (d : VReg) (a b : VS) (p : PReg) (sub : Bool) (s : State) (c slot : Nat) (t : Team) (hs : slot < 16)
    (ok : s.stashOk = true) (w : TeamIssues (.vaddc h d a b p sub) h s c slot t)
    (hn : s.lacking c t 0 ((passes (t.adm h)).map fun j => (j, 1)) = none) :
    ∃ s' t', exec (.vaddc h d a b p sub) s = .next s' ∧ s'.team? c slot = some t' ∧ TeamFrame s s' c slot ∧
      t' = { t with pc := (s.nextOf c t).1, atHdr := (s.nextOf c t).2, wait := none, vmap := t'.vmap, preg := t'.preg,
                    shadows := t'.shadows } ∧
      (∀ r l, l < 1024 → s'.vreg c slot r l =
        if r = d ∧ inMask (t.adm h) l = true then BitVec.ofInt 32 (carrySum ⟨s.core c, t, []⟩ a b p sub l) else s.vreg c slot r l) ∧
      (∀ r l, l < 1024 → inMask (t'.rp r) l =
        if r = p ∧ p.val ≠ 0 ∧ inMask (t.adm h) l = true then carryOut ⟨s.core c, t, []⟩ a b p sub l else inMask (t.rp r) l) ∧
      t'.flagsDue = t.flagsDue := by
  have he : eligible (.vaddc h d a b p sub) = false := rfl
  have hx : (t.x s c slot h).src = ⟨s.core c, t, []⟩ := rfl
  obtain ⟨m, t₁, hvec, hm, frame, hteam, hlanes, hother, hflags⟩ := vecResult_done (.vaddc h d a b p sub) h s c slot t d 1
    (fun l => wrap 32 (carrySum ⟨s.core c, t, []⟩ a b p sub l)) (fun _ => 0) ⟨by omega, by omega, .inl rfl⟩ hs w.2.1 ok
    (by rw [lackedOf, needs_of_not_eligible he]; exact hn)
  obtain ⟨t₂, hpred, hteam₂, hrp, hflags₂⟩ := predResult_again (.vaddc h d a b p sub) (t.x s c slot h) m p
    (maskOf (lanes (t.adm h)) (carryOut ⟨s.core c, t, []⟩ a b p sub)) 0 hm
  have heff : vaddcEffect h d a b p sub (t.x s c slot h) s = .done (m.setTeam c slot t₂) := by
    rw [vaddcEffect, hx, vecOut, hvec]
    exact hpred
  have e := (exec_vaddc h d a b p sub s).trans (runTeam_plain w (by rw [heff]; exact fun _ => Res.noConfusion))
  rw [heff] at e
  have hm₂ : (m.setTeam c slot t₂).team? c slot = some t₂ := State.team_setTeam_same ..
  obtain ⟨t', ht', hteam', hflags', frame', hv'⟩ :=
    (settleTeam_done (i := .vaddc h d a b p sub) (h := h) (s := s) (t := t) hm₂).spec hm₂ hs
  have hv (r : VReg) (l : Nat) : State.vreg (settleTeam (.vaddc h d a b p sub) h s c slot t (.done (m.setTeam c slot t₂))) c slot r l =
      m.vreg c slot r l := by
    rw [hv', State.vreg, State.vreg, hm, hm₂, hteam₂]
    rfl
  refine ⟨_, t', e, ht', frame.trans ((TeamFrame.setTeam m c slot t₂ hs).trans frame'), ?_, fun r l hl => ?_, fun r l hl => ?_, ?_⟩
  · rw [hteam', hteam₂, hteam]
  · rw [hv]
    by_cases hr : r = d ∧ inMask (t.adm h) l = true
    · obtain ⟨rfl, hl'⟩ := hr
      rw [if_pos ⟨rfl, hl'⟩]
      have hval := hlanes 0 l (by omega) hl hl'
      rwa [vregAt_zero, laneResult_of_not_eligible he, regOf_wrap] at hval
    · rw [if_neg hr]
      refine hother r l hl ?_
      by_cases hd : r = d
      · exact .inl (by simpa [hd] using hr)
      · exact .inr fun k hk => by rwa [show k = 0 by omega, vregAt_zero]
  · have hrp' : t'.rp r = t₂.rp r := by rw [hteam']; rfl
    have hrp₁ (q : PReg) : t₁.rp q = t.rp q := by rw [hteam]; rfl
    rw [hrp', hrp r]
    by_cases hd : r = p ∧ p.val ≠ 0
    · obtain ⟨rfl, hp⟩ := hd
      rw [if_pos ⟨rfl, hp⟩, hrp₁, inMask_blend _ _ _ _ hl, show (t.x s c slot h).adm = t.adm h from rfl]
      by_cases hl' : inMask (t.adm h) l = true
      · rw [if_pos hl', if_pos ⟨rfl, hp, hl'⟩, inMask_maskOf_lanes _ hl hl']
      · rw [if_neg hl', if_neg fun g => hl' g.2.2]
    · rw [if_neg hd, if_neg fun g => hd ⟨g.1, g.2.1⟩, hrp₁]
  · rw [hflags', hflags₂, hflags, missFlags_zero]
    exact BitVec.or_zero

/-! VMOV between vector registers (R101). -/

/-- Some steps, each of which gives the lanes of its own region a value that the lane alone decides, and keeps every other lane. -/
theorem lanes_foldl {α : Type} {a : Core × Team} {step : Core × Team → α → Core × Team} {region : α → Nat → Nat → Nat → Prop}
    {value : Nat → Nat → Nat → W32} (js : List α)
    (hstep : ∀ j ∈ js, ∀ b, Grown a b → Grown b (step b j) ∧ (step b j).2.flagsDue = b.2.flagsDue ∧
      ∀ r i l, i < 32 → l < 32 → (region j r i l → laneAt (step b j) r i l = value r i l) ∧
        (¬ region j r i l → laneAt (step b j) r i l = laneAt b r i l)) :
    ∀ b, Grown a b → Grown b (js.foldl step b) ∧ (js.foldl step b).2.flagsDue = b.2.flagsDue ∧
      ∀ r i l, i < 32 → l < 32 → ((∃ j ∈ js, region j r i l) → laneAt (js.foldl step b) r i l = value r i l) ∧
        ((∀ j ∈ js, ¬ region j r i l) → laneAt (js.foldl step b) r i l = laneAt b r i l) := by
  induction js with
  | nil => exact fun b g => ⟨.refl g.1, rfl, fun r i l _ _ => ⟨fun h => by simp at h, fun _ => rfl⟩⟩
  | cons j js ih =>
    intro b g
    obtain ⟨gj, fj, vj⟩ := hstep j (by simp) b g
    obtain ⟨gs, fs, vs⟩ := ih (fun j hj => hstep j (by simp [hj])) (step b j) (g.trans gj)
    refine ⟨gj.trans gs, fs.trans fj, fun r i l hi hl => ⟨?_, fun hn => ?_⟩⟩
    · rintro ⟨k, hk, hr⟩
      by_cases hjs : ∃ j ∈ js, region j r i l
      · exact (vs r i l hi hl).1 hjs
      · have hkj : k = j := (List.mem_cons.mp hk).resolve_right fun hk => hjs ⟨k, hk, hr⟩
        exact ((vs r i l hi hl).2 fun j hj h => hjs ⟨j, hj, h⟩).trans ((vj r i l hi hl).1 (hkj ▸ hr))
    · exact ((vs r i l hi hl).2 fun j hj => hn j (by simp [hj])).trans ((vj r i l hi hl).2 (hn j (by simp)))

/-- One register of one pass of the move. -/
def vmovReg (x : X) (due : Nat) (d a : VReg) (j : Nat) (ct : Core × Team) (k : Nat) : Core × Team :=
  let w := maskWord x.adm j
  let sl := x.src.team.slice (vregAt a k).val j
  if fullPass x.adm j && !x.h.fresh && sl < 4096 then
    let t := ct.2.pointOver (vregAt d k).val j sl w
    let sh : Shadow := ⟨.entry (vregAt d k).val j, 2, ct.1.data (ct.2.slice (vregAt d k).val j), w.zeroExtend 1024, 0, none, false, 0, due⟩
    (ct.1, { t with shadows := t.shadows ++ [sh] })
  else
    passReg 2 due (vregAt d k) j w
      (gatherLanes 0 (((List.range 32).filter fun l => w.getLsbD l).map fun l => (l, (x.src.v a k (32 * j + l)).toNat))) 0 none ct

theorem vmovPass_eq (x : X) (now : Nat) (d a : VReg) (n : Nat) (acc : Core × Team) (j : Nat) (hw : maskWord x.adm j ≠ 0) :
    vmovPass x now d a n acc j = (List.range n).foldl (vmovReg x (now + x.passNo j + 2) d a j) acc := by
  rw [vmovPass, if_neg hw]
  rfl

/-- A slice that a team in order names may be shared with another of its registers. -/
theorem grown_point {b : Core × Team} (ok : PairOk b) (r j sl : Nat) (w : W32) (sh : Shadow) (hsl : sl = 0 ∨ (b.1.phys.find sl).isSome = true) :
    Grown b (b.1, { b.2.pointOver r j sl w with shadows := (b.2.pointOver r j sl w).shadows ++ [sh] }) := by
  refine ⟨⟨ok.1, fun e he => ?_, ok.2.2⟩, fun _ _ h => h, rfl, rfl⟩
  simp only [Team.pointOver, Team.point, Tbl.set] at he
  split at he
  · exact ok.2.1 e (List.mem_filter.mp he).1
  · rcases Tbl.mem_put he with rfl | he
    · exact hsl
    · exact ok.2.1 e he

/-- A slice that a pair in order names holds what it held. -/
theorem grown_data_of_named {a b : Core × Team} (g : Grown a b) {n : Nat}
    (h : n = 0 ∨ (a.1.phys.find n).isSome = true) : b.1.data n = a.1.data n := by
  rcases h with rfl | h
  · rfl
  · exact g.data h

/-- The lanes that a partial pass copies are those of the source register. -/
theorem laneOf_gather_v (x : X) (a : VReg) (k j : Nat) (w : W32) {l : Nat} (hl : l < 32) (hw : w.getLsbD l = true) :
    laneOf (gatherLanes 0 (((List.range 32).filter fun l => w.getLsbD l).map fun l => (l, (x.src.v a k (32 * j + l)).toNat))) l =
      laneAt (x.src.core, x.src.team) (vregAt a k).val j l := by
  rw [laneOf_gather 0 _ (fun l => (x.src.v a k (32 * j + l)).toNat) l hl (by simp [hl, hw]), regOf, Nat.mul_zero, Nat.pow_zero, Nat.div_one,
    BitVec.ofNat_toNat, BitVec.setWidth_eq, Src.v, readV, show (32 * j + l) / 32 = j by omega, show (32 * j + l) % 32 = l by omega, laneAt]

/-- What one register of one pass of the move leaves: its admitted lanes read as the source's did when the instruction issued. -/
theorem vmovReg_spec {x : X} {due : Nat} {d a : VReg} {j k : Nat} (hj : j < 32) (ok : PairOk (x.src.core, x.src.team))
    (b : Core × Team) (g : Grown (x.src.core, x.src.team) b) :
    Grown b (vmovReg x due d a j b k) ∧ (vmovReg x due d a j b k).2.flagsDue = b.2.flagsDue ∧
    ∀ r i l, i < 32 → l < 32 → laneAt (vmovReg x due d a j b k) r i l =
      if r = (vregAt d k).val ∧ i = j ∧ (maskWord x.adm j).getLsbD l = true then laneAt (x.src.core, x.src.team) (vregAt a k).val j l
      else laneAt b r i l := by
  unfold vmovReg
  extract_lets w sl t sh
  split
  · next hfull =>
    simp only [Bool.and_eq_true, fullPass, beq_iff_eq] at hfull
    have hsl : sl = 0 ∨ (b.1.phys.find sl).isSome = true := (ok.slice (vregAt a k).val j).imp id g.named
    refine ⟨grown_point g.1 _ _ _ _ _ hsl, ?_, fun r i l hi hl => ?_⟩
    · exact (flagsDue_add t { t with shadows := t.shadows ++ [sh] } sh rfl rfl rfl).trans (BitVec.or_zero.trans (flags_cover ..))
    · have hs : Team.slice { t with shadows := t.shadows ++ [sh] } r i = if mkey r i = mkey (vregAt d k).val j then sl else b.2.slice r i :=
        Team.slice_point ..
      unfold laneAt
      rw [hs]
      by_cases he : r = (vregAt d k).val ∧ i = j
      · obtain ⟨rfl, rfl⟩ := he
        rw [if_pos rfl, if_pos ⟨rfl, rfl, by rw [hfull.1.1, BitVec.getLsbD_allOnes, decide_eq_true hl]⟩, grown_data_of_named g (ok.slice ..)]
      · rw [if_neg fun h => he (mkey_inj hi hj h), if_neg fun h => he ⟨h.1, h.2.1⟩]
  · obtain ⟨g', v⟩ := passReg_spec g.1 2 due (vregAt d k) j hj w
      (gatherLanes 0 (((List.range 32).filter fun l => w.getLsbD l).map fun l => (l, (x.src.v a k (32 * j + l)).toNat))) 0 none
    refine ⟨g', (passReg_flags ..).trans BitVec.or_zero, fun r i l hi hl => (v r i l hi hl).trans ?_⟩
    split
    · next h => exact laneOf_gather_v x a k j w hl h.2.2
    · rfl

/-- What one pass of the move leaves. -/
theorem vmovPass_spec {x : X} {now : Nat} {d a : VReg} {n : Nat} (hn : n = 1 ∨ n = 2) {j : Nat} (hj : j < 32)
    (ok : PairOk (x.src.core, x.src.team)) (b : Core × Team) (g : Grown (x.src.core, x.src.team) b) :
    Grown b (vmovPass x now d a n b j) ∧ (vmovPass x now d a n b j).2.flagsDue = b.2.flagsDue ∧
    ∀ r i l, i < 32 → l < 32 →
      ((i = j ∧ (maskWord x.adm j).getLsbD l = true ∧ ∃ k, k < n ∧ r = (vregAt d k).val) →
        laneAt (vmovPass x now d a n b j) r i l =
          laneAt (x.src.core, x.src.team) (vregAt a (if r = (vregAt d 0).val then 0 else 1)).val i l) ∧
      (¬ (i = j ∧ (maskWord x.adm j).getLsbD l = true ∧ ∃ k, k < n ∧ r = (vregAt d k).val) →
        laneAt (vmovPass x now d a n b j) r i l = laneAt b r i l) := by
  by_cases hw : maskWord x.adm j = 0
  · rw [vmovPass, if_pos hw]
    refine ⟨.refl g.1, rfl, fun r i l _ _ => ⟨fun h => ?_, fun _ => rfl⟩⟩
    rw [hw] at h
    simp at h
  rw [vmovPass_eq _ _ _ _ _ _ _ hw]
  have key := lanes_foldl (a := (x.src.core, x.src.team)) (step := vmovReg x (now + x.passNo j + 2) d a j)
    (region := fun k r i l => r = (vregAt d k).val ∧ i = j ∧ (maskWord x.adm j).getLsbD l = true)
    (value := fun r i l => laneAt (x.src.core, x.src.team) (vregAt a (if r = (vregAt d 0).val then 0 else 1)).val i l) (List.range n)
    (fun k hk b g => ?_) b g
  · obtain ⟨g', f', v⟩ := key
    refine ⟨g', f', fun r i l hi hl => ⟨fun ⟨hi', hb, k, hk, hr⟩ => (v r i l hi hl).1 ⟨k, List.mem_range.mpr hk, hr, hi', hb⟩, fun h => ?_⟩⟩
    exact (v r i l hi hl).2 fun k hk hr => h ⟨hr.2.1, hr.2.2, k, List.mem_range.mp hk, hr.1⟩
  · obtain ⟨g', f', v⟩ := vmovReg_spec (due := now + x.passNo j + 2) (d := d) (a := a) (k := k) hj ok b g
    refine ⟨g', f', fun r i l hi hl => ⟨fun h => ?_, fun h => (v r i l hi hl).trans (if_neg h)⟩⟩
    rw [v r i l hi hl, if_pos h]
    obtain ⟨rfl, rfl, -⟩ := h
    have hk : k < n := List.mem_range.mp hk
    have hkd : (if (vregAt d k).val = (vregAt d 0).val then 0 else 1) = k := by
      unfold vregAt
      simp only
      split <;> omega
    rw [hkd]

/-- A state in which the team in a slot and the Stash of its core have grown. -/
theorem teamFrame_of_grown {s : State} {c slot : Nat} {t : Team} {ct : Core × Team} (g : Grown (s.core c, t) ct) (hs : slot < 16)
    (ok : s.stashOk = true) : TeamFrame s ((s.setCore c ct.1).setTeam c slot ct.2) c slot := by
  obtain ⟨-, hgrown, hcore, -⟩ := g
  have hc : ((s.setCore c ct.1).setTeam c slot ct.2).core c = ct.1 := by simp [State.core_setCore]
  refine ⟨fun k hk => by simp [State.setTeam, Tbl.find_put_of_ne _ _ hk], fun k hk hne r l => ?_,
    fun d hd => by simp [State.core_setCore, hd], ?_, by simp only [State.setTeam, State.setCore], fun a => rfl⟩
  · have same : ((s.setCore c ct.1).setTeam c slot ct.2).team? c k = s.team? c k :=
      Tbl.find_put_of_ne _ _ (by unfold tkey; omega)
    cases hk' : s.team? c k with
    | none => simp only [State.vreg, same, hk']
    | some t2 => exact vreg_other ok hk hk' (same.trans hk') (fun n p h => by rw [hc]; exact hgrown n p h) r l
  · rw [hc]
    exact hcore

/-- The move as a whole. -/
theorem vmovPasses_spec (h : Hdr) (s : State) (c slot : Nat) (t : Team) (d a : VReg) {n : Nat} (hn : n = 1 ∨ n = 2)
    (ok : PairOk (s.core c, t)) :
    let ct := (passes (t.adm h)).foldl (vmovPass (t.x s c slot h) s.cycle d a n) (s.core c, t)
    Grown (s.core c, t) ct ∧ ct.2.flagsDue = t.flagsDue ∧
    (∀ k l, k < n → l < 1024 → inMask (t.adm h) l = true →
      laneAt ct (vregAt d k).val (l / 32) (l % 32) = laneAt (s.core c, t) (vregAt a k).val (l / 32) (l % 32)) ∧
    ∀ (r : VReg) l, l < 1024 → (inMask (t.adm h) l = false ∨ ∀ k, k < n → r ≠ vregAt d k) →
      laneAt ct r.val (l / 32) (l % 32) = laneAt (s.core c, t) r.val (l / 32) (l % 32) := by
  obtain ⟨g, f, v⟩ := lanes_foldl (a := (s.core c, t)) (step := vmovPass (t.x s c slot h) s.cycle d a n)
    (region := fun j r i l => i = j ∧ (maskWord (t.adm h) j).getLsbD l = true ∧ ∃ k, k < n ∧ r = (vregAt d k).val)
    (value := fun r i l => laneAt (s.core c, t) (vregAt a (if r = (vregAt d 0).val then 0 else 1)).val i l) (passes (t.adm h))
    (fun j hj b g => vmovPass_spec hn (passes_word hj).1 ok b g) _ (Grown.refl ok)
  have word (l : Nat) : (maskWord (t.adm h) (l / 32)).getLsbD (l % 32) = inMask (t.adm h) l := by
    rw [maskWord_bit _ _ _ (by omega), Nat.div_add_mod]
  refine ⟨g, f, fun k l hk hl hm => ?_, fun r l hl h => ?_⟩
  · rw [(v _ _ _ (by omega) (by omega)).1 ⟨l / 32, mem_passes hl hm, rfl, (word l).trans hm, k, hk, rfl⟩]
    have hkd : (if (vregAt d k).val = (vregAt d 0).val then 0 else 1) = k := by
      unfold vregAt
      simp only
      split <;> omega
    rw [hkd]
  · refine (v _ _ _ (by omega) (by omega)).2 fun j _ hr => ?_
    obtain ⟨rfl, hb, k, hk, hrk⟩ := hr
    rcases h with h | h
    · rw [word, h] at hb
      cases hb
    · exact h k hk (Fin.ext hrk)

/-- What a VMOV between vector registers leaves (R101). -/
theorem vmov_done (h : Hdr) (d a : VReg) (wide : Bool) (s : State) (c slot : Nat) (t : Team) (hs : slot < 16) (ok : s.stashOk = true)
    (w : TeamIssues (.vmov h (.vv d a) wide) h s c slot t) (hn : s.lacking c t 0 (vmovNeeds (t.x s c slot h) a (wideN wide)) = none) :
    ∃ s' t', exec (.vmov h (.vv d a) wide) s = .next s' ∧ s'.team? c slot = some t' ∧ TeamFrame s s' c slot ∧
      t' = { t with pc := (s.nextOf c t).1, atHdr := (s.nextOf c t).2, wait := none, vmap := t'.vmap, shadows := t'.shadows } ∧
      (∀ k l, k < wideN wide → l < 1024 → inMask (t.adm h) l = true →
        s'.vreg c slot (vregAt d k) l = s.vreg c slot (vregAt a k) l) ∧
      (∀ r l, l < 1024 → (inMask (t.adm h) l = false ∨ ∀ k, k < wideN wide → r ≠ vregAt d k) →
        s'.vreg c slot r l = s.vreg c slot r l) ∧
      t'.flagsDue = t.flagsDue := by
  have hw : wideN wide = 1 ∨ wideN wide = 2 := by cases wide <;> simp [wideN]
  obtain ⟨g, f, v, u⟩ := vmovPasses_spec h s c slot t d a hw (State.stashOk.pair ok w.2.1 hs)
  set ct := (passes (t.adm h)).foldl (vmovPass (t.x s c slot h) s.cycle d a (wideN wide)) (s.core c, t)
  have hlanes (r : VReg) (l : Nat) : s.vreg c slot r l = laneAt (s.core c, t) r.val (l / 32) (l % 32) := by
    simp only [State.vreg, w.2.1, readV, laneAt]
  obtain ⟨eff, e, heff⟩ : ∃ eff, exec (.vmov h (.vv d a) wide) s = runTeam (.vmov h (.vv d a) wide) h noNeed s eff ∧
      eff (t.x s c slot h) s = if t.adm h = 0 then .done s else .done ((s.setCore c ct.1).setTeam c slot ct.2) := by
    refine ⟨_, rfl, ?_⟩
    have hn : s.lacking (t.x s c slot h).c (t.x s c slot h).team 0 (vmovNeeds (t.x s c slot h) a (wideN wide)) = none := hn
    have ht : s.team? (t.x s c slot h).c (t.x s c slot h).slot = some t := w.2.1
    simp only [hn, ht, Option.getD_some]
    rfl
  replace e := e.trans (runTeam_plain w (by rw [heff]; split <;> exact fun _ => Res.noConfusion))
  rw [heff] at e
  by_cases ha : t.adm h = 0
  · rw [if_pos ha] at e
    obtain ⟨s', t', h0, h1, h2, h3, h4, h5⟩ := done_same (i := .vmov h (.vv d a) wide) (h := h) hs w.2.1
    refine ⟨s', t', e.trans h0, h1, h2, ?_, fun k l _ _ hl => ?_, fun r l _ _ => h5 r l, h4⟩
    · rw [h3]
    · rw [ha] at hl
      simp [inMask] at hl
  · rw [if_neg ha] at e
    have hm : ((s.setCore c ct.1).setTeam c slot ct.2).team? c slot = some ct.2 := State.team_setTeam_same ..
    have hc : ((s.setCore c ct.1).setTeam c slot ct.2).core c = ct.1 := by simp [State.core_setCore]
    obtain ⟨t', h1, h2, h3, h4, h5⟩ := (settleTeam_done (i := .vmov h (.vv d a) wide) (h := h) (s := s) (t := t) hm).spec hm hs
    have hlanes' (r : VReg) (l : Nat) : ((s.setCore c ct.1).setTeam c slot ct.2).vreg c slot r l = laneAt ct r.val (l / 32) (l % 32) := by
      simp only [State.vreg, hm, hc, readV, laneAt]
    refine ⟨_, t', e, h1, (teamFrame_of_grown g hs ok).trans h4, ?_, fun k l hk hl hl' => ?_, fun r l hl hr => ?_, h3.trans f⟩
    · rw [h2, g.2.2.2]
    · rw [h5, hlanes', v k l hk hl hl', ← hlanes]
    · rw [h5, hlanes', u r l hl hr, ← hlanes]

/-- Settles O25. -/
theorem carryAndMove : Obligations.CarryAndMove := by
  refine ⟨fun h d a b p sub s c slot t hs ok w hn => ?_, fun h d a wide s c slot t hs ok w hn => vmov_done h d a wide s c slot t hs ok w hn⟩
  have carry (l : Nat) : (if inMask (t.rp p) l then 1 else 0 : Int) = (bit (inMask (t.rp p) l) : Nat) := by
    cases inMask (t.rp p) l <;> rfl
  simp only [carry]
  exact vaddc_done h d a b p sub s c slot t hs ok w hn

end Sys2Proof.Proofs
end

section
/-! What the machine holds after reset. -/

open Sys2Proof Sys2Proof.Machine

namespace Sys2Proof.Proofs

/-- After reset partition 0 holds 4 stacks, and every other partition is the unlisted one. -/
theorem partn_reset (p : Nat) : State.reset.partn p = { Part.zero with count := (State.reset.partn p).count } := by
  by_cases h : p = 0
  · subst h
    rfl
  · have : State.reset.partn p = Part.zero := by
      simp [State.partn, State.reset, Tbl.get, h]
    rw [this]

/-- Settles O15: each value is read off the reset state, and the two invariants are those of its empty memory and empty Stash. -/
theorem resetValues : Obligations.ResetValues := by
  refine ⟨rfl, rfl, rfl, rfl, rfl, rfl, rfl, rfl, rfl, fun _ _ => rfl, fun _ => rfl, fun _ => rfl, fun p => ?_, fun _ => ?_,
    fun _ => rfl, fun _ _ => rfl, fun _ => rfl, State.memOk_reset, rfl⟩
  · rw [partn_reset p]
    exact ⟨rfl, rfl, rfl, rfl, rfl, rfl, rfl, fun _ => rfl⟩
  · exact ⟨rfl, rfl, rfl, rfl, rfl, rfl, rfl, rfl, rfl, rfl, rfl, rfl⟩

end Sys2Proof.Proofs

end

section
/-! R25, R54, R55, R75: the turn of a party that stands at a body word, and what State.ran adds to the effect of the instruction. -/

open Sys2Proof Sys2Proof.Machine

namespace Sys2Proof.Proofs

/-! The instruction that a turn runs. -/

theorem prep_team_of_decoded {s : State} {c slot v : Nat} {t : Team} {i : Instr} (hat : Claims.TeamAt s c slot t v)
    (hdec : decode v = .ok i) (hstart : s.mayStart c slot = true) : prep s (.team c slot) = .run s i := by
  obtain ⟨w, hslot, hteam, hmay, hfrozen, hwait, hhdr, hfetch, hbody⟩ := hat
  simp [prep, prepTeam, hteam, hslot, hmay, hfrozen, hwait, hhdr, hfetch, hbody, hdec, hstart]

theorem prep_ridge_of_decoded {s : State} {c v : Nat} {r : Ridge} {i : Instr} (hat : Claims.RidgeAt s c r v)
    (hdec : decode v = .ok i) (hdue : r.due ≤ s.cycle) : prep s (.ridge c) = .run s i := by
  obtain ⟨w, hridge, hmay, hfrozen, hended, hwait, hhdr, hfetch, hbody⟩ := hat
  simp [prep, prepRidge, hridge, hmay, hfrozen, hended, hwait, hhdr, hfetch, hbody, hdec, hdue]

theorem runTurn_issue_of_run {s m : State} {p : Party} {i : Instr} (h : prep s p = .run m i) :
    runTurn s (.issue p) = m.ranOf p i (exec i { m with cur := p }) := by
  simp [runTurn, h]

theorem mayStart_of {s : State} {c slot : Nat} (hchosen : s.chosen c = some slot) (hfree : (s.core c).busy ≤ s.cycle) :
    s.mayStart c slot = true := by
  simp [State.mayStart, hchosen, hfree]

/-! The passes that a team starts (R54, R75). -/

theorem tkey_ne {c k j : Nat} (hne : k ≠ j) : tkey c k ≠ tkey c j := by
  unfold tkey
  omega

theorem modTeam_eq_setTeam {s : State} {c slot : Nat} {t : Team} (f : Team → Team) (h : s.team? c slot = some t) :
    s.modTeam c slot f = s.setTeam c slot (f t) := by
  simp [State.modTeam, h]

theorem modTeam_only_teams (s : State) (c slot : Nat) (f : Team → Team) :
    s.modTeam c slot f = { s with teams := (s.modTeam c slot f).teams } := by
  unfold State.modTeam
  split <;> rfl

/-- A state that differs from another in its teams and cores only goes on to do so. -/
theorem modTeams_keep_rest (c : Nat) (f : Team → Team) (l : List Nat) (s m : State) (h : m = { s with teams := m.teams, cores := m.cores }) :
    l.foldl (fun s k => s.modTeam c k f) m =
      { s with teams := (l.foldl (fun s k => s.modTeam c k f) m).teams, cores := (l.foldl (fun s k => s.modTeam c k f) m).cores } := by
  induction l generalizing m with
  | nil => exact h
  | cons k l ih =>
    refine ih _ ?_
    obtain ⟨teams, cores, rfl⟩ : ∃ teams cores, m = { s with teams := teams, cores := cores } := ⟨_, _, h⟩
    beta_reduce
    unfold State.modTeam
    split <;> rfl

theorem core_modTeams (c : Nat) (f : Team → Team) (l : List Nat) (s : State) (d : Nat) :
    (l.foldl (fun s k => s.modTeam c k f) s).core d = s.core d := by
  induction l generalizing s with
  | nil => rfl
  | cons k l ih => exact (ih _).trans (State.modTeam_get_core ..)

/-- One change of every slot in a list without repetition: the change reaches the slots of the list once. -/
theorem team_modTeams (c : Nat) (f : Team → Team) (l : List Nat) (hl : l.Nodup) (s : State) (k : Nat) :
    (l.foldl (fun s k => s.modTeam c k f) s).team? c k = if k ∈ l then (s.team? c k).map f else s.team? c k := by
  induction l generalizing s with
  | nil => simp
  | cons j l ih =>
    obtain ⟨hj, hl⟩ := List.nodup_cons.1 hl
    rw [List.foldl_cons, ih hl]
    by_cases hk : k = j
    · subst hk
      simp [hj, State.team_modTeam_same]
    · simp [hk, State.team_modTeam_key _ _ _ _ _ _ (tkey_ne hk)]

/-- The instruction is a YIELD. -/
def isYield (i : Instr) : Bool := match i with | .yield .. => true | _ => false

theorem yieldAfter_same {uid : Nat} {o : Team} (i : Instr) (h : o.uid = uid) :
    Claims.yieldAfter uid i o = if isYield i then o.yield else [] := by
  by_cases hy : ∃ g, i = .yield g
  · obtain ⟨g, rfl⟩ := hy
    exact if_pos h
  · have hn : isYield i = false := by
      unfold isYield
      split
      · exact absurd ⟨_, rfl⟩ hy
      · rfl
    have he : Claims.yieldAfter uid i o = [] := by
      unfold Claims.yieldAfter
      rw [if_pos h]
      split
      · exact absurd ⟨_, rfl⟩ hy
      · rfl
    rw [he, hn]
    rfl

/-- What the start of passes does to a team that still lets others go first. -/
theorem startPasses_yield (uid : Nat) (i : Instr) (o : Team) :
    (if o.uid == uid then (if isYield i then o else { o with yield := [] })
      else { o with yield := o.yield.filter (· != uid) }) = { o with yield := Claims.yieldAfter uid i o } := by
  by_cases h : o.uid = uid
  · rw [yieldAfter_same i h]
    subst h
    cases isYield i <;> simp
  · simp [h, Claims.yieldAfter]

theorem startPasses_eq (s : State) (c slot : Nat) (t : Team) (i : Instr) (n : Nat) : s.startPasses c slot t i n =
    (List.range 16).foldl (fun s k => s.modTeam c k fun o => { o with yield := Claims.yieldAfter t.uid i o })
      (s.modCore c fun x => { x with lastSlot := slot, busy := max x.busy (s.cycle + n) }) := by
  simp only [← startPasses_yield]
  rfl

theorem team_startPasses (s : State) (c slot : Nat) (t : Team) (i : Instr) (n k : Nat) (hk : k < 16) :
    (s.startPasses c slot t i n).team? c k = (s.team? c k).map fun o => { o with yield := Claims.yieldAfter t.uid i o } := by
  have h := team_modTeams c (fun o => { o with yield := Claims.yieldAfter t.uid i o }) (List.range 16) List.nodup_range
    (s.modCore c fun x => { x with lastSlot := slot, busy := max x.busy (s.cycle + n) }) k
  exact (congrArg (State.team? · c k) (startPasses_eq s c slot t i n)).trans (h.trans (if_pos (List.mem_range.2 hk)))

theorem cycle_modTeams (c : Nat) (f : Team → Team) (l : List Nat) (s : State) :
    (l.foldl (fun s k => s.modTeam c k f) s).cycle = s.cycle := by
  induction l generalizing s with
  | nil => rfl
  | cons k l ih => exact (ih _).trans (State.modTeam_cycle ..)

theorem cycle_startPasses (s : State) (c slot : Nat) (t : Team) (i : Instr) (n : Nat) :
    (s.startPasses c slot t i n).cycle = s.cycle := by
  rw [startPasses_eq, cycle_modTeams]
  rfl

theorem core_startPasses (s : State) (c slot : Nat) (t : Team) (i : Instr) (n d : Nat) :
    (s.startPasses c slot t i n).core d =
      if d = c then { s.core c with lastSlot := slot, busy := max (s.core c).busy (s.cycle + n) } else s.core d := by
  rw [startPasses_eq, core_modTeams]
  exact State.core_modCore s c d _

theorem startPasses_rest (s : State) (c slot : Nat) (t : Team) (i : Instr) (n : Nat) :
    s.startPasses c slot t i n = { s with teams := (s.startPasses c slot t i n).teams, cores := (s.startPasses c slot t i n).cores } := by
  rw [startPasses_eq]
  exact modTeams_keep_rest c _ (List.range 16) s _ rfl

theorem started_startPasses (s : State) (c slot : Nat) (t : Team) (i : Instr) (n : Nat) :
    Claims.Started s (s.startPasses c slot t i n) c slot t.uid i n := by
  refine ⟨startPasses_rest s c slot t i n, ?_, fun d hd => ?_, fun k o hk _ ho => ?_⟩
  · simp [core_startPasses]
  · simp [core_startPasses, hd]
  · simp [team_startPasses _ _ _ _ _ _ _ hk, ho]

/-- A change of the slot's own team keeps what the start of passes says of the rest. -/
theorem started_setTeam {s m : State} {c slot uid n : Nat} {i : Instr} (h : Claims.Started s m c slot uid i n) (u : Team) :
    Claims.Started s (m.setTeam c slot u) c slot uid i n := by
  obtain ⟨hrest, hcore, hcores, hteams⟩ := h
  refine ⟨?_, hcore, hcores, fun k o hk hne ho => ?_⟩
  · rw [hrest]
    rfl
  · rw [State.team_setTeam_key, if_neg (tkey_ne hne)]
    exact hteams k o hk hne ho

/-! What State.ran adds. -/

theorem ran_team {s s' : State} {c slot : Nat} {t u : Team} (i : Instr) (ht : s.team? c slot = some t) (hu : s'.team? c slot = some u) :
    s.ran (.team c slot) i s' = s.ranTeam c slot t u i s' := by
  simp [State.ran, ht, hu]

theorem ran_team_of_issued {s s' : State} {c slot : Nat} {t u : Team} (i : Instr) (ht : s.team? c slot = some t)
    (hu : s'.team? c slot = some u) (hne : u ≠ t) (hw : u.wait = none) (htr : t.trapped u = false) :
    s.ran (.team c slot) i s' = s'.issuedTeam c slot t i := by
  rw [ran_team i ht hu]
  simp [State.ranTeam, hne, hw, htr]

/-- The pace of a team after an instruction whose last pass is in a given cycle. -/
def pacedTeam (t : Team) (i : Instr) (last : Nat) (u : Team) : Team :=
  if u.uid = t.uid then { u with due := dueAfter i last u.shadows } else u

theorem pacedTeam_eq (t : Team) (i : Instr) (last : Nat) (u : Team) :
    pacedTeam t i last u = { u with due := if u.uid = t.uid then dueAfter i last u.shadows else u.due } := by
  unfold pacedTeam
  split <;> rfl

/-- The pace set once a team, of a state that an instruction has started passes in, has issued. -/
theorem issuedTeam_eq (s : State) (c slot : Nat) (t : Team) (i : Instr) : s.issuedTeam c slot t i =
    if t.blocked then s.modTeam c slot (pacedTeam t i s.cycle)
    else (s.startPasses c slot t i (passesIn i t.act t.lo 32)).modTeam c slot (pacedTeam t i
      ((s.startPasses c slot t i (passesIn i t.act t.lo 32)).cycle + passesIn i t.act t.lo 32 - 1)) := by
  unfold State.issuedTeam
  dsimp only
  generalize s.startPasses c slot t i (passesIn i t.act t.lo 32) = m
  cases t.blocked
  · simp only [Bool.false_eq_true, if_false]
    rfl
  · simp only [if_true]
    rfl

theorem issuedTeam_of_free {s : State} {c slot : Nat} {t u : Team} (i : Instr) (hs : slot < 16) (hu : s.team? c slot = some u)
    (hb : t.blocked = false) : s.issuedTeam c slot t i =
      (s.startPasses c slot t i (passesIn i t.act t.lo 32)).setTeam c slot
        (pacedTeam t i (s.cycle + passesIn i t.act t.lo 32 - 1) { u with yield := Claims.yieldAfter t.uid i u }) := by
  have h := team_startPasses s c slot t i (passesIn i t.act t.lo 32) slot hs
  rw [hu] at h
  rw [issuedTeam_eq, if_neg (by simp [hb]), cycle_startPasses]
  exact modTeam_eq_setTeam _ h

theorem issuedTeam_of_blocked {s : State} {c slot : Nat} {t u : Team} (i : Instr) (hu : s.team? c slot = some u)
    (hb : t.blocked = true) : s.issuedTeam c slot t i = s.setTeam c slot (pacedTeam t i s.cycle u) := by
  rw [issuedTeam_eq, if_pos hb]
  exact modTeam_eq_setTeam _ hu

/-- Settles O19: prep gives the decoded instruction to exec, and State.ran is read off case by case. -/
theorem stepRunsDecoded : Obligations.StepRunsDecoded := by
  refine ⟨fun s rest c slot t v i hag hat hdec hch hbusy => ?_, fun s rest c r v i hag hat hdec hdue => ?_,
    fun s s' c slot t u i hs ht hu hne => ⟨fun hw hb htr => ?_, fun hw hb htr => ?_, fun hw htr => ?_, fun j w k nx hw hlo => ?_⟩,
    fun s s' c slot t i ht hu => ⟨fun hb => ?_, fun hb => ?_⟩, fun s s' c r q i hr hq hne hw => ?_⟩
  · rw [step_of_agenda hag]
    exact runTurn_issue_of_run (prep_team_of_decoded (teamAt_setAgenda hat rest) hdec (mayStart_of hch hbusy))
  · rw [step_of_agenda hag]
    exact runTurn_issue_of_run (prep_ridge_of_decoded (ridgeAt_setAgenda hat rest) hdec hdue)
  · rw [ran_team_of_issued i ht hu hne hw htr, issuedTeam_of_free i hs hu hb]
    refine ⟨started_setTeam (started_startPasses ..) _, ?_⟩
    rw [State.team_setTeam_same, pacedTeam_eq]
  · rw [ran_team_of_issued i ht hu hne hw htr, issuedTeam_of_blocked i hu hb, pacedTeam_eq]
  · rw [ran_team i ht hu]
    simp [State.ranTeam, hne, hw, htr]
  · rw [ran_team i ht hu]
    simp only [State.ranTeam, hne, hw, hlo, if_false]
    refine ⟨started_startPasses .., ?_⟩
    exact (team_startPasses _ _ _ _ _ _ _ hs).trans (by rw [hu, Option.map_some, hw])
  · rw [ran_team i ht hu]
    simp [State.ranTeam, hb, State.triedSlot]
  · rw [ran_team i ht hu]
    simp [State.ranTeam, hb]
  · have hwn : ((s'.ridge? c).bind Ridge.wait).isSome = false := by simp [hq, hw]
    have hqr : s'.ridge? c ≠ some r := by simp [hq, hne]
    have hran : s.ran (.ridge c) i s' = s'.issuedRidge c r i := by
      simp [State.ran, hr, hqr, hwn]
    rw [hran]
    simp only [State.issuedRidge, State.modRidge, hq]
    split <;> rfl

end Sys2Proof.Proofs

end

section
/-! R32, R35, R37, R38, R40, R82: where a form traps at itself. -/

open Sys2Proof Sys2Proof.Machine

namespace Sys2Proof.Proofs

theorem runTeam_ridge {i : Instr} {h : Hdr} {nd : State → Nat → Team → Need} {s : State} {c : Nat} {r : Ridge} {eff : X → State → Res}
    (hcur : s.cur = .ridge c) (hr : s.ridge? c = some r) :
    runTeam i h nd s eff = .next (s.takeTrapM c { r with wait := none } .illegal 0 r.pc) := by
  simp [runTeam, hcur, hr, settleRidge]

theorem runRidge_team {i : Instr} {h : Hdr} {nd : State → Nat → Ridge → Need} {s : State} {c slot : Nat} {t : Team} {eff : XR → State → Res}
    (hcur : s.cur = .team c slot) (ht : s.team? c slot = some t) :
    runRidge i h nd s eff = .next (s.takeTrap c slot { t with wait := none } .illegal 0 t.pc) := by
  simp [runRidge, hcur, ht, settleTeam]

/-- A form of team streams only runs through runTeam. -/
theorem exec_ridge_of_teamOnly {i : Instr} {s : State} {c : Nat} {r : Ridge} (hi : Claims.teamOnly i = true)
    (hcur : s.cur = .ridge c) (hr : s.ridge? c = some r) :
    exec i s = .next (s.takeTrapM c { r with wait := none } .illegal 0 r.pc) := by
  unfold Claims.teamOnly at hi
  split at hi
  case h_67 => exact (runTeam_ridge hcur hr : execCopy .. = _)
  case h_68 => exact (runTeam_ridge hcur hr : execCopyR .. = _)
  case h_69 => exact (runTeam_ridge hcur hr : execCopym .. = _)
  case h_70 => exact (runTeam_ridge hcur hr : execGath .. = _)
  case h_71 => exact (runTeam_ridge hcur hr : execScat .. = _)
  case h_78 => exact (runTeam_ridge hcur hr : execTdset .. = _)
  case h_79 => exact (runTeam_ridge hcur hr : execChain .. = _)
  case h_84 => exact (runTeam_ridge hcur hr : execKvapp .. = _)
  case h_85 => exact (runTeam_ridge hcur hr : execKvevt .. = _)
  case h_93 => cases hi
  all_goals exact runTeam_ridge hcur hr

/-- A form of matrix streams only runs through runRidge. -/
theorem exec_team_of_ridgeOnly {i : Instr} {s : State} {c slot : Nat} {t : Team} (hi : Claims.ridgeOnly i = true)
    (hcur : s.cur = .team c slot) (ht : s.team? c slot = some t) :
    exec i s = .next (s.takeTrap c slot { t with wait := none } .illegal 0 t.pc) := by
  unfold Claims.ridgeOnly at hi
  split at hi
  case h_1 => exact (runRidge_team hcur ht : execMlda .. = _)
  case h_2 => exact (runRidge_team hcur ht : execMma .. = _)
  case h_3 => exact (runRidge_team hcur ht : execMoutl .. = _)
  case h_4 => exact (runRidge_team hcur ht : execZclr .. = _)
  case h_5 => exact (runRidge_team hcur ht : execZld .. = _)
  case h_6 => exact (runRidge_team hcur ht : execZst .. = _)
  case h_7 => exact (runRidge_team hcur ht : execZmap .. = _)
  case h_8 => exact (runRidge_team hcur ht : execAttn .. = _)
  case h_9 => cases hi

theorem runBoth_ridge_ill {i : Instr} {h : Hdr} {nd : State → Nat → Team → Need} {ndR : State → Nat → Ridge → Need} {s : State} {c : Nat}
    {r : Ridge} {eff : X → State → Res} {effR : XR → State → Res} (hcur : s.cur = .ridge c) (hr : s.ridge? c = some r)
    (hill : (ndR s c r).ill = true ∨ ((guardReg h ++ (iRegs i).1) ++ (iRegs i).2).any Reg.isV = true) :
    runBoth i h nd ndR s eff effR = .next (s.takeTrapM c { r with wait := none } .illegal 0 r.pc) := by
  have hissue : issueRidge i h (ndR s c r) s c r effR = .trap .illegal 0 := by
    unfold issueRidge
    exact if_pos (Bool.or_eq_true_iff.2 hill)
  simp [runBoth, hcur, hr, hissue, settleRidge]

/-- A move whose spelling names another class needs a team, or names a vector register. -/
theorem exec_ridge_of_otherClass {i : Instr} {s : State} {c : Nat} {r : Ridge} (hi : Claims.otherClass i = true)
    (hcur : s.cur = .ridge c) (hr : s.ridge? c = some r) :
    exec i s = .next (s.takeTrapM c { r with wait := none } .illegal 0 r.pc) := by
  unfold Claims.otherClass at hi
  split at hi
  case h_1 => exact runBoth_ridge_ill hcur hr (.inl rfl)
  case h_2 => exact runBoth_ridge_ill hcur hr (.inl rfl)
  case h_3 => exact runBoth_ridge_ill hcur hr (.inr (by simp [iRegs, Reg.isV]))
  case h_4 => exact runBoth_ridge_ill hcur hr (.inr (by simp [iRegs, Reg.isV]))
  case h_5 => cases hi

/-! What a team's form checks before its effect. -/

/-- An instruction of a team is issued with a given need. -/
def IssuesWith (nd : Need) (i : Instr) (h : Hdr) (s : State) (c slot : Nat) (t : Team) : Prop :=
  ∃ eff, exec i s = .next (settleTeam i h s c slot t (issueTeam i h nd s c slot t eff))

section
variable {i : Instr} {h : Hdr} {s : State} {c slot : Nat} {t : Team} (hcur : s.cur = .team c slot) (ht : s.team? c slot = some t)
include hcur ht

theorem runTeam_issues {nd : State → Nat → Team → Need} {eff : X → State → Res} :
    runTeam i h nd s eff = .next (settleTeam i h s c slot t (issueTeam i h (nd s c t) s c slot t eff)) := by
  simp only [runTeam, hcur, ht]

theorem runBoth_issues {nd : State → Nat → Team → Need} {ndR : State → Nat → Ridge → Need} {eff : X → State → Res}
    {effR : XR → State → Res} :
    runBoth i h nd ndR s eff effR = .next (settleTeam i h s c slot t (issueTeam i h (nd s c t) s c slot t eff)) := by
  simp only [runBoth, hcur, ht]

theorem scalarForm_issues {d : SReg} {f : (SReg → W64) → W64} (e : Claims.scalarForm i = some (h, d, f)) :
    IssuesWith {} i h s c slot t := by
  rw [IssuesWith, exec_of_scalarForm e]
  exact ⟨_, runBoth_issues hcur ht⟩

theorem vectorForm_issues {d : VReg} {n : Nat} {f : Src → Nat → Nat} (e : Claims.vectorForm i = some (h, d, n, f)) :
    IssuesWith {} i h s c slot t := by
  unfold Claims.vectorForm at e
  split at e <;> cases e
  case h_23 => exact ⟨_, runBoth_issues hcur ht⟩
  all_goals exact ⟨_, runTeam_issues hcur ht⟩

theorem gatherForm_issues (e : Claims.gatherForm i = some h) : IssuesWith { gather := true } i h s c slot t := by
  unfold Claims.gatherForm at e
  split at e <;> cases e
  case h_1 => exact ⟨_, (runTeam_issues hcur ht : execGath .. = _)⟩
  case h_2 => exact ⟨_, (runTeam_issues hcur ht : execScat .. = _)⟩

theorem leaderForm_issues (e : Claims.leaderForm i = some h) : IssuesWith { leader := true } i h s c slot t := by
  unfold Claims.leaderForm at e
  split at e <;> cases e
  case h_1 => exact ⟨_, (runTeam_issues hcur ht : execTdset .. = _)⟩
  case h_2 => exact ⟨_, (runTeam_issues hcur ht : execCopy .. = _)⟩
  case h_3 => exact ⟨_, (runTeam_issues hcur ht : execCopyR .. = _)⟩
  case h_4 => exact ⟨_, (runTeam_issues hcur ht : execCopym .. = _)⟩
  case h_5 => exact ⟨_, (runTeam_issues hcur ht : execChain .. = _)⟩
  case h_6 => exact ⟨_, (runTeam_issues hcur ht : execKvapp .. = _)⟩
  case h_7 => exact ⟨_, (runTeam_issues hcur ht : execKvevt .. = _)⟩
  case h_8 => exact ⟨_, (runBoth_issues hcur ht : execPlane .. = _)⟩

end

/-- Where issue traps, the team traps at the instruction. -/
theorem IssuesWith.traps {nd : Need} {i : Instr} {h : Hdr} {s : State} {c slot : Nat} {t : Team} {cause : Cause} (w : IssuesWith nd i h s c slot t)
    (htrap : ∀ eff, issueTeam i h nd s c slot t eff = .trap cause 0) :
    exec i s = .next (s.takeTrap c slot { t with wait := none } cause 0 t.pc) := by
  obtain ⟨eff, e⟩ := w
  rw [e, htrap eff]
  rfl

theorem issueTeam_past_counts {nd : Need} {i : Instr} {h : Hdr} {s : State} {c slot : Nat} {t : Team} {q : Reg}
    (hq : q ∈ guardReg h ++ (iRegs i).1 ++ (iRegs i).2) (hhas : t.hdr.has q = false) (eff : X → State → Res) :
    issueTeam i h nd s c slot t eff = .trap .illegal 0 := by
  have hbad : ((guardReg h ++ (iRegs i).1).all t.hdr.has && (iRegs i).2.all t.hdr.has) = false := by
    rw [← List.all_append, List.all_eq_false]
    exact ⟨q, hq, by simp [hhas]⟩
  unfold issueTeam
  exact if_pos (Bool.or_eq_true_iff.2 (.inr ((congrArg not hbad).trans rfl)))

section
variable {i : Instr} {h : Hdr} {s : State} {c slot : Nat} {t : Team} (w : Claims.Readable i h s c slot t)
include w

/-- The checks that the registers and the place of a readable form pass. -/
theorem readable_gates :
    ((guardReg h ++ (iRegs i).1).all t.hdr.has && (iRegs i).2.all t.hdr.has) = true ∧
    (isTransfer i && !(s.nextOf c t).2) = false ∧ (decide (h.guard.val = 0) && h.gneg) = false ∧
    ((guardReg h ++ (iRegs i).1 ++ (iRegs i).2).any (s.pendingReg c t)) = false := by
  obtain ⟨-, -, -, hregs, hlast, hguard⟩ := w
  refine ⟨?_, ?_, ?_, ?_⟩
  · rw [← List.all_append, List.all_eq_true]
    exact fun r m => (hregs r m).1
  · cases htr : isTransfer i
    · rfl
    · simp [hlast htr]
  · simpa using hguard
  · rw [List.any_eq_false]
    exact fun r m => by simp [(hregs r m).2]

theorem issueTeam_unimpl (hno : s.hasGather = false) (eff : X → State → Res) :
    issueTeam i h { gather := true } s c slot t eff = .trap .unimpl 0 := by
  obtain ⟨hregs, hlast, -, -⟩ := readable_gates w
  unfold issueTeam
  simp only [hregs, hlast, hno, Bool.not_true, Bool.not_false, Bool.or_false, Bool.and_true, Bool.false_eq_true, if_false, if_true]

theorem issueTeam_illegalMask (hact : popcount t.act ≠ 1) (eff : X → State → Res) :
    issueTeam i h { leader := true } s c slot t eff = .trap .illegalMask 0 := by
  obtain ⟨hregs, hlast, hguard, -⟩ := readable_gates w
  unfold issueTeam
  simp only [hregs, hlast, hguard, bne_iff_ne.2 hact, Bool.not_true, Bool.or_false, Bool.and_true, Bool.false_and, Bool.false_eq_true,
    if_false, if_true]

theorem issueTeam_stallShort (hun : unmetOf t.shadows (guardReg h ++ (iRegs i).1) ≠ []) (hcheck : t.check = true) (eff : X → State → Res) :
    issueTeam i h {} s c slot t eff = .trap .stallShort 0 := by
  obtain ⟨hregs, hlast, hguard, hfree⟩ := readable_gates w
  have hne : (unmetOf t.shadows (guardReg h ++ (iRegs i).1)).isEmpty = false := by simpa using hun
  unfold issueTeam
  simp only [hregs, hlast, hguard, hfree, w.2.2.1, hne, hcheck, Bool.not_true, Bool.or_false, Bool.and_false, Bool.false_and,
    Bool.false_eq_true, if_false, if_true]

end

/-- Settles O14: each form is issued by its own shared function, whose first failing check is the trap stated. -/
theorem wrongStreamTraps : Obligations.WrongStreamTraps := by
  refine ⟨fun i s c r hi hcur hr => exec_ridge_of_teamOnly hi hcur hr, fun i s c r hi hcur hr => exec_ridge_of_otherClass hi hcur hr,
    fun i s c slot t hi hcur ht => exec_team_of_ridgeOnly hi hcur ht,
    fun i h d n f s c slot t q e hcur ht hq hhas => (vectorForm_issues hcur ht e).traps (issueTeam_past_counts hq hhas),
    fun i h s c slot t e w hno => (gatherForm_issues w.1 w.2.1 e).traps (issueTeam_unimpl w hno),
    fun i h s c slot t e w hact => (leaderForm_issues w.1 w.2.1 e).traps (issueTeam_illegalMask w hact),
    fun i h s c slot t e w hun hcheck => ?_⟩
  obtain ⟨d, f, e⟩ | ⟨d, n, f, e⟩ := e
  · exact (scalarForm_issues w.1 w.2.1 e).traps (issueTeam_stallShort w hun hcheck)
  · exact (vectorForm_issues w.1 w.2.1 e).traps (issueTeam_stallShort w hun hcheck)

end Sys2Proof.Proofs

end

section
/-! R381, R385 to R399: ports, time, heat, firmware, attestation and power-on reset. -/

open Sys2Proof Sys2Proof.Machine

namespace Sys2Proof.Proofs

/-! Ports (R388, R390, R391). -/

theorem port_put (s : State) (k j : Nat) (p : Port) :
    ({ s with ports := s.ports.put k p } : State).port j = if j = k then p else s.port j := by
  simp [State.port, Tbl.get_put]

theorem modPort_eq {k : Nat} (hk : k < 18) (s : State) (f : Port → Port) :
    s.modPort k f = { s with ports := s.ports.put k (f (s.port k)) } := if_pos hk

theorem mem_portsUp {s : State} {j : Nat} : j ∈ s.portsUp ↔ j < 18 ∧ (s.port j).state = 2 := by
  simp [State.portsUp, State.port]

/-- The picked port is one of those offered, and there is one where any is offered. -/
theorem pickPort_mem {ports : List Nat} {home j : Nat} (h : pickPort ports home = some j) : j ∈ ports :=
  List.mem_of_getElem? h

theorem pickPort_eq_none_iff {ports : List Nat} {home : Nat} : pickPort ports home = none ↔ ports = [] := by
  unfold pickPort
  rw [List.getElem?_eq_none_iff]
  constructor
  · intro h
    by_contra hne
    exact absurd (Nat.mod_lt (Config.pathOf home) (List.length_pos_iff.2 hne)) (by omega)
  · rintro rfl
    simp

/-- What becomes of an access when port k goes down: a packet without acknowledgement goes over another path, never again over k (R390). -/
def resent (s : State) (k : Nat) (a : Access) : Access :=
  if a.pkgSeq.isNone then a
  else
    let b := { a with barred := k :: a.barred.filter (· != k) }
    if a.port == some k then { b with port := pickPort (s.pathsFor b) (s.homeThere a.key) } else b

theorem resend_eq (s : State) (k : Nat) : s.resend k = { s with accs := s.accs.map (resent s k) } := rfl

theorem resent_frame (s : State) (k : Nat) (a : Access) :
    resent s k a = { a with port := (resent s k a).port, barred := (resent s k a).barred } := by
  unfold resent
  dsimp only
  split
  · rfl
  · split <;> rfl

theorem resent_of_local {s : State} {k : Nat} {a : Access} (h : a.pkgSeq = none) : resent s k a = a := by
  simp [resent, h]

theorem mem_barred_resent {s : State} {k : Nat} {a : Access} (h : a.pkgSeq ≠ none) (j : Nat) :
    j ∈ (resent s k a).barred ↔ j = k ∨ j ∈ a.barred := by
  have hb : (resent s k a).barred = k :: a.barred.filter (· != k) := by
    unfold resent
    simp only [Option.isNone_iff_eq_none, h, if_false]
    split <;> rfl
  rw [hb]
  by_cases hj : j = k <;> simp [hj]

theorem port_resent_of_ne {s : State} {k : Nat} {a : Access} (h : a.port ≠ some k) : (resent s k a).port = a.port := by
  unfold resent
  simp only [beq_iff_eq, h, if_false]
  split <;> rfl

theorem port_resent {s : State} {k : Nat} {a : Access} (h : a.pkgSeq ≠ none) (hp : a.port = some k) :
    (resent s k a).port = pickPort (s.portsUp.filter fun j => !(k :: a.barred.filter (· != k)).contains j) (s.homeThere a.key) := by
  simp [resent, h, hp, State.pathsFor]

/-- A port that goes down, as the claim states it of a state whose port k may have been written first. -/
theorem portDown_down {s m : State} {k : Nat} {p : Port} (hk : k < 18) (hm : m = { s with ports := m.ports }) (hp : m.port k = p)
    (hother : ∀ j, j ≠ k → m.port j = s.port j) : Claims.Down s (m.portDown k) k p := by
  have hdown : m.portDown k = { m with
      ports := m.ports.put k { p with state := 3, ver := 0, fails := 0 },
      accs := m.accs.map (resent { m with ports := m.ports.put k { p with state := 3, ver := 0, fails := 0 } } k) } := by
    rw [State.portDown, if_pos hk, modPort_eq hk, resend_eq, hp]
  have haccs : m.accs = s.accs := by rw [hm]
  set n : State := { m with ports := m.ports.put k { p with state := 3, ver := 0, fails := 0 } } with hn
  have hport (j : Nat) : n.port j = if j = k then { p with state := 3, ver := 0, fails := 0 } else s.port j := by
    rw [hn, port_put]
    split
    · rfl
    · exact hother j ‹_›
  have hup (j : Nat) : j ∈ n.portsUp ↔ j ∈ s.portsUp ∧ j ≠ k := by
    rw [mem_portsUp, mem_portsUp, hport]
    by_cases hj : j = k <;> simp [hj]
  rw [hdown]
  refine ⟨by rw [hm], fun j hj => (hport j).trans (if_neg hj), (hport k).trans (if_pos rfl), by simp [haccs], fun i a ha => ?_⟩
  refine ⟨resent n k a, by simp [haccs, ha], resent_frame n k a, resent_of_local, fun hpk => ⟨mem_barred_resent hpk, port_resent_of_ne, fun hap => ?_⟩⟩
  have hpath (j : Nat) : j ∈ (n.portsUp.filter fun j => !(k :: a.barred.filter (· != k)).contains j) ↔ j ∈ s.portsUp ∧ j ≠ k ∧ j ∉ a.barred := by
    rw [List.mem_filter, hup]
    by_cases hj : j = k <;> simp [hj]
  rw [port_resent hpk hap]
  refine ⟨fun j hj => (hpath j).1 (pickPort_mem hj), ?_⟩
  rw [pickPort_eq_none_iff, List.eq_nil_iff_forall_not_mem]
  refine forall_congr' fun j => ?_
  rw [hpath]
  tauto

theorem portDown_self {s : State} {k : Nat} (hk : k < 18) : Claims.Down s (s.portDown k) k (s.port k) :=
  portDown_down hk rfl rfl fun _ _ => rfl

/-- A write of EN, after another write of the port (R391). -/
theorem portEn_false {s m : State} {k : Nat} {p : Port} (hk : k < 18) (hm : m = { s with ports := m.ports }) (hp : m.port k = p)
    (hother : ∀ j, j ≠ k → m.port j = s.port j) : Claims.Down s (m.portEn k false) k { p with en := false } := by
  unfold State.portEn
  rw [if_neg (by simp), modPort_eq hk]
  refine portDown_down hk ?_ ?_ fun j hj => ?_
  · rw [hm]
  · rw [port_put, if_pos rfl, hp]
  · rw [port_put, if_neg hj, hother j hj]

theorem portEn_true {s m : State} {k : Nat} {p : Port} (hk : k < 18) (hm : m = { s with ports := m.ports }) (hp : m.port k = p)
    (hother : ∀ j, j ≠ k → m.port j = s.port j) : ∃ s', m.portEn k true = s' ∧ s' = { s with ports := s'.ports } ∧
      (∀ j, j ≠ k → s'.port j = s.port j) ∧ s'.port k = { p with en := true, state := if p.state = 3 then 1 else p.state } := by
  refine ⟨_, rfl, ?_⟩
  unfold State.portEn
  rw [if_pos rfl, modPort_eq hk]
  refine ⟨by rw [hm], fun j hj => ?_, ?_⟩
  · rw [port_put, if_neg hj, hother j hj]
  · rw [port_put, if_pos rfl, hp]
    simp

theorem flitReplay_spec (k : Nat) (s : State) (hk : k < 18) (n : Nat) (again : Bool) (hup : (s.port k).state = 2) (h1 : 1 ≤ n) (h512 : n ≤ 512) :
    let fails := if again = true ∧ (s.port k).fails ≠ 0 then (s.port k).fails + 1 else 1
    ∃ s', exec (.flitReplay k ⟨n, again⟩) s = .next s' ∧ (16 < fails → Claims.Down s s' k (s.port k)) ∧
      (fails ≤ 16 → s' = { s with ports := s'.ports } ∧ (∀ j, j ≠ k → s'.port j = s.port j) ∧
        s'.port k = { s.port k with replay := (s.port k).replay + BitVec.ofNat 32 n, fails := fails }) := by
  intro fails
  have hexec : exec (.flitReplay k ⟨n, again⟩) s = .next (if 16 < fails then s.portDown k
      else s.modPort k fun p => { p with replay := p.replay + BitVec.ofNat 32 n, fails := fails }) := by
    change execFlitReplay .. = _
    have hz : ¬ n = 0 := by omega
    have hle : ¬ 512 < n := by omega
    simp [execFlitReplay, hup, hz, hle, fails]
  refine ⟨_, hexec, fun h => ?_, fun h => ?_⟩
  · rw [if_pos h]
    exact portDown_self hk
  · rw [if_neg (by omega), modPort_eq hk]
    exact ⟨rfl, fun j hj => (port_put ..).trans (if_neg hj), (port_put ..).trans (if_pos rfl)⟩

theorem linkTraining_spec (k : Nat) (s : State) (hk : k < 18) (partner : Nat) (sizes : List (Nat × Nat × Nat)) (hen : (s.port k).en = true)
    (hst : (s.port k).state = 0 ∨ (s.port k).state = 1) :
    ∃ s', exec (.linkTraining k partner sizes) s = .next s' ∧ (partner = 0 → Claims.Down s s' k (s.port k)) ∧
      (1 ≤ partner → s' = { s with ports := s'.ports, peers := s'.peers } ∧ (∀ j, j ≠ k → s'.port j = s.port j) ∧
        s'.port k = { s.port k with state := 2, ver := BitVec.ofNat 8 (min 2 partner) }) := by
  have htrains : (decide (18 ≤ k) || !(s.port k).en || ((s.port k).state != 0 && (s.port k).state != 1)) = false := by
    have hk' : ¬ 18 ≤ k := by omega
    obtain h | h := hst <;> simp [hk', hen, h]
  refine ⟨_, rfl, fun h => ?_, fun h => ?_⟩
  · rw [if_neg (by rw [htrains]; exact Bool.false_ne_true), if_pos h]
    exact portDown_self hk
  · rw [if_neg (by rw [htrains]; exact Bool.false_ne_true), if_neg (by omega), modPort_eq hk]
    exact ⟨rfl, fun j hj => (port_put ..).trans (if_neg hj), (port_put ..).trans (if_pos rfl)⟩

/-! Time, heat and reset. -/

/-- The offset read as a signed number is the difference of the two counts (R392). -/
theorem sgn_sub (a b : W64) : sgn 64 ((a.toNat + 2 ^ 64 - b.toNat) % 2 ^ 64) = (a - b).toInt := by
  have h : (a.toNat + 2 ^ 64 - b.toNat) % 2 ^ 64 = (a - b).toNat := by
    rw [BitVec.toNat_sub]
    congr 1
    have := b.isLt
    omega
  rw [h, sgn_toNat]

theorem ofInt_toInt_truncate (x : W64) : BitVec.ofInt 32 x.toInt = x.truncate 32 := by
  apply BitVec.eq_of_toNat_eq
  have := BitVec.toInt_eq_toNat_bmod x
  rw [BitVec.toNat_ofInt]
  simp only [BitVec.truncate_eq_setWidth, BitVec.toNat_setWidth]
  rw [BitVec.toInt_eq_toNat_cond]
  split <;> omega

theorem timeSync_spec (count : W64) (reached : Bool) (s : State) : ∃ s', exec (.timeSync count reached) s = .next s' ∧
    (s.master = true → s' = { s with timeSync := true }) ∧
    (s.master = false → (reached = false ∨ s.portsUp = []) → s' = { s with timeSync := false }) ∧
    (s.master = false → reached = true → s.portsUp ≠ [] →
      s' = { s with timeOff := (s.tick - count).truncate 32, slew := (s.tick - count).toInt,
                    timeSync := decide ((s.tick - count).toInt.natAbs ≤ 20) }) := by
  refine ⟨_, rfl, fun hm => if_pos hm, fun hm h => ?_, fun hm hr hp => ?_⟩
  · rw [if_neg (by simp [hm]), if_pos (by simpa using h)]
  · rw [if_neg (by simp [hm]), if_neg (by simp [hr, hp])]
    simp only [sgn_sub, ofInt_toInt_truncate]

theorem thermalLimit_spec (die : Nat) (at_ : Bool) (s : State) (hdie : die < s.stacksN) :
    ∃ s', exec (.thermalLimit die at_) s = .next s' ∧ s' = { s with thermal := s'.thermal } ∧
      ∀ d, s'.thermal.find d = if d = die then (if at_ then some ((s.thermal.find die).getD s.tick.toNat) else none) else s.thermal.find d := by
  refine ⟨_, rfl, ?_⟩
  rw [if_neg (by omega)]
  cases at_
  · exact ⟨rfl, fun d => Tbl.find_del ..⟩
  · rw [if_neg (by simp)]
    cases hf : s.thermal.find die with
    | some v =>
      refine ⟨rfl, fun d => ?_⟩
      by_cases hd : d = die <;> simp [hd, hf]
    | none =>
      refine ⟨rfl, fun d => ?_⟩
      by_cases hd : d = die <;> simp [hd, Tbl.find_put]

theorem fwActivate_spec (ok : Bool) (oldest : Nat) (image : List Byte) (s : State) : ∃ s', exec (.fwActivate ok oldest image) s = .next s' ∧
    s' = { s with fwGo := false, fwStatus := if s.savOldest < oldest then 1 else if ok then 0 else 2,
                  firmware := if s.savOldest < oldest ∨ ok = false then s.firmware else image,
                  fwOldest := if s.savOldest < oldest ∨ ok = false then s.fwOldest else oldest } := by
  refine ⟨_, rfl, ?_⟩
  by_cases h : s.savOldest < oldest
  · simp only [h, if_true, true_or]
  · cases ok <;> simp [h]

theorem attestRequest_spec (nonce : List Byte) (s : State) (hlen : nonce.length = 32) : ∃ s' r, exec (.attestRequest nonce) s = .next s' ∧
    s' = { s with reports := s.reports ++ [r], free := s.free + 1 } ∧ r.nonce = nonce ∧ r.image = sha256 s.firmware ∧ r.feat = s.devFeat ∧
    r.sav = BitVec.ofNat 64 (s.savOldest * 256 + 3) ∧ r.sig.length = 7856 := by
  have hexec : exec (.attestRequest nonce) s = .next { s with
      reports := s.reports ++ [⟨nonce, sha256 s.firmware, s.devFeat, s.savVer, s.signature⟩], free := s.free + 1 } :=
    congrArg Host.Outcome.next (if_neg (by simp [hlen]))
  exact ⟨_, _, hexec, rfl, rfl, rfl, rfl, rfl, by simp [State.signature]⟩

theorem memoryPortLoss_spec (port cap : Nat) (s : State) (h : s.cxlPorts.find port = some cap) :
    ∃ s', exec (.memoryPortLoss port) s = .next s' ∧ s' = { s with cxlLost := s'.cxlLost } ∧
      ∀ k, s'.cxlLost.get false k = (k == port || s.cxlLost.get false k) := by
  refine ⟨_, rfl, ?_⟩
  rw [if_pos (by simp [h])]
  refine ⟨rfl, fun k => ?_⟩
  by_cases hk : k = port <;> simp [hk, Tbl.get_put]

/-- A reset keeps of a partition the stacks it holds. -/
theorem partn_reset_map (parts : Tbl Part) (p : Nat) :
    let x := Tbl.get Part.zero (parts.map fun p => (p.1, { Part.zero with first := p.2.first, count := p.2.count })) p
    x = { Part.zero with first := x.first, count := x.count } := by
  intro x
  have hx : x = ((parts.find p).map fun q => { Part.zero with first := q.first, count := q.count }).getD Part.zero := by
    refine (Tbl.get_eq_find ..).trans (congrArg (Option.getD · Part.zero) ?_)
    exact find_map_of_key (g := fun p : Nat × Part => (p.1, { Part.zero with first := p.2.first, count := p.2.count })) (fun _ => rfl) parts p
  rw [hx]
  cases parts.find p <;> rfl

theorem powerOnReset_spec (caps : List Nat) (master : Bool) (count : W64) (s : State) : ∃ s', exec (.powerOnReset caps master count) s = .next s' ∧
    s'.tick = (if master then 0 else count) ∧ s'.master = master ∧ s'.timeSync = master ∧ s'.booted = true ∧ s'.mem = [] ∧ s'.teams = [] ∧
    s'.ridges = [] ∧ s'.blocks = [] ∧ s'.accs = [] ∧ s'.ops = [] ∧ s'.ctxs = [] ∧ s'.launches = [] ∧ s'.ctr = [] ∧ s'.pcap = 2800 ∧
    s'.fwStatus = 0 ∧ (∀ k, s'.ports.get Port.zero k = ⟨0, 0, 0, true, 0⟩) ∧ (∀ c, s'.core c = Core.zero) ∧ s'.part = s.part ∧
    s'.rootKey = s.rootKey ∧
    s'.memHbm = (if s.part = .p9440 then 5859375 else 11718750) ∧ ∀ p, (s'.partn p).halting = none ∧ (s'.partn p).done = false := by
  refine ⟨_, rfl, rfl, rfl, rfl, rfl, rfl, rfl, rfl, rfl, rfl, rfl, rfl, rfl, rfl, rfl, rfl, fun _ => rfl, fun _ => rfl, rfl, rfl, ?_,
    fun p => ?_⟩
  · change hbmOf s.part = _
    cases s.part <;> rfl
  · have h := partn_reset_map s.parts p
    exact ⟨congrArg Part.halting h, congrArg Part.done h⟩

/-- Settles O59. -/
theorem portsAndTime : Obligations.PortsAndTime :=
  ⟨fun k s hk => ⟨fun n again hup h1 h512 => flitReplay_spec k s hk n again hup h1 h512,
      fun hup => ⟨_, rfl, by rw [if_neg (by simp [hup])]; exact portDown_self hk⟩,
      ⟨_, rfl, portEn_false hk rfl rfl fun _ _ => rfl⟩,
      let ⟨s', e, h⟩ := portEn_true hk rfl rfl fun _ _ => rfl
      ⟨s', congrArg _ e, h⟩,
      fun partner sizes hen hst => linkTraining_spec k s hk partner sizes hen hst⟩,
    timeSync_spec, thermalLimit_spec, fwActivate_spec,
    attestRequest_spec,
    memoryPortLoss_spec, fun _ _ _ _ => rfl, powerOnReset_spec⟩

end Sys2Proof.Proofs

end

section
/-! R7, R333 to R339: host queues, doorbells and writes of memory-mapped registers. -/

open Sys2Proof Sys2Proof.Machine

namespace Sys2Proof.Proofs

/-! Reads after a write of a partition, a queue or a context. -/

theorem partn_modPart_same (s : State) (p : Nat) (f : Machine.Part → Machine.Part) : (s.modPart p f).partn p = f (s.partn p) := by
  simp [State.partn_modPart]

theorem partn_modPart_of_ne {s : State} {p q : Nat} (f : Machine.Part → Machine.Part) (h : q ≠ p) : (s.modPart p f).partn q = s.partn q := by
  simp [State.partn_modPart, h]

theorem modPart_rest (s : State) (p : Nat) (f : Machine.Part → Machine.Part) : s.modPart p f = { s with parts := (s.modPart p f).parts } := rfl

theorem ctx_modCtx_same (s : State) (c : Nat) (f : Ctx → Ctx) : (s.modCtx c f).ctx c = f (s.ctx c) := by
  simp [State.ctx_modCtx]

theorem ctx_modCtx_of_ne {s : State} {c d : Nat} (f : Ctx → Ctx) (h : d ≠ c) : (s.modCtx c f).ctx d = s.ctx d := by
  simp [State.ctx_modCtx, h]

theorem queue_modQueue (s : State) (p q : Nat) (f : Queue → Queue) (p' j : Nat) :
    (s.modQueue p q f).queue p' j = if p' = p ∧ j = q then f (s.queue p q) else s.queue p' j := by
  unfold State.queue State.modQueue
  by_cases hp : p' = p
  · subst hp
    by_cases hj : j = q <;> simp [partn_modPart_same, Part.queue, Tbl.get_put, hj]
  · simp [partn_modPart_of_ne _ hp, hp]

theorem queue_of_queues {s m : State} {p : Nat} (h : (m.partn p).queues = (s.partn p).queues) (j : Nat) : m.queue p j = s.queue p j := by
  simp [State.queue, Part.queue, h]

/-! Host queues (R333, R336, R337). -/

theorem find?_filter_same (l : List (Nat × Nat)) {q j : Nat} (h : j ≠ q) :
    (l.filter fun x => x.2 != q).find? (fun x => x.2 == j) = l.find? fun x => x.2 == j := by
  rw [List.find?_filter]
  congr 1
  funext x
  by_cases hx : x.2 = j <;> simp [hx, h]

theorem laneOf_free_same (p : Machine.Part) (q : Nat) : (p.free q).laneOf q = none := by
  simp only [Part.laneOf, Part.free, Option.map_eq_none_iff, List.find?_eq_none, List.mem_filter]
  rintro x ⟨-, hx⟩
  simpa using hx

theorem laneOf_free_of_ne {p : Machine.Part} {q j : Nat} (h : j ≠ q) : (p.free q).laneOf j = p.laneOf j :=
  congrArg (Option.map Prod.fst) (find?_filter_same p.lanes h)

/-- The state once a queue that is too far ahead has been stopped, and before its lane is given up. -/
def stoppedQueue (s : State) (part q : Nat) : State :=
  if 2 ^ (s.queue part q).logn < ((s.queue part q).wr - (s.queue part q).rd).toNat
  then s.modQueue part q fun x => { x with err := 2, en := false } else s

theorem checkQueue_eq (s : State) (part q : Nat) : s.checkQueue part q =
    if ((stoppedQueue s part q).queue part q).en && ((stoppedQueue s part q).queue part q).pending then stoppedQueue s part q
    else (stoppedQueue s part q).modPart part (Part.free · q) := rfl

theorem stoppedQueue_rest (s : State) (part q : Nat) :
    stoppedQueue s part q = { s with parts := (stoppedQueue s part q).parts } := by
  unfold stoppedQueue
  split <;> rfl

theorem checkQueue_rest (s : State) (part q : Nat) : s.checkQueue part q = { s with parts := (s.checkQueue part q).parts } := by
  rw [checkQueue_eq]
  split
  · exact stoppedQueue_rest s part q
  · rw [modPart_rest, stoppedQueue_rest]

theorem partn_stoppedQueue_of_ne {s : State} {part p : Nat} (q : Nat) (h : p ≠ part) : (stoppedQueue s part q).partn p = s.partn p := by
  unfold stoppedQueue
  split
  · exact partn_modPart_of_ne _ h
  · rfl

theorem partn_checkQueue_of_ne {s : State} {part p : Nat} (q : Nat) (h : p ≠ part) : (s.checkQueue part q).partn p = s.partn p := by
  rw [checkQueue_eq]
  split
  · exact partn_stoppedQueue_of_ne q h
  · rw [partn_modPart_of_ne _ h, partn_stoppedQueue_of_ne q h]

theorem queue_checkQueue (s : State) (part q j : Nat) : (s.checkQueue part q).queue part j = (stoppedQueue s part q).queue part j := by
  rw [checkQueue_eq]
  split
  · rfl
  · exact queue_of_queues (by rw [partn_modPart_same]; rfl) j

theorem queue_stoppedQueue (s : State) (part q j : Nat) : (stoppedQueue s part q).queue part j =
    if j = q ∧ 2 ^ (s.queue part q).logn < ((s.queue part q).wr - (s.queue part q).rd).toNat
    then { s.queue part q with err := 2, en := false } else s.queue part j := by
  unfold stoppedQueue
  by_cases h : 2 ^ (s.queue part q).logn < ((s.queue part q).wr - (s.queue part q).rd).toNat
  · rw [if_pos h, queue_modQueue]
    simp only [h, true_and, and_true]
  · simp only [if_neg h, h, and_false, if_false]

theorem laneOf_stoppedQueue (s : State) (part q j : Nat) : ((stoppedQueue s part q).partn part).laneOf j = (s.partn part).laneOf j := by
  unfold stoppedQueue
  split
  · rw [State.modQueue, partn_modPart_same]
    rfl
  · rfl

theorem laneOf_checkQueue (s : State) (part q j : Nat) : ((s.checkQueue part q).partn part).laneOf j =
    if j = q ∧ (((stoppedQueue s part q).queue part q).en && ((stoppedQueue s part q).queue part q).pending) = false then none
    else (s.partn part).laneOf j := by
  rw [checkQueue_eq]
  cases ((stoppedQueue s part q).queue part q).en && ((stoppedQueue s part q).queue part q).pending
  · rw [if_neg Bool.false_ne_true, partn_modPart_same]
    by_cases hj : j = q
    · subst hj
      rw [laneOf_free_same, if_pos ⟨rfl, rfl⟩]
    · rw [laneOf_free_of_ne hj, laneOf_stoppedQueue, if_neg (by simp [hj])]
  · rw [if_pos rfl, laneOf_stoppedQueue, if_neg (by simp)]

/-- A queue that has been written and is then checked (R333, R337). -/
theorem checked_modQueue (s : State) (part q : Nat) (f : Queue → Queue) :
    Claims.Checked s ((s.modQueue part q f).checkQueue part q) part q (f (s.queue part q)) := by
  set m := s.modQueue part q f with hm
  have hq : m.queue part q = f (s.queue part q) := by rw [hm, queue_modQueue, if_pos ⟨rfl, rfl⟩]
  have hlane (j : Nat) : (m.partn part).laneOf j = (s.partn part).laneOf j := by
    rw [hm, State.modQueue, partn_modPart_same]
    rfl
  have hstop := queue_stoppedQueue m part q q
  simp only [hq, true_and] at hstop
  set x := f (s.queue part q) with hx
  unfold Claims.Checked
  intro ahead
  refine ⟨fun j hj => ⟨?_, ?_⟩, fun h => ?_, fun h => ?_, fun h => ?_, fun h hen hpend => ?_⟩
  · rw [queue_checkQueue, queue_stoppedQueue, if_neg (by simp [hj]), hm, queue_modQueue, if_neg (by simp [hj])]
  · rw [laneOf_checkQueue, if_neg (by simp [hj]), hlane]
  · rw [queue_checkQueue, hstop, if_pos h]
  · rw [queue_checkQueue, hstop, if_neg h]
  · refine (laneOf_checkQueue ..).trans (if_pos ⟨rfl, ?_⟩)
    rw [hstop]
    by_cases ha : ahead
    · rw [if_pos ha]
      rfl
    · rw [if_neg ha]
      obtain h | h | h := h
      · exact absurd h ha
      · simp [h]
      · simp [Queue.pending, h]
  · rw [laneOf_checkQueue, if_neg, hlane]
    rw [hstop, if_neg h]
    simp [hen, Queue.pending, hpend]

theorem checked_congr {s m s' : State} {part q : Nat} {x : Queue} (h : ∀ p, s'.partn p = m.partn p) (hc : Claims.Checked s m part q x) :
    Claims.Checked s s' part q x := by
  unfold Claims.Checked State.queue at hc ⊢
  rw [h part]
  exact hc

theorem hostQueueDoorbell_spec (part q : Nat) (wr : W32) (s : State) (hq : q < 128) :
    ∃ s', exec (.hostQueueDoorbell part q wr) s = .next s' ∧ s' = { s with parts := s'.parts } ∧ (∀ p, p ≠ part → s'.partn p = s.partn p) ∧
      Claims.Checked s s' part q { s.queue part q with wr := wr, parked := false } := by
  refine ⟨_, congrArg Host.Outcome.next (if_neg (by omega)), ?_, fun p hp => ?_, checked_modQueue ..⟩
  · rw [checkQueue_rest]
    rfl
  · rw [partn_checkQueue_of_ne q hp]
    exact partn_modPart_of_ne _ hp

/-- A context that a queue names comes into being with the queue (log 18). -/
theorem created_spec (s : State) (ctx part : Nat) : ∃ s', (if (s.ctx ctx).created then s
      else s.modCtx ctx fun c => { c with created := true, part := part }) = s' ∧ s' = { s with ctxs := s'.ctxs } ∧
    (∀ c, c ≠ ctx → s'.ctx c = s.ctx c) ∧
    s'.ctx ctx = if (s.ctx ctx).created then s.ctx ctx else { s.ctx ctx with created := true, part := part } := by
  refine ⟨_, rfl, ?_⟩
  split
  · exact ⟨rfl, fun c _ => rfl, rfl⟩
  · exact ⟨rfl, fun c hc => ctx_modCtx_of_ne _ hc, ctx_modCtx_same ..⟩

theorem hostQueueEnable_spec (part q : Nat) (v : W64) (s : State) :
    let ctx := fld v.toNat 32 10
    q < 128 → v.getLsbD 0 = true → fld v.toNat 28 4 ≠ 0 → 4 ≤ fld v.toNat 16 5 → fld v.toNat 16 5 ≤ 16 →
    ∃ s', exec (.hostQueueEnable part q v) s = .next s' ∧ s' = { s with parts := s'.parts, ctxs := s'.ctxs } ∧
      (∀ p, p ≠ part → s'.partn p = s.partn p) ∧
      Claims.Checked s s' part q
        { s.queue part q with ctx := ctx, ver := min (fld v.toNat 28 4) 2, logn := fld v.toNat 16 5, en := true } ∧
      (∀ c, c ≠ ctx → s'.ctx c = s.ctx c) ∧
      s'.ctx ctx = if (s.ctx ctx).created then s.ctx ctx else { s.ctx ctx with created := true, part := part } := by
  intro ctx hq hen hver hlo hhi
  obtain ⟨m, hm⟩ : ∃ m, m = (s.modQueue part q fun x =>
    { x with ctx := ctx, ver := min (fld v.toNat 28 4) 2, logn := fld v.toNat 16 5, en := true }).checkQueue part q := ⟨_, rfl⟩
  have hon : (v.getLsbD 0 && fld v.toNat 28 4 != 0 && decide (4 ≤ fld v.toNat 16 5) && decide (fld v.toNat 16 5 ≤ 16)) = true := by
    simp only [hen, bne_iff_ne.2 hver, hlo, hhi, decide_true, Bool.and_self]
  have hexec : exec (.hostQueueEnable part q v) s = .next (if (m.ctx ctx).created then m
      else m.modCtx ctx fun c => { c with created := true, part := part }) := by
    change execHostQueueEnable .. = _
    unfold execHostQueueEnable
    simp only [if_neg (show ¬ 128 ≤ q by omega), hon, Bool.not_true, Bool.false_or, if_true, hm, ctx]
  have hrest : m = { s with parts := m.parts } := by
    rw [hm, checkQueue_rest]
    rfl
  have hctx (c : Nat) : m.ctx c = s.ctx c := by rw [hrest]; rfl
  obtain ⟨s', e, hs', hother, hown⟩ := created_spec m ctx part
  have hparts (p : Nat) : s'.partn p = m.partn p := (congrArg (State.partn · p) hs').trans rfl
  refine ⟨s', by rw [hexec, e], ?_, fun p hp => ?_, ?_, fun c hc => ?_, ?_⟩
  · rw [hs', hrest]
  · rw [hparts p, hm]
    exact (partn_checkQueue_of_ne q hp).trans (partn_modPart_of_ne _ hp)
  · refine checked_congr hparts ?_
    rw [hm]
    exact checked_modQueue ..
  · rw [hother c hc, hctx]
  · rw [hown, hctx]

theorem jisoetteLaneBind_spec (part lane q : Nat) (s : State) (hl : lane < 32) (hfree : (s.partn part).lanes.find lane = none)
    (hhalt : (s.partn part).halting = none)
    (hnext : ∃ d, d < 128 ∧ q = ((s.partn part).lastQ + 1 + d) % 128 ∧
      (let ok (j : Nat) : Bool := ((s.partn part).queue j).en && !((s.partn part).queue j).parked && ((s.partn part).queue j).pending &&
         ((s.partn part).laneOf j).isNone
       ok q = true ∧ ∀ e, e < d → ok (((s.partn part).lastQ + 1 + e) % 128) = false)) :
    ∃ s', exec (.jisoetteLaneBind part lane) s = .next s' ∧ s' = { s with parts := s'.parts } ∧ (∀ p, p ≠ part → s'.partn p = s.partn p) ∧
      s'.partn part = { s.partn part with lanes := (s'.partn part).lanes, lastQ := q } ∧
      ∀ l, (s'.partn part).lanes.find l = if l = lane then some q else (s.partn part).lanes.find l := by
  obtain ⟨d, hd, rfl, hok, hbefore⟩ := hnext
  have hfind : ((List.range 128).map fun i => ((s.partn part).lastQ + 1 + i) % 128).find? (fun j => ((s.partn part).queue j).en &&
      !((s.partn part).queue j).parked && ((s.partn part).queue j).pending && ((s.partn part).laneOf j).isNone) =
      some (((s.partn part).lastQ + 1 + d) % 128) := by
    rw [List.find?_map, List.find?_range_eq_some.2 ⟨hok, List.mem_range.2 hd, fun e he => by simpa only [Function.comp_apply, Bool.not_eq_true'] using hbefore e he⟩]
    rfl
  have hexec : exec (.jisoetteLaneBind part lane) s = .next (s.modPart part fun p =>
      { p with lanes := p.lanes.put lane (((s.partn part).lastQ + 1 + d) % 128), lastQ := ((s.partn part).lastQ + 1 + d) % 128 }) := by
    have hl' : ¬ 32 ≤ lane := by omega
    change execJisoetteLaneBind .. = _
    unfold execJisoetteLaneBind
    simp only [hl', hfree, hhalt, hfind, decide_false, Option.isSome_none, Bool.or_false, Bool.false_eq_true, if_false]
  refine ⟨_, hexec, rfl, fun p hp => partn_modPart_of_ne _ hp, ?_, fun l => ?_⟩
  · rw [partn_modPart_same]
  · rw [partn_modPart_same]
    exact Tbl.find_put ..

/-! Registers (R7). -/

/-- The number of a counter names it. -/
theorem ctr_no_inj {c d : Ctr} (h : c.no = d.no) : c = d := by
  cases c <;> cases d <;> first | rfl | exact absurd h (by decide)

theorem ctr_key_inj {c d : Ctr} {i j : Nat} (hi : i < 65536) (hj : j < 65536) (h : c.key i = d.key j) : c = d ∧ i = j := by
  unfold Ctr.key at h
  exact ⟨ctr_no_inj (by omega), by omega⟩

theorem registerWrite_ctr {r : RegName} {c : Ctr} {i : Nat} {v : W64} {s : State} (h : regCtr r = some c) (hi : i < 65536) :
    ∃ s', exec (.registerWrite r i v) s = .next s' ∧ s' = { s with ctr := s'.ctr } ∧
      s'.count c i = v.toNat % 2 ^ c.width ∧ ∀ d j, j < 65536 → (d ≠ c ∨ j ≠ i) → s'.count d j = s.count d j := by
  have hexec : exec (.registerWrite r i v) s = .next (s.setCount c i v.toNat) := by
    change execRegisterWrite .. = _
    simp [execRegisterWrite, h, hi]
  refine ⟨_, hexec, rfl, Tbl.get_set_same .., fun d j hj hne => Tbl.get_set_of_ne _ _ _ fun hk => ?_⟩
  obtain ⟨rfl, rfl⟩ := ctr_key_inj hj hi hk
  tauto

theorem registerWrite_other {r : RegName} (h : regCtr r = none) (i : Nat) (v : W64) (s : State) :
    exec (.registerWrite r i v) s = .next (s.writeReg r i v) := by
  change execRegisterWrite .. = _
  simp [execRegisterWrite, h]

theorem registerWrite_ngzReplay (k : Fin 18) (i : Nat) (v : W64) (s : State) :
    let p := { s.port k.val with replay := BitVec.ofNat 32 (fld v.toNat 32 32) }
    ∃ s', exec (.registerWrite (.ngzReplay k) i v) s = .next s' ∧
      (v.getLsbD 0 = false → Claims.Down s s' k.val { p with en := false }) ∧
      (v.getLsbD 0 = true → s' = { s with ports := s'.ports } ∧ (∀ j, j ≠ k.val → s'.port j = s.port j) ∧
        s'.port k.val = { p with en := true, state := if p.state = 3 then 1 else p.state }) := by
  intro p
  have hm : s.modPort k.val (fun p => { p with replay := BitVec.ofNat 32 (fld v.toNat 32 32) }) = { s with ports := s.ports.put k.val p } :=
    modPort_eq k.isLt s _
  have hexec : exec (.registerWrite (.ngzReplay k) i v) s = .next (({ s with ports := s.ports.put k.val p } : State).portEn k.val (v.getLsbD 0)) := by
    rw [registerWrite_other rfl, ← hm]
    rfl
  have hp := (port_put s k.val k.val p).trans (if_pos rfl)
  have hother (j : Nat) (hj : j ≠ k.val) := (port_put s k.val j p).trans (if_neg hj)
  refine ⟨_, hexec, fun h => ?_, fun h => ?_⟩
  · rw [h]
    exact portEn_false k.isLt rfl hp hother
  · rw [h]
    obtain ⟨s', e, hs'⟩ := portEn_true k.isLt rfl hp hother
    rw [e]
    exact hs'

theorem registerWrite_schQbase (i : Nat) (v : W64) (s : State) :
    ∃ s', exec (.registerWrite .schQbase i v) s = .next s' ∧ s' = { s with parts := s'.parts } ∧
      (∀ p q, q < 128 → s'.queue p q = if p = i / 128 ∧ q = i % 128 then { s.queue p q with base := fld v.toNat 6 51 } else s.queue p q) := by
  refine ⟨_, rfl, rfl, fun p q _ => ?_⟩
  refine (queue_modQueue ..).trans ?_
  by_cases h : p = i / 128 ∧ q = i % 128
  · rw [if_pos h, if_pos h, h.1, h.2]
  · rw [if_neg h, if_neg h]

theorem registerWrite_dbgCtl (i : Nat) (v : W64) (s : State) (hhalt : v.getLsbD 0 = false) (hdbg : (s.ctx i).dbgHalt = false) :
    ∃ s', exec (.registerWrite .dbgCtl i v) s = .next s' ∧ s' = { s with ctxs := s'.ctxs } ∧ (∀ c, c ≠ i → s'.ctx c = s.ctx c) ∧
      s'.ctx i = { s.ctx i with dbgBkfreeze := v.getLsbD 2, dbgQuiesce := v.getLsbD 1 } := by
  have hexec : exec (.registerWrite .dbgCtl i v) s =
      .next (s.modCtx i fun c => { c with dbgBkfreeze := v.getLsbD 2, dbgQuiesce := v.getLsbD 1 }) := by
    rw [registerWrite_other rfl]
    simp only [State.writeReg, hhalt, Bool.false_eq_true, if_false, State.debugResume, ctx_modCtx_same, hdbg, Bool.not_false, if_true]
  exact ⟨_, hexec, rfl, fun c hc => ctx_modCtx_of_ne _ hc, ctx_modCtx_same ..⟩

theorem registerWrite_memClass (k : Fin 8) (i : Nat) (v : W64) (s : State) :
    ∃ s', exec (.registerWrite (.memClass k) i v) s = .next s' ∧ s' = { s with classes := s'.classes } ∧
      ∀ j, s'.classes.get ClassReg.zero j = if j = k.val then ⟨v.getLsbD 20, BitVec.ofNat 2 (fld v.toNat 18 2),
          if fld v.toNat 16 2 = 3 then (s.classes.get ClassReg.zero k.val).wpol else BitVec.ofNat 2 (fld v.toNat 16 2),
          BitVec.ofNat 16 (fld v.toNat 0 16)⟩
        else s.classes.get ClassReg.zero j :=
  ⟨_, rfl, rfl, fun j => Tbl.get_put ..⟩

/-- A write of a register of a context, whose write is a change of that context. -/
theorem registerWrite_modCtx {r : RegName} {i : Nat} {v : W64} {s : State} {f : Ctx → Ctx}
    (h : exec (.registerWrite r i v) s = .next (s.modCtx i f)) :
    ∃ s', exec (.registerWrite r i v) s = .next s' ∧ s' = { s with ctxs := s'.ctxs } ∧ (∀ c, c ≠ i → s'.ctx c = s.ctx c) ∧
      s'.ctx i = f (s.ctx i) :=
  ⟨_, h, rfl, fun c hc => ctx_modCtx_of_ne _ hc, ctx_modCtx_same ..⟩

/-- The same for a register of a partition. -/
theorem registerWrite_modPart {r : RegName} {i : Nat} {v : W64} {s : State} {f : Machine.Part → Machine.Part}
    (h : exec (.registerWrite r i v) s = .next (s.modPart i f)) :
    ∃ s', exec (.registerWrite r i v) s = .next s' ∧ s' = { s with parts := s'.parts } ∧ (∀ p, p ≠ i → s'.partn p = s.partn p) ∧
      s'.partn i = f (s.partn i) :=
  ⟨_, h, rfl, fun p hp => partn_modPart_of_ne _ hp, partn_modPart_same ..⟩

theorem ofNat_toNat_truncate (v : W64) : BitVec.ofNat 32 v.toNat = v.truncate 32 := by
  apply BitVec.eq_of_toNat_eq
  simp

theorem registerWrite_devPcap (i : Nat) (v : W64) (s : State) : exec (.registerWrite .devPcap i v) s =
    .next { s with pcap := if 1000 ≤ v.toNat ∧ v.toNat ≤ 2800 then v else s.pcap } := by
  rw [registerWrite_other rfl]
  by_cases h : 1000 ≤ v.toNat ∧ v.toNat ≤ 2800 <;> simp [State.writeReg, h]

theorem registerWrite_qword (k : Fin 16) (i : Nat) (v : W64) (s : State) :
    ∃ s', exec (.registerWrite (.schQword k) i v) s = .next s' ∧ s' = { s with ctxs := s'.ctxs } ∧ (∀ c, c ≠ i → s'.ctx c = s.ctx c) ∧
      s'.ctx i = { s.ctx i with qword := (s.ctx i).qword.put k.val (v &&& 0x81FFFFFFFFFFFFF8) } :=
  registerWrite_modCtx (f := fun c => { c with qword := c.qword.put k.val (v &&& 0x81FFFFFFFFFFFFF8) }) rfl

/-- Settles O60. -/
theorem hostRegisters : Obligations.HostRegisters := by
  refine ⟨⟨hostQueueDoorbell_spec, hostQueueEnable_spec, jisoetteLaneBind_spec⟩, fun i v s => ?_⟩
  refine ⟨fun r c h hi => registerWrite_ctr h hi, rfl, registerWrite_devPcap i v s, rfl, rfl, fun k => registerWrite_ngzReplay k i v s,
    registerWrite_schQbase i v s, registerWrite_dbgCtl i v s, fun k => registerWrite_qword k i v s, fun k => registerWrite_memClass k i v s,
    fun r f h => ?_, fun r f h => ?_⟩
  · simp only [List.mem_cons, Prod.mk.injEq, List.not_mem_nil, or_false] at h
    obtain ⟨rfl, hf⟩ | ⟨rfl, hf⟩ | ⟨rfl, hf⟩ := h
    · exact registerWrite_modPart (by rw [hf, ← ofNat_toNat_truncate]; rfl)
    · exact registerWrite_modPart (by rw [hf, ← ofNat_toNat_truncate]; rfl)
    · exact registerWrite_modPart (by rw [hf]; rfl)
  · simp only [List.mem_cons, Prod.mk.injEq, List.not_mem_nil, or_false] at h
    obtain ⟨rfl, hf⟩ | ⟨rfl, hf⟩ | ⟨rfl, hf⟩ | ⟨rfl, hf⟩ | ⟨rfl, hf⟩ | ⟨rfl, hf⟩ | ⟨rfl, hf⟩ | ⟨rfl, hf⟩ | ⟨rfl, hf⟩ | ⟨rfl, hf⟩ := h
    case inr.inr.inr.inl => exact registerWrite_modCtx (by rw [hf, ← ofNat_toNat_truncate]; rfl)
    all_goals exact registerWrite_modCtx (by rw [hf]; rfl)

end Sys2Proof.Proofs

end

section
/-! R72, R105, R212, R258, R260, R328: the events that end a party's wait. -/

open Sys2Proof Sys2Proof.Machine

namespace Sys2Proof.Proofs

/-- A party that waits in an instruction stands on its core. -/
theorem partyHere_of_waitingIn {s : State} {p : Party} {i : Instr} (h : s.waitingIn p = some i) : PartyHere (s.turnOf p) := by
  cases p with
  | team c slot =>
    cases ht : s.team? c slot with
    | some t => exact Option.isSome_iff_exists.2 ⟨t, ht⟩
    | none => simp [State.waitingIn, ht] at h
  | ridge c =>
    cases hr : s.ridge? c with
    | some r => exact Option.isSome_iff_exists.2 ⟨r, hr⟩
    | none => simp [State.waitingIn, hr] at h

/-- An event that takes the party through the instruction it waits in ends its wait. -/
theorem ends_of_took {s : State} {p : Party} {e i : Instr} (hw : s.waitingIn p = some i)
    (he : exec e s = .next (s.took p i (exec i (s.turnOf p)))) :
    ∃ s', exec i { s with cur := p } = .next s' ∧ exec e s = .next (s.ran p i s') := by
  obtain ⟨s', hs'⟩ := Answers.exec_of_partyHere (partyHere_of_waitingIn hw) i
  refine ⟨s', hs', ?_⟩
  rw [he, hs']
  rfl

section
variable {s : State} {p : Party} {i : Instr} (hw : s.waitingIn p = some i)
include hw

theorem exec_queueMoveComplete (hi : (∃ h f, i = .smov h f) ∨ ∃ h f w, i = .vmov h f w) :
    exec (.queueMoveComplete p) s = .next (s.took p i (exec i (s.turnOf p))) := by
  change execQueueMoveComplete p s = _
  obtain ⟨h, f, rfl⟩ | ⟨h, f, w, rfl⟩ := hi <;> simp only [execQueueMoveComplete, hw] <;> rfl

theorem exec_refillWaitEnd (hi : ∃ h q w o, i = .refill h q w o) :
    exec (.refillWaitEnd p) s = .next (s.took p i (exec i (s.turnOf p))) := by
  change execRefillWaitEnd p s = _
  obtain ⟨h, q, w, o, rfl⟩ := hi
  simp only [execRefillWaitEnd, hw]
  rfl

theorem exec_ringReserveRetry (hi : (∃ h a b c, i = .copy h a b c) ∨ (∃ h a b c, i = .copym h a b c) ∨ (∃ h a b c, i = .chain h a b c) ∨
    ∃ h a b c sp, i = .kvapp h a b c sp) : exec (.ringReserveRetry p) s = .next (s.took p i (exec i (s.turnOf p))) := by
  change execRingReserveRetry p s = _
  obtain ⟨h, a, b, c, rfl⟩ | ⟨h, a, b, c, rfl⟩ | ⟨h, a, b, c, rfl⟩ | ⟨h, a, b, c, sp, rfl⟩ := hi <;>
    simp only [execRingReserveRetry, hw] <;> rfl

theorem exec_fwaitReturn (hi : ∃ h a b n, i = .fwait h a b n) :
    exec (.fwaitReturn p) s = .next (s.took p i (exec i (s.turnOf p))) := by
  change execFwaitReturn p s = _
  obtain ⟨h, a, b, n, rfl⟩ := hi
  simp only [execFwaitReturn, hw]
  rfl

theorem exec_barrierWaitEnd (hi : (∃ h a b, i = .bwait h a b) ∨ ∃ h b, i = .bsync h b) :
    exec (.barrierWaitEnd p) s = .next (s.took p i (exec i (s.turnOf p))) := by
  change execBarrierWaitEnd p s = _
  obtain ⟨h, a, b, rfl⟩ | ⟨h, b, rfl⟩ := hi <;> simp only [execBarrierWaitEnd, hw] <;> rfl

theorem exec_wparkDeliver (hi : ∃ h d b c q, i = .wpark h d b c q) (hrec : s.parkHolds p = true) :
    exec (.wparkDeliver p) s = .next (s.took p i (exec i (s.turnOf p))) := by
  change execWparkDeliver p s = _
  obtain ⟨h, d, b, c, q, rfl⟩ := hi
  simp only [execWparkDeliver, hw, hrec, if_true]
  rfl

theorem exec_wparkLapse (hi : ∃ h d b c q, i = .wpark h d b c q) (hrec : s.parkHolds p = false) :
    exec (.wparkLapse p) s = .next (s.took p i (exec i (s.turnOf p))) := by
  change execWparkLapse p s = _
  obtain ⟨h, d, b, c, q, rfl⟩ := hi
  simp only [execWparkLapse, hw, hrec, Bool.false_eq_true, if_false]
  rfl

end

/-- Settles O39. -/
theorem waitEndsRunTheInstruction : Obligations.WaitEndsRunTheInstruction := by
  intro p s
  refine ⟨fun h f w => ends_of_took w (exec_queueMoveComplete w (.inl ⟨h, f, rfl⟩)),
    fun h f wide w => ends_of_took w (exec_queueMoveComplete w (.inr ⟨h, f, wide, rfl⟩)),
    fun h q wt o w => ends_of_took w (exec_refillWaitEnd w ⟨h, q, wt, o, rfl⟩),
    fun h a b c w => ends_of_took w (exec_ringReserveRetry w (.inl ⟨h, a, b, c, rfl⟩)),
    fun h a b c w => ends_of_took w (exec_ringReserveRetry w (.inr (.inl ⟨h, a, b, c, rfl⟩))),
    fun h a b c w => ends_of_took w (exec_ringReserveRetry w (.inr (.inr (.inl ⟨h, a, b, c, rfl⟩)))),
    fun h a b c sp w => ends_of_took w (exec_ringReserveRetry w (.inr (.inr (.inr ⟨h, a, b, c, sp, rfl⟩)))),
    fun h a b n w => ends_of_took w (exec_fwaitReturn w ⟨h, a, b, n, rfl⟩),
    fun h a b w => ends_of_took w (exec_barrierWaitEnd w (.inl ⟨h, a, b, rfl⟩)),
    fun h b w => ends_of_took w (exec_barrierWaitEnd w (.inr ⟨h, b, rfl⟩)),
    fun h d b c q w => ⟨fun hr => ends_of_took w (exec_wparkDeliver w ⟨h, d, b, c, q, rfl⟩ hr),
      fun hr => ends_of_took w (exec_wparkLapse w ⟨h, d, b, c, q, rfl⟩ hr)⟩⟩

end Sys2Proof.Proofs

end

section
/-! What an access to memory leaves behind on its way: lines of the shared caches, counters, errors noted and walks. -/

open Sys2Proof Sys2Proof.Machine

namespace Sys2Proof.Proofs

/-- m is s but for what accesses on their way change: the shared caches and their compressed blocks, the errors noted, and counts. -/
def Aside (s m : State) : Prop :=
  m = { s with slices := m.slices, eccOnes := m.eccOnes, ctr := m.ctr, comp := m.comp, free := m.free, sent := m.sent }

theorem Aside.refl (s : State) : Aside s s := rfl

theorem Aside.trans {a b c : State} (h : Aside a b) (g : Aside b c) : Aside a c := by
  unfold Aside at *
  rw [g, h]

theorem Aside.foldl {α : Type} {f : State → α → State} (hf : ∀ s a, Aside s (f s a)) (l : List α) (s : State) : Aside s (l.foldl f s) := by
  induction l generalizing s with
  | nil => exact .refl s
  | cons a l ih => exact (hf s a).trans (ih _)

theorem Aside.bump (s : State) (c : Ctr) (n k : Nat) : Aside s (s.bump c n k) := rfl

theorem Aside.setSlice (s : State) (k : Nat) (x : Slice) : Aside s (s.setSlice k x) := rfl

theorem Aside.corrected (s : State) (key : Nat) : Aside s (s.corrected key) := by
  unfold State.corrected
  split <;> rfl

/-! The shared caches alone: their lines, the compressed blocks they write back, and counts. -/

def Cached (s m : State) : Prop := m = { s with slices := m.slices, ctr := m.ctr, comp := m.comp, free := m.free }

theorem Cached.refl (s : State) : Cached s s := rfl

theorem Cached.trans {a b c : State} (h : Cached a b) (g : Cached b c) : Cached a c := by
  unfold Cached at *
  rw [g, h]

theorem Cached.aside {s m : State} (h : Cached s m) : Aside s m := by
  unfold Cached at h
  unfold Aside
  rw [h]

theorem Cached.bump (s : State) (c : Ctr) (n k : Nat) : Cached s (s.bump c n k) := rfl

theorem Cached.setSlice (s : State) (k : Nat) (x : Slice) : Cached s (s.setSlice k x) := rfl

theorem Cached.saved (s : State) (pa : Nat) : Cached s (s.saved pa) := by
  unfold State.saved
  extract_lets n
  clear_value n
  split <;> rfl

theorem Cached.compress (s : State) (pa cls : Nat) : Cached s (s.compress pa cls) := by
  unfold State.compress
  dsimp only
  split
  · rfl
  · split
    · rfl
    · exact Cached.trans (b := State.tickFree { s with comp := s.comp.set 0 (pa / 512) _ }) rfl (.saved ..)

theorem Cached.writeBack (s : State) (out : List L2Line) : Cached s (s.writeBack out) := by
  unfold State.writeBack
  generalize out.filter L2Line.dirty = l
  revert s
  induction l with
  | nil => exact fun s => .refl s
  | cons e l ih => exact fun s => Cached.trans (.compress ..) (ih _)

theorem Cached.l2Access (s : State) (pa cls : Nat) (write : Bool) : Cached s (s.l2Access pa cls write).1 := by
  have hput (m : State) (b : Bool) : Cached m (if b then m.compress pa cls else m) := by
    cases b
    · exact .refl m
    · exact .compress ..
  unfold State.l2Access
  extract_lets
  split
  · exact (Cached.setSlice ..).trans (hput ..)
  · split
    · exact (Cached.saved ..).trans ((Cached.setSlice ..).trans (hput ..))
    · exact (Cached.saved ..).trans ((Cached.setSlice ..).trans ((Cached.writeBack ..).trans (hput ..)))

theorem Aside.l2Access (s : State) (pa cls : Nat) (write : Bool) : Aside s (s.l2Access pa cls write).1 := (Cached.l2Access ..).aside

theorem Aside.readAt (s : State) (k cls : Nat) : Aside s (s.readAt k cls) := by
  unfold State.readAt
  dsimp only
  split
  · exact .corrected ..
  · split
    · exact (Aside.corrected ..).trans (.l2Access ..)
    · exact (Aside.corrected s k).trans rfl

theorem Aside.noteEcc (s : State) (key : Nat) : Aside s (s.noteEcc key) := by
  unfold State.noteEcc
  split <;> rfl

theorem Aside.walkedReads (s : State) (ctx va : Nat) : Aside s (s.walkedReads ctx va) := by
  unfold State.walkedReads
  dsimp only
  refine Aside.trans (b := match (s.walkReads ctx va).find? s.eccBad with | some k => s.noteEcc k | none => s) ?_
    (.foldl (fun s k => .readAt ..) _ _)
  split
  · exact .noteEcc ..
  · exact .refl s

/-! Walks, and the halt that a walk on bad tables raises (R290, R394). -/

/-- The same, with the walks asked for and the partitions' halts. -/
def WalkAside (s m : State) : Prop :=
  m = { s with slices := m.slices, eccOnes := m.eccOnes, ctr := m.ctr, comp := m.comp, free := m.free, sent := m.sent,
               walks := m.walks, parts := m.parts }

theorem WalkAside.refl (s : State) : WalkAside s s := rfl

theorem WalkAside.trans {a b c : State} (h : WalkAside a b) (g : WalkAside b c) : WalkAside a c := by
  unfold WalkAside at *
  rw [g, h]

theorem WalkAside.foldl {α : Type} {f : State → α → State} (hf : ∀ s a, WalkAside s (f s a)) (l : List α) (s : State) :
    WalkAside s (l.foldl f s) := by
  induction l generalizing s with
  | nil => exact .refl s
  | cons a l ih => exact (hf s a).trans (ih _)

theorem Aside.walk {s m : State} (h : Aside s m) : WalkAside s m := by
  unfold Aside at h
  unfold WalkAside
  rw [h]

theorem fatal_parts (s : State) (part unit : Nat) (cause : Cause) (slot resume : Nat) (faddr : W64) :
    s.fatal part unit cause slot resume faddr = { s with parts := (s.fatal part unit cause slot resume faddr).parts } := by
  unfold State.fatal
  dsimp only
  split
  · rfl
  · split <;> rfl

theorem WalkAside.fatal (s : State) (part unit : Nat) (cause : Cause) (slot resume : Nat) (faddr : W64) :
    WalkAside s (s.fatal part unit cause slot resume faddr) := by
  unfold WalkAside
  rw [fatal_parts]

theorem WalkAside.fatalAt (s : State) (core slot : Nat) (cause : Cause) (resume : Nat) (faddr : W64) :
    WalkAside s (s.fatalAt core slot cause resume faddr) := .fatal ..

theorem WalkAside.startWalk (s : State) (st core ctx va : Nat) : WalkAside s (s.startWalk st core ctx va) := by
  unfold State.startWalk
  split
  · rfl
  · have h : WalkAside s ((s.walkedReads ctx va).bump .walks st 1) := (Aside.walkedReads s ctx va).walk.trans rfl
    dsimp only
    split
    · exact h
    · exact h.trans rfl

theorem WalkAside.tlbFill (s : State) (core ctx va : Nat) : WalkAside s (s.tlbFill core ctx va) := by
  have h : WalkAside s ((s.bump .tlbmiss core 1).startWalk (stackOf core) core ctx va) :=
    (Aside.bump s .tlbmiss core 1).walk.trans (.startWalk ..)
  unfold State.tlbFill
  split
  · exact .refl s
  · dsimp only
    split
    · exact h.trans (.fatalAt ..)
    · exact h

theorem WalkAside.fetchFill (s : State) (core ctx va : Nat) : WalkAside s (s.fetchFill core ctx va) := by
  unfold State.fetchFill
  split
  · exact .refl s
  · exact .tlbFill ..

section
variable {s m : State} (h : WalkAside s m)
include h

theorem WalkAside.team (c slot : Nat) : m.team? c slot = s.team? c slot := by rw [h]; rfl
theorem WalkAside.ridge (c : Nat) : m.ridge? c = s.ridge? c := by rw [h]; rfl
theorem WalkAside.core (c : Nat) : m.core c = s.core c := by rw [h]; rfl
theorem WalkAside.ctx (c : Nat) : m.ctx c = s.ctx c := by rw [h]; rfl
theorem WalkAside.memGet (a : Nat) : m.memGet a = s.memGet a := by rw [h]; rfl

theorem WalkAside.untouched : Claims.Untouched s m := by
  refine ⟨?_, ?_, ?_, ?_, h.memGet⟩ <;> rw [h]

end

end Sys2Proof.Proofs

end

section
/-! R59, R66, R67: branches. A transfer asks for its target's word and then moves the team. -/

open Sys2Proof Sys2Proof.Machine

namespace Sys2Proof.Proofs

/-! A team that is put elsewhere. -/

/-- n is m with a team put into a slot, its vector registers as they read in m. -/
structure Placed (m n : State) (c slot : Nat) (t1 : Team) : Prop where
  team : n.team? c slot = some t1
  frame : TeamFrame m n c slot
  vregs : ∀ r l, n.vreg c slot r l = m.vreg c slot r l

theorem Placed.setTeam {m : State} {c slot : Nat} {t t1 : Team} (hs : slot < 16) (hm : m.team? c slot = some t) (hv : t1.vmap = t.vmap) :
    Placed m (m.setTeam c slot t1) c slot t1 := by
  refine ⟨State.team_setTeam_same .., TeamFrame.setTeam m c slot t1 hs, fun r l => ?_⟩
  simp only [State.vreg, hm, State.team_setTeam_same, readV, Team.slice, hv]
  rfl

theorem Placed.bump {m n : State} {c slot : Nat} {t1 : Team} (h : Placed m n c slot t1) (ctr : Ctr) (i k : Nat) :
    Placed m (n.bump ctr i k) c slot t1 :=
  ⟨h.team, h.frame.trans (teamFrame_counts ..), h.vregs⟩

/-- A push stays in the team's frame: a spilled entry is counted (R58). -/
theorem Placed.push {m : State} {c slot : Nat} {t t1 : Team} (hs : slot < 16) (hm : m.team? c slot = some t) (hv : t1.vmap = t.vmap)
    (e : Entry) : Placed m (m.push c slot t1 e) c slot { t1 with stk := e :: t1.stk } := by
  have h : Placed m (m.setTeam c slot { t1 with stk := e :: t1.stk }) c slot { t1 with stk := e :: t1.stk } := .setTeam hs hm hv
  unfold State.push
  dsimp only
  split
  · exact h.bump ..
  · exact h

/-- A finished effect that moved the team's mask and stack. -/
theorem Placed.moved_done {i : Instr} {h : Hdr} {s m n : State} {c slot : Nat} {t t1 : Team} {act : Mask} {stk : List Entry}
    (hp : Placed m n c slot t1) (hs : slot < 16) (ht : t1 = { t with act := act, stk := stk }) :
    Claims.Moved m (settleTeam i h s c slot t (.done n)) c slot t (s.nextOf c t) act stk := by
  obtain ⟨t', h1, h2, h3, h4, h5⟩ := (settleTeam_done (i := i) (h := h) (s := s) (t := t) hp.team).spec hp.team hs
  refine ⟨hp.frame.trans h4, fun r l => (h5 r l).trans (hp.vregs r l), t', h1, ?_, ?_⟩
  · rw [h3, ht]
    rfl
  · rw [h2, ht]

/-- A team that has been placed and whose results have aged. -/
theorem Placed.moved_aged {m n s' : State} {c slot : Nat} {t t1 : Team} {pc : Nat × Bool} {act : Mask} {stk : List Entry}
    (hp : Placed m n c slot t1) (hs : slot < 16) (ha : Aged c slot n s')
    (ht : t1 = { t with pc := pc.1, atHdr := pc.2, wait := none, act := act, stk := stk, back := t1.back, slip := t1.slip }) :
    Claims.Moved m s' c slot t pc act stk := by
  obtain ⟨hframe, hvregs⟩ := ha.frame hs
  obtain ⟨t2, sh, h1, h2, h3⟩ := ha
  rw [hp.team] at h1
  cases h1
  refine ⟨hp.frame.trans hframe, fun r l => (hvregs r l).trans (hp.vregs r l), { t1 with shadows := sh }, ?_, ?_, ?_⟩
  · rw [h2, State.team_setTeam_same]
  · rw [h3, ht]
    rfl
  · rw [ht]

/-- An effect that placed the pc as well. -/
theorem Placed.moved_went {i : Instr} {h : Hdr} {s m n : State} {c slot : Nat} {t t1 : Team} {pc : Nat × Bool} {act : Mask} {stk : List Entry}
    (hp : Placed m n c slot t1) (hs : slot < 16)
    (ht : t1 = { t with pc := pc.1, atHdr := pc.2, wait := none, act := act, stk := stk, back := t1.back, slip := t1.slip }) :
    Claims.Moved m (settleTeam i h s c slot t (.went n)) c slot t pc act stk :=
  hp.moved_aged hs (settleTeam_went hp.team) ht

theorem moved_same {i : Instr} {h : Hdr} {s m : State} {c slot : Nat} {t : Team} (hs : slot < 16) (hm : m.team? c slot = some t) :
    Claims.Moved m (settleTeam i h s c slot t (.done m)) c slot t (s.nextOf c t) t.act t.stk :=
  Placed.moved_done ⟨hm, .refl .., fun _ _ => rfl⟩ hs rfl

/-! A target's word is asked for. -/

theorem asked_walk (s : State) (c ctx target : Nat) : WalkAside s (Claims.asked s c ctx target) := .fetchFill ..

section
variable {s : State} {c ctx target : Nat} {go : State → Res}

theorem asks_wait (h : Claims.Asks s c ctx target) (h8 : target % 8 = 0) : s.fetchWaits c ctx target = false := by
  have e : target / 8 * 8 = target := by omega
  rw [← e]
  exact h

theorem asked_eq (h8 : target % 8 = 0) : s.fetchFill c ctx target = Claims.asked s c ctx target := by
  have e : target / 8 * 8 = target := by omega
  unfold Claims.asked
  rw [e]

theorem target_aligned (h : Claims.GoodTarget s c ctx target) : target % 8 = 0 := by
  have := h.2
  unfold State.badTarget at this
  simp only [Bool.or_eq_false_iff, bne_eq_false_iff_eq] at this
  exact this.1

theorem toTarget_good (h : Claims.GoodTarget s c ctx target) : s.toTarget c ctx target go = go (Claims.asked s c ctx target) := by
  have h8 := target_aligned h
  unfold State.toTarget
  rw [if_neg (by omega), if_neg (by simp [asks_wait h.1 h8]), if_neg (by simp [h.2]), asked_eq h8]

theorem toTarget_odd (h : target % 8 ≠ 0) : s.toTarget c ctx target go = .trap .illegalTarget (BitVec.ofNat 64 target) := if_pos h

theorem toTarget_bad (h8 : target % 8 = 0) (h : Claims.Asks s c ctx target) (hb : s.badTarget c ctx target = true) :
    s.toTarget c ctx target go = .trapIn (Claims.asked s c ctx target) .illegalTarget (BitVec.ofNat 64 target) := by
  unfold State.toTarget
  rw [if_neg (by omega), if_neg (by simp [asks_wait h h8]), if_pos hb, asked_eq h8]

theorem toTarget_hold (h8 : target % 8 = 0) (h : ¬ Claims.Asks s c ctx target) : s.toTarget c ctx target go = .hold := by
  have e : target / 8 * 8 = target := by omega
  have hw : s.fetchWaits c ctx target = true := by
    rw [← e]
    simpa [Claims.Asks] using h
  unfold State.toTarget
  rw [if_neg (by omega), if_pos hw]

theorem toTarget_not_short (hgo : ∀ m w, go m ≠ .short w) (w : Nat) : s.toTarget c ctx target go ≠ .short w := by
  unfold State.toTarget
  split
  · exact Res.noConfusion
  · split
    · exact Res.noConfusion
    · split
      · exact Res.noConfusion
      · exact hgo _ w

end

/-- A transfer whose effect asks for a target that is none traps, or waits (R14). -/
theorem badTarget_of_toTarget {i : Instr} {h : Hdr} {s : State} {c slot : Nat} {t : Team} {target : Nat} {go : State → Res}
    {o : Host.Outcome State Fault Refusal} (ho : o = .next (settleTeam i h s c slot t (s.toTarget c t.ctx target go))) :
    Claims.BadTarget s c slot t target o := by
  refine ⟨fun h8 => ?_, fun h8 ha hb => ?_, fun h8 ha => ?_⟩
  · rw [ho, toTarget_odd h8]
    rfl
  · rw [ho, toTarget_bad h8 ha hb]
    rfl
  · rw [ho, toTarget_hold h8 ha]
    rfl

/-! BRA and JMPS (R59, R66). -/

theorem push_not_short (x : X) (target : Nat) (s : State) (left : Mask) (rpc w : Nat) : X.branch.push x target s left rpc ≠ .short w := by
  unfold X.branch.push
  split <;> exact Res.noConfusion

theorem branch_not_short (x : X) (s : State) (target w : Nat) : x.branch s target ≠ .short w := by
  unfold X.branch
  extract_lets
  split
  · exact Res.noConfusion
  · refine toTarget_not_short (fun m w => ?_) w
    extract_lets
    split
    · exact Res.noConfusion
    · split
      · exact Res.noConfusion
      · refine toTarget_not_short (fun n w => ?_) w
        extract_lets
        split
        · split
          · exact Res.noConfusion
          · exact push_not_short _ _ _ _ _ w
        · exact push_not_short _ _ _ _ _ w

/-- A branch of a team runs X.branch to its target. -/
theorem exec_of_branchTo {i : Instr} {h : Hdr} {target : Nat} {s : State} {c slot : Nat} {t : Team}
    (e : Claims.branchTo t.pc t.rs i = some (h, target)) (w : TeamIssues i h s c slot t) :
    exec i s = .next (settleTeam i h s c slot t ((t.x s c slot h).branch s target)) := by
  unfold Claims.branchTo at e
  split at e <;> cases e
  · exact runBoth_plain w (branch_not_short _ _ _)
  · exact runBoth_plain w (branch_not_short _ _ _)

section
variable {i : Instr} {h : Hdr} {target : Nat} {s : State} {c slot : Nat} {t : Team}

theorem branch_none (h0 : t.adm h = 0) : (t.x s c slot h).branch s target = .done s := if_pos h0

theorem branch_admitted (h0 : t.adm h ≠ 0) : ∃ go, (t.x s c slot h).branch s target = s.toTarget c t.ctx target go :=
  ⟨_, if_neg h0⟩

section
variable (h0 : t.adm h ≠ 0) (hgood : Claims.GoodTarget s c t.ctx target)
include h0 hgood

theorem branch_whole (ha : t.adm h = t.act) : (t.x s c slot h).branch s target = (t.x s c slot h).goto (Claims.asked s c t.ctx target) target := by
  refine (if_neg h0).trans ((toTarget_good hgood).trans (if_pos ha))

/-- A branch that diverges asks for the reconvergence header, where its block has one (R66, R80). -/
theorem branch_noReconv (ha : t.adm h ≠ t.act) (hr : hdrReconv t.hdrWord = 0) : (t.x s c slot h).branch s target =
    .trapIn (Claims.asked s c t.ctx target) .illegalTarget (BitVec.ofNat 64 (wrap 64 ((t.hdrAddr : Int) + 8 * hdrReconv t.hdrWord))) :=
  (if_neg h0).trans ((toTarget_good hgood).trans ((if_neg ha).trans (if_pos hr)))

/-- What a branch that diverges does once the reconvergence header's word has been asked for. -/
def diverged (x : X) (target rpc : Nat) (s : State) : Res :=
  match x.team.stk with
  | e :: rest =>
    if e.isDiv && e.pc1 == rpc && e.tmask == 0 then
      .done (s.setTeam x.c x.slot
        { x.team with act := x.team.act &&& ~~~x.adm, stk := { e with tmask := x.adm, pc2 := BitVec.ofNat 64 target } :: rest })
    else X.branch.push x target s (x.team.act &&& ~~~x.adm) rpc
  | [] => X.branch.push x target s (x.team.act &&& ~~~x.adm) rpc

theorem branch_diverges (ha : t.adm h ≠ t.act) (hr : hdrReconv t.hdrWord ≠ 0) : (t.x s c slot h).branch s target =
    (Claims.asked s c t.ctx target).toTarget c t.ctx (wrap 64 ((t.hdrAddr : Int) + 8 * hdrReconv t.hdrWord))
      (diverged (t.x s c slot h) target (wrap 64 ((t.hdrAddr : Int) + 8 * hdrReconv t.hdrWord))) :=
  (if_neg h0).trans ((toTarget_good hgood).trans ((if_neg ha).trans (if_neg hr)))

end

theorem diverged_reuses {rpc : Nat} {e : Entry} {rest : List Entry} {m : State} (hstk : t.stk = e :: rest) (hk : e.kind = .div)
    (hpc : e.pc1 = rpc) (ht : e.tmask = 0) : diverged (t.x s c slot h) target rpc m = .done (m.setTeam c slot
      { t with act := t.act &&& ~~~t.adm h, stk := { e with tmask := t.adm h, pc2 := BitVec.ofNat 64 target } :: rest }) := by
  have hstk' : (t.x s c slot h).team.stk = e :: rest := hstk
  unfold diverged
  rw [hstk']
  exact if_pos (by simp [Entry.isDiv, hk, hpc, ht])

theorem diverged_pushes {rpc : Nat} {m : State} (hno : ∀ e rest, t.stk = e :: rest → ¬ (e.kind = .div ∧ e.pc1 = rpc ∧ e.tmask = 0)) :
    diverged (t.x s c slot h) target rpc m = X.branch.push (t.x s c slot h) target m (t.act &&& ~~~t.adm h) rpc := by
  unfold diverged
  split
  · rename_i e rest hstk
    refine if_neg fun hif => hno e rest hstk ?_
    simpa [Entry.isDiv, and_assoc] using hif
  · rfl

theorem push_room {m : State} {left : Mask} {rpc : Nat} (hroom : t.stk.length + 1 < t.hdr.depth) :
    X.branch.push (t.x s c slot h) target m left rpc =
      .done (m.push c slot { t with act := left } ⟨.div, rpc, BitVec.ofNat 64 target, t.act, t.adm h⟩) :=
  if_neg fun hf => absurd (of_decide_eq_true hf : t.hdr.depth ≤ t.stk.length + 1) (by omega)

theorem push_full {m : State} {left : Mask} {rpc : Nat} (hfull : t.hdr.depth ≤ t.stk.length + 1) :
    X.branch.push (t.x s c slot h) target m left rpc = .trapIn m .illegalStack 0 :=
  if_pos (decide_eq_true hfull)

end

/-- The team that goes to a header. -/
theorem moved_goto {i : Instr} {h : Hdr} {s m : State} {c slot : Nat} {t : Team} {target : Nat} (hs : slot < 16) (hm : m.team? c slot = some t) :
    Claims.Moved m (settleTeam i h s c slot t ((t.x s c slot h).goto m target)) c slot t (target, true) t.act t.stk :=
  Placed.moved_went (Placed.setTeam hs hm rfl) hs rfl

/-! BALL and BANY (R67). -/

theorem and_not_eq_zero_iff (a b : Mask) : a &&& ~~~b = 0 ↔ ∀ l, l < 1024 → inMask a l = true → inMask b l = true := by
  rw [BitVec.eq_of_getLsbD_eq_iff]
  refine forall_congr' fun l => ?_
  refine forall_congr' fun hl => ?_
  simp only [inMask, BitVec.getLsbD_and, BitVec.getLsbD_not, hl, decide_true, Bool.true_and, BitVec.ofNat_eq_ofNat, BitVec.getLsbD_zero]
  cases a.getLsbD l <;> cases b.getLsbD l <;> simp

theorem and_ne_zero_iff (a b : Mask) : a &&& b ≠ 0 ↔ ∃ l, l < 1024 ∧ inMask a l = true ∧ inMask b l = true := by
  rw [ne_eq, BitVec.eq_of_getLsbD_eq_iff]
  simp only [not_forall, inMask, BitVec.getLsbD_and, BitVec.ofNat_eq_ofNat, BitVec.getLsbD_zero, Bool.and_eq_false_iff, not_or,
    Bool.not_eq_false, exists_prop]

theorem inMask_test (x : X) (t : PReg) (neg : Bool) (l : Nat) (hl : l < 1024) :
    inMask (x.test t neg) l = (inMask (x.src.team.rp t) l != neg) := by
  unfold X.test
  cases neg
  · simp
  · simp [inMask, hl]

theorem all_lanes_iff (x : X) (t : PReg) (neg : Bool) :
    (x.adm &&& ~~~x.test t neg == 0) = (lanes x.adm).all fun l => inMask (x.src.team.rp t) l != neg := by
  rw [Bool.eq_iff_iff, beq_iff_eq, and_not_eq_zero_iff, List.all_eq_true]
  simp only [mem_lanes]
  exact ⟨fun h l hl => (inMask_test x t neg l hl.1) ▸ h l hl.1 hl.2, fun h l hl ha => (inMask_test x t neg l hl).symm ▸ h l ⟨hl, ha⟩⟩

theorem any_lanes_iff (x : X) (t : PReg) (neg : Bool) :
    (x.adm &&& x.test t neg != 0) = (lanes x.adm).any fun l => inMask (x.src.team.rp t) l != neg := by
  rw [Bool.eq_iff_iff, bne_iff_ne, and_ne_zero_iff, List.any_eq_true]
  simp only [mem_lanes]
  constructor
  · rintro ⟨l, hl, ha, ht⟩
    exact ⟨l, ⟨hl, ha⟩, (inMask_test x t neg l hl) ▸ ht⟩
  · rintro ⟨l, ⟨hl, ha⟩, ht⟩
    exact ⟨l, hl, ha, (inMask_test x t neg l hl).symm ▸ ht⟩

/-- What a uniform test branch does, of its target and its test (R67). -/
def tested (x : X) (target : Nat) (taken : Bool) (s : State) : Res :=
  if x.adm = 0 then .done s
  else s.toTarget x.c x.team.ctx target fun s => if taken then x.goto s target else .done s

theorem tested_not_short (x : X) (target : Nat) (taken : Bool) (s : State) (w : Nat) : tested x target taken s ≠ .short w := by
  unfold tested
  split
  · exact Res.noConfusion
  · refine toTarget_not_short (fun m w => ?_) w
    split <;> exact Res.noConfusion

theorem exec_of_testTo {i : Instr} {h : Hdr} {target : Nat} {taken : Bool} {s : State} {c slot : Nat} {t : Team}
    (e : Claims.testTo (t.x s c slot h) i = some (h, target, taken)) (w : TeamIssues i h s c slot t) :
    exec i s = .next (settleTeam i h s c slot t (tested (t.x s c slot h) target taken s)) := by
  have run {eff : X → State → Res} (e : exec i s = runTeam i h noNeed s eff)
      (he : eff (t.x s c slot h) s = tested (t.x s c slot h) target taken s) :
      exec i s = .next (settleTeam i h s c slot t (tested (t.x s c slot h) target taken s)) := by
    rw [e, ← he]
    exact runTeam_plain w fun _ => he ▸ tested_not_short _ _ _ _ _
  unfold Claims.testTo at e
  split at e <;> cases e
  · exact run rfl (congrArg (fun b => tested (t.x s c slot h) _ b s) (all_lanes_iff (t.x s c slot h) _ _))
  · exact run rfl (congrArg (fun b => tested (t.x s c slot h) _ b s) (any_lanes_iff (t.x s c slot h) _ _))

theorem tested_spec {i : Instr} {h : Hdr} {target : Nat} {taken : Bool} {s : State} {c slot : Nat} {t : Team} (hs : slot < 16)
    (ht : s.team? c slot = some t) (h0 : t.adm h ≠ 0) (hgood : Claims.GoodTarget s c t.ctx target) :
    Claims.Moved (Claims.asked s c t.ctx target) (settleTeam i h s c slot t (tested (t.x s c slot h) target taken s)) c slot t
      (if taken = true then (target, true) else s.nextOf c t) t.act t.stk := by
  have hm : (Claims.asked s c t.ctx target).team? c slot = some t := ((asked_walk ..).team c slot).trans ht
  have he : tested (t.x s c slot h) target taken s = if taken then (t.x s c slot h).goto (Claims.asked s c t.ctx target) target
      else .done (Claims.asked s c t.ctx target) := (if_neg h0).trans (toTarget_good hgood)
  rw [he]
  cases taken
  · exact moved_same hs hm
  · exact moved_goto hs hm

/-- Settles O6: of the admitted lanes, the target and the reconvergence header, each case is one branch of X.branch or of the uniform
test. -/
theorem branches : Obligations.Branches := by
  refine ⟨fun i h target s c slot t e hs w => ?_, fun i h target taken s c slot t e hs w => ⟨fun h0 => ?_, fun h0 hgood => ?_⟩,
    fun i h target s c slot t e hs w h0 => ?_, fun s c ctx target => (asked_walk ..).untouched⟩
  · have hexec := exec_of_branchTo e w
    intro A rpc m m'
    have hm : m.team? c slot = some t := ((asked_walk ..).team c slot).trans w.2.1
    have hm' : m'.team? c slot = some t := ((asked_walk ..).team c slot).trans hm
    refine ⟨fun h0 => ⟨_, hexec, ?_⟩, fun h0 hgood => ⟨fun ha => ⟨_, hexec, ?_⟩, fun ha hr => ?_, fun ha hr h8 hasks hbad => ?_,
      fun ha hr hgood' => ⟨fun e' rest hstk hk hpc ht => ⟨_, hexec, ?_⟩, fun hno hroom => ⟨_, hexec, ?_⟩, fun hno hfull => ?_⟩⟩⟩
    · rw [branch_none h0]
      exact moved_same hs w.2.1
    · rw [branch_whole h0 hgood ha]
      exact moved_goto hs hm
    · rw [hexec, branch_noReconv h0 hgood ha hr]
      rfl
    · rw [hexec, branch_diverges h0 hgood ha hr, toTarget_bad h8 hasks hbad]
      rfl
    · rw [branch_diverges h0 hgood ha hr, toTarget_good hgood', diverged_reuses hstk hk hpc ht]
      exact Placed.moved_done (Placed.setTeam hs hm' rfl) hs rfl
    · rw [branch_diverges h0 hgood ha hr, toTarget_good hgood', diverged_pushes hno, push_room hroom]
      exact Placed.moved_done (Placed.push (t1 := { t with act := t.act &&& ~~~t.adm h }) hs hm' rfl _) hs rfl
    · rw [hexec, branch_diverges h0 hgood ha hr, toTarget_good hgood', diverged_pushes hno, push_full hfull]
      rfl
  · refine ⟨_, exec_of_testTo e w, ?_⟩
    rw [show tested (t.x s c slot h) target taken s = .done s from if_pos h0]
    exact moved_same hs w.2.1
  · exact ⟨_, exec_of_testTo e w, tested_spec hs w.2.1 h0 hgood⟩
  · obtain e | e := e
    · obtain ⟨go, hgo⟩ := branch_admitted (s := s) (c := c) (slot := slot) (target := target) h0
      exact badTarget_of_toTarget ((exec_of_branchTo e w).trans (by rw [hgo]))
    · obtain ⟨⟨h', target', taken⟩, e', he'⟩ := Option.map_eq_some_iff.1 e
      cases he'
      exact badTarget_of_toTarget ((exec_of_testTo e' w).trans (congrArg (Host.Outcome.next <| settleTeam i _ s c slot t ·) (if_neg h0)))

end Sys2Proof.Proofs

end

section
/-! R60, R61, R68 to R73: calls, returns, and lanes that leave the mask. -/

open Sys2Proof Sys2Proof.Machine

namespace Sys2Proof.Proofs

/-! A mask with lanes taken away (R60). -/

theorem masked_left {x : X} {m : State} {t1 : Team} (h : t1.act ≠ 0) : x.masked m t1 = .done (m.setTeam x.c x.slot t1) := if_neg h

theorem masked_empty {x : X} {m : State} {t1 : Team} (h : t1.act = 0) :
    x.masked m t1 = .went (m.emptied x.c x.slot (t1.stk.length + 1) { t1 with wait := none }) := if_pos h

theorem masked_not_short (x : X) (m : State) (t1 : Team) (w : Nat) : x.masked m t1 ≠ .short w := by
  unfold X.masked
  split <;> exact Res.noConfusion

theorem emptied_stay {m : State} {c slot n : Nat} {t t1 : Team} (h : t.act = 0) (hr : reconverge (t.stk.length + 1) t = .stay t1) :
    m.emptied c slot (n + 1) t = m.setTeam c slot t1 := by
  rw [State.emptied, if_neg (by simp [h]), hr]

theorem emptied_retired {m : State} {c slot n : Nat} {t t1 : Team} (h : t.act = 0) (hr : reconverge (t.stk.length + 1) t = .retired t1) :
    m.emptied c slot (n + 1) t = m.retire c slot t1 := by
  rw [State.emptied, if_neg (by simp [h]), hr]

theorem emptied_active {m : State} {c slot n : Nat} {t : Team} (h : t.act ≠ 0) : m.emptied c slot (n + 1) t = m.setTeam c slot t := by
  rw [State.emptied, if_pos h]

/-- The pending lanes of the top entry run (R60). -/
theorem reconverge_pending {n : Nat} {t : Team} {e : Entry} {rest : List Entry} (hs : t.stk = e :: rest) (hk : e.kind = .div) (ht : e.tmask ≠ 0) :
    reconverge (n + 1) t = .stay { t with
      act := e.tmask, pc := e.pc2.toNat, atHdr := true, back := false, stk := { e with tmask := 0 } :: rest } := by
  unfold reconverge
  rw [hs]
  exact if_pos (by simpa [hk] using ht)

/-- The top entry pops, and its lanes go on at its header (R60, R69). -/
theorem reconverge_pops {n : Nat} {t : Team} {e : Entry} {rest : List Entry} (hs : t.stk = e :: rest)
    (hk : (e.kind = .div ∧ e.tmask = 0) ∨ (e.kind = .call ∧ t.act = 0)) (ho : e.omask ≠ 0) (hg : Claims.goesOn e rest = false) :
    reconverge (n + 1) t = .stay { t with act := e.omask, pc := e.pc1, atHdr := true, back := false, stk := rest } := by
  have hpop : (e.kind == .div || (e.kind == .call && t.act == 0)) = true := by
    obtain ⟨hk, -⟩ | ⟨hk, ha⟩ := hk
    · simp [hk]
    · simp [hk, ha]
  have hpend : (e.kind == .div && e.tmask != 0) = false := by
    obtain ⟨-, ht⟩ | ⟨hk, -⟩ := hk
    · simp [ht]
    · simp [hk]
  have hon : (e.omask != 0 && !Claims.goesOn e rest) = true := by
    rw [hg]
    simpa using ho
  unfold reconverge
  rw [hs]
  simp only [hpend, hpop, Bool.false_eq_true, if_false, if_true]
  exact if_pos hon

theorem and_not_self (a : Mask) : a &&& ~~~a = 0 := by
  apply BitVec.eq_of_getLsbD_eq
  intro l hl
  simp [hl]

theorem not_full {t : Team} (h : t.stk.length + 1 < t.hdr.depth) : ¬ t.full = true := fun hf =>
  absurd (of_decide_eq_true hf : t.hdr.depth ≤ t.stk.length + 1) (by omega)

theorem full {t : Team} (h : t.hdr.depth ≤ t.stk.length + 1) : t.full = true := decide_eq_true h

/-! CALL (R68). -/

theorem call_not_short (x : X) (target : Nat) (m : State) (w : Nat) : (if x.adm = 0 then Res.done m
    else m.toTarget x.c x.team.ctx target fun m =>
      if x.team.full then .trapIn m .illegalStack 0
      else .went (m.push x.c x.slot { x.team with act := x.adm, pc := target, atHdr := true, wait := none }
        ⟨.call, x.next m, 0, x.team.act, 0⟩)) ≠ .short w := by
  split
  · exact Res.noConfusion
  · refine toTarget_not_short (fun n w => ?_) w
    split <;> exact Res.noConfusion

theorem exec_call {h : Hdr} {tgt : CallTgt} {s : State} {c slot : Nat} {t : Team} (w : TeamIssues (.call h tgt) h s c slot t) :
    exec (.call h tgt) s = .next (settleTeam (.call h tgt) h s c slot t (if t.adm h = 0 then .done s
      else s.toTarget c t.ctx (Claims.callTo t.pc t.rs tgt) fun m =>
        if t.full then .trapIn m .illegalStack 0
        else .went (m.push c slot { t with act := t.adm h, pc := Claims.callTo t.pc t.rs tgt, atHdr := true, wait := none }
          ⟨.call, (m.nextOf c t).1, 0, t.act, 0⟩))) := by
  cases tgt
  · exact runBoth_plain w (call_not_short (t.x s c slot h) _ s)
  · exact runBoth_plain w (call_not_short (t.x s c slot h) _ s)

section
variable {h : Hdr} {tgt : CallTgt} {s : State} {c slot : Nat} {t : Team}

theorem call_room (hs : slot < 16) (w : TeamIssues (.call h tgt) h s c slot t) (h0 : t.adm h ≠ 0)
    (hgood : Claims.GoodTarget s c t.ctx (Claims.callTo t.pc t.rs tgt)) (hroom : t.stk.length + 1 < t.hdr.depth) :
    let m := Claims.asked s c t.ctx (Claims.callTo t.pc t.rs tgt)
    ∃ s', exec (.call h tgt) s = .next s' ∧ Claims.Moved m s' c slot t (Claims.callTo t.pc t.rs tgt, true) (t.adm h)
      (⟨.call, (m.nextOf c t).1, 0, t.act, 0⟩ :: t.stk) := by
  intro m
  have hm : m.team? c slot = some t := ((asked_walk ..).team c slot).trans w.2.1
  refine ⟨_, exec_call w, ?_⟩
  rw [if_neg h0, toTarget_good hgood, if_neg (not_full hroom)]
  exact Placed.moved_went (Placed.push (t1 := { t with
    act := t.adm h, pc := Claims.callTo t.pc t.rs tgt, atHdr := true, wait := none }) hs hm rfl _) hs rfl

theorem call_full (w : TeamIssues (.call h tgt) h s c slot t) (h0 : t.adm h ≠ 0)
    (hgood : Claims.GoodTarget s c t.ctx (Claims.callTo t.pc t.rs tgt)) (hfull : t.hdr.depth ≤ t.stk.length + 1) :
    exec (.call h tgt) s = .next ((Claims.asked s c t.ctx (Claims.callTo t.pc t.rs tgt)).takeTrap c slot { t with wait := none }
      .illegalStack 0 t.pc) := by
  rw [exec_call w, if_neg h0, toTarget_good hgood, if_pos (full hfull)]
  rfl

end

/-! RET (R69). -/

/-- What RET does of a stack whose nearest entry that is no DIV entry is a CALL entry. -/
def returned (x : X) (above : List Entry) (e : Entry) (rest : List Entry) (m : State) : Res :=
  x.masked m { x.team with act := x.team.act &&& ~~~x.adm, stk := above.map (Entry.without x.adm) ++ e :: rest }

theorem exec_ret {h : Hdr} {above : List Entry} {e : Entry} {rest : List Entry} {s : State} {c slot : Nat} {t : Team}
    (w : TeamIssues (.ret h) h s c slot t) (hstk : t.stk = above ++ e :: rest) (hdiv : ∀ a ∈ above, a.kind = .div) (hk : e.kind = .call)
    (h0 : t.adm h ≠ 0) : exec (.ret h) s = .next (settleTeam (.ret h) h s c slot t
      (s.toTarget c t.ctx e.pc1 (returned (t.x s c slot h) above e rest))) := by
  have habove : ∀ a ∈ above, a.isDiv = true := fun a ha => by simp [Entry.isDiv, hdiv a ha]
  have he : ¬ e.isDiv = true := by simp [Entry.isDiv, hk]
  have htake : (above ++ e :: rest).takeWhile Entry.isDiv = above := by
    rw [List.takeWhile_append_of_pos habove, List.takeWhile_cons_of_neg he, List.append_nil]
  have hdrop : (above ++ e :: rest).dropWhile Entry.isDiv = e :: rest := by
    rw [List.dropWhile_append_of_pos habove, List.dropWhile_cons_of_neg he]
  have heff {eff : X → State → Res} {effR : XR → State → Res} (hx : exec (.ret h) s = runBoth (.ret h) h noNeed noNeedM s eff effR)
      (he : eff (t.x s c slot h) s = s.toTarget c t.ctx e.pc1 (returned (t.x s c slot h) above e rest)) :
      exec (.ret h) s = .next (settleTeam (.ret h) h s c slot t (s.toTarget c t.ctx e.pc1 (returned (t.x s c slot h) above e rest))) := by
    rw [hx, ← he]
    refine runBoth_plain w fun _ => ?_
    rw [he]
    exact toTarget_not_short (fun m w => masked_not_short _ _ _ w) _
  refine heff rfl ?_
  have hstk' : (t.x s c slot h).team.stk = above ++ e :: rest := hstk
  refine (if_neg h0).trans ?_
  simp only [hstk', htake, hdrop, hk, bne_self_eq_false, Bool.false_eq_true, if_false]
  rfl

/-- Settles O7. -/
theorem callAndRet : Obligations.CallAndRet := by
  refine ⟨fun h tgt s c slot t hs w => ⟨fun h0 => ⟨_, exec_call w, ?_⟩, fun h0 hgood hroom => call_room hs w h0 hgood hroom⟩,
    fun h tgt s c slot t hs w h0 => ⟨badTarget_of_toTarget ((exec_call w).trans (congrArg (Host.Outcome.next <| settleTeam _ h s c slot t ·)
      (if_neg h0))), fun hgood hfull => call_full w h0 hgood hfull⟩,
    fun h above e rest s c slot t hs w hstk hdiv hk h0 => badTarget_of_toTarget (exec_ret w hstk hdiv hk h0),
    fun h above e rest s c slot t hs w hstk hdiv hk h0 hgood => ?_⟩
  · rw [if_pos h0]
    exact moved_same hs w.2.1
  · intro m
    have hm : m.team? c slot = some t := ((asked_walk ..).team c slot).trans w.2.1
    refine ⟨fun hleft => ⟨_, exec_ret w hstk hdiv hk h0, ?_⟩, fun hall habove ho hg => ⟨_, exec_ret w hstk hdiv hk h0, ?_⟩⟩
    · rw [toTarget_good hgood, returned, masked_left (by exact hleft)]
      exact Placed.moved_done (Placed.setTeam hs hm rfl) hs rfl
    · subst habove
      have hact : t.act &&& ~~~t.adm h = 0 := by rw [hall, and_not_self]
      rw [toTarget_good hgood, returned, masked_empty (by exact hact),
        emptied_stay (by exact hact) (reconverge_pops rfl (.inr ⟨hk, by exact hact⟩) ho hg)]
      exact Placed.moved_went (Placed.setTeam hs hm rfl) hs rfl

end Sys2Proof.Proofs

end

section
/-! R60, R61, R70, R71, R73: lanes that leave the mask, the end of a team, and leader mode. -/

open Sys2Proof Sys2Proof.Machine

namespace Sys2Proof.Proofs

/-- A form whose effect is known, and has slices for every pass. -/
theorem runTeam_eff {i : Instr} {h : Hdr} {s : State} {c slot : Nat} {t : Team} {eff : X → State → Res} {r : Res} (w : TeamIssues i h s c slot t)
    (he : eff (t.x s c slot h) s = r) (hr : ∀ w, r ≠ .short w) : runTeam i h noNeed s eff = .next (settleTeam i h s c slot t r) := by
  subst he
  exact runTeam_plain w hr

theorem runBoth_eff {i : Instr} {h : Hdr} {ndR : State → Nat → Ridge → Need} {s : State} {c slot : Nat} {t : Team} {eff : X → State → Res}
    {effR : XR → State → Res} {r : Res} (w : TeamIssues i h s c slot t) (he : eff (t.x s c slot h) s = r) (hr : ∀ w, r ≠ .short w) :
    runBoth i h noNeed ndR s eff effR = .next (settleTeam i h s c slot t r) := by
  subst he
  exact runBoth_plain w hr

/-! RECONV and BREAK (R70). -/

theorem exec_reconv {h : Hdr} {e : Entry} {rest : List Entry} {s : State} {c slot : Nat} {t : Team} (w : TeamIssues (.reconv h) h s c slot t)
    (hstk : t.stk = e :: rest) (hk : e.kind = .div) (h0 : t.adm h ≠ 0) : exec (.reconv h) s = .next (settleTeam (.reconv h) h s c slot t
      ((t.x s c slot h).masked s { t with act := t.act &&& ~~~t.adm h })) := by
  refine runTeam_eff w ((if_neg h0).trans ?_) (masked_not_short _ _ _)
  have hstk' : (t.x s c slot h).team.stk = e :: rest := hstk
  rw [hstk']
  exact if_pos (by simp [Entry.isDiv, hk])

theorem lt_length_takeWhile {p : Entry → Bool} {l : List Entry} {n : Nat} (hn : n < l.length) (h : ∀ a ∈ l.take (n + 1), p a = true) :
    n < (l.takeWhile p).length := by
  induction l generalizing n with
  | nil => exact absurd hn (by simp)
  | cons a l ih =>
    rw [List.takeWhile_cons_of_pos (h a (by simp))]
    cases n with
    | zero => simp
    | succ n => exact Nat.succ_lt_succ (ih (Nat.lt_of_succ_lt_succ hn) fun b hb => h b (by simp [hb]))

theorem exec_brk {h : Hdr} {lvl : Fin 16} {s : State} {c slot : Nat} {t : Team} (w : TeamIssues (.brk h lvl) h s c slot t)
    (hdiv : ∀ e ∈ t.stk.take (lvl.val + 1), e.kind = .div) (hlen : lvl.val < t.stk.length) (h0 : t.adm h ≠ 0) :
    exec (.brk h lvl) s = .next (settleTeam (.brk h lvl) h s c slot t ((t.x s c slot h).masked s { t with
      act := t.act &&& ~~~t.adm h, stk := (t.stk.take lvl.val).map (Entry.without (t.adm h)) ++ t.stk.drop lvl.val })) := by
  have hdeep : ¬ (t.stk.takeWhile Entry.isDiv).length ≤ lvl.val := by
    have := lt_length_takeWhile (p := Entry.isDiv) hlen fun a ha => by simp [Entry.isDiv, hdiv a ha]
    omega
  exact runTeam_eff w ((if_neg h0).trans (if_neg hdeep)) (masked_not_short _ _ _)

/-! EXIT (R71), and what the end of a team leaves. -/

theorem exec_exit {h : Hdr} {s : State} {c slot : Nat} {t : Team} (w : TeamIssues (.exit h) h s c slot t)
    (hlead : ∀ e ∈ t.stk, e.kind ≠ .lead) (h0 : t.adm h ≠ 0) : exec (.exit h) s = .next (settleTeam (.exit h) h s c slot t
      ((t.x s c slot h).masked s { t with act := t.act &&& ~~~t.adm h, stk := t.stk.map (Entry.without (t.adm h)) })) := by
  have hno : ¬ t.hasLead = true := by
    simp only [Team.hasLead, List.any_eq_true, beq_iff_eq, not_exists, not_and]
    exact hlead
  exact runBoth_eff w ((if_neg h0).trans (if_neg hno)) (masked_not_short _ _ _)

theorem modBlock_rest (s : State) (b : Nat) (f : Block → Block) : s.modBlock b f = { s with blocks := (s.modBlock b f).blocks } := by
  unfold State.modBlock
  split <;> rfl

theorem noteEnd_rest (s : State) (l : Option Nat) (uid : Nat) : s.noteEnd l uid = { s with launches := (s.noteEnd l uid).launches } := by
  unfold State.noteEnd
  split
  · rfl
  · split <;> rfl

/-- The fields that the end of a block may change. -/
def BlockEnd (s m : State) : Prop := m = { s with blocks := m.blocks, ridges := m.ridges, cores := m.cores, launches := m.launches, ending := m.ending }

theorem BlockEnd.trans {a b c : State} (h : BlockEnd a b) (g : BlockEnd b c) : BlockEnd a c := by
  unfold BlockEnd at *
  rw [g, h]

theorem BlockEnd.endBlock (s : State) (b : Nat) : BlockEnd s (s.endBlock b) := by
  unfold State.endBlock
  split
  · rfl
  · split
    · rfl
    · dsimp only
      split
      · rfl
      · split <;> rfl

theorem BlockEnd.modBlock (s : State) (b : Nat) (f : Block → Block) : BlockEnd s (s.modBlock b f) := by
  unfold BlockEnd
  rw [modBlock_rest]

theorem BlockEnd.noteEnd (s : State) (l : Option Nat) (uid : Nat) : BlockEnd s (s.noteEnd l uid) := by
  unfold BlockEnd
  rw [noteEnd_rest]

/-- A retired team is gone; other teams and memory stay. -/
theorem blockEnd_retire (s : State) (c slot : Nat) (t : Team) : BlockEnd { s with teams := s.teams.del (tkey c slot) } (s.retire c slot t) := by
  unfold State.retire
  extract_lets a b m
  have ha : BlockEnd { s with teams := s.teams.del (tkey c slot) } a := .modBlock ..
  have hb : BlockEnd a b := rfl
  have hm : BlockEnd b m := by
    unfold m
    split <;> rfl
  clear_value a b m
  have hdrop : BlockEnd (m.noteEnd t.launch t.uid) ((m.noteEnd t.launch t.uid).dropBanks c) := rfl
  exact ha.trans (hb.trans (hm.trans ((BlockEnd.noteEnd ..).trans (hdrop.trans (.endBlock ..)))))

theorem teams_retire (s : State) (c slot : Nat) (t : Team) : (s.retire c slot t).teams = s.teams.del (tkey c slot) := by
  rw [blockEnd_retire]

theorem memGet_retire (s : State) (c slot : Nat) (t : Team) (a : Nat) : (s.retire c slot t).memGet a = s.memGet a := by
  rw [blockEnd_retire]
  rfl

theorem settleTeam_went_gone {i : Instr} {h : Hdr} {s m : State} {c slot : Nat} {t : Team} (hm : m.team? c slot = none) :
    settleTeam i h s c slot t (.went m) = m := by
  simp [settleTeam, State.agedTeam, State.modTeam, hm]

theorem reconverge_retires {n : Nat} {t : Team} (hs : t.stk = []) (ha : t.act = 0) : reconverge (n + 1) t = .retired t := by
  unfold reconverge
  rw [hs]
  exact if_pos ha

theorem exit_last {h : Hdr} {s : State} {c slot : Nat} {t : Team} (w : TeamIssues (.exit h) h s c slot t) (h0 : t.adm h ≠ 0)
    (hall : t.adm h = t.act) (hstk : t.stk = []) : ∃ u, exec (.exit h) s = .next (s.retire c slot u) := by
  have hact : t.act &&& ~~~t.adm h = 0 := by rw [hall, and_not_self]
  have hgone (u : Team) : (s.retire c slot u).team? c slot = none := by
    unfold State.team?
    rw [teams_retire]
    exact Tbl.find_del_same ..
  obtain ⟨u, hu⟩ : ∃ u, settleTeam (.exit h) h s c slot t ((t.x s c slot h).masked s
      { t with act := t.act &&& ~~~t.adm h, stk := t.stk.map (Entry.without (t.adm h)) }) = s.retire c slot u := by
    rw [masked_empty (by exact hact), emptied_retired (by exact hact) (reconverge_retires (by simp [hstk]) (by exact hact))]
    exact ⟨_, settleTeam_went_gone (hgone _)⟩
  exact ⟨u, (exec_exit w (by simp [hstk]) h0).trans (congrArg Host.Outcome.next hu)⟩

/-! ELECT (R73). -/

theorem lowest_eq_some {m : Mask} {l : Nat} (hl : l < 1024) (h : inMask m l = true) (hlow : ∀ k, k < l → inMask m k = false) :
    lowest m = some l := by
  rw [lowest, lanes_eq_filter, List.head?_filter]
  exact List.find?_range_eq_some.2 ⟨h, List.mem_range.2 hl, fun k hk => by simp [hlow k hk]⟩

theorem lowest_isSome {m : Mask} (h : m ≠ 0) : ∃ l, lowest m = some l := by
  cases hl : lowest m with
  | some l => exact ⟨l, rfl⟩
  | none =>
    refine absurd (BitVec.eq_of_getLsbD_eq fun l hlt => ?_) h
    rw [lowest, List.head?_eq_none_iff] at hl
    have hno : l ∉ lanes m := by simp [hl]
    simpa [mem_lanes, hlt, inMask] using hno

/-- What ELECT does of the lowest admitted lane. -/
def elected (t : Team) (d : SReg) (c slot : Nat) (m : State) (l : Nat) : Res :=
  if t.hasLead then .trap .illegal 0
  else if t.full then .trap .illegalStack 0
  else .done (m.push c slot ({ t with act := laneBit l }.ws d (BitVec.ofNat 64 l)) ⟨.lead, 0, 0, t.act, 0⟩)

theorem elected_not_short (t : Team) (d : SReg) (c slot : Nat) (m : State) (l w : Nat) : elected t d c slot m l ≠ .short w := by
  unfold elected
  split
  · exact Res.noConfusion
  · split <;> exact Res.noConfusion

theorem exec_elect {h : Hdr} {d : SReg} {s : State} {c slot l : Nat} {t : Team} (w : TeamIssues (.elect h d) h s c slot t)
    (hl : lowest (t.adm h) = some l) :
    exec (.elect h d) s = .next (settleTeam (.elect h d) h s c slot t (elected t d c slot s l)) := by
  refine runTeam_eff w ?_ fun _ => elected_not_short _ _ _ _ _ _ _
  have hl' : lowest (t.x s c slot h).adm = some l := hl
  rw [hl']
  rfl

theorem hasLead_of_mem {t : Team} (h : ∃ e ∈ t.stk, e.kind = .lead) : t.hasLead = true := by
  simpa [Team.hasLead] using h

theorem not_hasLead {t : Team} (h : ∀ e ∈ t.stk, e.kind ≠ .lead) : ¬ t.hasLead = true := by
  simpa [Team.hasLead] using h

/-- A finished effect that pushed an entry over a team with a new mask and a scalar written. -/
theorem pushed_scalar {i : Instr} {h : Hdr} {s : State} {c slot : Nat} {t : Team} (hs : slot < 16) (ht : s.team? c slot = some t)
    (d : SReg) (v : W64) (act : Mask) (e : Entry) :
    ∃ s' t', settleTeam i h s c slot t (.done (s.push c slot ({ t with act := act }.ws d v) e)) = s' ∧ TeamFrame s s' c slot ∧
      (∀ r l, s'.vreg c slot r l = s.vreg c slot r l) ∧ s'.team? c slot = some t' ∧ t'.flagsDue = t.flagsDue ∧
      t' = { t with pc := (s.nextOf c t).1, atHdr := (s.nextOf c t).2, wait := none, act := act, stk := e :: t.stk, sreg := t'.sreg,
                    shadows := t'.shadows } ∧
      ∀ r, t'.rs r = if r = d ∧ d.val ≠ 0 then v else t.rs r := by
  obtain ⟨u, hu⟩ : ∃ u, u = ({ t with act := act } : Team).ws d v := ⟨_, rfl⟩
  have hframe : u = { t with act := act, sreg := u.sreg, shadows := u.shadows } := by rw [hu, Team.ws_frame]
  have hflags : u.flagsDue = t.flagsDue := by
    rw [hu, Team.ws_flags]
    rfl
  have hrs (r : SReg) : u.rs r = if r = d ∧ d.val ≠ 0 then v else t.rs r := by
    rw [hu]
    exact Team.rs_ws _ d r _
  rw [← hu]
  have hp : Placed s (s.push c slot u e) c slot { u with stk := e :: u.stk } := .push hs ht (by rw [hframe]) _
  obtain ⟨t', h1, h2, h3, h4, h5⟩ := (settleTeam_done (i := i) (h := h) (s := s) (t := t) hp.team).spec hp.team hs
  refine ⟨_, t', rfl, hp.frame.trans h4, fun r l => (h5 r l).trans (hp.vregs r l), h1, h3.trans hflags, ?_, fun r => ?_⟩
  · rw [h2, hframe]
  · rw [h2]
    exact hrs r

theorem elect_spec {h : Hdr} {d : SReg} {l : Nat} {s : State} {c slot : Nat} {t : Team} (hs : slot < 16)
    (w : TeamIssues (.elect h d) h s c slot t) (hl : lowest (t.adm h) = some l) (hlead : ∀ e ∈ t.stk, e.kind ≠ .lead)
    (hroom : t.stk.length + 1 < t.hdr.depth) :
    ∃ s' t', exec (.elect h d) s = .next s' ∧ TeamFrame s s' c slot ∧ (∀ r l, s'.vreg c slot r l = s.vreg c slot r l) ∧
      s'.team? c slot = some t' ∧ t'.flagsDue = t.flagsDue ∧
      t' = { t with pc := (s.nextOf c t).1, atHdr := (s.nextOf c t).2, wait := none, act := laneBit l,
                    stk := ⟨.lead, 0, 0, t.act, 0⟩ :: t.stk, sreg := t'.sreg, shadows := t'.shadows } ∧
      ∀ r, t'.rs r = if r = d ∧ d.val ≠ 0 then BitVec.ofNat 64 l else t.rs r := by
  obtain ⟨s', t', e, h⟩ := pushed_scalar (i := .elect h d) (h := h) hs w.2.1 d (BitVec.ofNat 64 l) (laneBit l) ⟨.lead, 0, 0, t.act, 0⟩
  refine ⟨s', t', ?_, h⟩
  rw [exec_elect w hl, elected, if_neg (not_hasLead hlead), if_neg (not_full hroom), e]

theorem exec_endlead {h : Hdr} {e : Entry} {rest : List Entry} {s : State} {c slot : Nat} {t : Team} (w : TeamIssues (.endlead h) h s c slot t)
    (hstk : t.stk = e :: rest) (hk : e.kind = .lead) : exec (.endlead h) s = .next (settleTeam (.endlead h) h s c slot t
      (.done (s.setTeam c slot { t with act := e.omask, stk := rest }))) := by
  refine runTeam_eff w ?_ fun _ => Res.noConfusion
  have hstk' : (t.x s c slot h).team.stk = e :: rest := hstk
  rw [hstk']
  exact if_pos (by simp [hk])

theorem reconv_spec {h : Hdr} {e : Entry} {rest : List Entry} {s : State} {c slot : Nat} {t : Team} (hs : slot < 16)
    (w : TeamIssues (.reconv h) h s c slot t) (hstk : t.stk = e :: rest) (hk : e.kind = .div) (h0 : t.adm h ≠ 0) :
    (t.act &&& ~~~t.adm h ≠ 0 →
      ∃ s', exec (.reconv h) s = .next s' ∧ Claims.Moved s s' c slot t (s.nextOf c t) (t.act &&& ~~~t.adm h) t.stk) ∧
    (t.adm h = t.act → e.tmask ≠ 0 →
      ∃ s', exec (.reconv h) s = .next s' ∧ Claims.Moved s s' c slot t (e.pc2.toNat, true) e.tmask ({ e with tmask := 0 } :: rest)) ∧
    (t.adm h = t.act → e.tmask = 0 → e.omask ≠ 0 → Claims.goesOn e rest = false →
      ∃ s', exec (.reconv h) s = .next s' ∧ Claims.Moved s s' c slot t (e.pc1, true) e.omask rest) := by
  refine ⟨fun hleft => ⟨_, exec_reconv w hstk hk h0, ?_⟩, fun hall ht => ⟨_, exec_reconv w hstk hk h0, ?_⟩,
    fun hall ht ho hg => ⟨_, exec_reconv w hstk hk h0, ?_⟩⟩
  · rw [masked_left (by exact hleft)]
    exact Placed.moved_done (Placed.setTeam hs w.2.1 rfl) hs rfl
  · have hact : t.act &&& ~~~t.adm h = 0 := by rw [hall, and_not_self]
    rw [masked_empty (by exact hact), emptied_stay (by exact hact) (reconverge_pending (by exact hstk) hk ht)]
    exact Placed.moved_went (Placed.setTeam hs w.2.1 rfl) hs rfl
  · have hact : t.act &&& ~~~t.adm h = 0 := by rw [hall, and_not_self]
    rw [masked_empty (by exact hact), emptied_stay (by exact hact) (reconverge_pops (by exact hstk) (.inl ⟨hk, ht⟩) ho hg)]
    exact Placed.moved_went (Placed.setTeam hs w.2.1 rfl) hs rfl

/-- Settles O8. -/
theorem lanesLeaveAndLeader : Obligations.LanesLeaveAndLeader := by
  refine ⟨⟨fun h e rest s c slot t hs w hstk hk h0 => reconv_spec hs w hstk hk h0, fun h lvl s c slot t hs w hdiv hlen h0 hleft => ?_,
    fun h s c slot t hs w hlead h0 => ⟨fun hleft => ?_, fun hall hstk => ?_⟩⟩,
    fun h d l s c slot t hs w hl hin hlow hlead hroom => elect_spec hs w (lowest_eq_some hl hin hlow) hlead hroom,
    fun h d s c slot t hs w h0 => ⟨fun hlead => ?_, fun hlead hfull => ?_⟩, fun h e rest s c slot t hs w hstk hk => ?_⟩
  · refine ⟨_, exec_brk w hdiv hlen h0, ?_⟩
    rw [masked_left (by exact hleft)]
    exact Placed.moved_done (Placed.setTeam hs w.2.1 rfl) hs rfl
  · refine ⟨_, exec_exit w hlead h0, ?_⟩
    rw [masked_left (by exact hleft)]
    exact Placed.moved_done (Placed.setTeam hs w.2.1 rfl) hs rfl
  · obtain ⟨u, hu⟩ := exit_last w h0 hall hstk
    refine ⟨_, hu, ?_, fun k hk => ?_, fun a => memGet_retire ..⟩
    · unfold State.team?
      rw [teams_retire]
      exact Tbl.find_del_same ..
    · rw [teams_retire]
      exact Tbl.find_del_of_ne _ hk
  · obtain ⟨l, hl⟩ := lowest_isSome h0
    rw [exec_elect w hl, elected, if_pos (hasLead_of_mem hlead)]
    rfl
  · obtain ⟨l, hl⟩ := lowest_isSome h0
    rw [exec_elect w hl, elected, if_neg (not_hasLead hlead), if_pos (full hfull)]
    rfl
  · exact ⟨_, exec_endlead w hstk hk, Placed.moved_done (Placed.setTeam hs w.2.1 rfl) hs rfl⟩

end Sys2Proof.Proofs

end

section
/-! R62, R374: PHINT of a team that a fetch has slipped, and EXIT of a stream whose core has two entries in the table of streams. -/

open Sys2Proof Sys2Proof.Machine

namespace Sys2Proof.Proofs

/-- A header without stall and guard. -/
def plainHdr : Hdr := ⟨0, 0, false, false⟩

/-- A team that is still noted as having slipped on a line of code (R34). -/
def slippedTeam : Team := { placeTeam with slip := some 0 }

/-- Its block has been asked to go (R373), and it is its turn. -/
def slippedState : State :=
  { ((State.reset.place 0).setTeam 0 0 slippedTeam).modBlock 1 fun b => { b with req := some 0 } with cur := .team 0 0 }

theorem slippedState_issues : TeamIssues (.phint plainHdr 0 15 63 255) plainHdr slippedState 0 0 slippedTeam ∧
    slippedState.requested slippedTeam.blk = true ∧ slippedTeam.adm plainHdr ≠ 0 := by decide +kernel

/-- As the team freezes, the note is dropped. -/
theorem slip_of_frozen : (match exec (.phint plainHdr 0 15 63 255) slippedState with
    | .next s' => (s'.team? 0 0).all fun t => t.slip.isNone
    | _ => false) = true := by decide +kernel

/-- Refutes O9: PHINT freezes the team and drops the line that it slipped on, which the statement says is kept. -/
theorem not_nopHintYield : ¬ Obligations.NopHintYield := by
  rintro ⟨-, hhint, -⟩
  obtain ⟨hissues, hreq, hadm⟩ := slippedState_issues
  obtain ⟨s', t', hexec, hteam, ht', -⟩ := (hhint plainHdr 0 15 63 255 slippedState 0 0 slippedTeam (by decide) hissues).2 hreq hadm
  have hnone := slip_of_frozen
  rw [hexec] at hnone
  have hslip : t'.slip = some 0 := congrArg Team.slip ht'
  simp only [hteam, Option.all_some, hslip, Option.isNone_some, Bool.false_eq_true] at hnone

/-- Two streams stand under core 0 in the table: the one whose turn it is, and one of another block. -/
def twinRidges : State :=
  { State.reset.place 0 with ridges := [(0, placeRidge), (0, { placeRidge with blk := 2 })], teams := [], cur := .ridge 0 }

theorem twinRidges_issues : RidgeIssues (.exit plainHdr) plainHdr twinRidges 0 placeRidge ∧ placeRidge.adm plainHdr = true := by decide +kernel

/-- The end of the block removes the first, and the second, which has not ended, is then read. -/
theorem ridge_of_twin : (match exec (.exit plainHdr) twinRidges with
    | .next s' => (s'.ridge? 0).any fun r => !r.ended
    | _ => false) = true := by decide +kernel

/-- Refutes O10: with two entries for the core in the table of streams, EXIT leaves one that has not ended. -/
theorem not_controlOfRidge : ¬ Obligations.ControlOfRidge := by
  rintro ⟨-, -, -, hexit⟩
  obtain ⟨hissues, hadm⟩ := twinRidges_issues
  obtain ⟨s', hexec, hended, -⟩ := hexit plainHdr twinRidges 0 placeRidge hissues hadm
  have htwin := ridge_of_twin
  rw [hexec] at htwin
  obtain ⟨r, hr, hr'⟩ := (Option.any_eq_true ..).1 htwin
  simp [hended r hr] at hr'

end Sys2Proof.Proofs

end

section
/-! R362 to R369: TRAP, BKPT, TRET and HALT. -/

open Sys2Proof Sys2Proof.Machine

namespace Sys2Proof.Proofs

/-! The halt line (R368). -/

/-- A fault of a core whose partition has not halted raises the line of its partition, and changes nothing else. -/
theorem fatalAt_raises {s : State} {c slot : Nat} {cause : Cause} {resume : Nat} {faddr : W64}
    (h : (s.partn (s.partOf (stackOf c))).halting = none) :
    s.fatalAt c slot cause resume faddr = { s with parts := (s.fatalAt c slot cause resume faddr).parts } ∧
    Claims.Raised s (s.fatalAt c slot cause resume faddr) c ⟨c, cause, slot, resume, faddr, true⟩ := by
  refine ⟨fatal_parts .., ?_⟩
  have he : s.fatalAt c slot cause resume faddr = s.setPart (s.partOf (stackOf c)) { s.partn (s.partOf (stackOf c)) with
      halts := (s.partn (s.partOf (stackOf c))).halts + 1, cause := BitVec.ofNat 7 cause.code,
      halting := some ⟨[⟨c, cause, slot, resume, faddr, true⟩], false, [], s.tick, s.cycle⟩ } := by
    unfold State.fatalAt State.fatal
    simp only [h]
  rw [he]
  refine ⟨?_, fun q hq => ?_⟩
  · rw [State.partn_setPart, if_pos rfl]
  · rw [State.partn_setPart, if_neg hq]

/-- The same of a state that has the partitions of the one where the line is raised. -/
theorem raised_congr {s m s' : State} {c : Nat} {f : UFault} (h : s'.parts = m.parts) (hr : Claims.Raised s m c f) : Claims.Raised s s' c f := by
  have hp (q : Nat) : s'.partn q = m.partn q := by rw [State.partn, h]; rfl
  exact ⟨(hp _).trans hr.1, fun q hq => (hp q).trans (hr.2 q hq)⟩

/-! TRAP and BKPT (R366). -/

/-- The cause that TRAP or BKPT gives. -/
def trapCause (code : Nat) : Cause := if code = 0x05 then .swtrap else .bkpt

section
variable {i : Instr} {h : Hdr} {code : Nat} {imm : W32} {s : State} (e : Claims.trapOf i = some (h, code, imm))
include e

theorem trapCause_code : (trapCause code).code = code := by
  unfold Claims.trapOf at e
  split at e <;> cases e <;> rfl

theorem trapCause_isIllegal : (trapCause code).isIllegal = false := by
  unfold Claims.trapOf at e
  split at e <;> cases e <;> rfl

theorem exec_of_trapOf {c slot : Nat} {t : Team} (w : TeamIssues i h s c slot t) (h0 : t.adm h ≠ 0) (hbk : (s.ctx t.ctx).dbgBkfreeze = false) :
    exec i s = .next (settleTeam i h s c slot t (.trapNext s (trapCause code) (imm.zeroExtend 64))) := by
  unfold Claims.trapOf at e
  split at e <;> cases e
  · exact runBoth_eff w (if_neg h0) fun _ => Res.noConfusion
  · exact runBoth_eff w ((if_neg h0).trans (if_neg (Bool.eq_false_iff.1 hbk))) fun _ => Res.noConfusion

theorem exec_of_trapOf_ridge {c : Nat} {r : Ridge} (w : RidgeIssues i h s c r) (h0 : r.adm h = true) (hbk : (s.ctx r.ctx).dbgBkfreeze = false) :
    exec i s = .next (settleRidge i h s c r (.trapNext s (trapCause code) (imm.zeroExtend 64))) := by
  have hadm : ¬ (!(r.x c h).adm) = true := by simpa [Ridge.x] using h0
  unfold Claims.trapOf at e
  split at e <;> cases e
  · exact (runBoth_plainM w).trans (congrArg (Host.Outcome.next <| settleRidge _ h s c r ·) (if_neg hadm))
  · exact (runBoth_plainM w).trans (congrArg (Host.Outcome.next <| settleRidge _ h s c r ·)
      ((if_neg hadm).trans (if_neg (Bool.eq_false_iff.1 hbk))))

end

theorem settleTeam_trapNext {i : Instr} {h : Hdr} {s : State} {c slot : Nat} {t : Team} {cause : Cause} {fa : W64} (ht : s.team? c slot = some t) :
    settleTeam i h s c slot t (.trapNext s cause fa) =
      (s.takeTrap c slot { t with wait := none } cause fa (s.nextOf c t).1).agedTeam c slot h.stall.val := by
  simp only [settleTeam, ht]

theorem settleRidge_trapNext {i : Instr} {h : Hdr} {s : State} {c : Nat} {r : Ridge} {cause : Cause} {fa : W64} (hr : s.ridge? c = some r) :
    settleRidge i h s c r (.trapNext s cause fa) =
      (s.takeTrapM c { r with wait := none } cause fa (s.nextOfM c r).1).agedRidge c h.stall.val := by
  simp only [settleRidge, hr]

/-- The value table loses the load entries of the slot; the team keeps its registers (R96). -/
theorem Placed.killLoads {m n : State} {c slot : Nat} {t1 : Team} (h : Placed m n c slot t1) : Placed m (n.killLoads c slot) c slot t1 := by
  have hcore (d : Nat) : (n.killLoads c slot).core d =
      if d = c then { n.core c with vtb := (n.core c).vtb.filter fun e => !isLoadKey e.key slot } else n.core d :=
    State.core_modCore n c d fun x => { x with vtb := x.vtb.filter fun e => !isLoadKey e.key slot }
  have hv (k : Nat) (r : VReg) (l : Nat) : (n.killLoads c slot).vreg c k r l = n.vreg c k r l :=
    vreg_congr (s := n) (m := n.killLoads c slot) rfl (by rw [hcore, if_pos rfl]) r l
  refine ⟨h.team, h.frame.trans ⟨fun _ _ => rfl, fun k _ _ => hv k, fun d hd => (hcore d).trans (if_neg hd), ?_, rfl, fun _ => rfl⟩,
    fun r l => (hv slot r l).trans (h.vregs r l)⟩
  rw [hcore, if_pos rfl]

theorem takeTrap_enters {s : State} {c slot : Nat} {t : Team} {cause : Cause} {fa : W64} {resume : Nat} (hvec : (s.ctx t.ctx).trpVec ≠ 0)
    (hill : cause.isIllegal = false) (hroom : t.stk.length < t.hdr.depth) : s.takeTrap c slot t cause fa resume =
      (s.push c slot { t with pc := (s.ctx t.ctx).trpVec, atHdr := true, wait := none, back := false, slip := none }
        ⟨.trap, resume, trapWord cause fa, t.act, 0⟩).killLoads c slot := by
  unfold State.takeTrap
  simp only [hill, Bool.false_and, Bool.or_false, decide_eq_true_eq, hvec, if_false]
  exact if_neg (by omega)

theorem trapWord_imm (cause : Cause) (imm : W32) :
    trapWord cause (imm.zeroExtend 64) = BitVec.ofNat 64 (cause.code * 2 ^ 57 + imm.toNat) := by
  have h : (imm.zeroExtend 64).toNat % 2 ^ 57 = imm.toNat := by
    have := imm.isLt
    simp only [BitVec.truncate_eq_setWidth, BitVec.toNat_setWidth]
    omega
  rw [trapWord, h]

theorem takeTrapM_enters {s : State} {c : Nat} {r : Ridge} {cause : Cause} {fa : W64} {resume : Nat} (hvec : (s.ctx r.ctx).trpMvec ≠ 0)
    (htrap : r.trap = none) (hill : cause.isIllegal = false) : s.takeTrapM c r cause fa resume =
      s.setRidge c (({ r with trap := some (resume, r.rs 62, r.rs 63), pc := (s.ctx r.ctx).trpMvec, atHdr := true, wait := none, back := false,
                              slip := none } : Ridge).ws 62 fa |>.ws 63 (BitVec.ofNat 64 cause.code)) := by
  unfold State.takeTrapM
  simp [hill, hvec, htrap]

theorem ridge_ws_frame (r : Ridge) (q : SReg) (v : W64) : r.ws q v = { r with sreg := (r.ws q v).sreg, shadows := (r.ws q v).shadows } := by
  unfold Ridge.ws
  split <;> rfl

/-- The two scalars that a trap of a matrix stream writes (R364). -/
theorem rs_ws_twice (r : Ridge) (a b : W64) (q : SReg) :
    ((r.ws 62 a).ws 63 b).rs q = if q = 62 then a else if q = 63 then b else r.rs q := by
  rw [Ridge.rs_ws, Ridge.rs_ws]
  by_cases h63 : q = 63
  · simp [h63]
  · by_cases h62 : q = 62 <;> simp [h62, h63]

theorem ridgeFrame_setRidge (s : State) (c : Nat) (r : Ridge) : RidgeFrame s (s.setRidge c r) c :=
  ⟨fun _ hk => Tbl.find_put_of_ne _ _ hk, rfl, fun _ => rfl⟩

theorem agedRidge_setRidge (s : State) (c n : Nat) (r : Ridge) : ∃ sh, (s.setRidge c r).agedRidge c n = s.setRidge c { r with shadows := sh } := by
  refine ⟨(r.shadows.map (Shadow.age n)).filter fun x => x.left != 0 || !x.done, ?_⟩
  simp only [State.agedRidge, State.modRidge, State.ridge_setRidge_same]
  simp only [State.setRidge, Tbl.put_put]

/-- Settles O11. -/
theorem trapEntry : Obligations.TrapEntry := by
  refine ⟨fun i h code imm s c slot t e hs w h0 hvec hbk hroom => ⟨_, exec_of_trapOf e w h0 hbk, ?_⟩,
    fun i h code imm s c r e w h0 htrap hvec hbk => ?_⟩
  · rw [settleTeam_trapNext w.2.1, takeTrap_enters (by exact hvec) (trapCause_isIllegal e) (by exact hroom), trapWord_imm, trapCause_code e]
    have hp := (Placed.push (t1 := { t with pc := (s.ctx t.ctx).trpVec, atHdr := true, wait := none, back := false, slip := none }) hs w.2.1
      rfl ⟨.trap, (s.nextOf c t).1, BitVec.ofNat 64 (code * 2 ^ 57 + imm.toNat), t.act, 0⟩).killLoads
    exact hp.moved_aged hs (State.agedTeam_aged _ c slot _ hp.team) rfl
  · obtain ⟨u, hu⟩ : ∃ u, u = (({ r with trap := some ((s.nextOfM c r).1, r.rs 62, r.rs 63), pc := (s.ctx r.ctx).trpMvec,
                                           atHdr := true, wait := none, back := false, slip := none } : Ridge).ws 62
        (imm.zeroExtend 64)).ws 63 (BitVec.ofNat 64 code) := ⟨_, rfl⟩
    obtain ⟨sh, hsh⟩ := agedRidge_setRidge s c h.stall.val u
    refine ⟨_, { u with shadows := sh }, (exec_of_trapOf_ridge e w h0 hbk).trans (congrArg Host.Outcome.next ?_), ridgeFrame_setRidge s c _,
      State.ridge_setRidge_same .., ?_, fun q => ?_⟩
    · rw [settleRidge_trapNext w.2.1, takeTrapM_enters (by exact hvec) (by exact htrap) (trapCause_isIllegal e), trapCause_code e, ← hsh, hu]
      rfl
    · rw [hu, ridge_ws_frame, ridge_ws_frame]
    · rw [hu]
      exact rs_ws_twice _ _ _ q

/-! TRET (R364, R366). -/

section
variable {s : State} {c ctx target : Nat} {go : State → Res}

theorem toReturn_good (h2 : target % 2 = 0) (h : Claims.Asks s c ctx target) (hres : s.resumeAt c ctx target ≠ .bad) :
    s.toReturn c ctx target go = go (Claims.asked s c ctx target) := by
  unfold State.toReturn
  rw [if_neg (by omega), if_neg (Bool.eq_false_iff.1 h)]
  split
  · exact absurd ‹_› hres
  · rfl

theorem toReturn_bad (h2 : target % 2 = 0) (h : Claims.Asks s c ctx target) (hres : s.resumeAt c ctx target = .bad) :
    s.toReturn c ctx target go = .trapIn (Claims.asked s c ctx target) .illegalTarget (BitVec.ofNat 64 target) := by
  unfold State.toReturn
  rw [if_neg (by omega), if_neg (Bool.eq_false_iff.1 h), hres]
  rfl

theorem toReturn_not_short (hgo : ∀ m w, go m ≠ .short w) (w : Nat) : s.toReturn c ctx target go ≠ .short w := by
  unfold State.toReturn
  split
  · exact Res.noConfusion
  · split
    · exact Res.noConfusion
    · split
      · exact Res.noConfusion
      · exact hgo _ w

end

theorem tret_unguarded {i : Instr} {h : Hdr} {s : State} {c slot : Nat} {t : Team} (w : TeamIssues i h s c slot t) (hg : h.guard.val = 0) :
    (h.guard.val != 0 || h.gneg) = false := by
  obtain ⟨-, -, -, -, -, hn, -⟩ := w
  simp only [hg, true_and, Bool.not_eq_true] at hn
  simp [hg, hn]

theorem exec_tret {h : Hdr} {e : Entry} {rest : List Entry} {s : State} {c slot : Nat} {t : Team} (w : TeamIssues (.tret h) h s c slot t)
    (hg : h.guard.val = 0) (hstk : t.stk = e :: rest) (hk : e.kind = .trap) :
    exec (.tret h) s = .next (settleTeam (.tret h) h s c slot t
      (s.toReturn c t.ctx e.pc1 fun m => .went (m.trapReturn c slot { t with wait := none } e))) := by
  have run {eff : X → State → Res} {effR : XR → State → Res} {nd : State → Nat → Team → Need} {ndR : State → Nat → Ridge → Need} {r : Res}
      (hnd : nd s c t = {}) (he : eff (t.x s c slot h) s = r) (hr : ∀ w, r ≠ .short w) :
      runBoth (.tret h) h nd ndR s eff effR = .next (settleTeam (.tret h) h s c slot t r) := by
    subst he
    exact runBoth_team w (by rw [hnd]) (by rw [hnd]; exact nofun) (by rw [hnd]; exact nofun) hr
  change execTret h s = _
  unfold execTret
  refine run ?_ ?_ ?_
  · rw [tret_unguarded w hg]
  · have hstk' : (t.x s c slot h).team.stk = e :: rest := hstk
    rw [hstk']
    exact if_neg (by simp [hk])
  · exact toReturn_not_short fun _ _ => Res.noConfusion

/-- The team that a trap return puts back (R366). -/
theorem trapReturn_eq {m : State} {c slot : Nat} {t : Team} {e : Entry} {rest : List Entry} (hstk : t.stk = e :: rest) (ho : e.omask ≠ 0) :
    m.trapReturn c slot { t with wait := none } e = (m.killLoads c slot).setTeam c slot
      (Team.backAt { t with wait := none, act := e.omask, pc := e.pc1, stk := rest } (m.resumeAt c t.ctx e.pc1)) := by
  have hact (r : Resume) : (Team.backAt { t with wait := none, act := e.omask, pc := e.pc1, stk := rest } r).act ≠ 0 := by
    cases r <;> exact ho
  unfold State.trapReturn
  simp only [hstk, List.tail_cons]
  exact emptied_active (hact _)

theorem tret_spec {h : Hdr} {e : Entry} {rest : List Entry} {s : State} {c slot : Nat} {t : Team} (hs : slot < 16)
    (w : TeamIssues (.tret h) h s c slot t) (hg : h.guard.val = 0) (hstk : t.stk = e :: rest) (hk : e.kind = .trap) (ho : e.omask ≠ 0)
    (h2 : e.pc1 % 2 = 0) (ha : Claims.Asks s c t.ctx e.pc1) :
    let m := Claims.asked s c t.ctx e.pc1
    (s.resumeAt c t.ctx e.pc1 ≠ .bad → (m.resumeAt c t.ctx e.pc1 = .header ∨ m.resumeAt c t.ctx e.pc1 = .unread) →
      ∃ s', exec (.tret h) s = .next s' ∧ Claims.Moved m s' c slot t (e.pc1, true) e.omask rest) ∧
    (∀ a w, s.resumeAt c t.ctx e.pc1 ≠ .bad → m.resumeAt c t.ctx e.pc1 = .body a w →
      ∃ s', exec (.tret h) s = .next s' ∧
        Claims.Moved m s' c slot { t with hdrAddr := a, hdrWord := w } (e.pc1, false) e.omask rest) ∧
    (s.resumeAt c t.ctx e.pc1 = .bad →
      exec (.tret h) s = .next (m.takeTrap c slot { t with wait := none } .illegalTarget (BitVec.ofNat 64 e.pc1) t.pc)) := by
  intro m
  have hm : m.team? c slot = some t := ((asked_walk ..).team c slot).trans w.2.1
  have hkl : (m.killLoads c slot).team? c slot = some t := hm
  have hp (t1 : Team) (hv : t1.vmap = t.vmap) : Placed m ((m.killLoads c slot).setTeam c slot t1) c slot t1 := by
    have h1 : Placed m (m.killLoads c slot) c slot t := Placed.killLoads ⟨hm, .refl .., fun _ _ => rfl⟩
    have h2 := Placed.setTeam hs hkl hv
    exact ⟨h2.team, h1.frame.trans h2.frame, fun r l => (h2.vregs r l).trans (h1.vregs r l)⟩
  have hexec := exec_tret w hg hstk hk
  refine ⟨fun hb hres => ⟨_, hexec, ?_⟩, fun a w' hb hres => ⟨_, hexec, ?_⟩, fun hb => ?_⟩
  · rw [toReturn_good h2 ha hb, trapReturn_eq hstk ho]
    obtain hres | hres := hres
    · rw [hres]
      exact (hp (Team.backAt { t with wait := none, act := e.omask, pc := e.pc1, stk := rest } .header) rfl).moved_went hs rfl
    · rw [hres]
      exact (hp (Team.backAt { t with wait := none, act := e.omask, pc := e.pc1, stk := rest } .unread) rfl).moved_went hs rfl
  · rw [toReturn_good h2 ha hb, trapReturn_eq hstk ho, hres]
    have hq := hp (Team.backAt { t with wait := none, act := e.omask, pc := e.pc1, stk := rest } (.body a w')) rfl
    exact hq.moved_aged hs (settleTeam_went hq.team) rfl
  · rw [hexec, toReturn_bad h2 ha hb]
    rfl

theorem exec_tret_ridge {h : Hdr} {resume : Nat} {v62 v63 : W64} {s : State} {c : Nat} {r : Ridge} (w : RidgeIssues (.tret h) h s c r)
    (hg : h.guard.val = 0) (htrap : r.trap = some (resume, v62, v63)) : exec (.tret h) s = .next (settleRidge (.tret h) h s c r
      (s.toReturn c r.ctx resume fun m => .went (m.trapReturnM c { r with wait := none } resume v62 v63))) := by
  have hun : (h.guard.val != 0 || h.gneg) = false := by
    obtain ⟨-, -, -, -, -, hn⟩ := w
    simp only [hg, true_and, Bool.not_eq_true] at hn
    simp [hg, hn]
  have run {eff : X → State → Res} {effR : XR → State → Res} {nd : State → Nat → Team → Need} {ndR : State → Nat → Ridge → Need} {x : Res}
      (hnd : ndR s c r = {}) (he : effR (r.x c h) s = x) : runBoth (.tret h) h nd ndR s eff effR = .next (settleRidge (.tret h) h s c r x) := by
    subst he
    exact runBoth_ridge w (by rw [hnd])
  change execTret h s = _
  unfold execTret
  refine run ?_ ?_
  · rw [hun]
  · have htrap' : (r.x c h).r.trap = some (resume, v62, v63) := htrap
    rw [htrap']
    rfl

/-- Settles O12. -/
theorem trapReturn : Obligations.TrapReturn := by
  refine ⟨fun h e rest s c slot t hs w hg hstk hk ho h2 ha => tret_spec hs w hg hstk hk ho h2 ha,
    fun h resume v62 v63 s c r w hg htrap h2 ha => ?_⟩
  intro m hb hres
  obtain ⟨u, hu⟩ : ∃ u, u = (({ r with wait := none } : Ridge).ws 62 v62).ws 63 v63 := ⟨_, rfl⟩
  have hret : ∃ b, m.trapReturnM c { r with wait := none } resume v62 v63 =
      m.setRidge c { u with trap := none, pc := resume, atHdr := true, back := b } := by
    unfold State.trapReturnM
    have hctx : u.ctx = r.ctx := by
      rw [hu, ridge_ws_frame, ridge_ws_frame]
    simp only [← hu, hctx]
    obtain hres | hres := hres
    · exact ⟨false, by rw [hres]; rfl⟩
    · exact ⟨true, by rw [hres]; rfl⟩
  obtain ⟨b, hret⟩ := hret
  obtain ⟨sh, hsh⟩ := agedRidge_setRidge m c h.stall.val { u with trap := none, pc := resume, atHdr := true, back := b }
  refine ⟨_, { u with trap := none, pc := resume, atHdr := true, back := b, shadows := sh }, (exec_tret_ridge w hg htrap).trans (congrArg Host.Outcome.next ?_), ridgeFrame_setRidge m c _, State.ridge_setRidge_same .., ?_,
    fun q => ?_⟩
  · rw [toReturn_good h2 ha hb, hret]
    exact hsh
  · rw [hu, ridge_ws_frame, ridge_ws_frame]
  · rw [hu]
    exact rs_ws_twice _ _ _ q

/-! HALT, and a trap that no vector takes (R368, R369). -/

/-- Settles O13. -/
theorem haltRaisesTheLine : Obligations.HaltRaisesTheLine := by
  refine ⟨fun h a s c slot t w h0 hno => ?_, fun h a s c r w h0 hno => ?_, fun i h code imm s c slot t e hs w h0 hvec hbk hno => ?_,
    fun i h code imm s c r e w h0 hvec hbk hno => ?_⟩
  · obtain ⟨hrest, hr⟩ := fatalAt_raises (slot := slot) (cause := .halt) (resume := t.pc) (faddr := t.rs a) hno
    exact ⟨_, runBoth_eff w (if_neg h0) fun _ => Res.noConfusion, hrest, rfl, hr⟩
  · obtain ⟨hrest, hr⟩ := fatalAt_raises (slot := 0) (cause := .halt) (resume := r.pc) (faddr := r.rs a) hno
    have hadm : ¬ (!(r.x c h).adm) = true := by simpa [Ridge.x] using h0
    exact ⟨_, (runBoth_plainM w).trans (congrArg (Host.Outcome.next <| settleRidge _ h s c r ·) (if_neg hadm)), hrest, hr⟩
  · obtain ⟨hrest, hr⟩ := fatalAt_raises (slot := slot) (cause := trapCause code) (resume := (s.nextOf c t).1) (faddr := imm.zeroExtend 64) hno
    generalize hm : s.fatalAt c slot (trapCause code) (s.nextOf c t).1 (imm.zeroExtend 64) = m at hrest hr
    have htrap : s.takeTrap c slot { t with wait := none } (trapCause code) (imm.zeroExtend 64) (s.nextOf c t).1 = m := by
      rw [← hm]
      exact if_pos (by simp [hvec])
    have hteam : m.team? c slot = some t := by
      rw [hrest]
      exact w.2.1
    have haged := State.agedTeam_aged m c slot h.stall.val hteam
    have hparts : (m.agedTeam c slot h.stall.val).parts = m.parts := by simp [State.agedTeam]
    refine ⟨m.agedTeam c slot h.stall.val, trapCause code, (exec_of_trapOf e w h0 hbk).trans (congrArg Host.Outcome.next ?_), trapCause_code e,
      raised_congr hparts hr, ?_⟩
    · rw [settleTeam_trapNext w.2.1, htrap]
    · rw [hparts, ← hrest]
      exact haged
  · obtain ⟨hrest, hr⟩ := fatalAt_raises (slot := 0) (cause := trapCause code) (resume := (s.nextOfM c r).1) (faddr := imm.zeroExtend 64) hno
    generalize hm : s.fatalAt c 0 (trapCause code) (s.nextOfM c r).1 (imm.zeroExtend 64) = m at hrest hr
    have htrap : s.takeTrapM c { r with wait := none } (trapCause code) (imm.zeroExtend 64) (s.nextOfM c r).1 = m := by
      rw [← hm]
      exact if_pos (by
        obtain hvec | htr := hvec
        · simp [hvec]
        · simp [htr])
    have hridge : m.ridge? c = some r := by
      rw [hrest]
      exact w.2.1
    have haged : m.agedRidge c h.stall.val = m.setRidge c { r with
        shadows := (r.shadows.map (Shadow.age h.stall.val)).filter fun x => x.left != 0 || !x.done } := by
      simp only [State.agedRidge, State.modRidge, hridge]
    have hparts : (m.agedRidge c h.stall.val).parts = m.parts := by rw [haged]; rfl
    refine ⟨m.agedRidge c h.stall.val, trapCause code, (r.shadows.map (Shadow.age h.stall.val)).filter fun x => x.left != 0 || !x.done,
      (exec_of_trapOf_ridge e w h0 hbk).trans (congrArg Host.Outcome.next ?_),
      trapCause_code e, raised_congr hparts hr, ?_⟩
    · rw [settleRidge_trapNext w.2.1, htrap]
    · rw [hparts, ← hrest]
      exact haged

end Sys2Proof.Proofs

end

section
/-! R10, R13, R60, R374: the turn of a team that stands at a header. -/

open Sys2Proof Sys2Proof.Machine

namespace Sys2Proof.Proofs

theorem step_of_enterTeam {s : State} {rest : List Turn} {c slot : Nat} {t : Team} (ha : s.agenda = .issue (.team c slot) :: rest)
    (hs : slot < 16) (ht : s.team? c slot = some t) (hm : s.mayIssue c t.ctx = true) (hf : t.frozen = none) (hw : t.wait = none)
    (hh : t.atHdr = true) : step s = .next (enterTeam { s with agenda := rest } c slot t) := by
  have ht' : State.team? { s with agenda := rest } c slot = some t := ht
  have hm' : State.mayIssue { s with agenda := rest } c t.ctx = true := hm
  rw [step_of_agenda ha]
  refine runTurn_issue_of_idle ?_
  simp [prep, prepTeam, ht', hs, hm', hf, hw, hh]

/-- Where no DIV entry on top names the place, the team enters the header as its word allows. -/
theorem enterTeam_header {s : State} {c slot : Nat} {t : Team}
    (hstk : ∀ e rest, t.stk = e :: rest → ¬ (e.kind = .div ∧ e.pc1 = t.pc)) :
    enterTeam s c slot t = enterTeam.header s c slot t := by
  unfold enterTeam
  split
  · next e rest heq => exact if_neg (by simpa using hstk e rest heq)
  · rfl

theorem enterTeam_pending {s : State} {c slot : Nat} {t : Team} {e : Entry} {stk : List Entry} (hstk : t.stk = e :: stk)
    (hk : e.kind = .div) (hp : e.pc1 = t.pc) (ht : e.tmask ≠ 0) :
    enterTeam s c slot t = s.setTeam c slot { t with
      act := e.tmask, pc := e.pc2.toNat, atHdr := true, back := false, stk := { e with tmask := 0 } :: stk } := by
  have hif : (e.kind == .div && e.pc1 == t.pc) = true := by simp [hk, hp]
  unfold enterTeam
  rw [hstk]
  simp only [hif, if_true, List.length_cons, reconverge_pending hstk hk ht]

theorem badHeader_eq_false_iff {w : Nat} {bank : Bool} : badHeader w bank = false ↔ Claims.GoodHeader w bank := by
  unfold badHeader Claims.GoodHeader isHeader hdrLen hdrForm
  have hform : (fld w 50 2 < 2 ∧ (fld w 50 2 = 1 → bank = true)) ↔ (fld w 50 2 = 0 ∨ fld w 50 2 = 1 ∧ bank = true) := by
    constructor
    · rintro ⟨h1, h2⟩
      by_cases h : fld w 50 2 = 1
      · exact .inr ⟨h, h2 h⟩
      · exact .inl (by omega)
    · rintro (h | ⟨h, hb⟩)
      · exact ⟨by omega, fun h1 => by omega⟩
      · exact ⟨by omega, fun _ => hb⟩
  rw [← hform]
  simp only [Bool.or_eq_false_iff, Bool.not_eq_false', beq_iff_eq, beq_eq_false_iff_ne, bne_eq_false_iff_eq, decide_eq_false_iff_not,
    not_le, Bool.and_eq_false_imp, and_assoc, ne_eq]
  exact and_congr_right fun _ => and_congr_right fun _ => and_left_comm

/-- The word at an aligned place that no trap return names is judged as a header. -/
theorem header_of_word {s : State} {c slot w : Nat} {t : Team} (h8 : t.pc % 8 = 0) (hb : t.back = false)
    (hw : s.fetch c t.ctx t.pc = .word w) : enterTeam.header s c slot t =
      if badHeader w ((s.core c).bankOf t.hdr t.ctx).isSome then s.takeTrap c slot t .illegalHeader 0 t.pc
      else
        let t' := { t with hdrAddr := t.pc, hdrWord := w, pc := t.pc + 8, atHdr := false }
        if hdrPpoint w && s.requested t.blk then s.freezeTeam c slot t' ⟨some (liveIn w), BitVec.allOnes 8, false⟩
        else s.setTeam c slot t' := by
  have h8' : t.pc / 8 * 8 = t.pc := by omega
  simp only [enterTeam.header, h8', hw]
  simp [h8, hb]

theorem unmapped_header {s : State} {c slot : Nat} {t : Team} (h : s.fetch c t.ctx (t.pc / 8 * 8) = .unmapped) :
    enterTeam.header s c slot t =
      (s.fetchFill c t.ctx (t.pc / 8 * 8)).takeTrap c slot t .page (BitVec.ofNat 64 t.pc) t.pc := by
  simp only [enterTeam.header, h]

/-- Where a trap return resumes inside a body, the team goes on there (R14, R366). -/
theorem header_resumes {s : State} {c slot w b hw : Nat} {t : Team} (h : s.fetch c t.ctx (t.pc / 8 * 8) = .word w) (hb : t.back = true)
    (hr : s.resumeAt c t.ctx t.pc = .body b hw) :
    enterTeam.header s c slot t = s.setTeam c slot { t with atHdr := false, hdrAddr := b, hdrWord := hw, back := false } := by
  simp [enterTeam.header, h, hb, hr]

/-! What a fetch reads does not depend on the turns to come. -/

theorem headerBelow_setAgenda (s : State) (rest : List Turn) (c ctx fuel a : Nat) :
    State.headerBelow { s with agenda := rest } c ctx fuel a = s.headerBelow c ctx fuel a := by
  induction fuel generalizing a with
  | zero => rfl
  | succ n ih =>
    unfold State.headerBelow
    rw [show State.peek { s with agenda := rest } c ctx a = s.peek c ctx a from rfl]
    simp only [ih]

theorem resumeAt_setAgenda (s : State) (rest : List Turn) (c ctx target : Nat) :
    State.resumeAt { s with agenda := rest } c ctx target = s.resumeAt c ctx target := by
  unfold State.resumeAt
  rw [show State.peek { s with agenda := rest } = s.peek from rfl]
  simp only [headerBelow_setAgenda]

/-- Settles O21. -/
theorem enteringHeaders : Obligations.EnteringHeaders := by
  refine ⟨fun s rest c slot t w ha hat => ?_, fun s rest c slot t e stk ha hs ht hm hf hw hh hstk hk hp hne => ?_,
    fun s rest c slot t ha hs ht hmay hf hw hh hstk => ?_⟩
  · obtain ⟨hs, ht, hm, hf, hw, hh, h8, hb, hfetch, hstk⟩ := hat
    have hfetch' : State.fetch { s with agenda := rest } c t.ctx t.pc = .word w := hfetch
    rw [step_of_enterTeam ha hs ht hm hf hw hh, enterTeam_header hstk, header_of_word h8 hb hfetch']
    refine ⟨fun hbad => ?_, fun hgood => ⟨fun hno => ?_, fun hpp hreq => ?_⟩⟩
    · rw [if_pos (Bool.not_eq_false _ ▸ mt badHeader_eq_false_iff.1 hbad)]
    · have hno' : (hdrPpoint w && State.requested { s with agenda := rest } t.blk) = false := by
        obtain h | h := hno
        · simp [hdrPpoint, h]
        · rw [show State.requested { s with agenda := rest } t.blk = false from h, Bool.and_false]
      rw [if_neg (Bool.not_eq_true _ ▸ badHeader_eq_false_iff.2 hgood)]
      exact congrArg Host.Outcome.next (if_neg (Bool.not_eq_true _ ▸ hno'))
    · have hyes : (hdrPpoint w && State.requested { s with agenda := rest } t.blk) = true := by
        rw [show State.requested { s with agenda := rest } t.blk = true from hreq]
        simp [hdrPpoint, hpp]
      rw [if_neg (Bool.not_eq_true _ ▸ badHeader_eq_false_iff.2 hgood)]
      exact congrArg Host.Outcome.next (if_pos hyes)
  · rw [step_of_enterTeam ha hs ht hm hf hw hh, enterTeam_pending hstk hk hp hne, ← hh]
  · rw [step_of_enterTeam ha hs ht hmay hf hw hh, enterTeam_header (by simp [hstk])]
    have hfm : State.fetch { s with agenda := rest } = s.fetch := rfl
    have hrm := resumeAt_setAgenda s rest c t.ctx t.pc
    generalize { s with agenda := rest } = m at hfm hrm
    rw [← hfm, ← hrm]
    exact ⟨fun h => congrArg Host.Outcome.next (unmapped_header h),
      fun w b hw h hb hr => congrArg Host.Outcome.next (header_resumes h hb hr)⟩

end Sys2Proof.Proofs

end

section
/-! R92, R93: a value table whose uses are newer than the sequence number, so that an entry a load inserts is the least recent by the
count of its passes, and not by the numbers of the reads it has put in flight. -/

open Sys2Proof Sys2Proof.Machine

namespace Sys2Proof.Proofs

/-- A team with all lanes of four words active, whose register 1 names slices 1, 512, 1027 and 512 in them, with a view of one word. -/
def crowdedTeam : Team :=
  { placeTeam with
    act := BitVec.ofNat 1024 (2 ^ 128 - 1)
    vmap := [(mkey 1 0, 1), (mkey 1 1, 512), (mkey 1 2, 1027), (mkey 1 3, 512)]
    view := [(0, ⟨BitVec.ofNat 256 (2 ^ 63 + 2 ^ 8 + 2 ^ 72 + 2 ^ 136 + 2 ^ 200), ⟨.pack, 0, 2, 1, [1, 0, 0, 0], [1, 0, 0, 0]⟩, none⟩)] }

/-- Its core, where the four ways of a set of the value table hold entries last used at 14; the sequence number is 4. -/
def crowdedState (set : Nat) : State :=
  { ((State.reset.place 0).setTeam 0 0 crowdedTeam).modCore 0 fun c => { c with
      vtb := (List.range 4).map fun w => ⟨set, w, w, 1, 14, false, 0⟩
      phys := [(1, ⟨0, 2, false⟩), (512, ⟨0, 2, false⟩), (1027, ⟨0, 2, false⟩)] } with cur := .team 0 0 }

/-- Loads of a word of pack by register 1, as an address and as an element number. -/
def packLoad : Instr := .ld plainHdr (.v 0) (.v 1) .pack .plain .b32 false 0
def viewLoad : Instr := .vld plainHdr 0 0 .plain .b32 false (.v 1) none

/-- The state where the set is the one that a load's passes fall in. -/
def crowdedBy (i : Instr) : State := crowdedState (vtSet (vtKey i crowdedTeam 0 0))

/-- The key that every lane of them reads. -/
def crowdedKey (_ : Nat) : Nat := packKey 1 0


/-- As many reads in space pack as lanes: each of a word is one. -/
theorem length_readsOf_pack (s : State) (c : Nat) (t t' : Team) (d : VReg) (ls : List Nat) (key : Nat → Nat) :
    (Claims.readsOf s c t t' .pack .plain d .b32 ls key).length = ls.length := by
  induction ls with
  | nil => rfl
  | cons l ls ih =>
    simp only [Claims.readsOf, List.flatMap_cons, List.length_append, List.length_cons] at ih ⊢
    rw [ih, Nat.add_comm]
    rfl

/-- The accesses after a form that reads plainly from pack, where none were in flight. -/
theorem length_accs_of_reading {s s' : State} {c uid : Nat} {t t' : Team} {d : VReg} {ls : List Nat} {key : Nat → Nat} (h0 : s.accs = [])
    (h : Claims.Reading s s' c uid .plain false (Claims.readsOf s c t t' .pack .plain d .b32 ls key)) : s'.accs.length = ls.length := by
  obtain ⟨new, haccs, hreads, -⟩ := h
  have hlen := congrArg List.length hreads
  rw [List.length_map, length_readsOf_pack] at hlen
  rw [haccs, if_neg (by simp), h0, List.nil_append, hlen]

theorem packLoad_premises : (crowdedBy packLoad).stashOk = true ∧ TeamIssues packLoad plainHdr (crowdedBy packLoad) 0 0 crowdedTeam ∧
    crowdedTeam.adm plainHdr ≠ 0 ∧ (crowdedBy packLoad).acquiring crowdedTeam.uid = false ∧
    (crowdedBy packLoad).teamOf crowdedTeam.uid = some (tkey 0 0, crowdedTeam) ∧ (crowdedBy packLoad).accs = [] := by decide +kernel

/-- Counted by passes, each of the four misses: the entry that the second inserts is evicted by the third. -/
theorem packLoad_missing : (crowdedTeam.x (crowdedBy packLoad) 0 0 plainHdr).missing packLoad (fun _ => true) (crowdedBy packLoad).cycle
    ((crowdedBy packLoad).core 0) (crowdedBy packLoad).seq (passes (crowdedTeam.adm plainHdr)) = [0, 1, 2, 3] := by decide +kernel

theorem packLoad_lacks_none : (crowdedBy packLoad).lacking 0 crowdedTeam 0 (loadNeeds 1 [0, 1, 2, 3] (passes (crowdedTeam.adm plainHdr))) = none ∧
    ((lanes (crowdedTeam.adm plainHdr)).filter fun l => [0, 1, 2, 3].contains (l / 32)).length = 128 := by decide +kernel

theorem packLoad_reaches : ∀ l ∈ lanes (crowdedTeam.adm plainHdr), Claims.addrOf (crowdedBy packLoad) 0 crowdedTeam .pack (.v 1) 0 l = 0 ∧
    (crowdedBy packLoad).spanAt (crowdedTeam.who 0) .pack l 0 4 true false = .ok (packKey 1 0) 0 := by decide +kernel

/-- The fourth pass finds the entry of the second, and puts no read in flight. -/
theorem packLoad_accs : (match exec packLoad (crowdedBy packLoad) with | .next s' => s'.accs.length | _ => 0) = 96 := by decide +kernel

/-- Refutes O26: a fourth pass that would miss by the count of the passes hits, as the reads of the second have moved the sequence
number past the use of an older entry; its lanes are not read. -/
theorem not_loads : ¬ Obligations.Loads := by
  rintro ⟨-, hvec⟩
  obtain ⟨hok, hissues, hadm, hacq, hof, hnone⟩ := packLoad_premises
  obtain ⟨hlack, hlanes⟩ := packLoad_lacks_none
  have h := hvec plainHdr 0 (.v 1) .pack .plain .b32 false 0 (crowdedBy packLoad) 0 0 crowdedTeam crowdedKey (by decide) hok hissues hadm hacq
    hof
  rw [show Instr.ld plainHdr (.v 0) (.v 1) .pack .plain .b32 false 0 = packLoad from rfl, packLoad_missing] at h
  have hreach : Claims.Reach (crowdedBy packLoad) 0 crowdedTeam .pack 4 true false true (lanes (crowdedTeam.adm plainHdr))
      (Claims.addrOf (crowdedBy packLoad) 0 crowdedTeam .pack (.v 1) 0) crowdedKey := by
    intro l hl
    obtain ⟨haddr, hspan⟩ := packLoad_reaches l hl
    rw [haddr]
    exact ⟨fun _ => rfl, nofun, 0, hspan⟩
  obtain ⟨s', t', hexec, -, -, -, -, -, hreading, -⟩ := h hlack hreach nofun
  have haccs : s'.accs.length = 96 := by simpa only [hexec] using packLoad_accs
  have hreads := (length_accs_of_reading hnone hreading).trans hlanes
  omega

/-! The same through a view. -/

/-- The element that a lane takes. -/
abbrev viewLoadEl (l : Nat) : Option Nat :=
  viewElem (crowdedTeam.viewOf 0) (Src.elemNo ⟨(crowdedBy viewLoad).core 0, crowdedTeam, []⟩ (.v 1) l)

theorem viewLoad_premises : (crowdedBy viewLoad).stashOk = true ∧ TeamIssues viewLoad plainHdr (crowdedBy viewLoad) 0 0 crowdedTeam ∧
    (crowdedBy viewLoad).acquiring crowdedTeam.uid = false ∧
    (crowdedBy viewLoad).teamOf crowdedTeam.uid = some (tkey 0 0, crowdedTeam) ∧ (crowdedBy viewLoad).accs = [] ∧
    (crowdedTeam.viewOf 0).valid = true ∧
    (crowdedBy viewLoad).compassHolds (crowdedTeam.who 0) (crowdedTeam.viewOf 0) false = false := by decide +kernel

theorem viewLoad_missing : (crowdedTeam.x (crowdedBy viewLoad) 0 0 plainHdr).missing viewLoad
    (fun j => (crowdedTeam.viewOf 0).zf || (List.range 32).all fun l => (viewLoadEl (32 * j + l)).isSome) (crowdedBy viewLoad).cycle
    ((crowdedBy viewLoad).core 0) (crowdedBy viewLoad).seq (passes (crowdedTeam.adm plainHdr)) = [0, 1, 2, 3] := by decide +kernel

theorem viewLoad_lacks_none : (crowdedBy viewLoad).lacking 0 crowdedTeam 0 (loadNeeds 1 [0, 1, 2, 3] (passes (crowdedTeam.adm plainHdr))) = none ∧
    ((lanes (crowdedTeam.adm plainHdr)).filter fun l => [0, 1, 2, 3].contains (l / 32) && (viewLoadEl l).isSome).length = 128 := by
  decide +kernel

theorem viewLoad_reaches : ∀ l ∈ lanes (crowdedTeam.adm plainHdr), (viewLoadEl l).getD 0 = 0 ∧
    (crowdedBy viewLoad).spanAt (crowdedTeam.who 0) .pack l 0 4 true false = .ok (packKey 1 0) 0 := by decide +kernel

theorem viewLoad_accs : (match exec viewLoad (crowdedBy viewLoad) with | .next s' => s'.accs.length | _ => 0) = 96 := by decide +kernel

/-- Refutes O30: VLD misses and hits as the load of O26's counterexample does. -/
theorem not_viewAccess : ¬ Obligations.ViewAccess := by
  rintro ⟨hvld, -⟩
  obtain ⟨hok, hissues, hacq, hof, hnone, hvalid, hholds⟩ := viewLoad_premises
  obtain ⟨-, -, hadm, -⟩ := packLoad_premises
  obtain ⟨hlack, hlanes⟩ := viewLoad_lacks_none
  have h := hvld plainHdr 0 0 .plain .b32 false (.v 1) none (crowdedBy viewLoad) 0 0 crowdedTeam crowdedKey (by decide) hok hissues
    hadm hacq hof hvalid rfl hholds
  rw [show Instr.vld plainHdr 0 0 .plain .b32 false (.v 1) none = viewLoad from rfl] at h
  rw [viewLoad_missing] at h
  have hreach : Claims.Reach (crowdedBy viewLoad) 0 crowdedTeam .pack 4 true false false
      ((lanes (crowdedTeam.adm plainHdr)).filter fun l => (viewLoadEl l).isSome) (fun l => (viewLoadEl l).getD 0) crowdedKey := by
    intro l hl
    obtain ⟨haddr, hspan⟩ := viewLoad_reaches l (List.mem_filter.1 hl).1
    simp only [haddr]
    exact ⟨nofun, nofun, 0, hspan⟩
  obtain ⟨s', t', hexec, -, -, -, -, -, -, hreading, -⟩ := h hlack (fun _ _ => show packKey 1 0 % 4 = 0 by decide) hreach nofun
  have haccs : s'.accs.length = 96 := by simpa only [hexec] using viewLoad_accs
  have hreads := length_accs_of_reading hnone hreading
  change s'.accs.length = ((lanes (crowdedTeam.adm plainHdr)).filter fun l => [0, 1, 2, 3].contains (l / 32) && (viewLoadEl l).isSome).length
    at hreads
  rw [hlanes, haccs] at hreads
  exact absurd hreads (by decide)

end Sys2Proof.Proofs

end

section
/-! R188, R290: the walks that lanes' addresses ask for, and the checks of their places. -/

open Sys2Proof Sys2Proof.Machine

namespace Sys2Proof.Proofs

/-! Walks where no data are bad (R394). -/

theorem eccBad_of_clean {s : State} (h : Claims.Clean s) (key : Nat) : s.eccBad key = false := by
  obtain ⟨hlines, hports⟩ := h
  simp [State.eccBad, hlines, hports]

theorem walkBad_of_clean {s : State} (h : Claims.Clean s) (ctx va : Nat) : s.walkBad ctx va = false := by
  unfold State.walkBad
  rw [List.any_eq_false]
  exact fun k _ => Bool.eq_false_iff.1 (eccBad_of_clean h k)

theorem WalkAside.clean {s m : State} (h : WalkAside s m) (hc : Claims.Clean s) : Claims.Clean m := by
  rw [h]
  exact hc

theorem walked_refl (s : State) : Claims.Walked s s := ⟨rfl, fun _ => rfl⟩

theorem walkAside_of_walked {s m : State} (h : Claims.Walked s m) : WalkAside s m := by
  obtain ⟨h, -⟩ := h
  unfold WalkAside
  rw [h]

theorem walked_of_walkAside {s m : State} (h : WalkAside s m) (hp : Claims.Clean s → m.parts = s.parts) : Claims.Walked s m := by
  refine ⟨?_, hp⟩
  rw [h]

theorem walked_trans {a b c : State} (h : Claims.Walked a b) (g : Claims.Walked b c) : Claims.Walked a c :=
  walked_of_walkAside ((walkAside_of_walked h).trans (walkAside_of_walked g)) fun hc =>
    (g.2 ((walkAside_of_walked h).clean hc)).trans (h.2 hc)

theorem walked_foldl {α : Type} {f : State → α → State} (hf : ∀ s a, Claims.Walked s (f s a)) (l : List α) (s : State) :
    Claims.Walked s (l.foldl f s) := by
  induction l generalizing s with
  | nil => exact walked_refl s
  | cons a l ih => exact walked_trans (hf s a) (ih _)

theorem startWalk_parts (s : State) (st core ctx va : Nat) : (s.startWalk st core ctx va).parts = s.parts := by
  have h : ((s.walkedReads ctx va).bump .walks st 1).parts = s.parts := by
    rw [show s.walkedReads ctx va = _ from Aside.walkedReads s ctx va]
    rfl
  unfold State.startWalk
  split
  · rfl
  · dsimp only
    split
    · exact h
    · exact h

theorem walked_tlbFill (s : State) (core ctx va : Nat) : Claims.Walked s (s.tlbFill core ctx va) := by
  refine walked_of_walkAside (.tlbFill ..) fun hc => ?_
  unfold State.tlbFill
  split
  · rfl
  · rw [walkBad_of_clean hc]
    exact startWalk_parts ..

theorem walked_tlbFills (s : State) (core ctx : Nat) (vas : List Nat) : Claims.Walked s (s.tlbFills core ctx vas) :=
  walked_foldl (fun s p => walked_tlbFill ..) _ s

theorem walked_walkAll (s : State) (w : Who) (sp : Space) (ls : List (Nat × Nat)) : Claims.Walked s (s.walkAll w sp ls) := by
  unfold State.walkAll
  split
  · exact walked_refl s
  · exact walked_tlbFills ..

theorem walked_touch (s : State) (w : Who) (sp : Space) (ls : List (Nat × Spot)) : Claims.Walked s (s.touch w sp ls) := walked_walkAll ..

/-! The places of lanes (R188). -/

theorem lanesWait_eq_false {s : State} {c : Nat} {t : Team} {sp : Space} {ls : List Nat} {va : Nat → Nat}
    (h : sp = .glob → ∀ l ∈ ls, s.walkWaits c t.ctx (va l) = false) : s.lanesWait (t.who c) sp (ls.map fun l => (l, va l)) = false := by
  unfold State.lanesWait
  by_cases hsp : sp = .glob
  · subst hsp
    simpa [Team.who] using h rfl
  · simp [hsp]

/-- Where every lane reaches its place, the check gives them all. -/
theorem spots_of_reach {s : State} {c : Nat} {t : Team} {sp : Space} {n : Nat} {rd wr align : Bool} {ls : List Nat} {va key : Nat → Nat}
    (h : Claims.Reach s c t sp n rd wr align ls va key) :
    ∃ cls : Nat → Nat, spots s (t.who c) sp n rd wr align (ls.map fun l => (l, va l)) = .ok (ls.map fun l => (l, ⟨va l, key l, cls l⟩)) := by
  have hcls : ∀ l, ∃ cls, l ∈ ls → s.spanAt (t.who c) sp l (va l) n rd wr = .ok (key l) cls := fun l => by
    by_cases hl : l ∈ ls
    · obtain ⟨-, -, cls, hspan⟩ := h l hl
      exact ⟨cls, fun _ => hspan⟩
    · exact ⟨0, fun hl' => absurd hl' hl⟩
  choose cls hcls using hcls
  refine ⟨cls, ?_⟩
  have hwait : s.lanesWait (t.who c) sp (ls.map fun l => (l, va l)) = false :=
    lanesWait_eq_false fun hsp l hl => (h l hl).2.1 hsp
  have hplaces : lanePlaces s (t.who c) sp n rd wr (ls.map fun l => (l, va l)) = ls.map fun l => (l, va l, At.ok (key l) (cls l)) := by
    simp only [lanePlaces, List.map_map, Function.comp_def]
    exact List.map_congr_left fun l hl => by rw [hcls l hl]
  have hnone (p : Nat × Nat × At → Bool) (hp : ∀ l ∈ ls, p (l, va l, At.ok (key l) (cls l)) = false) :
      (ls.map fun l => (l, va l, At.ok (key l) (cls l))).find? p = none := by
    simpa using hp
  have hal : ∀ l ∈ ls, (align && va l % n != 0) = false := fun l hl => by
    cases align
    · rfl
    · simp [(h l hl).1 rfl]
  unfold spots
  simp only [hwait, hplaces, hnone (fun a => a.2.2 == .prot) (fun l _ => rfl), hnone (fun a => align && a.2.1 % n != 0) hal,
    hnone (fun a => a.2.2 == .unmapped) (fun l _ => rfl)]
  simp [goodPlaces, List.filterMap_map, Function.comp_def]

/-! Places that fail (R188). -/

theorem find_of_firstOf {α : Type} {ls : List Nat} {f : Nat → Prop} {l : Nat} (h : Claims.FirstOf ls f l) (g : Nat → α) (p : α → Bool)
    (hp : ∀ k, p (g k) = true ↔ f k) : (ls.map g).find? p = some (g l) := by
  obtain ⟨a, b, rfl, hl, hbefore⟩ := h
  rw [List.map_append, List.find?_append, List.find?_eq_none.2, Option.none_or, List.map_cons, List.find?_cons_of_pos ((hp l).2 hl)]
  intro x hx
  obtain ⟨k, hk, rfl⟩ := List.mem_map.1 hx
  exact mt (hp k).1 (hbefore k hk)

theorem lanePlaces_map (s : State) (w : Who) (sp : Space) (n : Nat) (rd wr : Bool) (ls : List Nat) (va : Nat → Nat) :
    lanePlaces s w sp n rd wr (ls.map fun k => (k, va k)) = ls.map fun k => (k, va k, s.spanAt w sp k (va k) n rd wr) := by
  simp [lanePlaces, Function.comp_def]

section
variable {s : State} {c : Nat} {t : Team} {sp : Space} {n : Nat} {rd wr : Bool} {ls : List Nat} {va : Nat → Nat} {l : Nat}
  (hw : sp = .glob → ∀ k ∈ ls, s.walkWaits c t.ctx (va k) = false)
include hw

theorem spots_prot (h : Claims.FirstOf ls (fun k => s.spanAt (t.who c) sp k (va k) n rd wr = .prot) l) :
    spots s (t.who c) sp n rd wr true (ls.map fun k => (k, va k)) = .error (.cause .prot (va l)) := by
  unfold spots
  simp only [lanesWait_eq_false hw, lanePlaces_map,
    find_of_firstOf h (fun k => (k, va k, s.spanAt (t.who c) sp k (va k) n rd wr)) (fun a => a.2.2 == .prot) fun k => beq_iff_eq]
  rfl

theorem spots_align (hno : ∀ k ∈ ls, s.spanAt (t.who c) sp k (va k) n rd wr ≠ .prot) (h : Claims.FirstOf ls (fun k => va k % n ≠ 0) l) :
    spots s (t.who c) sp n rd wr true (ls.map fun k => (k, va k)) = .error (.cause .align (va l)) := by
  have hprot : (ls.map fun k => (k, va k, s.spanAt (t.who c) sp k (va k) n rd wr)).find? (fun a => a.2.2 == .prot) = none := by
    simpa using hno
  unfold spots
  simp only [lanesWait_eq_false hw, lanePlaces_map, hprot,
    find_of_firstOf h (fun k => (k, va k, s.spanAt (t.who c) sp k (va k) n rd wr)) (fun a => true && a.2.1 % n != 0) fun k => by simp]
  rfl

theorem spots_page (hno : ∀ k ∈ ls, s.spanAt (t.who c) sp k (va k) n rd wr ≠ .prot ∧ va k % n = 0)
    (h : Claims.FirstOf ls (fun k => s.spanAt (t.who c) sp k (va k) n rd wr = .unmapped) l) :
    spots s (t.who c) sp n rd wr true (ls.map fun k => (k, va k)) = .error (.cause .page (va l)) := by
  have hprot : (ls.map fun k => (k, va k, s.spanAt (t.who c) sp k (va k) n rd wr)).find? (fun a => a.2.2 == .prot) = none := by
    simpa using fun k hk => (hno k hk).1
  have halign : (ls.map fun k => (k, va k, s.spanAt (t.who c) sp k (va k) n rd wr)).find? (fun a => true && a.2.1 % n != 0) = none := by
    simpa using fun k hk => (hno k hk).2
  unfold spots
  simp only [lanesWait_eq_false hw, lanePlaces_map, hprot, halign,
    find_of_firstOf h (fun k => (k, va k, s.spanAt (t.who c) sp k (va k) n rd wr)) (fun a => a.2.2 == .unmapped) fun k => beq_iff_eq]
  rfl

end

end Sys2Proof.Proofs

end

section
/-! R175, R188, R189: accesses put in flight, and stores. -/

open Sys2Proof Sys2Proof.Machine

namespace Sys2Proof.Proofs

/-! Putting accesses in flight. -/

/-- m is s with accesses put in flight for a core, and what that takes: walks, lines of the shared caches, counts, and the core's own
table, L1 and ownership. -/
structure Issued (s m : State) (c : Nat) (new : List Access) : Prop where
  cores : ∀ d, d ≠ c → m.core d = s.core d
  core : m.core c = { s.core c with vtb := (m.core c).vtb, l1 := (m.core c).l1, own := (m.core c).own }
  accs : m.accs = s.accs ++ new
  rest : m = { s with cores := m.cores, accs := m.accs, ctr := m.ctr, seq := m.seq, slices := m.slices, sent := m.sent, free := m.free,
                      walks := m.walks, mem := m.mem, eccOnes := m.eccOnes, comp := m.comp, parts := m.parts }
  parts : Claims.Clean s → m.parts = s.parts

theorem Issued.refl (s : State) (c : Nat) : Issued s s c [] := ⟨fun _ _ => rfl, rfl, (List.append_nil _).symm, rfl, fun _ => rfl⟩

section
variable {s m n : State} {c : Nat} {new new' : List Access}

theorem Issued.clean (h : Issued s m c new) (hc : Claims.Clean s) : Claims.Clean m := by
  rw [h.rest]
  exact hc

theorem Issued.trans (h : Issued s m c new) (g : Issued m n c new') : Issued s n c (new ++ new') := by
  refine ⟨fun d hd => (g.cores d hd).trans (h.cores d hd), ?_, ?_, ?_, fun hc => (g.parts (h.clean hc)).trans (h.parts hc)⟩
  · rw [g.core, h.core]
  · rw [g.accs, h.accs, List.append_assoc]
  · rw [g.rest, h.rest]

theorem Issued.team (h : Issued s m c new) (d slot : Nat) : m.team? d slot = s.team? d slot := by
  rw [h.rest]
  rfl

theorem Issued.vreg (h : Issued s m c new) (k : Nat) (r : VReg) (l : Nat) : m.vreg c k r l = s.vreg c k r l :=
  vreg_congr (h.team c k) (by rw [h.core]) r l

theorem Issued.of_walked (h : Claims.Walked s m) : Issued s m c [] := by
  obtain ⟨hrest, hparts⟩ := h
  refine ⟨fun d _ => ?_, ?_, ?_, ?_, hparts⟩
  · rw [hrest]; rfl
  · rw [hrest]; rfl
  · rw [hrest, List.append_nil]
  · rw [hrest]

theorem Issued.modCore (f : Core → Core) (h : f (s.core c) = { s.core c with
    vtb := (f (s.core c)).vtb, l1 := (f (s.core c)).l1, own := (f (s.core c)).own }) : Issued s (s.modCore c f) c [] := by
  refine ⟨fun d hd => ?_, ?_, (List.append_nil _).symm, rfl, fun _ => rfl⟩
  · rw [State.core_modCore, if_neg hd]
  · rw [State.core_modCore, if_pos rfl]
    exact h

theorem Issued.bump (ctr : Ctr) (i k : Nat) : Issued s (s.bump ctr i k) c [] :=
  ⟨fun _ _ => rfl, rfl, (List.append_nil _).symm, rfl, fun _ => rfl⟩

theorem Issued.killLoads (slot : Nat) : Issued s (s.killLoads c slot) c [] :=
  (Issued.modCore (fun c => { c with vtb := c.vtb.filter fun e => !isLoadKey e.key slot }) rfl).trans (.bump ..)

theorem Issued.tickSeq : Issued s s.tickSeq c [] := ⟨fun _ _ => rfl, rfl, (List.append_nil _).symm, rfl, fun _ => rfl⟩

theorem Issued.memWrite (k : Nat) (bs : List Byte) : Issued s (s.memWrite k bs) c [] :=
  ⟨fun _ _ => rfl, rfl, (List.append_nil _).symm, rfl, fun _ => rfl⟩

theorem Issued.sent (l : Tbl Nat) : Issued s { s with sent := l } c [] :=
  ⟨fun _ _ => rfl, rfl, (List.append_nil _).symm, rfl, fun _ => rfl⟩

theorem Issued.addAccess (a : Access) : Issued s (s.addAccess a) c [{ a with id := s.seq }] :=
  ⟨fun _ _ => rfl, rfl, rfl, rfl, fun _ => rfl⟩

/-- The access that a core sends, numbered, and as a packet where its home is in another package (R302). -/
theorem issued_send (s : State) (c : Nat) (a : Access) : ∃ q, Issued s (s.send a) c [q] ∧ (s.send a).mem = s.mem ∧
    q = { a with id := q.id, pkgSeq := q.pkgSeq, port := q.port } := by
  unfold State.send
  split
  · exact ⟨_, .addAccess a, rfl, rfl⟩
  · dsimp only
    generalize s.sent.put _ _ = l
    have hsent : Issued s { s with sent := l } c [] := .sent l
    generalize some (pkgOf a.key, _) = seq
    generalize pickPort _ _ = port
    exact ⟨_, hsent.trans (.addAccess { a with pkgSeq := seq, port := port }), rfl, rfl⟩

/-- Accesses put in flight one list after another, each as ψ says of them by φ. -/
theorem issued_foldl {α β : Type} {f : State → α → State} {φ : Access → β} {ψ : α → List β} {P : Access → Prop} {l : List α}
    (hf : ∀ s, ∀ a ∈ l, ∃ new, Issued s (f s a) c new ∧ (f s a).mem = s.mem ∧ new.map φ = ψ a ∧ ∀ q ∈ new, P q) (s : State) :
    ∃ new, Issued s (l.foldl f s) c new ∧ (l.foldl f s).mem = s.mem ∧ new.map φ = l.flatMap ψ ∧ ∀ q ∈ new, P q := by
  induction l generalizing s with
  | nil => exact ⟨[], .refl s c, rfl, rfl, fun _ hq => absurd hq List.not_mem_nil⟩
  | cons a l ih =>
    obtain ⟨new, h1, h2, h3, h4⟩ := hf s a List.mem_cons_self
    obtain ⟨new', g1, g2, g3, g4⟩ := ih (fun s b hb => hf s b (List.mem_cons_of_mem _ hb)) (f s a)
    refine ⟨new ++ new', h1.trans g1, g2.trans h2, ?_, fun q hq => ?_⟩
    · rw [List.map_append, h3, g3, List.flatMap_cons]
    · obtain hq | hq := List.mem_append.1 hq
      · exact h4 q hq
      · exact g4 q hq

end

/-! The frame of a memory instruction. -/

theorem MemFrame.refl (s : State) (c slot : Nat) : Claims.MemFrame s s c slot :=
  ⟨fun _ _ => rfl, fun _ _ _ _ _ _ => rfl, fun _ _ => rfl, rfl, rfl, fun _ => rfl⟩

theorem memFrame_issued {s m n : State} {c slot : Nat} {new : List Access} (f : Claims.MemFrame s m c slot) (h : Issued m n c new) :
    Claims.MemFrame s n c slot := by
  have hclean : Claims.Clean s → Claims.Clean m := fun hc => by
    rw [f.rest]
    exact hc
  refine ⟨fun k hk => ?_, fun ok k hk hn r l => (h.vreg k r l).trans (f.vregs ok k hk hn r l), fun d hd => (h.cores d hd).trans (f.cores d hd),
    ?_, ?_, fun hc => (h.parts (hclean hc)).trans (f.parts hc)⟩
  · rw [h.rest]
    exact f.teams k hk
  · rw [h.core, f.core]
  · rw [h.rest, f.rest]

theorem memFrame_teamFrame {s m n : State} {c slot : Nat} (f : Claims.MemFrame s m c slot) (g : TeamFrame m n c slot) :
    Claims.MemFrame s n c slot := by
  refine ⟨fun k hk => (g.teams k hk).trans (f.teams k hk), fun ok k hk hn r l => (g.vregs k hk hn r l).trans (f.vregs ok k hk hn r l),
    fun d hd => (g.cores d hd).trans (f.cores d hd), ?_, ?_, fun hc => ?_⟩
  · rw [g.core, f.core]
  · rw [g.rest, f.rest]
  · rw [g.rest]
    exact f.parts hc

/-- A memory instruction that has done its work: the team goes on. -/
theorem mem_done {i : Instr} {h : Hdr} {s m : State} {c slot : Nat} {t t1 : Team} (hs : slot < 16) (f : Claims.MemFrame s m c slot)
    (ht : m.team? c slot = some t1) :
    ∃ s' t', (Host.Outcome.next (settleTeam i h s c slot t (.done m)) : Host.Outcome State Fault Refusal) = .next s' ∧
      s'.team? c slot = some t' ∧ Claims.MemFrame s s' c slot ∧ (∀ q, s'.memGet q = m.memGet q) ∧
      (∀ r k, s'.vreg c slot r k = m.vreg c slot r k) ∧
      t' = { t1 with pc := (s.nextOf c t).1, atHdr := (s.nextOf c t).2, wait := none, shadows := t'.shadows } ∧
      t'.flagsDue = t1.flagsDue ∧ s'.accs = m.accs ∧ s'.cores = m.cores ∧ TeamFrame m s' c slot := by
  obtain ⟨t', hteam, ht', hfl, hframe, hv⟩ := (settleTeam_done (i := i) (h := h) (s := s) (t := t) ht).spec ht hs
  refine ⟨_, t', rfl, hteam, memFrame_teamFrame f hframe, hframe.mem, hv, ht', hfl, ?_, ?_, hframe⟩
  · rw [hframe.rest]
  · obtain ⟨t2, sh, -, heq, -⟩ := settleTeam_done (i := i) (h := h) (s := s) (t := t) ht
    rw [heq]
    simp [State.setTeam, State.past, State.modTeam, ht]

end Sys2Proof.Proofs

end

section
/-! R175, R188, R189: what ST does where it reaches its places. -/

open Sys2Proof Sys2Proof.Machine

namespace Sys2Proof.Proofs

@[simp] theorem length_toLe (n x : Nat) : (toLe n x).length = n := by
  induction n generalizing x with
  | zero => rfl
  | succ n ih => simp [toLe, ih]

@[simp] theorem length_bytes (x : Src) (d : VS) (n l : Nat) : (x.bytes d n l).length = n := by
  cases d <;> simp [Src.bytes]

theorem memPut_append (m : List Host.Cell) (k : Nat) (xs ys : List Byte) : memPut (memPut m k xs) (k + xs.length) ys = memPut m k (xs ++ ys) := by
  induction xs generalizing m k with
  | nil => rfl
  | cons x xs ih =>
    rw [List.cons_append, memPut, memPut, ← ih, List.length_cons, Nat.add_assoc, Nat.add_comm 1]

/-! Pocket, which is written at issue (R175). -/

theorem startWrites_pocket (s : State) (w : Who) (a : Access) (bs : List Byte) : s.startWrites w .pocket a bs = s.memWrite a.key bs := by
  unfold State.startWrites State.startWrite
  split
  · have hlen : (bs.take 8).length = 8 := by simp [*]
    simp only [beq_self_eq_true, if_true, State.memWrite]
    have := memPut_append s.mem a.key (bs.take 8) (bs.drop 8)
    rw [hlen, List.take_append_drop] at this
    rw [this]
  · rfl

/-- Bytes written lane by lane: at each place those of the last lane that covers it. -/
theorem memGet_written (ls : List Nat) (key : Nat → Nat) (bytes : Nat → List Byte) (s : State) (q : Nat) :
    (ls.foldl (fun s l => s.memWrite (key l) (bytes l)) s).memGet q = Claims.written s ls key bytes q := by
  induction ls using List.reverseRecOn with
  | nil => rfl
  | append_singleton ls l ih =>
    rw [List.foldl_append, List.foldl_cons, List.foldl_nil, memGet_memWrite, ih]
    unfold Claims.written
    rw [List.reverse_append, List.reverse_singleton, List.singleton_append, List.find?_cons]
    by_cases hq : key l ≤ q ∧ q < key l + (bytes l).length
    · simp [hq]
    · rw [if_neg hq]
      have hf : (decide (key l ≤ q) && decide (q < key l + (bytes l).length)) = false := by
        simpa using hq
      rw [hf]

/-! Other spaces, whose writes are put in flight. -/

theorem startWrite_flies {sp : Space} (hsp : sp ≠ .pocket) (s : State) (w : Who) (a : Access) (bs : List Byte) :
    ∃ q, Issued s (s.startWrite w sp a bs) w.core [q] ∧ (s.startWrite w sp a bs).mem = s.mem ∧
      q = { a with id := q.id, pkgSeq := q.pkgSeq, port := q.port, kind := .write bs, len := bs.length } := by
  have hp : (sp == Space.pocket) = false := by simpa using hsp
  unfold State.startWrite
  rw [hp]
  obtain ⟨m, hm, hIss, hmem⟩ : ∃ m, (if sp == Space.glob then s.modCore w.core fun c => c.l1Store a.key bs else s) = m ∧ Issued s m w.core [] ∧
      m.mem = s.mem := by
    refine ⟨_, rfl, ?_, ?_⟩
    · split
      · exact .modCore _ rfl
      · exact .refl ..
    · split <;> rfl
  obtain ⟨q, h1, h2, h3⟩ := issued_send m w.core { a with kind := .write bs, len := bs.length }
  simp only [hm]
  exact ⟨q, hIss.trans h1, h2.trans hmem, h3⟩

/-- What a write in flight is. -/
def writeFields (q : Access) : AccK × Nat × Nat × Nat × Nat × Nat := (q.kind, q.key, q.len, q.uid, q.core, q.stage)

theorem startWrites_fly {sp : Space} (hsp : sp ≠ .pocket) (s : State) (w : Who) (a : Access) (bs : List Byte) :
    ∃ new, Issued s (s.startWrites w sp a bs) w.core new ∧ (s.startWrites w sp a bs).mem = s.mem ∧
      new.map writeFields = (Claims.halves bs.length).map (fun p =>
        (AccK.write ((bs.drop p.1).take p.2), a.key + p.1, p.2, a.uid, a.core, a.stage)) ∧
      ∀ q ∈ new, q.depth = a.depth ∧ q.after = a.after ∧ q.grp = a.grp := by
  unfold State.startWrites Claims.halves
  split
  · next h16 =>
    obtain ⟨q1, h1, m1, e1⟩ := startWrite_flies hsp s w a (bs.take 8)
    obtain ⟨q2, h2, m2, e2⟩ := startWrite_flies hsp (s.startWrite w sp a (bs.take 8)) w { a with key := a.key + 8, va := a.va + 8 } (bs.drop 8)
    refine ⟨[q1] ++ [q2], h1.trans h2, m2.trans m1, ?_, fun q hq => ?_⟩
    · have hlen : (bs.drop 8).take 8 = bs.drop 8 := List.take_of_length_le (by simp [h16])
      rw [e1, e2]
      simp [writeFields, h16, hlen]
    · simp only [List.singleton_append, List.mem_cons, List.not_mem_nil, or_false] at hq
      obtain rfl | rfl := hq
      · rw [e1]; exact ⟨rfl, rfl, rfl⟩
      · rw [e2]; exact ⟨rfl, rfl, rfl⟩
  · obtain ⟨q1, h1, m1, e1⟩ := startWrite_flies hsp s w a bs
    refine ⟨[q1], h1, m1, ?_, fun q hq => ?_⟩
    · rw [e1]
      simp [writeFields]
    · rw [List.mem_singleton.1 hq, e1]
      exact ⟨rfl, rfl, rfl⟩

/-! The stores of an instruction. -/

section
variable {s : State} {c slot : Nat} {t : Team} {h : Hdr}

/-- The state in which a store's writes begin, and the number of their group. -/
def storing (s : State) (c slot : Nat) (t : Team) (sp : Space) (ps : List (Nat × Spot)) : State :=
  ((s.killLoads c slot).touch (t.who c) sp ps).tickSeq

theorem issued_storing (sp : Space) (ps : List (Nat × Spot)) : Issued s (storing s c slot t sp ps) c [] :=
  ((Issued.killLoads slot).trans (.of_walked (walked_touch ..))).trans .tickSeq

theorem storing_mem (sp : Space) (ps : List (Nat × Spot)) : (storing s c slot t sp ps).mem = s.mem := by
  have h := walkAside_of_walked (walked_touch (s.killLoads c slot) (t.who c) sp ps)
  unfold WalkAside at h
  unfold storing
  rw [h]
  rfl

theorem touch_seq (sp : Space) (ps : List (Nat × Spot)) : ((s.killLoads c slot).touch (t.who c) sp ps).seq = s.seq := by
  have h := walkAside_of_walked (walked_touch (s.killLoads c slot) (t.who c) sp ps)
  unfold WalkAside at h
  rw [h]
  rfl

theorem stores_pocket (rel : Bool) (ls : List Nat) (va key cls : Nat → Nat) (f : Nat → List Byte) :
    (t.x s c slot h).stores s .pocket rel (ls.map fun l => (l, ⟨va l, key l, cls l⟩)) f =
      ls.foldl (fun s l => s.memWrite (key l) (f l)) (storing s c slot t .pocket (ls.map fun l => (l, ⟨va l, key l, cls l⟩))) := by
  unfold X.stores X.storesWide
  simp only [List.foldl_map, startWrites_pocket]
  rfl

theorem issued_memWrites (ls : List Nat) (key : Nat → Nat) (f : Nat → List Byte) (s : State) :
    Issued s (ls.foldl (fun s l => s.memWrite (key l) (f l)) s) c [] := by
  induction ls generalizing s with
  | nil => exact .refl ..
  | cons l ls ih => exact (Issued.memWrite (key l) (f l)).trans (ih _)

theorem stores_fly {sp : Space} (hsp : sp ≠ .pocket) (rel : Bool) (ls : List Nat) (va key cls : Nat → Nat) (f : Nat → List Byte) (n : Nat)
    (hf : ∀ l, (f l).length = n) :
    ∃ new, Issued s ((t.x s c slot h).stores s sp rel (ls.map fun l => (l, ⟨va l, key l, cls l⟩)) f) c new ∧
      ((t.x s c slot h).stores s sp rel (ls.map fun l => (l, ⟨va l, key l, cls l⟩)) f).mem = s.mem ∧
      new.map writeFields = (ls.flatMap fun l => (Claims.halves n).map fun p =>
        (AccK.write (((f l).drop p.1).take p.2), key l + p.1, p.2, t.uid, c, 0)) ∧
      ∀ q ∈ new, q.depth = t.depth ∧ (q.after = if rel then s.seq else t.relSeq) ∧ q.grp = s.seq := by
  obtain ⟨new, h1, h2, h3, h4⟩ := issued_foldl (c := c) (φ := writeFields)
    (ψ := fun l => (Claims.halves n).map fun p => (AccK.write (((f l).drop p.1).take p.2), key l + p.1, p.2, t.uid, c, 0))
    (P := fun q => q.depth = t.depth ∧ (q.after = if rel then s.seq else t.relSeq) ∧ q.grp = s.seq) (l := ls)
    (f := fun m l => m.startWrites (t.who c) sp { mkAccess (t.who c) .read ⟨va l, key l, cls l⟩ 0 s.seq with
      after := if rel then s.seq else t.relSeq, depth := t.depth, lane := l, wide := false } (f l))
    (fun m l _ => by
      obtain ⟨new, h1, h2, h3, h4⟩ := startWrites_fly hsp m (t.who c) { mkAccess (t.who c) .read ⟨va l, key l, cls l⟩ 0 s.seq with
        after := if rel then s.seq else t.relSeq, depth := t.depth, lane := l, wide := false } (f l)
      rw [hf l] at h3
      exact ⟨new, h1, h2, h3, h4⟩)
    (storing s c slot t sp (ls.map fun l => (l, ⟨va l, key l, cls l⟩)))
  have he : (t.x s c slot h).stores s sp rel (ls.map fun l => (l, ⟨va l, key l, cls l⟩)) f = ls.foldl (fun m l =>
      m.startWrites (t.who c) sp { mkAccess (t.who c) .read ⟨va l, key l, cls l⟩ 0 s.seq with
        after := if rel then s.seq else t.relSeq, depth := t.depth, lane := l, wide := false } (f l))
      (storing s c slot t sp (ls.map fun l => (l, ⟨va l, key l, cls l⟩))) := by
    unfold X.stores X.storesWide
    simp only [List.foldl_map]
    rw [show ((s.killLoads (t.x s c slot h).c (t.x s c slot h).slot).touch (t.x s c slot h).who sp
      (ls.map fun l => (l, ⟨va l, key l, cls l⟩))).seq = s.seq from touch_seq (t := t) ..]
    rfl
  rw [he]
  exact ⟨new, (issued_storing ..).trans h1, h2.trans (storing_mem ..), h3, h4⟩

end

/-! ST, and the checks of LD into a scalar, ST, ATOM and RED (R188). -/

theorem lanesFor_eq (s : State) (c slot : Nat) (t : Team) (h : Hdr) (once : Bool) :
    (t.x s c slot h).lanesFor once = Claims.lanesOf (t.adm h) once := rfl

theorem exec_st {h : Hdr} {data a : VS} {sp : Space} {ord : Order} {sz : Size} {off : BitVec 16} {s : State} {c slot : Nat} {t : Team}
    {key : Nat → Nat} (w : TeamIssues (.st h data a sp ord sz off) h s c slot t) (h0 : t.adm h ≠ 0) (hacq : s.acquiring t.uid = false)
    (howes : sp = .pocket → isRel ord = true → s.owes t.uid s.seq = false)
    (hreach : Claims.Reach s c t sp sz.bytes false true true (Claims.lanesOf (t.adm h) (isScalar data)) (Claims.addrOf s c t sp a off) key) :
    ∃ cls : Nat → Nat, exec (.st h data a sp ord sz off) s = .next (settleTeam (.st h data a sp ord sz off) h s c slot t
      (.done ((t.x s c slot h).stores s sp (isRel ord) ((Claims.lanesOf (t.adm h) (isScalar data)).map fun l =>
        (l, ⟨Claims.addrOf s c t sp a off l, key l, cls l⟩)) fun l => Src.bytes ⟨s.core c, t, []⟩ data sz.bytes l))) := by
  obtain ⟨cls, hspots⟩ := spots_of_reach hreach
  refine ⟨cls, runTeam_eff w ?_ fun _ => Res.noConfusion⟩
  have hnow : ¬ (s.acquiring t.uid || (sp == .pocket && isRel ord && s.owes t.uid s.seq)) = true := by
    rw [hacq, Bool.false_or]
    intro hall
    simp only [Bool.and_eq_true, beq_iff_eq] at hall
    obtain ⟨⟨hsp, hrel⟩, ho⟩ := hall
    rw [howes hsp hrel] at ho
    cases ho
  have hspots' : spots s (t.x s c slot h).who sp sz.bytes false true true (((t.x s c slot h).lanesFor (isScalar data)).map fun l =>
    (l, (t.x s c slot h).src.addr sp a off l)) = .ok _ := hspots
  refine (if_neg h0).trans ?_
  simp only [hspots']
  exact if_neg hnow

/-- A form whose check fails takes the cause as failRes says. -/
theorem exec_of_checkOf {i : Instr} {h : Hdr} {sp : Space} {n : Nat} {rd wr : Bool} {ls : List Nat} {va : Nat → Nat} {s : State} {c slot : Nat}
    {t : Team} {e : Fail} (hi : Claims.checkOf s c t i = some (h, sp, n, rd, wr, ls, va)) (w : TeamIssues i h s c slot t) (h0 : t.adm h ≠ 0)
    (hacq : s.acquiring t.uid = false) (he : spots s (t.who c) sp n rd wr true (ls.map fun l => (l, va l)) = .error e) :
    exec i s = .next (settleTeam i h s c slot t (s.failRes (t.who c) sp (ls.map fun l => (l, va l)) e)) := by
  have hshort : ∀ k, s.failRes (t.who c) sp (ls.map fun l => (l, va l)) e ≠ .short k := fun k => by
    cases e with
    | busy => exact Res.noConfusion
    | cause f a => cases f <;> exact Res.noConfusion
  have checks {r w once : Bool} {a : VS} {off : BitVec 16} {n : Nat} (he : spots s (t.who c) sp n r w true
      ((Claims.lanesOf (t.adm h) once).map fun l => (l, Claims.addrOf s c t sp a off l)) = .error e) :
      spots s (t.x s c slot h).who sp n r w true
        (((t.x s c slot h).lanesFor once).map fun l => (l, (t.x s c slot h).src.addr sp a off l)) = .error e := he
  unfold Claims.checkOf at hi
  split at hi <;> cases hi
  · refine runTeam_eff w ((if_neg h0).trans ((if_neg (Bool.eq_false_iff.1 hacq)).trans ?_)) hshort
    have hall (l : List Nat) (p : Nat → Bool) (r : SReg) : l.filter (fun k => isScalar (.s r) || p k) = l := by simp [isScalar]
    simp only [hall]
    rw [show isScalar (.s _) = true from rfl, checks he]
    rfl
  · refine runTeam_eff w ((if_neg h0).trans ?_) hshort
    simp only [checks he]
    rfl
  · refine runTeam_eff w ((if_neg h0).trans ?_) hshort
    simp only [checks he]
    rfl
  · refine runTeam_eff w ((if_neg h0).trans ?_) hshort
    simp only [checks he]
    rfl

/-- Settles O27. -/
theorem storeWrites : Obligations.StoreWrites := by
  refine ⟨fun h data a sp ord sz off s c slot t key => ?_, fun i h sp n rd wr ls va s c slot t l => ?_⟩
  · intro i ls bytes hs w h0 hacq howes hreach
    obtain ⟨cls, hexec⟩ := exec_st w h0 hacq howes hreach
    by_cases hsp : sp = .pocket
    · subst hsp
      rw [stores_pocket] at hexec
      have hiss := (issued_storing (s := s) (c := c) (slot := slot) (t := t) .pocket
        (ls.map fun l => (l, ⟨Claims.addrOf s c t .pocket a off l, key l, cls l⟩))).trans (issued_memWrites ls key bytes _)
      obtain ⟨s', t', hset, hteam, hframe, hmem, hvreg, ht', hfl, haccs, -⟩ := mem_done (i := i) (h := h) (t := t) hs
        (memFrame_issued (MemFrame.refl s c slot) hiss) ((hiss.team c slot).trans w.2.1)
      refine ⟨s', hexec.trans hset, hframe, fun r k => (hvreg r k).trans (hiss.vreg ..), ⟨t', hteam, hfl, ht'⟩, fun _ => ⟨?_, fun q => ?_⟩,
        fun hne => absurd rfl hne⟩
      · rw [haccs, hiss.accs]
        exact List.append_nil _
      · rw [hmem, memGet_written]
        unfold Claims.written
        split
        · rfl
        · exact memGet_congr (storing_mem ..) q
    · obtain ⟨new, hiss, hsm, hmap, hall⟩ := stores_fly (s := s) (c := c) (slot := slot) (t := t) (h := h) hsp (isRel ord) ls
        (Claims.addrOf s c t sp a off) key cls bytes sz.bytes (fun l => length_bytes ..)
      obtain ⟨s', t', hset, hteam, hframe, hmem, hvreg, ht', hfl, haccs, -⟩ := mem_done (i := i) (h := h) (t := t) hs
        (memFrame_issued (MemFrame.refl s c slot) hiss) ((hiss.team c slot).trans w.2.1)
      refine ⟨s', hexec.trans hset, hframe, fun r k => (hvreg r k).trans (hiss.vreg ..), ⟨t', hteam, hfl, ht'⟩, fun hp => absurd hp hsp, fun _ => ?_⟩
      rw [haccs, hiss.accs, List.take_left, List.drop_left]
      refine ⟨fun q => (hmem q).trans (memGet_congr hsm q), rfl, hmap, fun q hq => ?_⟩
      obtain ⟨hd, ha, -⟩ := hall q hq
      refine ⟨hd, ?_⟩
      split
      · next hr => rw [ha, hr]; exact Nat.le_refl _
      · next hr => rw [ha, if_neg hr]
  · intro span hi hs w h0 hacq hwaits
    have hwalk := walked_walkAll s (t.who c) sp (ls.map fun k => (k, va k))
    refine ⟨fun hfirst => ⟨_, hwalk, ?_⟩, fun hno hfirst => ⟨_, hwalk, ?_⟩, fun hno hfirst => ⟨_, hwalk, ?_⟩⟩
    · exact exec_of_checkOf hi w h0 hacq (spots_prot hwaits hfirst)
    · exact exec_of_checkOf hi w h0 hacq (spots_align hwaits hno hfirst)
    · exact exec_of_checkOf hi w h0 hacq (spots_page hwaits hno hfirst)

end Sys2Proof.Proofs

end

section
/-! R190: the atomics that ATOM and RED put in flight. -/

open Sys2Proof Sys2Proof.Machine

namespace Sys2Proof.Proofs

/-- What an atomic in flight is. -/
def atomicFields (q : Access) : AccK × Nat × Nat × Nat × List Dest := (q.kind, q.key, q.len, q.uid, q.dests)

/-- What a lane's atomic does, with its operands as the team holds them (R190). -/
def atomicKind (s : State) (c : Nat) (t : Team) (op : AOp) (ft : Fin 3) (sx : Bool) (n : Nat) (o : VS) (l : Nat) : AccK :=
  .atomic op ft.val sx (Src.operand ⟨s.core c, t, []⟩ op n o l).1 (Src.operand ⟨s.core c, t, []⟩ op n o l).2

/-- The places of lanes as the checks give them. -/
def placesOf (ls : List Nat) (va key cls : Nat → Nat) : List (Nat × Spot) := ls.map fun l => (l, ⟨va l, key l, cls l⟩)

section
variable {s m : State} {c slot : Nat} {t : Team} {h : Hdr}

/-- The state in which an instruction's atomics begin. -/
def beginAtomics (m : State) (c slot : Nat) (t : Team) (sp : Space) (keep : Bool) (ps : List (Nat × Spot)) : State :=
  if keep then m.touch (t.who c) sp ps else (m.touch (t.who c) sp ps).killLoads c slot

theorem issued_beginAtomics (sp : Space) (keep : Bool) (ps : List (Nat × Spot)) : Issued m (beginAtomics m c slot t sp keep ps) c [] := by
  have htouch := Issued.of_walked (c := c) (walked_touch m (t.who c) sp ps)
  unfold beginAtomics
  split
  · exact htouch
  · exact htouch.trans (.killLoads slot)

theorem beginAtomics_mem (sp : Space) (keep : Bool) (ps : List (Nat × Spot)) : (beginAtomics m c slot t sp keep ps).mem = m.mem := by
  have htouch : (m.touch (t.who c) sp ps).mem = m.mem := by rw [(walked_touch m (t.who c) sp ps).1]
  unfold beginAtomics
  split
  · exact htouch
  · exact htouch

/-- The atomics of the lanes listed, as fields, and whether each is an acquire. -/
theorem atomics_fly {sp : Space} (ord : Order) (op : AOp) (ft : Fin 3) (sx : Bool) (n : Nat) (o : VS) (ext : Bool) (ls : List Nat)
    (va key cls : Nat → Nat) (dests : Nat → List Dest) :
    let m' := (t.x s c slot h).atomics m sp ord op ft sx n o ext (placesOf ls va key cls) dests
    ∃ new, Issued m m' c new ∧ m'.mem = m.mem ∧
      new.map atomicFields = (ls.map fun l => (atomicKind s c t op ft sx n o l, key l, n, t.uid, dests l)) ∧
      ∀ q ∈ new, q.acq = isAcq ord := by
  intro m'
  obtain ⟨m1, hm1⟩ : ∃ m1, m1 = beginAtomics m c slot t sp (isAcq ord || (t.x s c slot h).lo != 0) (placesOf ls va key cls) := ⟨_, rfl⟩
  obtain ⟨acc, hacc⟩ : ∃ acc : Nat → Access, acc = fun l =>
    { mkAccess (t.who c) (atomicKind s c t op ft sx n o l) ⟨va l, key l, cls l⟩ n (t.group m1.seq) with
      acq := isAcq ord, after := if isRel ord then t.group m1.seq else t.relSeq, depth := t.depth, dests := dests l, lane := l, sx := ext } :=
    ⟨_, rfl⟩
  obtain ⟨new, h1, h2, h3, h4⟩ := issued_foldl (c := c) (φ := atomicFields) (P := fun q => q.acq = isAcq ord) (l := ls)
    (ψ := fun l => [atomicFields (acc l)]) (f := fun b l => b.send (acc l))
    (fun b l _ => by
      obtain ⟨q, h1, h2, h3⟩ := issued_send b c (acc l)
      refine ⟨[q], h1, h2, ?_, fun q' hq' => ?_⟩
      · rw [h3]
        rfl
      · rw [List.mem_singleton.1 hq', h3, hacc]) m1.tickSeq
  have he : m' = ls.foldl (fun b l => b.send (acc l)) m1.tickSeq := by
    rw [hacc, hm1]
    exact List.foldl_map ..
  rw [he]
  have hiss : Issued m m1 c [] := hm1 ▸ issued_beginAtomics ..
  refine ⟨new, hiss.trans (Issued.tickSeq.trans h1), ?_, (h3.trans List.map_eq_flatMap.symm).trans ?_, h4⟩
  · rw [h2, hm1]
    exact beginAtomics_mem ..
  · rw [hacc]
    rfl

end

/-! The slices that ATOM gives its destination's registers. -/

theorem slice_writePass (ct : Core × Team) (k : VReg) (j : Nat) (w : W32) (new : BitVec 1024) (r i : Nat) (hne : mkey r i ≠ mkey k.val j) :
    (writePass ct k j w new).2.slice r i = ct.2.slice r i :=
  Tbl.get_set_of_ne _ _ _ hne

/-- One pass of the destination's registers. -/
def allocPass (d : VReg) (n : Nat) (m : Mask) (ct : Core × Team) (j : Nat) : Core × Team :=
  (List.range n).foldl (fun ct k => writePass ct (vregAt d k) j (maskWord m j) 0) ct

theorem allocPass_grown {ct : Core × Team} (ok : PairOk ct) (d : VReg) (n : Nat) (m : Mask) {j : Nat} (hj : j < 32) :
    Grown ct (allocPass d n m ct j) := by
  unfold allocPass
  generalize List.range n = l
  induction l generalizing ct with
  | nil => exact .refl ok
  | cons k l ih =>
    obtain ⟨hok, hkept, hcore, hteam, -⟩ := writePass_spec ok (vregAt d k) j hj (maskWord m j) 0
    have g : Grown ct (writePass ct (vregAt d k) j (maskWord m j) 0) := by
      refine ⟨hok, hkept, ?_, hteam⟩
      rw [hcore]
    exact g.trans (ih hok)

theorem slice_allocPass (d : VReg) (n : Nat) (m : Mask) (ct : Core × Team) {j i : Nat} (hj : j < 32) (hi : i < 32) (hne : i ≠ j) (r : Nat) :
    (allocPass d n m ct j).2.slice r i = ct.2.slice r i := by
  unfold allocPass
  generalize List.range n = l
  induction l generalizing ct with
  | nil => rfl
  | cons k l ih =>
    rw [List.foldl_cons, ih, slice_writePass _ _ _ _ _ _ _ fun h => hne (mkey_inj hi hj h).2]

theorem slice_allocPasses (d : VReg) (n : Nat) (m : Mask) (js : List Nat) (hjs : ∀ j ∈ js, j < 32) {i : Nat} (hi : i < 32) (hni : i ∉ js)
    (ct : Core × Team) (r : Nat) : (js.foldl (allocPass d n m) ct).2.slice r i = ct.2.slice r i := by
  induction js generalizing ct with
  | nil => rfl
  | cons j js ih =>
    rw [List.mem_cons, not_or] at hni
    rw [List.foldl_cons, ih (fun j hj => hjs j (List.mem_cons_of_mem _ hj)) hni.2,
      slice_allocPass d n m ct (hjs j List.mem_cons_self) hi hni.1]

theorem allocPasses_grown (d : VReg) (n : Nat) (m : Mask) (js : List Nat) (hjs : ∀ j ∈ js, j < 32) {ct : Core × Team} (ok : PairOk ct) :
    Grown ct (js.foldl (allocPass d n m) ct) := by
  induction js generalizing ct with
  | nil => exact .refl ok
  | cons j js ih =>
    have g := allocPass_grown ok d n m (hjs j List.mem_cons_self)
    exact g.trans (ih (fun j hj => hjs j (List.mem_cons_of_mem _ hj)) g.1)

/-- The state that holds a core and a team that have grown. -/
def withPair (s : State) (c slot : Nat) (ct : Core × Team) : State := (s.setCore c ct.1).setTeam c slot ct.2

theorem withPair_twice (s : State) (c slot : Nat) (a b : Core × Team) : withPair (withPair s c slot a) c slot b = withPair s c slot b := by
  simp [withPair, State.setCore, State.setTeam]

theorem team_withPair (s : State) (c slot : Nat) (ct : Core × Team) : (withPair s c slot ct).team? c slot = some ct.2 :=
  State.team_setTeam_same ..

theorem core_withPair (s : State) (c slot : Nat) (ct : Core × Team) : (withPair s c slot ct).core c = ct.1 := by
  simp [withPair, State.core_setCore]

theorem alloc_withPair (x : X) (s : State) (ct : Core × Team) (d : VReg) (n : Nat) (m : Mask) (j : Nat) :
    (withPair s x.c x.slot ct).alloc x d n j (maskWord m j) = (withPair s x.c x.slot (allocPass d n m ct j),
      (List.range n).map fun k => (allocPass d n m ct j).2.slice (vregAt d k).val j) := by
  unfold State.alloc
  simp only [team_withPair, core_withPair, Option.getD_some]
  exact congrArg (·, _) (withPair_twice s x.c x.slot ct (allocPass d n m ct j))

/-- What the passes of ATOM record of the slices they give. -/
def allocStep (x : X) (d : VReg) (n : Nat) (m : Mask) (a : State × List (Nat × List Nat)) (j : Nat) : State × List (Nat × List Nat) :=
  ((a.1.alloc x d n j (maskWord m j)).1, (j, (a.1.alloc x d n j (maskWord m j)).2) :: a.2)

theorem allocSteps_state (x : X) (s : State) (d : VReg) (n : Nat) (m : Mask) (js : List Nat) (ct : Core × Team) (acc : List (Nat × List Nat)) :
    (js.foldl (allocStep x d n m) (withPair s x.c x.slot ct, acc)).1 = withPair s x.c x.slot (js.foldl (allocPass d n m) ct) := by
  induction js generalizing ct acc with
  | nil => rfl
  | cons j js ih =>
    rw [List.foldl_cons, List.foldl_cons, ← ih]
    unfold allocStep
    rw [alloc_withPair]

theorem allocSteps_find (x : X) (s : State) (d : VReg) (n : Nat) (m : Mask) (js : List Nat) (hjs : ∀ j ∈ js, j < 32) (hnd : js.Nodup)
    (ct : Core × Team) (acc : List (Nat × List Nat)) (i : Nat) :
    (js.foldl (allocStep x d n m) (withPair s x.c x.slot ct, acc)).2.find? (fun e => e.1 == i) =
      if i ∈ js then some (i, (List.range n).map fun k => (js.foldl (allocPass d n m) ct).2.slice (vregAt d k).val i)
      else acc.find? fun e => e.1 == i := by
  induction js generalizing ct acc with
  | nil => rfl
  | cons j js ih =>
    obtain ⟨hj, hnd'⟩ := List.nodup_cons.1 hnd
    have hjs' : ∀ j ∈ js, j < 32 := fun j hj => hjs j (List.mem_cons_of_mem _ hj)
    rw [List.foldl_cons, List.foldl_cons]
    have hstep : allocStep x d n m (withPair s x.c x.slot ct, acc) j = (withPair s x.c x.slot (allocPass d n m ct j),
        (j, (List.range n).map fun k => (allocPass d n m ct j).2.slice (vregAt d k).val j) :: acc) := by
      unfold allocStep
      rw [alloc_withPair]
    rw [hstep, ih hjs' hnd']
    by_cases hij : i = j
    · subst hij
      rw [if_neg hj, if_pos List.mem_cons_self, List.find?_cons_of_pos (by simp)]
      simp only [slice_allocPasses d n m js hjs' (hjs i List.mem_cons_self) hj]
    · have hm : (i ∈ j :: js) = (i ∈ js) := by simp [hij]
      simp only [hm]
      rw [List.find?_cons_of_neg (by simpa using fun h => hij h.symm)]

theorem passes_ne_nil {m : Mask} (h : m ≠ 0) : passes m ≠ [] := by
  obtain ⟨l, hl⟩ := lowest_isSome h
  intro hp
  simp [lowest, lanes, hp] at hl

theorem allocStep_first (x : X) {s : State} {t : Team} (ht : s.team? x.c x.slot = some t) (d : VReg) (n : Nat) (m : Mask) (j : Nat) :
    allocStep x d n m (s, []) j = allocStep x d n m (withPair s x.c x.slot (s.core x.c, t), []) j := by
  unfold allocStep
  rw [alloc_withPair]
  unfold State.alloc
  simp only [ht, Option.getD_some]
  rfl

/-- The slices that ATOM's passes give: the state holds the team and the core that have grown, and finds those of each pass. -/
theorem allocSteps {x : X} {s : State} {t : Team} (ht : s.team? x.c x.slot = some t) (d : VReg) (n : Nat) {m : Mask} (h0 : m ≠ 0) :
    ((passes m).foldl (allocStep x d n m) (s, [])).1 = withPair s x.c x.slot ((passes m).foldl (allocPass d n m) (s.core x.c, t)) ∧
    ∀ i ∈ passes m, ((passes m).foldl (allocStep x d n m) (s, [])).2.find? (fun e => e.1 == i) =
      some (i, (List.range n).map fun k => ((passes m).foldl (allocPass d n m) (s.core x.c, t)).2.slice (vregAt d k).val i) := by
  have hlt : ∀ j ∈ passes m, j < 32 := fun j hj => List.mem_range.1 (List.mem_filter.1 hj).1
  have hnd : (passes m).Nodup := List.nodup_range.filter _
  have hfirst : (passes m).foldl (allocStep x d n m) (s, []) =
      (passes m).foldl (allocStep x d n m) (withPair s x.c x.slot (s.core x.c, t), []) := by
    cases hp : passes m with
    | nil => exact absurd hp (passes_ne_nil h0)
    | cons j js => rw [List.foldl_cons, allocStep_first x ht, List.foldl_cons]
  rw [hfirst]
  refine ⟨allocSteps_state .., fun i hi => ?_⟩
  rw [allocSteps_find x s d n m (passes m) hlt hnd, if_pos hi]

/-! ATOM and RED. -/

section
variable {h : Hdr} {a b data : VS} {sp : Space} {ord : Order} {sz : Size} {sx : Bool} {op : AOp} {ft : Fin 3} {s : State} {c slot : Nat} {t : Team}
  {key : Nat → Nat}

/-- The places of an atomic's lanes as its effect checks them. -/
theorem atomic_spots {once : Bool} (hreach : Claims.Reach s c t sp sz.bytes true true true (Claims.lanesOf (t.adm h) once)
    (Claims.addrOf s c t sp a 0) key) :
    ∃ cls : Nat → Nat, spots s (t.x s c slot h).who sp sz.bytes true true true (((t.x s c slot h).lanesFor once).map fun l =>
      (l, (t.x s c slot h).src.addr sp a 0 l)) = .ok (placesOf (Claims.lanesOf (t.adm h) once) (Claims.addrOf s c t sp a 0) key cls) :=
  spots_of_reach hreach

theorem exec_red (w : TeamIssues (.red h data a sp ord sz sx op ft) h s c slot t) (h0 : t.adm h ≠ 0) (hacq : s.acquiring t.uid = false)
    (hreach : Claims.Reach s c t sp sz.bytes true true true (Claims.lanesOf (t.adm h) (isScalar data && isScalar a))
      (Claims.addrOf s c t sp a 0) key) :
    ∃ cls : Nat → Nat, exec (.red h data a sp ord sz sx op ft) s = .next (settleTeam (.red h data a sp ord sz sx op ft) h s c slot t
      (.done ((t.x s c slot h).atomics s sp ord op ft sx sz.bytes data false
        (placesOf (Claims.lanesOf (t.adm h) (isScalar data && isScalar a)) (Claims.addrOf s c t sp a 0) key cls) fun _ => []))) := by
  obtain ⟨cls, hspots⟩ := atomic_spots (slot := slot) hreach
  refine ⟨cls, runTeam_eff w ((if_neg h0).trans ?_) fun _ => Res.noConfusion⟩
  simp only [hspots]
  exact if_neg (Bool.eq_false_iff.1 hacq)

theorem exec_atom_scalar {d : SReg} (w : TeamIssues (.atom h (.s d) a sp ord sz sx b op ft) h s c slot t) (h0 : t.adm h ≠ 0)
    (hacq : s.acquiring t.uid = false)
    (hreach : Claims.Reach s c t sp sz.bytes true true true (Claims.lanesOf (t.adm h) true) (Claims.addrOf s c t sp a 0) key) :
    ∃ cls : Nat → Nat, exec (.atom h (.s d) a sp ord sz sx b op ft) s = .next (settleTeam (.atom h (.s d) a sp ord sz sx b op ft) h s c slot t
      (.done ((t.x s c slot h).atomics s sp ord op ft sx sz.bytes b (sx && sz == .b32)
        (placesOf (Claims.lanesOf (t.adm h) true) (Claims.addrOf s c t sp a 0) key cls) fun _ => [.scalar d.val]))) := by
  obtain ⟨cls, hspots⟩ := atomic_spots (slot := slot) hreach
  refine ⟨cls, runTeam_eff w ((if_neg h0).trans ?_) fun _ => Res.noConfusion⟩
  rw [show isScalar (.s d) = true from rfl]
  simp only [hspots]
  exact if_neg (Bool.eq_false_iff.1 hacq)

/-- The destinations that ATOM records for a lane. -/
def recordedDests (sls : List (Nat × List Nat)) (l : Nat) : List Dest :=
  match sls.find? fun e => e.1 == l / 32 with
  | some e => e.2.map Dest.slice
  | none => []

theorem exec_atom_vector {d : VReg} (w : TeamIssues (.atom h (.v d) a sp ord sz sx b op ft) h s c slot t) (h0 : t.adm h ≠ 0)
    (hacq : s.acquiring t.uid = false) (hlack : s.lacking c t 0 ((passes (t.adm h)).map fun j => (j, sz.regs)) = none)
    (hreach : Claims.Reach s c t sp sz.bytes true true true (lanes (t.adm h)) (Claims.addrOf s c t sp a 0) key) :
    ∃ cls : Nat → Nat, exec (.atom h (.v d) a sp ord sz sx b op ft) s = .next (settleTeam (.atom h (.v d) a sp ord sz sx b op ft) h s c slot t
      (let p := (passes (t.adm h)).foldl (allocStep (t.x s c slot h) d sz.regs (t.adm h)) (s, [])
      .done ((t.x s c slot h).atomics p.1 sp ord op ft sx sz.bytes b false
        (placesOf (lanes (t.adm h)) (Claims.addrOf s c t sp a 0) key cls) (recordedDests p.2)))) := by
  obtain ⟨cls, hspots⟩ := atomic_spots (slot := slot) (once := false) hreach
  refine ⟨cls, runTeam_eff w ((if_neg h0).trans ?_) fun _ => Res.noConfusion⟩
  rw [show isScalar (.v d) = false from rfl]
  have hlack' : s.lacking (t.x s c slot h).c (t.x s c slot h).team 0 ((passes (t.x s c slot h).adm).map fun j => (j, sz.regs)) = none := hlack
  simp only [hspots, hlack']
  exact if_neg (Bool.eq_false_iff.1 hacq)

end

/-- Settles O28. -/
theorem atomicIssue : Obligations.AtomicIssue := by
  refine ⟨fun h data a sp ord sz sx op ft s c slot t key => ?_, fun h d a sp ord sz sx b op ft s c slot t l key => ?_,
    fun h d a sp ord sz sx b op ft s c slot t key => ?_⟩
  · intro i ls hs w h0 hacq hreach
    obtain ⟨cls, hexec⟩ := exec_red w h0 hacq hreach
    obtain ⟨new, hiss, hsm, hmap, -⟩ := atomics_fly (s := s) (m := s) (c := c) (slot := slot) (t := t) (h := h) (sp := sp) ord op ft sx sz.bytes
      data false ls (Claims.addrOf s c t sp a 0) key cls fun _ => []
    obtain ⟨s', t', hset, hteam, hframe, hmem, hvreg, ht', hfl, haccs, -⟩ := mem_done (i := i) (h := h) (t := t) hs
      (memFrame_issued (MemFrame.refl s c slot) hiss) ((hiss.team c slot).trans w.2.1)
    refine ⟨s', hexec.trans hset, hframe, fun r k => (hvreg r k).trans (hiss.vreg ..), ⟨t', hteam, hfl, ht'⟩,
      fun q => (hmem q).trans (memGet_congr hsm q), ?_, ?_⟩
    · rw [haccs, hiss.accs, List.take_left]
    · rw [haccs, hiss.accs, List.drop_left]
      exact hmap
  · intro i hs w hlow hacq hreach
    have h0 : t.adm h ≠ 0 := fun h0 => by
      rw [h0, lowest, lanes, passes_zero] at hlow
      cases hlow
    have hlanes : Claims.lanesOf (t.adm h) true = [l] := by simp [Claims.lanesOf, hlow]
    rw [← hlanes] at hreach
    obtain ⟨cls, hexec⟩ := exec_atom_scalar w h0 hacq hreach
    rw [hlanes] at hexec
    obtain ⟨new, hiss, hsm, hmap, hall⟩ := atomics_fly (s := s) (m := s) (c := c) (slot := slot) (t := t) (h := h) (sp := sp) ord op ft sx sz.bytes
      b (sx && sz == .b32) [l] (Claims.addrOf s c t sp a 0) key cls fun _ => [.scalar d.val]
    obtain ⟨s', t', hset, hteam, hframe, hmem, hvreg, ht', hfl, haccs, -⟩ := mem_done (i := i) (h := h) (t := t) hs
      (memFrame_issued (MemFrame.refl s c slot) hiss) ((hiss.team c slot).trans w.2.1)
    obtain ⟨q, rfl, hq⟩ := List.map_eq_singleton_iff.1 hmap
    simp only [atomicFields, Prod.mk.injEq] at hq
    obtain ⟨hkind, hkey, hlen, huid, hdests⟩ := hq
    exact ⟨s', q, hexec.trans hset, hframe, fun r k => (hvreg r k).trans (hiss.vreg ..), fun q => (hmem q).trans (memGet_congr hsm q),
      haccs.trans hiss.accs, hkind, hkey, hlen, huid, hall q List.mem_cons_self, hdests⟩
  · intro i hs ok w h0 hacq hlack hreach
    obtain ⟨cls, hexec⟩ := exec_atom_vector w h0 hacq hlack hreach
    obtain ⟨hstate, hfind⟩ := allocSteps (x := t.x s c slot h) (t := t) w.2.1 d sz.regs h0
    generalize (passes (t.adm h)).foldl (allocStep (t.x s c slot h) d sz.regs (t.adm h)) (s, []) = p at hexec hstate hfind
    obtain ⟨m, sls⟩ := p
    simp only at hexec hstate hfind
    have hlt : ∀ j ∈ passes (t.adm h), j < 32 := fun j hj => List.mem_range.1 (List.mem_filter.1 hj).1
    have hgrown := allocPasses_grown d sz.regs (t.adm h) (passes (t.adm h)) hlt (State.stashOk.pair ok w.2.1 hs)
    generalize hct : (passes (t.adm h)).foldl (allocPass d sz.regs (t.adm h)) (s.core c, t) = ct at hgrown
    have hm : m = withPair s c slot ct := hct ▸ hstate
    have hframe0 : TeamFrame s m c slot := hm ▸ teamFrame_of_grown hgrown hs ok
    obtain ⟨new, hiss, hsm, hmap, -⟩ := atomics_fly (s := s) (m := m) (c := c) (slot := slot) (t := t) (h := h) (sp := sp) ord op ft sx sz.bytes
      b false (lanes (t.adm h)) (Claims.addrOf s c t sp a 0) key cls (recordedDests sls)
    have hteam0 : m.team? c slot = some ct.2 := hm ▸ team_withPair ..
    obtain ⟨s', t', hset, hteam, hframe, hmem, hvreg, ht', hfl, haccs, -⟩ := mem_done (i := i) (h := h) (t := t) hs
      (memFrame_issued (memFrame_teamFrame (MemFrame.refl s c slot) hframe0) hiss) ((hiss.team c slot).trans hteam0)
    have haccs0 : m.accs = s.accs := by rw [hm]; rfl
    refine ⟨s', t', hexec.trans hset, hteam, hframe, fun q => ?_, ?_, ?_⟩
    · rw [hmem, memGet_congr hsm, hframe0.mem]
    · rw [haccs, hiss.accs, haccs0, List.take_left]
    · rw [haccs, hiss.accs, haccs0, List.drop_left]
      refine hmap.trans (List.map_congr_left fun l hl => ?_)
      obtain ⟨hl1, hl2⟩ := mem_lanes.1 hl
      have hslice : t'.slice = ct.2.slice := by rw [ht']; rfl
      have hdests : recordedDests sls l = (List.range sz.regs).map fun k => Dest.slice (t'.slice (vregAt d k).val (l / 32)) := by
        unfold recordedDests
        rw [hfind _ (mem_passes hl1 hl2), hslice, ← hct]
        exact List.map_map ..
      rw [hdests]
      rfl

end Sys2Proof.Proofs

end

section
/-! R175, R191, R298: FENCE and PRF. -/

open Sys2Proof Sys2Proof.Machine

namespace Sys2Proof.Proofs

/-! What an acquire drops of the L1 (R298). -/

/-- A bit that a pass over some words leaves set is a word's that the pass keeps. -/
theorem kept_of_foldl (p : Nat → Bool) (ws : List Nat) (v : BitVec 32) {w : Nat} (hw : w ∈ ws) (hlt : w < 32)
    (h : (ws.foldl (fun (v : BitVec 32) w => if p w then v else v &&& ~~~bit32 w) v).getLsbD w = true) : p w = true := by
  by_contra hp
  have hclear (ws : List Nat) (v : BitVec 32) (hv : v.getLsbD w = false) :
      (ws.foldl (fun (v : BitVec 32) w => if p w then v else v &&& ~~~bit32 w) v).getLsbD w = false := by
    induction ws generalizing v with
    | nil => exact hv
    | cons u ws ih =>
      refine ih _ ?_
      by_cases hu : p u = true
      · simp [hu, hv]
      · simp [hu, hv]
  have hcleared (v : BitVec 32) : (v &&& ~~~bit32 w).getLsbD w = false := by
    simp [bit32, hlt, BitVec.getLsbD_twoPow]
  induction ws generalizing v with
  | nil => cases hw
  | cons u ws ih =>
    rw [List.foldl_cons] at h
    obtain rfl | hw := List.mem_cons.1 hw
    · rw [if_neg hp, hclear _ _ (hcleared v)] at h
      cases h
    · exact ih _ hw h

theorem selfInvalidate_kept {c : Core} {l : L1Line} (hl : l ∈ c.selfInvalidate.l1) {w : Nat} (hw : w < 32) (hv : l.valid.getLsbD w = true) :
    c.own.get false (32 * l.line + w) = true := by
  obtain ⟨l0, -, rfl⟩ := List.mem_map.1 (List.mem_filter.1 hl).1
  exact kept_of_foldl (fun w => c.own.get false (32 * l0.line + w)) (List.range 32) l0.valid (List.mem_range.2 hw) hw hv

/-- The frame of a change to the accesses in flight and to a core's table, L1 and ownership. -/
theorem memFrame_of_core {s m : State} {c : Nat} (slot : Nat) (hcores : ∀ d, d ≠ c → m.core d = s.core d)
    (hcore : m.core c = { s.core c with vtb := (m.core c).vtb, l1 := (m.core c).l1, own := (m.core c).own })
    (hrest : m = { s with cores := m.cores, accs := m.accs, ctr := m.ctr, seq := m.seq }) : Claims.MemFrame s m c slot := by
  refine ⟨fun k _ => ?_, fun _ k _ _ r l => vreg_congr ?_ (by rw [hcore]) r l, hcores, ?_, ?_, fun _ => ?_⟩
  · rw [hrest]
  · rw [hrest]
    rfl
  · rw [hcore]
  · rw [hrest]
  · rw [hrest]

/-- What an acquire of a team does (R298). -/
theorem acquired_eq {s : State} {c slot : Nat} {t : Team} (hs : slot < 16) (h : s.teamOf t.uid = some (tkey c slot, t)) :
    s.acquired c t.uid = (s.selfInvalidate c).killLoads c slot := by
  have hof : (s.selfInvalidate c).teamOf t.uid = some (tkey c slot, t) := h
  have hq : tkey c slot % 16 = slot := by unfold tkey; omega
  unfold State.acquired
  simp only [hof, hq]

theorem core_killLoads (s : State) (c slot d : Nat) : (s.killLoads c slot).core d =
    if d = c then { s.core c with vtb := (s.core c).vtb.filter fun e => !isLoadKey e.key slot } else s.core d := by
  have hbump (m : State) (ctr : Ctr) (n k : Nat) : (m.bump ctr n k).core d = m.core d := rfl
  unfold State.killLoads
  rw [hbump, State.core_modCore]

theorem killLoads_rest (s : State) (c slot : Nat) :
    s.killLoads c slot = { s with cores := (s.killLoads c slot).cores, ctr := (s.killLoads c slot).ctr } := rfl

theorem core_selfInvalidate (s : State) (c d : Nat) :
    (s.selfInvalidate c).core d = if d = c then (s.core c).selfInvalidate else s.core d := by
  have haccs (m : State) (l : List Access) : State.core { m with accs := l } d = m.core d := rfl
  unfold State.selfInvalidate
  rw [haccs, State.core_modCore]

/-! FENCE. -/

/-- The state once the acquire or the kill of load entries of a FENCE is done. -/
def fenced (s : State) (c slot : Nat) (acq : Bool) : State := (if acq then s.selfInvalidate c else s).killLoads c slot

theorem fenced_core (s : State) (c slot : Nat) (acq : Bool) (d : Nat) : (fenced s c slot acq).core d =
    if d = c then { (if acq then (s.core c).selfInvalidate else s.core c) with vtb := (s.core c).vtb.filter fun e => !isLoadKey e.key slot }
    else s.core d := by
  unfold fenced
  rw [core_killLoads]
  cases acq
  · rfl
  · by_cases hd : d = c
    · rw [if_pos hd, if_pos hd, if_pos rfl, core_selfInvalidate, if_pos rfl]
      rfl
    · rw [if_neg hd, if_neg hd, if_pos rfl, core_selfInvalidate, if_neg hd]

theorem fenced_accs (s : State) (c slot : Nat) (acq : Bool) :
    (fenced s c slot acq).accs = if acq then Claims.noFills s c else s.accs := by
  unfold fenced
  rw [killLoads_rest]
  cases acq
  · rfl
  · rfl

theorem fenced_rest (s : State) (c slot : Nat) (acq : Bool) : fenced s c slot acq =
    { s with cores := (fenced s c slot acq).cores, accs := (fenced s c slot acq).accs, ctr := (fenced s c slot acq).ctr } := by
  unfold fenced
  cases acq
  · exact killLoads_rest s c slot
  · exact killLoads_rest (s.selfInvalidate c) c slot

theorem fenced_frame (s : State) (c slot : Nat) (acq : Bool) : Claims.MemFrame s (fenced s c slot acq) c slot := by
  refine memFrame_of_core slot (fun d hd => ?_) ?_ ?_
  · rw [fenced_core, if_neg hd]
  · rw [fenced_core, if_pos rfl]
    cases acq <;> rfl
  · have h := fenced_rest s c slot acq
    generalize fenced s c slot acq = m at h
    rw [h]

theorem exec_fence {h : Hdr} {ord : Order} {s : State} {c slot : Nat} {t : Team} (hs : slot < 16) (w : TeamIssues (.fence h ord) h s c slot t)
    (h0 : t.adm h ≠ 0) (hacq : s.acquiring t.uid = false) (hreads : isAcq ord = true → s.reading t.uid = false)
    (hof : s.teamOf t.uid = some (tkey c slot, t)) :
    exec (.fence h ord) s = .next (settleTeam (.fence h ord) h s c slot t (.done (if isRel ord then
      ((fenced s c slot (isAcq ord)).setTeam c slot { t with relSeq := s.seq }).tickSeq else fenced s c slot (isAcq ord)))) := by
  have hnow : ¬ (s.acquiring t.uid || (isAcq ord && s.reading t.uid)) = true := by
    rw [hacq, Bool.false_or]
    cases hi : isAcq ord
    · simp
    · simp [hreads hi]
  have hfence : (if isAcq ord then s.acquired (t.x s c slot h).c (t.x s c slot h).team.uid
      else s.killLoads (t.x s c slot h).c (t.x s c slot h).slot) = fenced s c slot (isAcq ord) := by
    cases isAcq ord
    · rfl
    · exact acquired_eq hs hof
  have hrest := fenced_rest s c slot (isAcq ord)
  refine runTeam_eff w ((if_neg h0).trans ((if_neg hnow).trans ?_)) fun _ => Res.noConfusion
  simp only [hfence]
  generalize fenced s c slot (isAcq ord) = m at hrest
  have hteam : m.team? (t.x s c slot h).c (t.x s c slot h).slot = some t := by
    rw [hrest]
    exact w.2.1
  have hseq : m.seq = s.seq := by rw [hrest]
  refine congrArg Res.done ?_
  split
  · rw [modTeam_eq_setTeam _ hteam, hseq]
    rfl
  · rfl

theorem fence_holds {h : Hdr} {ord : Order} {s : State} {c slot : Nat} {t : Team} (hs : slot < 16) (w : TeamIssues (.fence h ord) h s c slot t)
    (h0 : t.adm h ≠ 0) (hacq : s.acquiring t.uid = false) (hreads : isAcq ord = true → s.reading t.uid = false)
    (hof : s.teamOf t.uid = some (tkey c slot, t)) :
    ∃ s' t', exec (.fence h ord) s = .next s' ∧ s'.team? c slot = some t' ∧ Claims.MemFrame s s' c slot ∧
      (∀ q, s'.memGet q = s.memGet q) ∧ (∀ r k, s'.vreg c slot r k = s.vreg c slot r k) ∧
      s'.accs = (if isAcq ord then Claims.noFills s c else s.accs) ∧ t'.flagsDue = t.flagsDue ∧
      t' = { t with pc := (s.nextOf c t).1, atHdr := (s.nextOf c t).2, wait := none, shadows := t'.shadows,
                    relSeq := if isRel ord then s.seq else t.relSeq } ∧ s'.core c = (fenced s c slot (isAcq ord)).core c := by
  have hframe := fenced_frame s c slot (isAcq ord)
  have hf := exec_fence hs w h0 hacq hreads hof
  have haccs := fenced_accs s c slot (isAcq ord)
  have hrest := fenced_rest s c slot (isAcq ord)
  have hphys : ((fenced s c slot (isAcq ord)).core c).phys = (s.core c).phys := by
    rw [fenced_core, if_pos rfl]
    cases isAcq ord <;> rfl
  generalize fenced s c slot (isAcq ord) = m at *
  have hteam : m.team? c slot = some t := by
    rw [hrest]
    exact w.2.1
  have hmem (q : Nat) : m.memGet q = s.memGet q := memGet_congr (by rw [hrest]) q
  have hvreg (r : VReg) (k : Nat) : m.vreg c slot r k = s.vreg c slot r k := vreg_congr (hteam.trans w.2.1.symm) hphys r k
  obtain ⟨m1, hm1, hframe1, hteam1, hmem1, hvreg1, haccs1, hcores1⟩ : ∃ m1,
      (if isRel ord then (m.setTeam c slot { t with relSeq := s.seq }).tickSeq else m) = m1 ∧ Claims.MemFrame s m1 c slot ∧
      m1.team? c slot = some { t with relSeq := if isRel ord then s.seq else t.relSeq } ∧ (∀ q, m1.memGet q = m.memGet q) ∧
      (∀ r k, m1.vreg c slot r k = m.vreg c slot r k) ∧ m1.accs = m.accs ∧ m1.cores = m.cores := by
    refine ⟨_, rfl, ?_⟩
    by_cases hr : isRel ord = true
    · rw [if_pos hr, if_pos hr]
      have hset : TeamFrame m (m.setTeam c slot { t with relSeq := s.seq }) c slot := .setTeam m c slot _ hs
      refine ⟨memFrame_issued (memFrame_teamFrame hframe hset) .tickSeq, State.team_setTeam_same .., fun _ => rfl, fun r k => ?_, rfl, rfl⟩
      have hsame : (m.setTeam c slot { t with relSeq := s.seq }).tickSeq.team? c slot = some { t with relSeq := s.seq } :=
        State.team_setTeam_same ..
      simp only [State.vreg, hteam, hsame]
      rfl
    · rw [if_neg hr, if_neg hr]
      exact ⟨hframe, hteam, fun _ => rfl, fun _ _ => rfl, rfl, rfl⟩
  obtain ⟨s', t', hset, hteam', hframe', hmem', hvreg', ht', hfl, haccs', hcores', -⟩ := mem_done (i := .fence h ord) (h := h) (t := t) hs
    hframe1 hteam1
  refine ⟨s', t', hf.trans (hm1 ▸ hset), hteam', hframe', fun q => (hmem' q).trans ((hmem1 q).trans (hmem q)),
    fun r k => (hvreg' r k).trans ((hvreg1 r k).trans (hvreg r k)), haccs'.trans (haccs1.trans haccs), hfl, ht', ?_⟩
  unfold State.core
  rw [hcores', hcores1]

/-! PRF (R191). -/

theorem Issued.of_aside {s m : State} {c : Nat} (h : Aside s m) : Issued s m c [] := by
  unfold Aside at h
  refine ⟨fun d _ => ?_, ?_, ?_, ?_, fun _ => ?_⟩
  · rw [h]; rfl
  · rw [h]; rfl
  · rw [h, List.append_nil]
  · rw [h]
  · rw [h]

theorem aside_mem {s m : State} (h : Aside s m) : m.mem = s.mem := by
  unfold Aside at h
  rw [h]

theorem Aside.homeLine (s : State) (pa cls : Nat) : Aside s (s.homeLine pa cls).1 := by
  unfold State.homeLine
  split
  · exact .l2Access ..
  · rfl

/-- What a prefetch may leave: reads put in flight, and memory as it was. -/
def Fetches (s m : State) (c : Nat) : Prop := ∃ new, Issued s m c new ∧ m.mem = s.mem

theorem Fetches.refl (s : State) (c : Nat) : Fetches s s c := ⟨[], .refl s c, rfl⟩

theorem Fetches.trans {a b d : State} {c : Nat} (h : Fetches a b c) (g : Fetches b d c) : Fetches a d c := by
  obtain ⟨new, h1, h2⟩ := h
  obtain ⟨new', g1, g2⟩ := g
  exact ⟨new ++ new', h1.trans g1, g2.trans h2⟩

theorem Fetches.of_aside {s m : State} {c : Nat} (h : Aside s m) : Fetches s m c := ⟨[], .of_aside h, aside_mem h⟩

theorem Fetches.send (s : State) (c : Nat) (a : Access) : Fetches s (s.send a) c := by
  obtain ⟨q, h1, h2, -⟩ := issued_send s c a
  exact ⟨[q], h1, h2⟩

/-- A plain global read whose line the L1 does not hold is put in flight. -/
theorem Fetches.startRead {s : State} (c : Nat) {a : Access} (hacq : a.acq = false) (hl : (s.core a.core).l1Line (a.key / 128) = none) :
    Fetches s (s.startRead a .glob) c := by
  have hmiss (vers : Tbl W32) : (if a.acq || s.ahead a then none else (s.core a.core).l1Hit vers a.key a.len) = none := by
    split
    · rfl
    · unfold Core.l1Hit
      rw [hl]
  have hsend (p : State × List Byte × W32) : Aside s p.1 → Fetches s (let (s, bs, v) := p; s.send { a with snap := some (bs, v) }) c :=
    fun hp => (Fetches.of_aside hp).trans (.send ..)
  unfold State.startRead
  rw [if_neg (by decide), if_neg (by decide)]
  simp only [hmiss]
  rw [if_neg (Bool.eq_false_iff.1 hacq)]
  exact hsend _ (.homeLine ..)

theorem Fetches.prefetch (s : State) (w : Who) (l2 : Bool) (e : TlbE) (va : Nat) : Fetches s (s.prefetch w l2 e va) w.core := by
  unfold State.prefetch
  dsimp only
  split
  · exact .refl ..
  · split
    · split
      · exact .of_aside (.l2Access ..)
      · exact .refl ..
    · split
      · exact .refl ..
      · next hl =>
        exact .startRead _ rfl (Option.not_isSome_iff_eq_none.1 hl)

theorem Fetches.prefetchAt (s : State) (w : Who) (l2 : Bool) (va : Nat) : Fetches s (s.prefetchAt w l2 va) w.core := by
  have hwalks (m : State) (l : List Walk) : Fetches m { m with walks := l } w.core :=
    ⟨[], ⟨fun _ _ => rfl, rfl, (List.append_nil _).symm, rfl, fun _ => rfl⟩, rfl⟩
  have hmiss : Aside s (if s.walking (stackOf w.core) w.ctx va then (s.bump .tlbmiss w.core 1).bump .walkjoin (stackOf w.core) 1
      else s.bump .tlbmiss w.core 1) := by
    split
    · exact (Aside.bump ..).trans (.bump ..)
    · exact .bump ..
  unfold State.prefetchAt
  split
  · exact .prefetch ..
  · dsimp only
    generalize (if s.walking (stackOf w.core) w.ctx va then (s.bump .tlbmiss w.core 1).bump .walkjoin (stackOf w.core) 1
      else s.bump .tlbmiss w.core 1) = m at hmiss
    split
    · exact .of_aside hmiss
    · refine (Fetches.of_aside hmiss).trans (Fetches.trans ?_ (hwalks ..))
      split
      · exact .refl ..
      · exact .of_aside ((Aside.walkedReads ..).trans (.bump ..))

theorem Fetches.prefetches (w : Who) (l2 : Bool) (lines : List Nat) (s : State) :
    Fetches s (lines.foldl (fun s va => s.prefetchAt w l2 va) s) w.core := by
  induction lines generalizing s with
  | nil => exact .refl ..
  | cons va lines ih => exact (Fetches.prefetchAt s w l2 va).trans (ih _)

theorem exec_prf {h : Hdr} {l2 : Bool} {a : VS} {off : BitVec 16} {s : State} {c slot : Nat} {t : Team}
    (w : TeamIssues (.prf h l2 a off) h s c slot t) (hacq : s.acquiring t.uid = false) :
    ∃ m, Fetches s m c ∧ exec (.prf h l2 a off) s = .next (settleTeam (.prf h l2 a off) h s c slot t (.done m)) :=
  ⟨_, .prefetches (t.who c) l2 (((lanes (t.adm h)).map fun l => Src.addr ⟨s.core c, t, []⟩ .glob a off l / 128 * 128).dedup) s,
    runTeam_eff w (if_neg (Bool.eq_false_iff.1 hacq)) fun _ => Res.noConfusion⟩

/-- Settles O29. -/
theorem fenceAndPrefetch : Obligations.FenceAndPrefetch := by
  refine ⟨fun h ord s c slot t hs w h0 hacq hreads hof => ?_, fun h l2 a off s c slot t hs w hacq => ?_⟩
  · obtain ⟨s', t', hexec, hteam, hframe, hmem, hvreg, haccs, hfl, ht', hcore⟩ := fence_holds hs w h0 hacq hreads hof
    rw [fenced_core, if_pos rfl] at hcore
    refine ⟨s', t', hexec, hteam, hframe, hmem, hvreg, haccs, hfl, ht', fun e he => ?_, fun hi l hl v hv hvalid => ?_, fun hi => ?_⟩
    · rw [hcore] at he
      simpa using (List.mem_filter.1 he).2
    · rw [hcore, if_pos hi] at hl
      exact selfInvalidate_kept hl hv hvalid
    · rw [hcore, if_neg (Bool.eq_false_iff.1 hi)]
  · obtain ⟨m, ⟨new, hiss, hm⟩, hexec⟩ := exec_prf w hacq
    obtain ⟨s', t', hset, hteam, hframe, hmem, hvreg, ht', hfl, -⟩ := mem_done (i := .prf h l2 a off) (h := h) (t := t) hs
      (memFrame_issued (MemFrame.refl s c slot) hiss) ((hiss.team c slot).trans w.2.1)
    exact ⟨s', t', hexec.trans hset, hteam, hframe, fun q => (hmem q).trans (memGet_congr hm q), fun r k => (hvreg r k).trans (hiss.vreg ..),
      hfl, ht'⟩

end Sys2Proof.Proofs

end

section
/-! R174, R296, R299, R317: stores and atomics that are performed at their homes. -/

open Sys2Proof Sys2Proof.Machine

namespace Sys2Proof.Proofs

/-! The team that a number names. -/

/-- A team put back under its key is the one that its number then names. -/
theorem find_uid_put {l : Tbl Team} {uid q : Nat} {t t' : Team} (h : l.find? (fun e => e.2.uid == uid) = some (q, t)) (hu : t'.uid = uid) :
    (l.put q t').find? (fun e => e.2.uid == uid) = some (q, t') := by
  induction l with
  | nil => cases h
  | cons c l ih =>
    obtain ⟨k, v⟩ := c
    unfold Tbl.put
    split
    · exact List.find?_cons_of_pos (by simpa using hu)
    · next hqk =>
      have hv : (v.uid == uid) = false := Bool.eq_false_iff.2 fun hv => by
        simp only [List.find?_cons, hv, Option.some.injEq, Prod.mk.injEq] at h
        exact hqk h.1.symm
      split
      · exact List.find?_cons_of_pos (by simpa using hu)
      · simp only [List.find?_cons, hv] at h ⊢
        exact ih h

theorem teamOf_put {s : State} {uid q : Nat} {t t' : Team} (h : s.teamOf uid = some (q, t)) (hu : t'.uid = uid) :
    State.teamOf { s with teams := s.teams.put q t' } uid = some (q, t') := find_uid_put h hu

theorem uid_of_teamOf {s : State} {uid q : Nat} {t : Team} (h : s.teamOf uid = some (q, t)) : t.uid = uid := by
  simpa using List.find?_some h

/-- m has the teams of s, but for the one that a number names, which it has under the same key, and of which φ is as it was. -/
structure SameTeams {α : Type} (φ : Team → α) (uid : Nat) (s m : State) : Prop where
  named : ∀ k t, s.teamOf uid = some (k, t) → ∃ t', m.teamOf uid = some (k, t') ∧ m.teams.find k = some t' ∧ φ t' = φ t
  none : s.teamOf uid = none → m.teamOf uid = none
  others : ∀ k, (∀ t, s.teamOf uid ≠ some (k, t)) → m.teams.find k = s.teams.find k

section
variable {α : Type} {φ : Team → α} {uid : Nat} {s m n : State}

theorem SameTeams.of_teams (hk : Claims.Known s uid) (h : m.teams = s.teams) : SameTeams φ uid s m := by
  have hof : m.teamOf uid = s.teamOf uid := by rw [State.teamOf, h]; rfl
  refine ⟨fun k t ht => ⟨t, hof.trans ht, ?_, rfl⟩, fun ht => hof.trans ht, fun k _ => by rw [h]⟩
  rw [h]
  exact hk k t ht

theorem SameTeams.known (h : SameTeams φ uid s m) : Claims.Known m uid := by
  intro k t ht
  cases hs : s.teamOf uid with
  | none => rw [h.none hs] at ht; cases ht
  | some p =>
    obtain ⟨t', h1, h2, -⟩ := h.named p.1 p.2 hs
    rw [h1] at ht
    cases ht
    exact h2

theorem SameTeams.trans (h : SameTeams φ uid s m) (g : SameTeams φ uid m n) : SameTeams φ uid s n := by
  refine ⟨fun k t ht => ?_, fun hs => g.none (h.none hs), fun k hk => ?_⟩
  · obtain ⟨t1, h1, h2, h3⟩ := h.named k t ht
    obtain ⟨t2, g1, g2, g3⟩ := g.named k t1 h1
    exact ⟨t2, g1, g2, g3.trans h3⟩
  · refine (g.others k fun t ht => ?_).trans (h.others k hk)
    cases hs : s.teamOf uid with
    | none => rw [h.none hs] at ht; cases ht
    | some p =>
      obtain ⟨t', h1, -⟩ := h.named p.1 p.2 hs
      rw [h1] at ht
      cases ht
      exact hk p.2 hs

theorem SameTeams.put (hk : Claims.Known s uid) {q : Nat} {t t' : Team} (h : s.teamOf uid = some (q, t)) (hu : t'.uid = uid) (hφ : φ t' = φ t) :
    SameTeams φ uid s { s with teams := s.teams.put q t' } := by
  refine ⟨fun k u hu' => ?_, fun hs => ?_, fun k hne => ?_⟩
  · rw [h, Option.some.injEq, Prod.mk.injEq] at hu'
    obtain ⟨rfl, rfl⟩ := hu'
    exact ⟨t', teamOf_put h hu, Tbl.find_put_same .., hφ⟩
  · rw [h] at hs
    cases hs
  · exact Tbl.find_put_of_ne _ _ fun hkq => hne t (hkq ▸ h)

theorem SameTeams.noteVer (hk : Claims.Known s uid) (hφ : ∀ (t : Team) v, φ { t with vers := v } = φ t) (line : Nat) (v : W32) :
    SameTeams φ uid s (s.noteVer uid line v) := by
  unfold State.noteVer
  split
  · next q t h => exact .put hk h (uid_of_teamOf (t := t) h) (hφ ..)
  · exact .of_teams hk rfl

/-- The team elsewhere under a key is as it was. -/
theorem SameTeams.find_of_uid (hk : Claims.Known s uid) (h : SameTeams φ uid s m) {k : Nat} {t : Team} (ht : s.teams.find k = some t)
    (hne : t.uid ≠ uid) : m.teams.find k = some t := by
  refine (h.others k fun t' ht' => hne ?_).trans ht
  have hkt := hk k t' ht'
  rw [ht, Option.some.injEq] at hkt
  rw [hkt]
  exact uid_of_teamOf ht'

theorem SameTeams.map_find (hk : Claims.Known s uid) (h : SameTeams φ uid s m) (k : Nat) : (m.teams.find k).map φ = (s.teams.find k).map φ := by
  by_cases hn : ∀ t, s.teamOf uid ≠ some (k, t)
  · rw [h.others k hn]
  · simp only [not_forall, not_not] at hn
    obtain ⟨t, ht⟩ := hn
    obtain ⟨t', -, h2, h3⟩ := h.named k t ht
    rw [h2, hk k t ht, Option.map_some, Option.map_some, h3]

end

/-! Accesses. -/

theorem access_map (s : State) (f : Access → Access) (hf : ∀ a, (f a).id = a.id) (id : Nat) :
    State.access? { s with accs := s.accs.map f } id = (s.access? id).map f := by
  unfold State.access?
  rw [List.find?_map]
  simp [Function.comp_def, hf]

theorem access_modAccess {s : State} {id : Nat} {a : Access} (h : s.access? id = some a) (f : Access → Access) (hf : ∀ a, (f a).id = a.id) :
    (s.modAccess id f).access? id = some (f a) := by
  have hid : a.id = id := by simpa using List.find?_some h
  refine (access_map s _ (fun b => ?_) id).trans ?_
  · split
    · exact hf b
    · rfl
  · rw [h, Option.map_some, hid]
    simp

/-! Ownership (R296). -/

theorem find_foldl_words (v : Nat → Option Nat) (step : Tbl Nat → Nat → Tbl Nat)
    (hstep : ∀ o y x, (step o y).find x = if x = y then v y else o.find x) (ws : List Nat) (o : Tbl Nat) (x : Nat) :
    (ws.foldl step o).find x = if x ∈ ws then v x else o.find x := by
  induction ws generalizing o with
  | nil => simp
  | cons y ws ih =>
    rw [List.foldl_cons, ih, hstep]
    by_cases hx : x ∈ ws
    · simp [hx]
    · by_cases hxy : x = y
      · simp [hxy]
      · simp [hx, hxy]

theorem find_regOwners (o : Tbl Nat) (w : Writer) (pa len x : Nat) : (regOwners o w pa len).find x =
    if x ∈ wordsOf pa len then (match w.owner with | some c => if (fullWords pa len).contains x then some c else none | none => none)
    else o.find x := by
  unfold regOwners
  refine find_foldl_words (fun x => match w.owner with | some c => if (fullWords pa len).contains x then some c else none | none => none) _
    (fun o y x => ?_) _ _ _
  cases w.owner with
  | none => exact Tbl.find_del ..
  | some c =>
    by_cases hy : (fullWords pa len).contains y = true
    · simp only [hy, if_true]
      exact Tbl.find_put ..
    · simp only [if_neg hy]
      exact Tbl.find_del ..

theorem mem_losers {s : State} {w : Writer} {pa len d : Nat} : d ∈ s.losers w pa len ↔
    ∃ x ∈ wordsOf pa len, s.owners.find x = some d ∧ ¬ (w.owner = some d ∧ x ∈ fullWords pa len) := by
  unfold State.losers
  rw [List.mem_dedup, List.mem_filterMap]
  refine exists_congr fun x => and_congr_right fun _ => ?_
  cases s.owners.find x with
  | none => simp
  | some c =>
    by_cases hc : w.owner = some c ∧ x ∈ fullWords pa len
    · simp only [hc.1, decide_true, Bool.true_and, List.contains_iff_mem, hc.2, if_true, Option.some.injEq]
      constructor
      · exact nofun
      · rintro ⟨rfl, hn⟩
        exact absurd ⟨rfl, trivial⟩ hn
    · have hif : ¬ (decide (w.owner = some c) && (fullWords pa len).contains x) = true := by simpa using hc
      simp only [if_neg hif]
      constructor
      · intro h
        cases h
        exact ⟨rfl, hc⟩
      · rintro ⟨h, -⟩
        exact h

/-! What a write or atomic does at its home in this package. -/

/-- A team but for the versions that it has seen. -/
def noVers (t : Team) : Team := { t with vers := [] }

/-- m is s where an access put bytes at its home: memory, the access, ownership, and who is to be revoked. -/
structure Landed (s m : State) (a : Access) (bs : List Byte) : Prop where
  rest : m = { s with mem := m.mem, accs := m.accs, owners := m.owners, slices := m.slices, comp := m.comp, ctr := m.ctr, free := m.free,
                      ors := m.ors, teams := m.teams }
  teams : SameTeams noVers a.uid s m
  mem : ∀ q, m.memGet q = Claims.putAt s a.key bs q
  access : ∃ r, m.access? a.id = some { a with stage := 1, held := false, revoke := r } ∧
    (a.global = true → (a.wide = false → r = s.losers ⟨a.owner, a.depth, s.srcOf a⟩ a.key bs.length) ∧
      (a.wide = true → ∀ d, d ≠ a.core → ((s.core d).l1Line (a.key / 128)).isSome = true → d ∈ r))
  owners : a.global = true → ∀ w, m.owners.find w = if w ∈ wordsOf a.key bs.length then
    (match a.owner with | some c => if (fullWords a.key bs.length).contains w then some c else none | none => none) else s.owners.find w

theorem countSilent_eq (s : State) (ps : List (Nat × Nat × Nat)) (bs : List Byte) :
    s.countSilent ps bs = { s with ctr := (s.countSilent ps bs).ctr } := by
  unfold State.countSilent
  dsimp only
  split <;> rfl

theorem compare_eq (s : State) (pa depth src : Nat) (old new : List Byte) :
    s.compare pa depth src old new = { s with ors := (s.compare pa depth src old new).ors } := by
  unfold State.compare
  split <;> rfl

/-- A performed write within this package. -/
theorem perform_spec (s : State) (w : Writer) (pa cls : Nat) (bs : List Byte) :
    (s.perform w pa cls bs true).1 = { s with
      mem := memPut s.mem pa bs, owners := regOwners s.owners w pa bs.length, slices := (s.perform w pa cls bs true).1.slices,
      ctr := (s.perform w pa cls bs true).1.ctr, comp := (s.perform w pa cls bs true).1.comp, free := (s.perform w pa cls bs true).1.free,
      ors := (s.perform w pa cls bs true).1.ors } ∧
    (s.perform w pa cls bs true).2.2 = s.losers w pa bs.length := by
  have hc := Cached.l2Access (s.memWrite pa bs) pa cls true
  unfold Cached at hc
  unfold State.perform
  dsimp only
  generalize (s.memWrite pa bs).l2Access pa cls true = p at hc
  obtain ⟨m, v⟩ := p
  dsimp only at hc ⊢
  refine ⟨?_, rfl⟩
  rw [if_pos rfl, compare_eq, hc]
  rfl

theorem mustDrop_narrow {s : State} {a : Access} {out : List Nat} (h : a.wide = false) : s.mustDrop a out = out := by
  simp [State.mustDrop, h]

theorem mem_mustDrop {s : State} {a : Access} {out : List Nat} {d : Nat} (h : a.wide = true) (hd : d ≠ a.core)
    (hl : ((s.core d).l1Line (a.key / 128)).isSome = true) : d ∈ s.mustDrop a out := by
  simp only [State.mustDrop, h, Bool.not_true, Bool.false_eq_true, if_false, List.mem_dedup, List.mem_append, List.mem_map, List.mem_filter]
  right
  cases hf : s.cores.find d with
  | none =>
    have hz : s.core d = Core.zero := by simp [State.core, Tbl.get_eq_find, hf]
    rw [hz] at hl
    cases hl
  | some x =>
    have hx : s.core d = x := by simp [State.core, Tbl.get_eq_find, hf]
    exact ⟨(d, x), ⟨Tbl.find_mem hf, by simp [hd, ← hx, hl]⟩, rfl⟩

theorem not_isRead_of_landing {a : Access} (h : a.isRead = false) (x : Access) (hx : x.kind = a.kind) : x.isRead = false := by
  unfold Access.isRead at *
  rw [hx]
  exact h

theorem landed_onChip {s : State} {a : Access} {bs : List Byte} (hk : Claims.Known s a.uid) (ha : s.access? a.id = some a)
    (hg : a.global = false) : Landed s (s.land a bs) a bs := by
  have he : s.land a bs = (s.memWrite a.key bs).modAccess a.id fun a => { a with stage := 1, held := false } := by
    unfold State.land
    rw [hg]
    rfl
  rw [he]
  refine ⟨rfl, .of_teams hk rfl, fun q => memGet_memWrite .., ⟨a.revoke, ?_, fun h => ?_⟩, fun h => ?_⟩
  · exact access_modAccess (s := s.memWrite a.key bs) ha _ fun _ => rfl
  · rw [hg] at h; cases h
  · rw [hg] at h; cases h

theorem access_noOlder {s : State} {a x : Access} {id : Nat} (h : s.access? id = some x) (hx : x.isRead = false) :
    (s.noOlder a).access? id = some x := by
  refine (access_map s _ (fun b => ?_) id).trans ?_
  · split <;> rfl
  · rw [h, Option.map_some, hx]
    rfl

theorem access_noCopies {s : State} {a x : Access} {id : Nat} (h : s.access? id = some x) (hx : x.isRead = false) :
    (s.noCopies a).access? id = some x := by
  unfold State.noCopies
  split
  · exact h
  · refine (access_map s _ (fun b => ?_) id).trans ?_
    · split <;> rfl
    · rw [h, Option.map_some, hx]
      rfl

theorem noCopies_eq (s : State) (a : Access) : s.noCopies a = { s with accs := (s.noCopies a).accs } := by
  unfold State.noCopies
  split <;> rfl

theorem noteVer_eq (s : State) (uid line : Nat) (v : W32) : s.noteVer uid line v = { s with teams := (s.noteVer uid line v).teams } := by
  unfold State.noteVer
  split <;> rfl

/-- What follows a performed write: the access waits for its acknowledgement, and its writer has seen the line. -/
def landedBy (a : Access) (p : State × W32 × List Nat) : State :=
  ((p.1.modAccess a.id fun b => { b with stage := 1, held := false, revoke := p.1.mustDrop a p.2.2 }).storeSeen a p.2.1).noCopies a

theorem landed_global {s : State} {a : Access} {bs : List Byte} (hk : Claims.Known s a.uid) (ha : s.access? a.id = some a)
    (hr : a.isRead = false) (hg : a.global = true) (hl : s.local_ a.key = true) : Landed s (s.land a bs) a bs := by
  have hsil := countSilent_eq s [(a.key, a.cls, a.len)] bs
  generalize hs0 : s.countSilent [(a.key, a.cls, a.len)] bs = s0 at hsil
  obtain ⟨hperf, hout⟩ := perform_spec s0 ⟨a.owner, a.depth, s0.srcOf a⟩ a.key a.cls bs
  have hland : s.land a bs = landedBy a (s0.perform ⟨a.owner, a.depth, s0.srcOf a⟩ a.key a.cls bs true) := by
    unfold State.land
    rw [hg, hl, hs0]
    rfl
  generalize s0.perform ⟨a.owner, a.depth, s0.srcOf a⟩ a.key a.cls bs true = p at hland hperf hout
  obtain ⟨m, v, out⟩ := p
  dsimp only [landedBy] at hland hperf hout
  have hm : m = { s with mem := memPut s.mem a.key bs, owners := regOwners s.owners ⟨a.owner, a.depth, s0.srcOf a⟩ a.key bs.length,
                         slices := m.slices, ctr := m.ctr, comp := m.comp, free := m.free, ors := m.ors } := by
    rw [hperf, hsil]
  have hsrc : s0.srcOf a = s.srcOf a := by rw [hsil]; rfl
  have hout' : out = s.losers ⟨a.owner, a.depth, s.srcOf a⟩ a.key bs.length := by
    rw [hout, hsrc, hsil]
    rfl
  have hmacc : m.access? a.id = some a := by rw [hm]; exact ha
  have hkm : SameTeams noVers a.uid s m := .of_teams hk (by rw [hm])
  obtain ⟨m1, hm1⟩ : ∃ m1, m1 = m.modAccess a.id fun b => { b with stage := 1, held := false, revoke := m.mustDrop a out } := ⟨_, rfl⟩
  have hacc1 : m1.access? a.id = some { a with stage := 1, held := false, revoke := m.mustDrop a out } :=
    hm1 ▸ access_modAccess hmacc _ fun _ => rfl
  have hrest1 : m1 = { m with accs := m1.accs } := by rw [hm1]; rfl
  have hk1 : SameTeams noVers a.uid m m1 := .of_teams hkm.known (by rw [hrest1])
  rw [← hm1] at hland
  obtain ⟨m2, hm2⟩ : ∃ m2, m2 = m1.noOlder a := ⟨_, rfl⟩
  have hacc2 : m2.access? a.id = some { a with stage := 1, held := false, revoke := m.mustDrop a out } :=
    hm2 ▸ access_noOlder hacc1 (not_isRead_of_landing hr _ rfl)
  have hrest2 : m2 = { m1 with accs := m2.accs } := by rw [hm2]; rfl
  have hk2 : SameTeams noVers a.uid m1 m2 := .of_teams hk1.known (by rw [hrest2])
  have hstore : m1.storeSeen a v = m2.noteVer a.uid (a.key / 128) v := by rw [hm2]; rfl
  rw [hstore] at hland
  have hk3 : SameTeams noVers a.uid m2 (m2.noteVer a.uid (a.key / 128) v) := .noteVer hk2.known (fun _ _ => rfl) _ _
  have hrest3 := noteVer_eq m2 a.uid (a.key / 128) v
  generalize m2.noteVer a.uid (a.key / 128) v = m3 at *
  have hacc3 : m3.access? a.id = some { a with stage := 1, held := false, revoke := m.mustDrop a out } := by
    rw [hrest3]
    exact hacc2
  have hacc4 := access_noCopies (a := a) hacc3 (not_isRead_of_landing hr _ rfl)
  have hrest4 := noCopies_eq m3 a
  have hk4 : SameTeams noVers a.uid m3 (m3.noCopies a) := .of_teams hk3.known (by rw [hrest4])
  rw [hland]
  generalize m3.noCopies a = m4 at *
  have hrest : m4 = { m with accs := m4.accs, teams := m4.teams } := by
    rw [hrest4, hrest3, hrest2, hrest1]
  refine ⟨?_, hkm.trans (hk1.trans (hk2.trans (hk3.trans hk4))), fun q => ?_, ⟨_, hacc4, fun _ => ⟨fun hw => ?_, fun hw d hd hline => ?_⟩⟩,
    fun _ w => ?_⟩
  · rw [hrest, hm]
  · rw [hrest, hm]
    exact get_memPut ..
  · rw [mustDrop_narrow hw, hout']
  · exact mem_mustDrop hw hd (by rw [hm]; exact hline)
  · rw [hrest, hm]
    exact find_regOwners ..

theorem landed {s : State} {a : Access} {bs : List Byte} (hk : Claims.Known s a.uid) (ha : s.access? a.id = some a) (hr : a.isRead = false)
    (hl : a.global = true → s.local_ a.key = true) : Landed s (s.land a bs) a bs := by
  cases hg : a.global with
  | false => exact landed_onChip hk ha hg
  | true => exact landed_global hk ha hr hg (hl hg)

/-! What an access delivers (R189, R190). -/

/-- A team but for its scalars and results in flight. -/
def noScalars (t : Team) : Team := { t with sreg := [], shadows := [] }

theorem noScalars_ws (t : Team) (r : SReg) (v : W64) : noScalars (t.ws r v) = noScalars t := by
  rw [Team.ws_frame]
  rfl

theorem deliverTo_spec {s : State} (core : Nat) {uid : Nat} (lane : Nat) (d : Dest) (k len : Nat) (sx : Bool) (v : Nat)
    (hk : Claims.Known s uid) :
    let m := s.deliverTo core uid lane d k len sx v
    m = { s with cores := m.cores, teams := m.teams, ridges := m.ridges } ∧ SameTeams noScalars uid s m := by
  have hsame {m : State} (h : m.teams = s.teams) : SameTeams noScalars uid s m := .of_teams hk h
  unfold State.deliverTo
  dsimp only
  split
  · split
    · exact ⟨rfl, hsame rfl⟩
    · exact ⟨rfl, hsame rfl⟩
  · split
    · next q t h =>
      refine ⟨rfl, .put hk h ?_ (noScalars_ws ..)⟩
      rw [Team.ws_frame]
      exact uid_of_teamOf (t := t) h
    · split
      · exact ⟨rfl, hsame rfl⟩
      · exact ⟨rfl, hsame rfl⟩
  · exact ⟨rfl, hsame rfl⟩

theorem delivers_spec (core uid lane len : Nat) (sx : Bool) (v : Nat) (ds : List Dest) {s : State} (k : Nat) (hk : Claims.Known s uid) :
    let m := (ds.foldl (fun (x : State × Nat) d => (x.1.deliverTo core uid lane d x.2 len sx v, x.2 + 1)) (s, k)).1
    m = { s with cores := m.cores, teams := m.teams, ridges := m.ridges } ∧ SameTeams noScalars uid s m := by
  induction ds generalizing s k with
  | nil => exact ⟨rfl, .of_teams hk rfl⟩
  | cons d ds ih =>
    obtain ⟨h1, h2⟩ := deliverTo_spec core lane d k len sx v hk
    obtain ⟨g1, g2⟩ := ih (k + 1) h2.known
    rw [List.foldl_cons]
    refine ⟨?_, h2.trans g2⟩
    rw [g1, h1]

theorem deliver_spec {s : State} {a : Access} (v : Nat) (hk : Claims.Known s a.uid) :
    s.deliver a v = { s with cores := (s.deliver a v).cores, teams := (s.deliver a v).teams, ridges := (s.deliver a v).ridges } ∧
      SameTeams noScalars a.uid s (s.deliver a v) := delivers_spec a.core a.uid a.lane a.len a.sx v a.dests 0 hk

theorem sregAt_zero {r : Nat} (hr : r < 64) : (sregAt 0 r).val = r := by simp [sregAt, Nat.mod_eq_of_lt hr]

/-- A scalar that an access delivers to is written, but s0 (R83). -/
theorem deliver_scalar {s : State} {a : Access} {v r q : Nat} {t : Team} (hd : a.dests = [.scalar r]) (ht : s.teamOf a.uid = some (q, t)) :
    s.deliver a v = { s with teams := s.teams.put q (t.ws (sregAt 0 r) (BitVec.ofNat 64 (extendTo 64 a.len a.sx v))) } := by
  unfold State.deliver
  rw [hd]
  simp only [List.foldl_cons, List.foldl_nil, State.deliverTo, ht]

theorem settleCore_eq (s : State) (core : Nat) : s.settleCore core = { s with cores := (s.settleCore core).cores } := by
  unfold State.settleCore
  dsimp only
  split <;> rfl

theorem corrected_eq (s : State) (key : Nat) :
    s.corrected key = { s with eccOnes := (s.corrected key).eccOnes, ctr := (s.corrected key).ctr } := by
  unfold State.corrected
  split <;> rfl

theorem homeRead_of_home {s : State} {a : Access} (h : a.global = true → s.local_ a.key = true) (n : Nat) :
    s.homeRead a.key n = s.memRead a.key n := by
  unfold State.homeRead
  refine if_neg fun hf => ?_
  rw [Bool.and_eq_true] at hf
  obtain ⟨hk, hl⟩ := hf
  rw [h hk] at hl
  cases hl

/-- Settles O31. -/
theorem storesAndAtomicsPerformed : Obligations.StoresAndAtomicsPerformed := by
  refine ⟨fun id a bs s ha hw hlen hmay hheld hlocal hknown i hi hhi => ?_, fun id a bs s ha hw hmay hheld hnot => ?_,
    fun id a op ft sx b c s ha hw hmay hnot hacq hlocal hpath hecc => ?_⟩
  · obtain rfl : a.id = id := by simpa using List.find?_some ha
    have hread : a.isRead = false := by simp [Access.isRead, hw]
    have hwrite : a.isWrite = true := by simp [Access.isWrite, hw]
    have hexec : exec i s = .next (s.land a bs) := by
      have hdo : s.doStore a bs = s.land a bs := if_neg (Bool.eq_false_iff.1 hheld)
      simp only [List.mem_cons, List.not_mem_nil, or_false] at hi
      obtain rfl | rfl := hi
      · have hnh : a.held = false := Bool.eq_false_iff.2 fun h => by cases hhi.1 h
        change execStorePerform a.id s = _
        simp [execStorePerform, ha, hw, hnh, hmay, hdo]
      · have hh : a.held = true := hhi.2 rfl
        change execHeldWriteRelease a.id s = _
        simp [execHeldWriteRelease, ha, hw, hh, hmay, hdo]
    have hland := landed (bs := bs) hknown ha hread hlocal
    generalize s.land a bs = m at hexec hland
    obtain ⟨r, hacc, hrev⟩ := hland.access
    refine ⟨m, _, hexec, ⟨hland.rest, fun k => hland.teams.map_find hknown k⟩, hland.mem, hacc, rfl, fun hg => ?_⟩
    obtain ⟨hnarrow, hwide⟩ := hrev hg
    have hown : a.owner = if a.core < 65536 then some a.core else none := by
      by_cases hc : a.core < 65536
      · have : a.ofUnit = false := by simp [Access.ofUnit, hc]
        simp [Access.owner, hwrite, this, hc]
      · have : a.ofUnit = true := by simp [Access.ofUnit]; omega
        simp [Access.owner, this, hc]
    refine ⟨fun w => ?_, fun hn d => ?_, hwide⟩
    · rw [hland.owners hg, hown]
      have hsub : w ∈ fullWords a.key bs.length → w ∈ wordsOf a.key bs.length := fun h => (List.mem_filter.1 h).1
      by_cases hc : a.core < 65536
      · by_cases hf : w ∈ fullWords a.key bs.length
        · simp [hc, hf, hsub hf]
        · simp [hc, hf]
      · simp [hc]
    · rw [hnarrow hn, mem_losers, hown]
      refine exists_congr fun w => and_congr_right fun _ => and_congr_right fun _ => not_congr ?_
      by_cases hc : a.core < 65536
      · simp only [hc, if_true, Option.some.injEq, true_and, eq_comm]
      · simp [hc]
  · have hnow : (!a.held && s.mayPerform a) = true := by simp [hnot, hmay]
    obtain rfl : a.id = id := by simpa using List.find?_some ha
    have hexec : exec (.storePerform a.id) s = .next (s.modAccess a.id fun a => { a with held := true }) := by
      change execStorePerform a.id s = _
      simp [execStorePerform, ha, hw, hnot, hmay, State.doStore, hheld]
    exact ⟨_, hexec, rfl, access_modAccess ha (fun a => { a with held := true }) fun _ => rfl⟩
  · intro old new hheld hknown
    obtain rfl : a.id = id := by simpa using List.find?_some ha
    have hread : a.isRead = false := by simp [Access.isRead, hw]
    have hcorr := corrected_eq s a.key
    have hexec : exec (.atomicPerform a.id) s =
        .next (((((s.corrected a.key).land a new).deliver a old).modAccess a.id fun a => { a with dests := [] }).settleCore a.core) := by
      have hecc' : (s.corrected a.key).eccBad a.key = false := by rw [hcorr]; exact hecc
      have hheld' : (s.corrected a.key).accHeld a new = false := by rw [hcorr]; exact hheld
      have hlocal' : ¬ (a.global && !(s.corrected a.key).local_ a.key) = true := by
        intro h
        rw [Bool.and_eq_true] at h
        obtain ⟨hg, hl⟩ := h
        rw [show (s.corrected a.key).local_ a.key = s.local_ a.key by rw [hcorr]; rfl, hlocal hg] at hl
        cases hl
      have hbound (m : State) : m.boundAcq a = m := if_neg (by simp [hacq])
      change execAtomicPerform a.id s = _
      unfold execAtomicPerform State.doAtomic
      simp only [ha, hw, hnot, hmay, hpath, homeRead_of_home hlocal, hecc', hlocal', hbound, Bool.not_false, Bool.and_self, if_true, Bool.not_true,
        Bool.false_eq_true, if_false]
      exact congrArg Host.Outcome.next (if_neg (Bool.eq_false_iff.1 hheld'))
    generalize hs0 : s.corrected a.key = s0 at hexec hcorr
    have hknown0 : SameTeams noVers a.uid s s0 := .of_teams hknown (by rw [hcorr])
    have hland := landed (bs := new) hknown0.known (show s0.access? a.id = some a by rw [hcorr]; exact ha) hread
      (fun hg => by rw [hcorr]; exact hlocal hg)
    generalize s0.land a new = m at hexec hland
    obtain ⟨hdel, hteams⟩ := deliver_spec (a := a) old hland.teams.known
    obtain ⟨r, hacc, -⟩ := hland.access
    have hm {r q : Nat} {t : Team} (hd : a.dests = [.scalar r]) (ht : m.teamOf a.uid = some (q, t)) := deliver_scalar (v := old) hd ht
    generalize m.deliver a old = n at hexec hdel hteams hm
    have hset := settleCore_eq (n.modAccess a.id fun a => { a with dests := [] }) a.core
    generalize (n.modAccess a.id fun a => { a with dests := [] }).settleCore a.core = s' at hexec hset
    have hs' : s'.teams = n.teams := by rw [hset]; rfl
    refine ⟨s', { a with stage := 1, held := false, revoke := r, dests := [] }, hexec, fun q => ?_, ?_, ?_, fun hg w hword => ?_, fun k t r hof hd hr => ?_,
      fun k t ht hne => ?_⟩
    · have hmem : s'.memGet q = m.memGet q := memGet_congr (by rw [hset, hdel]; rfl) q
      rw [hmem, hland.mem, hcorr]
      rfl
    · have hnacc : n.access? a.id = some { a with stage := 1, held := false, revoke := r } := by rw [hdel]; exact hacc
      have hmod := access_modAccess hnacc (fun a => { a with dests := [] }) fun _ => rfl
      rw [hset]
      exact hmod
    · rw [hnot]
    · have howners : s'.owners = m.owners := by rw [hset, hdel]; rfl
      have hnew : new.length = a.len := length_toLe ..
      have hown : a.owner = none := by simp [Access.owner, Access.isWrite, hw]
      rw [howners, hland.owners hg, hnew, if_pos hword, hown]
    · obtain ⟨t0, h01, -, h03⟩ := hknown0.named k t hof
      obtain ⟨t1, h11, -, h13⟩ := hland.teams.named k t0 h01
      have hrs : (noVers t1).rs = (noVers t).rs := congrArg Team.rs (h13.trans h03)
      change t1.rs = t.rs at hrs
      rw [hs', hm hd h11]
      refine ⟨_, Tbl.find_put_same .., fun q => ?_⟩
      rw [Team.rs_ws, hrs]
      simp only [Fin.ext_iff, sregAt_zero hr]
    · have h0 := hknown0.find_of_uid hknown ht hne
      have h1 := hland.teams.find_of_uid hknown0.known h0 hne
      rw [hs']
      exact hteams.find_of_uid hland.teams.known h1 hne

end Sys2Proof.Proofs

end

section
/-! R296, R390: revocations and acknowledgements. -/

open Sys2Proof Sys2Proof.Machine

namespace Sys2Proof.Proofs

/-! A core that loses words (R296). -/

/-- The core holds nothing of a word: it does not own it, and no copy has it valid. -/
def Lacks (c : Core) (w : Nat) : Prop := c.own.find w = none ∧ ∀ l ∈ c.l1, l.line = w / 32 → l.valid.getLsbD (w % 32) = false

theorem revokeWord_lacks (c : Core) (w : Nat) : Lacks (c.revokeWord w) w := by
  refine ⟨Tbl.find_del_same .., fun l hl hline => ?_⟩
  obtain ⟨l0, -, rfl⟩ := List.mem_map.1 hl
  have hlt : w % 32 < 32 := Nat.mod_lt _ (by decide)
  by_cases hl0 : (l0.line == w / 32) = true
  · simp only [hl0, if_true]
    simp [bit32, hlt]
  · simp only [hl0] at hline
    exact absurd (by simpa using hline) hl0

theorem Lacks.revokeWord {c : Core} {w : Nat} (h : Lacks c w) (v : Nat) : Lacks (c.revokeWord v) w := by
  obtain ⟨hown, hl1⟩ := h
  refine ⟨?_, fun l hl hline => ?_⟩
  · unfold Core.revokeWord
    rw [Tbl.find_del]
    split
    · rfl
    · exact hown
  · obtain ⟨l0, hl0, rfl⟩ := List.mem_map.1 hl
    by_cases hv : (l0.line == v / 32) = true
    · simp only [hv, if_true] at hline ⊢
      rw [BitVec.getLsbD_and, hl1 l0 hl0 hline, Bool.false_and]
    · simp only [hv] at hline ⊢
      exact hl1 l0 hl0 hline

theorem revokeWords_lack (ws : List Nat) (c : Core) {w : Nat} (h : w ∈ ws ∨ Lacks c w) : Lacks (ws.foldl Core.revokeWord c) w := by
  induction ws generalizing c with
  | nil =>
    obtain h | h := h
    · cases h
    · exact h
  | cons v ws ih =>
    refine ih _ ?_
    obtain h | h := h
    · obtain rfl | h := List.mem_cons.1 h
      · exact .inr (revokeWord_lacks c w)
      · exact .inl h
    · exact .inr (h.revokeWord v)

theorem revokeWords_core (ws : List Nat) (c : Core) :
    ws.foldl Core.revokeWord c = { c with l1 := (ws.foldl Core.revokeWord c).l1, own := (ws.foldl Core.revokeWord c).own } := by
  induction ws generalizing c with
  | nil => rfl
  | cons w ws ih =>
    rw [List.foldl_cons, ih]
    rfl

theorem core_revokeAt (s : State) (core pa len d : Nat) : (s.revokeAt core pa len).core d =
    if d = core then (wordsOf pa len).foldl Core.revokeWord (s.core core) else s.core d := State.core_modCore ..

/-! Contexts whose halt by a debugger is over (R382). -/

theorem Tbl.get_map {α : Type} (d : α) (f : Nat × α → Nat × α) (hf : ∀ c, (f c).1 = c.1) (t : Tbl α) (x : Nat) :
    Tbl.get d (t.map f) x = d ∧ t.find x = none ∨ ∃ v, t.find x = some v ∧ Tbl.get d (t.map f) x = (f (x, v)).2 := by
  induction t with
  | nil => exact .inl ⟨rfl, rfl⟩
  | cons c t ih =>
    obtain ⟨k, v⟩ := c
    by_cases hx : x = k
    · subst hx
      refine .inr ⟨v, by simp [Tbl.find], ?_⟩
      have h1 : (f (x, v)) = (x, (f (x, v)).2) := Prod.ext (hf _) rfl
      rw [List.map_cons, h1]
      simp [Tbl.get]
    · have h1 : (f (k, v)) = (k, (f (k, v)).2) := Prod.ext (hf _) rfl
      rw [List.map_cons, h1]
      simpa [Tbl.get, Tbl.find, hx] using ih

theorem ctx_dbgSettle (s : State) (d : Nat) : s.dbgSettle.ctx d = { s.ctx d with dbgFrozen := (s.dbgSettle.ctx d).dbgFrozen } ∧
    ((s.ctx d).dbgHalt = false → s.dbgSettle.ctx d = s.ctx d) := by
  have hmap := Tbl.get_map Ctx.zero (fun c : Nat × Ctx => if s.settled c then (c.1, { c.2 with dbgFrozen := true }) else c)
    (fun c => by dsimp only; split <;> rfl) s.ctxs d
  have hs : s.dbgSettle.ctx d = Tbl.get Ctx.zero
    (s.ctxs.map fun c : Nat × Ctx => if s.settled c then (c.1, { c.2 with dbgFrozen := true }) else c) d := rfl
  rw [← hs] at hmap
  have h0 : s.ctx d = (s.ctxs.find d).getD Ctx.zero := Tbl.get_eq_find ..
  obtain ⟨h1, h2⟩ | ⟨v, h1, h2⟩ := hmap
  · have heq : s.dbgSettle.ctx d = s.ctx d := by rw [h1, h0, h2]; rfl
    rw [heq]
    exact ⟨rfl, fun _ => rfl⟩
  · rw [h1, Option.getD_some] at h0
    rw [h0]
    by_cases hset : s.settled (d, v) = true
    · simp only [hset, if_true] at h2
      rw [h2]
      refine ⟨rfl, fun hno => ?_⟩
      simp [State.settled, hno] at hset
    · simp only [hset] at h2
      rw [h2]
      exact ⟨rfl, fun _ => rfl⟩

/-- Settles O32. -/
theorem revokeThenAcknowledge : Obligations.RevokeThenAcknowledge := by
  refine ⟨fun id core a s ha hcore => ?_, fun id a s ha => ?_⟩
  · have hexec : exec (.revocation id core) s = .next ((s.revokeAt core a.key a.len).modAccess id fun a =>
        { a with revoke := a.revoke.filter (· != core) }) := by
      change execRevocation id core s = _
      simp [execRevocation, ha, hcore]
    have hc (d : Nat) : ((s.revokeAt core a.key a.len).modAccess id fun a => { a with revoke := a.revoke.filter (· != core) }).core d =
        if d = core then (wordsOf a.key a.len).foldl Core.revokeWord (s.core core) else s.core d := core_revokeAt ..
    refine ⟨_, _, hexec, rfl, access_modAccess (s := s.revokeAt core a.key a.len) ha _ fun _ => rfl, rfl, fun d hd => ?_, ?_, fun w hw => ?_⟩
    · rw [hc, if_neg hd]
    · rw [hc, if_pos rfl]
      exact revokeWords_core ..
    · rw [hc, if_pos rfl]
      exact revokeWords_lack _ _ (.inl hw)
  · obtain rfl : a.id = id := by simpa using List.find?_some ha
    have hexec : exec (.writeAcknowledge a.id) s = .next (s.doAck a).dbgSettle := by
      change execWriteAcknowledge a.id s = _
      simp [execWriteAcknowledge, ha]
    have hack : s.doAck a = { s with accs :=
        if a.stage = 1 ∧ a.revoke = [] ∧ s.onPath a = true then Claims.without s a.id else s.accs } := by
      unfold State.doAck
      by_cases h : a.stage = 1 ∧ a.revoke = [] ∧ s.onPath a = true
      · obtain ⟨h1, h2, h3⟩ := h
        simp only [h1, h2, h3]
        rfl
      · rw [if_neg h, if_neg (by simpa [and_assoc] using h)]
    refine ⟨_, hexec, ?_, ?_, fun d => ?_⟩
    · rw [hack]
      rfl
    · rw [hack]
      rfl
    · have hd : (s.doAck a).ctx d = s.ctx d := by rw [hack]; rfl
      rw [← hd]
      exact ctx_dbgSettle ..

end Sys2Proof.Proofs

end

section
/-! R189, R297, R368, R394: read responses. -/

open Sys2Proof Sys2Proof.Machine

namespace Sys2Proof.Proofs

/-- The bytes of a part of a line, out of the line's. -/
theorem memRead_of_line (s : State) {k n : Nat} (h : k % 128 + n ≤ 128) :
    ((s.memRead (k / 128 * 128) 128).drop (k % 128)).take n = s.memRead k n := by
  refine List.ext_getElem (by simp; omega) fun i hi hj => ?_
  have hk : k / 128 * 128 + (k % 128 + i) = k + i := by omega
  simp [State.memRead, hk]

/-- A read that is over: what it delivers to a scalar of its team, and what is left. -/
theorem bindRead_scalar {m : State} {a : Access} {v r q : Nat} {t : Team} (hd : a.dests = [.scalar r]) (hacq : a.acq = false)
    (ht : m.teamOf a.uid = some (q, t)) :
    ∃ l, m.bindRead a v = { m with accs := Claims.without m a.id, cores := l,
                                   teams := m.teams.put q (t.ws (sregAt 0 r) (BitVec.ofNat 64 (extendTo 64 a.len a.sx v))) } ∧
      ∀ d, d ≠ a.core → (m.bindRead a v).core d = m.core d := by
  have hbound (m : State) : m.boundAcq a = m := if_neg (by simp [hacq])
  have he : m.bindRead a v = ((m.deliver a v).dropAccess a.id).settleCore a.core := by
    unfold State.bindRead
    rw [hbound]
  have hdel := deliver_scalar (v := v) hd ht
  have hset := settleCore_eq ((m.deliver a v).dropAccess a.id) a.core
  refine ⟨(m.bindRead a v).cores, ?_, fun d hd' => ?_⟩
  · rw [he, hset, hdel]
    rfl
  · rw [he]
    have hcore (n : State) : (n.settleCore a.core).core d = n.core d := by
      unfold State.settleCore State.sweep
      dsimp only
      split
      · rfl
      · rw [State.core_modCore, if_neg hd']
    rw [hcore, hdel]
    rfl

/-- m is s but for a core's L1, shared caches, counts and the versions that a team has seen. -/
structure Ready (s m : State) (a : Access) (q : Nat) (t t1 : Team) : Prop where
  rest : m = { s with teams := m.teams, cores := m.cores, slices := m.slices, ctr := m.ctr, eccOnes := m.eccOnes, comp := m.comp,
                      free := m.free }
  cores : ∀ d, d ≠ a.core → m.core d = s.core d
  team : m.teamOf a.uid = some (q, t1)
  seen : t1 = { t with vers := t1.vers }
  others : ∀ k, k ≠ q → m.teams.find k = s.teams.find k

/-- A response to a plain read of a scalar binds it to what its home holds. -/
theorem respond_ready {s : State} {a : Access} {r q : Nat} {t : Team} (hpath : s.onPath a = true) (hecc : s.eccBad a.key = false)
    (hacq : a.acq = false) (hof : s.teamOf a.uid = some (q, t))
    (hg : a.global = true → s.local_ a.key = true ∧ (s.core a.core).l1Line (a.key / 128) = none ∧ t.vers.find (a.key / 128) = none ∧
      a.key % 128 + a.len ≤ 128) :
    ∃ m t1, s.respond a 0 = m.bindRead a (ofLe (s.memRead a.key a.len)) ∧ m.accs = s.accs ∧ Ready s m a q t t1 := by
  have hcorr := corrected_eq s a.key
  have hresp (hno : a.global = false) : s.respond a 0 = (s.corrected a.key).bindRead a (ofLe ((s.corrected a.key).memRead a.key a.len)) := by
    have hecc' : (s.corrected a.key).eccBad a.key = false := by rw [hcorr]; exact hecc
    simp [State.respond, hpath, hecc', hno]
  have hrespG (hyes : a.global = true) : s.respond a 0 = (let p := (s.corrected a.key).homeLine a.key a.cls; p.1.answer a p.2.1 p.2.2) := by
    have hecc' : (s.corrected a.key).eccBad a.key = false := by rw [hcorr]; exact hecc
    simp [State.respond, hpath, hecc', hyes]
  generalize s.corrected a.key = s0 at hcorr hresp hrespG
  cases hgl : a.global with
  | false =>
    refine ⟨s0, t, ?_, ?_, ?_, ?_, ?_, rfl, ?_⟩
    · rw [hresp hgl, hcorr]
      rfl
    · rw [hcorr]
    · rw [hcorr]
    · intro d _
      rw [hcorr]
      rfl
    · rw [hcorr]
      exact hof
    · intro k _
      rw [hcorr]
  | true =>
    obtain ⟨hl, hline, hver, hlen⟩ := hg hgl
    have hc := Cached.l2Access s0 a.key a.cls false
    unfold Cached at hc
    have hhome : s0.homeLine a.key a.cls = ((s0.l2Access a.key a.cls false).1,
        (s0.l2Access a.key a.cls false).1.memRead (a.key / 128 * 128) 128, (s0.l2Access a.key a.cls false).2) := by
      unfold State.homeLine
      rw [if_pos (by rw [hcorr]; exact hl)]
    rw [hrespG hgl, hhome]
    generalize s0.l2Access a.key a.cls false = p at hc
    obtain ⟨m, v⟩ := p
    dsimp only at hc ⊢
    have hm : m = { s with slices := m.slices, ctr := m.ctr, comp := m.comp, free := m.free, eccOnes := m.eccOnes } := by
      rw [hc, hcorr]
    have hof' : m.teamOf a.uid = some (q, t) := by rw [hm]; exact hof
    have hline' : (m.core a.core).l1Line (a.key / 128) = none := by rw [hm]; exact hline
    have hread : ((m.memRead (a.key / 128 * 128) 128).drop (a.key % 128)).take a.len = s.memRead a.key a.len := by
      rw [memRead_of_line m hlen, hm]
      rfl
    obtain ⟨m1, hm1, hrest1, hcore1⟩ : ∃ m1, (if a.acq || a.noFill then m else m.modCore a.core fun c =>
        c.fill (a.key / 128) (m.memRead (a.key / 128 * 128) 128) v (m.busyWords a.core (a.key / 128)) a.id) = m1 ∧
        m1 = { m with cores := m1.cores } ∧ ∀ d, d ≠ a.core → m1.core d = m.core d := by
      refine ⟨_, rfl, ?_, fun d hd => ?_⟩
      · split <;> rfl
      · split
        · rfl
        · rw [State.core_modCore, if_neg hd]
    have hans : m.answer a (m.memRead (a.key / 128 * 128) 128) v =
        (m1.noteVer a.uid (a.key / 128) v).bindRead a (ofLe (s.memRead a.key a.len)) := by
      have hlast : m.lastVer a.uid (a.key / 128) = none := by
        unfold State.lastVer
        rw [hof']
        exact hver
      unfold State.answer
      simp only [hline', hlast, hm1, hread]
      rfl
    have hof1 : m1.teamOf a.uid = some (q, t) := by rw [hrest1]; exact hof'
    have hnote : m1.noteVer a.uid (a.key / 128) v = { m1 with teams := m1.teams.put q { t with vers := t.vers.put (a.key / 128) v } } := by
      unfold State.noteVer
      rw [hof1]
    refine ⟨_, { t with vers := t.vers.put (a.key / 128) v }, hans, ?_, ?_, fun d hd => ?_, ?_, rfl, fun k hk => ?_⟩
    · rw [hnote, hrest1, hm]
    · rw [hnote, hrest1, hm]
    · have h1 : (m1.noteVer a.uid (a.key / 128) v).core d = m1.core d := by rw [hnote]; rfl
      rw [h1, hcore1 d hd, hm]
      rfl
    · rw [hnote]
      exact teamOf_put hof1 (uid_of_teamOf (t := t) hof1)
    · rw [hnote, hrest1, hm]
      exact Tbl.find_put_of_ne _ _ hk

/-- What a response with an error leaves before its fault: the slice of its home has noted the address. -/
theorem noteEcc_of_dropped (s : State) (a : Access) : ∃ m : State,
    (m = { s with accs := Claims.without s a.id, slices := m.slices, ctr := m.ctr, eccOnes := m.eccOnes } ∧
      ((s.corrected a.key).dropAccess a.id).noteEcc a.key = m) ∧
    (a.key < 2 ^ 56 → s.local_ a.key = true → (m.slice (s.sliceNo a.key)).ecc = a.key) := by
  have hcorr := corrected_eq s a.key
  generalize s.corrected a.key = m0 at hcorr ⊢
  refine ⟨_, ⟨?_, rfl⟩, fun hk hl => ?_⟩
  · unfold State.noteEcc
    split <;> rw [hcorr] <;> rfl
  · have hcond : (decide (a.key < 2 ^ 56) && (m0.dropAccess a.id).local_ a.key) = true := by
      rw [hcorr]
      exact Bool.and_eq_true_iff.mpr ⟨decide_eq_true hk, hl⟩
    have hslice : (m0.dropAccess a.id).sliceNo a.key = s.sliceNo a.key := by rw [hcorr]; rfl
    unfold State.noteEcc
    rw [if_pos hcond, hslice]
    simp [State.slice, State.setSlice]

/-- Settles O33: a read over a path without an error binds what its home holds; one with an error raises the halt line. -/
theorem readsDelivered : Obligations.ReadsDelivered := by
  refine ⟨fun id a r q t s ha hk hmay hpath hecc hd hr hacq hof hg => ?_, fun id a s ha hk hmay hpath hcore hno => ?_⟩
  · obtain rfl : a.id = id := by simpa using List.find?_some ha
    have hexec : exec (.readResponse a.id 0) s = .next (s.respond a 0) := by
      change execReadResponse a.id 0 s = _
      simp [execReadResponse, ha, Access.isRead, hk, hmay]
    obtain ⟨m, t1, hresp, haccs, hready⟩ := respond_ready (r := r) hpath hecc hacq hof hg
    obtain ⟨l, hbind, hcores⟩ := bindRead_scalar (v := ofLe (s.memRead a.key a.len)) hd hacq hready.team
    rw [hresp] at hexec
    generalize m.bindRead a (ofLe (s.memRead a.key a.len)) = s' at hexec hbind hcores
    have hrest := hready.rest
    refine ⟨s', t1.ws (sregAt 0 r) (BitVec.ofNat 64 (extendTo 64 a.len a.sx (ofLe (s.memRead a.key a.len)))), hexec, ?_,
      fun k => memGet_congr ?_ k, ?_, ?_, fun k hkq => ?_, fun d hd' => (hcores d hd').trans (hready.cores d hd'), ?_,
      fun k => ?_⟩
    · rw [hbind]
      exact congrArg (List.filter _) haccs
    · rw [hbind, hrest]
    · rw [hbind, hrest]
    · rw [hbind]
      exact Tbl.find_put_same ..
    · rw [hbind]
      exact (Tbl.find_put_of_ne _ _ hkq).trans (hready.others k hkq)
    · rw [Team.ws_frame, hready.seen]
    · have hrs : t1.rs = t.rs := by rw [hready.seen]; rfl
      rw [Team.rs_ws, hrs]
      simp only [Fin.ext_iff, sregAt_zero hr]
  · obtain rfl : a.id = id := by simpa using List.find?_some ha
    have hexec : exec (.readResponse a.id 3) s = .next (((s.corrected a.key).dropAccess a.id).eccFault a) := by
      change execReadResponse a.id 3 s = _
      simp [execReadResponse, ha, Access.isRead, hk, hmay, State.respond, hpath]
    obtain ⟨m, hm, hsl⟩ := noteEcc_of_dropped s a
    have hfault : ((s.corrected a.key).dropAccess a.id).eccFault a = m.fatalAt a.core (s.slotOf a.uid) .ecc (s.pcOf a.uid)
        (BitVec.ofNat 64 a.va) := by
      have hslot : m.slotOf a.uid = s.slotOf a.uid := by rw [hm.1]; rfl
      have hpc : m.pcOf a.uid = s.pcOf a.uid := by rw [hm.1]; rfl
      rw [State.eccFault, hm.2]
      dsimp only
      rw [if_neg (by omega), hslot, hpc]
    have hno' : (m.partn (m.partOf (stackOf a.core))).halting = none := by rw [hm.1]; exact hno
    obtain ⟨hrest, hraised⟩ := fatalAt_raises (slot := s.slotOf a.uid) (cause := .ecc) (resume := s.pcOf a.uid)
      (faddr := BitVec.ofNat 64 a.va) hno'
    rw [hfault] at hexec
    generalize m.fatalAt a.core (s.slotOf a.uid) .ecc (s.pcOf a.uid) (BitVec.ofNat 64 a.va) = s' at hexec hrest hraised
    refine ⟨s', hexec, ?_, ?_, fun hg hl => ?_⟩
    · rw [hrest, hm.1]
    · have hraised' : Claims.Raised m s' a.core ⟨a.core, .ecc, s.slotOf a.uid, s.pcOf a.uid, BitVec.ofNat 64 a.va, true⟩ := hraised
      rw [hm.1] at hraised'
      exact hraised'
    · rw [hrest]
      exact hsl (by simpa [Access.global] using hg) hl

end Sys2Proof.Proofs

end

section
/-! R30, R33, R86, R290: the events of a core. -/

open Sys2Proof Sys2Proof.Machine

namespace Sys2Proof.Proofs

/-! A result is written (R30, R93, R127). -/

/-- The flags that results in flight are to raise. -/
def raiseFlags (f : BitVec 5) (sh : Shadow) : BitVec 5 := if sh.done then f else f ||| sh.flags

theorem foldl_raiseFlags_or (l : List Shadow) (f g : BitVec 5) : l.foldl raiseFlags (f ||| g) = l.foldl raiseFlags f ||| g := by
  induction l generalizing f with
  | nil => rfl
  | cons x l ih =>
    have hx : raiseFlags (f ||| g) x = raiseFlags f x ||| g := by
      unfold raiseFlags
      split
      · rfl
      · rw [BitVec.or_assoc, BitVec.or_comm g, BitVec.or_assoc]
    rw [List.foldl_cons, List.foldl_cons, hx, ih]

theorem foldl_raiseFlags_filter (l : List Shadow) (f : BitVec 5) :
    (l.filter fun x => x.left != 0 || !x.done).foldl raiseFlags f = l.foldl raiseFlags f := by
  induction l generalizing f with
  | nil => rfl
  | cons x l ih =>
    rw [List.filter_cons]
    split
    · rw [List.foldl_cons, List.foldl_cons, ih]
    · next h =>
      have hdone : x.done = true := by
        cases hd : x.done
        · simp [hd] at h
        · rfl
      rw [ih, List.foldl_cons, raiseFlags, if_pos hdone]

theorem markDone_eq_set {l : List Shadow} {k : Nat} {sh : Shadow} (h : l[k]? = some sh) :
    markDone l k = l.set k { sh with done := true } := by
  obtain ⟨hk, rfl⟩ := List.getElem?_eq_some_iff.1 h
  refine List.ext_getElem (by simp [markDone]) fun i hi hj => ?_
  rw [List.getElem_set]
  simp only [markDone, List.getElem_map, List.getElem_zip, List.getElem_range, beq_iff_eq, eq_comm (a := i)]
  split
  · next hik =>
    subst hik
    rfl
  · rfl

/-- A result that is written raises its flags now, where it was to raise them later. -/
theorem flagsDue_afterWrite {t : Team} {k : Nat} {sh : Shadow} (h : t.shadows[k]? = some sh) (hd : sh.done = false) :
    ({ t with fstat := t.fstat ||| sh.flags, shadows := afterWrite t.shadows k } : Team).flagsDue = t.flagsDue := by
  obtain ⟨hk, hsh⟩ := List.getElem?_eq_some_iff.1 h
  have hsplit : t.shadows = t.shadows.take k ++ sh :: t.shadows.drop (k + 1) := by
    rw [← hsh, List.getElem_cons_drop, List.take_append_drop]
  have hset : t.shadows.set k { sh with done := true } = t.shadows.take k ++ { sh with done := true } :: t.shadows.drop (k + 1) :=
    List.set_eq_take_append_cons_drop .. |>.trans (if_pos hk)
  calc (afterWrite t.shadows k).foldl raiseFlags (t.fstat ||| sh.flags)
      = (t.shadows.set k { sh with done := true }).foldl raiseFlags (t.fstat ||| sh.flags) := by
        rw [afterWrite, foldl_raiseFlags_filter, markDone_eq_set h]
    _ = t.shadows.foldl raiseFlags t.fstat := by
        conv_rhs => rw [hsplit]
        rw [hset, List.foldl_append, List.foldl_append, List.foldl_cons, List.foldl_cons, foldl_raiseFlags_or]
        simp [raiseFlags, hd]

theorem mem_afterWrite {l : List Shadow} {k : Nat} {sh : Shadow} (h : l[k]? = some sh) (hl : sh.left ≠ 0) :
    { sh with done := true } ∈ afterWrite l k := by
  obtain ⟨hk, -⟩ := List.getElem?_eq_some_iff.1 h
  refine List.mem_filter.2 ⟨?_, by simp [hl]⟩
  rw [markDone_eq_set h]
  exact List.mem_set hk _

/-- The team once its result is written, and the core's value table. -/
theorem written_spec {s : State} {c slot : Nat} {t1 : Team} {sh : Shadow} (h : s.team? c slot = some t1) :
    ∃ l, s.written c slot sh = { s with teams := l, cores := (s.written c slot sh).cores, seq := (s.written c slot sh).seq } ∧
      l.find (tkey c slot) = some { t1 with fstat := t1.fstat ||| sh.flags } ∧ (∀ j, j ≠ tkey c slot → l.find j = s.teams.find j) ∧
      ∀ d, (s.written c slot sh).core d = match sh.key with
        | some (key, n) => if d = c then (s.core c).vtInsert key n s.seq sh.due else s.core d
        | none => s.core d := by
  obtain ⟨l, hm, hfind, hothers⟩ : ∃ l, (if sh.flags = 0 then s else s.modTeam c slot fun t => { t with fstat := t.fstat ||| sh.flags }) =
      { s with teams := l } ∧ l.find (tkey c slot) = some { t1 with fstat := t1.fstat ||| sh.flags } ∧
      ∀ j, j ≠ tkey c slot → l.find j = s.teams.find j := by
    by_cases hf : sh.flags = 0
    · refine ⟨s.teams, if_pos hf, ?_, fun _ _ => rfl⟩
      have hor : t1.fstat ||| 0 = t1.fstat := BitVec.or_zero
      rw [hf, hor]
      exact h
    · refine ⟨_, (if_neg hf).trans (modTeam_eq_setTeam _ h), Tbl.find_put_same .., fun j hj => Tbl.find_put_of_ne _ _ hj⟩
  unfold State.written
  rw [hm]
  refine ⟨l, ?_, hfind, hothers, fun d => ?_⟩
  · cases sh.key <;> rfl
  · cases sh.key with
    | none => rfl
    | some p =>
      show (State.modCore { s with teams := l } c fun x => x.vtInsert p.1 p.2 s.seq sh.due).core d = _
      rw [State.core_modCore]
      rfl

theorem writes_result {s : State} {c slot k : Nat} {t : Team} {sh : Shadow} (h : s.team? c slot = some t) (hk : t.shadows[k]? = some sh)
    (hd : sh.done = false) :
    exec (.fixedLatencyWrite (.team c slot) k) s = .next (if sh.due ≤ s.cycle then
      (s.setTeam c slot { t with shadows := afterWrite t.shadows k }).written c slot sh else s) := by
  change execFixedLatencyWrite (.team c slot) k s = _
  have hdue : dueNow t.shadows s.cycle k = if sh.due ≤ s.cycle then some sh else none := by
    simp [dueNow, hk, hd, Option.filter]
  by_cases hc : sh.due ≤ s.cycle
  · simp only [execFixedLatencyWrite, h, hdue, if_pos hc]
  · simp only [execFixedLatencyWrite, h, hdue, if_neg hc]

/-- What a slice that is released leaves. -/
theorem releases {s : State} {core n : Nat} (hp : ((s.core core).phys.find n).isSome = true) (hr : s.refs core n = 0)
    (hn : s.slicePending core n = false) : exec (.sliceRelease core n) s = .next (s.modCore core fun c => c.release n) := by
  change execSliceRelease core n s = _
  rw [execSliceRelease, if_neg]
  simp [Option.isNone_iff_eq_none, Option.isSome_iff_ne_none.1 hp, hr, hn]

/-! A line of code arrives (R33). -/

theorem ofLe_lt (b : List Byte) : ofLe b < 256 ^ b.length := by
  induction b with
  | nil => decide
  | cons x b ih =>
    have hx : x.toNat < 256 := x.isLt
    rw [ofLe, List.length_cons, Nat.pow_succ]
    omega

theorem toNat_ofLe8 {b : List Byte} (h : b.length ≤ 8) : (BitVec.ofNat 64 (ofLe b)).toNat = ofLe b := by
  rw [BitVec.toNat_ofNat, Nat.mod_eq_of_lt]
  have := ofLe_lt b
  calc ofLe b < 256 ^ b.length := this
    _ ≤ 256 ^ 8 := Nat.pow_le_pow_right (by decide) h
    _ = 2 ^ 64 := by decide

/-- A word of the 256 bytes of a line of code. -/
theorem le64_memRead (s : State) (pa : Nat) {k : Nat} (hk : k < 32) :
    (BitVec.ofNat 64 (le64 (s.memRead pa 256) (8 * k))).toNat = ofLe (s.memRead (pa + 8 * k) 8) := by
  have hread : ((s.memRead pa 256).drop (8 * k)).take 8 = s.memRead (pa + 8 * k) 8 := by
    refine List.ext_getElem (by simp [State.memRead]; omega) fun i hi hj => ?_
    simp [State.memRead, Nat.add_assoc]
  rw [le64, hread, toNat_ofLe8 (by simp [State.memRead])]

/-- m is s but for what the fetch of a line changes: the shared instruction caches and what accesses change on their way. -/
def Fetched (s m : State) : Prop :=
  m = { s with stks := m.stks, slices := m.slices, eccOnes := m.eccOnes, ctr := m.ctr, comp := m.comp, free := m.free, sent := m.sent,
               walks := m.walks }

/-- A line that is fetched through an empty shared instruction cache. -/
theorem codeLine_fetched {s : State} {st ctx line pa cls : Nat} (hc : Claims.Clean s) (hi : (s.stk st).icache = []) (hl : s.local_ pa = true) :
    ∃ (m : State) (l : IcLine), s.codeLine st ctx line pa cls = (m, some l) ∧ l.ctx = ctx ∧ l.line = line ∧ l.bad = false ∧
      l.words = ((List.range 32).map fun i => BitVec.ofNat 64 (le64 (s.memRead pa 256) (8 * i))) ∧
      Fetched s m := by
  have haside : Aside s ((s.readAt pa cls).readAt (pa + 128) cls) := (Aside.readAt ..).trans (.readAt ..)
  unfold State.codeLine
  rw [hi, List.find?_nil]
  dsimp only
  generalize (s.readAt pa cls).readAt (pa + 128) cls = n at haside
  have hclean : Claims.Clean n := by rw [haside]; exact hc
  have hl' : n.local_ pa = true := by rw [haside]; exact hl
  have hread : n.homeRead pa 256 = s.memRead pa 256 := by
    unfold State.homeRead
    rw [hl', Bool.not_true, Bool.and_false, if_neg Bool.false_ne_true, haside]
    rfl
  rw [eccBad_of_clean hclean, eccBad_of_clean hclean, if_neg Bool.false_ne_true, if_neg Bool.false_ne_true, if_pos hl', hread]
  refine ⟨_, _, rfl, rfl, rfl, rfl, rfl, ?_⟩
  unfold Fetched
  rw [haside]
  rfl

/-- The arrival of a line that the core does not hold. -/
theorem fillCode_arrives {s : State} {core line ctx : Nat} {e : TlbE} (hi : (s.core core).icLine ctx (256 * line) = none)
    (hw : s.walkWaits core ctx (256 * line) = false) (hc : Claims.Clean s) (hk : (s.stk (stackOf core)).icache = [])
    (ht : s.translate core ctx (256 * line) = .ok e) (hx : e.x = true) (hl : s.local_ (e.phys (256 * line)) = true) :
    ∃ (m : State) (l : IcLine), s.fillCode core line ctx = ((m.modCore core fun c => c.icPut l m.seq).unslip core ctx line).tickSeq ∧
      l.ctx = ctx ∧ l.line = line ∧ l.bad = false ∧
      l.words = ((List.range 32).map fun i => BitVec.ofNat 64 (le64 (s.memRead (e.phys (256 * line)) 256) (8 * i))) ∧
      Fetched s m := by
  obtain ⟨hrest, hparts⟩ := walked_tlbFill s core ctx (256 * line)
  unfold State.fillCode
  rw [hi, hw, ht]
  simp only [hx, Option.isSome_none, Bool.or_false, Bool.false_eq_true, Bool.not_true, if_false]
  generalize s.tlbFill core ctx (256 * line) = n at hrest hparts
  have hn : n = { s with slices := n.slices, eccOnes := n.eccOnes, ctr := n.ctr, comp := n.comp, free := n.free, sent := n.sent,
                         walks := n.walks } := by
    rw [hrest, hparts hc]
  have hmem (k : Nat) : n.memRead k 256 = s.memRead k 256 := by rw [hn]; rfl
  obtain ⟨m, l, hcode, hlctx, hlline, hlbad, hlwords, hm⟩ := codeLine_fetched (s := n) (st := stackOf core) (ctx := ctx) (line := line)
    (pa := e.phys (256 * line)) (cls := e.cls) (by rw [hn]; exact hc) (by rw [hn]; exact hk) (by rw [hn]; exact hl)
  rw [hcode]
  refine ⟨m, l, rfl, hlctx, hlline, hlbad, ?_, ?_⟩
  · rw [hlwords, hmem]
  · unfold Fetched at hm ⊢
    rw [hm, hn]

/-! A page walk ends (R290, R191). -/

/-- What ends of walks leave: reads in flight for prefetches, TLB entries, and what accesses change on their way. -/
structure WalkEnds (s m : State) (new : List Access) : Prop where
  rest : m = { s with cores := m.cores, accs := m.accs, ctr := m.ctr, seq := m.seq, slices := m.slices, sent := m.sent, free := m.free,
                      eccOnes := m.eccOnes, comp := m.comp }
  cores : ∀ d, m.core d = { s.core d with tlb := (m.core d).tlb }
  accs : m.accs = s.accs ++ new
  plain : ∀ q ∈ new, q.kind = .read ∧ q.dests = [] ∧ q.uid = 0

theorem WalkEnds.refl (s : State) : WalkEnds s s [] := ⟨rfl, fun _ => rfl, (List.append_nil _).symm, fun _ hq => absurd hq List.not_mem_nil⟩

theorem WalkEnds.trans {a b c : State} {new new' : List Access} (h : WalkEnds a b new) (g : WalkEnds b c new') : WalkEnds a c (new ++ new') := by
  refine ⟨?_, fun d => ?_, ?_, fun q hq => (List.mem_append.1 hq).elim (h.plain q) (g.plain q)⟩
  · rw [g.rest, h.rest]
  · rw [g.cores d, h.cores d]
  · rw [g.accs, h.accs, List.append_assoc]

theorem WalkEnds.clean {s m : State} {new : List Access} (h : WalkEnds s m new) (hc : Claims.Clean s) : Claims.Clean m := by
  rw [h.rest]
  exact hc

theorem WalkEnds.of_aside {s m : State} (h : Aside s m) : WalkEnds s m [] := by
  unfold Aside at h
  refine ⟨?_, fun d => ?_, ?_, fun _ hq => absurd hq List.not_mem_nil⟩
  · rw [h]
  · rw [h]; rfl
  · rw [h, List.append_nil]

/-- Walks read the tables alone, where no data are bad. -/
theorem walkFrom_congr {s m : State} (hs : Claims.Clean s) (hm : Claims.Clean m) (hread : ∀ k, m.homeRead k 8 = s.homeRead k 8)
    (hpte : ∀ e lvl, m.pteBad e lvl = s.pteBad e lvl) (ctx va fuel lvl t : Nat) : m.walkFrom ctx va fuel lvl t = s.walkFrom ctx va fuel lvl t := by
  induction fuel generalizing lvl t with
  | zero => rfl
  | succ fuel ih => simp only [State.walkFrom, hread, hpte, eccBad_of_clean hs, eccBad_of_clean hm, ih]

theorem walk_congr {s m : State} (hc : Claims.Clean s) (hrest : m = { s with
    cores := m.cores, accs := m.accs, ctr := m.ctr, seq := m.seq, slices := m.slices, sent := m.sent, free := m.free,
    eccOnes := m.eccOnes, comp := m.comp, walks := m.walks }) (ctx va : Nat) :
    m.walk ctx va = State.walk { s with free := m.free } ctx va := by
  have hm : Claims.Clean m := by
    rw [hrest]
    exact hc
  have hfrom := walkFrom_congr (s := { s with free := m.free }) (m := m) hc hm (fun k => by rw [hrest]; rfl) (fun e lvl => by rw [hrest]; rfl)
    ctx va 5 0
  unfold State.walk
  dsimp only
  rw [hfrom]
  generalize State.walkFrom { s with free := m.free } ctx va 5 0 = w
  rw [hrest]
  rfl

theorem walkFrom_ok {s : State} {ctx va fuel lvl t : Nat} {e : TlbE} (h : s.walkFrom ctx va fuel lvl t = .ok e) :
    e.ctx = ctx ∧ 16 ≤ e.lg ∧ e.va = va / 2 ^ e.lg * 2 ^ e.lg := by
  induction fuel generalizing lvl t with
  | zero => simp [State.walkFrom] at h
  | succ fuel ih =>
    unfold State.walkFrom at h
    dsimp only at h
    split at h
    · cases h
    · split at h
      · cases h
      · split at h
        · cases h
        · split at h
          · cases h
            refine ⟨rfl, ?_, rfl⟩
            show 16 ≤ pageLog lvl
            unfold pageLog
            split <;> decide
          · exact ih h

/-- What a walk finds translates every place of its page of 64 KB. -/
theorem hits_of_walk {s : State} {ctx va : Nat} {e : TlbE} (h : s.walk ctx va = .ok e) {va' : Nat} (hva : va' / 65536 = va / 65536) :
    e.hits ctx va' = true := by
  have hfrom : ∃ t, s.walkFrom ctx va 5 0 t = .ok e := by
    unfold State.walk at h
    split at h
    · cases h
    · dsimp only at h
      split at h
      · unfold State.reached at h
        split at h
        · next heq =>
          split at h
          · cases h
            exact ⟨_, heq⟩
          · cases h
        · exact ⟨_, h⟩
      · cases h
  obtain ⟨t, hfrom⟩ := hfrom
  obtain ⟨hctx, hlg, hva'⟩ := walkFrom_ok hfrom
  have hdiv : va' / 2 ^ e.lg = va / 2 ^ e.lg := by
    have hpow : 2 ^ e.lg = 65536 * 2 ^ (e.lg - 16) := by
      rw [show 65536 = 2 ^ 16 by decide, ← Nat.pow_add]
      congr 1
      omega
    rw [hpow, ← Nat.div_div_eq_div_mul, ← Nat.div_div_eq_div_mul, hva]
  simp [TlbE.hits, hctx, hdiv, ← hva']

theorem WalkEnds.walk {s m : State} {new : List Access} (h : WalkEnds s m new) (hc : Claims.Clean s) (ctx va : Nat) :
    m.walk ctx va = State.walk { s with free := m.free } ctx va :=
  walk_congr hc (by rw [h.rest]) ctx va

/-- Whether the core that missed has a translation. -/
def Met (s : State) (w : Walk) : Prop := (s.core w.core).tlb.any (fun y => y.hits w.ctx w.va) = true

/-- A plain global read whose line the L1 lacks is sent with what its home holds. -/
theorem startRead_misses {s : State} {a : Access} (hacq : a.acq = false) (hl : (s.core a.core).l1Line (a.key / 128) = none) :
    s.startRead a .glob = (s.homeLine a.key a.cls).1.send { a with snap := some ((s.homeLine a.key a.cls).2.1, (s.homeLine a.key a.cls).2.2) } := by
  have hmiss (vers : Tbl W32) : (if a.acq || s.ahead a then none else (s.core a.core).l1Hit vers a.key a.len) = none := by
    split
    · rfl
    · unfold Core.l1Hit
      rw [hl]
  unfold State.startRead
  rw [if_neg (by decide), if_neg (by decide)]
  simp only [hmiss]
  rw [if_neg (Bool.eq_false_iff.1 hacq)]

theorem WalkEnds.send (s : State) {a : Access} (h : a.kind = .read ∧ a.dests = [] ∧ a.uid = 0) :
    ∃ q, WalkEnds s (s.send a) [q] ∧ (∀ d, (s.send a).core d = s.core d) ∧ q.core = a.core ∧ q.key = a.key := by
  unfold State.send
  split
  · exact ⟨_, ⟨rfl, fun _ => rfl, rfl, fun q hq => by rw [List.mem_singleton.1 hq]; exact h⟩, fun _ => rfl, rfl, rfl⟩
  · exact ⟨_, ⟨rfl, fun _ => rfl, rfl, fun q hq => by rw [List.mem_singleton.1 hq]; exact h⟩, fun _ => rfl, rfl, rfl⟩

/-- A prefetch of a line that the L1 lacks puts one read of it in flight. -/
theorem prefetch_reads (s : State) (core ctx va : Nat) (l2 : Bool) (e : TlbE) :
    ∃ new, WalkEnds s (s.prefetch ⟨core, ctx, 0, 0, 0, 0⟩ l2 e va) new ∧
      (∀ d, (s.prefetch ⟨core, ctx, 0, 0, 0, 0⟩ l2 e va).core d = s.core d) ∧
      (e.r = true → l2 = false → (s.core core).l1Line (e.phys va / 128) = none → ∃ q ∈ new, q.core = core ∧ q.key = e.phys va / 128 * 128) := by
  have hnone (m : State) (h : Aside s m) (hno : ¬ (e.r = true ∧ l2 = false ∧ (s.core core).l1Line (e.phys va / 128) = none)) :
      ∃ new, WalkEnds s m new ∧ (∀ d, m.core d = s.core d) ∧
        (e.r = true → l2 = false → (s.core core).l1Line (e.phys va / 128) = none → ∃ q ∈ new, q.core = core ∧ q.key = e.phys va / 128 * 128) :=
    ⟨[], .of_aside h, h.walk.core, fun hr hl2 hline => absurd ⟨hr, hl2, hline⟩ hno⟩
  have hkey : e.phys va / 128 * 128 / 128 = e.phys va / 128 := by omega
  unfold State.prefetch
  dsimp only
  rw [hkey]
  split
  · next hr => exact hnone s (.refl s) fun ⟨h, _⟩ => by simp [h] at hr
  · split
    · next hl2 =>
      refine hnone _ ?_ fun ⟨_, h, _⟩ => by simp [h] at hl2
      split
      · exact .l2Access ..
      · exact .refl s
    · split
      · next hline => exact hnone s (.refl s) fun ⟨_, _, h⟩ => by simp [h] at hline
      · next hline =>
        generalize ha : ({ mkAccess ⟨core, ctx, 0, 0, 0, 0⟩ .read ⟨va / 128 * 128, e.phys va / 128 * 128, e.cls⟩ 4 s.seq with uid := 0 } : Access) = a
        have hacq : a.acq = false := by rw [← ha]; rfl
        have hplain : a.kind = .read ∧ a.dests = [] ∧ a.uid = 0 := by rw [← ha]; exact ⟨rfl, rfl, rfl⟩
        have hcore : a.core = core := by rw [← ha]; rfl
        have hakey : a.key = e.phys va / 128 * 128 := by rw [← ha]; rfl
        have hstart := startRead_misses (s := s) hacq (by rw [hcore, hakey, hkey]; exact Option.not_isSome_iff_eq_none.1 hline)
        have haside : Aside s (s.homeLine a.key a.cls).1 := .homeLine ..
        rw [hstart]
        generalize s.homeLine a.key a.cls = p at haside
        obtain ⟨q, hends, hcores, hqc, hqk⟩ := WalkEnds.send p.1 (a := { a with snap := some (p.2.1, p.2.2) }) hplain
        refine ⟨[] ++ [q], (WalkEnds.of_aside haside).trans hends, fun d => (hcores d).trans (haside.walk.core d), fun _ _ _ =>
          ⟨q, List.mem_singleton_self q, hqc.trans hcore, hqk.trans hakey⟩⟩

/-- The end of a walk for one miss. -/
theorem walked_spec {s : State} {w : Walk} : ∃ new, WalkEnds s (s.walked w) new ∧
    (∀ x : Walk, x.ctx = w.ctx → x.va / 65536 = w.va / 65536 → Met s x → Met (s.walked w) x) ∧
    ∀ e, s.walk w.ctx w.va = .ok e → (w.core < 65536 → Met (s.walked w) w) ∧
      (e.r = true → w.pre = some false → (s.core w.core).l1Line (e.phys w.va / 128) = none →
        ∃ q ∈ new, q.core = w.core ∧ q.key = e.phys w.va / 128 * 128) := by
  cases hw : s.walk w.ctx w.va with
  | unmapped =>
    have hs : s.walked w = s := by rw [State.walked, hw]
    rw [hs]
    exact ⟨[], .refl s, fun _ _ _ h => h, fun e he => by cases he⟩
  | noperm =>
    have hs : s.walked w = s := by rw [State.walked, hw]
    rw [hs]
    exact ⟨[], .refl s, fun _ _ _ h => h, fun e he => by cases he⟩
  | ok e =>
    obtain ⟨n, hn, hends, hmet, hown, hl1⟩ : ∃ n, (if decide (65536 ≤ w.core) || (s.core w.core).tlb.any fun x => x.hits w.ctx w.va then s
        else s.modCore w.core fun c => { c with tlb := e :: leave 3 256 e.va s.seq c.tlb }) = n ∧ WalkEnds s n [] ∧
        (∀ x : Walk, x.ctx = w.ctx → x.va / 65536 = w.va / 65536 → Met s x → Met n x) ∧ (w.core < 65536 → Met n w) ∧
        ∀ d, (n.core d).l1Line = (s.core d).l1Line := by
      refine ⟨_, rfl, ?_⟩
      have hcore (d : Nat) : (s.modCore w.core fun c => { c with tlb := e :: leave 3 256 e.va s.seq c.tlb }).core d =
          if d = w.core then { s.core w.core with tlb := e :: leave 3 256 e.va s.seq (s.core w.core).tlb } else s.core d := State.core_modCore ..
      split
      · next hskip =>
        refine ⟨.refl s, fun _ _ _ h => h, fun hlt => ?_, fun _ => rfl⟩
        simpa [Met, Nat.not_le.2 hlt] using hskip
      · refine ⟨⟨rfl, fun d => ?_, (List.append_nil _).symm, fun _ hq => absurd hq List.not_mem_nil⟩, fun x hx hva hmx => ?_, fun _ => ?_, fun d => ?_⟩
        · rw [hcore]
          split
          · next hd => rw [hd]
          · rfl
        · unfold Met at hmx ⊢
          rw [hcore]
          split
          · rw [hx, List.any_cons, hits_of_walk hw hva, Bool.true_or]
          · exact hmx
        · unfold Met
          rw [hcore, if_pos rfl, List.any_cons, hits_of_walk hw rfl, Bool.true_or]
        · rw [hcore]
          split
          · next hd => rw [hd]; rfl
          · rfl
    have hwalked : s.walked w = match w.pre with | some l2 => n.prefetch ⟨w.core, w.ctx, 0, 0, 0, 0⟩ l2 e w.va | none => n := by
      unfold State.walked
      rw [hw]
      dsimp only
      cases w.pre <;> simp only [hn]
    rw [hwalked]
    cases hpre : w.pre with
    | none =>
      exact ⟨[], hends, hmet, fun e' he => ⟨hown, fun _ hp => by cases hp⟩⟩
    | some l2 =>
      obtain ⟨new, hp, hcores, hread⟩ := prefetch_reads n w.core w.ctx w.va l2 e
      have hmet' (x : Walk) (h : Met n x) : Met (n.prefetch ⟨w.core, w.ctx, 0, 0, 0, 0⟩ l2 e w.va) x := by
        unfold Met at h ⊢
        rw [hcores]
        exact h
      refine ⟨[] ++ new, hends.trans hp, fun x hx hva h => hmet' x (hmet x hx hva h), fun e' he => ?_⟩
      cases he
      exact ⟨fun h => hmet' w (hown h), fun hr hl2 hline => hread hr (Option.some.inj hl2) (by rw [hl1]; exact hline)⟩

/-- The ends of the walks of one page, one after another. -/
theorem walkeds_spec {s : State} (hc : Claims.Clean s) {ctx page : Nat} (l : List Walk) (hl : ∀ x ∈ l, x.ctx = ctx ∧ x.va / 65536 = page)
    (hwalk : ∀ x ∈ l, ∀ f, State.walk { s with free := f } x.ctx x.va = s.walk x.ctx x.va) {m : State} {new : List Access} (hm : WalkEnds s m new) :
    ∃ new', WalkEnds s (l.foldl State.walked m) new' ∧ (∀ q ∈ new, q ∈ new') ∧
      (∀ x : Walk, x.ctx = ctx → x.va / 65536 = page → Met m x → Met (l.foldl State.walked m) x) ∧
      ∀ x ∈ l, ∀ e, s.walk x.ctx x.va = .ok e → (x.core < 65536 → Met (l.foldl State.walked m) x) ∧
        (e.r = true → x.pre = some false → (s.core x.core).l1Line (e.phys x.va / 128) = none →
          ∃ q ∈ new', q.core = x.core ∧ q.key = e.phys x.va / 128 * 128) := by
  induction l generalizing m new with
  | nil => exact ⟨new, hm, fun _ hq => hq, fun _ _ _ h => h, fun x hx => absurd hx List.not_mem_nil⟩
  | cons w l ih =>
    obtain ⟨new1, hends, hmet, hw⟩ := walked_spec (s := m) (w := w)
    obtain ⟨new', hends', hsub, hmet', hrest⟩ := ih (fun x hx => hl x (List.mem_cons_of_mem _ hx))
      (fun x hx => hwalk x (List.mem_cons_of_mem _ hx)) (hm.trans hends)
    obtain ⟨hwctx, hwva⟩ := hl w (List.mem_cons_self ..)
    refine ⟨new', hends', fun q hq => hsub q (List.mem_append_left _ hq), fun x hx hxva h => hmet' x hx hxva (hmet x (hx.trans hwctx.symm)
      (hxva.trans hwva.symm) h), fun x hx e he => ?_⟩
    obtain rfl | hx := List.mem_cons.1 hx
    · have hwm : m.walk x.ctx x.va = .ok e := (hm.walk hc ..).trans ((hwalk x (List.mem_cons_self ..) _).trans he)
      obtain ⟨h1, h2⟩ := hw e hwm
      refine ⟨fun h => hmet' x hwctx hwva (h1 h), fun hr hp hline => ?_⟩
      obtain ⟨q, hq, hcore, hkey⟩ := h2 hr hp (by rw [hm.cores]; exact hline)
      exact ⟨q, hsub q (List.mem_append_right _ hq), hcore, hkey⟩
    · exact hrest x hx e he

/-- The parties that a line releases, and the core's instruction cache with it. -/
theorem arrived_spec (m : State) (l : IcLine) (core ctx line : Nat) :
    ∃ s', ((m.modCore core fun c => c.icPut l m.seq).unslip core ctx line).tickSeq = s' ∧
      s' = { m with cores := s'.cores, teams := s'.teams, ridges := s'.ridges, seq := s'.seq } ∧
      (∀ d, s'.core d = if d = core then (m.core core).icPut l m.seq else m.core d) ∧
      (∀ c k, k < 16 → s'.team? c k = (m.team? c k).map fun t =>
        if c = core ∧ t.ctx = ctx ∧ t.slip = some line then { t with slip := none } else t) ∧
      ∀ c, s'.ridge? c = (m.ridge? c).map fun r =>
        if c = core ∧ r.ctx = ctx ∧ r.slip = some line then { r with slip := none } else r := by
  refine ⟨_, rfl, rfl, fun d => State.core_modCore m core d (fun c => c.icPut l m.seq), fun c k hk => ?_, fun c => ?_⟩
  · refine (find_map_of_key (fun t => ?_) m.teams (tkey c k)).trans (congrArg (Option.map · _) (funext fun t => ?_))
    · split <;> rfl
    · have hc : tkey c k / 16 = c := by unfold tkey; omega
      simp only [hc, Bool.and_eq_true, beq_iff_eq, and_assoc]
      split <;> rfl
  · refine (find_map_of_key (fun r => ?_) m.ridges c).trans (congrArg (Option.map · _) (funext fun r => ?_))
    · split <;> rfl
    · simp only [Bool.and_eq_true, beq_iff_eq, and_assoc]
      split <;> rfl

theorem icWord_icPut {c : Core} {l : IcLine} {n ctx line k : Nat} (hctx : l.ctx = ctx) (hline : l.line = line) (hbad : l.bad = false) (hk : k < 32) :
    (c.icPut l n).icWord ctx (256 * line + 8 * k) = some (l.words.getD k 0).toNat := by
  have hdiv : (256 * line + 8 * k) / 256 = line := by omega
  have hmod : (256 * line + 8 * k) % 256 / 8 = k := by omega
  have hfind : (c.icPut l n).icLine ctx (256 * line + 8 * k) = some l :=
    List.find?_cons_of_pos (by simp [hctx, hline, hbad, hdiv])
  rw [Core.icWord, hfind, Option.map_some, hmod]

/-- Settles O34: a line arrives, a result is written, a slice is released, and the walks of a page end. -/
theorem coreEvents : Obligations.CoreEvents := by
  refine ⟨fun core line ctx e s hctx hi hw hc hk ht hx hl => ?_, fun c slot k t sh s ht hk hd => ?_, fun core n s hp hr hn => ?_,
    fun stack k w s hw hc => ?_⟩
  · obtain ⟨m, l, hfill, hlctx, hlline, hlbad, hlwords, hm⟩ := fillCode_arrives hi hw hc hk ht hx hl
    obtain ⟨s', hs', hrest, hcores, hteams, hridges⟩ := arrived_spec m l core ctx line
    have hexec : exec (.icacheLineFill core line) s = .next s' := by
      change execIcacheLineFill core line s = _
      rw [execIcacheLineFill, hctx, List.foldl_cons, List.foldl_nil, hfill, hs']
    unfold Fetched at hm
    have hmcore (d : Nat) : m.core d = s.core d := by rw [hm]; rfl
    refine ⟨s', hexec, ?_, fun d hd => ?_, ?_, fun c k hk => ?_, fun c => ?_, fun k hk => ?_⟩
    · rw [hrest, hm]
    · rw [hcores, if_neg hd, hmcore]
    · rw [hcores, if_pos rfl, hmcore]
      rfl
    · rw [hteams c k hk, hm]
      rfl
    · rw [hridges c, hm]
      rfl
    · rw [hcores, if_pos rfl, icWord_icPut hlctx hlline hlbad hk, hlwords]
      simp only [List.getD_eq_getElem?_getD, List.getElem?_map, List.getElem?_range hk, Option.map_some, Option.getD_some]
      rw [le64_memRead s _ hk]
  · rw [writes_result ht hk hd]
    refine ⟨fun hdue => by rw [if_neg (by omega)], fun hdue => ?_⟩
    rw [if_pos hdue]
    have ht1 : (s.setTeam c slot { t with shadows := afterWrite t.shadows k }).team? c slot = some { t with shadows := afterWrite t.shadows k } :=
      Tbl.find_put_same ..
    obtain ⟨l, hrest, hfind, hothers, hcores⟩ := written_spec (sh := sh) ht1
    generalize (s.setTeam c slot { t with shadows := afterWrite t.shadows k }).written c slot sh = s' at hrest hcores
    refine ⟨s', { t with fstat := t.fstat ||| sh.flags, shadows := afterWrite t.shadows k }, rfl, ?_, fun j hj => ?_, ?_, rfl,
      fun hl => mem_afterWrite hk hl, flagsDue_afterWrite hk hd, fun d hd' => ?_, ?_, fun hkey => ?_, fun key n hkey => ?_⟩
    · rw [hrest]
      rfl
    · rw [hrest]
      exact (hothers j hj).trans (Tbl.find_put_of_ne _ _ hj)
    · rw [hrest]
      exact hfind
    · rw [hcores]
      cases sh.key with
      | none => rfl
      | some p => exact if_neg hd'
    · rw [hcores]
      cases sh.key with
      | none => rfl
      | some p =>
        simp only [if_true]
        unfold Core.vtInsert
        split <;> rfl
    · rw [hcores, hkey]
      rfl
    · have hcore : s'.core c = (s.core c).vtInsert key n s.seq sh.due := by
        rw [hcores, hkey]
        exact if_pos rfl
      rw [hcore]
      unfold Core.vtInsert
      simp only [Bool.or_eq_true]
      split
      · rfl
      · exact ⟨_, List.mem_cons_self .., rfl, rfl, rfl, rfl, rfl⟩
  · refine ⟨_, releases hp hr hn, rfl, fun d hd => ?_, ?_, fun k => ?_, fun e he => ?_⟩
    · rw [State.core_modCore, if_neg hd]
    · rw [State.core_modCore, if_pos rfl]
      rfl
    · rw [State.core_modCore, if_pos rfl]
      exact Tbl.find_del ..
    · rw [State.core_modCore, if_pos rfl] at he
      obtain ⟨hmem, hkeep⟩ := List.mem_filter.1 he
      simp only [Bool.and_eq_true, bne_iff_ne, Bool.not_eq_true'] at hkeep
      exact ⟨hmem, hkeep⟩
  · intro same hwalk
    have hm : WalkEnds { s with walks := s.walks.filter fun x => !same x } { s with walks := s.walks.filter fun x => !same x } [] := .refl _
    have hsame : ∀ x ∈ s.walks.filter same, x.ctx = w.ctx ∧ x.va / 65536 = w.va / 65536 := fun x hx => by
      have := (List.mem_filter.1 hx).2
      simp only [same, Bool.and_eq_true, beq_iff_eq] at this
      exact ⟨this.1.2, this.2⟩
    have hwalk0 (f : Nat) (l : List Walk) (ctx va : Nat) : State.walk { s with free := f, walks := l } ctx va = State.walk { s with free := f } ctx va :=
      walk_congr (s := s) hc rfl ctx va
    obtain ⟨new, hends, -, -, hall⟩ := walkeds_spec (s := { s with walks := s.walks.filter fun x => !same x }) hc (s.walks.filter same) hsame
      (fun x hx f => by
        obtain ⟨hx1, hx2⟩ := List.mem_filter.1 hx
        rw [hwalk0, hwalk x hx1 hx2 f]
        exact (hwalk0 s.free _ _ _).symm) hm
    have hexec : exec (.pageWalk stack k) s = .next ((s.walks.filter same).foldl State.walked { s with walks := s.walks.filter fun x => !same x }) := by
      change execPageWalk stack k s = _
      rw [execPageWalk, hw]
    generalize (s.walks.filter same).foldl State.walked { s with walks := s.walks.filter fun x => !same x } = s' at hends hall hexec
    refine ⟨s', new, hexec, ?_, ?_, fun k => memGet_congr ?_ k, hends.accs, hends.plain, hends.cores, fun x hx hxs e he => ?_⟩
    · rw [hends.rest]
    · rw [hends.rest]
    · rw [hends.rest]
    · exact hall x (List.mem_filter.2 ⟨hx, hxs⟩) e ((hwalk0 s.free _ _ _).trans he)

end Sys2Proof.Proofs

end

section
/-! R176 to R178, R182, R193 to R195: instructions that set views. -/

open Sys2Proof Sys2Proof.Machine

namespace Sys2Proof.Proofs

/-! What an instruction on views, queues or engines leaves as it was. -/

theorem PortFrame.refl (s : State) (c slot : Nat) : Claims.PortFrame s s c slot :=
  ⟨fun _ _ => rfl, fun _ _ _ _ => rfl, fun _ _ => rfl, rfl, ⟨rfl, rfl, rfl, [], (List.append_nil _).symm⟩, fun _ => rfl⟩

/-- What decides whether data are bad. -/
def SameClean (s m : State) : Prop := m.eccLines = s.eccLines ∧ ∀ k, m.portLost k = s.portLost k

theorem SameClean.clean {s m : State} (h : SameClean s m) (hc : Claims.Clean s) : Claims.Clean m :=
  ⟨fun k => by rw [h.1]; exact hc.1 k, fun k => (h.2 k).trans (hc.2 k)⟩

theorem PortFrame.trans {s m n : State} {c slot : Nat} (f : Claims.PortFrame s m c slot) (g : Claims.PortFrame m n c slot)
    (hc : SameClean s m) : Claims.PortFrame s n c slot := by
  obtain ⟨hr, hb, hl, l, hw⟩ := f.rest
  obtain ⟨hr', hb', hl', l', hw'⟩ := g.rest
  refine ⟨fun k hk => (g.teams k hk).trans (f.teams k hk), fun k hk r l => (g.vregs k hk r l).trans (f.vregs k hk r l),
    fun d hd => (g.cores d hd).trans (f.cores d hd), ?_, ⟨hr'.trans hr, hb'.trans hb, hl'.trans hl, l ++ l', ?_⟩,
    fun h => (g.parts (hc.clean h)).trans (f.parts h)⟩
  · rw [g.core, f.core]
  · rw [hw', hw, List.append_assoc]

/-- A change of a team's own fields but its vector registers. -/
theorem PortFrame.setTeam {s : State} {c slot : Nat} {t t1 : Team} (hs : slot < 16) (ht : s.team? c slot = some t) (hv : t1.vmap = t.vmap) :
    Claims.PortFrame s (s.setTeam c slot t1) c slot := by
  have hp := Placed.setTeam hs ht hv
  refine ⟨hp.frame.teams, fun k hk r l => ?_, fun _ _ => rfl, rfl, ⟨rfl, rfl, rfl, [], (List.append_nil _).symm⟩, fun _ => rfl⟩
  by_cases hks : k = slot
  · subst hks
    exact hp.vregs r l
  · exact hp.frame.vregs k hk hks r l

/-- A change of the core's own tables but its Stash. -/
theorem PortFrame.modCore {s : State} {c slot : Nat} {f : Core → Core} (h : f (s.core c) = { s.core c with
    vtb := (f (s.core c)).vtb, dir := (f (s.core c)).dir, rx := (f (s.core c)).rx, l1 := (f (s.core c)).l1, own := (f (s.core c)).own }) :
    Claims.PortFrame s (s.modCore c f) c slot := by
  have hcore : (s.modCore c f).core c = f (s.core c) := by rw [State.core_modCore, if_pos rfl]
  refine ⟨fun _ _ => rfl, fun k _ r l => vreg_congr (show (s.modCore c f).team? c k = s.team? c k from rfl) ?_ r l, fun d hd => ?_, ?_, ⟨rfl, rfl, rfl, [], (List.append_nil _).symm⟩, fun _ => rfl⟩
  · rw [hcore, h]
  · rw [State.core_modCore, if_neg hd]
  · rw [hcore]
    exact h

theorem PortFrame.bump (s : State) (c slot : Nat) (ctr : Ctr) (i k : Nat) : Claims.PortFrame s (s.bump ctr i k) c slot :=
  ⟨fun _ _ => rfl, fun _ _ _ _ => rfl, fun _ _ => rfl, rfl, ⟨rfl, rfl, rfl, [], (List.append_nil _).symm⟩, fun _ => rfl⟩

theorem PortFrame.killLoads (s : State) (c slot k : Nat) : Claims.PortFrame s (s.killLoads c k) c slot :=
  PortFrame.trans (PortFrame.modCore (f := fun c => { c with vtb := c.vtb.filter fun e => !isLoadKey e.key k }) rfl) (PortFrame.bump ..) ⟨rfl, fun _ => rfl⟩

/-! The end of such an instruction. -/

theorem settle_rest {i : Instr} {h : Hdr} {s m : State} {c slot : Nat} {t t1 : Team} (ht : m.team? c slot = some t1) :
    settleTeam i h s c slot t (.done m) = { m with teams := (settleTeam i h s c slot t (.done m)).teams } := by
  obtain ⟨t2, sh, -, heq, -⟩ := settleTeam_done (i := i) (h := h) (s := s) (t := t) ht
  rw [heq]
  simp [State.setTeam, State.past, State.modTeam, ht]

/-- An instruction that has done its work within the frame: the team goes on. -/
theorem port_done {i : Instr} {h : Hdr} {s m : State} {c slot : Nat} {t t1 : Team} (hs : slot < 16) (f : Claims.PortFrame s m c slot)
    (hc : SameClean s m) (ht : m.team? c slot = some t1) :
    Claims.PortFrame s (settleTeam i h s c slot t (.done m)) c slot ∧ Claims.Goes s c slot t t1 (settleTeam i h s c slot t (.done m)) := by
  obtain ⟨t', hteam, ht', hfl, hframe, hv⟩ := (settleTeam_done (i := i) (h := h) (s := s) (t := t) ht).spec ht hs
  have hrest := settle_rest (i := i) (h := h) (s := s) (t := t) ht
  refine ⟨PortFrame.trans f ⟨hframe.teams, fun k hk r l => ?_, fun d hd => hframe.cores d hd, ?_, ⟨?_, ?_, ?_, [], ?_⟩, fun _ => ?_⟩ hc,
    t', hteam, hfl, fun r => ?_, fun r => ?_, ?_⟩
  · by_cases hks : k = slot
    · subst hks
      exact hv r l
    · exact hframe.vregs k hk hks r l
  · rw [hrest]; rfl
  · rw [hrest]
  · rw [hrest]
  · rw [hrest]
  · rw [hrest, List.append_nil]
  · rw [hrest]
  · rw [ht']; rfl
  · rw [ht']; rfl
  · rw [ht']

/-- What the team has seen of other versions is no part of what goes on. -/
theorem Goes.vers {s s' : State} {c slot : Nat} {t t1 : Team} {v : Tbl W32} (h : Claims.Goes s c slot t { t1 with vers := v } s') :
    Claims.Goes s c slot t t1 s' := by
  obtain ⟨t', hteam, hfl, hrs, hrp, ht'⟩ := h
  exact ⟨t', hteam, hfl, hrs, hrp, ht'⟩

/-! The bits of a view (R177). -/

theorem getLsbD_setBits (b : BitVec 256) (lo n v i : Nat) (hi : i < 256) :
    (setBits b lo n v).getLsbD i = if lo ≤ i ∧ i < lo + n then v.testBit (i - lo) else b.getLsbD i := by
  have hmask : ((2 ^ n - 1) * 2 ^ lo).testBit i = decide (lo ≤ i ∧ i < lo + n) := by
    rw [Nat.testBit_mul_two_pow, Nat.testBit_two_pow_sub_one, Bool.eq_iff_iff]
    simp
    omega
  have hval : (v % 2 ^ n * 2 ^ lo).testBit i = (decide (lo ≤ i ∧ i < lo + n) && v.testBit (i - lo)) := by
    rw [Nat.testBit_mul_two_pow, Nat.testBit_mod_two_pow, ← Bool.and_assoc]
    congr 1
    rw [Bool.eq_iff_iff]
    simp
    omega
  unfold setBits
  simp only [BitVec.getLsbD_or, BitVec.getLsbD_and, BitVec.getLsbD_not, BitVec.getLsbD_ofNat, hi, decide_true, Bool.true_and, hmask, hval]
  split
  · next h => simp [h]
  · next h => simp [h]

theorem testBit_fld (w lo n i : Nat) : (fld w lo n).testBit i = (decide (i < n) && w.testBit (lo + i)) := by
  rw [fld, Nat.testBit_mod_two_pow, Nat.testBit_div_two_pow, Nat.add_comm]

/-- The field that is set. -/
theorem fld_setBits_same (b : BitVec 256) {lo n : Nat} (v : Nat) (h : lo + n ≤ 256) : fld (setBits b lo n v).toNat lo n = v % 2 ^ n := by
  refine Nat.eq_of_testBit_eq fun i => ?_
  rw [testBit_fld, Nat.testBit_mod_two_pow]
  by_cases hi : i < n
  · have := getLsbD_setBits b lo n v (lo + i) (by omega)
    rw [BitVec.getLsbD, if_pos (by omega), Nat.add_sub_cancel_left] at this
    rw [this]
  · simp [hi]

/-- Fields apart from the one that is set. -/
theorem fld_setBits_of_apart (b : BitVec 256) {lo n lo' n' : Nat} (v : Nat) (h : lo' + n' ≤ 256) (ha : lo' + n' ≤ lo ∨ lo + n ≤ lo') :
    fld (setBits b lo n v).toNat lo' n' = fld b.toNat lo' n' := by
  refine Nat.eq_of_testBit_eq fun i => ?_
  rw [testBit_fld, testBit_fld]
  by_cases hi : i < n'
  · have := getLsbD_setBits b lo n v (lo' + i) (by omega)
    rw [BitVec.getLsbD, BitVec.getLsbD, if_neg (by omega)] at this
    rw [this]
  · simp [hi]

/-! VWADJ (R193). -/

theorem sgn_mod (n x : Nat) : sgn n (x % 2 ^ n) = sgn n x := by simp [sgn]

theorem sgn_wrap24 {z : Int} (h : -2 ^ 23 ≤ z) (h' : z < 2 ^ 23) : sgn 24 (wrap 24 z) = z := by
  unfold sgn wrap
  split <;> omega

/-- A view's bits with one field of a dimension changed (R193). -/
def adjBits (v : View) (dim : Nat) (f : AdjField) (n : Nat) : BitVec 256 :=
  match f with
  | .orgAdd => setBits v.bits (64 * dim + 24) 24 (wrap 24 (v.org dim + sgn 64 n))
  | .orgSet => setBits v.bits (64 * dim + 24) 24 n
  | .cntSet => setBits v.bits (64 * dim + 8) 16 n
  | .stepSet => setBits v.bits (64 * dim) 8 n

/-- The fields that stand outside the 48 bits of the dimension are as they were. -/
theorem fld_adjBits (v : View) (dim : Nat) (f : AdjField) (n : Nat) {lo' n' : Nat} (h : lo' + n' ≤ 256)
    (ha : lo' + n' ≤ 64 * dim ∨ 64 * dim + 48 ≤ lo') : fld (adjBits v dim f n).toNat lo' n' = fld v.bits.toNat lo' n' := by
  cases f <;> exact fld_setBits_of_apart _ _ h (by omega)

theorem getLsbD_of_fld {a b : BitVec 256} {i : Nat} (h : fld a.toNat i 1 = fld b.toNat i 1) : a.getLsbD i = b.getLsbD i := by
  have := congrArg (Nat.testBit · 0) h
  simp only [testBit_fld, Nat.zero_lt_one, decide_true, Bool.true_and, Nat.add_zero] at this
  exact this

section
variable (v : View) {dim : Nat} (hd : dim < 4) (f : AdjField) (n : Nat) (k : Nat) (hk : k < 4)
include hd hk

theorem org_adjBits (h1 : f = .orgAdd → -2 ^ 23 ≤ v.org dim + sgn 64 n) (h2 : f = .orgAdd → v.org dim + sgn 64 n < 2 ^ 23) :
    View.org { v with bits := adjBits v dim f n } k = if k = dim then
      (match f with | .orgAdd => v.org dim + sgn 64 n | .orgSet => sgn 24 n | _ => v.org dim) else v.org k := by
  obtain rfl | hkd := eq_or_ne k dim
  · rw [if_pos rfl]
    unfold View.org adjBits
    cases f with
    | orgAdd =>
      rw [fld_setBits_same _ _ (by omega), sgn_mod]
      exact sgn_wrap24 (h1 rfl) (h2 rfl)
    | orgSet =>
      rw [fld_setBits_same _ _ (by omega), sgn_mod]
    | cntSet => exact congrArg (sgn 24) (fld_setBits_of_apart _ _ (by omega) (by omega))
    | stepSet => exact congrArg (sgn 24) (fld_setBits_of_apart _ _ (by omega) (by omega))
  · rw [if_neg hkd]
    exact congrArg (sgn 24) (fld_adjBits v dim f n (by omega) (by omega))

theorem cnt_adjBits : View.cnt { v with bits := adjBits v dim f n } k = if k = dim then
      (match f with | .cntSet => n % 2 ^ 16 | _ => v.cnt dim) else v.cnt k := by
  obtain rfl | hkd := eq_or_ne k dim
  · rw [if_pos rfl]
    unfold View.cnt adjBits
    cases f with
    | orgAdd => exact fld_setBits_of_apart _ _ (by omega) (by omega)
    | orgSet => exact fld_setBits_of_apart _ _ (by omega) (by omega)
    | cntSet => exact fld_setBits_same _ _ (by omega)
    | stepSet => exact fld_setBits_of_apart _ _ (by omega) (by omega)
  · rw [if_neg hkd]
    exact fld_adjBits v dim f n (by omega) (by omega)

theorem step_adjBits : View.step { v with bits := adjBits v dim f n } k = if k = dim then
      (match f with | .stepSet => sgn 8 n | _ => v.step dim) else v.step k := by
  obtain rfl | hkd := eq_or_ne k dim
  · rw [if_pos rfl]
    unfold View.step adjBits
    cases f with
    | orgAdd => exact congrArg (sgn 8) (fld_setBits_of_apart _ _ (by omega) (by omega))
    | orgSet => exact congrArg (sgn 8) (fld_setBits_of_apart _ _ (by omega) (by omega))
    | cntSet => exact congrArg (sgn 8) (fld_setBits_of_apart _ _ (by omega) (by omega))
    | stepSet => exact (congrArg (sgn 8) (fld_setBits_same _ _ (by omega))).trans (sgn_mod ..)
  · rw [if_neg hkd]
    exact congrArg (sgn 8) (fld_adjBits v dim f n (by omega) (by omega))

end

/-- What makes a view's bits bad. -/
theorem bad_eq_false {v : View} : v.bad = false ↔
    fld v.bits.toNat 240 16 = 0 ∧ fld v.bits.toNat 176 16 = 0 ∧ fld v.bits.toNat 112 16 = 0 ∧ fld v.bits.toNat 58 4 = 0 ∧
    (∀ d < 4, v.cnt d ≠ 0) ∧ (∀ d < 4, v.desc.rank ≤ d → v.org d = 0 ∧ v.cnt d = 1 ∧ v.step d = 0) ∧ v.total ≤ 2 ^ 32 := by
  unfold View.bad
  simp only [Bool.or_eq_false_iff, bne_eq_false_iff_eq, List.any_eq_false, List.mem_range, beq_iff_eq, Bool.and_eq_true, Bool.or_eq_true,
    bne_iff_ne, decide_eq_true_eq, decide_eq_false_iff_not, and_assoc, not_and, not_or, not_not, not_lt, ne_eq]

/-- VWADJ leaves a view's bits good where its field does. -/
theorem bad_adjBits {v : View} (hbad : v.bad = false) {dim : Fin 4} {f : AdjField} {n : Nat}
    {org step : Int} {cnt : Nat} (ho : ∀ k < 4, View.org { v with bits := adjBits v dim.val f n } k = if k = dim.val then org else v.org k)
    (hc : ∀ k < 4, View.cnt { v with bits := adjBits v dim.val f n } k = if k = dim.val then cnt else v.cnt k)
    (hs : ∀ k < 4, View.step { v with bits := adjBits v dim.val f n } k = if k = dim.val then step else v.step k)
    (hcnt : cnt ≠ 0) (hrank : v.desc.rank ≤ dim.val → org = 0 ∧ cnt = 1 ∧ step = 0)
    (htotal : (∏ k : Fin 4, (if k = dim then cnt else v.cnt k.val)) ≤ 2 ^ 32) :
    View.bad { v with bits := adjBits v dim.val f n } = false := by
  obtain ⟨h240, h176, h112, h58, hcnts, hranks, -⟩ := bad_eq_false.1 hbad
  have hdim := dim.isLt
  have hprod : View.total { v with bits := adjBits v dim.val f n } = ∏ k : Fin 4, (if k = dim then cnt else v.cnt k.val) := by
    have hk (k : Fin 4) : View.cnt { v with bits := adjBits v dim.val f n } k.val = if k = dim then cnt else v.cnt k.val := by
      rw [hc k.val k.isLt]
      simp only [Fin.ext_iff]
    rw [Fin.prod_univ_four, ← hk, ← hk, ← hk, ← hk]
    rfl
  refine bad_eq_false.2 ⟨?_, ?_, ?_, ?_, fun d hd => ?_, fun d hd hr => ?_, hprod ▸ htotal⟩
  · exact (fld_adjBits v dim.val f n (by omega) (by omega)).trans h240
  · exact (fld_adjBits v dim.val f n (by omega) (by omega)).trans h176
  · exact (fld_adjBits v dim.val f n (by omega) (by omega)).trans h112
  · exact (fld_adjBits v dim.val f n (by omega) (by omega)).trans h58
  · rw [hc d hd]
    split
    · exact hcnt
    · exact hcnts d hd
  · rw [ho d hd, hc d hd, hs d hd]
    split
    · next hdd => exact hrank (hdd ▸ hr)
    · exact hranks d hd hr

/-! Views are set, and listed in the directory (R182). -/

/-- Where a view is listed: at the free entry of the directory, or nowhere, which is counted. -/
def ListedAt (m l : State) (c : Nat) (t : Team) (d : WReg) (v v' : View) : Prop :=
  match ((m.core c).dropOwner t.uid d.val).freeEntry with
  | some k => v'.entry = some k ∧ (l.core c).dir.find k = some ⟨some (v.foot (t.who c)), some (t.uid, d.val), 0⟩
  | none => v'.entry = none ∧ l.count .cmpFull c = (m.count .cmpFull c + 1) % 2 ^ 64

theorem listView_spec (m : State) (c slot : Nat) (t : Team) (d : WReg) (v : View) :
    ∃ l v', m.listView (t.who c) d.val v = (l, v') ∧ Claims.PortFrame m l c slot ∧ l = { m with cores := l.cores, ctr := l.ctr } ∧
      v'.bits = v.bits ∧ v'.desc = v.desc ∧ ListedAt m l c t d v v' := by
  have hcore (f : Core → Core) (n : State) : (n.modCore c f).core c = f (n.core c) := by rw [State.core_modCore, if_pos rfl]
  unfold State.listView ListedAt
  dsimp only [Team.who]
  split
  · next hk =>
    refine ⟨_, _, rfl, PortFrame.trans (PortFrame.modCore (f := fun x => x.dropOwner t.uid d.val) rfl) (PortFrame.bump ..) ⟨rfl, fun _ => rfl⟩,
      rfl, rfl, rfl, ?_⟩
    rw [hk]
    exact ⟨rfl, count_bump_same ..⟩
  · next k hk =>
    refine ⟨_, _, rfl, PortFrame.modCore (f := fun x => { x.dropOwner t.uid d.val with
      dir := (x.dropOwner t.uid d.val).dir.put k ⟨some (v.foot (t.who c)), some (t.uid, d.val), 0⟩ }) rfl, rfl, rfl, rfl, ?_⟩
    rw [hk]
    refine ⟨rfl, ?_⟩
    rw [show (State.setCore m c _).core c = _ from hcore (fun _ => _) m]
    exact Tbl.find_put_same ..

theorem listedAt_congr {m l : State} {c : Nat} {t : Team} {d : WReg} {v v' : View} (h : ListedAt m l c t d v v') {n : State}
    (hd : (n.core c).dir = (l.core c).dir) (hn : n.count .cmpFull c = l.count .cmpFull c) : ListedAt m n c t d v v' := by
  unfold ListedAt at h ⊢
  rw [hd, hn]
  exact h

theorem count_bump_of_ne (s : State) {a b : Ctr} (n m k : Nat) (h : a.key n ≠ b.key m) : (s.bump a n k).count b m = s.count b m := by
  unfold State.bump State.setCount State.count
  simp [Tbl.get_set, h.symm]

/-- A view that is put into a register, and the load entries dropped: the frame, the view as it is listed, and the team. -/
theorem putView_spec {m : State} {x : X} {c slot : Nat} {t : Team} (hx : x.who = t.who c ∧ x.c = c ∧ x.slot = slot) (hs : slot < 16) {t1 : Team}
    (ht : m.team? c slot = some t1) (d : WReg) (v : View) :
    ∃ n v', (x.putView m d v).killLoads c slot = n ∧ Claims.PortFrame m n c slot ∧
      n = { m with teams := n.teams, cores := n.cores, ctr := n.ctr } ∧
      n.team? c slot = some { t1 with view := t1.view.put d.val v' } ∧ v'.bits = v.bits ∧ v'.desc = v.desc ∧ ListedAt m n c t d v v' := by
  obtain ⟨hwho, hxc, hxs⟩ := hx
  obtain ⟨l, v', hlist, hframe, hl, hbits, hdesc, hlisted⟩ := listView_spec m c slot t d v
  have hlt : l.team? c slot = some t1 := by rw [hl]; exact ht
  have hput : x.putView m d v = l.setTeam c slot { t1 with view := t1.view.put d.val v' } := by
    unfold X.putView
    rw [hwho, hlist, hxc, hxs]
    exact modTeam_eq_setTeam _ hlt
  rw [hput]
  have hsl : SameClean m l := by
    rw [hl]
    exact ⟨rfl, fun _ => rfl⟩
  have hset : Claims.PortFrame l (l.setTeam c slot { t1 with view := t1.view.put d.val v' }) c slot := PortFrame.setTeam hs hlt rfl
  have hteam : (l.setTeam c slot { t1 with view := t1.view.put d.val v' }).team? c slot = _ := State.team_setTeam_same ..
  have hrest : l.setTeam c slot { t1 with view := t1.view.put d.val v' } = { l with
    teams := (l.setTeam c slot { t1 with view := t1.view.put d.val v' }).teams } := rfl
  generalize l.setTeam c slot { t1 with view := t1.view.put d.val v' } = p at hset hteam hrest
  refine ⟨_, v', rfl, PortFrame.trans hframe (PortFrame.trans hset (PortFrame.killLoads ..) ?_) hsl, ?_, hteam, hbits, hdesc,
    listedAt_congr hlisted ?_ ?_⟩
  · rw [hrest]
    exact ⟨rfl, fun _ => rfl⟩
  · have hk : p.killLoads c slot = { p with cores := (p.killLoads c slot).cores, ctr := (p.killLoads c slot).ctr } := rfl
    rw [hk, hrest, hl]
  · rw [core_killLoads, if_pos rfl, hrest]
    rfl
  · have hk : (p.killLoads c slot).count .cmpFull c = p.count .cmpFull c := count_bump_of_ne _ _ _ _ (by simp [Ctr.key, Ctr.no])
    rw [hk, hrest]
    rfl

/-! VWADJ and VRET (R193, R194). -/

theorem exec_vwadj {h : Hdr} {d a : WReg} {b : SReg} {dim : Fin 4} {f : AdjField} {s : State} {c slot : Nat} {t : Team}
    (w : TeamIssues (.vwadj h d a b dim f) h s c slot t) (h0 : t.adm h ≠ 0) (hacq : s.acquiring t.uid = false)
    (hv : (t.viewOf a).valid = true)
    (hr : f = .orgAdd → -2 ^ 23 ≤ (t.viewOf a).org dim.val + sgn 64 (t.rs b).toNat ∧ (t.viewOf a).org dim.val + sgn 64 (t.rs b).toNat < 2 ^ 23)
    (hbad : View.bad { t.viewOf a with bits := adjBits (t.viewOf a) dim.val f (t.rs b).toNat } = false) :
    exec (.vwadj h d a b dim f) s = .next (settleTeam (.vwadj h d a b dim f) h s c slot t (.done
      (((t.x s c slot h).putView s d { t.viewOf a with bits := adjBits (t.viewOf a) dim.val f (t.rs b).toNat }).killLoads c slot))) := by
  refine runTeam_eff w ?_ fun _ => Res.noConfusion
  have hsum : (f == .orgAdd && (decide ((t.viewOf a).org dim.val + sgn 64 (t.rs b).toNat < -2 ^ 23) ||
      decide (2 ^ 23 ≤ (t.viewOf a).org dim.val + sgn 64 (t.rs b).toNat))) = false := by
    rw [Bool.and_eq_false_imp]
    intro hf
    obtain ⟨h1, h2⟩ := hr (by simpa using hf)
    simp only [Bool.or_eq_false_iff, decide_eq_false_iff_not]
    omega
  have hcond : (!(t.viewOf a).valid || (f == .orgAdd && (decide ((t.viewOf a).org dim.val + sgn 64 (t.rs b).toNat < -2 ^ 23) ||
      decide (2 ^ 23 ≤ (t.viewOf a).org dim.val + sgn 64 (t.rs b).toNat))) ||
      View.bad { t.viewOf a with bits := adjBits (t.viewOf a) dim.val f (t.rs b).toNat }) = false := by
    rw [hv, hsum, hbad]
    rfl
  refine (if_neg h0).trans ((if_neg ?_).trans (if_neg ?_))
  · exact Bool.eq_false_iff.1 hcond
  · exact Bool.eq_false_iff.1 hacq

/-- Where VWADJ or VWSET leaves a view listed. -/
theorem listed_of_done {s s' n : State} {c : Nat} {t : Team} {d : WReg} {v v' : View} (h : ListedAt s n c t d v v') (hb : v'.bits = v.bits)
    (hdesc : v'.desc = v.desc) (hcore : s'.core c = n.core c) (hctr : s'.ctr = n.ctr) : Claims.Listed s s' c t d v' := by
  have hfoot : v'.foot (t.who c) = v.foot (t.who c) := by
    obtain ⟨b, ds, e⟩ := v
    obtain ⟨b', ds', e'⟩ := v'
    subst hb hdesc
    rfl
  have hcount : s'.count .cmpFull c = n.count .cmpFull c := by rw [State.count, hctr]; rfl
  unfold ListedAt at h
  unfold Claims.Listed
  rw [hcore, hcount, hfoot]
  exact h

/-- Settles O35: VWADJ changes one field of a view, and VRET ends one. -/
theorem viewAdjustAndReturn : Obligations.ViewAdjustAndReturn := by
  refine ⟨?_, fun h d s c slot t hs w h0 howes => ?_⟩
  · intro h d a b dim f s c slot t v n org cnt stp hs w h0 hacq hv hlo hhi hbad hcnt hrank htotal
    have hsum : f = .orgAdd → org = v.org dim.val + sgn 64 n := fun hf => by
      subst hf
      simp only [org, n, sgn_toNat]
    have horg (k : Nat) (hk : k < 4) : View.org { v with bits := adjBits v dim.val f n } k = if k = dim.val then org else v.org k := by
      rw [org_adjBits v dim.isLt f n k hk (fun hf => hsum hf ▸ hlo) (fun hf => hsum hf ▸ hhi)]
      congr 1
      cases f with
      | orgAdd => exact (hsum rfl).symm
      | orgSet => rfl
      | cntSet => rfl
      | stepSet => rfl
    have hcnts (k : Nat) (hk : k < 4) : View.cnt { v with bits := adjBits v dim.val f n } k = if k = dim.val then cnt else v.cnt k :=
      cnt_adjBits v dim.isLt f n k hk
    have hstp (k : Nat) (hk : k < 4) : View.step { v with bits := adjBits v dim.val f n } k = if k = dim.val then stp else v.step k :=
      step_adjBits v dim.isLt f n k hk
    have hexec := exec_vwadj (d := d) w h0 hacq hv (fun hf => ⟨hsum hf ▸ hlo, hsum hf ▸ hhi⟩)
      (bad_adjBits hbad horg hcnts hstp hcnt hrank htotal)
    obtain ⟨m, v', hm, hframe, hrest, hteam, hbits, hdesc, hlisted⟩ := putView_spec (c := c) (slot := slot) (x := t.x s c slot h) ⟨rfl, rfl, rfl⟩ hs w.2.1 d
      { v with bits := adjBits v dim.val f n }
    replace hexec : exec (.vwadj h d a b dim f) s = .next (settleTeam (.vwadj h d a b dim f) h s c slot t (.done m)) := by
      rw [← hm]
      exact hexec
    have hclean : SameClean s m := by rw [hrest]; exact ⟨rfl, fun _ => rfl⟩
    obtain ⟨hport, hgoes⟩ := port_done (i := .vwadj h d a b dim f) (h := h) (t := t) hs hframe hclean hteam
    have hs' := settle_rest (i := .vwadj h d a b dim f) (h := h) (s := s) (t := t) hteam
    generalize settleTeam (.vwadj h d a b dim f) h s c slot t (.done m) = s' at hexec hport hgoes hs'
    have hfld (lo k : Nat) (hk : lo + k ≤ 256) (ha : lo + k ≤ 64 * dim.val ∨ 64 * dim.val + 48 ≤ lo) :
        fld v'.bits.toNat lo k = fld v.bits.toNat lo k := by
      rw [hbits]
      exact fld_adjBits v dim.val f n hk ha
    have hbit (i : Nat) (hi : 48 ≤ i ∧ i < 64) : v'.bits.getLsbD i = v.bits.getLsbD i :=
      getLsbD_of_fld (hfld i 1 (by omega) (by omega))
    refine ⟨s', v', hexec, hport, fun q => memGet_congr ?_ q, ?_, ?_, ?_, hdesc, (hbit 63 (by decide)).trans hv, hbit 62 (by decide),
      hfld 48 10 (by decide) (by omega), fun k hk => ⟨?_, ?_, ?_⟩, hgoes, listed_of_done hlisted hbits hdesc ?_ ?_⟩
    · rw [hs', hrest]
    · rw [hs', hrest]
    · rw [hs', hrest]
    · rw [hs', hrest]
    · rw [← horg k hk, View.org, hbits]
      rfl
    · rw [← hcnts k hk, View.cnt, hbits]
      rfl
    · rw [← hstp k hk, View.step, hbits]
      rfl
    · rw [hs']; rfl
    · rw [hs']
  · have hkill := PortFrame.killLoads s c slot slot
    have hkr : s.killLoads c slot = { s with cores := (s.killLoads c slot).cores, ctr := (s.killLoads c slot).ctr } := rfl
    refine ⟨fun hv => ?_, fun hv => ?_⟩
    · have hexec : exec (.vret h d) s = .next (settleTeam (.vret h d) h s c slot t (.done (s.killLoads c slot))) := by
        refine runTeam_eff w ?_ fun _ => Res.noConfusion
        exact (if_neg h0).trans ((if_neg (Bool.eq_false_iff.1 howes)).trans (if_pos (show (!(t.viewOf d).valid) = true by rw [hv]; rfl)))
      obtain ⟨hport, hgoes⟩ := port_done (i := .vret h d) (h := h) (t := t) hs hkill ⟨rfl, fun _ => rfl⟩ w.2.1
      have hs' := settle_rest (i := .vret h d) (h := h) (s := s) (t := t) (m := s.killLoads c slot) w.2.1
      generalize settleTeam (.vret h d) h s c slot t (.done (s.killLoads c slot)) = s' at hexec hport hgoes hs'
      exact ⟨s', hexec, hport, fun q => memGet_congr (by rw [hs', hkr]) q, hgoes⟩
    · generalize hv'eq : ({ t.viewOf d with bits := setBits (t.viewOf d).bits 63 1 0, entry := none } : View) = v'
      have hexec : exec (.vret h d) s = .next (settleTeam (.vret h d) h s c slot t (.done (((s.killLoads c slot).modCore c fun x =>
          x.dropOwner t.uid d.val).modTeam c slot fun t => { t with view := t.view.put d.val v' }))) := by
        refine runTeam_eff w ?_ fun _ => Res.noConfusion
        subst hv'eq
        exact (if_neg h0).trans ((if_neg (Bool.eq_false_iff.1 howes)).trans (if_neg (show ¬ (!(t.viewOf d).valid) = true by rw [hv]; exact Bool.false_ne_true)))
      have hdrop : Claims.PortFrame (s.killLoads c slot) ((s.killLoads c slot).modCore c fun x => x.dropOwner t.uid d.val) c slot :=
        PortFrame.modCore rfl
      have hteam : ((s.killLoads c slot).modCore c fun x => x.dropOwner t.uid d.val).team? c slot = some t := w.2.1
      have hcore : ((s.killLoads c slot).modCore c fun x => x.dropOwner t.uid d.val).core c = ((s.killLoads c slot).core c).dropOwner t.uid d.val := by
        rw [State.core_modCore, if_pos rfl]
      have hdr : (s.killLoads c slot).modCore c (fun x => x.dropOwner t.uid d.val) = { s with
        cores := ((s.killLoads c slot).modCore c fun x => x.dropOwner t.uid d.val).cores, ctr := (s.killLoads c slot).ctr } := rfl
      generalize (s.killLoads c slot).modCore c (fun x => x.dropOwner t.uid d.val) = m at hexec hdrop hteam hcore hdr
      rw [modTeam_eq_setTeam _ hteam] at hexec
      have hset : Claims.PortFrame m (m.setTeam c slot { t with view := t.view.put d.val v' }) c slot := PortFrame.setTeam hs hteam rfl
      have hcm : SameClean s m := by rw [hdr]; exact ⟨rfl, fun _ => rfl⟩
      have hteam' : (m.setTeam c slot { t with view := t.view.put d.val v' }).team? c slot = some { t with view := t.view.put d.val v' } :=
        State.team_setTeam_same ..
      obtain ⟨hport, hgoes⟩ := port_done (i := .vret h d) (h := h) (t := t) hs
        (PortFrame.trans (PortFrame.trans hkill hdrop ⟨rfl, fun _ => rfl⟩) hset hcm) hcm hteam'
      have hs' := settle_rest (i := .vret h d) (h := h) (s := s) (t := t) hteam'
      generalize settleTeam (.vret h d) h s c slot t (.done (m.setTeam c slot { t with view := t.view.put d.val v' })) = s' at hexec hport hgoes hs'
      have hbits (n : Nat) (hn : n < 256) : v'.bits.getLsbD n = if n = 63 then false else (t.viewOf d).bits.getLsbD n := by
        rw [← hv'eq]
        refine (getLsbD_setBits _ _ _ _ _ hn).trans ?_
        by_cases h63 : n = 63
        · rw [if_pos (by omega), if_pos h63, Nat.zero_testBit]
        · rw [if_neg (by omega), if_neg h63]
      refine ⟨s', v', hexec, hport, fun q => memGet_congr ?_ q, ?_, hbits 63 (by decide), ?_, fun n hn => ?_, ?_, hgoes⟩
      · rw [hs']
        exact (congrArg State.mem hdr :)
      · rw [← hv'eq]
      · rw [← hv'eq]
      · by_cases hn256 : n < 256
        · rw [hbits n hn256, if_neg hn]
        · rw [BitVec.getLsbD_of_ge _ _ (by omega), BitVec.getLsbD_of_ge _ _ (by omega)]
      · have hsc : s'.core c = ((s.killLoads c slot).core c).dropOwner t.uid d.val := by
          rw [hs']
          exact hcore
        rw [hsc]
        intro e he
        obtain ⟨he, -⟩ := List.mem_filter.1 he
        obtain ⟨e0, -, rfl⟩ := List.mem_map.1 he
        split
        · exact nofun
        · next hne => simpa using hne

end Sys2Proof.Proofs

end

section
/-! R182, R193: frames of what accesses put in flight, and VWSET where another counter is that of a full directory. -/

open Sys2Proof Sys2Proof.Machine

namespace Sys2Proof.Proofs

/-! Walks are asked for at the end of the list (R290). -/

/-- Walks are added, and none is lost. -/
def WalksOn (s m : State) : Prop := ∃ l, m.walks = s.walks ++ l

theorem WalksOn.of_eq {s m : State} (h : m.walks = s.walks) : WalksOn s m := ⟨[], by rw [h, List.append_nil]⟩

theorem WalksOn.trans {a b c : State} (h : WalksOn a b) (g : WalksOn b c) : WalksOn a c := by
  obtain ⟨l, h⟩ := h
  obtain ⟨l', g⟩ := g
  exact ⟨l ++ l', by rw [g, h, List.append_assoc]⟩

theorem WalksOn.startWalk (s : State) (st core ctx va : Nat) : WalksOn s (s.startWalk st core ctx va) := by
  have h : ((s.walkedReads ctx va).bump .walks st 1).walks = s.walks := by
    rw [show s.walkedReads ctx va = _ from Aside.walkedReads s ctx va]
    rfl
  unfold State.startWalk
  split
  · exact .of_eq rfl
  · dsimp only
    split
    · exact .of_eq h
    · exact ⟨_, congrArg (· ++ _) h⟩

theorem WalksOn.tlbFill (s : State) (core ctx va : Nat) : WalksOn s (s.tlbFill core ctx va) := by
  have h : WalksOn s ((s.bump .tlbmiss core 1).startWalk (stackOf core) core ctx va) := .startWalk ..
  unfold State.tlbFill
  split
  · exact .of_eq rfl
  · dsimp only
    split
    · refine h.trans (.of_eq ?_)
      rw [State.fatalAt, fatal_parts]
    · exact h

theorem WalksOn.touch (s : State) (w : Who) (sp : Space) (ls : List (Nat × Spot)) : WalksOn s (s.touch w sp ls) := by
  unfold State.touch State.walkAll State.tlbFills
  split
  · exact .of_eq rfl
  · generalize ((ls.map fun l => (l.1, l.2.va)).map Prod.snd |>.map (· / 65536)).dedup = pages
    induction pages generalizing s with
    | nil => exact .of_eq rfl
    | cons p pages ih => exact (WalksOn.tlbFill ..).trans (ih _)

/-! Frames of what accesses put in flight. -/

theorem portFrame_issued {s m : State} {c slot : Nat} {new : List Access} (h : Issued s m c new) (hw : WalksOn s m) :
    Claims.PortFrame s m c slot := by
  refine ⟨fun k _ => ?_, fun k _ r l => h.vreg k r l, h.cores, ?_, ⟨?_, ?_, ?_, hw⟩, h.parts⟩
  · rw [h.rest]
  · rw [h.core]
  · rw [h.rest]
  · rw [h.rest]
  · rw [h.rest]

theorem portFrame_touch (s : State) (c slot : Nat) (w : Who) (sp : Space) (ls : List (Nat × Spot)) :
    Claims.PortFrame s (s.touch w sp ls) c slot := portFrame_issued (.of_walked (walked_touch ..)) (.touch ..)

theorem portFrame_aside {s m : State} {c slot : Nat} (h : Aside s m) : Claims.PortFrame s m c slot := by
  refine portFrame_issued (.of_aside h) (.of_eq ?_)
  unfold Aside at h
  rw [h]

theorem sameClean_issued {s m : State} {c : Nat} {new : List Access} (h : Issued s m c new) : SameClean s m := by
  rw [h.rest]
  exact ⟨rfl, fun _ => rfl⟩

/-! VWSET (R193) of a core past those that a package has, whose counter of a full directory has the number of that of corrected
errors. -/

/-- The core at which the two counters meet. -/
def farCore : Nat := (Ctr.cecnt.no - Ctr.cmpFull.no) * 65536

/-- A team whose scalars 60 to 63 give a view of four words of descriptor 1. -/
def viewTeam : Team := { placeTeam with sreg := [(60, 2 ^ 48 + 4 * 2 ^ 8 + 1), (61, 2 ^ 8), (62, 2 ^ 8), (63, 2 ^ 8)] }

/-- Descriptor 1: a row of eight words. -/
def rowBytes : List Byte := toLe 8 0x1FFE0 ++ toLe 8 8 ++ toLe 8 (2 ^ 32 + 8) ++ List.replicate 40 0
def rowDesc : Desc := ⟨.glob, 0x1FFE0, 2, 1, [1, 0, 0, 0], [8, 0, 0, 0]⟩

/-- A directory with no free entry. -/
def fullDir : Tbl DirEntry := (List.range 32).map fun k => (k, ⟨none, some (9, 0), 0⟩)

/-- The team on that core: its directory is full, and the line of the descriptor has an error that is to be corrected. -/
def farState : State :=
  { (((State.reset.place 0).modCtx 1 fun x => { x with tdescBase := 0x10000 }).memWrite 0x100040 rowBytes) with
    teams := [(tkey farCore 0, viewTeam)], cores := [(farCore, { Core.zero with dir := fullDir })], cur := .team farCore 0,
    eccOnes := [(0x100040 / 128, true)] }

theorem farState_clean : Claims.Clean farState := by
  refine ⟨fun k => ?_, fun k => ?_⟩
  · rw [show farState.eccLines = [] by decide +kernel]
    rfl
  · unfold State.portLost
    rw [show farState.cxlLost = [] by decide +kernel]
    split
    · exact Bool.and_false _
    · exact Bool.and_false _

theorem farState_issues : TeamIssues (.vwset plainHdr 15 60) plainHdr farState farCore 0 viewTeam ∧ viewTeam.adm plainHdr ≠ 0 ∧
    farState.acquiring viewTeam.uid = false ∧ farState.teamOf viewTeam.uid = some (tkey farCore 0, viewTeam) := by decide +kernel

theorem farState_reads :
    (farState.ctx viewTeam.ctx).tdescBase + 64 * fld (Claims.viewBits viewTeam 60).toNat 48 10 = 0x10040 ∧
    farState.walkWaits farCore viewTeam.ctx 0x10040 = false ∧
    farState.spanAt (viewTeam.who farCore) .glob 0 0x10040 64 true false = .ok 0x100040 0 ∧ farState.local_ 0x100040 = true ∧
    (∀ b ∈ farState.accs, b.core = farCore → b.isRead = false → b.key + b.len ≤ 0x100040 ∨ 0x100040 + 64 ≤ b.key) ∧
    descOf (farState.memRead 0x100040 64) = some rowDesc ∧ View.bad ⟨Claims.viewBits viewTeam 60, rowDesc, none⟩ = false ∧
    ((farState.core farCore).dropOwner viewTeam.uid 15).freeEntry = none ∧ farState.count .cmpFull farCore = 0 := by decide +kernel

/-- VWSET counts both the error that it corrects and the directory that it finds full. -/
theorem count_of_far : (match exec (.vwset plainHdr 15 60) farState with
    | .next s' => s'.count .cmpFull farCore
    | _ => 0) = 2 := by decide +kernel

/-- Refutes O36: at a core past 65535 the counter that VWSET steps for a full directory may be stepped for a corrected error too. -/
theorem not_viewsAndDescriptors : ¬ Obligations.ViewsAndDescriptors := by
  rintro ⟨hset, -⟩
  obtain ⟨hissues, hadm, hacq, hof⟩ := farState_issues
  obtain ⟨hva, hw, hspan, hl, ho, hdesc, hbad, hfull, hzero⟩ := farState_reads
  obtain ⟨s', v, hexec, -, -, -, -, -, -, -, -, hlisted⟩ := hset plainHdr 15 60 0x100040 0 rowDesc farState farCore 0 viewTeam (by decide)
    hissues hadm hacq hof (by rw [hva]; exact hw) (by rw [hva]; exact hspan) hl (by decide) ho farState_clean hdesc hbad
  have htwo := count_of_far
  rw [hexec] at htwo
  unfold Claims.Listed at hlisted
  rw [show ((15 : WReg) : Fin 16).val = 15 from rfl, hfull, hzero] at hlisted
  rw [show s'.count .cmpFull farCore = 2 from htwo] at hlisted
  exact absurd hlisted.2 (by decide)

end Sys2Proof.Proofs

end

section
/-! R269, R271: a gathered row that an operation sends to a scalar. -/

open Sys2Proof Sys2Proof.Machine

namespace Sys2Proof.Proofs

/-- A gather of one row, of lane 0, whose destination is a scalar of the team. -/
def scalarGather : Op :=
  { id := 9, kind := .gath [(0, [.scalar 1])] [(0, (placeCode + 4))] 4 false none, who := placeTeam.who 0, depth := 0, fork := 0, ring := 0, slot := 0,
    reads := none, writes := none, ents := [], stop := false }

/-- It is in flight for the team that is placed; the row is a word of that team's code. -/
def gatherState : State := { State.reset.place 0 with ops := [scalarGather] }

theorem gatherState_may : gatherState.engineMay scalarGather = true ∧
    (gatherState.area scalarGather.who .glob (placeCode + 4) 4 true false).2 = none ∧
    gatherState.badPieces (gatherState.area scalarGather.who .glob (placeCode + 4) 4 true false).1 = false ∧ gatherState.stashOk = true := by
  decide +kernel

/-- The row reaches the scalar. -/
theorem row_reaches_scalar : (match exec (.gatherRowFetch 9 (placeCode + 4)) gatherState with
    | .next s' => decide (s'.teams = gatherState.teams)
    | _ => true) = false := by decide +kernel

/-- Refutes O43: where a gather names a scalar as destination, the arrival of its row changes a team. -/
theorem not_engineEvents : ¬ Obligations.EngineEvents := by
  rintro ⟨-, -, -, -, hrow, -⟩
  obtain ⟨hmay, harea, hbad, hok⟩ := gatherState_may
  obtain ⟨s', hexec, hteams, -⟩ := hrow 9 (placeCode + 4) scalarGather [(0, [.scalar 1])] [(0, (placeCode + 4))] 4 none _ gatherState rfl rfl rfl rfl hmay
    (by decide) (Prod.ext rfl harea) hbad hok (by decide) (by decide)
  have hchanged := row_reaches_scalar
  rw [hexec] at hchanged
  simp [hteams] at hchanged

end Sys2Proof.Proofs

end

section
/-! R378: a record that is refused, where the counter of such records is that of corrected errors too. -/

open Sys2Proof Sys2Proof.Machine

namespace Sys2Proof.Proofs

/-- A context whose counter of refused records has the number of that of corrected errors. -/
def farCtx : Nat := (Ctr.cecnt.no - Ctr.savErr.no) * 65536

/-- A saved block whose record does not say that it is valid. -/
def badRecord : Saved :=
  { off := 0, len := 64, addr := 0x10000, block := placeBlock, teams := [], slices := [], ridge := none, cells := [], forced := false,
    flits := [], tick := 0 }

/-- The context holds that block, and the record's line has an error that is to be corrected. -/
def badSave : State :=
  { (State.reset.place 0).modCtx farCtx (fun _ => { (State.reset.place 0).ctx 1 with saved := [badRecord] }) with
    eccOnes := [(0x100000 / 128, true)] }

theorem badSave_restores : (badSave.ctx farCtx).saved[0]? = some badRecord ∧
    badSave.partOf (stackOf 0) = (badSave.ctx farCtx).part ∧ 0 < badSave.coresN ∧
    (badSave.partn (badSave.ctx farCtx).part).halting = none ∧ (badSave.ctx farCtx).dbgHalt = false ∧
    (badSave.recordEcc farCtx 0 badRecord).isNone = true ∧ badSave.recordGood farCtx badRecord = false ∧
    badSave.count .savErr farCtx = 0 := by decide +kernel

/-- The restore counts both the record that it refuses and the error that it corrects. -/
theorem count_of_badSave : (match exec (.blockRestore farCtx 0 0) badSave with
    | .next s' => s'.count .savErr farCtx
    | _ => 0) = 2 := by decide +kernel

/-- Refutes O54: of a context past 65535 the counter that a refused record steps may be stepped for a corrected error too. -/
theorem not_slicesFreezeAndSave : ¬ Obligations.SlicesFreezeAndSave := by
  rintro ⟨-, -, hbad, -⟩
  obtain ⟨hsaved, hpart, hcore, hhalt, hdbg, hecc, hgood, hzero⟩ := badSave_restores
  obtain ⟨s', hexec, -, -, -, -, -, hcount⟩ :=
    hbad farCtx 0 0 badRecord badSave hsaved hpart hcore hhalt hdbg (Option.isNone_iff_eq_none.mp hecc) hgood
  have htwo := count_of_badSave
  rw [hexec] at htwo
  rw [hzero, show s'.count .savErr farCtx = 2 from htwo] at hcount
  exact absurd hcount (by decide)

end Sys2Proof.Proofs

end

section
/-! R244: the fall of a reader count, of an ATTN whose slot is none of the two that an entry has. -/

open Sys2Proof Sys2Proof.Machine

namespace Sys2Proof.Proofs

/-- An ATTN with no addition to make, which reads slot 5 of an entry at the code's first word. -/
def oddAttn : AttnRun := ⟨7, placePa, 0, 5, [], 0⟩

/-- A stream's block with that ATTN in flight. -/
def oddBlock : Block := { placeBlock with attn := some oddAttn }

def oddAttnState : State := (State.reset.place 0).setBlock 1 oddBlock

theorem oddAttnState_runs : oddAttnState.ridge? 0 = some placeRidge ∧ oddAttnState.block? placeRidge.blk = some oddBlock ∧
    oddAttnState.outstanding oddAttn.id = false ∧ oddAttnState.slices = [] ∧ oddAttnState.local_ placePa = true ∧
    Claims.laid oddAttnState.memGet placePa (toLe 8 ((Claims.num oddAttnState.memGet placePa 8 + 2 ^ 64 - 2 ^ (16 * 5)) % 2 ^ 64))
      (placePa + 7) = 0 := by decide +kernel

/-- No byte of the entry changes: the difference that is added is 0. -/
theorem memGet_of_oddAttn : (match exec (.attnComplete 0) oddAttnState with
    | .next s' => s'.memGet (placePa + 7)
    | _ => 0) = 0xF0 := by decide +kernel

/-- Refutes O48: where an ATTN's slot is past 3, the count that its end takes away is more than a word holds, and the model then takes
away nothing. -/
theorem not_kvOperations : ¬ Obligations.KvOperations := by
  rintro ⟨⟨-, -, -, hcomplete⟩, -⟩
  obtain ⟨hridge, hblock, hout, hslices, hlocal, hzero⟩ := oddAttnState_runs
  have hroomy : Claims.Roomy oddAttnState := by
    intro k
    unfold State.slice
    rw [hslices]
    rfl
  obtain ⟨s', hexec, -, -, -, -, -, hmem⟩ := (hcomplete 0 placeRidge oddBlock oddAttn oddAttnState hridge hblock rfl).2 hout hroomy
    (fun _ h => nomatch h) (.inr hlocal)
  have hbyte := memGet_of_oddAttn
  rw [hexec] at hbyte
  have h := hmem (placePa + 7)
  rw [show s'.memGet (placePa + 7) = 0xF0 from hbyte] at h
  exact absurd (h.trans hzero) (by decide)

end Sys2Proof.Proofs

end

section
/-! What a unit's write at a home of this package leaves as it was (R296, R312, R317). -/

open Sys2Proof Sys2Proof.Machine

namespace Sys2Proof.Proofs

/-! The records that slices have queued. -/

/-- Every slice has the records queued that it had. -/
structure SameQueues (s m : State) : Prop where
  queued : ∀ k, (m.slice k).ondie = (s.slice k).ondie ∧ (m.slice k).ring = (s.slice k).ring

theorem SameQueues.of_eq {s m : State} (h : m.slices = s.slices) : SameQueues s m := ⟨fun k => by
  unfold State.slice
  rw [h]
  exact ⟨rfl, rfl⟩⟩

theorem SameQueues.trans {a b c : State} (h : SameQueues a b) (g : SameQueues b c) : SameQueues a c :=
  ⟨fun k => ⟨(g.queued k).1.trans (h.queued k).1, (g.queued k).2.trans (h.queued k).2⟩⟩

theorem SameQueues.foldl {α : Type} {f : State → α → State} (hf : ∀ s a, SameQueues s (f s a)) (l : List α) (s : State) :
    SameQueues s (l.foldl f s) := by
  induction l generalizing s with
  | nil => exact .of_eq rfl
  | cons a l ih => exact (hf s a).trans (ih _)

theorem slice_setSlice (s : State) (k j : Nat) (x : Slice) : (s.setSlice k x).slice j = if j = k then x else s.slice j := Tbl.get_put ..

theorem SameQueues.setSlice {s m : State} (h : m.slices = s.slices) (k : Nat) {x : Slice} (ho : x.ondie = (s.slice k).ondie)
    (hr : x.ring = (s.slice k).ring) : SameQueues s (m.setSlice k x) := ⟨fun j => by
  rw [slice_setSlice]
  split
  · next hj =>
    subst hj
    exact ⟨ho, hr⟩
  · exact (SameQueues.of_eq h).queued j⟩

theorem slices_saved (s : State) (pa : Nat) : (s.saved pa).slices = s.slices := by
  unfold State.saved
  extract_lets n
  clear_value n
  split <;> rfl

theorem slices_compress (s : State) (pa cls : Nat) : (s.compress pa cls).slices = s.slices := by
  unfold State.compress
  dsimp only
  split
  · rfl
  · split
    · rfl
    · exact slices_saved ..

theorem SameQueues.compressIf (s : State) (b : Bool) (pa cls : Nat) : SameQueues s (if b then s.compress pa cls else s) := by
  split
  · exact .of_eq (slices_compress ..)
  · exact .of_eq rfl

theorem SameQueues.writeBack (s : State) (out : List L2Line) : SameQueues s (s.writeBack out) :=
  .foldl (fun _ _ => .of_eq (slices_compress ..)) _ _

theorem SameQueues.l2Access (s : State) (pa cls : Nat) (write : Bool) : SameQueues s (s.l2Access pa cls write).1 := by
  have hput (m : State) (b : Bool) (h : SameQueues s m) : SameQueues s (if b then m.compress pa cls else m) := h.trans (.compressIf ..)
  unfold State.l2Access
  extract_lets
  split
  · exact hput _ _ (.setSlice (m := s) rfl _ rfl rfl)
  · split
    · exact hput _ _ (.setSlice (slices_saved ..) _ rfl rfl)
    · exact hput _ _ (SameQueues.trans (.setSlice (slices_saved ..) _ (by rfl) (by rfl)) (.writeBack ..))

theorem SameQueues.noteEcc (s : State) (key : Nat) : SameQueues s (s.noteEcc key) := by
  unfold State.noteEcc
  split
  · exact .setSlice (m := s) rfl _ rfl rfl
  · exact .of_eq rfl

theorem SameQueues.readAt (s : State) (k cls : Nat) : SameQueues s (s.readAt k cls) := by
  have h : SameQueues s (s.corrected k) := by
    unfold State.corrected
    split <;> exact .of_eq rfl
  unfold State.readAt
  dsimp only
  split
  · exact h
  · split
    · exact h.trans (.l2Access ..)
    · exact h.trans (.of_eq rfl)

theorem SameQueues.walkedReads (s : State) (ctx va : Nat) : SameQueues s (s.walkedReads ctx va) := by
  unfold State.walkedReads
  dsimp only
  refine SameQueues.trans (b := match (s.walkReads ctx va).find? s.eccBad with | some k => s.noteEcc k | none => s) ?_
    (.foldl (fun s k => .readAt ..) _ _)
  split
  · exact .noteEcc ..
  · exact .of_eq rfl

/-! What a unit's work at homes leaves as it was. -/

/-- m is s but for memory, its owners and its ways: the words that cores have, the shared caches, walks and counts. The slices have the
records queued that they had. -/
structure Homed (s m : State) : Prop where
  rest : m = { s with mem := m.mem, owners := m.owners, slices := m.slices, comp := m.comp, ctr := m.ctr, free := m.free, ors := m.ors,
                      cores := m.cores, eccOnes := m.eccOnes, sent := m.sent, walks := m.walks }
  cores : ∀ d, m.core d = { s.core d with l1 := (m.core d).l1, own := (m.core d).own }
  queues : SameQueues s m

theorem Homed.refl (s : State) : Homed s s := ⟨rfl, fun _ => rfl, .of_eq rfl⟩

theorem Homed.trans {a b c : State} (h : Homed a b) (g : Homed b c) : Homed a c :=
  ⟨by rw [g.rest, h.rest], fun d => by rw [g.cores, h.cores], h.queues.trans g.queues⟩

theorem Homed.foldl {α : Type} {f : State → α → State} (hf : ∀ s a, Homed s (f s a)) (l : List α) (s : State) : Homed s (l.foldl f s) := by
  induction l generalizing s with
  | nil => exact .refl s
  | cons a l ih => exact (hf s a).trans (ih _)

theorem Homed.of_aside {s m : State} (h : Aside s m) (hq : SameQueues s m) : Homed s m := by
  unfold Aside at h
  exact ⟨by rw [h], fun d => by rw [h]; rfl, hq⟩

theorem Homed.bump (s : State) (c : Ctr) (n k : Nat) : Homed s (s.bump c n k) := .of_aside (.bump ..) (.of_eq rfl)

theorem Homed.memWrite (s : State) (k : Nat) (bs : List Byte) : Homed s (s.memWrite k bs) := ⟨rfl, fun _ => rfl, .of_eq rfl⟩

theorem Homed.readAt (s : State) (k cls : Nat) : Homed s (s.readAt k cls) := .of_aside (.readAt ..) (.readAt ..)

theorem Homed.readPieces (s : State) (ps : List (Nat × Nat × Nat)) : Homed s (s.readPieces ps) := .foldl (fun s _ => .readAt s ..) _ _

theorem Homed.noteEcc (s : State) (k : Nat) : Homed s (s.noteEcc k) := .of_aside (.noteEcc ..) (.noteEcc ..)

theorem Homed.noteBad (s : State) (ps : List (Nat × Nat × Nat)) : Homed s (s.noteBad ps) := by
  unfold State.noteBad
  split
  · exact .noteEcc ..
  · exact .refl s

theorem Homed.revokeAt (s : State) (core pa len : Nat) : Homed s (s.revokeAt core pa len) := by
  refine ⟨rfl, fun d => ?_, .of_eq rfl⟩
  rw [core_revokeAt]
  split
  · next hd =>
    subst hd
    rw [revokeWords_core]
  · rfl

theorem Homed.startWalk (s : State) (st core ctx va : Nat) : Homed s (s.startWalk st core ctx va) := by
  have h : Homed s ((s.walkedReads ctx va).bump .walks st 1) :=
    (Homed.of_aside (.walkedReads ..) (.walkedReads ..)).trans (.bump ..)
  unfold State.startWalk
  split
  · exact .bump ..
  · dsimp only
    split
    · exact h
    · exact h.trans ⟨rfl, fun _ => rfl, .of_eq rfl⟩

section
variable {s m : State} (h : Homed s m)
include h

theorem Homed.accs : m.accs = s.accs := by rw [h.rest]
theorem Homed.teams : m.teams = s.teams := by rw [h.rest]
theorem Homed.ridges : m.ridges = s.ridges := by rw [h.rest]
theorem Homed.blocks : m.blocks = s.blocks := by rw [h.rest]
theorem Homed.parts : m.parts = s.parts := by rw [h.rest]
theorem Homed.ctxs : m.ctxs = s.ctxs := by rw [h.rest]
theorem Homed.ops : m.ops = s.ops := by rw [h.rest]
theorem Homed.stks : m.stks = s.stks := by rw [h.rest]
theorem Homed.seq : m.seq = s.seq := by rw [h.rest]
theorem Homed.pkg : m.pkg = s.pkg := by rw [h.rest]
theorem Homed.local_ (k : Nat) : m.local_ k = s.local_ k := by
  unfold State.local_
  rw [h.pkg]
theorem Homed.home {k : Nat} (hk : Claims.Home s k) : Claims.Home m k := by
  unfold Claims.Home at *
  rwa [h.local_]

theorem Homed.behind (id k n : Nat) : m.behind id k n = s.behind id k n := by
  unfold State.behind
  rw [h.accs]

theorem Homed.ringFull (k : Nat) : (m.slice k).ringFull = (s.slice k).ringFull := by
  unfold Slice.ringFull
  rw [(h.queues.queued k).2]

theorem Homed.spills (k ctx watch quota : Nat) : (m.slice k).spills ctx watch quota = (s.slice k).spills ctx watch quota := by
  unfold Slice.spills Slice.sp Slice.on
  rw [(h.queues.queued k).1, (h.queues.queued k).2]

/-- Whether a write would be held depends on the bytes that it replaces, and on the records queued (R317). -/
theorem Homed.unitHeld {k : Nat} {bs : List Byte} (hm : m.memRead k bs.length = s.memRead k bs.length) : m.unitHeld k bs = s.unitHeld k bs := by
  have hg : m.granules k = s.granules k := by rw [h.rest]; rfl
  have hw (a b : Nat) : m.watch? a b = s.watch? a b := by rw [h.rest]; rfl
  have hn : m.sliceNo k = s.sliceNo k := by rw [h.rest]; rfl
  unfold State.unitHeld State.mustHold
  simp only [h.local_, hm, hg, hw, hn, h.ringFull, h.spills]

end

theorem Claims.Roomy.of_homed {s m : State} (h : Homed s m) (hs : Claims.Roomy s) : Claims.Roomy m := fun k => (h.ringFull k).trans (hs k)

/-- With room in every spill ring no write is held. -/
theorem unitHeld_of_roomy {s : State} (h : Claims.Roomy s) (k : Nat) (bs : List Byte) : s.unitHeld k bs = false := by
  unfold State.unitHeld State.mustHold
  simp [h (s.sliceNo k)]

/-! A write performed. -/

theorem perform_homed (s : State) (w : Writer) (pa cls : Nat) (bs : List Byte) (tr : Bool) :
    Homed s (s.perform w pa cls bs tr).1 ∧ (∀ q, (s.perform w pa cls bs tr).1.memGet q = Claims.laid s.memGet pa bs q) ∧
    (tr = false → (s.perform w pa cls bs tr).1.ors = s.ors) := by
  have hc := Cached.l2Access (s.memWrite pa bs) pa cls true
  have hq := SameQueues.l2Access (s.memWrite pa bs) pa cls true
  unfold State.perform
  dsimp only
  generalize (s.memWrite pa bs).l2Access pa cls true = p at hc hq
  obtain ⟨m, v⟩ := p
  dsimp only at hc hq ⊢
  unfold Cached at hc
  have hm : Homed s { m with owners := regOwners m.owners w pa bs.length } :=
    ⟨by rw [hc]; rfl, fun d => by rw [hc]; rfl, ⟨hq.queued⟩⟩
  have hmem (q : Nat) : m.memGet q = Claims.laid s.memGet pa bs q := by
    rw [hc]
    exact memGet_memWrite ..
  have hors : m.ors = s.ors := by
    rw [hc]
    rfl
  cases tr with
  | false => exact ⟨hm, hmem, fun _ => hors⟩
  | true =>
    refine ⟨hm.trans ⟨?_, fun d => ?_, ?_⟩, fun q => ?_, nofun⟩
    · rw [if_pos rfl, compare_eq]
    · rw [if_pos rfl, compare_eq]
      rfl
    · rw [if_pos rfl, compare_eq]
      exact .of_eq rfl
    · rw [if_pos rfl, compare_eq]
      exact hmem q

/-- A write of a unit at a home of this package, which need not wait there. -/
theorem unitPut_home {s : State} (u : Unit_) {k : Nat} (cls : Nat) {bs : List Byte} {tr : Bool} (hk : Claims.Home s k)
    (hw : tr = true → s.unitHeld k bs = false ∧ s.behind u.id k bs.length = false) :
    Homed s (s.unitPut u k cls bs tr) ∧ (∀ q, (s.unitPut u k cls bs tr).memGet q = Claims.laid s.memGet k bs q) ∧
    (tr = false → (s.unitPut u k cls bs tr).ors = s.ors) := by
  unfold State.unitPut
  split
  · exact ⟨.memWrite .., fun q => memGet_memWrite .., fun _ => rfl⟩
  · next hfar =>
    have hl : s.local_ k = true := hk.resolve_left hfar
    have hno : (tr && (s.unitHeld k bs || s.behind u.id k bs.length)) = false := by
      cases tr with
      | false => rfl
      | true => simp [hw rfl]
    rw [hl, Bool.not_true, if_neg Bool.false_ne_true, hno, if_neg Bool.false_ne_true]
    obtain ⟨hp, hmem, hors⟩ := perform_homed s ⟨none, u.depth, u.src⟩ k cls bs tr
    dsimp only
    generalize s.perform ⟨none, u.depth, u.src⟩ k cls bs tr = p at hp hmem hors
    obtain ⟨m, v, out⟩ := p
    dsimp only at hp hmem hors ⊢
    have hr : Homed m (out.foldl (fun s c => s.revokeAt c k bs.length) m) := .foldl (fun s c => .revokeAt ..) _ _
    have hsame (f : State → State → Prop) (hf : ∀ a, f a a) (ht : ∀ a b c, f a b → f b c → f a c) (hs : ∀ a c, f a (a.revokeAt c k bs.length)) :
        f m (out.foldl (fun s c => s.revokeAt c k bs.length) m) := by
      clear hr hp hmem hors
      induction out generalizing m with
      | nil => exact hf m
      | cons c out ih => exact ht _ _ _ (hs m c) (ih _)
    refine ⟨hp.trans hr, fun q => ?_, fun ht => ?_⟩
    · exact (hsame (fun a b => b.memGet q = a.memGet q) (fun _ => rfl) (fun _ _ _ h g => g.trans h) (fun _ _ => rfl)).trans (hmem q)
    · exact (hsame (fun a b => b.ors = a.ors) (fun _ => rfl) (fun _ _ _ h g => g.trans h) (fun _ _ => rfl)).trans (hors ht)

theorem countSilent_homed (s : State) (ps : List (Nat × Nat × Nat)) (bs : List Byte) : Homed s (s.countSilent ps bs) := by
  rw [countSilent_eq]
  exact ⟨rfl, fun _ => rfl, .of_eq rfl⟩

theorem memGet_countSilent (s : State) (ps : List (Nat × Nat × Nat)) (bs : List Byte) (q : Nat) :
    (s.countSilent ps bs).memGet q = s.memGet q := by
  rw [countSilent_eq]
  rfl

/-- A word, or other bytes within a line, that a unit puts at a home of this package. -/
theorem putWord_home {s : State} (u : Unit_) {k : Nat} (cls : Nat) {bs : List Byte} (hk : Claims.Home s k) (hh : s.unitHeld k bs = false)
    (hb : s.behind u.id k bs.length = false) :
    Homed s (s.putWord u k cls bs) ∧ ∀ q, (s.putWord u k cls bs).memGet q = Claims.laid s.memGet k bs q := by
  have hc := countSilent_homed s [(k, cls, bs.length)] bs
  have hm := memGet_countSilent s [(k, cls, bs.length)] bs
  have hr : (s.countSilent [(k, cls, bs.length)] bs).memRead k bs.length = s.memRead k bs.length :=
    List.map_congr_left fun i _ => hm _
  obtain ⟨hp, hmem, -⟩ := unitPut_home (tr := true) u cls (hc.home hk) fun _ => ⟨(hc.unitHeld hr).trans hh, (hc.behind ..).trans hb⟩
  unfold State.putWord State.putPieces
  rw [if_pos rfl]
  unfold State.putEach State.putEach
  rw [List.take_length]
  exact ⟨hc.trans hp, fun q => (hmem q).trans (congrArg (fun f => Claims.laid f k bs q) (funext hm))⟩

/-- A word of a unit that a change turns into another at its home, at once (R296). -/
theorem changeAt_home {s : State} (u : Unit_) (kind : AccK) {k : Nat} (cls : Nat) {new : List Byte} (hk : Claims.Home s k)
    (hh : s.unitHeld k new = false) (hb : s.behind u.id k new.length = false) : s.changeAt u kind k cls new = s.putWord u k cls new := by
  unfold State.changeAt
  rw [hh, hb, Bool.or_false, if_neg Bool.false_ne_true, if_neg]
  simp only [Bool.and_eq_true, decide_eq_true_eq, Bool.not_eq_true', not_and, Bool.not_eq_false]
  exact fun h => hk.resolve_left (by omega)

/-- Where it must wait at its home, or goes to another package, an access is put in flight for it. -/
theorem changeAt_later {s : State} (u : Unit_) (kind : AccK) {k : Nat} (cls : Nat) {new : List Byte} (hk : k < 2 ^ 56)
    (hw : s.local_ k = true → s.unitHeld k new = true ∨ s.behind u.id k new.length = true) :
    s.changeAt u kind k cls new = if s.local_ k then s.addAccess (u.access kind s.seq k cls new.length true)
      else s.send (u.access kind s.seq k cls new.length false) := by
  unfold State.changeAt
  cases hl : s.local_ k with
  | false => simp only [hk, decide_true, Bool.not_false, Bool.and_self, if_true, Bool.false_eq_true, if_false]
  | true =>
    have h : (s.unitHeld k new || s.behind u.id k new.length) = true := by
      rcases hw hl with h | h <;> simp [h]
    rw [h]
    simp

end Sys2Proof.Proofs

end

section
/-! R302, R385, R389: accesses of the host and of other packages. -/

open Sys2Proof Sys2Proof.Machine

namespace Sys2Proof.Proofs

/-! Pieces that follow one another. -/

/-- Pieces (key, class, length) that fill n bytes from a key on, one after the other. -/
def Adjoin : List (Nat × Nat × Nat) → Nat → Nat → Prop
  | [], _, n => n = 0
  | p :: rest, a, n => p.1 = a ∧ p.2.2 ≤ n ∧ Adjoin rest (a + p.2.2) (n - p.2.2)

theorem adjoin_pieces (fuel a n : Nat) (h : n = 0 ∨ n + a % 64 ≤ 64 * fuel) : Adjoin ((pieces fuel a n).map fun p => (p.1, 0, p.2)) a n := by
  induction fuel generalizing a n with
  | zero => exact show n = 0 by omega
  | succ fuel ih =>
    unfold pieces
    split
    · next hn => exact hn
    · refine ⟨rfl, Nat.min_le_left .., ih _ _ ?_⟩
      have hlt := Nat.mod_lt a (show 0 < 64 by omega)
      by_cases hle : n ≤ 64 - a % 64
      · exact .inl (by omega)
      · exact .inr (by omega)

theorem adjoin_physPieces (pa n : Nat) : Adjoin (physPieces pa n) pa n := adjoin_pieces _ _ _ (.inr <| by
  have := Nat.mod_lt pa (show 0 < 64 by omega)
  omega)

theorem memRead_append (s : State) (a k n : Nat) (h : k ≤ n) : s.memRead a k ++ s.memRead (a + k) (n - k) = s.memRead a n := by
  unfold State.memRead
  conv_rhs => rw [← Nat.add_sub_cancel' h, List.range_add, List.map_append, List.map_map]
  simp [Function.comp_def, Nat.add_assoc]

theorem homeRead_home {s : State} {k : Nat} (h : Claims.Home s k) (n : Nat) : s.homeRead k n = s.memRead k n := by
  unfold State.homeRead
  rcases h with h | h
  · rw [if_neg (by simp only [Bool.and_eq_true, decide_eq_true_eq]; omega)]
  · simp [h]

theorem getPieces_adjoin (s : State) (ps : List (Nat × Nat × Nat)) (a n : Nat) (h : Adjoin ps a n) (hk : ∀ p ∈ ps, Claims.Home s p.1) :
    s.getPieces ps = s.memRead a n := by
  induction ps generalizing a n with
  | nil =>
    obtain rfl : n = 0 := h
    rfl
  | cons p rest ih =>
    obtain ⟨rfl, hle, hr⟩ := h
    have htail := ih _ _ hr fun q hq => hk q (List.mem_cons_of_mem _ hq)
    unfold State.getPieces at htail ⊢
    rw [List.flatMap_cons, htail, homeRead_home (hk p List.mem_cons_self), memRead_append s _ _ _ hle]

theorem laid_append (f : Nat → Byte) (a k : Nat) (bs : List Byte) (h : k ≤ bs.length) :
    Claims.laid (Claims.laid f a (bs.take k)) (a + k) (bs.drop k) = Claims.laid f a bs := by
  funext q
  unfold Claims.laid
  rw [List.length_drop, List.length_take, Nat.min_eq_left h]
  by_cases h1 : a + k ≤ q ∧ q < a + k + (bs.length - k)
  · rw [if_pos h1, if_pos (by omega)]
    simp only [List.getD_eq_getElem?_getD, List.getElem?_drop]
    rw [show k + (q - (a + k)) = q - a by omega]
  · rw [if_neg h1]
    by_cases h2 : a ≤ q ∧ q < a + k
    · rw [if_pos h2, if_pos (by omega)]
      simp only [List.getD_eq_getElem?_getD]
      rw [List.getElem?_take_of_lt (by omega)]
    · rw [if_neg h2, if_neg (by omega)]

/-- Whether writes are held depends on the bytes that they replace. -/
theorem heldPieces_homed {s m : State} (hm : Homed s m) (ps : List (Nat × Nat × Nat)) (a : Nat) (bs : List Byte) (h : Adjoin ps a bs.length)
    (hmem : ∀ q, a ≤ q → m.memGet q = s.memGet q) : m.heldPieces ps bs = s.heldPieces ps bs := by
  induction ps generalizing a bs with
  | nil => rfl
  | cons p rest ih =>
    obtain ⟨rfl, hle, hr⟩ := h
    unfold State.heldPieces
    rw [hm.unitHeld (List.map_congr_left fun i _ => hmem _ (Nat.le_add_right ..)),
      ih _ (bs.drop p.2.2) (by rwa [List.length_drop]) fun q hq => hmem q (by omega)]

/-- Writes over pieces that follow one another, none of which need wait. -/
theorem putEach_adjoin (u : Unit_) (ps : List (Nat × Nat × Nat)) (a : Nat) (bs : List Byte) (s : State) (h : Adjoin ps a bs.length)
    (hk : ∀ p ∈ ps, Claims.Home s p.1) (hh : s.heldPieces ps bs = false) (hb : ∀ p ∈ ps, s.behind u.id p.1 p.2.2 = false) :
    Homed s (s.putEach u true ps bs) ∧ ∀ q, (s.putEach u true ps bs).memGet q = Claims.laid s.memGet a bs q := by
  induction ps generalizing a bs s with
  | nil =>
    refine ⟨.refl s, fun q => ?_⟩
    have hn : bs.length = 0 := h
    unfold Claims.laid
    rw [if_neg (by omega)]
    rfl
  | cons p rest ih =>
    obtain ⟨k, c, n⟩ := p
    obtain ⟨rfl, hle, hr⟩ := h
    dsimp only at hle hr
    unfold State.heldPieces at hh
    rw [Bool.or_eq_false_iff] at hh
    have hlen : (bs.take n).length = n := by rw [List.length_take, Nat.min_eq_left hle]
    obtain ⟨hput, hmem, -⟩ := unitPut_home (tr := true) u c (hk _ List.mem_cons_self)
      fun _ => ⟨hh.1, by rw [hlen]; exact hb _ List.mem_cons_self⟩
    have hrest : Adjoin rest (k + n) (bs.drop n).length := by rwa [List.length_drop]
    have hheld := heldPieces_homed hput rest (k + n) (bs.drop n) hrest fun q hq => by
      rw [hmem]
      unfold Claims.laid
      rw [if_neg (by rw [hlen]; omega)]
    obtain ⟨hp, hm⟩ := ih (k + n) (bs.drop n) (s.unitPut u k c (bs.take n) true) hrest
      (fun q hq => hput.home (hk q (List.mem_cons_of_mem _ hq))) (hheld.trans hh.2)
      (fun q hq => (hput.behind ..).trans (hb q (List.mem_cons_of_mem _ hq)))
    unfold State.putEach
    refine ⟨hput.trans hp, fun q => ?_⟩
    rw [hm, show (s.unitPut u k c (bs.take n) true).memGet = Claims.laid s.memGet k (bs.take n) from funext hmem, laid_append _ _ _ _ hle]

theorem putPieces_adjoin (u : Unit_) {ps : List (Nat × Nat × Nat)} {a : Nat} {bs : List Byte} {s : State} (h : Adjoin ps a bs.length)
    (hk : ∀ p ∈ ps, Claims.Home s p.1) (hh : s.heldPieces ps bs = false) (hb : ∀ p ∈ ps, s.behind u.id p.1 p.2.2 = false) :
    Homed s (s.putPieces u true ps bs) ∧ ∀ q, (s.putPieces u true ps bs).memGet q = Claims.laid s.memGet a bs q := by
  have hc := countSilent_homed s ps bs
  have hm := memGet_countSilent s ps bs
  obtain ⟨hp, hmem⟩ := putEach_adjoin u ps a bs (s.countSilent ps bs) h (fun p hp => hc.home (hk p hp))
    ((heldPieces_homed hc ps a bs h fun q _ => hm q).trans hh) (fun p hp => (hc.behind ..).trans (hb p hp))
  unfold State.putPieces
  rw [if_pos rfl]
  exact ⟨hc.trans hp, fun q => by rw [hmem, show (s.countSilent ps bs).memGet = s.memGet from funext hm]⟩

/-! Accesses from outside. -/

theorem home_of_ours {s : State} {pa n : Nat} (h : s.ours pa n = true) : ∀ p ∈ physPieces pa n, s.local_ p.1 = true := by
  unfold State.ours at h
  rw [List.all_eq_true] at h
  intro p hp
  obtain ⟨q, hq, rfl⟩ := List.mem_map.mp hp
  have := h q hq
  simp only [Bool.and_eq_true] at this
  exact this.1.1

theorem local_of_ours {s : State} {pa n : Nat} (h : s.ours pa n = true) (hn : 0 < n) : s.local_ pa = true :=
  home_of_ours h (pa, 0, min n (64 - pa % 64)) <| List.mem_map.mpr ⟨(pa, min n (64 - pa % 64)), by
    unfold piecesOf pieces
    rw [if_neg (by omega)]
    exact List.mem_cons_self, rfl⟩

/-- A write from outside at homes of this package. -/
theorem outside_write {s : State} {pa : Nat} {bs : List Byte} (depth src : Nat) (h : s.ours pa bs.length = true) (hf : Claims.Free s pa bs) :
    Homed s (s.putPieces (outside depth src) true (physPieces pa bs.length) bs) ∧
    ∀ q, (s.putPieces (outside depth src) true (physPieces pa bs.length) bs).memGet q = Claims.laid s.memGet pa bs q :=
  putPieces_adjoin _ (adjoin_physPieces ..) (fun p hp => .inr (home_of_ours h p hp)) hf.1 hf.2

/-- What reads at homes of this package change: the shared caches and the errors noted. -/
def Looks (s m : State) : Prop :=
  m = { s with slices := m.slices, eccOnes := m.eccOnes, ctr := m.ctr, comp := m.comp, free := m.free }

theorem Looks.trans {a b c : State} (h : Looks a b) (g : Looks b c) : Looks a c := by
  unfold Looks at *
  rw [g, h]

theorem Looks.corrected (s : State) (k : Nat) : Looks s (s.corrected k) := by
  unfold State.corrected
  split <;> rfl

theorem Looks.of_cached {s m : State} (h : Cached s m) : Looks s m := by
  unfold Cached at h
  unfold Looks
  rw [h]

theorem Looks.noteBad (s : State) (ps : List (Nat × Nat × Nat)) : Looks s (s.noteBad ps) := by
  unfold State.noteBad
  split
  · unfold State.noteEcc
    split <;> rfl
  · rfl

theorem Looks.readPieces (ps : List (Nat × Nat × Nat)) (s : State) (h : ∀ p ∈ ps, s.local_ p.1 = true) : Looks s (s.readPieces ps) := by
  induction ps generalizing s with
  | nil => rfl
  | cons p rest ih =>
    have hc := Looks.corrected s p.1
    have hl : (s.corrected p.1).local_ p.1 = true := by
      rw [hc]
      exact h p List.mem_cons_self
    have hread : Looks s (s.readAt p.1 p.2.1) := by
      unfold State.readAt
      dsimp only
      rw [if_pos hl]
      split
      · exact hc
      · exact hc.trans (.of_cached (.l2Access ..))
    have hlocal : ∀ q ∈ rest, (s.readAt p.1 p.2.1).local_ q.1 = true := fun q hq => by
      rw [hread]
      exact h q (List.mem_cons_of_mem _ hq)
    exact hread.trans (ih _ hlocal)

theorem eccBad_corrected (s : State) (pa k : Nat) : (s.corrected k).eccBad pa = s.eccBad pa := by
  unfold State.corrected
  split <;> rfl

/-- An atomic of another package on a word that can be read. -/
theorem remote_atomic {s : State} {src depth pa : Nat} {size : Size} {sx : Bool} {ft : Fin 3} {op : AOp} {b c : W64}
    (hl : s.local_ pa = true) (hbad : s.eccBad pa = false)
    (hh : s.unitHeld pa (toLe size.bytes (atomNew op ft.val sx (8 * size.bytes) (ofLe (s.memRead pa size.bytes))
      (b.toNat % 2 ^ (8 * size.bytes)) (c.toNat % 2 ^ (8 * size.bytes)))) = false) (hb : s.behind 0 pa size.bytes = false) :
    Homed s (s.remote src depth (.atomic pa size sx ft op b c)) ∧
    ∀ q, (s.remote src depth (.atomic pa size sx ft op b c)).memGet q = Claims.laid s.memGet pa
      (toLe size.bytes (atomNew op ft.val sx (8 * size.bytes) (ofLe (s.memRead pa size.bytes))
        (b.toNat % 2 ^ (8 * size.bytes)) (c.toNat % 2 ^ (8 * size.bytes)))) q := by
  have hc : Homed s (s.corrected pa) := .of_aside (.corrected ..) (.of_eq (by unfold State.corrected; split <;> rfl))
  have hm (q : Nat) : (s.corrected pa).memGet q = s.memGet q := by
    unfold State.corrected
    split <;> rfl
  have hr (n : Nat) : (s.corrected pa).memRead pa n = s.memRead pa n := List.map_congr_left fun _ _ => hm _
  unfold State.remote
  dsimp only
  rw [eccBad_corrected, hbad, if_neg Bool.false_ne_true, hr]
  generalize hnew : toLe size.bytes (atomNew op ft.val sx (8 * size.bytes) (ofLe (s.memRead pa size.bytes))
    (b.toNat % 2 ^ (8 * size.bytes)) (c.toNat % 2 ^ (8 * size.bytes))) = new at hh ⊢
  have hlen : new.length = size.bytes := by rw [← hnew, length_toLe]
  have hh' : (s.corrected pa).unitHeld pa new = false := (hc.unitHeld (hr _)).trans hh
  have hb' : (s.corrected pa).behind (outside depth src).id pa new.length = false := by
    rw [hc.behind, hlen]
    exact hb
  have hk : Claims.Home (s.corrected pa) pa := hc.home (.inr hl)
  rw [changeAt_home _ _ _ hk hh' hb']
  obtain ⟨hp, hmem⟩ := putWord_home (outside depth src) 0 hk hh' hb'
  exact ⟨hc.trans hp, fun q => by rw [hmem, show (s.corrected pa).memGet = s.memGet from funext hm]⟩

/-- A packet whose number is the first of its source is performed (R389). -/
theorem exec_remote {s : State} {src n depth : Nat} {op : RemoteOp} (hp : s.portsUp ≠ []) (hs : src ≠ s.pkg) (h288 : src < 288)
    (hd : depth ≤ 31) (hn : n < 2 ^ 32) (hw : s.window.get [] src = []) (hbad : remoteBad op = false)
    (ho : s.ours (remotePlace op).1 (remotePlace op).2 = true) :
    exec (.remotePacketReceive src n depth op) s = .next { s.remote src depth op with window := s.window.put src [n] } := by
  show execRemotePacketReceive src n depth op s = _
  unfold execRemotePacketReceive
  dsimp only
  rw [if_neg, hw]
  · rfl
  · simp only [List.isEmpty_iff, hp, hbad, ho, Bool.not_true, Bool.or_false, Bool.or_eq_true, decide_eq_true_eq, beq_iff_eq, hs, false_or,
      not_or, Bool.false_eq_true, decide_false]
    omega

/-- A number that was seen is not performed again (R389). -/
theorem seqNext_seen {seen : List Nat} {n : Nat} (hin : n ∈ seen) (hn : n < 2 ^ 32) (hlt : ∀ m ∈ seen, m < 2 ^ 32)
    (hh : ∀ h t, seen = h :: t → ∀ m ∈ t, m ≠ h ∧ (h + 2 ^ 32 - m) % 2 ^ 32 < 2 ^ 31) : seqNext seen n = none := by
  cases seen with
  | nil => exact absurd hin List.not_mem_nil
  | cons h t =>
    have hlh := hlt h List.mem_cons_self
    unfold seqNext
    dsimp only
    rcases List.mem_cons.mp hin with rfl | ht
    · rw [if_pos (by omega)]
    · obtain ⟨hne, hb⟩ := hh h t rfl n ht
      rw [if_neg (by omega), if_neg (by omega), if_neg]
      rw [List.contains_iff_mem.mpr ht, Bool.not_true, Bool.and_false]
      exact Bool.false_ne_true

theorem exec_seen {s : State} {src n depth : Nat} {op : RemoteOp} (h : seqNext (s.window.get [] src) n = none) :
    exec (.remotePacketReceive src n depth op) s = .next s := by
  show execRemotePacketReceive src n depth op s = _
  unfold execRemotePacketReceive
  dsimp only
  rw [h]
  split <;> rfl

/-- Settles O58, from what a write over adjoining pieces, an atomic and reads leave as it was. -/
theorem outsideAccesses : Obligations.OutsideAccesses := by
  refine ⟨fun pa bs s hup ho hf _ => ?_, fun pa len s hup ho _ => ?_, fun src n depth s hp hs h288 hd hn hw => ⟨?_, ?_, ?_⟩, ?_⟩
  · obtain ⟨h, hm⟩ := outside_write 0 s.pkg ho hf
    refine ⟨_, ?_, h.teams, h.ridges, h.accs, h.ctxs, h.parts, hm⟩
    show execHostWrite pa bs s = _
    unfold execHostWrite
    rw [hup, ho]
    rfl
  · refine ⟨{ (s.readPieces (physPieces pa len)).noteBad (physPieces pa len) with
        hostData := if s.badPieces (physPieces pa len) then [] else s.getPieces (physPieces pa len) }, ?_, ?_⟩
    · show execHostRead pa len s = _
      unfold execHostRead
      rw [hup, ho]
      rfl
    · have hl := (Looks.readPieces (physPieces pa len) s (home_of_ours ho)).trans (.noteBad _ (physPieces pa len))
      rw [getPieces_adjoin s _ pa len (adjoin_physPieces ..) fun p hp => .inr (home_of_ours ho p hp)]
      generalize (s.readPieces (physPieces pa len)).noteBad (physPieces pa len) = m at hl
      unfold Looks at hl
      rw [hl]
  · intro pa bs ho _ hf
    obtain ⟨h, hm⟩ := outside_write depth src ho hf
    exact ⟨_, exec_remote hp hs h288 hd hn hw rfl ho, h.teams, h.accs, h.ctxs, h.parts, Tbl.get_put_same .., hm⟩
  · intro pa size sx ft op b c k new ho _ hal hbad hh hb
    have hl := local_of_ours ho (show 0 < k by cases size <;> decide)
    obtain ⟨h, hm⟩ := remote_atomic (src := src) (depth := depth) hl hbad hh hb
    exact ⟨_, exec_remote hp hs h288 hd hn hw (by simpa [remoteBad] using hal) ho, h.teams, h.accs, h.ctxs, h.parts, Tbl.get_put_same .., hm⟩
  · intro pa len ho
    refine ⟨_, exec_remote hp hs h288 hd hn hw rfl ho, ?_, Tbl.get_put_same ..⟩
    have hl : Looks s (s.remote src depth (.read pa len)) := (Looks.readPieces (physPieces pa len) s (home_of_ours ho)).trans (.noteBad ..)
    generalize s.remote src depth (.read pa len) = m at hl
    unfold Looks at hl
    rw [hl]
  · exact fun src n depth op s hin hn hlt hh => exec_seen (seqNext_seen hin hn hlt hh)

end Sys2Proof.Proofs

end

section
/-! R289, R296, R335: a 64-bit word at an address of a context that a unit changes at its home. -/

open Sys2Proof Sys2Proof.Machine

namespace Sys2Proof.Proofs

/-! States that agree in all that a unit's way to memory depends on. -/

/-- m is s but for parties, units and what contexts hold beside their page tables and watches. -/
structure SameWays (s m : State) : Prop where
  rest : m = { s with teams := m.teams, ridges := m.ridges, blocks := m.blocks, cores := m.cores, stks := m.stks, parts := m.parts,
                      launches := m.launches, ending := m.ending, ops := m.ops, seq := m.seq, ctxs := m.ctxs }
  roots : ∀ c, (m.ctx c).ptroot = (s.ctx c).ptroot
  watches : ∀ c, (m.ctx c).watches = (s.ctx c).watches
  granules : ∀ pa p, (m.granules pa).any p = (s.granules pa).any p

section
variable {s m : State} (h : SameWays s m)
include h

theorem SameWays.mem : m.mem = s.mem := by rw [h.rest]

theorem SameWays.memGet (q : Nat) : m.memGet q = s.memGet q := by
  unfold State.memGet
  rw [h.mem]

theorem SameWays.memRead (k n : Nat) : m.memRead k n = s.memRead k n := List.map_congr_left fun _ _ => h.memGet _

theorem SameWays.local_ (k : Nat) : m.local_ k = s.local_ k := by
  unfold State.local_
  rw [h.rest]

theorem SameWays.behind (id k n : Nat) : m.behind id k n = s.behind id k n := by
  unfold State.behind
  rw [h.rest]

theorem SameWays.homeRead (f k n : Nat) : State.homeRead { m with free := f } k n = State.homeRead { s with free := f } k n := by
  unfold State.homeRead
  rw [show State.local_ { m with free := f } k = State.local_ { s with free := f } k from h.local_ k,
    show State.memRead { m with free := f } k n = State.memRead { s with free := f } k n from h.memRead k n]

theorem SameWays.wordHere (k : Nat) : Claims.wordHere m k = Claims.wordHere s k := by
  have hf : m.free = s.free := by rw [h.rest]
  have := h.homeRead s.free k 8
  unfold Claims.wordHere
  exact congrArg ofLe ((congrArg (fun f => State.homeRead { m with free := f } k 8) hf).trans this)

theorem SameWays.clean (hc : Claims.Clean s) : Claims.Clean m := by
  rw [h.rest]
  exact hc

theorem SameWays.walk (hc : Claims.Clean s) (f ctx a : Nat) : State.walk { m with free := f } ctx a = State.walk { s with free := f } ctx a := by
  have hreach (pa : Nat) : m.reach pa = s.reach pa := by
    rw [h.rest]
    rfl
  have hfrom := walkFrom_congr (s := { s with free := f }) (m := { m with free := f }) hc (h.clean hc) (fun k => h.homeRead f k 8)
    (fun e lvl => by rw [h.rest]; rfl) ctx a 5 0
  have hr (t : Tr) : State.reached { m with free := f } a t = State.reached { s with free := f } a t := by
    unfold State.reached
    split
    · exact congrArg (fun b => if b = true then Tr.ok _ else .noperm) (hreach _)
    · rfl
  unfold State.walk
  dsimp only
  rw [hfrom, hr, show State.ctx { m with free := f } ctx = m.ctx ctx from rfl, h.roots, show State.ctx { s with free := f } ctx = s.ctx ctx from rfl,
    show State.reach { m with free := f } = m.reach from rfl, show State.reach { s with free := f } = s.reach from rfl, hreach]

theorem SameWays.unitHeld (k : Nat) (bs : List Byte) : m.unitHeld k bs = s.unitHeld k bs := by
  have hw (a b : Nat) : m.watch? a b = s.watch? a b := by
    unfold State.watch?
    rw [h.watches]
  have hn : m.sliceNo k = s.sliceNo k := by
    rw [h.rest]
    rfl
  have hs (j : Nat) : m.slice j = s.slice j := by
    rw [h.rest]
    rfl
  unfold State.unitHeld State.mustHold
  simp only [h.local_, h.memRead, h.granules, hw, hn, hs]

theorem Claims.Translates.congr {ctx a : Nat} {e : TlbE} (g : Claims.Translates s ctx a e) : Claims.Translates m ctx a e :=
  ⟨h.clean g.1, fun f => (h.walk g.1 f ctx a).trans (g.2 f)⟩

theorem Claims.UnitWord.congr {ctx id a k new : Nat} {rd : Bool} (g : Claims.UnitWord s ctx id a k new rd) :
    Claims.UnitWord m ctx id a k new rd := by
  obtain ⟨e, ht, hr, hw, hk, hlt, hl, hh, hb⟩ := g
  exact ⟨e, Claims.Translates.congr h ht, hr, hw, hk, hlt, (h.local_ k).trans hl, (h.unitHeld ..).trans hh, (h.behind ..).trans hb⟩

theorem Claims.UnitLater.congr {ctx id a k new : Nat} {rd : Bool} (g : Claims.UnitLater s ctx id a k new rd) :
    Claims.UnitLater m ctx id a k new rd := by
  obtain ⟨e, ht, hr, hw, hk, hlt, hl⟩ := g
  refine ⟨e, Claims.Translates.congr h ht, hr, hw, hk, hlt, ?_⟩
  rwa [h.local_, h.unitHeld, h.behind]

end

theorem SameWays.of_ctxs {s m : State}
    (h : m = { s with
      teams := m.teams, ridges := m.ridges, blocks := m.blocks, cores := m.cores, stks := m.stks, parts := m.parts,
      launches := m.launches, ending := m.ending, ops := m.ops, seq := m.seq }) : SameWays s m :=
  ⟨by rw [h], fun c => by rw [h]; rfl, fun c => by rw [h]; rfl, fun pa p => by rw [h]; rfl⟩

theorem mem_put_of_mem {α : Type} {t : Tbl α} {c : Nat × α} (x : Nat) (y : α) (h : c ∈ t) :
    c ∈ Tbl.put t x y ∨ t.find c.1 = some c.2 ∧ c.1 = x := by
  induction t with
  | nil => cases h
  | cons d t ih =>
    obtain ⟨k, v⟩ := d
    unfold Tbl.put Tbl.find
    rcases List.mem_cons.mp h with rfl | h
    · by_cases hx : x = k
      · exact .inr ⟨if_pos rfl, hx.symm⟩
      · rw [if_neg hx]
        split
        · exact .inl (List.mem_cons_of_mem _ List.mem_cons_self)
        · exact .inl List.mem_cons_self
    · by_cases hx : x = k
      · rw [if_pos hx]
        exact .inl (List.mem_cons_of_mem _ h)
      · rw [if_neg hx]
        split
        · exact .inl (List.mem_cons_of_mem _ (List.mem_cons_of_mem _ h))
        · rcases ih h with h | ⟨h1, h2⟩
          · exact .inl (List.mem_cons_of_mem _ h)
          · exact .inr ⟨by rw [if_neg (by rw [h2]; exact hx)]; exact h1, h2⟩

theorem find_of_mem {α : Type} {t : Tbl α} {c : Nat × α} (h : c ∈ t) : ∃ v, t.find c.1 = some v := by
  induction t with
  | nil => cases h
  | cons d t ih =>
    obtain ⟨k, v⟩ := d
    unfold Tbl.find
    split
    · exact ⟨v, rfl⟩
    · next hne =>
      rcases List.mem_cons.mp h with rfl | h
      · exact absurd rfl hne
      · exact ih h

theorem mem_of_find {α : Type} {t : Tbl α} {k : Nat} {v : α} (h : t.find k = some v) : (k, v) ∈ t := by
  induction t with
  | nil => cases h
  | cons d t ih =>
    obtain ⟨j, u⟩ := d
    unfold Tbl.find at h
    split at h
    · next hk =>
      cases h
      rw [hk]
      exact List.mem_cons_self
    · exact List.mem_cons_of_mem _ (ih h)

/-- A change of a context that keeps its watches keeps the granules that are watched. -/
theorem any_granules_modCtx (s : State) (ctx : Nat) (f : Ctx → Ctx) (hf : (f (s.ctx ctx)).watches = (s.ctx ctx).watches) (pa : Nat)
    (p : Nat × Nat × Nat → Bool) : ((s.modCtx ctx f).granules pa).any p = (s.granules pa).any p := by
  have hsame (x : Nat × Ctx) : (x.2.watches.flatMap fun w => (w.2.indices pa).map fun i => (x.1, w.1, i)) =
    ((x.1, x.2.watches).2.flatMap fun w => (w.2.indices pa).map fun i => ((x.1, x.2.watches).1, w.1, i)) := rfl
  rw [Bool.eq_iff_iff, List.any_eq_true, List.any_eq_true]
  refine exists_congr fun g => and_congr_left fun _ => ?_
  unfold State.granules
  simp only [List.mem_flatMap]
  constructor
  · rintro ⟨c, hc, hg⟩
    rcases Tbl.mem_put hc with rfl | hc
    · dsimp only at hg
      rw [hf] at hg
      cases hfind : s.ctxs.find ctx with
      | none =>
        rw [State.ctx, Tbl.get_eq_find, hfind] at hg
        obtain ⟨w, hw, -⟩ := hg
        cases hw
      | some x =>
        rw [State.ctx, Tbl.get_eq_find, hfind] at hg
        exact ⟨(ctx, x), mem_of_find hfind, hg⟩
    · exact ⟨c, hc, hg⟩
  · rintro ⟨c, hc, hg⟩
    rcases mem_put_of_mem ctx (f (s.ctx ctx)) hc with hin | ⟨hfind, rfl⟩
    · exact ⟨c, hin, hg⟩
    · refine ⟨(c.1, f (s.ctx c.1)), mem_of_find (Tbl.find_put_same ..), ?_⟩
      dsimp only
      rw [hf, State.ctx, Tbl.get_eq_find, hfind]
      exact hg

theorem SameWays.modCtx (s : State) (ctx : Nat) (f : Ctx → Ctx) (hr : (f (s.ctx ctx)).ptroot = (s.ctx ctx).ptroot)
    (hw : (f (s.ctx ctx)).watches = (s.ctx ctx).watches) : SameWays s (s.modCtx ctx f) := by
  refine ⟨rfl, fun c => ?_, fun c => ?_, any_granules_modCtx s ctx f hw⟩
  · by_cases h : c = ctx
    · rw [h, ctx_modCtx_same, hr]
    · rw [ctx_modCtx_of_ne _ h]
  · by_cases h : c = ctx
    · rw [h, ctx_modCtx_same, hw]
    · rw [ctx_modCtx_of_ne _ h]

theorem SameWays.trans {a b c : State} (h : SameWays a b) (g : SameWays b c) : SameWays a c :=
  ⟨by rw [g.rest, h.rest], fun x => (g.roots x).trans (h.roots x), fun x => (g.watches x).trans (h.watches x),
    fun pa p => (g.granules pa p).trans (h.granules pa p)⟩

/-! The change of the word. -/

theorem memGet_startWalk (s : State) (st core ctx va q : Nat) : (s.startWalk st core ctx va).memGet q = s.memGet q :=
  (WalkAside.startWalk s st core ctx va).memGet q

theorem walk_startWalk {s : State} {ctx a : Nat} {e : TlbE} (h : Claims.Translates s ctx a e) (st core ctx' va : Nat) :
    (s.startWalk st core ctx' va).walk ctx a = .ok e := by
  have hh := Homed.startWalk s st core ctx' va
  have hcores : (s.startWalk st core ctx' va).cores = s.cores := by
    rw [show s.startWalk st core ctx' va = _ from WalkAside.startWalk s st core ctx' va]
  have hmem : (s.startWalk st core ctx' va).mem = s.mem := by
    rw [show s.startWalk st core ctx' va = _ from WalkAside.startWalk s st core ctx' va]
  have how : (s.startWalk st core ctx' va).owners = s.owners := by
    rw [show s.startWalk st core ctx' va = _ from WalkAside.startWalk s st core ctx' va]
  have hors : (s.startWalk st core ctx' va).ors = s.ors := by
    rw [show s.startWalk st core ctx' va = _ from WalkAside.startWalk s st core ctx' va]
  generalize s.startWalk st core ctx' va = m at *
  refine (walk_congr h.1 ?_ ctx a).trans (h.2 m.free)
  have hr := hh.rest
  rw [hmem, how, hors] at hr
  rw [hr]

theorem homeRead_of_mem {s m : State} {k : Nat} (hl : Claims.Home s k) (h : Homed s m) (hm : ∀ q, m.memGet q = s.memGet q) (n : Nat) :
    m.homeRead k n = s.homeRead k n := by
  rw [homeRead_home hl, homeRead_home (h.home hl)]
  exact List.map_congr_left fun _ _ => hm _

/-- A unit changes a word at once. -/
theorem unitUpd_home {s : State} {ctx id a k : Nat} {rd : Bool} {f : WordOp}
    (h : Claims.UnitWord s ctx id a k (f.on (Claims.wordHere s k)) rd) :
    ∃ m, s.unitUpd ctx a rd f id = some m ∧ Homed s m ∧
      ∀ q, m.memGet q = Claims.laid s.memGet k (toLe 8 (f.on (Claims.wordHere s k))) q := by
  obtain ⟨e, ht, hr, hw, rfl, hlt, hl, hh, hb⟩ := h
  unfold State.unitUpd
  dsimp only
  unfold State.unitWalk
  have hwalk := walk_startWalk ht (s.partn (s.ctx ctx).part).first (unitCore s.pkg) ctx a
  have hn := Homed.startWalk s (s.partn (s.ctx ctx).part).first (unitCore s.pkg) ctx a
  have hmem := memGet_startWalk s (s.partn (s.ctx ctx).part).first (unitCore s.pkg) ctx a
  generalize s.startWalk (s.partn (s.ctx ctx).part).first (unitCore s.pkg) ctx a = n at hwalk hn hmem ⊢
  have hperm : ((rd && !e.r) || !e.w) = false := by
    rw [hw]
    cases hrd : rd
    · rfl
    · rw [hr hrd]
      rfl
  have hk : Claims.Home s (e.phys a) := .inr hl
  have hlen : (toLe 8 (f.on (Claims.wordHere s (e.phys a)))).length = 8 := length_toLe ..
  rw [hwalk]
  dsimp only
  rw [hperm, if_neg Bool.false_ne_true]
  unfold State.wordAt
  rw [homeRead_of_mem hk hn hmem, show ofLe (s.homeRead (e.phys a) 8) = Claims.wordHere s (e.phys a) from rfl]
  have hh' : n.unitHeld (e.phys a) (toLe 8 (f.on (Claims.wordHere s (e.phys a)))) = false :=
    (hn.unitHeld (List.map_congr_left fun _ _ => hmem _)).trans hh
  have hb' : n.behind id (e.phys a) (toLe 8 (f.on (Claims.wordHere s (e.phys a)))).length = false := by
    rw [hn.behind, hlen]
    exact hb
  rw [changeAt_home _ _ _ (hn.home hk) hh' hb']
  obtain ⟨hp, hm⟩ := putWord_home ⟨ctx, id, 0, n.pkg⟩ e.cls (hn.home hk) hh' hb'
  exact ⟨_, rfl, hn.trans hp, fun q => by rw [hm, show n.memGet = s.memGet from funext hmem]⟩

/-- What an access put in flight adds. -/
structure Flown (s m : State) : Prop where
  teams : m.teams = s.teams
  blocks : m.blocks = s.blocks
  ctxs : m.ctxs = s.ctxs
  parts : m.parts = s.parts
  launches : m.launches = s.launches
  mem : ∀ q, m.memGet q = s.memGet q

/-- A word of a unit's that it changes later: at its home, once it may, or in another package. -/
theorem unitUpd_later {s : State} {ctx id a k : Nat} {rd : Bool} {f : WordOp}
    (h : Claims.UnitLater s ctx id a k (f.on (Claims.wordHere s k)) rd) :
    ∃ m, s.unitUpd ctx a rd f id = some m ∧ Flown s m ∧ Claims.Later s m id k f := by
  obtain ⟨e, ht, hr, hw, rfl, hlt, hl⟩ := h
  unfold State.unitUpd
  dsimp only
  unfold State.unitWalk
  have hwalk := walk_startWalk ht (s.partn (s.ctx ctx).part).first (unitCore s.pkg) ctx a
  have hn := Homed.startWalk s (s.partn (s.ctx ctx).part).first (unitCore s.pkg) ctx a
  have hmem := memGet_startWalk s (s.partn (s.ctx ctx).part).first (unitCore s.pkg) ctx a
  have hlaunches : (s.startWalk (s.partn (s.ctx ctx).part).first (unitCore s.pkg) ctx a).launches = s.launches := by rw [hn.rest]
  generalize s.startWalk (s.partn (s.ctx ctx).part).first (unitCore s.pkg) ctx a = n at hwalk hn hmem hlaunches ⊢
  have hperm : ((rd && !e.r) || !e.w) = false := by
    rw [hw]
    cases hrd : rd
    · rfl
    · rw [hr hrd]
      rfl
  rw [hwalk]
  dsimp only
  rw [hperm, if_neg Bool.false_ne_true]
  unfold State.wordAt
  have hlen (v : Nat) : (toLe 8 (f.on v)).length = 8 := length_toLe ..
  have hwait (hloc : n.local_ (e.phys a) = true) : n.unitHeld (e.phys a) (toLe 8 (f.on (ofLe (n.homeRead (e.phys a) 8)))) = true ∨
      n.behind id (e.phys a) (toLe 8 (f.on (ofLe (n.homeRead (e.phys a) 8)))).length = true := by
    rw [hn.local_] at hloc
    rw [homeRead_of_mem (.inr hloc) hn hmem, show ofLe (s.homeRead (e.phys a) 8) = Claims.wordHere s (e.phys a) from rfl,
      hn.unitHeld (List.map_congr_left fun _ _ => hmem _), hn.behind, hlen]
    exact hl hloc
  rw [changeAt_later ⟨ctx, id, 0, n.pkg⟩ f.kind e.cls hlt hwait, hn.local_, hlen]
  have hfly (held : Bool) (hheld : held = s.local_ (e.phys a)) (m : State)
      (hm : ∃ q, m = { n with accs := n.accs ++ [q], seq := m.seq, sent := m.sent } ∧
        q = { Unit_.access ⟨ctx, id, 0, n.pkg⟩ f.kind n.seq (e.phys a) e.cls 8 held with id := q.id, pkgSeq := q.pkgSeq, port := q.port }) :
      Flown s m ∧ Claims.Later s m id (e.phys a) f := by
    obtain ⟨q, hm, hq⟩ := hm
    refine ⟨⟨?_, ?_, ?_, ?_, ?_, fun x => ?_⟩, q, ?_, ?_, ?_, ?_, ?_, ?_, ?_, ?_⟩
    · rw [hm]; exact hn.teams
    · rw [hm]; exact hn.blocks
    · rw [hm]; exact hn.ctxs
    · rw [hm]; exact hn.parts
    · rw [hm]; exact hlaunches
    · rw [hm]; exact hmem x
    · rw [hm]; exact congrArg (· ++ [q]) hn.accs
    all_goals rw [hq]
    · rfl
    · rfl
    · rfl
    · rfl
    · show decide (65536 ≤ unitCore n.pkg) = true
      unfold unitCore
      exact decide_eq_true (Nat.le_add_right ..)
    · rfl
    · exact hheld
  refine ⟨_, rfl, ?_⟩
  split
  · next hloc => exact hfly true hloc.symm _ ⟨_, rfl, rfl⟩
  · next hloc =>
    rw [Bool.not_eq_true] at hloc
    refine hfly false hloc.symm _ ?_
    unfold State.send
    split
    · exact ⟨_, rfl, rfl⟩
    · exact ⟨_, rfl, rfl⟩

end Sys2Proof.Proofs

end

section
/-! R353, R354, R356: how launches, counted teams and work domains end. -/

open Sys2Proof Sys2Proof.Machine

namespace Sys2Proof.Proofs

/-! Work of a domain (R353). -/

theorem sgn_wrap (x : Int) : sgn 64 (wrap 64 x) = (BitVec.ofInt 64 x).toInt := by
  rw [← sgn_toNat]
  unfold wrap
  rw [BitVec.toNat_ofInt]

/-- Work added to a domain on a stack changes that part alone. -/
theorem workOf_emberAdd (s : State) (ctx dom st : Nat) (v : Int) {j k : Nat} (hst : st < 8) (hk : k < 8) :
    Claims.workOf (s.emberAdd ctx dom st v) ctx j k =
      if v ≠ 0 ∧ j = dom ∧ k = st then (BitVec.ofInt 64 (Claims.workOf s ctx dom st + v)).toInt else Claims.workOf s ctx j k := by
  unfold State.emberAdd
  split
  · next hv => rw [if_neg fun h => h.1 hv]
  · next hv =>
    unfold Claims.workOf emberKey
    rw [ctx_modCtx_same]
    dsimp only
    rw [Tbl.get_put]
    by_cases hjk : j = dom ∧ k = st
    · obtain ⟨rfl, rfl⟩ := hjk
      rw [if_pos rfl, if_pos ⟨hv, rfl, rfl⟩, ← sgn_wrap]
    · rw [if_neg (by omega), if_neg fun h => hjk h.2]

theorem emberAdd_ctxs (s : State) (ctx dom st : Nat) (v : Int) :
    s.emberAdd ctx dom st v = { s with ctxs := (s.emberAdd ctx dom st v).ctxs } := by
  unfold State.emberAdd
  split <;> rfl

theorem ctx_emberAdd_of_ne (s : State) (ctx dom st : Nat) (v : Int) {c : Nat} (h : c ≠ ctx) : (s.emberAdd ctx dom st v).ctx c = s.ctx c := by
  unfold State.emberAdd
  split
  · rfl
  · exact ctx_modCtx_of_ne _ h

/-- COUNTED_TEAM_DONE, once the team's writes are acknowledged. -/
theorem exec_countedTeamDone {k : Nat} {e : Ending} {s : State} (he : s.ending[k]? = some e) (hq : s.quiet [e.uid] = true)
    (hh : (s.partn (s.partOf e.stack)).halting = none) :
    exec (.countedTeamDone k) s = .next (State.emberAdd { s with ending := s.ending.eraseIdx k } e.ctx e.dom e.stack (-1)) := by
  show execCountedTeamDone k s = _
  unfold execCountedTeamDone
  rw [he]
  dsimp only
  rw [hq, hh]
  rfl

/-! Signals (R335, R356). -/

/-- The step that makes it so. -/
theorem less_eq (n : Nat) : decrement.on n = Claims.less n := by
  show (n + (2 ^ 64 - 1)) % 2 ^ 64 = (n + 2 ^ 64 - 1) % 2 ^ 64
  omega

theorem signal_eq {s m : State} {ctx part a id : Nat} (h : s.unitUpd ctx a true decrement id = some m) : s.signal ctx part a id = m := by
  unfold State.signal
  rw [h]

/-- A signal is decremented at once. -/
theorem signal_home {s : State} {ctx id a k : Nat} (part : Nat) (h : Claims.UnitWord s ctx id a k (Claims.less (Claims.wordHere s k)) true) :
    Homed s (s.signal ctx part a id) ∧
      ∀ q, (s.signal ctx part a id).memGet q = Claims.laid s.memGet k (toLe 8 (Claims.less (Claims.wordHere s k))) q := by
  rw [← less_eq] at h ⊢
  obtain ⟨m, hm, hh, hmem⟩ := unitUpd_home h
  rw [signal_eq hm]
  exact ⟨hh, hmem⟩

/-- A signal is decremented later. -/
theorem signal_later {s : State} {ctx id a k : Nat} (part : Nat) (h : Claims.UnitLater s ctx id a k (Claims.less (Claims.wordHere s k)) true) :
    Flown s (s.signal ctx part a id) ∧ Claims.Later s (s.signal ctx part a id) id k decrement := by
  rw [← less_eq] at h
  obtain ⟨m, hm, hh⟩ := unitUpd_later h
  rw [signal_eq hm]
  exact hh

/-- LAUNCH_SIGNAL_DECREMENT of a launch that is over. -/
theorem exec_launchSignalDecrement {k : Nat} {r : LaunchRun} {s : State} (hr : s.launches.find k = some r) (hl : r.left = 0)
    (hq : s.quiet r.uids = true) (hh : (s.partn r.part).halting = none) :
    exec (.launchSignalDecrement k) s = .next (match r.signal with
      | none => { s with launches := s.launches.del k }
      | some a => State.signal { s with launches := s.launches.del k } r.ctx r.part a) := by
  show execLaunchSignalDecrement k s = _
  unfold execLaunchSignalDecrement
  rw [hr]
  dsimp only
  rw [hl, hq, hh]
  cases r.signal <;> exact congrArg Host.Outcome.next (if_neg (by simp))

/-! Passes over the work of a domain (R354). -/

/-- A context once a first pass over a domain has noted that it sums to zero. -/
def firstPass (dom : Nat) (x : Ctx) : Ctx :=
  { x with
    emPass := x.emPass.set 0 dom 1
    embers := x.embers.map fun e => if e.1 / 8 == dom then (e.1, { e.2 with changed := false }) else e }

/-- A context once a second pass has confirmed it. -/
def secondPass (dom : Nat) (x : Ctx) : Ctx := { x with emPass := x.emPass.set 0 dom 2 }

theorem domCount_firstPass (x : Ctx) (dom : Nat) : (firstPass dom x).domCount dom = x.domCount dom := by
  unfold firstPass Ctx.domCount
  dsimp only
  generalize x.embers = l
  rw [List.filter_map, List.foldl_map]
  have hf : ((fun e : Nat × Ember => e.1 / 8 == dom) ∘ fun e => if e.1 / 8 == dom then (e.1, { e.2 with changed := false }) else e) =
      fun e => e.1 / 8 == dom := by
    funext e
    dsimp only [Function.comp]
    split <;> rfl
  rw [hf]
  congr 1
  funext a e
  split <;> rfl

/-- EMBERS_TOKEN_PASS of a domain that sums to zero. -/
theorem exec_embersTokenPass {ctx dom : Nat} {s : State} (hd : dom < 16) (hw : fld ((s.ctx ctx).qword.get 0 dom).toNat 63 1 = 1)
    (hc : (s.ctx ctx).domCount dom = 0) (hh : (s.partn (s.ctx ctx).part).halting = none) :
    exec (.embersTokenPass ctx dom) s = .next (if (s.ctx ctx).emPass.get 0 dom = 0 then
        s.modCtx ctx (firstPass dom)
      else if (s.ctx ctx).emPass.get 0 dom = 1 then
        ((s.modCtx ctx (secondPass dom)).unitUpd ctx (fld ((s.ctx ctx).qword.get 0 dom).toNat 3 54 * 8) false (.add 1)).getD
          (s.modCtx ctx (secondPass dom))
      else s) := by
  show execEmbersTokenPass ctx dom s = _
  unfold execEmbersTokenPass
  dsimp only
  refine congrArg Host.Outcome.next ((if_neg ?_).trans rfl)
  rw [hw, hc, hh]
  simpa using hd

/-- Settles O53, from the effect of a unit's change of a word. -/
theorem endsOfWork : Obligations.EndsOfWork := by
  refine ⟨fun k r s hr hl hq hh => ⟨fun hs => ?_, fun a key hs => ⟨fun hu => ?_, fun hu => ?_⟩⟩, fun k e s he hq hh hst => ?_,
    fun ctx dom s => ?_⟩
  · refine ⟨_, exec_launchSignalDecrement hr hl hq hh, ?_⟩
    rw [hs]
    exact ⟨rfl, fun j => Tbl.find_del ..⟩
  · have hw : SameWays s { s with launches := s.launches.del k } := .of_ctxs rfl
    have hhere := hw.wordHere key
    have h := signal_home r.part (hhere ▸ Claims.UnitWord.congr hw hu)
    refine ⟨_, exec_launchSignalDecrement hr hl hq hh, ?_⟩
    rw [hs]
    dsimp only
    obtain ⟨hp, hm⟩ := h
    refine ⟨hp.teams, hp.accs, hp.parts, fun j => ?_, fun q => ?_⟩
    · rw [hp.rest]
      exact Tbl.find_del ..
    · rw [hm, hhere]
      rfl
  · have hw : SameWays s { s with launches := s.launches.del k } := .of_ctxs rfl
    have hhere := hw.wordHere key
    have h := signal_later r.part (hhere ▸ Claims.UnitLater.congr hw hu)
    refine ⟨_, exec_launchSignalDecrement hr hl hq hh, ?_⟩
    rw [hs]
    dsimp only
    obtain ⟨hp, hlater⟩ := h
    refine ⟨hp.teams, hp.parts, fun j => ?_, hlater, hp.mem⟩
    rw [hp.launches]
    exact Tbl.find_del ..
  · refine ⟨_, exec_countedTeamDone he hq hh, ?_, fun c hc => ctx_emberAdd_of_ne _ _ _ _ _ hc, ?_, fun j i hi hne => ?_⟩
    · rw [emberAdd_ctxs]
    · rw [workOf_emberAdd _ _ _ _ _ hst hst, if_pos ⟨by decide, rfl, rfl⟩]
      rfl
    · rw [workOf_emberAdd _ _ _ _ _ hst hi, if_neg (by omega)]
      rfl
  · intro x word addr more hd hw hc hh
    have hexec := exec_embersTokenPass hd hw hc hh
    have hways : SameWays s (s.modCtx ctx (secondPass dom)) := .modCtx _ _ _ rfl rfl
    have hpass : ((s.modCtx ctx (secondPass dom)).ctx ctx).emPass.get 0 dom = 2 := by
      rw [ctx_modCtx_same]
      exact Tbl.get_set_same 0 (s.ctx ctx).emPass dom 2
    have hmore (key : Nat) : more key = (WordOp.add 1).on (Claims.wordHere (s.modCtx ctx (secondPass dom)) key) := by
      rw [hways.wordHere]
      rfl
    refine ⟨fun h0 => ?_, fun key h1 => ⟨fun hu => ?_, fun hu => ?_⟩⟩
    · rw [if_pos h0] at hexec
      refine ⟨_, hexec, rfl, fun c hne => ctx_modCtx_of_ne _ hne, ?_, ?_⟩
      · rw [ctx_modCtx_same]
        exact Tbl.get_set_same 0 (s.ctx ctx).emPass dom 1
      · rw [ctx_modCtx_same]
        exact (domCount_firstPass _ dom).trans hc
    · have hu := Claims.UnitWord.congr hways hu
      rw [hmore] at hu
      obtain ⟨m, hm, hp, hmem⟩ := unitUpd_home hu
      rw [if_neg (by rw [show (s.ctx ctx).emPass.get 0 dom = 1 from h1]; decide), if_pos h1, hm] at hexec
      refine ⟨m, hexec, hp.teams, hp.accs, hp.parts, ?_, fun q => ?_⟩
      · rw [State.ctx, hp.ctxs]
        exact hpass
      · rw [hmem, ← hmore]
        rfl
    · have hu := Claims.UnitLater.congr hways hu
      rw [hmore] at hu
      obtain ⟨m, hm, hp, hlater⟩ := unitUpd_later hu
      rw [if_neg (by rw [show (s.ctx ctx).emPass.get 0 dom = 1 from h1]; decide), if_pos h1, hm] at hexec
      refine ⟨m, hexec, hp.teams, hp.parts, ?_, hlater, hp.mem⟩
      rw [State.ctx, hp.ctxs]
      exact hpass

end Sys2Proof.Proofs

end

section
/-! R312, R316 to R318, R344: how trigger records are made, spilled and delivered. -/

open Sys2Proof Sys2Proof.Machine

namespace Sys2Proof.Proofs

/-! Counters that a write at its home does not touch. -/

theorem fold_lt (k : Nat) (hk : 0 < k) (n x : Nat) : fold k n x < 2 ^ k := by
  induction n generalizing x with
  | zero => exact Nat.two_pow_pos k
  | succ n ih =>
    unfold fold
    rw [if_neg (by omega)]
    exact Nat.xor_lt_two_pow (Nat.mod_lt _ (Nat.two_pow_pos k)) (ih _)

/-- A package has at most four stacks. -/
theorem homeOf_lt (s : State) (pa : Nat) : (s.homeOf pa).1 < 4 := by
  unfold State.homeOf State.stacksN
  dsimp only
  cases s.part with
  | p9440 => exact Nat.lt_of_lt_of_le (fold_lt _ (by decide) _ _) (by decide)
  | _ => exact Nat.lt_of_lt_of_le (fold_lt _ (by decide) _ _) (by decide)

section
variable {c : Ctr} {n : Nat} (hc : ∀ j, j < 4 → Ctr.key .compsave j ≠ c.key n)
include hc

theorem count_saved (s : State) (pa : Nat) : (s.saved pa).count c n = s.count c n := by
  unfold State.saved
  extract_lets k
  clear_value k
  split
  · rfl
  · exact count_bump_of_ne _ _ _ _ (hc _ (homeOf_lt ..))

theorem count_compress (s : State) (pa cls : Nat) : (s.compress pa cls).count c n = s.count c n := by
  unfold State.compress
  dsimp only
  split
  · rfl
  · split
    · rfl
    · exact count_saved hc ..

theorem count_compressIf (s : State) (b : Bool) (pa cls : Nat) : (if b then s.compress pa cls else s).count c n = s.count c n := by
  split
  · exact count_compress hc ..
  · rfl

theorem count_writeBack (s : State) (out : List L2Line) : (s.writeBack out).count c n = s.count c n := by
  unfold State.writeBack
  generalize out.filter L2Line.dirty = l
  induction l generalizing s with
  | nil => rfl
  | cons e l ih => exact (ih _).trans (count_compress hc ..)

theorem count_l2Access (s : State) (pa cls : Nat) (write : Bool) : (s.l2Access pa cls write).1.count c n = s.count c n := by
  have hput (m : State) (b : Bool) (h : m.count c n = s.count c n) : (if b then m.compress pa cls else m).count c n = s.count c n :=
    (count_compressIf hc ..).trans h
  unfold State.l2Access
  extract_lets
  split
  · exact hput _ _ rfl
  · split
    · exact hput _ _ (count_saved hc ..)
    · exact hput _ _ ((count_writeBack hc _ _).trans (count_saved hc ..))

theorem count_revokeAll (s : State) (out : List Nat) (pa len : Nat) :
    (out.foldl (fun s c => s.revokeAt c pa len) s).count c n = s.count c n := by
  induction out generalizing s with
  | nil => rfl
  | cons d out ih => exact ih _

/-- A write that triggers nothing. -/
theorem count_unitPut (s : State) (u : Unit_) {k : Nat} (cls : Nat) (bs : List Byte) (hk : Claims.Home s k) :
    (s.unitPut u k cls bs false).count c n = s.count c n := by
  unfold State.unitPut
  split
  · rfl
  · next hfar =>
    rw [hk.resolve_left hfar, Bool.not_true, if_neg Bool.false_ne_true, Bool.false_and, if_neg Bool.false_ne_true]
    exact (count_revokeAll hc ..).trans (count_l2Access hc ..)

end

/-! Records queued. -/

theorem queues_setSlice {s m : State} (h : SameQueues s m) (k : Nat) (x : Slice) {on ring : Nat → List TRec}
    (hk : x.ondie = on k ∧ x.ring = ring k) (ho : ∀ j, j ≠ k → (s.slice j).ondie = on j ∧ (s.slice j).ring = ring j) :
    Claims.QueuesAre (m.setSlice k x) on ring := by
  intro j
  rw [slice_setSlice]
  split
  · next hj =>
    rw [hj]
    exact hk
  · next hj => exact ⟨(h.queued j).1.trans (ho j hj).1, (h.queued j).2.trans (ho j hj).2⟩

theorem queuesAre_of_slices {m n : State} {on ring : Nat → List TRec} (h : n.slices = m.slices) (hq : Claims.QueuesAre m on ring) :
    Claims.QueuesAre n on ring := by
  intro j
  unfold State.slice
  rw [h]
  exact hq j

/-- A new record stands on die, or in the spill ring (R316). -/
theorem queueRecord_spec {s m : State} (h : SameQueues s m) (k quota : Nat) (r : TRec) :
    (m.queueRecord k quota r) = { m with slices := (m.queueRecord k quota r).slices, ctr := (m.queueRecord k quota r).ctr } ∧
    Claims.QueuesAre (m.queueRecord k quota r)
      (fun j => if j = k ∧ (s.slice k).spills r.ctx r.watch quota = false then (s.slice j).ondie ++ [r] else (s.slice j).ondie)
      (fun j => if j = k ∧ (s.slice k).spills r.ctx r.watch quota = true then (s.slice j).ring ++ [r] else (s.slice j).ring) ∧
    (m.queueRecord k quota r).count .fire (k / 144) = (m.count .fire (k / 144) + 1) % 2 ^ 64 := by
  have hsp : (m.slice k).spills r.ctx r.watch quota = (s.slice k).spills r.ctx r.watch quota := by
    unfold Slice.spills Slice.sp Slice.on
    rw [(h.queued k).1, (h.queued k).2]
  have hother (j : Nat) (hj : j ≠ k) (p : Prop) [Decidable p] (a b : List TRec) : b = if j = k ∧ p then a else b := by
    rw [if_neg fun g => hj g.1]
  have hbump : SameQueues s (m.bump .fire (k / 144) 1) := h.trans (.of_eq rfl)
  have hqueues (x : Slice) (hx : x.ondie = (if k = k ∧ (s.slice k).spills r.ctx r.watch quota = false then (s.slice k).ondie ++ [r]
        else (s.slice k).ondie) ∧
      x.ring = if k = k ∧ (s.slice k).spills r.ctx r.watch quota = true then (s.slice k).ring ++ [r] else (s.slice k).ring) :=
    queues_setSlice hbump k x
      (on := fun j => if j = k ∧ (s.slice k).spills r.ctx r.watch quota = false then (s.slice j).ondie ++ [r] else (s.slice j).ondie)
      (ring := fun j => if j = k ∧ (s.slice k).spills r.ctx r.watch quota = true then (s.slice j).ring ++ [r] else (s.slice j).ring)
      hx fun j hj => ⟨hother j hj .., hother j hj ..⟩
  unfold State.queueRecord
  dsimp only
  rw [hsp]
  generalize (s.slice k).spills r.ctx r.watch quota = far at hqueues ⊢
  cases far with
  | true =>
    rw [if_pos rfl]
    have hq := hqueues { m.slice k with ring := (m.slice k).ring ++ [r] }
      ⟨by rw [if_neg (by simp)]; exact (h.queued k).1, by rw [if_pos ⟨rfl, rfl⟩, ← (h.queued k).2]⟩
    generalize hn : (m.bump .fire (k / 144) 1).setSlice k { m.slice k with ring := (m.slice k).ring ++ [r] } = n at hq ⊢
    have hcount : n.count .fire (k / 144) = (m.count .fire (k / 144) + 1) % 2 ^ 64 := by
      rw [← hn]
      exact count_bump_same m .fire _ 1
    have hn' : n = { m with slices := n.slices, ctr := n.ctr } := by
      rw [← hn]
      rfl
    refine ⟨?_, queuesAre_of_slices rfl hq, ?_⟩
    · unfold State.bump State.setCount
      rw [hn']
    rw [count_bump_of_ne _ _ _ _ (by unfold Ctr.key; intro e; exact absurd (Nat.add_right_cancel e) (by decide))]
    exact hcount
  | false =>
    rw [if_neg Bool.false_ne_true]
    exact ⟨rfl, hqueues { m.slice k with ondie := (m.slice k).ondie ++ [r] }
      ⟨by rw [if_pos ⟨rfl, rfl⟩, ← (h.queued k).1], by rw [if_neg (by simp)]; exact (h.queued k).2⟩, count_bump_same m .fire _ 1⟩

/-! The OR of a pending bit (R312). -/

theorem homeRead_byte {s : State} {pa : Nat} (h : s.local_ pa = true) : ofLe (s.homeRead pa 1) = (s.memGet pa).toNat := by
  rw [homeRead_home (.inr h)]
  simp [State.memRead, ofLe]

/-- A bit that is clear is set by an addition. -/
theorem ofNat_add_bit {b : Byte} {i : Nat} (hi : i < 8) (h : b.getLsbD i = false) : BitVec.ofNat 8 (b.toNat + 2 ^ i) = b ||| (1#8 <<< i) := by
  have hall : ∀ b : Byte, ∀ i : Fin 8, b.getLsbD i.val = false → BitVec.ofNat 8 (b.toNat + 2 ^ i.val) = b ||| (1#8 <<< i.val) := by
    decide +kernel
  exact hall b ⟨i, hi⟩ h

/-- PENDING_BIT_OR of an OR that need not wait. -/
theorem exec_pendingBitOr {k : Nat} {o : PendOr} {s : State} (ho : s.ors[k]? = some o) (hb : s.orBlocked o = false) :
    exec (.pendingBitOr k) s = .next (State.orBack { s with ors := s.ors.eraseIdx k } o) := by
  show execPendingBitOr k s = _
  unfold execPendingBitOr
  rw [ho]
  dsimp only
  rw [hb]
  rfl

section
variable {s : State} {o : PendOr} {w : Watch} {pa : Nat} (hw : s.watch? o.ctx o.watch = some w) (hp : w.pendByte o.index = some pa)
  (hl : s.local_ pa = true)
include hw hp hl

/-- A bit that is set is counted as coalesced. -/
theorem orBack_coalesced (h : (s.memGet pa).getLsbD (o.index % 8) = true) : s.orBack o = s.bump .coal (o.slice / 144) 1 := by
  unfold State.orBack
  rw [hw]
  dsimp only
  rw [hp]
  dsimp only
  rw [homeRead_byte hl, if_pos hl, BitVec.testBit_toNat, if_pos h]

/-- A bit that is clear is set, and makes a record. -/
theorem orBack_record (h : (s.memGet pa).getLsbD (o.index % 8) = false) :
    (s.orBack o).ors = s.ors ∧ (s.orBack o).teams = s.teams ∧ (s.orBack o).ctxs = s.ctxs ∧ (s.orBack o).accs = s.accs ∧
    Claims.QueuesAre (s.orBack o)
      (fun j => if j = o.slice ∧ (s.slice o.slice).spills o.ctx o.watch w.quota = false then
        (s.slice j).ondie ++ [⟨w.base + o.index * w.gran, o.index, o.src, o.ctx, o.depth, o.watch, s.seq, false⟩] else (s.slice j).ondie)
      (fun j => if j = o.slice ∧ (s.slice o.slice).spills o.ctx o.watch w.quota = true then
        (s.slice j).ring ++ [⟨w.base + o.index * w.gran, o.index, o.src, o.ctx, o.depth, o.watch, s.seq, false⟩] else (s.slice j).ring) ∧
    (s.orBack o).count .fire (o.slice / 144) = (s.count .fire (o.slice / 144) + 1) % 2 ^ 64 ∧
    ∀ a, (s.orBack o).memGet a = if a = pa then s.memGet pa ||| (1#8 <<< (o.index % 8)) else s.memGet a := by
  have hn : ((s.memGet pa).getLsbD (o.index % 8)) ≠ true := by rw [h]; decide
  unfold State.orBack
  rw [hw]
  dsimp only
  rw [hp]
  dsimp only
  rw [homeRead_byte hl, if_pos hl, BitVec.testBit_toNat, if_neg hn]
  obtain ⟨hh, hmem, hors⟩ := unitPut_home (s := s) (tr := false) ⟨o.ctx, 0, o.depth, s.pkg⟩ 0
    (bs := [BitVec.ofNat 8 ((s.memGet pa).toNat + 2 ^ (o.index % 8))]) (k := pa) (.inr hl) nofun
  have hcount := count_unitPut (c := .fire) (n := o.slice / 144) (fun j hj => by unfold Ctr.key; show 25 * 65536 + j ≠ 26 * 65536 + _; omega)
    s ⟨o.ctx, 0, o.depth, s.pkg⟩ 0 [BitVec.ofNat 8 ((s.memGet pa).toNat + 2 ^ (o.index % 8))] (k := pa) (.inr hl)
  generalize s.unitPut ⟨o.ctx, 0, o.depth, s.pkg⟩ pa 0 [BitVec.ofNat 8 ((s.memGet pa).toNat + 2 ^ (o.index % 8))] false = m
    at hh hmem hors hcount ⊢
  rw [hh.seq]
  obtain ⟨hrest, hqueues, hfire⟩ := queueRecord_spec hh.queues o.slice w.quota
    ⟨w.base + o.index * w.gran, o.index, o.src, o.ctx, o.depth, o.watch, s.seq, false⟩
  generalize m.queueRecord o.slice w.quota _ = n at hrest hqueues hfire ⊢
  refine ⟨?_, ?_, ?_, ?_, hqueues, ?_, fun a => ?_⟩
  · show n.ors = _
    rw [hrest]
    exact hors rfl
  · show n.teams = _
    rw [hrest]
    exact hh.teams
  · show n.ctxs = _
    rw [hrest]
    exact hh.ctxs
  · show n.accs = _
    rw [hrest]
    exact hh.accs
  · show n.count .fire _ = _
    rw [hfire, hcount]
  · show n.memGet a = _
    rw [hrest]
    show m.memGet a = _
    rw [hmem]
    unfold Claims.laid
    by_cases ha : a = pa
    · subst ha
      rw [if_pos ⟨Nat.le_refl _, Nat.lt_succ_self _⟩, if_pos rfl, Nat.sub_self]
      exact ofNat_add_bit (Nat.mod_lt _ (by decide)) h
    · rw [if_neg (by simp only [List.length_singleton]; omega), if_neg ha]

end

/-! Spill rings and pools. -/

/-- The head of a ring that is dropped, or that moves on die (R316). -/
theorem drainRing_spec {k : Nat} {r : TRec} {rest : List TRec} {s : State} (h : (s.slice k).ring = r :: rest) :
    s.drainRing k = { s with slices := (s.drainRing k).slices } ∧ (∀ j, j ≠ k → (s.drainRing k).slice j = s.slice j) ∧
    (r.dead = true ∨ s.watch? r.ctx r.watch = none → (s.drainRing k).slice k = { s.slice k with ring := rest }) ∧
    ∀ w, r.dead = false → s.watch? r.ctx r.watch = some w → (s.slice k).on r.ctx r.watch < w.quota → (s.slice k).ondie.length < 256 →
      (s.drainRing k).slice k = { s.slice k with ring := rest, ondie := (s.slice k).ondie ++ [r] } := by
  have hset (x : Slice) : (s.setSlice k x).slice k = x := by rw [slice_setSlice, if_pos rfl]
  have hset' (x : Slice) (j : Nat) (hj : j ≠ k) : (s.setSlice k x).slice j = s.slice j := by rw [slice_setSlice, if_neg hj]
  unfold State.drainRing
  dsimp only
  rw [h]
  dsimp only
  cases hd : r.dead with
  | true =>
    rw [if_pos rfl]
    exact ⟨rfl, hset' _, fun _ => hset _, fun _ => nofun⟩
  | false =>
    rw [if_neg Bool.false_ne_true]
    cases hw : s.watch? r.ctx r.watch with
    | none => exact ⟨rfl, hset' _, fun _ => hset _, fun _ _ => nofun⟩
    | some w =>
      dsimp only
      split
      · next hfull =>
        refine ⟨rfl, fun _ _ => rfl, fun g => ?_, fun w' _ hw' hq hl => ?_⟩
        · rcases g with g | g <;> cases g
        · cases hw'
          simp only [Bool.or_eq_true, decide_eq_true_eq] at hfull
          omega
      · refine ⟨rfl, hset' _, fun g => ?_, fun _ _ _ _ _ => hset _⟩
        rcases g with g | g <;> cases g

/-- Records that do not fill a team of a pool that listens to no list wait there (R345). -/
theorem collected_of_few {s : State} {ctx n : Nat} {p : Pool} (hp : (s.ctx ctx).pools.find n = some p) (hl : p.listen = false)
    (hw : p.recs.length < p.hdr.width) : s.collected ctx n = s := by
  have hfill : s.listenFill ctx n = s := by
    unfold State.listenFill
    rw [hp]
    dsimp only
    rw [hl]
    rfl
  have hform (fuel : Nat) : s.formTeams ctx n fuel = s := by
    cases fuel with
    | zero => rfl
    | succ fuel =>
      unfold State.formTeams
      rw [hp]
      dsimp only
      rw [if_neg]
      simp only [Bool.and_eq_true, decide_eq_true_eq, not_and]
      omega
  have hlisten : s.listens ctx n = false := by
    unfold State.listens
    rw [hp]
    dsimp only
    rw [hl]
    rfl
  unfold State.collected State.collectFrom
  dsimp only
  rw [hfill, hform, hlisten]
  rfl

theorem pools_setPool (s : State) (ctx n : Nat) (p : Pool) (i : Nat) :
    ((s.setPool ctx n p).ctx ctx).pools.find i = if i = n then some p else (s.ctx ctx).pools.find i := by
  unfold State.setPool
  rw [ctx_modCtx_same]
  exact Tbl.find_put ..

theorem ctx_setPool_same (s : State) (ctx n : Nat) (p : Pool) :
    (s.setPool ctx n p).ctx ctx = { s.ctx ctx with pools := ((s.setPool ctx n p).ctx ctx).pools } := by
  unfold State.setPool
  rw [ctx_modCtx_same]

theorem ctx_setPool_of_ne (s : State) {ctx c : Nat} (n : Nat) (p : Pool) (h : c ≠ ctx) : (s.setPool ctx n p).ctx c = s.ctx c :=
  ctx_modCtx_of_ne _ h

/-- RECORD_HANDOFF of the first record of its watch, whose pool has room. -/
theorem exec_recordHandoff {s : State} {k j : Nat} {r : TRec} {w : Watch} {p : Pool} (hr : (s.slice k).ondie[j]? = some r)
    (hnot : ((s.slice k).ondie.take j).any (fun q => q.ctx == r.ctx && q.watch == r.watch) = false)
    (hw : s.watch? r.ctx r.watch = some w) (hp : (s.ctx r.ctx).pools.find w.pool = some p)
    (hroom : (w.park || decide (poolRoom ≤ p.recs.length)) = false) {n : State}
    (hfew : n.collected r.ctx w.pool = n)
    (hn : n = (s.setSlice k { s.slice k with ondie := (s.slice k).ondie.eraseIdx j }).setPool r.ctx w.pool { p with recs := p.recs ++
        [⟨BitVec.ofNat 64 r.index, BitVec.ofNat 64 r.addr, r.depth, decide (w.dlim < r.depth), some (r.watch, r.index), k / 144,
          s.tick.toNat⟩] } := by rfl) :
    exec (.recordHandoff k j) s = .next n := by
  show execRecordHandoff k j s = _
  unfold execRecordHandoff State.handOff
  dsimp only
  rw [hr]
  dsimp only
  rw [hnot, if_neg Bool.false_ne_true, hw]
  dsimp only
  rw [hp]
  dsimp only
  rw [hroom, if_neg Bool.false_ne_true]
  exact congrArg Host.Outcome.next ((congrArg (State.collected · r.ctx w.pool) hn.symm).trans hfew)

/-- Settles O50, from the write of the pending bit and the queue that the record joins. -/
theorem triggerRecords : Obligations.TriggerRecords := by
  refine ⟨fun k o w pa s ho hb hw hp hl _ => ⟨fun hset => ?_, fun hclear => ?_⟩, fun k r rest s h => ?_,
    fun k j r w p s hr hfirst hw hpark hp hlisten hroom hmax => ?_⟩
  · refine ⟨_, exec_pendingBitOr ho hb, ?_⟩
    rw [orBack_coalesced (s := { s with ors := s.ors.eraseIdx k }) hw hp hl hset]
    exact ⟨rfl, count_bump_same ..⟩
  · exact ⟨_, exec_pendingBitOr ho hb, orBack_record (s := { s with ors := s.ors.eraseIdx k }) hw hp hl hclear⟩
  · exact ⟨s.drainRing k, rfl, drainRing_spec h⟩
  · have hnot : ((s.slice k).ondie.take j).any (fun q => q.ctx == r.ctx && q.watch == r.watch) = false := by
      rw [List.any_eq_false]
      intro q hq
      have := hfirst q hq
      simpa using this
    have hroomy : (w.park || decide (poolRoom ≤ p.recs.length)) = false := by
      rw [hpark, Bool.false_or, decide_eq_false_iff_not]
      exact Nat.not_le.mpr hmax
    refine ⟨_, exec_recordHandoff hr hnot hw hp hroomy ?_, rfl, fun i hi => ?_, ?_, fun c hc => ?_, ?_, fun i => ?_⟩
    · refine collected_of_few (pools_setPool ..|>.trans (if_pos rfl)) hlisten ?_
      rw [List.length_append]
      exact hroom
    · exact (slice_setSlice ..).trans (if_neg hi)
    · exact (slice_setSlice ..).trans (if_pos rfl)
    · exact ctx_setPool_of_ne _ _ _ hc
    · exact ctx_setPool_same ..
    · exact pools_setPool ..

end Sys2Proof.Proofs

end

section
/-! R370: DONE follows the last record of the units of a partition; which stacks are a partition's. -/

open Sys2Proof Sys2Proof.Machine

namespace Sys2Proof.Proofs

/-- Every unit of stack 1 has written its record but its first core. -/
def oneLeft : Halting := ⟨[], true, (unitsOfStack true 1).filter (· != 144), 0, 0⟩

/-- Stacks 0 and 1 lie in partition 1, and stack 0 in partition 5 too, which stands before it in the table of partitions. -/
def twiceListed : State :=
  { State.reset with parts := [(5, { Part.zero with count := 1 }), (1, { Part.zero with count := 2, recBase := 0x10000, halting := some oneLeft })] }

/-- The record of the first core of stack 1. -/
def lastRecord : List Byte := twiceListed.stopRecord none 144 0 0 none

theorem twiceListed_halts : (twiceListed.partn 1).halting = some oneLeft ∧ (twiceListed.partn 1).done = false ∧
    twiceListed.recordArea 1 = true ∧ oneLeft.written.contains 144 = false ∧ (twiceListed.unitsOf 1).contains 144 = true ∧
    twiceListed.local_ (0x10000 + 64 * 144) = true ∧ twiceListed.unitHeld (0x10000 + 64 * 144) lastRecord = false ∧
    twiceListed.behind 0 (0x10000 + 64 * 144) 64 = false ∧
    (((twiceListed.unitsOf 1).all fun u => (144 :: oneLeft.written).contains u) && !twiceListed.recording none 1) = true := by
  decide +kernel

/-- The write of the record puts partition 1 before partition 5, so that the units of stack 0 are awaited. -/
theorem not_done_of_twiceListed : (match exec (.stopRecordWrite 1 144) twiceListed with
    | .next s' => (s'.partn 1).done
    | _ => true) = false := by decide +kernel

/-- Refutes O55: where a stack is listed for two partitions, which one it belongs to changes as a record is written, and DONE is not set. -/
theorem not_haltAndReset : ¬ Obligations.HaltAndReset := by
  rintro ⟨-, hwrite, -, -⟩
  obtain ⟨hhalt, hdone, harea, hleft, hunit, hlocal, hheld, hbehind, hall⟩ := twiceListed_halts
  obtain ⟨s', hexec, -, -, -, hpart, -⟩ := (hwrite 1 144 oneLeft twiceListed hhalt rfl hdone).2.1 harea hleft hunit hlocal (by decide)
    hheld hbehind
  have hnot := not_done_of_twiceListed
  rw [hexec] at hnot
  have hset : (s'.partn 1).done = true := by
    rw [hpart]
    dsimp only
    rw [hall]
  exact Bool.false_ne_true (hnot.symm.trans hset)

end Sys2Proof.Proofs

end

section
/-! R171, R290, R291, R376, R382: debugger halts, lent camp and the invalidation of translations. -/

open Sys2Proof Sys2Proof.Machine

namespace Sys2Proof.Proofs

/-! Parts of a word that memory holds. -/

theorem drop_toLe (k i x : Nat) : (toLe k x).drop i = toLe (k - i) (x / 256 ^ i) := by
  induction i generalizing k x with
  | zero => rw [List.drop_zero, Nat.sub_zero, Nat.pow_zero, Nat.div_one]
  | succ i ih =>
    cases k with
    | zero => rw [Nat.zero_sub]; rfl
    | succ k =>
      rw [toLe, List.drop_succ_cons, ih, Nat.div_div_eq_div_mul, Nat.add_sub_add_right, ← Nat.pow_succ']

theorem ofLe_take_toLe {k n : Nat} (h : n ≤ k) (x : Nat) : ofLe ((toLe k x).take n) = x % 256 ^ n := by
  induction n generalizing k x with
  | zero => rw [Nat.pow_zero, Nat.mod_one]; rfl
  | succ n ih =>
    cases k with
    | zero => exact absurd h (Nat.not_succ_le_zero n)
    | succ k =>
      rw [toLe, List.take_succ_cons, ofLe, ih (Nat.le_of_succ_le_succ h), BitVec.toNat_ofNat,
        show 256 ^ (n + 1) = 256 * 256 ^ n from Nat.pow_succ']
      exact (Nat.mod_mul (a := 256)).symm

theorem memRead_laid {s m : State} {a i n : Nat} {bs : List Byte} (hm : ∀ q, m.memGet q = Claims.laid s.memGet a bs q)
    (h : i + n ≤ bs.length) : m.memRead (a + i) n = (bs.drop i).take n := by
  refine List.ext_getElem (by simp [State.memRead]; omega) fun j hj _ => ?_
  have hlt : j < n := by simpa [State.memRead] using hj
  have hin : a ≤ a + i + j ∧ a + i + j < a + bs.length := ⟨by omega, by omega⟩
  have hsub : a + i + j - a = i + j := by omega
  simp only [State.memRead, List.getElem_map, List.getElem_range, hm, Claims.laid, if_pos hin, hsub, List.getElem_take, List.getElem_drop]
  exact (List.getElem_eq_getD _).symm

/-- A field of a word that bytes begin with. -/
theorem ofLe_field {x i n : Nat} (rest : List Byte) (h : i + n ≤ 8) : ofLe (((toLe 8 x ++ rest).drop i).take n) = x / 256 ^ i % 256 ^ n := by
  have hi : i ≤ (toLe 8 x).length := by rw [length_toLe]; omega
  have hn : n ≤ ((toLe 8 x).drop i).length := by rw [List.length_drop, length_toLe]; omega
  rw [List.drop_append_of_le_length hi, List.take_append_of_le_length hn, drop_toLe, ofLe_take_toLe (by omega)]

/-! Stop records (R370, R371). -/

theorem length_unitPart (s : State) (ctx : Option Nat) (unit : Nat) (f : Option UFault) : (s.unitPart ctx unit f).length = 6 := by
  have hpad (l : List Nat) : ((l ++ List.replicate 6 0).take 6).length = 6 := by simp
  unfold State.unitPart
  dsimp only
  split
  · split <;> exact hpad _
  · split
    · exact hpad _
    · split
      · exact hpad _
      · split <;> exact hpad _

theorem length_flatMap_toLe (l : List Nat) : (l.flatMap (toLe 8)).length = 8 * l.length := by
  induction l with
  | nil => rfl
  | cons x l ih => rw [List.flatMap_cons, List.length_append, length_toLe, ih, List.length_cons]; omega

theorem length_stopRecord (s : State) (ctx : Option Nat) (unit seq : Nat) (tick : W64) (f : Option UFault) :
    (s.stopRecord ctx unit seq tick f).length = 64 := by
  unfold State.stopRecord
  rw [length_flatMap_toLe, List.length_append, length_unitPart]
  rfl

/-- The record of a unit without a fault begins with its kind, the unit and the halt, and the tick. -/
theorem stopRecord_eq (s : State) (ctx : Option Nat) (unit seq : Nat) (tick : W64) :
    s.stopRecord ctx unit seq tick none = toLe 8 ((1 + bit ctx.isSome) * 2 ^ 56 + 0 + unit * 2 ^ 32 + seq) ++
      (toLe 8 tick.toNat ++ (s.unitPart ctx unit none).flatMap (toLe 8)) := rfl

/-- What memory holds where the record of a debugger halt lies. -/
theorem stopRecord_laid {s m z : State} {a c unit seq : Nat} {tick : W64} (hu : unit < 65536) (hs : seq < 2 ^ 32)
    (hm : ∀ q, m.memGet q = Claims.laid s.memGet a (z.stopRecord (some c) unit seq tick none) q) :
    ofLe (m.memRead (a + 4) 2) = unit ∧ ofLe (m.memRead (a + 7) 1) = 2 ∧ ofLe (m.memRead (a + 8) 8) = tick.toNat := by
  have hread (i n : Nat) (h : i + n ≤ 8) : ofLe (m.memRead (a + i) n) = (2 * 2 ^ 56 + 0 + unit * 2 ^ 32 + seq) / 256 ^ i % 256 ^ n := by
    rw [memRead_laid hm (by rw [length_stopRecord]; omega), stopRecord_eq, ofLe_field _ h]
    rfl
  refine ⟨?_, ?_, ?_⟩
  · rw [hread 4 2 (by decide)]
    omega
  · rw [hread 7 1 (by decide)]
    omega
  · rw [memRead_laid hm (by rw [length_stopRecord]; decide), stopRecord_eq, List.drop_append_of_le_length (by rw [length_toLe]),
      List.drop_of_length_le (by rw [length_toLe]), List.nil_append]
    refine (ofLe_field (i := 0) (n := 8) ((z.unitPart (some c) unit none).flatMap (toLe 8)) (by decide)).trans ?_
    rw [Nat.pow_zero, Nat.div_one]
    exact Nat.mod_eq_of_lt tick.isLt

/-! Debugger halts (R382). -/

/-- The context as HALT rises. -/
def haltBit (s : State) (ctx : Nat) (quiesce : Bool) : State :=
  s.modCtx ctx fun c => { c with dbgHalt := true, dbgFrozen := false, dbgQuiesce := quiesce, dbgTick := s.tick.toNat }

theorem ctx_haltBit_same (s : State) (ctx : Nat) (quiesce : Bool) : (haltBit s ctx quiesce).ctx ctx =
    { s.ctx ctx with dbgHalt := true, dbgFrozen := false, dbgQuiesce := quiesce, dbgTick := s.tick.toNat } := ctx_modCtx_same ..

theorem ctx_haltBit_of_ne {s : State} {ctx c : Nat} (quiesce : Bool) (h : c ≠ ctx) : (haltBit s ctx quiesce).ctx c = s.ctx c :=
  ctx_modCtx_of_ne _ h

theorem quiesce_of_unengaged {s : State} {ctx : Nat} (h : s.engaged ctx = false) : s.quiesce ctx = s := by
  have hops : ∀ o ∈ s.ops, (o.who.ctx == ctx) = false := by
    have hor : (s.ops.any fun o => o.who.ctx == ctx) = false := (Bool.or_eq_false_iff.mp h).1
    simpa using hor
  unfold State.quiesce
  dsimp only
  rw [List.map_congr_left (g := id), List.map_id]
  intro o ho
  rw [hops o ho]
  split <;> rfl

/-- DEBUGGER_HALT of a context that was not halted, nothing of which has to come to an end first. -/
theorem debugHalt_eq {s : State} {ctx : Nat} {quiesce : Bool} (h : (s.ctx ctx).dbgHalt = false)
    (hq : quiesce = true → s.engaged ctx = false) :
    s.debugHalt ctx quiesce = ((s.coresOf ctx ++ s.enginesOf ctx).foldl (fun m u =>
      m.putRecord (some ctx) (m.ctx ctx).part u m.tick none) (haltBit s ctx quiesce)).dbgSettle := by
  have hquiet : (if quiesce then (haltBit s ctx quiesce).quiesce ctx else haltBit s ctx quiesce) = haltBit s ctx quiesce := by
    split
    · next hyes => exact quiesce_of_unengaged (s := haltBit s ctx quiesce) (hq hyes)
    · rfl
  unfold State.debugHalt
  dsimp only
  rw [h, if_neg Bool.false_ne_true]
  exact congrArg (fun m : State => ((m.coresOf ctx ++ m.enginesOf ctx).foldl (fun m u =>
    m.putRecord (some ctx) (m.ctx ctx).part u m.tick none) m).dbgSettle) hquiet

theorem Tbl.find_map {α : Type} (f : Nat × α → Nat × α) (hf : ∀ c, (f c).1 = c.1) (t : Tbl α) (x : Nat) :
    Tbl.find (t.map f) x = (t.find x).map fun v => (f (x, v)).2 := by
  induction t with
  | nil => rfl
  | cons c t ih =>
    obtain ⟨k, v⟩ := c
    have h1 : f (k, v) = (k, (f (k, v)).2) := Prod.ext (hf _) rfl
    rw [List.map_cons, h1]
    by_cases hx : x = k
    · subst hx
      simp [Tbl.find]
    · simpa [Tbl.find, hx] using ih

/-- A halted context whose units are at rest is frozen. -/
theorem ctx_dbgSettle_of_settled {m : State} {ctx : Nat} (hset : m.settled (ctx, m.ctx ctx) = true) :
    m.dbgSettle.ctx ctx = { m.ctx ctx with dbgFrozen := true } := by
  have hfind := Tbl.find_map (fun c : Nat × Ctx => if m.settled c then (c.1, { c.2 with dbgFrozen := true }) else c)
    (fun c => by dsimp only; split <;> rfl) m.ctxs ctx
  have hget : m.ctx ctx = (m.ctxs.find ctx).getD Ctx.zero := Tbl.get_eq_find ..
  have hgoal : m.dbgSettle.ctx ctx = ((m.dbgSettle.ctxs).find ctx).getD Ctx.zero := Tbl.get_eq_find ..
  rw [hgoal, show m.dbgSettle.ctxs.find ctx = _ from hfind]
  cases hc : m.ctxs.find ctx with
  | none =>
    rw [hc] at hget
    rw [show m.ctx ctx = Ctx.zero from hget] at hset
    cases hset
  | some x =>
    rw [hc] at hget
    rw [show m.ctx ctx = x from hget] at hset ⊢
    simp [hset]

section
variable {s : State} {ctx : Nat} {quiesce : Bool} (hrec : s.recording (some ctx) 0 = false) (hq : quiesce = true → s.engaged ctx = false)
include hrec hq

/-- The context halts at once, whatever records it wrote at their homes. -/
theorem ctx_dbgSettle_of_homed {n : State} (hn : Homed (haltBit s ctx quiesce) n) : n.dbgSettle.ctx ctx = { s.ctx ctx with
    dbgHalt := true, dbgQuiesce := quiesce, dbgFrozen := true, dbgTick := s.tick.toNat } := by
  have hctx : n.ctx ctx = { s.ctx ctx with dbgHalt := true, dbgFrozen := false, dbgQuiesce := quiesce, dbgTick := s.tick.toNat } := by
    unfold State.ctx
    rw [hn.ctxs]
    exact ctx_haltBit_same ..
  have hr : n.recording (some ctx) 0 = false := by
    unfold State.recording
    rw [hn.accs]
    exact hrec
  have he : n.engaged ctx = s.engaged ctx := by
    unfold State.engaged
    rw [hn.ops, hn.stks]
    rfl
  rw [ctx_dbgSettle_of_settled, hctx]
  unfold State.settled
  rw [hctx]
  dsimp only
  rw [hr, he]
  cases quiesce with
  | true => rw [hq rfl]; rfl
  | false => rfl

end

/-- No record is written where there is no area for it. -/
theorem records_of_noArea {s : State} {ctx : Nat} (l : List Nat) (h : s.recordArea (s.ctx ctx).part = false) :
    l.foldl (fun m u => m.putRecord (some ctx) (m.ctx ctx).part u m.tick none) s = s := by
  induction l with
  | nil => rfl
  | cons u l ih =>
    have hput : s.putRecord (some ctx) (s.ctx ctx).part u s.tick none = s := by
      unfold State.putRecord
      dsimp only
      rw [h]
      rfl
    rw [List.foldl_cons, hput, ih]

theorem debuggerHalt_noArea {s : State} {ctx : Nat} {quiesce : Bool} (h : (s.ctx ctx).dbgHalt = false)
    (hrec : s.recording (some ctx) 0 = false) (hq : quiesce = true → s.engaged ctx = false)
    (ha : s.recordArea (s.ctx ctx).part = false) :
    ∃ s', exec (.debuggerHalt ctx quiesce) s = .next s' ∧ s'.teams = s.teams ∧ s'.ridges = s.ridges ∧ s'.accs = s.accs ∧ s'.ops = s.ops ∧
      (∀ q, s'.memGet q = s.memGet q) ∧ (∀ c, c ≠ ctx → (s'.ctx c).dbgHalt = (s.ctx c).dbgHalt) ∧
      s'.ctx ctx = { s.ctx ctx with dbgHalt := true, dbgQuiesce := quiesce, dbgFrozen := true, dbgTick := s.tick.toNat } ∧
      ∀ core, s'.mayIssue core ctx = false := by
  have hpart : ((haltBit s ctx quiesce).ctx ctx).part = (s.ctx ctx).part := by
    rw [ctx_haltBit_same]
  have heq : s.debugHalt ctx quiesce = (haltBit s ctx quiesce).dbgSettle := by
    rw [debugHalt_eq h hq]
    exact congrArg State.dbgSettle (records_of_noArea _ (by rw [hpart]; exact ha))
  have hctx := ctx_dbgSettle_of_homed hrec hq (Homed.refl (haltBit s ctx quiesce))
  refine ⟨_, congrArg Host.Outcome.next heq, rfl, rfl, rfl, rfl, fun _ => rfl, fun c hc => ?_, hctx, fun core => ?_⟩
  · rw [(ctx_dbgSettle _ c).1]
    show ((haltBit s ctx quiesce).ctx c).dbgHalt = _
    rw [ctx_haltBit_of_ne quiesce hc]
  · unfold State.mayIssue
    rw [hctx]
    exact Bool.and_false _

theorem debuggerHalt_oneCore {s : State} {ctx core : Nat} {quiesce : Bool} (h : (s.ctx ctx).dbgHalt = false)
    (hrec : s.recording (some ctx) 0 = false) (hq : quiesce = true → s.engaged ctx = false)
    {a : Nat} (haeq : a = (s.partn (s.ctx ctx).part).recBase + 64 * core) {record : List Byte}
    (hr : record = s.stopRecord (some ctx) core (s.partn (s.ctx ctx).part).halts.toNat s.tick none)
    (ha : s.recordArea (s.ctx ctx).part = true) (hcores : s.coresOf ctx = [core]) (heng : s.enginesOf ctx = []) (hc : core < 576)
    (hl : s.local_ a = true) (hheld : s.unitHeld a record = false) (hbeh : s.behind 0 a 64 = false) :
    ∃ s', exec (.debuggerHalt ctx quiesce) s = .next s' ∧ s'.teams = s.teams ∧ s'.ridges = s.ridges ∧ s'.accs = s.accs ∧
      s'.ctx ctx = { s.ctx ctx with dbgHalt := true, dbgQuiesce := quiesce, dbgFrozen := true, dbgTick := s.tick.toNat } ∧
      ∀ q, s'.memGet q = Claims.laid s.memGet a record q := by
  have hpart : ((haltBit s ctx quiesce).ctx ctx).part = (s.ctx ctx).part := by
    rw [ctx_haltBit_same]
  have hrecord : State.stopRecord (haltBit s ctx quiesce) (some ctx) core (s.partn (s.ctx ctx).part).halts.toNat s.tick none = record := by
    rw [hr]
    unfold State.stopRecord State.unitPart
    dsimp only
    rw [if_pos hc, if_pos hc]
    rfl
  have hput : (haltBit s ctx quiesce).putRecord (some ctx) ((haltBit s ctx quiesce).ctx ctx).part core (haltBit s ctx quiesce).tick none =
      (haltBit s ctx quiesce).putWord ⟨recordOf (some ctx) (s.ctx ctx).part, 0, 0, s.pkg⟩ a 0 record := by
    unfold State.putRecord
    dsimp only
    rw [hpart, show (haltBit s ctx quiesce).recordArea (s.ctx ctx).part = true from ha, if_neg (by decide), haeq]
    exact congrArg (State.putWord (haltBit s ctx quiesce) _ _ _) hrecord
  have hway : SameWays s (haltBit s ctx quiesce) := SameWays.modCtx s ctx _ rfl rfl
  obtain ⟨hhome, hmem⟩ := putWord_home (s := haltBit s ctx quiesce) ⟨recordOf (some ctx) (s.ctx ctx).part, 0, 0, s.pkg⟩ 0 (k := a)
    (bs := record) (.inr hl) ((hway.unitHeld a record).trans hheld) (by rw [hr, length_stopRecord]; exact hbeh)
  have heq : s.debugHalt ctx quiesce =
      ((haltBit s ctx quiesce).putWord ⟨recordOf (some ctx) (s.ctx ctx).part, 0, 0, s.pkg⟩ a 0 record).dbgSettle := by
    rw [debugHalt_eq h hq, hcores, heng, ← hput]
    rfl
  exact ⟨_, congrArg Host.Outcome.next heq, hhome.teams, hhome.ridges, hhome.accs, ctx_dbgSettle_of_homed hrec hq hhome, hmem⟩

/-! HALT falls (R376, R382). -/

theorem debuggerResume_spec {ctx : Nat} {s : State} (h : (s.ctx ctx).dbgHalt = true) :
    ∃ s', exec (.debuggerResume ctx) s = .next s' ∧ s' = { s with blocks := s'.blocks, ops := s'.ops, ctxs := s'.ctxs } ∧
      (∀ c, c ≠ ctx → s'.ctx c = s.ctx c) ∧
      s'.ctx ctx = { s.ctx ctx with dbgHalt := false, dbgFrozen := false,
                                      sliceTick := (s.ctx ctx).sliceTick + (s.tick.toNat - max (s.ctx ctx).sliceTick (s.ctx ctx).dbgTick) } ∧
      ∀ k b, s.block? k = some b → s'.block? k = some (if b.ctx = ctx then { b with req := b.req.map fun t =>
        t + (s.tick.toNat - max t (s.ctx ctx).dbgTick) } else b) := by
  refine ⟨s.debugResume ctx, rfl, ?_⟩
  have hyes : ¬ (!(s.ctx ctx).dbgHalt) = true := by
    rw [h]
    decide
  rw [show s.debugResume ctx = _ from if_neg hyes]
  refine ⟨rfl, fun c hc => ctx_modCtx_of_ne _ hc, ctx_modCtx_same .., fun k b hb => ?_⟩
  refine (Tbl.find_map _ (fun c => ?_) s.blocks k).trans ?_
  · dsimp only
    split <;> rfl
  · rw [show s.blocks.find k = some b from hb, Option.map_some]
    dsimp only
    by_cases hctx : b.ctx = ctx
    · rw [if_pos hctx, if_pos (beq_iff_eq.mpr hctx)]
    · rw [if_neg hctx, if_neg fun g => hctx (beq_iff_eq.mp g)]

/-! CAMP_LEND (R171). -/

theorem core_lend (n : Nat) (cs : List Nat) (s : State) (d : Nat) :
    (cs.foldl (fun s c => s.modCore c fun x => { x with lend := n }) s).core d = if d ∈ cs then { s.core d with lend := n } else s.core d := by
  induction cs generalizing s with
  | nil => rfl
  | cons c cs ih =>
    rw [List.foldl_cons, ih, State.core_modCore]
    by_cases hc : d = c
    · subst hc
      simp
    · simp [hc]

theorem lend_rest (n : Nat) (cs : List Nat) (s : State) : cs.foldl (fun s c => s.modCore c fun x => { x with lend := n }) s =
    { s with cores := (cs.foldl (fun s c => s.modCore c fun x => { x with lend := n }) s).cores } := by
  induction cs generalizing s with
  | nil => rfl
  | cons c cs ih => exact ih _

theorem campLendWrite_spec {core n : Nat} {s : State} (hn : n ≤ 128) (hc : core < s.coresN)
    (hidle : ∀ d ∈ clusterCores core, (∀ t ∈ s.teams, t.1 / 16 ≠ d) ∧ ∀ r ∈ s.ridges, r.1 = d → r.2.ended = true) :
    ∃ s', exec (.campLendWrite core n) s = .next s' ∧ s' = { s with cores := s'.cores } ∧
      ∀ d, s'.core d = if d ∈ clusterCores core then { s.core d with lend := n } else s.core d := by
  refine ⟨_, congrArg Host.Outcome.next (if_neg ?_), lend_rest .., core_lend n _ s⟩
  have hall : ((clusterCores core).all fun c => (s.teamsOn c).isEmpty && !(s.ridges.any fun r => r.1 == c && !r.2.ended)) = true := by
    rw [List.all_eq_true]
    intro d hd
    obtain ⟨hteams, hridges⟩ := hidle d hd
    have hempty : s.teamsOn d = [] := List.filterMap_eq_nil_iff.mpr fun t ht => if_neg fun g => hteams t ht (beq_iff_eq.mp g)
    have hended : (s.ridges.any fun r => r.1 == d && !r.2.ended) = false := by
      rw [List.any_eq_false]
      intro r hr
      simpa using hridges r hr
    rw [hempty, hended]
    rfl
  rw [hall]
  simp only [Bool.not_true, Bool.or_false, Bool.or_eq_true, decide_eq_true_eq]
  omega

/-! MEM_TLBINV (R96, R290, R291). -/

theorem core_killSlots (s : State) (c : Nat) (l : List Nat) (d : Nat) : (s.killSlots c l).core d =
    if d = c then { s.core c with vtb := (s.core c).vtb.filter fun e => !(l.any fun k => isLoadKey e.key k) } else s.core d :=
  State.core_modCore s c d fun x => { x with vtb := x.vtb.filter fun e => !(l.any fun k => isLoadKey e.key k) }

theorem count_killSlots_same (s : State) (c : Nat) (l : List Nat) :
    (s.killSlots c l).count .vtbKill c = (s.count .vtbKill c + 1) % 2 ^ 64 := count_bump_same ..

theorem count_killSlots_of_ne (s : State) {c d : Nat} (l : List Nat) (h : d ≠ c) :
    (s.killSlots c l).count .vtbKill d = s.count .vtbKill d :=
  count_bump_of_ne _ _ _ _ fun e => h (Nat.add_left_cancel e).symm

/-- The load entries of the teams of a context are killed on some cores. -/
theorem killed (ctx : Nat) (cs : List Nat) (hn : cs.Nodup) (s : State) :
    let m := cs.foldl (fun s c => s.killSlots c (s.slotsOf ctx c)) s
    m = { s with cores := m.cores, ctr := m.ctr } ∧
    (∀ d, m.core d = { s.core d with vtb := (m.core d).vtb }) ∧
    (∀ d ∈ cs, (m.core d).vtb = (s.core d).vtb.filter (fun e => !((s.slotsOf ctx d).any fun k => isLoadKey e.key k)) ∧
      m.count .vtbKill d = (s.count .vtbKill d + 1) % 2 ^ 64) ∧
    ∀ d, d ∉ cs → m.core d = s.core d ∧ m.count .vtbKill d = s.count .vtbKill d := by
  induction cs generalizing s with
  | nil => exact ⟨rfl, fun _ => rfl, nofun, fun _ _ => ⟨rfl, rfl⟩⟩
  | cons c cs ih =>
    obtain ⟨hc, hcs⟩ := List.nodup_cons.mp hn
    obtain ⟨hrest, hcore, hin, hout⟩ := ih hcs (s.killSlots c (s.slotsOf ctx c))
    dsimp only at hrest hcore hin hout ⊢
    rw [List.foldl_cons]
    generalize cs.foldl (fun s c => s.killSlots c (s.slotsOf ctx c)) (s.killSlots c (s.slotsOf ctx c)) = m at hrest hcore hin hout ⊢
    refine ⟨hrest.trans rfl, fun d => ?_, fun d hd => ?_, fun d hd => ?_⟩
    · rw [hcore, core_killSlots]
      split
      · next h => rw [h]
      · rfl
    · rcases List.mem_cons.mp hd with rfl | hd
      · obtain ⟨h1, h2⟩ := hout d hc
        rw [h1, core_killSlots, if_pos rfl, h2]
        exact ⟨rfl, count_killSlots_same ..⟩
      · have hne : d ≠ c := fun h => hc (h ▸ hd)
        obtain ⟨h1, h2⟩ := hin d hd
        rw [core_killSlots, if_neg hne] at h1
        rw [count_killSlots_of_ne _ _ hne] at h2
        exact ⟨h1, h2⟩
    · obtain ⟨hne, hd⟩ := not_or.mp (fun g => hd (List.mem_cons.mpr g))
      obtain ⟨h1, h2⟩ := hout d hd
      rw [h1, core_killSlots, if_neg hne, h2, count_killSlots_of_ne _ _ hne]
      exact ⟨rfl, rfl⟩

/-- What an invalidation drops from a TLB. -/
theorem within_iff (e : TlbE) (ctx lo len : Nat) : e.within ctx lo len = true ↔ e.ctx = ctx ∧ lo < e.va + 2 ^ e.lg ∧ e.va < lo + len := by
  simp [TlbE.within, and_assoc]

theorem mem_coreTlb {s : State} {d : Nat} {e : TlbE} (h : e ∈ (s.core d).tlb) : ∃ c, (d, c) ∈ s.cores ∧ e ∈ c.tlb := by
  have hget : s.core d = (s.cores.find d).getD Core.zero := Tbl.get_eq_find ..
  cases hf : s.cores.find d with
  | none =>
    rw [hget, hf] at h
    cases h
  | some c =>
    rw [hget, hf] at h
    exact ⟨c, mem_of_find hf, h⟩

theorem mem_slotsOf {s : State} {ctx d k : Nat} {t : Team} (hk : k < 16) (ht : (tkey d k, t) ∈ s.teams) (hc : t.ctx = ctx) :
    k ∈ s.slotsOf ctx d := by
  refine List.mem_filterMap.mpr ⟨_, ht, ?_⟩
  have hdiv : tkey d k / 16 = d := by unfold tkey; omega
  have hmod : tkey d k % 16 = k := by unfold tkey; omega
  simp [hdiv, hmod, hc]

/-- The TLBs after the entries of a span are dropped. -/
def droppedTlbs (s : State) (ctx lo len : Nat) : State :=
  { s with cores := s.cores.map fun c => (c.1, { c.2 with tlb := c.2.tlb.filter fun e => !e.within ctx lo len }) }

/-- The cores that hold a team of a context. -/
def coresWith (s : State) (ctx : Nat) : List Nat :=
  (s.teams.filterMap fun (t : Nat × Team) => if t.2.ctx == ctx then some (t.1 / 16) else none).dedup

section
variable {s : State} {ctx lo len : Nat} {v : W64} (hb : (s.ctx ctx).tlbBusy = none)
include hb

/-- The invalidation of a span. -/
theorem tlbStart_spec :
    (s.tlbStart ctx lo len v).teams = s.teams ∧ (s.tlbStart ctx lo len v).accs = s.accs ∧
    (∀ q, (s.tlbStart ctx lo len v).memGet q = s.memGet q) ∧ (∀ c, c ≠ ctx → (s.tlbStart ctx lo len v).ctx c = s.ctx c) ∧
    (s.tlbStart ctx lo len v).ctx ctx =
      { s.ctx ctx with tlbReg := v &&& 0x01FFFFFFFFFF00E0, tlbBusy := some (s.tlbUsers ctx lo len) } ∧
    (∀ d, (s.tlbStart ctx lo len v).core d =
      { s.core d with tlb := ((s.tlbStart ctx lo len v).core d).tlb, vtb := ((s.tlbStart ctx lo len v).core d).vtb }) ∧
    (∀ d e, e ∈ ((s.tlbStart ctx lo len v).core d).tlb ↔ e ∈ (s.core d).tlb ∧ ¬ e.within ctx lo len = true) ∧
    ∀ d k t, k < 16 → (tkey d k, t) ∈ s.teams → t.ctx = ctx →
      (∀ e ∈ ((s.tlbStart ctx lo len v).core d).vtb, isLoadKey e.key k = false) ∧
      (s.tlbStart ctx lo len v).count .vtbKill d = (s.count .vtbKill d + 1) % 2 ^ 64 := by
  have hstart : s.tlbStart ctx lo len v = (s.tlbDrop ctx lo len).modCtx ctx fun c =>
      { c with tlbReg := v &&& 0x01FFFFFFFFFF00E0, tlbBusy := some (s.tlbUsers ctx lo len) } := by
    unfold State.tlbStart
    rw [hb]
    rfl
  have hcores (d : Nat) : (droppedTlbs s ctx lo len).core d = { s.core d with tlb := (s.core d).tlb.filter fun e => !e.within ctx lo len } := by
    have hget : s.core d = (s.cores.find d).getD Core.zero := Tbl.get_eq_find ..
    have hmap := Tbl.find_map (fun c : Nat × Core => (c.1, { c.2 with tlb := c.2.tlb.filter fun e => !e.within ctx lo len }))
      (fun _ => rfl) s.cores d
    refine (Tbl.get_eq_find ..).trans ?_
    rw [show (droppedTlbs s ctx lo len).cores.find d = _ from hmap, hget]
    cases s.cores.find d <;> rfl
  obtain ⟨hrest, hcore, hin, hout⟩ := killed ctx (coresWith s ctx) (List.nodup_dedup _) (droppedTlbs s ctx lo len)
  rw [hstart]
  change (State.modCtx (s.tlbDrop ctx lo len) ctx _).teams = _ ∧ _
  have hdrop : s.tlbDrop ctx lo len = (coresWith s ctx).foldl (fun s c => s.killSlots c (s.slotsOf ctx c)) (droppedTlbs s ctx lo len) := rfl
  rw [← hdrop] at hrest hcore hin hout
  generalize s.tlbDrop ctx lo len = m at hrest hcore hin hout ⊢
  have hm (c : Nat) : m.ctx c = s.ctx c := by
    rw [hrest]
    rfl
  have htlb (d : Nat) : (m.core d).tlb = (s.core d).tlb.filter fun e => !e.within ctx lo len := by
    rw [hcore, hcores]
  refine ⟨?_, ?_, fun q => ?_, fun c hc => (ctx_modCtx_of_ne _ hc).trans (hm c), ?_, fun d => ?_, fun d e => ?_, fun d k t hk ht hctx => ?_⟩
  · show m.teams = _
    rw [hrest]
    rfl
  · show m.accs = _
    rw [hrest]
    rfl
  · show m.memGet q = _
    rw [hrest]
    rfl
  · rw [ctx_modCtx_same, hm]
  · show m.core d = { s.core d with tlb := (m.core d).tlb, vtb := (m.core d).vtb }
    rw [hcore d, hcores]
  · show e ∈ (m.core d).tlb ↔ _
    rw [htlb, List.mem_filter, Bool.not_eq_true', Bool.not_eq_true]
  · have hd : d ∈ coresWith s ctx := by
      refine List.mem_dedup.mpr (List.mem_filterMap.mpr ⟨_, ht, ?_⟩)
      have hdiv : tkey d k / 16 = d := by unfold tkey; omega
      simp [hctx, hdiv]
    obtain ⟨hvtb, hcount⟩ := hin d hd
    refine ⟨fun e he => ?_, hcount⟩
    rw [show (State.core (m.modCtx ctx _) d).vtb = _ from hvtb] at he
    have hslots : k ∈ (droppedTlbs s ctx lo len).slotsOf ctx d := mem_slotsOf (s := s) hk ht hctx
    have hno := (List.mem_filter.mp he).2
    rw [Bool.not_eq_true', List.any_eq_false] at hno
    exact Bool.eq_false_iff.mpr (hno k hslots)

end

/-- The accesses that it waits for. -/
theorem mem_tlbUsers {s : State} {ctx lo len : Nat} {a : Access} (ha : a ∈ s.accs) (hc : a.ctx = ctx) (hg : a.global = true) (hs : a.stage = 0)
    (hp : a.ofUnit = true ∨ (lo ≤ a.va ∧ a.va < lo + len) ∨
      ∃ d e, e ∈ (s.core d).tlb ∧ (e.ctx = ctx ∧ lo < e.va + 2 ^ e.lg ∧ e.va < lo + len) ∧ e.va ≤ a.va ∧ a.va < e.va + 2 ^ e.lg) :
    a.id ∈ s.tlbUsers ctx lo len := by
  refine List.mem_append_left _ (List.mem_append_left _ (List.mem_map.mpr ⟨a, List.mem_filter.mpr ⟨ha, ?_⟩, rfl⟩))
  rw [hc, hg, hs]
  simp only [beq_self_eq_true, Bool.true_and, Bool.or_eq_true, List.any_eq_true, Bool.and_eq_true, decide_eq_true_eq, List.mem_cons,
    List.mem_flatMap, List.mem_map]
  rcases hp with h | h | ⟨d, e, he, hw, hspan⟩
  · exact .inl h
  · exact .inr ⟨_, .inl rfl, h⟩
  · obtain ⟨c, hmem, htlb⟩ := mem_coreTlb he
    exact .inr ⟨_, .inr ⟨_, hmem, e, List.mem_filter.mpr ⟨htlb, (within_iff ..).mpr hw⟩, rfl⟩, hspan⟩

/-- Nothing is still to be performed. -/
theorem tlbUsed_eq_false {s : State} {ids : List Nat} (haccs : ∀ a ∈ s.accs, a.id ∈ ids → a.stage ≠ 0)
    (hops : ∀ o ∈ s.ops, o.id ∈ ids → o.todo = [] ∧ s.outstanding o.id = false)
    (hstks : ∀ k ∈ s.stks, ∀ r, k.2.strike = some r → r.id ∈ ids → r.todo = [] ∧ s.outstanding r.id = false) : s.tlbUsed ids = false := by
  unfold State.tlbUsed
  simp only [Bool.or_eq_false_iff, List.any_eq_false, Bool.and_eq_true, List.contains_iff_mem, beq_iff_eq, not_and]
  refine ⟨⟨fun a ha hid => haccs a ha hid, fun o ho hid => ?_⟩, fun k hk => ?_⟩
  · obtain ⟨htodo, hout⟩ := hops o ho hid
    rw [htodo, hout]
    decide
  · cases hr : k.2.strike with
    | none => exact Bool.false_ne_true
    | some r =>
      rw [Option.any_some, Bool.and_eq_true, List.contains_iff_mem]
      rintro ⟨hid, hbusy⟩
      obtain ⟨htodo, hout⟩ := hstks k hk r hr hid
      rw [htodo, hout] at hbusy
      exact Bool.false_ne_true hbusy

/-- Settles O56. -/
theorem debuggerLendAndTranslation : Obligations.DebuggerLendAndTranslation := by
  refine ⟨fun ctx quiesce s h _ hrec hq => ⟨fun ha => debuggerHalt_noArea h hrec hq ha, ?_⟩, fun ctx s h => debuggerResume_spec h,
    fun core n s hn hc hidle => campLendWrite_spec hn hc hidle, fun ctx v s hb => ?_, fun ctx ids s hb haccs hops hstks => ?_⟩
  · intro core a record ha hcores heng hc hl _ hheld hbeh
    obtain ⟨s', he, hteams, hridges, haccs, hctx, hmem⟩ := debuggerHalt_oneCore h hrec hq (a := a) rfl (record := record) rfl ha hcores heng hc
      hl hheld hbeh
    obtain ⟨h4, h7, h8⟩ := stopRecord_laid (Nat.lt_trans hc (by decide)) (s.partn (s.ctx ctx).part).halts.isLt hmem
    exact ⟨s', he, hteams, hridges, haccs, hctx, h4, h7, h8, hmem⟩
  · intro all lo len drops
    have he : exec (if all then .tlbinvAll ctx v else .tlbinvSpan ctx v) s = .next (s.tlbStart ctx lo len v) := by
      by_cases h : v.getLsbD 7 = true
      · rw [show lo = 0 from if_pos h, show len = 2 ^ 57 from if_pos h, show all = true from h, if_pos rfl]
        exact congrArg Host.Outcome.next (if_pos h)
      · rw [show lo = (tlbSpan v).1 from if_neg h, show len = (tlbSpan v).2 from if_neg h, show all = false from Bool.eq_false_iff.mpr h,
          if_neg Bool.false_ne_true]
        exact congrArg Host.Outcome.next (if_neg h)
    obtain ⟨hteams, haccs, hmem, hctxs, hctx, hcore, htlb, hkill⟩ := tlbStart_spec (lo := lo) (len := len) (v := v) hb
    exact ⟨_, s.tlbUsers ctx lo len, he, hteams, haccs, hmem, hctxs, hctx, fun a ha hc hg hs hp => mem_tlbUsers ha hc hg hs hp, hcore,
      fun d e => (htlb d e).trans (and_congr_right' (not_congr (within_iff ..))), hkill⟩
  · refine ⟨s.modCtx ctx fun c => { c with tlbBusy := none }, ?_, rfl, fun c hc => ctx_modCtx_of_ne _ hc, ctx_modCtx_same ..⟩
    show execTlbinvComplete ctx s = _
    unfold execTlbinvComplete
    rw [hb]
    exact congrArg Host.Outcome.next (if_neg (Bool.eq_false_iff.mp (tlbUsed_eq_false haccs hops hstks)))

end Sys2Proof.Proofs

end

section
/-! R337, R342, R356: a LAUNCH packet whose header has ICINV, and which stacks are a partition's. -/

open Sys2Proof Sys2Proof.Machine

namespace Sys2Proof.Proofs

/-- A launch header with ICINV, at 0x10300. -/
def freshHeader : List Nat :=
  [0x10000, 0, 0, 10 + 4 * 2 ^ 7, 128 * 2 ^ 56 + 16 * 2 ^ 48 + 64 * 2 ^ 40 + 64 * 2 ^ 32 + 96 * 2 ^ 24 + 2 ^ 13, 1, 2 ^ 44 + 64, 7,
   1, 2, 3, 4, 5, 6, 7, 8]

def freshLaunch : Launch := launchOf 0x10300 (freshHeader.flatMap (toLe 8))

/-- The pool that it names. -/
def freshPool : Pool := ⟨placeLaunch, 0, 100, [], [], 0, 0⟩

/-- The packet that launches it, without a signal. -/
def launchPkt : List Nat := [8 * 2 ^ 56, 0x10300, 0, 0, 0, 0, 0, 0]

/-- Queue 5 of partition 0 presents the packet, at 0x10400. Every stack is of partition 0, but stack 0 of partition 5 too, which stands
before it in the table of partitions. -/
def launching : State :=
  { ((((State.reset.place 0).memWrite 0x100300 (freshHeader.flatMap (toLe 8))).memWrite 0x100400 (launchPkt.flatMap (toLe 8))).modCtx 1
      fun x => { x with pools := [(7, freshPool)] }) with
    parts := [(5, { Part.zero with count := 1 }),
      (0, { Part.zero with count := 4, queues := [(5, ⟨0x410, 1, 2, 4, 0, false, true, 0, 1, [], false⟩)], lanes := [(0, 5)] })] }

theorem launching_executes : Claims.Executes launching 0 5 launchPkt .launch := by
  unfold Claims.Executes
  decide +kernel

theorem launching_launches : launching.signalOk 1 0 = true ∧ launching.headerPool (unitWho 1) 0x10300 = some 7 ∧ freshLaunch.pool = 7 ∧
    (launching.ctx 1).pools.find 7 = some freshPool ∧
    (match launching.checkHeader (unitWho 1) 0x10300 true with | .ok l => decide (l = freshLaunch) | _ => false) = true := by decide +kernel

/-- The code that core 0 holds is not to be dropped: its stack is partition 5's. -/
theorem code_of_launching : ((launching.core 0).icache.filter (Claims.keptLine launching 0 freshLaunch 1 (stackOf 0))).isEmpty = false := by
  decide +kernel

/-- It is dropped. -/
theorem code_dropped : (match exec (.launchPacket 0 5) launching with
    | .next s' => (s'.core 0).icache.isEmpty
    | _ => false) = true := by decide +kernel

/-- Refutes O57: where a stack is listed for two partitions, which one it belongs to changes as the packet is taken up, before its code is
dropped. -/
theorem not_packetsAndTickets : ¬ Obligations.PacketsAndTickets := by
  rintro ⟨hpackets, -⟩
  obtain ⟨-, -, -, -, -, -, -, -, hlaunch, -⟩ := hpackets 0 5 launchPkt launching
  obtain ⟨hsignal, hpool, hseven, hfind, hheader⟩ := launching_launches
  have hcheck : launching.checkHeader (unitWho 1) 0x10300 true = .ok freshLaunch := by
    revert hheader
    cases launching.checkHeader (unitWho 1) 0x10300 true with
    | ok l => exact fun h => congrArg _ (of_decide_eq_true h)
    | _ => exact fun h => nomatch h
  obtain ⟨s', hexec, -, ⟨hcode, -⟩, -⟩ := hlaunch freshLaunch freshPool launching_executes hsignal (hseven ▸ hpool) (hseven ▸ hfind) hcheck
  have hgone := code_dropped
  rw [hexec] at hgone
  have hkept := code_of_launching
  rw [show ((launching.core 0).icache.filter (Claims.keptLine launching 0 freshLaunch 1 (stackOf 0))) = (s'.core 0).icache from
    (congrArg Core.icache (hcode 0)).symm] at hkept
  exact Bool.false_ne_true (hkept.symm.trans hgone)

end Sys2Proof.Proofs

end

section
/-! R209, R210, R212, R224 to R226: the barrier instructions, and the arrival that is counted. -/

open Sys2Proof Sys2Proof.Machine

namespace Sys2Proof.Proofs

/-! Acquires (R298). -/

theorem fenced_teams (s : State) (c slot : Nat) (acq : Bool) : (fenced s c slot acq).teams = s.teams := by
  rw [fenced_rest]

/-- An acquire, or the kill of a team's load entries. -/
theorem portFrame_fenced (s : State) (c slot : Nat) (acq : Bool) : Claims.PortFrame s (fenced s c slot acq) c slot := by
  have hcore := fenced_core s c slot acq
  have hrest := fenced_rest s c slot acq
  refine ⟨fun k _ => by rw [fenced_teams], fun k _ r l => vreg_congr ?_ ?_ r l, fun d hd => by rw [hcore, if_neg hd], ?_,
    ⟨by rw [hrest], by rw [hrest], by rw [hrest], [], by rw [hrest, List.append_nil]⟩, fun _ => by rw [hrest]⟩
  · unfold State.team?
    rw [fenced_teams]
  · rw [hcore, if_pos rfl]
    cases acq <;> rfl
  · rw [hcore, if_pos rfl]
    cases acq <;> rfl

theorem sameClean_fenced (s : State) (c slot : Nat) (acq : Bool) : SameClean s (fenced s c slot acq) := by
  rw [fenced_rest]
  exact ⟨rfl, fun _ => rfl⟩

theorem acquired_of_core {s m : State} {c : Nat} (haccs : m.accs = Claims.noFills s c)
    (hl1 : (m.core c).l1 = (s.core c).selfInvalidate.l1) : Claims.Acquired s m c := by
  refine ⟨haccs, fun l hl k hk hv => selfInvalidate_kept ?_ hk hv⟩
  rw [← hl1]
  exact hl

/-- A team goes on after an acquire. -/
theorem acquire_done {i : Instr} {h : Hdr} {s : State} {c slot : Nat} {t : Team} (hs : slot < 16) (ht : s.team? c slot = some t)
    (hof : s.teamOf t.uid = some (tkey c slot, t)) {s' : State} (hs' : settleTeam i h s c slot t (.done (s.acquired c t.uid)) = s') :
    Claims.PortFrame s s' c slot ∧ (∀ q, s'.memGet q = s.memGet q) ∧ Claims.Goes s c slot t t s' ∧ Claims.Acquired s s' c := by
  have hacq : s.acquired c t.uid = fenced s c slot true := acquired_eq hs hof
  rw [hacq] at hs'
  have hframe := portFrame_fenced s c slot true
  have hclean := sameClean_fenced s c slot true
  have haccs := fenced_accs s c slot true
  have hteams := fenced_teams s c slot true
  have hmem (q : Nat) : (fenced s c slot true).memGet q = s.memGet q := memGet_congr (by rw [fenced_rest]) q
  have hl1 : ((fenced s c slot true).core c).l1 = (s.core c).selfInvalidate.l1 := by
    rw [fenced_core, if_pos rfl]
    rfl
  generalize fenced s c slot true = m at *
  have hteam : m.team? c slot = some t := by
    unfold State.team?
    rw [hteams]
    exact ht
  obtain ⟨hframe, hgoes⟩ := port_done (i := i) (h := h) (t := t) hs hframe hclean hteam
  have hrest := settle_rest (i := i) (h := h) (s := s) (t := t) hteam
  rw [hs'] at hframe hgoes hrest
  refine ⟨hframe, fun q => ?_, hgoes, acquired_of_core ?_ ?_⟩
  · rw [hrest]
    exact hmem q
  · rw [hrest]
    exact haccs
  · rw [hrest]
    exact hl1

/-- A stream goes on after an acquire. -/
theorem acquire_doneM {i : Instr} {h : Hdr} {s : State} {c : Nat} {r : Ridge} (hr : s.ridge? c = some r)
    (hof : s.teamOf r.uid = none) {s' : State} (hs' : settleRidge i h s c r (.done (s.acquired c r.uid)) = s') :
    Claims.Streams s c r s' ∧ Claims.StreamFrame s s' c r.blk ∧ s'.blocks = s.blocks ∧ Claims.Acquired s s' c := by
  have heq : s.acquired c r.uid = s.selfInvalidate c := by
    unfold State.acquired
    have hnone : (s.selfInvalidate c).teamOf r.uid = none := hof
    simp only [hnone]
  have hridge : (s.acquired c r.uid).ridge? c = some r := by rw [heq]; exact hr
  obtain ⟨r', hr', hreq, hframe⟩ := (settleRidge_done (i := i) (h := h) (s := s) (r := r) hridge).spec hridge
  rw [hs', heq] at *
  have hcore : s'.core = (s.selfInvalidate c).core := by
    funext d
    rw [hframe.rest]
    rfl
  refine ⟨⟨r', hr', hreq⟩, ⟨fun k hk => hframe.ridges k hk, fun k _ => ?_, fun d hd => ?_, ?_, ?_, fun q => hframe.mem q⟩, ?_,
    acquired_of_core ?_ ?_⟩
  · rw [hframe.rest]
    rfl
  · rw [hcore, core_selfInvalidate, if_neg hd]
  · rw [hcore, core_selfInvalidate, if_pos rfl]
    rfl
  · rw [hframe.rest]
    rfl
  · rw [hframe.rest]
    rfl
  · rw [hframe.rest]
    rfl
  · rw [hcore, core_selfInvalidate, if_pos rfl]

theorem teamFrame_killLoads (s : State) (c slot k : Nat) : TeamFrame s (s.killLoads c k) c slot := by
  have hcore := core_killLoads s c k
  refine ⟨fun _ _ => rfl, fun j _ _ r l => ?_, fun d hd => by rw [hcore, if_neg hd], ?_, rfl, fun _ => rfl⟩
  · refine vreg_congr (show (s.killLoads c k).team? c j = s.team? c j from rfl) ?_ r l
    rw [hcore, if_pos rfl]
  · rw [hcore, if_pos rfl]

theorem team_killLoads (s : State) (c k d j : Nat) : (s.killLoads c k).team? d j = s.team? d j := rfl

theorem blocks_killLoads (s : State) (c k : Nat) : (s.killLoads c k).blocks = s.blocks := rfl

/-! Changes of a block. -/

theorem waiting_rest {s m : State} (hm : ∃ b n, m = { s with blocks := b, seq := n }) (c slot : Nat) (x : Team) :
    (m.setTeam c slot x).tickSeq = { s with blocks := (m.setTeam c slot x).tickSeq.blocks, teams := (m.setTeam c slot x).tickSeq.teams,
                                            seq := (m.setTeam c slot x).tickSeq.seq } := by
  obtain ⟨b, n, rfl⟩ := hm
  rfl

theorem waiting_restM {s m : State} (hm : ∃ b n, m = { s with blocks := b, seq := n }) (c : Nat) (x : Ridge) :
    (m.setRidge c x).tickSeq = { s with blocks := (m.setRidge c x).tickSeq.blocks, ridges := (m.setRidge c x).tickSeq.ridges,
                                        seq := (m.setRidge c x).tickSeq.seq } := by
  obtain ⟨b, n, rfl⟩ := hm
  rfl

/-- A team starts to wait in its instruction. -/
theorem settleTeam_wait {i : Instr} {h : Hdr} {s m : State} {c slot : Nat} {t t1 : Team} (hw : t.wait = none) (ht : m.team? c slot = some t1) :
    settleTeam i h s c slot t (.wait m) = (m.setTeam c slot { t1 with wait := some (.instr i s.seq (s.nextOf c t)) }).tickSeq := by
  have hno : ¬ t.wait.isSome = true := by
    rw [hw]
    exact Bool.false_ne_true
  refine (if_neg hno).trans ?_
  rw [modTeam_eq_setTeam _ ht]

/-- A stream starts to wait. -/
theorem settleRidge_wait {i : Instr} {h : Hdr} {s m : State} {c : Nat} {r r1 : Ridge} (hw : r.wait = none) (hr : m.ridge? c = some r1) :
    settleRidge i h s c r (.wait m) = (m.setRidge c { r1 with wait := some (.instr i s.seq (s.nextOfM c r)) }).tickSeq := by
  have hno : ¬ r.wait.isSome = true := by
    rw [hw]
    exact Bool.false_ne_true
  refine (if_neg hno).trans ?_
  unfold State.modRidge
  rw [hr]

theorem modBlock_eq {s : State} {k : Nat} {b : Block} (f : Block → Block) (h : s.block? k = some b) : s.modBlock k f = s.setBlock k (f b) := by
  unfold State.modBlock
  rw [h]

theorem blocks_setBlock_of_ne (s : State) {k j : Nat} (b : Block) (h : j ≠ k) : (s.setBlock k b).blocks.find j = s.blocks.find j :=
  Tbl.find_put_of_ne _ _ h

theorem block_setBlock_same (s : State) (k : Nat) (b : Block) : (s.setBlock k b).block? k = some b := Tbl.find_put_same ..

theorem bar_setBar (b : Block) (n k : Nat) (x : Bar) : (b.setBar n x).bar k = if k = n then x else b.bar k := Tbl.get_put ..

/-- A team goes on after a change of blocks, its load entries and counters apart. -/
theorem blocks_done {i : Instr} {h : Hdr} {s m : State} {c slot : Nat} {t : Team} (hs : slot < 16) (ht : m.team? c slot = some t)
    (hf : TeamFrame { s with blocks := m.blocks } m c slot) {s' : State} (hs' : settleTeam i h s c slot t (.done m) = s') :
    s'.blocks = m.blocks ∧ Claims.Goes s c slot t t s' ∧ TeamFrame { s with blocks := s'.blocks } s' c slot := by
  obtain ⟨t', hteam, hteq, hfl, hframe, -⟩ := (settleTeam_done (i := i) (h := h) (s := s) (t := t) ht).spec ht hs
  rw [hs'] at hteam hframe
  have hb : s'.blocks = m.blocks := by rw [hframe.rest]
  refine ⟨hb, ⟨t', hteam, hfl, fun r => ?_, fun r => ?_, ?_⟩, ?_⟩
  · rw [hteq]; rfl
  · rw [hteq]; rfl
  · rw [hteq]
  · rw [hb]
    exact hf.trans hframe

/-- A stream goes on after a change of its block. -/
theorem blocks_doneM {i : Instr} {h : Hdr} {s m : State} {c : Nat} {r : Ridge} (hr : s.ridge? c = some r)
    (hm : m = { s with blocks := m.blocks, seq := m.seq }) (hb : ∀ k, k ≠ r.blk → m.blocks.find k = s.blocks.find k) {s' : State}
    (hs' : settleRidge i h s c r (.done m) = s') :
    Claims.Streams s c r s' ∧ Claims.StreamFrame s s' c r.blk ∧ s'.cores = s.cores ∧ s'.accs = s.accs ∧ s'.blocks = m.blocks := by
  have hridge : m.ridge? c = some r := by rw [hm]; exact hr
  obtain ⟨r', hr', hreq, hframe⟩ := (settleRidge_done (i := i) (h := h) (s := s) (r := r) hridge).spec hridge
  rw [hs'] at hr' hframe
  have hrest : s' = { s with ridges := s'.ridges, blocks := m.blocks, seq := m.seq } := by rw [hframe.rest, hm]
  refine ⟨⟨r', hr', hreq⟩, ⟨fun k hk => ?_, fun k hk => ?_, fun d hd => ?_, ?_, ?_, fun q => ?_⟩, ?_, ?_, ?_⟩
  · rw [hframe.ridges k hk, hm]
  · rw [hrest]
    exact hb k hk
  · rw [hrest]; rfl
  · rw [hrest]; rfl
  · rw [hrest]
  · rw [hrest]; rfl
  · rw [hrest]
  · rw [hrest]
  · rw [hrest]

/-! The instructions run (R209). -/

section
variable {i : Instr} {h : Hdr} {n : Nat} {s : State}

theorem barrier_team {c slot : Nat} {t : Team} {eff : X → State → Res} {effR : XR → State → Res} {r : Res} (w : TeamIssues i h s c slot t)
    (hn : n < t.hdr.nb) (he : eff (t.x s c slot h) s = r) (hr : ∀ w, r ≠ .short w) :
    runBoth i h (barNeed n) (barNeedM n) s eff effR = .next (settleTeam i h s c slot t r) := by
  subst he
  exact runBoth_team w (decide_eq_false (Nat.not_le.mpr hn)) nofun nofun hr

theorem barrier_stream {c : Nat} {m : Ridge} {eff : X → State → Res} {effR : XR → State → Res} {r : Res} (w : RidgeIssues i h s c m)
    (hn : n < m.hdr.nb) (he : effR (m.x c h) s = r) : runBoth i h (barNeed n) (barNeedM n) s eff effR = .next (settleRidge i h s c m r) := by
  subst he
  exact runBoth_ridge w (decide_eq_false (Nat.not_le.mpr hn))

theorem runBoth_team_ill {nd : State → Nat → Team → Need} {ndR : State → Nat → Ridge → Need} {c slot : Nat} {t : Team} {eff : X → State → Res}
    {effR : XR → State → Res} (hcur : s.cur = .team c slot) (ht : s.team? c slot = some t) (hill : (nd s c t).ill = true) :
    runBoth i h nd ndR s eff effR = .next (s.takeTrap c slot { t with wait := none } .illegal 0 t.pc) := by
  have hissue : issueTeam i h (nd s c t) s c slot t eff = .trap .illegal 0 := by
    unfold issueTeam
    exact if_pos (by rw [hill]; rfl)
  simp [runBoth, hcur, ht, hissue, settleTeam]

end

/-- A barrier that the block does not have (R209). -/
theorem exec_noBarrier {i : Instr} {n : Nat} (hi : Claims.barOf i = some n) (s : State) (c slot : Nat) :
    (∀ t : Team, s.cur = .team c slot → s.team? c slot = some t → t.hdr.nb ≤ n →
      exec i s = .next (s.takeTrap c slot { t with wait := none } .illegal 0 t.pc)) ∧
    ∀ r : Ridge, s.cur = .ridge c → s.ridge? c = some r → r.hdr.nb ≤ n →
      exec i s = .next (s.takeTrapM c { r with wait := none } .illegal 0 r.pc) := by
  unfold Claims.barOf at hi
  split at hi
  case h_6 => cases hi
  all_goals
    cases hi
    exact ⟨fun t hcur ht hn => runBoth_team_ill hcur ht (decide_eq_true hn),
      fun r hcur hr hn => runBoth_ridge_ill hcur hr (.inl (decide_eq_true hn))⟩

/-- A change of one barrier of the team's block. -/
theorem setBar_done {i : Instr} {h : Hdr} {s : State} {c slot n : Nat} {t : Team} {b : Block} {x : Bar} (hs : slot < 16)
    (ht : s.team? c slot = some t) :
    ∃ s' b', settleTeam i h s c slot t (.done (s.setBlock t.blk (b.setBar n x))) = s' ∧ Claims.Goes s c slot t t s' ∧
      TeamFrame { s with blocks := s'.blocks } s' c slot ∧ (∀ k, k ≠ t.blk → s'.blocks.find k = s.blocks.find k) ∧
      s'.block? t.blk = some b' ∧ b' = { b with bars := b'.bars } ∧ ∀ k, b'.bar k = if k = n then x else b.bar k := by
  obtain ⟨hblocks, hgoes, hframe⟩ := blocks_done (i := i) (h := h) (s := s) (m := s.setBlock t.blk (b.setBar n x)) hs ht (.refl ..) rfl
  refine ⟨_, b.setBar n x, rfl, hgoes, hframe, fun k hk => ?_, ?_, rfl, fun k => bar_setBar ..⟩
  · rw [hblocks]
    exact blocks_setBlock_of_ne s _ hk
  · unfold State.block?
    rw [hblocks]
    exact block_setBlock_same ..

/-- The same on a stream. -/
theorem setBar_doneM {i : Instr} {h : Hdr} {s : State} {c n : Nat} {r : Ridge} {b : Block} {x : Bar} (hr : s.ridge? c = some r) :
    ∃ s' b', settleRidge i h s c r (.done (s.setBlock r.blk (b.setBar n x))) = s' ∧ Claims.Streams s c r s' ∧
      Claims.StreamFrame s s' c r.blk ∧ s'.cores = s.cores ∧ s'.accs = s.accs ∧ s'.block? r.blk = some b' ∧
      b' = { b with bars := b'.bars } ∧ ∀ k, b'.bar k = if k = n then x else b.bar k := by
  obtain ⟨hgoes, hframe, hcores, haccs, hblocks⟩ := blocks_doneM (i := i) (h := h) (m := s.setBlock r.blk (b.setBar n x)) hr rfl
    (fun k hk => blocks_setBlock_of_ne s _ hk) rfl
  refine ⟨_, b.setBar n x, rfl, hgoes, hframe, hcores, haccs, ?_, rfl, fun k => bar_setBar ..⟩
  unfold State.block?
  rw [hblocks]
  exact block_setBlock_same ..

/-! BINIT and BEXP (R224, R226). -/

section
variable {s : State} {blk : Nat} {b : Block} (hb : s.block? blk = some b)
include hb

theorem binit_of_count {v : W64} (n : Nat) (h1 : 1 ≤ v.toNat) (h2 : v.toNat < 2 ^ 12) :
    s.binit blk n v = .done (s.setBlock blk (b.setBar n ⟨BitVec.ofNat 12 v.toNat, 0, 0, false, 0, 0, false⟩)) := by
  unfold State.binit
  rw [if_neg (by simp only [Bool.or_eq_true, decide_eq_true_eq]; omega), modBlock_eq _ hb]

theorem bexp_of_late {v : W64} {n : Nat} (h : (b.bar n).late = true) : s.bexp blk n false v = .hold := by
  unfold State.bexp
  rw [hb]
  dsimp only
  rw [h]
  rfl

variable {stream : Bool} {v : W64} {n : Nat} (hlate : stream = false → (b.bar n).late = false)
include hlate

theorem bexp_of_sum (hsum : (b.bar n).post.toNat + (b.bar n).posts + fld v.toNat 0 24 < 2 ^ 24) :
    s.bexp blk n stream v =
      .done (s.setBlock blk (b.setBar n { b.bar n with posts := (b.bar n).posts + fld v.toNat 0 24, late := stream })) := by
  have hno : ¬ (!stream && (b.bar n).late) = true := by
    cases stream with
    | true => exact Bool.false_ne_true
    | false => rw [hlate rfl]; exact Bool.false_ne_true
  unfold State.bexp
  rw [hb]
  dsimp only
  rw [if_neg hno, if_neg (Nat.not_le.mpr hsum)]

theorem bexp_of_overflow (hsum : 2 ^ 24 ≤ (b.bar n).post.toNat + (b.bar n).posts + fld v.toNat 0 24) :
    s.bexp blk n stream v = .trap .illegalDesc 0 := by
  have hno : ¬ (!stream && (b.bar n).late) = true := by
    cases stream with
    | true => exact Bool.false_ne_true
    | false => rw [hlate rfl]; exact Bool.false_ne_true
  unfold State.bexp
  rw [hb]
  dsimp only
  rw [if_neg hno, if_pos hsum]

end

theorem binit_of_bad (s : State) (blk n : Nat) {v : W64} (h : v.toNat = 0 ∨ 2 ^ 12 ≤ v.toNat) : s.binit blk n v = .trap .illegalDesc 0 := by
  unfold State.binit
  rw [if_pos (by simpa using h)]

theorem binit_not_short (s : State) (blk n : Nat) (v : W64) (w : Nat) : s.binit blk n v ≠ .short w := by
  unfold State.binit
  split <;> exact Res.noConfusion

theorem bexp_not_short (s : State) (blk n : Nat) (stream : Bool) (v : W64) (w : Nat) : s.bexp blk n stream v ≠ .short w := by
  unfold State.bexp
  split
  · exact Res.noConfusion
  · dsimp only
    split
    · exact Res.noConfusion
    · split <;> exact Res.noConfusion

theorem bsync_not_short (s : State) (blk n uid core : Nat) (x : Option Wait) (w : Nat) : s.bsync blk n uid core x ≠ .short w := by
  unfold State.bsync
  split <;> split <;> exact Res.noConfusion

/-- How BWAIT ends (R225). -/
def bwaitRes (s : State) (blk n uid core : Nat) (v : W64) : Res :=
  if s.phase blk n != v.getLsbD 0 then .done (s.acquired core uid) else .wait s

theorem phase_eq {s : State} {blk : Nat} {b : Block} (hb : s.block? blk = some b) (n : Nat) : s.phase blk n = (b.bar n).phase := by
  unfold State.phase
  rw [hb]

section
variable {s : State} {blk : Nat} {b : Block} (hb : s.block? blk = some b) {n : Nat} {v : W64}
include hb

theorem bwaitRes_of_ne {uid core : Nat} (hp : (b.bar n).phase ≠ v.getLsbD 0) : bwaitRes s blk n uid core v = .done (s.acquired core uid) := by
  unfold bwaitRes
  rw [phase_eq hb, if_pos (bne_iff_ne.mpr hp)]

theorem bwaitRes_of_eq {uid core : Nat} (hp : (b.bar n).phase = v.getLsbD 0) : bwaitRes s blk n uid core v = .wait s := by
  unfold bwaitRes
  rw [phase_eq hb, hp, bne_self_eq_false, if_neg Bool.false_ne_true]

theorem bsync_of_first {uid core : Nat} (harr : ∀ a ∈ b.arr, a.uid ≠ uid) :
    s.bsync blk n uid core none = .wait (s.arrive blk n uid none true) := by
  have harriving : ¬ s.arriving blk uid = true := by
    unfold State.arriving
    rw [hb]
    simp only [List.any_eq_true, Bool.and_eq_true, beq_iff_eq, not_exists, not_and]
    exact fun a ha hu => absurd hu (harr a ha)
  exact if_neg harriving

theorem bsync_of_counted {uid core j : Nat} {i : Instr} {p : Bool} {nx : Nat × Bool} (hp : (b.bar n).phase ≠ p) :
    s.bsync blk n uid core (some (.barrier i p j nx)) = .done (s.acquired core uid) := by
  refine if_pos ?_
  rw [phase_eq hb]
  exact bne_iff_ne.mpr hp

end

/-- An arrival that is added to a block (R210). -/
theorem arrive_spec {s : State} {blk : Nat} {b : Block} (hb : s.block? blk = some b) (n uid : Nat) (d : Option Nat) (sync : Bool) :
    ∃ m, s.arrive blk n uid d sync = m ∧ m = { s with blocks := m.blocks, seq := s.seq + 1 } ∧
      (∀ k, k ≠ blk → m.blocks.find k = s.blocks.find k) ∧
      m.block? blk = some { b with arr := b.arr ++ [⟨uid, n, d, s.seq, sync⟩] } := by
  refine ⟨_, rfl, ?_⟩
  unfold State.arrive
  rw [modBlock_eq _ hb]
  exact ⟨rfl, fun k hk => blocks_setBlock_of_ne s _ hk, block_setBlock_same ..⟩

/-! A team's instructions. -/

section
variable {h : Hdr} {n : Fin 128} {s : State} {c slot : Nat} {t : Team} (h0 : t.adm h ≠ 0) (hn : n.val < t.hdr.nb)
include h0 hn

theorem exec_binit_team {a : SReg} (w : TeamIssues (.binit h a n) h s c slot t) :
    exec (.binit h a n) s = .next (settleTeam (.binit h a n) h s c slot t (s.binit t.blk n.val (t.rs a))) := by
  refine barrier_team w hn ?_ (binit_not_short _ _ _ _)
  exact if_neg h0

theorem exec_bexp_team {a : SReg} (w : TeamIssues (.bexp h a n) h s c slot t) :
    exec (.bexp h a n) s = .next (settleTeam (.bexp h a n) h s c slot t (s.bexp t.blk n.val false (t.rs a))) := by
  refine barrier_team w hn ?_ (bexp_not_short _ _ _ _ _)
  exact if_neg h0

theorem exec_barr_team {d : SReg} (w : TeamIssues (.barr h d n) h s c slot t) : exec (.barr h d n) s =
    .next (settleTeam (.barr h d n) h s c slot t (.done ((s.arrive t.blk n.val t.uid (some d.val) false).killLoads c slot))) := by
  refine barrier_team w hn ?_ fun _ => Res.noConfusion
  exact if_neg h0

theorem exec_bwait_team {a : SReg} (w : TeamIssues (.bwait h a n) h s c slot t) :
    exec (.bwait h a n) s = .next (settleTeam (.bwait h a n) h s c slot t (bwaitRes s t.blk n.val t.uid c (t.rs a))) := by
  refine barrier_team w hn ?_ fun _ => ?_
  · exact if_neg h0
  · unfold bwaitRes
    split <;> exact Res.noConfusion

theorem exec_bsync_team (w : TeamIssues (.bsync h n) h s c slot t) :
    exec (.bsync h n) s = .next (settleTeam (.bsync h n) h s c slot t (s.bsync t.blk n.val t.uid c t.wait)) := by
  refine barrier_team w hn ?_ (bsync_not_short _ _ _ _ _ _)
  exact if_neg h0

end

section
variable {h : Hdr} {n : Fin 128} {s : State} {c slot : Nat} {t : Team} {b : Block} (hs : slot < 16) (h0 : t.adm h ≠ 0)
  (hn : n.val < t.hdr.nb) (hb : s.block? t.blk = some b)
include hs h0 hn hb

theorem binit_team {a : SReg} (w : TeamIssues (.binit h a n) h s c slot t) (h1 : 1 ≤ (t.rs a).toNat) (h2 : (t.rs a).toNat < 2 ^ 12) :
    ∃ s' b', exec (.binit h a n) s = .next s' ∧ Claims.Goes s c slot t t s' ∧
      TeamFrame { s with blocks := s'.blocks } s' c slot ∧ (∀ k, k ≠ t.blk → s'.blocks.find k = s.blocks.find k) ∧
      s'.block? t.blk = some b' ∧ b' = { b with bars := b'.bars } ∧
      ∀ k, b'.bar k = if k = n.val then ⟨BitVec.ofNat 12 (t.rs a).toNat, 0, 0, false, 0, 0, false⟩ else b.bar k := by
  obtain ⟨s', b', hs', hend⟩ := setBar_done (i := .binit h a n) (h := h) (b := b) (n := n.val)
    (x := ⟨BitVec.ofNat 12 (t.rs a).toNat, 0, 0, false, 0, 0, false⟩) hs w.2.1
  exact ⟨s', b', (exec_binit_team h0 hn w).trans (by rw [binit_of_count hb n.val h1 h2, hs']), hend⟩

theorem bexp_team {a : SReg} (w : TeamIssues (.bexp h a n) h s c slot t) (hlate : (b.bar n.val).late = false)
    (hsum : (b.bar n.val).post.toNat + (b.bar n.val).posts + fld (t.rs a).toNat 0 24 < 2 ^ 24) :
    ∃ s' b', exec (.bexp h a n) s = .next s' ∧ Claims.Goes s c slot t t s' ∧ TeamFrame { s with blocks := s'.blocks } s' c slot ∧
      (∀ k, k ≠ t.blk → s'.blocks.find k = s.blocks.find k) ∧ s'.block? t.blk = some b' ∧ b' = { b with bars := b'.bars } ∧
      ∀ k, b'.bar k = if k = n.val then { b.bar k with posts := (b.bar k).posts + fld (t.rs a).toNat 0 24 } else b.bar k := by
  obtain ⟨s', b', hs', hgoes, hframe, hothers, hblock, hb', hbars⟩ := setBar_done (i := .bexp h a n) (h := h) (b := b) (n := n.val)
    (x := { b.bar n.val with posts := (b.bar n.val).posts + fld (t.rs a).toNat 0 24, late := false }) hs w.2.1
  refine ⟨s', b', (exec_bexp_team h0 hn w).trans (by rw [bexp_of_sum hb (fun _ => hlate) hsum, hs']), hgoes, hframe, hothers, hblock,
    hb', fun k => (hbars k).trans ?_⟩
  split
  · next hk => rw [hk, ← hlate]
  · rfl

theorem barr_team {d : SReg} (w : TeamIssues (.barr h d n) h s c slot t) :
    ∃ s', exec (.barr h d n) s = .next s' ∧ Claims.Goes s c slot t t s' ∧ TeamFrame { s with blocks := s'.blocks } s' c slot ∧
      (∀ k, k ≠ t.blk → s'.blocks.find k = s.blocks.find k) ∧
      s'.block? t.blk = some { b with arr := b.arr ++ [⟨t.uid, n.val, some d.val, s.seq, false⟩] } := by
  obtain ⟨m, hm, hrest, hothers, hblock⟩ := arrive_spec hb n.val t.uid (some d.val) false
  have hexec := exec_barr_team h0 hn w
  rw [hm] at hexec
  have hf : TeamFrame { s with blocks := (m.killLoads c slot).blocks } (m.killLoads c slot) c slot := by
    rw [blocks_killLoads]
    refine (teamFrame_counts _ c slot s.ctr (s.seq + 1)).trans ?_
    rw [← hrest]
    exact teamFrame_killLoads m c slot slot
  obtain ⟨hblocks, hgoes, hframe⟩ := blocks_done (i := .barr h d n) (h := h) (t := t) hs
    (by rw [team_killLoads, hrest]; exact w.2.1) hf rfl
  have hblocks := hblocks.trans (blocks_killLoads m c slot)
  exact ⟨_, hexec, hgoes, hframe, fun k hk => (congrArg (fun l : Tbl Block => l.find k) hblocks).trans (hothers k hk),
    (congrArg (fun l : Tbl Block => l.find t.blk) hblocks).trans hblock⟩

theorem bwait_team_goes {a : SReg} (w : TeamIssues (.bwait h a n) h s c slot t) (hp : (b.bar n.val).phase ≠ (t.rs a).getLsbD 0)
    (hof : s.teamOf t.uid = some (tkey c slot, t)) :
    ∃ s', exec (.bwait h a n) s = .next s' ∧ Claims.PortFrame s s' c slot ∧ (∀ q, s'.memGet q = s.memGet q) ∧
      Claims.Goes s c slot t t s' ∧ Claims.Acquired s s' c := by
  exact ⟨_, (exec_bwait_team h0 hn w).trans (by rw [bwaitRes_of_ne hb hp]), acquire_done hs w.2.1 hof rfl⟩

theorem bwait_team_waits {a : SReg} (w : TeamIssues (.bwait h a n) h s c slot t) (hp : (b.bar n.val).phase = (t.rs a).getLsbD 0)
    (hw : t.wait = none) : exec (.bwait h a n) s =
      .next ((State.setTeam s c slot { t with wait := some (.instr (.bwait h a n) s.seq (s.nextOf c t)) }).tickSeq) := by
  rw [exec_bwait_team h0 hn w, bwaitRes_of_eq hb hp, settleTeam_wait hw w.2.1]

theorem bsync_team_waits (w : TeamIssues (.bsync h n) h s c slot t) (hw : t.wait = none) (harr : ∀ a ∈ b.arr, a.uid ≠ t.uid) :
    ∃ s', exec (.bsync h n) s = .next s' ∧ s' = { s with blocks := s'.blocks, teams := s'.teams, seq := s'.seq } ∧
      (∀ k, k ≠ t.blk → s'.blocks.find k = s.blocks.find k) ∧ (∀ k, k ≠ tkey c slot → s'.teams.find k = s.teams.find k) ∧
      s'.block? t.blk = some { b with arr := b.arr ++ [⟨t.uid, n.val, none, s.seq, true⟩] } ∧
      ∃ j, s'.team? c slot = some { t with wait := some (.instr (.bsync h n) j (s.nextOf c t)) } := by
  have hexec := exec_bsync_team h0 hn w
  obtain ⟨m, hm, hrest, hothers, hblock⟩ := arrive_spec hb n.val t.uid none true
  have hteam : m.team? c slot = some t := by
    rw [hrest]
    exact w.2.1
  rw [hw, bsync_of_first hb harr, hm, settleTeam_wait hw hteam] at hexec
  exact ⟨_, hexec, waiting_rest ⟨_, _, hrest⟩ c slot _, hothers, fun k hk => (Tbl.find_put_of_ne _ _ hk).trans (by rw [hrest]), hblock, s.seq,
    Tbl.find_put_same ..⟩

theorem bsync_team_goes {i : Instr} {p : Bool} {j : Nat} {nx : Nat × Bool} (w : TeamIssues (.bsync h n) h s c slot t)
    (hw : t.wait = some (.barrier i p j nx)) (hp : (b.bar n.val).phase ≠ p) (hof : s.teamOf t.uid = some (tkey c slot, t)) :
    ∃ s', exec (.bsync h n) s = .next s' ∧ Claims.PortFrame s s' c slot ∧ (∀ q, s'.memGet q = s.memGet q) ∧
      Claims.Goes s c slot t t s' ∧ Claims.Acquired s s' c :=
  ⟨_, (exec_bsync_team h0 hn w).trans (by rw [hw, bsync_of_counted hb hp]), acquire_done hs w.2.1 hof rfl⟩

end

/-! A stream's instructions. -/

section
variable {h : Hdr} {n : Fin 128} {s : State} {c : Nat} {r : Ridge} (h0 : r.adm h = true) (hn : n.val < r.hdr.nb)
include h0

theorem admits_stream : ¬ (!(r.x c h).adm) = true := by
  rw [show (r.x c h).adm = true from h0]
  exact Bool.false_ne_true

include hn

theorem exec_binit_stream {a : SReg} (w : RidgeIssues (.binit h a n) h s c r) :
    exec (.binit h a n) s = .next (settleRidge (.binit h a n) h s c r (s.binit r.blk n.val (r.rs a))) := by
  refine barrier_stream w hn ?_
  exact if_neg (admits_stream h0)

theorem exec_bexp_stream {a : SReg} (w : RidgeIssues (.bexp h a n) h s c r) :
    exec (.bexp h a n) s = .next (settleRidge (.bexp h a n) h s c r (s.bexp r.blk n.val true (r.rs a))) := by
  refine barrier_stream w hn ?_
  exact if_neg (admits_stream h0)

theorem exec_barr_stream {d : SReg} (w : RidgeIssues (.barr h d n) h s c r) :
    exec (.barr h d n) s = .next (settleRidge (.barr h d n) h s c r (.done (s.arrive r.blk n.val r.uid (some d.val) false))) := by
  refine barrier_stream w hn ?_
  exact if_neg (admits_stream h0)

theorem exec_bwait_stream {a : SReg} (w : RidgeIssues (.bwait h a n) h s c r) :
    exec (.bwait h a n) s = .next (settleRidge (.bwait h a n) h s c r (bwaitRes s r.blk n.val r.uid c (r.rs a))) := by
  refine barrier_stream w hn ?_
  exact if_neg (admits_stream h0)

theorem exec_bsync_stream (w : RidgeIssues (.bsync h n) h s c r) :
    exec (.bsync h n) s = .next (settleRidge (.bsync h n) h s c r (s.bsync r.blk n.val r.uid c r.wait)) := by
  refine barrier_stream w hn ?_
  exact if_neg (admits_stream h0)

variable {b : Block} (hb : s.block? r.blk = some b)
include hb

theorem binit_stream {a : SReg} (w : RidgeIssues (.binit h a n) h s c r) (h1 : 1 ≤ (r.rs a).toNat) (h2 : (r.rs a).toNat < 2 ^ 12) :
    ∃ s' b', exec (.binit h a n) s = .next s' ∧ Claims.Streams s c r s' ∧ Claims.StreamFrame s s' c r.blk ∧ s'.cores = s.cores ∧
      s'.accs = s.accs ∧ s'.block? r.blk = some b' ∧ b' = { b with bars := b'.bars } ∧
      ∀ k, b'.bar k = if k = n.val then ⟨BitVec.ofNat 12 (r.rs a).toNat, 0, 0, false, 0, 0, false⟩ else b.bar k := by
  obtain ⟨s', b', hs', hend⟩ := setBar_doneM (i := .binit h a n) (h := h) (b := b) (n := n.val)
    (x := ⟨BitVec.ofNat 12 (r.rs a).toNat, 0, 0, false, 0, 0, false⟩) w.2.1
  exact ⟨s', b', (exec_binit_stream h0 hn w).trans (by rw [binit_of_count hb n.val h1 h2, hs']), hend⟩

theorem bexp_stream {a : SReg} (w : RidgeIssues (.bexp h a n) h s c r)
    (hsum : (b.bar n.val).post.toNat + (b.bar n.val).posts + fld (r.rs a).toNat 0 24 < 2 ^ 24) :
    ∃ s' b', exec (.bexp h a n) s = .next s' ∧ Claims.Streams s c r s' ∧ Claims.StreamFrame s s' c r.blk ∧ s'.cores = s.cores ∧
      s'.accs = s.accs ∧ s'.block? r.blk = some b' ∧ b' = { b with bars := b'.bars } ∧
      ∀ k, b'.bar k = if k = n.val then { b.bar k with posts := (b.bar k).posts + fld (r.rs a).toNat 0 24, late := true }
        else b.bar k := by
  obtain ⟨s', b', hs', hgoes, hframe, hcores, haccs, hblock, hb', hbars⟩ := setBar_doneM (i := .bexp h a n) (h := h) (b := b) (n := n.val)
    (x := { b.bar n.val with posts := (b.bar n.val).posts + fld (r.rs a).toNat 0 24, late := true }) w.2.1
  refine ⟨s', b', (exec_bexp_stream h0 hn w).trans (by rw [bexp_of_sum (stream := true) hb nofun hsum, hs']), hgoes, hframe, hcores, haccs, hblock, hb',
    fun k => (hbars k).trans ?_⟩
  split
  · next hk => rw [hk]
  · rfl

theorem barr_stream {d : SReg} (w : RidgeIssues (.barr h d n) h s c r) :
    ∃ s', exec (.barr h d n) s = .next s' ∧ Claims.Streams s c r s' ∧ Claims.StreamFrame s s' c r.blk ∧ s'.cores = s.cores ∧
      s'.accs = s.accs ∧ s'.block? r.blk = some { b with arr := b.arr ++ [⟨r.uid, n.val, some d.val, s.seq, false⟩] } := by
  obtain ⟨m, hm, hrest, hothers, hblock⟩ := arrive_spec hb n.val r.uid (some d.val) false
  have hexec := exec_barr_stream h0 hn w
  rw [hm] at hexec
  have hrest' : m = { s with blocks := m.blocks, seq := m.seq } := by
    rw [hrest]
  obtain ⟨hgoes, hframe, hcores, haccs, hblocks⟩ := blocks_doneM (i := .barr h d n) (h := h) w.2.1 hrest' hothers rfl
  exact ⟨_, hexec, hgoes, hframe, hcores, haccs, (congrArg (fun l : Tbl Block => l.find r.blk) hblocks).trans hblock⟩

theorem bsync_stream_waits (w : RidgeIssues (.bsync h n) h s c r) (hw : r.wait = none) (harr : ∀ a ∈ b.arr, a.uid ≠ r.uid) :
    ∃ s', exec (.bsync h n) s = .next s' ∧ s' = { s with blocks := s'.blocks, ridges := s'.ridges, seq := s'.seq } ∧
      (∀ k, k ≠ r.blk → s'.blocks.find k = s.blocks.find k) ∧ (∀ k, k ≠ c → s'.ridges.find k = s.ridges.find k) ∧
      s'.block? r.blk = some { b with arr := b.arr ++ [⟨r.uid, n.val, none, s.seq, true⟩] } ∧
      ∃ j, s'.ridge? c = some { r with wait := some (.instr (.bsync h n) j (s.nextOfM c r)) } := by
  have hexec := exec_bsync_stream h0 hn w
  obtain ⟨m, hm, hrest, hothers, hblock⟩ := arrive_spec hb n.val r.uid none true
  have hridge : m.ridge? c = some r := by
    rw [hrest]
    exact w.2.1
  rw [hw, bsync_of_first hb harr, hm, settleRidge_wait hw hridge] at hexec
  exact ⟨_, hexec, waiting_restM ⟨_, _, hrest⟩ c _, hothers, fun k hk => (Tbl.find_put_of_ne _ _ hk).trans (by rw [hrest]), hblock, s.seq,
    Tbl.find_put_same ..⟩

end

/-! The arrival that counts (R210). -/

/-- BARRIER_ARRIVAL of an arrival that is due. -/
theorem exec_barrierArrival {s : State} {c k blk : Nat} {a : Arrival} {b : Block} (ha : (s.arrivals c)[k]? = some (blk, a))
    (hb : s.block? blk = some b) (hdue : s.arrivalDue a = true) {m : State}
    (hm : s.setBlock blk { b.setBar a.bar { b.bar a.bar with now := (b.bar a.bar).now + 1 } with arr := b.arr.filter fun q => q != a } = m) :
    exec (.barrierArrival c k) s = .next (if a.sync then m.syncWait a.uid (b.bar a.bar).phase
      else match a.dst with
        | some d => m.deliverTo c a.uid 0 (.scalar d) 0 8 false (bit (b.bar a.bar).phase)
        | none => m) := by
  show execBarrierArrival c k s = _
  unfold execBarrierArrival
  rw [ha]
  dsimp only
  rw [hdue, modBlock_eq _ hb, phase_eq hb, hm]
  rfl

theorem arrivalDue_of {s : State} {a : Arrival} (hattn : ∀ r q, s.ridgeOf a.uid = some (q, r) → ∀ x, s.block? r.blk = some x → x.attn = none)
    (haccs : ∀ q ∈ s.accs, q.uid = a.uid → a.seq ≤ q.id) : s.arrivalDue a = true := by
  have hany : (s.accs.any fun q => q.uid == a.uid && q.id < a.seq && (!(s.teamOf a.uid).isSome || !q.isRead)) = false := by
    rw [List.any_eq_false]
    intro q hq
    by_cases hu : q.uid = a.uid
    · have := haccs q hq hu
      simp [hu, Nat.not_lt.mpr this]
    · simp [hu]
  unfold State.arrivalDue
  dsimp only
  rw [hany, Bool.not_false, Bool.and_true, Bool.not_eq_true']
  split
  · next q r hof =>
    split
    · next x hx => rw [hattn r q hof x hx]; rfl
    · rfl
  · rfl

theorem syncWait_team {m : State} {uid q j : Nat} {t : Team} {i : Instr} {nx : Nat × Bool} {p : Bool} (hof : m.teamOf uid = some (q, t))
    (hw : t.wait = some (.instr i j nx)) :
    m.syncWait uid p = { m with teams := m.teams.put q { t with wait := some (.barrier i p j nx) } } := by
  unfold State.syncWait
  rw [hof]
  dsimp only
  rw [hw]

theorem deliverTo_team {m : State} {core uid lane q d k len v : Nat} {sx : Bool} {t : Team} (hof : m.teamOf uid = some (q, t)) :
    m.deliverTo core uid lane (.scalar d) k len sx v =
      { m with teams := m.teams.put q (t.ws (sregAt 0 d) (BitVec.ofNat 64 (extendTo 64 len sx v))) } := by
  unfold State.deliverTo
  rw [hof]

/-- What follows a counted arrival leaves the blocks. -/
theorem arrived_blocks {blk : Nat} {b' : Block} (s : State) (c : Nat) (a : Arrival) (p : Bool) :
    ∃ s', (if a.sync then (s.setBlock blk b').syncWait a.uid p
      else match a.dst with
        | some d => (s.setBlock blk b').deliverTo c a.uid 0 (.scalar d) 0 8 false (bit p)
        | none => s.setBlock blk b') = s' ∧ s' = { s with blocks := s'.blocks, teams := s'.teams, ridges := s'.ridges } ∧
      (∀ j, j ≠ blk → s'.blocks.find j = s.blocks.find j) ∧ s'.block? blk = some b' := by
  have hdone {s' : State} (h : ∃ ts rs, s' = { s.setBlock blk b' with teams := ts, ridges := rs }) :
      s' = { s with blocks := s'.blocks, teams := s'.teams, ridges := s'.ridges } ∧
      (∀ j, j ≠ blk → s'.blocks.find j = s.blocks.find j) ∧ s'.block? blk = some b' := by
    obtain ⟨ts, rs, rfl⟩ := h
    exact ⟨rfl, fun j hj => blocks_setBlock_of_ne s b' hj, block_setBlock_same s blk b'⟩
  refine ⟨_, rfl, hdone ?_⟩
  split
  · unfold State.syncWait
    split
    · split <;> exact ⟨_, _, rfl⟩
    · split
      · split <;> exact ⟨_, _, rfl⟩
      · exact ⟨_, _, rfl⟩
  · split
    · unfold State.deliverTo
      dsimp only
      split
      · exact ⟨_, _, rfl⟩
      · split <;> exact ⟨_, _, rfl⟩
    · exact ⟨_, _, rfl⟩

/-- Settles O46. -/
theorem barriers : Obligations.Barriers := by
  refine ⟨⟨fun h n s c slot t b hs h0 hn hb => ⟨fun a w h1 h2 => binit_team hs h0 hn hb w h1 h2, fun a w hbad => ?_,
    fun d w => barr_team hs h0 hn hb w, fun a w hp hof => bwait_team_goes hs h0 hn hb w hp hof,
    fun a w hp hw => bwait_team_waits hs h0 hn hb w hp hw, fun w hw harr => bsync_team_waits hs h0 hn hb w hw harr,
    fun i j p nx w hw hp hof => bsync_team_goes hs h0 hn hb w hw hp hof, fun a w hlate => ?_, fun a w hlate hsum => ?_,
    fun a w hlate hsum => bexp_team hs h0 hn hb w hlate hsum⟩, fun i n s c slot hi => exec_noBarrier hi s c slot,
    fun h n s c r b h0 hn hb => ?_⟩, ?_⟩
  · exact (exec_binit_team h0 hn w).trans (by rw [binit_of_bad s _ _ hbad]; rfl)
  · exact (exec_bexp_team h0 hn w).trans (by rw [bexp_of_late hb hlate]; rfl)
  · exact (exec_bexp_team h0 hn w).trans (by rw [bexp_of_overflow hb (fun _ => hlate) hsum]; rfl)
  · refine ⟨fun a w h1 h2 => binit_stream h0 hn hb w h1 h2, fun d w => barr_stream h0 hn hb w, fun a w hp hof => ?_, fun a w hp hw => ?_,
      fun w hw harr => bsync_stream_waits h0 hn hb w hw harr, fun i j p nx w hw hp hof => ?_, fun a w hsum => ?_, fun a w hbad => ?_,
      fun a w hsum => bexp_stream h0 hn hb w hsum⟩
    · exact ⟨_, (exec_bwait_stream h0 hn w).trans (by rw [bwaitRes_of_ne hb hp]), acquire_doneM w.2.1 hof rfl⟩
    · rw [exec_bwait_stream h0 hn w, bwaitRes_of_eq hb hp, settleRidge_wait hw w.2.1]
    · exact ⟨_, (exec_bsync_stream h0 hn w).trans (by rw [hw, bsync_of_counted hb hp]), acquire_doneM w.2.1 hof rfl⟩
    · exact (exec_bexp_stream h0 hn w).trans (by rw [bexp_of_overflow (stream := true) hb nofun hsum]; rfl)
    · exact (exec_binit_stream h0 hn w).trans (by rw [binit_of_bad s _ _ hbad]; rfl)
  · intro c k blk a b s ha hb hattn haccs hknown
    obtain ⟨b', hb'⟩ : ∃ b', b' = { b.setBar a.bar { b.bar a.bar with now := (b.bar a.bar).now + 1 } with
      arr := b.arr.filter fun q => q != a } := ⟨_, rfl⟩
    obtain ⟨s', hs', hrest, hothers, hblock⟩ := arrived_blocks (blk := blk) (b' := b') s c a (b.bar a.bar).phase
    refine ⟨s', b', (exec_barrierArrival ha hb (arrivalDue_of hattn haccs) (by rw [← hb'])).trans (by rw [hs']), hrest, hothers, hblock,
      by rw [hb']; rfl, fun j => ?_, fun q t i j nx hof hsync hwait => ?_, fun q t d hof hsync hdst hd => ?_⟩
    · rw [hb']
      refine (bar_setBar ..).trans ?_
      split
      · next hj => rw [hj]
      · rfl
    · rw [← hs', hsync, if_pos rfl, syncWait_team (m := s.setBlock blk b') hof hwait]
      exact ⟨rfl, fun k hk => Tbl.find_put_of_ne _ _ hk, Tbl.find_put_same ..⟩
    · rw [← hs', hsync, if_neg Bool.false_ne_true, hdst]
      dsimp only
      rw [deliverTo_team (m := s.setBlock blk b') hof]
      refine ⟨rfl, fun k hk => Tbl.find_put_of_ne _ _ hk, _, Tbl.find_put_same .., Team.ws_frame .., fun x => ?_⟩
      rw [Team.rs_ws]
      simp only [Fin.ext_iff, sregAt_zero hd]
      split
      · cases (b.bar a.bar).phase <;> rfl
      · rfl

end Sys2Proof.Proofs

end

section
/-! R340, R344, R353, R356 to R358: launches, special registers and the work of domains. -/

open Sys2Proof Sys2Proof.Machine

namespace Sys2Proof.Proofs

/-! The end of an instruction that kills the team's load entries. -/

/-- A team goes on from a state that its instruction came to. -/
theorem goes_done {i : Instr} {h : Hdr} {s m : State} {c slot : Nat} {t t1 : Team} (hs : slot < 16) (ht : m.team? c slot = some t1) {s' : State}
    (hs' : settleTeam i h s c slot t (.done m) = s') :
    Claims.PortFrame m s' c slot ∧ Claims.Goes s c slot t t1 s' ∧ s' = { m with teams := s'.teams } := by
  obtain ⟨t', hteam, ht', hfl, hframe, hv⟩ := (settleTeam_done (i := i) (h := h) (s := s) (t := t) ht).spec ht hs
  have hrest := settle_rest (i := i) (h := h) (s := s) (t := t) ht
  rw [hs'] at *
  refine ⟨⟨hframe.teams, fun k hk r l => ?_, hframe.cores, ?_, ⟨?_, ?_, ?_, [], ?_⟩, fun _ => ?_⟩, ⟨t', hteam, hfl, fun r => ?_, fun r => ?_, ?_⟩, hrest⟩
  · by_cases hks : k = slot
    · subst hks
      exact hv r l
    · exact hframe.vregs k hk hks r l
  · rw [hrest]; rfl
  · rw [hrest]
  · rw [hrest]
  · rw [hrest]
  · rw [hrest, List.append_nil]
  · rw [hrest]
  · rw [ht']; rfl
  · rw [ht']; rfl
  · rw [ht']

/-- A team goes on with its load entries killed. -/
theorem killLoads_done {i : Instr} {h : Hdr} {s m : State} {c slot : Nat} {t t1 : Team} (hs : slot < 16) (ht : m.team? c slot = some t1) {s' : State}
    (hs' : settleTeam i h s c slot t (.done (m.killLoads c slot)) = s') :
    Claims.PortFrame m s' c slot ∧ Claims.Goes s c slot t t1 s' ∧ s' = { m with teams := s'.teams, cores := s'.cores, ctr := s'.ctr } ∧
      ∀ k, s'.core k = { m.core k with vtb := (s'.core k).vtb } := by
  obtain ⟨hframe, hgoes, hrest⟩ := goes_done hs (by rw [team_killLoads]; exact ht) hs'
  refine ⟨PortFrame.trans (PortFrame.killLoads m c slot slot) hframe ⟨rfl, fun _ => rfl⟩, hgoes, ?_, fun k => ?_⟩
  · rw [hrest]
    rfl
  · have hcore : s'.core k = (m.killLoads c slot).core k := by
      rw [hrest]
      rfl
    rw [hcore, core_killLoads]
    split
    · next hkc => subst hkc; rfl
    · rfl

/-- The same where the instruction has changed the team. -/
theorem killed_done {i : Instr} {h : Hdr} {s m : State} {c slot : Nat} {t t1 : Team} (hs : slot < 16) (ht : m.team? c slot = some t)
    (hv : t1.vmap = t.vmap) {s' : State} (hs' : settleTeam i h s c slot t (.done ((m.setTeam c slot t1).killLoads c slot)) = s') :
    Claims.PortFrame m s' c slot ∧ Claims.Goes s c slot t t1 s' ∧ s' = { m with teams := s'.teams, cores := s'.cores, ctr := s'.ctr } ∧
      ∀ k, s'.core k = { m.core k with vtb := (s'.core k).vtb } := by
  obtain ⟨hframe, hgoes, hrest, hcore⟩ := killLoads_done hs (State.team_setTeam_same m c slot t1) hs'
  exact ⟨PortFrame.trans (PortFrame.setTeam hs ht hv) hframe ⟨rfl, fun _ => rfl⟩, hgoes, hrest, hcore⟩

/-! LAUNCH (R340, R356). -/

/-- What a launch's signal asks of the tables: nothing, or the translation of its page. -/
def signalTouched (s : State) (c ctx sig : Nat) : State := if sig = 0 then s else s.tlbFills c ctx [sig]

theorem walked_signal (s : State) (c ctx sig : Nat) : Claims.Walked s (signalTouched s c ctx sig) := by
  unfold signalTouched
  split
  · exact walked_refl s
  · exact walked_tlbFills ..

theorem walksOn_signal (s : State) (c ctx sig : Nat) : WalksOn s (signalTouched s c ctx sig) := by
  unfold signalTouched
  split
  · exact .of_eq rfl
  · exact .touch s ⟨c, ctx, 0, 0, 0, 0⟩ .glob [(0, ⟨sig, 0, 0⟩)]

/-- The address of a launch's signal, 0 where it has none. -/
def launchSignal (t : Team) : Option SReg → Nat
  | some r => (t.rs r).toNat
  | none => 0

/-- LAUNCH of a grid, given the address of its signal. -/
def launchWith (d b : SReg) (sig : Nat) (x : X) (s : State) : Res :=
  if x.adm = 0 then .done s
  else match (if sig = 0 then .ok [] else spots s x.who .glob 8 true true true [(0, sig)]) with
  | .error e => s.failRes x.who .glob [(0, sig)] e
  | .ok ps =>
    if s.acquiring x.team.uid || s.owes x.team.uid s.seq then .wait s
    else
      let r := (s.touch x.who .glob ps).launchGrid x.who (s.partOf (stackOf x.c)) (x.src.team.rs b).toNat (if sig = 0 then none else some sig)
      .done ((r.1.modTeam x.c x.slot fun t => t.ws d (BitVec.ofNat 64 r.2)).killLoads x.c x.slot)

theorem exec_launchGrid_eq (h : Hdr) (d b : SReg) (e : Option SReg) (s : State) : exec (.launchGrid h d b e) s =
    runTeam (.launchGrid h d b e) h noNeed s fun x s => launchWith d b (launchSignal x.src.team e) x s := rfl

/-- A grid launch that comes to a state and a status, with a signal that can be reached. -/
theorem exec_launchGrid {h : Hdr} {d b : SReg} {e : Option SReg} {s : State} {c slot : Nat} {t : Team} {sig : Nat}
    (hsig : launchSignal t e = sig) (w : TeamIssues (.launchGrid h d b e) h s c slot t) (h0 : t.adm h ≠ 0)
    (hacq : s.acquiring t.uid = false) (howes : s.owes t.uid s.seq = false)
    (hreach : sig ≠ 0 → sig % 8 = 0 ∧ s.walkWaits c t.ctx sig = false ∧ ∃ k x, s.spanAt (t.who c) .glob 0 sig 8 true true = .ok k x)
    {m : State} {n : Nat} (hm : (signalTouched s c t.ctx sig).launchGrid (t.who c) (s.partOf (stackOf c)) (t.rs b).toNat
      (if sig = 0 then none else some sig) = (m, n)) (hteam : m.team? c slot = some t) :
    exec (.launchGrid h d b e) s = .next (settleTeam (.launchGrid h d b e) h s c slot t
      (.done ((m.setTeam c slot (t.ws d (BitVec.ofNat 64 n))).killLoads c slot))) := by
  have hplaces : ∃ ps, (if sig = 0 then .ok [] else spots s (t.who c) .glob 8 true true true [(0, sig)]) = .ok ps ∧
      s.touch (t.who c) .glob ps = signalTouched s c t.ctx sig := by
    by_cases hz : sig = 0
    · rw [if_pos hz]
      refine ⟨[], rfl, ?_⟩
      rw [signalTouched, if_pos hz]
      rfl
    · rw [if_neg hz, signalTouched, if_neg hz]
      obtain ⟨halign, hwait, k, x, hspan⟩ := hreach hz
      have hr : Claims.Reach s c t .glob 8 true true true [0] (fun _ => sig) fun _ => k := by
        intro l hl
        obtain rfl := List.mem_singleton.1 hl
        exact ⟨fun _ => halign, fun _ => hwait, x, hspan⟩
      obtain ⟨cls, hspots⟩ := spots_of_reach hr
      exact ⟨_, hspots, rfl⟩
  obtain ⟨ps, hps, htouch⟩ := hplaces
  rw [exec_launchGrid_eq]
  refine runTeam_eff w (r := .done _) ?_ nofun
  rw [show launchSignal (t.x s c slot h).src.team e = sig from hsig]
  unfold launchWith
  rw [if_neg (show (t.x s c slot h).adm ≠ 0 from h0)]
  rw [show (if sig = 0 then .ok [] else spots s (t.x s c slot h).who .glob 8 true true true [(0, sig)]) = .ok ps from hps]
  have hnow : ¬ (s.acquiring (t.x s c slot h).team.uid || s.owes (t.x s c slot h).team.uid s.seq) = true := by
    rw [show s.acquiring (t.x s c slot h).team.uid = false from hacq, show s.owes (t.x s c slot h).team.uid s.seq = false from howes]
    exact Bool.false_ne_true
  dsimp only
  rw [if_neg hnow, show s.touch (t.x s c slot h).who .glob ps = signalTouched s c t.ctx sig from htouch,
    show (signalTouched s c t.ctx sig).launchGrid (t.x s c slot h).who (s.partOf (stackOf (t.x s c slot h).c))
      ((t.x s c slot h).src.team.rs b).toNat (if sig = 0 then none else some sig) = (m, n) from hm]
  exact congrArg (fun y => Res.done (State.killLoads y c slot)) (modTeam_eq_setTeam _ hteam)

/-! The grid that a launch enters (R340, R342). -/

theorem core_dropCode (s : State) (part ctx k : Nat) :
    (s.dropCode part ctx).core k = { s.core k with icache := ((s.dropCode part ctx).core k).icache } := by
  let f : Nat × Core → Nat × Core := fun c =>
    if s.partOf (stackOf c.1) == part then (c.1, { c.2 with icache := c.2.icache.filter fun l => l.ctx != ctx }) else c
  have hf : ∀ c, (f c).1 = c.1 := fun c => by
    change (if _ then _ else _ : Nat × Core).1 = c.1
    split <;> rfl
  have hget : s.core k = (s.cores.find k).getD Core.zero := Tbl.get_eq_find ..
  have hmap : (s.dropCode part ctx).core k = Tbl.get Core.zero (s.cores.map f) k := rfl
  rcases Tbl.get_map Core.zero f hf s.cores k with ⟨hd, hn⟩ | ⟨v, hv, hd⟩
  · rw [hmap, hd, hget, hn]
    rfl
  · rw [hmap, hd, hget, hv]
    change (if _ then _ else _ : Nat × Core).2 = { v with icache := (if _ then _ else _ : Nat × Core).2.icache }
    split <;> rfl

theorem dropCode_rest (s : State) (part ctx : Nat) :
    s.dropCode part ctx = { s with cores := (s.dropCode part ctx).cores, stks := (s.dropCode part ctx).stks } := rfl

/-- The state in which the code of a launch's context is dropped, where its header says so. -/
def codeAside (s : State) (l : Launch) (part ctx : Nat) : State := if l.icinv then s.dropCode part ctx else s

theorem codeAside_spec (s : State) (l : Launch) (part ctx : Nat) :
    (∀ k, (codeAside s l part ctx).core k = { s.core k with icache := ((codeAside s l part ctx).core k).icache }) ∧
      codeAside s l part ctx = { s with cores := (codeAside s l part ctx).cores, stks := (codeAside s l part ctx).stks } := by
  unfold codeAside
  split
  · exact ⟨core_dropCode s part ctx, rfl⟩
  · exact ⟨fun _ => rfl, rfl⟩

/-- What a grid that enters its pool changes. -/
theorem enterGrid_spec {s : State} {ctx part : Nat} {l : Launch} {signal : Option Nat} {p : Pool} (hp : (s.ctx ctx).pools.find l.pool = some p)
    {m : State} (hm : s.enterGrid ctx part l signal = m) :
    m = { s with cores := m.cores, stks := m.stks, launches := m.launches, seq := m.seq, ctxs := m.ctxs } ∧
      (∀ k, m.core k = { s.core k with icache := (m.core k).icache }) ∧
      (∀ k, m.launches.find k = if k = s.seq then some ⟨ctx, part, l.blocks, signal, []⟩ else s.launches.find k) ∧
      (∀ k, k ≠ ctx → m.ctx k = s.ctx k) ∧ m.ctx ctx = { s.ctx ctx with pools := (m.ctx ctx).pools } ∧
      ∀ k, (m.ctx ctx).pools.find k = if k = l.pool then some { p with
        gangs := p.gangs ++ [Claims.gridGang s p l], since := if p.gangs.isEmpty then s.tick.toNat else p.since }
        else (s.ctx ctx).pools.find k := by
  obtain ⟨hcore, hrest⟩ := codeAside_spec s l part ctx
  have heq : s.enterGrid ctx part l signal = (({ codeAside s l part ctx with
      launches := (codeAside s l part ctx).launches.put (codeAside s l part ctx).seq ⟨ctx, part, l.blocks, signal, []⟩ }).tickSeq).setPool ctx l.pool
      { p with gangs := p.gangs ++ [Claims.gridGang s p l], since := if p.gangs.isEmpty then s.tick.toNat else p.since } := by
    unfold State.enterGrid
    rw [show (if l.icinv = true then s.dropCode part ctx else s) = codeAside s l part ctx from rfl]
    have hpool : ((({ codeAside s l part ctx with
      launches := (codeAside s l part ctx).launches.put (codeAside s l part ctx).seq ⟨ctx, part, l.blocks, signal, []⟩ }).tickSeq).ctx ctx).pools.find
        l.pool = some p := by
      rw [hrest]
      exact hp
    dsimp only
    rw [hpool]
    dsimp only
    rw [hrest]
    rfl
  rw [heq] at hm
  generalize codeAside s l part ctx = q at *
  subst hm
  refine ⟨?_, hcore, fun k => ?_, fun k hk => ?_, ?_, fun k => ?_⟩
  · rw [hrest]
    rfl
  · rw [hrest]
    exact Tbl.find_put ..
  · rw [ctx_setPool_of_ne _ _ _ hk, hrest]
    rfl
  · refine (ctx_setPool_same ..).trans ?_
    rw [hrest]
    rfl
  · rw [pools_setPool, hrest]
    rfl

/-! The two ends of LAUNCH of a grid. -/

theorem vmap_ws (t : Team) (r : SReg) (v : W64) : (t.ws r v).vmap = t.vmap := by
  rw [Team.ws_frame]

section
variable {h : Hdr} {d b : SReg} {e : Option SReg} {s : State} {c slot : Nat} {t : Team} {sig : Nat}
  (hsig : launchSignal t e = sig) (hs : slot < 16) (w : TeamIssues (.launchGrid h d b e) h s c slot t) (h0 : t.adm h ≠ 0)
  (hacq : s.acquiring t.uid = false) (howes : s.owes t.uid s.seq = false)
  (hreach : sig ≠ 0 → sig % 8 = 0 ∧ s.walkWaits c t.ctx sig = false ∧ ∃ k x, s.spanAt (t.who c) .glob 0 sig 8 true true = .ok k x)
include hsig hs w h0 hacq howes hreach

/-- A grid that is not launched. -/
theorem launchGrid_none {n : Nat} (hn : (signalTouched s c t.ctx sig).launchGrid (t.who c) (s.partOf (stackOf c)) (t.rs b).toNat
      (if sig = 0 then none else some sig) = (signalTouched s c t.ctx sig, n)) :
    ∃ s', exec (.launchGrid h d b e) s = .next s' ∧ Claims.PortFrame s s' c slot ∧ (∀ q, s'.memGet q = s.memGet q) ∧
      s'.ctxs = s.ctxs ∧ s'.accs = s.accs ∧ Claims.Goes s c slot t (t.ws d (BitVec.ofNat 64 n)) s' := by
  have hwalk := walkAside_of_walked (walked_signal s c t.ctx sig)
  have hissued : Issued s (signalTouched s c t.ctx sig) c [] := .of_walked (walked_signal s c t.ctx sig)
  have hframe := portFrame_issued (slot := slot) hissued (walksOn_signal s c t.ctx sig)
  have hclean := sameClean_issued hissued
  have hrest := (walked_signal s c t.ctx sig).1
  have hteam : (signalTouched s c t.ctx sig).team? c slot = some t := (hwalk.team c slot).trans w.2.1
  have hx := exec_launchGrid hsig w h0 hacq howes hreach hn hteam
  refine ⟨_, hx, ?_⟩
  generalize signalTouched s c t.ctx sig = m at *
  generalize hs' : settleTeam _ _ s c slot t _ = s'
  obtain ⟨hf, hgoes, hend, hvtb⟩ := killed_done hs hteam (vmap_ws ..) hs'
  refine ⟨PortFrame.trans hframe hf hclean, fun q => ?_, ?_, ?_, hgoes⟩
  · rw [hend]
    exact hwalk.memGet q
  · rw [hend, hrest]
  · rw [hend, hrest]

/-- A grid that is launched: it stands last in its pool. -/
theorem launchGrid_enters {l : Launch} {p : Pool} (hp : (s.ctx t.ctx).pools.find l.pool = some p)
    (hl : (signalTouched s c t.ctx sig).launchGrid (t.who c) (s.partOf (stackOf c)) (t.rs b).toNat (if sig = 0 then none else some sig) =
      ((signalTouched s c t.ctx sig).enterGrid t.ctx (s.partOf (stackOf c)) l (if sig = 0 then none else some sig), 0)) :
    ∃ s', exec (.launchGrid h d b e) s = .next s' ∧ (∀ q, s'.memGet q = s.memGet q) ∧ s'.accs = s.accs ∧ s'.blocks = s.blocks ∧
      (∀ k, k ≠ tkey c slot → s'.teams.find k = s.teams.find k) ∧ (∀ k, k < 16 → ∀ r j, s'.vreg c k r j = s.vreg c k r j) ∧
      (∀ k, s'.core k = { s.core k with icache := (s'.core k).icache, vtb := (s'.core k).vtb }) ∧
      Claims.Goes s c slot t (t.ws d 0) s' ∧
      (∀ k, s'.launches.find k = if k = s.seq then some ⟨t.ctx, s.partOf (stackOf c), l.blocks, if sig = 0 then none else some sig, []⟩
        else s.launches.find k) ∧
      (∀ k, k ≠ t.ctx → s'.ctx k = s.ctx k) ∧ s'.ctx t.ctx = { s.ctx t.ctx with pools := (s'.ctx t.ctx).pools } ∧
      ∀ k, (s'.ctx t.ctx).pools.find k = if k = l.pool then some { p with
        gangs := p.gangs ++ [Claims.gridGang s p l], since := if p.gangs.isEmpty then s.tick.toNat else p.since }
        else (s.ctx t.ctx).pools.find k := by
  have hrest := (walked_signal s c t.ctx sig).1
  have hctx (k : Nat) := (walkAside_of_walked (walked_signal s c t.ctx sig)).ctx k
  have hcores (k : Nat) := (walkAside_of_walked (walked_signal s c t.ctx sig)).core k
  generalize hq : signalTouched s c t.ctx sig = q at *
  have hpq : (q.ctx t.ctx).pools.find l.pool = some p := by rw [hctx]; exact hp
  generalize hm : q.enterGrid t.ctx (s.partOf (stackOf c)) l (if sig = 0 then none else some sig) = m at hl
  obtain ⟨hmrest, hcore, hlaunch, hother, hsame, hpools⟩ := enterGrid_spec hpq hm
  have hteam : m.team? c slot = some t := by
    rw [hmrest, hrest]
    exact w.2.1
  have hx := exec_launchGrid hsig w h0 hacq howes hreach (hq.symm ▸ hl) hteam
  refine ⟨_, hx, ?_⟩
  generalize hs' : settleTeam _ _ s c slot t _ = s'
  obtain ⟨hf, hgoes, hend, hvtb⟩ := killed_done hs hteam (vmap_ws ..) hs'
  have hctxs (k : Nat) : s'.ctx k = m.ctx k := by rw [hend]; rfl
  have hgang : Claims.gridGang q p l = Claims.gridGang s p l := by rw [hrest]; rfl
  refine ⟨fun a => ?_, ?_, ?_, fun k hk => ?_, fun k hk r j => ?_, fun k => ?_, hgoes, fun k => ?_, fun k hk => ?_, ?_, fun k => ?_⟩
  · rw [hend, hmrest, hrest]
    rfl
  · rw [hend, hmrest, hrest]
  · rw [hend, hmrest, hrest]
  · rw [hf.teams k hk, hmrest, hrest]
  · rw [hf.vregs k hk r j]
    refine vreg_congr ?_ ?_ r j
    · rw [hmrest, hrest]
      rfl
    · rw [hcore, hcores]
  · rw [hvtb, hcore, hcores]
  · rw [hf.rest.2.2.1, hlaunch, hrest]
  · rw [hctxs, hother k hk, hctx]
  · rw [hctxs, hsame, hctx]
  · rw [hctxs, hpools, hctx, hgang, hrest]

end

/-! LAUNCH of records (R344, R356). -/

/-- Two registers of a lane as one word. -/
theorem regs_two {s : State} {c slot : Nat} {t : Team} (ht : s.team? c slot = some t) (h : Hdr) (b : VReg) (l k : Nat) :
    BitVec.ofNat 64 ((t.x s c slot h).src.regs b l 2 k) = s.vreg c slot (vregAt b (k + 1)) l ++ s.vreg c slot (vregAt b k) l := by
  have hv (j : Nat) : (t.x s c slot h).src.v b j l = s.vreg c slot (vregAt b j) l := by
    unfold State.vreg
    rw [ht]
    rfl
  have hregs : (t.x s c slot h).src.regs b l 2 k = (s.vreg c slot (vregAt b k) l).toNat + 2 ^ 32 * (s.vreg c slot (vregAt b (k + 1)) l).toNat := by
    rw [← hv, ← hv]
    rfl
  rw [hregs]
  refine BitVec.eq_of_toNat_eq ?_
  rw [BitVec.toNat_append, BitVec.toNat_ofNat, ← Nat.shiftLeft_add_eq_or_of_lt (s.vreg c slot (vregAt b k) l).isLt, Nat.shiftLeft_eq]
  omega

/-- A record form whose records leave their pool short of a team. -/
theorem launchRecord_done {h : Hdr} {a : SReg} {b : VReg} {p : Pool} {s : State} {c slot : Nat} {t : Team} (hs : slot < 16)
    (w : TeamIssues (.launchRecord h a b) h s c slot t) (h0 : t.adm h ≠ 0) (hn : (t.rs a).toNat ≤ 255)
    (hp : (s.ctx t.ctx).pools.find (t.rs a).toNat = some p) (hacq : s.acquiring t.uid = false) (howes : s.owes t.uid s.seq = false)
    (hlisten : p.listen = false) (hfew : p.recs.length + (lanes (t.adm h)).length < p.hdr.width)
    (hroom : p.recs.length + (lanes (t.adm h)).length ≤ 65536) :
    ∃ s', exec (.launchRecord h a b) s = .next s' ∧ Claims.PortFrame s s' c slot ∧ (∀ q, s'.memGet q = s.memGet q) ∧
      s'.accs = s.accs ∧ Claims.Goes s c slot t t s' ∧ (∀ k, k ≠ t.ctx → s'.ctx k = s.ctx k) ∧
      s'.ctx t.ctx = { s.ctx t.ctx with pools := (s'.ctx t.ctx).pools } ∧
      ∀ k, (s'.ctx t.ctx).pools.find k = if k = (t.rs a).toNat then some { p with recs := p.recs ++ (lanes (t.adm h)).map fun l =>
          ⟨s.vreg c slot (vregAt b 1) l ++ s.vreg c slot b l, s.vreg c slot (vregAt b 3) l ++ s.vreg c slot (vregAt b 2) l,
            min 31 (t.depth + 1), false, none, stackOf c, s.tick.toNat⟩ }
        else (s.ctx t.ctx).pools.find k := by
  generalize hrecs : (lanes (t.adm h)).map (fun l => (⟨s.vreg c slot (vregAt b 1) l ++ s.vreg c slot b l,
    s.vreg c slot (vregAt b 3) l ++ s.vreg c slot (vregAt b 2) l, min 31 (t.depth + 1), false, none, stackOf c, s.tick.toNat⟩ : PRec)) = rs
  have hlen : rs.length = (lanes (t.adm h)).length := by rw [← hrecs, List.length_map]
  have hmade : (lanes (t.adm h)).map (fun l => (⟨BitVec.ofNat 64 ((t.x s c slot h).src.regs b l 2 0),
      BitVec.ofNat 64 ((t.x s c slot h).src.regs b l 2 2), deeper t.depth, false, none, stackOf c, s.tick.toNat⟩ : PRec)) = rs := by
    rw [← hrecs]
    refine List.map_congr_left fun l _ => ?_
    rw [regs_two w.2.1, regs_two w.2.1, vregAt_zero]
    rfl
  generalize hm : s.setPool t.ctx (t.rs a).toNat { p with recs := p.recs ++ rs } = m
  have hpool : (m.ctx t.ctx).pools.find (t.rs a).toNat = some { p with recs := p.recs ++ rs } := by
    rw [← hm, pools_setPool, if_pos rfl]
  have hcollected : m.collected t.ctx (t.rs a).toNat = m :=
    collected_of_few hpool hlisten (by rw [List.length_append, hlen]; exact hfew)
  have hteam : m.team? c slot = some t := by rw [← hm]; exact w.2.1
  have he : exec (.launchRecord h a b) s = .next (settleTeam (.launchRecord h a b) h s c slot t (.done (m.killLoads c slot))) := by
    refine runTeam_eff w ?_ nofun
    refine (if_neg h0).trans ?_
    rw [show (if 255 < ((t.x s c slot h).src.team.rs a).toNat then none
        else (s.ctx (t.x s c slot h).team.ctx).pools.find ((t.x s c slot h).src.team.rs a).toNat) = some p from
      (if_neg (Nat.not_lt.2 hn)).trans hp]
    have hnow : ¬ (s.acquiring (t.x s c slot h).team.uid || s.owes (t.x s c slot h).team.uid s.seq ||
        poolRoom < p.recs.length + (lanes (t.x s c slot h).adm).length) = true := by
      rw [show s.acquiring (t.x s c slot h).team.uid = false from hacq, show s.owes (t.x s c slot h).team.uid s.seq = false from howes]
      rw [Bool.or_self, Bool.false_or, decide_eq_true_eq]
      exact Nat.not_lt.2 hroom
    refine (if_neg hnow).trans ?_
    rw [← hcollected, ← hm, ← hmade]
    rfl
  refine ⟨_, he, ?_⟩
  generalize hs' : settleTeam _ _ s c slot t _ = s'
  obtain ⟨hf, hgoes, hend, -⟩ := killLoads_done hs hteam hs'
  have hctx (k : Nat) : s'.ctx k = m.ctx k := by rw [hend]; rfl
  have hrest : m = { s with ctxs := m.ctxs } := by rw [← hm]; rfl
  refine ⟨PortFrame.trans ?_ hf ?_, fun q => ?_, ?_, hgoes, fun k hk => ?_, ?_, fun k => ?_⟩
  · rw [hrest]
    exact ⟨fun _ _ => rfl, fun _ _ _ _ => rfl, fun _ _ => rfl, rfl, ⟨rfl, rfl, rfl, [], (List.append_nil _).symm⟩, fun _ => rfl⟩
  · rw [hrest]
    exact ⟨rfl, fun _ => rfl⟩
  · rw [hend, hrest]
    rfl
  · rw [hend, hrest]
  · rw [hctx, ← hm, ctx_setPool_of_ne _ _ _ hk]
  · rw [hctx, ← hm]
    exact ctx_setPool_same ..
  · rw [hctx, ← hm, pools_setPool]

/-! SRD, SWR (R357). -/

theorem srd_noNeed {r : Sr} (hr : r ≠ .mflags) : (fun (_ : State) (_ : Nat) (_ : Team) => ({ ill := r == .mflags } : Need)) = noNeed := by
  have hf : (r == .mflags) = false := beq_eq_false_iff_ne.2 hr
  rw [hf]
  rfl

theorem special_eq (s : State) (c slot : Nat) (t : Team) (h : Hdr) (r : Sr) (l : Nat) :
    (t.x s c slot h).special s r l = Claims.srValue s c t r l := by
  cases r
  case check =>
    change BitVec.ofNat 64 (bit t.check) = if t.check then 1 else 0
    cases t.check <;> rfl
  all_goals rfl

theorem srd_scalar {h : Hdr} {d : SReg} {high : Bool} {r : Sr} {l : Nat} {s : State} {c slot : Nat} {t : Team} (hs : slot < 16) (hr : r ≠ .mflags)
    (w : TeamIssues (.srd h (.s d) high r) h s c slot t) (hl : lowest (t.adm h) = some l) :
    ∃ s' t', exec (.srd h (.s d) high r) s = .next s' ∧ s'.team? c slot = some t' ∧ TeamFrame s s' c slot ∧
      t' = { t with pc := (s.nextOf c t).1, atHdr := (s.nextOf c t).2, wait := none, sreg := t'.sreg, shadows := t'.shadows } ∧
      (∀ q, t'.rs q = if q = d ∧ d.val ≠ 0 then Claims.srValue s c t r l else t.rs q) ∧
      t'.flagsDue = t.flagsDue ∧ ∀ q k, s'.vreg c slot q k = s.vreg c slot q k := by
  have h0 : t.adm h ≠ 0 := fun hz => by
    rw [hz, lowest, lanes, passes_zero] at hl
    cases hl
  have he : exec (.srd h (.s d) high r) s = .next (settleTeam (.srd h (.s d) high r) h s c slot t
      (if t.adm h = 0 then .done s else scalResult (.srd h (.s d) high r) (t.x s c slot h) s d (Claims.srValue s c t r l) 0)) := by
    change execSrd h (.s d) high r s = _
    unfold execSrd
    rw [srd_noNeed hr, if_neg h0]
    refine runBoth_eff w ?_ ?_
    swap
    · obtain ⟨t1, e1, -⟩ := scalResult_spec (.srd h (.s d) high r) (t.x s c slot h) s d (Claims.srValue s c t r l) 0 w.2.1
      rw [e1]
      nofun
    change (match lowest (t.adm h) with | none => _ | some l => _) = _
    rw [hl, ← special_eq]
  obtain ⟨s', t', hx, hteam, hframe, ht', hrs, hfl, hv⟩ := scalar_done hs w.2.1 he
  refine ⟨s', t', hx, hteam, hframe, ht', fun q => ?_, ?_, hv⟩
  · rw [hrs]
    simp only [h0, ne_eq, not_false_eq_true, and_true]
  · rw [hfl, if_neg h0]
    exact BitVec.or_zero

theorem srd_vector {h : Hdr} {d : VReg} {high : Bool} {r : Sr} {s : State} {c slot : Nat} {t : Team} (hs : slot < 16) (ok : s.stashOk = true)
    (hr : r ≠ .mflags) (w : TeamIssues (.srd h (.v d) high r) h s c slot t) {f : Nat → Nat}
    (hf : f = fun l => (Claims.srValue s c t r l).toNat / (if high then 2 ^ 32 else 1) % 2 ^ 32)
    (hn : lackedOf s (.srd h (.v d) high r) h c slot t d 1 f (fun _ => 0) = none) :
    ∃ s' t', exec (.srd h (.v d) high r) s = .next s' ∧ s'.team? c slot = some t' ∧ TeamFrame s s' c slot ∧
      t' = { t with pc := (s.nextOf c t).1, atHdr := (s.nextOf c t).2, wait := none, vmap := t'.vmap, shadows := t'.shadows } ∧
      t'.flagsDue = t.flagsDue ∧
      (∀ l, l < 1024 → inMask (t.adm h) l = true →
        s'.vreg c slot d l = laneResult s (.srd h (.v d) high r) (t.x s c slot h) d 1 f (fun _ => 0) 0 l) ∧
      ∀ q l, l < 1024 → (inMask (t.adm h) l = false ∨ q ≠ d) → s'.vreg c slot q l = s.vreg c slot q l := by
  have he : exec (.srd h (.v d) high r) s = .next (settleTeam (.srd h (.v d) high r) h s c slot t
      (issueTeam (.srd h (.v d) high r) h {} s c slot t fun x s => vecOut (.srd h (.v d) high r) x s d 1 fun l =>
        (x.special s r l).toNat / (if high then 2 ^ 32 else 1) % 2 ^ 32)) := by
    change execSrd h (.v d) high r s = _
    unfold execSrd
    rw [srd_noNeed hr]
    exact runBoth_issue w
  have hruns : RunsVector (.srd h (.v d) high r) h d 1 f (fun _ => 0) s c slot t := by
    subst hf
    refine ⟨_, _, he, rfl, ?_⟩
    have hv : (fun l => ((t.x s c slot h).special s r l).toNat / (if high then 2 ^ 32 else 1) % 2 ^ 32) =
        fun l => (Claims.srValue s c t r l).toNat / (if high then 2 ^ 32 else 1) % 2 ^ 32 := by
      funext l
      rw [special_eq]
    rw [hv]
    exact .parts
  obtain ⟨s', t', hx, hteam, hframe, ht', hin, hout, hfl⟩ := hruns.done ⟨by decide, by decide, .inl rfl⟩ w hs ok hn
  refine ⟨s', t', hx, hteam, hframe, ht', ?_, fun l hl hm => ?_, fun q l hl hq => hout q l hl (hq.imp_right fun hne k hk => ?_)⟩
  · rw [hfl, missFlags_zero]
  · have := hin 0 l (by decide) hl hm
    rwa [vregAt_zero] at this
  · obtain rfl : k = 0 := by omega
    rwa [vregAt_zero]

theorem srd_ridge {h : Hdr} {d : SReg} {high : Bool} {r : Sr} {s : State} {c : Nat} {m : Ridge} (hr : srOnRidge r = true)
    (w : RidgeIssues (.srd h (.s d) high r) h s c m) (hadm : m.adm h = true) :
    ∃ s' m', exec (.srd h (.s d) high r) s = .next s' ∧ s'.ridge? c = some m' ∧ RidgeFrame s s' c ∧
      m' = { m with pc := (s.nextOfM c m).1, atHdr := (s.nextOfM c m).2, wait := none, sreg := m'.sreg, shadows := m'.shadows } ∧
      ∀ q, m'.rs q = if q = d ∧ d.val ≠ 0 then (m.x c h).special s r else m.rs q := by
  have he : exec (.srd h (.s d) high r) s = .next (settleRidge (.srd h (.s d) high r) h s c m
      (if !(m.adm h) then .done s else scalResultM (.srd h (.s d) high r) (m.x c h) s d ((m.x c h).special s r))) := by
    change execSrd h (.s d) high r s = _
    exact runBoth_ridge w (by simp [hr])
  obtain ⟨s', m', hx, hridge, hframe, hm', hrs⟩ := scalar_doneM w.2.1 he
  refine ⟨s', m', hx, hridge, hframe, hm', fun q => ?_⟩
  rw [hrs]
  simp only [hadm, and_true]

theorem bit_mul (b : Bool) (n : Nat) : bit b * n = if b then n else 0 := by
  cases b <;> simp [bit]

theorem swr_done {h : Hdr} {a : SReg} {s : State} {c slot : Nat} {t : Team} (hs : slot < 16) (w : TeamIssues (.swr h a) h s c slot t)
    (h0 : t.adm h ≠ 0) :
    ∃ s', exec (.swr h a) s = .next s' ∧ TeamFrame s s' c slot ∧ (∀ q l, s'.vreg c slot q l = s.vreg c slot q l) ∧
      Claims.Goes s c slot t { t with fstat := (t.rs a).truncate 5 } s' := by
  have he : exec (.swr h a) s = .next (settleTeam (.swr h a) h s c slot t
      (.done (s.setTeam c slot { t with fstat := (t.rs a).truncate 5 }))) := by
    refine runTeam_eff w ?_ nofun
    refine (if_neg h0).trans ?_
    rw [← modTeam_eq_setTeam (fun t' => { t' with fstat := (t.rs a).truncate 5 }) w.2.1]
    rfl
  have hteam := State.team_setTeam_same s c slot { t with fstat := (t.rs a).truncate 5 }
  obtain ⟨t', ht', hteq, hfl, hframe, hv⟩ := (settleTeam_done (i := .swr h a) (h := h) (s := s) (t := t) hteam).spec hteam hs
  obtain ⟨-, hgoes, -⟩ := goes_done (i := .swr h a) (h := h) (s := s) (t := t) hs hteam rfl
  refine ⟨_, he, (TeamFrame.setTeam s c slot _ hs).trans hframe, fun r l => (hv r l).trans ?_, hgoes⟩
  exact (PortFrame.setTeam (t1 := { t with fstat := (t.rs a).truncate 5 }) hs w.2.1 rfl).vregs slot hs r l

/-! WKADD and WKDONE (R353, R358). -/

/-- A change of the work of a domain. -/
theorem ember_done {i : Instr} {h : Hdr} {s : State} {c slot : Nat} {t : Team} (hs : slot < 16) (ht : s.team? c slot = some t)
    (hst : stackOf c < 8) (dom : Fin 16) (v : Int) {s' : State}
    (hs' : settleTeam i h s c slot t (.done (s.emberAdd t.ctx dom.val (stackOf c) v)) = s') :
    Claims.PortFrame s s' c slot ∧ (∀ q, s'.memGet q = s.memGet q) ∧ Claims.Goes s c slot t t s' ∧ (∀ k, k ≠ t.ctx → s'.ctx k = s.ctx k) ∧
      (v = 0 → s'.ctx t.ctx = s.ctx t.ctx) ∧
      ∀ j k, k < 8 → Claims.workOf s' t.ctx j k = if v ≠ 0 ∧ j = dom.val ∧ k = stackOf c then
        (BitVec.ofInt 64 (Claims.workOf s t.ctx dom.val (stackOf c) + v)).toInt else Claims.workOf s t.ctx j k := by
  have hrest := emberAdd_ctxs s t.ctx dom.val (stackOf c) v
  have hother (k : Nat) (hk : k ≠ t.ctx) := ctx_emberAdd_of_ne s t.ctx dom.val (stackOf c) v hk
  have hwork (j k : Nat) (hk : k < 8) := workOf_emberAdd s t.ctx dom.val (stackOf c) v (j := j) hst hk
  have hzero (hz : v = 0) : s.emberAdd t.ctx dom.val (stackOf c) v = s := if_pos hz
  generalize s.emberAdd t.ctx dom.val (stackOf c) v = m at *
  have hteam : m.team? c slot = some t := by rw [hrest]; exact ht
  obtain ⟨hf, hgoes, hend⟩ := goes_done hs hteam hs'
  have hctx (k : Nat) : s'.ctx k = m.ctx k := by rw [hend]; rfl
  refine ⟨PortFrame.trans ?_ hf ?_, fun q => ?_, hgoes, fun k hk => (hctx k).trans (hother k hk), fun hz => ?_, fun j k hk => ?_⟩
  · rw [hrest]
    exact ⟨fun _ _ => rfl, fun _ _ _ _ => rfl, fun _ _ => rfl, rfl, ⟨rfl, rfl, rfl, [], (List.append_nil _).symm⟩, fun _ => rfl⟩
  · rw [hrest]
    exact ⟨rfl, fun _ => rfl⟩
  · rw [hend, hrest]
    rfl
  · rw [hctx, hzero hz]
  · rw [← hwork j k hk]
    unfold Claims.workOf
    rw [hctx]

theorem launchGrid_status {s : State} {w : Who} {part addr n : Nat} {signal : Option Nat}
    (hn : s.headerPool w addr = none ∧ n = 1 ∨ ∃ pool, s.headerPool w addr = some pool ∧ ((s.ctx w.ctx).pools.find pool = none ∧ n = 3 ∨
      ((s.ctx w.ctx).pools.find pool).isSome = true ∧ (s.checkHeader w addr true = .bad ∧ n = 1 ∨
        ∃ l, s.checkHeader w addr true = .noFit l ∧ n = 2))) : s.launchGrid w part addr signal = (s, n) := by
  unfold State.launchGrid
  obtain ⟨hp, rfl⟩ | ⟨pool, hp, ⟨hf, rfl⟩ | ⟨hf, ⟨hc, rfl⟩ | ⟨l, hc, rfl⟩⟩⟩ := hn
  · simp only [hp]
  · simp only [hp, hf, Option.isNone_none, if_true]
  · simp only [hp, Option.isNone_eq_false_iff.2 hf, Bool.false_eq_true, if_false, hc]
  · simp only [hp, Option.isNone_eq_false_iff.2 hf, Bool.false_eq_true, if_false, hc]

theorem launchGrid_ok {s : State} {w : Who} {part addr : Nat} {signal : Option Nat} {l : Launch} {p : Pool}
    (hl : s.headerPool w addr = some l.pool) (hp : (s.ctx w.ctx).pools.find l.pool = some p) (hc : s.checkHeader w addr true = .ok l) :
    s.launchGrid w part addr signal = (s.enterGrid w.ctx part l signal, 0) := by
  unfold State.launchGrid
  simp only [hl, hp, hc, Option.isNone_some, Bool.false_eq_true, if_false]

/-- SRD of the flags of a matrix stream's block. -/
theorem special_ridge (m : Ridge) (c : Nat) (h : Hdr) (s : State) (r : Sr) : srOnRidge r = true →
    (m.x c h).special s r = match r with
      | .tick => s.tick
      | .check => if m.check then 1 else 0
      | .core => BitVec.ofNat 64 c
      | .ctx => BitVec.ofNat 64 m.ctx
      | .mflags => (match s.block? m.blk with
        | some (b : Block) => BitVec.ofNat 64 ((List.range 8).foldl (fun a i => a + (if (b.acc i).use then 2 ^ i else 0) +
            (if (b.acc i).dirty then 2 ^ (8 + i) else 0) + (if (b.tile i).use then 2 ^ (16 + i) else 0) +
            (if (b.tile i).dirty then 2 ^ (24 + i) else 0)) 0)
        | none => 0)
      | _ => BitVec.ofNat 64 m.depth := by
  intro hr
  cases r
  case check =>
    change BitVec.ofNat 64 (bit m.check) = if m.check then 1 else 0
    cases m.check <;> rfl
  case mflags =>
    change BitVec.ofNat 64 (match s.block? m.blk with | some b => b.mflags | none => 0) = _
    cases s.block? m.blk with
    | none => rfl
    | some b => simp only [Block.mflags, bit_mul]
  case depth => rfl
  case tick => rfl
  case core => rfl
  case ctx => rfl
  all_goals cases hr

theorem popcount_ne_zero {m : Mask} (h : m ≠ 0) : popcount m ≠ 0 := by
  have hand : m &&& m = m := BitVec.and_self
  have hcount := popcount_and m m
  have hlow := lowest_and m m
  rw [hand] at hcount hlow
  obtain ⟨l, hl⟩ := lowest_isSome h
  rw [hl] at hlow
  rw [hcount]
  have hpos := List.countP_pos_iff.2 ⟨l, List.mem_of_find?_eq_some hlow.symm, List.find?_some hlow.symm⟩
  omega

/-- Settles O51: what each instruction comes to, within the frame of a team that goes on. -/
theorem launchAndSpecialRegisters : Obligations.LaunchAndSpecialRegisters := by
  unfold Obligations.LaunchAndSpecialRegisters
  refine ⟨⟨?_, ?_⟩, ?_, ?_, ?_, ?_, ?_, ?_⟩
  · intro h d b e s c slot t sig m addr hs w h0 hacq howes hreach
    have hsig : launchSignal t e = sig := by cases e <;> rfl
    refine ⟨fun n hn => launchGrid_none hsig hs w h0 hacq howes hreach (launchGrid_status ?_), fun l p hl hp hc => ?_⟩
    · rw [show ((signalTouched s c t.ctx sig).ctx (t.who c).ctx) = s.ctx t.ctx from
        (walkAside_of_walked (walked_signal s c t.ctx sig)).ctx t.ctx]
      exact hn
    · refine launchGrid_enters hsig hs w h0 hacq howes hreach hp (launchGrid_ok (p := p) hl ?_ hc)
      rw [show ((signalTouched s c t.ctx sig).ctx (t.who c).ctx) = s.ctx t.ctx from
        (walkAside_of_walked (walked_signal s c t.ctx sig)).ctx t.ctx]
      exact hp
  · intro h a b p s c slot t n ls hs w h0 hn hp hacq howes hlisten hfew hroom
    exact launchRecord_done hs w h0 hn hp hacq howes hlisten hfew hroom
  · intro h d high r l s c slot t hs hr w hl
    exact srd_scalar hs hr w hl
  · intro h d high r s c slot t hs ok hr w f hn
    exact srd_vector hs ok hr w rfl hn
  · intro h d high r s c m hr w hadm
    obtain ⟨s', m', hx, hridge, hframe, hm', hrs⟩ := srd_ridge hr w hadm
    refine ⟨s', m', hx, hridge, hframe, hm', fun q => (hrs q).trans ?_⟩
    rw [special_ridge m c h s r hr] <;> rfl
  · intro h a s c slot t hs w h0
    exact swr_done hs w h0
  · intro h a dom s c slot t hs hst w h0
    have he : exec (.wkadd h a dom) s = .next (settleTeam (.wkadd h a dom) h s c slot t
        (.done (s.emberAdd t.ctx dom.val (stackOf c) (t.rs a).toInt))) := runTeam_eff w (if_neg h0) nofun
    obtain ⟨hf, hmem, hgoes, hother, hzero, hwork⟩ := ember_done (i := .wkadd h a dom) (h := h) hs w.2.1 hst dom (t.rs a).toInt rfl
    refine ⟨_, he, hf, hmem, hgoes, hother, fun hz => hzero (by rw [hz]; rfl), fun hz => ?_, fun j k hk hne => ?_⟩
    · rw [hwork _ _ hst, if_pos ⟨fun hv => hz (BitVec.eq_of_toInt_eq hv), rfl, rfl⟩]
    · rw [hwork _ _ hk, if_neg fun hx => hne.elim (· hx.2.1) (· hx.2.2)]
  · intro h dom s c slot t hs hst w h0 hfork
    have he : exec (.wkdone h dom) s = .next (settleTeam (.wkdone h dom) h s c slot t
        (.done (s.emberAdd t.ctx dom.val (stackOf c) (-(popcount (t.adm h) : Int))))) := by
      refine runTeam_eff w ?_ nofun
      refine (if_neg h0).trans (if_neg ?_)
      rw [show s.forked (t.x s c slot h).team.uid s.seq = true from hfork]
      exact Bool.false_ne_true
    obtain ⟨hf, hmem, hgoes, hother, -, hwork⟩ := ember_done (i := .wkdone h dom) (h := h) hs w.2.1 hst dom (-(popcount (t.adm h) : Int)) rfl
    refine ⟨_, he, hf, hmem, hgoes, hother, ?_, fun j k hk hne => ?_⟩
    · rw [hwork _ _ hst, if_pos ⟨fun hv => popcount_ne_zero h0 (by omega), rfl, rfl⟩, Int.sub_eq_add_neg]
    · rw [hwork _ _ hk, if_neg fun hx => hne.elim (· hx.2.1) (· hx.2.2)]

end Sys2Proof.Proofs

end

section
/-! R345 to R348: how pools form, offer and age their gangs, and how an old gang reserves a core. -/

open Sys2Proof Sys2Proof.Machine

namespace Sys2Proof.Proofs

/-! Code that is dropped (R342). -/

theorem kept_of_icinv {s : State} {part : Nat} {l : Launch} {ctx st : Nat} (hl : l.icinv = true) (x : IcLine) :
    Claims.keptLine s part l ctx st x = if s.partOf st == part then x.ctx != ctx else true := by
  unfold Claims.keptLine
  rw [hl]
  cases s.partOf st == part <;> simp [bne]

/-- Lines of one cache that are kept where a partition drops a context's. -/
theorem filter_kept {s : State} {part : Nat} {l : Launch} {ctx st : Nat} (hl : l.icinv = true) (ls : List IcLine) :
    ls.filter (Claims.keptLine s part l ctx st) = if s.partOf st == part then ls.filter (fun x => x.ctx != ctx) else ls := by
  split
  · next h => exact List.filter_congr fun x _ => by rw [kept_of_icinv hl, if_pos h]
  · next h => exact List.filter_eq_self.2 fun x _ => by rw [kept_of_icinv hl, if_neg h]

theorem codeAside_dropped (s : State) (l : Launch) (part ctx : Nat) : Claims.CodeDropped s (codeAside s l part ctx) part l ctx := by
  unfold codeAside
  split
  · next hl =>
    have hl : l.icinv = true := hl
    refine ⟨fun k => ?_, fun k => ?_⟩
    · let f : Nat × Core → Nat × Core := fun c =>
        if s.partOf (stackOf c.1) == part then (c.1, { c.2 with icache := c.2.icache.filter fun l => l.ctx != ctx }) else c
      have hf : ∀ c, (f c).1 = c.1 := fun c => by
        change (if _ then _ else _ : Nat × Core).1 = c.1
        split <;> rfl
      have hget : s.core k = (s.cores.find k).getD Core.zero := Tbl.get_eq_find ..
      have hmap : (s.dropCode part ctx).core k = Tbl.get Core.zero (s.cores.map f) k := rfl
      rcases Tbl.get_map Core.zero f hf s.cores k with ⟨hd, hn⟩ | ⟨v, hv, hd⟩
      · rw [hmap, hd, hget, hn]
        rfl
      · rw [hmap, hd, hget, hv, filter_kept hl]
        change (if _ then _ else _ : Nat × Core).2 = _
        split <;> rfl
    · let f : Nat × Stack → Nat × Stack := fun c =>
        if s.partOf c.1 == part then (c.1, { c.2 with icache := c.2.icache.filter fun l => l.ctx != ctx }) else c
      have hf : ∀ c, (f c).1 = c.1 := fun c => by
        change (if _ then _ else _ : Nat × Stack).1 = c.1
        split <;> rfl
      have hget : s.stk k = (s.stks.find k).getD Stack.zero := Tbl.get_eq_find ..
      have hmap : (s.dropCode part ctx).stk k = Tbl.get Stack.zero (s.stks.map f) k := rfl
      rcases Tbl.get_map Stack.zero f hf s.stks k with ⟨hd, hn⟩ | ⟨v, hv, hd⟩
      · rw [hmap, hd, hget, hn]
        rfl
      · rw [hmap, hd, hget, hv, filter_kept hl]
        change (if _ then _ else _ : Nat × Stack).2 = _
        split <;> rfl
  · next hl =>
    have hkept : ∀ st x, Claims.keptLine s part l ctx st x = true := fun st x => by
      unfold Claims.keptLine
      rw [Bool.not_eq_true] at hl
      rw [hl]
      rfl
    refine ⟨fun k => ?_, fun k => ?_⟩
    · rw [List.filter_eq_self.2 fun x _ => hkept _ x]
    · rw [List.filter_eq_self.2 fun x _ => hkept _ x]

/-! POOL_TIMER_LAPSE (R345). -/

/-- The gang that the records of a pool form. -/
def recordGang (s : State) (p : Pool) : Gang :=
  ⟨p.counts, s.seq, p.hdr, p.recs.map fun r => { r with deep := r.deep || decide (p.dlim < r.depth) }, true, 0, 1, none, s.tick.toNat, false⟩

/-- The pool once all its records have formed a gang. -/
def recordsFormed (s : State) (p : Pool) : Pool :=
  { p with recs := [], since := if p.gangs.isEmpty then s.tick.toNat else p.since, gangs := p.gangs ++ [recordGang s p] }

theorem formOne_all (s : State) (ctx n : Nat) (p : Pool) : s.formOne ctx n p p.recs.length =
    ((codeAside s p.hdr (s.ctx ctx).part ctx).setPool ctx n (recordsFormed s p)).tickSeq := by
  have hrest := (codeAside_spec s p.hdr (s.ctx ctx).part ctx).2
  unfold State.formOne
  rw [show (if p.hdr.icinv = true then s.dropCode (s.ctx ctx).part ctx else s) = codeAside s p.hdr (s.ctx ctx).part ctx from rfl,
    List.take_length, List.drop_length]
  unfold recordsFormed recordGang
  rw [hrest]

theorem exec_poolTimerLapse {ctx n : Nat} {p : Pool} {r : PRec} {rest : List PRec} {s : State} (hp : (s.ctx ctx).pools.find n = some p)
    (hrecs : p.recs = r :: rest) (hdue : r.tick + p.timer ≤ s.tick.toNat) (hl : p.listen = false) (hw : p.recs.length ≤ p.hdr.width) :
    exec (.poolTimerLapse ctx n) s = .next ((codeAside s p.hdr (s.ctx ctx).part ctx).setPool ctx n (recordsFormed s p)).tickSeq := by
  have hlen : 0 < p.recs.length := by rw [hrecs]; exact Nat.succ_pos _
  have hfew : (((codeAside s p.hdr (s.ctx ctx).part ctx).setPool ctx n (recordsFormed s p)).tickSeq).collected ctx n =
      ((codeAside s p.hdr (s.ctx ctx).part ctx).setPool ctx n (recordsFormed s p)).tickSeq :=
    collected_of_few (p := recordsFormed s p) ((pools_setPool ..).trans (if_pos rfl)) hl (Nat.lt_of_lt_of_le hlen hw)
  have hform := formOne_all s ctx n p
  change execPoolTimerLapse ctx n s = _
  unfold execPoolTimerLapse
  rw [hp]
  dsimp only
  split
  · next h => rw [h] at hrecs; cases hrecs
  · next r' _ h =>
    rw [h] at hrecs
    cases hrecs
    rw [if_neg (Nat.not_lt.2 hdue), Nat.min_eq_left hw, hform, hfew]

theorem poolTimerLapse_spec {ctx n : Nat} {p : Pool} {s m : State}
    (hm : ((codeAside s p.hdr (s.ctx ctx).part ctx).setPool ctx n (recordsFormed s p)).tickSeq = m) :
    m = { s with ctxs := m.ctxs, seq := s.seq + 1, cores := m.cores, stks := m.stks } ∧
      Claims.CodeDropped s m (s.ctx ctx).part p.hdr ctx ∧ (∀ c, c ≠ ctx → m.ctx c = s.ctx c) ∧
      m.ctx ctx = { s.ctx ctx with pools := (m.ctx ctx).pools } ∧
      ∀ k, (m.ctx ctx).pools.find k = if k = n then some (recordsFormed s p) else (s.ctx ctx).pools.find k := by
  obtain ⟨-, hrest⟩ := codeAside_spec s p.hdr (s.ctx ctx).part ctx
  obtain ⟨hcore, hstk⟩ := codeAside_dropped s p.hdr (s.ctx ctx).part ctx
  have hctx (k : Nat) : (codeAside s p.hdr (s.ctx ctx).part ctx).ctx k = s.ctx k := by rw [hrest]; rfl
  generalize codeAside s p.hdr (s.ctx ctx).part ctx = q at *
  subst hm
  refine ⟨?_, ⟨hcore, hstk⟩, fun c hc => ?_, ?_, fun k => ?_⟩
  · rw [hrest]
    rfl
  · exact (ctx_setPool_of_ne _ _ _ hc).trans (hctx c)
  · refine (ctx_setPool_same q ctx n (recordsFormed s p)).trans ?_
    rw [hctx]
    rfl
  · refine (pools_setPool ..).trans ?_
    rw [hctx]

/-! REMOTE_STACK_OFFER (R346). -/

/-- A gang as an offer leaves it. -/
def offered (s : State) (id : Nat) (g : Gang) : Gang :=
  if g.id = id ∧ g.isRec = true ∧ g.tick + 1000 ≤ s.tick.toNat then { g with offer := true } else g

/-- A pool as an offer leaves it. -/
def poolOffered (s : State) (id : Nat) (p : Pool) : Pool := { p with gangs := p.gangs.map (offered s id) }

/-- A context as an offer leaves it. -/
def ctxOffered (s : State) (id : Nat) (c : Ctx) : Ctx := { c with pools := c.pools.map fun p => (p.1, poolOffered s id p.2) }

theorem exec_remoteStackOffer (id : Nat) (s : State) :
    exec (.remoteStackOffer id) s = .next { s with ctxs := s.ctxs.map fun c => (c.1, ctxOffered s id c.2) } := by
  have hoffer : (fun g : Gang => if g.id == id && g.isRec && decide (g.tick + 1000 ≤ s.tick.toNat) then { g with offer := true } else g) =
      offered s id := by
    funext g
    unfold offered
    simp only [Bool.and_eq_true, beq_iff_eq, decide_eq_true_eq, and_assoc]
  change execRemoteStackOffer id s = _
  unfold execRemoteStackOffer
  simp only [hoffer]
  rfl

theorem pool_offered {s : State} {id ctx n : Nat} {p : Pool} (hp : (s.ctx ctx).pools.find n = some p) :
    (State.ctx { s with ctxs := s.ctxs.map fun c => (c.1, ctxOffered s id c.2) } ctx).pools.find n = some (poolOffered s id p) := by
  have hget : s.ctx ctx = (s.ctxs.find ctx).getD Ctx.zero := Tbl.get_eq_find ..
  have hfind (c : Ctx) : (ctxOffered s id c).pools.find n = (c.pools.find n).map (poolOffered s id) :=
    Tbl.find_map (fun p : Nat × Pool => (p.1, poolOffered s id p.2)) (fun _ => rfl) c.pools n
  have hx : State.ctx { s with ctxs := s.ctxs.map fun c => (c.1, ctxOffered s id c.2) } ctx =
      Tbl.get Ctx.zero (s.ctxs.map fun c => (c.1, ctxOffered s id c.2)) ctx := rfl
  rcases Tbl.get_map Ctx.zero (fun c : Nat × Ctx => (c.1, ctxOffered s id c.2)) (fun _ => rfl) s.ctxs ctx with ⟨hd, hn⟩ | ⟨v, hv, hd⟩
  · rw [hget, hn] at hp
    cases hp
  · rw [hget, hv] at hp
    rw [hx, hd, hfind, show v.pools.find n = some p from hp]
    rfl

/-! GANG_RESERVE (R348). -/

/-- The first of an ordered list that answers, where every other answers nothing or comes later. -/
theorem findSome_of_sorted {α β : Type} {le : α → α → Bool} {f : α → Option β} {a : α} {b : β} (hb : f a = some b) :
    ∀ {l : List α}, l.Pairwise (fun x y => le x y = true) → a ∈ l → (∀ x ∈ l, x = a ∨ f x = none ∨ le x a = false) → l.findSome? f = some b
  | x :: l, hl, ha, hx => by
    rw [List.pairwise_cons] at hl
    rw [List.findSome?_cons]
    rcases hx x (List.mem_cons_self ..) with rfl | hf | hle
    · rw [hb]
    · rw [hf]
      rcases List.mem_cons.1 ha with rfl | ha
      · rw [hb] at hf
        cases hf
      · exact findSome_of_sorted hb hl.2 ha fun y hy => hx y (List.mem_cons_of_mem _ hy)
    · rcases List.mem_cons.1 ha with rfl | ha
      · rw [hb]
      · rw [hl.1 a ha] at hle
        cases hle

/-- The order in which old gangs are served: by age, then by number. -/
def olderGang (a b : Nat × Gang) : Bool := decide (a.2.tick < b.2.tick) || (a.2.tick == b.2.tick && decide (a.2.id ≤ b.2.id))

theorem olderGang_iff (a b : Nat × Gang) : olderGang a b = true ↔ a.2.tick < b.2.tick ∨ a.2.tick = b.2.tick ∧ a.2.id ≤ b.2.id := by
  simp [olderGang]

theorem sorted_oldGangs (l : List (Nat × Gang)) : (sortBy olderGang l).Pairwise fun a b => olderGang a b = true := by
  refine sortBy_sorted (fun a b => ?_) (fun a b c hab hbc => ?_) l
  · rw [olderGang_iff, olderGang_iff]
    omega
  · rw [olderGang_iff] at *
    omega

/-- The gang that reserves. -/
theorem reserveFor_oldest {s : State} {st ctx c : Nat} {g : Gang} {l : List (Nat × Gang)} (hg : (ctx, g) ∈ l) (hc : s.reserveCore st g = some c)
    (hall : ∀ x ∈ l, x = (ctx, g) ∨ s.reserveCore st x.2 = none ∨ g.tick < x.2.tick ∨ (g.tick = x.2.tick ∧ g.id < x.2.id)) :
    s.reserveFor st (sortBy olderGang l) = some (g, c) := by
  refine findSome_of_sorted (le := olderGang) (a := (ctx, g)) (by rw [hc]; rfl) (sorted_oldGangs l) (mem_sortBy.2 hg) fun x hx => ?_
  rcases hall x (mem_sortBy.1 hx) with h | h | h
  · exact .inl h
  · exact .inr (.inl (by rw [h]; rfl))
  · refine .inr (.inr ?_)
    rw [← Bool.not_eq_true, olderGang_iff]
    dsimp only
    omega

/-- A block as a request leaves it (R373). -/
def asked (s : State) (b : Block) : Block := if b.req.isSome then b else { b with req := some s.tick.toNat }

theorem asked_asked (s m : State) (b : Block) : asked m (asked s b) = asked s b := by
  unfold asked
  split <;> rfl

theorem request_rest (s : State) (k : Nat) : s.request k = { s with blocks := (s.request k).blocks } := by
  unfold State.request State.modBlock
  split <;> rfl

theorem block_request (s : State) (k j : Nat) : (s.request k).block? j = if j = k then (s.block? j).map (asked s) else s.block? j := by
  unfold State.request State.modBlock
  split
  · next x hx =>
    by_cases hj : j = k
    · subst hj
      rw [if_pos rfl, block_setBlock_same, hx]
      rfl
    · rw [if_neg hj]
      exact blocks_setBlock_of_ne _ _ hj
  · next hx =>
    split
    · next hj => rw [hj, hx]; rfl
    · rfl

/-- Requests to several blocks. -/
theorem requests_spec (l : List (Nat × Block)) : ∀ s : State, (l.foldl (fun s b => s.request b.1) s) =
      { s with blocks := (l.foldl (fun s b => s.request b.1) s).blocks } ∧
    ∀ j, (l.foldl (fun s b => s.request b.1) s).block? j = if j ∈ l.map Prod.fst then (s.block? j).map (asked s) else s.block? j := by
  induction l with
  | nil => exact fun s => ⟨rfl, fun j => (if_neg (List.not_mem_nil)).symm⟩
  | cons b l ih =>
    intro s
    obtain ⟨hrest, hblocks⟩ := ih (s.request b.1)
    have hreq := request_rest s b.1
    have htick : (s.request b.1).tick = s.tick := by rw [hreq]
    have hasked : asked (s.request b.1) = asked s := by
      funext x
      unfold asked
      rw [htick]
    refine ⟨?_, fun j => ?_⟩
    · rw [List.foldl_cons, hrest, hreq]
    · rw [List.foldl_cons, hblocks, block_request, hasked, List.map_cons]
      by_cases hj : j = b.1
      · subst hj
        rw [if_pos rfl, if_pos (List.mem_cons_self ..)]
        split
        · cases s.block? b.1 with
          | none => rfl
          | some x => simp only [Option.map_some, asked_asked]
        · rfl
      · rw [if_neg hj]
        simp only [List.mem_cons, hj, false_or]

theorem exec_gangReserve {st ctx c : Nat} {g : Gang} {s : State} (hst : st < s.stacksN) (hh : (s.partn (s.partOf st)).halting = none)
    (hg : (ctx, g) ∈ s.oldGangs (s.partOf st) st) (hc : s.reserveCore st g = some c)
    (hall : ∀ x ∈ s.oldGangs (s.partOf st) st, x = (ctx, g) ∨ s.reserveCore st x.2 = none ∨ g.tick < x.2.tick ∨
      (g.tick = x.2.tick ∧ g.id < x.2.id))
    (hfree : ∀ x ∈ s.cores, stackOf x.1 = st → x.2.reserved = none) {m : State}
    (hm : (s.modCore c fun x => { x with reserved := some g.id }).bump .gangres st 1 = m) :
    exec (.gangReserve st) s = .next ((m.blocksOn c).foldl (fun s b => s.request b.1) m) := by
  have htaken : (s.cores.any fun c => stackOf c.1 == st && (s.reservedFor c.1).isSome) = false := by
    rw [List.any_eq_false]
    intro x hx
    rw [Bool.and_eq_true, beq_iff_eq, not_and]
    intro hxs
    have hnone : (s.core x.1).reserved = none := by
      have hget : s.core x.1 = (s.cores.find x.1).getD Core.zero := Tbl.get_eq_find ..
      rw [hget]
      cases hf : s.cores.find x.1 with
      | none => rfl
      | some y => exact hfree (x.1, y) (mem_of_find hf) hxs
    unfold State.reservedFor
    rw [hnone]
    exact Bool.false_ne_true
  have hno : ¬ ((decide (s.stacksN ≤ st) || (s.cores.any fun c => stackOf c.1 == st && (s.reservedFor c.1).isSome) ||
      (s.partn (s.partOf st)).halting.isSome) = true) := by
    rw [htaken, hh, decide_eq_false (Nat.not_le.2 hst)]
    exact Bool.false_ne_true
  have hfor : s.reserveFor st (sortBy olderGang (s.oldGangs (s.partOf st) st)) = some (g, c) := reserveFor_oldest hg hc hall
  subst hm
  refine congrArg Host.Outcome.next ((if_neg hno).trans ?_)
  change (match s.reserveFor st (sortBy olderGang (s.oldGangs (s.partOf st) st)) with | none => s | some (g, c) => _) = _
  rw [hfor]

theorem gangReserve_spec {st c : Nat} {g : Gang} {s m : State} (hb : ∀ x ∈ s.blocks, s.block? x.1 = some x.2)
    (hm : (s.modCore c fun x => { x with reserved := some g.id }).bump .gangres st 1 = m) {s' : State}
    (hs' : (m.blocksOn c).foldl (fun s b => s.request b.1) m = s') :
    s' = { s with cores := s'.cores, blocks := s'.blocks, ctr := s'.ctr } ∧
      (∀ d, d ≠ c → s'.core d = s.core d) ∧ s'.core c = { s.core c with reserved := some g.id } ∧
      s'.count .gangres st = (s.count .gangres st + 1) % 2 ^ 64 ∧
      ∀ k b, s.block? k = some b → s'.block? k = some (if b.core = c ∧ b.req = none then { b with req := some s.tick.toNat } else b) := by
  obtain ⟨hrest, hblocks⟩ := requests_spec (m.blocksOn c) m
  rw [hs'] at hrest hblocks
  have hcore (d : Nat) : s'.core d = if d = c then { s.core c with reserved := some g.id } else s.core d := by
    have hm0 : m.core d = if d = c then { s.core c with reserved := some g.id } else s.core d := by
      rw [← hm]
      exact State.core_modCore s c d fun x => { x with reserved := some g.id }
    rw [← hm0, hrest]
    rfl
  refine ⟨?_, fun d hd => (hcore d).trans (if_neg hd), (hcore c).trans (if_pos rfl), ?_, fun k b hk => ?_⟩
  · rw [hrest, ← hm]
    rfl
  · have hcount : s'.count .gangres st = m.count .gangres st := by rw [hrest]; rfl
    rw [hcount, ← hm, count_bump_same]
    rfl
  · have hm0 : m.block? k = some b := by rw [← hm]; exact hk
    have hmem : k ∈ (m.blocksOn c).map Prod.fst ↔ b.core = c := by
      rw [List.mem_map]
      unfold State.blocksOn
      have hmb : m.blocks = s.blocks := by rw [← hm]; rfl
      constructor
      · rintro ⟨x, hx, rfl⟩
        obtain ⟨hx, hxc⟩ := List.mem_filter.1 hx
        rw [hmb] at hx
        rw [hb x hx] at hk
        cases hk
        exact beq_iff_eq.1 hxc
      · intro hbc
        refine ⟨(k, b), List.mem_filter.2 ⟨?_, beq_iff_eq.2 hbc⟩, rfl⟩
        rw [hmb]
        exact mem_of_find hk
    have htick : m.tick = s.tick := by rw [← hm]; rfl
    rw [hblocks, hm0]
    unfold asked
    by_cases hbc : b.core = c
    · rw [if_pos (hmem.2 hbc), htick]
      cases hr : b.req <;> simp [hbc, hr]
    · rw [if_neg (mt hmem.1 hbc), if_neg fun h => hbc h.1]

end Sys2Proof.Proofs

end

section
/-! R46, R50, R83, R346: a decision that places a block of a grid. -/

open Sys2Proof Sys2Proof.Machine

namespace Sys2Proof.Proofs

/-! Tables and masks that are made number by number. -/

/-- What a table holds once n numbers from off on have been set. -/
theorem get_foldl_set {α : Type} [DecidableEq α] (d : α) (off : Nat) (v : Nat → α) (n x : Nat) :
    Tbl.get d ((List.range n).foldl (fun t k => Tbl.set d t (k + off) (v k)) []) x = if off ≤ x ∧ x < n + off then v (x - off) else d := by
  induction n with
  | zero =>
    rw [if_neg (by omega)]
    rfl
  | succ n ih =>
    rw [List.range_succ, List.foldl_append]
    change Tbl.get d (Tbl.set d _ (n + off) (v n)) x = _
    rw [Tbl.get_set, ih]
    by_cases hx : x = n + off
    · subst hx
      rw [if_pos rfl, if_pos (by omega), Nat.add_sub_cancel]
    · rw [if_neg hx]
      by_cases h : off ≤ x ∧ x < n + off
      · rw [if_pos h, if_pos (by omega)]
      · rw [if_neg h, if_neg (by omega)]

theorem get_argRegs (l : Launch) (x : Nat) : (argRegs l).get 0 x = if 1 ≤ x ∧ x ≤ 8 then l.args.getD (x - 1) 0 else 0 := by
  have h := get_foldl_set (0 : W64) 1 (fun k => l.args.getD k 0) 8 x
  unfold argRegs
  rw [h]
  by_cases hx : 1 ≤ x ∧ x ≤ 8
  · rw [if_pos hx, if_pos (by omega)]
  · rw [if_neg hx, if_neg (by omega)]

/-! The teams of a block start (R301). -/

theorem noFills_noFills {s m : State} {c : Nat} (h : m.accs = Claims.noFills s c) : Claims.noFills m c = Claims.noFills s c := by
  unfold Claims.noFills at *
  rw [h, List.map_map]
  refine List.map_congr_left fun a _ => ?_
  simp only [Function.comp_apply]
  split
  · next ha => rw [if_pos (by exact ha)]
  · rfl

theorem selfInvalidate_l1 (c : Core) : c.selfInvalidate = { c with l1 := c.selfInvalidate.l1 } := rfl

/-- A team of no domain starts. -/
theorem startTeam_spec (s : State) (core slot : Nat) {t : Team} (hd : t.dom = none) {m : State} (hm : s.startTeam core slot t = m) :
    m = { s with teams := m.teams, cores := m.cores, accs := m.accs } ∧ m.accs = Claims.noFills s core ∧ (∀ d, d ≠ core → m.core d = s.core d) ∧
      m.core core = { s.core core with l1 := (m.core core).l1 } ∧ ∀ j, m.team? core j = if j = slot then some t else s.team? core j := by
  have heq : s.startTeam core slot t = (s.setTeam core slot t).selfInvalidate core := by
    unfold State.startTeam
    simp only [hd]
  have hcore := core_selfInvalidate (s.setTeam core slot t) core
  rw [heq] at hm
  subst hm
  refine ⟨rfl, rfl, fun d hd => (hcore d).trans (if_neg hd), ?_, fun j => ?_⟩
  · rw [hcore, if_pos rfl]
    rfl
  · change Tbl.find (s.teams.put (tkey core slot) t) (tkey core j) = _
    rw [Tbl.find_put]
    by_cases hj : j = slot
    · rw [if_pos (by rw [hj]), if_pos hj]
    · rw [if_neg (by unfold tkey; omega), if_neg hj]
      rfl

/-- Several teams of no domain start, in different slots. -/
theorem startTeams_spec (core : Nat) {f : Nat → Team} (hd : ∀ k, (f k).dom = none) : ∀ (ps : List (Nat × Nat)) (s : State) {m : State},
    (ps.map Prod.fst).Nodup → ps.foldl (fun s p => s.startTeam core p.1 (f p.2)) s = m →
    m = { s with teams := m.teams, cores := m.cores, accs := m.accs } ∧ m.accs = (if ps = [] then s.accs else Claims.noFills s core) ∧
      (∀ d, d ≠ core → m.core d = s.core d) ∧ m.core core = { s.core core with l1 := (m.core core).l1 } ∧
      (∀ p ∈ ps, m.team? core p.1 = some (f p.2)) ∧ ∀ j, j ∉ ps.map Prod.fst → m.team? core j = s.team? core j
  | [], s, m, _, hm => by
    cases hm
    exact ⟨rfl, rfl, fun _ _ => rfl, rfl, fun p hp => absurd hp List.not_mem_nil, fun _ _ => rfl⟩
  | q :: ps, s, m, hn, hm => by
    rw [List.map_cons, List.nodup_cons] at hn
    obtain ⟨hq, hn⟩ := hn
    obtain ⟨hr1, ha1, hc1, hk1, ht1⟩ := startTeam_spec s core q.1 (hd q.2) rfl
    rw [List.foldl_cons] at hm
    obtain ⟨hr2, ha2, hc2, hk2, ht2, hj2⟩ := startTeams_spec core hd ps _ hn hm
    generalize s.startTeam core q.1 (f q.2) = s1 at *
    refine ⟨?_, ?_, fun d hd => (hc2 d hd).trans (hc1 d hd), ?_, fun p hp => ?_, fun j hj => ?_⟩
    · rw [hr2, hr1]
    · rw [ha2, if_neg (List.cons_ne_nil _ _)]
      split
      · exact ha1
      · exact noFills_noFills ha1
    · rw [hk2, hk1]
    · rcases List.mem_cons.1 hp with rfl | hp
      · rw [hj2 _ hq, ht1, if_pos rfl]
      · exact ht2 p hp
    · rw [List.map_cons, List.mem_cons, not_or] at hj
      rw [hj2 _ hj.2, ht1, if_neg hj.1]

/-! The block of a grid starts (R50, R83). -/

/-- The header of a block whose grid has no dictionary. -/
def bankless (l : Launch) : Launch := { l with bank := 0 }

/-- Team k of a block of a grid. -/
def gridTeam (blk ctx : Nat) (g : Gang) (k : Nat) : Team :=
  newTeam (blk + 1 + k) ctx blk k (bankless g.hdr) (maskOf (List.range g.hdr.width) fun _ => true)
    ((List.range g.hdr.width).foldl (fun t i => Tbl.set 0 t i (widOf (bankless g.hdr) g.next k i)) []) [] 0 g.dom g.launch

/-- The state in which the teams of a block of a grid start. -/
def blockStands (s : State) (core ctx : Nat) (g : Gang) : State :=
  let l := bankless g.hdr
  let m := { s with seq := s.seq + l.teams + 2 }.setBlock s.seq (newBlock ctx core l g.next false g.launch 0 l.teams g.bankSince)
  if l.mentry = 0 then m else m.setRidge core (newRidge (s.seq + l.teams + 1) ctx s.seq l 0)

theorem startBlock_grid {g : Gang} (hrec : g.isRec = false) (hrecs : g.recs = []) (hdict : g.hdr.dict = 0) (s : State) (core ctx pool : Nat) :
    s.startBlock core ctx pool g = ((((blockStands s core ctx g).freeSlots core).take g.hdr.teams).zip (List.range g.hdr.teams)).foldl
      (fun m p => m.startTeam core p.1 (gridTeam s.seq ctx g p.2)) (blockStands s core ctx g) := by
  unfold State.startBlock State.takeBank
  rw [if_pos hdict, hrecs, hrec]
  rfl

theorem nodup_freeSlots (s : State) (core : Nat) : (s.freeSlots core).Nodup := List.nodup_range.filter _

theorem blockStands_spec (s : State) (core ctx : Nat) (g : Gang) {m : State} (hm : blockStands s core ctx g = m) :
    m = { s with seq := m.seq, blocks := m.blocks, ridges := m.ridges } ∧
      m.block? s.seq = some (newBlock ctx core (bankless g.hdr) g.next false g.launch 0 g.hdr.teams g.bankSince) ∧
      (g.hdr.mentry = 0 → m.ridges = s.ridges) ∧
      (g.hdr.mentry ≠ 0 → m.ridge? core = some (newRidge (s.seq + g.hdr.teams + 1) ctx s.seq (bankless g.hdr) 0)) := by
  unfold blockStands at hm
  by_cases h : g.hdr.mentry = 0
  · rw [if_pos (show (bankless g.hdr).mentry = 0 from h)] at hm
    subst hm
    exact ⟨rfl, Tbl.find_put_same .., fun _ => rfl, fun hn => absurd h hn⟩
  · rw [if_neg (show ¬ (bankless g.hdr).mentry = 0 from h)] at hm
    subst hm
    exact ⟨rfl, Tbl.find_put_same .., fun hz => absurd hz h, fun _ => Tbl.find_put_same ..⟩

/-- What the start of a block of a grid changes. -/
theorem startBlock_spec {g : Gang} (hrec : g.isRec = false) (hrecs : g.recs = []) (hdict : g.hdr.dict = 0) (hdom : g.dom = none) {s : State}
    {core ctx pool : Nat} (hslots : (s.freeSlots core).length ≥ g.hdr.teams) {m : State} (hm : s.startBlock core ctx pool g = m) :
    m = { s with seq := m.seq, blocks := m.blocks, ridges := m.ridges, teams := m.teams, cores := m.cores, accs := m.accs } ∧
      m.accs = (if g.hdr.teams = 0 then s.accs else Claims.noFills s core) ∧ (∀ d, d ≠ core → m.core d = s.core d) ∧
      m.core core = { s.core core with l1 := (m.core core).l1 } ∧
      m.block? s.seq = some (newBlock ctx core (bankless g.hdr) g.next false g.launch 0 g.hdr.teams g.bankSince) ∧
      (g.hdr.mentry = 0 → m.ridges = s.ridges) ∧
      (g.hdr.mentry ≠ 0 → m.ridge? core = some (newRidge (s.seq + g.hdr.teams + 1) ctx s.seq (bankless g.hdr) 0)) ∧
      (∀ k slot, k < g.hdr.teams → (s.freeSlots core)[k]? = some slot → m.team? core slot = some (gridTeam s.seq ctx g k)) ∧
      ∀ j, j ∉ (s.freeSlots core).take g.hdr.teams → m.team? core j = s.team? core j := by
  obtain ⟨hrest, hblock, hnone, hsome⟩ := blockStands_spec s core ctx g rfl
  have hfree : (blockStands s core ctx g).freeSlots core = s.freeSlots core := by rw [hrest]; rfl
  rw [startBlock_grid hrec hrecs hdict, hfree] at hm
  generalize blockStands s core ctx g = b at *
  have hlen : ((s.freeSlots core).take g.hdr.teams).length = (List.range g.hdr.teams).length := by
    rw [List.length_take, List.length_range]
    omega
  have hfst : ((((s.freeSlots core).take g.hdr.teams).zip (List.range g.hdr.teams)).map Prod.fst) = (s.freeSlots core).take g.hdr.teams :=
    List.map_fst_zip (Nat.le_of_eq hlen)
  obtain ⟨hr, ha, hc, hk, ht, hj⟩ := startTeams_spec core (f := gridTeam s.seq ctx g) (fun _ => hdom) _ b
    (by rw [hfst]; exact (nodup_freeSlots s core).sublist (List.take_sublist ..)) hm
  rw [hfst] at hj
  have hcore (d : Nat) : b.core d = s.core d := by rw [hrest]; rfl
  refine ⟨?_, ?_, fun d hd => (hc d hd).trans (hcore d), ?_, ?_, fun h => ?_, fun h => ?_, fun k slot hks hslot => ?_, fun j hjs => ?_⟩
  · rw [hr, hrest]
  · have hempty : ((s.freeSlots core).take g.hdr.teams).zip (List.range g.hdr.teams) = [] ↔ g.hdr.teams = 0 := by
      rw [← List.length_eq_zero_iff, List.length_zip, hlen, Nat.min_self, List.length_range]
    rw [ha]
    simp only [hempty]
    rw [hrest]
    rfl
  · rw [hk, hcore]
  · rw [← hblock, hr]
    rfl
  · rw [← hnone h, hr]
  · rw [← hsome h, hr]
    rfl
  · refine ht (slot, k) (List.mem_iff_getElem?.2 ⟨k, ?_⟩)
    rw [List.getElem?_zip_eq_some]
    refine ⟨?_, List.getElem?_range hks⟩
    rw [List.getElem?_take, if_pos hks]
    exact hslot
  · rw [hj j hjs, hrest]
    rfl

/-! A team of a grid as it starts (R46, R83). -/

theorem act_gridTeam (blk ctx : Nat) (g : Gang) (k l : Nat) (hl : l < 1024) :
    inMask (gridTeam blk ctx g k).act l = decide (l < 32 * g.hdr.words) := by
  refine (inMask_maskOf _ _ _ hl).trans ?_
  simp only [List.mem_range, Launch.width, Bool.and_true]

theorem rs_gridTeam (blk ctx : Nat) (g : Gang) (k : Nat) (x : SReg) :
    (gridTeam blk ctx g k).rs x = if 1 ≤ x.val ∧ x.val ≤ 8 then g.hdr.args.getD (x.val - 1) 0 else 0 := by
  unfold Team.rs
  split
  · next h => rw [if_neg (by omega)]
  · exact get_argRegs g.hdr x.val

theorem rp_gridTeam (blk ctx : Nat) (g : Gang) (k : Nat) (x : PReg) (l : Nat) (hl : l < 1024) :
    inMask ((gridTeam blk ctx g k).rp x) l = decide (x.val = 0) := by
  unfold Team.rp
  split
  · next h =>
    rw [decide_eq_true h]
    exact inMask_all true l hl
  · next h =>
    rw [decide_eq_false h]
    exact BitVec.getLsbD_zero

theorem wid_gridTeam (blk ctx : Nat) (g : Gang) (k l : Nat) (hl : l < 32 * g.hdr.words) :
    (gridTeam blk ctx g k).wid.get 0 l = widOf { g.hdr with bank := 0 } g.next k l := by
  have h := get_foldl_set (0 : W64) 0 (fun i => widOf (bankless g.hdr) g.next k i) g.hdr.width l
  refine h.trans ?_
  rw [if_pos ⟨Nat.zero_le _, hl⟩]
  rfl

theorem vreg_gridTeam {s : State} {core slot blk ctx : Nat} {g : Gang} {k : Nat} (ht : s.team? core slot = some (gridTeam blk ctx g k))
    (x : VReg) (l : Nat) : s.vreg core slot x l = 0 := by
  unfold State.vreg
  rw [ht]
  change laneOf ((s.core core).data 0) (l % 32) = 0
  unfold Core.data
  rw [if_pos rfl]
  unfold laneOf
  exact BitVec.eq_of_getLsbD_eq fun i hi => by simp

/-! The decision (R346 to R348). -/

/-- What a decision has done before the block starts: counters, the pool, reservations, and the holder of the partition's slice. -/
structure Decided (s m : State) (core ctx n : Nat) (p : Pool) : Prop where
  rest : m = { s with ctr := m.ctr, stks := m.stks, ctxs := m.ctxs, cores := m.cores, parts := m.parts }
  cores : ∀ d, d ≠ core → m.core d = s.core d
  core : m.core core = { s.core core with reserved := none }
  pools : ∀ k, (m.ctx ctx).pools.find k = if k = n then some p else (s.ctx ctx).pools.find k

theorem bumps_rest (l : List Nat) (s : State) : l.foldl (fun s c => s.bump .schDictwait c 1) s =
    { s with ctr := (l.foldl (fun s c => s.bump .schDictwait c 1) s).ctr } := by
  induction l generalizing s with
  | nil => rfl
  | cons a l ih => rw [List.foldl_cons, ih]; rfl

/-- Dropping reservations of one core only. -/
theorem drops_spec {core : Nat} : ∀ (l : List Nat) (s : State), (∀ c ∈ l, c = core) → (s.core core).reserved = none →
    l.foldl (fun (s : State) (c : Nat) => s.modCore c fun c => { c with reserved := none }) s =
      { s with cores := (l.foldl (fun (s : State) (c : Nat) => s.modCore c fun c => { c with reserved := none }) s).cores } ∧
    ∀ d, (l.foldl (fun (s : State) (c : Nat) => s.modCore c fun c => { c with reserved := none }) s).core d = s.core d
  | [], s, _, _ => ⟨rfl, fun _ => rfl⟩
  | a :: l, s, hl, hs => by
    obtain rfl := hl a (List.mem_cons_self ..)
    have hcore (d : Nat) : (s.modCore a fun c => { c with reserved := none }).core d = s.core d := by
      rw [State.core_modCore]
      split
      · next h =>
        subst h
        rw [← hs]
      · rfl
    obtain ⟨hrest, hc⟩ := drops_spec l (s.modCore a fun c => { c with reserved := none }) (fun c hc => hl c (List.mem_cons_of_mem _ hc))
      (by rw [hcore]; exact hs)
    rw [List.foldl_cons]
    exact ⟨by rw [hrest]; rfl, fun d => (hc d).trans (hcore d)⟩

theorem endReserves_spec {s : State} {core : Nat} {g : Gang} (h : ∀ x ∈ s.cores, x.2.reserved = some g.id → x.1 = core) {m : State}
    (hm : s.endReserves core g = m) :
    m = { s with cores := m.cores } ∧ (∀ d, d ≠ core → m.core d = s.core d) ∧ m.core core = { s.core core with reserved := none } := by
  have hdrop (d : Nat) : (s.modCore core fun c => { c with reserved := none }).core d =
      if d = core then { s.core core with reserved := none } else s.core d := State.core_modCore ..
  have hheld : ∀ c ∈ (s.modCore core fun c => { c with reserved := none }).reservations g.id, c = core := by
    intro c hc
    obtain ⟨x, hx, rfl⟩ := List.mem_map.1 hc
    obtain ⟨hx, hr⟩ := List.mem_filter.1 hx
    rcases Tbl.mem_put hx with rfl | hx
    · rfl
    · exact h x hx (beq_iff_eq.1 hr)
  obtain ⟨hrest, hc⟩ := drops_spec (core := core) _ (s.modCore core fun c => { c with reserved := none })
    (fun c hc => hheld c (List.mem_of_mem_take hc)) (by rw [hdrop, if_pos rfl])
  subst hm
  unfold State.endReserves
  exact ⟨by rw [hrest]; rfl, fun d hd => by rw [hc, hdrop, if_neg hd], by rw [hc, hdrop, if_pos rfl]⟩

/-- The state in which a decision starts a block. -/
def placeDecided (s : State) (st level key ctx n core : Nat) (g : Gang) (p : Pool) (lack : List Nat) : State :=
  let s1 := (lack.dedup.foldl (fun s c => s.bump .schDictwait c 1) s).modStk st fun k => { k with served := k.served.put level key }
  let s2 := (s1.setPool ctx n (p.placed g s1.tick.toNat)).endReserves core g
  if (s2.partn (s2.partOf st)).holder.isSome then s2
  else (s2.modPart (s2.partOf st) fun p => { p with holder := some ctx }).modCtx ctx fun c => { c with sliceTick := s2.tick.toNat }

theorem serve_one {s : State} {st level key ctx n core : Nat} {g : Gang} {p : Pool} {lack : List Nat} (hc : s.pickCore st ctx g = (lack, some core))
    (hp : (s.ctx ctx).pools.find n = some p) :
    s.serve st [] [(level, key, ctx, n, g)] = (placeDecided s st level key ctx n core g p lack).startBlock core ctx n g := by
  have hctx : (((lack.dedup.foldl (fun s c => s.bump .schDictwait c 1) s).modStk st fun k => { k with served := k.served.put level key }).ctx
      ctx).pools.find n = some p := by
    rw [bumps_rest]
    exact hp
  unfold State.serve placeDecided
  rw [hc]
  dsimp only
  rw [List.nil_append, hctx]

theorem placeDecided_spec {s : State} {st level key ctx n core : Nat} {g : Gang} {p : Pool} {lack : List Nat}
    (h : ∀ x ∈ s.cores, x.2.reserved = some g.id → x.1 = core) :
    Decided s (placeDecided s st level key ctx n core g p lack) core ctx n (p.placed g s.tick.toNat) := by
  unfold placeDecided
  generalize hs1 : State.modStk _ st _ = s1
  have hr1 : s1 = { s with ctr := s1.ctr, stks := s1.stks } := by
    rw [← hs1, bumps_rest]
    rfl
  have htick : s1.tick = s.tick := by rw [hr1]
  have hctx1 (k : Nat) : s1.ctx k = s.ctx k := by rw [hr1]; rfl
  have hcores1 : s1.cores = s.cores := by rw [hr1]
  dsimp only
  rw [htick]
  generalize hs2 : s1.setPool ctx n (p.placed g s.tick.toNat) = s2
  have hpools := pools_setPool s1 ctx n (p.placed g s.tick.toNat)
  have hr2 : s2 = { s1 with ctxs := s2.ctxs } := by
    rw [← hs2]
    rfl
  rw [hs2] at hpools
  have hcores2 : s2.cores = s1.cores := by rw [hr2]
  generalize hs3 : s2.endReserves core g = s3
  obtain ⟨hr3, hc3, hk3⟩ := endReserves_spec (by rw [hcores2, hcores1]; exact h) hs3
  have hcore (d : Nat) : s2.core d = s.core d := by rw [hr2, hr1]; rfl
  have hctx3 (k : Nat) : s3.ctx k = s2.ctx k := by rw [hr3]; rfl
  split
  · refine ⟨?_, fun d hd => (hc3 d hd).trans (hcore d), by rw [hk3, hcore], fun k => ?_⟩
    · rw [hr3, hr2, hr1]
    · rw [hctx3, hpools, hctx1]
  · generalize hs4 : State.modPart _ _ _ = s4
    have hr4 : s4 = { s3 with parts := s4.parts } := by
      rw [← hs4]
      rfl
    have hcore4 (d : Nat) : s4.core d = s3.core d := by rw [hr4]; rfl
    have hctx4 (k : Nat) : s4.ctx k = s3.ctx k := by rw [hr4]; rfl
    refine ⟨?_, fun d hd => ?_, ?_, fun k => ?_⟩
    · rw [hr4, hr3, hr2, hr1]
      rfl
    · exact (hcore4 d).trans ((hc3 d hd).trans (hcore d))
    · exact (hcore4 core).trans (hk3.trans (by rw [hcore]))
    · rw [ctx_modCtx_same, hctx4, hctx3, hpools, hctx1]

/-! The barriers of a block as they start (R209). -/

theorem find_range_map {α : Type} (f : Nat → α) (d : α) {n k : Nat} (hk : k < n) : Tbl.get d ((List.range n).map fun b => (b, f b)) k = f k := by
  have hfind : ∀ (off n : Nat), off ≤ k → k < off + n → Tbl.get d ((List.range' off n).map fun b => (b, f b)) k = f k := by
    intro off n
    induction n generalizing off with
    | zero => intro h1 h2; omega
    | succ n ih =>
      intro h1 h2
      rw [List.range'_succ, List.map_cons]
      change (if k = off then f off else Tbl.get d _ k) = f k
      split
      · next h => rw [h]
      · exact ih (off + 1) (by omega) (by omega)
  rw [List.range_eq_range']
  exact hfind 0 n (Nat.zero_le _) (by omega)

theorem bar_newBlock (ctx core : Nat) (l : Launch) (ord n since : Nat) (launch : Option Nat) {k : Nat} (hk : k < l.nb) :
    (newBlock ctx core l ord false launch 0 n since).bar k =
      ⟨BitVec.ofNat 12 (n + if l.mentry = 0 then 0 else 1), 0, 0, false, 0, 0, false⟩ := by
  unfold newBlock Block.bar newBars
  rw [find_range_map _ _ hk]
  unfold bit
  by_cases h : l.mentry = 0 <;> simp [h]

/-! A matrix stream as it starts (R83). -/

theorem rs_newRidge (uid ctx blk : Nat) (l : Launch) (depth : Nat) (x : SReg) :
    (newRidge uid ctx blk l depth).rs x = if 1 ≤ x.val ∧ x.val ≤ 8 then l.args.getD (x.val - 1) 0 else 0 := by
  unfold Ridge.rs
  split
  · next h => rw [if_neg (by omega)]
  · exact get_argRegs l x.val

theorem rp_newRidge (uid ctx blk : Nat) (l : Launch) (depth : Nat) (x : PReg) :
    (newRidge uid ctx blk l depth).rp x = decide (x.val = 0) := by
  unfold Ridge.rp
  split
  · next h => rw [decide_eq_true h]
  · next h =>
    rw [decide_eq_false h]
    exact BitVec.getLsbD_zero

theorem exec_placementDecision {st level key ctx n core : Nat} {g : Gang} {p : Pool} {lack : List Nat} {s : State} (hst : st < s.stacksN)
    (hh : (s.partn (s.partOf st)).halting = none) (hw : s.waiting (s.partOf st) st = [(level, key, ctx, n, g)])
    (hc : s.pickCore st ctx g = (lack, some core)) (hp : (s.ctx ctx).pools.find n = some p) :
    exec (.placementDecision st) s = .next ((placeDecided s st level key ctx n core g p lack).startBlock core ctx n g) := by
  have hno : ¬ ((decide (s.stacksN ≤ st) || (s.partn (s.partOf st)).halting.isSome) = true) := by
    rw [hh, decide_eq_false (Nat.not_le.2 hst)]
    exact Bool.false_ne_true
  refine congrArg Host.Outcome.next ((if_neg hno).trans ?_)
  rw [hw]
  exact serve_one hc hp

/-- Settles O52: each event by its own rule, and the decision by what it has done before the block starts and what the start changes. -/
theorem poolsAndPlacement : Obligations.PoolsAndPlacement := by
  unfold Obligations.PoolsAndPlacement
  refine ⟨⟨?_, ?_, ?_, ?_⟩, ?_⟩
  · intro ctx n p r rest s hp hrecs hdue hl hw
    obtain ⟨hrest, hcode, hother, hsame, hpools⟩ := poolTimerLapse_spec (ctx := ctx) (n := n) (p := p) (s := s) rfl
    exact ⟨_, exec_poolTimerLapse hp hrecs hdue hl hw, hrest, hcode, hother, hsame, hpools⟩
  · intro id s
    refine ⟨_, exec_remoteStackOffer id s, rfl, fun ctx n p hp => ⟨_, pool_offered hp, rfl, List.length_map .., fun k g hg => ?_⟩⟩
    exact (List.getElem?_map ..).trans (by rw [hg]; rfl)
  · intro ctx n p s hp hgangs hdue hlevel
    refine ⟨s.setPool ctx n { p with raised := p.raised + 1, since := p.since + max 1 (s.partn (s.ctx ctx).part).age.toNat * 1000 },
      ?_, rfl, fun c hc => ctx_setPool_of_ne _ _ _ hc, fun k => pools_setPool ..⟩
    change execPriorityAging ctx n s = _
    unfold execPriorityAging
    rw [hp]
    refine congrArg Host.Outcome.next (if_neg ?_)
    simp only [Bool.or_eq_true, List.isEmpty_iff, decide_eq_true_eq, not_or]
    exact ⟨⟨hgangs, Nat.not_lt.2 hdue⟩, Nat.not_le.2 hlevel⟩
  · intro st ctx c g s hst hh hg hc hall hfree hb
    exact ⟨_, exec_gangReserve hst hh hg hc hall hfree rfl, gangReserve_spec hb rfl rfl⟩
  · intro st level key ctx n core g p lack s hst hh hw hc hres hp hrec hrecs hdict hdom hslots _ _
    have hx := exec_placementDecision hst hh hw hc hp
    have hd := placeDecided_spec (st := st) (level := level) (key := key) (ctx := ctx) (n := n) (p := p) (lack := lack) hres
    generalize placeDecided s st level key ctx n core g p lack = m at *
    obtain ⟨hrest, hcores, hcore, hpools⟩ := hd
    have hseq : m.seq = s.seq := by rw [hrest]
    have hfree : m.freeSlots core = s.freeSlots core := by rw [hrest]; rfl
    have hteam (k : Nat) : m.team? core k = s.team? core k := by rw [hrest]; rfl
    obtain ⟨hr, ha, hc', hk, hblock, hnone, hsome, hteams, hothers⟩ :=
      startBlock_spec hrec hrecs hdict hdom (s := m) (ctx := ctx) (pool := n) (by rw [hfree]; exact hslots) rfl
    rw [hseq] at hblock hsome hteams
    rw [hfree] at hteams hothers
    generalize m.startBlock core ctx n g = s' at *
    refine ⟨s', _, hx, fun q => ?_, ?_, ?_, fun d hd => (hc' d hd).trans (hcores d hd), by rw [hk, hcore], hblock, rfl, rfl, rfl, rfl, rfl, rfl, rfl,
      rfl, rfl, rfl, fun k hk => bar_newBlock _ _ _ _ _ _ _ hk, fun h => ?_, fun h => ?_, fun k slot hk hslot => ?_, fun k hk => ?_, fun k => ?_⟩
    · rw [hr, hrest]
      rfl
    · rw [hr, hrest]
    · rw [ha, hrest]
      rfl
    · rw [hnone h, hrest]
    · exact ⟨_, hsome h, rfl, rfl, rfl, rfl, rfl, rfl, rp_newRidge _ _ _ _ _, rs_newRidge _ _ _ _ _⟩
    · have ht := hteams k slot hk hslot
      exact ⟨_, ht, rfl, rfl, rfl, rfl, rfl, rfl, rfl, rfl, rfl, rfl, act_gridTeam _ _ _ _, rs_gridTeam _ _ _ _, rp_gridTeam _ _ _ _,
        vreg_gridTeam ht, wid_gridTeam _ _ _ _⟩
    · rw [hothers k hk, hteam]
    · have hctx : s'.ctx ctx = m.ctx ctx := by rw [hr]; rfl
      rw [hctx, hpools]

end Sys2Proof.Proofs

end

section
/-! R134, R199, R206, R219, R229: MMA and the writes of its accumulator. -/

open Sys2Proof Sys2Proof.Machine

namespace Sys2Proof.Proofs

/-! Tables that are made from lists. -/

/-- What a table made from a list holds. -/
theorem get_tblOf {α : Type} [DecidableEq α] (d : α) (xs : List α) (k : Nat) : (tblOf d xs).get d k = xs.getD k d := by
  have hoff : ∀ (xs : List α) (off k : Nat), Tbl.get d (((List.range' off xs.length).zip xs).filter fun e => e.2 != d) (off + k) = xs.getD k d ∧
      ∀ j, j < off → Tbl.get d (((List.range' off xs.length).zip xs).filter fun e => e.2 != d) j = d := by
    intro xs
    induction xs with
    | nil => exact fun off k => ⟨rfl, fun _ _ => rfl⟩
    | cons x xs ih =>
      intro off k
      obtain ⟨hget, hlow⟩ := ih (off + 1) (k - 1)
      rw [List.length_cons, List.range'_succ, List.zip_cons_cons]
      by_cases hx : x = d
      · rw [List.filter_cons_of_neg (by simp [hx])]
        refine ⟨?_, fun j hj => hlow j (by omega)⟩
        cases k with
        | zero => rw [hlow _ (by omega), List.getD_cons_zero, hx]
        | succ k =>
          rw [List.getD_cons_succ, ← show _ = xs.getD k d from hget]
          congr 1
          omega
      · rw [List.filter_cons_of_pos (by simp [hx])]
        refine ⟨?_, fun j hj => ?_⟩
        · cases k with
          | zero => exact if_pos rfl
          | succ k =>
            rw [List.getD_cons_succ, ← show _ = xs.getD k d from hget]
            refine (if_neg (by omega)).trans ?_
            congr 1
            omega
        · exact (if_neg (by omega)).trans (hlow j (by omega))
  have h := (hoff xs 0 k).1
  rw [Nat.zero_add] at h
  unfold tblOf
  rw [List.range_eq_range']
  exact h

/-- An element of rows of one length, laid one after the other. -/
theorem getElem_flatMap_rows {α β : Type} {f : α → List β} {w : Nat} (hf : ∀ x, (f x).length = w) {j : Nat} (hj : j < w) :
    ∀ (ls : List α) (i : Nat), (ls.flatMap f)[w * i + j]? = ls[i]?.bind fun x => (f x)[j]?
  | [], i => rfl
  | x :: ls, 0 => by
    rw [List.flatMap_cons, Nat.mul_zero, Nat.zero_add, List.getElem?_append_left (by rw [hf]; exact hj)]
    rfl
  | x :: ls, i + 1 => by
    rw [List.flatMap_cons, List.getElem?_append_right (by rw [hf, Nat.mul_succ]; omega), hf, Nat.mul_succ,
      show w * i + w + j - w = w * i + j by omega, getElem_flatMap_rows hf hj ls i]
    rfl

/-! One K-block (R134, R206). -/

/-- Element (i, j) of an accumulator to which one K-block has been added. -/
theorem get_mmaBlock (z : Tbl W32) (tile : Tile) (scaleA : Nat → Nat) (t : PTile) (p : Nat) (outs : List W64) {i j : Nat} (hi : i < 32) (hj : j < 32) :
    (mmaBlock z tile scaleA t p outs).get 0 (32 * i + j) = BitVec.ofNat 32 (accumulate (z.get 0 (32 * i + j)).toNat
      ((List.range 64).map fun k => tile.el.get 0 (64 * i + k)) (scaleA i) ((List.range 64).map fun k => t.mant p k j) (t.scaleB j)
      (outs.filter fun o => outM o == i)) := by
  unfold mmaBlock
  rw [get_tblOf, List.getD_eq_getElem?_getD, getElem_flatMap_rows (w := 32) (by simp) hj, List.getElem?_range hi]
  simp [List.getElem?_zip_eq_some, List.getElem?_map, List.getElem?_range hj, List.zip, List.getElem?_zipWith]

/-- The accumulator after the first K-blocks of a list of steps. -/
def elAfter (f : Nat → Tbl W32 → Tbl W32) (z : Tbl W32) : Nat → Tbl W32
  | 0 => z
  | t + 1 => f t (elAfter f z t)

theorem foldl_elAfter (f : Nat → Tbl W32 → Tbl W32) (p : Nat → Nat) (z : Tbl W32) (n : Nat) :
    ((List.range n).foldl (fun (q : Tbl W32 × Nat) t => (f t q.1, q.2 + p t)) (z, 0)).1 = elAfter f z n := by
  induction n with
  | zero => rfl
  | succ n ih =>
    rw [List.range_succ, List.foldl_append]
    exact congrArg (f n) ih

/-! MMA (R219). -/

/-- The format of the plane tile at an offset of a block's pack. -/
def planesAt (s : State) (blk o : Nat) : Option (Bool × Nat) := planesOf (s.memGet (packKey blk (o + 0x20))).toNat

/-- The plane tile at an offset, in a format. -/
def planeTile (s : State) (blk o : Nat) (f : Bool × Nat) : PTile :=
  let data := s.memRead (packKey blk o) (64 + 256 * f.2)
  ⟨(data.take 32).map BitVec.toNat, f.1, f.2, data⟩

/-- The scale of a row of K-block t. -/
def mmaScale (s : State) (blk : Nat) (tile : Tile) (sa sb : VReg) (sel t : Nat) (scl : Bool) (m : Nat) : Nat :=
  if scl then rowScale tile.kind (s.team0 blk sb m) (fld (s.team0 blk sa m) (8 * ((sel + t) % 4)) 8) else (tile.sc.get 0 m).toNat

/-- What an MMA adds, K-block by K-block. -/
def mmaStep (s : State) (b : Block) (blk a planes : Nat) (sa sb : VReg) (sel : Nat) (scl outl : Bool) (offs : List Nat) (t : Nat)
    (z : Tbl W32) : Tbl W32 :=
  let o := offs.getD t 0
  let f := (planesAt s blk o).getD (false, 12)
  mmaBlock z (b.tile (a + t)) (mmaScale s blk (b.tile (a + t)) sa sb sel t scl) (planeTile s blk o f) (min planes f.2)
    (if outl then b.outl.filter fun e => outT e == t else [])

/-- The steps of K-block t. -/
def mmaPlanes (s : State) (blk planes : Nat) (offs : List Nat) (t : Nat) : Nat := min planes ((planesAt s blk (offs.getD t 0)).getD (false, 12)).2

/-- The block once an MMA has been issued. -/
def mmaIssued (b : Block) (z : Nat) (m : MmaPend) : Block := { b.setAcc z { b.acc z with use := true, dirty := true } with mma := b.mma ++ [m] }

theorem exec_mma {h : Hdr} {z a : Fin 8} {e : SReg} {sa sb : VReg} {planes : Fin 16} {bsel : Fin 4} {nkbm1 : Fin 8} {scl outl : Bool} {s : State}
    {c : Nat} {r : Ridge} {b : Block} {offs : List Nat}
    (hoffs : offs = (List.range (nkbm1.val + 1)).map fun t => fld (r.rs e).toNat 0 32 + t * fld (r.rs e).toNat 32 32)
    (w : RidgeIssues (.mma h z a e sa sb planes bsel nkbm1 scl outl) h s c r) (hb : s.block? r.blk = some b) (hadm : r.adm h = true)
    (hfit : a.val + (nkbm1.val + 1) ≤ 8) (howes : s.owes r.uid s.seq = false) (hbusy : scl = true → s.team0Busy r.blk [sa, sb] = false)
    (htiles : ∀ o ∈ offs, ∃ f, planesAt s r.blk o = some f ∧ o + 64 + 256 * f.2 ≤ r.hdr.packBytes ∧ o % 64 = 0)
    (hkind : scl = true → ∀ t, t < nkbm1.val + 1 → (b.tile (a.val + t)).kind ≠ .float) {q : Tbl W32 × Nat}
    (hq : q = (List.range (nkbm1.val + 1)).foldl (fun q t => (mmaStep s b r.blk a.val planes.val sa sb bsel.val scl outl offs t q.1,
      q.2 + mmaPlanes s r.blk planes.val offs t)) ((b.accNext z.val).el, 0)) :
    exec (.mma h z a e sa sb planes bsel nkbm1 scl outl) s = .next (settleRidge (.mma h z a e sa sb planes bsel nkbm1 scl outl) h s c r
      (.done (s.setBlock r.blk (mmaIssued b z.val ⟨z.val, ⟨q.1, true, true⟩, q.2⟩)))) := by
  have hill : decide (8 < a.val + nkbm1.val + 1) = false := decide_eq_false (by omega)
  have hnow : ¬ (s.owes r.uid s.seq || (scl && s.team0Busy r.blk [sa, sb])) = true := by
    rw [howes]
    cases scl
    · exact Bool.false_ne_true
    · rw [hbusy rfl]
      exact Bool.false_ne_true
  have hdesc : ¬ (offs.any (fun o => (planesAt s r.blk o).isNone) ||
      (scl && (List.range (nkbm1.val + 1)).any fun t => (b.tile (a.val + t)).kind == .float)) = true := by
    have h1 : offs.any (fun o => (planesAt s r.blk o).isNone) = false := by
      rw [List.any_eq_false]
      intro o ho
      obtain ⟨f, hf, -⟩ := htiles o ho
      rw [hf]
      exact Bool.false_ne_true
    rw [h1]
    cases scl
    · exact Bool.false_ne_true
    · have h2 : (List.range (nkbm1.val + 1)).any (fun t => (b.tile (a.val + t)).kind == .float) = false := by
        rw [List.any_eq_false]
        intro t ht
        rw [beq_iff_eq]
        exact hkind rfl t (List.mem_range.1 ht)
      rw [h2]
      exact Bool.false_ne_true
  have halign : offs.find? (fun o => o % 64 != 0) = none := by
    rw [List.find?_eq_none]
    intro o ho
    obtain ⟨f, -, -, ha⟩ := htiles o ho
    rw [ha]
    exact Bool.false_ne_true
  subst hq
  refine (runRidge_eq (nd := fun _ _ _ => { ill := decide (8 < a.val + nkbm1.val + 1) }) w hill).trans ?_
  refine congrArg (fun res => Host.Outcome.next (settleRidge (.mma h z a e sa sb planes bsel nkbm1 scl outl) h s c r res)) ?_
  rw [show (r.x c h).blk s = some b from hb]
  dsimp only
  rw [show (r.x c h).src.rs e = r.rs e from rfl, ← hoffs]
  refine (if_neg (by rw [show (r.x c h).adm = r.adm h from rfl, hadm]; exact Bool.false_ne_true)).trans ?_
  refine (if_neg hnow).trans ?_
  split
  · next o ho =>
    have hbad := List.find?_some ho
    obtain ⟨f, hf, hlen, -⟩ := htiles o (List.mem_of_find?_eq_some ho)
    rw [show planesOf (s.memGet (packKey (r.x c h).r.blk (o + 32))).toNat = some f from hf] at hbad
    simp only [Bool.or_eq_true, decide_eq_true_eq, show (r.x c h).r = r from rfl] at hbad
    omega
  · refine (if_neg hdesc).trans ?_
    rw [halign]
    rfl

theorem acc_setAcc (b : Block) (n k : Nat) (a : Acc) : (b.setAcc n a).acc k = if k = n then a else b.acc k := Tbl.get_set ..

/-- The outliers of a row of K-block t. -/
theorem outs_row (outl : Bool) (l : List W64) (t i : Nat) : (if outl then l.filter fun e => outT e == t else []).filter (fun o => outM o == i) =
    if outl then l.filter fun o => decide (outT o = t) && decide (outM o = i) else [] := by
  cases outl
  · rfl
  · rw [if_pos rfl, if_pos rfl, List.filter_filter]
    exact List.filter_congr fun o _ => Bool.and_comm ..

/-- One step of an MMA, element by element. -/
theorem get_mmaStep {s : State} {b : Block} {blk a planes : Nat} {sa sb : VReg} {sel : Nat} {scl outl : Bool} {offs : List Nat} {t o : Nat}
    {f : Bool × Nat} (ho : offs.getD t 0 = o) (hf : planesAt s blk o = some f) (z : Tbl W32) {i j : Nat} (hi : i < 32) (hj : j < 32) :
    ((mmaStep s b blk a planes sa sb sel scl outl offs t z).get 0 (32 * i + j)).toNat = accumulate (z.get 0 (32 * i + j)).toNat
      ((List.range 64).map fun k => (b.tile (a + t)).el.get 0 (64 * i + k)) (mmaScale s blk (b.tile (a + t)) sa sb sel t scl i)
      ((List.range 64).map fun k => (planeTile s blk o f).mant (min planes f.2) k j) ((planeTile s blk o f).scaleB j)
      (if outl then b.outl.filter fun o => decide (outT o = t) && decide (outM o = i) else []) % 2 ^ 32 := by
  unfold mmaStep
  dsimp only
  rw [ho, hf, Option.getD_some, get_mmaBlock _ _ _ _ _ _ hi hj, BitVec.toNat_ofNat, outs_row]

/-! MMA_ACCUMULATOR_WRITE (R199, R229). -/

theorem exec_mmaAccumulatorWrite {c : Nat} {r : Ridge} {b : Block} {m : MmaPend} {rest : List MmaPend} {s : State} (hr : s.ridge? c = some r)
    (hb : s.block? r.blk = some b) (hm : b.mma = m :: rest) : exec (.mmaAccumulatorWrite c) s =
      .next (((s.setBlock r.blk { b.setAcc m.z m.acc with mma := rest }).bump .planecyc c m.steps).bump .mmacnt c 1) := by
  change execMmaAccumulatorWrite c s = _
  unfold execMmaAccumulatorWrite
  rw [hr]
  dsimp only
  rw [hb]
  dsimp only
  split
  · next h => rw [h] at hm; cases hm
  · next h => rw [h] at hm; cases hm; rfl

/-- Settles O44: the additions of an MMA as steps on the accumulator, and the write of the oldest. -/
theorem matrixMultiply : Obligations.MatrixMultiply := by
  unfold Obligations.MatrixMultiply
  refine ⟨?_, ?_⟩
  · intro h z a e sa sb planes bsel nkbm1 scl outl fmt s c r b nkb off tile data pt scaleA i w hb hadm hfit howes hbusy htiles
    have hlist : ∀ t, t < nkb → ((List.range nkb).map off).getD t 0 = off t := fun t ht => by
      rw [List.getD_eq_getElem?_getD, List.getElem?_map, List.getElem?_range ht]
      rfl
    have hel := foldl_elAfter (mmaStep s b r.blk a.val planes.val sa sb bsel.val scl outl ((List.range nkb).map off))
      (mmaPlanes s r.blk planes.val ((List.range nkb).map off)) (b.accNext z.val).el nkb
    generalize hq : (List.range nkb).foldl (fun (q : Tbl W32 × Nat) t => (mmaStep s b r.blk a.val planes.val sa sb bsel.val scl outl
      ((List.range nkb).map off) t q.1, q.2 + mmaPlanes s r.blk planes.val ((List.range nkb).map off) t)) ((b.accNext z.val).el, 0) = q at hel
    have hx := exec_mma rfl w hb hadm hfit howes hbusy
      (fun o ho => by
        obtain ⟨t, ht, rfl⟩ := List.mem_map.1 ho
        obtain ⟨hf, hlen, ha, -⟩ := htiles t (List.mem_range.1 ht)
        exact ⟨fmt t, hf, hlen, ha⟩)
      (fun hs t ht => (htiles t ht).2.2.2 hs) hq.symm
    obtain ⟨hgoes, hframe, -, haccs, hblocks⟩ := blocks_doneM (i := i) (h := h) w.2.1 rfl
      (fun k hk => blocks_setBlock_of_ne s _ hk) rfl
    refine ⟨_, _, _, fun t k => ((elAfter (mmaStep s b r.blk a.val planes.val sa sb bsel.val scl outl ((List.range nkb).map off))
      (b.accNext z.val).el t).get 0 k).toNat, hx, hframe, hgoes, haccs, (congrArg (Tbl.find · r.blk) hblocks).trans (block_setBlock_same ..), rfl,
      fun k => ?_, rfl, rfl, rfl, fun k _ => ⟨?_, rfl⟩, fun t i j ht hi hj => ?_⟩
    · refine (acc_setAcc b z.val k _).trans ?_
      split
      · next hk => rw [hk]
      · rfl
    · exact congrArg (fun e => (Tbl.get 0 e k).toNat) hel
    · exact get_mmaStep (hlist t ht) (htiles t ht).1 _ hi hj
  · intro c r b m rest s hr hb hm
    refine ⟨_, _, exec_mmaAccumulatorWrite hr hb hm, rfl, fun k hk => blocks_setBlock_of_ne s _ hk, block_setBlock_same s r.blk _, rfl,
      fun k => acc_setAcc b m.z k m.acc, ?_, ?_⟩
    · rw [count_bump_same, count_bump_of_ne _ _ _ _ (by unfold Ctr.key; simp only [Ctr.no]; omega)]
      rfl
    · rw [count_bump_of_ne _ _ _ _ (by unfold Ctr.key; simp only [Ctr.no]; omega), count_bump_same]
      rfl

end Sys2Proof.Proofs

end

section
/-! R254 to R258, R277 to R280: completion rings, and what an instruction that writes memory as a unit leaves as it was. -/

open Sys2Proof Sys2Proof.Machine

namespace Sys2Proof.Proofs

/-! No walk is asked for by a unit's write at its home. -/

theorem walks_foldl {α : Type} {f : State → α → State} (hf : ∀ s a, (f s a).walks = s.walks) (l : List α) (s : State) :
    (l.foldl f s).walks = s.walks := by
  induction l generalizing s with
  | nil => rfl
  | cons a l ih => exact (ih _).trans (hf s a)

theorem walks_perform (s : State) (w : Writer) (pa cls : Nat) (bs : List Byte) (tr : Bool) : (s.perform w pa cls bs tr).1.walks = s.walks := by
  have hc := Cached.l2Access (s.memWrite pa bs) pa cls true
  unfold Cached at hc
  unfold State.perform
  dsimp only
  generalize (s.memWrite pa bs).l2Access pa cls true = p at hc
  obtain ⟨m, v⟩ := p
  dsimp only at hc ⊢
  cases tr with
  | false =>
    rw [if_neg Bool.false_ne_true, hc]
    rfl
  | true =>
    rw [if_pos rfl, compare_eq, hc]
    rfl

theorem walks_unitPut (s : State) (u : Unit_) (k cls : Nat) (bs : List Byte) (tr : Bool) : (s.unitPut u k cls bs tr).walks = s.walks := by
  unfold State.unitPut State.send
  split
  · rfl
  · split
    · split <;> rfl
    · split
      · rfl
      · dsimp only
        exact (walks_foldl (f := fun s c => s.revokeAt c k bs.length) (fun _ _ => rfl) _ _).trans (walks_perform ..)

theorem walks_putEach (u : Unit_) (tr : Bool) (ps : List (Nat × Nat × Nat)) (bs : List Byte) (s : State) : (s.putEach u tr ps bs).walks = s.walks := by
  induction ps generalizing s bs with
  | nil => rfl
  | cons p ps ih => exact (ih ..).trans (walks_unitPut ..)

theorem walks_putPieces (s : State) (u : Unit_) (tr : Bool) (ps : List (Nat × Nat × Nat)) (bs : List Byte) :
    (s.putPieces u tr ps bs).walks = s.walks := by
  refine (walks_putEach ..).trans ?_
  split
  · rw [countSilent_eq]
  · rfl

theorem walks_putWord (s : State) (u : Unit_) (k cls : Nat) (bs : List Byte) : (s.putWord u k cls bs).walks = s.walks := walks_putPieces ..

/-! The frame of an instruction that writes memory as a unit. -/

/-- Another state with the same teams, whose cores hold what they held but for words of the L1, value table and directory. -/
theorem unitFrame_of_rest {s m : State} {c slot : Nat} (hteams : m.teams = s.teams)
    (hcores : ∀ d, d ≠ c → m.core d = { s.core d with l1 := (m.core d).l1, own := (m.core d).own })
    (hcore : m.core c = { s.core c with l1 := (m.core c).l1, own := (m.core c).own, vtb := (m.core c).vtb, dir := (m.core c).dir })
    (hrest : m = { s with mem := m.mem, cores := m.cores, owners := m.owners, slices := m.slices, accs := m.accs, comp := m.comp, ctr := m.ctr,
                          ors := m.ors, ops := m.ops, stks := m.stks, seq := m.seq, free := m.free, walks := m.walks, sent := m.sent,
                          eccOnes := m.eccOnes })
    (hwalks : WalksOn s m) : Claims.UnitFrame s m c slot := by
  refine ⟨fun k _ => by rw [hteams], fun d k _ r l => vreg_congr ?_ ?_ r l, hcores, hcore, ?_, hwalks⟩
  · unfold State.team?
    rw [hteams]
  · by_cases hd : d = c
    · rw [hd, hcore]
    · rw [hcores d hd]
  · rw [hrest]

theorem UnitFrame.refl (s : State) (c slot : Nat) : Claims.UnitFrame s s c slot := unitFrame_of_rest rfl (fun _ _ => rfl) rfl rfl (.of_eq rfl)

theorem UnitFrame.trans {a b d : State} {c slot : Nat} (f : Claims.UnitFrame a b c slot) (g : Claims.UnitFrame b d c slot) :
    Claims.UnitFrame a d c slot := by
  refine ⟨fun k hk => (g.teams k hk).trans (f.teams k hk), fun d k hk r l => (g.vregs d k hk r l).trans (f.vregs d k hk r l), fun d hd => ?_, ?_,
    ?_, WalksOn.trans f.walks g.walks⟩
  · rw [g.cores d hd, f.cores d hd]
  · rw [g.core, f.core]
  · rw [g.rest, f.rest]

theorem UnitFrame.of_homed {s m : State} {c slot : Nat} (h : Homed s m) (hw : WalksOn s m) : Claims.UnitFrame s m c slot := by
  refine unitFrame_of_rest h.teams (fun d _ => h.cores d) ?_ ?_ hw
  · rw [h.cores]
  · rw [h.rest]

theorem tkey_core_ne {c d slot k : Nat} (hs : slot < 16) (hk : k < 16) (h : d ≠ c) : tkey d k ≠ tkey c slot := by
  unfold tkey
  omega

/-- What keeps a core's own tables keeps this frame. -/
theorem UnitFrame.of_port {s m : State} {c slot : Nat} (hs : slot < 16) (f : Claims.PortFrame s m c slot)
    (hcore : m.core c = { s.core c with l1 := (m.core c).l1, own := (m.core c).own, vtb := (m.core c).vtb, dir := (m.core c).dir })
    (hrest : m = { s with teams := m.teams, cores := m.cores, accs := m.accs, ctr := m.ctr }) : Claims.UnitFrame s m c slot := by
  refine ⟨f.teams, fun d k hk r l => ?_, fun d hd => by rw [f.cores d hd], hcore, by rw [hrest], WalksOn.of_eq (by rw [hrest])⟩
  by_cases hd : d = c
  · subst hd
    exact f.vregs k hk r l
  · exact vreg_congr (f.teams _ (tkey_core_ne hs hk hd)) (by rw [f.cores d hd]) r l

theorem UnitFrame.setTeam {s : State} {c slot : Nat} {t t1 : Team} (hs : slot < 16) (ht : s.team? c slot = some t) (hv : t1.vmap = t.vmap) :
    Claims.UnitFrame s (s.setTeam c slot t1) c slot := UnitFrame.of_port hs (PortFrame.setTeam hs ht hv) rfl rfl

/-- The team goes on from a state within the frame. -/
theorem unit_done {i : Instr} {h : Hdr} {s m : State} {c slot : Nat} {t t1 : Team} (hs : slot < 16) (f : Claims.UnitFrame s m c slot)
    (ht : m.team? c slot = some t1) {s' : State} (hs' : settleTeam i h s c slot t (.done m) = s') :
    Claims.UnitFrame s s' c slot ∧ Claims.Goes s c slot t t1 s' ∧ s' = { m with teams := s'.teams } := by
  obtain ⟨hp, hg, hr⟩ := goes_done hs ht hs'
  refine ⟨UnitFrame.trans f (UnitFrame.of_port hs hp ?_ ?_), hg, hr⟩
  · rw [hr]
    rfl
  · rw [hr]

theorem UnitFrame.killLoads (s : State) (c slot k : Nat) (hs : slot < 16) : Claims.UnitFrame s (s.killLoads c k) c slot := by
  refine UnitFrame.of_port hs (PortFrame.killLoads ..) ?_ rfl
  rw [core_killLoads, if_pos rfl]

/-- The same where the instruction also kills the team's load entries. -/
theorem unit_killed {i : Instr} {h : Hdr} {s m : State} {c slot : Nat} {t t1 : Team} (hs : slot < 16) (f : Claims.UnitFrame s m c slot)
    (ht : m.team? c slot = some t1) {s' : State} (hs' : settleTeam i h s c slot t (.done (m.killLoads c slot)) = s') :
    Claims.UnitFrame s s' c slot ∧ Claims.Goes s c slot t t1 s' ∧ s' = { m with teams := s'.teams, cores := s'.cores, ctr := s'.ctr } ∧
      ∀ k, (s'.core k).dir = (m.core k).dir := by
  obtain ⟨hu, hg, hr⟩ := unit_done hs (UnitFrame.trans f (UnitFrame.killLoads m c slot slot hs)) (by rw [team_killLoads]; exact ht) hs'
  refine ⟨hu, hg, ?_, fun k => ?_⟩
  · rw [hr]
    rfl
  · have hcore : s'.core k = (m.killLoads c slot).core k := by
      rw [hr]
      rfl
    rw [hcore, core_killLoads]
    split
    · next hk => rw [hk]
    · rfl

/-! Rings (R254, R255). -/

/-- A ring that may be used now. -/
theorem withRing_ready {s : State} {c slot : Nat} {t : Team} {h : Hdr} {hd : W64} {ow sw : Bool} {f : Ring → Nat} {r : Ring}
    (hr : Claims.RingReady s c t hd ow sw f r) (k : Ring → Res) : (t.x s c slot h).withRing s hd ow sw f none none k = k r := by
  obtain ⟨hof, hacq, hbusy⟩ := hr
  unfold X.withRing
  rw [show s.ringOf (t.x s c slot h).who hd ow sw f = .ok r from hof]
  dsimp only
  rw [if_neg]
  show ¬ (s.acquiring t.uid || s.ringBusy t.uid r) = true
  rw [hacq, hbusy]
  exact Bool.false_ne_true

/-- What names a ring: its object lies at a place that is written where asked, and has a size. -/
theorem ringOf_ok {s : State} {w : Who} {hd : W64} {ow sw : Bool} {f : Ring → Nat} {r : Ring} (h : s.ringOf w hd ow sw f = .ok r) :
    ∃ sp a k c, s.spanAt w sp 0 a 64 true ow = .ok k c ∧ r = s.ringIn sp k c := by
  unfold State.ringOf at h
  split at h
  · cases h
  · next sp a _ =>
    split at h
    · cases h
    · cases h
    · next k c hspan =>
      dsimp only at h
      split at h
      · cases h
      · split at h
        · cases h
        · cases h
        · next hslot =>
          cases h
          exact ⟨sp, a, k, c, hspan, rfl⟩

theorem byteAt_of_span {s : State} {w : Who} {sp : Space} {lane a n : Nat} {r wr : Bool} {k c : Nat}
    (h : s.spanAt w sp lane a n r wr = .ok k c) : s.byteAt w sp lane a r wr = .ok k c := by
  unfold State.spanAt at h
  split at h
  · cases h
  · cases h
  · cases h
  · cases h
  · exact h

/-- A place that can be reached lies on chip, or within the memory of a package (R283). -/
theorem key_of_byte {s : State} {w : Who} {sp : Space} {lane a : Nat} {r wr : Bool} {k c : Nat} (h : s.byteAt w sp lane a r wr = .ok k c) :
    2 ^ 56 ≤ k ∨ s.reach k = true := by
  unfold State.byteAt at h
  cases sp with
  | glob =>
    dsimp only at h
    split at h
    · cases h
    · cases h
    · next e htr =>
      split at h
      · cases h
      · cases h
        have hreached {x : Tr} (hx : s.reached a x = .ok e) : s.reach (e.phys a) = true := by
          unfold State.reached at hx
          split at hx
          · split at hx
            · next hr =>
              cases hx
              exact hr
            · cases hx
          · next hno => exact absurd hx (hno e)
        unfold State.translate at htr
        split at htr
        · exact .inr (hreached htr)
        · unfold State.walk at htr
          split at htr
          · cases htr
          · dsimp only at htr
            split at htr
            · exact .inr (hreached htr)
            · cases htr
  | pocket =>
    dsimp only at h
    split at h
    · cases h
      unfold pocketKey
      exact .inl (by omega)
    · cases h
  | pack =>
    dsimp only at h
    split at h
    · cases h
      unfold packKey
      exact .inl (by omega)
    · cases h
  | camp =>
    dsimp only at h
    unfold State.campAt at h
    dsimp only at h
    split at h
    · cases h
    · cases h
      unfold campKey
      exact .inl (by omega)
  | bcamp =>
    dsimp only at h
    unfold State.bcampAt at h
    dsimp only at h
    have hpick {p : Prop} [Decidable p] {slice off : Nat} (hx : (if p then At.prot else .ok (bcampKey slice off) 0) = .ok k c) : 2 ^ 56 ≤ k := by
      split at hx
      · cases hx
      · cases hx
        unfold bcampKey
        omega
    split at h
    · cases h
    · split at h
      · exact .inl (hpick h)
      · split at h
        · cases h
        · exact .inl (hpick h)
      · cases h

/-- No object straddles the end of a package's memory, which stops short of its part of the physical space (R283). -/
theorem home_of_field {s : State} {w : Who} {sp : Space} {a n : Nat} {r wr : Bool} {k c i : Nat} (h : s.spanAt w sp 0 a n r wr = .ok k c)
    (hi : i < 64) (hk : Claims.Home s (k + i)) (hlt : k + i < 2 ^ 56) : s.local_ k = true := by
  have hloc : s.local_ (k + i) = true := hk.resolve_left (by omega)
  have hreach : s.reach k = true := (key_of_byte (byteAt_of_span h)).resolve_left (by omega)
  have hlow : k / 2 ^ 45 % 2 ^ 2 < 2 := by
    unfold State.reach at hreach
    extract_lets sizes at hreach
    clear_value sizes
    split at hreach
    · cases hreach
    · simp only [Bool.and_eq_true] at hreach
      have := hreach.2
      split at this
      · next hz =>
        unfold fld at hz
        omega
      · next hz =>
        unfold fld at hz
        omega
      · cases this
  have hsame : pkgOf (k + i) = pkgOf k := by
    unfold pkgOf fld
    omega
  unfold State.local_ at hloc ⊢
  rwa [hsame] at hloc

theorem memRead_field (s : State) {k n i j : Nat} (h : i + j ≤ n) : ((s.memRead k n).drop i).take j = s.memRead (k + i) j := by
  unfold State.memRead
  rw [← List.map_drop, ← List.map_take]
  refine List.ext_getElem (by simp; omega) fun q h1 h2 => ?_
  simp [Nat.add_assoc]

theorem ofLe_toLe {n x : Nat} (h : x < 256 ^ n) : ofLe (toLe n x) = x := by
  have := ofLe_take_toLe (Nat.le_refl n) x
  rwa [List.take_of_length_le (by rw [length_toLe]), Nat.mod_eq_of_lt h] at this

/-- A word of a ring's object, where it is at home here, differs from the next one. -/
theorem ring_word_steps {s : State} {w : Who} {sp : Space} {a : Nat} {r wr : Bool} {k c i : Nat} (h : s.spanAt w sp 0 a 64 r wr = .ok k c)
    (hi : i + 4 ≤ 64) (hk : Claims.Home s (k + i)) (hlt : k + i < 2 ^ 56) : s.memRead (k + i) 4 ≠ toLe 4 (inc32 (le32 (s.homeRead k 64) i)) := by
  have hloc := home_of_field h (by omega) hk hlt
  intro he
  have hw : le32 (s.homeRead k 64) i = ofLe (s.memRead (k + i) 4) := by
    unfold le32
    rw [homeRead_home (.inr hloc), memRead_field s hi]
  have hlt : ofLe (s.memRead (k + i) 4) < 2 ^ 32 := by
    have := ofLe_lt (s.memRead (k + i) 4)
    rwa [length_memRead] at this
  have := congrArg ofLe he
  rw [hw, ofLe_toLe (by unfold inc32; omega)] at this
  unfold inc32 at this
  omega

/-- A write that would change what it replaces, and is not held, is not held once other bytes have changed. -/
theorem Homed.unitHeld_of_ne {s m : State} (h : Homed s m) {k : Nat} {bs : List Byte} (hne : k < 2 ^ 56 → s.memRead k bs.length ≠ bs)
    (hh : s.unitHeld k bs = false) : m.unitHeld k bs = false := by
  have hg : m.granules k = s.granules k := by rw [h.rest]; rfl
  have hw (a b : Nat) : m.watch? a b = s.watch? a b := by rw [h.rest]; rfl
  have hn : m.sliceNo k = s.sliceNo k := by rw [h.rest]; rfl
  rw [Bool.eq_false_iff] at hh ⊢
  intro hm
  refine hh ?_
  unfold State.unitHeld State.mustHold at hm ⊢
  simp only [h.local_, hg, hw, hn, h.ringFull, h.spills, Bool.and_eq_true, decide_eq_true_eq, bne_iff_ne] at hm ⊢
  exact ⟨hm.1, ⟨hne hm.1.1, hm.2.1.2⟩, hm.2.2⟩

theorem behind_of_outstanding {s : State} {uid : Nat} (h : s.outstanding uid = false) (k n : Nat) : s.behind uid k n = false := by
  unfold State.outstanding at h
  unfold State.behind
  rw [List.any_eq_false] at h ⊢
  intro a ha hb
  refine h a ha ?_
  simp only [Bool.and_eq_true] at hb ⊢
  exact hb.1.1.1

/-- What a unit's writes at homes of this package give. -/
structure Wrote (s m : State) (f : Nat → Byte) : Prop where
  homed : Homed s m
  walks : m.walks = s.walks
  mem : ∀ q, m.memGet q = f q

theorem Wrote.unit {s m : State} {f : Nat → Byte} (h : Wrote s m f) (c slot : Nat) : Claims.UnitFrame s m c slot := UnitFrame.of_homed h.homed (.of_eq h.walks)

theorem wrote_putWord {s : State} (u : Unit_) {k : Nat} (cls : Nat) {bs : List Byte} (hk : Claims.Home s k) (hh : s.unitHeld k bs = false)
    (hb : s.outstanding u.id = false) : Wrote s (s.putWord u k cls bs) (Claims.laid s.memGet k bs) := by
  obtain ⟨hm, hg⟩ := putWord_home u cls hk hh (behind_of_outstanding hb ..)
  exact ⟨hm, walks_putWord .., hg⟩

theorem slotHeld_nil {s : State} {w : Who} {r : Ring} {i w0 w1 k cls : Nat} (hs : s.slotAt w r i true = .ok k cls)
    (h : s.slotHeld w r i w0 w1 = []) : s.unitHeld k (slotBytes w0 w1) = false := by
  unfold State.slotHeld at h
  rw [hs] at h
  dsimp only at h
  split at h
  · cases h
  · next hno => exact Bool.eq_false_iff.2 hno

theorem objHeld_nil {s : State} {r : Ring} {off n v : Nat} (h : s.objHeld r off n v = []) : s.unitHeld (r.key + off) (toLe n v) = false := by
  unfold State.objHeld at h
  split at h
  · cases h
  · next hno => exact Bool.eq_false_iff.2 hno

/-- A slot's words are written. -/
theorem wrote_slotPut {s : State} (u : Unit_) {w : Who} {r : Ring} {i w0 w1 k cls : Nat} (hs : s.slotAt w r i true = .ok k cls)
    (h : s.slotHeld w r i w0 w1 = []) (hk : Claims.Home s k) (hb : s.outstanding u.id = false) :
    Wrote s (s.slotPut u w r i w0 w1) (Claims.laid s.memGet k (slotBytes w0 w1)) := by
  unfold State.slotPut
  rw [hs]
  exact wrote_putWord u cls hk (slotHeld_nil hs h) hb

/-- A slot is reserved (R258). -/
theorem wrote_reserve {s : State} {c : Nat} {t : Team} {hd : W64} {r : Ring} {k cls : Nat} {u : Unit_} (hu : u.id = t.uid)
    (hr : Claims.RingReady s c t hd true true Ring.rsv r) (hv : Claims.Reserves s c t r k cls) :
    Wrote s (s.reserve u (t.who c) r) (Claims.reserved s k r) := by
  obtain ⟨-, hslot, hheld, hout, hk, hobj⟩ := hv
  unfold State.reserveHeld at hheld
  rw [Bool.not_eq_false', List.isEmpty_iff, List.append_eq_nil_iff] at hheld
  obtain ⟨hm, hw, hg⟩ := wrote_slotPut u hslot hheld.1 hk (hu ▸ hout)
  obtain ⟨sp, a, key, kc, hspan, rfl⟩ := ringOf_ok hr.1
  unfold State.reserve
  generalize s.slotPut u (t.who c) (s.ringIn sp key kc) (s.ringIn sp key kc).rsv 0 pendingWord = m at hm hw hg ⊢
  have hlen : (toLe 4 (inc32 (s.ringIn sp key kc).rsv)).length = 4 := length_toLe ..
  have hh := hm.unitHeld_of_ne (fun hlt => by
    rw [hlen]
    exact ring_word_steps hspan (by decide) hobj hlt) (objHeld_nil hheld.2)
  have ho : m.outstanding u.id = false := by
    unfold State.outstanding
    rw [hm.accs, hu]
    exact hout
  obtain ⟨hm2, hw2, hg2⟩ := wrote_putWord u (s.ringIn sp key kc).cls (hm.home hobj) hh ho
  exact ⟨hm.trans hm2, hw2.trans hw, fun q => by rw [show m.memGet = _ from funext hg] at hg2; exact hg2 q⟩

/-! RING (R277). -/

theorem areaAt_lengths {s : State} {w : Who} {sp : Space} {r wr : Bool} : ∀ {l : List (Nat × Nat)} {ps : List (Nat × Nat × Nat)},
    s.areaAt w sp r wr l = (ps, none) → ps.map (·.2.2) = l.map Prod.snd
  | [], ps, h => by
    unfold State.areaAt at h
    cases h
    rfl
  | (a, n) :: rest, ps, h => by
    unfold State.areaAt at h
    split at h
    · cases hrest : s.areaAt w sp r wr rest with
      | mk ps' f =>
        rw [hrest] at h
        dsimp only at h
        cases h
        rw [List.map_cons, List.map_cons, areaAt_lengths hrest]
    · split at h <;> cases h
    · cases h

theorem sum_pieces (fuel a n : Nat) (h : n = 0 ∨ n + a % 64 ≤ 64 * fuel) : ((pieces fuel a n).map Prod.snd).sum = n := by
  induction fuel generalizing a n with
  | zero =>
    unfold pieces
    exact (show n = 0 by omega).symm
  | succ fuel ih =>
    unfold pieces
    split
    · next hn => exact hn.symm
    · have hlt := Nat.mod_lt a (show 0 < 64 by omega)
      rw [List.map_cons, List.sum_cons, ih]
      · dsimp only
        omega
      · by_cases hle : n ≤ 64 - a % 64
        · exact .inl (by omega)
        · exact .inr (by omega)

/-- The pieces of an area that can be reached have the area's length. -/
theorem sum_area {s : State} {w : Who} {sp : Space} {a n : Nat} {r wr : Bool} {ps : List (Nat × Nat × Nat)} (h : s.area w sp a n r wr = (ps, none)) :
    (ps.map (·.2.2)).sum = n := by
  unfold State.area at h
  rw [areaAt_lengths h]
  exact sum_pieces _ _ _ (.inr <| by
    have := Nat.mod_lt a (show 0 < 64 by omega)
    omega)

/-- Zero bytes over pieces, as memory then reads. -/
def zeroed (f : Nat → Byte) (ps : List (Nat × Nat × Nat)) (q : Nat) : Byte := if ∃ p ∈ ps, p.1 ≤ q ∧ q < p.1 + p.2.2 then 0 else f q

theorem laid_zeros (f : Nat → Byte) (k n q : Nat) : Claims.laid f k (List.replicate n 0) q = if k ≤ q ∧ q < k + n then 0 else f q := by
  unfold Claims.laid
  rw [List.length_replicate]
  split
  · simp only [List.getD_eq_getElem?_getD, List.getElem?_replicate]
    split <;> rfl
  · rfl

theorem memRead_zeros {s m : State} {k n : Nat} (h : s.memRead k n = List.replicate n 0) (hm : ∀ q, m.memGet q = s.memGet q ∨ m.memGet q = 0) :
    m.memRead k n = List.replicate n 0 := by
  refine List.eq_replicate_iff.2 ⟨length_memRead .., fun b hb => ?_⟩
  obtain ⟨i, hi, rfl⟩ := List.mem_map.1 hb
  rcases hm (k + i) with he | he
  · rw [he]
    exact (List.eq_replicate_iff.1 h).2 _ (List.mem_map.2 ⟨i, hi, rfl⟩)
  · exact he

/-- Zero bytes that are not held are not held once zeros have been written elsewhere. -/
theorem heldPieces_zeros {s m : State} (h : Homed s m) (hm : ∀ q, m.memGet q = s.memGet q ∨ m.memGet q = 0) :
    ∀ (ps : List (Nat × Nat × Nat)) (n : Nat), s.heldPieces ps (List.replicate n 0) = false → m.heldPieces ps (List.replicate n 0) = false
  | [], _, _ => rfl
  | p :: rest, n, hh => by
    unfold State.heldPieces at hh ⊢
    rw [List.drop_replicate, List.take_replicate, Bool.or_eq_false_iff] at hh ⊢
    refine ⟨?_, heldPieces_zeros h hm rest _ hh.2⟩
    by_cases hz : s.memRead p.1 (List.replicate (min p.2.2 n) (0 : Byte)).length = List.replicate (min p.2.2 n) 0
    · refine (h.unitHeld ?_).trans hh.1
      rw [List.length_replicate] at hz ⊢
      rw [hz, memRead_zeros hz hm]
    · exact h.unitHeld_of_ne (fun _ => hz) hh.1

theorem wrote_zeros (u : Unit_) : ∀ (ps : List (Nat × Nat × Nat)) (n : Nat) (s : State), (ps.map (·.2.2)).sum ≤ n →
    (∀ p ∈ ps, Claims.Home s p.1) → s.heldPieces ps (List.replicate n 0) = false → s.outstanding u.id = false →
    Wrote s (s.putEach u true ps (List.replicate n 0)) (zeroed s.memGet ps)
  | [], _, s, _, _, _, _ => ⟨.refl s, rfl, fun q => by simp [zeroed, State.putEach]⟩
  | (k, c, len) :: rest, n, s, hn, hk, hh, ho => by
    rw [List.map_cons, List.sum_cons] at hn
    dsimp only at hn
    unfold State.heldPieces at hh
    rw [List.drop_replicate, List.take_replicate, Nat.min_eq_left (by omega), Bool.or_eq_false_iff] at hh
    obtain ⟨hm, hg, -⟩ := unitPut_home (tr := true) u c (hk _ List.mem_cons_self) fun _ => ⟨hh.1, behind_of_outstanding ho ..⟩
    have hw := walks_unitPut s u k c (List.replicate len 0) true
    unfold State.putEach
    rw [List.drop_replicate, List.take_replicate, Nat.min_eq_left (by omega)]
    generalize s.unitPut u k c (List.replicate len 0) true = m at hm hg hw ⊢
    have hzero (q : Nat) : m.memGet q = s.memGet q ∨ m.memGet q = 0 := by
      rw [hg, laid_zeros]
      split
      · exact .inr rfl
      · exact .inl rfl
    have hout : m.outstanding u.id = false := by
      unfold State.outstanding
      rw [hm.accs]
      exact ho
    obtain ⟨hm2, hw2, hg2⟩ := wrote_zeros u rest (n - len) m (by omega) (fun p hp => hm.home (hk p (List.mem_cons_of_mem _ hp)))
      (heldPieces_zeros hm hzero rest _ hh.2) hout
    refine ⟨hm.trans hm2, hw2.trans hw, fun q => ?_⟩
    rw [hg2]
    unfold zeroed
    rw [hg, laid_zeros]
    by_cases h1 : ∃ p ∈ rest, p.1 ≤ q ∧ q < p.1 + p.2.2
    · rw [if_pos h1, if_pos]
      obtain ⟨p, hp, hq⟩ := h1
      exact ⟨p, List.mem_cons_of_mem _ hp, hq⟩
    · rw [if_neg h1]
      by_cases h2 : k ≤ q ∧ q < k + len
      · rw [if_pos h2, if_pos ⟨_, List.mem_cons_self, h2⟩]
      · rw [if_neg h2, if_neg]
        rintro ⟨p, hp, hq⟩
        rcases List.mem_cons.1 hp with rfl | hp
        · exact h2 hq
        · exact h1 ⟨p, hp, hq⟩

/-- Pieces that are apart from what has changed are held as they were. -/
theorem heldPieces_apart {s m : State} (h : Homed s m) {k n : Nat} (hm : ∀ q, q < k ∨ k + n ≤ q → m.memGet q = s.memGet q) :
    ∀ (ps : List (Nat × Nat × Nat)) (bs : List Byte), (∀ p ∈ ps, Claims.Apart (k, n) (p.1, p.2.2)) → m.heldPieces ps bs = s.heldPieces ps bs
  | [], _, _ => rfl
  | (a, _, len) :: rest, bs, ha => by
    unfold State.heldPieces
    rw [heldPieces_apart h hm rest _ fun q hq => ha q (List.mem_cons_of_mem _ hq), h.unitHeld]
    refine List.map_congr_left fun i hi => hm _ ?_
    have hlt := List.mem_range.1 hi
    rw [List.length_take] at hlt
    have : k + n ≤ a ∨ a + len ≤ k := ha _ List.mem_cons_self
    omega

theorem wrote_ring {s : State} {w : Who} {sp : Space} {base n k cls : Nat} {ps : List (Nat × Nat × Nat)} {u v : Unit_} {obj : List Byte} (hlen : obj.length = 64)
    (hps : s.area w sp base (16 * n) false true = (ps, none)) (hh : s.unitHeld k obj = false)
    (hhp : s.heldPieces ps (List.replicate (16 * n) 0) = false) (ho : s.outstanding u.id = false) (hv : v.id = u.id) (hk : Claims.Home s k)
    (hp : ∀ p ∈ ps, Claims.Home s p.1 ∧ Claims.Apart (k, 64) (p.1, p.2.2)) :
    Wrote s ((s.putWord u k cls obj).putPieces v true ps (List.replicate (16 * n) 0)) (zeroed (Claims.laid s.memGet k obj) ps) := by
  obtain ⟨hm, hw, hg⟩ := wrote_putWord u cls hk hh ho
  generalize s.putWord u k cls obj = m at hm hw hg ⊢
  have hc := countSilent_homed m ps (List.replicate (16 * n) 0)
  have hcm := memGet_countSilent m ps (List.replicate (16 * n) 0)
  have hcw : (m.countSilent ps (List.replicate (16 * n) 0)).walks = m.walks := by rw [countSilent_eq]
  unfold State.putPieces
  rw [if_pos rfl]
  generalize m.countSilent ps (List.replicate (16 * n) 0) = m2 at hc hcm hcw ⊢
  have hm2 := hm.trans hc
  have hheld : m2.heldPieces ps (List.replicate (16 * n) 0) = false := by
    refine (heldPieces_apart hm2 (k := k) (n := 64) (fun q hq => ?_) ps _ fun p h => (hp p h).2).trans hhp
    rw [hcm, hg, Claims.laid, if_neg (by omega)]
  have hout : m2.outstanding v.id = false := by
    unfold State.outstanding
    rw [hm2.accs, hv]
    exact ho
  obtain ⟨hm3, hw3, hg3⟩ := wrote_zeros v ps (16 * n) m2 (Nat.le_of_eq (sum_area hps)) (fun p h => hm2.home (hp p h).1) hheld hout
  refine ⟨hm2.trans hm3, hw3.trans (hcw.trans hw), fun q => ?_⟩
  rw [hg3, show m2.memGet = Claims.laid s.memGet k obj from funext fun q => (hcm q).trans (hg q)]

/-- The object of an empty ring of n slots (R255). -/
def ringObject (base n : Nat) : List Byte := toLe 8 base ++ List.replicate 16 0 ++ toLe 8 n ++ List.replicate 32 0

theorem exec_ring {h : Hdr} {a b : SReg} {nm1 : Fin 256} {sp : Space} {addr k cls : Nat} {ps : List (Nat × Nat × Nat)} {s : State} {c slot : Nat}
    {t : Team} (w : TeamIssues (.ring h a b nm1) h s c slot t) (h0 : t.adm h ≠ 0) (hh : handleOf (t.rs a) = some (sp, addr))
    (hob : s.spanAt (t.who c) sp 0 addr 64 true true = .ok k cls)
    (hps : s.area (t.who c) sp (fld (t.rs b).toNat 0 57) (16 * (nm1.val + 1)) false true = (ps, none)) (hal : (t.rs b).toNat % 16 = 0)
    (howes : s.owes t.uid s.seq = false) (hold : 1 ≤ (s.ringIn sp k cls).n → (s.ringIn sp k cls).n ≤ 256 → (s.ringIn sp k cls).rsv = (s.ringIn sp k cls).wr) :
    exec (.ring h a b nm1) s = .next (settleTeam (.ring h a b nm1) h s c slot t (.done
      ((State.putPieces (s.putWord ((t.x s c slot h).unit s) k cls (ringObject (fld (t.rs b).toNat 0 57) (nm1.val + 1)))
        ((t.x s c slot h).unit (s.putWord ((t.x s c slot h).unit s) k cls (ringObject (fld (t.rs b).toNat 0 57) (nm1.val + 1)))) true ps (List.replicate (16 * (nm1.val + 1)) 0)).killLoads c slot))) := by
  refine runTeam_eff w ((if_neg h0).trans ?_) nofun
  rw [show handleOf ((t.x s c slot h).src.team.rs a) = some (sp, addr) from hh]
  dsimp only
  rw [show s.spanAt (t.x s c slot h).who sp 0 addr 64 true true = .ok k cls from hob,
    show s.area (t.x s c slot h).who sp (fld ((t.x s c slot h).src.team.rs b).toNat 0 57) (16 * (nm1.val + 1)) false true = (ps, none) from hps]
  dsimp only
  rw [if_neg (show ¬ (((t.x s c slot h).src.team.rs b).toNat % 16 != 0) = true by
      rw [show ((t.x s c slot h).src.team.rs b).toNat % 16 = 0 from hal]
      decide),
    if_neg (show ¬ s.owes (t.x s c slot h).team.uid s.seq = true by rw [show s.owes (t.x s c slot h).team.uid s.seq = false from howes]; exact Bool.false_ne_true),
    if_neg]
  · rfl
  · simp only [Bool.and_eq_true, decide_eq_true_eq, bne_iff_ne]
    rintro ⟨⟨h1, h2⟩, hne⟩
    exact hne (hold h1 h2)

theorem ring_holds {h : Hdr} {a b : SReg} {nm1 : Fin 256} {sp : Space} {addr k cls : Nat} {ps : List (Nat × Nat × Nat)} {s : State} {c slot : Nat}
    {t : Team} (hs : slot < 16) (w : TeamIssues (.ring h a b nm1) h s c slot t) (h0 : t.adm h ≠ 0) (hh : handleOf (t.rs a) = some (sp, addr))
    (hob : s.spanAt (t.who c) sp 0 addr 64 true true = .ok k cls)
    (hps : s.area (t.who c) sp (fld (t.rs b).toNat 0 57) (16 * (nm1.val + 1)) false true = (ps, none)) (hal : (t.rs b).toNat % 16 = 0)
    (howes : s.owes t.uid s.seq = false) (hold : 1 ≤ (s.ringIn sp k cls).n → (s.ringIn sp k cls).n ≤ 256 → (s.ringIn sp k cls).rsv = (s.ringIn sp k cls).wr)
    (hheld : s.unitHeld k (ringObject (fld (t.rs b).toNat 0 57) (nm1.val + 1)) = false)
    (hhp : s.heldPieces ps (List.replicate (16 * (nm1.val + 1)) 0) = false) (ho : s.outstanding t.uid = false) (hk : Claims.Home s k)
    (hp : ∀ p ∈ ps, Claims.Home s p.1 ∧ Claims.Apart (k, 64) (p.1, p.2.2)) :
    ∃ s', exec (.ring h a b nm1) s = .next s' ∧ Claims.UnitFrame s s' c slot ∧ s'.ops = s.ops ∧ s'.stks = s.stks ∧ s'.accs = s.accs ∧
      Claims.Goes s c slot t t s' ∧
      ∀ q, s'.memGet q = zeroed (Claims.laid s.memGet k (ringObject (fld (t.rs b).toNat 0 57) (nm1.val + 1))) ps q := by
  refine ⟨_, exec_ring w h0 hh hob hps hal howes hold, ?_⟩
  have hw := wrote_ring (u := (t.x s c slot h).unit s)
    (v := (t.x s c slot h).unit (s.putWord ((t.x s c slot h).unit s) k cls (ringObject (fld (t.rs b).toNat 0 57) (nm1.val + 1)))) (cls := cls)
    rfl hps hheld hhp ho rfl hk hp
  generalize State.putPieces _ _ _ _ _ = m at hw ⊢
  obtain ⟨hu, hg, hr, -⟩ := unit_killed (i := .ring h a b nm1) (h := h) hs (hw.unit c slot) (t := t)
    (by unfold State.team?; rw [hw.homed.teams]; exact w.2.1) rfl
  have hgoes : Claims.Goes s c slot t t _ := hg
  refine ⟨hu, ?_, ?_, ?_, hgoes, fun q => ?_⟩
  · rw [hr]; exact hw.homed.ops
  · rw [hr]; exact hw.homed.stks
  · rw [hr]; exact hw.homed.accs
  · rw [hr]; exact hw.mem q

/-! FWAIT and FTEST: an acquire of a team that has changed (R278, R280). -/

theorem acquire_changed {i : Instr} {h : Hdr} {s m : State} {c slot : Nat} {t t1 : Team} (hs : slot < 16) (hm : m = { s with teams := m.teams })
    (hset : Claims.UnitFrame s m c slot) (ht : m.team? c slot = some t1) (hof : m.teamOf t1.uid = some (tkey c slot, t1)) {s' : State}
    (hs' : settleTeam i h s c slot t (.done (m.acquired c t1.uid)) = s') :
    Claims.UnitFrame s s' c slot ∧ s'.ops = s.ops ∧ s'.stks = s.stks ∧ (∀ q, s'.memGet q = s.memGet q) ∧
      Claims.Goes s c slot t t1 s' ∧ Claims.Acquired s s' c := by
  rw [acquired_eq hs hof] at hs'
  have hrest := fenced_rest m c slot true
  have hteams := fenced_teams m c slot true
  have haccs := fenced_accs m c slot true
  have hcore := fenced_core m c slot true c
  have hframe : Claims.UnitFrame s (fenced m c slot true) c slot := by
    refine UnitFrame.trans hset (UnitFrame.of_port hs (portFrame_fenced ..) ?_ ?_)
    · rw [hcore, if_pos rfl]
      rfl
    · rw [hrest]
  change settleTeam i h s c slot t (.done (fenced m c slot true)) = s' at hs'
  generalize fenced m c slot true = n at *
  obtain ⟨hu, hg, hr⟩ := unit_done hs hframe (by unfold State.team?; rw [hteams]; exact ht) hs'
  have hnoFills : Claims.noFills m c = Claims.noFills s c := by
    rw [hm]
    rfl
  refine ⟨hu, ?_, ?_, fun q => ?_, hg, acquired_of_core ?_ ?_⟩
  · rw [hr, hrest, hm]
  · rw [hr, hrest, hm]
  · rw [hr, hrest, hm]; rfl
  · rw [hr]; exact haccs.trans hnoFills
  · rw [hr]
    show (n.core c).l1 = _
    rw [hcore, if_pos rfl, hm]
    rfl

/-- A team's scalars or predicates are written, and it acquires. -/
theorem acquire_set {i : Instr} {h : Hdr} {s : State} {c slot : Nat} {t t1 : Team} (hs : slot < 16) (ht : s.team? c slot = some t)
    (hof : s.teamOf t.uid = some (tkey c slot, t)) (hv : t1.vmap = t.vmap) (hu : t1.uid = t.uid) {s' : State}
    (hs' : settleTeam i h s c slot t (.done ((s.setTeam c slot t1).acquired c t.uid)) = s') :
    Claims.UnitFrame s s' c slot ∧ s'.ops = s.ops ∧ s'.stks = s.stks ∧ (∀ q, s'.memGet q = s.memGet q) ∧
      Claims.Goes s c slot t t1 s' ∧ Claims.Acquired s s' c := by
  rw [← hu] at hs'
  refine acquire_changed hs rfl (UnitFrame.setTeam hs ht hv) (State.team_setTeam_same s c slot t1) ?_ hs'
  rw [hu]
  exact teamOf_put hof hu

theorem exec_fwait {h : Hdr} {a b : SReg} {nt : Bool} {r : Ring} {s : State} {c slot : Nat} {t : Team}
    (w : TeamIssues (.fwait h a b nt) h s c slot t) (h0 : t.adm h ≠ 0) (hr : Claims.RingReady s c t (t.rs b) true false Ring.rd r)
    (hd : s.slotDone (t.who c) r = true) {w0 w1 : Nat} (hsg : s.slotGet (t.who c) r r.rd = (w0, w1)) (hnt : codeOf w1 = 1 → nt = true) :
    exec (.fwait h a b nt) s = .next (settleTeam (.fwait h a b nt) h s c slot t (.done (State.acquired
      (if a.val = 0 then s else s.setTeam c slot ((t.ws a (BitVec.ofNat 64 w0)).ws (sregAt a 1) (BitVec.ofNat 64 w1))) c t.uid))) := by
  refine runTeam_eff w ((if_neg h0).trans ((withRing_ready hr _).trans ?_)) nofun
  rw [show s.slotDone (t.x s c slot h).who r = true from hd, if_neg (by decide), show s.slotGet (t.x s c slot h).who r r.rd = _ from hsg]
  dsimp only
  rw [if_neg, show (t.x s c slot h).c = c from rfl, show (t.x s c slot h).slot = slot from rfl, modTeam_eq_setTeam _ w.2.1]
  · rfl
  · simp only [Bool.and_eq_true, decide_eq_true_eq, Bool.not_eq_true', not_and, Bool.not_eq_false]
    exact hnt

theorem fwait_holds {h : Hdr} {a b : SReg} {nt : Bool} {r : Ring} {s : State} {c slot : Nat} {t : Team} (hs : slot < 16)
    (w : TeamIssues (.fwait h a b nt) h s c slot t) (h0 : t.adm h ≠ 0) (hr : Claims.RingReady s c t (t.rs b) true false Ring.rd r)
    (hof : s.teamOf t.uid = some (tkey c slot, t)) (hd : s.slotDone (t.who c) r = true)
    (hnt : codeOf (s.slotGet (t.who c) r r.rd).2 = 1 → nt = true) :
    ∃ s', exec (.fwait h a b nt) s = .next s' ∧ Claims.UnitFrame s s' c slot ∧ s'.ops = s.ops ∧ s'.stks = s.stks ∧
      (∀ q, s'.memGet q = s.memGet q) ∧
      Claims.Goes s c slot t (if a.val = 0 then t else (t.ws a (BitVec.ofNat 64 (s.slotGet (t.who c) r r.rd).1)).ws (sregAt a 1)
        (BitVec.ofNat 64 (s.slotGet (t.who c) r r.rd).2)) s' ∧ Claims.Acquired s s' c := by
  refine ⟨_, exec_fwait w h0 hr hd rfl hnt, ?_⟩
  by_cases ha : a.val = 0
  · rw [if_pos ha, if_pos ha]
    exact acquire_changed (i := .fwait h a b nt) (h := h) hs rfl (UnitFrame.refl s c slot) w.2.1 hof rfl
  · rw [if_neg ha, if_neg ha]
    refine acquire_set (i := .fwait h a b nt) (h := h) hs w.2.1 hof ?_ ?_ rfl
    · rw [Team.ws_frame, Team.ws_frame t]
    · rw [Team.ws_frame, Team.ws_frame t]

theorem ftest_holds {h : Hdr} {p : PReg} {b : SReg} {r : Ring} {s : State} {c slot : Nat} {t : Team} (hs : slot < 16)
    (w : TeamIssues (.ftest h p b) h s c slot t) (h0 : t.adm h ≠ 0) (hr : Claims.RingReady s c t (t.rs b) false false Ring.rd r)
    (hof : s.teamOf t.uid = some (tkey c slot, t)) :
    ∃ s', exec (.ftest h p b) s = .next s' ∧ Claims.UnitFrame s s' c slot ∧ s'.ops = s.ops ∧ s'.stks = s.stks ∧
      s'.accs = (if s.slotDone (t.who c) r then Claims.noFills s c else s.accs) ∧ (∀ q, s'.memGet q = s.memGet q) ∧
      Claims.Goes s c slot t (t.wp p (t.adm h) (if s.slotDone (t.who c) r then t.adm h else 0)) s' := by
  generalize hd : s.slotDone (t.who c) r = d
  generalize ht1 : t.wp p (t.adm h) (if d then t.adm h else 0) = t1
  have hv : t1.vmap = t.vmap := by
    rw [← ht1, Team.wp_frame]
  have hu : t1.uid = t.uid := by
    rw [← ht1, Team.wp_frame]
  have hexec : exec (.ftest h p b) s = .next (settleTeam (.ftest h p b) h s c slot t (.done
      (if d then (s.setTeam c slot t1).acquired c t.uid else (s.setTeam c slot t1).killLoads c slot))) := by
    refine runTeam_eff w ((if_neg h0).trans ((withRing_ready hr _).trans ?_)) nofun
    rw [show s.slotDone (t.x s c slot h).who r = d from hd, show (t.x s c slot h).c = c from rfl, show (t.x s c slot h).slot = slot from rfl]
    dsimp only
    rw [modTeam_eq_setTeam _ w.2.1, show t.wp p (t.x s c slot h).adm (if d then (t.x s c slot h).adm else 0) = t1 from ht1]
    rfl
  refine ⟨_, hexec, ?_⟩
  cases d with
  | true =>
    rw [if_pos rfl, if_pos rfl]
    obtain ⟨hf, ho, hk, hm, hg, ha⟩ := acquire_set (i := .ftest h p b) (h := h) hs w.2.1 hof hv hu rfl
    exact ⟨hf, ho, hk, ha.1, hm, hg⟩
  | false =>
    rw [if_neg Bool.false_ne_true, if_neg Bool.false_ne_true]
    obtain ⟨hf, hg, hrest, -⟩ := unit_killed (i := .ftest h p b) (h := h) (t := t) hs (UnitFrame.setTeam (t1 := t1) hs w.2.1 hv)
      (State.team_setTeam_same s c slot t1) rfl
    refine ⟨hf, ?_, ?_, ?_, fun q => ?_, hg⟩
    · rw [hrest]; rfl
    · rw [hrest]; rfl
    · rw [hrest]; rfl
    · rw [hrest]; rfl

/-! FREL (R279, R317). -/

theorem exec_frel {h : Hdr} {b : SReg} {r : Ring} {s : State} {c slot : Nat} {t : Team} (w : TeamIssues (.frel h b) h s c slot t)
    (h0 : t.adm h ≠ 0) (hr : Claims.RingReady s c t (t.rs b) true false Ring.rd r) (hd : s.slotDone (t.who c) r = true) :
    exec (.frel h b) s = .next (settleTeam (.frel h b) h s c slot t (.done
      ((s.changeAt ((t.x s c slot h).unit s) (.atomic .add 0 false 1 0) (r.key + 0x10) r.cls (toLe 4 (inc32 r.rd))).killLoads c slot))) := by
  refine runTeam_eff w ((if_neg h0).trans ((withRing_ready hr _).trans ?_)) nofun
  rw [show s.slotDone (t.x s c slot h).who r = true from hd, if_neg (by decide)]
  rfl

/-- FREL of a slot that is not complete traps QFAULT. -/
theorem frel_pending {h : Hdr} {b : SReg} {r : Ring} {s : State} {c slot : Nat} {t : Team} (w : TeamIssues (.frel h b) h s c slot t)
    (h0 : t.adm h ≠ 0) (hr : Claims.RingReady s c t (t.rs b) true false Ring.rd r) (hd : s.slotDone (t.who c) r = false) :
    exec (.frel h b) s = .next (s.takeTrap c slot { t with wait := none } .qfault 0 t.pc) := by
  refine runTeam_eff (r := .trap .qfault 0) w ((if_neg h0).trans ((withRing_ready hr _).trans ?_)) nofun
  rw [show s.slotDone (t.x s c slot h).who r = false from hd]
  rfl

theorem frel_steps {h : Hdr} {b : SReg} {r : Ring} {s : State} {c slot : Nat} {t : Team} (hs : slot < 16) (w : TeamIssues (.frel h b) h s c slot t)
    (h0 : t.adm h ≠ 0) (hr : Claims.RingReady s c t (t.rs b) true false Ring.rd r) (hk : Claims.Home s (r.key + 0x10))
    (hd : s.slotDone (t.who c) r = true) (hh : s.objHeld r 0x10 4 ((r.rd + 1) % 2 ^ 32) = []) (ho : s.outstanding t.uid = false) :
    ∃ s', exec (.frel h b) s = .next s' ∧ Claims.UnitFrame s s' c slot ∧ s'.ops = s.ops ∧ s'.stks = s.stks ∧ s'.accs = s.accs ∧
      Claims.Goes s c slot t t s' ∧ ∀ q, s'.memGet q = Claims.laid s.memGet (r.key + 0x10) (toLe 4 ((r.rd + 1) % 2 ^ 32)) q := by
  refine ⟨_, exec_frel w h0 hr hd, ?_⟩
  have hheld : s.unitHeld (r.key + 0x10) (toLe 4 (inc32 r.rd)) = false := objHeld_nil hh
  rw [changeAt_home _ _ _ hk hheld (behind_of_outstanding ho ..)]
  have hw := wrote_putWord ((t.x s c slot h).unit s) r.cls hk hheld ho
  generalize s.putWord ((t.x s c slot h).unit s) (r.key + 0x10) r.cls (toLe 4 (inc32 r.rd)) = m at hw ⊢
  obtain ⟨hu, hg, hrest, -⟩ := unit_killed (i := .frel h b) (h := h) hs (hw.unit c slot) (t := t)
    (by unfold State.team?; rw [hw.homed.teams]; exact w.2.1) rfl
  refine ⟨hu, ?_, ?_, ?_, hg, fun q => ?_⟩
  · rw [hrest]; exact hw.homed.ops
  · rw [hrest]; exact hw.homed.stks
  · rw [hrest]; exact hw.homed.accs
  · rw [hrest]; exact hw.mem q

theorem frel_waits {h : Hdr} {b : SReg} {r : Ring} {s : State} {c slot : Nat} {t : Team} (hs : slot < 16) (w : TeamIssues (.frel h b) h s c slot t)
    (h0 : t.adm h ≠ 0) (hr : Claims.RingReady s c t (t.rs b) true false Ring.rd r)
    (hd : s.slotDone (t.who c) r = true) (hh : s.objHeld r 0x10 4 ((r.rd + 1) % 2 ^ 32) ≠ []) :
    ∃ s' q, exec (.frel h b) s = .next s' ∧ Claims.UnitFrame s s' c slot ∧ s'.ops = s.ops ∧ s'.stks = s.stks ∧ s'.accs = s.accs ++ [q] ∧
      q.kind = .atomic .add 0 false 1 0 ∧ q.key = r.key + 0x10 ∧ q.len = 4 ∧ q.uid = t.uid ∧ q.ofUnit = true ∧ q.held = true ∧
      Claims.Goes s c slot t t s' ∧ ∀ k, s'.memGet k = s.memGet k := by
  have hheld : s.unitHeld (r.key + 0x10) (toLe 4 (inc32 r.rd)) = true := by
    unfold State.objHeld at hh
    split at hh
    · next hx => exact hx
    · exact absurd rfl hh
  obtain ⟨hlt, hloc⟩ : r.key + 0x10 < 2 ^ 56 ∧ s.local_ (r.key + 0x10) = true := by
    unfold State.unitHeld at hheld
    simp only [Bool.and_eq_true, decide_eq_true_eq] at hheld
    exact hheld.1
  refine ⟨_, { ((t.x s c slot h).unit s).access (.atomic .add 0 false 1 0) s.seq (r.key + 0x10) r.cls 4 true with id := s.seq }, exec_frel w h0 hr hd, ?_⟩
  rw [changeAt_later _ _ _ hlt fun _ => .inl hheld, if_pos hloc, length_toLe]
  have hf : Claims.UnitFrame s (s.addAccess (((t.x s c slot h).unit s).access (.atomic .add 0 false 1 0) s.seq (r.key + 0x10) r.cls 4 true)) c slot :=
    unitFrame_of_rest rfl (fun _ _ => rfl) rfl rfl (WalksOn.of_eq rfl)
  obtain ⟨hu, hg, hrest, -⟩ := unit_killed (i := .frel h b) (h := h) (t := t) hs hf w.2.1 rfl
  refine ⟨hu, ?_, ?_, ?_, rfl, rfl, rfl, rfl, ?_, rfl, hg, fun k => ?_⟩
  · rw [hrest]; rfl
  · rw [hrest]; rfl
  · rw [hrest]; rfl
  · show decide (65536 ≤ unitCore s.pkg) = true
    unfold unitCore
    exact decide_eq_true (Nat.le_add_right ..)
  · rw [hrest]; rfl

/-- Settles O40: the writes of RING and FREL that need not wait are made at home, one after the other, and FWAIT and FTEST acquire. -/
theorem ringCommands : Obligations.RingCommands := by
  unfold Obligations.RingCommands
  refine ⟨?_, ?_, ?_, ?_⟩
  · intro h a b nm1 sp addr k cls ps s c slot t
    dsimp only
    intro hs w h0 hh hob hps hal howes hold hheld hhp ho hk hp
    exact ring_holds hs w h0 hh hob hps hal howes hold hheld hhp ho hk hp
  · intro h a b nt r s c slot t
    dsimp only
    intro hs w h0 hr hof hd hnt
    obtain ⟨s', he, hf, ho, hk, hm, hg, ha⟩ := fwait_holds hs w h0 hr hof hd hnt
    exact ⟨s', he, hf, ho, hk, hm, ha.1, hg, ha.2⟩
  · intro h b r s c slot t hs w h0 hr hk
    exact ⟨frel_waits hs w h0 hr, frel_pending w h0 hr, frel_steps hs w h0 hr hk⟩
  · intro h p b r s c slot t hs w h0 hr hof
    exact ftest_holds hs w h0 hr hof

end Sys2Proof.Proofs

end

section
/-! R258, R262 to R265: COPY, COPYM, CHAIN and COPY.R put an operation in flight. -/

open Sys2Proof Sys2Proof.Machine

namespace Sys2Proof.Proofs

/-! Counts of directory entries (R182). -/

theorem countEntry_dir (c : Core) (k : Nat) (up : Bool) : c.countEntry k up = { c with dir := (c.countEntry k up).dir } := by
  unfold Core.countEntry
  split
  · rfl
  · next e _ =>
    dsimp only
    generalize (if up = true then e.count + 1 else e.count - 1) = n
    split <;> rfl

theorem find_countEntry (c : Core) (k j : Nat) : (c.countEntry k true).dir.find j =
    (c.dir.find j).map fun e => if j = k then { e with count := e.count + 1 } else e := by
  unfold Core.countEntry
  cases hk : c.dir.find k with
  | none =>
    by_cases hj : j = k
    · rw [hj, hk]
      rfl
    · simp [hj]
  | some e =>
    dsimp only
    rw [if_pos rfl, if_neg (by simp)]
    dsimp only
    rw [Tbl.find_put]
    by_cases hj : j = k
    · rw [if_pos hj, hj, hk]
      simp
    · rw [if_neg hj]
      simp [hj]

theorem countEntries_dir (ents : List Nat) (up : Bool) (c : Core) : ents.foldl (fun c k => c.countEntry k up) c =
    { c with dir := (ents.foldl (fun c k => c.countEntry k up) c).dir } := by
  induction ents generalizing c with
  | nil => rfl
  | cons k ents ih =>
    rw [List.foldl_cons, ih]
    rw [countEntry_dir]

theorem find_countEntries (ents : List Nat) (c : Core) (j : Nat) : (ents.foldl (fun c k => c.countEntry k true) c).dir.find j =
    (c.dir.find j).map fun e => { e with count := e.count + ents.count j } := by
  induction ents generalizing c with
  | nil =>
    show c.dir.find j = _
    cases c.dir.find j <;> rfl
  | cons k ents ih =>
    rw [List.foldl_cons, ih, find_countEntry, Option.map_map]
    congr 1
    funext e
    by_cases hj : j = k
    · subst hj
      simp [Nat.add_assoc, Nat.add_comm 1]
    · simp [hj, List.count_cons, Ne.symm hj]

/-! An operation is issued. -/

/-- The state with an operation issued, before the team's load entries are killed. -/
def opIssued (m : State) (c : Nat) (o : Op) : State :=
  State.tickSeq { (m.modCore c fun c => o.ents.foldl (fun c k => c.countEntry k true) c) with ops := m.ops ++ [o] }

theorem core_opIssued (m : State) (c : Nat) (o : Op) (d : Nat) : (opIssued m c o).core d =
    if d = c then o.ents.foldl (fun c k => c.countEntry k true) (m.core c) else m.core d := 
  State.core_modCore m c d fun c => o.ents.foldl (fun c k => c.countEntry k true) c

theorem unitFrame_opIssued (m : State) (c slot : Nat) (o : Op) : Claims.UnitFrame m (opIssued m c o) c slot := by
  refine unitFrame_of_rest rfl (fun d hd => ?_) ?_ rfl (WalksOn.of_eq rfl)
  · rw [core_opIssued, if_neg hd]
  · rw [core_opIssued, if_pos rfl, countEntries_dir]

/-- An operation as it is issued. -/
def newOp (id : Nat) (k : OpK) (w : Who) (depth : Nat) (ring : W64) (sl : Nat) (rd wr : Option (Option Foot)) (views : List View) : Op :=
  { id := id, kind := k, who := w, depth := depth, fork := id, ring := ring, slot := sl, reads := rd, writes := wr,
    ents := views.filterMap View.entry, stop := false }

theorem launchOp_eq (s m : State) (c slot : Nat) (t : Team) (h : Hdr) (k : OpK) (ring : W64) (sl : Nat) (rd wr : Option (Option Foot))
    (views : List View) : (t.x s c slot h).launchOp m k ring sl rd wr views =
      (opIssued m c (newOp m.seq k (t.who c) t.depth ring sl rd wr views)).killLoads c slot := rfl

theorem team_opIssued (m : State) (c : Nat) (o : Op) (d k : Nat) : (opIssued m c o).team? d k = m.team? d k := by
  unfold State.team?
  rfl

/-- A team that has issued an operation goes on. -/
theorem issue_done {i : Instr} {h : Hdr} {s m : State} {c slot : Nat} {t t1 : Team} {k : OpK} {ring : W64} {sl : Nat} {rd wr : Option (Option Foot)}
    {views : List View} (hs : slot < 16) (hu : Claims.UnitFrame s m c slot) (ht : m.team? c slot = some t1) (hseq : m.seq = s.seq)
    (hops : m.ops = s.ops) {s' : State}
    (hs' : settleTeam i h s c slot t (.done ((t.x s c slot h).launchOp m k ring sl rd wr views)) = s') :
    Claims.UnitFrame s s' c slot ∧ s'.stks = m.stks ∧ s'.accs = m.accs ∧ Claims.Goes s c slot t t1 s' ∧ (∀ q, s'.memGet q = m.memGet q) ∧
      Claims.Issued s s' c t ring sl k ∧
      ∀ j, (s'.core c).dir.find j = ((m.core c).dir.find j).map fun e => { e with count := e.count + (views.filterMap View.entry).count j } := by
  generalize ho : newOp m.seq k (t.who c) t.depth ring sl rd wr views = o
  rw [launchOp_eq, ho] at hs'
  obtain ⟨hf, hg, hr, hdir⟩ := unit_killed hs (UnitFrame.trans hu (unitFrame_opIssued m c slot o)) ht hs'
  refine ⟨hf, ?_, ?_, hg, fun q => ?_, ⟨o, ?_, ?_⟩, fun j => ?_⟩
  · rw [hr]; rfl
  · rw [hr]; rfl
  · rw [hr]; rfl
  · rw [hr, ← hops]; rfl
  · subst ho
    exact ⟨rfl, hseq, hseq, rfl, rfl, rfl, rfl, rfl, rfl, rfl⟩
  · rw [hdir, core_opIssued, if_pos rfl, find_countEntries]
    subst ho
    rfl

/-- A form that a leader issues. -/
theorem runTeam_leader {i : Instr} {h : Hdr} {s : State} {c slot : Nat} {t : Team} {eff : X → State → Res} {r : Res} (w : TeamIssues i h s c slot t)
    (hact : popcount t.act = 1) (he : eff (t.x s c slot h) s = r) (hr : ∀ w, r ≠ .short w) :
    runTeam i h (fun _ _ _ => { leader := true }) s eff = .next (settleTeam i h s c slot t r) := by
  subst he
  exact runTeam_eq w rfl nofun (fun _ => hact) hr

/-- A slot is reserved at once. -/
theorem reserving_ready {s : State} {c slot : Nat} {t : Team} {h : Hdr} {r : Ring} {k cls : Nat} (hv : Claims.Reserves s c t r k cls)
    (g : State → Nat → State) : (t.x s c slot h).reserving s r g = .done (g (s.reserve ((t.x s c slot h).unit s) (t.who c) r) r.rsv) := by
  obtain ⟨hfull, -, hheld, -⟩ := hv
  unfold X.reserving
  rw [if_neg (by rw [hfull]; exact Bool.false_ne_true), if_neg]
  · rfl
  · rw [show s.reserveHeld (t.x s c slot h).who r = false from hheld]
    exact Bool.false_ne_true

/-- An operation is issued on a slot that it has reserved. -/
theorem reserved_issue {i : Instr} {h : Hdr} {s : State} {c slot : Nat} {t : Team} {r : Ring} {k cls : Nat} {hd : W64} {kind : OpK}
    {rd wr : Option (Option Foot)} {views : List View} (hs : slot < 16) (ht : s.team? c slot = some t)
    (hr : Claims.RingReady s c t hd true true Ring.rsv r) (hv : Claims.Reserves s c t r k cls) {s' : State}
    (hs' : settleTeam i h s c slot t (.done ((t.x s c slot h).launchOp (s.reserve ((t.x s c slot h).unit s) (t.who c) r) kind hd r.rsv rd wr views)) = s') :
    Claims.UnitFrame s s' c slot ∧ s'.stks = s.stks ∧ s'.accs = s.accs ∧ Claims.Goes s c slot t t s' ∧
      (∀ q, s'.memGet q = Claims.reserved s k r q) ∧ Claims.Issued s s' c t hd r.rsv kind ∧
      ∀ j, (s'.core c).dir.find j = ((s.core c).dir.find j).map fun e => { e with count := e.count + (views.filterMap View.entry).count j } := by
  have hw : Wrote s (s.reserve ((t.x s c slot h).unit s) (t.who c) r) (Claims.reserved s k r) := wrote_reserve (t := t) rfl hr hv
  generalize s.reserve ((t.x s c slot h).unit s) (t.who c) r = m at hw hs'
  have hteam : m.team? c slot = some t := by
    unfold State.team?
    rw [hw.homed.teams]
    exact ht
  obtain ⟨hf, hk, ha, hg, hm, hi, hd⟩ := issue_done hs (hw.unit c slot) hteam hw.homed.seq hw.homed.ops hs'
  refine ⟨hf, hk.trans hw.homed.stks, ha.trans hw.homed.accs, hg, fun q => (hm q).trans (hw.mem q), hi, fun j => ?_⟩
  rw [hd, hw.homed.cores]

/-! COPY and COPY.R (R262, R263). -/

theorem copy_holds {h : Hdr} {a b : WReg} {e : SReg} {r : Ring} {k cls : Nat} {s : State} {c slot : Nat} {t : Team} (hs : slot < 16)
    (w : TeamIssues (.copy h a b e) h s c slot t) (hact : popcount t.act = 1) (h0 : t.adm h ≠ 0)
    (hready : copyReady (t.viewOf a) (t.viewOf b) = true) (hr : Claims.RingReady s c t (t.rs e) true true Ring.rsv r)
    (hv : Claims.Reserves s c t r k cls) :
    ∃ s', exec (.copy h a b e) s = .next s' ∧ Claims.UnitFrame s s' c slot ∧ s'.stks = s.stks ∧ s'.accs = s.accs ∧ Claims.Goes s c slot t t s' ∧
      (∀ q, s'.memGet q = Claims.reserved s k r q) ∧ Claims.Issued s s' c t (t.rs e) r.rsv (.copy (t.viewOf a) (t.viewOf b) 0 0) ∧
      ∀ j, (s'.core c).dir.find j = ((s.core c).dir.find j).map fun x =>
        { x with count := x.count + ([t.viewOf a, t.viewOf b].filterMap View.entry).count j } := by
  refine ⟨_, runTeam_leader (r := .done _) w hact ((if_neg h0).trans ?_) nofun, reserved_issue
    (rd := some ((State.core (s.reserve ((t.x s c slot h).unit s) (t.who c) r) c).footOf (t.viewOf a)))
    (wr := some ((State.core (s.reserve ((t.x s c slot h).unit s) (t.who c) r) c).footOf (t.viewOf b))) hs w.2.1 hr hv rfl⟩
  rw [show copyReady ((t.x s c slot h).src.team.viewOf a) ((t.x s c slot h).src.team.viewOf b) = true from hready, if_pos rfl]
  exact (withRing_ready hr _).trans (reserving_ready hv _)

theorem exec_copyR {h : Hdr} {a b : WReg} {e : SReg} {r : Ring} {s : State} {c slot : Nat} {t : Team} {res : Res} {w0 w1 : Nat}
    (w : TeamIssues (.copyR h a b e) h s c slot t) (hact : popcount t.act = 1) (h0 : t.adm h ≠ 0)
    (hready : copyReady (t.viewOf a) (t.viewOf b) = true) (hr : Claims.RingReady s c t (t.rs e) true true Ring.rd r)
    (hsg : s.slotGet (t.who c) r r.rd = (w0, w1))
    (hres : (if codeOf w1 != codePager && codeOf w1 != codeStopped then .trap .qfault 0
      else if !(s.slotHeld (t.who c) r r.rd w0 (w1 % 2 ^ 57 + pendingWord)).isEmpty then .hold
      else .done ((t.x s c slot h).launchOp (s.slotPut ((t.x s c slot h).unit s) (t.who c) r r.rd w0 (w1 % 2 ^ 57 + pendingWord))
        (.copy (t.viewOf a) (t.viewOf b) (fld w0 32 32) (fld w0 0 32)) (t.rs e) r.rd (some ((s.core c).footOf (t.viewOf a)))
        (some ((s.core c).footOf (t.viewOf b))) [t.viewOf a, t.viewOf b])) = res) (hnot : ∀ w, res ≠ .short w) :
    exec (.copyR h a b e) s = .next (settleTeam (.copyR h a b e) h s c slot t res) := by
  refine runTeam_leader w hact ((if_neg h0).trans ?_) hnot
  rw [show copyReady ((t.x s c slot h).src.team.viewOf a) ((t.x s c slot h).src.team.viewOf b) = true from hready, if_pos rfl]
  refine (withRing_ready hr _).trans ?_
  rw [show s.slotGet (t.x s c slot h).who r r.rd = _ from hsg]
  exact hres

theorem copyR_traps {h : Hdr} {a b : WReg} {e : SReg} {r : Ring} {s : State} {c slot : Nat} {t : Team}
    (w : TeamIssues (.copyR h a b e) h s c slot t) (hact : popcount t.act = 1) (h0 : t.adm h ≠ 0)
    (hready : copyReady (t.viewOf a) (t.viewOf b) = true) (hr : Claims.RingReady s c t (t.rs e) true true Ring.rd r)
    (h1 : codeOf (s.slotGet (t.who c) r r.rd).2 ≠ 1) (h5 : codeOf (s.slotGet (t.who c) r r.rd).2 ≠ 5) :
    exec (.copyR h a b e) s = .next (s.takeTrap c slot { t with wait := none } .qfault 0 t.pc) := by
  refine exec_copyR (res := .trap .qfault 0) w hact h0 hready hr rfl (if_pos ?_) nofun
  simp only [Bool.and_eq_true, bne_iff_ne]
  exact ⟨h1, h5⟩

theorem copyR_issues {h : Hdr} {a b : WReg} {e : SReg} {r : Ring} {k cls : Nat} {s : State} {c slot : Nat} {t : Team} (hs : slot < 16)
    (w : TeamIssues (.copyR h a b e) h s c slot t) (hact : popcount t.act = 1) (h0 : t.adm h ≠ 0)
    (hready : copyReady (t.viewOf a) (t.viewOf b) = true) (hr : Claims.RingReady s c t (t.rs e) true true Ring.rd r) {w0 w1 : Nat}
    (hsg : s.slotGet (t.who c) r r.rd = (w0, w1)) (hcode : codeOf w1 = 1 ∨ codeOf w1 = 5)
    (hslot : s.slotAt (t.who c) r r.rd true = .ok k cls) (hk : Claims.Home s k)
    (hh : s.slotHeld (t.who c) r r.rd w0 (w1 % 2 ^ 57 + pendingWord) = []) (ho : s.outstanding t.uid = false) :
    ∃ s', exec (.copyR h a b e) s = .next s' ∧ Claims.UnitFrame s s' c slot ∧ s'.stks = s.stks ∧ s'.accs = s.accs ∧ Claims.Goes s c slot t t s' ∧
      (∀ q, s'.memGet q = Claims.laid s.memGet k (slotBytes w0 (w1 % 2 ^ 57 + pendingWord)) q) ∧
      Claims.Issued s s' c t (t.rs e) r.rd (.copy (t.viewOf a) (t.viewOf b) (fld w0 32 32) (fld w0 0 32)) := by
  have hcan : ¬ (codeOf w1 != codePager && codeOf w1 != codeStopped) = true := by
    simp only [Bool.and_eq_true, bne_iff_ne]
    rintro ⟨h1, h5⟩
    exact hcode.elim h1 h5
  refine ⟨_, exec_copyR w hact h0 hready hr hsg ((if_neg hcan).trans (if_neg ?_)) nofun, ?_⟩
  · rw [hh]
    exact Bool.false_ne_true
  have hw := wrote_slotPut ((t.x s c slot h).unit s) hslot hh hk ho
  generalize s.slotPut ((t.x s c slot h).unit s) (t.who c) r r.rd w0 (w1 % 2 ^ 57 + pendingWord) = m at hw ⊢
  obtain ⟨hf, hks, ha, hg, hm, hi, -⟩ := issue_done (i := .copyR h a b e) (h := h) (t := t) (k := .copy (t.viewOf a) (t.viewOf b) (fld w0 32 32) (fld w0 0 32))
    (ring := t.rs e) (sl := r.rd) (rd := some ((s.core c).footOf (t.viewOf a))) (wr := some ((s.core c).footOf (t.viewOf b)))
    (views := [t.viewOf a, t.viewOf b]) hs (hw.unit c slot) (by unfold State.team?; rw [hw.homed.teams]; exact w.2.1) hw.homed.seq hw.homed.ops rfl
  exact ⟨hf, hks.trans hw.homed.stks, ha.trans hw.homed.accs, hg, fun q => (hm q).trans (hw.mem q), hi⟩

/-! CHAIN (R265). -/

/-- The stack's channel takes a record's address. -/
def chanSet (m : State) (c ch head : Nat) : State := m.modStk (stackOf c) fun k => { k with chan := k.chan.put ch (chanWord true head) }

theorem stk_chanSet (m : State) (c ch head d : Nat) : (chanSet m c ch head).stk d =
    if d = stackOf c then { m.stk d with chan := (m.stk d).chan.put ch (chanWord true head) } else m.stk d := by
  refine (Tbl.get_put ..).trans ?_
  split
  · next hd => rw [hd]
  · rfl

theorem exec_chain {h : Hdr} {a b e : SReg} {r : Ring} {k cls : Nat} {s : State} {c slot : Nat} {t : Team}
    (w : TeamIssues (.chain h a b e) h s c slot t) (hact : popcount t.act = 1) (h0 : t.adm h ≠ 0) (hch : (t.rs b).toNat < 128)
    (hal : (t.rs a).toNat % 64 = 0) (hfree : ((s.stk (stackOf c)).chan.get 0 (t.rs b).toNat).getLsbD 63 = false)
    (hr : Claims.RingReady s c t (t.rs e) true true Ring.rsv r) (hv : Claims.Reserves s c t r k cls) :
    exec (.chain h a b e) s = .next (settleTeam (.chain h a b e) h s c slot t (.done ((t.x s c slot h).launchOp
      (chanSet (s.reserve ((t.x s c slot h).unit s) (t.who c) r) c (t.rs b).toNat (t.rs a).toNat) (.chain (t.rs b).toNat (t.rs a).toNat 0 0) (t.rs e) r.rsv
      (some none) (some none) []))) := by
  refine runTeam_leader w hact ((if_neg h0).trans ?_) nofun
  have hbad : (if 128 ≤ ((t.x s c slot h).src.team.rs b).toNat then some (Res.trap .qfault 0) else none) = none :=
    if_neg (Nat.not_le.2 hch)
  have hmis : misOf 64 ((t.x s c slot h).src.team.rs a).toNat = none := if_pos hal
  rw [hbad, hmis]
  refine (withRing_ready hr _).trans ((if_neg ?_).trans (reserving_ready hv _))
  rw [show ((s.stk (stackOf (t.x s c slot h).c)).chan.get 0 ((t.x s c slot h).src.team.rs b).toNat).getLsbD 63 = false from hfree]
  exact Bool.false_ne_true

theorem chain_holds {h : Hdr} {a b e : SReg} {r : Ring} {k cls : Nat} {s : State} {c slot : Nat} {t : Team} (hs : slot < 16)
    (w : TeamIssues (.chain h a b e) h s c slot t) (hact : popcount t.act = 1) (h0 : t.adm h ≠ 0) (hch : (t.rs b).toNat < 128)
    (hal : (t.rs a).toNat % 64 = 0) (hfree : ((s.stk (stackOf c)).chan.get 0 (t.rs b).toNat).getLsbD 63 = false)
    (hr : Claims.RingReady s c t (t.rs e) true true Ring.rsv r) (hv : Claims.Reserves s c t r k cls) :
    ∃ s', exec (.chain h a b e) s = .next s' ∧ Claims.UnitFrame s s' c slot ∧ s'.accs = s.accs ∧ Claims.Goes s c slot t t s' ∧
      (∀ q, s'.memGet q = Claims.reserved s k r q) ∧ Claims.Issued s s' c t (t.rs e) r.rsv (.chain (t.rs b).toNat (t.rs a).toNat 0 0) ∧
      ∀ d, s'.stk d = if d = stackOf c then { s.stk d with chan := (s.stk d).chan.put (t.rs b).toNat (chanWord true (t.rs a).toNat) } else s.stk d := by
  refine ⟨_, exec_chain w hact h0 hch hal hfree hr hv, ?_⟩
  have hw : Wrote s (s.reserve ((t.x s c slot h).unit s) (t.who c) r) (Claims.reserved s k r) := wrote_reserve (t := t) rfl hr hv
  generalize s.reserve ((t.x s c slot h).unit s) (t.who c) r = m at hw ⊢
  have hset : Claims.UnitFrame m (chanSet m c (t.rs b).toNat (t.rs a).toNat) c slot :=
    unitFrame_of_rest rfl (fun _ _ => rfl) rfl rfl (WalksOn.of_eq rfl)
  have hteam : (chanSet m c (t.rs b).toNat (t.rs a).toNat).team? c slot = some t := by
    show m.teams.find _ = _
    rw [hw.homed.teams]
    exact w.2.1
  have hstk := stk_chanSet m c (t.rs b).toNat (t.rs a).toNat
  have hsame : (chanSet m c (t.rs b).toNat (t.rs a).toNat).accs = s.accs := hw.homed.accs
  have hmem (q : Nat) : (chanSet m c (t.rs b).toNat (t.rs a).toNat).memGet q = Claims.reserved s k r q := hw.mem q
  have hseq : (chanSet m c (t.rs b).toNat (t.rs a).toNat).seq = s.seq := hw.homed.seq
  have hops : (chanSet m c (t.rs b).toNat (t.rs a).toNat).ops = s.ops := hw.homed.ops
  have hframe := UnitFrame.trans (hw.unit c slot) hset
  generalize chanSet m c (t.rs b).toNat (t.rs a).toNat = n at hframe hteam hstk hsame hmem hseq hops ⊢
  obtain ⟨hf, hks, ha, hg, hm, hi, -⟩ := issue_done (i := .chain h a b e) (h := h) (t := t) (k := .chain (t.rs b).toNat (t.rs a).toNat 0 0)
    (ring := t.rs e) (sl := r.rsv) (rd := some none) (wr := some none) (views := []) hs hframe hteam hseq hops rfl
  refine ⟨hf, ha.trans hsame, hg, fun q => (hm q).trans (hmem q), hi, fun d => ?_⟩
  have hsm : m.stk d = s.stk d := by
    unfold State.stk
    rw [hw.homed.stks]
  unfold State.stk at hstk hsm ⊢
  rw [hks, hstk, hsm]

/-! COPYM (R264). -/

/-- The last words of a COPYM's command are zero (R264). -/
theorem copym_tail {cmd : List Byte} (hw : ∀ j, j < 4 → le64 cmd (0x20 + 8 * j) = 0) :
    (List.range 4).any (fun k => le64 cmd (0x20 + 8 * k) != 0) = false := by
  refine List.any_eq_false.2 fun j hj => ?_
  rw [hw j (List.mem_range.1 hj)]
  decide

/-- The space of a COPYM's destinations. -/
def copymSpace (cmd : List Byte) : Option Space := match fld (le64 cmd 0) 61 3 with | 0 => some .glob | 4 => some .bcamp | _ => none

/-- What is wrong with a COPYM's command and source. -/
def copymBad (v : View) (cmd : List Byte) : Bool :=
  (copymSpace cmd).isNone || fld (le64 cmd 0) 57 4 != 0 || fld (le64 cmd 0x18) 5 59 != 0 ||
    (List.range 4).any (fun k => le64 cmd (0x20 + 8 * k) != 0) || !v.valid ||
    v.total < le32 cmd 0x10 + (fld (le64 cmd 0x18) 0 5 + 1) * le32 cmd 0x14

/-- COPYM of a command in pack. -/
def copymWith (v : View) (off : Nat) (ring : W64) (cmd : List Byte) (x : X) (s : State) : Res :=
  x.withRing s ring true true Ring.rsv (if (off % 64 = 0 && copymBad v cmd) || !v.valid then some (.trap .illegalDesc 0) else none)
    (misOf 64 off <|> misOf (2 ^ v.desc.esize) (fld (le64 cmd 0) 0 57) <|> misOf (2 ^ v.desc.esize) (le64 cmd 8)) fun r =>
      x.reserving s r fun s slot =>
        x.launchOp s (.copym v ((copymSpace cmd).getD .glob) (fld (le64 cmd 0) 0 57) (sgn 64 (le64 cmd 8)) (le32 cmd 0x14) (le32 cmd 0x10)
          (fld (le64 cmd 0x18) 0 5 + 1)) ring slot (some ((s.core x.c).footOf v)) (some none) [v]

/-- Whether a write of the team to a COPYM's command is in flight. -/
def copymWaits (s : State) (uid key : Nat) : Bool :=
  s.accs.any fun q => q.uid == uid && !q.isRead && q.key < key + 64 && key < q.key + q.len

theorem exec_copym_eq (h : Hdr) (a : WReg) (b e : SReg) (s : State) : exec (.copym h a b e) s =
    runTeam (.copym h a b e) h (fun _ _ _ => { leader := true }) s fun x s =>
      if x.adm = 0 then .done s
      else if x.team.hdr.packBytes < (x.src.team.rs b).toNat + 64 then .fatal .prot (BitVec.ofNat 64 (x.src.team.rs b).toNat)
      else if copymWaits s x.team.uid (packKey x.team.blk (x.src.team.rs b).toNat) then .hold
      else copymWith (x.src.team.viewOf a) (x.src.team.rs b).toNat (x.src.team.rs e) (s.memRead (packKey x.team.blk (x.src.team.rs b).toNat) 64) x s := rfl

theorem copymSpace_eq {cmd : List Byte} {sp : Space} (h : fld (le64 cmd 0) 61 3 = 0 ∧ sp = .glob ∨ fld (le64 cmd 0) 61 3 = 4 ∧ sp = .bcamp) :
    copymSpace cmd = some sp := by
  unfold copymSpace
  rcases h with ⟨hf, rfl⟩ | ⟨hf, rfl⟩ <;> rw [hf] <;> rfl

theorem copymWith_issues {v : View} {off : Nat} {e : SReg} {cmd : List Byte} {sp : Space} {r : Ring} {k cls : Nat} {h : Hdr} {s : State}
    {c slot : Nat} {t : Team} (hal : off % 64 = 0) (hvalid : v.valid = true)
    (htot : le32 cmd 0x10 + (fld (le64 cmd 0x18) 0 5 + 1) * le32 cmd 0x14 ≤ v.total)
    (hsp : fld (le64 cmd 0) 61 3 = 0 ∧ sp = .glob ∨ fld (le64 cmd 0) 61 3 = 4 ∧ sp = .bcamp) (hz : fld (le64 cmd 0) 57 4 = 0)
    (hz1 : fld (le64 cmd 0x18) 5 59 = 0) (hz2 : ∀ j, j < 4 → le64 cmd (0x20 + 8 * j) = 0) (hd : fld (le64 cmd 0) 0 57 % 2 ^ v.desc.esize = 0)
    (hst : le64 cmd 8 % 2 ^ v.desc.esize = 0) (hr : Claims.RingReady s c t (t.rs e) true true Ring.rsv r) (hv : Claims.Reserves s c t r k cls) :
    copymWith v off (t.rs e) cmd (t.x s c slot h) s = .done ((t.x s c slot h).launchOp (s.reserve ((t.x s c slot h).unit s) (t.who c) r)
      (.copym v sp (fld (le64 cmd 0) 0 57) (sgn 64 (le64 cmd 8)) (le32 cmd 0x14) (le32 cmd 0x10) (fld (le64 cmd 0x18) 0 5 + 1)) (t.rs e) r.rsv
      (some ((State.core (s.reserve ((t.x s c slot h).unit s) (t.who c) r) c).footOf v)) (some none) [v]) := by
  have hsp := copymSpace_eq hsp
  have hgood : copymBad v cmd = false := by
    unfold copymBad
    rw [hsp, hz, hz1, hvalid, copym_tail hz2]
    simpa using htot
  have hmis : (misOf 64 off <|> misOf (2 ^ v.desc.esize) (fld (le64 cmd 0) 0 57) <|> misOf (2 ^ v.desc.esize) (le64 cmd 8)) = none := by
    unfold misOf
    rw [if_pos hal, if_pos hd, if_pos hst]
    rfl
  unfold copymWith
  rw [hmis, hgood, hvalid, hsp]
  rw [if_neg (by simp)]
  exact (withRing_ready hr _).trans (reserving_ready hv _)

/-- Settles O41: each form issues its operation on a ring's slot once that slot is reserved, or, for COPY.R, marked pending again. -/
theorem enginesIssue : Obligations.EnginesIssue := by
  unfold Obligations.EnginesIssue
  refine ⟨?_, ?_, ?_, ?_⟩
  · intro h a b e r k cls s c slot t hs w hact h0 hready hr hv
    exact copy_holds hs w hact h0 hready hr hv
  · intro h a b e r k cls s c slot t
    dsimp only
    intro hs w hact h0 hready hr
    exact ⟨copyR_traps w hact h0 hready hr, fun hcode hslot hk hh ho => copyR_issues hs w hact h0 hready hr rfl hcode hslot hk hh ho⟩
  · intro h a b e sp r k cls s c slot t
    dsimp only
    intro hs w hact h0 hpack hal hfree hvalid htot hsp hz hz1 hz2 hd hst hr hv
    obtain ⟨hf, hk, ha, hg, hm, hi, -⟩ := reserved_issue (i := .copym h a b e) (h := h) (hd := t.rs e)
      (kind := .copym (t.viewOf a) sp (fld (le64 (s.memRead (packKey t.blk (t.rs b).toNat) 64) 0) 0 57)
        (sgn 64 (le64 (s.memRead (packKey t.blk (t.rs b).toNat) 64) 8)) (le32 (s.memRead (packKey t.blk (t.rs b).toNat) 64) 0x14)
        (le32 (s.memRead (packKey t.blk (t.rs b).toNat) 64) 0x10) (fld (le64 (s.memRead (packKey t.blk (t.rs b).toNat) 64) 0x18) 0 5 + 1))
      (rd := some ((State.core (s.reserve ((t.x s c slot h).unit s) (t.who c) r) c).footOf (t.viewOf a))) (wr := some none)
      (views := [t.viewOf a]) hs w.2.1 hr hv rfl
    refine ⟨_, (exec_copym_eq h a b e s).trans (runTeam_leader w hact ((if_neg h0).trans ((if_neg (Nat.not_lt.2 hpack)).trans ((if_neg ?_).trans
      (copymWith_issues hal hvalid htot hsp hz hz1 hz2 hd hst hr hv)))) nofun), hf, hk, ha, hg, hm, hi⟩
    rw [Bool.not_eq_true]
    refine List.any_eq_false.2 fun q hq hx => ?_
    simp only [Bool.and_eq_true, beq_iff_eq, Bool.not_eq_true', decide_eq_true_eq] at hx
    obtain ⟨⟨⟨hu, hread⟩, hlt⟩, hgt⟩ := hx
    have := hfree q hq hu hread
    change q.key < packKey t.blk (t.rs b).toNat + 64 at hlt
    change packKey t.blk (t.rs b).toNat < q.key + q.len at hgt
    omega
  · intro h a b e r k cls s c slot t
    dsimp only
    intro hs w hact h0 hch hal hfree hr hv
    obtain ⟨s', he, hf, ha, hg, hm, hi, hstk⟩ := chain_holds hs w hact h0 hch hal hfree hr hv
    refine ⟨s', he, hf, ha, hg, hm, hi, fun d hd => by rw [hstk, if_neg hd], ?_, fun d => ?_⟩
    · rw [hstk, if_pos rfl]
    · rw [hstk, if_pos rfl]
      exact Tbl.find_put ..

end Sys2Proof.Proofs

end

section
/-! R268, R270 to R272: GATH and SCAT. -/

open Sys2Proof Sys2Proof.Machine

namespace Sys2Proof.Proofs

/-! The walks that an engine asks for (R290). -/

theorem walked_startWalk (s : State) (st core ctx va : Nat) : Claims.Walked s (s.startWalk st core ctx va) := by
  have hw := WalkAside.startWalk s st core ctx va
  have hh : (s.startWalk st core ctx va).parts = s.parts := (Homed.startWalk s st core ctx va).parts
  exact ⟨by rw [hw], fun _ => hh⟩

theorem walked_unitWalks (s : State) (st : Nat) (w : Who) (sp : Space) (as : List Nat) : Claims.Walked s (s.unitWalks st w sp as) := by
  unfold State.unitWalks
  generalize pagesIn sp as = l
  induction l generalizing s with
  | nil => exact walked_refl s
  | cons p l ih =>
    have h1 : Claims.Walked s (s.unitWalk st w.ctx p) := walked_startWalk ..
    exact walked_trans h1 (ih _)

theorem walksOn_unitWalks (s : State) (st : Nat) (w : Who) (sp : Space) (as : List Nat) : WalksOn s (s.unitWalks st w sp as) := by
  unfold State.unitWalks
  generalize pagesIn sp as = l
  induction l generalizing s with
  | nil => exact .of_eq rfl
  | cons p l ih => exact WalksOn.trans (WalksOn.startWalk ..) (ih _)

theorem homed_unitWalks (s : State) (st : Nat) (w : Who) (sp : Space) (as : List Nat) : Homed s (s.unitWalks st w sp as) :=
  .foldl (fun s _ => Homed.startWalk s ..) _ _

theorem memGet_unitWalks (s : State) (st : Nat) (w : Who) (sp : Space) (as : List Nat) (q : Nat) : (s.unitWalks st w sp as).memGet q = s.memGet q := by
  have h : WalkAside s (s.unitWalks st w sp as) := .foldl (fun s _ => WalkAside.startWalk s ..) _ _
  exact h.memGet q

/-! The slices that GATH gives its registers. -/

/-- What the passes of GATH record of the slices they give. -/
def gathStep (x : X) (d : VReg) (n : Nat) (m : Mask) (a : State × List (Nat × List Dest)) (j : Nat) : State × List (Nat × List Dest) :=
  ((a.1.alloc x d n j (maskWord m j)).1, a.2 ++ [(j, (a.1.alloc x d n j (maskWord m j)).2.map Dest.slice)])

theorem gathStep_withPair (x : X) (s : State) (d : VReg) (n : Nat) (m : Mask) (ct : Core × Team) (acc : List (Nat × List Dest)) (j : Nat) :
    gathStep x d n m (withPair s x.c x.slot ct, acc) j = (withPair s x.c x.slot (allocPass d n m ct j),
      acc ++ [(j, (List.range n).map fun k => Dest.slice ((allocPass d n m ct j).2.slice (vregAt d k).val j))]) := by
  unfold gathStep
  rw [alloc_withPair, List.map_map]
  rfl

theorem gathSteps_withPair (x : X) (s : State) (d : VReg) (n : Nat) (m : Mask) (js : List Nat) (hjs : ∀ j ∈ js, j < 32) (hnd : js.Nodup)
    (ct : Core × Team) (acc : List (Nat × List Dest)) : js.foldl (gathStep x d n m) (withPair s x.c x.slot ct, acc) =
      (withPair s x.c x.slot (js.foldl (allocPass d n m) ct),
        acc ++ js.map fun j => (j, (List.range n).map fun k => Dest.slice ((js.foldl (allocPass d n m) ct).2.slice (vregAt d k).val j))) := by
  induction js generalizing ct acc with
  | nil => simp
  | cons j js ih =>
    obtain ⟨hj, hnd'⟩ := List.nodup_cons.1 hnd
    have hjs' : ∀ j ∈ js, j < 32 := fun j hj => hjs j (List.mem_cons_of_mem _ hj)
    rw [List.foldl_cons, gathStep_withPair, ih hjs' hnd', List.foldl_cons, List.map_cons, List.append_assoc]
    simp only [slice_allocPasses d n m js hjs' (hjs j List.mem_cons_self) hj]
    rfl

theorem gathSteps {x : X} {s : State} {t : Team} (ht : s.team? x.c x.slot = some t) (d : VReg) (n : Nat) {m : Mask} (h0 : m ≠ 0) :
    (passes m).foldl (gathStep x d n m) (s, []) = (withPair s x.c x.slot ((passes m).foldl (allocPass d n m) (s.core x.c, t)),
      (passes m).map fun j => (j, (List.range n).map fun k => Dest.slice (((passes m).foldl (allocPass d n m) (s.core x.c, t)).2.slice (vregAt d k).val j))) := by
  have hlt : ∀ j ∈ passes m, j < 32 := fun j hj => List.mem_range.1 (List.mem_filter.1 hj).1
  have hnd : (passes m).Nodup := List.nodup_range.filter _
  have hfirst : (passes m).foldl (gathStep x d n m) (s, []) =
      (passes m).foldl (gathStep x d n m) (withPair s x.c x.slot (s.core x.c, t), []) := by
    cases hp : passes m with
    | nil => exact absurd hp (passes_ne_nil h0)
    | cons j js =>
      rw [List.foldl_cons, List.foldl_cons, gathStep_withPair]
      unfold gathStep State.alloc
      simp only [ht, Option.getD_some, List.map_map]
      rfl
  rw [hfirst, gathSteps_withPair x s d n m _ hlt hnd, List.nil_append]

/-- The registers' new slices change no lane that the mask leaves out, and no other register. -/
theorem allocPasses_lanes (d : VReg) (n : Nat) (m : Mask) {ct : Core × Team} (ok : PairOk ct) :
    ((passes m).foldl (allocPass d n m) ct).2.flagsDue = ct.2.flagsDue ∧
    ∀ (r : VReg) l, l < 1024 → (inMask m l = false ∨ ∀ k, k < n → r ≠ vregAt d k) →
      laneAt ((passes m).foldl (allocPass d n m) ct) r.val (l / 32) (l % 32) = laneAt ct r.val (l / 32) (l % 32) := by
  have hreg (j : Nat) (hj : j < 32) (b : Core × Team) (okb : PairOk b) (ks : List Nat) :
      Grown b (ks.foldl (fun ct k => writePass ct (vregAt d k) j (maskWord m j) 0) b) ∧
      (ks.foldl (fun ct k => writePass ct (vregAt d k) j (maskWord m j) 0) b).2.flagsDue = b.2.flagsDue ∧
      ∀ r i l, i < 32 → l < 32 → ((∃ k ∈ ks, r = (vregAt d k).val ∧ i = j ∧ (maskWord m j).getLsbD l = true) →
          laneAt (ks.foldl (fun ct k => writePass ct (vregAt d k) j (maskWord m j) 0) b) r i l = laneOf 0 l) ∧
        ((∀ k ∈ ks, ¬ (r = (vregAt d k).val ∧ i = j ∧ (maskWord m j).getLsbD l = true)) →
          laneAt (ks.foldl (fun ct k => writePass ct (vregAt d k) j (maskWord m j) 0) b) r i l = laneAt b r i l) := by
    refine lanes_foldl (a := b) (value := fun _ _ l => laneOf 0 l) ks (fun k _ e g => ?_) b (.refl okb)
    obtain ⟨hok, hkept, hcore, hteam, hl⟩ := writePass_spec g.1 (vregAt d k) j hj (maskWord m j) 0
    refine ⟨⟨hok, hkept, ?_, hteam⟩, ?_, fun r i l hi hlt => ?_⟩
    · rw [hcore]
    · simp only [writePass, flagsDue_eq, Team.pointOver, Team.point, flags_cover]
    · rw [hl r i l hi hlt]
      exact ⟨fun h => if_pos h, fun h => if_neg h⟩
  obtain ⟨-, hf, hv⟩ := lanes_foldl (a := ct) (step := allocPass d n m)
    (region := fun j r i l => ∃ k ∈ List.range n, r = (vregAt d k).val ∧ i = j ∧ (maskWord m j).getLsbD l = true)
    (value := fun _ _ l => laneOf 0 l) (passes m)
    (fun j hj b g => by
      obtain ⟨g1, g2, g3⟩ := hreg j (List.mem_range.1 (List.mem_filter.1 hj).1) b g.1 (List.range n)
      exact ⟨g1, g2, fun r i l hi hl => ⟨(g3 r i l hi hl).1, fun h => (g3 r i l hi hl).2 fun k hk hx => h ⟨k, hk, hx⟩⟩⟩) ct (.refl ok)
  refine ⟨hf, fun r l hl h => (hv r.val (l / 32) (l % 32) (by omega) (by omega)).2 fun j hj hr => ?_⟩
  obtain ⟨k, hk, hrk, rfl, hb⟩ := hr
  rcases h with h | h
  · rw [maskWord_bit _ _ _ (by omega), Nat.div_add_mod, h] at hb
    cases hb
  · exact h k (List.mem_range.1 hk) (Fin.ext hrk)

/-! GATH (R270, R271). -/

/-- A team with a predicate that says which lanes' rows can be read. -/
theorem wp_or_same (t : Team) (p : PReg) (m v : Mask) : (if p.val = 0 then t else t.wp p m v) = t.wp p m v := by
  unfold Team.wp
  split <;> rfl

theorem rp_valid (t : Team) (p r : PReg) (m v : Mask) {l : Nat} (hl : l < 1024) (hv : inMask v l = inMask m l) :
    inMask ((t.wp p m v).rp r) l = (inMask (t.rp r) l || decide (r = p) && inMask m l) := by
  rw [Team.rp_wp]
  by_cases hr : r = p
  · subst hr
    by_cases h0 : r.val = 0
    · rw [if_neg (by simp [h0])]
      have hall : inMask (t.rp r) l = true := by
        unfold Team.rp
        rw [if_pos h0]
        unfold inMask
        rw [BitVec.getLsbD_allOnes]
        exact decide_eq_true hl
      rw [hall]
      rfl
    · rw [if_pos ⟨rfl, h0⟩, inMask_blend _ _ _ _ hl, hv]
      cases inMask m l <;> simp
  · rw [if_neg fun h => hr h.1]
    simp [hr]

/-- What the rows of the lanes listed give where all can be read. -/
theorem rows_readable {ls : List Nat} {f : Nat → Option Cause} (h : ∀ l ∈ ls, f l = none) :
    (ls.map fun l => (l, f l)) = ls.map fun l => (l, none) := List.map_congr_left fun l hl => by rw [h l hl]

theorem readable_lanes (ls : List Nat) : (((ls.map fun l => (l, (none : Option Cause))).takeWhile fun f => f.2.isNone).map Prod.fst) = ls := by
  induction ls with
  | nil => rfl
  | cons l ls ih =>
    rw [List.map_cons, List.takeWhile_cons_of_pos rfl, List.map_cons, ih]

/-- A form of the gather engine. -/
theorem runTeam_gather {i : Instr} {h : Hdr} {s : State} {c slot : Nat} {t : Team} {eff : X → State → Res} {r : Res} (w : TeamIssues i h s c slot t)
    (hg : s.hasGather = true) (he : eff (t.x s c slot h) s = r) (hr : ∀ w, r ≠ .short w) :
    runTeam i h (fun _ _ _ => { gather := true }) s eff = .next (settleTeam i h s c slot t r) := by
  subst he
  exact runTeam_eq w rfl (fun _ => hg) nofun hr

theorem lanes_ne_nil {m : Mask} (h : m ≠ 0) : ∃ l ls, lanes m = l :: ls := by
  cases hl : lanes m with
  | nil =>
    obtain ⟨l, hlow⟩ := lowest_isSome h
    rw [lowest, hl] at hlow
    cases hlow
  | cons l ls => exact ⟨l, ls, rfl⟩

/-- GATH's checks of its rows, and what it goes on to with the lanes whose rows can be read. -/
def gathWith (badRb : Bool) (ls : List Nat) (fail : Nat → Option Cause) (row : Nat → Nat) (go : List Nat → Res) (x : X) (s : State) : Res :=
  if ls.isEmpty then .done s
  else
    let fails := ls.map fun l => (l, fail l)
    match fails.head? with
    | some (l, some cause) =>
      let a := row l
      let s := s.unitWalks (stackOf x.c) x.who .glob [a]
      if cause == .prot then .fatalIn s (if s.walkEcc x.who .glob a then .ecc else .prot) (BitVec.ofNat 64 a)
      else if badRb then .trap .illegalDesc 0 else .trapIn s cause (BitVec.ofNat 64 a)
    | _ => if badRb then .trap .illegalDesc 0 else go ((fails.takeWhile fun f => f.2.isNone).map Prod.fst)

theorem gathWith_readable {badRb : Bool} {ls : List Nat} {fail : Nat → Option Cause} (hls : ls ≠ []) (hb : badRb = false)
    (hf : ∀ l ∈ ls, fail l = none) (row : Nat → Nat) (go : List Nat → Res) (x : X) (s : State) : gathWith badRb ls fail row go x s = go ls := by
  subst hb
  unfold gathWith
  rw [rows_readable hf]
  dsimp only
  rw [readable_lanes]
  cases ls with
  | nil => exact absurd rfl hls
  | cons l ls => rfl

/-- The team that has issued a GATH of the lanes v. -/
def gathTeam (stream : Bool) (p : PReg) (m : Mask) (v : List Nat) (id rb : Nat) (t : Team) : Team :=
  let t := if p.val = 0 then t else t.wp p m (maskOf v fun _ => true)
  if stream then { t with gather := t.gather ++ [⟨id, maskOf v fun _ => true, [], rb, 0⟩] } else t

/-- GATH of the lanes v, whose rows can be read. -/
def gathGo (d : Option VReg) (p : PReg) (regs size rb : Nat) (row : Nat → Nat) (x : X) (s : State) (v : List Nat) : Res :=
  let pages := (v.map fun l => (l, row l)).flatMap fun r => pagesOf r.2 size
  if s.acquiring x.team.uid || s.unitWaits (stackOf x.c) x.who .glob pages then .hold
  else if d.isNone && 4 ≤ x.team.gather.length then .wait s
  else if d.isSome && !s.headroom x.c x.team (slicesFor regs (lanes x.adm)) then s.sliceWait x.c
  else
    let q := match d with
      | none => (s, [])
      | some r => (passes x.adm).foldl (gathStep x r regs x.adm) (s, [])
    .done (x.launchOp ((q.1.modTeam x.c x.slot (gathTeam d.isNone p x.adm v q.1.seq rb)).unitWalks (stackOf x.c) x.who .glob pages)
      (.gath q.2 (v.map fun l => (l, row l)) size d.isNone (if p.val = 0 then none else some p.val)) 0 0 (some none) none [])

/-- The row bytes that a GATH through a delivery asks for. -/
def rowBytesOf (t : Team) (b : SReg) : Nat := fld (t.rs (sregAt b 1)).toNat 32 16

def badRowBytes (rb : Nat) : Bool := rb % 4 != 0 || rb < 4 || 1024 < rb

theorem exec_gath_some_eq (h : Hdr) (d idx : VReg) (b : SReg) (p : PReg) (sz : Fin 3) (s : State) : exec (.gath h (some d) idx b p sz) s =
    runTeam (.gath h (some d) idx b p sz) h (fun _ _ _ => { gather := true }) s fun x s =>
      gathWith false (lanes x.adm) (fun l => s.rowFail x.who (4 * 2 ^ sz.val) (4 * 2 ^ sz.val) (x.src.row idx b l)) (x.src.row idx b)
        (gathGo (some d) p (2 ^ sz.val) (4 * 2 ^ sz.val) (rowBytesOf x.src.team b) (x.src.row idx b) x s) x s := rfl

theorem exec_gath_none_eq (h : Hdr) (idx : VReg) (b : SReg) (p : PReg) (sz : Fin 3) (s : State) : exec (.gath h none idx b p sz) s =
    runTeam (.gath h none idx b p sz) h (fun _ _ _ => { gather := true }) s fun x s =>
      gathWith (badRowBytes (rowBytesOf x.src.team b)) (lanes x.adm)
        (fun l => s.rowFail x.who 4 (if badRowBytes (rowBytesOf x.src.team b) then 4 else rowBytesOf x.src.team b) (x.src.row idx b l)) (x.src.row idx b)
        (gathGo none p (2 ^ sz.val) (rowBytesOf x.src.team b) (rowBytesOf x.src.team b) (x.src.row idx b) x s) x s := rfl

section
variable {h : Hdr} {idx : VReg} {b : SReg} {p : PReg} {sz : Fin 3} {s m : State} {c slot : Nat} {t t1 : Team}

/-- The pages of the rows of the admitted lanes. -/
def rowPages (s : State) (c : Nat) (t : Team) (h : Hdr) (idx : VReg) (b : SReg) (size : Nat) : List Nat :=
  (lanes (t.adm h)).flatMap fun l => pagesOf (Claims.rowOf s c t idx b l) size

/-- The rows of the admitted lanes. -/
def rowList (s : State) (c : Nat) (t : Team) (h : Hdr) (idx : VReg) (b : SReg) : List (Nat × Nat) :=
  (lanes (t.adm h)).map fun l => (l, Claims.rowOf s c t idx b l)

theorem rowPages_eq (size : Nat) : (rowList s c t h idx b).flatMap (fun r => pagesOf r.2 size) = rowPages s c t h idx b size := by
  unfold rowList rowPages
  exact List.flatMap_map ..

/-- The state in which the gather of a team that has become t1 is issued. -/
def gathState (m : State) (s : State) (c slot : Nat) (t : Team) (h : Hdr) (idx : VReg) (b : SReg) (size : Nat) (t1 : Team) : State :=
  (m.setTeam c slot t1).unitWalks (stackOf c) (t.who c) .glob (rowPages s c t h idx b size)

theorem exec_gath_some {d : VReg} (w : TeamIssues (.gath h (some d) idx b p sz) h s c slot t) (hg : s.hasGather = true) (h0 : t.adm h ≠ 0)
    (hacq : s.acquiring t.uid = false) (hroom : s.headroom c t (slicesFor (2 ^ sz.val) (lanes (t.adm h))) = true)
    (hwait : s.unitWaits (stackOf c) (t.who c) .glob (rowPages s c t h idx b (4 * 2 ^ sz.val)) = false)
    (hrows : ∀ l ∈ lanes (t.adm h), s.rowFail (t.who c) (4 * 2 ^ sz.val) (4 * 2 ^ sz.val) (Claims.rowOf s c t idx b l) = none)
    {dests : List (Nat × List Dest)}
    (hm : (passes (t.adm h)).foldl (gathStep (t.x s c slot h) d (2 ^ sz.val) (t.adm h)) (s, []) = (m, dests)) (ht : m.team? c slot = some t1) :
    exec (.gath h (some d) idx b p sz) s = .next (settleTeam (.gath h (some d) idx b p sz) h s c slot t (.done ((t.x s c slot h).launchOp
      (gathState m s c slot t h idx b (4 * 2 ^ sz.val) (t1.wp p (t.adm h) (maskOf (lanes (t.adm h)) fun _ => true)))
      (.gath dests (rowList s c t h idx b) (4 * 2 ^ sz.val) false (if p.val = 0 then none else some p.val)) 0 0 (some none) none []))) := by
  have hne : lanes (t.adm h) ≠ [] := by
    obtain ⟨l, ls, hl⟩ := lanes_ne_nil h0
    rw [hl]
    exact List.cons_ne_nil _ _
  rw [exec_gath_some_eq]
  refine runTeam_gather (r := .done _) w hg ((gathWith_readable hne rfl hrows ..).trans ?_) nofun
  unfold gathGo
  rw [show (List.map (fun l => (l, (t.x s c slot h).src.row idx b l)) (lanes (t.adm h))) = rowList s c t h idx b from rfl, rowPages_eq]
  refine (if_neg ?_).trans ((if_neg Bool.false_ne_true).trans ((if_neg ?_).trans ?_))
  · rw [show s.acquiring (t.x s c slot h).team.uid = false from hacq,
      show s.unitWaits (stackOf (t.x s c slot h).c) (t.x s c slot h).who .glob (rowPages s c t h idx b (4 * 2 ^ sz.val)) = false from hwait]
    exact Bool.false_ne_true
  · rw [show s.headroom (t.x s c slot h).c (t.x s c slot h).team (slicesFor (2 ^ sz.val) (lanes (t.x s c slot h).adm)) = true from hroom]
    exact Bool.false_ne_true
  · dsimp only
    rw [show (t.x s c slot h).adm = t.adm h from rfl, hm]
    dsimp only
    rw [show (t.x s c slot h).c = c from rfl, show (t.x s c slot h).slot = slot from rfl, modTeam_eq_setTeam _ ht]
    unfold gathTeam
    rw [wp_or_same]
    rfl

theorem exec_gath_none (w : TeamIssues (.gath h none idx b p sz) h s c slot t) (hg : s.hasGather = true) (h0 : t.adm h ≠ 0)
    (hacq : s.acquiring t.uid = false) (hfew : t.gather.length < 4) (h4 : rowBytesOf t b % 4 = 0) (hlo : 4 ≤ rowBytesOf t b)
    (hhi : rowBytesOf t b ≤ 1024)
    (hwait : s.unitWaits (stackOf c) (t.who c) .glob (rowPages s c t h idx b (rowBytesOf t b)) = false)
    (hrows : ∀ l ∈ lanes (t.adm h), s.rowFail (t.who c) 4 (rowBytesOf t b) (Claims.rowOf s c t idx b l) = none) :
    exec (.gath h none idx b p sz) s = .next (settleTeam (.gath h none idx b p sz) h s c slot t (.done ((t.x s c slot h).launchOp
      (gathState s s c slot t h idx b (rowBytesOf t b) (gathTeam true p (t.adm h) (lanes (t.adm h)) s.seq (rowBytesOf t b) t))
      (.gath [] (rowList s c t h idx b) (rowBytesOf t b) true (if p.val = 0 then none else some p.val)) 0 0 (some none) none []))) := by
  have hne : lanes (t.adm h) ≠ [] := by
    obtain ⟨l, ls, hl⟩ := lanes_ne_nil h0
    rw [hl]
    exact List.cons_ne_nil _ _
  have hgood : badRowBytes (rowBytesOf t b) = false := by
    unfold badRowBytes
    simp only [h4, bne_self_eq_false, Bool.false_or, Bool.or_eq_false_iff, decide_eq_false_iff_not]
    omega
  rw [exec_gath_none_eq]
  refine runTeam_gather (r := .done _) w hg ((gathWith_readable hne hgood (fun l hl => ?_) ..).trans ?_) nofun
  · rw [show badRowBytes (rowBytesOf (t.x s c slot h).src.team b) = false from hgood]
    exact hrows l hl
  unfold gathGo
  rw [show (List.map (fun l => (l, (t.x s c slot h).src.row idx b l)) (lanes (t.adm h))) = rowList s c t h idx b from rfl, rowPages_eq]
  refine (if_neg ?_).trans ((if_neg ?_).trans ((if_neg Bool.false_ne_true).trans ?_))
  · rw [show s.acquiring (t.x s c slot h).team.uid = false from hacq,
      show s.unitWaits (stackOf (t.x s c slot h).c) (t.x s c slot h).who .glob (rowPages s c t h idx b (rowBytesOf (t.x s c slot h).src.team b)) = false from hwait]
    exact Bool.false_ne_true
  · simp only [Option.isNone_none, Bool.true_and, decide_eq_true_eq, Nat.not_le]
    exact hfew
  · dsimp only
    rw [show (t.x s c slot h).c = c from rfl, show (t.x s c slot h).slot = slot from rfl, modTeam_eq_setTeam _ w.2.1]
    rfl

/-- The delivery that a GATH to the team's queue of rows begins. -/
def newDelivery (id : Nat) (t : Team) (h : Hdr) (rb : Nat) : Delivery := ⟨id, maskOf (lanes (t.adm h)) fun _ => true, [], rb, 0⟩

theorem gathTeam_stream (id rb : Nat) : gathTeam true p (t.adm h) (lanes (t.adm h)) id rb t =
    { t.wp p (t.adm h) (maskOf (lanes (t.adm h)) fun _ => true) with gather := t.gather ++ [newDelivery id t h rb] } := by
  have hgat : (t.wp p (t.adm h) (maskOf (lanes (t.adm h)) fun _ => true)).gather = t.gather := by rw [Team.wp_frame]
  unfold gathTeam
  rw [wp_or_same, ← hgat]
  rfl

/-- The lanes that a GATH says are valid. -/
theorem valid_admitted (m : Mask) (l : Nat) (hl : l < 1024) : inMask (maskOf (lanes m) fun _ => true) l = inMask m l := by
  rw [inMask_maskOf _ _ _ hl, Bool.and_true, Bool.eq_iff_iff, decide_eq_true_eq, mem_lanes]
  exact ⟨fun h => h.2, fun h => ⟨hl, h⟩⟩

/-- The team that has issued an operation, as it goes on. -/
theorem issue_team {i : Instr} {k : OpK} {ring : W64} {sl : Nat} {rd wr : Option (Option Foot)} {views : List View} (hs : slot < 16)
    (ht : m.team? c slot = some t1) {s' : State}
    (hs' : settleTeam i h s c slot t (.done ((t.x s c slot h).launchOp m k ring sl rd wr views)) = s') :
    ∃ t', s'.team? c slot = some t' ∧ t'.flagsDue = t1.flagsDue ∧
      t' = { t1 with pc := (s.nextOf c t).1, atHdr := (s.nextOf c t).2, wait := none, shadows := t'.shadows } := by
  have hteam : ((t.x s c slot h).launchOp m k ring sl rd wr views).team? c slot = some t1 := by
    rw [launchOp_eq, team_killLoads, team_opIssued]
    exact ht
  generalize (t.x s c slot h).launchOp m k ring sl rd wr views = n at hs' hteam
  obtain ⟨t', ht', heq, hfl, -⟩ := (settleTeam_done (i := i) (h := h) (s := s) (t := t) hteam).spec hteam hs
  rw [hs'] at ht'
  exact ⟨t', ht', hfl, heq⟩

theorem issued_stream (hs : slot < 16) (ht : s.team? c slot = some t) {size : Nat} {k : OpK} {i : Instr} {s' : State}
    (hs' : settleTeam i h s c slot t (.done ((t.x s c slot h).launchOp
      (gathState s s c slot t h idx b size (gathTeam true p (t.adm h) (lanes (t.adm h)) s.seq size t)) k 0 0 (some none) none [])) = s') :
    ∃ t' x, s'.team? c slot = some t' ∧ Claims.UnitFrame s s' c slot ∧
      s'.stks = s.stks ∧ s'.accs = s.accs ∧ (∀ q, s'.memGet q = s.memGet q) ∧
      t' = { t with pc := (s.nextOf c t).1, atHdr := (s.nextOf c t).2, wait := none, preg := t'.preg, gather := t.gather ++ [x],
                    shadows := t'.shadows } ∧ t'.flagsDue = t.flagsDue ∧
      x.id = s.seq ∧ x.rows = [] ∧ x.rb = size ∧ x.next = 0 ∧ (∀ l, l < 1024 → inMask x.valid l = inMask (t.adm h) l) ∧
      (∀ r l, l < 1024 → inMask (t'.rp r) l = (inMask (t.rp r) l || decide (r = p) && inMask (t.adm h) l)) ∧
      Claims.Issued s s' c t 0 0 k := by
  rw [gathTeam_stream] at hs'
  have hfl := Team.wp_flags t p (t.adm h) (maskOf (lanes (t.adm h)) fun _ => true)
  have hrp (r : PReg) (l : Nat) (hl : l < 1024) := rp_valid t p r (t.adm h) (maskOf (lanes (t.adm h)) fun _ => true) hl (valid_admitted (t.adm h) l hl)
  have hwp := Team.wp_frame t p (t.adm h) (maskOf (lanes (t.adm h)) fun _ => true)
  generalize t.wp p (t.adm h) (maskOf (lanes (t.adm h)) fun _ => true) = t0 at hs' hfl hrp hwp
  generalize ht1 : ({ t0 with gather := t.gather ++ [newDelivery s.seq t h size] } : Team) = t1 at hs'
  have hv : t1.vmap = t.vmap := by
    rw [← ht1, hwp]
  have hset := UnitFrame.setTeam (t1 := t1) hs ht hv
  have hh := homed_unitWalks (s.setTeam c slot t1) (stackOf c) (t.who c) .glob (rowPages s c t h idx b size)
  have hw := walksOn_unitWalks (s.setTeam c slot t1) (stackOf c) (t.who c) .glob (rowPages s c t h idx b size)
  have hg := memGet_unitWalks (s.setTeam c slot t1) (stackOf c) (t.who c) .glob (rowPages s c t h idx b size)
  unfold gathState at hs'
  generalize State.unitWalks _ _ _ _ _ = m at hs' hh hw hg
  have hteam : m.team? c slot = some t1 := by
    unfold State.team?
    rw [hh.teams]
    exact State.team_setTeam_same s c slot t1
  have hframe := UnitFrame.trans hset (UnitFrame.of_homed hh hw)
  obtain ⟨hf, hk, ha, -, hm, hi, -⟩ := issue_done hs hframe hteam hh.seq hh.ops hs'
  obtain ⟨t', ht', hfl', heq⟩ := issue_team hs hteam hs'
  refine ⟨t', newDelivery s.seq t h size, ht', hf, hk.trans hh.stks, ha.trans hh.accs, fun q => (hm q).trans (hg q), ?_, ?_, rfl, rfl, rfl, rfl,
    valid_admitted (t.adm h), fun r l hl => ?_, hi⟩
  · rw [heq, ← ht1, hwp]
  · rw [hfl', ← ht1]
    exact hfl
  · rw [heq, ← ht1]
    exact hrp r l hl

/-- Operations have no part in the frame of a memory instruction. -/
theorem memFrame_ops (f : Claims.MemFrame s m c slot) (l : List Op) : Claims.MemFrame { s with ops := l } { m with ops := l } c slot := by
  refine ⟨f.teams, f.vregs, f.cores, f.core, ?_, f.parts⟩
  rw [f.rest]

/-- An operation with no directory entries changes no core as it is issued. -/
theorem issued_opIssued (o : Op) (he : o.ents = []) : Issued { m with ops := m.ops ++ [o] } ((opIssued m c o).killLoads c slot) c [] := by
  have hcore (d : Nat) : (opIssued m c o).core d = m.core d := by
    rw [core_opIssued, he]
    split
    · next hd => rw [hd]; rfl
    · rfl
  have h : Issued { m with ops := m.ops ++ [o] } (opIssued m c o) c [] :=
    ⟨fun d _ => hcore d, by rw [hcore]; rfl, (List.append_nil _).symm, rfl, fun _ => rfl⟩
  exact h.trans (.killLoads slot)

/-- A team that has issued an operation with no directory entries goes on within the frame of a memory instruction. -/
theorem issue_memFrame {i : Instr} {k : OpK} {ring : W64} {sl : Nat} {rd wr : Option (Option Foot)} (hs : slot < 16)
    (hf : Claims.MemFrame s m c slot) (ht : m.team? c slot = some t1) (hseq : m.seq = s.seq) (hops : m.ops = s.ops) {s' : State}
    (hs' : settleTeam i h s c slot t (.done ((t.x s c slot h).launchOp m k ring sl rd wr [])) = s') :
    Claims.MemFrame { s with ops := s'.ops } s' c slot ∧ (∀ q, s'.memGet q = m.memGet q) ∧ s'.accs = m.accs ∧
      (∀ r l, s'.vreg c slot r l = m.vreg c slot r l) ∧ Claims.Issued s s' c t ring sl k := by
  rw [launchOp_eq] at hs'
  generalize hov : newOp m.seq k (t.who c) t.depth ring sl rd wr [] = o at hs'
  have hiss := issued_opIssued (m := m) (c := c) (slot := slot) o (by rw [← hov]; rfl)
  have hf2 := memFrame_issued (memFrame_ops hf (m.ops ++ [o])) hiss
  have hvm (q : Nat) : ((opIssued m c o).killLoads c slot).memGet q = m.memGet q := by
    rw [killLoads_rest]
    unfold opIssued State.tickSeq State.modCore State.setCore State.memGet
    rfl
  generalize (opIssued m c o).killLoads c slot = v at hs' hiss hf2 hvm
  have hteamv : v.team? c slot = some t1 := (hiss.team c slot).trans ht
  obtain ⟨-, -, -, -, hsettle, hv⟩ := (settleTeam_done (i := i) (h := h) (s := s) (t := t) hteamv).spec hteamv hs
  rw [hs'] at hsettle hv
  have hops' : s'.ops = m.ops ++ [o] := by
    rw [hsettle.rest, hiss.rest]
  refine ⟨?_, fun q => (hsettle.mem q).trans (hvm q), ?_, fun r l => (hv r l).trans (hiss.vreg ..), o, ?_, ?_⟩
  · rw [hops']
    exact memFrame_teamFrame hf2 hsettle
  · rw [hsettle.rest, hiss.accs, List.append_nil]
  · rw [hops', hops]
  · rw [← hov]
    exact ⟨rfl, hseq, hseq, rfl, rfl, rfl, rfl, rfl, rfl, rfl⟩

/-- The state in which a gather is issued, where the team keeps its registers' slices. -/
theorem gathState_spec (hs : slot < 16) {w : State} {t0 : Team} (ht : w.team? c slot = some t0) (hv : t1.vmap = t0.vmap) (size : Nat) {m : State}
    (hm : gathState w s c slot t h idx b size t1 = m) (hf : Claims.MemFrame s w c slot) :
    Claims.MemFrame s m c slot ∧ m.team? c slot = some t1 ∧ (∀ q, m.memGet q = w.memGet q) ∧ m.accs = w.accs ∧ m.seq = w.seq ∧ m.ops = w.ops ∧
      ∀ r l, m.vreg c slot r l = w.vreg c slot r l := by
  have hset := Placed.setTeam hs ht hv
  have hwalk := Issued.of_walked (c := c) (walked_unitWalks (w.setTeam c slot t1) (stackOf c) (t.who c) .glob (rowPages s c t h idx b size))
  have hh := homed_unitWalks (w.setTeam c slot t1) (stackOf c) (t.who c) .glob (rowPages s c t h idx b size)
  have hg := memGet_unitWalks (w.setTeam c slot t1) (stackOf c) (t.who c) .glob (rowPages s c t h idx b size)
  unfold gathState at hm
  rw [hm] at hwalk hh hg
  exact ⟨memFrame_issued (memFrame_teamFrame hf hset.frame) hwalk, (hwalk.team c slot).trans hset.team, hg, hh.accs, hh.seq, hh.ops,
    fun r l => (hwalk.vreg ..).trans (hset.vregs r l)⟩

theorem issued_slices (hs : slot < 16) (ok : s.stashOk = true) (ht : s.team? c slot = some t) {d : VReg} {n : Nat} {k : OpK} {size : Nat} {i : Instr}
    {ct : Core × Team} (hct : (passes (t.adm h)).foldl (allocPass d n (t.adm h)) (s.core c, t) = ct) {s' : State}
    (hs' : settleTeam i h s c slot t (.done ((t.x s c slot h).launchOp (gathState (withPair s c slot ct) s c slot t h idx b size
      (ct.2.wp p (t.adm h) (maskOf (lanes (t.adm h)) fun _ => true))) k 0 0 (some none) none [])) = s') :
    ∃ t', s'.team? c slot = some t' ∧ Claims.MemFrame { s with ops := s'.ops } s' c slot ∧
      (∀ q, s'.memGet q = s.memGet q) ∧ s'.accs = s.accs ∧
      t' = { t with pc := (s.nextOf c t).1, atHdr := (s.nextOf c t).2, wait := none, vmap := t'.vmap, preg := t'.preg,
                    shadows := t'.shadows } ∧ t'.flagsDue = t.flagsDue ∧
      (∀ r l, l < 1024 → inMask (t'.rp r) l = (inMask (t.rp r) l || decide (r = p) && inMask (t.adm h) l)) ∧
      (∀ r l, l < 1024 → (inMask (t.adm h) l = false ∨ ∀ k, k < n → r ≠ vregAt d k) → s'.vreg c slot r l = s.vreg c slot r l) ∧
      Claims.Issued s s' c t 0 0 k ∧ t'.slice = ct.2.slice := by
  have hlt : ∀ j ∈ passes (t.adm h), j < 32 := fun j hj => List.mem_range.1 (List.mem_filter.1 hj).1
  have hpair := State.stashOk.pair ok ht hs
  have hgrown := allocPasses_grown d n (t.adm h) (passes (t.adm h)) hlt hpair
  obtain ⟨hfl0, hlanes⟩ := allocPasses_lanes d n (t.adm h) hpair
  rw [hct] at hgrown hfl0 hlanes
  obtain ⟨-, -, -, hgteam⟩ := id hgrown
  have hfl := Team.wp_flags ct.2 p (t.adm h) (maskOf (lanes (t.adm h)) fun _ => true)
  have hrp (r : PReg) (l : Nat) (hl : l < 1024) := rp_valid ct.2 p r (t.adm h) _ hl (valid_admitted (t.adm h) l hl)
  have hwp := Team.wp_frame ct.2 p (t.adm h) (maskOf (lanes (t.adm h)) fun _ => true)
  generalize ct.2.wp p (t.adm h) (maskOf (lanes (t.adm h)) fun _ => true) = t1 at hs' hfl hrp hwp
  have hvreg (r : VReg) (l : Nat) : (withPair s c slot ct).vreg c slot r l = laneAt ct r.val (l / 32) (l % 32) := by
    simp only [State.vreg, team_withPair, core_withPair, readV, laneAt]
  have hsvreg (r : VReg) (l : Nat) : s.vreg c slot r l = laneAt (s.core c, t) r.val (l / 32) (l % 32) := by
    simp only [State.vreg, ht, readV, laneAt]
  obtain ⟨hf, hteam, hmem, haccs, hseq, hops, hvregs⟩ := gathState_spec (t := t) (h := h) (idx := idx) (b := b) hs (team_withPair s c slot ct)
    (t1 := t1) (by rw [hwp]) size rfl (memFrame_teamFrame (MemFrame.refl s c slot) (teamFrame_of_grown hgrown hs ok))
  generalize gathState (withPair s c slot ct) s c slot t h idx b size t1 = m at *
  obtain ⟨t', ht', hfl', heq⟩ := issue_team hs hteam hs'
  obtain ⟨hframe, hmem', haccs', hv, hi⟩ := issue_memFrame hs hf hteam hseq hops hs'
  refine ⟨t', ht', hframe, fun q => (hmem' q).trans (hmem q), haccs'.trans haccs, ?_, ?_, fun r l hl => ?_, fun r l hl hr => ?_, hi, ?_⟩
  · rw [heq, hwp, hgteam]
  · rw [hfl', hfl, hfl0]
  · rw [heq]
    exact (hrp r l hl).trans (by rw [hgteam]; rfl)
  · rw [hv, hvregs, hvreg, hlanes r l hl hr, hsvreg]
  · rw [heq, hwp]
    rfl

end

/-! SCAT (R272). -/

/-- Where every lane reaches its place, the check lane by lane gives them all. -/
theorem spotsByLane_of_reach {s : State} {c : Nat} {t : Team} {n : Nat} {ls : List Nat} {va key : Nat → Nat}
    (h : Claims.Reach s c t .glob n false true true ls va key) :
    ∃ cls : Nat → Nat, spotsByLane s (t.who c) n (ls.map fun l => (l, va l)) = .ok (ls.map fun l => (l, ⟨va l, key l, cls l⟩)) := by
  have hcls : ∀ l, ∃ cls, l ∈ ls → s.spanAt (t.who c) .glob l (va l) n false true = .ok (key l) cls := fun l => by
    by_cases hl : l ∈ ls
    · obtain ⟨-, -, cls, hspan⟩ := h l hl
      exact ⟨cls, fun _ => hspan⟩
    · exact ⟨0, fun hl' => absurd hl' hl⟩
  choose cls hcls using hcls
  refine ⟨cls, ?_⟩
  have hwait : s.lanesWait (t.who c) .glob (ls.map fun l => (l, va l)) = false :=
    lanesWait_eq_false fun hsp l hl => (h l hl).2.1 hsp
  have hplaces : lanePlaces s (t.who c) .glob n false true (ls.map fun l => (l, va l)) = ls.map fun l => (l, va l, At.ok (key l) (cls l)) := by
    simp only [lanePlaces, List.map_map, Function.comp_def]
    exact List.map_congr_left fun l hl => by rw [hcls l hl]
  have hnone (p : Nat × Nat × At → Bool) (hp : ∀ l ∈ ls, p (l, va l, At.ok (key l) (cls l)) = false) :
      (ls.map fun l => (l, va l, At.ok (key l) (cls l))).find? p = none := by
    simpa using hp
  have hal (l : Nat) (hl : l ∈ ls) : (va l % n != 0 || At.ok (key l) (cls l) == .unmapped) = false := by
    rw [(h l hl).1 rfl]
    rfl
  unfold spotsByLane
  simp only [hwait, hplaces, hnone (fun a => a.2.2 == .prot) (fun l _ => rfl), hnone (fun a => a.2.1 % n != 0 || a.2.2 == .unmapped) hal]
  simp [goodPlaces, List.filterMap_map, Function.comp_def]

/-- The operation that ends with the stores of a SCAT. -/
def scatOp (m : State) (grp : Nat) (w : Who) (depth : Nat) : Op :=
  { id := m.seq, kind := .scat grp, who := w, depth := depth, fork := m.seq, ring := 0, slot := 0, reads := some none, writes := some none,
    ents := [], stop := false }

theorem exec_scat {h : Hdr} {d idx : VReg} {b : SReg} {sz : Fin 3} {s : State} {c slot : Nat} {t : Team} {key : Nat → Nat}
    (w : TeamIssues (.scat h d idx b sz) h s c slot t) (hg : s.hasGather = true) (h0 : t.adm h ≠ 0) (hacq : s.acquiring t.uid = false)
    (hreach : Claims.Reach s c t .glob (4 * 2 ^ sz.val) false true true (lanes (t.adm h)) (Claims.rowOf s c t idx b) key) :
    ∃ (cls : Nat → Nat) (m : State), m = (t.x s c slot h).stores s .glob false ((lanes (t.adm h)).map fun l => (l, ⟨Claims.rowOf s c t idx b l, key l, cls l⟩))
        (fun l => Src.bytes ⟨s.core c, t, []⟩ (.v d) (4 * 2 ^ sz.val) l) ∧
      exec (.scat h d idx b sz) s = .next (settleTeam (.scat h d idx b sz) h s c slot t
        (.done (State.tickSeq { m with ops := m.ops ++ [scatOp m s.seq (t.who c) t.depth] }))) := by
  obtain ⟨cls, hspots⟩ := spotsByLane_of_reach hreach
  refine ⟨cls, _, rfl, runTeam_gather w hg ((if_neg h0).trans ?_) nofun⟩
  have hspots' : spotsByLane s (t.x s c slot h).who (4 * 2 ^ sz.val) ((lanes (t.x s c slot h).adm).map fun l => (l, (t.x s c slot h).src.row idx b l)) =
    .ok _ := hspots
  dsimp only
  rw [hspots']
  exact if_neg (by rw [show s.acquiring (t.x s c slot h).team.uid = false from hacq]; exact Bool.false_ne_true)

theorem scat_holds {h : Hdr} {d idx : VReg} {b : SReg} {sz : Fin 3} {s : State} {c slot : Nat} {t : Team} {key : Nat → Nat} (hs : slot < 16)
    (w : TeamIssues (.scat h d idx b sz) h s c slot t) (hg : s.hasGather = true) (h0 : t.adm h ≠ 0) (hacq : s.acquiring t.uid = false)
    (hreach : Claims.Reach s c t .glob (4 * 2 ^ sz.val) false true true (lanes (t.adm h)) (Claims.rowOf s c t idx b) key) :
    ∃ s' o, exec (.scat h d idx b sz) s = .next s' ∧ Claims.MemFrame { s with ops := s'.ops } s' c slot ∧
      (∀ q, s'.memGet q = s.memGet q) ∧ (∀ r k, s'.vreg c slot r k = s.vreg c slot r k) ∧ Claims.Goes s c slot t t s' ∧
      s'.ops = s.ops ++ [o] ∧ (∃ g, o.kind = .scat g ∧ ∀ q ∈ s'.accs.drop s.accs.length, q.grp = g) ∧ o.who = t.who c ∧
      s'.accs.take s.accs.length = s.accs ∧
      (s'.accs.drop s.accs.length).map (fun q => (q.kind, q.key, q.len, q.uid)) =
        ((lanes (t.adm h)).flatMap fun l => (Claims.halves (4 * 2 ^ sz.val)).map fun x =>
          (AccK.write (((Src.bytes ⟨s.core c, t, []⟩ (.v d) (4 * 2 ^ sz.val) l).drop x.1).take x.2), key l + x.1, x.2, t.uid)) := by
  obtain ⟨cls, m, hm, hexec⟩ := exec_scat w hg h0 hacq hreach
  obtain ⟨new, hiss, hsm, hmap, hall⟩ := stores_fly (s := s) (c := c) (slot := slot) (t := t) (h := h) (sp := .glob) nofun false (lanes (t.adm h))
    (Claims.rowOf s c t idx b) key cls (fun l => Src.bytes ⟨s.core c, t, []⟩ (.v d) (4 * 2 ^ sz.val) l) (4 * 2 ^ sz.val) fun l => length_bytes ..
  rw [← hm] at hiss hsm
  have hops : m.ops = s.ops := by rw [hiss.rest]
  obtain ⟨hkind, hwho⟩ : (scatOp m s.seq (t.who c) t.depth).kind = .scat s.seq ∧ (scatOp m s.seq (t.who c) t.depth).who = t.who c := ⟨rfl, rfl⟩
  generalize scatOp m s.seq (t.who c) t.depth = o at hexec hkind hwho
  have hf : Claims.MemFrame { s with ops := m.ops ++ [o] } { m with ops := m.ops ++ [o] } c slot :=
    memFrame_ops (memFrame_issued (MemFrame.refl s c slot) hiss) _
  have htick : Issued { m with ops := m.ops ++ [o] } (State.tickSeq { m with ops := m.ops ++ [o] }) c [] := .tickSeq
  have hteam : (State.tickSeq { m with ops := m.ops ++ [o] }).team? c slot = some t := (hiss.team c slot).trans w.2.1
  have hvreg (r : VReg) (l : Nat) : (State.tickSeq { m with ops := m.ops ++ [o] }).vreg c slot r l = s.vreg c slot r l := hiss.vreg slot r l
  have hmem (q : Nat) : (State.tickSeq { m with ops := m.ops ++ [o] }).memGet q = s.memGet q := memGet_congr hsm q
  have hsame : (State.tickSeq { m with ops := m.ops ++ [o] }).ops = m.ops ++ [o] ∧ (State.tickSeq { m with ops := m.ops ++ [o] }).accs = s.accs ++ new :=
    ⟨rfl, hiss.accs⟩
  have hf2 := memFrame_issued hf htick
  generalize State.tickSeq { m with ops := m.ops ++ [o] } = n at *
  obtain ⟨t', hteam', heq, hfl, hsettle, hv⟩ := (settleTeam_done (i := .scat h d idx b sz) (h := h) (s := s) (t := t) hteam).spec hteam hs
  generalize settleTeam (.scat h d idx b sz) h s c slot t (.done n) = s' at *
  have hops' : s'.ops = m.ops ++ [o] := by
    rw [hsettle.rest]
    exact hsame.1
  have haccs' : s'.accs = s.accs ++ new := by
    rw [hsettle.rest]
    exact hsame.2
  refine ⟨s', o, hexec, ?_, fun q => (hsettle.mem q).trans (hmem q), fun r k => (hv r k).trans (hvreg r k),
    ⟨t', hteam', hfl, fun r => ?_, fun r => ?_, ?_⟩, ?_, ⟨s.seq, hkind, fun q hq => ?_⟩, hwho, ?_, ?_⟩
  · rw [hops']
    exact memFrame_teamFrame hf2 hsettle
  · rw [heq]; rfl
  · rw [heq]; rfl
  · rw [heq]
  · rw [hops', hops]
  · rw [haccs', List.drop_left] at hq
    exact (hall q hq).2.2
  · rw [haccs', List.take_left]
  · rw [haccs', List.drop_left]
    have hproj := congrArg (List.map fun x : AccK × Nat × Nat × Nat × Nat × Nat => (x.1, x.2.1, x.2.2.1, x.2.2.2.1)) hmap
    rw [List.map_map, List.map_flatMap] at hproj
    simp only [List.map_map] at hproj
    exact hproj

/-- Settles O42: the effect of each form once its rows can be read or written, within the frame of what it issues. -/
theorem gatherAndScatter : Obligations.GatherAndScatter := by
  unfold Obligations.GatherAndScatter
  refine ⟨?_, ?_, ?_⟩
  · intro h d idx b p sz s c slot t
    dsimp only
    intro hs ok w hg h0 hacq hroom hwait hrows
    have hsteps := gathSteps (x := t.x s c slot h) w.2.1 d (2 ^ sz.val) h0
    generalize hct : (passes (t.adm h)).foldl (allocPass d (2 ^ sz.val) (t.adm h)) (s.core c, t) = ct
    have hct' : (passes (t.adm h)).foldl (allocPass d (2 ^ sz.val) (t.adm h)) (s.core (t.x s c slot h).c, t) = ct := hct
    rw [hct'] at hsteps
    obtain ⟨t', ht', hf, hm, ha, heq, hfl, hrp, hv, hi, hsl⟩ := issued_slices (idx := idx) (b := b) (p := p) (size := 4 * 2 ^ sz.val) (h := h)
      (i := .gath h (some d) idx b p sz) (k := .gath ((passes (t.adm h)).map fun j => (j, (List.range (2 ^ sz.val)).map fun k =>
        Dest.slice (ct.2.slice (vregAt d k).val j))) (rowList s c t h idx b) (4 * 2 ^ sz.val) false (if p.val = 0 then none else some p.val))
      hs ok w.2.1 hct rfl
    refine ⟨_, t', _, exec_gath_some w hg h0 hacq hroom hwait hrows hsteps (team_withPair ..), ht', hf, hm, ha, heq, hfl, hrp, hv, hi, ?_⟩
    rw [hsl]
  · intro h idx b p sz s c slot t
    dsimp only
    intro hs w hg h0 hacq hfew h4 hlo hhi hwait hrows
    obtain ⟨t', x, hrest⟩ := issued_stream (idx := idx) (b := b) (p := p) (size := rowBytesOf t b) (h := h) (i := .gath h none idx b p sz)
      (k := .gath [] (rowList s c t h idx b) (rowBytesOf t b) true (if p.val = 0 then none else some p.val)) hs w.2.1 rfl
    exact ⟨_, t', x, exec_gath_none w hg h0 hacq hfew h4 hlo hhi hwait hrows, hrest⟩
  · intro h d idx b sz s c slot t key
    dsimp only
    intro hs w hg h0 hacq hreach
    exact scat_holds hs w hg h0 hacq hreach

end Sys2Proof.Proofs

end

section
/-! Queue registers: what a push leaves as it was, and the areas of queues in memory (R104, R105, R350, R352). -/

open Sys2Proof Sys2Proof.Machine

namespace Sys2Proof.Proofs

/-! A write of a unit without triggers. -/

/-- m is s but for memory with its owners, the shared caches, writes on their way, and the words that cores have. -/
structure Silent (s m : State) : Prop where
  rest : m = { s with mem := m.mem, owners := m.owners, slices := m.slices, comp := m.comp, ctr := m.ctr, free := m.free,
                      cores := m.cores, accs := m.accs, sent := m.sent, seq := m.seq }
  cores : ∀ d, m.core d = { s.core d with l1 := (m.core d).l1, own := (m.core d).own }

theorem Silent.refl (s : State) : Silent s s := ⟨rfl, fun _ => rfl⟩

theorem Silent.trans {a b c : State} (h : Silent a b) (g : Silent b c) : Silent a c :=
  ⟨by rw [g.rest, h.rest], fun d => by rw [g.cores, h.cores]⟩

theorem Silent.foldl {α : Type} {f : State → α → State} (hf : ∀ s a, Silent s (f s a)) (l : List α) (s : State) : Silent s (l.foldl f s) := by
  induction l generalizing s with
  | nil => exact .refl s
  | cons a l ih => exact (hf s a).trans (ih _)

theorem Silent.local_ {s m : State} (h : Silent s m) (k : Nat) : m.local_ k = s.local_ k := by
  rw [h.rest]
  rfl

theorem silent_revokeAt (s : State) (core pa len : Nat) : Silent s (s.revokeAt core pa len) := ⟨rfl, (Homed.revokeAt ..).cores⟩

theorem silent_send (s : State) (a : Access) : Silent s (s.send a) := by
  unfold State.send
  split <;> exact ⟨rfl, fun _ => rfl⟩

theorem memGet_send (s : State) (a : Access) (q : Nat) : (s.send a).memGet q = s.memGet q := by
  unfold State.send
  split <;> rfl

theorem silent_perform (s : State) (w : Writer) (pa cls : Nat) (bs : List Byte) : Silent s (s.perform w pa cls bs false).1 := by
  have hc := Cached.l2Access (s.memWrite pa bs) pa cls true
  unfold State.perform
  dsimp only
  generalize (s.memWrite pa bs).l2Access pa cls true = p at hc
  obtain ⟨m, v⟩ := p
  unfold Cached at hc
  dsimp only at hc ⊢
  rw [if_neg Bool.false_ne_true, hc]
  exact ⟨rfl, fun _ => rfl⟩

theorem silent_unitPut (s : State) (u : Unit_) (k cls : Nat) (bs : List Byte) : Silent s (s.unitPut u k cls bs false) := by
  unfold State.unitPut
  split
  · exact ⟨rfl, fun _ => rfl⟩
  · split
    · exact silent_send ..
    · rw [Bool.false_and, if_neg Bool.false_ne_true]
      have hp := silent_perform s ⟨none, u.depth, u.src⟩ k cls bs
      dsimp only
      generalize s.perform ⟨none, u.depth, u.src⟩ k cls bs false = p at hp
      obtain ⟨m, v, out⟩ := p
      exact hp.trans (.foldl (fun _ _ => silent_revokeAt ..) _ _)

/-- A unit's write lays its bytes where their home is in this package, and goes on its way elsewhere. -/
theorem memGet_silentPut (s : State) (u : Unit_) (k cls : Nat) (bs : List Byte) (q : Nat) : (s.unitPut u k cls bs false).memGet q =
    (if 2 ^ 56 ≤ k ∨ s.local_ k = true then Claims.laid s.memGet k bs else s.memGet) q := by
  split
  · next hk => exact (unitPut_home (tr := false) u cls hk nofun).2.1 q
  · next hk =>
    obtain ⟨hnear, haway⟩ := not_or.mp hk
    unfold State.unitPut
    rw [if_neg hnear, if_pos (by simpa using haway)]
    exact memGet_send ..

theorem silent_putEach (u : Unit_) (ps : List (Nat × Nat × Nat)) (bs : List Byte) (s : State) : Silent s (s.putEach u false ps bs) := by
  induction ps generalizing bs s with
  | nil => exact .refl s
  | cons p ps ih =>
    unfold State.putEach
    exact (silent_unitPut ..).trans (ih ..)

/-- What memory holds depends on s only as it says which keys are homed here. -/
theorem laidHere_congr {s m : State} (hl : ∀ k, m.local_ k = s.local_ k) (ps : List (Nat × Nat × Nat)) (bs : List Byte) (f : Nat → Byte) :
    Claims.laidHere m f ps bs = Claims.laidHere s f ps bs := by
  induction ps generalizing bs f with
  | nil => rfl
  | cons p ps ih =>
    unfold Claims.laidHere
    rw [ih, hl]

theorem memGet_putEach (u : Unit_) (ps : List (Nat × Nat × Nat)) (bs : List Byte) (s : State) :
    (s.putEach u false ps bs).memGet = Claims.laidHere s s.memGet ps bs := by
  induction ps generalizing bs s with
  | nil => rfl
  | cons p ps ih =>
    obtain ⟨k, c, n⟩ := p
    unfold State.putEach Claims.laidHere
    rw [ih, laidHere_congr (silent_unitPut ..).local_, funext (memGet_silentPut s u k c (bs.take n))]

theorem silent_areaPut (s : State) (ctx a : Nat) (bs : List Byte) : Silent s (s.areaPut ctx a bs) := by
  unfold State.areaPut
  generalize s.area (unitWho ctx) .glob a bs.length false true = r
  obtain ⟨ps, f⟩ := r
  dsimp only
  split
  · exact .refl s
  · exact silent_putEach ..

/-- A place of an area takes the bytes that this package homes. -/
theorem memGet_areaPut {s : State} {ctx a : Nat} {bs : List Byte} {ps : List (Nat × Nat × Nat)}
    (h : s.area (unitWho ctx) .glob a bs.length false true = (ps, none)) : (s.areaPut ctx a bs).memGet = Claims.laidHere s s.memGet ps bs := by
  unfold State.areaPut
  rw [h]
  exact memGet_putEach ..

/-- A place that cannot be written is passed by. -/
theorem areaPut_bad {s : State} {ctx a : Nat} {bs : List Byte} (h : (s.area (unitWho ctx) .glob a bs.length false true).2 ≠ none) :
    s.areaPut ctx a bs = s := by
  unfold State.areaPut
  generalize s.area (unitWho ctx) .glob a bs.length false true = r at h
  obtain ⟨ps, f⟩ := r
  exact if_pos (Option.isSome_iff_ne_none.mpr h)

/-! Where an area lies: the page tables alone say so. -/

/-- m translates as s does: it differs in contexts and cores but for the roots of their tables and their TLBs, and in counts. -/
structure SameTables (s m : State) : Prop where
  rest : m = { s with cores := m.cores, ctr := m.ctr, ctxs := m.ctxs, teams := m.teams }
  tlb : ∀ d, (m.core d).tlb = (s.core d).tlb
  root : ∀ d, (m.ctx d).ptroot = (s.ctx d).ptroot

theorem SameTables.trans {a b c : State} (h : SameTables a b) (g : SameTables b c) : SameTables a c :=
  ⟨by rw [g.rest, h.rest], fun d => by rw [g.tlb, h.tlb], fun d => by rw [g.root, h.root]⟩

theorem sameTables_killLoads (s : State) (c slot : Nat) : SameTables s (s.killLoads c slot) := by
  refine ⟨rfl, fun d => ?_, fun d => rfl⟩
  rw [core_killLoads]
  split <;> simp [*]

theorem sameTables_modCtx (s : State) (c : Nat) {f : Ctx → Ctx} (hf : ∀ x, (f x).ptroot = x.ptroot) : SameTables s (s.modCtx c f) := by
  refine ⟨rfl, fun d => rfl, fun d => ?_⟩
  by_cases hd : d = c
  · subst hd
    rw [ctx_modCtx_same, hf]
  · rw [ctx_modCtx_of_ne _ hd]

theorem SameTables.walk {s m : State} (h : SameTables s m) (ctx va : Nat) : m.walk ctx va = s.walk ctx va := by
  have hread (k : Nat) : m.homeRead k 8 = s.homeRead k 8 := by rw [h.rest]; rfl
  have hecc (k : Nat) : m.eccBad k = s.eccBad k := by rw [h.rest]; rfl
  have hpte (e lvl : Nat) : m.pteBad e lvl = s.pteBad e lvl := by rw [h.rest]; rfl
  have hfrom (fuel lvl t : Nat) : m.walkFrom ctx va fuel lvl t = s.walkFrom ctx va fuel lvl t := by
    induction fuel generalizing lvl t with
    | zero => rfl
    | succ fuel ih => simp only [State.walkFrom, hread, hpte, hecc, ih]
  have hreach (t : Nat) : m.reach t = s.reach t := by rw [h.rest]; rfl
  have hreached (t : Tr) : m.reached va t = s.reached va t := by rw [h.rest]; rfl
  unfold State.walk
  simp only [h.root, hreach, hreached, hfrom]

theorem SameTables.area {s m : State} (h : SameTables s m) (w : Who) (a n : Nat) (r wr : Bool) :
    m.area w .glob a n r wr = s.area w .glob a n r wr := by
  have hreached (va : Nat) (t : Tr) : m.reached va t = s.reached va t := by rw [h.rest]; rfl
  have hbyte (va : Nat) : m.byteAt w .glob 0 va r wr = s.byteAt w .glob 0 va r wr := by
    unfold State.byteAt State.translate
    simp only [h.tlb, h.walk, hreached]
  unfold State.area
  generalize piecesOf a n = ps
  induction ps with
  | nil => rfl
  | cons p ps ih => simp only [State.areaAt, hbyte, ih]

/-! What a push leaves as it was. -/

/-- m is s but for what a push of a team of core c changes: memory as a silent write changes it, contexts, and the load entries of the
core. -/
structure Pushes (s m : State) (c : Nat) : Prop where
  rest : m = { s with mem := m.mem, owners := m.owners, slices := m.slices, comp := m.comp, ctr := m.ctr, free := m.free,
                      cores := m.cores, accs := m.accs, sent := m.sent, seq := m.seq, ctxs := m.ctxs }
  cores : ∀ d, d ≠ c → m.core d = { s.core d with l1 := (m.core d).l1, own := (m.core d).own }
  core : m.core c = { s.core c with l1 := (m.core c).l1, own := (m.core c).own, vtb := (m.core c).vtb }

theorem Pushes.trans {a b d : State} {c : Nat} (h : Pushes a b c) (g : Pushes b d c) : Pushes a d c :=
  ⟨by rw [g.rest, h.rest], fun e he => by rw [g.cores e he, h.cores e he], by rw [g.core, h.core]⟩

theorem Silent.pushes {s m : State} (h : Silent s m) (c : Nat) : Pushes s m c :=
  ⟨by rw [h.rest], fun d _ => h.cores d, by rw [h.cores]⟩

theorem pushes_modCtx (s : State) (c k : Nat) (f : Ctx → Ctx) : Pushes s (s.modCtx k f) c := ⟨rfl, fun _ _ => rfl, rfl⟩

theorem pushes_killLoads (s : State) (c slot : Nat) : Pushes s (s.killLoads c slot) c := by
  refine ⟨rfl, fun d hd => ?_, ?_⟩
  · rw [core_killLoads, if_neg hd]
  · rw [core_killLoads, if_pos rfl]

/-- A team that has pushed goes on. -/
theorem push_done {i : Instr} {h : Hdr} {s m : State} {c slot : Nat} {t : Team} (hs : slot < 16) (hp : Pushes s m c)
    (ht : s.team? c slot = some t) {s' : State} (hs' : settleTeam i h s c slot t (.done m) = s') :
    Claims.PushFrame s s' c slot ∧ Claims.Goes s c slot t t s' ∧ s' = { m with teams := s'.teams } := by
  have hteams : m.teams = s.teams := by rw [hp.rest]
  have hteam (d k : Nat) : m.team? d k = s.team? d k := by
    unfold State.team?
    rw [hteams]
  obtain ⟨hf, hgoes, hrest⟩ := goes_done hs ((hteam c slot).trans ht) hs'
  have hcore (d : Nat) : s'.core d = m.core d := by
    rw [hrest]
    rfl
  have hphys (d : Nat) : (m.core d).phys = (s.core d).phys := by
    by_cases hd : d = c
    · rw [hd, hp.core]
    · rw [hp.cores d hd]
  refine ⟨⟨fun k hk => ?_, fun d k hk r l => ?_, fun d hd => ?_, ?_, ?_⟩, hgoes, hrest⟩
  · rw [hf.teams k hk, hteams]
  · by_cases hd : d = c
    · subst hd
      exact (hf.vregs k hk r l).trans (vreg_congr (hteam d k) (hphys d) r l)
    · refine vreg_congr ?_ ?_ r l
      · refine Eq.trans ?_ (hteam d k)
        exact hf.teams _ (by unfold tkey; omega)
      · rw [hcore, hphys]
  · rw [hcore]
    exact hp.cores d hd
  · rw [hcore]
    exact hp.core
  · rw [hrest, hp.rest]

/-! The forms of a move to and from a queue register. -/

theorem push_ready {x : X} {s : State} {ok : Bool} (act : State → State) (ho : s.owes x.team.uid s.seq = false) (hok : ok = true) :
    x.push s ok act = .done (act (s.killLoads x.c x.slot)) := by
  unfold X.push
  rw [ho, if_neg Bool.false_ne_true, hok, Bool.not_true, if_neg Bool.false_ne_true]

/-- Further registers hold a move up by nothing: none has a result in flight, and those read are scalars with none due. -/
theorem more_ready {x : X} {s : State} {rs : List Reg} {reads : Bool} (k : X → State → Res) (hp : ∀ r ∈ rs, s.pendingReg x.c x.team r = false)
    (hr : reads = true → unmetOf x.team.shadows rs = [] ∧ ∀ r ∈ rs, r.isV = false) : x.more s rs reads k = k x s := by
  have hany : rs.any (s.pendingReg x.c x.team) = false := by
    simpa using hp
  unfold X.more
  rw [hany, if_neg Bool.false_ne_true]
  cases reads with
  | false => simp
  | true =>
    obtain ⟨hu, hv⟩ := hr rfl
    refine (if_neg ?_).trans (if_pos ?_)
    · simp only [Bool.true_and, List.any_eq_true, not_exists, not_and]
      intro j _ r hmem
      have := hv r hmem
      cases r <;> simp [Reg.isV] at this ⊢
    · rw [if_pos rfl, hu]
      rfl

theorem needs_scalars {q : QReg} {a : Nat} {s : State} {c : Nat} {t : Team}
    (h : (t.bind q).kind = 2 → a % 2 = 0 ∧ a + 2 ≤ t.hdr.ns) : (queueNeed q false false a s c t).ill = false ∧
    (queueNeed q false false a s c t).gather = false ∧ (queueNeed q false false a s c t).leader = false := by
  unfold queueNeed
  split
  · next hk =>
    obtain ⟨he, hn⟩ := h (by simpa using hk)
    simp [he, hn]
  · exact ⟨rfl, rfl, rfl⟩

theorem exec_smov_push {h : Hdr} {q : QReg} {a : SReg} {s : State} {c slot : Nat} {t : Team} {r : Res}
    (w : TeamIssues (.smov h (.push q a)) h s c slot t) (h0 : t.adm h ≠ 0) (hk : (t.bind q).kind = 2 → a.val % 2 = 0 ∧ a.val + 2 ≤ t.hdr.ns)
    (he : (t.x s c slot h).pushScalar s q a = r) (hr : ∀ w, r ≠ .short w) :
    exec (.smov h (.push q a)) s = .next (settleTeam (.smov h (.push q a)) h s c slot t r) := by
  obtain ⟨hi, hg, hl⟩ := needs_scalars (s := s) (c := c) hk
  subst he
  refine (runBoth_team (nd := queueNeed q false false a.val) w hi (by simp [hg]) (by simp [hl]) fun w => ?_).trans ?_
  · exact fun hw => hr w ((if_neg h0).symm.trans hw)
  · exact congrArg (fun r => Host.Outcome.next (settleTeam _ h s c slot t r)) (if_neg h0)

theorem exec_smov_pop {h : Hdr} {q : QReg} {d : SReg} {s : State} {c slot : Nat} {t : Team} {r : Res}
    (w : TeamIssues (.smov h (.pop d q)) h s c slot t) (h0 : t.adm h ≠ 0) (hk : (t.bind q).kind = 2 → d.val % 2 = 0 ∧ d.val + 2 ≤ t.hdr.ns)
    (he : (t.x s c slot h).popScalar s d q = r) (hr : ∀ w, r ≠ .short w) :
    exec (.smov h (.pop d q)) s = .next (settleTeam (.smov h (.pop d q)) h s c slot t r) := by
  obtain ⟨hi, hg, hl⟩ := needs_scalars (s := s) (c := c) hk
  subst he
  refine (runBoth_team (nd := queueNeed q false false d.val) w hi (by simp [hg]) (by simp [hl]) fun w => ?_).trans ?_
  · exact fun hw => hr w ((if_neg h0).symm.trans hw)
  · exact congrArg (fun r => Host.Outcome.next (settleTeam _ h s c slot t r)) (if_neg h0)

/-- A team goes on after an acquire, which the state before it has prepared. -/
theorem acquire_after {i : Instr} {h : Hdr} {s m : State} {c slot : Nat} {t t1 : Team} (hs : slot < 16) (ht : m.team? c slot = some t1)
    (hof : m.teamOf t1.uid = some (tkey c slot, t1)) {s' : State} (hs' : settleTeam i h s c slot t (.done (m.acquired c t1.uid)) = s') :
    Claims.PortFrame m s' c slot ∧ Claims.Goes s c slot t t1 s' ∧
      s' = { m with teams := s'.teams, cores := s'.cores, accs := s'.accs, ctr := s'.ctr } ∧ (s'.core c).rx = (m.core c).rx := by
  rw [acquired_eq hs hof] at hs'
  have hrest := fenced_rest m c slot true
  have hframe := portFrame_fenced m c slot true
  have hclean := sameClean_fenced m c slot true
  have hcore := fenced_core m c slot true c
  have hteams := fenced_teams m c slot true
  change settleTeam i h s c slot t (.done (fenced m c slot true)) = s' at hs'
  generalize fenced m c slot true = n at *
  obtain ⟨hf, hgoes, hend⟩ := goes_done hs (by unfold State.team?; rw [hteams]; exact ht) hs'
  refine ⟨PortFrame.trans hframe hf hclean, hgoes, ?_, ?_⟩
  · rw [hend, hrest]
  · rw [show s'.core c = n.core c by rw [hend]; rfl, hcore, if_pos rfl]
    rfl

end Sys2Proof.Proofs

end

section
/-! R104, R105, R246, R274, R350, R351: messages, Trailhead queues and the ports of Strike engines. -/

open Sys2Proof Sys2Proof.Machine

namespace Sys2Proof.Proofs

/-! Trailhead queues (R350, R351). -/

/-- Of one place more than are taken, one is free: the lowest. -/
theorem lowestFree_spec (used : List Nat) : ∃ n, (List.range (used.length + 1)).find? (fun i => !used.contains i) = some n ∧ n ∉ used ∧
    ∀ i, i < n → i ∈ used := by
  cases hf : (List.range (used.length + 1)).find? fun i => !used.contains i with
  | some n =>
    obtain ⟨hn, -, hlow⟩ := List.find?_range_eq_some.1 hf
    exact ⟨n, rfl, by simpa using hn, fun i hi => by simpa using hlow i hi⟩
  | none =>
    have hsub : List.range (used.length + 1) ⊆ used := fun i hi => by
      simpa using List.find?_eq_none.1 hf i hi
    have := ((List.nodup_range).subperm hsub).length_le
    simp at this

/-- A queue after a change of one queue of its context. -/
theorem trailQ_setTrail (s : State) (ctx q : Nat) (l : List TrailEl) (j : Nat) :
    (s.setTrail ctx q l).trailQ ctx j = if j = q then l else s.trailQ ctx j := by
  unfold State.trailQ State.setTrail
  rw [ctx_modCtx_same]
  exact Tbl.get_set ..

/-- What a Trailhead queue takes: the element stands last, on die or at the lowest free place of the area, where it is written. -/
theorem trailPush_spec (s : State) (ctx q : Nat) (key val : W64) : ∃ pl,
    (s.trailDie q < 65536 → pl = none ∧ s.trailPush ctx q key val = s.setTrail ctx q (s.trailQ ctx q ++ [⟨key, val, pl⟩])) ∧
    (65536 ≤ s.trailDie q → ∃ n, pl = some n ∧ n ∉ usedPlaces (s.trailQ ctx q) ∧ (∀ i, i < n → i ∈ usedPlaces (s.trailQ ctx q)) ∧
      s.trailPush ctx q key val = (s.setTrail ctx q (s.trailQ ctx q ++ [⟨key, val, pl⟩])).areaPut ctx
        ((s.ctx ctx).trhBase + 16 * (q * 2 ^ 20 + n)) (toLe 8 key.toNat ++ toLe 8 val.toNat)) := by
  unfold State.trailPush
  dsimp only
  split
  · next hd => exact ⟨none, fun _ => ⟨rfl, rfl⟩, fun h => absurd hd (Nat.not_lt.mpr h)⟩
  · next hd =>
    obtain ⟨n, hfind, hfree, hlow⟩ := lowestFree_spec (usedPlaces (s.trailQ ctx q))
    rw [hfind]
    exact ⟨some n, fun h => absurd h hd, fun _ => ⟨n, rfl, hfree, hlow, rfl⟩⟩

section
variable {h : Hdr} {q : QReg} {s : State} {c slot : Nat} {t : Team}

theorem pushScalar_trail {a : SReg} (hk : (t.bind q).kind = 2) (hp : ∀ r ∈ ss a 2, s.pendingReg c t r = false)
    (hu : unmetOf t.shadows (ss a 2) = []) (ho : s.owes t.uid s.seq = false) (hroom : s.trailRoom t.ctx (fld (t.bind q).arg.toNat 0 4) 1 = true) :
    (t.x s c slot h).pushScalar s q a =
      .done ((s.killLoads c slot).trailPush t.ctx (fld (t.bind q).arg.toNat 0 4) (t.rs a) (t.rs (sregAt a 1))) := by
  unfold X.pushScalar
  simp only [show (t.x s c slot h).team = t from rfl, hk]
  refine (more_ready (x := t.x s c slot h) _ hp fun _ => ⟨hu, fun r hr => ?_⟩).trans (push_ready (x := t.x s c slot h) _ ho hroom)
  obtain ⟨i, -, rfl⟩ := List.mem_map.1 hr
  rfl

theorem trailPush_holds {a : SReg} (hs : slot < 16) (w : TeamIssues (.smov h (.push q a)) h s c slot t) (h0 : t.adm h ≠ 0)
    (hk : (t.bind q).kind = 2) (ha : a.val % 2 = 0) (hn : a.val + 2 ≤ t.hdr.ns) (hp : ∀ r ∈ ss a 2, s.pendingReg c t r = false)
    (hu : unmetOf t.shadows (ss a 2) = []) (ho : s.owes t.uid s.seq = false) {k : Nat} (hkq : fld (t.bind q).arg.toNat 0 4 = k)
    (hroom : s.trailRoom t.ctx k 1 = true) :
    ∃ s' pl, exec (.smov h (.push q a)) s = .next s' ∧ Claims.PushFrame s s' c slot ∧
      Claims.Goes s c slot t t s' ∧ s'.ctx t.ctx = { s.ctx t.ctx with trail := (s'.ctx t.ctx).trail } ∧
      (∀ d, d ≠ t.ctx → s'.ctx d = s.ctx d) ∧
      (∀ j, s'.trailQ t.ctx j = if j = k then s.trailQ t.ctx k ++ [⟨t.rs a, t.rs (sregAt a 1), pl⟩] else s.trailQ t.ctx j) ∧
      (s.trailDie k < 65536 → pl = none ∧ s'.accs = s.accs ∧ ∀ q, s'.memGet q = s.memGet q) ∧
      (65536 ≤ s.trailDie k → ∃ n, pl = some n ∧ n ∉ usedPlaces (s.trailQ t.ctx k) ∧ (∀ i, i < n → i ∈ usedPlaces (s.trailQ t.ctx k)) ∧
        let va := (s.ctx t.ctx).trhBase + 16 * (k * 2 ^ 20 + n)
        (∀ ps, s.area (unitWho t.ctx) .glob va 16 false true = (ps, none) →
          ∀ q, s'.memGet q = Claims.laidHere s s.memGet ps (toLe 8 (t.rs a).toNat ++ toLe 8 (t.rs (sregAt a 1)).toNat) q) ∧
        ((s.area (unitWho t.ctx) .glob va 16 false true).2 ≠ none → ∀ q, s'.memGet q = s.memGet q)) := by
  subst hkq
  generalize hkq : fld (t.bind q).arg.toNat 0 4 = k at *
  have hexec := exec_smov_push w h0 (fun _ => ⟨ha, hn⟩) (pushScalar_trail hk hp hu ho (hkq.symm ▸ hroom)) nofun
  rw [hkq] at hexec
  obtain ⟨pl, hdie, hout⟩ := trailPush_spec (s.killLoads c slot) t.ctx k (t.rs a) (t.rs (sregAt a 1))
  change s.trailDie k < 65536 → _ at hdie
  change 65536 ≤ s.trailDie k → ∃ n, pl = some n ∧ n ∉ usedPlaces (s.trailQ t.ctx k) ∧ (∀ i, i < n → i ∈ usedPlaces (s.trailQ t.ctx k)) ∧ _ at hout
  generalize hm0 : (s.killLoads c slot).setTrail t.ctx k ((s.killLoads c slot).trailQ t.ctx k ++ [⟨t.rs a, t.rs (sregAt a 1), pl⟩]) = m0 at hdie hout
  have hset : Pushes s m0 c := by
    rw [← hm0]
    exact (pushes_killLoads ..).trans (pushes_modCtx ..)
  have htab : SameTables s m0 := by
    rw [← hm0]
    exact (sameTables_killLoads ..).trans (sameTables_modCtx _ _ fun _ => rfl)
  have hsame : m0.ctx t.ctx = { s.ctx t.ctx with trail := (m0.ctx t.ctx).trail } := by
    rw [← hm0]
    unfold State.setTrail
    rw [ctx_modCtx_same]
    rfl
  have hother (d : Nat) (hd : d ≠ t.ctx) : m0.ctx d = s.ctx d := by
    rw [← hm0]
    exact ctx_modCtx_of_ne _ hd
  have hq (j : Nat) : m0.trailQ t.ctx j = if j = k then s.trailQ t.ctx k ++ [⟨t.rs a, t.rs (sregAt a 1), pl⟩] else s.trailQ t.ctx j := by
    rw [← hm0]
    exact trailQ_setTrail ..
  have hmem : m0.memGet = s.memGet := by
    rw [htab.rest]
    rfl
  have haccs : m0.accs = s.accs := by rw [htab.rest]
  have hlocal (k : Nat) : m0.local_ k = s.local_ k := by
    rw [htab.rest]
    rfl
  clear hm0
  generalize (s.killLoads c slot).trailPush t.ctx k (t.rs a) (t.rs (sregAt a 1)) = m at hexec hdie hout
  have hsil : Silent m0 m := by
    rcases Nat.lt_or_ge (s.trailDie k) 65536 with hd | hd
    · rw [(hdie hd).2]
      exact .refl _
    · obtain ⟨n, -, -, -, heq⟩ := hout hd
      rw [heq]
      exact silent_areaPut ..
  obtain ⟨hframe, hgoes, hend⟩ := push_done (i := .smov h (.push q a)) (h := h) hs (hset.trans (hsil.pushes c)) w.2.1 rfl
  generalize settleTeam (.smov h (.push q a)) h s c slot t (.done m) = s' at hexec hframe hgoes hend
  have hctx (d : Nat) : s'.ctx d = m0.ctx d := by
    rw [hend, hsil.rest]
    rfl
  refine ⟨s', pl, hexec, hframe, hgoes, ?_, fun d hd => (hctx d).trans (hother d hd), fun j => ?_, fun hd => ?_, fun hd => ?_⟩
  · rw [hctx]
    exact hsame
  · unfold State.trailQ at hq ⊢
    rw [hctx]
    exact hq j
  · obtain ⟨hpl, heq⟩ := hdie hd
    refine ⟨hpl, ?_, fun q => ?_⟩
    · rw [hend, heq, haccs]
    · rw [hend, heq]
      exact congrFun hmem q
  · obtain ⟨n, hpl, hfree, hlow, heq⟩ := hout hd
    have harea := htab.area (unitWho t.ctx) ((s.ctx t.ctx).trhBase + 16 * (k * 2 ^ 20 + n)) 16 false true
    have hlen : (toLe 8 (t.rs a).toNat ++ toLe 8 (t.rs (sregAt a 1)).toNat).length = 16 := by
      rw [List.length_append, length_toLe, length_toLe]
    have hmem' : s'.memGet = m.memGet := by
      rw [hend]
      rfl
    refine ⟨n, hpl, hfree, hlow, fun ps hps q => ?_, fun hbad q => ?_⟩
    · rw [hmem', heq]
      refine (congrFun (memGet_areaPut (ps := ps) ?_) q).trans ?_
      · rw [hlen]
        exact harea.trans hps
      · rw [laidHere_congr hlocal, hmem]
    · rw [hmem', heq, areaPut_bad, hmem]
      rw [hlen]
      exact fun h => hbad (harea ▸ h)

/-- What a pop takes is one of the 64 smallest keys. -/
theorem trailPop_spec {s : State} {ctx q : Nat} (hl : s.trailQ ctx q ≠ []) : ∃ n e, (s.trailQ ctx q)[n]? = some e ∧
    ((s.trailQ ctx q).filter fun x => decide (x.key.toNat < e.key.toNat)).length < 64 ∧
    s.trailPop ctx q = some ((s.setTrail ctx q ((s.trailQ ctx q).eraseIdx n)).tickFree, e.key, e.val) := by
  generalize hlq : s.trailQ ctx q = l at *
  unfold State.trailPop
  rw [hlq]
  dsimp only
  generalize hix : (List.range l.length).filter _ = ix
  have hmem {i : Nat} (h : i ∈ ix) : ∃ e, l[i]? = some e ∧ (l.filter fun x => decide (x.key.toNat < e.key.toNat)).length < 64 := by
    rw [← hix, List.mem_filter] at h
    obtain ⟨hr, hb⟩ := h
    have hi : i < l.length := List.mem_range.1 hr
    rw [List.getElem?_eq_getElem hi] at hb ⊢
    exact ⟨_, rfl, by simpa using hb⟩
  have hne : ix ≠ [] := by
    have hpos : 0 < l.length := List.length_pos_of_ne_nil hl
    obtain ⟨i, -, hmin⟩ := Finset.exists_min_image (Finset.univ : Finset (Fin l.length)) (fun i => l[i].key.toNat) ⟨⟨0, hpos⟩, Finset.mem_univ _⟩
    have hnone : (l.filter fun x => decide (x.key.toNat < l[i].key.toNat)) = [] := by
      refine List.filter_eq_nil_iff.2 fun x hx => ?_
      obtain ⟨j, hj, rfl⟩ := List.getElem_of_mem hx
      simpa using hmin ⟨j, hj⟩ (Finset.mem_univ _)
    refine List.ne_nil_of_mem (a := i.val) ?_
    rw [← hix, List.mem_filter, List.mem_range, List.getElem?_eq_getElem i.isLt]
    exact ⟨i.isLt, by simpa using hnone ▸ Nat.zero_lt_succ 63⟩
  have hlt : Config.freeNat s.free % ix.length < ix.length := Nat.mod_lt _ (List.length_pos_of_ne_nil hne)
  rw [List.getElem?_eq_getElem hlt]
  obtain ⟨e, he, hfew⟩ := hmem (List.getElem_mem hlt)
  refine ⟨_, e, he, hfew, ?_⟩
  dsimp only
  rw [he]

theorem popScalar_trail {d : SReg} {s1 : State} {key val : W64} (hk : (t.bind q).kind = 2) (hp : ∀ r ∈ ss d 2, s.pendingReg c t r = false)
    (hrun : s.unitsRun (s.ctx t.ctx).part = true) (hl : s.trailQ t.ctx (fld (t.bind q).arg.toNat 0 4) ≠ [])
    (hpop : s.trailPop t.ctx (fld (t.bind q).arg.toNat 0 4) = some (s1, key, val)) (ht : s1.team? c slot = some t) :
    (t.x s c slot h).popScalar s d q = .done ((s1.setTeam c slot ((t.ws d key).ws (sregAt d 1) val)).acquired c t.uid) := by
  have hcount : s.popCount t.ctx (t.bind q) = some (s.trailQ t.ctx (fld (t.bind q).arg.toNat 0 4)).length := by
    unfold State.popCount
    simp only [hk, hrun, if_true]
  have hitems : s.popItems t.ctx (t.bind q) 1 = (s1, [(key, val)]) := by
    unfold State.popItems
    simp only [hk, hpop]
    rfl
  unfold X.popScalar
  simp only [show (t.x s c slot h).team = t from rfl, hk, hcount, if_true]
  refine (more_ready (x := t.x s c slot h) (reads := false) _ hp nofun).trans ?_
  rw [if_neg (fun hn => hl (List.length_eq_zero_iff.1 hn)), show (t.x s c slot h).team = t from rfl, hitems]
  exact congrArg (fun m => Res.done (State.acquired m c t.uid)) (modTeam_eq_setTeam _ ht)

/-- What a pop takes at its endpoint is none of the team's. -/
theorem portFrame_of_rest {m : State} (hm : m = { s with ctxs := m.ctxs, free := m.free, stks := m.stks, seq := m.seq, mem := m.mem }) :
    Claims.PortFrame s m c slot := by
  have hvreg (k : Nat) (r : VReg) (l : Nat) : m.vreg c k r l = s.vreg c k r l := by
    rw [hm]
    rfl
  refine ⟨fun k _ => ?_, fun k _ => hvreg k, fun d _ => ?_, ?_, ?_, fun _ => ?_⟩
  · rw [hm]
  · rw [hm]; rfl
  · rw [hm]; rfl
  · rw [hm]
    exact ⟨rfl, rfl, rfl, [], (List.append_nil _).symm⟩
  · rw [hm]

/-- A team writes its own registers and acquires, once a state of its teams has been prepared. -/
theorem popped_done {i : Instr} {m : State} {t1 : Team} (hs : slot < 16) (hm : m.teams = s.teams) (ht : s.team? c slot = some t)
    (hof : s.teamOf t.uid = some (tkey c slot, t)) (hv : t1.vmap = t.vmap) (hu : t1.uid = t.uid) {s' : State}
    (hs' : settleTeam i h s c slot t (.done ((m.setTeam c slot t1).acquired c t.uid)) = s') :
    Claims.PortFrame m s' c slot ∧ Claims.Goes s c slot t t1 s' ∧
      s' = { m with teams := s'.teams, cores := s'.cores, accs := s'.accs, ctr := s'.ctr } ∧ (s'.core c).rx = (m.core c).rx := by
  have htm : m.team? c slot = some t := by
    unfold State.team?
    rw [hm]
    exact ht
  have hofm : m.teamOf t.uid = some (tkey c slot, t) := by
    unfold State.teamOf
    rw [hm]
    exact hof
  rw [← hu] at hs'
  obtain ⟨hf, hgoes, hrest, hrx⟩ := acquire_after hs (State.team_setTeam_same m c slot t1) (hu.symm ▸ teamOf_put hofm hu) hs'
  exact ⟨PortFrame.trans (PortFrame.setTeam hs htm hv) hf ⟨rfl, fun _ => rfl⟩, hgoes, hrest, hrx⟩

theorem trailPop_holds {d : SReg} (hs : slot < 16) (w : TeamIssues (.smov h (.pop d q)) h s c slot t) (h0 : t.adm h ≠ 0)
    (hk : (t.bind q).kind = 2) (hd : d.val % 2 = 0) (hn : d.val + 2 ≤ t.hdr.ns) (hp : ∀ r ∈ ss d 2, s.pendingReg c t r = false)
    (hof : s.teamOf t.uid = some (tkey c slot, t)) (hrun : s.unitsRun (s.ctx t.ctx).part = true)
    (hl : s.trailQ t.ctx (fld (t.bind q).arg.toNat 0 4) ≠ []) :
    ∃ s' n e, exec (.smov h (.pop d q)) s = .next s' ∧ Claims.PortFrame s s' c slot ∧ (∀ q, s'.memGet q = s.memGet q) ∧
      (s.trailQ t.ctx (fld (t.bind q).arg.toNat 0 4))[n]? = some e ∧
      ((s.trailQ t.ctx (fld (t.bind q).arg.toNat 0 4)).filter fun x => decide (x.key.toNat < e.key.toNat)).length < 64 ∧
      Claims.Goes s c slot t ((t.ws d e.key).ws (sregAt d 1) e.val) s' ∧
      s'.trailQ t.ctx (fld (t.bind q).arg.toNat 0 4) = (s.trailQ t.ctx (fld (t.bind q).arg.toNat 0 4)).eraseIdx n := by
  obtain ⟨n, e, he, hfew, hpop⟩ := trailPop_spec hl
  have hexec := exec_smov_pop w h0 (fun _ => ⟨hd, hn⟩) (popScalar_trail hk hp hrun hl hpop w.2.1) nofun
  have hv : ((t.ws d e.key).ws (sregAt d 1) e.val).vmap = t.vmap := by rw [Team.ws_frame, Team.ws_frame t]
  have hu : ((t.ws d e.key).ws (sregAt d 1) e.val).uid = t.uid := by rw [Team.ws_frame, Team.ws_frame t]
  generalize ht1 : (t.ws d e.key).ws (sregAt d 1) e.val = t1 at *
  generalize hm : (s.setTrail t.ctx (fld (t.bind q).arg.toNat 0 4) ((s.trailQ t.ctx (fld (t.bind q).arg.toNat 0 4)).eraseIdx n)).tickFree = m at hexec
  have hmrest : m = { s with ctxs := m.ctxs, free := m.free } := by
    rw [← hm]
    rfl
  have hq : m.trailQ t.ctx (fld (t.bind q).arg.toNat 0 4) = (s.trailQ t.ctx (fld (t.bind q).arg.toNat 0 4)).eraseIdx n := by
    rw [← hm]
    exact (trailQ_setTrail ..).trans (if_pos rfl)
  have hteams : m.teams = s.teams := by rw [hmrest]
  clear hm hpop
  obtain ⟨hf, hgoes, hend, -⟩ := popped_done (i := .smov h (.pop d q)) (h := h) hs hteams w.2.1 hof hv hu rfl
  generalize settleTeam (.smov h (.pop d q)) h s c slot t _ = s' at hexec hf hgoes hend
  refine ⟨s', n, e, hexec, PortFrame.trans ?_ hf ?_, fun q => ?_, he, hfew, ht1 ▸ hgoes, ?_⟩
  · exact portFrame_of_rest (by rw [hmrest])
  · rw [hmrest]
    exact ⟨rfl, fun _ => rfl⟩
  · rw [hend, hmrest]
    rfl
  · rw [hend]
    exact hq

/-! The port of a Strike engine (R246). -/

theorem pushScalar_strike {a : SReg} (hk : (t.bind q).kind = 5) (ha : (t.rs a).toNat % 64 = 0) (ho : s.owes t.uid s.seq = false)
    (hroom : s.strikeRoom (fld (t.bind q).arg.toNat 0 2) = true) : (t.x s c slot h).pushScalar s q a =
      .done ((s.killLoads c slot).strikePush (fld (t.bind q).arg.toNat 0 2) (t.who c) t.depth (t.rs a).toNat) := by
  unfold X.pushScalar
  simp only [show (t.x s c slot h).team = t from rfl, hk]
  refine (if_neg ?_).trans (push_ready (x := t.x s c slot h) _ ho hroom)
  rw [show (t.x s c slot h).src.team.rs a = t.rs a from rfl, ha]
  decide

theorem strikePush_holds {a : SReg} (hs : slot < 16) (w : TeamIssues (.smov h (.push q a)) h s c slot t) (h0 : t.adm h ≠ 0)
    (hk : (t.bind q).kind = 5) (ha : (t.rs a).toNat % 64 = 0) (ho : s.owes t.uid s.seq = false) {k : Nat}
    (hkq : fld (t.bind q).arg.toNat 0 2 = k) (hrun : s.unitsRun (s.partOf k) = true) (hlen : (s.stk k).strikeQ.length < 64) :
    ∃ s', exec (.smov h (.push q a)) s = .next s' ∧ Claims.PortFrame s s' c slot ∧ (∀ q, s'.memGet q = s.memGet q) ∧
      Claims.Goes s c slot t t s' ∧ (∀ j, j ≠ k → s'.stk j = s.stk j) ∧
      s'.stk k = { s.stk k with strikeQ := (s.stk k).strikeQ ++ [⟨(t.rs a).toNat, t.ctx, t.depth, s.seq, t.uid, c⟩] } := by
  have hroom : s.strikeRoom (fld (t.bind q).arg.toNat 0 2) = true := by
    unfold State.strikeRoom
    rw [hkq, hrun]
    simpa using hlen
  have hexec := exec_smov_push w h0 (fun h => by omega) (pushScalar_strike hk ha ho hroom) nofun
  rw [hkq] at hexec
  have hstk (j : Nat) : ((s.killLoads c slot).strikePush k (t.who c) t.depth (t.rs a).toNat).stk j =
      if j = k then { s.stk k with strikeQ := (s.stk k).strikeQ ++ [⟨(t.rs a).toNat, t.ctx, t.depth, s.seq, t.uid, c⟩] } else s.stk j :=
    State.stk_modStk (s.killLoads c slot) k j fun x => { x with strikeQ := x.strikeQ ++ [⟨(t.rs a).toNat, t.ctx, t.depth, s.seq, t.uid, c⟩] }
  have hframe : Claims.PortFrame (s.killLoads c slot) ((s.killLoads c slot).strikePush k (t.who c) t.depth (t.rs a).toNat) c slot :=
    portFrame_of_rest rfl
  have hrest : (s.killLoads c slot).strikePush k (t.who c) t.depth (t.rs a).toNat = { s.killLoads c slot with
      stks := ((s.killLoads c slot).strikePush k (t.who c) t.depth (t.rs a).toNat).stks, seq := s.seq + 1 } := rfl
  generalize (s.killLoads c slot).strikePush k (t.who c) t.depth (t.rs a).toNat = m at *
  have hteam : m.team? c slot = some t := by
    rw [hrest]
    exact w.2.1
  obtain ⟨hf, hgoes, hend⟩ := goes_done (i := .smov h (.push q a)) (h := h) (s := s) (t := t) hs hteam rfl
  generalize settleTeam (.smov h (.push q a)) h s c slot t _ = s' at hexec hf hgoes hend
  refine ⟨s', hexec, PortFrame.trans (PortFrame.trans (PortFrame.killLoads ..) hframe ⟨rfl, fun _ => rfl⟩) hf ?_, fun q => ?_, hgoes,
    fun j hj => ?_, ?_⟩
  · rw [hrest]
    exact ⟨rfl, fun _ => rfl⟩
  · rw [hend, hrest]
    rfl
  · rw [hend]
    exact (hstk j).trans (if_neg hj)
  · rw [hend]
    exact (hstk k).trans (if_pos rfl)

/-! Messages (R105, R274). -/

theorem pushScalar_message {a : SReg} (hk : (t.bind q).kind = 1) (hb : fld (t.rs a).toNat 0 32 + 64 ≤ t.hdr.packBytes)
    (ho : s.owes t.uid s.seq = false) (hnet : ∀ f ∈ s.net, f.uid ≠ t.uid) : (t.x s c slot h).pushScalar s q a =
      if t.wait.isSome then .done (s.killLoads c slot) else .wait { s with net := s.net ++
        [⟨t.uid, c, (t.bind q).dst, t.ctx, (t.bind q).tag, s.memRead (packKey t.blk (fld (t.rs a).toNat 0 32)) 64⟩] } := by
  have hnone : (s.net.any fun f => f.uid == t.uid) = false := by
    simpa using hnet
  unfold X.pushScalar
  simp only [show (t.x s c slot h).team = t from rfl, hk]
  refine (if_neg (Nat.not_lt.mpr hb)).trans ?_
  rw [ho, if_neg Bool.false_ne_true, hnone, if_neg Bool.false_ne_true]
  rfl

/-- A message is sent, and its team waits until it is accepted. -/
theorem messagePush_sends {a : SReg} (w : TeamIssues (.smov h (.push q a)) h s c slot t) (h0 : t.adm h ≠ 0) (hk : (t.bind q).kind = 1)
    (hb : fld (t.rs a).toNat 0 32 + 64 ≤ t.hdr.packBytes) (ho : s.owes t.uid s.seq = false) (hnet : ∀ f ∈ s.net, f.uid ≠ t.uid)
    (hw : t.wait = none) : ∃ s', exec (.smov h (.push q a)) s = .next s' ∧ (∀ q, s'.memGet q = s.memGet q) ∧
      s'.net = s.net ++ [⟨t.uid, c, (t.bind q).dst, t.ctx, (t.bind q).tag, s.memRead (packKey t.blk (fld (t.rs a).toNat 0 32)) 64⟩] ∧
      s'.team? c slot = some { t with wait := some (.instr (.smov h (.push q a)) s.seq (s.nextOf c t)) } ∧
      s' = { s with net := s'.net, teams := s'.teams, seq := s.seq + 1 } := by
  refine ⟨_, (exec_smov_push w h0 (fun h => by omega) ((pushScalar_message hk hb ho hnet).trans (if_neg ?_)) nofun).trans
    (congrArg Host.Outcome.next (settleTeam_wait (t1 := t) hw w.2.1)), fun q => rfl, rfl, ?_, rfl⟩
  · rw [hw]
    exact Bool.false_ne_true
  · exact State.team_setTeam_same ..

/-- Once its message has been accepted the team goes on. -/
theorem messagePush_ends {a : SReg} (hs : slot < 16) (w : TeamIssues (.smov h (.push q a)) h s c slot t) (h0 : t.adm h ≠ 0)
    (hk : (t.bind q).kind = 1) (hb : fld (t.rs a).toNat 0 32 + 64 ≤ t.hdr.packBytes) (ho : s.owes t.uid s.seq = false)
    (hnet : ∀ f ∈ s.net, f.uid ≠ t.uid) (hw : t.wait ≠ none) :
    ∃ s', exec (.smov h (.push q a)) s = .next s' ∧ Claims.PortFrame s s' c slot ∧ (∀ q, s'.memGet q = s.memGet q) ∧ s'.net = s.net ∧
      Claims.Goes s c slot t t s' := by
  obtain ⟨hf, hgoes, hend, -⟩ := killLoads_done (i := .smov h (.push q a)) (h := h) (s := s) (t := t) hs w.2.1 rfl
  refine ⟨_, exec_smov_push w h0 (fun h => by omega) ((pushScalar_message hk hb ho hnet).trans (if_pos ?_)) nofun, hf, fun q => ?_, ?_, hgoes⟩
  · exact Option.isSome_iff_ne_none.mpr hw
  · rw [hend]
    rfl
  · rw [hend]

/-- A flit enters the buffer of its core. -/
theorem flitAccept_holds {k : Nat} {f : Flit} (hf : s.net[k]? = some f) (hlen : (s.core f.dst).rx.length < 64)
    (hfirst : ∀ j g, j < k → s.net[j]? = some g → ¬ (g.src = f.src ∧ g.dst = f.dst ∧ g.tag = f.tag)) :
    ∃ s', exec (.messageFlitAccept k) s = .next s' ∧ s' = { s with net := s.net.eraseIdx k, cores := s'.cores } ∧
      (∀ d, d ≠ f.dst → s'.core d = s.core d) ∧ s'.core f.dst = { s.core f.dst with rx := (s.core f.dst).rx ++ [f] } := by
  have hno : (s.net.take k).any (fun g => g.src == f.src && g.dst == f.dst && g.tag == f.tag) = false := by
    refine List.any_eq_false.2 fun g hg => ?_
    obtain ⟨j, hj, rfl⟩ := List.getElem_of_mem hg
    obtain ⟨hjk, hjn⟩ : j < k ∧ j < s.net.length := by simpa using hj
    rw [List.getElem_take]
    simpa [and_assoc] using hfirst j _ hjk (List.getElem?_eq_getElem hjn)
  have hexec : exec (.messageFlitAccept k) s =
      .next { s.modCore f.dst fun c => { c with rx := c.rx ++ [f] } with net := s.net.eraseIdx k } := by
    refine congrArg Host.Outcome.next ?_
    simp only [hf]
    refine if_neg ?_
    rw [hno, Bool.or_false, decide_eq_true_eq]
    exact Nat.not_le.mpr hlen
  refine ⟨_, hexec, rfl, fun d hd => ?_, ?_⟩
  · exact (State.core_modCore s f.dst d fun x => { x with rx := x.rx ++ [f] }).trans (if_neg hd)
  · exact (State.core_modCore s f.dst f.dst fun x => { x with rx := x.rx ++ [f] }).trans (if_pos rfl)

/-- The oldest flit of a context and tag, and a buffer without it. -/
theorem takeFlit_spec {x : Core} {ctx tag : Nat} {pre post : List Flit} {f : Flit} (hrx : x.rx = pre ++ f :: post) (hc : f.ctx = ctx)
    (ht : f.tag = tag) (hpre : ∀ g ∈ pre, ¬ (g.ctx = ctx ∧ g.tag = tag)) :
    x.flit ctx tag = some f ∧ x.takeFlit ctx tag = { x with rx := pre ++ post } := by
  have hf : (f.ctx == ctx && f.tag == tag) = true := by
    simp [hc, ht]
  have hno : ∀ g ∈ pre, (!(g.ctx == ctx && g.tag == tag)) = true := fun g hg => by
    simpa [imp_iff_not_or] using hpre g hg
  constructor
  · unfold Core.flit
    rw [hrx, List.find?_append, List.find?_eq_none.2 fun g hg => by simpa [imp_iff_not_or] using hno g hg, List.find?_cons, hf]
    rfl
  · unfold Core.takeFlit
    rw [hrx, List.takeWhile_append_of_pos hno, List.dropWhile_append_of_pos hno, List.takeWhile_cons, List.dropWhile_cons, hf]
    simp

theorem popScalar_message {d : SReg} {f : Flit} {m : State} (hk : (t.bind q).kind = 1) (hb : (t.bind q).buf + 64 ≤ t.hdr.packBytes)
    (hf : (s.core c).flit t.ctx (t.bind q).tag = some f)
    (hm : (s.modCore c fun x => x.takeFlit t.ctx (t.bind q).tag).memWrite (packKey t.blk (t.bind q).buf) f.data = m) (ht : m.team? c slot = some t) :
    (t.x s c slot h).popScalar s d q =
      .done ((m.setTeam c slot (t.ws d (BitVec.ofNat 64 (f.src * 2 ^ 48 + f.tag * 2 ^ 32)))).acquired c t.uid) := by
  unfold X.popScalar
  simp only [show (t.x s c slot h).team = t from rfl, hk]
  refine (if_neg (Nat.not_lt.mpr hb)).trans ?_
  rw [show ((s.core (t.x s c slot h).c).flit t.ctx (t.bind q).tag) = some f from hf]
  dsimp only
  rw [show (s.modCore (t.x s c slot h).c fun x => x.takeFlit t.ctx (t.bind q).tag).memWrite _ f.data = m from hm]
  exact congrArg (fun m => Res.done (State.acquired m c t.uid)) (modTeam_eq_setTeam _ ht)

theorem messagePop_holds {d : SReg} {pre post : List Flit} {f : Flit} (hs : slot < 16) (w : TeamIssues (.smov h (.pop d q)) h s c slot t)
    (h0 : t.adm h ≠ 0) (hk : (t.bind q).kind = 1) (hb : (t.bind q).buf + 64 ≤ t.hdr.packBytes)
    (hof : s.teamOf t.uid = some (tkey c slot, t)) (hrx : (s.core c).rx = pre ++ f :: post) (hfc : f.ctx = t.ctx)
    (hft : f.tag = (t.bind q).tag) (hpre : ∀ g ∈ pre, ¬ (g.ctx = t.ctx ∧ g.tag = (t.bind q).tag)) :
    ∃ s', exec (.smov h (.pop d q)) s = .next s' ∧ Claims.PortFrame s s' c slot ∧ (s'.core c).rx = pre ++ post ∧
      (∀ a, s'.memGet a = Claims.putAt s (packKey t.blk (t.bind q).buf) f.data a) ∧
      Claims.Goes s c slot t (t.ws d (BitVec.ofNat 64 (f.src * 2 ^ 48 + f.tag * 2 ^ 32))) s' := by
  obtain ⟨hfind, htake⟩ := takeFlit_spec hrx hfc hft hpre
  generalize hm0 : (s.modCore c fun x => x.takeFlit t.ctx (t.bind q).tag) = m0
  have hframe : Claims.PortFrame s m0 c slot := by
    rw [← hm0]
    refine PortFrame.modCore ?_
    rw [htake]
  have hcore : m0.core c = { s.core c with rx := pre ++ post } := by
    rw [← hm0, State.core_modCore, if_pos rfl, htake]
  have hrest : m0 = { s with cores := m0.cores } := by
    rw [← hm0]
    rfl
  generalize hm : m0.memWrite (packKey t.blk (t.bind q).buf) f.data = m
  have hmem (a : Nat) : m.memGet a = Claims.putAt s (packKey t.blk (t.bind q).buf) f.data a := by
    rw [← hm, memGet_memWrite, hrest]
    rfl
  have hmrest : m = { m0 with mem := m.mem } := by
    rw [← hm]
    rfl
  have hteams : m.teams = s.teams := by rw [hmrest, hrest]
  have hexec := exec_smov_pop w h0 (fun h => by omega) (popScalar_message (h := h) (d := d) hk hb hfind (hm0.symm ▸ hm)
    (by unfold State.team?; rw [hteams]; exact w.2.1)) nofun
  obtain ⟨hf, hgoes, hend, hrx'⟩ := popped_done (i := .smov h (.pop d q)) (h := h) hs hteams w.2.1 hof (t1 := t.ws d (BitVec.ofNat 64 (f.src * 2 ^ 48 + f.tag * 2 ^ 32))) (vmap_ws ..)
    (by rw [Team.ws_frame]) rfl
  generalize settleTeam (.smov h (.pop d q)) h s c slot t _ = s' at hexec hf hgoes hend hrx'
  have hclean : SameClean s m := by
    rw [hmrest, hrest]
    exact ⟨rfl, fun _ => rfl⟩
  have hmframe : Claims.PortFrame m0 m c slot := portFrame_of_rest (by rw [hmrest])
  refine ⟨s', hexec, PortFrame.trans (PortFrame.trans hframe hmframe ?_) hf hclean, ?_, fun a => ?_, hgoes⟩
  · rw [hrest]
    exact ⟨rfl, fun _ => rfl⟩
  · rw [hrx', show m.core c = m0.core c by rw [hmrest]; rfl, hcore]
  · rw [← hmem, hend]
    rfl

end

/-- Settles O38: a push does its work on a state whose load entries are killed, a pop writes the team's registers and acquires. -/
theorem messagesAndPorts : Obligations.MessagesAndPorts := by
  unfold Obligations.MessagesAndPorts
  refine ⟨⟨?_, ?_, ?_⟩, ?_, ?_, ?_⟩
  · intro h q a s c slot t off hs w h0 hk hb ho hnet
    exact ⟨messagePush_sends w h0 hk hb ho hnet, messagePush_ends hs w h0 hk hb ho hnet⟩
  · exact fun k f s hf hlen hfirst => flitAccept_holds hf hlen hfirst
  · exact fun h q d pre post f s c slot t hs w h0 hk hb hof hrx hfc hft hpre => messagePop_holds hs w h0 hk hb hof hrx hfc hft hpre
  · intro h q a s c slot t k used hs w h0 hk ha hn hp hu ho hroom
    exact trailPush_holds hs w h0 hk ha hn hp hu ho rfl hroom
  · intro h q d s c slot t k l hs w h0 hk hd hn hp hof hrun hl
    exact trailPop_holds hs w h0 hk hd hn hp hof hrun hl
  · intro h q a s c slot t k hs w h0 hk ha ho hrun hlen
    exact strikePush_holds hs w h0 hk ha ho rfl hrun hlen

end Sys2Proof.Proofs

end

section
/-! What moves of items into vector registers leave: new slices that hold the items (R84, R87, R104, R328). -/

open Sys2Proof Sys2Proof.Machine

namespace Sys2Proof.Proofs

/-! Lanes of slices written one by one. -/

theorem laneOf_setLane (d : BitVec 1024) {l i : Nat} (w : W32) (hl : l < 32) (hi : i < 32) :
    laneOf (setLane d l w) i = if i = l then w else laneOf d i := by
  unfold setLane
  rw [laneOf_write _ _ _ _ hi]
  have hbit : (bit32 l).getLsbD i = decide (i = l) := by
    unfold bit32
    rw [BitVec.getLsbD_shiftLeft, BitVec.getLsbD_one, Bool.eq_iff_iff]
    simp
    omega
  rw [hbit]
  by_cases h : i = l
  · subst h
    rw [decide_eq_true rfl, if_pos rfl, if_pos rfl]
    refine BitVec.eq_of_getLsbD_eq fun b hb => ?_
    rw [laneOf_bit _ _ _ hb]
    have h1 : 32 * i + b < 1024 := by omega
    have h2 : b < 1024 := by omega
    simp [BitVec.getLsbD_shiftLeft, BitVec.getLsbD_setWidth, h1, h2]
  · rw [decide_eq_false h, if_neg Bool.false_ne_true, if_neg h]

/-- A slice with lanes set: (lane, value), of which each register of an item takes its own 32 bits. -/
def setLanes (k : Nat) (vals : List (Nat × Nat)) (d : BitVec 1024) : BitVec 1024 :=
  vals.foldl (fun d v => setLane d (v.1 % 32) (regOf v.2 k)) d

theorem laneOf_setLanes (k : Nat) (vals : List (Nat × Nat)) (d : BitVec 1024) {i : Nat} (hi : i < 32) :
    ((∀ v ∈ vals, v.1 % 32 ≠ i) → laneOf (setLanes k vals d) i = laneOf d i) ∧
    ∀ f : Nat → Nat, (∀ v ∈ vals, v.1 % 32 = i → v.2 = f i) → (∃ v ∈ vals, v.1 % 32 = i) → laneOf (setLanes k vals d) i = regOf (f i) k := by
  unfold setLanes
  induction vals generalizing d with
  | nil => exact ⟨fun _ => rfl, fun _ _ h => by simp at h⟩
  | cons v vals ih =>
    obtain ⟨hout, hin⟩ := ih (setLane d (v.1 % 32) (regOf v.2 k))
    have hv := laneOf_setLane d (regOf v.2 k) (Nat.mod_lt v.1 (by decide : 0 < 32)) hi
    refine ⟨fun h => ?_, fun f hf hex => ?_⟩
    · rw [List.foldl_cons, hout fun w hw => h w (List.mem_cons_of_mem _ hw), hv, if_neg (Ne.symm (h v List.mem_cons_self))]
    · rw [List.foldl_cons]
      by_cases hrest : ∃ w ∈ vals, w.1 % 32 = i
      · exact hin f (fun w hw => hf w (List.mem_cons_of_mem _ hw)) hrest
      · obtain ⟨w, hw, hwi⟩ := hex
        have hwv : w = v := (List.mem_cons.1 hw).resolve_right fun h => hrest ⟨w, h, hwi⟩
        subst hwv
        rw [hout fun u hu hui => hrest ⟨u, hu, hui⟩, hv, if_pos hwi.symm, hf w List.mem_cons_self hwi]

/-- A register's slice takes its part of a value in a lane. -/
def putReg (lane v : Nat) (x : Core) (n k : Nat) : Core :=
  match x.phys.find n with
  | none => x
  | some p => { x with phys := x.phys.put n { p with data := setLane p.data (lane % 32) (regOf v k) } }

/-- The registers' slices, in order, take theirs. -/
def putRegs (lane v : Nat) : List Nat → Nat → Core → Core
  | [], _, x => x
  | n :: ns, k, x => putRegs lane v ns (k + 1) (putReg lane v x n k)

theorem phys_putReg (lane v : Nat) (x : Core) (n k m : Nat) : (putReg lane v x n k).phys.find m =
    if m = n then (x.phys.find n).map fun p => { p with data := setLane p.data (lane % 32) (regOf v k) } else x.phys.find m := by
  unfold putReg
  cases h : x.phys.find n with
  | none =>
    dsimp only [Option.map_none]
    split
    · next hm => rw [hm, h]
    · rfl
  | some p => exact Tbl.find_put ..

/-- x is y but for what slices hold: the same are allotted, to the same owners, in the same order. -/
structure SameSlices (x y : Core) : Prop where
  rest : y = { x with phys := y.phys }
  rising : x.phys.rising 1 = true → y.phys.rising 1 = true
  allotted : ∀ n, (y.phys.find n).isSome = (x.phys.find n).isSome

theorem SameSlices.refl (x : Core) : SameSlices x x := ⟨rfl, id, fun _ => rfl⟩

theorem SameSlices.trans {x y z : Core} (h : SameSlices x y) (g : SameSlices y z) : SameSlices x z :=
  ⟨by rw [g.rest, h.rest], fun r => g.rising (h.rising r), fun n => (g.allotted n).trans (h.allotted n)⟩

theorem find_pos_of_rising {α : Type} {t : Tbl α} {n : Nat} (r : t.rising 1 = true) (h : (t.find n).isSome = true) : 1 ≤ n := by
  by_contra hn
  rw [Tbl.find_none_of_rising r (by omega)] at h
  cases h

theorem sameSlices_putReg (lane v : Nat) (x : Core) (n k : Nat) : SameSlices x (putReg lane v x n k) := by
  refine ⟨?_, fun r => ?_, fun m => ?_⟩
  · unfold putReg
    split <;> rfl
  · unfold putReg
    split
    · exact r
    · next p hp => exact Tbl.rising_put _ (find_pos_of_rising r (Option.isSome_iff_exists.2 ⟨p, hp⟩)) r
  · rw [phys_putReg]
    split
    · next hm => rw [hm, Option.isSome_map]
    · rfl

theorem sameSlices_putRegs (lane v : Nat) (ns : List Nat) (k : Nat) (x : Core) : SameSlices x (putRegs lane v ns k x) := by
  induction ns generalizing k x with
  | nil => exact .refl x
  | cons n ns ih => exact (sameSlices_putReg ..).trans (ih ..)

theorem phys_putRegs (lane v : Nat) (ns : List Nat) (hnd : ns.Nodup) (k : Nat) (x : Core) :
    (∀ m, m ∉ ns → (putRegs lane v ns k x).phys.find m = x.phys.find m) ∧
    ∀ (i m : Nat), ns[i]? = some m → (putRegs lane v ns k x).phys.find m =
      (x.phys.find m).map fun p => { p with data := setLane p.data (lane % 32) (regOf v (k + i)) } := by
  induction ns generalizing k x with
  | nil => exact ⟨fun _ _ => rfl, fun i m h => by simp at h⟩
  | cons n ns ih =>
    obtain ⟨hn, hnd'⟩ := List.nodup_cons.1 hnd
    obtain ⟨hout, hin⟩ := ih hnd' (k + 1) (putReg lane v x n k)
    unfold putRegs
    refine ⟨fun m hm => ?_, fun i m hi => ?_⟩
    · rw [List.mem_cons, not_or] at hm
      rw [hout m hm.2, phys_putReg, if_neg hm.1]
    · cases i with
      | zero =>
        obtain rfl : n = m := by simpa using hi
        rw [hout n hn, phys_putReg, if_pos rfl]
        rfl
      | succ i =>
        have hi' : ns[i]? = some m := by simpa using hi
        have hmn : m ≠ n := fun h => hn (h ▸ List.mem_of_getElem? hi')
        rw [hin i m hi', phys_putReg, if_neg hmn, Nat.add_assoc, Nat.add_comm 1 i]

/-- Values of several lanes are delivered one after the other. -/
def putVals (ns : List Nat) (vals : List (Nat × Nat)) (x : Core) : Core := vals.foldl (fun x v => putRegs v.1 v.2 ns 0 x) x

theorem sameSlices_putVals (ns : List Nat) (vals : List (Nat × Nat)) (x : Core) : SameSlices x (putVals ns vals x) := by
  unfold putVals
  induction vals generalizing x with
  | nil => exact .refl x
  | cons v vals ih => exact (sameSlices_putRegs ..).trans (ih _)

theorem phys_putVals {ns : List Nat} (hnd : ns.Nodup) (vals : List (Nat × Nat)) (x : Core) :
    (∀ m, m ∉ ns → (putVals ns vals x).phys.find m = x.phys.find m) ∧
    ∀ (i m : Nat), ns[i]? = some m → (putVals ns vals x).phys.find m = (x.phys.find m).map fun p => { p with data := setLanes i vals p.data } := by
  unfold putVals setLanes
  induction vals generalizing x with
  | nil => exact ⟨fun _ _ => rfl, fun i m _ => by simp⟩
  | cons v vals ih =>
    obtain ⟨hout, hin⟩ := ih (putRegs v.1 v.2 ns 0 x)
    obtain ⟨ho, hi⟩ := phys_putRegs v.1 v.2 ns hnd 0 x
    refine ⟨fun m hm => ?_, fun i m him => ?_⟩
    · rw [List.foldl_cons, hout m hm, ho m hm]
    · rw [List.foldl_cons, hin i m him, hi i m him, Option.map_map, Nat.zero_add]
      rfl

/-! The same as deliveries of a state. -/

theorem deliverTo_withPair (s : State) (c slot uid lane n k len v : Nat) (ct : Core × Team) :
    (withPair s c slot ct).deliverTo c uid lane (.slice n) k len false v = withPair s c slot (putReg lane v ct.1 n k, ct.2) := by
  unfold State.deliverTo putReg
  cases hf : ct.1.phys.find n with
  | none => simp only [core_withPair, hf]
  | some p =>
    simp only [core_withPair, hf, State.modCore]
    simp [withPair, State.setCore, State.setTeam, extendTo]

theorem deliver_withPair {s : State} {c slot lane v : Nat} {a : Access} {ns : List Nat} (hc : a.core = c) (hl : a.lane = lane)
    (hd : a.dests = ns.map Dest.slice) (hsx : a.sx = false) (ct : Core × Team) :
    (withPair s c slot ct).deliver a v = withPair s c slot (putRegs lane v ns 0 ct.1, ct.2) := by
  have hfold (ns : List Nat) (k : Nat) (x : Core) : ((ns.map Dest.slice).foldl (fun (y : State × Nat) d =>
      (y.1.deliverTo c a.uid lane d y.2 a.len false v, y.2 + 1)) (withPair s c slot (x, ct.2), k)).1 =
        withPair s c slot (putRegs lane v ns k x, ct.2) := by
    induction ns generalizing k x with
    | nil => rfl
    | cons n ns ih =>
      rw [List.map_cons, List.foldl_cons, deliverTo_withPair, ih]
      rfl
  unfold State.deliver
  rw [hd, hc, hl, hsx]
  exact hfold ns 0 ct.1

/-- One pass of a write of items: its slices are allotted, and each takes its lanes. -/
def itemPass (d : VReg) (n : Nat) (m : Mask) (vals : List (Nat × Nat)) (ct : Core × Team) (j : Nat) : Core × Team :=
  (putVals ((List.range n).map fun k => (allocPass d n m ct j).2.slice (vregAt d k).val j) (vals.filter fun v => v.1 / 32 == j)
    (allocPass d n m ct j).1, (allocPass d n m ct j).2)

/-- The step of the model's write. -/
def writeStep (x : X) (d : VReg) (n : Nat) (m : Mask) (vals : List (Nat × Nat)) (s : State) (j : Nat) : State :=
  (vals.filter fun v => v.1 / 32 == j).foldl (fun a v =>
    a.deliver { mkAccess x.who .read ⟨0, 0, 0⟩ 4 0 with dests := (s.alloc x d n j (maskWord m j)).2.map Dest.slice, lane := v.1 } v.2)
    (s.alloc x d n j (maskWord m j)).1

theorem writeLanes_eq (x : X) (s : State) (d : VReg) (n : Nat) (vals : List (Nat × Nat)) : x.writeLanes s d n vals =
    (passes (maskOf (vals.map Prod.fst) fun _ => true)).foldl (writeStep x d n (maskOf (vals.map Prod.fst) fun _ => true) vals) s := rfl

theorem writeStep_withPair (x : X) (s : State) (d : VReg) (n : Nat) (m : Mask) (vals : List (Nat × Nat)) (ct : Core × Team) (j : Nat) :
    writeStep x d n m vals (withPair s x.c x.slot ct) j = withPair s x.c x.slot (itemPass d n m vals ct j) := by
  unfold writeStep itemPass
  rw [alloc_withPair]
  dsimp only
  generalize (List.range n).map (fun k => (allocPass d n m ct j).2.slice (vregAt d k).val j) = ns
  generalize allocPass d n m ct j = b
  generalize vals.filter (fun v => v.1 / 32 == j) = vs
  obtain ⟨b1, b2⟩ := b
  dsimp only
  unfold putVals
  induction vs generalizing b1 with
  | nil => rfl
  | cons v vs ih =>
    rw [List.foldl_cons, List.foldl_cons, deliver_withPair (c := x.c) (lane := v.1) (ns := ns) rfl rfl rfl rfl]
    exact ih _

theorem writeLanes_withPair {x : X} {s : State} {t : Team} (ht : s.team? x.c x.slot = some t) (d : VReg) (n : Nat) (vals : List (Nat × Nat))
    {m : Mask} (hm : maskOf (vals.map Prod.fst) (fun _ => true) = m) (h0 : m ≠ 0) :
    x.writeLanes s d n vals = withPair s x.c x.slot ((passes m).foldl (itemPass d n m vals) (s.core x.c, t)) := by
  have hsteps (js : List Nat) (ct : Core × Team) : js.foldl (writeStep x d n m vals) (withPair s x.c x.slot ct) =
      withPair s x.c x.slot (js.foldl (itemPass d n m vals) ct) := by
    induction js generalizing ct with
    | nil => rfl
    | cons j js ih => rw [List.foldl_cons, writeStep_withPair, ih, List.foldl_cons]
  rw [writeLanes_eq, hm, ← hsteps]
  cases hp : passes m with
  | nil => exact absurd hp (passes_ne_nil h0)
  | cons j js =>
    have hfirst : s.alloc x d n j (maskWord m j) = (withPair s x.c x.slot (s.core x.c, t)).alloc x d n j (maskWord m j) := by
      rw [alloc_withPair]
      unfold State.alloc
      simp only [ht, Option.getD_some]
      rfl
    rw [List.foldl_cons, List.foldl_cons]
    unfold writeStep
    rw [hfirst]

/-! What the passes leave. -/

/-- The slices that registers take, one after the other. -/
theorem allots_fresh (d : VReg) (w : W32) {j : Nat} (hj : j < 32) (ks : List Nat) (hnd : ks.Nodup) (hks : ∀ k ∈ ks, k < 64) {ct ct' : Core × Team}
    (ok : PairOk ct) (hct : ks.foldl (fun ct k => writePass ct (vregAt d k) j w 0) ct = ct') :
    Grown ct ct' ∧ ct'.2.flagsDue = ct.2.flagsDue ∧
    (∀ k ∈ ks, ct.1.phys.find (ct'.2.slice (vregAt d k).val j) = none ∧ (ct'.1.phys.find (ct'.2.slice (vregAt d k).val j)).isSome = true) ∧
    (∀ k ∈ ks, ∀ l ∈ ks, ct'.2.slice (vregAt d k).val j = ct'.2.slice (vregAt d l).val j → k = l) ∧
    (∀ r i, i < 32 → (∀ k ∈ ks, ¬ (r = (vregAt d k).val ∧ i = j)) → ct'.2.slice r i = ct.2.slice r i) ∧
    ∀ r i l, i < 32 → l < 32 → (∀ k ∈ ks, ¬ (r = (vregAt d k).val ∧ i = j ∧ w.getLsbD l = true)) → laneAt ct' r i l = laneAt ct r i l := by
  have hinj {k l : Nat} (hk : k < 64) (hl : l < 64) (h : (vregAt d k).val = (vregAt d l).val) : k = l := by
    unfold vregAt at h
    dsimp only at h
    omega
  subst hct
  induction ks generalizing ct with
  | nil => exact ⟨.refl ok, rfl, by simp, by simp, fun _ _ _ _ => rfl, fun _ _ _ _ _ _ => rfl⟩
  | cons k ks ih =>
    obtain ⟨hk, hnd'⟩ := List.nodup_cons.1 hnd
    have hk64 := hks k List.mem_cons_self
    have hks' : ∀ l ∈ ks, l < 64 := fun l hl => hks l (List.mem_cons_of_mem _ hl)
    obtain ⟨hok, hkept, hcore, hteam, hlane⟩ := writePass_spec ok (vregAt d k) j hj w 0
    have g1 : Grown ct (writePass ct (vregAt d k) j w 0) := by
      refine ⟨hok, hkept, ?_, hteam⟩
      rw [hcore]
    have hslice : (writePass ct (vregAt d k) j w 0).2.slice (vregAt d k).val j = ct.1.freeSlice := by
      simp only [writePass, Team.slice_pointOver, Team.slice_point, if_pos]
    have hfree : ct.1.phys.find ct.1.freeSlice = none := (freeFrom_spec ok.1).2
    have hsome : ((writePass ct (vregAt d k) j w 0).1.phys.find ct.1.freeSlice).isSome = true := by
      simp only [writePass, Tbl.find_put_same, Option.isSome_some]
    have hflags : (writePass ct (vregAt d k) j w 0).2.flagsDue = ct.2.flagsDue := by
      simp only [writePass, flagsDue_eq, Team.pointOver, Team.point, flags_cover]
    have hother (r i : Nat) (hi : i < 32) (h : ¬ (r = (vregAt d k).val ∧ i = j)) :
        (writePass ct (vregAt d k) j w 0).2.slice r i = ct.2.slice r i :=
      slice_writePass _ _ _ _ _ _ _ fun e => h (mkey_inj hi hj e)
    rw [List.foldl_cons]
    generalize writePass ct (vregAt d k) j w 0 = c1 at *
    obtain ⟨g2, hf2, hfresh2, hinj2, hother2, hlane2⟩ := ih hnd' hks' hok
    generalize ks.foldl (fun ct k => writePass ct (vregAt d k) j w 0) c1 = c2 at *
    have hnot : ∀ l ∈ ks, ¬ ((vregAt d k).val = (vregAt d l).val ∧ j = j) := fun l hl h => hk (hinj hk64 (hks' l hl) h.1 ▸ hl)
    have hsk : c2.2.slice (vregAt d k).val j = ct.1.freeSlice := (hother2 _ _ hj hnot).trans hslice
    have hdiff : ∀ l ∈ ks, c2.2.slice (vregAt d l).val j ≠ ct.1.freeSlice := fun l hl h => by
      have := (hfresh2 l hl).1
      rw [h] at this
      rw [this] at hsome
      cases hsome
    refine ⟨g1.trans g2, hf2.trans hflags, fun l hl => ?_, fun a ha b hb hab => ?_, fun r i hi h => ?_, fun r i l hi hl h => ?_⟩
    · rcases List.mem_cons.1 hl with rfl | hl
      · rw [hsk]
        refine ⟨hfree, ?_⟩
        obtain ⟨p, hp⟩ := Option.isSome_iff_exists.1 hsome
        rw [g2.2.1 _ _ hp]
        rfl
      · refine ⟨?_, (hfresh2 l hl).2⟩
        cases hfnd : ct.1.phys.find (c2.2.slice (vregAt d l).val j) with
        | none => rfl
        | some p => exact absurd ((g1.2.1 _ _ hfnd).symm.trans (hfresh2 l hl).1) nofun
    · rcases List.mem_cons.1 ha with rfl | ha'
      · rcases List.mem_cons.1 hb with rfl | hb'
        · rfl
        · exact absurd (hab.symm.trans hsk) (hdiff b hb')
      · rcases List.mem_cons.1 hb with rfl | hb'
        · exact absurd (hab.trans hsk) (hdiff a ha')
        · exact hinj2 a ha' b hb' hab
    · rw [hother2 r i hi fun l hl => h l (List.mem_cons_of_mem _ hl), hother r i hi (h k List.mem_cons_self)]
    · rw [hlane2 r i l hi hl fun a ha => h a (List.mem_cons_of_mem _ ha), hlane r i l hi hl, if_neg (h k List.mem_cons_self)]

theorem data_of_find {x y : Core} {n m : Nat} (h : x.phys.find n = y.phys.find m) (h0 : n = 0 ↔ m = 0) : x.data n = y.data m := by
  unfold Core.data
  rw [Tbl.get_eq_find, Tbl.get_eq_find, h]
  simp only [h0]

/-- What a lane of a register holds of an item: the register's own 32 bits. -/
def itemLane (d : VReg) (f : Nat → Nat) (r i l : Nat) : W32 := regOf (f (32 * i + l)) ((r + 64 - d.val) % 64)

theorem itemLane_at (d : VReg) (f : Nat → Nat) {k : Nat} (hk : k < 64) (i l : Nat) : itemLane d f (vregAt d k).val i l = regOf (f (32 * i + l)) k := by
  have h : ((vregAt d k).val + 64 - d.val) % 64 = k := by
    unfold vregAt
    dsimp only
    omega
  unfold itemLane
  rw [h]

theorem itemPass_spec (d : VReg) {n : Nat} (hn : n ≤ 64) {m : Mask} {vals : List (Nat × Nat)} (hm : maskOf (vals.map Prod.fst) (fun _ => true) = m)
    {f : Nat → Nat} (hf : ∀ v ∈ vals, v.2 = f v.1) {j : Nat} (hj : j < 32) {b : Core × Team} (ok : PairOk b) :
    Grown b (itemPass d n m vals b j) ∧ (itemPass d n m vals b j).2.flagsDue = b.2.flagsDue ∧
    ∀ r i l, i < 32 → l < 32 →
      ((∃ k ∈ List.range n, r = (vregAt d k).val ∧ i = j ∧ (maskWord m j).getLsbD l = true) →
        laneAt (itemPass d n m vals b j) r i l = itemLane d f r i l) ∧
      ((¬ ∃ k ∈ List.range n, r = (vregAt d k).val ∧ i = j ∧ (maskWord m j).getLsbD l = true) →
        laneAt (itemPass d n m vals b j) r i l = laneAt b r i l) := by
  obtain ⟨hg, hfl, hfresh, hinj, hother, hlane⟩ := allots_fresh d (maskWord m j) hj (List.range n) List.nodup_range
    (fun k hk => (List.mem_range.1 hk).trans_le hn) ok rfl
  unfold itemPass
  change Grown b (allocPass d n m b j) at hg
  change (allocPass d n m b j).2.flagsDue = _ at hfl
  generalize hct : (List.range n).foldl (fun ct k => writePass ct (vregAt d k) j (maskWord m j) 0) b = ct at *
  have hct' : allocPass d n m b j = ct := hct
  rw [hct'] at hg hfl ⊢
  generalize hns : (List.range n).map (fun k => ct.2.slice (vregAt d k).val j) = ns
  have hnd : ns.Nodup := by
    rw [← hns]
    exact List.Nodup.map_on (fun a ha b hb h => hinj a ha b hb h) List.nodup_range
  generalize hvs : vals.filter (fun v => v.1 / 32 == j) = vs
  have hsame := sameSlices_putVals ns vs ct.1
  obtain ⟨hout, hin⟩ := phys_putVals hnd vs ct.1
  have hfind (e : Nat) : (ct.1.phys.find e).isSome = true → ((putVals ns vs ct.1).phys.find e).isSome = true := fun h => (hsame.allotted e).trans h
  have hold {e : Nat} {p : Phys} (h : b.1.phys.find e = some p) : e ∉ ns := fun hmem => by
    rw [← hns] at hmem
    obtain ⟨k, hk, rfl⟩ := List.mem_map.1 hmem
    rw [(hfresh k hk).1] at h
    cases h
  refine ⟨⟨⟨hsame.rising hg.1.1, fun e he => (hg.1.2.1 e he).imp id (hfind _), fun e he => hfind _ (hg.1.2.2 e (by rw [hsame.rest] at he; exact he))⟩,
    fun e p h => (hout e (hold h)).trans (hg.2.1 e p h), ?_, hg.2.2.2⟩, hfl, fun r i l hi hl => ?_⟩
  · rw [hsame.rest, hg.2.2.1]
  · have hkeep (h : ct.2.slice r i ∉ ns) : laneAt (putVals ns vs ct.1, ct.2) r i l = laneAt ct r i l := by
      unfold laneAt
      exact congrArg (fun x => laneOf x l) (data_of_find (hout _ h) Iff.rfl)
    have hset {k : Nat} (hk : k < n) : laneAt (putVals ns vs ct.1, ct.2) (vregAt d k).val j l =
        laneOf (setLanes k vs (ct.1.data (ct.2.slice (vregAt d k).val j))) l := by
      have hnk : ns[k]? = some (ct.2.slice (vregAt d k).val j) := by
        rw [← hns, List.getElem?_map, List.getElem?_range hk]
        rfl
      have hpos := find_pos_of_rising hg.1.1 (hfresh k (List.mem_range.2 hk)).2
      obtain ⟨p, hp⟩ := Option.isSome_iff_exists.1 (hfresh k (List.mem_range.2 hk)).2
      unfold laneAt Core.data
      have hne : ct.2.slice (vregAt d k).val j ≠ 0 := by omega
      rw [Tbl.get_eq_find, Tbl.get_eq_find, hin k _ hnk, hp, if_neg hne, if_neg hne]
      rfl
    have hbit : (maskWord m j).getLsbD l = true ↔ ∃ v ∈ vs, v.1 % 32 = l := by
      rw [maskWord_bit _ _ _ hl, ← hm, inMask_maskOf _ _ _ (by omega), ← hvs]
      simp only [Bool.and_true, decide_eq_true_eq, List.mem_map, List.mem_filter, beq_iff_eq]
      constructor
      · rintro ⟨v, hv, he⟩
        exact ⟨v, ⟨hv, by omega⟩, by omega⟩
      · rintro ⟨v, ⟨hv, hq⟩, he⟩
        exact ⟨v, hv, by omega⟩
    refine ⟨?_, fun hno => ?_⟩
    · rintro ⟨k, hk, rfl, rfl, hb⟩
      have hkn := List.mem_range.1 hk
      rw [hset hkn, itemLane_at d f (by omega)]
      refine (laneOf_setLanes k vs _ hl).2 (fun l => f (32 * i + l)) (fun v hv he => ?_) (hbit.1 hb)
      rw [← hvs, List.mem_filter, beq_iff_eq] at hv
      rw [hf v hv.1]
      congr 1
      omega
    · have hlt := hlane r i l hi hl fun k hk h => hno ⟨k, hk, h⟩
      by_cases hreg : ∃ k ∈ List.range n, r = (vregAt d k).val ∧ i = j
      · obtain ⟨k, hk, rfl, rfl⟩ := hreg
        rw [hset (List.mem_range.1 hk), (laneOf_setLanes k vs _ hl).1 fun v hv he => hno ⟨k, hk, rfl, rfl, hbit.2 ⟨v, hv, he⟩⟩]
        exact hlt
      · refine (hkeep fun hmem => ?_).trans hlt
        have hs := hother r i hi fun k hk h => hreg ⟨k, hk, h⟩
        rcases ok.slice r i with h0 | h0
        · rw [← hns] at hmem
          obtain ⟨k, hk, he⟩ := List.mem_map.1 hmem
          have := find_pos_of_rising hg.1.1 (hfresh k hk).2
          omega
        · rw [← hs] at h0
          obtain ⟨p, hp⟩ := Option.isSome_iff_exists.1 h0
          exact hold hp hmem

/-- Items written into registers: they stand in their lanes, each register with its own part, and every other lane keeps its value. -/
theorem items_written (d : VReg) {n : Nat} (hn : n ≤ 64) {m : Mask} {vals : List (Nat × Nat)} (hm : maskOf (vals.map Prod.fst) (fun _ => true) = m)
    {f : Nat → Nat} (hf : ∀ v ∈ vals, v.2 = f v.1) {ct : Core × Team} (ok : PairOk ct) {ct' : Core × Team}
    (hct : (passes m).foldl (itemPass d n m vals) ct = ct') :
    Grown ct ct' ∧ ct'.2.flagsDue = ct.2.flagsDue ∧ ∀ (r : VReg) l, l < 1024 →
      (∀ k, k < n → r = vregAt d k → inMask m l = true → laneAt ct' r.val (l / 32) (l % 32) = regOf (f l) k) ∧
      ((inMask m l = false ∨ ∀ k, k < n → r ≠ vregAt d k) → laneAt ct' r.val (l / 32) (l % 32) = laneAt ct r.val (l / 32) (l % 32)) := by
  subst hct
  obtain ⟨hg, hfl, hv⟩ := lanes_foldl (a := ct) (step := itemPass d n m vals)
    (region := fun j r i l => ∃ k ∈ List.range n, r = (vregAt d k).val ∧ i = j ∧ (maskWord m j).getLsbD l = true)
    (value := itemLane d f) (passes m)
    (fun j hj b g => itemPass_spec d hn hm hf (List.mem_range.1 (List.mem_filter.1 hj).1) g.1) ct (.refl ok)
  have hbit (l : Nat) (hl : l < 1024) : (maskWord m (l / 32)).getLsbD (l % 32) = inMask m l := by
    rw [maskWord_bit _ _ _ (by omega), Nat.div_add_mod]
  refine ⟨hg, hfl, fun r l hl => ?_⟩
  obtain ⟨hin, hout⟩ := hv r.val (l / 32) (l % 32) (by omega) (by omega)
  refine ⟨fun k hk hr hb => ?_, fun h => hout fun j hj hreg => ?_⟩
  · subst hr
    rw [hin ⟨l / 32, ?_, k, List.mem_range.2 hk, rfl, rfl, (hbit l hl).trans hb⟩, itemLane_at d f (by omega), Nat.div_add_mod]
    exact mem_passes hl hb
  · obtain ⟨k, hk, hr, rfl, hb⟩ := hreg
    rw [hbit l hl] at hb
    rcases h with h | h
    · rw [h] at hb
      cases hb
    · exact h k (List.mem_range.1 hk) (Fin.ext hr)

end Sys2Proof.Proofs

end

section
/-! R72, R104, R105, R109 to R111, R352: queue registers, and Rucksack work lists. -/

open Sys2Proof Sys2Proof.Machine

namespace Sys2Proof.Proofs

/-! QBIND (R109). -/

section
variable {h : Hdr} {q : QReg} {r : SReg} {kind : Fin 6} {s : State} {c slot : Nat} {t : Team}

theorem qbind_binds (hs : slot < 16) (w : TeamIssues (.qbind h q r kind) h s c slot t) (hok : s.bindOk kind.val (t.rs r).toNat = true) :
    ∃ s', exec (.qbind h q r kind) s = .next s' ∧ Claims.PortFrame s s' c slot ∧ (∀ q, s'.memGet q = s.memGet q) ∧
      s'.ctxs = s.ctxs ∧ ∃ t', s'.team? c slot = some t' ∧ t'.bind q = ⟨kind.val, if kind.val = 0 then 0 else t.rs r⟩ ∧
        (∀ p, p ≠ q → t'.bind p = t.bind p) ∧ Claims.Goes s c slot t { t with qb := t'.qb } s' := by
  generalize ht1 : { t with qb := t.qb.set QBind.zero q.val ⟨kind.val, if kind.val = 0 then 0 else t.rs r⟩ } = t1
  have hexec : exec (.qbind h q r kind) s = .next (settleTeam (.qbind h q r kind) h s c slot t (.done (s.setTeam c slot t1))) := by
    refine runTeam_eff w ((if_neg ?_).trans ?_) nofun
    · rw [show (t.x s c slot h).src.team.rs r = t.rs r from rfl, hok]
      decide
    · exact congrArg Res.done ((modTeam_eq_setTeam _ w.2.1).trans (congrArg (s.setTeam c slot) ht1))
  obtain ⟨hf, hgoes, hrest⟩ := goes_done (i := .qbind h q r kind) (h := h) (s := s) (t := t) hs (State.team_setTeam_same s c slot t1) rfl
  have hvmap : t1.vmap = t.vmap := by rw [← ht1]
  generalize settleTeam (.qbind h q r kind) h s c slot t _ = s' at *
  refine ⟨s', hexec, PortFrame.trans (PortFrame.setTeam hs w.2.1 hvmap) hf ⟨rfl, fun _ => rfl⟩, fun q => ?_, ?_, ?_⟩
  · rw [hrest]
    rfl
  · rw [hrest]
    rfl
  · obtain ⟨t', hteam, hfl, hrs, hrp, hreq⟩ := hgoes
    have hqb : t'.qb = t.qb.set QBind.zero q.val ⟨kind.val, if kind.val = 0 then 0 else t.rs r⟩ := by
      rw [hreq, ← ht1]
    refine ⟨t', hteam, ?_, fun p hp => ?_, t', hteam, ?_, fun r => ?_, fun r => ?_, ?_⟩
    · unfold Team.bind
      rw [hqb, Tbl.get_set, if_pos rfl]
    · unfold Team.bind
      rw [hqb, Tbl.get_set, if_neg fun e => hp (Fin.ext e)]
    · rw [hfl, ← ht1]
      rfl
    · rw [hrs, ← ht1]
      rfl
    · rw [hrp, ← ht1]
      rfl
    · rw [hqb, hreq, ← ht1]

/-- An argument that is none of its kind traps. -/
theorem qbind_traps (w : TeamIssues (.qbind h q r kind) h s c slot t) (hbad : s.bindOk kind.val (t.rs r).toNat = false) :
    exec (.qbind h q r kind) s = .next (s.takeTrap c slot { t with wait := none } .qfault 0 t.pc) := by
  refine runTeam_eff (r := .trap .qfault 0) w (if_pos ?_) nofun
  rw [show (t.x s c slot h).src.team.rs r = t.rs r from rfl, hbad]
  rfl

end

/-! Moves of lanes. -/

section
variable {h : Hdr} {q : QReg} {s : State} {c slot : Nat} {t : Team}

theorem needs_lanes {a : Nat} {wide : Bool} (hk : (t.bind q).kind ≠ 2) : queueNeed q true wide a s c t = {} := if_neg (by simp [hk])

theorem exec_vmov_push {a : VReg} {wide : Bool} {r : Res} (w : TeamIssues (.vmov h (.push q a) wide) h s c slot t) (h0 : t.adm h ≠ 0)
    (hk : (t.bind q).kind ≠ 2) (he : (t.x s c slot h).pushVector s q a wide = r) (hr : ∀ w, r ≠ .short w) :
    exec (.vmov h (.push q a) wide) s = .next (settleTeam (.vmov h (.push q a) wide) h s c slot t r) := by
  have hn := needs_lanes (s := s) (c := c) (a := a.val) (wide := wide) hk
  subst he
  refine (runTeam_eq (nd := queueNeed q true wide a.val) w (by rw [hn]) (by simp [hn]) (by simp [hn]) fun w => ?_).trans ?_
  · exact fun hw => hr w ((if_neg h0).symm.trans hw)
  · exact congrArg (fun r => Host.Outcome.next (settleTeam _ h s c slot t r)) (if_neg h0)

theorem exec_vmov_pop {d : VReg} {wide : Bool} {r : Res} (w : TeamIssues (.vmov h (.pop d q) wide) h s c slot t) (h0 : t.adm h ≠ 0)
    (hk : (t.bind q).kind ≠ 2) (he : (t.x s c slot h).popVector s d q wide = r) (hr : ∀ w, r ≠ .short w) :
    exec (.vmov h (.pop d q) wide) s = .next (settleTeam (.vmov h (.pop d q) wide) h s c slot t r) := by
  have hn := needs_lanes (s := s) (c := c) (a := d.val) (wide := wide) hk
  subst he
  refine (runTeam_eq (nd := queueNeed q true wide d.val) w (by rw [hn]) (by simp [hn]) (by simp [hn]) fun w => ?_).trans ?_
  · exact fun hw => hr w ((if_neg h0).symm.trans hw)
  · exact congrArg (fun r => Host.Outcome.next (settleTeam _ h s c slot t r)) (if_neg h0)

/-! A queue register that is bound to no endpoint that takes the move (R104, R111). -/

theorem pushScalar_bad {a : SReg} (hk : (t.bind q).kind ∈ [0, 4]) : (t.x s c slot h).pushScalar s q a = .trap .qfault 0 := by
  unfold X.pushScalar
  rcases List.mem_cons.1 hk with hk | hk
  · simp only [show (t.x s c slot h).team = t from rfl, hk]
  · simp only [show (t.x s c slot h).team = t from rfl, List.mem_singleton.1 hk]

theorem popScalar_bad {d : SReg} (hk : (t.bind q).kind ∈ [0, 4, 5]) : (t.x s c slot h).popScalar s d q = .trap .qfault 0 := by
  unfold X.popScalar State.popCount
  simp only [List.mem_cons, List.not_mem_nil, or_false] at hk
  rcases hk with hk | hk | hk <;> simp only [show (t.x s c slot h).team = t from rfl, hk]

theorem pushVector_bad {a : VReg} {wide : Bool} (hk : (t.bind q).kind ∈ [0, 1, 4, 5]) :
    (t.x s c slot h).pushVector s q a wide = .trap .qfault 0 := by
  unfold X.pushVector
  simp only [List.mem_cons, List.not_mem_nil, or_false] at hk
  rcases hk with hk | hk | hk | hk <;> simp only [show (t.x s c slot h).team = t from rfl, hk]

theorem popVector_bad {d : VReg} {wide : Bool} (hk : (t.bind q).kind ∈ [0, 1, 5]) :
    (t.x s c slot h).popVector s d q wide = .trap .qfault 0 := by
  unfold X.popVector State.popCount
  simp only [List.mem_cons, List.not_mem_nil, or_false] at hk
  rcases hk with hk | hk | hk <;> simp [show (t.x s c slot h).team = t from rfl, hk]

theorem badMove_traps {i : Instr} (hb : Claims.badMove t i = some h) (w : TeamIssues i h s c slot t) (h0 : t.adm h ≠ 0) :
    exec i s = .next (s.takeTrap c slot { t with wait := none } .qfault 0 t.pc) := by
  unfold Claims.badMove at hb
  split at hb
  · split at hb
    · next hk =>
      cases hb
      exact exec_smov_push w h0 (fun h2 => by simp [h2] at hk) (pushScalar_bad hk) nofun
    · cases hb
  · split at hb
    · next hk =>
      cases hb
      exact exec_smov_pop w h0 (fun h2 => by simp [h2] at hk) (popScalar_bad hk) nofun
    · cases hb
  · split at hb
    · next hk =>
      cases hb
      exact exec_vmov_push w h0 (fun h2 => by simp [h2] at hk) (pushVector_bad hk) nofun
    · cases hb
  · split at hb
    · next hk =>
      cases hb
      exact exec_vmov_pop w h0 (fun h2 => by simp [h2] at hk) (popVector_bad hk) nofun
    · cases hb
  · cases hb

end

/-! Rucksack lists: pushes (R352). -/

theorem ruckQ_setRuck (s : State) (ctx q : Nat) (l : List RItem) (j : Nat) :
    (s.setRuck ctx q l).ruckQ ctx j = if j = q then l else s.ruckQ ctx j := by
  unfold State.ruckQ State.setRuck
  rw [ctx_modCtx_same]
  exact Tbl.get_set ..

/-- The writes of items into places of an area. -/
def areaPuts (ctx : Nat) (place : Nat → Nat) (s : State) (is : List (Nat × W64)) : State :=
  is.foldl (fun m i => m.areaPut ctx (place i.1) (toLe 8 i.2.toNat)) s

theorem silent_areaPuts (ctx : Nat) (place : Nat → Nat) (is : List (Nat × W64)) (s : State) : Silent s (areaPuts ctx place s is) :=
  .foldl (fun _ _ => silent_areaPut ..) _ _

theorem Silent.ctx {s m : State} (h : Silent s m) (d : Nat) : m.ctx d = s.ctx d := by
  unfold State.ctx
  rw [h.rest]

/-- The base of the area stays where it is as items are written. -/
theorem areaPuts_eq (ctx base : Nat) (place : Nat → Nat → Nat) (is : List (Nat × W64)) (s : State) (hb : (s.ctx ctx).ruckBase = base) :
    is.foldl (fun s i => s.areaPut ctx (place (s.ctx ctx).ruckBase i.1) (toLe 8 i.2.toNat)) s = areaPuts ctx (place base) s is := by
  unfold areaPuts
  induction is generalizing s with
  | nil => rfl
  | cons i is ih =>
    rw [List.foldl_cons, List.foldl_cons, hb]
    exact ih _ ((congrArg Ctx.ruckBase ((silent_areaPut s ctx _ _).ctx ctx)).trans hb)

/-- Items that no pool listens for. -/
theorem ruckPush_eq {s : State} {c slot : Nat} {t : Team} {k : Nat} (hl : s.listener t.ctx k = none) (items : List W64) :
    (s.killLoads c slot).ruckPush t.ctx k c t.depth items = areaPuts t.ctx
      (fun i => (s.ctx t.ctx).ruckBase + 8 * (k * 2 ^ 20 + ((s.ctx t.ctx).ruckTail.get 0 k + i) % 2 ^ 20)) (Claims.Pushing s c slot t k items)
      ((List.range items.length).zip items) := by
  have hctx : (Claims.Pushing s c slot t k items).ctx t.ctx = { s.ctx t.ctx with
      ruck := (s.ctx t.ctx).ruck.set [] k (s.ruckQ t.ctx k ++ Claims.itemsOf t c items),
      ruckTail := (s.ctx t.ctx).ruckTail.set 0 k (((s.ctx t.ctx).ruckTail.get 0 k + items.length) % 2 ^ 20) } := by
    unfold Claims.Pushing State.setRuck
    rw [ctx_modCtx_same, ctx_modCtx_same]
    rfl
  have hfold := areaPuts_eq t.ctx (s.ctx t.ctx).ruckBase
    (fun base i => base + 8 * (k * 2 ^ 20 + ((s.ctx t.ctx).ruckTail.get 0 k + i) % 2 ^ 20)) ((List.range items.length).zip items)
    (Claims.Pushing s c slot t k items) (by rw [hctx])
  have hsil := silent_areaPuts t.ctx (fun i => (s.ctx t.ctx).ruckBase + 8 * (k * 2 ^ 20 + ((s.ctx t.ctx).ruckTail.get 0 k + i) % 2 ^ 20))
    ((List.range items.length).zip items) (Claims.Pushing s c slot t k items)
  have hlis : (areaPuts t.ctx (fun i => (s.ctx t.ctx).ruckBase + 8 * (k * 2 ^ 20 + ((s.ctx t.ctx).ruckTail.get 0 k + i) % 2 ^ 20))
      (Claims.Pushing s c slot t k items) ((List.range items.length).zip items)).listener t.ctx k = none := by
    unfold State.listener at hl ⊢
    rw [show (areaPuts t.ctx _ (Claims.Pushing s c slot t k items) _).ctx t.ctx = (Claims.Pushing s c slot t k items).ctx t.ctx from
      hsil.ctx t.ctx, hctx]
    exact hl
  unfold State.ruckPush
  rw [← hfold] at hlis
  dsimp only
  split
  · next p hp => exact absurd (hp.symm.trans hlis) nofun
  · exact hfold

section
variable {h : Hdr} {q : QReg} {s : State} {c slot : Nat} {t : Team}

/-- A team that has pushed items goes on. -/
theorem ruckPush_done {i : Instr} {k : Nat} {items : List W64} (hs : slot < 16) (ht : s.team? c slot = some t) (hl : s.listener t.ctx k = none)
    {s' : State} (hs' : settleTeam i h s c slot t (.done ((s.killLoads c slot).ruckPush t.ctx k c t.depth items)) = s') :
    Claims.Pushed s s' c slot t k items := by
  rw [ruckPush_eq hl] at hs'
  have hsil := silent_areaPuts t.ctx (fun i => (s.ctx t.ctx).ruckBase + 8 * (k * 2 ^ 20 + ((s.ctx t.ctx).ruckTail.get 0 k + i) % 2 ^ 20))
    ((List.range items.length).zip items) (Claims.Pushing s c slot t k items)
  have hp : Pushes s (Claims.Pushing s c slot t k items) c :=
    ((pushes_killLoads s c slot).trans (pushes_modCtx ..)).trans (pushes_modCtx ..)
  have hctx : (Claims.Pushing s c slot t k items).ctx t.ctx = { s.ctx t.ctx with
      ruck := (s.ctx t.ctx).ruck.set [] k (s.ruckQ t.ctx k ++ Claims.itemsOf t c items),
      ruckTail := (s.ctx t.ctx).ruckTail.set 0 k (((s.ctx t.ctx).ruckTail.get 0 k + items.length) % 2 ^ 20) } := by
    unfold Claims.Pushing State.setRuck
    rw [ctx_modCtx_same, ctx_modCtx_same]
    rfl
  have hother (d : Nat) (hd : d ≠ t.ctx) : (Claims.Pushing s c slot t k items).ctx d = s.ctx d := by
    unfold Claims.Pushing State.setRuck
    rw [ctx_modCtx_of_ne _ hd, ctx_modCtx_of_ne _ hd]
    rfl
  obtain ⟨hf, hgoes, hend⟩ := push_done hs (hp.trans (hsil.pushes c)) ht hs'
  have hmem (q : Nat) : s'.memGet q = (areaPuts t.ctx (fun i => (s.ctx t.ctx).ruckBase + 8 * (k * 2 ^ 20 +
      ((s.ctx t.ctx).ruckTail.get 0 k + i) % 2 ^ 20)) (Claims.Pushing s c slot t k items) ((List.range items.length).zip items)).memGet q := by
    rw [hend]
    rfl
  have hctx' (d : Nat) : s'.ctx d = (Claims.Pushing s c slot t k items).ctx d := by
    rw [hend]
    exact hsil.ctx d
  refine ⟨hf, hgoes, fun d hd => (hctx' d).trans (hother d hd), ?_, fun j => ?_, fun j => ?_, hmem⟩
  · rw [hctx', hctx]
  · unfold State.ruckQ
    rw [hctx', hctx]
    exact Tbl.get_set ..
  · rw [hctx', hctx]
    exact Tbl.get_set ..

theorem ruckPushScalar_holds {a : SReg} (hs : slot < 16) (w : TeamIssues (.smov h (.push q a)) h s c slot t) (h0 : t.adm h ≠ 0)
    (hk : (t.bind q).kind = 3) (ho : s.owes t.uid s.seq = false) (hrun : s.unitsRun (s.ctx t.ctx).part = true)
    (hl : s.listener t.ctx (Claims.listOf t q) = none) (hroom : (s.ruckQ t.ctx (Claims.listOf t q)).length < 2 ^ 20) :
    ∃ s', exec (.smov h (.push q a)) s = .next s' ∧ Claims.Pushed s s' c slot t (Claims.listOf t q) [t.rs a] := by
  have hok : s.ruckRoom t.ctx (Claims.listOf t q) 1 = true := by
    unfold State.ruckRoom
    rw [hrun, hl]
    simpa using hroom
  have he : (t.x s c slot h).pushScalar s q a = .done ((s.killLoads c slot).ruckPush t.ctx (Claims.listOf t q) c t.depth [t.rs a]) := by
    unfold X.pushScalar
    simp only [show (t.x s c slot h).team = t from rfl, hk]
    exact push_ready (x := t.x s c slot h) _ ho hok
  exact ⟨_, exec_smov_push w h0 (fun h => by omega) he nofun, ruckPush_done hs w.2.1 hl rfl⟩

/-- What a lane pushes: one register, or two. -/
theorem pushedItem (a : VReg) (wide : Bool) (ht : s.team? c slot = some t) (l : Nat) :
    BitVec.ofNat 64 ((t.x s c slot h).src.regs a l (wideN wide) 0) =
      if wide then s.vreg c slot (vregAt a 1) l ++ s.vreg c slot a l else (s.vreg c slot a l).zeroExtend 64 := by
  have hv (k : Nat) : (t.x s c slot h).src.v a k l = s.vreg c slot (vregAt a k) l := by
    unfold State.vreg
    rw [ht]
    rfl
  have h0 : vregAt a 0 = a := by
    unfold vregAt
    exact Fin.ext (Nat.mod_eq_of_lt a.isLt)
  cases wide with
  | false =>
    simp only [wideN, Src.regs, hv, h0, Bool.false_eq_true, if_false]
    exact BitVec.eq_of_toNat_eq (by simp)
  | true => exact (regs_two ht h a l 0).trans (by rw [h0, if_pos rfl])

theorem ruckPushVector_holds {a : VReg} {wide : Bool} (hs : slot < 16) (w : TeamIssues (.vmov h (.push q a) wide) h s c slot t)
    (h0 : t.adm h ≠ 0) (hk : (t.bind q).kind = 3) (ho : s.owes t.uid s.seq = false) (hrun : s.unitsRun (s.ctx t.ctx).part = true)
    (hl : s.listener t.ctx (Claims.listOf t q) = none)
    (hroom : (s.ruckQ t.ctx (Claims.listOf t q)).length + popcount (t.adm h) ≤ 2 ^ 20) :
    ∃ s', exec (.vmov h (.push q a) wide) s = .next s' ∧ Claims.Pushed s s' c slot t (Claims.listOf t q) ((lanes (t.adm h)).map fun l =>
        if wide then s.vreg c slot (vregAt a 1) l ++ s.vreg c slot a l else (s.vreg c slot a l).zeroExtend 64) := by
  have hok : s.ruckRoom t.ctx (Claims.listOf t q) (lanes (t.adm h)).length = true := by
    unfold State.ruckRoom
    rw [hrun, hl]
    exact decide_eq_true hroom
  have he : (t.x s c slot h).pushVector s q a wide = .done ((s.killLoads c slot).ruckPush t.ctx (Claims.listOf t q) c t.depth
      ((lanes (t.adm h)).map fun l => BitVec.ofNat 64 ((t.x s c slot h).src.regs a l (wideN wide) 0))) := by
    unfold X.pushVector
    simp only [show (t.x s c slot h).team = t from rfl, hk]
    exact push_ready (x := t.x s c slot h) _ ho hok
  have hexec := exec_vmov_push w h0 (by omega) he nofun
  rw [funext fun l => pushedItem (h := h) a wide w.2.1 l] at hexec
  exact ⟨_, hexec, ruckPush_done hs w.2.1 hl rfl⟩

end

end Sys2Proof.Proofs

end

section
/-! R72, R104, R105, R110, R352: what takes items from Rucksack lists. -/

open Sys2Proof Sys2Proof.Machine

namespace Sys2Proof.Proofs

/-! Items written into the registers of a team. -/

theorem nodup_lanes (m : Mask) : (lanes m).Nodup := by
  rw [lanes_eq_filter]
  exact List.nodup_range.filter _

/-- m is s but for what an acquire, or the kill of a team's load entries, takes away from a core. -/
structure Dropped (s m : State) (c : Nat) : Prop where
  rest : m = { s with cores := m.cores, accs := m.accs, ctr := m.ctr }
  cores : ∀ d, d ≠ c → m.core d = s.core d
  core : m.core c = { s.core c with vtb := (m.core c).vtb, l1 := (m.core c).l1, own := (m.core c).own }

theorem dropped_killLoads (s : State) (c slot : Nat) : Dropped s (s.killLoads c slot) c := by
  refine ⟨rfl, fun d hd => ?_, ?_⟩
  · rw [core_killLoads, if_neg hd]
  · rw [core_killLoads, if_pos rfl]

theorem dropped_fenced (s : State) (c slot : Nat) : Dropped s (fenced s c slot true) c := by
  have hcore := fenced_core s c slot true
  refine ⟨fenced_rest .., fun d hd => ?_, ?_⟩
  · rw [hcore, if_neg hd]
  · rw [hcore, if_pos rfl]
    rfl

theorem dropped_acquired (s : State) (c uid : Nat) : Dropped s (s.acquired c uid) c := by
  unfold State.acquired
  dsimp only
  split
  · exact dropped_fenced s c _
  · refine ⟨rfl, fun d hd => ?_, ?_⟩
    · rw [core_selfInvalidate, if_neg hd]
    · rw [core_selfInvalidate, if_pos rfl]
      rfl

section
variable {s m : State} {c : Nat} (h : Dropped s m c)
include h

theorem Dropped.team (d k : Nat) : m.team? d k = s.team? d k := by
  rw [h.rest]
  rfl

theorem Dropped.phys (d : Nat) : (m.core d).phys = (s.core d).phys := by
  by_cases hd : d = c
  · rw [hd, h.core]
  · rw [h.cores d hd]

theorem Dropped.portFrame (slot : Nat) : Claims.PortFrame s m c slot := by
  refine ⟨fun k _ => by rw [h.rest], fun k _ r l => vreg_congr (h.team c k) (h.phys c) r l, h.cores, ?_,
    ⟨by rw [h.rest], by rw [h.rest], by rw [h.rest], [], by rw [h.rest, List.append_nil]⟩, fun _ => by rw [h.rest]⟩
  rw [h.core]

theorem Dropped.sameClean : SameClean s m := by
  rw [h.rest]
  exact ⟨rfl, fun _ => rfl⟩

end

/-- A team goes on after it has taken items. -/
theorem taken_done {i : Instr} {h : Hdr} {s m n : State} {c slot : Nat} {t t1 : Team} (hs : slot < 16) (hd : Dropped m n c)
    (ht : m.team? c slot = some t1) {s' : State} (hs' : settleTeam i h s c slot t (.done n) = s') :
    Claims.PortFrame m s' c slot ∧ Claims.Goes s c slot t t1 s' ∧
      (∃ t', s'.team? c slot = some t' ∧ t'.flagsDue = t1.flagsDue ∧
        t' = { t1 with pc := (s.nextOf c t).1, atHdr := (s.nextOf c t).2, wait := none, shadows := t'.shadows }) ∧
      s' = { m with teams := s'.teams, cores := s'.cores, accs := s'.accs, ctr := s'.ctr } := by
  have htn : n.team? c slot = some t1 := (hd.team c slot).trans ht
  obtain ⟨hf, hgoes, hend⟩ := goes_done hs htn hs'
  obtain ⟨t', hteam, ht', hfl, -, -⟩ := (settleTeam_done (i := i) (h := h) (s := s) (t := t) htn).spec htn hs
  rw [hs'] at hteam
  refine ⟨PortFrame.trans (hd.portFrame slot) hf hd.sameClean, hgoes, ⟨t', hteam, hfl, ht'⟩, ?_⟩
  rw [hend, hd.rest]

/-- Items written one to a lane: their lanes hold them, and nothing else has changed but the Stash and the team's map of it. -/
theorem writeLanes_spec {x : X} {s : State} {c slot : Nat} {t : Team} (hx : x.c = c ∧ x.slot = slot) (hs : slot < 16)
    (ht : s.team? c slot = some t) (ok : s.stashOk = true) (d : VReg) {n : Nat} (hn : n ≤ 64) {ls es : List Nat} (hnd : ls.Nodup)
    (hlt : ∀ l ∈ ls, l < 1024) (hlen : ls.length ≤ es.length) {m : State} (hm : x.writeLanes s d n (List.zip ls es) = m) :
    TeamFrame s m c slot ∧ (∃ t1, m.team? c slot = some t1 ∧ t1 = { t with vmap := t1.vmap, shadows := t1.shadows } ∧ t1.flagsDue = t.flagsDue ∧
      (s.teamOf t.uid = some (tkey c slot, t) → m.teamOf t.uid = some (tkey c slot, t1))) ∧
    m = { s with teams := m.teams, cores := m.cores } ∧
    (∀ (i l : Nat), ls[i]? = some l → ∃ e, es[i]? = some e ∧ ∀ j, j < n → m.vreg c slot (vregAt d j) l = regOf e j) ∧
    ∀ r l, l < 1024 → ((∀ j, j < n → r ≠ vregAt d j) ∨ ls.contains l = false) → m.vreg c slot r l = s.vreg c slot r l := by
  obtain ⟨rfl, rfl⟩ := hx
  have hfst : (List.zip ls es).map Prod.fst = ls := List.map_fst_zip hlen
  generalize hmask : maskOf ls (fun _ => true) = mask
  have hin (l : Nat) (hl : l < 1024) : inMask mask l = decide (l ∈ ls) := by
    rw [← hmask, inMask_maskOf _ _ _ hl, Bool.and_true]
  cases hls : ls with
  | nil =>
    subst hls
    have hwrite : x.writeLanes s d n (List.zip [] es) = s := by
      rw [writeLanes_eq]
      rw [show passes (maskOf ((List.zip ([] : List Nat) es).map Prod.fst) fun _ => true) = [] from passes_zero]
      rfl
    rw [hwrite] at hm
    subst hm
    exact ⟨TeamFrame.refl .., ⟨t, ht, rfl, rfl, id⟩, rfl, fun i l h => by simp at h, fun _ _ _ _ => rfl⟩
  | cons l0 rest =>
    have hmem0 : l0 ∈ ls := by rw [hls]; exact List.mem_cons_self
    have h0 : mask ≠ 0 := by
      rintro rfl
      have := hin l0 (hlt l0 hmem0)
      rw [decide_eq_true hmem0] at this
      simp [inMask] at this
    rw [← hls]
    clear hls
    have hf : ∀ v ∈ List.zip ls es, v.2 = es.getD (ls.idxOf v.1) 0 := fun v hv => by
      obtain ⟨i, hi, rfl⟩ := List.getElem_of_mem hv
      have hil : i < ls.length := by simp at hi; omega
      have hie : i < es.length := by omega
      rw [List.getElem_zip, hnd.idxOf_getElem, List.getD_eq_getElem _ _ hie]
    have hstate := writeLanes_withPair ht d n (List.zip ls es) (hfst.symm ▸ hmask) h0
    obtain ⟨hg, hfl, hlane⟩ := items_written d hn (hfst.symm ▸ hmask) (f := fun l => es.getD (ls.idxOf l) 0) hf (State.stashOk.pair ok ht hs) rfl
    generalize (passes mask).foldl (itemPass d n mask (List.zip ls es)) (s.core x.c, t) = ct at hstate hg hfl hlane
    rw [hm] at hstate
    subst hstate
    have hvreg (r : VReg) (l : Nat) : (withPair s x.c x.slot ct).vreg x.c x.slot r l = laneAt ct r.val (l / 32) (l % 32) := by
      simp only [State.vreg, team_withPair, core_withPair, readV, laneAt]
    have hsvreg (r : VReg) (l : Nat) : s.vreg x.c x.slot r l = laneAt (s.core x.c, t) r.val (l / 32) (l % 32) := by
      simp only [State.vreg, ht, readV, laneAt]
    have hu : ct.2.uid = t.uid := by rw [hg.2.2.2]
    refine ⟨teamFrame_of_grown hg hs ok, ⟨ct.2, team_withPair .., hg.2.2.2, hfl, fun hof => teamOf_put hof hu⟩, rfl, fun i l hil => ?_,
      fun r l hl h => ?_⟩
    · have hmem := List.mem_of_getElem? hil
      obtain ⟨hi, rfl⟩ := List.getElem?_eq_some_iff.1 hil
      refine ⟨es[i], List.getElem?_eq_getElem (by omega), fun j hj => ?_⟩
      rw [hvreg, (hlane _ _ (hlt _ hmem)).1 j hj rfl (by rw [hin _ (hlt _ hmem)]; exact decide_eq_true hmem), hnd.idxOf_getElem,
        List.getD_eq_getElem]
    · rw [hvreg, (hlane r l hl).2, hsvreg]
      rcases h with h | h
      · exact .inr h
      · refine .inl ?_
        rw [hin l hl]
        simpa using h

/-! Rucksack lists: pops (R352). -/

/-- The oldest items of a list are taken. -/
theorem popItems_ruck {s : State} {ctx k : Nat} {b : QBind} (hk : b.kind = 3) (hkq : fld b.arg.toNat 0 6 = k) {n : Nat}
    (hn : n ≤ (s.ruckQ ctx k).length) : ∃ m, s.popItems ctx b n = (m, ((s.ruckQ ctx k).take n).map fun i => (i.item, 0)) ∧
      m = { s with ctxs := m.ctxs } ∧ m.ruckQ ctx k = (s.ruckQ ctx k).drop n := by
  induction n generalizing s with
  | zero => exact ⟨s, rfl, rfl, rfl⟩
  | succ n ih =>
    cases hq : s.ruckQ ctx k with
    | nil =>
      rw [hq] at hn
      cases hn
    | cons i rest =>
      have hset : (s.setRuck ctx k rest).ruckQ ctx k = rest := (ruckQ_setRuck ..).trans (if_pos rfl)
      rw [hq] at hn
      obtain ⟨m, hpop, hm, hrest⟩ := ih (s := s.setRuck ctx k rest) (by rw [hset]; exact Nat.le_of_succ_le_succ hn)
      rw [hset] at hpop hrest
      refine ⟨m, ?_, ?_, hrest⟩
      · unfold State.popItems
        simp only [hk, hkq, hq, hpop]
        rfl
      · rw [hm]
        rfl

theorem popCount_ruck {s : State} {ctx k : Nat} {b : QBind} (hk : b.kind = 3) (hkq : fld b.arg.toNat 0 6 = k)
    (hrun : s.unitsRun (s.ctx ctx).part = true) (hl : s.listener ctx k = none) : s.popCount ctx b = some (s.ruckQ ctx k).length := by
  unfold State.popCount
  simp only [hk, hkq, hrun, hl]
  rfl

section
variable {h : Hdr} {q : QReg} {s : State} {c slot : Nat} {t : Team}

theorem ruckPopScalar_holds {d : SReg} {i : RItem} {rest : List RItem} (hs : slot < 16) (w : TeamIssues (.smov h (.pop d q)) h s c slot t)
    (h0 : t.adm h ≠ 0) (hk : (t.bind q).kind = 3) (hof : s.teamOf t.uid = some (tkey c slot, t))
    (hrun : s.unitsRun (s.ctx t.ctx).part = true) (hl : s.listener t.ctx (Claims.listOf t q) = none)
    (hq : s.ruckQ t.ctx (Claims.listOf t q) = i :: rest) :
    ∃ s', exec (.smov h (.pop d q)) s = .next s' ∧ Claims.PortFrame s s' c slot ∧ (∀ q, s'.memGet q = s.memGet q) ∧
      Claims.Goes s c slot t (t.ws d i.item) s' ∧ s'.ruckQ t.ctx (Claims.listOf t q) = rest := by
  have hcount := popCount_ruck (b := t.bind q) hk rfl hrun hl
  obtain ⟨m, hpop, hm, hleft⟩ := popItems_ruck (s := s) (ctx := t.ctx) (b := t.bind q) (n := 1) hk rfl (by
    rw [show fld (t.bind q).arg.toNat 0 6 = Claims.listOf t q from rfl, hq]; exact Nat.succ_pos _)
  change s.popCount t.ctx (t.bind q) = some (s.ruckQ t.ctx (Claims.listOf t q)).length at hcount
  change s.popItems t.ctx (t.bind q) 1 = (m, ((s.ruckQ t.ctx (Claims.listOf t q)).take 1).map fun i => (i.item, 0)) at hpop
  change m.ruckQ t.ctx (Claims.listOf t q) = (s.ruckQ t.ctx (Claims.listOf t q)).drop 1 at hleft
  rw [hq] at hcount hpop hleft
  have htm : m.team? c slot = some t := by
    rw [hm]
    exact w.2.1
  have he : (t.x s c slot h).popScalar s d q = .done ((m.setTeam c slot (t.ws d i.item)).acquired c t.uid) := by
    unfold X.popScalar
    simp only [show (t.x s c slot h).team = t from rfl, hk, hcount]
    refine (more_ready (x := t.x s c slot h) (reads := false) _ (by simp) nofun).trans ?_
    rw [if_neg (by simp), show (t.x s c slot h).team = t from rfl, hpop]
    exact congrArg (fun m => Res.done (State.acquired m c t.uid)) (modTeam_eq_setTeam _ htm)
  have hexec := exec_smov_pop w h0 (fun h => by omega) he nofun
  have hteams : m.teams = s.teams := by rw [hm]
  obtain ⟨hf, hgoes, hend, -⟩ := popped_done (i := .smov h (.pop d q)) (h := h) (t1 := t.ws d i.item) hs hteams w.2.1 hof (vmap_ws ..)
    (by rw [Team.ws_frame]) rfl
  generalize settleTeam (.smov h (.pop d q)) h s c slot t _ = s' at hexec hf hgoes hend
  refine ⟨s', hexec, PortFrame.trans (portFrame_of_rest (by rw [hm])) hf ?_, fun q => ?_, hgoes, ?_⟩
  · rw [hm]
    exact ⟨rfl, fun _ => rfl⟩
  · rw [hend, hm]
    rfl
  · rw [hend]
    exact hleft

end

/-- An item in registers: each takes its own 32 bits. -/
theorem regOf_item (w : W64) (j : Nat) : regOf w.toNat j = w.extractLsb' (32 * j) 32 := by
  refine BitVec.eq_of_toNat_eq ?_
  unfold regOf
  rw [BitVec.toNat_ofNat, BitVec.extractLsb'_toNat, Nat.shiftRight_eq_div_pow]

section
variable {h : Hdr} {q : QReg} {s : State} {c slot : Nat} {t : Team}

/-- Items taken from a list stand in the lanes that took them. -/
theorem items_popped {x : X} {k : Nat} (hx : x.c = c ∧ x.slot = slot) (hs : slot < 16) (ht : s.team? c slot = some t) (ok : s.stashOk = true)
    (hk : (t.bind q).kind = 3) (hkq : Claims.listOf t q = k) (d : VReg) (wide : Bool) {ls : List Nat} (hnd : ls.Nodup) (hlt : ∀ l ∈ ls, l < 1024)
    (hlen : ls.length ≤ (s.ruckQ t.ctx k).length) :
    ∃ m es, s.popItems t.ctx (t.bind q) ls.length = (m, es) ∧ ∃ n, x.writeLanes m d (wideN wide) (List.zip ls (es.map (itemNat (t.bind q)))) = n ∧
      (∀ q, n.memGet q = s.memGet q) ∧ (∀ j, j ≠ tkey c slot → n.teams.find j = s.teams.find j) ∧ (∀ e, e ≠ c → n.core e = s.core e) ∧
      (∀ j, j < 16 → j ≠ slot → ∀ r l, n.vreg c j r l = s.vreg c j r l) ∧ n.ruckQ t.ctx k = (s.ruckQ t.ctx k).drop ls.length ∧
      Claims.Popped s n c slot d wide ls (s.ruckQ t.ctx k) ∧
      ∃ t1, n.team? c slot = some t1 ∧ t1 = { t with vmap := t1.vmap, shadows := t1.shadows } ∧ t1.flagsDue = t.flagsDue := by
  obtain ⟨m, hpop, hm, hleft⟩ := popItems_ruck (s := s) (ctx := t.ctx) (b := t.bind q) hk hkq hlen
  generalize hes : ((s.ruckQ t.ctx k).take ls.length).map (fun i : RItem => (i.item, (0 : W64))) = es at hpop
  have hnat : es.map (itemNat (t.bind q)) = ((s.ruckQ t.ctx k).take ls.length).map fun i => i.item.toNat := by
    rw [← hes, List.map_map]
    refine List.map_congr_left fun i _ => ?_
    simp [itemNat, hk]
  have htm : m.team? c slot = some t := by
    rw [hm]
    exact ht
  have hokm : m.stashOk = true := by
    rw [hm]
    exact ok
  have hw : wideN wide ≤ 64 := by cases wide <;> decide
  refine ⟨m, es, hpop, _, rfl, ?_⟩
  rw [hnat]
  obtain ⟨hf, ⟨t1, ht1, hframe1, hfl1, -⟩, hrest, hin, hout⟩ := writeLanes_spec hx hs htm hokm d hw (es := ((s.ruckQ t.ctx k).take ls.length).map
    fun i => i.item.toNat) hnd hlt (by rw [List.length_map, List.length_take]; omega) rfl
  generalize x.writeLanes m d (wideN wide) _ = n at *
  have hvreg (j : Nat) (r : VReg) (l : Nat) : m.vreg c j r l = s.vreg c j r l := by
    rw [hm]
    rfl
  refine ⟨fun q => ?_, fun j hj => ?_, fun e he => ?_, fun j hj hne r l => ?_, ?_, ⟨fun i l hil => ?_, fun r l hl hor => ?_⟩, t1, ht1, hframe1, hfl1⟩
  · rw [hf.mem, hm]
    rfl
  · rw [hf.teams j hj, hm]
  · rw [hf.cores e he, hm]
    rfl
  · rw [hf.vregs j hj hne, hvreg]
  · rw [hrest]
    exact hleft
  · obtain ⟨e, he, hval⟩ := hin i l hil
    rw [List.getElem?_map, Option.map_eq_some_iff] at he
    obtain ⟨a, ha, rfl⟩ := he
    rw [List.getElem?_take] at ha
    split at ha
    · exact ⟨a, ha, fun j hj => (hval j hj).trans (regOf_item a.item j)⟩
    · cases ha
  · rw [hout r l hl hor, hvreg]

theorem ruckPopVector_holds {d : VReg} {wide : Bool} {k : Nat} {ls : List Nat} (hs : slot < 16) (ok : s.stashOk = true)
    (w : TeamIssues (.vmov h (.pop d q) wide) h s c slot t) (h0 : t.adm h ≠ 0) (hk : (t.bind q).kind = 3) (hkq : Claims.listOf t q = k)
    (hls : lanes (t.adm h) = ls) (hrun : s.unitsRun (s.ctx t.ctx).part = true) (hl : s.listener t.ctx k = none)
    (hlen : ls.length ≤ (s.ruckQ t.ctx k).length) (hroom : s.lacking c t 0 (slicesEach (wideN wide) ls) = none) :
    ∃ s', exec (.vmov h (.pop d q) wide) s = .next s' ∧ (∀ q, s'.memGet q = s.memGet q) ∧
      (∀ j, j ≠ tkey c slot → s'.teams.find j = s.teams.find j) ∧ (∀ e, e ≠ c → s'.core e = s.core e) ∧
      (∀ j, j < 16 → j ≠ slot → ∀ r l, s'.vreg c j r l = s.vreg c j r l) ∧ s'.ruckQ t.ctx k = (s.ruckQ t.ctx k).drop ls.length ∧
      Claims.Popped s s' c slot d wide ls (s.ruckQ t.ctx k) := by
  have hcount : s.popCount t.ctx (t.bind q) = some (s.ruckQ t.ctx k).length := popCount_ruck hk hkq hrun hl
  have hnd : ls.Nodup := hls ▸ nodup_lanes _
  have hlt : ∀ l ∈ ls, l < 1024 := fun l hmem => (mem_lanes.1 (hls ▸ hmem)).1
  obtain ⟨m, es, hpop, n, hn, hmem, hteams, hcores, hvregs, hleft, hpopped, t1, ht1, hframe1, -⟩ := items_popped (x := t.x s c slot h)
    ⟨rfl, rfl⟩ hs w.2.1 ok hk hkq d wide hnd hlt hlen
  have he : (t.x s c slot h).popVector s d q wide = .done (n.acquired c t.uid) := by
    unfold X.popVector
    simp only [show (t.x s c slot h).team = t from rfl, show (t.x s c slot h).adm = t.adm h from rfl, hk, hcount, hls]
    refine (if_neg (by decide)).trans ((if_neg (by simp)).trans ?_)
    have hregs : itemRegs (t.bind q) wide = wideN wide := if_neg (by omega)
    rw [hregs]
    refine (more_ready (x := t.x s c slot h) (reads := false) _ (fun r hr => ?_) nofun).trans ?_
    · exact (w.2.2.1 r (List.mem_append_right _ hr)).2
    · rw [if_neg (by omega), show (t.x s c slot h).c = c from rfl, show (t.x s c slot h).team = t from rfl, hroom]
      dsimp only
      rw [hpop]
      dsimp only
      rw [hn]
      rfl
  have hexec := exec_vmov_pop w h0 (by omega) he nofun
  obtain ⟨hf, -, -, hend⟩ := taken_done (i := .vmov h (.pop d q) wide) (h := h) (s := s) (t := t) hs (dropped_acquired n c t.uid) ht1 rfl
  generalize settleTeam (.vmov h (.pop d q) wide) h s c slot t _ = s' at hexec hf hend
  refine ⟨s', hexec, fun q => ?_, fun j hj => (hf.teams j hj).trans (hteams j hj), fun e he => (hf.cores e he).trans (hcores e he),
    fun j hj hne r l => (hf.vregs j hj r l).trans (hvregs j hj hne r l), ?_, ⟨fun i l hil => ?_, fun r l hl hor => ?_⟩⟩
  · rw [← hmem, hend]
    rfl
  · rw [hend]
    exact hleft
  · obtain ⟨a, ha, hval⟩ := hpopped.1 i l hil
    exact ⟨a, ha, fun j hj => (hf.vregs slot hs _ _).trans (hval j hj)⟩
  · exact (hf.vregs slot hs r l).trans (hpopped.2 r l hl hor)

/-! QTRY (R110). -/

theorem runTeam_ready {i : Instr} {nd : State → Nat → Team → Need} {eff : X → State → Res} {r : Res} (w : TeamIssues i h s c slot t)
    (hn : (nd s c t).ill = false ∧ (nd s c t).gather = false ∧ (nd s c t).leader = false) (he : eff (t.x s c slot h) s = r)
    (hr : ∀ w, r ≠ .short w) : runTeam i h nd s eff = .next (settleTeam i h s c slot t r) := by
  subst he
  exact runTeam_eq w hn.1 (fun h => by rw [hn.2.1] at h; cases h) (fun h => by rw [hn.2.2] at h; cases h) hr

/-- What QTRY ends with, as the model writes it: an acquire where it took an item, else the kill of the team's load entries. -/
def tried (x : X) (m : State) (v : Mask) : State :=
  if x.part then m else if v = 0 && x.lo = 0 then m.killLoads x.c x.slot else m.acquired x.c x.team.uid

theorem dropped_tried (x : X) (m : State) (v : Mask) (hp : x.part = false) : Dropped m (tried x m v) x.c := by
  unfold tried
  rw [hp, if_neg Bool.false_ne_true]
  split
  · exact dropped_killLoads ..
  · exact dropped_acquired ..

theorem qtryScalar_holds {r : SReg} {p : PReg} {k : Nat} (hs : slot < 16) (w : TeamIssues (.qtry h (.s r) q p false) h s c slot t)
    (h0 : t.adm h ≠ 0) (hk : (t.bind q).kind = 3) (hkq : Claims.listOf t q = k) (hrun : s.unitsRun (s.ctx t.ctx).part = true)
    (hl : s.listener t.ctx k = none) :
    ∃ s', exec (.qtry h (.s r) q p false) s = .next s' ∧ Claims.PortFrame s s' c slot ∧ (∀ q, s'.memGet q = s.memGet q) ∧
      s'.ruckQ t.ctx k = (s.ruckQ t.ctx k).drop 1 ∧
      match s.ruckQ t.ctx k with
      | [] => Claims.Goes s c slot t (t.wp p (t.adm h) 0) s'
      | (i : RItem) :: _ => Claims.Goes s c slot t ((t.ws r i.item).wp p (t.adm h) (t.adm h)) s' := by
  have hcount : s.popCount t.ctx (t.bind q) = some (s.ruckQ t.ctx k).length := popCount_ruck hk hkq hrun hl
  have hneed := needs_scalars (q := q) (a := r.val) (s := s) (c := c) (t := t) fun h => by omega
  cases hq : s.ruckQ t.ctx k with
  | nil =>
    rw [hq] at hcount
    have hexec : exec (.qtry h (.s r) q p false) s = .next (settleTeam (.qtry h (.s r) q p false) h s c slot t
        (.done (tried (t.x s c slot h) (s.setTeam c slot (t.wp p (t.adm h) 0)) 0))) := by
      refine runTeam_ready (nd := queueNeed q false false r.val) w hneed ((if_neg h0).trans ?_) nofun
      refine (if_neg (show ¬ (t.bind q).kind = 1 by omega)).trans ?_
      rw [show s.popCount (t.x s c slot h).team.ctx ((t.x s c slot h).team.bind q) = _ from hcount]
      refine (more_ready (x := t.x s c slot h) (reads := false) _ (by simp [show (t.x s c slot h).team = t from rfl, hk]) nofun).trans ?_
      refine (if_pos List.length_nil).trans ?_
      exact congrArg (fun m => Res.done (tried (t.x s c slot h) m 0)) (modTeam_eq_setTeam (fun t1 => t1.wp p (t.adm h) 0) w.2.1)
    have hd : Dropped _ _ c := dropped_tried (t.x s c slot h) (s.setTeam c slot (t.wp p (t.adm h) 0)) 0 rfl
    obtain ⟨hf, hgoes, -, hend⟩ := taken_done (i := .qtry h (.s r) q p false) (h := h) (s := s) (t := t) hs hd (State.team_setTeam_same ..) rfl
    generalize settleTeam (.qtry h (.s r) q p false) h s c slot t _ = s' at hexec hf hgoes hend
    refine ⟨s', hexec, PortFrame.trans (PortFrame.setTeam hs w.2.1 (by rw [Team.wp_frame])) hf ⟨rfl, fun _ => rfl⟩, fun q => ?_, ?_, hgoes⟩
    · rw [hend]
      rfl
    · rw [hend]
      exact hq
  | cons i rest =>
    obtain ⟨m, hpop, hm, hleft⟩ := popItems_ruck (s := s) (ctx := t.ctx) (b := t.bind q) (n := 1) hk hkq (by rw [hq]; exact Nat.succ_pos _)
    rw [hq] at hcount hpop hleft
    have htm : m.team? c slot = some t := by
      rw [hm]
      exact w.2.1
    generalize hm1 : m.setTeam c slot (t.ws r i.item) = m1
    have hmod : m.modTeam c slot (fun t => t.ws r i.item) = m1 := (modTeam_eq_setTeam _ htm).trans hm1
    have htm1 : m1.team? c slot = some (t.ws r i.item) := hm1 ▸ State.team_setTeam_same ..
    have hexec : exec (.qtry h (.s r) q p false) s = .next (settleTeam (.qtry h (.s r) q p false) h s c slot t
        (.done (tried (t.x s c slot h) (m1.setTeam c slot ((t.ws r i.item).wp p (t.adm h) (t.adm h))) (t.adm h)))) := by
      refine runTeam_ready (nd := queueNeed q false false r.val) w hneed ((if_neg h0).trans ?_) nofun
      simp only [show (t.x s c slot h).team = t from rfl, hk, hcount]
      refine (if_neg (by decide)).trans ((more_ready (x := t.x s c slot h) (reads := false) _ (by simp) nofun).trans ((if_neg (by simp)).trans ?_))
      rw [hpop]
      refine congrArg (fun m => Res.done (tried (t.x s c slot h) m (t.adm h))) (Eq.trans ?_ (modTeam_eq_setTeam (fun t1 => t1.wp p (t.adm h) (t.adm h)) htm1))
      rw [← hmod]
      rfl
    have hd : Dropped _ _ c := dropped_tried (t.x s c slot h) (m1.setTeam c slot ((t.ws r i.item).wp p (t.adm h) (t.adm h))) (t.adm h) rfl
    subst hm1
    obtain ⟨hf, hgoes, -, hend⟩ := taken_done (i := .qtry h (.s r) q p false) (h := h) (s := s) (t := t) hs hd (State.team_setTeam_same ..) rfl
    generalize settleTeam (.qtry h (.s r) q p false) h s c slot t _ = s' at hexec hf hgoes hend
    refine ⟨s', hexec, PortFrame.trans (PortFrame.trans (portFrame_of_rest (by rw [hm])) (PortFrame.trans (PortFrame.setTeam hs htm (vmap_ws ..))
      (PortFrame.setTeam (t1 := (t.ws r i.item).wp p (t.adm h) (t.adm h)) hs (State.team_setTeam_same ..) (by rw [Team.wp_frame])) ⟨rfl, fun _ => rfl⟩) ?_) hf ?_, fun q => ?_, ?_, hgoes⟩
    · rw [hm]
      exact ⟨rfl, fun _ => rfl⟩
    · rw [hm]
      exact ⟨rfl, fun _ => rfl⟩
    · rw [hend, hm]
      rfl
    · rw [hend]
      exact hleft

theorem qtryVector_holds {r : VReg} {p : PReg} {wide : Bool} {k : Nat} {ls : List Nat} (hs : slot < 16) (ok : s.stashOk = true)
    (w : TeamIssues (.qtry h (.v r) q p wide) h s c slot t) (h0 : t.adm h ≠ 0) (hk : (t.bind q).kind = 3) (hkq : Claims.listOf t q = k)
    (hls : (lanes (t.adm h)).take (s.ruckQ t.ctx k).length = ls) (hrun : s.unitsRun (s.ctx t.ctx).part = true)
    (hl : s.listener t.ctx k = none) (hroom : s.lacking c t 0 (slicesEach (wideN wide) ls) = none) :
    ∃ s' t', exec (.qtry h (.v r) q p wide) s = .next s' ∧ (∀ q, s'.memGet q = s.memGet q) ∧ s'.team? c slot = some t' ∧
      (∀ j, j ≠ tkey c slot → s'.teams.find j = s.teams.find j) ∧ (∀ e, e ≠ c → s'.core e = s.core e) ∧
      s'.ruckQ t.ctx k = (s.ruckQ t.ctx k).drop ls.length ∧ Claims.Popped s s' c slot r wide ls (s.ruckQ t.ctx k) ∧
      t' = { t with pc := (s.nextOf c t).1, atHdr := (s.nextOf c t).2, wait := none, vmap := t'.vmap, preg := t'.preg,
                    shadows := t'.shadows } ∧ t'.flagsDue = t.flagsDue ∧
      ∀ x l, l < 1024 → inMask (t'.rp x) l =
        if x = p ∧ p.val ≠ 0 ∧ inMask (t.adm h) l = true then ls.contains l else inMask (t.rp x) l := by
  have hcount : s.popCount t.ctx (t.bind q) = some (s.ruckQ t.ctx k).length := popCount_ruck hk hkq hrun hl
  have hsub : ∀ l ∈ ls, l ∈ lanes (t.adm h) := fun l hmem => List.mem_of_mem_take (hls ▸ hmem)
  have hnd : ls.Nodup := hls ▸ (nodup_lanes _).sublist (List.take_sublist ..)
  have hlt : ∀ l ∈ ls, l < 1024 := fun l hmem => (mem_lanes.1 (hsub l hmem)).1
  have hlen : ls.length ≤ (s.ruckQ t.ctx k).length := by
    rw [← hls, List.length_take]
    omega
  obtain ⟨m, es, hpop, n, hn, hmem, hteams, hcores, hvregs, hleft, hpopped, t1, ht1, hframe1, hfl1⟩ := items_popped (x := t.x s c slot h)
    ⟨rfl, rfl⟩ hs w.2.1 ok hk hkq r wide hnd hlt hlen
  have hneed : (queueNeed q true wide r.val s c t).ill = false ∧ (queueNeed q true wide r.val s c t).gather = false ∧
      (queueNeed q true wide r.val s c t).leader = false := by
    rw [needs_lanes (by omega)]
    exact ⟨rfl, rfl, rfl⟩
  have hexec : exec (.qtry h (.v r) q p wide) s = .next (settleTeam (.qtry h (.v r) q p wide) h s c slot t
      (.done (tried (t.x s c slot h) (n.setTeam c slot (t1.wp p (t.adm h) (maskOf ls fun _ => true))) (maskOf ls fun _ => true)))) := by
    refine runTeam_ready (nd := queueNeed q true wide r.val) w hneed ((if_neg h0).trans ?_) nofun
    simp only [show (t.x s c slot h).team = t from rfl, show (t.x s c slot h).adm = t.adm h from rfl, hk, hcount, hls]
    refine (if_neg (by decide)).trans ((if_neg (by simp)).trans ?_)
    have hregs : itemRegs (t.bind q) wide = wideN wide := if_neg (by omega)
    rw [hregs]
    refine (more_ready (x := t.x s c slot h) (reads := false) _ (fun a ha => ?_) nofun).trans ?_
    · exact (w.2.2.1 a (List.mem_append_right _ (List.mem_append_left _ ha))).2
    · rw [show (t.x s c slot h).c = c from rfl, show (t.x s c slot h).team = t from rfl, hroom]
      dsimp only
      rw [hpop]
      dsimp only
      rw [hn]
      exact congrArg (fun m => Res.done (tried (t.x s c slot h) m (maskOf ls fun _ => true))) (modTeam_eq_setTeam (fun t1 => t1.wp p (t.adm h) (maskOf ls fun _ => true)) ht1)
  have hd : Dropped _ _ c := dropped_tried (t.x s c slot h) (n.setTeam c slot (t1.wp p (t.adm h) (maskOf ls fun _ => true))) (maskOf ls fun _ => true) rfl
  obtain ⟨hf, -, ⟨t', ht', hfl', hframe'⟩, hend⟩ := taken_done (i := .qtry h (.v r) q p wide) (h := h) (s := s) (t := t) hs hd
    (State.team_setTeam_same ..) rfl
  generalize settleTeam (.qtry h (.v r) q p wide) h s c slot t _ = s' at hexec hf ht' hend
  have hset := PortFrame.setTeam (t1 := t1.wp p (t.adm h) (maskOf ls fun _ => true)) hs ht1 (by rw [Team.wp_frame])
  have hv (a : VReg) (l : Nat) : s'.vreg c slot a l = n.vreg c slot a l := (hf.vregs slot hs a l).trans (hset.vregs slot hs a l)
  refine ⟨s', t', hexec, fun q => ?_, ht', fun j hj => ((hf.teams j hj).trans (hset.teams j hj)).trans (hteams j hj),
    fun e he => (hf.cores e he).trans (hcores e he), ?_, ⟨fun i l hil => ?_, fun a l hl hor => ?_⟩, ?_, ?_, fun x l hl => ?_⟩
  · rw [← hmem, hend]
    rfl
  · rw [hend]
    exact hleft
  · obtain ⟨a, ha, hval⟩ := hpopped.1 i l hil
    exact ⟨a, ha, fun j hj => (hv _ _).trans (hval j hj)⟩
  · exact (hv a l).trans (hpopped.2 a l hl hor)
  · rw [hframe', Team.wp_frame, hframe1]
  · rw [hfl', Team.wp_flags, hfl1]
  · have hrp : t'.rp x = (t1.wp p (t.adm h) (maskOf ls fun _ => true)).rp x := by
      rw [hframe']
      rfl
    have hrp1 : t1.rp x = t.rp x := by
      rw [hframe1]
      rfl
    rw [hrp, Team.rp_wp]
    by_cases hx : x = p ∧ p.val ≠ 0
    · rw [if_pos hx, inMask_blend _ _ _ _ hl, inMask_maskOf _ _ _ hl, Bool.and_true]
      by_cases hin : inMask (t.adm h) l = true
      · rw [if_pos hin, if_pos ⟨hx.1, hx.2, hin⟩]
        simp
      · rw [if_neg hin, if_neg fun h => hin h.2.2, ← hx.1, hrp1]
    · rw [if_neg hx, if_neg fun h => hx ⟨h.1, h.2.1⟩, hrp1]

end

end Sys2Proof.Proofs

end

section
/-! R72, R110: REFILL starts retired lanes with the items of a Rucksack list. -/

open Sys2Proof Sys2Proof.Machine

namespace Sys2Proof.Proofs

/-! The items that lanes take in sr.arg. -/

theorem get_args {ls : List Nat} (hnd : ls.Nodup) (items : List RItem) {k : Nat} (hk : k ≠ 2) (arg : Tbl W64) (l : Nat) :
    ((List.zip ls ((items.take ls.length).map fun i => (i.item, (0 : W64)))).foldl (fun a p => a.set 0 p.1 (if k = 2 then p.2.2 else p.2.1)) arg).get 0 l =
      match (List.zip ls items).find? fun x => x.1 == l with
      | some x => x.2.item
      | none => arg.get 0 l := by
  induction ls generalizing items arg with
  | nil => rfl
  | cons a ls ih =>
    obtain ⟨ha, hnd'⟩ := List.nodup_cons.1 hnd
    cases items with
    | nil => rfl
    | cons i items =>
      have hrest := ih hnd' items (arg.set 0 a i.item)
      simp only [List.length_cons, List.take_succ_cons, List.map_cons, List.zip_cons_cons, List.foldl_cons, if_neg hk, List.find?_cons] at hrest ⊢
      rw [hrest]
      by_cases hal : a = l
      · subst hal
        have hnone : (List.zip ls items).find? (fun x => x.1 == a) = none := by
          refine List.find?_eq_none.2 fun x hx => ?_
          have hmem := (List.of_mem_zip hx).1
          simp only [beq_iff_eq]
          exact fun h => ha (h ▸ hmem)
        rw [hnone]
        simp only [beq_self_eq_true]
        rw [Tbl.get_set, if_pos rfl]
      · rw [show (a == l) = false by simpa using hal]
        dsimp only
        cases (List.zip ls items).find? fun x => x.1 == l with
        | none =>
          dsimp only
          rw [Tbl.get_set, if_neg (Ne.symm hal)]
        | some x => rfl

/-- The team as lanes start: in its mask and in the masks of its entries, with their items. -/
def refilled (t : Team) (target : Nat) (ls : List Nat) (items : List RItem) : Team :=
  { t with arg := (List.zip ls ((items.take ls.length).map fun i => (i.item, (0 : W64)))).foldl (fun a p => a.set 0 p.1 p.2.1) t.arg,
           act := t.act ||| maskOf ls fun _ => true, pc := target, atHdr := true, wait := none,
           stk := t.stk.map fun e => { e with omask := e.omask ||| maskOf ls fun _ => true } }

/-- What REFILL does once its start has been checked. -/
def refillGo (x : X) (q : QReg) (wt : Bool) (target : Nat) (s : State) : Res :=
  match s.popCount x.team.ctx (x.team.bind q) with
  | none => .trapIn s .qfault 0
  | some n =>
    if wt && !x.team.retiredLanes.isEmpty && n == 0 then .wait s
    else
      let ls := x.team.retiredLanes.take n
      let (s, es) := s.popItems x.team.ctx (x.team.bind q) ls.length
      let m := maskOf ls fun _ => true
      let arg := (List.zip ls es).foldl (fun a p => a.set 0 p.1 (if (x.team.bind q).kind = 2 then p.2.2 else p.2.1)) x.team.arg
      let t := { x.team with arg := arg, act := x.team.act ||| m, pc := target, atHdr := true, wait := none,
                             stk := x.team.stk.map fun e => { e with omask := e.omask ||| m } }
      let s := s.setTeam x.c x.slot t
      .went (if ls.isEmpty then s.killLoads x.c x.slot else s.acquired x.c t.uid)

section
variable {h : Hdr} {q : QReg} {wt : Bool} {s : State} {c slot : Nat} {t : Team} {target : Nat}

theorem inMask_or (a b : Mask) (l : Nat) : inMask (a ||| b) l = (inMask a l || inMask b l) := BitVec.getLsbD_or ..

theorem exec_refill {off : BitVec 24} {r : Res} (w : TeamIssues (.refill h q wt off) h s c slot t) (hlead : ∀ e ∈ t.stk, e.kind ≠ .lead)
    (ht : offTarget t.pc off = target) (hgood : t.wait = none → Claims.GoodTarget s c t.ctx target)
    (he : refillGo (t.x s c slot h) q wt target (if t.wait.isSome then s else Claims.asked s c t.ctx target) = r) (hr : ∀ w, r ≠ .short w) :
    exec (.refill h q wt off) s = .next (settleTeam (.refill h q wt off) h s c slot t r) := by
  have hno : ¬ t.hasLead = true := by
    unfold Team.hasLead
    rw [List.any_eq_true]
    rintro ⟨e, hmem, hk⟩
    exact hlead e hmem (by simpa using hk)
  subst ht
  refine runTeam_eff w ((if_neg hno).trans ?_) hr
  by_cases hw : t.wait.isSome = true
  · rw [if_pos hw] at he
    exact (if_pos hw).trans he
  · rw [if_neg hw] at he
    refine (if_neg hw).trans ((toTarget_good (hgood (by simpa using hw))).trans he)

/-- What the check of its start asks of the tables. -/
theorem portFrame_asked (s : State) (c slot ctx target : Nat) : Claims.PortFrame s (Claims.asked s c ctx target) c slot := by
  unfold Claims.asked State.fetchFill
  split
  · exact PortFrame.refl ..
  · exact portFrame_issued (.of_walked (walked_tlbFill ..)) (.tlbFill ..)

/-- Retired lanes that start. -/
theorem refillGo_ready {n : State} {k : Nat} {ls : List Nat} (hk : (t.bind q).kind = 3) (hkq : Claims.listOf t q = k)
    (hrun : n.unitsRun (n.ctx t.ctx).part = true) (hl : n.listener t.ctx k = none) (hls : t.retiredLanes.take (n.ruckQ t.ctx k).length = ls)
    (hwt : wt = true → t.retiredLanes ≠ [] → n.ruckQ t.ctx k ≠ []) :
    ∃ m : State, m = { n with ctxs := m.ctxs } ∧ m.ruckQ t.ctx k = (n.ruckQ t.ctx k).drop ls.length ∧
      ∃ e, Dropped (m.setTeam c slot (refilled t target ls (n.ruckQ t.ctx k))) e c ∧ refillGo (t.x s c slot h) q wt target n = .went e := by
  have hcount : n.popCount t.ctx (t.bind q) = some (n.ruckQ t.ctx k).length := popCount_ruck hk hkq hrun hl
  have hlen : ls.length ≤ (n.ruckQ t.ctx k).length := by
    rw [← hls, List.length_take]
    omega
  obtain ⟨m, hpop, hm, hleft⟩ := popItems_ruck (s := n) (ctx := t.ctx) (b := t.bind q) hk hkq hlen
  have hgo : ¬ (wt && !t.retiredLanes.isEmpty && (n.ruckQ t.ctx k).length == 0) = true := by
    simp only [Bool.and_eq_true, Bool.not_eq_true', List.isEmpty_eq_false_iff, beq_iff_eq, List.length_eq_zero_iff, not_and]
    exact fun ⟨h1, h2⟩ => hwt h1 h2
  have hteam (es : List (W64 × W64)) (hes : ((n.ruckQ t.ctx k).take ls.length).map (fun i => (i.item, (0 : W64))) = es) :
      ({ t with
          arg := (List.zip ls es).foldl (fun a p => a.set 0 p.1 (if (t.bind q).kind = 2 then p.2.2 else p.2.1)) t.arg
          act := t.act ||| maskOf ls fun _ => true
          pc := target
          atHdr := true
          wait := none
          stk := t.stk.map fun e => { e with omask := e.omask ||| maskOf ls fun _ => true } } : Team) =
        refilled t target ls (n.ruckQ t.ctx k) := by
    subst hes
    unfold refilled
    simp only [hk, if_neg (show ¬ (3 : Nat) = 2 by decide)]
  generalize hset : m.setTeam c slot (refilled t target ls (n.ruckQ t.ctx k)) = n1
  refine ⟨m, hm, hleft, if ls.isEmpty then n1.killLoads c slot else n1.acquired c t.uid, ?_, ?_⟩
  · split
    · exact hset.symm ▸ dropped_killLoads n1 c slot
    · exact hset.symm ▸ dropped_acquired n1 c t.uid
  · unfold refillGo
    rw [show (t.x s c slot h).team = t from rfl, hcount]
    refine (if_neg hgo).trans ?_
    rw [hls]
    dsimp only
    rw [hpop]
    dsimp only
    rw [hteam _ rfl, ← hset]
    rfl

theorem refill_holds {off : BitVec 24} {k : Nat} {ls : List Nat} (hs : slot < 16) (w : TeamIssues (.refill h q wt off) h s c slot t)
    (hk : (t.bind q).kind = 3) (hkq : Claims.listOf t q = k) (htar : offTarget t.pc off = target)
    (hls : t.retiredLanes.take (s.ruckQ t.ctx k).length = ls) (hlead : ∀ e ∈ t.stk, e.kind ≠ .lead)
    (hgood : t.wait = none → Claims.GoodTarget s c t.ctx target) (hclean : Claims.Clean s) (hrun : s.unitsRun (s.ctx t.ctx).part = true)
    (hl : s.listener t.ctx k = none) (hwt : wt = true → t.retiredLanes ≠ [] → s.ruckQ t.ctx k ≠ []) :
    ∃ s' t', exec (.refill h q wt off) s = .next s' ∧ Claims.PortFrame s s' c slot ∧ (∀ q, s'.memGet q = s.memGet q) ∧
      s'.ruckQ t.ctx k = (s.ruckQ t.ctx k).drop ls.length ∧ s'.team? c slot = some t' ∧ t'.flagsDue = t.flagsDue ∧
      t' = { t with pc := target, atHdr := true, wait := none, act := t'.act, stk := t'.stk, arg := t'.arg,
                    shadows := t'.shadows } ∧
      (∀ l, l < 1024 → inMask t'.act l = (inMask t.act l || ls.contains l)) ∧
      t'.stk.length = t.stk.length ∧
      (∀ (n : Nat) (e : Entry), t.stk[n]? = some e → ∃ e' : Entry, t'.stk[n]? = some e' ∧ e' = { e with omask := e'.omask } ∧
        ∀ l, l < 1024 → inMask e'.omask l = (inMask e.omask l || ls.contains l)) ∧
      ∀ l, t'.arg.get 0 l = match (List.zip ls (s.ruckQ t.ctx k)).find? fun x => x.1 == l with
        | some x => x.2.item
        | none => t.arg.get 0 l := by
  generalize hn : (if t.wait.isSome then s else Claims.asked s c t.ctx target) = n
  have hframe0 : Claims.PortFrame s n c slot := by
    rw [← hn]
    split
    · exact PortFrame.refl ..
    · exact portFrame_asked ..
  have hwalk : WalkAside s n := by
    rw [← hn]
    split
    · exact .refl s
    · exact asked_walk ..
  have hparts := hframe0.parts hclean
  have hq : n.ruckQ t.ctx k = s.ruckQ t.ctx k := by
    unfold State.ruckQ
    rw [hwalk.ctx]
  have hteamn : n.team? c slot = some t := (hwalk.team c slot).trans w.2.1
  have hsame : SameClean s n := by
    rw [show n = _ from hwalk]
    exact ⟨rfl, fun _ => rfl⟩
  obtain ⟨m, hm, hleft, e, hd, he⟩ := refillGo_ready (h := h) (q := q) (wt := wt) (s := s) (c := c) (slot := slot) (t := t) (target := target)
    (n := n) (k := k) (ls := ls) hk hkq
    (by unfold State.unitsRun State.partn at hrun ⊢; rw [hparts, hwalk.ctx]; exact hrun)
    (by unfold State.listener at hl ⊢; rw [hwalk.ctx]; exact hl) (by rw [hq]; exact hls) (by rw [hq]; exact hwt)
  rw [hq] at hd hleft
  have hexec := exec_refill (r := .went e) w hlead htar hgood (hn.symm ▸ he) nofun
  generalize ht1 : refilled t target ls (s.ruckQ t.ctx k) = t1 at hd
  have hteame : e.team? c slot = some t1 := (hd.team c slot).trans (State.team_setTeam_same ..)
  obtain ⟨t2, sh, h2, hs', hfl⟩ := State.agedTeam_aged e c slot h.stall.val hteame
  rw [hteame] at h2
  obtain rfl : t1 = t2 := Option.some.inj h2
  have hexec' : exec (.refill h q wt off) s = .next (e.setTeam c slot { t1 with shadows := sh }) := hexec.trans (congrArg Host.Outcome.next hs')
  have hmframe : Claims.PortFrame n m c slot := portFrame_of_rest (by rw [hm])
  have hmclean : SameClean n m := by
    rw [hm]
    exact ⟨rfl, fun _ => rfl⟩
  have htm : m.team? c slot = some t := by
    rw [hm]
    exact hteamn
  have hvm : t1.vmap = t.vmap := by
    rw [← ht1]
    rfl
  have hin (a : Mask) (l : Nat) (hl : l < 1024) : inMask (a ||| maskOf ls fun _ => true) l = (inMask a l || ls.contains l) := by
    rw [inMask_or, inMask_maskOf _ _ _ hl, Bool.and_true]
    simp
  refine ⟨_, { t1 with shadows := sh }, hexec', ?_, fun q => ?_, ?_, State.team_setTeam_same .., ?_, ?_, fun l hl => ?_, ?_, fun i e he => ?_,
    fun l => ?_⟩
  · refine PortFrame.trans hframe0 (PortFrame.trans hmframe (PortFrame.trans (PortFrame.setTeam hs htm hvm) (PortFrame.trans
      (hd.portFrame slot) (PortFrame.setTeam hs hteame rfl) hd.sameClean) ⟨rfl, fun _ => rfl⟩) hmclean) hsame
  · refine Eq.trans ?_ (hwalk.memGet q)
    change e.memGet q = _
    rw [hd.rest, hm]
    rfl
  · rw [← hleft, hd.rest]
    rfl
  · rw [hfl, ← ht1]
    rfl
  · rw [← ht1]
    rfl
  · rw [← ht1]
    exact hin _ l hl
  · rw [← ht1]
    exact List.length_map ..
  · rw [← ht1]
    exact ⟨{ e with omask := e.omask ||| maskOf ls fun _ => true }, (List.getElem?_map ..).trans (by rw [he]; rfl), rfl, fun l hl => hin e.omask l hl⟩
  · have hnd : ls.Nodup := by
      rw [← hls]
      exact (List.nodup_range.filter _).sublist (List.take_sublist ..)
    rw [← ht1]
    exact get_args hnd (s.ruckQ t.ctx k) (k := 3) (by decide) t.arg l

end

/-- Settles O37: pushes append to a list and write its area; pops, QTRY and REFILL take its oldest items into registers and lanes. -/
theorem workLists : Obligations.WorkLists := by
  unfold Obligations.WorkLists
  refine ⟨⟨?_, ?_, ?_, ?_, ?_, ?_, ?_⟩, ?_, ?_, ?_⟩
  · exact fun h q r kind s c slot t hs w => ⟨qbind_binds hs w, qbind_traps w⟩
  · exact fun i h s c slot t hb hs w h0 => badMove_traps hb w h0
  · exact fun h q a s c slot t hs w h0 hk ho hrun hl hroom => ruckPushScalar_holds hs w h0 hk ho hrun hl hroom
  · exact fun h q a wide s c slot t hs w h0 hk ho hrun hl hroom => ruckPushVector_holds hs w h0 hk ho hrun hl hroom
  · intro ctx a bs s
    exact ⟨fun ps hps q => congrFun (memGet_areaPut hps) q, fun hbad => areaPut_bad hbad⟩
  · intro h q d i rest s c slot t k hs w h0 hk hof hrun hl hq
    exact ruckPopScalar_holds hs w h0 hk hof hrun hl hq
  · intro h q d wide s c slot t k ls hs ok w h0 hk hrun hl hlen hroom
    exact ruckPopVector_holds hs ok w h0 hk rfl rfl hrun hl hlen hroom
  · intro h r q p s c slot t k hs w h0 hk hof hrun hl
    exact qtryScalar_holds hs w h0 hk rfl hrun hl
  · intro h r q p wide s c slot t k ls hs ok w h0 hk hof hrun hl hroom
    exact qtryVector_holds hs ok w h0 hk rfl rfl hrun hl hroom
  · intro h q wt off s c slot t k target ls hs w hk hlead hgood hof hclean hrun hl hwt
    exact refill_holds hs w hk rfl rfl rfl hlead hgood hclean hrun hl hwt

end Sys2Proof.Proofs

end

section
/-! R203, R213, R218, R220 to R223: rows of a matrix stream that lie on chip; tiles, outliers and accumulators. -/

open Sys2Proof Sys2Proof.Machine

namespace Sys2Proof.Proofs

/-! Rows on chip. -/

theorem mspace_near {sp : MSpace} (hsp : sp ≠ .glob) : mspace sp ≠ .glob ∧ mspace sp ≠ .pocket := by
  cases sp with
  | glob => exact absurd rfl hsp
  | pack => exact ⟨nofun, nofun⟩
  | bcamp => exact ⟨nofun, nofun⟩

/-- What such a place is, where it may be reached, is on chip. -/
theorem byteAt_near {s : State} {w : Who} {sp : MSpace} (hsp : sp ≠ .glob) {a k cls : Nat} {rd wr : Bool}
    (h : s.byteAt w (mspace sp) 0 a rd wr = .ok k cls) : 2 ^ 56 ≤ k := by
  cases sp with
  | glob => exact absurd rfl hsp
  | pack =>
    simp only [mspace, State.byteAt] at h
    split at h
    · cases h
      unfold packKey
      omega
    · cases h
  | bcamp =>
    have hpick {b : Bool} {slice off : Nat} (h : (if b = true then At.prot else .ok (bcampKey slice off) 0) = .ok k cls) : 2 ^ 56 ≤ k := by
      split at h
      · cases h
      · cases h
        unfold bcampKey
        omega
    simp only [mspace, State.byteAt, State.bcampAt] at h
    split at h
    · cases h
    · split at h
      · exact hpick h
      · split at h
        · cases h
        · exact hpick h
      · cases h

theorem areaAt_near {s : State} {w : Who} {sp : MSpace} (hsp : sp ≠ .glob) {rd wr : Bool} (l : List (Nat × Nat)) :
    ∀ p ∈ (s.areaAt w (mspace sp) rd wr l).1, 2 ^ 56 ≤ p.1 := by
  induction l with
  | nil => exact fun p hp => by simp [State.areaAt] at hp
  | cons a l ih =>
    obtain ⟨a, n⟩ := a
    intro p hp
    unfold State.areaAt at hp
    split at hp
    · next k cls hk =>
      rcases List.mem_cons.1 hp with rfl | hp
      · exact byteAt_near hsp hk
      · exact ih p hp
    · split at hp <;> simp at hp
    · simp at hp

theorem rowPages_near {sp : MSpace} (hsp : sp ≠ .glob) (n : Nat) (rows : List Nat) : Machine.rowPages (mspace sp) n rows = [] := by
  unfold Machine.rowPages pagesIn
  exact if_pos (by simpa using (mspace_near hsp).1)

theorem rowsWalked_near {sp : MSpace} (hsp : sp ≠ .glob) (s : State) (w : Who) (n : Nat) (rows : List Nat) : s.rowsWalked w (mspace sp) n rows = s := by
  unfold State.rowsWalked
  rw [rowPages_near hsp]
  rfl

/-- Rows that may be reached and are aligned raise no trap. -/
theorem rowsTrap_none {sp : MSpace} (hsp : sp ≠ .glob) {s : State} {w : Who} {n : Nat} {rd wr : Bool} {rows : List Nat} {mis : Nat → Nat → Bool}
    (hok : ∀ a ∈ rows, (s.area w (mspace sp) a n rd wr).2 = none) (hmis : ∀ m, ∀ a ∈ rows, mis m a = false) :
    s.rowsTrap w (mspace sp) n rd wr rows mis = none := by
  have hall : ∀ f ∈ rows.map fun a => (a, (s.area w (mspace sp) a n rd wr).2), f.2 = none := fun f hf => by
    obtain ⟨a, ha, rfl⟩ := List.mem_map.1 hf
    exact hok a ha
  unfold State.rowsTrap
  rw [rowPages_near hsp]
  generalize rows.map (fun a => (a, (s.area w (mspace sp) a n rd wr).2)) = fs at hall
  refine (if_neg (by simp)).trans ?_
  split
  · next f hf =>
    have h1 := List.find?_some hf
    rw [hall f (List.mem_of_find?_eq_some hf)] at h1
    cases h1
  · split
    · next f hf =>
      have h1 := List.find?_some hf
      rw [hmis f.1 f.2 (List.of_mem_zip (List.mem_of_find?_eq_some hf)).2] at h1
      cases h1
    · split
      · next f hf =>
        have h1 := List.find?_some hf
        rw [hall f (List.mem_of_find?_eq_some hf)] at h1
        cases h1
      · rfl

/-- m is s but for the single-bit errors that reads correct. -/
def Mended (s m : State) : Prop := m = { s with eccOnes := m.eccOnes, ctr := m.ctr }

theorem Mended.trans {a b c : State} (h : Mended a b) (g : Mended b c) : Mended a c := by
  unfold Mended at *
  rw [g, h]

theorem mended_corrected (s : State) (k : Nat) : Mended s (s.corrected k) := by
  unfold State.corrected
  split <;> rfl

/-- Bytes read on chip, piece by piece. -/
theorem nearPieces (core : Nat) (ps : List (Nat × Nat × Nat)) (hps : ∀ p ∈ ps, 2 ^ 56 ≤ p.1) (s : State) (bs : List Byte) :
    ∃ m, ps.foldl (fun (q : State × List Byte) p =>
      let (s, bs) := (q.1.corrected p.1).streamPiece core p.1 p.2.1 p.2.2
      (s, q.2 ++ bs)) (s, bs) = (m, bs ++ (ps.flatMap fun p => (List.range p.2.2).map (p.1 + ·)).map s.memGet) ∧ Mended s m := by
  induction ps generalizing s bs with
  | nil => exact ⟨s, by simp, rfl⟩
  | cons p ps ih =>
    have hnear := hps p List.mem_cons_self
    have hm := mended_corrected s p.1
    have hread : (s.corrected p.1).streamPiece core p.1 p.2.1 p.2.2 = (s.corrected p.1, (s.corrected p.1).memRead p.1 p.2.2) := if_pos hnear
    have hmem : (s.corrected p.1).memGet = s.memGet := by
      rw [hm]
      rfl
    obtain ⟨m, hfold, hm'⟩ := ih (fun p hp => hps p (List.mem_cons_of_mem _ hp)) (s.corrected p.1) (bs ++ (s.corrected p.1).memRead p.1 p.2.2)
    refine ⟨m, ?_, hm.trans hm'⟩
    rw [List.foldl_cons, hread]
    refine hfold.trans ?_
    rw [hmem, List.append_assoc, List.flatMap_cons, List.map_append, List.map_map, ← hmem]
    rfl

/-- A row on chip is read as memory holds it. -/
theorem streamRead_near {sp : MSpace} (hsp : sp ≠ .glob) {s : State} {w : Who} {a n k : Nat} (hecc : s.eccLines = [])
    (hkey : (s.area w (mspace sp) a n true false).1.flatMap (fun p => (List.range p.2.2).map (p.1 + ·)) = (List.range n).map (k + ·)) :
    ∃ m, s.streamRead w (mspace sp) a n = (m, some (s.memRead k n)) ∧ Mended s m := by
  have hps : ∀ p ∈ (s.area w (mspace sp) a n true false).1, 2 ^ 56 ≤ p.1 := areaAt_near hsp _
  unfold State.streamRead
  generalize (s.area w (mspace sp) a n true false).1 = ps at hkey hps
  have hgood : s.badPieces ps = false := by
    unfold State.badPieces
    refine List.any_eq_false.2 fun p hp => ?_
    have := hps p hp
    unfold State.eccBad
    rw [hecc, decide_eq_false (by omega)]
    simp [Tbl.get]
  obtain ⟨m, hfold, hm⟩ := nearPieces w.core ps hps s []
  refine ⟨m, ?_, hm⟩
  dsimp only
  rw [hgood, if_neg Bool.false_ne_true, hfold, List.nil_append, hkey, List.map_map]
  rfl

theorem area_mended {sp : MSpace} (hsp : sp ≠ .glob) {s m : State} (hm : Mended s m) (w : Who) (a n : Nat) (rd wr : Bool) :
    m.area w (mspace sp) a n rd wr = s.area w (mspace sp) a n rd wr := by
  have hbyte (a : Nat) : m.byteAt w (mspace sp) 0 a rd wr = s.byteAt w (mspace sp) 0 a rd wr := by
    rw [show m = _ from hm]
    cases sp with
    | glob => exact absurd rfl hsp
    | pack => rfl
    | bcamp => rfl
  unfold State.area
  generalize piecesOf a n = ps
  induction ps with
  | nil => rfl
  | cons p ps ih => simp only [State.areaAt, hbyte, ih]

theorem streamRows_near {sp : MSpace} (hsp : sp ≠ .glob) {w : Who} {n : Nat} {key : Nat → Nat} (rows : List Nat) {s : State} (hecc : s.eccLines = [])
    (hkey : ∀ a ∈ rows, (s.area w (mspace sp) a n true false).1.flatMap (fun p => (List.range p.2.2).map (p.1 + ·)) = (List.range n).map (key a + ·)) :
    ∃ m, s.streamRows w (mspace sp) n rows = (m, .ok (rows.map fun a => s.memRead (key a) n)) ∧ Mended s m := by
  induction rows generalizing s with
  | nil => exact ⟨s, rfl, rfl⟩
  | cons a rows ih =>
    obtain ⟨m, hread, hm⟩ := streamRead_near hsp hecc (hkey a List.mem_cons_self)
    have harea (a : Nat) := area_mended hsp hm w a n true false
    obtain ⟨m', hrows, hm'⟩ := ih (s := m) (by rw [show m = _ from hm]; exact hecc) (fun a ha => by
      rw [harea]
      exact hkey a (List.mem_cons_of_mem _ ha))
    refine ⟨m', ?_, hm.trans hm'⟩
    unfold State.streamRows
    rw [hread]
    dsimp only
    rw [hrows]
    dsimp only
    rw [show m.memRead = s.memRead by rw [show m = _ from hm]; rfl]
    rfl

/-! What a stream's work leaves as it was. -/

/-- A stream goes on after its work on its block, its core and its accesses. -/
theorem stream_done {i : Instr} {h : Hdr} {s m : State} {c : Nat} {r : Ridge} (hr : s.ridge? c = some r)
    (hm : m = { s with blocks := m.blocks, cores := m.cores, accs := m.accs, sent := m.sent, slices := m.slices, ctr := m.ctr, free := m.free,
                       seq := m.seq, eccOnes := m.eccOnes })
    (hb : ∀ k, k ≠ r.blk → m.blocks.find k = s.blocks.find k) (hcores : ∀ d, d ≠ c → m.core d = s.core d)
    (hcore : m.core c = { s.core c with l1 := (m.core c).l1, own := (m.core c).own, planeBy := (m.core c).planeBy }) {s' : State}
    (hs' : settleRidge i h s c r (.done m) = s') :
    Claims.StreamFrame s s' c r.blk ∧ Claims.Streams s c r s' ∧ s'.accs = m.accs ∧ s'.blocks = m.blocks ∧ s'.cores = m.cores := by
  have hridge : m.ridge? c = some r := by rw [hm]; exact hr
  obtain ⟨r', hr', hreq, hframe⟩ := (settleRidge_done (i := i) (h := h) (s := s) (r := r) hridge).spec hridge
  rw [hs'] at hr' hframe
  have hcoreEq (d : Nat) : s'.core d = m.core d := by rw [hframe.rest]; rfl
  refine ⟨⟨fun k hk => ?_, fun k hk => ?_, fun d hd => (hcoreEq d).trans (hcores d hd), ?_, ?_, fun q => ?_⟩, ⟨r', hr', hreq⟩, ?_, ?_, ?_⟩
  · rw [hframe.ridges k hk, hm]
  · rw [hframe.rest]
    exact hb k hk
  · rw [hcoreEq]
    exact hcore
  · rw [hframe.rest, hm]
  · rw [hframe.mem, hm]
    rfl
  · rw [hframe.rest]
  · rw [hframe.rest]
  · rw [hframe.rest]

/-- A stream whose work on chip gives its block another content. -/
theorem block_done {i : Instr} {h : Hdr} {s m : State} {c : Nat} {r : Ridge} {b : Block} (hr : s.ridge? c = some r) (hm : Mended s m) {s' : State}
    (hs' : settleRidge i h s c r (.done (m.setBlock r.blk b)) = s') :
    Claims.StreamFrame s s' c r.blk ∧ Claims.Streams s c r s' ∧ s'.accs = s.accs ∧ s'.block? r.blk = some b := by
  generalize hn : m.setBlock r.blk b = n at hs'
  have hnrest : n = { s with blocks := n.blocks, ctr := n.ctr, eccOnes := n.eccOnes } := by
    rw [← hn, show m = _ from hm]
    rfl
  have hblocks : n.blocks = s.blocks.put r.blk b := by
    rw [← hn, show m = _ from hm]
    rfl
  obtain ⟨hframe, hgoes, haccs, hbl, -⟩ := stream_done hr (by rw [hnrest]) (fun k hk => by rw [hblocks]; exact Tbl.find_put_of_ne _ _ hk)
    (fun d _ => by rw [hnrest]; rfl) (by rw [hnrest]; rfl) hs'
  refine ⟨hframe, hgoes, ?_, ?_⟩
  · rw [haccs, hnrest]
  · unfold State.block?
    rw [hbl, hblocks]
    exact Tbl.find_put_same ..

theorem tile_setTile (b : Block) (n k : Nat) (t : Tile) : (b.setTile n t).tile k = if k = n then t else b.tile k := Tbl.get_set ..

theorem acc_setAcc_same (b : Block) (n : Nat) (a : Acc) : (b.setAcc n a).acc n = a := (acc_setAcc ..).trans (if_pos rfl)

theorem setAcc_rest (b : Block) (n : Nat) (a : Acc) : b.setAcc n a = { b with accs := (b.setAcc n a).accs } := rfl

theorem runRidge_eff {i : Instr} {h : Hdr} {s : State} {c : Nat} {r : Ridge} {eff : XR → State → Res} {res : Res} (w : RidgeIssues i h s c r)
    (he : eff (r.x c h) s = res) : runRidge i h noNeedM s eff = .next (settleRidge i h s c r res) := by
  subst he
  exact runRidge_plain w

/-! MLDA (R203, R218). -/

theorem length_toBfx12 (xs : List Fl) : (toBfx12 xs).2.length = xs.length := by
  unfold toBfx12
  split <;> exact List.length_map ..

theorem length_wfmtDecode (f : WFmt) (bs : List Byte) (s e : Nat) : (wfmtDecode f bs s e).1.length = 64 := by
  cases f <;> simp [wfmtDecode, length_toBfx12]

/-- The tile that rows decode to. -/
def tileOf (fmt : WFmt) (row : Nat × List Byte → List Int × Nat) (bss : List (List Byte)) : Tile :=
  ⟨tblOf 0 (((List.range 32).zip bss).map row |>.flatMap fun d => d.1), tblOf 0 (((List.range 32).zip bss).map row |>.map fun d => BitVec.ofNat 32 d.2),
    wfmtKind fmt, true, true⟩

theorem tileOf_get {fmt : WFmt} {row : Nat × List Byte → List Int × Nat} (hrow : ∀ x, (row x).1.length = 64) {bss : List (List Byte)} {m k : Nat}
    (hm : m < 32) (hk : k < 64) {bs : List Byte} (hbs : bss[m]? = some bs) :
    (tileOf fmt row bss).el.get 0 (64 * m + k) = (row (m, bs)).1.getD k 0 ∧ (tileOf fmt row bss).sc.get 0 m = BitVec.ofNat 32 (row (m, bs)).2 := by
  have hz : ((List.range 32).zip bss)[m]? = some (m, bs) := by
    rw [List.getElem?_zip_eq_some]
    exact ⟨List.getElem?_range hm, hbs⟩
  unfold tileOf
  rw [get_tblOf, get_tblOf, List.flatMap_map, List.getD_eq_getElem?_getD, List.getD_eq_getElem?_getD, List.getD_eq_getElem?_getD,
    getElem_flatMap_rows hrow hk, hz, List.map_map, List.getElem?_map, hz]
  exact ⟨rfl, rfl⟩

section
variable {h : Hdr} {s : State} {c : Nat} {r : Ridge} {b : Block}

theorem mlda_holds {a : Fin 8} {e : SReg} {sa sb : VReg} {bsel : Fin 4} {fmt : WFmt} {sp : MSpace} {key : Nat → Nat} {rows : List Nat}
    (hrows : rowsAt (r.rs e).toNat (r.rs (sregAt e 1)).toNat 32 = rows) (w : RidgeIssues (.mlda h a e sa sb bsel fmt sp) h s c r)
    (hb : s.block? r.blk = some b) (hadm : r.adm h = true) (howes : s.owes r.uid s.seq = false) (hsp : sp ≠ .glob)
    (hon : Claims.OnChip s r c sp (wfmtRow fmt) true false rows key) (halign : ∀ x ∈ rows, x % 32 = 0)
    (hbusy : s.team0Busy r.blk [sa, sb] = false) (hecc : s.eccLines = []) :
    ∃ s' b', exec (.mlda h a e sa sb bsel fmt sp) s = .next s' ∧ Claims.StreamFrame s s' c r.blk ∧ Claims.Streams s c r s' ∧
      s'.accs = s.accs ∧ s'.block? r.blk = some b' ∧ b' = { b with tiles := b'.tiles } ∧
      (∀ k, k ≠ a.val → b'.tile k = b.tile k) ∧ b'.tile a.val = tileOf fmt (fun x => wfmtDecode fmt x.2 (s.team0 r.blk sb x.1)
        (fld (s.team0 r.blk sa x.1) (8 * bsel.val) 8)) (rows.map fun x => s.memRead (key x) (wfmtRow fmt)) := by
  obtain ⟨m, hread, hm⟩ := streamRows_near hsp (w := Claims.streamOf r c) (n := wfmtRow fmt) rows hecc fun a ha => (hon a ha).2.1
  have htrap := rowsTrap_none (mis := fun _ x => x % 32 != 0) hsp (w := Claims.streamOf r c) (n := wfmtRow fmt) (rd := true) (wr := false) (rows := rows) (s := s)
    (fun a ha => (hon a ha).1) fun _ x hx => by simpa using halign x hx
  have hbm : m.block? r.blk = some b := by
    rw [show m = _ from hm]
    exact hb
  have hteam0 : m.team0 = s.team0 := by
    rw [show m = _ from hm]
    rfl
  generalize ht : tileOf fmt (fun x => wfmtDecode fmt x.2 (s.team0 r.blk sb x.1) (fld (s.team0 r.blk sa x.1) (8 * bsel.val) 8))
    (rows.map fun x => s.memRead (key x) (wfmtRow fmt)) = tile
  have hexec : exec (.mlda h a e sa sb bsel fmt sp) s = .next (settleRidge (.mlda h a e sa sb bsel fmt sp) h s c r
      (.done (m.setBlock r.blk (b.setTile a.val tile)))) := by
    refine runRidge_eff w ?_
    dsimp only
    rw [show rowsAt ((r.x c h).pair e).1 ((r.x c h).pair e).2 32 = rows from hrows, show (r.x c h).adm = true from hadm]
    refine (if_neg (by decide)).trans ?_
    rw [show s.rowsTrap (r.x c h).who (mspace sp) (wfmtRow fmt) true false rows (fun _ x => x % 32 != 0) = none from htrap]
    dsimp only
    rw [show s.owes (r.x c h).r.uid s.seq = false from howes, show s.team0Busy (r.x c h).r.blk [sa, sb] = false from hbusy,
      rowsWalked_near hsp, show s.streamRows (r.x c h).who (mspace sp) (wfmtRow fmt) rows = _ from hread]
    refine (if_neg (by decide)).trans ?_
    dsimp only
    rw [show (r.x c h).r.blk = r.blk from rfl, modBlock_eq _ hbm, hteam0, ← ht]
    rfl
  obtain ⟨hframe, hgoes, haccs, hbl⟩ := block_done (i := .mlda h a e sa sb bsel fmt sp) (h := h) w.2.1 hm (b := b.setTile a.val tile) rfl
  refine ⟨_, b.setTile a.val tile, hexec, hframe, hgoes, haccs, hbl, rfl, fun k hk => ?_, ?_⟩
  · rw [tile_setTile, if_neg hk]
  · rw [tile_setTile, if_pos rfl]

/-! MOUTL (R205, R220). -/

theorem keysRise_of_pairwise : ∀ {l : List W64}, l.Pairwise (fun x y => fld x.toNat 0 14 < fld y.toNat 0 14) → keysRise l = true
  | [], _ => rfl
  | [_], _ => rfl
  | a :: b :: l, hl => by
    rw [List.pairwise_cons] at hl
    unfold keysRise
    rw [keysRise_of_pairwise hl.2, decide_eq_true (hl.1 b List.mem_cons_self)]
    rfl

theorem moutl_holds {e : SReg} {off n : Nat} {l : List W64} (w : RidgeIssues (.moutl h e) h s c r) (hb : s.block? r.blk = some b)
    (hadm : r.adm h = true) (howes : s.owes r.uid s.seq = false) (hoff : fld (r.rs e).toNat 0 32 = off) (hn : fld (r.rs e).toNat 32 9 = n)
    (hl : ((List.range n).map fun i => BitVec.ofNat 64 (ofLe (s.memRead (packKey r.blk (off + 8 * i)) 8))) = l)
    (h8 : off % 8 = 0) (hn256 : n ≤ 256) (hfit : n ≠ 0 → off + 8 * n ≤ r.hdr.packBytes)
    (hrise : l.Pairwise (fun x y => fld x.toNat 0 14 < fld y.toNat 0 14)) (hzero : ∀ x ∈ l, fld x.toNat 14 18 = 0) :
    ∃ s', exec (.moutl h e) s = .next s' ∧ Claims.StreamFrame s s' c r.blk ∧ Claims.Streams s c r s' ∧ s'.accs = s.accs ∧
      s'.block? r.blk = some { b with outl := l } := by
  have hany : l.any (fun e => fld e.toNat 14 18 != 0) = false := by
    simpa using hzero
  have hprot : ¬ (n != 0 && decide (r.hdr.packBytes < off + 8 * n)) = true := by
    simp only [Bool.and_eq_true, bne_iff_ne, decide_eq_true_eq, not_and, Nat.not_lt]
    exact hfit
  have hexec : exec (.moutl h e) s = .next (settleRidge (.moutl h e) h s c r (.done (s.setBlock r.blk { b with outl := l }))) := by
    refine runRidge_eff w ?_
    dsimp only
    rw [show fld ((r.x c h).src.rs e).toNat 0 32 = off from hoff, show fld ((r.x c h).src.rs e).toNat 32 9 = n from hn,
      show ((List.range n).map fun i => BitVec.ofNat 64 (ofLe (s.memRead (packKey (r.x c h).r.blk (off + 8 * i)) 8))) = l from hl,
      show (r.x c h).adm = true from hadm, show s.owes (r.x c h).r.uid s.seq = false from howes]
    refine (if_neg (by decide)).trans ((if_neg (by decide)).trans ((if_neg hprot).trans ?_))
    rw [keysRise_of_pairwise hrise, hany, decide_eq_false (by omega), h8]
    refine (if_neg (by decide)).trans ((if_neg (by decide)).trans ?_)
    exact congrArg Res.done (modBlock_eq _ hb)
  obtain ⟨hframe, hgoes, haccs, hbl⟩ := block_done (i := .moutl h e) (h := h) w.2.1 (show Mended s s from rfl) (b := { b with outl := l }) rfl
  exact ⟨_, hexec, hframe, hgoes, haccs, hbl⟩

/-! ZLD, ZCLR, ZMAP (R221 to R223). -/

theorem zMis_aligned {n stride m a : Nat} (ha : a % n = 0) (hs : stride % 4 = 0) : zMis n stride m a = false := by
  have h : m * stride % 4 = 0 := by
    rw [Nat.mul_mod, hs, Nat.mul_zero]
  unfold zMis
  rw [ha, h]
  rfl

/-- The elements of an accumulator by their places. -/
theorem get_elements (f : Nat → W32) {k : Nat} (hk : k < 1024) : (tblOf 0 ((List.range 1024).map f)).get 0 k = f k := by
  rw [get_tblOf, List.getD_eq_getElem?_getD, List.getElem?_map, List.getElem?_range hk]
  rfl

theorem le32_lt (bs : List Byte) (o : Nat) : le32 bs o < 2 ^ 32 := by
  unfold le32
  refine (ofLe_lt _).trans_le ?_
  calc 256 ^ ((bs.drop o).take 4).length ≤ 256 ^ 4 := Nat.pow_le_pow_right (by decide) (by simp)
    _ = 2 ^ 32 := by decide

/-- Four bytes of a row. -/
theorem le32_row (s : State) (k : Nat) {j : Nat} (hj : j < 32) : le32 (s.memRead k 128) (4 * j) = ofLe (s.memRead (k + 4 * j) 4) := by
  unfold le32
  congr 1
  refine List.ext_getElem ?_ fun i h1 h2 => ?_
  · simp [State.memRead]
    omega
  · simp [State.memRead, Nat.add_assoc]

theorem zld_holds {z : Fin 8} {e : SReg} {tr : Bool} {sp : MSpace} {key : Nat → Nat} {rows : List Nat}
    (hrows : rowsAt (r.rs e).toNat (r.rs (sregAt e 1)).toNat 32 = rows) (w : RidgeIssues (.zld h z e tr sp) h s c r)
    (hb : s.block? r.blk = some b) (hadm : r.adm h = true) (howes : s.owes r.uid s.seq = false) (hsp : sp ≠ .glob)
    (hon : Claims.OnChip s r c sp 128 true false rows key) (halign : ∀ x ∈ rows, x % 4 = 0) (hstride : (r.rs (sregAt e 1)).toNat % 4 = 0)
    (hbusy : b.accBusy z.val = false) (hecc : s.eccLines = []) :
    ∃ s' b', exec (.zld h z e tr sp) s = .next s' ∧ Claims.StreamFrame s s' c r.blk ∧ Claims.Streams s c r s' ∧ s'.accs = s.accs ∧
      s'.block? r.blk = some b' ∧ b' = { b with accs := b'.accs } ∧ (∀ k, k ≠ z.val → b'.acc k = b.acc k) ∧
      (b'.acc z.val).use = true ∧ (b'.acc z.val).dirty = true ∧
      ∀ m n, m < 32 → n < 32 → ((b'.acc z.val).el.get 0 (32 * m + n)).toNat =
        le32 ((rows.map fun x => s.memRead (key x) 128).getD (if tr then n else m) []) (4 * (if tr then m else n)) := by
  obtain ⟨m, hread, hm⟩ := streamRows_near hsp (w := Claims.streamOf r c) (n := 128) rows hecc fun a ha => (hon a ha).2.1
  have htrap := rowsTrap_none (mis := zMis 4 (r.rs (sregAt e 1)).toNat) hsp (w := Claims.streamOf r c) (n := 128) (rd := true) (wr := false)
    (rows := rows) (s := s) (fun a ha => (hon a ha).1) fun _ x hx => zMis_aligned (halign x hx) hstride
  have hbm : m.block? r.blk = some b := by
    rw [show m = _ from hm]
    exact hb
  generalize rows.map (fun x => s.memRead (key x) 128) = bss at hread
  let el (k : Nat) : W32 := BitVec.ofNat 32 (le32 (bss.getD (if tr then k % 32 else k / 32) []) (4 * (if tr then k / 32 else k % 32)))
  have hexec : exec (.zld h z e tr sp) s = .next (settleRidge (.zld h z e tr sp) h s c r
      (.done (m.setBlock r.blk (b.setAcc z.val ⟨tblOf 0 ((List.range 1024).map el), true, true⟩)))) := by
    refine runRidge_eff w ?_
    rw [show (r.x c h).blk s = some b from hb]
    dsimp only
    rw [show rowsAt ((r.x c h).pair e).1 ((r.x c h).pair e).2 32 = rows from hrows, show (r.x c h).adm = true from hadm]
    refine (if_neg (by decide)).trans ?_
    rw [show s.rowsTrap (r.x c h).who (mspace sp) 128 true false rows (zMis 4 ((r.x c h).pair e).2) = none from htrap]
    dsimp only
    rw [show s.owes (r.x c h).r.uid s.seq = false from howes, hbusy, rowsWalked_near hsp,
      show s.streamRows (r.x c h).who (mspace sp) 128 rows = _ from hread]
    refine (if_neg (by decide)).trans ?_
    exact congrArg Res.done (modBlock_eq _ hbm)
  obtain ⟨hframe, hgoes, haccs, hbl⟩ := block_done (i := .zld h z e tr sp) (h := h) w.2.1 hm
    (b := b.setAcc z.val ⟨tblOf 0 ((List.range 1024).map el), true, true⟩) rfl
  have hz := acc_setAcc_same b z.val ⟨tblOf 0 ((List.range 1024).map el), true, true⟩
  refine ⟨_, _, hexec, hframe, hgoes, haccs, hbl, setAcc_rest .., fun k hk => (acc_setAcc ..).trans (if_neg hk), ?_, ?_, fun i j hi hj => ?_⟩
  · rw [hz]
  · rw [hz]
  · rw [hz]
    dsimp only
    rw [get_elements el (show 32 * i + j < 1024 by omega)]
    have hd : (32 * i + j) / 32 = i := by omega
    have hr : (32 * i + j) % 32 = j := by omega
    simp only [el, hd, hr]
    rw [BitVec.toNat_ofNat]
    exact Nat.mod_eq_of_lt (le32_lt ..)

theorem zclr_holds {tile : Bool} {n : Fin 8} (w : RidgeIssues (.zclr h tile n) h s c r) (hb : s.block? r.blk = some b) (hadm : r.adm h = true)
    (hbusy : tile = false → b.accBusy n.val = false) :
    ∃ s' b', exec (.zclr h tile n) s = .next s' ∧ Claims.StreamFrame s s' c r.blk ∧ Claims.Streams s c r s' ∧ s'.accs = s.accs ∧
      s'.block? r.blk = some b' ∧ b' = { b with tiles := b'.tiles, accs := b'.accs } ∧
      (∀ k, b'.tile k = if tile = true ∧ k = n.val then ⟨[], [], .cb4, false, false⟩ else b.tile k) ∧
      ∀ k, b'.acc k = if tile = false ∧ k = n.val then ⟨[], false, false⟩ else b.acc k := by
  cases tile with
  | true =>
    have hexec : exec (.zclr h true n) s = .next (settleRidge (.zclr h true n) h s c r (.done (s.setBlock r.blk (b.setTile n.val Tile.zero)))) := by
      refine runRidge_eff w ?_
      rw [show (r.x c h).blk s = some b from hb]
      dsimp only
      rw [show (r.x c h).adm = true from hadm]
      rfl
    obtain ⟨hframe, hgoes, haccs, hbl⟩ := block_done (i := .zclr h true n) (h := h) w.2.1 (show Mended s s from rfl) (b := b.setTile n.val Tile.zero) rfl
    refine ⟨_, _, hexec, hframe, hgoes, haccs, hbl, rfl, fun k => ?_, fun k => (if_neg (by simp)).symm⟩
    rw [tile_setTile]
    simp [Tile.zero]
  | false =>
    have hexec : exec (.zclr h false n) s = .next (settleRidge (.zclr h false n) h s c r (.done (s.setBlock r.blk (b.setAcc n.val Acc.zero)))) := by
      refine runRidge_eff w ?_
      rw [show (r.x c h).blk s = some b from hb]
      dsimp only
      rw [show (r.x c h).adm = true from hadm, hbusy rfl]
      rfl
    obtain ⟨hframe, hgoes, haccs, hbl⟩ := block_done (i := .zclr h false n) (h := h) w.2.1 (show Mended s s from rfl) (b := b.setAcc n.val Acc.zero) rfl
    refine ⟨_, _, hexec, hframe, hgoes, haccs, hbl, rfl, fun k => (if_neg (by simp)).symm, fun k => ?_⟩
    rw [acc_setAcc]
    simp [Acc.zero]

theorem zmap_holds {z a : Fin 8} {e : SReg} {op : ZOp} (w : RidgeIssues (.zmap h z a e op) h s c r) (hb : s.block? r.blk = some b)
    (hadm : r.adm h = true) (hz : b.accBusy z.val = false) (ha : b.accBusy a.val = false) :
    ∃ s' b', exec (.zmap h z a e op) s = .next s' ∧ Claims.StreamFrame s s' c r.blk ∧ Claims.Streams s c r s' ∧ s'.accs = s.accs ∧
      s'.block? r.blk = some b' ∧ b' = { b with accs := b'.accs } ∧ (∀ k, k ≠ z.val → b'.acc k = b.acc k) ∧
      (b'.acc z.val).use = true ∧ (b'.acc z.val).dirty = true ∧
      ∀ k, k < 1024 → (b'.acc z.val).el.get 0 k = BitVec.ofNat 32 (zmapEl op (fld (r.rs e).toNat 0 32) ((b.acc z.val).el.get 0 k).toNat
        ((b.acc a.val).el.get 0 k).toNat) := by
  let el (k : Nat) : W32 := BitVec.ofNat 32 (zmapEl op (fld (r.rs e).toNat 0 32) ((b.acc z.val).el.get 0 k).toNat ((b.acc a.val).el.get 0 k).toNat)
  have hexec : exec (.zmap h z a e op) s = .next (settleRidge (.zmap h z a e op) h s c r
      (.done (s.setBlock r.blk (b.setAcc z.val ⟨tblOf 0 ((List.range 1024).map el), true, true⟩)))) := by
    refine runRidge_eff w ?_
    rw [show (r.x c h).blk s = some b from hb]
    dsimp only
    rw [show (r.x c h).adm = true from hadm, hz, ha]
    rfl
  obtain ⟨hframe, hgoes, haccs, hbl⟩ := block_done (i := .zmap h z a e op) (h := h) w.2.1 (show Mended s s from rfl)
    (b := b.setAcc z.val ⟨tblOf 0 ((List.range 1024).map el), true, true⟩) rfl
  have hacc := acc_setAcc_same b z.val ⟨tblOf 0 ((List.range 1024).map el), true, true⟩
  refine ⟨_, _, hexec, hframe, hgoes, haccs, hbl, setAcc_rest .., fun k hk => (acc_setAcc ..).trans (if_neg hk), ?_, ?_, fun k hk => ?_⟩
  · rw [hacc]
  · rw [hacc]
  · rw [hacc]
    dsimp only
    rw [get_elements el hk]

end

/-! Writes of a stream on chip, and ZST (R213, R222). -/

theorem startWrite_near {sp : Space} (hsp : sp ≠ .glob ∧ sp ≠ .pocket) {s : State} {w : Who} {a : Access} (bs : List Byte) (hk : 2 ^ 56 ≤ a.key) :
    s.startWrite w sp a bs = s.addAccess { a with kind := .write bs, len := bs.length } := by
  have hg : (sp == Space.glob) = false := by simpa using hsp.1
  have hp : (sp == Space.pocket) = false := by simpa using hsp.2
  unfold State.startWrite
  rw [hg, hp, if_neg Bool.false_ne_true]
  refine if_pos ?_
  simp only [Access.global, Bool.or_eq_true, Bool.not_eq_true', decide_eq_false_iff_not]
  omega

/-- What is said of a write in flight. -/
def writeOf (q : Access) : AccK × Nat × Nat × Nat × Nat := (q.kind, q.key, q.len, q.uid, q.after)

theorem streamWrites_near {sp : Space} (hsp : sp ≠ .glob ∧ sp ≠ .pocket) (w : Who) (depth after grp : Nat) (ps : List (Spot × List Byte))
    (hps : ∀ p ∈ ps, 2 ^ 56 ≤ p.1.key) (s : State) : ∃ new n, s.streamWrites w sp depth after grp ps = { s with accs := s.accs ++ new, seq := n } ∧
      new.map writeOf = ps.map fun p => (AccK.write p.2, p.1.key, p.2.length, w.uid, after) := by
  unfold State.streamWrites
  induction ps generalizing s with
  | nil => exact ⟨[], s.seq, by rw [List.append_nil]; rfl, rfl⟩
  | cons p ps ih =>
    rw [List.foldl_cons, startWrite_near hsp p.2 (hps p List.mem_cons_self)]
    obtain ⟨new, n, hs, hnew⟩ := ih (fun p hp => hps p (List.mem_cons_of_mem _ hp))
      (s.addAccess { mkAccess w .read p.1 0 grp with after := after, depth := depth, kind := .write p.2, len := p.2.length })
    refine ⟨{ mkAccess w .read p.1 0 grp with after := after, depth := depth, kind := .write p.2, len := p.2.length, id := s.seq } :: new, n, ?_, ?_⟩
    · refine hs.trans ?_
      rw [show (s.addAccess { mkAccess w .read p.1 0 grp with after := after, depth := depth, kind := .write p.2, len := p.2.length }).accs =
        s.accs ++ [{ mkAccess w .read p.1 0 grp with after := after, depth := depth, kind := .write p.2, len := p.2.length, id := s.seq }] from rfl,
        List.append_assoc]
      rfl
    · rw [List.map_cons, List.map_cons, hnew]
      rfl

section
variable {h : Hdr} {s : State} {c : Nat} {r : Ridge} {b : Block}

/-- The place and data of an element, as ZST finds it. -/
def zstAt (s : State) (w : Who) (sp : Space) (fmt : ZFmt) (n : Nat) (el : Nat → Nat → Nat) (x : Nat × Nat) (j : Nat) : Option (Spot × List Byte) :=
  match s.byteAt w sp 0 ((x.2 + j * n) % 2 ^ 64) false true with
  | .ok k cls => some (⟨(x.2 + j * n) % 2 ^ 64, k, cls⟩, toLe n (packF (zfmtTy fmt) Rnd.rne (unpackF .f32 false (el x.1 j))).bits)
  | _ => none

/-- The places and data of the elements that ZST stores. -/
def zstWrites (fmt : ZFmt) (el : Nat → Nat → Nat) (rows : List Nat) (key : Nat → Nat) : List (Spot × List Byte) :=
  ((List.range 32).zip rows).flatMap fun x => (List.range 32).map fun j =>
    (⟨(x.2 + j * ((zfmtTy fmt).w / 8)) % 2 ^ 64, key x.2 + j * ((zfmtTy fmt).w / 8), 0⟩,
      toLe ((zfmtTy fmt).w / 8) (packF (zfmtTy fmt) Rnd.rne (unpackF .f32 false (el x.1 j))).bits)

theorem zst_holds {z : Fin 8} {free : Bool} {e : SReg} {fmt : ZFmt} {tr : Bool} {sp : MSpace} {key : Nat → Nat} {rows : List Nat} {n : Nat}
    (hn : (zfmtTy fmt).w / 8 = n) (hrows : rowsAt (r.rs e).toNat (r.rs (sregAt e 1)).toNat 32 = rows)
    (w : RidgeIssues (.zst h z free e fmt tr sp) h s c r) (hb : s.block? r.blk = some b) (hadm : r.adm h = true) (hsp : sp ≠ .glob)
    (hon : Claims.OnChip s r c sp (32 * n) false true rows key)
    (hel : ∀ x ∈ rows, x % n = 0 ∧ x + 32 * n ≤ 2 ^ 64 ∧ ∀ j, j < 32 → s.byteAt (Claims.streamOf r c) (mspace sp) 0 (x + j * n) false true = .ok (key x + j * n) 0)
    (hstride : (r.rs (sregAt e 1)).toNat % 4 = 0) (hbusy : b.accBusy z.val = false) :
    ∃ s' b', exec (.zst h z free e fmt tr sp) s = .next s' ∧ Claims.StreamFrame s s' c r.blk ∧ Claims.Streams s c r s' ∧
      s'.block? r.blk = some b' ∧ b' = { b with accs := b'.accs } ∧
      (∀ k, b'.acc k = if k = z.val ∧ free = true then { b.acc k with use := false } else b.acc k) ∧
      ∃ new, s'.accs = s.accs ++ new ∧ new.map writeOf = (zstWrites fmt (fun m j => ((b.acc z.val).el.get 0 (if tr then 32 * j + m else 32 * m + j)).toNat)
        rows key).map fun p => (AccK.write p.2, p.1.key, p.2.length, r.uid, s.seq) := by
  subst hn
  generalize hn : (zfmtTy fmt).w / 8 = n at *
  have hn0 : 0 < n := by
    rw [← hn]
    cases fmt <;> decide
  have htrap := rowsTrap_none (mis := zMis n (r.rs (sregAt e 1)).toNat) hsp (w := Claims.streamOf r c) (n := 32 * n) (rd := false) (wr := true)
    (rows := rows) (s := s) (fun a ha => (hon a ha).1) fun _ x hx => zMis_aligned (hel x hx).1 hstride
  let el (m j : Nat) : Nat := ((b.acc z.val).el.get 0 (if tr then 32 * j + m else 32 * m + j)).toNat
  have hps : (((List.range 32).zip rows).flatMap fun x => (List.range 32).filterMap (zstAt s (Claims.streamOf r c) (mspace sp) fmt n el x)) =
      zstWrites fmt el rows key := by
    unfold zstWrites
    rw [hn]
    refine List.flatMap_congr fun x hx => ?_
    obtain ⟨-, hfit, hbyte⟩ := hel x.2 (List.of_mem_zip hx).2
    rw [← List.filterMap_eq_map]
    refine List.filterMap_congr fun j hj => ?_
    have hj32 := List.mem_range.1 hj
    have hmod : (x.2 + j * n) % 2 ^ 64 = x.2 + j * n := Nat.mod_eq_of_lt (by
      have : j * n + n ≤ 32 * n := by nlinarith
      omega)
    unfold zstAt
    simp only [Function.comp_apply, hmod, hbyte j hj32]
  have hkeys : ∀ p ∈ zstWrites fmt el rows key, 2 ^ 56 ≤ p.1.key := fun p hp => by
    obtain ⟨x, hx, hp⟩ := List.mem_flatMap.1 hp
    obtain ⟨j, -, rfl⟩ := List.mem_map.1 hp
    have := (hon x.2 (List.of_mem_zip hx).2).2.2
    dsimp only
    omega
  obtain ⟨new, q, hwrites, hnew⟩ := streamWrites_near (mspace_near hsp) (Claims.streamOf r c) r.depth s.seq s.seq (zstWrites fmt el rows key) hkeys s.tickSeq
  have hbm : (s.tickSeq.streamWrites (Claims.streamOf r c) (mspace sp) r.depth s.seq s.seq (zstWrites fmt el rows key)).block? r.blk = some b := by
    rw [hwrites]
    exact hb
  generalize hb' : (if free then b.setAcc z.val { b.acc z.val with use := false } else b) = b'
  have hexec : ∃ m, exec (.zst h z free e fmt tr sp) s = .next (settleRidge (.zst h z free e fmt tr sp) h s c r (.done m)) ∧
      m = { s with blocks := m.blocks, accs := s.accs ++ new, seq := q } ∧ (∀ k, k ≠ r.blk → m.blocks.find k = s.blocks.find k) ∧
      m.block? r.blk = some b' := by
    refine ⟨if free then (s.tickSeq.streamWrites (Claims.streamOf r c) (mspace sp) r.depth s.seq s.seq (zstWrites fmt el rows key)).setBlock r.blk
      (b.setAcc z.val { b.acc z.val with use := false }) else s.tickSeq.streamWrites (Claims.streamOf r c) (mspace sp) r.depth s.seq s.seq
        (zstWrites fmt el rows key), runRidge_eff w ?_, ?_, fun k hk => ?_, ?_⟩
    · rw [show (r.x c h).blk s = some b from hb]
      dsimp only
      rw [show rowsAt ((r.x c h).pair e).1 ((r.x c h).pair e).2 32 = rows from hrows, show (r.x c h).adm = true from hadm, hn]
      refine (if_neg (by decide)).trans ?_
      rw [show s.rowsTrap (r.x c h).who (mspace sp) (32 * n) false true rows (zMis n ((r.x c h).pair e).2) = none from htrap]
      dsimp only
      rw [hbusy, rowsWalked_near hsp]
      refine (if_neg (by decide)).trans ?_
      change Res.done (if free then (s.tickSeq.streamWrites (Claims.streamOf r c) (mspace sp) r.depth s.seq s.seq
        (((List.range 32).zip rows).flatMap fun x => (List.range 32).filterMap (zstAt s (Claims.streamOf r c) (mspace sp) fmt n el x))).modBlock r.blk
          (fun b' => b'.setAcc z.val { b.acc z.val with use := false }) else s.tickSeq.streamWrites (Claims.streamOf r c) (mspace sp) r.depth s.seq s.seq
        (((List.range 32).zip rows).flatMap fun x => (List.range 32).filterMap (zstAt s (Claims.streamOf r c) (mspace sp) fmt n el x))) = _
      rw [hps, modBlock_eq _ hbm]
    · rw [hwrites]
      split <;> rfl
    · rw [hwrites]
      split
      · exact Tbl.find_put_of_ne _ _ hk
      · rfl
    · rw [← hb']
      split
      · exact block_setBlock_same ..
      · exact hbm
  obtain ⟨m, hexec, hm, hbl, hbk⟩ := hexec
  obtain ⟨hframe, hgoes, haccs, hblocks, -⟩ := stream_done (i := .zst h z free e fmt tr sp) (h := h) w.2.1 (m := m) (by rw [hm]) hbl
    (fun d _ => by rw [hm]; rfl) (by rw [hm]; rfl) rfl
  refine ⟨_, b', hexec, hframe, hgoes, ?_, ?_, fun k => ?_, new, ?_, hnew⟩
  · unfold State.block? at hbk ⊢
    rw [hblocks]
    exact hbk
  · rw [← hb']
    split
    · exact setAcc_rest ..
    · rfl
  · rw [← hb']
    cases free with
    | true =>
      rw [if_pos rfl, acc_setAcc]
      by_cases hk : k = z.val
      · rw [if_pos hk, if_pos ⟨hk, rfl⟩, hk]
      · rw [if_neg hk, if_neg fun h => hk h.1]
    | false => exact (if_neg (by simp)).symm
  · rw [haccs, hm]

end

end Sys2Proof.Proofs

end

section
/-! R201, R215, R217: the plane converter. -/

open Sys2Proof Sys2Proof.Machine

namespace Sys2Proof.Proofs

/-! What PLANE reads and what it makes of it. -/

/-- The columns of a source: the first byte, the number of bytes and the first bit of each. -/
def planeCols (src : PSrc) (so : Nat) (geo : W64) : List (Nat × Nat × Nat) :=
  (List.range (fld geo.toNat 32 5 + 1)).map fun n => planeCol (psrcBits src) so (fld geo.toNat 0 32) n

/-- A column converted, or the filling of one that the source does not have. -/
def planeColumn (s : State) (blk : Nat) (src : PSrc) (ecode : Nat) : Option (Nat × Nat × Nat) → Nat × List Int
  | some q => psrcColumn src ecode (s.memRead (packKey blk q.1) q.2.1) q.2.2
  | none => (if (psrcFty src).isSome then 1 else ecode, [])

/-- The tile that PLANE makes. -/
def planeOf (s : State) (blk : Nat) (src : PSrc) (so : Nat) (geo : W64) : List Byte :=
  Machine.planeTile (psrcWs src) (psrcFty src).isNone
    ((List.range 32).map fun n => planeColumn s blk src (fld geo.toNat 40 8) (planeCols src so geo)[n]?)

theorem length_planeTile (ws : Nat) (integer : Bool) {cols : List (Nat × List Int)} (h : cols.length = 32) :
    (Machine.planeTile ws integer cols).length = 64 + 256 * ws := by
  simp [Machine.planeTile, h, List.length_flatMap, length_toLe]
  omega

theorem length_planeOf (s : State) (blk : Nat) (src : PSrc) (so : Nat) (geo : W64) : (planeOf s blk src so geo).length = 64 + 256 * psrcWs src :=
  length_planeTile _ _ (by rw [List.length_map, List.length_range])

/-- The writes of a tile, eight bytes each. -/
def planeWrites (tile : List Byte) (blk dst n : Nat) : List (Spot × List Byte) :=
  (List.range n).map fun k => (⟨0, packKey blk (dst + 8 * k), 0⟩, (tile.drop (8 * k)).take 8)

theorem packKey_onChip (blk off : Nat) : 2 ^ 56 ≤ packKey blk off := by
  unfold packKey
  omega

theorem planeWrites_writeOf {tile : List Byte} {blk dst n uid after : Nat} (h : 8 * n ≤ tile.length) :
    ((planeWrites tile blk dst n).map fun p => (AccK.write p.2, p.1.key, p.2.length, uid, after)) =
      (List.range n).map fun k => (AccK.write ((tile.drop (8 * k)).take 8), packKey blk (dst + 8 * k), 8, uid, after) := by
  unfold planeWrites
  rw [List.map_map]
  refine List.map_congr_left fun k hk => ?_
  have hlen : ((tile.drop (8 * k)).take 8).length = 8 := by
    have := List.mem_range.1 hk
    rw [List.length_take, List.length_drop]
    omega
  rw [Function.comp_apply, hlen]

/-! The effect of PLANE, where nothing traps and nothing is waited for. -/

/-- Whether a write of the party's own is to come, to the source where its writes are not in order. -/
def planeOwn (s : State) (w : Who) (ordered : Bool) (cols : List (Nat × Nat × Nat)) : Bool :=
  s.accs.any fun a => a.uid == w.uid && !a.isRead && a.stage == 0 &&
    (ordered || cols.any fun c => a.key < packKey w.blk c.1 + c.2.1 && packKey w.blk c.1 < a.key + a.len)

theorem planeOwn_apart {s : State} {w : Who} {cols : List (Nat × Nat × Nat)}
    (h : ∀ q ∈ cols, ∀ a ∈ s.accs, a.uid = w.uid → a.isRead = false → packKey w.blk q.1 + q.2.1 ≤ a.key ∨ a.key + a.len ≤ packKey w.blk q.1) :
    planeOwn s w false cols = false := by
  unfold planeOwn
  refine List.any_eq_false.2 fun a ha hown => ?_
  simp only [Bool.and_eq_true, beq_iff_eq, Bool.not_eq_true', Bool.false_or, List.any_eq_true, decide_eq_true_eq] at hown
  obtain ⟨⟨⟨huid, hread⟩, -⟩, q, hq, hlt, hgt⟩ := hown
  have := h q hq a ha huid hread
  omega

theorem planeOwn_performed {s : State} {w : Who} {cols : List (Nat × Nat × Nat)}
    (h : ∀ a ∈ s.accs, a.uid = w.uid → a.isRead = false → a.stage ≠ 0) : planeOwn s w true cols = false := by
  unfold planeOwn
  refine List.any_eq_false.2 fun a ha hown => ?_
  simp only [Bool.and_eq_true, beq_iff_eq, Bool.not_eq_true'] at hown
  obtain ⟨⟨⟨huid, hread⟩, hstage⟩, -⟩ := hown
  exact h a ha huid hread hstage

theorem planeRun_done {s : State} {w : Who} {depth relSeq so dst : Nat} {ordered : Bool} {geo : W64} {src : PSrc}
    (hcols : ∀ q ∈ planeCols src so geo, q.1 + q.2.1 ≤ w.pack) (hdst : dst + (64 + 256 * psrcWs src) ≤ w.pack) (hal : dst % 64 = 0)
    (hsrc : if 8 ≤ psrcBits src then so * 8 % psrcBits src = 0 else fld geo.toNat 0 32 * psrcBits src % 8 = 0)
    (hfree : (s.core w.core).planeBy = none) (hacq : s.acquiring w.uid = false) (hown : planeOwn s w ordered (planeCols src so geo) = false) :
    ∃ new n, s.planeRun w depth ordered relSeq so dst geo src =
        .done { s.modCore w.core fun c => { c with planeBy := some w.uid } with accs := s.accs ++ new, seq := n } ∧
      new.map writeOf = (List.range ((64 + 256 * psrcWs src) / 8)).map fun k =>
        (AccK.write (((planeOf s w.blk src so geo).drop (8 * k)).take 8), packKey w.blk (dst + 8 * k), 8, w.uid, if ordered then s.seq else relSeq) := by
  obtain ⟨new, n, hwrites, hnew⟩ := streamWrites_near (sp := .pack) ⟨nofun, nofun⟩ w depth (if ordered then s.seq else relSeq) s.seq
    (planeWrites (planeOf s w.blk src so geo) w.blk dst ((64 + 256 * psrcWs src) / 8))
    (fun p hp => by
      obtain ⟨k, -, rfl⟩ := List.mem_map.1 hp
      exact packKey_onChip ..) (s.modCore w.core fun c => { c with planeBy := some w.uid }).tickSeq
  refine ⟨new, n, ?_, hnew.trans (planeWrites_writeOf (by rw [length_planeOf]; omega))⟩
  have hfind : (planeCols src so geo).find? (fun c => w.pack < c.1 + c.2.1) = none := List.find?_eq_none.2 fun q hq => by
    have := hcols q hq
    simpa using this
  unfold State.planeRun
  dsimp only
  rw [show ((List.range (fld geo.toNat 32 5 + 1)).map fun n => planeCol (psrcBits src) so (fld geo.toNat 0 32) n) = planeCols src so geo from rfl, hfind]
  dsimp only
  have halign : (if 8 ≤ psrcBits src then so * 8 % psrcBits src != 0 else fld geo.toNat 0 32 * psrcBits src % 8 != 0) = false := by
    split at hsrc <;> simpa [*] using hsrc
  rw [if_neg (by omega), halign, if_neg Bool.false_ne_true, hal, if_neg (by decide), hfree, hacq,
    show (s.accs.any fun a => a.uid == w.uid && !a.isRead && a.stage == 0 &&
      (ordered || (planeCols src so geo).any fun c => a.key < packKey w.blk c.1 + c.2.1 && packKey w.blk c.1 < a.key + a.len)) =
      planeOwn s w ordered (planeCols src so geo) from rfl, hown, if_neg (by decide)]
  exact congrArg Res.done hwrites

/-! PLANE of a leader, and of a stream. -/

theorem runBoth_leader {i : Instr} {h : Hdr} {s : State} {c slot : Nat} {t : Team} {eff : X → State → Res} {effR : XR → State → Res}
    {ndR : State → Nat → Ridge → Need} {r : Res} (w : TeamIssues i h s c slot t) (hact : popcount t.act = 1) (he : eff (t.x s c slot h) s = r)
    (hr : ∀ w, r ≠ .short w) :
    runBoth i h (fun _ _ _ => { leader := true }) ndR s eff effR = .next (settleTeam i h s c slot t r) := by
  subst he
  exact runBoth_team w rfl nofun (fun _ => hact) hr

section
variable {h : Hdr} {e sa sb : SReg} {src : PSrc} {s : State} {c : Nat}

theorem planeTeam_holds {slot : Nat} {t : Team} (hs : slot < 16) (w : TeamIssues (.plane h e sa sb src) h s c slot t) (hact : popcount t.act = 1)
    (h0 : t.adm h ≠ 0) (hacq : s.acquiring t.uid = false) (hfree : (s.core c).planeBy = none)
    (hcols : ∀ q ∈ planeCols src (fld (t.rs e).toNat 0 32) (t.rs sb), q.1 + q.2.1 ≤ t.hdr.packBytes ∧
      ∀ a ∈ s.accs, a.uid = t.uid → a.isRead = false → packKey t.blk q.1 + q.2.1 ≤ a.key ∨ a.key + a.len ≤ packKey t.blk q.1)
    (hdst : fld (t.rs sa).toNat 0 32 + (64 + 256 * psrcWs src) ≤ t.hdr.packBytes) (hal : fld (t.rs sa).toNat 0 32 % 64 = 0)
    (hsrc : if 8 ≤ psrcBits src then fld (t.rs e).toNat 0 32 * 8 % psrcBits src = 0 else fld (t.rs sb).toNat 0 32 * psrcBits src % 8 = 0) :
    ∃ s', exec (.plane h e sa sb src) s = .next s' ∧ (∀ q, s'.memGet q = s.memGet q) ∧ Claims.Goes s c slot t t s' ∧
      (∀ k, k ≠ tkey c slot → s'.teams.find k = s.teams.find k) ∧ (∀ k, k < 16 → ∀ x l, s'.vreg c k x l = s.vreg c k x l) ∧
      (∀ d, d ≠ c → s'.core d = s.core d) ∧ s'.core c = { s.core c with planeBy := some t.uid, vtb := (s'.core c).vtb } ∧
      s' = { s with teams := s'.teams, cores := s'.cores, accs := s'.accs, ctr := s'.ctr, seq := s'.seq } ∧
      ∃ new, s'.accs = s.accs ++ new ∧ new.map writeOf = (List.range ((64 + 256 * psrcWs src) / 8)).map fun k =>
        (AccK.write (((planeOf s t.blk src (fld (t.rs e).toNat 0 32) (t.rs sb)).drop (8 * k)).take 8),
          packKey t.blk (fld (t.rs sa).toNat 0 32 + 8 * k), 8, t.uid, t.relSeq) := by
  obtain ⟨new, n, hrun, hnew⟩ := planeRun_done (s := s) (w := t.who c) (depth := t.depth) (relSeq := t.relSeq) (ordered := false)
    (fun q hq => (hcols q hq).1) hdst hal hsrc hfree hacq (planeOwn_apart fun q hq => (hcols q hq).2)
  generalize hm : ({ s.modCore (t.who c).core fun k => { k with planeBy := some (t.who c).uid } with accs := s.accs ++ new, seq := n } : State) = m at hrun
  have hexec : exec (.plane h e sa sb src) s = .next (settleTeam (.plane h e sa sb src) h s c slot t (.done (m.killLoads c slot))) := by
    refine runBoth_leader w hact ((if_neg h0).trans ?_) nofun
    dsimp only
    rw [show s.planeRun (t.x s c slot h).who (t.x s c slot h).team.depth false (t.x s c slot h).team.relSeq
      (fld ((t.x s c slot h).src.team.rs e).toNat 0 32) (fld ((t.x s c slot h).src.team.rs sa).toNat 0 32) ((t.x s c slot h).src.team.rs sb) src =
        .done m from hrun]
    rfl
  have hcoreM (k : Nat) : m.core k = if k = c then { s.core c with planeBy := some t.uid } else s.core k := by
    rw [← hm]
    exact State.core_modCore s c k fun q => { q with planeBy := some t.uid }
  have hteam : m.team? c slot = some t := by
    rw [← hm]
    exact w.2.1
  obtain ⟨hframe, hgoes, hrest, hcore⟩ := killLoads_done (i := .plane h e sa sb src) (h := h) (s := s) (t := t) hs hteam rfl
  refine ⟨_, hexec, fun q => ?_, hgoes, fun k hk => ?_, fun k hk x l => ?_, fun d hd => ?_, ?_, ?_, new, ?_, hnew⟩
  · rw [hrest, ← hm]
    rfl
  · rw [hframe.teams k hk, ← hm]
    rfl
  · exact (hframe.vregs k hk x l).trans (vreg_congr (by rw [← hm]; rfl) (by rw [hcoreM, if_pos rfl]) x l)
  · rw [hframe.cores d hd, hcoreM, if_neg hd]
  · rw [hcore, hcoreM, if_pos rfl]
  · rw [hrest, ← hm]
    rfl
  · rw [hrest, ← hm]

theorem planeStream_holds {r : Ridge} (w : RidgeIssues (.plane h e sa sb src) h s c r) (hadm : r.adm h = true) (hacq : s.acquiring r.uid = false)
    (hfree : (s.core c).planeBy = none) (hown : ∀ a ∈ s.accs, a.uid = r.uid → a.isRead = false → a.stage ≠ 0)
    (hcols : ∀ q ∈ planeCols src (fld (r.rs e).toNat 0 32) (r.rs sb), q.1 + q.2.1 ≤ r.hdr.packBytes)
    (hdst : fld (r.rs sa).toNat 0 32 + (64 + 256 * psrcWs src) ≤ r.hdr.packBytes) (hal : fld (r.rs sa).toNat 0 32 % 64 = 0)
    (hsrc : if 8 ≤ psrcBits src then fld (r.rs e).toNat 0 32 * 8 % psrcBits src = 0 else fld (r.rs sb).toNat 0 32 * psrcBits src % 8 = 0) :
    ∃ s', exec (.plane h e sa sb src) s = .next s' ∧ Claims.StreamFrame s s' c r.blk ∧ Claims.Streams s c r s' ∧
      s'.blocks = s.blocks ∧ (s'.core c).planeBy = some r.uid ∧
      ∃ new, s'.accs = s.accs ++ new ∧ new.map writeOf = (List.range ((64 + 256 * psrcWs src) / 8)).map fun k =>
        (AccK.write (((planeOf s r.blk src (fld (r.rs e).toNat 0 32) (r.rs sb)).drop (8 * k)).take 8),
          packKey r.blk (fld (r.rs sa).toNat 0 32 + 8 * k), 8, r.uid, s.seq) := by
  obtain ⟨new, n, hrun, hnew⟩ := planeRun_done (s := s) (w := Claims.streamOf r c) (depth := r.depth) (relSeq := 0) (ordered := true)
    hcols hdst hal hsrc hfree hacq (planeOwn_performed hown)
  generalize hm : ({ s.modCore (Claims.streamOf r c).core fun k => { k with planeBy := some (Claims.streamOf r c).uid } with accs := s.accs ++ new, seq := n } : State) = m at hrun
  have hexec : exec (.plane h e sa sb src) s = .next (settleRidge (.plane h e sa sb src) h s c r (.done m)) := by
    refine (show exec (.plane h e sa sb src) s = execPlane h e sa sb src s from rfl).trans ((runBoth_plainM w).trans ?_)
    refine congrArg (fun q => Host.Outcome.next (settleRidge (.plane h e sa sb src) h s c r q)) ?_
    rw [show (r.x c h).adm = true from hadm]
    exact (if_neg (by decide)).trans hrun
  have hcoreM (k : Nat) : m.core k = if k = c then { s.core c with planeBy := some r.uid } else s.core k := by
    rw [← hm]
    exact State.core_modCore s c k fun q => { q with planeBy := some r.uid }
  obtain ⟨hframe, hgoes, haccs, hblocks, hcores⟩ := stream_done (i := .plane h e sa sb src) (h := h) w.2.1 (m := m) (by rw [← hm]; rfl)
    (fun k _ => by rw [← hm]; rfl) (fun d hd => by rw [hcoreM, if_neg hd]) (by rw [hcoreM, if_pos rfl]) rfl
  refine ⟨_, hexec, hframe, hgoes, ?_, ?_, new, ?_, hnew⟩
  · rw [hblocks, ← hm]
    rfl
  · rw [show State.core _ c = m.core c from congrArg (fun k => Tbl.get Core.zero k c) hcores, hcoreM, if_pos rfl]
  · rw [haccs, ← hm]

theorem planeConverterDone_holds (c : Nat) (s : State) : ∃ s', exec (.planeConverterDone c) s = .next s' ∧ s' = { s with cores := s'.cores } ∧
    (∀ d, d ≠ c → s'.core d = s.core d) ∧ s'.core c = { s.core c with planeBy := none } := by
  refine ⟨_, rfl, rfl, fun d hd => ?_, ?_⟩
  · exact (State.core_modCore ..).trans (if_neg hd)
  · exact (State.core_modCore ..).trans (if_pos rfl)

end

/-! The rows of an access, and the writes of its elements. -/

theorem rowsAt_get (a stride : Nat) {m : Nat} (hm : m < 32) : (rowsAt a stride 32)[m]? = some ((a + m * stride) % 2 ^ 64) := by
  unfold rowsAt
  rw [List.getElem?_map, List.getElem?_range hm]
  rfl

theorem zip_rowsAt (a stride : Nat) : (List.range 32).zip (rowsAt a stride 32) = (List.range 32).map fun m => (m, (a + m * stride) % 2 ^ 64) := by
  have h := List.zip_map' (f := id) (g := fun m => (a + m * stride) % 2 ^ 64) (l := List.range 32)
  rwa [List.map_id] at h

theorem zstWrites_rowsAt (fmt : ZFmt) (el : Nat → Nat → Nat) (a stride : Nat) (key : Nat → Nat) (uid after : Nat) :
    ((zstWrites fmt el (rowsAt a stride 32) key).map fun p => (AccK.write p.2, p.1.key, p.2.length, uid, after)) =
      (List.range 32).flatMap fun m => (List.range 32).map fun j =>
        (AccK.write (toLe ((zfmtTy fmt).w / 8) (packF (zfmtTy fmt) Rnd.rne (unpackF .f32 false (el m j))).bits),
          key ((a + m * stride) % 2 ^ 64) + j * ((zfmtTy fmt).w / 8), (zfmtTy fmt).w / 8, uid, after) := by
  unfold zstWrites
  rw [zip_rowsAt, List.flatMap_map, List.map_flatMap]
  refine List.flatMap_congr fun m _ => ?_
  rw [List.map_map]
  refine List.map_congr_left fun j _ => ?_
  rw [Function.comp_apply, length_toLe]

/-- A write in flight without the number that it waits for. -/
theorem map_unordered (l : List Access) : (l.map fun q => (q.kind, q.key, q.len, q.uid)) =
    (l.map writeOf).map fun x => (x.1, x.2.1, x.2.2.1, x.2.2.2.1) := by
  rw [List.map_map]
  rfl

/-- What was in flight is followed by what an instruction adds. -/
theorem accs_split {l l' new : List Access} (h : l' = l ++ new) : l'.take l.length = l ∧ l'.drop l.length = new := by
  subst h
  exact ⟨List.take_left .., List.drop_left ..⟩

/-- Settles O45: rows on chip are read as they stand, a tile or an accumulator is what the rows give, and the writes of ZST and PLANE are
put in flight one after another. -/
theorem matrixTilesAndConverts : Obligations.MatrixTilesAndConverts := by
  unfold Obligations.MatrixTilesAndConverts
  refine ⟨fun h s c r b hb hadm howes => ⟨?mlda, ?moutl, ?zld, ?zst, ?zclr, ?zmap⟩, ?planeTeam, ?planeStream, planeConverterDone_holds⟩
  case mlda =>
    intro a e sa sb bsel fmt sp key rows row w hsp hon halign hbusy hecc
    obtain ⟨s', b', hexec, hframe, hgoes, haccs, hbl, hrest, hother, htile⟩ := mlda_holds rfl w hb hadm howes hsp hon halign hbusy hecc
    refine ⟨s', b', hexec, hframe, hgoes, haccs, hbl, hrest, hother, ?_, ?_, ?_, fun m k hm hk => ?_⟩
    · rw [htile]; rfl
    · rw [htile]; rfl
    · rw [htile]; rfl
    · rw [htile]
      exact tileOf_get (fun _ => length_wfmtDecode ..) hm hk (by rw [List.getElem?_map, rowsAt_get _ _ hm]; rfl)
  case moutl =>
    intro e off n l w h8 hn hfit hrise hzero
    exact moutl_holds w hb hadm howes rfl rfl rfl h8 hn hfit hrise hzero
  case zld =>
    intro z e tr sp key rows at_ w hsp hon halign hstride hbusy hecc
    obtain ⟨s', b', hexec, hframe, hgoes, haccs, hbl, hrest, hother, huse, hdirty, hel⟩ :=
      zld_holds rfl w hb hadm howes hsp hon halign hstride hbusy hecc
    refine ⟨s', b', hexec, hframe, hgoes, haccs, hbl, hrest, hother, huse, hdirty, fun m n hm hn => ?_⟩
    have hrow {j : Nat} (hj : j < 32) : ((rowsAt (r.rs e).toNat (r.rs (sregAt e 1)).toNat 32).map fun x => s.memRead (key x) 128).getD j [] =
        s.memRead (at_ j) 128 := by
      rw [List.getD_eq_getElem?_getD, List.getElem?_map, rowsAt_get _ _ hj]
      rfl
    rw [hel m n hm hn]
    cases tr with
    | true => exact (congrArg (le32 · (4 * m)) (hrow hn)).trans (le32_row s _ hm)
    | false => exact (congrArg (le32 · (4 * n)) (hrow hm)).trans (le32_row s _ hn)
  case zst =>
    intro z free e fmt tr sp key n rows el w hsp hon hel hstride hbusy
    obtain ⟨s', b', hexec, hframe, hgoes, hbl, hrest, hacc, new, haccs, hnew⟩ := zst_holds rfl rfl w hb hadm hsp hon hel hstride hbusy
    obtain ⟨htake, hdrop⟩ := accs_split haccs
    refine ⟨s', b', hexec, hframe, hgoes, hbl, hrest, hacc, htake, ?_⟩
    rw [hdrop, map_unordered, hnew, zstWrites_rowsAt, List.map_flatMap]
    refine List.flatMap_congr fun m _ => ?_
    rw [List.map_map]
    rfl
  case zclr => exact fun tile n w hbusy => zclr_holds w hb hadm hbusy
  case zmap =>
    intro z a e op w hz ha
    obtain ⟨s', b', hexec, hframe, hgoes, haccs, hbl, hrest, hother, huse, hdirty, hel⟩ := zmap_holds w hb hadm hz ha
    refine ⟨s', b', hexec, hframe, hgoes, haccs, hbl, hrest, hother, huse, hdirty, fun k hk => ?_⟩
    rw [hel k hk]
    cases op with
    | mov => exact BitVec.ofNat_toNat ..
    | add => rfl
    | scale => rfl
    | relu => rfl
  case planeTeam =>
    intro h e sa sb src s c slot t so dst ld nv size cols tile hs w hact h0 hacq hfree hcols hdst hal hsrc
    obtain ⟨s', hexec, hmem, hgoes, hteams, hvregs, hcores, hcore, hrest, new, haccs, hnew⟩ :=
      planeTeam_holds hs w hact h0 hacq hfree hcols hdst hal hsrc
    obtain ⟨htake, hdrop⟩ := accs_split haccs
    refine ⟨s', hexec, hmem, hgoes, hteams, hvregs, hcores, hcore, hrest, htake, ?_⟩
    rw [hdrop]
    exact hnew
  case planeStream =>
    intro h e sa sb src s c r so dst ld nv size cols tile w hadm hacq hfree hown hcols hdst hal hsrc
    obtain ⟨s', hexec, hframe, hgoes, hblocks, hby, new, haccs, hnew⟩ := planeStream_holds w hadm hacq hfree hown hcols hdst hal hsrc
    obtain ⟨htake, hdrop⟩ := accs_split haccs
    refine ⟨s', hexec, hframe, hgoes, hblocks, hby, htake, ?_⟩
    rw [hdrop]
    exact hnew

end Sys2Proof.Proofs

end
